-- ==== Sys2Proof/Word.lean ====
section
/-! DEFINITION. The words of the pair: register words, bytes, 64 B lines, and the canonical tables that hold sparse state. -/
namespace Sys2Proof

/-- A 32-bit page register word. -/
abbrev Word := BitVec 32
/-- One byte. -/
abbrev Byte := BitVec 8
/-- A 64 B line (R7), byte 0 in bits 7:0. -/
abbrev Line := BitVec 512

/-- Sparse state by key: keys strictly rising, no entry equal to what an unlisted key reads as. -/
abbrev Table (V : Type) := List (Nat × V)

/-- Bits `lo + width - 1 : lo` of a word, as a number. -/
def bitsOf (w : Word) (lo width : Nat) : Nat := (w.toNat >>> lo) % 2 ^ width

/-- The word with bits `lo + width - 1 : lo` replaced by `v`. -/
def withBits (w : Word) (lo width v : Nat) : Word :=
  BitVec.ofNat 32 (w.toNat - (bitsOf w lo width) * 2 ^ lo + (v % 2 ^ width) * 2 ^ lo)

/-- The bit of a Bool. -/
abbrev bit (b : Bool) : Nat := if b then 1 else 0

end Sys2Proof
end

