-- ==== Sys2Proof/Syntax.lean ====
section
/-! DEFINITION. The commands of the block: one constructor for each row of the command table, with the operands its rule gives it.
Operands that carry what the outside world brings (how a link trained, what a sensor reads, how a read of stored bytes ended) stand
beside those that name a chip, a page, a head or a line. -/
namespace Sys2Proof

/-- The two chips of the pair (TWIN_ID). -/
inductive Twin where
  | A | B
  deriving DecidableEq, Repr

/-- The other chip. -/
def Twin.other : Twin → Twin
  | .A => .B
  | .B => .A

/-- The TWIN_ID bit: 0 for A, 1 for B. -/
def Twin.id : Twin → Nat
  | .A => 0
  | .B => 1

/-- Who makes a register access (R47): a head through BAR0, MCTP, a core in machine or supervisor mode, or the debug port's
SYSBUS. -/
inductive Requester where
  | host (h : Fin 24)
  | mctp
  | coreM (n : Fin 9)
  | coreS (n : Fin 9)
  | debugPort
  deriving DecidableEq, Repr

/-- A register access that writes: page, offset within the page, size in bytes, data. -/
structure PageWrite where
  page : Nat
  off : Nat
  size : Nat
  data : BitVec 64
  deriving DecidableEq, Repr

/-- Bits of a read that LDPC corrected, and the column, read level and direction they are charged to (R354). -/
structure BitCharge where
  column : Fin 32
  level : Fin 8
  bits : Nat
  upward : Bool
  deriving DecidableEq, Repr

/-- How a parcel read from the media ended (R349 to R351): the columns whose codewords decoded, the columns whose hard decision failed, the codewords
that needed soft decision, the retry entries used, the bits corrected, the cells RS found in error without an LDPC failure, the CRC check of R346,
and the columns whose codewords needed soft decision or failed, and those that failed every stage. -/
structure MediaRead where
  good : Nat
  hardFails : BitVec 32
  soft : Nat
  retries : Nat
  charges : List BitCharge
  silent : Nat
  crcGood : Bool
  weak : BitVec 32
  failed : BitVec 32
  deriving DecidableEq, Repr

/-- A word of an SRAM of R442 that its check covers: a way of the Metadata Cache at a set, an entry of a directory bank, an entry of a head's
translation cache, a byte of write data in a receive queue, response data in a slot, a core's own caches or local memory, a word of eflash with the core
that loads it (or fetches it), or control state of Sorter, WMB (with the line of the entry) or twin engine. -/
inductive SramUnit where
  | mdcWay (way : Fin 18) (set : Fin 16384)
  | dirBank (bank : Fin 17) (line : Nat)
  | translation (h : Fin 24) (extent : Nat)
  | queueByte (h : Fin 24) (pos : Nat) (byte : Fin 64)
  | response
  | core (n : Fin 8)
  | eflash (word : Fin 524288) (reader : Option (Fin 8 × Bool))
  | control (line : Option Nat)
  deriving DecidableEq, Repr

/-- What the hardware of a chip finds in itself in the course of a Round, for which the command table has no row: events that a measured counter
counts (page, snapshot slot, amount), the longest time of a counter in ns, the reading of a measured register (page, offset, lowest bit,
value), the time a CXL.mem completion took, errors of its memories, and the full-stripe read of a parcel by the media scrub, with the share in
percent of the hard-decision capability that the worst codeword of its row needed. -/
inductive Finding where
  | dramLine (address : Nat) (bad : BitVec 20) (patrol : Bool)
  | sram (unit : SramUnit) (correctable scrub : Bool)
  | counted (page slot amount : Nat)
  | longest (page slot ns : Nat)
  | reading (page off lo value : Nat)
  | completion (h : Fin 24) (ns : Nat)
  | wmbByte (line byte : Nat) (correctable : Bool)
  | scrubRead (parcel : Nat) (x : MediaRead) (worstPct : Nat)
  deriving DecidableEq, Repr

/-- What a Round brings the chip from outside: the work each budgeted job's new quantum needs in ns (run order of R26), the
offset measured against the keeper in ns (R22), the HOLDUP_LVL pins, the 32 sensor readings in 0.25 °C (`none`: no
answer), and what the chip's hardware found in the Round that ends. -/
structure RoundInputs where
  quantum : List Nat
  offset : Int
  holdup : Fin 8
  sensors : List (Option Nat)
  findings : List Finding
  deriving DecidableEq, Repr

/-- How a host link trained (R66, R67): rate code, width code, what flit forms the host offers, whether lanes are reversed, the
lanes in use and failed, and the coefficients the host asked for (R97). -/
structure LinkTraining where
  rate : Fin 6
  width : Fin 5
  offers256 : Bool
  offersLopt : Bool
  reversed : Bool
  lanes : BitVec 16
  detected : BitVec 16
  failed : BitVec 16
  pre : Fin 64
  main : Fin 64
  post : Fin 64
  deriving DecidableEq, Repr

/-- What a host programs into one HDM decoder (R73, R74). -/
structure DecoderCfg where
  hpaBase : Nat
  hpaSize : Nat
  ways : Nat
  gran : Nat
  bi : Bool
  skip : Nat
  lock : Bool
  deriving DecidableEq, Repr

/-- A part of a head's configuration space that reads as the spec says (R68 to R70, R73, R95, R104). -/
inductive ConfigReg where
  | vendorDevice | classCode | subsystem | serialNumber | maxPayload | interruptPin | powerState | memoryActive | registerLocator
  | gpfDuration | gpfPower | decoder (n : Fin 16) | msixEntry (v : Fin 64)
  deriving DecidableEq, Repr

/-- A CXL.io request to a head (R41, R79, R80): a write that names the register, a byte of the mailbox payload or a word of configuration
space; a memory write or read of BAR0 by offset; a read of configuration space. -/
inductive IoWrite where
  | decoder (n : Fin 16) (d : DecoderCfg)
  | msix (v : Fin 64) (addr : BitVec 64) (data : BitVec 32) (masked : Bool)
  | mailboxPayload (off : Nat) (data : Byte)
  | powerState (d3hot : Bool)
  | other (off : Nat) (data : Word)
  | bar (off size : Nat) (data : BitVec 64)
  | barRead (off size : Nat)
  | configRead (reg : ConfigReg)
  | configWord (off : Nat)
  deriving DecidableEq, Repr

/-- The stream position of a request (R117, R173): flit count and slot. -/
structure Pos where
  flit : Nat
  slot : Fin 16
  deriving DecidableEq, Repr

/-- A position as the 40-bit value of R173. -/
def Pos.code (p : Pos) : Nat := (p.flit % 2 ^ 36) * 16 + p.slot.val

/-- The request kinds of the M2S channels (R71). -/
inductive ReqKind where
  | memRd | memRdData | memInv | memInvNT | memSpecRd | memWr | memWrPtl
  deriving DecidableEq, Repr

/-- A CXL.mem request of a head: its kind, position, host line address in bytes, byte enables, data, poison, MetaValue (0 I, 2 A,
3 S, as CXL numbers them) and the snoop it asks for. -/
structure Request where
  head : Fin 24
  kind : ReqKind
  pos : Pos
  hpa : Nat
  enables : BitVec 64
  data : Line
  poison : Bool
  metaValue : Fin 4
  deriving DecidableEq, Repr

/-- How a request reached the pair: whether the carbon decoded its flit (R100), and the count of home flits the host has
acknowledged (R193). -/
structure Arrival where
  carbonSaw : Bool
  hostAck : Nat
  deriving DecidableEq, Repr

/-- How a read of stored bytes ended: good, corrected by its code, or uncorrectable. -/
inductive ReadOutcome where
  | good | corrected | uncorrectable
  deriving DecidableEq, Repr

/-- The two directions of a host link. -/
inductive Direction where
  | hostToDevice | deviceToHost
  deriving DecidableEq, Repr


/-- What a format finds (R344): user MiB of a block, positions per channel, and for each position the fewest good blocks of any
channel; the profile's figures (R338, R378): its number, rated program/erase cycles, program and read times, blocks of a LUN, pages of a
block, planes, SLC read, erase and suspend times, spare bytes of a page; whether each channel's parameter page matched one profile, and whether
every channel carries the same parts and positions. -/
structure MediaScan where
  blockMib : Nat
  positions : Nat
  good : List Nat
  profileId : Nat
  peTlc : Nat
  peSlc : Nat
  tprogSlcUs : Nat
  blocks : Nat
  pages : Nat
  planes : Nat
  trUs : Nat
  tprogUs : Nat
  trSlcUs : Nat := 0
  tbersUs : Nat := 0
  suspendUs : Nat := 0
  spareBytes : Nat := 1872
  matched : Bool := true
  even : Bool := true
  deriving DecidableEq, Repr

/-- What the training of one DRAM channel found (R410, R423, R424, R427, R438, R465): DIMMs fitted, logical ranks of each, density code, capacity of
one DIMM in GiB, ranks that failed, the step they failed in, the eyes, the PPR resources that each bank group has left, whether R410 supports the
DIMMs, the activations of a bank after which they require refresh management (0: they do not), and the serial numbers of both DIMMs. -/
structure ChannelTraining where
  dimms : Fin 3
  ranks : Fin 9
  density : Fin 3
  gib : Fin 257
  failed : BitVec 16
  step : Fin 7
  rdEye : Byte
  wrEye : Byte
  ppr : Byte
  supported : Bool
  rfm : BitVec 10
  serialA : Nat
  serialB : Nat
  deriving DecidableEq, Repr

/-- The memory operations of R481. -/
inductive AtomicOp where
  | lr | sc | swap | add | xor | and' | or' | min | max | minu | maxu
  deriving DecidableEq, Repr

/-- A unit with a spare whose checker failed (R452). -/
inductive SpareUnit where
  | mdcWay (n : Fin 18)
  | dirBank (n : Fin 17)
  | core (n : Fin 9)
  deriving DecidableEq, Repr

/-- What start-up finds of the chip (R451, R551): checker classes that failed with their first instance, the SMB_ADDR strap, whether the media are
blank or foreign, and how long the self-test and the way to the
firmware took in µs. -/
structure BootReport where
  failed : BitVec 7
  spareUnit : Option SpareUnit
  firstInst : BitVec 16
  smbAddr : Fin 8
  blankMedia : Bool
  testUs : BitVec 16
  entryUs : BitVec 16
  deriving DecidableEq, Repr

/-- How an AVSBus frame ended (R531): answered with data and status, or not answered or answered with a bad CRC. -/
inductive AvsReply where
  | answer (data : BitVec 16) (reached : Bool)
  | bad
  deriving DecidableEq, Repr

/-- A line of the WMB offered to its DRAM channel (R128), and whether the channel's write queue has room. -/
structure DrainOffer where
  line : Nat
  room : Bool
  deriving DecidableEq, Repr

/-- How the programming of the seal went (R398, R543): the save's length and the mean program time in µs, and the records that came out bad. -/
structure SealWork where
  us : Nat
  tprogUs : Nat
  bad : List Nat
  deriving DecidableEq, Repr

/-- The seal copies that a start finds (R401): how many read good, and whether one was damaged. -/
structure SealCopies where
  count : Nat
  damaged : Bool
  deriving DecidableEq, Repr

/-- What the always-on domain comes up with (R548): the TWIN_ID strap, and the stored versions of the sequence store whose check fails. -/
structure AlwaysOnStart where
  strap : Twin
  bad : List Nat
  deriving DecidableEq, Repr

/-- The body of a Showick page message (R541). -/
structure PageMessage where
  reserved1 : Byte
  page : BitVec 16
  off : BitVec 16
  chip : Byte
  reserved7 : Byte
  data : Word
  deriving DecidableEq, Repr

/-- A bus access of the debug port (R569, R570): address, size in bytes, and what it writes. -/
structure BusAccess where
  addr : Nat
  size : Fin 9
  write : Option (BitVec 64)
  deriving DecidableEq, Repr

/-- The commands. Each constructor's docstring gives its rule and what the table says of it. -/
inductive Instr where
  /-- ROUND_BOUNDARY (R20). The Round counter reaches 400 Coxia REFCLK periods and a new Round begins; the Round's fixed slots and budgeted jobs run in it. -/
  | roundBoundary (w : Twin) (x : RoundInputs)
  /-- DELIVERY_BOUNDARY (R35). DELIVERY_N Rounds have passed and the Delivery ends. -/
  | deliveryBoundary (w : Twin)
  /-- JOB_ALLOWANCE_REACHED (R29). A budgeted job uses up its allowance, stops at its next safe point and defers the rest of its work. -/
  | jobAllowanceReached (w : Twin) (late : Fin 41)
  /-- END_MARK (R30). The 3,800 ns end mark is reached: a running job stops at its next safe point and jobs not yet started defer. -/
  | endMark (w : Twin) (late : Fin 41)
  /-- STARVE_PROMOTE (R33). A job has deferred in STARVE_LIMIT consecutive Rounds and runs directly after the governor in the next Round. -/
  | starvePromote (w : Twin)
  /-- HOLDUP_RISE (R384). A higher hold-up level has been shown for RISE_ROUNDS consecutive Rounds and is applied. -/
  | holdupRise (w : Twin)
  /-- REGISTER_WRITE (R56). A write to a register that has no row of its own is stored, or is checked and applied or rejected if it is live. -/
  | registerWrite (w : Twin) (rq : Requester) (x : PageWrite)
  /-- PAGE_ENABLE (R52). A write of 1 to CTRL.ENABLE starts the page check. -/
  | pageEnable (w : Twin) (rq : Requester) (page : Nat)
  /-- PAGE_DISABLE (R52). A write of 0 to CTRL.ENABLE drains and turns off the page, or is rejected. -/
  | pageDisable (w : Twin) (rq : Requester) (page : Nat)
  /-- PAGE_QUIESCE (R52). Setting CTRL.QUIESCE drains a RUNNING page towards QUIESCED. -/
  | pageQuiesce (w : Twin) (rq : Requester) (page : Nat)
  /-- PAGE_UNQUIESCE (R52). Clearing CTRL.QUIESCE with ENABLE 1 takes a quiesced page into CHECKING. -/
  | pageUnquiesce (w : Twin) (rq : Requester) (page : Nat)
  /-- SOFT_RESET (R55). CTRL.SOFT_RESET returns the page to its reset values, or the write is rejected. -/
  | softReset (w : Twin) (rq : Requester) (page : Nat)
  /-- FREEZE_CFG (R52). CTRL.FREEZE_CFG makes the page's RWF fields read-only until reset. -/
  | freezeCfg (w : Twin) (rq : Requester) (page : Nat)
  /-- PAGE_CHECK_DONE (R54). At the start of Round t+2 the page becomes RUNNING, REFUSED or OFF after stages 1 to 11 of its check. -/
  | pageCheckDone (w : Twin) (page : Nat)
  /-- PAGE_DRAINED (R52). A block has drained after a quiesce or a disable request and its page enters QUIESCED or OFF. -/
  | pageDrained (w : Twin) (page : Nat)
  /-- PAGE_FAULT (R52). An internal fault defined by the owning chapter takes the page to FAULT. -/
  | pageFault (w : Twin) (page : Nat)
  /-- EVT_STATUS_CLEAR (R51). A W1C write clears EVT_STATUS bits, unless an event sets the same bit in that cycle. -/
  | evtStatusClear (w : Twin) (rq : Requester) (page : Nat) (bits : Word) (again : Word)
  /-- EVT_FORCE (R51). EVT_FORCE sets EVT_STATUS bits, which are delivered as the real events are. -/
  | evtForce (w : Twin) (rq : Requester) (page : Nat) (bits : Word)
  /-- EVT_ENABLE_WRITE (R51). A write to EVT_ENABLE changes the event output and sends a record for each enable bit that rises while its status bit is set. -/
  | evtEnableWrite (w : Twin) (rq : Requester) (page : Nat) (bits : Word)
  /-- PEER_PAGE_READ (R42). A read of a peer page is forwarded over the Coxia Link, or is answered with all-ones when the peer cannot be reached. -/
  | peerPageRead (w : Twin) (rq : Requester) (page : Nat) (off : Nat) (size : Nat)
  /-- PEER_PAGE_WRITE (R43). A write of a peer page is forwarded over the Coxia Link, or is dropped when the peer cannot be reached. -/
  | peerPageWrite (w : Twin) (rq : Requester) (x : PageWrite)
  /-- PAIR_ALIAS_WRITE (R59). A write through the pair alias is accepted and sent to the peer in an ALIAS postmark. -/
  | pairAliasWrite (w : Twin) (rq : Requester) (x : PageWrite)
  /-- ALIAS_WRITE_APPLY (R59). At the start of Round r+2 both chips apply the alias writes, A's before B's. -/
  | aliasWriteApply
  /-- LINK_TRAINED (R66). A host link trains to L0 at a rate, width and flit mode. -/
  | linkTrained (h : Fin 24) (t : LinkTraining)
  /-- LINK_DEGRADE_RETRY (R67). One ms after a link trained below its minimum width or rate, it is retried from Detect. -/
  | linkDegradeRetry (h : Fin 24)
  /-- DECODER_COMMIT (R75). A host commits an HDM decoder, which is checked and committed or failed. -/
  | decoderCommit (h : Fin 24) (n : Fin 16)
  /-- CXL_IO_CONFIG_WRITE (R80). A CXL.io write to configuration space or to the CXL register area is carried out by both twins. -/
  | cxlIoConfigWrite (h : Fin 24) (x : IoWrite)
  /-- MEM_RD (R122). A MemRd request arrives, is admitted and is served from the WMB, the tiers or the directory, or as an unmapped access. -/
  | memRd (r : Request) (v : Arrival)
  /-- MEM_RD_DATA (R239). A MemRdData request is handled as a MemRd with MetaValue S, with an EXCLUSIVE grant on a commons when allowed. -/
  | memRdData (r : Request) (v : Arrival)
  /-- MEM_INV (R238). A MemInv to a commons line snoops the holders and updates the directory. -/
  | memInv (r : Request) (v : Arrival)
  /-- MEM_INV_NT (R238). A MemInvNT to a commons line snoops the holders and updates the directory. -/
  | memInvNt (r : Request) (v : Arrival)
  /-- MEM_SPEC_RD (R121). A MemSpecRd hint opens a DRAM row early or is dropped. -/
  | memSpecRd (r : Request) (room : Bool)
  /-- MEM_WR (R131). A MemWr enters both WMBs and completes under its domain's completion mode. -/
  | memWr (r : Request) (v : Arrival)
  /-- MEM_WR_PTL (R125). A MemWrPtl merges its enabled bytes into the WMB without a read. -/
  | memWrPtl (r : Request) (v : Arrival)
  /-- BIRSP_I (R238). A BIRspI removes the snooped head from the line's holders. -/
  | birspI (h : Fin 24) (line : Nat)
  /-- BIRSP_S (R238). A BIRspS keeps the snooped head as a sharer. -/
  | birspS (h : Fin 24) (line : Nat)
  /-- BIRSP_E (R238). A BIRspE leaves the snooped head as the sole holder. -/
  | birspE (h : Fin 24) (line : Nat)
  /-- BI_CONFLICT (R241). A BIConflict is answered at once with BI-ConflictAck, and the head's request is ordered after the snoop's cause. -/
  | biConflict (h : Fin 24) (line : Nat)
  /-- REQUEST_ADMIT (R113). A request at the front of a receive queue meets every admission condition and enters the Sorter. -/
  | requestAdmit (h : Fin 24) (write : Bool)
  /-- DRAM_READ_DONE (R413). A pair access returns from the DIMM and its lines are decoded, corrected or found uncorrectable. -/
  | dramReadDone (w : Twin) (line : Nat) (bad : BitVec 20) (aged : Nat)
  /-- DOE_DISCOVERY (R81). A DOE Discovery request is answered. -/
  | doeDiscovery (h : Fin 24) (index : Nat)
  /-- CDAT_TABLE_ACCESS (R82). A CDAT Table Access request returns the head's CDAT entries. -/
  | cdatTableAccess (h : Fin 24) (entry : Nat)
  /-- SPDM_GET_VERSION (R562). The SPDM responder answers GET_VERSION. -/
  | spdmGetVersion (h : Fin 24)
  /-- SPDM_GET_CAPABILITIES (R562). The SPDM responder answers GET_CAPABILITIES. -/
  | spdmGetCapabilities (h : Fin 24)
  /-- SPDM_NEGOTIATE_ALGORITHMS (R562). The SPDM responder answers NEGOTIATE_ALGORITHMS. -/
  | spdmNegotiateAlgorithms (h : Fin 24)
  /-- SPDM_GET_DIGESTS (R562). The SPDM responder returns its certificate digests. -/
  | spdmGetDigests (h : Fin 24)
  /-- SPDM_GET_CERTIFICATE (R562). The SPDM responder returns a certificate chain. -/
  | spdmGetCertificate (h : Fin 24) (slot : Fin 8) (off : Nat) (len : Nat)
  /-- SPDM_CHALLENGE (R562). The SPDM responder answers a CHALLENGE with the pair key. -/
  | spdmChallenge (h : Fin 24) (slot : Fin 8)
  /-- SPDM_GET_MEASUREMENTS (R563). The SPDM responder returns the indexed measurements. -/
  | spdmGetMeasurements (h : Fin 24) (index : Fin 256)
  /-- SPDM_KEY_EXCHANGE (R562). The SPDM responder starts a session with KEY_EXCHANGE. -/
  | spdmKeyExchange (h : Fin 24)
  /-- SPDM_FINISH (R562). FINISH completes a session, whose secrets reach the carbon as gated effects. -/
  | spdmFinish (h : Fin 24) (id : Fin 4)
  /-- SPDM_HEARTBEAT (R562). The SPDM responder answers a session HEARTBEAT. -/
  | spdmHeartbeat (h : Fin 24) (id : Fin 4)
  /-- SPDM_KEY_UPDATE (R562). The SPDM responder updates the session keys. -/
  | spdmKeyUpdate (h : Fin 24) (id : Fin 4)
  /-- SPDM_END_SESSION (R562). The SPDM responder ends a session. -/
  | spdmEndSession (h : Fin 24) (id : Fin 4)
  /-- SPDM_SET_CERTIFICATE (R562). A manager head sets the certificate of slot 1. -/
  | spdmSetCertificate (h : Fin 24) (slot : Fin 8) (bytes : List Byte)
  /-- K_SET_GO (R564). The IDE_KM K_SET_GO is answered after the carbon has applied the key set. -/
  | kSetGo (h : Fin 24) (set : Fin 2)
  /-- GET_EVENT_RECORDS (R89). The mailbox returns records from a head's event log. -/
  | getEventRecords (h : Fin 24) (log : Fin 4)
  /-- CLEAR_EVENT_RECORDS (R89). The mailbox clears event records on both twins. -/
  | clearEventRecords (h : Fin 24) (log : Fin 4) (all : Bool) (handles : List Nat)
  /-- GET_EVENT_INTERRUPT_POLICY (R86). The mailbox returns the event interrupt policy. -/
  | getEventInterruptPolicy (h : Fin 24)
  /-- SET_EVENT_INTERRUPT_POLICY (R92). The mailbox sets the MSI-X policy of the event logs. -/
  | setEventInterruptPolicy (h : Fin 24) (log : Fin 4) (mode : Fin 4)
  /-- GET_FW_INFO (R490). The mailbox reports the firmware slots that both twins hold. -/
  | getFwInfo (h : Fin 24)
  /-- TRANSFER_FW (R490). A manager writes a firmware image into the inactive slot of both twins. -/
  | transferFw (h : Fin 24) (off : Nat) (bytes : List Byte)
  /-- ACTIVATE_FW (R490). A manager runs PTR_SWAP on both twins so that the image runs at the next cold start. -/
  | activateFw (h : Fin 24) (slot : Fin 2)
  /-- GET_TIMESTAMP (R86). The mailbox returns the timestamp. -/
  | getTimestamp (h : Fin 24)
  /-- SET_TIMESTAMP (R86). A manager sets the pair-wide timestamp. -/
  | setTimestamp (h : Fin 24) (ns : BitVec 64)
  /-- GET_SUPPORTED_LOGS (R86). The mailbox lists the supported logs. -/
  | getSupportedLogs (h : Fin 24)
  /-- GET_LOG (R86). The mailbox returns the CEL or the Command Effects Log. -/
  | getLog (h : Fin 24) (log : Fin 2) (off : Nat) (len : Nat)
  /-- IDENTIFY_MEMORY_DEVICE (R86). The mailbox returns the capacities and limits of the memory device. -/
  | identifyMemoryDevice (h : Fin 24)
  /-- GET_PARTITION_INFO (R86). The mailbox reports that all capacity is persistent. -/
  | getPartitionInfo (h : Fin 24)
  /-- GET_LSA (R86). The mailbox reads the pair's label storage area. -/
  | getLsa (h : Fin 24) (off : Nat) (len : Nat)
  /-- SET_LSA (R86). A manager writes the pair's label storage area. -/
  | setLsa (h : Fin 24) (off : Nat) (bytes : List Byte)
  /-- GET_HEALTH_INFO (R403). The mailbox returns health information, including the dirty shutdown count. -/
  | getHealthInfo (h : Fin 24)
  /-- GET_ALERT_CONFIGURATION (R86). The mailbox returns the alert configuration. -/
  | getAlertConfiguration (h : Fin 24)
  /-- SET_ALERT_CONFIGURATION (R86). A manager sets the alert configuration. -/
  | setAlertConfiguration (h : Fin 24) (bytes : List Byte)
  /-- GET_SHUTDOWN_STATE (R86). The mailbox returns the shutdown state. -/
  | getShutdownState (h : Fin 24)
  /-- SET_SHUTDOWN_STATE (R86). A manager sets the shutdown state. -/
  | setShutdownState (h : Fin 24) (dirty : Bool)
  /-- GET_POISON_LIST (R86). The mailbox returns the poison list. -/
  | getPoisonList (h : Fin 24) (dpa : Nat) (lines : Nat)
  /-- INJECT_POISON (R86). A manager injects poison at an address. -/
  | injectPoison (h : Fin 24) (dpa : Nat)
  /-- CLEAR_POISON (R86). A manager clears poison at an address. -/
  | clearPoison (h : Fin 24) (dpa : Nat) (data : Line)
  /-- GET_SCAN_MEDIA_CAPABILITIES (R86). The mailbox returns the Scan Media capabilities. -/
  | getScanMediaCapabilities (h : Fin 24) (dpa : Nat) (lines : Nat)
  /-- SCAN_MEDIA (R86). A manager starts Scan Media as a background operation. -/
  | scanMedia (h : Fin 24) (dpa : Nat) (lines : Nat)
  /-- GET_SCAN_MEDIA_RESULTS (R86). The mailbox returns the results of Scan Media. -/
  | getScanMediaResults (h : Fin 24)
  /-- SANITIZE (R568). A manager starts crypto-erase of every domain and zero-fill of the front tier as a background operation. -/
  | sanitize (h : Fin 24)
  /-- SECURE_ERASE (R568). A manager crypto-erases every domain. -/
  | secureErase (h : Fin 24)
  /-- GET_PAIR_INFO (R87). The mailbox returns the pair serial number, the chip states, the homes and the round number. -/
  | getPairInfo (h : Fin 24)
  /-- GET_DIRTY_BUDGET (R87). The mailbox returns each chip's budget and unsaved bytes. -/
  | getDirtyBudget (h : Fin 24)
  /-- GET_DEAD_LETTERS (R456). The mailbox returns Dead-Letter Log entries of the home's log. -/
  | getDeadLetters (h : Fin 24) (first : Nat)
  /-- START_DRILL (R87). A manager starts a takeover drill on a port. -/
  | startDrill (h : Fin 24) (port : Nat)
  /-- MAILBOX_BACKGROUND_DONE (R85). A background mailbox operation completes. -/
  | mailboxBackgroundDone
  /-- MSIX_MODERATOR_FIRE (R93). A vector's moderator reaches COUNT causes, or TIME_US after its first cause, and sends or holds its message. -/
  | msixModeratorFire (h : Fin 24) (v : Fin 64) (timer : Bool)
  /-- D0_ENTRY (R155). A configuration write sets D0, and held MSI-X messages are sent or set pending. -/
  | d0Entry (h : Fin 24)
  /-- GPF_PHASE1 (R95). A GPF Phase 1 request is answered at once. -/
  | gpfPhase1 (h : Fin 24)
  /-- GPF_PHASE2 (R95). A GPF Phase 2 request waits for every earlier accepted write to be held in both WMBs. -/
  | gpfPhase2 (h : Fin 24)
  /-- GPF_PHASE2_DONE (R95). The writes that a Phase 2 request covers are held, and the response is sent. -/
  | gpfPhase2Done (h : Fin 24)
  /-- HOT_RESET (R96). A hot reset retrains the head's link and resets its function state. -/
  | hotReset (h : Fin 24)
  /-- SECONDARY_BUS_RESET (R96). A Secondary Bus Reset acts on the head as a hot reset does. -/
  | secondaryBusReset (h : Fin 24)
  /-- FLR (R96). An FLR resets the head's function state and keeps the link up. -/
  | headFlr (h : Fin 24)
  /-- CXL_RESET (R96). A CXL Reset resets the head's function state and keeps the link up. -/
  | cxlReset (h : Fin 24)
  /-- PERST_ASSERT (R585). PERST_N of a port falls, and every head of the port is held in reset with its link in Detect. -/
  | perstAssert (p : Fin 6)
  /-- PERST_DEASSERT (R585). PERST_N of a port rises, and its links train. -/
  | perstDeassert (p : Fin 6)
  /-- CARBON_ACQUIRED (R102). A carbon link completes acquisition and enters TRACKING. -/
  | carbonAcquired (w : Twin) (h : Fin 24) (ns : Nat)
  /-- ACQ_LIMIT_EXPIRY (R101). ACQ_LIMIT Rounds pass in ACQUIRING and the link enters LOST. -/
  | acqLimitExpiry (w : Twin) (h : Fin 24)
  /-- LOST_RETRY (R101). One Round after entering LOST, the link returns to ACQUIRING. -/
  | lostRetry (w : Twin) (h : Fin 24)
  /-- TRACK_LOST (R103). A tracked link loses lock, loses a needed flit or disagrees with the home, and enters LOST. -/
  | trackLost (w : Twin) (h : Fin 24)
  /-- FLIT_FETCH (R100). The carbon fails to decode a flit that the home decoded and fetches it from the home's history. -/
  | flitFetch (w : Twin) (h : Fin 24) (dir : Direction) (flit : Nat)
  /-- DRAIN_ELIGIBLE (R128). A VALID WMB entry becomes eligible for drain HOLD_NS after its last write. -/
  | drainEligible (w : Twin) (line : Nat)
  /-- DRAIN_ISSUE (R128). An eligible entry is issued to a DMC channel write queue that has room. -/
  | drainIssue (w : Twin) (x : DrainOffer)
  /-- DRAIN_ACCEPTED (R127). The DMC accepts a drained line, and the entry becomes FREE or VALID. -/
  | drainAccepted (w : Twin) (line : Nat) (bad : BitVec 20)
  /-- LOCAL_STALL (R134). The oldest uncovered local write of a port reaches 4 µs, and later local writes complete twin-acknowledged. -/
  | localStall (w : Twin) (p : Fin 6)
  /-- RING_ENABLE_APPLY (R143). RING_q.ENABLE applied as 1 is checked, and the ring enters ACTIVE or ERROR. -/
  | ringEnableApply (q : Fin 64)
  /-- RING_DISABLE_APPLY (R152). RING_q.ENABLE applied as 0 stops fetching and aborts fetched commands that have not started. -/
  | ringDisableApply (q : Fin 64)
  /-- CMD_TAIL (R144). The command tail doorbell is written through the pair alias. -/
  | cmdTail (w : Twin) (rq : Requester) (throughAlias : Bool) (q : Fin 64) (v : BitVec 16)
  /-- CMP_HEAD (R144). The completion head doorbell is written through the pair alias. -/
  | cmpHead (w : Twin) (rq : Requester) (throughAlias : Bool) (q : Fin 64) (v : BitVec 16)
  /-- POST_BOX_COMMAND_START (R149). The keeper fetches and starts a ring command once order, FENCE and completion room allow. -/
  | postBoxCommandStart (q : Fin 64)
  /-- COMPLETION_WRITE (R151). A completion is written once the peer's postmark covers it, and counts as a cause for the vector. -/
  | completionWrite (q : Fin 64)
  /-- NOP (R148). The NOP command completes with SUCCESS. -/
  | ringNop (q : Fin 64) (idx : Nat)
  /-- ROUND (R148). The ROUND command returns the round number at which it ran. -/
  | ringRound (q : Fin 64) (idx : Nat)
  /-- OBJ_REGISTER (R278). A range of extents is registered as an object with a policy. -/
  | objRegister (q : Fin 64) (idx : Nat)
  /-- OBJ_REMOVE (R278). An object is removed, and its extents take the domain default. -/
  | objRemove (q : Fin 64) (idx : Nat)
  /-- OBJ_SET_POLICY (R278). An object's policy is changed. -/
  | objSetPolicy (q : Fin 64) (idx : Nat)
  /-- OBJ_QUERY (R278). An object's extent counts are returned. -/
  | objQuery (q : Fin 64) (idx : Nat)
  /-- EXTENT_PROMOTE (R278). Extents are promoted to the front tier. -/
  | extentPromote (q : Fin 64) (idx : Nat)
  /-- EXTENT_EVICT (R278). Extents are evicted to the back tier, or their evictions are deferred. -/
  | extentEvict (q : Fin 64) (idx : Nat)
  /-- EXTENT_DISCARD (R278). Extents are made UNWRITTEN. -/
  | extentDiscard (q : Fin 64) (idx : Nat)
  /-- POOL_QUERY (R278). A domain's used and pinned frames are returned. -/
  | poolQuery (q : Fin 64) (idx : Nat)
  /-- ROUTE_LOAD (R316). A Route is loaded into a FREE slot. -/
  | routeLoad (q : Fin 64) (idx : Nat)
  /-- ROUTE_START (R316). A LOADED Route becomes ACTIVE at an entry, or an ACTIVE one seeks. -/
  | routeStart (q : Fin 64) (idx : Nat)
  /-- ROUTE_SEEK (R316). An ACTIVE Route's position is set and its window rebuilt. -/
  | routeSeek (q : Fin 64) (idx : Nat)
  /-- ROUTE_STOP (R316). An ACTIVE Route returns to LOADED and releases its window. -/
  | routeStop (q : Fin 64) (idx : Nat)
  /-- ROUTE_UNLOAD (R316). A LOADED Route slot is freed. -/
  | routeUnload (q : Fin 64) (idx : Nat)
  /-- ROUTE_QUERY (R316). A Route's position, state, slips and rate are returned. -/
  | routeQuery (q : Fin 64) (idx : Nat)
  /-- LIST_BLOCK_READ_DONE (R312). A block of 64 Route entries is read, and its entries resolve to extents or are skipped. -/
  | listBlockReadDone (w : Twin) (slot : Fin 256) (block : Nat)
  /-- RETIRE_DRAM_ROW (R458). A DRAM row is repaired by PPR, or its frames are retired. -/
  | retireDramRow (q : Fin 64) (idx : Nat)
  /-- RETIRE_FRAME (R458). A frame's extent is moved and the frame leaves the pool. -/
  | retireFrame (q : Fin 64) (idx : Nat)
  /-- RETIRE_PARCEL (R458). A parcel is rewritten, its row is queued for Resole and its weak blocks are marked. -/
  | retireParcel (q : Fin 64) (idx : Nat)
  /-- LEDGER_QUERY (R458). EOL_DAYS and EOL_KIND are returned. -/
  | ledgerQuery (q : Fin 64) (idx : Nat)
  /-- FILL (R171). A FILL envelope arrives and carries its ACK. -/
  | envFill (w : Twin)
  /-- FRAME (R179). A state frame arrives from the peer and its fields, digests and GATE_SEQ are taken. -/
  | envFrame (w : Twin)
  /-- POSTMARK (R174). A POSTMARK envelope arrives, and its records are queued in sequence order. -/
  | envPostmark (w : Twin)
  /-- FETCH (R100). A FETCH envelope arrives with a flit request, which the home answers from its history, or with a fetched flit, which the carbon uses in stream order. -/
  | envFetch (w : Twin)
  /-- REPAIR (R211). A REPAIR envelope arrives with a repair request, which is served, or with line data, which repairs the local copy. -/
  | envRepair (w : Twin) (outcome : ReadOutcome)
  /-- BRIDGE (R178). A BRIDGE envelope arrives with admitted writes of a link that the carbon is not tracking. -/
  | envBridge (w : Twin)
  /-- ACCESS (R42). An ACCESS envelope arrives with a peer page access or its answer. -/
  | envAccess (w : Twin)
  /-- EVENT (R90). An EVENT envelope arrives with the carbon's page events or a Countersign report. -/
  | envEvent (w : Twin)
  /-- CONTROL (R166). A CONTROL envelope arrives with a delay probe, a lane swap, a training request or a rekey. -/
  | envControl (w : Twin)
  /-- RESYNC (R217). A RESYNC envelope arrives with resync content for the joiner. -/
  | envResync (w : Twin)
  /-- ENVELOPE_REJECT (R171). An envelope fails FEC or its GCM tag, is discarded and is NAKed for replay. -/
  | envelopeReject (w : Twin) (badTag : Bool)
  /-- AUTH_FAIL (R171). Three authentication failures in a row take the Coxia Link DOWN. -/
  | authFail (w : Twin)
  /-- DOUBLE_LOSS (R171). Both copies of a FRAME or POSTMARK envelope are lost, and the worst lane is retrained. -/
  | doubleLoss (w : Twin) (lane : Fin 18)
  /-- WRITE_WM (R175). A WRITE_WM record covers the carbon's writes, which allows twin-acknowledged completions. -/
  | writeWm (w : Twin)
  /-- TAP_WM (R175). A TAP_WM record releases the home's flit histories and ends bridging. -/
  | tapWm (w : Twin)
  /-- DRAIN_WM (R175). A DRAIN_WM record releases the home's WMB charges. -/
  | drainWm (w : Twin)
  /-- ORDER_ACCESS (R245). An ORDER record of kind ACCESS orders a contended commons access on the follower. -/
  | orderAccess (w : Twin)
  /-- ORDER_SWEEP (R245). An ORDER record of kind SWEEP orders a head's uncontended commons accesses up to a position. -/
  | orderSweep (w : Twin)
  /-- ORDER_VICTIM (R250). An ORDER record of kind VICTIM marks a directory victim EVICTING and snoops its holders. -/
  | orderVictim (w : Twin)
  /-- ORDER_HANDOFF (R253). An ORDER record of kind HANDOFF ends the sender's arbitration of a commons. -/
  | orderHandoff (w : Twin)
  /-- ALIAS (R59). An ALIAS record carries an alias write to the peer for application at Round r+2. -/
  | recAlias (w : Twin)
  /-- LOG (R89). A LOG record mirrors an event record into the carbon's log. -/
  | recLog (w : Twin)
  /-- EFFECT (R177). An ungated EFFECT record is applied on receipt, and a gated one is held for its frame. -/
  | recEffect (w : Twin)
  /-- APPLIED (R175). An APPLIED record reports the last record that the peer has applied. -/
  | recApplied (w : Twin)
  /-- HOLD (R211). A HOLD record stops admission of writes to a line for cross-twin repair. -/
  | recHold (w : Twin)
  /-- HOLD_RELEASE (R211). A HOLD record with the hold bit clear releases the held line. -/
  | holdRelease (w : Twin)
  /-- GATED_EFFECT_APPLY (R177). At the start of the Round after a covering frame, both chips apply the gated EFFECT records due. -/
  | gatedEffectApply
  /-- EXTENT_COPY_APPLY (R217). At Round r+2 an extent's resync copy begins, and the joiner holds its writes. -/
  | extentCopyApply
  /-- EXTENT_COPY_DONE (R217). An extent's copied content is written on the joiner, and its held lines drain over it. -/
  | extentCopyDone (extent : Nat)
  /-- CXK_TRAINING_DONE (R166). Coxia Link training completes, with authentication, and the link is UP or DEGRADED. -/
  | cxkTrainingDone (w : Twin) (locked : BitVec 18) (delayNs : Nat) (authentic : Bool)
  /-- CXK_TRAINING_RETRY (R166). Training of the DOWN Coxia Link is retried after 100 ms. -/
  | cxkTrainingRetry (w : Twin)
  /-- LANE_LOCK_LOSS (R167). A Coxia lane loses lock and a spare is chosen and trained. -/
  | laneLockLoss (w : Twin) (lane : Fin 18)
  /-- LANE_SWAP (R167). A spare lane finishes training and is swapped in at an envelope boundary. -/
  | laneSwap (w : Twin) (lane : Fin 18) (spare : Fin 18)
  /-- REKEY (R172). A key change agreed by CONTROL takes effect at a Round boundary. -/
  | rekey (w : Twin)
  /-- PEER_CHECK (R181). At 400 ns into the Round, the TWE checks the peer's heartbeat and pulse. -/
  | peerCheck (w : Twin) (pulse : Bool)
  /-- LINK_DOWN_TIMEOUT (R200). CXK.LINK.STATE has been DOWN for 1 µs with a good pulse, and link loss is declared. -/
  | linkDownTimeout (w : Twin)
  /-- ISOLATE_LIMIT_EXPIRY (R202). Chip A still sees an OWN_IN asserted ISOLATE_LIMIT Rounds after link loss, and fences B. -/
  | isolateLimitExpiry (w : Twin)
  /-- OWN_IN_FALL (R191). A peer OWN line falls, and the carbon takes over the port. -/
  | ownInFall (w : Twin) (p : Fin 6)
  /-- OWN_IN_RISE (R183). A peer OWN line rises, and a conflict is found if both lines are asserted. -/
  | ownInRise (w : Twin) (p : Fin 6)
  /-- TWIN_DEAD_N_FALL (R184). TWIN_DEAD_N falls from the peer, which is treated as fail-stopped. -/
  | twinDeadNFall (w : Twin)
  /-- GUARD_MET (R182). The peer's OWN has been deasserted for 200 ns, and a claiming chip asserts OWN_OUT. -/
  | guardMet (w : Twin) (p : Fin 6)
  /-- TAKEOVER_LINK_L0 (R193). A link taken over reaches L0, its flits are replayed and its unanswered requests become tags of the new home. -/
  | takeoverLinkL0 (w : Twin) (h : Fin 24) (ns : Nat)
  /-- FAILSTOP_NOW (R188). A machine-mode core writes FAILSTOP.NOW. -/
  | failstopNow (w : Twin) (rq : Requester)
  /-- FENCE_IN_FALL (R186). TWIN_FENCE_IN_N falls, and the supervisor drops OWN and holds the chip in reset. -/
  | fenceInFall (w : Twin)
  /-- FENCE_IN_RISE (R186). TWIN_FENCE_IN_N rises, and the chip starts in STARTING. -/
  | fenceInRise (w : Twin)
  /-- FENCE_RELEASE (R185). FENCE.RELEASE deasserts TWIN_FENCE_OUT. -/
  | fenceRelease (w : Twin) (rq : Requester)
  /-- HANDOVER_RETRY (R204). A waiting handover is retried at a Round boundary, and rejected with NOT_TRACKING after 250 Rounds. -/
  | handoverRetry (p : Fin 6)
  /-- TAKEOVER_DRILL (R205). TAKEOVER.DRILL starts a handover of the named port, or is refused. -/
  | takeoverDrill (rq : Requester)
  /-- DRILL_RETURN (R205). HOLD_ROUNDS after the old home's links reach TRACKING, the drilled port is handed back. -/
  | drillReturn
  /-- COUNTERSIGN_MISMATCH (R209). A sampled read mismatches twice, and the copies are settled and the faulty one rewritten. -/
  | countersignMismatch (w : Twin) (dpa : Nat) (carbonStable : Bool) (homeStable : Bool) (carbonData : Line) (homeData : Line)
  /-- REPAIR_REQUEST (R210). A local uncorrectable read sends HOLD and asks the twin or the back tier for the line. -/
  | repairRequest (w : Twin) (dpa : Nat)
  /-- RESYNC_CONFIG_DONE (R216). Every digest matches, and resync moves from CONFIG to FRONT. -/
  | resyncConfigDone
  /-- RESYNC_FRONT_DONE (R216). The front-tier extents are copied, and resync moves to BACK. -/
  | resyncFrontDone
  /-- RESYNC_BACK_DONE (R216). The back-tier extents are copied, and resync moves to FINISH. -/
  | resyncBackDone
  /-- RESYNC_FINISH (R216). Every link in L0 is TRACKING on the joiner, and both chips enter MIRRORED at one boundary. -/
  | resyncFinish
  /-- RESYNC_CAPACITY_REFUSE (R272). The joiner's capacity is too small, and the resync is abandoned with the joiner ISOLATED. -/
  | resyncCapacityRefuse
  /-- SPEAKER_ENDPOINT_STARTED (R221). The new speaker starts the management endpoint from its latest saved state. -/
  | speakerEndpointStarted (w : Twin)
  /-- SOLO_WAIT_EXPIRY (R222). SOLO_WAIT_S passes without a frame, and the chip enters SOLO, ISOLATED or TWIN_ABSENT. -/
  | soloWaitExpiry (w : Twin) (pulseEdge : Bool)
  /-- FORCE_ALONE (R224). START_CFG.FORCE_ALONE makes chip A restore and enter ALONE at a start with the Coxia Link down. -/
  | forceAlone (w : Twin) (rq : Requester)
  /-- SNOOP_TIMEOUT (R243). A snoop is unanswered for TIMEOUT_US, and is taken as BIRspI. -/
  | snoopTimeout (h : Fin 24) (line : Nat)
  /-- SHADOW_MIGRATION_DONE (R253). The new arbiter finishes moving directory entries from the shadow table into SRAM. -/
  | shadowMigrationDone (w : Twin) (d : Fin 64)
  /-- DOMAIN_WRITE (R270). A domain setting is checked and, when applied, creates, grows, shrinks or deletes the domain. -/
  | domainWrite (w : Twin) (rq : Requester) (d : Fin 64) (reg : Fin 4) (data : Word)
  /-- COPY_STEP_DONE (R281). A promotion copy step writes a parcel into the frame. -/
  | copyStepDone (w : Twin) (parcel : Nat)
  /-- PACK_STEP_DONE (R282). A pack or cleaning step writes a parcel's new packed copy. -/
  | packStepDone (w : Twin) (parcel : Nat) (drained : Bool)
  /-- FRAME_FREE (R263). The last request that uses a frame finishes, and the frame is zeroed. -/
  | frameFree (w : Twin) (frame : Nat)
  /-- FRAME_ZERO_DONE (R263). A freed frame is zeroed and returns to the free list. -/
  | frameZeroDone (w : Twin) (frame : Nat)
  /-- FILL_RANGE_DONE (R269). The fill engine makes a 4 MiB range READY, and waiting requests continue. -/
  | fillRangeDone (w : Twin) (range : Nat)
  /-- TRANSLATION_FILL (R296). An MDC line arrives in a head's translation cache, and the head's translations continue. -/
  | translationFill (w : Twin) (h : Fin 24) (line : Nat)
  /-- MDC_FILL_ARRIVAL (R302). An MDC miss fill arrives and is installed, or is discarded on arrival. -/
  | mdcFillArrival (w : Twin) (line : Nat)
  /-- MDC_INVALIDATION_DONE (R298). The MDC finishes invalidating every line after a reset. -/
  | mdcInvalidationDone (w : Twin)
  /-- MDC_CLEAN (R300). OP_GO with KIND CLEAN writes back lines by address or by set and way. -/
  | mdcClean (w : Twin) (rq : Requester)
  /-- MDC_INVALIDATE (R300). OP_GO with KIND INVALIDATE drops lines without writing them. -/
  | mdcInvalidate (w : Twin) (rq : Requester)
  /-- MDC_CLEAN_INVALIDATE (R300). OP_GO with KIND CLEAN_INVALIDATE writes back and drops lines. -/
  | mdcCleanInvalidate (w : Twin) (rq : Requester)
  /-- MDC_LOCK (R301). OP_GO with KIND LOCK fills and locks the lines of a range. -/
  | mdcLock (w : Twin) (rq : Requester)
  /-- MDC_UNLOCK (R301). OP_GO with KIND UNLOCK releases locked ways. -/
  | mdcUnlock (w : Twin) (rq : Requester)
  /-- MDC_OP_DONE (R300). A maintenance operation ends in DONE or ERR. -/
  | mdcOpDone (w : Twin)
  /-- WAY_DISABLE_DONE (R303). A way past its error limit is disabled, and a spare way is brought in or NO_SPARE_WAY is raised. -/
  | wayDisableDone (w : Twin) (way : Fin 18)
  /-- ARRAY_READ_DONE (R349). A NAND array read ends, and its codewords are decoded, with erasure reads or retries on failure. -/
  | arrayReadDone (w : Twin) (parcel : Nat) (x : MediaRead)
  /-- DIRECT_READ_TIMEOUT (R350). At 60 µs a failing direct-path read is handed to cross-twin repair. -/
  | directReadTimeout (w : Twin) (parcel : Nat)
  /-- PROGRAM_DONE (R356). A NAND program ends, and staged cells are released or the block is retired and reprogrammed. -/
  | programDone (w : Twin) (row : Nat) (col : Fin 32) (pass : Bool)
  /-- ERASE_DONE (R364). A NAND erase ends, or fails and retires the block. -/
  | eraseDone (w : Twin) (row : Nat) (col : Fin 32) (pass : Bool)
  /-- LUN_STATUS_TIMEOUT (R365). A LUN fails status for 10 ms and is retired. -/
  | lunStatusTimeout (w : Twin) (col : Fin 32) (pos : Fin 32)
  /-- NAND_ZQ_CALIBRATION (R336). ZQ calibration of the ONFI channels runs every 100 ms. -/
  | nandZqCalibration (w : Twin)
  /-- PATCH_AGE_EXPIRY (R358). A parcel's oldest patch line reaches 2^20 Rounds, and a merge is queued. -/
  | patchAgeExpiry (w : Twin) (parcel : Nat)
  /-- OFFLINE_REQ (R368). MODULE_m.OFFLINE_REQ starts taking a media module out, or is rejected. -/
  | offlineReq (w : Twin) (rq : Requester) (m : Fin 8)
  /-- ONLINE_REQ (R368). MODULE_m.ONLINE_REQ starts preparing a present module. -/
  | onlineReq (w : Twin) (rq : Requester) (m : Fin 8)
  /-- MODULE_SAFE (R368). A module's in-flight operations end, and the module is SAFE. -/
  | moduleSafe (w : Twin) (m : Fin 8)
  /-- MODULE_PRESENCE_CHANGE (R368). A module's presence input changes, and a SAFE module becomes ABSENT. -/
  | modulePresenceChange (w : Twin) (m : Fin 8) (present : Bool)
  /-- CHANNEL_FAILED (R368). A media channel leaves UP, and its module goes OFFLINING. -/
  | channelFailed (w : Twin) (c : Fin 32)
  /-- MODULE_PREPARE_DONE (R368). Preparation of a module ends in REBUILDING or FAILED. -/
  | modulePrepareDone (w : Twin) (m : Fin 8) (ok : Bool)
  /-- REBUILD_DONE (R369). Every row is rebuilt, and the module is ACTIVE. -/
  | rebuildDone (w : Twin) (m : Fin 8)
  /-- FORMAT_DONE (R344). The format of blank or foreign media completes and fixes the host capacity. -/
  | formatDone (w : Twin) (x : MediaScan)
  /-- PFAIL_N_FALL (R393). PFAIL_N falls, and the SVC raises its fast interrupt. -/
  | pfailNFall (w : Twin)
  /-- PFAIL_COMMIT (R395). PFAIL_N has stayed low for 1 µs; the save is committed, the governor frozen and SAVE_START sent. -/
  | pfailCommit (w : Twin)
  /-- PFAIL_N_RISE (R393). PFAIL_N rises, as a glitch before commit or with no effect after it. -/
  | pfailNRise (w : Twin)
  /-- SAVE_DECISION (R394). At 9 µs the lone-or-joint save decision is taken on the pair mode in force. -/
  | saveDecision (w : Twin)
  /-- LONE_PFAIL (R394). A MIRRORED chip has not applied the peer's SAVE_START within two Rounds and fail-stops without saving. -/
  | lonePfail (w : Twin)
  /-- GRACE_EXPIRY (R395). GRACE ends; the ports are held, the records are written and the seal follows. -/
  | graceExpiry (w : Twin)
  /-- SEALED (R398). Both seal copies are programmed, and power-down begins. -/
  | saveSealed (w : Twin) (x : SealWork)
  /-- SAVE_FAILED (R399). A thermal trip or a clock loss ends the save without a seal. -/
  | saveFailed (w : Twin)
  /-- CALIBRATION_DONE (R386). The save-rate calibration finishes, and the first budget is computed. -/
  | calibrationDone (w : Twin) (rate : Nat) (tprogUs : Nat) (fixedUs : Nat) (ms : Nat)
  /-- SEAL_READ_DONE (R401). The seal copies are read, and the summary is sent once ALIGNED. -/
  | sealReadDone (w : Twin) (copies : SealCopies) (bad : List Nat)
  /-- SOURCE_CHOICE (R402). From both summaries each chip chooses LOCAL, TWIN or DIRTY and enters its pair mode. -/
  | sourceChoice (w : Twin)
  /-- METADATA_LOAD_DONE (R404). The checkpoint and journal are read, the maps rebuilt and the pair-scope settings loaded. -/
  | metadataLoadDone (w : Twin)
  /-- RESTORE_LOAD_DONE (R405). The saved records are loaded, the restored frames completed and the pinned extents made FRONT. -/
  | restoreLoadDone (w : Twin)
  /-- CHECKPOINT_COMMIT (R392). A metadata checkpoint commits, and the last save's Insole rows are queued for erase. -/
  | checkpointCommit (w : Twin)
  /-- MEMORY_ACTIVE (R555). Memory_Active becomes 1 on every head at the Round after the RESTORE_DONE effects. -/
  | memoryActive
  /-- REFRESH_INTERVAL (R419). A tREFI passes, the refresh debts grow, and REFab runs at POSTPONE. -/
  | refreshInterval (w : Twin) (c : Fin 16) (ranks : BitVec 16)
  /-- REFSB_ISSUE (R420). A REFsb is issued when its banks are idle and its debt allows. -/
  | refsbIssue (w : Twin) (c : Fin 16) (r : Fin 16) (k : Fin 4)
  /-- REFRESH_DONE (R422). tRFC elapses, and the refreshed banks serve again. -/
  | refreshDone (w : Twin) (c : Fin 16) (r : Fin 16)
  /-- MR4_POLL (R419). MR4 is read from every rank every 32 Rounds, and tREFI is set. -/
  | mr4Poll (w : Twin) (c : Fin 16) (twoX : BitVec 16)
  /-- DRAM_TRAINING_DONE (R424). DRAM training ends, and failing ranks are retired or the channel refused. -/
  | dramTrainingDone (w : Twin) (x : List ChannelTraining)
  /-- DRIFT_CHECK (R425). The DQS oscillator of a rank is run each PERIOD_US, and its write delay adjusted. -/
  | driftCheck (w : Twin) (c : Fin 16) (r : Fin 16) (ps : Int)
  /-- DRAM_ZQ_START (R425). ZQCal Start is issued to a rank every 128 ms. -/
  | dramZqStart (w : Twin) (c : Fin 16) (r : Fin 16)
  /-- DRAM_ZQ_LATCH (R425). ZQCal Latch is issued 1 µs after Start. -/
  | dramZqLatch (w : Twin) (c : Fin 16) (r : Fin 16)
  /-- RETRAIN_DONE (R426). A rank's retrain ends, and the rank returns to service or is retired. -/
  | retrainDone (w : Twin) (c : Fin 16) (r : Fin 16) (ok : Bool) (rdEye : Byte) (wrEye : Byte)
  /-- SR_IDLE_EXPIRY (R428). A channel is idle for IDLE_US and begins self-refresh entry. -/
  | srIdleExpiry (w : Twin) (c : Fin 16)
  /-- SR_EXIT_DONE (R429). A channel leaves self-refresh after tCSL, tCKSRX and tXS and serves its request. -/
  | srExitDone (w : Twin) (c : Fin 16) (ns : Nat)
  /-- PPR_GO (R436). PPR_REQ.GO starts copying a row for repair, or is rejected. -/
  | pprGo (w : Twin) (rq : Requester) (c : Fin 16)
  /-- PPR_COPY_DONE (R436). The row is held in the buffer, and the rank is taken out for programming. -/
  | pprCopyDone (w : Twin) (c : Fin 16)
  /-- PPR_PROGRAM_DONE (R436). The PPR sequence ends, and the row is restored from the buffer. -/
  | pprProgramDone (w : Twin) (c : Fin 16) (err : Fin 3)
  /-- PPR_DONE (R436). The row is restored, and the rank returns to service. -/
  | pprDone (w : Twin) (c : Fin 16)
  /-- ALERT_N (R442). The RCD reports a parity error, and the DMC reissues commands. -/
  | alertN (w : Twin) (c : Fin 16)
  /-- PATROL_WAKE (R449). A self-refreshing channel's patrol backlog reaches 2^24 pairs, and the channel is woken. -/
  | patrolWake (w : Twin) (c : Fin 16)
  /-- CBL_WINDOW_END (R460). A Cobbler window ends, and spares are drawn by the window counts. -/
  | cblWindowEnd (w : Twin)
  /-- DIR_BANK_MIGRATE_DONE (R463). The entries of a replaced directory bank have moved back into SRAM. -/
  | dirBankMigrateDone (w : Twin) (bank : Fin 17)
  /-- CORE_SPARE_SWAP (R479). CC8 takes the logical number of a retired core. -/
  | coreSpareSwap (w : Twin) (n : Fin 8)
  /-- INTERRUPT_ARRIVAL (R497). A source's input rises or pulses, and an arrival is counted and may be presented. -/
  | interruptArrival (w : Twin) (src : Fin 1024) (level : Bool)
  /-- COAL_TIMER (R500). A coalescing group's TIME_US passes, and the group fires. -/
  | coalTimer (w : Twin) (g : Fin 64)
  /-- FAST_ENTRY (R483). A fast source is presented, and the core switches to the shadow bank at FVEC. -/
  | fastEntry (w : Twin) (n : Fin 8) (pc : BitVec 64) (machine : Bool)
  /-- FRET (R483). FRET returns from a fast handler and completes its source. -/
  | coreFret (w : Twin) (n : Fin 8)
  /-- CLAIM (R499). A read of CLAIM_n claims the presented source and puts it in service. -/
  | icuClaim (w : Twin) (rq : Requester) (n : Fin 8)
  /-- COMPLETE (R499). A write to COMPLETE_n takes a source out of service. -/
  | icuComplete (w : Twin) (rq : Requester) (n : Fin 8) (src : Fin 1024)
  /-- SWI (R496). A write to ICU SWI pulses software interrupt sources. -/
  | icuSwi (w : Twin) (rq : Requester) (bits : Byte)
  /-- SOURCE_DISABLE (R503). Clearing SRC_j.ENABLE withdraws the source's presentation and pending state. -/
  | sourceDisable (w : Twin) (rq : Requester) (src : Fin 1024)
  /-- TARGET_CHANGE (R505). A change of SRC_j.TARGET moves the source to its new core. -/
  | targetChange (w : Twin) (rq : Requester) (src : Fin 1024) (target : Fin 16)
  /-- WFI (R484). WFI stops the core's clocks until a wake event. -/
  | coreWfi (w : Twin) (n : Fin 8)
  /-- MTIP (R478). mtime reaches mtimecmp, and MTIP is raised. -/
  | coreMtip (w : Twin) (n : Fin 8)
  /-- LR_SC_AMO (R481). An LR, SC or AMO instruction is carried out, or faults outside local memory and DRAM. -/
  | lrScAmo (w : Twin) (n : Fin 8) (op : AtomicOp) (addr : Nat) (rd : Fin 32) (data : BitVec 64) (wide : Bool)
  /-- DCFLUSH (R482). A write of DCFLUSH cleans and invalidates one data cache line. -/
  | dcflush (w : Twin) (n : Fin 8) (addr : Nat)
  /-- EFC_PROGRAM (R487). EFC GO with OP PROGRAM programs words of one row. -/
  | efcProgram (w : Twin) (rq : Requester) (fetched : Option (Fin 2))
  /-- EFC_ERASE (R487). EFC GO with OP ERASE erases a sector. -/
  | efcErase (w : Twin) (rq : Requester) (fetched : Option (Fin 2))
  /-- PTR_SWAP (R486). EFC GO with OP PTR_SWAP writes a new pointer entry that selects a slot. -/
  | ptrSwap (w : Twin) (rq : Requester) (fetched : Option (Fin 2))
  /-- EFC_PULSE_DONE (R487). An eflash pulse and its verify end, and the operation passes, pulses again or fails. -/
  | efcPulseDone (w : Twin) (firstBad : Option (Fin 512)) (deferUs : Nat)
  /-- ACTIVE_LOCK (R489). PROT.ACTIVE_LOCK protects the booted slot from EFC operations. -/
  | activeLock (w : Twin) (rq : Requester)
  /-- KICK_CHIP (R491). The 0xA5, 0x5A sequence to KICK.CHIP restarts the chip watchdog. -/
  | kickChip (w : Twin) (rq : Requester) (first : Byte) (second : Byte) (inTime : Bool)
  /-- KICK_CORE (R492). The kick sequence to KICK.CORE restarts the writing core's watchdog. -/
  | kickCore (w : Twin) (rq : Requester) (first : Byte) (second : Byte) (inTime : Bool)
  /-- CHIP_WATCHDOG_EXPIRY (R491). The chip watchdog expires, and the chip fail-stops or the expiry is logged during a save. -/
  | chipWatchdogExpiry (w : Twin)
  /-- CORE_WATCHDOG_WARN (R492). Stage 1 of a core watchdog pulses its fast source. -/
  | coreWatchdogWarn (w : Twin) (n : Fin 8)
  /-- CORE_WATCHDOG_RESET (R495). Stage 2 of a core watchdog resets the core. -/
  | coreWatchdogReset (w : Twin) (n : Fin 8)
  /-- WDT_LOCK_SET (R494). LOCK.SET prevents the WDT page from being turned off. -/
  | wdtLockSet (w : Twin) (rq : Requester)
  /-- PG_CHANGE (R515). A PG input changes, and a PSQ state may become satisfied. -/
  | pgChange (w : Twin) (idx : Fin 16) (high : Bool)
  /-- PSQ_DELAY_EXPIRY (R515). DELAY_s elapses, and the PSQ steps or releases SEQ_SYNC. -/
  | psqDelayExpiry (w : Twin)
  /-- PSQ_TIMEOUT (R518). TIMEOUT_s passes: an up timeout on the way up, or a down rail failure on the way down. -/
  | psqTimeout (w : Twin)
  /-- SEQ_SYNC_COMMIT (R519). SEQ_SYNC is sampled high twice, and the PSQ enters its next state 400 ns later. -/
  | seqSyncCommit (w : Twin)
  /-- SYNC_TIMEOUT (R519). SEQ_SYNC stays low for SYNC_TIMEOUT_MS after the PSQ is satisfied. -/
  | syncTimeout (w : Twin)
  /-- SEQ_IN_FALL (R521). SEQ_IN falls at top and is taken as PFAIL_N falling. -/
  | seqInFall (w : Twin)
  /-- UP_SEQUENCE_START (R518). PFAIL_N is stable, SEQ_IN high and the off time served, and an up sequence begins. -/
  | upSequenceStart (w : Twin)
  /-- OFF_MIN_EXPIRY (R525). The minimum off time in state 0 is served. -/
  | offMinExpiry (w : Twin)
  /-- RAIL_FAULT (R523). A running rail's PG stays low for PG_FILTER_US, and the chip warns and fail-stops. -/
  | railFault (w : Twin) (idx : Fin 16)
  /-- FAULT_SHUT_EXPIRY (R523). FAULT_SHUT_US after a fault, the down sequence starts. -/
  | faultShutExpiry (w : Twin)
  /-- STORE_COMMIT (R517). STORE.COMMIT copies the sequence table into the next fuse version. -/
  | storeCommit (w : Twin) (rq : Requester)
  /-- MARGIN_WRITE (R526). A MARGIN_k.OFFSET_MV write moves an AVSBus rail, or is rejected. -/
  | marginWrite (w : Twin) (rq : Requester) (k : Fin 4) (steps : BitVec 8)
  /-- THROTTLE_STEP (R528). After 250 Rounds above THROTTLE_C, or below it less HYST_C, FCLK is lowered or raised one step. -/
  | throttleStep (w : Twin)
  /-- THERMAL_TRIP (R529). TJ_HOT is at TRIP_C in two consecutive Rounds, THERMTRIP_N falls and the chip fail-stops. -/
  | thermalTrip (w : Twin)
  /-- AVS_PERIOD (R532). The AVS loop reads CPM_MIN and adjusts the VDD_CORE target. -/
  | avsPeriod (w : Twin) (cpm : BitVec 8)
  /-- CPM_ALARM (R532). CPM_MIN falls to zero or less, and the target is raised by 25 mV at once. -/
  | cpmAlarm (w : Twin) (cpm : BitVec 8)
  /-- AVSBUS_FRAME_DONE (R531). An AVSBus frame is answered, retried or given up with AVS_FAULT. -/
  | avsbusFrameDone (w : Twin) (x : AvsReply)
  /-- AVS_TELEMETRY_POLL (R531). Every 250 Rounds the rails' voltage, current and temperature are read. -/
  | avsTelemetryPoll (w : Twin)
  /-- FCLK_STEP_CHANGE (R533). The FCLK step changes at a Round guard, after the voltage is reached when raising. -/
  | fclkStepChange (w : Twin)
  /-- SMB_BLOCK_WRITE (R536). A Block Write delivers an MCTP packet from the controller. -/
  | smbBlockWrite (w : Twin) (bytes : List Byte) (pec : Option Bool)
  /-- SMB_BLOCK_READ (R540). A Block Read takes the oldest queued MCTP packet. -/
  | smbBlockRead (w : Twin) (whole : Bool)
  /-- SMB_READ_BYTE_STATUS (R536). A Read Byte of 0xF0 returns STATUS. -/
  | smbReadByteStatus (w : Twin)
  /-- ALERT_RESPONSE_ADDRESS (R536). An Alert Response Address read returns this target's address. -/
  | alertResponseAddress (w : Twin)
  /-- SMB_START_STOP (R539). A START or STOP condition ends the transaction and returns the MTI to address recognition. -/
  | smbStartStop (w : Twin)
  /-- SMB_CLOCK_LOW_TIMEOUT (R538). SCL is low for 30 ms, and the MTI releases the bus. -/
  | smbClockLowTimeout (w : Twin)
  /-- SMB_DATA_LOW_TIMEOUT (R538). The MTI has held SDA low for DL_TIMEOUT_MS and releases it. -/
  | smbDataLowTimeout (w : Twin)
  /-- MCTP_CONTROL (R540). An MCTP control message is answered by the endpoint. -/
  | mctpControl (w : Twin) (command : Byte)
  /-- FM_API_COMMAND (R540). A Fabric Manager API command is carried out by the speaker. -/
  | fmApiCommand (w : Twin) (opcode : BitVec 16)
  /-- PAGE_READ (R541). A Showick PAGE_READ message reads a page register. -/
  | pageRead (w : Twin) (x : PageMessage)
  /-- PAGE_WRITE (R541). A Showick PAGE_WRITE message writes a page register. -/
  | pageWrite (w : Twin) (x : PageMessage)
  /-- ALWAYS_ON_POWER_UP (R548). The always-on supply rises, and the always-on domain resets and loads the sequence store. -/
  | alwaysOnPowerUp (w : Twin) (x : AlwaysOnStart)
  /-- POWER_ON_RESET (R551). The PSQ reaches TOP and releases power-on reset, and start-up begins. -/
  | powerOnReset (w : Twin) (x : BootReport)
  /-- RESET_N_ASSERT (R550). RESET_N is held low for 1 µs, which fail-stops a serving chip and resets the chip. -/
  | resetNAssert (w : Twin)
  /-- RESET_N_RELEASE (R551). RESET_N rises, and start-up begins. -/
  | resetNRelease (w : Twin) (x : BootReport)
  /-- WARM_GO (R548). RST.WARM.GO warm-resets a chip in STARTING or HELD. -/
  | warmGo (w : Twin) (rq : Requester) (x : BootReport)
  /-- SVN_ADVANCE (R561). BOOT.SVN_ADVANCE blows SVN fuses up to the running image's SVN. -/
  | svnAdvance (w : Twin) (rq : Requester)
  /-- OWNER_PROG (R559). OWNER_PROG.GO blows the owner key hash. -/
  | ownerProg (w : Twin) (rq : Requester)
  /-- ERASE_REQ (R576). ERASE_REQ.GO crypto-erases one domain, or is rejected while the domain is mapped. -/
  | eraseReq (rq : Requester) (d : Fin 64)
  /-- CRYPTO_ERASE_DONE (R567). Both chips have committed a checkpoint without the old key, and the erase completes. -/
  | cryptoEraseDone (w : Twin) (d : Fin 64)
  /-- CLOSE_GO (R572). DBG.CLOSE.GO with the right key blows FIELD_CLOSED, or is rejected. -/
  | closeGo (w : Twin) (rq : Requester)
  /-- TEST_LOGIC_RESET (R572). The TAP enters Test-Logic-Reset, and field close takes effect. -/
  | testLogicReset (w : Twin)
  /-- EXTEST (R571). The TAP loads EXTEST, or BYPASS when the chip is serving. -/
  | tapExtest (w : Twin)
  /-- SAMPLE_PRELOAD (R569). The TAP loads SAMPLE/PRELOAD. -/
  | samplePreload (w : Twin)
  /-- IDCODE (R569). The TAP loads IDCODE. -/
  | tapIdcode (w : Twin)
  /-- CLAMP (R571). The TAP loads CLAMP, or BYPASS when restricted. -/
  | tapClamp (w : Twin)
  /-- HIGHZ (R571). The TAP loads HIGHZ, or BYPASS when restricted. -/
  | tapHighz (w : Twin)
  /-- EXTEST_PULSE (R571). The TAP loads EXTEST_PULSE, or BYPASS when restricted. -/
  | extestPulse (w : Twin)
  /-- EXTEST_TRAIN (R571). The TAP loads EXTEST_TRAIN, or BYPASS when restricted. -/
  | extestTrain (w : Twin)
  /-- DMI (R570). The TAP opens the RISC-V debug module of all nine cores while debug is open. -/
  | tapDmi (w : Twin)
  /-- SYSBUS (R570). The TAP acts as bus master to every address while debug is open. -/
  | tapSysbus (w : Twin) (x : BusAccess)
  /-- OVERRIDE (R570). The TAP drives the interlock outputs while debug is open. -/
  | tapOverride (w : Twin) (own : BitVec 6) (dead : Bool) (fence : Bool)
  /-- BYPASS (R569). The TAP loads BYPASS for this or any unassigned code. -/
  | tapBypass (w : Twin) (code : Byte)
  /-- CLOCK_LOCK_LOSS (R188). FCLK or the Coxia REFCLK loses lock, and the chip fail-stops, or a save in progress ends without a seal. -/
  | clockLockLoss (w : Twin)
  /-- LINK_LEFT_L0 (R106). A host link leaves L0 for Recovery, L1, Hot Reset or Detect, which raises LINK_CHANGE and is followed by the carbon's shadow. -/
  | linkLeftL0 (h : Fin 24) (dest : Fin 9) (ns : Nat)
  /-- TWIN_DEAD_N_RISE (R184). TWIN_DEAD_N rises when the peer leaves HELD, and DEAD_SEEN clears. -/
  | twinDeadNRise (w : Twin)
  /-- CARBON_LANE_FLIT (R115). The carbon decodes a flit that the home sent on the carbon lanes; it closes shadow entries, keeps the flit for replay and samples MemData for Countersign. -/
  | carbonLaneFlit (w : Twin) (h : Fin 24) (hostAck : Nat) (decoded : Bool)
  deriving DecidableEq, Repr

end Sys2Proof
end

