-- ==== Sys2Proof/Machine/Crc.lean ====
section
/-! DEFINITION. The checksums of the spec: CRC-16 of R61 and CRC-32C of R398, R453 and R486. -/
namespace Sys2Proof.Machine

/-- One bit of CRC-16, polynomial 0x1021, most significant bit first. -/
def crc16Bit (crc : Nat) : Nat := if crc ≥ 0x8000 then ((crc * 2) % 0x10000) ^^^ 0x1021 else crc * 2

/-- One byte of CRC-16. -/
def crc16Byte (crc b : Nat) : Nat := Nat.repeat crc16Bit 8 (crc ^^^ (b * 256))

/-- CRC-16 of bytes, initial value 0xFFFF, not reflected, no final XOR (R61). -/
def crc16 (bs : List Nat) : Nat := bs.foldl crc16Byte 0xFFFF

/-- One bit of CRC-32C, reflected. -/
def crc32cBit (crc : Nat) : Nat := if crc % 2 = 1 then (crc / 2) ^^^ 0x82F63B78 else crc / 2

/-- One byte of CRC-32C. -/
def crc32cByte (crc b : Nat) : Nat := Nat.repeat crc32cBit 8 (crc ^^^ b)

/-- CRC-32C of bytes. -/
def crc32c (bs : List Nat) : Nat := bs.foldl crc32cByte 0xFFFFFFFF ^^^ 0xFFFFFFFF

/-- A number as `n` bytes, least significant first. -/
def leBytes (n v : Nat) : List Nat := (List.range n).map fun i => (v >>> (8 * i)) % 256

/-- Bytes as a number, least significant first. -/
def ofLeBytes : List Nat → Nat
  | [] => 0
  | b :: r => b + 256 * ofLeBytes r

end Sys2Proof.Machine
end

