-- ==== Sys2Proof/Config.lean ====
section
/-! DEFINITION. The values the spec leaves open (free values): constants with no body, so nothing holds of one value of them alone.
The step applies those that differ from use to use to the counter `State.free`. Each is named in the assumption log. -/
namespace Sys2Proof

/-- Whether a source presented just before its ENABLE is cleared is still delivered once (R503 says it may be). -/
opaque Config.lateDelivery : Nat → Bool

/-- The four-plane SLC program time in µs that a probe of a Delivery measures (R386): a figure of the media. -/
opaque Config.probeUs : Nat → BitVec 16

/-- What the CTR_DRBG of the accepting chip draws for an XTS key pair (R566). -/
opaque Config.drbg : Nat → BitVec 512

/-- The packed length of a parcel's content in units of 256 B, which R345 leaves to the silicon revision: the bytes of the parcel that
are not 0, by their place in it. -/
opaque Config.packUnits : List (Nat × BitVec 8) → Nat

/-- The time in ms that Scan Media would take for a number of lines, which R86 does not state. -/
opaque Config.scanMs : Nat → Nat → Nat

/-- The key-encryption key of a chip, by its TWIN_ID: derived from a fuse secret (R562). -/
opaque Config.kek : Nat → BitVec 512

/-- SHA-384 of the content of a measurement (R563) or of a certificate chain (R562), by index and content. -/
opaque Config.digest : Nat → List Nat → BitVec 384

/-- The certificate chain of slot 0, by the pair serial number (R562). -/
opaque Config.chain : Nat → List (BitVec 8)

/-- The ECDSA P-384 signature with which a responder answers CHALLENGE, by its key and from use to use (R562). -/
opaque Config.signature : Option (BitVec 512) → Nat → BitVec 768

/-- How far into its Round, in µs, the slipping request of a Route's entry was admitted (R329), by slot, entry and Round. -/
opaque Config.slipOffset : Nat → Nat → Nat → Nat

/-- The content of a core's boot ROM, by byte address (R480, R551). -/
opaque Config.bootRom : Nat → BitVec 8

/-- Showick's PCI-SIG Vendor ID, which R69 does not state. -/
opaque Config.vendorId : BitVec 16

/-- The subsystem vendor and device IDs that the boot image of a slot gives (R69), by the bytes of the image that are not erased. -/
opaque Config.subsystem : List (Nat × BitVec 8) → BitVec 32

/-- The load that a response to a host reports (R70), by chip, head and flit count: the spec names DevLoad and states no value. -/
opaque Config.devLoad : Nat → Nat → Nat → BitVec 2

/-- What a word of a head's component or device register ranges reads as whose place R79 leaves to its capability array: by head and BAR0
offset. -/
opaque Config.capabilityWord : Nat → Nat → BitVec 32

/-- By how much the length of an EFFECT record passes 2 units of 8 B (R175), where its owning chapter gives the body no layout: by the number of the
effect. -/
opaque Config.effectUnits : Nat → Fin 27

/-- The set of the patch index that a parcel's chain of blocks is entered in (R287), by the number of sets and the parcel. -/
opaque Config.patchIndexSet : Nat → Nat → Nat

/-- The line that the DRAM decoder returns as corrected where three or more devices are in error and it miscorrects; none where it detects the
errors (R413): by the line's address, the Round and the devices. -/
opaque Config.miscorrected : Nat → Nat → BitVec 20 → Option (BitVec 512)

/-- The SYNDROME of a Dead-Letter Log entry (R454), a figure of the check that found the error: by chip and SEQ. -/
opaque Config.syndrome : Nat → Nat → BitVec 128

/-- The code of an SRAM unit's class in LOCATION (R454), which no rule lists: by the unit's row of R442, from 0. -/
opaque Config.unitClass : Nat → BitVec 8

/-- The AES-256-GCM ciphertext and tag of an envelope under the key that the chips have agreed (R172, R565): by IV, clear bytes and payload bytes. -/
opaque Config.gcmSeal : Nat → List Nat → List Nat → List (BitVec 8)

/-- Whether an ECDSA P-384 signature over some bytes verifies under a public key (R558, R559): by key, signature and bytes. -/
opaque Config.verifies : List Nat → List Nat → List Nat → Bool

/-- The CRC-32C of the record directory of a save (R398), whose layout no rule gives: by the round of the seal. -/
opaque Config.directoryCrc : Nat → BitVec 32

end Sys2Proof
end

