-- ==== Sys2Proof/Machine/RegMap.lean ====
section
/-! DEFINITION. The register map: one row for each field of each register table of the spec (R39, R50, R106 to R111, R157 to
R159, R225 to R230, R257 to R260, R304 to R309, R334, R335, R371 to R379, R408, R409, R438 to R441, R468 to R477, R507 to R513,
R543 to R547, R573 to R578), with its place, type code (R14), reset value, stated range, and whether it is live and pair-scope. -/
namespace Sys2Proof.Machine

/-- The type codes of R14. -/
inductive FieldType where
  | rw | ro | w1c | w1s | rl | rwf
  deriving DecidableEq, Repr

/-- One row of a register table: the offset of its first copy, the distance between copies, the number of its first copy and
the one past its last, its low bit and width, its type, its reset value, the stated range (low, high, one further allowed value), whether it is
live (R56) and whether it is pair-scope (R58). -/
structure RegField where
  off : Nat
  stride : Nat
  fst : Nat
  cnt : Nat
  lo : Nat
  width : Nat
  ty : FieldType
  reset : Nat
  range : Option (Nat × Nat × Nat)
  live : Bool
  pair : Bool
  deriving DecidableEq, Repr

/-- The register table of R39. -/
def rowsCLK : List RegField := [
  ⟨0x010, 0x0, 0, 1, 0, 1, .w1c, 0, none, false, false⟩,  -- EVT_STATUS.ROUND_OVERRUN
  ⟨0x010, 0x0, 0, 1, 1, 1, .w1c, 0, none, false, false⟩,  -- EVT_STATUS.ALIGN_FAULT
  ⟨0x010, 0x0, 0, 1, 2, 1, .w1c, 0, none, false, false⟩,  -- EVT_STATUS.STARVE_PROMOTE
  ⟨0x010, 0x0, 0, 1, 3, 1, .w1c, 0, none, false, false⟩,  -- EVT_STATUS.DELIVERY_N_APPLIED
  ⟨0x100, 0x0, 0, 1, 0, 4, .rwf, 8, some (1, 15, 1), false, false⟩,  -- ROUND_CFG.STARVE_LIMIT
  ⟨0x104, 0x0, 0, 1, 0, 18, .rw, 250, some (250, 250000, 250), true, true⟩,  -- DELIVERY_CFG.DELIVERY_N
  ⟨0x110, 0x0, 0, 1, 0, 12, .rwf, 300, some (100, 1000, 100), false, false⟩,  -- BUDGET_GOV.NS
  ⟨0x114, 0x0, 0, 1, 0, 12, .rwf, 150, some (50, 500, 50), false, false⟩,  -- BUDGET_QOS.NS
  ⟨0x118, 0x0, 0, 1, 0, 12, .rwf, 600, some (0, 2000, 0), false, false⟩,  -- BUDGET_ROUTE.NS
  ⟨0x11C, 0x0, 0, 1, 0, 12, .rwf, 900, some (0, 2000, 0), false, false⟩,  -- BUDGET_MIG.NS
  ⟨0x120, 0x0, 0, 1, 0, 12, .rwf, 700, some (0, 2000, 0), false, false⟩,  -- BUDGET_GC.NS
  ⟨0x124, 0x0, 0, 1, 0, 12, .rwf, 300, some (0, 2000, 0), false, false⟩,  -- BUDGET_RESOLE.NS
  ⟨0x128, 0x0, 0, 1, 0, 12, .rwf, 400, some (0, 2000, 0), false, false⟩,  -- BUDGET_SCRUB.NS
  ⟨0x800, 0x0, 0, 1, 0, 16, .ro, 0, none, false, false⟩,  -- ALIGN_OFFSET.NS
  ⟨0x804, 0x0, 0, 1, 0, 2, .ro, 0, none, false, false⟩,  -- ALIGN_STATE.STATE
  ⟨0x804, 0x0, 0, 1, 8, 1, .ro, 0, none, false, false⟩,  -- ALIGN_STATE.KEEPER
  ⟨0x808, 0x0, 0, 1, 0, 16, .ro, 0, none, false, false⟩,  -- LAST_END.NS
  ⟨0x80C, 0x0, 0, 1, 0, 8, .ro, 0, none, false, false⟩,  -- PROMOTED.JOB
  ⟨0x810, 0x0, 0, 1, 0, 32, .ro, 0, none, false, false⟩,  -- ROUND_HI
  ⟨0x81C, 0x4, 1, 8, 0, 32, .ro, 0, none, false, false⟩,  -- BACKLOG_n.NS
  ⟨0xC00, 0x0, 0, 1, 0, 48, .rl, 0, none, false, false⟩,  -- OVERRUN_ROUNDS
  ⟨0xC00, 0x8, 1, 8, 0, 48, .rl, 0, none, false, false⟩,  -- DEFER_n
  ⟨0xC40, 0x0, 0, 1, 0, 48, .rl, 0, none, false, false⟩,  -- MAX_END_NS
  ⟨0xC48, 0x0, 0, 1, 0, 48, .rl, 0, none, false, false⟩,  -- ALIGN_CORRECTIONS
  ⟨0xC50, 0x0, 0, 1, 0, 48, .rl, 0, none, false, false⟩,  -- PROMOTIONS
  ⟨0xC58, 0x0, 0, 1, 0, 48, .rl, 0, none, false, false⟩]  -- ROUNDS_COUNTED

/-- The register table of R106. -/
def rowsHP : List RegField := [
  ⟨0x010, 0x0, 0, 1, 0, 1, .w1c, 0, none, false, false⟩,  -- EVT_STATUS.LINK_CHANGE
  ⟨0x010, 0x0, 0, 1, 1, 1, .w1c, 0, none, false, false⟩,  -- EVT_STATUS.ROLE_CHANGE
  ⟨0x010, 0x0, 0, 1, 2, 1, .w1c, 0, none, false, false⟩,  -- EVT_STATUS.DEGRADED
  ⟨0x010, 0x0, 0, 1, 3, 1, .w1c, 0, none, false, false⟩,  -- EVT_STATUS.OWN_CONFLICT
  ⟨0x100, 0x0, 0, 1, 0, 2, .rwf, 0, some (0, 2, 0), false, true⟩,  -- PORT_CFG.BIFURC
  ⟨0x100, 0x0, 0, 1, 4, 3, .rw, 5, some (0, 5, 0), false, true⟩,  -- PORT_CFG.MAX_RATE
  ⟨0x100, 0x0, 0, 1, 8, 1, .rw, 1, none, false, false⟩,  -- PORT_CFG.LANE_REV_EN
  ⟨0x100, 0x0, 0, 1, 9, 1, .rw, 1, none, false, false⟩,  -- PORT_CFG.FLIT68_EN
  ⟨0x100, 0x0, 0, 1, 10, 1, .rw, 1, none, false, false⟩,  -- PORT_CFG.LOPT_EN
  ⟨0x100, 0x0, 0, 1, 11, 1, .rw, 0, none, false, false⟩,  -- PORT_CFG.L1_EN
  ⟨0x104, 0x0, 0, 1, 0, 3, .rw, 0, some (0, 4, 0), false, false⟩,  -- DEGRADE_CFG.MIN_WIDTH
  ⟨0x104, 0x0, 0, 1, 4, 3, .rw, 0, some (0, 5, 0), false, false⟩,  -- DEGRADE_CFG.MIN_RATE
  ⟨0x108, 0x0, 0, 1, 0, 16, .rw, 0, none, true, false⟩,  -- SPARE_MAP.LANE_OFF
  ⟨0x800, 0x0, 0, 1, 0, 2, .ro, 0, none, false, false⟩,  -- PORT_STATUS.ROLE
  ⟨0x800, 0x0, 0, 1, 2, 1, .ro, 0, none, false, false⟩,  -- PORT_STATUS.OWN_OUT
  ⟨0x800, 0x0, 0, 1, 3, 1, .ro, 0, none, false, false⟩,  -- PORT_STATUS.OWN_IN
  ⟨0x800, 0x0, 0, 1, 4, 1, .ro, 0, none, false, false⟩,  -- PORT_STATUS.GUARD_MET
  ⟨0x800, 0x0, 0, 1, 8, 2, .ro, 0, none, false, false⟩,  -- PORT_STATUS.BIFURC_APPLIED
  ⟨0x804, 0x0, 0, 1, 0, 16, .ro, 0, none, false, false⟩,  -- LANE_ACTIVE
  ⟨0x808, 0x0, 0, 1, 0, 16, .ro, 0, none, false, false⟩,  -- LANE_FAULT
  ⟨0xC00, 0x0, 0, 1, 0, 48, .rl, 0, none, false, false⟩,  -- LINK_UPS
  ⟨0xC08, 0x0, 0, 1, 0, 48, .rl, 0, none, false, false⟩,  -- RECOVERIES
  ⟨0xC10, 0x0, 0, 1, 0, 48, .rl, 0, none, false, false⟩,  -- ROLE_CHANGES
  ⟨0xC18, 0x0, 0, 1, 0, 48, .rl, 0, none, false, false⟩,  -- DEGRADES
  ⟨0xC20, 0x0, 0, 1, 0, 48, .rl, 0, none, false, false⟩]  -- OWN_CONFLICTS

/-- The register table of R107. -/
def rowsCARB : List RegField := [
  ⟨0x010, 0x0, 0, 1, 0, 1, .w1c, 0, none, false, false⟩,  -- EVT_STATUS.TRACK_LOST
  ⟨0x010, 0x0, 0, 1, 1, 1, .w1c, 0, none, false, false⟩,  -- EVT_STATUS.TRACK_ACQUIRED
  ⟨0x100, 0x0, 0, 1, 0, 10, .rw, 250, some (1, 1023, 1), false, false⟩,  -- CARBON_CFG.ACQ_LIMIT
  ⟨0x800, 0x10, 0, 4, 0, 2, .ro, 0, none, false, false⟩,  -- CARBON_k.STATE
  ⟨0x800, 0x10, 0, 4, 4, 4, .ro, 0, none, false, false⟩,  -- CARBON_k.SHADOW_LTSSM
  ⟨0x800, 0x10, 0, 4, 8, 3, .ro, 0, none, false, false⟩,  -- CARBON_k.RATE
  ⟨0x800, 0x10, 0, 4, 16, 1, .ro, 0, none, false, false⟩,  -- CARBON_k.LOCK_HOST
  ⟨0x800, 0x10, 0, 4, 17, 1, .ro, 0, none, false, false⟩,  -- CARBON_k.LOCK_TAP
  ⟨0x804, 0x10, 0, 4, 0, 6, .ro, 0, none, false, false⟩,  -- TXCOEF_k.PRE
  ⟨0x804, 0x10, 0, 4, 6, 6, .ro, 0, none, false, false⟩,  -- TXCOEF_k.MAIN
  ⟨0x804, 0x10, 0, 4, 12, 6, .ro, 0, none, false, false⟩,  -- TXCOEF_k.POST
  ⟨0x808, 0x10, 0, 4, 0, 8, .ro, 0, none, false, false⟩,  -- FETCH_PENDING_k
  ⟨0xC00, 0x20, 0, 4, 0, 48, .rl, 0, none, false, false⟩,  -- FETCHES_k
  ⟨0xC08, 0x20, 0, 4, 0, 48, .rl, 0, none, false, false⟩,  -- LOSSES_k
  ⟨0xC10, 0x20, 0, 4, 0, 48, .rl, 0, none, false, false⟩,  -- ACQUIRES_k
  ⟨0xC18, 0x20, 0, 4, 0, 48, .rl, 0, none, false, false⟩]  -- ACQ_NS_MAX_k

/-- The register table of R108. -/
def rowsLANE : List RegField := [
  ⟨0x800, 0x4, 0, 16, 0, 1, .ro, 0, none, false, false⟩,  -- HOST_LANE_l.LOCK
  ⟨0x800, 0x4, 0, 16, 1, 1, .ro, 0, none, false, false⟩,  -- HOST_LANE_l.DETECTED
  ⟨0x800, 0x4, 0, 16, 8, 8, .ro, 0, none, false, false⟩,  -- HOST_LANE_l.MARGIN
  ⟨0x840, 0x4, 0, 16, 0, 1, .ro, 0, none, false, false⟩,  -- TAP_LANE_l.LOCK
  ⟨0x840, 0x4, 0, 16, 8, 8, .ro, 0, none, false, false⟩,  -- TAP_LANE_l.MARGIN
  ⟨0xC00, 0x8, 0, 16, 0, 48, .rl, 0, none, false, false⟩,  -- HOST_SYM_ERR_l
  ⟨0xC80, 0x8, 0, 16, 0, 48, .rl, 0, none, false, false⟩]  -- TAP_SYM_ERR_l

/-- The register table of R109. -/
def rowsHIST : List RegField := [
  ⟨0x010, 0x0, 0, 1, 0, 1, .w1c, 0, none, false, false⟩,  -- EVT_STATUS.HISTORY_FULL
  ⟨0x800, 0x10, 0, 4, 0, 12, .ro, 0, none, false, false⟩,  -- RX_HIST_USE_k
  ⟨0x804, 0x10, 0, 4, 0, 12, .ro, 0, none, false, false⟩,  -- TX_HIST_USE_k
  ⟨0x808, 0x10, 0, 4, 0, 16, .ro, 0, none, false, false⟩,  -- WM_LAG_k.NS
  ⟨0xC00, 0x18, 0, 4, 0, 48, .rl, 0, none, false, false⟩,  -- HIST_FULL_k
  ⟨0xC08, 0x18, 0, 4, 0, 48, .rl, 0, none, false, false⟩,  -- WM_LAG_MAX_k
  ⟨0xC10, 0x18, 0, 4, 0, 48, .rl, 0, none, false, false⟩]  -- FETCH_SERVED_k

/-- The register table of R110. -/
def rowsHCFG : List RegField := [
  ⟨0x010, 0x0, 0, 1, 0, 1, .w1c, 0, none, false, false⟩,  -- EVT_STATUS.HOT_RESET
  ⟨0x010, 0x0, 0, 1, 1, 1, .w1c, 0, none, false, false⟩,  -- EVT_STATUS.DECODER_ERROR
  ⟨0x010, 0x0, 0, 1, 2, 1, .w1c, 0, none, false, false⟩,  -- EVT_STATUS.UNMAPPED_ACCESS
  ⟨0x010, 0x0, 0, 1, 3, 1, .w1c, 0, none, false, false⟩,  -- EVT_STATUS.LOG_OVERFLOW
  ⟨0x010, 0x0, 0, 1, 4, 1, .w1c, 0, none, false, false⟩,  -- EVT_STATUS.GPF_DONE
  ⟨0x100, 0x0, 0, 1, 0, 1, .rwf, 1, none, false, true⟩,  -- HEAD_CFG.VISIBLE
  ⟨0x104, 0x0, 0, 1, 0, 1, .rw, 0, none, true, true⟩,  -- EVENT_CFG.PAGE_EVENTS
  ⟨0x200, 0x4, 0, 64, 0, 8, .rw, 1, some (1, 255, 1), true, false⟩,  -- MSIX_MOD_v.COUNT
  ⟨0x200, 0x4, 0, 64, 8, 16, .rw, 0, none, true, false⟩,  -- MSIX_MOD_v.TIME_US
  ⟨0x800, 0x0, 0, 1, 0, 16, .ro, 0, none, false, false⟩,  -- DECODERS.COMMITTED
  ⟨0x800, 0x0, 0, 1, 16, 16, .ro, 0, none, false, false⟩,  -- DECODERS.ERROR
  ⟨0x804, 0x0, 0, 1, 0, 4, .ro, 0, none, false, false⟩,  -- LAST_DEC_ERR.DECODER
  ⟨0x804, 0x0, 0, 1, 8, 4, .ro, 0, none, false, false⟩,  -- LAST_DEC_ERR.REASON
  ⟨0x808, 0x0, 0, 1, 0, 8, .ro, 0, none, false, false⟩,  -- LOG_FILL.INFO
  ⟨0x808, 0x0, 0, 1, 8, 8, .ro, 0, none, false, false⟩,  -- LOG_FILL.WARN
  ⟨0x808, 0x0, 0, 1, 16, 8, .ro, 0, none, false, false⟩,  -- LOG_FILL.FAIL
  ⟨0x808, 0x0, 0, 1, 24, 8, .ro, 0, none, false, false⟩,  -- LOG_FILL.FATAL
  ⟨0xC00, 0x0, 0, 1, 0, 48, .rl, 0, none, false, false⟩,  -- UNMAPPED_READS
  ⟨0xC08, 0x0, 0, 1, 0, 48, .rl, 0, none, false, false⟩,  -- UNMAPPED_WRITES
  ⟨0xC10, 0x0, 0, 1, 0, 48, .rl, 0, none, false, false⟩,  -- HOT_RESETS
  ⟨0xC18, 0x0, 0, 1, 0, 48, .rl, 0, none, false, false⟩,  -- EVENTS_DROPPED
  ⟨0xC20, 0x0, 0, 1, 0, 48, .rl, 0, none, false, false⟩,  -- MSIX_SENT
  ⟨0xC28, 0x0, 0, 1, 0, 48, .rl, 0, none, false, false⟩,  -- MSIX_HELD
  ⟨0xC30, 0x0, 0, 1, 0, 48, .rl, 0, none, false, false⟩,  -- MAILBOX_CMDS
  ⟨0xC38, 0x0, 0, 1, 0, 48, .rl, 0, none, false, false⟩]  -- MAILBOX_RETRY

/-- The register table of R111. -/
def rowsHLNK : List RegField := [
  ⟨0x800, 0x0, 0, 1, 0, 4, .ro, 0, none, false, false⟩,  -- LINK.LTSSM
  ⟨0x800, 0x0, 0, 1, 4, 3, .ro, 0, none, false, false⟩,  -- LINK.RATE
  ⟨0x800, 0x0, 0, 1, 8, 3, .ro, 0, none, false, false⟩,  -- LINK.WIDTH
  ⟨0x800, 0x0, 0, 1, 11, 2, .ro, 0, none, false, false⟩,  -- LINK.FLIT
  ⟨0x800, 0x0, 0, 1, 13, 1, .ro, 0, none, false, false⟩,  -- LINK.REVERSED
  ⟨0x800, 0x0, 0, 1, 14, 1, .ro, 0, none, false, false⟩,  -- LINK.IDE_IO
  ⟨0x800, 0x0, 0, 1, 15, 1, .ro, 0, none, false, false⟩,  -- LINK.IDE_MEM
  ⟨0x800, 0x0, 0, 1, 16, 2, .ro, 0, none, false, false⟩,  -- LINK.D_STATE
  ⟨0x800, 0x0, 0, 1, 18, 1, .ro, 0, none, false, false⟩,  -- LINK.MEM_ACTIVE
  ⟨0x804, 0x0, 0, 1, 0, 32, .ro, 0, none, false, false⟩,  -- LAST_RECOVERY.NS
  ⟨0xC00, 0x0, 0, 1, 0, 48, .rl, 0, none, false, false⟩,  -- MEM_READS
  ⟨0xC08, 0x0, 0, 1, 0, 48, .rl, 0, none, false, false⟩,  -- MEM_WRITES
  ⟨0xC10, 0x0, 0, 1, 0, 48, .rl, 0, none, false, false⟩,  -- IO_REQUESTS
  ⟨0xC18, 0x0, 0, 1, 0, 48, .rl, 0, none, false, false⟩,  -- FLITS_RX
  ⟨0xC20, 0x0, 0, 1, 0, 48, .rl, 0, none, false, false⟩,  -- FLITS_TX
  ⟨0xC28, 0x0, 0, 1, 0, 48, .rl, 0, none, false, false⟩,  -- REPLAYS_TX
  ⟨0xC30, 0x0, 0, 1, 0, 48, .rl, 0, none, false, false⟩,  -- NAKS_RX
  ⟨0xC38, 0x0, 0, 1, 0, 48, .rl, 0, none, false, false⟩,  -- RECOVERIES
  ⟨0xC40, 0x0, 0, 1, 0, 48, .rl, 0, none, false, false⟩,  -- RECOVERY_NS_MAX
  ⟨0xC48, 0x0, 0, 1, 0, 48, .rl, 0, none, false, false⟩,  -- CMPL_NS_MAX
  ⟨0xC50, 0x0, 0, 1, 0, 48, .rl, 0, none, false, false⟩,  -- CMPL_OVER_150US
  ⟨0xC58, 0x0, 0, 1, 0, 48, .rl, 0, none, false, false⟩,  -- FEC_CORRECTED
  ⟨0xC60, 0x0, 0, 1, 0, 48, .rl, 0, none, false, false⟩]  -- CRC_ERRORS

/-- The register table of R157. -/
def rowsSRT : List RegField := [
  ⟨0x010, 0x0, 0, 1, 0, 1, .w1c, 0, none, false, false⟩,  -- EVT_STATUS.TAG_LIMIT
  ⟨0x010, 0x0, 0, 1, 1, 1, .w1c, 0, none, false, false⟩,  -- EVT_STATUS.REGULATED
  ⟨0x010, 0x0, 0, 1, 2, 1, .w1c, 0, none, false, false⟩,  -- EVT_STATUS.POISON_SENT
  ⟨0x100, 0x0, 0, 1, 0, 1, .rw, 1, none, false, true⟩,  -- SRT_CFG.SPEC_EN
  ⟨0x200, 0x10, 0, 24, 0, 10, .rwf, 320, some (1, 512, 1), false, true⟩,  -- HEAD_h.TAG_MAX
  ⟨0x204, 0x10, 0, 24, 0, 16, .rw, 0, some (0, 16000, 0), true, true⟩,  -- HEAD_h.RD_RATE
  ⟨0x208, 0x10, 0, 24, 0, 16, .rw, 0, some (0, 16000, 0), true, true⟩,  -- HEAD_h.WR_RATE
  ⟨0x20C, 0x10, 0, 24, 0, 8, .rw, 25, some (1, 250, 1), true, true⟩,  -- HEAD_h.RD_DEPTH
  ⟨0x20C, 0x10, 0, 24, 16, 8, .rw, 25, some (1, 250, 1), true, true⟩,  -- HEAD_h.WR_DEPTH
  ⟨0x800, 0x4, 0, 24, 0, 10, .ro, 0, none, false, false⟩,  -- TAGS_h.IN_USE
  ⟨0x800, 0x4, 0, 24, 16, 1, .ro, 0, none, false, false⟩,  -- TAGS_h.HOME
  ⟨0x860, 0x0, 0, 1, 0, 14, .ro, 0, none, false, false⟩,  -- TAGS_TOTAL
  ⟨0x880, 0x4, 0, 24, 0, 16, .ro, 0, none, false, false⟩,  -- TOKENS_h.RD
  ⟨0x880, 0x4, 0, 24, 16, 16, .ro, 0, none, false, false⟩,  -- TOKENS_h.WR
  ⟨0xC00, 0x8, 0, 24, 0, 48, .rl, 0, none, false, false⟩,  -- TAG_PEAK_h
  ⟨0xCC0, 0x8, 0, 24, 0, 48, .rl, 0, none, false, false⟩,  -- RD_WAIT_h
  ⟨0xD80, 0x8, 0, 24, 0, 48, .rl, 0, none, false, false⟩,  -- WR_WAIT_h
  ⟨0xE40, 0x0, 0, 1, 0, 48, .rl, 0, none, false, false⟩,  -- POISON_SENT
  ⟨0xE48, 0x0, 0, 1, 0, 48, .rl, 0, none, false, false⟩,  -- SAME_LINE_HOLDS
  ⟨0xE50, 0x0, 0, 1, 0, 48, .rl, 0, none, false, false⟩,  -- WMB_FORWARDS
  ⟨0xE58, 0x0, 0, 1, 0, 48, .rl, 0, none, false, false⟩]  -- SPEC_DROPPED

/-- The register table of R158. CMD_LOG2 and CMP_LOG2 keep their 4 bits, which cannot hold the 16 of their range: rings end at 32,768 entries
(DESIGN CHOICE, log 101). -/
def rowsPBX : List RegField := [
  ⟨0x010, 0x0, 0, 1, 0, 1, .w1c, 0, none, false, false⟩,  -- EVT_STATUS.RING_ERROR
  ⟨0x010, 0x0, 0, 1, 1, 1, .w1c, 0, none, false, false⟩,  -- EVT_STATUS.DOORBELL_DENIED
  ⟨0x010, 0x0, 0, 1, 2, 1, .w1c, 0, none, false, false⟩,  -- EVT_STATUS.CMP_STALL
  ⟨0x100, 0x10, 0, 64, 12, 20, .rw, 0, none, true, true⟩,  -- RING_q.CMD_BASE_LO
  ⟨0x104, 0x10, 0, 64, 0, 16, .rw, 0, none, true, true⟩,  -- RING_q.CMD_BASE_HI
  ⟨0x104, 0x10, 0, 64, 16, 4, .rw, 6, some (6, 16, 6), true, true⟩,  -- RING_q.CMD_LOG2
  ⟨0x104, 0x10, 0, 64, 20, 4, .rw, 6, some (6, 16, 6), true, true⟩,  -- RING_q.CMP_LOG2
  ⟨0x104, 0x10, 0, 64, 24, 6, .rw, 8, none, true, true⟩,  -- RING_q.VECTOR
  ⟨0x108, 0x10, 0, 64, 12, 20, .rw, 0, none, true, true⟩,  -- RING_q.CMP_BASE_LO
  ⟨0x10C, 0x10, 0, 64, 0, 16, .rw, 0, none, true, true⟩,  -- RING_q.CMP_BASE_HI
  ⟨0x10C, 0x10, 0, 64, 16, 5, .rw, 0, some (0, 23, 0), true, true⟩,  -- RING_q.OWNER
  ⟨0x10C, 0x10, 0, 64, 31, 1, .rw, 0, none, true, true⟩,  -- RING_q.ENABLE
  ⟨0x500, 0x8, 0, 64, 0, 16, .rw, 0, none, true, false⟩,  -- DB_q.CMD_TAIL
  ⟨0x504, 0x8, 0, 64, 0, 16, .rw, 0, none, true, false⟩,  -- DB_q.CMP_HEAD
  ⟨0x800, 0x8, 0, 64, 0, 16, .ro, 0, none, false, false⟩,  -- RING_STATUS_q.CMD_HEAD
  ⟨0x800, 0x8, 0, 64, 16, 2, .ro, 0, none, false, false⟩,  -- RING_STATUS_q.STATE
  ⟨0x800, 0x8, 0, 64, 20, 4, .ro, 0, none, false, false⟩,  -- RING_STATUS_q.ERR
  ⟨0x804, 0x8, 0, 64, 0, 16, .ro, 0, none, false, false⟩,  -- RING_STATUS_q.CMP_TAIL
  ⟨0x804, 0x8, 0, 64, 16, 7, .ro, 0, none, false, false⟩,  -- RING_STATUS_q.IN_PROGRESS
  ⟨0x804, 0x8, 0, 64, 24, 1, .ro, 1, none, false, false⟩,  -- RING_STATUS_q.PHASE
  ⟨0xC00, 0x8, 0, 64, 0, 48, .rl, 0, none, false, false⟩,  -- CMDS_q
  ⟨0xE00, 0x0, 0, 1, 0, 48, .rl, 0, none, false, false⟩,  -- DOORBELL_DENIED
  ⟨0xE08, 0x0, 0, 1, 0, 48, .rl, 0, none, false, false⟩,  -- RING_ERRORS
  ⟨0xE10, 0x0, 0, 1, 0, 48, .rl, 0, none, false, false⟩,  -- RETRY_AT_TAKEOVER
  ⟨0xE18, 0x0, 0, 1, 0, 48, .rl, 0, none, false, false⟩]  -- CMP_WAIT_ROUNDS

/-- The register table of R159. -/
def rowsWMB : List RegField := [
  ⟨0x010, 0x0, 0, 1, 0, 1, .w1c, 0, none, false, false⟩,  -- EVT_STATUS.UNCORRECTABLE
  ⟨0x010, 0x0, 0, 1, 1, 1, .w1c, 0, none, false, false⟩,  -- EVT_STATUS.UNMIRRORED
  ⟨0x010, 0x0, 0, 1, 2, 1, .w1c, 0, none, false, false⟩,  -- EVT_STATUS.LOCAL_STALL
  ⟨0x010, 0x0, 0, 1, 3, 1, .w1c, 0, none, false, false⟩,  -- EVT_STATUS.FULL
  ⟨0x100, 0x0, 0, 1, 0, 32, .rw, 0, none, true, true⟩,  -- CMPL_LOCAL_LO
  ⟨0x104, 0x0, 0, 1, 0, 32, .rw, 0, none, true, true⟩,  -- CMPL_LOCAL_HI
  ⟨0x108, 0x0, 0, 1, 0, 12, .rw, 500, some (0, 4000, 0), true, false⟩,  -- DRAIN_CFG.HOLD_NS
  ⟨0x108, 0x0, 0, 1, 16, 7, .rw, 75, some (50, 95, 50), true, false⟩,  -- DRAIN_CFG.HIGH_PCT
  ⟨0x800, 0x0, 0, 1, 0, 19, .ro, 0, none, false, false⟩,  -- LINES_USED
  ⟨0x804, 0x0, 0, 1, 0, 19, .ro, 0, none, false, false⟩,  -- LINES_CHARGED
  ⟨0x808, 0x0, 0, 1, 0, 19, .ro, 129536, none, false, false⟩,  -- SHARE
  ⟨0x80C, 0x0, 0, 1, 0, 16, .ro, 0, none, false, false⟩,  -- OLDEST_LOCAL.NS
  ⟨0xC00, 0x0, 0, 1, 0, 48, .rl, 0, none, false, false⟩,  -- WRITES_FULL
  ⟨0xC08, 0x0, 0, 1, 0, 48, .rl, 0, none, false, false⟩,  -- WRITES_PARTIAL
  ⟨0xC10, 0x0, 0, 1, 0, 48, .rl, 0, none, false, false⟩,  -- MERGES
  ⟨0xC18, 0x0, 0, 1, 0, 48, .rl, 0, none, false, false⟩,  -- DRAINS
  ⟨0xC20, 0x0, 0, 1, 0, 48, .rl, 0, none, false, false⟩,  -- REDRAINS
  ⟨0xC28, 0x0, 0, 1, 0, 48, .rl, 0, none, false, false⟩,  -- CORRECTED_BYTES
  ⟨0xC30, 0x0, 0, 1, 0, 48, .rl, 0, none, false, false⟩,  -- UNCORRECTED
  ⟨0xC38, 0x0, 0, 1, 0, 48, .rl, 0, none, false, false⟩,  -- REPAIRED
  ⟨0xC40, 0x0, 0, 1, 0, 48, .rl, 0, none, false, false⟩,  -- TWINACK_NS_MAX
  ⟨0xC48, 0x0, 0, 1, 0, 48, .rl, 0, none, false, false⟩,  -- LOCAL_STALLS
  ⟨0xC50, 0x0, 0, 1, 0, 48, .rl, 0, none, false, false⟩,  -- UNMIRRORED_CMPL
  ⟨0xC58, 0x0, 0, 1, 0, 48, .rl, 0, none, false, false⟩,  -- FULL_WAITS
  ⟨0xC60, 0x0, 0, 1, 0, 48, .rl, 0, none, false, false⟩]  -- POISON_WRITES

/-- The register table of R225. -/
def rowsROLE : List RegField := [
  ⟨0x010, 0x0, 0, 1, 0, 1, .w1c, 0, none, false, false⟩,  -- EVT_STATUS.TAKEOVER
  ⟨0x010, 0x0, 0, 1, 1, 1, .w1c, 0, none, false, false⟩,  -- EVT_STATUS.PEER_FAILSTOP
  ⟨0x010, 0x0, 0, 1, 2, 1, .w1c, 0, none, false, false⟩,  -- EVT_STATUS.PEER_SILENT
  ⟨0x010, 0x0, 0, 1, 3, 1, .w1c, 0, none, false, false⟩,  -- EVT_STATUS.LINK_LOST
  ⟨0x010, 0x0, 0, 1, 4, 1, .w1c, 0, none, false, false⟩,  -- EVT_STATUS.ISOLATED
  ⟨0x010, 0x0, 0, 1, 5, 1, .w1c, 0, none, false, false⟩,  -- EVT_STATUS.PULSE_FAULT
  ⟨0x010, 0x0, 0, 1, 6, 1, .w1c, 0, none, false, false⟩,  -- EVT_STATUS.COLD_TAKEOVER
  ⟨0x010, 0x0, 0, 1, 7, 1, .w1c, 0, none, false, false⟩,  -- EVT_STATUS.HANDOVER_DONE
  ⟨0x010, 0x0, 0, 1, 8, 1, .w1c, 0, none, false, false⟩,  -- EVT_STATUS.DRILL_REFUSED
  ⟨0x010, 0x0, 0, 1, 9, 1, .w1c, 0, none, false, false⟩,  -- EVT_STATUS.MODE_CHANGE
  ⟨0x010, 0x0, 0, 1, 10, 1, .w1c, 0, none, false, false⟩,  -- EVT_STATUS.START_LINK_DOWN
  ⟨0x100, 0x0, 0, 1, 0, 6, .rw, 42, none, true, true⟩,  -- PORT_HOME.B_HOME
  ⟨0x100, 0x0, 0, 1, 8, 1, .rw, 1, none, false, true⟩,  -- PORT_HOME.AUTO_RETURN
  ⟨0x104, 0x0, 0, 1, 0, 8, .rwf, 4, some (1, 255, 1), false, true⟩,  -- DETECT_CFG.ISOLATE_LIMIT
  ⟨0x108, 0x0, 0, 1, 0, 1, .rwf, 0, none, false, false⟩,  -- START_CFG.SOLO_ALLOW
  ⟨0x108, 0x0, 0, 1, 1, 1, .w1s, 0, none, false, false⟩,  -- START_CFG.FORCE_ALONE
  ⟨0x108, 0x0, 0, 1, 16, 10, .rwf, 30, some (1, 600, 1), false, false⟩,  -- START_CFG.SOLO_WAIT_S
  ⟨0x10C, 0x0, 0, 1, 0, 3, .rw, 0, some (0, 5, 0), true, true⟩,  -- TAKEOVER.PORT
  ⟨0x10C, 0x0, 0, 1, 4, 1, .w1s, 0, none, false, false⟩,  -- TAKEOVER.DRILL
  ⟨0x10C, 0x0, 0, 1, 5, 1, .rw, 1, none, true, true⟩,  -- TAKEOVER.RETURN
  ⟨0x10C, 0x0, 0, 1, 8, 16, .rw, 250, some (1, 65535, 1), true, true⟩,  -- TAKEOVER.HOLD_ROUNDS
  ⟨0x110, 0x0, 0, 1, 0, 1, .w1s, 0, none, false, false⟩,  -- FAILSTOP.NOW
  ⟨0x114, 0x0, 0, 1, 0, 1, .w1s, 0, none, false, false⟩,  -- FENCE.RELEASE
  ⟨0x800, 0x0, 0, 1, 0, 3, .ro, 0, none, false, false⟩,  -- ROLE.PORT_0
  ⟨0x800, 0x0, 0, 1, 3, 3, .ro, 0, none, false, false⟩,  -- ROLE.PORT_1
  ⟨0x800, 0x0, 0, 1, 6, 3, .ro, 0, none, false, false⟩,  -- ROLE.PORT_2
  ⟨0x800, 0x0, 0, 1, 9, 3, .ro, 0, none, false, false⟩,  -- ROLE.PORT_3
  ⟨0x800, 0x0, 0, 1, 12, 3, .ro, 0, none, false, false⟩,  -- ROLE.PORT_4
  ⟨0x800, 0x0, 0, 1, 15, 3, .ro, 0, none, false, false⟩,  -- ROLE.PORT_5
  ⟨0x804, 0x0, 0, 1, 0, 3, .ro, 0, none, false, false⟩,  -- PAIR_STATE.MODE
  ⟨0x804, 0x0, 0, 1, 8, 1, .ro, 0, none, false, false⟩,  -- PAIR_STATE.PEER_ALIVE
  ⟨0x804, 0x0, 0, 1, 9, 1, .ro, 0, none, false, false⟩,  -- PAIR_STATE.PULSE_OK
  ⟨0x804, 0x0, 0, 1, 10, 1, .ro, 0, none, false, false⟩,  -- PAIR_STATE.DEAD_SEEN
  ⟨0x804, 0x0, 0, 1, 11, 1, .ro, 0, none, false, false⟩,  -- PAIR_STATE.FENCE_OUT
  ⟨0x804, 0x0, 0, 1, 16, 8, .ro, 0, none, false, false⟩,  -- PAIR_STATE.HB_LOST
  ⟨0x804, 0x0, 0, 1, 24, 8, .ro, 0, none, false, false⟩,  -- PAIR_STATE.PULSE_LOST
  ⟨0x808, 0x0, 0, 1, 0, 2, .ro, 0, none, false, false⟩,  -- DRILL_STATUS.STATE
  ⟨0x808, 0x0, 0, 1, 8, 8, .ro, 0, none, false, false⟩,  -- DRILL_STATUS.CODE
  ⟨0x80C, 0x0, 0, 1, 0, 32, .ro, 0, none, false, false⟩,  -- LAST_TAKEOVER.NS
  ⟨0x810, 0x0, 0, 1, 0, 32, .ro, 0, none, false, false⟩] ++ [  -- LAST_TAKEOVER.ROUND_LO
  ⟨0x814, 0x0, 0, 1, 0, 32, .ro, 0, none, false, false⟩,  -- PAIR_EPOCH_LO
  ⟨0x818, 0x0, 0, 1, 0, 32, .ro, 0, none, false, false⟩,  -- PAIR_EPOCH_HI
  ⟨0x81C, 0x0, 0, 1, 0, 2, .ro, 0, none, false, false⟩,  -- FAILSTOP_COUNT
  ⟨0xC00, 0x0, 0, 1, 0, 48, .rl, 0, none, false, false⟩,  -- TAKEOVERS
  ⟨0xC08, 0x0, 0, 1, 0, 48, .rl, 0, none, false, false⟩,  -- COLD_TAKEOVERS
  ⟨0xC10, 0x0, 0, 1, 0, 48, .rl, 0, none, false, false⟩,  -- HANDOVERS
  ⟨0xC18, 0x0, 0, 1, 0, 48, .rl, 0, none, false, false⟩,  -- DRILLS
  ⟨0xC20, 0x0, 0, 1, 0, 48, .rl, 0, none, false, false⟩,  -- HB_LOST_ROUNDS
  ⟨0xC28, 0x0, 0, 1, 0, 48, .rl, 0, none, false, false⟩,  -- PULSE_LOST_ROUNDS
  ⟨0xC30, 0x0, 0, 1, 0, 48, .rl, 0, none, false, false⟩,  -- TAKEOVER_NS_MAX
  ⟨0xC38, 0x0, 0, 1, 0, 48, .rl, 0, none, false, false⟩,  -- REPLAYED_FLITS
  ⟨0xC40, 0x0, 0, 1, 0, 48, .rl, 0, none, false, false⟩]  -- ANSWERED_REQUESTS

/-- The register table of R226. -/
def rowsPMK : List RegField := [
  ⟨0x010, 0x0, 0, 1, 0, 1, .w1c, 0, none, false, false⟩,  -- EVT_STATUS.BRIDGING
  ⟨0x010, 0x0, 0, 1, 1, 1, .w1c, 0, none, false, false⟩,  -- EVT_STATUS.WM_LATE
  ⟨0x010, 0x0, 0, 1, 2, 1, .w1c, 0, none, false, false⟩,  -- EVT_STATUS.EFFECT_DISCARDED
  ⟨0x100, 0x0, 0, 1, 0, 7, .rw, 60, some (10, 90, 10), true, false⟩,  -- BRIDGE_CFG.SHARE_PCT
  ⟨0x800, 0x0, 0, 1, 0, 32, .ro, 0, none, false, false⟩,  -- PM_SEQ_TX
  ⟨0x804, 0x0, 0, 1, 0, 32, .ro, 0, none, false, false⟩,  -- PM_SEQ_PEER_APPLIED
  ⟨0x808, 0x0, 0, 1, 0, 32, .ro, 0, none, false, false⟩,  -- PM_SEQ_APPLIED
  ⟨0x80C, 0x0, 0, 1, 0, 24, .ro, 0, none, false, false⟩,  -- BRIDGE_TX
  ⟨0x810, 0x0, 0, 1, 0, 24, .ro, 0, none, false, false⟩,  -- BRIDGE_RX
  ⟨0x814, 0x0, 0, 1, 0, 16, .ro, 0, none, false, false⟩,  -- WM_AGE.NS
  ⟨0xC00, 0x0, 0, 1, 0, 48, .rl, 0, none, false, false⟩,  -- RECORDS_TX
  ⟨0xC08, 0x0, 0, 1, 0, 48, .rl, 0, none, false, false⟩,  -- RECORDS_RX
  ⟨0xC10, 0x0, 0, 1, 0, 48, .rl, 0, none, false, false⟩,  -- FRAMES_LOST
  ⟨0xC18, 0x0, 0, 1, 0, 48, .rl, 0, none, false, false⟩,  -- BRIDGED_WRITES
  ⟨0xC20, 0x0, 0, 1, 0, 48, .rl, 0, none, false, false⟩,  -- ALIAS_APPLIED
  ⟨0xC28, 0x0, 0, 1, 0, 48, .rl, 0, none, false, false⟩,  -- EFFECTS_APPLIED
  ⟨0xC30, 0x0, 0, 1, 0, 48, .rl, 0, none, false, false⟩]  -- EFFECTS_DISCARDED

/-- The register table of R227. -/
def rowsREP : List RegField := [
  ⟨0x010, 0x0, 0, 1, 0, 1, .w1c, 0, none, false, false⟩,  -- EVT_STATUS.REPAIR_FAILED
  ⟨0x010, 0x0, 0, 1, 1, 1, .w1c, 0, none, false, false⟩,  -- EVT_STATUS.CSIGN_MISMATCH
  ⟨0x010, 0x0, 0, 1, 2, 1, .w1c, 0, none, false, false⟩,  -- EVT_STATUS.HOME_COPY_BAD
  ⟨0x100, 0x0, 0, 1, 0, 1, .rw, 1, none, true, false⟩,  -- CSIGN_CFG.ENABLE
  ⟨0x100, 0x0, 0, 1, 8, 4, .rw, 10, none, true, false⟩,  -- CSIGN_CFG.RATE_LOG2
  ⟨0x104, 0x0, 0, 1, 0, 1, .rw, 1, none, true, false⟩,  -- REPAIR_CFG.BACKTIER_EN
  ⟨0x800, 0x0, 0, 1, 0, 7, .ro, 0, none, false, false⟩,  -- REPAIRS_PENDING
  ⟨0x804, 0x0, 0, 1, 0, 32, .ro, 0, none, false, false⟩,  -- LAST_MISMATCH_LO
  ⟨0x808, 0x0, 0, 1, 0, 16, .ro, 0, none, false, false⟩,  -- LAST_MISMATCH_HI
  ⟨0xC00, 0x0, 0, 1, 0, 48, .rl, 0, none, false, false⟩,  -- REPAIR_REQUESTS
  ⟨0xC08, 0x0, 0, 1, 0, 48, .rl, 0, none, false, false⟩,  -- REPAIR_FROM_TWIN
  ⟨0xC10, 0x0, 0, 1, 0, 48, .rl, 0, none, false, false⟩,  -- REPAIR_FROM_BACK
  ⟨0xC18, 0x0, 0, 1, 0, 48, .rl, 0, none, false, false⟩,  -- REPAIR_FAILED
  ⟨0xC20, 0x0, 0, 1, 0, 48, .rl, 0, none, false, false⟩,  -- REPAIR_SERVED
  ⟨0xC28, 0x0, 0, 1, 0, 48, .rl, 0, none, false, false⟩,  -- REPAIR_NS_MAX
  ⟨0xC30, 0x0, 0, 1, 0, 48, .rl, 0, none, false, false⟩,  -- CSIGN_SAMPLES
  ⟨0xC38, 0x0, 0, 1, 0, 48, .rl, 0, none, false, false⟩,  -- CSIGN_MISMATCHES
  ⟨0xC40, 0x0, 0, 1, 0, 48, .rl, 0, none, false, false⟩,  -- CSIGN_CARBON_FIXED
  ⟨0xC48, 0x0, 0, 1, 0, 48, .rl, 0, none, false, false⟩]  -- CSIGN_HOME_FIXED

/-- The register table of R228. -/
def rowsRSY : List RegField := [
  ⟨0x010, 0x0, 0, 1, 0, 1, .w1c, 0, none, false, false⟩,  -- EVT_STATUS.RESYNC_START
  ⟨0x010, 0x0, 0, 1, 1, 1, .w1c, 0, none, false, false⟩,  -- EVT_STATUS.RESYNC_DONE
  ⟨0x010, 0x0, 0, 1, 2, 1, .w1c, 0, none, false, false⟩,  -- EVT_STATUS.RESYNC_ABORTED
  ⟨0x010, 0x0, 0, 1, 3, 1, .w1c, 0, none, false, false⟩,  -- EVT_STATUS.SPEAKER_MOVED
  ⟨0x100, 0x0, 0, 1, 0, 7, .rw, 90, some (10, 100, 10), true, false⟩,  -- RESYNC_CFG.MEDIA_SHARE_PCT
  ⟨0x100, 0x0, 0, 1, 8, 1, .rw, 0, none, false, false⟩,  -- RESYNC_CFG.FORCE_FULL
  ⟨0x104, 0x0, 0, 1, 0, 1, .rwf, 0, none, false, true⟩,  -- SPEAKER_CFG.PREF
  ⟨0x800, 0x0, 0, 1, 0, 3, .ro, 0, none, false, false⟩,  -- RESYNC.STATE
  ⟨0x800, 0x0, 0, 1, 4, 1, .ro, 0, none, false, false⟩,  -- RESYNC.KIND
  ⟨0x800, 0x0, 0, 1, 8, 1, .ro, 0, none, false, false⟩,  -- RESYNC.JOINER
  ⟨0x804, 0x0, 0, 1, 0, 28, .ro, 0, none, false, false⟩,  -- EXTENTS_TOTAL
  ⟨0x808, 0x0, 0, 1, 0, 28, .ro, 0, none, false, false⟩,  -- EXTENTS_DONE
  ⟨0x80C, 0x0, 0, 1, 0, 32, .ro, 0, none, false, false⟩,  -- ETA_S
  ⟨0x810, 0x0, 0, 1, 0, 28, .ro, 0, none, false, false⟩,  -- CHANGEMAP_MARKED
  ⟨0x814, 0x0, 0, 1, 0, 1, .ro, 0, none, false, false⟩,  -- SPEAKER.IS_SPEAKER
  ⟨0x818, 0x0, 0, 1, 0, 32, .ro, 0, none, false, false⟩,  -- SPEAKER_SAVED_DELIVERY
  ⟨0x81C, 0x0, 0, 1, 0, 32, .ro, 0, none, false, false⟩,  -- CHANGEMAP_BASE_EPOCH_LO
  ⟨0x820, 0x0, 0, 1, 0, 32, .ro, 0, none, false, false⟩,  -- CHANGEMAP_BASE_EPOCH_HI
  ⟨0xC00, 0x0, 0, 1, 0, 48, .rl, 0, none, false, false⟩,  -- RESYNC_BYTES
  ⟨0xC08, 0x0, 0, 1, 0, 48, .rl, 0, none, false, false⟩,  -- EXTENTS_COPIED
  ⟨0xC10, 0x0, 0, 1, 0, 48, .rl, 0, none, false, false⟩,  -- CHANGEMAP_MARKS
  ⟨0xC18, 0x0, 0, 1, 0, 48, .rl, 0, none, false, false⟩]  -- SPEAKER_SAVES

/-- The register table of R229. -/
def rowsCXK : List RegField := [
  ⟨0x010, 0x0, 0, 1, 0, 1, .w1c, 0, none, false, false⟩,  -- EVT_STATUS.LINK_DOWN
  ⟨0x010, 0x0, 0, 1, 1, 1, .w1c, 0, none, false, false⟩,  -- EVT_STATUS.LINK_UP
  ⟨0x010, 0x0, 0, 1, 2, 1, .w1c, 0, none, false, false⟩,  -- EVT_STATUS.LANE_SPARED
  ⟨0x010, 0x0, 0, 1, 3, 1, .w1c, 0, none, false, false⟩,  -- EVT_STATUS.DEGRADED
  ⟨0x010, 0x0, 0, 1, 4, 1, .w1c, 0, none, false, false⟩,  -- EVT_STATUS.AUTH_FAIL
  ⟨0x010, 0x0, 0, 1, 5, 1, .w1c, 0, none, false, false⟩,  -- EVT_STATUS.DOUBLE_LOSS
  ⟨0x100, 0x0, 0, 1, 0, 5, .rwf, 12, some (8, 16, 8), false, true⟩,  -- CXK_CFG.MIN_LANES
  ⟨0x100, 0x0, 0, 1, 8, 1, .rw, 1, none, true, false⟩,  -- CXK_CFG.SPARE_EN
  ⟨0x104, 0x0, 0, 1, 0, 24, .rw, 100000, some (1, 16777215, 1), true, false⟩,  -- SPARE_THRESH
  ⟨0x800, 0x0, 0, 1, 0, 2, .ro, 0, none, false, false⟩,  -- LINK.STATE
  ⟨0x800, 0x0, 0, 1, 8, 5, .ro, 0, none, false, false⟩,  -- LINK.LANES
  ⟨0x804, 0x0, 0, 1, 0, 18, .ro, 0, none, false, false⟩,  -- LANES_ACTIVE
  ⟨0x808, 0x0, 0, 1, 0, 18, .ro, 0, none, false, false⟩,  -- LANES_FAILED
  ⟨0x80C, 0x0, 0, 1, 0, 16, .ro, 0, none, false, false⟩,  -- DELAY.NS
  ⟨0x810, 0x0, 0, 1, 0, 32, .ro, 0, none, false, false⟩,  -- KEY_EPOCH
  ⟨0x814, 0x0, 0, 1, 0, 10, .ro, 0, none, false, false⟩,  -- REPLAY_USE
  ⟨0xC00, 0x0, 0, 1, 0, 48, .rl, 0, none, false, false⟩,  -- ENV_TX
  ⟨0xC08, 0x0, 0, 1, 0, 48, .rl, 0, none, false, false⟩,  -- ENV_RX
  ⟨0xC10, 0x0, 0, 1, 0, 48, .rl, 0, none, false, false⟩,  -- FEC_CORRECTED
  ⟨0xC18, 0x0, 0, 1, 0, 48, .rl, 0, none, false, false⟩,  -- FEC_UNCORRECTED
  ⟨0xC20, 0x0, 0, 1, 0, 48, .rl, 0, none, false, false⟩,  -- AUTH_FAILS
  ⟨0xC28, 0x0, 0, 1, 0, 48, .rl, 0, none, false, false⟩,  -- REPLAYS
  ⟨0xC30, 0x0, 0, 1, 0, 48, .rl, 0, none, false, false⟩,  -- DOUBLE_LOSSES
  ⟨0xC38, 0x0, 0, 1, 0, 48, .rl, 0, none, false, false⟩,  -- LINK_DOWNS
  ⟨0xC40, 0x0, 0, 1, 0, 48, .rl, 0, none, false, false⟩,  -- LANE_SPARES
  ⟨0xC48, 0x0, 0, 1, 0, 48, .rl, 0, none, false, false⟩,  -- REKEYS
  ⟨0xC50, 0x8, 0, 10, 0, 48, .rl, 0, none, false, false⟩]  -- BYTES_CLASS_c

/-- The register table of R230. -/
def rowsCXLANE : List RegField := [
  ⟨0x800, 0x4, 0, 18, 0, 1, .ro, 0, none, false, false⟩,  -- LANE_l.LOCK
  ⟨0x800, 0x4, 0, 18, 1, 1, .ro, 0, none, false, false⟩,  -- LANE_l.IN_USE
  ⟨0x800, 0x4, 0, 18, 2, 1, .ro, 0, none, false, false⟩,  -- LANE_l.RETIRED
  ⟨0x800, 0x4, 0, 18, 8, 8, .ro, 0, none, false, false⟩,  -- LANE_l.MARGIN
  ⟨0xC00, 0x8, 0, 18, 0, 48, .rl, 0, none, false, false⟩,  -- SYM_CORR_l
  ⟨0xC90, 0x8, 0, 18, 0, 48, .rl, 0, none, false, false⟩]  -- LOCK_LOSS_l

/-- The register table of R257. -/
def rowsDIR : List RegField := [
  ⟨0x010, 0x0, 0, 1, 0, 1, .w1c, 0, none, false, false⟩,  -- EVT_STATUS.OVERFLOW_EVICT
  ⟨0x010, 0x0, 0, 1, 1, 1, .w1c, 0, none, false, false⟩,  -- EVT_STATUS.ENTRY_REBUILT
  ⟨0x100, 0x0, 0, 1, 0, 17, .rwf, 0, none, false, true⟩,  -- DIR_CFG.SALT
  ⟨0x100, 0x0, 0, 1, 20, 4, .rwf, 8, none, false, true⟩,  -- DIR_CFG.AGE_SHIFT
  ⟨0x800, 0x0, 0, 1, 0, 22, .ro, 0, none, false, false⟩,  -- ENTRIES_USED
  ⟨0x804, 0x0, 0, 1, 0, 7, .ro, 0, none, false, false⟩,  -- VICTIMS_PENDING
  ⟨0x808, 0x0, 0, 1, 0, 23, .ro, 0, none, false, false⟩,  -- SHADOW_USED
  ⟨0x80C, 0x0, 0, 1, 0, 22, .ro, 0, none, false, false⟩,  -- MIGRATE_LEFT
  ⟨0xC00, 0x0, 0, 1, 0, 48, .rl, 0, none, false, false⟩,  -- ALLOCS
  ⟨0xC08, 0x0, 0, 1, 0, 48, .rl, 0, none, false, false⟩,  -- FREES
  ⟨0xC10, 0x0, 0, 1, 0, 48, .rl, 0, none, false, false⟩,  -- VICTIMS
  ⟨0xC18, 0x0, 0, 1, 0, 48, .rl, 0, none, false, false⟩,  -- VICTIM_WAITS
  ⟨0xC20, 0x0, 0, 1, 0, 48, .rl, 0, none, false, false⟩]  -- ENTRY_REBUILDS

/-- The register table of R258. -/
def rowsCOM : List RegField := [
  ⟨0x010, 0x0, 0, 1, 0, 1, .w1c, 0, none, false, false⟩,  -- EVT_STATUS.ARBITER_MOVED
  ⟨0x010, 0x0, 0, 1, 1, 1, .w1c, 0, none, false, false⟩,  -- EVT_STATUS.HEADSET_REJECTED
  ⟨0x100, 0x8, 0, 64, 0, 24, .rw, 0, none, true, true⟩,  -- COMMONS_d.HEADS
  ⟨0x104, 0x8, 0, 64, 0, 1, .rw, 0, none, true, true⟩,  -- COMMONS_d.ARBITER
  ⟨0x104, 0x8, 0, 64, 1, 1, .rw, 1, none, true, true⟩,  -- COMMONS_d.GRANT_E
  ⟨0x800, 0x4, 0, 64, 0, 22, .ro, 0, none, false, false⟩,  -- ARB_d.ENTRIES
  ⟨0x800, 0x4, 0, 64, 31, 1, .ro, 0, none, false, false⟩,  -- ARB_d.IS_ARBITER
  ⟨0xC00, 0x8, 0, 64, 0, 48, .rl, 0, none, false, false⟩,  -- ACCESSES_d
  ⟨0xE00, 0x8, 0, 64, 0, 48, .rl, 0, none, false, false⟩]  -- CONTENDED_d

/-- The register table of R259. -/
def rowsSNP : List RegField := [
  ⟨0x010, 0x0, 0, 1, 0, 1, .w1c, 0, none, false, false⟩,  -- EVT_STATUS.SNOOP_TIMEOUT
  ⟨0x100, 0x0, 0, 1, 0, 8, .rw, 100, some (20, 140, 20), true, true⟩,  -- SNOOP_CFG.TIMEOUT_US
  ⟨0x800, 0x4, 0, 24, 0, 13, .ro, 0, none, false, false⟩,  -- SNOOPS_OUT_h
  ⟨0x860, 0x0, 0, 1, 0, 13, .ro, 0, none, false, false⟩,  -- SNOOPS_OUT_TOTAL
  ⟨0xC00, 0x0, 0, 1, 0, 48, .rl, 0, none, false, false⟩,  -- BISNP_CUR
  ⟨0xC08, 0x0, 0, 1, 0, 48, .rl, 0, none, false, false⟩,  -- BISNP_DATA
  ⟨0xC10, 0x0, 0, 1, 0, 48, .rl, 0, none, false, false⟩,  -- BISNP_INV
  ⟨0xC18, 0x0, 0, 1, 0, 48, .rl, 0, none, false, false⟩,  -- BIRSP_RX
  ⟨0xC20, 0x0, 0, 1, 0, 48, .rl, 0, none, false, false⟩,  -- CONFLICTS
  ⟨0xC28, 0x0, 0, 1, 0, 48, .rl, 0, none, false, false⟩,  -- WRITEBACKS
  ⟨0xC30, 0x0, 0, 1, 0, 48, .rl, 0, none, false, false⟩,  -- SNOOP_TIMEOUTS
  ⟨0xC38, 0x0, 0, 1, 0, 48, .rl, 0, none, false, false⟩]  -- SNOOP_NS_MAX

/-- The register table of R260. -/
def rowsORD : List RegField := [
  ⟨0x010, 0x0, 0, 1, 0, 1, .w1c, 0, none, false, false⟩,  -- EVT_STATUS.ORDER_TAKEOVER
  ⟨0x800, 0x0, 0, 1, 0, 13, .ro, 0, none, false, false⟩,  -- UNSETTLED
  ⟨0x804, 0x0, 0, 1, 0, 13, .ro, 0, none, false, false⟩,  -- AWAIT_ORDER
  ⟨0x808, 0x0, 0, 1, 0, 16, .ro, 0, none, false, false⟩,  -- ORDER_AGE.NS
  ⟨0xC00, 0x0, 0, 1, 0, 48, .rl, 0, none, false, false⟩,  -- ACCESS_RECORDS
  ⟨0xC08, 0x0, 0, 1, 0, 48, .rl, 0, none, false, false⟩,  -- SWEEP_RECORDS
  ⟨0xC10, 0x0, 0, 1, 0, 48, .rl, 0, none, false, false⟩,  -- VICTIM_RECORDS
  ⟨0xC18, 0x0, 0, 1, 0, 48, .rl, 0, none, false, false⟩,  -- RESPONSES_HELD
  ⟨0xC20, 0x0, 0, 1, 0, 48, .rl, 0, none, false, false⟩,  -- ORDER_WAIT_NS_MAX
  ⟨0xC28, 0x0, 0, 1, 0, 48, .rl, 0, none, false, false⟩]  -- ORDERED_AT_TAKEOVER

/-- The register table of R304. -/
def rowsTIER : List RegField := [
  ⟨0x010, 0x0, 0, 1, 0, 1, .w1c, 0, none, false, false⟩,  -- EVT_STATUS.EVICT_DEFERRED
  ⟨0x010, 0x0, 0, 1, 1, 1, .w1c, 0, none, false, false⟩,  -- EVT_STATUS.POOL_LOW
  ⟨0x010, 0x0, 0, 1, 2, 1, .w1c, 0, none, false, false⟩,  -- EVT_STATUS.NO_VICTIM
  ⟨0x010, 0x0, 0, 1, 3, 1, .w1c, 0, none, false, false⟩,  -- EVT_STATUS.FILL_DONE
  ⟨0x100, 0x0, 0, 1, 0, 1, .rwf, 0, none, false, true⟩,  -- TRM_CFG.KEEPER
  ⟨0x104, 0x0, 0, 1, 0, 8, .rw, 8, some (1, 255, 1), true, true⟩,  -- AUTO_CFG.HITS
  ⟨0x104, 0x0, 0, 1, 8, 4, .rwf, 8, none, false, true⟩,  -- AUTO_CFG.AGE_SHIFT
  ⟨0x108, 0x0, 0, 1, 0, 7, .rw, 32, some (1, 64, 1), true, false⟩,  -- MIG_CFG.SLOTS
  ⟨0x108, 0x0, 0, 1, 8, 8, .rw, 12, some (1, 64, 1), true, false⟩,  -- MIG_CFG.STEPS
  ⟨0x10C, 0x0, 0, 1, 0, 8, .rw, 100, some (1, 200, 1), true, false⟩,  -- MIG_RATE.PROMOTE_GBPS
  ⟨0x10C, 0x0, 0, 1, 8, 8, .rw, 24, some (1, 30, 1), true, false⟩,  -- MIG_RATE.EVICT_GBPS
  ⟨0x110, 0x0, 0, 1, 0, 8, .rw, 4, some (1, 50, 1), true, true⟩,  -- POOL_CFG.LOW_PCT
  ⟨0x110, 0x0, 0, 1, 8, 8, .rw, 8, some (0, 60, 0), true, true⟩,  -- POOL_CFG.HIGH_PCT
  ⟨0x114, 0x0, 0, 1, 0, 10, .rw, 200, some (50, 400, 50), true, false⟩,  -- FILL_CFG.RATE_GBPS
  ⟨0x800, 0x0, 0, 1, 0, 21, .ro, 0, none, false, false⟩,  -- CAPACITY.HOST_256M
  ⟨0x804, 0x0, 0, 1, 0, 23, .ro, 0, none, false, false⟩,  -- POOL_FRAMES
  ⟨0x808, 0x0, 0, 1, 0, 23, .ro, 0, none, false, false⟩,  -- POOL_FREE
  ⟨0x80C, 0x0, 0, 1, 0, 22, .ro, 0, none, false, false⟩,  -- FILL.RANGES_LEFT
  ⟨0x810, 0x0, 0, 1, 0, 7, .ro, 0, none, false, false⟩,  -- MIG_ACTIVE
  ⟨0x814, 0x0, 0, 1, 0, 24, .ro, 0, none, false, false⟩,  -- MIG_QUEUED
  ⟨0x818, 0x0, 0, 1, 0, 1, .ro, 0, none, false, false⟩,  -- IS_KEEPER
  ⟨0xC00, 0x0, 0, 1, 0, 48, .rl, 0, none, false, false⟩,  -- PROMOTIONS
  ⟨0xC08, 0x0, 0, 1, 0, 48, .rl, 0, none, false, false⟩,  -- EVICTIONS
  ⟨0xC10, 0x0, 0, 1, 0, 48, .rl, 0, none, false, false⟩,  -- EVICTIONS_CLEAN
  ⟨0xC18, 0x0, 0, 1, 0, 48, .rl, 0, none, false, false⟩,  -- CLEANED_PARCELS
  ⟨0xC20, 0x0, 0, 1, 0, 48, .rl, 0, none, false, false⟩,  -- ZERO_READS
  ⟨0xC28, 0x0, 0, 1, 0, 48, .rl, 0, none, false, false⟩,  -- FILL_WAITS
  ⟨0xC30, 0x0, 0, 1, 0, 48, .rl, 0, none, false, false⟩,  -- EVICT_DEFERRED
  ⟨0xC38, 0x0, 0, 1, 0, 48, .rl, 0, none, false, false⟩,  -- DEFERRED_EVICTED
  ⟨0xC40, 0x0, 0, 1, 0, 48, .rl, 0, none, false, false⟩,  -- DEFERRED_KEPT
  ⟨0xC48, 0x0, 0, 1, 0, 48, .rl, 0, none, false, false⟩,  -- NO_VICTIM_ROUNDS
  ⟨0xC50, 0x0, 0, 1, 0, 48, .rl, 0, none, false, false⟩]  -- PROMOTE_NS_MAX

/-- The register table of R305. -/
def rowsDOM : List RegField := [
  ⟨0x010, 0x0, 0, 1, 0, 1, .w1c, 0, none, false, false⟩,  -- EVT_STATUS.DOMAIN_CHANGED
  ⟨0x100, 0x10, 0, 64, 0, 20, .rw, 0, none, true, true⟩,  -- DOMAIN_d.BASE_256M
  ⟨0x100, 0x10, 0, 64, 31, 1, .rw, 0, none, true, true⟩,  -- DOMAIN_d.VALID
  ⟨0x104, 0x10, 0, 64, 0, 21, .rw, 0, none, true, true⟩,  -- DOMAIN_d.SIZE_256M
  ⟨0x108, 0x10, 0, 64, 0, 1, .rw, 0, none, true, true⟩,  -- DOMAIN_d.KIND
  ⟨0x108, 0x10, 0, 64, 1, 1, .rw, 0, none, true, true⟩,  -- DOMAIN_d.FRONT_PINNED
  ⟨0x108, 0x10, 0, 64, 2, 2, .rw, 2, none, true, true⟩,  -- DOMAIN_d.DEFAULT_POLICY
  ⟨0x108, 0x10, 0, 64, 8, 5, .rw, 0, none, true, true⟩,  -- DOMAIN_d.OWNER
  ⟨0x10C, 0x10, 0, 64, 0, 16, .rw, 0, none, true, true⟩,  -- DOMAIN_d.MIN_GIB
  ⟨0x10C, 0x10, 0, 64, 16, 16, .rw, 0, none, true, true⟩,  -- DOMAIN_d.CAP_GIB
  ⟨0x800, 0x0, 0, 1, 0, 32, .ro, 0, none, false, false⟩,  -- VALID_LO
  ⟨0x804, 0x0, 0, 1, 0, 32, .ro, 0, none, false, false⟩]  -- VALID_HI

/-- The register table of R306. -/
def rowsPOOL : List RegField := [
  ⟨0x010, 0x0, 0, 1, 0, 1, .w1c, 0, none, false, false⟩,  -- EVT_STATUS.OVER_CAP
  ⟨0x800, 0x8, 0, 64, 0, 23, .ro, 0, none, false, false⟩,  -- USE_d.FRAMES
  ⟨0x804, 0x8, 0, 64, 0, 23, .ro, 0, none, false, false⟩,  -- USE_d.PINNED
  ⟨0x804, 0x8, 0, 64, 31, 1, .ro, 0, none, false, false⟩,  -- USE_d.OVER_CAP
  ⟨0xC00, 0x8, 0, 64, 0, 48, .rl, 0, none, false, false⟩,  -- PROMOTIONS_d
  ⟨0xE00, 0x8, 0, 64, 0, 48, .rl, 0, none, false, false⟩]  -- EVICTIONS_d

/-- The register table of R307. -/
def rowsPCH : List RegField := [
  ⟨0x010, 0x0, 0, 1, 0, 1, .w1c, 0, none, false, false⟩,  -- EVT_STATUS.PATCH_LOW
  ⟨0x010, 0x0, 0, 1, 1, 1, .w1c, 0, none, false, false⟩,  -- EVT_STATUS.PATCH_FULL
  ⟨0x100, 0x0, 0, 1, 0, 4, .rwf, 6, some (0, 9, 15), false, true⟩,  -- PCACHE_CFG.LOG2_GIB
  ⟨0x100, 0x0, 0, 1, 8, 1, .rw, 1, none, true, false⟩,  -- PCACHE_CFG.FILL_EN
  ⟨0x104, 0x0, 0, 1, 0, 20, .rwf, 0, none, false, false⟩,  -- PCACHE_SALT
  ⟨0x108, 0x0, 0, 1, 0, 10, .rwf, 16, some (1, 512, 1), false, true⟩,  -- PATCH_CFG.GIB
  ⟨0x108, 0x0, 0, 1, 16, 7, .rw, 10, some (1, 50, 1), true, false⟩,  -- PATCH_CFG.LOW_PCT
  ⟨0x800, 0x0, 0, 1, 0, 24, .ro, 0, none, false, false⟩,  -- PCACHE_VALID
  ⟨0x804, 0x0, 0, 1, 0, 28, .ro, 0, none, false, false⟩,  -- PATCH_FREE
  ⟨0x808, 0x0, 0, 1, 0, 32, .ro, 0, none, false, false⟩,  -- PATCH_LINES_HELD_LO
  ⟨0x80C, 0x0, 0, 1, 0, 2, .ro, 0, none, false, false⟩,  -- PATCH_LINES_HELD_HI
  ⟨0xC00, 0x0, 0, 1, 0, 48, .rl, 0, none, false, false⟩,  -- PCACHE_HITS
  ⟨0xC08, 0x0, 0, 1, 0, 48, .rl, 0, none, false, false⟩,  -- PCACHE_MISSES
  ⟨0xC10, 0x0, 0, 1, 0, 48, .rl, 0, none, false, false⟩,  -- PCACHE_FILLS
  ⟨0xC18, 0x0, 0, 1, 0, 48, .rl, 0, none, false, false⟩,  -- PCACHE_DISCARDED
  ⟨0xC20, 0x0, 0, 1, 0, 48, .rl, 0, none, false, false⟩,  -- PCACHE_INVALIDATED
  ⟨0xC28, 0x0, 0, 1, 0, 48, .rl, 0, none, false, false⟩,  -- PATCH_LINES
  ⟨0xC30, 0x0, 0, 1, 0, 48, .rl, 0, none, false, false⟩,  -- PATCH_WAITS
  ⟨0xC38, 0x0, 0, 1, 0, 48, .rl, 0, none, false, false⟩]  -- PATCH_MERGED

/-- The register table of R308. -/
def rowsMDC : List RegField := [
  ⟨0x010, 0x0, 0, 1, 0, 1, .w1c, 0, none, false, false⟩,  -- EVT_STATUS.WAY_DISABLED
  ⟨0x010, 0x0, 0, 1, 1, 1, .w1c, 0, none, false, false⟩,  -- EVT_STATUS.NO_SPARE_WAY
  ⟨0x010, 0x0, 0, 1, 2, 1, .w1c, 0, none, false, false⟩,  -- EVT_STATUS.LOCKED_LINE_DROPPED
  ⟨0x010, 0x0, 0, 1, 3, 1, .w1c, 0, none, false, false⟩,  -- EVT_STATUS.EVB_FULL
  ⟨0x100, 0x0, 0, 1, 0, 14, .rwf, 0, none, false, false⟩,  -- MDC_CFG.SALT
  ⟨0x100, 0x0, 0, 1, 16, 8, .rw, 64, none, true, false⟩,  -- MDC_CFG.WAY_CE_LIMIT
  ⟨0x100, 0x0, 0, 1, 24, 4, .rwf, 4, some (0, 8, 0), false, false⟩,  -- MDC_CFG.LOCK_MAX
  ⟨0x800, 0x0, 0, 1, 0, 18, .ro, 65535, none, false, false⟩,  -- WAYS_ENABLED
  ⟨0x804, 0x0, 0, 1, 0, 18, .ro, 0, none, false, false⟩,  -- WAYS_DISABLED
  ⟨0x808, 0x0, 0, 1, 0, 7, .ro, 0, none, false, false⟩,  -- EVB_USE
  ⟨0x80C, 0x0, 0, 1, 0, 19, .ro, 0, none, false, false⟩,  -- LOCKED_LINES
  ⟨0x810, 0x0, 0, 1, 0, 32, .ro, 0, none, false, false⟩,  -- LAST_DROPPED_LO
  ⟨0x814, 0x0, 0, 1, 0, 4, .ro, 0, none, false, false⟩,  -- LAST_DROPPED_HI
  ⟨0x880, 0x4, 0, 18, 0, 16, .ro, 0, none, false, false⟩,  -- WAY_CE_w
  ⟨0xC00, 0x0, 0, 1, 0, 48, .rl, 0, none, false, false⟩,  -- HITS
  ⟨0xC08, 0x0, 0, 1, 0, 48, .rl, 0, none, false, false⟩,  -- MISSES
  ⟨0xC10, 0x0, 0, 1, 0, 48, .rl, 0, none, false, false⟩,  -- EVB_HITS
  ⟨0xC18, 0x0, 0, 1, 0, 48, .rl, 0, none, false, false⟩,  -- WRITEBACKS
  ⟨0xC20, 0x0, 0, 1, 0, 48, .rl, 0, none, false, false⟩,  -- FILL_DISCARDS
  ⟨0xC28, 0x0, 0, 1, 0, 48, .rl, 0, none, false, false⟩,  -- LOCKED_DROPS
  ⟨0xC30, 0x0, 0, 1, 0, 48, .rl, 0, none, false, false⟩,  -- WAY_DISABLES
  ⟨0xC38, 0x0, 0, 1, 0, 48, .rl, 0, none, false, false⟩,  -- CORRECTED
  ⟨0xC40, 0x0, 0, 1, 0, 48, .rl, 0, none, false, false⟩,  -- TC_MISSES
  ⟨0xC48, 0x0, 0, 1, 0, 48, .rl, 0, none, false, false⟩]  -- TC_BLOCK_NS_MAX

/-- The register table of R309. -/
def rowsMNT : List RegField := [
  ⟨0x010, 0x0, 0, 1, 0, 1, .w1c, 0, none, false, false⟩,  -- EVT_STATUS.OP_DONE
  ⟨0x100, 0x0, 0, 1, 0, 3, .rw, 0, some (0, 4, 0), true, false⟩,  -- OP.KIND
  ⟨0x100, 0x0, 0, 1, 4, 1, .rw, 0, none, true, false⟩,  -- OP.MODE
  ⟨0x104, 0x0, 0, 1, 8, 24, .rw, 0, none, true, false⟩,  -- OP_ADDR_LO
  ⟨0x108, 0x0, 0, 1, 0, 4, .rw, 0, none, true, false⟩,  -- OP_ADDR_HI
  ⟨0x10C, 0x0, 0, 1, 0, 28, .rw, 1, some (1, 268435455, 1), true, false⟩,  -- OP_COUNT
  ⟨0x110, 0x0, 0, 1, 0, 14, .rw, 0, none, true, false⟩,  -- OP_SETWAY.SET
  ⟨0x110, 0x0, 0, 1, 16, 5, .rw, 0, some (0, 17, 0), true, false⟩,  -- OP_SETWAY.WAY
  ⟨0x114, 0x0, 0, 1, 0, 1, .w1s, 0, none, false, false⟩,  -- OP_GO
  ⟨0x800, 0x0, 0, 1, 0, 2, .ro, 0, none, false, false⟩,  -- OP_STATUS.STATE
  ⟨0x800, 0x0, 0, 1, 8, 8, .ro, 0, none, false, false⟩,  -- OP_STATUS.ERR
  ⟨0x804, 0x0, 0, 1, 0, 28, .ro, 0, none, false, false⟩,  -- OP_PROGRESS
  ⟨0xC00, 0x0, 0, 1, 0, 48, .rl, 0, none, false, false⟩,  -- OPS_DONE
  ⟨0xC08, 0x0, 0, 1, 0, 48, .rl, 0, none, false, false⟩,  -- LINES_CLEANED
  ⟨0xC10, 0x0, 0, 1, 0, 48, .rl, 0, none, false, false⟩,  -- LINES_INVALIDATED
  ⟨0xC18, 0x0, 0, 1, 0, 48, .rl, 0, none, false, false⟩,  -- LOCKS
  ⟨0xC20, 0x0, 0, 1, 0, 48, .rl, 0, none, false, false⟩]  -- UNLOCKS

/-- The register table of R334. -/
def rowsRTE : List RegField := [
  ⟨0x010, 0x0, 0, 1, 0, 1, .w1c, 0, none, false, false⟩,  -- EVT_STATUS.SLIP
  ⟨0x010, 0x0, 0, 1, 1, 1, .w1c, 0, none, false, false⟩,  -- EVT_STATUS.WINDOW_SHORT
  ⟨0x010, 0x0, 0, 1, 2, 1, .w1c, 0, none, false, false⟩,  -- EVT_STATUS.WINDOW_BLOCKED
  ⟨0x010, 0x0, 0, 1, 3, 1, .w1c, 0, none, false, false⟩,  -- EVT_STATUS.BAD_ENTRY
  ⟨0x010, 0x0, 0, 1, 4, 1, .w1c, 0, none, false, false⟩,  -- EVT_STATUS.ROUTE_END
  ⟨0x100, 0x0, 0, 1, 0, 19, .rwf, 131072, some (1, 262144, 1), false, true⟩,  -- RTE_CFG.HOLD_MAX_EXT
  ⟨0x800, 0x0, 0, 1, 0, 9, .ro, 0, none, false, false⟩,  -- ROUTES.LOADED
  ⟨0x800, 0x0, 0, 1, 16, 9, .ro, 0, none, false, false⟩,  -- ROUTES.ACTIVE
  ⟨0x804, 0x0, 0, 1, 0, 19, .ro, 0, none, false, false⟩,  -- HELD_EXTENTS
  ⟨0x808, 0x0, 0, 1, 0, 8, .ro, 0, none, false, false⟩,  -- LAST_SLIP.ROUTE
  ⟨0x808, 0x0, 0, 1, 16, 16, .ro, 0, none, false, false⟩,  -- LAST_SLIP.ENTRY
  ⟨0x80C, 0x0, 0, 1, 0, 32, .ro, 0, none, false, false⟩,  -- LAST_SLIP.LATE_US
  ⟨0x810, 0x0, 0, 1, 0, 32, .ro, 0, none, false, false⟩,  -- LAST_SLIP.ROUND_LO
  ⟨0x814, 0x0, 0, 1, 0, 9, .ro, 0, none, false, false⟩,  -- SLIPS_OPEN
  ⟨0x814, 0x0, 0, 1, 16, 1, .ro, 0, none, false, false⟩,  -- IS_ACTING
  ⟨0xC00, 0x0, 0, 1, 0, 48, .rl, 0, none, false, false⟩,  -- ENTRIES_PASSED
  ⟨0xC08, 0x0, 0, 1, 0, 48, .rl, 0, none, false, false⟩,  -- REANCHORS
  ⟨0xC10, 0x0, 0, 1, 0, 48, .rl, 0, none, false, false⟩,  -- SEEKS
  ⟨0xC18, 0x0, 0, 1, 0, 48, .rl, 0, none, false, false⟩,  -- SLIPS
  ⟨0xC20, 0x0, 0, 1, 0, 48, .rl, 0, none, false, false⟩,  -- SLIP_ACCESSES
  ⟨0xC28, 0x0, 0, 1, 0, 48, .rl, 0, none, false, false⟩,  -- SLIPS_UNARRIVED
  ⟨0xC30, 0x0, 0, 1, 0, 48, .rl, 0, none, false, false⟩,  -- SLIP_LATE_US_SUM
  ⟨0xC38, 0x0, 0, 1, 0, 48, .rl, 0, none, false, false⟩,  -- SLIP_LATE_US_MAX
  ⟨0xC40, 0x0, 0, 1, 0, 48, .rl, 0, none, false, false⟩,  -- HOLDS
  ⟨0xC48, 0x0, 0, 1, 0, 48, .rl, 0, none, false, false⟩,  -- RELEASES
  ⟨0xC50, 0x0, 0, 1, 0, 48, .rl, 0, none, false, false⟩,  -- ROUTE_PROMOTIONS
  ⟨0xC58, 0x0, 0, 1, 0, 48, .rl, 0, none, false, false⟩,  -- DROP_EVICTIONS
  ⟨0xC60, 0x0, 0, 1, 0, 48, .rl, 0, none, false, false⟩,  -- WINDOW_SHORT_ROUNDS
  ⟨0xC68, 0x0, 0, 1, 0, 48, .rl, 0, none, false, false⟩,  -- WINDOW_BLOCKED_ROUNDS
  ⟨0xC70, 0x0, 0, 1, 0, 48, .rl, 0, none, false, false⟩,  -- BAD_ENTRIES
  ⟨0xC78, 0x0, 0, 1, 0, 48, .rl, 0, none, false, false⟩,  -- LIST_BLOCKS_READ
  ⟨0xC80, 0x0, 0, 1, 0, 48, .rl, 0, none, false, false⟩]  -- WINDOW_EVICTED

/-- The register table of R335. -/
def rowsRTS : List RegField := [
  ⟨0x010, 0x0, 0, 1, 0, 1, .w1c, 0, none, false, false⟩,  -- EVT_STATUS.STATE_CHANGE
  ⟨0x800, 0x4, 0, 256, 0, 16, .ro, 0, none, false, false⟩,  -- ROUTE_r.POS
  ⟨0x800, 0x4, 0, 256, 16, 2, .ro, 0, none, false, false⟩,  -- ROUTE_r.STATE
  ⟨0x800, 0x4, 0, 256, 18, 1, .ro, 0, none, false, false⟩,  -- ROUTE_r.SLIP_OPEN
  ⟨0x800, 0x4, 0, 256, 19, 1, .ro, 0, none, false, false⟩,  -- ROUTE_r.END_REACHED
  ⟨0x800, 0x4, 0, 256, 20, 1, .ro, 0, none, false, false⟩,  -- ROUTE_r.CYCLIC
  ⟨0x800, 0x4, 0, 256, 21, 3, .ro, 0, none, false, false⟩,  -- ROUTE_r.PRIORITY
  ⟨0x800, 0x4, 0, 256, 24, 5, .ro, 0, none, false, false⟩,  -- ROUTE_r.OWNER
  ⟨0xC00, 0x8, 0, 8, 0, 48, .rl, 0, none, false, false⟩,  -- SLIPS_PRIO_p
  ⟨0xC40, 0x8, 0, 8, 0, 48, .rl, 0, none, false, false⟩]  -- LATE_US_MAX_PRIO_p

/-- The register table of R371. -/
def rowsMDE : List RegField := [
  ⟨0x010, 0x0, 0, 1, 0, 1, .w1c, 0, none, false, false⟩,  -- EVT_STATUS.URGENT
  ⟨0x010, 0x0, 0, 1, 1, 1, .w1c, 0, none, false, false⟩,  -- EVT_STATUS.WRITE_STALL
  ⟨0x010, 0x0, 0, 1, 2, 1, .w1c, 0, none, false, false⟩,  -- EVT_STATUS.UNCORRECTABLE
  ⟨0x010, 0x0, 0, 1, 3, 1, .w1c, 0, none, false, false⟩,  -- EVT_STATUS.SILENT_CORRECTED
  ⟨0x100, 0x0, 0, 1, 0, 5, .rw, 4, some (4, 16, 4), true, false⟩,  -- MDE_CFG.BUSY_LIMIT
  ⟨0x100, 0x0, 0, 1, 8, 5, .rw, 8, some (0, 16, 0), true, false⟩,  -- MDE_CFG.BUSY_HIGH
  ⟨0x100, 0x0, 0, 1, 16, 1, .rw, 1, none, true, false⟩,  -- MDE_CFG.HEDGE_EN
  ⟨0x100, 0x0, 0, 1, 20, 2, .rw, 2, some (1, 3, 1), false, false⟩,  -- MDE_CFG.QDEPTH
  ⟨0x100, 0x0, 0, 1, 24, 4, .rw, 8, some (1, 15, 1), false, false⟩,  -- MDE_CFG.SUSPEND_MAX
  ⟨0x104, 0x0, 0, 1, 0, 12, .rwf, 512, some (128, 2048, 128), false, false⟩,  -- MDE_CFG.STAGE_MIB
  ⟨0x800, 0x0, 0, 1, 0, 2, .ro, 0, none, false, false⟩,  -- MODE
  ⟨0x800, 0x0, 0, 1, 8, 1, .ro, 0, none, false, false⟩,  -- BUSY_HIGH_ACTIVE
  ⟨0x804, 0x0, 0, 1, 0, 12, .ro, 0, none, false, false⟩,  -- STAGE_USED_MIB
  ⟨0x808, 0x0, 0, 1, 0, 16, .ro, 0, none, false, false⟩,  -- DIRECT_INFLIGHT
  ⟨0xC00, 0x0, 0, 1, 0, 48, .rl, 0, none, false, false⟩,  -- DIRECT_READS
  ⟨0xC08, 0x0, 0, 1, 0, 48, .rl, 0, none, false, false⟩,  -- DIRECT_NS_MAX
  ⟨0xC10, 0x0, 0, 1, 0, 48, .rl, 0, none, false, false⟩,  -- FULL_READS
  ⟨0xC18, 0x0, 0, 1, 0, 48, .rl, 0, none, false, false⟩,  -- HEDGED_COLUMNS
  ⟨0xC20, 0x0, 0, 1, 0, 48, .rl, 0, none, false, false⟩,  -- UNCORRECTABLE
  ⟨0xC28, 0x0, 0, 1, 0, 48, .rl, 0, none, false, false⟩,  -- SILENT_CORRECTED
  ⟨0xC30, 0x0, 0, 1, 0, 48, .rl, 0, none, false, false⟩,  -- WRITE_STALL_ROUNDS
  ⟨0xC38, 0x0, 0, 1, 0, 48, .rl, 0, none, false, false⟩,  -- PAYLOAD_READ
  ⟨0xC40, 0x0, 0, 1, 0, 48, .rl, 0, none, false, false⟩,  -- PAYLOAD_WRITTEN
  ⟨0xC48, 0x0, 0, 1, 0, 48, .rl, 0, none, false, false⟩]  -- SUSPENDS_OVER_CAP

/-- The register table of R372. -/
def rowsLAST : List RegField := [
  ⟨0x010, 0x0, 0, 1, 0, 1, .w1c, 0, none, false, false⟩,  -- EVT_STATUS.ROW_DEGRADED
  ⟨0x100, 0x0, 0, 1, 0, 6, .rwf, 30, some (10, 50, 10), false, false⟩,  -- LAST_CFG.OP_PCT
  ⟨0x100, 0x0, 0, 1, 8, 4, .rwf, 3, some (1, 10, 1), false, false⟩,  -- LAST_CFG.SPARE_PCT
  ⟨0x100, 0x0, 0, 1, 16, 1, .rwf, 0, none, false, false⟩,  -- LAST_CFG.FORCE_24
  ⟨0x104, 0x0, 0, 1, 0, 11, .rwf, 256, some (64, 1024, 64), false, false⟩,  -- LAST_CFG.META_GIB
  ⟨0x800, 0x0, 0, 1, 0, 21, .ro, 0, none, false, false⟩,  -- ROWS_TOTAL
  ⟨0x804, 0x0, 0, 1, 0, 21, .ro, 0, none, false, false⟩,  -- ROWS_FREE
  ⟨0x808, 0x0, 0, 1, 0, 7, .ro, 0, none, false, false⟩,  -- FREE_PCT
  ⟨0x80C, 0x0, 0, 1, 0, 21, .ro, 0, none, false, false⟩,  -- ROWS_DEGRADED
  ⟨0x810, 0x0, 0, 1, 0, 5, .ro, 0, none, false, false⟩,  -- GEOM.CB
  ⟨0x810, 0x0, 0, 1, 8, 6, .ro, 0, none, false, false⟩,  -- GEOM.POSITIONS
  ⟨0xC00, 0x0, 0, 1, 0, 48, .rl, 0, none, false, false⟩,  -- ROWS_OPENED_28
  ⟨0xC08, 0x0, 0, 1, 0, 48, .rl, 0, none, false, false⟩,  -- ROWS_OPENED_24
  ⟨0xC10, 0x0, 0, 1, 0, 48, .rl, 0, none, false, false⟩]  -- ROWS_ERASED

/-- The register table of R373. -/
def rowsPACK : List RegField := [
  ⟨0x100, 0x0, 0, 1, 0, 8, .rw, 248, some (128, 255, 128), true, false⟩,  -- PACK_CFG.MAX_UNITS
  ⟨0x100, 0x0, 0, 1, 8, 1, .rw, 1, none, true, false⟩,  -- PACK_CFG.EN
  ⟨0x800, 0x0, 0, 1, 0, 32, .ro, 0, none, false, false⟩,  -- RESIDENT_PARCELS_LO
  ⟨0x804, 0x0, 0, 1, 0, 1, .ro, 0, none, false, false⟩,  -- RESIDENT_PARCELS_HI
  ⟨0x808, 0x0, 0, 1, 0, 32, .ro, 0, none, false, false⟩,  -- RESIDENT_UNITS_LO
  ⟨0x80C, 0x0, 0, 1, 0, 9, .ro, 0, none, false, false⟩,  -- RESIDENT_UNITS_HI
  ⟨0xC00, 0x8, 0, 64, 0, 48, .rl, 0, none, false, false⟩,  -- IN_BYTES_d
  ⟨0xE00, 0x8, 0, 64, 0, 48, .rl, 0, none, false, false⟩]  -- OUT_BYTES_d

/-- The register table of R374. -/
def rowsDEC : List RegField := [
  ⟨0x100, 0x0, 0, 1, 0, 1, .rw, 1, none, true, false⟩,  -- THRESH_CFG.EN
  ⟨0x100, 0x0, 0, 1, 8, 4, .rw, 1, some (1, 15, 1), true, false⟩,  -- THRESH_CFG.STEP
  ⟨0x100, 0x0, 0, 1, 16, 8, .rw, 40, some (1, 127, 1), true, false⟩,  -- THRESH_CFG.OFFSET_MAX
  ⟨0x104, 0x0, 0, 1, 0, 16, .rw, 256, some (16, 65535, 16), true, false⟩,  -- THRESH_CFG.MIN_SAMPLES
  ⟨0x104, 0x0, 0, 1, 16, 8, .rwf, 24, some (1, 255, 1), false, false⟩,  -- THRESH_CFG.GROUP_HOURS
  ⟨0x108, 0x0, 0, 1, 0, 1, .rw, 1, none, true, false⟩,  -- SOFT_CFG.EN
  ⟨0x108, 0x0, 0, 1, 8, 5, .rw, 16, some (0, 16, 0), true, false⟩,  -- SOFT_CFG.RETRY_MAX
  ⟨0x108, 0x0, 0, 1, 16, 8, .rw, 4, some (1, 255, 1), true, false⟩,  -- SOFT_CFG.UE_RETIRE
  ⟨0xC00, 0x0, 0, 1, 0, 48, .rl, 0, none, false, false⟩,  -- CW_DECODED
  ⟨0xC08, 0x0, 0, 1, 0, 48, .rl, 0, none, false, false⟩,  -- CW_HARD_FAIL
  ⟨0xC10, 0x0, 0, 1, 0, 48, .rl, 0, none, false, false⟩,  -- SOFT_DECODES
  ⟨0xC18, 0x0, 0, 1, 0, 48, .rl, 0, none, false, false⟩,  -- RETRIES
  ⟨0xC20, 0x0, 0, 1, 0, 48, .rl, 0, none, false, false⟩,  -- CW_UNCORRECTABLE
  ⟨0xC28, 0x0, 0, 1, 0, 48, .rl, 0, none, false, false⟩,  -- BITS_CORRECTED
  ⟨0xC30, 0x0, 0, 1, 0, 48, .rl, 0, none, false, false⟩,  -- ERASURE_DECODES
  ⟨0xC38, 0x0, 0, 1, 0, 48, .rl, 0, none, false, false⟩,  -- OFFSET_UPDATES
  ⟨0xC40, 0x0, 0, 1, 0, 48, .rl, 0, none, false, false⟩]  -- CRC_FAILS

/-- The register table of R375. -/
def rowsBKG : List RegField := [
  ⟨0x010, 0x0, 0, 1, 0, 1, .w1c, 0, none, false, false⟩,  -- EVT_STATUS.GC_URGENT
  ⟨0x100, 0x0, 0, 1, 0, 6, .rw, 2, some (1, 20, 1), true, false⟩,  -- GC_CFG.CRIT_PCT
  ⟨0x100, 0x0, 0, 1, 8, 6, .rw, 6, some (0, 30, 0), true, false⟩,  -- GC_CFG.LOW_PCT
  ⟨0x100, 0x0, 0, 1, 16, 6, .rw, 10, some (0, 40, 0), true, false⟩,  -- GC_CFG.HIGH_PCT
  ⟨0x104, 0x0, 0, 1, 0, 7, .rw, 5, some (0, 50, 0), true, false⟩,  -- SHARE.GC_MIN_PCT
  ⟨0x104, 0x0, 0, 1, 8, 7, .rw, 60, some (0, 90, 0), true, false⟩,  -- SHARE.GC_MAX_PCT
  ⟨0x104, 0x0, 0, 1, 16, 7, .rw, 5, some (1, 30, 1), true, false⟩,  -- SHARE.RESOLE_PCT
  ⟨0x104, 0x0, 0, 1, 24, 7, .rw, 50, some (10, 100, 10), true, false⟩,  -- SHARE.REBUILD_PCT
  ⟨0x108, 0x0, 0, 1, 0, 10, .rw, 90, some (7, 730, 7), true, false⟩,  -- RESOLE_CFG.AGE_DAYS
  ⟨0x108, 0x0, 0, 1, 16, 7, .rw, 60, some (10, 95, 10), true, false⟩,  -- RESOLE_CFG.BITS_PCT
  ⟨0x10C, 0x0, 0, 1, 0, 8, .rw, 14, some (1, 255, 1), true, false⟩,  -- SCRUB_CFG.PASS_DAYS
  ⟨0x10C, 0x0, 0, 1, 16, 16, .rw, 200, some (10, 65535, 10), true, false⟩,  -- WL_DELTA
  ⟨0x800, 0x0, 0, 1, 0, 7, .ro, 0, none, false, false⟩,  -- GC_SHARE_NOW
  ⟨0x804, 0x0, 0, 1, 0, 21, .ro, 0, none, false, false⟩,  -- RESOLE_QUEUED
  ⟨0x808, 0x0, 0, 1, 0, 21, .ro, 0, none, false, false⟩,  -- SCRUB_POS
  ⟨0xC00, 0x0, 0, 1, 0, 48, .rl, 0, none, false, false⟩,  -- GC_ROWS
  ⟨0xC08, 0x0, 0, 1, 0, 48, .rl, 0, none, false, false⟩,  -- GC_PARCELS
  ⟨0xC10, 0x0, 0, 1, 0, 48, .rl, 0, none, false, false⟩,  -- RESOLE_ROWS
  ⟨0xC18, 0x0, 0, 1, 0, 48, .rl, 0, none, false, false⟩,  -- RESOLE_PARCELS
  ⟨0xC20, 0x0, 0, 1, 0, 48, .rl, 0, none, false, false⟩,  -- SCRUB_ROWS
  ⟨0xC28, 0x0, 0, 1, 0, 48, .rl, 0, none, false, false⟩,  -- WL_MOVES
  ⟨0xC30, 0x0, 0, 1, 0, 48, .rl, 0, none, false, false⟩,  -- RELOC_ABANDONED
  ⟨0xC38, 0x0, 0, 1, 0, 48, .rl, 0, none, false, false⟩]  -- MERGES

/-- The register table of R376. -/
def rowsWEAR : List RegField := [
  ⟨0x800, 0x0, 0, 1, 0, 16, .ro, 0, none, false, false⟩,  -- PE_RATED_TLC
  ⟨0x804, 0x0, 0, 1, 0, 20, .ro, 0, none, false, false⟩,  -- PE_RATED_SLC
  ⟨0x808, 0x0, 0, 1, 0, 20, .ro, 0, none, false, false⟩,  -- ERASE_MEAN
  ⟨0x80C, 0x0, 0, 1, 0, 20, .ro, 0, none, false, false⟩,  -- ERASE_MAX
  ⟨0x810, 0x0, 0, 1, 0, 16, .ro, 0, none, false, false⟩,  -- WAF_X100
  ⟨0x814, 0x0, 0, 1, 0, 32, .ro, 0, none, false, false⟩,  -- BUDGET_GB_DAY
  ⟨0xC00, 0x0, 0, 1, 0, 48, .rl, 0, none, false, false⟩,  -- HOST_DERIVED_BYTES
  ⟨0xC08, 0x0, 0, 1, 0, 48, .rl, 0, none, false, false⟩,  -- MEDIA_DATA_BYTES
  ⟨0xC10, 0x0, 0, 1, 0, 48, .rl, 0, none, false, false⟩,  -- ERASES
  ⟨0xC18, 0x0, 0, 1, 0, 48, .rl, 0, none, false, false⟩,  -- BLOCKS_RETIRED
  ⟨0xC20, 0x0, 0, 1, 0, 48, .rl, 0, none, false, false⟩,  -- PROGRAM_FAILS
  ⟨0xC28, 0x0, 0, 1, 0, 48, .rl, 0, none, false, false⟩]  -- ERASE_FAILS

/-- The register table of R377. -/
def rowsMOD : List RegField := [
  ⟨0x010, 0x0, 0, 1, 0, 1, .w1c, 0, none, false, false⟩,  -- EVT_STATUS.MODULE_STATE
  ⟨0x010, 0x0, 0, 1, 1, 1, .w1c, 0, none, false, false⟩,  -- EVT_STATUS.REBUILD_DONE
  ⟨0x010, 0x0, 0, 1, 2, 1, .w1c, 0, none, false, false⟩,  -- EVT_STATUS.MODULE_LOST
  ⟨0x100, 0x4, 0, 8, 0, 1, .w1s, 0, none, false, false⟩,  -- MODULE_m.OFFLINE_REQ
  ⟨0x100, 0x4, 0, 8, 1, 1, .w1s, 0, none, false, false⟩,  -- MODULE_m.ONLINE_REQ
  ⟨0x100, 0x4, 0, 8, 2, 1, .rw, 0, none, true, false⟩,  -- MODULE_m.OFFLINE_FORCE
  ⟨0x800, 0x4, 0, 8, 0, 3, .ro, 0, none, false, false⟩,  -- MODULE_m.STATE
  ⟨0x800, 0x4, 0, 8, 8, 1, .ro, 0, none, false, false⟩,  -- MODULE_m.PRESENT
  ⟨0x840, 0x0, 0, 1, 0, 21, .ro, 0, none, false, false⟩,  -- REBUILD_ROWS_LEFT
  ⟨0xC00, 0x0, 0, 1, 0, 48, .rl, 0, none, false, false⟩,  -- REBUILT_ROWS
  ⟨0xC08, 0x0, 0, 1, 0, 48, .rl, 0, none, false, false⟩,  -- REBUILD_RELOCATED
  ⟨0xC10, 0x0, 0, 1, 0, 48, .rl, 0, none, false, false⟩]  -- REBUILD_FROM_TWIN

/-- The register table of R378. -/
def rowsPROF : List RegField := [
  ⟨0x100, 0x0, 0, 1, 0, 12, .rwf, 3600, some (800, 3600, 800), false, false⟩,  -- IF_CFG.RATE_MTS
  ⟨0x800, 0x0, 0, 1, 0, 16, .ro, 0, none, false, false⟩,  -- PROFILE_ID
  ⟨0x804, 0x0, 0, 1, 0, 13, .ro, 0, none, false, false⟩,  -- PAGES_PER_BLOCK
  ⟨0x808, 0x0, 0, 1, 0, 16, .ro, 0, none, false, false⟩,  -- BLOCKS_PER_LUN
  ⟨0x80C, 0x0, 0, 1, 0, 3, .ro, 0, none, false, false⟩,  -- PLANES
  ⟨0x810, 0x0, 0, 1, 0, 16, .ro, 0, none, false, false⟩,  -- TR_US_MAX
  ⟨0x814, 0x0, 0, 1, 0, 16, .ro, 0, none, false, false⟩]  -- TPROG_US_MAX

/-- The register table of R379. -/
def rowsCHN : List RegField := [
  ⟨0x010, 0x0, 0, 1, 0, 1, .w1c, 0, none, false, false⟩,  -- EVT_STATUS.LUN_RETIRED
  ⟨0x010, 0x0, 0, 1, 1, 1, .w1c, 0, none, false, false⟩,  -- EVT_STATUS.CHANNEL_FAILED
  ⟨0x100, 0x0, 0, 1, 0, 32, .rw, 0, none, true, false⟩,  -- CHAN_CFG.LUN_OFF
  ⟨0x800, 0x0, 0, 1, 0, 2, .ro, 0, none, false, false⟩,  -- CHAN.STATE
  ⟨0x804, 0x0, 0, 1, 0, 32, .ro, 0, none, false, false⟩,  -- LUN_LIVE
  ⟨0x808, 0x0, 0, 1, 0, 32, .ro, 0, none, false, false⟩,  -- LUN_BUSY
  ⟨0x80C, 0x0, 0, 1, 0, 8, .ro, 0, none, false, false⟩,  -- TRAIN.RD_EYE
  ⟨0x80C, 0x0, 0, 1, 8, 8, .ro, 0, none, false, false⟩,  -- TRAIN.WR_EYE
  ⟨0x810, 0x0, 0, 1, 0, 7, .ro, 0, none, false, false⟩,  -- BUS_UTIL_PCT
  ⟨0xC00, 0x0, 0, 1, 0, 48, .rl, 0, none, false, false⟩,  -- READS
  ⟨0xC08, 0x0, 0, 1, 0, 48, .rl, 0, none, false, false⟩,  -- PROGRAMS
  ⟨0xC10, 0x0, 0, 1, 0, 48, .rl, 0, none, false, false⟩,  -- ERASES
  ⟨0xC18, 0x0, 0, 1, 0, 48, .rl, 0, none, false, false⟩,  -- SUSPENDS
  ⟨0xC20, 0x0, 0, 1, 0, 48, .rl, 0, none, false, false⟩,  -- CW_HARD_FAILS
  ⟨0xC28, 0x0, 0, 1, 0, 48, .rl, 0, none, false, false⟩,  -- BITS_CORRECTED
  ⟨0xC30, 0x0, 0, 1, 0, 48, .rl, 0, none, false, false⟩,  -- TIMEOUTS
  ⟨0xC38, 0x0, 0, 1, 0, 48, .rl, 0, none, false, false⟩]  -- BUS_BYTES

/-- The register table of R408. -/
def rowsGOV : List RegField := [
  ⟨0x010, 0x0, 0, 1, 0, 1, .w1c, 0, none, false, false⟩,  -- EVT_STATUS.THROTTLE
  ⟨0x010, 0x0, 0, 1, 1, 1, .w1c, 0, none, false, false⟩,  -- EVT_STATUS.OVER_BUDGET
  ⟨0x010, 0x0, 0, 1, 2, 1, .w1c, 0, none, false, false⟩,  -- EVT_STATUS.HOLDUP_DROP
  ⟨0x010, 0x0, 0, 1, 3, 1, .w1c, 0, none, false, false⟩,  -- EVT_STATUS.HOLDUP_CHANGE
  ⟨0x010, 0x0, 0, 1, 4, 1, .w1c, 0, none, false, false⟩,  -- EVT_STATUS.RATE_DROP
  ⟨0x010, 0x0, 0, 1, 5, 1, .w1c, 0, none, false, false⟩,  -- EVT_STATUS.INSOLE_LIMIT
  ⟨0x100, 0x0, 0, 1, 0, 9, .rwf, 32, some (1, 511, 1), false, false⟩,  -- BUDGET_CFG.CAP_GIB
  ⟨0x100, 0x0, 0, 1, 16, 7, .rwf, 10, some (5, 50, 5), false, false⟩,  -- BUDGET_CFG.MARGIN_PCT
  ⟨0x104, 0x0, 0, 1, 0, 20, .rwf, 40000, some (2000, 500000, 2000), false, false⟩,  -- FIXED_US
  ⟨0x108, 0x0, 0, 1, 0, 11, .rwf, 1000, some (0, 2000, 0), false, false⟩,  -- GRACE_US
  ⟨0x10C, 0x0, 0, 1, 0, 16, .rw, 250, some (1, 65535, 1), true, false⟩,  -- HOLDUP_CFG.RISE_ROUNDS
  ⟨0x110, 0x4, 0, 8, 0, 20, .rwf, 0, some (0, 1000000, 0), false, false⟩,  -- HOLDUP_MAP_n.US
  ⟨0x130, 0x0, 0, 1, 0, 7, .rw, 25, some (5, 90, 5), true, false⟩,  -- CLEAN_CFG.LOW_PCT
  ⟨0x130, 0x0, 0, 1, 8, 7, .rw, 75, some (0, 95, 0), true, false⟩,  -- CLEAN_CFG.HIGH_PCT
  ⟨0x130, 0x0, 0, 1, 16, 7, .rw, 90, some (0, 99, 0), true, false⟩,  -- CLEAN_CFG.THROTTLE_PCT
  ⟨0x800, 0x0, 0, 1, 0, 19, .ro, 0, none, false, false⟩,  -- BUDGET_MIB
  ⟨0x804, 0x0, 0, 1, 0, 32, .ro, 0, none, false, false⟩,  -- UNSAVED_LO
  ⟨0x808, 0x0, 0, 1, 0, 8, .ro, 0, none, false, false⟩,  -- UNSAVED_HI
  ⟨0x80C, 0x0, 0, 1, 0, 3, .ro, 0, none, false, false⟩,  -- GOV.STATE
  ⟨0x80C, 0x0, 0, 1, 8, 3, .ro, 0, none, false, false⟩,  -- GOV.HOLDUP_PINS
  ⟨0x80C, 0x0, 0, 1, 12, 3, .ro, 0, none, false, false⟩,  -- GOV.HOLDUP_APPLIED
  ⟨0x810, 0x0, 0, 1, 0, 18, .ro, 0, none, false, false⟩,  -- SAVE_RATE_MBPS
  ⟨0x814, 0x0, 0, 1, 0, 18, .ro, 0, none, false, false⟩,  -- RATE_BUS_CAL_MBPS
  ⟨0x818, 0x0, 0, 1, 0, 16, .ro, 0, none, false, false⟩,  -- TPROG_SLC_MAX_US
  ⟨0x81C, 0x0, 0, 1, 0, 11, .ro, 0, none, false, false⟩,  -- LUNS_LIVE
  ⟨0x820, 0x0, 0, 1, 0, 20, .ro, 0, none, false, false⟩,  -- INSOLE_READY_MIB
  ⟨0x824, 0x0, 0, 1, 0, 20, .ro, 0, none, false, false⟩,  -- FIXED_MEAS_US
  ⟨0x828, 0x0, 0, 1, 0, 19, .ro, 0, none, false, false⟩,  -- PEER_HEADROOM_MIB
  ⟨0x830, 0x0, 0, 1, 0, 24, .ro, 0, none, false, false⟩,  -- PART.WMB_MIB
  ⟨0x834, 0x0, 0, 1, 0, 24, .ro, 0, none, false, false⟩,  -- PART.STAGE_MIB
  ⟨0x838, 0x0, 0, 1, 0, 24, .ro, 0, none, false, false⟩,  -- PART.PATCH_MIB
  ⟨0x83C, 0x0, 0, 1, 0, 24, .ro, 0, none, false, false⟩,  -- PART.FRAME_MIB
  ⟨0x840, 0x0, 0, 1, 0, 24, .ro, 0, none, false, false⟩,  -- PART.META_MIB
  ⟨0xC00, 0x0, 0, 1, 0, 48, .rl, 0, none, false, false⟩,  -- BUDGET_MIN_MIB
  ⟨0xC08, 0x0, 0, 1, 0, 48, .rl, 0, none, false, false⟩,  -- UNSAVED_MAX_MIB
  ⟨0xC10, 0x0, 0, 1, 0, 48, .rl, 0, none, false, false⟩,  -- CLEANING_ROUNDS
  ⟨0xC18, 0x0, 0, 1, 0, 48, .rl, 0, none, false, false⟩,  -- THROTTLE_ROUNDS
  ⟨0xC20, 0x0, 0, 1, 0, 48, .rl, 0, none, false, false⟩,  -- OVER_ROUNDS
  ⟨0xC28, 0x0, 0, 1, 0, 48, .rl, 0, none, false, false⟩,  -- DRAIN_HOLDS
  ⟨0xC30, 0x0, 0, 1, 0, 48, .rl, 0, none, false, false⟩] ++ [  -- CLEAN_QUEUED
  ⟨0xC38, 0x0, 0, 1, 0, 48, .rl, 0, none, false, false⟩,  -- PROBES
  ⟨0xC40, 0x0, 0, 1, 0, 48, .rl, 0, none, false, false⟩,  -- PROBE_TPROG_MAX_US
  ⟨0xC48, 0x0, 0, 1, 0, 48, .rl, 0, none, false, false⟩]  -- HOLDUP_CHANGES

/-- The register table of R409. -/
def rowsSAV : List RegField := [
  ⟨0x010, 0x0, 0, 1, 0, 1, .w1c, 0, none, false, false⟩,  -- EVT_STATUS.PFAIL
  ⟨0x010, 0x0, 0, 1, 1, 1, .w1c, 0, none, false, false⟩,  -- EVT_STATUS.PFAIL_GLITCH
  ⟨0x010, 0x0, 0, 1, 2, 1, .w1c, 0, none, false, false⟩,  -- EVT_STATUS.LONE_PFAIL
  ⟨0x010, 0x0, 0, 1, 3, 1, .w1c, 0, none, false, false⟩,  -- EVT_STATUS.SAVE_FAILED
  ⟨0x010, 0x0, 0, 1, 4, 1, .w1c, 0, none, false, false⟩,  -- EVT_STATUS.RESTORE_DONE
  ⟨0x010, 0x0, 0, 1, 5, 1, .w1c, 0, none, false, false⟩,  -- EVT_STATUS.DIRTY_SHUTDOWN
  ⟨0x100, 0x0, 0, 1, 0, 1, .rw, 1, none, true, true⟩,  -- RESTORE_CFG.REFILL_ALL
  ⟨0x104, 0x0, 0, 1, 0, 12, .rwf, 1024, some (64, 4095, 64), false, false⟩,  -- CAL_CFG.MIB
  ⟨0x800, 0x0, 0, 1, 0, 3, .ro, 0, none, false, false⟩,  -- SVC.STATE
  ⟨0x800, 0x0, 0, 1, 8, 2, .ro, 0, none, false, false⟩,  -- SVC.SOURCE
  ⟨0x800, 0x0, 0, 1, 12, 2, .ro, 0, none, false, false⟩,  -- SVC.SEAL_KIND
  ⟨0x800, 0x0, 0, 1, 14, 1, .ro, 0, none, false, false⟩,  -- SVC.SEAL_DAMAGED
  ⟨0x804, 0x0, 0, 1, 0, 32, .ro, 0, none, false, false⟩,  -- DIRTY_SHUTDOWN_COUNT
  ⟨0x808, 0x0, 0, 1, 0, 24, .ro, 0, none, false, false⟩,  -- LAST_SAVE.MIB
  ⟨0x80C, 0x0, 0, 1, 0, 24, .ro, 0, none, false, false⟩,  -- LAST_SAVE.US
  ⟨0x810, 0x0, 0, 1, 0, 18, .ro, 0, none, false, false⟩,  -- LAST_SAVE.RATE_MBPS
  ⟨0x814, 0x0, 0, 1, 0, 20, .ro, 0, none, false, false⟩,  -- LAST_RESTORE.MS
  ⟨0x818, 0x0, 0, 1, 0, 28, .ro, 0, none, false, false⟩,  -- LAST_RESTORE.LOST_EXTENTS
  ⟨0xC00, 0x0, 0, 1, 0, 48, .rl, 0, none, false, false⟩,  -- PFAILS
  ⟨0xC08, 0x0, 0, 1, 0, 48, .rl, 0, none, false, false⟩,  -- GLITCHES
  ⟨0xC10, 0x0, 0, 1, 0, 48, .rl, 0, none, false, false⟩,  -- RISK_COMMITS
  ⟨0xC18, 0x0, 0, 1, 0, 48, .rl, 0, none, false, false⟩]  -- RISK_EXTENTS_MAX

/-- The register table of R438. -/
def rowsDCH : List RegField := [
  ⟨0x010, 0x0, 0, 1, 0, 1, .w1c, 0, none, false, false⟩,  -- EVT_STATUS.CORRECTED
  ⟨0x010, 0x0, 0, 1, 1, 1, .w1c, 0, none, false, false⟩,  -- EVT_STATUS.UNCORRECTABLE
  ⟨0x010, 0x0, 0, 1, 2, 1, .w1c, 0, none, false, false⟩,  -- EVT_STATUS.TEMP_HIGH
  ⟨0x100, 0x0, 0, 1, 0, 2, .rwf, 0, none, false, false⟩,  -- CH_CFG.MAP
  ⟨0x100, 0x0, 0, 1, 4, 1, .rw, 0, none, true, false⟩,  -- CH_CFG.PAGE_POLICY
  ⟨0x100, 0x0, 0, 1, 8, 3, .rwf, 5, some (0, 5, 0), false, false⟩,  -- CH_CFG.RATE
  ⟨0x104, 0x0, 0, 1, 0, 1, .rw, 1, none, true, false⟩,  -- CH_CFG2.CE_WRITEBACK
  ⟨0x140, 0x4, 0, 16, 0, 5, .rw, 0, some (0, 19, 0), true, false⟩,  -- DEV_ERASE_r.DEV
  ⟨0x140, 0x4, 0, 16, 7, 1, .rw, 0, none, true, false⟩,  -- DEV_ERASE_r.VALID
  ⟨0x800, 0x0, 0, 1, 0, 2, .ro, 0, none, false, false⟩,  -- DIMM.COUNT
  ⟨0x800, 0x0, 0, 1, 4, 4, .ro, 0, none, false, false⟩,  -- DIMM.RANKS
  ⟨0x800, 0x0, 0, 1, 8, 2, .ro, 0, none, false, false⟩,  -- DIMM.DENSITY
  ⟨0x800, 0x0, 0, 1, 16, 9, .ro, 0, none, false, false⟩,  -- DIMM.GIB
  ⟨0x804, 0x0, 0, 1, 0, 2, .ro, 0, none, false, false⟩,  -- CH.PWR
  ⟨0x804, 0x0, 0, 1, 16, 16, .ro, 0, none, false, false⟩,  -- CH.REF_2X
  ⟨0x808, 0x0, 0, 1, 0, 16, .ro, 0, none, false, false⟩,  -- TRAIN_FAIL_RANKS
  ⟨0x880, 0x4, 0, 20, 0, 16, .ro, 0, none, false, false⟩,  -- DEV_CE_d
  ⟨0xC00, 0x0, 0, 1, 0, 48, .rl, 0, none, false, false⟩,  -- PAIR_READS
  ⟨0xC08, 0x0, 0, 1, 0, 48, .rl, 0, none, false, false⟩,  -- PAIR_WRITES
  ⟨0xC10, 0x0, 0, 1, 0, 48, .rl, 0, none, false, false⟩,  -- PAIR_MERGES
  ⟨0xC18, 0x0, 0, 1, 0, 48, .rl, 0, none, false, false⟩,  -- ROW_HITS
  ⟨0xC20, 0x0, 0, 1, 0, 48, .rl, 0, none, false, false⟩,  -- ROW_CONFLICTS
  ⟨0xC28, 0x0, 0, 1, 0, 48, .rl, 0, none, false, false⟩,  -- AUTO_PRECHARGES
  ⟨0xC30, 0x0, 0, 1, 0, 48, .rl, 0, none, false, false⟩,  -- CE
  ⟨0xC38, 0x0, 0, 1, 0, 48, .rl, 0, none, false, false⟩,  -- UE
  ⟨0xC40, 0x0, 0, 1, 0, 48, .rl, 0, none, false, false⟩,  -- ERASURE_CORRECTIONS
  ⟨0xC48, 0x0, 0, 1, 0, 48, .rl, 0, none, false, false⟩,  -- CE_WRITEBACKS
  ⟨0xC50, 0x0, 0, 1, 0, 48, .rl, 0, none, false, false⟩]  -- QUEUE_NS_MAX

/-- The register table of R439. -/
def rowsDRF : List RegField := [
  ⟨0x010, 0x0, 0, 1, 0, 1, .w1c, 0, none, false, false⟩,  -- EVT_STATUS.REFAB_FALLBACK
  ⟨0x010, 0x0, 0, 1, 1, 1, .w1c, 0, none, false, false⟩,  -- EVT_STATUS.SR_ENTERED
  ⟨0x010, 0x0, 0, 1, 2, 1, .w1c, 0, none, false, false⟩,  -- EVT_STATUS.SR_ABANDONED
  ⟨0x010, 0x0, 0, 1, 3, 1, .w1c, 0, none, false, false⟩,  -- EVT_STATUS.PPR_DONE
  ⟨0x010, 0x0, 0, 1, 4, 1, .w1c, 0, none, false, false⟩,  -- EVT_STATUS.PPR_FAILED
  ⟨0x100, 0x0, 0, 1, 0, 3, .rw, 3, some (1, 4, 1), true, false⟩,  -- REF_CFG.POSTPONE
  ⟨0x100, 0x0, 0, 1, 4, 3, .rw, 2, some (0, 4, 0), true, false⟩,  -- REF_CFG.PULLIN
  ⟨0x100, 0x0, 0, 1, 8, 8, .rw, 40, some (8, 255, 8), true, false⟩,  -- REF_CFG.IDLE_NS
  ⟨0x104, 0x0, 0, 1, 0, 16, .rw, 0, none, true, false⟩,  -- SR_CFG.IDLE_US
  ⟨0x110, 0x0, 0, 1, 0, 4, .rw, 0, none, false, false⟩,  -- PPR_REQ.RANK
  ⟨0x110, 0x0, 0, 1, 4, 3, .rw, 0, none, false, false⟩,  -- PPR_REQ.BG
  ⟨0x110, 0x0, 0, 1, 8, 2, .rw, 0, none, false, false⟩,  -- PPR_REQ.BA
  ⟨0x110, 0x0, 0, 1, 12, 1, .rw, 0, none, false, false⟩,  -- PPR_REQ.KIND
  ⟨0x110, 0x0, 0, 1, 31, 1, .w1s, 0, none, false, false⟩,  -- PPR_REQ.GO
  ⟨0x114, 0x0, 0, 1, 0, 18, .rw, 0, none, false, false⟩,  -- PPR_ROW
  ⟨0x800, 0x4, 0, 16, 0, 16, .ro, 0, none, false, false⟩,  -- REF_DEBT_r
  ⟨0x840, 0x0, 0, 1, 0, 2, .ro, 0, none, false, false⟩,  -- PPR_STATUS.STATE
  ⟨0x840, 0x0, 0, 1, 8, 8, .ro, 0, none, false, false⟩,  -- PPR_STATUS.ERR
  ⟨0xC00, 0x0, 0, 1, 0, 48, .rl, 0, none, false, false⟩,  -- REFSB_ISSUED
  ⟨0xC08, 0x0, 0, 1, 0, 48, .rl, 0, none, false, false⟩,  -- REFAB_ISSUED
  ⟨0xC10, 0x0, 0, 1, 0, 48, .rl, 0, none, false, false⟩,  -- REFAB_FALLBACKS
  ⟨0xC18, 0x0, 0, 1, 0, 48, .rl, 0, none, false, false⟩,  -- RFM_ISSUED
  ⟨0xC20, 0x0, 0, 1, 0, 48, .rl, 0, none, false, false⟩,  -- REF_WAIT_NS_MAX
  ⟨0xC28, 0x0, 0, 1, 0, 48, .rl, 0, none, false, false⟩,  -- SR_ENTRIES
  ⟨0xC30, 0x0, 0, 1, 0, 48, .rl, 0, none, false, false⟩,  -- SR_ABANDONS
  ⟨0xC38, 0x0, 0, 1, 0, 48, .rl, 0, none, false, false⟩,  -- SR_WAKE_NS_MAX
  ⟨0xC40, 0x0, 0, 1, 0, 48, .rl, 0, none, false, false⟩,  -- SR_US
  ⟨0xC48, 0x0, 0, 1, 0, 48, .rl, 0, none, false, false⟩,  -- PPR_SOFT
  ⟨0xC50, 0x0, 0, 1, 0, 48, .rl, 0, none, false, false⟩,  -- PPR_HARD
  ⟨0xC58, 0x0, 0, 1, 0, 48, .rl, 0, none, false, false⟩]  -- OUT_OF_SERVICE_NS

/-- The register table of R440. -/
def rowsDTR : List RegField := [
  ⟨0x010, 0x0, 0, 1, 0, 1, .w1c, 0, none, false, false⟩,  -- EVT_STATUS.TRAIN_FAIL
  ⟨0x010, 0x0, 0, 1, 1, 1, .w1c, 0, none, false, false⟩,  -- EVT_STATUS.RETRAIN
  ⟨0x100, 0x0, 0, 1, 0, 16, .rw, 1000, some (100, 65535, 100), true, false⟩,  -- DRIFT_CFG.PERIOD_US
  ⟨0x100, 0x0, 0, 1, 16, 8, .rw, 4, some (1, 255, 1), true, false⟩,  -- DRIFT_CFG.THRESH_PS
  ⟨0x100, 0x0, 0, 1, 24, 1, .rw, 1, none, true, false⟩,  -- DRIFT_CFG.DFE_EN
  ⟨0x104, 0x0, 0, 1, 0, 8, .rw, 6, some (1, 255, 1), true, false⟩,  -- RETRAIN_CFG.MARGIN_MIN
  ⟨0x104, 0x0, 0, 1, 8, 1, .rw, 1, none, true, false⟩,  -- RETRAIN_CFG.EN
  ⟨0x800, 0x4, 0, 16, 0, 3, .ro, 0, none, false, false⟩,  -- TRAIN_r.RESULT
  ⟨0x800, 0x4, 0, 16, 4, 4, .ro, 0, none, false, false⟩,  -- TRAIN_r.STEP
  ⟨0x800, 0x4, 0, 16, 8, 8, .ro, 0, none, false, false⟩,  -- TRAIN_r.RD_EYE
  ⟨0x800, 0x4, 0, 16, 16, 8, .ro, 0, none, false, false⟩,  -- TRAIN_r.WR_EYE
  ⟨0x840, 0x4, 0, 16, 0, 16, .ro, 0, none, false, false⟩,  -- DRIFT_r.PS
  ⟨0xC00, 0x0, 0, 1, 0, 48, .rl, 0, none, false, false⟩,  -- OSC_RUNS
  ⟨0xC08, 0x0, 0, 1, 0, 48, .rl, 0, none, false, false⟩,  -- DRIFT_STEPS
  ⟨0xC10, 0x0, 0, 1, 0, 48, .rl, 0, none, false, false⟩,  -- DRIFT_PS_MAX
  ⟨0xC18, 0x0, 0, 1, 0, 48, .rl, 0, none, false, false⟩,  -- DFE_UPDATES
  ⟨0xC20, 0x0, 0, 1, 0, 48, .rl, 0, none, false, false⟩,  -- ZQ_CALS
  ⟨0xC28, 0x0, 0, 1, 0, 48, .rl, 0, none, false, false⟩]  -- RETRAINS

/-- The register table of R441. -/
def rowsDRG : List RegField := [
  ⟨0x010, 0x0, 0, 1, 0, 1, .w1c, 0, none, false, false⟩,  -- EVT_STATUS.CLIENT_WAIT
  ⟨0x100, 0x4, 0, 8, 0, 13, .rw, 0, some (0, 4400, 0), true, false⟩,  -- REG_k.RATE
  ⟨0x100, 0x4, 0, 8, 16, 8, .rw, 25, some (1, 250, 1), true, false⟩,  -- REG_k.DEPTH
  ⟨0x100, 0x4, 0, 8, 24, 1, .rw, 0, none, true, false⟩,  -- REG_k.BORROW
  ⟨0x140, 0x0, 0, 1, 0, 16, .rw, 2000, some (100, 65535, 100), true, false⟩,  -- ARB_CFG.AGE_CAP_NS
  ⟨0x800, 0x4, 0, 8, 0, 21, .ro, 0, none, false, false⟩,  -- TOKENS_k
  ⟨0xC00, 0x8, 0, 8, 0, 48, .rl, 0, none, false, false⟩,  -- LINES_k
  ⟨0xC40, 0x8, 0, 8, 0, 48, .rl, 0, none, false, false⟩,  -- WAITS_k
  ⟨0xC80, 0x8, 0, 8, 0, 48, .rl, 0, none, false, false⟩]  -- BORROWED_k

/-- The register table of R468. -/
def rowsRAS : List RegField := [
  ⟨0x010, 0x0, 0, 1, 0, 1, .w1c, 0, none, false, false⟩,  -- EVT_STATUS.MAP_LINE_LOST
  ⟨0x010, 0x0, 0, 1, 1, 1, .w1c, 0, none, false, false⟩,  -- EVT_STATUS.SELFTEST_FAIL
  ⟨0x800, 0x0, 0, 1, 0, 16, .ro, 0, none, false, false⟩,  -- LEAKED_FRAMES
  ⟨0xC00, 0x0, 0, 1, 0, 48, .rl, 0, none, false, false⟩,  -- PEER_ACCESS_FAIL
  ⟨0xC08, 0x0, 0, 1, 0, 48, .rl, 0, none, false, false⟩,  -- BAD_ACCESS
  ⟨0xC10, 0x0, 0, 1, 0, 48, .rl, 0, none, false, false⟩,  -- MAP_LINES_LOST
  ⟨0xC18, 0x0, 0, 1, 0, 48, .rl, 0, none, false, false⟩,  -- REGION_REBUILDS
  ⟨0xC20, 0x0, 0, 1, 0, 48, .rl, 0, none, false, false⟩,  -- TC_PARITY
  ⟨0xC28, 0x0, 0, 1, 0, 48, .rl, 0, none, false, false⟩,  -- SRAM_UE
  ⟨0xC30, 0x0, 0, 1, 0, 48, .rl, 0, none, false, false⟩]  -- CA_PARITY

/-- The register table of R469. -/
def rowsPAT : List RegField := [
  ⟨0x010, 0x0, 0, 1, 0, 1, .w1c, 0, none, false, false⟩,  -- EVT_STATUS.PATROL_LATE
  ⟨0x010, 0x0, 0, 1, 1, 1, .w1c, 0, none, false, false⟩,  -- EVT_STATUS.PASS_DONE
  ⟨0x100, 0x0, 0, 1, 0, 14, .rw, 24, some (1, 8760, 1), true, false⟩,  -- PATROL_CFG.PASS_HOURS
  ⟨0x100, 0x0, 0, 1, 16, 1, .rw, 1, none, true, false⟩,  -- PATROL_CFG.EN
  ⟨0x800, 0x0, 0, 1, 0, 32, .ro, 0, none, false, false⟩,  -- PATROL_ADDR_LO
  ⟨0x804, 0x0, 0, 1, 0, 12, .ro, 0, none, false, false⟩,  -- PATROL_ADDR_HI
  ⟨0x808, 0x0, 0, 1, 0, 32, .ro, 0, none, false, false⟩,  -- PASS_NO
  ⟨0x80C, 0x0, 0, 1, 0, 16, .ro, 0, none, false, false⟩,  -- LAST_PASS_MIN
  ⟨0xC00, 0x0, 0, 1, 0, 48, .rl, 0, none, false, false⟩,  -- PAIRS_READ
  ⟨0xC08, 0x0, 0, 1, 0, 48, .rl, 0, none, false, false⟩,  -- CE_FOUND
  ⟨0xC10, 0x0, 0, 1, 0, 48, .rl, 0, none, false, false⟩,  -- UE_REPAIRED
  ⟨0xC18, 0x0, 0, 1, 0, 48, .rl, 0, none, false, false⟩,  -- UE_POISONED
  ⟨0xC20, 0x0, 0, 1, 0, 48, .rl, 0, none, false, false⟩]  -- SR_WAKES

/-- The register table of R470. -/
def rowsSRS : List RegField := [
  ⟨0x100, 0x0, 0, 1, 0, 16, .rw, 1000, some (100, 60000, 100), true, false⟩,  -- SRAM_CFG.PASS_MS
  ⟨0x100, 0x0, 0, 1, 16, 1, .rw, 1, none, true, false⟩,  -- SRAM_CFG.EN
  ⟨0x800, 0x0, 0, 1, 0, 19, .ro, 0, none, false, false⟩,  -- SRAM_POS
  ⟨0xC00, 0x0, 0, 1, 0, 48, .rl, 0, none, false, false⟩,  -- UNITS_READ
  ⟨0xC08, 0x0, 0, 1, 0, 48, .rl, 0, none, false, false⟩,  -- MDC_CE
  ⟨0xC10, 0x0, 0, 1, 0, 48, .rl, 0, none, false, false⟩,  -- DIR_CE
  ⟨0xC18, 0x0, 0, 1, 0, 48, .rl, 0, none, false, false⟩]  -- SPARE_FAULTS

/-- The register table of R471. -/
def rowsSLF : List RegField := [
  ⟨0x800, 0x0, 0, 1, 0, 7, .ro, 0, none, false, false⟩,  -- SELFTEST.PASS
  ⟨0x800, 0x0, 0, 1, 8, 7, .ro, 0, none, false, false⟩,  -- SELFTEST.FAIL
  ⟨0x804, 0x0, 0, 1, 0, 16, .ro, 0, none, false, false⟩,  -- SELFTEST.FIRST_INST
  ⟨0x808, 0x0, 0, 1, 0, 16, .ro, 0, none, false, false⟩]  -- SELFTEST.US

/-- The register table of R472. -/
def rowsDLO : List RegField := [
  ⟨0x010, 0x0, 0, 1, 0, 1, .w1c, 0, none, false, false⟩,  -- EVT_STATUS.DLO_OVERFLOW
  ⟨0x010, 0x0, 0, 1, 1, 1, .w1c, 0, none, false, false⟩,  -- EVT_STATUS.UNCORRECTED_ENTRY
  ⟨0x100, 0x0, 0, 1, 0, 5, .rwf, 16, some (12, 20, 12), false, false⟩,  -- DLO_CFG.RING_LOG2
  ⟨0x800, 0x0, 0, 1, 0, 32, .ro, 0, none, false, false⟩,  -- NEXT_SEQ
  ⟨0x804, 0x0, 0, 1, 0, 32, .ro, 0, none, false, false⟩,  -- OLDEST_SEQ
  ⟨0x808, 0x0, 0, 1, 0, 9, .ro, 0, none, false, false⟩,  -- BUF_USE
  ⟨0xC00, 0x0, 0, 1, 0, 48, .rl, 0, none, false, false⟩,  -- ENTRIES
  ⟨0xC08, 0x0, 0, 1, 0, 48, .rl, 0, none, false, false⟩,  -- LOST_ENTRIES
  ⟨0xC10, 0x0, 0, 1, 0, 48, .rl, 0, none, false, false⟩,  -- DROPPED
  ⟨0xC18, 0x8, 0, 8, 0, 48, .rl, 0, none, false, false⟩]  -- KIND_k

/-- The register table of R473. -/
def rowsDLR : List RegField := [
  ⟨0x100, 0x0, 0, 1, 0, 32, .rw, 0, none, true, false⟩,  -- READ_SEQ
  ⟨0x800, 0x4, 0, 16, 0, 32, .ro, 0, none, false, false⟩,  -- ENTRY_w
  ⟨0x840, 0x0, 0, 1, 0, 1, .ro, 0, none, false, false⟩]  -- READ_STATUS.HELD

/-- The register table of R474. -/
def rowsCBL : List RegField := [
  ⟨0x010, 0x0, 0, 1, 0, 1, .w1c, 0, none, false, false⟩,  -- EVT_STATUS.SPARE_DRAWN
  ⟨0x010, 0x0, 0, 1, 1, 1, .w1c, 0, none, false, false⟩,  -- EVT_STATUS.SPARES_LOW
  ⟨0x010, 0x0, 0, 1, 2, 1, .w1c, 0, none, false, false⟩,  -- EVT_STATUS.SPARE_EXHAUSTED
  ⟨0x010, 0x0, 0, 1, 3, 1, .w1c, 0, none, false, false⟩,  -- EVT_STATUS.RANK_RETIRE_PENDING
  ⟨0x010, 0x0, 0, 1, 4, 1, .w1c, 0, none, false, false⟩,  -- EVT_STATUS.RANK_RETIRE_BLOCKED
  ⟨0x100, 0x0, 0, 1, 0, 16, .rw, 1000, some (1, 65535, 1), true, false⟩,  -- CBL_CFG.WINDOW
  ⟨0x104, 0x0, 0, 1, 0, 8, .rw, 16, some (2, 255, 2), true, false⟩,  -- CBL_CFG.DEV_ROWS_LIMIT
  ⟨0x104, 0x0, 0, 1, 8, 8, .rw, 4, some (1, 255, 1), true, false⟩,  -- CBL_CFG.ROW_CE_LIMIT
  ⟨0x104, 0x0, 0, 1, 16, 16, .rw, 64, some (1, 65535, 1), true, false⟩,  -- CBL_CFG.BANK_CE_LIMIT
  ⟨0x108, 0x0, 0, 1, 0, 24, .rw, 100000, none, true, false⟩,  -- CBL_CFG.HOST_LANE_LIMIT
  ⟨0x10C, 0x0, 0, 1, 0, 16, .rw, 365, some (30, 9131, 30), true, false⟩,  -- CBL_CFG.WARN_DAYS
  ⟨0x800, 0x0, 0, 1, 0, 32, .ro, 4294967295, none, false, false⟩,  -- EOL_DAYS
  ⟨0x804, 0x0, 0, 1, 0, 8, .ro, 0, none, false, false⟩,  -- EOL_KIND
  ⟨0x804, 0x0, 0, 1, 8, 1, .ro, 1, none, false, false⟩,  -- RATING.TJ_OK
  ⟨0x804, 0x0, 0, 1, 9, 1, .ro, 1, none, false, false⟩,  -- RATING.WRITE_OK
  ⟨0xC00, 0x0, 0, 1, 0, 48, .rl, 0, none, false, false⟩]  -- DRAWS

/-- The register table of R475. -/
def rowsCBN : List RegField := [
  ⟨0x800, 0x0, 0, 1, 0, 24, .ro, 0, none, false, false⟩,  -- SPARE_BLOCKS_LEFT
  ⟨0x804, 0x0, 0, 1, 0, 16, .ro, 0, none, false, false⟩,  -- SPARE_BLOCKS_MIN
  ⟨0x808, 0x0, 0, 1, 0, 11, .ro, 0, none, false, false⟩,  -- LUNS_RETIRED
  ⟨0x80C, 0x0, 0, 1, 0, 6, .ro, 0, none, false, false⟩,  -- POSITIONS_24
  ⟨0x80C, 0x0, 0, 1, 8, 6, .ro, 0, none, false, false⟩,  -- POSITIONS_CLOSED
  ⟨0x810, 0x0, 0, 1, 0, 32, .ro, 4294967295, none, false, false⟩,  -- WEAR_DAYS
  ⟨0x814, 0x0, 0, 1, 0, 32, .ro, 4294967295, none, false, false⟩]  -- INSOLE_DAYS

/-- The register table of R476. -/
def rowsCBD : List RegField := [
  ⟨0x800, 0x4, 0, 16, 0, 16, .ro, 0, none, false, false⟩,  -- ERASED_RANKS_c
  ⟨0x800, 0x4, 0, 16, 16, 16, .ro, 0, none, false, false⟩,  -- RETIRED_RANKS_c
  ⟨0x840, 0x0, 0, 1, 0, 16, .ro, 0, none, false, false⟩,  -- SPPR_ROWS
  ⟨0x844, 0x0, 0, 1, 0, 16, .ro, 0, none, false, false⟩,  -- HPPR_ROWS
  ⟨0x848, 0x0, 0, 1, 0, 23, .ro, 0, none, false, false⟩,  -- FRAMES_RETIRED
  ⟨0x84C, 0x0, 0, 1, 0, 8, .ro, 0, none, false, false⟩]  -- PPR_LEFT_MIN

/-- The register table of R477. -/
def rowsCBO : List RegField := [
  ⟨0x800, 0x0, 0, 1, 0, 2, .ro, 2, none, false, false⟩,  -- MDC_WAYS_LEFT
  ⟨0x800, 0x0, 0, 1, 8, 2, .ro, 1, none, false, false⟩,  -- DIR_BANKS_LEFT
  ⟨0x800, 0x0, 0, 1, 16, 2, .ro, 1, none, false, false⟩,  -- CORES_LEFT
  ⟨0x804, 0x0, 0, 1, 0, 2, .ro, 2, none, false, false⟩,  -- CXK_TX_LANES_LEFT
  ⟨0x804, 0x0, 0, 1, 8, 2, .ro, 2, none, false, false⟩,  -- CXK_RX_LANES_LEFT
  ⟨0x808, 0x0, 0, 1, 0, 6, .ro, 32, none, false, false⟩,  -- EFLASH_SECTORS_LEFT
  ⟨0x810, 0x4, 0, 6, 0, 16, .ro, 0, none, false, false⟩,  -- HOST_LANES_OFF_p
  ⟨0x830, 0x0, 0, 1, 0, 18, .ro, 0, none, false, false⟩]  -- FAILED_SPARES

/-- The register table of R507. -/
def rowsEFC : List RegField := [
  ⟨0x010, 0x0, 0, 1, 0, 1, .w1c, 0, none, false, false⟩,  -- EVT_STATUS.OP_DONE
  ⟨0x010, 0x0, 0, 1, 1, 1, .w1c, 0, none, false, false⟩,  -- EVT_STATUS.OP_FAIL
  ⟨0x010, 0x0, 0, 1, 2, 1, .w1c, 0, none, false, false⟩,  -- EVT_STATUS.REFUSED
  ⟨0x010, 0x0, 0, 1, 3, 1, .w1c, 0, none, false, false⟩,  -- EVT_STATUS.UNCORRECTABLE
  ⟨0x010, 0x0, 0, 1, 4, 1, .w1c, 0, none, false, false⟩,  -- EVT_STATUS.ERASE_RECOVERED
  ⟨0x010, 0x0, 0, 1, 5, 1, .w1c, 0, none, false, false⟩,  -- EVT_STATUS.SLOT_FALLBACK
  ⟨0x100, 0x0, 0, 1, 0, 3, .rw, 0, none, true, false⟩,  -- EFC_CMD.OP
  ⟨0x100, 0x0, 0, 1, 8, 1, .rw, 0, none, true, false⟩,  -- EFC_CMD.STALL_OK
  ⟨0x100, 0x0, 0, 1, 31, 1, .w1s, 0, none, false, false⟩,  -- EFC_CMD.GO
  ⟨0x104, 0x0, 0, 1, 4, 19, .rw, 0, none, true, false⟩,  -- EFC_ADDR
  ⟨0x108, 0x0, 0, 1, 0, 6, .rw, 1, some (1, 32, 1), true, false⟩,  -- EFC_CMD2.WORDS
  ⟨0x108, 0x0, 0, 1, 8, 1, .rw, 0, none, true, false⟩,  -- EFC_CMD2.SLOT
  ⟨0x10C, 0x0, 0, 1, 0, 1, .w1s, 0, none, false, false⟩,  -- PROT.ACTIVE_LOCK
  ⟨0x200, 0x4, 0, 128, 0, 32, .rw, 0, none, true, false⟩,  -- DATA_w
  ⟨0x800, 0x0, 0, 1, 0, 2, .ro, 0, none, false, false⟩,  -- EFC_STATUS.STATE
  ⟨0x800, 0x0, 0, 1, 2, 1, .ro, 0, none, false, false⟩,  -- EFC_STATUS.BANK
  ⟨0x800, 0x0, 0, 1, 8, 8, .ro, 0, none, false, false⟩,  -- EFC_STATUS.CODE
  ⟨0x800, 0x0, 0, 1, 16, 7, .ro, 0, none, false, false⟩,  -- EFC_STATUS.PULSES
  ⟨0x804, 0x0, 0, 1, 0, 1, .ro, 0, none, false, false⟩,  -- ACTIVE_SLOT
  ⟨0x804, 0x0, 0, 1, 1, 1, .ro, 0, none, false, false⟩,  -- POINTER_SLOT
  ⟨0x808, 0x0, 0, 1, 0, 32, .ro, 0, none, false, false⟩,  -- POINTER_SEQ
  ⟨0x80C, 0x0, 0, 1, 0, 11, .ro, 0, none, false, false⟩,  -- RECOVERED_SECTORS
  ⟨0x810, 0x0, 0, 1, 0, 23, .ro, 0, none, false, false⟩,  -- FAIL_ADDR
  ⟨0xC00, 0x0, 0, 1, 0, 48, .rl, 0, none, false, false⟩,  -- PROGRAM_OPS
  ⟨0xC08, 0x0, 0, 1, 0, 48, .rl, 0, none, false, false⟩,  -- ERASE_OPS
  ⟨0xC10, 0x0, 0, 1, 0, 48, .rl, 0, none, false, false⟩,  -- PROGRAM_PULSES
  ⟨0xC18, 0x0, 0, 1, 0, 48, .rl, 0, none, false, false⟩,  -- ERASE_PULSES
  ⟨0xC20, 0x0, 0, 1, 0, 48, .rl, 0, none, false, false⟩,  -- FAILS
  ⟨0xC28, 0x0, 0, 1, 0, 48, .rl, 0, none, false, false⟩,  -- REFUSALS
  ⟨0xC30, 0x0, 0, 1, 0, 48, .rl, 0, none, false, false⟩,  -- STALL_NS_MAX
  ⟨0xC38, 0x0, 0, 1, 0, 48, .rl, 0, none, false, false⟩,  -- CORRECTED_WORDS
  ⟨0xC40, 0x0, 0, 1, 0, 48, .rl, 0, none, false, false⟩]  -- UNCORRECTABLE_WORDS

/-- The register table of R508. -/
def rowsWDT : List RegField := [
  ⟨0x010, 0x0, 0, 1, 0, 1, .w1c, 0, none, false, false⟩,  -- EVT_STATUS.CORE_RESET
  ⟨0x010, 0x0, 0, 1, 1, 1, .w1c, 0, none, false, false⟩,  -- EVT_STATUS.SAVE_EXPIRY
  ⟨0x010, 0x0, 0, 1, 2, 1, .w1c, 0, none, false, false⟩,  -- EVT_STATUS.DEFERRED
  ⟨0x100, 0x0, 0, 1, 0, 16, .rwf, 4000, some (10, 60000, 10), false, false⟩,  -- CHIP_WD.TIMEOUT_MS
  ⟨0x104, 0x0, 0, 1, 0, 20, .rwf, 10000, some (100, 1000000, 100), false, false⟩,  -- CORE_WD.WARN_US
  ⟨0x108, 0x0, 0, 1, 0, 20, .rwf, 10000, some (100, 1000000, 100), false, false⟩,  -- CORE_WD.RESET_US
  ⟨0x10C, 0x0, 0, 1, 0, 8, .rwf, 0, none, false, false⟩,  -- CORE_WD.EN
  ⟨0x110, 0x0, 0, 1, 0, 8, .rw, 0, none, false, false⟩,  -- KICK.CHIP
  ⟨0x114, 0x0, 0, 1, 0, 8, .rw, 0, none, false, false⟩,  -- KICK.CORE
  ⟨0x118, 0x0, 0, 1, 0, 1, .w1s, 0, none, false, false⟩,  -- LOCK.SET
  ⟨0x800, 0x0, 0, 1, 0, 16, .ro, 4000, none, false, false⟩,  -- CHIP_LEFT_MS
  ⟨0x804, 0x4, 0, 8, 0, 21, .ro, 0, none, false, false⟩,  -- CORE_LEFT_US_n
  ⟨0x824, 0x0, 0, 1, 0, 16, .ro, 0, none, false, false⟩,  -- RESETS_60M
  ⟨0xC00, 0x0, 0, 1, 0, 48, .rl, 0, none, false, false⟩,  -- CHIP_KICKS
  ⟨0xC08, 0x0, 0, 1, 0, 48, .rl, 0, none, false, false⟩,  -- CORE_WARNINGS
  ⟨0xC10, 0x0, 0, 1, 0, 48, .rl, 0, none, false, false⟩,  -- CORE_RESETS
  ⟨0xC18, 0x0, 0, 1, 0, 48, .rl, 0, none, false, false⟩,  -- DEFERRALS
  ⟨0xC20, 0x0, 0, 1, 0, 48, .rl, 0, none, false, false⟩,  -- DEFER_US_MAX
  ⟨0xC28, 0x0, 0, 1, 0, 48, .rl, 0, none, false, false⟩,  -- SAVE_EXPIRIES
  ⟨0xC30, 0x0, 0, 1, 0, 48, .rl, 0, none, false, false⟩]  -- BAD_KICKS

/-- The register table of R509. -/
def rowsICU : List RegField := [
  ⟨0x010, 0x0, 0, 1, 0, 1, .w1c, 0, none, false, false⟩,  -- EVT_STATUS.COUNT_SAT
  ⟨0x010, 0x0, 0, 1, 1, 1, .w1c, 0, none, false, false⟩,  -- EVT_STATUS.LATE
  ⟨0x100, 0x0, 0, 1, 0, 3, .rwf, 4, none, false, false⟩,  -- ICU_CFG.SUBBITS
  ⟨0x104, 0x0, 0, 1, 0, 8, .w1s, 0, none, false, false⟩,  -- SWI
  ⟨0x800, 0x0, 0, 1, 0, 11, .ro, 0, none, false, false⟩,  -- PENDING_TOTAL
  ⟨0x804, 0x0, 0, 1, 0, 9, .ro, 0, none, false, false⟩]  -- IN_SERVICE_TOTAL

/-- The register table of R510. -/
def rowsISR : List RegField := [
  ⟨0x100, 0x4, 0, 256, 0, 1, .rw, 0, none, true, false⟩,  -- SRC_j.ENABLE
  ⟨0x100, 0x4, 0, 256, 1, 1, .rw, 0, none, true, false⟩,  -- SRC_j.FAST
  ⟨0x100, 0x4, 0, 256, 2, 1, .rw, 0, none, true, false⟩,  -- SRC_j.SMODE
  ⟨0x100, 0x4, 0, 256, 3, 4, .rw, 0, some (0, 7, 0), true, false⟩,  -- SRC_j.TARGET
  ⟨0x100, 0x4, 0, 256, 8, 6, .rw, 0, none, true, false⟩,  -- SRC_j.GROUP
  ⟨0x100, 0x4, 0, 256, 16, 8, .rw, 255, none, true, false⟩,  -- SRC_j.PRIO
  ⟨0x100, 0x4, 0, 256, 24, 1, .ro, 0, none, false, false⟩,  -- SRC_j.PULSE
  ⟨0x800, 0x4, 0, 256, 0, 8, .ro, 0, none, false, false⟩,  -- STAT_j.COUNT
  ⟨0x800, 0x4, 0, 256, 8, 1, .ro, 0, none, false, false⟩,  -- STAT_j.PENDING
  ⟨0x800, 0x4, 0, 256, 9, 1, .ro, 0, none, false, false⟩,  -- STAT_j.PRESENTED
  ⟨0x800, 0x4, 0, 256, 10, 1, .ro, 0, none, false, false⟩,  -- STAT_j.IN_SERVICE
  ⟨0x800, 0x4, 0, 256, 11, 4, .ro, 0, none, false, false⟩,  -- STAT_j.CORE
  ⟨0x800, 0x4, 0, 256, 15, 1, .ro, 0, none, false, false⟩]  -- STAT_j.INPUT

/-- The register table of R511. -/
def rowsICO : List RegField := [
  ⟨0x100, 0x20, 0, 8, 0, 8, .rw, 255, none, true, false⟩,  -- THRESH_n
  ⟨0x104, 0x20, 0, 8, 0, 10, .rw, 0, none, true, false⟩,  -- COMPLETE_n
  ⟨0x800, 0x20, 0, 8, 0, 10, .ro, 0, none, false, false⟩,  -- CLAIM_n.SOURCE
  ⟨0x800, 0x20, 0, 8, 10, 8, .ro, 0, none, false, false⟩,  -- CLAIM_n.COUNT
  ⟨0x800, 0x20, 0, 8, 29, 1, .ro, 0, none, false, false⟩,  -- CLAIM_n.LATE
  ⟨0x800, 0x20, 0, 8, 31, 1, .ro, 0, none, false, false⟩,  -- CLAIM_n.VALID
  ⟨0x804, 0x20, 0, 8, 0, 8, .ro, 255, none, false, false⟩,  -- RUN_LEVEL_n
  ⟨0x804, 0x20, 0, 8, 8, 1, .ro, 0, none, false, false⟩]  -- ASLEEP_n

/-- The register table of R512. -/
def rowsICL : List RegField := [
  ⟨0x100, 0x4, 1, 64, 0, 8, .rw, 1, some (1, 255, 1), true, false⟩,  -- COAL_g.COUNT
  ⟨0x100, 0x4, 1, 64, 8, 16, .rw, 0, none, true, false⟩,  -- COAL_g.TIME_US
  ⟨0x800, 0x4, 1, 64, 0, 8, .ro, 0, none, false, false⟩,  -- COAL_STAT_g.COLLECTED
  ⟨0x800, 0x4, 1, 64, 8, 1, .ro, 0, none, false, false⟩,  -- COAL_STAT_g.TIMING
  ⟨0xC00, 0x8, 1, 64, 0, 48, .rl, 0, none, false, false⟩]  -- FIRES_g

/-- The register table of R513. -/
def rowsICT : List RegField := [
  ⟨0xC00, 0x8, 0, 8, 0, 48, .rl, 0, none, false, false⟩,  -- CLAIMS_n
  ⟨0xC40, 0x8, 0, 8, 0, 48, .rl, 0, none, false, false⟩,  -- FAST_n
  ⟨0xC80, 0x8, 0, 8, 0, 48, .rl, 0, none, false, false⟩,  -- WAKES_n
  ⟨0xCC0, 0x8, 0, 8, 0, 48, .rl, 0, none, false, false⟩,  -- LATE_n
  ⟨0xD00, 0x0, 0, 1, 0, 48, .rl, 0, none, false, false⟩,  -- WITHDRAWN
  ⟨0xD08, 0x0, 0, 1, 0, 48, .rl, 0, none, false, false⟩,  -- COUNT_SATS
  ⟨0xD10, 0x0, 0, 1, 0, 48, .rl, 0, none, false, false⟩,  -- BAD_COMPLETES
  ⟨0xD18, 0x0, 0, 1, 0, 48, .rl, 0, none, false, false⟩,  -- RETARGETS
  ⟨0xD20, 0x0, 0, 1, 0, 48, .rl, 0, none, false, false⟩]  -- PRESENT_NS_MAX

/-- The register table of R543. -/
def rowsPSQ : List RegField := [
  ⟨0x010, 0x0, 0, 1, 0, 1, .w1c, 0, none, false, false⟩,  -- EVT_STATUS.RAIL_FAULT
  ⟨0x010, 0x0, 0, 1, 1, 1, .w1c, 0, none, false, false⟩,  -- EVT_STATUS.DOWN_RAIL_FAIL
  ⟨0x010, 0x0, 0, 1, 2, 1, .w1c, 0, none, false, false⟩,  -- EVT_STATUS.UP_TIMEOUT
  ⟨0x010, 0x0, 0, 1, 3, 1, .w1c, 0, none, false, false⟩,  -- EVT_STATUS.SYNC_STUCK
  ⟨0x100, 0x0, 0, 1, 0, 4, .rwf, 0, some (1, 15, 1), false, false⟩,  -- SEQ_CFG.TOP
  ⟨0x100, 0x0, 0, 1, 4, 1, .rwf, 0, none, false, false⟩,  -- SEQ_CFG.SYNC_EN
  ⟨0x100, 0x0, 0, 1, 8, 2, .rwf, 3, some (1, 3, 1), false, false⟩,  -- SEQ_CFG.RETRY_MAX
  ⟨0x100, 0x0, 0, 1, 16, 8, .rwf, 100, some (10, 255, 10), false, false⟩,  -- SEQ_CFG.SYNC_TIMEOUT_MS
  ⟨0x104, 0x0, 0, 1, 0, 8, .rwf, 2, some (1, 255, 1), false, false⟩,  -- TIMING.PG_FILTER_US
  ⟨0x104, 0x0, 0, 1, 8, 16, .rwf, 200, some (10, 65535, 10), false, false⟩,  -- TIMING.FAULT_SHUT_US
  ⟨0x108, 0x0, 0, 1, 0, 16, .rwf, 200, some (200, 10000, 200), false, false⟩,  -- TIMING.OFF_MIN_MS
  ⟨0x108, 0x0, 0, 1, 16, 16, .rwf, 20, some (1, 1000, 1), false, false⟩,  -- TIMING.PFAIL_STABLE_MS
  ⟨0x110, 0x8, 1, 16, 0, 16, .rwf, 0, none, false, false⟩,  -- STATE_s.EN_SET
  ⟨0x110, 0x8, 1, 16, 16, 16, .rwf, 0, none, false, false⟩,  -- STATE_s.PG_REQ
  ⟨0x114, 0x8, 1, 16, 0, 8, .rwf, 0, some (1, 255, 1), false, false⟩,  -- STATE_s.TIMEOUT_MS
  ⟨0x114, 0x8, 1, 16, 8, 8, .rwf, 0, none, false, false⟩,  -- STATE_s.DELAY_100US
  ⟨0x190, 0x0, 0, 1, 0, 1, .w1s, 0, none, false, false⟩,  -- STORE.COMMIT
  ⟨0x800, 0x0, 0, 1, 0, 4, .ro, 0, none, false, false⟩,  -- PSQ.STATE
  ⟨0x800, 0x0, 0, 1, 4, 2, .ro, 0, none, false, false⟩,  -- PSQ.DIR
  ⟨0x800, 0x0, 0, 1, 8, 1, .ro, 0, none, false, false⟩,  -- PSQ.SYNC_HELD
  ⟨0x800, 0x0, 0, 1, 9, 1, .ro, 0, none, false, false⟩,  -- PSQ.SEQ_IN
  ⟨0x800, 0x0, 0, 1, 10, 1, .ro, 0, none, false, false⟩,  -- PSQ.SEQ_OUT
  ⟨0x800, 0x0, 0, 1, 12, 1, .ro, 0, none, false, false⟩,  -- PSQ.UP_HELD
  ⟨0x804, 0x0, 0, 1, 0, 16, .ro, 0, none, false, false⟩,  -- EN_OUT
  ⟨0x804, 0x0, 0, 1, 16, 16, .ro, 0, none, false, false⟩,  -- PG_IN
  ⟨0x808, 0x0, 0, 1, 0, 4, .ro, 0, none, false, false⟩,  -- LAST_FAULT.RAIL
  ⟨0x808, 0x0, 0, 1, 4, 4, .ro, 0, none, false, false⟩,  -- LAST_FAULT.STATE
  ⟨0x808, 0x0, 0, 1, 8, 2, .ro, 0, none, false, false⟩,  -- LAST_FAULT.KIND
  ⟨0x80C, 0x0, 0, 1, 0, 3, .ro, 4, none, false, false⟩,  -- STORE.VERSIONS_LEFT
  ⟨0xC00, 0x0, 0, 1, 0, 48, .rl, 0, none, false, false⟩,  -- UP_SEQUENCES
  ⟨0xC08, 0x0, 0, 1, 0, 48, .rl, 0, none, false, false⟩,  -- DOWN_SEQUENCES
  ⟨0xC10, 0x0, 0, 1, 0, 48, .rl, 0, none, false, false⟩,  -- RAIL_FAULTS
  ⟨0xC18, 0x0, 0, 1, 0, 48, .rl, 0, none, false, false⟩,  -- DOWN_RAIL_FAILS
  ⟨0xC20, 0x0, 0, 1, 0, 48, .rl, 0, none, false, false⟩,  -- UP_TIMEOUTS
  ⟨0xC28, 0x0, 0, 1, 0, 48, .rl, 0, none, false, false⟩]  -- SYNC_WAIT_US_MAX

/-- The register table of R544. -/
def rowsMAR : List RegField := [
  ⟨0x010, 0x0, 0, 1, 0, 1, .w1c, 0, none, false, false⟩,  -- EVT_STATUS.MARGIN_CLEARED
  ⟨0x100, 0x4, 0, 4, 0, 1, .rwf, 0, none, false, false⟩,  -- RAIL_k.PRESENT
  ⟨0x100, 0x4, 0, 4, 16, 11, .rwf, 0, none, false, false⟩,  -- RAIL_k.NOM_MV
  ⟨0x120, 0x4, 0, 4, 0, 8, .rw, 0, none, true, false⟩,  -- MARGIN_k.OFFSET_MV
  ⟨0x800, 0x4, 0, 4, 0, 11, .ro, 0, none, false, false⟩,  -- RAIL_k.VOUT_MV
  ⟨0x800, 0x4, 0, 4, 16, 12, .ro, 0, none, false, false⟩,  -- RAIL_k.IOUT_100MA
  ⟨0xC00, 0x0, 0, 1, 0, 48, .rl, 0, none, false, false⟩]  -- MARGIN_WRITES

/-- The register table of R545. -/
def rowsTHM : List RegField := [
  ⟨0x010, 0x0, 0, 1, 0, 1, .w1c, 0, none, false, false⟩,  -- EVT_STATUS.ALERT
  ⟨0x010, 0x0, 0, 1, 1, 1, .w1c, 0, none, false, false⟩,  -- EVT_STATUS.THROTTLE
  ⟨0x010, 0x0, 0, 1, 2, 1, .w1c, 0, none, false, false⟩,  -- EVT_STATUS.SENSOR_FAULT
  ⟨0x100, 0x0, 0, 1, 0, 8, .rw, 98, some (60, 120, 60), true, false⟩,  -- THERM_CFG.ALERT_C
  ⟨0x100, 0x0, 0, 1, 8, 8, .rw, 100, some (60, 120, 60), true, false⟩,  -- THERM_CFG.THROTTLE_C
  ⟨0x100, 0x0, 0, 1, 16, 4, .rw, 5, some (1, 15, 1), true, false⟩,  -- THERM_CFG.HYST_C
  ⟨0x104, 0x0, 0, 1, 0, 8, .rwf, 115, some (105, 125, 105), false, false⟩,  -- TRIP_C
  ⟨0x800, 0x0, 0, 1, 0, 10, .ro, 0, none, false, false⟩,  -- TJ_HOT
  ⟨0x800, 0x0, 0, 1, 16, 5, .ro, 0, none, false, false⟩,  -- HOT_SENSOR
  ⟨0x804, 0x0, 0, 1, 0, 12, .ro, 0, none, false, false⟩,  -- TJ_AVG_X10
  ⟨0x804, 0x0, 0, 1, 16, 1, .w1c, 0, none, false, false⟩,  -- TRIPPED
  ⟨0x880, 0x4, 0, 32, 0, 10, .ro, 0, none, false, false⟩,  -- TEMP_n
  ⟨0x880, 0x4, 0, 32, 15, 1, .ro, 0, none, false, false⟩,  -- TEMP_n.BAD
  ⟨0xC00, 0x0, 0, 1, 0, 48, .rl, 0, none, false, false⟩,  -- TJ_PEAK_Q
  ⟨0xC08, 0x0, 0, 1, 0, 48, .rl, 0, none, false, false⟩,  -- THROTTLE_ROUNDS
  ⟨0xC10, 0x0, 0, 1, 0, 48, .rl, 0, none, false, false⟩,  -- ALERTS
  ⟨0xC18, 0x0, 0, 1, 0, 48, .rl, 0, none, false, false⟩]  -- SENSOR_FAULTS

/-- The register table of R546. -/
def rowsAVS : List RegField := [
  ⟨0x010, 0x0, 0, 1, 0, 1, .w1c, 0, none, false, false⟩,  -- EVT_STATUS.AVS_FAULT
  ⟨0x010, 0x0, 0, 1, 1, 1, .w1c, 0, none, false, false⟩,  -- EVT_STATUS.CPM_ALARM
  ⟨0x010, 0x0, 0, 1, 2, 1, .w1c, 0, none, false, false⟩,  -- EVT_STATUS.FREQ_CHANGE
  ⟨0x100, 0x0, 0, 1, 0, 1, .rw, 1, none, true, false⟩,  -- AVS_CFG.EN
  ⟨0x100, 0x0, 0, 1, 8, 8, .rw, 25, some (1, 250, 1), true, false⟩,  -- AVS_CFG.PERIOD
  ⟨0x100, 0x0, 0, 1, 16, 8, .rw, 4, some (1, 63, 1), true, false⟩,  -- AVS_CFG.CPM_LO
  ⟨0x100, 0x0, 0, 1, 24, 8, .rw, 10, some (1, 63, 1), true, false⟩,  -- AVS_CFG.CPM_HI
  ⟨0x104, 0x0, 0, 1, 0, 10, .rwf, 650, some (650, 850, 650), false, false⟩,  -- AVS_CFG.VMIN_MV
  ⟨0x104, 0x0, 0, 1, 16, 10, .rwf, 850, some (0, 850, 0), false, false⟩,  -- AVS_CFG.VMAX_MV
  ⟨0x108, 0x0, 0, 1, 0, 2, .rwf, 2, none, false, false⟩,  -- AVSBUS_CFG.CLK
  ⟨0x10C, 0x0, 0, 1, 0, 3, .rw, 0, some (0, 4, 0), true, false⟩,  -- DVFS_CFG.CEIL
  ⟨0x800, 0x0, 0, 1, 0, 10, .ro, 800, none, false, false⟩,  -- VDD_TARGET_MV
  ⟨0x804, 0x0, 0, 1, 0, 3, .ro, 0, none, false, false⟩,  -- FCLK_STEP
  ⟨0x804, 0x0, 0, 1, 8, 8, .ro, 0, none, false, false⟩,  -- CPM_MIN
  ⟨0xC00, 0x0, 0, 1, 0, 48, .rl, 0, none, false, false⟩,  -- VOLT_RAISES
  ⟨0xC08, 0x0, 0, 1, 0, 48, .rl, 0, none, false, false⟩,  -- VOLT_LOWERS
  ⟨0xC10, 0x0, 0, 1, 0, 48, .rl, 0, none, false, false⟩,  -- FREQ_CHANGES
  ⟨0xC18, 0x0, 0, 1, 0, 48, .rl, 0, none, false, false⟩]  -- AVSBUS_RETRIES

/-- The register table of R547. -/
def rowsMTI : List RegField := [
  ⟨0x010, 0x0, 0, 1, 0, 1, .w1c, 0, none, false, false⟩,  -- EVT_STATUS.CLK_LOW_TO
  ⟨0x010, 0x0, 0, 1, 1, 1, .w1c, 0, none, false, false⟩,  -- EVT_STATUS.DATA_LOW_TO
  ⟨0x010, 0x0, 0, 1, 2, 1, .w1c, 0, none, false, false⟩,  -- EVT_STATUS.PEC_ERROR
  ⟨0x010, 0x0, 0, 1, 3, 1, .w1c, 0, none, false, false⟩,  -- EVT_STATUS.TX_DROPPED
  ⟨0x100, 0x0, 0, 1, 0, 1, .rw, 1, none, true, false⟩,  -- MTI_CFG.PEC_REQ
  ⟨0x100, 0x0, 0, 1, 1, 1, .rw, 1, none, true, false⟩,  -- MTI_CFG.FMPLUS_EN
  ⟨0x100, 0x0, 0, 1, 8, 8, .rw, 30, some (25, 35, 25), true, false⟩,  -- MTI_CFG.DL_TIMEOUT_MS
  ⟨0x104, 0x0, 0, 1, 0, 12, .rw, 1000, some (10, 2000, 10), true, false⟩,  -- MTI_CFG.STRETCH_MAX_US
  ⟨0x800, 0x0, 0, 1, 0, 7, .ro, 0, none, false, false⟩,  -- ADDR
  ⟨0x800, 0x0, 0, 1, 8, 1, .ro, 0, none, false, false⟩,  -- ACKING
  ⟨0x800, 0x0, 0, 1, 9, 4, .ro, 0, none, false, false⟩,  -- TX_QUEUE
  ⟨0x800, 0x0, 0, 1, 13, 1, .ro, 0, none, false, false⟩,  -- ALERT
  ⟨0xC00, 0x0, 0, 1, 0, 48, .rl, 0, none, false, false⟩,  -- PACKETS_RX
  ⟨0xC08, 0x0, 0, 1, 0, 48, .rl, 0, none, false, false⟩,  -- PACKETS_TX
  ⟨0xC10, 0x0, 0, 1, 0, 48, .rl, 0, none, false, false⟩,  -- PEC_ERRORS
  ⟨0xC18, 0x0, 0, 1, 0, 48, .rl, 0, none, false, false⟩,  -- CLK_LOW_TOS
  ⟨0xC20, 0x0, 0, 1, 0, 48, .rl, 0, none, false, false⟩,  -- DATA_LOW_TOS
  ⟨0xC28, 0x0, 0, 1, 0, 48, .rl, 0, none, false, false⟩,  -- RECOVERIES
  ⟨0xC30, 0x0, 0, 1, 0, 48, .rl, 0, none, false, false⟩,  -- TX_DROPPED
  ⟨0xC38, 0x0, 0, 1, 0, 48, .rl, 0, none, false, false⟩]  -- ACCESS_DENIED

/-- The register table of R573. -/
def rowsRST : List RegField := [
  ⟨0x010, 0x0, 0, 1, 0, 1, .w1c, 0, none, false, false⟩,  -- EVT_STATUS.TWIN_ABSENT
  ⟨0x010, 0x0, 0, 1, 1, 1, .w1c, 0, none, false, false⟩,  -- EVT_STATUS.PAIR_MISMATCH
  ⟨0x010, 0x0, 0, 1, 2, 1, .w1c, 0, none, false, false⟩,  -- EVT_STATUS.MEMORY_ACTIVE
  ⟨0x100, 0x0, 0, 1, 0, 1, .w1s, 0, none, false, false⟩,  -- WARM.GO
  ⟨0x800, 0x0, 0, 1, 0, 3, .ro, 0, none, false, false⟩,  -- LAST_CAUSE
  ⟨0x800, 0x0, 0, 1, 8, 1, .ro, 0, none, false, false⟩,  -- BOOT_FAIL
  ⟨0x804, 0x0, 0, 1, 0, 16, .ro, 0, none, false, false⟩,  -- FW_ENTRY_US
  ⟨0x808, 0x0, 0, 1, 0, 16, .ro, 0, none, false, false⟩,  -- TRAIN_DONE_MS
  ⟨0x80C, 0x0, 0, 1, 0, 20, .ro, 0, none, false, false⟩,  -- ACTIVE_MS
  ⟨0x810, 0x0, 0, 1, 0, 1, .ro, 0, none, false, false⟩,  -- START.MEM_ACTIVE
  ⟨0x810, 0x0, 0, 1, 1, 1, .ro, 0, none, false, false⟩,  -- START.TWIN_ABSENT
  ⟨0x810, 0x0, 0, 1, 2, 1, .ro, 0, none, false, false⟩,  -- START.PAIR_FORMED
  ⟨0xC00, 0x0, 0, 1, 0, 48, .rl, 0, none, false, false⟩]  -- RESETN_DEFERRED

/-- The register table of R574. -/
def rowsSEC : List RegField := [
  ⟨0x010, 0x0, 0, 1, 0, 1, .w1c, 0, none, false, false⟩,  -- EVT_STATUS.ACCESS_DENIED
  ⟨0x100, 0x0, 0, 1, 1, 26, .rwf, 67108863, none, false, true⟩,  -- CORE_S_READ.BLOCKS
  ⟨0x104, 0x0, 0, 1, 1, 26, .rwf, 0, none, false, true⟩,  -- CORE_S_WRITE.BLOCKS
  ⟨0x108, 0x0, 0, 1, 0, 24, .rwf, 0, none, false, true⟩,  -- HOST_MGR.HEADS
  ⟨0x10C, 0x0, 0, 1, 1, 26, .rwf, 0, none, false, true⟩,  -- HOST_WRITE.BLOCKS
  ⟨0x110, 0x0, 0, 1, 1, 26, .rwf, 0, none, false, true⟩,  -- MCTP_WRITE.BLOCKS
  ⟨0xC00, 0x0, 0, 1, 0, 48, .rl, 0, none, false, false⟩]  -- ACCESS_DENIED

/-- The register table of R575. -/
def rowsBOOT : List RegField := [
  ⟨0x100, 0x0, 0, 1, 0, 1, .w1s, 0, none, false, false⟩,  -- BOOT.SVN_ADVANCE
  ⟨0x140, 0x4, 0, 12, 0, 32, .rw, 0, none, false, false⟩,  -- OWNER_HASH_w
  ⟨0x170, 0x0, 0, 1, 0, 1, .w1s, 0, none, false, false⟩,  -- OWNER_PROG.GO
  ⟨0x800, 0x0, 0, 1, 0, 1, .ro, 0, none, false, false⟩,  -- FUSE.SB_EN
  ⟨0x800, 0x0, 0, 1, 1, 1, .ro, 0, none, false, false⟩,  -- FUSE.KEY_S_OFF
  ⟨0x800, 0x0, 0, 1, 2, 1, .ro, 0, none, false, false⟩,  -- FUSE.KEY_O_SET
  ⟨0x800, 0x0, 0, 1, 3, 1, .ro, 0, none, false, false⟩,  -- FUSE.FIELD_CLOSED
  ⟨0x800, 0x0, 0, 1, 8, 7, .ro, 0, none, false, false⟩,  -- FUSE.SVN
  ⟨0x804, 0x0, 0, 1, 0, 7, .ro, 0, none, false, false⟩,  -- IMAGE_SVN
  ⟨0x840, 0x4, 0, 12, 0, 32, .ro, 0, none, false, false⟩,  -- KEY_HASH_S_w
  ⟨0x870, 0x4, 0, 12, 0, 32, .ro, 0, none, false, false⟩]  -- KEY_HASH_O_w

/-- The register table of R576. -/
def rowsKEY : List RegField := [
  ⟨0x010, 0x0, 0, 1, 0, 1, .w1c, 0, none, false, false⟩,  -- EVT_STATUS.ERASED
  ⟨0x100, 0x0, 0, 1, 0, 6, .rw, 0, none, true, false⟩,  -- ERASE_REQ.DOMAIN
  ⟨0x100, 0x0, 0, 1, 31, 1, .w1s, 0, none, false, false⟩,  -- ERASE_REQ.GO
  ⟨0x400, 0x4, 0, 16, 0, 32, .ro, 0, none, false, false⟩,  -- KEK_w
  ⟨0x800, 0x0, 0, 1, 0, 32, .ro, 0, none, false, false⟩,  -- KEYS_LO
  ⟨0x804, 0x0, 0, 1, 0, 32, .ro, 0, none, false, false⟩,  -- KEYS_HI
  ⟨0xC00, 0x0, 0, 1, 0, 48, .rl, 0, none, false, false⟩,  -- CRYPTO_ERASES
  ⟨0xC08, 0x0, 0, 1, 0, 48, .rl, 0, none, false, false⟩]  -- DRBG_RESEEDS

/-- The register table of R577. -/
def rowsSES : List RegField := [
  ⟨0x010, 0x0, 0, 1, 0, 1, .w1c, 0, none, false, false⟩,  -- EVT_STATUS.IDE_KEYED
  ⟨0x800, 0x4, 0, 24, 0, 3, .ro, 0, none, false, false⟩,  -- HEAD_h.SESSIONS
  ⟨0x800, 0x4, 0, 24, 8, 1, .ro, 0, none, false, false⟩,  -- HEAD_h.IDE_ACTIVE
  ⟨0xC00, 0x0, 0, 1, 0, 48, .rl, 0, none, false, false⟩,  -- SPDM_REQUESTS
  ⟨0xC08, 0x0, 0, 1, 0, 48, .rl, 0, none, false, false⟩]  -- IDE_KEY_SETS

/-- The register table of R578. -/
def rowsDBG : List RegField := [
  ⟨0x100, 0x0, 0, 1, 0, 32, .rw, 0, none, false, false⟩,  -- CLOSE.KEY
  ⟨0x104, 0x0, 0, 1, 0, 1, .w1s, 0, none, false, false⟩,  -- CLOSE.GO
  ⟨0x800, 0x0, 0, 1, 0, 1, .ro, 0, none, false, false⟩,  -- DBG_STATE.OPEN
  ⟨0x800, 0x0, 0, 1, 1, 1, .ro, 0, none, false, false⟩,  -- DBG_STATE.TAP_ACTIVE
  ⟨0x800, 0x0, 0, 1, 2, 1, .ro, 0, none, false, false⟩,  -- DBG_STATE.OVERRIDE
  ⟨0xC00, 0x0, 0, 1, 0, 48, .rl, 0, none, false, false⟩]  -- TAP_RESETS

/-- The page of the directory (R49) at index `i`: block code, instance and page within the instance; `none` where no page
stands (R46). -/
def pageOf (i : Nat) : Option (Nat × Nat × Nat) :=
  if 0x000 ≤ i ∧ i < 0x002 then some (0x01, 0, i - 0x000) else
  if 0x010 ≤ i ∧ i < 0x012 then some (0x02, 0, i - 0x010) else
  if 0x020 ≤ i ∧ i < 0x021 then some (0x03, 0, i - 0x020) else
  if 0x030 ≤ i ∧ i < 0x034 then some (0x04, 0, i - 0x030) else
  if 0x040 ≤ i ∧ i < 0x041 then some (0x05, 0, i - 0x040) else
  if 0x050 ≤ i ∧ i < 0x052 then some (0x06, 0, i - 0x050) else
  if 0x060 ≤ i ∧ i < 0x061 then some (0x07, 0, i - 0x060) else
  if 0x070 ≤ i ∧ i < 0x074 then some (0x08, 0, i - 0x070) else
  if 0x080 ≤ i ∧ i < 0x082 then some (0x09, 0, i - 0x080) else
  if 0x090 ≤ i ∧ i < 0x094 then some (0x0A, 0, i - 0x090) else
  if 0x0A0 ≤ i ∧ i < 0x0A4 then some (0x0B, 0, i - 0x0A0) else
  if 0x0B0 ≤ i ∧ i < 0x0B2 then some (0x0C, 0, i - 0x0B0) else
  if 0x0C0 ≤ i ∧ i < 0x0C2 then some (0x0D, 0, i - 0x0C0) else
  if 0x0D0 ≤ i ∧ i < 0x0D2 then some (0x0E, 0, i - 0x0D0) else
  if 0x0E0 ≤ i ∧ i < 0x0E4 then some (0x0F, 0, i - 0x0E0) else
  if 0x0F0 ≤ i ∧ i < 0x0F2 then some (0x10, 0, i - 0x0F0) else
  if 0x100 ≤ i ∧ i < 0x104 then some (0x11, 0, i - 0x100) else
  if 0x110 ≤ i ∧ i < 0x118 then some (0x12, 0, i - 0x110) else
  if 0x120 ≤ i ∧ i < 0x121 then some (0x13, 0, i - 0x120) else
  if 0x130 ≤ i ∧ i < 0x131 then some (0x14, 0, i - 0x130) else
  if 0x140 ≤ i ∧ i < 0x142 then some (0x15, 0, i - 0x140) else
  if 0x150 ≤ i ∧ i < 0x152 then some (0x16, 0, i - 0x150) else
  if 0x160 ≤ i ∧ i < 0x161 then some (0x17, 0, i - 0x160) else
  if 0x200 ≤ i ∧ i < 0x218 then some (0x18, (i - 0x200) / 4, (i - 0x200) % 4) else
  if 0x240 ≤ i ∧ i < 0x270 then some (0x18, 0x10 + (i - 0x240) / 2, (i - 0x240) % 2) else
  if 0x300 ≤ i ∧ i < 0x340 then some (0x19, (i - 0x300) / 4, (i - 0x300) % 4) else
  if 0x380 ≤ i ∧ i < 0x388 then some (0x1A, 0, i - 0x380) else
  if 0x3A0 ≤ i ∧ i < 0x3C0 then some (0x1A, 1 + (i - 0x3A0), 0) else none

/-- The block-specific register rows of the page at index `i`; a page whose chapter gives it no registers has none. -/
def pageRows (i : Nat) : List RegField :=
  if i = 0x000 then rowsCLK else
  if i = 0x020 then rowsRST else
  if i = 0x030 then rowsSEC else
  if i = 0x031 then rowsBOOT else
  if i = 0x032 then rowsKEY else
  if i = 0x033 then rowsSES else
  if i = 0x040 then rowsDBG else
  if i = 0x050 then rowsSRT else
  if i = 0x051 then rowsPBX else
  if i = 0x060 then rowsWMB else
  if i = 0x070 then rowsROLE else
  if i = 0x071 then rowsPMK else
  if i = 0x072 then rowsREP else
  if i = 0x073 then rowsRSY else
  if i = 0x080 then rowsCXK else
  if i = 0x081 then rowsCXLANE else
  if i = 0x090 then rowsDIR else
  if i = 0x091 then rowsCOM else
  if i = 0x092 then rowsSNP else
  if i = 0x093 then rowsORD else
  if i = 0x0A0 then rowsTIER else
  if i = 0x0A1 then rowsDOM else
  if i = 0x0A2 then rowsPOOL else
  if i = 0x0A3 then rowsPCH else
  if i = 0x0B0 then rowsRTE else
  if i = 0x0B1 then rowsRTS else
  if i = 0x0C0 then rowsMDC else
  if i = 0x0C1 then rowsMNT else
  if i = 0x0D0 then rowsGOV else
  if i = 0x0D1 then rowsSAV else
  if i = 0x0E0 then rowsRAS else
  if i = 0x0E1 then rowsPAT else
  if i = 0x0E2 then rowsSRS else
  if i = 0x0E3 then rowsSLF else
  if i = 0x0F0 then rowsDLO else
  if i = 0x0F1 then rowsDLR else
  if i = 0x100 then rowsCBL else
  if i = 0x101 then rowsCBN else
  if i = 0x102 then rowsCBD else
  if i = 0x103 then rowsCBO else
  if i = 0x110 then rowsICU else
  if i = 0x115 then rowsICO else
  if i = 0x116 then rowsICL else
  if i = 0x117 then rowsICT else
  if i = 0x120 then rowsWDT else
  if i = 0x130 then rowsEFC else
  if i = 0x140 then rowsPSQ else
  if i = 0x141 then rowsMAR else
  if i = 0x150 then rowsTHM else
  if i = 0x151 then rowsAVS else
  if i = 0x160 then rowsMTI else
  if i = 0x380 then rowsMDE else
  if i = 0x381 then rowsLAST else
  if i = 0x382 then rowsPACK else
  if i = 0x383 then rowsDEC else
  if i = 0x384 then rowsBKG else
  if i = 0x385 then rowsWEAR else
  if i = 0x386 then rowsMOD else
  if i = 0x387 then rowsPROF else
  if 0x200 ≤ i ∧ i < 0x218 ∧ i % 4 = 0 then rowsHP else
  if 0x200 ≤ i ∧ i < 0x218 ∧ i % 4 = 1 then rowsCARB else
  if 0x200 ≤ i ∧ i < 0x218 ∧ i % 4 = 2 then rowsLANE else
  if 0x200 ≤ i ∧ i < 0x218 ∧ i % 4 = 3 then rowsHIST else
  if 0x240 ≤ i ∧ i < 0x270 ∧ i % 2 = 0 then rowsHCFG else
  if 0x240 ≤ i ∧ i < 0x270 ∧ i % 2 = 1 then rowsHLNK else
  if 0x3A0 ≤ i ∧ i < 0x3C0 then rowsCHN else
  if 0x300 ≤ i ∧ i < 0x340 ∧ i % 4 = 0 then rowsDCH else
  if 0x300 ≤ i ∧ i < 0x340 ∧ i % 4 = 1 then rowsDRF else
  if 0x300 ≤ i ∧ i < 0x340 ∧ i % 4 = 2 then rowsDTR else
  if 0x300 ≤ i ∧ i < 0x340 ∧ i % 4 = 3 then rowsDRG else
  if 0x111 ≤ i ∧ i < 0x115 then rowsISR else
  []

/-- The page indices `b` to `b + n - 1`. -/
def pageRange (b n : Nat) : List Nat := (List.range n).map (b + ·)

/-- The 234 page indices of the directory (R49), ascending. -/
def allPages : List Nat :=
  pageRange 0x000 2 ++ pageRange 0x010 2 ++ pageRange 0x020 1 ++ pageRange 0x030 4 ++ pageRange 0x040 1 ++ pageRange 0x050 2 ++ pageRange 0x060 1 ++ pageRange 0x070 4 ++ pageRange 0x080 2 ++ pageRange 0x090 4 ++ pageRange 0x0A0 4 ++ pageRange 0x0B0 2 ++
  pageRange 0x0C0 2 ++ pageRange 0x0D0 2 ++ pageRange 0x0E0 4 ++ pageRange 0x0F0 2 ++ pageRange 0x100 4 ++ pageRange 0x110 8 ++ pageRange 0x120 1 ++ pageRange 0x130 1 ++ pageRange 0x140 2 ++ pageRange 0x150 2 ++ pageRange 0x160 1 ++
  pageRange 0x200 24 ++ pageRange 0x240 48 ++ pageRange 0x300 64 ++ pageRange 0x380 8 ++ pageRange 0x3A0 32

end Sys2Proof.Machine
end

