-- ==== Sys2Proof/Machine/Fields.lean ====
section
/-! DEFINITION. The names of the register fields, of the events and of the snapshot counters: each definition gives the place of
the field of that name in its page's register table. `F` names fields, `K` names counters (by snapshot slot). A field of a page with
several copies takes the copy's number first, then the number of the register within the page. -/
namespace Sys2Proof.Machine

/-- The place of a field: page index, offset, low bit, width, and whether it is live (R56). -/
structure Fld where
  page : Nat
  off : Nat
  lo : Nat
  width : Nat
  live : Bool := false
  deriving DecidableEq, Repr

/-- The place of a counter: page index and snapshot slot (R38). -/
structure Ctr where
  page : Nat
  slot : Nat
  deriving DecidableEq, Repr

abbrev F.CLK_EV_ROUND_OVERRUN : Fld := ⟨0x000, 0x010, 0, 1, false⟩
abbrev F.CLK_EV_ALIGN_FAULT : Fld := ⟨0x000, 0x010, 1, 1, false⟩
abbrev F.CLK_EV_STARVE_PROMOTE : Fld := ⟨0x000, 0x010, 2, 1, false⟩
abbrev F.CLK_EV_DELIVERY_N_APPLIED : Fld := ⟨0x000, 0x010, 3, 1, false⟩
abbrev F.CLK_ROUND_CFG_STARVE_LIMIT : Fld := ⟨0x000, 0x100, 0, 4, false⟩
abbrev F.CLK_DELIVERY_CFG_DELIVERY_N : Fld := ⟨0x000, 0x104, 0, 18, true⟩
abbrev F.CLK_BUDGET_GOV_NS : Fld := ⟨0x000, 0x110, 0, 12, false⟩
abbrev F.CLK_BUDGET_QOS_NS : Fld := ⟨0x000, 0x114, 0, 12, false⟩
abbrev F.CLK_BUDGET_ROUTE_NS : Fld := ⟨0x000, 0x118, 0, 12, false⟩
abbrev F.CLK_BUDGET_MIG_NS : Fld := ⟨0x000, 0x11C, 0, 12, false⟩
abbrev F.CLK_BUDGET_GC_NS : Fld := ⟨0x000, 0x120, 0, 12, false⟩
abbrev F.CLK_BUDGET_RESOLE_NS : Fld := ⟨0x000, 0x124, 0, 12, false⟩
abbrev F.CLK_BUDGET_SCRUB_NS : Fld := ⟨0x000, 0x128, 0, 12, false⟩
abbrev F.CLK_ALIGN_OFFSET_NS : Fld := ⟨0x000, 0x800, 0, 16, false⟩
abbrev F.CLK_ALIGN_STATE_STATE : Fld := ⟨0x000, 0x804, 0, 2, false⟩
abbrev F.CLK_ALIGN_STATE_KEEPER : Fld := ⟨0x000, 0x804, 8, 1, false⟩
abbrev F.CLK_LAST_END_NS : Fld := ⟨0x000, 0x808, 0, 16, false⟩
abbrev F.CLK_PROMOTED_JOB : Fld := ⟨0x000, 0x80C, 0, 8, false⟩
abbrev F.CLK_ROUND_HI : Fld := ⟨0x000, 0x810, 0, 32, false⟩
abbrev F.CLK_BACKLOG_NS (j : Nat) : Fld := ⟨0x000, 0x81C + 0x4 * j, 0, 32, false⟩
abbrev K.CLK_OVERRUN_ROUNDS : Ctr := ⟨0x000, 0⟩
abbrev K.CLK_DEFER (j : Nat) : Ctr := ⟨0x000, 0 + 1 * j⟩
abbrev K.CLK_MAX_END_NS : Ctr := ⟨0x000, 8⟩
abbrev K.CLK_ALIGN_CORRECTIONS : Ctr := ⟨0x000, 9⟩
abbrev K.CLK_PROMOTIONS : Ctr := ⟨0x000, 10⟩
abbrev K.CLK_ROUNDS_COUNTED : Ctr := ⟨0x000, 11⟩
abbrev F.HP_EV_LINK_CHANGE (i : Nat) : Fld := ⟨0x200 + 4 * i, 0x010, 0, 1, false⟩
abbrev F.HP_EV_ROLE_CHANGE (i : Nat) : Fld := ⟨0x200 + 4 * i, 0x010, 1, 1, false⟩
abbrev F.HP_EV_DEGRADED (i : Nat) : Fld := ⟨0x200 + 4 * i, 0x010, 2, 1, false⟩
abbrev F.HP_EV_OWN_CONFLICT (i : Nat) : Fld := ⟨0x200 + 4 * i, 0x010, 3, 1, false⟩
abbrev F.HP_PORT_CFG_BIFURC (i : Nat) : Fld := ⟨0x200 + 4 * i, 0x100, 0, 2, false⟩
abbrev F.HP_PORT_CFG_MAX_RATE (i : Nat) : Fld := ⟨0x200 + 4 * i, 0x100, 4, 3, false⟩
abbrev F.HP_PORT_CFG_LANE_REV_EN (i : Nat) : Fld := ⟨0x200 + 4 * i, 0x100, 8, 1, false⟩
abbrev F.HP_PORT_CFG_FLIT68_EN (i : Nat) : Fld := ⟨0x200 + 4 * i, 0x100, 9, 1, false⟩
abbrev F.HP_PORT_CFG_LOPT_EN (i : Nat) : Fld := ⟨0x200 + 4 * i, 0x100, 10, 1, false⟩
abbrev F.HP_PORT_CFG_L1_EN (i : Nat) : Fld := ⟨0x200 + 4 * i, 0x100, 11, 1, false⟩
abbrev F.HP_DEGRADE_CFG_MIN_WIDTH (i : Nat) : Fld := ⟨0x200 + 4 * i, 0x104, 0, 3, false⟩
abbrev F.HP_DEGRADE_CFG_MIN_RATE (i : Nat) : Fld := ⟨0x200 + 4 * i, 0x104, 4, 3, false⟩
abbrev F.HP_SPARE_MAP_LANE_OFF (i : Nat) : Fld := ⟨0x200 + 4 * i, 0x108, 0, 16, true⟩
abbrev F.HP_PORT_STATUS_ROLE (i : Nat) : Fld := ⟨0x200 + 4 * i, 0x800, 0, 2, false⟩
abbrev F.HP_PORT_STATUS_OWN_OUT (i : Nat) : Fld := ⟨0x200 + 4 * i, 0x800, 2, 1, false⟩
abbrev F.HP_PORT_STATUS_OWN_IN (i : Nat) : Fld := ⟨0x200 + 4 * i, 0x800, 3, 1, false⟩
abbrev F.HP_PORT_STATUS_GUARD_MET (i : Nat) : Fld := ⟨0x200 + 4 * i, 0x800, 4, 1, false⟩
abbrev F.HP_PORT_STATUS_BIFURC_APPLIED (i : Nat) : Fld := ⟨0x200 + 4 * i, 0x800, 8, 2, false⟩
abbrev F.HP_LANE_ACTIVE (i : Nat) : Fld := ⟨0x200 + 4 * i, 0x804, 0, 16, false⟩
abbrev F.HP_LANE_FAULT (i : Nat) : Fld := ⟨0x200 + 4 * i, 0x808, 0, 16, false⟩
abbrev K.HP_LINK_UPS (i : Nat) : Ctr := ⟨0x200 + 4 * i, 0⟩
abbrev K.HP_RECOVERIES (i : Nat) : Ctr := ⟨0x200 + 4 * i, 1⟩
abbrev K.HP_ROLE_CHANGES (i : Nat) : Ctr := ⟨0x200 + 4 * i, 2⟩
abbrev K.HP_DEGRADES (i : Nat) : Ctr := ⟨0x200 + 4 * i, 3⟩
abbrev K.HP_OWN_CONFLICTS (i : Nat) : Ctr := ⟨0x200 + 4 * i, 4⟩
abbrev F.CARB_EV_TRACK_LOST (i : Nat) : Fld := ⟨0x201 + 4 * i, 0x010, 0, 1, false⟩
abbrev F.CARB_EV_TRACK_ACQUIRED (i : Nat) : Fld := ⟨0x201 + 4 * i, 0x010, 1, 1, false⟩
abbrev F.CARB_CARBON_CFG_ACQ_LIMIT (i : Nat) : Fld := ⟨0x201 + 4 * i, 0x100, 0, 10, false⟩
abbrev F.CARB_CARBON_STATE (i : Nat) (j : Nat) : Fld := ⟨0x201 + 4 * i, 0x800 + 0x10 * j, 0, 2, false⟩
abbrev F.CARB_CARBON_SHADOW_LTSSM (i : Nat) (j : Nat) : Fld := ⟨0x201 + 4 * i, 0x800 + 0x10 * j, 4, 4, false⟩
abbrev F.CARB_CARBON_RATE (i : Nat) (j : Nat) : Fld := ⟨0x201 + 4 * i, 0x800 + 0x10 * j, 8, 3, false⟩
abbrev F.CARB_CARBON_LOCK_HOST (i : Nat) (j : Nat) : Fld := ⟨0x201 + 4 * i, 0x800 + 0x10 * j, 16, 1, false⟩
abbrev F.CARB_CARBON_LOCK_TAP (i : Nat) (j : Nat) : Fld := ⟨0x201 + 4 * i, 0x800 + 0x10 * j, 17, 1, false⟩
abbrev F.CARB_TXCOEF_PRE (i : Nat) (j : Nat) : Fld := ⟨0x201 + 4 * i, 0x804 + 0x10 * j, 0, 6, false⟩
abbrev F.CARB_TXCOEF_MAIN (i : Nat) (j : Nat) : Fld := ⟨0x201 + 4 * i, 0x804 + 0x10 * j, 6, 6, false⟩
abbrev F.CARB_TXCOEF_POST (i : Nat) (j : Nat) : Fld := ⟨0x201 + 4 * i, 0x804 + 0x10 * j, 12, 6, false⟩
abbrev F.CARB_FETCH_PENDING (i : Nat) (j : Nat) : Fld := ⟨0x201 + 4 * i, 0x808 + 0x10 * j, 0, 8, false⟩
abbrev K.CARB_FETCHES (i : Nat) (j : Nat) : Ctr := ⟨0x201 + 4 * i, 0 + 4 * j⟩
abbrev K.CARB_LOSSES (i : Nat) (j : Nat) : Ctr := ⟨0x201 + 4 * i, 1 + 4 * j⟩
abbrev K.CARB_ACQUIRES (i : Nat) (j : Nat) : Ctr := ⟨0x201 + 4 * i, 2 + 4 * j⟩
abbrev K.CARB_ACQ_NS_MAX (i : Nat) (j : Nat) : Ctr := ⟨0x201 + 4 * i, 3 + 4 * j⟩
abbrev F.LANE_HOST_LANE_LOCK (i : Nat) (j : Nat) : Fld := ⟨0x202 + 4 * i, 0x800 + 0x4 * j, 0, 1, false⟩
abbrev F.LANE_HOST_LANE_DETECTED (i : Nat) (j : Nat) : Fld := ⟨0x202 + 4 * i, 0x800 + 0x4 * j, 1, 1, false⟩
abbrev F.LANE_HOST_LANE_MARGIN (i : Nat) (j : Nat) : Fld := ⟨0x202 + 4 * i, 0x800 + 0x4 * j, 8, 8, false⟩
abbrev F.LANE_TAP_LANE_LOCK (i : Nat) (j : Nat) : Fld := ⟨0x202 + 4 * i, 0x840 + 0x4 * j, 0, 1, false⟩
abbrev F.LANE_TAP_LANE_MARGIN (i : Nat) (j : Nat) : Fld := ⟨0x202 + 4 * i, 0x840 + 0x4 * j, 8, 8, false⟩
abbrev K.LANE_HOST_SYM_ERR (i : Nat) (j : Nat) : Ctr := ⟨0x202 + 4 * i, 0 + 1 * j⟩
abbrev K.LANE_TAP_SYM_ERR (i : Nat) (j : Nat) : Ctr := ⟨0x202 + 4 * i, 16 + 1 * j⟩
abbrev F.HIST_EV_HISTORY_FULL (i : Nat) : Fld := ⟨0x203 + 4 * i, 0x010, 0, 1, false⟩
abbrev F.HIST_RX_HIST_USE (i : Nat) (j : Nat) : Fld := ⟨0x203 + 4 * i, 0x800 + 0x10 * j, 0, 12, false⟩
abbrev F.HIST_TX_HIST_USE (i : Nat) (j : Nat) : Fld := ⟨0x203 + 4 * i, 0x804 + 0x10 * j, 0, 12, false⟩
abbrev F.HIST_WM_LAG_NS (i : Nat) (j : Nat) : Fld := ⟨0x203 + 4 * i, 0x808 + 0x10 * j, 0, 16, false⟩
abbrev K.HIST_HIST_FULL (i : Nat) (j : Nat) : Ctr := ⟨0x203 + 4 * i, 0 + 3 * j⟩
abbrev K.HIST_WM_LAG_MAX (i : Nat) (j : Nat) : Ctr := ⟨0x203 + 4 * i, 1 + 3 * j⟩
abbrev K.HIST_FETCH_SERVED (i : Nat) (j : Nat) : Ctr := ⟨0x203 + 4 * i, 2 + 3 * j⟩
abbrev F.HCFG_EV_HOT_RESET (i : Nat) : Fld := ⟨0x240 + 2 * i, 0x010, 0, 1, false⟩
abbrev F.HCFG_EV_DECODER_ERROR (i : Nat) : Fld := ⟨0x240 + 2 * i, 0x010, 1, 1, false⟩
abbrev F.HCFG_EV_UNMAPPED_ACCESS (i : Nat) : Fld := ⟨0x240 + 2 * i, 0x010, 2, 1, false⟩
abbrev F.HCFG_EV_LOG_OVERFLOW (i : Nat) : Fld := ⟨0x240 + 2 * i, 0x010, 3, 1, false⟩
abbrev F.HCFG_EV_GPF_DONE (i : Nat) : Fld := ⟨0x240 + 2 * i, 0x010, 4, 1, false⟩
abbrev F.HCFG_HEAD_CFG_VISIBLE (i : Nat) : Fld := ⟨0x240 + 2 * i, 0x100, 0, 1, false⟩
abbrev F.HCFG_EVENT_CFG_PAGE_EVENTS (i : Nat) : Fld := ⟨0x240 + 2 * i, 0x104, 0, 1, true⟩
abbrev F.HCFG_MSIX_MOD_COUNT (i : Nat) (j : Nat) : Fld := ⟨0x240 + 2 * i, 0x200 + 0x4 * j, 0, 8, true⟩
abbrev F.HCFG_MSIX_MOD_TIME_US (i : Nat) (j : Nat) : Fld := ⟨0x240 + 2 * i, 0x200 + 0x4 * j, 8, 16, true⟩
abbrev F.HCFG_DECODERS_COMMITTED (i : Nat) : Fld := ⟨0x240 + 2 * i, 0x800, 0, 16, false⟩
abbrev F.HCFG_DECODERS_ERROR (i : Nat) : Fld := ⟨0x240 + 2 * i, 0x800, 16, 16, false⟩
abbrev F.HCFG_LAST_DEC_ERR_DECODER (i : Nat) : Fld := ⟨0x240 + 2 * i, 0x804, 0, 4, false⟩
abbrev F.HCFG_LAST_DEC_ERR_REASON (i : Nat) : Fld := ⟨0x240 + 2 * i, 0x804, 8, 4, false⟩
abbrev F.HCFG_LOG_FILL_INFO (i : Nat) : Fld := ⟨0x240 + 2 * i, 0x808, 0, 8, false⟩
abbrev F.HCFG_LOG_FILL_WARN (i : Nat) : Fld := ⟨0x240 + 2 * i, 0x808, 8, 8, false⟩
abbrev F.HCFG_LOG_FILL_FAIL (i : Nat) : Fld := ⟨0x240 + 2 * i, 0x808, 16, 8, false⟩
abbrev F.HCFG_LOG_FILL_FATAL (i : Nat) : Fld := ⟨0x240 + 2 * i, 0x808, 24, 8, false⟩
abbrev K.HCFG_UNMAPPED_READS (i : Nat) : Ctr := ⟨0x240 + 2 * i, 0⟩
abbrev K.HCFG_UNMAPPED_WRITES (i : Nat) : Ctr := ⟨0x240 + 2 * i, 1⟩
abbrev K.HCFG_HOT_RESETS (i : Nat) : Ctr := ⟨0x240 + 2 * i, 2⟩
abbrev K.HCFG_EVENTS_DROPPED (i : Nat) : Ctr := ⟨0x240 + 2 * i, 3⟩
abbrev K.HCFG_MSIX_SENT (i : Nat) : Ctr := ⟨0x240 + 2 * i, 4⟩
abbrev K.HCFG_MSIX_HELD (i : Nat) : Ctr := ⟨0x240 + 2 * i, 5⟩
abbrev K.HCFG_MAILBOX_CMDS (i : Nat) : Ctr := ⟨0x240 + 2 * i, 6⟩
abbrev K.HCFG_MAILBOX_RETRY (i : Nat) : Ctr := ⟨0x240 + 2 * i, 7⟩
abbrev F.HLNK_LINK_LTSSM (i : Nat) : Fld := ⟨0x241 + 2 * i, 0x800, 0, 4, false⟩
abbrev F.HLNK_LINK_RATE (i : Nat) : Fld := ⟨0x241 + 2 * i, 0x800, 4, 3, false⟩
abbrev F.HLNK_LINK_WIDTH (i : Nat) : Fld := ⟨0x241 + 2 * i, 0x800, 8, 3, false⟩
abbrev F.HLNK_LINK_FLIT (i : Nat) : Fld := ⟨0x241 + 2 * i, 0x800, 11, 2, false⟩
abbrev F.HLNK_LINK_REVERSED (i : Nat) : Fld := ⟨0x241 + 2 * i, 0x800, 13, 1, false⟩
abbrev F.HLNK_LINK_IDE_IO (i : Nat) : Fld := ⟨0x241 + 2 * i, 0x800, 14, 1, false⟩
abbrev F.HLNK_LINK_IDE_MEM (i : Nat) : Fld := ⟨0x241 + 2 * i, 0x800, 15, 1, false⟩
abbrev F.HLNK_LINK_D_STATE (i : Nat) : Fld := ⟨0x241 + 2 * i, 0x800, 16, 2, false⟩
abbrev F.HLNK_LINK_MEM_ACTIVE (i : Nat) : Fld := ⟨0x241 + 2 * i, 0x800, 18, 1, false⟩
abbrev F.HLNK_LAST_RECOVERY_NS (i : Nat) : Fld := ⟨0x241 + 2 * i, 0x804, 0, 32, false⟩
abbrev K.HLNK_MEM_READS (i : Nat) : Ctr := ⟨0x241 + 2 * i, 0⟩
abbrev K.HLNK_MEM_WRITES (i : Nat) : Ctr := ⟨0x241 + 2 * i, 1⟩
abbrev K.HLNK_IO_REQUESTS (i : Nat) : Ctr := ⟨0x241 + 2 * i, 2⟩
abbrev K.HLNK_FLITS_RX (i : Nat) : Ctr := ⟨0x241 + 2 * i, 3⟩
abbrev K.HLNK_FLITS_TX (i : Nat) : Ctr := ⟨0x241 + 2 * i, 4⟩
abbrev K.HLNK_REPLAYS_TX (i : Nat) : Ctr := ⟨0x241 + 2 * i, 5⟩
abbrev K.HLNK_NAKS_RX (i : Nat) : Ctr := ⟨0x241 + 2 * i, 6⟩
abbrev K.HLNK_RECOVERIES (i : Nat) : Ctr := ⟨0x241 + 2 * i, 7⟩
abbrev K.HLNK_RECOVERY_NS_MAX (i : Nat) : Ctr := ⟨0x241 + 2 * i, 8⟩
abbrev K.HLNK_CMPL_NS_MAX (i : Nat) : Ctr := ⟨0x241 + 2 * i, 9⟩
abbrev K.HLNK_CMPL_OVER_150US (i : Nat) : Ctr := ⟨0x241 + 2 * i, 10⟩
abbrev K.HLNK_FEC_CORRECTED (i : Nat) : Ctr := ⟨0x241 + 2 * i, 11⟩
abbrev K.HLNK_CRC_ERRORS (i : Nat) : Ctr := ⟨0x241 + 2 * i, 12⟩
abbrev F.SRT_EV_TAG_LIMIT : Fld := ⟨0x050, 0x010, 0, 1, false⟩
abbrev F.SRT_EV_REGULATED : Fld := ⟨0x050, 0x010, 1, 1, false⟩
abbrev F.SRT_EV_POISON_SENT : Fld := ⟨0x050, 0x010, 2, 1, false⟩
abbrev F.SRT_SRT_CFG_SPEC_EN : Fld := ⟨0x050, 0x100, 0, 1, false⟩
abbrev F.SRT_HEAD_TAG_MAX (j : Nat) : Fld := ⟨0x050, 0x200 + 0x10 * j, 0, 10, false⟩
abbrev F.SRT_HEAD_RD_RATE (j : Nat) : Fld := ⟨0x050, 0x204 + 0x10 * j, 0, 16, true⟩
abbrev F.SRT_HEAD_WR_RATE (j : Nat) : Fld := ⟨0x050, 0x208 + 0x10 * j, 0, 16, true⟩
abbrev F.SRT_HEAD_RD_DEPTH (j : Nat) : Fld := ⟨0x050, 0x20C + 0x10 * j, 0, 8, true⟩
abbrev F.SRT_HEAD_WR_DEPTH (j : Nat) : Fld := ⟨0x050, 0x20C + 0x10 * j, 16, 8, true⟩
abbrev F.SRT_TAGS_IN_USE (j : Nat) : Fld := ⟨0x050, 0x800 + 0x4 * j, 0, 10, false⟩
abbrev F.SRT_TAGS_HOME (j : Nat) : Fld := ⟨0x050, 0x800 + 0x4 * j, 16, 1, false⟩
abbrev F.SRT_TAGS_TOTAL : Fld := ⟨0x050, 0x860, 0, 14, false⟩
abbrev F.SRT_TOKENS_RD (j : Nat) : Fld := ⟨0x050, 0x880 + 0x4 * j, 0, 16, false⟩
abbrev F.SRT_TOKENS_WR (j : Nat) : Fld := ⟨0x050, 0x880 + 0x4 * j, 16, 16, false⟩
abbrev K.SRT_TAG_PEAK (j : Nat) : Ctr := ⟨0x050, 0 + 1 * j⟩
abbrev K.SRT_RD_WAIT (j : Nat) : Ctr := ⟨0x050, 24 + 1 * j⟩
abbrev K.SRT_WR_WAIT (j : Nat) : Ctr := ⟨0x050, 48 + 1 * j⟩
abbrev K.SRT_POISON_SENT : Ctr := ⟨0x050, 72⟩
abbrev K.SRT_SAME_LINE_HOLDS : Ctr := ⟨0x050, 73⟩
abbrev K.SRT_WMB_FORWARDS : Ctr := ⟨0x050, 74⟩
abbrev K.SRT_SPEC_DROPPED : Ctr := ⟨0x050, 75⟩
abbrev F.PBX_EV_RING_ERROR : Fld := ⟨0x051, 0x010, 0, 1, false⟩
abbrev F.PBX_EV_DOORBELL_DENIED : Fld := ⟨0x051, 0x010, 1, 1, false⟩
abbrev F.PBX_EV_CMP_STALL : Fld := ⟨0x051, 0x010, 2, 1, false⟩
abbrev F.PBX_RING_CMD_BASE_LO (j : Nat) : Fld := ⟨0x051, 0x100 + 0x10 * j, 12, 20, true⟩
abbrev F.PBX_RING_CMD_BASE_HI (j : Nat) : Fld := ⟨0x051, 0x104 + 0x10 * j, 0, 16, true⟩
abbrev F.PBX_RING_CMD_LOG2 (j : Nat) : Fld := ⟨0x051, 0x104 + 0x10 * j, 16, 4, true⟩
abbrev F.PBX_RING_CMP_LOG2 (j : Nat) : Fld := ⟨0x051, 0x104 + 0x10 * j, 20, 4, true⟩
abbrev F.PBX_RING_VECTOR (j : Nat) : Fld := ⟨0x051, 0x104 + 0x10 * j, 24, 6, true⟩
abbrev F.PBX_RING_CMP_BASE_LO (j : Nat) : Fld := ⟨0x051, 0x108 + 0x10 * j, 12, 20, true⟩
abbrev F.PBX_RING_CMP_BASE_HI (j : Nat) : Fld := ⟨0x051, 0x10C + 0x10 * j, 0, 16, true⟩
abbrev F.PBX_RING_OWNER (j : Nat) : Fld := ⟨0x051, 0x10C + 0x10 * j, 16, 5, true⟩
abbrev F.PBX_RING_ENABLE (j : Nat) : Fld := ⟨0x051, 0x10C + 0x10 * j, 31, 1, true⟩
abbrev F.PBX_DB_CMD_TAIL (j : Nat) : Fld := ⟨0x051, 0x500 + 0x8 * j, 0, 16, true⟩
abbrev F.PBX_DB_CMP_HEAD (j : Nat) : Fld := ⟨0x051, 0x504 + 0x8 * j, 0, 16, true⟩
abbrev F.PBX_RING_STATUS_CMD_HEAD (j : Nat) : Fld := ⟨0x051, 0x800 + 0x8 * j, 0, 16, false⟩
abbrev F.PBX_RING_STATUS_STATE (j : Nat) : Fld := ⟨0x051, 0x800 + 0x8 * j, 16, 2, false⟩
abbrev F.PBX_RING_STATUS_ERR (j : Nat) : Fld := ⟨0x051, 0x800 + 0x8 * j, 20, 4, false⟩
abbrev F.PBX_RING_STATUS_CMP_TAIL (j : Nat) : Fld := ⟨0x051, 0x804 + 0x8 * j, 0, 16, false⟩
abbrev F.PBX_RING_STATUS_IN_PROGRESS (j : Nat) : Fld := ⟨0x051, 0x804 + 0x8 * j, 16, 7, false⟩
abbrev F.PBX_RING_STATUS_PHASE (j : Nat) : Fld := ⟨0x051, 0x804 + 0x8 * j, 24, 1, false⟩
abbrev K.PBX_CMDS (j : Nat) : Ctr := ⟨0x051, 0 + 1 * j⟩
abbrev K.PBX_DOORBELL_DENIED : Ctr := ⟨0x051, 64⟩
abbrev K.PBX_RING_ERRORS : Ctr := ⟨0x051, 65⟩
abbrev K.PBX_RETRY_AT_TAKEOVER : Ctr := ⟨0x051, 66⟩
abbrev K.PBX_CMP_WAIT_ROUNDS : Ctr := ⟨0x051, 67⟩
abbrev F.WMB_EV_UNCORRECTABLE : Fld := ⟨0x060, 0x010, 0, 1, false⟩
abbrev F.WMB_EV_UNMIRRORED : Fld := ⟨0x060, 0x010, 1, 1, false⟩
abbrev F.WMB_EV_LOCAL_STALL : Fld := ⟨0x060, 0x010, 2, 1, false⟩
abbrev F.WMB_EV_FULL : Fld := ⟨0x060, 0x010, 3, 1, false⟩
abbrev F.WMB_CMPL_LOCAL_LO : Fld := ⟨0x060, 0x100, 0, 32, true⟩
abbrev F.WMB_CMPL_LOCAL_HI : Fld := ⟨0x060, 0x104, 0, 32, true⟩
abbrev F.WMB_DRAIN_CFG_HOLD_NS : Fld := ⟨0x060, 0x108, 0, 12, true⟩
abbrev F.WMB_DRAIN_CFG_HIGH_PCT : Fld := ⟨0x060, 0x108, 16, 7, true⟩
abbrev F.WMB_LINES_USED : Fld := ⟨0x060, 0x800, 0, 19, false⟩
abbrev F.WMB_LINES_CHARGED : Fld := ⟨0x060, 0x804, 0, 19, false⟩
abbrev F.WMB_SHARE : Fld := ⟨0x060, 0x808, 0, 19, false⟩
abbrev F.WMB_OLDEST_LOCAL_NS : Fld := ⟨0x060, 0x80C, 0, 16, false⟩
abbrev K.WMB_WRITES_FULL : Ctr := ⟨0x060, 0⟩
abbrev K.WMB_WRITES_PARTIAL : Ctr := ⟨0x060, 1⟩
abbrev K.WMB_MERGES : Ctr := ⟨0x060, 2⟩
abbrev K.WMB_DRAINS : Ctr := ⟨0x060, 3⟩
abbrev K.WMB_REDRAINS : Ctr := ⟨0x060, 4⟩
abbrev K.WMB_CORRECTED_BYTES : Ctr := ⟨0x060, 5⟩
abbrev K.WMB_UNCORRECTED : Ctr := ⟨0x060, 6⟩
abbrev K.WMB_REPAIRED : Ctr := ⟨0x060, 7⟩
abbrev K.WMB_TWINACK_NS_MAX : Ctr := ⟨0x060, 8⟩
abbrev K.WMB_LOCAL_STALLS : Ctr := ⟨0x060, 9⟩
abbrev K.WMB_UNMIRRORED_CMPL : Ctr := ⟨0x060, 10⟩
abbrev K.WMB_FULL_WAITS : Ctr := ⟨0x060, 11⟩
abbrev K.WMB_POISON_WRITES : Ctr := ⟨0x060, 12⟩
abbrev F.ROLE_EV_TAKEOVER : Fld := ⟨0x070, 0x010, 0, 1, false⟩
abbrev F.ROLE_EV_PEER_FAILSTOP : Fld := ⟨0x070, 0x010, 1, 1, false⟩
abbrev F.ROLE_EV_PEER_SILENT : Fld := ⟨0x070, 0x010, 2, 1, false⟩
abbrev F.ROLE_EV_LINK_LOST : Fld := ⟨0x070, 0x010, 3, 1, false⟩
abbrev F.ROLE_EV_ISOLATED : Fld := ⟨0x070, 0x010, 4, 1, false⟩
abbrev F.ROLE_EV_PULSE_FAULT : Fld := ⟨0x070, 0x010, 5, 1, false⟩
abbrev F.ROLE_EV_COLD_TAKEOVER : Fld := ⟨0x070, 0x010, 6, 1, false⟩
abbrev F.ROLE_EV_HANDOVER_DONE : Fld := ⟨0x070, 0x010, 7, 1, false⟩
abbrev F.ROLE_EV_DRILL_REFUSED : Fld := ⟨0x070, 0x010, 8, 1, false⟩
abbrev F.ROLE_EV_MODE_CHANGE : Fld := ⟨0x070, 0x010, 9, 1, false⟩
abbrev F.ROLE_EV_START_LINK_DOWN : Fld := ⟨0x070, 0x010, 10, 1, false⟩
abbrev F.ROLE_PORT_HOME_B_HOME : Fld := ⟨0x070, 0x100, 0, 6, true⟩
abbrev F.ROLE_PORT_HOME_AUTO_RETURN : Fld := ⟨0x070, 0x100, 8, 1, false⟩
abbrev F.ROLE_DETECT_CFG_ISOLATE_LIMIT : Fld := ⟨0x070, 0x104, 0, 8, false⟩
abbrev F.ROLE_START_CFG_SOLO_ALLOW : Fld := ⟨0x070, 0x108, 0, 1, false⟩
abbrev F.ROLE_START_CFG_FORCE_ALONE : Fld := ⟨0x070, 0x108, 1, 1, false⟩
abbrev F.ROLE_START_CFG_SOLO_WAIT_S : Fld := ⟨0x070, 0x108, 16, 10, false⟩
abbrev F.ROLE_TAKEOVER_PORT : Fld := ⟨0x070, 0x10C, 0, 3, true⟩
abbrev F.ROLE_TAKEOVER_DRILL : Fld := ⟨0x070, 0x10C, 4, 1, false⟩
abbrev F.ROLE_TAKEOVER_RETURN : Fld := ⟨0x070, 0x10C, 5, 1, true⟩
abbrev F.ROLE_TAKEOVER_HOLD_ROUNDS : Fld := ⟨0x070, 0x10C, 8, 16, true⟩
abbrev F.ROLE_FAILSTOP_NOW : Fld := ⟨0x070, 0x110, 0, 1, false⟩
abbrev F.ROLE_FENCE_RELEASE : Fld := ⟨0x070, 0x114, 0, 1, false⟩
abbrev F.ROLE_ROLE_PORT_0 : Fld := ⟨0x070, 0x800, 0, 3, false⟩
abbrev F.ROLE_ROLE_PORT_1 : Fld := ⟨0x070, 0x800, 3, 3, false⟩
abbrev F.ROLE_ROLE_PORT_2 : Fld := ⟨0x070, 0x800, 6, 3, false⟩
abbrev F.ROLE_ROLE_PORT_3 : Fld := ⟨0x070, 0x800, 9, 3, false⟩
abbrev F.ROLE_ROLE_PORT_4 : Fld := ⟨0x070, 0x800, 12, 3, false⟩
abbrev F.ROLE_ROLE_PORT_5 : Fld := ⟨0x070, 0x800, 15, 3, false⟩
abbrev F.ROLE_PAIR_STATE_MODE : Fld := ⟨0x070, 0x804, 0, 3, false⟩
abbrev F.ROLE_PAIR_STATE_PEER_ALIVE : Fld := ⟨0x070, 0x804, 8, 1, false⟩
abbrev F.ROLE_PAIR_STATE_PULSE_OK : Fld := ⟨0x070, 0x804, 9, 1, false⟩
abbrev F.ROLE_PAIR_STATE_DEAD_SEEN : Fld := ⟨0x070, 0x804, 10, 1, false⟩
abbrev F.ROLE_PAIR_STATE_FENCE_OUT : Fld := ⟨0x070, 0x804, 11, 1, false⟩
abbrev F.ROLE_PAIR_STATE_HB_LOST : Fld := ⟨0x070, 0x804, 16, 8, false⟩
abbrev F.ROLE_PAIR_STATE_PULSE_LOST : Fld := ⟨0x070, 0x804, 24, 8, false⟩
abbrev F.ROLE_DRILL_STATUS_STATE : Fld := ⟨0x070, 0x808, 0, 2, false⟩
abbrev F.ROLE_DRILL_STATUS_CODE : Fld := ⟨0x070, 0x808, 8, 8, false⟩
abbrev F.ROLE_LAST_TAKEOVER_NS : Fld := ⟨0x070, 0x80C, 0, 32, false⟩
abbrev F.ROLE_LAST_TAKEOVER_ROUND_LO : Fld := ⟨0x070, 0x810, 0, 32, false⟩
abbrev F.ROLE_PAIR_EPOCH_LO : Fld := ⟨0x070, 0x814, 0, 32, false⟩
abbrev F.ROLE_PAIR_EPOCH_HI : Fld := ⟨0x070, 0x818, 0, 32, false⟩
abbrev F.ROLE_FAILSTOP_COUNT : Fld := ⟨0x070, 0x81C, 0, 2, false⟩
abbrev K.ROLE_TAKEOVERS : Ctr := ⟨0x070, 0⟩
abbrev K.ROLE_COLD_TAKEOVERS : Ctr := ⟨0x070, 1⟩
abbrev K.ROLE_HANDOVERS : Ctr := ⟨0x070, 2⟩
abbrev K.ROLE_DRILLS : Ctr := ⟨0x070, 3⟩
abbrev K.ROLE_HB_LOST_ROUNDS : Ctr := ⟨0x070, 4⟩
abbrev K.ROLE_PULSE_LOST_ROUNDS : Ctr := ⟨0x070, 5⟩
abbrev K.ROLE_TAKEOVER_NS_MAX : Ctr := ⟨0x070, 6⟩
abbrev K.ROLE_REPLAYED_FLITS : Ctr := ⟨0x070, 7⟩
abbrev K.ROLE_ANSWERED_REQUESTS : Ctr := ⟨0x070, 8⟩
abbrev F.PMK_EV_BRIDGING : Fld := ⟨0x071, 0x010, 0, 1, false⟩
abbrev F.PMK_EV_WM_LATE : Fld := ⟨0x071, 0x010, 1, 1, false⟩
abbrev F.PMK_EV_EFFECT_DISCARDED : Fld := ⟨0x071, 0x010, 2, 1, false⟩
abbrev F.PMK_BRIDGE_CFG_SHARE_PCT : Fld := ⟨0x071, 0x100, 0, 7, true⟩
abbrev F.PMK_PM_SEQ_TX : Fld := ⟨0x071, 0x800, 0, 32, false⟩
abbrev F.PMK_PM_SEQ_PEER_APPLIED : Fld := ⟨0x071, 0x804, 0, 32, false⟩
abbrev F.PMK_PM_SEQ_APPLIED : Fld := ⟨0x071, 0x808, 0, 32, false⟩
abbrev F.PMK_BRIDGE_TX : Fld := ⟨0x071, 0x80C, 0, 24, false⟩
abbrev F.PMK_BRIDGE_RX : Fld := ⟨0x071, 0x810, 0, 24, false⟩
abbrev F.PMK_WM_AGE_NS : Fld := ⟨0x071, 0x814, 0, 16, false⟩
abbrev K.PMK_RECORDS_TX : Ctr := ⟨0x071, 0⟩
abbrev K.PMK_RECORDS_RX : Ctr := ⟨0x071, 1⟩
abbrev K.PMK_FRAMES_LOST : Ctr := ⟨0x071, 2⟩
abbrev K.PMK_BRIDGED_WRITES : Ctr := ⟨0x071, 3⟩
abbrev K.PMK_ALIAS_APPLIED : Ctr := ⟨0x071, 4⟩
abbrev K.PMK_EFFECTS_APPLIED : Ctr := ⟨0x071, 5⟩
abbrev K.PMK_EFFECTS_DISCARDED : Ctr := ⟨0x071, 6⟩
abbrev F.REP_EV_REPAIR_FAILED : Fld := ⟨0x072, 0x010, 0, 1, false⟩
abbrev F.REP_EV_CSIGN_MISMATCH : Fld := ⟨0x072, 0x010, 1, 1, false⟩
abbrev F.REP_EV_HOME_COPY_BAD : Fld := ⟨0x072, 0x010, 2, 1, false⟩
abbrev F.REP_CSIGN_CFG_ENABLE : Fld := ⟨0x072, 0x100, 0, 1, true⟩
abbrev F.REP_CSIGN_CFG_RATE_LOG2 : Fld := ⟨0x072, 0x100, 8, 4, true⟩
abbrev F.REP_REPAIR_CFG_BACKTIER_EN : Fld := ⟨0x072, 0x104, 0, 1, true⟩
abbrev F.REP_REPAIRS_PENDING : Fld := ⟨0x072, 0x800, 0, 7, false⟩
abbrev F.REP_LAST_MISMATCH_LO : Fld := ⟨0x072, 0x804, 0, 32, false⟩
abbrev F.REP_LAST_MISMATCH_HI : Fld := ⟨0x072, 0x808, 0, 16, false⟩
abbrev K.REP_REPAIR_REQUESTS : Ctr := ⟨0x072, 0⟩
abbrev K.REP_REPAIR_FROM_TWIN : Ctr := ⟨0x072, 1⟩
abbrev K.REP_REPAIR_FROM_BACK : Ctr := ⟨0x072, 2⟩
abbrev K.REP_REPAIR_FAILED : Ctr := ⟨0x072, 3⟩
abbrev K.REP_REPAIR_SERVED : Ctr := ⟨0x072, 4⟩
abbrev K.REP_REPAIR_NS_MAX : Ctr := ⟨0x072, 5⟩
abbrev K.REP_CSIGN_SAMPLES : Ctr := ⟨0x072, 6⟩
abbrev K.REP_CSIGN_MISMATCHES : Ctr := ⟨0x072, 7⟩
abbrev K.REP_CSIGN_CARBON_FIXED : Ctr := ⟨0x072, 8⟩
abbrev K.REP_CSIGN_HOME_FIXED : Ctr := ⟨0x072, 9⟩
abbrev F.RSY_EV_RESYNC_START : Fld := ⟨0x073, 0x010, 0, 1, false⟩
abbrev F.RSY_EV_RESYNC_DONE : Fld := ⟨0x073, 0x010, 1, 1, false⟩
abbrev F.RSY_EV_RESYNC_ABORTED : Fld := ⟨0x073, 0x010, 2, 1, false⟩
abbrev F.RSY_EV_SPEAKER_MOVED : Fld := ⟨0x073, 0x010, 3, 1, false⟩
abbrev F.RSY_RESYNC_CFG_MEDIA_SHARE_PCT : Fld := ⟨0x073, 0x100, 0, 7, true⟩
abbrev F.RSY_RESYNC_CFG_FORCE_FULL : Fld := ⟨0x073, 0x100, 8, 1, false⟩
abbrev F.RSY_SPEAKER_CFG_PREF : Fld := ⟨0x073, 0x104, 0, 1, false⟩
abbrev F.RSY_RESYNC_STATE : Fld := ⟨0x073, 0x800, 0, 3, false⟩
abbrev F.RSY_RESYNC_KIND : Fld := ⟨0x073, 0x800, 4, 1, false⟩
abbrev F.RSY_RESYNC_JOINER : Fld := ⟨0x073, 0x800, 8, 1, false⟩
abbrev F.RSY_EXTENTS_TOTAL : Fld := ⟨0x073, 0x804, 0, 28, false⟩
abbrev F.RSY_EXTENTS_DONE : Fld := ⟨0x073, 0x808, 0, 28, false⟩
abbrev F.RSY_ETA_S : Fld := ⟨0x073, 0x80C, 0, 32, false⟩
abbrev F.RSY_CHANGEMAP_MARKED : Fld := ⟨0x073, 0x810, 0, 28, false⟩
abbrev F.RSY_SPEAKER_IS_SPEAKER : Fld := ⟨0x073, 0x814, 0, 1, false⟩
abbrev F.RSY_SPEAKER_SAVED_DELIVERY : Fld := ⟨0x073, 0x818, 0, 32, false⟩
abbrev F.RSY_CHANGEMAP_BASE_EPOCH_LO : Fld := ⟨0x073, 0x81C, 0, 32, false⟩
abbrev F.RSY_CHANGEMAP_BASE_EPOCH_HI : Fld := ⟨0x073, 0x820, 0, 32, false⟩
abbrev K.RSY_RESYNC_BYTES : Ctr := ⟨0x073, 0⟩
abbrev K.RSY_EXTENTS_COPIED : Ctr := ⟨0x073, 1⟩
abbrev K.RSY_CHANGEMAP_MARKS : Ctr := ⟨0x073, 2⟩
abbrev K.RSY_SPEAKER_SAVES : Ctr := ⟨0x073, 3⟩
abbrev F.CXK_EV_LINK_DOWN : Fld := ⟨0x080, 0x010, 0, 1, false⟩
abbrev F.CXK_EV_LINK_UP : Fld := ⟨0x080, 0x010, 1, 1, false⟩
abbrev F.CXK_EV_LANE_SPARED : Fld := ⟨0x080, 0x010, 2, 1, false⟩
abbrev F.CXK_EV_DEGRADED : Fld := ⟨0x080, 0x010, 3, 1, false⟩
abbrev F.CXK_EV_AUTH_FAIL : Fld := ⟨0x080, 0x010, 4, 1, false⟩
abbrev F.CXK_EV_DOUBLE_LOSS : Fld := ⟨0x080, 0x010, 5, 1, false⟩
abbrev F.CXK_CXK_CFG_MIN_LANES : Fld := ⟨0x080, 0x100, 0, 5, false⟩
abbrev F.CXK_CXK_CFG_SPARE_EN : Fld := ⟨0x080, 0x100, 8, 1, true⟩
abbrev F.CXK_SPARE_THRESH : Fld := ⟨0x080, 0x104, 0, 24, true⟩
abbrev F.CXK_LINK_STATE : Fld := ⟨0x080, 0x800, 0, 2, false⟩
abbrev F.CXK_LINK_LANES : Fld := ⟨0x080, 0x800, 8, 5, false⟩
abbrev F.CXK_LANES_ACTIVE : Fld := ⟨0x080, 0x804, 0, 18, false⟩
abbrev F.CXK_LANES_FAILED : Fld := ⟨0x080, 0x808, 0, 18, false⟩
abbrev F.CXK_DELAY_NS : Fld := ⟨0x080, 0x80C, 0, 16, false⟩
abbrev F.CXK_KEY_EPOCH : Fld := ⟨0x080, 0x810, 0, 32, false⟩
abbrev F.CXK_REPLAY_USE : Fld := ⟨0x080, 0x814, 0, 10, false⟩
abbrev K.CXK_ENV_TX : Ctr := ⟨0x080, 0⟩
abbrev K.CXK_ENV_RX : Ctr := ⟨0x080, 1⟩
abbrev K.CXK_FEC_CORRECTED : Ctr := ⟨0x080, 2⟩
abbrev K.CXK_FEC_UNCORRECTED : Ctr := ⟨0x080, 3⟩
abbrev K.CXK_AUTH_FAILS : Ctr := ⟨0x080, 4⟩
abbrev K.CXK_REPLAYS : Ctr := ⟨0x080, 5⟩
abbrev K.CXK_DOUBLE_LOSSES : Ctr := ⟨0x080, 6⟩
abbrev K.CXK_LINK_DOWNS : Ctr := ⟨0x080, 7⟩
abbrev K.CXK_LANE_SPARES : Ctr := ⟨0x080, 8⟩
abbrev K.CXK_REKEYS : Ctr := ⟨0x080, 9⟩
abbrev K.CXK_BYTES_CLASS (j : Nat) : Ctr := ⟨0x080, 10 + 1 * j⟩
abbrev F.CXLANE_LANE_LOCK (j : Nat) : Fld := ⟨0x081, 0x800 + 0x4 * j, 0, 1, false⟩
abbrev F.CXLANE_LANE_IN_USE (j : Nat) : Fld := ⟨0x081, 0x800 + 0x4 * j, 1, 1, false⟩
abbrev F.CXLANE_LANE_RETIRED (j : Nat) : Fld := ⟨0x081, 0x800 + 0x4 * j, 2, 1, false⟩
abbrev F.CXLANE_LANE_MARGIN (j : Nat) : Fld := ⟨0x081, 0x800 + 0x4 * j, 8, 8, false⟩
abbrev K.CXLANE_SYM_CORR (j : Nat) : Ctr := ⟨0x081, 0 + 1 * j⟩
abbrev K.CXLANE_LOCK_LOSS (j : Nat) : Ctr := ⟨0x081, 18 + 1 * j⟩
abbrev F.DIR_EV_OVERFLOW_EVICT : Fld := ⟨0x090, 0x010, 0, 1, false⟩
abbrev F.DIR_EV_ENTRY_REBUILT : Fld := ⟨0x090, 0x010, 1, 1, false⟩
abbrev F.DIR_DIR_CFG_SALT : Fld := ⟨0x090, 0x100, 0, 17, false⟩
abbrev F.DIR_DIR_CFG_AGE_SHIFT : Fld := ⟨0x090, 0x100, 20, 4, false⟩
abbrev F.DIR_ENTRIES_USED : Fld := ⟨0x090, 0x800, 0, 22, false⟩
abbrev F.DIR_VICTIMS_PENDING : Fld := ⟨0x090, 0x804, 0, 7, false⟩
abbrev F.DIR_SHADOW_USED : Fld := ⟨0x090, 0x808, 0, 23, false⟩
abbrev F.DIR_MIGRATE_LEFT : Fld := ⟨0x090, 0x80C, 0, 22, false⟩
abbrev K.DIR_ALLOCS : Ctr := ⟨0x090, 0⟩
abbrev K.DIR_FREES : Ctr := ⟨0x090, 1⟩
abbrev K.DIR_VICTIMS : Ctr := ⟨0x090, 2⟩
abbrev K.DIR_VICTIM_WAITS : Ctr := ⟨0x090, 3⟩
abbrev K.DIR_ENTRY_REBUILDS : Ctr := ⟨0x090, 4⟩
abbrev F.COM_EV_ARBITER_MOVED : Fld := ⟨0x091, 0x010, 0, 1, false⟩
abbrev F.COM_EV_HEADSET_REJECTED : Fld := ⟨0x091, 0x010, 1, 1, false⟩
abbrev F.COM_COMMONS_HEADS (j : Nat) : Fld := ⟨0x091, 0x100 + 0x8 * j, 0, 24, true⟩
abbrev F.COM_COMMONS_ARBITER (j : Nat) : Fld := ⟨0x091, 0x104 + 0x8 * j, 0, 1, true⟩
abbrev F.COM_COMMONS_GRANT_E (j : Nat) : Fld := ⟨0x091, 0x104 + 0x8 * j, 1, 1, true⟩
abbrev F.COM_ARB_ENTRIES (j : Nat) : Fld := ⟨0x091, 0x800 + 0x4 * j, 0, 22, false⟩
abbrev F.COM_ARB_IS_ARBITER (j : Nat) : Fld := ⟨0x091, 0x800 + 0x4 * j, 31, 1, false⟩
abbrev K.COM_ACCESSES (j : Nat) : Ctr := ⟨0x091, 0 + 1 * j⟩
abbrev K.COM_CONTENDED (j : Nat) : Ctr := ⟨0x091, 64 + 1 * j⟩
abbrev F.SNP_EV_SNOOP_TIMEOUT : Fld := ⟨0x092, 0x010, 0, 1, false⟩
abbrev F.SNP_SNOOP_CFG_TIMEOUT_US : Fld := ⟨0x092, 0x100, 0, 8, true⟩
abbrev F.SNP_SNOOPS_OUT (j : Nat) : Fld := ⟨0x092, 0x800 + 0x4 * j, 0, 13, false⟩
abbrev F.SNP_SNOOPS_OUT_TOTAL : Fld := ⟨0x092, 0x860, 0, 13, false⟩
abbrev K.SNP_BISNP_CUR : Ctr := ⟨0x092, 0⟩
abbrev K.SNP_BISNP_DATA : Ctr := ⟨0x092, 1⟩
abbrev K.SNP_BISNP_INV : Ctr := ⟨0x092, 2⟩
abbrev K.SNP_BIRSP_RX : Ctr := ⟨0x092, 3⟩
abbrev K.SNP_CONFLICTS : Ctr := ⟨0x092, 4⟩
abbrev K.SNP_WRITEBACKS : Ctr := ⟨0x092, 5⟩
abbrev K.SNP_SNOOP_TIMEOUTS : Ctr := ⟨0x092, 6⟩
abbrev K.SNP_SNOOP_NS_MAX : Ctr := ⟨0x092, 7⟩
abbrev F.ORD_EV_ORDER_TAKEOVER : Fld := ⟨0x093, 0x010, 0, 1, false⟩
abbrev F.ORD_UNSETTLED : Fld := ⟨0x093, 0x800, 0, 13, false⟩
abbrev F.ORD_AWAIT_ORDER : Fld := ⟨0x093, 0x804, 0, 13, false⟩
abbrev F.ORD_ORDER_AGE_NS : Fld := ⟨0x093, 0x808, 0, 16, false⟩
abbrev K.ORD_ACCESS_RECORDS : Ctr := ⟨0x093, 0⟩
abbrev K.ORD_SWEEP_RECORDS : Ctr := ⟨0x093, 1⟩
abbrev K.ORD_VICTIM_RECORDS : Ctr := ⟨0x093, 2⟩
abbrev K.ORD_RESPONSES_HELD : Ctr := ⟨0x093, 3⟩
abbrev K.ORD_ORDER_WAIT_NS_MAX : Ctr := ⟨0x093, 4⟩
abbrev K.ORD_ORDERED_AT_TAKEOVER : Ctr := ⟨0x093, 5⟩
abbrev F.TIER_EV_EVICT_DEFERRED : Fld := ⟨0x0A0, 0x010, 0, 1, false⟩
abbrev F.TIER_EV_POOL_LOW : Fld := ⟨0x0A0, 0x010, 1, 1, false⟩
abbrev F.TIER_EV_NO_VICTIM : Fld := ⟨0x0A0, 0x010, 2, 1, false⟩
abbrev F.TIER_EV_FILL_DONE : Fld := ⟨0x0A0, 0x010, 3, 1, false⟩
abbrev F.TIER_TRM_CFG_KEEPER : Fld := ⟨0x0A0, 0x100, 0, 1, false⟩
abbrev F.TIER_AUTO_CFG_HITS : Fld := ⟨0x0A0, 0x104, 0, 8, true⟩
abbrev F.TIER_AUTO_CFG_AGE_SHIFT : Fld := ⟨0x0A0, 0x104, 8, 4, false⟩
abbrev F.TIER_MIG_CFG_SLOTS : Fld := ⟨0x0A0, 0x108, 0, 7, true⟩
abbrev F.TIER_MIG_CFG_STEPS : Fld := ⟨0x0A0, 0x108, 8, 8, true⟩
abbrev F.TIER_MIG_RATE_PROMOTE_GBPS : Fld := ⟨0x0A0, 0x10C, 0, 8, true⟩
abbrev F.TIER_MIG_RATE_EVICT_GBPS : Fld := ⟨0x0A0, 0x10C, 8, 8, true⟩
abbrev F.TIER_POOL_CFG_LOW_PCT : Fld := ⟨0x0A0, 0x110, 0, 8, true⟩
abbrev F.TIER_POOL_CFG_HIGH_PCT : Fld := ⟨0x0A0, 0x110, 8, 8, true⟩
abbrev F.TIER_FILL_CFG_RATE_GBPS : Fld := ⟨0x0A0, 0x114, 0, 10, true⟩
abbrev F.TIER_CAPACITY_HOST_256M : Fld := ⟨0x0A0, 0x800, 0, 21, false⟩
abbrev F.TIER_POOL_FRAMES : Fld := ⟨0x0A0, 0x804, 0, 23, false⟩
abbrev F.TIER_POOL_FREE : Fld := ⟨0x0A0, 0x808, 0, 23, false⟩
abbrev F.TIER_FILL_RANGES_LEFT : Fld := ⟨0x0A0, 0x80C, 0, 22, false⟩
abbrev F.TIER_MIG_ACTIVE : Fld := ⟨0x0A0, 0x810, 0, 7, false⟩
abbrev F.TIER_MIG_QUEUED : Fld := ⟨0x0A0, 0x814, 0, 24, false⟩
abbrev F.TIER_IS_KEEPER : Fld := ⟨0x0A0, 0x818, 0, 1, false⟩
abbrev K.TIER_PROMOTIONS : Ctr := ⟨0x0A0, 0⟩
abbrev K.TIER_EVICTIONS : Ctr := ⟨0x0A0, 1⟩
abbrev K.TIER_EVICTIONS_CLEAN : Ctr := ⟨0x0A0, 2⟩
abbrev K.TIER_CLEANED_PARCELS : Ctr := ⟨0x0A0, 3⟩
abbrev K.TIER_ZERO_READS : Ctr := ⟨0x0A0, 4⟩
abbrev K.TIER_FILL_WAITS : Ctr := ⟨0x0A0, 5⟩
abbrev K.TIER_EVICT_DEFERRED : Ctr := ⟨0x0A0, 6⟩
abbrev K.TIER_DEFERRED_EVICTED : Ctr := ⟨0x0A0, 7⟩
abbrev K.TIER_DEFERRED_KEPT : Ctr := ⟨0x0A0, 8⟩
abbrev K.TIER_NO_VICTIM_ROUNDS : Ctr := ⟨0x0A0, 9⟩
abbrev K.TIER_PROMOTE_NS_MAX : Ctr := ⟨0x0A0, 10⟩
abbrev F.DOM_EV_DOMAIN_CHANGED : Fld := ⟨0x0A1, 0x010, 0, 1, false⟩
abbrev F.DOM_DOMAIN_BASE_256M (j : Nat) : Fld := ⟨0x0A1, 0x100 + 0x10 * j, 0, 20, true⟩
abbrev F.DOM_DOMAIN_VALID (j : Nat) : Fld := ⟨0x0A1, 0x100 + 0x10 * j, 31, 1, true⟩
abbrev F.DOM_DOMAIN_SIZE_256M (j : Nat) : Fld := ⟨0x0A1, 0x104 + 0x10 * j, 0, 21, true⟩
abbrev F.DOM_DOMAIN_KIND (j : Nat) : Fld := ⟨0x0A1, 0x108 + 0x10 * j, 0, 1, true⟩
abbrev F.DOM_DOMAIN_FRONT_PINNED (j : Nat) : Fld := ⟨0x0A1, 0x108 + 0x10 * j, 1, 1, true⟩
abbrev F.DOM_DOMAIN_DEFAULT_POLICY (j : Nat) : Fld := ⟨0x0A1, 0x108 + 0x10 * j, 2, 2, true⟩
abbrev F.DOM_DOMAIN_OWNER (j : Nat) : Fld := ⟨0x0A1, 0x108 + 0x10 * j, 8, 5, true⟩
abbrev F.DOM_DOMAIN_MIN_GIB (j : Nat) : Fld := ⟨0x0A1, 0x10C + 0x10 * j, 0, 16, true⟩
abbrev F.DOM_DOMAIN_CAP_GIB (j : Nat) : Fld := ⟨0x0A1, 0x10C + 0x10 * j, 16, 16, true⟩
abbrev F.DOM_VALID_LO : Fld := ⟨0x0A1, 0x800, 0, 32, false⟩
abbrev F.DOM_VALID_HI : Fld := ⟨0x0A1, 0x804, 0, 32, false⟩
abbrev F.POOL_EV_OVER_CAP : Fld := ⟨0x0A2, 0x010, 0, 1, false⟩
abbrev F.POOL_USE_FRAMES (j : Nat) : Fld := ⟨0x0A2, 0x800 + 0x8 * j, 0, 23, false⟩
abbrev F.POOL_USE_PINNED (j : Nat) : Fld := ⟨0x0A2, 0x804 + 0x8 * j, 0, 23, false⟩
abbrev F.POOL_USE_OVER_CAP (j : Nat) : Fld := ⟨0x0A2, 0x804 + 0x8 * j, 31, 1, false⟩
abbrev K.POOL_PROMOTIONS (j : Nat) : Ctr := ⟨0x0A2, 0 + 1 * j⟩
abbrev K.POOL_EVICTIONS (j : Nat) : Ctr := ⟨0x0A2, 64 + 1 * j⟩
abbrev F.PCH_EV_PATCH_LOW : Fld := ⟨0x0A3, 0x010, 0, 1, false⟩
abbrev F.PCH_EV_PATCH_FULL : Fld := ⟨0x0A3, 0x010, 1, 1, false⟩
abbrev F.PCH_PCACHE_CFG_LOG2_GIB : Fld := ⟨0x0A3, 0x100, 0, 4, false⟩
abbrev F.PCH_PCACHE_CFG_FILL_EN : Fld := ⟨0x0A3, 0x100, 8, 1, true⟩
abbrev F.PCH_PCACHE_SALT : Fld := ⟨0x0A3, 0x104, 0, 20, false⟩
abbrev F.PCH_PATCH_CFG_GIB : Fld := ⟨0x0A3, 0x108, 0, 10, false⟩
abbrev F.PCH_PATCH_CFG_LOW_PCT : Fld := ⟨0x0A3, 0x108, 16, 7, true⟩
abbrev F.PCH_PCACHE_VALID : Fld := ⟨0x0A3, 0x800, 0, 24, false⟩
abbrev F.PCH_PATCH_FREE : Fld := ⟨0x0A3, 0x804, 0, 28, false⟩
abbrev F.PCH_PATCH_LINES_HELD_LO : Fld := ⟨0x0A3, 0x808, 0, 32, false⟩
abbrev F.PCH_PATCH_LINES_HELD_HI : Fld := ⟨0x0A3, 0x80C, 0, 2, false⟩
abbrev K.PCH_PCACHE_HITS : Ctr := ⟨0x0A3, 0⟩
abbrev K.PCH_PCACHE_MISSES : Ctr := ⟨0x0A3, 1⟩
abbrev K.PCH_PCACHE_FILLS : Ctr := ⟨0x0A3, 2⟩
abbrev K.PCH_PCACHE_DISCARDED : Ctr := ⟨0x0A3, 3⟩
abbrev K.PCH_PCACHE_INVALIDATED : Ctr := ⟨0x0A3, 4⟩
abbrev K.PCH_PATCH_LINES : Ctr := ⟨0x0A3, 5⟩
abbrev K.PCH_PATCH_WAITS : Ctr := ⟨0x0A3, 6⟩
abbrev K.PCH_PATCH_MERGED : Ctr := ⟨0x0A3, 7⟩
abbrev F.MDC_EV_WAY_DISABLED : Fld := ⟨0x0C0, 0x010, 0, 1, false⟩
abbrev F.MDC_EV_NO_SPARE_WAY : Fld := ⟨0x0C0, 0x010, 1, 1, false⟩
abbrev F.MDC_EV_LOCKED_LINE_DROPPED : Fld := ⟨0x0C0, 0x010, 2, 1, false⟩
abbrev F.MDC_EV_EVB_FULL : Fld := ⟨0x0C0, 0x010, 3, 1, false⟩
abbrev F.MDC_MDC_CFG_SALT : Fld := ⟨0x0C0, 0x100, 0, 14, false⟩
abbrev F.MDC_MDC_CFG_WAY_CE_LIMIT : Fld := ⟨0x0C0, 0x100, 16, 8, true⟩
abbrev F.MDC_MDC_CFG_LOCK_MAX : Fld := ⟨0x0C0, 0x100, 24, 4, false⟩
abbrev F.MDC_WAYS_ENABLED : Fld := ⟨0x0C0, 0x800, 0, 18, false⟩
abbrev F.MDC_WAYS_DISABLED : Fld := ⟨0x0C0, 0x804, 0, 18, false⟩
abbrev F.MDC_EVB_USE : Fld := ⟨0x0C0, 0x808, 0, 7, false⟩
abbrev F.MDC_LOCKED_LINES : Fld := ⟨0x0C0, 0x80C, 0, 19, false⟩
abbrev F.MDC_LAST_DROPPED_LO : Fld := ⟨0x0C0, 0x810, 0, 32, false⟩
abbrev F.MDC_LAST_DROPPED_HI : Fld := ⟨0x0C0, 0x814, 0, 4, false⟩
abbrev F.MDC_WAY_CE (j : Nat) : Fld := ⟨0x0C0, 0x880 + 0x4 * j, 0, 16, false⟩
abbrev K.MDC_HITS : Ctr := ⟨0x0C0, 0⟩
abbrev K.MDC_MISSES : Ctr := ⟨0x0C0, 1⟩
abbrev K.MDC_EVB_HITS : Ctr := ⟨0x0C0, 2⟩
abbrev K.MDC_WRITEBACKS : Ctr := ⟨0x0C0, 3⟩
abbrev K.MDC_FILL_DISCARDS : Ctr := ⟨0x0C0, 4⟩
abbrev K.MDC_LOCKED_DROPS : Ctr := ⟨0x0C0, 5⟩
abbrev K.MDC_WAY_DISABLES : Ctr := ⟨0x0C0, 6⟩
abbrev K.MDC_CORRECTED : Ctr := ⟨0x0C0, 7⟩
abbrev K.MDC_TC_MISSES : Ctr := ⟨0x0C0, 8⟩
abbrev K.MDC_TC_BLOCK_NS_MAX : Ctr := ⟨0x0C0, 9⟩
abbrev F.MNT_EV_OP_DONE : Fld := ⟨0x0C1, 0x010, 0, 1, false⟩
abbrev F.MNT_OP_KIND : Fld := ⟨0x0C1, 0x100, 0, 3, true⟩
abbrev F.MNT_OP_MODE : Fld := ⟨0x0C1, 0x100, 4, 1, true⟩
abbrev F.MNT_OP_ADDR_LO : Fld := ⟨0x0C1, 0x104, 8, 24, true⟩
abbrev F.MNT_OP_ADDR_HI : Fld := ⟨0x0C1, 0x108, 0, 4, true⟩
abbrev F.MNT_OP_COUNT : Fld := ⟨0x0C1, 0x10C, 0, 28, true⟩
abbrev F.MNT_OP_SETWAY_SET : Fld := ⟨0x0C1, 0x110, 0, 14, true⟩
abbrev F.MNT_OP_SETWAY_WAY : Fld := ⟨0x0C1, 0x110, 16, 5, true⟩
abbrev F.MNT_OP_GO : Fld := ⟨0x0C1, 0x114, 0, 1, false⟩
abbrev F.MNT_OP_STATUS_STATE : Fld := ⟨0x0C1, 0x800, 0, 2, false⟩
abbrev F.MNT_OP_STATUS_ERR : Fld := ⟨0x0C1, 0x800, 8, 8, false⟩
abbrev F.MNT_OP_PROGRESS : Fld := ⟨0x0C1, 0x804, 0, 28, false⟩
abbrev K.MNT_OPS_DONE : Ctr := ⟨0x0C1, 0⟩
abbrev K.MNT_LINES_CLEANED : Ctr := ⟨0x0C1, 1⟩
abbrev K.MNT_LINES_INVALIDATED : Ctr := ⟨0x0C1, 2⟩
abbrev K.MNT_LOCKS : Ctr := ⟨0x0C1, 3⟩
abbrev K.MNT_UNLOCKS : Ctr := ⟨0x0C1, 4⟩
abbrev F.RTE_EV_SLIP : Fld := ⟨0x0B0, 0x010, 0, 1, false⟩
abbrev F.RTE_EV_WINDOW_SHORT : Fld := ⟨0x0B0, 0x010, 1, 1, false⟩
abbrev F.RTE_EV_WINDOW_BLOCKED : Fld := ⟨0x0B0, 0x010, 2, 1, false⟩
abbrev F.RTE_EV_BAD_ENTRY : Fld := ⟨0x0B0, 0x010, 3, 1, false⟩
abbrev F.RTE_EV_ROUTE_END : Fld := ⟨0x0B0, 0x010, 4, 1, false⟩
abbrev F.RTE_RTE_CFG_HOLD_MAX_EXT : Fld := ⟨0x0B0, 0x100, 0, 19, false⟩
abbrev F.RTE_ROUTES_LOADED : Fld := ⟨0x0B0, 0x800, 0, 9, false⟩
abbrev F.RTE_ROUTES_ACTIVE : Fld := ⟨0x0B0, 0x800, 16, 9, false⟩
abbrev F.RTE_HELD_EXTENTS : Fld := ⟨0x0B0, 0x804, 0, 19, false⟩
abbrev F.RTE_LAST_SLIP_ROUTE : Fld := ⟨0x0B0, 0x808, 0, 8, false⟩
abbrev F.RTE_LAST_SLIP_ENTRY : Fld := ⟨0x0B0, 0x808, 16, 16, false⟩
abbrev F.RTE_LAST_SLIP_LATE_US : Fld := ⟨0x0B0, 0x80C, 0, 32, false⟩
abbrev F.RTE_LAST_SLIP_ROUND_LO : Fld := ⟨0x0B0, 0x810, 0, 32, false⟩
abbrev F.RTE_SLIPS_OPEN : Fld := ⟨0x0B0, 0x814, 0, 9, false⟩
abbrev F.RTE_IS_ACTING : Fld := ⟨0x0B0, 0x814, 16, 1, false⟩
abbrev K.RTE_ENTRIES_PASSED : Ctr := ⟨0x0B0, 0⟩
abbrev K.RTE_REANCHORS : Ctr := ⟨0x0B0, 1⟩
abbrev K.RTE_SEEKS : Ctr := ⟨0x0B0, 2⟩
abbrev K.RTE_SLIPS : Ctr := ⟨0x0B0, 3⟩
abbrev K.RTE_SLIP_ACCESSES : Ctr := ⟨0x0B0, 4⟩
abbrev K.RTE_SLIPS_UNARRIVED : Ctr := ⟨0x0B0, 5⟩
abbrev K.RTE_SLIP_LATE_US_SUM : Ctr := ⟨0x0B0, 6⟩
abbrev K.RTE_SLIP_LATE_US_MAX : Ctr := ⟨0x0B0, 7⟩
abbrev K.RTE_HOLDS : Ctr := ⟨0x0B0, 8⟩
abbrev K.RTE_RELEASES : Ctr := ⟨0x0B0, 9⟩
abbrev K.RTE_ROUTE_PROMOTIONS : Ctr := ⟨0x0B0, 10⟩
abbrev K.RTE_DROP_EVICTIONS : Ctr := ⟨0x0B0, 11⟩
abbrev K.RTE_WINDOW_SHORT_ROUNDS : Ctr := ⟨0x0B0, 12⟩
abbrev K.RTE_WINDOW_BLOCKED_ROUNDS : Ctr := ⟨0x0B0, 13⟩
abbrev K.RTE_BAD_ENTRIES : Ctr := ⟨0x0B0, 14⟩
abbrev K.RTE_LIST_BLOCKS_READ : Ctr := ⟨0x0B0, 15⟩
abbrev K.RTE_WINDOW_EVICTED : Ctr := ⟨0x0B0, 16⟩
abbrev F.RTS_EV_STATE_CHANGE : Fld := ⟨0x0B1, 0x010, 0, 1, false⟩
abbrev F.RTS_ROUTE_POS (j : Nat) : Fld := ⟨0x0B1, 0x800 + 0x4 * j, 0, 16, false⟩
abbrev F.RTS_ROUTE_STATE (j : Nat) : Fld := ⟨0x0B1, 0x800 + 0x4 * j, 16, 2, false⟩
abbrev F.RTS_ROUTE_SLIP_OPEN (j : Nat) : Fld := ⟨0x0B1, 0x800 + 0x4 * j, 18, 1, false⟩
abbrev F.RTS_ROUTE_END_REACHED (j : Nat) : Fld := ⟨0x0B1, 0x800 + 0x4 * j, 19, 1, false⟩
abbrev F.RTS_ROUTE_CYCLIC (j : Nat) : Fld := ⟨0x0B1, 0x800 + 0x4 * j, 20, 1, false⟩
abbrev F.RTS_ROUTE_PRIORITY (j : Nat) : Fld := ⟨0x0B1, 0x800 + 0x4 * j, 21, 3, false⟩
abbrev F.RTS_ROUTE_OWNER (j : Nat) : Fld := ⟨0x0B1, 0x800 + 0x4 * j, 24, 5, false⟩
abbrev K.RTS_SLIPS_PRIO (j : Nat) : Ctr := ⟨0x0B1, 0 + 1 * j⟩
abbrev K.RTS_LATE_US_MAX_PRIO (j : Nat) : Ctr := ⟨0x0B1, 8 + 1 * j⟩
abbrev F.MDE_EV_URGENT : Fld := ⟨0x380, 0x010, 0, 1, false⟩
abbrev F.MDE_EV_WRITE_STALL : Fld := ⟨0x380, 0x010, 1, 1, false⟩
abbrev F.MDE_EV_UNCORRECTABLE : Fld := ⟨0x380, 0x010, 2, 1, false⟩
abbrev F.MDE_EV_SILENT_CORRECTED : Fld := ⟨0x380, 0x010, 3, 1, false⟩
abbrev F.MDE_MDE_CFG_BUSY_LIMIT : Fld := ⟨0x380, 0x100, 0, 5, true⟩
abbrev F.MDE_MDE_CFG_BUSY_HIGH : Fld := ⟨0x380, 0x100, 8, 5, true⟩
abbrev F.MDE_MDE_CFG_HEDGE_EN : Fld := ⟨0x380, 0x100, 16, 1, true⟩
abbrev F.MDE_MDE_CFG_QDEPTH : Fld := ⟨0x380, 0x100, 20, 2, false⟩
abbrev F.MDE_MDE_CFG_SUSPEND_MAX : Fld := ⟨0x380, 0x100, 24, 4, false⟩
abbrev F.MDE_MDE_CFG_STAGE_MIB : Fld := ⟨0x380, 0x104, 0, 12, false⟩
abbrev F.MDE_MODE : Fld := ⟨0x380, 0x800, 0, 2, false⟩
abbrev F.MDE_BUSY_HIGH_ACTIVE : Fld := ⟨0x380, 0x800, 8, 1, false⟩
abbrev F.MDE_STAGE_USED_MIB : Fld := ⟨0x380, 0x804, 0, 12, false⟩
abbrev F.MDE_DIRECT_INFLIGHT : Fld := ⟨0x380, 0x808, 0, 16, false⟩
abbrev K.MDE_DIRECT_READS : Ctr := ⟨0x380, 0⟩
abbrev K.MDE_DIRECT_NS_MAX : Ctr := ⟨0x380, 1⟩
abbrev K.MDE_FULL_READS : Ctr := ⟨0x380, 2⟩
abbrev K.MDE_HEDGED_COLUMNS : Ctr := ⟨0x380, 3⟩
abbrev K.MDE_UNCORRECTABLE : Ctr := ⟨0x380, 4⟩
abbrev K.MDE_SILENT_CORRECTED : Ctr := ⟨0x380, 5⟩
abbrev K.MDE_WRITE_STALL_ROUNDS : Ctr := ⟨0x380, 6⟩
abbrev K.MDE_PAYLOAD_READ : Ctr := ⟨0x380, 7⟩
abbrev K.MDE_PAYLOAD_WRITTEN : Ctr := ⟨0x380, 8⟩
abbrev K.MDE_SUSPENDS_OVER_CAP : Ctr := ⟨0x380, 9⟩
abbrev F.LAST_EV_ROW_DEGRADED : Fld := ⟨0x381, 0x010, 0, 1, false⟩
abbrev F.LAST_LAST_CFG_OP_PCT : Fld := ⟨0x381, 0x100, 0, 6, false⟩
abbrev F.LAST_LAST_CFG_SPARE_PCT : Fld := ⟨0x381, 0x100, 8, 4, false⟩
abbrev F.LAST_LAST_CFG_FORCE_24 : Fld := ⟨0x381, 0x100, 16, 1, false⟩
abbrev F.LAST_LAST_CFG_META_GIB : Fld := ⟨0x381, 0x104, 0, 11, false⟩
abbrev F.LAST_ROWS_TOTAL : Fld := ⟨0x381, 0x800, 0, 21, false⟩
abbrev F.LAST_ROWS_FREE : Fld := ⟨0x381, 0x804, 0, 21, false⟩
abbrev F.LAST_FREE_PCT : Fld := ⟨0x381, 0x808, 0, 7, false⟩
abbrev F.LAST_ROWS_DEGRADED : Fld := ⟨0x381, 0x80C, 0, 21, false⟩
abbrev F.LAST_GEOM_CB : Fld := ⟨0x381, 0x810, 0, 5, false⟩
abbrev F.LAST_GEOM_POSITIONS : Fld := ⟨0x381, 0x810, 8, 6, false⟩
abbrev K.LAST_ROWS_OPENED_28 : Ctr := ⟨0x381, 0⟩
abbrev K.LAST_ROWS_OPENED_24 : Ctr := ⟨0x381, 1⟩
abbrev K.LAST_ROWS_ERASED : Ctr := ⟨0x381, 2⟩
abbrev F.PACK_PACK_CFG_MAX_UNITS : Fld := ⟨0x382, 0x100, 0, 8, true⟩
abbrev F.PACK_PACK_CFG_EN : Fld := ⟨0x382, 0x100, 8, 1, true⟩
abbrev F.PACK_RESIDENT_PARCELS_LO : Fld := ⟨0x382, 0x800, 0, 32, false⟩
abbrev F.PACK_RESIDENT_PARCELS_HI : Fld := ⟨0x382, 0x804, 0, 1, false⟩
abbrev F.PACK_RESIDENT_UNITS_LO : Fld := ⟨0x382, 0x808, 0, 32, false⟩
abbrev F.PACK_RESIDENT_UNITS_HI : Fld := ⟨0x382, 0x80C, 0, 9, false⟩
abbrev K.PACK_IN_BYTES (j : Nat) : Ctr := ⟨0x382, 0 + 1 * j⟩
abbrev K.PACK_OUT_BYTES (j : Nat) : Ctr := ⟨0x382, 64 + 1 * j⟩
abbrev F.DEC_THRESH_CFG_EN : Fld := ⟨0x383, 0x100, 0, 1, true⟩
abbrev F.DEC_THRESH_CFG_STEP : Fld := ⟨0x383, 0x100, 8, 4, true⟩
abbrev F.DEC_THRESH_CFG_OFFSET_MAX : Fld := ⟨0x383, 0x100, 16, 8, true⟩
abbrev F.DEC_THRESH_CFG_MIN_SAMPLES : Fld := ⟨0x383, 0x104, 0, 16, true⟩
abbrev F.DEC_THRESH_CFG_GROUP_HOURS : Fld := ⟨0x383, 0x104, 16, 8, false⟩
abbrev F.DEC_SOFT_CFG_EN : Fld := ⟨0x383, 0x108, 0, 1, true⟩
abbrev F.DEC_SOFT_CFG_RETRY_MAX : Fld := ⟨0x383, 0x108, 8, 5, true⟩
abbrev F.DEC_SOFT_CFG_UE_RETIRE : Fld := ⟨0x383, 0x108, 16, 8, true⟩
abbrev K.DEC_CW_DECODED : Ctr := ⟨0x383, 0⟩
abbrev K.DEC_CW_HARD_FAIL : Ctr := ⟨0x383, 1⟩
abbrev K.DEC_SOFT_DECODES : Ctr := ⟨0x383, 2⟩
abbrev K.DEC_RETRIES : Ctr := ⟨0x383, 3⟩
abbrev K.DEC_CW_UNCORRECTABLE : Ctr := ⟨0x383, 4⟩
abbrev K.DEC_BITS_CORRECTED : Ctr := ⟨0x383, 5⟩
abbrev K.DEC_ERASURE_DECODES : Ctr := ⟨0x383, 6⟩
abbrev K.DEC_OFFSET_UPDATES : Ctr := ⟨0x383, 7⟩
abbrev K.DEC_CRC_FAILS : Ctr := ⟨0x383, 8⟩
abbrev F.BKG_EV_GC_URGENT : Fld := ⟨0x384, 0x010, 0, 1, false⟩
abbrev F.BKG_GC_CFG_CRIT_PCT : Fld := ⟨0x384, 0x100, 0, 6, true⟩
abbrev F.BKG_GC_CFG_LOW_PCT : Fld := ⟨0x384, 0x100, 8, 6, true⟩
abbrev F.BKG_GC_CFG_HIGH_PCT : Fld := ⟨0x384, 0x100, 16, 6, true⟩
abbrev F.BKG_SHARE_GC_MIN_PCT : Fld := ⟨0x384, 0x104, 0, 7, true⟩
abbrev F.BKG_SHARE_GC_MAX_PCT : Fld := ⟨0x384, 0x104, 8, 7, true⟩
abbrev F.BKG_SHARE_RESOLE_PCT : Fld := ⟨0x384, 0x104, 16, 7, true⟩
abbrev F.BKG_SHARE_REBUILD_PCT : Fld := ⟨0x384, 0x104, 24, 7, true⟩
abbrev F.BKG_RESOLE_CFG_AGE_DAYS : Fld := ⟨0x384, 0x108, 0, 10, true⟩
abbrev F.BKG_RESOLE_CFG_BITS_PCT : Fld := ⟨0x384, 0x108, 16, 7, true⟩
abbrev F.BKG_SCRUB_CFG_PASS_DAYS : Fld := ⟨0x384, 0x10C, 0, 8, true⟩
abbrev F.BKG_WL_DELTA : Fld := ⟨0x384, 0x10C, 16, 16, true⟩
abbrev F.BKG_GC_SHARE_NOW : Fld := ⟨0x384, 0x800, 0, 7, false⟩
abbrev F.BKG_RESOLE_QUEUED : Fld := ⟨0x384, 0x804, 0, 21, false⟩
abbrev F.BKG_SCRUB_POS : Fld := ⟨0x384, 0x808, 0, 21, false⟩
abbrev K.BKG_GC_ROWS : Ctr := ⟨0x384, 0⟩
abbrev K.BKG_GC_PARCELS : Ctr := ⟨0x384, 1⟩
abbrev K.BKG_RESOLE_ROWS : Ctr := ⟨0x384, 2⟩
abbrev K.BKG_RESOLE_PARCELS : Ctr := ⟨0x384, 3⟩
abbrev K.BKG_SCRUB_ROWS : Ctr := ⟨0x384, 4⟩
abbrev K.BKG_WL_MOVES : Ctr := ⟨0x384, 5⟩
abbrev K.BKG_RELOC_ABANDONED : Ctr := ⟨0x384, 6⟩
abbrev K.BKG_MERGES : Ctr := ⟨0x384, 7⟩
abbrev F.WEAR_PE_RATED_TLC : Fld := ⟨0x385, 0x800, 0, 16, false⟩
abbrev F.WEAR_PE_RATED_SLC : Fld := ⟨0x385, 0x804, 0, 20, false⟩
abbrev F.WEAR_ERASE_MEAN : Fld := ⟨0x385, 0x808, 0, 20, false⟩
abbrev F.WEAR_ERASE_MAX : Fld := ⟨0x385, 0x80C, 0, 20, false⟩
abbrev F.WEAR_WAF_X100 : Fld := ⟨0x385, 0x810, 0, 16, false⟩
abbrev F.WEAR_BUDGET_GB_DAY : Fld := ⟨0x385, 0x814, 0, 32, false⟩
abbrev K.WEAR_HOST_DERIVED_BYTES : Ctr := ⟨0x385, 0⟩
abbrev K.WEAR_MEDIA_DATA_BYTES : Ctr := ⟨0x385, 1⟩
abbrev K.WEAR_ERASES : Ctr := ⟨0x385, 2⟩
abbrev K.WEAR_BLOCKS_RETIRED : Ctr := ⟨0x385, 3⟩
abbrev K.WEAR_PROGRAM_FAILS : Ctr := ⟨0x385, 4⟩
abbrev K.WEAR_ERASE_FAILS : Ctr := ⟨0x385, 5⟩
abbrev F.MOD_EV_MODULE_STATE : Fld := ⟨0x386, 0x010, 0, 1, false⟩
abbrev F.MOD_EV_REBUILD_DONE : Fld := ⟨0x386, 0x010, 1, 1, false⟩
abbrev F.MOD_EV_MODULE_LOST : Fld := ⟨0x386, 0x010, 2, 1, false⟩
abbrev F.MOD_MODULE_OFFLINE_REQ (j : Nat) : Fld := ⟨0x386, 0x100 + 0x4 * j, 0, 1, false⟩
abbrev F.MOD_MODULE_ONLINE_REQ (j : Nat) : Fld := ⟨0x386, 0x100 + 0x4 * j, 1, 1, false⟩
abbrev F.MOD_MODULE_OFFLINE_FORCE (j : Nat) : Fld := ⟨0x386, 0x100 + 0x4 * j, 2, 1, true⟩
abbrev F.MOD_MODULE_STATE (j : Nat) : Fld := ⟨0x386, 0x800 + 0x4 * j, 0, 3, false⟩
abbrev F.MOD_MODULE_PRESENT (j : Nat) : Fld := ⟨0x386, 0x800 + 0x4 * j, 8, 1, false⟩
abbrev F.MOD_REBUILD_ROWS_LEFT : Fld := ⟨0x386, 0x840, 0, 21, false⟩
abbrev K.MOD_REBUILT_ROWS : Ctr := ⟨0x386, 0⟩
abbrev K.MOD_REBUILD_RELOCATED : Ctr := ⟨0x386, 1⟩
abbrev K.MOD_REBUILD_FROM_TWIN : Ctr := ⟨0x386, 2⟩
abbrev F.PROF_IF_CFG_RATE_MTS : Fld := ⟨0x387, 0x100, 0, 12, false⟩
abbrev F.PROF_PROFILE_ID : Fld := ⟨0x387, 0x800, 0, 16, false⟩
abbrev F.PROF_PAGES_PER_BLOCK : Fld := ⟨0x387, 0x804, 0, 13, false⟩
abbrev F.PROF_BLOCKS_PER_LUN : Fld := ⟨0x387, 0x808, 0, 16, false⟩
abbrev F.PROF_PLANES : Fld := ⟨0x387, 0x80C, 0, 3, false⟩
abbrev F.PROF_TR_US_MAX : Fld := ⟨0x387, 0x810, 0, 16, false⟩
abbrev F.PROF_TPROG_US_MAX : Fld := ⟨0x387, 0x814, 0, 16, false⟩
abbrev F.CHN_EV_LUN_RETIRED (i : Nat) : Fld := ⟨0x3A0 + i, 0x010, 0, 1, false⟩
abbrev F.CHN_EV_CHANNEL_FAILED (i : Nat) : Fld := ⟨0x3A0 + i, 0x010, 1, 1, false⟩
abbrev F.CHN_CHAN_CFG_LUN_OFF (i : Nat) : Fld := ⟨0x3A0 + i, 0x100, 0, 32, true⟩
abbrev F.CHN_CHAN_STATE (i : Nat) : Fld := ⟨0x3A0 + i, 0x800, 0, 2, false⟩
abbrev F.CHN_LUN_LIVE (i : Nat) : Fld := ⟨0x3A0 + i, 0x804, 0, 32, false⟩
abbrev F.CHN_LUN_BUSY (i : Nat) : Fld := ⟨0x3A0 + i, 0x808, 0, 32, false⟩
abbrev F.CHN_TRAIN_RD_EYE (i : Nat) : Fld := ⟨0x3A0 + i, 0x80C, 0, 8, false⟩
abbrev F.CHN_TRAIN_WR_EYE (i : Nat) : Fld := ⟨0x3A0 + i, 0x80C, 8, 8, false⟩
abbrev F.CHN_BUS_UTIL_PCT (i : Nat) : Fld := ⟨0x3A0 + i, 0x810, 0, 7, false⟩
abbrev K.CHN_READS (i : Nat) : Ctr := ⟨0x3A0 + i, 0⟩
abbrev K.CHN_PROGRAMS (i : Nat) : Ctr := ⟨0x3A0 + i, 1⟩
abbrev K.CHN_ERASES (i : Nat) : Ctr := ⟨0x3A0 + i, 2⟩
abbrev K.CHN_SUSPENDS (i : Nat) : Ctr := ⟨0x3A0 + i, 3⟩
abbrev K.CHN_CW_HARD_FAILS (i : Nat) : Ctr := ⟨0x3A0 + i, 4⟩
abbrev K.CHN_BITS_CORRECTED (i : Nat) : Ctr := ⟨0x3A0 + i, 5⟩
abbrev K.CHN_TIMEOUTS (i : Nat) : Ctr := ⟨0x3A0 + i, 6⟩
abbrev K.CHN_BUS_BYTES (i : Nat) : Ctr := ⟨0x3A0 + i, 7⟩
abbrev F.GOV_EV_THROTTLE : Fld := ⟨0x0D0, 0x010, 0, 1, false⟩
abbrev F.GOV_EV_OVER_BUDGET : Fld := ⟨0x0D0, 0x010, 1, 1, false⟩
abbrev F.GOV_EV_HOLDUP_DROP : Fld := ⟨0x0D0, 0x010, 2, 1, false⟩
abbrev F.GOV_EV_HOLDUP_CHANGE : Fld := ⟨0x0D0, 0x010, 3, 1, false⟩
abbrev F.GOV_EV_RATE_DROP : Fld := ⟨0x0D0, 0x010, 4, 1, false⟩
abbrev F.GOV_EV_INSOLE_LIMIT : Fld := ⟨0x0D0, 0x010, 5, 1, false⟩
abbrev F.GOV_BUDGET_CFG_CAP_GIB : Fld := ⟨0x0D0, 0x100, 0, 9, false⟩
abbrev F.GOV_BUDGET_CFG_MARGIN_PCT : Fld := ⟨0x0D0, 0x100, 16, 7, false⟩
abbrev F.GOV_FIXED_US : Fld := ⟨0x0D0, 0x104, 0, 20, false⟩
abbrev F.GOV_GRACE_US : Fld := ⟨0x0D0, 0x108, 0, 11, false⟩
abbrev F.GOV_HOLDUP_CFG_RISE_ROUNDS : Fld := ⟨0x0D0, 0x10C, 0, 16, true⟩
abbrev F.GOV_HOLDUP_MAP_US (j : Nat) : Fld := ⟨0x0D0, 0x110 + 0x4 * j, 0, 20, false⟩
abbrev F.GOV_CLEAN_CFG_LOW_PCT : Fld := ⟨0x0D0, 0x130, 0, 7, true⟩
abbrev F.GOV_CLEAN_CFG_HIGH_PCT : Fld := ⟨0x0D0, 0x130, 8, 7, true⟩
abbrev F.GOV_CLEAN_CFG_THROTTLE_PCT : Fld := ⟨0x0D0, 0x130, 16, 7, true⟩
abbrev F.GOV_BUDGET_MIB : Fld := ⟨0x0D0, 0x800, 0, 19, false⟩
abbrev F.GOV_UNSAVED_LO : Fld := ⟨0x0D0, 0x804, 0, 32, false⟩
abbrev F.GOV_UNSAVED_HI : Fld := ⟨0x0D0, 0x808, 0, 8, false⟩
abbrev F.GOV_GOV_STATE : Fld := ⟨0x0D0, 0x80C, 0, 3, false⟩
abbrev F.GOV_GOV_HOLDUP_PINS : Fld := ⟨0x0D0, 0x80C, 8, 3, false⟩
abbrev F.GOV_GOV_HOLDUP_APPLIED : Fld := ⟨0x0D0, 0x80C, 12, 3, false⟩
abbrev F.GOV_SAVE_RATE_MBPS : Fld := ⟨0x0D0, 0x810, 0, 18, false⟩
abbrev F.GOV_RATE_BUS_CAL_MBPS : Fld := ⟨0x0D0, 0x814, 0, 18, false⟩
abbrev F.GOV_TPROG_SLC_MAX_US : Fld := ⟨0x0D0, 0x818, 0, 16, false⟩
abbrev F.GOV_LUNS_LIVE : Fld := ⟨0x0D0, 0x81C, 0, 11, false⟩
abbrev F.GOV_INSOLE_READY_MIB : Fld := ⟨0x0D0, 0x820, 0, 20, false⟩
abbrev F.GOV_FIXED_MEAS_US : Fld := ⟨0x0D0, 0x824, 0, 20, false⟩
abbrev F.GOV_PEER_HEADROOM_MIB : Fld := ⟨0x0D0, 0x828, 0, 19, false⟩
abbrev F.GOV_PART_WMB_MIB : Fld := ⟨0x0D0, 0x830, 0, 24, false⟩
abbrev F.GOV_PART_STAGE_MIB : Fld := ⟨0x0D0, 0x834, 0, 24, false⟩
abbrev F.GOV_PART_PATCH_MIB : Fld := ⟨0x0D0, 0x838, 0, 24, false⟩
abbrev F.GOV_PART_FRAME_MIB : Fld := ⟨0x0D0, 0x83C, 0, 24, false⟩
abbrev F.GOV_PART_META_MIB : Fld := ⟨0x0D0, 0x840, 0, 24, false⟩
abbrev K.GOV_BUDGET_MIN_MIB : Ctr := ⟨0x0D0, 0⟩
abbrev K.GOV_UNSAVED_MAX_MIB : Ctr := ⟨0x0D0, 1⟩
abbrev K.GOV_CLEANING_ROUNDS : Ctr := ⟨0x0D0, 2⟩
abbrev K.GOV_THROTTLE_ROUNDS : Ctr := ⟨0x0D0, 3⟩
abbrev K.GOV_OVER_ROUNDS : Ctr := ⟨0x0D0, 4⟩
abbrev K.GOV_DRAIN_HOLDS : Ctr := ⟨0x0D0, 5⟩
abbrev K.GOV_CLEAN_QUEUED : Ctr := ⟨0x0D0, 6⟩
abbrev K.GOV_PROBES : Ctr := ⟨0x0D0, 7⟩
abbrev K.GOV_PROBE_TPROG_MAX_US : Ctr := ⟨0x0D0, 8⟩
abbrev K.GOV_HOLDUP_CHANGES : Ctr := ⟨0x0D0, 9⟩
abbrev F.SAV_EV_PFAIL : Fld := ⟨0x0D1, 0x010, 0, 1, false⟩
abbrev F.SAV_EV_PFAIL_GLITCH : Fld := ⟨0x0D1, 0x010, 1, 1, false⟩
abbrev F.SAV_EV_LONE_PFAIL : Fld := ⟨0x0D1, 0x010, 2, 1, false⟩
abbrev F.SAV_EV_SAVE_FAILED : Fld := ⟨0x0D1, 0x010, 3, 1, false⟩
abbrev F.SAV_EV_RESTORE_DONE : Fld := ⟨0x0D1, 0x010, 4, 1, false⟩
abbrev F.SAV_EV_DIRTY_SHUTDOWN : Fld := ⟨0x0D1, 0x010, 5, 1, false⟩
abbrev F.SAV_RESTORE_CFG_REFILL_ALL : Fld := ⟨0x0D1, 0x100, 0, 1, true⟩
abbrev F.SAV_CAL_CFG_MIB : Fld := ⟨0x0D1, 0x104, 0, 12, false⟩
abbrev F.SAV_SVC_STATE : Fld := ⟨0x0D1, 0x800, 0, 3, false⟩
abbrev F.SAV_SVC_SOURCE : Fld := ⟨0x0D1, 0x800, 8, 2, false⟩
abbrev F.SAV_SVC_SEAL_KIND : Fld := ⟨0x0D1, 0x800, 12, 2, false⟩
abbrev F.SAV_SVC_SEAL_DAMAGED : Fld := ⟨0x0D1, 0x800, 14, 1, false⟩
abbrev F.SAV_DIRTY_SHUTDOWN_COUNT : Fld := ⟨0x0D1, 0x804, 0, 32, false⟩
abbrev F.SAV_LAST_SAVE_MIB : Fld := ⟨0x0D1, 0x808, 0, 24, false⟩
abbrev F.SAV_LAST_SAVE_US : Fld := ⟨0x0D1, 0x80C, 0, 24, false⟩
abbrev F.SAV_LAST_SAVE_RATE_MBPS : Fld := ⟨0x0D1, 0x810, 0, 18, false⟩
abbrev F.SAV_LAST_RESTORE_MS : Fld := ⟨0x0D1, 0x814, 0, 20, false⟩
abbrev F.SAV_LAST_RESTORE_LOST_EXTENTS : Fld := ⟨0x0D1, 0x818, 0, 28, false⟩
abbrev K.SAV_PFAILS : Ctr := ⟨0x0D1, 0⟩
abbrev K.SAV_GLITCHES : Ctr := ⟨0x0D1, 1⟩
abbrev K.SAV_RISK_COMMITS : Ctr := ⟨0x0D1, 2⟩
abbrev K.SAV_RISK_EXTENTS_MAX : Ctr := ⟨0x0D1, 3⟩
abbrev F.DCH_EV_CORRECTED (i : Nat) : Fld := ⟨0x300 + 4 * i, 0x010, 0, 1, false⟩
abbrev F.DCH_EV_UNCORRECTABLE (i : Nat) : Fld := ⟨0x300 + 4 * i, 0x010, 1, 1, false⟩
abbrev F.DCH_EV_TEMP_HIGH (i : Nat) : Fld := ⟨0x300 + 4 * i, 0x010, 2, 1, false⟩
abbrev F.DCH_CH_CFG_MAP (i : Nat) : Fld := ⟨0x300 + 4 * i, 0x100, 0, 2, false⟩
abbrev F.DCH_CH_CFG_PAGE_POLICY (i : Nat) : Fld := ⟨0x300 + 4 * i, 0x100, 4, 1, true⟩
abbrev F.DCH_CH_CFG_RATE (i : Nat) : Fld := ⟨0x300 + 4 * i, 0x100, 8, 3, false⟩
abbrev F.DCH_CH_CFG2_CE_WRITEBACK (i : Nat) : Fld := ⟨0x300 + 4 * i, 0x104, 0, 1, true⟩
abbrev F.DCH_DEV_ERASE_DEV (i : Nat) (j : Nat) : Fld := ⟨0x300 + 4 * i, 0x140 + 0x4 * j, 0, 5, true⟩
abbrev F.DCH_DEV_ERASE_VALID (i : Nat) (j : Nat) : Fld := ⟨0x300 + 4 * i, 0x140 + 0x4 * j, 7, 1, true⟩
abbrev F.DCH_DIMM_COUNT (i : Nat) : Fld := ⟨0x300 + 4 * i, 0x800, 0, 2, false⟩
abbrev F.DCH_DIMM_RANKS (i : Nat) : Fld := ⟨0x300 + 4 * i, 0x800, 4, 4, false⟩
abbrev F.DCH_DIMM_DENSITY (i : Nat) : Fld := ⟨0x300 + 4 * i, 0x800, 8, 2, false⟩
abbrev F.DCH_DIMM_GIB (i : Nat) : Fld := ⟨0x300 + 4 * i, 0x800, 16, 9, false⟩
abbrev F.DCH_CH_PWR (i : Nat) : Fld := ⟨0x300 + 4 * i, 0x804, 0, 2, false⟩
abbrev F.DCH_CH_REF_2X (i : Nat) : Fld := ⟨0x300 + 4 * i, 0x804, 16, 16, false⟩
abbrev F.DCH_TRAIN_FAIL_RANKS (i : Nat) : Fld := ⟨0x300 + 4 * i, 0x808, 0, 16, false⟩
abbrev F.DCH_DEV_CE (i : Nat) (j : Nat) : Fld := ⟨0x300 + 4 * i, 0x880 + 0x4 * j, 0, 16, false⟩
abbrev K.DCH_PAIR_READS (i : Nat) : Ctr := ⟨0x300 + 4 * i, 0⟩
abbrev K.DCH_PAIR_WRITES (i : Nat) : Ctr := ⟨0x300 + 4 * i, 1⟩
abbrev K.DCH_PAIR_MERGES (i : Nat) : Ctr := ⟨0x300 + 4 * i, 2⟩
abbrev K.DCH_ROW_HITS (i : Nat) : Ctr := ⟨0x300 + 4 * i, 3⟩
abbrev K.DCH_ROW_CONFLICTS (i : Nat) : Ctr := ⟨0x300 + 4 * i, 4⟩
abbrev K.DCH_AUTO_PRECHARGES (i : Nat) : Ctr := ⟨0x300 + 4 * i, 5⟩
abbrev K.DCH_CE (i : Nat) : Ctr := ⟨0x300 + 4 * i, 6⟩
abbrev K.DCH_UE (i : Nat) : Ctr := ⟨0x300 + 4 * i, 7⟩
abbrev K.DCH_ERASURE_CORRECTIONS (i : Nat) : Ctr := ⟨0x300 + 4 * i, 8⟩
abbrev K.DCH_CE_WRITEBACKS (i : Nat) : Ctr := ⟨0x300 + 4 * i, 9⟩
abbrev K.DCH_QUEUE_NS_MAX (i : Nat) : Ctr := ⟨0x300 + 4 * i, 10⟩
abbrev F.DRF_EV_REFAB_FALLBACK (i : Nat) : Fld := ⟨0x301 + 4 * i, 0x010, 0, 1, false⟩
abbrev F.DRF_EV_SR_ENTERED (i : Nat) : Fld := ⟨0x301 + 4 * i, 0x010, 1, 1, false⟩
abbrev F.DRF_EV_SR_ABANDONED (i : Nat) : Fld := ⟨0x301 + 4 * i, 0x010, 2, 1, false⟩
abbrev F.DRF_EV_PPR_DONE (i : Nat) : Fld := ⟨0x301 + 4 * i, 0x010, 3, 1, false⟩
abbrev F.DRF_EV_PPR_FAILED (i : Nat) : Fld := ⟨0x301 + 4 * i, 0x010, 4, 1, false⟩
abbrev F.DRF_REF_CFG_POSTPONE (i : Nat) : Fld := ⟨0x301 + 4 * i, 0x100, 0, 3, true⟩
abbrev F.DRF_REF_CFG_PULLIN (i : Nat) : Fld := ⟨0x301 + 4 * i, 0x100, 4, 3, true⟩
abbrev F.DRF_REF_CFG_IDLE_NS (i : Nat) : Fld := ⟨0x301 + 4 * i, 0x100, 8, 8, true⟩
abbrev F.DRF_SR_CFG_IDLE_US (i : Nat) : Fld := ⟨0x301 + 4 * i, 0x104, 0, 16, true⟩
abbrev F.DRF_PPR_REQ_RANK (i : Nat) : Fld := ⟨0x301 + 4 * i, 0x110, 0, 4, false⟩
abbrev F.DRF_PPR_REQ_BG (i : Nat) : Fld := ⟨0x301 + 4 * i, 0x110, 4, 3, false⟩
abbrev F.DRF_PPR_REQ_BA (i : Nat) : Fld := ⟨0x301 + 4 * i, 0x110, 8, 2, false⟩
abbrev F.DRF_PPR_REQ_KIND (i : Nat) : Fld := ⟨0x301 + 4 * i, 0x110, 12, 1, false⟩
abbrev F.DRF_PPR_REQ_GO (i : Nat) : Fld := ⟨0x301 + 4 * i, 0x110, 31, 1, false⟩
abbrev F.DRF_PPR_ROW (i : Nat) : Fld := ⟨0x301 + 4 * i, 0x114, 0, 18, false⟩
abbrev F.DRF_REF_DEBT (i : Nat) (j : Nat) : Fld := ⟨0x301 + 4 * i, 0x800 + 0x4 * j, 0, 16, false⟩
abbrev F.DRF_PPR_STATUS_STATE (i : Nat) : Fld := ⟨0x301 + 4 * i, 0x840, 0, 2, false⟩
abbrev F.DRF_PPR_STATUS_ERR (i : Nat) : Fld := ⟨0x301 + 4 * i, 0x840, 8, 8, false⟩
abbrev K.DRF_REFSB_ISSUED (i : Nat) : Ctr := ⟨0x301 + 4 * i, 0⟩
abbrev K.DRF_REFAB_ISSUED (i : Nat) : Ctr := ⟨0x301 + 4 * i, 1⟩
abbrev K.DRF_REFAB_FALLBACKS (i : Nat) : Ctr := ⟨0x301 + 4 * i, 2⟩
abbrev K.DRF_RFM_ISSUED (i : Nat) : Ctr := ⟨0x301 + 4 * i, 3⟩
abbrev K.DRF_REF_WAIT_NS_MAX (i : Nat) : Ctr := ⟨0x301 + 4 * i, 4⟩
abbrev K.DRF_SR_ENTRIES (i : Nat) : Ctr := ⟨0x301 + 4 * i, 5⟩
abbrev K.DRF_SR_ABANDONS (i : Nat) : Ctr := ⟨0x301 + 4 * i, 6⟩
abbrev K.DRF_SR_WAKE_NS_MAX (i : Nat) : Ctr := ⟨0x301 + 4 * i, 7⟩
abbrev K.DRF_SR_US (i : Nat) : Ctr := ⟨0x301 + 4 * i, 8⟩
abbrev K.DRF_PPR_SOFT (i : Nat) : Ctr := ⟨0x301 + 4 * i, 9⟩
abbrev K.DRF_PPR_HARD (i : Nat) : Ctr := ⟨0x301 + 4 * i, 10⟩
abbrev K.DRF_OUT_OF_SERVICE_NS (i : Nat) : Ctr := ⟨0x301 + 4 * i, 11⟩
abbrev F.DTR_EV_TRAIN_FAIL (i : Nat) : Fld := ⟨0x302 + 4 * i, 0x010, 0, 1, false⟩
abbrev F.DTR_EV_RETRAIN (i : Nat) : Fld := ⟨0x302 + 4 * i, 0x010, 1, 1, false⟩
abbrev F.DTR_DRIFT_CFG_PERIOD_US (i : Nat) : Fld := ⟨0x302 + 4 * i, 0x100, 0, 16, true⟩
abbrev F.DTR_DRIFT_CFG_THRESH_PS (i : Nat) : Fld := ⟨0x302 + 4 * i, 0x100, 16, 8, true⟩
abbrev F.DTR_DRIFT_CFG_DFE_EN (i : Nat) : Fld := ⟨0x302 + 4 * i, 0x100, 24, 1, true⟩
abbrev F.DTR_RETRAIN_CFG_MARGIN_MIN (i : Nat) : Fld := ⟨0x302 + 4 * i, 0x104, 0, 8, true⟩
abbrev F.DTR_RETRAIN_CFG_EN (i : Nat) : Fld := ⟨0x302 + 4 * i, 0x104, 8, 1, true⟩
abbrev F.DTR_TRAIN_RESULT (i : Nat) (j : Nat) : Fld := ⟨0x302 + 4 * i, 0x800 + 0x4 * j, 0, 3, false⟩
abbrev F.DTR_TRAIN_STEP (i : Nat) (j : Nat) : Fld := ⟨0x302 + 4 * i, 0x800 + 0x4 * j, 4, 4, false⟩
abbrev F.DTR_TRAIN_RD_EYE (i : Nat) (j : Nat) : Fld := ⟨0x302 + 4 * i, 0x800 + 0x4 * j, 8, 8, false⟩
abbrev F.DTR_TRAIN_WR_EYE (i : Nat) (j : Nat) : Fld := ⟨0x302 + 4 * i, 0x800 + 0x4 * j, 16, 8, false⟩
abbrev F.DTR_DRIFT_PS (i : Nat) (j : Nat) : Fld := ⟨0x302 + 4 * i, 0x840 + 0x4 * j, 0, 16, false⟩
abbrev K.DTR_OSC_RUNS (i : Nat) : Ctr := ⟨0x302 + 4 * i, 0⟩
abbrev K.DTR_DRIFT_STEPS (i : Nat) : Ctr := ⟨0x302 + 4 * i, 1⟩
abbrev K.DTR_DRIFT_PS_MAX (i : Nat) : Ctr := ⟨0x302 + 4 * i, 2⟩
abbrev K.DTR_DFE_UPDATES (i : Nat) : Ctr := ⟨0x302 + 4 * i, 3⟩
abbrev K.DTR_ZQ_CALS (i : Nat) : Ctr := ⟨0x302 + 4 * i, 4⟩
abbrev K.DTR_RETRAINS (i : Nat) : Ctr := ⟨0x302 + 4 * i, 5⟩
abbrev F.DRG_EV_CLIENT_WAIT (i : Nat) : Fld := ⟨0x303 + 4 * i, 0x010, 0, 1, false⟩
abbrev F.DRG_REG_RATE (i : Nat) (j : Nat) : Fld := ⟨0x303 + 4 * i, 0x100 + 0x4 * j, 0, 13, true⟩
abbrev F.DRG_REG_DEPTH (i : Nat) (j : Nat) : Fld := ⟨0x303 + 4 * i, 0x100 + 0x4 * j, 16, 8, true⟩
abbrev F.DRG_REG_BORROW (i : Nat) (j : Nat) : Fld := ⟨0x303 + 4 * i, 0x100 + 0x4 * j, 24, 1, true⟩
abbrev F.DRG_ARB_CFG_AGE_CAP_NS (i : Nat) : Fld := ⟨0x303 + 4 * i, 0x140, 0, 16, true⟩
abbrev F.DRG_TOKENS (i : Nat) (j : Nat) : Fld := ⟨0x303 + 4 * i, 0x800 + 0x4 * j, 0, 21, false⟩
abbrev K.DRG_LINES (i : Nat) (j : Nat) : Ctr := ⟨0x303 + 4 * i, 0 + 1 * j⟩
abbrev K.DRG_WAITS (i : Nat) (j : Nat) : Ctr := ⟨0x303 + 4 * i, 8 + 1 * j⟩
abbrev K.DRG_BORROWED (i : Nat) (j : Nat) : Ctr := ⟨0x303 + 4 * i, 16 + 1 * j⟩
abbrev F.RAS_EV_MAP_LINE_LOST : Fld := ⟨0x0E0, 0x010, 0, 1, false⟩
abbrev F.RAS_EV_SELFTEST_FAIL : Fld := ⟨0x0E0, 0x010, 1, 1, false⟩
abbrev F.RAS_LEAKED_FRAMES : Fld := ⟨0x0E0, 0x800, 0, 16, false⟩
abbrev K.RAS_PEER_ACCESS_FAIL : Ctr := ⟨0x0E0, 0⟩
abbrev K.RAS_BAD_ACCESS : Ctr := ⟨0x0E0, 1⟩
abbrev K.RAS_MAP_LINES_LOST : Ctr := ⟨0x0E0, 2⟩
abbrev K.RAS_REGION_REBUILDS : Ctr := ⟨0x0E0, 3⟩
abbrev K.RAS_TC_PARITY : Ctr := ⟨0x0E0, 4⟩
abbrev K.RAS_SRAM_UE : Ctr := ⟨0x0E0, 5⟩
abbrev K.RAS_CA_PARITY : Ctr := ⟨0x0E0, 6⟩
abbrev F.PAT_EV_PATROL_LATE : Fld := ⟨0x0E1, 0x010, 0, 1, false⟩
abbrev F.PAT_EV_PASS_DONE : Fld := ⟨0x0E1, 0x010, 1, 1, false⟩
abbrev F.PAT_PATROL_CFG_PASS_HOURS : Fld := ⟨0x0E1, 0x100, 0, 14, true⟩
abbrev F.PAT_PATROL_CFG_EN : Fld := ⟨0x0E1, 0x100, 16, 1, true⟩
abbrev F.PAT_PATROL_ADDR_LO : Fld := ⟨0x0E1, 0x800, 0, 32, false⟩
abbrev F.PAT_PATROL_ADDR_HI : Fld := ⟨0x0E1, 0x804, 0, 12, false⟩
abbrev F.PAT_PASS_NO : Fld := ⟨0x0E1, 0x808, 0, 32, false⟩
abbrev F.PAT_LAST_PASS_MIN : Fld := ⟨0x0E1, 0x80C, 0, 16, false⟩
abbrev K.PAT_PAIRS_READ : Ctr := ⟨0x0E1, 0⟩
abbrev K.PAT_CE_FOUND : Ctr := ⟨0x0E1, 1⟩
abbrev K.PAT_UE_REPAIRED : Ctr := ⟨0x0E1, 2⟩
abbrev K.PAT_UE_POISONED : Ctr := ⟨0x0E1, 3⟩
abbrev K.PAT_SR_WAKES : Ctr := ⟨0x0E1, 4⟩
abbrev F.SRS_SRAM_CFG_PASS_MS : Fld := ⟨0x0E2, 0x100, 0, 16, true⟩
abbrev F.SRS_SRAM_CFG_EN : Fld := ⟨0x0E2, 0x100, 16, 1, true⟩
abbrev F.SRS_SRAM_POS : Fld := ⟨0x0E2, 0x800, 0, 19, false⟩
abbrev K.SRS_UNITS_READ : Ctr := ⟨0x0E2, 0⟩
abbrev K.SRS_MDC_CE : Ctr := ⟨0x0E2, 1⟩
abbrev K.SRS_DIR_CE : Ctr := ⟨0x0E2, 2⟩
abbrev K.SRS_SPARE_FAULTS : Ctr := ⟨0x0E2, 3⟩
abbrev F.SLF_SELFTEST_PASS : Fld := ⟨0x0E3, 0x800, 0, 7, false⟩
abbrev F.SLF_SELFTEST_FAIL : Fld := ⟨0x0E3, 0x800, 8, 7, false⟩
abbrev F.SLF_SELFTEST_FIRST_INST : Fld := ⟨0x0E3, 0x804, 0, 16, false⟩
abbrev F.SLF_SELFTEST_US : Fld := ⟨0x0E3, 0x808, 0, 16, false⟩
abbrev F.DLO_EV_DLO_OVERFLOW : Fld := ⟨0x0F0, 0x010, 0, 1, false⟩
abbrev F.DLO_EV_UNCORRECTED_ENTRY : Fld := ⟨0x0F0, 0x010, 1, 1, false⟩
abbrev F.DLO_DLO_CFG_RING_LOG2 : Fld := ⟨0x0F0, 0x100, 0, 5, false⟩
abbrev F.DLO_NEXT_SEQ : Fld := ⟨0x0F0, 0x800, 0, 32, false⟩
abbrev F.DLO_OLDEST_SEQ : Fld := ⟨0x0F0, 0x804, 0, 32, false⟩
abbrev F.DLO_BUF_USE : Fld := ⟨0x0F0, 0x808, 0, 9, false⟩
abbrev K.DLO_ENTRIES : Ctr := ⟨0x0F0, 0⟩
abbrev K.DLO_LOST_ENTRIES : Ctr := ⟨0x0F0, 1⟩
abbrev K.DLO_DROPPED : Ctr := ⟨0x0F0, 2⟩
abbrev K.DLO_KIND (j : Nat) : Ctr := ⟨0x0F0, 3 + 1 * j⟩
abbrev F.DLR_READ_SEQ : Fld := ⟨0x0F1, 0x100, 0, 32, true⟩
abbrev F.DLR_ENTRY (j : Nat) : Fld := ⟨0x0F1, 0x800 + 0x4 * j, 0, 32, false⟩
abbrev F.DLR_READ_STATUS_HELD : Fld := ⟨0x0F1, 0x840, 0, 1, false⟩
abbrev F.CBL_EV_SPARE_DRAWN : Fld := ⟨0x100, 0x010, 0, 1, false⟩
abbrev F.CBL_EV_SPARES_LOW : Fld := ⟨0x100, 0x010, 1, 1, false⟩
abbrev F.CBL_EV_SPARE_EXHAUSTED : Fld := ⟨0x100, 0x010, 2, 1, false⟩
abbrev F.CBL_EV_RANK_RETIRE_PENDING : Fld := ⟨0x100, 0x010, 3, 1, false⟩
abbrev F.CBL_EV_RANK_RETIRE_BLOCKED : Fld := ⟨0x100, 0x010, 4, 1, false⟩
abbrev F.CBL_CBL_CFG_WINDOW : Fld := ⟨0x100, 0x100, 0, 16, true⟩
abbrev F.CBL_CBL_CFG_DEV_ROWS_LIMIT : Fld := ⟨0x100, 0x104, 0, 8, true⟩
abbrev F.CBL_CBL_CFG_ROW_CE_LIMIT : Fld := ⟨0x100, 0x104, 8, 8, true⟩
abbrev F.CBL_CBL_CFG_BANK_CE_LIMIT : Fld := ⟨0x100, 0x104, 16, 16, true⟩
abbrev F.CBL_CBL_CFG_HOST_LANE_LIMIT : Fld := ⟨0x100, 0x108, 0, 24, true⟩
abbrev F.CBL_CBL_CFG_WARN_DAYS : Fld := ⟨0x100, 0x10C, 0, 16, true⟩
abbrev F.CBL_EOL_DAYS : Fld := ⟨0x100, 0x800, 0, 32, false⟩
abbrev F.CBL_EOL_KIND : Fld := ⟨0x100, 0x804, 0, 8, false⟩
abbrev F.CBL_RATING_TJ_OK : Fld := ⟨0x100, 0x804, 8, 1, false⟩
abbrev F.CBL_RATING_WRITE_OK : Fld := ⟨0x100, 0x804, 9, 1, false⟩
abbrev K.CBL_DRAWS : Ctr := ⟨0x100, 0⟩
abbrev F.CBN_SPARE_BLOCKS_LEFT : Fld := ⟨0x101, 0x800, 0, 24, false⟩
abbrev F.CBN_SPARE_BLOCKS_MIN : Fld := ⟨0x101, 0x804, 0, 16, false⟩
abbrev F.CBN_LUNS_RETIRED : Fld := ⟨0x101, 0x808, 0, 11, false⟩
abbrev F.CBN_POSITIONS_24 : Fld := ⟨0x101, 0x80C, 0, 6, false⟩
abbrev F.CBN_POSITIONS_CLOSED : Fld := ⟨0x101, 0x80C, 8, 6, false⟩
abbrev F.CBN_WEAR_DAYS : Fld := ⟨0x101, 0x810, 0, 32, false⟩
abbrev F.CBN_INSOLE_DAYS : Fld := ⟨0x101, 0x814, 0, 32, false⟩
abbrev F.CBD_ERASED_RANKS (j : Nat) : Fld := ⟨0x102, 0x800 + 0x4 * j, 0, 16, false⟩
abbrev F.CBD_RETIRED_RANKS (j : Nat) : Fld := ⟨0x102, 0x800 + 0x4 * j, 16, 16, false⟩
abbrev F.CBD_SPPR_ROWS : Fld := ⟨0x102, 0x840, 0, 16, false⟩
abbrev F.CBD_HPPR_ROWS : Fld := ⟨0x102, 0x844, 0, 16, false⟩
abbrev F.CBD_FRAMES_RETIRED : Fld := ⟨0x102, 0x848, 0, 23, false⟩
abbrev F.CBD_PPR_LEFT_MIN : Fld := ⟨0x102, 0x84C, 0, 8, false⟩
abbrev F.CBO_MDC_WAYS_LEFT : Fld := ⟨0x103, 0x800, 0, 2, false⟩
abbrev F.CBO_DIR_BANKS_LEFT : Fld := ⟨0x103, 0x800, 8, 2, false⟩
abbrev F.CBO_CORES_LEFT : Fld := ⟨0x103, 0x800, 16, 2, false⟩
abbrev F.CBO_CXK_TX_LANES_LEFT : Fld := ⟨0x103, 0x804, 0, 2, false⟩
abbrev F.CBO_CXK_RX_LANES_LEFT : Fld := ⟨0x103, 0x804, 8, 2, false⟩
abbrev F.CBO_EFLASH_SECTORS_LEFT : Fld := ⟨0x103, 0x808, 0, 6, false⟩
abbrev F.CBO_HOST_LANES_OFF (j : Nat) : Fld := ⟨0x103, 0x810 + 0x4 * j, 0, 16, false⟩
abbrev F.CBO_FAILED_SPARES : Fld := ⟨0x103, 0x830, 0, 18, false⟩
abbrev F.EFC_EV_OP_DONE : Fld := ⟨0x130, 0x010, 0, 1, false⟩
abbrev F.EFC_EV_OP_FAIL : Fld := ⟨0x130, 0x010, 1, 1, false⟩
abbrev F.EFC_EV_REFUSED : Fld := ⟨0x130, 0x010, 2, 1, false⟩
abbrev F.EFC_EV_UNCORRECTABLE : Fld := ⟨0x130, 0x010, 3, 1, false⟩
abbrev F.EFC_EV_ERASE_RECOVERED : Fld := ⟨0x130, 0x010, 4, 1, false⟩
abbrev F.EFC_EV_SLOT_FALLBACK : Fld := ⟨0x130, 0x010, 5, 1, false⟩
abbrev F.EFC_EFC_CMD_OP : Fld := ⟨0x130, 0x100, 0, 3, true⟩
abbrev F.EFC_EFC_CMD_STALL_OK : Fld := ⟨0x130, 0x100, 8, 1, true⟩
abbrev F.EFC_EFC_CMD_GO : Fld := ⟨0x130, 0x100, 31, 1, false⟩
abbrev F.EFC_EFC_ADDR : Fld := ⟨0x130, 0x104, 4, 19, true⟩
abbrev F.EFC_EFC_CMD2_WORDS : Fld := ⟨0x130, 0x108, 0, 6, true⟩
abbrev F.EFC_EFC_CMD2_SLOT : Fld := ⟨0x130, 0x108, 8, 1, true⟩
abbrev F.EFC_PROT_ACTIVE_LOCK : Fld := ⟨0x130, 0x10C, 0, 1, false⟩
abbrev F.EFC_DATA (j : Nat) : Fld := ⟨0x130, 0x200 + 0x4 * j, 0, 32, true⟩
abbrev F.EFC_EFC_STATUS_STATE : Fld := ⟨0x130, 0x800, 0, 2, false⟩
abbrev F.EFC_EFC_STATUS_BANK : Fld := ⟨0x130, 0x800, 2, 1, false⟩
abbrev F.EFC_EFC_STATUS_CODE : Fld := ⟨0x130, 0x800, 8, 8, false⟩
abbrev F.EFC_EFC_STATUS_PULSES : Fld := ⟨0x130, 0x800, 16, 7, false⟩
abbrev F.EFC_ACTIVE_SLOT : Fld := ⟨0x130, 0x804, 0, 1, false⟩
abbrev F.EFC_POINTER_SLOT : Fld := ⟨0x130, 0x804, 1, 1, false⟩
abbrev F.EFC_POINTER_SEQ : Fld := ⟨0x130, 0x808, 0, 32, false⟩
abbrev F.EFC_RECOVERED_SECTORS : Fld := ⟨0x130, 0x80C, 0, 11, false⟩
abbrev F.EFC_FAIL_ADDR : Fld := ⟨0x130, 0x810, 0, 23, false⟩
abbrev K.EFC_PROGRAM_OPS : Ctr := ⟨0x130, 0⟩
abbrev K.EFC_ERASE_OPS : Ctr := ⟨0x130, 1⟩
abbrev K.EFC_PROGRAM_PULSES : Ctr := ⟨0x130, 2⟩
abbrev K.EFC_ERASE_PULSES : Ctr := ⟨0x130, 3⟩
abbrev K.EFC_FAILS : Ctr := ⟨0x130, 4⟩
abbrev K.EFC_REFUSALS : Ctr := ⟨0x130, 5⟩
abbrev K.EFC_STALL_NS_MAX : Ctr := ⟨0x130, 6⟩
abbrev K.EFC_CORRECTED_WORDS : Ctr := ⟨0x130, 7⟩
abbrev K.EFC_UNCORRECTABLE_WORDS : Ctr := ⟨0x130, 8⟩
abbrev F.WDT_EV_CORE_RESET : Fld := ⟨0x120, 0x010, 0, 1, false⟩
abbrev F.WDT_EV_SAVE_EXPIRY : Fld := ⟨0x120, 0x010, 1, 1, false⟩
abbrev F.WDT_EV_DEFERRED : Fld := ⟨0x120, 0x010, 2, 1, false⟩
abbrev F.WDT_CHIP_WD_TIMEOUT_MS : Fld := ⟨0x120, 0x100, 0, 16, false⟩
abbrev F.WDT_CORE_WD_WARN_US : Fld := ⟨0x120, 0x104, 0, 20, false⟩
abbrev F.WDT_CORE_WD_RESET_US : Fld := ⟨0x120, 0x108, 0, 20, false⟩
abbrev F.WDT_CORE_WD_EN : Fld := ⟨0x120, 0x10C, 0, 8, false⟩
abbrev F.WDT_KICK_CHIP : Fld := ⟨0x120, 0x110, 0, 8, false⟩
abbrev F.WDT_KICK_CORE : Fld := ⟨0x120, 0x114, 0, 8, false⟩
abbrev F.WDT_LOCK_SET : Fld := ⟨0x120, 0x118, 0, 1, false⟩
abbrev F.WDT_CHIP_LEFT_MS : Fld := ⟨0x120, 0x800, 0, 16, false⟩
abbrev F.WDT_CORE_LEFT_US (j : Nat) : Fld := ⟨0x120, 0x804 + 0x4 * j, 0, 21, false⟩
abbrev F.WDT_RESETS_60M : Fld := ⟨0x120, 0x824, 0, 16, false⟩
abbrev K.WDT_CHIP_KICKS : Ctr := ⟨0x120, 0⟩
abbrev K.WDT_CORE_WARNINGS : Ctr := ⟨0x120, 1⟩
abbrev K.WDT_CORE_RESETS : Ctr := ⟨0x120, 2⟩
abbrev K.WDT_DEFERRALS : Ctr := ⟨0x120, 3⟩
abbrev K.WDT_DEFER_US_MAX : Ctr := ⟨0x120, 4⟩
abbrev K.WDT_SAVE_EXPIRIES : Ctr := ⟨0x120, 5⟩
abbrev K.WDT_BAD_KICKS : Ctr := ⟨0x120, 6⟩
abbrev F.ICU_EV_COUNT_SAT : Fld := ⟨0x110, 0x010, 0, 1, false⟩
abbrev F.ICU_EV_LATE : Fld := ⟨0x110, 0x010, 1, 1, false⟩
abbrev F.ICU_ICU_CFG_SUBBITS : Fld := ⟨0x110, 0x100, 0, 3, false⟩
abbrev F.ICU_SWI : Fld := ⟨0x110, 0x104, 0, 8, false⟩
abbrev F.ICU_PENDING_TOTAL : Fld := ⟨0x110, 0x800, 0, 11, false⟩
abbrev F.ICU_IN_SERVICE_TOTAL : Fld := ⟨0x110, 0x804, 0, 9, false⟩
abbrev F.ISR_SRC_ENABLE (i : Nat) (j : Nat) : Fld := ⟨0x111 + i, 0x100 + 0x4 * j, 0, 1, true⟩
abbrev F.ISR_SRC_FAST (i : Nat) (j : Nat) : Fld := ⟨0x111 + i, 0x100 + 0x4 * j, 1, 1, true⟩
abbrev F.ISR_SRC_SMODE (i : Nat) (j : Nat) : Fld := ⟨0x111 + i, 0x100 + 0x4 * j, 2, 1, true⟩
abbrev F.ISR_SRC_TARGET (i : Nat) (j : Nat) : Fld := ⟨0x111 + i, 0x100 + 0x4 * j, 3, 4, true⟩
abbrev F.ISR_SRC_GROUP (i : Nat) (j : Nat) : Fld := ⟨0x111 + i, 0x100 + 0x4 * j, 8, 6, true⟩
abbrev F.ISR_SRC_PRIO (i : Nat) (j : Nat) : Fld := ⟨0x111 + i, 0x100 + 0x4 * j, 16, 8, true⟩
abbrev F.ISR_SRC_PULSE (i : Nat) (j : Nat) : Fld := ⟨0x111 + i, 0x100 + 0x4 * j, 24, 1, false⟩
abbrev F.ISR_STAT_COUNT (i : Nat) (j : Nat) : Fld := ⟨0x111 + i, 0x800 + 0x4 * j, 0, 8, false⟩
abbrev F.ISR_STAT_PENDING (i : Nat) (j : Nat) : Fld := ⟨0x111 + i, 0x800 + 0x4 * j, 8, 1, false⟩
abbrev F.ISR_STAT_PRESENTED (i : Nat) (j : Nat) : Fld := ⟨0x111 + i, 0x800 + 0x4 * j, 9, 1, false⟩
abbrev F.ISR_STAT_IN_SERVICE (i : Nat) (j : Nat) : Fld := ⟨0x111 + i, 0x800 + 0x4 * j, 10, 1, false⟩
abbrev F.ISR_STAT_CORE (i : Nat) (j : Nat) : Fld := ⟨0x111 + i, 0x800 + 0x4 * j, 11, 4, false⟩
abbrev F.ISR_STAT_INPUT (i : Nat) (j : Nat) : Fld := ⟨0x111 + i, 0x800 + 0x4 * j, 15, 1, false⟩
abbrev F.ICO_THRESH (j : Nat) : Fld := ⟨0x115, 0x100 + 0x20 * j, 0, 8, true⟩
abbrev F.ICO_COMPLETE (j : Nat) : Fld := ⟨0x115, 0x104 + 0x20 * j, 0, 10, true⟩
abbrev F.ICO_CLAIM_SOURCE (j : Nat) : Fld := ⟨0x115, 0x800 + 0x20 * j, 0, 10, false⟩
abbrev F.ICO_CLAIM_COUNT (j : Nat) : Fld := ⟨0x115, 0x800 + 0x20 * j, 10, 8, false⟩
abbrev F.ICO_CLAIM_LATE (j : Nat) : Fld := ⟨0x115, 0x800 + 0x20 * j, 29, 1, false⟩
abbrev F.ICO_CLAIM_VALID (j : Nat) : Fld := ⟨0x115, 0x800 + 0x20 * j, 31, 1, false⟩
abbrev F.ICO_RUN_LEVEL (j : Nat) : Fld := ⟨0x115, 0x804 + 0x20 * j, 0, 8, false⟩
abbrev F.ICO_ASLEEP (j : Nat) : Fld := ⟨0x115, 0x804 + 0x20 * j, 8, 1, false⟩
abbrev F.ICL_COAL_COUNT (j : Nat) : Fld := ⟨0x116, 0x100 + 0x4 * j, 0, 8, true⟩
abbrev F.ICL_COAL_TIME_US (j : Nat) : Fld := ⟨0x116, 0x100 + 0x4 * j, 8, 16, true⟩
abbrev F.ICL_COAL_STAT_COLLECTED (j : Nat) : Fld := ⟨0x116, 0x800 + 0x4 * j, 0, 8, false⟩
abbrev F.ICL_COAL_STAT_TIMING (j : Nat) : Fld := ⟨0x116, 0x800 + 0x4 * j, 8, 1, false⟩
abbrev K.ICL_FIRES (j : Nat) : Ctr := ⟨0x116, 0 + 1 * j⟩
abbrev K.ICT_CLAIMS (j : Nat) : Ctr := ⟨0x117, 0 + 1 * j⟩
abbrev K.ICT_FAST (j : Nat) : Ctr := ⟨0x117, 8 + 1 * j⟩
abbrev K.ICT_WAKES (j : Nat) : Ctr := ⟨0x117, 16 + 1 * j⟩
abbrev K.ICT_LATE (j : Nat) : Ctr := ⟨0x117, 24 + 1 * j⟩
abbrev K.ICT_WITHDRAWN : Ctr := ⟨0x117, 32⟩
abbrev K.ICT_COUNT_SATS : Ctr := ⟨0x117, 33⟩
abbrev K.ICT_BAD_COMPLETES : Ctr := ⟨0x117, 34⟩
abbrev K.ICT_RETARGETS : Ctr := ⟨0x117, 35⟩
abbrev K.ICT_PRESENT_NS_MAX : Ctr := ⟨0x117, 36⟩
abbrev F.PSQ_EV_RAIL_FAULT : Fld := ⟨0x140, 0x010, 0, 1, false⟩
abbrev F.PSQ_EV_DOWN_RAIL_FAIL : Fld := ⟨0x140, 0x010, 1, 1, false⟩
abbrev F.PSQ_EV_UP_TIMEOUT : Fld := ⟨0x140, 0x010, 2, 1, false⟩
abbrev F.PSQ_EV_SYNC_STUCK : Fld := ⟨0x140, 0x010, 3, 1, false⟩
abbrev F.PSQ_SEQ_CFG_TOP : Fld := ⟨0x140, 0x100, 0, 4, false⟩
abbrev F.PSQ_SEQ_CFG_SYNC_EN : Fld := ⟨0x140, 0x100, 4, 1, false⟩
abbrev F.PSQ_SEQ_CFG_RETRY_MAX : Fld := ⟨0x140, 0x100, 8, 2, false⟩
abbrev F.PSQ_SEQ_CFG_SYNC_TIMEOUT_MS : Fld := ⟨0x140, 0x100, 16, 8, false⟩
abbrev F.PSQ_TIMING_PG_FILTER_US : Fld := ⟨0x140, 0x104, 0, 8, false⟩
abbrev F.PSQ_TIMING_FAULT_SHUT_US : Fld := ⟨0x140, 0x104, 8, 16, false⟩
abbrev F.PSQ_TIMING_OFF_MIN_MS : Fld := ⟨0x140, 0x108, 0, 16, false⟩
abbrev F.PSQ_TIMING_PFAIL_STABLE_MS : Fld := ⟨0x140, 0x108, 16, 16, false⟩
abbrev F.PSQ_STATE_EN_SET (j : Nat) : Fld := ⟨0x140, 0x110 + 0x8 * j, 0, 16, false⟩
abbrev F.PSQ_STATE_PG_REQ (j : Nat) : Fld := ⟨0x140, 0x110 + 0x8 * j, 16, 16, false⟩
abbrev F.PSQ_STATE_TIMEOUT_MS (j : Nat) : Fld := ⟨0x140, 0x114 + 0x8 * j, 0, 8, false⟩
abbrev F.PSQ_STATE_DELAY_100US (j : Nat) : Fld := ⟨0x140, 0x114 + 0x8 * j, 8, 8, false⟩
abbrev F.PSQ_STORE_COMMIT : Fld := ⟨0x140, 0x190, 0, 1, false⟩
abbrev F.PSQ_PSQ_STATE : Fld := ⟨0x140, 0x800, 0, 4, false⟩
abbrev F.PSQ_PSQ_DIR : Fld := ⟨0x140, 0x800, 4, 2, false⟩
abbrev F.PSQ_PSQ_SYNC_HELD : Fld := ⟨0x140, 0x800, 8, 1, false⟩
abbrev F.PSQ_PSQ_SEQ_IN : Fld := ⟨0x140, 0x800, 9, 1, false⟩
abbrev F.PSQ_PSQ_SEQ_OUT : Fld := ⟨0x140, 0x800, 10, 1, false⟩
abbrev F.PSQ_PSQ_UP_HELD : Fld := ⟨0x140, 0x800, 12, 1, false⟩
abbrev F.PSQ_EN_OUT : Fld := ⟨0x140, 0x804, 0, 16, false⟩
abbrev F.PSQ_PG_IN : Fld := ⟨0x140, 0x804, 16, 16, false⟩
abbrev F.PSQ_LAST_FAULT_RAIL : Fld := ⟨0x140, 0x808, 0, 4, false⟩
abbrev F.PSQ_LAST_FAULT_STATE : Fld := ⟨0x140, 0x808, 4, 4, false⟩
abbrev F.PSQ_LAST_FAULT_KIND : Fld := ⟨0x140, 0x808, 8, 2, false⟩
abbrev F.PSQ_STORE_VERSIONS_LEFT : Fld := ⟨0x140, 0x80C, 0, 3, false⟩
abbrev K.PSQ_UP_SEQUENCES : Ctr := ⟨0x140, 0⟩
abbrev K.PSQ_DOWN_SEQUENCES : Ctr := ⟨0x140, 1⟩
abbrev K.PSQ_RAIL_FAULTS : Ctr := ⟨0x140, 2⟩
abbrev K.PSQ_DOWN_RAIL_FAILS : Ctr := ⟨0x140, 3⟩
abbrev K.PSQ_UP_TIMEOUTS : Ctr := ⟨0x140, 4⟩
abbrev K.PSQ_SYNC_WAIT_US_MAX : Ctr := ⟨0x140, 5⟩
abbrev F.MAR_EV_MARGIN_CLEARED : Fld := ⟨0x141, 0x010, 0, 1, false⟩
abbrev F.MAR_RAIL_PRESENT (j : Nat) : Fld := ⟨0x141, 0x100 + 0x4 * j, 0, 1, false⟩
abbrev F.MAR_RAIL_NOM_MV (j : Nat) : Fld := ⟨0x141, 0x100 + 0x4 * j, 16, 11, false⟩
abbrev F.MAR_MARGIN_OFFSET_MV (j : Nat) : Fld := ⟨0x141, 0x120 + 0x4 * j, 0, 8, true⟩
abbrev F.MAR_RAIL_VOUT_MV (j : Nat) : Fld := ⟨0x141, 0x800 + 0x4 * j, 0, 11, false⟩
abbrev F.MAR_RAIL_IOUT_100MA (j : Nat) : Fld := ⟨0x141, 0x800 + 0x4 * j, 16, 12, false⟩
abbrev K.MAR_MARGIN_WRITES : Ctr := ⟨0x141, 0⟩
abbrev F.THM_EV_ALERT : Fld := ⟨0x150, 0x010, 0, 1, false⟩
abbrev F.THM_EV_THROTTLE : Fld := ⟨0x150, 0x010, 1, 1, false⟩
abbrev F.THM_EV_SENSOR_FAULT : Fld := ⟨0x150, 0x010, 2, 1, false⟩
abbrev F.THM_THERM_CFG_ALERT_C : Fld := ⟨0x150, 0x100, 0, 8, true⟩
abbrev F.THM_THERM_CFG_THROTTLE_C : Fld := ⟨0x150, 0x100, 8, 8, true⟩
abbrev F.THM_THERM_CFG_HYST_C : Fld := ⟨0x150, 0x100, 16, 4, true⟩
abbrev F.THM_TRIP_C : Fld := ⟨0x150, 0x104, 0, 8, false⟩
abbrev F.THM_TJ_HOT : Fld := ⟨0x150, 0x800, 0, 10, false⟩
abbrev F.THM_HOT_SENSOR : Fld := ⟨0x150, 0x800, 16, 5, false⟩
abbrev F.THM_TJ_AVG_X10 : Fld := ⟨0x150, 0x804, 0, 12, false⟩
abbrev F.THM_TRIPPED : Fld := ⟨0x150, 0x804, 16, 1, false⟩
abbrev F.THM_TEMP (j : Nat) : Fld := ⟨0x150, 0x880 + 0x4 * j, 0, 10, false⟩
abbrev F.THM_TEMP_BAD (j : Nat) : Fld := ⟨0x150, 0x880 + 0x4 * j, 15, 1, false⟩
abbrev K.THM_TJ_PEAK_Q : Ctr := ⟨0x150, 0⟩
abbrev K.THM_THROTTLE_ROUNDS : Ctr := ⟨0x150, 1⟩
abbrev K.THM_ALERTS : Ctr := ⟨0x150, 2⟩
abbrev K.THM_SENSOR_FAULTS : Ctr := ⟨0x150, 3⟩
abbrev F.AVS_EV_AVS_FAULT : Fld := ⟨0x151, 0x010, 0, 1, false⟩
abbrev F.AVS_EV_CPM_ALARM : Fld := ⟨0x151, 0x010, 1, 1, false⟩
abbrev F.AVS_EV_FREQ_CHANGE : Fld := ⟨0x151, 0x010, 2, 1, false⟩
abbrev F.AVS_AVS_CFG_EN : Fld := ⟨0x151, 0x100, 0, 1, true⟩
abbrev F.AVS_AVS_CFG_PERIOD : Fld := ⟨0x151, 0x100, 8, 8, true⟩
abbrev F.AVS_AVS_CFG_CPM_LO : Fld := ⟨0x151, 0x100, 16, 8, true⟩
abbrev F.AVS_AVS_CFG_CPM_HI : Fld := ⟨0x151, 0x100, 24, 8, true⟩
abbrev F.AVS_AVS_CFG_VMIN_MV : Fld := ⟨0x151, 0x104, 0, 10, false⟩
abbrev F.AVS_AVS_CFG_VMAX_MV : Fld := ⟨0x151, 0x104, 16, 10, false⟩
abbrev F.AVS_AVSBUS_CFG_CLK : Fld := ⟨0x151, 0x108, 0, 2, false⟩
abbrev F.AVS_DVFS_CFG_CEIL : Fld := ⟨0x151, 0x10C, 0, 3, true⟩
abbrev F.AVS_VDD_TARGET_MV : Fld := ⟨0x151, 0x800, 0, 10, false⟩
abbrev F.AVS_FCLK_STEP : Fld := ⟨0x151, 0x804, 0, 3, false⟩
abbrev F.AVS_CPM_MIN : Fld := ⟨0x151, 0x804, 8, 8, false⟩
abbrev K.AVS_VOLT_RAISES : Ctr := ⟨0x151, 0⟩
abbrev K.AVS_VOLT_LOWERS : Ctr := ⟨0x151, 1⟩
abbrev K.AVS_FREQ_CHANGES : Ctr := ⟨0x151, 2⟩
abbrev K.AVS_AVSBUS_RETRIES : Ctr := ⟨0x151, 3⟩
abbrev F.MTI_EV_CLK_LOW_TO : Fld := ⟨0x160, 0x010, 0, 1, false⟩
abbrev F.MTI_EV_DATA_LOW_TO : Fld := ⟨0x160, 0x010, 1, 1, false⟩
abbrev F.MTI_EV_PEC_ERROR : Fld := ⟨0x160, 0x010, 2, 1, false⟩
abbrev F.MTI_EV_TX_DROPPED : Fld := ⟨0x160, 0x010, 3, 1, false⟩
abbrev F.MTI_MTI_CFG_PEC_REQ : Fld := ⟨0x160, 0x100, 0, 1, true⟩
abbrev F.MTI_MTI_CFG_FMPLUS_EN : Fld := ⟨0x160, 0x100, 1, 1, true⟩
abbrev F.MTI_MTI_CFG_DL_TIMEOUT_MS : Fld := ⟨0x160, 0x100, 8, 8, true⟩
abbrev F.MTI_MTI_CFG_STRETCH_MAX_US : Fld := ⟨0x160, 0x104, 0, 12, true⟩
abbrev F.MTI_ADDR : Fld := ⟨0x160, 0x800, 0, 7, false⟩
abbrev F.MTI_ACKING : Fld := ⟨0x160, 0x800, 8, 1, false⟩
abbrev F.MTI_TX_QUEUE : Fld := ⟨0x160, 0x800, 9, 4, false⟩
abbrev F.MTI_ALERT : Fld := ⟨0x160, 0x800, 13, 1, false⟩
abbrev K.MTI_PACKETS_RX : Ctr := ⟨0x160, 0⟩
abbrev K.MTI_PACKETS_TX : Ctr := ⟨0x160, 1⟩
abbrev K.MTI_PEC_ERRORS : Ctr := ⟨0x160, 2⟩
abbrev K.MTI_CLK_LOW_TOS : Ctr := ⟨0x160, 3⟩
abbrev K.MTI_DATA_LOW_TOS : Ctr := ⟨0x160, 4⟩
abbrev K.MTI_RECOVERIES : Ctr := ⟨0x160, 5⟩
abbrev K.MTI_TX_DROPPED : Ctr := ⟨0x160, 6⟩
abbrev K.MTI_ACCESS_DENIED : Ctr := ⟨0x160, 7⟩
abbrev F.RST_EV_TWIN_ABSENT : Fld := ⟨0x020, 0x010, 0, 1, false⟩
abbrev F.RST_EV_PAIR_MISMATCH : Fld := ⟨0x020, 0x010, 1, 1, false⟩
abbrev F.RST_EV_MEMORY_ACTIVE : Fld := ⟨0x020, 0x010, 2, 1, false⟩
abbrev F.RST_WARM_GO : Fld := ⟨0x020, 0x100, 0, 1, false⟩
abbrev F.RST_LAST_CAUSE : Fld := ⟨0x020, 0x800, 0, 3, false⟩
abbrev F.RST_BOOT_FAIL : Fld := ⟨0x020, 0x800, 8, 1, false⟩
abbrev F.RST_FW_ENTRY_US : Fld := ⟨0x020, 0x804, 0, 16, false⟩
abbrev F.RST_TRAIN_DONE_MS : Fld := ⟨0x020, 0x808, 0, 16, false⟩
abbrev F.RST_ACTIVE_MS : Fld := ⟨0x020, 0x80C, 0, 20, false⟩
abbrev F.RST_START_MEM_ACTIVE : Fld := ⟨0x020, 0x810, 0, 1, false⟩
abbrev F.RST_START_TWIN_ABSENT : Fld := ⟨0x020, 0x810, 1, 1, false⟩
abbrev F.RST_START_PAIR_FORMED : Fld := ⟨0x020, 0x810, 2, 1, false⟩
abbrev K.RST_RESETN_DEFERRED : Ctr := ⟨0x020, 0⟩
abbrev F.SEC_EV_ACCESS_DENIED : Fld := ⟨0x030, 0x010, 0, 1, false⟩
abbrev F.SEC_CORE_S_READ_BLOCKS : Fld := ⟨0x030, 0x100, 1, 26, false⟩
abbrev F.SEC_CORE_S_WRITE_BLOCKS : Fld := ⟨0x030, 0x104, 1, 26, false⟩
abbrev F.SEC_HOST_MGR_HEADS : Fld := ⟨0x030, 0x108, 0, 24, false⟩
abbrev F.SEC_HOST_WRITE_BLOCKS : Fld := ⟨0x030, 0x10C, 1, 26, false⟩
abbrev F.SEC_MCTP_WRITE_BLOCKS : Fld := ⟨0x030, 0x110, 1, 26, false⟩
abbrev K.SEC_ACCESS_DENIED : Ctr := ⟨0x030, 0⟩
abbrev F.BOOT_BOOT_SVN_ADVANCE : Fld := ⟨0x031, 0x100, 0, 1, false⟩
abbrev F.BOOT_OWNER_HASH (j : Nat) : Fld := ⟨0x031, 0x140 + 0x4 * j, 0, 32, false⟩
abbrev F.BOOT_OWNER_PROG_GO : Fld := ⟨0x031, 0x170, 0, 1, false⟩
abbrev F.BOOT_FUSE_SB_EN : Fld := ⟨0x031, 0x800, 0, 1, false⟩
abbrev F.BOOT_FUSE_KEY_S_OFF : Fld := ⟨0x031, 0x800, 1, 1, false⟩
abbrev F.BOOT_FUSE_KEY_O_SET : Fld := ⟨0x031, 0x800, 2, 1, false⟩
abbrev F.BOOT_FUSE_FIELD_CLOSED : Fld := ⟨0x031, 0x800, 3, 1, false⟩
abbrev F.BOOT_FUSE_SVN : Fld := ⟨0x031, 0x800, 8, 7, false⟩
abbrev F.BOOT_IMAGE_SVN : Fld := ⟨0x031, 0x804, 0, 7, false⟩
abbrev F.BOOT_KEY_HASH_S (j : Nat) : Fld := ⟨0x031, 0x840 + 0x4 * j, 0, 32, false⟩
abbrev F.BOOT_KEY_HASH_O (j : Nat) : Fld := ⟨0x031, 0x870 + 0x4 * j, 0, 32, false⟩
abbrev F.KEY_EV_ERASED : Fld := ⟨0x032, 0x010, 0, 1, false⟩
abbrev F.KEY_ERASE_REQ_DOMAIN : Fld := ⟨0x032, 0x100, 0, 6, true⟩
abbrev F.KEY_ERASE_REQ_GO : Fld := ⟨0x032, 0x100, 31, 1, false⟩
abbrev F.KEY_KEK (j : Nat) : Fld := ⟨0x032, 0x400 + 0x4 * j, 0, 32, false⟩
abbrev F.KEY_KEYS_LO : Fld := ⟨0x032, 0x800, 0, 32, false⟩
abbrev F.KEY_KEYS_HI : Fld := ⟨0x032, 0x804, 0, 32, false⟩
abbrev K.KEY_CRYPTO_ERASES : Ctr := ⟨0x032, 0⟩
abbrev K.KEY_DRBG_RESEEDS : Ctr := ⟨0x032, 1⟩
abbrev F.SES_EV_IDE_KEYED : Fld := ⟨0x033, 0x010, 0, 1, false⟩
abbrev F.SES_HEAD_SESSIONS (j : Nat) : Fld := ⟨0x033, 0x800 + 0x4 * j, 0, 3, false⟩
abbrev F.SES_HEAD_IDE_ACTIVE (j : Nat) : Fld := ⟨0x033, 0x800 + 0x4 * j, 8, 1, false⟩
abbrev K.SES_SPDM_REQUESTS : Ctr := ⟨0x033, 0⟩
abbrev K.SES_IDE_KEY_SETS : Ctr := ⟨0x033, 1⟩
abbrev F.DBG_CLOSE_KEY : Fld := ⟨0x040, 0x100, 0, 32, false⟩
abbrev F.DBG_CLOSE_GO : Fld := ⟨0x040, 0x104, 0, 1, false⟩
abbrev F.DBG_DBG_STATE_OPEN : Fld := ⟨0x040, 0x800, 0, 1, false⟩
abbrev F.DBG_DBG_STATE_TAP_ACTIVE : Fld := ⟨0x040, 0x800, 1, 1, false⟩
abbrev F.DBG_DBG_STATE_OVERRIDE : Fld := ⟨0x040, 0x800, 2, 1, false⟩
abbrev K.DBG_TAP_RESETS : Ctr := ⟨0x040, 0⟩

end Sys2Proof.Machine
end

