-- ==== Sys2Proof/Machine/Table.lean ====
section
/-! DEFINITION. The operations on canonical tables: read, write, erase, and the canonical form itself. -/
namespace Sys2Proof

/-- What key `k` holds: its entry, or `d k` where none is listed. -/
def Table.get {V : Type} (d : Nat → V) : Table V → Nat → V
  | [], k => d k
  | (k', v) :: r, k => if k = k' then v else Table.get d r k

/-- The table without an entry for `k`. -/
def Table.erase {V : Type} (t : Table V) (k : Nat) : Table V := t.filter fun e => e.1 != k

/-- The table with `(k, v)` in its sorted place, in place of any entry for `k`. -/
def Table.insert {V : Type} : Table V → Nat → V → Table V
  | [], k, v => [(k, v)]
  | (k', v') :: r, k, v =>
    if k < k' then (k, v) :: (k', v') :: r
    else if k = k' then (k, v) :: r
    else (k', v') :: Table.insert r k v

/-- A write: the entry is removed where `v` is what an unlisted `k` reads as. -/
def Table.set {V : Type} [DecidableEq V] (d : Nat → V) (t : Table V) (k : Nat) (v : V) : Table V :=
  if v = d k then Table.erase t k else Table.insert t k v

/-- A sequence of writes, the first of the list first. -/
def Table.setAll {V : Type} [DecidableEq V] (d : Nat → V) (t : Table V) : List (Nat × V) → Table V
  | [] => t
  | (k, v) :: r => Table.setAll d (Table.set d t k v) r

/-- The table with no entry whose key meets `p`: those keys read as unlisted ones. -/
def Table.clear {V : Type} (p : Nat → Bool) (t : Table V) : Table V := t.filter fun e => !p e.1

/-- The table with the entries of `src`, and no others, at the keys that meet `p`. -/
def Table.graft {V : Type} [DecidableEq V] (d : Nat → V) (p : Nat → Bool) (src t : Table V) : Table V :=
  Table.setAll d (Table.clear p t) (src.filter fun e => p e.1)

/-- Every key of the table is above `k`. -/
def Table.above {V : Type} (k : Nat) (t : Table V) : Bool := t.all fun e => decide (k < e.1)

/-- The canonical form: keys strictly rising, no entry equal to what its key reads as unlisted. -/
def Table.wf {V : Type} [DecidableEq V] (d : Nat → V) : Table V → Bool
  | [] => true
  | (k, v) :: r => !decide (v = d k) && Table.above k r && Table.wf d r

/-- The entries whose key meets `p`. -/
def Table.entries {V : Type} (p : Nat → Bool) (t : Table V) : List (Nat × V) := t.filter fun e => p e.1

end Sys2Proof
end

