-- ==== Sys2Proof/Machine/Types.lean ====
section
/-! DEFINITION. The parts of the state: one structure for each block and each kind of entry, queue and record the spec gives it. -/
namespace Sys2Proof.Machine

/-! ## Entries and records that several parts hold -/

/-- The forms of a record of the event logs: a Showick record (R91), and the CXL General Media and DRAM records (R90). -/
inductive RecForm where
  | showick | generalMedia | dram
  deriving DecidableEq, Repr

/-- A record on its way to the event logs of the heads (R90, R91): its form, chip, page, EVT_STATUS bit, subcode, Round, Delivery,
address and the page's STATE word. -/
structure EventRec where
  form : RecForm
  chip : Twin
  page : Nat
  bitNo : Nat
  subcode : Nat
  round : Nat
  delivery : Nat
  addr : Nat
  stateWord : Word
  deriving DecidableEq, Repr

/-- An HDM decoder: what is programmed, whether it is committed, and whether a commit waits for the memory (R76). -/
structure Decoder where
  cfg : DecoderCfg := ⟨0, 0, 1, 256, false, 0, false⟩
  committed : Bool := false
  failed : Bool := false
  waiting : Bool := false
  deriving DecidableEq, Repr

/-- One MSI-X vector of a head: table entry, pending bit, causes collected by its moderator, a cause uncollected since the last
message, a message held for D0. -/
structure Vec where
  addr : BitVec 64 := 0
  data : BitVec 32 := 0
  masked : Bool := true
  pend : Bool := false
  causes : Nat := 0
  held : Bool := false
  deriving DecidableEq, Repr

/-- One event log of a head: records, and the overflow report with its first and last timestamps (R89). -/
structure EventLog where
  recs : List (Nat × EventRec) := []
  nextHandle : Nat := 1
  overflow : Bool := false
  overflowCount : Nat := 0
  firstOverflow : Nat := 0
  lastOverflow : Nat := 0
  deriving DecidableEq, Repr

/-- A directory entry (R235). -/
structure DirEntry where
  state : Nat := 0
  presence : Nat := 0
  owner : Nat := 0
  age : Nat := 0
  way : Nat := 0
  deriving DecidableEq, Repr

/-- An Extent Map entry (R265). STATE codes: 0 UNWRITTEN, 1 BACK, 2 FRONT, 3 PROMOTING, 4 EVICTING. POLICY, OBJ_VALID, OBJECT,
CLEAN and PATCHED are read from the object table, the frame dirty map and the patch lines. -/
structure ExtEntry where
  state : Nat := 0
  pending : Bool := false
  window : Bool := false
  frame : Option Nat := none
  age : Nat := 0
  touched : Bool := false
  lost : Bool := false
  deriving DecidableEq, Repr

/-- A Parcel Map entry (R266). STATE codes: 0 NONE, 1 PACKED, 2 ZERO. -/
structure ParcelEntry where
  state : Nat := 0
  plen : Nat := 0
  loc : Nat := 0
  gen : Nat := 0
  deriving DecidableEq, Repr

/-- An object (R273). -/
structure Obj where
  first : Nat := 0
  count : Nat := 0
  policy : Nat := 0
  deriving DecidableEq, Repr

/-- A Route slot (R310, R315, R321). `pos`, `rate` and `moveRound` are what this chip's own hardware has observed (R318); `shown` is the
POS of the last record applied. `entries` holds for each entry that has been read 1 where it is skipped and 2 + its object number
otherwise; `blocks` the list blocks read, `asked` those asked for. `holds` are the extents held; `slipSeen` and `slipOpen` a slip not yet
opened and one open (entry, Round of the request); `slipped` says that the entry at POS has slipped; `barred` the extents not to be queued
again (R331); `jobPos` is POS at the last advance job. -/
structure RouteSlot where
  state : Nat := 0
  owner : Nat := 0
  listDpa : Nat := 0
  length : Nat := 0
  cyclic : Bool := false
  drop : Bool := false
  prio : Nat := 0
  lead : Nat := 0
  minExt : Nat := 0
  maxExt : Nat := 0
  pos : Nat := 0
  rate : Nat := 0
  moveRound : Nat := 0
  shown : Nat := 0
  entries : Table Nat := []
  blocks : List Nat := []
  asked : List Nat := []
  holds : List Nat := []
  slipSeen : Option (Nat × Nat) := none
  slipOpen : Option (Nat × Nat) := none
  slipped : Bool := false
  slips : Nat := 0
  barred : List Nat := []
  moved : Bool := false
  jobPos : Nat := 0
  ended : Bool := false
  deriving DecidableEq, Repr

/-- A Post Box command in progress (R149). -/
structure RingCmd where
  idx : Nat
  opcode : Nat
  flags : Nat
  tag : Nat
  operands : List Byte
  started : Bool := false
  acted : Bool := false
  deriving DecidableEq, Repr

/-- A SEAL_SUMMARY (R401). -/
structure Summary where
  kind : Nat
  damaged : Bool
  epoch : Nat
  round : Nat
  serial : Nat
  sent : Nat
  deriving DecidableEq, Repr

/-- What both chips hold of a head (R80, R89): its link as it stands, and all that a new home needs. -/
structure HeadCopy where
  link : Word := 0
  lanes : Word := 0
  ideSet : Option Nat := none
  retryWait : Bool := false
  inReset : Bool := false
  decoders : Table Decoder := []
  vecs : Table Vec := []
  logs : Table EventLog := []
  policy : Table Nat := []
  cfgSpace : Table Word := []
  sessions : List Nat := []
  cdatSeq : Nat := 0
  deriving DecidableEq, Repr

/-- A background operation of the mailbox (R85): opcode, head, first line, lines. -/
structure Background where
  opcode : Nat
  head : Fin 24
  first : Nat
  lines : Nat
  deriving DecidableEq, Repr

/-- The pair state of the mailbox (R86): the label storage area, the timestamp as set (ns, and the Round it was set in), the alert
configuration, the host's shutdown state (dirty or not), the dirty shutdown count, lines with injected poison, the background operation
and what the last media scan found. -/
structure Mail where
  lsa : Table Byte := []
  stamp : Nat × Nat := (0, 0)
  alerts : List Byte := []
  dirty : Bool := false
  dirtyCount : Nat := 0
  injected : List Nat := []
  background : Option Background := none
  scanned : List Nat := []
  deriving DecidableEq, Repr

/-- A retirement command (R458) that its chip has begun: the Post Box command it belongs to, its opcode, address and location, and
whether its PPR has started. -/
structure RetireJob where
  q : Fin 64
  idx : Nat
  opcode : Nat
  address : Nat
  location : Nat
  started : Bool := false
  deriving DecidableEq, Repr

/-- What a Post Box command ends with (R150). -/
structure RingEnd where
  q : Fin 64
  idx : Nat
  tag : Nat
  status : Nat
  result : Nat
  noIrq : Bool
  deriving DecidableEq, Repr

/-- A command that an EFFECT record announces complete (R88, R177): a Post Box command, or a head's mailbox command with its return
code. -/
inductive Ends where
  | ring (x : RingEnd)
  | mail (h : Fin 24) (code : Nat)
  deriving DecidableEq, Repr

/-- The pair state that the survivor sends in resync step CONFIG (R216, R333): pair-scope fields, objects, Routes, domain keys, heads, mailbox,
endpoint state, the pair serial and the certificate of slot 1. -/
structure PairCopy where
  fields : Table Word := []
  objects : Table Obj := []
  routes : Table RouteSlot := []
  keys : Table (Option (BitVec 512)) := []
  heads : List (Nat × HeadCopy) := []
  mail : Mail := {}
  speaker : Option (Nat × List Byte) := none
  pairSerial : Nat := 0
  pairKey : Option (BitVec 512) := none
  certificate : List Byte := []
  deriving DecidableEq, Repr

/-- What an EFFECT record (R175, R177) does to the pair state that both chips hold. -/
inductive Effect where
  | nothing
  | alerts (bytes : List Byte)
  | shutdown (dirty : Bool)
  | lsa (off : Nat) (bytes : List Byte)
  | timestamp (ns round : Nat)
  | clearLog (h : Fin 24) (log : Fin 4) (all : Bool) (handles : List Nat)
  | intPolicy (h : Fin 24) (log : Fin 4) (mode : Fin 4)
  | poison (dpa : Nat) (set : Bool) (data : Line)
  | background (x : Background)
  | backgroundDone (found : List Nat)
  | extentState (extent state : Nat)
  | extentPending (extent : Nat) (on : Bool)
  | object (number : Nat) (first count policy : Nat)
  | objectGone (number : Nat)
  | moveDone (extent : Nat)
  | rangeAsk (q : Fin 64) (idx kind : Nat) (extents : List Nat)
  | routeLoad (slot : Nat) (x : RouteSlot)
  | routeState (slot state pos rate : Nat)
  | routeHold (slot : Nat) (extents : List Nat) (pos rate : Nat)
  | routeRelease (slot : Nat) (extents : List Nat) (pos rate : Nat)
  | routePos (slot pos rate : Nat)
  | routeSlip (slot pos rate round : Nat)
  | routeClose (slot late : Nat) (unarrived : Bool) (pos : Nat)
  | ringStart (q : Fin 64) (x : RingCmd)
  | ringWritten (x : RingEnd)
  | speakerState (delivery : Nat) (bytes : List Byte)
  | eraseKey (domain : Nat) (key : Option (BitVec 512))
  | eraseAll (keys : List (Nat × BitVec 512)) (zero : Bool)
  | newKey (domain : Nat) (key : BitVec 512)
  | pairKey (key : BitVec 512)
  | firmware (off : Nat) (bytes : List Byte)
  | activate (slot : Nat)
  | copyExtent (extent round : Nat)
  | saveStart
  | sealSummary (x : Summary)
  | restoreDone
  | ideKeys (h : Fin 24) (set : Nat)
  | session (h : Fin 24) (id : Nat) (on : Bool)
  | certificate (h : Fin 24) (bytes : List Byte)
  | retire (q : Fin 64) (idx : Nat) (opcode : Nat) (chip : Twin) (address location : Nat)
  | retireDone (q : Fin 64) (idx status result : Nat)
  deriving DecidableEq, Repr

/-! ## Envelopes and postmarks (R168 to R180) -/

/-- A page write on its way to both chips (R59): accepting chip, Round accepted, who wrote, and the write. -/
structure AliasWrite where
  from' : Twin
  round : Nat
  rq : Requester
  x : PageWrite
  deriving DecidableEq, Repr

/-- One write of a link that its carbon is not tracking (R178). -/
structure BridgedWrite where
  head : Fin 24
  pos : Pos
  dpa : Nat
  enables : BitVec 64
  data : Line
  poison : Bool
  deriving DecidableEq, Repr

/-- The kinds of an ORDER record (R245). -/
inductive OrderKind where
  | access | sweep | victim | handoff
  deriving DecidableEq, Repr

/-- A postmark record (R175). -/
inductive PmRecord where
  | writeWm (h : Fin 24) (pos : Nat)
  | tapWm (h : Fin 24) (dir : Direction) (flit : Nat)
  | drainWm (h : Fin 24) (pos : Nat)
  | order (domain : Nat) (h : Fin 24) (kind : OrderKind) (pos line number : Nat)
  | aliasWrite (x : AliasWrite)
  | log (h : Fin 24) (log : Fin 4) (r : EventRec)
  | effect (e : Effect) (gated : Bool) (ends : Option Ends)
  | applied (seq : Nat)
  | hold (dpa : Nat) (on : Bool)
  deriving DecidableEq, Repr

/-- One continuation slot of a state frame (R180). -/
structure ContSlot where
  head : Fin 24
  hostToDev : Nat
  devToHost : Nat
  hostAcked : Nat
  homeAcked : Nat
  deriving DecidableEq, Repr

/-- The primary envelope of a Round state frame (R179); `parts`: the number of continuation envelopes that follow (R180). -/
structure Frame where
  round : Nat
  deliveryNo : Nat
  heartbeat : Nat
  twin : Twin
  keeper : Bool
  speaker : Bool
  mode : Nat
  own : Nat
  track : Nat
  handing : Nat
  deliveryN : Nat
  mbxDone : Nat
  budget : Nat
  unsaved : Nat
  tags : Nat
  wmbLines : Nat
  deliveryRound : Nat
  pmSent : Nat
  pmApplied : Nat
  gateSeq : Nat
  speakerDelivery : Nat
  digests : List (Nat × Nat)
  poolFree : Nat
  parts : Nat
  deriving DecidableEq, Repr

/-- What a flit of the home carries to a host; `credits` is one that carries none but credits and load (R112). -/
inductive HostMsg where
  | memData (pos : Pos) (dpa : Nat) (data : Line) (poison : Bool) (grant : Nat)
  | cmp (pos : Pos) (grant : Nat)
  | snoop (kind : Nat) (line : Nat)
  | conflictAck (line : Nat)
  | msix (v : Nat) (addr : BitVec 64) (data : BitVec 32)
  | gpfDone (phase : Nat)
  | pme
  | ioData (bytes : List Byte)
  | credits
  deriving DecidableEq, Repr

/-- One flit the home sent to a host: its count, what it carries, the device load of a response (R70), the M2S Req and RwD credits it returns
(R112), and the Round it was sent in. -/
structure TxFlit where
  flit : Nat
  msg : HostMsg
  load : Option (BitVec 2)
  credits : Nat × Nat
  round : Nat
  deriving DecidableEq, Repr

/-- One flit that a host sent, as the home's history holds it (R99): its count, the requests of CXL.mem it carries, and the Round it came in. -/
structure RxFlit where
  flit : Nat
  reqs : List Request
  round : Nat
  deriving DecidableEq, Repr

/-- The body of an envelope, by its class (R169). -/
inductive EnvBody where
  | fill
  | frame (f : Frame)
  | framePart (part : Nat) (slots : List ContSlot)
  | postmark (firstSeq : Nat) (recs : List PmRecord)
  | fetchAsk (h : Fin 24) (dir : Direction) (flit : Nat)
  | fetchUp (h : Fin 24) (flit : Nat) (r : Option RxFlit)
  | fetchDown (h : Fin 24) (flit : Nat) (m : Option TxFlit)
  | repairAsk (dpa : Nat)
  | repairData (dpa : Nat) (data : Option (Line × Bool))
  | entryAsk (line : Nat)
  | entryData (line : Nat) (entry : Option DirEntry)
  | bridge (ws : List BridgedWrite)
  | accessRead (rq : Requester) (page off size : Nat)
  | accessWrite (rq : Requester) (x : PageWrite)
  | accessAnswer (rq : Requester) (value : BitVec 64)
  | event (r : EventRec) (log : Fin 4)
  | csign (dpa : Nat) (carbonData : Line)
  | delayProbe
  | laneSwapAsk (lane spare : Nat)
  | trainAsk
  | rekeyAsk (round : Nat)
  | resyncState (x : PairCopy)
  | resyncDirectory (line : Nat) (entry : DirEntry)
  | resyncExtent (extent : Nat) (bytes : List (Nat × Byte)) (poisoned : List Nat)
  deriving DecidableEq, Repr

/-- An envelope (R168): the key epoch and the envelope count of its IV (R172), its sequence number, the ACK and NAK it carries, the sender's
Round and its payload. -/
structure Envelope where
  epoch : Nat
  count : Nat
  seq : Nat
  ack : Nat
  nak : Bool
  round : Nat
  body : EnvBody
  deriving DecidableEq, Repr

/-- The class code of an envelope (R169). -/
def EnvBody.cls : EnvBody → Nat
  | .fill => 0
  | .frame _ | .framePart _ _ => 1
  | .postmark _ _ => 2
  | .fetchAsk _ _ _ | .fetchUp _ _ _ | .fetchDown _ _ _ => 3
  | .repairAsk _ | .repairData _ _ | .entryAsk _ | .entryData _ _ => 4
  | .bridge _ => 5
  | .accessRead _ _ _ _ | .accessWrite _ _ | .accessAnswer _ _ => 6
  | .event _ _ | .csign _ _ => 7
  | .delayProbe | .laneSwapAsk _ _ | .trainAsk | .rekeyAsk _ => 8
  | .resyncState _ | .resyncDirectory _ _ | .resyncExtent _ _ _ => 9

/-- The priority of a class when envelopes wait to be sent (R169). -/
def classPriority : Nat → Nat
  | 0 => 7
  | 1 => 0
  | 2 => 1
  | 3 => 2
  | 4 => 2
  | 5 => 3
  | 6 => 4
  | 7 => 4
  | 8 => 0
  | _ => 6

/-! ## The clock and the pages -/

/-- The Round scheduler (R25 to R33): where in the Round it stands, the slack, the jobs still to run in this Round, the job that is
running past its allowance, the work each job needs in this Round, and the jobs that deferred in it. Jobs are numbered 1 to 7 in
run order (R26). -/
structure Sched where
  now : Nat := 4000
  slack : Int := 0
  left : List Nat := []
  running : Option Nat := none
  need : List Nat := [0, 0, 0, 0, 0, 0, 0]
  deferred : List Nat := []
  deriving DecidableEq, Repr

/-- The clock block: the 48-bit round number, the Delivery number, Rounds of the Delivery begun, DELIVERY_N in force, as the peer last
reported it and as this chip last did, the length of this Round and of the next in REFCLK periods (R20, R22), consecutive deferring
Rounds per job, the job to promote, the end of the last job of the Round that has closed and the scheduler. -/
structure Clk where
  round : Nat := 0
  deliveryNo : Nat := 0
  deliveryRound : Nat := 0
  deliveryN : Nat := 250
  peerDeliveryN : Option Nat := none
  sentDeliveryN : Option Nat := none
  roundLen : Nat := 400
  nextLen : Nat := 400
  endNs : Nat := 0
  streak : List Nat := [0, 0, 0, 0, 0, 0, 0]
  promote : Option Nat := none
  sched : Sched := {}
  deriving DecidableEq, Repr

/-! ## Host ports and heads -/

/-- What a mailbox command answered: the return code, and the output as numbers or bytes. -/
structure MailReply where
  code : Nat := 0
  words : List Nat := []
  bytes : List Byte := []
  recs : List EventRec := []
  deriving DecidableEq, Repr

/-- How far the carbon follows one link (R101), with what it holds of the stream. -/
structure Tracking where
  enteredRound : Nat := 0
  missed : List Nat := []
  missedDown : List Nat := []
  behind : List RxFlit := []
  behindDown : List TxFlit := []
  kept : List TxFlit := []
  decodedUp : Nat := 0
  decodedDown : Nat := 0
  fetched : Bool := false
  deriving DecidableEq, Repr

/-- One head on one chip. `Table` fields are keyed by decoder, vector and offset. `histLost`: a flit has left a history early and the event is
due. `reqUsed`, `rwdUsed`: the M2S credits in use, of which `reqOwed`, `rwdOwed` go back with the next flit (R112). `rate`, `coefs`: what the
carbon of the port loads its transmitters with (R97). `mailCmd`: the mailbox command register. `mailAgain`: what this chip, as carbon, would
answer to a command whose completion the home has not reported (R88). `noRoom`: waiting MemSpecRd whose channel queue is full (R121). -/
structure Head where
  decoders : Table Decoder := []
  vecs : Table Vec := []
  logs : Table EventLog := []
  policy : Table Nat := []
  cfgSpace : Table Word := []
  payload : Table Byte := []
  reply : MailReply := {}
  mailBusy : Option Nat := none
  mailRetry : Bool := false
  cdatSeq : Nat := 0
  unmappedNoted : Bool := false
  retryWait : Bool := false
  inReset : Bool := false
  gpf2 : Option (List (Fin 24 × Nat)) := none
  reqQ : List Request := []
  rwdQ : List Request := []
  rxHist : List RxFlit := []
  txHist : List TxFlit := []
  histLost : Bool := false
  reqUsed : Nat := 0
  rwdUsed : Nat := 0
  reqOwed : Nat := 0
  rwdOwed : Nat := 0
  rate : Nat := 0
  coefs : Nat × Nat × Nat := (0, 0, 0)
  mailCmd : Nat := 0
  mailAgain : Option MailReply := none
  noRoom : List Nat := []
  pmeStatus : Bool := false
  txCount : Nat := 0
  rxCount : Nat := 0
  hostAck : Nat := 0
  tapUp : Nat := 0
  tapDown : Nat := 0
  covered : Option Nat := none
  peerDrained : Option Nat := none
  lastStored : Option Nat := none
  seenPos : Option Nat := none
  lastWmSent : Option Nat := none
  lastDrainWm : Option Nat := none
  track : Tracking := {}
  rdTokens : Nat := 0
  wrTokens : Nat := 0
  lastWasReq : Bool := false
  reqNoted : List Nat := []
  rwdNoted : List Nat := []
  peerTracks : Bool := false
  localPos : Option Nat := none
  sessions : List Nat := []
  handshakes : List Nat := []
  spdm : Nat := 0
  doeReply : MailReply := {}
  doeWait : Bool := false
  doeError : Bool := false
  admitted : Option Nat := none
  deriving DecidableEq, Repr

/-! ## Sorter, WMB and Post Box -/

/-- What a Sorter entry waits for. -/
inductive Stage where
  | translate | dram | parcelCache | direct | fill | repair | order | snoop | applied | writeWm | indexWait | done
  deriving DecidableEq, Repr

/-- A Sorter entry (R115): a tag on the home, a shadow entry on the carbon. `noted`: its allocation has counted as waiting (R251); `issued`: its pair access has been issued, for the other line of the pair (R414). -/
structure Tag where
  req : Request
  dpa : Nat
  isTag : Bool
  stage : Stage
  grant : Nat := 0
  orderNo : Option Nat := none
  recSeq : Nat := 0
  snoopsLeft : List (Fin 24) := []
  held : Line := 0
  heldPoison : Bool := false
  fixed : Bool := false
  noted : Bool := false
  issued : Bool := false
  deriving DecidableEq, Repr

/-- The states of a WMB entry (R127). -/
inductive WmbState where
  | free | valid | draining
  deriving DecidableEq, Repr

/-- A WMB entry (R125 to R128, R138). `age` numbers first writes; `whole`: a MemWr without poison has written all 64 bytes; the `issued` fields hold
the entry as its drain was issued. -/
structure WmbEntry where
  state : WmbState := .free
  data : Line := 0
  mask : BitVec 64 := 0
  poison : Bool := false
  redrain : Bool := false
  eligible : Bool := false
  age : Nat := 0
  issuedMask : BitVec 64 := 0
  issued : Line := 0
  whole : Bool := false
  issuedWhole : Bool := false
  issuedPoison : Bool := false
  deriving DecidableEq, Repr

/-- A line charged to the home of the port that wrote it (R129). -/
structure Charge where
  head : Fin 24 := 0
  pos : Nat := 0
  here : Bool := false
  active : Bool := false
  deriving DecidableEq, Repr

/-- A completion that waits for the peer's postmark (R151): the record that announced it, whose own number the chip counts by. -/
structure RingDone where
  e : RingEnd
  recSeq : Option Nat
  deriving DecidableEq, Repr

structure Ring where
  fetched : List RingCmd := []
  finished : List RingDone := []
  deriving DecidableEq, Repr

/-! ## Twin engine, Coxia Link, coherence -/

/-- The transmit and receive side of one chip's Coxia Link. `tx`: envelopes on their way to the peer, oldest first; `waiting`: not
sent yet; `replay`: sent and not acknowledged; `asked`: the reads of peer pages that wait for their answer: who asked, the size and the
Round (R43). -/
structure Link where
  tx : List Envelope := []
  waiting : List EnvBody := []
  replay : List Envelope := []
  seq : Nat := 0
  rxSeq : Nat := 0
  nakNext : Bool := false
  authRun : Nat := 0
  sparing : List (Nat × Nat) := []
  rekeyAt : Option Nat := none
  count : Nat := 0
  asked : List (Requester × Nat × Nat) := []
  deriving DecidableEq, Repr

/-- A gated effect that waits for its covering frame (R177): sender, record sequence number, effect, the command it ends, and the Round in
which the covering frame was sent. -/
structure GatedEffect where
  from' : Twin
  seq : Nat
  effect : Effect
  ends : Option Ends := none
  due : Option Nat := none
  deriving DecidableEq, Repr

/-- The twin engine of one chip. `repairs`: the lines under cross-twin repair and `repairQ` those that wait for one of its 64 places (R210), each with
the SOURCE of its Dead-Letter entry (R454), 0 where none is written; `checked`: the Round whose check of the peer has been made (R181); `peerSlots`: the continuation slots that came
with the peer's last frame (R180); `peerPool`: the peer's pool as this chip knows it (R40); `byteRepairs`: bytes of WMB lines that wait for the peer's (R139); `paused`: extents whose copy the joiner
could not hold (R217); `bridgeQ`, `bridgeSent`: bridged writes that wait to be sent, and the payload bytes bridged in this Round (R178). -/
structure Twe where
  pmSeq : Nat := 0
  rxRecs : List (Nat × PmRecord) := []
  pmApplied : Nat := 0
  gated : List GatedEffect := []
  aliasQ : List AliasWrite := []
  heartbeat : Nat := 0
  lastHb : Option Nat := none
  hbSeen : Bool := false
  checked : Option Nat := none
  peerFrame : Option Frame := none
  peerSlots : List ContSlot := []
  peerPool : Option Nat := none
  digestTurn : Nat := 0
  bothLost : Nat := 0
  hbOnlyLost : Nat := 0
  pulseOnlyLost : Nat := 0
  lossDeclared : Option Nat := none
  handing : List (Fin 6) := []
  handoverWait : List (Fin 6 × Nat) := []
  returnQ : List (Fin 6) := []
  drillBack : Option (Fin 6 × Option Nat) := none
  claimCold : List (Fin 24) := []
  changeMap : Option (List Nat) := none
  changeDram : List Nat := []
  holds : List Nat := []
  repairs : List (Nat × Nat) := []
  repairQ : List (Nat × Nat) := []
  byteRepairs : List (Nat × Nat) := []
  inCopy : List Nat := []
  copied : List Nat := []
  copyDue : List (Nat × Nat) := []
  noJoin : Bool := false
  speakerState : Option (Nat × List Byte) := none
  endpointUp : Bool := false
  cleanCopy : Bool := true
  fromStarting : Bool := false
  startLinkDown : Bool := false
  arrived : List (Nat × List Host.Cell × List Nat) := []
  paused : List Nat := []
  bridgeQ : List BridgedWrite := []
  bridgeSent : Nat := 0
  csign : Nat := 0
  drilling : Option (Fin 6) := none
  deriving DecidableEq, Repr

/-- A snoop that has not been answered: line, target head, kind (0 Cur, 1 Data, 2 Inv), whether its flit is known to be sent. -/
structure Snoop where
  line : Nat
  head : Fin 24
  kind : Nat
  sent : Bool := false
  deriving DecidableEq, Repr

/-- An access that the arbiter has admitted and that is not settled (R244): line, head, position, the record that orders it, whether its
directory action is complete, whether it takes a new entry. -/
structure Unsettled where
  line : Nat
  head : Fin 24
  pos : Nat
  recSeq : Nat
  done : Bool
  alloc : Bool
  deriving DecidableEq, Repr

/-- The coherence engine of one chip: directory entries it arbitrates, the shadow table of those it follows, the victim buffer,
snoops, unsettled accesses, the order number of each domain, accesses that a record has ordered here and not yet acted on, heads to be cleared
(one snooped line, or one domain, where named), the snoops and BIRsp that the carbon lanes showed ahead of the record that orders their access,
and lines whose shadow entry is fetched from the arbiter (R237). -/
structure Che where
  sram : Table DirEntry := []
  shadow : Table DirEntry := []
  shadowDram : Table DirEntry := []
  victims : List Nat := []
  snoops : List Snoop := []
  unsettled : List Unsettled := []
  orderNo : Table Nat := []
  ordered : List (Nat × Fin 24 × Nat) := []
  awaitHandoff : List Nat := []
  migrating : List Nat := []
  answered : List (Fin 24 × Nat) := []
  clearing : List (Fin 24 × Option Nat × Option Nat) := []
  early : List (Nat × Fin 24 × Option Nat) := []
  fetching : List Nat := []
  deriving DecidableEq, Repr

/-! ## Tiers, Metadata Cache, Routes -/

/-- A queued or running migration (R284): class in the order of R284, extent, whether it promotes. -/
structure Mig where
  cls : Nat
  extent : Nat
  promote : Bool
  started : Bool := false
  doneHere : Bool := false
  donePeer : Bool := false
  startRound : Nat := 0
  deriving DecidableEq, Repr

/-- A range command that waits for its extents (R278): its kind (0 promote, 1 evict, 2 discard), the extents left, those acted on, and the
first extent it did not act on with its status. -/
structure RangeWait where
  q : Fin 64
  idx : Nat
  kind : Nat
  left : List Nat
  ok : Nat
  fail : Option (Nat × Nat)
  deriving DecidableEq, Repr

/-- The tier manager and the stored bytes of one chip. `front` holds the bytes of frames, `packed` the bytes of back-tier copies and
`patch` the bytes of patch lines, each keyed by DPA; an unlisted byte is 0 (R263, R268). `leaked`: frames held out of the pool, `refetch`,
`refetchParcels`: extents and parcels whose content the twin is asked for (R444, R445); `indexLost`: sets of the patch index that are rebuilt, with
the Round by which they are (R444); `repairDue`: lines that a save found uncorrectable (R443). -/
structure Trm where
  front : List Host.Cell := []
  packed : List Host.Cell := []
  patch : List Host.Cell := []
  frontPoison : List Nat := []
  packedPoison : List Nat := []
  patchPoison : List Nat := []
  healed : List Nat := []
  patchLines : List Nat := []
  ext : Table ExtEntry := []
  extDram : Table ExtEntry := []
  parcels : Table ParcelEntry := []
  parcelsDram : Table ParcelEntry := []
  dirty : List Nat := []
  dirtyDram : List Nat := []
  objectsDram : Table Obj := []
  patchChains : Table (List Nat) := []
  patchDram : Table (List Nat) := []
  pcacheDram : Table (Nat × Nat) := []
  readyDram : Table Bool := []
  pcacheWaits : List (Nat × Nat) := []
  promoteCredit : Nat := 0
  evictCredit : Nat := 0
  stepDone : List Nat := []
  stepRunning : List Nat := []
  objects : Table Obj := []
  hits : Table Nat := []
  queue : List Mig := []
  slots : List Mig := []
  waits : List RangeWait := []
  firstWrites : List Nat := []
  discards : List Nat := []
  pinWaits : List Nat := []
  freeing : List (Nat × Nat) := []
  zeroing : List Nat := []
  leaked : List Nat := []
  refetch : List Nat := []
  refetchParcels : List Nat := []
  indexLost : List (Nat × Nat) := []
  repairDue : List Nat := []
  ready : Table Bool := []
  fillAhead : List Nat := []
  pcache : Table (Nat × Nat) := []
  pcacheStamp : Nat := 0
  tc : Table (List Nat) := []
  tcFill : Table (Option Nat) := []
  tcHoles : Table (List Nat) := []
  deriving DecidableEq, Repr

/-- One MDC line (R295): tag, whether a line is held, dirty, its way locked, its reference bit. -/
structure MdcLine where
  held : Bool := false
  tag : Nat := 0
  dirty : Bool := false
  locked : Bool := false
  ref : Bool := false
  deriving DecidableEq, Repr

/-- The Metadata Cache: lines keyed by set × 32 + way, the eviction buffer, fills in flight with their discard marks, whether the
reset invalidation has ended, and the maintenance operation in progress (kind, line, lines left). -/
structure Mdc where
  lines : Table MdcLine := []
  evb : List Nat := []
  fills : List (Nat × Bool) := []
  fillQueue : List Nat := []
  invalidated : Bool := false
  op : Option (Nat × Nat × Nat) := none
  disabling : List Nat := []
  deriving DecidableEq, Repr

structure Rte where
  slots : Table RouteSlot := []
  deriving DecidableEq, Repr

/-! ## Media engine -/

/-- A row of the Last (R340, R356). STATE: 0 free, 1 open, 2 closed, 3 waiting for erase, 4 not formatted. -/
structure MdeRow where
  state : Nat := 4
  data : Nat := 28
  live : Nat := 0
  lost : Nat := 0
  nextCell : Nat := 0
  valid : Nat := 0
  closeRound : Nat := 0
  stream : Nat := 0
  queued : Nat := 0
  parcels : Nat := 0
  todo : Nat := 0
  victim : Nat := 0
  deriving DecidableEq, Repr

/-- A program or an erase of a LUN under way (R348): its position, column and row, when it would end undisturbed in µs from Round 0, how often it
was suspended, and whether it is. -/
structure BusyOp where
  pos : Nat
  col : Nat
  row : Nat
  erase : Bool
  ends : Nat
  suspends : Nat := 0
  suspended : Bool := false
  deriving DecidableEq, Repr

/-- A packed copy that is staged: parcel, row, first cell, cells, and the columns still to program (R356). -/
structure Staged where
  parcel : Nat
  row : Nat
  cell : Nat
  cells : Nat
  left : Nat
  deriving DecidableEq, Repr

/-- One level of a block group (R354). -/
structure Threshold where
  offset : Int := 0
  up : Nat := 0
  down : Nat := 0
  deriving DecidableEq, Repr

structure Mde where
  formatted : Bool := false
  fmt : List Nat := []
  scan : MediaScan := {
    blockMib := 16
    positions := 32
    good := []
    profileId := 0
    peTlc := 0
    peSlc := 0
    tprogSlcUs := 0
    blocks := 32768
    pages := 0
    planes := 4
    trUs := 0
    tprogUs := 0 }
  rows : Table MdeRow := []
  staged : List Staged := []
  direct : List (Nat × Nat) := []
  busy : List BusyOp := []
  members : List Nat := []
  worn : List Nat := []
  groups : Table (List Nat) := []
  merges : List Nat := []
  moves : List (Nat × Nat) := []
  patchBorn : Table Nat := []
  erases : Table Nat := []
  spares : Table Nat := []
  thresholds : Table Threshold := []
  weakBlocks : Table (Nat × Nat) := []
  ueBlocks : Table Nat := []
  wafHistory : List (Nat × Nat) := []
  retireAtErase : Table Nat := []
  retiredLuns : List Nat := []
  scrubPos : Nat := 0
  hostDerived : Nat := 0
  deriving DecidableEq, Repr

/-! ## Save and restore -/

/-- A seal (R398) as the Insole holds it, with what a read of it found. -/
structure Seal where
  kind : Nat
  twin : Nat
  serial : Nat
  epoch : Nat
  round : Nat
  delivery : Nat
  bytes : Nat
  firstRow : Nat
  rows : Nat
  records : Nat
  checkpoint : Nat
  damaged : Bool := false
  deriving DecidableEq, Repr

/-- What a save (R397) or the metadata (R404, R601) keeps of one chip: the extent placement, the Parcel Map, the objects, the
Routes, the stored values of the pair-scope fields, and, in a save only, the WMB, the frames and the patch lines. -/
structure Image where
  ext : Table ExtEntry := []
  parcels : Table ParcelEntry := []
  objects : Table Obj := []
  routes : Table RouteSlot := []
  pairFields : Table Word := []
  wmb : Table WmbEntry := []
  charges : Table Charge := []
  front : List Host.Cell := []
  frontPoison : List Nat := []
  dirty : List Nat := []
  patch : List Host.Cell := []
  patchLines : List Nat := []
  patchPoison : List Nat := []
  healed : List Nat := []
  resyncFull : Bool := false
  patchBorn : Table Nat := []
  staged : List Staged := []
  repairDue : List Nat := []
  risk : List Nat := []
  mail : Mail := {}
  keys : Table (Option (BitVec 512)) := []
  speaker : Option (Nat × List Byte) := none
  changeMap : Option (List Nat) := none
  changeBase : Nat := 0
  deriving DecidableEq, Repr

/-- The save controller of one chip (R380 to R407). The Insole and the metadata are media: `sealRec`, `saved`, `durable`, `checkpoint`,
`pairSerial` outlive a reset. `insoleAt`: where the rotation of the Insole's rows stands; `rewrites`: waves of a save that a failed program makes it
write again; `lastSave`: LAST_SAVE; `missedLines`: the throttles of Rounds whose refill is still to be credited (R389). -/
structure Svc where
  pfailLow : Bool := false
  committed : Option Nat := none
  decided : Bool := false
  lone : Bool := false
  peerStart : Option Nat := none
  held : Bool := false
  risingRun : Nat := 0
  risingMin : Nat := 7
  throttle : Option Nat := none
  governed : Bool := false
  journalTail : Nat := 0
  risk : List Nat := []
  riskChanged : Bool := false
  insoleAt : Nat := 0
  rewrites : Nat := 0
  lastSave : Nat × Nat × Nat := (0, 0, 0)
  missedLines : List (Option Nat) := []
  tprog : List (Nat × Nat) := []
  saveRateCap : Option Nat := none
  probeLun : Nat := 0
  calibrated : Bool := false
  sealRec : Option Seal := none
  saved : Image := {}
  durable : Image := {}
  checkpoint : Nat := 0
  saveRowsHeld : Nat := 0
  pairSerial : Nat := 0
  epoch : Nat := 0
  formattedNow : Bool := false
  formedNow : Bool := false
  own : Option Summary := none
  peer : Option Summary := none
  source : Nat := 0
  mapsLoaded : Bool := false
  dataLoaded : Bool := false
  restoreSent : Bool := false
  summarySent : Bool := false
  badRecords : List Nat := []
  restoreApplied : List Twin := []
  activeDue : Option Nat := none
  refill : List Nat := []
  deriving DecidableEq, Repr

/-! ## DRAM controller, errors and spares -/

/-- One DRAM channel (R410 to R437). `refreshing` lists (rank, bank index or 4 for all four); `rows` the open row of each rank × 32 +
bank group × 4 + bank; `lastRow` the row after the last one accessed there, 0 before the first; `predict` the counters of R417; `out` the rank
out of service. `tokens`: the bucket of each client; `waiting`: lines of host reads and drains that wait for tokens, by client; `owed`: lines that the
accesses of a client not yet issued move (R432); `joined`: lines that another line's pair write has written (R414); `acts`: activations of each
bank (R423). -/
structure Chan where
  trained : Bool := false
  training : ChannelTraining := ⟨0, 0, 0, 0, 0, 0, 0, 0, 0, false, 0, 0, 0⟩
  refreshing : List (Nat × Nat) := []
  tokens : Table Nat := []
  waiting : List (Nat × Nat) := []
  owed : Table Nat := []
  joined : List Nat := []
  acts : Table Nat := []
  rows : Table (Option Nat) := []
  lastRow : Table Nat := []
  predict : Table Nat := []
  out : Option Nat := none
  retrainDue : List Nat := []
  pprFrom : Option (Nat × Nat × Nat × Nat) := none
  pprHard : Bool := false
  pprAuto : Bool := false
  buffer : List Host.Cell := []
  zqWait : List Nat := []
  baseline : Table Int := []
  loggedRows : List (Nat × Nat) := []
  devRows : Table (List Nat) := []
  rowCe : Table Nat := []
  backlog : Nat := 0
  pprUsed : Table Nat := []
  deriving DecidableEq, Repr

/-- A Dead-Letter Log entry (R453). -/
structure DloEntry where
  seq : Nat
  round : Nat
  delivery : Nat
  source : Nat
  level : Nat
  kind : Nat
  copy : Nat
  address : Nat
  location : Nat
  syndrome : BitVec 128
  count : Nat
  deriving DecidableEq, Repr

/-- The scrubbers and the Dead-Letter Log (R446 to R456): fractions of pairs and units due, the pass clocks, the on-chip buffer and
the ring. -/
structure Ras where
  patrolAcc : Nat := 0
  scrubAcc : Nat := 0
  passStart : Nat := 0
  late : Bool := false
  buffer : List DloEntry := []
  ring : List DloEntry := []
  deriving DecidableEq, Repr

/-- The Spare Ledger and Cobbler (R460 to R466). The Ledger is kept in the back tier's metadata and outlives every reset. `leftOut`: the ranks that the
layout of this start leaves out (R427, R600). -/
structure Cbl where
  windowLeft : Nat := 1000
  retiredRanks : List (Nat × Nat) := []
  leftOut : List (Nat × Nat) := []
  rankPending : List (Nat × Nat) := []
  spprRows : List (Nat × Nat) := []
  hpprRows : List (Nat × Nat) := []
  pprWait : List (Nat × Nat × Bool) := []
  framesRetired : List Nat := []
  retiredBanks : List Nat := []
  bankMigrating : List Nat := []
  shadowBanks : List Nat := []
  bankCe : Table Nat := []
  dimmSerials : Table (Nat × Nat) := []
  retiredWays : List Nat := []
  laneOver : Table Nat := []
  hostLanesOff : Table Nat := []
  failedSpares : Nat := 0
  coreRetired : List Nat := []
  today : Table Nat := []
  history : List (Table Nat) := []
  dayRounds : Nat := 0
  retireJobs : List RetireJob := []
  coreSwap : Option Nat := none
  serviceRounds : Nat := 0
  deriving DecidableEq, Repr

/-! ## Cores, interrupts, eflash, watchdogs -/

/-- One logical control core (R478 to R484): the physical core that holds it, both banks of x1 to x31, the Showick CSRs, its 16 PMP entries,
which no command reads or writes, and what of its execution the manual's events change. `cache` holds the bytes that its data cache has written and not cleaned, by chip-local DRAM
address. -/
structure Core where
  phys : Nat := 0
  running : Bool := false
  asleep : Bool := false
  machine : Bool := true
  pc : BitVec 64 := 0
  x : Table (BitVec 64) := []
  shadow : Table (BitVec 64) := []
  inFast : Bool := false
  fastSource : Option Nat := none
  fepc : BitVec 64 := 0
  fcause : BitVec 64 := 0
  fstatusMode : Bool := false
  fvec : BitVec 64 := 0
  mstatus : BitVec 64 := 0
  mepc : BitVec 64 := 0
  mcause : BitVec 64 := 0
  mtvec : BitVec 64 := 0
  pmpCfg : Table Byte := []
  pmpAddr : Table (BitVec 64) := []
  dcflush : BitVec 64 := 0
  mtimecmp : Nat := 0
  mtip : Bool := false
  reservation : Option Nat := none
  scratch : List Host.Cell := []
  cache : Table (Option Byte) := []
  warned : Bool := false
  kickRound : Int := 0
  deriving DecidableEq, Repr

/-- A source of the interrupt controller (R497 to R505). -/
structure IntSource where
  count : Nat := 0
  presented : Option Nat := none
  serving : Option Nat := none
  input : Bool := false
  late : Bool := false
  fired : Bool := false
  claimCount : Nat := 0
  deriving DecidableEq, Repr

/-- A coalescing group (R500). -/
structure Group where
  collected : Nat := 0
  timing : Bool := false
  since : Int := 0
  deriving DecidableEq, Repr

structure Icu where
  sources : Table IntSource := []
  groups : Table Group := []
  deriving DecidableEq, Repr

/-- An eflash operation that runs (R487): 1 PROGRAM, 2 ERASE, 3 PTR_SWAP in its program, 4 PTR_SWAP in the erase before it. -/
structure EfcOp where
  op : Nat
  offset : Nat
  data : List Byte
  slot : Nat
  pulses : Nat := 0
  deriving DecidableEq, Repr

/-- The boot flash (R485 to R490). `bytes` is keyed by eflash offset, unlisted bytes are 0xFF; `flags` the sectors whose flag cell is
set; `cut` the offsets of words whose program a reset cut short, so that they fail their check bits; `remapped` the sectors that stand in a spare;
`bad` those with no spare left. -/
structure Efc where
  bytes : Table Byte := []
  flags : List Nat := []
  cut : List Nat := []
  remapped : List Nat := []
  bad : List Nat := []
  op : Option EfcOp := none
  deriving DecidableEq, Repr

/-- The watchdogs (R491 to R495). `resets` holds the Rounds of core resets of the last 60 minutes, in the always-on domain, whose count of Rounds
`chipKick` takes too. -/
structure Wdt where
  chipKick : Int := 0
  deferChip : Bool := false
  deferWarn : List Nat := []
  deferReset : List Nat := []
  resets : Table (List Int) := []
  deriving DecidableEq, Repr

/-! ## Board services -/

/-- The power sequencer (R514 to R526), in the always-on domain. `phase`: 0 waits for PG, 1 in its delay, 2 satisfied. `store` is the
committed versions of the sequence table, the first one first, each keyed by page offset. `base` + the round number counts the Rounds of the always-on domain (R190, R495). -/
structure Psq where
  phase : Nat := 2
  attempts : Nat := 0
  offServed : Bool := true
  alone : Bool := false
  faultWait : Bool := false
  afterFailstop : Bool := false
  store : List (Table Word) := []
  versionsUsed : Nat := 0
  table : Table Word := []
  failRounds : List Int := []
  base : Int := 0
  deriving DecidableEq, Repr

/-- An AVSBus frame on its way (R531): rail, kind (0 voltage write, 1 current, 2 temperature, 3 voltage read) and value. -/
structure AvsFrame where
  rail : Nat
  kind : Nat
  value : Nat
  tries : Nat := 0
  deriving DecidableEq, Repr

structure Thm where
  missing : Table Nat := []
  hotRun : Nat := 0
  coolRun : Nat := 0
  tripRun : Nat := 0
  above : Bool := false
  throttleStep : Nat := 0
  stepDue : Option Nat := none
  raiseReady : Bool := false
  frames : List AvsFrame := []
  lastGood : Nat := 800
  held : Bool := false
  lowerDue : Bool := false
  trip : Bool := false
  avgSum : Nat := 0
  avgCount : Nat := 0
  deriving DecidableEq, Repr

/-- The management interface and the endpoint's packets (R535 to R541). `bus`: 0 idle, 1 receiving, 2 sending. -/
structure Mti where
  bus : Nat := 0
  holdSda : Bool := false
  rx : List (List Byte) := []
  tx : List (List Byte) := []
  last : List Byte := []
  deriving DecidableEq, Repr

/-! ## Reset, security, debug -/

/-- The pins and switches that hold a chip in reset, and what start-up has reached (R548 to R557). -/
structure Rst where
  powered : Bool := false
  resetN : Bool := false
  fenced : Bool := false
  extested : Bool := false
  resetPending : Bool := false
  step : Nat := 0
  bootFailed : Bool := false
  aonUp : Bool := false
  twinId : Nat := 0
  chipSerial : Nat := 1
  smbAddr : Nat := 0
  activeSlot : Nat := 0
  releaseRound : Nat := 0
  imageSvn : Nat := 0
  deriving DecidableEq, Repr

/-- Fuses, keys and sessions of one chip (R558 to R578). `keys` holds the key pair of each domain, `erasing` the domains whose
crypto-erase has not completed here. -/
structure Sec where
  keys : Table (Option (BitVec 512)) := []
  erasing : List Nat := []
  sbEn : Bool := false
  keySOff : Bool := false
  keyOSet : Bool := false
  fieldClosed : Bool := false
  svn : Nat := 0
  keyHashS : Table Word := []
  keyHashO : Table Word := []
  ideSets : Table Nat := []
  pairKey : Option (BitVec 512) := none
  certificate : List Byte := []
  deriving DecidableEq, Repr

/-- The TAP (R569 to R572): instruction code in force, whether field close has taken effect, and what OVERRIDE drives. -/
structure Tap where
  instr : Nat := 2
  closed : Bool := false
  own : Option (BitVec 6 × Bool × Bool) := none
  deriving DecidableEq, Repr

end Sys2Proof.Machine
end

