-- ==== Sys2Proof/Machine/State.lean ====
section
/-! DEFINITION. The state of the pair: two chips, and the commands that wait. -/
namespace Sys2Proof.Machine

/-- What a register access answered: who asked, the value, and the status of R541 (0 where it was carried out). -/
structure Answer where
  rq : Requester
  value : BitVec 64
  status : Nat
  deriving DecidableEq, Repr

/-- One TF-9640. `regs` holds the stored register words, keyed by page × 4,096 + offset, an unlisted word at its reset value;
`applied` the words as applied at each page's last passing check (R56); `checks` the Round in which the check of a page was triggered (R54);
`live` and `snap` the counters of R37, keyed by page × 128 + slot. `answers` and `mctpOut` are what the chip has handed out: answers to register accesses, and event records for the management
endpoint (R51). `admitPtr` is the rotating pointer of R113. `dram` holds the DRAM bytes outside the frames of extents as the cores have written them (R480). -/
structure Chip where
  regs : Table Word := []
  applied : Table Word := []
  checks : Table Nat := []
  live : Table Nat := []
  snap : Table Nat := []
  snapDelivery : Nat := 0
  answers : List Answer := []
  mctpOut : List EventRec := []
  clk : Clk := {}
  heads : Table Head := []
  mail : Mail := {}
  tags : List Tag := []
  admitPtr : Nat := 0
  wmb : Table WmbEntry := []
  wmbAge : Nat := 0
  localStall : List Nat := []
  unmirrored : Bool := false
  charges : Table Charge := []
  rings : Table Ring := []
  link : Link := {}
  twe : Twe := {}
  che : Che := {}
  trm : Trm := {}
  mdc : Mdc := {}
  rte : Rte := {}
  mde : Mde := {}
  svc : Svc := {}
  chans : Table Chan := []
  ras : Ras := {}
  cbl : Cbl := {}
  cores : Table Core := []
  dram : List Host.Cell := []
  icu : Icu := {}
  efc : Efc := {}
  wdt : Wdt := {}
  psq : Psq := {}
  thm : Thm := {}
  mti : Mti := {}
  rst : Rst := {}
  sec : Sec := {}
  tap : Tap := {}
  deriving DecidableEq, Repr

/-- The pair. `free` counts the values the spec leaves open that have been used (the model's own field); `pending` holds the commands
that wait, first in, first out. -/
structure State where
  a : Chip
  b : Chip
  free : Nat
  pending : List Instr
  deriving DecidableEq, Repr

/-- No command ends in a fault: the spec answers a bad access with a value, a status or an access fault of the core that makes it
(R43, R45, R46, R480), and each of these is a next state. -/
inductive Fault where
  deriving DecidableEq, Repr

/-- Why a command was not carried out. -/
inductive Refusal where
  /-- Raised by the dispatch alone, for a command whose meaning is not written. Safe: the model stops where the chip goes on. -/
  | notModelled (mnemonic : String)
  deriving DecidableEq, Repr

namespace State

/-- The state of one chip. -/
def chip (s : State) : Twin → Chip
  | .A => s.a
  | .B => s.b

/-- The pair with chip `w` replaced. -/
def setChip (s : State) (w : Twin) (c : Chip) : State :=
  match w with
  | .A => { s with a := c }
  | .B => { s with b := c }

/-- The pair with `f` applied to chip `w`. -/
def mapChip (s : State) (w : Twin) (f : Chip → Chip) : State := s.setChip w (f (s.chip w))

/-- The pair with `f` applied to both chips. -/
def mapBoth (s : State) (f : Chip → Chip) : State := (s.mapChip .A f).mapChip .B f

end State

/-- A chip right after always-on power-up (R548, R549): every register at its reset value, no rail up, so held in reset. -/
def Chip.fresh (w : Twin) : Chip := { rst := { twinId := w.id, chipSerial := w.id + 1 } }

/-- The pair right after always-on power-up of both chips, strapped A and B (R548, R583): nothing stored, no command waiting. -/
def State.reset : State := { a := Chip.fresh .A, b := Chip.fresh .B, free := 0, pending := [] }

end Sys2Proof.Machine
end

