-- ==== Sys2Proof/Machine/Regs.lean ====
section
/-! DEFINITION. Reading and writing the registers of one chip: the word an unlisted register reads as, fields, fields as applied at
the last check, and counters. -/
namespace Sys2Proof.Machine

/-- Whether the row of the register map has a copy at the offset. -/
def RegField.covers (r : RegField) (off : Nat) : Bool :=
  if r.cnt ≤ 1 then decide (off = r.off)
  else decide (r.off ≤ off) && decide ((off - r.off) % r.stride = 0) && decide (r.fst ≤ (off - r.off) / r.stride) && decide ((off - r.off) / r.stride < r.cnt)

/-- The offsets of the row's copies. -/
def RegField.offsets (r : RegField) : List Nat :=
  if r.cnt ≤ 1 then [r.off] else ((List.range r.cnt).filter fun i => decide (r.fst ≤ i)).map fun i => r.off + i * r.stride

/-- Whether the row is a snapshot counter (R38). -/
def RegField.isSnap (r : RegField) : Bool := match r.ty with | .rl => true | _ => false

/-- The rows of the register map that lie in the word at an offset of a page. -/
def rowsAt (page off : Nat) : List RegField := (pageRows page).filter fun r => r.covers off && !r.isSnap

/-- The reset RATE and BORROW of DMC client `k` (R430), with DEPTH 25 (R441). -/
def clientReset (k : Nat) : Nat :=
  let rb := match k with
    | 3 => (1100, 1) | 4 => (220, 1) | 5 => (1320, 1) | 6 => (880, 1) | 7 => (44, 1) | _ => (0, 0)
  rb.1 + 25 * 2 ^ 16 + rb.2 * 2 ^ 24

/-- The reset word of SRC_j of interrupt source `i` (R496, R510): FAST, TARGET and PULSE of the sources that are pulses, PRIO 0xFF. -/
def sourceReset (i : Nat) : Nat :=
  let fast := (0x3C0 ≤ i ∧ i ≤ 0x3C3) ∨ (0x3C8 ≤ i ∧ i ≤ 0x3CF)
  let pulse := (0x3C0 ≤ i ∧ i ≤ 0x3C3) ∨ (0x3C8 ≤ i ∧ i ≤ 0x3D7) ∨ i = 0x3E0 ∨ i = 0x3E1
  (if fast then 2 else 0) + (if 0x3C8 ≤ i ∧ i ≤ 0x3CF then (i - 0x3C8) * 8 else 0) + 0xFF * 2 ^ 16 + (if pulse then 2 ^ 24 else 0)

/-- The reference table of R516: EN_SET of a state, which is also its PG_REQ. -/
def referenceEn (s : Nat) : Nat :=
  match s with
  | 1 => 0x01 | 2 => 0x02 | 3 => 0x0C | 4 => 0x10 | 5 => 0x20 | 6 => 0x40 | _ => 0

/-- The registers whose reset value is not one value for every copy: the header of R50, the sequence store of R516, the regulator
clients of R430, the interrupt sources of R496, and AVSBus rail 0 of R544. -/
def specialReset (page off : Nat) : Option Nat :=
  match pageOf page with
  | none => some 0
  | some (block, inst, sub) =>
    if off = 0x000 then some (page + sub * 2 ^ 12 + inst * 2 ^ 16 + block * 2 ^ 24)
    else if off = 0x004 then some 0xB001
    else if off = 0x01C then some (page + 2 ^ 16)
    else if block = 0x19 ∧ sub = 3 ∧ 0x100 ≤ off ∧ off < 0x120 ∧ off % 4 = 0 then some (clientReset ((off - 0x100) / 4))
    else if 0x111 ≤ page ∧ page ≤ 0x114 ∧ 0x100 ≤ off ∧ off < 0x500 ∧ off % 4 = 0 then
      some (sourceReset (256 * (page - 0x111) + (off - 0x100) / 4))
    else if page = 0x140 ∧ off = 0x100 then some (6 + 3 * 2 ^ 8 + 100 * 2 ^ 16)
    else if page = 0x140 ∧ 0x118 ≤ off ∧ off ≤ 0x18C ∧ off % 8 = 0 then
      some (referenceEn ((off - 0x110) / 8) * (2 ^ 16 + 1))
    else if page = 0x140 ∧ 0x118 ≤ off ∧ off ≤ 0x18C ∧ off % 8 = 4 then some (20 + 5 * 2 ^ 8)
    else if page = 0x141 ∧ off = 0x100 then some (1 + 800 * 2 ^ 16)
    else none

/-- What a register word reads as right after a reset that resets it (R16, R549). -/
def resetWord (page off : Nat) : Word :=
  match specialReset page off with
  | some v => BitVec.ofNat 32 v
  | none => BitVec.ofNat 32 ((rowsAt page off).foldl (fun a r => a + (r.reset % 2 ^ r.width) * 2 ^ r.lo) 0)

/-- The key of a register word. -/
def regKey (page off : Nat) : Nat := page * 4096 + off

/-- The reset word by key. -/
def resetKey (k : Nat) : Word := resetWord (k / 4096) (k % 4096)

namespace Chip

/-- The stored word of a register. -/
def rd (c : Chip) (page off : Nat) : Word := c.regs.get resetKey (regKey page off)

/-- The chip with the stored word of a register replaced. -/
def wr (c : Chip) (page off : Nat) (v : Word) : Chip := { c with regs := c.regs.set resetKey (regKey page off) v }

/-- A field as stored. -/
def get (c : Chip) (f : Fld) : Nat := bitsOf (c.rd f.page f.off) f.lo f.width

/-- The chip with a field replaced. -/
def put (c : Chip) (f : Fld) (v : Nat) : Chip := c.wr f.page f.off (withBits (c.rd f.page f.off) f.lo f.width v)

/-- Whether a one-bit field holds 1. -/
def is (c : Chip) (f : Fld) : Bool := c.get f == 1

/-- A register word as the block uses it (R56): as applied at the page's last passing check, live fields as written since while it ran. -/
def used (c : Chip) (page off : Nat) : Word := c.applied.get resetKey (regKey page off)

/-- The chip with a register word as its block uses it replaced. -/
def setUsed (c : Chip) (page off : Nat) (v : Word) : Chip := { c with applied := c.applied.set resetKey (regKey page off) v }

/-- A configuration field as the block uses it (R56). -/
def cfg (c : Chip) (f : Fld) : Nat := bitsOf (c.used f.page f.off) f.lo f.width

/-- Whether a one-bit configuration field holds 1 as the block uses it. -/
def cfgOn (c : Chip) (f : Fld) : Bool := c.cfg f == 1

/-- The chip with a configuration field replaced by the chip itself, stored and in use. -/
def putCfg (c : Chip) (f : Fld) (v : Nat) : Chip :=
  (c.put f v).setUsed f.page f.off (withBits (c.used f.page f.off) f.lo f.width v)

/-- A two's complement field. -/
def getInt (c : Chip) (f : Fld) : Int :=
  let v := c.get f
  if v < 2 ^ (f.width - 1) then (v : Int) else (v : Int) - (2 ^ f.width : Nat)

/-- The chip with a two's complement field replaced. -/
def putInt (c : Chip) (f : Fld) (v : Int) : Chip := c.put f (v % (2 ^ f.width : Nat)).toNat

/-- A live counter of the current Delivery. -/
def count (c : Chip) (k : Ctr) : Nat := c.live.get (fun _ => 0) (k.page * 128 + k.slot)

/-- A counter of the Delivery that ended last, as the latch gathered it (R37). -/
def latched (c : Chip) (k : Ctr) : Nat := c.snap.get (fun _ => 0) (k.page * 128 + k.slot)

/-- The chip with `n` counted (R37, R38: 48 bits). -/
def cnt (c : Chip) (k : Ctr) (n : Nat := 1) : Chip :=
  { c with live := c.live.set (fun _ => 0) (k.page * 128 + k.slot) ((c.count k + n) % 2 ^ 48) }

/-- The chip with a maximum recorded. -/
def peak (c : Chip) (k : Ctr) (n : Nat) : Chip :=
  { c with live := c.live.set (fun _ => 0) (k.page * 128 + k.slot) (max (c.count k) (n % 2 ^ 48)) }

/-- The chip with a minimum recorded; a counter at 0 has none yet. -/
def low (c : Chip) (k : Ctr) (n : Nat) : Chip :=
  { c with live := c.live.set (fun _ => 0) (k.page * 128 + k.slot) (if c.count k = 0 then n % 2 ^ 48 else min (c.count k) (n % 2 ^ 48)) }

/-- STATE.STATE of a page (R52): 0 OFF, 1 CHECKING, 2 RUNNING, 3 REFUSED, 4 QUIESCED, 5 FAULT. -/
def pageState (c : Chip) (page : Nat) : Nat := bitsOf (c.rd page 0x00C) 0 3

/-- The chip with the state of a page replaced. -/
def setPageState (c : Chip) (page st : Nat) : Chip := c.wr page 0x00C (withBits (c.rd page 0x00C) 0 3 st)

/-- Whether a page is RUNNING. -/
def running (c : Chip) (page : Nat) : Bool := c.pageState page == 2

/-- Which chip this is, by its TWIN_ID strap (R583). -/
def twin (c : Chip) : Twin := if c.rst.twinId = 0 then .A else .B

/-- The head of a number on this chip. -/
def head (c : Chip) (h : Fin 24) : Head := c.heads.get (fun _ => {}) h.val

/-- The chip with one head changed. -/
def mapHead (c : Chip) (h : Fin 24) (f : Head → Head) : Chip :=
  { c with heads := c.heads.set (fun _ => {}) h.val (f (c.head h)) }

end Chip

/-- The port of a head (R64). -/
def portOf (h : Fin 24) : Fin 6 := ⟨h.val / 4, by have := h.isLt; omega⟩

/-- The link position of a head on its port (R107). -/
def linkPos (h : Fin 24) : Nat := h.val % 4

/-- All heads, ascending. -/
def allHeads : List (Fin 24) := List.finRange 24

/-- All ports, ascending. -/
def allPorts : List (Fin 6) := List.finRange 6

/-- The heads of a port. -/
def portHeads (p : Fin 6) : List (Fin 24) := allHeads.filter fun h => portOf h == p

end Sys2Proof.Machine
end

