-- ==== Sys2Proof/Machine/Wire.lean ====
section
/-! DEFINITION. The byte layouts of the Coxia Link: envelopes, postmark records, the state frame and the records of the event logs (R91, R168,
R172, R174, R175, R179, R180, R245). -/
namespace Sys2Proof.Machine

/-- A number as little-endian bytes. -/
def bytesLE (n v : Nat) : List Byte := (List.range n).map fun i => BitVec.ofNat 8 (v >>> (8 * i))

/-- The block code of a page, 0 where there is no page (R46, R49). -/
def blockOf (page : Nat) : Nat := match pageOf page with | some (b, _, _) => b | none => 0

/-- Chip A is 0, chip B 1. -/
def twinCode : Twin → Nat
  | .A => 0
  | .B => 1

/-! ## Records of the event logs (R91) -/

/-- The UUID of a form of record: Showick's (R91), and those of the CXL General Media and DRAM records (PRESUMED, log 97: CXL 3.1). -/
def RecForm.uuid : RecForm → Nat
  | .showick => 0xc3a1f0d26b7e4f199a2c51d8e07b4c36
  | .generalMedia => 0xfbcd0a77c260417f85a9088b1621eba6
  | .dram => 0x601dcbb39c064eabb8af4e9bfb5c9624

/-- The 80 bytes of event data of a record (R91); of a record that names a DPA its first 8 bytes (log 97). -/
def EventRec.data (r : EventRec) : List Byte :=
  match r.form with
  | .showick => bytesLE 1 (twinCode r.chip) ++ bytesLE 1 (blockOf r.page) ++ bytesLE 2 r.page ++ bytesLE 1 r.bitNo ++ bytesLE 1 r.subcode ++
      bytesLE 6 r.round ++ bytesLE 4 r.delivery ++ bytesLE 8 r.addr ++ bytesLE 4 r.stateWord.toNat ++ bytesLE 52 0
  | _ => bytesLE 8 r.addr ++ bytesLE 72 0

/-- A record of an event log in its 128 bytes (R91): the CXL common header (PRESUMED, log 97: UUID, length, flags with the log as severity,
handle, related handle, timestamp), then the event data. -/
def EventRec.bytes (r : EventRec) (log handle stamp : Nat) : List Byte :=
  (bytesLE 16 (RecForm.uuid r.form)).reverse ++ bytesLE 1 128 ++ bytesLE 3 log ++ bytesLE 2 handle ++ bytesLE 2 0 ++ bytesLE 8 stamp ++
    bytesLE 16 0 ++ r.data

/-! ## Runs of extents (R319) -/

/-- An extent joins the run that it follows, or begins a new one; the newest run stands first. -/
def addRun (a : List (Nat × Nat)) (e : Nat) : List (Nat × Nat) :=
  match a with
  | [] => [(e, 1)]
  | (f, n) :: r => if f + n = e ∧ n < 65535 then (f, n + 1) :: r else (e, 1) :: a

/-- The runs of a list of extents: the first extent of each and its count. -/
def runsOf (es : List Nat) : List (Nat × Nat) := (es.foldl addRun []).reverse

/-- A list of extents in parts of at most 25 runs. -/
def splitRuns (es : List Nat) : List (List Nat) :=
  let rs := runsOf es
  (List.range ((rs.length + 24) / 25)).map fun i =>
    ((rs.drop (25 * i)).take 25).flatMap fun x => (List.range x.2).map fun k => x.1 + k

/-- The body of a Route record, from byte 8 on (R319): ROUTE, KIND, byte 11, POS, n, bytes 16 to 19, and the runs. -/
def routeBody (r kind b11 pos x : Nat) (es : List Nat) : List Byte :=
  let rs := runsOf es
  bytesLE 2 r ++ bytesLE 1 kind ++ bytesLE 1 b11 ++ bytesLE 2 pos ++ bytesLE 2 rs.length ++ bytesLE 4 x ++
    (rs.flatMap fun y => bytesLE 8 (y.1 % 2 ^ 27 + y.2 * 2 ^ 32)) ++ bytesLE 4 0

/-! ## Postmark records (R174, R175) -/

/-- The length of an EFFECT record whose body has no layout in the spec: 2 to 28 units (R175, log 103). -/
def effectLen (n : Nat) : Nat := 2 + (Config.effectUnits n).val

/-- The block that owns an effect, its number within the block and the length of its record in 8 B units. The block codes of the RTE (0x0C), of
saves (0x0E) and of retirements (0x11) are the spec's, and so is the length of a Route record (R319: 20 bytes and 8 for each run); the other
codes are those of the pages that own the state, numbers and lengths that the owning chapters leave out are free (log 103). -/
def Effect.shape : Effect → Nat × Nat × Nat
  | .nothing => (6, 0, 2)
  | .alerts _ => (0x18, 1, effectLen 1)
  | .shutdown _ => (0x18, 2, effectLen 2)
  | .lsa _ _ => (0x18, 3, effectLen 3)
  | .timestamp _ _ => (0x18, 4, effectLen 4)
  | .clearLog _ _ _ _ => (0x18, 5, effectLen 5)
  | .intPolicy _ _ _ => (0x18, 6, effectLen 6)
  | .poison _ _ _ => (0x18, 7, effectLen 7)
  | .background _ => (0x18, 8, effectLen 8)
  | .backgroundDone _ => (0x18, 9, effectLen 9)
  | .extentState _ _ => (0x0B, 10, effectLen 10)
  | .extentPending _ _ => (0x0B, 11, effectLen 11)
  | .object _ _ _ _ => (0x0B, 12, effectLen 12)
  | .objectGone _ => (0x0B, 13, effectLen 13)
  | .moveDone _ => (0x0B, 14, effectLen 14)
  | .rangeAsk _ _ _ _ => (0x0B, 15, effectLen 15)
  | .routeLoad _ _ => (0x0C, 3, 3)
  | .routeState _ _ _ _ => (0x0C, 3, 3)
  | .routeHold _ es _ _ => (0x0C, 0, 3 + (runsOf es).length)
  | .routeRelease _ es _ _ => (0x0C, 1, 3 + (runsOf es).length)
  | .routePos _ _ _ => (0x0C, 2, 3)
  | .routeSlip _ _ _ _ => (0x0C, 4, 3)
  | .routeClose _ _ _ _ => (0x0C, 5, 3)
  | .ringStart _ _ => (6, 23, effectLen 23)
  | .ringWritten _ => (6, 24, effectLen 24)
  | .speakerState _ _ => (8, 25, effectLen 25)
  | .eraseKey _ _ => (4, 26, effectLen 26)
  | .eraseAll _ _ => (4, 27, effectLen 27)
  | .newKey _ _ => (4, 28, effectLen 28)
  | .pairKey _ => (4, 29, effectLen 29)
  | .firmware _ _ => (0x14, 30, effectLen 30)
  | .activate _ => (0x14, 31, effectLen 31)
  | .copyExtent _ _ => (8, 32, effectLen 32)
  | .saveStart => (0x0E, 33, effectLen 33)
  | .sealSummary _ => (0x0E, 34, effectLen 34)
  | .restoreDone => (0x0E, 35, effectLen 35)
  | .ideKeys _ _ => (4, 36, effectLen 36)
  | .session _ _ _ => (4, 37, effectLen 37)
  | .certificate _ _ => (4, 38, effectLen 38)
  | .retire _ _ _ _ _ _ => (0x11, 39, effectLen 39)
  | .retireDone _ _ _ _ => (0x11, 40, effectLen 40)

/-- The body of an EFFECT record, where its owning chapter gives one a layout: the Route records (R319). A slot's state is 0 to 2; a SEEK of a
LOADED Route leaves it LOADED. -/
def Effect.body : Effect → List Byte
  | .routeLoad r _ => routeBody r 3 1 0 0 []
  | .routeState r st pos rate => routeBody r 3 (if st = 3 then 1 else st) pos rate []
  | .routeHold r es pos rate => routeBody r 0 0 pos rate es
  | .routeRelease r es pos rate => routeBody r 1 0 pos rate es
  | .routePos r pos rate => routeBody r 2 0 pos rate []
  | .routeSlip r pos rate _ => routeBody r 4 0 pos rate []
  | .routeClose r late un pos => routeBody r 5 (if un then 1 else 0) pos late []
  | _ => []

/-- LEN of a record, in 8 B units (R175). -/
def PmRecord.len : PmRecord → Nat
  | .writeWm _ _ | .tapWm _ _ _ | .drainWm _ _ | .applied _ => 1
  | .order _ _ _ _ _ _ | .aliasWrite _ | .hold _ _ => 2
  | .log _ _ _ => 17
  | .effect e _ _ => (Effect.shape e).2.2

/-- Byte 2 of a watermark record (R175): port, link position, direction. -/
def wmByte (h : Fin 24) (deviceToHost : Bool) : Nat := (portOf h).val + 8 * linkPos h + 32 * (if deviceToHost then 1 else 0)

/-- KIND of an ORDER record (R245). -/
def OrderKind.code : OrderKind → Nat
  | .access => 0
  | .sweep => 1
  | .victim => 2
  | .handoff => 3

/-- A requester class in an ALIAS record (R59, log 103): 0 host, 1 MCTP, 2 machine mode, 3 supervisor mode, 4 debug port. -/
def Requester.code : Requester → Nat
  | .host _ => 0
  | .mctp => 1
  | .coreM _ => 2
  | .coreS _ => 3
  | .debugPort => 4

/-- The bytes of a record (R175, R245): TYPE, LEN and what follows. The fields of ALIAS stand in the order in which R175 names them; the body
of an EFFECT is what its owning chapter defines. -/
def PmRecord.bytes (r : PmRecord) : List Byte :=
  match r with
  | .writeWm h pos => bytesLE 1 1 ++ bytesLE 1 1 ++ bytesLE 1 (wmByte h false) ++ bytesLE 5 pos
  | .tapWm h d flit => bytesLE 1 2 ++ bytesLE 1 1 ++ bytesLE 1 (wmByte h (d == .deviceToHost)) ++ bytesLE 5 (flit * 16)
  | .drainWm h pos => bytesLE 1 3 ++ bytesLE 1 1 ++ bytesLE 1 (wmByte h false) ++ bytesLE 5 pos
  | .order d h k pos line n => bytesLE 1 4 ++ bytesLE 1 2 ++ bytesLE 1 d ++ bytesLE 1 (h.val + 32 * k.code) ++ bytesLE 5 pos ++
      bytesLE 7 (line % 2 ^ 42 + n % 2 ^ 14 * 2 ^ 42)
  | .aliasWrite x => bytesLE 1 5 ++ bytesLE 1 2 ++ bytesLE 2 x.x.page ++ bytesLE 2 x.x.off ++ bytesLE 1 (Requester.code x.rq) ++ bytesLE 1 (2 ^ x.x.size - 1) ++
      bytesLE 4 x.x.data.toNat ++ bytesLE 2 x.round ++ bytesLE 2 0
  | .log h l e => bytesLE 1 6 ++ bytesLE 1 17 ++ bytesLE 1 h.val ++ bytesLE 1 l.val ++ bytesLE 4 0 ++ e.bytes l.val 0 0
  | .effect e gated _ => bytesLE 1 7 ++ bytesLE 1 (PmRecord.len r) ++ bytesLE 1 (Effect.shape e).1 ++ bytesLE 1 (if gated then 1 else 0) ++
      bytesLE 4 (Effect.shape e).2.1 ++ e.body
  | .applied n => bytesLE 1 8 ++ bytesLE 1 1 ++ bytesLE 2 0 ++ bytesLE 4 n
  | .hold dpa on => bytesLE 1 9 ++ bytesLE 1 2 ++ bytesLE 6 dpa ++ bytesLE 1 (if on then 1 else 0) ++ bytesLE 7 0

/-! ## The state frame (R179, R180) -/

/-- A digest entry: page index and digest. -/
def digestBytes (x : Nat × Nat) : List Byte := bytesLE 4 (x.1 % 2 ^ 12 + x.2 % 2 ^ 16 * 2 ^ 16)

/-- The 232 payload bytes of a primary FRAME envelope (R179). -/
def Frame.bytes (f : Frame) : List Byte :=
  bytesLE 6 f.round ++ bytesLE 4 f.deliveryNo ++ bytesLE 2 f.heartbeat ++
  bytesLE 1 (twinCode f.twin + (if f.keeper then 2 else 0) + (if f.speaker then 4 else 0) + 8 * (f.mode % 8) + 64 * (f.parts % 4)) ++
  bytesLE 1 f.own ++ bytesLE 3 f.track ++ bytesLE 1 f.handing ++ bytesLE 3 f.deliveryN ++ bytesLE 3 f.mbxDone ++ bytesLE 8 f.budget ++
  bytesLE 8 f.unsaved ++ bytesLE 2 f.tags ++ bytesLE 3 f.wmbLines ++ bytesLE 3 f.deliveryRound ++ bytesLE 4 f.pmSent ++ bytesLE 4 f.pmApplied ++
  bytesLE 4 f.gateSeq ++ bytesLE 4 f.speakerDelivery ++ f.digests.flatMap digestBytes ++ bytesLE 4 f.poolFree ++ bytesLE 36 0

/-- A continuation slot (R180): 24 bytes. -/
def ContSlot.bytes (x : ContSlot) : List Byte :=
  bytesLE 1 x.head.val ++ bytesLE 5 x.hostToDev ++ bytesLE 5 x.devToHost ++ bytesLE 5 x.hostAcked ++ bytesLE 5 x.homeAcked ++ bytesLE 3 0

/-! ## Envelopes (R168, R172, R174) -/

/-- LEN of an envelope, in 8 B units (R168). A payload whose layout the spec does not give fills its envelope (DESIGN CHOICE, log 103). -/
def EnvBody.len : EnvBody → Nat
  | .fill => 0
  | .postmark _ rs => 1 + (rs.map PmRecord.len).sum
  | .framePart _ slots => 1 + 3 * slots.length
  | _ => 29

/-- The payload of the classes whose layout the spec gives: FILL, FRAME, its continuations, POSTMARK (R168, R174, R179, R180). -/
def EnvBody.payload : EnvBody → Option (List Byte)
  | .fill => some []
  | .frame f => some f.bytes
  | .framePart n slots => some (bytesLE 1 n ++ bytesLE 7 0 ++ slots.flatMap ContSlot.bytes)
  | .postmark n rs => some (bytesLE 4 n ++ bytesLE 4 0 ++ rs.flatMap PmRecord.bytes)
  | _ => none

/-- Bytes 0 to 7 of an envelope, which are sent in clear (R168). -/
def Envelope.header (e : Envelope) : List Byte :=
  bytesLE 1 (e.body.cls + (if e.nak then 16 else 0)) ++ bytesLE 1 (EnvBody.len e.body) ++ bytesLE 2 e.seq ++ bytesLE 2 e.ack ++ bytesLE 2 e.round

/-- The IV of an envelope (R172): KEY_EPOCH, the direction bit, 0 for A to B, and the 63-bit envelope count. -/
def Envelope.iv (e : Envelope) (from' : Twin) : BitVec 96 :=
  BitVec.ofNat 32 e.epoch ++ BitVec.ofNat 1 (twinCode from') ++ BitVec.ofNat 63 e.count

/-- The 248 bytes of an envelope after its header (R168, R172): the encrypted payload and the tag, under the GCM key of its direction. -/
def Envelope.sealed (e : Envelope) (from' : Twin) : Option (List Byte) :=
  e.body.payload.map fun p => Config.gcmSeal (e.iv from').toNat (e.header.map (·.toNat)) (p.map (·.toNat))

end Sys2Proof.Machine
end

