-- ==== Sys2Proof/Machine/Ops.lean ====
section
/-! DEFINITION. The operations that every family shares: whether a chip runs, its pair mode and roles, envelopes and postmark
records on their way to the peer, flits on their way to a host, MSI-X causes, page events and Dead-Letter Log entries. -/
namespace Sys2Proof.Machine

/-! ## Modes and roles (R161, R162, R225) -/

/-- Pair modes (R225). -/
abbrev mSTARTING : Nat := 0
abbrev mMIRRORED : Nat := 1
abbrev mALONE : Nat := 2
abbrev mISOLATED : Nat := 3
abbrev mSOLO : Nat := 4
abbrev mJOINING : Nat := 5
abbrev mHELD : Nat := 6

/-- ROLE.PORT_p of the roles page. -/
def roleFld (p : Fin 6) : Fld := ⟨0x070, 0x800, 3 * p.val, 3, false⟩

namespace Chip

/-- Whether the chip is out of reset: rails up, RESET_N high, not fenced, not held by a boundary-scan instruction (R186, R548, R571). -/
def up (c : Chip) : Bool := c.rst.powered && !c.rst.resetN && !c.rst.fenced && !c.rst.extested

/-- PAIR_STATE.MODE. -/
def mode (c : Chip) : Nat := c.get F.ROLE_PAIR_STATE_MODE

/-- Whether the chip is in MIRRORED. -/
def mirrored (c : Chip) : Bool := c.mode == mMIRRORED

/-- Whether the chip serves without its twin. -/
def serving (c : Chip) : Bool := c.mode == mALONE || c.mode == mSOLO

/-- The role of the chip for a port: 0 NONE, 1 HOME, 2 CARBON, 3 ISOLATED, 4 CLAIMING, 5 HANDING. -/
def role (c : Chip) (p : Fin 6) : Nat := c.get (roleFld p)

/-- Whether the chip reads HOME for a port, CLAIMING and HANDING included (R163). -/
def isHome (c : Chip) (p : Fin 6) : Bool := c.up && (c.role p == 1 || c.role p == 4 || c.role p == 5)

/-- Whether the chip is carbon of a port. -/
def isCarbon (c : Chip) (p : Fin 6) : Bool := c.up && c.role p == 2

/-- OWN_OUT of a port, as driven (R182). -/
def ownOut (c : Chip) (p : Fin 6) : Bool :=
  match c.tap.own with
  | some (m, _, _) => !c.rst.fenced && m.getLsbD p.val
  | none => c.is (F.HP_PORT_STATUS_OWN_OUT p.val)

/-- Whether the chip transmits to the hosts of a port: OWN_OUT asserted, the peer's OWN not seen, the guard met (R182). -/
def transmits (c : Chip) (p : Fin 6) : Bool :=
  c.ownOut p && !c.is (F.HP_PORT_STATUS_OWN_IN p.val) && c.is (F.HP_PORT_STATUS_GUARD_MET p.val)

/-- The LTSSM state of a head's link (R109): 0 Detect, 3 L0. -/
def ltssm (c : Chip) (h : Fin 24) : Nat := c.get (F.HLNK_LINK_LTSSM h.val)

/-- Whether a head's link is in L0. -/
def inL0 (c : Chip) (h : Fin 24) : Bool := c.ltssm h == 3

/-- The 48-bit round number. -/
def round (c : Chip) : Nat := c.clk.round

/-- Whether the Coxia Link is UP or DEGRADED as this chip's receivers find it (R166). -/
def linkUp (c : Chip) : Bool := c.get F.CXK_LINK_STATE == 2 || c.get F.CXK_LINK_STATE == 3

/-- Whether the chip has reached ALIGNED since it last read SOLO or ALIGNING (R24): the state reads ALIGNED or FAULT. -/
def aligned (c : Chip) : Bool := c.get F.CLK_ALIGN_STATE_STATE == 2 || c.get F.CLK_ALIGN_STATE_STATE == 3

/-- SVC.STATE of the save page: 0 IDLE, 1 RESTORING, 2 SERVING, 3 GRACE, 4 SAVING, 5 SEALED, 6 UNSEALED. -/
def svcState (c : Chip) : Nat := c.get F.SAV_SVC_STATE

/-- Whether a save is committed and not sealed (R399). -/
def saveActive (c : Chip) : Bool := c.svcState == 3 || c.svcState == 4

/-- Memory_Active (R555). -/
def memActive (c : Chip) : Bool := c.is F.RST_START_MEM_ACTIVE

/-! ## Envelopes (R168 to R172) -/

/-- Whether the transmitters of the Coxia Link send: keys are agreed and neither a fail-stop nor the hold of a save has
stopped the link (R166, R189, R395). -/
def linkSends (c : Chip) : Bool := c.up && c.mode != mHELD && !c.svc.held && c.get F.CXK_KEY_EPOCH != 0

/-- The next envelope of a body (R168). FILL carries the number of the last envelope sent (R171). -/
def nextEnvelope (c : Chip) (b : EnvBody) : Envelope :=
  { epoch := c.get F.CXK_KEY_EPOCH
    count := if b.cls = 0 then c.link.count else c.link.count + 1
    seq := if b.cls = 0 then c.link.seq else (c.link.seq + 1) % 2 ^ 16
    ack := c.link.rxSeq
    nak := c.link.nakNext
    round := c.round % 2 ^ 16
    body := b }

/-- What goes out for an envelope: a FRAME or POSTMARK is sent twice, bit-identical (R170). The second copy stands directly after the first
(DESIGN CHOICE, log 102). -/
def copiesOf (e : Envelope) : List Envelope := if e.body.cls = 1 ∨ e.body.cls = 2 then [e, e] else [e]

/-- Envelopes go out on the link, each copy counted with its payload (R170, R229). -/
def putOnWire (c : Chip) (es : List Envelope) : Chip :=
  let all := es.flatMap copiesOf
  let c := { c with link := { c.link with tx := c.link.tx ++ all } }.cnt K.CXK_ENV_TX all.length
  all.foldl (fun c e => c.cnt (K.CXK_BYTES_CLASS e.body.cls) (8 * EnvBody.len e.body)) c

/-- Puts an envelope on the link, at once: numbered, and held for replay unless it is FILL (R171). -/
def transmit (c : Chip) (b : EnvBody) : Chip :=
  let e := c.nextEnvelope b
  let c := { c with link := { c.link with
    seq := e.seq
    count := e.count
    nakNext := false
    replay := if b.cls = 0 then c.link.replay else c.link.replay ++ [e] } }
  (c.putOnWire [e]).put F.CXK_REPLAY_USE c.link.replay.length

/-- Where an envelope stands among those that wait: before the first of a lower priority (R169). -/
def insertByPriority (b : EnvBody) : List EnvBody → List EnvBody
  | [] => [b]
  | x :: r => if classPriority b.cls < classPriority x.cls then b :: x :: r else x :: insertByPriority b r

/-- Sends an envelope, or lets it wait while 512 are unacknowledged (R171). -/
def send (c : Chip) (b : EnvBody) : Chip :=
  if !c.linkSends then c
  else if b.cls ≠ 0 ∧ c.link.replay.length ≥ 512 then
    { c with link := { c.link with waiting := insertByPriority b c.link.waiting } }
  else c.transmit b

/-- Sends envelopes that wait, as far as the replay buffer has room. -/
def sendWaiting (c : Chip) : Nat → Chip
  | 0 => c
  | n + 1 =>
    match c.link.waiting with
    | [] => c
    | b :: r => if c.link.replay.length ≥ 512 then c
                else ({ c with link := { c.link with waiting := r } }.transmit b).sendWaiting n

/-! ## Postmark records (R173 to R177) -/

/-- Whether the chip issues postmarks (R24, R223): aligned, in a mode that takes part in the pair. -/
def posts (c : Chip) : Bool :=
  c.linkSends && c.aligned && c.mode != mISOLATED

/-- Sends a postmark record, with the next record number (R174). Each record travels in an envelope of its own, as R174 allows (DESIGN CHOICE,
log 102). -/
def post (c : Chip) (r : PmRecord) : Chip :=
  if !c.posts then c
  else
    let n := (c.twe.pmSeq + 1) % 2 ^ 32
    let c := { c with twe := { c.twe with pmSeq := n } }
    ((c.put F.PMK_PM_SEQ_TX n).cnt K.PMK_RECORDS_TX).send (.postmark n [r])

/-- Sends an EFFECT record and, where it is gated, keeps it as this chip's own until its covering frame (R177). `ends` is the command
whose completion the record announces. -/
def postEffect (c : Chip) (e : Effect) (gated : Bool) (ends : Option Ends := none) : Chip :=
  let c' := c.post (.effect e gated ends)
  if gated then { c' with twe := { c'.twe with gated := c'.twe.gated ++ [⟨c.twin, c'.twe.pmSeq, e, ends, none⟩] } } else c'

/-! ## To the hosts -/

/-- The flits of a link that each history holds (R99). -/
def histCap (c : Chip) (h : Fin 24) : Nat :=
  match c.get (F.HLNK_LINK_WIDTH h.val) with
  | 4 => 2048
  | 3 => 1024
  | _ => 512

/-- A flit leaves a history early: counted, with its event due (R109). -/
def histFull (c : Chip) (h : Fin 24) (full : Bool) : Chip :=
  if full then (c.mapHead h fun x => { x with histLost := true }).cnt (K.HIST_HIST_FULL (portOf h).val (linkPos h)) else c

/-- The flit that carries a message: with the next flit count, the load that a response reports, and the credits owed (R70, R112). -/
def nextFlit (c : Chip) (h : Fin 24) (m : HostMsg) : TxFlit :=
  let x := c.head h
  let load : Option (BitVec 2) := match m with
    | .memData _ _ _ _ _ | .cmp _ _ => some (Config.devLoad c.rst.twinId h.val (x.txCount + 1))
    | _ => none
  ⟨(x.txCount + 1) % 2 ^ 36, m, load, (x.reqOwed, x.rwdOwed), c.round⟩

/-- Puts a flit on a link: it stays in the transmit history, which the oldest flit leaves where it is full (R99, R109). -/
def pushFlit (c : Chip) (h : Fin 24) (m : HostMsg) : Chip :=
  let x := c.head h
  let all := x.txHist ++ [c.nextFlit h m]
  let lost := all.length - c.histCap h
  let c := (c.mapHead h fun x => { x with
    txCount := (x.txCount + 1) % 2 ^ 36
    txHist := all.drop lost
    reqUsed := x.reqUsed - x.reqOwed
    rwdUsed := x.rwdUsed - x.rwdOwed
    reqOwed := 0
    rwdOwed := 0 }).cnt (K.HLNK_FLITS_TX h.val)
  c.histFull h (decide (lost > 0) && x.peerTracks)

/-- An MSI-X vector of a head. -/
def vec (c : Chip) (h : Fin 24) (v : Nat) : Vec := (c.head h).vecs.get (fun _ => {}) v

/-- The chip with an MSI-X vector changed. -/
def mapVec (c : Chip) (h : Fin 24) (v : Nat) (f : Vec → Vec) : Chip :=
  c.mapHead h fun x => { x with vecs := x.vecs.set (fun _ => {}) v (f (x.vecs.get (fun _ => {}) v)) }

/-- A message is held for a function in D3hot, or for a link in L1 whose exit the head begins (R154, R155): counted once. -/
def holdMsix (c : Chip) (h : Fin 24) (v : Nat) : Chip :=
  if (c.vec h v).held then c else (c.mapVec h v fun x => { x with held := true }).cnt (K.HCFG_MSIX_HELD h.val)

/-- The moderator of a vector fires (R93, R154, R155). In D3hot the message is held, PME_Status is set, and PME is signalled with the first; a
masked vector sets its pending bit; a link in L1 holds the message until it is in L0. -/
def sendMsix (c : Chip) (h : Fin 24) (v : Nat) : Chip :=
  let x := c.vec h v
  let c := c.mapVec h v fun x => { x with causes := 0 }
  if c.get (F.HLNK_LINK_D_STATE h.val) ≠ 0 then
    let first := !(c.head h).pmeStatus
    let c := (c.holdMsix h v).mapHead h fun x => { x with pmeStatus := true }
    if first && c.ltssm h != 5 then c.pushFlit h .pme else c
  else if x.masked then c.mapVec h v fun x => { x with pend := true }
  else if c.ltssm h = 5 then c.holdMsix h v
  else (c.pushFlit h (.msix v x.addr x.data)).cnt (K.HCFG_MSIX_SENT h.val)

/-- The messages held for a head go out on its home, or set their pending bits (R154, R155). -/
def releaseMsix (c : Chip) (h : Fin 24) : Chip :=
  ((c.head h).vecs.filter fun v => v.2.held).foldl (fun c v =>
    let c := c.mapVec h v.1 fun x => { x with held := false }
    if (c.vec h v.1).masked then c.mapVec h v.1 fun x => { x with pend := true }
    else if c.isHome (portOf h) then c.sendMsix h v.1 else c) c

/-- A link comes back to L0 from L1 on its home (R154): what was held for the link goes out first; a function in D3hot signals PME. -/
def linkAwake (c : Chip) (h : Fin 24) : Chip :=
  if !c.isHome (portOf h) then c
  else if c.get (F.HLNK_LINK_D_STATE h.val) = 0 then c.releaseMsix h
  else if (c.head h).pmeStatus then c.pushFlit h .pme else c

/-- A cause of a vector at the home (R93): the message goes when COUNT causes have collected. -/
def cause (c : Chip) (h : Fin 24) (v : Nat) : Chip :=
  let n := (c.vec h v).causes + 1
  let c := c.mapVec h v fun x => { x with causes := n }
  if c.isHome (portOf h) && decide (n ≥ c.cfg (F.HCFG_MSIX_MOD_COUNT h.val v)) then c.sendMsix h v else c

/-! ## Event logs and page events (R51, R89 to R92) -/

/-- An event log of a head. -/
def log (c : Chip) (h : Fin 24) (l : Nat) : EventLog := (c.head h).logs.get (fun _ => {}) l

/-- LOG_FILL of a log of a head. -/
def logFill (h : Fin 24) (l : Nat) : Fld :=
  match l with
  | 0 => F.HCFG_LOG_FILL_INFO h.val
  | 1 => F.HCFG_LOG_FILL_WARN h.val
  | 2 => F.HCFG_LOG_FILL_FAIL h.val
  | _ => F.HCFG_LOG_FILL_FATAL h.val

/-- The chip with a log of a head replaced, and LOG_FILL with it. -/
def setLog (c : Chip) (h : Fin 24) (l : Nat) (x : EventLog) : Chip :=
  (c.mapHead h fun y => { y with logs := y.logs.set (fun _ => {}) l x }).put (logFill h l) x.recs.length

/-- The pair's timestamp in ns in a Round: as set, and the Rounds since (R86). -/
def stampAt (c : Chip) (round : Nat) : Nat := c.mail.stamp.1 + (round - c.mail.stamp.2) * 4000

/-- A record enters a log of 64 records, or is dropped with the overflow report, which gives timestamps (R89). -/
def EventLog.enter (x : EventLog) (r : EventRec) (stamp : Nat) : EventLog :=
  if x.recs.length ≥ 64 then
    { x with overflow := true, overflowCount := x.overflowCount + 1,
             firstOverflow := if x.overflow then x.firstOverflow else stamp, lastOverflow := stamp }
  else { x with recs := x.recs ++ [(x.nextHandle, r)], nextHandle := x.nextHandle % 65535 + 1 }

/-- The page event record of a bit of a page as the chip stands (R91). -/
def eventRec (c : Chip) (page b sub addr : Nat) : EventRec :=
  ⟨.showick, c.twin, page, b, sub, c.round, c.clk.deliveryNo, addr, c.rd page 0x00C⟩

/-- Enters a record in one copy of a log: EVENTS_DROPPED and the LOG_OVERFLOW event when it is full; a cause of vector 1 + log where
the interrupt policy selects MSI-X (R92). `ev` is how an event of a page occurs. -/
def enterLogWith (ev : Chip → Nat → Nat → Chip) (c : Chip) (h : Fin 24) (l : Nat) (r : EventRec) : Chip :=
  let x := c.log h l
  let c := c.setLog h l (EventLog.enter x r (c.stampAt r.round))
  if x.recs.length ≥ 64 then ev (c.cnt (K.HCFG_EVENTS_DROPPED h.val)) (F.HCFG_EV_LOG_OVERFLOW h.val).page (F.HCFG_EV_LOG_OVERFLOW h.val).lo
  else if (c.head h).policy.get (fun _ => 0) l == 1 then c.cause h (1 + l) else c

/-- The home enters a record in a head's log and mirrors it to the carbon (R89). -/
def logRecordWith (ev : Chip → Nat → Nat → Chip) (c : Chip) (h : Fin 24) (l : Nat) (r : EventRec) : Chip :=
  (c.enterLogWith ev h l r).post (.log h (Fin.ofNat 4 l) r)

/-- Enters a page event in the log of every head with PAGE_EVENTS that this chip is home of (R90). -/
def logHereWith (ev : Chip → Nat → Nat → Chip) (c : Chip) (l : Nat) (r : EventRec) : Chip :=
  allHeads.foldl (fun c h =>
    if c.isHome (portOf h) && c.cfg (F.HCFG_EVENT_CFG_PAGE_EVENTS h.val) == 1 then c.logRecordWith ev h l r else c) c

/-- Delivers a bit as records to the destinations of EVT_ROUTE (R51, R90): the management endpoint, the heads homed here, and the peer
for the heads it is home of. The ICU takes the page's output as a level. -/
def deliverWith (ev : Chip → Nat → Nat → Chip) (c : Chip) (page b : Nat) : Chip :=
  let route := c.rd page 0x01C
  let r := c.eventRec page b 0 0
  let c := if bitsOf route 20 1 = 1 then { c with mctpOut := c.mctpOut ++ [r] } else c
  if bitsOf route 17 1 = 1 then
    let c := c.logHereWith ev (bitsOf route 18 2) r
    if allPorts.all fun p => c.isHome p then c else c.send (.event r (Fin.ofNat 4 (bitsOf route 18 2)))
  else c

/-- An event of a page occurs: its EVT_STATUS bit is set, and delivered where it was clear and is enabled (R51). The number bounds how
deep an event can lead to another: a full log raises LOG_OVERFLOW of its head, once for each head. -/
def raiseN : Nat → Chip → Nat → Nat → Chip
  | 0, c, page, b => c.wr page 0x010 (c.rd page 0x010 ||| BitVec.ofNat 32 (2 ^ b))
  | n + 1, c, page, b =>
    if (c.rd page 0x010).getLsbD b then c
    else
      let c := c.wr page 0x010 (c.rd page 0x010 ||| BitVec.ofNat 32 (2 ^ b))
      if (c.rd page 0x014).getLsbD b then c.deliverWith (raiseN n) page b else c

/-- An event of a page occurs (R51). -/
def raiseBit (c : Chip) (page b : Nat) : Chip := raiseN 25 c page b

/-- Delivers a bit that is set and becomes enabled (R51). -/
def deliverEvent (c : Chip) (page b : Nat) : Chip := c.deliverWith raiseBit page b

/-- Enters a record in one copy of a log. -/
def enterLog (c : Chip) (h : Fin 24) (l : Nat) (r : EventRec) : Chip := c.enterLogWith raiseBit h l r

/-- The home enters a record in a head's log and mirrors it to the carbon (R89). -/
def logRecord (c : Chip) (h : Fin 24) (l : Nat) (r : EventRec) : Chip := c.logRecordWith raiseBit h l r

/-- Enters a page event in the log of every head with PAGE_EVENTS that this chip is home of (R90). -/
def logHere (c : Chip) (l : Nat) (r : EventRec) : Chip := c.logHereWith raiseBit l r

/-- An event named by its field. -/
def raise (c : Chip) (f : Fld) : Chip := c.raiseBit f.page f.lo

/-- The event of a history that a flit left early is raised (R109). -/
def raiseHist (c : Chip) (h : Fin 24) : Chip :=
  if (c.head h).histLost then
    (c.mapHead h fun x => { x with histLost := false }).raise (F.HIST_EV_HISTORY_FULL (portOf h).val)
  else c

/-- Sends a flit to a host from the home (R99). -/
def toHost (c : Chip) (h : Fin 24) (m : HostMsg) : Chip := (c.pushFlit h m).raiseHist h

/-- A Showick record of a subcode goes to the Warning or Informational log of a head at its home (R78, R84, R103, R197). -/
def headRecord (c : Chip) (h : Fin 24) (l page sub addr : Nat) : Chip :=
  if c.isHome (portOf h) then c.logRecord h l (c.eventRec page 0 sub addr) else c

/-- A CXL record that names a DPA goes to a log of a head at its home (R90). -/
def headMedia (c : Chip) (h : Fin 24) (l : Nat) (form : RecForm) (page dpa : Nat) : Chip :=
  if c.isHome (portOf h) then c.logRecord h l { c.eventRec page 0 0 dpa with form } else c

/-- A write is rejected (R56): the code and offset stand in STATE, and WRITE_REJECTED is raised. -/
def reject (c : Chip) (page code off : Nat) : Chip :=
  let w := c.rd page 0x00C
  (c.wr page 0x00C (withBits (withBits (withBits w 8 8 code) 16 12 off) 31 1 0)).raiseBit page 28

/-! ## The Dead-Letter Log (R453 to R456) -/

/-- Whether DRAM training has ended, so that the DRAM ring can take entries. -/
def dramUp (c : Chip) : Bool := c.get F.RST_TRAIN_DONE_MS != 0 || decide (c.rst.step ≥ 7)

/-- Entries move from the on-chip buffer to the ring, which keeps the latest 2^RING_LOG2; those that fall out count in LOST_ENTRIES and
raise DLO_OVERFLOW (R455). -/
def dloFlush (c : Chip) : Chip :=
  if !(c.running 0x0F0 && c.dramUp) then c
  else
    let all := c.ras.ring ++ c.ras.buffer
    let cap := 2 ^ c.cfg F.DLO_DLO_CFG_RING_LOG2
    let lost := all.length - cap
    let ring := all.drop lost
    let c := { c with ras := { c.ras with ring := ring, buffer := [] } }
    let c := c.put F.DLO_BUF_USE 0
    let c := match ring with
      | [] => c
      | e :: _ => c.put F.DLO_OLDEST_SEQ e.seq
    if lost = 0 then c else (c.cnt K.DLO_LOST_ENTRIES lost).raise F.DLO_EV_DLO_OVERFLOW

/-- Entries move to the ring at once while 128 or more are held (R455). -/
def dloMany (c : Chip) : Chip := if c.ras.buffer.length ≥ 128 then c.dloFlush else c

/-- A new entry takes the next SEQ; it is dropped where the buffer is full (R455). Its SYNDROME, where a rule states none, is that of the check
(R454). -/
def dloEnter (c : Chip) (source level kind copy address location : Nat) (syndrome : Option (BitVec 128)) : Chip :=
  if c.ras.buffer.length ≥ 256 then c.cnt K.DLO_DROPPED
  else
    let n := c.get F.DLO_NEXT_SEQ
    let found := match syndrome with
      | some v => v
      | none => if ([0x0C, 0x12, 0x13] : List Nat).contains source then 0 else Config.syndrome c.rst.twinId n
    let e : DloEntry := ⟨n, c.round, c.clk.deliveryNo, source, level, kind, copy + 64 * c.rst.twinId, address, location, found, 1⟩
    let c := { c with ras := { c.ras with buffer := c.ras.buffer ++ [e] } }
    let c := ((c.put F.DLO_NEXT_SEQ (n + 1)).put F.DLO_BUF_USE c.ras.buffer.length)
    let c := (c.cnt K.DLO_ENTRIES).cnt (K.DLO_KIND kind)
    if kind = 2 then c.raise F.DLO_EV_UNCORRECTED_ENTRY else c

/-- LOCATION in SRAM form (R454), by the row of R442 that names the memory, from 0. -/
def sramLocation (row inst word : Nat) : Nat := (Config.unitClass row).toNat + 2 ^ 8 * (inst % 256) + 2 ^ 16 * (word % 2 ^ 24)

/-- An entry of the Dead-Letter Log (R453 to R455). -/
def dlo (c : Chip) (source level kind copy address location : Nat) (syndrome : Option (BitVec 128) := none) : Chip :=
  (c.dloMany.dloEnter source level kind copy address location syndrome).dloMany

/-! ## The state of a DRAM channel -/

/-- CH.PWR: 0 ACTIVE, 1 SR_ENTERING, 2 SELF_REFRESH, 3 SR_EXITING. -/
def pwr (c : Chip) (d : Nat) : Nat := c.get (F.DCH_CH_PWR d)

/-- A request meets the channel (R429): an entry that has not reached SRE is abandoned, self-refresh is left. -/
def meetChannel (c : Chip) (d : Nat) : Chip :=
  if c.pwr d = 1 then ((c.put (F.DCH_CH_PWR d) 0).cnt (K.DRF_SR_ABANDONS d)).raise (F.DRF_EV_SR_ABANDONED d)
  else if c.pwr d = 2 then c.put (F.DCH_CH_PWR d) 3
  else c

end Chip

/-! ## On the pair -/

namespace State

/-- Applies `f` to chip `w` where it runs; a chip in reset or without power does nothing (R548, R586). -/
def onUp (s : State) (w : Twin) (f : Chip → Chip) : State :=
  if (s.chip w).up then s.mapChip w f else s

/-- The chip that is home of a port. -/
def homeOf (s : State) (p : Fin 6) : Option Twin :=
  if s.a.isHome p then some .A else if s.b.isHome p then some .B else none

/-- Whether a requester reaches the pair at chip `w`: the local chip of a head is the home of its port, whichever that is (R42, R80). -/
def isLocal (s : State) (w : Twin) (rq : Requester) : Bool :=
  match rq with
  | .host h => s.homeOf (portOf h) == some w
  | _ => true

/-- Applies `f` to the home of a head's port, where the port has one. -/
def onHome (s : State) (h : Fin 24) (f : Chip → Chip) : State :=
  match s.homeOf (portOf h) with
  | some w => s.mapChip w f
  | none => s

/-- The next value the spec leaves open: the state's counter advances. -/
def nextFree (s : State) : Nat × State := (s.free, { s with free := s.free + 1 })

end State

end Sys2Proof.Machine
end

