-- ==== Sys2Proof/Machine/Supervisor.lean ====
section
/-! DEFINITION. What the always-on supervisor and the roles engine do to one chip: roles, pair modes, the epoch and the change map,
the interlock lines it drives, and fail-stop (R160 to R163, R182 to R190, R215). -/
namespace Sys2Proof.Machine

/-- Rounds in 60 minutes. -/
abbrev hourRounds : Nat := 900000000

namespace Chip

/-- What PORT_STATUS.ROLE reads for a role of the roles page (R163): CLAIMING and HANDING read HOME. -/
def portRole (r : Nat) : Nat := if r = 4 ∨ r = 5 then 1 else r

/-- CARBON_k.STATE of a head's link (R101): 0 OFF, 1 ACQUIRING, 2 TRACKING, 3 LOST. -/
def trackState (c : Chip) (h : Fin 24) : Nat := c.get (F.CARB_CARBON_STATE (portOf h).val (linkPos h))

/-- The chip with the tracking state of a link replaced. -/
def setTrack (c : Chip) (h : Fin 24) (st : Nat) : Chip := c.put (F.CARB_CARBON_STATE (portOf h).val (linkPos h)) st

/-- The carbon page of a port (R107). -/
def carbonPage (p : Fin 6) : Nat := 0x201 + 4 * p.val

/-- A link enters ACQUIRING (R101, R102). -/
def acquire (c : Chip) (h : Fin 24) : Chip :=
  (c.setTrack h 1).mapHead h fun x => { x with track := { x.track with enteredRound := c.round, fetched := false } }

/-- The lanes of a head's link under the bifurcation in force (R64). -/
def laneGroup (c : Chip) (h : Fin 24) : Nat :=
  match c.cfg (F.HP_PORT_CFG_BIFURC (portOf h).val) with
  | 0 => 0xFFFF
  | 1 => 0xFF * 2 ^ (8 * (linkPos h / 2))
  | _ => 0xF * 2 ^ (4 * linkPos h)

/-- The flit fetches of a link that are outstanding (R107). -/
def showFetches (c : Chip) (h : Fin 24) : Chip :=
  let k := (c.head h).track
  c.put (F.CARB_FETCH_PENDING (portOf h).val (linkPos h)) (k.missed.length + k.missedDown.length)

/-- The locks of a link's carbon receivers (R102, R107, R108): the host lanes, the carbon lanes, and each carbon lane of the link that is in
use. -/
def setLocks (c : Chip) (h : Fin 24) (on : Bool) : Chip :=
  let p := (portOf h).val
  let c := (c.put (F.CARB_CARBON_LOCK_HOST p (linkPos h)) (bit on)).put (F.CARB_CARBON_LOCK_TAP p (linkPos h)) (bit on)
  (List.range 16).foldl (fun c l =>
    if (c.laneGroup h).testBit l then c.put (F.LANE_TAP_LANE_LOCK p l) (bit (on && (c.get (F.HP_LANE_ACTIVE p)).testBit l)) else c) c

/-- A link enters LOST (R103): TRACK_LOST, and the CARBON_LOST record, which the carbon sends to the home. What waited for fetches is gone. -/
def lose (c : Chip) (h : Fin 24) : Chip :=
  let p := portOf h
  let c := (c.setTrack h 3).mapHead h fun x => { x with
    track := { x.track with enteredRound := c.round, missed := [], missedDown := [], behind := [], behindDown := [] } }
  let c := ((c.showFetches h).cnt (K.CARB_LOSSES p.val (linkPos h))).raise (F.CARB_EV_TRACK_LOST p.val)
  c.send (.event { c.eventRec (carbonPage p) 0 4 0 with addr := h.val } 1)

/-- The carbon stops following a link: OFF, with the receivers' locks gone (R101). -/
def stopTracking (c : Chip) (h : Fin 24) : Chip :=
  ((c.setTrack h 0).mapHead h fun x => { x with
    track := { x.track with missed := [], missedDown := [], behind := [], behindDown := [] } }).showFetches h |>.setLocks h false

/-- A carbon's transmitters stand at the link's rate, with the coefficients the host last asked for (R97, R107). -/
def loadCoefs (c : Chip) (h : Fin 24) : Chip :=
  let p := (portOf h).val
  let k := linkPos h
  let x := c.head h
  let c := (c.put (F.CARB_CARBON_RATE p k) x.rate).put (F.CARB_TXCOEF_PRE p k) x.coefs.1
  (c.put (F.CARB_TXCOEF_MAIN p k) x.coefs.2.1).put (F.CARB_TXCOEF_POST p k) x.coefs.2.2

/-- Whether the carbon page of a head's port runs (R101). -/
def carbonRuns (c : Chip) (p : Fin 6) : Bool := c.running (carbonPage p)

/-- The chip takes a role for a port: PORT_STATUS.ROLE follows with ROLE_CHANGE (R106); links in L0 are acquired where it becomes
carbon, and left where it stops being carbon (R101). -/
def setRole (c : Chip) (p : Fin 6) (r : Nat) : Chip :=
  let old := c.role p
  let c := c.put (roleFld p) r
  let c := if portRole old = portRole r then c
    else ((c.put (F.HP_PORT_STATUS_ROLE p.val) (portRole r)).cnt (K.HP_ROLE_CHANGES p.val)).raise (F.HP_EV_ROLE_CHANGE p.val)
  if r = 2 ∧ old ≠ 2 then
    (portHeads p).foldl (fun c h =>
      let c := c.loadCoefs h
      if c.carbonRuns p && c.inL0 h then c.acquire h else c) c
  else if r ≠ 2 ∧ old = 2 then (portHeads p).foldl stopTracking c
  else c

/-- The role a mode gives a chip for a port (R162); in ISOLATED the ports read ISOLATED. -/
def modeRole (c : Chip) (m : Nat) (p : Fin 6) : Nat :=
  if m = mMIRRORED then
    (if (c.cfg F.ROLE_PORT_HOME_B_HOME >>> p.val) % 2 = c.rst.twinId then 1 else 2)
  else if m = mALONE ∨ m = mSOLO then 1
  else if m = mJOINING then 2
  else if m = mISOLATED then 3
  else 0

/-- PAIR_STATE.MODE changes, with MODE_CHANGE (R225). -/
def setMode (c : Chip) (m : Nat) : Chip :=
  if c.mode = m then c else (c.put F.ROLE_PAIR_STATE_MODE m).raise F.ROLE_EV_MODE_CHANGE

/-- The pair epoch (R163). -/
def epoch (c : Chip) : Nat := c.get F.ROLE_PAIR_EPOCH_LO + 2 ^ 32 * c.get F.ROLE_PAIR_EPOCH_HI

/-- The chip with the pair epoch replaced, in the back-tier metadata too (R163). -/
def setEpoch (c : Chip) (e : Nat) : Chip :=
  let c := { c with svc := { c.svc with epoch := e % 2 ^ 64 } }
  (c.put F.ROLE_PAIR_EPOCH_LO e).put F.ROLE_PAIR_EPOCH_HI (e / 2 ^ 32)

/-- The survivor opens its change map, with the epoch it held as its base (R215), and increments the epoch (R163). A map that is kept
keeps its base. -/
def openChangeMap (c : Chip) : Chip :=
  let e := c.epoch
  let c := match c.twe.changeMap with
    | some _ => c
    | none =>
      (({ c with twe := { c.twe with changeMap := some [], changeDram := [] } }.put F.RSY_CHANGEMAP_BASE_EPOCH_LO e).put
        F.RSY_CHANGEMAP_BASE_EPOCH_HI (e / 2 ^ 32)).put F.RSY_CHANGEMAP_MARKED 0
  c.setEpoch (e + 1)


/-- A chip of the pair enters ALONE (R161, R163, R215). -/
def enterAlone (c : Chip) : Chip := if c.mode = mALONE then c else (c.setMode mALONE).openChangeMap

/-- OWN_OUT of a port is driven to a level (R182). -/
def setOwn (c : Chip) (p : Fin 6) (high : Bool) : Chip := c.put (F.HP_PORT_STATUS_OWN_OUT p.val) (bit high)

/-- OWN_OUT of a port is asserted where the chip is HOME or CLAIMING and the guard is met (R182). -/
def assertOwn (c : Chip) (p : Fin 6) : Chip :=
  if (c.role p == 1 || c.role p == 4) && c.is (F.HP_PORT_STATUS_GUARD_MET p.val) && !c.svc.held then c.setOwn p true else c

/-- The chip takes the roles of its mode (R162), and asserts the OWN line of each port it is home of. -/
def takeRoles (c : Chip) : Chip :=
  allPorts.foldl (fun c p =>
    let r := c.modeRole c.mode p
    let c := c.setRole p r
    if r = 1 then c.assertOwn p else c.setOwn p false) c

/-- Every OWN_OUT goes low (R186, R189). -/
def dropOwn (c : Chip) : Chip := allPorts.foldl (fun c p => c.setOwn p false) c

/-- Whether the chip pulls TWIN_DEAD_N low (R184, R186, R525), OVERRIDE apart. -/
def pullsDead (c : Chip) : Bool :=
  match c.tap.own with
  | some (_, d, _) => c.rst.fenced || d
  | none => c.rst.fenced || c.mode == mHELD || c.is F.PSQ_PSQ_UP_HELD

/-- Whether the chip asserts TWIN_FENCE_OUT (R185), OVERRIDE apart. -/
def fenceOut (c : Chip) : Bool :=
  match c.tap.own with
  | some (_, _, f) => f
  | none => c.is F.ROLE_PAIR_STATE_FENCE_OUT

/-- Whether fail-stops within 60 minutes hold the chip in HELD (R190). -/
def failHeld (c : Chip) : Bool := decide (c.get F.ROLE_FAILSTOP_COUNT ≥ 3)

/-- The Rounds that the always-on domain has counted: its base, which each change of the round number adjusts, and the round number. -/
def aonNow (c : Chip) : Int := c.psq.base + (c.round : Int)

/-- The round number changes (R21): the always-on count and the mark of the release go on unmoved. -/
def setRound (c : Chip) (n : Nat) : Chip := { c with
  psq := { c.psq with base := c.psq.base + (c.round : Int) - (n : Int) }
  rst := { c.rst with releaseRound := c.rst.releaseRound + n - c.round }
  clk := { c.clk with round := n } }

/-- The always-on domain counts a fail-stop (R190). -/
def countFailstop (c : Chip) : Chip :=
  let l := (c.psq.failRounds.filter fun r => decide (c.aonNow < r + hourRounds)) ++ [c.aonNow]
  { c with psq := { c.psq with failRounds := l } }.put F.ROLE_FAILSTOP_COUNT (min 3 l.length)

/-- While the link is down the chip keeps its own Round (R24). -/
def keepOwnRound (c : Chip) : Chip := (c.put F.CLK_ALIGN_STATE_STATE 0).put F.CLK_ALIGN_STATE_KEEPER 0

/-- The Coxia Link stops (R189): LINK.STATE reads DOWN, the chip keeps its own Round (R24), and nothing waits to be sent. -/
def stopLink (c : Chip) : Chip :=
  let c := { c.keepOwnRound with link := { c.link with waiting := [], replay := [] } }
  if c.get F.CXK_LINK_STATE = 0 then c
  else ((c.put F.CXK_LINK_STATE 0).cnt K.CXK_LINK_DOWNS).raise F.CXK_EV_LINK_DOWN

/-- Sends an AVSBus frame (R531). -/
def avsSend (c : Chip) (rail kind value : Nat) : Chip :=
  { c with thm := { c.thm with frames := c.thm.frames ++ [⟨rail, kind, value, 0⟩] } }

/-- The voltage from which the margin offset of an AVSBus rail counts: the AVS target of rail 0, the nominal of the others (R526). -/
def railBase (c : Chip) (k : Nat) : Nat := if k = 0 then c.get F.AVS_VDD_TARGET_MV else c.cfg (F.MAR_RAIL_NOM_MV k)

/-- Every margin offset returns to 0, each change sent as a voltage write (R526). -/
def clearMargins (c : Chip) : Chip :=
  let set := (List.range 4).filter fun k => c.get (F.MAR_MARGIN_OFFSET_MV k) != 0
  if set.isEmpty then c
  else (set.foldl (fun c k => (c.putCfg (F.MAR_MARGIN_OFFSET_MV k) 0).avsSend k 0 (c.railBase k)) c).raise F.MAR_EV_MARGIN_CLEARED

/-- A save is committed, in GRACE or with its hold (R395, step 3): the governor FROZEN, background work and erases given up; channels in
self-refresh leave it (R437), and margins return to 0 (R526). -/
def freeze (c : Chip) (st : Nat) : Chip :=
  let c := { c with
    svc := { c.svc with committed := some c.round }
    trm := { c.trm with queue := [] }
    mde := { c.mde with merges := [], moves := [], busy := c.mde.busy.filter fun o => !o.erase } }
  let c := ((List.range 16).foldl meetChannel c).clearMargins
  (((c.put F.SAV_SVC_STATE st).put F.GOV_GOV_STATE 5).cnt K.SAV_PFAILS).raise F.SAV_EV_PFAIL

/-- A save begins with its hold, outside GRACE (R189): from the fail-stop of a chip that serves alone. -/
def saveFromHold (c : Chip) : Chip :=
  let c := { c with svc := { c.svc with decided := true, held := true }, trm := { c.trm with stepRunning := [] }, tags := [] }
  (c.freeze 4).put F.MDE_MODE 3

/-- Fail-stop (R188 to R190): every OWN_OUT low, TWIN_DEAD_N low through HELD, no role, the link stopped. A chip that served alone
saves, unless the cause rules a save out. A chip in HELD, or with a save under way, stays as it is. -/
def failStop (c : Chip) (canSave : Bool) : Chip :=
  if c.mode = mHELD || c.saveActive then c
  else
    let alone := c.serving
    let c := allPorts.foldl (fun c p => c.setRole p 0) c.dropOwn
    let c := (c.countFailstop.setMode mHELD).stopLink
    if alone && canSave then c.saveFromHold else c

/-- The chip fences its peer (R185, R198). -/
def fencePeer (c : Chip) : Chip := c.put F.ROLE_PAIR_STATE_FENCE_OUT 1

end Chip

end Sys2Proof.Machine
end

