-- ==== Sys2Proof/Machine/Rights.lean ====
section
/-! DEFINITION. Who may read and write which page (R47, R48). -/
namespace Sys2Proof.Machine


/-- Whether a BLOCKS mask names a block code: bits 26:1 of the register, bit n for code n (R574). -/
def maskHas (mask block : Nat) : Bool := decide (1 ≤ block) && (mask >>> (block - 1)) % 2 == 1

namespace Chip

/-- Whether a head is a host manager (R47). -/
def isManager (c : Chip) (h : Fin 24) : Bool := (c.cfg F.SEC_HOST_MGR_HEADS >>> h.val) % 2 == 1

/-- Whether a requester may write a page (R47). The debug port reaches every address while debug is open (R570). -/
def mayWrite (c : Chip) (rq : Requester) (page : Nat) : Bool :=
  match rq with
  | .coreM _ | .debugPort => true
  | .coreS _ => maskHas (c.cfg F.SEC_CORE_S_WRITE_BLOCKS) (blockOf page)
  | .host h => c.isManager h && maskHas (c.cfg F.SEC_HOST_WRITE_BLOCKS) (blockOf page)
  | .mctp => maskHas (c.cfg F.SEC_MCTP_WRITE_BLOCKS) (blockOf page)

/-- Whether a requester may read a page (R47). -/
def mayRead (c : Chip) (rq : Requester) (page : Nat) : Bool :=
  match rq with
  | .coreM _ | .debugPort | .mctp => true
  | .coreS _ => maskHas (c.cfg F.SEC_CORE_S_READ_BLOCKS) (blockOf page)
  | .host h => c.isManager h

/-- A write refused by access class is dropped and counted (R48). -/
def deny (c : Chip) : Chip := (c.cnt K.SEC_ACCESS_DENIED).raise F.SEC_EV_ACCESS_DENIED

/-- Carries out a write where the requester may write the page, and refuses it otherwise. -/
def ifWrites (c : Chip) (rq : Requester) (page : Nat) (f : Chip → Chip) : Chip :=
  if c.mayWrite rq page then f c else c.deny

/-- Carries out a write that only machine-mode cores may make. -/
def ifMachine (c : Chip) (rq : Requester) (f : Chip → Chip) : Chip :=
  match rq with
  | .coreM _ => f c
  | _ => c.deny

/-- An action bit that acts only while its page is RUNNING: rejected with STATE at its register otherwise (R599). -/
def ifRunning (c : Chip) (page off : Nat) (f : Chip → Chip) : Chip :=
  if c.running page then f c else c.reject page 0x0C off

/-- Hands out the answer to a register access. -/
def answer (c : Chip) (rq : Requester) (v : BitVec 64) (status : Nat := 0) : Chip :=
  { c with answers := c.answers ++ [⟨rq, v, status⟩] }

/-- Cobbler draws a spare of a kind (row of R460, from 0): an entry of KIND SPARE_DRAWN, the Ledger's daily count, SPARE_DRAWN, and
SPARE_EXHAUSTED where it was the last (R461, R465, R466). -/
def drew (c : Chip) (kind location : Nat) (last : Bool) : Chip :=
  let c := { c with cbl := { c.cbl with today := c.cbl.today.set (fun _ => 0) kind (c.cbl.today.get (fun _ => 0) kind + 1) } }
  let c := ((c.dlo 0x12 4 6 0 0 location).cnt K.CBL_DRAWS).raise F.CBL_EV_SPARE_DRAWN
  if last then c.raise F.CBL_EV_SPARE_EXHAUSTED else c

end Chip

end Sys2Proof.Machine
end

