-- ==== Sys2Proof/Machine/Icu.lean ====
section
/-! DEFINITION. The interrupt controller and the core events that meet it: arrivals, coalescing, presentation, claim and completion,
the fast class, WFI (R478 to R484, R496 to R506). -/
namespace Sys2Proof.Machine

/-- The SRC_j register of a source: page and offset (R510). -/
def srcPage (i : Nat) : Nat := 0x111 + i / 256
def srcOff (i : Nat) : Nat := 0x100 + 4 * (i % 256)

/-- A field of SRC_j. -/
def srcFld (i lo width : Nat) : Fld := ⟨srcPage i, srcOff i, lo, width, true⟩

namespace Chip

def srcEnable (c : Chip) (i : Nat) : Bool := c.cfgOn (srcFld i 0 1)
def srcFast (c : Chip) (i : Nat) : Bool := c.cfgOn (srcFld i 1 1)
def srcSmode (c : Chip) (i : Nat) : Bool := c.cfgOn (srcFld i 2 1)
def srcTarget (c : Chip) (i : Nat) : Nat := c.cfg (srcFld i 3 4)
def srcGroup (c : Chip) (i : Nat) : Nat := c.cfg (srcFld i 8 6)
def srcPrio (c : Chip) (i : Nat) : Nat := c.cfg (srcFld i 16 8)
def srcPulse (c : Chip) (i : Nat) : Bool := c.is (srcFld i 24 1)

/-- The status of a source. -/
def src (c : Chip) (i : Nat) : IntSource := c.icu.sources.get (fun _ => {}) i

/-- The chip with the status of a source changed. -/
def mapSrc (c : Chip) (i : Nat) (f : IntSource → IntSource) : Chip :=
  { c with icu := { c.icu with sources := c.icu.sources.set (fun _ => {}) i (f (c.src i)) } }

/-- A coalescing group. -/
def group (c : Chip) (g : Nat) : Group := c.icu.groups.get (fun _ => {}) g

/-- The chip with a coalescing group replaced. -/
def setGroup (c : Chip) (g : Nat) (x : Group) : Chip :=
  { c with icu := { c.icu with groups := c.icu.groups.set (fun _ => {}) g x } }

/-- A logical core: at reset logical core n is CCn (R479). -/
def core (c : Chip) (n : Nat) : Core := c.cores.get (fun n => { phys := n }) n

/-- A live field written (R56): stored, and in use where its page runs. -/
def putLive (c : Chip) (f : Fld) (v : Nat) : Chip := if c.running f.page then c.putCfg f v else c.put f v

/-- The chip with a core changed. -/
def mapCore (c : Chip) (n : Nat) (f : Core → Core) : Chip :=
  { c with cores := c.cores.set (fun n => { phys := n }) n (f (c.core n)) }

/-- Whether a source is pending (R497): enabled, its count above 0, not in service. -/
def pendingSrc (c : Chip) (i : Nat) : Bool := c.srcEnable i && decide ((c.src i).count > 0) && (c.src i).serving.isNone

/-- Whether a pending normal source may be presented as its group goes (R498, R500). -/
def released (c : Chip) (i : Nat) : Bool := c.srcFast i || c.srcGroup i == 0 || (c.src i).fired

/-- The core a pending source goes to: the one it is presented to, which it keeps, or its TARGET (R505). -/
def goesTo (c : Chip) (i : Nat) : Nat := (c.src i).presented.getD (c.srcTarget i)

/-- b of R498. -/
def subbits (c : Chip) : Nat := c.cfg F.ICU_ICU_CFG_SUBBITS

/-- The group level of a source (R498). -/
def level (c : Chip) (i : Nat) : Nat := c.srcPrio i >>> c.subbits

/-- The numbers of the sources that hold anything. -/
def heldSources (c : Chip) : List Nat := c.icu.sources.map (·.1)

/-- The most urgent group level in service on a core, 0xFF where none is (R511). -/
def runLevel (c : Chip) (n : Nat) : Nat :=
  c.heldSources.foldl (fun m i => if (c.src i).serving == some n then min m (c.level i) else m) 0xFF

/-- Whether a source is more urgent than another: level, then sub-priority, then number (R498); PRIO and number decide alike. -/
def before (c : Chip) (i j : Nat) : Bool := decide (c.srcPrio i < c.srcPrio j) || (c.srcPrio i == c.srcPrio j && decide (i < j))

/-- The most urgent of the sources that meet a condition. -/
def best (c : Chip) (p : Nat → Bool) : Option Nat :=
  c.heldSources.foldl (fun b i => if p i then (match b with
    | none => some i
    | some j => if c.before i j then some i else some j) else b) none

/-- Whether a normal source qualifies for presentation to a core (R498). -/
def qualifies (c : Chip) (n i : Nat) : Bool :=
  c.pendingSrc i && !c.srcFast i && c.released i && c.goesTo i == n &&
  decide (c.level i < c.cfg (F.ICO_THRESH n) >>> c.subbits) && decide (c.level i < c.runLevel n)

/-- Whether a source is pending, or was disabled so late that its presentation is still delivered (R503). -/
def stillDue (c : Chip) (i : Nat) : Bool := c.pendingSrc i || ((c.src i).late && decide ((c.src i).count > 0))

/-- Whether a fast source qualifies (R501). -/
def fastQualifies (c : Chip) (n i : Nat) : Bool :=
  c.stillDue i && c.srcFast i && c.goesTo i == n && !(c.core n).inFast

/-- Presents the best normal and the best fast source to a core, and withdraws what it presented before. -/
def presentTo (c : Chip) (n : Nat) : Chip :=
  let b := c.best (c.qualifies n)
  let f := c.best (c.fastQualifies n)
  c.heldSources.foldl (fun d i =>
    if b == some i || f == some i then d.mapSrc i fun x => { x with presented := some n }
    else if (c.src i).presented == some n && (c.src i).serving.isNone && !(c.src i).late then d.mapSrc i fun x => { x with presented := none }
    else d) c

/-- Whether an enabled source wakes a core (R504): it targets the core, and may be presented under R498 or R501 but for the core's THRESH. -/
def wakes (c : Chip) (n i : Nat) : Bool :=
  c.pendingSrc i && c.released i && c.goesTo i == n && (if c.srcFast i then !(c.core n).inFast else decide (c.level i < c.runLevel n))

/-- Wakes a core that sleeps and has a wake event: a source, which counts in WAKES, or MTIP (R484, R504). -/
def wake (c : Chip) (n : Nat) : Chip :=
  let bySource := c.heldSources.any (c.wakes n)
  if (c.core n).asleep && (bySource || (c.core n).mtip) then
    ((c.mapCore n fun x => { x with asleep := false }).put (F.ICO_ASLEEP n) 0).cnt (K.ICT_WAKES n) (bit bySource)
  else c

/-- Decides the presentations of every core anew, and wakes those that sleep. -/
def icuUpdate (c : Chip) : Chip := (List.range 8).foldl (fun c n => (c.presentTo n).wake n) c

/-- A group fires (R500): its pending sources may be presented, its arrivals and timer restart. -/
def fireGroup (c : Chip) (g : Nat) : Chip :=
  let c := c.heldSources.foldl (fun d i =>
    if c.pendingSrc i && c.srcGroup i == g && !c.srcFast i then d.mapSrc i fun x => { x with fired := true } else d) c
  (c.setGroup g {}).cnt (K.ICL_FIRES g)

/-- One arrival of a source (R497, R500): counted where the source is enabled, up to 255, and collected in its group. -/
def arrival (c : Chip) (i : Nat) : Chip :=
  if !c.srcEnable i then c
  else
    let n := min 255 ((c.src i).count + 1)
    let sat := decide (n = 255) && decide ((c.src i).count ≠ 255)
    let c := c.mapSrc i fun x => { x with count := n }
    let c := if sat then (c.cnt K.ICT_COUNT_SATS).raise F.ICU_EV_COUNT_SAT else c
    let g := c.srcGroup i
    let c :=
      if g = 0 || c.srcFast i then c
      else
        let k := min 255 ((c.group g).collected + 1)
        let since := if (c.group g).collected = 0 then c.aonNow else (c.group g).since
        let c := c.setGroup g { collected := k, timing := decide (c.cfg (F.ICL_COAL_TIME_US g) ≠ 0), since }
        if k ≥ c.cfg (F.ICL_COAL_COUNT g) then c.fireGroup g else c
    c.icuUpdate

/-- A pulse source pulses. -/
def pulse (c : Chip) (i : Nat) : Chip := c.arrival i

/-- The input of a level source changes (R497, R503): a rise arrives; a fall before the claim withdraws the source. -/
def inputLevel (c : Chip) (i : Nat) (high : Bool) : Chip :=
  let old := (c.src i).input
  let c := c.mapSrc i fun x => { x with input := high }
  if high && !old then c.arrival i
  else if !high && old && c.srcEnable i && (c.src i).serving.isNone && decide ((c.src i).count > 0) then
    ((c.mapSrc i fun x => { x with count := 0, presented := none, fired := false }).cnt K.ICT_WITHDRAWN).icuUpdate
  else c

/-- Takes a source out of service (R499): a level source still asserted counts one arrival. -/
def finishSource (c : Chip) (i : Nat) : Chip :=
  let c := c.mapSrc i fun x => { x with serving := none, claimCount := 0 }
  if !c.srcPulse i && (c.src i).input then c.arrival i else c.icuUpdate

/-- A core claims a source: its count is cleared and it goes into service (R499, R483). -/
def claimSource (c : Chip) (n i : Nat) : Chip :=
  (c.mapSrc i fun x => { x with serving := some n, claimCount := x.count, count := 0, presented := none, fired := false, late := false })

/-- The delivery of a source that was disabled too late to be withdrawn counts in LATE (R503). -/
def noteLate (c : Chip) (n i : Nat) : Chip := if (c.src i).late then (c.cnt (K.ICT_LATE n)).raise F.ICU_EV_LATE else c

/-- What is presented to, or in service on, a core goes back to pending, with its count (R479, R495). -/
def returnSources (c : Chip) (n : Nat) : Chip :=
  (c.heldSources.foldl (fun d i =>
    let x := c.src i
    if x.serving == some n then d.mapSrc i fun x => { x with serving := none, count := min 255 (max 1 (x.count + x.claimCount)), claimCount := 0 }
    else if x.presented == some n then d.mapSrc i fun x => { x with presented := none } else d) c).icuUpdate

end Chip

/-! ## The commands -/

/-- The event output of a page towards the ICU (R51): TO_CORE is set, and a bit stands in both EVT_STATUS and EVT_ENABLE. -/
def Chip.eventOutput (c : Chip) (page : Nat) : Bool :=
  (c.rd page 0x01C).getLsbD 16 && (c.rd page 0x010 &&& c.rd page 0x014) != 0

/-- INTERRUPT_ARRIVAL (R496, R497): the input of a level source takes the level of its page's event output; a pulse source pulses.
Reserved sources and indices without a page never assert. -/
def execInterruptArrival (w : Twin) (i : Fin 1024) (level : Bool) (s : State) : Host.Outcome State Fault Refusal :=
  .next (s.onUp w fun c =>
    if i.val < 0x3C0 then (if blockOf i.val = 0 ∨ c.eventOutput i.val ≠ level then c else c.inputLevel i.val level)
    else if c.srcPulse i.val && level then c.pulse i.val else c)

/-- COAL_TIMER (R500): a group whose timer runs fires, TIME_US after its first arrival, which falls within this Round. -/
def execCoalTimer (w : Twin) (g : Fin 64) (s : State) : Host.Outcome State Fault Refusal :=
  .next (s.onUp w fun c =>
    if (c.group g.val).timing && decide ((c.aonNow - (c.group g.val).since + 1) * 4 ≥ (c.cfg (F.ICL_COAL_TIME_US g.val) : Int)) then
      (c.fireGroup g.val).icuUpdate
    else c)

/-- FAST_ENTRY (R483, R501): the core leaves its instruction at the boundary `pc`, enters the shadow bank in machine mode at FVEC, and
claims the most urgent fast source. -/
def execFastEntry (w : Twin) (n : Fin 8) (pc : BitVec 64) (machine : Bool) (s : State) : Host.Outcome State Fault Refusal :=
  .next (s.onUp w fun c =>
    match c.best (c.fastQualifies n.val) with
    | none => c
    | some i =>
      if !(c.core n.val).running then c
      else
        let cause := BitVec.ofNat 64 (i + 2 ^ 10 * (c.src i).count)
        let c := (c.noteLate n.val i).claimSource n.val i
        let c := c.mapCore n.val fun x =>
          { x with fepc := pc, fcause := cause, fstatusMode := machine, inFast := true, fastSource := some i, pc := x.fvec,
                   machine := true, asleep := false, reservation := none }
        ((c.put (F.ICO_ASLEEP n.val) 0).cnt (K.ICT_FAST n.val)).icuUpdate)

/-- FRET (R483): back to the main bank at FEPC in the mode recorded; the fast source is completed. -/
def execCoreFret (w : Twin) (n : Fin 8) (s : State) : Host.Outcome State Fault Refusal :=
  .next (s.onUp w fun c =>
    let x := c.core n.val
    if !x.inFast then c
    else
      let c := c.mapCore n.val fun x => { x with inFast := false, fastSource := none, pc := x.fepc, machine := x.fstatusMode }
      match x.fastSource with
      | some i => c.finishSource i
      | none => c.icuUpdate)

/-- The normal source presented to a core. -/
def Chip.presentedTo (c : Chip) (n : Nat) : Option Nat :=
  c.best fun i => (c.src i).presented == some n && !c.srcFast i && c.stillDue i

/-- A read of CLAIM_n (R499, R503): the presented source goes into service on the core, and the read answers it with its count; VALID 0 where
none is presented. -/
def Chip.claimWord (c : Chip) (n : Nat) : Chip × Word :=
  match c.presentedTo n with
  | none => (c, 0)
  | some i =>
    let x := c.src i
    let v := i + 2 ^ 10 * x.count + 2 ^ 29 * bit x.late + 2 ^ 31
    let c := ((c.noteLate n i).claimSource n i).cnt (K.ICT_CLAIMS n)
    (c.icuUpdate, BitVec.ofNat 32 v)

/-- CLAIM (R499, R503): the read answers the presented source with its count and puts it in service, or answers VALID 0. -/
def execIcuClaim (w : Twin) (rq : Requester) (n : Fin 8) (s : State) : Host.Outcome State Fault Refusal :=
  .next (s.onUp w fun c =>
    if !c.mayRead rq 0x115 then c.answer rq 0
    else
      let x := c.claimWord n.val
      x.1.answer rq (x.2.setWidth 64))

/-- A write of COMPLETE_n (R499). -/
def Chip.complete (c : Chip) (n i : Nat) : Chip :=
  let c := c.put (F.ICO_COMPLETE n) i
  if (c.src i).serving == some n then c.finishSource i else c.cnt K.ICT_BAD_COMPLETES

/-- COMPLETE (R499): the source leaves service on that core; a source not in service there counts in BAD_COMPLETES. -/
def execIcuComplete (w : Twin) (rq : Requester) (n : Fin 8) (i : Fin 1024) (s : State) : Host.Outcome State Fault Refusal :=
  .next (s.onUp w fun c => c.ifWrites rq 0x115 fun c => c.complete n.val i.val)

/-- A write of SWI (R496). -/
def Chip.swi (c : Chip) (bits : Nat) : Chip :=
  (List.range 8).foldl (fun c n => if bits.testBit n then c.pulse (0x3D0 + n) else c) c

/-- SWI (R496, R509): bit n pulses the software interrupt of logical core n. -/
def execIcuSwi (w : Twin) (rq : Requester) (bits : Byte) (s : State) : Host.Outcome State Fault Refusal :=
  .next (s.onUp w fun c => c.ifWrites rq 0x110 fun c => c.swi bits.toNat)

/-- The pending state of a source that is disabled, and its presentation, are withdrawn (R503); `late` says whether one presented just before is still
delivered. -/
def Chip.sourceDisable (c : Chip) (i : Nat) (late : Bool) : Chip :=
  if (c.src i).presented.isSome && late then c.mapSrc i fun x => { x with late := true }
  else (c.mapSrc i fun x => { x with count := 0, presented := none, fired := false }).icuUpdate

/-- SOURCE_DISABLE (R503, R510): presentation and pending state are withdrawn, from where the page runs; a source presented just before may still be
delivered once, with LATE. Whether it is, is a free value. -/
def execSourceDisable (w : Twin) (rq : Requester) (i : Fin 1024) (s : State) : Host.Outcome State Fault Refusal :=
  let (n, s) := s.nextFree
  .next (s.onUp w fun c => c.ifWrites rq (srcPage i.val) fun c =>
    let d := c.putLive (srcFld i.val 0 1) 0
    if c.running (srcPage i.val) then d.sourceDisable i.val (Config.lateDelivery n) else d)

/-- A write of SRC_j.TARGET (R505, R510). -/
def Chip.targetChange (c : Chip) (i target : Nat) : Chip :=
  if !c.running (srcPage i) then c.put (srcFld i 3 4) target
  else if target > 7 then c.reject (srcPage i) 0x01 (srcOff i)
  else
    let c := if c.srcTarget i = target then c else c.cnt K.ICT_RETARGETS
    (c.putCfg (srcFld i 3 4) target).icuUpdate

/-- TARGET_CHANGE (R505, R510): a pending source that is not presented moves at once, a presented one stays, and its sleeping core is
woken; a TARGET above 7 is rejected with RANGE while the page runs. -/
def execTargetChange (w : Twin) (rq : Requester) (i : Fin 1024) (target : Fin 16) (s : State) : Host.Outcome State Fault Refusal :=
  .next (s.onUp w fun c => c.ifWrites rq (srcPage i.val) fun c => c.targetChange i.val target.val)

/-- WFI (R484): the core's clocks stop, unless a wake event stands. -/
def execCoreWfi (w : Twin) (n : Fin 8) (s : State) : Host.Outcome State Fault Refusal :=
  .next (s.onUp w fun c =>
    if !(c.core n.val).running then c
    else ((c.mapCore n.val fun x => { x with asleep := true }).put (F.ICO_ASLEEP n.val) 1).wake n.val)

/-- MTIP (R478, R484): mtime has reached mtimecmp within this Round; MTIP is raised and wakes the core. -/
def execCoreMtip (w : Twin) (n : Fin 8) (s : State) : Host.Outcome State Fault Refusal :=
  .next (s.onUp w fun c =>
    if c.round * 400 + 399 < (c.core n.val).mtimecmp then c
    else (c.mapCore n.val fun x => { x with mtip := true }).wake n.val)

end Sys2Proof.Machine
end

