-- ==== Sys2Proof/Machine/Sha.lean ====
section
/-! DEFINITION. SHA-384 (FIPS 180-4), which the image check of the boot ROM takes (R558, R559). -/
namespace Sys2Proof.Machine

namespace Sha

/-- The 80 round constants. -/
def constants : List Nat :=
  [0x428A2F98D728AE22, 0x7137449123EF65CD, 0xB5C0FBCFEC4D3B2F, 0xE9B5DBA58189DBBC, 0x3956C25BF348B538,
   0x59F111F1B605D019, 0x923F82A4AF194F9B, 0xAB1C5ED5DA6D8118, 0xD807AA98A3030242, 0x12835B0145706FBE,
   0x243185BE4EE4B28C, 0x550C7DC3D5FFB4E2, 0x72BE5D74F27B896F, 0x80DEB1FE3B1696B1, 0x9BDC06A725C71235,
   0xC19BF174CF692694, 0xE49B69C19EF14AD2, 0xEFBE4786384F25E3, 0x0FC19DC68B8CD5B5, 0x240CA1CC77AC9C65] ++
  [0x2DE92C6F592B0275, 0x4A7484AA6EA6E483, 0x5CB0A9DCBD41FBD4, 0x76F988DA831153B5, 0x983E5152EE66DFAB,
   0xA831C66D2DB43210, 0xB00327C898FB213F, 0xBF597FC7BEEF0EE4, 0xC6E00BF33DA88FC2, 0xD5A79147930AA725,
   0x06CA6351E003826F, 0x142929670A0E6E70, 0x27B70A8546D22FFC, 0x2E1B21385C26C926, 0x4D2C6DFC5AC42AED,
   0x53380D139D95B3DF, 0x650A73548BAF63DE, 0x766A0ABB3C77B2A8, 0x81C2C92E47EDAEE6, 0x92722C851482353B] ++
  [0xA2BFE8A14CF10364, 0xA81A664BBC423001, 0xC24B8B70D0F89791, 0xC76C51A30654BE30, 0xD192E819D6EF5218,
   0xD69906245565A910, 0xF40E35855771202A, 0x106AA07032BBD1B8, 0x19A4C116B8D2D0C8, 0x1E376C085141AB53,
   0x2748774CDF8EEB99, 0x34B0BCB5E19B48A8, 0x391C0CB3C5C95A63, 0x4ED8AA4AE3418ACB, 0x5B9CCA4F7763E373,
   0x682E6FF3D6B2B8A3, 0x748F82EE5DEFB2FC, 0x78A5636F43172F60, 0x84C87814A1F0AB72, 0x8CC702081A6439EC] ++
  [0x90BEFFFA23631E28, 0xA4506CEBDE82BDE9, 0xBEF9A3F7B2C67915, 0xC67178F2E372532B, 0xCA273ECEEA26619C,
   0xD186B8C721C0C207, 0xEADA7DD6CDE0EB1E, 0xF57D4F7FEE6ED178, 0x06F067AA72176FBA, 0x0A637DC5A2C898A6,
   0x113F9804BEF90DAE, 0x1B710B35131C471B, 0x28DB77F523047D84, 0x32CAAB7B40C72493, 0x3C9EBE0A15C9BEBC,
   0x431D67C49C100D4C, 0x4CC5D4BECB3E42B6, 0x597F299CFC657E2A, 0x5FCB6FAB3AD6FAEC, 0x6C44198C4A475817]

/-- The eight working variables, and the eight words of the hash. -/
structure Words where
  a : Nat
  b : Nat
  c : Nat
  d : Nat
  e : Nat
  f : Nat
  g : Nat
  h : Nat
  deriving DecidableEq, Repr

/-- The initial hash value of SHA-384. -/
def start : Words :=
  ⟨0xCBBB9D5DC1059ED8, 0x629A292A367CD507, 0x9159015A3070DD17, 0x152FECD8F70E5939,
   0x67332667FFC00B31, 0x8EB44A8768581511, 0xDB0C2E0D64F98FA7, 0x47B5481DBEFA4FA4⟩

/-- A sum of 64-bit words. -/
def add64 (x y : Nat) : Nat := (x + y) % 2 ^ 64

/-- A 64-bit word rotated right. -/
def rotr (x n : Nat) : Nat := x >>> n ||| x <<< (64 - n) % 2 ^ 64

def sigma0 (x : Nat) : Nat := rotr x 1 ^^^ rotr x 8 ^^^ x >>> 7
def sigma1 (x : Nat) : Nat := rotr x 19 ^^^ rotr x 61 ^^^ x >>> 6
def sum0 (x : Nat) : Nat := rotr x 28 ^^^ rotr x 34 ^^^ rotr x 39
def sum1 (x : Nat) : Nat := rotr x 14 ^^^ rotr x 18 ^^^ rotr x 41
def choice (x y z : Nat) : Nat := x &&& y ^^^ (2 ^ 64 - 1 - x) &&& z
def majority (x y z : Nat) : Nat := x &&& y ^^^ x &&& z ^^^ y &&& z

/-- The next word of the message schedule, from the words so far, the latest first. -/
def nextWord (ws : List Nat) : Nat :=
  add64 (add64 (sigma1 (ws.getD 1 0)) (ws.getD 6 0)) (add64 (sigma0 (ws.getD 14 0)) (ws.getD 15 0))

/-- The 80 words of the schedule of a block of 16 words. -/
def schedule (block : List Nat) : List Nat := (Nat.repeat (fun ws => nextWord ws :: ws) 64 block.reverse).reverse

/-- One round. -/
def round (x : Words) (kw : Nat × Nat) : Words :=
  let t1 := add64 (add64 (add64 x.h (sum1 x.e)) (add64 (choice x.e x.f x.g) kw.1)) kw.2
  let t2 := add64 (sum0 x.a) (majority x.a x.b x.c)
  ⟨add64 t1 t2, x.a, x.b, x.c, add64 x.d t1, x.e, x.f, x.g⟩

/-- The hash value after one more block. -/
def block (x : Words) (words : List Nat) : Words :=
  let y := (constants.zip (schedule words)).foldl round x
  ⟨add64 x.a y.a, add64 x.b y.b, add64 x.c y.c, add64 x.d y.d, add64 x.e y.e, add64 x.f y.f, add64 x.g y.g, add64 x.h y.h⟩

/-- A big-endian number of bytes. -/
def numBE (bs : List Nat) : Nat := bs.foldl (fun a b => 256 * a + b) 0

/-- A message padded to whole blocks of 128 bytes. -/
def pad (bs : List Nat) : List Nat :=
  bs ++ 0x80 :: List.replicate ((239 - bs.length % 128) % 128) 0 ++ (List.range 16).map fun i => bs.length * 8 / 256 ^ (15 - i) % 256

/-- The words of a list of bytes, eight bytes to a word. -/
def words (bs : List Nat) : List Nat := (List.range (bs.length / 8)).map fun i => numBE ((bs.drop (8 * i)).take 8)

end Sha

/-- SHA-384 of some bytes. -/
def sha384 (bs : List Nat) : List Nat :=
  let p := Sha.pad bs
  let x := (List.range (p.length / 128)).foldl (fun h i => Sha.block h (Sha.words ((p.drop (128 * i)).take 128))) Sha.start
  [x.a, x.b, x.c, x.d, x.e, x.f].flatMap fun w => (List.range 8).map fun i => w / 256 ^ (7 - i) % 256

end Sys2Proof.Machine
end

