-- ==== Sys2Proof/Machine/Firmware.lean ====
section
/-! DEFINITION. The boot flash, the watchdogs and the spare core (R464, R479, R485 to R495). -/
namespace Sys2Proof.Machine

/-! ## Eflash (R485 to R490) -/

/-- Size of a bank and of a sector in bytes. -/
abbrev bankSize : Nat := 4194304
abbrev sectorSize : Nat := 8192

/-- The bank and the sector (0 to 1,023 over both banks) of an eflash offset. -/
def bankOf (off : Nat) : Nat := off / bankSize
def sectorOf (off : Nat) : Nat := off / sectorSize

/-- A pointer entry's bytes (R486). -/
def pointerWord (seq slot : Nat) : List Nat :=
  let body := leBytes 4 seq ++ leBytes 4 (slot % 2) ++ leBytes 4 (0xFFFFFFFF - seq % 2 ^ 32)
  body ++ leBytes 4 (crc32c body)

namespace Chip

/-- A byte of eflash; an erased byte reads all-ones (R487). -/
def flash (c : Chip) (off : Nat) : Byte := c.efc.bytes.get (fun _ => 0xFF) off

/-- Bytes of eflash as numbers. -/
def flashBytes (c : Chip) (off n : Nat) : List Nat := (List.range n).map fun i => (c.flash (off + i)).toNat

/-- The chip with bytes of eflash replaced. -/
def setFlash (c : Chip) (off : Nat) (bs : List Byte) : Chip :=
  { c with efc := { c.efc with bytes := Table.setAll (fun _ => 0xFF) c.efc.bytes ((List.range bs.length).zip bs |>.map fun p => (off + p.1, p.2)) } }

/-- The chip with a sector reading all-ones. -/
def blankSector (c : Chip) (sector : Nat) : Chip :=
  { c with efc := { c.efc with
    bytes := c.efc.bytes.clear fun k => k / sectorSize == sector
    cut := c.efc.cut.filter fun k => k / sectorSize != sector } }

/-- An operation that a reset cuts short (R486): the words of a PROGRAM, or of the entry of a PTR_SWAP, fail their check bits. -/
def cutShort (x : Efc) : Efc :=
  match x.op with
  | some y => { x with op := none, cut := if y.op = 2 ∨ y.op = 4 then x.cut else
      x.cut ++ (List.range ((y.data.length + 15) / 16)).map fun i => y.offset + 16 * i }
  | none => x

/-- The first byte of pointer sector P0 or P1 (R485). -/
def pointerBase (slot : Nat) : Nat := slot * bankSize + 511 * sectorSize

/-- Whether the 128-bit word at an offset is a valid pointer entry (R486); the answer is (SEQ, SLOT). -/
def pointerEntry (c : Chip) (off : Nat) : Option (Nat × Nat) :=
  let bs := c.flashBytes off 16
  if c.efc.cut.contains off then none else
  let seq := ofLeBytes (bs.take 4)
  let slot := ofLeBytes ((bs.drop 4).take 4)
  if slot < 2 && ofLeBytes ((bs.drop 8).take 4) == 0xFFFFFFFF - seq && ofLeBytes (bs.drop 12) == crc32c (bs.take 12)
  then some (seq, slot) else none

/-- The offsets of the words of a pointer sector that hold anything. -/
def usedPointerWords (c : Chip) (slot : Nat) : List Nat :=
  let here (k : Nat) : Bool := decide (pointerBase slot ≤ k) && decide (k < pointerBase slot + sectorSize)
  (((c.efc.bytes.entries here).map fun (e : Nat × Byte) => e.1 / 16 * 16) ++ c.efc.cut.filter here).eraseDups

/-- The valid entry with the highest SEQ in P0 and P1 (R486). -/
def latestPointer (c : Chip) : Option (Nat × Nat) :=
  ((c.usedPointerWords 0 ++ c.usedPointerWords 1).filterMap c.pointerEntry).foldl
    (fun b e => match b with
      | none => some e
      | some x => if x.1 < e.1 then some e else some x) none

/-- The first erased word of the pointer sector of a slot. -/
def freePointerWord (c : Chip) (slot : Nat) : Option Nat :=
  let used := c.usedPointerWords slot
  ((List.range 512).map fun i => pointerBase slot + 16 * i).find? fun o => !used.contains o

/-- POINTER_SLOT and POINTER_SEQ follow the highest valid entry (R507). -/
def showPointer (c : Chip) : Chip :=
  match c.latestPointer with
  | none => (c.put F.EFC_POINTER_SLOT 0).put F.EFC_POINTER_SEQ 0
  | some (seq, slot) => (c.put F.EFC_POINTER_SLOT slot).put F.EFC_POINTER_SEQ seq

/-- A GO refused by a check of R489. -/
def efcRefuse (c : Chip) (code : Nat) : Chip :=
  (((c.put F.EFC_EFC_STATUS_CODE code).put F.EFC_EFC_STATUS_STATE 3).cnt K.EFC_REFUSALS).raise F.EFC_EV_REFUSED

/-- The offset an operation acts on: EFC_ADDR, or the pointer sector of the slot that PTR_SWAP selects (R486). -/
def efcTarget (c : Chip) (op : Nat) : Nat :=
  if op = 3 then pointerBase (c.get F.EFC_EFC_CMD2_SLOT) else 16 * c.get F.EFC_EFC_ADDR

/-- The program data of DATA_w (R507). -/
def efcData (c : Chip) (words : Nat) : List Byte :=
  ((List.range (4 * words)).map fun w => (leBytes 4 (c.get (F.EFC_DATA w))).map (BitVec.ofNat 8)).flatten

/-- The first check of R489 that a GO fails; `fetched` is the bank that the store that wrote GO was fetched from. -/
def efcCheck (c : Chip) (op : Nat) (fetched : Option (Fin 2)) : Option Nat :=
  let off := c.efcTarget op
  let words := c.get F.EFC_EFC_CMD2_WORDS
  let sector := sectorOf off
  if op = 0 ∨ op > 3 ∨ off ≥ 2 * bankSize ∨ words = 0 ∨ words > 32 then some 0x05
  else if (op = 1 ∧ off % 512 + 16 * words > 512) ∨ (op = 2 ∧ off % sectorSize ≠ 0) then some 0x04
  else if c.efc.bad.contains sector then some 0x08
  else if (c.is F.EFC_PROT_ACTIVE_LOCK && bankOf off == c.get F.EFC_ACTIVE_SLOT) || (op != 3 && decide (sector % 512 ≥ 510)) then some 0x03
  else if c.svcState = 3 ∨ c.svcState = 4 ∨ c.svcState = 5 then some 0x07
  else if c.efc.op.isSome then some 0x02
  else if fetched.map (·.val) == some (bankOf off) && !c.is F.EFC_EFC_CMD_STALL_OK then some 0x01
  else if op = 1 && ((c.flashBytes off (16 * words)).any (· != 255) || (List.range words).any fun i => c.efc.cut.contains (off + 16 * i)) then some 0x06
  else none

/-- An EFC operation starts (R487, R488): an ERASE sets the sector's flag cell; PTR_SWAP programs the next entry, after an erase where
its sector holds no erased word. -/
def efcStart (c : Chip) (op : Nat) : Chip :=
  let off := c.efcTarget op
  let slot := c.get F.EFC_EFC_CMD2_SLOT
  let seq := match c.latestPointer with | some (q, _) => (q + 1) % 2 ^ 32 | none => 1
  let entry := (pointerWord seq slot).map (BitVec.ofNat 8)
  let x : EfcOp := match op with
    | 1 => ⟨1, off, c.efcData (c.get F.EFC_EFC_CMD2_WORDS), 0, 0⟩
    | 2 => ⟨2, off, [], 0, 0⟩
    | _ => match c.freePointerWord slot with
      | some o => ⟨3, o, entry, slot, 0⟩
      | none => ⟨4, off, entry, slot, 0⟩
  let c := { c with efc := { c.efc with
    op := some x,
    flags := if x.op = 2 ∨ x.op = 4 then sectorOf off :: c.efc.flags else c.efc.flags } }
  let c := ((c.put F.EFC_EFC_STATUS_STATE 1).put F.EFC_EFC_STATUS_BANK (bankOf off)).put F.EFC_EFC_STATUS_PULSES 0
  let c := c.put F.EFC_EFC_STATUS_CODE 0
  if op = 1 then c.cnt K.EFC_PROGRAM_OPS else if op = 2 then c.cnt K.EFC_ERASE_OPS else c

/-- EFC_CMD.GO with an operation (R489, R599): in RUNNING only. -/
def efcGo (c : Chip) (op : Nat) (fetched : Option (Fin 2)) : Chip :=
  c.ifRunning 0x130 0x100 fun c =>
    let c := c.putCfg F.EFC_EFC_CMD_OP op
    match c.efcCheck op fetched with
    | some code => c.efcRefuse code
    | none => c.efcStart op

/-- An operation ends (R487). -/
def efcEnd (c : Chip) (st : Nat) : Chip := { c with efc := { c.efc with op := none } }.put F.EFC_EFC_STATUS_STATE st

/-- The flag cell of a sector is cleared (R488). -/
def clearFlag (c : Chip) (sector : Nat) : Chip := { c with efc := { c.efc with flags := c.efc.flags.filter (· != sector) } }

/-- Cobbler remaps a failed sector to a spare of its bank, 16 to a bank, or marks it bad (R464, R485, R487). -/
def remapSector (c : Chip) (sector : Nat) : Chip :=
  let used := (c.efc.remapped.filter fun x => x / 512 == sector / 512).length
  if used ≥ 16 then { c with efc := { c.efc with bad := sector :: c.efc.bad } }
  else
    let c := { c with efc := { c.efc with remapped := sector :: c.efc.remapped } }.blankSector sector
    let left := c.get F.CBO_EFLASH_SECTORS_LEFT - 1
    (c.put F.CBO_EFLASH_SECTORS_LEFT left).drew 13 (sramLocation 10 0 (sector * 256)) (left == 0)

/-- An operation that reached its pulse limit fails (R487). -/
def efcFail (c : Chip) (x : EfcOp) (firstBad : Nat) : Chip :=
  let sector := sectorOf x.offset
  let c := if x.op = 2 ∨ x.op = 4 then c.clearFlag sector else c
  let c := (c.efcEnd 3).put F.EFC_FAIL_ADDR (x.offset + 16 * firstBad)
  ((c.cnt K.EFC_FAILS).raise F.EFC_EV_OP_FAIL).remapSector sector

/-- An operation passed its verify (R486 to R488). -/
def efcPass (c : Chip) (x : EfcOp) : Chip :=
  if x.op = 2 then (((c.blankSector (sectorOf x.offset)).clearFlag (sectorOf x.offset)).efcEnd 2).raise F.EFC_EV_OP_DONE
  else if x.op = 4 then
    let c := (c.blankSector (sectorOf x.offset)).clearFlag (sectorOf x.offset)
    { c with efc := { c.efc with op := some { x with op := 3, pulses := 0 } } }
  else
    let c := c.setFlash x.offset x.data
    let c := if x.op = 3 then c.showPointer else c
    (c.efcEnd 2).raise F.EFC_EV_OP_DONE

/-! ## Watchdogs (R491 to R495) -/

/-- The timeout of the chip watchdog in ms (R491). -/
def chipLimitMs (c : Chip) : Nat := if c.running 0x120 then c.cfg F.WDT_CHIP_WD_TIMEOUT_MS else 4000

/-- Whether a watchdog kicked in a Round has expired after so many µs, by the end of this Round. -/
def expired (c : Chip) (kick : Int) (us : Nat) : Bool := decide ((c.aonNow - kick + 1) * 4 ≥ (us : Int))

/-- Whether a pulse is on, so that an expiry is deferred (R493). -/
def pulsing (c : Chip) : Bool := c.efc.op.isSome

/-- An expiry is deferred to the end of the pulse (R493). -/
def deferExpiry (c : Chip) : Chip := (c.cnt K.WDT_DEFERRALS).raise F.WDT_EV_DEFERRED

/-- An expiry between the save commit and SEALED is logged only (R491, R492). -/
def logExpiry (c : Chip) : Chip := (c.cnt K.WDT_SAVE_EXPIRIES).raise F.WDT_EV_SAVE_EXPIRY

/-- The chip watchdog expires (R491). -/
def chipExpiry (c : Chip) : Chip := if c.saveActive then c.logExpiry else c.failStop true

/-- Stage 1 of a core watchdog (R492). -/
def coreWarn (c : Chip) (n : Nat) : Chip :=
  ((c.mapCore n fun x => { x with warned := true }).cnt K.WDT_CORE_WARNINGS).pulse (0x3C8 + n)

/-- A logical core starts at the boot ROM reset vector with its registers as after a chip reset (R479, R495), on the physical core named; its
mtimecmp and its watchdog are the logical core's. -/
def restartCore (c : Chip) (n : Nat) (phys : Nat) (zeroLocal : Bool) : Chip :=
  let fresh (x : Core) : Core := {
    phys, running := true, mtimecmp := x.mtimecmp, mtip := x.mtip, kickRound := c.aonNow
    scratch := if zeroLocal then [] else x.scratch }
  ((c.mapCore n fresh).put (F.ICO_ASLEEP n) 0).returnSources n

/-- The Rounds of the resets of a logical core in the last 60 minutes. -/
def recentResets (c : Chip) (n : Nat) : List Int := (c.wdt.resets.get (fun _ => []) n).filter fun r => decide (c.aonNow < r + hourRounds)

/-- Cobbler retires the physical core that holds a logical core (R464, R479): held in reset until CC8 takes the number. -/
def retireCore (c : Chip) (n : Nat) : Chip :=
  let c := (c.mapCore n fun x => { x with running := false, asleep := false, inFast := false, fastSource := none, reservation := none }).returnSources n
  { c with cbl := { c.cbl with coreRetired := n :: c.cbl.coreRetired } }

/-- A core watchdog reset (R495), counted by the always-on domain; a second within 60 minutes retires the physical core. -/
def coreReset (c : Chip) (n : Nat) : Chip :=
  let c := c.restartCore n (c.core n).phys false
  let l := c.recentResets n ++ [c.aonNow]
  let c := { c with wdt := { c.wdt with resets := c.wdt.resets.set (fun _ => []) n l } }
  let w := c.rd 0x120 0x824
  let c := c.wr 0x120 0x824 (withBits w (2 * n) 2 (min 3 l.length))
  let c := (c.cnt K.WDT_CORE_RESETS).raise F.WDT_EV_CORE_RESET
  if l.length ≥ 2 then c.retireCore n else c

/-- Stage 2 of a core watchdog (R492). -/
def coreExpiry (c : Chip) (n : Nat) : Chip := if c.saveActive then c.logExpiry else c.coreReset n

/-- The expiries that waited for the pulse's end take effect (R493). -/
def releaseDeferred (c : Chip) : Chip :=
  let chip := c.wdt.deferChip
  let warn := c.wdt.deferWarn
  let reset := c.wdt.deferReset
  let c := { c with wdt := { c.wdt with deferChip := false, deferWarn := [], deferReset := [] } }
  let c := warn.foldl coreWarn c
  let c := reset.foldl coreExpiry c
  if chip then c.chipExpiry else c

/-- Whether a core watchdog runs (R492). -/
def coreWdOn (c : Chip) (n : Nat) : Bool := c.running 0x120 && (c.cfg F.WDT_CORE_WD_EN >>> n) % 2 == 1

/-- The kick sequence of R491. -/
def kickOk (first second : Byte) (inTime : Bool) : Bool := first == 0xA5 && second == 0x5A && inTime

end Chip

/-! ## The commands -/

/-- EFC_PROGRAM (R487, R489): GO with OP PROGRAM. -/
def execEfcProgram (w : Twin) (rq : Requester) (fetched : Option (Fin 2)) (s : State) : Host.Outcome State Fault Refusal :=
  .next (s.onUp w fun c => c.ifWrites rq 0x130 fun c => c.efcGo 1 fetched)

/-- EFC_ERASE (R487, R489): GO with OP ERASE. -/
def execEfcErase (w : Twin) (rq : Requester) (fetched : Option (Fin 2)) (s : State) : Host.Outcome State Fault Refusal :=
  .next (s.onUp w fun c => c.ifWrites rq 0x130 fun c => c.efcGo 2 fetched)

/-- PTR_SWAP (R486, R489): GO with OP PTR_SWAP. -/
def execPtrSwap (w : Twin) (rq : Requester) (fetched : Option (Fin 2)) (s : State) : Host.Outcome State Fault Refusal :=
  .next (s.onUp w fun c => c.ifWrites rq 0x130 fun c => c.efcGo 3 fetched)

/-- EFC_PULSE_DONE (R487, R490, R493): a pulse and its verify end. `firstBad` is the first word that fails verify; `deferUs` how long
the oldest deferred expiry waited. An ERASE stops at a save commit with its flag cell set. -/
def execEfcPulseDone (w : Twin) (firstBad : Option (Fin 512)) (deferUs : Nat) (s : State) : Host.Outcome State Fault Refusal :=
  .next (s.onUp w fun c =>
    match c.efc.op with
    | none => c
    | some x =>
      let erase := decide (x.op = 2 ∨ x.op = 4)
      let x := { x with pulses := x.pulses + 1 }
      let c := { c with efc := { c.efc with op := some x } }.put F.EFC_EFC_STATUS_PULSES x.pulses
      let c := c.cnt (if erase then K.EFC_ERASE_PULSES else K.EFC_PROGRAM_PULSES)
      let c := if c.wdt.deferChip || !c.wdt.deferWarn.isEmpty || !c.wdt.deferReset.isEmpty then c.peak K.WDT_DEFER_US_MAX (min deferUs 1000) else c
      let c := if erase && c.saveActive then c.efcEnd 0
        else match firstBad with
        | none => c.efcPass x
        | some k => if x.pulses ≥ (if erase then 64 else 16) then c.efcFail x k.val else c
      c.releaseDeferred)

/-- PROT.ACTIVE_LOCK is written (R489). -/
def Chip.activeLock (c : Chip) : Chip := c.put F.EFC_PROT_ACTIVE_LOCK 1

/-- ACTIVE_LOCK (R489, R599): PROT.ACTIVE_LOCK is set until a reset clears it. -/
def execActiveLock (w : Twin) (rq : Requester) (s : State) : Host.Outcome State Fault Refusal :=
  .next (s.onUp w fun c => c.ifWrites rq 0x130 Chip.activeLock)

/-- KICK_CHIP (R491): the sequence from a machine-mode core restarts the chip watchdog; any other write counts in BAD_KICKS. -/
def execKickChip (w : Twin) (rq : Requester) (first second : Byte) (inTime : Bool) (s : State) : Host.Outcome State Fault Refusal :=
  .next (s.onUp w fun c => c.ifWrites rq 0x120 fun c =>
    match rq with
    | .coreM _ =>
      if Chip.kickOk first second inTime then
        { c with wdt := { c.wdt with chipKick := c.aonNow, deferChip := false } }.cnt K.WDT_CHIP_KICKS
      else c.cnt K.WDT_BAD_KICKS 2
    | _ => c.cnt K.WDT_BAD_KICKS 2)

/-- KICK_CORE (R492): the sequence restarts the watchdog of the core that writes it. -/
def execKickCore (w : Twin) (rq : Requester) (first second : Byte) (inTime : Bool) (s : State) : Host.Outcome State Fault Refusal :=
  .next (s.onUp w fun c => c.ifWrites rq 0x120 fun c =>
    match rq with
    | .coreM n | .coreS n =>
      if Chip.kickOk first second inTime && decide (n.val < 8) then
        { c.mapCore n.val (fun x => { x with kickRound := c.aonNow, warned := false }) with
          wdt := { c.wdt with deferWarn := c.wdt.deferWarn.filter (· != n.val), deferReset := c.wdt.deferReset.filter (· != n.val) } }
      else c.cnt K.WDT_BAD_KICKS 2
    | _ => c.cnt K.WDT_BAD_KICKS 2)

/-- CHIP_WATCHDOG_EXPIRY (R491, R493): the timeout ends within this Round; the chip fail-stops, or the expiry is logged during a save, or deferred
during a pulse. -/
def execChipWatchdogExpiry (w : Twin) (s : State) : Host.Outcome State Fault Refusal :=
  .next (s.onUp w fun c =>
    if !c.expired c.wdt.chipKick (1000 * c.chipLimitMs) then c
    else if c.pulsing then { c with wdt := { c.wdt with deferChip := true } }.deferExpiry else c.chipExpiry)

/-- CORE_WATCHDOG_WARN (R492, R493): stage 1 pulses the core's fast source. -/
def execCoreWatchdogWarn (w : Twin) (n : Fin 8) (s : State) : Host.Outcome State Fault Refusal :=
  .next (s.onUp w fun c =>
    if !c.coreWdOn n.val || (c.core n.val).warned || !c.expired (c.core n.val).kickRound (c.cfg F.WDT_CORE_WD_WARN_US) then c
    else if c.pulsing then { c with wdt := { c.wdt with deferWarn := c.wdt.deferWarn ++ [n.val] } }.deferExpiry
    else c.coreWarn n.val)

/-- CORE_WATCHDOG_RESET (R492, R493, R495): stage 2 resets the core. -/
def execCoreWatchdogReset (w : Twin) (n : Fin 8) (s : State) : Host.Outcome State Fault Refusal :=
  .next (s.onUp w fun c =>
    if !c.coreWdOn n.val || !(c.core n.val).warned ||
        !c.expired (c.core n.val).kickRound (c.cfg F.WDT_CORE_WD_WARN_US + c.cfg F.WDT_CORE_WD_RESET_US) then c
    else if c.pulsing then { c with wdt := { c.wdt with deferReset := c.wdt.deferReset ++ [n.val] } }.deferExpiry
    else c.coreExpiry n.val)

/-- LOCK.SET is written (R494). -/
def Chip.wdtLock (c : Chip) : Chip := c.put F.WDT_LOCK_SET 1

/-- WDT_LOCK_SET (R494): the WDT page cannot be turned off until a reset. -/
def execWdtLockSet (w : Twin) (rq : Requester) (s : State) : Host.Outcome State Fault Refusal :=
  .next (s.onUp w fun c => c.ifWrites rq 0x120 Chip.wdtLock)

/-- CORE_SPARE_SWAP (R479): CC8 takes the number of a retired core, at the boot ROM with its local memory zeroed. -/
def execCoreSpareSwap (w : Twin) (n : Fin 8) (s : State) : Host.Outcome State Fault Refusal :=
  .next (s.onUp w fun c =>
    if !c.cbl.coreRetired.contains n.val || c.get F.CBO_CORES_LEFT = 0 then c
    else
      let c := { c with cbl := { c.cbl with coreRetired := c.cbl.coreRetired.filter (· != n.val), coreSwap := some n.val } }
      let c := (c.restartCore n.val 8 true).put F.CBO_CORES_LEFT 0
      c.drew 12 (Chip.sramLocation 9 n.val 0) true)

end Sys2Proof.Machine
end

