-- ==== Sys2Proof/Machine/Board.lean ====
section
/-! DEFINITION. Board services: the power sequencer, margining, the thermal loop, AVSBus and FCLK steps, and the management two-wire
interface (R514 to R541). -/
namespace Sys2Proof.Machine

namespace Chip

/-! ## Save ends that other blocks cause (R399) -/

/-- A save in progress ends without a seal: UNSEALED, SAVE_FAILED, HELD; no earlier seal stands in its place (R399, R401). -/
def saveFail (c : Chip) : Chip :=
  let c := { c with svc := { c.svc with sealRec := none } }
  let c := (c.put F.SAV_SVC_STATE 6).raise F.SAV_EV_SAVE_FAILED
  let c := allPorts.foldl (fun c p => c.setRole p 0) c.dropOwn
  (c.setMode mHELD).stopLink

/-- PFAIL_N falls, or is taken as falling: the SVC raises its fast interrupt (R393, R521). -/
def pfailFall (c : Chip) : Chip := { c with svc := { c.svc with pfailLow := true } }.pulse 0x3C0

/-! ## The power sequencer (R514 to R525) -/

/-- A word of the sequence table in use. -/
def seqWord (c : Chip) (off : Nat) : Word := c.psq.table.get (resetWord 0x140) off

/-- EN_SET_s and PG_REQ_s of the table in use (R515). -/
def enSet (c : Chip) (s : Nat) : Nat := bitsOf (c.seqWord (0x110 + 8 * s)) 0 16
def pgReq (c : Chip) (s : Nat) : Nat := bitsOf (c.seqWord (0x110 + 8 * s)) 16 16

/-- TOP and SYNC_EN of the table in use. -/
def seqTop (c : Chip) : Nat := bitsOf (c.seqWord 0x100) 0 4
def syncEn (c : Chip) : Bool := bitsOf (c.seqWord 0x100) 4 1 == 1 && !c.psq.alone

/-- The offsets of the registers that hold the sequence table (R543). -/
def seqOffsets : List Nat := 0x100 :: ((List.range 30).map fun i => 0x118 + 4 * i)

def psqState (c : Chip) : Nat := c.get F.PSQ_PSQ_STATE
def psqDir (c : Chip) : Nat := c.get F.PSQ_PSQ_DIR

/-- The state whose PG_REQ the current phase waits for: the current one on the way up, the one left on the way down (R515). -/
def psqWaits (c : Chip) : Nat := if c.psqDir = 3 then c.psqState + 1 else c.psqState

/-- The PG bits that the current phase still waits for. -/
def pgMissing (c : Chip) : Nat :=
  let req := c.pgReq c.psqWaits
  let pg := c.get F.PSQ_PG_IN
  if c.psqDir = 3 then req &&& pg else req - (req &&& pg)

/-- The phase of the state moves on: 0 waits for PG, 1 in DELAY, 2 satisfied. -/
def setPhase (c : Chip) (n : Nat) : Chip :=
  { c with psq := { c.psq with phase := n } }.put F.PSQ_PSQ_SYNC_HELD (bit (c.syncEn && n != 2))

/-- The wait for PG ends where no bit is missing. -/
def psqCheck (c : Chip) : Chip :=
  if (c.psqDir = 1 ∨ c.psqDir = 3) ∧ c.psq.phase = 0 ∧ c.pgMissing = 0 then c.setPhase 1 else c

/-- Enters a state on the way up: its EN outputs are asserted (R515). -/
def enterUp (c : Chip) (s : Nat) : Chip :=
  let c := (c.put F.PSQ_PSQ_STATE s).put F.PSQ_EN_OUT (c.get F.PSQ_EN_OUT ||| c.enSet s)
  (c.setPhase 0).psqCheck

/-- Takes the step down from the current state: its EN outputs are deasserted (R515). In state 0 the sequence ends, and the off time
begins (R525). -/
def stepDown (c : Chip) : Chip :=
  let s := c.psqState
  if s = 0 then
    let c := { c with psq := { c.psq with offServed := false, alone := false } }
    ((c.put F.PSQ_PSQ_DIR 0).setPhase 2).cnt K.PSQ_DOWN_SEQUENCES
  else
    let en := c.get F.PSQ_EN_OUT
    let c := (c.put F.PSQ_EN_OUT (en - (en &&& c.enSet s))).put F.PSQ_PSQ_STATE (s - 1)
    (c.setPhase 0).psqCheck

/-- A down sequence starts from the current state (R520, R522): SEQ_OUT low first; the chip's rails begin to go. In state 0 there is
nothing to take down. -/
def startDown (c : Chip) : Chip :=
  if c.psqDir = 0 ∨ c.psqDir = 3 then c
  else
    let c := (c.put F.PSQ_PSQ_SEQ_OUT 0).put F.PSQ_PSQ_DIR 3
    let c := { c with psq := { c.psq with faultWait := false }, rst := { c.rst with powered := false } }
    (allPorts.foldl (fun c p => c.setRole p 0) c.dropOwn).stepDown

/-- Records LAST_FAULT (R543). -/
def lastFault (c : Chip) (rail kind : Nat) : Chip :=
  ((c.put F.PSQ_LAST_FAULT_RAIL rail).put F.PSQ_LAST_FAULT_STATE c.psqState).put F.PSQ_LAST_FAULT_KIND kind

/-- The lowest bit set in a mask of 16. -/
def lowestBit (m : Nat) : Nat := ((List.range 16).find? fun i => (m >>> i) % 2 == 1).getD 0

/-- An up timeout (R518): recorded, run down, and after RETRY_MAX failed attempts in a row held in state 0. -/
def upTimeout (c : Chip) : Chip :=
  let c := ((c.lastFault (lowestBit c.pgMissing) 2).cnt K.PSQ_UP_TIMEOUTS).raise F.PSQ_EV_UP_TIMEOUT
  let n := c.psq.attempts + 1
  let c := { c with psq := { c.psq with attempts := n } }
  let c := if n ≥ bitsOf (c.seqWord 0x100) 8 2 then c.put F.PSQ_PSQ_UP_HELD 1 else c
  c.startDown

/-- The PSQ moves to its next state (R515, R518): to AT_TOP from TOP, else up or down. -/
def psqNext (c : Chip) : Chip :=
  if c.psqDir = 1 then
    (if c.psqState ≥ c.seqTop then
      let c := { c with psq := { c.psq with attempts := 0 } }
      ((c.put F.PSQ_PSQ_DIR 2).put F.PSQ_PSQ_SEQ_OUT 1).cnt K.PSQ_UP_SEQUENCES
    else c.enterUp (c.psqState + 1))
  else if c.psqDir = 3 then c.stepDown
  else c

/-- Whether a PG bit belongs to a running rail (R523): in PG_REQ of a state that has been satisfied, on the way up or at top. -/
def railRuns (c : Chip) (i : Nat) : Bool :=
  (c.psqDir == 1 || c.psqDir == 2) &&
  (List.range 16).any fun s => decide (1 ≤ s) && (c.pgReq s >>> i) % 2 == 1 &&
    (decide (s < c.psqState) || (s == c.psqState && c.psq.phase == 2))

/-! ## AVS and FCLK (R531 to R533) -/

/-- The margin offset of a rail in use, in mV (R526, R544). -/
def marginMv (c : Chip) (k : Nat) : Int := 5 * (BitVec.ofNat 8 (c.cfg (F.MAR_MARGIN_OFFSET_MV k))).toInt

/-- The voltage of a rail with its margin offset is sent (R526). -/
def sendMargin (c : Chip) (k : Nat) : Chip := (c.avsSend k 0 ((c.railBase k : Int) + c.marginMv k).toNat).cnt K.MAR_MARGIN_WRITES

/-- The VDD_CORE target, kept within the limits of R532, is sent with the margin offset of rail 0 (R526). -/
def setVdd (c : Chip) (mv : Nat) : Chip :=
  let hi := min 850 (c.cfg F.AVS_AVS_CFG_VMAX_MV)
  let lo := max 650 (c.cfg F.AVS_AVS_CFG_VMIN_MV)
  let v := max lo (min hi mv)
  (c.put F.AVS_VDD_TARGET_MV v).avsSend 0 0 ((v : Int) + c.marginMv 0).toNat

/-- The FCLK step wanted (R533): the slower of CEIL and the throttle's. -/
def wantStep (c : Chip) : Nat := max (c.cfg F.AVS_DVFS_CFG_CEIL) c.thm.throttleStep

/-- A change of the wanted step (R533): raising frequency first raises the target by 25 mV. -/
def planStep (c : Chip) : Chip :=
  if c.wantStep < c.get F.AVS_FCLK_STEP ∧ c.thm.stepDue ≠ some c.wantStep then
    let c := { c with thm := { c.thm with stepDue := some c.wantStep, raiseReady := false } }
    (c.setVdd (c.get F.AVS_VDD_TARGET_MV + 25)).cnt K.AVS_VOLT_RAISES
  else c

/-- The AVS loop may act (R526, R531, R532): enabled, no offset on rail 0, not held by a failed write. -/
def avsOn (c : Chip) : Bool := c.cfg F.AVS_AVS_CFG_EN == 1 && c.cfg (F.MAR_MARGIN_OFFSET_MV 0) == 0 && !c.thm.held

/-- A voltage write of rail 0 has been answered: its target is the last good one, a loop that was held goes on, and so does a step that waits for its
voltage (R531, R533). -/
def targetTaken (c : Chip) : Chip :=
  let was := c.thm.held
  let c := { c with thm := { c.thm with lastGood := c.get F.AVS_VDD_TARGET_MV, held := false } }
  if was then c.planStep else c

/-- A voltage write of rail 0 has failed: the loop is held at its last good target, and a faster step waits until its voltage is written again (R531,
R533). -/
def targetFailed (c : Chip) : Chip :=
  { c with thm := { c.thm with held := true, stepDue := none, raiseReady := false } }.put F.AVS_VDD_TARGET_MV c.thm.lastGood

/-! ## Thermal (R527 to R530) -/

/-- Whether a reading lies more than 15 °C from the mean of the other readings (R527). -/
def strays (xs : List (Option Nat)) (n : Nat) : Bool :=
  let others := ((List.range xs.length).filter (· != n)).filterMap fun i => xs.getD i none
  match xs.getD n none with
  | none => false
  | some v => others.length ≠ 0 && decide (v * others.length > others.sum + 60 * others.length ∨ v * others.length + 60 * others.length < others.sum)

/-- Rounds without a reading of a sensor, up to 4 (R527). -/
def missRun (c : Chip) (xs : List (Option Nat)) (n : Nat) : Nat :=
  match xs.getD n none with
  | none => min 4 (c.thm.missing.get (fun _ => 0) n + 1)
  | some _ => 0

/-- Whether a sensor is left out of TJ_HOT (R527). -/
def sensorBad (c : Chip) (xs : List (Option Nat)) (n : Nat) : Bool := decide (c.missRun xs n ≥ 4) || strays xs n

/-- One sensor is shown as read and judged. -/
def showSensor (xs : List (Option Nat)) (c : Chip) (n : Nat) : Chip :=
  let isBad := c.sensorBad xs n
  let run := c.missRun xs n
  let isNew := isBad && !c.is (F.THM_TEMP_BAD n)
  let c := c.put (F.THM_TEMP_BAD n) (bit isBad)
  let c := match xs.getD n none with
    | some v => c.put (F.THM_TEMP n) v
    | none => c
  let c := { c with thm := { c.thm with missing := c.thm.missing.set (fun _ => 0) n run } }
  if isNew then (c.cnt K.THM_SENSOR_FAULTS).raise F.THM_EV_SENSOR_FAULT else c

/-- The highest reading of the good sensors, and the sensor that gives it. -/
def hottest (c : Chip) (xs : List (Option Nat)) : Nat × Nat :=
  (List.range 32).foldl (fun (m : Nat × Nat) n =>
    match xs.getD n none with
    | some v => if !c.sensorBad xs n && decide (v > m.1) then (v, n) else m
    | none => m) (0, 0)

/-- The runs of Rounds above and below the limits of R528 and R529, for a reading and what the chip acts on. -/
def thermalRuns (c : Chip) (hot acts : Nat) : Chip :=
  let thr : Nat := 4 * c.cfg F.THM_THERM_CFG_THROTTLE_C
  let cool : Nat := 4 * c.cfg F.THM_THERM_CFG_HYST_C
  let trip : Nat := 4 * c.cfg F.THM_TRIP_C
  { c with thm := { c.thm with
    hotRun := if acts ≥ thr then c.thm.hotRun + 1 else 0
    coolRun := if acts + cool ≤ thr then c.thm.coolRun + 1 else 0
    tripRun := if hot ≥ trip then c.thm.tripRun + 1 else 0 } }

/-- The thermal work of a Round (R527, R528): sensors judged, TJ_HOT found, runs above and below the limits counted. With fewer than
24 sensors good the chip acts as if TJ_HOT were THROTTLE_C. -/
def thermalRound (c : Chip) (xs : List (Option Nat)) : Chip :=
  let hot := (c.hottest xs).1
  let hotN := (c.hottest xs).2
  let good := ((List.range 32).filter fun n => !c.sensorBad xs n).length
  let acts : Nat := if good < 24 then max hot (4 * c.cfg F.THM_THERM_CFG_THROTTLE_C) else hot
  let c := (List.range 32).foldl (showSensor xs) c
  let c := ((c.put F.THM_TJ_HOT hot).put F.THM_HOT_SENSOR hotN).peak K.THM_TJ_PEAK_Q hot
  let alert : Bool := decide (acts ≥ 4 * c.cfg F.THM_THERM_CFG_ALERT_C)
  let was := c.thm.above
  let c : Chip := { c with thm := { c.thm with above := alert } }
  let c : Chip := if alert && !was then ((c.cnt K.THM_ALERTS).raise F.THM_EV_ALERT).pulse 0x3C2 else c
  let c := c.thermalRuns hot acts
  if c.thm.throttleStep > c.cfg F.AVS_DVFS_CFG_CEIL ∧ c.get F.AVS_FCLK_STEP > c.cfg F.AVS_DVFS_CFG_CEIL then c.cnt K.THM_THROTTLE_ROUNDS else c

/-- The Delivery sample of TJ_AVG_X10 (R530) and the rating it feeds (R467). -/
def thermalDelivery (c : Chip) : Chip :=
  let sum := c.thm.avgSum + c.get F.THM_TJ_HOT
  let n := c.thm.avgCount + 1
  let avg := 10 * sum / (4 * n)
  let c := { c with thm := { c.thm with avgSum := sum, avgCount := n } }
  (c.put F.THM_TJ_AVG_X10 avg).put F.CBL_RATING_TJ_OK (bit (avg ≤ 850))

/-! ## Management interface (R535 to R540) -/

/-- Whether the endpoint answers its address (R535): the speaker, once the endpoint has started. -/
def acking (c : Chip) : Bool := c.is F.MTI_ACKING

/-- TX_QUEUE and SMB_ALERT_N follow the queue (R540). -/
def showQueue (c : Chip) : Chip :=
  (c.put F.MTI_TX_QUEUE c.mti.tx.length).put F.MTI_ALERT (bit (!c.mti.tx.isEmpty))

/-- The endpoint places a packet in its queue of eight; a full queue loses its oldest (R540). -/
def mctpSend (c : Chip) (p : List Byte) : Chip :=
  if c.mti.tx.length ≥ 8 then
    (({ c with mti := { c.mti with tx := c.mti.tx.drop 1 ++ [p] } }.cnt K.MTI_TX_DROPPED).raise F.MTI_EV_TX_DROPPED).showQueue
  else { c with mti := { c.mti with tx := c.mti.tx ++ [p] } }.showQueue

end Chip

/-! ## The commands: power sequencer -/

/-- PG_CHANGE (R515): a PG input takes a level; a state may become satisfied. One that a state on the way up needs and that falls within its DELAY is
waited for again (DESIGN CHOICE). -/
def execPgChange (w : Twin) (i : Fin 16) (high : Bool) (s : State) : Host.Outcome State Fault Refusal :=
  .next (s.mapChip w fun c =>
    let c := c.put ⟨0x140, 0x804, 16 + i.val, 1, false⟩ (bit high)
    if c.psqDir = 1 ∧ c.psq.phase = 1 ∧ c.pgMissing ≠ 0 then c.setPhase 0 else c.psqCheck)

/-- PSQ_DELAY_EXPIRY (R515, R519): the state is satisfied; the PSQ steps, or releases SEQ_SYNC and waits for it. With no state left in its direction, at
TOP or in state 0, its sequence ends. -/
def execPsqDelayExpiry (w : Twin) (s : State) : Host.Outcome State Fault Refusal :=
  .next (s.mapChip w fun c =>
    if c.psq.phase ≠ 1 then c
    else
      let c := c.setPhase 2
      let last := (c.psqDir == 1 && decide (c.psqState ≥ c.seqTop)) || (c.psqDir == 3 && c.psqState == 0)
      if c.syncEn && !last then c else c.psqNext)

/-- PSQ_TIMEOUT (R518, R524): an up timeout, or on the way down a rail that stays high is logged and the DELAY runs. -/
def execPsqTimeout (w : Twin) (s : State) : Host.Outcome State Fault Refusal :=
  .next (s.mapChip w fun c =>
    if c.psq.phase ≠ 0 then c
    else if c.psqDir = 1 then c.upTimeout
    else if c.psqDir = 3 then
      let n := ((List.range 16).filter fun i => c.pgMissing.testBit i).length
      (((c.lastFault (Chip.lowestBit c.pgMissing) 3).cnt K.PSQ_DOWN_RAIL_FAILS n).raise F.PSQ_EV_DOWN_RAIL_FAIL).setPhase 1
    else c)

/-- SEQ_SYNC_COMMIT (R519): satisfied, with SEQ_SYNC high twice: the next state in the PSQ's direction. -/
def execSeqSyncCommit (w : Twin) (s : State) : Host.Outcome State Fault Refusal :=
  .next (s.mapChip w fun c => if c.syncEn && c.psq.phase == 2 && (c.psqDir == 1 || c.psqDir == 3) then c.psqNext else c)

/-- SYNC_TIMEOUT (R519): SYNC_STUCK; an up timeout on the way up, the next step alone on the way down. -/
def execSyncTimeout (w : Twin) (s : State) : Host.Outcome State Fault Refusal :=
  .next (s.mapChip w fun c =>
    if !(c.syncEn && c.psq.phase == 2 && (c.psqDir == 1 || c.psqDir == 3)) then c
    else
      let c := c.raise F.PSQ_EV_SYNC_STUCK
      if c.psqDir = 1 then c.upTimeout
      else ({ c with psq := { c.psq with alone := true } }.put F.PSQ_PSQ_SYNC_HELD 0).psqNext)

/-- SEQ_IN_FALL (R521): SEQ_IN is low; at top it is taken as PFAIL_N falling. -/
def execSeqInFall (w : Twin) (s : State) : Host.Outcome State Fault Refusal :=
  .next (s.mapChip w fun c =>
    let c := c.put F.PSQ_PSQ_SEQ_IN 0
    if c.psqDir = 2 && c.up then c.pfailFall else c)

/-- UP_SEQUENCE_START (R518, R525): PFAIL_N and SEQ_IN are high; from state 0 with the off time served the table in force is taken and
state 1 entered. After a fault, the fail-stop limit of R190 sets UP_HELD instead. -/
def execUpSequenceStart (w : Twin) (s : State) : Host.Outcome State Fault Refusal :=
  .next (s.mapChip w fun c =>
    if c.psqDir != 0 then c else
    let c := { c with svc := { c.svc with pfailLow := false } }.put F.PSQ_PSQ_SEQ_IN 1
    if !c.psq.offServed || c.is F.PSQ_PSQ_UP_HELD then c
    else if c.psq.afterFailstop && c.failHeld then c.put F.PSQ_PSQ_UP_HELD 1
    else
      let t := Chip.seqOffsets.foldl (fun t o => Table.set (resetWord 0x140) t o (c.applied.get resetKey (regKey 0x140 o))) []
      let c := { c with psq := { c.psq with table := t, afterFailstop := false, alone := false }, thm := { c.thm with trip := false } }
      (c.put F.PSQ_PSQ_DIR 1).enterUp 1)

/-- OFF_MIN_EXPIRY (R525): the off time in state 0 is served. -/
def execOffMinExpiry (w : Twin) (s : State) : Host.Outcome State Fault Refusal :=
  .next (s.mapChip w fun c => if c.psqDir = 0 then { c with psq := { c.psq with offServed := true } } else c)

/-- RAIL_FAULT (R523): a running rail's PG has stayed low for the filter time: the early warning, the fail-stop and LAST_FAULT, and the
down sequence after FAULT_SHUT_US; between the save commit and SEALED it is logged only (R399). -/
def execRailFault (w : Twin) (i : Fin 16) (s : State) : Host.Outcome State Fault Refusal :=
  .next (s.mapChip w fun c =>
    if (c.get F.PSQ_PG_IN >>> i.val) % 2 = 1 ∨ !c.railRuns i.val then c
    else if c.up && c.saveActive then (c.cnt K.PSQ_RAIL_FAULTS).raise F.PSQ_EV_RAIL_FAULT
    else
      let c := if c.up then (c.pulse 0x3C1).failStop false else c
      let c := ((c.lastFault i.val 1).cnt K.PSQ_RAIL_FAULTS).raise F.PSQ_EV_RAIL_FAULT
      { c with psq := { c.psq with faultWait := true, afterFailstop := true } }.clearMargins)

/-- FAULT_SHUT_EXPIRY (R522, R523): the down sequence after a fault or a trip starts. -/
def execFaultShutExpiry (w : Twin) (s : State) : Host.Outcome State Fault Refusal :=
  .next (s.mapChip w fun c => if c.psq.faultWait then c.startDown else c)

/-- STORE.COMMIT is written (R517). -/
def Chip.storeCommit (c : Chip) : Chip :=
  if c.psq.versionsUsed ≥ 4 then c.reject 0x140 0x09 0x190
  else
    let t := Chip.seqOffsets.foldl (fun t o => Table.set (resetWord 0x140) t o
      (if o = 0x100 then withBits (resetWord 0x140 0x100) 0 5 (bitsOf (c.rd 0x140 0x100) 0 5) else c.rd 0x140 o)) []
    let c := { c with psq := { c.psq with store := c.psq.store ++ [t], versionsUsed := c.psq.versionsUsed + 1 } }
    c.put F.PSQ_STORE_VERSIONS_LEFT (4 - c.psq.versionsUsed)

/-- STORE_COMMIT (R517): the page's table is blown into the next of four fuse versions; with none left, rejected with LOCKED. -/
def execStoreCommit (w : Twin) (rq : Requester) (s : State) : Host.Outcome State Fault Refusal :=
  .next (s.onUp w fun c => c.ifWrites rq 0x140 Chip.storeCommit)

/-- A write of MARGIN_k (R526). -/
def Chip.marginWrite (c : Chip) (k : Nat) (steps : BitVec 8) : Chip :=
  let nom := c.cfg (F.MAR_RAIL_NOM_MV k)
  if c.running 0x141 ∧ steps.toInt.natAbs * 100 > nom then c.reject 0x141 0x01 (0x120 + 4 * k)
  else if c.svcState = 3 ∨ c.svcState = 4 ∨ c.svcState = 5 then c.reject 0x141 0x0C (0x120 + 4 * k)
  else
    let same := c.cfg (F.MAR_MARGIN_OFFSET_MV k) = steps.toNat
    let c := c.putLive (F.MAR_MARGIN_OFFSET_MV k) steps.toNat
    if !c.running 0x141 ∨ same then c else c.sendMargin k

/-- MARGIN_WRITE (R526): an AVSBus rail moves by steps of 5 mV within 5% of its nominal, else RANGE; STATE during a save. -/
def execMarginWrite (w : Twin) (rq : Requester) (k : Fin 4) (steps : BitVec 8) (s : State) : Host.Outcome State Fault Refusal :=
  .next (s.onUp w fun c => c.ifWrites rq 0x141 fun c => c.marginWrite k.val steps)

/-! ## The commands: thermal, AVS, FCLK -/

/-- THROTTLE_STEP (R528): after 250 Rounds at or above THROTTLE_C the throttle goes one step slower, down to step 4; after 250 Rounds
at or below THROTTLE_C − HYST_C one step faster. -/
def execThrottleStep (w : Twin) (s : State) : Host.Outcome State Fault Refusal :=
  .next (s.onUp w fun c =>
    if c.thm.hotRun ≥ 250 then
      if c.thm.throttleStep ≥ 4 then { c with thm := { c.thm with hotRun := 0 } }
      else
        ({ c with thm := { c.thm with hotRun := 0, throttleStep := min 4 (max c.thm.throttleStep (c.cfg F.AVS_DVFS_CFG_CEIL) + 1) } }.raise
          F.THM_EV_THROTTLE).planStep
    else if c.thm.coolRun ≥ 250 ∧ c.thm.throttleStep > 0 then
      let n := c.thm.throttleStep - 1
      ({ c with thm := { c.thm with coolRun := 0, throttleStep := if n ≤ c.cfg F.AVS_DVFS_CFG_CEIL then 0 else n } }.raise F.THM_EV_THROTTLE).planStep
    else c)

/-- THERMAL_TRIP (R529, R399): TJ_HOT at TRIP_C in two Rounds: THERMTRIP_N low, TRIPPED, fail-stop, the down sequence after
FAULT_SHUT_US; a save in progress ends without a seal and the down sequence starts at once. -/
def execThermalTrip (w : Twin) (s : State) : Host.Outcome State Fault Refusal :=
  .next (s.onUp w fun c =>
    if c.thm.tripRun < 2 then c
    else
      let c := ({ c with thm := { c.thm with trip := true } }.put F.THM_TRIPPED 1).clearMargins
      if c.saveActive then c.saveFail.startDown
      else
        let c := c.failStop false
        { c with psq := { c.psq with faultWait := true, afterFailstop := true } })

/-- AVS_PERIOD (R531, R532): the loop reads CPM_MIN; below CPM_LO it raises the target by 10 mV at once, above CPM_HI it lowers it by 5 mV
at the next period. A loop held by a failed write writes its last good target again (DESIGN CHOICE). -/
def execAvsPeriod (w : Twin) (cpm : BitVec 8) (s : State) : Host.Outcome State Fault Refusal :=
  .next (s.onUp w fun c =>
    let c := c.put F.AVS_CPM_MIN cpm.toNat
    if c.thm.held && c.cfgOn F.AVS_AVS_CFG_EN then c.setVdd (c.get F.AVS_VDD_TARGET_MV)
    else if !c.avsOn then c
    else
      let c := if c.thm.lowerDue then
          ({ c with thm := { c.thm with lowerDue := false } }.setVdd (c.get F.AVS_VDD_TARGET_MV - 5)).cnt K.AVS_VOLT_LOWERS
        else c
      if cpm.toInt < (c.cfg F.AVS_AVS_CFG_CPM_LO : Int) then (c.setVdd (c.get F.AVS_VDD_TARGET_MV + 10)).cnt K.AVS_VOLT_RAISES
      else if cpm.toInt > (c.cfg F.AVS_AVS_CFG_CPM_HI : Int) then { c with thm := { c.thm with lowerDue := true } }
      else c)

/-- CPM_ALARM (R532): CPM_MIN of zero or less raises the alarm, and the loop, where it acts, raises the target by 25 mV at once. -/
def execCpmAlarm (w : Twin) (cpm : BitVec 8) (s : State) : Host.Outcome State Fault Refusal :=
  .next (s.onUp w fun c =>
    if cpm.toInt > 0 then c
    else
      let c := (c.put F.AVS_CPM_MIN cpm.toNat).raise F.AVS_EV_CPM_ALARM
      if c.avsOn then (c.setVdd (c.get F.AVS_VDD_TARGET_MV + 25)).cnt K.AVS_VOLT_RAISES else c)

/-- AVSBUS_FRAME_DONE (R531, R533): an answer is taken; a bad frame is sent again up to three times and then given up with AVS_FAULT,
which on rail 0 holds the loop at its last good target. -/
def execAvsbusFrameDone (w : Twin) (x : AvsReply) (s : State) : Host.Outcome State Fault Refusal :=
  .next (s.onUp w fun c =>
    match c.thm.frames with
    | [] => c
    | f :: r =>
      match x with
      | .answer data reached =>
        let c := { c with thm := { c.thm with frames := r } }
        let c := match f.kind with
          | 0 => if f.rail = 0 then c.targetTaken else c
          | 1 => c.put (F.MAR_RAIL_IOUT_100MA f.rail) data.toNat
          | 3 => c.put (F.MAR_RAIL_VOUT_MV f.rail) data.toNat
          | _ => c
        let written := c.thm.frames.all fun (y : AvsFrame) => y.rail != 0 || y.kind != 0
        if f.rail = 0 && reached && c.thm.stepDue.isSome && written then { c with thm := { c.thm with raiseReady := true } } else c
      | .bad =>
        if f.tries < 3 then
          { c with thm := { c.thm with frames := { f with tries := f.tries + 1 } :: r } }.cnt K.AVS_AVSBUS_RETRIES
        else
          let c := { c with thm := { c.thm with frames := r } }.raise F.AVS_EV_AVS_FAULT
          if f.rail = 0 ∧ f.kind = 0 then c.targetFailed else c)

/-- AVS_TELEMETRY_POLL (R531): current, voltage and temperature of every present rail are read. -/
def execAvsTelemetryPoll (w : Twin) (s : State) : Host.Outcome State Fault Refusal :=
  .next (s.onUp w fun c =>
    (List.range 4).foldl (fun c k =>
      if c.cfg (F.MAR_RAIL_PRESENT k) = 1 then ((c.avsSend k 1 0).avsSend k 3 0).avsSend k 2 0 else c) c)

/-- FCLK_STEP_CHANGE (R533): at a Round guard the step becomes the wanted one; a faster step waits until the voltage is reached. -/
def execFclkStepChange (w : Twin) (s : State) : Host.Outcome State Fault Refusal :=
  .next (s.onUp w fun c =>
    let now := c.get F.AVS_FCLK_STEP
    if c.wantStep = now then c
    else if c.wantStep < now ∧ !c.thm.raiseReady then c
    else
      let c := { c with thm := { c.thm with stepDue := none, raiseReady := false } }
      ((c.put F.AVS_FCLK_STEP c.wantStep).cnt K.AVS_FREQ_CHANGES).raise F.AVS_EV_FREQ_CHANGE)

/-! ## The commands: management interface -/

/-- SMB_BLOCK_WRITE (R536, R540): a packet arrives; without PEC it is discarded where PEC_REQ is 1, with a bad PEC it is NACKed and
counted. -/
def execSmbBlockWrite (w : Twin) (bytes : List Byte) (pec : Option Bool) (s : State) : Host.Outcome State Fault Refusal :=
  .next (s.onUp w fun c =>
    if !c.acking then c
    else match pec with
      | none => if c.cfg F.MTI_MTI_CFG_PEC_REQ = 1 then c
                else { c with mti := { c.mti with rx := c.mti.rx ++ [bytes] } }.cnt K.MTI_PACKETS_RX
      | some true => { c with mti := { c.mti with rx := c.mti.rx ++ [bytes] } }.cnt K.MTI_PACKETS_RX
      | some false => (c.cnt K.MTI_PEC_ERRORS).raise F.MTI_EV_PEC_ERROR)

/-- SMB_BLOCK_READ (R536, R539, R540): the oldest waiting packet is read and removed; a read cut short leaves it, with SDA driven. -/
def execSmbBlockRead (w : Twin) (whole : Bool) (s : State) : Host.Outcome State Fault Refusal :=
  .next (s.onUp w fun c =>
    match c.acking, c.mti.tx with
    | true, p :: r =>
      if whole then ({ c with mti := { c.mti with tx := r, last := p, bus := 0 } }.cnt K.MTI_PACKETS_TX).showQueue
      else { c with mti := { c.mti with bus := 2, holdSda := true } }
    | _, _ => c)

/-- SMB_READ_BYTE_STATUS (R536): bit 0 packet waiting, bit 1 endpoint ready, bit 2 chip B. -/
def execSmbReadByteStatus (w : Twin) (s : State) : Host.Outcome State Fault Refusal :=
  .next (s.onUp w fun c =>
    if !c.acking then c
    else { c with mti := { c.mti with
      last := [BitVec.ofNat 8 (bit (!c.mti.tx.isEmpty) + 2 * bit c.twe.endpointUp + 4 * c.rst.twinId)] } })

/-- ALERT_RESPONSE_ADDRESS (R536): this target's address, while it asserts SMB_ALERT_N. -/
def execAlertResponseAddress (w : Twin) (s : State) : Host.Outcome State Fault Refusal :=
  .next (s.onUp w fun c =>
    if c.acking && c.is F.MTI_ALERT then
      { c with mti := { c.mti with last := [BitVec.ofNat 8 (2 * (0x58 + c.rst.smbAddr))] } }
    else c)

/-- SMB_START_STOP (R539): the transaction ends; where the MTI was driving SDA, the controller has recovered the bus. -/
def execSmbStartStop (w : Twin) (s : State) : Host.Outcome State Fault Refusal :=
  .next (s.onUp w fun c =>
    let held := c.mti.holdSda
    let c := { c with mti := { c.mti with bus := 0, holdSda := false } }
    if held then c.cnt K.MTI_RECOVERIES else c)

/-- SMB_CLOCK_LOW_TIMEOUT (R538): both lines are released and the event counted. -/
def execSmbClockLowTimeout (w : Twin) (s : State) : Host.Outcome State Fault Refusal :=
  .next (s.onUp w fun c =>
    ({ c with mti := { c.mti with bus := 0, holdSda := false } }.cnt K.MTI_CLK_LOW_TOS).raise F.MTI_EV_CLK_LOW_TO)

/-- SMB_DATA_LOW_TIMEOUT (R538): SDA, held low by the MTI itself, is released. -/
def execSmbDataLowTimeout (w : Twin) (s : State) : Host.Outcome State Fault Refusal :=
  .next (s.onUp w fun c =>
    if !c.mti.holdSda then c
    else ({ c with mti := { c.mti with bus := 0, holdSda := false } }.cnt K.MTI_DATA_LOW_TOS).raise F.MTI_EV_DATA_LOW_TO)

/-- MCTP_CONTROL (R540): the endpoint answers the control message; the answer waits in its queue. -/
def execMctpControl (w : Twin) (command : Byte) (s : State) : Host.Outcome State Fault Refusal :=
  .next (s.onUp w fun c => if !c.acking then c else c.mctpSend [0x00, command])

end Sys2Proof.Machine
end

