-- ==== Sys2Proof/Machine/Operands.lean ====
section
/-! DEFINITION. The operand forms of the page commands: which accesses a page takes (R45), what reads as all-ones (R43), and the Showick page
messages (R541). -/
namespace Sys2Proof.Machine

/-- A page write as 4 B writes: one of 8 B is two, lower address first (R45). -/
def PageWrite.words (x : PageWrite) : List PageWrite :=
  if x.size = 8 then
    [{ x with size := 4, data := (x.data.setWidth 32).setWidth 64 },
     { x with off := x.off + 4, size := 4, data := x.data >>> 32 }]
  else [x]

/-- Whether an access has a form that a page takes (R45): 4 B or 8 B, naturally aligned, within the page. -/
def goodAccess (off size : Nat) : Bool := (size == 4 || size == 8) && off % size == 0 && decide (off + size ≤ 4096)

/-- What reads as all-ones in an access of a size (R43, R45). -/
def onesOf (size : Nat) : BitVec 64 := if size = 4 then 0xFFFFFFFF else BitVec.allOnes 64

/-- The chip that a page message names: A, B, or the local chip for the pair alias. -/
def PageMessage.target (x : PageMessage) (w : Twin) : Twin := if x.chip = 0 then .A else if x.chip = 1 then .B else w

/-- Whether a page message is well formed: its reserved bytes 0, its chip one of three. -/
def PageMessage.ok (x : PageMessage) : Bool := x.reserved1 == 0 && x.reserved7 == 0 && decide (x.chip.toNat ≤ 2)

end Sys2Proof.Machine
end

