-- ==== Sys2Proof/Machine/Dram.lean ====
section
/-! DEFINITION. The DRAM controller of one chip: address maps, refresh, training, self-refresh, retrain and PPR, and Cobbler's draws for
DRAM (R410 to R437, R442, R449, R460 to R463). -/
namespace Sys2Proof.Machine

/-- A place in DRAM: channel, rank, bank group, bank, row, column (R415). -/
structure DramPlace where
  ch : Nat
  rank : Nat
  bg : Nat
  ba : Nat
  row : Nat
  col : Nat
  deriving DecidableEq, Repr

/-- The bits `lo + n - 1 : lo` of a number. -/
def cut (x lo n : Nat) : Nat := (x >>> lo) % 2 ^ n

/-- The decomposition of R415 for a map, the number of rank bits and a chip-local DRAM byte address. -/
def dramPlace (map rbits x : Nat) : DramPlace :=
  let q := x >>> 7
  let ch := (q % 16) ^^^ ((q >>> 16) % 16) ^^^ ((q >>> 28) % 16)
  let qc := q >>> 4
  match map with
  | 0 =>
    let row := qc >>> (12 + rbits)
    ⟨ch, cut qc 12 rbits, cut qc 2 3 ^^^ row % 8, cut qc 10 2 ^^^ cut row 3 2, row, cut qc 0 2 + 4 * cut qc 5 5⟩
  | 1 => ⟨ch, cut qc 12 rbits, cut qc 7 3, cut qc 10 2, qc >>> (12 + rbits), cut qc 0 7⟩
  | 2 =>
    let row := qc >>> (12 + rbits)
    ⟨ch, cut qc 12 rbits, cut qc 0 3 ^^^ row % 8, cut qc 3 2 ^^^ cut row 3 2, row, cut qc 5 7⟩
  | _ => ⟨ch, cut qc 7 rbits, cut qc (9 + rbits) 3, cut qc (7 + rbits) 2, qc >>> (12 + rbits), cut qc 0 7⟩

/-- LOCATION in DRAM form (R454). -/
def DramPlace.location (p : DramPlace) (device : Nat) : Nat :=
  p.ch + 2 ^ 4 * p.rank + 2 ^ 8 * p.bg + 2 ^ 11 * p.ba + 2 ^ 13 * p.row + 2 ^ 31 * device + 2 ^ 36 * p.col

/-- A row of a rank as one number. -/
def DramPlace.rowKey (p : DramPlace) : Nat := p.row * 2 ^ 9 + p.bg * 2 ^ 6 + p.ba * 2 ^ 4 + p.rank

/-- The bank of a place as one number. -/
def DramPlace.bankKey (p : DramPlace) : Nat := p.rank * 32 + p.bg * 4 + p.ba

/-- The clients of a channel's regulators (R430). -/
inductive Client where
  | hostRd | wmb | save | twin | core | mig | media | scrub
  deriving DecidableEq, Repr

/-- The number of a client (R430). -/
def Client.no : Client → Nat
  | .hostRd => 0
  | .wmb => 1
  | .save => 2
  | .twin => 3
  | .core => 4
  | .mig => 5
  | .media => 6
  | .scrub => 7

/-- The order of the clients at a channel (R433), behind the repair reads of the peer. -/
def clientOrder : List Client := [.save, .hostRd, .wmb, .twin, .core, .mig, .media, .scrub]

/-- The devices that a mask names. -/
def devicesOf (bad : BitVec 20) : List Nat := (List.range 20).filter fun n => bad.getLsbD n

namespace Chip

/-- A DRAM channel. -/
def chan (c : Chip) (d : Nat) : Chan := c.chans.get (fun _ => {}) d

/-- The chip with a channel changed. -/
def mapChan (c : Chip) (d : Nat) (f : Chan → Chan) : Chip :=
  { c with chans := c.chans.set (fun _ => {}) d (f (c.chan d)) }

/-- The pages of a channel (R49): channel, refresh, training, regulator. -/
def dmcPage (d s : Nat) : Nat := 0x300 + 4 * d + s

/-- The logical ranks of a channel (R438). -/
def rankCount (c : Chip) (d : Nat) : Nat := c.get (F.DCH_DIMM_COUNT d) * c.get (F.DCH_DIMM_RANKS d)

/-- Whether a rank is populated, trained and not retired. -/
def rankServes (c : Chip) (d r : Nat) : Bool :=
  decide (r < c.rankCount d) && !c.cbl.retiredRanks.contains (d, r) && c.get (F.DTR_TRAIN_RESULT d r) == 1

/-- The address map of the chip (R416: one for every running channel). -/
def dramMap (c : Chip) : Nat := c.cfg (F.DCH_CH_CFG_MAP 0)

/-- The place of a chip-local DRAM address. -/
def place (c : Chip) (x : Nat) : DramPlace := dramPlace c.dramMap (Nat.log2 (max 1 (c.rankCount 0))) x

/-! ## The line code (R413) -/

/-- The device that DEV_ERASE names for a rank. -/
def erasedDevice (c : Chip) (p : DramPlace) : Option Nat :=
  if c.cfgOn (F.DCH_DEV_ERASE_VALID p.ch p.rank) then some (c.cfg (F.DCH_DEV_ERASE_DEV p.ch p.rank)) else none

/-- The devices in error that are no erasure. -/
def wrongDevices (c : Chip) (p : DramPlace) (bad : BitVec 20) : List Nat := (devicesOf bad).filter fun n => c.erasedDevice p != some n

/-- What the decoder makes of a line whose errors lie in some devices (R413): those of an erased device and of one more are corrected, those of two
more detected, those of three or more detected or miscorrected; in that last case, the line that it returns. -/
def decode (c : Chip) (x : Nat) (bad : BitVec 20) : ReadOutcome × Option Line :=
  let n := (c.wrongDevices (c.place x) bad).length
  if n ≤ 1 then (if bad = 0 then .good else .corrected, none)
  else if n = 2 then (.uncorrectable, none)
  else match Config.miscorrected x c.round bad with
    | some l => (.corrected, some l)
    | none => (.uncorrectable, none)

/-! ## Client regulators (R430 to R433) -/

/-- The RATE of a client in force: 0, unregulated, from the hold of a save until the SVC state leaves SAVING (R433). -/
def regRate (c : Chip) (d : Nat) (k : Client) : Nat := if c.svcState = 4 then 0 else c.cfg (F.DRG_REG_RATE d k.no)

/-- The tokens of a client. -/
def tokens (c : Chip) (d : Nat) (k : Client) : Nat := (c.chan d).tokens.get (fun _ => 0) k.no

/-- The chip with a client's tokens replaced. -/
def setTokens (c : Chip) (d : Nat) (k : Client) (n : Nat) : Chip :=
  c.mapChan d fun x => { x with tokens := x.tokens.set (fun _ => 0) k.no n }

/-- How many tokens a client's bucket holds at most. -/
def bucketDepth (c : Chip) (d : Nat) (k : Client) : Nat := c.cfg (F.DRG_REG_RATE d k.no) * c.cfg (F.DRG_REG_DEPTH d k.no)

/-- A client's bucket is full: at a new RATE, and as the channel begins to run (R432). -/
def fillTokens (c : Chip) (d : Nat) (k : Client) : Chip := c.setTokens d k (c.bucketDepth d k)

/-- Whether a client holds the tokens that an access takes, or is unregulated. -/
def holdsTokens (c : Chip) (d : Nat) (k : Client) (n : Nat) : Bool := c.regRate d k == 0 || decide (c.tokens d k ≥ n)

/-- An access of a client issues: its lines are counted and its tokens taken; without them it has borrowed its slot (R431, R432). -/
def issueAccess (c : Chip) (d : Nat) (k : Client) (n line : Nat) : Chip :=
  let c := (c.cnt (K.DRG_LINES d k.no) n).mapChan d fun x => { x with waiting := x.waiting.filter fun y => y != (k.no, line) }
  if c.regRate d k = 0 then c
  else if c.tokens d k ≥ n then c.setTokens d k (c.tokens d k - n)
  else c.cnt (K.DRG_BORROWED d k.no)

/-- A request of a client begins to wait for tokens (R432, R441): once for each request. -/
def waitTokens (c : Chip) (d : Nat) (k : Client) (line : Nat) : Chip :=
  if (c.chan d).waiting.contains (k.no, line) then c
  else ((c.mapChan d fun x => { x with waiting := x.waiting ++ [(k.no, line)] }).cnt (K.DRG_WAITS d k.no)).raise (F.DRG_EV_CLIENT_WAIT d)

/-- The channels that a block of DRAM spans, with its lines on each: two to a pair; a block of 2 KiB or more lies on all of them alike. -/
def blockChannels (c : Chip) (x bytes : Nat) : List (Nat × Nat) :=
  if bytes ≥ 2048 then (List.range 16).map fun d => (d, (bytes + 2047) / 2048 * 2)
  else (List.range ((bytes + 127) / 128)).map fun i => ((c.place (x + 128 * i)).ch, 2)

/-- So many lines of a client's accesses to a channel are left to issue. -/
def leaveOwed (c : Chip) (d : Nat) (k : Client) (m : Nat) : Chip :=
  c.mapChan d fun y => { y with owed := y.owed.set (fun _ => 0) k.no m }

/-- A client accesses some lines of a channel: they issue in the course of the Rounds, as its tokens allow (R432). -/
def oweLines (c : Chip) (k : Client) (d n : Nat) : Chip :=
  c.leaveOwed d k ((c.chan d).owed.get (fun _ => 0) k.no + n)

/-- A client accesses a block of DRAM. -/
def oweBlock (c : Chip) (k : Client) (x bytes : Nat) : Chip := (c.blockChannels x bytes).foldl (fun c y => c.oweLines k y.1 y.2) c

/-- Whether accesses of a client wait for tokens on some channel: it begins no more work until they have issued. -/
def clientWaits (c : Chip) (k : Client) : Bool := c.chans.any fun x => decide (x.2.owed.get (fun _ => 0) k.no > 0)

/-- The lines that a client's waiting accesses move in a Round: all where it is unregulated, else by its tokens, a pair at a time; those beyond
them borrow where BORROW is 1 and no host read is ready (`busy`), or wait (R432). -/
def settleClient (c : Chip) (d : Nat) (k : Client) (busy : Bool) : Chip :=
  let n := (c.chan d).owed.get (fun _ => 0) k.no
  let t := c.tokens d k / 2 * 2
  if n = 0 then c
  else if c.regRate d k = 0 then (c.cnt (K.DRG_LINES d k.no) n).leaveOwed d k 0
  else if n ≤ t then ((c.setTokens d k (c.tokens d k - n)).cnt (K.DRG_LINES d k.no) n).leaveOwed d k 0
  else if c.cfgOn (F.DRG_REG_BORROW d k.no) && !busy then
    (((c.setTokens d k (c.tokens d k - t)).cnt (K.DRG_LINES d k.no) n).cnt (K.DRG_BORROWED d k.no) ((n - t) / 2)).leaveOwed d k 0
  else
    ((((c.setTokens d k (c.tokens d k - t)).cnt (K.DRG_LINES d k.no) t).cnt (K.DRG_WAITS d k.no) ((n - t) / 2)).raise
      (F.DRG_EV_CLIENT_WAIT d)).leaveOwed d k (n - t)

/-- A bucket gains some Rounds' tokens (R34, R432). -/
def refillTokens (c : Chip) (times d : Nat) (k : Client) : Chip :=
  let n := min (c.bucketDepth d k) (c.tokens d k + times * c.cfg (F.DRG_REG_RATE d k.no))
  if n = c.tokens d k then c else c.setTokens d k n

/-- The QoS refill job at the channels that run (R432). -/
def refillChannels (c : Chip) (times : Nat) : Chip :=
  ((List.range 16).filter fun d => c.running (dmcPage d 0)).foldl (fun c d => clientOrder.foldl (fun c k => c.refillTokens times d k) c) c

/-! ## Refresh -/

/-- The debt of a rank and bank index, two's complement in four bits (R420, R439). -/
def debt (c : Chip) (d r k : Nat) : Int :=
  let v := cut (c.get (F.DRF_REF_DEBT d r)) (4 * k) 4
  if v < 8 then (v : Int) else (v : Int) - 16

/-- The chip with a debt replaced, within what its four bits hold. -/
def setDebt (c : Chip) (d r k : Nat) (v : Int) : Chip :=
  let v := max (-8) (min 7 v)
  let w := c.rd (dmcPage d 1) (0x800 + 4 * r)
  c.wr (dmcPage d 1) (0x800 + 4 * r) (withBits w (4 * k) 4 (v % 16).toNat)

/-- The open rows of the banks that meet a condition are closed. -/
def closeRows (c : Chip) (d : Nat) (p : Nat → Bool) : Chip :=
  c.mapChan d fun x => { x with rows := x.rows.clear p }

/-- Whether a request to a place can be served now: its channel neither in nor on its way into or out of self-refresh, its rank in service, its bank
under no refresh (R422, R426, R429). -/
def canServe (c : Chip) (p : DramPlace) : Bool :=
  c.pwr p.ch == 0 && (c.chan p.ch).out != some p.rank &&
    !((c.chan p.ch).refreshing.any fun y => y.1 == p.rank && (y.2 == 4 || y.2 == p.ba))

/-- Whether the row of a place is open. -/
def rowOpen (c : Chip) (p : DramPlace) : Bool := (c.chan p.ch).rows.get (fun _ => none) p.bankKey == some p.row

/-- REFab on a rank, until every debt is below POSTPONE (R421). -/
def refabFallback (c : Chip) (d r : Nat) : Nat → Chip
  | 0 => c
  | n + 1 =>
    if (List.range 4).any fun k => decide (c.debt d r k ≥ (c.cfg (F.DRF_REF_CFG_POSTPONE d) : Int)) then
      let c := (List.range 4).foldl (fun c k => c.setDebt d r k (c.debt d r k - 1)) c
      let c := (c.closeRows d fun b => b / 32 == r).mapChan d fun x => { x with refreshing := (r, 4) :: x.refreshing }
      let c := ((c.cnt (K.DRF_REFAB_ISSUED d)).cnt (K.DRF_REFAB_FALLBACKS d)).raise (F.DRF_EV_REFAB_FALLBACK d)
      c.refabFallback d r n
    else c

/-- The ranks out of service on any channel of the chip (R426). -/
def ranksOut (c : Chip) : List Nat := (List.range 16).filter fun d => (c.chan d).out.isSome

/-- SRE: the channel is in self-refresh, its debts paid (R428). -/
def enterSelfRefresh (c : Chip) (d : Nat) : Chip :=
  let c := (List.range 16).foldl (fun c r => (List.range 4).foldl (fun c k => c.setDebt d r k 0) c) c
  ((c.put (F.DCH_CH_PWR d) 2).cnt (K.DRF_SR_ENTRIES d)).raise (F.DRF_EV_SR_ENTERED d)

/-! ## Ranks and rows leave service -/

/-- ERASED_RANKS and RETIRED_RANKS follow (R476). -/
def showRanks (c : Chip) (d : Nat) : Chip :=
  let m (p : Nat → Bool) : Nat := (List.range 16).foldl (fun a r => a + if p r then 2 ^ r else 0) 0
  (c.put (F.CBD_ERASED_RANKS d) (m fun r => c.is (F.DCH_DEV_ERASE_VALID d r))).put (F.CBD_RETIRED_RANKS d)
    (m fun r => c.cbl.retiredRanks.contains (d, r))

/-- A rank is retired: recorded in the Ledger and the Dead-Letter Log (R427, R462). -/
def retireRankNow (c : Chip) (d r : Nat) : Chip :=
  let c := { c with cbl := { c.cbl with
    retiredRanks := (d, r) :: c.cbl.retiredRanks
    rankPending := c.cbl.rankPending.filter (· != (d, r)) } }
  (c.dlo 0x12 4 5 0 0 (d + 16 * r + 2 ^ 31 * 31)).showRanks d

/-- A rank leaves service for a retrain, PPR or its retirement, its rows closed (R417, R426, R462). -/
def rankOut (c : Chip) (d r : Nat) : Chip := (c.mapChan d fun x => { x with out := some r }).closeRows d fun b => b / 32 == r

/-- Cobbler retires a rank in service (R462): blocked under MAP_D, pending until MIRRORED and until no other rank of the chip is out of service. It is
served as a rank out of service until the extents in its frames have moved. -/
def retireRank (c : Chip) (d r : Nat) : Chip :=
  if c.cbl.retiredRanks.contains (d, r) then c
  else if c.dramMap = 3 then c.raise F.CBL_EV_RANK_RETIRE_BLOCKED
  else if !c.mirrored || !c.ranksOut.isEmpty then
    { c with cbl := { c.cbl with rankPending := (d, r) :: c.cbl.rankPending.filter (· != (d, r)) } }.raise F.CBL_EV_RANK_RETIRE_PENDING
  else ((c.retireRankNow d r).put (F.DTR_TRAIN_RESULT d r) 4).rankOut d r

/-- Whether a PPR may start now (R426, R436). -/
def pprMay (c : Chip) : Bool :=
  (c.mirrored || !c.memActive) && c.ranksOut.isEmpty && (List.range 16).all fun d => c.get (F.DRF_PPR_STATUS_STATE d) == 0

/-- PPR of a row starts copying (R436). -/
def pprStart (c : Chip) (d rank bg ba row : Nat) (hard auto : Bool) : Chip :=
  let c := (c.meetChannel d).mapChan d fun x => { x with pprFrom := some (rank, bg, ba, row), pprHard := hard, pprAuto := auto }
  (c.put (F.DRF_PPR_STATUS_STATE d) 1).put (F.DRF_PPR_STATUS_ERR d) 0

/-- Cobbler asks for PPR of a row (R460, R461): at once where it may start, else it waits for a window end. An sPPR row that needs repair
again is repaired by hPPR. -/
def wantPpr (c : Chip) (d key : Nat) (hard : Bool) : Chip :=
  let hard := hard || c.cbl.spprRows.contains (d, key)
  if c.pprMay then c.pprStart d (key % 16) (cut key 6 3) (cut key 4 2) (key >>> 9) hard true
  else if c.cbl.pprWait.any fun x => x.1 == d && x.2.1 == key then c
  else { c with cbl := { c.cbl with pprWait := c.cbl.pprWait ++ [(d, key, hard)] } }

/-- A corrected error of a device: it counts against the device, and its row for the window of Cobbler (R435, R460). -/
def correctedDevice (c : Chip) (p : DramPlace) (device : Nat) : Chip :=
  let c := c.put (F.DCH_DEV_CE p.ch device) (min 65535 (c.get (F.DCH_DEV_CE p.ch device) + 1))
  c.mapChan p.ch fun y =>
    let k := p.rank * 32 + device
    let l := y.devRows.get (fun _ => []) k
    { y with devRows := y.devRows.set (fun _ => []) k (if l.contains p.rowKey then l else p.rowKey :: l) }

/-- A corrected line (R435): counted, and against its device; the first of a row in a Delivery is logged, with ADDRESS `addr`; an erased device only
counts there. The pair is written back for the SCRUB client where CE_WRITEBACK or the patrol asks for it (R448) and no write to it is `queued`. -/
def correctedLine (c : Chip) (x addr : Nat) (bad : BitVec 20) (patrol queued : Bool) : Chip :=
  let p := c.place x
  let d := p.ch
  let wrong := c.wrongDevices p bad
  let c := if wrong.length < (devicesOf bad).length then c.cnt (K.DCH_ERASURE_CORRECTIONS d) else c
  if wrong.isEmpty then c
  else
    let c := (c.cnt (K.DCH_CE d)).raise (F.DCH_EV_CORRECTED d)
    let c := match wrong with
      | [n] => c.correctedDevice p n
      | _ => c
    let seen := (c.chan d).loggedRows.contains (p.rowKey, 0)
    let c := if seen then c else
      (c.mapChan d fun y => { y with loggedRows := (p.rowKey, 0) :: y.loggedRows }).dlo (if patrol then 0x02 else 0x01) 0 0 0 addr
        (p.location (match wrong with | [n] => n | _ => 31))
    let c := c.mapChan d fun y => { y with rowCe := y.rowCe.set (fun _ => 0) p.rowKey (y.rowCe.get (fun _ => 0) p.rowKey + 1) }
    if (patrol || c.cfgOn (F.DCH_CH_CFG2_CE_WRITEBACK d)) && !queued then (c.cnt (K.DCH_CE_WRITEBACKS d)).oweLines .scrub d 2 else c

/-- An uncorrectable line (R434, R460): counted, and its row wants hPPR at once. -/
def uncorrectableLine (c : Chip) (x : Nat) : Chip :=
  let p := c.place x
  let c := (c.cnt (K.DCH_UE p.ch)).raise (F.DCH_EV_UNCORRECTABLE p.ch)
  c.wantPpr p.ch p.rowKey true

/-- A bank is activated (R423): where the DIMM requires refresh management and the bank has reached its threshold, RFMsb is issued to its bank index,
whose banks it blocks as a REFsb does; no refresh debt changes. -/
def activated (c : Chip) (p : DramPlace) : Chip :=
  let limit := (c.chan p.ch).training.rfm.toNat
  let n := (c.chan p.ch).acts.get (fun _ => 0) p.bankKey + 1
  if limit = 0 then c
  else if n < limit then c.mapChan p.ch fun y => { y with acts := y.acts.set (fun _ => 0) p.bankKey n }
  else
    let mine (b : Nat) : Bool := b / 32 == p.rank && b % 4 == p.ba
    ((c.closeRows p.ch mine).mapChan p.ch fun y => { y with
      acts := y.acts.clear mine
      refreshing := (p.rank, p.ba) :: y.refreshing }).cnt (K.DRF_RFM_ISSUED p.ch)

/-- The row of an address is opened ahead of a read (R121). -/
def openEarly (c : Chip) (x : Nat) : Chip :=
  let p := c.place x
  if c.rowOpen p then c
  else (c.mapChan p.ch fun y => { y with rows := y.rows.set (fun _ => none) p.bankKey (some p.row) }).activated p

/-- The counter of a bank under PREDICT as an access finds it (R417): one more than before for the row of the last access, one less for another. -/
def predicted (c : Chip) (p : DramPlace) : Nat :=
  let y := c.chan p.ch
  let n := y.predict.get (fun _ => 2) p.bankKey
  let last := y.lastRow.get (fun _ => 0) p.bankKey
  if last = 0 then n else if last = p.row + 1 then min 3 (n + 1) else n - 1

/-- A pair access of a client: its row is opened or kept (R417). -/
def accessRow (c : Chip) (x : Nat) (write : Bool) : Chip :=
  let p := c.place x
  let b := p.bankKey
  let hit := c.rowOpen p
  let closes := ((c.chan p.ch).rows.get (fun _ => none) b).isSome && !hit
  let predict := c.cfg (F.DCH_CH_CFG_PAGE_POLICY p.ch) == 1
  let n := c.predicted p
  let auto := predict && decide (n < 2)
  let c := c.cnt (if write then K.DCH_PAIR_WRITES p.ch else K.DCH_PAIR_READS p.ch)
  let c := if hit then c.cnt (K.DCH_ROW_HITS p.ch) else if closes then c.cnt (K.DCH_ROW_CONFLICTS p.ch) else c
  let c := if auto then c.cnt (K.DCH_AUTO_PRECHARGES p.ch) else c
  let c := c.mapChan p.ch fun y =>
    { y with
      rows := y.rows.set (fun _ => none) b (if auto then none else some p.row)
      lastRow := y.lastRow.set (fun _ => 0) b (p.row + 1)
      predict := if predict then y.predict.set (fun _ => 2) b n else y.predict }
  if hit then c else c.activated p

/-- The policy of a channel changes: the counters return to 2 (R417). -/
def policyChanged (c : Chip) (d : Nat) : Chip := c.mapChan d fun y => { y with predict := [] }

/-- The pairs that the patrol left out on a channel are read once it serves again (R449). -/
def readBacklog (c : Chip) (d : Nat) : Chip :=
  let n := (c.chan d).backlog
  if n = 0 then c else ((c.mapChan d fun x => { x with backlog := 0 }).cnt K.PAT_PAIRS_READ n).oweLines .scrub d (2 * n)

/-- The Ledger's entries of a channel whose DIMM has been replaced are cleared (R465). -/
def newDimm (c : Chip) (d : Nat) (t : ChannelTraining) : Chip :=
  let old := c.cbl.dimmSerials.get (fun _ => (0, 0)) d
  let gone (r : Nat) : Bool := if r < t.ranks.val then old.1 != t.serialA else old.2 != t.serialB
  let c := { c with cbl := { c.cbl with dimmSerials := c.cbl.dimmSerials.set (fun _ => (0, 0)) d (t.serialA, t.serialB) } }
  if old = (0, 0) then c
  else
    let keep (x : Nat × Nat) : Bool := x.1 != d || !gone (x.2 % 16)
    { c with cbl := { c.cbl with
      retiredRanks := c.cbl.retiredRanks.filter keep
      rankPending := c.cbl.rankPending.filter keep
      spprRows := c.cbl.spprRows.filter keep
      hpprRows := c.cbl.hpprRows.filter keep
      pprWait := c.cbl.pprWait.filter fun x => keep (x.1, x.2.1) } }

/-- One channel as trained (R424, R427): DIMM data, results per rank; a failing rank is retired where the map and the other ranks
allow it. The answer says whether the channel must be refused. -/
def trainChannel (c : Chip) (d : Nat) (t : ChannelTraining) : Chip × Bool :=
  let n := t.dimms.val * t.ranks.val
  let c := c.newDimm d t
  let c := (((c.put (F.DCH_DIMM_COUNT d) t.dimms.val).put (F.DCH_DIMM_RANKS d) t.ranks.val).put
    (F.DCH_DIMM_DENSITY d) t.density.val).put (F.DCH_DIMM_GIB d) t.gib.val
  let retired (r : Nat) : Bool := c.cbl.retiredRanks.contains (d, r)
  let fails := (List.range n).filter fun r => t.failed.getLsbD r && !retired r
  let good := (List.range n).filter fun r => !t.failed.getLsbD r && !retired r
  let refuse := !fails.isEmpty && (c.cfg (F.DCH_CH_CFG_MAP d) == 3 || good.isEmpty)
  let c := (List.range 16).foldl (fun c r =>
    let res := if r ≥ n then 3 else if retired r then 4 else if t.failed.getLsbD r then 2 else 1
    ((((c.put (F.DTR_TRAIN_RESULT d r) res).put (F.DTR_TRAIN_STEP d r) (if res = 2 then t.step.val else 0)).put
      (F.DTR_TRAIN_RD_EYE d r) t.rdEye.toNat).put (F.DTR_TRAIN_WR_EYE d r) t.wrEye.toNat)) c
  let c := c.put (F.DCH_TRAIN_FAIL_RANKS d) (fails.foldl (fun a r => a + 2 ^ r) 0)
  let c := c.mapChan d fun y => { y with trained := true, training := t, pprUsed := [] }
  if refuse then (c.raise (F.DTR_EV_TRAIN_FAIL d), true)
  else (fails.foldl (fun c r => c.retireRankNow d r) c, false)

end Chip

/-! ## The commands -/

/-- REFRESH_INTERVAL (R419 to R421): the debts of the ranks whose tREFI passed grow by one for each bank index; where one reaches
POSTPONE, REFab runs at once. Refresh never runs in self-refresh (R437). -/
def execRefreshInterval (w : Twin) (d : Fin 16) (ranks : BitVec 16) (s : State) : Host.Outcome State Fault Refusal :=
  .next (s.onUp w fun c =>
    if c.pwr d.val ≥ 2 then c
    else (List.range 16).foldl (fun c r =>
      if ranks.getLsbD r && c.rankServes d.val r then
        ((List.range 4).foldl (fun c k => c.setDebt d.val r k (c.debt d.val r k + 1)) c).refabFallback d.val r 16
      else c) c)


/-- REFRESH_DONE (R422, R428): the banks of the rank serve again; an entry into self-refresh whose refreshes have ended reaches SRE. -/
def execRefreshDone (w : Twin) (d : Fin 16) (r : Fin 16) (s : State) : Host.Outcome State Fault Refusal :=
  .next (s.onUp w fun c =>
    let c := c.mapChan d.val fun x => { x with refreshing := x.refreshing.filter fun y => y.1 != r.val }
    if c.pwr d.val == 1 && (c.chan d.val).refreshing.isEmpty then c.enterSelfRefresh d.val else c)

/-- MR4_POLL (R419): the ranks that report 2× refresh; a rank that begins to raises TEMP_HIGH. -/
def execMr4Poll (w : Twin) (d : Fin 16) (twoX : BitVec 16) (s : State) : Host.Outcome State Fault Refusal :=
  .next (s.onUp w fun c =>
    let old := BitVec.ofNat 16 (c.get (F.DCH_CH_REF_2X d.val))
    let c := c.put (F.DCH_CH_REF_2X d.val) twoX.toNat
    if twoX &&& ~~~old != 0 then c.raise (F.DCH_EV_TEMP_HIGH d.val) else c)

/-- Every channel trains, and the layout of this start leaves out the ranks retired by then (R427, R600); whether a channel refuses the start. -/
def Chip.trainAll (c : Chip) (x : List ChannelTraining) : Chip × Bool :=
  let r := (List.range 16).foldl (fun (a : Chip × Bool) d =>
    let y := a.1.trainChannel d (x.getD d ⟨0, 0, 0, 0, 0, 0, 0, 0, 0, false, 0, 0, 0⟩)
    (y.1, a.2 || y.2)) (c, false)
  ({ r.1 with cbl := { r.1.cbl with leftOut := r.1.cbl.retiredRanks } }, r.2)

/-- DRAM_TRAINING_DONE (R424, R427): every channel's result is taken; a channel that cannot drop its failing rank puts the chip in HELD
with TRAIN_FAIL. -/
def execDramTrainingDone (w : Twin) (x : List ChannelTraining) (s : State) : Host.Outcome State Fault Refusal :=
  .next (s.onUp w fun c =>
    let r := c.trainAll x
    let c := r.1.put F.RST_TRAIN_DONE_MS ((c.round - c.rst.releaseRound) * 4 / 1000)
    let c := { c with rst := { c.rst with step := max c.rst.step 7 } }
    if r.2 then c.failStop false else c)

/-- DRIFT_CHECK (R425): the oscillator is read; a change above THRESH_PS moves the rank's write delay and becomes the baseline. -/
def execDriftCheck (w : Twin) (d : Fin 16) (r : Fin 16) (ps : Int) (s : State) : Host.Outcome State Fault Refusal :=
  .next (s.onUp w fun c =>
    let c := c.cnt (K.DTR_OSC_RUNS d.val)
    if ps.natAbs ≤ c.cfg (F.DTR_DRIFT_CFG_THRESH_PS d.val) then c
    else
      let c := c.putInt (F.DTR_DRIFT_PS d.val r.val) (c.getInt (F.DTR_DRIFT_PS d.val r.val) + ps)
      let c := c.mapChan d.val fun y => { y with baseline := y.baseline.set (fun _ => 0) r.val (y.baseline.get (fun _ => 0) r.val + ps) }
      (c.cnt (K.DTR_DRIFT_STEPS d.val)).peak (K.DTR_DRIFT_PS_MAX d.val) ps.natAbs)

/-- DRAM_ZQ_START (R425): ZQCal Start is issued to a rank. -/
def execDramZqStart (w : Twin) (d : Fin 16) (r : Fin 16) (s : State) : Host.Outcome State Fault Refusal :=
  .next (s.onUp w fun c => c.mapChan d.val fun y => { y with zqWait := r.val :: y.zqWait.filter (· != r.val) })

/-- DRAM_ZQ_LATCH (R425): ZQCal Latch after its Start closes the rank's open rows. -/
def execDramZqLatch (w : Twin) (d : Fin 16) (r : Fin 16) (s : State) : Host.Outcome State Fault Refusal :=
  .next (s.onUp w fun c =>
    if !(c.chan d.val).zqWait.contains r.val then c
    else
      let c := c.mapChan d.val fun y => { y with zqWait := y.zqWait.filter (· != r.val) }
      (c.closeRows d.val fun b => b / 32 == r.val).cnt (K.DTR_ZQ_CALS d.val))

/-- RETRAIN_DONE (R426, R462): the rank returns to service with its new eyes, or Cobbler retires it. -/
def execRetrainDone (w : Twin) (d : Fin 16) (r : Fin 16) (ok : Bool) (rdEye wrEye : Byte) (s : State) : Host.Outcome State Fault Refusal :=
  .next (s.onUp w fun c =>
    if (c.chan d.val).out != some r.val || c.get (F.DRF_PPR_STATUS_STATE d.val) != 0 || c.cbl.retiredRanks.contains (d.val, r.val) then c
    else
      let c := (c.mapChan d.val fun y => { y with out := none, retrainDue := y.retrainDue.filter (· != r.val) }).readBacklog d.val
      let c := (c.cnt (K.DTR_RETRAINS d.val)).raise (F.DTR_EV_RETRAIN d.val)
      if ok then (c.put (F.DTR_TRAIN_RD_EYE d.val r.val) rdEye.toNat).put (F.DTR_TRAIN_WR_EYE d.val r.val) wrEye.toNat
      else c.retireRank d.val r.val)

/-- The refreshes of a rank that a channel pays on its way into self-refresh (R428): REFab where all four debts are above 0, else a REFsb for each
that is. -/
def Chip.payDebts (d : Nat) (c : Chip) (r : Nat) : Chip :=
  let due := (List.range 4).filter fun k => decide (c.debt d r k > 0)
  let c := due.foldl (fun c k => c.setDebt d r k (c.debt d r k - 1)) c
  if due.length = 4 then (c.mapChan d fun x => { x with refreshing := (r, 4) :: x.refreshing }).cnt (K.DRF_REFAB_ISSUED d)
  else due.foldl (fun c k => (c.mapChan d fun x => { x with refreshing := (r, k) :: x.refreshing }).cnt (K.DRF_REFSB_ISSUED d)) c

/-- SR_EXIT_DONE (R429): the channel serves again; every debt is 0. `ns` is the latency the exit added to its first request. -/
def execSrExitDone (w : Twin) (d : Fin 16) (ns : Nat) (s : State) : Host.Outcome State Fault Refusal :=
  .next (s.onUp w fun c =>
    if c.pwr d.val ≠ 3 then c
    else
      let c := (List.range 16).foldl (fun c r => (List.range 4).foldl (fun c k => c.setDebt d.val r k 0) c) c
      ((c.readBacklog d.val).put (F.DCH_CH_PWR d.val) 0).peak (K.DRF_SR_WAKE_NS_MAX d.val) ns)

/-- PPR_REQ.GO is written (R436). -/
def Chip.pprGo (c : Chip) (d : Nat) : Chip :=
  if !c.pprMay then c.reject (Chip.dmcPage d 1) 0x0C 0x110
  else c.pprStart d (c.get (F.DRF_PPR_REQ_RANK d)) (c.get (F.DRF_PPR_REQ_BG d)) (c.get (F.DRF_PPR_REQ_BA d))
    (c.get (F.DRF_PPR_ROW d)) (c.is (F.DRF_PPR_REQ_KIND d)) false

/-- PPR_GO (R436, R599): copying starts, or the request is rejected with STATE. -/
def execPprGo (w : Twin) (rq : Requester) (d : Fin 16) (s : State) : Host.Outcome State Fault Refusal :=
  .next (s.onUp w fun c => c.ifWrites rq (Chip.dmcPage d.val 1) fun c => c.ifRunning (Chip.dmcPage d.val 1) 0x110 fun c =>
    c.pprGo d.val)


/-- PPR_COPY_DONE (R436, R437): the row is held, and the rank leaves service for programming; a channel in self-refresh has left it first. -/
def execPprCopyDone (w : Twin) (d : Fin 16) (s : State) : Host.Outcome State Fault Refusal :=
  .next (s.onUp w fun c =>
    match c.get (F.DRF_PPR_STATUS_STATE d.val), (c.chan d.val).pprFrom with
    | 1, some (r, _, _, _) =>
      if c.pwr d.val = 0 ∧ c.ranksOut.isEmpty then (c.rankOut d.val r).put (F.DRF_PPR_STATUS_STATE d.val) 2 else c
    | _, _ => c)

/-- PPR_PROGRAM_DONE (R436): the sequence ends, well or with ERR, and the buffer is written back. -/
def execPprProgramDone (w : Twin) (d : Fin 16) (err : Fin 3) (s : State) : Host.Outcome State Fault Refusal :=
  .next (s.onUp w fun c =>
    if c.get (F.DRF_PPR_STATUS_STATE d.val) ≠ 2 then c
    else
      let c := (c.put (F.DRF_PPR_STATUS_STATE d.val) 3).put (F.DRF_PPR_STATUS_ERR d.val) err.val
      if err.val = 0 then c else c.raise (F.DRF_EV_PPR_FAILED d.val))

/-- ALERT_N (R442): the DMC reissues every command since the last one acknowledged; it counts in CA_PARITY. -/
def execAlertN (w : Twin) (d : Fin 16) (s : State) : Host.Outcome State Fault Refusal :=
  .next (s.onUp w fun c => if c.rankCount d.val = 0 then c else c.cnt K.RAS_CA_PARITY)

/-- PATROL_WAKE (R449): a backlog of 2^24 pairs wakes a channel from self-refresh. -/
def execPatrolWake (w : Twin) (d : Fin 16) (s : State) : Host.Outcome State Fault Refusal :=
  .next (s.onUp w fun c =>
    if c.pwr d.val == 2 && decide ((c.chan d.val).backlog ≥ 2 ^ 24) then
      (c.cnt K.PAT_SR_WAKES).meetChannel d.val
    else c)

/-- Cobbler's decisions for one channel at a window's end (R460 to R462): an erasure for a device, else the rank's retirement; sPPR for a
row. The window's counts restart. -/
def Chip.windowChannel (c : Chip) (d : Nat) : Chip :=
  let x := c.chan d
  let devs := x.devRows.filter fun e => decide (e.2.length ≥ c.cfg F.CBL_CBL_CFG_DEV_ROWS_LIMIT)
  let rows := x.rowCe.filter fun e => decide (e.2 ≥ c.cfg F.CBL_CBL_CFG_ROW_CE_LIMIT)
  let c := c.mapChan d fun y => { y with devRows := [], rowCe := [] }
  let c := devs.foldl (fun c e =>
    let r := e.1 / 32
    let dev := e.1 % 32
    if c.cfgOn (F.DCH_DEV_ERASE_VALID d r) then c.retireRank d r
    else (((c.putCfg (F.DCH_DEV_ERASE_DEV d r) dev).putCfg (F.DCH_DEV_ERASE_VALID d r) 1).showRanks d).drew 4 (d + 16 * r + 2 ^ 31 * dev) false) c
  rows.foldl (fun c e => c.wantPpr d e.1 false) c

/-- CBL_WINDOW_END (R460, R461): once its Deliveries have passed, the window's counts decide the draws, waiting PPRs and retirements
are tried again, and the next window begins. -/
def execCblWindowEnd (w : Twin) (s : State) : Host.Outcome State Fault Refusal :=
  .next (s.onUp w fun c =>
    if c.cbl.windowLeft ≠ 0 then c
    else
      let wait := c.cbl.pprWait
      let pend := c.cbl.rankPending
      let c := { c with cbl := { c.cbl with windowLeft := c.cfg F.CBL_CBL_CFG_WINDOW, pprWait := [] } }
      let c := (List.range 16).foldl Chip.windowChannel c
      let c := wait.foldl (fun c x => c.wantPpr x.1 x.2.1 x.2.2) c
      pend.foldl (fun c x => c.retireRank x.1 x.2) c)


end Sys2Proof.Machine
end

