-- ==== Sys2Proof/Machine/Store.lean ====
section
/-! DEFINITION. The stored bytes of one chip and where they lie: lines, domains, extents, parcels and frames, the layout of reserved
DRAM, the Metadata Cache that holds its maps, and the views of a line by tier (R261 to R268, R286, R295 to R299, R600). -/
namespace Sys2Proof.Machine

/-! ## Lines and bytes -/

/-- Byte `i` of a line. -/
def byteOf (l : Line) (i : Nat) : Byte := (l >>> (8 * i)).setWidth 8

/-- The bytes that byte enables select, as a mask of bits. -/
def lineMask (en : BitVec 64) : Line :=
  (List.range 64).foldl (fun a i => if en.getLsbD i then a ||| ((255 : Line) <<< (8 * i)) else a) 0

/-- A line with the bytes that `en` selects taken from `new`. -/
def mergeLine (old new : Line) (en : BitVec 64) : Line := (old &&& ~~~ lineMask en) ||| (new &&& lineMask en)

/-- All 64 byte enables. -/
def allBytes : BitVec 64 := BitVec.allOnes 64

/-- What a byte nothing has written holds (R263, R268). -/
def zeroByte : Nat → Byte := fun _ => 0

/-- The `n` bytes from an address. -/
def readBytes (t : List Host.Cell) (a n : Nat) : List Byte := (List.range n).map fun i => Table.get zeroByte t (a + i)

/-- The line at an address. -/
def readLine (t : List Host.Cell) (a : Nat) : Line :=
  (List.range 64).foldl (fun l i => l ||| ((Table.get zeroByte t (a + i)).setWidth 512 <<< (8 * i))) 0

/-- Writes bytes from an address. -/
def writeBytes (t : List Host.Cell) (a : Nat) (bs : List Byte) : List Host.Cell :=
  Table.setAll zeroByte t (bs.zipIdx.map fun x => (a + x.2, x.1))

/-- Writes the bytes of a line that `en` selects. -/
def writeLine (t : List Host.Cell) (a : Nat) (l : Line) (en : BitVec 64) : List Host.Cell :=
  Table.setAll zeroByte t (((List.range 64).filter fun i => en.getLsbD i).map fun i => (a + i, byteOf l i))

/-- The bytes of a range read as 0 again. -/
def clearBytes (t : List Host.Cell) (lo n : Nat) : List Host.Cell :=
  Table.clear (fun k => decide (lo ≤ k) && decide (k < lo + n)) t

/-- Copies the bytes of a range from one store to another. -/
def copyBytes (src dst : List Host.Cell) (lo n : Nat) : List Host.Cell :=
  Table.setAll zeroByte (clearBytes dst lo n) (Table.entries (fun k => decide (lo ≤ k) && decide (k < lo + n)) src)

/-- A list of numbers with one added. -/
def insertN (l : List Nat) (x : Nat) : List Nat := if l.contains x then l else x :: l

/-- A list of numbers with one removed. -/
def dropN (l : List Nat) (x : Nat) : List Nat := l.filter fun y => y != x

/-- The 64 B line of an address, by its first byte. -/
def lineBase (dpa : Nat) : Nat := dpa / 64 * 64

/-- The extent of an address (R264). -/
def extentOf (dpa : Nat) : Nat := dpa / 2 ^ 21

/-- The parcel of an address (R264). -/
def parcelOf (dpa : Nat) : Nat := dpa / 65536

/-- The parcels of an extent. -/
def parcelsOf (extent : Nat) : List Nat := (List.range 32).map fun i => extent * 32 + i

/-- The entry of an extent that nothing has placed: UNWRITTEN. -/
def extDefault : Nat → ExtEntry := fun _ => {}

/-- The entry of a parcel with no packed copy. -/
def parcelDefault : Nat → ParcelEntry := fun _ => {}

namespace Chip

/-! ## Domains and policies (R270, R273) -/

/-- Whether a domain exists. -/
def domValid (c : Chip) (d : Nat) : Bool := c.cfgOn (F.DOM_DOMAIN_VALID d)

/-- The first DPA of a domain. -/
def domBase (c : Chip) (d : Nat) : Nat := c.cfg (F.DOM_DOMAIN_BASE_256M d) * 2 ^ 28

/-- The size of a domain in bytes. -/
def domSize (c : Chip) (d : Nat) : Nat := c.cfg (F.DOM_DOMAIN_SIZE_256M d) * 2 ^ 28

/-- Whether a DPA lies in a valid domain. -/
def inDomain (c : Chip) (d dpa : Nat) : Bool := c.domValid d && decide (c.domBase d ≤ dpa) && decide (dpa < c.domBase d + c.domSize d)

/-- The domain of a DPA. -/
def domainOf (c : Chip) (dpa : Nat) : Option Nat := (List.range 64).find? fun d => c.inDomain d dpa

/-- Whether a domain is a commons (R231). -/
def commons (c : Chip) (d : Nat) : Bool := c.cfgOn (F.DOM_DOMAIN_KIND d)

/-- Whether a DPA lies in a commons. -/
def inCommons (c : Chip) (dpa : Nat) : Bool := match c.domainOf dpa with | some d => c.commons d | none => false

/-- Whether a domain completes writes in local mode (R131). -/
def localMode (c : Chip) (d : Nat) : Bool :=
  decide ((c.get (if d < 32 then F.WMB_CMPL_LOCAL_LO else F.WMB_CMPL_LOCAL_HI) >>> (d % 32)) % 2 = 1)

/-- The object of an extent. -/
def objectOf (c : Chip) (e : Nat) : Option (Nat × Obj) :=
  c.trm.objects.find? fun x => decide (x.2.first ≤ e) && decide (e < x.2.first + x.2.count)

/-- The policy in force of an extent (R265, R271, R273). -/
def policy (c : Chip) (e : Nat) : Nat :=
  match c.domainOf (e * 2 ^ 21) with
  | none => 2
  | some d =>
    if c.cfgOn (F.DOM_DOMAIN_FRONT_PINNED d) then 0
    else match c.objectOf e with
      | some x => x.2.policy
      | none => c.cfg (F.DOM_DOMAIN_DEFAULT_POLICY d)

/-! ## The layout of DRAM (R600) -/

/-- The bytes of one logical rank of a channel. -/
def rankBytes (c : Chip) (d : Nat) : Nat := c.get (F.DCH_DIMM_GIB d) * 2 ^ 30 / max 1 (c.get (F.DCH_DIMM_RANKS d))

/-- The bytes of DRAM in service at this start. -/
def dramBytes (c : Chip) : Nat :=
  (List.range 16).foldl (fun a d =>
    a + ((List.range (c.rankCount d)).filter fun r => !c.cbl.leftOut.contains (d, r)).length * c.rankBytes d) 0

/-- The rows of the Last: one for each block of a LUN, at each position (R340). -/
def mdeRowCount (c : Chip) : Nat := c.mde.scan.positions * c.mde.scan.blocks

/-- Blocks of the patch area (R286). -/
def patchBlocks (c : Chip) : Nat := c.cfg F.PCH_PATCH_CFG_GIB * 2 ^ 18

/-- Sets of the parcel cache, 0 where there is none (R288). -/
def pcacheSets (c : Chip) : Nat := if c.cfg F.PCH_PCACHE_CFG_LOG2_GIB = 15 then 0 else 1024 * 2 ^ c.cfg F.PCH_PCACHE_CFG_LOG2_GIB

/-- The sizes of the 17 regions of R600, in bytes, in order. -/
def regionSizes (c : Chip) : List Nat :=
  [2 ^ 30, 2 ^ 35, 2 ^ 24, 2 ^ 25, 16 * c.patchBlocks, 256 * c.pcacheSets, 2 ^ 26, 2 ^ 24, 2 ^ 18, 2 ^ 24,
    64 * c.mdeRowCount, 256 * c.mdeRowCount, 2 ^ 21, c.cfg F.MDE_MDE_CFG_STAGE_MIB * 2 ^ 20, 64 * 2 ^ c.cfg F.DLO_DLO_CFG_RING_LOG2,
    c.cfg F.PCH_PATCH_CFG_GIB * 2 ^ 30, 65536 * 16 * c.pcacheSets]

/-- The 4 MiB ranges that sizes take, each rounded up. -/
def rangesOf (sizes : List Nat) : Nat := sizes.foldl (fun a s => a + (s + 2 ^ 22 - 1) / 2 ^ 22) 0

/-- The byte offset at which region `n` of R600 begins, counted from 1. -/
def regionBase (c : Chip) (n : Nat) : Nat := rangesOf (c.regionSizes.take (n - 1)) * 2 ^ 22

/-- The first 4 MiB range of the front-tier pool. -/
def poolRange (c : Chip) : Nat := rangesOf c.regionSizes

/-- The frames that DRAM in service has room for above the reserved regions. -/
def frameCount (c : Chip) : Nat := (c.dramBytes - c.poolRange * 2 ^ 22) / 2 ^ 21

/-- The 4 MiB ranges of DRAM. -/
def rangeCount (c : Chip) : Nat := c.dramBytes / 2 ^ 22

/-- The channels on which a rank is left out of the layout. -/
def missingOn (c : Chip) (r : Nat) : List Nat := (List.range 16).filter fun d => c.cbl.leftOut.contains (d, r)

/-- The chip-local DRAM address of an offset in the layout (R600): equal, but for ranks retired at this start, whose pairs are left out
in ascending address. A rank takes windows of 8 MiB in which every group of 16 pairs meets every channel once. -/
def layoutAddr (c : Chip) (off : Nat) : Nat :=
  if c.cbl.leftOut.isEmpty || c.dramMap = 3 then off
  else
    let n := max 1 (c.rankCount 0)
    let win (r : Nat) : Nat := 2 ^ 19 * (16 - (c.missingOn r).length)
    let cycle := max 1 ((List.range n).foldl (fun a r => a + win r) 0)
    let full := off / cycle
    let x := (List.range n).foldl (fun (a : Nat × Option (Nat × Nat)) r =>
      match a.2 with
      | some _ => a
      | none => if a.1 < win r then (a.1, some (r, a.1)) else (a.1 - win r, none)) (off % cycle, none)
    match x.2 with
    | none => off
    | some (r, o) =>
      let k := max 1 (16 - (c.missingOn r).length)
      let q := o / 128
      let base := (full * n + r) * 2 ^ 23 + q / k * 2048
      let good := (List.range 16).filter fun j => !(c.missingOn r).contains (c.place (base + 128 * j)).ch
      base + 128 * good.getD (q % k) 0 + o % 128

/-- The set of a line in the directory and in the shadow table (R234, R236). -/
def dirSet (c : Chip) (line : Nat) : Nat :=
  let a := line / 64
  (a % 2 ^ 17) ^^^ (cut a 17 17) ^^^ (cut a 34 8) ^^^ c.cfg F.DIR_DIR_CFG_SALT

/-- The set of a parcel in the parcel cache (R288). -/
def pcacheSet (c : Chip) (p : Nat) : Nat := (p ^^^ (p >>> 13) ^^^ c.cfg F.PCH_PCACHE_SALT) % max 1 c.pcacheSets

/-- What no slot of the parcel cache holds. -/
def pcacheNone : Nat → Nat × Nat := fun _ => (256, 0)

/-- The set of a parcel in the 16-way patch index, which has an entry for each patch block (R264, R287). -/
def patchSet (c : Chip) (p : Nat) : Nat := Config.patchIndexSet (c.patchBlocks / 16) p % max 1 (c.patchBlocks / 16)

/-- The chip-local DRAM address of a line of a frame. -/
def frameAddr (c : Chip) (f dpa : Nat) : Nat := c.layoutAddr (c.poolRange * 2 ^ 22 + f * 2 ^ 21 + dpa % 2 ^ 21)

/-- The ranks retired since this start: the frames that lie in them are out of the pool (R272, R462). -/
def awayRanks (c : Chip) : List Nat := (c.cbl.retiredRanks.filter fun x => !c.cbl.leftOut.contains x).map (·.2)

/-- Whether a frame lies in a rank retired since this start. -/
def frameAway (c : Chip) (f : Nat) : Bool := !c.awayRanks.isEmpty && c.awayRanks.contains (c.place (c.frameAddr f 0)).rank

/-- The frames that lie in ranks retired since this start. -/
def awayFrames (c : Chip) : Nat := if c.awayRanks.isEmpty then 0 else ((List.range c.frameCount).filter c.frameAway).length

/-- POOL_FRAMES (R272): frames retired under R458 and those of ranks retired in service are left out. -/
def poolFrames (c : Chip) : Nat := c.frameCount - c.awayFrames - (c.cbl.framesRetired.filter fun f => !c.frameAway f).length

/-- The frames of the pair's pool (R40): the smaller of the twins' while MIRRORED. -/
def poolSize (c : Chip) : Nat :=
  if c.mirrored then (match c.twe.peerPool with | some n => min c.poolFrames n | none => c.poolFrames) else c.poolFrames

/-! ## The Metadata Cache (R295 to R302) -/

/-- The MDC line of an extent's Extent Map entry. -/
def extLine (e : Nat) : Nat := e / 32

/-- The MDC line of a parcel's Parcel Map entry. -/
def parcelLine (p : Nat) : Nat := 2 ^ 22 + p / 32

/-- The first MDC line of a region of R600. -/
def regionLine (c : Chip) (n : Nat) : Nat := c.regionBase n / 256

/-- The MDC line of a frame's word of the frame dirty map. -/
def dirtyLine (c : Chip) (f : Nat) : Nat := c.regionLine 3 + f / 64

/-- The MDC line of an object's descriptor. -/
def objectLine (c : Chip) (n : Nat) : Nat := c.regionLine 4 + n / 8

/-- The MDC line of a parcel's entry of the patch index: a set of 16 entries of 16 B takes one line. -/
def patchLine (c : Chip) (p : Nat) : Nat := c.regionLine 5 + c.patchSet p

/-- The MDC line of the tag of a parcel's slot: the tags of a set take one line. -/
def pcacheLine (c : Chip) (p : Nat) : Nat := c.regionLine 6 + c.pcacheSet p

/-- The MDC line of a slot of the shadow table: a set takes two lines. `k` is the number of the line that the slot follows. -/
def shadowLine (c : Chip) (k : Nat) : Nat :=
  let set := c.dirSet (k * 64)
  let slot := (c.che.shadow.filter fun x => c.dirSet (x.1 * 64) == set).findIdx fun x => x.1 == k
  c.regionLine 7 + 2 * set + slot / 16 % 2

/-- The MDC line of an extent's bit of the change map. -/
def changeLine (c : Chip) (e : Nat) : Nat := c.regionLine 8 + e / 2048

/-- The MDC line of a range's bit of the fill state. -/
def fillLine (c : Chip) (r : Nat) : Nat := c.regionLine 9 + r / 2048

/-- The region that an MDC line lies in, 1 to 9 (R264, R600). -/
def mdcRegion (c : Chip) (line : Nat) : Nat :=
  if line < 2 ^ 22 then 1
  else if line < 2 ^ 22 + 2 ^ 27 then 2
  else ([9, 8, 7, 6, 5, 4].find? fun n => decide (c.regionLine n ≤ line)).getD 3

/-- The set of an MDC line. -/
def mdcSet (c : Chip) (line : Nat) : Nat := (line % 2 ^ 14) ^^^ (line >>> 14) % 2 ^ 14 ^^^ c.cfg F.MDC_MDC_CFG_SALT

/-- An MDC line as it is held. -/
def mdcWay (c : Chip) (set way : Nat) : MdcLine := c.mdc.lines.get (fun _ => {}) (set * 32 + way)

/-- The chip with one MDC line replaced. -/
def setMdcWay (c : Chip) (set way : Nat) (x : MdcLine) : Chip :=
  { c with mdc := { c.mdc with lines := c.mdc.lines.set (fun _ => {}) (set * 32 + way) x } }

/-- Ways in use (R303), ascending. -/
def mdcWays (c : Chip) : List Nat := (List.range 18).filter fun w => (c.get F.MDC_WAYS_ENABLED).testBit w && !c.mdc.disabling.contains w

/-- The way that holds a line. -/
def mdcFind (c : Chip) (line : Nat) : Option Nat :=
  (List.range 18).find? fun w => (c.mdcWay (c.mdcSet line) w).held && (c.mdcWay (c.mdcSet line) w).tag == line >>> 14

/-- The line that a way of a set holds: the set's hash of R295 undone. -/
def mdcLineAt (c : Chip) (set tag : Nat) : Nat := tag * 2 ^ 14 + (set ^^^ tag % 2 ^ 14 ^^^ c.cfg F.MDC_MDC_CFG_SALT)

/-- Reference bits after a way is filled or hit: where every unlocked, enabled way would have its bit at 1, those of the others are
cleared (R295). -/
def mdcRefer (c : Chip) (set way : Nat) : Chip :=
  let c := c.setMdcWay set way { c.mdcWay set way with ref := true }
  let ws := c.mdcWays.filter fun w => !(c.mdcWay set w).locked
  if ws.all fun w => (c.mdcWay set w).ref then
    ws.foldl (fun c w => if w = way then c else c.setMdcWay set w { c.mdcWay set w with ref := false }) c
  else c

/-- Whether a parcel's dirty bit lies in an MDC line. -/
def dirtyIn (c : Chip) (line p : Nat) : Bool :=
  match (c.trm.ext.get extDefault (p / 32)).frame with
  | some f => c.dirtyLine f == line
  | none => false

/-- A list with the members of `src`, and no others, that meet a condition. -/
def graftN (p : Nat → Bool) (src l : List Nat) : List Nat := src.filter p ++ l.filter fun x => !p x

/-- A line's content reaches DRAM: the maps as they stand in the cache are the maps in DRAM. -/
def mdcToDram (c : Chip) (line : Nat) : Chip :=
  let t := c.trm
  let c := match c.mdcRegion line with
    | 1 => { c with trm := { t with extDram := Table.graft extDefault (fun e => extLine e == line) t.ext t.extDram } }
    | 2 => { c with trm := { t with parcelsDram := Table.graft parcelDefault (fun p => parcelLine p == line) t.parcels t.parcelsDram } }
    | 3 => { c with trm := { t with dirtyDram := graftN (c.dirtyIn line) t.dirty t.dirtyDram } }
    | 4 => { c with trm := { t with objectsDram := Table.graft (fun _ => {}) (fun n => c.objectLine n == line) t.objects t.objectsDram } }
    | 5 => { c with trm := { t with patchDram := Table.graft (fun _ => []) (fun p => c.patchLine p == line) t.patchChains t.patchDram } }
    | 6 => { c with trm := { t with pcacheDram := Table.graft pcacheNone (fun p => c.pcacheLine p == line) t.pcache t.pcacheDram } }
    | 7 => { c with che := { c.che with
        shadowDram := Table.graft (fun _ => {}) (fun k => c.shadowLine k == line) c.che.shadow c.che.shadowDram } }
    | 8 => { c with twe := { c.twe with changeDram := graftN (fun e => c.changeLine e == line) (c.twe.changeMap.getD []) c.twe.changeDram } }
    | _ => { c with trm := { t with readyDram := Table.graft (fun _ => false) (fun r => c.fillLine r == line) t.ready t.readyDram } }
  (c.cnt K.MDC_WRITEBACKS).oweBlock .core (c.layoutAddr (line * 256)) 256

/-- A line's content falls back to what DRAM holds: a dirty line dropped without a write (R300). Patch lines whose chain DRAM's index does not
know are lost with it. -/
def mdcFromDram (c : Chip) (line : Nat) : Chip :=
  let t := c.trm
  match c.mdcRegion line with
  | 1 => { c with trm := { t with ext := Table.graft extDefault (fun e => extLine e == line) t.extDram t.ext } }
  | 2 => { c with trm := { t with parcels := Table.graft parcelDefault (fun p => parcelLine p == line) t.parcelsDram t.parcels } }
  | 3 => { c with trm := { t with dirty := graftN (c.dirtyIn line) t.dirtyDram t.dirty } }
  | 4 => { c with trm := { t with objects := Table.graft (fun _ => {}) (fun n => c.objectLine n == line) t.objectsDram t.objects } }
  | 5 =>
    let gone (l : Nat) : Bool := c.patchLine (l / 65536) == line && (t.patchDram.get (fun _ => []) (l / 65536)).isEmpty
    { c with trm := { t with
      patchChains := Table.graft (fun _ => []) (fun p => c.patchLine p == line) t.patchDram t.patchChains
      patchLines := t.patchLines.filter fun l => !gone l
      patchPoison := t.patchPoison.filter fun l => !gone l } }
  | 6 => { c with trm := { t with pcache := Table.graft pcacheNone (fun p => c.pcacheLine p == line) t.pcacheDram t.pcache } }
  | 7 => { c with che := { c.che with shadow := Table.graft (fun _ => {}) (fun k => c.shadowLine k == line) c.che.shadowDram c.che.shadow } }
  | 8 => { c with twe := { c.twe with changeMap := c.twe.changeMap.map fun m => graftN (fun e => c.changeLine e == line) c.twe.changeDram m } }
  | _ => { c with trm := { t with ready := Table.graft (fun _ => false) (fun r => c.fillLine r == line) t.readyDram t.ready } }

/-- Entries of the eviction buffer reach DRAM, the oldest first. -/
def evbDrain (c : Chip) : Nat → Chip
  | 0 => c
  | n + 1 =>
    match c.mdc.evb with
    | [] => c
    | l :: r => ({ c with mdc := { c.mdc with evb := r } }.mdcToDram l).evbDrain n

/-- A dirty line enters the eviction buffer (R299); a replacement that meets it full waits until its oldest entry is written. -/
def evbPush (c : Chip) (line : Nat) : Chip :=
  let c := if c.mdc.evb.length ≥ 64 then (c.raise F.MDC_EV_EVB_FULL).evbDrain 1 else c
  { c with mdc := { c.mdc with evb := c.mdc.evb ++ [line] } }

/-- The way a fill of a set takes (R295): an empty unlocked, enabled way, the lowest first; else the lowest of those whose reference bit
is 0. -/
def mdcVictim (c : Chip) (set : Nat) : Option Nat :=
  let ws := c.mdcWays.filter fun w => !(c.mdcWay set w).locked
  match ws.find? fun w => !(c.mdcWay set w).held with
  | some w => some w
  | none => ws.find? fun w => !(c.mdcWay set w).ref

/-- Installs a line, clean or dirty: the line it replaces passes through the eviction buffer where it is dirty. With no way to take, a
dirty line is written through. -/
def mdcInstall (c : Chip) (line : Nat) (dirty : Bool) : Chip :=
  let set := c.mdcSet line
  match c.mdcVictim set with
  | none => if dirty then c.mdcToDram line else c
  | some w =>
    let old := c.mdcWay set w
    let c := if old.held && old.dirty then c.evbPush (c.mdcLineAt set old.tag) else c
    (c.setMdcWay set w { held := true, tag := line >>> 14, dirty, locked := false, ref := false }).mdcRefer set w

/-- The tier manager's own access to a map line: a hit, a return from the eviction buffer, or a fill. -/
def mdcTouch (c : Chip) (line : Nat) (write : Bool) : Chip :=
  let set := c.mdcSet line
  match c.mdcFind line with
  | some w => ((c.setMdcWay set w { c.mdcWay set w with dirty := (c.mdcWay set w).dirty || write }).mdcRefer set w).cnt K.MDC_HITS
  | none =>
    if c.mdc.evb.contains line then
      ({ c with mdc := { c.mdc with evb := dropN c.mdc.evb line } }.cnt K.MDC_EVB_HITS).mdcInstall line true
    else ((c.cnt K.MDC_MISSES).oweBlock .core (c.layoutAddr (line * 256)) 256).mdcInstall line write

/-- An extent is marked in the change map, where one is kept (R215). -/
def markChange (c : Chip) (extent : Nat) : Chip :=
  match c.twe.changeMap with
  | none => c
  | some m =>
    if m.contains extent then c
    else
      let c := { c with twe := { c.twe with changeMap := some (extent :: m) } }.mdcTouch (c.changeLine extent) true
      (c.cnt K.RSY_CHANGEMAP_MARKS).put F.RSY_CHANGEMAP_MARKED (m.length + 1)

/-! ## Extents, parcels and frames -/

/-- The Extent Map entry of an extent. -/
def ext (c : Chip) (e : Nat) : ExtEntry := c.trm.ext.get extDefault e

/-- The chip with an Extent Map entry changed, through the MDC. -/
def mapExt (c : Chip) (e : Nat) (f : ExtEntry → ExtEntry) : Chip :=
  ({ c with trm := { c.trm with ext := c.trm.ext.set extDefault e (f (c.ext e)) } }).mdcTouch (extLine e) true

/-- The Parcel Map entry of a parcel. -/
def parcel (c : Chip) (p : Nat) : ParcelEntry := c.trm.parcels.get parcelDefault p

/-- The chip with a Parcel Map entry replaced, through the MDC. -/
def setParcel (c : Chip) (p : Nat) (x : ParcelEntry) : Chip :=
  ({ c with trm := { c.trm with parcels := c.trm.parcels.set parcelDefault p x } }).mdcTouch (parcelLine p) true

/-- The frame of an extent. -/
def frameOf (c : Chip) (e : Nat) : Option Nat := (c.ext e).frame

/-- The entry of an extent in every head's translation cache becomes invalid (R296). -/
def tcInvalidate (c : Chip) (e : Nat) : Chip :=
  let step (t : Table (List Nat)) (h : Nat) : Table (List Nat) :=
    if (c.trm.tc.get (fun _ => []) h).contains (extLine e) then t.set (fun _ => []) h (insertN (t.get (fun _ => []) h) e) else t
  { c with trm := { c.trm with tcHoles := (List.range 24).foldl step c.trm.tcHoles } }

/-- The dirty parcels of an extent's frame. -/
def dirtyParcels (c : Chip) (e : Nat) : List Nat := (parcelsOf e).filter fun p => c.trm.dirty.contains p

/-- CLEAN of an extent (R267). -/
def clean (c : Chip) (e : Nat) : Bool := (c.dirtyParcels e).isEmpty

/-- The patch lines of a parcel. -/
def patchOf (c : Chip) (p : Nat) : List Nat := c.trm.patchLines.filter fun l => l / 65536 == p

/-- PATCHED of an extent (R265): some parcel has patch lines. -/
def patched (c : Chip) (e : Nat) : Bool := c.trm.patchLines.any fun l => extentOf l == e

/-- The bits that map entries keep of a parcel's state follow it, through the MDC: PATCHED of the parcel and its entry of the patch index,
and PATCHED and CLEAN of the extent (R264 to R267). `old` is the chip before. -/
def mapBits (c old : Chip) (p : Nat) : Chip :=
  let c := if (c.patchOf p).isEmpty == (old.patchOf p).isEmpty then c else (c.mdcTouch (c.patchLine p) true).mdcTouch (parcelLine p) true
  if c.patched (p / 32) == old.patched (p / 32) && c.clean (p / 32) == old.clean (p / 32) then c else c.mdcTouch (extLine (p / 32)) true

/-- A frame dirty bit is set or cleared, through the MDC (R267). -/
def setDirty (c : Chip) (p : Nat) (on : Bool) : Chip :=
  if c.trm.dirty.contains p == on then c
  else
    let d := { c with trm := { c.trm with dirty := if on then insertN c.trm.dirty p else dropN c.trm.dirty p } }
    match c.frameOf (p / 32) with
    | some f => (d.mdcTouch (c.dirtyLine f) true).mapBits c p
    | none => d

/-- The patch blocks of a parcel, chained from the patch index (R286). -/
def patchChain (c : Chip) (p : Nat) : List Nat := c.trm.patchChains.get (fun _ => []) p

/-- The patch blocks in use. -/
def patchUsed (c : Chip) : Nat := (c.trm.patchChains.map fun x => x.2.length).sum

/-- PATCH_FREE (R307). -/
def patchFree (c : Chip) : Nat := c.patchBlocks - c.patchUsed

/-- The lowest free patch block. -/
def freeBlock (c : Chip) : Option Nat :=
  (List.range (c.patchUsed + 1)).find? fun n => decide (n < c.patchBlocks) && !c.trm.patchChains.any fun x => x.2.contains n

/-- Chains for the patch lines that a restore brings back: each parcel takes the lowest free blocks for its lines (R286). -/
def chainAll (c : Chip) : Chip :=
  ((c.trm.patchLines.map fun l => l / 65536).eraseDups).foldl (fun c p =>
    Nat.repeat (fun c => { c with trm := { c.trm with patchChains := c.trm.patchChains.set (fun _ => []) p (c.patchChain p ++ c.freeBlock.toList) } })
      (((c.patchOf p).length + 61) / 62) c) { c with trm := { c.trm with patchChains := [] } }

/-- Whether the set of a parcel in the patch index is full of other parcels (R287). -/
def indexFull (c : Chip) (p : Nat) : Bool :=
  (c.patchChain p).isEmpty && decide ((c.trm.patchChains.filter fun x => c.patchSet x.1 == c.patchSet p).length ≥ 16)

/-- The offset in the layout at which a patch line lies, in its block behind a header of 128 B: lines take their places as they land. -/
def patchOff (c : Chip) (a : Nat) : Nat :=
  let p := parcelOf a
  let ls := c.patchOf p
  let n := if ls.contains a then ls.length - 1 - ls.findIdx (fun l => l == a) else ls.length
  c.regionBase 16 + ((c.patchChain p)[n / 62]?).getD (c.freeBlock.getD 0) * 4096 + 128 + n % 62 * 64

/-- The frames that extents hold, those being freed or zeroed, and those out of the pool. -/
def usedFrames (c : Chip) : List Nat :=
  (c.trm.ext.filterMap fun x => x.2.frame) ++ c.trm.freeing.map (·.1) ++ c.trm.zeroing ++ c.trm.leaked ++ c.cbl.framesRetired

/-- POOL_FREE (R304). -/
def poolFree (c : Chip) : Nat := c.frameCount - c.awayFrames - (c.usedFrames.filter fun f => !c.frameAway f).length

/-- Whether a 4 MiB range is READY (R269). -/
def rangeReady (c : Chip) (r : Nat) : Bool := c.trm.ready.get (fun _ => false) r

/-- The range of a frame. -/
def rangeOf (c : Chip) (f : Nat) : Nat := c.poolRange + f / 2

/-- A range becomes READY, in the fill state too (R264, R269). -/
def setReady (c : Chip) (r : Nat) : Chip :=
  { c with trm := { c.trm with
    ready := c.trm.ready.set (fun _ => false) r true
    fillAhead := dropN c.trm.fillAhead r } }.mdcTouch (c.fillLine r) true

/-- Something waits for an UNFILLED range, which the fill engine fills ahead of its walk (R269). -/
def wantRange (c : Chip) (r : Nat) : Chip :=
  { c with trm := { c.trm with fillAhead := if c.trm.fillAhead.contains r then c.trm.fillAhead else c.trm.fillAhead ++ [r] } }.cnt
    K.TIER_FILL_WAITS

/-- A free frame: from a READY range while any are free, the lowest number first (R269). -/
def freeFrame (c : Chip) : Option Nat :=
  let used := c.usedFrames
  let n := c.frameCount
  let ready := (c.trm.ready.filter fun x => x.2).flatMap fun x =>
    if c.poolRange ≤ x.1 then [2 * (x.1 - c.poolRange), 2 * (x.1 - c.poolRange) + 1] else []
  let free (f : Nat) : Bool := decide (f < n) && !used.contains f && !c.frameAway f
  match ready.find? free with
  | some f => some f
  | none => (List.range (if c.awayRanks.isEmpty then min n (used.length + 1) else n)).find? free

/-- The frames of a domain in use: counted from START until the frame is freed (R291). -/
def domUse (c : Chip) (d : Nat) : Nat :=
  (c.trm.ext.filter fun x => x.2.frame.isSome && c.inDomain d (x.1 * 2 ^ 21)).length
    + (c.trm.freeing.filter fun x => c.inDomain d (x.2 * 2 ^ 21)).length

/-- The pinned frames of a domain (R291). -/
def domPinned (c : Chip) (d : Nat) : Nat :=
  (c.trm.ext.filter fun x => x.2.frame.isSome && c.inDomain d (x.1 * 2 ^ 21) && c.policy x.1 == 0).length

/-- A frame leaves its extent: it is freed once the last request that uses it has finished (R263). -/
def releaseFrame (c : Chip) (e : Nat) : Chip :=
  match c.frameOf e with
  | none => c
  | some f =>
    let c := (parcelsOf e).foldl (fun c p => c.setDirty p false) c
    let c := c.mapExt e fun x => { x with frame := none }
    { c with trm := { c.trm with freeing := c.trm.freeing ++ [(f, e)] } }

/-- A free frame goes to an extent, where there is one: zeroed when it was freed (R263). -/
def takeFrame (c : Chip) (e : Nat) : Chip :=
  match c.freeFrame with
  | none => c
  | some f =>
    let c := { c with trm := { c.trm with
      front := clearBytes c.trm.front (e * 2 ^ 21) (2 ^ 21)
      frontPoison := c.trm.frontPoison.filter fun l => extentOf l != e } }
    let c := c.mapExt e fun x => { x with frame := some f }
    if c.rangeReady (c.rangeOf f) then c else c.wantRange (c.rangeOf f)

/-! ## The view of a line by tier -/

/-- Where a line is read from. -/
inductive Tier where
  | zero | front | frontPatched | back
  deriving DecidableEq, Repr

/-- Whether the parcel of a line is copied or packed in the migration that runs (R281, R282). -/
def stepDone (c : Chip) (dpa : Nat) : Bool := c.trm.stepDone.contains (parcelOf dpa)

/-- Where a line is read from, by the extent state in force (R263, R268, R281, R282). -/
def tierOf (c : Chip) (dpa : Nat) : Tier :=
  let e := c.ext (extentOf dpa)
  let behind : Tier :=
    if c.trm.patchLines.contains (lineBase dpa) || (c.parcel (parcelOf dpa)).state == 1 then .back else .zero
  match e.state with
  | 0 => .zero
  | 1 => behind
  | 2 => if e.frame.isSome then .front else behind
  | 3 => if e.frame.isSome && c.stepDone dpa then .front else behind
  | _ => if c.stepDone dpa then .frontPatched else .front

/-- The line a parcel's packed copy and patch lines give, with its poison. -/
def backLine (c : Chip) (dpa : Nat) : Line × Bool :=
  let a := lineBase dpa
  if c.trm.patchLines.contains a then (readLine c.trm.patch a, c.trm.patchPoison.contains a)
  else if (c.parcel (parcelOf dpa)).state = 1 then (readLine c.trm.packed a, c.trm.packedPoison.contains a)
  else (0, false)

/-- Whether a line is marked lost: its extent was, and no whole line without poison has been written there since (R138, R403). -/
def lostLine (c : Chip) (dpa : Nat) : Bool := (c.ext (extentOf dpa)).lost && !c.trm.healed.contains (lineBase dpa)

/-- The line as its tier holds it, with the poison it was stored with. -/
def storedLine (c : Chip) (dpa : Nat) : Line × Bool :=
  let a := lineBase dpa
  match c.tierOf dpa with
  | .zero => (0, false)
  | .front => (readLine c.trm.front a, c.trm.frontPoison.contains a)
  | .frontPatched =>
    if c.trm.patchLines.contains a then (readLine c.trm.patch a, c.trm.patchPoison.contains a)
    else (readLine c.trm.front a, c.trm.frontPoison.contains a)
  | .back => c.backLine dpa

/-- The line as its tier holds it, with its poison. -/
def tierLine (c : Chip) (dpa : Nat) : Line × Bool := ((c.storedLine dpa).1, (c.storedLine dpa).2 || c.lostLine dpa)

/-- Whether a drain of a line lands as a patch line (R286). -/
def landsAsPatch (c : Chip) (dpa : Nat) : Bool :=
  match (c.ext (extentOf dpa)).state with
  | 1 => true
  | 3 => !((c.ext (extentOf dpa)).frame.isSome && c.stepDone dpa)
  | 4 => c.stepDone dpa
  | _ => false

/-- Lists with a line in or out of them. -/
def setPoison (l : List Nat) (a : Nat) (on : Bool) : List Nat := if on then insertN l a else dropN l a

/-- A line written with good data in an extent whose contents are lost is healed (R138, R403). -/
def healLine (c : Chip) (dpa : Nat) (poison : Bool) : Chip :=
  if (c.ext (extentOf dpa)).lost && !poison then { c with trm := { c.trm with healed := insertN c.trm.healed (lineBase dpa) } } else c

/-- A line enters the patch area (R286). -/
def storePatch (c : Chip) (dpa : Nat) (l : Line) (poison : Bool) : Chip :=
  let a := lineBase dpa
  let p := parcelOf dpa
  let fresh := !c.trm.patchLines.contains a
  let born := if (c.patchOf p).isEmpty then c.mde.patchBorn.set (fun _ => 0) p (c.round + 1) else c.mde.patchBorn
  let chain := if fresh && (c.patchOf p).length ≥ 62 * (c.patchChain p).length then c.patchChain p ++ c.freeBlock.toList else c.patchChain p
  let d := { c with
    trm := { c.trm with
      patch := writeLine c.trm.patch a l allBytes
      patchPoison := setPoison c.trm.patchPoison a poison
      patchLines := insertN c.trm.patchLines a
      patchChains := c.trm.patchChains.set (fun _ => []) p chain }
    mde := { c.mde with patchBorn := born } }
  if fresh then (d.mapBits c p).cnt K.PCH_PATCH_LINES else d

/-- A line enters its frame, whose parcel becomes dirty (R284). -/
def storeFront (c : Chip) (dpa : Nat) (l : Line) (poison : Bool) : Chip :=
  let a := lineBase dpa
  let c := { c with trm := { c.trm with
    front := writeLine c.trm.front a l allBytes
    frontPoison := setPoison c.trm.frontPoison a poison } }
  c.setDirty (parcelOf dpa) true

/-- Writes a whole line to the tier that the extent state in force names (R130, R286), poisoned or not (R138). -/
def storeLine (c : Chip) (dpa : Nat) (l : Line) (poison : Bool) : Chip :=
  let c := c.healLine dpa poison
  if c.landsAsPatch dpa then c.storePatch dpa l poison else c.storeFront dpa l poison

/-- Frees patch lines of a parcel, and the record of when its oldest landed once none is left. -/
def dropPatch (c : Chip) (p : Nat) (ls : List Nat) : Chip :=
  let left := (c.patchOf p).filter fun l => !ls.contains l
  let d := { c with trm := { c.trm with
    patchLines := c.trm.patchLines.filter fun l => !ls.contains l
    patchPoison := c.trm.patchPoison.filter fun l => !ls.contains l
    patch := ls.foldl (fun t l => clearBytes t l 64) c.trm.patch
    patchChains := c.trm.patchChains.set (fun _ => []) p ((c.patchChain p).take ((left.length + 61) / 62)) } }
  let d := if left.isEmpty then { d with mde := { d.mde with patchBorn := d.mde.patchBorn.erase p } } else d
  d.mapBits c p

/-- A new packed copy of a parcel is recorded (R266): the bytes and poison of `src` become the packed content; GEN advances; a parcel of
zeros takes no media. -/
def recordCopy (c : Chip) (p plen loc : Nat) (bytes : List Host.Cell) (poison : List Nat) : Chip :=
  let lo := p * 65536
  let zero := (Table.entries (fun k => decide (lo ≤ k) && decide (k < lo + 65536)) bytes).isEmpty && poison.isEmpty
  let c := { c with trm := { c.trm with
    packed := copyBytes bytes c.trm.packed lo 65536
    packedPoison := (c.trm.packedPoison.filter fun l => l / 65536 != p) ++ poison } }
  let g := ((c.parcel p).gen + 1) % 256
  c.setParcel p (if zero then { state := 2, plen := 0, loc := 0, gen := g } else { state := 1, plen, loc, gen := g })

/-- The age code of the present Round (R265). -/
def ageNow (c : Chip) : Nat := (c.round >>> c.cfg F.TIER_AUTO_CFG_AGE_SHIFT) % 256

/-- A host access reaches an extent: AGE, and TOUCHED while an eviction is pending (R265, R293). -/
def touchExtent (c : Chip) (e : Nat) : Chip :=
  let x := c.ext e
  if x.state = 0 then c
  else if x.age = c.ageNow && (x.touched || !x.pending) then c
  else c.mapExt e fun x => { x with age := c.ageNow, touched := x.touched || x.pending }

/-! ## Map entries as they stand in reserved DRAM (R265, R266) -/

/-- The Extent Map entry of an extent as a number of 64 bits (R265). -/
def extWord (c : Chip) (e : Nat) : Nat :=
  let x := c.ext e
  let o := c.objectOf e
  x.state + 2 ^ 3 * bit (c.clean e) + 2 ^ 4 * bit x.pending + 2 ^ 5 * bit x.window + 2 ^ 6 * bit (c.patched e) + 2 ^ 7 * c.policy e +
    2 ^ 9 * (if x.state ≥ 2 then x.frame.getD 0 else 0) + 2 ^ 31 * bit o.isSome + 2 ^ 32 * (o.elim 0 (·.1)) + 2 ^ 52 * (x.age % 256) +
    2 ^ 60 * bit x.touched

/-- The Parcel Map entry of a parcel as a number of 64 bits (R266). -/
def parcelWord (c : Chip) (p : Nat) : Nat :=
  let x := c.parcel p
  x.state + 2 ^ 2 * bit (!(c.patchOf p).isEmpty) + (if x.state = 1 then 2 ^ 4 * x.plen + 2 ^ 16 * x.loc else 0) + 2 ^ 56 * (x.gen % 256)

/-! ## Unsaved bytes (R381) -/

/-- The bytes of the WMB term. -/
def unsavedWmb (c : Chip) : Nat := 128 * c.wmb.length

/-- The column of data cell `x` of a row (R341), by the columns that were live when the row was opened and its data cells in a unit. -/
def cellColumn (r data live x : Nat) : Nat :=
  let cols := (List.range 32).filter fun k => live.testBit k
  cols.getD ((x / data * (data + 4) + x % data + r) % max 1 cols.length) 0

/-- The cells of a staged copy that wait for the program of their column. -/
def stagedCells (c : Chip) (x : Staged) : Nat :=
  let r := c.mde.rows.get (fun _ => {}) x.row
  ((List.range x.cells).filter fun i => x.left.testBit (cellColumn x.row r.data r.live (x.cell + i))).length

/-- The bytes of the staging term: cells not yet programmed with pass status. -/
def unsavedStaging (c : Chip) : Nat := 512 * (c.mde.staged.map c.stagedCells).sum

/-- The bytes of the patch term. -/
def unsavedPatch (c : Chip) : Nat := 4096 * c.patchUsed

/-- The bytes of the frame term. -/
def unsavedFrame (c : Chip) : Nat := 65536 * c.trm.dirty.length

/-- The bytes of the metadata term. -/
def unsavedMeta (c : Chip) : Nat := 256 * (c.mdc.lines.filter fun x => x.2.dirty).length + c.svc.journalTail + 80 * 2 ^ 20

/-- SVC.UNSAVED in bytes. -/
def unsaved (c : Chip) : Nat := c.unsavedWmb + c.unsavedStaging + c.unsavedPatch + c.unsavedFrame + c.unsavedMeta

end Chip

end Sys2Proof.Machine
end

