-- ==== Sys2Proof/Machine/Wmb.lean ====
section
/-! DEFINITION. The Write Merge Buffer of one chip: entries, charges, watermarks, and the responses of the home (R74, R78, R123 to R139,
R173 to R178). -/
namespace Sys2Proof.Machine

/-! ## Stream positions (R173) -/

/-- Whether position `a` is later than `b`, modulo 2^40. -/
def posLater (a b : Nat) : Bool := decide (a % 2 ^ 40 ≠ b % 2 ^ 40) && decide ((a + 2 ^ 40 - b % 2 ^ 40) % 2 ^ 40 < 2 ^ 39)

/-- Whether flit count `a` comes after `b` (R173): both count modulo 2^36. -/
def flitLater (a b : Nat) : Bool := decide (a % 2 ^ 36 ≠ b % 2 ^ 36) && decide ((a + 2 ^ 36 - b % 2 ^ 36) % 2 ^ 36 < 2 ^ 35)

/-- The later of two flit counts. -/
def flitMax (a b : Nat) : Nat := if flitLater b a then b else a

/-- Whether a watermark covers a position. -/
def covers (wm : Option Nat) (pos : Nat) : Bool := match wm with | none => false | some w => !posLater pos w

/-- Whether a request is a write. -/
def isWrite (k : ReqKind) : Bool :=
  match k with
  | .memWr | .memWrPtl => true
  | _ => false

/-- The bytes a write writes: all 64 for MemWr, those enabled for MemWrPtl (R125). -/
def reqMask (r : Request) : BitVec 64 := match r.kind with | .memWr => allBytes | _ => r.enables

namespace Chip

/-! ## From host addresses to device physical addresses (R74) -/

/-- A decoder of a head. -/
def decoder (c : Chip) (h : Fin 24) (n : Nat) : Decoder := (c.head h).decoders.get (fun _ => {}) n

/-- The DPA at which decoder `n` of a head ends. -/
def decoderEnd (c : Chip) (h : Fin 24) : Nat → Nat
  | 0 => let x := (c.decoder h 0).cfg; x.skip + x.hpaSize / max 1 x.ways
  | n + 1 => let x := (c.decoder h (n + 1)).cfg; c.decoderEnd h n + x.skip + x.hpaSize / max 1 x.ways

/-- The first DPA of decoder `n` of a head. -/
def decoderBase (c : Chip) (h : Fin 24) (n : Nat) : Nat :=
  let x := (c.decoder h n).cfg
  match n with
  | 0 => x.skip
  | m + 1 => c.decoderEnd h m + x.skip

/-- The committed decoder of a head that holds a host address. -/
def decoderFor (c : Chip) (h : Fin 24) (hpa : Nat) : Option Nat :=
  (List.range 16).find? fun n =>
    let x := c.decoder h n
    x.committed && decide (x.cfg.hpaBase ≤ hpa) && decide (hpa < x.cfg.hpaBase + x.cfg.hpaSize)

/-- The DPA of a host address, where a committed decoder holds it: with several ways, one granule in each `ways` is this device's. -/
def decodeHpa (c : Chip) (h : Fin 24) (hpa : Nat) : Option Nat :=
  match c.decoderFor h hpa with
  | none => none
  | some n =>
    let x := (c.decoder h n).cfg
    let off := hpa - x.hpaBase
    let g := max 1 x.gran
    some (c.decoderBase h n + off / (g * max 1 x.ways) * g + off % g)

/-! ## Entries and charges -/

/-- The WMB entry of a line. -/
def wmbEntry (c : Chip) (line : Nat) : WmbEntry := c.wmb.get (fun _ => {}) (line / 64)

/-- The chip with the WMB entry of a line replaced. -/
def setWmb (c : Chip) (line : Nat) (e : WmbEntry) : Chip := { c with wmb := c.wmb.set (fun _ => {}) (line / 64) e }

/-- Whether the WMB holds a line. -/
def wmbHolds (c : Chip) (line : Nat) : Bool := (c.wmbEntry line).state != .free

/-- The charge of a line. -/
def charge (c : Chip) (line : Nat) : Charge := c.charges.get (fun _ => {}) (line / 64)

/-- The chip with the charge of a line replaced. -/
def setCharge (c : Chip) (line : Nat) (x : Charge) : Chip := { c with charges := c.charges.set (fun _ => {}) (line / 64) x }

/-- The lines charged to this chip as home (R129). -/
def charged (c : Chip) : Nat := (c.charges.filter fun x => x.2.active && c.isHome (portOf x.2.head)).length

/-- SHARE in force (R129). -/
def share (c : Chip) : Nat := if c.serving || c.mode == mISOLATED then 259072 else 129536

/-- Whether the home must hold a write: its line is not in the WMB and its charge has reached SHARE (R129, condition 4 of R113). -/
def wmbFull (c : Chip) (line : Nat) : Bool := !c.wmbHolds line && decide (c.charged ≥ c.share)

/-- Whether a HOLD stops admission of writes to a line (R211). -/
def heldLine (c : Chip) (line : Nat) : Bool := c.twe.holds.contains (lineBase line)

/-- Bytes enter the WMB (R125 to R128, R138): they open, merge into or mark for redrain the entry of their line; the extent is marked in
the risk map and in the change map, and a first write waits for the keeper (R262). -/
def wmbMerge (c : Chip) (line : Nat) (data : Line) (en : BitVec 64) (poison : Bool) (full : Bool) : Chip :=
  let a := lineBase line
  let e := c.wmbEntry a
  let x := extentOf a
  let c := if poison then c.cnt K.WMB_POISON_WRITES else c
  let bad := poison || (e.poison && !full)
  let c := match e.state with
    | .free =>
      let c := { c with wmbAge := c.wmbAge + 1 }
      c.setWmb a { state := .valid, data := mergeLine 0 data en, mask := en, poison := bad, age := c.wmbAge, whole := full && !poison }
    | _ => (c.setWmb a { e with
        data := mergeLine e.data data en
        mask := e.mask ||| en
        poison := bad
        whole := e.whole || (full && !poison)
        eligible := false
        redrain := e.redrain || e.state == WmbState.draining }).cnt K.WMB_MERGES
  let c := if c.svc.risk.contains x then c else
    { c with svc := { c.svc with risk := x :: c.svc.risk, riskChanged := true } }
  let c := if (c.ext x).state = 0 then { c with trm := { c.trm with firstWrites := c.trm.firstWrites.filter (· != x) ++ [x] } } else c
  (c.markChange x).touchExtent x

/-- A host's write enters the WMB, and a line it opens is charged to it (R129). A write that enables no byte changes nothing, poison or not: R126
says so, R138 speaks of a write received with poison, and the model follows R126 (DESIGN CHOICE, log 96). -/
def wmbWrite (c : Chip) (h : Fin 24) (pos line : Nat) (data : Line) (en : BitVec 64) (poison : Bool) (full : Bool) : Chip :=
  let c := c.cnt (if full then K.WMB_WRITES_FULL else K.WMB_WRITES_PARTIAL)
  if en = 0 then c
  else
    let c := if c.wmbHolds (lineBase line) then c else c.setCharge (lineBase line) { head := h, pos, here := false, active := true }
    c.wmbMerge line data en poison full

/-- The full view of a line: WMB bytes over the tier's (R123, R211). A line stored poisoned reads so until a MemWr without poison has written it
whole, even where partial writes have come to hold all its bytes (R138). -/
def fullLine (c : Chip) (line : Nat) : Line × Bool :=
  let t := c.tierLine line
  let e := c.wmbEntry line
  if e.state = .free then t
  else (mergeLine t.1 e.data e.mask, e.poison || (t.2 && !e.whole))

/-! ## Watermarks (R175, R176) -/

/-- A carbon sends WRITE_WM of a link, where it moves forward. -/
def sendWriteWm (c : Chip) (h : Fin 24) (pos : Nat) : Chip :=
  let c := c.mapHead h fun x => { x with lastStored := some pos }
  if covers (c.head h).lastWmSent pos || !c.posts then c
  else (c.post (.writeWm h pos)).mapHead h fun x => { x with lastWmSent := some pos }

/-- The position up to which every line charged by a write of the link is FREE here: just before the oldest that is not, or the last
stored. -/
def drainedTo (c : Chip) (h : Fin 24) : Option Nat :=
  (c.charges.filter fun x => x.2.active && x.2.head == h).foldl (fun a x =>
    match a with
    | none => none
    | some p => if posLater x.2.pos p then some p else if x.2.pos = 0 then none else some (x.2.pos - 1)) (c.head h).lastStored

/-- A carbon sends DRAIN_WM of a link, where it moves forward. -/
def sendDrainWm (c : Chip) (h : Fin 24) : Chip :=
  match c.drainedTo h with
  | none => c
  | some p =>
    if covers (c.head h).lastDrainWm p || !c.posts then c
    else (c.post (.drainWm h p)).mapHead h fun x => { x with lastDrainWm := some p }

/-- A line's charge after this chip freed the line: gone on the carbon, which reports it, and on the home once the peer has freed the
line too or does not mirror (R129). -/
def releaseHere (c : Chip) (line : Nat) : Chip :=
  let x := c.charge line
  if !x.active then c
  else if c.isHome (portOf x.head) then
    if !c.mirrored || covers (c.head x.head).peerDrained x.pos then c.setCharge line {}
    else c.setCharge line { x with here := true }
  else (c.setCharge line {}).sendDrainWm x.head

/-! ## Tags and responses -/

/-- The chip with the tags of a condition changed. -/
def mapTags (c : Chip) (p : Tag → Bool) (f : Tag → Tag) : Chip := { c with tags := c.tags.map fun t => if p t then f t else t }

/-- Whether two requests are one: a head's position names it. -/
def sameTag (a b : Tag) : Bool := a.req.head == b.req.head && a.req.pos == b.req.pos

/-- The chip with a tag replaced. -/
def setTag (c : Chip) (t : Tag) : Chip := c.mapTags (sameTag t) fun _ => t

/-- The chip without a tag. -/
def dropTag (c : Chip) (t : Tag) : Chip := { c with tags := c.tags.filter fun x => !sameTag t x }

/-- Answers a read: data and poison, with POISON_SENT where poisoned (R137); the tag is freed. A shadow entry is closed by the carbon
lanes instead (R115). -/
def respondData (c : Chip) (t : Tag) (data : Line) (poison : Bool) : Chip :=
  if !t.isTag then c.setTag { t with stage := .done }
  else
    let h := t.req.head
    let c := if poison then (c.cnt K.SRT_POISON_SENT).raise F.SRT_EV_POISON_SENT else c
    ((c.dropTag t).toHost h (.memData t.req.pos t.dpa data poison t.grant)).cnt (K.HLNK_MEM_READS h.val)

/-- Answers a write or an invalidate; the tag is freed. -/
def respondCmp (c : Chip) (t : Tag) : Chip :=
  if !t.isTag then c.setTag { t with stage := .done }
  else
    let h := t.req.head
    let c := (c.dropTag t).toHost h (.cmp t.req.pos t.grant)
    if isWrite t.req.kind then c.cnt (K.HLNK_MEM_WRITES h.val) else c

/-- Whether completion waits for the peer: the pair is mirrored, and the domain, its local-mode stall or a directory order asks for it
(R131, R134, R135, R248). -/
def needsPeer (c : Chip) (t : Tag) : Bool :=
  c.mirrored && (match c.domainOf t.dpa with
    | some d => !c.localMode d || c.commons d || c.localStall.contains (portOf t.req.head).val
    | none => true)

/-- Completes a write whose bytes are in this chip's WMB: at once, or when the peer's watermark covers it (R131, R134, R135). -/
def completeWrite (c : Chip) (t : Tag) : Chip :=
  let pos := t.req.pos.code
  if c.needsPeer t && !covers (c.head t.req.head).covered pos then c.setTag { t with stage := .writeWm }
  else if c.mirrored || !t.isTag then
    (c.mapHead t.req.head fun x => { x with localPos := some pos }).respondCmp t
  else
    let twinAck := match c.domainOf t.dpa with | some d => !c.localMode d | none => true
    if !twinAck then c.respondCmp t
    else
      let c := if c.unmirrored then c else { c with unmirrored := true }.raise F.WMB_EV_UNMIRRORED
      (c.cnt K.WMB_UNMIRRORED_CMPL).respondCmp t

/-! ## The geometry and the busy LUNs of the Last (R340, R348) -/

/-- The user bytes of a block. -/
def blockBytes (c : Chip) : Nat := c.mde.scan.blockMib * 2 ^ 20

/-- CB of R342. -/
def geomCb (c : Chip) : Nat := Nat.log2 c.blockBytes - 4

/-- The row that a parcel's copy lies in. -/
def rowOfLoc (c : Chip) (loc : Nat) : Nat := loc >>> c.geomCb

/-- The position of a row. -/
def posOf (c : Chip) (r : Nat) : Nat := r % max 1 c.mde.scan.positions

/-- MODULE_m.STATE (R368). -/
def modState (c : Chip) (m : Nat) : Nat := c.get (F.MOD_MODULE_STATE m)

/-- Whether a column is present at a position: its LUN neither retired nor in a module that is out (R348). -/
def colPresent (c : Chip) (u k : Nat) : Bool := c.modState (k / 4) == 1 && !c.mde.retiredLuns.contains (k * 32 + u)

/-- The columns of a row that a read may use. -/
def presentCols (c : Chip) (y : MdeRow) (u : Nat) : List Nat :=
  (List.range 32).filter fun k => y.live.testBit k && !y.lost.testBit k && c.colPresent u k

/-- The skip margin of a position (R348): the present columns, less D, of its least redundant row; 4 where it has no row. -/
def skipMargin (c : Chip) (u : Nat) : Nat :=
  ((c.mde.rows.filter fun x => c.posOf x.1 == u && (x.2.state == 1 || x.2.state == 2)).map fun x =>
    (c.presentCols x.2 u).length - x.2.data).foldl min 4

/-- The operations at a position that may no longer be suspended: suspended SUSPEND_MAX times, at a margin above 0 (R348). -/
def unsuspendable (c : Chip) (u : Nat) : Nat :=
  if c.skipMargin u = 0 then 0 else (c.mde.busy.filter fun o => o.pos == u && decide (o.suspends ≥ c.cfg F.MDE_MDE_CFG_SUSPEND_MAX)).length

/-- Whether an operation may be suspended once more: below SUSPEND_MAX, and, where that would be its last time, while fewer operations of its
position than the skip margin have come to that; at a margin of 0, always (R348). -/
def maySuspend (c : Chip) (o : BusyOp) : Bool :=
  let top := c.cfg F.MDE_MDE_CFG_SUSPEND_MAX
  !o.suspended && (c.skipMargin o.pos == 0 ||
    (decide (o.suspends < top) && (decide (o.suspends + 1 < top) || decide (c.unsuspendable o.pos < c.skipMargin o.pos))))

/-- The operation with the least time left among those of a condition. -/
def leastLeft (c : Chip) (p : BusyOp → Bool) : Option BusyOp :=
  (c.mde.busy.filter p).foldl (fun a o => match a with | none => some o | some b => if o.ends < b.ends then some o else some b) none

/-- One operation that stands in a read's way at a position is suspended: the one with the least time left (R348). -/
def suspendOne (u : Nat) (cols : List Nat) (c : Chip) : Chip :=
  match c.leastLeft fun o => o.pos == u && cols.contains o.col && c.maySuspend o with
  | none => c
  | some o =>
    let capped := decide (o.suspends ≥ c.cfg F.MDE_MDE_CFG_SUSPEND_MAX)
    let mark (x : BusyOp) : BusyOp := if x = o then { x with suspended := true, suspends := x.suspends + 1 } else x
    let c := { c with mde := { c.mde with busy := c.mde.busy.map mark } }.cnt (K.CHN_SUSPENDS o.col)
    if capped then c.cnt K.MDE_SUSPENDS_OVER_CAP else c

/-- A read of a row that finds fewer than D usable columns suspends as many operations as it needs (R347, R348). -/
def suspendFor (c : Chip) (r : Nat) : Chip :=
  let u := c.posOf r
  let y := c.mde.rows.get (fun _ => {}) r
  let cols := c.presentCols y u
  let usable := cols.filter fun k => !c.mde.busy.any fun o => o.pos == u && o.col == k && !o.suspended
  Nat.repeat (suspendOne u cols) (y.data - usable.length) c

/-- Operations of a position go on once no read of it is in progress (R348). -/
def resumeAt (c : Chip) (u : Nat) : Chip :=
  if c.mde.direct.any fun x => c.posOf (c.rowOfLoc x.2) == u then c
  else
    let wake (o : BusyOp) : BusyOp := if o.pos = u then { o with suspended := false } else o
    { c with mde := { c.mde with busy := c.mde.busy.map wake } }

/-! ## Bridging (R178) -/

/-- Whether the peer follows this chip's links: mirrored, or a joiner that the survivor brings up to date. -/
def followed (c : Chip) : Bool :=
  c.mirrored || (c.serving && (match c.twe.peerFrame with | some f => f.mode == mJOINING | none => false))

/-- Whether this Round's share of the link's payload has room for one more BRIDGE envelope (R164, R178): SHARE_PCT of 767,200 B in a Round with 16
active lanes. -/
def bridgeRoom (c : Chip) : Bool :=
  decide ((c.twe.bridgeSent + 232) * 1600 ≤ 767200 * c.get F.CXK_LINK_LANES * c.cfg F.PMK_BRIDGE_CFG_SHARE_PCT)

/-- Writes that wait to be bridged go out, two to an envelope, as far as the share allows; a single one goes where `all` holds. -/
def pumpBridge (c : Chip) (all : Bool) : Nat → Chip
  | 0 => c
  | n + 1 =>
    let k := if c.twe.bridgeQ.length ≥ 2 then 2 else if all then c.twe.bridgeQ.length else 0
    if k = 0 || !c.bridgeRoom then c
    else
      let xs := c.twe.bridgeQ.take k
      ({ c with twe := { c.twe with bridgeQ := c.twe.bridgeQ.drop k, bridgeSent := c.twe.bridgeSent + 232 } }.send (.bridge xs)).pumpBridge all n

/-- The home bridges a write of a link that its carbon does not track. -/
def bridgeWrite (c : Chip) (r : Request) (dpa : Nat) : Chip :=
  if !c.followed || (c.head r.head).peerTracks then c
  else
    let x : BridgedWrite := ⟨r.head, r.pos, dpa, reqMask r, r.data, r.poison⟩
    let c := { c with twe := { c.twe with bridgeQ := c.twe.bridgeQ ++ [x] } }
    ((c.cnt K.PMK_BRIDGED_WRITES).raise F.PMK_EV_BRIDGING).pumpBridge false 1

/-- A Round has a new share, and no write waits for a second one to go with it. -/
def bridgeRound (c : Chip) : Chip :=
  let c := { c with twe := { c.twe with bridgeSent := 0 } }
  if c.followed then c.pumpBridge true c.twe.bridgeQ.length else { c with twe := { c.twe with bridgeQ := [] } }

end Chip

end Sys2Proof.Machine
end

