-- ==== Sys2Proof/Machine/Path.lean ====
section
/-! DEFINITION. The path of a read on its home: translation, the tier that serves it, the parcel cache, and hits (R122 to R124, R268, R269,
R276, R280, R288 to R290, R296, R297). -/
namespace Sys2Proof.Machine

namespace Chip

/-! ## The placement keeper, migrations and hits (R276, R280, R284) -/

/-- Whether this chip is the placement keeper (R280). -/
def isKeeper (c : Chip) : Bool :=
  c.up && (if c.mirrored then c.cfg F.TIER_TRM_CFG_KEEPER == c.rst.twinId else c.serving)

/-- Whether a migration of an extent is queued or in a slot. -/
def migrating (c : Chip) (e : Nat) (promote : Bool) : Bool :=
  (c.trm.queue ++ c.trm.slots).any fun m => m.extent == e && m.promote == promote && m.cls != 6

/-- Queues a migration at the end of its class (R284). -/
def queueMig (c : Chip) (cls e : Nat) (promote : Bool) : Chip :=
  if c.migrating e promote then c
  else { c with trm := { c.trm with queue := c.trm.queue ++ [{ cls, extent := e, promote }] } }

/-- An extent of AUTO policy earns a hit; at HITS the keeper queues its promotion (R276). -/
def earnHit (c : Chip) (e : Nat) : Chip :=
  let x := c.ext e
  if !c.isKeeper || c.policy e != 2 || (x.state != 1 && x.state != 4) then c
  else
    let n := c.trm.hits.get (fun _ => 0) e + 1
    let c := { c with trm := { c.trm with hits := c.trm.hits.set (fun _ => 0) e n } }
    if n = c.cfg F.TIER_AUTO_CFG_HITS then c.queueMig 4 e true else c

/-! ## The parcel cache (R288 to R290) -/


/-- Whether the cache holds a parcel at its current GEN. -/
def pcacheHit (c : Chip) (p : Nat) : Bool :=
  (c.parcel p).state == 1 && (c.trm.pcache.get pcacheNone p).1 == (c.parcel p).gen


/-- Stamps a hit. -/
def pcacheUse (c : Chip) (p : Nat) : Chip :=
  let n := c.trm.pcacheStamp + 1
  { c with trm := { c.trm with pcacheStamp := n, pcache := c.trm.pcache.set pcacheNone p ((c.parcel p).gen, n) } }

/-- A parcel's entry is invalidated, where it has one. -/
def pcacheDrop (c : Chip) (p : Nat) : Chip :=
  if c.trm.pcache.get pcacheNone p = (256, 0) then c
  else ({ c with trm := { c.trm with pcache := c.trm.pcache.erase p } }.mdcTouch (c.pcacheLine p) true).cnt K.PCH_PCACHE_INVALIDATED

/-- The slot that a full set gives up: one whose GEN is older than its parcel's, else the one with the oldest last hit. -/
def pcacheVictim (c : Chip) (l : List (Nat × (Nat × Nat))) : Option Nat :=
  match l.find? fun x => x.2.1 != (c.parcel x.1).gen with
  | some x => some x.1
  | none => (l.foldl (fun (a : Option (Nat × (Nat × Nat))) x =>
      match a with | none => some x | some y => if x.2.2 < y.2.2 then some x else some y) none).map (·.1)

/-- The 4 MiB range that the slots of a parcel's set lie in: a set takes 1 MiB (R288, R600). -/
def pcacheRange (c : Chip) (p : Nat) : Nat := (c.regionBase 17 + c.pcacheSet p * 2 ^ 20) / 2 ^ 22

/-- A packed copy is written into its set (R289); it waits for a range that is not filled (R269). `gen` is the GEN under which it was read: a
fill whose parcel has a new one is discarded. -/
def pcacheFillWith (c : Chip) (p gen : Nat) : Chip :=
  if c.pcacheSets = 0 || !c.cfgOn F.PCH_PCACHE_CFG_FILL_EN then c
  else if (c.parcel p).gen ≠ gen || (c.parcel p).state ≠ 1 then c.cnt K.PCH_PCACHE_DISCARDED
  else if !c.rangeReady (c.pcacheRange p) then
    { c with trm := { c.trm with pcacheWaits := c.trm.pcacheWaits.filter (fun (x : Nat × Nat) => x.1 != p) ++ [(p, gen)] } }.wantRange (c.pcacheRange p)
  else
    let mine := c.trm.pcache.filter fun x => c.pcacheSet x.1 == c.pcacheSet p && x.1 != p
    let c := if mine.length < 16 then c else match c.pcacheVictim mine with
      | some v => { c with trm := { c.trm with pcache := c.trm.pcache.erase v } }
      | none => c
    (((c.pcacheUse p).mdcTouch (c.pcacheLine p) true).cnt K.PCH_PCACHE_FILLS).oweBlock .media
      (c.layoutAddr (c.pcacheRange p * 2 ^ 22)) ((c.parcel p).plen * 256)

/-- The fills that waited for a range go on. -/
def pcacheGoOn (c : Chip) (r : Nat) : Chip :=
  let due := c.trm.pcacheWaits.filter fun (x : Nat × Nat) => c.pcacheRange x.1 == r
  due.foldl (fun c x => c.pcacheFillWith x.1 x.2)
    { c with trm := { c.trm with pcacheWaits := c.trm.pcacheWaits.filter fun (x : Nat × Nat) => c.pcacheRange x.1 != r } }

/-! ## The DRAM behind a line -/

/-- The staged copy of a parcel, none of whose cells is programmed yet (R352). -/
def stagedCopy (c : Chip) (p : Nat) : Option Staged :=
  c.mde.staged.find? fun x => x.parcel == p && x.row * 2 ^ c.geomCb + x.cell == (c.parcel p).loc && c.stagedCells x == x.cells

/-- The offset in the layout at which a staged copy lies (R356, R600): copies follow one another in the staging area. -/
def stagedOff (c : Chip) (x : Staged) : Nat :=
  c.regionBase 14 + 512 * ((c.mde.staged.takeWhile fun y => y != x).map fun y => y.cells).sum

/-- The offset in the layout of R600 at which DRAM holds a line, or would: in the patch area where a line is patched or a drain of it lands
there, in the staging area where its copy is staged, else in its frame. -/
def dramOff (c : Chip) (dpa : Nat) : Nat :=
  match c.tierOf dpa, c.frameOf (extentOf dpa) with
  | .front, some f => c.poolRange * 2 ^ 22 + f * 2 ^ 21 + dpa % 2 ^ 21
  | .frontPatched, some f =>
    if c.trm.patchLines.contains (lineBase dpa) then c.patchOff (lineBase dpa) else c.poolRange * 2 ^ 22 + f * 2 ^ 21 + dpa % 2 ^ 21
  | .back, _ =>
    if c.trm.patchLines.contains (lineBase dpa) then c.patchOff (lineBase dpa)
    else match c.stagedCopy (parcelOf dpa) with
      | some x => c.stagedOff x + dpa % 65536 / 64 * 64 % (512 * max 1 x.cells)
      | none => c.patchOff (lineBase dpa)
  | _, _ => c.patchOff (lineBase dpa)

/-- The chip-local DRAM address of a line that DRAM holds. -/
def dramAddr (c : Chip) (dpa : Nat) : Nat := c.layoutAddr (c.dramOff dpa)

/-- Whether DRAM holds a line: in a frame, or as a patch line. -/
def inDram (c : Chip) (dpa : Nat) : Bool :=
  match c.tierOf dpa with
  | .front | .frontPatched => true
  | _ => c.trm.patchLines.contains (lineBase dpa)

/-- The 4 MiB range that a line's DRAM lies in. -/
def lineRange (c : Chip) (dpa : Nat) : Nat := c.dramOff dpa / 2 ^ 22

/-- A request that needs an UNFILLED range waits (R269). -/
def waitFill (c : Chip) (t : Tag) : Chip := (c.wantRange (c.lineRange t.dpa)).setTag { t with stage := .fill }

/-- The maps that a read of a line looks up beside the Extent Map: the Parcel Map, and the patch index where the parcel is patched (R264,
R281, R282, R289). -/
def lookUp (c : Chip) (dpa : Nat) : Chip :=
  let e := c.ext (extentOf dpa)
  let p := parcelOf dpa
  if e.state = 1 ∨ (e.state = 3 ∧ !(e.frame.isSome && c.stepDone dpa)) ∨ (e.state = 4 ∧ c.stepDone dpa) then
    let c := c.mdcTouch (parcelLine p) false
    if (c.patchOf p).isEmpty then c else c.mdcTouch (c.patchLine p) false
  else c

/-- Whether a line lies in a rank out of service whose reads the twin serves (R426). -/
def rankAway (c : Chip) (dpa : Nat) : Bool :=
  let p := c.place (c.dramAddr dpa)
  c.mirrored && (c.chan p.ch).out == some p.rank

/-- A read enters its DMC channel queue (R122), or, while its rank is out of service, takes the repair path with no local read (R426). -/
def readDram (c : Chip) (t : Tag) : Chip :=
  if !c.rangeReady (c.lineRange t.dpa) then c.waitFill t
  else if c.rankAway t.dpa then c.setTag { t with stage := .repair }
  else (c.meetChannel (c.place (c.dramAddr t.dpa)).ch).setTag { t with stage := .dram, issued := false }

/-- Whether the patch index has lost the set of a parcel, and it is being rebuilt (R444). -/
def indexIsLost (c : Chip) (p : Nat) : Bool := c.trm.indexLost.any fun x => x.1 == c.patchSet p

/-- Whether the content of a line is being fetched from the twin, its map entry or its store having been lost (R444, R445). -/
def refetching (c : Chip) (dpa : Nat) : Bool := c.trm.refetch.contains (extentOf dpa) || c.trm.refetchParcels.contains (parcelOf dpa)

/-- Whether this chip cannot serve a read of a line until its maps or its content are back (R444, R445). -/
def cannotServe (c : Chip) (dpa : Nat) : Bool :=
  c.refetching dpa || (c.indexIsLost (parcelOf dpa) && (match c.tierOf dpa with | .back => true | _ => false))

/-- Answers a read from the full view of its line; a commons read with its line as of its order (R248). -/
def serveFull (c : Chip) (t : Tag) : Chip :=
  if t.fixed then c.respondData t t.held t.heldPoison
  else
    let x := c.fullLine t.dpa
    c.respondData t x.1 x.2

/-- A direct-path read of a parcel is issued, to where its copy lies now, and operations in its way are suspended (R347, R348). -/
def readMedia (c : Chip) (t : Tag) : Chip :=
  let p := parcelOf t.dpa
  let c := c.setTag { t with stage := .direct }
  if c.mde.direct.any fun x => x.1 == p then c
  else
    let loc := (c.parcel p).loc
    { c with mde := { c.mde with direct := c.mde.direct ++ [(p, loc)] } }.suspendFor (c.rowOfLoc loc)

/-- A translated read is served by the tier that holds its line (R268, R289); a parcel whose copy is still staged, from the staging area (R352). One
whose maps or content this chip has lost is served from the twin's copy, or waits (R444, R445); one that a save found uncorrectable is repaired
first (R443). -/
def serveRead (c : Chip) (t : Tag) : Chip :=
  let e := extentOf t.dpa
  let p := parcelOf t.dpa
  let c := (c.touchExtent e).lookUp t.dpa
  if c.cannotServe t.dpa then c.setTag { t with stage := if c.mirrored then .repair else .indexWait }
  else if c.trm.repairDue.contains t.dpa then c.setTag { t with stage := .repair }
  else match c.tierOf t.dpa with
  | .zero => (c.cnt K.TIER_ZERO_READS).serveFull t
  | .front => c.readDram t
  | .frontPatched => c.readDram t
  | .back =>
    if c.trm.patchLines.contains (lineBase t.dpa) then c.readDram t
    else
      let c := c.earnHit e
      let c := if c.pcacheSets = 0 then c else c.mdcTouch (c.pcacheLine p) false
      if c.pcacheHit p then
        (((c.pcacheUse p).cnt K.PCH_PCACHE_HITS).oweBlock .media (c.layoutAddr (c.pcacheRange p * 2 ^ 22 + t.dpa % 65536)) 128).serveFull t
      else if (c.stagedCopy p).isSome then (c.cnt K.PCH_PCACHE_MISSES).readDram t
      else (c.cnt K.PCH_PCACHE_MISSES).readMedia t

/-! ## Translation (R296, R297) -/

/-- The misses outstanding in the bank of a line (R295, R297). -/
def bankFills (c : Chip) (line : Nat) : Nat := (c.mdc.fills.filter fun x => c.mdcSet x.1 % 16 == c.mdcSet line % 16).length

/-- Misses that waited for their bank begin, as far as each has fewer than 64 outstanding (R297). -/
def fillsGoOn (c : Chip) : Chip :=
  let q := c.mdc.fillQueue
  q.foldl (fun c l =>
    if c.bankFills l < 64 then
      { c with mdc := { c.mdc with fills := c.mdc.fills ++ [(l, false)], fillQueue := dropN c.mdc.fillQueue l } }.oweBlock .hostRd
        (c.layoutAddr (l * 256)) 256
    else c) c

/-- An access of a translation cache to the MDC: a hit, a return from the eviction buffer, or a miss whose fill begins, or waits for its
bank (R297). -/
def mdcFetch (c : Chip) (line : Nat) : Chip :=
  match c.mdcFind line with
  | some w => (c.mdcRefer (c.mdcSet line) w).cnt K.MDC_HITS
  | none =>
    if c.mdc.evb.contains line then
      ({ c with mdc := { c.mdc with evb := dropN c.mdc.evb line } }.cnt K.MDC_EVB_HITS).mdcInstall line true
    else if (c.mdc.fills.any fun x => x.1 == line) || c.mdc.fillQueue.contains line then c
    else if c.bankFills line < 64 then
      ({ c with mdc := { c.mdc with fills := c.mdc.fills ++ [(line, false)] } }.cnt K.MDC_MISSES).oweBlock .hostRd (c.layoutAddr (line * 256)) 256
    else { c with mdc := { c.mdc with fillQueue := c.mdc.fillQueue ++ [line] } }.cnt K.MDC_MISSES

/-- The lines of a head's translation cache, the most recently used first. -/
def tcLines (c : Chip) (h : Fin 24) : List Nat := c.trm.tc.get (fun _ => []) h.val

/-- Whether a head's translation cache holds an extent's entry. -/
def tcHit (c : Chip) (h : Fin 24) (e : Nat) : Bool :=
  (c.tcLines h).contains (extLine e) && !(c.trm.tcHoles.get (fun _ => []) h.val).contains e

/-- A line becomes the most recently used of a head's cache of 32. -/
def tcUse (c : Chip) (h : Fin 24) (line : Nat) : Chip :=
  { c with trm := { c.trm with tc := c.trm.tc.set (fun _ => []) h.val ((line :: dropN (c.tcLines h) line).take 32) } }

/-- A read is translated: served on a hit; on a miss the line is fetched, and every later translation of the head waits (R296). -/
def translate (c : Chip) (t : Tag) : Chip :=
  let h := t.req.head
  let e := extentOf t.dpa
  match c.trm.tcFill.get (fun _ => none) h.val with
  | some _ => c.setTag { t with stage := .translate }
  | none =>
    if c.tcHit h e then (c.tcUse h (extLine e)).serveRead t
    else
      let c := { c with trm := { c.trm with tcFill := c.trm.tcFill.set (fun _ => none) h.val (some (extLine e)) } }
      (((c.cnt K.MDC_TC_MISSES).tcUse h (extLine e)).mdcFetch (extLine e)).setTag { t with stage := .translate }

/-- A read that nothing holds back begins: from the WMB where it holds all 64 bytes, else by translation (R123). -/
def beginRead (c : Chip) (t : Tag) : Chip :=
  let e := c.wmbEntry t.dpa
  if e.state != .free && e.mask == allBytes then ((c.cnt K.SRT_WMB_FORWARDS).touchExtent (extentOf t.dpa)).serveFull t
  else c.translate t

/-- The tags of a stage and condition, in admission order, each go on under `f`, if they still stand. -/
def continueTags (c : Chip) (p : Tag → Bool) (f : Chip → Tag → Chip) : Chip :=
  (c.tags.filter p).foldl (fun c t =>
    match c.tags.find? (sameTag t) with
    | some t' => if p t' then f c t' else c
    | none => c) c

/-- Whether a tag stands at a stage. -/
def at' (t : Tag) (s : Stage) : Bool := decide (t.stage = s)

end Chip

open Chip

/-! ## The commands -/

/-- MDC_FILL_ARRIVAL (R302): a miss fill arrives and is installed, or is discarded on arrival. -/
def execMdcFillArrival (w : Twin) (line : Nat) (s : State) : Host.Outcome State Fault Refusal :=
  .next (s.onUp w fun c =>
    match c.mdc.fills.find? fun x => x.1 == line with
    | none => c
    | some x =>
      let c := { c with mdc := { c.mdc with fills := c.mdc.fills.filter fun y => y.1 != line } }.fillsGoOn
      if x.2 then c.cnt K.MDC_FILL_DISCARDS else c.mdcInstall line false)

end Sys2Proof.Machine
end

