-- ==== Sys2Proof/Machine/Coherence.lean ====
section
/-! DEFINITION. Commons and coherence on one chip: the sharer directory and its shadow, snoops, the arbiter's order, the follower's, and
the moving of arbitration (R231 to R256). -/
namespace Sys2Proof.Machine

namespace Chip

/-! ## The directory (R234 to R236) -/

/-- Whether this chip arbitrates a domain (R232). -/
def arbiter (c : Chip) (d : Nat) : Bool :=
  c.up && c.commons d && c.domValid d &&
    (if c.mirrored then c.cfg (F.COM_COMMONS_ARBITER d) == c.rst.twinId else c.serving)

/-- A slot of the shadow table is written, through the MDC (R236, R264). -/
def setShadow (c : Chip) (k : Nat) (e : DirEntry) : Chip :=
  { c with che := { c.che with shadow := c.che.shadow.set (fun _ => {}) k (if e.state = 0 then {} else { e with way := 0 }) } }.mdcTouch
    (c.shadowLine k) true

/-- The directory entry of a line, in SRAM or in the shadow table. -/
def dirEntry (c : Chip) (line : Nat) : DirEntry :=
  let e := c.che.sram.get (fun _ => {}) (line / 64)
  if e.state ≠ 0 then e else c.che.shadow.get (fun _ => {}) (line / 64)

/-- Whether a head may hold a line. -/
def present (e : DirEntry) (h : Fin 24) : Bool := e.presence.testBit h.val

/-- The heads of an entry. -/
def holders (e : DirEntry) : List (Fin 24) := allHeads.filter (present e)

/-- The present age code of the directory (R235). -/
def dirAge (c : Chip) : Nat := (c.round >>> c.cfg F.DIR_DIR_CFG_AGE_SHIFT) % 16

/-- The SRAM entries of a set. -/
def sramSet (c : Chip) (set : Nat) : List (Nat × DirEntry) := c.che.sram.filter fun x => c.dirSet (x.1 * 64) == set

/-- The ways of the directory in use: a set takes no entry while those of its replaced bank move back, and none ever where its bank had no spare
(R463). -/
def dirWays (c : Chip) (set : Nat) : Nat :=
  if c.cbl.bankMigrating.contains (set % 16) || c.cbl.shadowBanks.contains (set % 16) then 0 else 16

/-- The lowest free way of a set. -/
def freeWay (c : Chip) (set : Nat) : Option Nat :=
  (List.range (c.dirWays set)).find? fun w => !(c.sramSet set).any fun x => x.2.way == w

/-- Replaces the entry of a line: in the place that holds it, or, for a new one, in SRAM where this chip arbitrates and a way is free,
else in the shadow table. An entry with no head left is freed. -/
def setDir (c : Chip) (line : Nat) (e : DirEntry) : Chip :=
  let k := line / 64
  let old := c.dirEntry line
  let e : DirEntry := if e.presence = 0 then {} else { e with age := c.dirAge }
  let c := if old.state = 0 && e.state != 0 then c.cnt K.DIR_ALLOCS else if old.state != 0 && e.state == 0 then c.cnt K.DIR_FREES else c
  if (c.che.sram.get (fun _ => {}) k).state ≠ 0 then
    { c with che := { c.che with sram := c.che.sram.set (fun _ => {}) k (if e.state = 0 then {} else { e with way := old.way }) } }
  else if old.state = 0 && e.state != 0 then
    match (match c.domainOf line with | some d => c.arbiter d | none => false), c.freeWay (c.dirSet line) with
    | true, some w => { c with che := { c.che with sram := c.che.sram.set (fun _ => {}) k { e with way := w } } }
    | _, _ => c.setShadow k e
  else c.setShadow k e

/-- A head leaves an entry. -/
def dirRemove (c : Chip) (line : Nat) (h : Fin 24) : Chip :=
  let e := c.dirEntry line
  if !present e h then c
  else
    let p := e.presence - 2 ^ h.val
    c.setDir line { e with presence := p, state := if e.state = 2 then 0 else e.state, owner := 0 }

/-! ## What a request does (R238, R239) -/

/-- Whether a write comes from the owner of its line. -/
def byOwner (e : DirEntry) (h : Fin 24) : Bool := e.state == 2 && e.owner == h.val

/-- The snoops of a request: heads and kind (0 Cur, 1 Data, 2 Inv). -/
def snoopsFor (r : Request) (e : DirEntry) : List (Fin 24) × Nat :=
  let others := (holders e).filter fun g => g != r.head
  let foreign := e.state == 2 && e.owner != r.head.val
  match r.kind with
  | .memRd =>
    if r.metaValue = 2 then (others, 2)
    else if foreign then (others, if r.metaValue = 3 then 1 else 0)
    else ([], 0)
  | .memRdData => if foreign then (others, 1) else ([], 0)
  | .memSpecRd => ([], 0)
  | _ => (others, 2)

/-- The entry that a request leaves, and the grant of its response (0 Cmp, 1 Cmp-S, 2 Cmp-E), once its snoops are answered. MemInv and MemInvNT
with MetaValue S, which R238 does not list, act as with MetaValue I (DESIGN CHOICE, log 46). -/
def resultOf (r : Request) (e : DirEntry) (grantE : Bool) : DirEntry × Nat :=
  let me := 2 ^ r.head.val
  let excl : DirEntry := { e with state := 2, presence := me, owner := r.head.val }
  let shared : DirEntry := { e with state := 1, presence := e.presence ||| me, owner := 0 }
  let read : DirEntry × Nat := if byOwner e r.head then (e, 2) else (shared, 1)
  match r.kind with
  | .memRd => if r.metaValue = 3 then read else if r.metaValue = 2 then (excl, 2) else (e, 0)
  | .memRdData => if e.state = 0 && grantE then (excl, 2) else read
  | .memInv | .memInvNT => if r.metaValue = 2 then (excl, 2) else ({}, 0)
  | .memSpecRd => (e, 0)
  | .memWr | .memWrPtl =>
    if r.metaValue = 3 then ({ e with state := 1, presence := me, owner := 0 }, 0)
    else if r.metaValue = 2 then (excl, 0)
    else ({}, 0)

/-! ## Orders and snoops (R240 to R249) -/

/-- Whether a tag is an access to a commons. -/
def isCommons (c : Chip) (t : Tag) : Bool := c.inCommons t.dpa

/-- Whether a line has a round of snoops outstanding, is in the victim buffer, or has its entry fetched (R235, R237, R251). -/
def lineBusy (c : Chip) (line : Nat) : Bool :=
  c.che.victims.contains line || c.che.fetching.contains line || (c.che.snoops.any fun x => x.line == line)

/-- Whether a response of one of the heads for a line has been decided here and not yet sent (R240). -/
def responseDue (c : Chip) (line : Nat) (hs : List (Fin 24)) : Bool :=
  c.tags.any fun t => t.isTag && t.dpa == line && hs.contains t.req.head && !at' t .order && !at' t .snoop

/-- The peer's record of ours that it has applied last. -/
def peerApplied (c : Chip) : Nat := c.get F.PMK_PM_SEQ_PEER_APPLIED

/-- Whether the peer has applied a record of ours, by its number; 32-bit numbers wrap. -/
def appliedCovers (c : Chip) (seq : Nat) : Bool :=
  !c.followed || decide ((c.peerApplied + 2 ^ 32 - seq) % 2 ^ 32 < 2 ^ 31)

/-- Accesses leave the unsettled list when their directory action is complete and the follower has applied their record (R244). -/
def settle (c : Chip) : Chip :=
  { c with che := { c.che with unsettled := c.che.unsettled.filter fun u => !(u.done && c.appliedCovers u.recSeq) } }

/-- Sends the snoops of a line to the heads this chip homes, and counts them outstanding to every head. One that the carbon lanes have shown
already is not sent again (R255). -/
def sendSnoops (c : Chip) (line : Nat) (hs : List (Fin 24)) (kind : Nat) : Chip :=
  hs.foldl (fun c h =>
    let heard := c.che.early.any fun x => x.1 == line && x.2.1 == h
    let mine := c.isHome (portOf h) && !heard
    let c := { c with che := { c.che with
      snoops := c.che.snoops ++ [⟨line, h, kind, mine || heard⟩]
      early := c.che.early.filter fun x => x != (line, h, none) } }
    if mine then
      (c.toHost h (.snoop kind line)).cnt (match kind with | 0 => K.SNP_BISNP_CUR | 1 => K.SNP_BISNP_DATA | _ => K.SNP_BISNP_INV)
    else c) c

/-- A commons access goes on after its directory action: a write merges and completes, an invalidate completes, a read takes its data
as of its order (R248). A contended one waits for the follower's APPLIED. A shadow entry whose response the carbon lanes have shown already
is closed (R115). -/
def afterOrder (c : Chip) (t : Tag) : Chip :=
  if !t.isTag && c.che.answered.contains (t.req.head, t.req.pos.code) then
    { c.dropTag t with che := { c.che with answered := c.che.answered.filter fun x => x != (t.req.head, t.req.pos.code) } }
  else if t.orderNo.isSome && t.isTag && !c.appliedCovers t.recSeq then
    (if at' t .applied then c else c.cnt K.ORD_RESPONSES_HELD).setTag { t with stage := .applied }
  else match t.req.kind with
    | .memWr | .memWrPtl => c.completeWrite t
    | .memInv | .memInvNT => c.respondCmp t
    | _ => if t.isTag then c.beginRead t else c.setTag { t with stage := .done }

/-- The directory action of an access completes (R238): the entry is set, a write's bytes merge in order, a read's line is fixed. -/
def finishAccess (c : Chip) (t : Tag) : Chip :=
  let d := (c.domainOf t.dpa).getD 0
  let r := resultOf t.req (c.dirEntry t.dpa) (c.cfgOn (F.COM_COMMONS_GRANT_E d))
  let c := (c.setDir t.dpa r.1).cnt (K.COM_ACCESSES d)
  let c := { c with che := { c.che with unsettled := c.che.unsettled.map fun (u : Unsettled) =>
    if u.head == t.req.head && u.pos == t.req.pos.code then { u with done := true } else u } }
  let c := c.settle
  let t := { t with grant := r.2, snoopsLeft := [] }
  if isWrite t.req.kind then
    (c.wmbWrite t.req.head t.req.pos.code t.dpa t.req.data (reqMask t.req) t.req.poison (t.req.kind == ReqKind.memWr)).afterOrder t
  else
    let x := c.fullLine t.dpa
    c.afterOrder { t with held := x.1, heldPoison := x.2, fixed := true }

/-- An access that is ordered here acts, if its line is free (R240): it sends the snoops it needs, or completes. -/
def actAccess (c : Chip) (t : Tag) : Chip :=
  let n := snoopsFor t.req (c.dirEntry t.dpa)
  if c.lineBusy t.dpa || c.responseDue t.dpa n.1 || decide (c.che.snoops.length + n.1.length > 4096) then c
  else
    let c := { c with che := { c.che with ordered := c.che.ordered.filter fun x => !(x.2.1 == t.req.head && x.2.2 == t.req.pos.code) } }
    if n.1.isEmpty then c.finishAccess t
    else (c.sendSnoops t.dpa n.1 n.2).setTag { t with stage := .snoop, snoopsLeft := n.1 }

/-- The first access ordered on a line acts, for each line that has one; then those behind it. -/
def pumpOrdered (c : Chip) : Nat → Chip
  | 0 => c
  | n + 1 =>
    let firsts := c.che.ordered.filter fun x => (c.che.ordered.find? fun y => y.1 == x.1) == some x
    let c' := firsts.foldl (fun c x =>
      match c.tags.find? fun t => t.req.head == x.2.1 && t.req.pos.code == x.2.2 with
      | some t => c.actAccess t
      | none => { c with che := { c.che with ordered := c.che.ordered.filter fun y => y != x } }) c
    if c'.che.ordered.length = c.che.ordered.length then c' else c'.pumpOrdered n

/-- An access takes its place in the order of its line on this chip. -/
def orderHere (c : Chip) (t : Tag) : Chip :=
  let x := (t.dpa, t.req.head, t.req.pos.code)
  if c.che.ordered.contains x || !at' t .order then c
  else { c with che := { c.che with ordered := c.che.ordered ++ [x] } }

/-- Whether an access waits for its order on this chip. -/
def unordered (c : Chip) (t : Tag) : Bool :=
  at' t .order && c.isCommons t && !c.che.ordered.contains (t.dpa, t.req.head, t.req.pos.code)

/-! ## Victims (R250, R251) -/

/-- Marks an entry EVICTING: its way is free, its line stands in the victim buffer, its holders are snooped. -/
def evictEntry (c : Chip) (line : Nat) : Chip :=
  let hs := holders (c.dirEntry line)
  let c := c.setDir line {}
  let c := ((c.cnt K.DIR_VICTIMS).cnt K.ORD_VICTIM_RECORDS).raise F.DIR_EV_OVERFLOW_EVICT
  ({ c with che := { c.che with victims := c.che.victims ++ [line] } }).sendSnoops line hs 2

/-- The victim of a full set: not BUSY, the oldest AGE modulo 16, the lowest way on a tie. -/
def victimOf (c : Chip) (set : Nat) : Option Nat :=
  let age (e : DirEntry) : Nat := (c.dirAge + 16 - e.age % 16) % 16
  ((c.sramSet set).filter fun x => !c.lineBusy (x.1 * 64) && !(c.che.ordered.any fun y => y.1 == x.1 * 64)).foldl
    (fun (a : Option (Nat × DirEntry)) x =>
      match a with
      | none => some x
      | some y => if age x.2 > age y.2 || (age x.2 == age y.2 && decide (x.2.way < y.2.way)) then some x else some y) none
    |>.map fun x => x.1 * 64

/-- Whether an access takes a new entry. -/
def allocates (c : Chip) (t : Tag) : Bool :=
  let e := c.dirEntry t.dpa
  e.state == 0 && (resultOf t.req e (c.cfgOn (F.COM_COMMONS_GRANT_E ((c.domainOf t.dpa).getD 0)))).1.state != 0

/-- Whether the shadow set of the follower has room for one more allocation (R236): entries, EVICTING ones, and allocations that APPLIED does not
cover yet and that are not among the entries. -/
def shadowRoom (c : Chip) (set : Nat) : Bool :=
  decide ((c.sramSet set).length + (c.che.shadow.filter fun x => c.dirSet (x.1 * 64) == set).length
    + (c.che.victims.filter fun l => c.dirSet l == set).length
    + (c.che.unsettled.filter fun u => u.alloc && (c.dirEntry u.line).state == 0 && c.dirSet u.line == set).length < 32)

/-- Makes room for an access that needs a new entry: a free way, or a victim announced ahead of it; none where the victim buffer or its
share of the set is full (R251). -/
def makeRoom (c : Chip) (t : Tag) : Option Chip :=
  let set := c.dirSet t.dpa
  if !c.allocates t then some c
  else if !c.shadowRoom set then none
  else if (c.freeWay set).isSome then some c
  else if c.che.victims.length ≥ 64 || decide ((c.che.victims.filter fun l => c.dirSet l == set).length ≥ 8) then none
  else match c.victimOf set with
    | none => none
    | some l => some ((c.post (.order ((c.domainOf l).getD 0) 0 .victim 0 (l / 64) 0)).evictEntry l)

/-- The arbiter orders an access (R244 to R246): contended ones by an ACCESS record with an order number, the others by a SWEEP. One
that needs a new entry and finds no room waits. -/
def orderAccess (c : Chip) (t : Tag) : Chip :=
  let d := (c.domainOf t.dpa).getD 0
  let pos := t.req.pos.code
  match c.makeRoom t with
  | none => if t.noted then c else (c.cnt K.DIR_VICTIM_WAITS).setTag { t with noted := true }
  | some c =>
    let alloc := c.allocates t
    if c.che.unsettled.any fun u => u.line == t.dpa && u.head != t.req.head then
      let n := c.che.orderNo.get (fun _ => 0) d
      let c := { c with che := { c.che with orderNo := c.che.orderNo.set (fun _ => 0) d ((n + 1) % 16384) } }
      let c := ((c.post (.order d t.req.head .access pos (t.dpa / 64) n)).cnt K.ORD_ACCESS_RECORDS).cnt (K.COM_CONTENDED d)
      let t := { t with orderNo := some n, recSeq := c.twe.pmSeq }
      ({ c.setTag t with che := { c.che with unsettled := c.che.unsettled ++ [Unsettled.mk t.dpa t.req.head pos c.twe.pmSeq false alloc] } }).orderHere t
    else
      let c := (c.post (.order 255 t.req.head .sweep pos 0 0)).cnt K.ORD_SWEEP_RECORDS
      let t := { t with recSeq := c.twe.pmSeq }
      ({ c.setTag t with che := { c.che with unsettled := c.che.unsettled ++ [Unsettled.mk t.dpa t.req.head pos c.twe.pmSeq false alloc] } }).orderHere t

/-- The arbiter orders what it can of the accesses that wait for their order, in admission order; a head's keep stream order. -/
def orderWaiting (c : Chip) : Chip :=
  (c.tags.filter fun t => c.unordered t).foldl (fun c t =>
    match c.domainOf t.dpa with
    | some d =>
      if c.arbiter d && !c.che.awaitHandoff.contains d
          && !(c.tags.any fun u => u.req.head == t.req.head && posLater t.req.pos.code u.req.pos.code && c.unordered u)
      then c.orderAccess t else c
    | none => c) c

/-- Orders and carries out every commons access that can go on. Each answered snoop and each response can free another; the bound is
more than the accesses the chip holds. -/
def runCommons (c : Chip) : Chip :=
  let c := { c with che := { c.che with victims := c.che.victims.filter fun l => c.che.snoops.any fun x => x.line == l } }
  ((c.orderWaiting).pumpOrdered (c.che.ordered.length + c.tags.length + 1))

/-- A snoop is answered on this chip (R238): the entry follows the answer, and the access that waited completes with its last one. -/
def answerSnoop (c : Chip) (h : Fin 24) (line : Nat) (kind : Nat) : Chip :=
  if !(c.che.snoops.any fun x => x.line == line && x.head == h) then c
  else
    let c := { c with che := { c.che with snoops := c.che.snoops.filter fun x => !(x.line == line && x.head == h) } }
    let c := c.cnt K.SNP_BIRSP_RX
    let e := c.dirEntry line
    let c := match kind with
      | 0 => c.dirRemove line h
      | 1 => if present e h then c.setDir line { e with state := 1, owner := 0 } else c
      | _ => if present e h then c.setDir line { e with state := 2, presence := 2 ^ h.val, owner := h.val } else c
    let c := c.mapTags (fun t => at' t .snoop && t.dpa == line) fun t => { t with snoopsLeft := t.snoopsLeft.filter fun g => g != h }
    (c.continueTags (fun t => at' t .snoop && t.dpa == line && t.snoopsLeft.isEmpty) finishAccess).runCommons

/-- Snoops that were answered on the carbon lanes before this chip ordered the access that caused them are answered now (R247). -/
def takeEarly (c : Chip) : Nat → Chip
  | 0 => c
  | n + 1 =>
    match c.che.early.find? fun x => x.2.2.isSome && c.che.snoops.any fun y => y.line == x.1 && y.head == x.2.1 with
    | none => c
    | some x =>
      let c := { c with che := { c.che with early := c.che.early.filter fun y => y != x } }
      (c.answerSnoop x.2.1 x.1 (x.2.2.getD 0)).takeEarly n

/-- Commons accesses go on, with what the carbon lanes have shown already. -/
def runFollower (c : Chip) : Chip := c.runCommons.takeEarly (c.che.early.length + 1)

/-- A BIRsp reaches this chip: it answers its snoop; the carbon keeps one that comes ahead of the record that orders the access. -/
def hearBirsp (c : Chip) (h : Fin 24) (line kind : Nat) (real : Bool) : Chip :=
  if c.che.snoops.any fun x => x.line == line && x.head == h then (c.answerSnoop h line kind).runFollower
  else if real && c.isCarbon (portOf h) then
    { c with che := { c.che with early := (c.che.early.filter fun x => x != (line, h, none)) ++ [(line, h, some kind)] } }
  else c

/-- Whether this chip arbitrates the commons of a line. -/
def arbitrates (c : Chip) (line : Nat) : Bool := match c.domainOf line with | some d => c.arbiter d | none => false

/-- A head's snoops on the lines of a condition are taken as answered with BIRspI, and its presence there is cleared (R243). `only`
names one snooped line, none the whole head. -/
def clearHead (c : Chip) (p : Nat → Bool) (h : Fin 24) (only : Option Nat) : Chip :=
  let c := { c with che := { c.che with early := c.che.early.filter fun x => !(x.2.1 == h && p x.1) } }
  match only with
  | some l => if p l then c.answerSnoop h l 0 else c
  | none =>
    let c := (c.che.snoops.filter fun x => x.head == h && p x.line).foldl (fun c x => c.answerSnoop h x.line 0) c
    ((c.che.sram ++ c.che.shadow).filter fun x => present x.2 h && p (x.1 * 64)).foldl (fun c x => c.dirRemove (x.1 * 64) h) c

/-- Whether a line is in a domain, where one is named. -/
def inNamed (c : Chip) (dom : Option Nat) (line : Nat) : Bool := match dom with | some d => c.inDomain d line | none => true

/-- A head is reset, leaves a snoop unanswered, or leaves the head set of the domain `dom`: cleared at once in the commons this chip arbitrates,
which a SWEEP covers; in those it follows, when it applies the arbiter's SWEEP (R233, R243). -/
def loseHead (c : Chip) (h : Fin 24) (only dom : Option Nat) : Chip :=
  let c := { c with che := { c.che with clearing := if c.mirrored || c.mode == mJOINING then c.che.clearing ++ [(h, only, dom)] else [] } }
  let c := c.clearHead (fun l => c.arbitrates l && c.inNamed dom l) h only
  if c.serving || (c.mirrored && (List.range 64).any c.arbiter) then
    (c.post (.order 255 h .sweep ((c.head h).seenPos.getD 0) 0 0)).cnt K.ORD_SWEEP_RECORDS
  else c

/-! ## The follower (R247) -/

/-- Whether every request of a head at or before a position has arrived here and left its queues. -/
def seenTo (c : Chip) (h : Fin 24) (pos : Nat) : Bool :=
  covers (c.head h).seenPos pos &&
    ((c.head h).reqQ ++ (c.head h).rwdQ).all fun r => posLater r.pos.code pos

/-- A SWEEP orders every unordered access of its head, at or before its position, that the sender arbitrates. -/
def applySweep (c : Chip) (h : Fin 24) (pos : Nat) : Chip :=
  let c := (c.tags.filter fun t => t.req.head == h && !posLater t.req.pos.code pos && c.unordered t).foldl (fun c t =>
    match c.domainOf t.dpa with
    | some d => if c.arbiter d then c else c.orderHere t
    | none => c) c
  let mine := c.che.clearing.filter fun x => x.1 == h
  let c := { c with che := { c.che with clearing := c.che.clearing.filter fun x => x.1 != h } }
  let c := mine.foldl (fun c x => c.clearHead (fun l => !c.arbitrates l && c.inNamed x.2.2 l) h x.2.1) c
  (c.cnt K.ORD_SWEEP_RECORDS).runFollower

/-- The ORDER records that have been received and not yet applied are applied when the arbiter fails (R254): an ACCESS or SWEEP orders what it
names or covers, a VICTIM evicts its entry. -/
def orderReceived (c : Chip) : Chip :=
  let isOrder (x : Nat × PmRecord) : Bool := match x.2 with | .order _ _ _ _ _ _ => true | _ => false
  let recs := c.twe.rxRecs.filter isOrder
  let c := { c with twe := { c.twe with rxRecs := c.twe.rxRecs.filter fun x => !isOrder x } }.cnt K.PMK_RECORDS_RX recs.length
  recs.foldl (fun c x => match x.2 with
    | .order _ h .access pos _ _ =>
      ((c.tags.filter fun t => t.req.head == h && t.req.pos.code == pos).foldl orderHere (c.cnt K.ORD_ACCESS_RECORDS)).runFollower
    | .order _ h .sweep pos _ _ => c.applySweep h pos
    | .order _ _ .victim _ line _ => (c.evictEntry (line * 64)).runFollower
    | _ => c) c

/-! ## Entries that fail their check (R237) -/

/-- The entry of a line replaced where it stands. -/
def putEntry (c : Chip) (line : Nat) (e : DirEntry) : Chip :=
  let k := line / 64
  if (c.che.sram.get (fun _ => {}) k).state ≠ 0 then
    { c with che := { c.che with sram := c.che.sram.set (fun _ => {}) k { e with way := (c.dirEntry line).way } } }
  else c.setShadow k e

/-- A failed entry stands again: as the arbiter gave it, or conservatively, SHARED by every head of the commons (R237). Each rebuild is counted,
raised and logged; `copy` says what was consulted. -/
def rebuildEntry (c : Chip) (line copy : Nat) (given : Option DirEntry) : Chip :=
  let d := (c.domainOf line).getD 0
  let e : DirEntry := match given with
    | some e => e
    | none => { c.dirEntry line with state := 1, presence := c.cfg (F.COM_COMMONS_HEADS d), owner := 0 }
  let c := { c with che := { c.che with fetching := dropN c.che.fetching line } }.putEntry line e
  let set := c.dirSet line
  (((c.cnt K.DIR_ENTRY_REBUILDS).raise F.DIR_EV_ENTRY_REBUILT).dlo 0x06 0 4 copy line
    (sramLocation 5 (set % 16) (set / 16 * 16 + (c.dirEntry line).way))).runFollower

/-! ## Moving the arbiter (R253 to R255) -/

/-- The old arbiter hands a domain over: its SRAM entries move to its shadow table. -/
def handOff (c : Chip) (d : Nat) : Chip :=
  let mine := c.che.sram.filter fun x => c.inDomain d (x.1 * 64)
  let c := c.post (.order d 0 .handoff 0 0 0)
  let c := { c with che := { c.che with sram := c.che.sram.filter fun x => !c.inDomain d (x.1 * 64) } }
  (mine.foldl (fun c x => c.setShadow x.1 x.2) c).raise F.COM_EV_ARBITER_MOVED

/-- The new arbiter begins: its shadow table is the directory, and moves into SRAM in the background. -/
def beginArbiter (c : Chip) (d : Nat) : Chip :=
  let c := { c with che := { c.che with
    awaitHandoff := dropN c.che.awaitHandoff d
    migrating := insertN c.che.migrating d } }
  (c.raise F.COM_EV_ARBITER_MOVED).runCommons

/-- An entry of the shadow table moves into SRAM; one that does not fit becomes a victim (R253). -/
def intoSram (c : Chip) (x : Nat × DirEntry) : Chip :=
  let line := x.1 * 64
  match c.freeWay (c.dirSet line) with
  | some w =>
    let c := c.setShadow x.1 {}
    { c with che := { c.che with sram := c.che.sram.set (fun _ => {}) x.1 { x.2 with way := w } } }
  | none => (c.post (.order ((c.domainOf line).getD 0) 0 .victim 0 x.1 0)).evictEntry line

/-- Entries of a domain move from the shadow table into SRAM (R253). -/
def migrateShadow (c : Chip) (d : Nat) : Chip :=
  let c := (c.che.shadow.filter fun x => c.inDomain d (x.1 * 64)).foldl intoSram c
  { c with che := { c.che with migrating := dropN c.che.migrating d } }.runCommons

/-! ### Directory banks (R463) -/

/-- The sets' bank that a physical bank holds: bank 16, the spare, stands for the one it replaced. -/
def setsOfBank (c : Chip) (bank : Nat) : Nat := if bank = 16 then c.cbl.retiredBanks.headD 16 else bank

/-- The spare bank is still there: not drawn, and not found faulty. -/
def spareBank (c : Chip) : Bool := c.cbl.retiredBanks.isEmpty && !c.cbl.failedSpares.testBit 8

/-- A failing bank is replaced (R460, R463): its entries go to the shadow table, and move back once the spare bank is in; with none left its sets
are served from the shadow table for good. -/
def replaceBank (c : Chip) (bank : Nat) : Chip :=
  let b := c.setsOfBank bank
  if b = 16 || c.cbl.shadowBanks.contains b || (bank ≠ 16 && c.cbl.retiredBanks.contains bank) then c
  else
    let mine := c.che.sram.filter fun x => c.dirSet (x.1 * 64) % 16 == b
    let spare := c.spareBank
    let c := { c with
      che := { c.che with sram := c.che.sram.filter fun x => c.dirSet (x.1 * 64) % 16 != b }
      cbl := { c.cbl with
        retiredBanks := insertN c.cbl.retiredBanks bank
        bankMigrating := if spare then insertN c.cbl.bankMigrating b else c.cbl.bankMigrating
        shadowBanks := if spare then c.cbl.shadowBanks else insertN c.cbl.shadowBanks b } }
    let c := mine.foldl (fun c x => c.setShadow x.1 x.2) c
    if spare then (c.put F.CBO_DIR_BANKS_LEFT 0).drew 9 (sramLocation 5 bank 0) true
    else c.dlo 0x12 4 5 0 0 (sramLocation 5 bank 0)

/-- The entries of a replaced bank move back into SRAM, into the spare bank. -/
def migrateBank (c : Chip) (b : Nat) : Chip :=
  if !c.cbl.bankMigrating.contains b then c
  else
    let c := { c with cbl := { c.cbl with bankMigrating := dropN c.cbl.bankMigrating b } }
    let mine (x : Nat × DirEntry) : Bool := c.dirSet (x.1 * 64) % 16 == b &&
      (match c.domainOf (x.1 * 64) with | some d => c.arbiter d | none => false)
    ((c.che.shadow.filter mine).foldl intoSram c).runCommons

/-- The follower becomes arbiter when the arbiter fails (R254, R255): snoops of the failed chip whose flit it did not decode are decided
again; accesses that no record orders are ordered, first those answered on the carbon lanes, then the rest by admission. -/
def takeArbitration (c : Chip) (old : List Nat) : Chip :=
  if old.isEmpty then c
  else
    let lost := c.che.snoops.filter fun x => !x.sent
    let c := { c with che := { c.che with snoops := c.che.snoops.filter fun x => x.sent } }
    let c := c.mapTags (fun t => at' t .snoop && lost.any fun x => x.line == t.dpa && t.snoopsLeft.contains x.head) fun t =>
      { t with stage := .order, snoopsLeft := [] }
    let again := c.tags.filter fun t => at' t .order && lost.any fun x => x.line == t.dpa
    let c := { c with che := { c.che with ordered := (again.filter fun (t : Tag) =>
      !c.che.ordered.contains (t.dpa, t.req.head, t.req.pos.code)).map (fun (t : Tag) => (t.dpa, t.req.head, t.req.pos.code)) ++ c.che.ordered } }
    let wait := c.tags.filter fun t => c.unordered t
    let first := c.che.answered.filterMap fun a => wait.find? fun t => t.req.head == a.1 && t.req.pos.code == a.2
    let rest := wait.filter fun t => !c.che.answered.any fun a => t.req.head == a.1 && t.req.pos.code == a.2
    let c := (first ++ rest).foldl orderHere c
    let c := { c with che := { c.che with answered := [], clearing := [], migrating := old.foldl insertN c.che.migrating } }
    let c := (c.cnt K.ORD_ORDERED_AT_TAKEOVER wait.length).raise F.COM_EV_ARBITER_MOVED
    (if wait.isEmpty then c else c.raise F.ORD_EV_ORDER_TAKEOVER).runFollower

end Chip

end Sys2Proof.Machine
end

