-- ==== Sys2Proof/Machine/Routes.lean ====
section
/-! DEFINITION. The Route engine of one chip: how requests move a Route, what its records do, and the advance job (R310 to R333). -/
namespace Sys2Proof.Machine

/-! ## Entries (R310 to R312) -/

/-- The bytes of an entry, as a number: bits 19:0 the object, bits 31:20 zero (R310). -/
def entryWord (bs : List Byte) : Nat := ofLeBytes (bs.map BitVec.toNat)

namespace RouteSlot

/-- The object of an entry that has been read and is not skipped. -/
def objectAt (x : RouteSlot) (j : Nat) : Option Nat :=
  let v := x.entries.get (fun _ => 0) j
  if v ≥ 2 then some (v - 2) else none

/-- The entries of the watch span, in Route order (R320). -/
def span (x : RouteSlot) : List Nat :=
  if x.cyclic then (List.range (min 256 x.length)).map fun i => (x.pos + i) % max 1 x.length
  else (List.range (min 256 (x.length - x.pos))).map fun i => x.pos + i

/-- The entries from `a` up to, and not including, `b` in Route order. -/
def between (x : RouteSlot) (a b : Nat) : List Nat :=
  if a ≤ b then (List.range (b - a)).map fun i => a + i
  else if x.cyclic then (List.range (b + x.length - a)).map fun i => (a + i) % max 1 x.length
  else []

/-- W of R321. -/
def width (x : RouteSlot) : Nat := min x.maxExt (max x.minExt ((x.rate * x.lead + 65535) / 65536))

/-- The rate after a move past `k` extents in `r` Rounds (R321). -/
def newRate (rate k r : Nat) : Nat :=
  let t := k * 65536 / r
  if t ≥ rate then rate + (t - rate) / 4 else rate - (rate - t) / 4

/-- RATE after a ROUTE_START: MIN_EXT ÷ LEAD_ROUNDS of a LOADED Route, unchanged on an ACTIVE one (R316, R321). -/
def startRate (x : RouteSlot) : Nat := if x.state = 2 then x.rate else x.minExt * 65536 / max 1 x.lead

end RouteSlot

namespace Chip

/-- A Route slot. -/
def route (c : Chip) (r : Nat) : RouteSlot := c.rte.slots.get (fun _ => {}) r

/-- The chip with a Route slot changed. -/
def mapRoute (c : Chip) (r : Nat) (f : RouteSlot → RouteSlot) : Chip :=
  { c with rte := { c.rte with slots := c.rte.slots.set (fun _ => {}) r (f (c.route r)) } }

/-- The ACTIVE Routes, by PRIORITY and then by number (R324). -/
def activeRoutes (c : Chip) : List Nat :=
  let l := (c.rte.slots.filter fun x => x.2.state == 2).map (·.1)
  (List.range 8).flatMap fun p => l.filter fun r => (c.route r).prio == p

/-- The extents of a registered object, ascending. -/
def extentsOf (c : Chip) (n : Nat) : List Nat :=
  let o := c.trm.objects.get (fun _ => {}) n
  (List.range o.count).map fun i => o.first + i

/-- The extents of an entry; none where it is skipped or not read (R312). -/
def entryExtents (c : Chip) (x : RouteSlot) (j : Nat) : List Nat :=
  match x.objectAt j with
  | some n => c.extentsOf n
  | none => []

/-- Whether the engine runs (R314). -/
def rteOn (c : Chip) : Bool := c.running 0x0B0

/-- Whether an extent is in a state in which a request to a window entry is late (R327). -/
def late (c : Chip) (e : Nat) : Bool :=
  let st := (c.ext e).state
  (st == 1 || st == 3 || st == 4) && c.policy e != 3

/-! ## Holds (R322, R324) -/

/-- The WINDOW bit of an extent follows the holds on it. -/
def showWindow (c : Chip) (e : Nat) : Chip :=
  let on := c.rte.slots.any fun x => x.2.holds.contains e
  if (c.ext e).window == on then c else c.mapExt e fun x => { x with window := on }

/-- A Route holds extents. -/
def hold (c : Chip) (r : Nat) (es : List Nat) : Chip :=
  es.foldl showWindow (c.mapRoute r fun x => { x with holds := x.holds ++ es.filter fun e => !x.holds.contains e })

/-- A Route releases extents; those released may be queued again (R331). -/
def unhold (c : Chip) (r : Nat) (es : List Nat) : Chip :=
  es.foldl showWindow (c.mapRoute r fun x => { x with
    holds := x.holds.filter fun e => !es.contains e
    barred := x.barred.filter fun e => !es.contains e })

/-- The extents a Route holds once this chip's own records have applied. -/
def heldSoon (c : Chip) (r : Nat) : List Nat :=
  c.twe.gated.foldl (fun l g => match g.effect with
    | .routeHold x es _ _ => if x = r then l ++ es.filter fun e => !l.contains e else l
    | .routeRelease x es _ _ => if x = r then l.filter fun e => !es.contains e else l
    | .routeState x _ _ _ => if x = r then [] else l
    | _ => l) (c.route r).holds

/-- The extents that any Route holds once this chip's own records have applied. -/
def allHeld (c : Chip) : List Nat :=
  ((c.rte.slots.map fun x => c.heldSoon x.1).flatten).eraseDups

/-! ## Slips (R327 to R329) -/

/-- A slip closes: its lateness in µs is counted by the keeper (R329, R334, R335). -/
def countSlip (c : Chip) (r entry round late : Nat) (unarrived : Bool) : Chip :=
  let p := (c.route r).prio
  let c := (c.cnt K.RTE_SLIP_LATE_US_SUM late).peak K.RTE_SLIP_LATE_US_MAX late
  let c := (c.peak (K.RTS_LATE_US_MAX_PRIO p) late)
  let c := if unarrived then c.cnt K.RTE_SLIPS_UNARRIVED else c
  (((c.put F.RTE_LAST_SLIP_ROUTE r).put F.RTE_LAST_SLIP_ENTRY entry).put F.RTE_LAST_SLIP_LATE_US late).put F.RTE_LAST_SLIP_ROUND_LO round

/-- The lateness of a slip that closes in this Round, in µs: it runs from the request, somewhere in its Round of 4 µs (R329). -/
def lateness (c : Chip) (r entry rd : Nat) : Nat := (c.round - rd) * 4 - Config.slipOffset r entry rd % 4

/-- The keeper closes an open slip and announces it (R329). -/
def closeSlip (c : Chip) (r : Nat) (unarrived : Bool) : Chip :=
  match (c.route r).slipOpen with
  | none => c
  | some (j, rd) =>
    let late := c.lateness r j rd
    ((c.mapRoute r fun x => { x with slipOpen := none }).countSlip r j rd late unarrived).postEffect (.routeClose r late unarrived j) false

/-- Whether the slip of a Route has arrived: no extent of its entry is late any more. -/
def slipArrived (c : Chip) (r : Nat) : Bool :=
  match (c.route r).slipOpen with
  | none => false
  | some (j, _) => !(c.entryExtents (c.route r) j).any c.late

/-- The keeper closes the slips whose last extent has just become FRONT (R329). -/
def slipsArrive (c : Chip) : Chip :=
  if c.isKeeper then c.activeRoutes.foldl (fun c r => if c.slipArrived r then c.closeSlip r false else c) c else c

/-! ## Position (R320, R321) -/

/-- END_REACHED of a ONCE Route whose POS is its last entry (R326). -/
def checkEnd (c : Chip) (r : Nat) : Chip :=
  let x := c.route r
  if x.state == 2 && !x.cyclic && x.pos + 1 == x.length && !x.ended then
    (c.mapRoute r fun x => { x with ended := true }).raise F.RTE_EV_ROUTE_END
  else c

/-- A request to an extent meets one ACTIVE Route: POS moves to the lowest entry of the watch span that holds the extent's object, and
the first late request of that entry is a slip. -/
def routeMeet (e n : Nat) (c : Chip) (r : Nat) : Chip :=
  let x := c.route r
  match x.span.find? fun j => x.objectAt j == some n with
  | none => c
  | some j =>
    let move := j != x.pos
    let passed := x.between x.pos j
    let k := (passed.map fun i => (c.entryExtents x i).length).sum
    let lag := max 1 (c.round - x.moveRound)
    let c := if move && c.isKeeper then (c.closeSlip r true).cnt K.RTE_ENTRIES_PASSED passed.length else c
    let c := if move then c.mapRoute r fun x => { x with
        pos := j
        rate := RouteSlot.newRate x.rate k lag
        moveRound := c.round
        slipped := false
        moved := true } else c
    let c := if move && c.isKeeper then c.checkEnd r else c
    if !c.late e then c
    else if (c.route r).slipped then (if c.isKeeper then c.cnt K.RTE_SLIP_ACCESSES else c)
    else c.mapRoute r fun x => { x with slipped := true, slipSeen := some (j, c.round) }

/-- A read or write of CXL.mem to a line reaches the chip, which homes its port or follows it (R318, R320). -/
def routeSee (c : Chip) (dpa : Nat) : Chip :=
  if !c.rteOn then c
  else match c.objectOf (extentOf dpa) with
    | none => c
    | some (n, _) => c.activeRoutes.foldl (routeMeet (extentOf dpa) n) c

/-! ## Records (R313, R319) -/

/-- The slot's state changes (R313). -/
def routeChange (c : Chip) (r st : Nat) : Chip :=
  if (c.route r).state = st then c else (c.mapRoute r fun x => { x with state := st }).raise F.RTS_EV_STATE_CHANGE

/-- A slip that is open when its Route stops or is sought closes UNARRIVED (R329, R332). -/
def endSlip (c : Chip) (r : Nat) : Chip :=
  match (c.route r).slipOpen with
  | none => c
  | some (j, rd) =>
    let d := c.mapRoute r fun x => { x with slipOpen := none }
    if d.isKeeper then d.countSlip r j rd (d.lateness r j rd) true else d

/-- The window of a Route is released (R325): its queued promotions that no Route holds any more are withdrawn. -/
def withdraw (c : Chip) (es : List Nat) : Chip :=
  let held := c.allHeld
  { c with trm := { c.trm with
    queue := c.trm.queue.filter fun m => !(m.cls == 2 && m.promote && es.contains m.extent && !held.contains m.extent) } }

/-- A ROUTE_STOP, or the end of a Route's domain (R313): the window is released, and the slot is LOADED. -/
def routeStop (c : Chip) (r : Nat) : Chip :=
  let es := (c.route r).holds
  let c := (c.endSlip r).unhold r es
  let c := if c.isKeeper then (c.cnt K.RTE_RELEASES es.length).withdraw es else c
  (c.mapRoute r fun x => { x with slipSeen := none, slipped := false, barred := [], moved := false, ended := false }).routeChange r 1

/-- ROUTE_START or ROUTE_SEEK takes effect (R316, R321): POS is the entry named, the window is released and will be built anew; START of a
LOADED Route sets RATE. -/
def routeGo (c : Chip) (r pos : Nat) : Chip :=
  let x := c.route r
  let es := x.holds
  let c := (c.endSlip r).unhold r es
  let c := if c.isKeeper then (c.cnt K.RTE_RELEASES es.length).withdraw es else c
  let c := if x.state = 2 then c.cnt K.RTE_SEEKS else c
  let c := c.mapRoute r fun x => { x with
    pos := pos
    shown := pos
    jobPos := pos
    rate := x.startRate
    slips := if x.state = 2 then x.slips else 0
    moveRound := c.round
    slipSeen := none
    slipped := false
    moved := false
    barred := []
    ended := false }
  let c := c.routeChange r 2
  if c.isKeeper then c.checkEnd r else c

/-- An entry's object is removed: the entry is skipped from then on (R312), and the extents it held are released under R324. -/
def dropObject (c : Chip) (n : Nat) : Chip :=
  let es := c.extentsOf n
  (c.rte.slots.map (·.1)).foldl (fun c r =>
    let c := c.mapRoute r fun x => { x with entries := x.entries.map fun y => if y.2 = n + 2 then (y.1, 1) else y }
    let mine := (c.route r).holds.filter fun e => es.contains e
    if mine.isEmpty then c
    else
      let c := (c.unhold r mine).withdraw mine
      if c.isKeeper then c.cnt K.RTE_RELEASES mine.length else c) c

/-- Whether the head that owns a Route may map the domain of an extent (R75 reason 2). -/
def mayMap (c : Chip) (h d : Nat) : Bool :=
  c.domValid d && (if c.commons d then (c.cfg (F.COM_COMMONS_HEADS d)).testBit h else c.cfg (F.DOM_DOMAIN_OWNER d) == h)

/-- Whether a list of entries lies wholly within one domain that a head may map (R311). -/
def listOk (c : Chip) (h dpa length : Nat) : Bool :=
  decide (dpa % 64 = 0) &&
  match c.domainOf dpa with
  | none => false
  | some d => c.mayMap h d && decide (dpa + 4 * length ≤ c.domBase d + c.domSize d)

/-- Routes whose list domain, or whose domain, is gone stop (R313, R332). -/
def routesAfterDomain (c : Chip) : Chip :=
  (c.rte.slots.map (·.1)).foldl (fun c r =>
    let x := c.route r
    if x.state == 2 && !c.listOk x.owner x.listDpa x.length then c.routeStop r else c) c

/-- What a Route record does (R319). `own` says that this chip sent it, so that its own slot stands already. -/
def applyRoute (c : Chip) (own : Bool) : Effect → Chip
  | .routeLoad r x => (c.mapRoute r fun _ => { x with state := (c.route r).state }).routeChange r 1
  | .routeState r st pos _ =>
    if st = 2 then c.routeGo r pos
    else if st = 1 then c.routeStop r
    else if st = 3 then (c.cnt K.RTE_SEEKS).mapRoute r fun x => { x with pos := pos, shown := pos, jobPos := pos }
    else (c.mapRoute r fun x => { state := x.state }).routeChange r 0
  | .routeHold r es _ _ => c.hold r es
  | .routeRelease r es _ _ => c.unhold r es
  | .routePos r pos rate =>
    if own then c
    else (c.mapRoute r fun x => { x with shown := pos, rate := if x.pos = pos then rate else x.rate }).checkEnd r
  | .routeSlip r pos rate rd =>
    if own then c
    else c.mapRoute r fun x => { x with
      shown := pos
      rate := if x.pos = pos then rate else x.rate
      slipOpen := some (pos, rd)
      slipSeen := if x.pos = pos then none else x.slipSeen
      slips := x.slips + 1
      barred := [] }
  | .routeClose r _ _ _ => if own then c else c.mapRoute r fun x => { x with slipOpen := none }
  | _ => c

/-! ## The advance job (R322 to R331) -/

/-- The list blocks of 64 entries that the watch span needs and that have been neither read nor asked for (R311). -/
def blocksWanted (x : RouteSlot) : List Nat :=
  ((x.span.map fun j => j / 64).eraseDups).filter fun b => !x.blocks.contains b && !x.asked.contains b

/-- The window of a Route: the extents of the entry at POS and the next W in Route order within the watch span (R322). -/
def windowOf (c : Chip) (r : Nat) : List Nat :=
  let x := c.route r
  match x.span with
  | [] => []
  | j :: rest =>
    let first := c.entryExtents x j
    (first ++ ((rest.map fun i => c.entryExtents x i).flatten.filter fun e => !first.contains e).take x.width).eraseDups

/-- A slip that the hardware saw is opened: the window is anchored anew at its entry (R328). -/
def openSlip (c : Chip) (r : Nat) : Chip :=
  let x := c.route r
  match x.slipSeen with
  | none => c
  | some (j, rd) =>
    let before := (x.between x.jobPos j).flatMap fun i => c.entryExtents x i
    let mine := c.heldSoon r
    let c := { c with trm := { c.trm with
      queue := c.trm.queue.filter fun m => !(m.cls == 2 && m.promote && before.contains m.extent && mine.contains m.extent) } }
    let c := c.mapRoute r fun x => { x with
      slipSeen := none
      slipOpen := some (j, rd)
      slips := x.slips + 1
      moved := false
      shown := j
      barred := [] }
    let c := ((c.cnt K.RTE_SLIPS).cnt (K.RTS_SLIPS_PRIO x.prio)).cnt K.RTE_REANCHORS
    (c.raise F.RTE_EV_SLIP).postEffect (.routeSlip r j x.rate rd) false

/-- The keeper announces holds or releases, at most 25 runs of extents to a record (R319). -/
def postRuns (c : Chip) (r : Nat) (es : List Nat) (on : Bool) : Chip :=
  let x := c.route r
  (splitRuns es).foldl (fun c part =>
    c.postEffect (if on then .routeHold r part x.pos x.rate else .routeRelease r part x.pos x.rate) true) c

/-- Extents that leave a window are released; with DROP_BEHIND those that POS passed are queued for eviction (R325). -/
def releaseWindow (c : Chip) (r : Nat) (gone passed : List Nat) : Chip :=
  if gone.isEmpty then c
  else
    let c := ((c.cnt K.RTE_RELEASES gone.length).postRuns r gone false).withdraw gone
    if !(c.route r).drop then c
    else
      let held := c.allHeld
      (gone.filter fun e => passed.contains e && !held.contains e && (c.ext e).state == 2 && (c.policy e == 1 || c.policy e == 2)).foldl
        (fun c e => (c.cnt K.RTE_DROP_EVICTIONS).queueMig 5 e false) c

/-- The extents that enter a window are held, as many as HOLD_MAX_EXT leaves room for (R324). -/
def growWindow (c : Chip) (r : Nat) (want : List Nat) : Chip :=
  let mine := c.heldSoon r
  let all := c.allHeld
  let cap := c.cfg F.RTE_RTE_CFG_HOLD_MAX_EXT
  let new := want.filter fun e => !mine.contains e
  let granted := new.foldl (fun (a : List Nat × Nat × Bool) e =>
    if a.2.2 then a
    else if all.contains e then (a.1 ++ [e], a.2.1, false)
    else if a.2.1 < cap then (a.1 ++ [e], a.2.1 + 1, false)
    else (a.1, a.2.1, true)) ([], all.length, false)
  let c := if granted.1.isEmpty then c else (c.cnt K.RTE_HOLDS granted.1.length).postRuns r granted.1 true
  if granted.2.2 then (c.cnt K.RTE_WINDOW_SHORT_ROUNDS).raise F.RTE_EV_WINDOW_SHORT else c

/-- Held extents that are BACK and have no promotion queued or running are queued, in Route order (R323, R331, R333). -/
def promoteWindow (c : Chip) (r : Nat) (want : List Nat) : Chip :=
  let mine := c.heldSoon r
  let barred := (c.route r).barred
  (want.filter fun e => mine.contains e && !barred.contains e && (c.ext e).state == 1 && c.policy e != 0 && c.policy e != 3 &&
      !c.migrating e true).foldl
    (fun c e => (c.cnt K.RTE_ROUTE_PROMOTIONS).queueMig 2 e true) c

/-- The advance job for one Route, on the keeper. -/
def advanceRoute (c : Chip) (r : Nat) : Chip :=
  let x := c.route r
  let passed := (x.between x.jobPos x.pos).flatMap fun i => c.entryExtents x i
  let c := c.openSlip r
  let c := if (c.route r).moved then
      (c.mapRoute r fun x => { x with moved := false, shown := x.pos }).postEffect (.routePos r x.pos x.rate) false
    else c
  let want := c.windowOf r
  let c := c.releaseWindow r ((c.heldSoon r).filter fun e => !want.contains e) passed
  let c := c.growWindow r want
  let c := c.promoteWindow r want
  let c := if c.slipArrived r then c.closeSlip r false else c
  c.mapRoute r fun x => { x with jobPos := x.pos }

/-- The advance job of a Round (R318, R330): both chips ask for the list blocks they need; the keeper acts. -/
def routeJob (c : Chip) : Chip :=
  if !c.rteOn then c
  else
    let c := c.activeRoutes.foldl (fun c r => c.mapRoute r fun x => { x with asked := x.asked ++ blocksWanted x }) c
    if c.isKeeper then c.activeRoutes.foldl advanceRoute c else c

/-- A block of a Route's list has been read (R312): its entries resolve to objects of domains that the owner may map, or are skipped. -/
def resolveBlock (c : Chip) (r b : Nat) (line : Nat → Line) : Chip :=
  let x := c.route r
  if !x.asked.contains b then c
  else
    let c := c.mapRoute r fun x => { x with asked := dropN x.asked b, blocks := insertN x.blocks b }
    let c := c.cnt K.RTE_LIST_BLOCKS_READ
    ((List.range 64).filter fun i => decide (64 * b + i < x.length)).foldl (fun c i =>
      let j := 64 * b + i
      let bs := (List.range 4).map fun k => byteOf (line (x.listDpa + 4 * j)) ((x.listDpa + 4 * j + k) % 64)
      let v := entryWord bs
      let n := v % 2 ^ 20
      let o := c.trm.objects.get (fun _ => {}) n
      let ok := decide (v < 2 ^ 20) && decide (o.count > 0) &&
        (match c.domainOf (o.first * 2 ^ 21) with | some d => c.mayMap x.owner d | none => false)
      let c := c.mapRoute r fun y => { y with entries := y.entries.set (fun _ => 0) j (if ok then n + 2 else 1) }
      if ok then c else (c.cnt K.RTE_BAD_ENTRIES).raise F.RTE_EV_BAD_ENTRY) c

end Chip

open Chip

/-- LIST_BLOCK_READ_DONE (R311, R312): a block of 64 entries that the window needs has been read from the chip's own copy. -/
def execListBlockReadDone (w : Twin) (slot : Fin 256) (block : Nat) (s : State) : Host.Outcome State Fault Refusal :=
  .next (s.onUp w fun c => c.resolveBlock slot.val block fun a => (c.fullLine (lineBase a)).1)

end Sys2Proof.Machine
end

