-- ==== Sys2Proof/Machine/Requests.lean ====
section
/-! DEFINITION. Requests of the hosts: arrival at the home and at the carbon, admission, the drain of the WMB, and their commands (R112 to
R141, R238 to R243). -/
namespace Sys2Proof.Machine

namespace Chip

/-! ## Admission (R113, R140) -/

/-- Which token a request takes: reads and writes have one each, other requests none (R140). -/
inductive TokenKind where
  | read | write | none
  deriving DecidableEq, Repr

/-- The token of a request. -/
def tokenOf (k : ReqKind) : TokenKind :=
  match k with
  | .memRd | .memRdData => .read
  | .memWr | .memWrPtl => .write
  | _ => .none

/-- The rate and the tokens held of a head's bucket. -/
def bucket (c : Chip) (h : Fin 24) (k : TokenKind) : Nat × Nat :=
  match k with
  | .read => (c.cfg (F.SRT_HEAD_RD_RATE h.val), (c.head h).rdTokens)
  | .write => (c.cfg (F.SRT_HEAD_WR_RATE h.val), (c.head h).wrTokens)
  | .none => (0, 0)

/-- Whether the dirty-budget governor limits write refills now (R388, R389). -/
def throttles (c : Chip) : Bool := c.running 0x0D0 && (c.get F.GOV_GOV_STATE == 3 || c.get F.GOV_GOV_STATE == 4)

/-- Whether a head's bucket holds a token: an unregulated bucket always does (R140), but for a write that the governor limits. -/
def hasToken (c : Chip) (h : Fin 24) (k : TokenKind) : Bool :=
  let b := c.bucket h k
  (b.1 == 0 && !(k == .write && c.throttles)) || decide (b.2 > 0) || k == .none

/-- Takes a token. -/
def takeToken (c : Chip) (h : Fin 24) (k : TokenKind) : Chip :=
  match k with
  | .read => if c.cfg (F.SRT_HEAD_RD_RATE h.val) = 0 then c else c.mapHead h fun x => { x with rdTokens := x.rdTokens - 1 }
  | .write => if c.cfg (F.SRT_HEAD_WR_RATE h.val) = 0 && !c.throttles then c else c.mapHead h fun x => { x with wrTokens := x.wrTokens - 1 }
  | .none => c

/-- The tags a head has in use. -/
def tagsOf (c : Chip) (h : Fin 24) : Nat := (c.tags.filter fun t => t.req.head == h).length

/-- Whether an earlier request of the head to the line has not yet entered the WMB, or taken its data, or still waits in a receive queue
(R113, R118). -/
def sameLineWaits (c : Chip) (r : Request) (dpa : Nat) : Bool :=
  let x := c.head r.head
  (c.tags.any fun t => t.req.head == r.head && t.dpa == lineBase dpa &&
    (if isWrite t.req.kind then at' t .order || at' t .snoop else !t.fixed && !at' t .done)) ||
  (x.reqQ ++ x.rwdQ).any fun q => posLater r.pos.code q.pos.code && (c.decodeHpa r.head q.hpa).map lineBase == some (lineBase dpa)

/-- The first condition of R113 that a request fails, in order; 5 is a line held for cross-twin repair (R211), 6 a save that holds the
ports (R395) or a Sorter that is not RUNNING (R52). -/
def failing (c : Chip) (r : Request) : Option Nat :=
  let dpa := c.decodeHpa r.head r.hpa
  let onLine (p : Nat → Bool) : Bool := match dpa with | some a => p a | none => false
  if !c.hasToken r.head (tokenOf r.kind) then some 1
  else if r.kind != .memSpecRd && decide (c.tagsOf r.head ≥ c.cfg (F.SRT_HEAD_TAG_MAX r.head.val)) then some 2
  else if onLine (c.sameLineWaits r) then some 3
  else if isWrite r.kind && r.enables != 0 && onLine c.wmbFull then some 4
  else if isWrite r.kind && onLine c.heldLine then some 5
  else if c.svc.held || !c.running 0x050 then some 6
  else none

/-- What a wait under a condition counts and raises. -/
def noteWait (c : Chip) (r : Request) (n : Nat) : Chip :=
  match n with
  | 1 => (c.cnt (if isWrite r.kind then K.SRT_WR_WAIT r.head.val else K.SRT_RD_WAIT r.head.val)).raise F.SRT_EV_REGULATED
  | 3 => c.cnt K.SRT_SAME_LINE_HOLDS
  | 4 => (c.cnt K.WMB_FULL_WAITS).raise F.WMB_EV_FULL
  | _ => c

/-- An unmapped access (R78): a read returns all-ones with poison, a write is not performed; counted, with a record for the first of a
Delivery. A MemInv or MemInvNT, which R78 does not name, counts as a read and is answered with Cmp (DESIGN CHOICE, log 118). -/
def unmapped (c : Chip) (t : Tag) : Chip :=
  let h := t.req.head
  let c := (c.cnt (if isWrite t.req.kind then K.HCFG_UNMAPPED_WRITES h.val else K.HCFG_UNMAPPED_READS h.val)).raise
    (F.HCFG_EV_UNMAPPED_ACCESS h.val)
  let c := if (c.head h).unmappedNoted then c else
    (c.mapHead h fun x => { x with unmappedNoted := true }).headRecord h 1 (F.HCFG_EV_UNMAPPED_ACCESS h.val).page 1 t.req.hpa
  match t.req.kind with
  | .memRd | .memRdData => c.respondData t (BitVec.allOnes 512) true
  | _ => c.respondCmp t

/-- A commons access takes its entry in the Sorter: a writeback that answers a snoop is applied at once (R242); any other waits for its
order. -/
def enterCommons (c : Chip) (t : Tag) : Chip :=
  let r := t.req
  let c := { c with tags := c.tags ++ [{ t with stage := .order }] }
  if isWrite r.kind && c.che.snoops.any fun x => x.line == t.dpa && x.head == r.head then
    let c := c.cnt K.SNP_WRITEBACKS
    let e := c.dirEntry t.dpa
    let c := if byOwner e r.head then c.setDir t.dpa (resultOf r e false).1 else c
    ((c.wmbWrite r.head r.pos.code t.dpa r.data (reqMask r) r.poison (r.kind == ReqKind.memWr)).completeWrite { t with stage := .order }).runCommons
  else c.runCommons

/-- A read or write of CXL.mem shows the Routes where its host is (R318, R320). -/
def showRoutes (c : Chip) (r : Request) (dpa : Nat) : Chip :=
  match r.kind with
  | .memRd | .memRdData | .memWr | .memWrPtl => c.routeSee dpa
  | _ => c

/-- Whether a write to an extent is stored here (R217): a joiner stores those of extents whose copy has begun or ended. -/
def storesWrite (c : Chip) (dpa : Nat) : Bool :=
  c.mode != mJOINING || (c.twe.inCopy.contains (extentOf dpa) && !c.twe.paused.contains (extentOf dpa)) || c.twe.copied.contains (extentOf dpa)

/-- A joiner that cannot hold a write to an extent in copy, for lack of WMB lines, pauses the extent's copy (R217): its held lines and what has
arrived are dropped, and the copy is announced afresh. -/
def pauseCopy (c : Chip) (dpa : Nat) : Chip :=
  let e := extentOf dpa
  if c.mode != mJOINING || !c.twe.inCopy.contains e || c.wmbHolds (lineBase dpa) || decide (c.wmb.length < 259072) then c
  else
    let ls := (c.wmb.filter fun (x : Nat × WmbEntry) => extentOf (x.1 * 64) == e).map fun x => x.1 * 64
    let c := ls.foldl (fun c l => (c.setWmb l {}).releaseHere l) c
    { c with twe := { c.twe with
      paused := insertN c.twe.paused e
      arrived := c.twe.arrived.filter fun (x : Nat × List Host.Cell × List Nat) => x.1 != e } }

/-- A MemSpecRd (R121): the row of a line in DRAM is opened early where SPEC_EN is 1 and its channel queue has room; any other hint is dropped
and counted. -/
def hint (c : Chip) (r : Request) : Chip :=
  let room := !(c.head r.head).noRoom.contains r.pos.code
  let c := c.mapHead r.head fun x => { x with noRoom := dropN x.noRoom r.pos.code }
  match c.decodeHpa r.head r.hpa with
  | none => c.cnt K.SRT_SPEC_DROPPED
  | some dpa =>
    if c.cfgOn F.SRT_SRT_CFG_SPEC_EN && room && c.inDram dpa then (c.meetChannel (c.place (c.dramAddr dpa)).ch).openEarly (c.dramAddr dpa)
    else c.cnt K.SRT_SPEC_DROPPED

/-- A head takes a tag: TAG_PEAK follows, and TAG_LIMIT is raised where the head reaches TAG_MAX (R157). -/
def openTag (c : Chip) (h : Fin 24) : Chip :=
  let n := c.tagsOf h + 1
  let c := c.peak (K.SRT_TAG_PEAK h.val) n
  if n = c.cfg (F.SRT_HEAD_TAG_MAX h.val) then c.raise F.SRT_EV_TAG_LIMIT else c

/-- A request that takes a tag enters the Sorter on its home (R113, R122, R131). -/
def admitTagged (c : Chip) (r : Request) : Chip :=
  let c := (c.takeToken r.head (tokenOf r.kind)).openTag r.head
  let t : Tag := { req := r, dpa := lineBase ((c.decodeHpa r.head r.hpa).getD 0), isTag := true, stage := .translate }
  match c.decodeHpa r.head r.hpa with
  | none => ({ c with tags := c.tags ++ [t] }).unmapped t
  | some dpa =>
    let c := c.showRoutes r dpa
    let c := if isWrite r.kind then (c.mapHead r.head fun x => { x with admitted := some r.pos.code }).bridgeWrite r (lineBase dpa) else c
    if c.inCommons dpa then c.enterCommons t
    else
      let c := { c with tags := c.tags ++ [t] }
      match r.kind with
      | .memWr | .memWrPtl =>
        (c.wmbWrite r.head r.pos.code t.dpa r.data (reqMask r) r.poison (r.kind == ReqKind.memWr)).completeWrite t
      | .memInv | .memInvNT => c.respondCmp t
      | _ => c.beginRead t

/-- A request that meets every condition leaves its queue on the home: its credit is owed to the host (R112), and it enters the Sorter, but for
a hint, which takes no tag and no token (R121). -/
def admitOne (c : Chip) (r : Request) : Chip :=
  let c := c.mapHead r.head fun x => if isWrite r.kind then { x with rwdOwed := x.rwdOwed + 1 } else { x with reqOwed := x.reqOwed + 1 }
  if r.kind = .memSpecRd then c.hint r else c.admitTagged r

/-- The receive queue of a request kind, and the head with it replaced. -/
def queueOf (x : Head) (write : Bool) : List Request := if write then x.rwdQ else x.reqQ

/-- A head with a receive queue replaced. -/
def withQueue (x : Head) (write : Bool) (q : List Request) : Head := if write then { x with rwdQ := q } else { x with reqQ := q }

/-- The request at the front of a head's queue is admitted where it meets every condition; else it waits (R113, R116). Each condition
is noted once for a request. -/
def admitFront (c : Chip) (h : Fin 24) (write : Bool) : Chip :=
  match queueOf (c.head h) write with
  | [] => c
  | r :: q =>
    match c.failing r with
    | none =>
      let c := c.mapHead h fun x =>
        let x := withQueue x write q
        if write then { x with rwdNoted := [], lastWasReq := false } else { x with reqNoted := [], lastWasReq := true }
      ({ c with admitPtr := (h.val + 1) % 24 } : Chip).admitOne r
    | some n =>
      let noted := if write then (c.head h).rwdNoted else (c.head h).reqNoted
      if noted.contains n then c
      else (c.mapHead h fun x => if write then { x with rwdNoted := n :: noted } else { x with reqNoted := n :: noted }).noteWait r n

/-- Whether the request at the front of a queue meets every condition. -/
def frontReady (c : Chip) (h : Fin 24) (write : Bool) : Bool :=
  match queueOf (c.head h) write with
  | [] => false
  | r :: _ => (c.failing r).isNone

/-- Whether it is the turn of a head's other queue: both hold a request that meets every condition, and they alternate from Req on (R113). -/
def otherFirst (c : Chip) (h : Fin 24) (write : Bool) : Bool :=
  c.frontReady h true && c.frontReady h false && write != (c.head h).lastWasReq

/-! ## The histories of a link (R99) -/

/-- The host acknowledges the home's flits: those it and the carbon have leave the history (R99). -/
def ackTx (c : Chip) (h : Fin 24) (flit : Nat) : Chip :=
  c.mapHead h fun x =>
    let a := flitMax x.hostAck flit
    let keep (t : TxFlit) : Bool := flitLater t.flit a || (x.peerTracks && flitLater t.flit x.tapDown)
    { x with hostAck := a, txHist := x.txHist.filter keep }

/-- A request joins the history entry of its flit, or a new one. -/
def addRx (l : List RxFlit) (flit round : Nat) (r : Option Request) : List RxFlit :=
  match l.getLast? with
  | some x => if x.flit = flit then l.dropLast ++ [{ x with reqs := x.reqs ++ r.toList }] else l ++ [⟨flit, r.toList, round⟩]
  | none => [⟨flit, r.toList, round⟩]

/-- A flit of the host reaches the home: counted, and held in the receive history, which the oldest leaves where it is full (R99, R109). -/
def hearFlit (c : Chip) (h : Fin 24) (flit : Nat) (r : Option Request) : Chip :=
  let c := if ((c.head h).rxHist.getLast?.map fun x => x.flit) = some flit then c else c.cnt (K.HLNK_FLITS_RX h.val)
  let all := addRx (c.head h).rxHist flit c.round r
  let lost := all.length - c.histCap h
  let c := c.mapHead h fun x => { x with rxHist := all.drop lost, rxCount := flitMax x.rxCount flit }
  (c.histFull h (decide (lost > 0) && (c.head h).peerTracks)).raiseHist h

/-- A flit of the host that carries no request of CXL.mem reaches the home. -/
def hearOther (c : Chip) (h : Fin 24) : Chip := c.hearFlit h (((c.head h).rxCount + 1) % 2 ^ 36) none

/-- The M2S Req and RwD credits that a head advertises (R112). -/
def advertised (c : Chip) (h : Fin 24) : Nat × Nat :=
  match c.get (F.HLNK_LINK_WIDTH h.val) with
  | 4 => (256, 128)
  | 3 => (128, 64)
  | _ => (64, 32)

/-- Whether the host holds a credit for a request (R112): one that holds none sends nothing. -/
def hasCredit (c : Chip) (h : Fin 24) (write : Bool) : Bool :=
  let x := c.head h
  if write then decide (x.rwdUsed < (c.advertised h).2) else decide (x.reqUsed < (c.advertised h).1)

/-- A request uses a credit of its kind. -/
def useCredit (c : Chip) (h : Fin 24) (write : Bool) : Chip :=
  c.mapHead h fun x => if write then { x with rwdUsed := x.rwdUsed + 1 } else { x with reqUsed := x.reqUsed + 1 }

/-- Credits that no flit has taken back go with a flit of their own (R112). -/
def returnCredits (c : Chip) (h : Fin 24) : Chip :=
  let x := c.head h
  if c.isHome (portOf h) && c.inL0 h && (x.reqOwed != 0 || x.rwdOwed != 0) then c.toHost h .credits else c

/-- A request arrives at the home: its flit enters the history, it uses a credit and waits in its queue; then one request whose turn it is
is admitted, if it meets every condition (R99, R112, R113). -/
def arriveHome (c : Chip) (r : Request) (hostAck : Nat) : Chip :=
  let h := r.head
  let w := isWrite r.kind
  let c := (((c.ackTx h hostAck).hearFlit h r.pos.flit (some r)).useCredit h w).mapHead h fun x =>
    { withQueue x w (queueOf x w ++ [r]) with seenPos := some r.pos.code }
  c.admitFront h (if c.otherFirst h w then !w else w)

/-! ## The carbon (R100, R115, R129) -/

/-- The carbon sends TAP_WM of a direction, where it moves forward (R175, R176). -/
def sendTapWm (c : Chip) (h : Fin 24) (d : Direction) (flit : Nat) : Chip :=
  let k := (c.head h).track
  match d with
  | .hostToDevice =>
    if !flitLater flit k.decodedUp then c
    else (c.mapHead h fun x => { x with track := { x.track with decodedUp := flit } }).post (.tapWm h d flit)
  | .deviceToHost =>
    if !flitLater flit k.decodedDown then c
    else (c.mapHead h fun x => { x with track := { x.track with decodedDown := flit } }).post (.tapWm h d flit)

/-- The carbon sees a request: a shadow entry is opened, and a write is stored at once and covered (R115, R129, R132). A write to a held
line waits, and later writes of the head behind it (R211). -/
def carbonUse (c : Chip) (r : Request) : Chip :=
  let h := r.head
  match c.decodeHpa h r.hpa with
  | none => { c with tags := c.tags ++ [{ req := r, dpa := 0, isTag := false, stage := .done }] }
  | some a =>
    let dpa := lineBase a
    let t : Tag := { req := r, dpa, isTag := false, stage := .done }
    let c := c.showRoutes r dpa
    let c := if isWrite r.kind then c.pauseCopy dpa else c
    if isWrite r.kind && !c.storesWrite dpa then
      { c with tags := c.tags ++ [t] }.sendWriteWm h r.pos.code
    else if c.inCommons dpa then
      let c := if isWrite r.kind then c.sendWriteWm h r.pos.code else c
      c.enterCommons t
    else
      let c := { c with tags := c.tags ++ [t] }
      if isWrite r.kind then
        (c.wmbWrite h r.pos.code dpa r.data (reqMask r) r.poison (r.kind == ReqKind.memWr)).sendWriteWm h r.pos.code
      else
        let e := c.wmbEntry dpa
        let c := c.touchExtent (extentOf dpa)
        if (e.state != .free && e.mask == allBytes) || c.trm.patchLines.contains dpa then c
        else match c.tierOf dpa with
          | .back => c.earnHit (extentOf dpa)
          | _ => c

/-- The carbon takes up what waits behind a hold, in order, as far as no line of it is held. -/
def carbonPump (c : Chip) (h : Fin 24) : Nat → Chip
  | 0 => c
  | n + 1 =>
    match (c.head h).rwdQ with
    | [] => c
    | r :: q =>
      if c.svc.held || (match c.decodeHpa h r.hpa with | some a => c.heldLine a | none => false) then c
      else ((c.mapHead h fun x => { x with rwdQ := q }).carbonUse r).carbonPump h n

/-- The carbon decodes a request in stream order: it mirrors the home's use of credits (R115), and follows it, but for a hint. -/
def carbonSee (c : Chip) (r : Request) : Chip :=
  let h := r.head
  let c := (c.useCredit h (isWrite r.kind)).mapHead h fun x => { x with seenPos := some r.pos.code }
  if isWrite r.kind then (c.mapHead h fun x => { x with rwdQ := x.rwdQ ++ [r] }).carbonPump h ((c.head h).rwdQ.length + 1)
  else if r.kind = .memSpecRd then c
  else c.carbonUse r

/-- The carbon decodes a flit of the host in stream order. -/
def carbonFlit (c : Chip) (f : RxFlit) (h : Fin 24) : Chip :=
  (f.reqs.foldl carbonSee (c.cnt (K.HLNK_FLITS_RX h.val))).sendTapWm h .hostToDevice f.flit

/-- A flit with a request passes the carbon: followed where its link is TRACKING; one it cannot decode is fetched, and those behind it wait,
so no later write goes ahead (R100). -/
def arriveCarbon (c : Chip) (r : Request) (saw : Bool) (hostAck : Nat) : Chip :=
  let h := r.head
  if c.trackState h ≠ 2 then c
  else
    let c := c.mapHead h fun x => { x with
      hostAck := flitMax x.hostAck hostAck
      track := { x.track with kept := x.track.kept.filter fun t => flitLater t.flit hostAck } }
    let k := (c.head h).track
    if !saw || k.missed.contains r.pos.flit then
      (c.mapHead h fun x => { x with track := { k with missed := insertN k.missed r.pos.flit } }).showFetches h
    else if k.missed.isEmpty && k.behind.isEmpty then c.carbonFlit ⟨r.pos.flit, [r], c.round⟩ h
    else c.mapHead h fun x => { x with track := { k with behind := k.behind ++ [⟨r.pos.flit, [r], c.round⟩] } }

/-! ## The drain of the WMB (R127, R128, R130, R286, R389) -/

/-- Whether occupancy makes every VALID entry eligible (R128). -/
def wmbHigh (c : Chip) : Bool := decide (c.wmb.length * 100 ≥ 262144 * c.cfg F.WMB_DRAIN_CFG_HIGH_PCT)

/-- The bytes that a drain of a line would add to UNSAVED: a new patch block or a new frame dirty bit (R389). -/
def drainAdds (c : Chip) (line : Nat) : Nat :=
  let p := parcelOf line
  if c.landsAsPatch line then
    if c.trm.patchLines.contains line || (c.patchOf p).length % 62 ≠ 0 then 0 else 4096
  else if c.trm.dirty.contains p then 0 else 65536

/-- Whether the governor holds a drain: it would take UNSAVED above the budget (R389). -/
def drainHeld (c : Chip) (line : Nat) : Bool :=
  c.running 0x0D0 && decide (c.drainAdds line > 0) && decide (c.unsaved + c.drainAdds line > c.get F.GOV_BUDGET_MIB * 2 ^ 20)

/-- Whether a drain that lands as a patch line finds no free block, or a full set in the patch index (R287). -/
def patchWaits (c : Chip) (line : Nat) : Bool :=
  c.landsAsPatch line && !c.trm.patchLines.contains line && (c.patchOf (parcelOf line)).length % 62 == 0 &&
    (c.patchFree == 0 || c.indexFull (parcelOf line))

/-- Whether the tiers can take a drain of a line now: its extent's state is decided, it has its frame, no step runs on its parcel, no
resync copy holds it (R217, R262, R281, R282). -/
def tierTakes (c : Chip) (line : Nat) : Bool :=
  let e := c.ext (extentOf line)
  e.state != 0 && !(e.state == 2 && e.frame.isNone) && !c.trm.stepRunning.contains (parcelOf line) &&
    !c.twe.inCopy.contains (extentOf line)

/-- Whether DRAM can take a drain of a line now: its rank in service, its row under no PPR (R426, R436), its set of the patch index not being
rebuilt (R444). -/
def dramTakes (c : Chip) (line : Nat) : Bool :=
  let p := c.place (c.dramAddr line)
  (c.chan p.ch).out != some p.rank && (c.chan p.ch).pprFrom != some (p.rank, p.bg, p.ba, p.row) &&
    !(c.landsAsPatch line && c.indexIsLost (parcelOf line)) && !c.refetching line

/-! ### The channel queue (R418, R431 to R433) -/

/-- The other line of a line's pair, by DPA. -/
def partnerOf (line : Nat) : Nat := if line / 64 % 2 = 0 then line + 64 else line - 64

/-- Whether two lines are one pair in DRAM. -/
def onePair (c : Chip) (a b : Nat) : Bool := c.dramAddr a / 128 == c.dramAddr b / 128

/-- The host reads that wait in the queue of a channel, oldest first. -/
def queuedReads (c : Chip) (d : Nat) : List Tag :=
  c.tags.filter fun t => at' t .dram && !t.issued && (c.place (c.dramAddr t.dpa)).ch == d

/-- Whether a read of the queue is ready. -/
def readyRead (c : Chip) (t : Tag) : Bool := c.canServe (c.place (c.dramAddr t.dpa))

/-- The read that issues next (R418): of the first `aged` requests, which have waited AGE_CAP_NS, the oldest that is ready; else the oldest to an open
row; else the oldest. -/
def nextRead (c : Chip) (d aged : Nat) : Option Tag :=
  let q := c.queuedReads d
  let ready := q.filter c.readyRead
  match (q.take aged).filter c.readyRead with
  | t :: _ => some t
  | [] => match ready.find? fun t => c.rowOpen (c.place (c.dramAddr t.dpa)) with
    | some t => some t
    | none => ready.head?

/-- Whether a host read of a channel is ready that its tokens let issue: no other client borrows then (R432). -/
def hostReady (c : Chip) (d : Nat) : Bool := c.holdsTokens d .hostRd 2 && (c.queuedReads d).any c.readyRead

/-- Whether a line is on its way to the write queue of a channel. -/
def drainsOn (c : Chip) (d : Nat) : Bool :=
  c.wmb.any fun x => x.2.state == .draining && (c.place (c.dramAddr (x.1 * 64))).ch == d

/-- Whether a host read may issue: with its two tokens, or borrowing while no drain that holds its tokens is ready (R432). -/
def readMay (c : Chip) (d : Nat) : Bool :=
  c.holdsTokens d .hostRd 2 || (c.cfgOn (F.DRG_REG_BORROW d Client.hostRd.no) && !(c.holdsTokens d .wmb 4 && c.drainsOn d))

/-- Whether a drain may issue: with the four tokens of a pair merge, or borrowing while no host read is ready (R431, R432). The second line of a pair
whose first is on its way takes none more (R414). -/
def drainMay (c : Chip) (line : Nat) : Bool :=
  let d := (c.place (c.dramAddr line)).ch
  c.holdsTokens d .wmb 4 || (c.cfgOn (F.DRG_REG_BORROW d Client.wmb.no) && !c.hostReady d)

/-- Whether a drain of a line would join the pair write of its partner (R414). -/
def joinsPartner (c : Chip) (line : Nat) : Bool := (c.wmbEntry (partnerOf line)).state == .draining && c.onePair line (partnerOf line)

/-- A drain is issued: it takes the tokens of a pair merge, of which its partner's arrival gives two back. -/
def issueDrain (c : Chip) (line : Nat) : Chip :=
  let d := (c.place (c.dramAddr line)).ch
  let c := c.meetChannel d
  if c.regRate d .wmb = 0 then c
  else if c.joinsPartner line then c.setTokens d .wmb (min (c.bucketDepth d .wmb) (c.tokens d .wmb + 2))
  else if c.tokens d .wmb ≥ 4 then c.setTokens d .wmb (c.tokens d .wmb - 4)
  else c.cnt (K.DRG_BORROWED d Client.wmb.no)

/-- The accesses that wait for tokens issue as far as these go, in the order of the clients (R432, R433). -/
def settleChannels (c : Chip) : Chip :=
  c.chans.foldl (fun c x => if x.2.owed.isEmpty then c
    else clientOrder.foldl (fun c k => c.settleClient x.1 k (c.hostReady x.1)) c) c

/-- Whether an entry may be issued now. -/
def mayDrain (c : Chip) (line : Nat) : Bool :=
  (c.wmbEntry line).state == .valid && ((c.wmbEntry line).eligible || c.wmbHigh) && c.tierTakes line &&
    c.rangeReady (c.lineRange line) && c.dramTakes line && !c.patchWaits line && !c.drainHeld line

/-- Whether no older entry may be issued: eligible entries drain oldest first. -/
def oldestDrain (c : Chip) (line : Nat) : Bool :=
  c.wmb.all fun x => decide (x.2.age ≥ (c.wmbEntry line).age) || !c.mayDrain (x.1 * 64)

/-- A drained line is written (R414): both lines of a pair on their way at once by one pair write, else by a pair merge, which reads the pair first. -/
def writePair (c : Chip) (line : Nat) : Chip :=
  let a := c.dramAddr line
  let d := (c.place a).ch
  if (c.chan d).joined.contains line then c.mapChan d fun x => { x with joined := dropN x.joined line }
  else if c.joinsPartner line then
    ((c.accessRow a true).cnt (K.DRG_LINES d Client.wmb.no) 2).mapChan d fun x => { x with joined := insertN x.joined (partnerOf line) }
  else (((c.accessRow a false).accessRow a true).cnt (K.DCH_PAIR_MERGES d)).cnt (K.DRG_LINES d Client.wmb.no) 4

/-- Whether fewer patch blocks are free than LOW_PCT of the area (R287). -/
def patchLow (c : Chip) : Bool := decide (c.patchFree * 100 < c.patchBlocks * c.cfg F.PCH_PATCH_CFG_LOW_PCT)

/-- Whether a write to a line's pair is queued (R435). -/
def writeQueued (c : Chip) (line : Nat) : Bool :=
  (c.wmbEntry line).state == .draining || c.joinsPartner line

/-- A line of DRAM is read by the chip's own client and found with errors in some devices (R413, R434, R435); one that is miscorrected is stored so
where it is written back. -/
def readLineErrors (c : Chip) (line : Nat) (bad : BitVec 20) (patrol : Bool) : Chip :=
  let a := c.dramAddr line
  match c.decode a bad with
  | (.good, _) => c
  | (.corrected, none) => c.correctedLine a line bad patrol (c.writeQueued line)
  | (.corrected, some l) => (c.correctedLine a line bad patrol (c.writeQueued line)).storeLine line l (c.tierLine line).2
  | (.uncorrectable, _) => c.uncorrectableLine a

/-- What follows a line that has landed as a patch: PATCH_LOW, and the merge of a parcel with 62 patches (R286, R287). -/
def landPatched (c : Chip) (line : Nat) (patch low : Bool) : Chip :=
  let c := if !low && c.patchLow then c.raise F.PCH_EV_PATCH_LOW else c
  let p := parcelOf line
  let c := if patch && (c.ext (extentOf line)).state == 1 && decide ((c.patchOf p).length ≥ 62) && !c.mde.merges.contains p then
    { c with mde := { c.mde with merges := c.mde.merges ++ [p] } } else c
  if patch then c.earnHit (extentOf line) else c

/-- Whether a partial drain of a line merges with what DRAM holds of it (R130): in its frame, or in the patch area. -/
def mergesDram (c : Chip) (line : Nat) (e : WmbEntry) : Bool :=
  e.issuedMask != allBytes && (match c.tierOf line with | .front | .frontPatched => true | _ => c.trm.patchLines.contains line)

/-- A drained line reaches its tier: whole, or merged with the line it lies over (R130); poison stays until a MemWr without it has written the
whole line (R138). -/
def landLine (c : Chip) (line : Nat) (e : WmbEntry) (bad : BitVec 20) : Chip :=
  let c := if c.mergesDram line e then c.readLineErrors line bad false else c
  let t := c.tierLine line
  let bad := e.issuedPoison || (t.2 && !e.issuedWhole)
  let patch := c.landsAsPatch line
  let c := c.writePair line
  (c.storeLine line (mergeLine t.1 e.issued e.issuedMask) bad).landPatched line patch c.patchLow

end Chip

open Chip

/-- What a request does on the pair: its home receives it, and the chip that is carbon of the port follows (R100, R113, R115). A link that
is not in L0, or whose host holds no credit, brings none (R112, R116). -/
def State.arrive (s : State) (r : Request) (v : Arrival) : State :=
  match s.homeOf (portOf r.head) with
  | none => s
  | some w =>
    if !(s.chip w).inL0 r.head || !(s.chip w).hasCredit r.head (isWrite r.kind) then s
    else
      let s := s.mapChip w fun c => c.arriveHome r v.hostAck
      s.mapChip w.other fun c => if c.isCarbon (portOf r.head) then c.arriveCarbon r v.carbonSaw v.hostAck else c

/-! ## The commands -/

/-- MEM_RD (R113, R122 to R124, R137, R238). -/
def execMemRd (r : Request) (v : Arrival) (s : State) : Host.Outcome State Fault Refusal := .next (s.arrive { r with kind := .memRd } v)

/-- MEM_RD_DATA (R239): as MemRd with MetaValue S. -/
def execMemRdData (r : Request) (v : Arrival) (s : State) : Host.Outcome State Fault Refusal :=
  .next (s.arrive { r with kind := .memRdData, metaValue := 3 } v)

/-- MEM_INV (R238). -/
def execMemInv (r : Request) (v : Arrival) (s : State) : Host.Outcome State Fault Refusal := .next (s.arrive { r with kind := .memInv } v)

/-- MEM_INV_NT (R238). -/
def execMemInvNt (r : Request) (v : Arrival) (s : State) : Host.Outcome State Fault Refusal := .next (s.arrive { r with kind := .memInvNT } v)

/-- MEM_WR (R125, R129 to R135): all 64 bytes. -/
def execMemWr (r : Request) (v : Arrival) (s : State) : Host.Outcome State Fault Refusal :=
  .next (s.arrive { r with kind := .memWr, enables := allBytes } v)

/-- MEM_WR_PTL (R125, R126): the enabled bytes. -/
def execMemWrPtl (r : Request) (v : Arrival) (s : State) : Host.Outcome State Fault Refusal :=
  .next (s.arrive { r with kind := .memWrPtl } v)

/-- MEM_SPEC_RD (R113, R121): it waits in the Req queue for its turn; `room` says whether the channel queue of its line has room. -/
def execMemSpecRd (r : Request) (room : Bool) (s : State) : Host.Outcome State Fault Refusal :=
  let note (c : Chip) : Chip := if room then c else c.mapHead r.head fun x => { x with noRoom := insertN x.noRoom r.pos.code }
  .next ((s.onHome r.head note).arrive { r with kind := .memSpecRd } ⟨true, 0⟩)

/-- REQUEST_ADMIT (R113): the request at the front of a receive queue of the home meets the conditions again, and it is its queue's turn. -/
def execRequestAdmit (h : Fin 24) (write : Bool) (s : State) : Host.Outcome State Fault Refusal :=
  .next (s.onHome h fun c => if c.otherFirst h write then c else c.admitFront h write)

/-- What a BIRsp does on both chips of the pair that hear it (R238, R247). -/
def State.birsp (s : State) (h : Fin 24) (line kind : Nat) : State :=
  let real := (s.a.che.snoops ++ s.b.che.snoops).any fun x => x.line == line && x.head == h
  s.mapBoth fun c =>
    if c.isHome (portOf h) then (c.hearOther h).hearBirsp h line kind real
    else if c.isCarbon (portOf h) then c.hearBirsp h line kind real
    else c

/-- BIRSP_I (R238). -/
def execBirspI (h : Fin 24) (line : Nat) (s : State) : Host.Outcome State Fault Refusal := .next (s.birsp h line 0)

/-- BIRSP_S (R238). -/
def execBirspS (h : Fin 24) (line : Nat) (s : State) : Host.Outcome State Fault Refusal := .next (s.birsp h line 1)

/-- BIRSP_E (R238). -/
def execBirspE (h : Fin 24) (line : Nat) (s : State) : Host.Outcome State Fault Refusal := .next (s.birsp h line 2)

/-- BI_CONFLICT (R241): the home answers at once; the head's own request is ordered after the access that caused the snoop. -/
def execBiConflict (h : Fin 24) (line : Nat) (s : State) : Host.Outcome State Fault Refusal :=
  .next (s.onHome h fun c => (c.toHost h (.conflictAck line)).cnt K.SNP_CONFLICTS)

/-- SNOOP_TIMEOUT (R243): the snoop is taken as answered with BIRspI; SNOOP_TIMEOUT, and a record that names the DPA in the head's
Failure log. -/
def execSnoopTimeout (h : Fin 24) (line : Nat) (s : State) : Host.Outcome State Fault Refusal :=
  .next (s.mapBoth fun c =>
    if !(c.che.snoops.any fun x => x.line == line && x.head == h) then c
    else
      let c := ((c.loseHead h (some line) none).cnt K.SNP_SNOOP_TIMEOUTS).raise F.SNP_EV_SNOOP_TIMEOUT
      c.headMedia h 2 .generalMedia 0x092 line)

/-- SHADOW_MIGRATION_DONE (R253): the new arbiter's entries stand in SRAM. -/
def execShadowMigrationDone (w : Twin) (d : Fin 64) (s : State) : Host.Outcome State Fault Refusal :=
  .next (s.onUp w fun c => if c.che.migrating.contains d.val then c.migrateShadow d.val else c)

/-- DIR_BANK_MIGRATE_DONE (R463): the entries of a replaced bank stand in SRAM again. -/
def execDirBankMigrateDone (w : Twin) (bank : Fin 17) (s : State) : Host.Outcome State Fault Refusal :=
  .next (s.onUp w fun c => c.migrateBank bank.val)

/-- The reads of a line that wait for DRAM. -/
def Chip.readsOf (line : Nat) (t : Tag) : Bool := at' t .dram && t.dpa == line

/-- The line of a read comes back (R413, R434, R435): good or corrected, its reads are answered; uncorrectable, they wait for its repair; miscorrected,
they are answered with the line that the decoder gives, under this chip's WMB bytes. -/
def Chip.lineReturns (c : Chip) (line : Nat) (bad : BitVec 20) : Chip :=
  let a := c.dramAddr line
  match c.decode a bad with
  | (.good, _) => (c.continueTags (readsOf line) serveFull).runCommons
  | (.corrected, none) => ((c.correctedLine a line bad false (c.writeQueued line)).continueTags (readsOf line) serveFull).runCommons
  | (.corrected, some l) =>
    let e := c.wmbEntry line
    let c := c.correctedLine a line bad false (c.writeQueued line)
    let c := c.mapTags (fun t => readsOf line t && !t.fixed) fun t =>
      { t with held := mergeLine l e.data e.mask, heldPoison := e.poison, fixed := true }
    (c.continueTags (readsOf line) serveFull).runCommons
  | (.uncorrectable, _) => (c.uncorrectableLine a).mapTags (readsOf line) fun t => { t with stage := .repair }

/-- A pair access of the host reads issues (R414, R418, R431): every queued read of the pair is served by it. -/
def Chip.issueRead (c : Chip) (line : Nat) : Chip :=
  let d := (c.place (c.dramAddr line)).ch
  let c := c.mapTags (fun t => at' t .dram && c.onePair t.dpa line) fun t => { t with issued := true }
  (c.issueAccess d .hostRd 2 line).accessRow (c.dramAddr line) false

/-- DRAM_READ_DONE (R413, R418, R431 to R435): the pair access of a line's reads has issued, in the order of the channel and with its tokens, and
its line returns. `bad` are the devices in error; the first `aged` requests of the queue have waited AGE_CAP_NS. A line whose turn has not come, or
whose client lacks tokens, has not been read yet. -/
def execDramReadDone (w : Twin) (line : Nat) (bad : BitVec 20) (aged : Nat) (s : State) : Host.Outcome State Fault Refusal :=
  .next (s.onUp w fun c =>
    if !c.tags.any (readsOf line) then c
    else if c.tags.any fun t => readsOf line t && t.issued then c.lineReturns line bad
    else
      let d := (c.place (c.dramAddr line)).ch
      match c.nextRead d aged with
      | none => c
      | some t =>
        if !c.onePair t.dpa line then c
        else if c.readMay d then (c.issueRead line).lineReturns line bad
        else c.waitTokens d .hostRd line)

/-! ## Refresh and self-refresh, where they meet the queue (R420, R428) -/

/-- Whether a bank index of a rank has a queued request (R420). -/
def Chip.bankQueued (c : Chip) (d r k : Nat) : Bool :=
  (c.queuedReads d).any fun t => let p := c.place (c.dramAddr t.dpa); p.rank == r && p.ba == k

/-- REFSB_ISSUE (R420): a REFsb is issued when its debt allows and its banks are idle; their open rows are precharged. -/
def execRefsbIssue (w : Twin) (d : Fin 16) (r : Fin 16) (k : Fin 4) (s : State) : Host.Outcome State Fault Refusal :=
  .next (s.onUp w fun c =>
    if c.pwr d.val != 0 || !c.rankServes d.val r.val || c.bankQueued d.val r.val k.val ||
        decide (c.debt d.val r.val k.val ≤ -(c.cfg (F.DRF_REF_CFG_PULLIN d.val) : Int)) then c
    else
      let c := c.setDebt d.val r.val k.val (c.debt d.val r.val k.val - 1)
      let c := c.closeRows d.val fun b => b / 32 == r.val && b % 4 == k.val
      (c.mapChan d.val fun x => { x with refreshing := (r.val, k.val) :: x.refreshing }).cnt (K.DRF_REFSB_ISSUED d.val))

/-- Whether a channel may enter self-refresh (R428): IDLE_US is not 0, nothing is queued, no rank is out of service, and no save is under way. -/
def Chip.mayRest (c : Chip) (d : Nat) : Bool :=
  c.cfg (F.DRF_SR_CFG_IDLE_US d) != 0 && c.pwr d == 0 && (c.queuedReads d).isEmpty && (c.chan d).out.isNone &&
    !(decide (3 ≤ c.svcState) && decide (c.svcState ≤ 5))

/-- SR_IDLE_EXPIRY (R428): the idle channel closes its rows and pays its debts; with none to pay it reaches SRE. -/
def execSrIdleExpiry (w : Twin) (d : Fin 16) (s : State) : Host.Outcome State Fault Refusal :=
  .next (s.onUp w fun c =>
    if !c.mayRest d.val then c
    else
      let c := (List.range 16).foldl (Chip.payDebts d.val) ((c.put (F.DCH_CH_PWR d.val) 1).closeRows d.val fun _ => true)
      if (c.chan d.val).refreshing.isEmpty then c.enterSelfRefresh d.val else c)

/-- TRANSLATION_FILL (R296): the whole line has arrived; its entries are valid, and the head's translations continue in order. -/
def execTranslationFill (w : Twin) (h : Fin 24) (line : Nat) (s : State) : Host.Outcome State Fault Refusal :=
  .next (s.onUp w fun c =>
    if !c.mdc.invalidated || c.trm.tcFill.get (fun _ => none) h.val != some line || c.mdc.fills.any (fun x => x.1 == line) ||
        c.mdc.fillQueue.contains line then c
    else
      let c := { c with trm := { c.trm with
        tcFill := c.trm.tcFill.set (fun _ => none) h.val none
        tcHoles := c.trm.tcHoles.set (fun _ => []) h.val ((c.trm.tcHoles.get (fun _ => []) h.val).filter fun e => extLine e != line) } }
      (c.continueTags (fun t => t.req.head == h && at' t .translate) translate).runCommons)

/-- FILL_RANGE_DONE (R269): the range is READY, and requests that wait for it continue. FILL_DONE is raised with the last. -/
def execFillRangeDone (w : Twin) (range : Nat) (s : State) : Host.Outcome State Fault Refusal :=
  .next (s.onUp w fun c =>
    if c.rangeReady range || decide (c.rangeCount ≤ range) then c
    else
      let c := c.setReady range
      let due := c.tags.filter fun t => at' t .fill && c.lineRange t.dpa == range
      let c := (due.foldl readDram c).pcacheGoOn range
      if c.rangeCount ≤ c.trm.ready.length then c.raise F.TIER_EV_FILL_DONE else c)

/-- DRAIN_ELIGIBLE (R128): HOLD_NS after its last write a VALID entry is eligible. -/
def execDrainEligible (w : Twin) (line : Nat) (s : State) : Host.Outcome State Fault Refusal :=
  .next (s.onUp w fun c =>
    if (c.wmbEntry line).state = .valid then c.setWmb line { c.wmbEntry line with eligible := true } else c)

/-- DRAIN_ISSUE (R128, R432): the oldest entry that may drain is issued; one that the tiers, the patch area, the governor or its client's tokens hold
back waits. `room` says whether the channel's write queue has room. -/
def execDrainIssue (w : Twin) (x : DrainOffer) (s : State) : Host.Outcome State Fault Refusal :=
  .next (s.onUp w fun c =>
    let e := c.wmbEntry x.line
    if e.state != .valid || !(e.eligible || c.wmbHigh) || c.svc.held || !c.tierTakes x.line || !x.room then c
    else if !c.rangeReady (c.lineRange x.line) then c.wantRange (c.lineRange x.line)
    else if c.patchWaits x.line then (c.cnt K.PCH_PATCH_WAITS).raise F.PCH_EV_PATCH_FULL
    else if c.drainHeld x.line then c.cnt K.GOV_DRAIN_HOLDS
    else if !c.oldestDrain x.line || !c.dramTakes x.line then c
    else if !c.joinsPartner x.line && !c.drainMay x.line then c.waitTokens (c.place (c.dramAddr x.line)).ch .wmb x.line
    else (c.issueDrain x.line).setWmb x.line { e with
      state := .draining
      eligible := false
      redrain := false
      issued := e.data
      issuedMask := e.mask
      issuedWhole := e.whole
      issuedPoison := e.poison })

/-- The DMC has a drained line (R127): the entry is FREE, or VALID again where a write came meanwhile. -/
def Chip.drainLands (c : Chip) (line : Nat) (e : WmbEntry) (bad : BitVec 20) : Chip :=
  let c := (c.landLine (lineBase line) e bad).cnt K.WMB_DRAINS
  if e.redrain then
    (c.setWmb line { e with
      state := .valid
      redrain := false
      eligible := false
      issued := 0
      issuedMask := 0
      issuedWhole := false
      issuedPoison := false }).cnt K.WMB_REDRAINS
  else (c.setWmb line {}).releaseHere line

/-- LOCAL_STALL (R134): while a locally completed write of the port is not covered, later local-mode writes wait for the peer. -/
def execLocalStall (w : Twin) (p : Fin 6) (s : State) : Host.Outcome State Fault Refusal :=
  .next (s.onUp w fun c =>
    let open' := (portHeads p).any fun h => match (c.head h).localPos with
      | some q => !covers (c.head h).covered q
      | none => false
    if !c.mirrored || !c.isHome p || !open' || c.localStall.contains p.val then c
    else ({ c with localStall := p.val :: c.localStall }.cnt K.WMB_LOCAL_STALLS).raise F.WMB_EV_LOCAL_STALL)

end Sys2Proof.Machine
end

