-- ==== Sys2Proof/Machine/Media.lean ====
section
/-! DEFINITION. The media engine of one chip: the Last, its streams and rows, reads and their outcome, programs, erases, merges,
relocations, defects and modules, and their commands (R336 to R378). -/
namespace Sys2Proof.Machine

/-- The streams of R355. -/
abbrev sHOST : Nat := 0
abbrev sGC : Nat := 1
abbrev sRESOLE : Nat := 2
abbrev sMETA : Nat := 3
abbrev sINSOLE : Nat := 4

namespace Chip

/-! ## Geometry (R340 to R344) -/


/-- A figure of the format: as recorded when it began, or as it would be recorded now (R344). -/
def fmtOf (c : Chip) (i : Nat) (now : Nat) : Nat := c.mde.fmt.getD i now

/-- BUDGET_CAP in GiB, SPARE_PCT, D and META_GIB of the format; D is 28, or 24 with FORCE_24. -/
def fmtCap (c : Chip) : Nat := c.fmtOf 0 (c.get F.GOV_BUDGET_CFG_CAP_GIB)
def fmtSpare (c : Chip) : Nat := c.fmtOf 1 (c.cfg F.LAST_LAST_CFG_SPARE_PCT)
def dFmt (c : Chip) : Nat := c.fmtOf 2 (if c.cfg F.LAST_LAST_CFG_FORCE_24 = 1 then 24 else 28)
def fmtMeta (c : Chip) : Nat := c.fmtOf 3 (c.cfg F.LAST_LAST_CFG_META_GIB)

/-- The rows that a format gives a position: good blocks less the spares (R344). -/
def rowsAtPos (c : Chip) (u : Nat) : Nat := c.mde.scan.good.getD u 0 * (100 - c.fmtSpare) / 100

/-- ROWS_TOTAL. -/
def rowsTotal (c : Chip) : Nat := if c.mde.formatted then ((List.range c.mde.scan.positions).map c.rowsAtPos).sum else 0

/-- The rows of the Insole: six times the format's budget cap, in SLC mode (R344, R391). -/
def insoleRows (c : Chip) : Nat := (6 * c.fmtCap * 2 ^ 30 + 32 * c.blockBytes - 1) / max 1 (32 * c.blockBytes)

/-- The rows of the metadata area. -/
def metaRows (c : Chip) : Nat := (c.fmtMeta * 2 ^ 30 + c.dFmt * c.blockBytes - 1) / max 1 (c.dFmt * c.blockBytes)

/-- The host capacity that a format fixes, in units of 256 MiB (R344). -/
def hostCapacity (c : Chip) : Nat :=
  let u := ((List.range c.mde.scan.positions).map c.rowsAtPos).sum * c.dFmt * c.blockBytes
  let i := c.insoleRows * c.dFmt * c.blockBytes
  min (2 ^ 48) ((u - i - c.fmtMeta * 2 ^ 30) * (100 - c.cfg F.LAST_LAST_CFG_OP_PCT) / 100) / 2 ^ 28

/-- What a row is before anything was written to it: free once formatted; the Insole takes the first rows and the metadata area those
after it. -/
def rowInit (c : Chip) (r : Nat) : MdeRow :=
  let p := max 1 c.mde.scan.positions
  if !c.mde.formatted || decide (r / p ≥ c.rowsAtPos (r % p)) then {}
  else { state := 0, stream := if r < c.insoleRows then sINSOLE else if r < c.insoleRows + c.metaRows then sMETA else sHOST }

/-- A row of the Last. -/
def row (c : Chip) (r : Nat) : MdeRow := c.mde.rows.get c.rowInit r

/-- The chip with a row replaced. -/
def setRow (c : Chip) (r : Nat) (x : MdeRow) : Chip := { c with mde := { c.mde with rows := c.mde.rows.set c.rowInit r x } }


/-- Whether a column is live at a position: its module ACTIVE, its channel not FAILED, its LUN not retired or excluded (R340, R368). -/
def colLive (c : Chip) (u k : Nat) : Bool :=
  c.modState (k / 4) == 1 && c.get (F.CHN_CHAN_STATE k) != 3 && !c.mde.retiredLuns.contains (k * 32 + u) &&
    !(c.get (F.CHN_CHAN_CFG_LUN_OFF k)).testBit u

/-- The live columns of a position, as a mask. -/
def liveMask (c : Chip) (u : Nat) : Nat := (List.range 32).foldl (fun a k => if c.colLive u k then a + 2 ^ k else a) 0

/-- The columns of a mask. -/
def colsOf (m : Nat) : List Nat := (List.range 32).filter fun k => m.testBit k

/-- The data cells that a row holds, its index apart (R341, R342). -/
def rowCells (c : Chip) (r : MdeRow) : Nat := (colsOf r.live).length * (c.blockBytes / 512) / (r.data + 4) * r.data

/-- Whether a copy of some cells fits in a row, beside the row index of 16 B a parcel. -/
def fits (c : Chip) (r : MdeRow) (cells : Nat) : Bool := decide (r.nextCell + cells + (16 * (r.parcels + 1) + 511) / 512 ≤ c.rowCells r)

/-! ## Free rows (R357) -/

/-- The rows outside the Insole and the metadata area. -/
def dataRows (c : Chip) : Nat := c.rowsTotal - c.insoleRows - c.metaRows

/-- The free rows among them: erased, or waiting to be erased. -/
def freeRows (c : Chip) : Nat :=
  c.dataRows - (c.mde.rows.filter fun x => (x.2.state == 1 || x.2.state == 2) && x.2.stream != sINSOLE && x.2.stream != sMETA).length

/-- FREE_PCT. -/
def freePct (c : Chip) : Nat := c.freeRows * 100 / max 1 c.dataRows

/-- The bytes in the staging area. -/
def stageUsed (c : Chip) : Nat := 512 * (c.mde.staged.map fun x => x.cells).sum

/-- Whether the write backlog is urgent. -/
def urgent (c : Chip) : Bool :=
  decide (c.freePct < c.cfg F.BKG_GC_CFG_LOW_PCT) || decide (c.stageUsed * 4 > c.cfg F.MDE_MDE_CFG_STAGE_MIB * 2 ^ 20 * 3)

/-- Whether a row may be opened: erased, at a position with at least 28 live columns (R340). -/
def mayOpen (c : Chip) (r : Nat) : Bool :=
  (c.row r).state == 0 && decide ((colsOf (c.liveMask (c.posOf r))).length ≥ 28) && decide (r < c.mdeRowCount)

/-- The row a stream may open next: the lowest erased row of its kind that may be opened, at a position where the stream has no open row (R340,
R355). The GC stream takes a row of worn blocks first (R362). -/
def rowToOpen (c : Chip) (stream : Nat) : Option Nat :=
  let kind := if stream = sINSOLE then sINSOLE else if stream = sMETA then sMETA else sHOST
  if stream = sHOST && decide (c.freePct ≤ c.cfg F.BKG_GC_CFG_CRIT_PCT) then none
  else
    let first := if kind = sINSOLE then 0 else if kind = sMETA then c.insoleRows else c.insoleRows + c.metaRows
    let used := (c.mde.rows.filter fun x => x.2.state == 1 && x.2.stream == stream).map fun x => c.posOf x.1
    let ok (r : Nat) : Bool := c.mayOpen r && !used.contains (c.posOf r)
    match (if stream = sGC then c.mde.worn.find? ok else none) with
    | some r => some r
    | none => (List.range (c.mde.rows.length + c.mde.scan.positions + 1)).map (fun i => first + i) |>.find? ok

/-- Opens a row for a stream, 28+4 where all 32 columns are live and FORCE_24 is 0 (R340). -/
def openRow (c : Chip) (r stream : Nat) : Chip :=
  let live := c.liveMask (c.posOf r)
  let d := if (colsOf live).length = 32 ∧ c.cfg F.LAST_LAST_CFG_FORCE_24 = 0 then 28 else 24
  let c := { c with mde := { c.mde with worn := dropN c.mde.worn r } }
  (c.setRow r { state := 1, data := d, live, stream }).cnt (if d = 28 then K.LAST_ROWS_OPENED_28 else K.LAST_ROWS_OPENED_24)

/-- The parcel number of what is staged for no parcel: a row index. -/
abbrev noParcel : Nat := 2 ^ 32

/-- The period of GROUP_HOURS in which a Round lies (R354). -/
def groupPeriod (c : Chip) (round : Nat) : Nat := round / (max 1 (c.cfg F.DEC_THRESH_CFG_GROUP_HOURS) * hourRounds)

/-- The key of a level of a block group: the group, the LUN and the level. -/
def groupKey (group u k level : Nat) : Nat := ((group * 32 + u) * 32 + k) * 8 + level

/-- A group's charges join those of an older one, whose offsets stay (R354). -/
def mergeGroup (c : Chip) (u old new : Nat) : Chip :=
  (List.range 256).foldl (fun c i =>
    let a := groupKey old u (i / 8) (i % 8)
    let b := groupKey new u (i / 8) (i % 8)
    let x := c.mde.thresholds.get (fun _ => {}) a
    let y := c.mde.thresholds.get (fun _ => {}) b
    if y = {} then c
    else { c with mde := { c.mde with thresholds := (c.mde.thresholds.set (fun _ => {}) a { x with up := x.up + y.up, down := x.down + y.down }).erase b } }) c

/-- A row closes at a position: its period is a group of the LUNs there; with more than 256 groups the two oldest merge (R354). -/
def openGroup (c : Chip) (u : Nat) : Chip :=
  let g := c.mde.groups.get (fun _ => []) u
  let n := c.groupPeriod c.round
  if g.contains n then c
  else match g with
    | a :: b :: r =>
      if g.length ≥ 256 then
        ({ c with mde := { c.mde with groups := c.mde.groups.set (fun _ => []) u (a :: r ++ [n]) } }).mergeGroup u a b
      else { c with mde := { c.mde with groups := c.mde.groups.set (fun _ => []) u (g ++ [n]) } }
    | _ => { c with mde := { c.mde with groups := c.mde.groups.set (fun _ => []) u (g ++ [n]) } }

/-- Closes a row: its index, 16 B for each parcel written to it, takes its last data cells and is staged (R342). -/
def closeRow (c : Chip) (r : Nat) : Chip :=
  let y := c.row r
  let n := (16 * y.parcels + 511) / 512
  let c := (c.setRow r { y with state := 2, closeRound := c.round }).openGroup (c.posOf r)
  if n = 0 then c
  else { c with mde := { c.mde with staged := c.mde.staged ++ [Staged.mk noParcel r (c.rowCells y - n) n y.live] } }

/-- The open row of a stream that takes some cells, opened where none is. -/
def roomFor (c : Chip) (stream cells : Nat) : Option (Chip × Nat) :=
  let mine := c.mde.rows.filter fun x => x.2.state == 1 && x.2.stream == stream
  match mine.find? fun x => c.fits x.2 cells with
  | some x => some (c, x.1)
  | none =>
    let c := if mine.length < 8 then c else match mine with
      | x :: _ => c.closeRow x.1
      | [] => c
    (c.rowToOpen stream).map fun r => (c.openRow r stream, r)

/-! ## Copies (R343, R345, R355) -/

/-- The units of 256 B that a parcel's content takes (R345): packed, where PACK_CFG.EN is 1 and it does not exceed MAX_UNITS. -/
def packedUnits (c : Chip) (content : List Host.Cell) : Nat :=
  let n := max 1 (Config.packUnits content)
  if c.cfgOn F.PACK_PACK_CFG_EN && decide (n ≤ c.cfg F.PACK_PACK_CFG_MAX_UNITS) then n else 256

/-- The bytes of a parcel that are not 0, by their place in it. -/
def contentOf (t : List Host.Cell) (p : Nat) : List Host.Cell :=
  (Table.entries (fun k => decide (p * 65536 ≤ k) && decide (k < (p + 1) * 65536)) t).map fun x => (x.1 - p * 65536, x.2)


/-- The cells that a length in units takes (R342). -/
def cellsOf (plen : Nat) : Nat := (plen + 1) / 2

/-- A copy no longer counts as valid in its row; a closed row that holds no valid cell is to be erased after the next Round boundary (R363). -/
def forget (c : Chip) (x : ParcelEntry) : Chip :=
  if x.state ≠ 1 then c
  else
    let r := c.rowOfLoc x.loc
    let y := c.row r
    c.setRow r { y with valid := y.valid - cellsOf x.plen }

/-- A relocation of a parcel is cancelled by a new copy (R355). -/
def cancelMove (c : Chip) (p : Nat) : Chip :=
  if c.mde.moves.any fun x => x.1 == p then
    { c with mde := { c.mde with moves := c.mde.moves.filter fun x => x.1 != p } }.cnt K.BKG_RELOC_ABANDONED
  else c

/-- Stages a copy of some units in a stream (R355, R356): its cells are assigned, and it counts as written. None where staging is full or
the stream has no row. -/
def stageCopy (c : Chip) (p plen stream : Nat) : Option (Chip × Nat) :=
  let cells := cellsOf plen
  if c.stageUsed + 512 * cells > c.cfg F.MDE_MDE_CFG_STAGE_MIB * 2 ^ 20 then none
  else match c.roomFor stream cells with
    | none => none
    | some (c, r) =>
      let y := c.row r
      let c := c.oweBlock .media (c.layoutAddr (c.regionBase 14 + c.stageUsed)) (512 * cells)
      let c := c.setRow r { y with nextCell := y.nextCell + cells, valid := y.valid + cells, parcels := y.parcels + 1 }
      let c := { c with mde := { c.mde with staged := c.mde.staged ++ [Staged.mk p r y.nextCell cells y.live] } }
      some (c.cnt K.MDE_PAYLOAD_WRITTEN (plen * 256), r * 2 ^ c.geomCb + y.nextCell)

/-- Writes a new packed copy of a parcel from bytes and poison, in a stream (R282, R343, R345); a parcel of zeros takes no media. -/
def writeCopy (c : Chip) (p stream : Nat) (bytes : List Host.Cell) (poison : List Nat) : Option Chip :=
  let content := contentOf bytes p
  let old := c.parcel p
  let d := (c.domainOf (p * 65536)).getD 0
  if content.isEmpty && poison.isEmpty then some (((c.forget old).recordCopy p 0 0 bytes poison).cancelMove p)
  else
    let plen := c.packedUnits content
    match c.stageCopy p plen stream with
    | none => none
    | some (c, loc) =>
      let c := (((c.forget old).recordCopy p plen loc bytes poison).cancelMove p).cnt (K.PACK_IN_BYTES d) 65536
      let c := c.cnt (K.PACK_OUT_BYTES d) (plen * 256)
      some (if stream = sHOST then
        { c with mde := { c.mde with hostDerived := c.mde.hostDerived + plen * 256 } }.cnt K.WEAR_HOST_DERIVED_BYTES (plen * 256) else c)

/-- Moves a parcel's packed copy (R355): a new LOCATION, PLEN and GEN unchanged. -/
def relocate (c : Chip) (p stream : Nat) : Option Chip :=
  let old := c.parcel p
  if old.state ≠ 1 then some c
  else match c.stageCopy p old.plen stream with
    | none => none
    | some (c, loc) => some ((c.forget old).setParcel p { old with loc })

/-- The bytes and the poison of a parcel as its packed copy and its patch lines give them. -/
def backView (c : Chip) (p : Nat) : List Host.Cell × List Nat :=
  let ls := c.patchOf p
  (ls.foldl (fun t l => writeLine t l (readLine c.trm.patch l) allBytes) (copyBytes c.trm.packed [] (p * 65536) 65536),
   (c.trm.packedPoison.filter fun l => l / 65536 == p && !ls.contains l) ++ ls.filter fun l => c.trm.patchPoison.contains l)

/-- Patch lines are read for the MEDIA client (R430). -/
def readPatch (c : Chip) (ls : List Nat) : Chip := ls.foldl (fun c l => c.oweLines .media (c.place (c.layoutAddr (c.patchOff l))).ch 2) c

/-- Merges the patch lines of a BACK parcel into a new packed copy (R358); it frees the lines it used (R286). -/
def mergePatch (c : Chip) (p : Nat) : Option Chip :=
  let ls := c.patchOf p
  match (c.readPatch ls).writeCopy p sHOST (c.backView p).1 (c.backView p).2 with
  | none => none
  | some c => some (((c.dropPatch p ls).cnt K.PCH_PATCH_MERGED ls.length).cnt K.BKG_MERGES)

/-- A merge that needs no read of a packed copy: there is none, or every line of the parcel is patched. -/
def mergesAtOnce (c : Chip) (p : Nat) : Bool := (c.parcel p).state != 1 || decide ((c.patchOf p).length ≥ 1024)

/-- A merge of a parcel is queued (R358). -/
def queueMerge (c : Chip) (p : Nat) : Chip :=
  if c.mde.merges.contains p || (c.patchOf p).isEmpty then c else { c with mde := { c.mde with merges := c.mde.merges ++ [p] } }

/-- A row is queued for Resole (R349, R351): class 1 lost a column, 2 a decode needed more than a hard decision, 3 by the scrub. -/
def queueRow (c : Chip) (r cls : Nat) : Chip :=
  let y := c.row r
  if y.state = 2 && decide (y.queued = 0 ∨ cls < y.queued) then c.setRow r { y with queued := cls } else c

/-- Parcels whose copy lies in a row and is not already to be moved. -/
def parcelsIn (c : Chip) (r : Nat) : List Nat :=
  (c.trm.parcels.filter fun x => x.2.state == 1 && c.rowOfLoc x.2.loc == r && !c.mde.moves.any fun m => m.1 == x.1).map (·.1)

/-- Every parcel of a row is queued for relocation in a stream, and the row is a victim: of GC (1), of Resole (2), of a rebuild (3), or of wear
levelling for GC (4) (R360 to R362, R369). -/
def moveRow (c : Chip) (r stream victim : Nat) : Chip :=
  let c := { c with mde := { c.mde with moves := c.mde.moves ++ (c.parcelsIn r).map fun p => (p, stream) } }
  c.setRow r { c.row r with victim }

/-! ## Read levels (R354) -/

/-- The group that a row belongs to: that of the period in which it closed, or the one which that was merged into. -/
def groupOf (c : Chip) (r : Nat) : Nat :=
  let g := c.mde.groups.get (fun _ => []) (c.posOf r)
  let n := c.groupPeriod (c.row r).closeRound
  ((g.filter fun x => decide (x ≤ n)).getLast?).getD (g.headD n)

/-- Corrected bits are charged to a level of the group of a row's block on a column (R354), and counted on its channel. -/
def chargeBits (c : Chip) (r : Nat) (x : BitCharge) : Chip :=
  let k := groupKey (c.groupOf r) (c.posOf r) x.column.val x.level.val
  let y := c.mde.thresholds.get (fun _ => {}) k
  let y := if x.upward then { y with up := y.up + x.bits } else { y with down := y.down + x.bits }
  ({ c with mde := { c.mde with thresholds := c.mde.thresholds.set (fun _ => {}) k y } }.cnt (K.CHN_BITS_CORRECTED x.column.val) x.bits).cnt
    K.DEC_BITS_CORRECTED x.bits

/-- The update of the offsets at a Delivery boundary (R354). -/
def updateThresholds (c : Chip) : Chip :=
  if !c.cfgOn F.DEC_THRESH_CFG_EN then c
  else c.mde.thresholds.foldl (fun c x =>
    let y := x.2
    if y.up + y.down < c.cfg F.DEC_THRESH_CFG_MIN_SAMPLES then c
    else
      let step : Int := c.cfg F.DEC_THRESH_CFG_STEP
      let top : Int := c.cfg F.DEC_THRESH_CFG_OFFSET_MAX
      let o := if y.down > y.up * 5 / 4 then min (y.offset + step) top
        else if y.up > y.down * 5 / 4 then max (y.offset - step) (-top) else y.offset
      let c := { c with mde := { c.mde with thresholds := c.mde.thresholds.set (fun _ => {}) x.1 { offset := o, up := 0, down := 0 } } }
      if o = y.offset then c else c.cnt K.DEC_OFFSET_UPDATES) c

/-! ## Defects, LUNs and modules (R364, R365, R368) -/

/-- A column of every row at a position is lost (R365): closed 28+4 rows are degraded and queued. -/
def loseColumn (c : Chip) (u k : Nat) : Chip :=
  (c.mde.rows.filter fun x => c.posOf x.1 == u && x.2.live.testBit k && !x.2.lost.testBit k && (x.2.state == 1 || x.2.state == 2)).foldl
    (fun c x =>
      let c := c.setRow x.1 { x.2 with lost := x.2.lost + 2 ^ k }
      let drop (y : Staged) : Staged := if y.row == x.1 && y.left.testBit k then { y with left := y.left - 2 ^ k } else y
      let c := { c with mde := { c.mde with staged := c.mde.staged.map drop } }
      if x.2.data = 28 then (c.raise F.LAST_EV_ROW_DEGRADED).queueRow x.1 1 else c) c

/-- A LUN is retired (R365, R460). -/
def retireLun (c : Chip) (u k : Nat) : Chip :=
  if c.mde.retiredLuns.contains (k * 32 + u) then c
  else
    let c := { c with mde := { c.mde with retiredLuns := (k * 32 + u) :: c.mde.retiredLuns } }
    let c := c.putCfg (F.CHN_CHAN_CFG_LUN_OFF k) (c.get (F.CHN_CHAN_CFG_LUN_OFF k) ||| 2 ^ u)
    ((c.raise (F.CHN_EV_LUN_RETIRED k)).loseColumn u k).drew 1 (k * 2 ^ 21 + u * 2 ^ 40) false

/-- The spare blocks left of a LUN: SPARE_PCT of its position's good blocks (R344), less those drawn. -/
def sparesLeft (c : Chip) (u k : Nat) : Nat :=
  c.mde.scan.good.getD u 0 - c.rowsAtPos u - c.mde.spares.get (fun _ => 0) (k * 32 + u)

/-- A block is retired: the column takes a spare block of its LUN, or the LUN is retired (R364, R365, R461). -/
def retireBlock (c : Chip) (r k : Nat) : Chip :=
  let u := c.posOf r
  let c := c.cnt K.WEAR_BLOCKS_RETIRED
  let n := c.sparesLeft u k
  if n = 0 then c.retireLun u k
  else
    let c := { c with mde := { c.mde with spares := c.mde.spares.set (fun _ => 0) (k * 32 + u) (c.mde.spares.get (fun _ => 0) (k * 32 + u) + 1) } }
    let c := { c with cbl := { c.cbl with today := c.cbl.today.set (fun _ => 0) (100 + u) (c.cbl.today.get (fun _ => 0) (100 + u) + 1) } }
    c.drew (if (c.row r).stream = sINSOLE then 3 else 0) (r + k * 2 ^ 21 + u * 2 ^ 40) (n == 1)

/-- A block is to be retired when its row is next erased (R364, R458). -/
def markBlock (c : Chip) (r k : Nat) : Chip :=
  let m := c.mde.retireAtErase.get (fun _ => 0) r
  { c with mde := { c.mde with retireAtErase := c.mde.retireAtErase.set (fun _ => 0) r (if m.testBit k then m else m + 2 ^ k) } }

/-- A module changes state (R368). -/
def setModule (c : Chip) (m st : Nat) : Chip := (c.put (F.MOD_MODULE_STATE m) st).raise F.MOD_EV_MODULE_STATE

/-- A module goes OFFLINING: every LUN of it is retired, its columns are absent from every row, and it holds no share of the format (R365, R368). -/
def offlining (c : Chip) (m : Nat) : Chip :=
  let c := c.setModule m 2
  let c := { c with mde := { c.mde with members := dropN c.mde.members m, busy := c.mde.busy.filter fun o => o.col / 4 != m } }
  (List.range 4).foldl (fun c i => (List.range c.mde.scan.positions).foldl (fun c u => c.retireLun u (4 * m + i)) c) c

/-- ROWS_DEGRADED: closed 28+4 rows with a lost column. -/
def rowsDegraded (c : Chip) : Nat := (c.mde.rows.filter fun x => x.2.state == 2 && x.2.data == 28 && x.2.lost != 0).length

/-! ## Programs and erases under way (R348, R356, R357) -/

/-- How many LUNs of one position may program or erase at once: BUSY_LIMIT, BUSY_HIGH while the write backlog is urgent, all of them in a save
(R348, R367). -/
def busyLimit (c : Chip) : Nat :=
  if c.saveActive then 32 else if c.urgent then c.cfg F.MDE_MDE_CFG_BUSY_HIGH else c.cfg F.MDE_MDE_CFG_BUSY_LIMIT

/-- An operation on a column of a row, begun now: its time is the profile's (R338). -/
def opOn (c : Chip) (r k : Nat) (erase : Bool) : BusyOp :=
  let us := if erase then c.mde.scan.tbersUs else if (c.row r).stream = sINSOLE then c.mde.scan.tprogSlcUs else c.mde.scan.tprogUs
  ⟨c.posOf r, k, r, erase, c.round * 4 + us, 0, false⟩

/-- The operations that the media wait for: programs of staged cells, the oldest first, then erases. -/
def opsWanted (c : Chip) : List BusyOp :=
  (c.mde.staged.flatMap fun x => (colsOf x.left).map fun k => c.opOn x.row k false) ++
  ((c.mde.rows.filter fun x => x.2.state == 3).flatMap fun x => (colsOf x.2.todo).map fun k => c.opOn x.1 k true)

/-- An operation begins where its LUN is free and its position is below the limit (R348). -/
def startOp (c : Chip) (o : BusyOp) : Chip :=
  let here := c.mde.busy.filter fun x => x.pos == o.pos
  if (here.any fun x => x.col == o.col) || decide (here.length ≥ c.busyLimit) then c
  else { c with mde := { c.mde with busy := c.mde.busy ++ [o] } }

/-- Operations begin as far as the busy limit allows. -/
def startOps (c : Chip) : Chip := c.opsWanted.foldl startOp c

/-- An operation on a column of a row is under way. -/
def opRuns (c : Chip) (r k : Nat) (erase : Bool) : Bool := c.mde.busy.any fun o => o.row == r && o.col == k && o.erase == erase && !o.suspended

/-- An operation on a column of a row ends. -/
def endOp (c : Chip) (r k : Nat) : Chip := { c with mde := { c.mde with busy := c.mde.busy.filter fun o => !(o.row == r && o.col == k) } }

/-! ## Reads (R347 to R351) -/

/-- A local read is uncorrectable (R350): it goes to cross-twin repair. -/
def mediaFailed (c : Chip) (p : Nat) : Chip :=
  ((c.cnt K.MDE_UNCORRECTABLE).raise F.MDE_EV_UNCORRECTABLE).mapTags (fun t => at' t .direct && parcelOf t.dpa == p) fun t =>
    { t with stage := .repair }

/-- What a read of a parcel counts (R349 to R351). -/
def countRead (c : Chip) (x : MediaRead) (direct : Bool) (d : Nat) : Chip :=
  let c := c.cnt (if direct then K.MDE_DIRECT_READS else K.MDE_FULL_READS)
  let hard := colsOf x.hardFails.toNat
  let c := (c.cnt K.DEC_CW_DECODED x.good).cnt K.DEC_CW_HARD_FAIL hard.length
  let c := hard.foldl (fun c k => c.cnt (K.CHN_CW_HARD_FAILS k)) c
  let c := (c.cnt K.DEC_SOFT_DECODES x.soft).cnt K.DEC_RETRIES x.retries
  let c := if x.failed = 0 then c else c.cnt K.DEC_ERASURE_DECODES
  if direct && c.cfgOn F.MDE_MDE_CFG_HEDGE_EN && x.good > d then c.cnt K.MDE_HEDGED_COLUMNS (x.good - d) else c

end Chip

open Chip

/-! ## The commands -/

/-- A read fails in a block of a row: one more of its Delivery, and the block retires at UE_RETIRE (R364). -/
def Chip.blockFailed (c : Chip) (r k : Nat) : Chip :=
  let n := c.mde.ueBlocks.get (fun _ => 0) (r * 32 + k) + 1
  let c := { c with mde := { c.mde with ueBlocks := c.mde.ueBlocks.set (fun _ => 0) (r * 32 + k) n } }
  if n ≥ c.cfg F.DEC_SOFT_CFG_UE_RETIRE then c.markBlock r k else c

/-- LOCATION of a row in NAND form (R454): the row of its blocks and the position of its LUNs; which column, page and codeword it names where an
error lies in none alone is left 0 (DESIGN CHOICE, log 105). -/
def Chip.rowLocation (c : Chip) (r : Nat) : Nat := r % 2 ^ 21 + 2 ^ 40 * c.posOf r

/-- SYNDROME of an entry of the media engine or the packer (R454): bits corrected, decode stage of R349 and the mask of erased columns; the checks left
unsatisfied are a figure of the decoder. -/
def Chip.mediaSyndrome (c : Chip) (x : MediaRead) : BitVec 128 :=
  let bits := (x.charges.map fun y => y.bits).sum
  let stage := if x.retries > 0 then 4 else if x.soft > 0 then 3 else if x.hardFails = 0 then 1 else 2
  (Config.syndrome c.rst.twinId (c.get F.DLO_NEXT_SEQ) &&& 0xFFFF) |||
    BitVec.ofNat 128 (bits % 2 ^ 16 * 2 ^ 16 + stage * 2 ^ 32 + x.failed.toNat * 2 ^ 64)

/-- What a read of a parcel counts (R346, R349 to R351, R354, R360): its codewords and bits, the blocks that failed and those past UE_RETIRE, the row's refresh,
and what a silent array error leaves behind. -/
def Chip.countArray (c : Chip) (p plen loc : Nat) (x : MediaRead) (direct : Bool) : Chip :=
  let r := c.rowOfLoc loc
  let d := (c.row r).data
  let x := { x with
    soft := if c.cfgOn F.DEC_SOFT_CFG_EN then x.soft else 0
    retries := if c.cfg F.DEC_SOFT_CFG_RETRY_MAX = 0 then 0 else x.retries }
  let c := (c.countRead x direct d).cnt K.MDE_PAYLOAD_READ (plen * 256)
  let c := x.charges.foldl (fun c y => c.chargeBits r y) c
  let c := { c with mde := { c.mde with weakBlocks := c.mde.weakBlocks.set (fun _ => (0, 0)) p (loc, x.weak.toNat) } }
  let c := (colsOf x.failed.toNat).foldl (fun c k => c.blockFailed r k) c
  let c := if x.soft + x.retries > 0 then c.queueRow r 2 else c
  let c := if x.good < d then c.cnt K.DEC_CW_UNCORRECTABLE (d - x.good) else c
  if x.silent > 0 && !direct then
    (((c.cnt K.MDE_SILENT_CORRECTED).raise F.MDE_EV_SILENT_CORRECTED).dlo 0x0A 1 0 0 (p * 65536) (c.rowLocation r)
      (some (c.mediaSyndrome x))).queueRow r 2 else c

/-- The lines of a parcel wait for cross-twin repair (R210): those that its packed copy alone holds. -/
def Chip.repairParcel (c : Chip) (p : Nat) : Chip :=
  let ls := ((List.range 1024).map fun i => p * 65536 + 64 * i).filter fun l =>
    !c.trm.patchLines.contains l && !c.twe.repairQ.any fun x => x.1 == l
  { c with twe := { c.twe with repairQ := c.twe.repairQ ++ ls.map fun l => (l, 8) } }

/-- A packed copy is found uncorrectable by a read that serves no host (R351, R361): where a frame holds the parcel, it is packed from there
again; else its lines are repaired (R210). -/
def Chip.copyLost (c : Chip) (p : Nat) : Chip :=
  let st := (c.ext (p / 32)).state
  if (st == 2 || st == 4) && (c.frameOf (p / 32)).isSome then
    { c with trm := { c.trm with stepDone := dropN c.trm.stepDone p } }.setDirty p true
  else c.repairParcel p

/-- A read of a parcel that neither its stripe nor its checksum supports: no merge or move goes on with it, and the parcel is repaired or
poisoned. -/
def Chip.arrayFailed (c : Chip) (p r d : Nat) (x : MediaRead) : Chip :=
  let c := if x.good ≥ d then (c.cnt K.DEC_CRC_FAILS).dlo 0x0B 1 2 0 (p * 65536) (c.rowLocation r) (some (c.mediaSyndrome x)) else c
  let work := c.mde.merges.contains p || c.mde.moves.any fun m => m.1 == p
  let c := { c with mde := { c.mde with
    merges := c.mde.merges.filter fun q => q != p
    moves := c.mde.moves.filter fun m => m.1 != p } }
  let c := c.mediaFailed p
  if work then c.copyLost p else c

/-- A full-stripe read by the media scrub (R361, item 3 of its order): counted, and its row queued where the worst codeword needed more than
BITS_PCT; a parcel it cannot read is repaired (R351). -/
def Chip.scrubbed (c : Chip) (p : Nat) (x : MediaRead) (worstPct : Nat) : Chip :=
  let e := c.parcel p
  if e.state ≠ 1 then c
  else
    let r := c.rowOfLoc e.loc
    let d := (c.row r).data
    let c := c.countArray p e.plen e.loc x false
    let c := if worstPct > c.cfg F.BKG_RESOLE_CFG_BITS_PCT then c.queueRow r 3 else c
    if x.good < d || !x.crcGood then (c.arrayFailed p r d x).copyLost p else c

/-- The merge that waits for the read of a parcel goes on, or waits for room. -/
def Chip.mergeRead (c : Chip) (p : Nat) : Chip :=
  let c := { c with mde := { c.mde with merges := c.mde.merges.filter fun q => q != p } }
  match c.mergePatch p with
  | some c => c
  | none => { c with mde := { c.mde with merges := c.mde.merges ++ [p] } }

/-- The move that waits for the read of a parcel goes on, or waits for room. -/
def Chip.moveRead (c : Chip) (p : Nat) : Chip :=
  match c.mde.moves.find? fun m => m.1 == p with
  | none => c
  | some m =>
    let c := { c with mde := { c.mde with moves := c.mde.moves.filter fun m => m.1 != p } }
    match c.relocate p m.2 with
    | some c => c.cnt (if m.2 = sGC then K.BKG_GC_PARCELS else K.BKG_RESOLE_PARCELS)
    | none => { c with mde := { c.mde with moves := c.mde.moves ++ [m] } }

/-- The direct-path read of a parcel is over: the operations that were suspended for it go on (R348). -/
def Chip.endDirect (c : Chip) (p loc : Nat) : Chip :=
  { c with mde := { c.mde with direct := c.mde.direct.filter fun x => x.1 != p } }.resumeAt (c.posOf (c.rowOfLoc loc))

/-- Every request and every job that waits for the read of a parcel goes on. -/
def Chip.arrayServed (c : Chip) (p gen : Nat) (direct : Bool) : Chip :=
  let c := if direct then
    ((c.pcacheFillWith p gen).continueTags (fun t => at' t .direct && parcelOf t.dpa == p) serveFull).runCommons else c
  if c.mde.merges.contains p then c.mergeRead p else c.moveRead p

/-- ARRAY_READ_DONE (R289, R346, R349 to R351, R354, R358, R360): the read of a parcel's copy ends. Good: direct-path reads are answered and
the parcel cache filled, a queued merge or relocation is written. Failed: reads go to repair. A read whose requests have gone to repair already ends
with what it counts (R350). -/
def execArrayReadDone (w : Twin) (p : Nat) (x : MediaRead) (s : State) : Host.Outcome State Fault Refusal :=
  .next (s.onUp w fun c =>
    let e := c.parcel p
    let issued := c.mde.direct.find? fun y => y.1 == p
    let direct := issued.isSome || c.tags.any fun t => at' t .direct && parcelOf t.dpa == p
    if !direct && (e.state != 1 || !(c.mde.merges.contains p || c.mde.moves.any fun m => m.1 == p)) then c
    else
      let loc := match issued with | some y => y.2 | none => e.loc
      let r := c.rowOfLoc loc
      let d := (c.row r).data
      let c := (c.endDirect p loc).countArray p e.plen loc x direct
      if x.good < d || !x.crcGood then c.arrayFailed p r d x else c.arrayServed p e.gen direct)

/-- DIRECT_READ_TIMEOUT (R350): the failing direct-path reads of a parcel are handed to repair. -/
def execDirectReadTimeout (w : Twin) (p : Nat) (s : State) : Host.Outcome State Fault Refusal :=
  .next (s.onUp w fun c => if c.tags.any fun t => at' t .direct && parcelOf t.dpa == p then c.mediaFailed p else c)

/-- A program of a save fails (R364, R398): the block is retired, and its wave is written again into a ready row. -/
def Chip.saveProgramFails (c : Chip) (r k : Nat) : Chip :=
  let c := (c.cnt K.WEAR_PROGRAM_FAILS).retireBlock r k
  { c with svc := { c.svc with rewrites := c.svc.rewrites + 1 } }

/-- PROGRAM_DONE (R356, R364, R366): the staged cells of a column of a row are programmed; a failed program retires the block, and the cells
stay staged until its reprogram passes. -/
def execProgramDone (w : Twin) (r : Nat) (k : Fin 32) (pass : Bool) (s : State) : Host.Outcome State Fault Refusal :=
  .next (s.onUp w fun c =>
    let mine (x : Staged) : Bool := x.row == r && x.left.testBit k.val
    if c.svcState == 4 && decide (r < c.insoleRows) then (if pass then c else c.saveProgramFails r k.val)
    else if !c.mde.staged.any mine || !c.opRuns r k.val false then c
    else if !pass then (((c.endOp r k.val).cnt K.WEAR_PROGRAM_FAILS).retireBlock r k.val).startOps
    else
      let c := c.endOp r k.val
      let y := c.row r
      let cells := (c.mde.staged.filter mine).foldl (fun a x =>
        a + ((List.range x.cells).filter fun i => cellColumn r y.data y.live (x.cell + i) == k.val).length) 0
      let staged := (c.mde.staged.map fun x => if mine x then { x with left := x.left - 2 ^ k.val } else x).filter fun x => x.left != 0
      let c := { c with mde := { c.mde with staged } }
      let c := if y.stream = sINSOLE then c else c.cnt K.WEAR_MEDIA_DATA_BYTES (512 * cells)
      ((c.cnt (K.CHN_PROGRAMS k.val)).cnt (K.CHN_BUS_BYTES k.val) (512 * cells)).startOps)

/-- ERASE_DONE (R357, R363, R364, R458): a column of a row that waits is erased; the row is free once all are. A failed erase retires the
block, and so does a block that RETIRE_PARCEL has marked. -/
def execEraseDone (w : Twin) (r : Nat) (k : Fin 32) (pass : Bool) (s : State) : Host.Outcome State Fault Refusal :=
  .next (s.onUp w fun c =>
    let y := c.row r
    if y.state != 3 || !y.todo.testBit k.val || !c.opRuns r k.val true then c
    else
      let c := c.endOp r k.val
      let c := if !pass then (c.cnt K.WEAR_ERASE_FAILS).retireBlock r k.val
        else if (c.mde.retireAtErase.get (fun _ => 0) r).testBit k.val then c.retireBlock r k.val else c
      let c := (c.cnt K.WEAR_ERASES).cnt (K.CHN_ERASES k.val)
      let left := y.todo - 2 ^ k.val
      if left ≠ 0 then (c.setRow r { y with todo := left }).startOps
      else
        let c := { c with mde := { c.mde with retireAtErase := c.mde.retireAtErase.erase r } }
        let c := { c with mde := { c.mde with erases := c.mde.erases.set (fun _ => 0) r (c.mde.erases.get (fun _ => 0) r + 1) } }
        let k := if r < c.insoleRows then 201 else 200
        let c := { c with cbl := { c.cbl with today := c.cbl.today.set (fun _ => 0) k (c.cbl.today.get (fun _ => 0) k + 1) } }
        ((c.setRow r (c.rowInit r)).cnt K.LAST_ROWS_ERASED).startOps)

/-- LUN_STATUS_TIMEOUT (R365): the LUN is retired. -/
def execLunStatusTimeout (w : Twin) (k pos : Fin 32) (s : State) : Host.Outcome State Fault Refusal :=
  .next (s.onUp w fun c => (c.cnt (K.CHN_TIMEOUTS k.val)).retireLun pos.val k.val)

/-- NAND_ZQ_CALIBRATION (R336): the channels calibrate; no state that the spec names changes. -/
def execNandZqCalibration (_w : Twin) (s : State) : Host.Outcome State Fault Refusal := .next s

/-- PATCH_AGE_EXPIRY (R358): a merge of a BACK parcel whose oldest patch line is 2^20 Rounds old is queued. -/
def execPatchAgeExpiry (w : Twin) (p : Nat) (s : State) : Host.Outcome State Fault Refusal :=
  .next (s.onUp w fun c =>
    let born := c.mde.patchBorn.get (fun _ => 0) p
    if (c.ext (p / 32)).state = 1 ∧ born ≠ 0 ∧ born + 2 ^ 20 ≤ c.round + 1 then c.queueMerge p else c)

/-- Why an OFFLINE_REQ of a module is rejected (R368), 0 where it is not. -/
def Chip.offlineCode (c : Chip) (m : Nat) : Nat :=
  if (List.range 8).any fun n => n != m && c.modState n != 1 then 0x43
  else if c.rowsDegraded != 0 && !(c.cfgOn (F.MOD_MODULE_OFFLINE_FORCE m) && c.mirrored) then 0x44
  else 0

/-- MODULE_m.OFFLINE_REQ is written (R368). -/
def Chip.offlineReq (c : Chip) (m : Nat) : Chip :=
  if c.offlineCode m ≠ 0 then c.reject 0x386 (c.offlineCode m) (0x100 + 4 * m)
  else if c.modState m = 1 then c.offlining m else c

/-- OFFLINE_REQ (R368, R599): the module goes OFFLINING, or the write is rejected with MODULE_BUSY or NO_MARGIN. -/
def execOfflineReq (w : Twin) (rq : Requester) (m : Fin 8) (s : State) : Host.Outcome State Fault Refusal :=
  .next (s.onUp w fun c => c.ifWrites rq 0x386 fun c => c.ifRunning 0x386 (0x100 + 4 * m.val) fun c => c.offlineReq m.val)

/-- MODULE_m.ONLINE_REQ is written (R368). -/
def Chip.onlineReq (c : Chip) (m : Nat) : Chip :=
  let st := c.modState m
  if (st == 0 || st == 3 || st == 6) && c.is (F.MOD_MODULE_PRESENT m) then c.setModule m 4 else c

/-- ONLINE_REQ (R368, R599): preparation of a present module that is SAFE, ABSENT or FAILED begins. -/
def execOnlineReq (w : Twin) (rq : Requester) (m : Fin 8) (s : State) : Host.Outcome State Fault Refusal :=
  .next (s.onUp w fun c => c.ifWrites rq 0x386 fun c => c.ifRunning 0x386 (0x100 + 4 * m.val) fun c => c.onlineReq m.val)

/-- MODULE_SAFE (R365, R368): in-flight operations have ended; every LUN of the module is retired until its rebuild. -/
def execModuleSafe (w : Twin) (m : Fin 8) (s : State) : Host.Outcome State Fault Refusal :=
  .next (s.onUp w fun c => if c.modState m.val = 2 then c.setModule m.val 3 else c)

/-- MODULE_PRESENCE_CHANGE (R368): the pin takes its level, on a chip in reset too; a SAFE module that is removed is ABSENT. -/
def execModulePresenceChange (w : Twin) (m : Fin 8) (present : Bool) (s : State) : Host.Outcome State Fault Refusal :=
  .next (s.mapChip w fun c =>
    let c := c.put (F.MOD_MODULE_PRESENT m.val) (bit present)
    if c.up && !present && c.modState m.val == 3 then c.setModule m.val 0 else c)

/-- CHANNEL_FAILED (R365, R368): the channel leaves UP, its LUNs are retired, and an ACTIVE module goes OFFLINING unasked. -/
def execChannelFailed (w : Twin) (k : Fin 32) (s : State) : Host.Outcome State Fault Refusal :=
  .next (s.onUp w fun c =>
    let c := (c.put (F.CHN_CHAN_STATE k.val) 3).raise (F.CHN_EV_CHANNEL_FAILED k.val)
    let c := (List.range c.mde.scan.positions).foldl (fun c u => c.retireLun u k.val) c
    if c.modState (k.val / 4) = 1 then (c.offlining (k.val / 4)).raise F.MOD_EV_MODULE_LOST else c)

/-- The closed rows that have lost a column of a module (R369). -/
def Chip.rebuildRows (c : Chip) (m : Nat) : List (Nat × MdeRow) :=
  c.mde.rows.filter fun x => x.2.state == 2 && (List.range 4).any fun i => x.2.lost.testBit (4 * m + i)

/-- MODULE_PREPARE_DONE (R368): REBUILDING, or FAILED. A prepared module's channels are up, and its LUNs come back. -/
def execModulePrepareDone (w : Twin) (m : Fin 8) (ok : Bool) (s : State) : Host.Outcome State Fault Refusal :=
  .next (s.onUp w fun c =>
    if c.modState m.val ≠ 4 then c
    else if !ok then c.setModule m.val 6
    else
      let c := (List.range 4).foldl (fun c i =>
        (c.put (F.CHN_CHAN_STATE (4 * m.val + i)) 2).putCfg (F.CHN_CHAN_CFG_LUN_OFF (4 * m.val + i)) 0) c
      let c := { c with mde := { c.mde with retiredLuns := c.mde.retiredLuns.filter fun x => x / 32 / 4 != m.val } }
      (c.put F.MOD_REBUILD_ROWS_LEFT (c.rebuildRows m.val).length).setModule m.val 5)

/-- A parcel on a unit that RS cannot rebuild (R369): packed again from its frame where one holds it; else fetched from the twin and relocated;
else lost, with an entry in the Dead-Letter Log. -/
def Chip.rebuildParcel (c : Chip) (twin : Option Chip) (p : Nat) : Chip :=
  let st := (c.ext (p / 32)).state
  if (st == 2 || st == 4) && (c.frameOf (p / 32)).isSome then c.copyLost p
  else match twin with
    | some t => match c.writeCopy p sRESOLE (t.backView p).1 (t.backView p).2 with
      | some c => c.cnt K.MOD_REBUILD_FROM_TWIN
      | none => c.repairParcel p
    | none =>
      let ls := ((List.range 1024).map fun i => p * 65536 + 64 * i).filter fun l => !c.trm.packedPoison.contains l
      { c with trm := { c.trm with packedPoison := c.trm.packedPoison ++ ls } }.dlo 0x0A 1 2 0 (p * 65536) (c.rowLocation (c.rowOfLoc (c.parcel p).loc))

/-- One row of a rebuild (R369). -/
def Chip.rebuildRow (twin : Option Chip) (m : Nat) (c : Chip) (x : Nat × MdeRow) : Chip :=
  let lost := (List.range 4).foldl (fun a i => if a.testBit (4 * m + i) then a - 2 ^ (4 * m + i) else a) x.2.lost
  if (colsOf x.2.live).length - (colsOf x.2.lost).length < x.2.data then
    ((c.parcelsIn x.1).foldl (fun c p => c.rebuildParcel twin p) c).cnt K.MOD_REBUILD_RELOCATED
  else if x.2.valid * 4 < c.rowCells x.2 then (c.moveRow x.1 sRESOLE 3).cnt K.MOD_REBUILD_RELOCATED
  else (c.setRow x.1 { x.2 with lost }).cnt K.MOD_REBUILT_ROWS

/-- A rebuild ends: each row of the module in ascending order; the module is ACTIVE, and its NAND entries leave the Ledger (R465). -/
def Chip.rebuild (c : Chip) (m : Nat) (twin : Option Chip) : Chip :=
  if c.modState m ≠ 5 then c
  else
    let c := (c.rebuildRows m).foldl (Chip.rebuildRow twin m) c
    let c := { c with mde := { c.mde with spares := c.mde.spares.clear fun x => x / 32 / 4 == m, members := insertN c.mde.members m } }
    ((c.put F.MOD_REBUILD_ROWS_LEFT 0).setModule m 1).raise F.MOD_EV_REBUILD_DONE

/-- REBUILD_DONE (R368, R369): every row is rebuilt, relocated, or fetched from the twin where one is in service. -/
def execRebuildDone (w : Twin) (m : Fin 8) (s : State) : Host.Outcome State Fault Refusal :=
  let twin := if (s.chip w).mirrored && (s.chip w).linkUp then some (s.chip w.other) else none
  .next (s.onUp w fun c => c.rebuild m.val twin)

/-- What the pages show of the format and its profile (R338, R344, R378). -/
def Chip.showMount (c : Chip) : Chip :=
  let x := c.mde.scan
  let c := c.put F.TIER_CAPACITY_HOST_256M (c.fmtOf 4 0)
  let c := (((c.put F.PROF_PROFILE_ID x.profileId).put F.PROF_PAGES_PER_BLOCK x.pages).put F.PROF_BLOCKS_PER_LUN x.blocks).put F.PROF_PLANES x.planes
  let c := ((c.put F.PROF_TR_US_MAX x.trUs).put F.PROF_TPROG_US_MAX x.tprogUs).put F.WEAR_PE_RATED_TLC x.peTlc
  let c := (c.put F.WEAR_PE_RATED_SLC x.peSlc).put F.LAST_GEOM_CB c.geomCb
  (c.put F.LAST_GEOM_POSITIONS x.positions).put F.MDE_MODE 2

/-- What a format records (R338, R344, R378): the geometry and profile, every row free, the host capacity, the Ledger empty (R465). -/
def Chip.formatted (c : Chip) (x : MediaScan) : Chip :=
  let now := [c.get F.GOV_BUDGET_CFG_CAP_GIB, c.cfg F.LAST_LAST_CFG_SPARE_PCT,
    if c.cfg F.LAST_LAST_CFG_FORCE_24 = 1 then 24 else 28, c.cfg F.LAST_LAST_CFG_META_GIB]
  let c := { c with
    mde := { formatted := true, scan := x, fmt := now, members := List.range 8 }
    trm := { c.trm with packed := [], packedPoison := [], parcels := [], parcelsDram := [] }
    cbl := {} }
  let c := { c with mde := { c.mde with fmt := now ++ [c.hostCapacity] }, svc := { c.svc with formattedNow := true } }
  let on := (List.range 8).filter fun m => c.running 0x380 && c.is (F.MOD_MODULE_PRESENT m) && c.modState m == 0
  (on.foldl (fun c m => c.setModule m 1) c).showMount

end Sys2Proof.Machine
end

