-- ==== Sys2Proof/Machine/Tiers.lean ====
section
/-! DEFINITION. The tier manager of one chip: transitions of extents, first writes, migrations, the sweep of the pool, domains, and the
maintenance of the Metadata Cache, with their commands (R261 to R263, R270 to R284, R291 to R303, R566). -/
namespace Sys2Proof.Machine

namespace Chip

/-! ## Effects in force -/

/-- A gated effect is announced to the peer, and stands among this chip's own until it is due (R177). -/
def announce (c : Chip) (e : Effect) : Chip := c.postEffect e true

/-- Whether this chip has announced a transition of an extent that is not yet applied. -/
def announced (c : Chip) (e : Nat) : Bool :=
  c.twe.gated.any fun g => match g.effect with | .extentState x _ => x == e | _ => false

/-- Whether an announced transition of an extent is to a state. -/
def announcedTo (c : Chip) (e st : Nat) : Bool := c.twe.gated.any fun g => g.effect == .extentState e st

/-- Frames that announced transitions will take. -/
def promised (c : Chip) : Nat :=
  (c.twe.gated.filter fun g => match g.effect with
    | .extentState x st => (st == 2 && (c.ext x).state == 0) || st == 3
    | _ => false).length

/-- The free frames by which the keeper judges (R262): the smaller of its own and the peer's while MIRRORED. -/
def pairFree (c : Chip) : Nat :=
  let own := c.poolFree
  let n := if c.mirrored then (match c.twe.peerFrame with | some f => min own f.poolFree | none => own) else own
  n - c.promised

/-- The frames of LOW_PCT of the pool. -/
def lowFrames (c : Chip) : Nat := (c.poolSize * c.cfg F.TIER_POOL_CFG_LOW_PCT + 99) / 100

/-- The frames of HIGH_PCT of the pool. -/
def highFrames (c : Chip) : Nat := (c.poolSize * c.cfg F.TIER_POOL_CFG_HIGH_PCT + 99) / 100

/-- Whether a frame counts as free for AUTO and PREFER_FRONT (R262). -/
def spareFree (c : Chip) : Bool := decide (c.pairFree ≥ c.lowFrames + 1)

/-- The cap of a domain in frames, 0 for none. -/
def capFrames (c : Chip) (d : Nat) : Nat := c.cfg (F.DOM_DOMAIN_CAP_GIB d) * 512

/-- The guaranteed frames of a domain. -/
def minFrames (c : Chip) (d : Nat) : Nat := c.cfg (F.DOM_DOMAIN_MIN_GIB d) * 512

/-- Whether one frame more keeps a domain within its cap. -/
def belowCap (c : Chip) (d : Nat) : Bool := c.capFrames d == 0 || decide (c.domUse d + 1 ≤ c.capFrames d)

/-! ## Transitions (R261) -/

/-- A migration leaves the slots. -/
def endMig (c : Chip) (e : Nat) : Chip :=
  { c with trm := { c.trm with
    slots := c.trm.slots.filter fun m => m.extent != e
    stepDone := c.trm.stepDone.filter fun p => p / 32 != e
    stepRunning := c.trm.stepRunning.filter fun p => p / 32 != e } }

/-- A migration is in a slot, started at this boundary. -/
def startMig (c : Chip) (e : Nat) (promote : Bool) : Chip :=
  let cls := match c.trm.slots.find? fun m => m.extent == e with | some m => m.cls | none => if promote then 3 else 5
  { c with trm := { c.trm with
    queue := c.trm.queue.filter fun m => !(m.extent == e && m.promote == promote)
    slots := (c.trm.slots.filter fun m => m.extent != e) ++ [{ cls, extent := e, promote, started := true, startRound := c.round }] } }

/-- DONE of a migration on this chip, once every parcel is done (R281, R282): an ungated record. -/
def migDone (c : Chip) (e : Nat) : Chip :=
  match c.trm.slots.find? fun m => m.extent == e && m.started && !m.doneHere with
  | none => c
  | some _ =>
    if (parcelsOf e).all fun p => c.trm.stepDone.contains p then
      let mark (m : Mig) : Mig := if m.extent == e then { m with doneHere := true } else m
      ({ c with trm := { c.trm with slots := c.trm.slots.map mark } }).postEffect (.moveDone e) false
    else c

/-- Every packed copy, patch line and cache entry of a parcel goes (R271, R290). -/
def discardParcel (c : Chip) (p : Nat) : Chip :=
  let old := c.parcel p
  let c := (c.dropPatch p (c.patchOf p)).pcacheDrop p
  let c := { c with mde := { c.mde with
    merges := dropN c.mde.merges p
    moves := c.mde.moves.filter fun m => m.1 != p } }
  if old.state = 0 then c
  else
    let c := { c with trm := { c.trm with
      packed := clearBytes c.trm.packed (p * 65536) 65536
      packedPoison := c.trm.packedPoison.filter fun l => l / 65536 != p } }
    (c.forget old).setParcel p { state := 0, plen := 0, loc := 0, gen := (old.gen + 1) % 256 }

/-- An extent becomes UNWRITTEN (R261, R271). Bytes that the WMB still holds for it wait as a first write. -/
def discardExtent (c : Chip) (e : Nat) : Chip :=
  let c := (c.releaseFrame e).endMig e
  let c := (parcelsOf e).foldl discardParcel c
  let c := { c with trm := { c.trm with
    hits := c.trm.hits.erase e
    healed := c.trm.healed.filter fun l => extentOf l != e
    discards := dropN c.trm.discards e
    firstWrites := if c.wmb.any fun x => extentOf (x.1 * 64) == e then insertN c.trm.firstWrites e else dropN c.trm.firstWrites e } }
  (c.mapExt e fun _ => {}).tcInvalidate e

/-- An eviction by command or policy proceeds on a held extent: its Routes do not queue it again until it is released (R331). -/
def evictHeld (c : Chip) (e : Nat) : Chip :=
  if c.isKeeper && (c.ext e).window && c.trm.slots.any (fun m => m.extent == e && m.cls == 5) then
    (c.rte.slots.map (·.1)).foldl (fun c r =>
      if (c.route r).holds.contains e then c.mapRoute r fun x => { x with barred := insertN x.barred e } else c) (c.cnt K.RTE_WINDOW_EVICTED)
  else c

/-- An extent enters a state, as an effect applies or a domain changes (R261, R281, R282). -/
def enterState (c : Chip) (e st : Nat) : Chip :=
  let old := (c.ext e).state
  let d := (c.domainOf (e * 2 ^ 21)).getD 0
  let c := c.markChange e
  match st with
  | 0 => if old = 3 ∨ old = 4 then { c with trm := { c.trm with discards := insertN c.trm.discards e } } else c.discardExtent e
  | 1 =>
    if old = 0 then
      let c := { c with trm := { c.trm with firstWrites := dropN c.trm.firstWrites e } }
      (c.mapExt e fun x => { x with state := 1, age := c.ageNow }).tcInvalidate e
    else if old = 4 then
      let c := (((c.releaseFrame e).endMig e).mapExt e fun x => { x with state := 1 }).tcInvalidate e
      let c := (c.cnt K.TIER_EVICTIONS).cnt (K.POOL_EVICTIONS d)
      if c.trm.discards.contains e then c.discardExtent e else c
    else c
  | 2 =>
    if old = 0 then
      let c := { c with trm := { c.trm with
        firstWrites := dropN c.trm.firstWrites e
        pinWaits := dropN c.trm.pinWaits e } }
      ((c.mapExt e fun x => { x with state := 2, age := c.ageNow }).takeFrame e).tcInvalidate e
    else if old = 3 then
      let ns := match c.trm.slots.find? fun m => m.extent == e with | some m => (c.round - m.startRound) * 4000 | none => 0
      let c := ((c.endMig e).mapExt e fun x => { x with state := 2 }).tcInvalidate e
      let c := (parcelsOf e).foldl pcacheDrop c
      let c := ((c.cnt K.TIER_PROMOTIONS).cnt (K.POOL_PROMOTIONS d)).peak K.TIER_PROMOTE_NS_MAX ns
      if c.trm.discards.contains e then c.discardExtent e else c
    else c
  | 3 => if old = 1 then (((c.startMig e true).mapExt e fun x => { x with state := 3 }).takeFrame e).tcInvalidate e else c
  | _ =>
    if old ≠ 2 then c
    else
      let c := if c.clean e then c.cnt K.TIER_EVICTIONS_CLEAN else c
      let clean := (parcelsOf e).filter fun p => !c.trm.dirty.contains p
      let c := c.evictHeld e
      let c := ((c.startMig e false).mapExt e fun x => { x with state := 4 }).tcInvalidate e
      let c := { c with trm := { c.trm with
        stepDone := clean ++ c.trm.stepDone.filter fun p => p / 32 != e } }
      c.migDone e

/-- The keeper re-judges a deferred eviction when its promotion commits (R293). -/
def rejudge (c : Chip) (e : Nat) : Chip :=
  let x := c.ext e
  if !c.isKeeper || !x.pending || x.state != 2 then c
  else
    let c := c.announce (.extentPending e false)
    if c.policy e = 3 then c.queueMig 5 e false
    else if !x.touched then (c.cnt K.TIER_DEFERRED_EVICTED).queueMig 5 e false
    else c.cnt K.TIER_DEFERRED_KEPT

/-- EVICT_PENDING is set, with TOUCHED cleared, or cleared (R293). -/
def setPending (c : Chip) (e : Nat) (on : Bool) : Chip := c.mapExt e fun x => { x with pending := on, touched := false }

/-! ## What the keeper decides (R262, R274, R284, R291 to R293) -/

/-- An eviction meets a PROMOTING extent: it is deferred (R293). -/
def deferEviction (c : Chip) (e : Nat) : Chip :=
  if (c.ext e).pending then c
  else ((c.announce (.extentPending e true)).cnt K.TIER_EVICT_DEFERRED).raise F.TIER_EV_EVICT_DEFERRED

/-- A migration asked for by a command, a Route or a policy (R284, R293, R294). -/
def wantMove (c : Chip) (cls e : Nat) (promote : Bool) : Chip :=
  let st := (c.ext e).state
  if !c.isKeeper then c
  else if promote then (if st = 1 ∨ st = 4 then c.queueMig cls e true else c)
  else if st = 2 then c.queueMig cls e false
  else if st = 3 then c.deferEviction e
  else c

/-- A policy takes effect on an extent (R274): PIN_FRONT and PREFER_FRONT extents are promoted, BACK_ONLY ones evicted. -/
def judgePolicy (c : Chip) (e : Nat) : Chip :=
  match c.policy e with
  | 0 => c.wantMove 1 e true
  | 1 => c.wantMove 4 e true
  | 3 => c.wantMove 5 e false
  | _ => c

/-- The written extents of a range, ascending. -/
def writtenIn (c : Chip) (first count : Nat) : List Nat :=
  (c.trm.ext.filter fun x => decide (first ≤ x.1) && decide (x.1 < first + count) && x.2.state != 0).map (·.1)

/-- First-write decisions (R262). -/
def decideFirst (c : Chip) : Chip :=
  c.trm.firstWrites.foldl (fun c e =>
    if c.announced e || (c.ext e).state != 0 then c
    else match c.domainOf (e * 2 ^ 21) with
      | none => c
      | some d =>
        match c.policy e with
        | 0 => if c.pairFree > 0 then c.announce (.extentState e 2)
               else { c with trm := { c.trm with pinWaits := insertN c.trm.pinWaits e } }
        | 1 => c.announce (.extentState e (if c.spareFree then 2 else 1))
        | 2 => c.announce (.extentState e (if c.spareFree && c.belowCap d then 2 else 1))
        | _ => c.announce (.extentState e 1)) c

/-- How much older an extent's AGE is, modulo 256. -/
def ageOf (c : Chip) (e : Nat) : Nat := (c.ageNow + 256 - (c.ext e).age % 256) % 256

/-- Whether an extent of the front tier is on its way out: its eviction queued, announced or under way. -/
def outgoing (c : Chip) (e : Nat) : Bool :=
  (c.ext e).state == 4 || c.announcedTo e 4 || c.migrating e false

/-- The extents of a domain on their way out. -/
def leaving (c : Chip) (d : Nat) : Nat := (c.trm.ext.filter fun x => c.inDomain d (x.1 * 2 ^ 21) && c.outgoing x.1).length

/-- Whether the sweep may choose an extent (R292). -/
def candidate (c : Chip) (e : Nat) : Bool :=
  let x := c.ext e
  x.state == 2 && !x.window && (c.policy e == 1 || c.policy e == 2) && !c.migrating e false && !c.announced e &&
    (match c.domainOf (e * 2 ^ 21) with
     | some d => decide (c.domUse d - c.leaving d > c.minFrames d)
     | none => false)

/-- Whether an extent's domain is over its cap. -/
def overCap (c : Chip) (e : Nat) : Bool :=
  match c.domainOf (e * 2 ^ 21) with
  | some d => c.capFrames d != 0 && decide (c.domUse d - c.leaving d > c.capFrames d)
  | none => false

/-- Whether victim `a` goes before victim `b`: domains over their cap first, then the oldest AGE, then AUTO, then the lowest number. -/
def victimBefore (c : Chip) (a b : Nat) : Bool :=
  if c.overCap a != c.overCap b then c.overCap a
  else if c.ageOf a != c.ageOf b then decide (c.ageOf a > c.ageOf b)
  else if c.policy a != c.policy b then c.policy a == 2
  else decide (a < b)

/-- The next victim of the sweep among the extents that meet a condition. -/
def nextVictim (c : Chip) (p : Nat → Bool) : Option Nat :=
  ((c.trm.ext.map (·.1)).filter fun e => c.candidate e && p e).foldl (fun a e =>
    match a with
    | none => some e
    | some b => if c.victimBefore e b then some e else some b) none

/-- Frames that are being freed: freed and not zeroed yet, and those of evictions queued, announced or under way. -/
def beingFreed (c : Chip) : Nat :=
  c.trm.freeing.length + c.trm.zeroing.length + (c.trm.ext.filter fun x => c.outgoing x.1).length

/-- The sweep queues pressure evictions until free frames and those being freed reach HIGH_PCT (R292). -/
def sweep (c : Chip) : Nat → Chip
  | 0 => c
  | n + 1 =>
    if c.pairFree + c.beingFreed ≥ c.highFrames then c
    else match c.nextVictim fun _ => true with
      | some e => (c.queueMig 0 e false).sweep n
      | none => (c.cnt K.TIER_NO_VICTIM_ROUNDS).raise F.TIER_EV_NO_VICTIM

/-- One queued migration moves into a slot where it may start; the queue keeps what cannot start yet, and drops what cannot any more. A promotion
that a cap holds back takes a victim of its domain first, and waits for the frames of victims already taken (R291). -/
def tryStart (c : Chip) (m : Mig) : Chip :=
  let x := c.ext m.extent
  let drop := { c with trm := { c.trm with queue := c.trm.queue.filter fun y => !(y.extent == m.extent && y.promote == m.promote && y.cls == m.cls) } }
  if c.announced m.extent then c
  else if m.promote then
    if x.state = 4 then c
    else if x.state ≠ 1 then drop
    else
      let d := (c.domainOf (m.extent * 2 ^ 21)).getD 0
      let free := if m.cls = 4 then c.spareFree else decide (c.pairFree > 0)
      if m.cls ≠ 1 && !c.belowCap d && decide (c.domUse d + 1 - c.leaving d ≤ c.capFrames d) then c
      else if m.cls ≠ 1 && !c.belowCap d then
        match c.nextVictim fun e => c.inDomain d (e * 2 ^ 21) with
        | some e => c.queueMig 0 e false
        | none => if m.cls = 2 ∨ (m.cls = 4 ∧ c.policy m.extent = 1) then c else drop
      else if free then
        ({ drop with trm := { drop.trm with slots := drop.trm.slots ++ [m] } }).announce (.extentState m.extent 3)
      else c
  else if x.state = 3 then drop.deferEviction m.extent
  else if x.state ≠ 2 then drop
  else ({ drop with trm := { drop.trm with slots := drop.trm.slots ++ [m] } }).announce (.extentState m.extent 4)

/-- The queue in the class order of R284, the oldest first within a class. -/
def queueInOrder (c : Chip) : List Mig := (List.range 7).flatMap fun k => c.trm.queue.filter fun m => m.cls == k

/-- Queued migrations move into free slots (R284). -/
def fillSlots (c : Chip) : Chip :=
  c.queueInOrder.foldl (fun c m => if c.trm.slots.length < c.cfg F.TIER_MIG_CFG_SLOTS then c.tryStart m else c) c

/-- A Route promotion waits in the queue for lack of a frame, with a slot free (R323). -/
def noteBlocked (c : Chip) : Chip :=
  if c.trm.slots.length < c.cfg F.TIER_MIG_CFG_SLOTS && c.trm.queue.any (fun m => m.cls == 2 && m.promote && (c.ext m.extent).state == 1) then
    (c.cnt K.RTE_WINDOW_BLOCKED_ROUNDS).raise F.RTE_EV_WINDOW_BLOCKED
  else c

/-- Whether the peer must report DONE before the keeper commits (R281). -/
def peerServes (c : Chip) : Bool := c.mirrored

/-- The keeper sends COMMIT for every migration that is done on every chip that serves (R281, R282). -/
def commitDone (c : Chip) : Chip :=
  c.trm.slots.foldl (fun c m =>
    if m.started && m.doneHere && (m.donePeer || !c.peerServes) && !c.announced m.extent then
      c.announce (.extentState m.extent (if m.promote then 2 else 1))
    else c) c

/-- The dirty parcels of FRONT extents, the oldest AGE first (R388). -/
def toClean (c : Chip) : List Nat :=
  let es := ((c.trm.dirty.map fun p => p / 32).eraseDups.filter fun e => (c.ext e).state == 2)
  let sorted := (List.range 256).reverse.flatMap fun a => es.filter fun e => c.ageOf e == a
  sorted.flatMap fun e => (c.dirtyParcels e).filter fun p => !c.trm.stepRunning.contains p

/-- The steps that migrations have to run, in slot order. -/
def toStep (c : Chip) : List Nat :=
  c.trm.slots.flatMap fun m =>
    if m.started && (!m.promote || (match (c.ext m.extent).frame with | some f => c.rangeReady (c.rangeOf f) | none => false)) then
      (parcelsOf m.extent).filter fun p => !c.trm.stepDone.contains p && !c.trm.stepRunning.contains p
    else []

/-- Whether cleaning is queued (R388): CLEANING at the last rank, URGENT, THROTTLE and OVER at the first. -/
def cleans (c : Chip) : Bool := c.running 0x0D0 && decide (1 ≤ c.get F.GOV_GOV_STATE) && decide (c.get F.GOV_GOV_STATE ≤ 4)

/-- The bytes that MIG_RATE lets copy steps, and pack and cleaning steps, move in a Round are added to what is left of one step (R284): 1 GB/s
is 4,000 B in 4 µs. -/
def earnRate (c : Chip) : Chip :=
  { c with trm := { c.trm with
    promoteCredit := min c.trm.promoteCredit 65535 + 4000 * c.cfg F.TIER_MIG_RATE_PROMOTE_GBPS
    evictCredit := min c.trm.evictCredit 65535 + 4000 * c.cfg F.TIER_MIG_RATE_EVICT_GBPS } }

/-- The accesses to the frame of an extent that a step of one of its parcels makes (R430). -/
def stepOwes (c : Chip) (p : Nat) : Chip :=
  match c.frameOf (p / 32) with
  | some f => c.oweBlock .mig (c.frameAddr f (p * 65536)) 65536
  | none => c

/-- A step of a parcel begins where MIG_RATE allows one more of 64 KiB; the answer counts those begun. -/
def issueStep (a : Chip × Nat) (p : Nat) : Chip × Nat :=
  let t := a.1.trm
  let run : List Nat := t.stepRunning ++ [p]
  if a.2 ≥ a.1.cfg F.TIER_MIG_CFG_STEPS then a
  else if (a.1.ext (p / 32)).state = 3 then
    if t.promoteCredit < 65536 then a
    else (({ a.1 with trm := { t with stepRunning := run, promoteCredit := t.promoteCredit - 65536 } }).stepOwes p, a.2 + 1)
  else if t.evictCredit < 65536 then a
  else (({ a.1 with trm := { t with stepRunning := run, evictCredit := t.evictCredit - 65536 } }).stepOwes p, a.2 + 1)

/-- Up to STEPS copy, pack and cleaning steps of the Round begin, within MIG_RATE (R284); none while accesses of earlier ones wait for tokens (R432). -/
def issueSteps (c : Chip) : Chip :=
  if c.clientWaits .mig then c.earnRate
  else
  let clean := if c.cleans then c.toClean else []
  let first := if decide (c.get F.GOV_GOV_STATE ≥ 2) then clean else c.toStep
  let then' := if decide (c.get F.GOV_GOV_STATE ≥ 2) then c.toStep else clean
  let d := (then'.foldl issueStep (first.foldl issueStep (c.earnRate, 0))).1
  let begun := (d.trm.stepRunning.filter fun p => clean.contains p && !c.trm.stepRunning.contains p).length
  if begun = 0 then d else d.cnt K.GOV_CLEAN_QUEUED begun

/-- Frames for extents that wait for one: a promotion that found none, a first write decided FRONT (R281). -/
def giveFrames (c : Chip) : Chip :=
  (c.trm.ext.filter fun x => (x.2.state == 2 || x.2.state == 3) && x.2.frame.isNone).foldl (fun c x => c.takeFrame x.1) c

/-- The keeper commits what is done and decides on first writes. -/
def keeperDecides (c : Chip) : Chip := if c.isKeeper then (c.commitDone).decideFirst else c

/-- The keeper fills its slots, and notes what it cannot start. -/
def keeperFills (c : Chip) : Chip := if c.isKeeper then c.fillSlots.noteBlocked else c

/-- Few free frames raise POOL_LOW. -/
def notePoolLow (c : Chip) : Chip := if c.poolFree < c.lowFrames then c.raise F.TIER_EV_POOL_LOW else c

/-- The keeper sweeps for victims while free frames are few or a promotion waits for one. -/
def sweepIfLow (c : Chip) : Chip :=
  if c.isKeeper && (decide (c.pairFree < c.lowFrames) || !c.trm.pinWaits.isEmpty) then c.sweep (c.trm.ext.length + 1) else c

/-- A domain above its cap raises OVER_CAP. -/
def noteOverCap (c : Chip) : Chip :=
  (List.range 64).foldl (fun c d => if c.capFrames d != 0 && decide (c.domUse d > c.capFrames d) then c.raise F.POOL_EV_OVER_CAP else c) c

/-- The migration job of a Round (R284). -/
def migJob (c : Chip) : Chip :=
  (((((c.giveFrames).keeperDecides).keeperFills).issueSteps).notePoolLow).sweepIfLow.noteOverCap

/-! ## Domains (R270, R271) -/

/-- Whether a committed decoder of a head maps part of a range of DPAs. -/
def headMaps (c : Chip) (h : Fin 24) (lo hi : Nat) : Bool :=
  (List.range 16).any fun n =>
    (c.decoder h n).committed && decide (c.decoderBase h n < hi) && decide (lo < c.decoderEnd h n)

/-- Whether a committed decoder of any head maps part of a range. -/
def mapped (c : Chip) (lo hi : Nat) : Bool := allHeads.any fun h => c.headMaps h lo hi

/-- The offset of register `reg` of a domain. -/
def domOff (d reg : Nat) : Nat := 0x100 + 0x10 * d + 4 * reg

/-- The bits that register `reg` of a domain stores (R305). -/
def domMask (reg : Nat) : Nat :=
  match reg with | 0 => 0x800FFFFF | 1 => 0x1FFFFF | 2 => 0x1F0F | _ => 0xFFFFFFFF

/-- The checks of R270 on a write, in order: 0 where it passes. `x` is the chip with the value stored; `cap` and `pool` are the pair's
host capacity in 256 MiB and its pool in frames (R40). -/
def domainCode (c x : Chip) (d cap pool : Nat) : Nat :=
  let lo := c.domBase d
  let hi := lo + c.domSize d
  let shrinks := c.domValid d && (!x.domValid d || decide (x.domSize d < c.domSize d) || x.domBase d != lo ||
    x.cfg (F.DOM_DOMAIN_KIND d) != c.cfg (F.DOM_DOMAIN_KIND d) || x.cfg (F.DOM_DOMAIN_OWNER d) != c.cfg (F.DOM_DOMAIN_OWNER d))
  let valid := (List.range 64).filter fun i => x.domValid i
  let meets2 := x.domValid d && valid.any fun i => i != d && decide (x.domBase i < x.domBase d + x.domSize d) &&
    decide (x.domBase d < x.domBase i + x.domSize i)
  let sum := (valid.map fun i => x.cfg (F.DOM_DOMAIN_SIZE_256M i)).sum
  let mins := (valid.map x.minFrames).sum
  if decide (x.domBase d + x.domSize d > 2 ^ 48) || decide (x.cfg (F.DOM_DOMAIN_OWNER d) > 23) ||
      (x.cfg (F.DOM_DOMAIN_CAP_GIB d) != 0 && decide (x.cfg (F.DOM_DOMAIN_MIN_GIB d) > x.cfg (F.DOM_DOMAIN_CAP_GIB d))) then 0x01
  else if x.domValid d && x.domSize d == 0 then 0x06
  else if shrinks && c.mapped lo hi then 0x40
  else if meets2 then 0x07
  else if x.domValid d && (decide (sum > cap) || decide (mins > pool)) then 0x08
  else if x.cfgOn (F.DOM_DOMAIN_FRONT_PINNED d) && decide (x.domSize d > x.cfg (F.DOM_DOMAIN_MIN_GIB d) * 2 ^ 30) then 0x41
  else if x.cfgOn (F.DOM_DOMAIN_FRONT_PINNED d) &&
      (c.trm.objects.any fun o => x.inDomain d (o.2.first * 2 ^ 21) && o.2.policy != 0) then 0x42
  else 0

/-- L of a head's link in units of 1,000 MB/s, rounded down: the raw bandwidth of one direction (R83). How a bandwidth that is no whole
number of units is rounded the spec does not say (DESIGN CHOICE, log 95). -/
def rawBandwidth (c : Chip) (h : Fin 24) : Nat :=
  let gt10 := [25, 50, 80, 160, 320, 640].getD (c.get (F.HLNK_LINK_RATE h.val)) 640
  gt10 * 2 ^ c.get (F.HLNK_LINK_WIDTH h.val) / 80

/-- The CDAT entries of a domain (R82, R83): DSMAS with its handle, flags, base and length; DSEMTS, persistent; DSLBIS for read and write
latency in ns and read and write bandwidth in GB/s. -/
def cdatOf (c : Chip) (h : Fin 24) (d : Nat) : List (List Nat) :=
  let l := c.rawBandwidth h
  let pinned := c.cfgOn (F.DOM_DOMAIN_FRONT_PINNED d)
  [[0, d, 4 + (if c.commons d then 8 else 0), c.domBase d, c.domSize d],
   [4, d, 1],
   [1, d, 1, if pinned then 180 else 45000],
   [1, d, 2, if c.localMode d then 150 else 400],
   [1, d, 4, if pinned then l else min l 110],
   [1, d, 5, l]]

/-- The entries of a head's CDAT: those of each domain it may map (R82). -/
def cdatTable (c : Chip) (h : Fin 24) : List (List Nat) := ((List.range 64).filter fun d => c.mayMap h.val d).flatMap (c.cdatOf h)

/-- The CDAT of every head whose table differs from what it was changes: its sequence number rises, with a record in the head's Informational
log (R84). -/
def cdatFollow (c old : Chip) : Chip :=
  (allHeads.filter fun h => c.cdatTable h != old.cdatTable h).foldl (fun c h =>
    (c.mapHead h fun x => { x with cdatSeq := x.cdatSeq + 1 }).headRecord h 0 (F.HCFG_EV_HOT_RESET h.val).page 2 0) c

/-- A domain's key is destroyed on this chip, in the metadata too (R567). -/
def dropKey (c : Chip) (d : Nat) : Chip := { c with sec := { c.sec with keys := c.sec.keys.erase d } }

/-- The consequences of a domain setting that is applied (R271): extents leave with the range they lay in, objects with their domain;
policies are judged again. -/
def domainChanged (c old : Chip) (d : Nat) : Chip :=
  let moved := old.domValid d && (!c.domValid d || c.domBase d != old.domBase d)
  let gone := (old.trm.ext.map (·.1)).filter fun e =>
    old.inDomain d (e * 2 ^ 21) && (moved || !c.inDomain d (e * 2 ^ 21))
  let c := gone.foldl (fun c e => c.enterState e 0) c
  let c := if moved then ((c.trm.objects.filter fun o => old.inDomain d (o.2.first * 2 ^ 21)).map (·.1)).foldl dropObject c else c
  let c := if moved then
      ({ c with trm := { c.trm with objects := c.trm.objects.filter fun o => !old.inDomain d (o.2.first * 2 ^ 21) } }).dropKey d
    else c
  let c := if c.isKeeper then (c.writtenIn (c.domBase d / 2 ^ 21) (c.domSize d / 2 ^ 21)).foldl judgePolicy c else c
  (c.routesAfterDomain.cdatFollow old).raise F.DOM_EV_DOMAIN_CHANGED

/-- Whether a domain's setting as used differs between two chips. -/
def domainDiffers (c x : Chip) (d : Nat) : Bool :=
  (List.range 4).any fun r => c.used 0x0A1 (domOff d r) != x.used 0x0A1 (domOff d r)

/-- A write of a domain register (R56, R270): stored, where the page runs checked and in force; while it does not run it awaits the check.
The answer says whether the domain needs a new key: it became valid, or moved. -/
def domainWrite (c : Chip) (d reg : Nat) (data : Word) (cap pool : Nat) : Chip × Bool :=
  let v := data &&& BitVec.ofNat 32 (domMask reg)
  let y := c.wr 0x0A1 (domOff d reg) v
  let x := y.setUsed 0x0A1 (domOff d reg) v
  let code := c.domainCode x d cap pool
  if !c.running 0x0A1 then (y, false)
  else if code != 0 then (c.reject 0x0A1 code (domOff d reg), false)
  else (x.domainChanged c d, x.domValid d && (!c.domValid d || x.domBase d != c.domBase d))

end Chip

open Chip

namespace State

/-- The pair's host capacity in units of 256 MiB: the smaller of the two twins' while MIRRORED (R40, R272). -/
def pairCapacity (s : State) (w : Twin) : Nat :=
  let own := (s.chip w).get F.TIER_CAPACITY_HOST_256M
  if (s.chip w).mirrored then min own ((s.chip w.other).get F.TIER_CAPACITY_HOST_256M) else own

/-- The pair's front-tier pool in frames (R40). -/
def pairPool (s : State) (w : Twin) : Nat :=
  let own := (s.chip w).poolFrames
  if (s.chip w).mirrored then min own (s.chip w.other).poolFrames else own

/-- The accepting chip draws a domain's key and announces it in a gated effect (R566). -/
def drawKey (s : State) (w : Twin) (d : Nat) : State :=
  let x := s.nextFree
  x.2.mapChip w fun c => c.announce (.newKey d (Config.drbg x.1))

end State

/-! ## The commands -/

/-- DOMAIN_WRITE (R56, R58, R270, R271): a write of a domain register of a chip's own page. -/
def execDomainWrite (w : Twin) (rq : Requester) (d : Fin 64) (reg : Fin 4) (data : Word) (s : State) : Host.Outcome State Fault Refusal :=
  if !(s.chip w).up then .next s
  else if !(s.chip w).mayWrite rq 0x0A1 then .next (s.mapChip w deny)
  else
    let r := (s.chip w).domainWrite d.val reg.val data (s.pairCapacity w) (s.pairPool w)
    let t := s.setChip w r.1
    .next (if r.2 then t.drawKey w d.val else t)

/-- A step of a promotion ends (R281): the parcel and its patches stand in the frame. -/
def Chip.copyStepDone (c : Chip) (p : Nat) : Chip :=
  let e := p / 32
  if (c.ext e).state != 3 || !(c.ext e).frame.isSome || !c.trm.stepRunning.contains p then c
  else
    let ls := c.patchOf p
    let front := copyBytes c.trm.packed c.trm.front (p * 65536) 65536
    let c' := { c with trm := { c.trm with
      front := ls.foldl (fun t l => writeLine t l (readLine c.trm.patch l) allBytes) front
      frontPoison := (c.trm.packedPoison.filter fun l => l / 65536 == p && !ls.contains l) ++ (ls.filter fun l => c.trm.patchPoison.contains l)
        ++ c.trm.frontPoison.filter fun l => l / 65536 != p
      stepDone := insertN c.trm.stepDone p
      stepRunning := dropN c.trm.stepRunning p } }
    let c' := if (c.parcel p).state = 1 && !c.pcacheHit p then c'.cnt K.MDE_FULL_READS else c'
    let c' := if ls.isEmpty then c' else (c'.dropPatch p ls).setDirty p true
    c'.migDone e

/-- COPY_STEP_DONE (R281): a parcel is written into the frame, its patch lines laid over it and freed; DONE after the last. -/
def execCopyStepDone (w : Twin) (p : Nat) (s : State) : Host.Outcome State Fault Refusal :=
  .next (s.onUp w fun c => c.copyStepDone p)

/-- A step of an eviction or a cleaning ends (R267, R282, R283): the parcel has a packed copy, and is clean unless the WMB drained into it meanwhile. -/
def Chip.packStepDone (c : Chip) (p : Nat) (drained : Bool) : Chip :=
  let e := p / 32
  let st := (c.ext e).state
  if !(st == 2 || st == 4) || !(c.ext e).frame.isSome || !c.trm.stepRunning.contains p then c
  else match c.writeCopy p sHOST c.trm.front (c.trm.frontPoison.filter fun l => l / 65536 == p) with
    | none => c
    | some c =>
      let c := { c with trm := { c.trm with stepRunning := dropN c.trm.stepRunning p } }
      let c := if drained then c else c.setDirty p false
      if st = 4 then ({ c with trm := { c.trm with stepDone := insertN c.trm.stepDone p } }).migDone e
      else c.cnt K.TIER_CLEANED_PARCELS

/-- PACK_STEP_DONE (R267, R282, R283): a parcel of a frame is packed as a new copy, and its dirty bit cleared unless a drain came after
the copy began (`drained`); DONE of an eviction after the last. Where staging is full the step waits. -/
def execPackStepDone (w : Twin) (p : Nat) (drained : Bool) (s : State) : Host.Outcome State Fault Refusal :=
  .next (s.onUp w fun c => c.packStepDone p drained)

/-- A released frame that no read and no drain needs any more is queued for zeroing (R263); it holds nothing then. -/
def Chip.frameFree (c : Chip) (f : Nat) : Chip :=
  match c.trm.freeing.find? fun x => x.1 == f with
  | none => c
  | some x =>
    if (c.tags.any fun t => extentOf t.dpa == x.2 && (at' t .dram || at' t .fill)) ||
        c.wmb.any fun y => extentOf (y.1 * 64) == x.2 && y.2.state == .draining then c
    else
      let mine := (c.ext x.2).frame.isNone
      { c with trm := { c.trm with
        freeing := c.trm.freeing.filter fun y => y.1 != f
        zeroing := c.trm.zeroing ++ [f]
        front := if mine then clearBytes c.trm.front (x.2 * 2 ^ 21) (2 ^ 21) else c.trm.front
        frontPoison := if mine then c.trm.frontPoison.filter fun l => extentOf l != x.2 else c.trm.frontPoison } }

/-- FRAME_FREE (R263): the last request that uses the frame has finished; the frame is zeroed. -/
def execFrameFree (w : Twin) (f : Nat) (s : State) : Host.Outcome State Fault Refusal :=
  .next (s.onUp w fun c => c.frameFree f)

/-- FRAME_ZERO_DONE (R263): the frame returns to the free list; a PIN_FRONT extent that waits for one is decided again. -/
def execFrameZeroDone (w : Twin) (f : Nat) (s : State) : Host.Outcome State Fault Refusal :=
  .next (s.onUp w fun c =>
    if c.trm.zeroing.contains f then
      ({ c with trm := { c.trm with zeroing := dropN c.trm.zeroing f, pinWaits := [] } }).giveFrames
    else c)

/-! ## Maintenance of the Metadata Cache (R298 to R303) -/

namespace Chip

/-- One held line is written back where it is dirty. -/
def mdcWriteBack (c : Chip) (set way : Nat) : Chip :=
  let x := c.mdcWay set way
  if x.held && x.dirty then (c.mdcToDram (c.mdcLineAt set x.tag)).setMdcWay set way { x with dirty := false } else c

/-- One held line is written back by maintenance. -/
def mdcCleanWay (c : Chip) (set way : Nat) : Chip :=
  if (c.mdcWay set way).held && (c.mdcWay set way).dirty then (c.mdcWriteBack set way).cnt K.MNT_LINES_CLEANED else c

/-- A locked line is dropped (R301). -/
def dropLocked (c : Chip) (line : Nat) : Chip :=
  (((c.put F.MDC_LAST_DROPPED_LO (line * 256)).put F.MDC_LAST_DROPPED_HI (line * 256 / 2 ^ 32)).cnt K.MDC_LOCKED_DROPS).raise
    F.MDC_EV_LOCKED_LINE_DROPPED

/-- One held line is dropped; a locked way stays locked and empty, and is reported (R301). -/
def mdcDropWay (c : Chip) (set way : Nat) : Chip :=
  let x := c.mdcWay set way
  if !x.held then c
  else
    let line := c.mdcLineAt set x.tag
    let c := if x.dirty then c.mdcFromDram line else c
    let c := c.setMdcWay set way (if x.locked then { tag := x.tag, locked := true } else {})
    let c := c.cnt K.MNT_LINES_INVALIDATED
    if x.locked then c.dropLocked line else c

/-- The held lines of a range of line numbers, as set and way. -/
def mdcRange (c : Chip) (first n : Nat) : List (Nat × Nat) :=
  (c.mdc.lines.filter fun x => x.2.held &&
    (let l := c.mdcLineAt (x.1 / 32) x.2.tag; decide (first ≤ l) && decide (l < first + n))).map fun x => (x.1 / 32, x.1 % 32)

/-- Locks one line (R301): its way where it is held; else it is filled, into an empty locked way of its set first. None where the set has
LOCK_MAX locked ways. -/
def mdcLockLine (c : Chip) (line : Nat) : Option Chip :=
  let set := c.mdcSet line
  let locked := (List.range 18).filter fun w => (c.mdcWay set w).locked
  let full := decide (locked.length ≥ c.cfg F.MDC_MDC_CFG_LOCK_MAX)
  match c.mdcFind line with
  | some w =>
    if (c.mdcWay set w).locked then some c
    else if full then none
    else some ((c.setMdcWay set w { c.mdcWay set w with locked := true }).cnt K.MNT_LOCKS)
  | none =>
    let buffered := c.mdc.evb.contains line
    let fetched := if buffered then { c with mdc := { c.mdc with evb := dropN c.mdc.evb line } }.cnt K.MDC_EVB_HITS else c.cnt K.MDC_MISSES
    match locked.find? fun w => !(c.mdcWay set w).held with
    | some w => some ((fetched.setMdcWay set w { held := true, tag := line >>> 14, dirty := buffered, locked := true, ref := true }).cnt K.MNT_LOCKS)
    | none =>
      if full then none
      else
        let c := fetched.mdcInstall line buffered
        match c.mdcFind line with
        | some w => some ((c.setMdcWay set w { c.mdcWay set w with locked := true }).cnt K.MNT_LOCKS)
        | none => none

/-- Locks a range, line by line, up to the first that finds no room; the answer says how many were processed and whether all were. -/
def mdcLockRange (c : Chip) (line done : Nat) : Nat → Chip × Nat × Bool
  | 0 => (c, done, true)
  | n + 1 =>
    match c.mdcLockLine line with
    | none => (c, done, false)
    | some c => c.mdcLockRange (line + 1) (done + 1) n

/-- Unlocks the ways of a range: held lines, and empty ways that a dropped line of it left locked. -/
def mdcUnlockRange (c : Chip) (first n : Nat) : Chip :=
  (c.mdc.lines.filter fun x => x.2.locked &&
    (let l := c.mdcLineAt (x.1 / 32) x.2.tag; decide (first ≤ l) && decide (l < first + n))).foldl
      (fun c x => (c.setMdcWay (x.1 / 32) (x.1 % 32) (if x.2.held then { x.2 with locked := false } else {})).cnt K.MNT_UNLOCKS) c

/-- OP_GO starts an operation of a kind (R300, R599); one that is BUSY rejects it with STATE. -/
def mdcGo (c : Chip) (kind : Nat) : Chip :=
  if c.get F.MNT_OP_KIND ≠ kind then c
  else if c.get F.MNT_OP_STATUS_STATE = 1 then c.reject 0x0C1 0x0C 0x114
  else
    let line := c.get F.MNT_OP_ADDR_LO + 2 ^ 24 * c.get F.MNT_OP_ADDR_HI
    let c := { c with mdc := { c.mdc with op := some (kind, line, c.get F.MNT_OP_COUNT) } }
    ((c.put F.MNT_OP_STATUS_STATE 1).put F.MNT_OP_STATUS_ERR 0).put F.MNT_OP_PROGRESS 0

/-- An operation ends: DONE, or ERR with a reason (R300). -/
def mdcEnd (c : Chip) (err progress : Nat) : Chip :=
  let c := { c with mdc := { c.mdc with op := none } }
  let c := ((c.put F.MNT_OP_STATUS_STATE (if err = 0 then 2 else 3)).put F.MNT_OP_STATUS_ERR err).put F.MNT_OP_PROGRESS progress
  (if err = 0 then c.cnt K.MNT_OPS_DONE else c).raise F.MNT_EV_OP_DONE

/-- What an operation does to one held line: CLEAN, INVALIDATE, or both. -/
def mdcAct (c : Chip) (kind set way : Nat) : Chip :=
  match kind with
  | 0 => c.mdcCleanWay set way
  | 1 => c.mdcDropWay set way
  | _ => (c.mdcCleanWay set way).mdcDropWay set way

/-- The whole of a maintenance operation (R300 to R302). -/
def mdcRun (c : Chip) (kind line n : Nat) : Chip :=
  if c.is F.MNT_OP_MODE then
    let set := c.get F.MNT_OP_SETWAY_SET
    let way := c.get F.MNT_OP_SETWAY_WAY
    if kind ≥ 3 || way ≥ 18 then c.mdcEnd 3 0
    else if !(c.get F.MDC_WAYS_ENABLED).testBit way then c.mdcEnd 2 0
    else (c.mdcAct kind set way).mdcEnd 0 1
  else if line + n > 2 ^ 28 then c.mdcEnd 3 0
  else if kind = 3 then
    let r := c.mdcLockRange line 0 n
    r.1.mdcEnd (if r.2.2 then 0 else 1) r.2.1
  else if kind = 4 then (c.mdcUnlockRange line n).mdcEnd 0 n
  else
    let c := (c.mdcRange line n).foldl (fun c x => c.mdcAct kind x.1 x.2) c
    let mark (x : Nat × Bool) : Nat × Bool := if kind ≥ 1 && decide (line ≤ x.1) && decide (x.1 < line + n) then (x.1, true) else x
    ({ c with mdc := { c.mdc with fills := c.mdc.fills.map mark } }).mdcEnd 0 n

end Chip

/-- MDC_INVALIDATION_DONE (R298): every line is invalid, and accesses go on. -/
def execMdcInvalidationDone (w : Twin) (s : State) : Host.Outcome State Fault Refusal :=
  .next (s.onUp w fun c =>
    if c.mdc.invalidated then c else { c with mdc := { c.mdc with lines := [], evb := [], invalidated := true } })

/-- MDC_CLEAN (R300). -/
def execMdcClean (w : Twin) (rq : Requester) (s : State) : Host.Outcome State Fault Refusal :=
  .next (s.onUp w fun c => c.ifWrites rq 0x0C1 fun c => c.ifRunning 0x0C1 0x114 fun c => c.mdcGo 0)

/-- MDC_INVALIDATE (R300). -/
def execMdcInvalidate (w : Twin) (rq : Requester) (s : State) : Host.Outcome State Fault Refusal :=
  .next (s.onUp w fun c => c.ifWrites rq 0x0C1 fun c => c.ifRunning 0x0C1 0x114 fun c => c.mdcGo 1)

/-- MDC_CLEAN_INVALIDATE (R300). -/
def execMdcCleanInvalidate (w : Twin) (rq : Requester) (s : State) : Host.Outcome State Fault Refusal :=
  .next (s.onUp w fun c => c.ifWrites rq 0x0C1 fun c => c.ifRunning 0x0C1 0x114 fun c => c.mdcGo 2)

/-- MDC_LOCK (R301). -/
def execMdcLock (w : Twin) (rq : Requester) (s : State) : Host.Outcome State Fault Refusal :=
  .next (s.onUp w fun c => c.ifWrites rq 0x0C1 fun c => c.ifRunning 0x0C1 0x114 fun c => c.mdcGo 3)

/-- MDC_UNLOCK (R301). -/
def execMdcUnlock (w : Twin) (rq : Requester) (s : State) : Host.Outcome State Fault Refusal :=
  .next (s.onUp w fun c => c.ifWrites rq 0x0C1 fun c => c.ifRunning 0x0C1 0x114 fun c => c.mdcGo 4)

/-- MDC_OP_DONE (R300 to R302): the operation ends in DONE or ERR. A LOCK waits for a fill in flight in its range. -/
def execMdcOpDone (w : Twin) (s : State) : Host.Outcome State Fault Refusal :=
  .next (s.onUp w fun c =>
    match c.mdc.op with
    | none => c
    | some (kind, line, n) =>
      if kind == 3 && c.mdc.fills.any fun x => decide (line ≤ x.1) && decide (x.1 < line + n) then c
      else c.mdcRun kind line n)

/-- A locked line of a way that is gone is refilled and locked in another way of its set, or dropped where none has room (R303). -/
def Chip.refillLocked (c : Chip) (line : Nat) : Chip :=
  match c.mdcLockLine line with
  | some d => d
  | none => c.dropLocked line

/-- WAY_DISABLE_DONE (R303, R460): the way's dirty lines are written back and it is disabled; a spare way comes in empty and takes its
locked lines, or NO_SPARE_WAY is raised and those that find no room in their sets are dropped as in R301. -/
def execWayDisableDone (w : Twin) (way : Fin 18) (s : State) : Host.Outcome State Fault Refusal :=
  .next (s.onUp w fun c =>
    let v := way.val
    if !c.mdc.disabling.contains v then c
    else
      let mine := (c.mdc.lines.filter fun x => x.1 % 32 == v).map fun x => (x.1 / 32, x.2)
      let c := mine.foldl (fun c x => if x.2.held && x.2.dirty then (c.mdcToDram (c.mdcLineAt x.1 x.2.tag)) else c) c
      let c := { c with
        mdc := { c.mdc with lines := c.mdc.lines.clear (fun k => k % 32 == v), disabling := dropN c.mdc.disabling v }
        cbl := { c.cbl with retiredWays := insertN c.cbl.retiredWays v } }
      let on := c.get F.MDC_WAYS_ENABLED
      let off := c.get F.MDC_WAYS_DISABLED ||| 2 ^ v
      let c := c.put F.MDC_WAYS_DISABLED off
      let spares := (List.range 18).filter fun k => !on.testBit k && !off.testBit k && !c.cbl.failedSpares.testBit (k - 16)
      let c := (c.cnt K.MDC_WAY_DISABLES).raise F.MDC_EV_WAY_DISABLED
      let on := if on.testBit v then on - 2 ^ v else on
      match spares with
      | k :: rest =>
        let c := ((c.put F.MDC_WAYS_ENABLED (on ||| 2 ^ k)).put F.CBO_MDC_WAYS_LEFT rest.length).drew 8 (sramLocation 3 v 0) rest.isEmpty
        mine.foldl (fun c x => if x.2.held && x.2.locked then c.setMdcWay x.1 k { x.2 with dirty := false } else c) c
      | [] =>
        let c := (c.put F.MDC_WAYS_ENABLED on).raise F.MDC_EV_NO_SPARE_WAY
        mine.foldl (fun c x => if x.2.held && x.2.locked then c.refillLocked (c.mdcLineAt x.1 x.2.tag) else c) c)

end Sys2Proof.Machine
end

