-- ==== Sys2Proof/Machine/Ras.lean ====
section
/-! DEFINITION. Post Box commands as they end, retirement commands, scrubbers and the Spare Ledger's projections of one chip
(R446 to R450, R457 to R459, R465, R466). -/
namespace Sys2Proof.Machine

/-! ## The end of a Post Box command (R149 to R153, R177) -/

namespace Chip

/-- A ring. -/
def ring (c : Chip) (q : Nat) : Ring := c.rings.get (fun _ => {}) q

/-- The chip with a ring changed. -/
def mapRing (c : Chip) (q : Nat) (f : Ring → Ring) : Chip := { c with rings := c.rings.set (fun _ => {}) q (f (c.ring q)) }

/-- The owning head of a ring, where its number names one. -/
def ringOwner (c : Chip) (q : Nat) : Option (Fin 24) :=
  let n := c.cfg (F.PBX_RING_OWNER q)
  if h : n < 24 then some ⟨n, h⟩ else none

/-- Whether this chip keeps a ring: it is home of the owning head's port (R142). -/
def keepsRing (c : Chip) (q : Nat) : Bool :=
  match c.ringOwner q with
  | some h => c.isHome (portOf h)
  | none => false

/-- RING_STATUS.STATE: 0 OFF, 1 ACTIVE, 2 ERROR, 3 STOPPING. -/
def ringState (c : Chip) (q : Nat) : Nat := c.get (F.PBX_RING_STATUS_STATE q)

/-- A command in progress. -/
def ringCmd (c : Chip) (q idx : Nat) : Option RingCmd := (c.ring q).fetched.find? fun x => x.idx == idx

/-- What a command in progress ends with. -/
def ringEnd (c : Chip) (q : Fin 64) (idx status result : Nat) : Option RingEnd :=
  (c.ringCmd q.val idx).map fun x => ⟨q, idx, x.tag, status, result % 2 ^ 64, x.flags.testBit 1⟩

/-- A command is finished (R177): its completion waits to be written until the peer's postmark covers the record (R151). -/
def ringFinish (c : Chip) (x : RingEnd) (recSeq : Option Nat) : Chip :=
  if (c.ringCmd x.q.val x.idx).isNone then c
  else c.mapRing x.q.val fun r =>
    { r with
      fetched := r.fetched.filter fun y => y.idx != x.idx
      finished := r.finished ++ [⟨x, recSeq⟩] }

/-- The keeper announces a command's completion in an EFFECT record with its last change (R177): at once where the record is ungated,
when the effect is applied where it is gated. -/
def ringReport (c : Chip) (q : Fin 64) (idx status result : Nat) (e : Effect := .nothing) (gated : Bool := false) : Chip :=
  match c.ringEnd q idx status result with
  | none => c
  | some x =>
    let c' := c.postEffect e gated (some (.ring x))
    if gated then c' else c'.ringFinish x (if c.posts then some c'.twe.pmSeq else none)

/-- The result of a command is known on the chip that carried it out, which need not keep its ring: the keeper announces the end, another
chip tells the keeper (R280, R458). -/
def commandEnd (c : Chip) (q : Fin 64) (idx status result : Nat) : Chip :=
  if c.keepsRing q.val then c.ringReport q idx status result
  else c.postEffect (.retireDone q idx status result) false

/-! ## Addresses in DRAM -/

/-- The chip-local DRAM address of a pair (R415): the inverse of the decomposition. -/
def placeAddr (map rbits : Nat) (p : DramPlace) : Nat :=
  let bgx := p.bg ^^^ p.row % 8
  let bax := p.ba ^^^ cut p.row 3 2
  let up := p.rank * 2 ^ 12 + p.row * 2 ^ (12 + rbits)
  let qc := match map with
    | 0 => p.col % 4 + bgx * 4 + p.col / 4 * 2 ^ 5 + bax * 2 ^ 10 + up
    | 1 => p.col + p.bg * 2 ^ 7 + p.ba * 2 ^ 10 + up
    | 2 => bgx + bax * 8 + p.col * 2 ^ 5 + up
    | _ => p.col + p.rank * 2 ^ 7 + p.ba * 2 ^ (7 + rbits) + p.bg * 2 ^ (9 + rbits) + p.row * 2 ^ (12 + rbits)
  (qc * 16 + (p.ch ^^^ cut qc 12 4 ^^^ cut qc 24 4)) * 128

/-- The offset in the layout of a chip-local DRAM address (R600): the inverse of `layoutAddr`; none for a pair that is left out. -/
def layoutOf (c : Chip) (x : Nat) : Option Nat :=
  if c.cbl.leftOut.isEmpty || c.dramMap = 3 then some x
  else
    let n := max 1 (c.rankCount 0)
    let win (r : Nat) : Nat := 2 ^ 19 * (16 - (c.missingOn r).length)
    let cycle := (List.range n).foldl (fun a r => a + win r) 0
    let w := x / 2 ^ 23
    let r := w % n
    let good := (List.range 16).filter fun j => !(c.missingOn r).contains (c.place (x / 2048 * 2048 + 128 * j)).ch
    if good.contains (x % 2048 / 128) then
      let q := x % 2 ^ 23 / 2048 * good.length + (good.takeWhile fun j => j != x % 2048 / 128).length
      some (w / n * cycle + (List.range r).foldl (fun a r => a + win r) 0 + q * 128 + x % 128)
    else none

/-- The frame that holds a chip-local DRAM address, where one does. -/
def frameAt (c : Chip) (x : Nat) : Option Nat :=
  match c.layoutOf x with
  | none => none
  | some o =>
    let f := (o - c.poolRange * 2 ^ 22) / 2 ^ 21
    if c.poolRange * 2 ^ 22 ≤ o ∧ f < c.frameCount then some f else none

/-- The DPA of the byte that a chip-local DRAM address holds, where the address lies in an extent's frame. -/
def dpaAt (c : Chip) (x : Nat) : Option Nat :=
  match c.frameAt x, c.layoutOf x with
  | some f, some o => (c.trm.ext.find? fun (e : Nat × ExtEntry) => e.2.frame == some f).map fun e => e.1 * 2 ^ 21 + o % 2 ^ 21
  | _, _ => none

/-- The frames in which a DRAM row lies (R458): one, or four under MAP_C. -/
def rowFrames (c : Chip) (p : DramPlace) : List Nat :=
  ((List.range 128).filterMap fun k =>
    c.frameAt (placeAddr c.dramMap (Nat.log2 (max 1 (c.rankCount 0))) { p with col := k })).eraseDups

/-- A DRAM row from LOCATION in DRAM form (R454). -/
def placeOf (location : Nat) : DramPlace :=
  ⟨cut location 0 4, cut location 4 4, cut location 8 3, cut location 11 2, cut location 13 18, 0⟩

/-- Whether a row is populated and in service. -/
def rowPopulated (c : Chip) (p : DramPlace) : Bool :=
  c.rankServes p.ch p.rank && decide (p.row * 2 ^ 19 < c.rankBytes p.ch)

/-! ## The pool's limits (R275) -/

/-- The extents of a domain that policy pins: all of a front-pinned domain, else those of PIN_FRONT objects and of a PIN_FRONT default. -/
def pinnedExtents (c : Chip) (d : Nat) : Nat :=
  let mine := c.trm.objects.filter fun o => c.inDomain d (o.2.first * 2 ^ 21)
  let size := c.domSize d / 2 ^ 21
  if c.cfgOn (F.DOM_DOMAIN_FRONT_PINNED d) then size
  else ((mine.filter fun o => o.2.policy == 0).map fun o => o.2.count).sum +
    (if c.cfg (F.DOM_DOMAIN_DEFAULT_POLICY d) = 0 then size - (mine.map fun o => o.2.count).sum else 0)

/-- The frames that the domains need: the larger of MIN_GIB and the pinned frames of each. -/
def poolNeed (c : Chip) : Nat :=
  (((List.range 64).filter fun d => c.domValid d).map fun d => max (c.minFrames d) (c.pinnedExtents d)).sum

/-! ## Retirement (R457 to R459) -/

/-- A frame leaves the pool: its extent, where it has one, lies in another frame from then on. None where no frame is free for it. -/
def retireFrame (c : Chip) (f : Nat) : Option Chip :=
  if c.cbl.framesRetired.contains f then some c
  else
    let users := (c.trm.ext.filter fun x => x.2.frame == some f).map (·.1)
    let c' := { c with cbl := { c.cbl with framesRetired := f :: c.cbl.framesRetired } }
    let c' := { c' with trm := { c'.trm with
      freeing := c'.trm.freeing.filter fun x => x.1 != f
      zeroing := c'.trm.zeroing.filter fun x => x != f } }
    let moved := users.foldl (fun (a : Option Chip) e =>
      a.bind fun c => (c.freeFrame).map fun g => (c.mapExt e fun x => { x with frame := some g }).tcInvalidate e) (some c')
    moved.map fun c =>
      ((c.put F.CBD_FRAMES_RETIRED c.cbl.framesRetired.length).dlo 0x13 4 5 0 0 (c.frameAddr f 0)).drew 6 (c.frameAddr f 0) (c.poolFree == 0)

/-- Frames leave the pool together: their status, 0x0133 where the pool would be short, none where a frame must first be freed. -/
def retireFrames (c : Chip) (fs : List Nat) : Chip × Option Nat :=
  let new := fs.filter fun f => !c.cbl.framesRetired.contains f
  if c.poolNeed + new.length > c.poolFrames then (c, some 0x0133)
  else match new.foldl (fun (a : Option Chip) f => a.bind fun c => c.retireFrame f) (some c) with
    | some c => (c, some 0)
    | none => (c, none)

/-- What a command that retires frames answers: `res` where every one of them left the pool. -/
def framesResult (y : Chip × Option Nat) (res : Nat) : Chip × Option (Nat × Nat) :=
  (y.1, match y.2 with
    | some 0 => some (0, res)
    | some st => some (st, 0)
    | none => none)

/-- RETIRE_FRAME: status and result, or none while it waits. -/
def retireFrameJob (c : Chip) (address : Nat) : Chip × Option (Nat × Nat) :=
  (c.frameAt address).elim (c, some (0x0131, 0)) fun f => framesResult (c.retireFrames [f]) 1

/-- The frames of a row are retired where PPR could not repair it: RESULT says so with their number. -/
def retireRowFrames (c : Chip) (p : DramPlace) : Chip × Option (Nat × Nat) :=
  let fs := c.rowFrames p
  framesResult (c.retireFrames fs) (2 + 256 * fs.length)

/-- RETIRE_PARCEL: a new copy elsewhere, the old row queued for Resole, its weak blocks marked. -/
def retireParcelJob (c : Chip) (address : Nat) : Chip × Option (Nat × Nat) :=
  let p := parcelOf address
  let old := c.parcel p
  if (c.domainOf address).isNone then (c, some (0x0131, 0))
  else if old.state ≠ 1 then (c, some (0, 0))
  else
    let r := c.rowOfLoc old.loc
    let weak := c.mde.weakBlocks.get (fun _ => (0, 0)) p
    let ks := if weak.1 = old.loc then colsOf weak.2 else []
    match c.relocate p sRESOLE with
    | none => (c, none)
    | some c => ((ks.foldl (fun c k => c.markBlock r k) c).queueRow r 2, some (0, ks.length))

/-- RETIRE_DRAM_ROW before its PPR: a row already repaired counts as done; PPR starts, or is refused with NOT_MIRRORED. -/
def retireRowJob (c : Chip) (x : RetireJob) : Chip × Option (Nat × Nat) × Bool :=
  let p := placeOf x.location
  let k := (p.ch, p.rowKey)
  let fs := c.rowFrames p
  if !c.rowPopulated p then (c, some (0x0131, 0), false)
  else if c.cbl.hpprRows.contains k then (c, some (0, 1), false)
  else if c.cbl.spprRows.contains k then (c, some (0, 0), false)
  else if !fs.isEmpty && fs.all fun f => c.cbl.framesRetired.contains f then (c, some (0, 2 + 256 * fs.length), false)
  else if !c.pprMay then (c, some (0x0130, 0), false)
  else (c.pprStart p.ch p.rank p.bg p.ba p.row false true, none, true)

/-- One retirement command goes as far as it can; it stays among the jobs while it waits for PPR, a frame or staging. `x.address` is 1 in a
RETIRE_DRAM_ROW that has come to its frames. -/
def retireGo (c : Chip) (x : RetireJob) : Chip :=
  let stay (c : Chip) (x : RetireJob) : Chip := { c with cbl := { c.cbl with retireJobs := c.cbl.retireJobs ++ [x] } }
  if x.opcode = 0x300 ∧ x.address = 0 then
    match c.retireRowJob x with
    | (c, some (st, r), _) => c.commandEnd x.q x.idx st r
    | (c, none, b) => stay c { x with started := b }
  else
    let y := if x.opcode = 0x300 then c.retireRowFrames (placeOf x.location)
      else if x.opcode = 0x301 then c.retireFrameJob x.address
      else c.retireParcelJob x.address
    match y with
    | (c, some (st, r)) => c.commandEnd x.q x.idx st r
    | (c, none) => stay c x

/-- The retirement commands that wait for a frame or for staging are tried again in each Round. -/
def retireJobs (c : Chip) : Chip :=
  let l := c.cbl.retireJobs.filter fun x => !x.started
  let c := { c with cbl := { c.cbl with retireJobs := c.cbl.retireJobs.filter fun x => x.started } }
  l.foldl retireGo c

/-- A PPR has ended (R458): the command that waits for it ends with the kind of repair, or goes on to the row's frames; where Cobbler
found no PPR resource, the row's frames are retired (R460, R461). -/
def pprOutcome (c : Chip) (p : DramPlace) (hard auto : Bool) (err : Nat) : Chip :=
  match c.cbl.retireJobs.find? fun x => x.started && placeOf x.location == p with
  | some x =>
    let c := { c with cbl := { c.cbl with retireJobs := c.cbl.retireJobs.filter fun y => y != x } }
    if err = 0 then c.commandEnd x.q x.idx 0 (bit hard) else c.retireGo { x with address := 1, started := false }
  | none => if auto && err == 2 then (c.retireRowFrames p).1 else c

/-- PPR_LEFT_MIN (R476): the fewest PPR resources left in any bank group. -/
def showPprLeft (c : Chip) : Chip :=
  let left := ((List.range 16).filter fun d => c.rankCount d > 0).map fun d =>
    (c.chan d).training.ppr.toNat - ((c.chan d).pprUsed.map (·.2)).foldl max 0
  c.put F.CBD_PPR_LEFT_MIN (match left with | [] => 0 | n :: l => l.foldl min n)

/-! ## Ranks that retire in service (R462) -/

/-- An extent leaves its frame for a free one; with none free the keeper evicts it. -/
def moveExtent (c : Chip) (e : Nat) : Chip :=
  match c.freeFrame with
  | some g => ((c.mapExt e fun x => { x with frame := some g }).tcInvalidate e).oweBlock .mig (c.frameAddr g 0) (2 ^ 21)
  | none => if c.isKeeper then c.queueMig 0 e false else c

/-- The channels with a retired rank that is still served as one out of service. -/
def leavingRanks (c : Chip) : List Nat :=
  c.ranksOut.filter fun d => match (c.chan d).out with | some r => c.cbl.retiredRanks.contains (d, r) | none => false

/-- The extents in frames of retired ranks move; once none is left, and none is being freed there, the rank is out of use. -/
def ranksLeave (c : Chip) : Chip :=
  if c.leavingRanks.isEmpty then c
  else
    let users (c : Chip) : List Nat := (c.trm.ext.filter fun x => match x.2.frame with | some f => c.frameAway f | none => false).map (·.1)
    let c := (users c).foldl moveExtent c
    if (users c).isEmpty && !c.trm.freeing.any (fun x => c.frameAway x.1) then
      c.leavingRanks.foldl (fun c d => (c.mapChan d fun x => { x with out := none }).readBacklog d) c
    else c

/-! ## Scrubbers (R446 to R450) -/

/-- The pairs of DRAM that are populated. -/
def pairsPopulated (c : Chip) : Nat :=
  ((List.range 16).map fun d => c.rankCount d * c.rankBytes d / 128).sum

/-- The next address of the patrol. -/
def patrolAddr (c : Chip) : Nat := c.get F.PAT_PATROL_ADDR_LO + 2 ^ 32 * c.get F.PAT_PATROL_ADDR_HI

/-- A pass of the patrol ends, and the next begins at 0 (R446). -/
def patrolPass (c : Chip) : Chip :=
  let len := c.round - c.ras.passStart
  let c := { c with ras := { c.ras with passStart := c.round, late := false } }
  ((c.put F.PAT_PASS_NO (c.get F.PAT_PASS_NO + 1)).put F.PAT_LAST_PASS_MIN (min 65535 (len / 15000000))).raise F.PAT_EV_PASS_DONE

/-- The lines of the pair under the patrol that a save found uncorrectable wait for repair (R443). -/
def patrolDue (c : Chip) : Chip :=
  if c.trm.repairDue.isEmpty then c
  else
    let x := c.patrolAddr / 128 * 128
    let due := c.trm.repairDue.filter fun l => (c.dpaAt x == some l || c.dpaAt (x + 64) == some l) && !c.twe.repairQ.any fun y => y.1 == l
    { c with twe := { c.twe with repairQ := c.twe.repairQ ++ due.map fun l => (l, 2) } }

/-- The pair under the patrol is read, waits for its channel, or lies in a range not filled. -/
def patrolRead (c : Chip) : Chip :=
  let x := c.patrolAddr
  let p := c.place x
  if !c.rangeReady (x / 2 ^ 22) || (c.cbl.retiredRanks.contains (p.ch, p.rank) && (c.chan p.ch).out != some p.rank) then c
  else if c.pwr p.ch == 2 || (c.chan p.ch).out == some p.rank then c.mapChan p.ch fun y => { y with backlog := y.backlog + 1 }
  else ((c.oweLines .scrub p.ch 2).cnt K.PAT_PAIRS_READ).patrolDue

/-- Where the patrol goes after the address it stands at. -/
def patrolNext (c : Chip) : Nat :=
  let x := c.patrolAddr
  if c.rangeReady (x / 2 ^ 22) then x + 128 else (x / 2 ^ 22 + 1) * 2 ^ 22

/-- The chip with its patrol address replaced. -/
def setPatrol (c : Chip) (n : Nat) : Chip := (c.put F.PAT_PATROL_ADDR_LO n).put F.PAT_PATROL_ADDR_HI (n / 2 ^ 32)

/-- The pair under the patrol is done, and the patrol stands at `next`, or begins a new pass. -/
def patrolGo (c : Chip) (next : Nat) (wraps : Bool) : Chip :=
  if wraps then (c.patrolRead.setPatrol 0).patrolPass else c.patrolRead.setPatrol next

/-- One pair of the patrol: read, or counted to a channel in self-refresh or with a rank out of service, or its range skipped while it is
UNFILLED (R446, R449). -/
def patrolPair (c : Chip) : Chip := c.patrolGo c.patrolNext (decide (c.patrolNext ≥ 128 * c.pairsPopulated))

/-- The pairs and SRAM units that become due at a Round (R446, R450), kept as 32-bit fractions. -/
def scrubDue (c : Chip) : Chip :=
  let pairs := if c.running 0x0E1 && c.cfgOn F.PAT_PATROL_CFG_EN && !c.saveActive && c.memActive then
    c.pairsPopulated * 2 ^ 32 / (max 1 (c.cfg F.PAT_PATROL_CFG_PASS_HOURS) * hourRounds) else 0
  let units := if c.running 0x0E2 && c.cfgOn F.SRS_SRAM_CFG_EN then
    399360 * 2 ^ 32 / (max 1 (c.cfg F.SRS_SRAM_CFG_PASS_MS) * 250) else 0
  { c with ras := { c.ras with patrolAcc := c.ras.patrolAcc + pairs, scrubAcc := c.ras.scrubAcc + units } }

/-- The scrub job reads the pairs and units due (R446, R450); a pass past 110 % of PASS_HOURS is late. Pairs stay due while reads of the SCRUB client
wait for tokens (R432). -/
def scrubJob (c : Chip) : Chip :=
  let pairs := if c.clientWaits .scrub then 0 else c.ras.patrolAcc / 2 ^ 32
  let units := c.ras.scrubAcc / 2 ^ 32
  let c := { c with ras := { c.ras with patrolAcc := c.ras.patrolAcc - pairs * 2 ^ 32, scrubAcc := c.ras.scrubAcc % 2 ^ 32 } }
  let c := Nat.repeat patrolPair pairs c
  let c := (c.put F.SRS_SRAM_POS ((c.get F.SRS_SRAM_POS + units) % 399360)).cnt K.SRS_UNITS_READ units
  if !c.ras.late && decide ((c.round - c.ras.passStart) * 100 > 110 * c.cfg F.PAT_PATROL_CFG_PASS_HOURS * hourRounds) then
    { c with ras := { c.ras with late := true } }.raise F.PAT_EV_PATROL_LATE
  else c

/-! ## The Spare Ledger (R465, R466) -/

/-- The draws of a kind over the history that the Ledger holds, up to 90 days. -/
def drawsOf (c : Chip) (kind : Nat) : Nat := (c.cbl.history.map fun t => t.get (fun _ => 0) kind).sum

/-- The days until `left` units are gone at the mean rate of the history; none where nothing was drawn. -/
def daysLeft (c : Chip) (left kind : Nat) : Option Nat :=
  let n := c.drawsOf kind
  if n = 0 then none else some (left * c.cbl.history.length / n)

/-- The erase counts of the rows in the Insole, or outside it: their sum and number. -/
def eraseSum (c : Chip) (insole : Bool) : Nat × Nat :=
  let n := c.insoleRows
  (((c.mde.erases.filter fun x => decide (x.1 < n) == insole).map (·.2)).sum, if insole then n else c.rowsTotal - n)

/-- The days until the mean erase count reaches its rating (R466). -/
def wearDays (c : Chip) (insole : Bool) : Option Nat :=
  let s := c.eraseSum insole
  let rated := if insole then c.mde.scan.peSlc else c.mde.scan.peTlc
  c.daysLeft (rated * s.2 - s.1) (if insole then 201 else 200)

/-- The spare blocks that a position has left, over its columns. -/
def positionSpares (c : Chip) (u : Nat) : Nat := ((List.range 32).map fun k => c.sparesLeft u k).sum

/-- The projections of R466, each with the row of R460 it belongs to. -/
def projections (c : Chip) : List (Nat × Option Nat) :=
  let devs := ((List.range 16).map fun d => ((List.range (c.rankCount d)).filter fun r => !c.is (F.DCH_DEV_ERASE_VALID d r)).length).sum
  ((List.range c.mde.scan.positions).map fun u => (0, c.daysLeft (c.positionSpares u) (100 + u))) ++
  [(0, c.wearDays false), (3, c.wearDays true), (4, c.daysLeft devs 4), (6, c.daysLeft c.poolFrames 6),
   (8, c.daysLeft (c.get F.CBO_MDC_WAYS_LEFT) 8), (9, c.daysLeft (c.get F.CBO_DIR_BANKS_LEFT) 9),
   (10, c.daysLeft (min (c.get F.CBO_CXK_TX_LANES_LEFT) (c.get F.CBO_CXK_RX_LANES_LEFT)) 10),
   (12, c.daysLeft (c.get F.CBO_CORES_LEFT) 12), (13, c.daysLeft (c.get F.CBO_EFLASH_SECTORS_LEFT) 13)]

/-- EOL_DAYS and EOL_KIND (R466): the least projection, and the kind that sets it. -/
def eol (c : Chip) : Nat × Nat :=
  c.projections.foldl (fun a x =>
    match x.2 with
    | none => a
    | some n => if n < a.1 then (n, x.1) else a) (2 ^ 32 - 1, 0)

/-- The Ledger's figures as its pages show them; SPARES_LOW while EOL_DAYS is below WARN_DAYS. -/
def showEol (c : Chip) : Chip :=
  let e := c.eol
  let wear (o : Option Nat) : Nat := min (2 ^ 32 - 1) (o.getD (2 ^ 32 - 1))
  let c := (c.put F.CBL_EOL_DAYS e.1).put F.CBL_EOL_KIND e.2
  let c := (c.put F.CBN_WEAR_DAYS (wear (c.wearDays false))).put F.CBN_INSOLE_DAYS (wear (c.wearDays true))
  if e.1 < c.cfg F.CBL_CBL_CFG_WARN_DAYS then c.raise F.CBL_EV_SPARES_LOW else c

/-- A Round of service of the Ledger: a day's count closes after 21,600,000,000 of them (R466). -/
def ledgerRound (c : Chip) : Chip :=
  let c := { c with cbl := { c.cbl with serviceRounds := c.cbl.serviceRounds + 1, dayRounds := c.cbl.dayRounds + 1 } }
  if c.cbl.dayRounds < 21600000000 then c
  else
    { c with cbl := { c.cbl with
      dayRounds := 0
      history := (c.cbl.today :: c.cbl.history).take 90
      today := [] } }.showEol

end Chip

open Chip

/-! ## The command -/

/-- PPR_DONE (R436, R461, R465): the rank returns to service; a repaired row stands in the Ledger. -/
def execPprDone (w : Twin) (d : Fin 16) (s : State) : Host.Outcome State Fault Refusal :=
  .next (s.onUp w fun c =>
    match c.get (F.DRF_PPR_STATUS_STATE d.val), (c.chan d.val).pprFrom with
    | 3, some (r, bg, ba, row) =>
      let x := c.chan d.val
      let key := (DramPlace.mk d.val r bg ba row 0).rowKey
      let c := (c.mapChan d.val fun x => { x with out := none, pprFrom := none }).readBacklog d.val
      let c := (c.put (F.DRF_PPR_STATUS_STATE d.val) 0).raise (F.DRF_EV_PPR_DONE d.val)
      let p := DramPlace.mk d.val r bg ba row 0
      let err := c.get (F.DRF_PPR_STATUS_ERR d.val)
      if err ≠ 0 then c.pprOutcome p x.pprHard x.pprAuto err
      else
        let c := if x.pprHard then
            { c with cbl := { c.cbl with
              hpprRows := (d.val, key) :: c.cbl.hpprRows
              spprRows := c.cbl.spprRows.filter (· != (d.val, key)) } }.cnt (K.DRF_PPR_HARD d.val)
          else { c with cbl := { c.cbl with spprRows := (d.val, key) :: c.cbl.spprRows } }.cnt (K.DRF_PPR_SOFT d.val)
        let c := (c.put F.CBD_SPPR_ROWS c.cbl.spprRows.length).put F.CBD_HPPR_ROWS c.cbl.hpprRows.length
        let c := (c.mapChan d.val fun y => { y with
          pprUsed := y.pprUsed.set (fun _ => 0) (r * 8 + bg) (y.pprUsed.get (fun _ => 0) (r * 8 + bg) + 1) }).showPprLeft
        let c := if x.pprAuto then c.drew 5 (p.location 31) false else c
        c.pprOutcome p x.pprHard x.pprAuto 0
    | _, _ => c)

end Sys2Proof.Machine
end

