-- ==== Sys2Proof/Machine/Alias.lean ====
section
/-! DEFINITION. Writes through the pair alias on their way to both chips (R59, R60). -/
namespace Sys2Proof.Machine

namespace Chip

/-- A chip accepts a write through the pair alias: it waits for Round r + 2 on both chips (R59). -/
def acceptAlias (c : Chip) (rq : Requester) (x : PageWrite) : Chip :=
  (PageWrite.words x).foldl (fun c x =>
    let a : AliasWrite := ⟨c.twin, c.round, rq, x⟩
    { c with twe := { c.twe with aliasQ := c.twe.aliasQ ++ [a] } }.post (.aliasWrite a)) c

/-- The word that the last alias write which waits has written to a register, where one waits (R60). -/
def aliasWord (c : Chip) (page off : Nat) : Option Word :=
  ((c.twe.aliasQ.filter fun a => a.x.page == page && a.x.off == off).getLast?).map fun a => a.x.data.setWidth 32

end Chip

end Sys2Proof.Machine
end

