-- ==== Sys2Proof/Machine/PostBox.lean ====
section
/-! DEFINITION. Post Box: rings, doorbells, commands and completions (R142 to R153), with the placement commands of R277 to R279, the
Route commands of R314 to R317 and the retirement commands of R457 to R459. -/
namespace Sys2Proof.Machine

/-! ## Operands (R147, R277, R315, R457) -/

/-- The little-endian field of a command entry at a byte offset from 8. -/
def RingCmd.field (x : RingCmd) (off n : Nat) : Nat := entryWord ((x.operands.drop (off - 8)).take n)

/-- Whether every operand byte outside the ranges (offset, length) is 0. -/
def RingCmd.usesOnly (x : RingCmd) (rs : List (Nat × Nat)) : Bool :=
  (List.range 56).all fun i => x.operands.getD i 0 == 0 || rs.any fun r => decide (r.1 ≤ i + 8) && decide (i + 8 < r.1 + r.2)

/-- The opcodes that R148, R278, R316 and R458 assign. -/
def ringOpcodes : List Nat :=
  [0x0, 0x1, 0x100, 0x101, 0x102, 0x103, 0x104, 0x105, 0x106, 0x107, 0x200, 0x201, 0x202, 0x203, 0x204, 0x205,
   0x300, 0x301, 0x302, 0x303]

/-- The opcodes that their chapters mark repeatable (R153, R278, R316, R458). -/
def ringRepeats : List Nat := [0x102, 0x103, 0x104, 0x105, 0x106, 0x107, 0x201, 0x202, 0x203, 0x205, 0x300, 0x301, 0x302, 0x303]

namespace Chip

/-- Whether the bifurcation in force creates a head (R64). -/
def headExists (c : Chip) (h : Fin 24) : Bool :=
  let b := c.cfg (F.HP_PORT_CFG_BIFURC (portOf h).val)
  linkPos h == 0 || (linkPos h == 2 && decide (b ≥ 1)) || b == 2

/-! ## Rings (R143, R145, R149 to R152) -/

/-- The DPA of a ring's command entries and of its completion entries. -/
def cmdBase (c : Chip) (q : Nat) : Nat := c.cfg (F.PBX_RING_CMD_BASE_LO q) * 4096 + c.cfg (F.PBX_RING_CMD_BASE_HI q) * 2 ^ 32

/-- The DPA of a ring's completion entries. -/
def cmpBase (c : Chip) (q : Nat) : Nat := c.cfg (F.PBX_RING_CMP_BASE_LO q) * 4096 + c.cfg (F.PBX_RING_CMP_BASE_HI q) * 2 ^ 32

/-- The entries of a command ring. -/
def cmdEntries (c : Chip) (q : Nat) : Nat := 2 ^ c.cfg (F.PBX_RING_CMD_LOG2 q)

/-- The entries of a completion ring. -/
def cmpEntries (c : Chip) (q : Nat) : Nat := 2 ^ c.cfg (F.PBX_RING_CMP_LOG2 q)

/-- The byte ranges of a ring's command and completion entries. -/
def ringRanges (c : Chip) (q : Nat) : List (Nat × Nat) :=
  [(c.cmdBase q, c.cmdBase q + 64 * c.cmdEntries q), (c.cmpBase q, c.cmpBase q + 16 * c.cmpEntries q)]

/-- Whether two byte ranges meet. -/
def meets (a b : Nat × Nat) : Bool := decide (a.1 < b.2) && decide (b.1 < a.2)

/-- Whether a byte range lies wholly within one domain that a head may map. -/
def withinDomain (c : Chip) (h : Fin 24) (r : Nat × Nat) : Bool :=
  match c.domainOf r.1 with
  | none => false
  | some d => c.mayMap h.val d && decide (r.2 ≤ c.domBase d + c.domSize d)

/-- The first failing reason of R143, 0 where there is none. The bases are 4 KiB aligned by their fields. -/
def ringCode (c : Chip) (q : Nat) : Nat :=
  let rs := c.ringRanges q
  let others := ((List.range 64).filter fun i => i != q && c.ringState i == 1).flatMap c.ringRanges
  let loc := rs.any fun r => match c.domainOf r.1 with | some d => c.localMode d | none => false
  let meets2 := (rs.any fun r => others.any (meets r)) || meets (rs.getD 0 (0, 0)) (rs.getD 1 (0, 0))
  let v := c.cfg (F.PBX_RING_VECTOR q)
  match c.ringOwner q with
  | none => if c.cmpEntries q < c.cmdEntries q then 2 else 3
  | some h =>
    if c.cmpEntries q < c.cmdEntries q then 2
    else if !rs.all (c.withinDomain h) then 3
    else if loc then 4
    else if meets2 then 5
    else if !c.headExists h then 6
    else if v < 8 ∨ v > 63 then 7
    else 0

/-- A ring enters ACTIVE or ERROR (R143). -/
def ringEnable (c : Chip) (q : Nat) : Chip :=
  if !(c.running 0x051 && c.cfgOn (F.PBX_RING_ENABLE q) && c.ringState q == 0) then c
  else
    let code := c.ringCode q
    let c := c.put (F.PBX_RING_STATUS_ERR q) code
    if code = 0 then c.put (F.PBX_RING_STATUS_STATE q) 1
    else ((c.put (F.PBX_RING_STATUS_STATE q) 2).cnt K.PBX_RING_ERRORS).raise F.PBX_EV_RING_ERROR

/-- A ring enters OFF: its indices and doorbells start afresh. -/
def ringOff (c : Chip) (q : Nat) : Chip :=
  let c := ((c.put (F.PBX_RING_STATUS_STATE q) 0).put (F.PBX_RING_STATUS_CMD_HEAD q) 0).put (F.PBX_RING_STATUS_CMP_TAIL q) 0
  ((c.put (F.PBX_RING_STATUS_PHASE q) 1).putCfg (F.PBX_DB_CMD_TAIL q) 0).putCfg (F.PBX_DB_CMP_HEAD q) 0

/-- A stopping ring without commands left enters OFF (R152). -/
def ringSettle (c : Chip) (q : Nat) : Chip :=
  if c.ringState q == 3 && (c.ring q).fetched.isEmpty && (c.ring q).finished.isEmpty then c.ringOff q else c

/-- ENABLE applied as 0 (R152): commands not started complete with ABORTED; the ring is OFF once its completions are written. -/
def ringDisable (c : Chip) (q : Fin 64) : Chip :=
  if c.cfgOn (F.PBX_RING_ENABLE q.val) then c
  else if c.ringState q.val = 2 then c.ringOff q.val
  else if c.ringState q.val ≠ 1 then c
  else
    let c := c.put (F.PBX_RING_STATUS_STATE q.val) 3
    let c := if c.keepsRing q.val then
        ((c.ring q.val).fetched.filter fun x => !x.started).foldl (fun c x => c.ringReport q x.idx 5 0) c
      else c
    c.ringSettle q.val

/-- A command is fetched, or one that was fetched starts, on both chips (R142, R149). -/
def ringStart (c : Chip) (q : Nat) (x : RingCmd) : Chip :=
  if (c.ring q).fetched.any fun y => y.idx == x.idx then
    c.mapRing q fun r => { r with fetched := r.fetched.map fun y => if y.idx = x.idx then { y with started := x.started } else y }
  else (c.mapRing q fun r => { r with fetched := r.fetched ++ [x] }).put (F.PBX_RING_STATUS_CMD_HEAD q) ((x.idx + 1) % c.cmdEntries q)

/-- Completion entries written and not consumed. -/
def unconsumed (c : Chip) (q : Nat) : Nat :=
  (c.get (F.PBX_RING_STATUS_CMP_TAIL q) + c.cmpEntries q - c.get (F.PBX_DB_CMP_HEAD q) % c.cmpEntries q) % c.cmpEntries q

/-- Whether the completion ring has room for one more command (R149). -/
def ringRoom (c : Chip) (q : Nat) : Bool :=
  decide ((c.ring q).fetched.length + (c.ring q).finished.length + c.unconsumed q < c.cmpEntries q - 1)

/-- Whether commands wait to be fetched. -/
def ringWaits (c : Chip) (q : Nat) : Bool :=
  c.ringState q == 1 && c.get (F.PBX_RING_STATUS_CMD_HEAD q) != c.get (F.PBX_DB_CMD_TAIL q) % c.cmdEntries q

/-- The command entry at an index, as this chip's copy of memory holds it (R147), with its reserved bytes. -/
def ringEntry (c : Chip) (q idx : Nat) : RingCmd × Bool :=
  let l := (c.fullLine (c.cmdBase q + 64 * idx)).1
  let bs := (List.range 64).map (byteOf l)
  let b (i : Nat) : Nat := (bs.getD i 0).toNat
  ({ idx, opcode := b 0 + 256 * b 1, flags := b 2, tag := b 4 + 256 * b 5, operands := bs.drop 8 },
   decide (b 2 < 4) && b 3 == 0 && b 6 == 0 && b 7 == 0)

/-- A fetched command starts (R149); one that names no opcode, or sets reserved bits, completes at once (R148, R150). -/
def ringBegin (c : Chip) (q : Fin 64) (x : RingCmd) : Chip :=
  let x := { x with started := true }
  let a := c.cmdBase q.val + 64 * x.idx
  let c := if c.inDram a then c.oweLines .core (c.place (c.dramAddr a)).ch 2 else c
  let c := (c.ringStart q.val x).postEffect (.ringStart q x) false
  if !ringOpcodes.contains x.opcode then c.ringReport q x.idx 1 0
  else if !(c.ringEntry q.val x.idx).2 then c.ringReport q x.idx 2 0
  else c

/-- The keeper starts the next command of a ring in ring order, where FENCE and completion room allow (R149). One whose FENCE holds it back is
fetched, and starts when every earlier command of the ring has completed. -/
def ringFetch (c : Chip) (q : Fin 64) : Chip :=
  let l := (c.ring q.val).fetched
  if !(c.running 0x051 && c.keepsRing q.val && c.ringState q.val == 1) then c
  else match l.find? fun x => !x.started with
    | some x => if l.any fun y => y.started then c else c.ringBegin q x
    | none =>
      if !c.ringWaits q.val then c
      else if !c.ringRoom q.val then c.raise F.PBX_EV_CMP_STALL
      else if l.length ≥ 64 then c
      else
        let e := (c.ringEntry q.val (c.get (F.PBX_RING_STATUS_CMD_HEAD q.val))).1
        if e.flags.testBit 0 && !l.isEmpty then (c.ringStart q.val e).postEffect (.ringStart q e) false
        else c.ringBegin q e

/-- The completion entry of R150 as a number. -/
def completionEntry (x : RingEnd) (phase : Nat) : Nat :=
  x.tag % 2 ^ 16 + x.status % 2 ^ 16 * 2 ^ 16 + x.idx % 2 ^ 16 * 2 ^ 32 + phase * 2 ^ 48 + x.result % 2 ^ 64 * 2 ^ 64

/-- A completion entry is written to memory, on the chip whose step it is: CMP_TAIL advances, PHASE inverts on each wrap (R150), and it
counts as a cause of the ring's vector (R151). -/
def ringWritten (c : Chip) (x : RingEnd) : Chip :=
  let q := x.q.val
  let t := c.get (F.PBX_RING_STATUS_CMP_TAIL q)
  let a := c.cmpBase q + 16 * t
  let sh := t % 4 * 16
  let c := c.wmbMerge a (BitVec.ofNat 512 (completionEntry x (c.get (F.PBX_RING_STATUS_PHASE q)) * 2 ^ (8 * sh)))
    (BitVec.ofNat 64 (65535 * 2 ^ sh)) false false
  let t' := (t + 1) % c.cmpEntries q
  let c := c.put (F.PBX_RING_STATUS_CMP_TAIL q) t'
  let c := if t' = 0 then c.put (F.PBX_RING_STATUS_PHASE q) (1 - c.get (F.PBX_RING_STATUS_PHASE q)) else c
  let c := (c.cnt (K.PBX_CMDS q)).mapRing q fun r =>
    { fetched := r.fetched.filter fun y => y.idx != x.idx, finished := r.finished.filter fun y => y.e.idx != x.idx }
  let c := match c.ringOwner q with
    | some h => if x.noIrq || decide (c.cfg (F.PBX_RING_VECTOR q) < 8) then c else c.cause h (c.cfg (F.PBX_RING_VECTOR q))
    | none => c
  c.ringSettle q

/-- The keeper writes the oldest completion that the peer's postmark covers (R151). -/
def ringComplete (c : Chip) (q : Fin 64) : Chip :=
  match (c.ring q.val).finished with
  | [] => c
  | y :: _ =>
    let covered := match y.recSeq with | none => true | some n => !c.posts || c.appliedCovers n
    if !c.keepsRing q.val || !covered then c
    else (c.ringWritten y.e).postEffect (.ringWritten y.e) false

/-- Stalls of completion rings are counted in each Round (R149). -/
def ringRound (c : Chip) : Chip :=
  (List.range 64).foldl (fun c q =>
    if c.running 0x051 && c.keepsRing q && c.ringWaits q && !c.ringRoom q then
      (c.cnt K.PBX_CMP_WAIT_ROUNDS).raise F.PBX_EV_CMP_STALL
    else c) c

/-- Whether an announced effect that is still to apply ends a command of a ring. -/
def ringAnnounced (c : Chip) (q : Fin 64) (idx : Nat) : Bool :=
  c.twe.gated.any fun g => match g.ends with | some (.ring x) => x.q == q && x.idx == idx | _ => false

/-- The new keeper of a ring takes over its commands in progress (R153): the repeatable ones are carried out again, the others complete with
RETRY and no effect; one whose announced effect is still to apply completes with it (R204). -/
def ringTakeover (c : Chip) (q : Fin 64) : Chip :=
  ((c.ring q.val).fetched.filter fun x => x.started && !c.ringAnnounced q x.idx).foldl (fun c x =>
    if ringRepeats.contains x.opcode then
      c.mapRing q.val fun r => { r with fetched := r.fetched.map fun y => if y.idx = x.idx then { y with acted := false } else y }
    else (c.ringReport q x.idx 4 0).cnt K.PBX_RETRY_AT_TAKEOVER) c

/-! ## Placement commands (R273, R275, R277 to R279) -/

/-- The lowest object number that is not used. -/
def freeObject (c : Chip) : Nat :=
  ((List.range (c.trm.objects.length + 1)).find? fun n => c.trm.objects.all fun o => o.1 != n).getD 0

/-- An object. -/
def object (c : Chip) (n : Nat) : Option Obj := (c.trm.objects.find? fun o => o.1 == n).map (·.2)

/-- Whether a range of extents overlaps an object. -/
def overlaps (c : Chip) (first count : Nat) : Bool :=
  c.trm.objects.any fun o => decide (o.2.first < first + count) && decide (first < o.2.first + o.2.count)

/-- The status of R275 for a chip as it would stand with a domain's objects changed: 0 where both limits hold. -/
def limitCode (c : Chip) (d : Nat) : Nat :=
  if c.capFrames d != 0 && decide (c.pinnedExtents d > c.capFrames d) then 0x102
  else if c.poolNeed > c.poolSize then 0x103
  else 0

/-- The chip with an object as it would stand. -/
def withObject (c : Chip) (n : Nat) (o : Obj) : Chip :=
  { c with trm := { c.trm with objects := c.trm.objects.set (fun _ => {}) n o } }

/-- BAD_RANGE and NOT_PERMITTED of a command that names extents (R150, R279), or their domain. -/
def rangeDomain (c : Chip) (h dpa count : Nat) : Except Nat Nat :=
  if dpa % 2 ^ 21 ≠ 0 ∨ count = 0 then .error 0x105
  else match c.domainOf dpa with
    | none => .error 0x105
    | some d =>
      if dpa + count * 2 ^ 21 > c.domBase d + c.domSize d then .error 0x105
      else if !c.mayMap h d then .error 3
      else .ok d

/-- OBJ_REGISTER. -/
def objRegister (c : Chip) (q : Fin 64) (h : Nat) (x : RingCmd) : Chip :=
  let dpa := x.field 8 8
  let n := x.field 16 4
  let pol := x.field 20 1
  if !x.usesOnly [(8, 8), (16, 4), (20, 1)] || decide (pol > 3) then c.ringReport q x.idx 2 0
  else match c.rangeDomain h dpa n with
    | .error st => c.ringReport q x.idx st 0
    | .ok d =>
      let first := dpa / 2 ^ 21
      let k := c.freeObject
      if c.cfgOn (F.DOM_DOMAIN_FRONT_PINNED d) && pol != 0 then c.ringReport q x.idx 0x109 0
      else if c.overlaps first n then c.ringReport q x.idx 0x101 0
      else
        let st := if pol = 0 then (c.withObject k ⟨first, n, pol⟩).limitCode d else 0
        if st ≠ 0 then c.ringReport q x.idx st 0
        else if c.trm.objects.length ≥ 2 ^ 20 then c.ringReport q x.idx 0x100 0
        else c.ringReport q x.idx 0 k (.object k first n pol) true

/-- The object a command names with the domain it lies in, or the status it ends with. -/
def objNamed (c : Chip) (h : Nat) (x : RingCmd) : Except Nat (Nat × Obj × Nat) :=
  let n := x.field 24 4
  match c.object n with
  | none => .error 0x104
  | some o =>
    let d := (c.domainOf (o.first * 2 ^ 21)).getD 0
    if c.mayMap h d then .ok (n, o, d) else .error 3

/-- OBJ_REMOVE. -/
def objRemove (c : Chip) (q : Fin 64) (h : Nat) (x : RingCmd) : Chip :=
  if !x.usesOnly [(24, 4)] then c.ringReport q x.idx 2 0
  else match c.objNamed h x with
    | .error st => c.ringReport q x.idx st 0
    | .ok (n, _, _) => c.ringReport q x.idx 0 0 (.objectGone n) true

/-- OBJ_SET_POLICY. -/
def objSetPolicy (c : Chip) (q : Fin 64) (h : Nat) (x : RingCmd) : Chip :=
  let pol := x.field 20 1
  if !x.usesOnly [(20, 1), (24, 4)] || decide (pol > 3) then c.ringReport q x.idx 2 0
  else match c.objNamed h x with
    | .error st => c.ringReport q x.idx st 0
    | .ok (n, o, d) =>
      if c.cfgOn (F.DOM_DOMAIN_FRONT_PINNED d) && pol != 0 then c.ringReport q x.idx 0x109 0
      else
        let st := if pol = 0 then (c.withObject n { o with policy := pol }).limitCode d else 0
        if st ≠ 0 then c.ringReport q x.idx st 0
        else c.ringReport q x.idx 0 o.policy (.object n o.first o.count pol) true

/-- OBJ_QUERY. -/
def objQuery (c : Chip) (q : Fin 64) (h : Nat) (x : RingCmd) : Chip :=
  if !x.usesOnly [(24, 4)] then c.ringReport q x.idx 2 0
  else match c.objNamed h x with
    | .error st => c.ringReport q x.idx st 0
    | .ok (_, o, _) =>
      let front := ((c.writtenIn o.first o.count).filter fun e => (c.ext e).state == 2).length
      c.ringReport q x.idx 0 (front + o.count * 2 ^ 32)

/-- POOL_QUERY. -/
def poolQuery (c : Chip) (q : Fin 64) (h : Nat) (x : RingCmd) : Chip :=
  let d := x.field 21 1
  if !x.usesOnly [(21, 1)] || decide (d > 63) then c.ringReport q x.idx 2 0
  else if !c.mayMap h d then c.ringReport q x.idx 3 0
  else c.ringReport q x.idx 0 (c.domUse d + c.domPinned d * 2 ^ 32)

/-! ### Range commands (R278, R279, R293): kind 0 promote, 1 evict, 2 discard -/

/-- Where a range command stands with one extent: acted on, not acted on with its status, or waiting. -/
inductive RangeFate where
  | done
  | failed (status : Nat)
  | waits
  deriving DecidableEq, Repr

/-- Whether a migration of an extent is queued, announced or under way, or its eviction pending. -/
def inMotion (c : Chip) (e : Nat) : Bool :=
  c.announced e || (c.ext e).pending || (c.trm.queue.any fun m => m.extent == e) || c.trm.slots.any fun m => m.extent == e

/-- The fate of an extent under a range command. -/
def rangeFate (c : Chip) (kind e : Nat) : RangeFate :=
  let st := (c.ext e).state
  let pol := c.policy e
  match kind with
  | 0 => if st = 2 then .done
         else if pol = 3 then .failed 0x106
         else if c.inMotion e || c.twe.gated.any (fun g => g.effect == .extentPending e true) then .waits
         else .failed 0x102
  | 1 => if st = 1 then .done
         else if pol = 0 then .failed 0x106
         else if c.inMotion e || c.twe.gated.any (fun g => g.effect == .extentPending e true) then .waits
         else .failed 0x107
  | _ => if st = 0 then .done else if c.inCommons (e * 2 ^ 21) then .failed 0x108 else .waits

/-- One pass over the extents that a range command still waits for. -/
def rangePass (c : Chip) (w : RangeWait) : RangeWait :=
  w.left.foldl (fun (a : RangeWait) e =>
    match c.rangeFate w.kind e with
    | .done => { a with ok := a.ok + 1 }
    | .failed st => { a with fail := match a.fail with
        | some (e', st') => if e' < e then some (e', st') else some (e, st)
        | none => some (e, st) }
    | .waits => { a with left := a.left ++ [e] }) { w with left := [] }

/-- The placement keeper looks at every range command that waits; one with no extent left ends (R279). -/
def rangeChecks (c : Chip) : Chip :=
  let ws := c.trm.waits.map c.rangePass
  let c := { c with trm := { c.trm with waits := ws.filter fun w => !w.left.isEmpty } }
  (ws.filter fun w => w.left.isEmpty).foldl (fun c w => c.commandEnd w.q w.idx (match w.fail with | some x => x.2 | none => 0) w.ok) c

/-- The placement keeper begins a range command on the extents of the range that are not UNWRITTEN. -/
def rangeBegin (c : Chip) (q : Fin 64) (idx kind : Nat) (es : List Nat) : Chip :=
  let es := es.filter fun e => (c.ext e).state != 0
  let c := es.foldl (fun c e =>
    match kind with
    | 0 => if c.policy e = 3 then c else c.wantMove 3 e true
    | 1 => if c.policy e = 0 then c else c.wantMove 5 e false
    | _ => if c.inCommons (e * 2 ^ 21) then c else c.announce (.extentState e 0)) c
  { c with trm := { c.trm with waits := c.trm.waits ++ [RangeWait.mk q idx kind es 0 none] } }.rangeChecks

/-- A range command: its fields are checked by the ring's keeper, and the placement keeper carries it out (R280). -/
def rangeCommand (c : Chip) (q : Fin 64) (h : Nat) (kind : Nat) (x : RingCmd) : Chip :=
  let dpa := x.field 8 8
  let n := x.field 16 4
  if !x.usesOnly [(8, 8), (16, 4)] then c.ringReport q x.idx 2 0
  else match c.rangeDomain h dpa n with
    | .error st => c.ringReport q x.idx st 0
    | .ok _ =>
      let es := c.writtenIn (dpa / 2 ^ 21) n
      if c.isKeeper then c.rangeBegin q x.idx kind es
      else c.postEffect (.rangeAsk q x.idx kind es) false

/-! ## Route commands (R314 to R317) -/

/-- The slot that a Route command names, where the command may act on it. -/
def routeNamed (c : Chip) (h : Nat) (x : RingCmd) : Except Nat (Nat × RouteSlot) :=
  let r := x.field 22 2
  let s := c.route r
  if s.state = 0 then .error 0x121 else if s.owner ≠ h then .error 0x123 else .ok (r, s)

/-- The statuses that every Route command may end with before it names a slot: RTE_OFF, then BAD_PARAM. -/
def routeBad (c : Chip) (x : RingCmd) (uses : List (Nat × Nat)) (ranges : Bool) : Option Nat :=
  if !c.rteOn then some 0x126
  else if !x.usesOnly uses || !ranges || decide (x.field 22 2 > 255) then some 0x125
  else none

/-- ROUTE_LOAD. -/
def routeLoad (c : Chip) (q : Fin 64) (h : Nat) (x : RingCmd) : Chip :=
  let dpa := x.field 8 8
  let len := x.field 16 4
  let fl := x.field 20 1
  let pr := x.field 21 1
  let r := x.field 22 2
  let lead := x.field 28 2
  let lo := x.field 30 2
  let hi := x.field 32 4
  let inRange := decide (1 ≤ len) && decide (len ≤ 65536) && decide (fl < 4) && decide (pr < 8) && decide (1 ≤ lead) &&
    decide (1 ≤ lo) && decide (lo ≤ hi) && decide (hi ≤ 2 ^ 20)
  match c.routeBad x [(8, 8), (16, 4), (20, 1), (21, 1), (22, 2), (28, 2), (30, 2), (32, 4)] inRange with
  | some st => c.ringReport q x.idx st 0
  | none =>
    if (c.route r).state ≠ 0 then c.ringReport q x.idx 0x120 0
    else if !c.listOk h dpa len then c.ringReport q x.idx 0x122 0
    else
      let y : RouteSlot := {
        owner := h
        listDpa := dpa
        length := len
        cyclic := fl.testBit 0
        drop := fl.testBit 1
        prio := pr
        lead := lead
        minExt := lo
        maxExt := hi }
      c.ringReport q x.idx 0 0 (.routeLoad r y) true

/-- ROUTE_START and ROUTE_SEEK. -/
def routeMove (c : Chip) (q : Fin 64) (h : Nat) (seek : Bool) (x : RingCmd) : Chip :=
  let j := x.field 24 4
  match c.routeBad x [(22, 2), (24, 4)] true with
  | some st => c.ringReport q x.idx st 0
  | none =>
    match c.routeNamed h x with
    | .error st => c.ringReport q x.idx st 0
    | .ok (r, s) =>
      if j ≥ s.length then c.ringReport q x.idx 0x124 0
      else c.ringReport q x.idx 0 (if seek then (if c.isKeeper then s.pos else s.shown) else 0)
        (.routeState r (if seek && s.state == 1 then 3 else 2) j (if seek then s.rate else s.startRate)) true

/-- ROUTE_STOP and ROUTE_UNLOAD. -/
def routeEnd (c : Chip) (q : Fin 64) (h : Nat) (unload : Bool) (x : RingCmd) : Chip :=
  match c.routeBad x [(22, 2)] true with
  | some st => c.ringReport q x.idx st 0
  | none =>
    match c.routeNamed h x with
    | .error st => c.ringReport q x.idx st 0
    | .ok (r, s) =>
      if unload then (if s.state = 2 then c.ringReport q x.idx 0x121 0 else c.ringReport q x.idx 0 0 (.routeState r 0 0 0) true)
      else if s.state = 1 then c.ringReport q x.idx 0 0
      else c.ringReport q x.idx 0 0 (.routeState r 1 s.pos s.rate) true

/-- ROUTE_QUERY. -/
def routeQuery (c : Chip) (q : Fin 64) (h : Nat) (x : RingCmd) : Chip :=
  match c.routeBad x [(22, 2)] true with
  | some st => c.ringReport q x.idx st 0
  | none =>
    match c.routeNamed h x with
    | .error st => c.ringReport q x.idx st 0
    | .ok (_, s) =>
      let pos := if c.isKeeper then s.pos else s.shown
      c.ringReport q x.idx 0 (pos % 65536 + s.state * 2 ^ 16 + min s.slips (2 ^ 30 - 1) * 2 ^ 18 + min s.rate 65535 * 2 ^ 48)

/-! ## Retirement commands (R457, R458) -/

/-- The operand ranges that a retirement command uses. -/
def retireUses (op : Nat) : List (Nat × Nat) :=
  match op with
  | 0x300 => [(16, 1), (20, 8)]
  | 0x303 => [(16, 1)]
  | _ => [(8, 8), (16, 1)]

/-- Whether the address of a retirement command is aligned as R457 asks. -/
def retireAligned (op address : Nat) : Bool :=
  match op with | 0x301 => address % 2 ^ 21 == 0 | 0x302 => address % 65536 == 0 | _ => true

/-- The chip named in CHIP carries a retirement command out. -/
def retireHere (c : Chip) (q : Fin 64) (idx op address location : Nat) : Chip :=
  if op = 0x303 then
    let e := c.eol
    c.commandEnd q idx 0 (e.1 + e.2 * 2 ^ 32)
  else c.retireGo { q, idx, opcode := op, address, location }

/-- A retirement command at the ring's keeper: checked, and sent to the chip that CHIP names. -/
def retireCommand (c : Chip) (q : Fin 64) (x : RingCmd) : Chip :=
  let a := x.field 8 8
  let w := x.field 16 1
  let loc := x.field 20 8
  if !x.usesOnly (retireUses x.opcode) || decide (w > 1) || !retireAligned x.opcode a then c.ringReport q x.idx 2 0
  else if w = c.rst.twinId then c.retireHere q x.idx x.opcode a loc
  else if !c.mirrored then c.ringReport q x.idx 0x132 0
  else c.postEffect (.retire q x.idx x.opcode c.twin.other a loc) false

end Chip

open Chip

namespace State

/-- The keeper of a ring carries out a command in progress of an opcode, once. -/
def ringOp (s : State) (q : Fin 64) (idx op : Nat) (f : Chip → Nat → RingCmd → Chip) : State :=
  let run (c : Chip) : Chip :=
    if !(c.up && c.keepsRing q.val) then c
    else match c.ringCmd q.val idx, c.ringOwner q.val with
      | some x, some h =>
        if x.opcode == op && x.started && !x.acted then
          f (c.mapRing q.val fun r =>
            { r with fetched := r.fetched.map fun y => if y.idx = idx then { y with acted := true } else y }) h.val x
        else c
      | _, _ => c
  s.mapBoth run

end State

/-! ## The commands -/

/-- RING_ENABLE_APPLY (R143): both chips check the ring. -/
def execRingEnableApply (q : Fin 64) (s : State) : Host.Outcome State Fault Refusal :=
  .next (s.mapBoth fun c => if c.up then c.ringEnable q.val else c)

/-- RING_DISABLE_APPLY (R152): both chips stop the ring. -/
def execRingDisableApply (q : Fin 64) (s : State) : Host.Outcome State Fault Refusal :=
  .next (s.mapBoth fun c => if c.up then c.ringDisable q else c)

/-- A doorbell (R144): accepted through the pair alias from the owning head or a machine-mode core, dropped and counted otherwise. -/
def Chip.doorbell (c : Chip) (rq : Requester) (throughAlias : Bool) (q off : Nat) (v : BitVec 16) : Chip :=
  let ok := throughAlias && (match rq with
    | .coreM _ => true
    | .host h => c.ringOwner q == some h && c.mayWrite rq 0x051
    | _ => false)
  if ok then c.acceptAlias rq ⟨0x051, off, 4, v.setWidth 64⟩
  else (c.cnt K.PBX_DOORBELL_DENIED).raise F.PBX_EV_DOORBELL_DENIED

/-- CMD_TAIL (R144). -/
def execCmdTail (w : Twin) (rq : Requester) (throughAlias : Bool) (q : Fin 64) (v : BitVec 16) (s : State) :
    Host.Outcome State Fault Refusal :=
  .next (if s.isLocal w rq then s.onUp w fun c => c.doorbell rq throughAlias q.val (0x500 + 8 * q.val) v else s)

/-- CMP_HEAD (R144). -/
def execCmpHead (w : Twin) (rq : Requester) (throughAlias : Bool) (q : Fin 64) (v : BitVec 16) (s : State) :
    Host.Outcome State Fault Refusal :=
  .next (if s.isLocal w rq then s.onUp w fun c => c.doorbell rq throughAlias q.val (0x504 + 8 * q.val) v else s)

/-- POST_BOX_COMMAND_START (R149). -/
def execPostBoxCommandStart (q : Fin 64) (s : State) : Host.Outcome State Fault Refusal :=
  .next (s.mapBoth fun c => if c.up then c.ringFetch q else c)

/-- COMPLETION_WRITE (R150, R151). -/
def execCompletionWrite (q : Fin 64) (s : State) : Host.Outcome State Fault Refusal :=
  .next (s.mapBoth fun c => if c.up then c.ringComplete q else c)

/-- NOP (R148). -/
def execRingNop (q : Fin 64) (idx : Nat) (s : State) : Host.Outcome State Fault Refusal :=
  .next (s.ringOp q idx 0 fun c _ x => c.ringReport q x.idx 0 0)

/-- ROUND (R148). -/
def execRingRound (q : Fin 64) (idx : Nat) (s : State) : Host.Outcome State Fault Refusal :=
  .next (s.ringOp q idx 1 fun c _ x => c.ringReport q x.idx 0 c.round)

/-- OBJ_REGISTER (R278). -/
def execObjRegister (q : Fin 64) (idx : Nat) (s : State) : Host.Outcome State Fault Refusal :=
  .next (s.ringOp q idx 0x100 fun c h x => c.objRegister q h x)

/-- OBJ_REMOVE (R278). -/
def execObjRemove (q : Fin 64) (idx : Nat) (s : State) : Host.Outcome State Fault Refusal :=
  .next (s.ringOp q idx 0x101 fun c h x => c.objRemove q h x)

/-- OBJ_SET_POLICY (R278). -/
def execObjSetPolicy (q : Fin 64) (idx : Nat) (s : State) : Host.Outcome State Fault Refusal :=
  .next (s.ringOp q idx 0x102 fun c h x => c.objSetPolicy q h x)

/-- OBJ_QUERY (R278). -/
def execObjQuery (q : Fin 64) (idx : Nat) (s : State) : Host.Outcome State Fault Refusal :=
  .next (s.ringOp q idx 0x103 fun c h x => c.objQuery q h x)

/-- EXTENT_PROMOTE (R278). -/
def execExtentPromote (q : Fin 64) (idx : Nat) (s : State) : Host.Outcome State Fault Refusal :=
  .next (s.ringOp q idx 0x104 fun c h x => c.rangeCommand q h 0 x)

/-- EXTENT_EVICT (R278, R293). -/
def execExtentEvict (q : Fin 64) (idx : Nat) (s : State) : Host.Outcome State Fault Refusal :=
  .next (s.ringOp q idx 0x105 fun c h x => c.rangeCommand q h 1 x)

/-- EXTENT_DISCARD (R278). -/
def execExtentDiscard (q : Fin 64) (idx : Nat) (s : State) : Host.Outcome State Fault Refusal :=
  .next (s.ringOp q idx 0x106 fun c h x => c.rangeCommand q h 2 x)

/-- POOL_QUERY (R278). -/
def execPoolQuery (q : Fin 64) (idx : Nat) (s : State) : Host.Outcome State Fault Refusal :=
  .next (s.ringOp q idx 0x107 fun c h x => c.poolQuery q h x)

/-- ROUTE_LOAD (R316). -/
def execRouteLoad (q : Fin 64) (idx : Nat) (s : State) : Host.Outcome State Fault Refusal :=
  .next (s.ringOp q idx 0x200 fun c h x => c.routeLoad q h x)

/-- ROUTE_START (R316). -/
def execRouteStart (q : Fin 64) (idx : Nat) (s : State) : Host.Outcome State Fault Refusal :=
  .next (s.ringOp q idx 0x201 fun c h x => c.routeMove q h false x)

/-- ROUTE_SEEK (R316). -/
def execRouteSeek (q : Fin 64) (idx : Nat) (s : State) : Host.Outcome State Fault Refusal :=
  .next (s.ringOp q idx 0x202 fun c h x => c.routeMove q h true x)

/-- ROUTE_STOP (R316). -/
def execRouteStop (q : Fin 64) (idx : Nat) (s : State) : Host.Outcome State Fault Refusal :=
  .next (s.ringOp q idx 0x203 fun c h x => c.routeEnd q h false x)

/-- ROUTE_UNLOAD (R316). -/
def execRouteUnload (q : Fin 64) (idx : Nat) (s : State) : Host.Outcome State Fault Refusal :=
  .next (s.ringOp q idx 0x204 fun c h x => c.routeEnd q h true x)

/-- ROUTE_QUERY (R316). -/
def execRouteQuery (q : Fin 64) (idx : Nat) (s : State) : Host.Outcome State Fault Refusal :=
  .next (s.ringOp q idx 0x205 fun c h x => c.routeQuery q h x)

/-- RETIRE_DRAM_ROW (R458). -/
def execRetireDramRow (q : Fin 64) (idx : Nat) (s : State) : Host.Outcome State Fault Refusal :=
  .next (s.ringOp q idx 0x300 fun c _ x => c.retireCommand q x)

/-- RETIRE_FRAME (R458). -/
def execRetireFrame (q : Fin 64) (idx : Nat) (s : State) : Host.Outcome State Fault Refusal :=
  .next (s.ringOp q idx 0x301 fun c _ x => c.retireCommand q x)

/-- RETIRE_PARCEL (R458). -/
def execRetireParcel (q : Fin 64) (idx : Nat) (s : State) : Host.Outcome State Fault Refusal :=
  .next (s.ringOp q idx 0x302 fun c _ x => c.retireCommand q x)

/-- LEDGER_QUERY (R458). -/
def execLedgerQuery (q : Fin 64) (idx : Nat) (s : State) : Host.Outcome State Fault Refusal :=
  .next (s.ringOp q idx 0x303 fun c _ x => c.retireCommand q x)

end Sys2Proof.Machine
end

