-- ==== Sys2Proof/Machine/Heads.lean ====
section
/-! DEFINITION. Host links and heads: training, HDM decoders, configuration writes, DOE Discovery and CDAT, MSI-X moderation, power
states, GPF, resets, and the carbon's tracking (R64 to R109, R154 to R156, R585). -/
namespace Sys2Proof.Machine

namespace Chip

/-! ## Links (R64 to R68, R106, R111) -/

/-- Whether the chip serves or follows a port. -/
def onPort (c : Chip) (p : Fin 6) : Bool := c.up && (c.isHome p || c.isCarbon p)


/-- The width code of a head's lane group: 4 for x16, 3 for x8, 2 for x4. -/
def groupWidth (c : Chip) (h : Fin 24) : Nat :=
  match c.cfg (F.HP_PORT_CFG_BIFURC (portOf h).val) with | 0 => 4 | 1 => 3 | _ => 2

/-- LINK.FLIT of a training at a rate (R66): 2 latency-optimized, 1 256B, 0 68B; none where the ends share no form. -/
def flitMode (c : Chip) (p rate : Nat) (t : LinkTraining) : Option Nat :=
  let lopt := t.offersLopt && c.cfg (F.HP_PORT_CFG_LOPT_EN p) == 1
  if rate = 5 || t.offers256 then some (if lopt then 2 else 1)
  else if c.cfg (F.HP_PORT_CFG_FLIT68_EN p) == 1 then some 0
  else none

/-- Bits of a 16-bit field replaced under a mask. -/
def underMask (old new mask : Nat) : Nat := (old &&& (0xFFFF ^^^ mask)) ||| (new &&& mask)

/-- The LTSSM of a head's link moves (R98, R106, R111): LINK_CHANGE where it enters or leaves L0; the carbon's shadow follows. -/
def setLtssm (c : Chip) (h : Fin 24) (st : Nat) : Chip :=
  let p := (portOf h).val
  let old := c.ltssm h
  let c := c.put (F.HLNK_LINK_LTSSM h.val) st
  let c := if c.isCarbon (portOf h) then c.put (F.CARB_CARBON_SHADOW_LTSSM p (linkPos h)) st else c
  if (old = 3) != (st = 3) then c.raise (F.HP_EV_LINK_CHANGE p) else c

/-- The lanes of a 16-bit mask. -/
def laneCount (m : Nat) : Nat := ((List.range 16).filter fun l => m.testBit l).length

/-- The lanes of a link that its training may use: those of its group that are not left out (R64, R67). -/
def lanesFor (c : Chip) (h : Fin 24) : Nat := c.laneGroup h &&& (0xFFFF ^^^ c.cfg (F.HP_SPARE_MAP_LANE_OFF (portOf h).val))

/-- The lanes of a link are free (R106). -/
def freeLanes (c : Chip) (h : Fin 24) : Chip :=
  let p := (portOf h).val
  c.put (F.HP_LANE_ACTIVE p) (underMask (c.get (F.HP_LANE_ACTIVE p)) 0 (c.laneGroup h))

/-- A link goes to Detect, from whatever state it is in (R65, R67, R96, R196). -/
def toDetect (c : Chip) (h : Fin 24) : Chip := if c.ltssm h = 0 then c else (c.setLtssm h 0).freeLanes h

/-- A link that leaves Detect counts its flits anew on both sides, with empty histories and all its credits (R112, R173). -/
def freshStream (c : Chip) (h : Fin 24) : Chip :=
  c.mapHead h fun x => { x with
    txCount := 0
    rxCount := 0
    hostAck := 0
    tapUp := 0
    tapDown := 0
    rxHist := []
    txHist := []
    reqUsed := 0
    rwdUsed := 0
    reqOwed := 0
    rwdOwed := 0
    seenPos := none
    track := { x.track with missed := [], missedDown := [], behind := [], behindDown := [], kept := [], decodedUp := 0, decodedDown := 0 } }

/-- A head whose link may train on this chip: created by the bifurcation, visible, not held in reset, no retry due (R65, R67, R110,
R585), with its pages running. -/
def mayTrain (c : Chip) (h : Fin 24) : Bool :=
  let p := (portOf h).val
  c.headExists h && c.running (0x200 + 4 * p) && c.cfg (F.HCFG_HEAD_CFG_VISIBLE h.val) == 1 &&
    !(c.head h).inReset && !(c.head h).retryWait && c.ltssm h != 3 && c.lanesFor h != 0

/-- A link's lanes as its training found them (R106, R108). -/
def trainLanes (c : Chip) (h : Fin 24) (t : LinkTraining) : Chip :=
  let p := (portOf h).val
  let c := c.put (F.HP_LANE_FAULT p) (underMask (c.get (F.HP_LANE_FAULT p)) t.failed.toNat (c.laneGroup h))
  (List.range 16).foldl (fun c l =>
    if (c.lanesFor h).testBit l then
      (c.put (F.LANE_HOST_LANE_DETECTED p l) (bit (t.detected.getLsbD l))).put (F.LANE_HOST_LANE_LOCK p l) (bit (t.lanes.getLsbD l))
    else c) c

/-- A link enters L0 at a rate, width and flit form (R66, R97, R101, R106, R154): LINK_UPS counts an entry that is no return from Recovery or
L1. -/
def enterL0 (c : Chip) (h : Fin 24) (t : LinkTraining) (rate width flit : Nat) : Chip :=
  let p := (portOf h).val
  let from' := c.ltssm h
  let c := if from' = 4 ∨ from' = 5 then c else (c.freshStream h).cnt (K.HP_LINK_UPS p)
  let c := (((c.put (F.HLNK_LINK_RATE h.val) rate).put (F.HLNK_LINK_WIDTH h.val) width).put (F.HLNK_LINK_FLIT h.val) flit).put
    (F.HLNK_LINK_REVERSED h.val) (bit (t.reversed && c.cfg (F.HP_PORT_CFG_LANE_REV_EN p) == 1))
  let c := c.put (F.HP_LANE_ACTIVE p) (underMask (c.get (F.HP_LANE_ACTIVE p)) (t.lanes.toNat &&& c.lanesFor h) (c.laneGroup h))
  let c := c.mapHead h fun x => { x with rate, coefs := (t.pre.val, t.main.val, t.post.val) }
  let c := (c.setLtssm h 3).put (F.HLNK_LINK_MEM_ACTIVE h.val) (bit c.memActive)
  let c := if c.isCarbon (portOf h) then
      let c := c.loadCoefs h
      if c.trackState h == 0 && c.carbonRuns (portOf h) then c.acquire h else c
    else c
  if from' = 5 then c.linkAwake h else c

/-- One chip's view of a link that trains (R66, R67, R97, R101, R106): at most at MAX_RATE and as wide as the lanes it may use; below the
configured minimum it goes back to Detect. -/
def trainLink (c : Chip) (h : Fin 24) (t : LinkTraining) : Chip :=
  let p := (portOf h).val
  let rate := min t.rate.val (c.cfg (F.HP_PORT_CFG_MAX_RATE p))
  let width := min t.width.val (min (c.groupWidth h) (Nat.log2 (laneCount (c.lanesFor h))))
  let x := c.trainLanes h t
  match c.flitMode p rate t with
  | none => x.toDetect h
  | some flit =>
    if width < c.cfg (F.HP_DEGRADE_CFG_MIN_WIDTH p) || rate < c.cfg (F.HP_DEGRADE_CFG_MIN_RATE p) then
      let x := (x.toDetect h).mapHead h fun x => { x with retryWait := true }
      (x.cnt (K.HP_DEGRADES p)).raise (F.HP_EV_DEGRADED p)
    else (x.enterL0 h t rate width flit).cdatFollow c

/-- A link enters Recovery (R106, R111). -/
def enterRecovery (c : Chip) (h : Fin 24) : Chip :=
  ((c.setLtssm h 4).cnt (K.HP_RECOVERIES (portOf h).val)).cnt (K.HLNK_RECOVERIES h.val)

/-- One chip's view of a link that leaves L0 (R98, R101, R106). A link that goes through Recovery, L1 or Hot Reset keeps its carbon in
TRACKING. -/
def leaveL0 (c : Chip) (h : Fin 24) (dest ns : Nat) : Chip :=
  if c.ltssm h ≠ 3 || dest = 3 then c
  else if dest = 4 then ((c.enterRecovery h).put (F.HLNK_LAST_RECOVERY_NS h.val) ns).peak (K.HLNK_RECOVERY_NS_MAX h.val) ns
  else if dest = 5 then c.setLtssm h 5
  else (c.setLtssm h dest).freeLanes h

/-! ## HDM decoders (R73 to R76) -/

/-- The lowest-numbered reason of R75 for which a commit fails, 0 where there is none. -/
def decoderReason (c : Chip) (h : Fin 24) (n : Nat) : Nat :=
  let d := (c.decoder h n).cfg
  let base := c.decoderBase h n
  let len := d.hpaSize / max 1 d.ways
  let dom := (c.domainOf base).filter fun i => decide (base + len ≤ c.domBase i + c.domSize i)
  let below := (List.range n).any fun i => (c.decoder h i).committed && decide (base < c.decoderEnd h i)
  let bad6 := !([1, 2, 4, 8, 16].contains d.ways && [256, 512, 1024, 2048, 4096, 8192, 16384].contains d.gran)
  let bad7 := d.hpaBase % 2 ^ 28 != 0 || d.hpaSize % 2 ^ 28 != 0
  let rest := if below then 5 else if bad6 then 6 else if bad7 then 7 else 0
  match dom with
  | none => 1
  | some i =>
    if !c.mayMap h.val i then 2
    else if d.bi != c.commons i then 3
    else if c.commons i && c.get (F.HLNK_LINK_FLIT h.val) == 0 then 4
    else rest

/-- The chip with a decoder of a head replaced. -/
def setDecoder (c : Chip) (h : Fin 24) (n : Nat) (d : Decoder) : Chip :=
  c.mapHead h fun x => { x with decoders := x.decoders.set (fun _ => {}) n d }

/-- DECODERS follows (R110). -/
def showDecoders (c : Chip) (h : Fin 24) : Chip :=
  let m (p : Decoder → Bool) : Nat := (List.range 16).foldl (fun a n => if p (c.decoder h n) then a + 2 ^ n else a) 0
  (c.put (F.HCFG_DECODERS_COMMITTED h.val) (m fun d => d.committed)).put (F.HCFG_DECODERS_ERROR h.val) (m fun d => d.failed)

/-- A decoder is checked, and committed or failed (R75). -/
def checkDecoder (c : Chip) (h : Fin 24) (n : Nat) : Chip :=
  let r := c.decoderReason h n
  let d := c.decoder h n
  if r = 0 then (c.setDecoder h n { d with committed := true, failed := false, waiting := false }).showDecoders h
  else
    let c := (c.setDecoder h n { d with committed := false, failed := true, waiting := false }).showDecoders h
    ((c.put (F.HCFG_LAST_DEC_ERR_DECODER h.val) n).put (F.HCFG_LAST_DEC_ERR_REASON h.val) r).raise (F.HCFG_EV_DECODER_ERROR h.val)

/-- A commit (R75, R76): at once where the memory is active; a locked committed decoder stays. -/
def commitDecoder (c : Chip) (h : Fin 24) (n : Nat) : Chip :=
  let d := c.decoder h n
  if d.committed then c
  else if c.memActive then c.checkDecoder h n
  else (c.setDecoder h n { d with failed := false, waiting := true }).showDecoders h

/-- Every commit that waits is judged when the memory becomes active (R76). -/
def waitingCommits (c : Chip) : Chip :=
  allHeads.foldl (fun c h => (List.range 16).foldl (fun c n => if (c.decoder h n).waiting then c.checkDecoder h n else c) c) c

/-! ## MSI-X and power states (R92, R93, R154 to R156) -/

/-- A head returns to D0: messages held for it go out, or set their pending bits (R155). -/
def enterD0 (c : Chip) (h : Fin 24) : Chip :=
  ((c.put (F.HLNK_LINK_D_STATE h.val) 0).mapHead h fun x => { x with pmeStatus := false }).releaseMsix h

/-- A write of a vector's table entry; unmasking a vector whose message is pending sends it. -/
def writeVec (c : Chip) (h : Fin 24) (v : Nat) (addr : BitVec 64) (data : BitVec 32) (masked : Bool) : Chip :=
  let c := c.mapVec h v fun x => { x with addr, data, masked }
  if !masked && (c.vec h v).pend then
    let c := c.mapVec h v fun x => { x with pend := false }
    if c.isHome (portOf h) then c.sendMsix h v else c
  else c

/-- A moderator fires at the home (R93). -/
def fireModerator (c : Chip) (h : Fin 24) (v : Nat) (timer : Bool) : Chip :=
  let n := (c.vec h v).causes
  let due := if timer then decide (n ≥ 1) && c.cfg (F.HCFG_MSIX_MOD_TIME_US h.val v) != 0
    else decide (n ≥ c.cfg (F.HCFG_MSIX_MOD_COUNT h.val v)) && decide (n ≥ 1)
  if due then c.sendMsix h v else c

/-! ## Configuration writes (R79, R80) -/

/-- A CXL.io write on one chip: an HDM decoder that is locked and committed stays, another is replaced and no longer committed. -/
def ioWrite (c : Chip) (h : Fin 24) (x : IoWrite) : Chip :=
  let c := c.cnt (K.HLNK_IO_REQUESTS h.val)
  match x with
  | .decoder n d =>
    let old := c.decoder h n.val
    if old.committed && old.cfg.lock then c else (c.setDecoder h n.val { cfg := d }).showDecoders h
  | .msix v a d m => c.writeVec h v.val a d m
  | .mailboxPayload off b => if off < 16384 then c.mapHead h fun y => { y with payload := y.payload.set (fun _ => 0) off b } else c
  | .powerState d3 => if d3 then c.put (F.HLNK_LINK_D_STATE h.val) 3 else c.enterD0 h
  | .other off d => c.mapHead h fun y => { y with cfgSpace := y.cfgSpace.set (fun _ => 0) off d }
  | .bar _ _ _ | .barRead _ _ | .configRead _ | .configWord _ => c

/-! ## DOE Discovery and CDAT (R81 to R84) -/

/-- A reply of a head's mailbox. -/
def setReply (c : Chip) (h : Fin 24) (r : MailReply) : Chip := c.mapHead h fun x => { x with reply := r }

/-- The data object that a head's DOE instance answers with (R81). -/
def setDoe (c : Chip) (h : Fin 24) (r : MailReply) : Chip := c.mapHead h fun x => { x with doeReply := r, doeWait := false, doeError := false }

/-- A DOE instance that cannot go on with a data object drops it and shows DOE Error (R562). -/
def doeFails (c : Chip) (h : Fin 24) : Chip := c.mapHead h fun x => { x with doeReply := {}, doeWait := false, doeError := true }

/-- The data objects of R81 as Discovery lists them: vendor ID, object type, next index. -/
def doeObject (i : Nat) : List Nat :=
  match i with
  | 0 => [0x0001, 0, 1]
  | 1 => [0x0001, 1, 2]
  | 2 => [0x0001, 2, 3]
  | 3 => [0x1E98, 2, 0]
  | _ => [0xFFFF, 0, 0]

/-- The CDAT of a head: its header with the sequence number and the number of entries, then the entries of each domain it may map. -/
def cdat (c : Chip) (h : Fin 24) : List (List Nat) := [(c.head h).cdatSeq, (c.cdatTable h).length] :: c.cdatTable h

/-! ## Resets of a head (R96, R585) -/

/-- The mailbox opcodes whose command is a background operation (R86). -/
def backgroundOp (op : Nat) : Bool := op == 0x4304 || op == 0x4400

/-- The mailbox of a head that is reset (R96): a command in progress completes with Retry Required, but for a background operation's. -/
def resetMailbox (c : Chip) (h : Fin 24) : Chip :=
  match (c.head h).mailBusy with
  | none => c.setReply h {}
  | some op =>
    if backgroundOp op then c
    else ((c.setReply h { code := 5 }).mapHead h fun x => { x with mailBusy := none, mailRetry := true }).cnt (K.HCFG_MAILBOX_RETRY h.val)

/-- A head that exists is reset on one chip (R96): its configuration, its MSI-X and DOE state, its decoders that are not locked, its mailbox, its
requests and its directory presence; the credits of discarded requests go back. `link` where its link goes to Detect. -/
def resetHead (c : Chip) (h : Fin 24) (link : Bool) : Chip :=
  if !c.headExists h then c
  else
    let c := (c.cnt (K.HCFG_HOT_RESETS h.val)).raise (F.HCFG_EV_HOT_RESET h.val)
    let keep (d : Decoder) : Decoder := if d.committed && d.cfg.lock then d else { d with committed := false, failed := false, waiting := false }
    let c := (c.resetMailbox h).mapHead h fun x => { x with
      decoders := x.decoders.map fun d => (d.1, keep d.2)
      vecs := []
      policy := []
      cfgSpace := []
      payload := []
      mailCmd := 0
      mailAgain := none
      reqOwed := x.reqOwed + x.reqQ.length
      rwdOwed := x.rwdOwed + x.rwdQ.length
      reqQ := []
      rwdQ := []
      reqNoted := []
      rwdNoted := []
      noRoom := []
      sessions := []
      handshakes := []
      spdm := 0
      doeReply := {}
      doeWait := false
      doeError := false
      gpf2 := none
      pmeStatus := false }
    let c := ((c.put (F.HLNK_LINK_D_STATE h.val) 0).put (F.SES_HEAD_SESSIONS h.val) 0).showDecoders h
    let c := { c with tags := c.tags.filter fun t => t.req.head != h }
    let c := c.loseHead h none none
    if link then c.toDetect h else c

/-! ## The carbon's tracking (R101 to R103) -/

/-- The continuation slot of a head in the peer's last state frame (R180). -/
def contSlot (c : Chip) (h : Fin 24) : Option ContSlot := c.twe.peerSlots.find? fun x => x.head == h

/-- Whether the home's state frame of a Round after the link entered ACQUIRING has come (R102, step 4). -/
def frameSince (c : Chip) (h : Fin 24) : Bool :=
  match c.twe.peerFrame with
  | none => false
  | some f => decide (f.round > (c.head h).track.enteredRound)

/-- A link enters TRACKING (R101, R102): locked, with the sequence numbers of the home's state frame of a Round boundary since. -/
def enterTracking (c : Chip) (h : Fin 24) (ns : Nat) : Chip :=
  let p := (portOf h).val
  let k := linkPos h
  match c.contSlot h with
  | none => c
  | some x =>
    if !c.frameSince h then c
    else
      let c := (c.setTrack h 2).setLocks h true
      let c := c.put (F.CARB_CARBON_SHADOW_LTSSM p k) (c.ltssm h)
      let c := (c.mapHead h fun y => { y with
        track := { y.track with missed := [], missedDown := [], behind := [], behindDown := [], kept := [], fetched := true
                                decodedUp := x.hostToDev, decodedDown := x.devToHost }
        lastWmSent := none
        lastDrainWm := none }).showFetches h
      let c := ((c.cnt (K.CARB_ACQUIRES p k)).peak (K.CARB_ACQ_NS_MAX p k) ns).raise (F.CARB_EV_TRACK_ACQUIRED p)
      (c.post (.tapWm h .hostToDevice x.hostToDev)).post (.tapWm h .deviceToHost x.devToHost)

/-- The receivers of links that are being acquired have locked by the Round after (R102, steps 1 to 3). -/
def lockAcquiring (c : Chip) : Chip :=
  allHeads.foldl (fun c h =>
    if c.isCarbon (portOf h) && c.trackState h == 1 && c.inL0 h && decide (c.round > (c.head h).track.enteredRound) then c.setLocks h true
    else c) c

end Chip

open Chip

namespace State

/-- Applies `f` on every chip that serves or follows the port of a head. -/
def onPort (s : State) (p : Fin 6) (f : Chip → Chip) : State := s.mapBoth fun c => if c.onPort p then f c else c

/-- Whether the home of a head has its link in L0, so that the host reaches the head. -/
def linkIn (s : State) (h : Fin 24) : Bool :=
  match s.homeOf (portOf h) with
  | some w => (s.chip w).inL0 h && !((s.chip w).head h).inReset
  | none => false

/-- Applies `f` to the home of a head whose host reaches it. -/
def onReached (s : State) (h : Fin 24) (f : Chip → Chip) : State := if s.linkIn h then s.onHome h f else s

/-- Resets heads on both chips (R96). -/
def resetHeads (s : State) (hs : List (Fin 24)) (link : Bool) : State :=
  hs.foldl (fun s h => s.mapBoth fun c => if c.up then c.resetHead h link else c) s

end State

/-! ## The commands -/

/-- LINK_TRAINED (R66, R67, R101): the home transmits on the port, and both twins see the training. -/
def execLinkTrained (h : Fin 24) (t : LinkTraining) (s : State) : Host.Outcome State Fault Refusal :=
  .next (match s.homeOf (portOf h) with
    | none => s
    | some w =>
      if (s.chip w).transmits (portOf h) && (s.chip w).mayTrain h then s.onPort (portOf h) fun c => c.trainLink h t else s)

/-- LINK_DEGRADE_RETRY (R67): the link may train again. -/
def execLinkDegradeRetry (h : Fin 24) (s : State) : Host.Outcome State Fault Refusal :=
  .next (s.mapBoth fun c => if c.up then c.mapHead h fun x => { x with retryWait := false } else c)

/-- LINK_LEFT_L0 (R68, R98, R106): both twins see the link leave L0, to L1 where the home permits it. -/
def execLinkLeftL0 (h : Fin 24) (dest : Fin 9) (ns : Nat) (s : State) : Host.Outcome State Fault Refusal :=
  .next (match s.homeOf (portOf h) with
    | none => s
    | some w =>
      if dest.val = 5 && !(s.chip w).cfgOn (F.HP_PORT_CFG_L1_EN (portOf h).val) then s
      else s.onPort (portOf h) fun c => c.leaveL0 h dest.val ns)

/-- DECODER_COMMIT (R75, R76, R80): both twins check the decoder. -/
def execDecoderCommit (h : Fin 24) (n : Fin 16) (s : State) : Host.Outcome State Fault Refusal :=
  .next (if s.linkIn h then s.onPort (portOf h) fun c => c.commitDecoder h n.val else s)


/-- DOE_DISCOVERY (R81): the home answers. -/
def execDoeDiscovery (h : Fin 24) (index : Nat) (s : State) : Host.Outcome State Fault Refusal :=
  .next (s.onReached h fun c => c.setDoe h { words := doeObject index })

/-- CDAT_TABLE_ACCESS (R82 to R84): the home answers with an entry of the head's table, and the next entry's number. -/
def execCdatTableAccess (h : Fin 24) (entry : Nat) (s : State) : Host.Outcome State Fault Refusal :=
  .next (s.onReached h fun c =>
    let t := c.cdat h
    match t[entry]? with
    | some e => c.setDoe h { words := (if entry + 1 < t.length then entry + 1 else 0xFFFF) :: e }
    | none => c.setDoe h { code := 2 })

/-- MSIX_MODERATOR_FIRE (R93). -/
def execMsixModeratorFire (h : Fin 24) (v : Fin 64) (timer : Bool) (s : State) : Host.Outcome State Fault Refusal :=
  .next (s.onHome h fun c => c.fireModerator h v.val timer)

/-- D0_ENTRY (R155): both twins carry out the configuration write; the home sends what it held. -/
def execD0Entry (h : Fin 24) (s : State) : Host.Outcome State Fault Refusal :=
  .next (if s.linkIn h then s.onPort (portOf h) fun c => c.enterD0 h else s)

/-- GPF_PHASE1 (R95): answered at once. -/
def execGpfPhase1 (h : Fin 24) (s : State) : Host.Outcome State Fault Refusal :=
  .next (s.onReached h fun c => c.toHost h (.gpfDone 1))

/-- The last write of every head that its home has accepted. -/
def State.acceptedWrites (s : State) : List (Fin 24 × Nat) :=
  allHeads.filterMap fun h =>
    match s.homeOf (portOf h) with
    | some w => ((s.chip w).head h).admitted.map fun p => (h, p)
    | none => none

/-- Whether the writes of a list are held by both WMBs, or by the home's alone where the pair is not mirrored (R95, R135). -/
def State.heldByBoth (s : State) (l : List (Fin 24 × Nat)) : Bool :=
  l.all fun x =>
    match s.homeOf (portOf x.1) with
    | some w => !(s.chip w).mirrored || covers ((s.chip w.other).head x.1).lastStored x.2
    | none => true

/-- GPF_PHASE2 (R95): the request waits for every write accepted before it. -/
def execGpfPhase2 (h : Fin 24) (s : State) : Host.Outcome State Fault Refusal :=
  .next (s.onReached h fun c => c.mapHead h fun x => { x with gpf2 := some s.acceptedWrites })

/-- GPF_PHASE2_DONE (R95, R110): once those writes are held, the response is sent. -/
def execGpfPhase2Done (h : Fin 24) (s : State) : Host.Outcome State Fault Refusal :=
  .next (s.onReached h fun c =>
    match (c.head h).gpf2 with
    | none => c
    | some l =>
      if s.heldByBoth l then
        ((c.mapHead h fun x => { x with gpf2 := none }).toHost h (.gpfDone 2)).raise (F.HCFG_EV_GPF_DONE h.val)
      else c)

/-- HOT_RESET (R96). -/
def execHotReset (h : Fin 24) (s : State) : Host.Outcome State Fault Refusal := .next (s.resetHeads [h] true)

/-- SECONDARY_BUS_RESET (R96). -/
def execSecondaryBusReset (h : Fin 24) (s : State) : Host.Outcome State Fault Refusal := .next (s.resetHeads [h] true)

/-- FLR (R96). -/
def execHeadFlr (h : Fin 24) (s : State) : Host.Outcome State Fault Refusal := .next (s.resetHeads [h] false)

/-- CXL_RESET (R96). -/
def execCxlReset (h : Fin 24) (s : State) : Host.Outcome State Fault Refusal := .next (s.resetHeads [h] false)

/-- PERST_ASSERT (R585): every head of the port is reset and held, with its link in Detect. -/
def execPerstAssert (p : Fin 6) (s : State) : Host.Outcome State Fault Refusal :=
  .next ((portHeads p).foldl (fun s h => s.mapBoth fun c =>
    let c := if c.up then c.resetHead h true else c
    c.mapHead h fun x => { x with inReset := true }) s)

/-- PERST_DEASSERT (R585): the port's links may train. -/
def execPerstDeassert (p : Fin 6) (s : State) : Host.Outcome State Fault Refusal :=
  .next ((portHeads p).foldl (fun s h => s.mapBoth fun c => c.mapHead h fun x => { x with inReset := false }) s)

/-- CARBON_ACQUIRED (R101, R102): a link that is being acquired enters TRACKING. -/
def execCarbonAcquired (w : Twin) (h : Fin 24) (ns : Nat) (s : State) : Host.Outcome State Fault Refusal :=
  .next (s.onUp w fun c => if c.isCarbon (portOf h) && c.trackState h == 1 then c.enterTracking h ns else c)

/-- ACQ_LIMIT_EXPIRY (R101). -/
def execAcqLimitExpiry (w : Twin) (h : Fin 24) (s : State) : Host.Outcome State Fault Refusal :=
  .next (s.onUp w fun c =>
    if c.trackState h == 1 && decide (c.round ≥ (c.head h).track.enteredRound + c.cfg (F.CARB_CARBON_CFG_ACQ_LIMIT (portOf h).val)) then
      c.lose h
    else c)

/-- LOST_RETRY (R101): after one Round a lost link is acquired again. -/
def execLostRetry (w : Twin) (h : Fin 24) (s : State) : Host.Outcome State Fault Refusal :=
  .next (s.onUp w fun c =>
    if c.trackState h == 3 && c.isCarbon (portOf h) && decide (c.round > (c.head h).track.enteredRound) then c.acquire h else c)

/-- TRACK_LOST (R101, R103). -/
def execTrackLost (w : Twin) (h : Fin 24) (s : State) : Host.Outcome State Fault Refusal :=
  .next (s.onUp w fun c => if c.trackState h == 2 then c.lose h else c)

/-- FLIT_FETCH (R100): the carbon asks the home for a flit that it could not decode; nothing behind it is used meanwhile. -/
def execFlitFetch (w : Twin) (h : Fin 24) (dir : Direction) (flit : Nat) (s : State) : Host.Outcome State Fault Refusal :=
  .next (s.onUp w fun c =>
    if c.trackState h ≠ 2 then c
    else
      let k := (c.head h).track
      let c := match dir with
        | .hostToDevice => if k.missed.contains flit then c else c.mapHead h fun x => { x with track := { k with missed := k.missed ++ [flit] } }
        | .deviceToHost => if k.missedDown.contains flit then c else
            c.mapHead h fun x => { x with track := { k with missedDown := k.missedDown ++ [flit] } }
      ((c.cnt (K.CARB_FETCHES (portOf h).val (linkPos h))).showFetches h).send (.fetchAsk h dir flit))

end Sys2Proof.Machine
end

