-- ==== Sys2Proof/Machine/Pairs.lean ====
section
/-! DEFINITION. Pair-scope fields: which bits of which registers they are, and the digest of a page (R58, R61). -/
namespace Sys2Proof.Machine

/-- The bits of a register word that belong to pair-scope fields (R58). -/
def pairMask (page off : Nat) : Nat :=
  ((rowsAt page off).filter fun r => r.pair).foldl (fun a r => a ||| (2 ^ r.width - 1) * 2 ^ r.lo) 0

/-- The bits of a register word that belong to live pair-scope fields. -/
def livePairMask (page off : Nat) : Nat :=
  ((rowsAt page off).filter fun r => r.pair && r.live).foldl (fun a r => a ||| (2 ^ r.width - 1) * 2 ^ r.lo) 0

/-- The offsets of the registers of a page that hold pair-scope fields, ascending. -/
def pairOffsets (page : Nat) : List Nat :=
  let offs := ((pageRows page).filter fun r => r.pair).flatMap RegField.offsets
  (offs.foldl (fun (t : Table Unit) o => t.insert o ()) []).map (·.1)

/-- Whether a page holds pair-scope fields (TWIN_AGREE.PAIR_SCOPE). -/
def pairScope (page : Nat) : Bool := (pageRows page).any fun r => r.pair

/-- The pages that hold pair-scope fields, ascending. -/
def pairPages : List Nat := allPages.filter pairScope

namespace Chip

/-- The stored pair-scope bits of a register. -/
def pairWord (c : Chip) (page off : Nat) : Nat := (c.rd page off).toNat &&& pairMask page off

/-- TWIN_AGREE.DIGEST of a page (R61). -/
def pageDigest (c : Chip) (page : Nat) : Nat :=
  if pairScope page then crc16 ((pairOffsets page).flatMap fun o => leBytes 4 (c.pairWord page o)) else 0

/-- The stored pair-scope words of the chip that differ from their reset values, by key: what a save and the metadata keep of them. -/
def pairTable (c : Chip) : Table Word :=
  (c.regs.map fun x => (x.1, x.2 &&& BitVec.ofNat 32 (pairMask (x.1 / 4096) (x.1 % 4096)))).filter fun x =>
    pairMask (x.1 / 4096) (x.1 % 4096) != 0

/-- The chip with the pair-scope bits of a register replaced; the live ones take effect where the page runs (R56). -/
def setPairWord (c : Chip) (page off : Nat) (v : Word) : Chip :=
  let m := BitVec.ofNat 32 (pairMask page off)
  let n := BitVec.ofNat 32 (livePairMask page off)
  let c := c.wr page off ((c.rd page off &&& ~~~m) ||| (v &&& m))
  if c.running page && n != 0 then c.setUsed page off ((c.used page off &&& ~~~n) ||| (v &&& n)) else c

end Chip

end Sys2Proof.Machine
end

