-- ==== Sys2Proof/Machine/Mailbox.lean ====
section
/-! DEFINITION. The mailbox of a head and its commands (R85 to R92, R403, R456, R490, R568). -/
namespace Sys2Proof.Machine


/-- A Dead-Letter Log entry in the layout of R453. -/
def DloEntry.bytes (e : DloEntry) : List Byte :=
  let body := bytesLE 4 e.seq ++ bytesLE 6 e.round ++ bytesLE 4 e.delivery ++ bytesLE 1 e.source ++ bytesLE 1 (e.level + 16 * e.kind) ++
    bytesLE 1 e.copy ++ bytesLE 3 0 ++ bytesLE 8 e.address ++ bytesLE 8 e.location ++ bytesLE 16 e.syndrome.toNat ++ bytesLE 4 e.count ++
    bytesLE 4 0
  body ++ bytesLE 4 (crc32c (body.map BitVec.toNat))


/-- The mailbox opcodes of R86, with whether a command needs a manager head and the effects that Get Log reports: bit 2 data, bit 3
policy, bit 4 logs, bit 5 security, bit 6 background, bit 0 configuration after a cold start. -/
def mailOpcodes : List (Nat × Bool × Nat) :=
  [(0x0100, false, 0), (0x0101, false, 16), (0x0102, false, 0), (0x0103, false, 8), (0x0200, false, 0), (0x0201, true, 1), (0x0202, true, 1),
   (0x0300, false, 0), (0x0301, true, 8), (0x0400, false, 0), (0x0401, false, 0), (0x4000, false, 0), (0x4100, false, 0), (0x4102, false, 0),
   (0x4103, true, 4), (0x4200, false, 0), (0x4201, false, 0), (0x4202, true, 8), (0x4203, false, 0), (0x4204, true, 8), (0x4300, false, 0),
   (0x4301, true, 4), (0x4302, true, 4), (0x4303, false, 0), (0x4304, true, 64), (0x4305, false, 0), (0x4400, true, 100), (0x4401, true, 36),
   (0xC000, false, 0), (0xC001, false, 0), (0xC002, false, 0), (0xC003, true, 8)]

/-- The Command Effects Log: opcode and effects of each command. -/
def effectsLog : List Byte := mailOpcodes.flatMap fun x => bytesLE 2 x.1 ++ bytesLE 2 x.2.2

namespace Chip

/-! ## Completing a command (R85, R88, R92) -/

/-- A mailbox command completes on a chip: its reply stands, and it counts as a cause of vector 0. -/
def mailDone (c : Chip) (h : Fin 24) (r : MailReply) : Chip :=
  (((c.setReply h r).mapHead h fun x => { x with mailBusy := none }).cnt (K.HCFG_MAILBOX_CMDS h.val)).cause h 0

/-- The home has reported that a command which the carbon would answer again is complete (R88): the completion counts as a cause of vector 0 here
too (R94). -/
def mailReported (c : Chip) (h : Fin 24) : Chip :=
  if (c.head h).mailAgain.isSome then (c.mapHead h fun x => { x with mailAgain := none }).cause h 0 else c

/-- A command whose effect has applied completes with its code (R88, R177). -/
def mailFinish (c : Chip) (h : Fin 24) (code : Nat) : Chip :=
  if (c.head h).mailBusy.isSome then c.mailDone h { code } else c

/-- A command completes with Retry Required and no effect (R88, R96). -/
def mailRetry (c : Chip) (h : Fin 24) : Chip :=
  ((c.setReply h { code := 5 }).mapHead h fun x => { x with mailBusy := none, mailRetry := true }).cnt (K.HCFG_MAILBOX_RETRY h.val)

/-! ## What the commands return -/

/-- The timestamp: as set, and the Rounds since (R86). -/
def timestamp (c : Chip) : Nat := c.stampAt c.round

/-- Whether a background operation runs, or is announced and still to apply (R85). -/
def backgroundBusy (c : Chip) : Bool :=
  c.mail.background.isSome || c.twe.gated.any fun g => match g.effect with | .background _ => true | _ => false

/-- The lines of a DPA range that read with poison, ascending. -/
def poisoned (c : Chip) (dpa lines : Nat) : List Nat :=
  let all := c.trm.frontPoison ++ c.trm.packedPoison ++ c.trm.patchPoison ++ (c.wmb.filter fun x => x.2.poison).map fun x => x.1 * 64
  let mine := all.filter fun l => decide (dpa ≤ l) && decide (l < dpa + 64 * lines) && (c.fullLine l).2
  (mine.foldl (fun (t : Table Unit) l => t.insert l ()) []).map (·.1)

/-- The entries of the log of this chip from a SEQ, up to 255 (R456). -/
def deadLetters (c : Chip) (first : Nat) : List DloEntry :=
  ((c.ras.ring ++ c.ras.buffer).filter fun e => decide (e.seq ≥ first)).take 255

/-- Whether a line may be named by a poison command: 64 B aligned, in a domain. -/
def goodLine (c : Chip) (dpa : Nat) : Bool := dpa % 64 == 0 && (c.domainOf dpa).isSome

/-- The slot that is not active (R486). -/
def inactiveSlot (c : Chip) : Nat := 1 - c.get F.EFC_ACTIVE_SLOT

/-- The bytes of a slot's bank that are not erased, by their place in it. -/
def slotBytes (c : Chip) (slot : Nat) : Table Byte :=
  ((c.efc.bytes.filter fun x => bankOf x.1 == slot).map fun x => (x.1 - slot * bankSize, x.2)).filter fun x => x.1 < 511 * sectorSize

end Chip

open Chip

namespace State

/-- The home answers a command that changes no state; the carbon keeps what it would answer until the home reports the completion (R88). -/
def mailGet (s : State) (h : Fin 24) (f : Chip → MailReply) : State :=
  if !s.linkIn h then s
  else s.onPort (portOf h) fun c =>
    if (c.head h).mailBusy.isSome then c
    else if c.isHome (portOf h) then c.mailDone h (f c)
    else (c.mailReported h).mapHead h fun x => { x with mailAgain := some (f c) }

/-- The home carries out a command that changes state (R86, R88): Unsupported where it needs a manager head, an error code where `f` gives
one, else a gated effect whose application completes it with the code given. -/
def mailSet (s : State) (h : Fin 24) (op : Nat) (manager : Bool) (f : Chip → Except Nat (Effect × Nat)) : State :=
  match s.homeOf (portOf h) with
  | none => s
  | some w =>
    let c := s.chip w
    if !s.linkIn h || (c.head h).mailBusy.isSome then s
    else if manager && !c.isManager h then s.mapChip w fun c => c.mailDone h { code := 3 }
    else match f c with
      | .error code => s.mapChip w fun c => c.mailDone h { code }
      | .ok (e, code) =>
        let s := s.onPort (portOf h) fun c => c.mapHead h fun x => { x with mailBusy := some op }
        s.mapChip w fun c => c.postEffect e true (some (.mail h code))

/-- Whether chip `w` reaches the peer's registers and figures (R43): the Coxia Link carries both ways between them. -/
def reaches (s : State) (w : Twin) : Bool :=
  (s.chip w).linkUp && (s.chip w).linkSends && (s.chip w.other).linkUp && (s.chip w.other).linkSends

/-- New key pairs for every valid domain, drawn by the accepting chip (R567, R568). -/
def drawKeys (s : State) (w : Twin) : List (Nat × BitVec 512) × State :=
  ((List.range 64).filter fun d => (s.chip w).domValid d).foldl (fun a d =>
    let x := a.2.nextFree
    (a.1 ++ [(d, Config.drbg x.1)], x.2)) ([], s)

/-- Starts crypto-erase of every domain for a mailbox command. -/
def eraseEvery (s : State) (h : Fin 24) (op : Nat) (zero : Bool) (first : List (Effect × Nat)) : State :=
  match s.homeOf (portOf h) with
  | none => s
  | some w =>
    let c := s.chip w
    if !s.linkIn h || (c.head h).mailBusy.isSome then s
    else if !c.isManager h then s.mapChip w fun c => c.mailDone h { code := 3 }
    else if zero && c.backgroundBusy then s.mapChip w fun c => c.mailDone h { code := 6 }
    else
      let k := s.drawKeys w
      let s := k.2.onPort (portOf h) fun c => c.mapHead h fun x => { x with mailBusy := some op }
      s.mapChip w fun c =>
        let c := first.foldl (fun c e => c.postEffect e.1 true (some (.mail h e.2))) c
        c.postEffect (.eraseAll k.1 zero) true (if first.isEmpty && k.1.isEmpty then some (.mail h 0) else none)

end State

/-! ## The commands -/

/-- GET_EVENT_RECORDS (R89, R91): the overflow report with its count and its first and last timestamps, and the records of the log, each in its
128 bytes. -/
def execGetEventRecords (h : Fin 24) (log : Fin 4) (s : State) : Host.Outcome State Fault Refusal :=
  .next (s.mailGet h fun c =>
    let l := c.log h log.val
    let head := bytesLE 1 (bit l.overflow) ++ bytesLE 1 0 ++ bytesLE 2 l.overflowCount ++ bytesLE 8 l.firstOverflow ++
      bytesLE 8 l.lastOverflow ++ bytesLE 2 l.recs.length ++ bytesLE 10 0
    { words := l.recs.map (·.1)
      bytes := head ++ l.recs.flatMap fun x => EventRec.bytes x.2 log.val x.1 (c.stampAt x.2.round)
      recs := l.recs.map (·.2) })

/-- CLEAR_EVENT_RECORDS (R89): records cleared in both copies of the log. -/
def execClearEventRecords (h : Fin 24) (log : Fin 4) (all : Bool) (handles : List Nat) (s : State) : Host.Outcome State Fault Refusal :=
  .next (s.mailSet h 0x0101 false fun c =>
    if all || handles.all fun n => (c.log h log.val).recs.any fun r => r.1 == n then .ok (.clearLog h log all handles, 0) else .error 0x0E)

/-- GET_EVENT_INTERRUPT_POLICY (R86, R92): the mode of each log. -/
def execGetEventInterruptPolicy (h : Fin 24) (s : State) : Host.Outcome State Fault Refusal :=
  .next (s.mailGet h fun c => { words := (List.range 4).map fun l => (c.head h).policy.get (fun _ => 0) l })

/-- SET_EVENT_INTERRUPT_POLICY (R86, R92): no interrupt or MSI-X. -/
def execSetEventInterruptPolicy (h : Fin 24) (log : Fin 4) (mode : Fin 4) (s : State) : Host.Outcome State Fault Refusal :=
  .next (s.mailSet h 0x0103 false fun _ => if mode.val > 1 then .error 2 else .ok (.intPolicy h log mode, 0))

/-- GET_FW_INFO (R86, R490): two slots, the active one, and the slots whose image both twins hold. -/
def execGetFwInfo (h : Fin 24) (s : State) : Host.Outcome State Fault Refusal :=
  .next (s.mailGet h fun c =>
    let same (n : Nat) : Nat := bit (s.a.slotBytes n == s.b.slotBytes n && !(s.a.slotBytes n).isEmpty)
    { words := [2, c.get F.EFC_ACTIVE_SLOT, same 0, same 1] })

/-- TRANSFER_FW (R86, R490): bytes of an image for the inactive slot of both twins. -/
def execTransferFw (h : Fin 24) (off : Nat) (bytes : List Byte) (s : State) : Host.Outcome State Fault Refusal :=
  .next (s.mailSet h 0x0201 true fun _ =>
    if off + bytes.length > 3670016 ∨ bytes.length > 16384 then .error 2 else .ok (.firmware off bytes, 0))

/-- ACTIVATE_FW (R86, R490): PTR_SWAP on both twins, for the next cold start. -/
def execActivateFw (h : Fin 24) (slot : Fin 2) (s : State) : Host.Outcome State Fault Refusal :=
  .next (s.mailSet h 0x0202 true fun c => if (c.slotBytes slot.val).isEmpty then .error 0x0B else .ok (.activate slot.val, 0))

/-- GET_TIMESTAMP (R86). -/
def execGetTimestamp (h : Fin 24) (s : State) : Host.Outcome State Fault Refusal :=
  .next (s.mailGet h fun c => { words := [c.timestamp % 2 ^ 64] })

/-- SET_TIMESTAMP (R86): pair-wide. -/
def execSetTimestamp (h : Fin 24) (ns : BitVec 64) (s : State) : Host.Outcome State Fault Refusal :=
  .next (s.mailSet h 0x0301 true fun c => .ok (.timestamp ns.toNat c.round, 0))

/-- GET_SUPPORTED_LOGS (R86): the CEL and the Command Effects Log, with their sizes. -/
def execGetSupportedLogs (h : Fin 24) (s : State) : Host.Outcome State Fault Refusal :=
  .next (s.mailGet h fun _ => { words := [2, 2 * mailOpcodes.length, effectsLog.length] })

/-- GET_LOG (R86): log 0 the opcodes, log 1 the opcodes with their effects. -/
def execGetLog (h : Fin 24) (log : Fin 2) (off len : Nat) (s : State) : Host.Outcome State Fault Refusal :=
  .next (s.mailGet h fun _ =>
    let bs := if log.val = 0 then mailOpcodes.flatMap fun x => bytesLE 2 x.1 else effectsLog
    if off + len > bs.length then { code := 2 } else { bytes := (bs.drop off).take len })

/-- IDENTIFY_MEMORY_DEVICE (R86): total, volatile and persistent capacity in 256 MiB, partition alignment, LSA bytes, poison list and
injection limits, records of each event log. -/
def execIdentifyMemoryDevice (h : Fin 24) (s : State) : Host.Outcome State Fault Refusal :=
  .next (s.mailGet h fun c =>
    let cap := s.pairCapacity c.twin
    { words := [cap, 0, cap, 0, 262144, 256, 64, 64, 64, 64, 64] })

/-- GET_PARTITION_INFO (R86): active volatile and persistent capacity, next volatile and persistent. -/
def execGetPartitionInfo (h : Fin 24) (s : State) : Host.Outcome State Fault Refusal :=
  .next (s.mailGet h fun c =>
    let cap := s.pairCapacity c.twin
    { words := [0, cap, 0, cap] })

/-- GET_LSA (R86). -/
def execGetLsa (h : Fin 24) (off len : Nat) (s : State) : Host.Outcome State Fault Refusal :=
  .next (s.mailGet h fun c =>
    if off + len > 262144 ∨ len > 16384 then { code := 2 }
    else { bytes := (List.range len).map fun i => c.mail.lsa.get (fun _ => 0) (off + i) })

/-- SET_LSA (R86). -/
def execSetLsa (h : Fin 24) (off : Nat) (bytes : List Byte) (s : State) : Host.Outcome State Fault Refusal :=
  .next (s.mailSet h 0x4103 true fun _ =>
    if off + bytes.length > 262144 ∨ bytes.length > 16384 then .error 2 else .ok (.lsa off bytes, 0))

/-- GET_HEALTH_INFO (R403): whether the media are ready, the junction temperature in °C, the dirty shutdown count. -/
def execGetHealthInfo (h : Fin 24) (s : State) : Host.Outcome State Fault Refusal :=
  .next (s.mailGet h fun c => { words := [bit c.memActive, c.get F.THM_TJ_HOT / 4, c.mail.dirtyCount] })

/-- GET_ALERT_CONFIGURATION (R86). -/
def execGetAlertConfiguration (h : Fin 24) (s : State) : Host.Outcome State Fault Refusal :=
  .next (s.mailGet h fun c => { bytes := c.mail.alerts })

/-- SET_ALERT_CONFIGURATION (R86). -/
def execSetAlertConfiguration (h : Fin 24) (bytes : List Byte) (s : State) : Host.Outcome State Fault Refusal :=
  .next (s.mailSet h 0x4202 true fun _ => if bytes.length > 16384 then .error 2 else .ok (.alerts bytes, 0))

/-- GET_SHUTDOWN_STATE (R86). -/
def execGetShutdownState (h : Fin 24) (s : State) : Host.Outcome State Fault Refusal :=
  .next (s.mailGet h fun c => { words := [bit c.mail.dirty] })

/-- SET_SHUTDOWN_STATE (R86). -/
def execSetShutdownState (h : Fin 24) (dirty : Bool) (s : State) : Host.Outcome State Fault Refusal :=
  .next (s.mailSet h 0x4204 true fun _ => .ok (.shutdown dirty, 0))

/-- GET_POISON_LIST (R86): up to 256 poisoned lines of a range, after whether there are more. -/
def execGetPoisonList (h : Fin 24) (dpa lines : Nat) (s : State) : Host.Outcome State Fault Refusal :=
  .next (s.mailGet h fun c =>
    let l := c.poisoned dpa lines
    { words := bit (decide (l.length > 256)) :: l.take 256 })

/-- INJECT_POISON (R86): at most 64 lines hold injected poison. -/
def execInjectPoison (h : Fin 24) (dpa : Nat) (s : State) : Host.Outcome State Fault Refusal :=
  .next (s.mailSet h 0x4301 true fun c =>
    if !c.goodLine dpa then .error 0x0F
    else if c.mail.injected.length ≥ 64 then .error 0x10
    else .ok (.poison dpa true 0, 0))

/-- CLEAR_POISON (R86): the line is written with the data given. -/
def execClearPoison (h : Fin 24) (dpa : Nat) (data : Line) (s : State) : Host.Outcome State Fault Refusal :=
  .next (s.mailSet h 0x4302 true fun c => if c.goodLine dpa then .ok (.poison dpa false data, 0) else .error 0x0F)

/-- GET_SCAN_MEDIA_CAPABILITIES (R86): the time a scan of the range would take, which the spec does not state (a free value). -/
def execGetScanMediaCapabilities (h : Fin 24) (dpa lines : Nat) (s : State) : Host.Outcome State Fault Refusal :=
  let x := s.nextFree
  .next (x.2.mailGet h fun c => if c.goodLine dpa then { words := [Config.scanMs x.1 lines] } else { code := 0x0F })

/-- SCAN_MEDIA (R85, R86): a background operation; Busy where one runs. -/
def execScanMedia (h : Fin 24) (dpa lines : Nat) (s : State) : Host.Outcome State Fault Refusal :=
  .next (s.mailSet h 0x4304 true fun c =>
    if !c.goodLine dpa then .error 0x0F
    else if c.backgroundBusy then .error 6
    else .ok (.background ⟨0x4304, h, dpa, lines⟩, 1))

/-- GET_SCAN_MEDIA_RESULTS (R86): the poisoned lines the last scan found. -/
def execGetScanMediaResults (h : Fin 24) (s : State) : Host.Outcome State Fault Refusal :=
  .next (s.mailGet h fun c => { words := c.mail.scanned })

/-- SANITIZE (R86, R568): crypto-erase of every domain under new keys and zero-fill of the front tier, in the background. -/
def execSanitize (h : Fin 24) (s : State) : Host.Outcome State Fault Refusal :=
  .next (s.eraseEvery h 0x4400 true [(.background ⟨0x4400, h, 0, 0⟩, 1)])

/-- SECURE_ERASE (R86, R568): crypto-erase of every domain under new keys; it completes when every erase has. -/
def execSecureErase (h : Fin 24) (s : State) : Host.Outcome State Fault Refusal :=
  .next (s.eraseEvery h 0x4401 false [])

/-- The 32 bytes of Get Pair Info (R87), with byte 9 the home of a head's port as given. -/
def State.pairInfo (s : State) (w : Twin) (home9 : Nat) : List Byte :=
  let c := s.chip w
  let runs (t : Twin) : Nat := bit (t == w || s.reaches w)
  let home (p : Fin 6) : Nat := match s.homeOf p with | some .A => 0 | some .B => 1 | none => 2
  bytesLE 8 c.svc.pairSerial ++ bytesLE 1 (runs .A + 2 * runs .B + 4 * bit c.linkUp + 8 * bit (c.get F.CLK_ALIGN_STATE_STATE == 2)) ++
    bytesLE 1 home9 ++ bytesLE 2 0 ++ bytesLE 4 (allPorts.map fun p => home p * 4 ^ p.val).sum ++ bytesLE 8 (c.round % 2 ^ 48) ++
    bytesLE 4 c.clk.deliveryNo ++ bytesLE 4 0

/-- GET_PAIR_INFO (R87): pair serial number, state bits, home of this head's port, homes, round number, DELIVERY_NO. -/
def execGetPairInfo (h : Fin 24) (s : State) : Host.Outcome State Fault Refusal :=
  .next (s.mailGet h fun c => { bytes := s.pairInfo c.twin (match s.homeOf (portOf h) with | some .B => 1 | _ => 0) })

/-- The 32 bytes of Get Dirty Budget (R87): budget and unsaved bytes of chip A and of chip B; all-ones for a chip that cannot be reached. -/
def State.dirtyBudget (s : State) (w : Twin) : List Byte :=
  let fig (t : Twin) : List Byte :=
    if t = w || s.reaches w then bytesLE 8 ((s.chip t).get F.GOV_BUDGET_MIB * 2 ^ 20) ++ bytesLE 8 (s.chip t).unsaved
    else bytesLE 16 (2 ^ 128 - 1)
  fig .A ++ fig .B

/-- GET_DIRTY_BUDGET (R87). -/
def execGetDirtyBudget (h : Fin 24) (s : State) : Host.Outcome State Fault Refusal :=
  .next (s.mailGet h fun c => { bytes := s.dirtyBudget c.twin })

/-- GET_DEAD_LETTERS (R87, R456): the entries of the home's log from a SEQ on. -/
def execGetDeadLetters (h : Fin 24) (first : Nat) (s : State) : Host.Outcome State Fault Refusal :=
  .next (s.mailGet h fun c =>
    let l := c.deadLetters first
    { words := [l.length], bytes := bytesLE 4 l.length ++ bytesLE 4 0 ++ l.flatMap DloEntry.bytes })

/-- MAILBOX_BACKGROUND_DONE (R85, R568): the background operation of the pair completes; Sanitize once every erase has. -/
def execMailboxBackgroundDone (s : State) : Host.Outcome State Fault Refusal :=
  .next (match s.a.mail.background.orElse fun _ => s.b.mail.background with
    | none => s
    | some x =>
      s.onHome x.head fun c =>
        match c.mail.background with
        | none => c
        | some x =>
          let erasing := !s.a.sec.erasing.isEmpty || !s.b.sec.erasing.isEmpty ||
            c.twe.gated.any fun g => match g.effect with | .eraseAll _ _ => true | _ => false
          if x.opcode = 0x4400 ∧ erasing then c
          else c.postEffect (.backgroundDone (if x.opcode = 0x4304 then c.poisoned x.first x.lines else [])) true)

end Sys2Proof.Machine
end

