-- ==== Sys2Proof/Machine/Save.lean ====
section
/-! DEFINITION. The save controller: the dirty budget and its governor, the Insole, a save from PFAIL_N to its seal, and restore up to
Memory_Active (R380 to R407, R552 to R555). -/
namespace Sys2Proof.Machine

/-- A seal that a chip may serve from. -/
def Summary.usable (x : Summary) : Bool := x.kind == 1 && !x.damaged

/-- A Route slot as a restore brings it back (R333): an ACTIVE Route LOADED at its POS; no window, no open slip. -/
def RouteSlot.restored (x : RouteSlot) : RouteSlot :=
  { x with
    state := if x.state = 2 then 1 else x.state
    holds := []
    slipSeen := none
    slipOpen := none
    entries := []
    blocks := []
    asked := [] }

namespace Chip

/-! ## The budget (R383 to R385, R391) -/

/-- The rows of the Insole that are written, or wait for their erase. -/
def insoleUsed (c : Chip) : List (Nat × MdeRow) := c.mde.rows.filter fun x => decide (x.1 < c.insoleRows) && x.2.state != 0

/-- Up to `n` erased rows of the Insole, in the rotation in which they are used (R391). -/
def insoleErased (c : Chip) (n : Nat) : List Nat :=
  let l := (List.range (min c.insoleRows (n + c.insoleUsed.length))).map fun i => (c.svc.insoleAt + i) % max 1 c.insoleRows
  (l.filter fun r => (c.row r).state == 0).take n

/-- The probe row (R386) where its pages are in use: the open row of the Insole. Otherwise the next erased row is set aside for it. -/
def probeRow (c : Chip) : Option Nat := (c.insoleUsed.find? fun x => x.2.state == 1).map Prod.fst

/-- The next `n` rows of the Insole that are ready: erased, without the probe row. -/
def insoleReady (c : Chip) (n : Nat) : List Nat :=
  if c.probeRow.isSome then c.insoleErased n else (c.insoleErased (n + 1)).drop 1

/-- D of the Insole's rows (R385): 24 where one is written 24+4. -/
def insoleD (c : Chip) : Nat := if c.insoleUsed.any fun x => x.2.data == 24 then 24 else c.dFmt

/-- The payload of an erased Insole row: a third of a row of the Last (R391). -/
def insoleRowBytes (c : Chip) : Nat := c.blockBytes * c.insoleD / 3

/-- INSOLE_READY_MIB (R391): the payload of the erased rows, without the probe row. -/
def insoleReadyMib (c : Chip) : Nat :=
  if c.mde.formatted then (c.insoleRows - c.insoleUsed.length - bit c.probeRow.isNone) * c.insoleRowBytes / 2 ^ 20 else 0

/-- LUNS_LIVE (R385): live LUNs at the positions of Insole rows. -/
def lunsLive (c : Chip) : Nat :=
  ((List.range (min c.mde.scan.positions c.insoleRows)).map fun u => (colsOf (c.liveMask u)).length).sum

/-- TPROG_SLC_MAX_US: the longest program time of the last 1,024 Deliveries. -/
def tprogMax (c : Chip) : Nat :=
  (c.svc.tprog.filter fun x => decide (c.clk.deliveryNo < x.1 + 1024)).foldl (fun a x => max a x.2) 0

/-- SAVE_RATE_MBPS (R385): the lesser of the bus rate and the LUN rate, and never above what the last save achieved. -/
def saveRate (c : Chip) : Nat :=
  let d := c.insoleD
  let lun := c.lunsLive * 65536 * d / (d + 4) / max 1 c.tprogMax
  let r := min (c.get F.GOV_RATE_BUS_CAL_MBPS) lun
  match c.svc.saveRateCap with
  | some x => min r x
  | none => r

/-- The save rate and what it comes from are worked out again. -/
def showRate (c : Chip) : Chip :=
  ((c.put F.GOV_TPROG_SLC_MAX_US c.tprogMax).put F.GOV_LUNS_LIVE c.lunsLive).put F.GOV_SAVE_RATE_MBPS c.saveRate

/-- The energy term of the budget, in bytes (R383). -/
def eTerm (c : Chip) : Nat :=
  let hold := c.cfg (F.GOV_HOLDUP_MAP_US (c.get F.GOV_GOV_HOLDUP_APPLIED))
  (hold - (c.cfg F.GOV_GRACE_US + c.cfg F.GOV_FIXED_US)) * c.get F.GOV_SAVE_RATE_MBPS * (100 - c.cfg F.GOV_BUDGET_CFG_MARGIN_PCT) / 100

/-- The cap terms of the budget: CAP_GIB, and what is ready of the Insole less 1 GiB. -/
def capTerm (c : Chip) : Nat × Nat := (c.cfg F.GOV_BUDGET_CFG_CAP_GIB * 2 ^ 30, c.insoleReadyMib * 2 ^ 20 - 2 ^ 30)

/-- The budget in MiB (R383). -/
def budgetOf (c : Chip) : Nat := min (min c.capTerm.1 c.capTerm.2) c.eTerm / 2 ^ 20

/-- The applied hold-up level changes (R384). -/
def setHoldup (c : Chip) (lvl : Nat) : Chip :=
  let old := c.get F.GOV_GOV_HOLDUP_APPLIED
  if lvl = old then c
  else
    let c := ((c.put F.GOV_GOV_HOLDUP_APPLIED lvl).cnt K.GOV_HOLDUP_CHANGES).raise F.GOV_EV_HOLDUP_CHANGE
    if lvl < old then c.raise F.GOV_EV_HOLDUP_DROP else c

/-- The pins are sampled once in a Round (R384): a run of Rounds above the applied level, with the lowest level seen in it. -/
def sampleHoldup (c : Chip) (lvl : Nat) : Chip :=
  if !c.running 0x0D0 then { c with svc := { c.svc with risingRun := 0 } }
  else
    let c := c.put F.GOV_GOV_HOLDUP_PINS lvl
    if lvl > c.get F.GOV_GOV_HOLDUP_APPLIED then
      { c with svc := { c.svc with
        risingRun := c.svc.risingRun + 1
        risingMin := if c.svc.risingRun = 0 then lvl else min c.svc.risingMin lvl } }
    else { c with svc := { c.svc with risingRun := 0 } }

/-- GOV.STATE that UNSAVED calls for under the budget in force (R387). -/
def govState (c : Chip) : Nat :=
  let u := c.unsaved
  let b := c.get F.GOV_BUDGET_MIB * 2 ^ 20
  if u > b then 4
  else if u * 100 ≥ c.cfg F.GOV_CLEAN_CFG_THROTTLE_PCT * b then 3
  else if u * 100 ≥ c.cfg F.GOV_CLEAN_CFG_HIGH_PCT * b then 2
  else if u * 100 ≥ c.cfg F.GOV_CLEAN_CFG_LOW_PCT * b then 1
  else 0

/-- The governor takes a state (R387); OVER raises OVER_BUDGET, THROTTLE its event. FROZEN stays. -/
def setGov (c : Chip) (st : Nat) : Chip :=
  let old := c.get F.GOV_GOV_STATE
  if old = 5 ∨ old = st then c
  else
    let c := c.put F.GOV_GOV_STATE st
    if st = 3 then c.raise F.GOV_EV_THROTTLE else if st = 4 then c.raise F.GOV_EV_OVER_BUDGET else c

/-- The headroom H of R389, in bytes. -/
def headroom (c : Chip) : Nat :=
  let own := c.get F.GOV_BUDGET_MIB * 2 ^ 20 - c.unsaved
  if !c.mirrored then own
  else match c.twe.peerFrame with
    | some f => min own (f.budget - f.unsaved) / 2
    | none => own / 2

/-- The governor's job, first part (R383, R384): a level that fell is applied, and the budget computed. -/
def computeBudget (c : Chip) : Chip :=
  let pins := c.get F.GOV_GOV_HOLDUP_PINS
  let c := if decide (pins < c.get F.GOV_GOV_HOLDUP_APPLIED) then c.setHoldup pins else c
  let b := c.budgetOf
  let limited := decide (c.capTerm.2 < c.capTerm.1) && decide (c.capTerm.2 ≤ c.eTerm)
  let c := c.put F.GOV_BUDGET_MIB b
  let c := if limited then c.raise F.GOV_EV_INSOLE_LIMIT else c
  (c.low K.GOV_BUDGET_MIN_MIB b).peak K.GOV_UNSAVED_MAX_MIB (c.unsaved / 2 ^ 20)

/-- PEER_HEADROOM_MIB, from the peer's frame. -/
def showPeerHeadroom (c : Chip) : Chip :=
  match c.twe.peerFrame with
  | some f => c.put F.GOV_PEER_HEADROOM_MIB ((f.budget - f.unsaved) / 2 ^ 20)
  | none => c

/-- The lines that the writes of a Round may total in a state (R388, R389). -/
def refillLines (c : Chip) (st : Nat) : Option Nat :=
  match st with
  | 3 => some (c.headroom / 65664)
  | 4 => some 0
  | _ => none

/-- What the state of a Round counts. -/
def countGov (c : Chip) (st : Nat) : Chip :=
  match st with
  | 0 => c
  | 3 => (c.cnt K.GOV_CLEANING_ROUNDS).cnt K.GOV_THROTTLE_ROUNDS
  | 4 => (c.cnt K.GOV_CLEANING_ROUNDS).cnt K.GOV_OVER_ROUNDS
  | _ => c.cnt K.GOV_CLEANING_ROUNDS

/-- The governor's state of this Round (R387, R389): the state, its counts, and the lines that writes may take. -/
def governAs (c : Chip) (st : Nat) (lines : Option Nat) : Chip :=
  let c := (c.setGov st).countGov st
  { c with svc := { c.svc with throttle := lines, governed := true } }

/-- The governor's job (R383, R387 to R389): the budget, the state, and the lines that a throttled Round may admit. -/
def governJob (c : Chip) : Chip :=
  if !c.running 0x0D0 || c.get F.GOV_GOV_STATE == 5 then c
  else
    let c := c.computeBudget.showPeerHeadroom
    c.governAs c.govState (c.refillLines c.govState)

/-- OVER acts at once (R387): while UNSAVED exceeds the budget in force. -/
def overNow (c : Chip) : Chip :=
  let c := c.peak K.GOV_UNSAVED_MAX_MIB (c.unsaved / 2 ^ 20)
  if c.svc.governed && c.running 0x0D0 && decide (c.unsaved > c.get F.GOV_BUDGET_MIB * 2 ^ 20) then
    { c.setGov 4 with svc := { c.svc with throttle := some 0 } }
  else c

/-- The probe of a Delivery (R386): one program on the next live LUN of the probe row; a row whose pages are used up is erased, and the next
erased row takes its place. -/
def probe (c : Chip) (us : Nat) : Chip :=
  if !c.svc.calibrated || c.saveActive then c
  else
    let at' := match c.probeRow with
      | some r => some (c, r)
      | none => ((c.insoleErased 1).head?).map fun r => ({ c.openRow r sINSOLE with svc := { c.svc with insoleAt := r + 1 } }, r)
    match at' with
    | none => c
    | some (c, r) =>
      let y := c.row r
      let n := y.nextCell + 1
      let y := { y with nextCell := n }
      let y := if n ≥ c.mde.scan.pages * (colsOf y.live).length then { y with state := 3, todo := y.live } else y
      let c := (c.setRow r y).cnt K.GOV_PROBES
      let c := c.peak K.GOV_PROBE_TPROG_MAX_US us
      { c with svc := { c.svc with
        tprog := (c.svc.tprog.filter fun x => decide (c.clk.deliveryNo < x.1 + 1024)) ++ [(c.clk.deliveryNo, us)]
        probeLun := (c.svc.probeLun + 1) % max 1 c.lunsLive } }

/-- The save rate at a Delivery boundary (R385): a fall of 5% or more raises RATE_DROP. -/
def rateDelivery (c : Chip) : Chip :=
  if !c.svc.calibrated then c
  else
    let old := c.get F.GOV_SAVE_RATE_MBPS
    let c := c.showRate
    if c.get F.GOV_SAVE_RATE_MBPS * 100 ≤ old * 95 && decide (c.get F.GOV_SAVE_RATE_MBPS < old) then c.raise F.GOV_EV_RATE_DROP else c

/-! ## The risk map and the durable metadata (R382, R403, R601) -/

/-- The risk map at a Delivery boundary: an extent that is CLEAN and holds no WMB entry and no patch line leaves it. -/
def clearRisk (c : Chip) : Chip :=
  let keep := c.svc.risk.filter fun e =>
    !(c.clean e && !c.wmb.any (fun x => extentOf (x.1 * 64) == e) && !c.trm.patchLines.any fun l => extentOf l == e)
  if keep.length = c.svc.risk.length then c else { c with svc := { c.svc with risk := keep, riskChanged := true } }

/-- The metadata as they stand (R381, R404, R601). -/
def metaImage (c : Chip) : Image := {
  ext := c.trm.ext
  parcels := c.trm.parcels
  objects := c.trm.objects
  routes := c.rte.slots
  pairFields := c.pairTable
  healed := c.trm.healed
  resyncFull := c.is F.RSY_RESYNC_KIND
  risk := c.svc.risk
  mail := c.mail
  keys := c.sec.keys
  speaker := c.twe.speakerState
  changeMap := c.twe.changeMap
  changeBase := c.get F.RSY_CHANGEMAP_BASE_EPOCH_LO + 2 ^ 32 * c.get F.RSY_CHANGEMAP_BASE_EPOCH_HI }

/-- What a save writes (R380, R397): the metadata, and every byte that the back tier does not hold. -/
def saveImage (c : Chip) : Image :=
  let i := c.metaImage
  { i with
  wmb := c.wmb
  charges := c.charges
  front := c.trm.front.filter fun x => c.trm.dirty.contains (parcelOf x.1)
  frontPoison := c.trm.frontPoison
  dirty := c.trm.dirty
  patch := c.trm.patch
  patchLines := c.trm.patchLines
  patchPoison := c.trm.patchPoison
  patchBorn := c.mde.patchBorn
  staged := c.mde.staged }

/-- The metadata journal of a Round: the metadata are durable, and a Round in which the risk map changed counts (R382, R601). -/
def journalRound (c : Chip) : Chip :=
  if !c.svc.mapsLoaded || c.saveActive then c
  else
    let c := { c with svc := { c.svc with durable := c.metaImage } }
    let c := c.peak K.SAV_RISK_EXTENTS_MAX c.svc.risk.length
    if c.svc.riskChanged then { c with svc := { c.svc with riskChanged := false } }.cnt K.SAV_RISK_COMMITS else c

/-! ## A save (R393 to R399) -/

/-- The commit (R395, step 3), with SAVE_START sent to the peer (R394). -/
def commitSave (c : Chip) : Chip :=
  ({ c with svc := { c.svc with decided := false, lone := false } }.freeze 3).postEffect .saveStart false

/-- The rows that a save of some bytes takes: as many ready rows of the Insole, in their rotation, with a wave of programs written again for every one
that failed (R391, R392, R398). -/
def takeInsole (c : Chip) (bytes : Nat) : Chip × Nat × Nat :=
  let all := bytes + c.svc.rewrites * c.insoleD * 65536
  let n := (all + c.insoleRowBytes - 1) / max 1 c.insoleRowBytes
  let free := c.insoleReady n
  let c := free.foldl (fun c r =>
    let live := c.liveMask (c.posOf r)
    c.setRow r { state := 2, data := if (colsOf live).length = 32 then c.dFmt else 24, live, stream := sINSOLE }) c
  ({ c with svc := { c.svc with insoleAt := (free.getLast?.map (· + 1)).getD c.svc.insoleAt, rewrites := 0 } }, free.headD 0, free.length)

/-- The hold (R395, steps 5 to 7): Cmp for every admitted write that meets R131, or R134 in local mode; no other response, no more requests; the
transmitters idle, the final APPLIED record, and the link stops. -/
def holdPorts (c : Chip) : Chip :=
  let ready (t : Tag) : Bool := t.isTag && isWrite t.req.kind && (at' t .writeWm) &&
    (covers (c.head t.req.head).covered t.req.pos.code || (match c.domainOf t.dpa with | some d => c.localMode d | none => false))
  let c := (c.tags.filter ready).foldl respondCmp c
  let c := { c with tags := [] }
  let c := if c.mirrored then c.post (.applied c.twe.pmApplied) else c
  let c := allHeads.foldl (fun c h => c.leaveL0 h 0 0) c
  let c := { c with svc := { c.svc with held := true }, trm := { c.trm with stepRunning := [] } }
  ((c.stopLink).put F.SAV_SVC_STATE 4).put F.MDE_MODE 3

/-- KIND of the seal that the chip writes (R398). -/
def sealKind (c : Chip) : Nat := if c.mode = mJOINING then 2 else if c.mode = mISOLATED then 3 else 1

/-- Bytes 0 to 4,091 of a seal (R398). The layout of the record directory is nowhere given, so its CRC is a free value. -/
def sealBody (x : Seal) : List Byte :=
  bytesLE 8 x.serial ++ bytesLE 8 x.epoch ++ bytesLE 6 x.round ++ bytesLE 2 0 ++ bytesLE 4 x.delivery ++ bytesLE 1 x.kind ++ bytesLE 1 x.twin ++
  bytesLE 2 0 ++ bytesLE 8 x.bytes ++ bytesLE 4 x.firstRow ++ bytesLE 4 x.rows ++ bytesLE 4 x.records ++
  bytesLE 4 (Config.directoryCrc x.round).toNat ++ bytesLE 8 x.checkpoint ++ List.replicate 4028 0

/-- The 4,096 B of each copy of a seal (R398). -/
def sealBlock (x : Seal) : List Byte := sealBody x ++ bytesLE 4 (crc32c ((sealBody x).map BitVec.toNat))

/-- LAST_SAVE of the latest save that was sealed: part of the save controller's own state, which a save holds (R381, R409). -/
def showLastSave (c : Chip) : Chip :=
  let x := c.svc.lastSave
  ((c.put F.SAV_LAST_SAVE_MIB x.1).put F.SAV_LAST_SAVE_US x.2.1).put F.SAV_LAST_SAVE_RATE_MBPS x.2.2

/-- The save reads of so many bytes of DRAM, all of which issue: no client is regulated while they run (R430, R433). -/
def saveReads (c : Chip) (bytes : Nat) : Chip :=
  let c := c.oweBlock .save 0 (bytes + 2048)
  (List.range 16).foldl (fun c d => c.settleClient d .save false) c

/-- The record of a save whose seal is written: its kind, the chip that wrote it, its moment, and the bytes, rows and records it holds (R398). -/
def sealOf (c : Chip) (img : Image) (bytes first n : Nat) : Seal := {
  kind := c.sealKind
  twin := c.rst.twinId
  serial := c.svc.pairSerial
  epoch := c.epoch
  round := c.round
  delivery := c.clk.deliveryNo
  bytes
  firstRow := first
  rows := n
  records := img.wmb.length + img.dirty.length + img.patchLines.length + 1
  checkpoint := c.svc.checkpoint }

/-- The seal kept beside the content it vouches for, with the save's length, rate and longest program (R385, R398). -/
def keepSeal (c : Chip) (img : Image) (x : Seal) (us tprogUs rate : Nat) : Chip :=
  { c with svc := { c.svc with
    sealRec := some x
    saved := img
    saveRowsHeld := x.rows
    saveRateCap := some rate
    tprog := c.svc.tprog ++ [(c.clk.deliveryNo, tprogUs)]
    lastSave := (x.bytes / 2 ^ 20, us, rate) } }

/-- A RESET_N that is still low when the save ends now acts (R550). -/
def resetAfterSave (c : Chip) : Chip := { c with rst := { c.rst with resetN := c.rst.resetN || c.rst.resetPending, resetPending := false } }

/-- The seal (R395, step 10; R398): the record of the save, its rate and its longest program (R385), and the state SEALED; a RESET_N that is still low
now acts (R550). -/
def sealSave (c : Chip) (us tprogUs : Nat) (bad : List Nat) : Chip :=
  let bytes := c.unsaved
  let c := c.saveReads (bytes - c.unsavedWmb)
  let img := { c.saveImage with repairDue := (bad.map lineBase).foldl insertN c.trm.repairDue }
  let (c, first, n) := c.takeInsole bytes
  (c.keepSeal img (c.sealOf img bytes first n) us tprogUs (bytes / max 1 (us - c.cfg F.GOV_GRACE_US))).showLastSave.resetAfterSave.put F.SAV_SVC_STATE 5

/-! ## Choosing the source (R401, R402, R552) -/

/-- The summary as chip `w` counts when the pair serials differ (R552): chip B's seal is not usable and its epoch 0. -/
def summaryOf (w : Twin) (differ : Bool) (x : Summary) : Summary :=
  if differ && w == Twin.B then { x with kind := 0, epoch := 0 } else x

/-- The source of a chip (R402): 1 LOCAL, 2 TWIN, 3 DIRTY. -/
def sourceOf (w : Twin) (own peer : Summary) : Nat :=
  if own.usable then (if peer.usable && decide (peer.epoch > own.epoch) then 2 else 1)
  else if peer.usable then 2
  else if own.epoch > peer.epoch ∨ (own.epoch = peer.epoch ∧ w = Twin.A) then 3 else 2

/-- No summary: a twin that sends no frame (R401). -/
abbrev noSummary : Summary := ⟨0, false, 0, 0, 0, 0⟩

/-- The SEAL_SUMMARY goes to the twin, once, when the chip is aligned (R401). -/
def sendSummary (c : Chip) : Chip :=
  match c.svc.own with
  | some x =>
    if c.svc.summarySent || !c.aligned then c
    else
      let x := { x with sent := c.round }
      { c with svc := { c.svc with own := some x, summarySent := true } }.postEffect (.sealSummary x) false
  | none => c

/-- The chip's source is set, and shown. -/
def setSource (c : Chip) (n : Nat) : Chip :=
  { c with svc := { c.svc with source := n } }.put F.SAV_SVC_SOURCE n

/-- The pair forms (R552): its serial from chip A, or from the chip that forms it alone; epoch 1, both copies empty, the dirty shutdown count
0; chip A draws the pair key, which goes to chip B in a gated effect (R562). -/
def formPair (c : Chip) (serial : Nat) (key : Option (BitVec 512)) : Chip :=
  let c := { c with svc := { c.svc with pairSerial := serial, formedNow := true }, mail := { c.mail with dirtyCount := 0 } }
  let c := ((c.setEpoch 1).setSource 0).put F.RST_START_PAIR_FORMED 1
  match key with
  | some k => { c with sec := { c.sec with pairKey := some k } }.postEffect (.pairKey k) true
  | none => c

/-- The chip leaves STARTING as a survivor (R553): through MIRRORED into ALONE, without a carbon role; the epoch goes up and the change map
opens. -/
def startAlone (c : Chip) : Chip := (((c.setMode mMIRRORED).setMode mALONE).openChangeMap).takeRoles

/-- The chip enters SOLO (R222): home of every port; the epoch goes up and the change map opens. -/
def startSolo (c : Chip) : Chip := ((c.setMode mSOLO).openChangeMap).takeRoles

/-- The chip enters JOINING (R161, R214): carbon of every port. -/
def startJoin (c : Chip) : Chip :=
  let clean := match c.svc.sealRec with
    | some x => x.checkpoint == c.svc.checkpoint && !x.damaged && !c.svc.saved.resyncFull
    | none => false
  let c := { c with twe := { c.twe with
    cleanCopy := if c.mode = mSTARTING || c.twe.fromStarting then clean else c.twe.cleanCopy
    fromStarting := false } }
  (c.setMode mJOINING).takeRoles

/-! ## Restore (R403 to R405, R601) -/

/-- The pair-scope fields come back, stored and applied (R601). -/
def loadPairFields (c : Chip) (t : Table Word) : Chip :=
  let c := t.foldl (fun c x => c.setPairWord (x.1 / 4096) (x.1 % 4096) x.2) c
  { c with applied := t.foldl (fun a x =>
      let m := BitVec.ofNat 32 (pairMask (x.1 / 4096) (x.1 % 4096))
      a.set resetKey x.1 ((a.get resetKey x.1 &&& ~~~m) ||| (x.2 &&& m))) c.applied }

/-- The image that a restore uses (R401, R403): the records of a current seal, in a DIRTY restore with the risk map of the journal; with no current
seal the latest durable metadata. -/
def restoreImage (c : Chip) : Image :=
  let current := match c.svc.sealRec with
    | some x => x.checkpoint == c.svc.checkpoint
    | none => false
  if !current then c.svc.durable
  else if c.svc.source ≠ 3 then c.svc.saved
  else { c.svc.saved with risk := c.svc.saved.risk.foldl insertN c.svc.durable.risk }

/-- Whether an image holds data of an extent that the back tier does not hold: a frame parcel, a patch line or a WMB entry (R381). -/
def Image.unsavedOf (i : Image) (e : Nat) : Bool :=
  i.dirty.any (fun p => p / 32 == e) || i.patchLines.any (fun l => extentOf l == e) || i.wmb.any fun x => extentOf (x.1 * 64) == e

/-- Whether an extent comes back FRONT (R405): it was in the front tier with unsaved data, or its policy pins it. -/
def returnsFront (c : Chip) (i : Image) (e : Nat) : Bool :=
  let st := (i.ext.get extDefault e).state
  st != 0 && (c.policy e == 0 || (decide (st ≥ 2) && Image.unsavedOf i e))

/-- The base epoch of the change map that a restore brings back, and how many extents it marks (R215). -/
def showChangeMap (c : Chip) (i : Image) : Chip :=
  match c.serving, i.changeMap with
  | false, some m => ((c.put F.RSY_CHANGEMAP_BASE_EPOCH_LO i.changeBase).put F.RSY_CHANGEMAP_BASE_EPOCH_HI (i.changeBase / 2 ^ 32)).put
      F.RSY_CHANGEMAP_MARKED m.length
  | _, _ => c

/-- Step 3 of R404: the maps, objects, Routes, keys, mailbox and endpoint state, and the pair-scope settings. -/
def loadMeta (c : Chip) : Chip :=
  let i := c.restoreImage
  let dirty := c.svc.source == 3
  let c := c.loadPairFields i.pairFields
  let back (x : Nat × ExtEntry) : Nat × ExtEntry :=
    (x.1, { x.2 with
      state := if x.2.state = 0 then 0 else 1
      frame := none
      window := false
      lost := x.2.lost || (dirty && i.risk.contains x.1) })
  let ext := i.ext.map back
  let c := { c with
    trm := { c.trm with
      ext
      extDram := ext
      parcels := i.parcels
      parcelsDram := i.parcels
      objects := i.objects
      objectsDram := i.objects
      healed := if dirty then i.healed.filter fun l => !i.risk.contains (extentOf l) else i.healed
      patch := i.patch
      patchLines := i.patchLines
      patchPoison := i.patchPoison }
    rte := { c.rte with slots := i.routes.map fun (x : Nat × RouteSlot) => (x.1, RouteSlot.restored x.2) }
    sec := { c.sec with keys := i.keys }
    mail := i.mail
    twe := { c.twe with speakerState := i.speaker, changeMap := if c.serving then c.twe.changeMap else i.changeMap }
    mde := { c.mde with patchBorn := i.patchBorn, staged := i.staged }
    svc := { c.svc with mapsLoaded := true, risk := i.risk } }
  let c := c.chainAll
  let c := { c with
    trm := { c.trm with patchDram := c.trm.patchChains }
    twe := { c.twe with changeDram := c.twe.changeMap.getD [] } }
  let c := c.showChangeMap i
  let lost := (i.risk.filter fun e => (c.ext e).state != 0).length
  let c := if dirty then
    let c := { c with mail := { c.mail with dirtyCount := c.mail.dirtyCount + 1 } }
    (c.put F.SAV_LAST_RESTORE_LOST_EXTENTS lost).raise F.SAV_EV_DIRTY_SHUTDOWN
    else c
  c.put F.SAV_DIRTY_SHUTDOWN_COUNT c.mail.dirtyCount

/-- An extent comes back FRONT (R405): its frame from the saved parcels, then from the back tier, with its patch lines folded in; the parcels
that differ from their packed copies are dirty, and its range is READY. -/
def restoreFront (c : Chip) (i : Image) (e : Nat) : Chip :=
  let c := c.takeFrame e
  let c := match c.frameOf e with
    | some f => c.setReady (c.rangeOf f)
    | none => c
  (parcelsOf e).foldl (fun c p =>
    let saved := i.dirty.contains p
    let src := if saved then i.front else c.trm.packed
    let poison := (if saved then i.frontPoison else c.trm.packedPoison).filter fun l => parcelOf l == p
    let ls := c.patchOf p
    let front := copyBytes src c.trm.front (p * 65536) 65536
    let front := ls.foldl (fun t l => writeLine t l (readLine c.trm.patch l) allBytes) front
    let poison := (poison.filter fun l => !ls.contains l) ++ ls.filter fun l => c.trm.patchPoison.contains l
    let c := { c with trm := { c.trm with front, frontPoison := poison.foldl insertN c.trm.frontPoison } }
    (if ls.isEmpty then c else c.dropPatch p ls).setDirty p (saved || !ls.isEmpty)) (c.mapExt e fun x => { x with state := 2 })

/-- Every line of the records that could not be read is lost: stored poisoned (R403). -/
def loseRecords (c : Chip) (ps : List Nat) : Chip :=
  ps.foldl (fun c p =>
    let ls := (List.range 1024).map fun k => p * 65536 + 64 * k
    if ((c.ext (p / 32)).state == 2) then { c with trm := { c.trm with frontPoison := ls.foldl insertN c.trm.frontPoison } }
    else { c with trm := { c.trm with packedPoison := ls.foldl insertN c.trm.packedPoison } }) c

/-- Steps 4 and 5 of R404: the saved records are loaded, and every PIN_FRONT extent is FRONT. -/
def loadData (c : Chip) : Chip :=
  let i := c.restoreImage
  let again (x : Nat × WmbEntry) : Nat × WmbEntry := (x.1, { x.2 with state := .valid, redrain := false, issuedMask := 0 })
  let c := { c with wmb := i.wmb.map again, charges := i.charges }
  let es : List Nat := (c.trm.ext.filter fun (x : Nat × ExtEntry) => c.returnsFront i x.1).map Prod.fst
  let c : Chip := es.foldl (fun c e => c.restoreFront i e) c
  let c := if c.svc.source = 3 then c.loseRecords c.svc.badRecords else c
  let refill := if c.cfgOn F.SAV_RESTORE_CFG_REFILL_ALL then (i.ext.filter fun (x : Nat × ExtEntry) => x.2.state == 2 && !es.contains x.1).map Prod.fst else []
  { c with
    trm := { c.trm with extDram := c.trm.ext, dirtyDram := c.trm.dirty, repairDue := i.repairDue }
    svc := { c.svc with dataLoaded := true, refill } }

/-- The calibration's writes (R386): CAL_CFG.MIB of payload across the columns of ready rows of the Insole, which are then erased. -/
def calibrationWrites (c : Chip) : Chip :=
  let bytes := c.cfg F.SAV_CAL_CFG_MIB * 2 ^ 20
  let rows := c.insoleReady ((bytes + c.insoleRowBytes - 1) / max 1 c.insoleRowBytes)
  let programs := (bytes / c.insoleD + 65535) / 65536
  let erased (c : Chip) (r : Nat) : Chip :=
    let ks := colsOf (c.liveMask (c.posOf r))
    let c := ks.foldl (fun c k => (c.cnt K.WEAR_ERASES).cnt (K.CHN_ERASES k)) c
    { c with mde := { c.mde with erases := c.mde.erases.set (fun _ => 0) r (c.mde.erases.get (fun _ => 0) r + 1) } }
  let c := rows.foldl erased c
  let c := if rows.isEmpty then c else (List.range 32).foldl (fun c k => (c.cnt (K.CHN_PROGRAMS k) programs).cnt (K.CHN_BUS_BYTES k) (programs * 65536)) c
  { c with svc := { c.svc with insoleAt := (rows.getLast?.map (· + 1)).getD c.svc.insoleAt } }

/-- RESTORE_DONE goes out at step 6, once the governor page runs (R555). -/
def sendRestoreDone (c : Chip) : Chip :=
  if c.svc.calibrated && !c.svc.restoreSent && c.running 0x0D0 && (c.mirrored || c.serving) then
    { c with svc := { c.svc with restoreSent := true } }.postEffect .restoreDone true
  else c

/-- A metadata checkpoint commits (R392, R401): the seal that it leaves behind is stale, and the rows of that save are queued for erase. -/
def checkpoint (c : Chip) : Chip :=
  let rows := (c.insoleUsed.filter fun (y : Nat × MdeRow) => y.2.state == 2).map Prod.fst
  let c := { c with svc := { c.svc with durable := c.metaImage, checkpoint := c.svc.checkpoint + 1, saveRowsHeld := 0, journalTail := 0 } }
  rows.foldl (fun c r => let y := c.row r; c.setRow r { y with state := 3, todo := y.live }) c

/-- Memory_Active on a chip (R555): on every head, with Media Status Ready; waiting commits proceed (R76), and what was FRONT is queued again
(R405). -/
def activate (c : Chip) : Chip :=
  if c.memActive then c
  else
    let c := ((c.put F.RST_START_MEM_ACTIVE 1).put F.RST_ACTIVE_MS ((c.round - c.rst.releaseRound) / 250)).raise F.RST_EV_MEMORY_ACTIVE
    let c := (c.put F.SAV_SVC_STATE 2)
    let c := allHeads.foldl (fun c h => c.put (F.HLNK_LINK_MEM_ACTIVE h.val) 1) c
    let c := c.waitingCommits
    let c := c.svc.refill.foldl (fun c e => if (c.ext e).state = 1 then c.queueMig 4 e true else c) c
    { c with svc := { c.svc with refill := [] } }

end Chip

open Chip

/-! ## The commands -/

/-- HOLDUP_RISE (R384): a higher level has been shown for RISE_ROUNDS Rounds; the lowest seen in them is applied. -/
def execHoldupRise (w : Twin) (s : State) : Host.Outcome State Fault Refusal :=
  .next (s.onUp w fun c =>
    if c.running 0x0D0 && decide (c.svc.risingRun ≥ c.cfg F.GOV_HOLDUP_CFG_RISE_ROUNDS) && decide (c.svc.risingRun > 0) then
      { c with svc := { c.svc with risingRun := 0 } }.setHoldup c.svc.risingMin
    else c)

/-- PFAIL_N_FALL (R393): the fast interrupt of the SVC. -/
def execPfailNFall (w : Twin) (s : State) : Host.Outcome State Fault Refusal :=
  .next (s.mapChip w fun c =>
    if c.svc.pfailLow then c
    else if c.up then c.pfailFall else { c with svc := { c.svc with pfailLow := true } })

/-- PFAIL_COMMIT (R393 to R395, R406, R522): PFAIL_N has been low for 1 µs. A chip that serves or joins commits its save. One that is HELD,
STARTING, stepping up or still restoring saves nothing, and its power-down begins. -/
def execPfailCommit (w : Twin) (s : State) : Host.Outcome State Fault Refusal :=
  .next (s.mapChip w fun c =>
    if !c.svc.pfailLow || c.saveActive || decide (c.svcState ≥ 5) then c
    else if !c.up || c.mode == mHELD || c.mode == mSTARTING then
      (c.put F.SAV_SVC_STATE (if c.svcState = 1 then 0 else c.svcState)).startDown
    else if (c.mode == mISOLATED && c.twe.fromStarting) || ((c.mirrored || c.serving) && !c.memActive) then
      (c.put F.SAV_SVC_STATE 0).startDown
    else c.commitSave)

/-- PFAIL_N_RISE (R393): before the commit a glitch; after it nothing. -/
def execPfailNRise (w : Twin) (s : State) : Host.Outcome State Fault Refusal :=
  .next (s.mapChip w fun c =>
    if !c.svc.pfailLow then c
    else
      let glitch := c.up && !c.saveActive && decide (c.svcState < 5)
      let c := { c with svc := { c.svc with pfailLow := false } }
      if glitch then (c.cnt K.SAV_GLITCHES).raise F.SAV_EV_PFAIL_GLITCH else c)

/-- SAVE_DECISION (R394, R395): at step 4 the mode decides; a MIRRORED chip whose peer has not announced its save within two Rounds is alone
in its power failure. -/
def execSaveDecision (w : Twin) (s : State) : Host.Outcome State Fault Refusal :=
  .next (s.onUp w fun c =>
    match c.svcState == 3, c.svc.committed with
    | true, some r =>
      let inTime := match c.svc.peerStart with | some n => decide (n ≤ r + 2) | none => false
      { c with svc := { c.svc with decided := true, lone := c.mirrored && !inTime } }
    | _, _ => c)

/-- LONE_PFAIL (R394): the chip fail-stops as for a fault on a running rail, without a save; its power-down follows after FAULT_SHUT_US
(R522). -/
def execLonePfail (w : Twin) (s : State) : Host.Outcome State Fault Refusal :=
  .next (s.onUp w fun c =>
    if c.svcState == 3 && c.svc.decided && c.svc.lone then
      let c := c.raise F.SAV_EV_LONE_PFAIL
      let c := { c with svc := { c.svc with committed := none, decided := false }, psq := { c.psq with faultWait := true, afterFailstop := true } }
      (c.put F.SAV_SVC_STATE 0).failStop false
    else c)

/-- GRACE_EXPIRY (R395, R396): the hold, and the writing of the records from step 7. -/
def execGraceExpiry (w : Twin) (s : State) : Host.Outcome State Fault Refusal :=
  .next (s.onUp w fun c => if c.svcState == 3 && c.svc.decided && !c.svc.lone then c.holdPorts else c)

/-- SEALED (R398, R443, R522): both seal copies are programmed, `us` µs after the trigger; the power-down begins. A save waits for a PPR that runs to
end (R437). `tprogUs` is its longest program; `bad` are the lines that its reads found uncorrectable. -/
def execSaveSealed (w : Twin) (x : SealWork) (s : State) : Host.Outcome State Fault Refusal :=
  .next (s.onUp w fun c =>
    if c.svcState == 4 && (List.range 16).all fun d => c.get (F.DRF_PPR_STATUS_STATE d) == 0 then (c.sealSave x.us x.tprogUs x.bad).startDown else c)

/-- SAVE_FAILED (R399, R522): the save ends without a seal; the power-down begins. -/
def execSaveFailed (w : Twin) (s : State) : Host.Outcome State Fault Refusal :=
  .next (s.onUp w fun c => if c.saveActive then c.saveFail.startDown else c)

/-- CALIBRATION_DONE (R386, R400, R404 step 6): the rates, the fixed part of a save, the first budget and RESTORE_DONE; `ms` from the trigger of
the restore. -/
def execCalibrationDone (w : Twin) (rate tprogUs fixedUs ms : Nat) (s : State) : Host.Outcome State Fault Refusal :=
  .next (s.onUp w fun c =>
    if c.svc.calibrated || !(c.svc.dataLoaded || c.svc.source == 2) || c.saveActive then c
    else
      let c := { c with svc := { c.svc with calibrated := true, tprog := c.svc.tprog ++ [(c.clk.deliveryNo, tprogUs)] } }
      let c := ((c.calibrationWrites.put F.GOV_RATE_BUS_CAL_MBPS rate).put F.GOV_FIXED_MEAS_US fixedUs).showRate
      let c := if c.svc.source = 2 then c else (c.put F.SAV_LAST_RESTORE_MS ms).raise F.SAV_EV_RESTORE_DONE
      c.governJob.sendRestoreDone)

/-- The seal that a start finds (R401): the latest one, of which a copy is good, while it names the latest checkpoint; damaged where its record directory
or a record is. -/
def Chip.foundSeal (c : Chip) (copies : Nat) (damaged : Bool) : Option Seal :=
  match c.svc.sealRec with
  | some x => if x.checkpoint = c.svc.checkpoint ∧ c.svc.formattedNow = false ∧ copies % 4 ≠ 0 then some { x with damaged } else none
  | none => none

/-- Step 8 of R551 ends (R401): the latest seal is found current or not, damaged or not, with the parcels whose records cannot be read; the
summary goes to the twin once aligned. -/
def Chip.sealRead (c : Chip) (copies : Nat) (dir : Bool) (bad : List Nat) : Chip :=
  let damaged := dir || !bad.isEmpty
  let x := c.foundSeal copies damaged
  let kind := match x with | some y => y.kind | none => 0
  let fresh := c.svc.formattedNow
  let own : Summary := ⟨kind, damaged && kind != 0, if fresh then 0 else c.svc.epoch, (x.map Seal.round).getD 0, if fresh then 0 else c.svc.pairSerial, 0⟩
  let c := if fresh then c else c.showLastSave
  let c := { c with rst := { c.rst with step := 8 }, svc := { c.svc with sealRec := x, own := some own, badRecords := bad } }
  let c := ((c.put F.SAV_SVC_SEAL_KIND kind).put F.SAV_SVC_SEAL_DAMAGED (bit own.damaged)).put F.SAV_SVC_STATE 1
  c.sendSummary

/-- SEAL_READ_DONE (R401): the seal copies are read, after DRAM training. Bit k of `copies` is 1 where the CRC of copy k is good; `damaged`: the record
directory fails its CRC; `bad`: the parcels of the records that fail theirs. -/
def execSealReadDone (w : Twin) (copies : SealCopies) (bad : List Nat) (s : State) : Host.Outcome State Fault Refusal :=
  .next (s.onUp w fun c => if c.rst.step ≠ 7 || !c.mde.formatted then c else c.sealRead copies.count copies.damaged bad)

/-- FORMAT_DONE (R344, R551 step 8, R552): the format of blank or foreign media ends; in step 8 it stands in place of the read of the seal. -/
def execFormatDone (w : Twin) (x : MediaScan) (s : State) : Host.Outcome State Fault Refusal :=
  .next (s.onUp w fun c =>
    if c.get F.MDE_MODE ≠ 1 then c
    else if c.rst.step = 7 then (c.formatted x).sealRead 0 false []
    else c.formatted x)

/-- What both summaries decide for a chip (R402, R552, R553). -/
def Chip.chooseSource (c : Chip) (own peer : Summary) (key : Option (BitVec 512)) : Chip :=
  let differ := own.serial != peer.serial && own.serial != 0 && peer.serial != 0
  let c := if differ then c.raise F.RST_EV_PAIR_MISMATCH else c
  let c := { c with rst := { c.rst with step := 9 } }
  if own.serial = 0 ∧ peer.serial = 0 then
    ((c.formPair (if c.twin = .A then c.rst.chipSerial else c.svc.pairSerial) (if c.twin = .A then key else none)).setMode mMIRRORED).takeRoles
  else
    let a := summaryOf c.twin differ own
    let b := summaryOf c.twin.other differ peer
    let n := sourceOf c.twin a b
    let m := sourceOf c.twin.other b a
    let c := c.setSource n
    if n = 1 ∧ m = 1 then (c.setMode mMIRRORED).takeRoles
    else if n = 2 then c
    else c.startAlone

/-- Whether the other chip's last frame says that it serves without this one (R161). -/
def Chip.peerAlone (c : Chip) : Bool :=
  match c.twe.peerFrame with | some f => f.mode == mALONE || f.mode == mSOLO | none => false

/-- A chip that finds the other serving joins it as the older copy (R161, R553). -/
def Chip.joinServing (c : Chip) : Chip :=
  let c := { c with rst := { c.rst with step := 9 } }
  (c.setSource 2).startJoin

/-- Whether both summaries have been exchanged long enough for both chips to choose (R402). -/
def Chip.choosesNow (c : Chip) (own peer : Summary) : Bool :=
  c.svc.source = 0 && c.rst.step = 8 && c.svc.summarySent && decide (c.round ≥ max own.sent peer.sent + 2)

/-- The choice between two summaries, a new pair keeping the serial number that both chips heard. -/
def Chip.chooseFor (own peer : Summary) (forms : Bool) (serial : Nat) (key : BitVec 512) (c : Chip) : Chip :=
  let c := c.chooseSource own peer (some key)
  if forms then { c with svc := { c.svc with pairSerial := serial } } else c

/-- The choice of chip `w`, which has its own summary and the other's. -/
def State.sourceChosen (s : State) (w : Twin) (own peer : Summary) : State :=
  let forms : Bool := own.serial = 0 && peer.serial = 0
  let serial := if w = .A then (s.chip w).rst.chipSerial else (s.chip .A).rst.chipSerial
  let u := if forms && w == .A then s.nextFree.2 else s
  u.mapChip w (Chip.chooseFor own peer forms serial (Config.drbg s.nextFree.1))

/-- What chip `w` does once it has its own summary. -/
def State.sourceChoice (s : State) (w : Twin) (own : Summary) : State :=
  if (s.chip w).peerAlone then s.mapChip w Chip.joinServing
  else match (s.chip w).svc.peer with
    | some p => if (s.chip w).choosesNow own p then s.sourceChosen w own p else s
    | none => s

/-- SOURCE_CHOICE (R402, R551 step 9, R553): two Rounds after the later of the two summaries was sent, the chip takes its source and its pair
mode. A chip whose twin already serves alone joins it (R161). -/
def execSourceChoice (w : Twin) (s : State) : Host.Outcome State Fault Refusal :=
  .next (if (s.chip w).up && (s.chip w).mode == mSTARTING && (s.chip w).aligned then
    match (s.chip w).svc.own with
    | some own => s.sourceChoice w own
    | none => s
  else s)

/-- METADATA_LOAD_DONE (R404 step 3, R601): the maps are rebuilt and the pair-scope settings loaded; a pair that formed in this start has empty
maps and writes its first checkpoint. -/
def execMetadataLoadDone (w : Twin) (s : State) : Host.Outcome State Fault Refusal :=
  .next (s.onUp w fun c =>
    if c.svc.mapsLoaded || decide (c.rst.step < 9) || c.saveActive then c
    else if c.svc.formedNow then { c with svc := { c.svc with mapsLoaded := true } }.checkpoint
    else if c.svc.source = 2 then
      (match c.svc.sealRec with
       | some x => if x.damaged then c else c.loadMeta
       | none => c)
    else c.loadMeta)

/-- RESTORE_LOAD_DONE (R404 steps 4 and 5, R405): the saved records and the restored frames are loaded. -/
def execRestoreLoadDone (w : Twin) (s : State) : Host.Outcome State Fault Refusal :=
  .next (s.onUp w fun c =>
    if !c.svc.mapsLoaded || c.svc.dataLoaded || c.saveActive then c
    else if c.svc.formedNow then { c with svc := { c.svc with dataLoaded := true } }
    else c.loadData)

/-- CHECKPOINT_COMMIT (R392, R404 step 7): a checkpoint commits, and the rows of the last save are queued for erase. -/
def execCheckpointCommit (w : Twin) (s : State) : Host.Outcome State Fault Refusal :=
  .next (s.onUp w fun c => if c.svc.mapsLoaded && c.memActive && !c.saveActive then c.checkpoint else c)

/-- The chips whose RESTORE_DONE Memory_Active waits for (R555). -/
def State.restored (s : State) : Bool :=
  let done (w : Twin) : Bool := match (s.chip w).svc.activeDue with
    | some r => decide ((s.chip w).round > r) && (s.chip w).svc.restoreApplied.contains w
    | none => false
  if s.a.up && s.b.up && s.a.mirrored && s.b.mirrored then
    done .A && done .B && s.a.svc.restoreApplied.contains .B && s.b.svc.restoreApplied.contains .A
  else (s.a.up && s.a.serving && done .A) || (s.b.up && s.b.serving && done .B)

/-- MEMORY_ACTIVE (R555): Memory_Active becomes 1 on every head, on each chip that serves, at the Round after the RESTORE_DONE effects. -/
def execMemoryActive (s : State) : Host.Outcome State Fault Refusal :=
  .next (if s.restored then
    let go (c : Chip) : Chip := if c.up && (c.mirrored || c.serving) then c.activate else c
    (s.mapChip .A go).mapChip .B go
  else s)

end Sys2Proof.Machine
end

