-- ==== Sys2Proof/Machine/CoreMem.lean ====
section
/-! DEFINITION. The memory instructions of the control cores that the spec gives: LR, SC and the AMOs, and DCFLUSH (R478, R480 to R483). -/
namespace Sys2Proof.Machine

/-- Where a core's address lies, for the accesses of R481: the local memory of a logical core, or chip-local DRAM, cached or not. -/
inductive CorePlace where
  | localMem (n off : Nat)
  | dram (x : Nat) (cached : Bool)
  deriving DecidableEq, Repr

namespace Chip

/-- DRAM fitted: the bytes that every rank in service holds. -/
def coreDramEnd (c : Chip) : Nat := (List.range 16).foldl (fun a d => a + c.rankCount d * c.rankBytes d) 0

/-- Whether a chip-local DRAM address lies in a region that a cached access may not reach (R480): those of R264 and R356. -/
def cachedBarred (c : Chip) (x : Nat) : Bool :=
  match c.layoutOf x with
  | some o => decide (o < c.regionBase 10) || (decide (c.regionBase 11 ≤ o) && decide (o < c.regionBase 15))
  | none => false

/-- The place of an access of `bytes` bytes by a logical core (R480, R481); none where it faults. -/
def corePlace (c : Chip) (n : Nat) (machine : Bool) (addr bytes : Nat) : Option CorePlace :=
  if 0x08000000 ≤ addr ∧ addr + bytes ≤ 0x08040000 then some (.localMem n (addr - 0x08000000))
  else if !machine then none
  else if 0x09000000 ≤ addr ∧ addr + bytes ≤ 0x09200000 then some (.localMem ((addr - 0x09000000) / 0x40000) ((addr - 0x09000000) % 0x40000))
  else if 0x080000000000 ≤ addr ∧ addr + bytes ≤ 0x080000000000 + c.coreDramEnd then
    (let x := addr - 0x080000000000
     if c.cachedBarred x then none else some (.dram x true))
  else if 0x100000000000 ≤ addr ∧ addr + bytes ≤ 0x100000000000 + c.coreDramEnd then some (.dram (addr - 0x100000000000) false)
  else none


/-- A byte of chip-local DRAM. -/
def dramByte (c : Chip) (x : Nat) : Byte :=
  match c.dpaAt x with
  | some a => Table.get zeroByte c.trm.front a
  | none => Table.get zeroByte c.dram x

/-- The chip with a byte of DRAM written. -/
def setDramByte (c : Chip) (x : Nat) (b : Byte) : Chip :=
  match c.dpaAt x with
  | some a => { c with trm := { c.trm with front := Table.set zeroByte c.trm.front a b } }
  | none => { c with dram := Table.set zeroByte c.dram x b }

/-- A byte as a core sees it at a place. -/
def coreByte (c : Chip) (n : Nat) (p : CorePlace) (i : Nat) : Byte :=
  match p with
  | .localMem m off => Table.get zeroByte (c.core m).scratch (off + i)
  | .dram x true => ((c.core n).cache.get (fun _ => none) (x + i)).getD (c.dramByte (x + i))
  | .dram x false => c.dramByte (x + i)

/-- The chip with a byte written by a core at a place: in its data cache, in the cached window. -/
def setCoreByte (c : Chip) (n : Nat) (p : CorePlace) (i : Nat) (b : Byte) : Chip :=
  match p with
  | .localMem m off => c.mapCore m fun x => { x with scratch := Table.set zeroByte x.scratch (off + i) b }
  | .dram x true => c.mapCore n fun y => { y with cache := y.cache.set (fun _ => none) (x + i) (some b) }
  | .dram x false => c.setDramByte (x + i) b

/-- The value of some bytes at a place, little-endian. -/
def coreLoad (c : Chip) (n : Nat) (p : CorePlace) (bytes : Nat) : Nat :=
  (List.range bytes).foldl (fun a i => a + (c.coreByte n p i).toNat * 2 ^ (8 * i)) 0

/-- The line that a reservation of a place covers: a line of DRAM, or of a logical core's local memory above the DRAM lines. -/
def reserveLine (p : CorePlace) : Nat :=
  match p with
  | .localMem m off => 2 ^ 48 + m * 0x40000 + off / 64 * 64
  | .dram x _ => x / 64 * 64

/-- A core stores a value at a place; the reservations that other cores hold of its line are cleared (R481). -/
def coreStore (c : Chip) (n : Nat) (p : CorePlace) (bytes v : Nat) : Chip :=
  let c := (List.range bytes).foldl (fun c i => c.setCoreByte n p i (BitVec.ofNat 8 (v / 2 ^ (8 * i)))) c
  (List.range 8).foldl (fun c m => if m ≠ n ∧ (c.core m).reservation = some (reserveLine p) then
    c.mapCore m fun x => { x with reservation := none } else c) c

/-- A register of a logical core, in the bank in use (R483); x0 reads 0. -/
def coreReg (c : Chip) (n r : Nat) : BitVec 64 :=
  let x := c.core n
  if r = 0 then 0 else if x.inFast then x.shadow.get (fun _ => 0) r else x.x.get (fun _ => 0) r

/-- A register written, in the bank in use; a write to x0 is discarded. -/
def setCoreReg (c : Chip) (n r : Nat) (v : BitVec 64) : Chip :=
  if r = 0 then c
  else c.mapCore n fun x =>
    if x.inFast then { x with shadow := x.shadow.set (fun _ => 0) r v } else { x with x := x.x.set (fun _ => 0) r v }

/-- A core takes an exception: to mtvec in machine mode, with mepc, mcause and mstatus written as RISC-V has it (PRESUMED); one taken while
IN_FAST is 1 resets the core and counts as an expiry (R483). -/
def coreTrap (c : Chip) (n cause : Nat) : Chip :=
  let x := c.core n
  if x.inFast then c.coreExpiry n
  else
    let st := x.mstatus
    let mie := (st >>> 3) &&& 1
    let mpp : BitVec 64 := if x.machine then 3 else 1
    let st := (st &&& ~~~(0x1888 : BitVec 64)) ||| (mie <<< 7) ||| (mpp <<< 11)
    c.mapCore n fun x => { x with
      mepc := x.pc
      mcause := BitVec.ofNat 64 cause
      mstatus := st
      machine := true
      pc := x.mtvec &&& ~~~(3 : BitVec 64) }

/-- The width in bits of an operation. -/
def atomicBits (wide : Bool) : Nat := if wide then 64 else 32

/-- A value read as two's complement. -/
def signedOf (bits v : Nat) : Int := if v < 2 ^ (bits - 1) then (v : Int) else (v : Int) - (2 ^ bits : Nat)

/-- What an AMO stores, from the old value and the register operand. -/
def atomicResult (op : AtomicOp) (bits old v : Nat) : Nat :=
  match op with
  | .lr | .sc | .swap => v
  | .add => (old + v) % 2 ^ bits
  | .xor => old ^^^ v
  | .and' => old &&& v
  | .or' => old ||| v
  | .min => if signedOf bits old ≤ signedOf bits v then old else v
  | .max => if signedOf bits old ≥ signedOf bits v then old else v
  | .minu => min old v
  | .maxu => max old v

/-- A value as the destination register takes it: a word sign-extended. -/
def widen (bits v : Nat) : BitVec 64 := BitVec.ofInt 64 (signedOf bits v)

/-- An uncached access of a core to DRAM is one of the CORE client (R430): so many lines. -/
def coreOwes (c : Chip) (p : CorePlace) (lines : Nat) : Chip :=
  match p with
  | .dram x false => c.oweLines .core (c.place x).ch lines
  | _ => c

/-- An LR, SC or AMO that its place allows (R481). -/
def atomicAt (c : Chip) (n : Nat) (op : AtomicOp) (p : CorePlace) (rd : Nat) (v bits : Nat) : Chip :=
  let old := c.coreLoad n p (bits / 8)
  match op with
  | .lr => ((c.coreOwes p 2).setCoreReg n rd (widen bits old)).mapCore n fun x => { x with reservation := some (reserveLine p) }
  | .sc =>
    let ok := (c.core n).reservation == some (reserveLine p)
    let c := c.mapCore n fun x => { x with reservation := none }
    if ok then ((c.coreOwes p 4).coreStore n p (bits / 8) v).setCoreReg n rd 0 else c.setCoreReg n rd 1
  | op => ((c.coreOwes p 6).coreStore n p (bits / 8) (atomicResult op bits old v)).setCoreReg n rd (widen bits old)

end Chip

open Chip

/-! ## The commands -/

/-- LR_SC_AMO (R480, R481): the instruction is carried out on local memory and on the DRAM windows, and the pc moves on; anywhere else, and
where it is not aligned, the core takes the exception. -/
def execLrScAmo (w : Twin) (n : Fin 8) (op : AtomicOp) (addr : Nat) (rd : Fin 32) (data : BitVec 64) (wide : Bool) (s : State) :
    Host.Outcome State Fault Refusal :=
  .next (s.onUp w fun c =>
    let x := c.core n.val
    let bits := atomicBits wide
    if !x.running || x.asleep then c
    else if addr % (bits / 8) ≠ 0 then c.coreTrap n.val (if op = .lr then 4 else 6)
    else match c.corePlace n.val x.machine addr (bits / 8) with
      | none => c.coreTrap n.val (if op = .lr then 5 else 7)
      | some p => (c.atomicAt n.val op p rd.val (data.toNat % 2 ^ bits) bits).mapCore n.val fun x => { x with pc := x.pc + 4 })

/-- DCFLUSH (R482): the data cache cleans and invalidates the 64 B line of an address; the CSR holds the address, and the pc moves on. In supervisor
mode the write of a machine CSR is an illegal instruction (PRESUMED: RISC-V). -/
def execDcflush (w : Twin) (n : Fin 8) (addr : Nat) (s : State) : Host.Outcome State Fault Refusal :=
  .next (s.onUp w fun c =>
    let x := c.core n.val
    if !x.running || x.asleep then c
    else if !x.machine then c.coreTrap n.val 2
    else
      let c := match c.corePlace n.val true addr 1 with
        | some (.dram a true) =>
          let line := a / 64 * 64
          let mine : List (Nat × Option Byte) := x.cache.entries fun k => decide (line ≤ k) && decide (k < line + 64)
          let c := if mine.isEmpty then c else c.oweLines .core (c.place line).ch 4
          let c := mine.foldl (fun (c : Chip) (e : Nat × Option Byte) => match e.2 with | some b => c.setDramByte e.1 b | none => c) c
          c.mapCore n.val fun y => { y with cache := y.cache.clear fun k => decide (line ≤ k) && decide (k < line + 64) }
        | _ => c
      c.mapCore n.val fun x => { x with dcflush := BitVec.ofNat 64 addr, pc := x.pc + 4 })

end Sys2Proof.Machine
end

