-- ==== Sys2Proof/Machine/Security.lean ====
section
/-! DEFINITION. Resets and the boot ROM, attestation and link keys, fuses, crypto-erase, and the TAP (R548 to R578, R451, R452, R486,
R488). -/
namespace Sys2Proof.Machine

/-- The causes of LAST_CAUSE (R573): 0 always-on power-up, 1 power-on, 2 RESET_N, 3 warm, 4 fence. -/
abbrev causePowerOn : Nat := 1
abbrev causeResetN : Nat := 2
abbrev causeWarm : Nat := 3
abbrev causeFence : Nat := 4

namespace Chip

/-! ## What a reset keeps (R549) -/

/-- The fields outside the sequencer's pages that the always-on domain, the media or a pin hold through a reset. -/
def keptFields (cause : Nat) : List Fld :=
  (if cause = causeResetN then [] else [F.ROLE_FAILSTOP_COUNT]) ++
  [F.THM_TRIPPED, F.THM_TJ_AVG_X10, F.SLF_SELFTEST_FAIL, F.RST_BOOT_FAIL, F.EFC_ACTIVE_SLOT] ++
    (List.range 8).map fun m => F.MOD_MODULE_PRESENT m

/-- The register words that stay: the PSQ pages and the counts of core resets. -/
def keptWord (k : Nat) : Bool := k / 4096 == 0x140 || k / 4096 == 0x141 || k == 0x120 * 4096 + 0x824

/-- What the media hold of the media engine's state. -/
def keptMedia (m : Mde) : Mde := { m with
  staged := []
  direct := []
  merges := []
  moves := []
  patchBorn := []
  weakBlocks := []
  ueBlocks := []
  wafHistory := []
  scrubPos := 0
  hostDerived := 0 }

/-- What the media hold of the save controller's state; a save that a reset ends has no seal (R550). -/
def keptSvc (c : Chip) : Svc :=
  let x := c.svc
  { sealRec := if c.saveActive then none else x.sealRec
    saved := x.saved
    durable := x.durable
    checkpoint := x.checkpoint
    pairSerial := x.pairSerial
    epoch := x.epoch
    saveRateCap := x.saveRateCap
    pfailLow := x.pfailLow
    saveRowsHeld := x.saveRowsHeld
    insoleAt := x.insoleAt
    lastSave := x.lastSave
    tprog := if c.saveActive || x.sealRec.isNone then [] else [(0, x.tprog.foldl (fun a y => max a y.2) 0)] }

/-- The Spare Ledger (R465), without what a start begins afresh. -/
def keptLedger (x : Cbl) : Cbl := { x with
  windowLeft := 1000
  retireJobs := []
  bankMigrating := []
  leftOut := []
  bankCe := []
  laneOver := []
  pprWait := [] }

/-- The heads that PERST_N holds (R585): the level of the pin outlives a reset. -/
def heldHeads (c : Chip) : Table Head := (c.heads.filter fun x => x.2.inReset).map fun x => (x.1, { inReset := true })

/-- A chip in reset (R549): every page, core, queue and SRAM at its reset value; the always-on state, fuses, stores, back tier and Ledger
kept; DRAM content not used again. -/
def inReset (c : Chip) (cause : Nat) : Chip :=
  let n : Chip := {
    regs := c.regs.filter fun x => keptWord x.1
    applied := c.applied.filter fun x => keptWord x.1
    live := c.live.filter fun x => x.1 / 128 == 0x140 || x.1 / 128 == 0x141
    heads := c.heldHeads
    answers := c.answers
    mctpOut := c.mctpOut
    trm := { packed := c.trm.packed, packedPoison := c.trm.packedPoison }
    mde := keptMedia c.mde
    svc := c.keptSvc
    cbl := keptLedger c.cbl
    efc := cutShort c.efc
    wdt := { resets := c.wdt.resets, chipKick := c.aonNow }
    psq := { c.psq with base := c.aonNow }
    thm := { trip := c.thm.trip, avgSum := c.thm.avgSum, avgCount := c.thm.avgCount }
    rst := { c.rst with step := 0, releaseRound := 0 }
    sec := { c.sec with keys := [], erasing := [], ideSets := [] }
    tap := c.tap }
  let n := (keptFields cause).foldl (fun n f => n.put f (c.get f)) n
  if cause = causeResetN then { n with psq := { n.psq with failRounds := [] } }.put F.PSQ_PSQ_UP_HELD 0 else n

/-! ## The boot ROM (R451, R452, R486, R488, R551) -/

/-- The fuses are read and debug access set (R551, step 2). -/
def showFuses (c : Chip) : Chip :=
  let x := c.sec
  let c := (((c.put F.BOOT_FUSE_SB_EN (bit x.sbEn)).put F.BOOT_FUSE_KEY_S_OFF (bit x.keySOff)).put F.BOOT_FUSE_KEY_O_SET (bit x.keyOSet)).put
    F.BOOT_FUSE_FIELD_CLOSED (bit x.fieldClosed)
  let c := c.put F.BOOT_FUSE_SVN x.svn
  let word (t : Table Word) (w : Nat) : Nat := (t.get (fun _ => 0) w).toNat
  let c := (List.range 12).foldl (fun c w => (c.put (F.BOOT_KEY_HASH_S w) (word x.keyHashS w)).put (F.BOOT_KEY_HASH_O w) (word x.keyHashO w)) c
  let c := { c with tap := { c.tap with closed := c.tap.closed || x.fieldClosed } }
  c.put F.DBG_DBG_STATE_OPEN (bit !c.tap.closed)

/-- The spares that the Ledger leaves (R465): ways, banks and CC8 replaced at earlier starts. -/
def showSpares (c : Chip) : Chip :=
  let on := (List.range 16).filter fun v => !c.cbl.retiredWays.contains v
  let extra := ((List.range 18).drop 16).filter fun v => !c.cbl.retiredWays.contains v && !c.cbl.failedSpares.testBit (v - 16)
  let used := extra.take (16 - on.length)
  let c := (c.put F.MDC_WAYS_ENABLED ((on ++ used).foldl (fun a v => a + 2 ^ v) 0)).put F.MDC_WAYS_DISABLED
    (c.cbl.retiredWays.foldl (fun a v => a ||| 2 ^ v) 0)
  let c := (c.put F.CBO_MDC_WAYS_LEFT (extra.length - used.length)).put F.CBO_DIR_BANKS_LEFT (bit c.spareBank)
  c.put F.CBO_CORES_LEFT (if c.cbl.coreSwap.isSome || c.cbl.failedSpares.testBit 16 then 0 else 1)

/-- A spare unit in which an error is found is marked FAILED in the Ledger, and never drawn (R450, R476). -/
def failSpare (c : Chip) (n : Nat) : Chip := { c with cbl := { c.cbl with failedSpares := c.cbl.failedSpares ||| 2 ^ n } }

/-- The spare ways not drawn and not found faulty. -/
def spareWays (c : Chip) : List Nat :=
  (List.range 18).filter fun k => !(c.get F.MDC_WAYS_ENABLED).testBit k && !(c.get F.MDC_WAYS_DISABLED).testBit k &&
    !c.cbl.failedSpares.testBit (k - 16)

/-- A unit whose checker failed is retired and its spare drawn before start-up goes on; a spare itself is marked FAILED. A unit with no spare left
fail-stops the chip, as any other failure does (R452). -/
def drawUnit (c : Chip) (u : SpareUnit) : Chip :=
  match u with
  | .mdcWay v =>
    if c.cbl.retiredWays.contains v.val then c
    else if c.spareWays.contains v.val then (c.failSpare (v.val - 16)).showSpares
    else if c.spareWays.isEmpty then c.failStop false
    else
      let last := decide (c.spareWays.length = 1)
      ({ c with cbl := { c.cbl with retiredWays := insertN c.cbl.retiredWays v.val } }.drew 8 (sramLocation 3 v.val 0) last).showSpares
  | .dirBank b =>
    if c.cbl.retiredBanks.contains b.val then c
    else if b.val = 16 && c.cbl.retiredBanks.isEmpty then (c.failSpare 8).showSpares
    else if !c.spareBank then c.failStop false
    else ({ c with cbl := { c.cbl with retiredBanks := insertN c.cbl.retiredBanks b.val } }.drew 9 (sramLocation 5 b.val 0) true).showSpares
  | .core n =>
    if n.val = 8 && c.cbl.coreSwap.isNone then (c.failSpare 16).showSpares
    else if c.cbl.coreSwap == some n.val then c
    else if c.cbl.coreSwap.isSome || c.cbl.failedSpares.testBit 16 then c.failStop false
    else ({ c with cbl := { c.cbl with coreSwap := some n.val } }.drew 12 (sramLocation 9 n.val 0) true).showSpares

/-- The self-test of R451: PASS and FAIL by class; a failure in a unit with a spare draws it, and any other fail-stops the chip (R452). -/
def selfTest (c : Chip) (x : BootReport) : Chip :=
  let c := ((c.put F.SLF_SELFTEST_PASS (127 - x.failed.toNat)).put F.SLF_SELFTEST_FAIL x.failed.toNat).put F.SLF_SELFTEST_US x.testUs.toNat
  if x.failed = 0 then c
  else
    let c := ((c.put F.SLF_SELFTEST_FIRST_INST x.firstInst.toNat).raise F.RAS_EV_SELFTEST_FAIL).dlo 0x0D 0 7 0 0 x.firstInst.toNat
    match x.spareUnit with
    | some u => c.drawUnit u
    | none => c.failStop false

/-- Erases that were cut short are done afresh (R488). -/
def redoErases (c : Chip) : Chip :=
  let l := c.efc.flags
  if l.isEmpty then c
  else ((l.foldl (fun c k => (c.blankSector k).clearFlag k) c).put F.EFC_RECOVERED_SECTORS l.length).raise F.EFC_EV_ERASE_RECOVERED

/-- Bytes of the image header of a slot (R558). -/
def headerBytes (c : Chip) (slot off n : Nat) : List Nat := c.flashBytes (slot * bankSize + off) n

/-- A little-endian field of the image header of a slot. -/
def headerField (c : Chip) (slot off n : Nat) : Nat := ofLeBytes (c.headerBytes slot off n)

/-- The body length that the header gives, and the body. -/
def bodyLength (c : Chip) (slot : Nat) : Nat := c.headerField slot 12 4
def imageBody (c : Chip) (slot : Nat) : List Nat := c.flashBytes (slot * bankSize + 256) (c.bodyLength slot)

/-- Whether the magic and the body hash of a slot are good (R558, R559), the body within its 3.5 MiB less the header and none of it unreadable. -/
def bodyGood (c : Chip) (slot : Nat) : Bool :=
  c.headerField slot 0 4 == 0x53484B31 && decide (c.bodyLength slot ≤ 3669760) &&
  c.efc.cut.all (fun k => decide (k < slot * bankSize) || decide (slot * bankSize + 256 + c.bodyLength slot ≤ k)) &&
  sha384 (c.imageBody slot) == c.headerBytes slot 16 48

/-- The bytes of a key hash in fuses, word 0 first, each little-endian. -/
def hashFuses (t : Table Word) : List Nat := (List.range 12).flatMap fun w => leBytes 4 (t.get (fun _ => 0) w).toNat

/-- Whether the fuses name the key of a slot's header (R559). -/
def keyKnown (c : Chip) (slot : Nat) : Bool :=
  let h := sha384 (c.headerBytes slot 64 96)
  (!c.sec.keySOff && h == hashFuses c.sec.keyHashS) || (c.sec.keyOSet && h == hashFuses c.sec.keyHashO)

/-- Whether the signature of a slot verifies under the header's key (R558, R559). -/
def signatureGood (c : Chip) (slot : Nat) : Bool :=
  Config.verifies (c.headerBytes slot 64 96) (c.headerBytes slot 160 96) (c.headerBytes slot 0 160)

/-- SVN of a slot's header: 0 to 64. -/
def headerSvn (c : Chip) (slot : Nat) : Nat := min 64 (c.headerField slot 8 4)

/-- Whether a slot passes the image check (R559). -/
def slotPasses (c : Chip) (slot : Nat) : Bool :=
  c.bodyGood slot && (!c.sec.sbEn || (c.signatureGood slot && c.keyKnown slot && decide (c.headerSvn slot ≥ c.sec.svn)))

/-- The slot is chosen and checked (R486, R559, R560): by the pointer at a cold start, else the one held in ACTIVE_SLOT; the other slot boots
where it fails, and BOOT_FAIL is recorded, with a fail-stop, where both do. True where firmware is entered. -/
def chooseSlot (c : Chip) (cold : Bool) : Chip × Bool :=
  let c := c.showPointer
  let want := if cold then (match c.latestPointer with | some (_, slot) => slot | none => 0) else c.rst.activeSlot
  let other := 1 - want
  let take (c : Chip) (slot : Nat) : Chip :=
    let svn := c.headerSvn slot
    ({ c with rst := { c.rst with activeSlot := slot, imageSvn := svn } }.put F.EFC_ACTIVE_SLOT slot).put F.BOOT_IMAGE_SVN svn
  let failed (c : Chip) (b : Bool) : Chip := { c with rst := { c.rst with bootFailed := b } }
  if c.slotPasses want then (failed (take c want) false, true)
  else if c.slotPasses other then (failed ((take c other).raise F.EFC_EV_SLOT_FALLBACK) false, true)
  else (((failed c true).put F.RST_BOOT_FAIL 1).failStop false, false)

/-- The logical cores begin at the boot ROM (R479): core 0, then those that firmware releases. -/
def startCores (c : Chip) : Chip :=
  (List.range 8).foldl (fun c n => c.mapCore n fun x => { x with
    phys := if c.cbl.coreSwap = some n then 8 else n
    running := !c.cbl.coreRetired.contains n }) c

/-- LAST_CAUSE (R573): the power-on reset that follows an always-on power-up reads 0 (DEDUCED, log 116). -/
def causeShown (c : Chip) (cause : Nat) : Nat := if cause == causePowerOn && c.rst.aonUp then 0 else cause

/-- Start-up from the release of a reset to the entry of firmware (R551, steps 1 to 6); BOOT_FAIL is that of the start before it. A fail-stop
limit that is reached keeps the chip in HELD after a warm or fence reset (R190). SMB_ADDR is sampled at a power-on reset and RESET_N (R583). -/
def boot (c : Chip) (cause : Nat) (x : BootReport) : Chip :=
  let c := { c with rst := { c.rst with
    powered := true
    aonUp := false
    smbAddr := if cause == causePowerOn || cause == causeResetN then x.smbAddr.val else c.rst.smbAddr
    step := 1 } }.put F.RST_LAST_CAUSE (c.causeShown cause)
  let c := (c.put F.RST_BOOT_FAIL (bit c.rst.bootFailed)).showFuses.showSpares
  let c := (c.put F.ROLE_PAIR_EPOCH_LO c.svc.epoch).put F.ROLE_PAIR_EPOCH_HI (c.svc.epoch / 2 ^ 32)
  let c := { c with twe := { c.twe with speakerState := c.svc.durable.speaker }, trm := { c.trm with leaked := [] } }
  let cold := cause == causePowerOn || cause == causeResetN
  let c := if cold then c.selfTest x else c
  let c := c.redoErases
  let r := c.chooseSlot cold
  let c := r.1
  if !r.2 || c.mode == mHELD then c
  else
    let c := (c.put F.RST_FW_ENTRY_US x.entryUs.toNat).startCores
    let c := { c with rst := { c.rst with step := 6 } }.put F.CXK_LINK_STATE 1
    let c := if x.blankMedia || !c.mde.formatted then c.put F.MDE_MODE 1 else c.showMount
    if !cold && c.failHeld then c.setMode mHELD else c

/-- The report of a start for which nothing new is found: the media are those the chip knows. -/
def plainReport (c : Chip) : BootReport := {
  failed := 0
  spareUnit := none
  firstInst := 0
  smbAddr := Fin.ofNat 8 c.rst.smbAddr
  blankMedia := false
  testUs := 0
  entryUs := 0 }

/-! ## Attestation (R562, R563) -/

/-- The certificate chain of a slot. -/
def chainOf (c : Chip) (slot : Nat) : List Byte := if slot = 0 then Config.chain c.svc.pairSerial else c.sec.certificate

/-- A digest as a number. -/
def digestOf (i : Nat) (content : List Nat) : Nat := (Config.digest i content).toNat

/-- The SHA-384 digest of bytes, as a number, its first byte the most significant (R563). -/
def shaOf (bytes : List Nat) : Nat := (sha384 bytes).foldl (fun a b => a * 256 + b) 0

/-- The measurement of a chip's booted slot (R563): its header and body. -/
def slotMeasure (c : Chip) : Nat := shaOf (c.headerBytes c.rst.activeSlot 0 256 ++ c.imageBody c.rst.activeSlot)

/-- The fuse state of measurement 4. -/
def fuseContent (c : Chip) : List Nat :=
  [bit c.sec.sbEn, bit c.sec.keySOff, bit c.sec.keyOSet, c.sec.svn, bit c.sec.fieldClosed] ++
    (List.range 12).map (fun w => (c.sec.keyHashS.get (fun _ => 0) w).toNat) ++
    (List.range 12).map fun w => (c.sec.keyHashO.get (fun _ => 0) w).toNat

/-- An SPDM request is counted, and answered: error `unexpected` (4) before the responder has negotiated as far as it needs (PRESUMED:
SPDM). -/
def spdm (c : Chip) (h : Fin 24) (needs : Nat) (f : Chip → Chip) : Chip :=
  let c := c.cnt K.SES_SPDM_REQUESTS
  if (c.head h).spdm < needs then c.setDoe h { code := 4 } else f c

/-- An SPDM request whose answer follows a gated effect (R562, R564): the object is in transfer until both twins have applied it. -/
def spdmEffect (c : Chip) (h : Fin 24) (e : Effect) : Chip :=
  (c.mapHead h fun x => { x with doeReply := {}, doeWait := true, doeError := false }).postEffect e true

/-- An SPDM request of a session (PRESUMED: SPDM's error 2 where there is none of that number). -/
def inSession (c : Chip) (h : Fin 24) (id : Nat) (f : Chip → Chip) : Chip :=
  if (c.head h).sessions.contains id then f c else c.setDoe h { code := 2 }

/-! ## The TAP (R569 to R571) -/

/-- The instructions that field close turns into BYPASS. -/
def closedCodes : List Nat := [3, 4, 8, 9, 0x20, 0x21, 0x22]

/-- The instructions that take the boundary cells over (R571). -/
def boundaryCodes : List Nat := [0, 3, 4, 8, 9]

/-- The instruction that a code loads as. -/
def tapCode (c : Chip) (code : Nat) : Nat :=
  let owns := allPorts.any fun p => c.ownOut p
  if c.tap.closed && closedCodes.contains code then 0xFF
  else if boundaryCodes.contains code && (owns || !(c.svcState == 0 || c.svcState == 2)) then 0xFF
  else if [0, 1, 2, 3, 4, 8, 9, 0x20, 0x21, 0x22].contains code then code else 0xFF

/-- An instruction is loaded: OVERRIDE stops driving with any other; an instruction that takes the boundary over puts the chip in reset until
RESET_N, a power-on reset or a fence release. -/
def tapLoad (c : Chip) (code : Nat) : Chip :=
  let n := c.tapCode code
  let c := { c with tap := { c.tap with instr := n, own := if n = 0x22 then c.tap.own else none } }
  let c := if boundaryCodes.contains n && !c.rst.extested then
    let c := c.inReset (c.get F.RST_LAST_CAUSE)
    { c with rst := { c.rst with extested := true } } else c
  (c.put F.DBG_DBG_STATE_TAP_ACTIVE (bit (n != 2 && n != 0xFF))).put F.DBG_DBG_STATE_OVERRIDE (bit c.tap.own.isSome)

end Chip

open Chip

namespace State

/-- The interlock inputs of a chip, as its pins show them when it leaves reset (R182, R184). -/
def samplePins (s : State) (w : Twin) : State :=
  let peer := s.chip w.other
  s.mapChip w fun c =>
    let c := allPorts.foldl (fun c p => c.put (F.HP_PORT_STATUS_OWN_IN p.val) (bit (peer.ownOut p))) c
    c.put F.ROLE_PAIR_STATE_DEAD_SEEN (bit peer.pullsDead)

/-- A chip in reset is released, unless a pin still holds it: it boots. -/
def release (s : State) (w : Twin) (cause : Nat) (x : BootReport) : State :=
  let c := s.chip w
  if !c.rst.powered || c.rst.resetN || c.rst.fenced then s
  else (s.mapChip w fun c => { c with rst := { c.rst with extested := false } }.boot cause x).samplePins w

end State

/-! ## Resets -/

/-- The sequence table that the always-on domain loads (R516, R517): the highest version whose three copies agree, else the reference table. -/
def Chip.storedTable (c : Chip) (bad : List Nat) : Table Word :=
  (((List.range c.psq.store.length).filter fun i => !bad.contains i).getLast?.bind fun i => c.psq.store[i]?).getD []

/-- ALWAYS_ON_POWER_UP (R517, R548, R549): the always-on domain is reset, the strap read and the sequence store loaded, but for the versions, from 0,
whose copies disagree; a power-on reset follows in time. -/
def execAlwaysOnPowerUp (w : Twin) (x : AlwaysOnStart) (s : State) : Host.Outcome State Fault Refusal :=
  .next (s.mapChip w fun c =>
    let n := c.inReset 0
    let table := c.storedTable x.bad
    let n := { n with
      regs := table.foldl (fun (t : Table Word) (e : Nat × Word) => t.set resetKey (regKey 0x140 e.1) e.2) []
      applied := table.foldl (fun (t : Table Word) (e : Nat × Word) => t.set resetKey (regKey 0x140 e.1) e.2) []
      wdt := {}
      psq := { store := c.psq.store, versionsUsed := c.psq.versionsUsed }
      thm := { avgSum := c.thm.avgSum, avgCount := c.thm.avgCount }
      rst := { aonUp := true, twinId := x.strap.id, chipSerial := c.rst.chipSerial }
      tap := { closed := c.sec.fieldClosed } }
    let n := (List.range 8).foldl (fun n m => n.put (F.MOD_MODULE_PRESENT m) (c.get (F.MOD_MODULE_PRESENT m))) n
    let n := n.put F.THM_TJ_AVG_X10 (c.get F.THM_TJ_AVG_X10)
    n.put F.PSQ_STORE_VERSIONS_LEFT (4 - c.psq.versionsUsed))

/-- POWER_ON_RESET (R518, R548): the PSQ has reached TOP. -/
def execPowerOnReset (w : Twin) (x : BootReport) (s : State) : Host.Outcome State Fault Refusal :=
  let c := s.chip w
  .next (if c.psqDir != 2 || c.rst.powered then s
  else
    let s := s.mapChip w fun c =>
      let c := c.inReset causePowerOn
      { c with rst := { c.rst with powered := true, extested := false } }
    s.release w causePowerOn x)

/-- RESET_N_ASSERT (R548, R550): the pin has been low for 1 µs. A chip in another mode than STARTING fail-stops first; from the save commit
until SEALED the chip does not act on it. -/
def execResetNAssert (w : Twin) (s : State) : Host.Outcome State Fault Refusal :=
  .next (s.mapChip w fun c =>
    if !c.up then
      (let n := if c.rst.powered && !c.rst.resetN then c.inReset causeResetN
         else { c with psq := { c.psq with failRounds := [] } }.put F.PSQ_PSQ_UP_HELD 0
       { n with rst := { n.rst with resetN := true } })
    else
      let c := if c.saveActive || c.mode == mSTARTING then c else c.failStop true
      if c.saveActive then { c with rst := { c.rst with resetPending := true } }.cnt K.RST_RESETN_DEFERRED
      else
        let n := c.inReset causeResetN
        { n with rst := { n.rst with resetN := true } })

/-- RESET_N_RELEASE (R548, R551): the pin rises, and start-up begins. -/
def execResetNRelease (w : Twin) (x : BootReport) (s : State) : Host.Outcome State Fault Refusal :=
  let c := s.chip w
  .next (if c.rst.resetPending then s.mapChip w fun c => { c with rst := { c.rst with resetPending := false } }
  else if !c.rst.resetN then s
  else (s.mapChip w fun c => { c with rst := { c.rst with resetN := false } }).release w causeResetN x)

/-- WARM.GO is written (R548). -/
def State.warmGo (s : State) (w : Twin) (rq : Requester) (x : BootReport) : State :=
  let c := s.chip w
  match rq with
  | .coreM _ =>
    if c.mode = mSTARTING ∨ c.mode = mHELD then (s.mapChip w fun c => c.inReset causeWarm).release w causeWarm x
    else s.mapChip w fun c => c.reject 0x020 0x0C 0x100
  | _ => s.mapChip w deny

/-- WARM_GO (R548): a machine-mode core restarts the chip, in STARTING or HELD only. -/
def execWarmGo (w : Twin) (rq : Requester) (x : BootReport) (s : State) : Host.Outcome State Fault Refusal :=
  .next (if !(s.chip w).up then s else s.warmGo w rq x)

/-- CLOCK_LOCK_LOSS (R188, R399): FCLK or Coxia REFCLK lock is lost: fail-stop without a save; a save in progress ends without a seal. -/
def execClockLockLoss (w : Twin) (s : State) : Host.Outcome State Fault Refusal :=
  .next (s.onUp w fun c => if c.saveActive then c.saveFail.startDown else c.failStop false)

/-! ## Fuses and crypto-erase -/

/-- BOOT.SVN_ADVANCE is written (R561). -/
def Chip.svnAdvance (c : Chip) : Chip :=
  if c.sec.svn ≥ 64 then c.reject 0x031 0x01 0x100
  else
    let n := max c.sec.svn c.rst.imageSvn
    { c with sec := { c.sec with svn := n } }.put F.BOOT_FUSE_SVN n

/-- SVN_ADVANCE (R561): the SVN fuses follow the running image; with 64 blown the write is rejected with RANGE. -/
def execSvnAdvance (w : Twin) (rq : Requester) (s : State) : Host.Outcome State Fault Refusal :=
  .next (s.onUp w fun c => c.ifMachine rq Chip.svnAdvance)

/-- OWNER_PROG.GO is written (R559, R575). -/
def Chip.ownerProg (c : Chip) : Chip :=
  if c.sec.keyOSet then c.reject 0x031 0x09 0x170
  else
    let t : Table Word := (List.range 12).foldl (fun t w => Table.set (fun _ => 0) t w (BitVec.ofNat 32 (c.get (F.BOOT_OWNER_HASH w)))) []
    { c with sec := { c.sec with keyHashO := t, keyOSet := true } }.showFuses

/-- OWNER_PROG (R559, R575): OWNER_HASH is blown into KEY_HASH_O, once. -/
def execOwnerProg (w : Twin) (rq : Requester) (s : State) : Host.Outcome State Fault Refusal :=
  .next (s.onUp w fun c => c.ifWrites rq 0x031 Chip.ownerProg)

/-- The chip that accepts a write through the pair alias whose command names no chip: the home of a head's port, else chip A while it runs. -/
def State.acceptor (s : State) (rq : Requester) : Option Twin :=
  match rq with
  | .host h => s.homeOf (portOf h)
  | _ => if s.a.up then some .A else if s.b.up then some .B else none

/-- ERASE_REQ.GO takes effect on the chip that accepted it (R77, R567, R576, R599). -/
def State.eraseReq (s : State) (w : Twin) (d : Nat) : State :=
  let c := s.chip w
  let (n, s') := s.nextFree
  if !c.running 0x032 then s.mapChip w fun c => c.reject 0x032 0x0C 0x100
  else if c.mapped (c.domBase d) (c.domBase d + c.domSize d) && c.domValid d then
    s.mapChip w fun c => c.reject 0x032 0x40 0x100
  else if c.domValid d then
    s'.mapChip w fun c => (c.putCfg F.KEY_ERASE_REQ_DOMAIN d).postEffect (.eraseKey d (some (Config.drbg n))) true
  else s.mapChip w fun c => (c.putCfg F.KEY_ERASE_REQ_DOMAIN d).postEffect (.eraseKey d none) true

/-- ERASE_REQ (R77, R567, R576): crypto-erase of one domain, in one gated effect with its new key pair; rejected with DOMAIN_MAPPED while a
committed decoder maps it. -/
def execEraseReq (rq : Requester) (d : Fin 64) (s : State) : Host.Outcome State Fault Refusal :=
  match s.acceptor rq with
  | none => .next s
  | some w =>
    if !(s.chip w).mayWrite rq 0x032 then .next (s.mapChip w deny) else .next (s.eraseReq w d.val)

/-- Whether a crypto-erase of every domain is complete on the chips that run. -/
def State.erased (s : State) : Bool :=
  let free (c : Chip) : Bool := !c.up ||
    (c.sec.erasing.isEmpty && !c.twe.gated.any fun g => match g.effect with | .eraseAll _ _ => true | _ => false)
  free s.a && free s.b

/-- This chip has committed a checkpoint without the domain's old key (R567). -/
def Chip.keyGone (d : Nat) (c : Chip) : Chip :=
  let c := { c with sec := { c.sec with erasing := dropN c.sec.erasing d } }
  c.checkpoint

/-- Whether a running chip's erase of domain `d` is still under way. -/
def Chip.erasesYet (d : Nat) (c : Chip) : Bool := c.up && c.sec.erasing.contains d

/-- The report of a finished erase (R568). -/
def Chip.reportErase (c : Chip) : Chip :=
  if c.up then (c.cnt K.KEY_CRYPTO_ERASES).raise F.KEY_EV_ERASED else c

/-- Secure Erase of a head returns. -/
def Chip.endSecureErase (h : Fin 24) (c : Chip) : Chip :=
  if (c.head h).mailBusy = some 0x4401 then c.postEffect .nothing true (some (.mail h 0)) else c

/-- What follows when a chip's part of an erase is done: the report when both have done theirs, Secure Erase's answer when every domain's is. -/
def State.eraseEnded (s : State) (d : Nat) : State :=
  if s.a.erasesYet d || s.b.erasesYet d then s
  else
    let s := s.mapBoth Chip.reportErase
    if s.erased then allHeads.foldl (fun s h => s.onHome h (Chip.endSecureErase h)) s else s

/-- CRYPTO_ERASE_DONE (R567, R568): this chip has committed a checkpoint without the old key; the erase is complete when both have. Secure
Erase returns when that of every domain is. -/
def execCryptoEraseDone (w : Twin) (d : Fin 64) (s : State) : Host.Outcome State Fault Refusal :=
  .next (if (s.chip w).up && (s.chip w).sec.erasing.contains d.val then
    (s.mapChip w (Chip.keyGone d.val)).eraseEnded d.val
  else s)

/-- Why CLOSE.GO is rejected (R572), 0 where it is not. -/
def Chip.closeCode (c : Chip) : Nat :=
  if !c.sec.sbEn then 0x40 else if c.get F.DBG_CLOSE_KEY ≠ 0xC105ED00 then 0x41 else 0

/-- CLOSE.GO is written (R572). -/
def Chip.closeGo (c : Chip) : Chip :=
  if c.closeCode ≠ 0 then c.reject 0x040 c.closeCode 0x104
  else { c with sec := { c.sec with fieldClosed := true } }.put F.BOOT_FUSE_FIELD_CLOSED 1

/-- CLOSE_GO (R572): a machine-mode core closes debug, with the key, once secure boot is enabled. -/
def execCloseGo (w : Twin) (rq : Requester) (s : State) : Host.Outcome State Fault Refusal :=
  .next (s.onUp w fun c => c.ifMachine rq Chip.closeGo)

/-! ## The TAP -/

/-- TEST_LOGIC_RESET (R569, R572): IDCODE, OVERRIDE gone, and a blown FIELD_CLOSED in force. -/
def execTestLogicReset (w : Twin) (s : State) : Host.Outcome State Fault Refusal :=
  .next (s.mapChip w fun c =>
    let c := { c with tap := { c.tap with closed := c.tap.closed || c.sec.fieldClosed } }.tapLoad 2
    (c.cnt K.DBG_TAP_RESETS).put F.DBG_DBG_STATE_OPEN (bit !c.tap.closed))

/-- EXTEST (R569, R571). -/
def execTapExtest (w : Twin) (s : State) : Host.Outcome State Fault Refusal := .next (s.mapChip w fun c => c.tapLoad 0)

/-- SAMPLE/PRELOAD (R569): the pins are sampled; nothing else changes. -/
def execSamplePreload (w : Twin) (s : State) : Host.Outcome State Fault Refusal := .next (s.mapChip w fun c => c.tapLoad 1)

/-- IDCODE (R569): the identity is selected for reading. -/
def execTapIdcode (w : Twin) (s : State) : Host.Outcome State Fault Refusal := .next (s.mapChip w fun c => c.tapLoad 2)

/-- CLAMP (R569, R571). -/
def execTapClamp (w : Twin) (s : State) : Host.Outcome State Fault Refusal := .next (s.mapChip w fun c => c.tapLoad 3)

/-- HIGHZ (R569, R571). -/
def execTapHighz (w : Twin) (s : State) : Host.Outcome State Fault Refusal := .next (s.mapChip w fun c => c.tapLoad 4)

/-- EXTEST_PULSE (R569, R571). -/
def execExtestPulse (w : Twin) (s : State) : Host.Outcome State Fault Refusal := .next (s.mapChip w fun c => c.tapLoad 8)

/-- EXTEST_TRAIN (R569, R571). -/
def execExtestTrain (w : Twin) (s : State) : Host.Outcome State Fault Refusal := .next (s.mapChip w fun c => c.tapLoad 9)

/-- DMI (R569, R570): the debug module of all nine cores is selected. -/
def execTapDmi (w : Twin) (s : State) : Host.Outcome State Fault Refusal := .next (s.mapChip w fun c => c.tapLoad 0x20)

/-- OVERRIDE (R569, R570): while debug is open, the TAP drives TWIN_OWN_OUT, TWIN_DEAD_N and TWIN_FENCE_OUT; it cannot override the fence
hold of R186. -/
def execTapOverride (w : Twin) (own : BitVec 6) (dead fence : Bool) (s : State) : Host.Outcome State Fault Refusal :=
  .next (s.mapChip w fun c =>
    if c.tapCode 0x22 = 0x22 then { c with tap := { c.tap with own := some (own, dead, fence) } }.tapLoad 0x22 else c.tapLoad 0x22)

/-- BYPASS (R569): 0xFF and every code that names no instruction. -/
def execTapBypass (w : Twin) (code : Byte) (s : State) : Host.Outcome State Fault Refusal :=
  .next (s.mapChip w fun c => c.tapLoad code.toNat)

/-! ## The SPDM responder -/

/-- SPDM_GET_VERSION (R562): versions 1.2 and 1.3; the negotiation begins again. -/
def execSpdmGetVersion (h : Fin 24) (s : State) : Host.Outcome State Fault Refusal :=
  .next (s.onReached h fun c => c.spdm h 0 fun c => (c.mapHead h fun x => { x with spdm := 1 }).setDoe h { words := [0x12, 0x13] })

/-- SPDM_GET_CAPABILITIES (R562). -/
def execSpdmGetCapabilities (h : Fin 24) (s : State) : Host.Outcome State Fault Refusal :=
  .next (s.onReached h fun c => c.spdm h 1 fun c => (c.mapHead h fun x => { x with spdm := max x.spdm 2 }).setDoe h {})

/-- SPDM_NEGOTIATE_ALGORITHMS (R562). -/
def execSpdmNegotiateAlgorithms (h : Fin 24) (s : State) : Host.Outcome State Fault Refusal :=
  .next (s.onReached h fun c => c.spdm h 2 fun c => (c.mapHead h fun x => { x with spdm := 3 }).setDoe h {})

/-- SPDM_GET_DIGESTS (R562): of slot 0, and of slot 1 where it is provisioned. -/
def execSpdmGetDigests (h : Fin 24) (s : State) : Host.Outcome State Fault Refusal :=
  .next (s.onReached h fun c => c.spdm h 3 fun c =>
    let slots := if c.sec.certificate.isEmpty then [0] else [0, 1]
    c.setDoe h { words := slots.map fun n => shaOf ((c.chainOf n).map BitVec.toNat) })

/-- Whether a chip holds a certificate chain in a slot (R562). -/
def Chip.hasSlot (c : Chip) (slot : Nat) : Bool := decide (slot = 0) || (decide (slot = 1) && !c.sec.certificate.isEmpty)

/-- SPDM_GET_CERTIFICATE (R81, R562): bytes of a slot's chain, no more than an object of 16 KiB carries beside its two headers of 8 bytes (PRESUMED:
SPDM; log 116). -/
def execSpdmGetCertificate (h : Fin 24) (slot : Fin 8) (off len : Nat) (s : State) : Host.Outcome State Fault Refusal :=
  .next (s.onReached h fun c => c.spdm h 3 fun c =>
    if !c.hasSlot slot.val then c.setDoe h { code := 1 }
    else c.setDoe h { bytes := ((c.chainOf slot.val).drop off).take (min len 16368) })

/-- SPDM_CHALLENGE (R562): answered under the pair key. -/
def execSpdmChallenge (h : Fin 24) (slot : Fin 8) (s : State) : Host.Outcome State Fault Refusal :=
  let (n, s') := s.nextFree
  .next (s'.onReached h fun c => c.spdm h 3 fun c =>
    if !c.hasSlot slot.val then c.setDoe h { code := 1 } else c.setDoe h { words := [(Config.signature c.sec.pairKey n).toNat] })

/-- SPDM_GET_MEASUREMENTS (R563): the digest of an index; 0 asks for their number, 255 for all (PRESUMED: SPDM). -/
def execSpdmGetMeasurements (h : Fin 24) (index : Fin 256) (s : State) : Host.Outcome State Fault Refusal :=
  .next (s.onReached h fun c => c.spdm h 3 fun c =>
    let peer := s.chip c.twin.other
    let one (i : Nat) : Nat :=
      match i with
      | 1 => digestOf 1 []
      | 2 => c.slotMeasure
      | 3 => peer.slotMeasure
      | 4 => digestOf 4 c.fuseContent
      | 5 => digestOf 5 [bit !s.a.tap.closed, bit !s.b.tap.closed]
      | _ => digestOf 6 (pairPages.map c.pageDigest)
    if index.val = 0 then c.setDoe h { words := [6] }
    else if index.val = 255 then c.setDoe h { words := [1, 2, 3, 4, 5, 6].map one }
    else if index.val ≤ 6 then c.setDoe h { words := [one index.val] }
    else c.setDoe h { code := 1 })

/-- SPDM_KEY_EXCHANGE (R562): a session of up to four begins its handshake. -/
def execSpdmKeyExchange (h : Fin 24) (s : State) : Host.Outcome State Fault Refusal :=
  .next (s.onReached h fun c => c.spdm h 3 fun c =>
    let x := c.head h
    match (List.range 4).find? fun i => !x.sessions.contains i && !x.handshakes.contains i with
    | some i => (c.mapHead h fun x => { x with handshakes := x.handshakes ++ [i] }).setDoe h { words := [i] }
    | none => c.setDoe h { code := 0x0A })

/-- SPDM_FINISH (R562): the session's secrets reach the carbon in a gated effect, and the answer follows its application. -/
def execSpdmFinish (h : Fin 24) (id : Fin 4) (s : State) : Host.Outcome State Fault Refusal :=
  .next (s.onReached h fun c => c.spdm h 3 fun c =>
    if (c.head h).handshakes.contains id.val then
      (c.mapHead h fun x => { x with handshakes := dropN x.handshakes id.val }).spdmEffect h (.session h id.val true)
    else c.setDoe h { code := 2 })

/-- SPDM_HEARTBEAT (R562). -/
def execSpdmHeartbeat (h : Fin 24) (id : Fin 4) (s : State) : Host.Outcome State Fault Refusal :=
  .next (s.onReached h fun c => c.spdm h 3 fun c => c.inSession h id.val fun c => c.setDoe h {})

/-- SPDM_KEY_UPDATE (R562): the new secrets reach the carbon in a gated effect. -/
def execSpdmKeyUpdate (h : Fin 24) (id : Fin 4) (s : State) : Host.Outcome State Fault Refusal :=
  .next (s.onReached h fun c => c.spdm h 3 fun c => c.inSession h id.val fun c => c.spdmEffect h (.session h id.val true))

/-- SPDM_END_SESSION (R562): both twins drop the session. -/
def execSpdmEndSession (h : Fin 24) (id : Fin 4) (s : State) : Host.Outcome State Fault Refusal :=
  .next (s.onReached h fun c => c.spdm h 3 fun c => c.inSession h id.val fun c => c.spdmEffect h (.session h id.val false))

/-- SPDM_SET_CERTIFICATE (R562): slot 1, from manager heads only; the certificate is pair state. An object of more than 16 KiB (R81), its headers of
12 bytes with it, is dropped with DOE Error (PRESUMED: PCIe DOE; log 116). -/
def execSpdmSetCertificate (h : Fin 24) (slot : Fin 8) (bytes : List Byte) (s : State) : Host.Outcome State Fault Refusal :=
  .next (s.onReached h fun c =>
    if bytes.length > 16372 then c.doeFails h
    else c.spdm h 3 fun c =>
      if slot.val = 1 && c.isManager h then c.spdmEffect h (.certificate h bytes) else c.setDoe h { code := 7 })

/-- K_SET_GO (R564): the key set goes to the carbon, within an SPDM session; the home answers once it is applied. -/
def execKSetGo (h : Fin 24) (set : Fin 2) (s : State) : Host.Outcome State Fault Refusal :=
  .next (s.onReached h fun c =>
    if (c.head h).sessions.isEmpty then c.setDoe h { code := 4 } else c.spdmEffect h (.ideKeys h set.val))

end Sys2Proof.Machine
end

