-- ==== Sys2Proof/Machine/Effects.lean ====
section
/-! DEFINITION. What an EFFECT record does to the pair state that a chip holds, on receipt or when its covering frame has gone out (R175,
R177), and the records of the postmark stream that carry it. -/
namespace Sys2Proof.Machine

namespace Chip

/-! ## Pair state of the heads and the mailbox (R86, R89) -/

/-- Records of a log are cleared, and its overflow report with them (R89). -/
def clearLog (c : Chip) (h : Fin 24) (l : Nat) (all : Bool) (handles : List Nat) : Chip :=
  let x := c.log h l
  let recs := if all then [] else x.recs.filter fun r => !handles.contains r.1
  c.setLog h l { x with recs := recs, overflow := false, overflowCount := 0, firstOverflow := 0, lastOverflow := 0 }

/-- Poison is injected into a line, or cleared by writing it (R86). -/
def applyPoison (c : Chip) (dpa : Nat) (set : Bool) (data : Line) : Chip :=
  let a := lineBase dpa
  if set then
    let l := c.fullLine a
    let c := c.wmbMerge a l.1 allBytes true true
    { c with mail := { c.mail with injected := insertN c.mail.injected a } }
  else
    let c := c.wmbMerge a data allBytes false true
    { c with mail := { c.mail with injected := dropN c.mail.injected a } }

/-- A background operation ends (R85): what a scan found stands, and it counts as a cause of vector 0 of its head. -/
def endBackground (c : Chip) (found : List Nat) : Chip :=
  match c.mail.background with
  | none => c
  | some x =>
    let scanned := if x.opcode = 0x4304 then found else c.mail.scanned
    { c with mail := { c.mail with background := none, scanned } }.cause x.head 0

/-! ## Objects (R273, R276) -/

/-- The chip with an object written or removed; policies of its extents are judged again. -/
def setObject (c : Chip) (n : Nat) (o : Option Obj) (first count : Nat) : Chip :=
  let t := match o with
    | some x => c.trm.objects.insert n x
    | none => c.trm.objects.erase n
  let c := { c with trm := { c.trm with objects := t } }.mdcTouch (c.objectLine n) true
  (c.writtenIn first count).foldl judgePolicy c

/-- The number that a registration takes: the one named, or the lowest unused where another registration has taken it. -/
def objectNumber (c : Chip) (n : Nat) : Nat := if (c.object n).isSome then c.freeObject else n

/-- Whether an object effect changes the policy of an object that stands (R276). -/
def isPolicyChange (c : Chip) (n first count : Nat) : Bool :=
  match c.object n with
  | some o => o.first == first && o.count == count
  | none => false

/-- An object effect: a policy change, or a registration, which an overlap leaves without effect. -/
def applyObject (c : Chip) (n first count policy : Nat) : Chip :=
  if c.isPolicyChange n first count then c.setObject n (some { first, count, policy }) first count
  else if c.overlaps first count then c
  else c.setObject (c.objectNumber n) (some { first, count, policy }) first count

/-- What the record that ends a command reports, once its effect is known on the chips (R177): a registration that overlaps or takes another
number, and a Route slot that is no longer free. -/
def amendEnd (c : Chip) (e : Effect) (x : RingEnd) : RingEnd :=
  match e with
  | .object n first count _ =>
    if c.isPolicyChange n first count then x
    else if c.overlaps first count then { x with status := 0x101, result := 0 }
    else { x with result := c.objectNumber n }
  | .routeLoad r _ => if (c.route r).state = 0 then x else { x with status := 0x120 }
  | _ => x

/-! ## Crypto-erase (R567) -/

/-- Crypto-erase of a domain on a chip: the old key goes, every extent is UNWRITTEN, no byte of the domain stays in the WMB, and the new key
takes its place. -/
def eraseDomain (c : Chip) (d : Nat) (key : Option (BitVec 512)) : Chip :=
  let es := c.writtenIn (c.domBase d / 2 ^ 21) (c.domSize d / 2 ^ 21)
  let lines := (c.wmb.filter fun (x : Nat × WmbEntry) => c.inDomain d (x.1 * 64)).map fun x => x.1 * 64
  let c := lines.foldl (fun c l => (c.setWmb l {}).releaseHere l) c
  let c := es.foldl (fun c e => (c.markChange e).discardExtent e) c
  let keys := match key with
    | some _ => c.sec.keys.insert d key
    | none => c.sec.keys.erase d
  { c with sec := { c.sec with keys, erasing := insertN c.sec.erasing d } }

/-! ## Sessions and link keys (R562, R564) -/

/-- The home answers a request whose effect has been applied. -/
def replyHome (c : Chip) (h : Fin 24) : Chip := if c.isHome (portOf h) && (c.head h).doeWait then c.setDoe h {} else c

/-- A session is known, or gone, on both twins. -/
def setSession (c : Chip) (h : Fin 24) (id : Nat) (on : Bool) : Chip :=
  let c := c.mapHead h fun x => { x with sessions := if on then insertN x.sessions id else dropN x.sessions id }
  (c.put (F.SES_HEAD_SESSIONS h.val) (c.head h).sessions.length).replyHome h

/-- A key set of a head's IDE stream is in force on both twins. -/
def setIde (c : Chip) (h : Fin 24) (set : Nat) : Chip :=
  let c := { c with sec := { c.sec with ideSets := c.sec.ideSets.insert h.val set } }
  let c := ((c.put (F.HLNK_LINK_IDE_IO h.val) 1).put (F.HLNK_LINK_IDE_MEM h.val) 1).put (F.SES_HEAD_IDE_ACTIVE h.val) 1
  ((c.cnt K.SES_IDE_KEY_SETS).raise F.SES_EV_IDE_KEYED).replyHome h

/-! ## An effect (R177) -/

/-- Bytes written into a table of bytes that reads 0 where nothing stands. -/
def writeTable (t : Table Byte) (off : Nat) (bs : List Byte) : Table Byte :=
  (bs.zipIdx).foldl (fun t x => Table.set (fun _ => 0) t (off + x.2) x.1) t

/-- An extent enters a state, and what waited for it is judged (R261, R278, R293). -/
def applyExtent (c : Chip) (e st : Nat) : Chip := (((c.enterState e st).rejudge e).rangeChecks).slipsArrive

/-- The migration of an extent is done on the peer (R281). -/
def peerMoved (c : Chip) (e : Nat) : Chip :=
  let mark (m : Mig) : Mig := if m.extent == e then { m with donePeer := true } else m
  { c with trm := { c.trm with slots := c.trm.slots.map mark } }

/-- The effects on the mailbox, the logs and the heads. -/
def applyHeads (c : Chip) : Effect → Chip
  | .alerts bytes => { c with mail := { c.mail with alerts := bytes } }
  | .shutdown dirty => { c with mail := { c.mail with dirty } }
  | .lsa off bytes => { c with mail := { c.mail with lsa := writeTable c.mail.lsa off bytes } }
  | .timestamp ns round => { c with mail := { c.mail with stamp := (ns, round) } }
  | .clearLog h l all handles => c.clearLog h l.val all handles
  | .intPolicy h l mode => c.mapHead h fun x => { x with policy := x.policy.set (fun _ => 0) l.val mode.val }
  | .poison dpa set data => c.applyPoison dpa set data
  | .background x => { c with mail := { c.mail with background := some x } }
  | .backgroundDone found => c.endBackground found
  | .session h id on => c.setSession h id on
  | .ideKeys h set => c.setIde h set
  | .certificate h bytes => { c with sec := { c.sec with certificate := bytes } }.replyHome h
  | _ => c

/-- The effects on the domain keys and the pair key (R562 to R567). -/
def applyKeys (c : Chip) : Effect → Chip
  | .eraseKey d key => c.eraseDomain d key
  | .eraseAll keys _ => keys.foldl (fun c x => c.eraseDomain x.1 (some x.2)) c
  | .newKey d key => { c with sec := { c.sec with keys := c.sec.keys.insert d (some key) } }
  | .pairKey key => { c with sec := { c.sec with pairKey := some key } }
  | _ => c

/-- The effects on firmware, keys, saves and the endpoint. -/
def applyChip (c : Chip) (mine : Bool) (from' : Twin) : Effect → Chip
  | .firmware off bytes => c.setFlash (c.inactiveSlot * bankSize + off) bytes
  | .activate slot => (c.putCfg F.EFC_EFC_CMD2_SLOT slot).efcGo 3 none
  | .copyExtent e round => { c with twe := { c.twe with copyDue := c.twe.copyDue ++ [(e, round + 2)] } }
  | .saveStart => if mine then c else { c with svc := { c.svc with peerStart := some c.round } }
  | .sealSummary x => if mine then c else { c with svc := { c.svc with peer := some x } }
  | .restoreDone =>
    let l := if c.svc.restoreApplied.contains from' then c.svc.restoreApplied else from' :: c.svc.restoreApplied
    { c with svc := { c.svc with restoreApplied := l, activeDue := some c.round } }
  | .speakerState delivery bytes =>
    ({ c with twe := { c.twe with speakerState := some (delivery, bytes) } }.put F.RSY_SPEAKER_SAVED_DELIVERY delivery)
  | .retire q idx op chip a loc => if mine || chip != c.twin then c else c.retireHere q idx op a loc
  | .retireDone q idx status result => if mine || !c.keepsRing q.val then c else c.ringReport q idx status result
  | e => c.applyKeys e

/-- The effects on placement, objects, rings and Routes. -/
def applyPlacement (c : Chip) (mine : Bool) (e : Effect) : Chip :=
  match e with
  | .extentState x st => c.applyExtent x st
  | .extentPending x on => c.setPending x on
  | .object n first count policy => c.applyObject n first count policy
  | .objectGone n =>
    (match c.object n with
     | some o => (c.dropObject n).setObject n none o.first o.count
     | none => c)
  | .moveDone x => if mine then c else c.peerMoved x
  | .rangeAsk q idx kind es => if mine || !c.isKeeper then c else c.rangeBegin q idx kind es
  | .ringStart q x => c.ringStart q.val x
  | .ringWritten x => if mine then c else c.ringWritten x
  | .routeLoad r _ => if (c.route r).state = 0 then c.applyRoute mine e else c
  | .routeState _ _ _ _ | .routeHold _ _ _ _ | .routeRelease _ _ _ _ | .routePos _ _ _ | .routeSlip _ _ _ _ | .routeClose _ _ _ _ => c.applyRoute mine e
  | _ => c

/-- What an effect does on a chip: `mine` where the chip itself sent the record. -/
def applyEffect (c : Chip) (mine : Bool) (from' : Twin) (e : Effect) : Chip :=
  match e with
  | .nothing => c
  | .alerts _ | .shutdown _ | .lsa _ _ | .timestamp _ _ | .clearLog _ _ _ _ | .intPolicy _ _ _ | .poison _ _ _ | .background _
  | .backgroundDone _ | .session _ _ _ | .ideKeys _ _ | .certificate _ _ => c.applyHeads e
  | .eraseKey _ _ | .eraseAll _ _ | .newKey _ _ | .pairKey _ | .firmware _ _ | .activate _ | .copyExtent _ _ | .saveStart
  | .sealSummary _ | .restoreDone | .speakerState _ _ | .retire _ _ _ _ _ _ | .retireDone _ _ _ _ => c.applyChip mine from' e
  | .extentState _ _ | .extentPending _ _ | .object _ _ _ _ | .objectGone _ | .moveDone _ | .rangeAsk _ _ _ _ | .ringStart _ _
  | .ringWritten _ | .routeLoad _ _ | .routeState _ _ _ _ | .routeHold _ _ _ _ | .routeRelease _ _ _ _ | .routePos _ _ _ | .routeSlip _ _ _ _
  | .routeClose _ _ _ _ => c.applyPlacement mine e

/-- The command that a record announces complete ends on a chip (R177); `recSeq` is the number of the chip's own record. -/
def applyEnds (c : Chip) (ends : Option Ends) (recSeq : Option Nat) : Chip :=
  match ends with
  | none => c
  | some (.ring x) => c.ringFinish x recSeq
  | some (.mail h code) => c.mailFinish h code

/-- The end of a record as the chip finds it before its effect. -/
def amendEnds (c : Chip) (e : Effect) (ends : Option Ends) : Option Ends :=
  match ends with
  | some (.ring x) => some (.ring (c.amendEnd e x))
  | _ => ends

/-- A record is applied: its effect, and the command it ends. -/
def applyRecord (c : Chip) (g : GatedEffect) : Chip :=
  let mine := g.from' == c.twin
  let ends := c.amendEnds g.effect g.ends
  let c := (c.applyEffect mine g.from' g.effect).cnt K.PMK_EFFECTS_APPLIED
  c.applyEnds ends (if mine && c.posts then some g.seq else none)

/-- Whether a gated record is due: its covering frame belongs to an earlier Round. -/
def gatedDue (c : Chip) (g : GatedEffect) : Bool := match g.due with | some r => decide (r < c.round) | none => false

/-- The due records are applied: chip A's first, then chip B's, each in sequence (R177). -/
def applyGated (c : Chip) : Chip :=
  let due := c.twe.gated.filter c.gatedDue
  let c := { c with twe := { c.twe with gated := c.twe.gated.filter fun g => !c.gatedDue g } }
  ((due.filter fun g => g.from' == .A) ++ due.filter fun g => g.from' == .B).foldl applyRecord c

/-- Own records that a frame covers have their Round (R177). -/
def coverGated (c : Chip) (w : Twin) (gate round : Nat) : Chip :=
  let cover (g : GatedEffect) : GatedEffect :=
    if g.from' == w && g.due.isNone && decide ((gate + 2 ^ 32 - g.seq) % 2 ^ 32 < 2 ^ 31) then { g with due := some round } else g
  { c with twe := { c.twe with gated := c.twe.gated.map cover } }

/-- GATE_SEQ of the chip's next frame: its last gated record that no frame has covered. -/
def gateSeq (c : Chip) : Nat :=
  match (c.twe.gated.filter fun g => g.from' == c.twin && g.due.isNone).getLast? with
  | some g => g.seq
  | none => c.twe.pmSeq

/-- Gated records that no frame has covered are discarded on link loss (R177): the peer's, and, where the chip is isolated, its own too. -/
def discardGated (c : Chip) (own : Bool) : Chip :=
  let gone (g : GatedEffect) : Bool := g.due.isNone && (own || g.from' != c.twin)
  let n := (c.twe.gated.filter fun g => g.due.isNone && g.from' != c.twin).length
  let c := { c with twe := { c.twe with gated := c.twe.gated.filter fun g => !gone g } }
  if n = 0 then c else (c.cnt K.PMK_EFFECTS_DISCARDED n).raise F.PMK_EV_EFFECT_DISCARDED

/-! ## Records of the peer (R176) -/

/-- The oldest postmark record of the peer that has not been applied. -/
def nextRec (c : Chip) : Option (Nat × PmRecord) := c.twe.rxRecs.head?

/-- The oldest record of the peer is taken as applied (R176). -/
def takeRec (c : Chip) : Chip :=
  match c.twe.rxRecs with
  | [] => c
  | (n, _) :: rest =>
    ({ c with twe := { c.twe with rxRecs := rest, pmApplied := n } }.put F.PMK_PM_SEQ_APPLIED n).cnt K.PMK_RECORDS_RX

/-- The APPLIED record, which reports how far this chip has applied the peer's records. -/
def sendApplied (c : Chip) : Chip := c.post (.applied c.twe.pmApplied)

/-- The peer reports how far it has applied this chip's records: what waited for it goes on (R151, R239, R244). -/
def peerHasApplied (c : Chip) (n : Nat) : Chip :=
  if (n + 2 ^ 32 - c.get F.PMK_PM_SEQ_PEER_APPLIED) % 2 ^ 32 ≥ 2 ^ 31 then c
  else
    let c := (c.put F.PMK_PM_SEQ_PEER_APPLIED n).settle
    (c.continueTags (fun t => at' t .applied) afterOrder).runCommons

end Chip

open Chip

/-! ## The commands -/

/-- The Round of the peer's last frame, where that frame covers a record (R177). -/
def Chip.coveredIn (c : Chip) (n : Nat) : Option Nat :=
  match c.twe.peerFrame with
  | some f => if (f.gateSeq + 2 ^ 32 - n) % 2 ^ 32 < 2 ^ 31 then some f.round else none
  | none => none

/-- EFFECT (R175, R177): the oldest record of the peer is an effect: ungated it is applied now, gated it waits for its covering frame, which may have
come before it was taken. -/
def execRecEffect (w : Twin) (s : State) : Host.Outcome State Fault Refusal :=
  .next (s.onUp w fun c =>
    match c.nextRec with
    | some (n, .effect e gated ends) =>
      let c := c.takeRec
      let g : GatedEffect := { from' := w.other, seq := n, effect := e, ends, due := c.coveredIn n }
      if gated then { c with twe := { c.twe with gated := c.twe.gated ++ [g] } } else c.applyRecord g
    | _ => c)

/-- GATED_EFFECT_APPLY (R177): at a Round boundary each chip applies the gated records whose covering frame has gone out. -/
def execGatedEffectApply (s : State) : Host.Outcome State Fault Refusal :=
  .next (s.mapBoth fun c => if c.up then c.applyGated else c)

/-- LOG (R89, R175): a record of the home enters the carbon's copy of the head's log. -/
def execRecLog (w : Twin) (s : State) : Host.Outcome State Fault Refusal :=
  .next (s.onUp w fun c =>
    match c.nextRec with
    | some (_, .log h l r) => c.takeRec.enterLog h l.val r
    | _ => c)

/-- APPLIED (R175, R239): the peer has applied this chip's records as far as it says. -/
def execRecApplied (w : Twin) (s : State) : Host.Outcome State Fault Refusal :=
  .next (s.onUp w fun c =>
    match c.nextRec with
    | some (_, .applied n) => c.takeRec.peerHasApplied n
    | _ => c)

end Sys2Proof.Machine
end

