-- ==== Sys2Proof/Machine/Repair.lean ====
section
/-! DEFINITION. Cross-twin repair of a line, and Countersign (R208 to R213). -/
namespace Sys2Proof.Machine

namespace Chip

/-- REPAIRS_PENDING follows. -/
def showRepairs (c : Chip) : Chip := c.put F.REP_REPAIRS_PENDING c.twe.repairs.length

/-- A HOLD is applied (R211). -/
def setHold (c : Chip) (line : Nat) (on : Bool) : Chip :=
  { c with twe := { c.twe with holds := if on then insertN c.twe.holds line else dropN c.twe.holds line } }

/-- What waited behind a hold on the carbon goes on, in order (R211). -/
def afterHold (c : Chip) : Chip :=
  allHeads.foldl (fun c h => if c.isCarbon (portOf h) then c.carbonPump h ((c.head h).rwdQ.length + 1) else c) c

/-- A repair ends: the release goes out, and the hold is gone here. -/
def releaseHold (c : Chip) (line : Nat) : Chip :=
  let c := { c with twe := { c.twe with repairs := c.twe.repairs.filter fun x => x.1 != line } }.showRepairs
  if c.twe.holds.contains line then ((c.post (.hold line false)).setHold line false).afterHold else c

/-- The reads that a repair holds are answered. -/
def answerRepaired (c : Chip) (line : Nat) : Chip :=
  (c.continueTags (fun t => at' t .repair && t.dpa == line) serveFull).runCommons

/-- Whether a line has a clean copy in the back tier beside its frame (R210, step 2). -/
def cleanBackCopy (c : Chip) (line : Nat) : Bool :=
  let p := parcelOf line
  (match c.tierOf line with | .front | .frontPatched => true | _ => false) &&
    !c.trm.dirty.contains p && (c.parcel p).state != 0

/-- A record that names a DPA goes to the Failure log of every head homed here that maps it (R90, R137). -/
def mediaHere (c : Chip) (r : EventRec) : Chip :=
  allHeads.foldl (fun c h => if c.headMaps h r.addr (r.addr + 64) && c.isHome (portOf h) then c.logRecord h 2 r else c) c

/-- A record that names a DPA, of DRAM where the line has a frame and of General Media elsewhere, enters the Failure log of every head with a
committed decoder that covers it; the peer enters it for the heads it is home of (R90, R137). -/
def mediaRecord (c : Chip) (line : Nat) : Chip :=
  let form : RecForm := match c.tierOf line with | .front | .frontPatched => .dram | _ => .generalMedia
  let r := { c.eventRec 0x072 0 0 line with form }
  let c := c.mediaHere r
  if allHeads.any fun h => c.headMaps h line (line + 64) && !c.isHome (portOf h) then c.send (.event r 2) else c

/-- LOCATION of a line in DRAM (R454), 0 for one that has no frame. -/
def lineLocation (c : Chip) (line : Nat) : Nat :=
  match c.tierOf line with
  | .front | .frontPatched => (c.place (c.dramAddr line)).location 31
  | _ => 0

/-- The SOURCE of the entry that a local failure of a line writes (R434, R454): DMC for a line of DRAM, TWE elsewhere; 0, none, for a read that no
local failure sends to the twin (R426, R444). -/
def repairSource (c : Chip) (line : Nat) : Nat :=
  if c.cannotServe line then 0
  else if c.trm.repairDue.contains line then 1
  else match c.tierOf line with
    | .front | .frontPatched => if c.rankAway line then 0 else 1
    | .back => if c.trm.patchLines.contains line then (if c.rankAway line then 0 else 1) else 8
    | .zero => 8

/-- The entry of a repair in the Dead-Letter Log (R453, R454), with what was consulted and found good, and what the patrol counts of it (R448). -/
def repairEntry (c : Chip) (line source kind copy : Nat) : Chip :=
  let c := if source = 0 then c else c.dlo source 0 kind copy line (c.lineLocation line)
  if source = 2 then c.cnt (if kind = 1 then K.PAT_UE_REPAIRED else K.PAT_UE_POISONED) else c

/-- The local copy is rewritten, by a pair merge of the TWIN client where DRAM takes it (R210, R414, R430). -/
def rewriteLine (c : Chip) (line : Nat) (l : Line) (poison : Bool) : Chip :=
  let c := { c with trm := { c.trm with repairDue := dropN c.trm.repairDue line } }.storeLine line l poison
  c.oweLines .twin (c.place (c.dramAddr line)).ch 4

/-- Repair without the twin (R210, steps 2 and 3): from a clean back-tier copy, else the line ends in poison. A read that no local failure sent to
the twin fails for good only there: it waits in its queue again. -/
def repairAlone (c : Chip) (line source : Nat) : Chip :=
  let asked := bit (c.twe.repairs.any fun x => x.1 == line)
  if source = 0 then
    let c := c.releaseHold line
    c.continueTags (fun t => at' t .repair && t.dpa == line) (if c.cannotServe line then serveRead else readDram)
  else
    let c :=
      if c.cfgOn F.REP_REPAIR_CFG_BACKTIER_EN && c.cleanBackCopy line then
        let x := c.backLine line
        ((c.rewriteLine line x.1 x.2).cnt K.REP_REPAIR_FROM_BACK).repairEntry line source 1 (asked + 0x1C)
      else
        let c := c.rewriteLine line (c.tierLine line).1 true
        (((c.cnt K.REP_REPAIR_FAILED).raise F.REP_EV_REPAIR_FAILED).repairEntry line source 2 (asked + 0x20)).mediaRecord line
    (c.releaseHold line).answerRepaired line

/-- Whether the twin can be asked for a line: it holds every write of the pair, and the link carries the request. -/
def twinHasCopy (c : Chip) : Bool := c.mirrored && c.linkUp && c.twe.lossDeclared.isNone

/-- A local read is uncorrectable: HOLD and the request go to the twin, or the repair is made without it (R210, R211). -/
def beginRepair (c : Chip) (line source : Nat) : Chip :=
  if c.twe.repairs.length ≥ 64 || c.twe.repairs.any (fun x => x.1 == line) then c
  else
    let c := c.cnt K.REP_REPAIR_REQUESTS
    if c.twinHasCopy then
      let c := { c with twe := { c.twe with repairs := c.twe.repairs ++ [(line, source)] } }.showRepairs
      ((c.post (.hold line true)).setHold line true).send (.repairAsk line)
    else c.repairAlone line source

/-- Lines that wait for one of the 64 places are repaired as these become free (R210). -/
def pumpRepairs : Nat → Chip → Chip
  | 0, c => c
  | n + 1, c =>
    match c.twe.repairQ with
    | [] => c
    | x :: r =>
      if c.twe.repairs.length ≥ 64 then c
      else pumpRepairs n ({ c with twe := { c.twe with repairQ := r } }.beginRepair x.1 x.2)

/-- A line waits for its repair (R210). -/
def wantRepair (c : Chip) (line source : Nat) : Chip :=
  if c.twe.repairQ.any (fun x => x.1 == line) || c.twe.repairs.any (fun x => x.1 == line) then c
  else pumpRepairs 1 { c with twe := { c.twe with repairQ := c.twe.repairQ ++ [(line, source)] } }

/-! ### Bytes of the WMB (R125, R139) -/

/-- The bytes of a WMB line that wait for the peer's are replaced from its full view; with no good copy the line is marked poisoned. The hold
of the line goes with them, where no other repair needs it. -/
def fixBytes (c : Chip) (line : Nat) (data : Option (Line × Bool)) : Chip :=
  let bytes := (c.twe.byteRepairs.filter fun x => x.1 == line).map (·.2)
  if bytes.isEmpty then c
  else
    let e := c.wmbEntry line
    let c := { c with twe := { c.twe with byteRepairs := c.twe.byteRepairs.filter fun x => x.1 != line } }
    let en := BitVec.ofNat 64 (bytes.map fun b => 2 ^ b).sum
    let c := match data with
      | some (l, false) =>
        (c.setWmb line { e with data := mergeLine e.data l en, issued := mergeLine e.issued l en }).cnt K.WMB_REPAIRED bytes.length
      | _ =>
        ((c.setWmb line { e with poison := true, issuedPoison := true, whole := false, issuedWhole := false }).cnt K.WMB_UNCORRECTED
          bytes.length).raise F.WMB_EV_UNCORRECTABLE
    if c.twe.repairs.any fun x => x.1 == line then c else c.releaseHold line

/-- A byte of a WMB line fails its check: corrected, or asked of the peer by cross-twin repair (R125, R139). -/
def wmbByte (c : Chip) (line byte : Nat) (correctable : Bool) : Chip :=
  let e := c.wmbEntry line
  if e.state == .free || !e.mask.getLsbD byte then c
  else if correctable then c.cnt K.WMB_CORRECTED_BYTES
  else
    let asked := c.twe.byteRepairs.any fun x => x.1 == line
    let c := { c with twe := { c.twe with byteRepairs := if c.twe.byteRepairs.contains (line, byte) then c.twe.byteRepairs else c.twe.byteRepairs ++ [(line, byte)] } }
    if !c.twinHasCopy then c.fixBytes line none
    else if asked then c
    else
      let c := if c.twe.holds.contains line then c else (c.post (.hold line true)).setHold line true
      c.send (.repairAsk line)

/-! ### Directory entries (R237) -/

/-- A directory or shadow entry fails its check: an entry in SRAM is rebuilt conservatively, one of the shadow table is fetched from the arbiter
first. -/
def entryFails (c : Chip) (line : Nat) : Chip :=
  if (c.dirEntry line).state = 0 || c.che.fetching.contains line then c
  else if (c.che.sram.get (fun _ => {}) (line / 64)).state ≠ 0 || c.serving || !c.linkUp then c.rebuildEntry line 0x10 none
  else { c with che := { c.che with fetching := c.che.fetching ++ [line] } }.send (.entryAsk line)

/-- The arbiter's answer: its entry, or none where the fetch fails. -/
def takeEntry (c : Chip) (line : Nat) (e : Option DirEntry) : Chip :=
  if c.che.fetching.contains line then c.rebuildEntry line (if e.isSome then 0x13 else 0x11) e else c

/-- Repairs that wait for a twin that is gone are made without it. -/
def repairsWithout (c : Chip) : Chip :=
  let c := c.che.fetching.foldl (fun c l => c.takeEntry l none) c
  let c := c.twe.byteRepairs.foldl (fun c x => c.fixBytes x.1 none) c
  let c := c.twe.repairs.foldl (fun c x => c.repairAlone x.1 x.2) c
  { c with twe := { c.twe with holds := [] } }.afterHold

/-- A request for a line is served with the full view, or with FAILED where the copy cannot be read (R211, R213). -/
def serveRepair (c : Chip) (line : Nat) (outcome : ReadOutcome) : Chip :=
  let c := c.cnt K.REP_REPAIR_SERVED
  let bad := outcome == .uncorrectable || c.trm.repairDue.contains line || c.cannotServe line
  c.send (.repairData line (if bad then none else some (c.fullLine line)))

/-- The twin's answer (R139, R210, R211): it gives the bytes that the WMB lacks; its line, under this chip's WMB bytes, is rewritten to the tier; a
FAILED one leaves the other steps. -/
def takeRepair (c : Chip) (line : Nat) (data : Option (Line × Bool)) : Chip :=
  let c := c.fixBytes line data
  match c.twe.repairs.find? fun x => x.1 == line with
  | none => c
  | some r =>
    match data with
    | none => pumpRepairs 1 (c.repairAlone line r.2)
    | some x =>
      let c := if r.2 = 0 then c else c.rewriteLine line x.1 x.2
      let c := (c.cnt K.REP_REPAIR_FROM_TWIN).repairEntry line r.2 1 0x13
      pumpRepairs 1 ((c.releaseHold line).answerRepaired line)

/-- Whether a copy of a line differs from a clean back-tier copy (R209). -/
def differsFromBack (c : Chip) (line : Nat) (data : Line) : Bool := c.cleanBackCopy line && (c.backLine line).1 != data

end Chip

open Chip

/-- DRAIN_ACCEPTED (R127, R130): the DMC has the line. Where the line it merges with is uncorrectable, that line is repaired first (R137, R210), and
the drain is accepted after. -/
def execDrainAccepted (w : Twin) (line : Nat) (bad : BitVec 20) (s : State) : Host.Outcome State Fault Refusal :=
  .next (s.onUp w fun c =>
    let e := c.wmbEntry line
    let a := c.dramAddr (lineBase line)
    if e.state != .draining || c.twe.repairs.any (fun x => x.1 == lineBase line) then c
    else if ((c.decode a bad).1 == .uncorrectable || c.trm.repairDue.contains (lineBase line)) && c.mergesDram (lineBase line) e then
      (if (c.decode a bad).1 == .uncorrectable then c.uncorrectableLine a else c).beginRepair (lineBase line) 0x01
    else { c with trm := { c.trm with repairDue := dropN c.trm.repairDue (lineBase line) } }.drainLands line e bad)

/-- REPAIR_REQUEST (R210 to R212, R426): reads of a line that the local tier could not give, or whose rank is out of service, wait for its
repair. -/
def execRepairRequest (w : Twin) (dpa : Nat) (s : State) : Host.Outcome State Fault Refusal :=
  .next (s.onUp w fun c =>
    let line := lineBase dpa
    let away := c.rankAway line
    let c := if away then c.mapTags (fun t => readsOf line t && !t.issued) fun t => { t with stage := .repair } else c
    if c.tags.any fun t => at' t .repair && t.dpa == line then c.beginRepair line (c.repairSource line) else c)

/-- Whether the carbon's copy is the faulty one (R209): as a clean back-tier copy of either chip settles it, else by which copy gave the
same data twice; the home's where both did. -/
def carbonAtFault (carbon home : Chip) (line : Nat) (carbonStable homeStable : Bool) (carbonData homeData : Line) : Bool :=
  let clean := carbon.cleanBackCopy line || home.cleanBackCopy line
  let carbonBad := carbon.differsFromBack line carbonData || home.differsFromBack line carbonData
  let homeBad := carbon.differsFromBack line homeData || home.differsFromBack line homeData
  if clean && (carbonBad != homeBad) then carbonBad
  else !(carbonStable && !homeStable)

/-- COUNTERSIGN_MISMATCH (R209): the carbon `w` found that its copy of a line differs from what the home sent, twice. The copies are settled,
the faulty one is rewritten, and both chips record it. -/
def execCountersignMismatch (w : Twin) (dpa : Nat) (carbonStable homeStable : Bool) (carbonData homeData : Line) (s : State) :
    Host.Outcome State Fault Refusal :=
  let line := lineBase dpa
  let carbon := s.chip w
  let home := s.chip w.other
  .next (if !(carbon.up && home.up && carbon.mirrored && carbon.linkUp && carbon.cfgOn F.REP_CSIGN_CFG_ENABLE) || carbon.inCommons line then s
  else
    let bad := carbonAtFault carbon home line carbonStable homeStable carbonData homeData
    let s := s.mapChip w fun c =>
      let c := ((c.cnt K.REP_CSIGN_MISMATCHES).raise F.REP_EV_CSIGN_MISMATCH).dlo 0x09 0 3 (1 + 0x12 * bit bad) line 0 (some ((carbonData ^^^ homeData).setWidth 128))
      let c := (c.put F.REP_LAST_MISMATCH_LO line).put F.REP_LAST_MISMATCH_HI (line / 2 ^ 32)
      if bad then (c.storeLine line homeData false).cnt K.REP_CSIGN_CARBON_FIXED else c
    s.mapChip w.other fun c =>
      if bad then c
      else (((c.storeLine line carbonData false).cnt K.REP_CSIGN_HOME_FIXED).raise F.REP_EV_HOME_COPY_BAD).mediaRecord line)

end Sys2Proof.Machine
end

