-- ==== Sys2Proof/Machine/Takeover.lean ====
section
/-! DEFINITION. How the pair loses and regains a chip's service: the check of the peer, fail-stop, fence and isolation, takeover of a
port, handover and the drill, and starts without the twin (R160 to R163, R181 to R207, R222 to R224). -/
namespace Sys2Proof.Machine

namespace Chip

/-! ## Leaving MIRRORED -/

/-- Whether a chip sees the peer's OWN line of a port asserted. -/
def ownIn (c : Chip) (p : Fin 6) : Bool := c.is (F.HP_PORT_STATUS_OWN_IN p.val)

/-- The buckets of a head are full (R141). -/
def fillBuckets (c : Chip) (h : Fin 24) : Chip :=
  c.mapHead h fun x => { x with
    rdTokens := c.cfg (F.SRT_HEAD_RD_RATE h.val) * c.cfg (F.SRT_HEAD_RD_DEPTH h.val)
    wrTokens := c.cfg (F.SRT_HEAD_WR_RATE h.val) * c.cfg (F.SRT_HEAD_WR_DEPTH h.val) }

/-- Whether the carbon can carry a link over: TRACKING, and no flit fetch outstanding (R196). -/
def warm (c : Chip) (h : Fin 24) : Bool :=
  c.trackState h == 2 && (c.head h).track.missed.isEmpty && (c.head h).track.missedDown.isEmpty

/-- The carbon claims a port (R192, step 3): the shadows stand at the last flit decoded; links it can carry over go to Recovery, the others
will be taken over cold. -/
def claim (c : Chip) (p : Fin 6) : Chip :=
  let was := c.role p
  if was ≠ 2 ∧ was ≠ 5 then c
  else
    let links := (portHeads p).filter fun h => c.inL0 h || c.trackState h == 2
    let keep := links.filter fun h => was == 5 || c.warm h
    let cold := links.filter fun h => !keep.contains h
    let c := c.setRole p 4
    let c := keep.foldl enterRecovery c
    let c := (portHeads p).foldl (fun c h => (c.mapHead h fun x => { x with
      peerTracks := false
      covered := none
      peerDrained := none
      tapUp := 0
      tapDown := 0 }).fillBuckets h) c
    let c := { c with twe := { c.twe with claimCold := c.twe.claimCold ++ cold } }
    ((c.cnt K.ROLE_TAKEOVERS).raise F.ROLE_EV_TAKEOVER).put F.ROLE_LAST_TAKEOVER_ROUND_LO c.round

/-- A resync stops (R219): what was in copy is begun again at the next one. The copy of a joiner in a full resync is partial. -/
def abortResync (c : Chip) : Chip :=
  if c.get F.RSY_RESYNC_STATE = 0 then c
  else
    let whole := c.twe.cleanCopy && !(c.is F.RSY_RESYNC_JOINER && c.is F.RSY_RESYNC_KIND)
    let c := { c with twe := { c.twe with inCopy := [], copied := [], copyDue := [], arrived := [], paused := [], cleanCopy := whole } }
    ((c.put F.RSY_RESYNC_STATE 0).put F.RSY_RESYNC_JOINER 0).raise F.RSY_EV_RESYNC_ABORTED

/-- The survivor marks what an isolated twin may lack: the extents of writes that its last WRITE_WM did not cover (R203). -/
def markUncovered (c : Chip) : Chip :=
  let c := allHeads.foldl (fun c h =>
    (((c.head h).rxHist.flatMap fun x => x.reqs).filter fun x => isWrite x.kind && !covers (c.head h).covered x.pos.code).foldl (fun c x =>
      match c.decodeHpa h x.hpa with
      | some a => c.markChange (extentOf a)
      | none => c) c) c
  (c.charges.filter fun x => x.2.active && !covers (c.head x.2.head).covered x.2.pos).foldl (fun c x => c.markChange (extentOf (x.1 * 64))) c

/-- What waited for the peer goes on without it (R135, R244): writes complete unmirrored, charges the peer still held are free, repairs are
made alone. -/
def withoutPeer (c : Chip) : Chip :=
  let c := { c with
    localStall := []
    charges := c.charges.filter fun x => !x.2.here
    twe := { c.twe with lossDeclared := none, handoverWait := [], returnQ := [] } }
  let c := c.continueTags (fun t => at' t .writeWm) completeWrite
  let c := c.continueTags (fun t => at' t .applied) afterOrder
  (c.repairsWithout.settle).runCommons

/-- A drill under way when the pair leaves MIRRORED ends, and DRILL_STATUS reads IDLE (DESIGN CHOICE, log 101: R205 does not say). -/
def endDrill (c : Chip) : Chip :=
  if c.twe.drilling.isNone then c
  else (({ c with twe := { c.twe with drilling := none, drillBack := none } }.put F.ROLE_DRILL_STATUS_STATE 0).put F.ROLE_DRILL_STATUS_CODE 0).put
    F.ROLE_TAKEOVER_DRILL 0

/-- The chip enters ALONE from MIRRORED (R161 to R163, R177, R203, R215, R254): its peer has stopped, is fenced or isolated. It is to be home of
every port, and claims those it is not home of. -/
def becomeAlone (c : Chip) : Chip :=
  if !c.mirrored then c
  else
    let old := (List.range 64).filter fun d => c.domValid d && c.commons d && !c.arbiter d
    let c := allPorts.foldl claim c.orderReceived
    let c := (c.enterAlone.markUncovered.discardGated false).takeArbitration old
    let c := c.withoutPeer.endDrill
    { c with twe := { c.twe with handing := [] } }

/-- The chip enters ISOLATED (R201, R203): every OWN line low, no role, no write applied any more; a copy that was whole is clean, and so is
that of a change-map resync, which a later one goes on from (R219). -/
def isolate (c : Chip) : Chip :=
  let clean := if c.mode = mJOINING then c.abortResync.twe.cleanCopy else true
  let c := (c.abortResync.dropOwn.setMode mISOLATED).discardGated true
  let c := allPorts.foldl (fun c p => c.setRole p 3) c.endDrill
  let c := { c with
    tags := []
    che := { c.che with snoops := [], victims := [], unsettled := [], ordered := [], answered := [], fetching := [] }
    twe := { c.twe with
      cleanCopy := clean
      lossDeclared := none
      handing := []
      handoverWait := []
      returnQ := []
      holds := []
      repairs := []
      fromStarting := false } }
  let c := allHeads.foldl (fun c h => c.leaveL0 h 0 0) c
  c.showRepairs.raise F.ROLE_EV_ISOLATED

/-- Coxia Link loss is declared (R200, R201): a joiner and chip B isolate themselves, chip A stays and enters ALONE once every OWN_IN is
low; a survivor's resync stops. -/
def declareLoss (c : Chip) : Chip :=
  if c.mode = mJOINING then (c.raise F.ROLE_EV_LINK_LOST).isolate
  else if c.mirrored then
    if c.twe.lossDeclared.isSome then c
    else
      let c := c.raise F.ROLE_EV_LINK_LOST
      if c.twin = .B then c.isolate
      else if allPorts.any c.ownIn then { c with twe := { c.twe with lossDeclared := some c.round } }
      else c.becomeAlone
  else if c.serving && c.get F.RSY_RESYNC_STATE != 0 then (c.raise F.ROLE_EV_LINK_LOST).abortResync
  else c

/-! ## Taking over a port (R191 to R197) -/

/-- Links of a claimed port that are still in Recovery. -/
def recovering (c : Chip) (p : Fin 6) : List (Fin 24) :=
  (portHeads p).filter fun h => c.ltssm h == 4 && !c.twe.claimCold.contains h

/-- A handover of a port has ended on this chip (R204, R205): a drill whose way back is still to come goes on, any other is done. -/
def handoverDone (c : Chip) (p : Fin 6) : Chip :=
  if !c.twe.handing.contains p then c
  else
    let c := { c with twe := { c.twe with handing := c.twe.handing.filter fun q => q != p } }
    let c := (c.cnt K.ROLE_HANDOVERS).raise F.ROLE_EV_HANDOVER_DONE
    if c.twe.drilling != some p || c.twe.drillBack.isSome then c
    else
      let c := { c with twe := { c.twe with drilling := none } }
      ((c.put F.ROLE_DRILL_STATUS_STATE 2).put F.ROLE_TAKEOVER_DRILL 0).cnt K.ROLE_DRILLS

/-- The mailbox of a head at its new home (R88): a command that changes state ends with Retry Required, but where its announced effect is
still to apply and completes it; one that only reads, and whose completion the old home had not reported, is answered again. -/
def mailTakeover (c : Chip) (h : Fin 24) : Chip :=
  let announced := c.twe.gated.any fun g => match g.ends with | some (.mail k _) => k == h | _ => false
  if (c.head h).mailBusy.isSome then (if announced then c else c.mailRetry h)
  else match (c.head h).mailAgain with
    | some r => (c.mapHead h fun x => { x with mailAgain := none }).mailDone h r
    | none => c

/-- Whether an effect's application answers a data object of a head (R562, R564). -/
def answersDoe (h : Fin 24) (e : Effect) : Bool :=
  match e with
  | .session k _ _ | .ideKeys k _ | .certificate k _ => k == h
  | _ => false

/-- The DOE instance of a head at its new home (R562): an object in transfer, whose answer waits for an effect announced here, is dropped, and DOE
Error set. -/
def doeTakeover (c : Chip) (h : Fin 24) : Chip := if c.twe.gated.any fun g => answersDoe h g.effect then c.doeFails h else c

/-- The port is the new home's (R192 step 8, R94, R153, R197, R562): role HOME; a message on every unmasked vector with a cause not yet
signalled, with empty counts from here on, mailbox commands and DOE objects under way are settled, the rings go on under their new keeper, and
every head has a TAKEOVER record. -/
def beHome (c : Chip) (p : Fin 6) : Chip :=
  let c := c.setRole p 1
  let c := (portHeads p).foldl (fun c h =>
    let c := (((c.head h).vecs.filter fun x => decide (x.2.causes > 0)).map (·.1)).foldl (fun c v =>
      if (c.vec h v).masked then c.mapVec h v fun x => { x with causes := 0 } else c.sendMsix h v) c
    ((c.mailTakeover h).doeTakeover h).headRecord h 1 0x070 3 0) c
  let c := (List.finRange 64).foldl (fun c q =>
    match c.ringOwner q.val with
    | some h => if portOf h = p then c.ringTakeover q else c
    | none => c) c
  c.handoverDone p

/-- A shadow entry becomes a tag of the new home, and is answered from this chip's copy (R194): a write that its new carbon may lack is
bridged to it. -/
def answerShadow (c : Chip) (t : Tag) : Chip :=
  let t := { t with isTag := true }
  let c := c.setTag t
  if !at' t .done then c
  else match c.decodeHpa t.req.head t.req.hpa, t.req.kind with
    | none, _ => c.unmapped t
    | some _, .memWr | some _, .memWrPtl => (c.bridgeWrite t.req t.dpa).completeWrite t
    | some _, .memInv | some _, .memInvNT => c.respondCmp t
    | some _, _ => if t.fixed then c.serveFull t else c.beginRead t

/-- A link taken over is in L0 (R193, R194): the flits it kept stand for replay, new ones count on from them, and every request seen and not
answered becomes a tag. The correctable error report that R105 permits is never made (DESIGN CHOICE, log 101). -/
def carryOver (c : Chip) (h : Fin 24) : Chip :=
  let x := c.head h
  let k := x.track.kept.filter fun t => flitLater t.flit x.hostAck
  let c := (c.setLtssm h 3).mapHead h fun x => { x with
    txHist := k
    txCount := flitMax x.txCount x.track.decodedDown
    rxCount := flitMax x.rxCount x.track.decodedUp
    track := {} }
  let ts := c.tags.filter fun t => t.req.head == h && !t.isTag
  let c := (c.cnt K.ROLE_REPLAYED_FLITS k.length).cnt K.ROLE_ANSWERED_REQUESTS ts.length
  (ts.foldl answerShadow c).runCommons

/-- A cold takeover of a link (R196): it goes to Detect, and what was in flight on it goes unanswered. -/
def coldLink (c : Chip) (h : Fin 24) : Chip :=
  let c := { c with tags := c.tags.filter fun t => t.req.head != h }
  let c := c.mapHead h fun x => { x with reqQ := [], rwdQ := [], txHist := [], rxHist := [], track := {} }
  let c := ((c.toDetect h).cnt K.ROLE_COLD_TAKEOVERS).raise F.ROLE_EV_COLD_TAKEOVER
  { c with twe := { c.twe with claimCold := c.twe.claimCold.filter fun g => g != h } }

/-- The guard of a port is met (R182, R192 steps 4 to 6): the chip asserts its OWN line where its role asks for it; cold links go to Detect. -/
def meetGuard (c : Chip) (p : Fin 6) : Chip :=
  if c.ownIn p then c
  else
    let c := (c.put (F.HP_PORT_STATUS_GUARD_MET p.val) 1).assertOwn p
    if c.role p ≠ 4 || !c.ownOut p then c
    else
      let c := (c.twe.claimCold.filter fun h => portOf h == p).foldl coldLink c
      if (c.recovering p).isEmpty then c.beHome p else c

/-! ## The check of the peer (R181, R187, R198, R200) -/

/-- Saturating count of consecutive losses. -/
def lossRun (n : Nat) (ok : Bool) : Nat := if ok then 0 else min 255 (n + 1)

/-- What the check of a Round finds: heartbeat and pulse, with their counts. A frame that comes after it counts for no heartbeat (R171). -/
def countCheck (c : Chip) (hb pulse : Bool) : Chip :=
  let c := (c.put F.ROLE_PAIR_STATE_PEER_ALIVE (bit hb)).put F.ROLE_PAIR_STATE_PULSE_OK (bit pulse)
  let c := (c.put F.ROLE_PAIR_STATE_HB_LOST (lossRun (c.get F.ROLE_PAIR_STATE_HB_LOST) hb)).put F.ROLE_PAIR_STATE_PULSE_LOST
    (lossRun (c.get F.ROLE_PAIR_STATE_PULSE_LOST) pulse)
  let c := if hb then c else (c.cnt K.ROLE_HB_LOST_ROUNDS).cnt K.PMK_FRAMES_LOST
  let c := if pulse then c else c.cnt K.ROLE_PULSE_LOST_ROUNDS
  { c with twe := { c.twe with
    hbSeen := false
    checked := some c.round
    bothLost := if !hb && !pulse then c.twe.bothLost + 1 else 0
    hbOnlyLost := if !hb && pulse then c.twe.hbOnlyLost + 1 else 0
    pulseOnlyLost := if hb && !pulse then c.twe.pulseOnlyLost + 1 else 0 } }

/-- The check and what it leads to: a silent peer is fenced, link loss is declared, a lost pulse alone is only reported. -/
def checkPeer (c : Chip) (pulse : Bool) : Chip :=
  let c := c.countCheck c.twe.hbSeen pulse
  let c := if c.twe.pulseOnlyLost ≥ 2 then c.raise F.ROLE_EV_PULSE_FAULT else c
  if c.twe.bothLost ≥ 2 then
    (if c.mirrored then c.fencePeer.raise F.ROLE_EV_PEER_SILENT
     else if c.serving || c.mode == mJOINING then c.abortResync else c)
  else if c.twe.hbOnlyLost ≥ 2 then c.declareLoss
  else c

/-- The peer fail-stops or is fenced (R184, R191): a chip that is MIRRORED claims every port it is carbon of. A joiner's copy is not whole: it
never serves alone (R219), claims nothing, and stays in JOINING, which R161 lets it leave for ISOLATED on declared link loss only (log 61). -/
def peerStopped (c : Chip) : Chip :=
  let c := (c.put F.ROLE_PAIR_STATE_DEAD_SEEN 1).raise F.ROLE_EV_PEER_FAILSTOP
  if c.mirrored then c.becomeAlone else c.abortResync

/-- The peer's OWN line of a port falls (R191, R201): its carbon claims the port, but for a joiner (R219, log 61). After a declared link loss the
chip is ALONE once every OWN_IN is low; in a handover it stays MIRRORED. -/
def peerReleases (c : Chip) (p : Fin 6) : Chip :=
  let c := c.put (F.HP_PORT_STATUS_OWN_IN p.val) 0
  let waits := c.twe.lossDeclared.isSome && allPorts.any c.ownIn
  if c.mode = mJOINING then c
  else if c.role p = 2 then
    let c := c.claim p
    if c.twe.handing.contains p || waits then c else c.becomeAlone
  else if c.twe.lossDeclared.isSome && !waits then c.becomeAlone
  else c

/-- The old home of a port has seen the new home's OWN line (R204): it becomes carbon, its open requests are shadow entries, and it keeps what
it stored of them. -/
def becomeCarbon (c : Chip) (p : Fin 6) : Chip :=
  let c := c.mapTags (fun t => portOf t.req.head == p) fun t =>
    { t with isTag := false, stage := match t.stage with | .order | .snoop => t.stage | _ => .done }
  let c := (portHeads p).foldl (fun c h => c.mapHead h fun x => { x with
    reqQ := []
    rwdQ := []
    reqNoted := []
    rwdNoted := []
    noRoom := []
    rxHist := []
    txHist := []
    lastStored := x.admitted
    lastWmSent := none
    lastDrainWm := none }) c
  let c := { c with charges := c.charges.filter fun x => !(portOf x.2.head == p && x.2.here) }
  (c.setRole p 2).handoverDone p

/-- The peer's OWN line of a port rises (R182, R183): the guard is broken; where this chip drives the port too, that is a conflict, which
chip B and a claiming chip give way in. -/
def peerOwns (c : Chip) (p : Fin 6) : Chip :=
  let c := (c.put (F.HP_PORT_STATUS_OWN_IN p.val) 1).put (F.HP_PORT_STATUS_GUARD_MET p.val) 0
  if c.role p = 5 then c.becomeCarbon p
  else if c.ownOut p then
    let c := (c.cnt (K.HP_OWN_CONFLICTS p.val)).raise (F.HP_EV_OWN_CONFLICT p.val)
    if c.twin = .B || c.role p = 4 then c.setOwn p false else c
  else c

/-! ## Starts without the twin (R222, R224, R556) -/

/-- The source of a chip that starts without its twin's summary (R222, R224, R402): LOCAL where its own seal is usable, else DIRTY; a chip of
no pair forms one. -/
def sourceAlone (c : Chip) (key : BitVec 512) : Chip :=
  let c := { c with rst := { c.rst with step := 9 } }
  match c.svc.own with
  | some x =>
    if x.serial = 0 then c.formPair c.rst.chipSerial (some key)
    else c.setSource (if x.usable then 1 else 3)
  | none => c.setSource 3

/-- The wait for the twin ends in STARTING (R222, R224, R556). -/
def soloWaitOver (c : Chip) (pulseEdge : Bool) (key : BitVec 512) : Chip :=
  if c.mode ≠ mSTARTING || c.rst.step ≠ 8 || c.twe.peerFrame.isSome then c
  else if pulseEdge then
    if c.linkUp then (c.put F.RST_START_TWIN_ABSENT 1).raise F.RST_EV_TWIN_ABSENT
    else if c.twin = .B then { c.isolate with twe := { c.isolate.twe with fromStarting := true } }
    else if c.twe.startLinkDown then c
    else ({ c with twe := { c.twe with startLinkDown := true } }.raise F.ROLE_EV_START_LINK_DOWN).raise F.ROLE_EV_LINK_LOST
  else if c.cfg F.ROLE_START_CFG_SOLO_ALLOW = 1 then (c.sourceAlone key).startSolo
  else (c.put F.RST_START_TWIN_ABSENT 1).raise F.RST_EV_TWIN_ABSENT

end Chip

open Chip

namespace State

/-! ## Handover and the drill (R204 to R206) -/

/-- Whether the home of a port has seen every link of it that is in L0 TRACKING in the peer's last frame (R204). -/
def portTracked (s : State) (p : Fin 6) : Bool :=
  match s.homeOf p with
  | none => false
  | some w =>
    let c := s.chip w
    (portHeads p).all fun h => !c.inL0 h || (match c.twe.peerFrame with | some f => f.track.testBit h.val | none => false)

/-- Whether both chips are MIRRORED. -/
def bothMirrored (s : State) : Bool := s.a.up && s.b.up && s.a.mirrored && s.b.mirrored

/-- Whether a chip reads FAULT, so that no handover starts (R23). -/
def alignFault (s : State) : Bool := s.a.get F.CLK_ALIGN_STATE_STATE == 3 || s.b.get F.CLK_ALIGN_STATE_STATE == 3

/-- The home of a port sets it to HANDING, stops at a flit boundary and releases its OWN line (R204). -/
def handOver (s : State) (p : Fin 6) : State :=
  match s.homeOf p with
  | none => s
  | some w =>
    if (s.chip w).role p ≠ 1 then s
    else
      let s := s.mapBoth fun c => { c with twe := { c.twe with handing := c.twe.handing ++ [p] } }
      s.mapChip w fun c => (c.setRole p 5).setOwn p false

/-- A handover starts, or waits for its links (R204). -/
def wantHandover (s : State) (p : Fin 6) : State :=
  if !s.bothMirrored then s
  else if s.portTracked p && !s.alignFault then s.handOver p
  else s.mapBoth fun c => { c with twe := { c.twe with handoverWait := c.twe.handoverWait ++ [(p, c.round)] } }

/-- PORT_HOME is applied (R204): the ports whose preferred home has moved are handed over. -/
def portHomeApplied (s : State) (old new : Nat) : State :=
  allPorts.foldl (fun s p => if old.testBit p.val != new.testBit p.val then s.wantHandover p else s) s

/-- The first condition of R206 that refuses a drill of a port, 0 where none does; a chip in FAULT starts none (R23). -/
def drillCode (s : State) (p : Fin 6) : Nat :=
  if !s.portTracked p then 0x41
  else if !s.bothMirrored then 0x42
  else if s.a.twe.drilling.isSome || !s.a.twe.handing.isEmpty || !s.a.twe.handoverWait.isEmpty || !s.a.twe.returnQ.isEmpty then 0x43
  else if s.a.svc.pfailLow || s.b.svc.pfailLow || s.a.saveActive || s.b.saveActive then 0x44
  else if s.alignFault then 0x0C
  else 0

/-- A drill of a port starts, or is refused (R205, R206, R599). -/
def drill (s : State) (p : Fin 6) : State :=
  let code := s.drillCode p
  if !(s.a.running 0x070 && s.b.running 0x070) then
    s.mapBoth fun c => if c.up && !c.running 0x070 then c.reject 0x070 0x0C 0x10C else c
  else if code ≠ 0 then s.mapBoth fun c =>
    if !c.up then c
    else
      let c := ((c.put F.ROLE_DRILL_STATUS_STATE 3).put F.ROLE_DRILL_STATUS_CODE code).put F.ROLE_TAKEOVER_DRILL 0
      (c.reject 0x070 code 0x10C).raise F.ROLE_EV_DRILL_REFUSED
  else
    let s := s.mapBoth fun c =>
      let c := { c with twe := { c.twe with
        drilling := some p
        drillBack := if c.cfgOn F.ROLE_TAKEOVER_RETURN then some (p, none) else none } }
      ((c.put F.ROLE_DRILL_STATUS_STATE 1).put F.ROLE_DRILL_STATUS_CODE 0).put F.ROLE_TAKEOVER_DRILL 1
    s.handOver p

end State

/-! ## The commands -/

/-- PEER_CHECK (R181): 400 ns into the Round. -/
def execPeerCheck (w : Twin) (pulse : Bool) (s : State) : Host.Outcome State Fault Refusal :=
  .next (s.onUp w fun c => if c.mode = mHELD then c else c.checkPeer pulse)

/-- LINK_DOWN_TIMEOUT (R200). -/
def execLinkDownTimeout (w : Twin) (s : State) : Host.Outcome State Fault Refusal :=
  .next (s.onUp w fun c => if c.get F.CXK_LINK_STATE = 0 && c.is F.ROLE_PAIR_STATE_PULSE_OK then c.declareLoss else c)

/-- ISOLATE_LIMIT_EXPIRY (R202): chip A fences B. -/
def execIsolateLimitExpiry (w : Twin) (s : State) : Host.Outcome State Fault Refusal :=
  .next (s.onUp w fun c =>
    match c.twe.lossDeclared with
    | some r =>
      if c.twin = .A && allPorts.any c.ownIn && decide (c.round ≥ r + c.cfg F.ROLE_DETECT_CFG_ISOLATE_LIMIT) then c.fencePeer else c
    | none => c)

/-- OWN_IN_FALL (R191): the peer's OWN line of the port is low. -/
def execOwnInFall (w : Twin) (p : Fin 6) (s : State) : Host.Outcome State Fault Refusal :=
  let peer := s.chip w.other
  .next (s.onUp w fun c => if c.ownIn p && !(peer.up && peer.ownOut p) then c.peerReleases p else c)

/-- OWN_IN_RISE (R183): the peer's OWN line of the port is high. -/
def execOwnInRise (w : Twin) (p : Fin 6) (s : State) : Host.Outcome State Fault Refusal :=
  let peer := s.chip w.other
  .next (s.onUp w fun c => if !c.ownIn p && peer.up && peer.ownOut p then c.peerOwns p else c)

/-- TWIN_DEAD_N_FALL (R184): the line is low, and not by this chip. -/
def execTwinDeadNFall (w : Twin) (s : State) : Host.Outcome State Fault Refusal :=
  let peer := s.chip w.other
  .next (s.onUp w fun c => if peer.pullsDead && !c.pullsDead then c.peerStopped else c)

/-- TWIN_DEAD_N_RISE (R184): the peer has left HELD. -/
def execTwinDeadNRise (w : Twin) (s : State) : Host.Outcome State Fault Refusal :=
  let peer := s.chip w.other
  .next (s.onUp w fun c => if peer.pullsDead then c else c.put F.ROLE_PAIR_STATE_DEAD_SEEN 0)

/-- GUARD_MET (R182, R192). -/
def execGuardMet (w : Twin) (p : Fin 6) (s : State) : Host.Outcome State Fault Refusal :=
  .next (s.onUp w fun c => c.meetGuard p)

/-- TAKEOVER_LINK_L0 (R192 steps 7 to 9, R193, R194): with the last link of the port the chip is its home. -/
def execTakeoverLinkL0 (w : Twin) (h : Fin 24) (ns : Nat) (s : State) : Host.Outcome State Fault Refusal :=
  .next (s.onUp w fun c =>
    let p := portOf h
    if c.role p ≠ 4 || !c.transmits p || !(c.recovering p).contains h then c
    else
      let c := c.carryOver h
      if !(c.recovering p).isEmpty then c
      else ((c.put F.ROLE_LAST_TAKEOVER_NS ns).peak K.ROLE_TAKEOVER_NS_MAX ns).beHome p)

/-- FAILSTOP_NOW (R188, R189): machine-mode cores of the chip only. -/
def execFailstopNow (w : Twin) (rq : Requester) (s : State) : Host.Outcome State Fault Refusal :=
  .next (s.onUp w fun c => c.ifMachine rq fun c => c.failStop true)

/-- FENCE_IN_FALL (R161, R186): the supervisor drops every OWN line and holds the chip in reset, in HELD. -/
def execFenceInFall (w : Twin) (s : State) : Host.Outcome State Fault Refusal :=
  let peer := s.chip w.other
  .next (s.mapChip w fun c =>
    if !peer.fenceOut || c.rst.fenced then c
    else
      let c := if c.rst.powered then (c.inReset causeFence).put F.ROLE_PAIR_STATE_MODE mHELD else c
      { c with rst := { c.rst with fenced := true } })

/-- FENCE_IN_RISE (R186): the chip starts in STARTING. -/
def execFenceInRise (w : Twin) (s : State) : Host.Outcome State Fault Refusal :=
  .next (if (s.chip w.other).fenceOut || !(s.chip w).rst.fenced then s
  else
    let s := s.mapChip w fun c => { c with rst := { c.rst with fenced := false } }.put F.ROLE_PAIR_STATE_MODE mSTARTING
    s.release w causeFence (s.chip w).plainReport)

/-- FENCE_RELEASE (R185). -/
def execFenceRelease (w : Twin) (rq : Requester) (s : State) : Host.Outcome State Fault Refusal :=
  .next (s.onUp w fun c => c.ifWrites rq 0x070 fun c => c.put F.ROLE_PAIR_STATE_FENCE_OUT 0)

/-- HANDOVER_RETRY (R204, R207): a port whose handover waits is tried again, for up to 250 Rounds; then a change of PORT_HOME is taken back
for that port and rejected with NOT_TRACKING. A port that returns after a resync goes when no other is under way. -/
def execHandoverRetry (p : Fin 6) (s : State) : Host.Outcome State Fault Refusal :=
  let c := s.a
  let drop (c : Chip) : Chip := { c with twe := { c.twe with
    handoverWait := c.twe.handoverWait.filter fun x => x.1 != p
    returnQ := c.twe.returnQ.filter fun q => q != p } }
  .next (if !s.bothMirrored || s.alignFault || !c.twe.handing.isEmpty then s
  else match c.twe.handoverWait.find? fun x => x.1 == p with
    | some x =>
      if s.portTracked p then (s.mapBoth drop).handOver p
      else if c.round < x.2 + 250 then s
      else s.mapBoth fun c =>
        let c := drop c
        let home := c.cfg F.ROLE_PORT_HOME_B_HOME
        let now := s.homeOf p == some Twin.B
        if home.testBit p.val == now then c
        else
          let v := home ^^^ 2 ^ p.val
          let c := c.putCfg F.ROLE_PORT_HOME_B_HOME v
          c.reject 0x070 0x41 0x100
    | none => if c.twe.returnQ.head? = some p && s.portTracked p then (s.mapBoth drop).handOver p else s)

/-- TAKEOVER_DRILL (R205, R206): accepted through the pair alias, it takes effect on the port of TAKEOVER.PORT. -/
def execTakeoverDrill (rq : Requester) (s : State) : Host.Outcome State Fault Refusal :=
  .next (match s.acceptor rq with
    | none => s
    | some w =>
      let c := s.chip w
      if !c.mayWrite rq 0x070 then s.mapChip w deny
      else
        let n := c.cfg F.ROLE_TAKEOVER_PORT
        if h : n < 6 then s.drill ⟨n, h⟩ else s.mapBoth fun c => if c.up then c.reject 0x070 0x01 0x10C else c)

/-- DRILL_RETURN (R205): HOLD_ROUNDS after the old home's links reached TRACKING the port goes back. -/
def execDrillReturn (s : State) : Host.Outcome State Fault Refusal :=
  .next (match s.a.twe.drilling, s.a.twe.drillBack with
    | some p, some (_, some r) =>
      if !s.bothMirrored || s.alignFault || decide (s.a.round < r + s.a.cfg F.ROLE_TAKEOVER_HOLD_ROUNDS) then s
      else (s.mapBoth fun c => { c with twe := { c.twe with drillBack := none } }).handOver p
    | _, _ => s)

/-- START_DRILL (R87): from a manager head; the port is the command's own. -/
def execStartDrill (h : Fin 24) (port : Nat) (s : State) : Host.Outcome State Fault Refusal :=
  .next (match s.homeOf (portOf h) with
    | none => s
    | some w =>
      let c := s.chip w
      if !s.linkIn h || (c.head h).mailBusy.isSome then s
      else if !c.isManager h then s.mapChip w fun c => c.mailDone h { code := 3 }
      else if p : port < 6 then (s.drill ⟨port, p⟩).mapChip w fun c => c.mailDone h {}
      else s.mapChip w fun c => c.mailDone h { code := 2 })

/-- SOLO_WAIT_EXPIRY (R222, R224, R556): SOLO_WAIT_S has passed without a frame. -/
def execSoloWaitExpiry (w : Twin) (pulseEdge : Bool) (s : State) : Host.Outcome State Fault Refusal :=
  let (n, s') := s.nextFree
  .next (s'.onUp w fun c => c.soloWaitOver pulseEdge (Config.drbg n))

/-- START_CFG.FORCE_ALONE is written (R224). -/
def Chip.forceAlone (c : Chip) (rq : Requester) (key : BitVec 512) : Chip :=
  let may := match rq with | .coreM _ => true | .mctp => c.mayWrite rq 0x070 | _ => false
  if !may then c.deny
  else if c.twin = .A && c.mode == mSTARTING && c.twe.startLinkDown && !c.linkUp then
    let x := (c.sourceAlone key).startAlone
    { x with twe := { x.twe with startLinkDown := false } }
  else c

/-- FORCE_ALONE (R224): chip A, at a start with the Coxia Link down, by MCTP or a machine-mode core; ignored otherwise. -/
def execForceAlone (w : Twin) (rq : Requester) (s : State) : Host.Outcome State Fault Refusal :=
  let (n, s') := s.nextFree
  .next (s'.onUp w fun c => c.forceAlone rq (Config.drbg n))

end Sys2Proof.Machine
end

