-- ==== Sys2Proof/Machine/Resync.lean ====
section
/-! DEFINITION. Full and change-map resync of a joiner (R214 to R219, R253, R256, R272), and the speaker of the pair (R220, R221). -/
namespace Sys2Proof.Machine

namespace Chip

/-! ## The speaker (R220, R221, R224) -/

/-- Whether this chip is speaker: the preferred one while MIRRORED, else the one that serves; chip A at a start with the link down. -/
def isSpeaker (c : Chip) : Bool :=
  c.up && (if c.mirrored then c.cfg F.RSY_SPEAKER_CFG_PREF == c.rst.twinId
    else c.serving || (c.mode == mSTARTING && c.twin == .A && c.twe.startLinkDown))

/-- The endpoint state that the speaker sends at each Delivery boundary (R221): its queues and message tags, as the chip holds them. -/
def endpointState (c : Chip) : List Byte := c.mti.last

/-- The speaker sends its endpoint state (R221); a chip that is not speaker serves no endpoint. -/
def speakerDelivery (c : Chip) : Chip :=
  if !c.isSpeaker then { c with twe := { c.twe with endpointUp := false } }
  else if !c.twe.endpointUp then c
  else
    let bytes := c.endpointState
    let c := { c with twe := { c.twe with speakerState := some (c.clk.deliveryNo, bytes) } }
    let c := (c.put F.RSY_SPEAKER_SAVED_DELIVERY c.clk.deliveryNo).cnt K.RSY_SPEAKER_SAVES
    c.postEffect (.speakerState c.clk.deliveryNo bytes) false

/-! ## What the survivor sends (R216, R256) -/

/-- The state of a head that both chips hold. -/
def headCopy (c : Chip) (h : Fin 24) : HeadCopy :=
  let x := c.head h
  { link := c.rd (F.HLNK_LINK_LTSSM h.val).page (F.HLNK_LINK_LTSSM h.val).off
    lanes := c.rd (F.HP_LANE_ACTIVE (portOf h).val).page (F.HP_LANE_ACTIVE (portOf h).val).off
    ideSet := (c.sec.ideSets.find? fun y => y.1 == h.val).map fun y => y.2
    retryWait := x.retryWait
    inReset := x.inReset
    decoders := x.decoders
    vecs := x.vecs
    logs := x.logs
    policy := x.policy
    cfgSpace := x.cfgSpace
    sessions := x.sessions
    cdatSeq := x.cdatSeq }

/-- The pair state of step CONFIG. -/
def pairCopy (c : Chip) : PairCopy := {
  fields := c.pairTable
  objects := c.trm.objects
  routes := c.rte.slots
  keys := c.sec.keys
  heads := allHeads.map fun h => (h.val, c.headCopy h)
  mail := c.mail
  speaker := c.twe.speakerState
  pairSerial := c.svc.pairSerial
  pairKey := c.sec.pairKey
  certificate := c.sec.certificate }

/-- The survivor begins a resync: its joiner has aligned, and the memory is active (R216, R555). -/
def beginResync (c : Chip) : Chip :=
  let c := ((c.put F.RSY_RESYNC_STATE 1).put F.RSY_RESYNC_JOINER 0).raise F.RSY_EV_RESYNC_START
  let c := c.enterAlone
  let c := { c with twe := { c.twe with inCopy := [], copied := [], copyDue := [], arrived := [] } }
  let c := c.send (.resyncState c.pairCopy)
  (c.che.sram ++ c.che.shadow).foldl (fun c x => c.send (.resyncDirectory (x.1 * 64) x.2)) c

/-- The joiner takes what the survivor holds of a head; a link in L0 is acquired where this chip is its carbon (R101, R216). -/
def takeHead (c : Chip) (h : Fin 24) (x : HeadCopy) : Chip :=
  let p := portOf h
  let c := (c.mapHead h fun z => { z with
    retryWait := x.retryWait
    inReset := x.inReset
    decoders := x.decoders
    vecs := x.vecs
    logs := x.logs
    policy := x.policy
    cfgSpace := x.cfgSpace
    sessions := x.sessions
    cdatSeq := x.cdatSeq }).showDecoders h
  let c := c.wr (F.HLNK_LINK_LTSSM h.val).page (F.HLNK_LINK_LTSSM h.val).off x.link
  let c := (c.put (F.HLNK_LINK_MEM_ACTIVE h.val) (bit c.memActive)).wr (F.HP_LANE_ACTIVE p.val).page (F.HP_LANE_ACTIVE p.val).off x.lanes
  let c := match x.ideSet with
    | some n => { c with sec := { c.sec with ideSets := c.sec.ideSets.insert h.val n } }.put (F.SES_HEAD_IDE_ACTIVE h.val) 1
    | none => c
  if !c.isCarbon p then c
  else
    let c := (c.put (F.CARB_CARBON_SHADOW_LTSSM p.val (linkPos h)) (c.ltssm h)).put (F.CARB_CARBON_RATE p.val (linkPos h))
      (c.get (F.HLNK_LINK_RATE h.val))
    if c.inL0 h && c.trackState h == 0 && c.carbonRuns p then c.acquire h else c

/-- The joiner takes the survivor's pair state in place of its own (R216). -/
def takePairCopy (c : Chip) (x : PairCopy) : Chip :=
  let c := if c.get F.RSY_RESYNC_STATE = 0 then
    ((c.put F.RSY_RESYNC_STATE 1).put F.RSY_RESYNC_JOINER 1).raise F.RSY_EV_RESYNC_START else c
  let gone := c.pairTable.filter fun y => !(x.fields.any fun z => z.1 == y.1)
  let c := c.loadPairFields (gone.map fun (y : Nat × Word) => (y.1, resetKey y.1))
  let c := c.loadPairFields x.fields
  let c := x.heads.foldl (fun c y => c.takeHead (Fin.ofNat 24 y.1) y.2) c
  { c with
    trm := { c.trm with objects := x.objects }
    rte := { c.rte with slots := x.routes }
    mail := x.mail
    svc := { c.svc with pairSerial := x.pairSerial }
    twe := { c.twe with speakerState := x.speaker }
    sec := { c.sec with keys := x.keys, pairKey := x.pairKey, certificate := x.certificate }
    che := { c.che with sram := [], shadow := [] } }

/-- The joiner takes a directory entry into its shadow table (R256). -/
def takeDirectory (c : Chip) (line : Nat) (e : DirEntry) : Chip :=
  { c with che := { c.che with shadow := c.che.shadow.set (fun _ => {}) (line / 64) { e with way := 0 } } }

/-! ## What is copied (R215 to R217) -/

/-- Whether the resync copies an extent: every written one in full, the marked ones by change map. -/
def resyncs (c : Chip) (e : Nat) : Bool :=
  c.is F.RSY_RESYNC_KIND || (match c.twe.changeMap with | some m => m.contains e | none => false)

/-- The extents that the survivor has still to copy, those in the front tier or the rest. -/
def toCopy (c : Chip) (front : Bool) : List Nat :=
  (c.trm.ext.filter fun x => x.2.state != 0 && decide (x.2.state ≥ 2) == front && c.resyncs x.1
    && !c.twe.copied.contains x.1 && !c.twe.inCopy.contains x.1 && !(c.twe.copyDue.any fun y => y.1 == x.1)).map fun x => x.1

/-- Whether no copy is announced or under way. -/
def copiesEnded (c : Chip) : Bool := c.twe.inCopy.isEmpty && c.twe.copyDue.isEmpty

/-- The payload bytes of the packed copies of some extents. -/
def payload (c : Chip) (es : List Nat) : Nat := ((es.flatMap parcelsOf).map fun p => (c.parcel p).plen * 256).sum

/-- RESYNC figures of the survivor (R218): extents to copy, and the time left. -/
def showResync (c : Chip) : Chip :=
  let front := c.toCopy true
  let back := c.toCopy false
  let share := c.cfg F.RSY_RESYNC_CFG_MEDIA_SHARE_PCT
  let rate := min (960000000 * share) 87500000000
  let eta := 60 + front.length * 2 ^ 21 / 150000000000 + c.payload back / max 1 rate
  let n := c.twe.copied.length + c.twe.inCopy.length + c.twe.copyDue.length + front.length + back.length
  ((c.put F.RSY_EXTENTS_TOTAL n).put F.RSY_EXTENTS_DONE c.twe.copied.length).put F.RSY_ETA_S eta

/-- The survivor's resync work of a Round: up to 64 extents in copy, each announced in an EFFECT record (R217). -/
def resyncRound (c : Chip) : Chip :=
  let st := c.get F.RSY_RESYNC_STATE
  if !c.serving || (st ≠ 2 && st ≠ 3) then c
  else if c.clientWaits .twin then c.showResync
  else
    let room := 64 - (c.twe.inCopy.length + c.twe.copyDue.length)
    let c := ((c.toCopy (st == 2)).take room).foldl (fun c e =>
      let c := c.postEffect (.copyExtent e c.round) false
      { c with twe := { c.twe with copyDue := c.twe.copyDue ++ [(e, c.round + 2)] } }) c
    c.showResync

/-- The lines of an extent of which this chip holds anything. -/
def viewLines (c : Chip) (e : Nat) : List Nat :=
  let cells := ((c.trm.front ++ c.trm.packed ++ c.trm.patch).filter fun x => extentOf x.1 == e).map fun x => lineBase x.1
  let poison := (c.trm.frontPoison ++ c.trm.packedPoison ++ c.trm.patchPoison).filter fun l => extentOf l == e
  let wmb := (c.wmb.filter fun x => extentOf (x.1 * 64) == e).map fun x => x.1 * 64
  (cells ++ poison ++ wmb).foldl insertN []

/-- The full view of an extent: its bytes that are not 0, and its poisoned lines. -/
def viewOf (c : Chip) (e : Nat) : List (Nat × Byte) × List Nat :=
  let ls := c.viewLines e
  (ls.flatMap fun l => ((List.range 64).map fun i => (l + i, byteOf (c.fullLine l).1 i)).filter fun x => x.2 != 0,
   ls.filter fun l => (c.fullLine l).2)

/-- The extents whose copy begins at this boundary (R217). -/
def copyStarts (c : Chip) : List Nat := (c.twe.copyDue.filter fun x => decide (x.2 ≤ c.round)).map fun x => x.1

/-- The content of an extent in its frame moves for the TWIN client (R430). -/
def oweExtent (c : Chip) (e : Nat) : Chip :=
  match c.frameOf e with
  | some f => c.oweBlock .twin (c.frameAddr f 0) (2 ^ 21)
  | none => c

/-- A copy begins: the joiner holds the extent's writes in its WMB, afresh; the survivor sends the full view. -/
def startCopies (c : Chip) : Chip :=
  let es := c.copyStarts
  let c := { c with twe := { c.twe with
    copyDue := c.twe.copyDue.filter fun x => !es.contains x.1
    inCopy := es.foldl insertN c.twe.inCopy } }
  if c.mode = mJOINING then
    let ls := (c.wmb.filter fun (x : Nat × WmbEntry) => es.contains (extentOf (x.1 * 64))).map fun x => x.1 * 64
    ls.foldl (fun c l => c.setWmb l {}) c
  else es.foldl (fun c e =>
    let v := c.viewOf e
    ((c.cnt K.RSY_RESYNC_BYTES v.1.length).oweExtent e).send (.resyncExtent e v.1 v.2)) c

/-- Copies that the joiner could not hold are in copy no more (R217). -/
def pauseCopies (c : Chip) (es : List Nat) : Chip :=
  { c with twe := { c.twe with paused := [], inCopy := c.twe.inCopy.filter fun (e : Nat) => !es.contains e } }

/-- The joiner has received an extent's content. -/
def takeContent (c : Chip) (e : Nat) (bytes : List (Nat × Byte)) (poisoned : List Nat) : Chip :=
  { c with twe := { c.twe with
    arrived := (c.twe.arrived.filter fun (x : Nat × List Host.Cell × List Nat) => x.1 != e) ++ [(e, bytes, poisoned)] } }.cnt K.RSY_RESYNC_BYTES bytes.length

/-- The bytes of an extent in its frame, every parcel that holds anything dirty. -/
def placeFront (c : Chip) (e : Nat) (cells : List Host.Cell) (poisoned : List Nat) : Chip :=
  let front := copyBytes cells (clearBytes c.trm.front (e * 2 ^ 21) (2 ^ 21)) (e * 2 ^ 21) (2 ^ 21)
  let poison := (c.trm.frontPoison.filter fun l => extentOf l != e) ++ poisoned
  let c := { c with trm := { c.trm with front, frontPoison := poison } }
  (parcelsOf e).foldl (fun c p => c.setDirty p (!(contentOf cells p).isEmpty || poisoned.any fun l => parcelOf l == p)) c

/-- The joiner writes an extent's content to its tier (R217); none where its Last has no room yet. -/
def placeContent (c : Chip) (e : Nat) (bytes : List (Nat × Byte)) (poisoned : List Nat) : Option Chip :=
  let cells : List Host.Cell := (Table.setAll zeroByte [] bytes)
  let c := (parcelsOf e).foldl discardParcel c
  if (c.ext e).state ≥ 2 then
    some (((if (c.frameOf e).isSome then c else c.takeFrame e).placeFront e cells poisoned).oweExtent e)
  else
    (parcelsOf e).foldl (fun (a : Option Chip) p =>
      a.bind fun c =>
        let bad := poisoned.filter fun l => parcelOf l == p
        if (contentOf cells p).isEmpty && bad.isEmpty then some c else c.writeCopy p sHOST cells bad) (some c)

/-- A copy has ended on a chip. -/
def endCopy (c : Chip) (e : Nat) : Chip :=
  let c := { c with twe := { c.twe with
    inCopy := dropN c.twe.inCopy e
    copied := insertN c.twe.copied e
    arrived := c.twe.arrived.filter fun x => x.1 != e } }
  (c.cnt K.RSY_EXTENTS_COPIED).put F.RSY_EXTENTS_DONE c.twe.copied.length

/-! ## The steps (R214, R216) -/

/-- Whether a joiner resyncs by change map (R214); its own copy must have been read back where a start made it. -/
def byChangeMap (survivor joiner : Chip) : Bool :=
  let base := survivor.get F.RSY_CHANGEMAP_BASE_EPOCH_LO + 2 ^ 32 * survivor.get F.RSY_CHANGEMAP_BASE_EPOCH_HI
  joiner.svc.pairSerial == survivor.svc.pairSerial && survivor.twe.changeMap.isSome && joiner.epoch == base
    && joiner.twe.cleanCopy && joiner.svc.dataLoaded && !survivor.cfgOn F.RSY_RESYNC_CFG_FORCE_FULL

/-- The joiner's copy is given up for a full resync. -/
def wipeCopy (c : Chip) : Chip :=
  let c := (c.trm.ext.map fun x => x.1).foldl discardExtent c
  { c with wmb := [], charges := [] }

/-- The joiner's extents take the survivor's placement; those to be copied are laid out afresh. -/
def takePlacement (c : Chip) (es : List (Nat × ExtEntry)) : Chip :=
  es.foldl (fun c x =>
    let c := (c.discardExtent x.1).mapExt x.1 fun _ => { x.2 with frame := none }
    if x.2.state ≥ 2 then c.takeFrame x.1 else c) c

/-- The survivor hands over the commons of a domain list whose ARBITER is the twin (R253): SWEEPs, then HANDOFF. -/
def handOffAll (c : Chip) (ds : List Nat) : Chip :=
  ds.foldl (fun c d =>
    let hs := allHeads.filter fun h => c.tags.any fun t => t.req.head == h && c.domainOf t.dpa == some d
    let c := hs.foldl (fun c h => (c.post (.order 255 h .sweep ((c.head h).seenPos.getD 0) 0 0)).cnt K.ORD_SWEEP_RECORDS) c
    c.handOff d) c

/-- The commons that a chip is to arbitrate while MIRRORED. -/
def arbitratedBy (c : Chip) (id : Nat) : List Nat :=
  (List.range 64).filter fun d => c.domValid d && c.commons d && c.cfg (F.COM_COMMONS_ARBITER d) == id

/-- A resync has completed on a chip (R163, R215, R216): the map and its base are discarded. -/
def resyncEnds (c : Chip) (epoch : Nat) (home : List (Fin 6)) : Chip :=
  let c := ((c.setMode mMIRRORED).setEpoch epoch).put F.RSY_CHANGEMAP_MARKED 0
  let c := (c.put F.RSY_CHANGEMAP_BASE_EPOCH_LO 0).put F.RSY_CHANGEMAP_BASE_EPOCH_HI 0
  let c := { c with
    unmirrored := false
    twe := { c.twe with changeMap := none, inCopy := [], copied := [], copyDue := [], arrived := [], returnQ := home, cleanCopy := true } }
  let c := ((c.put F.RSY_RESYNC_STATE 0).put F.RSY_RESYNC_KIND 0).put F.RSY_RESYNC_JOINER 0
  (c.put F.RSY_ETA_S 0).raise F.RSY_EV_RESYNC_DONE

end Chip

open Chip

namespace State

/-- The survivor and the joiner of a resync in a step, where one runs. -/
def resyncing (s : State) (step : Nat) : Option (Twin × Twin) :=
  let pair (w : Twin) : Bool :=
    let c := s.chip w
    let d := s.chip w.other
    c.up && d.up && c.serving && d.mode == mJOINING && c.get F.RSY_RESYNC_STATE == step && d.get F.RSY_RESYNC_STATE == step
  if pair .A then some (.A, .B) else if pair .B then some (.B, .A) else none

/-- Both chips show a step. -/
def resyncStep (s : State) (step : Nat) : State := s.mapBoth fun c => c.put F.RSY_RESYNC_STATE step

end State

/-! ## The commands -/

/-- RESYNC_CONFIG_DONE (R214, R216): every digest matches; the kind is chosen, and the joiner's extents take the survivor's placement. -/
def execResyncConfigDone (s : State) : Host.Outcome State Fault Refusal :=
  .next (match s.resyncing 1 with
    | none => s
    | some (v, j) =>
      let c := s.chip v
      let d := s.chip j
      if !(pairPages.all fun p => c.pageDigest p == d.pageDigest p) then s
      else
        let map := byChangeMap c d
        let same (x : Nat × ExtEntry) : Bool := !c.resyncs x.1 && (d.ext x.1).state == x.2.state
        let differ := c.trm.ext.filter fun x => !(map && same x)
        let gone := (d.trm.ext.filter fun x => (c.ext x.1).state == 0).map fun x => x.1
        let s := s.mapChip v fun c =>
          let c := c.put F.RSY_RESYNC_KIND (bit !map)
          ((differ.foldl (fun c x => c.markChange x.1) c).put F.RSY_RESYNC_STATE 2).showResync
        let total := (s.chip v).get F.RSY_EXTENTS_TOTAL
        s.mapChip j fun d =>
          let d := if map then gone.foldl discardExtent d else d.wipeCopy
          let d := (d.takePlacement differ).put F.RSY_RESYNC_KIND (bit !map)
          let d := { d with svc := { d.svc with mapsLoaded := true, dataLoaded := true } }
          ((d.put F.RSY_EXTENTS_TOTAL total).put F.RSY_RESYNC_STATE 2).activate)

/-- RESYNC_FRONT_DONE (R216). -/
def execResyncFrontDone (s : State) : Host.Outcome State Fault Refusal :=
  .next (match s.resyncing 2 with
    | none => s
    | some (v, _) => if ((s.chip v).toCopy true).isEmpty && (s.chip v).copiesEnded then s.resyncStep 3 else s)

/-- RESYNC_BACK_DONE (R216). -/
def execResyncBackDone (s : State) : Host.Outcome State Fault Refusal :=
  .next (match s.resyncing 3 with
    | none => s
    | some (v, _) =>
      let c := s.chip v
      if (c.toCopy true).isEmpty && (c.toCopy false).isEmpty && c.copiesEnded then s.resyncStep 4 else s)

/-- RESYNC_FINISH (R207, R216, R253): every link in L0 is TRACKING on the joiner, which reads ALIGNED; both chips enter MIRRORED, ports return
to their preferred homes, and commons to their arbiter. -/
def execResyncFinish (s : State) : Host.Outcome State Fault Refusal :=
  .next (match s.resyncing 4 with
    | none => s
    | some (v, j) =>
      let c := s.chip v
      let d := s.chip j
      if !(allHeads.all fun h => !c.inL0 h || d.trackState h == 2) || d.get F.CLK_ALIGN_STATE_STATE != 2 then s
      else
        let back := if c.cfg F.ROLE_PORT_HOME_AUTO_RETURN = 1 then
          allPorts.filter fun p => (c.cfg F.ROLE_PORT_HOME_B_HOME).testBit p.val != (v == .B) else []
        let ds := c.arbitratedBy d.rst.twinId
        let s := s.mapChip v fun c => (c.handOffAll ds).resyncEnds c.epoch back
        s.mapChip j fun d =>
          let d := d.resyncEnds c.epoch back
          { d with che := { d.che with awaitHandoff := ds.foldl insertN d.che.awaitHandoff } })

/-- RESYNC_CAPACITY_REFUSE (R272): the joiner's host capacity is below the value in force. -/
def execResyncCapacityRefuse (s : State) : Host.Outcome State Fault Refusal :=
  .next (match s.resyncing 1 with
    | none => s
    | some (v, j) =>
      if (s.chip j).get F.TIER_CAPACITY_HOST_256M ≥ (s.chip v).get F.TIER_CAPACITY_HOST_256M then s
      else
        let s := s.mapChip v abortResync
        s.mapChip j fun d =>
          let d := d.wr 0x073 0x00C (withBits (withBits (withBits (d.rd 0x073 0x00C) 8 8 0x08) 16 12 0x800) 31 1 1)
          { d.isolate with twe := { d.isolate.twe with noJoin := true } })

/-- EXTENT_COPY_APPLY (R217): the copies announced for this Round begin on both chips; those that the joiner could not hold are in copy no more, and
will be announced again. -/
def execExtentCopyApply (s : State) : Host.Outcome State Fault Refusal :=
  let paused := s.a.twe.paused ++ s.b.twe.paused
  .next (s.mapBoth fun c => if c.up then (c.pauseCopies paused).startCopies else c)

/-- EXTENT_COPY_DONE (R217): the joiner writes the copied content, and drains its held lines over it. -/
def execExtentCopyDone (extent : Nat) (s : State) : Host.Outcome State Fault Refusal :=
  .next (match (s.resyncing 2).orElse fun _ => s.resyncing 3 with
    | none => s
    | some (_, j) =>
      let d := s.chip j
      match d.twe.arrived.find? fun x => x.1 == extent with
      | none => s
      | some x =>
        if !d.twe.inCopy.contains extent then s
        else match if (d.ext extent).state = 0 then some d else d.placeContent extent x.2.1 x.2.2 with
          | none => s
          | some d => (s.setChip j d).mapBoth fun c => c.endCopy extent)

/-- SPEAKER_ENDPOINT_STARTED (R221): the new speaker starts the endpoint from the latest state it holds. -/
def execSpeakerEndpointStarted (w : Twin) (s : State) : Host.Outcome State Fault Refusal :=
  .next (s.onUp w fun c =>
    if !c.isSpeaker || c.twe.endpointUp then c
    else
      let c := { c with
        twe := { c.twe with endpointUp := true }
        mti := { c.mti with rx := [], tx := [], last := (match c.twe.speakerState with | some x => x.2 | none => []) } }
      c.raise F.RSY_EV_SPEAKER_MOVED)

end Sys2Proof.Machine
end

