-- ==== Sys2Proof/Machine/Link.lean ====
section
/-! DEFINITION. The Coxia Link: envelopes received, training and lanes, the state frame, and the postmark records of watermarks, orders,
holds and alias writes (R99, R100, R164 to R180, R193, R245 to R256). -/
namespace Sys2Proof.Machine

namespace Chip

/-! ## Receiving an envelope (R168, R171) -/

/-- How far a 16-bit number lies after another. -/
def seqAfter (a b : Nat) : Nat := (a + 2 ^ 16 - b % 2 ^ 16) % 2 ^ 16

/-- The peer's ACK frees the replay buffer, and its NAK has what is left resent (R171). -/
def takeAck (c : Chip) (e : Envelope) : Chip :=
  let left := c.link.replay.filter fun x => decide (0 < seqAfter x.seq e.ack) && decide (seqAfter x.seq e.ack < 2 ^ 15)
  let c := { c with link := { c.link with replay := left } }
  let c := (c.put F.CXK_REPLAY_USE left.length).sendWaiting (c.link.waiting.length)
  if e.nak then (c.putOnWire left).cnt K.CXK_REPLAYS else c

/-- An authentic envelope ends a run of failures. One that comes in its order is accepted; one already seen, as every second copy is (R170), is
dropped; one ahead of a gap is dropped, and NAKed. FILL shows only whether all before it came. -/
def accepts (c : Chip) (e : Envelope) : Chip × Bool :=
  let n := seqAfter e.seq c.link.rxSeq
  let ahead (k : Nat) : Bool := decide (k < n) && decide (n < 2 ^ 15)
  let c := { c with link := { c.link with authRun := 0 } }
  if e.body.cls = 0 then ({ c with link := { c.link with nakNext := c.link.nakNext || ahead 0 } }.cnt K.CXK_ENV_RX, true)
  else if n = 1 then ({ c with link := { c.link with rxSeq := e.seq } }.cnt K.CXK_ENV_RX, true)
  else ({ c with link := { c.link with nakNext := c.link.nakNext || ahead 1 } }, false)

/-! ## Alignment from a frame (R21, R22, R24) -/

/-- Whether a pair mode serves alone. -/
def servesAlone (m : Nat) : Bool := m == mALONE || m == mSOLO

/-- Whether this chip keeps the time against the sender of a frame: the chip that was already running, which is the one that serves, else the
one that has counted more Rounds; within two Rounds both started together and chip A keeps it (R22, log 92). -/
def keepsTime (c : Chip) (f : Frame) : Bool :=
  if c.serving && !servesAlone f.mode then true
  else if servesAlone f.mode && !c.serving then false
  else if c.twin = .A then decide (f.round ≤ c.round + 2)
  else decide (f.round < c.round)

/-- The follower takes the round number, the Delivery number, the place in the Delivery and its length (R21, R36). -/
def takeTime (c : Chip) (f : Frame) : Chip :=
  let c := c.setRound f.round
  { c with clk := { c.clk with deliveryNo := f.deliveryNo, deliveryRound := f.deliveryRound, deliveryN := f.deliveryN } }

/-- The chip begins to align, as the keeper or as the follower; the offset reads 0 on the keeper (R39). -/
def beginAlign (c : Chip) (k : Bool) (f : Frame) : Chip :=
  let c := (c.put F.CLK_ALIGN_STATE_STATE 1).put F.CLK_ALIGN_STATE_KEEPER (bit k)
  if k then c.put F.CLK_ALIGN_OFFSET_NS 0 else c.takeTime f

/-- What a frame does to the alignment. Where both chips of an aligning pair claim to keep the time, chip B gives way. -/
def alignTo (c : Chip) (f : Frame) : Chip :=
  let keeper := c.is F.CLK_ALIGN_STATE_KEEPER
  match c.get F.CLK_ALIGN_STATE_STATE with
  | 0 => c.beginAlign (c.keepsTime f) f
  | 1 =>
    if keeper && f.keeper && c.twin == .B then c.beginAlign false f
    else if keeper then (if f.round = c.round then c.put F.CLK_ALIGN_STATE_STATE 2 else c)
    else if f.round = c.round then c
    else c.takeTime f
  | _ => c

/-! ## The state frame (R179 to R181) -/

/-- Bits of the ports or heads that meet a condition. -/
def portBits (p : Fin 6 → Bool) : Nat := allPorts.foldl (fun a x => if p x then a + 2 ^ x.val else a) 0

/-- Bits of the heads that meet a condition. -/
def headBits (p : Fin 24 → Bool) : Nat := allHeads.foldl (fun a x => if p x then a + 2 ^ x.val else a) 0

/-- The 32 pair-scope pages whose digests this Round's frame carries, in rotation (R61). -/
def digestPages (c : Chip) : List Nat :=
  let n := pairPages.length
  (List.range (min 32 n)).map fun i => pairPages.getD ((c.twe.digestTurn + i) % max 1 n) 0

/-- The continuation slots (R180): links of ports homed here that the peer is carbon of and not TRACKING. -/
def contSlots (c : Chip) : List ContSlot :=
  match c.twe.peerFrame with
  | none => []
  | some f => (allHeads.filter fun h => c.isHome (portOf h) && c.inL0 h && !f.track.testBit h.val).map fun h =>
    let x := c.head h
    { head := h, hostToDev := x.rxCount, devToHost := x.txCount, hostAcked := x.hostAck, homeAcked := x.rxCount }

/-- The continuation envelopes of a frame (R180): eight slots in each, lowest head first, and no more than three. -/
def frameParts (c : Chip) : List EnvBody :=
  let xs := c.contSlots
  ((List.range 3).map fun i => (i, (xs.drop (8 * i)).take 8)).filterMap fun x =>
    if x.2.isEmpty then none else some (.framePart (x.1 + 1) x.2)

/-- The chip's state frame. -/
def stateFrame (c : Chip) : Frame := {
  round := c.round
  deliveryNo := c.clk.deliveryNo
  heartbeat := c.twe.heartbeat
  twin := c.twin
  keeper := c.is F.CLK_ALIGN_STATE_KEEPER
  speaker := c.isSpeaker
  mode := c.mode
  own := portBits c.ownOut
  track := headBits fun h => c.isCarbon (portOf h) && c.trackState h == 2
  handing := portBits fun p => c.role p == 5
  deliveryN := c.cfg F.CLK_DELIVERY_CFG_DELIVERY_N
  mbxDone := headBits fun h => (c.head h).mailBusy.isNone
  budget := c.get F.GOV_BUDGET_MIB * 2 ^ 20
  unsaved := c.unsaved
  tags := c.tags.length
  wmbLines := c.wmb.length
  deliveryRound := c.clk.deliveryRound
  pmSent := c.twe.pmSeq
  pmApplied := c.twe.pmApplied
  gateSeq := c.gateSeq
  speakerDelivery := c.get F.RSY_SPEAKER_SAVED_DELIVERY
  digests := c.digestPages.map fun p => (p, c.pageDigest p)
  poolFree := c.poolFree
  parts := c.frameParts.length }

/-- The frame of a Round goes out with its continuations, and covers the chip's gated records so far (R177, R179, R180); a chip without a link
covers them alone. With the replay buffer full no frame goes out in the Round, and FILL carries ACK (R171); nothing is covered then. -/
def sendFrame (c : Chip) : Chip :=
  let c := { c with twe := { c.twe with heartbeat := (c.twe.heartbeat + 1) % 2 ^ 16 } }
  if c.linkSends && decide (c.link.replay.length ≥ 512) then c.send .fill
  else
    let f := c.stateFrame
    let parts := c.frameParts
    let c := { c with clk := { c.clk with sentDeliveryN := if c.linkSends then some f.deliveryN else none } }
    let c := (parts.foldl send (c.send (.frame f))).coverGated c.twin f.gateSeq c.round
    { c with twe := { c.twe with digestTurn := (c.twe.digestTurn + 32) % max 1 pairPages.length } }

/-- What a frame of the peer tells of the drill: the old home's links are TRACKING again (R205). -/
def noteDrill (c : Chip) (f : Frame) : Chip :=
  match c.twe.drillBack with
  | some (p, none) =>
    let links := (portHeads p).filter c.inL0
    let tracked := if c.isHome p then links.all fun h => f.track.testBit h.val
      else c.isCarbon p && links.all fun h => c.trackState h == 2
    if tracked && !c.twe.handing.contains p then { c with twe := { c.twe with drillBack := some (p, some c.round) } } else c
  | _ => c

/-- What the peer's mode leads to (R161, R216, R222, R224). -/
def peerMode (c : Chip) (f : Frame) : Chip :=
  if !c.aligned then c
  else if c.mode = mISOLATED && !c.twe.noJoin then
    if servesAlone f.mode then c.startJoin
    else if c.twe.fromStarting && f.mode == mSTARTING then
      let c := { c with twe := { c.twe with fromStarting := false } }
      (allPorts.foldl (fun c p => c.setRole p 0) c).setMode mSTARTING
    else c
  else if c.serving && f.mode == mJOINING then
    let c := c.enterAlone
    if c.memActive && c.get F.RSY_RESYNC_STATE == 0 then c.beginResync else c
  else c

/-- A digest of the peer's page arrives (R50, R61): MATCH says whether this page's own is equal, PEER_SEEN that it came; a MATCH that falls
while the page runs raises TWIN_DISAGREE. -/
def meetDigest (c : Chip) (x : Nat × Nat) : Chip :=
  let same := c.pageDigest x.1 == x.2
  let fell := (c.rd x.1 0x028).getLsbD 0 && !same && c.running x.1
  let c := c.wr x.1 0x028 (withBits (c.rd x.1 0x028) 0 2 (2 + bit same))
  if fell then c.raiseBit x.1 29 else c

/-- A frame of the peer is taken (R179): alignment, heartbeat, digests, GATE_SEQ and the other fields. The first frame since the link trained has
no last HEARTBEAT to stand one above: it counts as a heartbeat (DESIGN CHOICE, log 101). One that comes after the check of its Round counts for
none (R171). -/
def takeStateFrame (c : Chip) (f : Frame) : Chip :=
  let c := c.alignTo f
  let beat := match c.twe.lastHb with | some n => f.heartbeat == (n + 1) % 2 ^ 16 | none => true
  let c := { c with
    twe := { c.twe with
      peerFrame := some f
      peerSlots := []
      lastHb := some f.heartbeat
      hbSeen := c.twe.hbSeen || (beat && f.round == c.round && c.twe.checked != some c.round) }
    clk := { c.clk with peerDeliveryN := some f.deliveryN } }
  let c := f.digests.foldl meetDigest c
  let c := (allHeads.filter fun h => f.mbxDone.testBit h.val).foldl mailReported c
  let c := allHeads.foldl (fun c h =>
    if c.isHome (portOf h) then c.mapHead h fun x => { x with peerTracks := x.peerTracks && f.track.testBit h.val } else c) c
  let c := (c.peerHasApplied f.pmApplied).coverGated c.twin.other f.gateSeq f.round
  ((c.showPeerHeadroom).noteDrill f).peerMode f

/-- A frame arrives; a twin that carries this chip's own TWIN_ID counts as absent (R584). -/
def hearFrame (c : Chip) (f : Frame) : Chip := if f.twin == c.twin then c else c.takeStateFrame f

/-! ## What the carbon hears on the carbon lanes (R100, R115, R193, R208) -/

/-- One MemData in 2^RATE_LOG2 of a private domain is sampled (R208). -/
def sampleRead (c : Chip) (dpa : Nat) : Chip :=
  if !c.cfgOn F.REP_CSIGN_CFG_ENABLE || c.inCommons dpa then c
  else
    let n := c.twe.csign
    let c := { c with twe := { c.twe with csign := n + 1 } }
    if n % 2 ^ c.cfg F.REP_CSIGN_CFG_RATE_LOG2 ≠ 0 then c
    else
      let c := c.cnt K.REP_CSIGN_SAMPLES
      if c.inDram dpa then c.oweLines .twin (c.place (c.dramAddr dpa)).ch 2 else c

/-- A response to a head closes the shadow entry of its request; that of a commons access that no record has ordered here yet stays, and is
noted (R115, R254). -/
def closeShadow (c : Chip) (h : Fin 24) (pos : Pos) : Chip :=
  match c.tags.find? fun t => t.req.head == h && t.req.pos == pos && !t.isTag with
  | none => c
  | some t =>
    if at' t .order then { c with che := { c.che with answered := c.che.answered ++ [(h, pos.code)] } }
    else (c.dropTag t).runCommons

/-- A flit that the home sent is used in stream order: it is kept for replay, and what it carries is followed. -/
def useDown (c : Chip) (h : Fin 24) (t : TxFlit) : Chip :=
  let c := (c.mapHead h fun x => { x with
    reqUsed := x.reqUsed - t.credits.1
    rwdUsed := x.rwdUsed - t.credits.2
    track := { x.track with kept := x.track.kept ++ [t] } }).cnt (K.HLNK_FLITS_TX h.val)
  let c := match t.msg with
    | .memData pos dpa _ _ _ => ((c.closeShadow h pos).cnt (K.HLNK_MEM_READS h.val)).sampleRead dpa
    | .cmp pos _ =>
      let write := c.tags.any fun t => t.req.head == h && t.req.pos == pos && !t.isTag && isWrite t.req.kind
      (c.closeShadow h pos).cnt (K.HLNK_MEM_WRITES h.val) (bit write)
    | .snoop _ line =>
      if c.che.snoops.any fun x => x.line == line && x.head == h then
        { c with che := { c.che with snoops := c.che.snoops.map fun (x : Snoop) =>
          if x.line == line && x.head == h then { x with sent := true } else x } }
      else { c with che := { c.che with early := c.che.early ++ [(line, h, none)] } }
    | .msix v _ _ => c.mapVec h v fun x => { x with causes := 0 }
    | _ => c
  let c := c.sendTapWm h .deviceToHost t.flit
  if (c.head h).track.kept.length > c.histCap h then c.lose h else c

/-- Flits that waited behind a fetch are used, up to the next that is missing. -/
def pumpDown (c : Chip) (h : Fin 24) : Nat → Chip
  | 0 => c
  | n + 1 =>
    let k := (c.head h).track
    match k.behindDown with
    | [] => c
    | t :: r =>
      if k.missedDown.any fun f => flitLater t.flit f then c
      else ((c.mapHead h fun x => { x with track := { x.track with behindDown := r } }).useDown h t).pumpDown h n

/-- A flit behind others that are missing. -/
def insertFlit (t : TxFlit) : List TxFlit → List TxFlit
  | [] => [t]
  | x :: r => if flitLater x.flit t.flit then t :: x :: r else x :: insertFlit t r

/-- The next flit of the home reaches the carbon: decoded and used, or kept behind a missing one, or missing itself. -/
def hearDown (c : Chip) (h : Fin 24) (t : TxFlit) (decoded : Bool) : Chip :=
  if !decoded then (c.mapHead h fun x => { x with track := { x.track with missedDown := x.track.missedDown ++ [t.flit] } }).showFetches h
  else
    let c := c.mapHead h fun x => { x with track := { x.track with behindDown := insertFlit t x.track.behindDown } }
    c.pumpDown h ((c.head h).track.behindDown.length + 1)

/-- The number of the next flit of the home that the carbon has not heard yet. -/
def nextDown (c : Chip) (h : Fin 24) : Nat :=
  let k := (c.head h).track
  (k.decodedDown + 1 + k.missedDown.length + k.behindDown.length) % 2 ^ 36

/-- Requests that waited behind a fetch are used in stream order, up to the next that is missing (R100). -/
def pumpUp (c : Chip) (h : Fin 24) : Nat → Chip
  | 0 => c
  | n + 1 =>
    let k := (c.head h).track
    match k.behind with
    | [] => c
    | f :: q =>
      if k.missed.any fun m => flitLater f.flit m then c
      else ((c.mapHead h fun x => { x with track := { x.track with behind := q } }).carbonFlit f h).pumpUp h n

/-- A flit of the host behind others that are missing. -/
def insertUp (f : RxFlit) : List RxFlit → List RxFlit
  | [] => [f]
  | x :: q => if flitLater x.flit f.flit then f :: x :: q else x :: insertUp f q

/-- A fetched flit of the host arrives (R100); one that has left the home's history loses the link (R101). -/
def fetchedUp (c : Chip) (h : Fin 24) (flit : Nat) (r : Option RxFlit) : Chip :=
  let k := (c.head h).track
  if c.trackState h ≠ 2 || !k.missed.contains flit then c
  else match r with
    | none => c.lose h
    | some r =>
      let c := c.mapHead h fun x => { x with track := { x.track with missed := dropN x.track.missed flit, behind := insertUp r x.track.behind } }
      (c.pumpUp h (k.behind.length + 2)).showFetches h

/-- A fetched flit of the home arrives. -/
def fetchedDown (c : Chip) (h : Fin 24) (flit : Nat) (m : Option TxFlit) : Chip :=
  let k := (c.head h).track
  if c.trackState h ≠ 2 || !k.missedDown.contains flit then c
  else match m with
    | none => c.lose h
    | some t =>
      let c := c.mapHead h fun x => { x with track := { x.track with
        missedDown := dropN x.track.missedDown flit
        behindDown := insertFlit t x.track.behindDown } }
      (c.pumpDown h (k.behindDown.length + 2)).showFetches h

/-- The home answers a fetch from its history (R99, R100). -/
def answerFetch (c : Chip) (h : Fin 24) (dir : Direction) (flit : Nat) : Chip :=
  let c := c.cnt (K.HIST_FETCH_SERVED (portOf h).val (linkPos h))
  match dir with
  | .hostToDevice => c.send (.fetchUp h flit ((c.head h).rxHist.find? fun x => x.flit == flit))
  | .deviceToHost => c.send (.fetchDown h flit ((c.head h).txHist.find? fun x => x.flit == flit))

/-! ## Bridged writes (R178) -/

/-- The carbon stores a bridged write, where it has not stored it yet, and covers it. -/
def takeBridged (c : Chip) (x : BridgedWrite) : Chip :=
  if covers (c.head x.head).lastStored x.pos.code || !c.isCarbon (portOf x.head) then c
  else
    let full := x.enables == allBytes
    let c := (c.cnt K.PMK_BRIDGED_WRITES).mapHead x.head fun y => { y with seenPos := some x.pos.code }
    if !c.storesWrite x.dpa then c.sendWriteWm x.head x.pos.code
    else if c.inCommons x.dpa then
      let r : Request := ⟨x.head, if full then .memWr else .memWrPtl, x.pos, 0, x.enables, x.data, x.poison, 0⟩
      (c.sendWriteWm x.head x.pos.code).enterCommons { req := r, dpa := x.dpa, isTag := false, stage := .done }
    else (c.wmbWrite x.head x.pos.code x.dpa x.data x.enables x.poison full).sendWriteWm x.head x.pos.code

/-! ## Watermarks at the home (R175) -/

/-- WRITE_WM: every write of the link at or before the position is in the carbon's WMB. -/
def takeWriteWm (c : Chip) (h : Fin 24) (pos : Nat) : Chip :=
  let c := c.mapHead h fun x => { x with covered := if covers x.covered pos then x.covered else some pos }
  let stalled (p : Nat) : Bool := (portHeads (Fin.ofNat 6 p)).any fun g => match (c.head g).localPos with
    | some q => !covers (c.head g).covered q
    | none => false
  let c := { c with localStall := c.localStall.filter stalled }
  (c.continueTags (fun t => at' t .writeWm && t.req.head == h && !posLater t.req.pos.code pos) completeWrite).runCommons

/-- TAP_WM: the histories let go of what the carbon has, and bridging of the link ends. -/
def takeTapWm (c : Chip) (h : Fin 24) (dir : Direction) (flit : Nat) : Chip :=
  match dir with
  | .hostToDevice => c.mapHead h fun x => { x with
      tapUp := flit
      peerTracks := true
      rxHist := x.rxHist.filter fun y => flitLater y.flit flit }
  | .deviceToHost => (c.mapHead h fun x => { x with tapDown := flit }).ackTx h 0

/-- DRAIN_WM: the carbon has freed the lines charged by the link's writes up to the position; those that are free here too are charged no
more (R129). -/
def takeDrainWm (c : Chip) (h : Fin 24) (pos : Nat) : Chip :=
  let c := c.mapHead h fun x => { x with peerDrained := if covers x.peerDrained pos then x.peerDrained else some pos }
  { c with charges := c.charges.filter fun x => !(x.2.head == h && x.2.here && covers (c.head h).peerDrained x.2.pos) }

/-! ## Reads of peer pages that no answer will reach (R43) -/

/-- A read of a peer page that waits is completed with all-ones. -/
def failRead (c : Chip) (x : Requester × Nat × Nat) : Chip := (c.cnt K.RAS_PEER_ACCESS_FAIL).answer x.1 (onesOf x.2.1)

/-- The reads that wait and meet a condition are completed with all-ones. -/
def failReads (c : Chip) (p : Requester × Nat × Nat → Bool) : Chip :=
  (c.link.asked.filter p).foldl failRead { c with link := { c.link with asked := c.link.asked.filter fun x => !p x } }

/-- Reads that have waited for a whole Round, and so for longer than the 2 µs of R43, are completed. -/
def lateReads (c : Chip) : Chip := c.failReads fun x => decide (x.2.2 + 1 < c.round)

/-- The answer to a read of a peer page arrives; one that was completed already is dropped. -/
def takeAnswer (c : Chip) (rq : Requester) (v : BitVec 64) : Chip :=
  match c.link.asked.find? fun x => x.1 == rq with
  | some x => { c with link := { c.link with asked := c.link.asked.erase x } }.answer rq v
  | none => c

/-! ## Lanes (R166, R167) -/

/-- The chip's receivers lose the link (R166): its state is DOWN, it keeps its own Round, and its reads of peer pages fail. -/
def fallLink (c : Chip) : Chip :=
  let c := if c.linkUp then ((c.put F.CXK_LINK_STATE 0).cnt K.CXK_LINK_DOWNS).raise F.CXK_EV_LINK_DOWN else c.put F.CXK_LINK_STATE 0
  let c := c.keepOwnRound
  { c with
    link := { c.link with authRun := 0, nakNext := false, sparing := [] }
    twe := { c.twe with lastHb := none, hbSeen := false } }.failReads fun _ => true

/-- The lanes that carry data. -/
def lanesInUse (c : Chip) : List Nat := (List.range 18).filter fun l => c.is (F.CXLANE_LANE_IN_USE l)

/-- LINK.LANES, LANES_ACTIVE and LANES_FAILED follow the lanes; with the link in use its state follows their number: UP, DEGRADED, or DOWN with fewer
than MIN_LANES. -/
def showLanes (c : Chip) : Chip :=
  let ls := c.lanesInUse
  let bits (l : List Nat) : Nat := l.foldl (fun a x => a + 2 ^ x) 0
  let c := ((c.put F.CXK_LINK_LANES ls.length).put F.CXK_LANES_ACTIVE (bits ls)).put F.CXK_LANES_FAILED
    (bits ((List.range 18).filter fun l => c.is (F.CXLANE_LANE_RETIRED l)))
  if !c.linkUp then c
  else if ls.length < c.cfg F.CXK_CXK_CFG_MIN_LANES then c.fallLink
  else if ls.length ≥ 16 then c.put F.CXK_LINK_STATE 2
  else (c.put F.CXK_LINK_STATE 3).raise F.CXK_EV_DEGRADED

/-- The spare for a lane: the lowest locked one that is neither in use nor retired nor already in training for another. -/
def spareLane (c : Chip) : Option Nat :=
  (List.range 18).find? fun l => c.is (F.CXLANE_LANE_LOCK l) && !c.is (F.CXLANE_LANE_IN_USE l) && !c.is (F.CXLANE_LANE_RETIRED l)
    && !(c.link.sparing.any fun x => x.2 == l)

/-- A lane is to be replaced (R167): Cobbler draws a spare, which trains in the background; with none left the lane is dropped. -/
def replaceLane (c : Chip) (l : Nat) : Chip :=
  if c.link.sparing.any fun x => x.1 == l then c
  else match if c.cfgOn F.CXK_CXK_CFG_SPARE_EN then c.spareLane else none with
    | none => ((c.put (F.CXLANE_LANE_RETIRED l) 1).put (F.CXLANE_LANE_IN_USE l) 0).showLanes
    | some n =>
      let c := { c with link := { c.link with sparing := c.link.sparing ++ [(l, n)] } }
      let left := c.get F.CBO_CXK_RX_LANES_LEFT - 1
      ((c.put F.CBO_CXK_RX_LANES_LEFT left).drew 10 l (left == 0)).send (.laneSwapAsk l n)

/-- The link as trained: the lanes that locked, 16 of them in use (R166). -/
def lanesTrained (c : Chip) (locked : BitVec 18) : Chip :=
  let ok := (List.range 18).filter fun l => locked.getLsbD l && !c.is (F.CXLANE_LANE_RETIRED l)
  let use := ok.take 16
  (List.range 18).foldl (fun c l => (c.put (F.CXLANE_LANE_LOCK l) (bit (locked.getLsbD l))).put (F.CXLANE_LANE_IN_USE l)
    (bit (use.contains l))) c

end Chip

open Chip

namespace State

/-- A chip's receivers lose the link (R166): its state is DOWN, and what was on its way to it is lost. -/
def linkFalls (s : State) (w : Twin) : State :=
  let s := s.mapChip w fallLink
  s.mapChip w.other fun c => { c with link := { c.link with tx := [] } }.failReads fun _ => true

/-- The envelope at the front of what is on its way to chip `w`, where its receivers take it. -/
def arriving (s : State) (w : Twin) : Option Envelope :=
  if (s.chip w).up && (s.chip w).linkUp then (s.chip w.other).link.tx.head? else none

/-- The envelope leaves the link. -/
def taken (s : State) (w : Twin) : State :=
  s.mapChip w.other fun c => { c with link := { c.link with tx := c.link.tx.tail } }

/-- An envelope of a class arrives at chip `w`: its ACK and NAK are taken, and where it comes in order its body acts. -/
def receive (s : State) (w : Twin) (cls : Nat) (f : EnvBody → State → State) : State :=
  match s.arriving w with
  | none => s
  | some e =>
    if e.body.cls ≠ cls then s
    else
      let s := s.taken w
      let x := ((s.chip w).takeAck e).accepts e
      let s := s.setChip w x.1
      if x.2 then f e.body s else s

end State

/-! ## Envelopes (R169) -/

/-- FILL (R171). -/
def execEnvFill (w : Twin) (s : State) : Host.Outcome State Fault Refusal := .next (s.receive w 0 fun _ s => s)

/-- FRAME (R179, R180): the primary envelope of a state frame, or a continuation, whose slots are kept with the frame. The peer's pool is known from
then on (R40; DESIGN CHOICE, log 102: the spec does not say how that figure travels). -/
def execEnvFrame (w : Twin) (s : State) : Host.Outcome State Fault Refusal :=
  .next (s.receive w 1 fun b s => s.mapChip w fun c =>
    if c.mode = mHELD then c
    else match b with
      | .frame f =>
        let c := c.hearFrame f
        { c with twe := { c.twe with peerPool := some (s.chip w.other).poolFrames } }
      | .framePart _ xs => { c with twe := { c.twe with peerSlots := c.twe.peerSlots ++ xs } }
      | _ => c)

/-- POSTMARK (R24, R174): the records are queued in sequence; a chip that is not aligned takes none yet, an isolated one drops them. -/
def execEnvPostmark (w : Twin) (s : State) : Host.Outcome State Fault Refusal :=
  .next (if !(s.chip w).aligned then s else s.receive w 2 fun b s => match b with
    | .postmark first recs => s.mapChip w fun c =>
        if c.mode = mISOLATED then c
        else { c with twe := { c.twe with rxRecs := c.twe.rxRecs ++ recs.zipIdx.map fun x => ((first + x.2) % 2 ^ 32, x.1) } }
    | _ => s)

/-- FETCH (R100). -/
def execEnvFetch (w : Twin) (s : State) : Host.Outcome State Fault Refusal :=
  .next (s.receive w 3 fun b s => s.mapChip w fun c => match b with
    | .fetchAsk h dir flit => c.answerFetch h dir flit
    | .fetchUp h flit r => c.fetchedUp h flit r
    | .fetchDown h flit m => c.fetchedDown h flit m
    | _ => c)

/-- REPAIR (R210, R211, R237): a request is served, `outcome` saying how the local read ends; an answer repairs the line, or the entry. -/
def execEnvRepair (w : Twin) (outcome : ReadOutcome) (s : State) : Host.Outcome State Fault Refusal :=
  .next (s.receive w 4 fun b s => s.mapChip w fun c => match b with
    | .repairAsk dpa => c.serveRepair dpa outcome
    | .repairData dpa data => c.takeRepair dpa data
    | .entryAsk line => c.send (.entryData line (if outcome = .uncorrectable then none else some (c.dirEntry line)))
    | .entryData line e => c.takeEntry line e
    | _ => c)

/-- BRIDGE (R178). -/
def execEnvBridge (w : Twin) (s : State) : Host.Outcome State Fault Refusal :=
  .next (s.receive w 5 fun b s => s.mapChip w fun c => match b with
    | .bridge ws => if c.mode = mISOLATED then c else ws.foldl takeBridged c
    | _ => c)

/-- EVENT (R90, R103, R209): a page event enters the logs of the heads homed here, CARBON_LOST that of the head it names; a Countersign
report brings the home to read its copy again, which COUNTERSIGN_MISMATCH settles. -/
def execEnvEvent (w : Twin) (s : State) : Host.Outcome State Fault Refusal :=
  .next (s.receive w 7 fun b s => s.mapChip w fun c => match b with
    | .event r l =>
      if r.subcode = 4 then
        let h : Fin 24 := Fin.ofNat 24 r.addr
        if c.isHome (portOf h) then c.logRecord h l.val { r with addr := 0 } else c
      else if r.form = .showick then c.logHere l.val r
      else c.mediaHere r
    | _ => c)

/-- CONTROL (R166, R167, R172): a lane swap uses a spare of the transmit direction; a rekey is agreed; asked to train, the chip sends training
patterns in place of what was on its way in that direction. A delay probe changes nothing that the chip shows. -/
def execEnvControl (w : Twin) (s : State) : Host.Outcome State Fault Refusal :=
  .next (s.receive w 8 fun b s => s.mapChip w fun c => match b with
    | .laneSwapAsk _ _ => c.put F.CBO_CXK_TX_LANES_LEFT (c.get F.CBO_CXK_TX_LANES_LEFT - 1)
    | .rekeyAsk r => { c with link := { c.link with rekeyAt := some r } }
    | .trainAsk => { c with link := { c.link with tx := [] } }
    | _ => c)

/-- RESYNC (R216, R217, R256). -/
def execEnvResync (w : Twin) (s : State) : Host.Outcome State Fault Refusal :=
  .next (s.receive w 9 fun b s => s.mapChip w fun c =>
    if c.mode ≠ mJOINING then c
    else match b with
      | .resyncState x => c.takePairCopy x
      | .resyncDirectory line e => c.takeDirectory line e
      | .resyncExtent e bytes poisoned => c.takeContent e bytes poisoned
      | _ => c)

/-- ENVELOPE_REJECT (R169, R170, R171, R175): the envelope or copy at the front fails FEC or its tag and is discarded; NAK goes in the next envelope.
An envelope of a reserved class, or with a record of a reserved type, which no chip of the pair sends, is treated as one that fails its tag. -/
def execEnvelopeReject (w : Twin) (badTag : Bool) (s : State) : Host.Outcome State Fault Refusal :=
  .next (match s.arriving w with
    | none => s
    | some _ => (s.taken w).mapChip w fun c =>
        let c := { c with link := { c.link with nakNext := true, authRun := if badTag then c.link.authRun + 1 else c.link.authRun } }
        c.cnt (if badTag then K.CXK_AUTH_FAILS else K.CXK_FEC_UNCORRECTED))

/-- AUTH_FAIL (R171). -/
def execAuthFail (w : Twin) (s : State) : Host.Outcome State Fault Refusal :=
  .next (if (s.chip w).up && decide ((s.chip w).link.authRun ≥ 3) then
    (s.linkFalls w).mapChip w fun c => c.raise F.CXK_EV_AUTH_FAIL
  else s)

/-- DOUBLE_LOSS (R171): both copies of a FRAME or POSTMARK are lost, those still to come among them; the lane with the most errors is trained again,
without leaving its use. -/
def execDoubleLoss (w : Twin) (lane : Fin 18) (s : State) : Host.Outcome State Fault Refusal :=
  .next (match s.arriving w with
    | none => s
    | some e =>
      if e.body.cls ≠ 1 && e.body.cls ≠ 2 then s
      else (s.mapChip w.other fun d => { d with link := { d.link with tx := d.link.tx.dropWhile fun x => x.seq == e.seq } }).mapChip w fun c =>
        let c := { c with link := { c.link with nakNext := true } }
        let c := if c.is (F.CXLANE_LANE_IN_USE lane.val) then c.put (F.CXLANE_LANE_LOCK lane.val) 1 else c
        (c.cnt K.CXK_DOUBLE_LOSSES).raise F.CXK_EV_DOUBLE_LOSS)

/-! ## Training and keys (R166, R167, R172, R565) -/

/-- CXK_TRAINING_DONE (R166, R172, R565): the receivers of chip `w` have trained. A peer that is not authentic is refused; else the direction starts
afresh, and the exchange gives the keys of both directions, with KEY_EPOCH 1. -/
def execCxkTrainingDone (w : Twin) (locked : BitVec 18) (delayNs : Nat) (authentic : Bool) (s : State) : Host.Outcome State Fault Refusal :=
  let c := s.chip w
  let d := s.chip w.other
  .next (if !(c.up && d.up) || c.mode == mHELD || d.mode == mHELD || c.svc.held || d.svc.held || c.linkUp then s
  else if !authentic then s.mapChip w fun c => (c.put F.CXK_LINK_STATE 0).raise F.CXK_EV_AUTH_FAIL
  else
    let t := c.lanesTrained locked
    if t.lanesInUse.length < c.cfg F.CXK_CXK_CFG_MIN_LANES then s.mapChip w fun c => c.put F.CXK_LINK_STATE 0
    else
      let s := s.setChip w ({ t with
        link := { t.link with rxSeq := 0, nakNext := false, authRun := 0, sparing := [] }
        twe := { t.twe with peerFrame := none, peerSlots := [], lastHb := none } }.put F.CXK_LINK_STATE 2)
      let s := s.mapChip w fun c => ((c.put F.CXK_DELAY_NS delayNs).showLanes).raise F.CXK_EV_LINK_UP
      let s := s.mapChip w.other fun d => { d with link := { d.link with tx := [], waiting := [], replay := [], seq := 0 } }.put F.CXK_REPLAY_USE 0
      s.mapBoth fun c => { c with link := { c.link with count := c.link.seq, rekeyAt := none } }.put F.CXK_KEY_EPOCH 1)

/-- CXK_TRAINING_RETRY (R166): training of the chip's receive direction begins again; where its own direction still carries envelopes, the chip asks
for it in a CONTROL envelope. -/
def execCxkTrainingRetry (w : Twin) (s : State) : Host.Outcome State Fault Refusal :=
  .next (s.onUp w fun c =>
    if c.get F.CXK_LINK_STATE = 0 && c.mode != mHELD && !c.svc.held then (c.put F.CXK_LINK_STATE 1).send .trainAsk else c)

/-- LANE_LOCK_LOSS (R166, R167): the lane carries nothing more; a spare trains for it, and with fewer than MIN_LANES left the link is DOWN. -/
def execLaneLockLoss (w : Twin) (lane : Fin 18) (s : State) : Host.Outcome State Fault Refusal :=
  let l := lane.val
  let c := s.chip w
  .next (if !c.up || !c.is (F.CXLANE_LANE_LOCK l) then s
  else
    let c := (c.put (F.CXLANE_LANE_LOCK l) 0).cnt (K.CXLANE_LOCK_LOSS l)
    if !c.is (F.CXLANE_LANE_IN_USE l) then s.setChip w c
    else
      let d := ((c.put (F.CXLANE_LANE_IN_USE l) 0).replaceLane l).showLanes
      let s := s.setChip w d
      if c.linkUp && !d.linkUp then s.linkFalls w else s)

/-- LANE_SWAP (R167): the spare has trained, and takes the lane's place. -/
def execLaneSwap (w : Twin) (lane spare : Fin 18) (s : State) : Host.Outcome State Fault Refusal :=
  .next (s.onUp w fun c =>
    if !c.link.sparing.contains (lane.val, spare.val) then c
    else
      let c := { c with link := { c.link with sparing := c.link.sparing.filter fun x => x.1 != lane.val } }
      let c := (c.put (F.CXLANE_LANE_IN_USE lane.val) 0).put (F.CXLANE_LANE_RETIRED lane.val) 1
      let c := (c.put (F.CXLANE_LANE_IN_USE spare.val) 1).showLanes
      (c.cnt K.CXK_LANE_SPARES).raise F.CXK_EV_LANE_SPARED)

/-- REKEY (R172): an agreed change takes effect. -/
def execRekey (w : Twin) (s : State) : Host.Outcome State Fault Refusal :=
  .next (s.onUp w fun c =>
    match c.link.rekeyAt with
    | some r =>
      if c.round < r then c
      else ({ c with link := { c.link with rekeyAt := none, count := c.link.seq } }.put F.CXK_KEY_EPOCH (c.get F.CXK_KEY_EPOCH + 1)).cnt K.CXK_REKEYS
    | none => c)

/-! ## Records (R175, R211, R245) -/

/-- WRITE_WM (R131, R175). -/
def execWriteWm (w : Twin) (s : State) : Host.Outcome State Fault Refusal :=
  .next (s.onUp w fun c => match c.nextRec with
    | some (_, .writeWm h pos) => c.takeRec.takeWriteWm h pos
    | _ => c)

/-- TAP_WM (R99, R175, R178). -/
def execTapWm (w : Twin) (s : State) : Host.Outcome State Fault Refusal :=
  .next (s.onUp w fun c => match c.nextRec with
    | some (_, .tapWm h dir flit) => c.takeRec.takeTapWm h dir flit
    | _ => c)

/-- DRAIN_WM (R129, R175). -/
def execDrainWm (w : Twin) (s : State) : Host.Outcome State Fault Refusal :=
  .next (s.onUp w fun c => match c.nextRec with
    | some (_, .drainWm h pos) => c.takeRec.takeDrainWm h pos
    | _ => c)

/-- ORDER_ACCESS (R245 to R247): the access named is ordered here, once it and all before it have arrived; APPLIED follows. -/
def execOrderAccess (w : Twin) (s : State) : Host.Outcome State Fault Refusal :=
  .next (s.onUp w fun c => match c.nextRec with
    | some (_, .order _ h .access pos _ _) =>
      if !c.seenTo h pos then c
      else
        let c := c.takeRec.cnt K.ORD_ACCESS_RECORDS
        let c := (c.tags.filter fun t => t.req.head == h && t.req.pos.code == pos).foldl orderHere c
        c.runFollower.sendApplied
    | _ => c)

/-- ORDER_SWEEP (R243, R245 to R247). -/
def execOrderSweep (w : Twin) (s : State) : Host.Outcome State Fault Refusal :=
  .next (s.onUp w fun c => match c.nextRec with
    | some (_, .order _ h .sweep pos _ _) => if c.seenTo h pos || c.che.clearing.any (fun x => x.1 == h) then c.takeRec.applySweep h pos else c
    | _ => c)

/-- ORDER_VICTIM (R250): both chips mark the victim EVICTING, and snoop the holders they home. -/
def execOrderVictim (w : Twin) (s : State) : Host.Outcome State Fault Refusal :=
  .next (s.onUp w fun c => match c.nextRec with
    | some (_, .order _ _ .victim _ line _) => (c.takeRec.evictEntry (line * 64)).runFollower
    | _ => c)

/-- ORDER_HANDOFF (R253): this chip arbitrates the domain from now on. -/
def execOrderHandoff (w : Twin) (s : State) : Host.Outcome State Fault Refusal :=
  .next (s.onUp w fun c => match c.nextRec with
    | some (_, .order d _ .handoff _ _ _) => c.takeRec.beginArbiter d
    | _ => c)

/-- ALIAS (R59): an alias write that the peer accepted waits here too. -/
def execRecAlias (w : Twin) (s : State) : Host.Outcome State Fault Refusal :=
  .next (s.onUp w fun c => match c.nextRec with
    | some (_, .aliasWrite x) =>
      let c := c.takeRec.cnt K.PMK_ALIAS_APPLIED
      { c with twe := { c.twe with aliasQ := c.twe.aliasQ ++ [x] } }
    | _ => c)

/-- HOLD (R211): writes to the line are admitted no more. -/
def execRecHold (w : Twin) (s : State) : Host.Outcome State Fault Refusal :=
  .next (s.onUp w fun c => match c.nextRec with
    | some (_, .hold dpa true) => c.takeRec.setHold dpa true
    | _ => c)

/-- HOLD_RELEASE (R211): what waited goes on. -/
def execHoldRelease (w : Twin) (s : State) : Host.Outcome State Fault Refusal :=
  .next (s.onUp w fun c => match c.nextRec with
    | some (_, .hold dpa false) => (c.takeRec.setHold dpa false).afterHold
    | _ => c)

/-- CARBON_LANE_FLIT (R100, R115, R193, R208): the next flit that the home sent on a link reaches the carbon; where `decoded` is false the carbon
could not decode it, and must fetch it. -/
def execCarbonLaneFlit (w : Twin) (h : Fin 24) (hostAck : Nat) (decoded : Bool) (s : State) : Host.Outcome State Fault Refusal :=
  .next (s.onUp w fun c =>
    if !c.isCarbon (portOf h) || c.trackState h ≠ 2 then c
    else match ((s.chip w.other).head h).txHist.find? fun t => t.flit == c.nextDown h with
      | none => c
      | some t =>
        let c := c.mapHead h fun x => { x with
          hostAck := flitMax x.hostAck hostAck
          track := { x.track with kept := x.track.kept.filter fun y => flitLater y.flit hostAck } }
        c.hearDown h t decoded)

end Sys2Proof.Machine
end

