-- ==== Sys2Proof/Machine/Flags.lean ====
section
/-! DEFINITION. The flags of a page: its event bits (R50, R51), and the bits of its registers that a write of 1 clears or that FREEZE_CFG makes
read-only (R14). -/
namespace Sys2Proof.Machine

/-- The bits of a register that FREEZE_CFG makes read-only (R14). -/
def frozenMask (page off : Nat) : Nat :=
  ((rowsAt page off).filter fun r => match r.ty with | .rwf => true | _ => false).foldl (fun a r => a ||| (2 ^ r.width - 1) * 2 ^ r.lo) 0

/-- The bits of a register that a write of 1 clears (R14). -/
def clearMask (page off : Nat) : Nat :=
  ((rowsAt page off).filter fun r => match r.ty with | .w1c => true | _ => false).foldl (fun a r => a ||| (2 ^ r.width - 1) * 2 ^ r.lo) 0

/-- The EVT_STATUS bits of a page: those of its block, and the four of the header (R50). -/
def eventBits (page : Nat) : List Nat :=
  ((List.range 28).filter fun b => (clearMask page 0x010).testBit b) ++ [28, 29, 30, 31]

end Sys2Proof.Machine
end

