-- ==== Sys2Proof/Machine/PageRead.lean ====
section
/-! DEFINITION. What the page registers read as (R45 to R50, R60 to R63): stored words, words worked out from the state of a block, the
counters of the live area and of the snapshot, and writes through the pair alias that have not been applied. -/
namespace Sys2Proof.Machine

/-- A word with some fields replaced: low bit, width and value of each. -/
def overlay (w : Word) (xs : List (Nat × Nat × Nat)) : Word := xs.foldl (fun w x => withBits w x.1 x.2.1 x.2.2) w

/-- The bits that a write stores (R14): RW and RWF fields, and those of the header that are RW. KICK registers are action bits (R599). -/
def storedMask (page off : Nat) : Nat :=
  if off = 0x01C then 0x1F0000
  else if off = 0x014 then 2 ^ 32 - 1
  else if page = 0x120 ∧ (off = 0x110 ∨ off = 0x114) then 0
  else ((rowsAt page off).filter fun r => match r.ty with | .rw | .rwf => true | _ => false).foldl
    (fun a r => a ||| (2 ^ r.width - 1) * 2 ^ r.lo) 0

/-- The bits of the configuration fields of a register, live ones alone where `live` (R56). -/
def configMask (page off : Nat) (live : Bool) : Nat :=
  if off < 0x100 then 0
  else ((rowsAt page off).filter fun r => match r.ty with | .rw | .rwf => r.live || !live | _ => false).foldl
    (fun a r => a ||| (2 ^ r.width - 1) * 2 ^ r.lo) 0

/-- A word with the bits under a mask taken from another. -/
def underBits (old new : Word) (mask : Nat) : Word :=
  let m := BitVec.ofNat 32 mask
  (old &&& ~~~m) ||| (new &&& m)

namespace Chip

/-- STATE.CFG_PENDING (R50, R56): a stored configuration field differs from what the block uses, and awaits the next check. -/
def cfgPending (c : Chip) (page : Nat) : Bool :=
  ((c.regs ++ c.applied).filter fun x => x.1 / 4096 == page).any fun x =>
    let m := BitVec.ofNat 32 (configMask page (x.1 % 4096) false)
    (c.regs.get resetKey x.1 &&& m) != (c.applied.get resetKey x.1 &&& m)

/-- CTRL, EVT_ENABLE and EVT_ROUTE with the written value of the last alias write that waits (R60). -/
def headerOverlay (c : Chip) (page off : Nat) : Word :=
  let w := c.rd page off
  match c.aliasWord page off with
  | none => w
  | some v =>
    if off = 0x008 then (v &&& 3) ||| ((w ||| v) &&& 8)
    else if off = 0x014 then v
    else if off = 0x01C then underBits w v 0x1F0000
    else w

/-- The header words that are worked out (R50, R60, R61): STATE with CFG_PENDING, the Delivery of the snapshot, the round number and the pair
agreement. -/
def headerWord (c : Chip) (page off : Nat) : Word :=
  let w := c.headerOverlay page off
  if off = 0x00C then withBits w 3 1 (bit (c.cfgPending page))
  else if off = 0x020 then BitVec.ofNat 32 c.snapDelivery
  else if off = 0x024 then BitVec.ofNat 32 c.round
  else if off = 0x028 then
    if pairScope page then overlay w [(2, 1, 1), (16, 16, c.pageDigest page)] else 1
  else if off = 0x018 then 0
  else w

/-! ## Words worked out from the state of a block -/

/-- Entries of a list that meet a condition. -/
def tally {α : Type} (l : List α) (p : α → Bool) : Nat := (l.filter p).length

/-- The number of a register copy at an offset, where the copies begin at `base` and lie `stride` apart. -/
def copyNo (off base stride : Nat) : Nat := (off - base) / stride

/-- WM_LAG of a head's link (R109): the age in ns of the oldest flit of its histories that awaits the carbon's watermark, by the Round it came
or went in. -/
def wmLag (c : Chip) (x : Head) : Nat :=
  let since := (x.rxHist.map fun f => f.round) ++ ((x.txHist.filter fun f => flitLater f.flit x.tapDown).map fun f => f.round)
  min 65535 (since.foldl (fun m r => max m ((c.round - r) * 4000)) 0)

/-- The host pages (R106 to R109): the bifurcation in force; the histories, which read 0 where the chip is not home. -/
def hostWord (c : Chip) (page off : Nat) (w : Word) : Word :=
  if 0x200 ≤ page ∧ page < 0x218 then
    let p := (page - 0x200) / 4
    if page % 4 = 0 ∧ off = 0x800 then withBits w 8 2 (c.cfg (F.HP_PORT_CFG_BIFURC p))
    else if page % 4 = 3 ∧ 0x800 ≤ off ∧ !c.isHome (Fin.ofNat 6 p) then 0
    else if page % 4 = 3 ∧ 0x800 ≤ off ∧ off < 0x840 then
      let h := c.head (Fin.ofNat 24 (4 * p + (off - 0x800) / 16))
      if off % 16 = 0 then withBits w 0 12 h.rxHist.length
      else if off % 16 = 4 then withBits w 0 12 h.txHist.length
      else if off % 16 = 8 then withBits w 0 16 (c.wmLag h)
      else w
    else w
  else w

/-- The Sorter, Post Box and WMB pages (R157 to R159). -/
def requestWord (c : Chip) (page off : Nat) (w : Word) : Word :=
  if page = 0x050 then
    if 0x800 ≤ off ∧ off < 0x860 then
      let h : Fin 24 := Fin.ofNat 24 ((off - 0x800) / 4)
      overlay w [(0, 10, c.tagsOf h), (16, 1, bit (c.isHome (portOf h)))]
    else if off = 0x860 then withBits w 0 14 c.tags.length
    else if 0x880 ≤ off ∧ off < 0x8E0 then
      let x := c.head (Fin.ofNat 24 ((off - 0x880) / 4))
      overlay w [(0, 16, min 65535 x.rdTokens), (16, 16, min 65535 x.wrTokens)]
    else w
  else if page = 0x051 then
    if 0x800 ≤ off ∧ off < 0xA00 ∧ off % 8 = 4 then withBits w 16 7 (c.ring ((off - 0x800) / 8)).fetched.length else w
  else if page = 0x060 then
    if off = 0x800 then withBits w 0 19 c.wmb.length
    else if off = 0x804 then withBits w 0 19 c.charged
    else if off = 0x808 then withBits w 0 19 c.share
    else w
  else w

/-- The twin engine's pages (R226 to R228): links bridged, the speaker. -/
def twinWord (c : Chip) (page off : Nat) (w : Word) : Word :=
  if page = 0x071 ∧ off = 0x80C then
    withBits w 0 24 (headBits fun h => c.followed && c.isHome (portOf h) && c.inL0 h && !(c.head h).peerTracks)
  else if page = 0x071 ∧ off = 0x810 then
    withBits w 0 24 (headBits fun h => c.mirrored && c.isCarbon (portOf h) && c.inL0 h && c.trackState h != 2)
  else if page = 0x073 ∧ off = 0x814 then withBits w 0 1 (bit c.isSpeaker)
  else w

/-- The coherence engine's pages (R257 to R260). -/
def coherenceWord (c : Chip) (page off : Nat) (w : Word) : Word :=
  if page = 0x090 then
    if off = 0x800 then withBits w 0 22 c.che.sram.length
    else if off = 0x804 then withBits w 0 7 c.che.victims.length
    else if off = 0x808 then withBits w 0 23 c.che.shadow.length
    else if off = 0x80C then
      withBits w 0 22 (tally c.che.shadow fun x => match c.domainOf (x.1 * 64) with | some d => c.che.migrating.contains d | none => false)
    else w
  else if page = 0x091 then
    if 0x800 ≤ off ∧ off < 0x900 then
      let d := (off - 0x800) / 4
      overlay w [(0, 22, tally (c.che.sram ++ c.che.shadow) fun x => c.inDomain d (x.1 * 64)), (31, 1, bit (c.commons d && c.arbiter d))]
    else w
  else if page = 0x092 then
    if 0x800 ≤ off ∧ off < 0x860 then withBits w 0 13 (tally c.che.snoops fun x => x.head.val == (off - 0x800) / 4)
    else if off = 0x860 then withBits w 0 13 c.che.snoops.length
    else w
  else if page = 0x093 then
    if off = 0x800 then withBits w 0 13 c.che.unsettled.length
    else if off = 0x804 then withBits w 0 13 (tally c.tags fun t => c.unordered t && !c.arbitrates t.dpa)
    else w
  else w

/-- The tier manager's pages (R304 to R307). -/
def tierWord (c : Chip) (page off : Nat) (w : Word) : Word :=
  if page = 0x0A0 then
    if off = 0x804 then withBits w 0 23 c.poolFrames
    else if off = 0x808 then withBits w 0 23 c.poolFree
    else if off = 0x80C then withBits w 0 22 (c.rangeCount - tally c.trm.ready fun x => x.2)
    else if off = 0x810 then withBits w 0 7 c.trm.slots.length
    else if off = 0x814 then withBits w 0 24 c.trm.queue.length
    else if off = 0x818 then withBits w 0 1 (bit c.isKeeper)
    else w
  else if page = 0x0A1 then
    if off = 0x800 ∨ off = 0x804 then
      let b := if off = 0x800 then 0 else 32
      overlay w ((List.range 32).map fun i => (i, 1, bit (c.domValid (b + i))))
    else w
  else if page = 0x0A2 then
    if 0x800 ≤ off ∧ off < 0xA00 then
      let d := (off - 0x800) / 8
      if off % 8 = 0 then withBits w 0 23 (c.domUse d)
      else overlay w [(0, 23, c.domPinned d), (31, 1, bit (decide (c.capFrames d ≠ 0) && decide (c.domUse d > c.capFrames d)))]
    else w
  else if page = 0x0A3 then
    if off = 0x800 then withBits w 0 24 c.trm.pcache.length
    else if off = 0x804 then withBits w 0 28 c.patchFree
    else if off = 0x808 then BitVec.ofNat 32 c.trm.patchLines.length
    else if off = 0x80C then withBits w 0 2 (c.trm.patchLines.length / 2 ^ 32)
    else w
  else w

/-- The Metadata Cache page and the Route pages (R308, R334, R335). -/
def routeWord (c : Chip) (page off : Nat) (w : Word) : Word :=
  if page = 0x0C0 then
    if off = 0x808 then withBits w 0 7 c.mdc.evb.length
    else if off = 0x80C then withBits w 0 19 (tally c.mdc.lines fun x => x.2.held && x.2.locked)

    else w
  else if page = 0x0B0 then
    if off = 0x800 then
      overlay w [(0, 9, tally c.rte.slots fun x => x.2.state != 0), (16, 9, tally c.rte.slots fun x => x.2.state == 2)]
    else if off = 0x804 then withBits w 0 19 (tally c.trm.ext fun x => x.2.window)
    else if off = 0x814 then
      overlay w [(0, 9, tally c.rte.slots fun x => x.2.slipOpen.isSome), (16, 1, bit (c.isKeeper && c.rteOn))]
    else w
  else if page = 0x0B1 then
    if 0x800 ≤ off ∧ off < 0xC00 then
      let x := c.route ((off - 0x800) / 4)
      overlay w [(0, 16, if c.isKeeper then x.pos else x.shown), (16, 2, x.state), (18, 1, bit x.slipOpen.isSome), (19, 1, bit x.ended),
        (20, 1, bit x.cyclic), (21, 3, x.prio), (24, 5, x.owner)]
    else w
  else w

/-- GC_SHARE_NOW (R359): GC_MIN_PCT at HIGH_PCT or above, GC_MAX_PCT at LOW_PCT or below, linear between. -/
def gcShare (c : Chip) : Nat :=
  let lo := c.cfg F.BKG_GC_CFG_LOW_PCT
  let hi := c.cfg F.BKG_GC_CFG_HIGH_PCT
  let a := c.cfg F.BKG_SHARE_GC_MIN_PCT
  let b := c.cfg F.BKG_SHARE_GC_MAX_PCT
  let f := c.freePct
  if f ≥ hi then a else if f ≤ lo then b else b - (b - a) * (f - lo) / max 1 (hi - lo)

/-- A × 100 over some Deliveries of media bytes and host-derived bytes (R366); 0 where nothing was written by the host. -/
def wafX100 (l : List (Nat × Nat)) : Nat :=
  let h := (l.map (·.2)).sum
  if h = 0 then 0 else (l.map (·.1)).sum * 100 / h

/-- B in bytes a day (R366), with A averaged over the Deliveries held; an A below 1 counts as 1. -/
def writeBudget (c : Chip) : Nat :=
  let a := max 100 (wafX100 c.mde.wafHistory)
  c.rowsTotal * 32 * c.blockBytes * c.mde.scan.peTlc * c.dFmt * 100 / ((c.dFmt + 4) * a * 9131)

/-- The positions of a channel that program or erase (R379). -/
def lunsBusy (c : Chip) (k : Nat) : Nat :=
  (List.range 32).foldl (fun a u => if c.mde.busy.any fun x => x.pos == u && x.col == k then a + 2 ^ u else a) 0

/-- The media engine's pages (R371 to R379). -/
def mediaWord (c : Chip) (page off : Nat) (w : Word) : Word :=
  if page = 0x380 then
    if off = 0x800 then withBits w 8 1 (bit c.urgent)
    else if off = 0x804 then withBits w 0 12 (c.stageUsed / 2 ^ 20)
    else if off = 0x808 then withBits w 0 16 c.mde.direct.length
    else w
  else if page = 0x381 then
    if off = 0x800 then withBits w 0 21 c.rowsTotal
    else if off = 0x804 then withBits w 0 21 c.freeRows
    else if off = 0x808 then withBits w 0 7 c.freePct
    else if off = 0x80C then withBits w 0 21 c.rowsDegraded
    else w
  else if page = 0x382 then
    let n := tally c.trm.parcels fun x => x.2.state == 1
    let u := ((c.trm.parcels.filter fun x => x.2.state == 1).map fun x => x.2.plen).sum
    if off = 0x800 then BitVec.ofNat 32 n
    else if off = 0x804 then withBits w 0 1 (n / 2 ^ 32)
    else if off = 0x808 then BitVec.ofNat 32 u
    else if off = 0x80C then withBits w 0 9 (u / 2 ^ 32)
    else w
  else if page = 0x384 then
    if off = 0x800 then withBits w 0 7 c.gcShare
    else if off = 0x804 then withBits w 0 21 (tally c.mde.rows fun x => x.2.queued != 0)
    else if off = 0x808 then withBits w 0 21 c.mde.scrubPos
    else w
  else if page = 0x385 then
    let e := c.eraseSum false
    if off = 0x808 then withBits w 0 20 (e.1 / max 1 e.2)
    else if off = 0x80C then withBits w 0 20 (c.mde.erases.foldl (fun m x => max m x.2) 0)
    else if off = 0x810 then withBits w 0 16 (min 65535 (wafX100 (c.mde.wafHistory.take 1)))
    else if off = 0x814 then BitVec.ofNat 32 (min (2 ^ 32 - 1) (c.writeBudget / 1000000000))
    else w
  else if 0x3A0 ≤ page ∧ page < 0x3C0 then
    let k := page - 0x3A0
    if off = 0x804 then overlay w ((List.range 32).map fun u => (u, 1, bit (decide (u < c.mde.scan.positions) && c.colLive u k)))
    else if off = 0x808 then BitVec.ofNat 32 (c.lunsBusy k)
    else w
  else w

/-- The governor's and the error pages (R408, R441, R468 to R475). -/
def serviceWord (c : Chip) (page off : Nat) (w : Word) : Word :=
  if page = 0x0D0 then
    if off = 0x804 then BitVec.ofNat 32 c.unsaved
    else if off = 0x808 then withBits w 0 8 (c.unsaved / 2 ^ 32)
    else if off = 0x820 then withBits w 0 20 c.insoleReadyMib
    else if off = 0x830 then withBits w 0 24 (c.unsavedWmb / 2 ^ 20)
    else if off = 0x834 then withBits w 0 24 (c.unsavedStaging / 2 ^ 20)
    else if off = 0x838 then withBits w 0 24 (c.unsavedPatch / 2 ^ 20)
    else if off = 0x83C then withBits w 0 24 (c.unsavedFrame / 2 ^ 20)
    else if off = 0x840 then withBits w 0 24 (c.unsavedMeta / 2 ^ 20)
    else w
  else if 0x300 ≤ page ∧ page < 0x340 ∧ page % 4 = 3 then
    if 0x800 ≤ off ∧ off < 0x820 then
      withBits w 0 21 ((c.chan ((page - 0x300) / 4)).tokens.get (fun _ => 0) ((off - 0x800) / 4))
    else w
  else if page = 0x0F1 then
    match (c.ras.ring ++ c.ras.buffer).find? fun e => e.seq == c.get F.DLR_READ_SEQ with
    | some e =>
      if 0x800 ≤ off ∧ off < 0x840 then
        BitVec.ofNat 32 (ofLeBytes ((e.bytes.drop (off - 0x800)).take 4 |>.map (·.toNat)))
      else if off = 0x840 then withBits w 0 1 1
      else w
    | none => w
  else if page = 0x101 then
    let us := List.range c.mde.scan.positions
    if off = 0x800 then withBits w 0 24 ((us.map c.positionSpares).sum)
    else if off = 0x804 then withBits w 0 16 ((us.map c.positionSpares).foldl min 65535)
    else if off = 0x808 then withBits w 0 11 c.mde.retiredLuns.length
    else if off = 0x80C then
      let live (u : Nat) : Nat := (colsOf (c.liveMask u)).length
      overlay w [(0, 6, tally us fun u => decide (28 ≤ live u) && (decide (live u < 32) || c.dFmt == 24)), (8, 6, tally us fun u => decide (live u < 28))]
    else w
  else if page = 0x103 then
    if 0x810 ≤ off ∧ off < 0x828 then withBits w 0 16 (c.cbl.hostLanesOff.get (fun _ => 0) ((off - 0x810) / 4))
    else if off = 0x830 then withBits w 0 18 c.cbl.failedSpares
    else w
  else w

/-- The time in ms to the expiry of the chip watchdog (R491, R508). -/
def chipLeftMs (c : Chip) : Nat :=
  c.chipLimitMs - (c.aonNow - c.wdt.chipKick).toNat * 4 / 1000

/-- The time in µs to the next stage of a core watchdog (R492, R508). -/
def coreLeftUs (c : Chip) (n : Nat) : Nat :=
  if !c.coreWdOn n then 0
  else
    let warn := c.cfg F.WDT_CORE_WD_WARN_US
    let limit := if (c.core n).warned then warn + c.cfg F.WDT_CORE_WD_RESET_US else warn
    limit - (c.aonNow - (c.core n).kickRound).toNat * 4

/-- The watchdog page and the interrupt controller's pages (R508 to R513). -/
def coreWord (c : Chip) (page off : Nat) (w : Word) : Word :=
  if page = 0x120 then
    if off = 0x800 then withBits w 0 16 c.chipLeftMs
    else if 0x804 ≤ off ∧ off < 0x824 then withBits w 0 21 (c.coreLeftUs ((off - 0x804) / 4))
    else if off = 0x824 then overlay w ((List.range 8).map fun n => (2 * n, 2, min 3 (c.recentResets n).length))
    else w
  else if page = 0x110 then
    if off = 0x800 then withBits w 0 11 (tally c.heldSources c.pendingSrc)
    else if off = 0x804 then withBits w 0 9 (tally c.heldSources fun i => (c.src i).serving.isSome)
    else w
  else if 0x111 ≤ page ∧ page ≤ 0x114 then
    if 0x800 ≤ off ∧ off < 0xC00 then
      let i := 256 * (page - 0x111) + (off - 0x800) / 4
      let x := c.src i
      overlay w [(0, 8, x.count), (8, 1, bit (c.pendingSrc i)), (9, 1, bit x.presented.isSome), (10, 1, bit x.serving.isSome),
        (11, 4, (x.serving.orElse fun _ => x.presented).getD 0), (15, 1, bit x.input)]
    else w
  else if page = 0x115 then
    if 0x800 ≤ off ∧ off < 0x900 ∧ off % 32 = 4 then withBits w 0 8 (c.runLevel ((off - 0x800) / 32)) else w
  else if page = 0x116 then
    if 0x800 ≤ off ∧ off < 0x900 then
      let g := c.group (1 + (off - 0x800) / 4)
      overlay w [(0, 8, min 255 g.collected), (8, 1, bit g.timing)]
    else w
  else w

/-- The key page, as a requester sees it (R48, R576): the key-encryption key reads 0 to host and MCTP requesters always, to others unless debug
is open. -/
def keyWord (c : Chip) (rq : Requester) (page off : Nat) (w : Word) : Word :=
  if page = 0x032 then
    if 0x400 ≤ off ∧ off < 0x440 then
      match rq with
      | .host _ | .mctp => 0
      | _ => if c.is F.DBG_DBG_STATE_OPEN then ((Config.kek c.rst.twinId) >>> (8 * (off - 0x400))).setWidth 32 else 0
    else if off = 0x800 ∨ off = 0x804 then
      let b := if off = 0x800 then 0 else 32
      overlay w ((List.range 32).map fun i => (i, 1, bit (c.sec.keys.get (fun _ => none) (b + i)).isSome))
    else w
  else w

/-- The remaining pages: ROUND_HI, the target's address, CLOSE.KEY. -/
def boardWord (c : Chip) (page off : Nat) (w : Word) : Word :=
  if page = 0x000 ∧ off = 0x810 then BitVec.ofNat 32 (c.round / 2 ^ 32)
  else if page = 0x160 ∧ off = 0x800 then withBits w 0 7 (0x58 + c.rst.smbAddr)
  else if page = 0x040 ∧ off = 0x100 then 0
  else w

/-- The pages without live counters at +0x900 (R157, R258, R305, R306, R335, R509). -/
def noLive (page : Nat) : Bool :=
  page == 0x051 || page == 0x091 || page == 0x0A1 || page == 0x0A2 || page == 0x0B1 || (decide (0x110 ≤ page) && decide (page ≤ 0x116))

/-- A slot of 64 bits: the counter, in bits 47:0 (R37, R50). -/
def slotWord (v off : Nat) : Word := BitVec.ofNat 32 (if off % 8 = 0 then v else v / 2 ^ 32)

/-- A configuration word as read: the written value of the last alias write that waits shows in the fields that it will store (R60). -/
def configWord (c : Chip) (page off : Nat) : Word :=
  match c.aliasWord page off with
  | some v => underBits (c.rd page off) v (storedMask page off)
  | none => c.rd page off

/-- A word of an existing page, on its own chip. -/
def pageWord (c : Chip) (rq : Requester) (page off : Nat) : Word :=
  if 0xC00 ≤ off then slotWord (c.snap.get (fun _ => 0) (page * 128 + (off - 0xC00) / 8)) off
  else if 0x900 ≤ off ∧ !noLive page ∧ (off - 0x900) / 8 < 96 ∧
      c.live.any (fun x => x.1 == page * 128 + (off - 0x900) / 8) then
    slotWord (c.live.get (fun _ => 0) (page * 128 + (off - 0x900) / 8)) off
  else if off < 0x100 then c.headerWord page (off / 4 * 4)
  else
    let w := c.configWord page off
    let w := c.hostWord page off w
    let w := c.requestWord page off w
    let w := c.twinWord page off w
    let w := c.coherenceWord page off w
    let w := c.tierWord page off w
    let w := c.routeWord page off w
    let w := c.mediaWord page off w
    let w := c.serviceWord page off w
    let w := c.coreWord page off w
    let w := c.keyWord rq page off w
    c.boardWord page off w

/-- One word is read, with what the read does. -/
def takeWord (c : Chip) (rq : Requester) (page off : Nat) : Chip × Word :=
  if page = 0x115 ∧ 0x800 ≤ off ∧ off < 0x900 ∧ off % 32 = 0 then c.claimWord ((off - 0x800) / 32) else (c, c.pageWord rq page off)

/-- A read of one of the chip's own pages that its form and the requester's rights allow (R45 to R48); an index without a page reads 0. -/
def takePage (c : Chip) (rq : Requester) (page off size : Nat) : Chip × BitVec 64 :=
  if blockOf page = 0 ∨ !c.mayRead rq page then (c, 0)
  else
    let x := c.takeWord rq page off
    if size = 4 then (x.1, x.2.setWidth 64)
    else
      let y := x.1.takeWord rq page (off + 4)
      (y.1, x.2.setWidth 64 ||| (y.2.setWidth 64 <<< 32))

/-- An access that is not carried out (R45, R480): BAD_ACCESS is counted, and a core that made it takes an access fault. -/
def badAccess (c : Chip) (rq : Requester) (cause : Nat) : Chip :=
  let c := c.cnt K.RAS_BAD_ACCESS
  match rq with
  | .coreM n | .coreS n => if n.val < 8 then c.coreTrap n.val cause else c
  | _ => c

end Chip

end Sys2Proof.Machine
end

