-- ==== Sys2Proof/Machine/PageCheck.lean ====
section
/-! DEFINITION. The check that a page passes before it runs, and the checks of a live write (R53, R56, and the owning chapters' own). -/
namespace Sys2Proof.Machine

/-- Whether a value lies in the stated range of a field; a field without one takes every value. -/
def RegField.inRange (r : RegField) (v : Nat) : Bool :=
  match r.range with
  | none => true
  | some (lo, hi, also) => (decide (lo ≤ v) && decide (v ≤ hi)) || v == also

/-- Whether a row is a configuration field. -/
def RegField.isCfg (r : RegField) : Bool := match r.ty with | .rw | .rwf => decide (0x100 ≤ r.off) && decide (r.off < 0x800) | _ => false

/-- The offsets of the configuration registers of a page, ascending. -/
def cfgOffsets (page : Nat) : List Nat :=
  let offs := ((pageRows page).filter fun r => r.isCfg).flatMap RegField.offsets
  (offs.foldl (fun (t : Table Unit) o => t.insert o ()) []).map (·.1)

namespace Chip

/-- Whether some field of a configuration word, live ones alone where `live`, lies outside its stated range. -/
def outOfRange (c : Chip) (page off : Nat) (live : Bool) : Bool :=
  (rowsAt page off).any fun r => r.isCfg && (r.live || !live) && !r.inRange (bitsOf (c.rd page off) r.lo r.width)

/-- Whether a relation between fields is broken whose field of reference is named in a range of this register (R53): MIN_WIDTH and MIN_RATE,
POOL_CFG, MDE_CFG, GC_CFG, SHARE, CLEAN_CFG, AVS_CFG. -/
def relationBroken (c : Chip) (page off : Nat) : Bool :=
  if 0x200 ≤ page ∧ page < 0x218 ∧ page % 4 = 0 ∧ off = 0x104 then
    let p := (page - 0x200) / 4
    decide (c.get (F.HP_DEGRADE_CFG_MIN_WIDTH p) > 4 - c.get (F.HP_PORT_CFG_BIFURC p)) ||
      decide (c.get (F.HP_DEGRADE_CFG_MIN_RATE p) > c.get (F.HP_PORT_CFG_MAX_RATE p))
  else if page = 0x0A0 ∧ off = 0x110 then decide (c.get F.TIER_POOL_CFG_HIGH_PCT ≤ c.get F.TIER_POOL_CFG_LOW_PCT)
  else if page = 0x380 ∧ off = 0x100 then decide (c.get F.MDE_MDE_CFG_BUSY_HIGH < c.get F.MDE_MDE_CFG_BUSY_LIMIT)
  else if page = 0x384 ∧ off = 0x100 then
    decide (c.get F.BKG_GC_CFG_LOW_PCT ≤ c.get F.BKG_GC_CFG_CRIT_PCT) || decide (c.get F.BKG_GC_CFG_HIGH_PCT ≤ c.get F.BKG_GC_CFG_LOW_PCT)
  else if page = 0x384 ∧ off = 0x104 then decide (c.get F.BKG_SHARE_GC_MAX_PCT < c.get F.BKG_SHARE_GC_MIN_PCT)
  else if page = 0x0D0 ∧ off = 0x130 then
    decide (c.get F.GOV_CLEAN_CFG_HIGH_PCT ≤ c.get F.GOV_CLEAN_CFG_LOW_PCT) ||
      decide (c.get F.GOV_CLEAN_CFG_THROTTLE_PCT ≤ c.get F.GOV_CLEAN_CFG_HIGH_PCT)
  else if page = 0x151 ∧ off = 0x100 then decide (c.get F.AVS_AVS_CFG_CPM_HI ≤ c.get F.AVS_AVS_CFG_CPM_LO)
  else if page = 0x151 ∧ off = 0x104 then decide (c.get F.AVS_AVS_CFG_VMAX_MV < c.get F.AVS_AVS_CFG_VMIN_MV)
  else false

/-- Stage 1 (R53): the first register with a field out of range. -/
def stageRange (c : Chip) (page : Nat) : Option (Nat × Nat) :=
  ((cfgOffsets page).find? fun o => c.outOfRange page o false || c.relationBroken page o).map fun o => (0x01, o)

/-- Stage 4 (R53, R371): MDE page 0 needs all 32 channel pages. -/
def stageNeeds (c : Chip) (page : Nat) : Option (Nat × Nat) :=
  if page = 0x380 ∧ !((List.range 32).all fun k => c.running (0x3A0 + k)) then some (0x05, 0x008) else none

/-- Stage 7 (R53, R391): CAP_GIB above the cap that the format recorded. -/
def stageCapacity (c : Chip) (page : Nat) : Option (Nat × Nat) :=
  if page = 0x0D0 ∧ c.mde.formatted ∧ c.get F.GOV_BUDGET_CFG_CAP_GIB > c.fmtCap then some (0x08, 0x100) else none

/-- The offset at which a running sum of values, each with its offset, first passes a limit. -/
def sumPasses (limit : Nat) : List (Nat × Nat) → Nat → Option Nat
  | [], _ => none
  | (off, v) :: r, sum => if sum + v > limit then some off else sumPasses limit r (sum + v)

/-- What the patrol and the SRAM scrubber cost the scrub job in a Round, in ns (R447). -/
def scrubCost (c : Chip) : Nat :=
  let h := max 1 (c.get F.PAT_PATROL_CFG_PASS_HOURS) * 900000000
  let m := max 1 (c.get F.SRS_SRAM_CFG_PASS_MS) * 250
  8 * ((c.pairsPopulated + h - 1) / h) + 4 * ((399360 + m - 1) / m)

/-- Stage 8 (R53): the Round's budgets (R27), the partitions of the Sorter (R114), the scrub job's share (R447). -/
def stageBudget (c : Chip) (page : Nat) : Option (Nat × Nat) :=
  if page = 0x000 then
    (sumPasses 3560 ((List.range 7).map fun i => (0x110 + 4 * i, bitsOf (c.rd 0x000 (0x110 + 4 * i)) 0 12)) 0).map fun o => (0x0B, o)
  else if page = 0x050 then
    (sumPasses 8192 ((allHeads.filter c.headExists).map fun h => (0x200 + 16 * h.val, c.get (F.SRT_HEAD_TAG_MAX h.val))) 0).map
      fun o => (0x0B, o)
  else if page = 0x0E1 ∧ c.scrubCost > c.cfg F.CLK_BUDGET_SCRUB_NS then some (0x0B, 0x100)
  else none

/-- The DIMMs of a channel, as its SPD data show them (R411). -/
def dimmsOf (c : Chip) (d : Nat) : Nat × Nat × Nat × Nat :=
  (c.get (F.DCH_DIMM_COUNT d), c.get (F.DCH_DIMM_RANKS d), c.get (F.DCH_DIMM_DENSITY d), c.get (F.DCH_DIMM_GIB d))

/-- The block-specific checks of a DRAM channel page (R411, R416, R424, R427). -/
def channelCheck (c : Chip) (d : Nat) : Option (Nat × Nat) :=
  let others := (List.range 16).filter fun i => i != d && c.running (0x300 + 4 * i)
  let count := c.get (F.DCH_DIMM_COUNT d)
  let serves := (List.range 16).any fun r => c.rankServes d r
  if others.any fun i => c.dimmsOf i != c.dimmsOf d then some (0x40, 0x800)
  else if count = 0 ∨ !(c.chan d).training.supported then some (0x41, 0x800)
  else if count = 2 ∧ c.get (F.DCH_CH_CFG_RATE d) > 2 then some (0x41, 0x100)
  else if others.any fun i => c.get (F.DCH_CH_CFG_MAP i) != c.get (F.DCH_CH_CFG_MAP d) then some (0x42, 0x100)
  else if c.get (F.DCH_TRAIN_FAIL_RANKS d) ≠ 0 ∧ (c.get (F.DCH_CH_CFG_MAP d) = 3 ∨ !serves) then some (0x43, 0x808)
  else none

/-- The block-specific checks of the sequencer page (R515): EN_REUSED and PG_ORDER, by ascending state. `seen` are the EN bits named so far. -/
def sequenceCheck (c : Chip) : List Nat → Nat → Option (Nat × Nat)
  | [], _ => none
  | s :: r, seen =>
    let w := c.rd 0x140 (0x110 + 8 * s)
    let en := bitsOf w 0 16
    if en &&& seen ≠ 0 then some (0x40, 0x110 + 8 * s)
    else if bitsOf w 16 16 &&& (0xFFFF ^^^ (seen ||| en)) ≠ 0 then some (0x41, 0x110 + 8 * s)
    else sequenceCheck c r (seen ||| en)

/-- The population and its profile (R337, R338), as far as a format has found it: a figure of the profile beyond its limit, a block or LUN of
another size, positions out of range or a module that is not fitted. -/
def populationCheck (c : Chip) : Option (Nat × Nat) :=
  let x := c.mde.scan
  if c.mde.formatted && (!x.matched || decide (x.trUs > 40) || decide (x.trSlcUs > 25) || decide (x.tprogUs > 1400) || decide (x.tprogSlcUs > 200) ||
      decide (x.tbersUs > 10000) || decide (x.suspendUs > 12) || decide (x.spareBytes < 1872) || decide (x.peTlc < 1000)) then some (0x40, 0x008)
  else if c.mde.formatted && (!([8, 16, 32].contains x.blockMib) || decide (x.blockMib * x.blocks > 512 * 1024)) then some (0x41, 0x008)
  else if (c.mde.formatted && (!x.even || decide (x.positions < 4) || decide (x.positions > 32))) ||
    (List.range 8).any (fun m => !c.is (F.MOD_MODULE_PRESENT m)) then some (0x42, 0x008)
  else none

/-- Stage 10 (R53): the block-specific checks. -/
def stageBlock (c : Chip) (page : Nat) : Option (Nat × Nat) :=
  if page = 0x0D0 then
    if c.get F.GOV_FIXED_US < c.get F.GOV_FIXED_MEAS_US then some (0x40, 0x104)
    else ((List.range 7).find? fun n => c.get (F.GOV_HOLDUP_MAP_US (n + 1)) < c.get (F.GOV_HOLDUP_MAP_US n)).map fun n => (0x41, 0x114 + 4 * n)
  else if page = 0x380 then
    c.populationCheck
  else if 0x300 ≤ page ∧ page < 0x340 ∧ page % 4 = 0 then c.channelCheck ((page - 0x300) / 4)
  else if page = 0x141 then
    ((List.range 4).find? fun k => decide ((BitVec.ofNat 8 (c.get (F.MAR_MARGIN_OFFSET_MV k))).toInt.natAbs * 100 > c.get (F.MAR_RAIL_NOM_MV k))).map
      fun k => (0x01, 0x120 + 4 * k)
  else if page = 0x140 then c.sequenceCheck ((List.range 15).map (· + 1)) 0
  else none

/-- Stages 1 to 10 of the check (R53): the code and the offset of the first failure. Stages 2, 3, 5, 6 and 9 find nothing: no chapter gives a
page a pin, timer, buffer, range, boundary or condition that they judge beyond what its fields can hold. -/
def checkStages (c : Chip) (page : Nat) : Option (Nat × Nat) :=
  (c.stageRange page).orElse fun _ => (c.stageNeeds page).orElse fun _ => (c.stageCapacity page).orElse fun _ =>
    (c.stageBudget page).orElse fun _ => c.stageBlock page

/-- The check of the domain page (R53, R77, R270): the first domain whose stored setting fails R270, against the domains in force. `peer`
gives the twin's capacity and pool while MIRRORED (R40). -/
def domainsCheck (c peer : Chip) : Option (Nat × Nat) :=
  let least (f : Chip → Nat) : Nat := if c.mirrored then min (f c) (f peer) else f c
  let x := { c with applied := c.regs }
  let code (d : Nat) : Nat := c.domainCode x d (least fun c => c.get F.TIER_CAPACITY_HOST_256M) (least poolFrames)
  ((List.range 64).find? fun d => code d != 0).map fun d => (code d, domOff d 0)

/-- Stage 11 (R53, R61): the lowest register whose pair-scope fields differ from the twin's. -/
def stageTwin (c peer : Chip) (page : Nat) : Option Nat :=
  (pairOffsets page).find? fun o => c.pairWord page o != peer.pairWord page o

/-- The live-write checks that a chapter states for a register (R56): the first code that applies to the chip `x` as the write would leave it,
0 where it passes. A domain holds a ring (R136) whose ENABLE is 1: one that is STOPPING no longer counts (DESIGN CHOICE, log 101). -/
def liveCode (c x : Chip) (page off : Nat) : Nat :=
  if page = 0x060 ∧ (off = 0x100 ∨ off = 0x104) then
    let b := if off = 0x100 then 0 else 32
    let set := (List.range 32).filter fun i => (x.rd page off).getLsbD i && !(c.rd page off).getLsbD i
    let rings := (List.range 64).filter fun q => c.is (F.PBX_RING_ENABLE q)
    let holds (d : Nat) : Bool := rings.any fun q => (c.ringRanges q).any fun r => decide (r.1 < r.2) && c.inDomain d r.1
    if set.any fun i => c.commons (b + i) || holds (b + i) then 0x40 else 0
  else if page = 0x051 ∧ 0x100 ≤ off ∧ off < 0x500 then
    let k := off % 16
    let m : Nat := if k = 4 then 0xFFFFFF else if k = 12 then 0xFFFF else 0xFFFFFFFF
    let m := BitVec.ofNat 32 m
    if c.is (F.PBX_RING_ENABLE ((off - 0x100) / 16)) && (c.rd page off &&& m) != (x.rd page off &&& m) then 0x0C else 0
  else if page = 0x091 ∧ 0x100 ≤ off ∧ off < 0x300 ∧ off % 8 = 0 then
    let d := (off - 0x100) / 8
    let gone := allHeads.filter fun h => (c.rd page off).getLsbD h.val && !(x.rd page off).getLsbD h.val
    if c.commons d && gone.any fun h => c.headMaps h (c.domBase d) (c.domBase d + c.domSize d) then 0x40 else 0
  else if (page = 0x0E1 ∨ page = 0x0E2) ∧ off = 0x100 then
    if x.scrubCost > c.cfg F.CLK_BUDGET_SCRUB_NS then 0x0B else 0
  else 0

/-- The checks of a live write in RUNNING (R56): a live field out of its range or in a broken relation, then the chapter's own. -/
def liveCheck (c x : Chip) (page off : Nat) : Nat :=
  if x.outOfRange page off true || ((rowsAt page off).any (fun r => r.isCfg && r.live) && x.relationBroken page off) then 0x01
  else c.liveCode x page off

/-- Whether a running page needs this one, so that it may not turn off (R54, R371), or the page may not stop by its own chapter (R383, R494):
the code a write that turns it off is rejected with, 0 where it may. -/
def stopCode (c : Chip) (page : Nat) : Nat :=
  if 0x3A0 ≤ page ∧ page < 0x3C0 ∧ c.running 0x380 then 0x0C
  else if page = 0x0D0 ∧ c.memActive then 0x0C
  else if page = 0x120 ∧ c.is F.WDT_LOCK_SET then 0x09
  else 0

end Chip

end Sys2Proof.Machine
end

