-- ==== Sys2Proof/Machine/PageStore.lean ====
section
/-! DEFINITION. Writes to the page registers: the states of a page (R52 to R55), configuration and live writes (R56), action bits (R599), what
a stored value brings about in its block, and writes through the pair alias as they are applied (R59). -/
namespace Sys2Proof.Machine

/-- The read-only registers that record something past, which SOFT_RESET takes back to their reset values; the others show what the block
holds, and go on showing it (DESIGN CHOICE on R55, log 26). -/
def recordReg (page off : Nat) : Bool :=
  (page == 0x000 && (off == 0x808 || off == 0x80C)) || (page == 0x070 && (off == 0x808 || off == 0x80C || off == 0x810)) ||
  (page == 0x072 && (off == 0x804 || off == 0x808)) || (page == 0x0C0 && (off == 0x810 || off == 0x814)) ||
  (page == 0x0C1 && (off == 0x800 || off == 0x804)) || (page == 0x0D1 && decide (0x808 ≤ off) && decide (off ≤ 0x818)) ||
  (page == 0x0B0 && (off == 0x808 || off == 0x80C || off == 0x810)) || (page == 0x0E1 && (off == 0x808 || off == 0x80C)) ||
  (page == 0x130 && (off == 0x800 || off == 0x80C || off == 0x810)) || (page == 0x140 && off == 0x808) ||
  (decide (0x240 ≤ page) && decide (page < 0x270) && off == 0x804)

/-- Whether a register keeps its word through SOFT_RESET (R55): the identity and snapshot number of the header, and what is read-only and
shows the block's present state. -/
def keepsWord (page off : Nat) : Bool :=
  off == 0x000 || off == 0x004 || off == 0x020 || off == 0x024 || (decide (0x800 ≤ off) && !recordReg page off)

/-- The interrupt source of a register of the source pages (R510). -/
def sourceNumber (page off : Nat) : Option Nat :=
  if 0x111 ≤ page ∧ page ≤ 0x114 ∧ 0x100 ≤ off ∧ off < 0x500 then some ((page - 0x111) * 256 + (off - 0x100) / 4) else none

/-- Whether an offset is that of a doorbell of the Post Box page (R144, R158). -/
def isDoorbell (page off : Nat) : Bool := page == 0x051 && decide (0x500 ≤ off) && decide (off < 0x700)

/-- Whether a written word sets an action bit that acts only while its page is RUNNING (R599). -/
def actsRunning (page off : Nat) (v : Word) : Bool :=
  (page == 0x070 && off == 0x10C && v.getLsbD 4) || (page == 0x0C1 && off == 0x114 && v.getLsbD 0) ||
  (page == 0x386 && decide (0x100 ≤ off) && decide (off < 0x120) && (v.getLsbD 0 || v.getLsbD 1)) ||
  (decide (0x300 ≤ page) && decide (page < 0x340) && page % 4 == 1 && off == 0x110 && v.getLsbD 31) ||
  (page == 0x130 && off == 0x100 && v.getLsbD 31) || (page == 0x032 && off == 0x100 && v.getLsbD 31)

/-- Whether a written word sets an action bit that only machine-mode cores may set (R189, R548, R559, R573). -/
def actsMachine (page off : Nat) (v : Word) : Bool :=
  v.getLsbD 0 && ((page == 0x070 && off == 0x110) || (page == 0x020 && off == 0x100) || (page == 0x031 && off == 0x100) ||
    (page == 0x040 && off == 0x104))

/-- Whether a requester is a core in machine mode (R47). -/
def Requester.isMachine : Requester → Bool
  | .coreM _ => true
  | _ => false

namespace Chip

/-- CTRL.FREEZE_CFG of a page. -/
def frozen (c : Chip) (page : Nat) : Bool := (c.rd page 0x008).getLsbD 3

/-- A check fails (R54): REFUSED, with its code and offset, and REFUSED raised; `peer` where the twin's value differs. -/
def refusePage (c : Chip) (page code off : Nat) (peer : Bool) : Chip :=
  let w := overlay (c.rd page 0x00C) [(0, 3, 3), (8, 8, code), (16, 12, off), (31, 1, bit peer)]
  (c.wr page 0x00C w).raiseBit page 31

/-- The words of a page as stored become those that its block uses (R56). -/
def applyConfig (c : Chip) (page : Nat) : Chip :=
  let rest := c.applied.filter fun (x : Nat × Word) => x.1 / 4096 != page
  let words := c.regs.filter fun (x : Nat × Word) => x.1 / 4096 == page
  { c with applied := words.foldl (fun (t : Table Word) (x : Nat × Word) => t.set resetKey x.1 x.2) rest }

/-! ## What a stored value brings about -/

/-- The effects of a new value in the request path's and the tier manager's registers: a bucket is filled afresh at a new rate (R140), the
CDAT of a domain follows its completion mode (R84), a head that leaves a commons is cleared from it (R233, R252), and the arbitration of a commons
moves (R253) where the write reached both twins (`both`). -/
def storedShared (c : Chip) (page off : Nat) (old new : Word) (both : Bool) : Chip :=
  if page = 0x050 ∧ 0x200 ≤ off ∧ off < 0x380 then
    let h : Fin 24 := Fin.ofNat 24 ((off - 0x200) / 16)
    if off % 16 = 4 ∧ old ≠ new then c.mapHead h fun x => { x with rdTokens := c.cfg (F.SRT_HEAD_RD_RATE h.val) * c.cfg (F.SRT_HEAD_RD_DEPTH h.val) }
    else if off % 16 = 8 ∧ old ≠ new then
      c.mapHead h fun x => { x with wrTokens := c.cfg (F.SRT_HEAD_WR_RATE h.val) * c.cfg (F.SRT_HEAD_WR_DEPTH h.val) }
    else c
  else if page = 0x060 ∧ (off = 0x100 ∨ off = 0x104) then
    c.cdatFollow (c.setUsed page off old)
  else if page = 0x091 ∧ 0x100 ≤ off ∧ off < 0x300 then
    let d := (off - 0x100) / 8
    if off % 8 = 0 then
      ((allHeads.filter fun h => old.getLsbD h.val && !new.getLsbD h.val).foldl (fun c h =>
        c.loseHead h none (some d)) c).cdatFollow (c.setUsed page off old)
    else if both ∧ old.getLsbD 0 ≠ new.getLsbD 0 ∧ c.mirrored ∧ c.commons d ∧ c.domValid d then
      (if (if old.getLsbD 0 then 1 else 0) = c.rst.twinId then c.handOffAll [d]
       else { c with che := { c.che with awaitHandoff := insertN c.che.awaitHandoff d } })
    else c
  else c

/-- The effects of a new value in the DMC's pages: the counters of R417 at a new PAGE_POLICY, a full bucket at a new RATE (R432). -/
def storedDram (c : Chip) (page off : Nat) (old new : Word) : Chip :=
  let d := (page - 0x300) / 4
  if page % 4 = 0 ∧ off = 0x100 then (if old.getLsbD 4 = new.getLsbD 4 then c else c.policyChanged d)
  else if page % 4 = 3 ∧ 0x100 ≤ off ∧ off < 0x120 ∧ bitsOf old 0 13 ≠ bitsOf new 0 13 then
    (clientOrder.filter fun k => k.no == (off - 0x100) / 4).foldl (fun c k => c.fillTokens d k) c
  else c

/-- The effects of a new value in the pages of a chip's own blocks: interrupt sources (R499, R503, R505), core registers and coalescing, the
frequency ceiling (R533) and positions that a channel leaves out (R365). `late` is the free value of R503. -/
def storedOwn (c : Chip) (page off : Nat) (old new : Word) (late : Bool) : Chip :=
  match sourceNumber page off with
  | some i =>
    let c := if bitsOf old 3 4 = bitsOf new 3 4 then c else c.cnt K.ICT_RETARGETS
    let c := if old.getLsbD 0 && !new.getLsbD 0 then c.sourceDisable i late else c
    c.icuUpdate
  | none =>
    if (page = 0x115 ∧ 0x100 ≤ off ∧ off < 0x200 ∧ off % 32 = 0) ∨ page = 0x116 then c.icuUpdate
    else if 0x300 ≤ page ∧ page < 0x340 then c.storedDram page off old new
    else if page = 0x151 ∧ off = 0x10C then c.planStep
    else if page = 0x141 ∧ 0x120 ≤ off ∧ off < 0x130 then c.sendMargin ((off - 0x120) / 4)
    else if 0x3A0 ≤ page ∧ page < 0x3C0 ∧ off = 0x100 then
      ((List.range 32).filter fun u => new.getLsbD u && !old.getLsbD u).foldl (fun c u => c.loseColumn u (page - 0x3A0)) c
    else c

/-- A pair-scope value that is stored has not been compared with the twin's yet (TWIN_AGREE.PEER_SEEN). -/
def unseen (c : Chip) (page off : Nat) (old new : Word) : Chip :=
  let m := BitVec.ofNat 32 (pairMask page off)
  if (old &&& m) = (new &&& m) then c else c.wr page 0x028 (withBits (c.rd page 0x028) 1 1 0)

/-- The effects of a new value that its block now uses. -/
def usedEffects (c : Chip) (page off : Nat) (old new : Word) (both late : Bool) : Chip :=
  if old = new then c else (c.storedShared page off old new both).storedOwn page off old new late

/-- The effects of every word of a page that its block uses in place of what `was` used: after a check, and after SOFT_RESET. -/
def pageEffects (c was : Chip) (page : Nat) (both : Bool) : Chip :=
  let keys := ((was.applied ++ c.applied).filter fun (x : Nat × Word) => x.1 / 4096 == page).foldl
    (fun (t : Table Unit) (x : Nat × Word) => t.insert x.1 ()) []
  let c := keys.foldl (fun c x => c.usedEffects page (x.1 % 4096) (was.used page (x.1 % 4096)) (c.used page (x.1 % 4096)) both false) c
  if page = 0x0A1 then ((List.range 64).filter (was.domainDiffers c)).foldl (fun c i => c.domainChanged was i) c else c

/-! ## Page states (R52 to R55) -/

/-- SOFT_RESET (R55), outside CHECKING and RUNNING: the fields of the page return to their reset values but for those that R55 keeps, and none
of them awaits a check (CFG_PENDING reads 0). -/
def softReset (c : Chip) (page : Nat) : Chip :=
  let freeze := c.frozen page
  let kept (k : Nat) (w : Word) : Word :=
    let off := k % 4096
    if keepsWord page off then w &&& ~~~(BitVec.ofNat 32 (clearMask page off))
    else if off = 0x008 then w &&& 8
    else if freeze then underBits (resetWord page off) w (frozenMask page off)
    else resetWord page off
  let mine := c.regs.filter fun (x : Nat × Word) => x.1 / 4096 == page
  let next := mine.foldl (fun (t : Table Word) (x : Nat × Word) => t.set resetKey x.1 (kept x.1 x.2)) c.regs
  let d := { c with
    regs := next
    live := c.live.filter fun (x : Nat × Nat) => x.1 / 128 != page }.applyConfig page
  let d := mine.foldl (fun d (x : Nat × Word) => d.unseen page (x.1 % 4096) x.2 (d.rd page (x.1 % 4096))) d
  d.pageEffects c page false

/-- What a page does as it stops (R101, R300): the Metadata Cache writes its dirty lines back; a carbon page lets its links go. -/
def stopEffects (c : Chip) (page : Nat) : Chip :=
  if page = 0x0C0 then (c.mdc.lines.foldl (fun c x => c.mdcWriteBack (x.1 / 32) (x.1 % 32)) c).evbDrain 64
  else if 0x201 ≤ page ∧ page < 0x219 ∧ page % 4 = 1 then
    (portHeads (Fin.ofNat 6 ((page - 0x201) / 4))).foldl stopTracking c
  else c

/-- What a page does as it begins to run: full buckets (R141, R432), a channel UP (R379), the modules that hold their share of the format ACTIVE, where
they are present (R368), carbon links acquired (R101), the kicks of the watchdogs fresh (R491), presentations decided. -/
def startEffects (c : Chip) (page : Nat) : Chip :=
  if page = 0x050 then allHeads.foldl fillBuckets c
  else if 0x300 ≤ page ∧ page < 0x340 ∧ page % 4 = 0 then clientOrder.foldl (fun c k => c.fillTokens ((page - 0x300) / 4) k) c
  else if 0x3A0 ≤ page ∧ page < 0x3C0 then c.put (F.CHN_CHAN_STATE (page - 0x3A0)) 2
  else if page = 0x380 then
    ((List.range 8).filter fun m => c.is (F.MOD_MODULE_PRESENT m) && c.modState m == 0 && c.mde.members.contains m).foldl (fun c m => c.setModule m 1) c
  else if 0x201 ≤ page ∧ page < 0x219 ∧ page % 4 = 1 then
    let p : Fin 6 := Fin.ofNat 6 ((page - 0x201) / 4)
    if c.isCarbon p then ((portHeads p).filter c.inL0).foldl acquire c else c
  else if page = 0x120 then
    let c := { c with wdt := { c.wdt with chipKick := c.aonNow } }
    (List.range 8).foldl (fun c n => c.mapCore n fun x => { x with kickRound := c.aonNow }) c
  else if 0x110 ≤ page ∧ page ≤ 0x116 then c.icuUpdate
  else if 0x240 ≤ page ∧ page < 0x270 ∧ page % 2 = 0 then
    let h : Fin 24 := Fin.ofNat 24 ((page - 0x240) / 2)
    if c.cfgOn (F.HCFG_HEAD_CFG_VISIBLE h.val) then c else c.toDetect h
  else c

/-- The links of a port whose lanes a new bifurcation takes or moves go to Detect (R64, R65). -/
def bifurcate (c was : Chip) (page : Nat) : Chip :=
  if 0x200 ≤ page ∧ page < 0x218 ∧ page % 4 = 0 then
    (portHeads (Fin.ofNat 6 ((page - 0x200) / 4))).foldl (fun c h =>
      if c.headExists h && c.laneGroup h == was.laneGroup h then c else c.toDetect h) c
  else c

/-- The check of a page ends (R53, R54), at the start of Round t+2: OFF where ENABLE was taken back, REFUSED with the first failure, RUNNING
where it passes; RESTORE_DONE of a chip that was ready goes once the governor runs (R555). `compare` says whether stage 11 has a twin to
compare with. -/
def checkDone (c peer : Chip) (compare : Bool) (page : Nat) : Chip :=
  if c.pageState page ≠ 1 ∨ c.round < c.checks.get (fun _ => 0) page + 2 then c
  else if !(c.rd page 0x008).getLsbD 0 then c.setPageState page 0
  else match (c.checkStages page).orElse fun _ => if page = 0x0A1 then c.domainsCheck peer else none with
    | some x => c.refusePage page x.1 x.2 false
    | none =>
      match (if pairScope page && compare then c.stageTwin peer page else none) with
      | some off => c.refusePage page 0x0A off true
      | none =>
        let d := ((((c.applyConfig page).bifurcate c page).startEffects page).setPageState page 2).pageEffects c page true
        if page = 0x0D0 then d.sendRestoreDone else d

/-- A block has drained (R52): OFF where ENABLE is 0, QUIESCED where QUIESCE is 1. -/
def drained (c : Chip) (page : Nat) : Chip :=
  let w := c.rd page 0x008
  if c.pageState page ≠ 2 then c
  else if !w.getLsbD 0 then (c.stopEffects page).setPageState page 0
  else if w.getLsbD 1 then (c.stopEffects page).setPageState page 4
  else c

/-- An internal fault (R52). -/
def faultPage (c : Chip) (page : Nat) : Chip :=
  if c.pageState page ≠ 2 then c else ((c.stopEffects page).setPageState page 5).raiseBit page 30

/-- The check of a page begins in this Round (R54). -/
def beginCheck (c : Chip) (page : Nat) : Chip :=
  { c with checks := c.checks.set (fun _ => 0) page c.round }.setPageState page 1

/-- Whether SOFT_RESET of a page would delete a domain that a committed decoder maps (R77). -/
def deletesMapped (c : Chip) (page : Nat) : Bool :=
  page == 0x0A1 && (List.range 64).any fun d => c.domValid d && c.mapped (c.domBase d) (c.domBase d + c.domSize d)

/-- A write of CTRL (R52, R54, R55). A running page goes on until its block has drained. -/
def ctrlWrite (c : Chip) (page : Nat) (v : Word) : Chip :=
  let st := c.pageState page
  let old := c.rd page 0x008
  let en := v.getLsbD 0
  let q := v.getLsbD 1
  if v.getLsbD 2 then
    (if st = 1 ∨ st = 2 then c.reject page 0x0C 0x008
     else if c.deletesMapped page then c.reject page 0x40 0x008
     else (c.wr page 0x008 (old ||| (v &&& 8))).softReset page)
  else if st = 2 ∧ !en ∧ c.stopCode page ≠ 0 then c.reject page (c.stopCode page) 0x008
  else if st = 2 ∧ q ∧ page = 0x0D0 ∧ c.memActive then c.reject page 0x0C 0x008
  else if st = 5 then c.wr page 0x008 (old ||| (v &&& 8))
  else
    let c := c.wr page 0x008 ((v &&& 3) ||| ((old ||| v) &&& 8))
    if st = 0 ∧ en then c.beginCheck page
    else if st = 3 ∧ !en then c.setPageState page 0
    else if st = 4 ∧ !en then c.setPageState page 0
    else if st = 4 ∧ !q then c.beginCheck page
    else c

/-- EVT_STATUS bits are cleared; an event that sets one of them in the same cycle leaves it set, as newly set (R51). -/
def clearEvents (c : Chip) (page : Nat) (bits again : Word) : Chip :=
  let c := c.wr page 0x010 (c.rd page 0x010 &&& ~~~bits)
  ((eventBits page).filter fun b => bits.getLsbD b && again.getLsbD b).foldl (fun c b => c.raiseBit page b) c

/-- EVT_FORCE (R51). -/
def forceEvents (c : Chip) (page : Nat) (bits : Word) : Chip :=
  ((eventBits page).filter fun b => bits.getLsbD b).foldl (fun c b => c.raiseBit page b) c

/-- A write of EVT_ENABLE (R51): a bit that rises while its event stands delivers it. -/
def enableEvents (c : Chip) (page : Nat) (v : Word) : Chip :=
  let rose := v &&& ~~~(c.rd page 0x014)
  let c := c.wr page 0x014 v
  ((eventBits page).filter fun b => rose.getLsbD b && (c.rd page 0x010).getLsbD b).foldl (fun c b => c.deliverEvent page b) c

/-! ## Stores and action bits -/

/-- A configuration word is stored (R56): what FREEZE_CFG froze stays; in RUNNING the live fields take effect, and one that fails its check
rejects the write. The answer says whether it was stored. -/
def storeConfig (c : Chip) (page off : Nat) (v : Word) (both late : Bool) : Chip × Bool :=
  let mask := if c.frozen page then storedMask page off &&& (2 ^ 32 - 1 - frozenMask page off) else storedMask page off
  let old := c.rd page off
  let new := underBits old v mask
  let live := if c.running page then configMask page off true else 0
  let x := if live = 0 then c.wr page off new else (c.wr page off new).setUsed page off (underBits (c.used page off) new live)
  let code := if c.running page then c.liveCheck x page off else 0
  if code ≠ 0 then
    let r := c.reject page code off
    (if page = 0x091 then r.raise F.COM_EV_HEADSET_REJECTED else r, false)
  else ((x.unseen page off old new).usedEffects page off (c.used page off) (x.used page off) both late, true)

/-- The checks of the action bits that a written word sets, on the chip as the write leaves it (R599): the page's state, then the owning chapter's
own; 0 where they pass. -/
def actionCode (c : Chip) (page off : Nat) (v : Word) : Nat :=
  if actsRunning page off v && !c.running page then 0x0C
  else if page = 0x0C1 ∧ off = 0x114 ∧ v.getLsbD 0 then (if c.get F.MNT_OP_STATUS_STATE = 1 then 0x0C else 0)
  else if page = 0x386 ∧ 0x100 ≤ off ∧ off < 0x120 ∧ v.getLsbD 0 then c.offlineCode ((off - 0x100) / 4)
  else if 0x300 ≤ page ∧ page < 0x340 ∧ page % 4 = 1 ∧ off = 0x110 ∧ v.getLsbD 31 then (if c.pprMay then 0 else 0x0C)
  else if page = 0x140 ∧ off = 0x190 ∧ v.getLsbD 0 then (if c.psq.versionsUsed ≥ 4 then 0x09 else 0)
  else if page = 0x031 ∧ off = 0x100 ∧ v.getLsbD 0 then (if c.sec.svn ≥ 64 then 0x01 else 0)
  else if page = 0x031 ∧ off = 0x170 ∧ v.getLsbD 0 then (if c.sec.keyOSet then 0x09 else 0)
  else if page = 0x040 ∧ off = 0x104 ∧ v.getLsbD 0 then c.closeCode
  else 0

/-- The action bits of the chip's own pages that a written word sets (R599). KICK written alone is no kick sequence (R491, R492). -/
def actOwn (c : Chip) (rq : Requester) (page off : Nat) (v : Word) : Chip :=
  let op := fun (b : Nat) => v.getLsbD b
  if page = 0x115 ∧ 0x100 ≤ off ∧ off < 0x200 ∧ off % 32 = 4 then c.complete ((off - 0x100) / 32) (bitsOf v 0 10)
  else if page = 0x110 ∧ off = 0x104 then c.swi (bitsOf v 0 8)
  else if page = 0x120 ∧ (off = 0x110 ∨ off = 0x114) then c.cnt K.WDT_BAD_KICKS
  else if page = 0x120 ∧ off = 0x118 ∧ op 0 then c.wdtLock
  else if page = 0x130 ∧ off = 0x100 ∧ op 31 then c.efcGo (c.get F.EFC_EFC_CMD_OP) none
  else if page = 0x130 ∧ off = 0x10C ∧ op 0 then c.activeLock
  else if page = 0x140 ∧ off = 0x190 ∧ op 0 then c.storeCommit
  else if page = 0x031 ∧ off = 0x100 ∧ op 0 then c.ifMachine rq svnAdvance
  else if page = 0x031 ∧ off = 0x170 ∧ op 0 then c.ownerProg
  else if page = 0x040 ∧ off = 0x104 ∧ op 0 then c.ifMachine rq closeGo
  else c

/-- The other action bits of one chip (R599). -/
def actShared (c : Chip) (rq : Requester) (page off : Nat) (v : Word) : Chip :=
  let op := fun (b : Nat) => v.getLsbD b
  if page = 0x070 ∧ off = 0x110 ∧ op 0 then c.ifMachine rq fun c => c.failStop true
  else if page = 0x070 ∧ off = 0x114 ∧ op 0 then c.put F.ROLE_PAIR_STATE_FENCE_OUT 0
  else if page = 0x0C1 ∧ off = 0x114 ∧ op 0 then c.ifRunning 0x0C1 0x114 fun c => c.mdcGo (c.get F.MNT_OP_KIND)
  else if page = 0x386 ∧ 0x100 ≤ off ∧ off < 0x120 then
    let m := (off - 0x100) / 4
    let c := if op 0 then c.ifRunning 0x386 off fun c => c.offlineReq m else c
    if op 1 then c.ifRunning 0x386 off fun c => c.onlineReq m else c
  else if 0x300 ≤ page ∧ page < 0x340 ∧ page % 4 = 1 ∧ off = 0x110 ∧ op 31 then
    c.ifRunning page 0x110 fun c => c.pprGo ((page - 0x300) / 4)
  else c

/-- A word is written to a register of one chip, but for those that reach beyond the chip. A write whose action bits fail a check is
rejected whole, and one whose action its requester may not start is dropped (R56, R599). -/
def writeWord (c : Chip) (rq : Requester) (page off : Nat) (v : Word) (both late : Bool) : Chip :=
  if off = 0x008 then c.ctrlWrite page v
  else if off = 0x010 then c.clearEvents page v 0
  else if off = 0x014 then c.enableEvents page v
  else if off = 0x018 then c.forceEvents page v
  else if off = 0x01C then c.wr page off (underBits (c.rd page off) v 0x1F0000)
  else if off < 0x100 then c
  else if page = 0x141 ∧ 0x120 ≤ off ∧ off < 0x130 then c.marginWrite ((off - 0x120) / 4) (v.setWidth 8)
  else if actsMachine page off v && !Requester.isMachine rq then c.deny
  else
    let x := (c.wr page off (c.rd page off &&& ~~~(v &&& BitVec.ofNat 32 (clearMask page off)))).storeConfig page off v both late
    if !x.2 then x.1
    else if x.1.actionCode page off v ≠ 0 then c.reject page (x.1.actionCode page off v) off
    else (x.1.actOwn rq page off v).actShared rq page off v

end Chip

open Chip

namespace State

/-- A word is written to a register of chip `w` (R56, R599); `via` names the chip that accepted it where it came through the pair alias. The
registers that reach beyond one chip: domain settings (R270, R566), WARM.GO (R548), ERASE_REQ (R576), FORCE_ALONE (R224), doorbells
(R144), and interrupt sources with their free value (R503). ERASE_REQ.GO, a drill and a change of PORT_HOME, written to one chip alone while
the page is RUNNING, do nothing and are not rejected (DESIGN CHOICE, log 25). -/
def storeWord (s : State) (w : Twin) (rq : Requester) (via : Option Twin) (page off : Nat) (v : Word) : State :=
  let mine := via.getD w == w
  if page = 0x0A1 ∧ 0x100 ≤ off ∧ off < 0x500 then
    let r := (s.chip w).domainWrite ((off - 0x100) / 16) ((off - 0x100) % 16 / 4) v (s.pairCapacity w) (s.pairPool w)
    let t := s.setChip w r.1
    if r.2 && mine then t.drawKey w ((off - 0x100) / 16) else t
  else if isDoorbell page off && via.isNone then s.mapChip w fun c => c.doorbell rq false ((off - 0x500) / 8) off (v.setWidth 16)
  else
    let x := if (sourceNumber page off).isSome then s.nextFree else (0, s)
    let s := x.2.mapChip w fun c => c.writeWord rq page off v via.isSome (Config.lateDelivery x.1)
    if page = 0x020 ∧ off = 0x100 ∧ v.getLsbD 0 ∧ Requester.isMachine rq then s.warmGo w rq (s.chip w).plainReport
    else if page = 0x032 ∧ off = 0x100 ∧ v.getLsbD 31 ∧ via.isSome ∧ mine then s.eraseReq w (bitsOf v 0 6)
    else if page = 0x070 ∧ off = 0x108 ∧ v.getLsbD 1 then
      (let y := s.nextFree
       y.2.mapChip w fun c => c.forceAlone rq (Config.drbg y.1))
    else s

/-- A register write to a chip's own pages (R42, R45 to R48, R56): the form of the access is judged first, then whether there is a page, the
doorbell's own rule (R144), and the requester's rights; one that fails counts by the first alone (log 93). -/
def writePage (s : State) (w : Twin) (rq : Requester) (x : PageWrite) : State :=
  let c := s.chip w
  if !c.up || !s.isLocal w rq then s
  else if !goodAccess x.off x.size then s.mapChip w fun c => c.badAccess rq 7
  else if blockOf x.page = 0 then s
  else if isDoorbell x.page x.off then
    s.mapChip w fun c => (PageWrite.words x).foldl (fun c y => c.doorbell rq false ((y.off - 0x500) / 8) y.off (y.data.setWidth 16)) c
  else if !c.mayWrite rq x.page then s.mapChip w deny
  else (PageWrite.words x).foldl (fun s y => s.storeWord w rq none y.page y.off (y.data.setWidth 32)) s

/-- A write through the pair alias is accepted by a chip (R59), a doorbell by its own rule (R144). -/
def writeAlias (s : State) (w : Twin) (rq : Requester) (x : PageWrite) : State :=
  let c := s.chip w
  if !c.up || !s.isLocal w rq then s
  else if !goodAccess x.off x.size then s.mapChip w fun c => c.badAccess rq 7
  else if blockOf x.page = 0 then s
  else if isDoorbell x.page x.off then
    s.mapChip w fun c => (PageWrite.words x).foldl (fun c y => c.doorbell rq true ((y.off - 0x500) / 8) y.off (y.data.setWidth 16)) c
  else if !c.mayWrite rq x.page then s.mapChip w deny
  else s.mapChip w fun c => c.acceptAlias rq x

/-- A write of a peer page (R42, R43): forwarded over the Coxia Link, or dropped where the peer cannot be reached. -/
def writePeer (s : State) (w : Twin) (rq : Requester) (x : PageWrite) : State :=
  let c := s.chip w
  if !c.up || !s.isLocal w rq then s
  else if !goodAccess x.off x.size then s.mapChip w fun c => c.badAccess rq 7
  else if blockOf x.page = 0 then s
  else if isDoorbell x.page x.off then
    s.mapChip w fun c => (PageWrite.words x).foldl (fun c y => c.doorbell rq false ((y.off - 0x500) / 8) y.off (y.data.setWidth 16)) c
  else if !c.mayWrite rq x.page then s.mapChip w deny
  else if !s.reaches w then s.mapChip w fun c => c.cnt K.RAS_PEER_ACCESS_FAIL
  else s.mapChip w fun c => c.send (.accessWrite rq x)

/-- A read of a chip's own pages (R42, R45 to R48), answered; through the pair alias it is the local chip's too. The form of the access is judged
before whether there is a page (log 93). -/
def readPage (s : State) (w : Twin) (rq : Requester) (page off size : Nat) : State :=
  s.mapChip w fun c =>
    if !c.up || !s.isLocal w rq then c
    else if !goodAccess off size then (c.badAccess rq 5).answer rq (onesOf size)
    else
      let x := c.takePage rq page off size
      x.1.answer rq x.2

/-- A read of a peer page (R42, R43): forwarded, or answered with all-ones where the peer cannot be reached. -/
def readPeer (s : State) (w : Twin) (rq : Requester) (page off size : Nat) : State :=
  s.mapChip w fun c =>
    if !c.up || !s.isLocal w rq then c
    else if !goodAccess off size then (c.badAccess rq 5).answer rq (onesOf size)
    else if blockOf page = 0 ∨ !c.mayRead rq page then c.answer rq 0
    else if !s.reaches w then (c.cnt K.RAS_PEER_ACCESS_FAIL).answer rq (onesOf size)
    else { c with link := { c.link with asked := c.link.asked ++ [(rq, size, c.round)] } }.send (.accessRead rq page off size)

/-- One alias write is applied on the chips that hold it (R59, R599); a drill and a change of the preferred homes are the pair's. -/
def applyAlias (s : State) (a : AliasWrite) (onA onB : Bool) : State :=
  let v : Word := a.x.data.setWidth 32
  let homes (s : State) : Nat := (s.chip a.from').cfg F.ROLE_PORT_HOME_B_HOME
  let before := homes s
  let s := if onA then s.storeWord .A a.rq (some a.from') a.x.page a.x.off v else s
  let s := if onB then s.storeWord .B a.rq (some a.from') a.x.page a.x.off v else s
  if a.x.page = 0x070 ∧ a.x.off = 0x100 then s.portHomeApplied before (homes s)
  else if a.x.page = 0x070 ∧ a.x.off = 0x10C ∧ v.getLsbD 4 then
    (let n := bitsOf v 0 3
     if h : n < 6 then s.drill ⟨n, h⟩ else s.mapBoth fun c => if c.up then c.reject 0x070 0x01 0x10C else c)
  else s

/-- The alias writes of a chip that are due: those accepted two Rounds ago or earlier. -/
def dueAlias (c : Chip) : List AliasWrite :=
  if c.up then c.twe.aliasQ.filter fun a => decide (a.round + 2 ≤ c.round) else []

/-- The alias writes that are due are applied: those that chip A accepted first, then chip B's, each in the order of acceptance (R59). -/
def applyAliases (s : State) : State :=
  let a := dueAlias s.a
  let b := dueAlias s.b
  let all := a ++ b.filter fun x => !a.contains x
  let order := (all.filter fun x => x.from' == .A) ++ all.filter fun x => x.from' == .B
  let s := s.mapBoth fun c =>
    let due := dueAlias c
    { c with twe := { c.twe with aliasQ := c.twe.aliasQ.filter fun x => !due.contains x } }
  order.foldl (fun s x => s.applyAlias x (a.contains x) (b.contains x)) s

end State

end Sys2Proof.Machine
end

