-- ==== Sys2Proof/Machine/Pages.lean ====
section
/-! DEFINITION. The commands of the page registers (R41 to R63), the ACCESS envelope, the debug port's bus (R570), and the Showick page messages
and Fabric Manager commands of the management endpoint (R540, R541). -/
namespace Sys2Proof.Machine
open Chip

/-! ## Register writes and page states -/

/-- REGISTER_WRITE (R56). -/
def execRegisterWrite (w : Twin) (rq : Requester) (x : PageWrite) (s : State) : Host.Outcome State Fault Refusal :=
  .next (s.writePage w rq x)

/-- A write of CTRL by a requester that may write the page (R47, R52); a page that does not exist ignores it (R46). -/
def Chip.writeCtrl (c : Chip) (rq : Requester) (page : Nat) (f : Word → Word) : Chip :=
  if blockOf page = 0 then c else c.ifWrites rq page fun c => c.ctrlWrite page (f (c.rd page 0x008 &&& 3))

/-- PAGE_ENABLE (R52): the check of the page begins. -/
def execPageEnable (w : Twin) (rq : Requester) (page : Nat) (s : State) : Host.Outcome State Fault Refusal :=
  .next (s.onUp w fun c => c.writeCtrl rq page fun v => v ||| 1)

/-- PAGE_DISABLE (R52, R54): the page drains and turns off, or the write is rejected. -/
def execPageDisable (w : Twin) (rq : Requester) (page : Nat) (s : State) : Host.Outcome State Fault Refusal :=
  .next (s.onUp w fun c => c.writeCtrl rq page fun v => v &&& ~~~1)

/-- PAGE_QUIESCE (R52). -/
def execPageQuiesce (w : Twin) (rq : Requester) (page : Nat) (s : State) : Host.Outcome State Fault Refusal :=
  .next (s.onUp w fun c => c.writeCtrl rq page fun v => v ||| 2)

/-- PAGE_UNQUIESCE (R52). -/
def execPageUnquiesce (w : Twin) (rq : Requester) (page : Nat) (s : State) : Host.Outcome State Fault Refusal :=
  .next (s.onUp w fun c => c.writeCtrl rq page fun v => v &&& ~~~2)

/-- SOFT_RESET (R55). -/
def execSoftReset (w : Twin) (rq : Requester) (page : Nat) (s : State) : Host.Outcome State Fault Refusal :=
  .next (s.onUp w fun c => c.writeCtrl rq page fun v => v ||| 4)

/-- FREEZE_CFG (R50, R52). -/
def execFreezeCfg (w : Twin) (rq : Requester) (page : Nat) (s : State) : Host.Outcome State Fault Refusal :=
  .next (s.onUp w fun c => c.writeCtrl rq page fun v => v ||| 8)

/-- Whether stage 11 has a twin to compare with (R53): the link reaches one that runs. -/
def State.compares (s : State) (w : Twin) : Bool := (s.chip w).linkUp && (s.chip w.other).up

/-- The keys of the domains that a check of the domain page has made valid or moved (R270, R566): the tier manager's keeper draws them. -/
def State.keysAfter (s old : State) (w : Twin) : State :=
  let c := s.chip w
  let o := old.chip w
  if !c.isKeeper then s
  else ((List.range 64).filter fun d => c.domValid d && (c.sec.keys.get (fun _ => none) d).isNone &&
    (!o.domValid d || c.domBase d != o.domBase d)).foldl (fun s d => s.drawKey w d) s

/-- PAGE_CHECK_DONE (R54): stages 1 to 11 on the values as they stand, at the start of Round t+2. -/
def execPageCheckDone (w : Twin) (page : Nat) (s : State) : Host.Outcome State Fault Refusal :=
  .next ((s.onUp w fun c => c.checkDone (s.chip w.other) (s.compares w) page).keysAfter s w)

/-- PAGE_DRAINED (R52). -/
def execPageDrained (w : Twin) (page : Nat) (s : State) : Host.Outcome State Fault Refusal :=
  .next (s.onUp w fun c => c.drained page)

/-- PAGE_FAULT (R52). -/
def execPageFault (w : Twin) (page : Nat) (s : State) : Host.Outcome State Fault Refusal :=
  .next (s.onUp w fun c => c.faultPage page)

/-- Carries out a header write of an existing page. -/
def Chip.headerWrite (c : Chip) (rq : Requester) (page : Nat) (f : Chip → Chip) : Chip :=
  if blockOf page = 0 then c else c.ifWrites rq page f

/-- EVT_STATUS_CLEAR (R51); `again` are the events that occur in the same FCLK cycle. -/
def execEvtStatusClear (w : Twin) (rq : Requester) (page : Nat) (bits again : Word) (s : State) : Host.Outcome State Fault Refusal :=
  .next (s.onUp w fun c => c.headerWrite rq page fun c => c.clearEvents page bits again)

/-- EVT_FORCE (R51). -/
def execEvtForce (w : Twin) (rq : Requester) (page : Nat) (bits : Word) (s : State) : Host.Outcome State Fault Refusal :=
  .next (s.onUp w fun c => c.headerWrite rq page fun c => c.forceEvents page bits)

/-- EVT_ENABLE_WRITE (R51). -/
def execEvtEnableWrite (w : Twin) (rq : Requester) (page : Nat) (bits : Word) (s : State) : Host.Outcome State Fault Refusal :=
  .next (s.onUp w fun c => c.headerWrite rq page fun c => c.enableEvents page bits)

/-! ## The peer's pages and the pair alias -/

/-- PEER_PAGE_READ (R42, R43). -/
def execPeerPageRead (w : Twin) (rq : Requester) (page off size : Nat) (s : State) : Host.Outcome State Fault Refusal :=
  .next (s.readPeer w rq page off size)

/-- PEER_PAGE_WRITE (R43). -/
def execPeerPageWrite (w : Twin) (rq : Requester) (x : PageWrite) (s : State) : Host.Outcome State Fault Refusal :=
  .next (s.writePeer w rq x)

/-- PAIR_ALIAS_WRITE (R59). -/
def execPairAliasWrite (w : Twin) (rq : Requester) (x : PageWrite) (s : State) : Host.Outcome State Fault Refusal :=
  .next (s.writeAlias w rq x)

/-- ALIAS_WRITE_APPLY (R59). -/
def execAliasWriteApply (s : State) : Host.Outcome State Fault Refusal := .next s.applyAliases

/-- An access of the peer is carried out on chip `w` (R42); the rights of its requester were judged where it was made. -/
def State.servePeer (s : State) (w : Twin) (b : EnvBody) : State :=
  match b with
  | .accessRead rq page off size =>
    s.mapChip w fun c =>
      let x := c.takeWord rq page off
      let y := if size = 8 then x.1.takeWord rq page (off + 4) else (x.1, 0)
      y.1.send (.accessAnswer rq (x.2.setWidth 64 ||| (y.2.setWidth 64 <<< 32)))
  | .accessWrite rq x => (PageWrite.words x).foldl (fun s y => s.storeWord w rq none y.page y.off (y.data.setWidth 32)) s
  | .accessAnswer rq v => s.mapChip w fun c => c.takeAnswer rq v
  | _ => s

/-- ACCESS (R42, R168): a peer page access, or its answer. An isolated chip answers none (R203). -/
def execEnvAccess (w : Twin) (s : State) : Host.Outcome State Fault Refusal :=
  .next (s.receive w 6 fun b s => if (s.chip w).mode = mISOLATED then s else s.servePeer w b)

/-! ## CXL.io requests to a head (R41, R42, R68 to R70, R79, R80, R86, R95, R104) -/

/-- The number of bytes `size` from byte `at'` on of what stands at an address. -/
def cutBytes (size at' v : Nat) : List Byte := (bytesLE (at' + size) v).drop at'

/-- A part of a head's configuration space as it reads. The Memory_Active timeout is reported as 256 s (R104); the GPF DVSEC reports a Phase 2
duration of 20 µs and a power of 540 W, as µs and W (R95). -/
def Chip.configValue (c : Chip) (h : Fin 24) : ConfigReg → List Byte
  | .vendorDevice => bytesLE 2 Config.vendorId.toNat ++ bytesLE 2 0x9640
  | .classCode => bytesLE 3 0x050210
  | .subsystem => bytesLE 4 (Config.subsystem (c.slotBytes c.rst.activeSlot)).toNat
  | .serialNumber => bytesLE 8 c.svc.pairSerial
  | .maxPayload => bytesLE 2 512
  | .interruptPin => bytesLE 1 0
  | .powerState => bytesLE 1 (c.get (F.HLNK_LINK_D_STATE h.val)) ++ bytesLE 1 (bit (c.head h).pmeStatus)
  | .memoryActive => bytesLE 1 (bit c.memActive) ++ bytesLE 2 256
  | .registerLocator => bytesLE 4 0x000000 ++ bytesLE 4 0x010000
  | .gpfDuration => bytesLE 4 20
  | .gpfPower => bytesLE 4 540
  | .decoder n =>
    let d := c.decoder h n.val
    bytesLE 8 d.cfg.hpaBase ++ bytesLE 8 d.cfg.hpaSize ++ bytesLE 2 d.cfg.ways ++ bytesLE 2 d.cfg.gran ++ bytesLE 8 d.cfg.skip ++
      bytesLE 1 (bit d.cfg.bi + 2 * bit d.cfg.lock + 4 * bit d.committed + 8 * bit d.failed)
  | .msixEntry v =>
    let x := c.vec h v.val
    bytesLE 8 x.addr.toNat ++ bytesLE 4 x.data.toNat ++ bytesLE 4 (bit x.masked)

/-- The mailbox registers of a head as one number from 0x01_1000 on (R79; their places PRESUMED, log 98: CXL 3.1): the payload size, the doorbell,
the command, the status with the return code of the last command, the background operation. -/
def Chip.mailboxValue (c : Chip) (h : Fin 24) : Nat :=
  let x := c.head h
  14 + bit x.mailBusy.isSome * 2 ^ 32 + x.mailCmd * 2 ^ 64 + bit c.mail.background.isSome * 2 ^ 128 + x.reply.code * 2 ^ 160 +
    (match c.mail.background with | some b => b.opcode | none => 0) * 2 ^ 192

/-- What a read of the first 1 MiB of a head's BAR0 gives (R79): `size` bytes from an offset. -/
def Chip.cxlArea (c : Chip) (h : Fin 24) (off size : Nat) : List Byte :=
  if (0x1000 ≤ off ∧ off < 0x2000) ∨ (0x10000 ≤ off ∧ off < 0x10200) then
    (List.range size).map fun i => (Config.capabilityWord h.val ((off + i) / 4)).extractLsb' (8 * ((off + i) % 4)) 8
  else if 0x11000 ≤ off ∧ off < 0x11020 then cutBytes size (off - 0x11000) (c.mailboxValue h)
  else if 0x11020 ≤ off ∧ off < 0x15020 then (List.range size).map fun i => (c.head h).payload.get (fun _ => 0) (off + i - 0x11020)
  else if 0x16000 ≤ off ∧ off < 0x16008 then cutBytes size (off - 0x16000) (bit c.memActive * 4 + 16)
  else if 0x80000 ≤ off ∧ off < 0x80400 then
    ((c.configValue h (.msixEntry (Fin.ofNat 64 ((off - 0x80000) / 16)))).drop (off % 16)).take size
  else if 0x81000 ≤ off ∧ off < 0x81008 then
    cutBytes size (off - 0x81000) (((List.range 64).filter fun v => (c.vec h v).pend).map fun v => 2 ^ v).sum
  else bytesLE size 0

/-- A write to the first 1 MiB of a head's BAR0 on one chip (R79, R86): a byte range of the payload, the mailbox command, the MSI-X table; a
doorbell with an opcode that the mailbox does not support returns Unsupported at the home. The commands it does support are rows of their own.
Everything else there is read-only, named by another operand, or reserved. -/
def Chip.cxlAreaWrite (c : Chip) (h : Fin 24) (off size : Nat) (v : BitVec 64) : Chip :=
  let x := c.head h
  if 0x11020 ≤ off ∧ off + size ≤ 0x15020 then
    (List.range size).foldl (fun c i =>
      c.mapHead h fun y => { y with payload := y.payload.set (fun _ => 0) (off + i - 0x11020) (v.extractLsb' (8 * i) 8) }) c
  else if off = 0x11008 then (if x.mailBusy.isSome then c else c.mapHead h fun y => { y with mailCmd := v.toNat % 2 ^ 37 })
  else if off = 0x11004 then
    if v.getLsbD 0 && x.mailBusy.isNone && (mailOpcodes.find? fun o => o.1 == x.mailCmd % 2 ^ 16).isNone && c.isHome (portOf h) then
      c.mailDone h { code := 3 }
    else c
  else if 0x80000 ≤ off ∧ off < 0x80400 then
    let n := (off - 0x80000) / 16
    let y := c.vec h n
    match off % 16, size with
    | 0, 8 => c.writeVec h n v y.data y.masked
    | 0, 4 => c.writeVec h n ((y.addr &&& 0xFFFFFFFF00000000) ||| (v &&& 0xFFFFFFFF)) y.data y.masked
    | 4, 4 => c.writeVec h n ((y.addr &&& 0xFFFFFFFF) ||| (v <<< 32)) y.data y.masked
    | 8, 8 => c.writeVec h n y.addr (v.setWidth 32) (v.getLsbD 32)
    | 8, 4 => c.writeVec h n y.addr (v.setWidth 32) y.masked
    | 12, 4 => c.writeVec h n y.addr y.data (v.getLsbD 0)
    | _, _ => c
  else c

/-- A read of a head is answered by the home (R80). -/
def State.ioAnswer (s : State) (h : Fin 24) (f : Chip → List Byte) : State :=
  s.onHome h fun c => ((c.cnt (K.HLNK_IO_REQUESTS h.val)).hearOther h).toHost h (.ioData (f c))

/-- The chip whose page windows lie at a BAR0 offset (R41), and the page's number. -/
def barChip (off : Nat) : Option Twin := if 0x2000000 ≤ off ∧ off < 0x3000000 then some .A else if 0x3000000 ≤ off ∧ off < 0x4000000 then some .B else none

/-- A memory read of BAR0 (R41, R42, R79): the CXL area, the pages of either chip, or the pair alias, which gives the local chip's value;
reserved offsets read 0. -/
def State.barRead (s : State) (h : Fin 24) (off size : Nat) : State :=
  match s.homeOf (portOf h) with
  | none => s
  | some w =>
    let page := off % 2 ^ 24 / 4096
    if off < 0x100000 then s.ioAnswer h fun c => c.cxlArea h off size
    else if off < 0x1000000 ∨ 0x4000000 ≤ off then s.ioAnswer h fun _ => bytesLE size 0
    else
      let s := s.mapChip w fun c => (c.cnt (K.HLNK_IO_REQUESTS h.val)).hearOther h
      if barChip off = some w.other then s.readPeer w (.host h) page (off % 4096) size else s.readPage w (.host h) page (off % 4096) size

/-- A memory write of BAR0 (R41, R80): both twins carry out those of the CXL area, the home alone those of the page windows; reserved
offsets ignore them. -/
def State.barWrite (s : State) (h : Fin 24) (off size : Nat) (v : BitVec 64) : State :=
  match s.homeOf (portOf h) with
  | none => s
  | some w =>
    let s := (s.mapChip w fun c => c.hearOther h).onPort (portOf h) fun c => c.cnt (K.HLNK_IO_REQUESTS h.val)
    let x : PageWrite := ⟨off % 2 ^ 24 / 4096, off % 4096, size, v⟩
    if off < 0x100000 then s.onPort (portOf h) fun c => c.cxlAreaWrite h off size v
    else if off < 0x1000000 ∨ 0x4000000 ≤ off then s
    else match barChip off with
      | none => s.writeAlias w (.host h) x
      | some t => if t = w then s.writePage w (.host h) x else s.writePeer w (.host h) x

/-- CXL_IO_CONFIG_WRITE (R41, R79, R80): both twins carry out a write to configuration space or the CXL area; the home alone answers reads and
carries out writes to the page windows. -/
def execCxlIoConfigWrite (h : Fin 24) (x : IoWrite) (s : State) : Host.Outcome State Fault Refusal :=
  .next (if !s.linkIn h then s
    else match x with
    | .bar off size v => s.barWrite h off size v
    | .barRead off size => s.barRead h off size
    | .configRead r => s.ioAnswer h fun c => c.configValue h r
    | .configWord off => s.ioAnswer h fun c => bytesLE 4 ((c.head h).cfgSpace.get (fun _ => 0) off).toNat
    | _ => (s.onHome h fun c => c.hearOther h).onPort (portOf h) fun c => c.ioWrite h x)

/-! ## The debug port (R569, R570) -/

/-- The value of a read of the debug port outside the pages (R480, R570); none where nothing answers. mtime is 400 times the round number, its
periods within a Round left out; the boot ROM's content is open. -/
def Chip.busRead (c : Chip) (addr size : Nat) : Option Nat :=
  let bytes (f : Nat → Nat) : Nat := (List.range size).foldl (fun a i => a + f i * 2 ^ (8 * i)) 0
  if addr + size ≤ 0x10000 then some (bytes fun i => (Config.bootRom (addr + i)).toNat)
  else if 0x03000000 ≤ addr ∧ addr + size ≤ 0x03000008 then
    some (bytes fun i => (c.round * 400) / 2 ^ (8 * (addr - 0x03000000 + i)) % 256)
  else if 0x03000008 ≤ addr ∧ addr + size ≤ 0x03000048 then
    some (bytes fun i => (c.core ((addr - 0x03000008) / 8)).mtimecmp / 2 ^ (8 * (addr % 8 + i)) % 256)
  else if 0x20000000 ≤ addr ∧ addr + size ≤ 0x20800000 then some (bytes fun i => (c.flash (addr - 0x20000000 + i)).toNat)
  else (c.corePlace 0 true addr size).map fun p => c.coreLoad 0 p size

/-- A core's mtimecmp with `size` bytes from byte `b` on replaced; MTIP falls where mtime has not reached it (R478). -/
def Core.setTimer (x : Core) (b size v mtime : Nat) : Core :=
  let old := x.mtimecmp
  let new := old - old / 2 ^ (8 * b) % 2 ^ (8 * size) * 2 ^ (8 * b) + v % 2 ^ (8 * size) * 2 ^ (8 * b)
  { x with mtimecmp := new, mtip := x.mtip && decide (new ≤ mtime) }

/-- A write of the debug port outside the pages: to a core's timer, its local memory or DRAM. -/
def Chip.busWrite (c : Chip) (addr size v : Nat) : Chip :=
  if 0x03000008 ≤ addr ∧ addr + size ≤ 0x03000048 then
    c.mapCore ((addr - 0x03000008) / 8) fun x => x.setTimer (addr % 8) size v (c.round * 400)
  else match c.corePlace 0 true addr size with
  | some p => c.coreStore 0 p size v
  | none => c

/-- A bus access of the debug port (R44, R480, R570): the chip's own pages, the peer's, the pair alias, or memory. -/
def State.busAccess (s : State) (w : Twin) (x : BusAccess) : State :=
  let n := x.size.val
  let page (base : Nat) : Nat := (x.addr - base) / 4096
  let off := x.addr % 4096
  let put (base : Nat) (v : BitVec 64) : PageWrite := ⟨page base, off, n, v⟩
  if 0x40000000 ≤ x.addr ∧ x.addr < 0x41000000 then
    match x.write with
    | none => s.readPage w .debugPort (page 0x40000000) off n
    | some v => s.writePage w .debugPort (put 0x40000000 v)
  else if 0x41000000 ≤ x.addr ∧ x.addr < 0x42000000 then
    match x.write with
    | none => s.readPeer w .debugPort (page 0x41000000) off n
    | some v => s.writePeer w .debugPort (put 0x41000000 v)
  else if 0x42000000 ≤ x.addr ∧ x.addr < 0x43000000 then
    match x.write with
    | none => s.readPage w .debugPort (page 0x42000000) off n
    | some v => s.writeAlias w .debugPort (put 0x42000000 v)
  else if !((n == 1 || n == 2 || n == 4 || n == 8) && x.addr % n == 0) then s
  else s.mapChip w fun c =>
    match x.write with
    | none => match c.busRead x.addr n with | some v => c.answer .debugPort (BitVec.ofNat 64 v) | none => c
    | some v => c.busWrite x.addr n v.toNat

/-- SYSBUS (R570): loads, and acts as bus master where debug is open; after field close its code is BYPASS (R569). -/
def execTapSysbus (w : Twin) (x : BusAccess) (s : State) : Host.Outcome State Fault Refusal :=
  let s := s.mapChip w fun c => c.tapLoad 0x21
  .next (if (s.chip w).tap.instr = 0x21 ∧ (s.chip w).up then s.busAccess w x else s)

/-! ## The management endpoint (R540, R541) -/

/-- The response to a page message (R541): the request with its status and data. -/
def PageMessage.response (x : PageMessage) (cmd status : Nat) (data : Word) : List Byte :=
  [0x7E, BitVec.ofNat 8 cmd, BitVec.ofNat 8 status] ++ bytesLE 2 x.page.toNat ++ bytesLE 2 x.off.toNat ++ [x.chip, 0] ++ bytesLE 4 data.toNat

/-- A page message is answered: its status and data stand as the answer, and its packet goes out. -/
def Chip.pageAnswer (c : Chip) (x : PageMessage) (cmd status : Nat) (data : Word) : Chip :=
  let c := if status = 1 then c.cnt K.MTI_ACCESS_DENIED else c
  (c.answer .mctp (data.setWidth 64) status).mctpSend (PageMessage.response x cmd status data)

/-- PAGE_READ (R541), answered by the chip whose endpoint serves; a peer page is read at once. -/
def execPageRead (w : Twin) (x : PageMessage) (s : State) : Host.Outcome State Fault Refusal :=
  let c := s.chip w
  let t := PageMessage.target x w
  let off := x.off.toNat
  .next (if !(c.up && c.acking) then s
    else if !PageMessage.ok x then s.mapChip w fun c => c.pageAnswer x 1 4 0
    else if off % 4 ≠ 0 ∨ off ≥ 4096 then s.mapChip w fun c => (c.badAccess .mctp 5).pageAnswer x 1 2 (BitVec.allOnes 32)
    else if t ≠ w ∧ !s.reaches w then
      s.mapChip w fun c => (c.cnt K.RAS_PEER_ACCESS_FAIL).pageAnswer x 1 3 (BitVec.allOnes 32)
    else
      let r := (s.chip t).takePage .mctp x.page.toNat off 4
      (s.setChip t r.1).mapChip w fun c => c.pageAnswer x 1 0 (r.2.setWidth 32))

/-- PAGE_WRITE (R48, R541). -/
def execPageWrite (w : Twin) (x : PageMessage) (s : State) : Host.Outcome State Fault Refusal :=
  let c := s.chip w
  let t := PageMessage.target x w
  let p : PageWrite := ⟨x.page.toNat, x.off.toNat, 4, x.data.setWidth 64⟩
  let denied := isDoorbell p.page p.off || !c.mayWrite .mctp p.page
  .next (if !(c.up && c.acking) then s
    else if !PageMessage.ok x then s.mapChip w fun c => c.pageAnswer x 2 4 0
    else if p.off % 4 ≠ 0 ∨ p.off ≥ 4096 then s.mapChip w fun c => (c.badAccess .mctp 7).pageAnswer x 2 2 0
    else if blockOf p.page = 0 then s.mapChip w fun c => c.pageAnswer x 2 0 0
    else if denied then
      let s := if x.chip = 2 then s.writeAlias w .mctp p else s.writePage w .mctp p
      s.mapChip w fun c => c.pageAnswer x 2 1 0
    else if x.chip = 2 then (s.writeAlias w .mctp p).mapChip w fun c => c.pageAnswer x 2 0 0
    else if t ≠ w ∧ !s.reaches w then
      s.mapChip w fun c => (c.cnt K.RAS_PEER_ACCESS_FAIL).pageAnswer x 2 3 0
    else (s.storeWord t .mctp none p.page p.off x.data).mapChip w fun c => c.pageAnswer x 2 0 0)

/-- The commands of R86 and R87 that the speaker answers to a fabric manager without operands: those that read what is the pair's. -/
def State.fabricReply (s : State) (w : Twin) (op : Nat) : Option (List Byte) :=
  let c := s.chip w
  let q (l : List Nat) : List Byte := l.flatMap (bytesLE 8)
  let cap := s.pairCapacity w

  let same (n : Nat) : Nat := bit (s.a.slotBytes n == s.b.slotBytes n && !(s.a.slotBytes n).isEmpty)
  if op = 0x0200 then some (q [2, c.get F.EFC_ACTIVE_SLOT, same 0, same 1])
  else if op = 0x0300 then some (q [c.timestamp % 2 ^ 64])
  else if op = 0x0400 then some (q [2, 2 * mailOpcodes.length, effectsLog.length])
  else if op = 0x4000 then some (q [cap, 0, cap, 0, 262144, 256, 64])
  else if op = 0x4100 then some (q [0, cap, 0, cap])
  else if op = 0x4200 then some (q [bit c.memActive, c.get F.THM_TJ_HOT / 4, c.mail.dirtyCount])
  else if op = 0x4201 then some c.mail.alerts
  else if op = 0x4203 then some (q [bit c.mail.dirty])
  else if op = 0x4305 then some (q c.mail.scanned)
  else if op = 0xC000 then some (s.pairInfo w 0)
  else if op = 0xC001 then some (s.dirtyBudget w)
  else none

/-- FM_API_COMMAND (R220, R540): carried out by the speaker, on the command subset of R86 and R87. A command that only a manager head may give
is Unsupported here, as R86 has it for every other source; one that needs a head or operands is answered with Invalid Input. -/
def execFmApiCommand (w : Twin) (opcode : BitVec 16) (s : State) : Host.Outcome State Fault Refusal :=
  let op := opcode.toNat
  let c := s.chip w
  let reply (code : Nat) (out : List Byte) : List Byte := [0x07] ++ bytesLE 2 op ++ bytesLE 2 code ++ out
  .next (if !(c.up && c.acking) then s
    else match mailOpcodes.find? fun x => x.1 == op with
      | none => s.mapChip w fun c => c.mctpSend (reply 3 [])
      | some x =>
        if x.2.1 then s.mapChip w fun c => c.mctpSend (reply 3 [])
        else match s.fabricReply w op with
          | some out => s.mapChip w fun c => c.mctpSend (reply 0 out)
          | none => s.mapChip w fun c => c.mctpSend (reply 2 []))

end Sys2Proof.Machine
end

