-- ==== Sys2Proof/Machine/Findings.lean ====
section
/-! DEFINITION. What the hardware of a chip finds in itself in a Round (log 88): measured counters and registers, errors of its DRAM and of its SRAM,
and what becomes of the reserved regions that they hit (R435, R443 to R450, R463). -/
namespace Sys2Proof.Machine

/-! ## What only a measurement shows -/

/-- The counters that count events which only the hardware sees: corrected symbols, link-layer retries, accesses of the media and of the DRAM
bus (R106 to R111, R228, R378, R438 to R442, R576). -/
def measuredCounts : List Ctr :=
  (allHeads.flatMap fun h => [K.HLNK_REPLAYS_TX h.val, K.HLNK_NAKS_RX h.val, K.HLNK_FEC_CORRECTED h.val, K.HLNK_CRC_ERRORS h.val]) ++
  ((List.range 6).flatMap fun p => (List.range 16).flatMap fun l => [K.LANE_HOST_SYM_ERR p l, K.LANE_TAP_SYM_ERR p l]) ++
  ((List.range 18).map fun l => K.CXLANE_SYM_CORR l) ++ [K.CXK_FEC_CORRECTED, K.KEY_DRBG_RESEEDS] ++
  ((List.range 16).flatMap fun d => [K.DRF_SR_US d, K.DRF_OUT_OF_SERVICE_NS d, K.DTR_DFE_UPDATES d]) ++
  ((List.range 32).flatMap fun k => [K.CHN_READS k, K.CHN_BITS_CORRECTED k])

/-- The counters that hold the longest of some times (R109, R159, R226 to R229, R257 to R260, R305, R308, R371, R438, R439, R490, R505, R526). -/
def measuredMaxima : List Ctr :=
  [K.WMB_TWINACK_NS_MAX, K.REP_REPAIR_NS_MAX, K.SNP_SNOOP_NS_MAX, K.ORD_ORDER_WAIT_NS_MAX, K.MDC_TC_BLOCK_NS_MAX, K.MDE_DIRECT_NS_MAX,
   K.EFC_STALL_NS_MAX, K.ICT_PRESENT_NS_MAX, K.PSQ_SYNC_WAIT_US_MAX] ++
  ((List.range 16).flatMap fun d => [K.DCH_QUEUE_NS_MAX d, K.DRF_REF_WAIT_NS_MAX d])

/-- The registers that show a measurement: ages of what waits longest, eye margins, eyes of a media channel, the use of its bus. -/
def measuredFields : List Fld :=
  [F.WMB_OLDEST_LOCAL_NS, F.PMK_WM_AGE_NS, F.ORD_ORDER_AGE_NS] ++ ((List.range 18).map fun l => F.CXLANE_LANE_MARGIN l) ++
  ((List.range 6).flatMap fun p => (List.range 16).flatMap fun l => [F.LANE_HOST_LANE_MARGIN p l, F.LANE_TAP_LANE_MARGIN p l]) ++
  ((List.range 32).flatMap fun k => [F.CHN_TRAIN_RD_EYE k, F.CHN_TRAIN_WR_EYE k, F.CHN_BUS_UTIL_PCT k])

namespace Chip

/-- A CXL.mem completion of a head took some time (R111). -/
def completionTook (c : Chip) (h : Fin 24) (ns : Nat) : Chip :=
  let c := c.peak (K.HLNK_CMPL_NS_MAX h.val) ns
  if ns > 150000 then c.cnt (K.HLNK_CMPL_OVER_150US h.val) else c

/-- Whether a channel's receivers adapt (R425): its DFE is switched on where the counter is that of its updates. -/
def countsNow (c : Chip) (k : Ctr) : Bool :=
  (List.range 16).all fun d => k != K.DTR_DFE_UPDATES d || c.cfgOn (F.DTR_DRIFT_CFG_DFE_EN d)

/-- The reading of a measured register. -/
def reads (c : Chip) (page off lo v : Nat) : Chip :=
  match measuredFields.find? fun f => f.page == page && f.off == off && f.lo == lo with
  | some f =>
    let c := c.put f (v % 2 ^ f.width)
    if f = F.PMK_WM_AGE_NS ∧ v > 1000 then c.raise F.PMK_EV_WM_LATE else c
  | none => c

/-! ## Lost content (R444, R445) -/

/-- An extent's lines are marked lost, with an entry at level extent (R403, R445). -/
def loseExtent (c : Chip) (source e : Nat) : Chip :=
  if (c.ext e).state = 0 then c
  else
    let c := { c with trm := { c.trm with healed := c.trm.healed.filter fun l => extentOf l != e } }
    (c.mapExt e fun x => { x with lost := true }).dlo source 2 2 0x20 (e * 2 ^ 21) 0

/-- A frame is held out of the pool until the next restore (R445). -/
def leakFrame (c : Chip) (f : Nat) : Chip :=
  let c := { c with trm := { c.trm with leaked := insertN c.trm.leaked f } }
  c.put F.RAS_LEAKED_FRAMES c.trm.leaked.length

/-- An extent whose entry is lost: its content is to be fetched from the twin into a new frame, where it had one; with no twin in service it is
lost (R445). -/
def extentLost (c : Chip) (source e : Nat) : Chip :=
  if !c.twinHasCopy then c.loseExtent source e
  else match c.frameOf e with
    | some f =>
      let c := (c.leakFrame f).mapExt e fun x => { x with frame := none }
      { c with trm := { c.trm with refetch := insertN c.trm.refetch e } }
    | none => c

/-- A map line is lost (R445): counted, with its event. -/
def mapLineLost (c : Chip) : Chip := (c.cnt K.RAS_MAP_LINES_LOST).raise F.RAS_EV_MAP_LINE_LOST

/-- The logical content of a parcel is to be fetched from the twin and written as a new packed copy. -/
def wantParcel (c : Chip) (p : Nat) : Chip :=
  { c with trm := { c.trm with refetchParcels := if c.trm.refetchParcels.contains p then c.trm.refetchParcels else c.trm.refetchParcels ++ [p] } }

/-- A Parcel Map line is lost: the parcels of its extent are fetched from the twin; with none in service the extent is lost (R445). -/
def parcelLineLost (c : Chip) (source e : Nat) : Chip :=
  if (c.ext e).state = 0 then c
  else if c.twinHasCopy then (parcelsOf e).foldl wantParcel c
  else c.loseExtent source e

/-- The extents whose frames have their words in a line of the frame dirty map: every parcel of them is dirty, so that cleaning follows (R444). -/
def dirtyLineLost (c : Chip) (line : Nat) : Chip :=
  (c.trm.ext.filter fun x => match x.2.frame with | some f => c.dirtyLine f == line | none => false).foldl
    (fun c x => (parcelsOf x.1).foldl (fun c p => c.setDirty p true) c) c

/-- A set of the patch index is lost (R444): it is rebuilt within 5 ms, 1,250 Rounds. -/
def indexLineLost (c : Chip) (set : Nat) : Chip :=
  if c.trm.indexLost.any fun x => x.1 == set then c
  else { c with trm := { c.trm with indexLost := c.trm.indexLost ++ [(set, c.round + 1250)] } }

/-- Whether a 4 MiB range holds an allocated frame, patch block or parcel cache slot, or part of a reserved region (R444). -/
def rangeHolds (c : Chip) (r : Nat) : Bool :=
  if r < c.regionBase 16 / 2 ^ 22 then true
  else if r < c.regionBase 17 / 2 ^ 22 then
    c.trm.patchChains.any fun x => x.2.any fun n => (c.regionBase 16 + n * 4096) / 2 ^ 22 == r
  else if r < c.poolRange then c.trm.pcache.any fun x => c.pcacheRange x.1 == r
  else c.usedFrames.any fun f => c.rangeOf f == r

/-- The position of the fill walk: the first range not READY. -/
def fillPos (c : Chip) : Nat := ((List.range (c.trm.ready.length + 1)).find? fun r => !c.rangeReady r).getD 0

/-- A line of the fill state is lost and rebuilt: a range of it is READY below the fill walk's position, and where it holds anything (R444). -/
def fillLineLost (c : Chip) (line : Nat) : Chip :=
  let pos := c.fillPos
  let keep (r : Nat) : Bool := c.fillLine r != line || decide (r < pos) || c.rangeHolds r
  { c with trm := { c.trm with ready := c.trm.ready.filter fun x => keep x.1 } }

/-- A line of the threshold table, a byte for each level of each block group in the order of LUN position, column and level, is reset (R444). -/
def thresholdsLost (c : Chip) (line : Nat) : Chip :=
  let at' (k : Nat) : Nat :=
    let u := k / 256 % 32
    ((((c.mde.groups.get (fun _ => []) u).findIdx fun g => g == k / 8192) * 8192) + k % 8192) / 64
  let reset (x : Nat × Threshold) : Nat × Threshold := if at' x.1 = line then (x.1, { x.2 with offset := 0 }) else x
  { c with mde := { c.mde with thresholds := (c.mde.thresholds.map reset).filter fun x => x.2 != {} } }

/-- Extents of the risk map marked (R444). -/
def markRisk (c : Chip) (es : List Nat) : Chip :=
  { c with svc := { c.svc with risk := es.foldl insertN c.svc.risk, riskChanged := true } }

/-- A staged copy or a patch block is lost: its parcel is fetched from the twin; with none in service its lines are repaired or poisoned (R210,
R444). -/
def storeLost (c : Chip) (p : Nat) (lines : List Nat) (source : Nat) : Chip :=
  if c.twinHasCopy then c.wantParcel p else lines.foldl (fun c l => c.wantRepair l source) c

/-- The lines of a staged copy that lie in a line of DRAM, which may hold part of any of its lines: all of the parcel's that no patch replaces. -/
def stagedLost (c : Chip) (off source : Nat) : Chip :=
  match c.mde.staged.find? fun x => decide (c.stagedOff x ≤ off) && decide (off < c.stagedOff x + 512 * x.cells) with
  | some x =>
    if x.parcel = noParcel then c
    else c.storeLost x.parcel (((List.range 1024).map fun i => x.parcel * 65536 + 64 * i).filter fun l => !c.trm.patchLines.contains l) source
  | none => c

/-- A line of the patch area is lost. -/
def patchLost (c : Chip) (off source : Nat) : Chip :=
  let n := (off - c.regionBase 16) / 4096
  match c.trm.patchChains.find? fun x => x.2.contains n with
  | some x => c.storeLost x.1 ((c.patchOf x.1).filter fun l => c.patchOff l / 64 == off / 64) source
  | none => c

/-- A slot of the parcel cache is lost: the slots of a set are numbered in the order of its parcels (R444). -/
def slotLost (c : Chip) (off : Nat) : Chip :=
  let o := off - c.regionBase 17
  match (c.trm.pcache.filter fun x => c.pcacheSet x.1 == o / 2 ^ 20)[o % 2 ^ 20 / 65536]? with
  | some x => c.pcacheDrop x.1
  | none => c

/-- An entry of the Dead-Letter Log ring is lost (R444). -/
def ringEntryLost (c : Chip) (off : Nat) : Chip :=
  let n := (off - c.regionBase 15) / 64
  let here (e : DloEntry) : Bool := e.seq % 2 ^ c.cfg F.DLO_DLO_CFG_RING_LOG2 == n
  if c.ras.ring.any here then { c with ras := { c.ras with ring := c.ras.ring.filter fun e => !here e } }.cnt K.DLO_LOST_ENTRIES else c

/-- A line of a region that the Metadata Cache reaches is lost, by its MDC line (R444, R445): the unit of 256 B that the cache fetches. -/
def mdcLineLost (c : Chip) (line source : Nat) : Chip :=
  match c.mdcRegion line with
  | 1 => ((c.trm.ext.filter fun x => extLine x.1 == line && x.2.state != 0).map (·.1)).foldl (fun c e => c.extentLost source e) c.mapLineLost
  | 2 => c.mapLineLost.parcelLineLost source (line - 2 ^ 22)
  | 3 => (c.dirtyLineLost line).cnt K.RAS_REGION_REBUILDS
  | 4 => c.cnt K.RAS_REGION_REBUILDS
  | 5 => (c.indexLineLost (line - c.regionLine 5)).cnt K.RAS_REGION_REBUILDS
  | 6 => ((c.trm.pcache.filter fun x => c.pcacheLine x.1 == line).foldl (fun c x => c.pcacheDrop x.1) c).cnt K.RAS_REGION_REBUILDS
  | 7 => ((c.che.shadow.filter fun x => c.shadowLine x.1 == line).map (·.1)).foldl (fun c k => c.entryFails (k * 64)) c
  | 8 => ((List.range 2048).foldl (fun c i => c.markChange ((line - c.regionLine 8) * 2048 + i)) c).cnt K.RAS_REGION_REBUILDS
  | _ => (c.fillLineLost line).cnt K.RAS_REGION_REBUILDS

/-- A line of a region reached directly is lost, by its region and offset (R444). The row and block tables are taken from their second copy. -/
def directLost (c : Chip) (region off source : Nat) : Chip :=
  match region with
  | 10 => (c.markRisk ((List.range 512).map fun i => (off - c.regionBase 10) / 64 * 512 + i)).cnt K.RAS_REGION_REBUILDS
  | 13 => (c.thresholdsLost ((off - c.regionBase 13) / 64)).cnt K.RAS_REGION_REBUILDS
  | 14 => (c.stagedLost off source).cnt K.RAS_REGION_REBUILDS
  | 15 => c.ringEntryLost off
  | 16 => (c.patchLost off source).cnt K.RAS_REGION_REBUILDS
  | 17 => (c.slotLost off).cnt K.RAS_REGION_REBUILDS
  | _ => c.cnt K.RAS_REGION_REBUILDS

/-- The region of R600 in which an offset of the layout lies, from 1. -/
def regionAt (c : Chip) (off : Nat) : Nat := ((List.range 17).filter fun i => decide (c.regionBase (i + 1) ≤ off)).length

/-- An uncorrectable line of a reserved region (R444, R448): an entry with its address and bit 63, and the outcome of its region. -/
def regionLost (c : Chip) (x off source : Nat) : Chip :=
  let c := c.dlo source 0 (if c.regionAt off = 15 then 2 else 4) 0 (x + 2 ^ 63) ((c.place x).location 31)
  if c.regionAt off ≤ 9 then c.mdcLineLost (off / 256) source else c.directLost (c.regionAt off) off source

/-! ## Errors of DRAM (R413, R434, R435, R448) -/

/-- The SOURCE of an entry of the DMC or of the patrol (R454). -/
def lineSource (patrol : Bool) : Nat := if patrol then 2 else 1

/-- An uncorrectable line that the chip itself has read: a line of an extent is held and repaired, one of a reserved region follows R444, and one of a
free frame is stored poisoned (R443, R448). -/
def lineFailed (c : Chip) (x : Nat) (patrol : Bool) : Chip :=
  let c := c.uncorrectableLine x
  match c.dpaAt x, c.layoutOf x with
  | some a, _ => c.wantRepair (lineBase a) (lineSource patrol)
  | none, some o =>
    if o < c.poolRange * 2 ^ 22 then c.regionLost x o (lineSource patrol)
    else (c.dlo (lineSource patrol) 0 2 0x20 0 ((c.place x).location 31)).cnt K.PAT_UE_POISONED (bit patrol)
  | _, _ => c

/-- ADDRESS of an entry for a line of DRAM (R453): its DPA, or the address of a reserved region with bit 63. -/
def lineAddress (c : Chip) (x : Nat) : Nat :=
  match c.dpaAt x with
  | some a => lineBase a
  | none => if (match c.layoutOf x with | some o => decide (o < c.poolRange * 2 ^ 22) | none => false) then x + 2 ^ 63 else 0

/-- A corrected line that the chip itself has read. -/
def lineCorrected (c : Chip) (x : Nat) (bad : BitVec 20) (patrol : Bool) : Chip :=
  let queued := match c.dpaAt x with | some a => c.writeQueued (lineBase a) | none => false
  (c.correctedLine x (c.lineAddress x) bad patrol queued).cnt K.PAT_CE_FOUND (bit patrol)

/-- A line of DRAM, by chip-local address, that the patrol or another client of the chip has read with errors in some devices. One that is miscorrected
is written back so by the patrol (R413, R448). -/
def lineRead (c : Chip) (x : Nat) (bad : BitVec 20) (patrol : Bool) : Chip :=
  match c.decode x bad, c.dpaAt x with
  | (.good, _), _ => c
  | (.corrected, none), _ => c.lineCorrected x bad patrol
  | (.corrected, some l), some a =>
    let d := c.lineCorrected x bad patrol
    if patrol then d.storeFront a l (d.tierLine a).2 else d
  | (.corrected, some _), none => c.lineCorrected x bad patrol
  | (.uncorrectable, _), _ => c.lineFailed x patrol

/-! ## Errors of SRAM (R237, R296, R303, R443, R450, R463) -/

/-- An uncorrectable word of SRAM: counted, with an entry. -/
def sramFails (c : Chip) (source kind location : Nat) : Chip := (c.cnt K.RAS_SRAM_UE).dlo source 0 kind 0 0 location

/-- An error in a spare unit: it is marked FAILED (R450). -/
def spareFault (c : Chip) (n : Nat) : Chip := (c.failSpare n).cnt K.SRS_SPARE_FAULTS

/-- An uncorrectable word of a held line of the Metadata Cache (R443): a clean line is fetched from DRAM again; a dirty one is as an uncorrectable
line of its region. -/
def mdcWordFails (c : Chip) (set way source : Nat) : Chip :=
  let x := c.mdcWay set way
  let c := c.sramFails source (if x.held && x.dirty then 2 else 1) (sramLocation 3 way set)
  if !x.held then c
  else
    let line := c.mdcLineAt set x.tag
    if x.dirty then (c.setMdcWay set way { x with dirty := false }).mdcLineLost line source
    else c.oweBlock .core (c.layoutAddr (line * 256)) 256

/-- A word of a way of the Metadata Cache fails its check (R303, R443, R450). -/
def wayWord (c : Chip) (way set : Nat) (correctable scrub : Bool) : Chip :=
  let source := if scrub then 5 else 4
  if c.spareWays.contains way || (decide (way ≥ 16) && c.cbl.failedSpares.testBit (way - 16)) then
    (if scrub then c.spareFault (way - 16) else c)
  else if !(c.get F.MDC_WAYS_ENABLED).testBit way then c
  else if correctable then
    (c.put (F.MDC_WAY_CE way) (min 65535 (c.get (F.MDC_WAY_CE way) + 1))).cnt K.SRS_MDC_CE (bit scrub)
  else c.mdcWordFails set way source

/-- A word of a directory bank fails its check, in the entry of a line (R237, R450, R460, R463). -/
def bankWord (c : Chip) (bank line : Nat) (correctable scrub : Bool) : Chip :=
  if bank = 16 && c.cbl.retiredBanks.isEmpty then (if scrub then c.spareFault 8 else c)
  else if bank ≠ 16 && c.cbl.retiredBanks.contains bank then c
  else if correctable then
    let n := c.cbl.bankCe.get (fun _ => 0) bank + 1
    let c := { c with cbl := { c.cbl with bankCe := c.cbl.bankCe.set (fun _ => 0) bank n } }.cnt K.SRS_DIR_CE (bit scrub)
    if n = c.cfg F.CBL_CBL_CFG_BANK_CE_LIMIT then c.replaceBank bank else c
  else
    let mine := (c.che.sram.get (fun _ => {}) (line / 64)).state ≠ 0 && c.dirSet (lineBase line) % 16 == c.setsOfBank bank
    let c := c.cnt K.RAS_SRAM_UE
    (if mine then c.entryFails (lineBase line) else c).replaceBank bank

/-- A byte of write data in a receive queue fails its check (R139, R443): it is treated as a byte of the WMB; the carbon's copy of the write gives it
where the twin has every write. -/
def queueWord (c : Chip) (h : Fin 24) (pos : Nat) (correctable : Bool) : Chip :=
  if !((c.head h).rwdQ.any fun r => r.pos.code == pos) then c
  else if correctable then c.cnt K.WMB_CORRECTED_BYTES
  else if c.twinHasCopy then c.cnt K.WMB_REPAIRED
  else
    let poison (r : Request) : Request := if r.pos.code = pos then { r with poison := true } else r
    (((c.mapHead h fun x => { x with rwdQ := x.rwdQ.map poison }).cnt K.WMB_UNCORRECTED).raise F.WMB_EV_UNCORRECTABLE).dlo 0x03 0 2 0x20 0 0

/-- Control state of Sorter, WMB or twin engine fails its check (R443): the chip fail-stops. From the commit of a save until SEALED it is logged, and the
line of a WMB entry is saved as REPAIR_DUE (R399). -/
def controlFails (c : Chip) (line : Option Nat) : Chip :=
  let c := c.sramFails 7 2 (sramLocation 6 0 0)
  if !c.saveActive then c.failStop false
  else match line with
    | some l => if c.wmb.any fun x => x.1 == l then { c with trm := { c.trm with repairDue := insertN c.trm.repairDue (l * 64) } } else c
    | none => c

/-- An uncorrectable error in a core's own state: Cobbler retires the core (R464). -/
def coreLost (c : Chip) (n : Nat) : Chip := if (c.core n).running then c.retireCore n else c

/-- A word of eflash is read with errors (R442, R443): corrected, or a bus error to the core that loads or fetches it. -/
def flashWord (c : Chip) (word : Nat) (reader : Option (Fin 8 × Bool)) (correctable : Bool) : Chip :=
  if correctable then c.cnt K.EFC_CORRECTED_WORDS
  else
    let c := ((c.cnt K.EFC_UNCORRECTABLE_WORDS).raise F.EFC_EV_UNCORRECTABLE).dlo 0x10 0 2 0 0 (sramLocation 10 (word / 262144) word)
    match reader with
    | some x => if (c.core x.1.val).running then c.coreTrap x.1.val (if x.2 then 1 else 5) else c
    | none => c

/-- A word of an SRAM fails its check, as the scrubber or an access finds it. -/
def sramWord (c : Chip) (u : SramUnit) (correctable scrub : Bool) : Chip :=
  match u with
  | .mdcWay way set => c.wayWord way.val set.val correctable scrub
  | .dirBank bank line => c.bankWord bank.val line correctable scrub
  | .translation _ e => (c.tcInvalidate e).cnt K.RAS_TC_PARITY
  | .queueByte h pos _ => c.queueWord h pos correctable
  | .response => if correctable then c else c.sramFails 7 1 (sramLocation 6 0 0)
  | .core n => if correctable then c else (c.sramFails 0x11 2 (sramLocation 9 (c.core n.val).phys 0)).coreLost n.val
  | .eflash word reader => c.flashWord word.val reader correctable
  | .control line => if correctable then c else c.controlFails line


/-! ## A Round's findings -/

/-- One finding of a Round. -/
def find (c : Chip) (x : Finding) : Chip :=
  match x with
  | .counted page slot n => if measuredCounts.contains ⟨page, slot⟩ && c.countsNow ⟨page, slot⟩ then c.cnt ⟨page, slot⟩ n else c
  | .longest page slot ns => if measuredMaxima.contains ⟨page, slot⟩ then c.peak ⟨page, slot⟩ ns else c
  | .reading page off lo v => c.reads page off lo v
  | .completion h ns => c.completionTook h ns
  | .wmbByte line byte ok => c.wmbByte (lineBase line) (byte % 64) ok
  | .dramLine x bad patrol => c.lineRead (x / 64 * 64) bad patrol
  | .sram u ok scrub => c.sramWord u ok scrub
  | .scrubRead p x worst => c.scrubbed p x worst

/-- Everything a Round found. -/
def findAll (c : Chip) (xs : List Finding) : Chip := xs.foldl find c

/-! ## What has been lost comes back (R444, R445) -/

/-- Sets of the patch index whose rebuild has ended: reads that waited go on. -/
def indexRound (c : Chip) : Chip :=
  if !c.trm.indexLost.any fun x => decide (x.2 ≤ c.round) then c
  else
    let c := { c with trm := { c.trm with indexLost := c.trm.indexLost.filter fun x => decide (c.round < x.2) } }
    c.continueTags (fun t => at' t .indexWait) serveRead

/-- The content of an extent, as the twin has it, fills a new frame; none where no frame is free. -/
def refillExtent (c : Chip) (twin : Chip) (e : Nat) : Chip :=
  let c := if (c.frameOf e).isSome then c else c.takeFrame e
  if (c.frameOf e).isNone then c
  else
    let v := twin.viewOf e
    let c := ((c.placeFront e (Table.setAll zeroByte [] v.1) v.2).oweExtent e)
    { c with trm := { c.trm with refetch := dropN c.trm.refetch e } }

/-- The logical content of a parcel, as the twin has it, is written as a new packed copy; it waits where staging is full. -/
def refillParcel (c : Chip) (twin : Chip) (p : Nat) : Chip :=
  let v := twin.viewOf (p / 32)
  match c.writeCopy p sHOST (Table.setAll zeroByte [] v.1) (v.2.filter fun l => parcelOf l == p) with
  | none => c
  | some c =>
    let c := c.dropPatch p (c.patchOf p)
    { c with trm := { c.trm with refetchParcels := dropN c.trm.refetchParcels p } }

/-- What is to be fetched comes from the twin where it holds every write; where it no longer does, the content is lost (R445). -/
def fetchLost (c : Chip) (twin : Chip) : Chip :=
  if c.trm.refetch.isEmpty && c.trm.refetchParcels.isEmpty then c
  else if c.twinHasCopy then
    let c := c.trm.refetch.foldl (fun c e => c.refillExtent twin e) c
    let c := c.trm.refetchParcels.foldl (fun c p => c.refillParcel twin p) c
    c.continueTags (fun t => at' t .indexWait) serveRead
  else
    let es := (c.trm.refetch ++ c.trm.refetchParcels.map fun p => p / 32).eraseDups
    let c := { c with trm := { c.trm with refetch := [], refetchParcels := [] } }
    (es.foldl (fun c e => c.loseExtent 1 e) c).continueTags (fun t => at' t .indexWait) serveRead

end Chip

end Sys2Proof.Machine
end

