-- ==== Sys2Proof/Machine/Rounds.lean ====
section
/-! DEFINITION. The Round and the Delivery (R20 to R38): alignment, the fixed work of a Round, the budgeted jobs and their scheduler, and what
ends with a Delivery. -/
namespace Sys2Proof.Machine

namespace Chip

/-! ## Alignment (R22, R23) -/

/-- The Round that begins has the length that the Round before it called for (R20, R22); one of 399 or 401 periods counts. -/
def roundLength (c : Chip) : Chip :=
  let n := c.clk.nextLen
  let c := { c with clk := { c.clk with roundLen := n, nextLen := 400 } }
  if n = 400 then c else c.cnt K.CLK_ALIGN_CORRECTIONS

/-- What the follower does about the offset it measured, in ns, positive where its boundary is late: beyond 10 ns its next Round has 399 or
401 periods; beyond 20 ns it raises ALIGN_FAULT and reads FAULT, from ALIGNED alone and until within 10 ns. A chip that is aligning raises
none (log 92) and has reached ALIGNED once its Round is the keeper's and its offset within 10 ns. -/
def alignRound (c : Chip) (off : Int) : Chip :=
  let st := c.get F.CLK_ALIGN_STATE_STATE
  let c := c.roundLength
  if st = 0 ∨ c.is F.CLK_ALIGN_STATE_KEEPER ∨ !c.linkUp then c
  else
    let a := off.natAbs
    let c := c.putInt F.CLK_ALIGN_OFFSET_NS off
    let c := if a > 10 then { c with clk := { c.clk with nextLen := if off > 0 then 399 else 401 } } else c
    let met := match c.twe.peerFrame with | some f => f.round == c.round || f.round + 1 == c.round | none => false
    if (st = 2 ∨ st = 3) ∧ a > 20 then (c.put F.CLK_ALIGN_STATE_STATE 3).raise F.CLK_EV_ALIGN_FAULT
    else if (st = 3 ∨ (st = 1 ∧ met = true)) ∧ a ≤ 10 then c.put F.CLK_ALIGN_STATE_STATE 2
    else c

/-! ## The jobs (R26, R34) -/

/-- The write tokens of a head after one Round's refill (R140, R388, R389): up to the depth; in THROTTLE and OVER its share of the lines that the
governor allows, one Round's refill deep. -/
def writeRefill (rate depth waiting : Nat) (waits : Bool) (tokens : Nat) (throttle : Option Nat) : Nat :=
  match throttle with
  | some lines =>
    let n := if waits then lines / max 1 waiting else 0
    if rate = 0 then n else min n rate
  | none => min (rate * depth) (tokens + rate)

/-- The QoS refill of a head (R140, R389): the tokens of the Rounds that were missed, each with the throttle of its own Round, and of this one. -/
def refillHead (c : Chip) (rounds : List (Option Nat)) (waiting : List (Fin 24)) (h : Fin 24) : Chip :=
  let rd := c.cfg (F.SRT_HEAD_RD_RATE h.val)
  let wr := c.cfg (F.SRT_HEAD_WR_RATE h.val)
  c.mapHead h fun x => { x with
    rdTokens := min (rd * c.cfg (F.SRT_HEAD_RD_DEPTH h.val)) (x.rdTokens + rounds.length * rd)
    wrTokens := rounds.foldl (writeRefill wr (c.cfg (F.SRT_HEAD_WR_DEPTH h.val)) waiting.length (waiting.contains h)) x.wrTokens }

/-- The QoS refill job: the heads that the chip homes (R141) and the clients of its DRAM channels (R432); Rounds that it missed are made up (R34). -/
def refillJob (c : Chip) : Chip :=
  let homed := allHeads.filter fun h => c.isHome (portOf h)
  let waiting := homed.filter fun h => !(c.head h).rwdQ.isEmpty
  let rounds := c.svc.missedLines ++ [c.svc.throttle]
  let c := { c with svc := { c.svc with missedLines := [] } }.refillChannels rounds.length
  homed.foldl (fun c h => c.refillHead rounds waiting h) c

/-- How soon GC takes a closed row: valid cells × (2 − age fraction), in units of 1 ÷ AGE_DAYS (R360). -/
def gcScore (c : Chip) (y : MdeRow) : Nat :=
  let full := max 1 (c.cfg F.BKG_RESOLE_CFG_AGE_DAYS) * 24 * hourRounds
  y.valid * (2 * full - min full (c.round - y.closeRound))

/-- The rows that background work may take: closed, outside the Insole and the metadata area, with a copy that is not on its way already. -/
def workRows (c : Chip) : List (Nat × MdeRow) :=
  c.mde.rows.filter fun x => x.2.state == 2 && decide (c.insoleRows + c.metaRows ≤ x.1) && !(c.parcelsIn x.1).isEmpty

/-- The best of some rows by a measure, the lowest first. -/
def leastRow (f : Nat × MdeRow → Nat) (l : List (Nat × MdeRow)) : Option Nat :=
  (l.foldl (fun (a : Option (Nat × MdeRow)) x => match a with
    | some y => if f x < f y then some x else a
    | none => some x) none).map fun x => x.1

/-- The row that wear levelling takes (R362): the one that closed first at a position where an erase count exceeds the mean by WL_DELTA. -/
def wearVictim (c : Chip) : Option Nat :=
  let e := c.eraseSum false
  let mean := e.1 / max 1 e.2
  let worn := c.mde.erases.filter fun (x : Nat × Nat) => decide (c.insoleRows ≤ x.1) && decide (x.2 > mean + c.cfg F.BKG_WL_DELTA)
  leastRow (fun x => x.2.closeRound) (c.workRows.filter fun x => worn.any fun y => c.posOf y.1 == c.posOf x.1)

/-- The GC job (R360, R362): below HIGH_PCT one victim row a Round (DESIGN CHOICE), of wear levelling first. -/
def gcJob (c : Chip) : Chip :=
  if !c.mde.formatted || decide (c.freePct ≥ c.cfg F.BKG_GC_CFG_HIGH_PCT) then c
  else match c.wearVictim with
    | some r => (c.moveRow r sGC 4).cnt K.BKG_WL_MOVES
    | none =>
      match leastRow (fun x => c.gcScore x.2) c.workRows with
      | some r => c.moveRow r sGC 1
      | none => c

/-- The media scrub walk of a Round (R361): the rows it passes, so that every row is passed once in PASS_DAYS. -/
def scrubWalk (c : Chip) : Chip :=
  let pass := max 1 (c.cfg F.BKG_SCRUB_CFG_PASS_DAYS) * 24 * hourRounds
  let pos := c.round % pass * c.rowsTotal / pass
  let n := pos - c.mde.scrubPos
  let closed := ((List.range n).filter fun i => (c.row (c.mde.scrubPos + i)).state == 2).length
  { c with mde := { c.mde with scrubPos := pos } }.cnt K.BKG_SCRUB_ROWS closed

/-- The class under which Resole relocates a row (R361): as queued, else 4 for a row older than AGE_DAYS, else none. -/
def resoleClass (c : Chip) (y : MdeRow) : Option Nat :=
  if y.queued ≠ 0 then some y.queued
  else if decide (c.round - y.closeRound > c.cfg F.BKG_RESOLE_CFG_AGE_DAYS * 24 * hourRounds) then some 4 else none

/-- The Resole job (R361): the walk, and one row a Round (DESIGN CHOICE) in the order of the classes, the lowest row first within one. -/
def resoleJob (c : Chip) : Chip :=
  if !c.mde.formatted then c
  else
    let c := c.scrubWalk
    match leastRow (fun x => (c.resoleClass x.2).getD 5) (c.workRows.filter fun x => (c.resoleClass x.2).isSome) with
    | some r => c.moveRow r sRESOLE 2
    | none => c

/-- The page that a job belongs to (R26). -/
def jobPage (j : Nat) : Nat := ([0x0D0, 0x050, 0x0B0, 0x0A0, 0x384, 0x384, 0x0E1] : List Nat).getD (j - 1) 0x000

/-- Whether a job has work in a Round: its page runs, and no save has stopped background work (R395). -/
def jobOn (c : Chip) (j : Nat) : Bool := (c.running (jobPage j) || (j == 7 && c.running 0x0E2)) && (decide (j ≤ 2) || !c.saveActive)

/-- What a job does in the Round in which it finishes its work (R34). -/
def jobEffect (c : Chip) (j : Nat) : Chip :=
  if !c.jobOn j then c
  else match j with
    | 1 => c.governJob
    | 2 => c.refillJob
    | 3 => c.routeJob
    | 4 => c.migJob
    | 5 => c.gcJob
    | 6 => c.resoleJob
    | _ => c.scrubJob

/-! ## The scheduler (R25 to R33) -/

/-- The budget of a job in ns. -/
def budget (c : Chip) (j : Nat) : Nat :=
  c.cfg (([F.CLK_BUDGET_GOV_NS, F.CLK_BUDGET_QOS_NS, F.CLK_BUDGET_ROUTE_NS, F.CLK_BUDGET_MIG_NS, F.CLK_BUDGET_GC_NS,
    F.CLK_BUDGET_RESOLE_NS, F.CLK_BUDGET_SCRUB_NS] : List Fld).getD (j - 1) F.CLK_BUDGET_GOV_NS)

/-- The work a job still has in this Round, in ns. -/
def needOf (c : Chip) (j : Nat) : Nat := c.clk.sched.need.getD (j - 1) 0

/-- The allowance of a job: its budget and the slack. -/
def allowance (c : Chip) (j : Nat) : Int := (c.budget j : Int) + c.clk.sched.slack

/-- The chip with its scheduler replaced. -/
def setSched (c : Chip) (x : Sched) : Chip := { c with clk := { c.clk with sched := x } }

/-- A job stops or has ended, after some ns: what is left of its work is deferred (R29, R31); where none is left its effect takes place: the steps
of a job that defers take effect with the last of them (DESIGN CHOICE, log 118). -/
def jobEnds (c : Chip) (j used : Nat) : Chip :=
  let x := c.clk.sched
  let left := c.needOf j - used
  let c := c.setSched { x with
    now := x.now + used
    slack := x.slack + c.budget j - used
    running := none
    need := x.need.set (j - 1) left
    deferred := if left = 0 then x.deferred else x.deferred ++ [j] }
  if left = 0 then c.jobEffect j else c

/-- The scheduler goes on through the jobs that are left (R29 to R31): a job with nothing to do ends at once, one without an allowance does not
start and one that is off does not run, one that ends in time ends; one that will meet its allowance or the end mark runs until that is
reported. -/
def runJobs : Nat → Chip → Chip
  | 0, c => c
  | n + 1, c =>
    let x := c.clk.sched
    match x.left with
    | [] => c
    | j :: rest =>
      let need := c.needOf j
      let allow := c.allowance j
      if x.now ≥ 3800 then c
      else
        let c := c.setSched { x with left := rest }
        if need = 0 ∨ allow ≤ 0 ∨ !c.jobOn j then runJobs n (c.jobEnds j 0)
        else if (need : Int) > allow ∨ x.now + need > 3800 then c.setSched { x with left := rest, running := some j }
        else runJobs n (c.jobEnds j need)

/-- Whether the job that runs will meet its allowance at or before the end mark. -/
def meetsAllowance (c : Chip) (j : Nat) : Bool :=
  decide ((c.needOf j : Int) > c.allowance j) && decide ((c.clk.sched.now : Int) + c.allowance j ≤ 3800)

/-- The job that runs stops at the first safe point, `over` ns after its allowance (R29). -/
def stopAtAllowance (c : Chip) (late : Nat) : Chip :=
  match c.clk.sched.running with
  | some j => if c.meetsAllowance j then runJobs 7 (c.jobEnds j (min (c.needOf j) ((c.allowance j).toNat + late))) else c
  | none => c

/-- The job that runs stops at the first safe point, `over` ns after the end mark (R30). -/
def stopAtEnd (c : Chip) (late : Nat) : Chip :=
  match c.clk.sched.running with
  | some j => if c.meetsAllowance j then c else c.jobEnds j (min (c.needOf j) (3800 - c.clk.sched.now + late))
  | none => c

/-- The Round's jobs have ended (R31, R32): jobs that did not start defer all their work; the backlogs, the deferrals, their runs and the end of
the last job are recorded. -/
def closeRound (c : Chip) : Chip :=
  let c := (c.stopAtAllowance 0).stopAtEnd 0
  let x := c.clk.sched
  if x.now = 4000 then c
  else
    let late := x.deferred ++ x.left.filter fun j => c.needOf j != 0
    let c := (List.range 7).foldl (fun c i => c.put (F.CLK_BACKLOG_NS (i + 1)) (x.need.getD i 0)) c
    let c := late.foldl (fun c j => c.cnt (K.CLK_DEFER j)) c
    let c := if late.isEmpty then c else (c.cnt K.CLK_OVERRUN_ROUNDS).raise F.CLK_EV_ROUND_OVERRUN
    let c := c.peak K.CLK_MAX_END_NS x.now
    let c := if late.contains 2 then { c with svc := { c.svc with missedLines := c.svc.missedLines ++ [c.svc.throttle] } } else c
    { c with clk := { c.clk with
      endNs := x.now
      streak := (List.range 7).map fun i => if late.contains (i + 1) then c.clk.streak.getD i 0 + 1 else 0
      sched := { now := 4000, need := x.need } } }

/-- The jobs of a Round begin after the frame slot (R25), in run order, a promoted job directly after the governor (R33); each has the work it
carried and, where it is on, its new quantum. They need the CLK Round page RUNNING. -/
def startJobs (c : Chip) (quantum : List Nat) : Chip :=
  let p := c.clk.promote
  let c := c.put F.CLK_PROMOTED_JOB (p.getD 0)
  let order := match p with
    | some j => 1 :: j :: ([2, 3, 4, 5, 6, 7] : List Nat).filter fun i => i != j
    | none => [1, 2, 3, 4, 5, 6, 7]
  let need := (List.range 7).map fun i => c.get (F.CLK_BACKLOG_NS (i + 1)) + (if c.jobOn (i + 1) then quantum.getD i 0 else 0)
  let c := { c with clk := { c.clk with promote := none } }
  if c.running 0x000 then runJobs 7 (c.setSched { now := 240, slack := 0, left := order, need }) else c

/-- The job that qualifies for promotion (R33): the longest run of deferrals at STARVE_LIMIT or more, the earlier job on a tie. -/
def starved (c : Chip) : Option Nat :=
  let limit := c.cfg F.CLK_ROUND_CFG_STARVE_LIMIT
  let ok := ([2, 3, 4, 5, 6, 7] : List Nat).filter fun j => decide (c.clk.streak.getD (j - 1) 0 ≥ limit)
  ok.foldl (fun (a : Option Nat) j => match a with
    | some i => if c.clk.streak.getD (j - 1) 0 > c.clk.streak.getD (i - 1) 0 then some j else a
    | none => some j) none

/-! ## The fixed work of a Round -/

/-- Keys of the Coxia Link are changed well before a direction has sent 2^32 envelopes (R172), two Rounds after both agree. -/
def rekeyRound (c : Chip) : Chip :=
  if c.link.count ≥ 2 ^ 31 ∧ c.link.rekeyAt = none then
    ({ c with link := { c.link with rekeyAt := some (c.round + 2) } }).send (.rekeyAsk (c.round + 2))
  else c

/-- Closed rows that hold nothing any more and no read in progress uses (R363). -/
def emptyRows (c : Chip) : List (Nat × MdeRow) :=
  c.mde.rows.filter fun (x : Nat × MdeRow) => x.2.state == 2 && x.2.valid == 0 && decide (c.insoleRows + c.metaRows ≤ x.1) &&
    !(c.mde.staged.any fun y => y.row == x.1) && !c.mde.direct.any fun y => c.rowOfLoc y.2 == x.1

/-- A row that holds nothing waits for its erase; it counts where GC or Resole has freed it, and the blocks of a wear-levelling victim go to the
GC stream next (R360 to R362). -/
def freeRow (c : Chip) (x : Nat × MdeRow) : Chip :=
  let c := c.setRow x.1 { x.2 with state := 3, todo := x.2.live, queued := 0, victim := 0 }
  match x.2.victim with
  | 1 => c.cnt K.BKG_GC_ROWS
  | 2 => c.cnt K.BKG_RESOLE_ROWS
  | 4 => { c with mde := { c.mde with worn := insertN c.mde.worn x.1 } }.cnt K.BKG_GC_ROWS
  | _ => c

/-- Free rows as the Round finds them (R357): the events as FREE_PCT falls, the Rounds in which the HOST stream is held, and closed rows that
hold nothing any more, which wait for their erase once no relocated copy is still staged (R363). The words of FREE_PCT and BUSY_HIGH_ACTIVE
hold what the Round before found. -/
def rowsRound (c : Chip) : Chip :=
  if !c.mde.formatted then c
  else
    let pct := c.freePct
    let was := c.get F.LAST_FREE_PCT
    let moving := c.mde.staged.any fun x => (c.row x.row).stream == sGC || (c.row x.row).stream == sRESOLE
    let c := if moving then c else c.emptyRows.foldl freeRow c
    let fell (limit : Nat) : Bool := decide (pct < limit) && decide (was ≥ limit)
    let c := if fell (c.cfg F.BKG_GC_CFG_LOW_PCT) then c.raise F.BKG_EV_GC_URGENT else c
    let c := if fell (c.cfg F.BKG_GC_CFG_CRIT_PCT + 1) then c.raise F.MDE_EV_WRITE_STALL else c
    let c := if pct ≤ c.cfg F.BKG_GC_CFG_CRIT_PCT then c.cnt K.MDE_WRITE_STALL_ROUNDS else c
    let c := if c.urgent && !c.is F.MDE_BUSY_HIGH_ACTIVE then c.raise F.MDE_EV_URGENT else c
    ((c.put F.LAST_FREE_PCT pct).put F.MDE_BUSY_HIGH_ACTIVE (bit c.urgent)).startOps

/-- The parcel to merge (R287, R358, R388): one is due while patch blocks run low or the governor is in URGENT, THROTTLE or OVER, outside a
save; the one with the most patch lines. -/
def mergeBest (c : Chip) : Option Nat :=
  let st := c.get F.GOV_GOV_STATE
  if !(c.patchLow || (decide (2 ≤ st) && decide (st ≤ 4))) || c.saveActive then none
  else
    let ps := (c.trm.patchLines.foldl (fun l a => insertN l (parcelOf a)) []).filter fun p => (c.ext (p / 32)).state == 1 && !c.mde.merges.contains p
    ps.foldl (fun (a : Option Nat) p => match a with
      | some q => if (c.patchOf p).length > (c.patchOf q).length then some p else a
      | none => some p) none

/-- Merges that need no read are written, or wait for room (R358). -/
def mergesNow (c : Chip) : Chip := (c.mde.merges.filter c.mergesAtOnce).foldl (fun c p => c.mergeRead p) c

/-- Merges are urged one parcel a Round (DESIGN CHOICE). -/
def mergeRound (c : Chip) : Chip :=
  (match c.mergeBest with
   | some p => c.queueMerge p
   | none => c).mergesNow

/-- What the Round finds of the hold-up level and the budget (R384, R387). -/
def holdupRound (c : Chip) (x : RoundInputs) : Chip := (c.sampleHoldup x.holdup.val).overNow

/-- Commands that wait for the Round to end. -/
def endsRound (c : Chip) : Chip := ((c.retireJobs.ranksLeave).rangeChecks).ringRound

/-- The Spare Ledger, the sensors, the eviction buffer and the accesses to DRAM that wait for tokens. -/
def boardRound (c : Chip) (x : RoundInputs) : Chip := ((c.ledgerRound.thermalRound x.sensors).evbDrain 64).settleChannels

/-- The journal, the resync, the seal summary and the scrubbers' pace. -/
def pairRound (c : Chip) : Chip := ((c.journalRound.resyncRound).sendSummary).scrubDue

/-- The rows of the media, the merges, the lines that wait for repair, the link's keys, the writes that wait to be bridged and the reads that no answer
reaches. -/
def mediaRound (c : Chip) : Chip :=
  let c := c.rowsRound.mergeRound
  ((((pumpRepairs c.twe.repairQ.length c).indexRound).rekeyRound).bridgeRound).lateReads

/-- The blocks' own work of a Round, outside the jobs. -/
def blockRound (c : Chip) (x : RoundInputs) : Chip := ((((c.holdupRound x).endsRound).boardRound x).pairRound).mediaRound

/-- What a Round brings the links of the heads that a chip is home of: credits not yet returned go back (R112), the age of their histories is
recorded (R109). A carbon's receivers have locked on what they acquire (R102). -/
def linkRound (c : Chip) : Chip :=
  (allHeads.foldl (fun c h =>
    if !c.isHome (portOf h) then c
    else ((c.raiseHist h).returnCredits h).peak (K.HIST_WM_LAG_MAX (portOf h).val (linkPos h)) (c.wmLag (c.head h))) c).lockAcquiring

/-- A Round begins (R20, R21, R25). -/
def beginRound (c : Chip) (x : RoundInputs) : Chip :=
  let c := c.closeRound.dloFlush
  let c := c.put F.CLK_LAST_END_NS c.clk.endNs
  let c := { c with clk := { c.clk with round := (c.round + 1) % 2 ^ 48, deliveryRound := c.clk.deliveryRound + 1 } }
  let c := ((c.cnt K.CLK_ROUNDS_COUNTED).alignRound x.offset).pulse 0x3E0
  ((((c.sendFrame).linkRound).findAll x.findings).blockRound x).startJobs x.quantum

/-! ## The Delivery (R35 to R38) -/

/-- A DELIVERY_N that both twins have reported, or the chip's own while it reads SOLO, is in force from the next Delivery (R36). -/
def newDeliveryN (c : Chip) : Chip :=
  let n := c.cfg F.CLK_DELIVERY_CFG_DELIVERY_N
  if n ≠ c.clk.deliveryN ∧ (c.get F.CLK_ALIGN_STATE_STATE = 0 ∨ (c.clk.sentDeliveryN = some n ∧ c.clk.peerDeliveryN = some n)) then
    { c with clk := { c.clk with deliveryN := n } }.raise F.CLK_EV_DELIVERY_N_APPLIED
  else c

/-- Lanes that corrected too much in the Delivery: Coxia lanes above SPARE_THRESH are replaced (R167); a host lane above HOST_LANE_LIMIT in 8
Deliveries running is excluded through the pair alias (R460, R464). -/
def laneDelivery (c : Chip) : Chip :=
  let worn := (List.range 18).filter fun l => decide (c.latched (K.CXLANE_SYM_CORR l) > c.cfg F.CXK_SPARE_THRESH) && c.is (F.CXLANE_LANE_IN_USE l)
  let hosts := (List.range 96).map fun i => (i, decide (c.latched (K.LANE_HOST_SYM_ERR (i / 16) (i % 16)) > c.cfg F.CBL_CBL_CFG_HOST_LANE_LIMIT))
  let runs (i : Nat) (hit : Bool) : Nat := if hit then c.cbl.laneOver.get (fun _ => 0) i + 1 else 0
  let c' := { c with cbl := { c.cbl with
    laneOver := hosts.foldl (fun (t : Table Nat) (x : Nat × Bool) => t.set (fun _ => 0) x.1 (runs x.1 x.2)) c.cbl.laneOver } }
  let off := (hosts.filter fun (x : Nat × Bool) => runs x.1 x.2 == 8).map fun x => x.1
  let c' := off.foldl (fun (c : Chip) i =>
    let p := i / 16
    let m := c.cfg (F.HP_SPARE_MAP_LANE_OFF p) ||| 2 ^ (i % 16)
    let gone := c.cbl.hostLanesOff.get (fun _ => 0) p ||| 2 ^ (i % 16)
    let c := { c with cbl := { c.cbl with hostLanesOff := c.cbl.hostLanesOff.set (fun _ => 0) p gone } }
    (c.drew 11 i false).acceptAlias (.coreM 0)
      ⟨(F.HP_SPARE_MAP_LANE_OFF p).page, (F.HP_SPARE_MAP_LANE_OFF p).off, 4, BitVec.ofNat 64 (m * 2 ^ (F.HP_SPARE_MAP_LANE_OFF p).lo)⟩) c'
  worn.foldl replaceLane c'

/-- Ranks whose worst read eye is below MARGIN_MIN are due a retrain (R425); one goes out of service where no rank of the chip is (R426). -/
def retrainDelivery (c : Chip) : Chip :=
  (List.range 16).foldl (fun (c : Chip) d =>
    if !((c.chan d).trained && c.cfgOn (F.DTR_RETRAIN_CFG_EN d)) then c
    else
      let weak := (List.range 16).filter fun r => c.rankServes d r && decide (c.get (F.DTR_TRAIN_RD_EYE d r) < c.cfg (F.DTR_RETRAIN_CFG_MARGIN_MIN d))
      let c := c.mapChan d fun y => { y with retrainDue := weak.foldl insertN y.retrainDue }
      match (c.chan d).retrainDue with
      | r :: _ =>
        if c.ranksOut.isEmpty && c.pprMay then (c.meetChannel d).rankOut d r else c
      | [] => c) c

/-- A Metadata Cache way with too many corrected errors takes no further fills and is disabled (R303); the counts begin afresh. -/
def wayDelivery (c : Chip) : Chip :=
  let limit := c.cfg F.MDC_MDC_CFG_WAY_CE_LIMIT
  let bad := (List.range 18).filter fun v => limit != 0 && decide (c.get (F.MDC_WAY_CE v) ≥ limit) && (c.get F.MDC_WAYS_ENABLED).testBit v
  let c := { c with mdc := { c.mdc with disabling := bad.foldl insertN c.mdc.disabling } }
  (List.range 18).foldl (fun c v => c.put (F.MDC_WAY_CE v) 0) c

/-- What counts per Delivery begins afresh: log entries of corrected rows (R435), device counts, hits of AUTO (R291), notes of unmapped accesses
(R78), uncorrectable codewords per block. -/
def freshDelivery (c : Chip) : Chip :=
  let c := (List.range 16).foldl (fun (c : Chip) d =>
    let c := if (c.chan d).loggedRows.isEmpty then c else c.mapChan d fun y => { y with loggedRows := [] }
    (List.range 32).foldl (fun c j => if c.get (F.DCH_DEV_CE d j) = 0 then c else c.put (F.DCH_DEV_CE d j) 0) c) c
  let c := allHeads.foldl (fun (c : Chip) h =>
    if (c.head h).unmappedNoted then c.mapHead h fun x => { x with unmappedNoted := false } else c) c
  { c with
    trm := { c.trm with hits := [] }
    cbl := { c.cbl with bankCe := [] }
    mde := { c.mde with ueBlocks := [] } }

/-- RATING.WRITE_OK (R366, R467): the mean host-derived payload a day over the Deliveries held, against the write budget. -/
def ratingDelivery (c : Chip) : Chip :=
  let n := c.mde.wafHistory.length
  let sum := (c.mde.wafHistory.map fun x => x.2).sum
  c.put F.CBL_RATING_WRITE_OK (bit (decide (sum * 24 * hourRounds ≤ c.writeBudget * n * c.clk.deliveryN)))

/-- The latch (R37): every counter is copied into its snapshot, stamped with the number of the Delivery that ends, and begins at 0. -/
def latch (c : Chip) : Chip :=
  { c with
    snap := c.live
    live := []
    snapDelivery := c.clk.deliveryNo
    clk := { c.clk with deliveryNo := (c.clk.deliveryNo + 1) % 2 ^ 32, deliveryRound := 0 } }

/-- A Delivery ends (R35 to R37), with what the blocks do then; `us` is the program time that the probe of R386 measures. -/
def endDelivery (c : Chip) (us : Nat) : Chip :=
  let c := c.closeRound
  let c := { c with mde := { c.mde with
    wafHistory := ((c.count K.WEAR_MEDIA_DATA_BYTES, c.count K.WEAR_HOST_DERIVED_BYTES) :: c.mde.wafHistory).take 1024 } }
  let c := ((c.latch.laneDelivery.newDeliveryN).pulse 0x3E1).thermalDelivery
  let c := { c with cbl := { c.cbl with windowLeft := c.cbl.windowLeft - 1 } }
  let c := ((c.probe us).rateDelivery).clearRisk
  let c := ((c.updateThresholds).retrainDelivery).wayDelivery
  ((c.freshDelivery.showEol).ratingDelivery).speakerDelivery

end Chip

open Chip

/-! ## The commands -/

/-- ROUND_BOUNDARY (R20). -/
def execRoundBoundary (w : Twin) (x : RoundInputs) (s : State) : Host.Outcome State Fault Refusal :=
  .next (s.onUp w fun c => (c.beginRound x).fetchLost (s.chip w.other))

/-- DELIVERY_BOUNDARY (R35): DELIVERY_N Rounds have begun and passed. -/
def execDeliveryBoundary (w : Twin) (s : State) : Host.Outcome State Fault Refusal :=
  if (s.chip w).clk.deliveryRound < (s.chip w).clk.deliveryN then .next s
  else
    let x := s.nextFree
    .next (x.2.onUp w fun c => c.endDelivery (Config.probeUs x.1).toNat)

/-- JOB_ALLOWANCE_REACHED (R29): the job stops at its next safe point, `over` ns on, and the jobs after it go on. -/
def execJobAllowanceReached (w : Twin) (late : Fin 41) (s : State) : Host.Outcome State Fault Refusal :=
  .next (s.onUp w fun c => c.stopAtAllowance late.val)

/-- END_MARK (R30): the job that runs stops at its next safe point, and jobs not yet started defer. -/
def execEndMark (w : Twin) (late : Fin 41) (s : State) : Host.Outcome State Fault Refusal :=
  .next (s.onUp w fun c => (c.stopAtEnd late.val).closeRound)

/-- Whether a job of this Round runs or is still to run. -/
def Chip.jobsGoOn (c : Chip) : Bool := c.clk.sched.running.isSome || !c.clk.sched.left.isEmpty

/-- The job that the next Round promotes is chosen once this Round's jobs are done (R33): at most one for each Round. -/
def Chip.promoteStarved (c : Chip) : Chip :=
  if c.jobsGoOn || c.clk.promote.isSome then c
  else
    let c := c.closeRound
    match c.starved with
    | some j => ({ c with clk := { c.clk with promote := some j } }.cnt K.CLK_PROMOTIONS).raise F.CLK_EV_STARVE_PROMOTE
    | none => c

/-- STARVE_PROMOTE (R33). -/
def execStarvePromote (w : Twin) (s : State) : Host.Outcome State Fault Refusal :=
  .next (s.onUp w fun c => c.promoteStarved)

end Sys2Proof.Machine
end

