-- ==== Sys2Proof/Machine/Dispatch.lean ====
section
/-! DEFINITION. The dispatch: one arm for each command, each a direct call of its meaning. -/
namespace Sys2Proof.Machine

def exec (i : Instr) (s : State) : Host.Outcome State Fault Refusal :=
  match i with
  | .roundBoundary w x => Sys2Proof.Machine.execRoundBoundary w x s
  | .deliveryBoundary w => Sys2Proof.Machine.execDeliveryBoundary w s
  | .jobAllowanceReached w late => Sys2Proof.Machine.execJobAllowanceReached w late s
  | .endMark w late => Sys2Proof.Machine.execEndMark w late s
  | .starvePromote w => Sys2Proof.Machine.execStarvePromote w s
  | .holdupRise w => Sys2Proof.Machine.execHoldupRise w s
  | .registerWrite w rq x => Sys2Proof.Machine.execRegisterWrite w rq x s
  | .pageEnable w rq page => Sys2Proof.Machine.execPageEnable w rq page s
  | .pageDisable w rq page => Sys2Proof.Machine.execPageDisable w rq page s
  | .pageQuiesce w rq page => Sys2Proof.Machine.execPageQuiesce w rq page s
  | .pageUnquiesce w rq page => Sys2Proof.Machine.execPageUnquiesce w rq page s
  | .softReset w rq page => Sys2Proof.Machine.execSoftReset w rq page s
  | .freezeCfg w rq page => Sys2Proof.Machine.execFreezeCfg w rq page s
  | .pageCheckDone w page => Sys2Proof.Machine.execPageCheckDone w page s
  | .pageDrained w page => Sys2Proof.Machine.execPageDrained w page s
  | .pageFault w page => Sys2Proof.Machine.execPageFault w page s
  | .evtStatusClear w rq page bits again => Sys2Proof.Machine.execEvtStatusClear w rq page bits again s
  | .evtForce w rq page bits => Sys2Proof.Machine.execEvtForce w rq page bits s
  | .evtEnableWrite w rq page bits => Sys2Proof.Machine.execEvtEnableWrite w rq page bits s
  | .peerPageRead w rq page off size => Sys2Proof.Machine.execPeerPageRead w rq page off size s
  | .peerPageWrite w rq x => Sys2Proof.Machine.execPeerPageWrite w rq x s
  | .pairAliasWrite w rq x => Sys2Proof.Machine.execPairAliasWrite w rq x s
  | .aliasWriteApply => Sys2Proof.Machine.execAliasWriteApply s
  | .linkTrained h t => Sys2Proof.Machine.execLinkTrained h t s
  | .linkDegradeRetry h => Sys2Proof.Machine.execLinkDegradeRetry h s
  | .decoderCommit h n => Sys2Proof.Machine.execDecoderCommit h n s
  | .cxlIoConfigWrite h x => Sys2Proof.Machine.execCxlIoConfigWrite h x s
  | .memRd r v => Sys2Proof.Machine.execMemRd r v s
  | .memRdData r v => Sys2Proof.Machine.execMemRdData r v s
  | .memInv r v => Sys2Proof.Machine.execMemInv r v s
  | .memInvNt r v => Sys2Proof.Machine.execMemInvNt r v s
  | .memSpecRd r room => Sys2Proof.Machine.execMemSpecRd r room s
  | .memWr r v => Sys2Proof.Machine.execMemWr r v s
  | .memWrPtl r v => Sys2Proof.Machine.execMemWrPtl r v s
  | .birspI h line => Sys2Proof.Machine.execBirspI h line s
  | .birspS h line => Sys2Proof.Machine.execBirspS h line s
  | .birspE h line => Sys2Proof.Machine.execBirspE h line s
  | .biConflict h line => Sys2Proof.Machine.execBiConflict h line s
  | .requestAdmit h write => Sys2Proof.Machine.execRequestAdmit h write s
  | .dramReadDone w line outcome device => Sys2Proof.Machine.execDramReadDone w line outcome device s
  | .doeDiscovery h index => Sys2Proof.Machine.execDoeDiscovery h index s
  | .cdatTableAccess h entry => Sys2Proof.Machine.execCdatTableAccess h entry s
  | .spdmGetVersion h => Sys2Proof.Machine.execSpdmGetVersion h s
  | .spdmGetCapabilities h => Sys2Proof.Machine.execSpdmGetCapabilities h s
  | .spdmNegotiateAlgorithms h => Sys2Proof.Machine.execSpdmNegotiateAlgorithms h s
  | .spdmGetDigests h => Sys2Proof.Machine.execSpdmGetDigests h s
  | .spdmGetCertificate h slot off len => Sys2Proof.Machine.execSpdmGetCertificate h slot off len s
  | .spdmChallenge h slot => Sys2Proof.Machine.execSpdmChallenge h slot s
  | .spdmGetMeasurements h index => Sys2Proof.Machine.execSpdmGetMeasurements h index s
  | .spdmKeyExchange h => Sys2Proof.Machine.execSpdmKeyExchange h s
  | .spdmFinish h id => Sys2Proof.Machine.execSpdmFinish h id s
  | .spdmHeartbeat h id => Sys2Proof.Machine.execSpdmHeartbeat h id s
  | .spdmKeyUpdate h id => Sys2Proof.Machine.execSpdmKeyUpdate h id s
  | .spdmEndSession h id => Sys2Proof.Machine.execSpdmEndSession h id s
  | .spdmSetCertificate h slot bytes => Sys2Proof.Machine.execSpdmSetCertificate h slot bytes s
  | .kSetGo h set => Sys2Proof.Machine.execKSetGo h set s
  | .getEventRecords h log => Sys2Proof.Machine.execGetEventRecords h log s
  | .clearEventRecords h log all handles => Sys2Proof.Machine.execClearEventRecords h log all handles s
  | .getEventInterruptPolicy h => Sys2Proof.Machine.execGetEventInterruptPolicy h s
  | .setEventInterruptPolicy h log mode => Sys2Proof.Machine.execSetEventInterruptPolicy h log mode s
  | .getFwInfo h => Sys2Proof.Machine.execGetFwInfo h s
  | .transferFw h off bytes => Sys2Proof.Machine.execTransferFw h off bytes s
  | .activateFw h slot => Sys2Proof.Machine.execActivateFw h slot s
  | .getTimestamp h => Sys2Proof.Machine.execGetTimestamp h s
  | .setTimestamp h ns => Sys2Proof.Machine.execSetTimestamp h ns s
  | .getSupportedLogs h => Sys2Proof.Machine.execGetSupportedLogs h s
  | .getLog h log off len => Sys2Proof.Machine.execGetLog h log off len s
  | .identifyMemoryDevice h => Sys2Proof.Machine.execIdentifyMemoryDevice h s
  | .getPartitionInfo h => Sys2Proof.Machine.execGetPartitionInfo h s
  | .getLsa h off len => Sys2Proof.Machine.execGetLsa h off len s
  | .setLsa h off bytes => Sys2Proof.Machine.execSetLsa h off bytes s
  | .getHealthInfo h => Sys2Proof.Machine.execGetHealthInfo h s
  | .getAlertConfiguration h => Sys2Proof.Machine.execGetAlertConfiguration h s
  | .setAlertConfiguration h bytes => Sys2Proof.Machine.execSetAlertConfiguration h bytes s
  | .getShutdownState h => Sys2Proof.Machine.execGetShutdownState h s
  | .setShutdownState h dirty => Sys2Proof.Machine.execSetShutdownState h dirty s
  | .getPoisonList h dpa lines => Sys2Proof.Machine.execGetPoisonList h dpa lines s
  | .injectPoison h dpa => Sys2Proof.Machine.execInjectPoison h dpa s
  | .clearPoison h dpa data => Sys2Proof.Machine.execClearPoison h dpa data s
  | .getScanMediaCapabilities h dpa lines => Sys2Proof.Machine.execGetScanMediaCapabilities h dpa lines s
  | .scanMedia h dpa lines => Sys2Proof.Machine.execScanMedia h dpa lines s
  | .getScanMediaResults h => Sys2Proof.Machine.execGetScanMediaResults h s
  | .sanitize h => Sys2Proof.Machine.execSanitize h s
  | .secureErase h => Sys2Proof.Machine.execSecureErase h s
  | .getPairInfo h => Sys2Proof.Machine.execGetPairInfo h s
  | .getDirtyBudget h => Sys2Proof.Machine.execGetDirtyBudget h s
  | .getDeadLetters h first => Sys2Proof.Machine.execGetDeadLetters h first s
  | .startDrill h port => Sys2Proof.Machine.execStartDrill h port s
  | .mailboxBackgroundDone => Sys2Proof.Machine.execMailboxBackgroundDone s
  | .msixModeratorFire h v timer => Sys2Proof.Machine.execMsixModeratorFire h v timer s
  | .d0Entry h => Sys2Proof.Machine.execD0Entry h s
  | .gpfPhase1 h => Sys2Proof.Machine.execGpfPhase1 h s
  | .gpfPhase2 h => Sys2Proof.Machine.execGpfPhase2 h s
  | .gpfPhase2Done h => Sys2Proof.Machine.execGpfPhase2Done h s
  | .hotReset h => Sys2Proof.Machine.execHotReset h s
  | .secondaryBusReset h => Sys2Proof.Machine.execSecondaryBusReset h s
  | .headFlr h => Sys2Proof.Machine.execHeadFlr h s
  | .cxlReset h => Sys2Proof.Machine.execCxlReset h s
  | .perstAssert p => Sys2Proof.Machine.execPerstAssert p s
  | .perstDeassert p => Sys2Proof.Machine.execPerstDeassert p s
  | .carbonAcquired w h ns => Sys2Proof.Machine.execCarbonAcquired w h ns s
  | .acqLimitExpiry w h => Sys2Proof.Machine.execAcqLimitExpiry w h s
  | .lostRetry w h => Sys2Proof.Machine.execLostRetry w h s
  | .trackLost w h => Sys2Proof.Machine.execTrackLost w h s
  | .flitFetch w h dir flit => Sys2Proof.Machine.execFlitFetch w h dir flit s
  | .drainEligible w line => Sys2Proof.Machine.execDrainEligible w line s
  | .drainIssue w x => Sys2Proof.Machine.execDrainIssue w x s
  | .drainAccepted w line merge => Sys2Proof.Machine.execDrainAccepted w line merge s
  | .localStall w p => Sys2Proof.Machine.execLocalStall w p s
  | .ringEnableApply q => Sys2Proof.Machine.execRingEnableApply q s
  | .ringDisableApply q => Sys2Proof.Machine.execRingDisableApply q s
  | .cmdTail w rq throughAlias q v => Sys2Proof.Machine.execCmdTail w rq throughAlias q v s
  | .cmpHead w rq throughAlias q v => Sys2Proof.Machine.execCmpHead w rq throughAlias q v s
  | .postBoxCommandStart q => Sys2Proof.Machine.execPostBoxCommandStart q s
  | .completionWrite q => Sys2Proof.Machine.execCompletionWrite q s
  | .ringNop q idx => Sys2Proof.Machine.execRingNop q idx s
  | .ringRound q idx => Sys2Proof.Machine.execRingRound q idx s
  | .objRegister q idx => Sys2Proof.Machine.execObjRegister q idx s
  | .objRemove q idx => Sys2Proof.Machine.execObjRemove q idx s
  | .objSetPolicy q idx => Sys2Proof.Machine.execObjSetPolicy q idx s
  | .objQuery q idx => Sys2Proof.Machine.execObjQuery q idx s
  | .extentPromote q idx => Sys2Proof.Machine.execExtentPromote q idx s
  | .extentEvict q idx => Sys2Proof.Machine.execExtentEvict q idx s
  | .extentDiscard q idx => Sys2Proof.Machine.execExtentDiscard q idx s
  | .poolQuery q idx => Sys2Proof.Machine.execPoolQuery q idx s
  | .routeLoad q idx => Sys2Proof.Machine.execRouteLoad q idx s
  | .routeStart q idx => Sys2Proof.Machine.execRouteStart q idx s
  | .routeSeek q idx => Sys2Proof.Machine.execRouteSeek q idx s
  | .routeStop q idx => Sys2Proof.Machine.execRouteStop q idx s
  | .routeUnload q idx => Sys2Proof.Machine.execRouteUnload q idx s
  | .routeQuery q idx => Sys2Proof.Machine.execRouteQuery q idx s
  | .listBlockReadDone w slot block => Sys2Proof.Machine.execListBlockReadDone w slot block s
  | .retireDramRow q idx => Sys2Proof.Machine.execRetireDramRow q idx s
  | .retireFrame q idx => Sys2Proof.Machine.execRetireFrame q idx s
  | .retireParcel q idx => Sys2Proof.Machine.execRetireParcel q idx s
  | .ledgerQuery q idx => Sys2Proof.Machine.execLedgerQuery q idx s
  | .envFill w => Sys2Proof.Machine.execEnvFill w s
  | .envFrame w => Sys2Proof.Machine.execEnvFrame w s
  | .envPostmark w => Sys2Proof.Machine.execEnvPostmark w s
  | .envFetch w => Sys2Proof.Machine.execEnvFetch w s
  | .envRepair w outcome => Sys2Proof.Machine.execEnvRepair w outcome s
  | .envBridge w => Sys2Proof.Machine.execEnvBridge w s
  | .envAccess w => Sys2Proof.Machine.execEnvAccess w s
  | .envEvent w => Sys2Proof.Machine.execEnvEvent w s
  | .envControl w => Sys2Proof.Machine.execEnvControl w s
  | .envResync w => Sys2Proof.Machine.execEnvResync w s
  | .envelopeReject w badTag => Sys2Proof.Machine.execEnvelopeReject w badTag s
  | .authFail w => Sys2Proof.Machine.execAuthFail w s
  | .doubleLoss w lane => Sys2Proof.Machine.execDoubleLoss w lane s
  | .writeWm w => Sys2Proof.Machine.execWriteWm w s
  | .tapWm w => Sys2Proof.Machine.execTapWm w s
  | .drainWm w => Sys2Proof.Machine.execDrainWm w s
  | .orderAccess w => Sys2Proof.Machine.execOrderAccess w s
  | .orderSweep w => Sys2Proof.Machine.execOrderSweep w s
  | .orderVictim w => Sys2Proof.Machine.execOrderVictim w s
  | .orderHandoff w => Sys2Proof.Machine.execOrderHandoff w s
  | .recAlias w => Sys2Proof.Machine.execRecAlias w s
  | .recLog w => Sys2Proof.Machine.execRecLog w s
  | .recEffect w => Sys2Proof.Machine.execRecEffect w s
  | .recApplied w => Sys2Proof.Machine.execRecApplied w s
  | .recHold w => Sys2Proof.Machine.execRecHold w s
  | .holdRelease w => Sys2Proof.Machine.execHoldRelease w s
  | .gatedEffectApply => Sys2Proof.Machine.execGatedEffectApply s
  | .extentCopyApply => Sys2Proof.Machine.execExtentCopyApply s
  | .extentCopyDone extent => Sys2Proof.Machine.execExtentCopyDone extent s
  | .cxkTrainingDone w locked delayNs authentic => Sys2Proof.Machine.execCxkTrainingDone w locked delayNs authentic s
  | .cxkTrainingRetry w => Sys2Proof.Machine.execCxkTrainingRetry w s
  | .laneLockLoss w lane => Sys2Proof.Machine.execLaneLockLoss w lane s
  | .laneSwap w lane spare => Sys2Proof.Machine.execLaneSwap w lane spare s
  | .rekey w => Sys2Proof.Machine.execRekey w s
  | .peerCheck w pulse => Sys2Proof.Machine.execPeerCheck w pulse s
  | .linkDownTimeout w => Sys2Proof.Machine.execLinkDownTimeout w s
  | .isolateLimitExpiry w => Sys2Proof.Machine.execIsolateLimitExpiry w s
  | .ownInFall w p => Sys2Proof.Machine.execOwnInFall w p s
  | .ownInRise w p => Sys2Proof.Machine.execOwnInRise w p s
  | .twinDeadNFall w => Sys2Proof.Machine.execTwinDeadNFall w s
  | .guardMet w p => Sys2Proof.Machine.execGuardMet w p s
  | .takeoverLinkL0 w h ns => Sys2Proof.Machine.execTakeoverLinkL0 w h ns s
  | .failstopNow w rq => Sys2Proof.Machine.execFailstopNow w rq s
  | .fenceInFall w => Sys2Proof.Machine.execFenceInFall w s
  | .fenceInRise w => Sys2Proof.Machine.execFenceInRise w s
  | .fenceRelease w rq => Sys2Proof.Machine.execFenceRelease w rq s
  | .handoverRetry p => Sys2Proof.Machine.execHandoverRetry p s
  | .takeoverDrill rq => Sys2Proof.Machine.execTakeoverDrill rq s
  | .drillReturn => Sys2Proof.Machine.execDrillReturn s
  | .countersignMismatch w dpa carbonStable homeStable carbonData homeData => Sys2Proof.Machine.execCountersignMismatch w dpa carbonStable homeStable carbonData homeData s
  | .repairRequest w dpa => Sys2Proof.Machine.execRepairRequest w dpa s
  | .resyncConfigDone => Sys2Proof.Machine.execResyncConfigDone s
  | .resyncFrontDone => Sys2Proof.Machine.execResyncFrontDone s
  | .resyncBackDone => Sys2Proof.Machine.execResyncBackDone s
  | .resyncFinish => Sys2Proof.Machine.execResyncFinish s
  | .resyncCapacityRefuse => Sys2Proof.Machine.execResyncCapacityRefuse s
  | .speakerEndpointStarted w => Sys2Proof.Machine.execSpeakerEndpointStarted w s
  | .soloWaitExpiry w pulseEdge => Sys2Proof.Machine.execSoloWaitExpiry w pulseEdge s
  | .forceAlone w rq => Sys2Proof.Machine.execForceAlone w rq s
  | .snoopTimeout h line => Sys2Proof.Machine.execSnoopTimeout h line s
  | .shadowMigrationDone w d => Sys2Proof.Machine.execShadowMigrationDone w d s
  | .domainWrite w rq d reg data => Sys2Proof.Machine.execDomainWrite w rq d reg data s
  | .copyStepDone w parcel => Sys2Proof.Machine.execCopyStepDone w parcel s
  | .packStepDone w parcel drained => Sys2Proof.Machine.execPackStepDone w parcel drained s
  | .frameFree w frame => Sys2Proof.Machine.execFrameFree w frame s
  | .frameZeroDone w frame => Sys2Proof.Machine.execFrameZeroDone w frame s
  | .fillRangeDone w range => Sys2Proof.Machine.execFillRangeDone w range s
  | .translationFill w h line => Sys2Proof.Machine.execTranslationFill w h line s
  | .mdcFillArrival w line => Sys2Proof.Machine.execMdcFillArrival w line s
  | .mdcInvalidationDone w => Sys2Proof.Machine.execMdcInvalidationDone w s
  | .mdcClean w rq => Sys2Proof.Machine.execMdcClean w rq s
  | .mdcInvalidate w rq => Sys2Proof.Machine.execMdcInvalidate w rq s
  | .mdcCleanInvalidate w rq => Sys2Proof.Machine.execMdcCleanInvalidate w rq s
  | .mdcLock w rq => Sys2Proof.Machine.execMdcLock w rq s
  | .mdcUnlock w rq => Sys2Proof.Machine.execMdcUnlock w rq s
  | .mdcOpDone w => Sys2Proof.Machine.execMdcOpDone w s
  | .wayDisableDone w way => Sys2Proof.Machine.execWayDisableDone w way s
  | .arrayReadDone w parcel x => Sys2Proof.Machine.execArrayReadDone w parcel x s
  | .directReadTimeout w parcel => Sys2Proof.Machine.execDirectReadTimeout w parcel s
  | .programDone w row col pass => Sys2Proof.Machine.execProgramDone w row col pass s
  | .eraseDone w row col pass => Sys2Proof.Machine.execEraseDone w row col pass s
  | .lunStatusTimeout w col pos => Sys2Proof.Machine.execLunStatusTimeout w col pos s
  | .nandZqCalibration w => Sys2Proof.Machine.execNandZqCalibration w s
  | .patchAgeExpiry w parcel => Sys2Proof.Machine.execPatchAgeExpiry w parcel s
  | .offlineReq w rq m => Sys2Proof.Machine.execOfflineReq w rq m s
  | .onlineReq w rq m => Sys2Proof.Machine.execOnlineReq w rq m s
  | .moduleSafe w m => Sys2Proof.Machine.execModuleSafe w m s
  | .modulePresenceChange w m present => Sys2Proof.Machine.execModulePresenceChange w m present s
  | .channelFailed w c => Sys2Proof.Machine.execChannelFailed w c s
  | .modulePrepareDone w m ok => Sys2Proof.Machine.execModulePrepareDone w m ok s
  | .rebuildDone w m => Sys2Proof.Machine.execRebuildDone w m s
  | .formatDone w x => Sys2Proof.Machine.execFormatDone w x s
  | .pfailNFall w => Sys2Proof.Machine.execPfailNFall w s
  | .pfailCommit w => Sys2Proof.Machine.execPfailCommit w s
  | .pfailNRise w => Sys2Proof.Machine.execPfailNRise w s
  | .saveDecision w => Sys2Proof.Machine.execSaveDecision w s
  | .lonePfail w => Sys2Proof.Machine.execLonePfail w s
  | .graceExpiry w => Sys2Proof.Machine.execGraceExpiry w s
  | .saveSealed w x => Sys2Proof.Machine.execSaveSealed w x s
  | .saveFailed w => Sys2Proof.Machine.execSaveFailed w s
  | .calibrationDone w rate tprogUs fixedUs ms => Sys2Proof.Machine.execCalibrationDone w rate tprogUs fixedUs ms s
  | .sealReadDone w copies bad => Sys2Proof.Machine.execSealReadDone w copies bad s
  | .sourceChoice w => Sys2Proof.Machine.execSourceChoice w s
  | .metadataLoadDone w => Sys2Proof.Machine.execMetadataLoadDone w s
  | .restoreLoadDone w => Sys2Proof.Machine.execRestoreLoadDone w s
  | .checkpointCommit w => Sys2Proof.Machine.execCheckpointCommit w s
  | .memoryActive => Sys2Proof.Machine.execMemoryActive s
  | .refreshInterval w c ranks => Sys2Proof.Machine.execRefreshInterval w c ranks s
  | .refsbIssue w c r k => Sys2Proof.Machine.execRefsbIssue w c r k s
  | .refreshDone w c r => Sys2Proof.Machine.execRefreshDone w c r s
  | .mr4Poll w c twoX => Sys2Proof.Machine.execMr4Poll w c twoX s
  | .dramTrainingDone w x => Sys2Proof.Machine.execDramTrainingDone w x s
  | .driftCheck w c r ps => Sys2Proof.Machine.execDriftCheck w c r ps s
  | .dramZqStart w c r => Sys2Proof.Machine.execDramZqStart w c r s
  | .dramZqLatch w c r => Sys2Proof.Machine.execDramZqLatch w c r s
  | .retrainDone w c r ok rdEye wrEye => Sys2Proof.Machine.execRetrainDone w c r ok rdEye wrEye s
  | .srIdleExpiry w c => Sys2Proof.Machine.execSrIdleExpiry w c s
  | .srExitDone w c ns => Sys2Proof.Machine.execSrExitDone w c ns s
  | .pprGo w rq c => Sys2Proof.Machine.execPprGo w rq c s
  | .pprCopyDone w c => Sys2Proof.Machine.execPprCopyDone w c s
  | .pprProgramDone w c err => Sys2Proof.Machine.execPprProgramDone w c err s
  | .pprDone w c => Sys2Proof.Machine.execPprDone w c s
  | .alertN w c => Sys2Proof.Machine.execAlertN w c s
  | .patrolWake w c => Sys2Proof.Machine.execPatrolWake w c s
  | .cblWindowEnd w => Sys2Proof.Machine.execCblWindowEnd w s
  | .dirBankMigrateDone w bank => Sys2Proof.Machine.execDirBankMigrateDone w bank s
  | .coreSpareSwap w n => Sys2Proof.Machine.execCoreSpareSwap w n s
  | .interruptArrival w src level => Sys2Proof.Machine.execInterruptArrival w src level s
  | .coalTimer w g => Sys2Proof.Machine.execCoalTimer w g s
  | .fastEntry w n pc machine => Sys2Proof.Machine.execFastEntry w n pc machine s
  | .coreFret w n => Sys2Proof.Machine.execCoreFret w n s
  | .icuClaim w rq n => Sys2Proof.Machine.execIcuClaim w rq n s
  | .icuComplete w rq n src => Sys2Proof.Machine.execIcuComplete w rq n src s
  | .icuSwi w rq bits => Sys2Proof.Machine.execIcuSwi w rq bits s
  | .sourceDisable w rq src => Sys2Proof.Machine.execSourceDisable w rq src s
  | .targetChange w rq src target => Sys2Proof.Machine.execTargetChange w rq src target s
  | .coreWfi w n => Sys2Proof.Machine.execCoreWfi w n s
  | .coreMtip w n => Sys2Proof.Machine.execCoreMtip w n s
  | .lrScAmo w n op addr rd data wide => Sys2Proof.Machine.execLrScAmo w n op addr rd data wide s
  | .dcflush w n addr => Sys2Proof.Machine.execDcflush w n addr s
  | .efcProgram w rq fetched => Sys2Proof.Machine.execEfcProgram w rq fetched s
  | .efcErase w rq fetched => Sys2Proof.Machine.execEfcErase w rq fetched s
  | .ptrSwap w rq fetched => Sys2Proof.Machine.execPtrSwap w rq fetched s
  | .efcPulseDone w firstBad deferUs => Sys2Proof.Machine.execEfcPulseDone w firstBad deferUs s
  | .activeLock w rq => Sys2Proof.Machine.execActiveLock w rq s
  | .kickChip w rq first second inTime => Sys2Proof.Machine.execKickChip w rq first second inTime s
  | .kickCore w rq first second inTime => Sys2Proof.Machine.execKickCore w rq first second inTime s
  | .chipWatchdogExpiry w => Sys2Proof.Machine.execChipWatchdogExpiry w s
  | .coreWatchdogWarn w n => Sys2Proof.Machine.execCoreWatchdogWarn w n s
  | .coreWatchdogReset w n => Sys2Proof.Machine.execCoreWatchdogReset w n s
  | .wdtLockSet w rq => Sys2Proof.Machine.execWdtLockSet w rq s
  | .pgChange w idx high => Sys2Proof.Machine.execPgChange w idx high s
  | .psqDelayExpiry w => Sys2Proof.Machine.execPsqDelayExpiry w s
  | .psqTimeout w => Sys2Proof.Machine.execPsqTimeout w s
  | .seqSyncCommit w => Sys2Proof.Machine.execSeqSyncCommit w s
  | .syncTimeout w => Sys2Proof.Machine.execSyncTimeout w s
  | .seqInFall w => Sys2Proof.Machine.execSeqInFall w s
  | .upSequenceStart w => Sys2Proof.Machine.execUpSequenceStart w s
  | .offMinExpiry w => Sys2Proof.Machine.execOffMinExpiry w s
  | .railFault w idx => Sys2Proof.Machine.execRailFault w idx s
  | .faultShutExpiry w => Sys2Proof.Machine.execFaultShutExpiry w s
  | .storeCommit w rq => Sys2Proof.Machine.execStoreCommit w rq s
  | .marginWrite w rq k steps => Sys2Proof.Machine.execMarginWrite w rq k steps s
  | .throttleStep w => Sys2Proof.Machine.execThrottleStep w s
  | .thermalTrip w => Sys2Proof.Machine.execThermalTrip w s
  | .avsPeriod w cpm => Sys2Proof.Machine.execAvsPeriod w cpm s
  | .cpmAlarm w cpm => Sys2Proof.Machine.execCpmAlarm w cpm s
  | .avsbusFrameDone w x => Sys2Proof.Machine.execAvsbusFrameDone w x s
  | .avsTelemetryPoll w => Sys2Proof.Machine.execAvsTelemetryPoll w s
  | .fclkStepChange w => Sys2Proof.Machine.execFclkStepChange w s
  | .smbBlockWrite w bytes pec => Sys2Proof.Machine.execSmbBlockWrite w bytes pec s
  | .smbBlockRead w whole => Sys2Proof.Machine.execSmbBlockRead w whole s
  | .smbReadByteStatus w => Sys2Proof.Machine.execSmbReadByteStatus w s
  | .alertResponseAddress w => Sys2Proof.Machine.execAlertResponseAddress w s
  | .smbStartStop w => Sys2Proof.Machine.execSmbStartStop w s
  | .smbClockLowTimeout w => Sys2Proof.Machine.execSmbClockLowTimeout w s
  | .smbDataLowTimeout w => Sys2Proof.Machine.execSmbDataLowTimeout w s
  | .mctpControl w command => Sys2Proof.Machine.execMctpControl w command s
  | .fmApiCommand w opcode => Sys2Proof.Machine.execFmApiCommand w opcode s
  | .pageRead w x => Sys2Proof.Machine.execPageRead w x s
  | .pageWrite w x => Sys2Proof.Machine.execPageWrite w x s
  | .alwaysOnPowerUp w x => Sys2Proof.Machine.execAlwaysOnPowerUp w x s
  | .powerOnReset w x => Sys2Proof.Machine.execPowerOnReset w x s
  | .resetNAssert w => Sys2Proof.Machine.execResetNAssert w s
  | .resetNRelease w x => Sys2Proof.Machine.execResetNRelease w x s
  | .warmGo w rq x => Sys2Proof.Machine.execWarmGo w rq x s
  | .svnAdvance w rq => Sys2Proof.Machine.execSvnAdvance w rq s
  | .ownerProg w rq => Sys2Proof.Machine.execOwnerProg w rq s
  | .eraseReq rq d => Sys2Proof.Machine.execEraseReq rq d s
  | .cryptoEraseDone w d => Sys2Proof.Machine.execCryptoEraseDone w d s
  | .closeGo w rq => Sys2Proof.Machine.execCloseGo w rq s
  | .testLogicReset w => Sys2Proof.Machine.execTestLogicReset w s
  | .tapExtest w => Sys2Proof.Machine.execTapExtest w s
  | .samplePreload w => Sys2Proof.Machine.execSamplePreload w s
  | .tapIdcode w => Sys2Proof.Machine.execTapIdcode w s
  | .tapClamp w => Sys2Proof.Machine.execTapClamp w s
  | .tapHighz w => Sys2Proof.Machine.execTapHighz w s
  | .extestPulse w => Sys2Proof.Machine.execExtestPulse w s
  | .extestTrain w => Sys2Proof.Machine.execExtestTrain w s
  | .tapDmi w => Sys2Proof.Machine.execTapDmi w s
  | .tapSysbus w x => Sys2Proof.Machine.execTapSysbus w x s
  | .tapOverride w own dead fence => Sys2Proof.Machine.execTapOverride w own dead fence s
  | .tapBypass w code => Sys2Proof.Machine.execTapBypass w code s
  | .clockLockLoss w => Sys2Proof.Machine.execClockLockLoss w s
  | .linkLeftL0 h dest ns => Sys2Proof.Machine.execLinkLeftL0 h dest ns s
  | .twinDeadNRise w => Sys2Proof.Machine.execTwinDeadNRise w s
  | .carbonLaneFlit w h hostAck decoded => Sys2Proof.Machine.execCarbonLaneFlit w h hostAck decoded s

end Sys2Proof.Machine
end

