-- ==== Sys2Proof/Safety.lean ====
section
/-! DEFINITION. What the claims call a sound state: every memory in its one canonical form. -/
namespace Sys2Proof.Machine

/-- The canonical form of a memory: addresses strictly rising, no listed byte equal to what an unlisted one reads as, 0 (R263, R268). -/
def Memory.wf (m : List Host.Cell) : Bool := Table.wf zeroByte m

/-- The byte stores of one chip: the DRAM outside the frames of extents, the frames, the packed parcels and the patches (R261, R263, R286), and
the frames and patches that a seal and the durable metadata keep through a power failure (R396, R403). -/
structure Stores where
  dram : List Host.Cell
  front : List Host.Cell
  packed : List Host.Cell
  patch : List Host.Cell
  sealFront : List Host.Cell
  sealPatch : List Host.Cell
  metaFront : List Host.Cell
  metaPatch : List Host.Cell
  deriving DecidableEq, Repr

/-- The byte stores of a chip. -/
def Chip.mem (c : Chip) : Stores :=
  ⟨c.dram, c.trm.front, c.trm.packed, c.trm.patch, c.svc.saved.front, c.svc.saved.patch, c.svc.durable.front, c.svc.durable.patch⟩

/-- Every store of a chip has the canonical form. -/
def Stores.wf (m : Stores) : Bool :=
  Memory.wf m.dram && Memory.wf m.front && Memory.wf m.packed && Memory.wf m.patch &&
    Memory.wf m.sealFront && Memory.wf m.sealPatch && Memory.wf m.metaFront && Memory.wf m.metaPatch

/-- Every memory of the pair has the canonical form. -/
def State.memWf (s : State) : Bool := s.a.mem.wf && s.b.mem.wf

/-- Pages whose stored values bring nothing about in another block as they are written, and that hold no action bit (R599): a word stored in
one of them changes that word and what R61 shows of it. -/
def plainPage (page : Nat) : Bool :=
  blockOf page != 0 &&
    !([0x020, 0x031, 0x032, 0x040, 0x050, 0x051, 0x060, 0x070, 0x091, 0x0A1, 0x0C1, 0x120, 0x130, 0x140, 0x141, 0x151, 0x386] : List Nat).contains page &&
    !(decide (0x110 ≤ page) && decide (page ≤ 0x116)) && !(decide (0x300 ≤ page) && decide (page < 0x340)) &&
    !(decide (0x3A0 ≤ page) && decide (page < 0x3C0))

/-- Whether chip `w`, and not its twin, keeps ring `q` and has command `x` of it in progress, started and not yet carried out (R149, R153). -/
def State.carries (s : State) (w : Twin) (q : Fin 64) (x : RingCmd) : Bool :=
  (s.chip w).up && (s.chip w).keepsRing q.val && (s.chip w).ringCmd q.val x.idx == some x && x.started && !x.acted &&
    !((s.chip w.other).up && (s.chip w.other).keepsRing q.val)

/-- How a command of a ring ends (R150). -/
def RingCmd.ends (x : RingCmd) (q : Fin 64) (status result : Nat) : RingEnd :=
  ⟨q, x.idx, x.tag, status, result % 2 ^ 64, x.flags.testBit 1⟩

end Sys2Proof.Machine

namespace Sys2Proof

/-- The commands that may store a byte of DRAM, a frame, a packed parcel or a patch: accesses that drain or merge, the ends of copies, saves and
restores, checkpoints, the start of a join, a rebuild of parcels, a core's memory operations, resets, effects that discard content, writes of registers
that do, a check that puts them in force, and Round work. -/
def Instr.mayStore : Instr → Bool
  | .drainAccepted .. | .arrayReadDone .. | .domainWrite .. | .copyStepDone .. | .packStepDone .. | .frameFree .. |
    .frameZeroDone .. | .saveSealed .. | .formatDone .. | .metadataLoadDone .. | .restoreLoadDone .. | .checkpointCommit .. | .lrScAmo .. |
    .dcflush .. | .alwaysOnPowerUp .. | .powerOnReset .. | .resetNAssert .. | .warmGo .. | .cryptoEraseDone .. | .testLogicReset .. |
    .tapExtest .. | .samplePreload .. | .tapIdcode .. | .tapClamp .. | .tapHighz .. | .extestPulse .. | .extestTrain .. | .tapDmi .. |
    .tapOverride .. | .tapBypass .. | .recEffect .. | .gatedEffectApply .. | .repairRequest .. | .countersignMismatch .. | .peerCheck .. |
    .linkDownTimeout .. | .ownInFall .. | .twinDeadNFall .. | .fenceInFall .. | .resyncConfigDone .. | .extentCopyDone .. | .envRepair .. |
    .registerWrite .. | .pageEnable .. | .pageDisable .. | .pageQuiesce .. | .pageUnquiesce .. | .softReset .. | .freezeCfg .. |
    .aliasWriteApply .. | .envAccess .. | .tapSysbus .. | .pageWrite .. | .roundBoundary .. | .deliveryBoundary .. |
    .jobAllowanceReached .. | .endMark .. | .starvePromote .. | .cxlIoConfigWrite .. | .envFrame .. | .envResync .. | .pageCheckDone .. |
    .rebuildDone .. | .sealReadDone .. | .sourceChoice .. => true
  | _ => false

end Sys2Proof
end

