-- ==== Sys2Proof/Certificates/Slice0/Obligations.lean ====
section
/-! DEFINITION. The statements for the provers: what a step does with the queue, that every command completes and what it then does, what
it leaves as it was, and the invariant of memory. -/

open Sys2Proof Sys2Proof.Machine

/-! ## The step, memory, frames of whole families, and rules stated whole -/

/-- A step takes the command at the front of the queue and carries it out on the pair with the rest of the queue. -/
def Obligations.StepRunsTheFrontCommand : Prop :=
  ∀ (c : Instr) (l : List Instr) (s : State), step { s with pending := c :: l } = exec c { s with pending := l }

/-- The model's choice (assumption log): with no command waiting the pair idles. No command touches the queue of commands: after a step it is
what waited behind the front command. -/
def Obligations.QueueRule : Prop :=
  (∀ s : State, s.pending = [] → step s = .next s) ∧ (∀ s t : State, step s = .next t → t.pending = s.pending.tail)

/-- No step ends in a fault or a refusal: every command of the table has an effect, the identity where its trigger does not hold. -/
def Obligations.EveryStepAnswersNext : Prop := ∀ s : State, ∃ t : State, step s = .next t

/-- Every memory of both chips is in its canonical form right after power-up. -/
def Obligations.ResetMemoryCanonical : Prop := State.reset.memWf = true

/-- Every step keeps every memory of both chips in its one canonical form. -/
def Obligations.StepKeepsMemoryCanonical : Prop := ∀ s t : State, s.memWf = true → step s = .next t → t.memWf = true

/-- The frame of memory: a command that stores nothing leaves every byte of every memory of both chips as it was: the DRAM, the frames, the
packed parcels, the patches, and what the seal and the durable metadata hold. -/
def Obligations.StoringNothingKeepsMemory : Prop :=
  ∀ (c : Instr) (s t : State), c.mayStore = false → exec c s = .next t → ∀ (w : Twin) (a : Nat),
    Table.get zeroByte (t.chip w).dram a = Table.get zeroByte (s.chip w).dram a ∧
    Table.get zeroByte (t.chip w).trm.front a = Table.get zeroByte (s.chip w).trm.front a ∧
    Table.get zeroByte (t.chip w).trm.packed a = Table.get zeroByte (s.chip w).trm.packed a ∧
    Table.get zeroByte (t.chip w).trm.patch a = Table.get zeroByte (s.chip w).trm.patch a ∧
    Table.get zeroByte (t.chip w).svc.saved.front a = Table.get zeroByte (s.chip w).svc.saved.front a ∧
    Table.get zeroByte (t.chip w).svc.saved.patch a = Table.get zeroByte (s.chip w).svc.saved.patch a ∧
    Table.get zeroByte (t.chip w).svc.durable.front a = Table.get zeroByte (s.chip w).svc.durable.front a ∧
    Table.get zeroByte (t.chip w).svc.durable.patch a = Table.get zeroByte (s.chip w).svc.durable.patch a

/-- From R599 and the families' own chapters: what the commands named, of the board, the sequencer, the TAP, the DRAM channels, the interrupt controller with the cores, and
the fuses with the eflash and the watchdogs, leave as it is, in every state: all of both chips but the parts named, which are the family's own and those that an event may
change (registers, counters, records for the hosts and for the twin); and of the registers, every configuration word, as stored and as applied, but those of the pages
given beside the command. -/
def Obligations.FamiliesTouchTheirOwn : Prop :=
  (∀ (w : Twin) (rq : Requester) (k : Fin 4) (steps cpm : BitVec 8) (reply : AvsReply) (bytes : List Byte) (pec : Option Bool) (whole : Bool)
    (cmd : Byte) (s : State),
    ∀ x ∈ ([(.marginWrite w rq k steps, [0x141]), (.throttleStep w, []), (.avsPeriod w cpm, []), (.cpmAlarm w cpm, []),
      (.avsbusFrameDone w reply, []), (.avsTelemetryPoll w, []), (.fclkStepChange w, []), (.smbBlockWrite w bytes pec, []),
      (.smbBlockRead w whole, []), (.smbReadByteStatus w, []), (.alertResponseAddress w, []), (.smbStartStop w, []), (.smbClockLowTimeout w, []),
      (.smbDataLowTimeout w, []), (.mctpControl w cmd, [])] : List (Instr × List Nat)),
    ∃ t, exec x.1 s = .next t ∧ (∀ v : Twin, t.chip v = { s.chip v with
        regs := (t.chip v).regs, applied := (t.chip v).applied, live := (t.chip v).live, heads := (t.chip v).heads, link := (t.chip v).link, twe := (t.chip v).twe,
        mctpOut := (t.chip v).mctpOut, thm := (t.chip v).thm, mti := (t.chip v).mti }) ∧
      (∀ (v : Twin) (page off : Nat), page ∉ x.2 → 0x100 ≤ off → off < 0x800 → (t.chip v).rd page off = (s.chip v).rd page off ∧
        (t.chip v).applied.get resetKey (regKey page off) = (s.chip v).applied.get resetKey (regKey page off))) ∧
  (∀ (w : Twin) (rq : Requester) (i : Fin 16) (high : Bool) (s : State),
    ∀ x ∈ ([(.pgChange w i high, []), (.offMinExpiry w, []), (.storeCommit w rq, [])] : List (Instr × List Nat)),
    ∃ t, exec x.1 s = .next t ∧ (∀ v : Twin, t.chip v = { s.chip v with
        regs := (t.chip v).regs, live := (t.chip v).live, heads := (t.chip v).heads, link := (t.chip v).link, twe := (t.chip v).twe,
        mctpOut := (t.chip v).mctpOut, psq := (t.chip v).psq }) ∧
      (∀ (v : Twin) (page off : Nat), page ∉ x.2 → 0x100 ≤ off → off < 0x800 → (t.chip v).rd page off = (s.chip v).rd page off)) ∧
  (∀ (w : Twin) (own : BitVec 6) (dead fence : Bool) (s : State),
    ∀ x ∈ ([(.samplePreload w, []), (.tapIdcode w, []), (.tapDmi w, []), (.tapOverride w own dead fence, []),
      (.testLogicReset w, [])] : List (Instr × List Nat)),
    ∃ t, exec x.1 s = .next t ∧ (∀ v : Twin, t.chip v = { s.chip v with
        regs := (t.chip v).regs, live := (t.chip v).live, tap := (t.chip v).tap }) ∧
      (∀ (v : Twin) (page off : Nat), page ∉ x.2 → 0x100 ≤ off → off < 0x800 → (t.chip v).rd page off = (s.chip v).rd page off)) ∧
  (∀ (w : Twin) (rq : Requester) (d r : Fin 16) (k : Fin 4) (ranks : BitVec 16) (ps : Int) (ns : Nat) (err : Fin 3) (s : State),
    ∀ x ∈ ([(.refreshInterval w d ranks, []), (.refsbIssue w d r k, []), (.refreshDone w d r, []), (.mr4Poll w d ranks, []),
      (.driftCheck w d r ps, []), (.dramZqStart w d r, []), (.dramZqLatch w d r, []), (.srIdleExpiry w d, []), (.srExitDone w d ns, []),
      (.patrolWake w d, []), (.alertN w d, []), (.pprGo w rq d, []), (.pprCopyDone w d, []),
      (.pprProgramDone w d err, [])] : List (Instr × List Nat)),
    ∃ t, exec x.1 s = .next t ∧ (∀ v : Twin, t.chip v = { s.chip v with
        regs := (t.chip v).regs, live := (t.chip v).live, heads := (t.chip v).heads, link := (t.chip v).link, twe := (t.chip v).twe,
        mctpOut := (t.chip v).mctpOut, chans := (t.chip v).chans }) ∧
      (∀ (v : Twin) (page off : Nat), page ∉ x.2 → 0x100 ≤ off → off < 0x800 → (t.chip v).rd page off = (s.chip v).rd page off)) ∧
  (∀ (w : Twin) (rq : Requester) (i : Fin 1024) (n : Fin 8) (g : Fin 64) (core : Fin 16) (bits : Byte) (pc : BitVec 64) (b : Bool) (s : State),
    ∀ x ∈ ([(.interruptArrival w i b, []), (.coalTimer w g, []), (.fastEntry w n pc b, []), (.coreFret w n, []), (.icuClaim w rq n, []),
      (.icuComplete w rq n i, [0x115]), (.icuSwi w rq bits, []), (.sourceDisable w rq i, [0x111, 0x112, 0x113, 0x114]),
      (.targetChange w rq i core, [0x111, 0x112, 0x113, 0x114]), (.coreWfi w n, []), (.coreMtip w n, [])] : List (Instr × List Nat)),
    ∃ t, exec x.1 s = .next t ∧ (∀ v : Twin, t.chip v = { s.chip v with
        regs := (t.chip v).regs, applied := (t.chip v).applied, live := (t.chip v).live, heads := (t.chip v).heads, link := (t.chip v).link, twe := (t.chip v).twe,
        mctpOut := (t.chip v).mctpOut, icu := (t.chip v).icu, cores := (t.chip v).cores, answers := (t.chip v).answers }) ∧
      (∀ (v : Twin) (page off : Nat), page ∉ x.2 → 0x100 ≤ off → off < 0x800 → (t.chip v).rd page off = (s.chip v).rd page off ∧
        (t.chip v).applied.get resetKey (regKey page off) = (s.chip v).applied.get resetKey (regKey page off))) ∧
  (∀ (w : Twin) (rq : Requester) (n : Fin 8) (first second : Byte) (b : Bool) (fetched : Option (Fin 2)) (s : State),
    ∀ x ∈ ([(.svnAdvance w rq, []), (.ownerProg w rq, []), (.closeGo w rq, []), (.kickChip w rq first second b, []),
      (.kickCore w rq first second b, []), (.wdtLockSet w rq, [0x120]), (.activeLock w rq, [0x130]), (.efcProgram w rq fetched, [0x130]),
      (.efcErase w rq fetched, [0x130]), (.ptrSwap w rq fetched, [0x130]), (.coreWatchdogWarn w n, [])] : List (Instr × List Nat)),
    ∃ t, exec x.1 s = .next t ∧ (∀ v : Twin, t.chip v = { s.chip v with
        regs := (t.chip v).regs, applied := (t.chip v).applied, live := (t.chip v).live, heads := (t.chip v).heads, link := (t.chip v).link, twe := (t.chip v).twe,
        mctpOut := (t.chip v).mctpOut, sec := (t.chip v).sec, wdt := (t.chip v).wdt, efc := (t.chip v).efc, icu := (t.chip v).icu,
        cores := (t.chip v).cores }) ∧
      (∀ (v : Twin) (page off : Nat), page ∉ x.2 → 0x100 ≤ off → off < 0x800 → (t.chip v).rd page off = (s.chip v).rd page off ∧
        (t.chip v).applied.get resetKey (regKey page off) = (s.chip v).applied.get resetKey (regKey page off)))

/-- R46: a page index with no page behind it reads 0 at every offset for every requester, a write to it is ignored, and neither counts as a
bad access. -/
def Obligations.UnbackedPagesReadZero : Prop :=
  (∀ (c : Chip) (rq : Requester) (page off size : Nat), blockOf page = 0 → c.takePage rq page off size = (c, 0)) ∧
  (∀ (w : Twin) (rq : Requester) (x : PageWrite) (s : State), blockOf x.page = 0 → goodAccess x.off x.size = true →
    exec (.registerWrite w rq x) s = .next s ∧ exec (.peerPageWrite w rq x) s = .next s ∧ exec (.pairAliasWrite w rq x) s = .next s) ∧
  (∀ (w : Twin) (m : PageMessage) (s : State), (s.chip w).up = true → (s.chip w).acking = true → PageMessage.ok m = true →
    m.off.toNat % 4 = 0 → m.off.toNat < 4096 → blockOf m.page.toNat = 0 → PageMessage.target m w = w →
    ∀ x ∈ ([.pageRead w m, .pageWrite w m] : List Instr),
    ∃ t, exec x s = .next t ∧ (t.chip w).answers = (s.chip w).answers ++ [⟨.mctp, 0, 0⟩] ∧
      (t.chip w).count K.RAS_BAD_ACCESS = (s.chip w).count K.RAS_BAD_ACCESS ∧ t.chip w.other = s.chip w.other)

/-- R561: a machine-mode core's SVN_ADVANCE brings the fuse count to the SVN of the running image, and never down; with 64 fuses blown it is
rejected with RANGE. No requester but a machine mode core advances it. -/
def Obligations.SecurityVersionAdvances : Prop :=
  (∀ (w : Twin) (n : Fin 9) (s : State), (s.chip w).up = true → (s.chip w).sec.svn < 64 →
    ∃ t, exec (.svnAdvance w (.coreM n)) s = .next t ∧ (t.chip w).sec.svn = max (s.chip w).sec.svn (s.chip w).rst.imageSvn) ∧
  (∀ (w : Twin) (n : Fin 9) (s : State), (s.chip w).up = true → 64 ≤ (s.chip w).sec.svn →
    ∃ t, exec (.svnAdvance w (.coreM n)) s = .next t ∧ (t.chip w).sec = (s.chip w).sec ∧
      bitsOf ((t.chip w).rd 0x031 0x00C) 8 8 = 0x01 ∧ bitsOf ((t.chip w).rd 0x031 0x00C) 16 12 = 0x100 ∧
      ((t.chip w).rd 0x031 0x010).getLsbD 28 = true ∧ (t.chip w).pageState 0x031 = (s.chip w).pageState 0x031) ∧
  (∀ (w : Twin) (rq : Requester) (s : State), (∀ n : Fin 9, rq ≠ .coreM n) →
    ∃ t, exec (.svnAdvance w rq) s = .next t ∧ (t.chip w).sec = (s.chip w).sec)

/-- R524: on the way down, at the timeout of a step whose rails' PG bits are still high, LAST_FAULT names the lowest such rail with KIND DOWN, each
such rail is counted, DOWN_RAIL_FAIL is raised, and the sequence goes on with the delay; a PG bit that falls on the way down is no fault. -/
def Obligations.DownSequenceGoesOn : Prop :=
  (∀ (w : Twin) (i : Fin 16) (s : State), (s.chip w).psq.phase = 0 → (s.chip w).psqDir = 3 → (s.chip w).pgMissing.testBit i.val = true →
    (∀ k : Fin 16, k < i → (s.chip w).pgMissing.testBit k.val = false) →
    ∃ t, exec (.psqTimeout w) s = .next t ∧ (t.chip w).get F.PSQ_LAST_FAULT_RAIL = i.val ∧ (t.chip w).get F.PSQ_LAST_FAULT_KIND = 3 ∧
      (t.chip w).count K.PSQ_DOWN_RAIL_FAILS = ((s.chip w).count K.PSQ_DOWN_RAIL_FAILS +
        ((List.range 16).filter fun k => (s.chip w).pgMissing.testBit k).length) % 2 ^ 48 ∧
      (t.chip w).is F.PSQ_EV_DOWN_RAIL_FAIL = true ∧ (t.chip w).psq.phase = 1 ∧ (t.chip w).psqDir = 3) ∧
  (∀ (w : Twin) (i : Fin 16) (s : State), (s.chip w).psqDir = 3 → exec (.railFault w i) s = .next s)

/-! ## Rounds, pages and page accesses (R18 to R63) -/

/-- From R20, R29, R30, R33, R35, R37: on a chip that runs, and with the twin as it was: ROUND_BOUNDARY raises the round number by one, modulo 2^48; the
last job of a Round that meets its allowance stops at its safe point with work left, and is deferred; at END_MARK the Round's jobs are over; once they
are over, the starved job is promoted, counted and raised; a Delivery that has had its Rounds ends: its counters, with what the closing of its Round added,
are the snapshot, stamped with its number, and the next is numbered one higher and stands at its first Round. -/
def Obligations.RoundCommandsComplete : Prop :=
  (∀ (w : Twin) (x : RoundInputs) (s : State), (s.chip w).up = true →
    ∃ t, exec (.roundBoundary w x) s = .next t ∧ (t.chip w).round = ((s.chip w).round + 1) % 2 ^ 48 ∧
      t.chip w.other = s.chip w.other) ∧
  (∀ (w : Twin) (late : Fin 41) (j : Nat) (s : State), (s.chip w).up = true → (s.chip w).clk.sched.running = some j →
    (s.chip w).meetsAllowance j = true → (s.chip w).clk.sched.left = [] →
    ((s.chip w).allowance j).toNat + late.val < (s.chip w).needOf j →
    ∃ t, exec (.jobAllowanceReached w late) s = .next t ∧ (t.chip w).clk.sched.running = none ∧
      (t.chip w).clk.sched.now = (s.chip w).clk.sched.now + (((s.chip w).allowance j).toNat + late.val) ∧
      (t.chip w).clk.sched.deferred = (s.chip w).clk.sched.deferred ++ [j] ∧
      t.chip w.other = s.chip w.other) ∧
  (∀ (w : Twin) (late : Fin 41) (s : State), (s.chip w).up = true →
    ∃ t, exec (.endMark w late) s = .next t ∧ (t.chip w).clk.sched.now = 4000 ∧ (t.chip w).clk.sched.running = none ∧
      (t.chip w).clk.sched.left = [] ∧ (t.chip w).round = (s.chip w).round ∧ t.chip w.other = s.chip w.other) ∧
  (∀ (w : Twin) (j : Nat) (s : State), (s.chip w).up = true → (s.chip w).jobsGoOn = false →
    (s.chip w).clk.promote = none → (s.chip w).closeRound.starved = some j →
    ∃ t, exec (.starvePromote w) s = .next t ∧ (t.chip w).clk.promote = some j ∧
      (t.chip w).count K.CLK_PROMOTIONS = ((s.chip w).count K.CLK_PROMOTIONS + 1) % 2 ^ 48 ∧
      (t.chip w).is F.CLK_EV_STARVE_PROMOTE = true ∧ t.chip w.other = s.chip w.other) ∧
  (∀ (w : Twin) (s : State), (s.chip w).up = true → (s.chip w).clk.deliveryN ≤ (s.chip w).clk.deliveryRound →
    ∃ t, exec (.deliveryBoundary w) s = .next t ∧ (t.chip w).clk.deliveryNo = ((s.chip w).clk.deliveryNo + 1) % 2 ^ 32 ∧
      (t.chip w).snapDelivery = (s.chip w).clk.deliveryNo ∧ (t.chip w).snap = (s.chip w).closeRound.live ∧ (t.chip w).clk.deliveryRound = 0 ∧
      (t.chip w).round = (s.chip w).round ∧ t.chip w.other = s.chip w.other)

/-- From R52, R54: on a chip that runs, a requester that may write the page, and the twin left as it was: ENABLE takes a page from OFF to CHECKING; ENABLE 0
is stored in a RUNNING page that may stop, which drains; QUIESCE is stored in a RUNNING page (the governor's only while memory is not active);
with QUIESCE 0 a quiesced page goes to CHECKING; FREEZE_CFG freezes a page that is off; two Rounds after its trigger a check that every stage passes,
the twin's stored values included where they are compared, takes the page to RUNNING; a RUNNING page without ENABLE is OFF once drained; a fault
takes a page to FAULT and raises its bit 30. -/
def Obligations.PageStatesComplete : Prop :=
  (∀ (w : Twin) (rq : Requester) (page : Nat) (s : State), (s.chip w).up = true → blockOf page ≠ 0 →
    (s.chip w).mayWrite rq page = true → (s.chip w).pageState page = 0 →
    ∃ t, exec (.pageEnable w rq page) s = .next t ∧ (t.chip w).pageState page = 1 ∧
      ((t.chip w).rd page 0x008).getLsbD 0 = true ∧ t.chip w.other = s.chip w.other) ∧
  (∀ (w : Twin) (rq : Requester) (page : Nat) (s : State), (s.chip w).up = true → blockOf page ≠ 0 →
    (s.chip w).mayWrite rq page = true → (s.chip w).pageState page = 2 → (s.chip w).stopCode page = 0 →
    ((s.chip w).rd page 0x008).getLsbD 1 = false →
    ∃ t, exec (.pageDisable w rq page) s = .next t ∧ (t.chip w).pageState page = 2 ∧
      ((t.chip w).rd page 0x008).getLsbD 0 = false ∧ t.chip w.other = s.chip w.other) ∧
  (∀ (w : Twin) (rq : Requester) (page : Nat) (s : State), (s.chip w).up = true → blockOf page ≠ 0 →
    (s.chip w).mayWrite rq page = true → (s.chip w).pageState page = 2 → ((s.chip w).rd page 0x008).getLsbD 0 = true →
    (page = 0x0D0 → (s.chip w).memActive = false) →
    ∃ t, exec (.pageQuiesce w rq page) s = .next t ∧ (t.chip w).pageState page = 2 ∧
      ((t.chip w).rd page 0x008).getLsbD 1 = true ∧ t.chip w.other = s.chip w.other) ∧
  (∀ (w : Twin) (rq : Requester) (page : Nat) (s : State), (s.chip w).up = true → blockOf page ≠ 0 →
    (s.chip w).mayWrite rq page = true → (s.chip w).pageState page = 4 → ((s.chip w).rd page 0x008).getLsbD 0 = true →
    ∃ t, exec (.pageUnquiesce w rq page) s = .next t ∧ (t.chip w).pageState page = 1 ∧
      ((t.chip w).rd page 0x008).getLsbD 1 = false ∧ t.chip w.other = s.chip w.other) ∧
  (∀ (w : Twin) (rq : Requester) (page : Nat) (s : State), (s.chip w).up = true → blockOf page ≠ 0 →
    (s.chip w).mayWrite rq page = true → (s.chip w).pageState page = 0 → ((s.chip w).rd page 0x008).getLsbD 0 = false →
    ∃ t, exec (.freezeCfg w rq page) s = .next t ∧ (t.chip w).pageState page = 0 ∧
      (t.chip w).frozen page = true ∧ t.chip w.other = s.chip w.other) ∧
  (∀ (w : Twin) (page : Nat) (s : State), (s.chip w).up = true → (s.chip w).pageState page = 1 →
    ((s.chip w).rd page 0x008).getLsbD 0 = true → (s.chip w).checkStages page = none → (pairScope page = true → s.compares w = true → (s.chip w).stageTwin (s.chip w.other) page = none) →
    (s.chip w).checks.get (fun _ => 0) page + 2 ≤ (s.chip w).round → (page = 0x0A1 → (s.chip w).domainsCheck (s.chip w.other) = none) →
    ∃ t, exec (.pageCheckDone w page) s = .next t ∧ (t.chip w).pageState page = 2 ∧ t.chip w.other = s.chip w.other) ∧
  (∀ (w : Twin) (page : Nat) (s : State), (s.chip w).up = true → (s.chip w).pageState page = 2 →
    ((s.chip w).rd page 0x008).getLsbD 0 = false →
    ∃ t, exec (.pageDrained w page) s = .next t ∧ (t.chip w).pageState page = 0 ∧ t.chip w.other = s.chip w.other) ∧
  (∀ (w : Twin) (page : Nat) (s : State), (s.chip w).up = true → (s.chip w).pageState page = 2 →
    ∃ t, exec (.pageFault w page) s = .next t ∧ (t.chip w).pageState page = 5 ∧
      ((t.chip w).rd page 0x010).getLsbD 30 = true ∧ t.chip w.other = s.chip w.other)

/-- From R51: by a requester that may write the page, on a chip that runs, the twin left as it was: a write of EVT_STATUS clears the bits written and no
other, where no event sets one in that cycle; EVT_FORCE sets a bit of the page's events; EVT_ENABLE takes the written word. -/
def Obligations.EventRegistersComplete : Prop :=
  (∀ (w : Twin) (rq : Requester) (page : Nat) (bits : Word) (s : State), (s.chip w).up = true → blockOf page ≠ 0 →
    (s.chip w).mayWrite rq page = true →
    ∃ t, exec (.evtStatusClear w rq page bits 0) s = .next t ∧
      (t.chip w).rd page 0x010 = (s.chip w).rd page 0x010 &&& ~~~bits ∧ t.chip w.other = s.chip w.other) ∧
  (∀ (w : Twin) (rq : Requester) (page : Nat) (bits : Word) (b : Nat) (s : State), (s.chip w).up = true → blockOf page ≠ 0 →
    (s.chip w).mayWrite rq page = true → (eventBits page).contains b = true → bits.getLsbD b = true →
    ∃ t, exec (.evtForce w rq page bits) s = .next t ∧ ((t.chip w).rd page 0x010).getLsbD b = true ∧
      t.chip w.other = s.chip w.other) ∧
  (∀ (w : Twin) (rq : Requester) (page : Nat) (bits : Word) (s : State), (s.chip w).up = true → blockOf page ≠ 0 →
    (s.chip w).mayWrite rq page = true →
    ∃ t, exec (.evtEnableWrite w rq page bits) s = .next t ∧ (t.chip w).rd page 0x014 = bits ∧ t.chip w.other = s.chip w.other)

/-- From R55, R56: by a requester that may write the page, on a chip that runs, for a page that brings nothing about in other blocks and whose configuration
is not frozen: while the page does not run, a word from offset 0x100 that no write clears is stored, in the bits that the page stores, and every
other word of every page but that of the page's TWIN_AGREE is as it was; in a page neither CHECKING nor RUNNING, SOFT_RESET takes CTRL and the
configuration words back to their reset values. The twin is as it was. -/
def Obligations.ConfigurationWordsComplete : Prop :=
  (∀ (w : Twin) (rq : Requester) (page off : Nat) (v : BitVec 64) (s : State), (s.chip w).up = true → plainPage page = true →
    (s.chip w).mayWrite rq page = true → (s.chip w).running page = false → (s.chip w).frozen page = false →
    0x100 ≤ off → off < 0x800 → off % 4 = 0 → clearMask page off = 0 →
    ∃ t, exec (.registerWrite w rq ⟨page, off, 4, v⟩) s = .next t ∧
      (t.chip w).rd page off = underBits ((s.chip w).rd page off) (v.setWidth 32) (storedMask page off) ∧
      (∀ p o, o < 4096 → (p ≠ page ∨ (o ≠ off ∧ o ≠ 0x028)) → (t.chip w).rd p o = (s.chip w).rd p o) ∧
      t.chip w.other = s.chip w.other) ∧
  (∀ (w : Twin) (rq : Requester) (page off : Nat) (s : State), (s.chip w).up = true → plainPage page = true →
    (s.chip w).mayWrite rq page = true → (s.chip w).pageState page ≠ 1 → (s.chip w).pageState page ≠ 2 →
    (s.chip w).frozen page = false → 0x100 ≤ off → off < 0x800 →
    ∃ t, exec (.softReset w rq page) s = .next t ∧ (t.chip w).rd page off = resetWord page off ∧
      (t.chip w).rd page 0x008 = 0 ∧ t.chip w.other = s.chip w.other)

/-- From R42, R43, R59: by a requester with the right, on a chip that runs, for an access of a good form to a page that exists: a read of the peer's page is
answered with ones where the peer cannot be reached, and else its envelope is sent; a write of it is sent; a write of 4 bytes through the pair alias
that is no doorbell waits, with the chip and the Round that accepted it; two Rounds later the one such write that waits on both chips is stored by both,
in the bits that its plain, stopped, unfrozen page stores; the peer's answer to a read, received in its order by a chip that is not isolated, answers the
requester that waits for it. -/
def Obligations.PageAccessesComplete : Prop :=
  (∀ (w : Twin) (rq : Requester) (page off size : Nat) (s : State), (s.chip w).up = true → goodAccess off size = true →
    blockOf page ≠ 0 → (s.chip w).mayRead rq page = true →
    ∃ t, exec (.peerPageRead w rq page off size) s = .next t ∧ t.chip w.other = s.chip w.other ∧
      (s.reaches w = false → (t.chip w).answers = (s.chip w).answers ++ [⟨rq, onesOf size, 0⟩]) ∧
      (s.reaches w = true → (s.chip w).linkSends = true → (s.chip w).link.replay.length < 512 →
        (t.chip w).link.tx = (s.chip w).link.tx ++ [(s.chip w).nextEnvelope (.accessRead rq page off size)])) ∧
  (∀ (w : Twin) (rq : Requester) (x : PageWrite) (s : State), (s.chip w).up = true → goodAccess x.off x.size = true →
    blockOf x.page ≠ 0 → (s.chip w).mayWrite rq x.page = true → s.reaches w = true → (s.chip w).linkSends = true →
    (s.chip w).link.replay.length < 512 →
    ∃ t, exec (.peerPageWrite w rq x) s = .next t ∧ t.chip w.other = s.chip w.other ∧
      (t.chip w).link.tx = (s.chip w).link.tx ++ [(s.chip w).nextEnvelope (.accessWrite rq x)]) ∧
  (∀ (w : Twin) (rq : Requester) (page off : Nat) (v : BitVec 64) (s : State), (s.chip w).up = true → goodAccess off 4 = true →
    blockOf page ≠ 0 → isDoorbell page off = false → (s.chip w).mayWrite rq page = true →
    ∃ t, exec (.pairAliasWrite w rq ⟨page, off, 4, v⟩) s = .next t ∧ t.chip w.other = s.chip w.other ∧
      (t.chip w).twe.aliasQ = (s.chip w).twe.aliasQ ++ [⟨(s.chip w).twin, (s.chip w).round, rq, ⟨page, off, 4, v⟩⟩]) ∧
  (∀ (page off : Nat) (v : BitVec 64) (a : AliasWrite) (s : State), a.x = ⟨page, off, 4, v⟩ → s.a.up = true → s.b.up = true →
    s.a.twe.aliasQ = [a] → s.b.twe.aliasQ = [a] → a.round + 2 ≤ s.a.round → a.round + 2 ≤ s.b.round → plainPage page = true →
    s.a.running page = false → s.b.running page = false → s.a.frozen page = false → s.b.frozen page = false →
    0x100 ≤ off → off < 0x800 → clearMask page off = 0 →
    ∃ t, exec .aliasWriteApply s = .next t ∧ ∀ w : Twin, (t.chip w).twe.aliasQ = [] ∧
      (t.chip w).rd page off = underBits ((s.chip w).rd page off) (v.setWidth 32) (storedMask page off)) ∧
  (∀ (w : Twin) (rq : Requester) (v : BitVec 64) (e : Envelope) (s : State), s.arriving w = some e → e.body = .accessAnswer rq v →
    Chip.seqAfter e.seq (s.chip w).link.rxSeq = 1 → (s.chip w).mode ≠ mISOLATED →
    ((s.chip w).link.asked.any fun x => x.1 == rq) = true →
    ∃ t, exec (.envAccess w) s = .next t ∧ (t.chip w).answers = (s.chip w).answers ++ [⟨rq, v, 0⟩] ∧
      (t.chip w).link.rxSeq = e.seq ∧ (t.chip w.other).link.tx = (s.chip w.other).link.tx.tail)

/-- From R86, R540, R541, R569, R570: on a chip that runs, the twin left as it was: where the bus acknowledges, a good page message of an aligned offset for
this chip reads a register (but those of page 0x115), or writes a configuration word of a plain, stopped, unfrozen page that the endpoint may write, and
is answered; a Fabric Manager command that the mailbox does not support is answered with Unsupported (code 3 in 16 bits, after the message type and the
opcode), one that it answers with code 0 and its output; while debug is open, SYSBUS reads a word of a chip page (but of page 0x115) as the debug
port does. -/
def Obligations.ManagementAccessesComplete : Prop :=
  (∀ (w : Twin) (x : PageMessage) (s : State), (s.chip w).up = true → (s.chip w).acking = true → PageMessage.ok x = true →
    x.off.toNat % 4 = 0 → x.off.toNat < 4096 → PageMessage.target x w = w → x.page.toNat ≠ 0x115 →
    ∃ t, exec (.pageRead w x) s = .next t ∧ t.chip w.other = s.chip w.other ∧
      (t.chip w).answers = (s.chip w).answers ++
        [⟨.mctp, (((s.chip w).takePage .mctp x.page.toNat x.off.toNat 4).2.setWidth 32).setWidth 64, 0⟩]) ∧
  (∀ (w : Twin) (x : PageMessage) (s : State), (s.chip w).up = true → (s.chip w).acking = true → PageMessage.ok x = true →
    x.off.toNat % 4 = 0 → 0x100 ≤ x.off.toNat → x.off.toNat < 0x800 → x.chip ≠ 2 → PageMessage.target x w = w →
    plainPage x.page.toNat = true → (s.chip w).mayWrite .mctp x.page.toNat = true → (s.chip w).running x.page.toNat = false →
    (s.chip w).frozen x.page.toNat = false → clearMask x.page.toNat x.off.toNat = 0 →
    ∃ t, exec (.pageWrite w x) s = .next t ∧ t.chip w.other = s.chip w.other ∧
      (t.chip w).rd x.page.toNat x.off.toNat =
        underBits ((s.chip w).rd x.page.toNat x.off.toNat) x.data (storedMask x.page.toNat x.off.toNat) ∧
      (t.chip w).answers = (s.chip w).answers ++ [⟨.mctp, 0, 0⟩]) ∧
  (∀ (w : Twin) (opcode : BitVec 16) (s : State), (s.chip w).up = true → (s.chip w).acking = true →
    (mailOpcodes.find? fun x => x.1 == opcode.toNat) = none → (s.chip w).mti.tx.length < 8 →
    ∃ t, exec (.fmApiCommand w opcode) s = .next t ∧ t.chip w.other = s.chip w.other ∧
      (t.chip w).mti.tx = (s.chip w).mti.tx ++ [[0x07] ++ bytesLE 2 opcode.toNat ++ bytesLE 2 3]) ∧
  (∀ (w : Twin) (out : List Byte) (x : Nat × Bool × Nat) (opcode : BitVec 16) (s : State), (s.chip w).up = true →
    (s.chip w).acking = true → (mailOpcodes.find? fun x => x.1 == opcode.toNat) = some x → x.2.1 = false →
    s.fabricReply w opcode.toNat = some out → (s.chip w).mti.tx.length < 8 →
    ∃ t, exec (.fmApiCommand w opcode) s = .next t ∧ t.chip w.other = s.chip w.other ∧
      (t.chip w).mti.tx = (s.chip w).mti.tx ++ [[0x07] ++ bytesLE 2 opcode.toNat ++ bytesLE 2 0 ++ out]) ∧
  (∀ (w : Twin) (page off : Nat) (s : State), (s.chip w).up = true → (s.chip w).tapCode 0x21 = 0x21 → page < 4096 → off < 4096 →
    off % 4 = 0 → blockOf page ≠ 0 → page ≠ 0x115 →
    ∃ t, exec (.tapSysbus w ⟨0x40000000 + page * 4096 + off, 4, none⟩) s = .next t ∧ t.chip w.other = s.chip w.other ∧
      (t.chip w).tap.instr = 0x21 ∧
      (t.chip w).answers = (s.chip w).answers ++ [⟨.debugPort, (((s.chip w).tapLoad 0x21).pageWord .debugPort page off).setWidth 64, 0⟩])

/-! ## Heads and host links (R64 to R111) -/

/-- From R66, R67, R98, R100 to R102: a link that its home may train is in L0 at the rate, width and flit mode of the rules, where these are no less than
the port asks for; one that waited for its retry may train again; one that leaves L0 by any way but a move to itself or to L1 is in the state it went
to; on the carbon a link in acquisition, for which a frame has come, is tracked; one past its limit or lost reads LOST, and a Round later is
acquired again; a flit fetched, in either direction, is noted as missed and asked of the home. -/
def Obligations.HostLinksComplete : Prop :=
  (∀ (w : Twin) (h : Fin 24) (x : LinkTraining) (rate width flit : Nat) (s : State), s.homeOf (portOf h) = some w →
    (s.chip w).transmits (portOf h) = true → (s.chip w).mayTrain h = true →
    rate = min x.rate.val ((s.chip w).cfg (F.HP_PORT_CFG_MAX_RATE (portOf h).val)) →
    width = min x.width.val (min ((s.chip w).groupWidth h) (Nat.log2 (Chip.laneCount ((s.chip w).lanesFor h)))) →
    (s.chip w).flitMode (portOf h).val rate x = some flit → flit < 4 →
    (s.chip w).cfg (F.HP_DEGRADE_CFG_MIN_WIDTH (portOf h).val) ≤ width → (s.chip w).cfg (F.HP_DEGRADE_CFG_MIN_RATE (portOf h).val) ≤ rate →
    ∃ t, exec (.linkTrained h x) s = .next t ∧ (t.chip w).ltssm h = 3 ∧ (t.chip w).get (F.HLNK_LINK_RATE h.val) = rate ∧
      (t.chip w).get (F.HLNK_LINK_WIDTH h.val) = width ∧ (t.chip w).get (F.HLNK_LINK_FLIT h.val) = flit) ∧
  (∀ (w : Twin) (h : Fin 24) (s : State), (s.chip w).up = true →
    ∃ t, exec (.linkDegradeRetry h) s = .next t ∧ (t.chip w).head h = { (s.chip w).head h with retryWait := false } ∧
      ∀ i : Fin 24, i ≠ h → (t.chip w).head i = (s.chip w).head i) ∧
  (∀ (w : Twin) (h : Fin 24) (dest : Fin 9) (ns : Nat) (s : State), s.homeOf (portOf h) = some w → (s.chip w).ltssm h = 3 →
    dest.val ≠ 3 → dest.val ≠ 5 →
    ∃ t, exec (.linkLeftL0 h dest ns) s = .next t ∧ (t.chip w).ltssm h = dest.val) ∧
  (∀ (w : Twin) (h : Fin 24) (ns : Nat) (x : ContSlot) (s : State), (s.chip w).up = true → (s.chip w).isCarbon (portOf h) = true →
    (s.chip w).trackState h = 1 → (s.chip w).contSlot h = some x → (s.chip w).frameSince h = true →
    ∃ t, exec (.carbonAcquired w h ns) s = .next t ∧ (t.chip w).trackState h = 2 ∧
      (t.chip w).is (F.CARB_EV_TRACK_ACQUIRED (portOf h).val) = true ∧ t.chip w.other = s.chip w.other) ∧
  (∀ (w : Twin) (h : Fin 24) (s : State), (s.chip w).up = true → (s.chip w).trackState h = 1 →
    ((s.chip w).head h).track.enteredRound + (s.chip w).cfg (F.CARB_CARBON_CFG_ACQ_LIMIT (portOf h).val) ≤ (s.chip w).round →
    ∃ t, exec (.acqLimitExpiry w h) s = .next t ∧ (t.chip w).trackState h = 3 ∧ t.chip w.other = s.chip w.other) ∧
  (∀ (w : Twin) (h : Fin 24) (s : State), (s.chip w).isCarbon (portOf h) = true → (s.chip w).trackState h = 3 →
    ((s.chip w).head h).track.enteredRound < (s.chip w).round →
    ∃ t, exec (.lostRetry w h) s = .next t ∧ (t.chip w).trackState h = 1 ∧
      ((t.chip w).head h).track.enteredRound = (s.chip w).round ∧ t.chip w.other = s.chip w.other) ∧
  (∀ (w : Twin) (h : Fin 24) (s : State), (s.chip w).up = true → (s.chip w).trackState h = 2 →
    ∃ t, exec (.trackLost w h) s = .next t ∧ (t.chip w).trackState h = 3 ∧
      (t.chip w).is (F.CARB_EV_TRACK_LOST (portOf h).val) = true ∧ t.chip w.other = s.chip w.other) ∧
  (∀ (w : Twin) (h : Fin 24) (dir : Direction) (flit : Nat) (s : State), (s.chip w).up = true → (s.chip w).trackState h = 2 →
    (s.chip w).linkSends = true → (s.chip w).link.replay.length < 512 →
    ∃ t, exec (.flitFetch w h dir flit) s = .next t ∧
      (match dir with
        | .hostToDevice => ((t.chip w).head h).track.missed
        | .deviceToHost => ((t.chip w).head h).track.missedDown).contains flit = true ∧
      (t.chip w).link.tx = (s.chip w).link.tx ++ [(s.chip w).nextEnvelope (.fetchAsk h dir flit)] ∧
      t.chip w.other = s.chip w.other)

/-- From R75, R76, R79 to R82, R155: for a head whose host reaches it: an uncommitted decoder that passes its checks while memory is active is committed as
programmed; a decoder that is not both committed and locked takes what a configuration write programs; a word of configuration space takes the word
written; DOE Discovery answers with the entry of its table, CDAT Table Access with the entry of the head's CDAT and the number of the next; D0
entry leaves the head in D0. -/
def Obligations.HeadConfigurationComplete : Prop :=
  (∀ (w : Twin) (h : Fin 24) (n : Fin 16) (s : State), s.linkIn h = true → s.homeOf (portOf h) = some w →
    ((s.chip w).decoder h n.val).committed = false → (s.chip w).memActive = true → (s.chip w).decoderReason h n.val = 0 →
    ∃ t, exec (.decoderCommit h n) s = .next t ∧ ((t.chip w).decoder h n.val).committed = true ∧
      ((t.chip w).decoder h n.val).cfg = ((s.chip w).decoder h n.val).cfg) ∧
  (∀ (w : Twin) (h : Fin 24) (n : Fin 16) (d : DecoderCfg) (s : State), s.linkIn h = true → s.homeOf (portOf h) = some w →
    (((s.chip w).decoder h n.val).committed && ((s.chip w).decoder h n.val).cfg.lock) = false →
    ∃ t, exec (.cxlIoConfigWrite h (.decoder n d)) s = .next t ∧ (t.chip w).decoder h n.val = { cfg := d }) ∧
  (∀ (w : Twin) (h : Fin 24) (off : Nat) (d : Word) (s : State), s.linkIn h = true → s.homeOf (portOf h) = some w →
    ∃ t, exec (.cxlIoConfigWrite h (.other off d)) s = .next t ∧ ((t.chip w).head h).cfgSpace.get (fun _ => 0) off = d) ∧
  (∀ (w : Twin) (h : Fin 24) (index : Nat) (s : State), s.linkIn h = true → s.homeOf (portOf h) = some w →
    ∃ t, exec (.doeDiscovery h index) s = .next t ∧ ((t.chip w).head h).doeReply = { words := Chip.doeObject index } ∧
      t.chip w.other = s.chip w.other) ∧
  (∀ (w : Twin) (h : Fin 24) (entry : Nat) (e : List Nat) (s : State), s.linkIn h = true → s.homeOf (portOf h) = some w →
    ((s.chip w).cdat h)[entry]? = some e →
    ∃ t, exec (.cdatTableAccess h entry) s = .next t ∧
      ((t.chip w).head h).doeReply = { words := (if entry + 1 < ((s.chip w).cdat h).length then entry + 1 else 0xFFFF) :: e } ∧
      t.chip w.other = s.chip w.other) ∧
  (∀ (w : Twin) (h : Fin 24) (s : State), s.linkIn h = true → s.homeOf (portOf h) = some w →
    ∃ t, exec (.d0Entry h) s = .next t ∧ (t.chip w).get (F.HLNK_LINK_D_STATE h.val) = 0)

/-- From R93, R95: at the home, and with the twin as it was: a moderator whose causes reach its count sends the vector's message, unmasked, to a head in D0
whose link is in L0, and its count starts again; GPF phase 1 is answered at once; phase 2 notes the writes accepted before it, and is answered,
with GPF_DONE, once both WMBs hold them. -/
def Obligations.HeadMessagesComplete : Prop :=
  (∀ (w : Twin) (h : Fin 24) (v : Fin 64) (s : State), s.homeOf (portOf h) = some w → (s.chip w).ltssm h = 3 →
    (s.chip w).cfg (F.HCFG_MSIX_MOD_COUNT h.val v.val) ≤ ((s.chip w).vec h v.val).causes → 1 ≤ ((s.chip w).vec h v.val).causes →
    ((s.chip w).vec h v.val).masked = false → (s.chip w).get (F.HLNK_LINK_D_STATE h.val) = 0 →
    ∃ t, exec (.msixModeratorFire h v false) s = .next t ∧ ((t.chip w).vec h v.val).causes = 0 ∧
      (((t.chip w).head h).txHist.getLast?.map fun x => (x.flit, x.msg)) = some ((((s.chip w).head h).txCount + 1) % 2 ^ 36,
        .msix v.val ((s.chip w).vec h v.val).addr ((s.chip w).vec h v.val).data) ∧ t.chip w.other = s.chip w.other) ∧
  (∀ (w : Twin) (h : Fin 24) (s : State), s.linkIn h = true → s.homeOf (portOf h) = some w →
    ∃ t, exec (.gpfPhase1 h) s = .next t ∧
      (((t.chip w).head h).txHist.getLast?.map fun x => (x.flit, x.msg)) = some ((((s.chip w).head h).txCount + 1) % 2 ^ 36, .gpfDone 1) ∧
      t.chip w.other = s.chip w.other) ∧
  (∀ (w : Twin) (h : Fin 24) (s : State), s.linkIn h = true → s.homeOf (portOf h) = some w →
    ∃ t, exec (.gpfPhase2 h) s = .next t ∧ (t.chip w).head h = { (s.chip w).head h with gpf2 := some s.acceptedWrites } ∧
      t.chip w.other = s.chip w.other) ∧
  (∀ (w : Twin) (h : Fin 24) (l : List (Fin 24 × Nat)) (s : State), s.linkIn h = true → s.homeOf (portOf h) = some w →
    ((s.chip w).head h).gpf2 = some l → s.heldByBoth l = true →
    ∃ t, exec (.gpfPhase2Done h) s = .next t ∧ ((t.chip w).head h).gpf2 = none ∧
      (((t.chip w).head h).txHist.getLast?.map fun x => x.msg) = some (.gpfDone 2) ∧
      (t.chip w).is (F.HCFG_EV_GPF_DONE h.val) = true ∧ t.chip w.other = s.chip w.other)

/-- From R96, R585: hot reset, Secondary Bus Reset, FLR and CXL Reset of a head that exists, on each chip that runs: its receive queues, sessions, MSI-X
entries, configuration space and interrupt policy are empty, its event logs keep their records, its mailbox command ends unless it is a background operation, its
decoders are uncommitted unless committed and locked, which stay as they are; hot reset and Secondary Bus Reset take its link to Detect. PERST_N low
holds every head of its port in reset, high lets it go. -/
def Obligations.HeadResetsComplete : Prop :=
  (∀ (i : Instr) (w : Twin) (h : Fin 24) (s : State), i = .hotReset h ∨ i = .secondaryBusReset h ∨ i = .headFlr h ∨ i = .cxlReset h →
    (s.chip w).up = true → (s.chip w).headExists h = true →
    ∃ t, exec i s = .next t ∧ ((t.chip w).head h).reqQ = [] ∧ ((t.chip w).head h).rwdQ = [] ∧ ((t.chip w).head h).sessions = [] ∧
      ((t.chip w).head h).vecs = [] ∧ ((t.chip w).head h).cfgSpace = [] ∧ ((t.chip w).head h).policy = [] ∧
      (∀ l : Fin 4, ((s.chip w).log h l.val).recs <+: ((t.chip w).log h l.val).recs) ∧
      ((((s.chip w).head h).mailBusy.any Chip.backgroundOp) = false → ((t.chip w).head h).mailBusy = none) ∧
      (∀ n : Fin 16, if ((s.chip w).decoder h n.val).committed && ((s.chip w).decoder h n.val).cfg.lock
        then (t.chip w).decoder h n.val = (s.chip w).decoder h n.val else ((t.chip w).decoder h n.val).committed = false)) ∧
  (∀ (i : Instr) (w : Twin) (h : Fin 24) (s : State), i = .hotReset h ∨ i = .secondaryBusReset h → (s.chip w).up = true →
    (s.chip w).headExists h = true → ∃ t, exec i s = .next t ∧ (t.chip w).ltssm h = 0) ∧
  (∀ (w : Twin) (p : Fin 6) (h : Fin 24) (s : State), portOf h = p → (s.chip w).up = true → (s.chip w).headExists h = true →
    ∃ t, exec (.perstAssert p) s = .next t ∧ ((t.chip w).head h).inReset = true ∧ ((t.chip w).head h).rwdQ = [] ∧ (t.chip w).ltssm h = 0) ∧
  (∀ (w : Twin) (p : Fin 6) (h : Fin 24) (s : State), portOf h = p →
    ∃ t, exec (.perstDeassert p) s = .next t ∧ ((t.chip w).head h).inReset = false)

/-- From R113, R123, R239: a MemRd or MemRdData of a link in L0, whose head holds a credit and has no request waiting, that meets every admission condition
and falls on a private line whose 64 bytes the home's WMB holds without poison, is answered with those bytes, without grant. -/
def Obligations.ReadsForwardFromTheWmb : Prop :=
  ∀ (w : Twin) (r : Request) (v : Arrival) (i : Instr) (k : ReqKind) (m : Fin 4) (dpa : Nat) (s : State),
    (i = .memRd r v ∧ k = .memRd ∧ m = r.metaValue) ∨ (i = .memRdData r v ∧ k = .memRdData ∧ m = 3) →
    s.homeOf (portOf r.head) = some w → (s.chip w).inL0 r.head = true → (s.chip w).hasCredit r.head false = true →
    ((s.chip w).head r.head).reqQ = [] → ((s.chip w).head r.head).rwdQ = [] →
    (s.chip w).decodeHpa r.head r.hpa = some dpa → (s.chip w).inCommons dpa = false →
    (s.chip w).failing { r with kind := k, metaValue := m } = none →
    ((s.chip w).wmbEntry (lineBase dpa)).state = .valid → ((s.chip w).wmbEntry (lineBase dpa)).mask = allBytes →
    ((s.chip w).wmbEntry (lineBase dpa)).poison = false →
    ∃ t, exec i s = .next t ∧ ((t.chip w).head r.head).reqQ = [] ∧
      (((t.chip w).head r.head).txHist.getLast?.map fun x => x.msg) =
        some (.memData r.pos (lineBase dpa) ((s.chip w).wmbEntry (lineBase dpa)).data false 0)

/-- From R113, R122, R238: a MemInv or MemInvNT of a link in L0, whose head holds a credit and has no request waiting, that meets every admission condition
and falls on a line outside the commons, is answered with Cmp, without grant. -/
def Obligations.InvalidatesAnswerCmp : Prop :=
  ∀ (w : Twin) (r : Request) (v : Arrival) (i : Instr) (k : ReqKind) (dpa : Nat) (s : State),
    (i = .memInv r v ∧ k = .memInv) ∨ (i = .memInvNt r v ∧ k = .memInvNT) →
    s.homeOf (portOf r.head) = some w → (s.chip w).inL0 r.head = true → (s.chip w).hasCredit r.head false = true →
    ((s.chip w).head r.head).reqQ = [] → ((s.chip w).head r.head).rwdQ = [] →
    (s.chip w).decodeHpa r.head r.hpa = some dpa → (s.chip w).inCommons dpa = false →
    (s.chip w).failing { r with kind := k } = none →
    ∃ t, exec i s = .next t ∧ (((t.chip w).head r.head).txHist.getLast?.map fun x => x.msg) = some (.cmp r.pos 0)

/-- From R113, R125, R126: a write of a link in L0, whose head holds a credit and has no request waiting, that meets every admission condition, on a private
line: a MemWr leaves the home's WMB entry of the line with its 64 bytes, all valid, and its poison; a MemWrPtl that enables a byte leaves the entry
with its enabled bytes over those it held, the bytes held or enabled valid, and poisoned where either was. A free entry becomes VALID, any other keeps
its state; no other line's entry changes. A MemWrPtl that enables no byte leaves the WMB as it was. -/
def Obligations.WritesEnterTheWmb : Prop :=
  (∀ (w : Twin) (r : Request) (v : Arrival) (dpa : Nat) (s : State), s.homeOf (portOf r.head) = some w →
    (s.chip w).inL0 r.head = true → (s.chip w).hasCredit r.head true = true →
    ((s.chip w).head r.head).reqQ = [] → ((s.chip w).head r.head).rwdQ = [] →
    (s.chip w).decodeHpa r.head r.hpa = some dpa → (s.chip w).inCommons dpa = false →
    (s.chip w).failing { r with kind := .memWr, enables := allBytes } = none →
    ∃ t, exec (.memWr r v) s = .next t ∧ ((t.chip w).wmbEntry (lineBase dpa)).data = r.data ∧
      ((t.chip w).wmbEntry (lineBase dpa)).mask = allBytes ∧ ((t.chip w).wmbEntry (lineBase dpa)).poison = r.poison ∧
      ((t.chip w).wmbEntry (lineBase dpa)).state =
        (if ((s.chip w).wmbEntry (lineBase dpa)).state = .free then .valid else ((s.chip w).wmbEntry (lineBase dpa)).state) ∧
      (∀ l : Nat, lineBase l ≠ lineBase dpa → (t.chip w).wmbEntry l = (s.chip w).wmbEntry l)) ∧
  (∀ (w : Twin) (r : Request) (v : Arrival) (dpa : Nat) (e : WmbEntry) (s : State), s.homeOf (portOf r.head) = some w → r.enables ≠ 0 →
    (s.chip w).inL0 r.head = true → (s.chip w).hasCredit r.head true = true →
    ((s.chip w).head r.head).reqQ = [] → ((s.chip w).head r.head).rwdQ = [] →
    (s.chip w).decodeHpa r.head r.hpa = some dpa → (s.chip w).inCommons dpa = false →
    (s.chip w).failing { r with kind := .memWrPtl } = none → (s.chip w).wmbEntry (lineBase dpa) = e → (e.state = .free → e = {}) →
    ∃ t, exec (.memWrPtl r v) s = .next t ∧ ((t.chip w).wmbEntry (lineBase dpa)).data = mergeLine e.data r.data r.enables ∧
      ((t.chip w).wmbEntry (lineBase dpa)).mask = e.mask ||| r.enables ∧
      ((t.chip w).wmbEntry (lineBase dpa)).poison = (r.poison || e.poison) ∧
      ((t.chip w).wmbEntry (lineBase dpa)).state = (if e.state = .free then .valid else e.state) ∧
      (∀ l : Nat, lineBase l ≠ lineBase dpa → (t.chip w).wmbEntry l = (s.chip w).wmbEntry l)) ∧
  (∀ (w : Twin) (r : Request) (v : Arrival) (dpa : Nat) (s : State), s.homeOf (portOf r.head) = some w → r.enables = 0 →
    (s.chip w).inL0 r.head = true → (s.chip w).hasCredit r.head true = true →
    ((s.chip w).head r.head).reqQ = [] → ((s.chip w).head r.head).rwdQ = [] →
    (s.chip w).decodeHpa r.head r.hpa = some dpa → (s.chip w).inCommons dpa = false →
    (s.chip w).failing { r with kind := .memWrPtl } = none →
    ∃ t, exec (.memWrPtl r v) s = .next t ∧ (t.chip w).wmb = (s.chip w).wmb)

/-! ## The request path (R112 to R159, R231 to R260) -/

/-- From R113, R121, R241: at the home: the front request of a receive queue that meets every condition, and does not give way to the other queue, is admitted
and leaves its queue; a MemRd so admitted, of a private line whose 64 bytes the WMB holds without poison, is answered with them; a MemSpecRd of
a head without other requests, without room in its channel's queue, is dropped and counted and allocates no tag; one with room, to a line in DRAM that is
not in PPR of a channel with an open-page policy, leaves the line's row open; a conflict is acknowledged at once, and changes no directory entry. -/
def Obligations.QueuedAndSpeculativeComplete : Prop :=
  (∀ (w : Twin) (h : Fin 24) (write : Bool) (r : Request) (q : List Request) (s : State), s.homeOf (portOf h) = some w →
    Chip.queueOf ((s.chip w).head h) write = r :: q → r.head = h → isWrite r.kind = write → (s.chip w).failing r = none → (s.chip w).otherFirst h write = false →
    ∃ t, exec (.requestAdmit h write) s = .next t ∧ Chip.queueOf ((t.chip w).head h) write = q ∧
      Chip.queueOf ((t.chip w).head h) (!write) = Chip.queueOf ((s.chip w).head h) (!write) ∧ ((t.chip w).head h).lastWasReq = !write ∧
      t.chip w.other = s.chip w.other) ∧
  (∀ (w : Twin) (h : Fin 24) (r : Request) (q : List Request) (dpa : Nat) (s : State), s.homeOf (portOf h) = some w →
    ((s.chip w).head h).reqQ = r :: q → r.head = h → r.kind = .memRd → (s.chip w).failing r = none →
    (s.chip w).otherFirst h false = false → (s.chip w).decodeHpa h r.hpa = some dpa → (s.chip w).inCommons dpa = false →
    ((s.chip w).wmbEntry (lineBase dpa)).state = .valid → ((s.chip w).wmbEntry (lineBase dpa)).mask = allBytes →
    ((s.chip w).wmbEntry (lineBase dpa)).poison = false →
    ∃ t, exec (.requestAdmit h false) s = .next t ∧
      (((t.chip w).head h).txHist.getLast?.map fun x => x.msg) =
        some (.memData r.pos (lineBase dpa) ((s.chip w).wmbEntry (lineBase dpa)).data false 0) ∧
      t.chip w.other = s.chip w.other) ∧
  (∀ (w : Twin) (r : Request) (s : State), s.homeOf (portOf r.head) = some w → (s.chip w).inL0 r.head = true →
    (s.chip w).hasCredit r.head false = true → ((s.chip w).head r.head).reqQ = [] → ((s.chip w).head r.head).rwdQ = [] →
    (s.chip w).failing { r with kind := .memSpecRd } = none →
    ∃ t, exec (.memSpecRd r false) s = .next t ∧
      (t.chip w).count K.SRT_SPEC_DROPPED = ((s.chip w).count K.SRT_SPEC_DROPPED + 1) % 2 ^ 48 ∧
      (t.chip w).tags = (s.chip w).tags ∧ (t.chip w).chans = (s.chip w).chans) ∧
  (∀ (w : Twin) (r : Request) (dpa : Nat) (x : DramPlace) (s : State), s.homeOf (portOf r.head) = some w → (s.chip w).inL0 r.head = true →
    (s.chip w).hasCredit r.head false = true → ((s.chip w).head r.head).reqQ = [] → ((s.chip w).head r.head).rwdQ = [] →
    ((s.chip w).head r.head).noRoom = [] → (s.chip w).failing { r with kind := .memSpecRd } = none →
    (s.chip w).decodeHpa r.head r.hpa = some dpa → (s.chip w).inDram dpa = true → (s.chip w).cfgOn F.SRT_SRT_CFG_SPEC_EN = true →
    (s.chip w).place ((s.chip w).dramAddr dpa) = x → x.ch < 16 → (s.chip w).cfg (F.DCH_CH_CFG_PAGE_POLICY x.ch) = 0 →
    ((s.chip w).chan x.ch).pprFrom = none →
    ∃ t, exec (.memSpecRd r true) s = .next t ∧
      ((t.chip w).chan x.ch).rows.get (fun _ => none) x.bankKey = some x.row ∧ (t.chip w).tags = (s.chip w).tags) ∧
  (∀ (w : Twin) (h : Fin 24) (line : Nat) (s : State), s.homeOf (portOf h) = some w →
    ∃ t, exec (.biConflict h line) s = .next t ∧
      (((t.chip w).head h).txHist.getLast?.map fun x => x.msg) = some (.conflictAck line) ∧
      (t.chip w).che = (s.chip w).che ∧ (t.chip w).count K.SNP_CONFLICTS = ((s.chip w).count K.SNP_CONFLICTS + 1) % 2 ^ 48 ∧
      t.chip w.other = s.chip w.other)

/-- From R235, R238, R243, R253: at the home, with no access waiting, an answered snoop is no longer outstanding, and the entry of its line follows the answer:
BIRspI takes the head from an entry the home arbitrates; of a head that the entry holds, BIRspS leaves it SHARED with its presence and BIRspE
EXCLUSIVE to the head, its presence the head's bit; on a chip that waits for it, one that times out raises SNOOP_TIMEOUT; with no access waiting, the one
shadow entry of a domain that moves goes to a free way of SRAM, and the move is over. -/
def Obligations.SnoopsComplete : Prop :=
  (∀ (w : Twin) (h : Fin 24) (line : Nat) (s : State), s.homeOf (portOf h) = some w → (s.chip w).tags = [] →
    (s.chip w).che.ordered = [] → (s.chip w).che.early = [] → (s.chip w).che.snoops.any (fun x => x.line == line && x.head == h) = true →
    (s.chip w).che.shadow.get (fun _ => {}) (line / 64) = {} → (s.chip w).che.sram.get (fun _ => {}) (line / 64) ≠ {} →
    ∃ t, exec (.birspI h line) s = .next t ∧
      (t.chip w).che.snoops = (s.chip w).che.snoops.filter (fun x => !(x.line == line && x.head == h)) ∧
      Chip.present ((t.chip w).dirEntry line) h = false) ∧
  (∀ (w : Twin) (h : Fin 24) (line : Nat) (s : State), s.homeOf (portOf h) = some w → (s.chip w).tags = [] →
    (s.chip w).che.ordered = [] → (s.chip w).che.early = [] → (s.chip w).che.snoops.any (fun x => x.line == line && x.head == h) = true →
    Chip.present ((s.chip w).dirEntry line) h = true →
    ∃ t, exec (.birspS h line) s = .next t ∧
      (t.chip w).che.snoops = (s.chip w).che.snoops.filter (fun x => !(x.line == line && x.head == h)) ∧
      ((t.chip w).dirEntry line).state = 1 ∧ ((t.chip w).dirEntry line).presence = ((s.chip w).dirEntry line).presence) ∧
  (∀ (w : Twin) (h : Fin 24) (line : Nat) (s : State), s.homeOf (portOf h) = some w → (s.chip w).tags = [] →
    (s.chip w).che.ordered = [] → (s.chip w).che.early = [] → (s.chip w).che.snoops.any (fun x => x.line == line && x.head == h) = true →
    Chip.present ((s.chip w).dirEntry line) h = true →
    ∃ t, exec (.birspE h line) s = .next t ∧
      (t.chip w).che.snoops = (s.chip w).che.snoops.filter (fun x => !(x.line == line && x.head == h)) ∧
      ((t.chip w).dirEntry line).state = 2 ∧ ((t.chip w).dirEntry line).owner = h.val ∧
      ((t.chip w).dirEntry line).presence = 2 ^ h.val) ∧
  (∀ (w : Twin) (h : Fin 24) (line : Nat) (s : State), (s.chip w).che.snoops.any (fun x => x.line == line && x.head == h) = true →
    ∃ t, exec (.snoopTimeout h line) s = .next t ∧ (t.chip w).is F.SNP_EV_SNOOP_TIMEOUT = true) ∧
  (∀ (w : Twin) (d : Fin 64) (k v : Nat) (e : DirEntry) (s : State), (s.chip w).up = true → (s.chip w).tags = [] →
    (s.chip w).che.ordered = [] → (s.chip w).che.migrating.contains d.val = true → (s.chip w).che.shadow = [(k, e)] →
    (s.chip w).inDomain d.val (k * 64) = true → (s.chip w).freeWay ((s.chip w).dirSet (k * 64)) = some v →
    ∃ t, exec (.shadowMigrationDone w d) s = .next t ∧ (t.chip w).che.migrating.contains d.val = false ∧
      (t.chip w).che.shadow.get (fun _ => {}) k = {} ∧ (t.chip w).che.sram.get (fun _ => {}) k = { e with way := v } ∧
      t.chip w.other = s.chip w.other)

/-- From R122, R124, R269, R296, R302, R413, R418: on a chip that runs, the twin left as it was: the one read that waits for DRAM, issued already or next by
the channel's order and in tokens, is answered with its line where no device reads wrong and the line is not poisoned; a head's fill of the
translation cache is over once its metadata line is there; a fill range not ready is ready once filled; a metadata line that arrives is discarded
where it was marked, and else is held by the Metadata Cache where a way may be taken. -/
def Obligations.ReadsComplete : Prop :=
  (∀ (w : Twin) (line aged : Nat) (x : Tag) (s : State), (s.chip w).up = true → (s.chip w).tags = [x] →
    x.stage = .dram → x.isTag = true → x.dpa = line → x.fixed = false → (s.chip w).che.ordered = [] → ((s.chip w).fullLine line).2 = false →
    x.issued = true ∨ ((s.chip w).nextRead ((s.chip w).place ((s.chip w).dramAddr line)).ch aged = some x ∧
      (s.chip w).readMay ((s.chip w).place ((s.chip w).dramAddr line)).ch = true) →
    ((s.chip w).decode ((s.chip w).dramAddr line) 0).1 = .good →
    ∃ t, exec (.dramReadDone w line 0 aged) s = .next t ∧ (t.chip w).tags = [] ∧
      (((t.chip w).head x.req.head).txHist.getLast?.map fun x => x.msg) = some (.memData x.req.pos line ((s.chip w).fullLine line).1 false x.grant) ∧
      t.chip w.other = s.chip w.other) ∧
  (∀ (w : Twin) (h : Fin 24) (line : Nat) (s : State), (s.chip w).up = true → (s.chip w).mdc.invalidated = true →
    (s.chip w).trm.tcFill.get (fun _ => none) h.val = some line → (s.chip w).mdc.fills.any (fun x => x.1 == line) = false →
    (s.chip w).mdc.fillQueue.contains line = false → (s.chip w).tags = [] → (s.chip w).che.ordered = [] →
    ∃ t, exec (.translationFill w h line) s = .next t ∧ (t.chip w).trm.tcFill.get (fun _ => none) h.val = none ∧
      t.chip w.other = s.chip w.other) ∧
  (∀ (w : Twin) (range : Nat) (s : State), (s.chip w).up = true → (s.chip w).rangeReady range = false → range < (s.chip w).rangeCount →
    ∃ t, exec (.fillRangeDone w range) s = .next t ∧ (t.chip w).rangeReady range = true ∧ t.chip w.other = s.chip w.other) ∧
  (∀ (w : Twin) (line : Nat) (s : State), (s.chip w).up = true → (s.chip w).mdc.fills = [(line, true)] → (s.chip w).mdc.fillQueue = [] →
    ∃ t, exec (.mdcFillArrival w line) s = .next t ∧ (t.chip w).mdc.fills = [] ∧
      (t.chip w).count K.MDC_FILL_DISCARDS = ((s.chip w).count K.MDC_FILL_DISCARDS + 1) % 2 ^ 48 ∧
      (t.chip w).mdc.lines = (s.chip w).mdc.lines ∧ t.chip w.other = s.chip w.other) ∧
  (∀ (w : Twin) (line v : Nat) (s : State), (s.chip w).up = true → (s.chip w).mdc.fills = [(line, false)] → (s.chip w).mdc.fillQueue = [] →
    (s.chip w).mdcVictim ((s.chip w).mdcSet line) = some v →
    ∃ t, exec (.mdcFillArrival w line) s = .next t ∧ (t.chip w).mdc.fills = [] ∧ ((t.chip w).mdcWay ((s.chip w).mdcSet line) v).held = true ∧
      ((t.chip w).mdcWay ((s.chip w).mdcSet line) v).tag = line >>> 14 ∧ ((t.chip w).mdcWay ((s.chip w).mdcSet line) v).dirty = false ∧
      t.chip w.other = s.chip w.other)

/-- From R127, R128, R130, R134, R432: on a chip that runs, the twin left as it was: a VALID entry becomes eligible; an eligible entry, the oldest that may drain,
whose memory, range and patch store take it, whose channel has room and whose drain is in tokens, is issued with its bytes; an entry that is
draining, not written again, needs no merge that fails and lands in a frame, is free once the memory has its bytes: the line then holds the entry's
bytes where they are enabled and its old bytes elsewhere, and no other byte of the frames, packed parcels, patches or DRAM changes; a home port with a
local completion not yet covered by the carbon stalls, with LOCAL_STALL. -/
def Obligations.DrainsComplete : Prop :=
  (∀ (w : Twin) (line : Nat) (s : State), (s.chip w).up = true → ((s.chip w).wmbEntry line).state = .valid →
    ∃ t, exec (.drainEligible w line) s = .next t ∧
      (t.chip w).wmbEntry line = { (s.chip w).wmbEntry line with eligible := true } ∧
      (∀ l : Nat, l / 64 ≠ line / 64 → (t.chip w).wmbEntry l = (s.chip w).wmbEntry l) ∧ t.chip w.other = s.chip w.other) ∧
  (∀ (w : Twin) (line : Nat) (s : State), (s.chip w).up = true → ((s.chip w).wmbEntry line).state = .valid →
    ((s.chip w).wmbEntry line).eligible = true → (s.chip w).svc.held = false → (s.chip w).tierTakes line = true →
    (s.chip w).rangeReady ((s.chip w).lineRange line) = true → (s.chip w).patchWaits line = false → (s.chip w).drainHeld line = false →
    (s.chip w).oldestDrain line = true → (s.chip w).dramTakes line = true →
    ((s.chip w).joinsPartner line || (s.chip w).drainMay line) = true →
    ∃ t, exec (.drainIssue w ⟨line, true⟩) s = .next t ∧ ((t.chip w).wmbEntry line).state = .draining ∧
      ((t.chip w).wmbEntry line).issued = ((s.chip w).wmbEntry line).data ∧
      ((t.chip w).wmbEntry line).issuedMask = ((s.chip w).wmbEntry line).mask ∧
      (∀ l : Nat, l / 64 ≠ line / 64 → (t.chip w).wmbEntry l = (s.chip w).wmbEntry l) ∧ t.chip w.other = s.chip w.other) ∧
  (∀ (w : Twin) (line : Nat) (s : State), (s.chip w).up = true → line % 64 = 0 →
    ((s.chip w).wmbEntry line).state = .draining → ((s.chip w).wmbEntry line).redrain = false → (s.chip w).landsAsPatch line = false →
    ((s.chip w).twe.repairs.any fun x => x.1 == line) = false →
    ((s.chip w).mergesDram line ((s.chip w).wmbEntry line) = true → (s.chip w).trm.repairDue.contains line = false ∧
      ((s.chip w).decode ((s.chip w).dramAddr line) 0).1 = .good) →
    ∃ t, exec (.drainAccepted w line 0) s = .next t ∧ (t.chip w).wmbEntry line = {} ∧
      (∀ i : Fin 64, Table.get zeroByte (t.chip w).trm.front (line + i.val) =
        byteOf (mergeLine ((s.chip w).tierLine line).1 ((s.chip w).wmbEntry line).issued ((s.chip w).wmbEntry line).issuedMask) i.val) ∧
      (∀ a : Nat, a < line ∨ line + 64 ≤ a → Table.get zeroByte (t.chip w).trm.front a = Table.get zeroByte (s.chip w).trm.front a) ∧
      (t.chip w).trm.packed = (s.chip w).trm.packed ∧ (t.chip w).trm.patch = (s.chip w).trm.patch ∧
      (t.chip w).dram = (s.chip w).dram ∧ t.chip w.other = s.chip w.other) ∧
  (∀ (w : Twin) (p : Fin 6) (s : State), (s.chip w).up = true → (s.chip w).mirrored = true → (s.chip w).isHome p = true →
    ((portHeads p).any fun h => match ((s.chip w).head h).localPos with
      | some q => !covers ((s.chip w).head h).covered q
      | none => false) = true → (s.chip w).localStall.contains p.val = false →
    ∃ t, exec (.localStall w p) s = .next t ∧ (t.chip w).localStall = p.val :: (s.chip w).localStall ∧
      (t.chip w).is F.WMB_EV_LOCAL_STALL = true ∧ t.chip w.other = s.chip w.other)

/-! ## SPDM and the mailbox -/

/-- From R562, R563, R564: at the home of a head whose link is in L0 and not in reset, the twin left as it was: GET_VERSION is counted and answered with
1.2 and 1.3; GET_CAPABILITIES and NEGOTIATE_ALGORITHMS, asked in their order, take the negotiation on; after it, GET_DIGESTS, GET_CERTIFICATE and
CHALLENGE of a slot that holds a chain, GET_MEASUREMENTS 0 and 4, the first KEY_EXCHANGE and HEARTBEAT are answered; FINISH of a handshake, KEY_UPDATE
and END_SESSION of a session, SET_CERTIFICATE of slot 1 by a manager head and K_SET_GO announce a gated effect, and the DOE object waits for it. -/
def Obligations.SpdmComplete : Prop :=
  (∀ (w : Twin) (h : Fin 24) (s : State), s.linkIn h = true → s.homeOf (portOf h) = some w →
    ∃ t, exec (.spdmGetVersion h) s = .next t ∧ ((t.chip w).head h).spdm = 1 ∧ ((t.chip w).head h).doeReply = { words := [0x12, 0x13] } ∧
      (t.chip w).count K.SES_SPDM_REQUESTS = ((s.chip w).count K.SES_SPDM_REQUESTS + 1) % 2 ^ 48 ∧ t.chip w.other = s.chip w.other) ∧
  (∀ (w : Twin) (h : Fin 24) (s : State), s.linkIn h = true → s.homeOf (portOf h) = some w → 1 ≤ ((s.chip w).head h).spdm →
    ∃ t, exec (.spdmGetCapabilities h) s = .next t ∧ ((t.chip w).head h).spdm = max ((s.chip w).head h).spdm 2 ∧
      ((t.chip w).head h).doeReply = {} ∧ t.chip w.other = s.chip w.other) ∧
  (∀ (w : Twin) (h : Fin 24) (s : State), s.linkIn h = true → s.homeOf (portOf h) = some w → 2 ≤ ((s.chip w).head h).spdm →
    ∃ t, exec (.spdmNegotiateAlgorithms h) s = .next t ∧ ((t.chip w).head h).spdm = 3 ∧ ((t.chip w).head h).doeReply = {} ∧
      t.chip w.other = s.chip w.other) ∧
  (∀ (w : Twin) (h : Fin 24) (off len : Nat) (slot : Fin 8) (s : State), s.linkIn h = true → s.homeOf (portOf h) = some w →
    3 ≤ ((s.chip w).head h).spdm → (s.chip w).hasSlot slot.val = true →
    ∀ x ∈ ([(.spdmGetDigests h, { words := ((if (s.chip w).sec.certificate.isEmpty then [0] else [0, 1]).map fun n =>
        Chip.shaOf (((s.chip w).chainOf n).map BitVec.toNat)) }),
      (.spdmGetCertificate h slot off len, { bytes := (((s.chip w).chainOf slot.val).drop off).take (min len 16368) }),
      (.spdmChallenge h slot, { words := [(Config.signature (s.chip w).sec.pairKey s.free).toNat] }),
      (.spdmGetMeasurements h 0, { words := [6] }),
      (.spdmGetMeasurements h 4, { words := [Chip.digestOf 4 (s.chip w).fuseContent] })] : List (Instr × MailReply)),
    ∃ t, exec x.1 s = .next t ∧ ((t.chip w).head h).doeReply = x.2 ∧ t.chip w.other = s.chip w.other) ∧
  (∀ (w : Twin) (h : Fin 24) (s : State), s.linkIn h = true → s.homeOf (portOf h) = some w → 3 ≤ ((s.chip w).head h).spdm →
    ((s.chip w).head h).sessions = [] → ((s.chip w).head h).handshakes = [] →
    ∃ t, exec (.spdmKeyExchange h) s = .next t ∧ ((t.chip w).head h).handshakes = [0] ∧
      ((t.chip w).head h).doeReply = { words := [0] } ∧ t.chip w.other = s.chip w.other) ∧
  (∀ (w : Twin) (h : Fin 24) (id : Fin 4) (s : State), s.linkIn h = true → s.homeOf (portOf h) = some w →
    3 ≤ ((s.chip w).head h).spdm → ((s.chip w).head h).sessions.contains id.val = true →
    ∃ t, exec (.spdmHeartbeat h id) s = .next t ∧ ((t.chip w).head h).doeReply = {} ∧ t.chip w.other = s.chip w.other) ∧
  (∀ (w : Twin) (h : Fin 24) (id : Fin 4) (bytes : List Byte) (set : Fin 2) (s : State), s.linkIn h = true →
    s.homeOf (portOf h) = some w → 3 ≤ ((s.chip w).head h).spdm → ((s.chip w).head h).sessions.contains id.val = true →
    ((s.chip w).head h).handshakes.contains id.val = true → (s.chip w).isManager h = true → bytes.length ≤ 16372 →
    ∀ x ∈ ([(.spdmFinish h id, .session h id.val true), (.spdmKeyUpdate h id, .session h id.val true),
      (.spdmEndSession h id, .session h id.val false), (.spdmSetCertificate h 1 bytes, .certificate h bytes),
      (.kSetGo h set, .ideKeys h set.val)] : List (Instr × Effect)),
    ∃ t, exec x.1 s = .next t ∧ (t.chip w).twe.gated.getLast?.map (fun g => (g.from', g.effect, g.ends)) = some ((s.chip w).twin, x.2, none) ∧
      ((t.chip w).head h).doeWait = true ∧ t.chip w.other = s.chip w.other)

/-- From R85 to R92, R403, R456: a mailbox command that changes no state, of a head whose link is in L0 and not in reset and whose mailbox is free,
is answered by the home of its head and completes; the mailbox's own state of both chips, its label storage and background operation
among it, stays as it was. -/
def Obligations.MailboxReadsComplete : Prop :=
  ∀ (w : Twin) (h : Fin 24) (log : Fin 4) (off len dpa lines first : Nat) (s : State), s.linkIn h = true → s.homeOf (portOf h) = some w →
    ((s.chip w).head h).mailBusy = none → off + len ≤ 64 → (s.chip w).goodLine dpa = true →
    ∀ x ∈ ([(.getEventRecords h log, {
        words := ((s.chip w).log h log.val).recs.map (·.1),
        bytes := bytesLE 1 (bit ((s.chip w).log h log.val).overflow) ++ bytesLE 1 0 ++ bytesLE 2 ((s.chip w).log h log.val).overflowCount ++
          bytesLE 8 ((s.chip w).log h log.val).firstOverflow ++ bytesLE 8 ((s.chip w).log h log.val).lastOverflow ++
          bytesLE 2 ((s.chip w).log h log.val).recs.length ++ bytesLE 10 0 ++
          ((s.chip w).log h log.val).recs.flatMap fun y => EventRec.bytes y.2 log.val y.1 ((s.chip w).stampAt y.2.round),
        recs := ((s.chip w).log h log.val).recs.map (·.2) }),
      (.getEventInterruptPolicy h, { words := (List.range 4).map fun l => ((s.chip w).head h).policy.get (fun _ => 0) l }),
      (.getFwInfo h, { words := [2, (s.chip w).get F.EFC_ACTIVE_SLOT, bit (s.a.slotBytes 0 == s.b.slotBytes 0 && !(s.a.slotBytes 0).isEmpty),
        bit (s.a.slotBytes 1 == s.b.slotBytes 1 && !(s.a.slotBytes 1).isEmpty)] }),
      (.getTimestamp h, { words := [(s.chip w).timestamp % 2 ^ 64] }),
      (.getSupportedLogs h, { words := [2, 64, 128] }),
      (.getLog h 0 off len, { bytes := ((mailOpcodes.flatMap fun y => bytesLE 2 y.1).drop off).take len }),
      (.getLog h 1 off len, { bytes := (effectsLog.drop off).take len }),
      (.identifyMemoryDevice h, { words := [s.pairCapacity (s.chip w).twin, 0, s.pairCapacity (s.chip w).twin, 0, 262144, 256, 64, 64, 64, 64, 64] }),
      (.getPartitionInfo h, { words := [0, s.pairCapacity (s.chip w).twin, 0, s.pairCapacity (s.chip w).twin] }),
      (.getLsa h off len, { bytes := (List.range len).map fun i => (s.chip w).mail.lsa.get (fun _ => 0) (off + i) }),
      (.getHealthInfo h, { words := [bit (s.chip w).memActive, (s.chip w).get F.THM_TJ_HOT / 4, (s.chip w).mail.dirtyCount] }),
      (.getAlertConfiguration h, { bytes := (s.chip w).mail.alerts }),
      (.getShutdownState h, { words := [bit (s.chip w).mail.dirty] }),
      (.getPoisonList h dpa lines, {
        words := bit (decide (((s.chip w).poisoned dpa lines).length > 256)) :: ((s.chip w).poisoned dpa lines).take 256 }),
      (.getScanMediaCapabilities h dpa lines, { words := [Config.scanMs s.free lines] }),
      (.getScanMediaResults h, { words := (s.chip w).mail.scanned }),
      (.getPairInfo h, { bytes := s.pairInfo (s.chip w).twin w.id }),
      (.getDirtyBudget h, { bytes := s.dirtyBudget (s.chip w).twin }),
      (.getDeadLetters h first, {
        words := [((s.chip w).deadLetters first).length],
        bytes := bytesLE 4 ((s.chip w).deadLetters first).length ++ bytesLE 4 0 ++ ((s.chip w).deadLetters first).flatMap DloEntry.bytes })] :
      List (Instr × MailReply)),
    ∃ t, exec x.1 s = .next t ∧ ((t.chip w).head h).reply = x.2 ∧ ((t.chip w).head h).mailBusy = none ∧
      (t.chip w).mail = (s.chip w).mail ∧ (t.chip w.other).mail = (s.chip w.other).mail

/-- From R86, R88, R177, R490, R568: a mailbox command that changes state, of a manager head whose link is in L0 and not in reset and whose mailbox is
free, with operands in the ranges given, is announced by the home of its head as a gated effect with the return code that completes the command;
the mailbox is busy, and its state and the memories of the home are as they were; Sanitize announces two effects, the second the erase of every
domain. The end of a scan announces the lines found. -/
def Obligations.MailboxEffectsComplete : Prop :=
  (∀ (w : Twin) (h : Fin 24) (log mode : Fin 4) (off dpa lines : Nat) (bytes : List Byte) (handles : List Nat) (slot : Fin 2) (ns : BitVec 64)
    (data : Line) (dirty : Bool) (s : State), s.linkIn h = true → s.homeOf (portOf h) = some w → ((s.chip w).head h).mailBusy = none →
    (s.chip w).isManager h = true → mode.val ≤ 1 → off + bytes.length ≤ 262144 → bytes.length ≤ 16384 → (s.chip w).goodLine dpa = true →
    ((s.chip w).slotBytes slot.val).isEmpty = false → (s.chip w).backgroundBusy = false → (s.chip w).mail.injected.length < 64 →
    ∀ x ∈ ([(.clearEventRecords h log true handles, 0x0101, .clearLog h log true handles, 0),
      (.setEventInterruptPolicy h log mode, 0x0103, .intPolicy h log mode, 0),
      (.transferFw h off bytes, 0x0201, .firmware off bytes, 0),
      (.activateFw h slot, 0x0202, .activate slot.val, 0),
      (.setTimestamp h ns, 0x0301, .timestamp ns.toNat (s.chip w).round, 0),
      (.setLsa h off bytes, 0x4103, .lsa off bytes, 0),
      (.setAlertConfiguration h bytes, 0x4202, .alerts bytes, 0),
      (.setShutdownState h dirty, 0x4204, .shutdown dirty, 0),
      (.injectPoison h dpa, 0x4301, .poison dpa true 0, 0),
      (.clearPoison h dpa data, 0x4302, .poison dpa false data, 0),
      (.scanMedia h dpa lines, 0x4304, .background ⟨0x4304, h, dpa, lines⟩, 1)] : List (Instr × Nat × Effect × Nat)),
    ∃ t, exec x.1 s = .next t ∧ ((t.chip w).head h).mailBusy = some x.2.1 ∧
      (t.chip w).twe.gated.getLast?.map (fun g => (g.effect, g.ends)) = some (x.2.2.1, some (.mail h x.2.2.2)) ∧
      (t.chip w).mail = (s.chip w).mail ∧ (t.chip w).mem = (s.chip w).mem) ∧
  (∀ (w : Twin) (h : Fin 24) (s : State), s.linkIn h = true → s.homeOf (portOf h) = some w → ((s.chip w).head h).mailBusy = none →
    (s.chip w).isManager h = true → (s.chip w).backgroundBusy = false →
    ∃ t, exec (.sanitize h) s = .next t ∧ ((t.chip w).head h).mailBusy = some 0x4400 ∧
      (t.chip w).twe.gated.length = (s.chip w).twe.gated.length + 2 ∧
      ((t.chip w).twe.gated[(s.chip w).twe.gated.length]?.map fun g => (g.effect, g.ends)) =
        some (.background ⟨0x4400, h, 0, 0⟩, some (.mail h 1)) ∧
      ((t.chip w).twe.gated.getLast?.map fun g => (g.effect, g.ends)) = some (.eraseAll (s.drawKeys w).1 true, none) ∧
      (t.chip w).mail = (s.chip w).mail ∧ (t.chip w).mem = (s.chip w).mem) ∧
  (∀ (w : Twin) (h : Fin 24) (s : State), s.linkIn h = true → s.homeOf (portOf h) = some w → ((s.chip w).head h).mailBusy = none →
    (s.chip w).isManager h = true →
    ∃ t, exec (.secureErase h) s = .next t ∧ ((t.chip w).head h).mailBusy = some 0x4401 ∧
      (t.chip w).twe.gated.getLast?.map (fun g => (g.effect, g.ends)) =
        some (.eraseAll (s.drawKeys w).1 false, if (s.drawKeys w).1.isEmpty then some (.mail h 0) else none) ∧
      (t.chip w).mail = (s.chip w).mail ∧ (t.chip w).mem = (s.chip w).mem) ∧
  (∀ (w : Twin) (x : Background) (s : State), s.homeOf (portOf x.head) = some w → (s.a.mail.background.orElse fun _ => s.b.mail.background) = some x →
    (s.chip w).mail.background = some x → x.opcode = 0x4304 →
    ∃ t, exec .mailboxBackgroundDone s = .next t ∧ t.chip w.other = s.chip w.other ∧
      (t.chip w).twe.gated.getLast?.map (fun g => (g.effect, g.ends)) =
        some (.backgroundDone ((s.chip w).poisoned x.first x.lines), none))

/-! ## The command rings (R143 to R152) -/

/-- From R143 to R152: on a chip that runs: a ring enabled and OFF is ACTIVE, or in error with RING_ERROR where its settings are bad; an ACTIVE ring disabled
with nothing in progress is OFF, its command tail 0. A doorbell through the pair alias, of a machine-mode core or of the head that owns the ring
and may write its page, is queued as an alias write; one through another window is dropped, counted and raises DOORBELL_DENIED, the twin left as it was.
The ring's one keeper starts the next command where one waits, none is in progress, there is room and its entry and opcode are good; it writes a
finished completion that waits for no record, and the completion tail goes on by one. -/
def Obligations.RingsComplete : Prop :=
  (∀ (w : Twin) (q : Fin 64) (s : State), (s.chip w).up = true → (s.chip w).running 0x051 = true →
    (s.chip w).cfgOn (F.PBX_RING_ENABLE q.val) = true → (s.chip w).ringState q.val = 0 → (s.chip w).ringCode q.val = 0 →
    ∃ t, exec (.ringEnableApply q) s = .next t ∧ (t.chip w).ringState q.val = 1) ∧
  (∀ (w : Twin) (q : Fin 64) (s : State), (s.chip w).up = true → (s.chip w).running 0x051 = true →
    (s.chip w).cfgOn (F.PBX_RING_ENABLE q.val) = true → (s.chip w).ringState q.val = 0 → (s.chip w).ringCode q.val ≠ 0 →
    ∃ t, exec (.ringEnableApply q) s = .next t ∧ (t.chip w).ringState q.val = 2 ∧ (t.chip w).is F.PBX_EV_RING_ERROR = true) ∧
  (∀ (w : Twin) (q : Fin 64) (s : State), (s.chip w).up = true → (s.chip w).cfgOn (F.PBX_RING_ENABLE q.val) = false →
    (s.chip w).ringState q.val = 1 → (s.chip w).ring q.val = {} →
    ∃ t, exec (.ringDisableApply q) s = .next t ∧ (t.chip w).ringState q.val = 0 ∧ (t.chip w).get (F.PBX_DB_CMD_TAIL q.val) = 0) ∧
  (∀ (w : Twin) (rq : Requester) (n : Fin 9) (h : Fin 24) (q : Fin 64) (v : BitVec 16) (s : State), (s.chip w).up = true →
    rq = .coreM n ∨ rq = .host h ∧ s.homeOf (portOf h) = some w ∧ (s.chip w).ringOwner q.val = some h ∧ (s.chip w).mayWrite rq 0x051 = true →
    ∀ x ∈ ([(.cmdTail w rq true q v, 0x500 + 8 * q.val), (.cmpHead w rq true q v, 0x504 + 8 * q.val)] : List (Instr × Nat)),
    ∃ t, exec x.1 s = .next t ∧ t.chip w.other = s.chip w.other ∧
      (t.chip w).twe.aliasQ = (s.chip w).twe.aliasQ ++ [⟨(s.chip w).twin, (s.chip w).round, rq, ⟨0x051, x.2, 4, v.setWidth 64⟩⟩]) ∧
  (∀ (w : Twin) (rq : Requester) (q : Fin 64) (v : BitVec 16) (s : State), (s.chip w).up = true → s.isLocal w rq = true →
    ∀ x ∈ ([.cmdTail w rq false q v, .cmpHead w rq false q v] : List Instr),
    ∃ t, exec x s = .next t ∧ (t.chip w).is F.PBX_EV_DOORBELL_DENIED = true ∧
      (t.chip w).count K.PBX_DOORBELL_DENIED = ((s.chip w).count K.PBX_DOORBELL_DENIED + 1) % 2 ^ 48 ∧
      (t.chip w).twe.aliasQ = (s.chip w).twe.aliasQ ∧ t.chip w.other = s.chip w.other) ∧
  (∀ (w : Twin) (q : Fin 64) (x : RingCmd) (s : State), (s.chip w).up = true → (s.chip w).running 0x051 = true →
    (s.chip w).keepsRing q.val = true → (s.chip w.other).keepsRing q.val = false → (s.chip w).ringWaits q.val = true →
    (s.chip w).ringRoom q.val = true → ((s.chip w).ring q.val).fetched = [] →
    (s.chip w).ringEntry q.val ((s.chip w).get (F.PBX_RING_STATUS_CMD_HEAD q.val)) = (x, true) → ringOpcodes.contains x.opcode = true →
    ∃ t, exec (.postBoxCommandStart q) s = .next t ∧ ((t.chip w).ring q.val).fetched = [{ x with started := true }] ∧
      (t.chip w).get (F.PBX_RING_STATUS_CMD_HEAD q.val) = (x.idx + 1) % (s.chip w).cmdEntries q.val ∧
      t.chip w.other = s.chip w.other) ∧
  (∀ (w : Twin) (q : Fin 64) (y : RingDone) (s : State), (s.chip w).up = true → (s.chip w).keepsRing q.val = true →
    (s.chip w.other).keepsRing q.val = false → ((s.chip w).ring q.val).finished = [y] → y.recSeq = none → y.e.q = q →
    (s.chip w).ringState q.val = 1 →
    ∃ t, exec (.completionWrite q) s = .next t ∧ ((t.chip w).ring q.val).finished = [] ∧
      (t.chip w).get (F.PBX_RING_STATUS_CMP_TAIL q.val) =
        ((s.chip w).get (F.PBX_RING_STATUS_CMP_TAIL q.val) + 1) % (s.chip w).cmpEntries q.val ∧ t.chip w.other = s.chip w.other)

/-- From R148, R278, R316, R458: a started command of a ring, at the ring's one keeper and with operands in order, completes with status 0 and a result, the twin
left as it was: NOP with 0, ROUND with the Round number, OBJ_QUERY with the object's extents in the front tier and its length, POOL_QUERY with the
frames a domain uses and pins, ROUTE_QUERY at the placement keeper with the Route's position, state, slips and rate, and LEDGER_QUERY of the
chip itself with the two figures of its end-of-life ledger. -/
def Obligations.RingQueriesComplete : Prop :=
  (∀ (w : Twin) (q : Fin 64) (x : RingCmd) (s : State), s.carries w q x = true → x.opcode = 0 →
    ∃ t, exec (.ringNop q x.idx) s = .next t ∧ ((t.chip w).ring q.val).finished.getLast?.map (fun y => y.e) = some (x.ends q 0 0) ∧
      (t.chip w).ringCmd q.val x.idx = none ∧ t.chip w.other = s.chip w.other) ∧
  (∀ (w : Twin) (q : Fin 64) (x : RingCmd) (s : State), s.carries w q x = true → x.opcode = 1 →
    ∃ t, exec (.ringRound q x.idx) s = .next t ∧
      ((t.chip w).ring q.val).finished.getLast?.map (fun y => y.e) = some (x.ends q 0 (s.chip w).round) ∧
      t.chip w.other = s.chip w.other) ∧
  (∀ (w : Twin) (q : Fin 64) (x : RingCmd) (h : Fin 24) (n d : Nat) (o : Obj) (s : State), s.carries w q x = true → x.opcode = 0x103 →
    (s.chip w).ringOwner q.val = some h → x.usesOnly [(24, 4)] = true →
    (match (s.chip w).objNamed h.val x with | .ok y => some y | .error _ => none) = some (n, o, d) →
    ∃ t, exec (.objQuery q x.idx) s = .next t ∧
      ((t.chip w).ring q.val).finished.getLast?.map (fun y => y.e) = some (x.ends q 0
        ((((s.chip w).writtenIn o.first o.count).filter fun e => ((s.chip w).ext e).state == 2).length + o.count * 2 ^ 32)) ∧
      t.chip w.other = s.chip w.other) ∧
  (∀ (w : Twin) (q : Fin 64) (x : RingCmd) (h : Fin 24) (s : State), s.carries w q x = true → x.opcode = 0x107 →
    (s.chip w).ringOwner q.val = some h → x.usesOnly [(21, 1)] = true → x.field 21 1 ≤ 63 → (s.chip w).mayMap h.val (x.field 21 1) = true →
    ∃ t, exec (.poolQuery q x.idx) s = .next t ∧
      ((t.chip w).ring q.val).finished.getLast?.map (fun y => y.e) = some (x.ends q 0
        ((s.chip w).domUse (x.field 21 1) + (s.chip w).domPinned (x.field 21 1) * 2 ^ 32)) ∧ t.chip w.other = s.chip w.other) ∧
  (∀ (w : Twin) (q : Fin 64) (x : RingCmd) (h : Fin 24) (s : State), s.carries w q x = true → x.opcode = 0x205 →
    (s.chip w).ringOwner q.val = some h → (s.chip w).routeBad x [(22, 2)] true = none → ((s.chip w).route (x.field 22 2)).state ≠ 0 →
    ((s.chip w).route (x.field 22 2)).owner = h.val → (s.chip w).isKeeper = true →
    ∃ t, exec (.routeQuery q x.idx) s = .next t ∧
      ((t.chip w).ring q.val).finished.getLast?.map (fun y => y.e) = some (x.ends q 0
        (((s.chip w).route (x.field 22 2)).pos % 65536 + ((s.chip w).route (x.field 22 2)).state * 2 ^ 16 +
          min ((s.chip w).route (x.field 22 2)).slips (2 ^ 30 - 1) * 2 ^ 18 + min ((s.chip w).route (x.field 22 2)).rate 65535 * 2 ^ 48)) ∧
      t.chip w.other = s.chip w.other) ∧
  (∀ (w : Twin) (q : Fin 64) (x : RingCmd) (h : Fin 24) (s : State), s.carries w q x = true → x.opcode = 0x303 →
    (s.chip w).ringOwner q.val = some h → x.usesOnly [(16, 1)] = true → x.field 16 1 = w.id → (s.chip w).rst.twinId = w.id →
    ∃ t, exec (.ledgerQuery q x.idx) s = .next t ∧
      ((t.chip w).ring q.val).finished.getLast?.map (fun y => y.e) = some (x.ends q 0 ((s.chip w).eol.1 + (s.chip w).eol.2 * 2 ^ 32)) ∧
      t.chip w.other = s.chip w.other)

/-- From R273, R275, R277, R278, R314 to R316: a started command of a ring on objects or Routes, at the ring's one keeper, with operands in order, a policy
other than 0, the object or Route of its ring's head, and of Routes the state given, is announced as a gated effect with the completion of status 0 that follows
it; the tiers, or the Routes, of that chip are as they were until it applies. -/
def Obligations.RingEffectsComplete : Prop :=
  (∀ (w : Twin) (q : Fin 64) (x : RingCmd) (h : Fin 24) (d : Nat) (s : State), s.carries w q x = true → x.opcode = 0x100 →
    (s.chip w).ringOwner q.val = some h → x.usesOnly [(8, 8), (16, 4), (20, 1)] = true → x.field 20 1 ≤ 3 → x.field 20 1 ≠ 0 →
    (match (s.chip w).rangeDomain h.val (x.field 8 8) (x.field 16 4) with | .ok y => some y | .error _ => none) = some d →
    (s.chip w).cfgOn (F.DOM_DOMAIN_FRONT_PINNED d) = false → (s.chip w).overlaps (x.field 8 8 / 2 ^ 21) (x.field 16 4) = false →
    (s.chip w).trm.objects.length < 2 ^ 20 →
    ∃ t, exec (.objRegister q x.idx) s = .next t ∧ (t.chip w).trm = (s.chip w).trm ∧
      (t.chip w).twe.gated.getLast?.map (fun g => (g.effect, g.ends)) =
        some (.object (s.chip w).freeObject (x.field 8 8 / 2 ^ 21) (x.field 16 4) (x.field 20 1),
          some (.ring (x.ends q 0 (s.chip w).freeObject)))) ∧
  (∀ (w : Twin) (q : Fin 64) (x : RingCmd) (h : Fin 24) (n d : Nat) (o : Obj) (s : State), s.carries w q x = true → x.opcode = 0x101 →
    (s.chip w).ringOwner q.val = some h → x.usesOnly [(24, 4)] = true →
    (match (s.chip w).objNamed h.val x with | .ok y => some y | .error _ => none) = some (n, o, d) →
    ∃ t, exec (.objRemove q x.idx) s = .next t ∧ (t.chip w).trm = (s.chip w).trm ∧
      (t.chip w).twe.gated.getLast?.map (fun g => (g.effect, g.ends)) = some (.objectGone n, some (.ring (x.ends q 0 0)))) ∧
  (∀ (w : Twin) (q : Fin 64) (x : RingCmd) (h : Fin 24) (n d : Nat) (o : Obj) (s : State), s.carries w q x = true → x.opcode = 0x102 →
    (s.chip w).ringOwner q.val = some h → x.usesOnly [(20, 1), (24, 4)] = true → x.field 20 1 ≤ 3 → x.field 20 1 ≠ 0 →
    (match (s.chip w).objNamed h.val x with | .ok y => some y | .error _ => none) = some (n, o, d) →
    (s.chip w).cfgOn (F.DOM_DOMAIN_FRONT_PINNED d) = false →
    ∃ t, exec (.objSetPolicy q x.idx) s = .next t ∧ (t.chip w).trm = (s.chip w).trm ∧
      (t.chip w).twe.gated.getLast?.map (fun g => (g.effect, g.ends)) =
        some (.object n o.first o.count (x.field 20 1), some (.ring (x.ends q 0 o.policy)))) ∧
  (∀ (w : Twin) (q : Fin 64) (x : RingCmd) (h : Fin 24) (s : State), s.carries w q x = true → x.opcode = 0x200 →
    (s.chip w).ringOwner q.val = some h →
    (s.chip w).routeBad x [(8, 8), (16, 4), (20, 1), (21, 1), (22, 2), (28, 2), (30, 2), (32, 4)] true = none →
    1 ≤ x.field 16 4 → x.field 16 4 ≤ 65536 → x.field 20 1 < 4 → x.field 21 1 < 8 → 1 ≤ x.field 28 2 → 1 ≤ x.field 30 2 →
    x.field 30 2 ≤ x.field 32 4 → x.field 32 4 ≤ 2 ^ 20 → ((s.chip w).route (x.field 22 2)).state = 0 →
    (s.chip w).listOk h.val (x.field 8 8) (x.field 16 4) = true →
    ∃ t, exec (.routeLoad q x.idx) s = .next t ∧ (t.chip w).rte = (s.chip w).rte ∧
      (t.chip w).twe.gated.getLast?.map (fun g => (g.effect, g.ends)) = some (.routeLoad (x.field 22 2)
        { owner := h.val, listDpa := x.field 8 8, length := x.field 16 4, cyclic := (x.field 20 1).testBit 0,
          drop := (x.field 20 1).testBit 1, prio := x.field 21 1, lead := x.field 28 2, minExt := x.field 30 2, maxExt := x.field 32 4 },
        some (.ring (x.ends q 0 0)))) ∧
  (∀ (w : Twin) (q : Fin 64) (x : RingCmd) (h : Fin 24) (s : State), s.carries w q x = true → x.opcode = 0x201 →
    (s.chip w).ringOwner q.val = some h → (s.chip w).routeBad x [(22, 2), (24, 4)] true = none →
    ((s.chip w).route (x.field 22 2)).state ≠ 0 → ((s.chip w).route (x.field 22 2)).owner = h.val →
    x.field 24 4 < ((s.chip w).route (x.field 22 2)).length →
    ∃ t, exec (.routeStart q x.idx) s = .next t ∧ (t.chip w).rte = (s.chip w).rte ∧
      (t.chip w).twe.gated.getLast?.map (fun g => (g.effect, g.ends)) =
        some (.routeState (x.field 22 2) 2 (x.field 24 4) ((s.chip w).route (x.field 22 2)).startRate, some (.ring (x.ends q 0 0)))) ∧
  (∀ (w : Twin) (q : Fin 64) (x : RingCmd) (h : Fin 24) (s : State), s.carries w q x = true → x.opcode = 0x202 →
    (s.chip w).ringOwner q.val = some h → (s.chip w).routeBad x [(22, 2), (24, 4)] true = none →
    ((s.chip w).route (x.field 22 2)).state = 2 → ((s.chip w).route (x.field 22 2)).owner = h.val →
    x.field 24 4 < ((s.chip w).route (x.field 22 2)).length → (s.chip w).isKeeper = true →
    ∃ t, exec (.routeSeek q x.idx) s = .next t ∧ (t.chip w).rte = (s.chip w).rte ∧
      (t.chip w).twe.gated.getLast?.map (fun g => (g.effect, g.ends)) =
        some (.routeState (x.field 22 2) 2 (x.field 24 4) ((s.chip w).route (x.field 22 2)).rate, some (.ring (x.ends q 0 ((s.chip w).route (x.field 22 2)).pos)))) ∧
  (∀ (w : Twin) (q : Fin 64) (x : RingCmd) (h : Fin 24) (s : State), s.carries w q x = true → x.opcode = 0x203 →
    (s.chip w).ringOwner q.val = some h → (s.chip w).routeBad x [(22, 2)] true = none →
    ((s.chip w).route (x.field 22 2)).state = 2 → ((s.chip w).route (x.field 22 2)).owner = h.val →
    ∃ t, exec (.routeStop q x.idx) s = .next t ∧ (t.chip w).rte = (s.chip w).rte ∧
      (t.chip w).twe.gated.getLast?.map (fun g => (g.effect, g.ends)) = some (.routeState (x.field 22 2) 1 ((s.chip w).route (x.field 22 2)).pos ((s.chip w).route (x.field 22 2)).rate, some (.ring (x.ends q 0 0)))) ∧
  (∀ (w : Twin) (q : Fin 64) (x : RingCmd) (h : Fin 24) (s : State), s.carries w q x = true → x.opcode = 0x204 →
    (s.chip w).ringOwner q.val = some h → (s.chip w).routeBad x [(22, 2)] true = none →
    ((s.chip w).route (x.field 22 2)).state = 1 → ((s.chip w).route (x.field 22 2)).owner = h.val →
    ∃ t, exec (.routeUnload q x.idx) s = .next t ∧ (t.chip w).rte = (s.chip w).rte ∧
      (t.chip w).twe.gated.getLast?.map (fun g => (g.effect, g.ends)) = some (.routeState (x.field 22 2) 0 0 0, some (.ring (x.ends q 0 0))))

/-- From R278, R280, R293, R312: a started range command at the ring's one keeper, which is the placement keeper, over a range with one written extent that is not
on the move, the twin left as it was: one in the back tier is queued for promotion, one in the front tier for eviction, and the discard of one outside
the commons is announced. A block of a Route's list that is asked for and read is resolved and no longer asked for, the Route's position as it was. -/
def Obligations.RangeCommandsComplete : Prop :=
  (∀ (w : Twin) (q : Fin 64) (x : RingCmd) (h : Fin 24) (d e : Nat) (s : State), s.carries w q x = true → x.opcode = 0x104 →
    (s.chip w).ringOwner q.val = some h → x.usesOnly [(8, 8), (16, 4)] = true →
    (match (s.chip w).rangeDomain h.val (x.field 8 8) (x.field 16 4) with | .ok y => some y | .error _ => none) = some d →
    (s.chip w).writtenIn (x.field 8 8 / 2 ^ 21) (x.field 16 4) = [e] → ((s.chip w).ext e).state = 1 → (s.chip w).policy e ≠ 3 →
    (s.chip w).isKeeper = true → (s.chip w).migrating e true = false →
    ∃ t, exec (.extentPromote q x.idx) s = .next t ∧
      (t.chip w).trm.queue = (s.chip w).trm.queue ++ [{ cls := 3, extent := e, promote := true }] ∧ t.chip w.other = s.chip w.other) ∧
  (∀ (w : Twin) (q : Fin 64) (x : RingCmd) (h : Fin 24) (d e : Nat) (s : State), s.carries w q x = true → x.opcode = 0x105 →
    (s.chip w).ringOwner q.val = some h → x.usesOnly [(8, 8), (16, 4)] = true →
    (match (s.chip w).rangeDomain h.val (x.field 8 8) (x.field 16 4) with | .ok y => some y | .error _ => none) = some d →
    (s.chip w).writtenIn (x.field 8 8 / 2 ^ 21) (x.field 16 4) = [e] → ((s.chip w).ext e).state = 2 → (s.chip w).policy e ≠ 0 →
    (s.chip w).isKeeper = true → (s.chip w).migrating e false = false →
    ∃ t, exec (.extentEvict q x.idx) s = .next t ∧
      (t.chip w).trm.queue = (s.chip w).trm.queue ++ [{ cls := 5, extent := e, promote := false }] ∧ t.chip w.other = s.chip w.other) ∧
  (∀ (w : Twin) (q : Fin 64) (x : RingCmd) (h : Fin 24) (d e : Nat) (s : State), s.carries w q x = true → x.opcode = 0x106 →
    (s.chip w).ringOwner q.val = some h → x.usesOnly [(8, 8), (16, 4)] = true →
    (match (s.chip w).rangeDomain h.val (x.field 8 8) (x.field 16 4) with | .ok y => some y | .error _ => none) = some d →
    (s.chip w).writtenIn (x.field 8 8 / 2 ^ 21) (x.field 16 4) = [e] → ((s.chip w).ext e).state ≠ 0 →
    (s.chip w).inCommons (e * 2 ^ 21) = false → (s.chip w).isKeeper = true →
    ∃ t, exec (.extentDiscard q x.idx) s = .next t ∧
      (t.chip w).twe.gated.getLast?.map (fun g => g.effect) = some (.extentState e 0) ∧ t.chip w.other = s.chip w.other) ∧
  (∀ (w : Twin) (slot : Fin 256) (block : Nat) (s : State), (s.chip w).up = true →
    ((s.chip w).route slot.val).asked.contains block = true →
    ∃ t, exec (.listBlockReadDone w slot block) s = .next t ∧ ((t.chip w).route slot.val).asked.contains block = false ∧
      ((t.chip w).route slot.val).blocks.contains block = true ∧ ((t.chip w).route slot.val).pos = ((s.chip w).route slot.val).pos ∧
      t.chip w.other = s.chip w.other)

/-! ## The Coxia Link (R160 to R230) -/

/-- From R168 to R180, R209 to R211, R216: an envelope at the front of what is on its way to a chip leaves the link; FILL frees what it acknowledges and
leaves the sequence number; another that comes in order is accepted with its number, and: a FRAME of the peer is its last state frame, with its
heartbeat and DELIVERY_N; on an aligned chip a POSTMARK's records are held under their numbers; where the chip sends at once, a FETCH of a flit to
the host is answered from the history and a REPAIR ask with the line, read without error, and its poison; at a carbon with nothing seen of a
head, a BRIDGE of its one full write outside the commons fills the free WMB entry; an EVENT for one head is logged at its home; a
CONTROL that asks for new keys sets their Round; a RESYNC directory entry is held by the joiner. -/
def Obligations.EnvelopesComplete : Prop :=
  (∀ (w : Twin) (e : Envelope) (s : State), s.arriving w = some e → e.body = .fill → (s.chip w).link.waiting = [] →
    ∃ t, exec (.envFill w) s = .next t ∧ (t.chip w).link.replay = (s.chip w).link.replay.filter (fun x =>
        decide (0 < Chip.seqAfter x.seq e.ack) && decide (Chip.seqAfter x.seq e.ack < 2 ^ 15)) ∧
      (t.chip w).link.rxSeq = (s.chip w).link.rxSeq ∧
      (t.chip w.other).link.tx = (s.chip w.other).link.tx.tail) ∧
  (∀ (w : Twin) (e : Envelope) (f : Frame) (s : State), s.arriving w = some e → e.body = .frame f → (f.twin == (s.chip w).twin) = false →
    Chip.seqAfter e.seq (s.chip w).link.rxSeq = 1 → (s.chip w).mode ≠ mHELD →
    ∃ t, exec (.envFrame w) s = .next t ∧ (t.chip w).twe.peerFrame = some f ∧ (t.chip w).twe.lastHb = some f.heartbeat ∧
      (t.chip w).clk.peerDeliveryN = some f.deliveryN ∧
      (t.chip w).link.rxSeq = e.seq ∧ (t.chip w.other).link.tx = (s.chip w.other).link.tx.tail) ∧
  (∀ (w : Twin) (e : Envelope) (n : Nat) (l : List PmRecord) (s : State), s.arriving w = some e → e.body = .postmark n l →
    Chip.seqAfter e.seq (s.chip w).link.rxSeq = 1 → (s.chip w).aligned = true → (s.chip w).mode ≠ mISOLATED →
    ∃ t, exec (.envPostmark w) s = .next t ∧ (t.chip w).twe.rxRecs = (s.chip w).twe.rxRecs ++ (l.zipIdx.map fun x => ((n + x.2) % 2 ^ 32, x.1)) ∧
      (t.chip w).link.rxSeq = e.seq ∧ (t.chip w.other).link.tx = (s.chip w.other).link.tx.tail) ∧
  (∀ (w : Twin) (e : Envelope) (h : Fin 24) (flit : Nat) (s : State), s.arriving w = some e → e.body = .fetchAsk h .deviceToHost flit →
    Chip.seqAfter e.seq (s.chip w).link.rxSeq = 1 → (s.chip w).linkSends = true → (s.chip w).link.waiting = [] →
    (s.chip w).link.replay.length < 512 →
    ∃ t, exec (.envFetch w) s = .next t ∧
      (t.chip w).link.tx.getLast?.map (fun x => x.body) =
        some (.fetchDown h flit (((s.chip w).head h).txHist.find? fun x => x.flit == flit)) ∧
      (t.chip w).link.rxSeq = e.seq ∧ (t.chip w.other).link.tx = (s.chip w.other).link.tx.tail) ∧
  (∀ (w : Twin) (e : Envelope) (dpa : Nat) (s : State), s.arriving w = some e → e.body = .repairAsk dpa →
    Chip.seqAfter e.seq (s.chip w).link.rxSeq = 1 → (s.chip w).linkSends = true → (s.chip w).link.waiting = [] →
    (s.chip w).link.replay.length < 512 →
    (s.chip w).trm.repairDue.contains dpa = false → (s.chip w).cannotServe dpa = false →
    ∃ t, exec (.envRepair w .good) s = .next t ∧
      (t.chip w).link.tx.getLast?.map (fun x => x.body) = some (.repairData dpa (some ((s.chip w).fullLine dpa))) ∧
      (t.chip w).link.rxSeq = e.seq ∧ (t.chip w.other).link.tx = (s.chip w.other).link.tx.tail) ∧
  (∀ (w : Twin) (e : Envelope) (x : BridgedWrite) (s : State), s.arriving w = some e → e.body = .bridge [x] →
    Chip.seqAfter e.seq (s.chip w).link.rxSeq = 1 → (s.chip w).mode = mMIRRORED → (s.chip w).isCarbon (portOf x.head) = true →
    ((s.chip w).head x.head).lastStored = none → (s.chip w).inCommons x.dpa = false → x.enables = allBytes → x.dpa % 64 = 0 →
    (s.chip w).wmbEntry x.dpa = {} →
    ∃ t, exec (.envBridge w) s = .next t ∧ ((t.chip w).wmbEntry x.dpa).state = .valid ∧ ((t.chip w).wmbEntry x.dpa).data = x.data ∧
      ((t.chip w).wmbEntry x.dpa).mask = allBytes ∧ ((t.chip w).head x.head).seenPos = some x.pos.code ∧
      (t.chip w).link.rxSeq = e.seq ∧ (t.chip w.other).link.tx = (s.chip w.other).link.tx.tail) ∧
  (∀ (w : Twin) (e : Envelope) (r : EventRec) (l : Fin 4) (s : State), s.arriving w = some e → e.body = .event r l → r.subcode = 4 →
    Chip.seqAfter e.seq (s.chip w).link.rxSeq = 1 → (s.chip w).isHome (portOf (Fin.ofNat 24 r.addr)) = true →
    ((s.chip w).log (Fin.ofNat 24 r.addr) l.val).recs.length < 64 →
    ∃ t, exec (.envEvent w) s = .next t ∧ ((t.chip w).log (Fin.ofNat 24 r.addr) l.val).recs =
      ((s.chip w).log (Fin.ofNat 24 r.addr) l.val).recs ++ [(((s.chip w).log (Fin.ofNat 24 r.addr) l.val).nextHandle, { r with addr := 0 })] ∧
      (t.chip w).link.rxSeq = e.seq ∧ (t.chip w.other).link.tx = (s.chip w.other).link.tx.tail) ∧
  (∀ (w : Twin) (e : Envelope) (r : Nat) (s : State), s.arriving w = some e → e.body = .rekeyAsk r →
    Chip.seqAfter e.seq (s.chip w).link.rxSeq = 1 →
    ∃ t, exec (.envControl w) s = .next t ∧ (t.chip w).link.rekeyAt = some r ∧
      (t.chip w).link.rxSeq = e.seq ∧ (t.chip w.other).link.tx = (s.chip w.other).link.tx.tail) ∧
  (∀ (w : Twin) (e : Envelope) (line : Nat) (x : DirEntry) (s : State), s.arriving w = some e → e.body = .resyncDirectory line x →
    Chip.seqAfter e.seq (s.chip w).link.rxSeq = 1 → (s.chip w).mode = mJOINING →
    ∃ t, exec (.envResync w) s = .next t ∧ (t.chip w).che.shadow.get (fun _ => {}) (line / 64) = { x with way := 0 } ∧
      (t.chip w).link.rxSeq = e.seq ∧ (t.chip w.other).link.tx = (s.chip w.other).link.tx.tail)

/-- From R166, R167, R170 to R172, R565: a rejected envelope leaves the link and is asked for again; with three failed tags in a row the link is DOWN, with
AUTH_FAIL, and what was on its way is lost; a lost FRAME or POSTMARK takes both its copies with it, with DOUBLE_LOSS. On two chips that run, neither HELD
nor held for a save, training that is authentic and locks at least MIN_LANES lanes brings the link up, with KEY_EPOCH 1 on both chips and a fresh sequence;
training that is not leaves it DOWN, with AUTH_FAIL, the twin as it was; a link that is DOWN retries, the twin as it was; a lane that loses its lock is out of
use; a spare takes over from a lane, which is retired, and the keys change at their Round, the twin as it was. -/
def Obligations.LinkComplete : Prop :=
  (∀ (w : Twin) (badTag : Bool) (e : Envelope) (s : State), s.arriving w = some e →
    ∃ t, exec (.envelopeReject w badTag) s = .next t ∧ (t.chip w).link.nakNext = true ∧
      (t.chip w).link.authRun = (s.chip w).link.authRun + bit badTag ∧ (t.chip w).link.rxSeq = (s.chip w).link.rxSeq ∧
      (t.chip w.other).link.tx = (s.chip w.other).link.tx.tail) ∧
  (∀ (w : Twin) (s : State), (s.chip w).up = true → 3 ≤ (s.chip w).link.authRun →
    ∃ t, exec (.authFail w) s = .next t ∧ (t.chip w).get F.CXK_LINK_STATE = 0 ∧ (t.chip w).is F.CXK_EV_AUTH_FAIL = true ∧
      (t.chip w).link.authRun = 0 ∧ (t.chip w.other).link.tx = []) ∧
  (∀ (w : Twin) (lane : Fin 18) (e : Envelope) (s : State), s.arriving w = some e → e.body.cls = 1 ∨ e.body.cls = 2 →
    ∃ t, exec (.doubleLoss w lane) s = .next t ∧ (t.chip w).link.rxSeq = (s.chip w).link.rxSeq ∧ (t.chip w).is F.CXK_EV_DOUBLE_LOSS = true ∧
      (t.chip w.other).link.tx = (s.chip w.other).link.tx.dropWhile (fun x => x.seq == e.seq)) ∧
  (∀ (w : Twin) (locked : BitVec 18) (delayNs : Nat) (s : State), (s.chip w).up = true → (s.chip w.other).up = true → (s.chip w).mode ≠ mHELD →
    (s.chip w.other).mode ≠ mHELD → (s.chip w).svc.held = false → (s.chip w.other).svc.held = false → (s.chip w).linkUp = false →
    (s.chip w).cfg F.CXK_CXK_CFG_MIN_LANES ≤ ((s.chip w).lanesTrained locked).lanesInUse.length →
    ∃ t, exec (.cxkTrainingDone w locked delayNs true) s = .next t ∧ (t.chip w).linkUp = true ∧ (t.chip w).is F.CXK_EV_LINK_UP = true ∧
      (t.chip w).get F.CXK_KEY_EPOCH = 1 ∧ (t.chip w.other).get F.CXK_KEY_EPOCH = 1 ∧ (t.chip w).link.rxSeq = 0 ∧
      (t.chip w.other).link.seq = 0 ∧ (t.chip w.other).link.replay = []) ∧
  (∀ (w : Twin) (locked : BitVec 18) (delayNs : Nat) (s : State), (s.chip w).up = true → (s.chip w.other).up = true → (s.chip w).mode ≠ mHELD →
    (s.chip w.other).mode ≠ mHELD → (s.chip w).svc.held = false → (s.chip w.other).svc.held = false → (s.chip w).linkUp = false →
    ∃ t, exec (.cxkTrainingDone w locked delayNs false) s = .next t ∧ (t.chip w).get F.CXK_LINK_STATE = 0 ∧
      (t.chip w).is F.CXK_EV_AUTH_FAIL = true ∧ t.chip w.other = s.chip w.other) ∧
  (∀ (w : Twin) (s : State), (s.chip w).up = true → (s.chip w).get F.CXK_LINK_STATE = 0 → (s.chip w).mode ≠ mHELD →
    (s.chip w).svc.held = false →
    ∃ t, exec (.cxkTrainingRetry w) s = .next t ∧ (t.chip w).get F.CXK_LINK_STATE = 1 ∧ t.chip w.other = s.chip w.other) ∧
  (∀ (w : Twin) (lane : Fin 18) (s : State), (s.chip w).up = true → (s.chip w).is (F.CXLANE_LANE_LOCK lane.val) = true →
    ∃ t, exec (.laneLockLoss w lane) s = .next t ∧ (t.chip w).is (F.CXLANE_LANE_LOCK lane.val) = false ∧
      (t.chip w).is (F.CXLANE_LANE_IN_USE lane.val) = false) ∧
  (∀ (w : Twin) (lane spare : Fin 18) (s : State), (s.chip w).up = true → (s.chip w).link.sparing.contains (lane.val, spare.val) = true →
    lane ≠ spare →
    ∃ t, exec (.laneSwap w lane spare) s = .next t ∧ (t.chip w).is (F.CXLANE_LANE_RETIRED lane.val) = true ∧
      (t.chip w).is (F.CXLANE_LANE_IN_USE lane.val) = false ∧ (t.chip w).is (F.CXLANE_LANE_IN_USE spare.val) = true ∧
      (t.chip w).is F.CXK_EV_LANE_SPARED = true ∧ t.chip w.other = s.chip w.other) ∧
  (∀ (w : Twin) (r : Nat) (s : State), (s.chip w).up = true → (s.chip w).link.rekeyAt = some r → r ≤ (s.chip w).round →
    (s.chip w).get F.CXK_KEY_EPOCH < 2 ^ 31 →
    ∃ t, exec (.rekey w) s = .next t ∧ (t.chip w).get F.CXK_KEY_EPOCH = (s.chip w).get F.CXK_KEY_EPOCH + 1 ∧
      (t.chip w).link.rekeyAt = none ∧ t.chip w.other = s.chip w.other)

/-- From R59, R89, R99, R129, R131, R175 to R177, R211, R243 to R253: on a chip that runs, the oldest record of the peer that is next in sequence leaves the queue, the
twin as it was: WRITE_WM covers the writes to its position, TAP_WM frees the history to its flit and shows that the peer tracks, DRAIN_WM covers what
the peer has drained, ORDER serves the one shadow read that waits for it (an access, a sweep), evicts a victim's entry or ends a handoff with ARBITER_MOVED, an
alias write is queued, a log record entered, a gated effect announced with nothing of its state changed, APPLIED moves the peer's mark
on, and a hold of a line begins or ends. On each chip the one gated effect, of the alert configuration and due, applies. A carbon that tracks and
decodes no flit on its lanes misses it, the twin as it was. -/
def Obligations.RecordsComplete : Prop :=
  (∀ (w : Twin) (n : Nat) (h : Fin 24) (pos : Nat) (s : State), (s.chip w).up = true → (s.chip w).nextRec = some (n, .writeWm h pos) →
    ∃ t, exec (.writeWm w) s = .next t ∧ (t.chip w).twe.rxRecs = (s.chip w).twe.rxRecs.tail ∧ (t.chip w).twe.pmApplied = n ∧
      covers ((t.chip w).head h).covered pos = true ∧ t.chip w.other = s.chip w.other) ∧
  (∀ (w : Twin) (n : Nat) (h : Fin 24) (flit : Nat) (s : State), (s.chip w).up = true →
    (s.chip w).nextRec = some (n, .tapWm h .hostToDevice flit) →
    ∃ t, exec (.tapWm w) s = .next t ∧ (t.chip w).twe.rxRecs = (s.chip w).twe.rxRecs.tail ∧ ((t.chip w).head h).tapUp = flit ∧
      ((t.chip w).head h).peerTracks = true ∧
      ((t.chip w).head h).rxHist = ((s.chip w).head h).rxHist.filter (fun y => decide (y.1 > flit)) ∧ t.chip w.other = s.chip w.other) ∧
  (∀ (w : Twin) (n : Nat) (h : Fin 24) (pos : Nat) (s : State), (s.chip w).up = true → (s.chip w).nextRec = some (n, .drainWm h pos) →
    ∃ t, exec (.drainWm w) s = .next t ∧ (t.chip w).twe.rxRecs = (s.chip w).twe.rxRecs.tail ∧
      covers ((t.chip w).head h).peerDrained pos = true ∧ t.chip w.other = s.chip w.other) ∧
  (∀ (w : Twin) (n d pos line num : Nat) (h : Fin 24) (x : Tag) (s : State), (s.chip w).up = true →
    (s.chip w).nextRec = some (n, .order d h .access pos line num) → (s.chip w).seenTo h pos = true → (s.chip w).tags = [x] →
    x.stage = .order → x.isTag = false → x.req.head = h → x.req.pos.code = pos → x.req.kind = .memRdData →
    (s.chip w).che.ordered = [] → (s.chip w).che.snoops = [] → (s.chip w).che.victims = [] → (s.chip w).che.early = [] →
    (s.chip w).dirEntry x.dpa = {} → (s.chip w).arbitrates x.dpa = false →
    ∃ t, exec (.orderAccess w) s = .next t ∧ (t.chip w).twe.rxRecs = (s.chip w).twe.rxRecs.tail ∧
      Chip.present ((t.chip w).dirEntry x.dpa) h = true ∧ t.chip w.other = s.chip w.other) ∧
  (∀ (w : Twin) (n d pos line num : Nat) (h : Fin 24) (x : Tag) (s : State), (s.chip w).up = true →
    (s.chip w).nextRec = some (n, .order d h .sweep pos line num) → (s.chip w).seenTo h pos = true → (s.chip w).tags = [x] →
    x.stage = .order → x.isTag = false → x.req.head = h → x.req.pos.code = pos → x.req.kind = .memRdData →
    (s.chip w).che.ordered = [] → (s.chip w).che.snoops = [] → (s.chip w).che.victims = [] → (s.chip w).che.early = [] →
    (s.chip w).che.clearing = [] → (s.chip w).dirEntry x.dpa = {} → (s.chip w).inCommons x.dpa = true → (s.chip w).arbitrates x.dpa = false →
    ∃ t, exec (.orderSweep w) s = .next t ∧ (t.chip w).twe.rxRecs = (s.chip w).twe.rxRecs.tail ∧
      Chip.present ((t.chip w).dirEntry x.dpa) h = true ∧ t.chip w.other = s.chip w.other) ∧
  (∀ (w : Twin) (n d pos line num : Nat) (h : Fin 24) (s : State), (s.chip w).up = true →
    (s.chip w).nextRec = some (n, .order d h .victim pos line num) → (s.chip w).tags = [] → (s.chip w).che.ordered = [] →
    (s.chip w).che.early = [] → (s.chip w).che.sram = [] →
    ∃ t, exec (.orderVictim w) s = .next t ∧ (t.chip w).twe.rxRecs = (s.chip w).twe.rxRecs.tail ∧
      (t.chip w).dirEntry (line * 64) = {} ∧ (t.chip w).is F.DIR_EV_OVERFLOW_EVICT = true ∧ t.chip w.other = s.chip w.other) ∧
  (∀ (w : Twin) (n d pos line num : Nat) (h : Fin 24) (s : State), (s.chip w).up = true →
    (s.chip w).nextRec = some (n, .order d h .handoff pos line num) →
    ∃ t, exec (.orderHandoff w) s = .next t ∧ (t.chip w).twe.rxRecs = (s.chip w).twe.rxRecs.tail ∧
      (t.chip w).che.awaitHandoff.contains d = false ∧ (t.chip w).che.migrating.contains d = true ∧
      (t.chip w).is F.COM_EV_ARBITER_MOVED = true ∧ t.chip w.other = s.chip w.other) ∧
  (∀ (w : Twin) (n : Nat) (x : AliasWrite) (s : State), (s.chip w).up = true → (s.chip w).nextRec = some (n, .aliasWrite x) →
    ∃ t, exec (.recAlias w) s = .next t ∧ (t.chip w).twe.rxRecs = (s.chip w).twe.rxRecs.tail ∧
      (t.chip w).twe.aliasQ = (s.chip w).twe.aliasQ ++ [x] ∧ t.chip w.other = s.chip w.other) ∧
  (∀ (w : Twin) (n : Nat) (h : Fin 24) (l : Fin 4) (r : EventRec) (s : State), (s.chip w).up = true →
    (s.chip w).nextRec = some (n, .log h l r) → ((s.chip w).log h l.val).recs.length < 64 →
    ∃ t, exec (.recLog w) s = .next t ∧ (t.chip w).twe.rxRecs = (s.chip w).twe.rxRecs.tail ∧
      ((t.chip w).log h l.val).recs = ((s.chip w).log h l.val).recs ++ [(((s.chip w).log h l.val).nextHandle, r)] ∧
      t.chip w.other = s.chip w.other) ∧
  (∀ (w : Twin) (n : Nat) (e : Effect) (ends : Option Ends) (s : State), (s.chip w).up = true →
    (s.chip w).nextRec = some (n, .effect e true ends) →
    ∃ t, exec (.recEffect w) s = .next t ∧ (t.chip w).twe.rxRecs = (s.chip w).twe.rxRecs.tail ∧
      (t.chip w).twe.gated = (s.chip w).twe.gated ++ [{ from' := w.other, seq := n, effect := e, ends }] ∧
      (t.chip w).mail = (s.chip w).mail ∧ (t.chip w).trm = (s.chip w).trm ∧ t.chip w.other = s.chip w.other) ∧
  (∀ (w : Twin) (n m : Nat) (s : State), (s.chip w).up = true → (s.chip w).nextRec = some (n, .applied m) →
    (m + 2 ^ 32 - (s.chip w).get F.PMK_PM_SEQ_PEER_APPLIED) % 2 ^ 32 < 2 ^ 31 →
    ∃ t, exec (.recApplied w) s = .next t ∧ (t.chip w).twe.rxRecs = (s.chip w).twe.rxRecs.tail ∧
      (t.chip w).get F.PMK_PM_SEQ_PEER_APPLIED = m % 2 ^ 32 ∧ t.chip w.other = s.chip w.other) ∧
  (∀ (w : Twin) (n dpa : Nat) (s : State), (s.chip w).up = true → (s.chip w).nextRec = some (n, .hold dpa true) →
    ∃ t, exec (.recHold w) s = .next t ∧ (t.chip w).twe.rxRecs = (s.chip w).twe.rxRecs.tail ∧
      (t.chip w).twe.holds.contains dpa = true ∧ t.chip w.other = s.chip w.other) ∧
  (∀ (w : Twin) (n dpa : Nat) (s : State), (s.chip w).up = true → (s.chip w).nextRec = some (n, .hold dpa false) →
    ∃ t, exec (.holdRelease w) s = .next t ∧ (t.chip w).twe.rxRecs = (s.chip w).twe.rxRecs.tail ∧
      (t.chip w).twe.holds.contains dpa = false ∧ t.chip w.other = s.chip w.other) ∧
  (∀ (w : Twin) (g : GatedEffect) (bytes : List Byte) (s : State), (s.chip w).up = true → (s.chip w).twe.gated = [g] →
    g.effect = .alerts bytes → (s.chip w).gatedDue g = true →
    ∃ t, exec .gatedEffectApply s = .next t ∧ (t.chip w).twe.gated = [] ∧ (t.chip w).mail.alerts = bytes) ∧
  (∀ (w : Twin) (h : Fin 24) (hostAck : Nat) (y : TxFlit) (s : State), (s.chip w).up = true → (s.chip w).isCarbon (portOf h) = true →
    (s.chip w).trackState h = 2 → ((s.chip w.other).head h).txHist.find? (fun x => x.flit == (s.chip w).nextDown h) = some y →
    ∃ t, exec (.carbonLaneFlit w h hostAck false) s = .next t ∧
      ((t.chip w).head h).track.missedDown = ((s.chip w).head h).track.missedDown ++ [y.flit] ∧ t.chip w.other = s.chip w.other)

/-! ## The twin (R181 to R224) -/

/-- From R181, R187, R200 to R203: on a chip that runs, the twin left as it was: a check that has heard a heartbeat in order and the pulse, not in HELD, leaves
PEER_ALIVE and PULSE_OK 1, HB_LOST 0 and the mode; the second check in a row of a mirrored chip that hears neither pulls FENCE_OUT, with PEER_SILENT; with
the link DOWN and the pulse there, mirrored chip B is ISOLATED, with every port so, no tags and the event ISOLATED, and mirrored chip A, which sees
no OWN line high, is ALONE; chip A that still sees one after ISOLATE_LIMIT Rounds pulls FENCE_OUT, its mode as it was. -/
def Obligations.PeerChecksComplete : Prop :=
  (∀ (w : Twin) (s : State), (s.chip w).up = true → (s.chip w).mode ≠ mHELD → (s.chip w).twe.hbSeen = true →
    ∃ t, exec (.peerCheck w true) s = .next t ∧ (t.chip w).is F.ROLE_PAIR_STATE_PEER_ALIVE = true ∧
      (t.chip w).is F.ROLE_PAIR_STATE_PULSE_OK = true ∧ (t.chip w).get F.ROLE_PAIR_STATE_HB_LOST = 0 ∧
      (t.chip w).mode = (s.chip w).mode ∧ t.chip w.other = s.chip w.other) ∧
  (∀ (w : Twin) (s : State), (s.chip w).up = true → (s.chip w).mirrored = true → (s.chip w).twe.hbSeen = false →
    1 ≤ (s.chip w).twe.bothLost →
    ∃ t, exec (.peerCheck w false) s = .next t ∧ (t.chip w).is F.ROLE_PAIR_STATE_FENCE_OUT = true ∧
      (t.chip w).is F.ROLE_EV_PEER_SILENT = true ∧ t.chip w.other = s.chip w.other) ∧
  (∀ (w : Twin) (s : State), (s.chip w).up = true → (s.chip w).mirrored = true → (s.chip w).get F.CXK_LINK_STATE = 0 →
    (s.chip w).is F.ROLE_PAIR_STATE_PULSE_OK = true → (s.chip w).twe.lossDeclared = none → (s.chip w).twin = .B →
    ∃ t, exec (.linkDownTimeout w) s = .next t ∧ (t.chip w).mode = mISOLATED ∧ (∀ p : Fin 6, (t.chip w).role p = 3) ∧
      (t.chip w).tags = [] ∧ (t.chip w).is F.ROLE_EV_ISOLATED = true ∧ t.chip w.other = s.chip w.other) ∧
  (∀ (w : Twin) (s : State), (s.chip w).up = true → (s.chip w).mirrored = true → (s.chip w).get F.CXK_LINK_STATE = 0 →
    (s.chip w).is F.ROLE_PAIR_STATE_PULSE_OK = true → (s.chip w).twe.lossDeclared = none → (s.chip w).twin = .A →
    (∀ p : Fin 6, (s.chip w).is (F.HP_PORT_STATUS_OWN_IN p.val) = false) →
    ∃ t, exec (.linkDownTimeout w) s = .next t ∧ (t.chip w).mode = mALONE ∧ t.chip w.other = s.chip w.other) ∧
  (∀ (w : Twin) (r : Nat) (p : Fin 6) (s : State), (s.chip w).up = true → (s.chip w).twe.lossDeclared = some r → (s.chip w).twin = .A →
    (s.chip w).is (F.HP_PORT_STATUS_OWN_IN p.val) = true → r + (s.chip w).cfg F.ROLE_DETECT_CFG_ISOLATE_LIMIT ≤ (s.chip w).round →
    ∃ t, exec (.isolateLimitExpiry w) s = .next t ∧ (t.chip w).is F.ROLE_PAIR_STATE_FENCE_OUT = true ∧
      (t.chip w).mode = (s.chip w).mode ∧ t.chip w.other = s.chip w.other)

/-- From R182 to R186, R188, R189, R191, R192, R197: the twin left as it was: the fall of the peer's OWN line of a port makes a mirrored carbon claim it, ALONE, with
TAKEOVER, where no handover or declared loss is under way; its rise shows in OWN_IN and takes GUARD_MET back; TWIN_DEAD_N low by the peer makes a mirrored
chip ALONE, which claims every port it was carbon of, with PEER_FAILSTOP, and high again clears DEAD_SEEN; the guard met, a home not held
raises its OWN line; the last link of a claimed port in L0 makes the chip its home; FAILSTOP_NOW by a core in machine mode takes a mirrored chip that does not
save to HELD with no role and no OWN line; FENCE_IN low holds the chip in reset and pulls TWIN_DEAD_N, high lets a powered one start; a requester that
may write the page releases FENCE_OUT. -/
def Obligations.TakeoversComplete : Prop :=
  (∀ (w : Twin) (p : Fin 6) (s : State), (s.chip w).up = true → (s.chip w).mirrored = true → (s.chip w).role p = 2 →
    (s.chip w).is (F.HP_PORT_STATUS_OWN_IN p.val) = true → (s.chip w.other).up = false → (s.chip w).twe.handing = [] →
    (s.chip w).twe.lossDeclared = none →
    ∃ t, exec (.ownInFall w p) s = .next t ∧ (t.chip w).role p = 4 ∧ (t.chip w).mode = mALONE ∧
      (t.chip w).is (F.HP_PORT_STATUS_OWN_IN p.val) = false ∧ (t.chip w).is F.ROLE_EV_TAKEOVER = true ∧
      t.chip w.other = s.chip w.other) ∧
  (∀ (w : Twin) (p : Fin 6) (s : State), (s.chip w).up = true → (s.chip w).is (F.HP_PORT_STATUS_OWN_IN p.val) = false →
    (s.chip w.other).up = true → (s.chip w.other).ownOut p = true →
    ∃ t, exec (.ownInRise w p) s = .next t ∧ (t.chip w).is (F.HP_PORT_STATUS_OWN_IN p.val) = true ∧
      (t.chip w).is (F.HP_PORT_STATUS_GUARD_MET p.val) = false ∧ t.chip w.other = s.chip w.other) ∧
  (∀ (w : Twin) (s : State), (s.chip w).up = true → (s.chip w).mirrored = true → (s.chip w).pullsDead = false →
    (s.chip w.other).pullsDead = true →
    ∃ t, exec (.twinDeadNFall w) s = .next t ∧ (t.chip w).is F.ROLE_PAIR_STATE_DEAD_SEEN = true ∧ (t.chip w).mode = mALONE ∧
      (∀ p : Fin 6, (s.chip w).role p = 2 → (t.chip w).role p = 4) ∧ (t.chip w).is F.ROLE_EV_PEER_FAILSTOP = true ∧
      t.chip w.other = s.chip w.other) ∧
  (∀ (w : Twin) (s : State), (s.chip w).up = true → (s.chip w.other).pullsDead = false →
    ∃ t, exec (.twinDeadNRise w) s = .next t ∧ (t.chip w).is F.ROLE_PAIR_STATE_DEAD_SEEN = false ∧ (t.chip w).mode = (s.chip w).mode ∧
      t.chip w.other = s.chip w.other) ∧
  (∀ (w : Twin) (p : Fin 6) (s : State), (s.chip w).up = true → (s.chip w).is (F.HP_PORT_STATUS_OWN_IN p.val) = false →
    (s.chip w).role p = 1 → (s.chip w).svc.held = false →
    ∃ t, exec (.guardMet w p) s = .next t ∧ (t.chip w).is (F.HP_PORT_STATUS_GUARD_MET p.val) = true ∧
      (t.chip w).is (F.HP_PORT_STATUS_OWN_OUT p.val) = true ∧ t.chip w.other = s.chip w.other) ∧
  (∀ (w : Twin) (h : Fin 24) (ns : Nat) (s : State), (s.chip w).up = true → (s.chip w).role (portOf h) = 4 →
    (s.chip w).transmits (portOf h) = true → (s.chip w).recovering (portOf h) = [h] →
    ∃ t, exec (.takeoverLinkL0 w h ns) s = .next t ∧ (t.chip w).role (portOf h) = 1 ∧ (t.chip w).ltssm h = 3 ∧
      t.chip w.other = s.chip w.other) ∧
  (∀ (w : Twin) (n : Fin 9) (s : State), (s.chip w).up = true → (s.chip w).mirrored = true → (s.chip w).saveActive = false →
    ∃ t, exec (.failstopNow w (.coreM n)) s = .next t ∧ (t.chip w).mode = mHELD ∧ (∀ p : Fin 6, (t.chip w).role p = 0) ∧
      (∀ p : Fin 6, (t.chip w).is (F.HP_PORT_STATUS_OWN_OUT p.val) = false) ∧ t.chip w.other = s.chip w.other) ∧
  (∀ (w : Twin) (s : State), (s.chip w.other).fenceOut = true → (s.chip w).rst.fenced = false →
    ∃ t, exec (.fenceInFall w) s = .next t ∧ (t.chip w).up = false ∧ (t.chip w).pullsDead = true ∧ t.chip w.other = s.chip w.other) ∧
  (∀ (w : Twin) (s : State), (s.chip w.other).fenceOut = false → (s.chip w).rst.fenced = true → (s.chip w).rst.powered = true →
    (s.chip w).rst.resetN = false →
    ∃ t, exec (.fenceInRise w) s = .next t ∧ (t.chip w).up = true ∧ (t.chip w).rst.fenced = false ∧ t.chip w.other = s.chip w.other) ∧
  (∀ (w : Twin) (rq : Requester) (s : State), (s.chip w).up = true → (s.chip w).mayWrite rq 0x070 = true →
    ∃ t, exec (.fenceRelease w rq) s = .next t ∧ (t.chip w).is F.ROLE_PAIR_STATE_FENCE_OUT = false ∧ t.chip w.other = s.chip w.other)

/-- From R87, R204 to R207, R222, R224: with both chips MIRRORED, aligned without fault and no handover under way, a waiting handover of a port whose links are
tracked starts: the home is in HANDOVER with its OWN line low; TAKEOVER_DRILL by a requester that may write the page, and START_DRILL by a manager head whose mailbox is
free, of a port that no condition of R206 refuses, start a drill: it is noted on chip A, and the home of the port is in HANDOVER; after HOLD_ROUNDS the port is handed back.
A chip at its solo wait with no frame heard and SOLO_ALLOW 0 raises TWIN_ABSENT and stays STARTING, with SOLO_ALLOW 1 is SOLO; chip A told by a core in
machine mode to start with the link down is ALONE; the twin left as it was. -/
def Obligations.HandoversComplete : Prop :=
  (∀ (w : Twin) (p : Fin 6) (s : State), s.bothMirrored = true → s.alignFault = false → s.a.twe.handing = [] →
    s.a.twe.handoverWait = [(p, 0)] → s.portTracked p = true → s.homeOf p = some w → (s.chip w).role p = 1 →
    ∃ t, exec (.handoverRetry p) s = .next t ∧ (t.chip w).role p = 5 ∧ (t.chip w).is (F.HP_PORT_STATUS_OWN_OUT p.val) = false ∧
      t.a.twe.handing = [p] ∧ t.a.twe.handoverWait = []) ∧
  (∀ (w v : Twin) (rq : Requester) (p : Fin 6) (s : State), s.acceptor rq = some v → (s.chip v).mayWrite rq 0x070 = true →
    (s.chip v).get F.ROLE_TAKEOVER_PORT = p.val → s.drillCode p = 0 → s.a.running 0x070 = true → s.b.running 0x070 = true →
    s.homeOf p = some w → (s.chip w).role p = 1 →
    ∃ t, exec (.takeoverDrill rq) s = .next t ∧ t.a.twe.drilling = some p ∧ t.b.twe.drilling = some p ∧
      t.a.get F.ROLE_DRILL_STATUS_STATE = 1 ∧ (t.chip w).role p = 5) ∧
  (∀ (w : Twin) (p : Fin 6) (r : Nat) (s : State), s.a.twe.drilling = some p → s.a.twe.drillBack = some (p, some r) →
    s.bothMirrored = true → s.alignFault = false → r + s.a.get F.ROLE_TAKEOVER_HOLD_ROUNDS ≤ s.a.round →
    s.homeOf p = some w → (s.chip w).role p = 1 →
    ∃ t, exec .drillReturn s = .next t ∧ t.a.twe.drillBack = none ∧ (t.chip w).role p = 5) ∧
  (∀ (w v : Twin) (h : Fin 24) (p : Fin 6) (s : State), s.homeOf (portOf h) = some v → s.linkIn h = true →
    ((s.chip v).head h).mailBusy = none → (s.chip v).isManager h = true → s.drillCode p = 0 → s.a.running 0x070 = true →
    s.b.running 0x070 = true → s.homeOf p = some w → (s.chip w).role p = 1 →
    ∃ t, exec (.startDrill h p.val) s = .next t ∧ t.a.twe.drilling = some p ∧ (t.chip w).role p = 5 ∧
      ((t.chip v).head h).reply = {}) ∧
  (∀ (w : Twin) (s : State), (s.chip w).up = true → (s.chip w).mode = mSTARTING → (s.chip w).rst.step = 8 →
    (s.chip w).twe.peerFrame = none → (s.chip w).cfg F.ROLE_START_CFG_SOLO_ALLOW = 0 →
    ∃ t, exec (.soloWaitExpiry w false) s = .next t ∧ (t.chip w).is F.RST_START_TWIN_ABSENT = true ∧
      (t.chip w).is F.RST_EV_TWIN_ABSENT = true ∧ (t.chip w).mode = mSTARTING ∧ t.chip w.other = s.chip w.other) ∧
  (∀ (w : Twin) (s : State), (s.chip w).up = true → (s.chip w).mode = mSTARTING → (s.chip w).rst.step = 8 →
    (s.chip w).twe.peerFrame = none → (s.chip w).cfg F.ROLE_START_CFG_SOLO_ALLOW = 1 →
    ∃ t, exec (.soloWaitExpiry w false) s = .next t ∧ (t.chip w).mode = mSOLO ∧ t.chip w.other = s.chip w.other) ∧
  (∀ (w : Twin) (n : Fin 9) (s : State), (s.chip w).up = true → (s.chip w).twin = .A → (s.chip w).mode = mSTARTING →
    (s.chip w).twe.startLinkDown = true → (s.chip w).linkUp = false →
    ∃ t, exec (.forceAlone w (.coreM n)) s = .next t ∧ (t.chip w).mode = mALONE ∧ (t.chip w).twe.startLinkDown = false ∧
      t.chip w.other = s.chip w.other)

/-- From R209 to R212, R387: on a chip that runs, the twin left as it was: a line for which a read waits for repair, none other under repair and the twin holding every
write, is asked of the twin and held there and here; a mismatch of a line outside the commons, with no clean back-tier copy, that the carbon's own two
reads do not confirm and the home's do, raises CSIGN_MISMATCH and counts as the carbon's copy rewritten; a holdup level that has risen for RISE_ROUNDS is applied. -/
def Obligations.RepairsComplete : Prop :=
  (∀ (w : Twin) (line : Nat) (x : Tag) (s : State), (s.chip w).up = true → line % 64 = 0 → x ∈ (s.chip w).tags → x.stage = .repair →
    x.dpa = line → (s.chip w).twe.repairs = [] → (s.chip w).twinHasCopy = true →
    ∃ t, exec (.repairRequest w line) s = .next t ∧ (t.chip w).twe.repairs = [(line, (s.chip w).repairSource line)] ∧
      (t.chip w).twe.holds.contains line = true ∧ (t.chip w).get F.REP_REPAIRS_PENDING = 1 ∧ t.chip w.other = s.chip w.other) ∧
  (∀ (w : Twin) (line : Nat) (data : Line) (s : State), (s.chip w).up = true → (s.chip w.other).up = true → (s.chip w).mirrored = true →
    (s.chip w).linkUp = true → (s.chip w).cfgOn F.REP_CSIGN_CFG_ENABLE = true → line % 64 = 0 → (s.chip w).inCommons line = false →
    (s.chip w).cleanBackCopy line = false → (s.chip w.other).cleanBackCopy line = false →
    ∃ t, exec (.countersignMismatch w line false true 0 data) s = .next t ∧ (t.chip w).is F.REP_EV_CSIGN_MISMATCH = true ∧
      (t.chip w).count K.REP_CSIGN_CARBON_FIXED = ((s.chip w).count K.REP_CSIGN_CARBON_FIXED + 1) % 2 ^ 48 ∧
      t.chip w.other = s.chip w.other) ∧
  (∀ (w : Twin) (s : State), (s.chip w).up = true → (s.chip w).running 0x0D0 = true →
    (s.chip w).cfg F.GOV_HOLDUP_CFG_RISE_ROUNDS ≤ (s.chip w).svc.risingRun → 0 < (s.chip w).svc.risingRun → (s.chip w).svc.risingMin ≤ 7 →
    ∃ t, exec (.holdupRise w) s = .next t ∧ (t.chip w).svc.risingRun = 0 ∧ (t.chip w).get F.GOV_GOV_HOLDUP_APPLIED = (s.chip w).svc.risingMin ∧
      t.chip w.other = s.chip w.other)

/-! ## Resync, retirement, the tiers and the Metadata Cache -/

/-- From R207, R214, R216, R217, R221, R253, R272: a survivor and its joiner in a step of a resync go on to the next: from the configuration, with equal
digests of the pair's pages, by change map or full copy; from the front and from the back tier once nothing is left to copy and every copy has ended, the
tiers as they were; at the end, with every link in L0 tracked and the joiner aligned, both are MIRRORED in the survivor's epoch, with RESYNC_DONE. A joiner of less
capacity is ISOLATED, the survivor's mode as it was. An extent whose copy starts is in copy; one that has arrived without poison for a front frame
of the joiner is copied on both, no byte of another extent's frame changed. The speaker starts its endpoint with what the last speaker told, with
SPEAKER_MOVED. -/
def Obligations.ResyncComplete : Prop :=
  (∀ (v j : Twin) (s : State), s.resyncing 1 = some (v, j) →
    (pairPages.all fun p => (s.chip v).pageDigest p == (s.chip j).pageDigest p) = true →
    ∃ t, exec .resyncConfigDone s = .next t ∧ (t.chip v).get F.RSY_RESYNC_STATE = 2 ∧ (t.chip j).get F.RSY_RESYNC_STATE = 2 ∧
      (t.chip v).get F.RSY_RESYNC_KIND = bit (!Chip.byChangeMap (s.chip v) (s.chip j)) ∧
      (t.chip j).get F.RSY_RESYNC_KIND = bit (!Chip.byChangeMap (s.chip v) (s.chip j)) ∧
      (t.chip j).get F.RSY_EXTENTS_TOTAL = (t.chip v).get F.RSY_EXTENTS_TOTAL) ∧
  (∀ (v j : Twin) (s : State), s.resyncing 2 = some (v, j) → (s.chip v).toCopy true = [] → (s.chip v).copiesEnded = true →
    ∃ t, exec .resyncFrontDone s = .next t ∧ (t.chip v).get F.RSY_RESYNC_STATE = 3 ∧ (t.chip j).get F.RSY_RESYNC_STATE = 3 ∧
      (t.chip v).trm = (s.chip v).trm ∧ (t.chip j).trm = (s.chip j).trm) ∧
  (∀ (v j : Twin) (s : State), s.resyncing 3 = some (v, j) → (s.chip v).toCopy true = [] → (s.chip v).toCopy false = [] →
    (s.chip v).copiesEnded = true →
    ∃ t, exec .resyncBackDone s = .next t ∧ (t.chip v).get F.RSY_RESYNC_STATE = 4 ∧ (t.chip j).get F.RSY_RESYNC_STATE = 4 ∧
      (t.chip v).trm = (s.chip v).trm ∧ (t.chip j).trm = (s.chip j).trm) ∧
  (∀ (v j : Twin) (s : State), s.resyncing 4 = some (v, j) →
    (allHeads.all fun h => !(s.chip v).inL0 h || (s.chip j).trackState h == 2) = true → (s.chip j).get F.CLK_ALIGN_STATE_STATE = 2 →
    ∃ t, exec .resyncFinish s = .next t ∧ (t.chip v).mode = mMIRRORED ∧ (t.chip j).mode = mMIRRORED ∧
      (t.chip v).epoch = (s.chip v).epoch ∧ (t.chip j).epoch = (s.chip v).epoch ∧ (t.chip v).twe.changeMap = none ∧
      (t.chip v).get F.RSY_RESYNC_STATE = 0 ∧ (t.chip j).get F.RSY_RESYNC_STATE = 0 ∧ (t.chip v).is F.RSY_EV_RESYNC_DONE = true) ∧
  (∀ (v j : Twin) (s : State), s.resyncing 1 = some (v, j) →
    (s.chip j).get F.TIER_CAPACITY_HOST_256M < (s.chip v).get F.TIER_CAPACITY_HOST_256M →
    ∃ t, exec .resyncCapacityRefuse s = .next t ∧ (t.chip j).mode = mISOLATED ∧ (∀ p : Fin 6, (t.chip j).role p = 3) ∧
      (t.chip j).twe.noJoin = true ∧ (t.chip v).mode = (s.chip v).mode ∧ (t.chip v).get F.RSY_RESYNC_STATE = 0 ∧
      (t.chip v).is F.RSY_EV_RESYNC_ABORTED = true) ∧
  (∀ (w : Twin) (e : Nat) (s : State), (s.chip w).up = true → (s.chip w).copyStarts = [e] → (s.chip w).twe.inCopy.contains e = false →
    ∃ t, exec .extentCopyApply s = .next t ∧ (t.chip w).twe.inCopy = (s.chip w).twe.inCopy ++ [e] ∧
      (t.chip w).twe.copyDue.all (fun x => x.1 != e) = true ∧ (t.chip w).trm = (s.chip w).trm) ∧
  (∀ (v j : Twin) (e : Nat) (bytes : List (Nat × Byte)) (s : State), s.resyncing 2 = some (v, j) →
    ((s.chip j).twe.arrived.find? fun x => x.1 == e) = some (e, bytes, []) → (s.chip j).twe.inCopy.contains e = true →
    ((s.chip j).ext e).state = 2 → ((s.chip j).ext e).frame.isSome = true →
    ∃ t, exec (.extentCopyDone e) s = .next t ∧ (t.chip j).twe.inCopy.contains e = false ∧ (t.chip v).twe.inCopy.contains e = false ∧
      (t.chip j).twe.copied.contains e = true ∧ (t.chip v).twe.copied.contains e = true ∧
      (∀ a : Nat, a / 2 ^ 21 ≠ e → Table.get zeroByte (t.chip j).trm.front a = Table.get zeroByte (s.chip j).trm.front a) ∧
      (t.chip v).trm = (s.chip v).trm) ∧
  (∀ (w : Twin) (s : State), (s.chip w).isSpeaker = true → (s.chip w).twe.endpointUp = false →
    ∃ t, exec (.speakerEndpointStarted w) s = .next t ∧ (t.chip w).twe.endpointUp = true ∧ (t.chip w).is F.RSY_EV_SPEAKER_MOVED = true ∧
      (t.chip w).mti.last = (match (s.chip w).twe.speakerState with | some x => x.2 | none => []) ∧ t.chip w.other = s.chip w.other)

/-- From R458: a started retirement of a ring, at its one keeper and of that chip, the twin left as it was: of a populated row whose repairs of both kinds are
unused, where PPR may start, with no frame retired: PPR starts and the command waits for it; of a frame of the pool that no extent uses and the pool can
spare: the frame is retired and the command ends; of a parcel without a copy in the Last: the command ends, the tiers as they were. -/
def Obligations.RetirementsComplete : Prop :=
  (∀ (w : Twin) (q : Fin 64) (x : RingCmd) (s : State), s.carries w q x = true → x.opcode = 0x300 →
    x.usesOnly [(16, 1), (20, 8)] = true → x.field 16 1 = (s.chip w).rst.twinId → (s.chip w).rst.twinId ≤ 1 →
    (s.chip w).rowPopulated (Chip.placeOf (x.field 20 8)) = true →
    (s.chip w).cbl.hpprRows.contains ((Chip.placeOf (x.field 20 8)).ch, (Chip.placeOf (x.field 20 8)).rowKey) = false →
    (s.chip w).cbl.spprRows.contains ((Chip.placeOf (x.field 20 8)).ch, (Chip.placeOf (x.field 20 8)).rowKey) = false →
    (s.chip w).cbl.framesRetired = [] → (s.chip w).pprMay = true →
    ∃ t, exec (.retireDramRow q x.idx) s = .next t ∧ (t.chip w).get (F.DRF_PPR_STATUS_STATE (Chip.placeOf (x.field 20 8)).ch) = 1 ∧
      (t.chip w).cbl.retireJobs = (s.chip w).cbl.retireJobs ++ [{ q, idx := x.idx, opcode := 0x300, address := x.field 8 8, location := x.field 20 8, started := true }] ∧
      t.chip w.other = s.chip w.other) ∧
  (∀ (w : Twin) (q : Fin 64) (x : RingCmd) (f : Nat) (s : State), s.carries w q x = true → x.opcode = 0x301 →
    x.usesOnly [(8, 8), (16, 1)] = true → x.field 16 1 = (s.chip w).rst.twinId → (s.chip w).rst.twinId ≤ 1 → x.field 8 8 % 2 ^ 21 = 0 →
    (s.chip w).frameAt (x.field 8 8) = some f → (s.chip w).cbl.framesRetired.contains f = false →
    (s.chip w).poolNeed + 1 ≤ (s.chip w).poolFrames → ((s.chip w).trm.ext.all fun y => y.2.frame != some f) = true →
    ∃ t, exec (.retireFrame q x.idx) s = .next t ∧ (t.chip w).cbl.framesRetired = f :: (s.chip w).cbl.framesRetired ∧
      (t.chip w).trm.ext = (s.chip w).trm.ext ∧ (t.chip w).ringCmd q.val x.idx = none ∧ t.chip w.other = s.chip w.other) ∧
  (∀ (w : Twin) (q : Fin 64) (x : RingCmd) (s : State), s.carries w q x = true → x.opcode = 0x302 →
    x.usesOnly [(8, 8), (16, 1)] = true → x.field 16 1 = (s.chip w).rst.twinId → (s.chip w).rst.twinId ≤ 1 → x.field 8 8 % 65536 = 0 →
    ((s.chip w).domainOf (x.field 8 8)).isSome = true → ((s.chip w).parcel (parcelOf (x.field 8 8))).state ≠ 1 →
    ∃ t, exec (.retireParcel q x.idx) s = .next t ∧ (t.chip w).trm = (s.chip w).trm ∧ (t.chip w).ringCmd q.val x.idx = none ∧
      t.chip w.other = s.chip w.other)

/-- From R56, R263, R267, R270, R271, R281 to R283: on a chip that runs, the twin left as it was: a domain register written by a requester that may is stored in the bits it
has, while its page does not run, or, with DOMAIN_CHANGED, while it runs and the value passes every check; a parcel without patch of a promotion is laid
byte for byte into its frame, no other parcel's bytes changed; an empty parcel of a front extent is cleaned: its frame is as it was and no longer dirty; a
frame to be freed that no request or drain uses is to be zeroed, no other extent's bytes changed, and once zeroed it waits no longer. -/
def Obligations.TierStepsComplete : Prop :=
  (∀ (w : Twin) (rq : Requester) (d : Fin 64) (reg : Fin 4) (data : Word) (s : State), (s.chip w).up = true → (s.chip w).mayWrite rq 0x0A1 = true →
    (s.chip w).running 0x0A1 = false →
    ∃ t, exec (.domainWrite w rq d reg data) s = .next t ∧
      (t.chip w).rd 0x0A1 (Chip.domOff d.val reg.val) = data &&& BitVec.ofNat 32 (Chip.domMask reg.val) ∧
      (t.chip w).trm = (s.chip w).trm ∧ t.chip w.other = s.chip w.other) ∧
  (∀ (w : Twin) (rq : Requester) (d : Fin 64) (reg : Fin 4) (data : Word) (x : Chip) (s : State), (s.chip w).up = true →
    (s.chip w).mayWrite rq 0x0A1 = true → (s.chip w).running 0x0A1 = true →
    x = ((s.chip w).wr 0x0A1 (Chip.domOff d.val reg.val) (data &&& BitVec.ofNat 32 (Chip.domMask reg.val))).setUsed 0x0A1
      (Chip.domOff d.val reg.val) (data &&& BitVec.ofNat 32 (Chip.domMask reg.val)) →
    (s.chip w).domainCode x d.val (s.pairCapacity w) (s.pairPool w) = 0 →
    ∃ t, exec (.domainWrite w rq d reg data) s = .next t ∧
      (t.chip w).rd 0x0A1 (Chip.domOff d.val reg.val) = data &&& BitVec.ofNat 32 (Chip.domMask reg.val) ∧
      (t.chip w).is F.DOM_EV_DOMAIN_CHANGED = true ∧ t.chip w.other = s.chip w.other) ∧
  (∀ (w : Twin) (p : Nat) (s : State), (s.chip w).up = true → ((s.chip w).ext (p / 32)).state = 3 → ((s.chip w).ext (p / 32)).frame.isSome = true →
    (s.chip w).trm.stepRunning.contains p = true → (s.chip w).patchOf p = [] →
    ∃ t, exec (.copyStepDone w p) s = .next t ∧ (t.chip w).trm.stepDone.contains p = true ∧ (t.chip w).trm.stepRunning.contains p = false ∧
      (∀ a : Nat, a / 65536 = p → Table.get zeroByte (t.chip w).trm.front a = Table.get zeroByte (s.chip w).trm.packed a) ∧
      (∀ a : Nat, a / 65536 ≠ p → Table.get zeroByte (t.chip w).trm.front a = Table.get zeroByte (s.chip w).trm.front a) ∧
      (t.chip w).trm.packed = (s.chip w).trm.packed ∧ t.chip w.other = s.chip w.other) ∧
  (∀ (w : Twin) (p : Nat) (s : State), (s.chip w).up = true → ((s.chip w).ext (p / 32)).state = 2 → ((s.chip w).ext (p / 32)).frame.isSome = true →
    (s.chip w).trm.stepRunning.contains p = true → (Chip.contentOf (s.chip w).trm.front p).isEmpty = true →
    ((s.chip w).trm.frontPoison.filter fun l => l / 65536 == p) = [] →
    ∃ t, exec (.packStepDone w p false) s = .next t ∧ (t.chip w).trm.stepRunning.contains p = false ∧ (t.chip w).trm.dirty.contains p = false ∧
      (t.chip w).trm.front = (s.chip w).trm.front ∧
      (t.chip w).count K.TIER_CLEANED_PARCELS = ((s.chip w).count K.TIER_CLEANED_PARCELS + 1) % 2 ^ 48 ∧ t.chip w.other = s.chip w.other) ∧
  (∀ (w : Twin) (f e : Nat) (s : State), (s.chip w).up = true → ((s.chip w).trm.freeing.find? fun x => x.1 == f) = some (f, e) →
    ((s.chip w).tags.any fun t => extentOf t.dpa == e) = false →
    ((s.chip w).wmb.any fun y => extentOf (y.1 * 64) == e && y.2.state == .draining) = false →
    ∃ t, exec (.frameFree w f) s = .next t ∧ (t.chip w).trm.zeroing = (s.chip w).trm.zeroing ++ [f] ∧
      (t.chip w).trm.freeing = (s.chip w).trm.freeing.filter (fun y => y.1 != f) ∧
      (∀ a : Nat, a / 2 ^ 21 ≠ e → Table.get zeroByte (t.chip w).trm.front a = Table.get zeroByte (s.chip w).trm.front a) ∧
      t.chip w.other = s.chip w.other) ∧
  (∀ (w : Twin) (f : Nat) (s : State), (s.chip w).up = true → (s.chip w).trm.zeroing.contains f = true →
    ∃ t, exec (.frameZeroDone w f) s = .next t ∧ (t.chip w).trm.zeroing.contains f = false ∧
      (t.chip w).trm.front = (s.chip w).trm.front ∧ t.chip w.other = s.chip w.other)

/-- From R298 to R303, R460: on a chip that runs, the twin left as it was: the reset of the Metadata Cache ends with no line held; an operation of each kind, by a requester
that may write its running page, none in progress and KIND of its kind, begins, with PROGRESS 0, over the lines that the page names; an unlock in its
range ends, with PROGRESS its count and OP_DONE; a way that is being disabled is out of use, with WAY_DISABLED. -/
def Obligations.MetadataCacheComplete : Prop :=
  (∀ (w : Twin) (s : State), (s.chip w).up = true → (s.chip w).mdc.invalidated = false →
    ∃ t, exec (.mdcInvalidationDone w) s = .next t ∧ (t.chip w).mdc.invalidated = true ∧ (t.chip w).mdc.lines = [] ∧
      (t.chip w).regs = (s.chip w).regs ∧ (t.chip w).trm = (s.chip w).trm ∧ t.chip w.other = s.chip w.other) ∧
  (∀ (w : Twin) (rq : Requester) (s : State), (s.chip w).up = true → (s.chip w).mayWrite rq 0x0C1 = true → (s.chip w).running 0x0C1 = true →
    (s.chip w).get F.MNT_OP_STATUS_STATE ≠ 1 →
    ∀ x ∈ ([(.mdcClean w rq, 0), (.mdcInvalidate w rq, 1), (.mdcCleanInvalidate w rq, 2), (.mdcLock w rq, 3),
      (.mdcUnlock w rq, 4)] : List (Instr × Nat)), (s.chip w).get F.MNT_OP_KIND = x.2 →
    ∃ t, exec x.1 s = .next t ∧ (t.chip w).get F.MNT_OP_STATUS_STATE = 1 ∧ (t.chip w).get F.MNT_OP_STATUS_ERR = 0 ∧
      (t.chip w).get F.MNT_OP_PROGRESS = 0 ∧
      (t.chip w).mdc = { (s.chip w).mdc with op := some (x.2, (s.chip w).get F.MNT_OP_ADDR_LO + 2 ^ 24 * (s.chip w).get F.MNT_OP_ADDR_HI, (s.chip w).get F.MNT_OP_COUNT) } ∧
      (t.chip w).trm = (s.chip w).trm ∧ t.chip w.other = s.chip w.other) ∧
  (∀ (w : Twin) (line n : Nat) (s : State), (s.chip w).up = true → (s.chip w).mdc.op = some (4, line, n) → (s.chip w).is F.MNT_OP_MODE = false →
    line + n ≤ 2 ^ 28 → n < 2 ^ 28 →
    ∃ t, exec (.mdcOpDone w) s = .next t ∧ (t.chip w).get F.MNT_OP_STATUS_STATE = 2 ∧ (t.chip w).get F.MNT_OP_PROGRESS = n % 2 ^ 32 ∧
      (t.chip w).mdc.op = none ∧ (t.chip w).is F.MNT_EV_OP_DONE = true ∧ t.chip w.other = s.chip w.other) ∧
  (∀ (w : Twin) (v : Fin 18) (s : State), (s.chip w).up = true → (s.chip w).mdc.disabling.contains v.val = true →
    ∃ t, exec (.wayDisableDone w v) s = .next t ∧ (t.chip w).mdc.disabling.contains v.val = false ∧
      ((t.chip w).get F.MDC_WAYS_DISABLED).testBit v.val = true ∧ (t.chip w).cbl.retiredWays.contains v.val = true ∧
      (t.chip w).is F.MDC_EV_WAY_DISABLED = true ∧ t.chip w.other = s.chip w.other)

/-! ## The media engine (R336 to R379) -/

/-- From R336, R344, R349, R350, R356, R358, R363 to R365: on a chip that runs, the twin left as it was: a parcel's copy read well, with none of its data columns
short, answers the one direct read of an unpoisoned line that waits for it; one that is not read in time has that read wait for repair, with UNCORRECTABLE; a
program of a column under way, outside a save, ends: the one staged copy no longer waits for it; the last column of an erase ends well: the row is as
formatted and erased once more; a LUN that does not answer is retired, with LUN_RETIRED; NAND calibration changes nothing; a patched BACK parcel of age is
queued for its merge; a format under way, not at a restore, leaves the Last with no copy, of the geometry found, MODE 2. -/
def Obligations.MediaComplete : Prop :=
  (∀ (w : Twin) (p : Nat) (x : MediaRead) (y : Tag) (s : State), (s.chip w).up = true → ((s.chip w).parcel p).state = 1 → (s.chip w).tags = [y] →
    y.stage = .direct → y.isTag = true → parcelOf y.dpa = p → y.fixed = false → (s.chip w).che.ordered = [] → (s.chip w).mde.merges = [] →
    (s.chip w).mde.moves = [] → (s.chip w).mde.direct.all (fun d => d.1 != p) = true → x.crcGood = true → ((s.chip w).row ((s.chip w).rowOfLoc ((s.chip w).parcel p).loc)).data ≤ x.good →
    ((s.chip w).fullLine y.dpa).2 = false →
    ∃ t, exec (.arrayReadDone w p x) s = .next t ∧ (t.chip w).tags = [] ∧
      (((t.chip w).head y.req.head).txHist.getLast?.map fun x => x.msg) =
        some (.memData y.req.pos y.dpa ((s.chip w).fullLine y.dpa).1 false y.grant) ∧
      t.chip w.other = s.chip w.other) ∧
  (∀ (w : Twin) (p : Nat) (y : Tag) (s : State), (s.chip w).up = true → (s.chip w).tags = [y] → y.stage = .direct → parcelOf y.dpa = p →
    ∃ t, exec (.directReadTimeout w p) s = .next t ∧ (t.chip w).tags = [{ y with stage := .repair }] ∧
      (t.chip w).is F.MDE_EV_UNCORRECTABLE = true ∧
      (t.chip w).count K.MDE_UNCORRECTABLE = ((s.chip w).count K.MDE_UNCORRECTABLE + 1) % 2 ^ 48 ∧
      (t.chip w).trm = (s.chip w).trm ∧ t.chip w.other = s.chip w.other) ∧
  (∀ (w : Twin) (r : Nat) (k : Fin 32) (x : Staged) (s : State), (s.chip w).up = true → (s.chip w).mde.staged = [x] → x.row = r →
    x.left.testBit k.val = true → (s.chip w).opRuns r k.val false = true → (s.chip w).svcState ≠ 4 →
    ∃ t, exec (.programDone w r k true) s = .next t ∧
      (t.chip w).mde.staged = (if x.left = 2 ^ k.val then [] else [{ x with left := x.left - 2 ^ k.val }]) ∧
      (t.chip w).count (K.CHN_PROGRAMS k.val) = ((s.chip w).count (K.CHN_PROGRAMS k.val) + 1) % 2 ^ 48 ∧
      (t.chip w).mde.rows = (s.chip w).mde.rows ∧ (t.chip w).trm = (s.chip w).trm ∧ t.chip w.other = s.chip w.other) ∧
  (∀ (w : Twin) (r : Nat) (k : Fin 32) (s : State), (s.chip w).up = true → ((s.chip w).row r).state = 3 →
    ((s.chip w).row r).todo = 2 ^ k.val → ((s.chip w).mde.retireAtErase.get (fun _ => 0) r).testBit k.val = false →
    (s.chip w).opRuns r k.val true = true →
    ∃ t, exec (.eraseDone w r k true) s = .next t ∧ (t.chip w).row r = (s.chip w).rowInit r ∧
      (t.chip w).count K.LAST_ROWS_ERASED = ((s.chip w).count K.LAST_ROWS_ERASED + 1) % 2 ^ 48 ∧
      (t.chip w).mde.erases.get (fun _ => 0) r = (s.chip w).mde.erases.get (fun _ => 0) r + 1 ∧
      (t.chip w).trm = (s.chip w).trm ∧ t.chip w.other = s.chip w.other) ∧
  (∀ (w : Twin) (k u : Fin 32) (s : State), (s.chip w).up = true → (s.chip w).mde.retiredLuns.contains (k.val * 32 + u.val) = false →
    ∃ t, exec (.lunStatusTimeout w k u) s = .next t ∧ (t.chip w).mde.retiredLuns = (k.val * 32 + u.val) :: (s.chip w).mde.retiredLuns ∧
      ((t.chip w).get (F.CHN_CHAN_CFG_LUN_OFF k.val)).testBit u.val = true ∧ (t.chip w).is (F.CHN_EV_LUN_RETIRED k.val) = true ∧
      (t.chip w).trm = (s.chip w).trm ∧ t.chip w.other = s.chip w.other) ∧
  (∀ (w : Twin) (s : State), exec (.nandZqCalibration w) s = .next s) ∧
  (∀ (w : Twin) (p : Nat) (s : State), (s.chip w).up = true → ((s.chip w).ext (p / 32)).state = 1 → (s.chip w).mde.merges.contains p = false →
    (s.chip w).patchOf p ≠ [] → (s.chip w).mde.patchBorn.get (fun _ => 0) p ≠ 0 →
    (s.chip w).mde.patchBorn.get (fun _ => 0) p + 2 ^ 20 ≤ (s.chip w).round + 1 →
    ∃ t, exec (.patchAgeExpiry w p) s = .next t ∧ (t.chip w).mde.merges = (s.chip w).mde.merges ++ [p] ∧ (t.chip w).regs = (s.chip w).regs ∧
      (t.chip w).trm = (s.chip w).trm ∧ t.chip w.other = s.chip w.other) ∧
  (∀ (w : Twin) (x : MediaScan) (s : State), (s.chip w).up = true → (s.chip w).get F.MDE_MODE = 1 → (s.chip w).rst.step ≠ 7 →
    ∃ t, exec (.formatDone w x) s = .next t ∧ (t.chip w).mde.formatted = true ∧ (t.chip w).mde.scan = x ∧ (t.chip w).get F.MDE_MODE = 2 ∧
      (t.chip w).trm.packed = [] ∧ (t.chip w).trm.parcels = [] ∧ (t.chip w).svc.formattedNow = true ∧ t.chip w.other = s.chip w.other)

/-- From R365, R368, R369: on a chip that runs, the twin left as it was: OFFLINE_REQ, where its page runs, every module is ACTIVE and no row is degraded, takes a module,
and no other, to OFFLINING; from there it is SAFE; removed, ABSENT; ONLINE_REQ of a present module that is ABSENT, SAFE or FAILED takes it to PREPARING;
prepared well it is REBUILDING, its four channels UP; its rebuild ends with it ACTIVE, REBUILD_DONE and no rows left, the frames as they were; a channel that
fails takes its ACTIVE module to OFFLINING, with CHANNEL_FAILED and MODULE_LOST. The requests, and SAFE, raise MODULE_STATE. -/
def Obligations.ModulesComplete : Prop :=
  (∀ (w : Twin) (rq : Requester) (m : Fin 8) (s : State), (s.chip w).up = true → (s.chip w).mayWrite rq 0x386 = true →
    (s.chip w).running 0x386 = true → (∀ n : Fin 8, (s.chip w).modState n.val = 1) → (s.chip w).rowsDegraded = 0 →
    ∃ t, exec (.offlineReq w rq m) s = .next t ∧ (t.chip w).modState m.val = 2 ∧ (∀ n : Fin 8, n ≠ m → (t.chip w).modState n.val = 1) ∧
      (t.chip w).is F.MOD_EV_MODULE_STATE = true ∧ (t.chip w).trm = (s.chip w).trm ∧ t.chip w.other = s.chip w.other) ∧
  (∀ (w : Twin) (m : Fin 8) (s : State), (s.chip w).up = true → (s.chip w).modState m.val = 2 →
    ∃ t, exec (.moduleSafe w m) s = .next t ∧ (t.chip w).modState m.val = 3 ∧ (t.chip w).is F.MOD_EV_MODULE_STATE = true ∧
      (t.chip w).mde = (s.chip w).mde ∧ t.chip w.other = s.chip w.other) ∧
  (∀ (w : Twin) (m : Fin 8) (s : State), (s.chip w).up = true → (s.chip w).modState m.val = 3 →
    ∃ t, exec (.modulePresenceChange w m false) s = .next t ∧ (t.chip w).modState m.val = 0 ∧
      (t.chip w).is (F.MOD_MODULE_PRESENT m.val) = false ∧ (t.chip w).mde = (s.chip w).mde ∧ t.chip w.other = s.chip w.other) ∧
  (∀ (w : Twin) (rq : Requester) (m : Fin 8) (s : State), (s.chip w).up = true → (s.chip w).mayWrite rq 0x386 = true →
    (s.chip w).running 0x386 = true → (s.chip w).modState m.val ∈ [0, 3, 6] → (s.chip w).is (F.MOD_MODULE_PRESENT m.val) = true →
    ∃ t, exec (.onlineReq w rq m) s = .next t ∧ (t.chip w).modState m.val = 4 ∧ (t.chip w).is F.MOD_EV_MODULE_STATE = true ∧
      (t.chip w).mde = (s.chip w).mde ∧ t.chip w.other = s.chip w.other) ∧
  (∀ (w : Twin) (m : Fin 8) (s : State), (s.chip w).up = true → (s.chip w).modState m.val = 4 →
    ∃ t, exec (.modulePrepareDone w m true) s = .next t ∧ (t.chip w).modState m.val = 5 ∧
      (∀ i : Fin 4, (t.chip w).get (F.CHN_CHAN_STATE (4 * m.val + i.val)) = 2) ∧
      (t.chip w).mde.rows = (s.chip w).mde.rows ∧ t.chip w.other = s.chip w.other) ∧
  (∀ (w : Twin) (m : Fin 8) (s : State), (s.chip w).up = true → (s.chip w).modState m.val = 5 →
    ∃ t, exec (.rebuildDone w m) s = .next t ∧ (t.chip w).modState m.val = 1 ∧ (t.chip w).is F.MOD_EV_REBUILD_DONE = true ∧
      (t.chip w).get F.MOD_REBUILD_ROWS_LEFT = 0 ∧ (t.chip w).trm.front = (s.chip w).trm.front ∧ (t.chip w).trm.ext = (s.chip w).trm.ext ∧ t.chip w.other = s.chip w.other) ∧
  (∀ (w : Twin) (k : Fin 32) (s : State), (s.chip w).up = true → (s.chip w).modState (k.val / 4) = 1 →
    ∃ t, exec (.channelFailed w k) s = .next t ∧ (t.chip w).get (F.CHN_CHAN_STATE k.val) = 3 ∧ (t.chip w).modState (k.val / 4) = 2 ∧
      (t.chip w).is (F.CHN_EV_CHANNEL_FAILED k.val) = true ∧ (t.chip w).is F.MOD_EV_MODULE_LOST = true ∧
      (t.chip w).trm = (s.chip w).trm ∧ t.chip w.other = s.chip w.other)

/-! ## Save and restore (R380 to R409) -/

/-- From R393 to R399, R522: the twin left as it was: PFAIL_N low is held, and nothing else the registers show; its commit on a mirrored chip with memory active, ARMED,
starts the save, notes the Round, drops queued moves and raises PFAIL; high again before it is a glitch, counted and raised; the decision is
lone where a mirrored chip's peer has not announced its save within two Rounds; a lone chip is HELD, SVC idle, with no role, and waits to go down; one that is not
holds its ports after the grace, with no tags and the link DOWN; a save with no PPR under way is sealed with its kind, the pair's serial and epoch and
its bytes, LAST_SAVE.US its time, and power goes down; a save that fails is without a seal, the chip HELD with no OWN line. -/
def Obligations.SavesComplete : Prop :=
  (∀ (w : Twin) (s : State), (s.chip w).svc.pfailLow = false →
    ∃ t, exec (.pfailNFall w) s = .next t ∧ (t.chip w).svc.pfailLow = true ∧ (t.chip w).svcState = (s.chip w).svcState ∧
      (t.chip w).regs = (s.chip w).regs ∧ t.chip w.other = s.chip w.other) ∧
  (∀ (w : Twin) (s : State), (s.chip w).up = true → (s.chip w).svc.pfailLow = true → (s.chip w).svcState = 2 → (s.chip w).mirrored = true →
    (s.chip w).memActive = true →
    ∃ t, exec (.pfailCommit w) s = .next t ∧ (t.chip w).svcState = 3 ∧ (t.chip w).svc.committed = some (s.chip w).round ∧
      (t.chip w).trm.queue = [] ∧ (t.chip w).is F.SAV_EV_PFAIL = true ∧
      (t.chip w).count K.SAV_PFAILS = ((s.chip w).count K.SAV_PFAILS + 1) % 2 ^ 48 ∧ t.chip w.other = s.chip w.other) ∧
  (∀ (w : Twin) (s : State), (s.chip w).up = true → (s.chip w).svc.pfailLow = true → (s.chip w).svcState = 2 →
    ∃ t, exec (.pfailNRise w) s = .next t ∧ (t.chip w).svc.pfailLow = false ∧ (t.chip w).svcState = 2 ∧
      (t.chip w).is F.SAV_EV_PFAIL_GLITCH = true ∧
      (t.chip w).count K.SAV_GLITCHES = ((s.chip w).count K.SAV_GLITCHES + 1) % 2 ^ 48 ∧ t.chip w.other = s.chip w.other) ∧
  (∀ (w : Twin) (r : Nat) (s : State), (s.chip w).up = true → (s.chip w).svcState = 3 → (s.chip w).svc.committed = some r →
    ∃ t, exec (.saveDecision w) s = .next t ∧ (t.chip w).svc.decided = true ∧
      (t.chip w).svc.lone = ((s.chip w).mirrored && !(match (s.chip w).svc.peerStart with | some n => decide (n ≤ r + 2) | none => false)) ∧
      (t.chip w).regs = (s.chip w).regs ∧ t.chip w.other = s.chip w.other) ∧
  (∀ (w : Twin) (s : State), (s.chip w).up = true → (s.chip w).svcState = 3 → (s.chip w).svc.decided = true → (s.chip w).svc.lone = true →
    (s.chip w).mirrored = true →
    ∃ t, exec (.lonePfail w) s = .next t ∧ (t.chip w).mode = mHELD ∧ (t.chip w).svcState = 0 ∧ (∀ p : Fin 6, (t.chip w).role p = 0) ∧
      (t.chip w).psq.faultWait = true ∧ t.chip w.other = s.chip w.other) ∧
  (∀ (w : Twin) (s : State), (s.chip w).up = true → (s.chip w).svcState = 3 → (s.chip w).svc.decided = true → (s.chip w).svc.lone = false →
    ∃ t, exec (.graceExpiry w) s = .next t ∧ (t.chip w).svcState = 4 ∧ (t.chip w).svc.held = true ∧ (t.chip w).tags = [] ∧
      (t.chip w).get F.CXK_LINK_STATE = 0 ∧ t.chip w.other = s.chip w.other) ∧
  (∀ (w : Twin) (x : SealWork) (s : State), (s.chip w).up = true → (s.chip w).svcState = 4 → (s.chip w).psqDir = 2 → (s.chip w).psqState ≠ 0 →
    x.us < 2 ^ 32 → (∀ d : Fin 16, (s.chip w).get (F.DRF_PPR_STATUS_STATE d.val) = 0) →
    ∃ t, exec (.saveSealed w x) s = .next t ∧ (t.chip w).svcState = 5 ∧ (t.chip w).get F.SAV_LAST_SAVE_US = x.us ∧
      (t.chip w).svc.sealRec.map (fun x => (x.kind, x.serial, x.epoch, x.bytes)) =
        some ((s.chip w).sealKind, (s.chip w).svc.pairSerial, (s.chip w).epoch, (s.chip w).unsaved) ∧
      (t.chip w).psqDir = 3 ∧ (t.chip w).rst.powered = false ∧ t.chip w.other = s.chip w.other) ∧
  (∀ (w : Twin) (s : State), (s.chip w).up = true → (s.chip w).saveActive = true →
    ∃ t, exec (.saveFailed w) s = .next t ∧ (t.chip w).svcState = 6 ∧ (t.chip w).svc.sealRec = none ∧ (t.chip w).mode = mHELD ∧
      (∀ p : Fin 6, (t.chip w).is (F.HP_PORT_STATUS_OWN_OUT p.val) = false) ∧ t.chip w.other = s.chip w.other)

/-- From R386, R392, R400 to R405, R551, R555: on a chip that runs, the twin left as it was: at step 7 of a start, with formatted media, the seal's read leads to step 8
with the chip's own summary and the bad records; two usable summaries of one pair and epoch make the chip MIRRORED, from its own content, at step 9; its
maps and keys load from the restore image; then its data, the charges among it; the calibration gives the bus rate and the restore's time, with
RESTORE_DONE, the packed copies as they were; a checkpoint, memory active, makes the metadata durable and empties the journal, tiers and registers as they
were. With both restores applied, memory is active on a mirrored chip and all its heads, with MEMORY_ACTIVE. -/
def Obligations.RestoresComplete : Prop :=
  (∀ (w : Twin) (copies : SealCopies) (bad : List Nat) (s : State), (s.chip w).up = true → (s.chip w).rst.step = 7 → (s.chip w).mde.formatted = true →
    ∃ t, exec (.sealReadDone w copies bad) s = .next t ∧ (t.chip w).rst.step = 8 ∧ (t.chip w).svcState = 1 ∧
      (t.chip w).svc.badRecords = bad ∧ (t.chip w).svc.own.isSome = true ∧ (t.chip w).trm = (s.chip w).trm ∧ t.chip w.other = s.chip w.other) ∧
  (∀ (w : Twin) (own peer : Summary) (s : State), (s.chip w).up = true → (s.chip w).mode = mSTARTING → (s.chip w).aligned = true →
    (s.chip w).svc.own = some own → (s.chip w).svc.peer = some peer → (s.chip w).peerAlone = false → (s.chip w).choosesNow own peer = true →
    own.serial = peer.serial → own.serial ≠ 0 → own.usable = true → peer.usable = true → own.epoch = peer.epoch →
    ∃ t, exec (.sourceChoice w) s = .next t ∧ (t.chip w).get F.SAV_SVC_SOURCE = 1 ∧ (t.chip w).mode = mMIRRORED ∧ (t.chip w).rst.step = 9 ∧
      t.chip w.other = s.chip w.other) ∧
  (∀ (w : Twin) (s : State), (s.chip w).up = true → (s.chip w).svc.mapsLoaded = false → 9 ≤ (s.chip w).rst.step → (s.chip w).saveActive = false →
    (s.chip w).svc.formedNow = false → (s.chip w).svc.source = 1 →
    ∃ t, exec (.metadataLoadDone w) s = .next t ∧ (t.chip w).svc.mapsLoaded = true ∧ (t.chip w).trm.objects = (s.chip w).restoreImage.objects ∧
      (t.chip w).trm.parcels = (s.chip w).restoreImage.parcels ∧ (t.chip w).sec.keys = (s.chip w).restoreImage.keys ∧
      (t.chip w).trm.packed = (s.chip w).trm.packed ∧ t.chip w.other = s.chip w.other) ∧
  (∀ (w : Twin) (s : State), (s.chip w).up = true → (s.chip w).svc.mapsLoaded = true → (s.chip w).svc.dataLoaded = false →
    (s.chip w).saveActive = false → (s.chip w).svc.formedNow = false →
    ∃ t, exec (.restoreLoadDone w) s = .next t ∧ (t.chip w).svc.dataLoaded = true ∧ (t.chip w).charges = (s.chip w).restoreImage.charges ∧
      (t.chip w).trm.packed = (s.chip w).trm.packed ∧ (t.chip w).mode = (s.chip w).mode ∧ t.chip w.other = s.chip w.other) ∧
  (∀ (w : Twin) (rate tprog fixed ms : Nat) (s : State), (s.chip w).up = true → (s.chip w).svc.calibrated = false → (s.chip w).svc.dataLoaded = true →
    (s.chip w).svc.source = 1 → (s.chip w).saveActive = false → rate < 2 ^ 32 → ms < 2 ^ 32 →
    ∃ t, exec (.calibrationDone w rate tprog fixed ms) s = .next t ∧ (t.chip w).svc.calibrated = true ∧
      (t.chip w).get F.GOV_RATE_BUS_CAL_MBPS = rate ∧ (t.chip w).get F.SAV_LAST_RESTORE_MS = ms ∧ (t.chip w).is F.SAV_EV_RESTORE_DONE = true ∧
      (t.chip w).trm.packed = (s.chip w).trm.packed ∧ t.chip w.other = s.chip w.other) ∧
  (∀ (w : Twin) (s : State), (s.chip w).up = true → (s.chip w).svc.mapsLoaded = true → (s.chip w).memActive = true → (s.chip w).saveActive = false →
    ∃ t, exec (.checkpointCommit w) s = .next t ∧ (t.chip w).svc.checkpoint = (s.chip w).svc.checkpoint + 1 ∧
      (t.chip w).svc.durable = (s.chip w).metaImage ∧ (t.chip w).svc.journalTail = 0 ∧ (t.chip w).trm = (s.chip w).trm ∧
      (t.chip w).regs = (s.chip w).regs ∧ t.chip w.other = s.chip w.other) ∧
  (∀ (w : Twin) (s : State), s.restored = true → (s.chip w).up = true → (s.chip w).mirrored = true → (s.chip w).memActive = false →
    ∃ t, exec .memoryActive s = .next t ∧ (t.chip w).memActive = true ∧ (t.chip w).svcState = 2 ∧
      (∀ h : Fin 24, (t.chip w).is (F.HLNK_LINK_MEM_ACTIVE h.val) = true) ∧ (t.chip w).is F.RST_EV_MEMORY_ACTIVE = true ∧
      (t.chip w).svc.refill = [])

/-! ## The DRAM channels (R410 to R441) -/

/-- From R419 to R422, R425, R428, R429, R442, R449: on a chip that runs, the twin left as it was: an interval of a channel not in Self-refresh, each debt below POSTPONE
less one, adds one to the four debts of a rank that serves; a same-bank refresh of an idle bank above PULLIN takes one from its debt, counted; its end frees the
rank; an MR4 poll shows the ranks at double rate, with TEMP_HIGH for a new one; an idle ARMED channel, no rank out, nothing queued and nothing owed, enters
Self-refresh with no row open, with SR_ENTERED; its exit leaves it in operation, with no backlog or debt; ZQCal Latch follows its Start, counted; a drift above
THRESH_PS moves the baseline, counted; a backlog of 2^24 pairs wakes a channel, counted; ALERT_n of a fitted channel counts in CA_PARITY. -/
def Obligations.DramUpkeepComplete : Prop :=
  (∀ (w : Twin) (d r : Fin 16) (ranks : BitVec 16) (s : State), (s.chip w).up = true → (s.chip w).pwr d.val < 2 → ranks.getLsbD r.val = true →
    (s.chip w).rankServes d.val r.val = true →
    (∀ (r' : Fin 16) (k : Fin 4), (s.chip w).debt d.val r'.val k.val + 1 < (s.chip w).cfg (F.DRF_REF_CFG_POSTPONE d.val)) →
    (∀ (r' : Fin 16) (k : Fin 4), (s.chip w).debt d.val r'.val k.val < 7) →
    ∃ t, exec (.refreshInterval w d ranks) s = .next t ∧
      (∀ k : Fin 4, (t.chip w).debt d.val r.val k.val = (s.chip w).debt d.val r.val k.val + 1) ∧
      (t.chip w).chans = (s.chip w).chans ∧ (t.chip w).tags = (s.chip w).tags ∧ t.chip w.other = s.chip w.other) ∧
  (∀ (w : Twin) (d r : Fin 16) (k : Fin 4) (s : State), (s.chip w).up = true → (s.chip w).pwr d.val = 0 → (s.chip w).rankServes d.val r.val = true →
    (s.chip w).bankQueued d.val r.val k.val = false → -((s.chip w).cfg (F.DRF_REF_CFG_PULLIN d.val) : Int) < (s.chip w).debt d.val r.val k.val →
    ∃ t, exec (.refsbIssue w d r k) s = .next t ∧
      ((t.chip w).chan d.val).refreshing = (r.val, k.val) :: ((s.chip w).chan d.val).refreshing ∧
      (t.chip w).debt d.val r.val k.val = (s.chip w).debt d.val r.val k.val - 1 ∧
      (t.chip w).count (K.DRF_REFSB_ISSUED d.val) = ((s.chip w).count (K.DRF_REFSB_ISSUED d.val) + 1) % 2 ^ 48 ∧
      (t.chip w).trm = (s.chip w).trm ∧ t.chip w.other = s.chip w.other) ∧
  (∀ (w : Twin) (d r : Fin 16) (s : State), (s.chip w).up = true → (s.chip w).pwr d.val = 0 →
    ∃ t, exec (.refreshDone w d r) s = .next t ∧
      ((t.chip w).chan d.val).refreshing = ((s.chip w).chan d.val).refreshing.filter (fun y => y.1 != r.val) ∧
      (t.chip w).regs = (s.chip w).regs ∧ t.chip w.other = s.chip w.other) ∧
  (∀ (w : Twin) (d : Fin 16) (twoX : BitVec 16) (s : State), (s.chip w).up = true →
    ∃ t, exec (.mr4Poll w d twoX) s = .next t ∧ (t.chip w).get (F.DCH_CH_REF_2X d.val) = twoX.toNat ∧
      (twoX &&& ~~~BitVec.ofNat 16 ((s.chip w).get (F.DCH_CH_REF_2X d.val)) ≠ 0 → (t.chip w).is (F.DCH_EV_TEMP_HIGH d.val) = true) ∧
      t.chip w.other = s.chip w.other) ∧
  (∀ (w : Twin) (d : Fin 16) (s : State), (s.chip w).up = true → (s.chip w).cfg (F.DRF_SR_CFG_IDLE_US d.val) ≠ 0 → (s.chip w).pwr d.val = 0 →
    ((s.chip w).chan d.val).out = none → (s.chip w).queuedReads d.val = [] → (s.chip w).svcState = 2 → (∀ (r : Fin 16) (k : Fin 4), (s.chip w).debt d.val r.val k.val ≤ 0) →
    ((s.chip w).chan d.val).refreshing = [] →
    ∃ t, exec (.srIdleExpiry w d) s = .next t ∧ (t.chip w).pwr d.val = 2 ∧ (t.chip w).is (F.DRF_EV_SR_ENTERED d.val) = true ∧
      ((t.chip w).chan d.val).rows = [] ∧ t.chip w.other = s.chip w.other) ∧
  (∀ (w : Twin) (d : Fin 16) (ns : Nat) (s : State), (s.chip w).up = true → (s.chip w).pwr d.val = 3 →
    ∃ t, exec (.srExitDone w d ns) s = .next t ∧ (t.chip w).pwr d.val = 0 ∧ ((t.chip w).chan d.val).backlog = 0 ∧
      (∀ (r : Fin 16) (k : Fin 4), (t.chip w).debt d.val r.val k.val = 0) ∧ t.chip w.other = s.chip w.other) ∧
  (∀ (w : Twin) (d r : Fin 16) (s : State), (s.chip w).up = true →
    ∃ t, exec (.dramZqStart w d r) s = .next t ∧ ((t.chip w).chan d.val).zqWait.contains r.val = true ∧
      (t.chip w).regs = (s.chip w).regs ∧ t.chip w.other = s.chip w.other) ∧
  (∀ (w : Twin) (d r : Fin 16) (s : State), (s.chip w).up = true → ((s.chip w).chan d.val).zqWait.contains r.val = true →
    ∃ t, exec (.dramZqLatch w d r) s = .next t ∧ ((t.chip w).chan d.val).zqWait.contains r.val = false ∧
      (t.chip w).count (K.DTR_ZQ_CALS d.val) = ((s.chip w).count (K.DTR_ZQ_CALS d.val) + 1) % 2 ^ 48 ∧ t.chip w.other = s.chip w.other) ∧
  (∀ (w : Twin) (d r : Fin 16) (ps : Int) (s : State), (s.chip w).up = true → (s.chip w).cfg (F.DTR_DRIFT_CFG_THRESH_PS d.val) < ps.natAbs →
    ∃ t, exec (.driftCheck w d r ps) s = .next t ∧
      ((t.chip w).chan d.val).baseline.get (fun _ => 0) r.val = ((s.chip w).chan d.val).baseline.get (fun _ => 0) r.val + ps ∧
      (t.chip w).count (K.DTR_DRIFT_STEPS d.val) = ((s.chip w).count (K.DTR_DRIFT_STEPS d.val) + 1) % 2 ^ 48 ∧
      t.chip w.other = s.chip w.other) ∧
  (∀ (w : Twin) (d : Fin 16) (s : State), (s.chip w).up = true → (s.chip w).pwr d.val = 2 → 2 ^ 24 ≤ ((s.chip w).chan d.val).backlog →
    ∃ t, exec (.patrolWake w d) s = .next t ∧ (t.chip w).pwr d.val = 3 ∧
      (t.chip w).count K.PAT_SR_WAKES = ((s.chip w).count K.PAT_SR_WAKES + 1) % 2 ^ 48 ∧ t.chip w.other = s.chip w.other) ∧
  (∀ (w : Twin) (d : Fin 16) (s : State), (s.chip w).up = true → (s.chip w).rankCount d.val ≠ 0 →
    ∃ t, exec (.alertN w d) s = .next t ∧ (t.chip w).count K.RAS_CA_PARITY = ((s.chip w).count K.RAS_CA_PARITY + 1) % 2 ^ 48 ∧
      (t.chip w).regs = (s.chip w).regs ∧ t.chip w.other = s.chip w.other)

/-- From R424, R426, R427, R436, R460, R463, R479: on a chip that runs, the twin left as it was: training of sixteen channels without a failing rank shows each channel's
DIMMs and ranks, and goes on to step 7, the mode as it was; a rank out of service, not retired and not in PPR, returns with its new eyes, with RETRAIN;
PPR_REQ.GO by a requester that may, where its page runs and PPR may start, notes the row, STATE 1; its copy takes the rank out of service, STATE 2,
and its program ends with ERR, STATE 3, memory as it was; a soft repair asked by software ends well, STATE 0, its row listed and the rank in service; a window
without findings ends and the next begins; the one entry of a directory bank that moves to the spare goes to its free way; the spare core takes a retired
core's place from its reset entry. -/
def Obligations.DramRepairComplete : Prop :=
  (∀ (w : Twin) (x : List ChannelTraining) (d : Fin 16) (y : ChannelTraining) (s : State), (s.chip w).up = true → (∀ z ∈ x, z.failed = 0) →
    x.length = 16 → x[d.val]? = some y →
    ∃ t, exec (.dramTrainingDone w x) s = .next t ∧ ((t.chip w).chan d.val).trained = true ∧
      (t.chip w).get (F.DCH_DIMM_COUNT d.val) = y.dimms.val ∧
      (t.chip w).get (F.DCH_DIMM_RANKS d.val) = y.ranks.val ∧
      (t.chip w).rst.step = max (s.chip w).rst.step 7 ∧ (t.chip w).mode = (s.chip w).mode ∧ t.chip w.other = s.chip w.other) ∧
  (∀ (w : Twin) (d r : Fin 16) (rdEye wrEye : Byte) (s : State), (s.chip w).up = true → ((s.chip w).chan d.val).out = some r.val →
    (s.chip w).cbl.retiredRanks.contains (d.val, r.val) = false → (s.chip w).get (F.DRF_PPR_STATUS_STATE d.val) = 0 →
    ∃ t, exec (.retrainDone w d r true rdEye wrEye) s = .next t ∧ ((t.chip w).chan d.val).out = none ∧
      (t.chip w).get (F.DTR_TRAIN_RD_EYE d.val r.val) = rdEye.toNat ∧ (t.chip w).get (F.DTR_TRAIN_WR_EYE d.val r.val) = wrEye.toNat ∧
      (t.chip w).is (F.DTR_EV_RETRAIN d.val) = true ∧ t.chip w.other = s.chip w.other) ∧
  (∀ (w : Twin) (rq : Requester) (d : Fin 16) (s : State), (s.chip w).up = true → (s.chip w).mayWrite rq (Chip.dmcPage d.val 1) = true →
    (s.chip w).running (Chip.dmcPage d.val 1) = true → (s.chip w).pprMay = true →
    ∃ t, exec (.pprGo w rq d) s = .next t ∧ (t.chip w).get (F.DRF_PPR_STATUS_STATE d.val) = 1 ∧
      ((t.chip w).chan d.val).pprFrom = some ((s.chip w).get (F.DRF_PPR_REQ_RANK d.val), (s.chip w).get (F.DRF_PPR_REQ_BG d.val),
        (s.chip w).get (F.DRF_PPR_REQ_BA d.val), (s.chip w).get (F.DRF_PPR_ROW d.val)) ∧ t.chip w.other = s.chip w.other) ∧
  (∀ (w : Twin) (d : Fin 16) (r bg ba row : Nat) (s : State), (s.chip w).up = true → (s.chip w).get (F.DRF_PPR_STATUS_STATE d.val) = 1 →
    ((s.chip w).chan d.val).pprFrom = some (r, bg, ba, row) → (s.chip w).pwr d.val = 0 → (s.chip w).ranksOut = [] →
    ∃ t, exec (.pprCopyDone w d) s = .next t ∧ (t.chip w).get (F.DRF_PPR_STATUS_STATE d.val) = 2 ∧ ((t.chip w).chan d.val).out = some r ∧
      (t.chip w).dram = (s.chip w).dram ∧ t.chip w.other = s.chip w.other) ∧
  (∀ (w : Twin) (d : Fin 16) (err : Fin 3) (s : State), (s.chip w).up = true → (s.chip w).get (F.DRF_PPR_STATUS_STATE d.val) = 2 →
    ∃ t, exec (.pprProgramDone w d err) s = .next t ∧ (t.chip w).get (F.DRF_PPR_STATUS_STATE d.val) = 3 ∧
      (t.chip w).get (F.DRF_PPR_STATUS_ERR d.val) = err.val ∧ (t.chip w).dram = (s.chip w).dram ∧ t.chip w.other = s.chip w.other) ∧
  (∀ (w : Twin) (d : Fin 16) (r bg ba row : Nat) (s : State), (s.chip w).up = true → (s.chip w).get (F.DRF_PPR_STATUS_STATE d.val) = 3 →
    (s.chip w).get (F.DRF_PPR_STATUS_ERR d.val) = 0 → ((s.chip w).chan d.val).pprFrom = some (r, bg, ba, row) →
    ((s.chip w).chan d.val).pprHard = false → ((s.chip w).chan d.val).pprAuto = false → (s.chip w).cbl.retireJobs = [] →
    ∃ t, exec (.pprDone w d) s = .next t ∧ (t.chip w).get (F.DRF_PPR_STATUS_STATE d.val) = 0 ∧ ((t.chip w).chan d.val).out = none ∧
      (t.chip w).cbl.spprRows = (d.val, (DramPlace.mk d.val r bg ba row 0).rowKey) :: (s.chip w).cbl.spprRows ∧
      (t.chip w).cbl.hpprRows = (s.chip w).cbl.hpprRows ∧ t.chip w.other = s.chip w.other) ∧
  (∀ (w : Twin) (s : State), (s.chip w).up = true → (s.chip w).cbl.windowLeft = 0 → (s.chip w).cbl.pprWait = [] → (s.chip w).cbl.rankPending = [] →
    (∀ d : Fin 16, ((s.chip w).chan d.val).devRows = [] ∧ ((s.chip w).chan d.val).rowCe = []) →
    ∃ t, exec (.cblWindowEnd w) s = .next t ∧ (t.chip w).cbl.windowLeft = (s.chip w).cfg F.CBL_CBL_CFG_WINDOW ∧
      (t.chip w).regs = (s.chip w).regs ∧ (t.chip w).trm = (s.chip w).trm ∧ t.chip w.other = s.chip w.other) ∧
  (∀ (w : Twin) (bank : Fin 17) (d : Fin 64) (k v : Nat) (e : DirEntry) (s : State), (s.chip w).up = true → (s.chip w).tags = [] →
    (s.chip w).che.ordered = [] → (s.chip w).cbl.bankMigrating.contains bank.val = true → (s.chip w).che.shadow = [(k, e)] →
    (s.chip w).dirSet (k * 64) % 16 = bank.val → (s.chip w).domainOf (k * 64) = some d.val → (s.chip w).arbiter d.val = true →
    ({ (s.chip w) with cbl := { (s.chip w).cbl with bankMigrating := dropN (s.chip w).cbl.bankMigrating bank.val } } : Chip).freeWay
      ((s.chip w).dirSet (k * 64)) = some v →
    ∃ t, exec (.dirBankMigrateDone w bank) s = .next t ∧ (t.chip w).cbl.bankMigrating.contains bank.val = false ∧
      (t.chip w).che.shadow.get (fun _ => {}) k = {} ∧ (t.chip w).che.sram.get (fun _ => {}) k = { e with way := v } ∧
      t.chip w.other = s.chip w.other) ∧
  (∀ (w : Twin) (n : Fin 8) (s : State), (s.chip w).up = true → (s.chip w).cbl.coreRetired = [n.val] → (s.chip w).get F.CBO_CORES_LEFT ≠ 0 →
    ∃ t, exec (.coreSpareSwap w n) s = .next t ∧ (t.chip w).cbl.coreRetired = [] ∧ (t.chip w).cbl.coreSwap = some n.val ∧
      (t.chip w).get F.CBO_CORES_LEFT = 0 ∧ ((t.chip w).core n.val).phys = 8 ∧ ((t.chip w).core n.val).pc = 0 ∧
      t.chip w.other = s.chip w.other)

/-! ## Interrupts and control cores (R478 to R513) -/

/-- From R483, R496, R497, R499 to R501, R503, R505: on a chip that runs, the twin left as it was but for SWI: the arrival of an enabled source of no group, a
pulse or an event page's output that rises, adds one to its count, below 255; a group whose time has passed fires each pending source of its that is not fast; the
fast source to serve sends its running core to FVEC with the pc and mode saved, the cause shown, the registers kept and the source in service; FRET takes the core
back to both and ends the service; CLAIM by a requester that may read answers with the source presented, its count and bit 31, and takes it into service,
COMPLETE by one that may write ends it; ICU_SWI adds one to the count of the sources its bits name; disabling a source not presented, of a running page, clears its count;
TARGET up to 7 is taken, ENABLE and priority as they were. -/
def Obligations.InterruptsComplete : Prop :=
  (∀ (w : Twin) (i : Fin 1024) (s : State), (s.chip w).up = true → 0x3C0 ≤ i.val → (s.chip w).srcPulse i.val = true →
    (s.chip w).srcEnable i.val = true → (s.chip w).srcGroup i.val = 0 → ((s.chip w).src i.val).count < 255 →
    ∃ t, exec (.interruptArrival w i true) s = .next t ∧ ((t.chip w).src i.val).count = ((s.chip w).src i.val).count + 1 ∧
      (t.chip w).trm = (s.chip w).trm ∧ t.chip w.other = s.chip w.other) ∧
  (∀ (w : Twin) (i : Fin 1024) (s : State), (s.chip w).up = true → i.val < 0x3C0 → blockOf i.val ≠ 0 →
    (s.chip w).eventOutput i.val = true → ((s.chip w).src i.val).input = false → (s.chip w).srcEnable i.val = true →
    (s.chip w).srcGroup i.val = 0 → ((s.chip w).src i.val).count < 255 →
    ∃ t, exec (.interruptArrival w i true) s = .next t ∧ ((t.chip w).src i.val).input = true ∧
      ((t.chip w).src i.val).count = ((s.chip w).src i.val).count + 1 ∧ t.chip w.other = s.chip w.other) ∧
  (∀ (w : Twin) (g : Fin 64) (i : Nat) (s : State), (s.chip w).up = true → ((s.chip w).group g.val).timing = true →
    ((s.chip w).cfg (F.ICL_COAL_TIME_US g.val) : Int) ≤ ((s.chip w).aonNow - ((s.chip w).group g.val).since + 1) * 4 →
    (s.chip w).pendingSrc i = true → i ∈ (s.chip w).heldSources → (s.chip w).srcGroup i = g.val → (s.chip w).srcFast i = false →
    ∃ t, exec (.coalTimer w g) s = .next t ∧ ((t.chip w).src i).fired = true ∧ ((t.chip w).group g.val).timing = false ∧
      (t.chip w).count (K.ICL_FIRES g.val) = ((s.chip w).count (K.ICL_FIRES g.val) + 1) % 2 ^ 48 ∧ t.chip w.other = s.chip w.other) ∧
  (∀ (w : Twin) (n : Fin 8) (i : Nat) (pc : BitVec 64) (mach : Bool) (s : State), (s.chip w).up = true →
    (s.chip w).best ((s.chip w).fastQualifies n.val) = some i → ((s.chip w).core n.val).running = true →
    ∃ t, exec (.fastEntry w n pc mach) s = .next t ∧ ((t.chip w).core n.val).pc = ((s.chip w).core n.val).fvec ∧
      ((t.chip w).core n.val).fepc = pc ∧ ((t.chip w).core n.val).fstatusMode = mach ∧ ((t.chip w).core n.val).machine = true ∧
      ((t.chip w).core n.val).inFast = true ∧
      ((t.chip w).core n.val).fcause = BitVec.ofNat 64 (i + 2 ^ 10 * ((s.chip w).src i).count) ∧
      ((t.chip w).core n.val).x = ((s.chip w).core n.val).x ∧ ((t.chip w).src i).serving = some n.val ∧
      t.chip w.other = s.chip w.other) ∧
  (∀ (w : Twin) (n : Fin 8) (i : Nat) (s : State), (s.chip w).up = true → ((s.chip w).core n.val).inFast = true →
    ((s.chip w).core n.val).fastSource = some i →
    ∃ t, exec (.coreFret w n) s = .next t ∧ ((t.chip w).core n.val).pc = ((s.chip w).core n.val).fepc ∧
      ((t.chip w).core n.val).machine = ((s.chip w).core n.val).fstatusMode ∧ ((t.chip w).core n.val).inFast = false ∧
      ((t.chip w).core n.val).x = ((s.chip w).core n.val).x ∧ ((t.chip w).src i).serving = none ∧ t.chip w.other = s.chip w.other) ∧
  (∀ (w : Twin) (rq : Requester) (n : Fin 8) (i : Nat) (s : State), (s.chip w).up = true → (s.chip w).mayRead rq 0x115 = true →
    (s.chip w).presentedTo n.val = some i → ((s.chip w).src i).late = false →
    ∃ t, exec (.icuClaim w rq n) s = .next t ∧
      (t.chip w).answers = (s.chip w).answers ++ [⟨rq, (BitVec.ofNat 32 (i + 2 ^ 10 * ((s.chip w).src i).count + 2 ^ 31)).setWidth 64, 0⟩] ∧
      ((t.chip w).src i).serving = some n.val ∧ ((t.chip w).src i).count = 0 ∧ t.chip w.other = s.chip w.other) ∧
  (∀ (w : Twin) (rq : Requester) (n : Fin 8) (i : Fin 1024) (s : State), (s.chip w).up = true → (s.chip w).mayWrite rq 0x115 = true →
    ((s.chip w).src i.val).serving = some n.val →
    ∃ t, exec (.icuComplete w rq n i) s = .next t ∧ ((t.chip w).src i.val).serving = none ∧
      (t.chip w).get (F.ICO_COMPLETE n.val) = i.val ∧ t.chip w.other = s.chip w.other) ∧
  (∀ (w : Twin) (rq : Requester) (bits : Byte) (n : Fin 8) (s : State), (s.chip w).up = true → (s.chip w).mayWrite rq 0x110 = true →
    bits.getLsbD n.val = true → (s.chip w).srcEnable (0x3D0 + n.val) = true → (s.chip w).srcGroup (0x3D0 + n.val) = 0 →
    ((s.chip w).src (0x3D0 + n.val)).count < 255 →
    ∃ t, exec (.icuSwi w rq bits) s = .next t ∧ ((t.chip w).src (0x3D0 + n.val)).count = ((s.chip w).src (0x3D0 + n.val)).count + 1 ∧
      (t.chip w).trm = (s.chip w).trm ∧ t.chip w.other = s.chip w.other) ∧
  (∀ (w : Twin) (rq : Requester) (i : Fin 1024) (s : State), (s.chip w).up = true → (s.chip w).mayWrite rq (srcPage i.val) = true →
    (s.chip w).running (srcPage i.val) = true → ((s.chip w).src i.val).presented = none →
    ∃ t, exec (.sourceDisable w rq i) s = .next t ∧ (t.chip w).srcEnable i.val = false ∧ ((t.chip w).src i.val).count = 0 ∧
      ((t.chip w).src i.val).fired = false ∧ t.chip w.other = s.chip w.other) ∧
  (∀ (w : Twin) (rq : Requester) (i : Fin 1024) (x : Fin 16) (s : State), (s.chip w).up = true →
    (s.chip w).mayWrite rq (srcPage i.val) = true → (s.chip w).running (srcPage i.val) = true → x.val ≤ 7 →
    ∃ t, exec (.targetChange w rq i x) s = .next t ∧ (t.chip w).srcTarget i.val = x.val ∧
      (t.chip w).srcEnable i.val = (s.chip w).srcEnable i.val ∧ (t.chip w).srcPrio i.val = (s.chip w).srcPrio i.val ∧
      t.chip w.other = s.chip w.other)

/-- From R478, R480 to R482, R484: on a chip that runs, the twin left as it was: a running core that no source or timer wakes sleeps; its timer once due shows and wakes it.
An aligned access of a running, waking core to a place with memory: LR loads into rd and reserves the line, nothing stored; SC with that
reservation stores its data, rd 0; without it stores nothing, rd 1; an AMO stores the operation's result and loads the old value; x0 stays 0; both end the
pc 4 on, and no byte of local memory, DRAM or a frame changes but those stored to (what a place behind a frame then reads as is not said). One that is not aligned or
has no memory behind it, in no fast interrupt, traps to MTVEC with MEPC and MCAUSE, nothing stored. DCFLUSH in machine mode empties its line of the
window from the core's cache, and no other DRAM line changes. -/
def Obligations.CoresComplete : Prop :=
  (∀ (w : Twin) (n : Fin 8) (s : State), (s.chip w).up = true → ((s.chip w).core n.val).running = true →
    (s.chip w).heldSources.any ((s.chip w).wakes n.val) = false → ((s.chip w).core n.val).mtip = false →
    ∃ t, exec (.coreWfi w n) s = .next t ∧ (t.chip w).core n.val = { (s.chip w).core n.val with asleep := true } ∧
      (t.chip w).get (F.ICO_ASLEEP n.val) = 1 ∧ t.chip w.other = s.chip w.other) ∧
  (∀ (w : Twin) (n : Fin 8) (s : State), (s.chip w).up = true → ((s.chip w).core n.val).mtimecmp ≤ (s.chip w).round * 400 + 399 →
    ∃ t, exec (.coreMtip w n) s = .next t ∧ (t.chip w).core n.val = { (s.chip w).core n.val with mtip := true, asleep := false } ∧
      (t.chip w).trm = (s.chip w).trm ∧ t.chip w.other = s.chip w.other) ∧
  (∀ (w : Twin) (n : Fin 8) (p : CorePlace) (addr : Nat) (rd : Fin 32) (data : BitVec 64) (wide : Bool) (s : State),
    (s.chip w).up = true → ((s.chip w).core n.val).running = true → ((s.chip w).core n.val).asleep = false →
    addr % (Chip.atomicBits wide / 8) = 0 →
    (s.chip w).corePlace n.val ((s.chip w).core n.val).machine addr (Chip.atomicBits wide / 8) = some p →
    ∃ t, exec (.lrScAmo w n .lr addr rd data wide) s = .next t ∧
      ((t.chip w).core n.val).reservation = some (Chip.reserveLine p) ∧
      (rd.val ≠ 0 → (t.chip w).coreReg n.val rd.val = Chip.widen (Chip.atomicBits wide) ((s.chip w).coreLoad n.val p (Chip.atomicBits wide / 8))) ∧
      (t.chip w).coreReg n.val 0 = 0 ∧ (t.chip w).dram = (s.chip w).dram ∧ (t.chip w).trm = (s.chip w).trm ∧
      (∀ m : Fin 8, ((t.chip w).core m.val).scratch = ((s.chip w).core m.val).scratch) ∧
      ((t.chip w).core n.val).pc = ((s.chip w).core n.val).pc + 4 ∧ (t.chip w).regs = (s.chip w).regs ∧ t.chip w.other = s.chip w.other) ∧
  (∀ (w : Twin) (n : Fin 8) (p : CorePlace) (addr : Nat) (rd : Fin 32) (data : BitVec 64) (wide : Bool) (s : State),
    (s.chip w).up = true → ((s.chip w).core n.val).running = true → ((s.chip w).core n.val).asleep = false →
    addr % (Chip.atomicBits wide / 8) = 0 →
    (s.chip w).corePlace n.val ((s.chip w).core n.val).machine addr (Chip.atomicBits wide / 8) = some p →
    ((s.chip w).core n.val).reservation = some (Chip.reserveLine p) →
    ∃ t, exec (.lrScAmo w n .sc addr rd data wide) s = .next t ∧ ((t.chip w).core n.val).reservation = none ∧
      (rd.val ≠ 0 → (t.chip w).coreReg n.val rd.val = 0) ∧ (t.chip w).coreReg n.val 0 = 0 ∧
      ((∀ x k : Nat, p = .dram x false → (s.chip w).dpaAt (x + k) = none) →
        (t.chip w).coreLoad n.val p (Chip.atomicBits wide / 8) = data.toNat % 2 ^ Chip.atomicBits wide) ∧
      (∀ (m : Fin 8) (a : Nat), (∀ off : Nat, p = .localMem m.val off → a < off ∨ off + Chip.atomicBits wide / 8 ≤ a) →
        Table.get zeroByte ((t.chip w).core m.val).scratch a = Table.get zeroByte ((s.chip w).core m.val).scratch a) ∧
      (∀ a : Nat, (∀ x : Nat, p = .dram x false → a < x ∨ x + Chip.atomicBits wide / 8 ≤ a) →
        Table.get zeroByte (t.chip w).dram a = Table.get zeroByte (s.chip w).dram a) ∧
      (∀ a : Nat, (∀ x k : Nat, p = .dram x false → k < Chip.atomicBits wide / 8 → (s.chip w).dpaAt (x + k) ≠ some a) →
        Table.get zeroByte (t.chip w).trm.front a = Table.get zeroByte (s.chip w).trm.front a) ∧
      (t.chip w).trm.packed = (s.chip w).trm.packed ∧ (t.chip w).trm.patch = (s.chip w).trm.patch ∧
      ((t.chip w).core n.val).pc = ((s.chip w).core n.val).pc + 4 ∧ (t.chip w).regs = (s.chip w).regs ∧ t.chip w.other = s.chip w.other) ∧
  (∀ (w : Twin) (n : Fin 8) (p : CorePlace) (addr : Nat) (rd : Fin 32) (data : BitVec 64) (wide : Bool) (s : State),
    (s.chip w).up = true → ((s.chip w).core n.val).running = true → ((s.chip w).core n.val).asleep = false →
    addr % (Chip.atomicBits wide / 8) = 0 →
    (s.chip w).corePlace n.val ((s.chip w).core n.val).machine addr (Chip.atomicBits wide / 8) = some p →
    ((s.chip w).core n.val).reservation ≠ some (Chip.reserveLine p) →
    ∃ t, exec (.lrScAmo w n .sc addr rd data wide) s = .next t ∧ ((t.chip w).core n.val).reservation = none ∧
      (rd.val ≠ 0 → (t.chip w).coreReg n.val rd.val = 1) ∧ (t.chip w).coreReg n.val 0 = 0 ∧
      (t.chip w).dram = (s.chip w).dram ∧ (t.chip w).trm = (s.chip w).trm ∧
      (∀ m : Fin 8, ((t.chip w).core m.val).scratch = ((s.chip w).core m.val).scratch) ∧
      ((t.chip w).core n.val).pc = ((s.chip w).core n.val).pc + 4 ∧ (t.chip w).regs = (s.chip w).regs ∧ t.chip w.other = s.chip w.other) ∧
  (∀ (w : Twin) (n : Fin 8) (p : CorePlace) (op : AtomicOp) (addr : Nat) (rd : Fin 32) (data : BitVec 64) (wide : Bool) (s : State),
    (s.chip w).up = true → ((s.chip w).core n.val).running = true → ((s.chip w).core n.val).asleep = false →
    addr % (Chip.atomicBits wide / 8) = 0 →
    (s.chip w).corePlace n.val ((s.chip w).core n.val).machine addr (Chip.atomicBits wide / 8) = some p →
    op ≠ .lr → op ≠ .sc →
    ∃ t, exec (.lrScAmo w n op addr rd data wide) s = .next t ∧
      ((∀ x k : Nat, p = .dram x false → (s.chip w).dpaAt (x + k) = none) →
        (t.chip w).coreLoad n.val p (Chip.atomicBits wide / 8) =
          Chip.atomicResult op (Chip.atomicBits wide) ((s.chip w).coreLoad n.val p (Chip.atomicBits wide / 8)) (data.toNat % 2 ^ Chip.atomicBits wide)) ∧
      (rd.val ≠ 0 → (t.chip w).coreReg n.val rd.val = Chip.widen (Chip.atomicBits wide) ((s.chip w).coreLoad n.val p (Chip.atomicBits wide / 8))) ∧
      (t.chip w).coreReg n.val 0 = 0 ∧
      (∀ (m : Fin 8) (a : Nat), (∀ off : Nat, p = .localMem m.val off → a < off ∨ off + Chip.atomicBits wide / 8 ≤ a) →
        Table.get zeroByte ((t.chip w).core m.val).scratch a = Table.get zeroByte ((s.chip w).core m.val).scratch a) ∧
      (∀ a : Nat, (∀ x : Nat, p = .dram x false → a < x ∨ x + Chip.atomicBits wide / 8 ≤ a) →
        Table.get zeroByte (t.chip w).dram a = Table.get zeroByte (s.chip w).dram a) ∧
      (∀ a : Nat, (∀ x k : Nat, p = .dram x false → k < Chip.atomicBits wide / 8 → (s.chip w).dpaAt (x + k) ≠ some a) →
        Table.get zeroByte (t.chip w).trm.front a = Table.get zeroByte (s.chip w).trm.front a) ∧
      (t.chip w).trm.packed = (s.chip w).trm.packed ∧ (t.chip w).trm.patch = (s.chip w).trm.patch ∧
      ((t.chip w).core n.val).pc = ((s.chip w).core n.val).pc + 4 ∧ (t.chip w).regs = (s.chip w).regs ∧ t.chip w.other = s.chip w.other) ∧
  (∀ (w : Twin) (n : Fin 8) (op : AtomicOp) (addr : Nat) (rd : Fin 32) (data : BitVec 64) (wide : Bool) (s : State),
    (s.chip w).up = true → ((s.chip w).core n.val).running = true → ((s.chip w).core n.val).asleep = false →
    ((s.chip w).core n.val).inFast = false →
    addr % (Chip.atomicBits wide / 8) ≠ 0 ∨
      (s.chip w).corePlace n.val ((s.chip w).core n.val).machine addr (Chip.atomicBits wide / 8) = none →
    ∃ t, exec (.lrScAmo w n op addr rd data wide) s = .next t ∧ ((t.chip w).core n.val).mepc = ((s.chip w).core n.val).pc ∧
      ((t.chip w).core n.val).mcause =
        (if addr % (Chip.atomicBits wide / 8) ≠ 0 then (if op = .lr then 4 else 6) else (if op = .lr then 5 else 7)) ∧
      ((t.chip w).core n.val).machine = true ∧ ((t.chip w).core n.val).pc = ((s.chip w).core n.val).mtvec &&& ~~~(3 : BitVec 64) ∧
      ((t.chip w).core n.val).x = ((s.chip w).core n.val).x ∧ (t.chip w).dram = (s.chip w).dram ∧ (t.chip w).trm = (s.chip w).trm ∧
      (t.chip w).regs = (s.chip w).regs ∧ t.chip w.other = s.chip w.other) ∧
  (∀ (w : Twin) (n : Fin 8) (addr a : Nat) (s : State), (s.chip w).up = true → ((s.chip w).core n.val).running = true →
    ((s.chip w).core n.val).asleep = false → ((s.chip w).core n.val).machine = true →
    (s.chip w).corePlace n.val true addr 1 = some (.dram a true) →
    ∃ t, exec (.dcflush w n addr) s = .next t ∧ ((t.chip w).core n.val).dcflush = BitVec.ofNat 64 addr ∧
      ((t.chip w).core n.val).pc = ((s.chip w).core n.val).pc + 4 ∧
      (((t.chip w).core n.val).cache.all fun y => y.1 / 64 != a / 64) = true ∧
      (∀ b : Nat, b / 64 ≠ a / 64 → Table.get zeroByte (t.chip w).dram b = Table.get zeroByte (s.chip w).dram b) ∧
      (t.chip w).regs = (s.chip w).regs ∧
      t.chip w.other = s.chip w.other)

/-! ## Board services (R486 to R547) -/

/-- From R486, R487, R489 to R495, R599: on a chip that runs, the twin left as it was: a program, an erase and a pointer swap by a requester that may write the
running page 0x130, whose check finds no code, begin: EFC_STATUS is BUSY, no pulse, no code, an operation stands and the array is as it was. A program's pulse that
verifies, with no expiry deferred, ends it DONE with OP_DONE raised, its pulse counted and its bytes in the array. ACTIVE_LOCK by one that may write is set. The machine
mode key 0xA5 then 0x5A of an interrupt core kicks the chip (the time noted, CHIP_KICKS counted) and the core's own watchdog (the time noted, the warning taken back,
the chip's kick as it was), every register word as it was. With no eflash operation: the chip's time past its limit on a MIRRORED chip with no save puts it to HELD, of no port,
no OWN_OUT driven; a watched core's time past WARN_US warns once and counts; past WARN_US and RESET_US together, warned, with no reset within the hour and no
save, it resets: pc 0, its registers kept, CORE_RESET raised, that reset the one remembered. LOCK.SET by one that may write is set, the kicks as they were. -/
def Obligations.FlashAndWatchdogsComplete : Prop :=
  (∀ (w : Twin) (rq : Requester) (fetched : Option (Fin 2)) (s : State), (s.chip w).up = true → (s.chip w).mayWrite rq 0x130 = true →
    (s.chip w).running 0x130 = true →
    ∀ x ∈ ([(.efcProgram w rq fetched, 1), (.efcErase w rq fetched, 2), (.ptrSwap w rq fetched, 3)] : List (Instr × Nat)),
      ((s.chip w).put F.EFC_EFC_CMD_OP x.2).efcCheck x.2 fetched = none →
    ∃ t, exec x.1 s = .next t ∧ (t.chip w).get F.EFC_EFC_STATUS_STATE = 1 ∧ (t.chip w).get F.EFC_EFC_CMD_OP = x.2 ∧
      (t.chip w).get F.EFC_EFC_STATUS_PULSES = 0 ∧ (t.chip w).get F.EFC_EFC_STATUS_CODE = 0 ∧ (t.chip w).efc.op.isSome = true ∧
      (t.chip w).efc.bytes = (s.chip w).efc.bytes ∧ t.chip w.other = s.chip w.other) ∧
  (∀ (w : Twin) (us : Nat) (x : EfcOp) (s : State), (s.chip w).up = true → (s.chip w).efc.op = some x → x.op = 1 →
    (s.chip w).wdt.deferChip = false → (s.chip w).wdt.deferWarn = [] → (s.chip w).wdt.deferReset = [] →
    ∃ t, exec (.efcPulseDone w none us) s = .next t ∧ (t.chip w).efc.op = none ∧ (t.chip w).get F.EFC_EFC_STATUS_STATE = 2 ∧
      (t.chip w).is F.EFC_EV_OP_DONE = true ∧ (t.chip w).flashBytes x.offset x.data.length = x.data.map (fun b => b.toNat) ∧
      (t.chip w).count K.EFC_PROGRAM_PULSES = ((s.chip w).count K.EFC_PROGRAM_PULSES + 1) % 2 ^ 48 ∧ t.chip w.other = s.chip w.other) ∧
  (∀ (w : Twin) (rq : Requester) (s : State), (s.chip w).up = true → (s.chip w).mayWrite rq 0x130 = true →
    ∃ t, exec (.activeLock w rq) s = .next t ∧ (t.chip w).is F.EFC_PROT_ACTIVE_LOCK = true ∧ (t.chip w).efc = (s.chip w).efc ∧
      t.chip w.other = s.chip w.other) ∧
  (∀ (w : Twin) (n : Fin 9) (s : State), (s.chip w).up = true →
    ∃ t, exec (.kickChip w (.coreM n) 0xA5 0x5A true) s = .next t ∧ (t.chip w).wdt.chipKick = (s.chip w).aonNow ∧
      (t.chip w).wdt.deferChip = false ∧ (t.chip w).count K.WDT_CHIP_KICKS = ((s.chip w).count K.WDT_CHIP_KICKS + 1) % 2 ^ 48 ∧
      (t.chip w).regs = (s.chip w).regs ∧ t.chip w.other = s.chip w.other) ∧
  (∀ (w : Twin) (n : Fin 9) (s : State), (s.chip w).up = true → n.val < 8 →
    ∃ t, exec (.kickCore w (.coreM n) 0xA5 0x5A true) s = .next t ∧ ((t.chip w).core n.val).kickRound = (s.chip w).aonNow ∧
      ((t.chip w).core n.val).warned = false ∧ (t.chip w).wdt.chipKick = (s.chip w).wdt.chipKick ∧
      (t.chip w).regs = (s.chip w).regs ∧ t.chip w.other = s.chip w.other) ∧
  (∀ (w : Twin) (s : State), (s.chip w).up = true → (s.chip w).efc.op = none → (s.chip w).saveActive = false → (s.chip w).mirrored = true →
    (s.chip w).expired (s.chip w).wdt.chipKick (1000 * (s.chip w).chipLimitMs) = true →
    ∃ t, exec (.chipWatchdogExpiry w) s = .next t ∧ (t.chip w).mode = mHELD ∧ (∀ p : Fin 6, (t.chip w).role p = 0) ∧
      (∀ p : Fin 6, (t.chip w).is (F.HP_PORT_STATUS_OWN_OUT p.val) = false) ∧ t.chip w.other = s.chip w.other) ∧
  (∀ (w : Twin) (n : Fin 8) (s : State), (s.chip w).up = true → (s.chip w).coreWdOn n.val = true → ((s.chip w).core n.val).warned = false →
    (s.chip w).efc.op = none → (s.chip w).expired ((s.chip w).core n.val).kickRound ((s.chip w).cfg F.WDT_CORE_WD_WARN_US) = true →
    ∃ t, exec (.coreWatchdogWarn w n) s = .next t ∧ ((t.chip w).core n.val).warned = true ∧
      (t.chip w).count K.WDT_CORE_WARNINGS = ((s.chip w).count K.WDT_CORE_WARNINGS + 1) % 2 ^ 48 ∧ t.chip w.other = s.chip w.other) ∧
  (∀ (w : Twin) (n : Fin 8) (s : State), (s.chip w).up = true → (s.chip w).coreWdOn n.val = true → ((s.chip w).core n.val).warned = true →
    (s.chip w).efc.op = none → (s.chip w).saveActive = false → (s.chip w).recentResets n.val = [] →
    (s.chip w).expired ((s.chip w).core n.val).kickRound
      ((s.chip w).cfg F.WDT_CORE_WD_WARN_US + (s.chip w).cfg F.WDT_CORE_WD_RESET_US) = true →
    ∃ t, exec (.coreWatchdogReset w n) s = .next t ∧ ((t.chip w).core n.val).warned = false ∧ ((t.chip w).core n.val).pc = 0 ∧
      ((t.chip w).core n.val).x = ((s.chip w).core n.val).x ∧ (t.chip w).is F.WDT_EV_CORE_RESET = true ∧
      (t.chip w).recentResets n.val = [(s.chip w).aonNow] ∧ t.chip w.other = s.chip w.other) ∧
  (∀ (w : Twin) (rq : Requester) (s : State), (s.chip w).up = true → (s.chip w).mayWrite rq 0x120 = true →
    ∃ t, exec (.wdtLockSet w rq) s = .next t ∧ (t.chip w).is F.WDT_LOCK_SET = true ∧ (t.chip w).wdt = (s.chip w).wdt ∧
      t.chip w.other = s.chip w.other)

/-- From R515, R517 to R519, R521 to R525: the twin left as it was: from OFF with OFF_MIN served, UP_HELD 0 and no fail-stop behind it, the up sequence begins at step 1 going UP. A
PG bit shows the level it took, the fifteen others as they were and the step the same. A delay over in a step without sync, going UP below the top step, enters the next.
Going DOWN in a step of the sync, with its delay over, not step 0: the commit, and likewise the sync timeout (SYNC_STUCK raised, alone from there), enter the step
below, still DOWN. A step going UP whose rails do not come in time is logged as UP_TIMEOUT, the direction DOWN and the chip without power. A fall of SEQ_IN on a chip that
runs at the top shows 0 in SEQ_IN and drops the power-fail input, the direction as it was. OFF_MIN over in OFF is noted, no register word changed. A
running rail whose PG bit is low, on a MIRRORED chip that runs with no save, puts the chip to HELD, LAST_FAULT names the rail, RUN its kind, and the fault
wait begins; the wait over, going UP is done, the chip in ON above step 0 goes one step DOWN, unpowered. STORE.COMMIT by one that may write, a
version left, uses one version and shows how many of the 4 are left, the table as it was. -/
def Obligations.SequencerComplete : Prop :=
  (∀ (w : Twin) (s : State), (s.chip w).psqDir = 0 → (s.chip w).psq.offServed = true → (s.chip w).is F.PSQ_PSQ_UP_HELD = false →
    (s.chip w).psq.afterFailstop = false →
    ∃ t, exec (.upSequenceStart w) s = .next t ∧ (t.chip w).psqDir = 1 ∧ (t.chip w).psqState = 1 ∧ (t.chip w).svc.pfailLow = false ∧
      t.chip w.other = s.chip w.other) ∧
  (∀ (w : Twin) (i : Fin 16) (high : Bool) (s : State),
    ∃ t, exec (.pgChange w i high) s = .next t ∧ ((t.chip w).get F.PSQ_PG_IN).testBit i.val = high ∧
      (∀ k : Fin 16, k ≠ i → ((t.chip w).get F.PSQ_PG_IN).testBit k.val = ((s.chip w).get F.PSQ_PG_IN).testBit k.val) ∧
      (t.chip w).psqState = (s.chip w).psqState ∧ t.chip w.other = s.chip w.other) ∧
  (∀ (w : Twin) (s : State), (s.chip w).psq.phase = 1 → (s.chip w).syncEn = false → (s.chip w).psqDir = 1 →
    (s.chip w).psqState < (s.chip w).seqTop →
    ∃ t, exec (.psqDelayExpiry w) s = .next t ∧ (t.chip w).psqState = (s.chip w).psqState + 1 ∧ (t.chip w).psqDir = 1 ∧
      t.chip w.other = s.chip w.other) ∧
  (∀ (w : Twin) (s : State), (s.chip w).psq.phase = 2 → (s.chip w).syncEn = true → (s.chip w).psqDir = 3 → (s.chip w).psqState ≠ 0 →
    ∃ t, exec (.seqSyncCommit w) s = .next t ∧ (t.chip w).psqState = (s.chip w).psqState - 1 ∧ (t.chip w).psqDir = 3 ∧
      t.chip w.other = s.chip w.other) ∧
  (∀ (w : Twin) (s : State), (s.chip w).psq.phase = 2 → (s.chip w).syncEn = true → (s.chip w).psqDir = 3 → (s.chip w).psqState ≠ 0 →
    ∃ t, exec (.syncTimeout w) s = .next t ∧ (t.chip w).is F.PSQ_EV_SYNC_STUCK = true ∧ (t.chip w).psq.alone = true ∧
      (t.chip w).psqState = (s.chip w).psqState - 1 ∧ t.chip w.other = s.chip w.other) ∧
  (∀ (w : Twin) (s : State), (s.chip w).psq.phase = 0 → (s.chip w).psqDir = 1 → (s.chip w).psqState ≠ 0 →
    ∃ t, exec (.psqTimeout w) s = .next t ∧ (t.chip w).get F.PSQ_LAST_FAULT_KIND = 2 ∧ (t.chip w).psqDir = 3 ∧
      (t.chip w).is F.PSQ_EV_UP_TIMEOUT = true ∧ (t.chip w).rst.powered = false ∧ t.chip w.other = s.chip w.other) ∧
  (∀ (w : Twin) (s : State), (s.chip w).psqDir = 2 → (s.chip w).up = true →
    ∃ t, exec (.seqInFall w) s = .next t ∧ (t.chip w).is F.PSQ_PSQ_SEQ_IN = false ∧ (t.chip w).svc.pfailLow = true ∧
      (t.chip w).psqDir = 2 ∧ t.chip w.other = s.chip w.other) ∧
  (∀ (w : Twin) (s : State), (s.chip w).psqDir = 0 →
    ∃ t, exec (.offMinExpiry w) s = .next t ∧ (t.chip w).psq.offServed = true ∧ (t.chip w).regs = (s.chip w).regs ∧
      t.chip w.other = s.chip w.other) ∧
  (∀ (w : Twin) (i : Fin 16) (s : State), ((s.chip w).get F.PSQ_PG_IN >>> i.val) % 2 = 0 → (s.chip w).railRuns i.val = true →
    (s.chip w).up = true → (s.chip w).saveActive = false → (s.chip w).mirrored = true →
    ∃ t, exec (.railFault w i) s = .next t ∧ (t.chip w).mode = mHELD ∧ (t.chip w).get F.PSQ_LAST_FAULT_RAIL = i.val ∧
      (t.chip w).get F.PSQ_LAST_FAULT_KIND = 1 ∧ (t.chip w).psq.faultWait = true ∧ t.chip w.other = s.chip w.other) ∧
  (∀ (w : Twin) (s : State), (s.chip w).psq.faultWait = true → (s.chip w).psqDir = 2 → (s.chip w).psqState ≠ 0 →
    ∃ t, exec (.faultShutExpiry w) s = .next t ∧ (t.chip w).psqDir = 3 ∧ (t.chip w).psqState = (s.chip w).psqState - 1 ∧
      (t.chip w).rst.powered = false ∧ (t.chip w).psq.faultWait = false ∧ t.chip w.other = s.chip w.other) ∧
  (∀ (w : Twin) (rq : Requester) (s : State), (s.chip w).up = true → (s.chip w).mayWrite rq 0x140 = true → (s.chip w).psq.versionsUsed < 4 →
    ∃ t, exec (.storeCommit w rq) s = .next t ∧ (t.chip w).psq.versionsUsed = (s.chip w).psq.versionsUsed + 1 ∧
      (t.chip w).get F.PSQ_STORE_VERSIONS_LEFT = 4 - (t.chip w).psq.versionsUsed ∧ (t.chip w).psq.table = (s.chip w).psq.table ∧
      t.chip w.other = s.chip w.other)

/-- From R526, R528, R529, R531 to R533, R399: on a chip that runs, the twin left as it was: a margin of at most a tenth of the rail's nominal by a
requester that may write the running page, with no save in the way (SVC_STATE 2), is stored and one frame waits more. A run of 250 hot readings moves the throttle one
step above the greater of its own and CEIL, up to 4, ends the run and raises THROTTLE. Two trip readings with no save put a chip that is not HELD to HELD, tripped, TRIPPED shown, the
fault wait begun. With the voltage loop on and no lowering due, a monitor below CPM_LO shows as CPM_MIN and raises the target as a set to 10 mV more does
(VOLT_RAISES counted); with AVS on, an alarm of 0 or less raises CPM_ALARM and the target as a set to 25 mV more does. The answer to a waiting voltage reading of a rail ends that frame
and shows as the rail's VOUT. With rail 0 the only one present the telemetry poll adds its three frames in order, no register word changed. A wanted fabric clock step
above the present one, below 8, is taken and raises FREQ_CHANGE. -/
def Obligations.VoltageComplete : Prop :=
  (∀ (w : Twin) (rq : Requester) (k : Fin 4) (steps : BitVec 8) (s : State), (s.chip w).up = true → (s.chip w).mayWrite rq 0x141 = true →
    (s.chip w).running 0x141 = true → steps.toInt.natAbs * 100 ≤ (s.chip w).cfg (F.MAR_RAIL_NOM_MV k.val) → (s.chip w).svcState = 2 →
    ∃ t, exec (.marginWrite w rq k steps) s = .next t ∧ (t.chip w).get (F.MAR_MARGIN_OFFSET_MV k.val) = steps.toNat ∧
      (t.chip w).thm.frames.length = (s.chip w).thm.frames.length + 1 ∧ t.chip w.other = s.chip w.other) ∧
  (∀ (w : Twin) (s : State), (s.chip w).up = true → 250 ≤ (s.chip w).thm.hotRun → (s.chip w).thm.throttleStep < 4 →
    ∃ t, exec (.throttleStep w) s = .next t ∧
      (t.chip w).thm.throttleStep = max (s.chip w).thm.throttleStep ((s.chip w).cfg F.AVS_DVFS_CFG_CEIL) + 1 ∧
      (t.chip w).thm.hotRun = 0 ∧ (t.chip w).is F.THM_EV_THROTTLE = true ∧ t.chip w.other = s.chip w.other) ∧
  (∀ (w : Twin) (s : State), (s.chip w).up = true → 2 ≤ (s.chip w).thm.tripRun → (s.chip w).saveActive = false → (s.chip w).mode ≠ mHELD →
    ∃ t, exec (.thermalTrip w) s = .next t ∧ (t.chip w).mode = mHELD ∧ (t.chip w).thm.trip = true ∧ (t.chip w).is F.THM_TRIPPED = true ∧
      (t.chip w).psq.faultWait = true ∧ t.chip w.other = s.chip w.other) ∧
  (∀ (w : Twin) (cpm : BitVec 8) (s : State), (s.chip w).up = true → (s.chip w).avsOn = true → (s.chip w).thm.lowerDue = false →
    cpm.toInt < (s.chip w).cfg F.AVS_AVS_CFG_CPM_LO →
    ∃ t, exec (.avsPeriod w cpm) s = .next t ∧ (t.chip w).get F.AVS_CPM_MIN = cpm.toNat ∧
      (t.chip w).get F.AVS_VDD_TARGET_MV = ((s.chip w).setVdd ((s.chip w).get F.AVS_VDD_TARGET_MV + 10)).get F.AVS_VDD_TARGET_MV ∧
      (t.chip w).count K.AVS_VOLT_RAISES = ((s.chip w).count K.AVS_VOLT_RAISES + 1) % 2 ^ 48 ∧ t.chip w.other = s.chip w.other) ∧
  (∀ (w : Twin) (cpm : BitVec 8) (s : State), (s.chip w).up = true → cpm.toInt ≤ 0 → (s.chip w).cfg F.AVS_AVS_CFG_EN = 1 →
    ∃ t, exec (.cpmAlarm w cpm) s = .next t ∧ (t.chip w).is F.AVS_EV_CPM_ALARM = true ∧
      (t.chip w).get F.AVS_VDD_TARGET_MV = ((s.chip w).setVdd ((s.chip w).get F.AVS_VDD_TARGET_MV + 25)).get F.AVS_VDD_TARGET_MV ∧
      t.chip w.other = s.chip w.other) ∧
  (∀ (w : Twin) (data : BitVec 16) (reached : Bool) (f : AvsFrame) (r : List AvsFrame) (s : State), (s.chip w).up = true →
    (s.chip w).thm.frames = f :: r → f.kind = 3 → f.rail < 4 →
    ∃ t, exec (.avsbusFrameDone w (.answer data reached)) s = .next t ∧ (t.chip w).thm.frames = r ∧
      (t.chip w).get (F.MAR_RAIL_VOUT_MV f.rail) = data.toNat ∧ t.chip w.other = s.chip w.other) ∧
  (∀ (w : Twin) (s : State), (s.chip w).up = true → (s.chip w).cfg (F.MAR_RAIL_PRESENT 0) = 1 → (∀ k : Fin 4, 0 < k.val →
    (s.chip w).cfg (F.MAR_RAIL_PRESENT k.val) = 0) →
    ∃ t, exec (.avsTelemetryPoll w) s = .next t ∧
      (t.chip w).thm.frames = (s.chip w).thm.frames ++ [⟨0, 1, 0, 0⟩, ⟨0, 3, 0, 0⟩, ⟨0, 2, 0, 0⟩] ∧
      (t.chip w).regs = (s.chip w).regs ∧ t.chip w.other = s.chip w.other) ∧
  (∀ (w : Twin) (s : State), (s.chip w).up = true → (s.chip w).get F.AVS_FCLK_STEP < (s.chip w).wantStep → (s.chip w).wantStep < 8 →
    ∃ t, exec (.fclkStepChange w) s = .next t ∧ (t.chip w).get F.AVS_FCLK_STEP = (s.chip w).wantStep ∧
      (t.chip w).is F.AVS_EV_FREQ_CHANGE = true ∧ t.chip w.other = s.chip w.other)

/-- From R536, R538 to R540: on a chip that runs, the twin left as it was: while it acknowledges its address, a block write whose PEC is right adds its bytes to what was
received and counts a packet, no register word changed; a block read whose PEC the host takes answers the first waiting packet, takes it from the queue and
counts it; a status byte reads whether a packet waits, whether this chip is the endpoint and the chip's TWIN_ID, no register word changed; with ALERT driven the alert response
answers twice the chip's address, no register word changed; an MCTP control message, fewer than 8 packets waiting, adds its answer and drives ALERT. Whether it
acknowledges or not: a start or stop while data is held low lets it go and counts a recovery; the clock held low too long lets data go and
raises CLK_LOW_TO; the data held low too long lets it go and raises DATA_LOW_TO; in all three the waiting packets stay. -/
def Obligations.ManagementBusComplete : Prop :=
  (∀ (w : Twin) (bytes : List Byte) (s : State), (s.chip w).up = true → (s.chip w).acking = true →
    ∃ t, exec (.smbBlockWrite w bytes (some true)) s = .next t ∧ (t.chip w).mti.rx = (s.chip w).mti.rx ++ [bytes] ∧
      (t.chip w).count K.MTI_PACKETS_RX = ((s.chip w).count K.MTI_PACKETS_RX + 1) % 2 ^ 48 ∧
      (t.chip w).regs = (s.chip w).regs ∧ t.chip w.other = s.chip w.other) ∧
  (∀ (w : Twin) (p : List Byte) (r : List (List Byte)) (s : State), (s.chip w).up = true → (s.chip w).acking = true → (s.chip w).mti.tx = p :: r →
    ∃ t, exec (.smbBlockRead w true) s = .next t ∧ (t.chip w).mti.last = p ∧ (t.chip w).mti.tx = r ∧
      (t.chip w).count K.MTI_PACKETS_TX = ((s.chip w).count K.MTI_PACKETS_TX + 1) % 2 ^ 48 ∧ t.chip w.other = s.chip w.other) ∧
  (∀ (w : Twin) (s : State), (s.chip w).up = true → (s.chip w).acking = true →
    ∃ t, exec (.smbReadByteStatus w) s = .next t ∧
      (t.chip w).mti.last = [BitVec.ofNat 8 (bit (!(s.chip w).mti.tx.isEmpty) + 2 * bit (s.chip w).twe.endpointUp + 4 * (s.chip w).rst.twinId)] ∧
      (t.chip w).regs = (s.chip w).regs ∧ t.chip w.other = s.chip w.other) ∧
  (∀ (w : Twin) (s : State), (s.chip w).up = true → (s.chip w).acking = true → (s.chip w).is F.MTI_ALERT = true →
    ∃ t, exec (.alertResponseAddress w) s = .next t ∧ (t.chip w).mti.last = [BitVec.ofNat 8 (2 * (0x58 + (s.chip w).rst.smbAddr))] ∧
      (t.chip w).regs = (s.chip w).regs ∧ t.chip w.other = s.chip w.other) ∧
  (∀ (w : Twin) (s : State), (s.chip w).up = true → (s.chip w).mti.holdSda = true →
    ∃ t, exec (.smbStartStop w) s = .next t ∧ (t.chip w).mti.holdSda = false ∧ (t.chip w).mti.tx = (s.chip w).mti.tx ∧
      (t.chip w).count K.MTI_RECOVERIES = ((s.chip w).count K.MTI_RECOVERIES + 1) % 2 ^ 48 ∧ t.chip w.other = s.chip w.other) ∧
  (∀ (w : Twin) (s : State), (s.chip w).up = true →
    ∃ t, exec (.smbClockLowTimeout w) s = .next t ∧ (t.chip w).mti.holdSda = false ∧ (t.chip w).is F.MTI_EV_CLK_LOW_TO = true ∧
      (t.chip w).mti.tx = (s.chip w).mti.tx ∧ t.chip w.other = s.chip w.other) ∧
  (∀ (w : Twin) (s : State), (s.chip w).up = true → (s.chip w).mti.holdSda = true →
    ∃ t, exec (.smbDataLowTimeout w) s = .next t ∧ (t.chip w).mti.holdSda = false ∧ (t.chip w).is F.MTI_EV_DATA_LOW_TO = true ∧
      (t.chip w).mti.tx = (s.chip w).mti.tx ∧ t.chip w.other = s.chip w.other) ∧
  (∀ (w : Twin) (command : Byte) (s : State), (s.chip w).up = true → (s.chip w).acking = true → (s.chip w).mti.tx.length < 8 →
    ∃ t, exec (.mctpControl w command) s = .next t ∧ (t.chip w).mti.tx = (s.chip w).mti.tx ++ [[0x00, command]] ∧
      (t.chip w).is F.MTI_ALERT = true ∧ t.chip w.other = s.chip w.other)

/-! ## Resets, security and the TAP (R548 to R578) -/

/-- From R188, R399, R517, R548 to R551: the twin left as it was: the always-on domain comes up with the TWIN_ID of the strap, the chip not running, the sequencer in OFF at step 0,
its stored tables and the packed bytes kept, nothing in DRAM or frames. In each of the next, both image slots pass and no sector's erase is to be done over: the chip leaves its
power-on reset (sequencer AT_TOP, not powered, neither pin held, the self-test clean, no eflash operation cut), its RESET_N reset (powered, the pin held, in STARTING, the self-test clean),
or a machine mode core restarts a running chip warm from STARTING (no eflash operation cut, an active slot noted, no fail-stop limit held): it runs, in STARTING, LAST_CAUSE
is power-on (always-on after an always-on power-up), RESET_N or warm, FW_ENTRY_US what was measured, each logical core running that is not retired, the packed
bytes kept; after power-on no request and no frame byte stands and MEM_ACTIVE is 0. RESET_N asserted on a MIRRORED chip that runs with no save takes it into
reset, no request and no frame byte left, the packed bytes kept. The loss of a clock's lock, no save under way, puts a running chip that is not HELD to HELD, of no port,
SVC_STATE as it was. -/
def Obligations.ResetsComplete : Prop :=
  (∀ (w v : Twin) (s : State),
    ∃ t, exec (.alwaysOnPowerUp w ⟨v, []⟩) s = .next t ∧ (t.chip w).rst.twinId = v.id ∧ (t.chip w).up = false ∧ (t.chip w).psqDir = 0 ∧
      (t.chip w).psqState = 0 ∧ (t.chip w).psq.store = (s.chip w).psq.store ∧ (t.chip w).trm.packed = (s.chip w).trm.packed ∧
      (t.chip w).trm.front = [] ∧ (t.chip w).dram = [] ∧ t.chip w.other = s.chip w.other) ∧
  (∀ (w : Twin) (x : BootReport) (s : State), (s.chip w).psqDir = 2 → (s.chip w).rst.powered = false → (s.chip w).rst.resetN = false →
    (s.chip w).rst.fenced = false → x.failed = 0 → (s.chip w).efc.op = none → (s.chip w).efc.flags = [] →
    (∀ k : Fin 2, (s.chip w).slotPasses k.val = true) →
    ∃ t, exec (.powerOnReset w x) s = .next t ∧ (t.chip w).up = true ∧ (t.chip w).get F.RST_LAST_CAUSE = bit (!(s.chip w).rst.aonUp) ∧
      (t.chip w).mode = mSTARTING ∧ (t.chip w).get F.RST_FW_ENTRY_US = x.entryUs.toNat ∧
      (∀ n : Fin 8, ((t.chip w).core n.val).running = !(s.chip w).cbl.coreRetired.contains n.val) ∧ (t.chip w).tags = [] ∧
      (t.chip w).trm.front = [] ∧ (t.chip w).trm.packed = (s.chip w).trm.packed ∧ (t.chip w).memActive = false ∧
      t.chip w.other = s.chip w.other) ∧
  (∀ (w : Twin) (s : State), (s.chip w).up = true → (s.chip w).saveActive = false → (s.chip w).mirrored = true →
    ∃ t, exec (.resetNAssert w) s = .next t ∧ (t.chip w).up = false ∧ (t.chip w).rst.resetN = true ∧ (t.chip w).tags = [] ∧
      (t.chip w).trm.front = [] ∧ (t.chip w).trm.packed = (s.chip w).trm.packed ∧ t.chip w.other = s.chip w.other) ∧
  (∀ (w : Twin) (x : BootReport) (s : State), (s.chip w).rst.powered = true → (s.chip w).rst.resetN = true → (s.chip w).rst.fenced = false →
    (s.chip w).rst.resetPending = false → (s.chip w).mode = mSTARTING → x.failed = 0 → (s.chip w).efc.flags = [] →
    (∀ k : Fin 2, (s.chip w).slotPasses k.val = true) →
    ∃ t, exec (.resetNRelease w x) s = .next t ∧ (t.chip w).up = true ∧ (t.chip w).get F.RST_LAST_CAUSE = 2 ∧
      (t.chip w).mode = mSTARTING ∧ (t.chip w).get F.RST_FW_ENTRY_US = x.entryUs.toNat ∧
      (∀ n : Fin 8, ((t.chip w).core n.val).running = !(s.chip w).cbl.coreRetired.contains n.val) ∧
      (t.chip w).trm.packed = (s.chip w).trm.packed ∧ t.chip w.other = s.chip w.other) ∧
  (∀ (w : Twin) (n : Fin 9) (x : BootReport) (s : State), (s.chip w).up = true → (s.chip w).mode = mSTARTING → (s.chip w).efc.op = none →
    (s.chip w).efc.flags = [] → (∀ k : Fin 2, (s.chip w).slotPasses k.val = true) → (s.chip w).rst.activeSlot < 2 →
    (s.chip w).failHeld = false →
    ∃ t, exec (.warmGo w (.coreM n) x) s = .next t ∧ (t.chip w).up = true ∧ (t.chip w).get F.RST_LAST_CAUSE = 3 ∧
      (t.chip w).mode = mSTARTING ∧ (t.chip w).get F.RST_FW_ENTRY_US = x.entryUs.toNat ∧
      (∀ k : Fin 8, ((t.chip w).core k.val).running = !(s.chip w).cbl.coreRetired.contains k.val) ∧
      (t.chip w).trm.packed = (s.chip w).trm.packed ∧ t.chip w.other = s.chip w.other) ∧
  (∀ (w : Twin) (s : State), (s.chip w).up = true → (s.chip w).saveActive = false → (s.chip w).mode ≠ mHELD →
    ∃ t, exec (.clockLockLoss w) s = .next t ∧ (t.chip w).mode = mHELD ∧ (∀ p : Fin 6, (t.chip w).role p = 0) ∧
      (t.chip w).svcState = (s.chip w).svcState ∧ t.chip w.other = s.chip w.other)

/-- From R559, R561, R567, R568, R572, R575, R576: on a chip that runs: with fewer than 64 fuses blown and an image SVN of at most 64, a machine mode core's SVN_ADVANCE brings the fuse
count, and FUSE_SVN, to the greater of the two, the tiers as they were; OWNER.PROG by a requester that may write, no hash burnt yet, burns OWNER_HASH, the fuse count as it was; a machine
mode core's CLOSE with secure boot on and the key in place blows FIELD_CLOSED and shows it, the TAP as it was; all three leave the twin as it was. ERASE_REQ to the
chip that accepts it, page 0x032 running and writable by the requester, of a domain that is not valid shows that domain and announces its erase as the last gated effect,
no key touched yet, the twin left as it was. On a chip with that erase to do its end takes the domain from those to erase and counts a checkpoint. -/
def Obligations.SecurityComplete : Prop :=
  (∀ (w : Twin) (n : Fin 9) (s : State), (s.chip w).up = true → (s.chip w).sec.svn < 64 → (s.chip w).rst.imageSvn ≤ 64 →
    ∃ t, exec (.svnAdvance w (.coreM n)) s = .next t ∧ (t.chip w).sec.svn = max (s.chip w).sec.svn (s.chip w).rst.imageSvn ∧
      (t.chip w).get F.BOOT_FUSE_SVN = (t.chip w).sec.svn ∧ (t.chip w).trm = (s.chip w).trm ∧ t.chip w.other = s.chip w.other) ∧
  (∀ (w : Twin) (rq : Requester) (s : State), (s.chip w).up = true → (s.chip w).mayWrite rq 0x031 = true → (s.chip w).sec.keyOSet = false →
    ∃ t, exec (.ownerProg w rq) s = .next t ∧ (t.chip w).sec.keyOSet = true ∧
      (∀ k : Fin 12, (t.chip w).sec.keyHashO.get (fun _ => 0) k.val = BitVec.ofNat 32 ((s.chip w).get (F.BOOT_OWNER_HASH k.val))) ∧
      (t.chip w).sec.svn = (s.chip w).sec.svn ∧ t.chip w.other = s.chip w.other) ∧
  (∀ (w : Twin) (n : Fin 9) (s : State), (s.chip w).up = true → (s.chip w).sec.sbEn = true → (s.chip w).get F.DBG_CLOSE_KEY = 0xC105ED00 →
    ∃ t, exec (.closeGo w (.coreM n)) s = .next t ∧ (t.chip w).sec.fieldClosed = true ∧ (t.chip w).is F.BOOT_FUSE_FIELD_CLOSED = true ∧
      (t.chip w).tap = (s.chip w).tap ∧ t.chip w.other = s.chip w.other) ∧
  (∀ (w : Twin) (rq : Requester) (d : Fin 64) (s : State), s.acceptor rq = some w → (s.chip w).mayWrite rq 0x032 = true →
    (s.chip w).running 0x032 = true → (s.chip w).domValid d.val = false →
    ∃ t, exec (.eraseReq rq d) s = .next t ∧ (t.chip w).get F.KEY_ERASE_REQ_DOMAIN = d.val ∧
      (t.chip w).twe.gated.getLast?.map (fun g => g.effect) = some (.eraseKey d.val none) ∧ (t.chip w).sec = (s.chip w).sec ∧
      t.chip w.other = s.chip w.other) ∧
  (∀ (w : Twin) (d : Fin 64) (s : State), (s.chip w).up = true → (s.chip w).sec.erasing.contains d.val = true →
    ∃ t, exec (.cryptoEraseDone w d) s = .next t ∧ (t.chip w).sec.erasing.contains d.val = false ∧
      (t.chip w).svc.checkpoint = (s.chip w).svc.checkpoint + 1)

/-- From R569 to R572: with debug not closed: SAMPLE/PRELOAD, IDCODE and DMI select their code, no override left, TAP_ACTIVE for all but IDCODE; EXTEST, CLAMP, HIGHZ, EXTEST_PULSE and
EXTEST_TRAIN, on a chip with no OWN_OUT driven and SVC_STATE 0 or 2, that was not taken over so before, select theirs and take the chip into reset: not
running, no frame byte left, the packed bytes kept; the pin override holds the values given and OVERRIDE shows. Closed or not: a code that names no instruction selects BYPASS, no
override left; a test-logic reset selects IDCODE, no override left, and takes up the closing fuse, OPEN showing what it leaves. Resets and tiers stay as they were where none is
taken (with the override and the test-logic reset, the resets), and the twin always. -/
def Obligations.TapComplete : Prop :=
  (∀ (w : Twin) (s : State), (s.chip w).tap.closed = false →
    ∀ x ∈ ([(.samplePreload w, 1), (.tapIdcode w, 2), (.tapDmi w, 0x20)] : List (Instr × Nat)),
    ∃ t, exec x.1 s = .next t ∧ (t.chip w).tap.instr = x.2 ∧ (t.chip w).tap.own = none ∧
      (t.chip w).is F.DBG_DBG_STATE_TAP_ACTIVE = decide (x.2 ≠ 2) ∧ (t.chip w).rst = (s.chip w).rst ∧
      (t.chip w).trm = (s.chip w).trm ∧ t.chip w.other = s.chip w.other) ∧
  (∀ (w : Twin) (s : State), (s.chip w).tap.closed = false → (∀ p : Fin 6, (s.chip w).ownOut p = false) → (s.chip w).svcState ∈ [0, 2] →
    (s.chip w).rst.extested = false →
    ∀ x ∈ ([(.tapExtest w, 0), (.tapClamp w, 3), (.tapHighz w, 4), (.extestPulse w, 8), (.extestTrain w, 9)] : List (Instr × Nat)),
    ∃ t, exec x.1 s = .next t ∧ (t.chip w).tap.instr = x.2 ∧ (t.chip w).rst.extested = true ∧ (t.chip w).up = false ∧
      (t.chip w).trm.front = [] ∧ (t.chip w).trm.packed = (s.chip w).trm.packed ∧ t.chip w.other = s.chip w.other) ∧
  (∀ (w : Twin) (own : BitVec 6) (dead fence : Bool) (s : State), (s.chip w).tap.closed = false →
    ∃ t, exec (.tapOverride w own dead fence) s = .next t ∧ (t.chip w).tap.own = some (own, dead, fence) ∧
      (t.chip w).is F.DBG_DBG_STATE_OVERRIDE = true ∧ (t.chip w).rst = (s.chip w).rst ∧ t.chip w.other = s.chip w.other) ∧
  (∀ (w : Twin) (code : Byte) (s : State), code.toNat ∉ [0, 1, 2, 3, 4, 8, 9, 0x20, 0x21, 0x22] →
    ∃ t, exec (.tapBypass w code) s = .next t ∧ (t.chip w).tap.instr = 0xFF ∧ (t.chip w).tap.own = none ∧
      (t.chip w).rst = (s.chip w).rst ∧ (t.chip w).trm = (s.chip w).trm ∧ t.chip w.other = s.chip w.other) ∧
  (∀ (w : Twin) (s : State),
    ∃ t, exec (.testLogicReset w) s = .next t ∧ (t.chip w).tap.instr = 2 ∧ (t.chip w).tap.own = none ∧
      (t.chip w).tap.closed = ((s.chip w).tap.closed || (s.chip w).sec.fieldClosed) ∧
      (t.chip w).is F.DBG_DBG_STATE_OPEN = !(t.chip w).tap.closed ∧ (t.chip w).rst = (s.chip w).rst ∧ t.chip w.other = s.chip w.other)
end

