-- ==== Sys2Proof/Laws/Digests.lean ====
section
/-! SUPPORT. The digests of the pair-scope words (R61) agree wherever the words agree. -/

namespace Sys2Proof.Machine

/-- The keys of a table that one insertion makes. -/
theorem keys_insert (t : Table Unit) (k : Nat) (o : Nat) (h : o ∈ (t.insert k ()).map (·.1)) : o = k ∨ o ∈ t.map (·.1) := by
  induction t with
  | nil => simpa [Table.insert] using h
  | cons e r ih =>
    simp only [Table.insert] at h
    split at h
    · simpa using h
    · split at h
      · rcases List.mem_cons.1 h with h | h
        · exact .inl h
        · exact .inr (List.mem_cons_of_mem _ h)
      · rcases List.mem_cons.1 h with h | h
        · exact .inr (h ▸ List.mem_cons_self)
        · exact (ih h).imp id (List.mem_cons_of_mem _)

/-- The keys of a table that a list of insertions makes. -/
theorem keys_insertAll (l : List Nat) (o : Nat) : ∀ t : Table Unit,
    o ∈ (l.foldl (fun (t : Table Unit) o => t.insert o ()) t).map (·.1) → o ∈ l ∨ o ∈ t.map (·.1) := by
  induction l with
  | nil => exact fun t h => .inr h
  | cons a l ih =>
    intro t h
    rcases ih _ h with h | h
    · exact .inl (List.mem_cons_of_mem _ h)
    · rcases keys_insert _ _ _ h with h | h
      · exact .inl (h ▸ List.mem_cons_self)
      · exact .inr h

/-- The offsets of every row of the register map lie on its page. -/
theorem rows_on_page : (allPages.all fun p => (pageRows p).all fun r => decide (r.off + (r.cnt - 1) * r.stride < 4096)) = true := by decide +kernel

theorem pairOffsets_lt {p o : Nat} (hp : p ∈ allPages) (h : o ∈ pairOffsets p) : o < 4096 := by
  rcases keys_insertAll _ _ _ h with h | h
  · obtain ⟨r, hr, ho⟩ := List.mem_flatMap.1 h
    have hr := List.all_eq_true.1 (List.all_eq_true.1 rows_on_page p hp) r (List.mem_filter.1 hr).1
    have hr : r.off + (r.cnt - 1) * r.stride < 4096 := of_decide_eq_true hr
    unfold RegField.offsets at ho
    split at ho
    · cases List.mem_singleton.1 ho; omega
    · obtain ⟨i, hi, rfl⟩ := List.mem_map.1 ho
      have hi := List.mem_range.1 (List.mem_filter.1 hi).1
      have := Nat.mul_le_mul_right r.stride (Nat.le_sub_one_of_lt hi)
      omega
  · simp at h

/-- Two chips whose stored words differ only on the pages of a list, and agree in the pair-scope words there, have the same digests. -/
theorem digests_agree (c d : Chip) (ps : List Nat) (hr : ∀ k, k / 4096 ∉ ps → c.regs.get resetKey k = d.regs.get resetKey k)
    (hw : (ps.all fun p => (pairOffsets p).all fun o => c.pairWord p o == d.pairWord p o) = true) :
    (pairPages.all fun p => c.pageDigest p == d.pageDigest p) = true := by
  rw [List.all_eq_true]
  intro p hp
  have hword : ∀ o ∈ pairOffsets p, c.pairWord p o = d.pairWord p o := by
    intro o ho
    by_cases h : p ∈ ps
    · simpa using List.all_eq_true.1 (List.all_eq_true.1 hw p h) o ho
    · have hlt := pairOffsets_lt (List.mem_filter.1 hp).1 ho
      have : regKey p o / 4096 = p := by unfold regKey; omega
      simp only [Chip.pairWord, Chip.rd, hr (regKey p o) (by rwa [this])]
  have hl : ∀ l : List Nat, (∀ o ∈ l, c.pairWord p o = d.pairWord p o) →
      (l.flatMap fun o => leBytes 4 (c.pairWord p o)) = l.flatMap fun o => leBytes 4 (d.pairWord p o) := by
    intro l hl
    induction l with
    | nil => rfl
    | cons o l ih => simp only [List.flatMap_cons, hl o List.mem_cons_self, ih fun x hx => hl x (List.mem_cons_of_mem _ hx)]
  simp only [Chip.pageDigest, hl _ hword, beq_self_eq_true]

end Sys2Proof.Machine
end

