-- ==== Sys2Proof/Laws/Ops.lean ====
section
/-! SUPPORT. What the operations that every family shares leave as it is: each changes at most the register words, the counters, the
heads, the Coxia Link, the twin engine and what has been handed to the management endpoint. -/
namespace Sys2Proof.Machine

/-- A chip without what the shared operations may change. -/
def Chip.rest (c : Chip) : Chip :=
  { c with regs := [], live := [], heads := [], link := {}, twe := {}, mctpOut := [] }

theorem Chip.foldl_rest {α : Type} (g : Chip → α → Chip) (h : ∀ c x, (g c x).rest = c.rest) (l : List α) :
    ∀ c : Chip, (l.foldl g c).rest = c.rest := by
  induction l with
  | nil => exact fun c => rfl
  | cons x r ih => exact fun c => (ih (g c x)).trans (h c x)

section
set_option simprocs false

theorem Chip.wr_rest (c : Chip) (page off : Nat) (v : Word) : (Chip.wr c page off v).rest = c.rest := by
  unfold Chip.wr
  simp only [Chip.rest]

theorem Chip.put_rest (c : Chip) (f : Fld) (v : Nat) : (Chip.put c f v).rest = c.rest := by
  unfold Chip.put
  simp only [↓Chip.wr_rest, Chip.rest]





theorem Chip.putInt_rest (c : Chip) (f : Fld) (v : Int) : (Chip.putInt c f v).rest = c.rest := by
  unfold Chip.putInt
  simp only [↓Chip.put_rest, Chip.rest]

theorem Chip.cnt_rest (c : Chip) (k : Ctr) (n : Nat) : (Chip.cnt c k n).rest = c.rest := by
  unfold Chip.cnt
  simp only [Chip.rest]

theorem Chip.peak_rest (c : Chip) (k : Ctr) (n : Nat) : (Chip.peak c k n).rest = c.rest := by
  unfold Chip.peak
  simp only [Chip.rest]

theorem Chip.low_rest (c : Chip) (k : Ctr) (n : Nat) : (Chip.low c k n).rest = c.rest := by
  unfold Chip.low
  first
  | (simp only [Chip.rest]; done)
  | try dsimp only
    repeat' first
    | with_reducible rfl
    | split
    | simp only [Chip.rest]

theorem Chip.setPageState_rest (c : Chip) (page st : Nat) : (Chip.setPageState c page st).rest = c.rest := by
  unfold Chip.setPageState
  simp only [↓Chip.wr_rest, Chip.rest]

theorem Chip.mapHead_rest (c : Chip) (h : Fin 24) (f : Head → Head) : (Chip.mapHead c h f).rest = c.rest := by
  unfold Chip.mapHead
  simp only [Chip.rest]

theorem Chip.putOnWire_rest (c : Chip) (es : List Envelope) : (Chip.putOnWire c es).rest = c.rest := by
  unfold Chip.putOnWire
  first
  | (simp only [↓Chip.cnt_rest, Chip.rest]; done)
  | try dsimp only
    repeat' first
    | with_reducible rfl
    | split
    | with_reducible refine (Chip.foldl_rest _ (fun c x => ?_) _ _).trans ?_
    | simp only [↓Chip.cnt_rest, Chip.rest]

theorem Chip.transmit_rest (c : Chip) (b : EnvBody) : (Chip.transmit c b).rest = c.rest := by
  unfold Chip.transmit
  first
  | (simp only [↓Chip.put_rest, ↓Chip.putOnWire_rest, Chip.rest]; done)
  | try dsimp only
    repeat' first
    | with_reducible rfl
    | split
    | simp only [↓Chip.put_rest, ↓Chip.putOnWire_rest, Chip.rest]

theorem Chip.send_rest (c : Chip) (b : EnvBody) : (Chip.send c b).rest = c.rest := by
  unfold Chip.send
  first
  | (simp only [↓Chip.transmit_rest, Chip.rest]; done)
  | try dsimp only
    repeat' first
    | with_reducible rfl
    | split
    | simp only [↓Chip.transmit_rest, Chip.rest]

theorem Chip.sendWaiting_rest (n : Nat) : ∀ c : Chip, (c.sendWaiting n).rest = c.rest := by
  induction n with
  | zero => exact fun c => rfl
  | succ n ih =>
    intro c
    unfold Chip.sendWaiting
    split
    · rfl
    · split
      · rfl
      · rw [ih, Chip.transmit_rest]
        rfl

theorem Chip.post_rest (c : Chip) (r : PmRecord) : (Chip.post c r).rest = c.rest := by
  unfold Chip.post
  first
  | (simp only [↓Chip.put_rest, ↓Chip.cnt_rest, ↓Chip.send_rest, Chip.rest]; done)
  | try dsimp only
    repeat' first
    | with_reducible rfl
    | split
    | simp only [↓Chip.put_rest, ↓Chip.cnt_rest, ↓Chip.send_rest, Chip.rest]

theorem Chip.postEffect_rest (c : Chip) (e : Effect) (gated : Bool) (ends : Option Ends) : (Chip.postEffect c e gated ends).rest = c.rest := by
  unfold Chip.postEffect
  dsimp only
  split
  · exact Chip.post_rest c _
  · exact Chip.post_rest c _

theorem Chip.histFull_rest (c : Chip) (h : Fin 24) (full : Bool) : (Chip.histFull c h full).rest = c.rest := by
  unfold Chip.histFull
  first
  | (simp only [↓Chip.cnt_rest, ↓Chip.mapHead_rest, Chip.rest]; done)
  | try dsimp only
    repeat' first
    | with_reducible rfl
    | split
    | simp only [↓Chip.cnt_rest, ↓Chip.mapHead_rest, Chip.rest]

theorem Chip.pushFlit_rest (c : Chip) (h : Fin 24) (m : HostMsg) : (Chip.pushFlit c h m).rest = c.rest := by
  unfold Chip.pushFlit
  simp only [↓Chip.cnt_rest, ↓Chip.mapHead_rest, ↓Chip.histFull_rest, Chip.rest]

theorem Chip.mapVec_rest (c : Chip) (h : Fin 24) (v : Nat) (f : Vec → Vec) : (Chip.mapVec c h v f).rest = c.rest := by
  unfold Chip.mapVec
  simp only [↓Chip.mapHead_rest, Chip.rest]

theorem Chip.holdMsix_rest (c : Chip) (h : Fin 24) (v : Nat) : (Chip.holdMsix c h v).rest = c.rest := by
  unfold Chip.holdMsix
  first
  | (simp only [↓Chip.cnt_rest, ↓Chip.mapVec_rest, Chip.rest]; done)
  | try dsimp only
    repeat' first
    | with_reducible rfl
    | split
    | simp only [↓Chip.cnt_rest, ↓Chip.mapVec_rest, Chip.rest]

theorem Chip.sendMsix_rest (c : Chip) (h : Fin 24) (v : Nat) : (Chip.sendMsix c h v).rest = c.rest := by
  unfold Chip.sendMsix
  first
  | (simp only [↓Chip.cnt_rest, ↓Chip.mapHead_rest, ↓Chip.pushFlit_rest, ↓Chip.mapVec_rest, ↓Chip.holdMsix_rest, Chip.rest]; done)
  | try dsimp only
    repeat' first
    | with_reducible rfl
    | split
    | simp only [↓Chip.cnt_rest, ↓Chip.mapHead_rest, ↓Chip.pushFlit_rest, ↓Chip.mapVec_rest, ↓Chip.holdMsix_rest, Chip.rest]

theorem Chip.releaseMsix_rest (c : Chip) (h : Fin 24) : (Chip.releaseMsix c h).rest = c.rest := by
  unfold Chip.releaseMsix
  first
  | (simp only [↓Chip.mapVec_rest, ↓Chip.sendMsix_rest, Chip.rest]; done)
  | try dsimp only
    repeat' first
    | with_reducible rfl
    | split
    | with_reducible refine (Chip.foldl_rest _ (fun c x => ?_) _ _).trans ?_
    | simp only [↓Chip.mapVec_rest, ↓Chip.sendMsix_rest, Chip.rest]

theorem Chip.linkAwake_rest (c : Chip) (h : Fin 24) : (Chip.linkAwake c h).rest = c.rest := by
  unfold Chip.linkAwake
  first
  | (simp only [↓Chip.pushFlit_rest, ↓Chip.releaseMsix_rest, Chip.rest]; done)
  | try dsimp only
    repeat' first
    | with_reducible rfl
    | split
    | simp only [↓Chip.pushFlit_rest, ↓Chip.releaseMsix_rest, Chip.rest]

theorem Chip.cause_rest (c : Chip) (h : Fin 24) (v : Nat) : (Chip.cause c h v).rest = c.rest := by
  unfold Chip.cause
  first
  | (simp only [↓Chip.mapVec_rest, ↓Chip.sendMsix_rest, Chip.rest]; done)
  | try dsimp only
    repeat' first
    | with_reducible rfl
    | split
    | simp only [↓Chip.mapVec_rest, ↓Chip.sendMsix_rest, Chip.rest]

theorem Chip.setLog_rest (c : Chip) (h : Fin 24) (l : Nat) (x : EventLog) : (Chip.setLog c h l x).rest = c.rest := by
  unfold Chip.setLog
  simp only [↓Chip.put_rest, ↓Chip.mapHead_rest, Chip.rest]

theorem Chip.enterLogWith_rest (ev : Chip → Nat → Nat → Chip) (hev : ∀ c p b, (ev c p b).rest = c.rest) (c : Chip) (h : Fin 24) (l : Nat)
    (r : EventRec) : (Chip.enterLogWith ev c h l r).rest = c.rest := by
  unfold Chip.enterLogWith
  dsimp only
  split
  · rw [hev, Chip.cnt_rest, Chip.setLog_rest]
  · split
    · rw [Chip.cause_rest, Chip.setLog_rest]
    · rw [Chip.setLog_rest]

theorem Chip.logRecordWith_rest (ev : Chip → Nat → Nat → Chip) (hev : ∀ c p b, (ev c p b).rest = c.rest) (c : Chip) (h : Fin 24) (l : Nat)
    (r : EventRec) : (Chip.logRecordWith ev c h l r).rest = c.rest := by
  unfold Chip.logRecordWith
  rw [Chip.post_rest, Chip.enterLogWith_rest ev hev]

theorem Chip.logHereWith_rest (ev : Chip → Nat → Nat → Chip) (hev : ∀ c p b, (ev c p b).rest = c.rest) (c : Chip) (l : Nat)
    (r : EventRec) : (Chip.logHereWith ev c l r).rest = c.rest := by
  unfold Chip.logHereWith
  refine Chip.foldl_rest _ (fun c h => ?_) _ c
  split
  · exact Chip.logRecordWith_rest ev hev c h l r
  · rfl

theorem Chip.deliverWith_rest (ev : Chip → Nat → Nat → Chip) (hev : ∀ c p b, (ev c p b).rest = c.rest) (c : Chip) (page b : Nat) :
    (Chip.deliverWith ev c page b).rest = c.rest := by
  have h1 : (if bitsOf (c.rd page 0x01C) 20 1 = 1 then { c with mctpOut := c.mctpOut ++ [c.eventRec page b 0 0] } else c).rest = c.rest := by
    split
    · rfl
    · rfl
  unfold Chip.deliverWith
  dsimp only
  generalize (if bitsOf (c.rd page 0x01C) 20 1 = 1 then ({ c with mctpOut := c.mctpOut ++ [c.eventRec page b 0 0] } : Chip) else c) = d at h1
  have h2 := fun l r => (Chip.logHereWith_rest ev hev d l r).trans h1
  repeat' split
  all_goals first
    | with_reducible exact h1
    | with_reducible exact h2 _ _
    | exact (Chip.send_rest _ _).trans (h2 _ _)

theorem Chip.raiseN_rest (n : Nat) : ∀ (c : Chip) (page b : Nat), (Chip.raiseN n c page b).rest = c.rest := by
  induction n with
  | zero => exact fun c page b => rfl
  | succ n ih =>
    intro c page b
    unfold Chip.raiseN
    dsimp only
    split
    · rfl
    · split
      · rw [Chip.deliverWith_rest _ ih, Chip.wr_rest]
      · rw [Chip.wr_rest]

theorem Chip.raiseBit_rest (c : Chip) (page b : Nat) : (c.raiseBit page b).rest = c.rest := Chip.raiseN_rest 25 c page b

theorem Chip.deliverEvent_rest (c : Chip) (page b : Nat) : (c.deliverEvent page b).rest = c.rest :=
  Chip.deliverWith_rest _ Chip.raiseBit_rest c page b

theorem Chip.enterLog_rest (c : Chip) (h : Fin 24) (l : Nat) (r : EventRec) : (c.enterLog h l r).rest = c.rest :=
  Chip.enterLogWith_rest _ Chip.raiseBit_rest c h l r

theorem Chip.logRecord_rest (c : Chip) (h : Fin 24) (l : Nat) (r : EventRec) : (c.logRecord h l r).rest = c.rest :=
  Chip.logRecordWith_rest _ Chip.raiseBit_rest c h l r

theorem Chip.logHere_rest (c : Chip) (l : Nat) (r : EventRec) : (c.logHere l r).rest = c.rest :=
  Chip.logHereWith_rest _ Chip.raiseBit_rest c l r

theorem Chip.raise_rest (c : Chip) (f : Fld) : (Chip.raise c f).rest = c.rest := by
  unfold Chip.raise
  simp only [↓Chip.raiseBit_rest, Chip.rest]

theorem Chip.raiseHist_rest (c : Chip) (h : Fin 24) : (Chip.raiseHist c h).rest = c.rest := by
  unfold Chip.raiseHist
  first
  | (simp only [↓Chip.mapHead_rest, ↓Chip.raise_rest, Chip.rest]; done)
  | try dsimp only
    repeat' first
    | with_reducible rfl
    | split
    | simp only [↓Chip.mapHead_rest, ↓Chip.raise_rest, Chip.rest]

theorem Chip.toHost_rest (c : Chip) (h : Fin 24) (m : HostMsg) : (Chip.toHost c h m).rest = c.rest := by
  unfold Chip.toHost
  simp only [↓Chip.pushFlit_rest, ↓Chip.raiseHist_rest, Chip.rest]

theorem Chip.headRecord_rest (c : Chip) (h : Fin 24) (l page sub addr : Nat) : (Chip.headRecord c h l page sub addr).rest = c.rest := by
  unfold Chip.headRecord
  first
  | (simp only [↓Chip.logRecord_rest, Chip.rest]; done)
  | try dsimp only
    repeat' first
    | with_reducible rfl
    | split
    | simp only [↓Chip.logRecord_rest, Chip.rest]

theorem Chip.headMedia_rest (c : Chip) (h : Fin 24) (l : Nat) (form : RecForm) (page dpa : Nat) : (Chip.headMedia c h l form page dpa).rest = c.rest := by
  unfold Chip.headMedia
  first
  | (simp only [↓Chip.logRecord_rest, Chip.rest]; done)
  | try dsimp only
    repeat' first
    | with_reducible rfl
    | split
    | simp only [↓Chip.logRecord_rest, Chip.rest]

theorem Chip.reject_rest (c : Chip) (page code off : Nat) : (Chip.reject c page code off).rest = c.rest := by
  unfold Chip.reject
  simp only [↓Chip.wr_rest, ↓Chip.raiseBit_rest, Chip.rest]

end

theorem Chip.deny_rest (c : Chip) : c.deny.rest = c.rest := by
  unfold Chip.deny
  rw [Chip.raise_rest, Chip.cnt_rest]

/-- What an equality of `rest` says of each part. -/
theorem Chip.of_rest {c d : Chip} (h : c.rest = d.rest) :
    c.applied = d.applied ∧ c.checks = d.checks ∧ c.snap = d.snap ∧ c.snapDelivery = d.snapDelivery ∧ c.answers = d.answers ∧
    c.clk = d.clk ∧ c.mail = d.mail ∧ c.tags = d.tags ∧ c.admitPtr = d.admitPtr ∧ c.wmb = d.wmb ∧ c.wmbAge = d.wmbAge ∧
    c.localStall = d.localStall ∧ c.unmirrored = d.unmirrored ∧ c.charges = d.charges ∧ c.rings = d.rings ∧ c.che = d.che ∧
    c.trm = d.trm ∧ c.mdc = d.mdc ∧ c.rte = d.rte ∧ c.mde = d.mde ∧ c.svc = d.svc ∧ c.chans = d.chans ∧ c.ras = d.ras ∧
    c.cbl = d.cbl ∧ c.cores = d.cores ∧ c.dram = d.dram ∧ c.icu = d.icu ∧ c.efc = d.efc ∧ c.wdt = d.wdt ∧ c.psq = d.psq ∧
    c.thm = d.thm ∧ c.mti = d.mti ∧ c.rst = d.rst ∧ c.sec = d.sec ∧ c.tap = d.tap :=
  ⟨show c.rest.applied = d.rest.applied from congrArg Chip.applied h,
    show c.rest.checks = d.rest.checks from congrArg Chip.checks h, show c.rest.snap = d.rest.snap from congrArg Chip.snap h,
    show c.rest.snapDelivery = d.rest.snapDelivery from congrArg Chip.snapDelivery h,
    show c.rest.answers = d.rest.answers from congrArg Chip.answers h, show c.rest.clk = d.rest.clk from congrArg Chip.clk h,
    show c.rest.mail = d.rest.mail from congrArg Chip.mail h, show c.rest.tags = d.rest.tags from congrArg Chip.tags h,
    show c.rest.admitPtr = d.rest.admitPtr from congrArg Chip.admitPtr h, show c.rest.wmb = d.rest.wmb from congrArg Chip.wmb h,
    show c.rest.wmbAge = d.rest.wmbAge from congrArg Chip.wmbAge h,
    show c.rest.localStall = d.rest.localStall from congrArg Chip.localStall h,
    show c.rest.unmirrored = d.rest.unmirrored from congrArg Chip.unmirrored h,
    show c.rest.charges = d.rest.charges from congrArg Chip.charges h,
    show c.rest.rings = d.rest.rings from congrArg Chip.rings h, show c.rest.che = d.rest.che from congrArg Chip.che h,
    show c.rest.trm = d.rest.trm from congrArg Chip.trm h, show c.rest.mdc = d.rest.mdc from congrArg Chip.mdc h,
    show c.rest.rte = d.rest.rte from congrArg Chip.rte h, show c.rest.mde = d.rest.mde from congrArg Chip.mde h,
    show c.rest.svc = d.rest.svc from congrArg Chip.svc h, show c.rest.chans = d.rest.chans from congrArg Chip.chans h,
    show c.rest.ras = d.rest.ras from congrArg Chip.ras h, show c.rest.cbl = d.rest.cbl from congrArg Chip.cbl h,
    show c.rest.cores = d.rest.cores from congrArg Chip.cores h, show c.rest.dram = d.rest.dram from congrArg Chip.dram h,
    show c.rest.icu = d.rest.icu from congrArg Chip.icu h, show c.rest.efc = d.rest.efc from congrArg Chip.efc h,
    show c.rest.wdt = d.rest.wdt from congrArg Chip.wdt h, show c.rest.psq = d.rest.psq from congrArg Chip.psq h,
    show c.rest.thm = d.rest.thm from congrArg Chip.thm h, show c.rest.mti = d.rest.mti from congrArg Chip.mti h,
    show c.rest.rst = d.rest.rst from congrArg Chip.rst h, show c.rest.sec = d.rest.sec from congrArg Chip.sec h,
    show c.rest.tap = d.rest.tap from congrArg Chip.tap h⟩

@[simp] theorem Chip.wr_parts (c : Chip) (page off : Nat) (v : Word) :
    (c.wr page off v).applied = c.applied ∧ (c.wr page off v).checks = c.checks ∧ (c.wr page off v).snap = c.snap ∧
    (c.wr page off v).snapDelivery = c.snapDelivery ∧ (c.wr page off v).answers = c.answers ∧ (c.wr page off v).clk = c.clk ∧
    (c.wr page off v).mail = c.mail ∧ (c.wr page off v).tags = c.tags ∧ (c.wr page off v).admitPtr = c.admitPtr ∧
    (c.wr page off v).wmb = c.wmb ∧ (c.wr page off v).wmbAge = c.wmbAge ∧ (c.wr page off v).localStall = c.localStall ∧
    (c.wr page off v).unmirrored = c.unmirrored ∧ (c.wr page off v).charges = c.charges ∧ (c.wr page off v).rings = c.rings ∧
    (c.wr page off v).che = c.che ∧ (c.wr page off v).trm = c.trm ∧ (c.wr page off v).mdc = c.mdc ∧ (c.wr page off v).rte = c.rte ∧
    (c.wr page off v).mde = c.mde ∧ (c.wr page off v).svc = c.svc ∧ (c.wr page off v).chans = c.chans ∧
    (c.wr page off v).ras = c.ras ∧ (c.wr page off v).cbl = c.cbl ∧ (c.wr page off v).cores = c.cores ∧
    (c.wr page off v).dram = c.dram ∧ (c.wr page off v).icu = c.icu ∧ (c.wr page off v).efc = c.efc ∧
    (c.wr page off v).wdt = c.wdt ∧ (c.wr page off v).psq = c.psq ∧ (c.wr page off v).thm = c.thm ∧ (c.wr page off v).mti = c.mti ∧
    (c.wr page off v).rst = c.rst ∧ (c.wr page off v).sec = c.sec ∧ (c.wr page off v).tap = c.tap :=
  Chip.of_rest (Chip.wr_rest c page off v)

@[simp] theorem Chip.put_parts (c : Chip) (f : Fld) (v : Nat) :
    (c.put f v).applied = c.applied ∧ (c.put f v).checks = c.checks ∧ (c.put f v).snap = c.snap ∧
    (c.put f v).snapDelivery = c.snapDelivery ∧ (c.put f v).answers = c.answers ∧ (c.put f v).clk = c.clk ∧
    (c.put f v).mail = c.mail ∧ (c.put f v).tags = c.tags ∧ (c.put f v).admitPtr = c.admitPtr ∧ (c.put f v).wmb = c.wmb ∧
    (c.put f v).wmbAge = c.wmbAge ∧ (c.put f v).localStall = c.localStall ∧ (c.put f v).unmirrored = c.unmirrored ∧
    (c.put f v).charges = c.charges ∧ (c.put f v).rings = c.rings ∧ (c.put f v).che = c.che ∧ (c.put f v).trm = c.trm ∧
    (c.put f v).mdc = c.mdc ∧ (c.put f v).rte = c.rte ∧ (c.put f v).mde = c.mde ∧ (c.put f v).svc = c.svc ∧
    (c.put f v).chans = c.chans ∧ (c.put f v).ras = c.ras ∧ (c.put f v).cbl = c.cbl ∧ (c.put f v).cores = c.cores ∧
    (c.put f v).dram = c.dram ∧ (c.put f v).icu = c.icu ∧ (c.put f v).efc = c.efc ∧ (c.put f v).wdt = c.wdt ∧
    (c.put f v).psq = c.psq ∧ (c.put f v).thm = c.thm ∧ (c.put f v).mti = c.mti ∧ (c.put f v).rst = c.rst ∧
    (c.put f v).sec = c.sec ∧ (c.put f v).tap = c.tap :=
  Chip.of_rest (Chip.put_rest c f v)

@[simp] theorem Chip.putInt_parts (c : Chip) (f : Fld) (v : Int) :
    (c.putInt f v).applied = c.applied ∧ (c.putInt f v).checks = c.checks ∧ (c.putInt f v).snap = c.snap ∧
    (c.putInt f v).snapDelivery = c.snapDelivery ∧ (c.putInt f v).answers = c.answers ∧ (c.putInt f v).clk = c.clk ∧
    (c.putInt f v).mail = c.mail ∧ (c.putInt f v).tags = c.tags ∧ (c.putInt f v).admitPtr = c.admitPtr ∧
    (c.putInt f v).wmb = c.wmb ∧ (c.putInt f v).wmbAge = c.wmbAge ∧ (c.putInt f v).localStall = c.localStall ∧
    (c.putInt f v).unmirrored = c.unmirrored ∧ (c.putInt f v).charges = c.charges ∧ (c.putInt f v).rings = c.rings ∧
    (c.putInt f v).che = c.che ∧ (c.putInt f v).trm = c.trm ∧ (c.putInt f v).mdc = c.mdc ∧ (c.putInt f v).rte = c.rte ∧
    (c.putInt f v).mde = c.mde ∧ (c.putInt f v).svc = c.svc ∧ (c.putInt f v).chans = c.chans ∧ (c.putInt f v).ras = c.ras ∧
    (c.putInt f v).cbl = c.cbl ∧ (c.putInt f v).cores = c.cores ∧ (c.putInt f v).dram = c.dram ∧ (c.putInt f v).icu = c.icu ∧
    (c.putInt f v).efc = c.efc ∧ (c.putInt f v).wdt = c.wdt ∧ (c.putInt f v).psq = c.psq ∧ (c.putInt f v).thm = c.thm ∧
    (c.putInt f v).mti = c.mti ∧ (c.putInt f v).rst = c.rst ∧ (c.putInt f v).sec = c.sec ∧ (c.putInt f v).tap = c.tap :=
  Chip.of_rest (Chip.putInt_rest c f v)

@[simp] theorem Chip.cnt_parts (c : Chip) (k : Ctr) (n : Nat) :
    (c.cnt k n).applied = c.applied ∧ (c.cnt k n).checks = c.checks ∧ (c.cnt k n).snap = c.snap ∧
    (c.cnt k n).snapDelivery = c.snapDelivery ∧ (c.cnt k n).answers = c.answers ∧ (c.cnt k n).clk = c.clk ∧
    (c.cnt k n).mail = c.mail ∧ (c.cnt k n).tags = c.tags ∧ (c.cnt k n).admitPtr = c.admitPtr ∧ (c.cnt k n).wmb = c.wmb ∧
    (c.cnt k n).wmbAge = c.wmbAge ∧ (c.cnt k n).localStall = c.localStall ∧ (c.cnt k n).unmirrored = c.unmirrored ∧
    (c.cnt k n).charges = c.charges ∧ (c.cnt k n).rings = c.rings ∧ (c.cnt k n).che = c.che ∧ (c.cnt k n).trm = c.trm ∧
    (c.cnt k n).mdc = c.mdc ∧ (c.cnt k n).rte = c.rte ∧ (c.cnt k n).mde = c.mde ∧ (c.cnt k n).svc = c.svc ∧
    (c.cnt k n).chans = c.chans ∧ (c.cnt k n).ras = c.ras ∧ (c.cnt k n).cbl = c.cbl ∧ (c.cnt k n).cores = c.cores ∧
    (c.cnt k n).dram = c.dram ∧ (c.cnt k n).icu = c.icu ∧ (c.cnt k n).efc = c.efc ∧ (c.cnt k n).wdt = c.wdt ∧
    (c.cnt k n).psq = c.psq ∧ (c.cnt k n).thm = c.thm ∧ (c.cnt k n).mti = c.mti ∧ (c.cnt k n).rst = c.rst ∧
    (c.cnt k n).sec = c.sec ∧ (c.cnt k n).tap = c.tap :=
  Chip.of_rest (Chip.cnt_rest c k n)

@[simp] theorem Chip.peak_parts (c : Chip) (k : Ctr) (n : Nat) :
    (c.peak k n).applied = c.applied ∧ (c.peak k n).checks = c.checks ∧ (c.peak k n).snap = c.snap ∧
    (c.peak k n).snapDelivery = c.snapDelivery ∧ (c.peak k n).answers = c.answers ∧ (c.peak k n).clk = c.clk ∧
    (c.peak k n).mail = c.mail ∧ (c.peak k n).tags = c.tags ∧ (c.peak k n).admitPtr = c.admitPtr ∧ (c.peak k n).wmb = c.wmb ∧
    (c.peak k n).wmbAge = c.wmbAge ∧ (c.peak k n).localStall = c.localStall ∧ (c.peak k n).unmirrored = c.unmirrored ∧
    (c.peak k n).charges = c.charges ∧ (c.peak k n).rings = c.rings ∧ (c.peak k n).che = c.che ∧ (c.peak k n).trm = c.trm ∧
    (c.peak k n).mdc = c.mdc ∧ (c.peak k n).rte = c.rte ∧ (c.peak k n).mde = c.mde ∧ (c.peak k n).svc = c.svc ∧
    (c.peak k n).chans = c.chans ∧ (c.peak k n).ras = c.ras ∧ (c.peak k n).cbl = c.cbl ∧ (c.peak k n).cores = c.cores ∧
    (c.peak k n).dram = c.dram ∧ (c.peak k n).icu = c.icu ∧ (c.peak k n).efc = c.efc ∧ (c.peak k n).wdt = c.wdt ∧
    (c.peak k n).psq = c.psq ∧ (c.peak k n).thm = c.thm ∧ (c.peak k n).mti = c.mti ∧ (c.peak k n).rst = c.rst ∧
    (c.peak k n).sec = c.sec ∧ (c.peak k n).tap = c.tap :=
  Chip.of_rest (Chip.peak_rest c k n)

@[simp] theorem Chip.low_parts (c : Chip) (k : Ctr) (n : Nat) :
    (c.low k n).applied = c.applied ∧ (c.low k n).checks = c.checks ∧ (c.low k n).snap = c.snap ∧
    (c.low k n).snapDelivery = c.snapDelivery ∧ (c.low k n).answers = c.answers ∧ (c.low k n).clk = c.clk ∧
    (c.low k n).mail = c.mail ∧ (c.low k n).tags = c.tags ∧ (c.low k n).admitPtr = c.admitPtr ∧ (c.low k n).wmb = c.wmb ∧
    (c.low k n).wmbAge = c.wmbAge ∧ (c.low k n).localStall = c.localStall ∧ (c.low k n).unmirrored = c.unmirrored ∧
    (c.low k n).charges = c.charges ∧ (c.low k n).rings = c.rings ∧ (c.low k n).che = c.che ∧ (c.low k n).trm = c.trm ∧
    (c.low k n).mdc = c.mdc ∧ (c.low k n).rte = c.rte ∧ (c.low k n).mde = c.mde ∧ (c.low k n).svc = c.svc ∧
    (c.low k n).chans = c.chans ∧ (c.low k n).ras = c.ras ∧ (c.low k n).cbl = c.cbl ∧ (c.low k n).cores = c.cores ∧
    (c.low k n).dram = c.dram ∧ (c.low k n).icu = c.icu ∧ (c.low k n).efc = c.efc ∧ (c.low k n).wdt = c.wdt ∧
    (c.low k n).psq = c.psq ∧ (c.low k n).thm = c.thm ∧ (c.low k n).mti = c.mti ∧ (c.low k n).rst = c.rst ∧
    (c.low k n).sec = c.sec ∧ (c.low k n).tap = c.tap :=
  Chip.of_rest (Chip.low_rest c k n)

@[simp] theorem Chip.setPageState_parts (c : Chip) (page st : Nat) :
    (c.setPageState page st).applied = c.applied ∧ (c.setPageState page st).checks = c.checks ∧
    (c.setPageState page st).snap = c.snap ∧ (c.setPageState page st).snapDelivery = c.snapDelivery ∧
    (c.setPageState page st).answers = c.answers ∧ (c.setPageState page st).clk = c.clk ∧ (c.setPageState page st).mail = c.mail ∧
    (c.setPageState page st).tags = c.tags ∧ (c.setPageState page st).admitPtr = c.admitPtr ∧
    (c.setPageState page st).wmb = c.wmb ∧ (c.setPageState page st).wmbAge = c.wmbAge ∧
    (c.setPageState page st).localStall = c.localStall ∧ (c.setPageState page st).unmirrored = c.unmirrored ∧
    (c.setPageState page st).charges = c.charges ∧ (c.setPageState page st).rings = c.rings ∧
    (c.setPageState page st).che = c.che ∧ (c.setPageState page st).trm = c.trm ∧ (c.setPageState page st).mdc = c.mdc ∧
    (c.setPageState page st).rte = c.rte ∧ (c.setPageState page st).mde = c.mde ∧ (c.setPageState page st).svc = c.svc ∧
    (c.setPageState page st).chans = c.chans ∧ (c.setPageState page st).ras = c.ras ∧ (c.setPageState page st).cbl = c.cbl ∧
    (c.setPageState page st).cores = c.cores ∧ (c.setPageState page st).dram = c.dram ∧ (c.setPageState page st).icu = c.icu ∧
    (c.setPageState page st).efc = c.efc ∧ (c.setPageState page st).wdt = c.wdt ∧ (c.setPageState page st).psq = c.psq ∧
    (c.setPageState page st).thm = c.thm ∧ (c.setPageState page st).mti = c.mti ∧ (c.setPageState page st).rst = c.rst ∧
    (c.setPageState page st).sec = c.sec ∧ (c.setPageState page st).tap = c.tap :=
  Chip.of_rest (Chip.setPageState_rest c page st)

@[simp] theorem Chip.mapHead_parts (c : Chip) (h : Fin 24) (f : Head → Head) :
    (c.mapHead h f).applied = c.applied ∧ (c.mapHead h f).checks = c.checks ∧ (c.mapHead h f).snap = c.snap ∧
    (c.mapHead h f).snapDelivery = c.snapDelivery ∧ (c.mapHead h f).answers = c.answers ∧ (c.mapHead h f).clk = c.clk ∧
    (c.mapHead h f).mail = c.mail ∧ (c.mapHead h f).tags = c.tags ∧ (c.mapHead h f).admitPtr = c.admitPtr ∧
    (c.mapHead h f).wmb = c.wmb ∧ (c.mapHead h f).wmbAge = c.wmbAge ∧ (c.mapHead h f).localStall = c.localStall ∧
    (c.mapHead h f).unmirrored = c.unmirrored ∧ (c.mapHead h f).charges = c.charges ∧ (c.mapHead h f).rings = c.rings ∧
    (c.mapHead h f).che = c.che ∧ (c.mapHead h f).trm = c.trm ∧ (c.mapHead h f).mdc = c.mdc ∧ (c.mapHead h f).rte = c.rte ∧
    (c.mapHead h f).mde = c.mde ∧ (c.mapHead h f).svc = c.svc ∧ (c.mapHead h f).chans = c.chans ∧ (c.mapHead h f).ras = c.ras ∧
    (c.mapHead h f).cbl = c.cbl ∧ (c.mapHead h f).cores = c.cores ∧ (c.mapHead h f).dram = c.dram ∧ (c.mapHead h f).icu = c.icu ∧
    (c.mapHead h f).efc = c.efc ∧ (c.mapHead h f).wdt = c.wdt ∧ (c.mapHead h f).psq = c.psq ∧ (c.mapHead h f).thm = c.thm ∧
    (c.mapHead h f).mti = c.mti ∧ (c.mapHead h f).rst = c.rst ∧ (c.mapHead h f).sec = c.sec ∧ (c.mapHead h f).tap = c.tap :=
  Chip.of_rest (Chip.mapHead_rest c h f)

@[simp] theorem Chip.transmit_parts (c : Chip) (b : EnvBody) :
    (c.transmit b).applied = c.applied ∧ (c.transmit b).checks = c.checks ∧ (c.transmit b).snap = c.snap ∧
    (c.transmit b).snapDelivery = c.snapDelivery ∧ (c.transmit b).answers = c.answers ∧ (c.transmit b).clk = c.clk ∧
    (c.transmit b).mail = c.mail ∧ (c.transmit b).tags = c.tags ∧ (c.transmit b).admitPtr = c.admitPtr ∧
    (c.transmit b).wmb = c.wmb ∧ (c.transmit b).wmbAge = c.wmbAge ∧ (c.transmit b).localStall = c.localStall ∧
    (c.transmit b).unmirrored = c.unmirrored ∧ (c.transmit b).charges = c.charges ∧ (c.transmit b).rings = c.rings ∧
    (c.transmit b).che = c.che ∧ (c.transmit b).trm = c.trm ∧ (c.transmit b).mdc = c.mdc ∧ (c.transmit b).rte = c.rte ∧
    (c.transmit b).mde = c.mde ∧ (c.transmit b).svc = c.svc ∧ (c.transmit b).chans = c.chans ∧ (c.transmit b).ras = c.ras ∧
    (c.transmit b).cbl = c.cbl ∧ (c.transmit b).cores = c.cores ∧ (c.transmit b).dram = c.dram ∧ (c.transmit b).icu = c.icu ∧
    (c.transmit b).efc = c.efc ∧ (c.transmit b).wdt = c.wdt ∧ (c.transmit b).psq = c.psq ∧ (c.transmit b).thm = c.thm ∧
    (c.transmit b).mti = c.mti ∧ (c.transmit b).rst = c.rst ∧ (c.transmit b).sec = c.sec ∧ (c.transmit b).tap = c.tap :=
  Chip.of_rest (Chip.transmit_rest c b)

@[simp] theorem Chip.send_parts (c : Chip) (b : EnvBody) :
    (c.send b).applied = c.applied ∧ (c.send b).checks = c.checks ∧ (c.send b).snap = c.snap ∧
    (c.send b).snapDelivery = c.snapDelivery ∧ (c.send b).answers = c.answers ∧ (c.send b).clk = c.clk ∧ (c.send b).mail = c.mail ∧
    (c.send b).tags = c.tags ∧ (c.send b).admitPtr = c.admitPtr ∧ (c.send b).wmb = c.wmb ∧ (c.send b).wmbAge = c.wmbAge ∧
    (c.send b).localStall = c.localStall ∧ (c.send b).unmirrored = c.unmirrored ∧ (c.send b).charges = c.charges ∧
    (c.send b).rings = c.rings ∧ (c.send b).che = c.che ∧ (c.send b).trm = c.trm ∧ (c.send b).mdc = c.mdc ∧
    (c.send b).rte = c.rte ∧ (c.send b).mde = c.mde ∧ (c.send b).svc = c.svc ∧ (c.send b).chans = c.chans ∧
    (c.send b).ras = c.ras ∧ (c.send b).cbl = c.cbl ∧ (c.send b).cores = c.cores ∧ (c.send b).dram = c.dram ∧
    (c.send b).icu = c.icu ∧ (c.send b).efc = c.efc ∧ (c.send b).wdt = c.wdt ∧ (c.send b).psq = c.psq ∧ (c.send b).thm = c.thm ∧
    (c.send b).mti = c.mti ∧ (c.send b).rst = c.rst ∧ (c.send b).sec = c.sec ∧ (c.send b).tap = c.tap :=
  Chip.of_rest (Chip.send_rest c b)

@[simp] theorem Chip.post_parts (c : Chip) (r : PmRecord) :
    (c.post r).applied = c.applied ∧ (c.post r).checks = c.checks ∧ (c.post r).snap = c.snap ∧
    (c.post r).snapDelivery = c.snapDelivery ∧ (c.post r).answers = c.answers ∧ (c.post r).clk = c.clk ∧ (c.post r).mail = c.mail ∧
    (c.post r).tags = c.tags ∧ (c.post r).admitPtr = c.admitPtr ∧ (c.post r).wmb = c.wmb ∧ (c.post r).wmbAge = c.wmbAge ∧
    (c.post r).localStall = c.localStall ∧ (c.post r).unmirrored = c.unmirrored ∧ (c.post r).charges = c.charges ∧
    (c.post r).rings = c.rings ∧ (c.post r).che = c.che ∧ (c.post r).trm = c.trm ∧ (c.post r).mdc = c.mdc ∧
    (c.post r).rte = c.rte ∧ (c.post r).mde = c.mde ∧ (c.post r).svc = c.svc ∧ (c.post r).chans = c.chans ∧
    (c.post r).ras = c.ras ∧ (c.post r).cbl = c.cbl ∧ (c.post r).cores = c.cores ∧ (c.post r).dram = c.dram ∧
    (c.post r).icu = c.icu ∧ (c.post r).efc = c.efc ∧ (c.post r).wdt = c.wdt ∧ (c.post r).psq = c.psq ∧ (c.post r).thm = c.thm ∧
    (c.post r).mti = c.mti ∧ (c.post r).rst = c.rst ∧ (c.post r).sec = c.sec ∧ (c.post r).tap = c.tap :=
  Chip.of_rest (Chip.post_rest c r)

@[simp] theorem Chip.postEffect_parts (c : Chip) (e : Effect) (gated : Bool) (ends : Option Ends) :
    (c.postEffect e gated ends).applied = c.applied ∧ (c.postEffect e gated ends).checks = c.checks ∧
    (c.postEffect e gated ends).snap = c.snap ∧ (c.postEffect e gated ends).snapDelivery = c.snapDelivery ∧
    (c.postEffect e gated ends).answers = c.answers ∧ (c.postEffect e gated ends).clk = c.clk ∧
    (c.postEffect e gated ends).mail = c.mail ∧ (c.postEffect e gated ends).tags = c.tags ∧
    (c.postEffect e gated ends).admitPtr = c.admitPtr ∧ (c.postEffect e gated ends).wmb = c.wmb ∧
    (c.postEffect e gated ends).wmbAge = c.wmbAge ∧ (c.postEffect e gated ends).localStall = c.localStall ∧
    (c.postEffect e gated ends).unmirrored = c.unmirrored ∧ (c.postEffect e gated ends).charges = c.charges ∧
    (c.postEffect e gated ends).rings = c.rings ∧ (c.postEffect e gated ends).che = c.che ∧
    (c.postEffect e gated ends).trm = c.trm ∧ (c.postEffect e gated ends).mdc = c.mdc ∧ (c.postEffect e gated ends).rte = c.rte ∧
    (c.postEffect e gated ends).mde = c.mde ∧ (c.postEffect e gated ends).svc = c.svc ∧
    (c.postEffect e gated ends).chans = c.chans ∧ (c.postEffect e gated ends).ras = c.ras ∧
    (c.postEffect e gated ends).cbl = c.cbl ∧ (c.postEffect e gated ends).cores = c.cores ∧
    (c.postEffect e gated ends).dram = c.dram ∧ (c.postEffect e gated ends).icu = c.icu ∧ (c.postEffect e gated ends).efc = c.efc ∧
    (c.postEffect e gated ends).wdt = c.wdt ∧ (c.postEffect e gated ends).psq = c.psq ∧ (c.postEffect e gated ends).thm = c.thm ∧
    (c.postEffect e gated ends).mti = c.mti ∧ (c.postEffect e gated ends).rst = c.rst ∧ (c.postEffect e gated ends).sec = c.sec ∧
    (c.postEffect e gated ends).tap = c.tap :=
  Chip.of_rest (Chip.postEffect_rest c e gated ends)

@[simp] theorem Chip.toHost_parts (c : Chip) (h : Fin 24) (m : HostMsg) :
    (c.toHost h m).applied = c.applied ∧ (c.toHost h m).checks = c.checks ∧ (c.toHost h m).snap = c.snap ∧
    (c.toHost h m).snapDelivery = c.snapDelivery ∧ (c.toHost h m).answers = c.answers ∧ (c.toHost h m).clk = c.clk ∧
    (c.toHost h m).mail = c.mail ∧ (c.toHost h m).tags = c.tags ∧ (c.toHost h m).admitPtr = c.admitPtr ∧
    (c.toHost h m).wmb = c.wmb ∧ (c.toHost h m).wmbAge = c.wmbAge ∧ (c.toHost h m).localStall = c.localStall ∧
    (c.toHost h m).unmirrored = c.unmirrored ∧ (c.toHost h m).charges = c.charges ∧ (c.toHost h m).rings = c.rings ∧
    (c.toHost h m).che = c.che ∧ (c.toHost h m).trm = c.trm ∧ (c.toHost h m).mdc = c.mdc ∧ (c.toHost h m).rte = c.rte ∧
    (c.toHost h m).mde = c.mde ∧ (c.toHost h m).svc = c.svc ∧ (c.toHost h m).chans = c.chans ∧ (c.toHost h m).ras = c.ras ∧
    (c.toHost h m).cbl = c.cbl ∧ (c.toHost h m).cores = c.cores ∧ (c.toHost h m).dram = c.dram ∧ (c.toHost h m).icu = c.icu ∧
    (c.toHost h m).efc = c.efc ∧ (c.toHost h m).wdt = c.wdt ∧ (c.toHost h m).psq = c.psq ∧ (c.toHost h m).thm = c.thm ∧
    (c.toHost h m).mti = c.mti ∧ (c.toHost h m).rst = c.rst ∧ (c.toHost h m).sec = c.sec ∧ (c.toHost h m).tap = c.tap :=
  Chip.of_rest (Chip.toHost_rest c h m)

@[simp] theorem Chip.mapVec_parts (c : Chip) (h : Fin 24) (v : Nat) (f : Vec → Vec) :
    (c.mapVec h v f).applied = c.applied ∧ (c.mapVec h v f).checks = c.checks ∧ (c.mapVec h v f).snap = c.snap ∧
    (c.mapVec h v f).snapDelivery = c.snapDelivery ∧ (c.mapVec h v f).answers = c.answers ∧ (c.mapVec h v f).clk = c.clk ∧
    (c.mapVec h v f).mail = c.mail ∧ (c.mapVec h v f).tags = c.tags ∧ (c.mapVec h v f).admitPtr = c.admitPtr ∧
    (c.mapVec h v f).wmb = c.wmb ∧ (c.mapVec h v f).wmbAge = c.wmbAge ∧ (c.mapVec h v f).localStall = c.localStall ∧
    (c.mapVec h v f).unmirrored = c.unmirrored ∧ (c.mapVec h v f).charges = c.charges ∧ (c.mapVec h v f).rings = c.rings ∧
    (c.mapVec h v f).che = c.che ∧ (c.mapVec h v f).trm = c.trm ∧ (c.mapVec h v f).mdc = c.mdc ∧ (c.mapVec h v f).rte = c.rte ∧
    (c.mapVec h v f).mde = c.mde ∧ (c.mapVec h v f).svc = c.svc ∧ (c.mapVec h v f).chans = c.chans ∧ (c.mapVec h v f).ras = c.ras ∧
    (c.mapVec h v f).cbl = c.cbl ∧ (c.mapVec h v f).cores = c.cores ∧ (c.mapVec h v f).dram = c.dram ∧
    (c.mapVec h v f).icu = c.icu ∧ (c.mapVec h v f).efc = c.efc ∧ (c.mapVec h v f).wdt = c.wdt ∧ (c.mapVec h v f).psq = c.psq ∧
    (c.mapVec h v f).thm = c.thm ∧ (c.mapVec h v f).mti = c.mti ∧ (c.mapVec h v f).rst = c.rst ∧ (c.mapVec h v f).sec = c.sec ∧
    (c.mapVec h v f).tap = c.tap :=
  Chip.of_rest (Chip.mapVec_rest c h v f)

@[simp] theorem Chip.sendMsix_parts (c : Chip) (h : Fin 24) (v : Nat) :
    (c.sendMsix h v).applied = c.applied ∧ (c.sendMsix h v).checks = c.checks ∧ (c.sendMsix h v).snap = c.snap ∧
    (c.sendMsix h v).snapDelivery = c.snapDelivery ∧ (c.sendMsix h v).answers = c.answers ∧ (c.sendMsix h v).clk = c.clk ∧
    (c.sendMsix h v).mail = c.mail ∧ (c.sendMsix h v).tags = c.tags ∧ (c.sendMsix h v).admitPtr = c.admitPtr ∧
    (c.sendMsix h v).wmb = c.wmb ∧ (c.sendMsix h v).wmbAge = c.wmbAge ∧ (c.sendMsix h v).localStall = c.localStall ∧
    (c.sendMsix h v).unmirrored = c.unmirrored ∧ (c.sendMsix h v).charges = c.charges ∧ (c.sendMsix h v).rings = c.rings ∧
    (c.sendMsix h v).che = c.che ∧ (c.sendMsix h v).trm = c.trm ∧ (c.sendMsix h v).mdc = c.mdc ∧ (c.sendMsix h v).rte = c.rte ∧
    (c.sendMsix h v).mde = c.mde ∧ (c.sendMsix h v).svc = c.svc ∧ (c.sendMsix h v).chans = c.chans ∧ (c.sendMsix h v).ras = c.ras ∧
    (c.sendMsix h v).cbl = c.cbl ∧ (c.sendMsix h v).cores = c.cores ∧ (c.sendMsix h v).dram = c.dram ∧
    (c.sendMsix h v).icu = c.icu ∧ (c.sendMsix h v).efc = c.efc ∧ (c.sendMsix h v).wdt = c.wdt ∧ (c.sendMsix h v).psq = c.psq ∧
    (c.sendMsix h v).thm = c.thm ∧ (c.sendMsix h v).mti = c.mti ∧ (c.sendMsix h v).rst = c.rst ∧ (c.sendMsix h v).sec = c.sec ∧
    (c.sendMsix h v).tap = c.tap :=
  Chip.of_rest (Chip.sendMsix_rest c h v)

@[simp] theorem Chip.cause_parts (c : Chip) (h : Fin 24) (v : Nat) :
    (c.cause h v).applied = c.applied ∧ (c.cause h v).checks = c.checks ∧ (c.cause h v).snap = c.snap ∧
    (c.cause h v).snapDelivery = c.snapDelivery ∧ (c.cause h v).answers = c.answers ∧ (c.cause h v).clk = c.clk ∧
    (c.cause h v).mail = c.mail ∧ (c.cause h v).tags = c.tags ∧ (c.cause h v).admitPtr = c.admitPtr ∧ (c.cause h v).wmb = c.wmb ∧
    (c.cause h v).wmbAge = c.wmbAge ∧ (c.cause h v).localStall = c.localStall ∧ (c.cause h v).unmirrored = c.unmirrored ∧
    (c.cause h v).charges = c.charges ∧ (c.cause h v).rings = c.rings ∧ (c.cause h v).che = c.che ∧ (c.cause h v).trm = c.trm ∧
    (c.cause h v).mdc = c.mdc ∧ (c.cause h v).rte = c.rte ∧ (c.cause h v).mde = c.mde ∧ (c.cause h v).svc = c.svc ∧
    (c.cause h v).chans = c.chans ∧ (c.cause h v).ras = c.ras ∧ (c.cause h v).cbl = c.cbl ∧ (c.cause h v).cores = c.cores ∧
    (c.cause h v).dram = c.dram ∧ (c.cause h v).icu = c.icu ∧ (c.cause h v).efc = c.efc ∧ (c.cause h v).wdt = c.wdt ∧
    (c.cause h v).psq = c.psq ∧ (c.cause h v).thm = c.thm ∧ (c.cause h v).mti = c.mti ∧ (c.cause h v).rst = c.rst ∧
    (c.cause h v).sec = c.sec ∧ (c.cause h v).tap = c.tap :=
  Chip.of_rest (Chip.cause_rest c h v)

@[simp] theorem Chip.setLog_parts (c : Chip) (h : Fin 24) (l : Nat) (x : EventLog) :
    (c.setLog h l x).applied = c.applied ∧ (c.setLog h l x).checks = c.checks ∧ (c.setLog h l x).snap = c.snap ∧
    (c.setLog h l x).snapDelivery = c.snapDelivery ∧ (c.setLog h l x).answers = c.answers ∧ (c.setLog h l x).clk = c.clk ∧
    (c.setLog h l x).mail = c.mail ∧ (c.setLog h l x).tags = c.tags ∧ (c.setLog h l x).admitPtr = c.admitPtr ∧
    (c.setLog h l x).wmb = c.wmb ∧ (c.setLog h l x).wmbAge = c.wmbAge ∧ (c.setLog h l x).localStall = c.localStall ∧
    (c.setLog h l x).unmirrored = c.unmirrored ∧ (c.setLog h l x).charges = c.charges ∧ (c.setLog h l x).rings = c.rings ∧
    (c.setLog h l x).che = c.che ∧ (c.setLog h l x).trm = c.trm ∧ (c.setLog h l x).mdc = c.mdc ∧ (c.setLog h l x).rte = c.rte ∧
    (c.setLog h l x).mde = c.mde ∧ (c.setLog h l x).svc = c.svc ∧ (c.setLog h l x).chans = c.chans ∧ (c.setLog h l x).ras = c.ras ∧
    (c.setLog h l x).cbl = c.cbl ∧ (c.setLog h l x).cores = c.cores ∧ (c.setLog h l x).dram = c.dram ∧
    (c.setLog h l x).icu = c.icu ∧ (c.setLog h l x).efc = c.efc ∧ (c.setLog h l x).wdt = c.wdt ∧ (c.setLog h l x).psq = c.psq ∧
    (c.setLog h l x).thm = c.thm ∧ (c.setLog h l x).mti = c.mti ∧ (c.setLog h l x).rst = c.rst ∧ (c.setLog h l x).sec = c.sec ∧
    (c.setLog h l x).tap = c.tap :=
  Chip.of_rest (Chip.setLog_rest c h l x)

@[simp] theorem Chip.enterLog_parts (c : Chip) (h : Fin 24) (l : Nat) (r : EventRec) :
    (c.enterLog h l r).applied = c.applied ∧ (c.enterLog h l r).checks = c.checks ∧ (c.enterLog h l r).snap = c.snap ∧
    (c.enterLog h l r).snapDelivery = c.snapDelivery ∧ (c.enterLog h l r).answers = c.answers ∧ (c.enterLog h l r).clk = c.clk ∧
    (c.enterLog h l r).mail = c.mail ∧ (c.enterLog h l r).tags = c.tags ∧ (c.enterLog h l r).admitPtr = c.admitPtr ∧
    (c.enterLog h l r).wmb = c.wmb ∧ (c.enterLog h l r).wmbAge = c.wmbAge ∧ (c.enterLog h l r).localStall = c.localStall ∧
    (c.enterLog h l r).unmirrored = c.unmirrored ∧ (c.enterLog h l r).charges = c.charges ∧ (c.enterLog h l r).rings = c.rings ∧
    (c.enterLog h l r).che = c.che ∧ (c.enterLog h l r).trm = c.trm ∧ (c.enterLog h l r).mdc = c.mdc ∧
    (c.enterLog h l r).rte = c.rte ∧ (c.enterLog h l r).mde = c.mde ∧ (c.enterLog h l r).svc = c.svc ∧
    (c.enterLog h l r).chans = c.chans ∧ (c.enterLog h l r).ras = c.ras ∧ (c.enterLog h l r).cbl = c.cbl ∧
    (c.enterLog h l r).cores = c.cores ∧ (c.enterLog h l r).dram = c.dram ∧ (c.enterLog h l r).icu = c.icu ∧
    (c.enterLog h l r).efc = c.efc ∧ (c.enterLog h l r).wdt = c.wdt ∧ (c.enterLog h l r).psq = c.psq ∧
    (c.enterLog h l r).thm = c.thm ∧ (c.enterLog h l r).mti = c.mti ∧ (c.enterLog h l r).rst = c.rst ∧
    (c.enterLog h l r).sec = c.sec ∧ (c.enterLog h l r).tap = c.tap :=
  Chip.of_rest (Chip.enterLog_rest c h l r)

@[simp] theorem Chip.logRecord_parts (c : Chip) (h : Fin 24) (l : Nat) (r : EventRec) :
    (c.logRecord h l r).applied = c.applied ∧ (c.logRecord h l r).checks = c.checks ∧ (c.logRecord h l r).snap = c.snap ∧
    (c.logRecord h l r).snapDelivery = c.snapDelivery ∧ (c.logRecord h l r).answers = c.answers ∧ (c.logRecord h l r).clk = c.clk ∧
    (c.logRecord h l r).mail = c.mail ∧ (c.logRecord h l r).tags = c.tags ∧ (c.logRecord h l r).admitPtr = c.admitPtr ∧
    (c.logRecord h l r).wmb = c.wmb ∧ (c.logRecord h l r).wmbAge = c.wmbAge ∧ (c.logRecord h l r).localStall = c.localStall ∧
    (c.logRecord h l r).unmirrored = c.unmirrored ∧ (c.logRecord h l r).charges = c.charges ∧ (c.logRecord h l r).rings = c.rings ∧
    (c.logRecord h l r).che = c.che ∧ (c.logRecord h l r).trm = c.trm ∧ (c.logRecord h l r).mdc = c.mdc ∧
    (c.logRecord h l r).rte = c.rte ∧ (c.logRecord h l r).mde = c.mde ∧ (c.logRecord h l r).svc = c.svc ∧
    (c.logRecord h l r).chans = c.chans ∧ (c.logRecord h l r).ras = c.ras ∧ (c.logRecord h l r).cbl = c.cbl ∧
    (c.logRecord h l r).cores = c.cores ∧ (c.logRecord h l r).dram = c.dram ∧ (c.logRecord h l r).icu = c.icu ∧
    (c.logRecord h l r).efc = c.efc ∧ (c.logRecord h l r).wdt = c.wdt ∧ (c.logRecord h l r).psq = c.psq ∧
    (c.logRecord h l r).thm = c.thm ∧ (c.logRecord h l r).mti = c.mti ∧ (c.logRecord h l r).rst = c.rst ∧
    (c.logRecord h l r).sec = c.sec ∧ (c.logRecord h l r).tap = c.tap :=
  Chip.of_rest (Chip.logRecord_rest c h l r)

@[simp] theorem Chip.logHere_parts (c : Chip) (l : Nat) (r : EventRec) :
    (c.logHere l r).applied = c.applied ∧ (c.logHere l r).checks = c.checks ∧ (c.logHere l r).snap = c.snap ∧
    (c.logHere l r).snapDelivery = c.snapDelivery ∧ (c.logHere l r).answers = c.answers ∧ (c.logHere l r).clk = c.clk ∧
    (c.logHere l r).mail = c.mail ∧ (c.logHere l r).tags = c.tags ∧ (c.logHere l r).admitPtr = c.admitPtr ∧
    (c.logHere l r).wmb = c.wmb ∧ (c.logHere l r).wmbAge = c.wmbAge ∧ (c.logHere l r).localStall = c.localStall ∧
    (c.logHere l r).unmirrored = c.unmirrored ∧ (c.logHere l r).charges = c.charges ∧ (c.logHere l r).rings = c.rings ∧
    (c.logHere l r).che = c.che ∧ (c.logHere l r).trm = c.trm ∧ (c.logHere l r).mdc = c.mdc ∧ (c.logHere l r).rte = c.rte ∧
    (c.logHere l r).mde = c.mde ∧ (c.logHere l r).svc = c.svc ∧ (c.logHere l r).chans = c.chans ∧ (c.logHere l r).ras = c.ras ∧
    (c.logHere l r).cbl = c.cbl ∧ (c.logHere l r).cores = c.cores ∧ (c.logHere l r).dram = c.dram ∧ (c.logHere l r).icu = c.icu ∧
    (c.logHere l r).efc = c.efc ∧ (c.logHere l r).wdt = c.wdt ∧ (c.logHere l r).psq = c.psq ∧ (c.logHere l r).thm = c.thm ∧
    (c.logHere l r).mti = c.mti ∧ (c.logHere l r).rst = c.rst ∧ (c.logHere l r).sec = c.sec ∧ (c.logHere l r).tap = c.tap :=
  Chip.of_rest (Chip.logHere_rest c l r)

@[simp] theorem Chip.raiseBit_parts (c : Chip) (page b : Nat) :
    (c.raiseBit page b).applied = c.applied ∧ (c.raiseBit page b).checks = c.checks ∧ (c.raiseBit page b).snap = c.snap ∧
    (c.raiseBit page b).snapDelivery = c.snapDelivery ∧ (c.raiseBit page b).answers = c.answers ∧ (c.raiseBit page b).clk = c.clk ∧
    (c.raiseBit page b).mail = c.mail ∧ (c.raiseBit page b).tags = c.tags ∧ (c.raiseBit page b).admitPtr = c.admitPtr ∧
    (c.raiseBit page b).wmb = c.wmb ∧ (c.raiseBit page b).wmbAge = c.wmbAge ∧ (c.raiseBit page b).localStall = c.localStall ∧
    (c.raiseBit page b).unmirrored = c.unmirrored ∧ (c.raiseBit page b).charges = c.charges ∧ (c.raiseBit page b).rings = c.rings ∧
    (c.raiseBit page b).che = c.che ∧ (c.raiseBit page b).trm = c.trm ∧ (c.raiseBit page b).mdc = c.mdc ∧
    (c.raiseBit page b).rte = c.rte ∧ (c.raiseBit page b).mde = c.mde ∧ (c.raiseBit page b).svc = c.svc ∧
    (c.raiseBit page b).chans = c.chans ∧ (c.raiseBit page b).ras = c.ras ∧ (c.raiseBit page b).cbl = c.cbl ∧
    (c.raiseBit page b).cores = c.cores ∧ (c.raiseBit page b).dram = c.dram ∧ (c.raiseBit page b).icu = c.icu ∧
    (c.raiseBit page b).efc = c.efc ∧ (c.raiseBit page b).wdt = c.wdt ∧ (c.raiseBit page b).psq = c.psq ∧
    (c.raiseBit page b).thm = c.thm ∧ (c.raiseBit page b).mti = c.mti ∧ (c.raiseBit page b).rst = c.rst ∧
    (c.raiseBit page b).sec = c.sec ∧ (c.raiseBit page b).tap = c.tap :=
  Chip.of_rest (Chip.raiseBit_rest c page b)

@[simp] theorem Chip.raise_parts (c : Chip) (f : Fld) :
    (c.raise f).applied = c.applied ∧ (c.raise f).checks = c.checks ∧ (c.raise f).snap = c.snap ∧
    (c.raise f).snapDelivery = c.snapDelivery ∧ (c.raise f).answers = c.answers ∧ (c.raise f).clk = c.clk ∧
    (c.raise f).mail = c.mail ∧ (c.raise f).tags = c.tags ∧ (c.raise f).admitPtr = c.admitPtr ∧ (c.raise f).wmb = c.wmb ∧
    (c.raise f).wmbAge = c.wmbAge ∧ (c.raise f).localStall = c.localStall ∧ (c.raise f).unmirrored = c.unmirrored ∧
    (c.raise f).charges = c.charges ∧ (c.raise f).rings = c.rings ∧ (c.raise f).che = c.che ∧ (c.raise f).trm = c.trm ∧
    (c.raise f).mdc = c.mdc ∧ (c.raise f).rte = c.rte ∧ (c.raise f).mde = c.mde ∧ (c.raise f).svc = c.svc ∧
    (c.raise f).chans = c.chans ∧ (c.raise f).ras = c.ras ∧ (c.raise f).cbl = c.cbl ∧ (c.raise f).cores = c.cores ∧
    (c.raise f).dram = c.dram ∧ (c.raise f).icu = c.icu ∧ (c.raise f).efc = c.efc ∧ (c.raise f).wdt = c.wdt ∧
    (c.raise f).psq = c.psq ∧ (c.raise f).thm = c.thm ∧ (c.raise f).mti = c.mti ∧ (c.raise f).rst = c.rst ∧
    (c.raise f).sec = c.sec ∧ (c.raise f).tap = c.tap :=
  Chip.of_rest (Chip.raise_rest c f)

@[simp] theorem Chip.deliverEvent_parts (c : Chip) (page b : Nat) :
    (c.deliverEvent page b).applied = c.applied ∧ (c.deliverEvent page b).checks = c.checks ∧
    (c.deliverEvent page b).snap = c.snap ∧ (c.deliverEvent page b).snapDelivery = c.snapDelivery ∧
    (c.deliverEvent page b).answers = c.answers ∧ (c.deliverEvent page b).clk = c.clk ∧ (c.deliverEvent page b).mail = c.mail ∧
    (c.deliverEvent page b).tags = c.tags ∧ (c.deliverEvent page b).admitPtr = c.admitPtr ∧ (c.deliverEvent page b).wmb = c.wmb ∧
    (c.deliverEvent page b).wmbAge = c.wmbAge ∧ (c.deliverEvent page b).localStall = c.localStall ∧
    (c.deliverEvent page b).unmirrored = c.unmirrored ∧ (c.deliverEvent page b).charges = c.charges ∧
    (c.deliverEvent page b).rings = c.rings ∧ (c.deliverEvent page b).che = c.che ∧ (c.deliverEvent page b).trm = c.trm ∧
    (c.deliverEvent page b).mdc = c.mdc ∧ (c.deliverEvent page b).rte = c.rte ∧ (c.deliverEvent page b).mde = c.mde ∧
    (c.deliverEvent page b).svc = c.svc ∧ (c.deliverEvent page b).chans = c.chans ∧ (c.deliverEvent page b).ras = c.ras ∧
    (c.deliverEvent page b).cbl = c.cbl ∧ (c.deliverEvent page b).cores = c.cores ∧ (c.deliverEvent page b).dram = c.dram ∧
    (c.deliverEvent page b).icu = c.icu ∧ (c.deliverEvent page b).efc = c.efc ∧ (c.deliverEvent page b).wdt = c.wdt ∧
    (c.deliverEvent page b).psq = c.psq ∧ (c.deliverEvent page b).thm = c.thm ∧ (c.deliverEvent page b).mti = c.mti ∧
    (c.deliverEvent page b).rst = c.rst ∧ (c.deliverEvent page b).sec = c.sec ∧ (c.deliverEvent page b).tap = c.tap :=
  Chip.of_rest (Chip.deliverEvent_rest c page b)

@[simp] theorem Chip.headRecord_parts (c : Chip) (h : Fin 24) (l page sub addr : Nat) :
    (c.headRecord h l page sub addr).applied = c.applied ∧ (c.headRecord h l page sub addr).checks = c.checks ∧
    (c.headRecord h l page sub addr).snap = c.snap ∧ (c.headRecord h l page sub addr).snapDelivery = c.snapDelivery ∧
    (c.headRecord h l page sub addr).answers = c.answers ∧ (c.headRecord h l page sub addr).clk = c.clk ∧
    (c.headRecord h l page sub addr).mail = c.mail ∧ (c.headRecord h l page sub addr).tags = c.tags ∧
    (c.headRecord h l page sub addr).admitPtr = c.admitPtr ∧ (c.headRecord h l page sub addr).wmb = c.wmb ∧
    (c.headRecord h l page sub addr).wmbAge = c.wmbAge ∧ (c.headRecord h l page sub addr).localStall = c.localStall ∧
    (c.headRecord h l page sub addr).unmirrored = c.unmirrored ∧ (c.headRecord h l page sub addr).charges = c.charges ∧
    (c.headRecord h l page sub addr).rings = c.rings ∧ (c.headRecord h l page sub addr).che = c.che ∧
    (c.headRecord h l page sub addr).trm = c.trm ∧ (c.headRecord h l page sub addr).mdc = c.mdc ∧
    (c.headRecord h l page sub addr).rte = c.rte ∧ (c.headRecord h l page sub addr).mde = c.mde ∧
    (c.headRecord h l page sub addr).svc = c.svc ∧ (c.headRecord h l page sub addr).chans = c.chans ∧
    (c.headRecord h l page sub addr).ras = c.ras ∧ (c.headRecord h l page sub addr).cbl = c.cbl ∧
    (c.headRecord h l page sub addr).cores = c.cores ∧ (c.headRecord h l page sub addr).dram = c.dram ∧
    (c.headRecord h l page sub addr).icu = c.icu ∧ (c.headRecord h l page sub addr).efc = c.efc ∧
    (c.headRecord h l page sub addr).wdt = c.wdt ∧ (c.headRecord h l page sub addr).psq = c.psq ∧
    (c.headRecord h l page sub addr).thm = c.thm ∧ (c.headRecord h l page sub addr).mti = c.mti ∧
    (c.headRecord h l page sub addr).rst = c.rst ∧ (c.headRecord h l page sub addr).sec = c.sec ∧
    (c.headRecord h l page sub addr).tap = c.tap :=
  Chip.of_rest (Chip.headRecord_rest c h l page sub addr)

@[simp] theorem Chip.reject_parts (c : Chip) (page code off : Nat) :
    (c.reject page code off).applied = c.applied ∧ (c.reject page code off).checks = c.checks ∧
    (c.reject page code off).snap = c.snap ∧ (c.reject page code off).snapDelivery = c.snapDelivery ∧
    (c.reject page code off).answers = c.answers ∧ (c.reject page code off).clk = c.clk ∧ (c.reject page code off).mail = c.mail ∧
    (c.reject page code off).tags = c.tags ∧ (c.reject page code off).admitPtr = c.admitPtr ∧
    (c.reject page code off).wmb = c.wmb ∧ (c.reject page code off).wmbAge = c.wmbAge ∧
    (c.reject page code off).localStall = c.localStall ∧ (c.reject page code off).unmirrored = c.unmirrored ∧
    (c.reject page code off).charges = c.charges ∧ (c.reject page code off).rings = c.rings ∧
    (c.reject page code off).che = c.che ∧ (c.reject page code off).trm = c.trm ∧ (c.reject page code off).mdc = c.mdc ∧
    (c.reject page code off).rte = c.rte ∧ (c.reject page code off).mde = c.mde ∧ (c.reject page code off).svc = c.svc ∧
    (c.reject page code off).chans = c.chans ∧ (c.reject page code off).ras = c.ras ∧ (c.reject page code off).cbl = c.cbl ∧
    (c.reject page code off).cores = c.cores ∧ (c.reject page code off).dram = c.dram ∧ (c.reject page code off).icu = c.icu ∧
    (c.reject page code off).efc = c.efc ∧ (c.reject page code off).wdt = c.wdt ∧ (c.reject page code off).psq = c.psq ∧
    (c.reject page code off).thm = c.thm ∧ (c.reject page code off).mti = c.mti ∧ (c.reject page code off).rst = c.rst ∧
    (c.reject page code off).sec = c.sec ∧ (c.reject page code off).tap = c.tap :=
  Chip.of_rest (Chip.reject_rest c page code off)

@[simp] theorem Chip.deny_parts (c : Chip) :
    (c.deny).applied = c.applied ∧ (c.deny).checks = c.checks ∧ (c.deny).snap = c.snap ∧ (c.deny).snapDelivery = c.snapDelivery ∧
    (c.deny).answers = c.answers ∧ (c.deny).clk = c.clk ∧ (c.deny).mail = c.mail ∧ (c.deny).tags = c.tags ∧
    (c.deny).admitPtr = c.admitPtr ∧ (c.deny).wmb = c.wmb ∧ (c.deny).wmbAge = c.wmbAge ∧ (c.deny).localStall = c.localStall ∧
    (c.deny).unmirrored = c.unmirrored ∧ (c.deny).charges = c.charges ∧ (c.deny).rings = c.rings ∧ (c.deny).che = c.che ∧
    (c.deny).trm = c.trm ∧ (c.deny).mdc = c.mdc ∧ (c.deny).rte = c.rte ∧ (c.deny).mde = c.mde ∧ (c.deny).svc = c.svc ∧
    (c.deny).chans = c.chans ∧ (c.deny).ras = c.ras ∧ (c.deny).cbl = c.cbl ∧ (c.deny).cores = c.cores ∧ (c.deny).dram = c.dram ∧
    (c.deny).icu = c.icu ∧ (c.deny).efc = c.efc ∧ (c.deny).wdt = c.wdt ∧ (c.deny).psq = c.psq ∧ (c.deny).thm = c.thm ∧
    (c.deny).mti = c.mti ∧ (c.deny).rst = c.rst ∧ (c.deny).sec = c.sec ∧ (c.deny).tap = c.tap :=
  Chip.of_rest (Chip.deny_rest c)

end Sys2Proof.Machine
end

