-- ==== Sys2Proof/Laws/Table.lean ====
section
/-! SUPPORT. What the operations on canonical tables do: a write is read back, leaves every other key as it was, and keeps the
canonical form. -/
namespace Sys2Proof.Table

variable {V : Type}

/-- An erased key reads as unlisted. -/
theorem get_erase_same (d : Nat → V) (t : Table V) (k : Nat) : get d (erase t k) k = d k := by
  induction t with
  | nil => rfl
  | cons e r ih =>
    obtain ⟨k', v'⟩ := e
    unfold erase at *
    by_cases hk : k' = k
    · rw [List.filter_cons_of_neg (by simp [hk])]
      exact ih
    · rw [List.filter_cons_of_pos (by simp [hk])]
      simp only [get, if_neg (Ne.symm hk)]
      exact ih

theorem get_erase_ne (d : Nat → V) (t : Table V) (k j : Nat) (h : j ≠ k) : get d (erase t k) j = get d t j := by
  induction t with
  | nil => rfl
  | cons e r ih =>
    obtain ⟨k', v⟩ := e
    unfold erase at *
    by_cases hk : k' = k
    · rw [List.filter_cons_of_neg (by simp [hk]), ih]
      simp only [get, hk, if_neg h]
    · rw [List.filter_cons_of_pos (by simp [hk])]
      simp only [get]
      split
      · rfl
      · exact ih

theorem get_insert_same (d : Nat → V) (t : Table V) (k : Nat) (v : V) : get d (insert t k v) k = v := by
  induction t with
  | nil => simp [insert, get]
  | cons e r ih =>
    obtain ⟨k', v'⟩ := e
    by_cases h1 : k < k'
    · simp [insert, get, h1]
    · by_cases h2 : k = k'
      · simp [insert, get, h2]
      · simp [insert, get, h1, h2, ih]

theorem get_insert_ne (d : Nat → V) (t : Table V) (k j : Nat) (v : V) (h : j ≠ k) : get d (insert t k v) j = get d t j := by
  induction t with
  | nil => simp [insert, get, h]
  | cons e r ih =>
    obtain ⟨k', v'⟩ := e
    by_cases h1 : k < k'
    · simp [insert, get, h1, h]
    · by_cases h2 : k = k'
      · subst h2
        simp [insert, get, h]
      · simp [insert, get, h1, h2, ih]

/-- A key below every listed key reads as unlisted. -/
theorem get_of_above (d : Nat → V) (t : Table V) (k : Nat) (h : above k t = true) : get d t k = d k := by
  induction t with
  | nil => rfl
  | cons e r ih =>
    obtain ⟨k', v'⟩ := e
    simp only [above, List.all_cons, Bool.and_eq_true, decide_eq_true_eq] at h
    have hk : k ≠ k' := Nat.ne_of_lt h.1
    simp only [get, if_neg hk]
    exact ih h.2

theorem above_mono {j k : Nat} (t : Table V) (h : j ≤ k) (ha : above k t = true) : above j t = true := by
  simp only [above, List.all_eq_true, decide_eq_true_eq] at *
  exact fun x hx => Nat.lt_of_le_of_lt h (ha x hx)

theorem above_insert (j k : Nat) (v : V) (t : Table V) (hj : j < k) (h : above j t = true) : above j (insert t k v) = true := by
  induction t with
  | nil => simp [insert, above, hj]
  | cons e r ih =>
    obtain ⟨k', v'⟩ := e
    simp only [above, List.all_cons, Bool.and_eq_true, decide_eq_true_eq] at h
    simp only [insert]
    split
    · simp only [above, List.all_cons, Bool.and_eq_true, decide_eq_true_eq]
      exact ⟨hj, h⟩
    · split
      · simp only [above, List.all_cons, Bool.and_eq_true, decide_eq_true_eq]
        exact ⟨hj, h.2⟩
      · simp only [above, List.all_cons, Bool.and_eq_true, decide_eq_true_eq]
        exact ⟨h.1, ih h.2⟩

theorem above_filter (j : Nat) (p : Nat × V → Bool) (t : Table V) (h : above j t = true) : above j (t.filter p) = true := by
  simp only [above, List.all_eq_true, decide_eq_true_eq] at *
  exact fun x hx => h x (List.mem_filter.mp hx).1

variable [DecidableEq V]

@[simp] theorem wf_nil (d : Nat → V) : wf d [] = true := rfl

theorem wf_cons (d : Nat → V) (k : Nat) (v : V) (r : Table V) :
    wf d ((k, v) :: r) = true ↔ v ≠ d k ∧ above k r = true ∧ wf d r = true := by
  simp [wf, and_assoc]

theorem wf_filter (d : Nat → V) (p : Nat × V → Bool) (t : Table V) (hw : wf d t = true) : wf d (t.filter p) = true := by
  induction t with
  | nil => rfl
  | cons e r ih =>
    obtain ⟨k, v⟩ := e
    obtain ⟨h1, ha, hr⟩ := (wf_cons d k v r).mp hw
    by_cases hp : p (k, v) = true
    · rw [List.filter_cons_of_pos hp]
      exact (wf_cons d k v _).mpr ⟨h1, above_filter k p r ha, ih hr⟩
    · rw [List.filter_cons_of_neg hp]
      exact ih hr

theorem wf_erase (d : Nat → V) (t : Table V) (k : Nat) (hw : wf d t = true) : wf d (erase t k) = true :=
  wf_filter d _ t hw

theorem wf_insert (d : Nat → V) (t : Table V) (k : Nat) (v : V) (hv : v ≠ d k) (hw : wf d t = true) : wf d (insert t k v) = true := by
  induction t with
  | nil => exact (wf_cons d k v []).mpr ⟨hv, rfl, rfl⟩
  | cons e r ih =>
    obtain ⟨k', v'⟩ := e
    obtain ⟨h1, ha, hr⟩ := (wf_cons d k' v' r).mp hw
    simp only [insert]
    split
    · rename_i hlt
      refine (wf_cons d k v _).mpr ⟨hv, ?_, hw⟩
      simp only [above, List.all_cons, Bool.and_eq_true, decide_eq_true_eq]
      exact ⟨hlt, above_mono r (Nat.le_of_lt hlt) ha⟩
    · split
      · rename_i heq
        subst heq
        exact (wf_cons d k v r).mpr ⟨hv, ha, hr⟩
      · rename_i h2 h3
        exact (wf_cons d k' v' _).mpr ⟨h1, above_insert k' k v r (by omega) ha, ih hr⟩

/-- A write keeps the canonical form. -/
theorem wf_set (d : Nat → V) (t : Table V) (k : Nat) (v : V) (hw : wf d t = true) : wf d (set d t k v) = true := by
  unfold set
  split
  · exact wf_erase d t k hw
  · rename_i h
    exact wf_insert d t k v h hw

/-- A write is read back. -/
@[simp] theorem get_set_same (d : Nat → V) (t : Table V) (k : Nat) (v : V) : get d (set d t k v) k = v := by
  unfold set
  split
  · rename_i h
    rw [get_erase_same d t k, h]
  · exact get_insert_same d t k v

/-- A write leaves every other key as it was. -/
theorem get_set_ne (d : Nat → V) (t : Table V) (k j : Nat) (v : V) (h : j ≠ k) : get d (set d t k v) j = get d t j := by
  unfold set
  split
  · exact get_erase_ne d t k j h
  · exact get_insert_ne d t k j v h

/-- A read after a write. -/
theorem get_set (d : Nat → V) (t : Table V) (k j : Nat) (v : V) :
    get d (set d t k v) j = if j = k then v else get d t j := by
  split
  · rename_i h
    rw [h, get_set_same d t k v]
  · rename_i h
    exact get_set_ne d t k j v h

theorem wf_setAll (d : Nat → V) (xs : List (Nat × V)) : ∀ t : Table V, wf d t = true → wf d (setAll d t xs) = true := by
  induction xs with
  | nil => exact fun t h => h
  | cons e r ih => exact fun t h => ih (set d t e.1 e.2) (wf_set d t e.1 e.2 h)

/-- A sequence of writes leaves every key that none of them names as it was. -/
theorem get_setAll_ne (d : Nat → V) (xs : List (Nat × V)) (j : Nat) :
    ∀ t : Table V, (∀ e ∈ xs, e.1 ≠ j) → get d (setAll d t xs) j = get d t j := by
  induction xs with
  | nil => exact fun t _ => rfl
  | cons e r ih =>
    intro t h
    obtain ⟨k, v⟩ := e
    have hk : j ≠ k := fun hh => h (k, v) (List.mem_cons_self ..) hh.symm
    rw [setAll, ih _ (fun x hx => h x (List.mem_cons_of_mem _ hx)), get_set_ne d t k j v hk]

theorem wf_clear (d : Nat → V) (p : Nat → Bool) (t : Table V) (hw : wf d t = true) : wf d (clear p t) = true :=
  wf_filter d _ t hw

theorem wf_entries (d : Nat → V) (p : Nat → Bool) (t : Table V) (hw : wf d t = true) : wf d (entries p t) = true :=
  wf_filter d _ t hw

/-- A cleared key reads as unlisted. -/
theorem get_clear_of_true (d : Nat → V) (p : Nat → Bool) (t : Table V) (j : Nat) (h : p j = true) :
    get d (clear p t) j = d j := by
  induction t with
  | nil => rfl
  | cons e r ih =>
    obtain ⟨k, v⟩ := e
    unfold clear at *
    by_cases hk : p k = true
    · rw [List.filter_cons_of_neg (by simp [hk])]
      exact ih
    · rw [List.filter_cons_of_pos (by simpa using hk)]
      have hj : j ≠ k := fun hh => hk (hh ▸ h)
      simp only [get, if_neg hj]
      exact ih

/-- A key that is not cleared reads as before. -/
theorem get_clear_of_false (d : Nat → V) (p : Nat → Bool) (t : Table V) (j : Nat) (h : p j = false) :
    get d (clear p t) j = get d t j := by
  induction t with
  | nil => rfl
  | cons e r ih =>
    obtain ⟨k, v⟩ := e
    unfold clear at *
    by_cases hk : p k = true
    · rw [List.filter_cons_of_neg (by simp [hk])]
      have hj : j ≠ k := fun hh => by rw [hh, hk] at h; exact absurd h (by decide)
      simp only [get, if_neg hj]
      exact ih
    · rw [List.filter_cons_of_pos (by simpa using hk)]
      simp only [get]
      split
      · rfl
      · exact ih

end Sys2Proof.Table
end

