-- ==== Sys2Proof/Laws/Regs.lean ====
section
/-! SUPPORT. Reading registers back: a word, a field of the same word or of another, counters, heads. -/
namespace Sys2Proof

/-- A word's number in three parts: below a field, the field, above it. -/
theorem toNat_parts (n lo width : Nat) :
    n = 2 ^ lo * (2 ^ width * (n / 2 ^ (lo + width)) + n / 2 ^ lo % 2 ^ width) + n % 2 ^ lo := by
  have h1 := Nat.div_add_mod n (2 ^ lo)
  have h2 := Nat.div_add_mod (n / 2 ^ lo) (2 ^ width)
  rw [Nat.div_div_eq_div_mul, ← Nat.pow_add] at h2
  rw [h2, h1]

/-- The number of a word with a field replaced. -/
theorem withBits_toNat (w : Word) (lo width v : Nat) (h : lo + width ≤ 32) :
    (withBits w lo width v).toNat =
      2 ^ lo * (2 ^ width * (w.toNat / 2 ^ (lo + width)) + v % 2 ^ width) + w.toNat % 2 ^ lo := by
  have hp := toNat_parts w.toNat lo width
  have hw : w.toNat < 2 ^ 32 := w.isLt
  have hv : v % 2 ^ width < 2 ^ width := Nat.mod_lt _ (Nat.two_pow_pos width)
  have ha : w.toNat / 2 ^ (lo + width) < 2 ^ (32 - (lo + width)) := by
    rw [Nat.div_lt_iff_lt_mul (Nat.two_pow_pos _), ← Nat.pow_add, Nat.sub_add_cancel h]
    exact hw
  have hb : w.toNat % 2 ^ lo < 2 ^ lo := Nat.mod_lt _ (Nat.two_pow_pos lo)
  have hlt : 2 ^ lo * (2 ^ width * (w.toNat / 2 ^ (lo + width)) + v % 2 ^ width) + w.toNat % 2 ^ lo < 2 ^ 32 := by
    have e : 2 ^ lo * (2 ^ width * 2 ^ (32 - (lo + width))) = 2 ^ 32 := by
      rw [← Nat.pow_add, ← Nat.pow_add]
      congr 1
      omega
    have h1 : 2 ^ width * (w.toNat / 2 ^ (lo + width)) + v % 2 ^ width + 1 ≤ 2 ^ width * 2 ^ (32 - (lo + width)) := by
      have := Nat.mul_le_mul_left (2 ^ width) (Nat.succ_le_of_lt ha)
      rw [Nat.mul_succ] at this
      omega
    have h2 := Nat.mul_le_mul_left (2 ^ lo) h1
    rw [Nat.mul_add, Nat.mul_one] at h2
    omega
  unfold withBits bitsOf
  rw [BitVec.toNat_ofNat, Nat.shiftRight_eq_div_pow]
  have e : w.toNat - w.toNat / 2 ^ lo % 2 ^ width * 2 ^ lo + v % 2 ^ width * 2 ^ lo =
      2 ^ lo * (2 ^ width * (w.toNat / 2 ^ (lo + width)) + v % 2 ^ width) + w.toNat % 2 ^ lo := by
    rw [Nat.mul_add] at hp ⊢
    rw [Nat.mul_comm (w.toNat / 2 ^ lo % 2 ^ width), Nat.mul_comm (v % 2 ^ width)]
    omega
  rw [e]
  exact Nat.mod_eq_of_lt hlt

/-- The field written is read back. -/
theorem bitsOf_withBits_same (w : Word) (lo width v : Nat) (h : lo + width ≤ 32) : bitsOf (withBits w lo width v) lo width = v % 2 ^ width := by
  unfold bitsOf
  rw [withBits_toNat w lo width v h, Nat.shiftRight_eq_div_pow, Nat.mul_add_div (Nat.two_pow_pos lo),
    Nat.div_eq_of_lt (Nat.mod_lt _ (Nat.two_pow_pos lo)), Nat.add_zero, Nat.mul_add_mod, Nat.mod_mod]

/-- A field that lies apart from the one written is as it was. -/
theorem bitsOf_withBits_apart (w : Word) (lo width v lo' width' : Nat) (h : lo + width ≤ 32)
    (ha : lo' + width' ≤ lo ∨ lo + width ≤ lo') : bitsOf (withBits w lo width v) lo' width' = bitsOf w lo' width' := by
  have hb : w.toNat % 2 ^ lo < 2 ^ lo := Nat.mod_lt _ (Nat.two_pow_pos lo)
  have hv : ∀ x, x % 2 ^ width < 2 ^ width := fun x => Nat.mod_lt x (Nat.two_pow_pos width)
  apply Nat.eq_of_testBit_eq
  intro j
  unfold bitsOf
  rw [Nat.testBit_mod_two_pow, Nat.testBit_mod_two_pow, Nat.testBit_shiftRight, Nat.testBit_shiftRight, withBits_toNat w lo width v h]
  conv => rhs; rw [toNat_parts w.toNat lo width]
  by_cases hj : j < width'
  · congr 1
    rw [Nat.testBit_two_pow_mul_add _ hb, Nat.testBit_two_pow_mul_add _ hb]
    split
    · rfl
    · rw [Nat.testBit_two_pow_mul_add _ (hv _), Nat.testBit_two_pow_mul_add _ (hv _)]
      split
      · omega
      · rfl
  · rw [decide_eq_false hj, Bool.false_and, Bool.false_and]

/-- A write of what a field holds changes nothing. -/
theorem bitsOf_lt (w : Word) (lo width : Nat) : bitsOf w lo width < 2 ^ width := Nat.mod_lt _ (Nat.two_pow_pos width)

namespace Machine

namespace Chip

/-- A register word that is written reads back. -/
@[simp] theorem rd_wr_same (c : Chip) (p o : Nat) (v : Word) : (c.wr p o v).rd p o = v := Table.get_set_same _ _ _ _

/-- Every other word is as it was. -/
theorem rd_wr_ne (c : Chip) (p o q r : Nat) (v : Word) (h : regKey q r ≠ regKey p o) : (c.wr p o v).rd q r = c.rd q r :=
  Table.get_set_ne _ _ _ _ _ h

/-- A field that is written reads back, as far as it is wide. -/
theorem get_put_same (c : Chip) (f : Fld) (v : Nat) (h : f.lo + f.width ≤ 32) : (c.put f v).get f = v % 2 ^ f.width := by
  unfold get put
  rw [rd_wr_same]
  exact bitsOf_withBits_same _ _ _ _ h

/-- A field of another word is as it was. -/
theorem get_put_ne (c : Chip) (f g : Fld) (v : Nat) (h : regKey g.page g.off ≠ regKey f.page f.off) : (c.put f v).get g = c.get g := by
  unfold get put
  rw [rd_wr_ne _ _ _ _ _ _ h]

/-- A field of the same word that lies apart from the one written is as it was. -/
theorem get_put_apart (c : Chip) (f g : Fld) (v : Nat) (h : f.lo + f.width ≤ 32) (hp : g.page = f.page) (ho : g.off = f.off)
    (ha : g.lo + g.width ≤ f.lo ∨ f.lo + f.width ≤ g.lo) : (c.put f v).get g = c.get g := by
  unfold get put
  rw [hp, ho, rd_wr_same]
  exact bitsOf_withBits_apart _ _ _ _ _ _ h ha

/-- A counter that counts has its old value and what was counted, as far as 48 bits go. -/
theorem count_cnt_same (c : Chip) (k : Ctr) (n : Nat) : (c.cnt k n).count k = (c.count k + n) % 2 ^ 48 := Table.get_set_same _ _ _ _

/-- Every other counter is as it was. -/
theorem count_cnt_ne (c : Chip) (k j : Ctr) (n : Nat) (h : j.page * 128 + j.slot ≠ k.page * 128 + k.slot) : (c.cnt k n).count j = c.count j :=
  Table.get_set_ne _ _ _ _ _ h

/-- A head that is changed reads as changed. -/
@[simp] theorem head_mapHead_same (c : Chip) (h : Fin 24) (f : Head → Head) : (c.mapHead h f).head h = f (c.head h) := Table.get_set_same _ _ _ _

/-- Every other head is as it was. -/
theorem head_mapHead_ne (c : Chip) (h i : Fin 24) (f : Head → Head) (hi : i ≠ h) : (c.mapHead h f).head i = c.head i :=
  Table.get_set_ne _ _ _ _ _ (fun e => hi (Fin.ext e))

end Chip

end Machine

end Sys2Proof
end

