-- ==== Sys2Proof/Laws/Quiet.lean ====
section
/-! SUPPORT. What the shared operations leave of the register words, the counters, the heads, the Coxia Link and the twin engine: an event,
an envelope, a postmark record or a message to a host leaves every word but EVT_STATUS, LOG_FILL, PM_SEQ and REPLAY_USE as it was. -/
namespace Sys2Proof.Machine

/-- Whether a register word is none of those that an event, an envelope or a postmark record may change. -/
def quietReg (page off : Nat) : Bool :=
  decide (off < 4096) && off != 0x010 && !(page == 0x071 && off == 0x800) && !(page == 0x080 && off == 0x814) &&
    !(decide (0x240 ≤ page) && decide (page < 0x270) && off == 0x808)

/-- Whether a counter is none of the link's, the postmarks' and the host ports'. -/
def quietCtr (k : Ctr) : Bool :=
  decide (k.slot < 128) && k.page != 0x080 && k.page != 0x071 && !(decide (0x200 ≤ k.page) && decide (k.page < 0x300))

/-- A head without what messages to its host and event records change. -/
def Head.quiet (x : Head) : Head :=
  { x with vecs := [], logs := [], txHist := [], txCount := 0, reqUsed := 0, rwdUsed := 0, reqOwed := 0, rwdOwed := 0, histLost := false,
           pmeStatus := false }

/-- A chip's words, counters, heads, twin engine and link, without what the shared operations change. -/
structure Quiet where
  regs : Nat → Nat → Option Word
  ctrs : Ctr → Option Nat
  heads : Fin 24 → Head
  twe : Twe
  link : Link

/-- What the shared operations leave of a chip's words, counters, heads, twin engine and link. -/
def Chip.quiet (c : Chip) : Quiet where
  regs p o := if quietReg p o then some (c.rd p o) else none
  ctrs k := if quietCtr k then some (c.count k) else none
  heads h := (c.head h).quiet
  twe := { c.twe with pmSeq := 0, gated := [] }
  link := { c.link with tx := [], waiting := [], replay := [], seq := 0, count := 0, nakNext := false }

/-- Keys of words with offsets below 4,096 tell the words apart. -/
theorem regKey_inj {p o q r : Nat} (ho : o < 4096) (hr : r < 4096) (h : regKey p o = regKey q r) : p = q ∧ o = r := by
  unfold regKey at h
  omega

theorem ctrKey_inj {j k : Ctr} (hj : j.slot < 128) (hk : k.slot < 128) (h : j.page * 128 + j.slot = k.page * 128 + k.slot) : j = k := by
  cases j
  cases k
  simp only at h hj hk
  rw [Ctr.mk.injEq]
  omega

namespace Chip

/-- A write to a word that is not quiet changes nothing quiet. -/
theorem wr_quiet (c : Chip) (p o : Nat) (v : Word) (hq : quietReg p o = false) (ho : o < 4096) : (c.wr p o v).quiet = c.quiet := by
  have h : ∀ q r, (if quietReg q r then some ((c.wr p o v).rd q r) else none) = (if quietReg q r then some (c.rd q r) else none) := by
    intro q r
    split
    · rename_i h
      rw [rd_wr_ne]
      intro e
      have hr : r < 4096 := by
        simp only [quietReg, Bool.and_eq_true, decide_eq_true_eq] at h
        exact h.1.1.1.1
      obtain ⟨rfl, rfl⟩ := regKey_inj hr ho e
      rw [hq] at h
      exact absurd h Bool.false_ne_true
    · rfl
  unfold quiet
  rw [show (fun q r => if quietReg q r then some ((c.wr p o v).rd q r) else none) = fun q r => if quietReg q r then some (c.rd q r) else none
    from funext fun q => funext fun r => h q r]
  rfl

theorem put_quiet (c : Chip) (f : Fld) (v : Nat) (hq : quietReg f.page f.off = false) (ho : f.off < 4096) : (c.put f v).quiet = c.quiet :=
  wr_quiet c _ _ _ hq ho

/-- A counter that is not quiet changes nothing quiet. -/
theorem cnt_quiet (c : Chip) (k : Ctr) (n : Nat) (hq : quietCtr k = false) (hk : k.slot < 128) : (c.cnt k n).quiet = c.quiet := by
  have h : ∀ j, (if quietCtr j then some ((c.cnt k n).count j) else none) = (if quietCtr j then some (c.count j) else none) := by
    intro j
    split
    · rename_i h
      rw [count_cnt_ne]
      intro e
      have hj : j.slot < 128 := by
        simp only [quietCtr, Bool.and_eq_true, decide_eq_true_eq] at h
        exact h.1.1.1
      have := ctrKey_inj hj hk e
      rw [this, hq] at h
      exact absurd h Bool.false_ne_true
    · rfl
  unfold quiet
  rw [show (fun j => if quietCtr j then some ((c.cnt k n).count j) else none) = fun j => if quietCtr j then some (c.count j) else none
    from funext h]
  rfl

/-- A change of a head that keeps its quiet part changes nothing quiet. -/
theorem mapHead_quiet (c : Chip) (h : Fin 24) (f : Head → Head) (hf : ∀ x, (f x).quiet = x.quiet) : (c.mapHead h f).quiet = c.quiet := by
  have e : ∀ i, ((c.mapHead h f).head i).quiet = (c.head i).quiet := by
    intro i
    by_cases hi : i = h
    · subst hi
      rw [head_mapHead_same, hf]
    · rw [head_mapHead_ne _ _ _ _ hi]
  unfold quiet
  rw [show (fun i => ((c.mapHead h f).head i).quiet) = fun i => (c.head i).quiet from funext e]
  rfl

/-- The parts of a chip that `quiet` looks at. -/
theorem quiet_congr (c d : Chip) (hr : d.regs = c.regs) (hl : d.live = c.live) (hh : d.heads = c.heads)
    (ht : { d.twe with pmSeq := 0, gated := [] } = { c.twe with pmSeq := 0, gated := [] })
    (hk : ({ d.link with tx := [], waiting := [], replay := [], seq := 0, count := 0, nakNext := false } : Link) =
      { c.link with tx := [], waiting := [], replay := [], seq := 0, count := 0, nakNext := false }) : d.quiet = c.quiet := by
  unfold quiet rd count head
  rw [hr, hl, hh, ht, hk]

theorem foldl_quiet {α : Type} (g : Chip → α → Chip) (h : ∀ c x, (g c x).quiet = c.quiet) (l : List α) :
    ∀ c : Chip, (l.foldl g c).quiet = c.quiet := by
  induction l with
  | nil => exact fun c => rfl
  | cons x r ih => exact fun c => (ih (g c x)).trans (h c x)

theorem putOnWire_quiet (c : Chip) (es : List Envelope) : (c.putOnWire es).quiet = c.quiet := by
  unfold putOnWire
  refine (foldl_quiet _ (fun c e => ?_) _ _).trans ((cnt_quiet _ _ _ rfl (by decide)).trans (quiet_congr c _ rfl rfl rfl rfl rfl))
  have h : ∀ n : Fin 10, quietCtr (K.CXK_BYTES_CLASS n.val) = false ∧ (K.CXK_BYTES_CLASS n.val).slot < 128 := by decide
  have hb : e.body.cls < 10 := by
    generalize e.body = b
    cases b <;> simp [EnvBody.cls]
  exact cnt_quiet _ _ _ (h ⟨_, hb⟩).1 (h ⟨_, hb⟩).2

theorem transmit_quiet (c : Chip) (b : EnvBody) : (c.transmit b).quiet = c.quiet := by
  unfold transmit
  exact (put_quiet _ _ _ rfl (by decide)).trans ((putOnWire_quiet _ _).trans (quiet_congr c _ rfl rfl rfl rfl rfl))

theorem send_quiet (c : Chip) (b : EnvBody) : (c.send b).quiet = c.quiet := by
  unfold send
  split
  · rfl
  · split
    · exact quiet_congr c _ rfl rfl rfl rfl rfl
    · exact transmit_quiet c b

theorem sendWaiting_quiet (n : Nat) : ∀ c : Chip, (c.sendWaiting n).quiet = c.quiet := by
  induction n with
  | zero => exact fun c => rfl
  | succ n ih =>
    intro c
    unfold sendWaiting
    split
    · rfl
    · split
      · rfl
      · exact (ih _).trans ((transmit_quiet _ _).trans (quiet_congr c _ rfl rfl rfl rfl rfl))

theorem post_quiet (c : Chip) (r : PmRecord) : (c.post r).quiet = c.quiet := by
  unfold post
  split
  · rfl
  · exact (send_quiet _ _).trans ((cnt_quiet _ _ _ rfl (by decide)).trans ((put_quiet _ _ _ rfl (by decide)).trans
      (quiet_congr c _ rfl rfl rfl rfl rfl)))

theorem postEffect_quiet (c : Chip) (e : Effect) (gated : Bool) (ends : Option Ends) : (c.postEffect e gated ends).quiet = c.quiet := by
  have h := post_quiet c (.effect e gated ends)
  unfold postEffect
  dsimp only
  split
  · exact Eq.trans (quiet_congr (c.post (.effect e gated ends)) _ rfl rfl rfl rfl rfl) h
  · exact h

theorem hlnkCtr_quiet (h : Fin 24) : quietCtr (K.HLNK_FLITS_TX h.val) = false ∧ (K.HLNK_FLITS_TX h.val).slot < 128 ∧
    quietCtr (K.HCFG_MSIX_HELD h.val) = false ∧ (K.HCFG_MSIX_HELD h.val).slot < 128 ∧
    quietCtr (K.HCFG_MSIX_SENT h.val) = false ∧ (K.HCFG_MSIX_SENT h.val).slot < 128 ∧
    quietCtr (K.HCFG_EVENTS_DROPPED h.val) = false ∧ (K.HCFG_EVENTS_DROPPED h.val).slot < 128 := by
  revert h
  decide

theorem histFull_quiet (c : Chip) (h : Fin 24) (full : Bool) : (c.histFull h full).quiet = c.quiet := by
  have hk : ∀ h : Fin 24, quietCtr (K.HIST_HIST_FULL (portOf h).val (linkPos h)) = false ∧
      (K.HIST_HIST_FULL (portOf h).val (linkPos h)).slot < 128 := by decide
  unfold histFull
  split
  · refine (cnt_quiet _ _ _ (hk h).1 (hk h).2).trans (mapHead_quiet _ _ _ fun x => ?_)
    cases x
    rfl
  · rfl

theorem pushFlit_quiet (c : Chip) (h : Fin 24) (m : HostMsg) : (c.pushFlit h m).quiet = c.quiet := by
  unfold pushFlit
  extract_lets x all lost d
  have hd : d.quiet = c.quiet := by
    refine (cnt_quiet _ _ _ (hlnkCtr_quiet h).1 (hlnkCtr_quiet h).2.1).trans (mapHead_quiet _ _ _ fun x => ?_)
    cases x
    rfl
  exact (histFull_quiet d h _).trans hd

theorem mapVec_quiet (c : Chip) (h : Fin 24) (v : Nat) (f : Vec → Vec) : (c.mapVec h v f).quiet = c.quiet := by
  unfold mapVec
  refine mapHead_quiet _ _ _ fun x => ?_
  cases x
  rfl

theorem holdMsix_quiet (c : Chip) (h : Fin 24) (v : Nat) : (c.holdMsix h v).quiet = c.quiet := by
  unfold holdMsix
  split
  · rfl
  · exact (cnt_quiet _ _ _ (hlnkCtr_quiet h).2.2.1 (hlnkCtr_quiet h).2.2.2.1).trans (mapVec_quiet _ _ _ _)

theorem sendMsix_quiet (c : Chip) (h : Fin 24) (v : Nat) : (c.sendMsix h v).quiet = c.quiet := by
  have hk := hlnkCtr_quiet h
  unfold sendMsix
  extract_lets x d first e
  have hd : d.quiet = c.quiet := mapVec_quiet _ _ _ _
  have he : e.quiet = d.quiet := by
    refine (mapHead_quiet _ _ _ fun x => ?_).trans (holdMsix_quiet d h v)
    cases x
    rfl
  clear_value e first
  split
  · split
    · exact (pushFlit_quiet _ _ _).trans (he.trans hd)
    · exact he.trans hd
  · split
    · exact (mapVec_quiet _ _ _ _).trans hd
    · split
      · exact (holdMsix_quiet _ _ _).trans hd
      · exact (cnt_quiet _ _ _ hk.2.2.2.2.1 hk.2.2.2.2.2.1).trans ((pushFlit_quiet _ _ _).trans hd)

theorem cause_quiet (c : Chip) (h : Fin 24) (v : Nat) : (c.cause h v).quiet = c.quiet := by
  unfold cause
  dsimp only
  split
  · exact (sendMsix_quiet _ _ _).trans (mapVec_quiet _ _ _ _)
  · exact mapVec_quiet _ _ _ _

theorem logFill_quiet (h : Fin 24) (l : Nat) : quietReg (logFill h l).page (logFill h l).off = false ∧ (logFill h l).off < 4096 := by
  have e : ∀ h : Fin 24, quietReg (0x240 + 2 * h.val) 0x808 = false := by decide
  unfold logFill
  split <;> exact ⟨e h, (by decide : (0x808 : Nat) < 4096)⟩

theorem setLog_quiet (c : Chip) (h : Fin 24) (l : Nat) (x : EventLog) : (c.setLog h l x).quiet = c.quiet := by
  unfold setLog
  refine (put_quiet _ _ _ (logFill_quiet h l).1 (logFill_quiet h l).2).trans (mapHead_quiet _ _ _ fun x => ?_)
  cases x
  rfl

theorem enterLogWith_quiet (ev : Chip → Nat → Nat → Chip) (hev : ∀ c p b, (ev c p b).quiet = c.quiet) (c : Chip) (h : Fin 24) (l : Nat)
    (r : EventRec) : (Chip.enterLogWith ev c h l r).quiet = c.quiet := by
  have hk := hlnkCtr_quiet h
  unfold enterLogWith
  dsimp only
  split
  · exact (hev _ _ _).trans ((cnt_quiet _ _ _ hk.2.2.2.2.2.2.1 hk.2.2.2.2.2.2.2).trans (setLog_quiet _ _ _ _))
  · split
    · exact (cause_quiet _ _ _).trans (setLog_quiet _ _ _ _)
    · exact setLog_quiet _ _ _ _

theorem logRecordWith_quiet (ev : Chip → Nat → Nat → Chip) (hev : ∀ c p b, (ev c p b).quiet = c.quiet) (c : Chip) (h : Fin 24) (l : Nat)
    (r : EventRec) : (Chip.logRecordWith ev c h l r).quiet = c.quiet :=
  (post_quiet _ _).trans (enterLogWith_quiet ev hev c h l r)

theorem logHereWith_quiet (ev : Chip → Nat → Nat → Chip) (hev : ∀ c p b, (ev c p b).quiet = c.quiet) (c : Chip) (l : Nat) (r : EventRec) :
    (Chip.logHereWith ev c l r).quiet = c.quiet := by
  unfold logHereWith
  refine foldl_quiet _ (fun c h => ?_) _ c
  split
  · exact logRecordWith_quiet ev hev c h l r
  · rfl

theorem deliverWith_quiet (ev : Chip → Nat → Nat → Chip) (hev : ∀ c p b, (ev c p b).quiet = c.quiet) (c : Chip) (page b : Nat) :
    (Chip.deliverWith ev c page b).quiet = c.quiet := by
  have h1 : (if bitsOf (c.rd page 0x01C) 20 1 = 1 then ({ c with mctpOut := c.mctpOut ++ [c.eventRec page b 0 0] } : Chip) else c).quiet = c.quiet := by
    split
    · exact quiet_congr c _ rfl rfl rfl rfl rfl
    · rfl
  unfold deliverWith
  dsimp only
  generalize (if bitsOf (c.rd page 0x01C) 20 1 = 1 then ({ c with mctpOut := c.mctpOut ++ [c.eventRec page b 0 0] } : Chip) else c) = d at h1
  have h2 := fun l r => (logHereWith_quiet ev hev d l r).trans h1
  repeat' split
  all_goals first
    | with_reducible exact h1
    | with_reducible exact h2 _ _
    | with_reducible exact (send_quiet _ _).trans (h2 _ _)

theorem eventStatus_quiet (page : Nat) : quietReg page 0x010 = false := by
  simp [quietReg]

theorem raiseN_quiet (n : Nat) : ∀ (c : Chip) (page b : Nat), (raiseN n c page b).quiet = c.quiet := by
  induction n with
  | zero => exact fun c page b => wr_quiet c page 0x010 _ (eventStatus_quiet page) (by decide)
  | succ n ih =>
    intro c page b
    unfold raiseN
    dsimp only
    split
    · rfl
    · split
      · exact (deliverWith_quiet _ ih _ _ _).trans (wr_quiet c page 0x010 _ (eventStatus_quiet page) (by decide))
      · exact wr_quiet c page 0x010 _ (eventStatus_quiet page) (by decide)

theorem raiseBit_quiet (c : Chip) (page b : Nat) : (c.raiseBit page b).quiet = c.quiet := raiseN_quiet 25 c page b
theorem raise_quiet (c : Chip) (f : Fld) : (c.raise f).quiet = c.quiet := raiseBit_quiet c _ _
theorem raiseHist_quiet (c : Chip) (h : Fin 24) : (c.raiseHist h).quiet = c.quiet := by
  unfold raiseHist
  split
  · refine (raise_quiet _ _).trans (mapHead_quiet _ _ _ fun x => ?_)
    cases x
    rfl
  · rfl

theorem toHost_quiet (c : Chip) (h : Fin 24) (m : HostMsg) : (c.toHost h m).quiet = c.quiet :=
  (raiseHist_quiet _ _).trans (pushFlit_quiet c h m)

theorem deliverEvent_quiet (c : Chip) (page b : Nat) : (c.deliverEvent page b).quiet = c.quiet := deliverWith_quiet _ raiseBit_quiet c page b
theorem enterLog_quiet (c : Chip) (h : Fin 24) (l : Nat) (r : EventRec) : (c.enterLog h l r).quiet = c.quiet :=
  enterLogWith_quiet _ raiseBit_quiet c h l r
theorem logRecord_quiet (c : Chip) (h : Fin 24) (l : Nat) (r : EventRec) : (c.logRecord h l r).quiet = c.quiet :=
  logRecordWith_quiet _ raiseBit_quiet c h l r
theorem logHere_quiet (c : Chip) (l : Nat) (r : EventRec) : (c.logHere l r).quiet = c.quiet := logHereWith_quiet _ raiseBit_quiet c l r
theorem headRecord_quiet (c : Chip) (h : Fin 24) (l page sub addr : Nat) : (c.headRecord h l page sub addr).quiet = c.quiet := by
  unfold headRecord
  split
  · exact logRecord_quiet _ _ _ _
  · rfl

/-- What an equality of quiet parts says of a register word. -/
theorem rd_of_quiet {c d : Chip} (h : c.quiet = d.quiet) (p o : Nat) (hq : quietReg p o = true) : c.rd p o = d.rd p o := by
  have e := congrFun (congrFun (congrArg Quiet.regs h) p) o
  simp only [quiet, hq] at e
  exact Option.some.inj e

/-- What an equality of quiet parts says of a field. -/
theorem get_of_quiet {c d : Chip} (h : c.quiet = d.quiet) (f : Fld) (hq : quietReg f.page f.off = true) : c.get f = d.get f := by
  unfold get
  rw [rd_of_quiet h _ _ hq]

/-- What an equality of quiet parts says of a counter. -/
theorem count_of_quiet {c d : Chip} (h : c.quiet = d.quiet) (k : Ctr) (hq : quietCtr k = true) : c.count k = d.count k := by
  have e := congrFun (congrArg Quiet.ctrs h) k
  simp only [quiet, hq] at e
  exact Option.some.inj e

/-- What an equality of quiet parts says of a head. -/
theorem head_of_quiet {c d : Chip} (h : c.quiet = d.quiet) (i : Fin 24) : (c.head i).quiet = (d.head i).quiet :=
  congrFun (congrArg Quiet.heads h) i

end Chip

end Sys2Proof.Machine
end

