-- ==== Sys2Proof/Laws/Events.lean ====
section
/-! SUPPORT. Page events: an event sets its bit, and nothing that an event, an envelope or a record brings about clears one. -/
namespace Sys2Proof.Machine

/-- Every event bit that is set on `c` is set on `d`. -/
def EventsKept (c d : Chip) : Prop := ∀ p b, (c.rd p 0x010).getLsbD b = true → (d.rd p 0x010).getLsbD b = true

namespace EventsKept

theorem refl (c : Chip) : EventsKept c c := fun _ _ h => h
theorem trans {c d e : Chip} (h : EventsKept c d) (k : EventsKept d e) : EventsKept c e := fun p b x => k p b (h p b x)
theorem of_regs {c d : Chip} (h : d.regs = c.regs) : EventsKept c d := by
  intro p b x
  unfold Chip.rd at *
  rw [h]
  exact x

theorem wr (c : Chip) (p o : Nat) (v : Word) (ho : o < 4096) (h : o ≠ 0x010) : EventsKept c (c.wr p o v) := by
  intro q b x
  rw [Chip.rd_wr_ne _ _ _ _ _ _ fun e => h (regKey_inj (by decide) ho e).2.symm]
  exact x

theorem put (c : Chip) (f : Fld) (v : Nat) (ho : f.off < 4096) (h : f.off ≠ 0x010) : EventsKept c (c.put f v) := wr c _ _ _ ho h

theorem cnt (c : Chip) (k : Ctr) (n : Nat) : EventsKept c (c.cnt k n) := of_regs rfl
theorem mapHead (c : Chip) (h : Fin 24) (f : Head → Head) : EventsKept c (c.mapHead h f) := of_regs rfl
theorem mapVec (c : Chip) (h : Fin 24) (v : Nat) (f : Vec → Vec) : EventsKept c (c.mapVec h v f) := of_regs rfl

theorem foldl {α : Type} (g : Chip → α → Chip) (h : ∀ c x, EventsKept c (g c x)) (l : List α) : ∀ c, EventsKept c (l.foldl g c) := by
  induction l with
  | nil => exact refl
  | cons x r ih => exact fun c => (h c x).trans (ih (g c x))

theorem putOnWire (c : Chip) (es : List Envelope) : EventsKept c (c.putOnWire es) := by
  unfold Chip.putOnWire
  extract_lets all s d
  have hd : EventsKept c d := by
    refine trans ?_ (cnt _ _ _)
    exact of_regs rfl
  exact hd.trans (foldl _ (fun _ _ => cnt _ _ _) all d)

theorem transmit (c : Chip) (b : EnvBody) : EventsKept c (c.transmit b) := by
  unfold Chip.transmit
  refine trans ?_ (put _ _ _ (by decide) (by decide))
  refine trans ?_ (putOnWire _ _)
  exact of_regs rfl

theorem send (c : Chip) (b : EnvBody) : EventsKept c (c.send b) := by
  unfold Chip.send
  split
  · exact refl c
  · split
    · exact of_regs rfl
    · exact transmit c b

theorem post (c : Chip) (r : PmRecord) : EventsKept c (c.post r) := by
  unfold Chip.post
  split
  · exact refl c
  · refine trans ?_ (send _ _)
    refine trans ?_ (cnt _ _ _)
    refine trans ?_ (put _ _ _ (by decide) (by decide))
    exact of_regs rfl

theorem postEffect (c : Chip) (e : Effect) (gated : Bool) (ends : Option Ends) : EventsKept c (c.postEffect e gated ends) := by
  have h := post c (.effect e gated ends)
  unfold Chip.postEffect
  dsimp only
  split
  · exact h.trans (of_regs rfl)
  · exact h

theorem pushFlit (c : Chip) (h : Fin 24) (m : HostMsg) : EventsKept c (c.pushFlit h m) := by
  have hf : ∀ (c : Chip) (full : Bool), EventsKept c (c.histFull h full) := by
    intro c full
    unfold Chip.histFull
    split
    · exact (mapHead _ _ _).trans (cnt _ _ _)
    · exact refl c
  unfold Chip.pushFlit
  extract_lets x all lost d
  have hd : EventsKept c d := (mapHead _ _ _).trans (cnt _ _ _)
  exact hd.trans (hf _ _)

theorem setLog (c : Chip) (h : Fin 24) (l : Nat) (x : EventLog) : EventsKept c (c.setLog h l x) := by
  have e : (Chip.logFill h l).off = 0x808 := by
    unfold Chip.logFill
    split <;> rfl
  unfold Chip.setLog
  exact (mapHead _ _ _).trans (put _ _ _ (by rw [e]; decide) (by rw [e]; decide))

theorem holdMsix (c : Chip) (h : Fin 24) (v : Nat) : EventsKept c (c.holdMsix h v) := by
  unfold Chip.holdMsix
  split
  · exact refl c
  · exact (mapVec _ _ _ _).trans (cnt _ _ _)

theorem sendMsix (c : Chip) (h : Fin 24) (v : Nat) : EventsKept c (c.sendMsix h v) := by
  unfold Chip.sendMsix
  extract_lets x d first e
  have hd : EventsKept c d := mapVec _ _ _ _
  have he : EventsKept d e := (holdMsix d h v).trans (mapHead _ _ _)
  clear_value e first
  split
  · split
    · exact (hd.trans he).trans (pushFlit _ _ _)
    · exact hd.trans he
  · split
    · exact hd.trans (mapVec _ _ _ _)
    · split
      · exact hd.trans (holdMsix _ _ _)
      · exact hd.trans ((pushFlit _ _ _).trans (cnt _ _ _))

theorem cause (c : Chip) (h : Fin 24) (v : Nat) : EventsKept c (c.cause h v) := by
  unfold Chip.cause
  dsimp only
  split
  · exact (mapVec _ _ _ _).trans (sendMsix _ h v)
  · exact mapVec _ _ _ _

theorem deliverWith (ev : Chip → Nat → Nat → Chip) (hev : ∀ c p b, EventsKept c (ev c p b)) (c : Chip) (page b : Nat) :
    EventsKept c (c.deliverWith ev page b) := by
  have h1 : EventsKept c (if bitsOf (c.rd page 0x01C) 20 1 = 1 then ({ c with mctpOut := c.mctpOut ++ [c.eventRec page b 0 0] } : Chip) else c) := by
    split
    · exact of_regs rfl
    · exact refl c
  have hl : ∀ (c : Chip) (h : Fin 24) (l : Nat) (r : EventRec), EventsKept c (c.logRecordWith ev h l r) := by
    intro c h l r
    refine trans (d := c.enterLogWith ev h l r) ?_ (post _ _)
    unfold Chip.enterLogWith
    dsimp only
    split
    · exact (setLog c h l _).trans ((cnt _ _ _).trans (hev _ _ _))
    · split
      · exact (setLog c h l _).trans (cause _ _ _)
      · exact setLog c h l _
  unfold Chip.deliverWith
  dsimp only
  generalize (if bitsOf (c.rd page 0x01C) 20 1 = 1 then ({ c with mctpOut := c.mctpOut ++ [c.eventRec page b 0 0] } : Chip) else c) = d at h1
  have h2 : ∀ l r, EventsKept c (d.logHereWith ev l r) := by
    intro l r
    refine h1.trans ?_
    unfold Chip.logHereWith
    refine foldl _ (fun c h => ?_) _ d
    split
    · exact hl _ _ _ _
    · exact refl c
  repeat' split
  all_goals first
    | with_reducible exact h1
    | with_reducible exact h2 _ _
    | with_reducible exact (h2 _ _).trans (send _ _)

/-- The write that sets a bit of EVT_STATUS. -/
theorem setBit (c : Chip) (p n : Nat) : EventsKept c (c.wr p 0x010 (c.rd p 0x010 ||| BitVec.ofNat 32 n)) := by
  intro q b x
  by_cases h : regKey q 0x010 = regKey p 0x010
  · obtain ⟨rfl, -⟩ := regKey_inj (by decide) (by decide) h
    rw [Chip.rd_wr_same, BitVec.getLsbD_or, x, Bool.true_or]
  · rw [Chip.rd_wr_ne _ _ _ _ _ _ h]
    exact x

theorem raiseN (n : Nat) : ∀ (c : Chip) (page b : Nat), EventsKept c (Chip.raiseN n c page b) := by
  induction n with
  | zero => exact fun c page b => setBit c page _
  | succ n ih =>
    intro c page b
    unfold Chip.raiseN
    dsimp only
    split
    · exact refl c
    · split
      · exact (setBit c page _).trans (deliverWith _ ih _ _ _)
      · exact setBit c page _

theorem raiseBit (c : Chip) (page b : Nat) : EventsKept c (c.raiseBit page b) := raiseN 25 c page b
theorem raise (c : Chip) (f : Fld) : EventsKept c (c.raise f) := raiseBit c _ _
theorem deliverEvent (c : Chip) (page b : Nat) : EventsKept c (c.deliverEvent page b) := deliverWith _ raiseBit c page b

theorem toHost (c : Chip) (h : Fin 24) (m : HostMsg) : EventsKept c (c.toHost h m) := by
  unfold Chip.toHost Chip.raiseHist
  split
  · exact (pushFlit c h m).trans ((mapHead _ _ _).trans (raiseN 25 _ _ _))
  · exact pushFlit c h m

end EventsKept

namespace Chip

/-- An event that occurs has its bit set. -/
theorem raiseBit_sets (c : Chip) (page b : Nat) (hb : b < 32) : ((c.raiseBit page b).rd page 0x010).getLsbD b = true := by
  have h : (((c.wr page 0x010 (c.rd page 0x010 ||| BitVec.ofNat 32 (2 ^ b))).rd page 0x010)).getLsbD b = true := by
    rw [rd_wr_same, BitVec.getLsbD_or, BitVec.getLsbD_ofNat, Nat.testBit_two_pow_self]
    simp [hb]
  unfold raiseBit raiseN
  dsimp only
  split
  · assumption
  · split
    · exact EventsKept.deliverWith _ (EventsKept.raiseN 24) _ _ _ _ _ h
    · exact h

/-- An event bit read as a field. -/
theorem is_event (c : Chip) (f : Fld) (ho : f.off = 0x010) (hw : f.width = 1) : c.is f = (c.rd f.page 0x010).getLsbD f.lo := by
  unfold is get
  rw [ho, hw]
  unfold bitsOf BitVec.getLsbD
  rw [Nat.testBit_eq_decide_div_mod_eq, Nat.shiftRight_eq_div_pow]
  rw [Bool.eq_iff_iff]
  simp

/-- An event named by its field stands after it occurs. -/
theorem raise_is (c : Chip) (f : Fld) (ho : f.off = 0x010) (hw : f.width = 1) (hb : f.lo < 32) : (c.raise f).is f = true := by
  rw [is_event _ _ ho hw]
  exact raiseBit_sets c _ _ hb

/-- An event that stands goes on standing. -/
theorem is_kept {c d : Chip} (h : EventsKept c d) (f : Fld) (ho : f.off = 0x010) (hw : f.width = 1) (hs : c.is f = true) : d.is f = true := by
  rw [is_event _ _ ho hw] at *
  exact h _ _ hs

end Chip

end Sys2Proof.Machine
end

