-- ==== Sys2Proof/Laws/FrameRound.lean ====
section
/-! SUPPORT. Which operations leave the round number of a chip as it is. -/
namespace Sys2Proof.Machine

theorem Chip.foldl_round {α : Type} (g : Chip → α → Chip) (h : ∀ c x, (g c x).clk.round = c.clk.round) (l : List α) :
    ∀ c : Chip, (l.foldl g c).clk.round = c.clk.round := by
  induction l with
  | nil => exact fun c => rfl
  | cons x r ih => exact fun c => (ih (g c x)).trans (h c x)

/-- A fold of operations that can fail, each of which leaves the stores as they are where it does not. -/
theorem Chip.foldl_bind_round {α : Type} (g : Chip → α → Option Chip) (h : ∀ c x c', g c x = some c' → c'.clk.round = c.clk.round) (l : List α) :
    ∀ (c : Chip) {c' : Chip}, (l.foldl (fun (a : Option Chip) x => a.bind fun c => g c x) (some c)) = some c' → c'.clk.round = c.clk.round := by
  have hn : ∀ l : List α, l.foldl (fun (a : Option Chip) x => a.bind fun c => g c x) none = none := by
    intro l
    induction l with
    | nil => rfl
    | cons x r ih => exact ih
  induction l with
  | nil => intro c c' h'; cases h'; rfl
  | cons x r ih =>
    intro c c' h'
    simp only [List.foldl_cons, Option.bind_some] at h'
    cases hx : g c x with
    | none => rw [hx, hn] at h'; cases h'
    | some d => rw [hx] at h'; exact (ih d h').trans (h c x d hx)

theorem Chip.foldl_fst_round {α β : Type} (g : Chip × β → α → Chip × β) (h : ∀ a x, (g a x).1.clk.round = a.1.clk.round) (l : List α) :
    ∀ a : Chip × β, (l.foldl g a).1.clk.round = a.1.clk.round := by
  induction l with
  | nil => exact fun a => rfl
  | cons x r ih => exact fun a => (ih (g a x)).trans (h a x)

theorem Chip.repeat_round (g : Chip → Chip) (h : ∀ c, (g c).clk.round = c.clk.round) (n : Nat) (c : Chip) : (Nat.repeat g n c).clk.round = c.clk.round := by
  induction n with
  | zero => rfl
  | succ n ih => exact (h _).trans ih

theorem Chip.ite_round (p : Prop) [Decidable p] (c d : Chip) : (if p then c else d).clk.round = if p then c.clk.round else d.clk.round := by
  split <;> rfl

section
set_option simprocs false

theorem Chip.wr_round (c : Chip) (page off : Nat) (v : Word) : (Chip.wr c page off v).clk.round = c.clk.round := by
  simp only [Chip.wr_parts]

theorem Chip.put_round (c : Chip) (f : Fld) (v : Nat) : (Chip.put c f v).clk.round = c.clk.round := by
  simp only [Chip.put_parts]

theorem Chip.putInt_round (c : Chip) (f : Fld) (v : Int) : (Chip.putInt c f v).clk.round = c.clk.round := by
  simp only [Chip.putInt_parts]

theorem Chip.cnt_round (c : Chip) (k : Ctr) (n : Nat) : (Chip.cnt c k n).clk.round = c.clk.round := by
  simp only [Chip.cnt_parts]

theorem Chip.peak_round (c : Chip) (k : Ctr) (n : Nat) : (Chip.peak c k n).clk.round = c.clk.round := by
  simp only [Chip.peak_parts]

theorem Chip.low_round (c : Chip) (k : Ctr) (n : Nat) : (Chip.low c k n).clk.round = c.clk.round := by
  simp only [Chip.low_parts]

theorem Chip.setPageState_round (c : Chip) (page st : Nat) : (Chip.setPageState c page st).clk.round = c.clk.round := by
  simp only [Chip.setPageState_parts]

theorem Chip.mapHead_round (c : Chip) (h : Fin 24) (f : Head → Head) : (Chip.mapHead c h f).clk.round = c.clk.round := by
  simp only [Chip.mapHead_parts]

theorem Chip.transmit_round (c : Chip) (b : EnvBody) : (Chip.transmit c b).clk.round = c.clk.round := by
  simp only [Chip.transmit_parts]

theorem Chip.send_round (c : Chip) (b : EnvBody) : (Chip.send c b).clk.round = c.clk.round := by
  simp only [Chip.send_parts]

theorem Chip.post_round (c : Chip) (r : PmRecord) : (Chip.post c r).clk.round = c.clk.round := by
  simp only [Chip.post_parts]

theorem Chip.postEffect_round (c : Chip) (e : Effect) (gated : Bool) (ends : Option Ends) : (Chip.postEffect c e gated ends).clk.round = c.clk.round := by
  simp only [Chip.postEffect_parts]

theorem Chip.mapVec_round (c : Chip) (h : Fin 24) (v : Nat) (f : Vec → Vec) : (Chip.mapVec c h v f).clk.round = c.clk.round := by
  simp only [Chip.mapVec_parts]

theorem Chip.sendMsix_round (c : Chip) (h : Fin 24) (v : Nat) : (Chip.sendMsix c h v).clk.round = c.clk.round := by
  simp only [Chip.sendMsix_parts]

theorem Chip.cause_round (c : Chip) (h : Fin 24) (v : Nat) : (Chip.cause c h v).clk.round = c.clk.round := by
  simp only [Chip.cause_parts]

theorem Chip.setLog_round (c : Chip) (h : Fin 24) (l : Nat) (x : EventLog) : (Chip.setLog c h l x).clk.round = c.clk.round := by
  simp only [Chip.setLog_parts]

theorem Chip.raiseBit_round (c : Chip) (page b : Nat) : (Chip.raiseBit c page b).clk.round = c.clk.round := by
  simp only [Chip.raiseBit_parts]

theorem Chip.deliverEvent_round (c : Chip) (page b : Nat) : (Chip.deliverEvent c page b).clk.round = c.clk.round := by
  simp only [Chip.deliverEvent_parts]

theorem Chip.enterLog_round (c : Chip) (h : Fin 24) (l : Nat) (r : EventRec) : (Chip.enterLog c h l r).clk.round = c.clk.round := by
  simp only [Chip.enterLog_parts]

theorem Chip.logRecord_round (c : Chip) (h : Fin 24) (l : Nat) (r : EventRec) : (Chip.logRecord c h l r).clk.round = c.clk.round := by
  simp only [Chip.logRecord_parts]

theorem Chip.logHere_round (c : Chip) (l : Nat) (r : EventRec) : (Chip.logHere c l r).clk.round = c.clk.round := by
  simp only [Chip.logHere_parts]

theorem Chip.raise_round (c : Chip) (f : Fld) : (Chip.raise c f).clk.round = c.clk.round := by
  simp only [Chip.raise_parts]

theorem Chip.toHost_round (c : Chip) (h : Fin 24) (m : HostMsg) : (Chip.toHost c h m).clk.round = c.clk.round := by
  simp only [Chip.toHost_parts]

theorem Chip.headRecord_round (c : Chip) (h : Fin 24) (l page sub addr : Nat) : (Chip.headRecord c h l page sub addr).clk.round = c.clk.round := by
  simp only [Chip.headRecord_parts]

theorem Chip.reject_round (c : Chip) (page code off : Nat) : (Chip.reject c page code off).clk.round = c.clk.round := by
  simp only [Chip.reject_parts]

theorem Chip.deny_round (c : Chip) : (Chip.deny c).clk.round = c.clk.round := by
  simp only [Chip.deny_parts]

theorem Chip.dloFlush_round (c : Chip) : (Chip.dloFlush c).clk.round = c.clk.round := by
  rw [Chip.dloFlush.eq_def]
  first
  | (simp only [↓Chip.put_round, ↓Chip.cnt_round, ↓Chip.raise_round, Chip.ite_round, ite_self]; done)
  | try dsimp only
    repeat' first
    | with_reducible rfl
    | split
    | simp only [↓Chip.put_round, ↓Chip.cnt_round, ↓Chip.raise_round]

theorem Chip.dloMany_round (c : Chip) : (Chip.dloMany c).clk.round = c.clk.round := by
  rw [Chip.dloMany.eq_def]
  first
  | (simp only [↓Chip.dloFlush_round, Chip.ite_round, ite_self]; done)
  | try dsimp only
    repeat' first
    | with_reducible rfl
    | split
    | simp only [↓Chip.dloFlush_round]

theorem Chip.dloEnter_round (c : Chip) (source level kind copy address location : Nat) (syndrome : Option (BitVec 128)) : (Chip.dloEnter c source level kind copy address location syndrome).clk.round = c.clk.round := by
  rw [Chip.dloEnter.eq_def]
  first
  | (simp only [↓Chip.put_round, ↓Chip.cnt_round, ↓Chip.raise_round, Chip.ite_round, ite_self]; done)
  | try dsimp only
    repeat' first
    | with_reducible rfl
    | split
    | simp only [↓Chip.put_round, ↓Chip.cnt_round, ↓Chip.raise_round]

theorem Chip.dlo_round (c : Chip) (source level kind copy address location : Nat) (syndrome : Option (BitVec 128)) : (Chip.dlo c source level kind copy address location syndrome).clk.round = c.clk.round := by
  rw [Chip.dlo.eq_def]
  first
  | (simp only [↓Chip.dloMany_round, ↓Chip.dloEnter_round]; done)
  | with_reducible rfl

theorem Chip.meetChannel_round (c : Chip) (d : Nat) : (Chip.meetChannel c d).clk.round = c.clk.round := by
  rw [Chip.meetChannel.eq_def]
  first
  | (simp only [↓Chip.put_round, ↓Chip.cnt_round, ↓Chip.raise_round, Chip.ite_round, ite_self]; done)
  | try dsimp only
    repeat' first
    | with_reducible rfl
    | split
    | simp only [↓Chip.put_round, ↓Chip.cnt_round, ↓Chip.raise_round]

theorem Chip.keepOwnRound_round (c : Chip) : (Chip.keepOwnRound c).clk.round = c.clk.round := by
  rw [Chip.keepOwnRound.eq_def]
  first
  | (simp only [↓Chip.put_round]; done)
  | with_reducible rfl

theorem Chip.answer_round (c : Chip) (rq : Requester) (v : BitVec 64) (status : Nat) : (Chip.answer c rq v status).clk.round = c.clk.round := by
  first
  | (rw [Chip.answer.eq_def]; done)
  | (rw [Chip.answer.eq_def]; with_reducible rfl)

theorem Chip.drew_round (c : Chip) (kind location : Nat) (last : Bool) : (Chip.drew c kind location last).clk.round = c.clk.round := by
  rw [Chip.drew.eq_def]
  first
  | (simp only [↓Chip.cnt_round, ↓Chip.raise_round, ↓Chip.dlo_round, Chip.ite_round, ite_self]; done)
  | try dsimp only
    repeat' first
    | with_reducible rfl
    | split
    | simp only [↓Chip.cnt_round, ↓Chip.raise_round, ↓Chip.dlo_round]

theorem Chip.mapSrc_round (c : Chip) (i : Nat) (f : IntSource → IntSource) : (Chip.mapSrc c i f).clk.round = c.clk.round := by
  first
  | (rw [Chip.mapSrc.eq_def]; done)
  | (rw [Chip.mapSrc.eq_def]; with_reducible rfl)

theorem Chip.setGroup_round (c : Chip) (g : Nat) (x : Group) : (Chip.setGroup c g x).clk.round = c.clk.round := by
  first
  | (rw [Chip.setGroup.eq_def]; done)
  | (rw [Chip.setGroup.eq_def]; with_reducible rfl)

theorem Chip.mapCore_round (c : Chip) (n : Nat) (f : Core → Core) : (Chip.mapCore c n f).clk.round = c.clk.round := by
  first
  | (rw [Chip.mapCore.eq_def]; done)
  | (rw [Chip.mapCore.eq_def]; with_reducible rfl)

theorem Chip.presentTo_round (c : Chip) (n : Nat) : (Chip.presentTo c n).clk.round = c.clk.round := by
  rw [Chip.presentTo.eq_def]
  first
  | (simp only [↓Chip.mapSrc_round, Chip.ite_round, ite_self]; done)
  | try dsimp only
    repeat' first
    | with_reducible rfl
    | split
    | with_reducible refine (Chip.foldl_round _ (fun c x => ?_) _ _).trans ?_
    | with_reducible refine (Chip.foldl_fst_round _ (fun a x => ?_) _ _).trans ?_
    | simp only [↓Chip.mapSrc_round]

theorem Chip.wake_round (c : Chip) (n : Nat) : (Chip.wake c n).clk.round = c.clk.round := by
  rw [Chip.wake.eq_def]
  first
  | (simp only [↓Chip.put_round, ↓Chip.cnt_round, ↓Chip.mapCore_round, Chip.ite_round, ite_self]; done)
  | try dsimp only
    repeat' first
    | with_reducible rfl
    | split
    | simp only [↓Chip.put_round, ↓Chip.cnt_round, ↓Chip.mapCore_round]

theorem Chip.icuUpdate_round (c : Chip) : (Chip.icuUpdate c).clk.round = c.clk.round := by
  rw [Chip.icuUpdate.eq_def]
  first
  | (simp only [↓Chip.presentTo_round, ↓Chip.wake_round, Chip.ite_round, ite_self]; done)
  | try dsimp only
    repeat' first
    | with_reducible rfl
    | split
    | with_reducible refine (Chip.foldl_round _ (fun c x => ?_) _ _).trans ?_
    | with_reducible refine (Chip.foldl_fst_round _ (fun a x => ?_) _ _).trans ?_
    | simp only [↓Chip.presentTo_round, ↓Chip.wake_round]

theorem Chip.fireGroup_round (c : Chip) (g : Nat) : (Chip.fireGroup c g).clk.round = c.clk.round := by
  rw [Chip.fireGroup.eq_def]
  first
  | (simp only [↓Chip.cnt_round, ↓Chip.mapSrc_round, ↓Chip.setGroup_round, Chip.ite_round, ite_self]; done)
  | try dsimp only
    repeat' first
    | with_reducible rfl
    | split
    | with_reducible refine (Chip.foldl_round _ (fun c x => ?_) _ _).trans ?_
    | with_reducible refine (Chip.foldl_fst_round _ (fun a x => ?_) _ _).trans ?_
    | simp only [↓Chip.cnt_round, ↓Chip.mapSrc_round, ↓Chip.setGroup_round]

theorem Chip.arrival_round (c : Chip) (i : Nat) : (Chip.arrival c i).clk.round = c.clk.round := by
  rw [Chip.arrival.eq_def]
  first
  | (simp only [↓Chip.cnt_round, ↓Chip.raise_round, ↓Chip.mapSrc_round, ↓Chip.setGroup_round, ↓Chip.icuUpdate_round,
        ↓Chip.fireGroup_round, Chip.ite_round, ite_self]; done)
  | try dsimp only
    repeat' first
    | with_reducible rfl
    | split
    | simp only [↓Chip.cnt_round, ↓Chip.raise_round, ↓Chip.mapSrc_round, ↓Chip.setGroup_round, ↓Chip.icuUpdate_round,
        ↓Chip.fireGroup_round]

theorem Chip.pulse_round (c : Chip) (i : Nat) : (Chip.pulse c i).clk.round = c.clk.round := by
  rw [Chip.pulse.eq_def]
  first
  | (simp only [↓Chip.arrival_round]; done)
  | with_reducible rfl

theorem Chip.showSensor_round (xs : List (Option Nat)) (c : Chip) (n : Nat) : (Chip.showSensor xs c n).clk.round = c.clk.round := by
  rw [Chip.showSensor.eq_def]
  first
  | (simp only [↓Chip.put_round, ↓Chip.cnt_round, ↓Chip.raise_round, Chip.ite_round, ite_self]; done)
  | try dsimp only
    repeat' first
    | with_reducible rfl
    | split
    | simp only [↓Chip.put_round, ↓Chip.cnt_round, ↓Chip.raise_round]

theorem Chip.thermalRuns_round (c : Chip) (hot acts : Nat) : (Chip.thermalRuns c hot acts).clk.round = c.clk.round := by
  rw [Chip.thermalRuns.eq_def]
  try dsimp only
  repeat' first
    | with_reducible rfl
    | split

theorem Chip.thermalRound_round (c : Chip) (xs : List (Option Nat)) : (Chip.thermalRound c xs).clk.round = c.clk.round := by
  rw [Chip.thermalRound.eq_def]
  first
  | (simp only [↓Chip.put_round, ↓Chip.cnt_round, ↓Chip.peak_round, ↓Chip.raise_round, ↓Chip.pulse_round, ↓Chip.showSensor_round,
        ↓Chip.thermalRuns_round, Chip.ite_round, ite_self]; done)
  | try dsimp only
    repeat' first
    | with_reducible rfl
    | split
    | with_reducible refine (Chip.foldl_round _ (fun c x => ?_) _ _).trans ?_
    | with_reducible refine (Chip.foldl_fst_round _ (fun a x => ?_) _ _).trans ?_
    | simp only [↓Chip.put_round, ↓Chip.cnt_round, ↓Chip.peak_round, ↓Chip.raise_round, ↓Chip.pulse_round, ↓Chip.showSensor_round,
        ↓Chip.thermalRuns_round]

theorem Chip.thermalDelivery_round (c : Chip) : (Chip.thermalDelivery c).clk.round = c.clk.round := by
  rw [Chip.thermalDelivery.eq_def]
  first
  | (simp only [↓Chip.put_round]; done)
  | with_reducible rfl

theorem Chip.mapChan_round (c : Chip) (d : Nat) (f : Chan → Chan) : (Chip.mapChan c d f).clk.round = c.clk.round := by
  first
  | (rw [Chip.mapChan.eq_def]; done)
  | (rw [Chip.mapChan.eq_def]; with_reducible rfl)

theorem Chip.setTokens_round (c : Chip) (d : Nat) (k : Client) (n : Nat) : (Chip.setTokens c d k n).clk.round = c.clk.round := by
  rw [Chip.setTokens.eq_def]
  first
  | (simp only [↓Chip.mapChan_round]; done)
  | with_reducible rfl

theorem Chip.leaveOwed_round (c : Chip) (d : Nat) (k : Client) (m : Nat) : (Chip.leaveOwed c d k m).clk.round = c.clk.round := by
  rw [Chip.leaveOwed.eq_def]
  first
  | (simp only [↓Chip.mapChan_round]; done)
  | with_reducible rfl

theorem Chip.oweLines_round (c : Chip) (k : Client) (d n : Nat) : (Chip.oweLines c k d n).clk.round = c.clk.round := by
  rw [Chip.oweLines.eq_def]
  first
  | (simp only [↓Chip.leaveOwed_round]; done)
  | with_reducible rfl

theorem Chip.oweBlock_round (c : Chip) (k : Client) (x bytes : Nat) : (Chip.oweBlock c k x bytes).clk.round = c.clk.round := by
  rw [Chip.oweBlock.eq_def]
  first
  | (simp only [↓Chip.oweLines_round, Chip.ite_round, ite_self]; done)
  | try dsimp only
    repeat' first
    | with_reducible rfl
    | split
    | with_reducible refine (Chip.foldl_round _ (fun c x => ?_) _ _).trans ?_
    | with_reducible refine (Chip.foldl_fst_round _ (fun a x => ?_) _ _).trans ?_
    | simp only [↓Chip.oweLines_round]

theorem Chip.settleClient_round (c : Chip) (d : Nat) (k : Client) (busy : Bool) : (Chip.settleClient c d k busy).clk.round = c.clk.round := by
  rw [Chip.settleClient.eq_def]
  first
  | (simp only [↓Chip.cnt_round, ↓Chip.raise_round, ↓Chip.setTokens_round, ↓Chip.leaveOwed_round, Chip.ite_round, ite_self]; done)
  | try dsimp only
    repeat' first
    | with_reducible rfl
    | split
    | simp only [↓Chip.cnt_round, ↓Chip.raise_round, ↓Chip.setTokens_round, ↓Chip.leaveOwed_round]

theorem Chip.refillTokens_round (c : Chip) (times d : Nat) (k : Client) : (Chip.refillTokens c times d k).clk.round = c.clk.round := by
  rw [Chip.refillTokens.eq_def]
  first
  | (simp only [↓Chip.setTokens_round, Chip.ite_round, ite_self]; done)
  | try dsimp only
    repeat' first
    | with_reducible rfl
    | split
    | simp only [↓Chip.setTokens_round]

theorem Chip.refillChannels_round (c : Chip) (times : Nat) : (Chip.refillChannels c times).clk.round = c.clk.round := by
  rw [Chip.refillChannels.eq_def]
  first
  | (simp only [↓Chip.refillTokens_round, Chip.ite_round, ite_self]; done)
  | try dsimp only
    repeat' first
    | with_reducible rfl
    | split
    | with_reducible refine (Chip.foldl_round _ (fun c x => ?_) _ _).trans ?_
    | with_reducible refine (Chip.foldl_fst_round _ (fun a x => ?_) _ _).trans ?_
    | simp only [↓Chip.refillTokens_round]

theorem Chip.closeRows_round (c : Chip) (d : Nat) (p : Nat → Bool) : (Chip.closeRows c d p).clk.round = c.clk.round := by
  rw [Chip.closeRows.eq_def]
  first
  | (simp only [↓Chip.mapChan_round]; done)
  | with_reducible rfl

theorem Chip.rankOut_round (c : Chip) (d r : Nat) : (Chip.rankOut c d r).clk.round = c.clk.round := by
  rw [Chip.rankOut.eq_def]
  first
  | (simp only [↓Chip.mapChan_round, ↓Chip.closeRows_round]; done)
  | with_reducible rfl

theorem Chip.pprStart_round (c : Chip) (d rank bg ba row : Nat) (hard auto : Bool) : (Chip.pprStart c d rank bg ba row hard auto).clk.round = c.clk.round := by
  rw [Chip.pprStart.eq_def]
  first
  | (simp only [↓Chip.put_round, ↓Chip.meetChannel_round, ↓Chip.mapChan_round]; done)
  | with_reducible rfl

theorem Chip.readBacklog_round (c : Chip) (d : Nat) : (Chip.readBacklog c d).clk.round = c.clk.round := by
  rw [Chip.readBacklog.eq_def]
  first
  | (simp only [↓Chip.cnt_round, ↓Chip.mapChan_round, ↓Chip.oweLines_round, Chip.ite_round, ite_self]; done)
  | try dsimp only
    repeat' first
    | with_reducible rfl
    | split
    | simp only [↓Chip.cnt_round, ↓Chip.mapChan_round, ↓Chip.oweLines_round]

theorem Chip.setMdcWay_round (c : Chip) (set way : Nat) (x : MdcLine) : (Chip.setMdcWay c set way x).clk.round = c.clk.round := by
  first
  | (rw [Chip.setMdcWay.eq_def]; done)
  | (rw [Chip.setMdcWay.eq_def]; with_reducible rfl)

theorem Chip.mdcRefer_round (c : Chip) (set way : Nat) : (Chip.mdcRefer c set way).clk.round = c.clk.round := by
  rw [Chip.mdcRefer.eq_def]
  first
  | (simp only [↓Chip.setMdcWay_round, Chip.ite_round, ite_self]; done)
  | try dsimp only
    repeat' first
    | with_reducible rfl
    | split
    | with_reducible refine (Chip.foldl_round _ (fun c x => ?_) _ _).trans ?_
    | with_reducible refine (Chip.foldl_fst_round _ (fun a x => ?_) _ _).trans ?_
    | simp only [↓Chip.setMdcWay_round]

theorem Chip.mdcToDram_round (c : Chip) (line : Nat) : (Chip.mdcToDram c line).clk.round = c.clk.round := by
  rw [Chip.mdcToDram.eq_def]
  first
  | (simp only [↓Chip.cnt_round, ↓Chip.oweBlock_round, Chip.ite_round, ite_self]; done)
  | try dsimp only
    repeat' first
    | with_reducible rfl
    | split
    | simp only [↓Chip.cnt_round, ↓Chip.oweBlock_round]

theorem Chip.evbDrain_round (n : Nat) : ∀ c : Chip, (c.evbDrain n).clk.round = c.clk.round := by
  induction n with
  | zero => exact fun c => rfl
  | succ n ih =>
    intro c
    unfold Chip.evbDrain
    split
    · rfl
    · rw [ih, Chip.mdcToDram_round]

theorem Chip.evbPush_round (c : Chip) (line : Nat) : (Chip.evbPush c line).clk.round = c.clk.round := by
  rw [Chip.evbPush.eq_def]
  first
  | (simp only [↓Chip.raise_round, ↓Chip.evbDrain_round, Chip.ite_round, ite_self]; done)
  | try dsimp only
    repeat' first
    | with_reducible rfl
    | split
    | simp only [↓Chip.raise_round, ↓Chip.evbDrain_round]

theorem Chip.mdcInstall_round (c : Chip) (line : Nat) (dirty : Bool) : (Chip.mdcInstall c line dirty).clk.round = c.clk.round := by
  rw [Chip.mdcInstall.eq_def]
  first
  | (simp only [↓Chip.setMdcWay_round, ↓Chip.mdcRefer_round, ↓Chip.mdcToDram_round, ↓Chip.evbPush_round, Chip.ite_round, ite_self]; done)
  | try dsimp only
    repeat' first
    | with_reducible rfl
    | split
    | simp only [↓Chip.setMdcWay_round, ↓Chip.mdcRefer_round, ↓Chip.mdcToDram_round, ↓Chip.evbPush_round]

theorem Chip.mdcTouch_round (c : Chip) (line : Nat) (write : Bool) : (Chip.mdcTouch c line write).clk.round = c.clk.round := by
  rw [Chip.mdcTouch.eq_def]
  first
  | (simp only [↓Chip.cnt_round, ↓Chip.oweBlock_round, ↓Chip.setMdcWay_round, ↓Chip.mdcRefer_round, ↓Chip.mdcInstall_round, Chip.ite_round, ite_self]; done)
  | try dsimp only
    repeat' first
    | with_reducible rfl
    | split
    | simp only [↓Chip.cnt_round, ↓Chip.oweBlock_round, ↓Chip.setMdcWay_round, ↓Chip.mdcRefer_round, ↓Chip.mdcInstall_round]

theorem Chip.markChange_round (c : Chip) (extent : Nat) : (Chip.markChange c extent).clk.round = c.clk.round := by
  rw [Chip.markChange.eq_def]
  first
  | (simp only [↓Chip.put_round, ↓Chip.cnt_round, ↓Chip.mdcTouch_round, Chip.ite_round, ite_self]; done)
  | try dsimp only
    repeat' first
    | with_reducible rfl
    | split
    | simp only [↓Chip.put_round, ↓Chip.cnt_round, ↓Chip.mdcTouch_round]

theorem Chip.mapExt_round (c : Chip) (e : Nat) (f : ExtEntry → ExtEntry) : (Chip.mapExt c e f).clk.round = c.clk.round := by
  rw [Chip.mapExt.eq_def]
  first
  | (simp only [↓Chip.mdcTouch_round]; done)
  | with_reducible rfl

theorem Chip.setParcel_round (c : Chip) (p : Nat) (x : ParcelEntry) : (Chip.setParcel c p x).clk.round = c.clk.round := by
  rw [Chip.setParcel.eq_def]
  first
  | (simp only [↓Chip.mdcTouch_round]; done)
  | with_reducible rfl

theorem Chip.tcInvalidate_round (c : Chip) (e : Nat) : (Chip.tcInvalidate c e).clk.round = c.clk.round := by
  rw [Chip.tcInvalidate.eq_def]
  try dsimp only
  repeat' first
    | with_reducible rfl
    | split
    | with_reducible refine (Chip.foldl_round _ (fun c x => ?_) _ _).trans ?_
    | with_reducible refine (Chip.foldl_fst_round _ (fun a x => ?_) _ _).trans ?_

theorem Chip.mapBits_round (c old : Chip) (p : Nat) : (Chip.mapBits c old p).clk.round = c.clk.round := by
  rw [Chip.mapBits.eq_def]
  first
  | (simp only [↓Chip.mdcTouch_round, Chip.ite_round, ite_self]; done)
  | try dsimp only
    repeat' first
    | with_reducible rfl
    | split
    | simp only [↓Chip.mdcTouch_round]

theorem Chip.setDirty_round (c : Chip) (p : Nat) (on : Bool) : (Chip.setDirty c p on).clk.round = c.clk.round := by
  rw [Chip.setDirty.eq_def]
  first
  | (simp only [↓Chip.mdcTouch_round, ↓Chip.mapBits_round, Chip.ite_round, ite_self]; done)
  | try dsimp only
    repeat' first
    | with_reducible rfl
    | split
    | simp only [↓Chip.mdcTouch_round, ↓Chip.mapBits_round]

theorem Chip.wantRange_round (c : Chip) (r : Nat) : (Chip.wantRange c r).clk.round = c.clk.round := by
  rw [Chip.wantRange.eq_def]
  first
  | (simp only [↓Chip.cnt_round, Chip.ite_round, ite_self]; done)
  | try dsimp only
    repeat' first
    | with_reducible rfl
    | split
    | simp only [↓Chip.cnt_round]

theorem Chip.takeFrame_round (c : Chip) (e : Nat) : (Chip.takeFrame c e).clk.round = c.clk.round := by
  rw [Chip.takeFrame.eq_def]
  first
  | (simp only [↓Chip.mapExt_round, ↓Chip.wantRange_round, Chip.ite_round, ite_self]; done)
  | try dsimp only
    repeat' first
    | with_reducible rfl
    | split
    | simp only [↓Chip.mapExt_round, ↓Chip.wantRange_round]

theorem Chip.healLine_round (c : Chip) (dpa : Nat) (poison : Bool) : (Chip.healLine c dpa poison).clk.round = c.clk.round := by
  rw [Chip.healLine.eq_def]
  try dsimp only
  repeat' first
    | with_reducible rfl
    | split

theorem Chip.storePatch_round (c : Chip) (dpa : Nat) (l : Line) (poison : Bool) : (Chip.storePatch c dpa l poison).clk.round = c.clk.round := by
  rw [Chip.storePatch.eq_def]
  first
  | (simp only [↓Chip.cnt_round, ↓Chip.mapBits_round, Chip.ite_round, ite_self]; done)
  | try dsimp only
    repeat' first
    | with_reducible rfl
    | split
    | simp only [↓Chip.cnt_round, ↓Chip.mapBits_round]

theorem Chip.storeFront_round (c : Chip) (dpa : Nat) (l : Line) (poison : Bool) : (Chip.storeFront c dpa l poison).clk.round = c.clk.round := by
  rw [Chip.storeFront.eq_def]
  first
  | (simp only [↓Chip.setDirty_round]; done)
  | with_reducible rfl

theorem Chip.storeLine_round (c : Chip) (dpa : Nat) (l : Line) (poison : Bool) : (Chip.storeLine c dpa l poison).clk.round = c.clk.round := by
  rw [Chip.storeLine.eq_def]
  first
  | (simp only [↓Chip.healLine_round, ↓Chip.storePatch_round, ↓Chip.storeFront_round, Chip.ite_round, ite_self]; done)
  | try dsimp only
    repeat' first
    | with_reducible rfl
    | split
    | simp only [↓Chip.healLine_round, ↓Chip.storePatch_round, ↓Chip.storeFront_round]

theorem Chip.dropPatch_round (c : Chip) (p : Nat) (ls : List Nat) : (Chip.dropPatch c p ls).clk.round = c.clk.round := by
  rw [Chip.dropPatch.eq_def]
  first
  | (simp only [↓Chip.mapBits_round, Chip.ite_round, ite_self]; done)
  | try dsimp only
    repeat' first
    | with_reducible rfl
    | split
    | with_reducible refine (Chip.foldl_round _ (fun c x => ?_) _ _).trans ?_
    | with_reducible refine (Chip.foldl_fst_round _ (fun a x => ?_) _ _).trans ?_
    | simp only [↓Chip.mapBits_round]

theorem Chip.recordCopy_round (c : Chip) (p plen loc : Nat) (bytes : List Host.Cell) (poison : List Nat) : (Chip.recordCopy c p plen loc bytes poison).clk.round = c.clk.round := by
  rw [Chip.recordCopy.eq_def]
  first
  | (simp only [↓Chip.setParcel_round, Chip.ite_round, ite_self]; done)
  | try dsimp only
    repeat' first
    | with_reducible rfl
    | split
    | simp only [↓Chip.setParcel_round]

theorem Chip.touchExtent_round (c : Chip) (e : Nat) : (Chip.touchExtent c e).clk.round = c.clk.round := by
  rw [Chip.touchExtent.eq_def]
  first
  | (simp only [↓Chip.mapExt_round, Chip.ite_round, ite_self]; done)
  | try dsimp only
    repeat' first
    | with_reducible rfl
    | split
    | simp only [↓Chip.mapExt_round]

theorem Chip.setWmb_round (c : Chip) (line : Nat) (e : WmbEntry) : (Chip.setWmb c line e).clk.round = c.clk.round := by
  first
  | (rw [Chip.setWmb.eq_def]; done)
  | (rw [Chip.setWmb.eq_def]; with_reducible rfl)

theorem Chip.setCharge_round (c : Chip) (line : Nat) (x : Charge) : (Chip.setCharge c line x).clk.round = c.clk.round := by
  first
  | (rw [Chip.setCharge.eq_def]; done)
  | (rw [Chip.setCharge.eq_def]; with_reducible rfl)

theorem Chip.wmbMerge_round (c : Chip) (line : Nat) (data : Line) (en : BitVec 64) (poison : Bool) (full : Bool) : (Chip.wmbMerge c line data en poison full).clk.round = c.clk.round := by
  rw [Chip.wmbMerge.eq_def]
  first
  | (simp only [↓Chip.cnt_round, ↓Chip.markChange_round, ↓Chip.touchExtent_round, ↓Chip.setWmb_round, Chip.ite_round, ite_self]; done)
  | try dsimp only
    repeat' first
    | with_reducible rfl
    | split
    | simp only [↓Chip.cnt_round, ↓Chip.markChange_round, ↓Chip.touchExtent_round, ↓Chip.setWmb_round]

theorem Chip.wmbWrite_round (c : Chip) (h : Fin 24) (pos line : Nat) (data : Line) (en : BitVec 64) (poison : Bool) (full : Bool) : (Chip.wmbWrite c h pos line data en poison full).clk.round = c.clk.round := by
  rw [Chip.wmbWrite.eq_def]
  first
  | (simp only [↓Chip.cnt_round, ↓Chip.setCharge_round, ↓Chip.wmbMerge_round, Chip.ite_round, ite_self]; done)
  | try dsimp only
    repeat' first
    | with_reducible rfl
    | split
    | simp only [↓Chip.cnt_round, ↓Chip.setCharge_round, ↓Chip.wmbMerge_round]

theorem Chip.sendWriteWm_round (c : Chip) (h : Fin 24) (pos : Nat) : (Chip.sendWriteWm c h pos).clk.round = c.clk.round := by
  rw [Chip.sendWriteWm.eq_def]
  first
  | (simp only [↓Chip.mapHead_round, ↓Chip.post_round, Chip.ite_round, ite_self]; done)
  | try dsimp only
    repeat' first
    | with_reducible rfl
    | split
    | simp only [↓Chip.mapHead_round, ↓Chip.post_round]

theorem Chip.sendDrainWm_round (c : Chip) (h : Fin 24) : (Chip.sendDrainWm c h).clk.round = c.clk.round := by
  rw [Chip.sendDrainWm.eq_def]
  first
  | (simp only [↓Chip.mapHead_round, ↓Chip.post_round, Chip.ite_round, ite_self]; done)
  | try dsimp only
    repeat' first
    | with_reducible rfl
    | split
    | simp only [↓Chip.mapHead_round, ↓Chip.post_round]

theorem Chip.releaseHere_round (c : Chip) (line : Nat) : (Chip.releaseHere c line).clk.round = c.clk.round := by
  rw [Chip.releaseHere.eq_def]
  first
  | (simp only [↓Chip.setCharge_round, ↓Chip.sendDrainWm_round, Chip.ite_round, ite_self]; done)
  | try dsimp only
    repeat' first
    | with_reducible rfl
    | split
    | simp only [↓Chip.setCharge_round, ↓Chip.sendDrainWm_round]

theorem Chip.mapTags_round (c : Chip) (p : Tag → Bool) (f : Tag → Tag) : (Chip.mapTags c p f).clk.round = c.clk.round := by
  rw [Chip.mapTags.eq_def]
  try dsimp only
  repeat' first
    | with_reducible rfl
    | split

theorem Chip.setTag_round (c : Chip) (t : Tag) : (Chip.setTag c t).clk.round = c.clk.round := by
  rw [Chip.setTag.eq_def]
  first
  | (simp only [↓Chip.mapTags_round]; done)
  | with_reducible rfl

theorem Chip.dropTag_round (c : Chip) (t : Tag) : (Chip.dropTag c t).clk.round = c.clk.round := by
  first
  | (rw [Chip.dropTag.eq_def]; done)
  | (rw [Chip.dropTag.eq_def]; with_reducible rfl)

theorem Chip.respondData_round (c : Chip) (t : Tag) (data : Line) (poison : Bool) : (Chip.respondData c t data poison).clk.round = c.clk.round := by
  rw [Chip.respondData.eq_def]
  first
  | (simp only [↓Chip.cnt_round, ↓Chip.raise_round, ↓Chip.toHost_round, ↓Chip.setTag_round, ↓Chip.dropTag_round, Chip.ite_round, ite_self]; done)
  | try dsimp only
    repeat' first
    | with_reducible rfl
    | split
    | simp only [↓Chip.cnt_round, ↓Chip.raise_round, ↓Chip.toHost_round, ↓Chip.setTag_round, ↓Chip.dropTag_round]

theorem Chip.respondCmp_round (c : Chip) (t : Tag) : (Chip.respondCmp c t).clk.round = c.clk.round := by
  rw [Chip.respondCmp.eq_def]
  first
  | (simp only [↓Chip.cnt_round, ↓Chip.toHost_round, ↓Chip.setTag_round, ↓Chip.dropTag_round, Chip.ite_round, ite_self]; done)
  | try dsimp only
    repeat' first
    | with_reducible rfl
    | split
    | simp only [↓Chip.cnt_round, ↓Chip.toHost_round, ↓Chip.setTag_round, ↓Chip.dropTag_round]

theorem Chip.completeWrite_round (c : Chip) (t : Tag) : (Chip.completeWrite c t).clk.round = c.clk.round := by
  rw [Chip.completeWrite.eq_def]
  first
  | (simp only [↓Chip.cnt_round, ↓Chip.mapHead_round, ↓Chip.raise_round, ↓Chip.setTag_round, ↓Chip.respondCmp_round, Chip.ite_round, ite_self]; done)
  | try dsimp only
    repeat' first
    | with_reducible rfl
    | split
    | simp only [↓Chip.cnt_round, ↓Chip.mapHead_round, ↓Chip.raise_round, ↓Chip.setTag_round, ↓Chip.respondCmp_round]

theorem Chip.suspendOne_round (u : Nat) (cols : List Nat) (c : Chip) : (Chip.suspendOne u cols c).clk.round = c.clk.round := by
  rw [Chip.suspendOne.eq_def]
  first
  | (simp only [↓Chip.cnt_round, Chip.ite_round, ite_self]; done)
  | try dsimp only
    repeat' first
    | with_reducible rfl
    | split
    | simp only [↓Chip.cnt_round]

theorem Chip.suspendFor_round (c : Chip) (r : Nat) : (Chip.suspendFor c r).clk.round = c.clk.round := by
  rw [Chip.suspendFor.eq_def]
  first
  | (simp only [↓Chip.suspendOne_round, Chip.ite_round, ite_self]; done)
  | try dsimp only
    repeat' first
    | with_reducible rfl
    | split
    | with_reducible refine (Chip.repeat_round _ (fun c => ?_) _ _).trans ?_
    | simp only [↓Chip.suspendOne_round]

theorem Chip.pumpBridge_round (all : Bool) (n : Nat) : ∀ c : Chip, (Chip.pumpBridge c all n).clk.round = c.clk.round := by
  induction n with
  | zero => exact fun _ => rfl
  | succ n ih =>
    intro c
    unfold Chip.pumpBridge
    extract_lets k
    split
    · rfl
    · exact (ih _).trans (Chip.send_round _ _)

theorem Chip.bridgeRound_round (c : Chip) : (Chip.bridgeRound c).clk.round = c.clk.round := by
  rw [Chip.bridgeRound.eq_def]
  first
  | (simp only [↓Chip.pumpBridge_round, Chip.ite_round, ite_self]; done)
  | try dsimp only
    repeat' first
    | with_reducible rfl
    | split
    | simp only [↓Chip.pumpBridge_round]

theorem Chip.queueMig_round (c : Chip) (cls e : Nat) (promote : Bool) : (Chip.queueMig c cls e promote).clk.round = c.clk.round := by
  rw [Chip.queueMig.eq_def]
  try dsimp only
  repeat' first
    | with_reducible rfl
    | split

theorem Chip.earnHit_round (c : Chip) (e : Nat) : (Chip.earnHit c e).clk.round = c.clk.round := by
  rw [Chip.earnHit.eq_def]
  first
  | (simp only [↓Chip.queueMig_round, Chip.ite_round, ite_self]; done)
  | try dsimp only
    repeat' first
    | with_reducible rfl
    | split
    | simp only [↓Chip.queueMig_round]

theorem Chip.pcacheUse_round (c : Chip) (p : Nat) : (Chip.pcacheUse c p).clk.round = c.clk.round := by
  first
  | (rw [Chip.pcacheUse.eq_def]; done)
  | (rw [Chip.pcacheUse.eq_def]; with_reducible rfl)

theorem Chip.waitFill_round (c : Chip) (t : Tag) : (Chip.waitFill c t).clk.round = c.clk.round := by
  rw [Chip.waitFill.eq_def]
  first
  | (simp only [↓Chip.wantRange_round, ↓Chip.setTag_round]; done)
  | with_reducible rfl

theorem Chip.lookUp_round (c : Chip) (dpa : Nat) : (Chip.lookUp c dpa).clk.round = c.clk.round := by
  rw [Chip.lookUp.eq_def]
  first
  | (simp only [↓Chip.mdcTouch_round, Chip.ite_round, ite_self]; done)
  | try dsimp only
    repeat' first
    | with_reducible rfl
    | split
    | simp only [↓Chip.mdcTouch_round]

theorem Chip.readDram_round (c : Chip) (t : Tag) : (Chip.readDram c t).clk.round = c.clk.round := by
  rw [Chip.readDram.eq_def]
  first
  | (simp only [↓Chip.meetChannel_round, ↓Chip.setTag_round, ↓Chip.waitFill_round, Chip.ite_round, ite_self]; done)
  | try dsimp only
    repeat' first
    | with_reducible rfl
    | split
    | simp only [↓Chip.meetChannel_round, ↓Chip.setTag_round, ↓Chip.waitFill_round]

theorem Chip.serveFull_round (c : Chip) (t : Tag) : (Chip.serveFull c t).clk.round = c.clk.round := by
  rw [Chip.serveFull.eq_def]
  first
  | (simp only [↓Chip.respondData_round, Chip.ite_round, ite_self]; done)
  | try dsimp only
    repeat' first
    | with_reducible rfl
    | split
    | simp only [↓Chip.respondData_round]

theorem Chip.readMedia_round (c : Chip) (t : Tag) : (Chip.readMedia c t).clk.round = c.clk.round := by
  rw [Chip.readMedia.eq_def]
  first
  | (simp only [↓Chip.setTag_round, ↓Chip.suspendFor_round, Chip.ite_round, ite_self]; done)
  | try dsimp only
    repeat' first
    | with_reducible rfl
    | split
    | simp only [↓Chip.setTag_round, ↓Chip.suspendFor_round]

theorem Chip.serveRead_round (c : Chip) (t : Tag) : (Chip.serveRead c t).clk.round = c.clk.round := by
  rw [Chip.serveRead.eq_def]
  first
  | (simp only [↓Chip.cnt_round, ↓Chip.oweBlock_round, ↓Chip.mdcTouch_round, ↓Chip.touchExtent_round, ↓Chip.setTag_round,
        ↓Chip.earnHit_round, ↓Chip.pcacheUse_round, ↓Chip.lookUp_round, ↓Chip.readDram_round, ↓Chip.serveFull_round,
        ↓Chip.readMedia_round, Chip.ite_round, ite_self]; done)
  | try dsimp only
    repeat' first
    | with_reducible rfl
    | split
    | simp only [↓Chip.cnt_round, ↓Chip.oweBlock_round, ↓Chip.mdcTouch_round, ↓Chip.touchExtent_round, ↓Chip.setTag_round,
        ↓Chip.earnHit_round, ↓Chip.pcacheUse_round, ↓Chip.lookUp_round, ↓Chip.readDram_round, ↓Chip.serveFull_round,
        ↓Chip.readMedia_round]

theorem Chip.mdcFetch_round (c : Chip) (line : Nat) : (Chip.mdcFetch c line).clk.round = c.clk.round := by
  rw [Chip.mdcFetch.eq_def]
  first
  | (simp only [↓Chip.cnt_round, ↓Chip.oweBlock_round, ↓Chip.mdcRefer_round, ↓Chip.mdcInstall_round, Chip.ite_round, ite_self]; done)
  | try dsimp only
    repeat' first
    | with_reducible rfl
    | split
    | simp only [↓Chip.cnt_round, ↓Chip.oweBlock_round, ↓Chip.mdcRefer_round, ↓Chip.mdcInstall_round]

theorem Chip.tcUse_round (c : Chip) (h : Fin 24) (line : Nat) : (Chip.tcUse c h line).clk.round = c.clk.round := by
  first
  | (rw [Chip.tcUse.eq_def]; done)
  | (rw [Chip.tcUse.eq_def]; with_reducible rfl)

theorem Chip.translate_round (c : Chip) (t : Tag) : (Chip.translate c t).clk.round = c.clk.round := by
  rw [Chip.translate.eq_def]
  first
  | (simp only [↓Chip.cnt_round, ↓Chip.setTag_round, ↓Chip.serveRead_round, ↓Chip.mdcFetch_round, ↓Chip.tcUse_round, Chip.ite_round, ite_self]; done)
  | try dsimp only
    repeat' first
    | with_reducible rfl
    | split
    | simp only [↓Chip.cnt_round, ↓Chip.setTag_round, ↓Chip.serveRead_round, ↓Chip.mdcFetch_round, ↓Chip.tcUse_round]

theorem Chip.beginRead_round (c : Chip) (t : Tag) : (Chip.beginRead c t).clk.round = c.clk.round := by
  rw [Chip.beginRead.eq_def]
  first
  | (simp only [↓Chip.cnt_round, ↓Chip.touchExtent_round, ↓Chip.serveFull_round, ↓Chip.translate_round, Chip.ite_round, ite_self]; done)
  | try dsimp only
    repeat' first
    | with_reducible rfl
    | split
    | simp only [↓Chip.cnt_round, ↓Chip.touchExtent_round, ↓Chip.serveFull_round, ↓Chip.translate_round]

theorem Chip.continueTags_round (c : Chip) (p : Tag → Bool) (f : Chip → Tag → Chip) (hf : ∀ (c : Chip) (t : Tag), (f c t).clk.round = c.clk.round) :
    (c.continueTags p f).clk.round = c.clk.round := by
  unfold Chip.continueTags
  refine Chip.foldl_round _ (fun c t => ?_) _ c
  repeat' split
  · exact hf c _
  · rfl
  · rfl

theorem Chip.setShadow_round (c : Chip) (k : Nat) (e : DirEntry) : (Chip.setShadow c k e).clk.round = c.clk.round := by
  rw [Chip.setShadow.eq_def]
  first
  | (simp only [↓Chip.mdcTouch_round, Chip.ite_round, ite_self]; done)
  | try dsimp only
    repeat' first
    | with_reducible rfl
    | split
    | simp only [↓Chip.mdcTouch_round]

theorem Chip.setDir_round (c : Chip) (line : Nat) (e : DirEntry) : (Chip.setDir c line e).clk.round = c.clk.round := by
  rw [Chip.setDir.eq_def]
  first
  | (simp only [↓Chip.cnt_round, ↓Chip.setShadow_round, Chip.ite_round, ite_self]; done)
  | try dsimp only
    repeat' first
    | with_reducible rfl
    | split
    | simp only [↓Chip.cnt_round, ↓Chip.setShadow_round]

theorem Chip.settle_round (c : Chip) : (Chip.settle c).clk.round = c.clk.round := by
  first
  | (rw [Chip.settle.eq_def]; done)
  | (rw [Chip.settle.eq_def]; with_reducible rfl)

theorem Chip.sendSnoops_round (c : Chip) (line : Nat) (hs : List (Fin 24)) (kind : Nat) : (Chip.sendSnoops c line hs kind).clk.round = c.clk.round := by
  rw [Chip.sendSnoops.eq_def]
  first
  | (simp only [↓Chip.cnt_round, ↓Chip.toHost_round, Chip.ite_round, ite_self]; done)
  | try dsimp only
    repeat' first
    | with_reducible rfl
    | split
    | with_reducible refine (Chip.foldl_round _ (fun c x => ?_) _ _).trans ?_
    | with_reducible refine (Chip.foldl_fst_round _ (fun a x => ?_) _ _).trans ?_
    | simp only [↓Chip.cnt_round, ↓Chip.toHost_round]

theorem Chip.afterOrder_round (c : Chip) (t : Tag) : (Chip.afterOrder c t).clk.round = c.clk.round := by
  rw [Chip.afterOrder.eq_def]
  first
  | (simp only [↓Chip.cnt_round, ↓Chip.setTag_round, ↓Chip.dropTag_round, ↓Chip.respondCmp_round, ↓Chip.completeWrite_round,
        ↓Chip.beginRead_round, Chip.ite_round, ite_self]; done)
  | try dsimp only
    repeat' first
    | with_reducible rfl
    | split
    | simp only [↓Chip.cnt_round, ↓Chip.setTag_round, ↓Chip.dropTag_round, ↓Chip.respondCmp_round, ↓Chip.completeWrite_round,
        ↓Chip.beginRead_round]

theorem Chip.finishAccess_round (c : Chip) (t : Tag) : (Chip.finishAccess c t).clk.round = c.clk.round := by
  rw [Chip.finishAccess.eq_def]
  first
  | (simp only [↓Chip.cnt_round, ↓Chip.wmbWrite_round, ↓Chip.setDir_round, ↓Chip.settle_round, ↓Chip.afterOrder_round, Chip.ite_round, ite_self]; done)
  | try dsimp only
    repeat' first
    | with_reducible rfl
    | split
    | simp only [↓Chip.cnt_round, ↓Chip.wmbWrite_round, ↓Chip.setDir_round, ↓Chip.settle_round, ↓Chip.afterOrder_round]

theorem Chip.actAccess_round (c : Chip) (t : Tag) : (Chip.actAccess c t).clk.round = c.clk.round := by
  rw [Chip.actAccess.eq_def]
  first
  | (simp only [↓Chip.setTag_round, ↓Chip.sendSnoops_round, ↓Chip.finishAccess_round, Chip.ite_round, ite_self]; done)
  | try dsimp only
    repeat' first
    | with_reducible rfl
    | split
    | simp only [↓Chip.setTag_round, ↓Chip.sendSnoops_round, ↓Chip.finishAccess_round]

theorem Chip.pumpOrdered_round (n : Nat) : ∀ c : Chip, (c.pumpOrdered n).clk.round = c.clk.round := by
  induction n with
  | zero => exact fun c => rfl
  | succ n ih =>
    intro c
    unfold Chip.pumpOrdered
    dsimp only
    split
    · refine Chip.foldl_round _ (fun c x => ?_) _ c
      split
      · exact Chip.actAccess_round c _
      · rfl
    · rw [ih]
      refine Chip.foldl_round _ (fun c x => ?_) _ c
      split
      · exact Chip.actAccess_round c _
      · rfl

theorem Chip.orderHere_round (c : Chip) (t : Tag) : (Chip.orderHere c t).clk.round = c.clk.round := by
  rw [Chip.orderHere.eq_def]
  try dsimp only
  repeat' first
    | with_reducible rfl
    | split

theorem Chip.evictEntry_round (c : Chip) (line : Nat) : (Chip.evictEntry c line).clk.round = c.clk.round := by
  rw [Chip.evictEntry.eq_def]
  first
  | (simp only [↓Chip.cnt_round, ↓Chip.raise_round, ↓Chip.setDir_round, ↓Chip.sendSnoops_round]; done)
  | with_reducible rfl

theorem Chip.makeRoom_round (c : Chip) (t : Tag) {c' : Chip} (h : c.makeRoom t = some c') : c'.clk.round = c.clk.round := by
  unfold Chip.makeRoom at h
  dsimp only at h
  repeat' split at h
  all_goals first
    | (cases h; done)
    | (cases h; rfl)
    | (cases h; simp only [↓Chip.post_round, ↓Chip.evictEntry_round])

theorem Chip.orderAccess_round (c : Chip) (t : Tag) : (Chip.orderAccess c t).clk.round = c.clk.round := by
  rw [Chip.orderAccess.eq_def]
  first
  | (simp only [↓Chip.cnt_round, ↓Chip.post_round, ↓Chip.setTag_round, ↓Chip.orderHere_round, Chip.ite_round, ite_self]; done)
  | try dsimp only
    repeat' first
    | with_reducible rfl
    | split
    | with_reducible exact Chip.makeRoom_round _ _ (by assumption)
    | with_reducible refine Eq.trans ?_ (Chip.makeRoom_round _ _ (by assumption))
    | simp only [↓Chip.cnt_round, ↓Chip.post_round, ↓Chip.setTag_round, ↓Chip.orderHere_round]

theorem Chip.orderWaiting_round (c : Chip) : (Chip.orderWaiting c).clk.round = c.clk.round := by
  rw [Chip.orderWaiting.eq_def]
  first
  | (simp only [↓Chip.orderAccess_round, Chip.ite_round, ite_self]; done)
  | try dsimp only
    repeat' first
    | with_reducible rfl
    | split
    | with_reducible refine (Chip.foldl_round _ (fun c x => ?_) _ _).trans ?_
    | with_reducible refine (Chip.foldl_fst_round _ (fun a x => ?_) _ _).trans ?_
    | simp only [↓Chip.orderAccess_round]

theorem Chip.runCommons_round (c : Chip) : (Chip.runCommons c).clk.round = c.clk.round := by
  rw [Chip.runCommons.eq_def]
  first
  | (simp only [↓Chip.pumpOrdered_round, ↓Chip.orderWaiting_round]; done)
  | with_reducible rfl

theorem Chip.mapRoute_round (c : Chip) (r : Nat) (f : RouteSlot → RouteSlot) : (Chip.mapRoute c r f).clk.round = c.clk.round := by
  first
  | (rw [Chip.mapRoute.eq_def]; done)
  | (rw [Chip.mapRoute.eq_def]; with_reducible rfl)

theorem Chip.countSlip_round (c : Chip) (r entry round late : Nat) (unarrived : Bool) : (Chip.countSlip c r entry round late unarrived).clk.round = c.clk.round := by
  rw [Chip.countSlip.eq_def]
  first
  | (simp only [↓Chip.put_round, ↓Chip.cnt_round, ↓Chip.peak_round, Chip.ite_round, ite_self]; done)
  | try dsimp only
    repeat' first
    | with_reducible rfl
    | split
    | simp only [↓Chip.put_round, ↓Chip.cnt_round, ↓Chip.peak_round]

theorem Chip.closeSlip_round (c : Chip) (r : Nat) (unarrived : Bool) : (Chip.closeSlip c r unarrived).clk.round = c.clk.round := by
  rw [Chip.closeSlip.eq_def]
  first
  | (simp only [↓Chip.postEffect_round, ↓Chip.mapRoute_round, ↓Chip.countSlip_round, Chip.ite_round, ite_self]; done)
  | try dsimp only
    repeat' first
    | with_reducible rfl
    | split
    | simp only [↓Chip.postEffect_round, ↓Chip.mapRoute_round, ↓Chip.countSlip_round]

theorem Chip.checkEnd_round (c : Chip) (r : Nat) : (Chip.checkEnd c r).clk.round = c.clk.round := by
  rw [Chip.checkEnd.eq_def]
  first
  | (simp only [↓Chip.raise_round, ↓Chip.mapRoute_round, Chip.ite_round, ite_self]; done)
  | try dsimp only
    repeat' first
    | with_reducible rfl
    | split
    | simp only [↓Chip.raise_round, ↓Chip.mapRoute_round]

theorem Chip.routeMeet_round (e n : Nat) (c : Chip) (r : Nat) : (Chip.routeMeet e n c r).clk.round = c.clk.round := by
  rw [Chip.routeMeet.eq_def]
  first
  | (simp only [↓Chip.cnt_round, ↓Chip.mapRoute_round, ↓Chip.closeSlip_round, ↓Chip.checkEnd_round, Chip.ite_round, ite_self]; done)
  | try dsimp only
    repeat' first
    | with_reducible rfl
    | split
    | simp only [↓Chip.cnt_round, ↓Chip.mapRoute_round, ↓Chip.closeSlip_round, ↓Chip.checkEnd_round]

theorem Chip.routeSee_round (c : Chip) (dpa : Nat) : (Chip.routeSee c dpa).clk.round = c.clk.round := by
  rw [Chip.routeSee.eq_def]
  first
  | (simp only [↓Chip.routeMeet_round, Chip.ite_round, ite_self]; done)
  | try dsimp only
    repeat' first
    | with_reducible rfl
    | split
    | with_reducible refine (Chip.foldl_round _ (fun c x => ?_) _ _).trans ?_
    | with_reducible refine (Chip.foldl_fst_round _ (fun a x => ?_) _ _).trans ?_
    | simp only [↓Chip.routeMeet_round]

theorem Chip.withdraw_round (c : Chip) (es : List Nat) : (Chip.withdraw c es).clk.round = c.clk.round := by
  first
  | (rw [Chip.withdraw.eq_def]; done)
  | (rw [Chip.withdraw.eq_def]; with_reducible rfl)

theorem Chip.openSlip_round (c : Chip) (r : Nat) : (Chip.openSlip c r).clk.round = c.clk.round := by
  rw [Chip.openSlip.eq_def]
  first
  | (simp only [↓Chip.cnt_round, ↓Chip.postEffect_round, ↓Chip.raise_round, ↓Chip.mapRoute_round, Chip.ite_round, ite_self]; done)
  | try dsimp only
    repeat' first
    | with_reducible rfl
    | split
    | simp only [↓Chip.cnt_round, ↓Chip.postEffect_round, ↓Chip.raise_round, ↓Chip.mapRoute_round]

theorem Chip.postRuns_round (c : Chip) (r : Nat) (es : List Nat) (on : Bool) : (Chip.postRuns c r es on).clk.round = c.clk.round := by
  rw [Chip.postRuns.eq_def]
  first
  | (simp only [↓Chip.postEffect_round, Chip.ite_round, ite_self]; done)
  | try dsimp only
    repeat' first
    | with_reducible rfl
    | split
    | with_reducible refine (Chip.foldl_round _ (fun c x => ?_) _ _).trans ?_
    | with_reducible refine (Chip.foldl_fst_round _ (fun a x => ?_) _ _).trans ?_
    | simp only [↓Chip.postEffect_round]

theorem Chip.releaseWindow_round (c : Chip) (r : Nat) (gone passed : List Nat) : (Chip.releaseWindow c r gone passed).clk.round = c.clk.round := by
  rw [Chip.releaseWindow.eq_def]
  first
  | (simp only [↓Chip.cnt_round, ↓Chip.queueMig_round, ↓Chip.withdraw_round, ↓Chip.postRuns_round, Chip.ite_round, ite_self]; done)
  | try dsimp only
    repeat' first
    | with_reducible rfl
    | split
    | with_reducible refine (Chip.foldl_round _ (fun c x => ?_) _ _).trans ?_
    | with_reducible refine (Chip.foldl_fst_round _ (fun a x => ?_) _ _).trans ?_
    | simp only [↓Chip.cnt_round, ↓Chip.queueMig_round, ↓Chip.withdraw_round, ↓Chip.postRuns_round]

theorem Chip.growWindow_round (c : Chip) (r : Nat) (want : List Nat) : (Chip.growWindow c r want).clk.round = c.clk.round := by
  rw [Chip.growWindow.eq_def]
  first
  | (simp only [↓Chip.cnt_round, ↓Chip.raise_round, ↓Chip.postRuns_round, Chip.ite_round, ite_self]; done)
  | try dsimp only
    repeat' first
    | with_reducible rfl
    | split
    | with_reducible refine (Chip.foldl_round _ (fun c x => ?_) _ _).trans ?_
    | with_reducible refine (Chip.foldl_fst_round _ (fun a x => ?_) _ _).trans ?_
    | simp only [↓Chip.cnt_round, ↓Chip.raise_round, ↓Chip.postRuns_round]

theorem Chip.promoteWindow_round (c : Chip) (r : Nat) (want : List Nat) : (Chip.promoteWindow c r want).clk.round = c.clk.round := by
  rw [Chip.promoteWindow.eq_def]
  first
  | (simp only [↓Chip.cnt_round, ↓Chip.queueMig_round, Chip.ite_round, ite_self]; done)
  | try dsimp only
    repeat' first
    | with_reducible rfl
    | split
    | with_reducible refine (Chip.foldl_round _ (fun c x => ?_) _ _).trans ?_
    | with_reducible refine (Chip.foldl_fst_round _ (fun a x => ?_) _ _).trans ?_
    | simp only [↓Chip.cnt_round, ↓Chip.queueMig_round]

theorem Chip.advanceRoute_round (c : Chip) (r : Nat) : (Chip.advanceRoute c r).clk.round = c.clk.round := by
  rw [Chip.advanceRoute.eq_def]
  first
  | (simp only [↓Chip.postEffect_round, ↓Chip.mapRoute_round, ↓Chip.closeSlip_round, ↓Chip.openSlip_round, ↓Chip.releaseWindow_round,
        ↓Chip.growWindow_round, ↓Chip.promoteWindow_round, Chip.ite_round, ite_self]; done)
  | try dsimp only
    repeat' first
    | with_reducible rfl
    | split
    | simp only [↓Chip.postEffect_round, ↓Chip.mapRoute_round, ↓Chip.closeSlip_round, ↓Chip.openSlip_round, ↓Chip.releaseWindow_round,
        ↓Chip.growWindow_round, ↓Chip.promoteWindow_round]

theorem Chip.routeJob_round (c : Chip) : (Chip.routeJob c).clk.round = c.clk.round := by
  rw [Chip.routeJob.eq_def]
  first
  | (simp only [↓Chip.mapRoute_round, ↓Chip.advanceRoute_round, Chip.ite_round, ite_self]; done)
  | try dsimp only
    repeat' first
    | with_reducible rfl
    | split
    | with_reducible refine (Chip.foldl_round _ (fun c x => ?_) _ _).trans ?_
    | with_reducible refine (Chip.foldl_fst_round _ (fun a x => ?_) _ _).trans ?_
    | simp only [↓Chip.mapRoute_round, ↓Chip.advanceRoute_round]

theorem Chip.enterCommons_round (c : Chip) (t : Tag) : (Chip.enterCommons c t).clk.round = c.clk.round := by
  rw [Chip.enterCommons.eq_def]
  first
  | (simp only [↓Chip.cnt_round, ↓Chip.wmbWrite_round, ↓Chip.completeWrite_round, ↓Chip.setDir_round, ↓Chip.runCommons_round, Chip.ite_round, ite_self]; done)
  | try dsimp only
    repeat' first
    | with_reducible rfl
    | split
    | simp only [↓Chip.cnt_round, ↓Chip.wmbWrite_round, ↓Chip.completeWrite_round, ↓Chip.setDir_round, ↓Chip.runCommons_round]

theorem Chip.showRoutes_round (c : Chip) (r : Request) (dpa : Nat) : (Chip.showRoutes c r dpa).clk.round = c.clk.round := by
  rw [Chip.showRoutes.eq_def]
  first
  | (simp only [↓Chip.routeSee_round, Chip.ite_round, ite_self]; done)
  | try dsimp only
    repeat' first
    | with_reducible rfl
    | split
    | simp only [↓Chip.routeSee_round]

theorem Chip.pauseCopy_round (c : Chip) (dpa : Nat) : (Chip.pauseCopy c dpa).clk.round = c.clk.round := by
  rw [Chip.pauseCopy.eq_def]
  first
  | (simp only [↓Chip.setWmb_round, ↓Chip.releaseHere_round, Chip.ite_round, ite_self]; done)
  | try dsimp only
    repeat' first
    | with_reducible rfl
    | split
    | with_reducible refine (Chip.foldl_round _ (fun c x => ?_) _ _).trans ?_
    | with_reducible refine (Chip.foldl_fst_round _ (fun a x => ?_) _ _).trans ?_
    | simp only [↓Chip.setWmb_round, ↓Chip.releaseHere_round]

theorem Chip.carbonUse_round (c : Chip) (r : Request) : (Chip.carbonUse c r).clk.round = c.clk.round := by
  rw [Chip.carbonUse.eq_def]
  first
  | (simp only [↓Chip.touchExtent_round, ↓Chip.wmbWrite_round, ↓Chip.sendWriteWm_round, ↓Chip.earnHit_round, ↓Chip.enterCommons_round,
        ↓Chip.showRoutes_round, ↓Chip.pauseCopy_round, Chip.ite_round, ite_self]; done)
  | try dsimp only
    repeat' first
    | with_reducible rfl
    | split
    | simp only [↓Chip.touchExtent_round, ↓Chip.wmbWrite_round, ↓Chip.sendWriteWm_round, ↓Chip.earnHit_round, ↓Chip.enterCommons_round,
        ↓Chip.showRoutes_round, ↓Chip.pauseCopy_round]

theorem Chip.carbonPump_round (h : Fin 24) (n : Nat) : ∀ c : Chip, (c.carbonPump h n).clk.round = c.clk.round := by
  induction n with
  | zero => exact fun c => rfl
  | succ n ih =>
    intro c
    unfold Chip.carbonPump
    repeat' split
    all_goals first
      | rfl
      | simp only [↓ih, ↓Chip.carbonUse_round, ↓Chip.mapHead_round]

theorem Chip.settleChannels_round (c : Chip) : (Chip.settleChannels c).clk.round = c.clk.round := by
  rw [Chip.settleChannels.eq_def]
  first
  | (simp only [↓Chip.settleClient_round, Chip.ite_round, ite_self]; done)
  | try dsimp only
    repeat' first
    | with_reducible rfl
    | split
    | with_reducible refine (Chip.foldl_round _ (fun c x => ?_) _ _).trans ?_
    | with_reducible refine (Chip.foldl_fst_round _ (fun a x => ?_) _ _).trans ?_
    | simp only [↓Chip.settleClient_round]

theorem Chip.setRow_round (c : Chip) (r : Nat) (x : MdeRow) : (Chip.setRow c r x).clk.round = c.clk.round := by
  first
  | (rw [Chip.setRow.eq_def]; done)
  | (rw [Chip.setRow.eq_def]; with_reducible rfl)

theorem Chip.openRow_round (c : Chip) (r stream : Nat) : (Chip.openRow c r stream).clk.round = c.clk.round := by
  rw [Chip.openRow.eq_def]
  first
  | (simp only [↓Chip.cnt_round, ↓Chip.setRow_round, Chip.ite_round, ite_self]; done)
  | try dsimp only
    repeat' first
    | with_reducible rfl
    | split
    | simp only [↓Chip.cnt_round, ↓Chip.setRow_round]

theorem Chip.mergeGroup_round (c : Chip) (u old new : Nat) : (Chip.mergeGroup c u old new).clk.round = c.clk.round := by
  rw [Chip.mergeGroup.eq_def]
  try dsimp only
  repeat' first
    | with_reducible rfl
    | split
    | with_reducible refine (Chip.foldl_round _ (fun c x => ?_) _ _).trans ?_
    | with_reducible refine (Chip.foldl_fst_round _ (fun a x => ?_) _ _).trans ?_

theorem Chip.openGroup_round (c : Chip) (u : Nat) : (Chip.openGroup c u).clk.round = c.clk.round := by
  rw [Chip.openGroup.eq_def]
  first
  | (simp only [↓Chip.mergeGroup_round, Chip.ite_round, ite_self]; done)
  | try dsimp only
    repeat' first
    | with_reducible rfl
    | split
    | simp only [↓Chip.mergeGroup_round]

theorem Chip.closeRow_round (c : Chip) (r : Nat) : (Chip.closeRow c r).clk.round = c.clk.round := by
  rw [Chip.closeRow.eq_def]
  first
  | (simp only [↓Chip.setRow_round, ↓Chip.openGroup_round, Chip.ite_round, ite_self]; done)
  | try dsimp only
    repeat' first
    | with_reducible rfl
    | split
    | simp only [↓Chip.setRow_round, ↓Chip.openGroup_round]

theorem Chip.roomFor_round (c : Chip) (stream cells : Nat) {r : Chip × Nat} (h : c.roomFor stream cells = some r) :
    r.1.clk.round = c.clk.round := by
  unfold Chip.roomFor at h
  dsimp only at h
  split at h
  · cases h
    rfl
  · simp only [Option.map_eq_some_iff] at h
    obtain ⟨x, _, rfl⟩ := h
    rw [Chip.openRow_round]
    repeat' split
    all_goals first
      | rfl
      | exact Chip.closeRow_round _ _

theorem Chip.forget_round (c : Chip) (x : ParcelEntry) : (Chip.forget c x).clk.round = c.clk.round := by
  rw [Chip.forget.eq_def]
  first
  | (simp only [↓Chip.setRow_round, Chip.ite_round, ite_self]; done)
  | try dsimp only
    repeat' first
    | with_reducible rfl
    | split
    | simp only [↓Chip.setRow_round]

theorem Chip.cancelMove_round (c : Chip) (p : Nat) : (Chip.cancelMove c p).clk.round = c.clk.round := by
  rw [Chip.cancelMove.eq_def]
  first
  | (simp only [↓Chip.cnt_round, Chip.ite_round, ite_self]; done)
  | try dsimp only
    repeat' first
    | with_reducible rfl
    | split
    | simp only [↓Chip.cnt_round]

theorem Chip.stageCopy_round (c : Chip) (p plen stream : Nat) {r : Chip × Nat} (h : c.stageCopy p plen stream = some r) :
    r.1.clk.round = c.clk.round := by
  unfold Chip.stageCopy at h
  dsimp only at h
  split at h
  · cases h
  · split at h
    · cases h
    · rename_i x hx
      cases h
      simp only [↓Chip.cnt_round, ↓Chip.setRow_round, ↓Chip.oweBlock_round]
      exact Chip.roomFor_round c _ _ hx

theorem Chip.writeCopy_round (c : Chip) (p stream : Nat) (bytes : List Host.Cell) (poison : List Nat) {c' : Chip}
    (hc : c.writeCopy p stream bytes poison = some c') : c'.clk.round = c.clk.round := by
  have hr : ∀ (x : Chip) (o : ParcelEntry) (a b : Nat), (((x.forget o).recordCopy p a b bytes poison).cancelMove p).clk.round = x.clk.round := by
    intro x o a b
    rw [Chip.cancelMove_round, Chip.recordCopy_round, Chip.forget_round]
  unfold Chip.writeCopy at hc
  simp only [] at hc
  split at hc
  · cases hc
    exact hr _ _ _ _
  · split at hc
    · cases hc
    · rename_i y hy
      have hd := Chip.stageCopy_round c _ _ _ hy
      cases hc
      split
      · rw [Chip.cnt_round, Chip.cnt_round, Chip.cnt_round]
        exact (hr _ _ _ _).trans hd
      · rw [Chip.cnt_round, Chip.cnt_round]
        exact (hr _ _ _ _).trans hd

theorem Chip.relocate_round (c : Chip) (p stream : Nat) {c' : Chip} (h : c.relocate p stream = some c') : c'.clk.round = c.clk.round := by
  unfold Chip.relocate at h
  dsimp only at h
  split at h
  · cases h
    rfl
  · split at h
    · cases h
    · rename_i hx
      cases h
      rw [Chip.setParcel_round, Chip.forget_round]
      exact Chip.stageCopy_round c _ _ _ hx

theorem Chip.readPatch_round (c : Chip) (ls : List Nat) : (Chip.readPatch c ls).clk.round = c.clk.round := by
  rw [Chip.readPatch.eq_def]
  first
  | (simp only [↓Chip.oweLines_round, Chip.ite_round, ite_self]; done)
  | try dsimp only
    repeat' first
    | with_reducible rfl
    | split
    | with_reducible refine (Chip.foldl_round _ (fun c x => ?_) _ _).trans ?_
    | with_reducible refine (Chip.foldl_fst_round _ (fun a x => ?_) _ _).trans ?_
    | simp only [↓Chip.oweLines_round]

theorem Chip.mergePatch_round (c : Chip) (p : Nat) {c' : Chip} (hc : c.mergePatch p = some c') : c'.clk.round = c.clk.round := by
  unfold Chip.mergePatch at hc
  extract_lets ls at hc
  split at hc
  · cases hc
  · rename_i y hy
    cases hc
    rw [Chip.cnt_round, Chip.cnt_round, Chip.dropPatch_round, Chip.writeCopy_round _ _ _ _ _ hy, Chip.readPatch_round]

theorem Chip.queueMerge_round (c : Chip) (p : Nat) : (Chip.queueMerge c p).clk.round = c.clk.round := by
  rw [Chip.queueMerge.eq_def]
  try dsimp only
  repeat' first
    | with_reducible rfl
    | split

theorem Chip.queueRow_round (c : Chip) (r cls : Nat) : (Chip.queueRow c r cls).clk.round = c.clk.round := by
  rw [Chip.queueRow.eq_def]
  first
  | (simp only [↓Chip.setRow_round, Chip.ite_round, ite_self]; done)
  | try dsimp only
    repeat' first
    | with_reducible rfl
    | split
    | simp only [↓Chip.setRow_round]

theorem Chip.moveRow_round (c : Chip) (r stream victim : Nat) : (Chip.moveRow c r stream victim).clk.round = c.clk.round := by
  rw [Chip.moveRow.eq_def]
  first
  | (simp only [↓Chip.setRow_round]; done)
  | with_reducible rfl

theorem Chip.updateThresholds_round (c : Chip) : (Chip.updateThresholds c).clk.round = c.clk.round := by
  rw [Chip.updateThresholds.eq_def]
  first
  | (simp only [↓Chip.cnt_round, Chip.ite_round, ite_self]; done)
  | try dsimp only
    repeat' first
    | with_reducible rfl
    | split
    | with_reducible refine (Chip.foldl_round _ (fun c x => ?_) _ _).trans ?_
    | with_reducible refine (Chip.foldl_fst_round _ (fun a x => ?_) _ _).trans ?_
    | simp only [↓Chip.cnt_round]

theorem Chip.markBlock_round (c : Chip) (r k : Nat) : (Chip.markBlock c r k).clk.round = c.clk.round := by
  rw [Chip.markBlock.eq_def]
  try dsimp only
  repeat' first
    | with_reducible rfl
    | split

theorem Chip.startOp_round (c : Chip) (o : BusyOp) : (Chip.startOp c o).clk.round = c.clk.round := by
  rw [Chip.startOp.eq_def]
  try dsimp only
  repeat' first
    | with_reducible rfl
    | split

theorem Chip.startOps_round (c : Chip) : (Chip.startOps c).clk.round = c.clk.round := by
  rw [Chip.startOps.eq_def]
  first
  | (simp only [↓Chip.startOp_round, Chip.ite_round, ite_self]; done)
  | try dsimp only
    repeat' first
    | with_reducible rfl
    | split
    | with_reducible refine (Chip.foldl_round _ (fun c x => ?_) _ _).trans ?_
    | with_reducible refine (Chip.foldl_fst_round _ (fun a x => ?_) _ _).trans ?_
    | simp only [↓Chip.startOp_round]

theorem Chip.mergeRead_round (c : Chip) (p : Nat) : (Chip.mergeRead c p).clk.round = c.clk.round := by
  unfold Chip.mergeRead
  extract_lets s d
  split
  · rename_i e he
    exact Chip.mergePatch_round d p he
  · rfl

theorem Chip.announce_round (c : Chip) (e : Effect) : (Chip.announce c e).clk.round = c.clk.round := by
  rw [Chip.announce.eq_def]
  first
  | (simp only [↓Chip.postEffect_round]; done)
  | with_reducible rfl

theorem Chip.deferEviction_round (c : Chip) (e : Nat) : (Chip.deferEviction c e).clk.round = c.clk.round := by
  rw [Chip.deferEviction.eq_def]
  first
  | (simp only [↓Chip.cnt_round, ↓Chip.raise_round, ↓Chip.announce_round, Chip.ite_round, ite_self]; done)
  | try dsimp only
    repeat' first
    | with_reducible rfl
    | split
    | simp only [↓Chip.cnt_round, ↓Chip.raise_round, ↓Chip.announce_round]

theorem Chip.decideFirst_round (c : Chip) : (Chip.decideFirst c).clk.round = c.clk.round := by
  rw [Chip.decideFirst.eq_def]
  first
  | (simp only [↓Chip.announce_round, Chip.ite_round, ite_self]; done)
  | try dsimp only
    repeat' first
    | with_reducible rfl
    | split
    | with_reducible refine (Chip.foldl_round _ (fun c x => ?_) _ _).trans ?_
    | with_reducible refine (Chip.foldl_fst_round _ (fun a x => ?_) _ _).trans ?_
    | simp only [↓Chip.announce_round]

theorem Chip.sweep_round (n : Nat) : ∀ c : Chip, (c.sweep n).clk.round = c.clk.round := by
  induction n with
  | zero => exact fun c => rfl
  | succ n ih =>
    intro c
    unfold Chip.sweep
    split
    · rfl
    · split
      · rw [ih, Chip.queueMig_round]
      · rw [Chip.raise_round, Chip.cnt_round]

theorem Chip.tryStart_round (c : Chip) (m : Mig) : (Chip.tryStart c m).clk.round = c.clk.round := by
  rw [Chip.tryStart.eq_def]
  first
  | (simp only [↓Chip.queueMig_round, ↓Chip.announce_round, ↓Chip.deferEviction_round, Chip.ite_round, ite_self]; done)
  | try dsimp only
    repeat' first
    | with_reducible rfl
    | split
    | simp only [↓Chip.queueMig_round, ↓Chip.announce_round, ↓Chip.deferEviction_round]

theorem Chip.fillSlots_round (c : Chip) : (Chip.fillSlots c).clk.round = c.clk.round := by
  rw [Chip.fillSlots.eq_def]
  first
  | (simp only [↓Chip.tryStart_round, Chip.ite_round, ite_self]; done)
  | try dsimp only
    repeat' first
    | with_reducible rfl
    | split
    | with_reducible refine (Chip.foldl_round _ (fun c x => ?_) _ _).trans ?_
    | with_reducible refine (Chip.foldl_fst_round _ (fun a x => ?_) _ _).trans ?_
    | simp only [↓Chip.tryStart_round]

theorem Chip.noteBlocked_round (c : Chip) : (Chip.noteBlocked c).clk.round = c.clk.round := by
  rw [Chip.noteBlocked.eq_def]
  first
  | (simp only [↓Chip.cnt_round, ↓Chip.raise_round, Chip.ite_round, ite_self]; done)
  | try dsimp only
    repeat' first
    | with_reducible rfl
    | split
    | simp only [↓Chip.cnt_round, ↓Chip.raise_round]

theorem Chip.commitDone_round (c : Chip) : (Chip.commitDone c).clk.round = c.clk.round := by
  rw [Chip.commitDone.eq_def]
  first
  | (simp only [↓Chip.announce_round, Chip.ite_round, ite_self]; done)
  | try dsimp only
    repeat' first
    | with_reducible rfl
    | split
    | with_reducible refine (Chip.foldl_round _ (fun c x => ?_) _ _).trans ?_
    | with_reducible refine (Chip.foldl_fst_round _ (fun a x => ?_) _ _).trans ?_
    | simp only [↓Chip.announce_round]

theorem Chip.earnRate_round (c : Chip) : (Chip.earnRate c).clk.round = c.clk.round := by
  first
  | (rw [Chip.earnRate.eq_def]; done)
  | (rw [Chip.earnRate.eq_def]; with_reducible rfl)

theorem Chip.stepOwes_round (c : Chip) (p : Nat) : (Chip.stepOwes c p).clk.round = c.clk.round := by
  rw [Chip.stepOwes.eq_def]
  first
  | (simp only [↓Chip.oweBlock_round, Chip.ite_round, ite_self]; done)
  | try dsimp only
    repeat' first
    | with_reducible rfl
    | split
    | simp only [↓Chip.oweBlock_round]

theorem Chip.issueStep_round (a : Chip × Nat) (p : Nat) : (Chip.issueStep a p).1.clk.round = a.1.clk.round := by
  rw [Chip.issueStep.eq_def]
  first
  | (simp only [↓Chip.stepOwes_round, Chip.ite_round, ite_self]; done)
  | try dsimp only
    repeat' first
    | with_reducible rfl
    | split
    | simp only [↓Chip.stepOwes_round]

theorem Chip.issueSteps_round (c : Chip) : (Chip.issueSteps c).clk.round = c.clk.round := by
  rw [Chip.issueSteps.eq_def]
  first
  | (simp only [↓Chip.cnt_round, ↓Chip.earnRate_round, ↓Chip.issueStep_round, Chip.ite_round, ite_self]; done)
  | try dsimp only
    repeat' first
    | with_reducible rfl
    | split
    | with_reducible refine (Chip.foldl_round _ (fun c x => ?_) _ _).trans ?_
    | with_reducible refine (Chip.foldl_fst_round _ (fun a x => ?_) _ _).trans ?_
    | simp only [↓Chip.cnt_round, ↓Chip.earnRate_round, ↓Chip.issueStep_round]

theorem Chip.giveFrames_round (c : Chip) : (Chip.giveFrames c).clk.round = c.clk.round := by
  rw [Chip.giveFrames.eq_def]
  first
  | (simp only [↓Chip.takeFrame_round, Chip.ite_round, ite_self]; done)
  | try dsimp only
    repeat' first
    | with_reducible rfl
    | split
    | with_reducible refine (Chip.foldl_round _ (fun c x => ?_) _ _).trans ?_
    | with_reducible refine (Chip.foldl_fst_round _ (fun a x => ?_) _ _).trans ?_
    | simp only [↓Chip.takeFrame_round]

theorem Chip.keeperDecides_round (c : Chip) : (Chip.keeperDecides c).clk.round = c.clk.round := by
  rw [Chip.keeperDecides.eq_def]
  first
  | (simp only [↓Chip.decideFirst_round, ↓Chip.commitDone_round, Chip.ite_round, ite_self]; done)
  | try dsimp only
    repeat' first
    | with_reducible rfl
    | split
    | simp only [↓Chip.decideFirst_round, ↓Chip.commitDone_round]

theorem Chip.keeperFills_round (c : Chip) : (Chip.keeperFills c).clk.round = c.clk.round := by
  rw [Chip.keeperFills.eq_def]
  first
  | (simp only [↓Chip.fillSlots_round, ↓Chip.noteBlocked_round, Chip.ite_round, ite_self]; done)
  | try dsimp only
    repeat' first
    | with_reducible rfl
    | split
    | simp only [↓Chip.fillSlots_round, ↓Chip.noteBlocked_round]

theorem Chip.notePoolLow_round (c : Chip) : (Chip.notePoolLow c).clk.round = c.clk.round := by
  rw [Chip.notePoolLow.eq_def]
  first
  | (simp only [↓Chip.raise_round, Chip.ite_round, ite_self]; done)
  | try dsimp only
    repeat' first
    | with_reducible rfl
    | split
    | simp only [↓Chip.raise_round]

theorem Chip.sweepIfLow_round (c : Chip) : (Chip.sweepIfLow c).clk.round = c.clk.round := by
  rw [Chip.sweepIfLow.eq_def]
  first
  | (simp only [↓Chip.sweep_round, Chip.ite_round, ite_self]; done)
  | try dsimp only
    repeat' first
    | with_reducible rfl
    | split
    | simp only [↓Chip.sweep_round]

theorem Chip.noteOverCap_round (c : Chip) : (Chip.noteOverCap c).clk.round = c.clk.round := by
  rw [Chip.noteOverCap.eq_def]
  first
  | (simp only [↓Chip.raise_round, Chip.ite_round, ite_self]; done)
  | try dsimp only
    repeat' first
    | with_reducible rfl
    | split
    | with_reducible refine (Chip.foldl_round _ (fun c x => ?_) _ _).trans ?_
    | with_reducible refine (Chip.foldl_fst_round _ (fun a x => ?_) _ _).trans ?_
    | simp only [↓Chip.raise_round]

theorem Chip.migJob_round (c : Chip) : (Chip.migJob c).clk.round = c.clk.round := by
  rw [Chip.migJob.eq_def]
  first
  | (simp only [↓Chip.issueSteps_round, ↓Chip.giveFrames_round, ↓Chip.keeperDecides_round, ↓Chip.keeperFills_round,
      ↓Chip.notePoolLow_round, ↓Chip.sweepIfLow_round, ↓Chip.noteOverCap_round]; done)
  | with_reducible rfl

theorem Chip.mapRing_round (c : Chip) (q : Nat) (f : Ring → Ring) : (Chip.mapRing c q f).clk.round = c.clk.round := by
  first
  | (rw [Chip.mapRing.eq_def]; done)
  | (rw [Chip.mapRing.eq_def]; with_reducible rfl)

theorem Chip.ringFinish_round (c : Chip) (x : RingEnd) (recSeq : Option Nat) : (Chip.ringFinish c x recSeq).clk.round = c.clk.round := by
  rw [Chip.ringFinish.eq_def]
  first
  | (simp only [↓Chip.mapRing_round, Chip.ite_round, ite_self]; done)
  | try dsimp only
    repeat' first
    | with_reducible rfl
    | split
    | simp only [↓Chip.mapRing_round]

theorem Chip.ringReport_round (c : Chip) (q : Fin 64) (idx status result : Nat) (e : Effect) (gated : Bool) : (Chip.ringReport c q idx status result e gated).clk.round = c.clk.round := by
  rw [Chip.ringReport.eq_def]
  first
  | (simp only [↓Chip.postEffect_round, ↓Chip.ringFinish_round, Chip.ite_round, ite_self]; done)
  | try dsimp only
    repeat' first
    | with_reducible rfl
    | split
    | simp only [↓Chip.postEffect_round, ↓Chip.ringFinish_round]

theorem Chip.commandEnd_round (c : Chip) (q : Fin 64) (idx status result : Nat) : (Chip.commandEnd c q idx status result).clk.round = c.clk.round := by
  rw [Chip.commandEnd.eq_def]
  first
  | (simp only [↓Chip.postEffect_round, ↓Chip.ringReport_round, Chip.ite_round, ite_self]; done)
  | try dsimp only
    repeat' first
    | with_reducible rfl
    | split
    | simp only [↓Chip.postEffect_round, ↓Chip.ringReport_round]

theorem Chip.retireFrame_round (c : Chip) (f : Nat) {c' : Chip} (h : c.retireFrame f = some c') : c'.clk.round = c.clk.round := by
  unfold Chip.retireFrame at h
  dsimp only at h
  split at h
  · cases h
    rfl
  · simp only [Option.map_eq_some_iff] at h
    obtain ⟨x, hx, rfl⟩ := h
    rw [Chip.drew_round, Chip.dlo_round, Chip.put_round]
    refine (Chip.foldl_bind_round _ (fun c e c' hc => ?_) _ _ hx).trans rfl
    simp only [Option.map_eq_some_iff] at hc
    obtain ⟨g, _, rfl⟩ := hc
    rw [Chip.tcInvalidate_round, Chip.mapExt_round]

theorem Chip.retireFrames_eq_round (c : Chip) (fs : List Nat) {r : Chip × Option Nat} (h : c.retireFrames fs = r) : r.1.clk.round = c.clk.round := by
  unfold Chip.retireFrames at h
  simp only [] at h
  split at h
  · subst h
    rfl
  · split at h
    · rename_i c' hc
      subst h
      exact Chip.foldl_bind_round _ (fun c f c' hc => Chip.retireFrame_round c f hc) _ c hc
    · subst h
      rfl

theorem Chip.retireFrames_round (c : Chip) (fs : List Nat) : (c.retireFrames fs).1.clk.round = c.clk.round := Chip.retireFrames_eq_round c fs rfl

theorem Chip.framesResult_fst_round (y : Chip × Option Nat) (res : Nat) : (framesResult y res).1 = y.1 := rfl

theorem Chip.retireFrameJob_round (c : Chip) (address : Nat) : (c.retireFrameJob address).1.clk.round = c.clk.round := by
  rw [Chip.retireFrameJob]
  generalize c.frameAt address = o
  cases o with
  | none => rfl
  | some f => rw [Option.elim_some, Chip.framesResult_fst_round, Chip.retireFrames_round]

theorem Chip.retireRowFrames_round (c : Chip) (p : DramPlace) : (c.retireRowFrames p).1.clk.round = c.clk.round := by
  rw [Chip.retireRowFrames, Chip.framesResult_fst_round, Chip.retireFrames_round]

theorem Chip.retireParcelJob_round (c : Chip) (address : Nat) : (c.retireParcelJob address).1.clk.round = c.clk.round := by
  unfold Chip.retireParcelJob
  dsimp only
  split
  · rfl
  · split
    · rfl
    · split
      · rfl
      · rename_i h
        rw [Chip.queueRow_round]
        refine (Chip.foldl_round _ (fun c x => Chip.markBlock_round c _ x) _ _).trans ?_
        exact Chip.relocate_round c _ _ h

theorem Chip.retireRowJob_round (c : Chip) (x : RetireJob) : (Chip.retireRowJob c x).1.clk.round = c.clk.round := by
  rw [Chip.retireRowJob.eq_def]
  first
  | (simp only [↓Chip.pprStart_round, Chip.ite_round, ite_self]; done)
  | try dsimp only
    repeat' first
    | with_reducible rfl
    | split
    | simp only [↓Chip.pprStart_round]

theorem Chip.retireGo_round (c : Chip) (x : RetireJob) : (c.retireGo x).clk.round = c.clk.round := by
  unfold Chip.retireGo
  simp only []
  split
  · split
    · rename_i hr
      rw [Chip.commandEnd_round]
      exact (congrArg (fun r : Chip × Option (Nat × Nat) × Bool => r.1.clk.round) hr).symm.trans (Chip.retireRowJob_round c x)
    · rename_i hr
      exact (congrArg (fun r : Chip × Option (Nat × Nat) × Bool => r.1.clk.round) hr).symm.trans (Chip.retireRowJob_round c x)
  · have hy : ∀ r : Chip × Option (Nat × Nat), (if x.opcode = 0x300 then c.retireRowFrames (placeOf x.location)
        else if x.opcode = 0x301 then c.retireFrameJob x.address else c.retireParcelJob x.address) = r → r.1.clk.round = c.clk.round := by
      intro r hr
      split at hr
      · exact hr ▸ Chip.retireRowFrames_round c _
      · split at hr
        · exact hr ▸ Chip.retireFrameJob_round c _
        · exact hr ▸ Chip.retireParcelJob_round c _
    split
    · rename_i hr
      rw [Chip.commandEnd_round]
      exact hy _ hr
    · rename_i hr
      exact hy _ hr

theorem Chip.retireJobs_round (c : Chip) : (Chip.retireJobs c).clk.round = c.clk.round := by
  rw [Chip.retireJobs.eq_def]
  first
  | (simp only [↓Chip.retireGo_round, Chip.ite_round, ite_self]; done)
  | try dsimp only
    repeat' first
    | with_reducible rfl
    | split
    | with_reducible refine (Chip.foldl_round _ (fun c x => ?_) _ _).trans ?_
    | with_reducible refine (Chip.foldl_fst_round _ (fun a x => ?_) _ _).trans ?_
    | simp only [↓Chip.retireGo_round]

theorem Chip.moveExtent_round (c : Chip) (e : Nat) : (Chip.moveExtent c e).clk.round = c.clk.round := by
  rw [Chip.moveExtent.eq_def]
  first
  | (simp only [↓Chip.oweBlock_round, ↓Chip.mapExt_round, ↓Chip.tcInvalidate_round, ↓Chip.queueMig_round, Chip.ite_round, ite_self]; done)
  | try dsimp only
    repeat' first
    | with_reducible rfl
    | split
    | simp only [↓Chip.oweBlock_round, ↓Chip.mapExt_round, ↓Chip.tcInvalidate_round, ↓Chip.queueMig_round]

theorem Chip.ranksLeave_round (c : Chip) : (Chip.ranksLeave c).clk.round = c.clk.round := by
  rw [Chip.ranksLeave.eq_def]
  first
  | (simp only [↓Chip.mapChan_round, ↓Chip.readBacklog_round, ↓Chip.moveExtent_round, Chip.ite_round, ite_self]; done)
  | try dsimp only
    repeat' first
    | with_reducible rfl
    | split
    | with_reducible refine (Chip.foldl_round _ (fun c x => ?_) _ _).trans ?_
    | with_reducible refine (Chip.foldl_fst_round _ (fun a x => ?_) _ _).trans ?_
    | simp only [↓Chip.mapChan_round, ↓Chip.readBacklog_round, ↓Chip.moveExtent_round]

theorem Chip.patrolPass_round (c : Chip) : (Chip.patrolPass c).clk.round = c.clk.round := by
  rw [Chip.patrolPass.eq_def]
  first
  | (simp only [↓Chip.put_round, ↓Chip.raise_round]; done)
  | with_reducible rfl

theorem Chip.patrolDue_round (c : Chip) : (Chip.patrolDue c).clk.round = c.clk.round := by
  rw [Chip.patrolDue.eq_def]
  try dsimp only
  repeat' first
    | with_reducible rfl
    | split

theorem Chip.patrolRead_round (c : Chip) : (Chip.patrolRead c).clk.round = c.clk.round := by
  rw [Chip.patrolRead.eq_def]
  first
  | (simp only [↓Chip.cnt_round, ↓Chip.mapChan_round, ↓Chip.oweLines_round, ↓Chip.patrolDue_round, Chip.ite_round, ite_self]; done)
  | try dsimp only
    repeat' first
    | with_reducible rfl
    | split
    | simp only [↓Chip.cnt_round, ↓Chip.mapChan_round, ↓Chip.oweLines_round, ↓Chip.patrolDue_round]

theorem Chip.setPatrol_round (c : Chip) (n : Nat) : (Chip.setPatrol c n).clk.round = c.clk.round := by
  rw [Chip.setPatrol.eq_def]
  first
  | (simp only [↓Chip.put_round]; done)
  | with_reducible rfl

theorem Chip.patrolGo_round (c : Chip) (next : Nat) (wraps : Bool) : (Chip.patrolGo c next wraps).clk.round = c.clk.round := by
  rw [Chip.patrolGo.eq_def]
  first
  | (simp only [↓Chip.patrolPass_round, ↓Chip.patrolRead_round, ↓Chip.setPatrol_round, Chip.ite_round, ite_self]; done)
  | try dsimp only
    repeat' first
    | with_reducible rfl
    | split
    | simp only [↓Chip.patrolPass_round, ↓Chip.patrolRead_round, ↓Chip.setPatrol_round]

theorem Chip.patrolPair_round (c : Chip) : (Chip.patrolPair c).clk.round = c.clk.round := by
  rw [Chip.patrolPair.eq_def]
  first
  | (simp only [↓Chip.patrolGo_round]; done)
  | with_reducible rfl

theorem Chip.scrubDue_round (c : Chip) : (Chip.scrubDue c).clk.round = c.clk.round := by
  rw [Chip.scrubDue.eq_def]
  try dsimp only
  repeat' first
    | with_reducible rfl
    | split

theorem Chip.scrubJob_round (c : Chip) : (Chip.scrubJob c).clk.round = c.clk.round := by
  unfold Chip.scrubJob
  dsimp only
  repeat' first
    | with_reducible rfl
    | split
    | simp only [↓Chip.repeat_round _ Chip.patrolPair_round, ↓Chip.put_round, ↓Chip.cnt_round, ↓Chip.raise_round]

theorem Chip.showEol_round (c : Chip) : (Chip.showEol c).clk.round = c.clk.round := by
  rw [Chip.showEol.eq_def]
  first
  | (simp only [↓Chip.put_round, ↓Chip.raise_round, Chip.ite_round, ite_self]; done)
  | try dsimp only
    repeat' first
    | with_reducible rfl
    | split
    | simp only [↓Chip.put_round, ↓Chip.raise_round]

theorem Chip.ledgerRound_round (c : Chip) : (Chip.ledgerRound c).clk.round = c.clk.round := by
  rw [Chip.ledgerRound.eq_def]
  first
  | (simp only [↓Chip.showEol_round, Chip.ite_round, ite_self]; done)
  | try dsimp only
    repeat' first
    | with_reducible rfl
    | split
    | simp only [↓Chip.showEol_round]

theorem Chip.acceptAlias_round (c : Chip) (rq : Requester) (x : PageWrite) : (Chip.acceptAlias c rq x).clk.round = c.clk.round := by
  rw [Chip.acceptAlias.eq_def]
  first
  | (simp only [↓Chip.post_round, Chip.ite_round, ite_self]; done)
  | try dsimp only
    repeat' first
    | with_reducible rfl
    | split
    | with_reducible refine (Chip.foldl_round _ (fun c x => ?_) _ _).trans ?_
    | with_reducible refine (Chip.foldl_fst_round _ (fun a x => ?_) _ _).trans ?_
    | simp only [↓Chip.post_round]

theorem Chip.ringRound_round (c : Chip) : (Chip.ringRound c).clk.round = c.clk.round := by
  rw [Chip.ringRound.eq_def]
  first
  | (simp only [↓Chip.cnt_round, ↓Chip.raise_round, Chip.ite_round, ite_self]; done)
  | try dsimp only
    repeat' first
    | with_reducible rfl
    | split
    | with_reducible refine (Chip.foldl_round _ (fun c x => ?_) _ _).trans ?_
    | with_reducible refine (Chip.foldl_fst_round _ (fun a x => ?_) _ _).trans ?_
    | simp only [↓Chip.cnt_round, ↓Chip.raise_round]

theorem Chip.rangeChecks_round (c : Chip) : (Chip.rangeChecks c).clk.round = c.clk.round := by
  rw [Chip.rangeChecks.eq_def]
  first
  | (simp only [↓Chip.commandEnd_round, Chip.ite_round, ite_self]; done)
  | try dsimp only
    repeat' first
    | with_reducible rfl
    | split
    | with_reducible refine (Chip.foldl_round _ (fun c x => ?_) _ _).trans ?_
    | with_reducible refine (Chip.foldl_fst_round _ (fun a x => ?_) _ _).trans ?_
    | simp only [↓Chip.commandEnd_round]

theorem Chip.showRate_round (c : Chip) : (Chip.showRate c).clk.round = c.clk.round := by
  rw [Chip.showRate.eq_def]
  first
  | (simp only [↓Chip.put_round]; done)
  | with_reducible rfl

theorem Chip.setHoldup_round (c : Chip) (lvl : Nat) : (Chip.setHoldup c lvl).clk.round = c.clk.round := by
  rw [Chip.setHoldup.eq_def]
  first
  | (simp only [↓Chip.put_round, ↓Chip.cnt_round, ↓Chip.raise_round, Chip.ite_round, ite_self]; done)
  | try dsimp only
    repeat' first
    | with_reducible rfl
    | split
    | simp only [↓Chip.put_round, ↓Chip.cnt_round, ↓Chip.raise_round]

theorem Chip.sampleHoldup_round (c : Chip) (lvl : Nat) : (Chip.sampleHoldup c lvl).clk.round = c.clk.round := by
  rw [Chip.sampleHoldup.eq_def]
  first
  | (simp only [↓Chip.put_round, Chip.ite_round, ite_self]; done)
  | try dsimp only
    repeat' first
    | with_reducible rfl
    | split
    | simp only [↓Chip.put_round]

theorem Chip.setGov_round (c : Chip) (st : Nat) : (Chip.setGov c st).clk.round = c.clk.round := by
  rw [Chip.setGov.eq_def]
  first
  | (simp only [↓Chip.put_round, ↓Chip.raise_round, Chip.ite_round, ite_self]; done)
  | try dsimp only
    repeat' first
    | with_reducible rfl
    | split
    | simp only [↓Chip.put_round, ↓Chip.raise_round]

theorem Chip.computeBudget_round (c : Chip) : (Chip.computeBudget c).clk.round = c.clk.round := by
  rw [Chip.computeBudget.eq_def]
  first
  | (simp only [↓Chip.put_round, ↓Chip.peak_round, ↓Chip.low_round, ↓Chip.raise_round, ↓Chip.setHoldup_round, Chip.ite_round, ite_self]; done)
  | try dsimp only
    repeat' first
    | with_reducible rfl
    | split
    | simp only [↓Chip.put_round, ↓Chip.peak_round, ↓Chip.low_round, ↓Chip.raise_round, ↓Chip.setHoldup_round]

theorem Chip.showPeerHeadroom_round (c : Chip) : (Chip.showPeerHeadroom c).clk.round = c.clk.round := by
  rw [Chip.showPeerHeadroom.eq_def]
  first
  | (simp only [↓Chip.put_round, Chip.ite_round, ite_self]; done)
  | try dsimp only
    repeat' first
    | with_reducible rfl
    | split
    | simp only [↓Chip.put_round]

theorem Chip.countGov_round (c : Chip) (st : Nat) : (Chip.countGov c st).clk.round = c.clk.round := by
  rw [Chip.countGov.eq_def]
  first
  | (simp only [↓Chip.cnt_round, Chip.ite_round, ite_self]; done)
  | try dsimp only
    repeat' first
    | with_reducible rfl
    | split
    | simp only [↓Chip.cnt_round]

theorem Chip.governAs_round (c : Chip) (st : Nat) (lines : Option Nat) : (Chip.governAs c st lines).clk.round = c.clk.round := by
  rw [Chip.governAs.eq_def]
  first
  | (simp only [↓Chip.setGov_round, ↓Chip.countGov_round]; done)
  | with_reducible rfl

theorem Chip.governJob_round (c : Chip) : (Chip.governJob c).clk.round = c.clk.round := by
  rw [Chip.governJob.eq_def]
  first
  | (simp only [↓Chip.computeBudget_round, ↓Chip.showPeerHeadroom_round, ↓Chip.governAs_round, Chip.ite_round, ite_self]; done)
  | try dsimp only
    repeat' first
    | with_reducible rfl
    | split
    | simp only [↓Chip.computeBudget_round, ↓Chip.showPeerHeadroom_round, ↓Chip.governAs_round]

theorem Chip.overNow_round (c : Chip) : (Chip.overNow c).clk.round = c.clk.round := by
  rw [Chip.overNow.eq_def]
  first
  | (simp only [↓Chip.peak_round, ↓Chip.setGov_round, Chip.ite_round, ite_self]; done)
  | try dsimp only
    repeat' first
    | with_reducible rfl
    | split
    | simp only [↓Chip.peak_round, ↓Chip.setGov_round]

theorem Chip.probe_round (c : Chip) (us : Nat) : (c.probe us).clk.round = c.clk.round := by
  unfold Chip.probe
  split
  · rfl
  · simp only []
    split
    · rfl
    · rename_i d r h
      have hd : d.clk.round = c.clk.round := by
        split at h
        · cases h
          rfl
        · simp only [Option.map_eq_some_iff, Prod.mk.injEq] at h
          obtain ⟨x, _, rfl, _⟩ := h
          exact (show _ = (c.openRow x sINSOLE).clk.round from rfl).trans (Chip.openRow_round _ _ _)
      simp only [↓Chip.peak_round, ↓Chip.cnt_round, ↓Chip.setRow_round]
      exact hd

theorem Chip.rateDelivery_round (c : Chip) : (Chip.rateDelivery c).clk.round = c.clk.round := by
  rw [Chip.rateDelivery.eq_def]
  first
  | (simp only [↓Chip.raise_round, ↓Chip.showRate_round, Chip.ite_round, ite_self]; done)
  | try dsimp only
    repeat' first
    | with_reducible rfl
    | split
    | simp only [↓Chip.raise_round, ↓Chip.showRate_round]

theorem Chip.clearRisk_round (c : Chip) : (Chip.clearRisk c).clk.round = c.clk.round := by
  rw [Chip.clearRisk.eq_def]
  try dsimp only
  repeat' first
    | with_reducible rfl
    | split

theorem Chip.journalRound_round (c : Chip) : (Chip.journalRound c).clk.round = c.clk.round := by
  rw [Chip.journalRound.eq_def]
  first
  | (simp only [↓Chip.cnt_round, ↓Chip.peak_round, Chip.ite_round, ite_self]; done)
  | try dsimp only
    repeat' first
    | with_reducible rfl
    | split
    | simp only [↓Chip.cnt_round, ↓Chip.peak_round]

theorem Chip.sendSummary_round (c : Chip) : (Chip.sendSummary c).clk.round = c.clk.round := by
  rw [Chip.sendSummary.eq_def]
  first
  | (simp only [↓Chip.postEffect_round, Chip.ite_round, ite_self]; done)
  | try dsimp only
    repeat' first
    | with_reducible rfl
    | split
    | simp only [↓Chip.postEffect_round]

theorem Chip.coverGated_round (c : Chip) (w : Twin) (gate round : Nat) : (Chip.coverGated c w gate round).clk.round = c.clk.round := by
  rw [Chip.coverGated.eq_def]
  try dsimp only
  repeat' first
    | with_reducible rfl
    | split

theorem Chip.showRepairs_round (c : Chip) : (Chip.showRepairs c).clk.round = c.clk.round := by
  rw [Chip.showRepairs.eq_def]
  first
  | (simp only [↓Chip.put_round]; done)
  | with_reducible rfl

theorem Chip.setHold_round (c : Chip) (line : Nat) (on : Bool) : (Chip.setHold c line on).clk.round = c.clk.round := by
  rw [Chip.setHold.eq_def]
  try dsimp only
  repeat' first
    | with_reducible rfl
    | split

theorem Chip.afterHold_round (c : Chip) : (Chip.afterHold c).clk.round = c.clk.round := by
  rw [Chip.afterHold.eq_def]
  first
  | (simp only [↓Chip.carbonPump_round, Chip.ite_round, ite_self]; done)
  | try dsimp only
    repeat' first
    | with_reducible rfl
    | split
    | with_reducible refine (Chip.foldl_round _ (fun c x => ?_) _ _).trans ?_
    | with_reducible refine (Chip.foldl_fst_round _ (fun a x => ?_) _ _).trans ?_
    | simp only [↓Chip.carbonPump_round]

theorem Chip.releaseHold_round (c : Chip) (line : Nat) : (Chip.releaseHold c line).clk.round = c.clk.round := by
  rw [Chip.releaseHold.eq_def]
  first
  | (simp only [↓Chip.post_round, ↓Chip.showRepairs_round, ↓Chip.setHold_round, ↓Chip.afterHold_round, Chip.ite_round, ite_self]; done)
  | try dsimp only
    repeat' first
    | with_reducible rfl
    | split
    | simp only [↓Chip.post_round, ↓Chip.showRepairs_round, ↓Chip.setHold_round, ↓Chip.afterHold_round]

theorem Chip.answerRepaired_round (c : Chip) (line : Nat) : (Chip.answerRepaired c line).clk.round = c.clk.round := by
  unfold Chip.answerRepaired
  rw [Chip.runCommons_round]
  exact Chip.continueTags_round _ _ _ Chip.serveFull_round

theorem Chip.mediaHere_round (c : Chip) (r : EventRec) : (Chip.mediaHere c r).clk.round = c.clk.round := by
  rw [Chip.mediaHere.eq_def]
  first
  | (simp only [↓Chip.logRecord_round, Chip.ite_round, ite_self]; done)
  | try dsimp only
    repeat' first
    | with_reducible rfl
    | split
    | with_reducible refine (Chip.foldl_round _ (fun c x => ?_) _ _).trans ?_
    | with_reducible refine (Chip.foldl_fst_round _ (fun a x => ?_) _ _).trans ?_
    | simp only [↓Chip.logRecord_round]

theorem Chip.mediaRecord_round (c : Chip) (line : Nat) : (Chip.mediaRecord c line).clk.round = c.clk.round := by
  rw [Chip.mediaRecord.eq_def]
  first
  | (simp only [↓Chip.send_round, ↓Chip.mediaHere_round, Chip.ite_round, ite_self]; done)
  | try dsimp only
    repeat' first
    | with_reducible rfl
    | split
    | simp only [↓Chip.send_round, ↓Chip.mediaHere_round]

theorem Chip.repairEntry_round (c : Chip) (line source kind copy : Nat) : (Chip.repairEntry c line source kind copy).clk.round = c.clk.round := by
  rw [Chip.repairEntry.eq_def]
  first
  | (simp only [↓Chip.cnt_round, ↓Chip.dlo_round, Chip.ite_round, ite_self]; done)
  | try dsimp only
    repeat' first
    | with_reducible rfl
    | split
    | simp only [↓Chip.cnt_round, ↓Chip.dlo_round]

theorem Chip.rewriteLine_round (c : Chip) (line : Nat) (l : Line) (poison : Bool) : (Chip.rewriteLine c line l poison).clk.round = c.clk.round := by
  rw [Chip.rewriteLine.eq_def]
  first
  | (simp only [↓Chip.oweLines_round, ↓Chip.storeLine_round]; done)
  | with_reducible rfl

theorem Chip.repairAlone_round (c : Chip) (line source : Nat) : (Chip.repairAlone c line source).clk.round = c.clk.round := by
  unfold Chip.repairAlone
  dsimp only
  split
  · refine (Chip.continueTags_round _ _ _ (fun c t => ?_)).trans (Chip.releaseHold_round c line)
    split
    · exact Chip.serveRead_round c t
    · exact Chip.readDram_round c t
  · rw [Chip.answerRepaired_round, Chip.releaseHold_round]
    split
    · rw [Chip.repairEntry_round, Chip.cnt_round, Chip.rewriteLine_round]
    · rw [Chip.mediaRecord_round, Chip.repairEntry_round, Chip.raise_round, Chip.cnt_round, Chip.rewriteLine_round]

theorem Chip.beginRepair_round (c : Chip) (line source : Nat) : (Chip.beginRepair c line source).clk.round = c.clk.round := by
  rw [Chip.beginRepair.eq_def]
  first
  | (simp only [↓Chip.cnt_round, ↓Chip.send_round, ↓Chip.post_round, ↓Chip.showRepairs_round, ↓Chip.setHold_round,
        ↓Chip.repairAlone_round, Chip.ite_round, ite_self]; done)
  | try dsimp only
    repeat' first
    | with_reducible rfl
    | split
    | simp only [↓Chip.cnt_round, ↓Chip.send_round, ↓Chip.post_round, ↓Chip.showRepairs_round, ↓Chip.setHold_round,
        ↓Chip.repairAlone_round]

theorem Chip.pumpRepairs_round (n : Nat) : ∀ c : Chip, (pumpRepairs n c).clk.round = c.clk.round := by
  induction n with
  | zero => exact fun _ => rfl
  | succ n ih =>
    intro c
    unfold pumpRepairs
    split
    · rfl
    · split
      · rfl
      · rw [ih, Chip.beginRepair_round]

theorem Chip.speakerDelivery_round (c : Chip) : (Chip.speakerDelivery c).clk.round = c.clk.round := by
  rw [Chip.speakerDelivery.eq_def]
  first
  | (simp only [↓Chip.put_round, ↓Chip.cnt_round, ↓Chip.postEffect_round, Chip.ite_round, ite_self]; done)
  | try dsimp only
    repeat' first
    | with_reducible rfl
    | split
    | simp only [↓Chip.put_round, ↓Chip.cnt_round, ↓Chip.postEffect_round]

theorem Chip.showResync_round (c : Chip) : (Chip.showResync c).clk.round = c.clk.round := by
  rw [Chip.showResync.eq_def]
  first
  | (simp only [↓Chip.put_round]; done)
  | with_reducible rfl

theorem Chip.resyncRound_round (c : Chip) : (Chip.resyncRound c).clk.round = c.clk.round := by
  rw [Chip.resyncRound.eq_def]
  first
  | (simp only [↓Chip.postEffect_round, ↓Chip.showResync_round, Chip.ite_round, ite_self]; done)
  | try dsimp only
    repeat' first
    | with_reducible rfl
    | split
    | with_reducible refine (Chip.foldl_round _ (fun c x => ?_) _ _).trans ?_
    | with_reducible refine (Chip.foldl_fst_round _ (fun a x => ?_) _ _).trans ?_
    | simp only [↓Chip.postEffect_round, ↓Chip.showResync_round]

theorem Chip.sendFrame_round (c : Chip) : (Chip.sendFrame c).clk.round = c.clk.round := by
  rw [Chip.sendFrame.eq_def]
  first
  | (simp only [↓Chip.send_round, ↓Chip.coverGated_round, Chip.ite_round, ite_self]; done)
  | try dsimp only
    repeat' first
    | with_reducible rfl
    | split
    | with_reducible refine (Chip.foldl_round _ (fun c x => ?_) _ _).trans ?_
    | with_reducible refine (Chip.foldl_fst_round _ (fun a x => ?_) _ _).trans ?_
    | simp only [↓Chip.send_round, ↓Chip.coverGated_round]

theorem Chip.failRead_round (c : Chip) (x : Requester × Nat × Nat) : (Chip.failRead c x).clk.round = c.clk.round := by
  rw [Chip.failRead.eq_def]
  first
  | (simp only [↓Chip.cnt_round, ↓Chip.answer_round]; done)
  | with_reducible rfl

theorem Chip.failReads_round (c : Chip) (p : Requester × Nat × Nat → Bool) : (Chip.failReads c p).clk.round = c.clk.round := by
  rw [Chip.failReads.eq_def]
  first
  | (simp only [↓Chip.failRead_round, Chip.ite_round, ite_self]; done)
  | try dsimp only
    repeat' first
    | with_reducible rfl
    | split
    | with_reducible refine (Chip.foldl_round _ (fun c x => ?_) _ _).trans ?_
    | with_reducible refine (Chip.foldl_fst_round _ (fun a x => ?_) _ _).trans ?_
    | simp only [↓Chip.failRead_round]

theorem Chip.lateReads_round (c : Chip) : (Chip.lateReads c).clk.round = c.clk.round := by
  rw [Chip.lateReads.eq_def]
  first
  | (simp only [↓Chip.failReads_round]; done)
  | with_reducible rfl

theorem Chip.fallLink_round (c : Chip) : (Chip.fallLink c).clk.round = c.clk.round := by
  rw [Chip.fallLink.eq_def]
  first
  | (simp only [↓Chip.put_round, ↓Chip.cnt_round, ↓Chip.raise_round, ↓Chip.keepOwnRound_round, ↓Chip.failReads_round, Chip.ite_round, ite_self]; done)
  | try dsimp only
    repeat' first
    | with_reducible rfl
    | split
    | simp only [↓Chip.put_round, ↓Chip.cnt_round, ↓Chip.raise_round, ↓Chip.keepOwnRound_round, ↓Chip.failReads_round]

theorem Chip.showLanes_round (c : Chip) : (Chip.showLanes c).clk.round = c.clk.round := by
  rw [Chip.showLanes.eq_def]
  first
  | (simp only [↓Chip.put_round, ↓Chip.raise_round, ↓Chip.fallLink_round, Chip.ite_round, ite_self]; done)
  | try dsimp only
    repeat' first
    | with_reducible rfl
    | split
    | with_reducible refine (Chip.foldl_round _ (fun c x => ?_) _ _).trans ?_
    | with_reducible refine (Chip.foldl_fst_round _ (fun a x => ?_) _ _).trans ?_
    | simp only [↓Chip.put_round, ↓Chip.raise_round, ↓Chip.fallLink_round]

theorem Chip.replaceLane_round (c : Chip) (l : Nat) : (Chip.replaceLane c l).clk.round = c.clk.round := by
  rw [Chip.replaceLane.eq_def]
  first
  | (simp only [↓Chip.put_round, ↓Chip.send_round, ↓Chip.drew_round, ↓Chip.showLanes_round, Chip.ite_round, ite_self]; done)
  | try dsimp only
    repeat' first
    | with_reducible rfl
    | split
    | simp only [↓Chip.put_round, ↓Chip.send_round, ↓Chip.drew_round, ↓Chip.showLanes_round]

theorem Chip.indexRound_round (c : Chip) : (Chip.indexRound c).clk.round = c.clk.round := by
  unfold Chip.indexRound
  split
  · rfl
  · exact Chip.continueTags_round _ _ _ Chip.serveRead_round

theorem Chip.roundLength_round (c : Chip) : (Chip.roundLength c).clk.round = c.clk.round := by
  rw [Chip.roundLength.eq_def]
  first
  | (simp only [↓Chip.cnt_round, Chip.ite_round, ite_self]; done)
  | try dsimp only
    repeat' first
    | with_reducible rfl
    | split
    | simp only [↓Chip.cnt_round]

theorem Chip.alignRound_round (c : Chip) (off : Int) : (Chip.alignRound c off).clk.round = c.clk.round := by
  rw [Chip.alignRound.eq_def]
  first
  | (simp only [↓Chip.put_round, ↓Chip.putInt_round, ↓Chip.raise_round, ↓Chip.roundLength_round, Chip.ite_round, ite_self]; done)
  | try dsimp only
    repeat' first
    | with_reducible rfl
    | split
    | simp only [↓Chip.put_round, ↓Chip.putInt_round, ↓Chip.raise_round, ↓Chip.roundLength_round]

theorem Chip.refillHead_round (c : Chip) (rounds : List (Option Nat)) (waiting : List (Fin 24)) (h : Fin 24) : (Chip.refillHead c rounds waiting h).clk.round = c.clk.round := by
  rw [Chip.refillHead.eq_def]
  first
  | (simp only [↓Chip.mapHead_round, Chip.ite_round, ite_self]; done)
  | try dsimp only
    repeat' first
    | with_reducible rfl
    | split
    | with_reducible refine (Chip.foldl_round _ (fun c x => ?_) _ _).trans ?_
    | with_reducible refine (Chip.foldl_fst_round _ (fun a x => ?_) _ _).trans ?_
    | simp only [↓Chip.mapHead_round]

theorem Chip.refillJob_round (c : Chip) : (Chip.refillJob c).clk.round = c.clk.round := by
  rw [Chip.refillJob.eq_def]
  first
  | (simp only [↓Chip.refillChannels_round, ↓Chip.refillHead_round, Chip.ite_round, ite_self]; done)
  | try dsimp only
    repeat' first
    | with_reducible rfl
    | split
    | with_reducible refine (Chip.foldl_round _ (fun c x => ?_) _ _).trans ?_
    | with_reducible refine (Chip.foldl_fst_round _ (fun a x => ?_) _ _).trans ?_
    | simp only [↓Chip.refillChannels_round, ↓Chip.refillHead_round]

theorem Chip.gcJob_round (c : Chip) : (Chip.gcJob c).clk.round = c.clk.round := by
  rw [Chip.gcJob.eq_def]
  first
  | (simp only [↓Chip.cnt_round, ↓Chip.moveRow_round, Chip.ite_round, ite_self]; done)
  | try dsimp only
    repeat' first
    | with_reducible rfl
    | split
    | simp only [↓Chip.cnt_round, ↓Chip.moveRow_round]

theorem Chip.scrubWalk_round (c : Chip) : (Chip.scrubWalk c).clk.round = c.clk.round := by
  rw [Chip.scrubWalk.eq_def]
  first
  | (simp only [↓Chip.cnt_round]; done)
  | with_reducible rfl

theorem Chip.resoleJob_round (c : Chip) : (Chip.resoleJob c).clk.round = c.clk.round := by
  rw [Chip.resoleJob.eq_def]
  first
  | (simp only [↓Chip.moveRow_round, ↓Chip.scrubWalk_round, Chip.ite_round, ite_self]; done)
  | try dsimp only
    repeat' first
    | with_reducible rfl
    | split
    | simp only [↓Chip.moveRow_round, ↓Chip.scrubWalk_round]

theorem Chip.jobEffect_round (c : Chip) (j : Nat) : (Chip.jobEffect c j).clk.round = c.clk.round := by
  rw [Chip.jobEffect.eq_def]
  first
  | (simp only [↓Chip.routeJob_round, ↓Chip.migJob_round, ↓Chip.scrubJob_round, ↓Chip.governJob_round, ↓Chip.refillJob_round,
        ↓Chip.gcJob_round, ↓Chip.resoleJob_round, Chip.ite_round, ite_self]; done)
  | try dsimp only
    repeat' first
    | with_reducible rfl
    | split
    | simp only [↓Chip.routeJob_round, ↓Chip.migJob_round, ↓Chip.scrubJob_round, ↓Chip.governJob_round, ↓Chip.refillJob_round,
        ↓Chip.gcJob_round, ↓Chip.resoleJob_round]

theorem Chip.setSched_round (c : Chip) (x : Sched) : (Chip.setSched c x).clk.round = c.clk.round := by
  first
  | (rw [Chip.setSched.eq_def]; done)
  | (rw [Chip.setSched.eq_def]; with_reducible rfl)

theorem Chip.jobEnds_round (c : Chip) (j used : Nat) : (Chip.jobEnds c j used).clk.round = c.clk.round := by
  rw [Chip.jobEnds.eq_def]
  first
  | (simp only [↓Chip.jobEffect_round, ↓Chip.setSched_round, Chip.ite_round, ite_self]; done)
  | try dsimp only
    repeat' first
    | with_reducible rfl
    | split
    | simp only [↓Chip.jobEffect_round, ↓Chip.setSched_round]

theorem Chip.runJobs_round (n : Nat) : ∀ c : Chip, (Chip.runJobs n c).clk.round = c.clk.round := by
  induction n with
  | zero => exact fun c => rfl
  | succ n ih =>
    intro c
    unfold Chip.runJobs
    extract_lets x
    split
    · rfl
    · rename_i j rest
      extract_lets need allow c1
      have h1 : c1.clk.round = c.clk.round := Chip.setSched_round c _
      clear_value c1
      split
      · rfl
      · split
        · rw [ih, Chip.jobEnds_round, h1]
        · split
          · rw [Chip.setSched_round, h1]
          · rw [ih, Chip.jobEnds_round, h1]

theorem Chip.stopAtAllowance_round (c : Chip) (late : Nat) : (Chip.stopAtAllowance c late).clk.round = c.clk.round := by
  rw [Chip.stopAtAllowance.eq_def]
  first
  | (simp only [↓Chip.jobEnds_round, ↓Chip.runJobs_round, Chip.ite_round, ite_self]; done)
  | try dsimp only
    repeat' first
    | with_reducible rfl
    | split
    | simp only [↓Chip.jobEnds_round, ↓Chip.runJobs_round]

theorem Chip.stopAtEnd_round (c : Chip) (late : Nat) : (Chip.stopAtEnd c late).clk.round = c.clk.round := by
  rw [Chip.stopAtEnd.eq_def]
  first
  | (simp only [↓Chip.jobEnds_round, Chip.ite_round, ite_self]; done)
  | try dsimp only
    repeat' first
    | with_reducible rfl
    | split
    | simp only [↓Chip.jobEnds_round]

theorem Chip.closeRound_round (c : Chip) : (Chip.closeRound c).clk.round = c.clk.round := by
  rw [Chip.closeRound.eq_def]
  first
  | (simp only [↓Chip.put_round, ↓Chip.cnt_round, ↓Chip.peak_round, ↓Chip.raise_round, ↓Chip.stopAtAllowance_round, ↓Chip.stopAtEnd_round, Chip.ite_round, ite_self]; done)
  | try dsimp only
    repeat' first
    | with_reducible rfl
    | split
    | with_reducible refine (Chip.foldl_round _ (fun c x => ?_) _ _).trans ?_
    | with_reducible refine (Chip.foldl_fst_round _ (fun a x => ?_) _ _).trans ?_
    | simp only [↓Chip.put_round, ↓Chip.cnt_round, ↓Chip.peak_round, ↓Chip.raise_round, ↓Chip.stopAtAllowance_round, ↓Chip.stopAtEnd_round]

theorem Chip.startJobs_round (c : Chip) (quantum : List Nat) : (Chip.startJobs c quantum).clk.round = c.clk.round := by
  rw [Chip.startJobs.eq_def]
  first
  | (simp only [↓Chip.put_round, ↓Chip.setSched_round, ↓Chip.runJobs_round, Chip.ite_round, ite_self]; done)
  | try dsimp only
    repeat' first
    | with_reducible rfl
    | split
    | simp only [↓Chip.put_round, ↓Chip.setSched_round, ↓Chip.runJobs_round]

theorem Chip.rekeyRound_round (c : Chip) : (Chip.rekeyRound c).clk.round = c.clk.round := by
  rw [Chip.rekeyRound.eq_def]
  first
  | (simp only [↓Chip.send_round, Chip.ite_round, ite_self]; done)
  | try dsimp only
    repeat' first
    | with_reducible rfl
    | split
    | simp only [↓Chip.send_round]

theorem Chip.freeRow_round (c : Chip) (x : Nat × MdeRow) : (Chip.freeRow c x).clk.round = c.clk.round := by
  rw [Chip.freeRow.eq_def]
  first
  | (simp only [↓Chip.cnt_round, ↓Chip.setRow_round, Chip.ite_round, ite_self]; done)
  | try dsimp only
    repeat' first
    | with_reducible rfl
    | split
    | simp only [↓Chip.cnt_round, ↓Chip.setRow_round]

theorem Chip.rowsRound_round (c : Chip) : (Chip.rowsRound c).clk.round = c.clk.round := by
  rw [Chip.rowsRound.eq_def]
  first
  | (simp only [↓Chip.put_round, ↓Chip.cnt_round, ↓Chip.raise_round, ↓Chip.startOps_round, ↓Chip.freeRow_round, Chip.ite_round, ite_self]; done)
  | try dsimp only
    repeat' first
    | with_reducible rfl
    | split
    | with_reducible refine (Chip.foldl_round _ (fun c x => ?_) _ _).trans ?_
    | with_reducible refine (Chip.foldl_fst_round _ (fun a x => ?_) _ _).trans ?_
    | simp only [↓Chip.put_round, ↓Chip.cnt_round, ↓Chip.raise_round, ↓Chip.startOps_round, ↓Chip.freeRow_round]

theorem Chip.mergesNow_round (c : Chip) : (Chip.mergesNow c).clk.round = c.clk.round := by
  rw [Chip.mergesNow.eq_def]
  first
  | (simp only [↓Chip.mergeRead_round, Chip.ite_round, ite_self]; done)
  | try dsimp only
    repeat' first
    | with_reducible rfl
    | split
    | with_reducible refine (Chip.foldl_round _ (fun c x => ?_) _ _).trans ?_
    | with_reducible refine (Chip.foldl_fst_round _ (fun a x => ?_) _ _).trans ?_
    | simp only [↓Chip.mergeRead_round]

theorem Chip.mergeRound_round (c : Chip) : (Chip.mergeRound c).clk.round = c.clk.round := by
  rw [Chip.mergeRound.eq_def]
  first
  | (simp only [↓Chip.queueMerge_round, ↓Chip.mergesNow_round, Chip.ite_round, ite_self]; done)
  | try dsimp only
    repeat' first
    | with_reducible rfl
    | split
    | simp only [↓Chip.queueMerge_round, ↓Chip.mergesNow_round]

theorem Chip.holdupRound_round (c : Chip) (x : RoundInputs) : (Chip.holdupRound c x).clk.round = c.clk.round := by
  rw [Chip.holdupRound.eq_def]
  first
  | (simp only [↓Chip.sampleHoldup_round, ↓Chip.overNow_round]; done)
  | with_reducible rfl

theorem Chip.endsRound_round (c : Chip) : (Chip.endsRound c).clk.round = c.clk.round := by
  rw [Chip.endsRound.eq_def]
  first
  | (simp only [↓Chip.retireJobs_round, ↓Chip.ranksLeave_round, ↓Chip.ringRound_round, ↓Chip.rangeChecks_round]; done)
  | with_reducible rfl

theorem Chip.boardRound_round (c : Chip) (x : RoundInputs) : (Chip.boardRound c x).clk.round = c.clk.round := by
  rw [Chip.boardRound.eq_def]
  first
  | (simp only [↓Chip.thermalRound_round, ↓Chip.evbDrain_round, ↓Chip.settleChannels_round, ↓Chip.ledgerRound_round]; done)
  | with_reducible rfl

theorem Chip.pairRound_round (c : Chip) : (Chip.pairRound c).clk.round = c.clk.round := by
  rw [Chip.pairRound.eq_def]
  first
  | (simp only [↓Chip.scrubDue_round, ↓Chip.journalRound_round, ↓Chip.sendSummary_round, ↓Chip.resyncRound_round]; done)
  | with_reducible rfl

theorem Chip.mediaRound_round (c : Chip) : (Chip.mediaRound c).clk.round = c.clk.round := by
  rw [Chip.mediaRound.eq_def]
  first
  | (simp only [↓Chip.bridgeRound_round, ↓Chip.pumpRepairs_round, ↓Chip.lateReads_round, ↓Chip.indexRound_round, ↓Chip.rekeyRound_round,
      ↓Chip.rowsRound_round, ↓Chip.mergeRound_round]; done)
  | with_reducible rfl

theorem Chip.blockRound_round (c : Chip) (x : RoundInputs) : (Chip.blockRound c x).clk.round = c.clk.round := by
  rw [Chip.blockRound.eq_def]
  first
  | (simp only [↓Chip.holdupRound_round, ↓Chip.endsRound_round, ↓Chip.boardRound_round, ↓Chip.pairRound_round, ↓Chip.mediaRound_round]; done)
  | with_reducible rfl

theorem Chip.newDeliveryN_round (c : Chip) : (Chip.newDeliveryN c).clk.round = c.clk.round := by
  rw [Chip.newDeliveryN.eq_def]
  first
  | (simp only [↓Chip.raise_round, Chip.ite_round, ite_self]; done)
  | try dsimp only
    repeat' first
    | with_reducible rfl
    | split
    | simp only [↓Chip.raise_round]

theorem Chip.laneDelivery_round (c : Chip) : (Chip.laneDelivery c).clk.round = c.clk.round := by
  rw [Chip.laneDelivery.eq_def]
  first
  | (simp only [↓Chip.drew_round, ↓Chip.acceptAlias_round, ↓Chip.replaceLane_round, Chip.ite_round, ite_self]; done)
  | try dsimp only
    repeat' first
    | with_reducible rfl
    | split
    | with_reducible refine (Chip.foldl_round _ (fun c x => ?_) _ _).trans ?_
    | with_reducible refine (Chip.foldl_fst_round _ (fun a x => ?_) _ _).trans ?_
    | simp only [↓Chip.drew_round, ↓Chip.acceptAlias_round, ↓Chip.replaceLane_round]

theorem Chip.retrainDelivery_round (c : Chip) : (Chip.retrainDelivery c).clk.round = c.clk.round := by
  rw [Chip.retrainDelivery.eq_def]
  first
  | (simp only [↓Chip.meetChannel_round, ↓Chip.mapChan_round, ↓Chip.rankOut_round, Chip.ite_round, ite_self]; done)
  | try dsimp only
    repeat' first
    | with_reducible rfl
    | split
    | with_reducible refine (Chip.foldl_round _ (fun c x => ?_) _ _).trans ?_
    | with_reducible refine (Chip.foldl_fst_round _ (fun a x => ?_) _ _).trans ?_
    | simp only [↓Chip.meetChannel_round, ↓Chip.mapChan_round, ↓Chip.rankOut_round]

theorem Chip.wayDelivery_round (c : Chip) : (Chip.wayDelivery c).clk.round = c.clk.round := by
  rw [Chip.wayDelivery.eq_def]
  first
  | (simp only [↓Chip.put_round, Chip.ite_round, ite_self]; done)
  | try dsimp only
    repeat' first
    | with_reducible rfl
    | split
    | with_reducible refine (Chip.foldl_round _ (fun c x => ?_) _ _).trans ?_
    | with_reducible refine (Chip.foldl_fst_round _ (fun a x => ?_) _ _).trans ?_
    | simp only [↓Chip.put_round]

theorem Chip.freshDelivery_round (c : Chip) : (Chip.freshDelivery c).clk.round = c.clk.round := by
  have h1 : ∀ (c : Chip) (d : Nat), ((List.range 32).foldl (fun c j => if c.get (F.DCH_DEV_CE d j) = 0 then c else c.put (F.DCH_DEV_CE d j) 0) c).clk.round
      = c.clk.round := by
    intro c d
    refine Chip.foldl_round _ (fun c j => ?_) _ c
    split
    · rfl
    · exact Chip.put_round c _ _
  unfold Chip.freshDelivery
  have h3 : ∀ c : Chip, ({ c with trm := { c.trm with hits := [] }, cbl := { c.cbl with bankCe := [] }, mde := { c.mde with ueBlocks := [] } } : Chip).clk.round = c.clk.round := fun c => rfl
  refine (h3 _).trans ?_
  rw [Chip.foldl_round, Chip.foldl_round]
  · intro c d
    rw [h1]
    split
    · rfl
    · exact Chip.mapChan_round c d _
  · intro c h
    split
    · exact Chip.mapHead_round c h _
    · rfl

theorem Chip.ratingDelivery_round (c : Chip) : (Chip.ratingDelivery c).clk.round = c.clk.round := by
  rw [Chip.ratingDelivery.eq_def]
  first
  | (simp only [↓Chip.put_round]; done)
  | with_reducible rfl

theorem Chip.latch_round (c : Chip) : (Chip.latch c).clk.round = c.clk.round := by
  first
  | (rw [Chip.latch.eq_def]; done)
  | (rw [Chip.latch.eq_def]; with_reducible rfl)

end

end Sys2Proof.Machine
end

