-- ==== Sys2Proof/Laws/Mem.lean ====
section
/-! SUPPORT. The byte stores of a chip under record updates, conditionals and folds: what the lemmas about single operations rest on. -/
namespace Sys2Proof.Machine

theorem Chip.mem_mk {x0 x1 x2 x3 x4 x5 x6 x7 x8 x9 x10 x11 x12 x13 x14 x15 x16 x17 x18 x19 x20 x21 x22 x23 x24 x25 x26 x27 x28 x29 x30 x31 x32 x33 x34 x35 x36 x37 x38 x39 x40} :
    Chip.mem ⟨x0, x1, x2, x3, x4, x5, x6, x7, x8, x9, x10, x11, x12, x13, x14, x15, x16, x17, x18, x19, x20, x21, x22, x23, x24, x25, x26, x27, x28, x29, x30, x31, x32, x33, x34, x35, x36, x37, x38, x39, x40⟩ =
      ⟨x31, Trm.front x22, Trm.packed x22, Trm.patch x22, Image.front (Svc.saved x26), Image.patch (Svc.saved x26),
        Image.front (Svc.durable x26), Image.patch (Svc.durable x26)⟩ := by exact (Eq.refl _)

theorem Stores.eta (m : Stores) : Stores.mk m.dram m.front m.packed m.patch m.sealFront m.sealPatch m.metaFront m.metaPatch = m := by cases m; rfl

theorem Chip.dram_mem (c : Chip) : c.dram = c.mem.dram := by cases c; rfl
theorem Chip.front_mem (c : Chip) : c.trm.front = c.mem.front := by cases c; rfl
theorem Chip.packed_mem (c : Chip) : c.trm.packed = c.mem.packed := by cases c; rfl
theorem Chip.patch_mem (c : Chip) : c.trm.patch = c.mem.patch := by cases c; rfl
theorem Chip.sealFront_mem (c : Chip) : c.svc.saved.front = c.mem.sealFront := by cases c; rfl
theorem Chip.sealPatch_mem (c : Chip) : c.svc.saved.patch = c.mem.sealPatch := by cases c; rfl
theorem Chip.metaFront_mem (c : Chip) : c.svc.durable.front = c.mem.metaFront := by cases c; rfl
theorem Chip.metaPatch_mem (c : Chip) : c.svc.durable.patch = c.mem.metaPatch := by cases c; rfl

/-- Every store of a chip, as a part of `mem`. -/
theorem Chip.mem_parts (c : Chip) : c.dram = c.mem.dram ∧ c.trm.front = c.mem.front ∧ c.trm.packed = c.mem.packed ∧ c.trm.patch = c.mem.patch ∧
    c.svc.saved.front = c.mem.sealFront ∧ c.svc.saved.patch = c.mem.sealPatch ∧ c.svc.durable.front = c.mem.metaFront ∧
    c.svc.durable.patch = c.mem.metaPatch :=
  ⟨c.dram_mem, c.front_mem, c.packed_mem, c.patch_mem, c.sealFront_mem, c.sealPatch_mem, c.metaFront_mem, c.metaPatch_mem⟩

theorem Chip.ite_mem (p : Prop) [Decidable p] (c d : Chip) : (if p then c else d).mem = if p then c.mem else d.mem := by
  split <;> rfl

/-- A fold of operations that leave the stores as they are leaves them as they are. -/
theorem Chip.foldl_mem {α : Type} (g : Chip → α → Chip) (h : ∀ c x, (g c x).mem = c.mem) (l : List α) :
    ∀ c : Chip, (l.foldl g c).mem = c.mem := by
  induction l with
  | nil => exact fun c => rfl
  | cons x r ih => exact fun c => (ih (g c x)).trans (h c x)

/-- The same, where the operations carry something beside the chip. -/
theorem Chip.foldl_fst_mem {α β : Type} (g : Chip × β → α → Chip × β) (h : ∀ a x, (g a x).1.mem = a.1.mem) (l : List α) :
    ∀ a : Chip × β, (l.foldl g a).1.mem = a.1.mem := by
  induction l with
  | nil => exact fun a => rfl
  | cons x r ih => exact fun a => (ih (g a x)).trans (h a x)

/-- An operation that leaves the stores as they are leaves them so however often it is repeated. -/
theorem Chip.repeat_mem (g : Chip → Chip) (h : ∀ c, (g c).mem = c.mem) (n : Nat) (c : Chip) : (Nat.repeat g n c).mem = c.mem := by
  induction n with
  | zero => rfl
  | succ n ih => exact (h _).trans ih

/-- A fold of operations that can fail, each of which leaves the stores as they are where it does not. -/
theorem Chip.foldl_bind_mem {α : Type} (g : Chip → α → Option Chip) (h : ∀ c x c', g c x = some c' → c'.mem = c.mem) (l : List α) :
    ∀ (c : Chip) {c' : Chip}, (l.foldl (fun (a : Option Chip) x => a.bind fun c => g c x) (some c)) = some c' → c'.mem = c.mem := by
  have hn : ∀ l : List α, l.foldl (fun (a : Option Chip) x => a.bind fun c => g c x) none = none := by
    intro l
    induction l with
    | nil => rfl
    | cons x r ih => exact ih
  induction l with
  | nil => intro c c' h'; cases h'; rfl
  | cons x r ih =>
    intro c c' h'
    simp only [List.foldl_cons, Option.bind_some] at h'
    cases hx : g c x with
    | none => rw [hx, hn] at h'; cases h'
    | some d => rw [hx] at h'; exact (ih d h').trans (h c x d hx)

end Sys2Proof.Machine
end

