-- ==== Sys2Proof/Laws/MemRegs.lean ====
section
/-! SUPPORT. The operations of Machine/Regs.lean that leave the byte stores of a chip as they are. -/
namespace Sys2Proof.Machine

set_option simprocs false

theorem Chip.wr_mem (c : Chip) (page off : Nat) (v : Word) : (Chip.wr c page off v).mem = c.mem := by
  unfold Chip.wr
  simp only [↓Chip.mem_mk, Stores.eta, Chip.mem_parts]

theorem Chip.put_mem (c : Chip) (f : Fld) (v : Nat) : (Chip.put c f v).mem = c.mem := by
  unfold Chip.put
  simp only [↓Chip.wr_mem, ↓Chip.mem_mk, Stores.eta, Chip.mem_parts]

theorem Chip.setUsed_mem (c : Chip) (page off : Nat) (v : Word) : (Chip.setUsed c page off v).mem = c.mem := by
  unfold Chip.setUsed
  simp only [↓Chip.mem_mk, Stores.eta, Chip.mem_parts]

theorem Chip.putCfg_mem (c : Chip) (f : Fld) (v : Nat) : (Chip.putCfg c f v).mem = c.mem := by
  unfold Chip.putCfg
  simp only [↓Chip.put_mem, ↓Chip.setUsed_mem, ↓Chip.mem_mk, Stores.eta, Chip.mem_parts]

theorem Chip.putInt_mem (c : Chip) (f : Fld) (v : Int) : (Chip.putInt c f v).mem = c.mem := by
  unfold Chip.putInt
  simp only [↓Chip.put_mem, ↓Chip.mem_mk, Stores.eta, Chip.mem_parts]

theorem Chip.cnt_mem (c : Chip) (k : Ctr) (n : Nat) : (Chip.cnt c k n).mem = c.mem := by
  unfold Chip.cnt
  simp only [↓Chip.mem_mk, Stores.eta, Chip.mem_parts]

theorem Chip.peak_mem (c : Chip) (k : Ctr) (n : Nat) : (Chip.peak c k n).mem = c.mem := by
  unfold Chip.peak
  simp only [↓Chip.mem_mk, Stores.eta, Chip.mem_parts]

theorem Chip.low_mem (c : Chip) (k : Ctr) (n : Nat) : (Chip.low c k n).mem = c.mem := by
  unfold Chip.low
  first
  | (simp only [↓Chip.mem_mk, Stores.eta, Chip.mem_parts]; done)
  | try dsimp only
    repeat' first
    | with_reducible rfl
    | split
    | simp only [↓Chip.mem_mk, Stores.eta, Chip.mem_parts]

theorem Chip.setPageState_mem (c : Chip) (page st : Nat) : (Chip.setPageState c page st).mem = c.mem := by
  unfold Chip.setPageState
  simp only [↓Chip.wr_mem, ↓Chip.mem_mk, Stores.eta, Chip.mem_parts]

theorem Chip.mapHead_mem (c : Chip) (h : Fin 24) (f : Head → Head) : (Chip.mapHead c h f).mem = c.mem := by
  unfold Chip.mapHead
  simp only [↓Chip.mem_mk, Stores.eta, Chip.mem_parts]

end Sys2Proof.Machine
end

