-- ==== Sys2Proof/Laws/MemOps.lean ====
section
/-! SUPPORT. The operations of Machine/Ops.lean that leave the byte stores of a chip as they are. -/
namespace Sys2Proof.Machine

set_option simprocs false

theorem Chip.putOnWire_mem (c : Chip) (es : List Envelope) : (Chip.putOnWire c es).mem = c.mem := by
  unfold Chip.putOnWire
  first
  | (simp only [↓Chip.cnt_mem, ↓Chip.mem_mk, Stores.eta, Chip.mem_parts]; done)
  | try dsimp only
    repeat' first
    | with_reducible rfl
    | split
    | with_reducible refine (Chip.foldl_mem _ (fun c x => ?_) _ _).trans ?_
    | simp only [↓Chip.cnt_mem, ↓Chip.mem_mk, Stores.eta, Chip.mem_parts]

theorem Chip.transmit_mem (c : Chip) (b : EnvBody) : (Chip.transmit c b).mem = c.mem := by
  unfold Chip.transmit
  first
  | (simp only [↓Chip.put_mem, ↓Chip.putOnWire_mem, ↓Chip.mem_mk, Stores.eta, Chip.mem_parts]; done)
  | try dsimp only
    repeat' first
    | with_reducible rfl
    | split
    | simp only [↓Chip.put_mem, ↓Chip.putOnWire_mem, ↓Chip.mem_mk, Stores.eta, Chip.mem_parts]

theorem Chip.send_mem (c : Chip) (b : EnvBody) : (Chip.send c b).mem = c.mem := by
  unfold Chip.send
  first
  | (simp only [↓Chip.transmit_mem, ↓Chip.mem_mk, Stores.eta, Chip.mem_parts]; done)
  | try dsimp only
    repeat' first
    | with_reducible rfl
    | split
    | simp only [↓Chip.transmit_mem, ↓Chip.mem_mk, Stores.eta, Chip.mem_parts]

theorem Chip.sendWaiting_mem (n : Nat) : ∀ c : Chip, (c.sendWaiting n).mem = c.mem := by
  induction n with
  | zero => exact fun c => rfl
  | succ n ih =>
    intro c
    unfold Chip.sendWaiting
    split
    · rfl
    · split
      · rfl
      · rw [ih, Chip.transmit_mem]
        rfl

theorem Chip.post_mem (c : Chip) (r : PmRecord) : (Chip.post c r).mem = c.mem := by
  unfold Chip.post
  first
  | (simp only [↓Chip.put_mem, ↓Chip.cnt_mem, ↓Chip.send_mem, ↓Chip.mem_mk, Stores.eta, Chip.mem_parts]; done)
  | try dsimp only
    repeat' first
    | with_reducible rfl
    | split
    | simp only [↓Chip.put_mem, ↓Chip.cnt_mem, ↓Chip.send_mem, ↓Chip.mem_mk, Stores.eta, Chip.mem_parts]

theorem Chip.postEffect_mem (c : Chip) (e : Effect) (gated : Bool) (ends : Option Ends) : (Chip.postEffect c e gated ends).mem = c.mem := by
  unfold Chip.postEffect
  first
  | (simp only [↓Chip.post_mem, ↓Chip.mem_mk, Stores.eta, Chip.mem_parts]; done)
  | try dsimp only
    repeat' first
    | with_reducible rfl
    | split
    | simp only [↓Chip.post_mem, ↓Chip.mem_mk, Stores.eta, Chip.mem_parts]

theorem Chip.histFull_mem (c : Chip) (h : Fin 24) (full : Bool) : (Chip.histFull c h full).mem = c.mem := by
  unfold Chip.histFull
  first
  | (simp only [↓Chip.cnt_mem, ↓Chip.mapHead_mem, ↓Chip.mem_mk, Stores.eta, Chip.mem_parts]; done)
  | try dsimp only
    repeat' first
    | with_reducible rfl
    | split
    | simp only [↓Chip.cnt_mem, ↓Chip.mapHead_mem, ↓Chip.mem_mk, Stores.eta, Chip.mem_parts]

theorem Chip.pushFlit_mem (c : Chip) (h : Fin 24) (m : HostMsg) : (Chip.pushFlit c h m).mem = c.mem := by
  unfold Chip.pushFlit
  simp only [↓Chip.cnt_mem, ↓Chip.mapHead_mem, ↓Chip.histFull_mem, ↓Chip.mem_mk, Stores.eta, Chip.mem_parts]

theorem Chip.mapVec_mem (c : Chip) (h : Fin 24) (v : Nat) (f : Vec → Vec) : (Chip.mapVec c h v f).mem = c.mem := by
  unfold Chip.mapVec
  simp only [↓Chip.mapHead_mem, ↓Chip.mem_mk, Stores.eta, Chip.mem_parts]

theorem Chip.holdMsix_mem (c : Chip) (h : Fin 24) (v : Nat) : (Chip.holdMsix c h v).mem = c.mem := by
  unfold Chip.holdMsix
  first
  | (simp only [↓Chip.cnt_mem, ↓Chip.mapVec_mem, ↓Chip.mem_mk, Stores.eta, Chip.mem_parts]; done)
  | try dsimp only
    repeat' first
    | with_reducible rfl
    | split
    | simp only [↓Chip.cnt_mem, ↓Chip.mapVec_mem, ↓Chip.mem_mk, Stores.eta, Chip.mem_parts]

theorem Chip.sendMsix_mem (c : Chip) (h : Fin 24) (v : Nat) : (Chip.sendMsix c h v).mem = c.mem := by
  unfold Chip.sendMsix
  first
  | (simp only [↓Chip.cnt_mem, ↓Chip.mapHead_mem, ↓Chip.pushFlit_mem, ↓Chip.mapVec_mem, ↓Chip.holdMsix_mem, ↓Chip.mem_mk, Stores.eta,
      Chip.mem_parts]; done)
  | try dsimp only
    repeat' first
    | with_reducible rfl
    | split
    | simp only [↓Chip.cnt_mem, ↓Chip.mapHead_mem, ↓Chip.pushFlit_mem, ↓Chip.mapVec_mem, ↓Chip.holdMsix_mem, ↓Chip.mem_mk, Stores.eta,
      Chip.mem_parts]

theorem Chip.releaseMsix_mem (c : Chip) (h : Fin 24) : (Chip.releaseMsix c h).mem = c.mem := by
  unfold Chip.releaseMsix
  first
  | (simp only [↓Chip.mapVec_mem, ↓Chip.sendMsix_mem, ↓Chip.mem_mk, Stores.eta, Chip.mem_parts]; done)
  | try dsimp only
    repeat' first
    | with_reducible rfl
    | split
    | with_reducible refine (Chip.foldl_mem _ (fun c x => ?_) _ _).trans ?_
    | simp only [↓Chip.mapVec_mem, ↓Chip.sendMsix_mem, ↓Chip.mem_mk, Stores.eta, Chip.mem_parts]

theorem Chip.linkAwake_mem (c : Chip) (h : Fin 24) : (Chip.linkAwake c h).mem = c.mem := by
  unfold Chip.linkAwake
  first
  | (simp only [↓Chip.pushFlit_mem, ↓Chip.releaseMsix_mem, ↓Chip.mem_mk, Stores.eta, Chip.mem_parts]; done)
  | try dsimp only
    repeat' first
    | with_reducible rfl
    | split
    | simp only [↓Chip.pushFlit_mem, ↓Chip.releaseMsix_mem, ↓Chip.mem_mk, Stores.eta, Chip.mem_parts]

theorem Chip.cause_mem (c : Chip) (h : Fin 24) (v : Nat) : (Chip.cause c h v).mem = c.mem := by
  unfold Chip.cause
  first
  | (simp only [↓Chip.mapVec_mem, ↓Chip.sendMsix_mem, ↓Chip.mem_mk, Stores.eta, Chip.mem_parts]; done)
  | try dsimp only
    repeat' first
    | with_reducible rfl
    | split
    | simp only [↓Chip.mapVec_mem, ↓Chip.sendMsix_mem, ↓Chip.mem_mk, Stores.eta, Chip.mem_parts]

theorem Chip.setLog_mem (c : Chip) (h : Fin 24) (l : Nat) (x : EventLog) : (Chip.setLog c h l x).mem = c.mem := by
  unfold Chip.setLog
  simp only [↓Chip.put_mem, ↓Chip.mapHead_mem, ↓Chip.mem_mk, Stores.eta, Chip.mem_parts]

theorem Chip.enterLogWith_mem (ev : Chip → Nat → Nat → Chip) (hev : ∀ c p b, (ev c p b).mem = c.mem) (c : Chip) (h : Fin 24) (l : Nat)
    (r : EventRec) : (Chip.enterLogWith ev c h l r).mem = c.mem := by
  unfold Chip.enterLogWith
  dsimp only
  split
  · rw [hev, Chip.cnt_mem, Chip.setLog_mem]
  · split
    · rw [Chip.cause_mem, Chip.setLog_mem]
    · rw [Chip.setLog_mem]

theorem Chip.logRecordWith_mem (ev : Chip → Nat → Nat → Chip) (hev : ∀ c p b, (ev c p b).mem = c.mem) (c : Chip) (h : Fin 24) (l : Nat)
    (r : EventRec) : (Chip.logRecordWith ev c h l r).mem = c.mem := by
  unfold Chip.logRecordWith
  rw [Chip.post_mem, Chip.enterLogWith_mem ev hev]

theorem Chip.logHereWith_mem (ev : Chip → Nat → Nat → Chip) (hev : ∀ c p b, (ev c p b).mem = c.mem) (c : Chip) (l : Nat)
    (r : EventRec) : (Chip.logHereWith ev c l r).mem = c.mem := by
  unfold Chip.logHereWith
  refine Chip.foldl_mem _ (fun c h => ?_) _ c
  split
  · exact Chip.logRecordWith_mem ev hev c h l r
  · rfl

theorem Chip.deliverWith_mem (ev : Chip → Nat → Nat → Chip) (hev : ∀ c p b, (ev c p b).mem = c.mem) (c : Chip) (page b : Nat) :
    (Chip.deliverWith ev c page b).mem = c.mem := by
  unfold Chip.deliverWith
  dsimp only
  repeat' split
  all_goals
    simp only [Chip.send_mem, Chip.logHereWith_mem ev hev, Chip.mem_mk, Stores.eta, Chip.mem_parts]

theorem Chip.raiseN_mem (n : Nat) : ∀ (c : Chip) (page b : Nat), (Chip.raiseN n c page b).mem = c.mem := by
  induction n with
  | zero => exact fun c page b => rfl
  | succ n ih =>
    intro c page b
    unfold Chip.raiseN
    dsimp only
    split
    · rfl
    · split
      · rw [Chip.deliverWith_mem _ ih, Chip.wr_mem]
      · rw [Chip.wr_mem]

theorem Chip.raiseBit_mem (c : Chip) (page b : Nat) : (c.raiseBit page b).mem = c.mem := Chip.raiseN_mem 25 c page b

theorem Chip.deliverEvent_mem (c : Chip) (page b : Nat) : (c.deliverEvent page b).mem = c.mem :=
  Chip.deliverWith_mem _ Chip.raiseBit_mem c page b

theorem Chip.enterLog_mem (c : Chip) (h : Fin 24) (l : Nat) (r : EventRec) : (c.enterLog h l r).mem = c.mem :=
  Chip.enterLogWith_mem _ Chip.raiseBit_mem c h l r

theorem Chip.logRecord_mem (c : Chip) (h : Fin 24) (l : Nat) (r : EventRec) : (c.logRecord h l r).mem = c.mem :=
  Chip.logRecordWith_mem _ Chip.raiseBit_mem c h l r

theorem Chip.logHere_mem (c : Chip) (l : Nat) (r : EventRec) : (c.logHere l r).mem = c.mem :=
  Chip.logHereWith_mem _ Chip.raiseBit_mem c l r

theorem Chip.raise_mem (c : Chip) (f : Fld) : (Chip.raise c f).mem = c.mem := by
  unfold Chip.raise
  simp only [↓Chip.raiseBit_mem, ↓Chip.mem_mk, Stores.eta, Chip.mem_parts]

theorem Chip.raiseHist_mem (c : Chip) (h : Fin 24) : (Chip.raiseHist c h).mem = c.mem := by
  unfold Chip.raiseHist
  first
  | (simp only [↓Chip.mapHead_mem, ↓Chip.raise_mem, ↓Chip.mem_mk, Stores.eta, Chip.mem_parts]; done)
  | try dsimp only
    repeat' first
    | with_reducible rfl
    | split
    | simp only [↓Chip.mapHead_mem, ↓Chip.raise_mem, ↓Chip.mem_mk, Stores.eta, Chip.mem_parts]

theorem Chip.toHost_mem (c : Chip) (h : Fin 24) (m : HostMsg) : (Chip.toHost c h m).mem = c.mem := by
  unfold Chip.toHost
  simp only [↓Chip.pushFlit_mem, ↓Chip.raiseHist_mem, ↓Chip.mem_mk, Stores.eta, Chip.mem_parts]

theorem Chip.headRecord_mem (c : Chip) (h : Fin 24) (l page sub addr : Nat) : (Chip.headRecord c h l page sub addr).mem = c.mem := by
  unfold Chip.headRecord
  first
  | (simp only [↓Chip.logRecord_mem, ↓Chip.mem_mk, Stores.eta, Chip.mem_parts]; done)
  | try dsimp only
    repeat' first
    | with_reducible rfl
    | split
    | simp only [↓Chip.logRecord_mem, ↓Chip.mem_mk, Stores.eta, Chip.mem_parts]

theorem Chip.headMedia_mem (c : Chip) (h : Fin 24) (l : Nat) (form : RecForm) (page dpa : Nat) : (Chip.headMedia c h l form page dpa).mem = c.mem := by
  unfold Chip.headMedia
  first
  | (simp only [↓Chip.logRecord_mem, ↓Chip.mem_mk, Stores.eta, Chip.mem_parts]; done)
  | try dsimp only
    repeat' first
    | with_reducible rfl
    | split
    | simp only [↓Chip.logRecord_mem, ↓Chip.mem_mk, Stores.eta, Chip.mem_parts]

theorem Chip.reject_mem (c : Chip) (page code off : Nat) : (Chip.reject c page code off).mem = c.mem := by
  unfold Chip.reject
  simp only [↓Chip.wr_mem, ↓Chip.raiseBit_mem, ↓Chip.mem_mk, Stores.eta, Chip.mem_parts]

theorem Chip.dloFlush_mem (c : Chip) : (Chip.dloFlush c).mem = c.mem := by
  unfold Chip.dloFlush
  first
  | (simp only [↓Chip.put_mem, ↓Chip.cnt_mem, ↓Chip.raise_mem, ↓Chip.mem_mk, Stores.eta, Chip.mem_parts]; done)
  | try dsimp only
    repeat' first
    | with_reducible rfl
    | split
    | simp only [↓Chip.put_mem, ↓Chip.cnt_mem, ↓Chip.raise_mem, ↓Chip.mem_mk, Stores.eta, Chip.mem_parts]

theorem Chip.dloMany_mem (c : Chip) : (Chip.dloMany c).mem = c.mem := by
  unfold Chip.dloMany
  first
  | (simp only [↓Chip.dloFlush_mem, ↓Chip.mem_mk, Stores.eta, Chip.mem_parts]; done)
  | try dsimp only
    repeat' first
    | with_reducible rfl
    | split
    | simp only [↓Chip.dloFlush_mem, ↓Chip.mem_mk, Stores.eta, Chip.mem_parts]

theorem Chip.dloEnter_mem (c : Chip) (source level kind copy address location : Nat) (syndrome : Option (BitVec 128)) : (Chip.dloEnter c source level kind copy address location syndrome).mem = c.mem := by
  unfold Chip.dloEnter
  first
  | (simp only [↓Chip.put_mem, ↓Chip.cnt_mem, ↓Chip.raise_mem, ↓Chip.mem_mk, Stores.eta, Chip.mem_parts]; done)
  | try dsimp only
    repeat' first
    | with_reducible rfl
    | split
    | simp only [↓Chip.put_mem, ↓Chip.cnt_mem, ↓Chip.raise_mem, ↓Chip.mem_mk, Stores.eta, Chip.mem_parts]

theorem Chip.dlo_mem (c : Chip) (source level kind copy address location : Nat) (syndrome : Option (BitVec 128)) : (Chip.dlo c source level kind copy address location syndrome).mem = c.mem := by
  unfold Chip.dlo
  simp only [↓Chip.dloMany_mem, ↓Chip.dloEnter_mem, ↓Chip.mem_mk, Stores.eta, Chip.mem_parts]

theorem Chip.meetChannel_mem (c : Chip) (d : Nat) : (Chip.meetChannel c d).mem = c.mem := by
  unfold Chip.meetChannel
  first
  | (simp only [↓Chip.put_mem, ↓Chip.cnt_mem, ↓Chip.raise_mem, ↓Chip.mem_mk, Stores.eta, Chip.mem_parts]; done)
  | try dsimp only
    repeat' first
    | with_reducible rfl
    | split
    | simp only [↓Chip.put_mem, ↓Chip.cnt_mem, ↓Chip.raise_mem, ↓Chip.mem_mk, Stores.eta, Chip.mem_parts]

end Sys2Proof.Machine
end

