-- ==== Sys2Proof/Laws/MemSupervisor.lean ====
section
/-! SUPPORT. The operations of Machine/Supervisor.lean that leave the byte stores of a chip as they are. -/
namespace Sys2Proof.Machine

set_option simprocs false

theorem Chip.setTrack_mem (c : Chip) (h : Fin 24) (st : Nat) : (Chip.setTrack c h st).mem = c.mem := by
  unfold Chip.setTrack
  simp only [↓Chip.put_mem, ↓Chip.mem_mk, Stores.eta, Chip.mem_parts]

theorem Chip.acquire_mem (c : Chip) (h : Fin 24) : (Chip.acquire c h).mem = c.mem := by
  unfold Chip.acquire
  simp only [↓Chip.mapHead_mem, ↓Chip.setTrack_mem, ↓Chip.mem_mk, Stores.eta, Chip.mem_parts]

theorem Chip.showFetches_mem (c : Chip) (h : Fin 24) : (Chip.showFetches c h).mem = c.mem := by
  unfold Chip.showFetches
  simp only [↓Chip.put_mem, ↓Chip.mem_mk, Stores.eta, Chip.mem_parts]

theorem Chip.setLocks_mem (c : Chip) (h : Fin 24) (on : Bool) : (Chip.setLocks c h on).mem = c.mem := by
  unfold Chip.setLocks
  first
  | (simp only [↓Chip.put_mem, ↓Chip.mem_mk, Stores.eta, Chip.mem_parts]; done)
  | try dsimp only
    repeat' first
    | with_reducible rfl
    | split
    | with_reducible refine (Chip.foldl_mem _ (fun c x => ?_) _ _).trans ?_
    | simp only [↓Chip.put_mem, ↓Chip.mem_mk, Stores.eta, Chip.mem_parts]

theorem Chip.lose_mem (c : Chip) (h : Fin 24) : (Chip.lose c h).mem = c.mem := by
  unfold Chip.lose
  simp only [↓Chip.cnt_mem, ↓Chip.mapHead_mem, ↓Chip.send_mem, ↓Chip.raise_mem, ↓Chip.setTrack_mem, ↓Chip.showFetches_mem, ↓Chip.mem_mk,
      Stores.eta, Chip.mem_parts]

theorem Chip.stopTracking_mem (c : Chip) (h : Fin 24) : (Chip.stopTracking c h).mem = c.mem := by
  unfold Chip.stopTracking
  simp only [↓Chip.mapHead_mem, ↓Chip.setTrack_mem, ↓Chip.showFetches_mem, ↓Chip.setLocks_mem, ↓Chip.mem_mk, Stores.eta, Chip.mem_parts]

theorem Chip.loadCoefs_mem (c : Chip) (h : Fin 24) : (Chip.loadCoefs c h).mem = c.mem := by
  unfold Chip.loadCoefs
  simp only [↓Chip.put_mem, ↓Chip.mem_mk, Stores.eta, Chip.mem_parts]

theorem Chip.setRole_mem (c : Chip) (p : Fin 6) (r : Nat) : (Chip.setRole c p r).mem = c.mem := by
  unfold Chip.setRole
  first
  | (simp only [↓Chip.put_mem, ↓Chip.cnt_mem, ↓Chip.raise_mem, ↓Chip.acquire_mem, ↓Chip.stopTracking_mem, ↓Chip.loadCoefs_mem, ↓Chip.mem_mk,
      Stores.eta, Chip.mem_parts]; done)
  | try dsimp only
    repeat' first
    | with_reducible rfl
    | split
    | with_reducible refine (Chip.foldl_mem _ (fun c x => ?_) _ _).trans ?_
    | simp only [↓Chip.put_mem, ↓Chip.cnt_mem, ↓Chip.raise_mem, ↓Chip.acquire_mem, ↓Chip.stopTracking_mem, ↓Chip.loadCoefs_mem, ↓Chip.mem_mk,
      Stores.eta, Chip.mem_parts]

theorem Chip.setMode_mem (c : Chip) (m : Nat) : (Chip.setMode c m).mem = c.mem := by
  unfold Chip.setMode
  first
  | (simp only [↓Chip.put_mem, ↓Chip.raise_mem, ↓Chip.mem_mk, Stores.eta, Chip.mem_parts]; done)
  | try dsimp only
    repeat' first
    | with_reducible rfl
    | split
    | simp only [↓Chip.put_mem, ↓Chip.raise_mem, ↓Chip.mem_mk, Stores.eta, Chip.mem_parts]

theorem Chip.setEpoch_mem (c : Chip) (e : Nat) : (Chip.setEpoch c e).mem = c.mem := by
  unfold Chip.setEpoch
  simp only [↓Chip.put_mem, ↓Chip.mem_mk, Stores.eta, Chip.mem_parts]

theorem Chip.openChangeMap_mem (c : Chip) : (Chip.openChangeMap c).mem = c.mem := by
  unfold Chip.openChangeMap
  first
  | (simp only [↓Chip.put_mem, ↓Chip.setEpoch_mem, ↓Chip.mem_mk, Stores.eta, Chip.mem_parts]; done)
  | try dsimp only
    repeat' first
    | with_reducible rfl
    | split
    | simp only [↓Chip.put_mem, ↓Chip.setEpoch_mem, ↓Chip.mem_mk, Stores.eta, Chip.mem_parts]

theorem Chip.enterAlone_mem (c : Chip) : (Chip.enterAlone c).mem = c.mem := by
  unfold Chip.enterAlone
  first
  | (simp only [↓Chip.setMode_mem, ↓Chip.openChangeMap_mem, ↓Chip.mem_mk, Stores.eta, Chip.mem_parts]; done)
  | try dsimp only
    repeat' first
    | with_reducible rfl
    | split
    | simp only [↓Chip.setMode_mem, ↓Chip.openChangeMap_mem, ↓Chip.mem_mk, Stores.eta, Chip.mem_parts]

theorem Chip.setOwn_mem (c : Chip) (p : Fin 6) (high : Bool) : (Chip.setOwn c p high).mem = c.mem := by
  unfold Chip.setOwn
  simp only [↓Chip.put_mem, ↓Chip.mem_mk, Stores.eta, Chip.mem_parts]

theorem Chip.assertOwn_mem (c : Chip) (p : Fin 6) : (Chip.assertOwn c p).mem = c.mem := by
  unfold Chip.assertOwn
  first
  | (simp only [↓Chip.setOwn_mem, ↓Chip.mem_mk, Stores.eta, Chip.mem_parts]; done)
  | try dsimp only
    repeat' first
    | with_reducible rfl
    | split
    | simp only [↓Chip.setOwn_mem, ↓Chip.mem_mk, Stores.eta, Chip.mem_parts]

theorem Chip.takeRoles_mem (c : Chip) : (Chip.takeRoles c).mem = c.mem := by
  unfold Chip.takeRoles
  first
  | (simp only [↓Chip.setRole_mem, ↓Chip.setOwn_mem, ↓Chip.assertOwn_mem, ↓Chip.mem_mk, Stores.eta, Chip.mem_parts]; done)
  | try dsimp only
    repeat' first
    | with_reducible rfl
    | split
    | with_reducible refine (Chip.foldl_mem _ (fun c x => ?_) _ _).trans ?_
    | simp only [↓Chip.setRole_mem, ↓Chip.setOwn_mem, ↓Chip.assertOwn_mem, ↓Chip.mem_mk, Stores.eta, Chip.mem_parts]

theorem Chip.dropOwn_mem (c : Chip) : (Chip.dropOwn c).mem = c.mem := by
  unfold Chip.dropOwn
  first
  | (simp only [↓Chip.setOwn_mem, ↓Chip.mem_mk, Stores.eta, Chip.mem_parts]; done)
  | try dsimp only
    repeat' first
    | with_reducible rfl
    | split
    | with_reducible refine (Chip.foldl_mem _ (fun c x => ?_) _ _).trans ?_
    | simp only [↓Chip.setOwn_mem, ↓Chip.mem_mk, Stores.eta, Chip.mem_parts]

theorem Chip.setRound_mem (c : Chip) (n : Nat) : (Chip.setRound c n).mem = c.mem := by
  unfold Chip.setRound
  simp only [↓Chip.mem_mk, Stores.eta, Chip.mem_parts]

theorem Chip.countFailstop_mem (c : Chip) : (Chip.countFailstop c).mem = c.mem := by
  unfold Chip.countFailstop
  simp only [↓Chip.put_mem, ↓Chip.mem_mk, Stores.eta, Chip.mem_parts]

theorem Chip.keepOwnRound_mem (c : Chip) : (Chip.keepOwnRound c).mem = c.mem := by
  unfold Chip.keepOwnRound
  simp only [↓Chip.put_mem, ↓Chip.mem_mk, Stores.eta, Chip.mem_parts]

theorem Chip.stopLink_mem (c : Chip) : (Chip.stopLink c).mem = c.mem := by
  unfold Chip.stopLink
  first
  | (simp only [↓Chip.put_mem, ↓Chip.cnt_mem, ↓Chip.raise_mem, ↓Chip.keepOwnRound_mem, ↓Chip.mem_mk, Stores.eta, Chip.mem_parts]; done)
  | try dsimp only
    repeat' first
    | with_reducible rfl
    | split
    | simp only [↓Chip.put_mem, ↓Chip.cnt_mem, ↓Chip.raise_mem, ↓Chip.keepOwnRound_mem, ↓Chip.mem_mk, Stores.eta, Chip.mem_parts]

theorem Chip.avsSend_mem (c : Chip) (rail kind value : Nat) : (Chip.avsSend c rail kind value).mem = c.mem := by
  unfold Chip.avsSend
  simp only [↓Chip.mem_mk, Stores.eta, Chip.mem_parts]

theorem Chip.clearMargins_mem (c : Chip) : (Chip.clearMargins c).mem = c.mem := by
  unfold Chip.clearMargins
  first
  | (simp only [↓Chip.putCfg_mem, ↓Chip.raise_mem, ↓Chip.avsSend_mem, ↓Chip.mem_mk, Stores.eta, Chip.mem_parts]; done)
  | try dsimp only
    repeat' first
    | with_reducible rfl
    | split
    | with_reducible refine (Chip.foldl_mem _ (fun c x => ?_) _ _).trans ?_
    | simp only [↓Chip.putCfg_mem, ↓Chip.raise_mem, ↓Chip.avsSend_mem, ↓Chip.mem_mk, Stores.eta, Chip.mem_parts]

theorem Chip.freeze_mem (c : Chip) (st : Nat) : (Chip.freeze c st).mem = c.mem := by
  unfold Chip.freeze
  first
  | (simp only [↓Chip.put_mem, ↓Chip.cnt_mem, ↓Chip.raise_mem, ↓Chip.meetChannel_mem, ↓Chip.clearMargins_mem, ↓Chip.mem_mk, Stores.eta,
      Chip.mem_parts]; done)
  | try dsimp only
    repeat' first
    | with_reducible rfl
    | split
    | with_reducible refine (Chip.foldl_mem _ (fun c x => ?_) _ _).trans ?_
    | simp only [↓Chip.put_mem, ↓Chip.cnt_mem, ↓Chip.raise_mem, ↓Chip.meetChannel_mem, ↓Chip.clearMargins_mem, ↓Chip.mem_mk, Stores.eta,
      Chip.mem_parts]

theorem Chip.saveFromHold_mem (c : Chip) : (Chip.saveFromHold c).mem = c.mem := by
  unfold Chip.saveFromHold
  simp only [↓Chip.put_mem, ↓Chip.freeze_mem, ↓Chip.mem_mk, Stores.eta, Chip.mem_parts]

theorem Chip.failStop_mem (c : Chip) (canSave : Bool) : (Chip.failStop c canSave).mem = c.mem := by
  unfold Chip.failStop
  first
  | (simp only [↓Chip.setRole_mem, ↓Chip.setMode_mem, ↓Chip.dropOwn_mem, ↓Chip.countFailstop_mem, ↓Chip.stopLink_mem,
      ↓Chip.saveFromHold_mem, ↓Chip.mem_mk, Stores.eta, Chip.mem_parts]; done)
  | try dsimp only
    repeat' first
    | with_reducible rfl
    | split
    | with_reducible refine (Chip.foldl_mem _ (fun c x => ?_) _ _).trans ?_
    | simp only [↓Chip.setRole_mem, ↓Chip.setMode_mem, ↓Chip.dropOwn_mem, ↓Chip.countFailstop_mem, ↓Chip.stopLink_mem,
      ↓Chip.saveFromHold_mem, ↓Chip.mem_mk, Stores.eta, Chip.mem_parts]

theorem Chip.fencePeer_mem (c : Chip) : (Chip.fencePeer c).mem = c.mem := by
  unfold Chip.fencePeer
  simp only [↓Chip.put_mem, ↓Chip.mem_mk, Stores.eta, Chip.mem_parts]

end Sys2Proof.Machine
end

