-- ==== Sys2Proof/Laws/MemRights.lean ====
section
/-! SUPPORT. The operations of Machine/Rights.lean that leave the byte stores of a chip as they are. -/
namespace Sys2Proof.Machine

set_option simprocs false

theorem Chip.deny_mem (c : Chip) : (Chip.deny c).mem = c.mem := by
  unfold Chip.deny
  simp only [↓Chip.cnt_mem, ↓Chip.raise_mem, ↓Chip.mem_mk, Stores.eta, Chip.mem_parts]

theorem Chip.ifWrites_mem (c : Chip) (rq : Requester) (page : Nat) (f : Chip → Chip) (hf : ∀ c : Chip, (f c).mem = c.mem) :
    (c.ifWrites rq page f).mem = c.mem := by
  unfold Chip.ifWrites
  split
  · exact hf c
  · exact Chip.deny_mem c

theorem Chip.ifMachine_mem (c : Chip) (rq : Requester) (f : Chip → Chip) (hf : ∀ c : Chip, (f c).mem = c.mem) :
    (c.ifMachine rq f).mem = c.mem := by
  unfold Chip.ifMachine
  split
  · exact hf c
  · exact Chip.deny_mem c

theorem Chip.ifRunning_mem (c : Chip) (page off : Nat) (f : Chip → Chip) (hf : ∀ c : Chip, (f c).mem = c.mem) :
    (c.ifRunning page off f).mem = c.mem := by
  unfold Chip.ifRunning
  split
  · exact hf c
  · exact Chip.reject_mem c page 0x0C off

theorem Chip.answer_mem (c : Chip) (rq : Requester) (v : BitVec 64) (status : Nat) : (Chip.answer c rq v status).mem = c.mem := by
  unfold Chip.answer
  simp only [↓Chip.mem_mk, Stores.eta, Chip.mem_parts]

theorem Chip.drew_mem (c : Chip) (kind location : Nat) (last : Bool) : (Chip.drew c kind location last).mem = c.mem := by
  unfold Chip.drew
  first
  | (simp only [↓Chip.cnt_mem, ↓Chip.raise_mem, ↓Chip.dlo_mem, ↓Chip.mem_mk, Stores.eta, Chip.mem_parts]; done)
  | try dsimp only
    repeat' first
    | with_reducible rfl
    | split
    | simp only [↓Chip.cnt_mem, ↓Chip.raise_mem, ↓Chip.dlo_mem, ↓Chip.mem_mk, Stores.eta, Chip.mem_parts]

end Sys2Proof.Machine
end

