-- ==== Sys2Proof/Laws/MemIcu.lean ====
section
/-! SUPPORT. The operations of Machine/Icu.lean that leave the byte stores of a chip as they are. -/
namespace Sys2Proof.Machine

set_option simprocs false

theorem Chip.mapSrc_mem (c : Chip) (i : Nat) (f : IntSource → IntSource) : (Chip.mapSrc c i f).mem = c.mem := by
  unfold Chip.mapSrc
  simp only [↓Chip.mem_mk, Stores.eta, Chip.mem_parts]

theorem Chip.setGroup_mem (c : Chip) (g : Nat) (x : Group) : (Chip.setGroup c g x).mem = c.mem := by
  unfold Chip.setGroup
  simp only [↓Chip.mem_mk, Stores.eta, Chip.mem_parts]

theorem Chip.putLive_mem (c : Chip) (f : Fld) (v : Nat) : (Chip.putLive c f v).mem = c.mem := by
  unfold Chip.putLive
  first
  | (simp only [↓Chip.put_mem, ↓Chip.putCfg_mem, ↓Chip.mem_mk, Stores.eta, Chip.mem_parts]; done)
  | try dsimp only
    repeat' first
    | with_reducible rfl
    | split
    | simp only [↓Chip.put_mem, ↓Chip.putCfg_mem, ↓Chip.mem_mk, Stores.eta, Chip.mem_parts]

theorem Chip.mapCore_mem (c : Chip) (n : Nat) (f : Core → Core) : (Chip.mapCore c n f).mem = c.mem := by
  unfold Chip.mapCore
  simp only [↓Chip.mem_mk, Stores.eta, Chip.mem_parts]

theorem Chip.presentTo_mem (c : Chip) (n : Nat) : (Chip.presentTo c n).mem = c.mem := by
  unfold Chip.presentTo
  first
  | (simp only [↓Chip.mapSrc_mem, ↓Chip.mem_mk, Stores.eta, Chip.mem_parts]; done)
  | try dsimp only
    repeat' first
    | with_reducible rfl
    | split
    | with_reducible refine (Chip.foldl_mem _ (fun c x => ?_) _ _).trans ?_
    | simp only [↓Chip.mapSrc_mem, ↓Chip.mem_mk, Stores.eta, Chip.mem_parts]

theorem Chip.wake_mem (c : Chip) (n : Nat) : (Chip.wake c n).mem = c.mem := by
  unfold Chip.wake
  first
  | (simp only [↓Chip.put_mem, ↓Chip.cnt_mem, ↓Chip.mapCore_mem, ↓Chip.mem_mk, Stores.eta, Chip.mem_parts]; done)
  | try dsimp only
    repeat' first
    | with_reducible rfl
    | split
    | simp only [↓Chip.put_mem, ↓Chip.cnt_mem, ↓Chip.mapCore_mem, ↓Chip.mem_mk, Stores.eta, Chip.mem_parts]

theorem Chip.icuUpdate_mem (c : Chip) : (Chip.icuUpdate c).mem = c.mem := by
  unfold Chip.icuUpdate
  first
  | (simp only [↓Chip.presentTo_mem, ↓Chip.wake_mem, ↓Chip.mem_mk, Stores.eta, Chip.mem_parts]; done)
  | try dsimp only
    repeat' first
    | with_reducible rfl
    | split
    | with_reducible refine (Chip.foldl_mem _ (fun c x => ?_) _ _).trans ?_
    | simp only [↓Chip.presentTo_mem, ↓Chip.wake_mem, ↓Chip.mem_mk, Stores.eta, Chip.mem_parts]

theorem Chip.fireGroup_mem (c : Chip) (g : Nat) : (Chip.fireGroup c g).mem = c.mem := by
  unfold Chip.fireGroup
  first
  | (simp only [↓Chip.cnt_mem, ↓Chip.mapSrc_mem, ↓Chip.setGroup_mem, ↓Chip.mem_mk, Stores.eta, Chip.mem_parts]; done)
  | try dsimp only
    repeat' first
    | with_reducible rfl
    | split
    | with_reducible refine (Chip.foldl_mem _ (fun c x => ?_) _ _).trans ?_
    | simp only [↓Chip.cnt_mem, ↓Chip.mapSrc_mem, ↓Chip.setGroup_mem, ↓Chip.mem_mk, Stores.eta, Chip.mem_parts]

theorem Chip.arrival_mem (c : Chip) (i : Nat) : (Chip.arrival c i).mem = c.mem := by
  unfold Chip.arrival
  first
  | (simp only [↓Chip.cnt_mem, ↓Chip.raise_mem, ↓Chip.mapSrc_mem, ↓Chip.setGroup_mem, ↓Chip.icuUpdate_mem, ↓Chip.fireGroup_mem,
      ↓Chip.mem_mk, Stores.eta, Chip.mem_parts]; done)
  | try dsimp only
    repeat' first
    | with_reducible rfl
    | split
    | simp only [↓Chip.cnt_mem, ↓Chip.raise_mem, ↓Chip.mapSrc_mem, ↓Chip.setGroup_mem, ↓Chip.icuUpdate_mem, ↓Chip.fireGroup_mem,
      ↓Chip.mem_mk, Stores.eta, Chip.mem_parts]

theorem Chip.pulse_mem (c : Chip) (i : Nat) : (Chip.pulse c i).mem = c.mem := by
  unfold Chip.pulse
  simp only [↓Chip.arrival_mem, ↓Chip.mem_mk, Stores.eta, Chip.mem_parts]

theorem Chip.inputLevel_mem (c : Chip) (i : Nat) (high : Bool) : (Chip.inputLevel c i high).mem = c.mem := by
  unfold Chip.inputLevel
  first
  | (simp only [↓Chip.cnt_mem, ↓Chip.mapSrc_mem, ↓Chip.icuUpdate_mem, ↓Chip.arrival_mem, ↓Chip.mem_mk, Stores.eta, Chip.mem_parts]; done)
  | try dsimp only
    repeat' first
    | with_reducible rfl
    | split
    | simp only [↓Chip.cnt_mem, ↓Chip.mapSrc_mem, ↓Chip.icuUpdate_mem, ↓Chip.arrival_mem, ↓Chip.mem_mk, Stores.eta, Chip.mem_parts]

theorem Chip.finishSource_mem (c : Chip) (i : Nat) : (Chip.finishSource c i).mem = c.mem := by
  unfold Chip.finishSource
  first
  | (simp only [↓Chip.mapSrc_mem, ↓Chip.icuUpdate_mem, ↓Chip.arrival_mem, ↓Chip.mem_mk, Stores.eta, Chip.mem_parts]; done)
  | try dsimp only
    repeat' first
    | with_reducible rfl
    | split
    | simp only [↓Chip.mapSrc_mem, ↓Chip.icuUpdate_mem, ↓Chip.arrival_mem, ↓Chip.mem_mk, Stores.eta, Chip.mem_parts]

theorem Chip.claimSource_mem (c : Chip) (n i : Nat) : (Chip.claimSource c n i).mem = c.mem := by
  unfold Chip.claimSource
  simp only [↓Chip.mapSrc_mem, ↓Chip.mem_mk, Stores.eta, Chip.mem_parts]

theorem Chip.noteLate_mem (c : Chip) (n i : Nat) : (Chip.noteLate c n i).mem = c.mem := by
  unfold Chip.noteLate
  first
  | (simp only [↓Chip.cnt_mem, ↓Chip.raise_mem, ↓Chip.mem_mk, Stores.eta, Chip.mem_parts]; done)
  | try dsimp only
    repeat' first
    | with_reducible rfl
    | split
    | simp only [↓Chip.cnt_mem, ↓Chip.raise_mem, ↓Chip.mem_mk, Stores.eta, Chip.mem_parts]

theorem Chip.returnSources_mem (c : Chip) (n : Nat) : (Chip.returnSources c n).mem = c.mem := by
  unfold Chip.returnSources
  first
  | (simp only [↓Chip.mapSrc_mem, ↓Chip.icuUpdate_mem, ↓Chip.mem_mk, Stores.eta, Chip.mem_parts]; done)
  | try dsimp only
    repeat' first
    | with_reducible rfl
    | split
    | with_reducible refine (Chip.foldl_mem _ (fun c x => ?_) _ _).trans ?_
    | simp only [↓Chip.mapSrc_mem, ↓Chip.icuUpdate_mem, ↓Chip.mem_mk, Stores.eta, Chip.mem_parts]

theorem Chip.claimWord_mem (c : Chip) (n : Nat) : (Chip.claimWord c n).1.mem = c.mem := by
  unfold Chip.claimWord
  first
  | (simp only [↓Chip.cnt_mem, ↓Chip.icuUpdate_mem, ↓Chip.claimSource_mem, ↓Chip.noteLate_mem, ↓Chip.mem_mk, Stores.eta, Chip.mem_parts]; done)
  | try dsimp only
    repeat' first
    | with_reducible rfl
    | split
    | simp only [↓Chip.cnt_mem, ↓Chip.icuUpdate_mem, ↓Chip.claimSource_mem, ↓Chip.noteLate_mem, ↓Chip.mem_mk, Stores.eta, Chip.mem_parts]

theorem Chip.complete_mem (c : Chip) (n i : Nat) : (Chip.complete c n i).mem = c.mem := by
  unfold Chip.complete
  first
  | (simp only [↓Chip.put_mem, ↓Chip.cnt_mem, ↓Chip.finishSource_mem, ↓Chip.mem_mk, Stores.eta, Chip.mem_parts]; done)
  | try dsimp only
    repeat' first
    | with_reducible rfl
    | split
    | simp only [↓Chip.put_mem, ↓Chip.cnt_mem, ↓Chip.finishSource_mem, ↓Chip.mem_mk, Stores.eta, Chip.mem_parts]

theorem Chip.swi_mem (c : Chip) (bits : Nat) : (Chip.swi c bits).mem = c.mem := by
  unfold Chip.swi
  first
  | (simp only [↓Chip.pulse_mem, ↓Chip.mem_mk, Stores.eta, Chip.mem_parts]; done)
  | try dsimp only
    repeat' first
    | with_reducible rfl
    | split
    | with_reducible refine (Chip.foldl_mem _ (fun c x => ?_) _ _).trans ?_
    | simp only [↓Chip.pulse_mem, ↓Chip.mem_mk, Stores.eta, Chip.mem_parts]

theorem Chip.sourceDisable_mem (c : Chip) (i : Nat) (late : Bool) : (Chip.sourceDisable c i late).mem = c.mem := by
  unfold Chip.sourceDisable
  first
  | (simp only [↓Chip.mapSrc_mem, ↓Chip.icuUpdate_mem, ↓Chip.mem_mk, Stores.eta, Chip.mem_parts]; done)
  | try dsimp only
    repeat' first
    | with_reducible rfl
    | split
    | simp only [↓Chip.mapSrc_mem, ↓Chip.icuUpdate_mem, ↓Chip.mem_mk, Stores.eta, Chip.mem_parts]

theorem Chip.targetChange_mem (c : Chip) (i target : Nat) : (Chip.targetChange c i target).mem = c.mem := by
  unfold Chip.targetChange
  first
  | (simp only [↓Chip.put_mem, ↓Chip.putCfg_mem, ↓Chip.cnt_mem, ↓Chip.reject_mem, ↓Chip.icuUpdate_mem, ↓Chip.mem_mk, Stores.eta,
      Chip.mem_parts]; done)
  | try dsimp only
    repeat' first
    | with_reducible rfl
    | split
    | simp only [↓Chip.put_mem, ↓Chip.putCfg_mem, ↓Chip.cnt_mem, ↓Chip.reject_mem, ↓Chip.icuUpdate_mem, ↓Chip.mem_mk, Stores.eta,
      Chip.mem_parts]

end Sys2Proof.Machine
end

