-- ==== Sys2Proof/Laws/MemFirmware.lean ====
section
/-! SUPPORT. The operations of Machine/Firmware.lean that leave the byte stores of a chip as they are. -/
namespace Sys2Proof.Machine

set_option simprocs false

theorem Chip.setFlash_mem (c : Chip) (off : Nat) (bs : List Byte) : (Chip.setFlash c off bs).mem = c.mem := by
  unfold Chip.setFlash
  simp only [↓Chip.mem_mk, Stores.eta, Chip.mem_parts]

theorem Chip.blankSector_mem (c : Chip) (sector : Nat) : (Chip.blankSector c sector).mem = c.mem := by
  unfold Chip.blankSector
  simp only [↓Chip.mem_mk, Stores.eta, Chip.mem_parts]

theorem Chip.showPointer_mem (c : Chip) : (Chip.showPointer c).mem = c.mem := by
  unfold Chip.showPointer
  first
  | (simp only [↓Chip.put_mem, ↓Chip.mem_mk, Stores.eta, Chip.mem_parts]; done)
  | try dsimp only
    repeat' first
    | with_reducible rfl
    | split
    | simp only [↓Chip.put_mem, ↓Chip.mem_mk, Stores.eta, Chip.mem_parts]

theorem Chip.efcRefuse_mem (c : Chip) (code : Nat) : (Chip.efcRefuse c code).mem = c.mem := by
  unfold Chip.efcRefuse
  simp only [↓Chip.put_mem, ↓Chip.cnt_mem, ↓Chip.raise_mem, ↓Chip.mem_mk, Stores.eta, Chip.mem_parts]

theorem Chip.efcStart_mem (c : Chip) (op : Nat) : (Chip.efcStart c op).mem = c.mem := by
  unfold Chip.efcStart
  first
  | (simp only [↓Chip.put_mem, ↓Chip.cnt_mem, ↓Chip.mem_mk, Stores.eta, Chip.mem_parts]; done)
  | try dsimp only
    repeat' first
    | with_reducible rfl
    | split
    | simp only [↓Chip.put_mem, ↓Chip.cnt_mem, ↓Chip.mem_mk, Stores.eta, Chip.mem_parts]

theorem Chip.efcGo_mem (c : Chip) (op : Nat) (fetched : Option (Fin 2)) : (Chip.efcGo c op fetched).mem = c.mem := by
  unfold Chip.efcGo
  first
  | (simp only [↓Chip.putCfg_mem, ↓Chip.efcRefuse_mem, ↓Chip.efcStart_mem, ↓Chip.mem_mk, Stores.eta, Chip.mem_parts]; done)
  | try dsimp only
    repeat' first
    | with_reducible rfl
    | split
    | with_reducible refine (Chip.ifRunning_mem _ _ _ _ (fun c => ?_)).trans ?_
    | simp only [↓Chip.putCfg_mem, ↓Chip.efcRefuse_mem, ↓Chip.efcStart_mem, ↓Chip.mem_mk, Stores.eta, Chip.mem_parts]

theorem Chip.efcEnd_mem (c : Chip) (st : Nat) : (Chip.efcEnd c st).mem = c.mem := by
  unfold Chip.efcEnd
  simp only [↓Chip.put_mem, ↓Chip.mem_mk, Stores.eta, Chip.mem_parts]

theorem Chip.clearFlag_mem (c : Chip) (sector : Nat) : (Chip.clearFlag c sector).mem = c.mem := by
  unfold Chip.clearFlag
  simp only [↓Chip.mem_mk, Stores.eta, Chip.mem_parts]

theorem Chip.remapSector_mem (c : Chip) (sector : Nat) : (Chip.remapSector c sector).mem = c.mem := by
  unfold Chip.remapSector
  first
  | (simp only [↓Chip.put_mem, ↓Chip.drew_mem, ↓Chip.blankSector_mem, ↓Chip.mem_mk, Stores.eta, Chip.mem_parts]; done)
  | try dsimp only
    repeat' first
    | with_reducible rfl
    | split
    | simp only [↓Chip.put_mem, ↓Chip.drew_mem, ↓Chip.blankSector_mem, ↓Chip.mem_mk, Stores.eta, Chip.mem_parts]

theorem Chip.efcFail_mem (c : Chip) (x : EfcOp) (firstBad : Nat) : (Chip.efcFail c x firstBad).mem = c.mem := by
  unfold Chip.efcFail
  first
  | (simp only [↓Chip.put_mem, ↓Chip.cnt_mem, ↓Chip.raise_mem, ↓Chip.efcEnd_mem, ↓Chip.clearFlag_mem, ↓Chip.remapSector_mem, ↓Chip.mem_mk,
      Stores.eta, Chip.mem_parts]; done)
  | try dsimp only
    repeat' first
    | with_reducible rfl
    | split
    | simp only [↓Chip.put_mem, ↓Chip.cnt_mem, ↓Chip.raise_mem, ↓Chip.efcEnd_mem, ↓Chip.clearFlag_mem, ↓Chip.remapSector_mem, ↓Chip.mem_mk,
      Stores.eta, Chip.mem_parts]

theorem Chip.efcPass_mem (c : Chip) (x : EfcOp) : (Chip.efcPass c x).mem = c.mem := by
  unfold Chip.efcPass
  first
  | (simp only [↓Chip.raise_mem, ↓Chip.setFlash_mem, ↓Chip.blankSector_mem, ↓Chip.showPointer_mem, ↓Chip.efcEnd_mem, ↓Chip.clearFlag_mem,
      ↓Chip.mem_mk, Stores.eta, Chip.mem_parts]; done)
  | try dsimp only
    repeat' first
    | with_reducible rfl
    | split
    | simp only [↓Chip.raise_mem, ↓Chip.setFlash_mem, ↓Chip.blankSector_mem, ↓Chip.showPointer_mem, ↓Chip.efcEnd_mem, ↓Chip.clearFlag_mem,
      ↓Chip.mem_mk, Stores.eta, Chip.mem_parts]

theorem Chip.deferExpiry_mem (c : Chip) : (Chip.deferExpiry c).mem = c.mem := by
  unfold Chip.deferExpiry
  simp only [↓Chip.cnt_mem, ↓Chip.raise_mem, ↓Chip.mem_mk, Stores.eta, Chip.mem_parts]

theorem Chip.logExpiry_mem (c : Chip) : (Chip.logExpiry c).mem = c.mem := by
  unfold Chip.logExpiry
  simp only [↓Chip.cnt_mem, ↓Chip.raise_mem, ↓Chip.mem_mk, Stores.eta, Chip.mem_parts]

theorem Chip.chipExpiry_mem (c : Chip) : (Chip.chipExpiry c).mem = c.mem := by
  unfold Chip.chipExpiry
  first
  | (simp only [↓Chip.failStop_mem, ↓Chip.logExpiry_mem, ↓Chip.mem_mk, Stores.eta, Chip.mem_parts]; done)
  | try dsimp only
    repeat' first
    | with_reducible rfl
    | split
    | simp only [↓Chip.failStop_mem, ↓Chip.logExpiry_mem, ↓Chip.mem_mk, Stores.eta, Chip.mem_parts]

theorem Chip.coreWarn_mem (c : Chip) (n : Nat) : (Chip.coreWarn c n).mem = c.mem := by
  unfold Chip.coreWarn
  simp only [↓Chip.cnt_mem, ↓Chip.mapCore_mem, ↓Chip.pulse_mem, ↓Chip.mem_mk, Stores.eta, Chip.mem_parts]

theorem Chip.restartCore_mem (c : Chip) (n : Nat) (phys : Nat) (zeroLocal : Bool) : (Chip.restartCore c n phys zeroLocal).mem = c.mem := by
  unfold Chip.restartCore
  first
  | (simp only [↓Chip.put_mem, ↓Chip.mapCore_mem, ↓Chip.returnSources_mem, ↓Chip.mem_mk, Stores.eta, Chip.mem_parts]; done)
  | try dsimp only
    repeat' first
    | with_reducible rfl
    | split
    | simp only [↓Chip.put_mem, ↓Chip.mapCore_mem, ↓Chip.returnSources_mem, ↓Chip.mem_mk, Stores.eta, Chip.mem_parts]

theorem Chip.retireCore_mem (c : Chip) (n : Nat) : (Chip.retireCore c n).mem = c.mem := by
  unfold Chip.retireCore
  simp only [↓Chip.mapCore_mem, ↓Chip.returnSources_mem, ↓Chip.mem_mk, Stores.eta, Chip.mem_parts]

theorem Chip.coreReset_mem (c : Chip) (n : Nat) : (Chip.coreReset c n).mem = c.mem := by
  unfold Chip.coreReset
  first
  | (simp only [↓Chip.wr_mem, ↓Chip.cnt_mem, ↓Chip.raise_mem, ↓Chip.restartCore_mem, ↓Chip.retireCore_mem, ↓Chip.mem_mk, Stores.eta,
      Chip.mem_parts]; done)
  | try dsimp only
    repeat' first
    | with_reducible rfl
    | split
    | simp only [↓Chip.wr_mem, ↓Chip.cnt_mem, ↓Chip.raise_mem, ↓Chip.restartCore_mem, ↓Chip.retireCore_mem, ↓Chip.mem_mk, Stores.eta,
      Chip.mem_parts]

theorem Chip.coreExpiry_mem (c : Chip) (n : Nat) : (Chip.coreExpiry c n).mem = c.mem := by
  unfold Chip.coreExpiry
  first
  | (simp only [↓Chip.logExpiry_mem, ↓Chip.coreReset_mem, ↓Chip.mem_mk, Stores.eta, Chip.mem_parts]; done)
  | try dsimp only
    repeat' first
    | with_reducible rfl
    | split
    | simp only [↓Chip.logExpiry_mem, ↓Chip.coreReset_mem, ↓Chip.mem_mk, Stores.eta, Chip.mem_parts]

theorem Chip.releaseDeferred_mem (c : Chip) : (Chip.releaseDeferred c).mem = c.mem := by
  unfold Chip.releaseDeferred
  first
  | (simp only [↓Chip.chipExpiry_mem, ↓Chip.coreWarn_mem, ↓Chip.coreExpiry_mem, ↓Chip.mem_mk, Stores.eta, Chip.mem_parts]; done)
  | try dsimp only
    repeat' first
    | with_reducible rfl
    | split
    | with_reducible refine (Chip.foldl_mem _ (fun c x => ?_) _ _).trans ?_
    | simp only [↓Chip.chipExpiry_mem, ↓Chip.coreWarn_mem, ↓Chip.coreExpiry_mem, ↓Chip.mem_mk, Stores.eta, Chip.mem_parts]

theorem Chip.activeLock_mem (c : Chip) : (Chip.activeLock c).mem = c.mem := by
  unfold Chip.activeLock
  simp only [↓Chip.put_mem, ↓Chip.mem_mk, Stores.eta, Chip.mem_parts]

theorem Chip.wdtLock_mem (c : Chip) : (Chip.wdtLock c).mem = c.mem := by
  unfold Chip.wdtLock
  simp only [↓Chip.put_mem, ↓Chip.mem_mk, Stores.eta, Chip.mem_parts]

end Sys2Proof.Machine
end

