-- ==== Sys2Proof/Laws/MemBoard.lean ====
section
/-! SUPPORT. The operations of Machine/Board.lean that leave the byte stores of a chip as they are. -/
namespace Sys2Proof.Machine

set_option simprocs false

theorem Chip.saveFail_mem (c : Chip) : (Chip.saveFail c).mem = c.mem := by
  unfold Chip.saveFail
  first
  | (simp only [↓Chip.put_mem, ↓Chip.raise_mem, ↓Chip.setRole_mem, ↓Chip.setMode_mem, ↓Chip.dropOwn_mem, ↓Chip.stopLink_mem, ↓Chip.mem_mk,
      Stores.eta, Chip.mem_parts]; done)
  | try dsimp only
    repeat' first
    | with_reducible rfl
    | split
    | with_reducible refine (Chip.foldl_mem _ (fun c x => ?_) _ _).trans ?_
    | simp only [↓Chip.put_mem, ↓Chip.raise_mem, ↓Chip.setRole_mem, ↓Chip.setMode_mem, ↓Chip.dropOwn_mem, ↓Chip.stopLink_mem, ↓Chip.mem_mk,
      Stores.eta, Chip.mem_parts]

theorem Chip.pfailFall_mem (c : Chip) : (Chip.pfailFall c).mem = c.mem := by
  unfold Chip.pfailFall
  simp only [↓Chip.pulse_mem, ↓Chip.mem_mk, Stores.eta, Chip.mem_parts]

theorem Chip.setPhase_mem (c : Chip) (n : Nat) : (Chip.setPhase c n).mem = c.mem := by
  unfold Chip.setPhase
  simp only [↓Chip.put_mem, ↓Chip.mem_mk, Stores.eta, Chip.mem_parts]

theorem Chip.psqCheck_mem (c : Chip) : (Chip.psqCheck c).mem = c.mem := by
  unfold Chip.psqCheck
  first
  | (simp only [↓Chip.setPhase_mem, ↓Chip.mem_mk, Stores.eta, Chip.mem_parts]; done)
  | try dsimp only
    repeat' first
    | with_reducible rfl
    | split
    | simp only [↓Chip.setPhase_mem, ↓Chip.mem_mk, Stores.eta, Chip.mem_parts]

theorem Chip.enterUp_mem (c : Chip) (s : Nat) : (Chip.enterUp c s).mem = c.mem := by
  unfold Chip.enterUp
  simp only [↓Chip.put_mem, ↓Chip.setPhase_mem, ↓Chip.psqCheck_mem, ↓Chip.mem_mk, Stores.eta, Chip.mem_parts]

theorem Chip.stepDown_mem (c : Chip) : (Chip.stepDown c).mem = c.mem := by
  unfold Chip.stepDown
  first
  | (simp only [↓Chip.put_mem, ↓Chip.cnt_mem, ↓Chip.setPhase_mem, ↓Chip.psqCheck_mem, ↓Chip.mem_mk, Stores.eta, Chip.mem_parts]; done)
  | try dsimp only
    repeat' first
    | with_reducible rfl
    | split
    | simp only [↓Chip.put_mem, ↓Chip.cnt_mem, ↓Chip.setPhase_mem, ↓Chip.psqCheck_mem, ↓Chip.mem_mk, Stores.eta, Chip.mem_parts]

theorem Chip.startDown_mem (c : Chip) : (Chip.startDown c).mem = c.mem := by
  unfold Chip.startDown
  first
  | (simp only [↓Chip.put_mem, ↓Chip.setRole_mem, ↓Chip.dropOwn_mem, ↓Chip.stepDown_mem, ↓Chip.mem_mk, Stores.eta, Chip.mem_parts]; done)
  | try dsimp only
    repeat' first
    | with_reducible rfl
    | split
    | with_reducible refine (Chip.foldl_mem _ (fun c x => ?_) _ _).trans ?_
    | simp only [↓Chip.put_mem, ↓Chip.setRole_mem, ↓Chip.dropOwn_mem, ↓Chip.stepDown_mem, ↓Chip.mem_mk, Stores.eta, Chip.mem_parts]

theorem Chip.lastFault_mem (c : Chip) (rail kind : Nat) : (Chip.lastFault c rail kind).mem = c.mem := by
  unfold Chip.lastFault
  simp only [↓Chip.put_mem, ↓Chip.mem_mk, Stores.eta, Chip.mem_parts]

theorem Chip.upTimeout_mem (c : Chip) : (Chip.upTimeout c).mem = c.mem := by
  unfold Chip.upTimeout
  first
  | (simp only [↓Chip.put_mem, ↓Chip.cnt_mem, ↓Chip.raise_mem, ↓Chip.startDown_mem, ↓Chip.lastFault_mem, ↓Chip.mem_mk, Stores.eta,
      Chip.mem_parts]; done)
  | try dsimp only
    repeat' first
    | with_reducible rfl
    | split
    | simp only [↓Chip.put_mem, ↓Chip.cnt_mem, ↓Chip.raise_mem, ↓Chip.startDown_mem, ↓Chip.lastFault_mem, ↓Chip.mem_mk, Stores.eta,
      Chip.mem_parts]

theorem Chip.psqNext_mem (c : Chip) : (Chip.psqNext c).mem = c.mem := by
  unfold Chip.psqNext
  first
  | (simp only [↓Chip.put_mem, ↓Chip.cnt_mem, ↓Chip.enterUp_mem, ↓Chip.stepDown_mem, ↓Chip.mem_mk, Stores.eta, Chip.mem_parts]; done)
  | try dsimp only
    repeat' first
    | with_reducible rfl
    | split
    | simp only [↓Chip.put_mem, ↓Chip.cnt_mem, ↓Chip.enterUp_mem, ↓Chip.stepDown_mem, ↓Chip.mem_mk, Stores.eta, Chip.mem_parts]

theorem Chip.sendMargin_mem (c : Chip) (k : Nat) : (Chip.sendMargin c k).mem = c.mem := by
  unfold Chip.sendMargin
  simp only [↓Chip.cnt_mem, ↓Chip.avsSend_mem, ↓Chip.mem_mk, Stores.eta, Chip.mem_parts]

theorem Chip.setVdd_mem (c : Chip) (mv : Nat) : (Chip.setVdd c mv).mem = c.mem := by
  unfold Chip.setVdd
  simp only [↓Chip.put_mem, ↓Chip.avsSend_mem, ↓Chip.mem_mk, Stores.eta, Chip.mem_parts]

theorem Chip.planStep_mem (c : Chip) : (Chip.planStep c).mem = c.mem := by
  unfold Chip.planStep
  first
  | (simp only [↓Chip.cnt_mem, ↓Chip.setVdd_mem, ↓Chip.mem_mk, Stores.eta, Chip.mem_parts]; done)
  | try dsimp only
    repeat' first
    | with_reducible rfl
    | split
    | simp only [↓Chip.cnt_mem, ↓Chip.setVdd_mem, ↓Chip.mem_mk, Stores.eta, Chip.mem_parts]

theorem Chip.targetTaken_mem (c : Chip) : (Chip.targetTaken c).mem = c.mem := by
  unfold Chip.targetTaken
  first
  | (simp only [↓Chip.planStep_mem, ↓Chip.mem_mk, Stores.eta, Chip.mem_parts]; done)
  | try dsimp only
    repeat' first
    | with_reducible rfl
    | split
    | simp only [↓Chip.planStep_mem, ↓Chip.mem_mk, Stores.eta, Chip.mem_parts]

theorem Chip.targetFailed_mem (c : Chip) : (Chip.targetFailed c).mem = c.mem := by
  unfold Chip.targetFailed
  simp only [↓Chip.put_mem, ↓Chip.mem_mk, Stores.eta, Chip.mem_parts]

theorem Chip.showSensor_mem (xs : List (Option Nat)) (c : Chip) (n : Nat) : (Chip.showSensor xs c n).mem = c.mem := by
  unfold Chip.showSensor
  first
  | (simp only [↓Chip.put_mem, ↓Chip.cnt_mem, ↓Chip.raise_mem, ↓Chip.mem_mk, Stores.eta, Chip.mem_parts]; done)
  | try dsimp only
    repeat' first
    | with_reducible rfl
    | split
    | simp only [↓Chip.put_mem, ↓Chip.cnt_mem, ↓Chip.raise_mem, ↓Chip.mem_mk, Stores.eta, Chip.mem_parts]

theorem Chip.thermalRuns_mem (c : Chip) (hot acts : Nat) : (Chip.thermalRuns c hot acts).mem = c.mem := by
  unfold Chip.thermalRuns
  first
  | (simp only [↓Chip.mem_mk, Stores.eta, Chip.mem_parts]; done)
  | try dsimp only
    repeat' first
    | with_reducible rfl
    | split
    | simp only [↓Chip.mem_mk, Stores.eta, Chip.mem_parts]

theorem Chip.thermalRound_mem (c : Chip) (xs : List (Option Nat)) : (Chip.thermalRound c xs).mem = c.mem := by
  unfold Chip.thermalRound
  first
  | (simp only [↓Chip.put_mem, ↓Chip.cnt_mem, ↓Chip.peak_mem, ↓Chip.raise_mem, ↓Chip.pulse_mem, ↓Chip.showSensor_mem, ↓Chip.thermalRuns_mem,
      ↓Chip.mem_mk, Stores.eta, Chip.mem_parts]; done)
  | try dsimp only
    repeat' first
    | with_reducible rfl
    | split
    | with_reducible refine (Chip.foldl_mem _ (fun c x => ?_) _ _).trans ?_
    | simp only [↓Chip.put_mem, ↓Chip.cnt_mem, ↓Chip.peak_mem, ↓Chip.raise_mem, ↓Chip.pulse_mem, ↓Chip.showSensor_mem, ↓Chip.thermalRuns_mem,
      ↓Chip.mem_mk, Stores.eta, Chip.mem_parts]

theorem Chip.thermalDelivery_mem (c : Chip) : (Chip.thermalDelivery c).mem = c.mem := by
  unfold Chip.thermalDelivery
  simp only [↓Chip.put_mem, ↓Chip.mem_mk, Stores.eta, Chip.mem_parts]

theorem Chip.showQueue_mem (c : Chip) : (Chip.showQueue c).mem = c.mem := by
  unfold Chip.showQueue
  simp only [↓Chip.put_mem, ↓Chip.mem_mk, Stores.eta, Chip.mem_parts]

theorem Chip.mctpSend_mem (c : Chip) (p : List Byte) : (Chip.mctpSend c p).mem = c.mem := by
  unfold Chip.mctpSend
  first
  | (simp only [↓Chip.cnt_mem, ↓Chip.raise_mem, ↓Chip.showQueue_mem, ↓Chip.mem_mk, Stores.eta, Chip.mem_parts]; done)
  | try dsimp only
    repeat' first
    | with_reducible rfl
    | split
    | simp only [↓Chip.cnt_mem, ↓Chip.raise_mem, ↓Chip.showQueue_mem, ↓Chip.mem_mk, Stores.eta, Chip.mem_parts]

theorem Chip.storeCommit_mem (c : Chip) : (Chip.storeCommit c).mem = c.mem := by
  unfold Chip.storeCommit
  first
  | (simp only [↓Chip.put_mem, ↓Chip.reject_mem, ↓Chip.mem_mk, Stores.eta, Chip.mem_parts]; done)
  | try dsimp only
    repeat' first
    | with_reducible rfl
    | split
    | with_reducible refine (Chip.foldl_mem _ (fun c x => ?_) _ _).trans ?_
    | simp only [↓Chip.put_mem, ↓Chip.reject_mem, ↓Chip.mem_mk, Stores.eta, Chip.mem_parts]

theorem Chip.marginWrite_mem (c : Chip) (k : Nat) (steps : BitVec 8) : (Chip.marginWrite c k steps).mem = c.mem := by
  unfold Chip.marginWrite
  first
  | (simp only [↓Chip.reject_mem, ↓Chip.putLive_mem, ↓Chip.sendMargin_mem, ↓Chip.mem_mk, Stores.eta, Chip.mem_parts]; done)
  | try dsimp only
    repeat' first
    | with_reducible rfl
    | split
    | simp only [↓Chip.reject_mem, ↓Chip.putLive_mem, ↓Chip.sendMargin_mem, ↓Chip.mem_mk, Stores.eta, Chip.mem_parts]

end Sys2Proof.Machine
end

