-- ==== Sys2Proof/Laws/MemDram.lean ====
section
/-! SUPPORT. The operations of Machine/Dram.lean that leave the byte stores of a chip as they are. -/
namespace Sys2Proof.Machine

set_option simprocs false

theorem Chip.mapChan_mem (c : Chip) (d : Nat) (f : Chan → Chan) : (Chip.mapChan c d f).mem = c.mem := by
  unfold Chip.mapChan
  simp only [↓Chip.mem_mk, Stores.eta, Chip.mem_parts]

theorem Chip.setTokens_mem (c : Chip) (d : Nat) (k : Client) (n : Nat) : (Chip.setTokens c d k n).mem = c.mem := by
  unfold Chip.setTokens
  simp only [↓Chip.mapChan_mem, ↓Chip.mem_mk, Stores.eta, Chip.mem_parts]

theorem Chip.fillTokens_mem (c : Chip) (d : Nat) (k : Client) : (Chip.fillTokens c d k).mem = c.mem := by
  unfold Chip.fillTokens
  simp only [↓Chip.setTokens_mem, ↓Chip.mem_mk, Stores.eta, Chip.mem_parts]

theorem Chip.issueAccess_mem (c : Chip) (d : Nat) (k : Client) (n line : Nat) : (Chip.issueAccess c d k n line).mem = c.mem := by
  unfold Chip.issueAccess
  first
  | (simp only [↓Chip.cnt_mem, ↓Chip.mapChan_mem, ↓Chip.setTokens_mem, ↓Chip.mem_mk, Stores.eta, Chip.mem_parts]; done)
  | try dsimp only
    repeat' first
    | with_reducible rfl
    | split
    | simp only [↓Chip.cnt_mem, ↓Chip.mapChan_mem, ↓Chip.setTokens_mem, ↓Chip.mem_mk, Stores.eta, Chip.mem_parts]

theorem Chip.waitTokens_mem (c : Chip) (d : Nat) (k : Client) (line : Nat) : (Chip.waitTokens c d k line).mem = c.mem := by
  unfold Chip.waitTokens
  first
  | (simp only [↓Chip.cnt_mem, ↓Chip.raise_mem, ↓Chip.mapChan_mem, ↓Chip.mem_mk, Stores.eta, Chip.mem_parts]; done)
  | try dsimp only
    repeat' first
    | with_reducible rfl
    | split
    | simp only [↓Chip.cnt_mem, ↓Chip.raise_mem, ↓Chip.mapChan_mem, ↓Chip.mem_mk, Stores.eta, Chip.mem_parts]

theorem Chip.leaveOwed_mem (c : Chip) (d : Nat) (k : Client) (m : Nat) : (Chip.leaveOwed c d k m).mem = c.mem := by
  unfold Chip.leaveOwed
  simp only [↓Chip.mapChan_mem, ↓Chip.mem_mk, Stores.eta, Chip.mem_parts]

theorem Chip.oweLines_mem (c : Chip) (k : Client) (d n : Nat) : (Chip.oweLines c k d n).mem = c.mem := by
  unfold Chip.oweLines
  simp only [↓Chip.leaveOwed_mem, ↓Chip.mem_mk, Stores.eta, Chip.mem_parts]

theorem Chip.oweBlock_mem (c : Chip) (k : Client) (x bytes : Nat) : (Chip.oweBlock c k x bytes).mem = c.mem := by
  unfold Chip.oweBlock
  first
  | (simp only [↓Chip.oweLines_mem, ↓Chip.mem_mk, Stores.eta, Chip.mem_parts]; done)
  | try dsimp only
    repeat' first
    | with_reducible rfl
    | split
    | with_reducible refine (Chip.foldl_mem _ (fun c x => ?_) _ _).trans ?_
    | simp only [↓Chip.oweLines_mem, ↓Chip.mem_mk, Stores.eta, Chip.mem_parts]

theorem Chip.settleClient_mem (c : Chip) (d : Nat) (k : Client) (busy : Bool) : (Chip.settleClient c d k busy).mem = c.mem := by
  unfold Chip.settleClient
  first
  | (simp only [↓Chip.cnt_mem, ↓Chip.raise_mem, ↓Chip.setTokens_mem, ↓Chip.leaveOwed_mem, ↓Chip.mem_mk, Stores.eta, Chip.mem_parts]; done)
  | try dsimp only
    repeat' first
    | with_reducible rfl
    | split
    | simp only [↓Chip.cnt_mem, ↓Chip.raise_mem, ↓Chip.setTokens_mem, ↓Chip.leaveOwed_mem, ↓Chip.mem_mk, Stores.eta, Chip.mem_parts]

theorem Chip.refillTokens_mem (c : Chip) (times d : Nat) (k : Client) : (Chip.refillTokens c times d k).mem = c.mem := by
  unfold Chip.refillTokens
  first
  | (simp only [↓Chip.setTokens_mem, ↓Chip.mem_mk, Stores.eta, Chip.mem_parts]; done)
  | try dsimp only
    repeat' first
    | with_reducible rfl
    | split
    | simp only [↓Chip.setTokens_mem, ↓Chip.mem_mk, Stores.eta, Chip.mem_parts]

theorem Chip.refillChannels_mem (c : Chip) (times : Nat) : (Chip.refillChannels c times).mem = c.mem := by
  unfold Chip.refillChannels
  first
  | (simp only [↓Chip.refillTokens_mem, ↓Chip.mem_mk, Stores.eta, Chip.mem_parts]; done)
  | try dsimp only
    repeat' first
    | with_reducible rfl
    | split
    | with_reducible refine (Chip.foldl_mem _ (fun c x => ?_) _ _).trans ?_
    | simp only [↓Chip.refillTokens_mem, ↓Chip.mem_mk, Stores.eta, Chip.mem_parts]

theorem Chip.setDebt_mem (c : Chip) (d r k : Nat) (v : Int) : (Chip.setDebt c d r k v).mem = c.mem := by
  unfold Chip.setDebt
  simp only [↓Chip.wr_mem, ↓Chip.mem_mk, Stores.eta, Chip.mem_parts]

theorem Chip.closeRows_mem (c : Chip) (d : Nat) (p : Nat → Bool) : (Chip.closeRows c d p).mem = c.mem := by
  unfold Chip.closeRows
  simp only [↓Chip.mapChan_mem, ↓Chip.mem_mk, Stores.eta, Chip.mem_parts]

theorem Chip.refabFallback_mem (d r : Nat) (n : Nat) : ∀ c : Chip, (c.refabFallback d r n).mem = c.mem := by
  induction n with
  | zero => exact fun c => rfl
  | succ n ih =>
    intro c
    unfold Chip.refabFallback
    dsimp only
    split
    · simp only [ih, Chip.raise_mem, Chip.cnt_mem, Chip.mapChan_mem, Chip.closeRows_mem]
      exact Chip.foldl_mem _ (fun c k => Chip.setDebt_mem c d r k _) _ c
    · rfl

theorem Chip.enterSelfRefresh_mem (c : Chip) (d : Nat) : (Chip.enterSelfRefresh c d).mem = c.mem := by
  unfold Chip.enterSelfRefresh
  first
  | (simp only [↓Chip.put_mem, ↓Chip.cnt_mem, ↓Chip.raise_mem, ↓Chip.setDebt_mem, ↓Chip.mem_mk, Stores.eta, Chip.mem_parts]; done)
  | try dsimp only
    repeat' first
    | with_reducible rfl
    | split
    | with_reducible refine (Chip.foldl_mem _ (fun c x => ?_) _ _).trans ?_
    | simp only [↓Chip.put_mem, ↓Chip.cnt_mem, ↓Chip.raise_mem, ↓Chip.setDebt_mem, ↓Chip.mem_mk, Stores.eta, Chip.mem_parts]

theorem Chip.showRanks_mem (c : Chip) (d : Nat) : (Chip.showRanks c d).mem = c.mem := by
  unfold Chip.showRanks
  first
  | (simp only [↓Chip.put_mem, ↓Chip.mem_mk, Stores.eta, Chip.mem_parts]; done)
  | try dsimp only
    repeat' first
    | with_reducible rfl
    | split
    | with_reducible refine (Chip.foldl_mem _ (fun c x => ?_) _ _).trans ?_
    | simp only [↓Chip.put_mem, ↓Chip.mem_mk, Stores.eta, Chip.mem_parts]

theorem Chip.retireRankNow_mem (c : Chip) (d r : Nat) : (Chip.retireRankNow c d r).mem = c.mem := by
  unfold Chip.retireRankNow
  simp only [↓Chip.dlo_mem, ↓Chip.showRanks_mem, ↓Chip.mem_mk, Stores.eta, Chip.mem_parts]

theorem Chip.rankOut_mem (c : Chip) (d r : Nat) : (Chip.rankOut c d r).mem = c.mem := by
  unfold Chip.rankOut
  simp only [↓Chip.mapChan_mem, ↓Chip.closeRows_mem, ↓Chip.mem_mk, Stores.eta, Chip.mem_parts]

theorem Chip.retireRank_mem (c : Chip) (d r : Nat) : (Chip.retireRank c d r).mem = c.mem := by
  unfold Chip.retireRank
  first
  | (simp only [↓Chip.put_mem, ↓Chip.raise_mem, ↓Chip.retireRankNow_mem, ↓Chip.rankOut_mem, ↓Chip.mem_mk, Stores.eta, Chip.mem_parts]; done)
  | try dsimp only
    repeat' first
    | with_reducible rfl
    | split
    | simp only [↓Chip.put_mem, ↓Chip.raise_mem, ↓Chip.retireRankNow_mem, ↓Chip.rankOut_mem, ↓Chip.mem_mk, Stores.eta, Chip.mem_parts]

theorem Chip.pprStart_mem (c : Chip) (d rank bg ba row : Nat) (hard auto : Bool) : (Chip.pprStart c d rank bg ba row hard auto).mem = c.mem := by
  unfold Chip.pprStart
  simp only [↓Chip.put_mem, ↓Chip.meetChannel_mem, ↓Chip.mapChan_mem, ↓Chip.mem_mk, Stores.eta, Chip.mem_parts]

theorem Chip.wantPpr_mem (c : Chip) (d key : Nat) (hard : Bool) : (Chip.wantPpr c d key hard).mem = c.mem := by
  unfold Chip.wantPpr
  first
  | (simp only [↓Chip.pprStart_mem, ↓Chip.mem_mk, Stores.eta, Chip.mem_parts]; done)
  | try dsimp only
    repeat' first
    | with_reducible rfl
    | split
    | simp only [↓Chip.pprStart_mem, ↓Chip.mem_mk, Stores.eta, Chip.mem_parts]

theorem Chip.correctedDevice_mem (c : Chip) (p : DramPlace) (device : Nat) : (Chip.correctedDevice c p device).mem = c.mem := by
  unfold Chip.correctedDevice
  first
  | (simp only [↓Chip.put_mem, ↓Chip.mapChan_mem, ↓Chip.mem_mk, Stores.eta, Chip.mem_parts]; done)
  | try dsimp only
    repeat' first
    | with_reducible rfl
    | split
    | simp only [↓Chip.put_mem, ↓Chip.mapChan_mem, ↓Chip.mem_mk, Stores.eta, Chip.mem_parts]

theorem Chip.correctedLine_mem (c : Chip) (x addr : Nat) (bad : BitVec 20) (patrol queued : Bool) : (Chip.correctedLine c x addr bad patrol queued).mem = c.mem := by
  unfold Chip.correctedLine
  first
  | (simp only [↓Chip.cnt_mem, ↓Chip.raise_mem, ↓Chip.dlo_mem, ↓Chip.mapChan_mem, ↓Chip.oweLines_mem, ↓Chip.correctedDevice_mem,
      ↓Chip.mem_mk, Stores.eta, Chip.mem_parts]; done)
  | try dsimp only
    repeat' first
    | with_reducible rfl
    | split
    | simp only [↓Chip.cnt_mem, ↓Chip.raise_mem, ↓Chip.dlo_mem, ↓Chip.mapChan_mem, ↓Chip.oweLines_mem, ↓Chip.correctedDevice_mem,
      ↓Chip.mem_mk, Stores.eta, Chip.mem_parts]

theorem Chip.uncorrectableLine_mem (c : Chip) (x : Nat) : (Chip.uncorrectableLine c x).mem = c.mem := by
  unfold Chip.uncorrectableLine
  simp only [↓Chip.cnt_mem, ↓Chip.raise_mem, ↓Chip.wantPpr_mem, ↓Chip.mem_mk, Stores.eta, Chip.mem_parts]

theorem Chip.activated_mem (c : Chip) (p : DramPlace) : (Chip.activated c p).mem = c.mem := by
  unfold Chip.activated
  first
  | (simp only [↓Chip.cnt_mem, ↓Chip.mapChan_mem, ↓Chip.closeRows_mem, ↓Chip.mem_mk, Stores.eta, Chip.mem_parts]; done)
  | try dsimp only
    repeat' first
    | with_reducible rfl
    | split
    | simp only [↓Chip.cnt_mem, ↓Chip.mapChan_mem, ↓Chip.closeRows_mem, ↓Chip.mem_mk, Stores.eta, Chip.mem_parts]

theorem Chip.openEarly_mem (c : Chip) (x : Nat) : (Chip.openEarly c x).mem = c.mem := by
  unfold Chip.openEarly
  first
  | (simp only [↓Chip.mapChan_mem, ↓Chip.activated_mem, ↓Chip.mem_mk, Stores.eta, Chip.mem_parts]; done)
  | try dsimp only
    repeat' first
    | with_reducible rfl
    | split
    | simp only [↓Chip.mapChan_mem, ↓Chip.activated_mem, ↓Chip.mem_mk, Stores.eta, Chip.mem_parts]

theorem Chip.accessRow_mem (c : Chip) (x : Nat) (write : Bool) : (Chip.accessRow c x write).mem = c.mem := by
  unfold Chip.accessRow
  first
  | (simp only [↓Chip.cnt_mem, ↓Chip.mapChan_mem, ↓Chip.activated_mem, ↓Chip.mem_mk, Stores.eta, Chip.mem_parts]; done)
  | try dsimp only
    repeat' first
    | with_reducible rfl
    | split
    | simp only [↓Chip.cnt_mem, ↓Chip.mapChan_mem, ↓Chip.activated_mem, ↓Chip.mem_mk, Stores.eta, Chip.mem_parts]

theorem Chip.policyChanged_mem (c : Chip) (d : Nat) : (Chip.policyChanged c d).mem = c.mem := by
  unfold Chip.policyChanged
  simp only [↓Chip.mapChan_mem, ↓Chip.mem_mk, Stores.eta, Chip.mem_parts]

theorem Chip.readBacklog_mem (c : Chip) (d : Nat) : (Chip.readBacklog c d).mem = c.mem := by
  unfold Chip.readBacklog
  first
  | (simp only [↓Chip.cnt_mem, ↓Chip.mapChan_mem, ↓Chip.oweLines_mem, ↓Chip.mem_mk, Stores.eta, Chip.mem_parts]; done)
  | try dsimp only
    repeat' first
    | with_reducible rfl
    | split
    | simp only [↓Chip.cnt_mem, ↓Chip.mapChan_mem, ↓Chip.oweLines_mem, ↓Chip.mem_mk, Stores.eta, Chip.mem_parts]

theorem Chip.newDimm_mem (c : Chip) (d : Nat) (t : ChannelTraining) : (Chip.newDimm c d t).mem = c.mem := by
  unfold Chip.newDimm
  first
  | (simp only [↓Chip.mem_mk, Stores.eta, Chip.mem_parts]; done)
  | try dsimp only
    repeat' first
    | with_reducible rfl
    | split
    | simp only [↓Chip.mem_mk, Stores.eta, Chip.mem_parts]

theorem Chip.trainChannel_mem (c : Chip) (d : Nat) (t : ChannelTraining) : (Chip.trainChannel c d t).1.mem = c.mem := by
  unfold Chip.trainChannel
  first
  | (simp only [↓Chip.put_mem, ↓Chip.raise_mem, ↓Chip.mapChan_mem, ↓Chip.retireRankNow_mem, ↓Chip.newDimm_mem, ↓Chip.mem_mk, Stores.eta,
      Chip.mem_parts]; done)
  | try dsimp only
    repeat' first
    | with_reducible rfl
    | split
    | with_reducible refine (Chip.foldl_mem _ (fun c x => ?_) _ _).trans ?_
    | simp only [↓Chip.put_mem, ↓Chip.raise_mem, ↓Chip.mapChan_mem, ↓Chip.retireRankNow_mem, ↓Chip.newDimm_mem, ↓Chip.mem_mk, Stores.eta,
      Chip.mem_parts]

theorem Chip.trainAll_mem (c : Chip) (x : List ChannelTraining) : (c.trainAll x).1.mem = c.mem := by
  have hl : ∀ (l : List Nat) (a : Chip × Bool), (l.foldl (fun (a : Chip × Bool) d =>
      ((a.1.trainChannel d (x.getD d ⟨0, 0, 0, 0, 0, 0, 0, 0, 0, false, 0, 0, 0⟩)).1,
        a.2 || (a.1.trainChannel d (x.getD d ⟨0, 0, 0, 0, 0, 0, 0, 0, 0, false, 0, 0, 0⟩)).2)) a).1.mem = a.1.mem := by
    intro l
    induction l with
    | nil => exact fun a => rfl
    | cons d r ih => exact fun a => (ih _).trans (Chip.trainChannel_mem _ _ _)
  exact hl _ (c, false)

theorem Chip.payDebts_mem (d : Nat) (c : Chip) (r : Nat) : (Chip.payDebts d c r).mem = c.mem := by
  unfold Chip.payDebts
  first
  | (simp only [↓Chip.cnt_mem, ↓Chip.mapChan_mem, ↓Chip.setDebt_mem, ↓Chip.mem_mk, Stores.eta, Chip.mem_parts]; done)
  | try dsimp only
    repeat' first
    | with_reducible rfl
    | split
    | with_reducible refine (Chip.foldl_mem _ (fun c x => ?_) _ _).trans ?_
    | simp only [↓Chip.cnt_mem, ↓Chip.mapChan_mem, ↓Chip.setDebt_mem, ↓Chip.mem_mk, Stores.eta, Chip.mem_parts]

theorem Chip.pprGo_mem (c : Chip) (d : Nat) : (Chip.pprGo c d).mem = c.mem := by
  unfold Chip.pprGo
  first
  | (simp only [↓Chip.reject_mem, ↓Chip.pprStart_mem, ↓Chip.mem_mk, Stores.eta, Chip.mem_parts]; done)
  | try dsimp only
    repeat' first
    | with_reducible rfl
    | split
    | simp only [↓Chip.reject_mem, ↓Chip.pprStart_mem, ↓Chip.mem_mk, Stores.eta, Chip.mem_parts]

theorem Chip.windowChannel_mem (c : Chip) (d : Nat) : (Chip.windowChannel c d).mem = c.mem := by
  unfold Chip.windowChannel
  first
  | (simp only [↓Chip.putCfg_mem, ↓Chip.drew_mem, ↓Chip.mapChan_mem, ↓Chip.showRanks_mem, ↓Chip.retireRank_mem, ↓Chip.wantPpr_mem,
      ↓Chip.mem_mk, Stores.eta, Chip.mem_parts]; done)
  | try dsimp only
    repeat' first
    | with_reducible rfl
    | split
    | with_reducible refine (Chip.foldl_mem _ (fun c x => ?_) _ _).trans ?_
    | simp only [↓Chip.putCfg_mem, ↓Chip.drew_mem, ↓Chip.mapChan_mem, ↓Chip.showRanks_mem, ↓Chip.retireRank_mem, ↓Chip.wantPpr_mem,
      ↓Chip.mem_mk, Stores.eta, Chip.mem_parts]

end Sys2Proof.Machine
end

