-- ==== Sys2Proof/Laws/MemStore.lean ====
section
/-! SUPPORT. The operations of Machine/Store.lean that leave the byte stores of a chip as they are. -/
namespace Sys2Proof.Machine

set_option simprocs false

theorem Chip.setMdcWay_mem (c : Chip) (set way : Nat) (x : MdcLine) : (Chip.setMdcWay c set way x).mem = c.mem := by
  unfold Chip.setMdcWay
  simp only [↓Chip.mem_mk, Stores.eta, Chip.mem_parts]

theorem Chip.mdcRefer_mem (c : Chip) (set way : Nat) : (Chip.mdcRefer c set way).mem = c.mem := by
  unfold Chip.mdcRefer
  first
  | (simp only [↓Chip.setMdcWay_mem, ↓Chip.mem_mk, Stores.eta, Chip.mem_parts]; done)
  | try dsimp only
    repeat' first
    | with_reducible rfl
    | split
    | with_reducible refine (Chip.foldl_mem _ (fun c x => ?_) _ _).trans ?_
    | simp only [↓Chip.setMdcWay_mem, ↓Chip.mem_mk, Stores.eta, Chip.mem_parts]

theorem Chip.mdcToDram_mem (c : Chip) (line : Nat) : (Chip.mdcToDram c line).mem = c.mem := by
  unfold Chip.mdcToDram
  first
  | (simp only [↓Chip.cnt_mem, ↓Chip.oweBlock_mem, ↓Chip.mem_mk, Stores.eta, Chip.mem_parts]; done)
  | try dsimp only
    repeat' first
    | with_reducible rfl
    | split
    | simp only [↓Chip.cnt_mem, ↓Chip.oweBlock_mem, ↓Chip.mem_mk, Stores.eta, Chip.mem_parts]

theorem Chip.mdcFromDram_mem (c : Chip) (line : Nat) : (Chip.mdcFromDram c line).mem = c.mem := by
  unfold Chip.mdcFromDram
  first
  | (simp only [↓Chip.mem_mk, Stores.eta, Chip.mem_parts]; done)
  | try dsimp only
    repeat' first
    | with_reducible rfl
    | split
    | simp only [↓Chip.mem_mk, Stores.eta, Chip.mem_parts]

theorem Chip.evbDrain_mem (n : Nat) : ∀ c : Chip, (c.evbDrain n).mem = c.mem := by
  induction n with
  | zero => exact fun c => rfl
  | succ n ih =>
    intro c
    unfold Chip.evbDrain
    split
    · rfl
    · rw [ih, Chip.mdcToDram_mem]
      rfl

theorem Chip.evbPush_mem (c : Chip) (line : Nat) : (Chip.evbPush c line).mem = c.mem := by
  unfold Chip.evbPush
  first
  | (simp only [↓Chip.raise_mem, ↓Chip.evbDrain_mem, ↓Chip.mem_mk, Stores.eta, Chip.mem_parts]; done)
  | try dsimp only
    repeat' first
    | with_reducible rfl
    | split
    | simp only [↓Chip.raise_mem, ↓Chip.evbDrain_mem, ↓Chip.mem_mk, Stores.eta, Chip.mem_parts]

theorem Chip.mdcInstall_mem (c : Chip) (line : Nat) (dirty : Bool) : (Chip.mdcInstall c line dirty).mem = c.mem := by
  unfold Chip.mdcInstall
  first
  | (simp only [↓Chip.setMdcWay_mem, ↓Chip.mdcRefer_mem, ↓Chip.mdcToDram_mem, ↓Chip.evbPush_mem, ↓Chip.mem_mk, Stores.eta, Chip.mem_parts]; done)
  | try dsimp only
    repeat' first
    | with_reducible rfl
    | split
    | simp only [↓Chip.setMdcWay_mem, ↓Chip.mdcRefer_mem, ↓Chip.mdcToDram_mem, ↓Chip.evbPush_mem, ↓Chip.mem_mk, Stores.eta, Chip.mem_parts]

theorem Chip.mdcTouch_mem (c : Chip) (line : Nat) (write : Bool) : (Chip.mdcTouch c line write).mem = c.mem := by
  unfold Chip.mdcTouch
  first
  | (simp only [↓Chip.cnt_mem, ↓Chip.oweBlock_mem, ↓Chip.setMdcWay_mem, ↓Chip.mdcRefer_mem, ↓Chip.mdcInstall_mem, ↓Chip.mem_mk, Stores.eta,
      Chip.mem_parts]; done)
  | try dsimp only
    repeat' first
    | with_reducible rfl
    | split
    | simp only [↓Chip.cnt_mem, ↓Chip.oweBlock_mem, ↓Chip.setMdcWay_mem, ↓Chip.mdcRefer_mem, ↓Chip.mdcInstall_mem, ↓Chip.mem_mk, Stores.eta,
      Chip.mem_parts]

theorem Chip.markChange_mem (c : Chip) (extent : Nat) : (Chip.markChange c extent).mem = c.mem := by
  unfold Chip.markChange
  first
  | (simp only [↓Chip.put_mem, ↓Chip.cnt_mem, ↓Chip.mdcTouch_mem, ↓Chip.mem_mk, Stores.eta, Chip.mem_parts]; done)
  | try dsimp only
    repeat' first
    | with_reducible rfl
    | split
    | simp only [↓Chip.put_mem, ↓Chip.cnt_mem, ↓Chip.mdcTouch_mem, ↓Chip.mem_mk, Stores.eta, Chip.mem_parts]

theorem Chip.mapExt_mem (c : Chip) (e : Nat) (f : ExtEntry → ExtEntry) : (Chip.mapExt c e f).mem = c.mem := by
  unfold Chip.mapExt
  simp only [↓Chip.mdcTouch_mem, ↓Chip.mem_mk, Stores.eta, Chip.mem_parts]

theorem Chip.setParcel_mem (c : Chip) (p : Nat) (x : ParcelEntry) : (Chip.setParcel c p x).mem = c.mem := by
  unfold Chip.setParcel
  simp only [↓Chip.mdcTouch_mem, ↓Chip.mem_mk, Stores.eta, Chip.mem_parts]

theorem Chip.tcInvalidate_mem (c : Chip) (e : Nat) : (Chip.tcInvalidate c e).mem = c.mem := by
  unfold Chip.tcInvalidate
  first
  | (simp only [↓Chip.mem_mk, Stores.eta, Chip.mem_parts]; done)
  | try dsimp only
    repeat' first
    | with_reducible rfl
    | split
    | with_reducible refine (Chip.foldl_mem _ (fun c x => ?_) _ _).trans ?_
    | simp only [↓Chip.mem_mk, Stores.eta, Chip.mem_parts]

theorem Chip.mapBits_mem (c old : Chip) (p : Nat) : (Chip.mapBits c old p).mem = c.mem := by
  unfold Chip.mapBits
  first
  | (simp only [↓Chip.mdcTouch_mem, ↓Chip.mem_mk, Stores.eta, Chip.mem_parts]; done)
  | try dsimp only
    repeat' first
    | with_reducible rfl
    | split
    | simp only [↓Chip.mdcTouch_mem, ↓Chip.mem_mk, Stores.eta, Chip.mem_parts]

theorem Chip.setDirty_mem (c : Chip) (p : Nat) (on : Bool) : (Chip.setDirty c p on).mem = c.mem := by
  unfold Chip.setDirty
  first
  | (simp only [↓Chip.mdcTouch_mem, ↓Chip.mapBits_mem, ↓Chip.mem_mk, Stores.eta, Chip.mem_parts]; done)
  | try dsimp only
    repeat' first
    | with_reducible rfl
    | split
    | simp only [↓Chip.mdcTouch_mem, ↓Chip.mapBits_mem, ↓Chip.mem_mk, Stores.eta, Chip.mem_parts]

theorem Chip.chainAll_mem (c : Chip) : (Chip.chainAll c).mem = c.mem := by
  unfold Chip.chainAll
  first
  | (simp only [↓Chip.mem_mk, Stores.eta, Chip.mem_parts]; done)
  | try dsimp only
    repeat' first
    | with_reducible rfl
    | split
    | with_reducible refine (Chip.foldl_mem _ (fun c x => ?_) _ _).trans ?_
    | with_reducible refine (Chip.repeat_mem _ (fun c => ?_) _ _).trans ?_
    | simp only [↓Chip.mem_mk, Stores.eta, Chip.mem_parts]

theorem Chip.setReady_mem (c : Chip) (r : Nat) : (Chip.setReady c r).mem = c.mem := by
  unfold Chip.setReady
  simp only [↓Chip.mdcTouch_mem, ↓Chip.mem_mk, Stores.eta, Chip.mem_parts]

theorem Chip.wantRange_mem (c : Chip) (r : Nat) : (Chip.wantRange c r).mem = c.mem := by
  unfold Chip.wantRange
  first
  | (simp only [↓Chip.cnt_mem, ↓Chip.mem_mk, Stores.eta, Chip.mem_parts]; done)
  | try dsimp only
    repeat' first
    | with_reducible rfl
    | split
    | simp only [↓Chip.cnt_mem, ↓Chip.mem_mk, Stores.eta, Chip.mem_parts]

theorem Chip.releaseFrame_mem (c : Chip) (e : Nat) : (Chip.releaseFrame c e).mem = c.mem := by
  unfold Chip.releaseFrame
  first
  | (simp only [↓Chip.mapExt_mem, ↓Chip.setDirty_mem, ↓Chip.mem_mk, Stores.eta, Chip.mem_parts]; done)
  | try dsimp only
    repeat' first
    | with_reducible rfl
    | split
    | with_reducible refine (Chip.foldl_mem _ (fun c x => ?_) _ _).trans ?_
    | simp only [↓Chip.mapExt_mem, ↓Chip.setDirty_mem, ↓Chip.mem_mk, Stores.eta, Chip.mem_parts]

theorem Chip.healLine_mem (c : Chip) (dpa : Nat) (poison : Bool) : (Chip.healLine c dpa poison).mem = c.mem := by
  unfold Chip.healLine
  first
  | (simp only [↓Chip.mem_mk, Stores.eta, Chip.mem_parts]; done)
  | try dsimp only
    repeat' first
    | with_reducible rfl
    | split
    | simp only [↓Chip.mem_mk, Stores.eta, Chip.mem_parts]

theorem Chip.touchExtent_mem (c : Chip) (e : Nat) : (Chip.touchExtent c e).mem = c.mem := by
  unfold Chip.touchExtent
  first
  | (simp only [↓Chip.mapExt_mem, ↓Chip.mem_mk, Stores.eta, Chip.mem_parts]; done)
  | try dsimp only
    repeat' first
    | with_reducible rfl
    | split
    | simp only [↓Chip.mapExt_mem, ↓Chip.mem_mk, Stores.eta, Chip.mem_parts]

end Sys2Proof.Machine
end

