-- ==== Sys2Proof/Laws/MemWmb.lean ====
section
/-! SUPPORT. The operations of Machine/Wmb.lean that leave the byte stores of a chip as they are. -/
namespace Sys2Proof.Machine

set_option simprocs false

theorem Chip.setWmb_mem (c : Chip) (line : Nat) (e : WmbEntry) : (Chip.setWmb c line e).mem = c.mem := by
  unfold Chip.setWmb
  simp only [↓Chip.mem_mk, Stores.eta, Chip.mem_parts]

theorem Chip.setCharge_mem (c : Chip) (line : Nat) (x : Charge) : (Chip.setCharge c line x).mem = c.mem := by
  unfold Chip.setCharge
  simp only [↓Chip.mem_mk, Stores.eta, Chip.mem_parts]

theorem Chip.wmbMerge_mem (c : Chip) (line : Nat) (data : Line) (en : BitVec 64) (poison : Bool) (full : Bool) : (Chip.wmbMerge c line data en poison full).mem = c.mem := by
  unfold Chip.wmbMerge
  first
  | (simp only [↓Chip.cnt_mem, ↓Chip.markChange_mem, ↓Chip.touchExtent_mem, ↓Chip.setWmb_mem, ↓Chip.mem_mk, Stores.eta, Chip.mem_parts]; done)
  | try dsimp only
    repeat' first
    | with_reducible rfl
    | split
    | simp only [↓Chip.cnt_mem, ↓Chip.markChange_mem, ↓Chip.touchExtent_mem, ↓Chip.setWmb_mem, ↓Chip.mem_mk, Stores.eta, Chip.mem_parts]

theorem Chip.wmbWrite_mem (c : Chip) (h : Fin 24) (pos line : Nat) (data : Line) (en : BitVec 64) (poison : Bool) (full : Bool) : (Chip.wmbWrite c h pos line data en poison full).mem = c.mem := by
  unfold Chip.wmbWrite
  first
  | (simp only [↓Chip.cnt_mem, ↓Chip.setCharge_mem, ↓Chip.wmbMerge_mem, ↓Chip.mem_mk, Stores.eta, Chip.mem_parts]; done)
  | try dsimp only
    repeat' first
    | with_reducible rfl
    | split
    | simp only [↓Chip.cnt_mem, ↓Chip.setCharge_mem, ↓Chip.wmbMerge_mem, ↓Chip.mem_mk, Stores.eta, Chip.mem_parts]

theorem Chip.sendWriteWm_mem (c : Chip) (h : Fin 24) (pos : Nat) : (Chip.sendWriteWm c h pos).mem = c.mem := by
  unfold Chip.sendWriteWm
  first
  | (simp only [↓Chip.mapHead_mem, ↓Chip.post_mem, ↓Chip.mem_mk, Stores.eta, Chip.mem_parts]; done)
  | try dsimp only
    repeat' first
    | with_reducible rfl
    | split
    | simp only [↓Chip.mapHead_mem, ↓Chip.post_mem, ↓Chip.mem_mk, Stores.eta, Chip.mem_parts]

theorem Chip.sendDrainWm_mem (c : Chip) (h : Fin 24) : (Chip.sendDrainWm c h).mem = c.mem := by
  unfold Chip.sendDrainWm
  first
  | (simp only [↓Chip.mapHead_mem, ↓Chip.post_mem, ↓Chip.mem_mk, Stores.eta, Chip.mem_parts]; done)
  | try dsimp only
    repeat' first
    | with_reducible rfl
    | split
    | simp only [↓Chip.mapHead_mem, ↓Chip.post_mem, ↓Chip.mem_mk, Stores.eta, Chip.mem_parts]

theorem Chip.releaseHere_mem (c : Chip) (line : Nat) : (Chip.releaseHere c line).mem = c.mem := by
  unfold Chip.releaseHere
  first
  | (simp only [↓Chip.setCharge_mem, ↓Chip.sendDrainWm_mem, ↓Chip.mem_mk, Stores.eta, Chip.mem_parts]; done)
  | try dsimp only
    repeat' first
    | with_reducible rfl
    | split
    | simp only [↓Chip.setCharge_mem, ↓Chip.sendDrainWm_mem, ↓Chip.mem_mk, Stores.eta, Chip.mem_parts]

theorem Chip.mapTags_mem (c : Chip) (p : Tag → Bool) (f : Tag → Tag) : (Chip.mapTags c p f).mem = c.mem := by
  unfold Chip.mapTags
  first
  | (simp only [↓Chip.mem_mk, Stores.eta, Chip.mem_parts]; done)
  | try dsimp only
    repeat' first
    | with_reducible rfl
    | split
    | simp only [↓Chip.mem_mk, Stores.eta, Chip.mem_parts]

theorem Chip.setTag_mem (c : Chip) (t : Tag) : (Chip.setTag c t).mem = c.mem := by
  unfold Chip.setTag
  simp only [↓Chip.mapTags_mem, ↓Chip.mem_mk, Stores.eta, Chip.mem_parts]

theorem Chip.dropTag_mem (c : Chip) (t : Tag) : (Chip.dropTag c t).mem = c.mem := by
  unfold Chip.dropTag
  simp only [↓Chip.mem_mk, Stores.eta, Chip.mem_parts]

theorem Chip.respondData_mem (c : Chip) (t : Tag) (data : Line) (poison : Bool) : (Chip.respondData c t data poison).mem = c.mem := by
  unfold Chip.respondData
  first
  | (simp only [↓Chip.cnt_mem, ↓Chip.raise_mem, ↓Chip.toHost_mem, ↓Chip.setTag_mem, ↓Chip.dropTag_mem, ↓Chip.mem_mk, Stores.eta,
      Chip.mem_parts]; done)
  | try dsimp only
    repeat' first
    | with_reducible rfl
    | split
    | simp only [↓Chip.cnt_mem, ↓Chip.raise_mem, ↓Chip.toHost_mem, ↓Chip.setTag_mem, ↓Chip.dropTag_mem, ↓Chip.mem_mk, Stores.eta,
      Chip.mem_parts]

theorem Chip.respondCmp_mem (c : Chip) (t : Tag) : (Chip.respondCmp c t).mem = c.mem := by
  unfold Chip.respondCmp
  first
  | (simp only [↓Chip.cnt_mem, ↓Chip.toHost_mem, ↓Chip.setTag_mem, ↓Chip.dropTag_mem, ↓Chip.mem_mk, Stores.eta, Chip.mem_parts]; done)
  | try dsimp only
    repeat' first
    | with_reducible rfl
    | split
    | simp only [↓Chip.cnt_mem, ↓Chip.toHost_mem, ↓Chip.setTag_mem, ↓Chip.dropTag_mem, ↓Chip.mem_mk, Stores.eta, Chip.mem_parts]

theorem Chip.completeWrite_mem (c : Chip) (t : Tag) : (Chip.completeWrite c t).mem = c.mem := by
  unfold Chip.completeWrite
  first
  | (simp only [↓Chip.cnt_mem, ↓Chip.mapHead_mem, ↓Chip.raise_mem, ↓Chip.setTag_mem, ↓Chip.respondCmp_mem, ↓Chip.mem_mk, Stores.eta,
      Chip.mem_parts]; done)
  | try dsimp only
    repeat' first
    | with_reducible rfl
    | split
    | simp only [↓Chip.cnt_mem, ↓Chip.mapHead_mem, ↓Chip.raise_mem, ↓Chip.setTag_mem, ↓Chip.respondCmp_mem, ↓Chip.mem_mk, Stores.eta,
      Chip.mem_parts]

theorem Chip.suspendOne_mem (u : Nat) (cols : List Nat) (c : Chip) : (Chip.suspendOne u cols c).mem = c.mem := by
  unfold Chip.suspendOne
  first
  | (simp only [↓Chip.cnt_mem, ↓Chip.mem_mk, Stores.eta, Chip.mem_parts]; done)
  | try dsimp only
    repeat' first
    | with_reducible rfl
    | split
    | simp only [↓Chip.cnt_mem, ↓Chip.mem_mk, Stores.eta, Chip.mem_parts]

theorem Chip.suspendFor_mem (c : Chip) (r : Nat) : (Chip.suspendFor c r).mem = c.mem := by
  unfold Chip.suspendFor
  first
  | (simp only [↓Chip.suspendOne_mem, ↓Chip.mem_mk, Stores.eta, Chip.mem_parts]; done)
  | try dsimp only
    repeat' first
    | with_reducible rfl
    | split
    | with_reducible refine (Chip.repeat_mem _ (fun c => ?_) _ _).trans ?_
    | simp only [↓Chip.suspendOne_mem, ↓Chip.mem_mk, Stores.eta, Chip.mem_parts]

theorem Chip.resumeAt_mem (c : Chip) (u : Nat) : (Chip.resumeAt c u).mem = c.mem := by
  unfold Chip.resumeAt
  first
  | (simp only [↓Chip.mem_mk, Stores.eta, Chip.mem_parts]; done)
  | try dsimp only
    repeat' first
    | with_reducible rfl
    | split
    | simp only [↓Chip.mem_mk, Stores.eta, Chip.mem_parts]

theorem Chip.pumpBridge_mem (all : Bool) (n : Nat) : ∀ c : Chip, (Chip.pumpBridge c all n).mem = c.mem := by
  induction n with
  | zero => exact fun _ => rfl
  | succ n ih =>
    intro c
    unfold Chip.pumpBridge
    try dsimp only
    repeat' first
      | with_reducible rfl
      | split
      | simp only [↓ih, ↓Chip.send_mem, ↓Chip.mem_mk, Stores.eta, Chip.mem_parts]

theorem Chip.bridgeWrite_mem (c : Chip) (r : Request) (dpa : Nat) : (Chip.bridgeWrite c r dpa).mem = c.mem := by
  unfold Chip.bridgeWrite
  first
  | (simp only [↓Chip.cnt_mem, ↓Chip.raise_mem, ↓Chip.pumpBridge_mem, ↓Chip.mem_mk, Stores.eta, Chip.mem_parts]; done)
  | try dsimp only
    repeat' first
    | with_reducible rfl
    | split
    | simp only [↓Chip.cnt_mem, ↓Chip.raise_mem, ↓Chip.pumpBridge_mem, ↓Chip.mem_mk, Stores.eta, Chip.mem_parts]

theorem Chip.bridgeRound_mem (c : Chip) : (Chip.bridgeRound c).mem = c.mem := by
  unfold Chip.bridgeRound
  first
  | (simp only [↓Chip.pumpBridge_mem, ↓Chip.mem_mk, Stores.eta, Chip.mem_parts]; done)
  | try dsimp only
    repeat' first
    | with_reducible rfl
    | split
    | simp only [↓Chip.pumpBridge_mem, ↓Chip.mem_mk, Stores.eta, Chip.mem_parts]

end Sys2Proof.Machine
end

