-- ==== Sys2Proof/Laws/MemPath.lean ====
section
/-! SUPPORT. The operations of Machine/Path.lean that leave the byte stores of a chip as they are. -/
namespace Sys2Proof.Machine

set_option simprocs false

theorem Chip.queueMig_mem (c : Chip) (cls e : Nat) (promote : Bool) : (Chip.queueMig c cls e promote).mem = c.mem := by
  unfold Chip.queueMig
  first
  | (simp only [↓Chip.mem_mk, Stores.eta, Chip.mem_parts]; done)
  | try dsimp only
    repeat' first
    | with_reducible rfl
    | split
    | simp only [↓Chip.mem_mk, Stores.eta, Chip.mem_parts]

theorem Chip.earnHit_mem (c : Chip) (e : Nat) : (Chip.earnHit c e).mem = c.mem := by
  unfold Chip.earnHit
  first
  | (simp only [↓Chip.queueMig_mem, ↓Chip.mem_mk, Stores.eta, Chip.mem_parts]; done)
  | try dsimp only
    repeat' first
    | with_reducible rfl
    | split
    | simp only [↓Chip.queueMig_mem, ↓Chip.mem_mk, Stores.eta, Chip.mem_parts]

theorem Chip.pcacheUse_mem (c : Chip) (p : Nat) : (Chip.pcacheUse c p).mem = c.mem := by
  unfold Chip.pcacheUse
  simp only [↓Chip.mem_mk, Stores.eta, Chip.mem_parts]

theorem Chip.pcacheDrop_mem (c : Chip) (p : Nat) : (Chip.pcacheDrop c p).mem = c.mem := by
  unfold Chip.pcacheDrop
  first
  | (simp only [↓Chip.cnt_mem, ↓Chip.mdcTouch_mem, ↓Chip.mem_mk, Stores.eta, Chip.mem_parts]; done)
  | try dsimp only
    repeat' first
    | with_reducible rfl
    | split
    | simp only [↓Chip.cnt_mem, ↓Chip.mdcTouch_mem, ↓Chip.mem_mk, Stores.eta, Chip.mem_parts]

theorem Chip.pcacheFillWith_mem (c : Chip) (p gen : Nat) : (Chip.pcacheFillWith c p gen).mem = c.mem := by
  unfold Chip.pcacheFillWith
  first
  | (simp only [↓Chip.cnt_mem, ↓Chip.oweBlock_mem, ↓Chip.mdcTouch_mem, ↓Chip.wantRange_mem, ↓Chip.pcacheUse_mem, ↓Chip.mem_mk, Stores.eta,
      Chip.mem_parts]; done)
  | try dsimp only
    repeat' first
    | with_reducible rfl
    | split
    | simp only [↓Chip.cnt_mem, ↓Chip.oweBlock_mem, ↓Chip.mdcTouch_mem, ↓Chip.wantRange_mem, ↓Chip.pcacheUse_mem, ↓Chip.mem_mk, Stores.eta,
      Chip.mem_parts]

theorem Chip.pcacheGoOn_mem (c : Chip) (r : Nat) : (Chip.pcacheGoOn c r).mem = c.mem := by
  unfold Chip.pcacheGoOn
  first
  | (simp only [↓Chip.pcacheFillWith_mem, ↓Chip.mem_mk, Stores.eta, Chip.mem_parts]; done)
  | try dsimp only
    repeat' first
    | with_reducible rfl
    | split
    | with_reducible refine (Chip.foldl_mem _ (fun c x => ?_) _ _).trans ?_
    | simp only [↓Chip.pcacheFillWith_mem, ↓Chip.mem_mk, Stores.eta, Chip.mem_parts]

theorem Chip.waitFill_mem (c : Chip) (t : Tag) : (Chip.waitFill c t).mem = c.mem := by
  unfold Chip.waitFill
  simp only [↓Chip.wantRange_mem, ↓Chip.setTag_mem, ↓Chip.mem_mk, Stores.eta, Chip.mem_parts]

theorem Chip.lookUp_mem (c : Chip) (dpa : Nat) : (Chip.lookUp c dpa).mem = c.mem := by
  unfold Chip.lookUp
  first
  | (simp only [↓Chip.mdcTouch_mem, ↓Chip.mem_mk, Stores.eta, Chip.mem_parts]; done)
  | try dsimp only
    repeat' first
    | with_reducible rfl
    | split
    | simp only [↓Chip.mdcTouch_mem, ↓Chip.mem_mk, Stores.eta, Chip.mem_parts]

theorem Chip.readDram_mem (c : Chip) (t : Tag) : (Chip.readDram c t).mem = c.mem := by
  unfold Chip.readDram
  first
  | (simp only [↓Chip.meetChannel_mem, ↓Chip.setTag_mem, ↓Chip.waitFill_mem, ↓Chip.mem_mk, Stores.eta, Chip.mem_parts]; done)
  | try dsimp only
    repeat' first
    | with_reducible rfl
    | split
    | simp only [↓Chip.meetChannel_mem, ↓Chip.setTag_mem, ↓Chip.waitFill_mem, ↓Chip.mem_mk, Stores.eta, Chip.mem_parts]

theorem Chip.serveFull_mem (c : Chip) (t : Tag) : (Chip.serveFull c t).mem = c.mem := by
  unfold Chip.serveFull
  first
  | (simp only [↓Chip.respondData_mem, ↓Chip.mem_mk, Stores.eta, Chip.mem_parts]; done)
  | try dsimp only
    repeat' first
    | with_reducible rfl
    | split
    | simp only [↓Chip.respondData_mem, ↓Chip.mem_mk, Stores.eta, Chip.mem_parts]

theorem Chip.readMedia_mem (c : Chip) (t : Tag) : (Chip.readMedia c t).mem = c.mem := by
  unfold Chip.readMedia
  first
  | (simp only [↓Chip.setTag_mem, ↓Chip.suspendFor_mem, ↓Chip.mem_mk, Stores.eta, Chip.mem_parts]; done)
  | try dsimp only
    repeat' first
    | with_reducible rfl
    | split
    | simp only [↓Chip.setTag_mem, ↓Chip.suspendFor_mem, ↓Chip.mem_mk, Stores.eta, Chip.mem_parts]

theorem Chip.serveRead_mem (c : Chip) (t : Tag) : (Chip.serveRead c t).mem = c.mem := by
  unfold Chip.serveRead
  first
  | (simp only [↓Chip.cnt_mem, ↓Chip.oweBlock_mem, ↓Chip.mdcTouch_mem, ↓Chip.touchExtent_mem, ↓Chip.setTag_mem, ↓Chip.earnHit_mem,
      ↓Chip.pcacheUse_mem, ↓Chip.lookUp_mem, ↓Chip.readDram_mem, ↓Chip.serveFull_mem, ↓Chip.readMedia_mem, ↓Chip.mem_mk, Stores.eta,
      Chip.mem_parts]; done)
  | try dsimp only
    repeat' first
    | with_reducible rfl
    | split
    | simp only [↓Chip.cnt_mem, ↓Chip.oweBlock_mem, ↓Chip.mdcTouch_mem, ↓Chip.touchExtent_mem, ↓Chip.setTag_mem, ↓Chip.earnHit_mem,
      ↓Chip.pcacheUse_mem, ↓Chip.lookUp_mem, ↓Chip.readDram_mem, ↓Chip.serveFull_mem, ↓Chip.readMedia_mem, ↓Chip.mem_mk, Stores.eta,
      Chip.mem_parts]

theorem Chip.fillsGoOn_mem (c : Chip) : (Chip.fillsGoOn c).mem = c.mem := by
  unfold Chip.fillsGoOn
  first
  | (simp only [↓Chip.oweBlock_mem, ↓Chip.mem_mk, Stores.eta, Chip.mem_parts]; done)
  | try dsimp only
    repeat' first
    | with_reducible rfl
    | split
    | with_reducible refine (Chip.foldl_mem _ (fun c x => ?_) _ _).trans ?_
    | simp only [↓Chip.oweBlock_mem, ↓Chip.mem_mk, Stores.eta, Chip.mem_parts]

theorem Chip.mdcFetch_mem (c : Chip) (line : Nat) : (Chip.mdcFetch c line).mem = c.mem := by
  unfold Chip.mdcFetch
  first
  | (simp only [↓Chip.cnt_mem, ↓Chip.oweBlock_mem, ↓Chip.mdcRefer_mem, ↓Chip.mdcInstall_mem, ↓Chip.mem_mk, Stores.eta, Chip.mem_parts]; done)
  | try dsimp only
    repeat' first
    | with_reducible rfl
    | split
    | simp only [↓Chip.cnt_mem, ↓Chip.oweBlock_mem, ↓Chip.mdcRefer_mem, ↓Chip.mdcInstall_mem, ↓Chip.mem_mk, Stores.eta, Chip.mem_parts]

theorem Chip.tcUse_mem (c : Chip) (h : Fin 24) (line : Nat) : (Chip.tcUse c h line).mem = c.mem := by
  unfold Chip.tcUse
  simp only [↓Chip.mem_mk, Stores.eta, Chip.mem_parts]

theorem Chip.translate_mem (c : Chip) (t : Tag) : (Chip.translate c t).mem = c.mem := by
  unfold Chip.translate
  first
  | (simp only [↓Chip.cnt_mem, ↓Chip.setTag_mem, ↓Chip.serveRead_mem, ↓Chip.mdcFetch_mem, ↓Chip.tcUse_mem, ↓Chip.mem_mk, Stores.eta,
      Chip.mem_parts]; done)
  | try dsimp only
    repeat' first
    | with_reducible rfl
    | split
    | simp only [↓Chip.cnt_mem, ↓Chip.setTag_mem, ↓Chip.serveRead_mem, ↓Chip.mdcFetch_mem, ↓Chip.tcUse_mem, ↓Chip.mem_mk, Stores.eta,
      Chip.mem_parts]

theorem Chip.beginRead_mem (c : Chip) (t : Tag) : (Chip.beginRead c t).mem = c.mem := by
  unfold Chip.beginRead
  first
  | (simp only [↓Chip.cnt_mem, ↓Chip.touchExtent_mem, ↓Chip.serveFull_mem, ↓Chip.translate_mem, ↓Chip.mem_mk, Stores.eta, Chip.mem_parts]; done)
  | try dsimp only
    repeat' first
    | with_reducible rfl
    | split
    | simp only [↓Chip.cnt_mem, ↓Chip.touchExtent_mem, ↓Chip.serveFull_mem, ↓Chip.translate_mem, ↓Chip.mem_mk, Stores.eta, Chip.mem_parts]

theorem Chip.continueTags_mem (c : Chip) (p : Tag → Bool) (f : Chip → Tag → Chip) (hf : ∀ (c : Chip) (t : Tag), (f c t).mem = c.mem) :
    (c.continueTags p f).mem = c.mem := by
  unfold Chip.continueTags
  refine Chip.foldl_mem _ (fun c t => ?_) _ c
  repeat' split
  · exact hf c _
  · rfl
  · rfl

end Sys2Proof.Machine
end

