-- ==== Sys2Proof/Laws/MemCoherence.lean ====
section
/-! SUPPORT. The operations of Machine/Coherence.lean that leave the byte stores of a chip as they are. -/
namespace Sys2Proof.Machine

set_option simprocs false

theorem Chip.setShadow_mem (c : Chip) (k : Nat) (e : DirEntry) : (Chip.setShadow c k e).mem = c.mem := by
  unfold Chip.setShadow
  first
  | (simp only [↓Chip.mdcTouch_mem, ↓Chip.mem_mk, Stores.eta, Chip.mem_parts]; done)
  | try dsimp only
    repeat' first
    | with_reducible rfl
    | split
    | simp only [↓Chip.mdcTouch_mem, ↓Chip.mem_mk, Stores.eta, Chip.mem_parts]

theorem Chip.setDir_mem (c : Chip) (line : Nat) (e : DirEntry) : (Chip.setDir c line e).mem = c.mem := by
  unfold Chip.setDir
  first
  | (simp only [↓Chip.cnt_mem, ↓Chip.setShadow_mem, ↓Chip.mem_mk, Stores.eta, Chip.mem_parts]; done)
  | try dsimp only
    repeat' first
    | with_reducible rfl
    | split
    | simp only [↓Chip.cnt_mem, ↓Chip.setShadow_mem, ↓Chip.mem_mk, Stores.eta, Chip.mem_parts]

theorem Chip.dirRemove_mem (c : Chip) (line : Nat) (h : Fin 24) : (Chip.dirRemove c line h).mem = c.mem := by
  unfold Chip.dirRemove
  first
  | (simp only [↓Chip.setDir_mem, ↓Chip.mem_mk, Stores.eta, Chip.mem_parts]; done)
  | try dsimp only
    repeat' first
    | with_reducible rfl
    | split
    | simp only [↓Chip.setDir_mem, ↓Chip.mem_mk, Stores.eta, Chip.mem_parts]

theorem Chip.settle_mem (c : Chip) : (Chip.settle c).mem = c.mem := by
  unfold Chip.settle
  simp only [↓Chip.mem_mk, Stores.eta, Chip.mem_parts]

theorem Chip.sendSnoops_mem (c : Chip) (line : Nat) (hs : List (Fin 24)) (kind : Nat) : (Chip.sendSnoops c line hs kind).mem = c.mem := by
  unfold Chip.sendSnoops
  first
  | (simp only [↓Chip.cnt_mem, ↓Chip.toHost_mem, ↓Chip.mem_mk, Stores.eta, Chip.mem_parts]; done)
  | try dsimp only
    repeat' first
    | with_reducible rfl
    | split
    | with_reducible refine (Chip.foldl_mem _ (fun c x => ?_) _ _).trans ?_
    | simp only [↓Chip.cnt_mem, ↓Chip.toHost_mem, ↓Chip.mem_mk, Stores.eta, Chip.mem_parts]

theorem Chip.afterOrder_mem (c : Chip) (t : Tag) : (Chip.afterOrder c t).mem = c.mem := by
  unfold Chip.afterOrder
  first
  | (simp only [↓Chip.cnt_mem, ↓Chip.setTag_mem, ↓Chip.dropTag_mem, ↓Chip.respondCmp_mem, ↓Chip.completeWrite_mem, ↓Chip.beginRead_mem,
      ↓Chip.mem_mk, Stores.eta, Chip.mem_parts]; done)
  | try dsimp only
    repeat' first
    | with_reducible rfl
    | split
    | simp only [↓Chip.cnt_mem, ↓Chip.setTag_mem, ↓Chip.dropTag_mem, ↓Chip.respondCmp_mem, ↓Chip.completeWrite_mem, ↓Chip.beginRead_mem,
      ↓Chip.mem_mk, Stores.eta, Chip.mem_parts]

theorem Chip.finishAccess_mem (c : Chip) (t : Tag) : (Chip.finishAccess c t).mem = c.mem := by
  unfold Chip.finishAccess
  first
  | (simp only [↓Chip.cnt_mem, ↓Chip.wmbWrite_mem, ↓Chip.setDir_mem, ↓Chip.settle_mem, ↓Chip.afterOrder_mem, ↓Chip.mem_mk, Stores.eta,
      Chip.mem_parts]; done)
  | try dsimp only
    repeat' first
    | with_reducible rfl
    | split
    | simp only [↓Chip.cnt_mem, ↓Chip.wmbWrite_mem, ↓Chip.setDir_mem, ↓Chip.settle_mem, ↓Chip.afterOrder_mem, ↓Chip.mem_mk, Stores.eta,
      Chip.mem_parts]

theorem Chip.actAccess_mem (c : Chip) (t : Tag) : (Chip.actAccess c t).mem = c.mem := by
  unfold Chip.actAccess
  first
  | (simp only [↓Chip.setTag_mem, ↓Chip.sendSnoops_mem, ↓Chip.finishAccess_mem, ↓Chip.mem_mk, Stores.eta, Chip.mem_parts]; done)
  | try dsimp only
    repeat' first
    | with_reducible rfl
    | split
    | simp only [↓Chip.setTag_mem, ↓Chip.sendSnoops_mem, ↓Chip.finishAccess_mem, ↓Chip.mem_mk, Stores.eta, Chip.mem_parts]

theorem Chip.pumpOrdered_mem (n : Nat) : ∀ c : Chip, (c.pumpOrdered n).mem = c.mem := by
  induction n with
  | zero => exact fun c => rfl
  | succ n ih =>
    intro c
    unfold Chip.pumpOrdered
    dsimp only
    split
    · refine Chip.foldl_mem _ (fun c x => ?_) _ c
      split
      · exact Chip.actAccess_mem c _
      · rfl
    · rw [ih]
      refine Chip.foldl_mem _ (fun c x => ?_) _ c
      split
      · exact Chip.actAccess_mem c _
      · rfl

theorem Chip.orderHere_mem (c : Chip) (t : Tag) : (Chip.orderHere c t).mem = c.mem := by
  unfold Chip.orderHere
  first
  | (simp only [↓Chip.mem_mk, Stores.eta, Chip.mem_parts]; done)
  | try dsimp only
    repeat' first
    | with_reducible rfl
    | split
    | simp only [↓Chip.mem_mk, Stores.eta, Chip.mem_parts]

theorem Chip.evictEntry_mem (c : Chip) (line : Nat) : (Chip.evictEntry c line).mem = c.mem := by
  unfold Chip.evictEntry
  simp only [↓Chip.cnt_mem, ↓Chip.raise_mem, ↓Chip.setDir_mem, ↓Chip.sendSnoops_mem, ↓Chip.mem_mk, Stores.eta, Chip.mem_parts]

theorem Chip.makeRoom_mem (c : Chip) (t : Tag) {c' : Chip} (h : c.makeRoom t = some c') : c'.mem = c.mem := by
  unfold Chip.makeRoom at h
  dsimp only at h
  repeat' split at h
  all_goals first
    | (cases h; done)
    | (cases h; rfl)
    | (cases h; simp only [↓Chip.post_mem, ↓Chip.evictEntry_mem])

theorem Chip.orderAccess_mem (c : Chip) (t : Tag) : (Chip.orderAccess c t).mem = c.mem := by
  unfold Chip.orderAccess
  first
  | (simp only [↓Chip.cnt_mem, ↓Chip.post_mem, ↓Chip.setTag_mem, ↓Chip.orderHere_mem, ↓Chip.mem_mk, Stores.eta, Chip.mem_parts]; done)
  | try dsimp only
    repeat' first
    | with_reducible rfl
    | split
    | with_reducible exact Chip.makeRoom_mem _ _ (by assumption)
    | with_reducible refine Eq.trans ?_ (Chip.makeRoom_mem _ _ (by assumption))
    | simp only [↓Chip.cnt_mem, ↓Chip.post_mem, ↓Chip.setTag_mem, ↓Chip.orderHere_mem, ↓Chip.mem_mk, Stores.eta, Chip.mem_parts]

theorem Chip.orderWaiting_mem (c : Chip) : (Chip.orderWaiting c).mem = c.mem := by
  unfold Chip.orderWaiting
  first
  | (simp only [↓Chip.orderAccess_mem, ↓Chip.mem_mk, Stores.eta, Chip.mem_parts]; done)
  | try dsimp only
    repeat' first
    | with_reducible rfl
    | split
    | with_reducible refine (Chip.foldl_mem _ (fun c x => ?_) _ _).trans ?_
    | simp only [↓Chip.orderAccess_mem, ↓Chip.mem_mk, Stores.eta, Chip.mem_parts]

theorem Chip.runCommons_mem (c : Chip) : (Chip.runCommons c).mem = c.mem := by
  unfold Chip.runCommons
  simp only [↓Chip.pumpOrdered_mem, ↓Chip.orderWaiting_mem, ↓Chip.mem_mk, Stores.eta, Chip.mem_parts]

theorem Chip.answerSnoop_mem (c : Chip) (h : Fin 24) (line : Nat) (kind : Nat) : (Chip.answerSnoop c h line kind).mem = c.mem := by
  unfold Chip.answerSnoop
  first
  | (simp only [↓Chip.cnt_mem, ↓Chip.mapTags_mem, ↓Chip.setDir_mem, ↓Chip.dirRemove_mem, ↓Chip.finishAccess_mem, ↓Chip.runCommons_mem,
      ↓Chip.mem_mk, Stores.eta, Chip.mem_parts]; done)
  | try dsimp only
    repeat' first
    | with_reducible rfl
    | split
    | with_reducible refine (Chip.continueTags_mem _ _ _ (fun c t => ?_)).trans ?_
    | simp only [↓Chip.cnt_mem, ↓Chip.mapTags_mem, ↓Chip.setDir_mem, ↓Chip.dirRemove_mem, ↓Chip.finishAccess_mem, ↓Chip.runCommons_mem,
      ↓Chip.mem_mk, Stores.eta, Chip.mem_parts]

theorem Chip.takeEarly_mem (n : Nat) : ∀ c : Chip, (c.takeEarly n).mem = c.mem := by
  induction n with
  | zero => exact fun c => rfl
  | succ n ih =>
    intro c
    unfold Chip.takeEarly
    split
    · rfl
    · simp only [↓ih, ↓Chip.answerSnoop_mem, ↓Chip.mem_mk, Stores.eta, Chip.mem_parts]

theorem Chip.runFollower_mem (c : Chip) : (Chip.runFollower c).mem = c.mem := by
  unfold Chip.runFollower
  simp only [↓Chip.runCommons_mem, ↓Chip.takeEarly_mem, ↓Chip.mem_mk, Stores.eta, Chip.mem_parts]

theorem Chip.hearBirsp_mem (c : Chip) (h : Fin 24) (line kind : Nat) (real : Bool) : (Chip.hearBirsp c h line kind real).mem = c.mem := by
  unfold Chip.hearBirsp
  first
  | (simp only [↓Chip.answerSnoop_mem, ↓Chip.runFollower_mem, ↓Chip.mem_mk, Stores.eta, Chip.mem_parts]; done)
  | try dsimp only
    repeat' first
    | with_reducible rfl
    | split
    | simp only [↓Chip.answerSnoop_mem, ↓Chip.runFollower_mem, ↓Chip.mem_mk, Stores.eta, Chip.mem_parts]

theorem Chip.clearHead_mem (c : Chip) (p : Nat → Bool) (h : Fin 24) (only : Option Nat) : (Chip.clearHead c p h only).mem = c.mem := by
  unfold Chip.clearHead
  first
  | (simp only [↓Chip.dirRemove_mem, ↓Chip.answerSnoop_mem, ↓Chip.mem_mk, Stores.eta, Chip.mem_parts]; done)
  | try dsimp only
    repeat' first
    | with_reducible rfl
    | split
    | with_reducible refine (Chip.foldl_mem _ (fun c x => ?_) _ _).trans ?_
    | simp only [↓Chip.dirRemove_mem, ↓Chip.answerSnoop_mem, ↓Chip.mem_mk, Stores.eta, Chip.mem_parts]

theorem Chip.loseHead_mem (c : Chip) (h : Fin 24) (only dom : Option Nat) : (Chip.loseHead c h only dom).mem = c.mem := by
  unfold Chip.loseHead
  first
  | (simp only [↓Chip.cnt_mem, ↓Chip.post_mem, ↓Chip.clearHead_mem, ↓Chip.mem_mk, Stores.eta, Chip.mem_parts]; done)
  | try dsimp only
    repeat' first
    | with_reducible rfl
    | split
    | simp only [↓Chip.cnt_mem, ↓Chip.post_mem, ↓Chip.clearHead_mem, ↓Chip.mem_mk, Stores.eta, Chip.mem_parts]

theorem Chip.applySweep_mem (c : Chip) (h : Fin 24) (pos : Nat) : (Chip.applySweep c h pos).mem = c.mem := by
  unfold Chip.applySweep
  first
  | (simp only [↓Chip.cnt_mem, ↓Chip.orderHere_mem, ↓Chip.runFollower_mem, ↓Chip.clearHead_mem, ↓Chip.mem_mk, Stores.eta, Chip.mem_parts]; done)
  | try dsimp only
    repeat' first
    | with_reducible rfl
    | split
    | with_reducible refine (Chip.foldl_mem _ (fun c x => ?_) _ _).trans ?_
    | simp only [↓Chip.cnt_mem, ↓Chip.orderHere_mem, ↓Chip.runFollower_mem, ↓Chip.clearHead_mem, ↓Chip.mem_mk, Stores.eta, Chip.mem_parts]

theorem Chip.orderReceived_mem (c : Chip) : (Chip.orderReceived c).mem = c.mem := by
  unfold Chip.orderReceived
  first
  | (simp only [↓Chip.cnt_mem, ↓Chip.orderHere_mem, ↓Chip.evictEntry_mem, ↓Chip.runFollower_mem, ↓Chip.applySweep_mem, ↓Chip.mem_mk,
      Stores.eta, Chip.mem_parts]; done)
  | try dsimp only
    repeat' first
    | with_reducible rfl
    | split
    | with_reducible refine (Chip.foldl_mem _ (fun c x => ?_) _ _).trans ?_
    | simp only [↓Chip.cnt_mem, ↓Chip.orderHere_mem, ↓Chip.evictEntry_mem, ↓Chip.runFollower_mem, ↓Chip.applySweep_mem, ↓Chip.mem_mk,
      Stores.eta, Chip.mem_parts]

theorem Chip.putEntry_mem (c : Chip) (line : Nat) (e : DirEntry) : (Chip.putEntry c line e).mem = c.mem := by
  unfold Chip.putEntry
  first
  | (simp only [↓Chip.setShadow_mem, ↓Chip.mem_mk, Stores.eta, Chip.mem_parts]; done)
  | try dsimp only
    repeat' first
    | with_reducible rfl
    | split
    | simp only [↓Chip.setShadow_mem, ↓Chip.mem_mk, Stores.eta, Chip.mem_parts]

theorem Chip.rebuildEntry_mem (c : Chip) (line copy : Nat) (given : Option DirEntry) : (Chip.rebuildEntry c line copy given).mem = c.mem := by
  unfold Chip.rebuildEntry
  first
  | (simp only [↓Chip.cnt_mem, ↓Chip.raise_mem, ↓Chip.dlo_mem, ↓Chip.runFollower_mem, ↓Chip.putEntry_mem, ↓Chip.mem_mk, Stores.eta,
      Chip.mem_parts]; done)
  | try dsimp only
    repeat' first
    | with_reducible rfl
    | split
    | simp only [↓Chip.cnt_mem, ↓Chip.raise_mem, ↓Chip.dlo_mem, ↓Chip.runFollower_mem, ↓Chip.putEntry_mem, ↓Chip.mem_mk, Stores.eta,
      Chip.mem_parts]

theorem Chip.handOff_mem (c : Chip) (d : Nat) : (Chip.handOff c d).mem = c.mem := by
  unfold Chip.handOff
  first
  | (simp only [↓Chip.post_mem, ↓Chip.raise_mem, ↓Chip.setShadow_mem, ↓Chip.mem_mk, Stores.eta, Chip.mem_parts]; done)
  | try dsimp only
    repeat' first
    | with_reducible rfl
    | split
    | with_reducible refine (Chip.foldl_mem _ (fun c x => ?_) _ _).trans ?_
    | simp only [↓Chip.post_mem, ↓Chip.raise_mem, ↓Chip.setShadow_mem, ↓Chip.mem_mk, Stores.eta, Chip.mem_parts]

theorem Chip.beginArbiter_mem (c : Chip) (d : Nat) : (Chip.beginArbiter c d).mem = c.mem := by
  unfold Chip.beginArbiter
  simp only [↓Chip.raise_mem, ↓Chip.runCommons_mem, ↓Chip.mem_mk, Stores.eta, Chip.mem_parts]

theorem Chip.intoSram_mem (c : Chip) (x : Nat × DirEntry) : (Chip.intoSram c x).mem = c.mem := by
  unfold Chip.intoSram
  first
  | (simp only [↓Chip.post_mem, ↓Chip.setShadow_mem, ↓Chip.evictEntry_mem, ↓Chip.mem_mk, Stores.eta, Chip.mem_parts]; done)
  | try dsimp only
    repeat' first
    | with_reducible rfl
    | split
    | simp only [↓Chip.post_mem, ↓Chip.setShadow_mem, ↓Chip.evictEntry_mem, ↓Chip.mem_mk, Stores.eta, Chip.mem_parts]

theorem Chip.migrateShadow_mem (c : Chip) (d : Nat) : (Chip.migrateShadow c d).mem = c.mem := by
  unfold Chip.migrateShadow
  first
  | (simp only [↓Chip.runCommons_mem, ↓Chip.intoSram_mem, ↓Chip.mem_mk, Stores.eta, Chip.mem_parts]; done)
  | try dsimp only
    repeat' first
    | with_reducible rfl
    | split
    | with_reducible refine (Chip.foldl_mem _ (fun c x => ?_) _ _).trans ?_
    | simp only [↓Chip.runCommons_mem, ↓Chip.intoSram_mem, ↓Chip.mem_mk, Stores.eta, Chip.mem_parts]

theorem Chip.replaceBank_mem (c : Chip) (bank : Nat) : (Chip.replaceBank c bank).mem = c.mem := by
  unfold Chip.replaceBank
  first
  | (simp only [↓Chip.put_mem, ↓Chip.dlo_mem, ↓Chip.drew_mem, ↓Chip.setShadow_mem, ↓Chip.mem_mk, Stores.eta, Chip.mem_parts]; done)
  | try dsimp only
    repeat' first
    | with_reducible rfl
    | split
    | with_reducible refine (Chip.foldl_mem _ (fun c x => ?_) _ _).trans ?_
    | simp only [↓Chip.put_mem, ↓Chip.dlo_mem, ↓Chip.drew_mem, ↓Chip.setShadow_mem, ↓Chip.mem_mk, Stores.eta, Chip.mem_parts]

theorem Chip.migrateBank_mem (c : Chip) (b : Nat) : (Chip.migrateBank c b).mem = c.mem := by
  unfold Chip.migrateBank
  first
  | (simp only [↓Chip.runCommons_mem, ↓Chip.intoSram_mem, ↓Chip.mem_mk, Stores.eta, Chip.mem_parts]; done)
  | try dsimp only
    repeat' first
    | with_reducible rfl
    | split
    | with_reducible refine (Chip.foldl_mem _ (fun c x => ?_) _ _).trans ?_
    | simp only [↓Chip.runCommons_mem, ↓Chip.intoSram_mem, ↓Chip.mem_mk, Stores.eta, Chip.mem_parts]

theorem Chip.takeArbitration_mem (c : Chip) (old : List Nat) : (Chip.takeArbitration c old).mem = c.mem := by
  unfold Chip.takeArbitration
  first
  | (simp only [↓Chip.cnt_mem, ↓Chip.raise_mem, ↓Chip.mapTags_mem, ↓Chip.orderHere_mem, ↓Chip.runFollower_mem, ↓Chip.mem_mk, Stores.eta,
      Chip.mem_parts]; done)
  | try dsimp only
    repeat' first
    | with_reducible rfl
    | split
    | with_reducible refine (Chip.foldl_mem _ (fun c x => ?_) _ _).trans ?_
    | simp only [↓Chip.cnt_mem, ↓Chip.raise_mem, ↓Chip.mapTags_mem, ↓Chip.orderHere_mem, ↓Chip.runFollower_mem, ↓Chip.mem_mk, Stores.eta,
      Chip.mem_parts]

end Sys2Proof.Machine
end

