-- ==== Sys2Proof/Laws/MemRoutes.lean ====
section
/-! SUPPORT. The operations of Machine/Routes.lean that leave the byte stores of a chip as they are. -/
namespace Sys2Proof.Machine

set_option simprocs false

theorem Chip.mapRoute_mem (c : Chip) (r : Nat) (f : RouteSlot → RouteSlot) : (Chip.mapRoute c r f).mem = c.mem := by
  unfold Chip.mapRoute
  simp only [↓Chip.mem_mk, Stores.eta, Chip.mem_parts]

theorem Chip.showWindow_mem (c : Chip) (e : Nat) : (Chip.showWindow c e).mem = c.mem := by
  unfold Chip.showWindow
  first
  | (simp only [↓Chip.mapExt_mem, ↓Chip.mem_mk, Stores.eta, Chip.mem_parts]; done)
  | try dsimp only
    repeat' first
    | with_reducible rfl
    | split
    | simp only [↓Chip.mapExt_mem, ↓Chip.mem_mk, Stores.eta, Chip.mem_parts]

theorem Chip.hold_mem (c : Chip) (r : Nat) (es : List Nat) : (Chip.hold c r es).mem = c.mem := by
  unfold Chip.hold
  first
  | (simp only [↓Chip.mapRoute_mem, ↓Chip.showWindow_mem, ↓Chip.mem_mk, Stores.eta, Chip.mem_parts]; done)
  | try dsimp only
    repeat' first
    | with_reducible rfl
    | split
    | with_reducible refine (Chip.foldl_mem _ (fun c x => ?_) _ _).trans ?_
    | simp only [↓Chip.mapRoute_mem, ↓Chip.showWindow_mem, ↓Chip.mem_mk, Stores.eta, Chip.mem_parts]

theorem Chip.unhold_mem (c : Chip) (r : Nat) (es : List Nat) : (Chip.unhold c r es).mem = c.mem := by
  unfold Chip.unhold
  first
  | (simp only [↓Chip.mapRoute_mem, ↓Chip.showWindow_mem, ↓Chip.mem_mk, Stores.eta, Chip.mem_parts]; done)
  | try dsimp only
    repeat' first
    | with_reducible rfl
    | split
    | with_reducible refine (Chip.foldl_mem _ (fun c x => ?_) _ _).trans ?_
    | simp only [↓Chip.mapRoute_mem, ↓Chip.showWindow_mem, ↓Chip.mem_mk, Stores.eta, Chip.mem_parts]

theorem Chip.countSlip_mem (c : Chip) (r entry round late : Nat) (unarrived : Bool) : (Chip.countSlip c r entry round late unarrived).mem = c.mem := by
  unfold Chip.countSlip
  first
  | (simp only [↓Chip.put_mem, ↓Chip.cnt_mem, ↓Chip.peak_mem, ↓Chip.mem_mk, Stores.eta, Chip.mem_parts]; done)
  | try dsimp only
    repeat' first
    | with_reducible rfl
    | split
    | simp only [↓Chip.put_mem, ↓Chip.cnt_mem, ↓Chip.peak_mem, ↓Chip.mem_mk, Stores.eta, Chip.mem_parts]

theorem Chip.closeSlip_mem (c : Chip) (r : Nat) (unarrived : Bool) : (Chip.closeSlip c r unarrived).mem = c.mem := by
  unfold Chip.closeSlip
  first
  | (simp only [↓Chip.postEffect_mem, ↓Chip.mapRoute_mem, ↓Chip.countSlip_mem, ↓Chip.mem_mk, Stores.eta, Chip.mem_parts]; done)
  | try dsimp only
    repeat' first
    | with_reducible rfl
    | split
    | simp only [↓Chip.postEffect_mem, ↓Chip.mapRoute_mem, ↓Chip.countSlip_mem, ↓Chip.mem_mk, Stores.eta, Chip.mem_parts]

theorem Chip.slipsArrive_mem (c : Chip) : (Chip.slipsArrive c).mem = c.mem := by
  unfold Chip.slipsArrive
  first
  | (simp only [↓Chip.closeSlip_mem, ↓Chip.mem_mk, Stores.eta, Chip.mem_parts]; done)
  | try dsimp only
    repeat' first
    | with_reducible rfl
    | split
    | with_reducible refine (Chip.foldl_mem _ (fun c x => ?_) _ _).trans ?_
    | simp only [↓Chip.closeSlip_mem, ↓Chip.mem_mk, Stores.eta, Chip.mem_parts]

theorem Chip.checkEnd_mem (c : Chip) (r : Nat) : (Chip.checkEnd c r).mem = c.mem := by
  unfold Chip.checkEnd
  first
  | (simp only [↓Chip.raise_mem, ↓Chip.mapRoute_mem, ↓Chip.mem_mk, Stores.eta, Chip.mem_parts]; done)
  | try dsimp only
    repeat' first
    | with_reducible rfl
    | split
    | simp only [↓Chip.raise_mem, ↓Chip.mapRoute_mem, ↓Chip.mem_mk, Stores.eta, Chip.mem_parts]

theorem Chip.routeMeet_mem (e n : Nat) (c : Chip) (r : Nat) : (Chip.routeMeet e n c r).mem = c.mem := by
  unfold Chip.routeMeet
  first
  | (simp only [↓Chip.cnt_mem, ↓Chip.mapRoute_mem, ↓Chip.closeSlip_mem, ↓Chip.checkEnd_mem, ↓Chip.mem_mk, Stores.eta, Chip.mem_parts]; done)
  | try dsimp only
    repeat' first
    | with_reducible rfl
    | split
    | simp only [↓Chip.cnt_mem, ↓Chip.mapRoute_mem, ↓Chip.closeSlip_mem, ↓Chip.checkEnd_mem, ↓Chip.mem_mk, Stores.eta, Chip.mem_parts]

theorem Chip.routeSee_mem (c : Chip) (dpa : Nat) : (Chip.routeSee c dpa).mem = c.mem := by
  unfold Chip.routeSee
  first
  | (simp only [↓Chip.routeMeet_mem, ↓Chip.mem_mk, Stores.eta, Chip.mem_parts]; done)
  | try dsimp only
    repeat' first
    | with_reducible rfl
    | split
    | with_reducible refine (Chip.foldl_mem _ (fun c x => ?_) _ _).trans ?_
    | simp only [↓Chip.routeMeet_mem, ↓Chip.mem_mk, Stores.eta, Chip.mem_parts]

theorem Chip.routeChange_mem (c : Chip) (r st : Nat) : (Chip.routeChange c r st).mem = c.mem := by
  unfold Chip.routeChange
  first
  | (simp only [↓Chip.raise_mem, ↓Chip.mapRoute_mem, ↓Chip.mem_mk, Stores.eta, Chip.mem_parts]; done)
  | try dsimp only
    repeat' first
    | with_reducible rfl
    | split
    | simp only [↓Chip.raise_mem, ↓Chip.mapRoute_mem, ↓Chip.mem_mk, Stores.eta, Chip.mem_parts]

theorem Chip.endSlip_mem (c : Chip) (r : Nat) : (Chip.endSlip c r).mem = c.mem := by
  unfold Chip.endSlip
  first
  | (simp only [↓Chip.mapRoute_mem, ↓Chip.countSlip_mem, ↓Chip.mem_mk, Stores.eta, Chip.mem_parts]; done)
  | try dsimp only
    repeat' first
    | with_reducible rfl
    | split
    | simp only [↓Chip.mapRoute_mem, ↓Chip.countSlip_mem, ↓Chip.mem_mk, Stores.eta, Chip.mem_parts]

theorem Chip.withdraw_mem (c : Chip) (es : List Nat) : (Chip.withdraw c es).mem = c.mem := by
  unfold Chip.withdraw
  simp only [↓Chip.mem_mk, Stores.eta, Chip.mem_parts]

theorem Chip.routeStop_mem (c : Chip) (r : Nat) : (Chip.routeStop c r).mem = c.mem := by
  unfold Chip.routeStop
  first
  | (simp only [↓Chip.cnt_mem, ↓Chip.mapRoute_mem, ↓Chip.unhold_mem, ↓Chip.routeChange_mem, ↓Chip.endSlip_mem, ↓Chip.withdraw_mem,
      ↓Chip.mem_mk, Stores.eta, Chip.mem_parts]; done)
  | try dsimp only
    repeat' first
    | with_reducible rfl
    | split
    | simp only [↓Chip.cnt_mem, ↓Chip.mapRoute_mem, ↓Chip.unhold_mem, ↓Chip.routeChange_mem, ↓Chip.endSlip_mem, ↓Chip.withdraw_mem,
      ↓Chip.mem_mk, Stores.eta, Chip.mem_parts]

theorem Chip.routeGo_mem (c : Chip) (r pos : Nat) : (Chip.routeGo c r pos).mem = c.mem := by
  unfold Chip.routeGo
  first
  | (simp only [↓Chip.cnt_mem, ↓Chip.mapRoute_mem, ↓Chip.unhold_mem, ↓Chip.checkEnd_mem, ↓Chip.routeChange_mem, ↓Chip.endSlip_mem,
      ↓Chip.withdraw_mem, ↓Chip.mem_mk, Stores.eta, Chip.mem_parts]; done)
  | try dsimp only
    repeat' first
    | with_reducible rfl
    | split
    | simp only [↓Chip.cnt_mem, ↓Chip.mapRoute_mem, ↓Chip.unhold_mem, ↓Chip.checkEnd_mem, ↓Chip.routeChange_mem, ↓Chip.endSlip_mem,
      ↓Chip.withdraw_mem, ↓Chip.mem_mk, Stores.eta, Chip.mem_parts]

theorem Chip.dropObject_mem (c : Chip) (n : Nat) : (Chip.dropObject c n).mem = c.mem := by
  unfold Chip.dropObject
  first
  | (simp only [↓Chip.cnt_mem, ↓Chip.mapRoute_mem, ↓Chip.unhold_mem, ↓Chip.withdraw_mem, ↓Chip.mem_mk, Stores.eta, Chip.mem_parts]; done)
  | try dsimp only
    repeat' first
    | with_reducible rfl
    | split
    | with_reducible refine (Chip.foldl_mem _ (fun c x => ?_) _ _).trans ?_
    | simp only [↓Chip.cnt_mem, ↓Chip.mapRoute_mem, ↓Chip.unhold_mem, ↓Chip.withdraw_mem, ↓Chip.mem_mk, Stores.eta, Chip.mem_parts]

theorem Chip.routesAfterDomain_mem (c : Chip) : (Chip.routesAfterDomain c).mem = c.mem := by
  unfold Chip.routesAfterDomain
  first
  | (simp only [↓Chip.routeStop_mem, ↓Chip.mem_mk, Stores.eta, Chip.mem_parts]; done)
  | try dsimp only
    repeat' first
    | with_reducible rfl
    | split
    | with_reducible refine (Chip.foldl_mem _ (fun c x => ?_) _ _).trans ?_
    | simp only [↓Chip.routeStop_mem, ↓Chip.mem_mk, Stores.eta, Chip.mem_parts]

theorem Chip.applyRoute_mem (c : Chip) (own : Bool) (e : Effect) : (c.applyRoute own e).mem = c.mem := by
  unfold Chip.applyRoute
  repeat' first
    | with_reducible rfl
    | split
    | simp only [↓Chip.routeChange_mem, ↓Chip.mapRoute_mem, ↓Chip.routeGo_mem, ↓Chip.routeStop_mem, ↓Chip.hold_mem, ↓Chip.unhold_mem,
        ↓Chip.checkEnd_mem, ↓Chip.cnt_mem]

theorem Chip.openSlip_mem (c : Chip) (r : Nat) : (Chip.openSlip c r).mem = c.mem := by
  unfold Chip.openSlip
  first
  | (simp only [↓Chip.cnt_mem, ↓Chip.postEffect_mem, ↓Chip.raise_mem, ↓Chip.mapRoute_mem, ↓Chip.mem_mk, Stores.eta, Chip.mem_parts]; done)
  | try dsimp only
    repeat' first
    | with_reducible rfl
    | split
    | simp only [↓Chip.cnt_mem, ↓Chip.postEffect_mem, ↓Chip.raise_mem, ↓Chip.mapRoute_mem, ↓Chip.mem_mk, Stores.eta, Chip.mem_parts]

theorem Chip.postRuns_mem (c : Chip) (r : Nat) (es : List Nat) (on : Bool) : (Chip.postRuns c r es on).mem = c.mem := by
  unfold Chip.postRuns
  first
  | (simp only [↓Chip.postEffect_mem, ↓Chip.mem_mk, Stores.eta, Chip.mem_parts]; done)
  | try dsimp only
    repeat' first
    | with_reducible rfl
    | split
    | with_reducible refine (Chip.foldl_mem _ (fun c x => ?_) _ _).trans ?_
    | simp only [↓Chip.postEffect_mem, ↓Chip.mem_mk, Stores.eta, Chip.mem_parts]

theorem Chip.releaseWindow_mem (c : Chip) (r : Nat) (gone passed : List Nat) : (Chip.releaseWindow c r gone passed).mem = c.mem := by
  unfold Chip.releaseWindow
  first
  | (simp only [↓Chip.cnt_mem, ↓Chip.queueMig_mem, ↓Chip.withdraw_mem, ↓Chip.postRuns_mem, ↓Chip.mem_mk, Stores.eta, Chip.mem_parts]; done)
  | try dsimp only
    repeat' first
    | with_reducible rfl
    | split
    | with_reducible refine (Chip.foldl_mem _ (fun c x => ?_) _ _).trans ?_
    | simp only [↓Chip.cnt_mem, ↓Chip.queueMig_mem, ↓Chip.withdraw_mem, ↓Chip.postRuns_mem, ↓Chip.mem_mk, Stores.eta, Chip.mem_parts]

theorem Chip.growWindow_mem (c : Chip) (r : Nat) (want : List Nat) : (Chip.growWindow c r want).mem = c.mem := by
  unfold Chip.growWindow
  first
  | (simp only [↓Chip.cnt_mem, ↓Chip.raise_mem, ↓Chip.postRuns_mem, ↓Chip.mem_mk, Stores.eta, Chip.mem_parts]; done)
  | try dsimp only
    repeat' first
    | with_reducible rfl
    | split
    | with_reducible refine (Chip.foldl_mem _ (fun c x => ?_) _ _).trans ?_
    | simp only [↓Chip.cnt_mem, ↓Chip.raise_mem, ↓Chip.postRuns_mem, ↓Chip.mem_mk, Stores.eta, Chip.mem_parts]

theorem Chip.promoteWindow_mem (c : Chip) (r : Nat) (want : List Nat) : (Chip.promoteWindow c r want).mem = c.mem := by
  unfold Chip.promoteWindow
  first
  | (simp only [↓Chip.cnt_mem, ↓Chip.queueMig_mem, ↓Chip.mem_mk, Stores.eta, Chip.mem_parts]; done)
  | try dsimp only
    repeat' first
    | with_reducible rfl
    | split
    | with_reducible refine (Chip.foldl_mem _ (fun c x => ?_) _ _).trans ?_
    | simp only [↓Chip.cnt_mem, ↓Chip.queueMig_mem, ↓Chip.mem_mk, Stores.eta, Chip.mem_parts]

theorem Chip.advanceRoute_mem (c : Chip) (r : Nat) : (Chip.advanceRoute c r).mem = c.mem := by
  unfold Chip.advanceRoute
  first
  | (simp only [↓Chip.postEffect_mem, ↓Chip.mapRoute_mem, ↓Chip.closeSlip_mem, ↓Chip.openSlip_mem, ↓Chip.releaseWindow_mem,
      ↓Chip.growWindow_mem, ↓Chip.promoteWindow_mem, ↓Chip.mem_mk, Stores.eta, Chip.mem_parts]; done)
  | try dsimp only
    repeat' first
    | with_reducible rfl
    | split
    | simp only [↓Chip.postEffect_mem, ↓Chip.mapRoute_mem, ↓Chip.closeSlip_mem, ↓Chip.openSlip_mem, ↓Chip.releaseWindow_mem,
      ↓Chip.growWindow_mem, ↓Chip.promoteWindow_mem, ↓Chip.mem_mk, Stores.eta, Chip.mem_parts]

theorem Chip.routeJob_mem (c : Chip) : (Chip.routeJob c).mem = c.mem := by
  unfold Chip.routeJob
  first
  | (simp only [↓Chip.mapRoute_mem, ↓Chip.advanceRoute_mem, ↓Chip.mem_mk, Stores.eta, Chip.mem_parts]; done)
  | try dsimp only
    repeat' first
    | with_reducible rfl
    | split
    | with_reducible refine (Chip.foldl_mem _ (fun c x => ?_) _ _).trans ?_
    | simp only [↓Chip.mapRoute_mem, ↓Chip.advanceRoute_mem, ↓Chip.mem_mk, Stores.eta, Chip.mem_parts]

theorem Chip.resolveBlock_mem (c : Chip) (r b : Nat) (line : Nat → Line) : (Chip.resolveBlock c r b line).mem = c.mem := by
  unfold Chip.resolveBlock
  first
  | (simp only [↓Chip.cnt_mem, ↓Chip.raise_mem, ↓Chip.mapRoute_mem, ↓Chip.mem_mk, Stores.eta, Chip.mem_parts]; done)
  | try dsimp only
    repeat' first
    | with_reducible rfl
    | split
    | with_reducible refine (Chip.foldl_mem _ (fun c x => ?_) _ _).trans ?_
    | simp only [↓Chip.cnt_mem, ↓Chip.raise_mem, ↓Chip.mapRoute_mem, ↓Chip.mem_mk, Stores.eta, Chip.mem_parts]

end Sys2Proof.Machine
end

