-- ==== Sys2Proof/Laws/MemRequests.lean ====
section
/-! SUPPORT. The operations of Machine/Requests.lean that leave the byte stores of a chip as they are. -/
namespace Sys2Proof.Machine

set_option simprocs false

theorem Chip.takeToken_mem (c : Chip) (h : Fin 24) (k : TokenKind) : (Chip.takeToken c h k).mem = c.mem := by
  unfold Chip.takeToken
  first
  | (simp only [↓Chip.mapHead_mem, ↓Chip.mem_mk, Stores.eta, Chip.mem_parts]; done)
  | try dsimp only
    repeat' first
    | with_reducible rfl
    | split
    | simp only [↓Chip.mapHead_mem, ↓Chip.mem_mk, Stores.eta, Chip.mem_parts]

theorem Chip.noteWait_mem (c : Chip) (r : Request) (n : Nat) : (Chip.noteWait c r n).mem = c.mem := by
  unfold Chip.noteWait
  first
  | (simp only [↓Chip.cnt_mem, ↓Chip.raise_mem, ↓Chip.mem_mk, Stores.eta, Chip.mem_parts]; done)
  | try dsimp only
    repeat' first
    | with_reducible rfl
    | split
    | simp only [↓Chip.cnt_mem, ↓Chip.raise_mem, ↓Chip.mem_mk, Stores.eta, Chip.mem_parts]

theorem Chip.unmapped_mem (c : Chip) (t : Tag) : (Chip.unmapped c t).mem = c.mem := by
  unfold Chip.unmapped
  first
  | (simp only [↓Chip.cnt_mem, ↓Chip.mapHead_mem, ↓Chip.raise_mem, ↓Chip.headRecord_mem, ↓Chip.respondData_mem, ↓Chip.respondCmp_mem,
      ↓Chip.mem_mk, Stores.eta, Chip.mem_parts]; done)
  | try dsimp only
    repeat' first
    | with_reducible rfl
    | split
    | simp only [↓Chip.cnt_mem, ↓Chip.mapHead_mem, ↓Chip.raise_mem, ↓Chip.headRecord_mem, ↓Chip.respondData_mem, ↓Chip.respondCmp_mem,
      ↓Chip.mem_mk, Stores.eta, Chip.mem_parts]

theorem Chip.enterCommons_mem (c : Chip) (t : Tag) : (Chip.enterCommons c t).mem = c.mem := by
  unfold Chip.enterCommons
  first
  | (simp only [↓Chip.cnt_mem, ↓Chip.wmbWrite_mem, ↓Chip.completeWrite_mem, ↓Chip.setDir_mem, ↓Chip.runCommons_mem, ↓Chip.mem_mk,
      Stores.eta, Chip.mem_parts]; done)
  | try dsimp only
    repeat' first
    | with_reducible rfl
    | split
    | simp only [↓Chip.cnt_mem, ↓Chip.wmbWrite_mem, ↓Chip.completeWrite_mem, ↓Chip.setDir_mem, ↓Chip.runCommons_mem, ↓Chip.mem_mk,
      Stores.eta, Chip.mem_parts]

theorem Chip.showRoutes_mem (c : Chip) (r : Request) (dpa : Nat) : (Chip.showRoutes c r dpa).mem = c.mem := by
  unfold Chip.showRoutes
  first
  | (simp only [↓Chip.routeSee_mem, ↓Chip.mem_mk, Stores.eta, Chip.mem_parts]; done)
  | try dsimp only
    repeat' first
    | with_reducible rfl
    | split
    | simp only [↓Chip.routeSee_mem, ↓Chip.mem_mk, Stores.eta, Chip.mem_parts]

theorem Chip.pauseCopy_mem (c : Chip) (dpa : Nat) : (Chip.pauseCopy c dpa).mem = c.mem := by
  unfold Chip.pauseCopy
  first
  | (simp only [↓Chip.setWmb_mem, ↓Chip.releaseHere_mem, ↓Chip.mem_mk, Stores.eta, Chip.mem_parts]; done)
  | try dsimp only
    repeat' first
    | with_reducible rfl
    | split
    | with_reducible refine (Chip.foldl_mem _ (fun c x => ?_) _ _).trans ?_
    | simp only [↓Chip.setWmb_mem, ↓Chip.releaseHere_mem, ↓Chip.mem_mk, Stores.eta, Chip.mem_parts]

theorem Chip.hint_mem (c : Chip) (r : Request) : (Chip.hint c r).mem = c.mem := by
  unfold Chip.hint
  first
  | (simp only [↓Chip.cnt_mem, ↓Chip.mapHead_mem, ↓Chip.meetChannel_mem, ↓Chip.openEarly_mem, ↓Chip.mem_mk, Stores.eta, Chip.mem_parts]; done)
  | try dsimp only
    repeat' first
    | with_reducible rfl
    | split
    | simp only [↓Chip.cnt_mem, ↓Chip.mapHead_mem, ↓Chip.meetChannel_mem, ↓Chip.openEarly_mem, ↓Chip.mem_mk, Stores.eta, Chip.mem_parts]

theorem Chip.openTag_mem (c : Chip) (h : Fin 24) : (Chip.openTag c h).mem = c.mem := by
  unfold Chip.openTag
  first
  | (simp only [↓Chip.peak_mem, ↓Chip.raise_mem, ↓Chip.mem_mk, Stores.eta, Chip.mem_parts]; done)
  | try dsimp only
    repeat' first
    | with_reducible rfl
    | split
    | simp only [↓Chip.peak_mem, ↓Chip.raise_mem, ↓Chip.mem_mk, Stores.eta, Chip.mem_parts]

theorem Chip.admitTagged_mem (c : Chip) (r : Request) : (Chip.admitTagged c r).mem = c.mem := by
  unfold Chip.admitTagged
  first
  | (simp only [↓Chip.mapHead_mem, ↓Chip.wmbWrite_mem, ↓Chip.respondCmp_mem, ↓Chip.completeWrite_mem, ↓Chip.bridgeWrite_mem,
      ↓Chip.beginRead_mem, ↓Chip.takeToken_mem, ↓Chip.unmapped_mem, ↓Chip.enterCommons_mem, ↓Chip.showRoutes_mem, ↓Chip.openTag_mem,
      ↓Chip.mem_mk, Stores.eta, Chip.mem_parts]; done)
  | try dsimp only
    repeat' first
    | with_reducible rfl
    | split
    | simp only [↓Chip.mapHead_mem, ↓Chip.wmbWrite_mem, ↓Chip.respondCmp_mem, ↓Chip.completeWrite_mem, ↓Chip.bridgeWrite_mem,
      ↓Chip.beginRead_mem, ↓Chip.takeToken_mem, ↓Chip.unmapped_mem, ↓Chip.enterCommons_mem, ↓Chip.showRoutes_mem, ↓Chip.openTag_mem,
      ↓Chip.mem_mk, Stores.eta, Chip.mem_parts]

theorem Chip.admitOne_mem (c : Chip) (r : Request) : (Chip.admitOne c r).mem = c.mem := by
  unfold Chip.admitOne
  first
  | (simp only [↓Chip.mapHead_mem, ↓Chip.hint_mem, ↓Chip.admitTagged_mem, ↓Chip.mem_mk, Stores.eta, Chip.mem_parts]; done)
  | try dsimp only
    repeat' first
    | with_reducible rfl
    | split
    | simp only [↓Chip.mapHead_mem, ↓Chip.hint_mem, ↓Chip.admitTagged_mem, ↓Chip.mem_mk, Stores.eta, Chip.mem_parts]

theorem Chip.admitFront_mem (c : Chip) (h : Fin 24) (write : Bool) : (Chip.admitFront c h write).mem = c.mem := by
  unfold Chip.admitFront
  first
  | (simp only [↓Chip.mapHead_mem, ↓Chip.noteWait_mem, ↓Chip.admitOne_mem, ↓Chip.mem_mk, Stores.eta, Chip.mem_parts]; done)
  | try dsimp only
    repeat' first
    | with_reducible rfl
    | split
    | simp only [↓Chip.mapHead_mem, ↓Chip.noteWait_mem, ↓Chip.admitOne_mem, ↓Chip.mem_mk, Stores.eta, Chip.mem_parts]

theorem Chip.ackTx_mem (c : Chip) (h : Fin 24) (flit : Nat) : (Chip.ackTx c h flit).mem = c.mem := by
  unfold Chip.ackTx
  simp only [↓Chip.mapHead_mem, ↓Chip.mem_mk, Stores.eta, Chip.mem_parts]

theorem Chip.hearFlit_mem (c : Chip) (h : Fin 24) (flit : Nat) (r : Option Request) : (Chip.hearFlit c h flit r).mem = c.mem := by
  unfold Chip.hearFlit
  first
  | (simp only [↓Chip.cnt_mem, ↓Chip.mapHead_mem, ↓Chip.histFull_mem, ↓Chip.raiseHist_mem, ↓Chip.mem_mk, Stores.eta, Chip.mem_parts]; done)
  | try dsimp only
    repeat' first
    | with_reducible rfl
    | split
    | simp only [↓Chip.cnt_mem, ↓Chip.mapHead_mem, ↓Chip.histFull_mem, ↓Chip.raiseHist_mem, ↓Chip.mem_mk, Stores.eta, Chip.mem_parts]

theorem Chip.hearOther_mem (c : Chip) (h : Fin 24) : (Chip.hearOther c h).mem = c.mem := by
  unfold Chip.hearOther
  simp only [↓Chip.hearFlit_mem, ↓Chip.mem_mk, Stores.eta, Chip.mem_parts]

theorem Chip.useCredit_mem (c : Chip) (h : Fin 24) (write : Bool) : (Chip.useCredit c h write).mem = c.mem := by
  unfold Chip.useCredit
  first
  | (simp only [↓Chip.mapHead_mem, ↓Chip.mem_mk, Stores.eta, Chip.mem_parts]; done)
  | try dsimp only
    repeat' first
    | with_reducible rfl
    | split
    | simp only [↓Chip.mapHead_mem, ↓Chip.mem_mk, Stores.eta, Chip.mem_parts]

theorem Chip.returnCredits_mem (c : Chip) (h : Fin 24) : (Chip.returnCredits c h).mem = c.mem := by
  unfold Chip.returnCredits
  first
  | (simp only [↓Chip.toHost_mem, ↓Chip.mem_mk, Stores.eta, Chip.mem_parts]; done)
  | try dsimp only
    repeat' first
    | with_reducible rfl
    | split
    | simp only [↓Chip.toHost_mem, ↓Chip.mem_mk, Stores.eta, Chip.mem_parts]

theorem Chip.arriveHome_mem (c : Chip) (r : Request) (hostAck : Nat) : (Chip.arriveHome c r hostAck).mem = c.mem := by
  unfold Chip.arriveHome
  first
  | (simp only [↓Chip.mapHead_mem, ↓Chip.admitFront_mem, ↓Chip.ackTx_mem, ↓Chip.hearFlit_mem, ↓Chip.useCredit_mem, ↓Chip.mem_mk, Stores.eta,
      Chip.mem_parts]; done)
  | try dsimp only
    repeat' first
    | with_reducible rfl
    | split
    | simp only [↓Chip.mapHead_mem, ↓Chip.admitFront_mem, ↓Chip.ackTx_mem, ↓Chip.hearFlit_mem, ↓Chip.useCredit_mem, ↓Chip.mem_mk, Stores.eta,
      Chip.mem_parts]

theorem Chip.sendTapWm_mem (c : Chip) (h : Fin 24) (d : Direction) (flit : Nat) : (Chip.sendTapWm c h d flit).mem = c.mem := by
  unfold Chip.sendTapWm
  first
  | (simp only [↓Chip.mapHead_mem, ↓Chip.post_mem, ↓Chip.mem_mk, Stores.eta, Chip.mem_parts]; done)
  | try dsimp only
    repeat' first
    | with_reducible rfl
    | split
    | simp only [↓Chip.mapHead_mem, ↓Chip.post_mem, ↓Chip.mem_mk, Stores.eta, Chip.mem_parts]

theorem Chip.carbonUse_mem (c : Chip) (r : Request) : (Chip.carbonUse c r).mem = c.mem := by
  unfold Chip.carbonUse
  first
  | (simp only [↓Chip.touchExtent_mem, ↓Chip.wmbWrite_mem, ↓Chip.sendWriteWm_mem, ↓Chip.earnHit_mem, ↓Chip.enterCommons_mem,
      ↓Chip.showRoutes_mem, ↓Chip.pauseCopy_mem, ↓Chip.mem_mk, Stores.eta, Chip.mem_parts]; done)
  | try dsimp only
    repeat' first
    | with_reducible rfl
    | split
    | simp only [↓Chip.touchExtent_mem, ↓Chip.wmbWrite_mem, ↓Chip.sendWriteWm_mem, ↓Chip.earnHit_mem, ↓Chip.enterCommons_mem,
      ↓Chip.showRoutes_mem, ↓Chip.pauseCopy_mem, ↓Chip.mem_mk, Stores.eta, Chip.mem_parts]

theorem Chip.carbonPump_mem (h : Fin 24) (n : Nat) : ∀ c : Chip, (c.carbonPump h n).mem = c.mem := by
  induction n with
  | zero => exact fun c => rfl
  | succ n ih =>
    intro c
    unfold Chip.carbonPump
    repeat' split
    all_goals first
      | rfl
      | simp only [↓ih, ↓Chip.carbonUse_mem, ↓Chip.mapHead_mem]

theorem Chip.carbonSee_mem (c : Chip) (r : Request) : (Chip.carbonSee c r).mem = c.mem := by
  unfold Chip.carbonSee
  first
  | (simp only [↓Chip.mapHead_mem, ↓Chip.useCredit_mem, ↓Chip.carbonUse_mem, ↓Chip.carbonPump_mem, ↓Chip.mem_mk, Stores.eta, Chip.mem_parts]; done)
  | try dsimp only
    repeat' first
    | with_reducible rfl
    | split
    | simp only [↓Chip.mapHead_mem, ↓Chip.useCredit_mem, ↓Chip.carbonUse_mem, ↓Chip.carbonPump_mem, ↓Chip.mem_mk, Stores.eta, Chip.mem_parts]

theorem Chip.carbonFlit_mem (c : Chip) (f : RxFlit) (h : Fin 24) : (Chip.carbonFlit c f h).mem = c.mem := by
  unfold Chip.carbonFlit
  first
  | (simp only [↓Chip.cnt_mem, ↓Chip.sendTapWm_mem, ↓Chip.carbonSee_mem, ↓Chip.mem_mk, Stores.eta, Chip.mem_parts]; done)
  | try dsimp only
    repeat' first
    | with_reducible rfl
    | split
    | with_reducible refine (Chip.foldl_mem _ (fun c x => ?_) _ _).trans ?_
    | simp only [↓Chip.cnt_mem, ↓Chip.sendTapWm_mem, ↓Chip.carbonSee_mem, ↓Chip.mem_mk, Stores.eta, Chip.mem_parts]

theorem Chip.arriveCarbon_mem (c : Chip) (r : Request) (saw : Bool) (hostAck : Nat) : (Chip.arriveCarbon c r saw hostAck).mem = c.mem := by
  unfold Chip.arriveCarbon
  first
  | (simp only [↓Chip.mapHead_mem, ↓Chip.showFetches_mem, ↓Chip.carbonFlit_mem, ↓Chip.mem_mk, Stores.eta, Chip.mem_parts]; done)
  | try dsimp only
    repeat' first
    | with_reducible rfl
    | split
    | simp only [↓Chip.mapHead_mem, ↓Chip.showFetches_mem, ↓Chip.carbonFlit_mem, ↓Chip.mem_mk, Stores.eta, Chip.mem_parts]

theorem Chip.issueDrain_mem (c : Chip) (line : Nat) : (Chip.issueDrain c line).mem = c.mem := by
  unfold Chip.issueDrain
  first
  | (simp only [↓Chip.cnt_mem, ↓Chip.meetChannel_mem, ↓Chip.setTokens_mem, ↓Chip.mem_mk, Stores.eta, Chip.mem_parts]; done)
  | try dsimp only
    repeat' first
    | with_reducible rfl
    | split
    | simp only [↓Chip.cnt_mem, ↓Chip.meetChannel_mem, ↓Chip.setTokens_mem, ↓Chip.mem_mk, Stores.eta, Chip.mem_parts]

theorem Chip.settleChannels_mem (c : Chip) : (Chip.settleChannels c).mem = c.mem := by
  unfold Chip.settleChannels
  first
  | (simp only [↓Chip.settleClient_mem, ↓Chip.mem_mk, Stores.eta, Chip.mem_parts]; done)
  | try dsimp only
    repeat' first
    | with_reducible rfl
    | split
    | with_reducible refine (Chip.foldl_mem _ (fun c x => ?_) _ _).trans ?_
    | simp only [↓Chip.settleClient_mem, ↓Chip.mem_mk, Stores.eta, Chip.mem_parts]

theorem Chip.writePair_mem (c : Chip) (line : Nat) : (Chip.writePair c line).mem = c.mem := by
  unfold Chip.writePair
  first
  | (simp only [↓Chip.cnt_mem, ↓Chip.mapChan_mem, ↓Chip.accessRow_mem, ↓Chip.mem_mk, Stores.eta, Chip.mem_parts]; done)
  | try dsimp only
    repeat' first
    | with_reducible rfl
    | split
    | simp only [↓Chip.cnt_mem, ↓Chip.mapChan_mem, ↓Chip.accessRow_mem, ↓Chip.mem_mk, Stores.eta, Chip.mem_parts]

theorem Chip.landPatched_mem (c : Chip) (line : Nat) (patch low : Bool) : (Chip.landPatched c line patch low).mem = c.mem := by
  unfold Chip.landPatched
  first
  | (simp only [↓Chip.raise_mem, ↓Chip.earnHit_mem, ↓Chip.mem_mk, Stores.eta, Chip.mem_parts]; done)
  | try dsimp only
    repeat' first
    | with_reducible rfl
    | split
    | simp only [↓Chip.raise_mem, ↓Chip.earnHit_mem, ↓Chip.mem_mk, Stores.eta, Chip.mem_parts]

theorem Chip.lineReturns_mem (c : Chip) (line : Nat) (bad : BitVec 20) : (Chip.lineReturns c line bad).mem = c.mem := by
  unfold Chip.lineReturns
  first
  | (simp only [↓Chip.correctedLine_mem, ↓Chip.uncorrectableLine_mem, ↓Chip.mapTags_mem, ↓Chip.serveFull_mem, ↓Chip.runCommons_mem,
      ↓Chip.mem_mk, Stores.eta, Chip.mem_parts]; done)
  | try dsimp only
    repeat' first
    | with_reducible rfl
    | split
    | with_reducible refine (Chip.continueTags_mem _ _ _ (fun c t => ?_)).trans ?_
    | simp only [↓Chip.correctedLine_mem, ↓Chip.uncorrectableLine_mem, ↓Chip.mapTags_mem, ↓Chip.serveFull_mem, ↓Chip.runCommons_mem,
      ↓Chip.mem_mk, Stores.eta, Chip.mem_parts]

theorem Chip.issueRead_mem (c : Chip) (line : Nat) : (Chip.issueRead c line).mem = c.mem := by
  unfold Chip.issueRead
  simp only [↓Chip.issueAccess_mem, ↓Chip.accessRow_mem, ↓Chip.mapTags_mem, ↓Chip.mem_mk, Stores.eta, Chip.mem_parts]

end Sys2Proof.Machine
end

