-- ==== Sys2Proof/Laws/MemMedia.lean ====
section
/-! SUPPORT. The operations of Machine/Media.lean that leave the byte stores of a chip as they are. -/
namespace Sys2Proof.Machine

set_option simprocs false

theorem Chip.setRow_mem (c : Chip) (r : Nat) (x : MdeRow) : (Chip.setRow c r x).mem = c.mem := by
  unfold Chip.setRow
  simp only [↓Chip.mem_mk, Stores.eta, Chip.mem_parts]

theorem Chip.openRow_mem (c : Chip) (r stream : Nat) : (Chip.openRow c r stream).mem = c.mem := by
  unfold Chip.openRow
  first
  | (simp only [↓Chip.cnt_mem, ↓Chip.setRow_mem, ↓Chip.mem_mk, Stores.eta, Chip.mem_parts, Chip.ite_mem, ite_self]; done)
  | try dsimp only
    repeat' first
    | with_reducible rfl
    | split
    | simp only [↓Chip.cnt_mem, ↓Chip.setRow_mem, ↓Chip.mem_mk, Stores.eta, Chip.mem_parts]

theorem Chip.mergeGroup_mem (c : Chip) (u old new : Nat) : (Chip.mergeGroup c u old new).mem = c.mem := by
  unfold Chip.mergeGroup
  first
  | (simp only [↓Chip.mem_mk, Stores.eta, Chip.mem_parts, Chip.ite_mem, ite_self]; done)
  | try dsimp only
    repeat' first
    | with_reducible rfl
    | split
    | with_reducible refine (Chip.foldl_mem _ (fun c x => ?_) _ _).trans ?_
    | with_reducible refine (Chip.foldl_fst_mem _ (fun a x => ?_) _ _).trans ?_
    | simp only [↓Chip.mem_mk, Stores.eta, Chip.mem_parts]

theorem Chip.openGroup_mem (c : Chip) (u : Nat) : (Chip.openGroup c u).mem = c.mem := by
  unfold Chip.openGroup
  first
  | (simp only [↓Chip.mergeGroup_mem, ↓Chip.mem_mk, Stores.eta, Chip.mem_parts, Chip.ite_mem, ite_self]; done)
  | try dsimp only
    repeat' first
    | with_reducible rfl
    | split
    | simp only [↓Chip.mergeGroup_mem, ↓Chip.mem_mk, Stores.eta, Chip.mem_parts]

theorem Chip.closeRow_mem (c : Chip) (r : Nat) : (Chip.closeRow c r).mem = c.mem := by
  unfold Chip.closeRow
  first
  | (simp only [↓Chip.setRow_mem, ↓Chip.openGroup_mem, ↓Chip.mem_mk, Stores.eta, Chip.mem_parts, Chip.ite_mem, ite_self]; done)
  | try dsimp only
    repeat' first
    | with_reducible rfl
    | split
    | simp only [↓Chip.setRow_mem, ↓Chip.openGroup_mem, ↓Chip.mem_mk, Stores.eta, Chip.mem_parts]

theorem Chip.roomFor_mem (c : Chip) (stream cells : Nat) {r : Chip × Nat} (h : c.roomFor stream cells = some r) :
    r.1.mem = c.mem := by
  unfold Chip.roomFor at h
  dsimp only at h
  split at h
  · cases h
    rfl
  · simp only [Option.map_eq_some_iff] at h
    obtain ⟨x, _, rfl⟩ := h
    rw [Chip.openRow_mem]
    repeat' split
    all_goals first
      | rfl
      | exact Chip.closeRow_mem _ _

theorem Chip.forget_mem (c : Chip) (x : ParcelEntry) : (Chip.forget c x).mem = c.mem := by
  unfold Chip.forget
  first
  | (simp only [↓Chip.setRow_mem, ↓Chip.mem_mk, Stores.eta, Chip.mem_parts, Chip.ite_mem, ite_self]; done)
  | try dsimp only
    repeat' first
    | with_reducible rfl
    | split
    | simp only [↓Chip.setRow_mem, ↓Chip.mem_mk, Stores.eta, Chip.mem_parts]

theorem Chip.cancelMove_mem (c : Chip) (p : Nat) : (Chip.cancelMove c p).mem = c.mem := by
  unfold Chip.cancelMove
  first
  | (simp only [↓Chip.cnt_mem, ↓Chip.mem_mk, Stores.eta, Chip.mem_parts, Chip.ite_mem, ite_self]; done)
  | try dsimp only
    repeat' first
    | with_reducible rfl
    | split
    | simp only [↓Chip.cnt_mem, ↓Chip.mem_mk, Stores.eta, Chip.mem_parts]

theorem Chip.stageCopy_mem (c : Chip) (p plen stream : Nat) {r : Chip × Nat} (h : c.stageCopy p plen stream = some r) :
    r.1.mem = c.mem := by
  unfold Chip.stageCopy at h
  dsimp only at h
  split at h
  · cases h
  · split at h
    · cases h
    · rename_i x hx
      cases h
      simp only [↓Chip.cnt_mem, ↓Chip.setRow_mem, ↓Chip.oweBlock_mem, ↓Chip.mem_mk, Stores.eta, Chip.mem_parts]
      exact Chip.roomFor_mem c _ _ hx

theorem Chip.relocate_mem (c : Chip) (p stream : Nat) {c' : Chip} (h : c.relocate p stream = some c') : c'.mem = c.mem := by
  unfold Chip.relocate at h
  dsimp only at h
  split at h
  · cases h
    rfl
  · split at h
    · cases h
    · rename_i hx
      cases h
      rw [Chip.setParcel_mem, Chip.forget_mem]
      exact Chip.stageCopy_mem c _ _ _ hx

theorem Chip.readPatch_mem (c : Chip) (ls : List Nat) : (Chip.readPatch c ls).mem = c.mem := by
  unfold Chip.readPatch
  first
  | (simp only [↓Chip.oweLines_mem, ↓Chip.mem_mk, Stores.eta, Chip.mem_parts]; done)
  | try dsimp only
    repeat' first
    | with_reducible rfl
    | split
    | with_reducible refine (Chip.foldl_mem _ (fun c x => ?_) _ _).trans ?_
    | with_reducible refine (Chip.foldl_fst_mem _ (fun a x => ?_) _ _).trans ?_
    | simp only [↓Chip.oweLines_mem, ↓Chip.mem_mk, Stores.eta, Chip.mem_parts]

theorem Chip.queueMerge_mem (c : Chip) (p : Nat) : (Chip.queueMerge c p).mem = c.mem := by
  unfold Chip.queueMerge
  first
  | (simp only [↓Chip.mem_mk, Stores.eta, Chip.mem_parts, Chip.ite_mem, ite_self]; done)
  | try dsimp only
    repeat' first
    | with_reducible rfl
    | split
    | simp only [↓Chip.mem_mk, Stores.eta, Chip.mem_parts]

theorem Chip.queueRow_mem (c : Chip) (r cls : Nat) : (Chip.queueRow c r cls).mem = c.mem := by
  unfold Chip.queueRow
  first
  | (simp only [↓Chip.setRow_mem, ↓Chip.mem_mk, Stores.eta, Chip.mem_parts, Chip.ite_mem, ite_self]; done)
  | try dsimp only
    repeat' first
    | with_reducible rfl
    | split
    | simp only [↓Chip.setRow_mem, ↓Chip.mem_mk, Stores.eta, Chip.mem_parts]

theorem Chip.moveRow_mem (c : Chip) (r stream victim : Nat) : (Chip.moveRow c r stream victim).mem = c.mem := by
  unfold Chip.moveRow
  simp only [↓Chip.setRow_mem, ↓Chip.mem_mk, Stores.eta, Chip.mem_parts]

theorem Chip.chargeBits_mem (c : Chip) (r : Nat) (x : BitCharge) : (Chip.chargeBits c r x).mem = c.mem := by
  unfold Chip.chargeBits
  first
  | (simp only [↓Chip.cnt_mem, ↓Chip.mem_mk, Stores.eta, Chip.mem_parts, Chip.ite_mem, ite_self]; done)
  | try dsimp only
    repeat' first
    | with_reducible rfl
    | split
    | simp only [↓Chip.cnt_mem, ↓Chip.mem_mk, Stores.eta, Chip.mem_parts]

theorem Chip.updateThresholds_mem (c : Chip) : (Chip.updateThresholds c).mem = c.mem := by
  unfold Chip.updateThresholds
  first
  | (simp only [↓Chip.cnt_mem, ↓Chip.mem_mk, Stores.eta, Chip.mem_parts, Chip.ite_mem, ite_self]; done)
  | try dsimp only
    repeat' first
    | with_reducible rfl
    | split
    | with_reducible refine (Chip.foldl_mem _ (fun c x => ?_) _ _).trans ?_
    | with_reducible refine (Chip.foldl_fst_mem _ (fun a x => ?_) _ _).trans ?_
    | simp only [↓Chip.cnt_mem, ↓Chip.mem_mk, Stores.eta, Chip.mem_parts]

theorem Chip.loseColumn_mem (c : Chip) (u k : Nat) : (Chip.loseColumn c u k).mem = c.mem := by
  unfold Chip.loseColumn
  first
  | (simp only [↓Chip.raise_mem, ↓Chip.setRow_mem, ↓Chip.queueRow_mem, ↓Chip.mem_mk, Stores.eta, Chip.mem_parts, Chip.ite_mem, ite_self]; done)
  | try dsimp only
    repeat' first
    | with_reducible rfl
    | split
    | with_reducible refine (Chip.foldl_mem _ (fun c x => ?_) _ _).trans ?_
    | with_reducible refine (Chip.foldl_fst_mem _ (fun a x => ?_) _ _).trans ?_
    | simp only [↓Chip.raise_mem, ↓Chip.setRow_mem, ↓Chip.queueRow_mem, ↓Chip.mem_mk, Stores.eta, Chip.mem_parts]

theorem Chip.retireLun_mem (c : Chip) (u k : Nat) : (Chip.retireLun c u k).mem = c.mem := by
  unfold Chip.retireLun
  first
  | (simp only [↓Chip.putCfg_mem, ↓Chip.raise_mem, ↓Chip.drew_mem, ↓Chip.loseColumn_mem, ↓Chip.mem_mk, Stores.eta, Chip.mem_parts, Chip.ite_mem, ite_self]; done)
  | try dsimp only
    repeat' first
    | with_reducible rfl
    | split
    | simp only [↓Chip.putCfg_mem, ↓Chip.raise_mem, ↓Chip.drew_mem, ↓Chip.loseColumn_mem, ↓Chip.mem_mk, Stores.eta, Chip.mem_parts]

theorem Chip.retireBlock_mem (c : Chip) (r k : Nat) : (Chip.retireBlock c r k).mem = c.mem := by
  unfold Chip.retireBlock
  first
  | (simp only [↓Chip.cnt_mem, ↓Chip.drew_mem, ↓Chip.retireLun_mem, ↓Chip.mem_mk, Stores.eta, Chip.mem_parts, Chip.ite_mem, ite_self]; done)
  | try dsimp only
    repeat' first
    | with_reducible rfl
    | split
    | simp only [↓Chip.cnt_mem, ↓Chip.drew_mem, ↓Chip.retireLun_mem, ↓Chip.mem_mk, Stores.eta, Chip.mem_parts]

theorem Chip.markBlock_mem (c : Chip) (r k : Nat) : (Chip.markBlock c r k).mem = c.mem := by
  unfold Chip.markBlock
  first
  | (simp only [↓Chip.mem_mk, Stores.eta, Chip.mem_parts, Chip.ite_mem, ite_self]; done)
  | try dsimp only
    repeat' first
    | with_reducible rfl
    | split
    | simp only [↓Chip.mem_mk, Stores.eta, Chip.mem_parts]

theorem Chip.setModule_mem (c : Chip) (m st : Nat) : (Chip.setModule c m st).mem = c.mem := by
  unfold Chip.setModule
  simp only [↓Chip.put_mem, ↓Chip.raise_mem, ↓Chip.mem_mk, Stores.eta, Chip.mem_parts]

theorem Chip.offlining_mem (c : Chip) (m : Nat) : (Chip.offlining c m).mem = c.mem := by
  unfold Chip.offlining
  first
  | (simp only [↓Chip.retireLun_mem, ↓Chip.setModule_mem, ↓Chip.mem_mk, Stores.eta, Chip.mem_parts]; done)
  | try dsimp only
    repeat' first
    | with_reducible rfl
    | split
    | with_reducible refine (Chip.foldl_mem _ (fun c x => ?_) _ _).trans ?_
    | with_reducible refine (Chip.foldl_fst_mem _ (fun a x => ?_) _ _).trans ?_
    | simp only [↓Chip.retireLun_mem, ↓Chip.setModule_mem, ↓Chip.mem_mk, Stores.eta, Chip.mem_parts]

theorem Chip.startOp_mem (c : Chip) (o : BusyOp) : (Chip.startOp c o).mem = c.mem := by
  unfold Chip.startOp
  first
  | (simp only [↓Chip.mem_mk, Stores.eta, Chip.mem_parts, Chip.ite_mem, ite_self]; done)
  | try dsimp only
    repeat' first
    | with_reducible rfl
    | split
    | simp only [↓Chip.mem_mk, Stores.eta, Chip.mem_parts]

theorem Chip.startOps_mem (c : Chip) : (Chip.startOps c).mem = c.mem := by
  unfold Chip.startOps
  first
  | (simp only [↓Chip.startOp_mem, ↓Chip.mem_mk, Stores.eta, Chip.mem_parts]; done)
  | try dsimp only
    repeat' first
    | with_reducible rfl
    | split
    | with_reducible refine (Chip.foldl_mem _ (fun c x => ?_) _ _).trans ?_
    | with_reducible refine (Chip.foldl_fst_mem _ (fun a x => ?_) _ _).trans ?_
    | simp only [↓Chip.startOp_mem, ↓Chip.mem_mk, Stores.eta, Chip.mem_parts]

theorem Chip.endOp_mem (c : Chip) (r k : Nat) : (Chip.endOp c r k).mem = c.mem := by
  unfold Chip.endOp
  simp only [↓Chip.mem_mk, Stores.eta, Chip.mem_parts]

theorem Chip.mediaFailed_mem (c : Chip) (p : Nat) : (Chip.mediaFailed c p).mem = c.mem := by
  unfold Chip.mediaFailed
  simp only [↓Chip.cnt_mem, ↓Chip.raise_mem, ↓Chip.mapTags_mem, ↓Chip.mem_mk, Stores.eta, Chip.mem_parts]

theorem Chip.countRead_mem (c : Chip) (x : MediaRead) (direct : Bool) (d : Nat) : (Chip.countRead c x direct d).mem = c.mem := by
  unfold Chip.countRead
  first
  | (simp only [↓Chip.cnt_mem, ↓Chip.mem_mk, Stores.eta, Chip.mem_parts, Chip.ite_mem, ite_self]; done)
  | try dsimp only
    repeat' first
    | with_reducible rfl
    | split
    | with_reducible refine (Chip.foldl_mem _ (fun c x => ?_) _ _).trans ?_
    | with_reducible refine (Chip.foldl_fst_mem _ (fun a x => ?_) _ _).trans ?_
    | simp only [↓Chip.cnt_mem, ↓Chip.mem_mk, Stores.eta, Chip.mem_parts]

theorem Chip.blockFailed_mem (c : Chip) (r k : Nat) : (Chip.blockFailed c r k).mem = c.mem := by
  unfold Chip.blockFailed
  first
  | (simp only [↓Chip.markBlock_mem, ↓Chip.mem_mk, Stores.eta, Chip.mem_parts, Chip.ite_mem, ite_self]; done)
  | try dsimp only
    repeat' first
    | with_reducible rfl
    | split
    | simp only [↓Chip.markBlock_mem, ↓Chip.mem_mk, Stores.eta, Chip.mem_parts]

theorem Chip.countArray_mem (c : Chip) (p plen loc : Nat) (x : MediaRead) (direct : Bool) : (Chip.countArray c p plen loc x direct).mem = c.mem := by
  unfold Chip.countArray
  first
  | (simp only [↓Chip.cnt_mem, ↓Chip.raise_mem, ↓Chip.dlo_mem, ↓Chip.queueRow_mem, ↓Chip.chargeBits_mem, ↓Chip.countRead_mem,
      ↓Chip.blockFailed_mem, ↓Chip.mem_mk, Stores.eta, Chip.mem_parts, Chip.ite_mem, ite_self]; done)
  | try dsimp only
    repeat' first
    | with_reducible rfl
    | split
    | with_reducible refine (Chip.foldl_mem _ (fun c x => ?_) _ _).trans ?_
    | with_reducible refine (Chip.foldl_fst_mem _ (fun a x => ?_) _ _).trans ?_
    | simp only [↓Chip.cnt_mem, ↓Chip.raise_mem, ↓Chip.dlo_mem, ↓Chip.queueRow_mem, ↓Chip.chargeBits_mem, ↓Chip.countRead_mem,
      ↓Chip.blockFailed_mem, ↓Chip.mem_mk, Stores.eta, Chip.mem_parts]

theorem Chip.repairParcel_mem (c : Chip) (p : Nat) : (Chip.repairParcel c p).mem = c.mem := by
  unfold Chip.repairParcel
  simp only [↓Chip.mem_mk, Stores.eta, Chip.mem_parts]

theorem Chip.copyLost_mem (c : Chip) (p : Nat) : (Chip.copyLost c p).mem = c.mem := by
  unfold Chip.copyLost
  first
  | (simp only [↓Chip.setDirty_mem, ↓Chip.repairParcel_mem, ↓Chip.mem_mk, Stores.eta, Chip.mem_parts, Chip.ite_mem, ite_self]; done)
  | try dsimp only
    repeat' first
    | with_reducible rfl
    | split
    | simp only [↓Chip.setDirty_mem, ↓Chip.repairParcel_mem, ↓Chip.mem_mk, Stores.eta, Chip.mem_parts]

theorem Chip.arrayFailed_mem (c : Chip) (p r d : Nat) (x : MediaRead) : (Chip.arrayFailed c p r d x).mem = c.mem := by
  unfold Chip.arrayFailed
  first
  | (simp only [↓Chip.cnt_mem, ↓Chip.dlo_mem, ↓Chip.mediaFailed_mem, ↓Chip.copyLost_mem, ↓Chip.mem_mk, Stores.eta, Chip.mem_parts, Chip.ite_mem, ite_self]; done)
  | try dsimp only
    repeat' first
    | with_reducible rfl
    | split
    | simp only [↓Chip.cnt_mem, ↓Chip.dlo_mem, ↓Chip.mediaFailed_mem, ↓Chip.copyLost_mem, ↓Chip.mem_mk, Stores.eta, Chip.mem_parts]

theorem Chip.scrubbed_mem (c : Chip) (p : Nat) (x : MediaRead) (worstPct : Nat) : (Chip.scrubbed c p x worstPct).mem = c.mem := by
  unfold Chip.scrubbed
  first
  | (simp only [↓Chip.queueRow_mem, ↓Chip.countArray_mem, ↓Chip.copyLost_mem, ↓Chip.arrayFailed_mem, ↓Chip.mem_mk, Stores.eta,
      Chip.mem_parts, Chip.ite_mem, ite_self]; done)
  | try dsimp only
    repeat' first
    | with_reducible rfl
    | split
    | simp only [↓Chip.queueRow_mem, ↓Chip.countArray_mem, ↓Chip.copyLost_mem, ↓Chip.arrayFailed_mem, ↓Chip.mem_mk, Stores.eta,
      Chip.mem_parts]

theorem Chip.moveRead_mem (c : Chip) (p : Nat) : (c.moveRead p).mem = c.mem := by
  unfold Chip.moveRead
  simp only []
  split
  · rfl
  · split
    · rename_i d hd
      rw [Chip.cnt_mem]
      exact (Chip.relocate_mem _ p _ hd).trans rfl
    · rfl

theorem Chip.endDirect_mem (c : Chip) (p loc : Nat) : (Chip.endDirect c p loc).mem = c.mem := by
  unfold Chip.endDirect
  simp only [↓Chip.resumeAt_mem, ↓Chip.mem_mk, Stores.eta, Chip.mem_parts]

theorem Chip.saveProgramFails_mem (c : Chip) (r k : Nat) : (Chip.saveProgramFails c r k).mem = c.mem := by
  unfold Chip.saveProgramFails
  simp only [↓Chip.cnt_mem, ↓Chip.retireBlock_mem, ↓Chip.mem_mk, Stores.eta, Chip.mem_parts]

theorem Chip.offlineReq_mem (c : Chip) (m : Nat) : (Chip.offlineReq c m).mem = c.mem := by
  unfold Chip.offlineReq
  first
  | (simp only [↓Chip.reject_mem, ↓Chip.offlining_mem, ↓Chip.mem_mk, Stores.eta, Chip.mem_parts, Chip.ite_mem, ite_self]; done)
  | try dsimp only
    repeat' first
    | with_reducible rfl
    | split
    | simp only [↓Chip.reject_mem, ↓Chip.offlining_mem, ↓Chip.mem_mk, Stores.eta, Chip.mem_parts]

theorem Chip.onlineReq_mem (c : Chip) (m : Nat) : (Chip.onlineReq c m).mem = c.mem := by
  unfold Chip.onlineReq
  first
  | (simp only [↓Chip.setModule_mem, ↓Chip.mem_mk, Stores.eta, Chip.mem_parts, Chip.ite_mem, ite_self]; done)
  | try dsimp only
    repeat' first
    | with_reducible rfl
    | split
    | simp only [↓Chip.setModule_mem, ↓Chip.mem_mk, Stores.eta, Chip.mem_parts]

theorem Chip.showMount_mem (c : Chip) : (Chip.showMount c).mem = c.mem := by
  unfold Chip.showMount
  simp only [↓Chip.put_mem, ↓Chip.mem_mk, Stores.eta, Chip.mem_parts]

end Sys2Proof.Machine
end

