-- ==== Sys2Proof/Laws/MemTiers.lean ====
section
/-! SUPPORT. The operations of Machine/Tiers.lean that leave the byte stores of a chip as they are. -/
namespace Sys2Proof.Machine

set_option simprocs false

theorem Chip.announce_mem (c : Chip) (e : Effect) : (Chip.announce c e).mem = c.mem := by
  unfold Chip.announce
  simp only [↓Chip.postEffect_mem, ↓Chip.mem_mk, Stores.eta, Chip.mem_parts]

theorem Chip.endMig_mem (c : Chip) (e : Nat) : (Chip.endMig c e).mem = c.mem := by
  unfold Chip.endMig
  simp only [↓Chip.mem_mk, Stores.eta, Chip.mem_parts]

theorem Chip.startMig_mem (c : Chip) (e : Nat) (promote : Bool) : (Chip.startMig c e promote).mem = c.mem := by
  unfold Chip.startMig
  first
  | (simp only [↓Chip.mem_mk, Stores.eta, Chip.mem_parts, Chip.ite_mem, ite_self]; done)
  | try dsimp only
    repeat' first
    | with_reducible rfl
    | split
    | simp only [↓Chip.mem_mk, Stores.eta, Chip.mem_parts]

theorem Chip.migDone_mem (c : Chip) (e : Nat) : (Chip.migDone c e).mem = c.mem := by
  unfold Chip.migDone
  first
  | (simp only [↓Chip.postEffect_mem, ↓Chip.mem_mk, Stores.eta, Chip.mem_parts, Chip.ite_mem, ite_self]; done)
  | try dsimp only
    repeat' first
    | with_reducible rfl
    | split
    | simp only [↓Chip.postEffect_mem, ↓Chip.mem_mk, Stores.eta, Chip.mem_parts]

theorem Chip.evictHeld_mem (c : Chip) (e : Nat) : (Chip.evictHeld c e).mem = c.mem := by
  unfold Chip.evictHeld
  first
  | (simp only [↓Chip.cnt_mem, ↓Chip.mapRoute_mem, ↓Chip.mem_mk, Stores.eta, Chip.mem_parts, Chip.ite_mem, ite_self]; done)
  | try dsimp only
    repeat' first
    | with_reducible rfl
    | split
    | with_reducible refine (Chip.foldl_mem _ (fun c x => ?_) _ _).trans ?_
    | with_reducible refine (Chip.foldl_fst_mem _ (fun a x => ?_) _ _).trans ?_
    | simp only [↓Chip.cnt_mem, ↓Chip.mapRoute_mem, ↓Chip.mem_mk, Stores.eta, Chip.mem_parts]

theorem Chip.rejudge_mem (c : Chip) (e : Nat) : (Chip.rejudge c e).mem = c.mem := by
  unfold Chip.rejudge
  first
  | (simp only [↓Chip.cnt_mem, ↓Chip.queueMig_mem, ↓Chip.announce_mem, ↓Chip.mem_mk, Stores.eta, Chip.mem_parts, Chip.ite_mem, ite_self]; done)
  | try dsimp only
    repeat' first
    | with_reducible rfl
    | split
    | simp only [↓Chip.cnt_mem, ↓Chip.queueMig_mem, ↓Chip.announce_mem, ↓Chip.mem_mk, Stores.eta, Chip.mem_parts]

theorem Chip.setPending_mem (c : Chip) (e : Nat) (on : Bool) : (Chip.setPending c e on).mem = c.mem := by
  unfold Chip.setPending
  simp only [↓Chip.mapExt_mem, ↓Chip.mem_mk, Stores.eta, Chip.mem_parts]

theorem Chip.deferEviction_mem (c : Chip) (e : Nat) : (Chip.deferEviction c e).mem = c.mem := by
  unfold Chip.deferEviction
  first
  | (simp only [↓Chip.cnt_mem, ↓Chip.raise_mem, ↓Chip.announce_mem, ↓Chip.mem_mk, Stores.eta, Chip.mem_parts, Chip.ite_mem, ite_self]; done)
  | try dsimp only
    repeat' first
    | with_reducible rfl
    | split
    | simp only [↓Chip.cnt_mem, ↓Chip.raise_mem, ↓Chip.announce_mem, ↓Chip.mem_mk, Stores.eta, Chip.mem_parts]

theorem Chip.wantMove_mem (c : Chip) (cls e : Nat) (promote : Bool) : (Chip.wantMove c cls e promote).mem = c.mem := by
  unfold Chip.wantMove
  first
  | (simp only [↓Chip.queueMig_mem, ↓Chip.deferEviction_mem, ↓Chip.mem_mk, Stores.eta, Chip.mem_parts, Chip.ite_mem, ite_self]; done)
  | try dsimp only
    repeat' first
    | with_reducible rfl
    | split
    | simp only [↓Chip.queueMig_mem, ↓Chip.deferEviction_mem, ↓Chip.mem_mk, Stores.eta, Chip.mem_parts]

theorem Chip.judgePolicy_mem (c : Chip) (e : Nat) : (Chip.judgePolicy c e).mem = c.mem := by
  unfold Chip.judgePolicy
  first
  | (simp only [↓Chip.wantMove_mem, ↓Chip.mem_mk, Stores.eta, Chip.mem_parts]; done)
  | try dsimp only
    repeat' first
    | with_reducible rfl
    | split
    | simp only [↓Chip.wantMove_mem, ↓Chip.mem_mk, Stores.eta, Chip.mem_parts]

theorem Chip.decideFirst_mem (c : Chip) : (Chip.decideFirst c).mem = c.mem := by
  unfold Chip.decideFirst
  first
  | (simp only [↓Chip.announce_mem, ↓Chip.mem_mk, Stores.eta, Chip.mem_parts, Chip.ite_mem, ite_self]; done)
  | try dsimp only
    repeat' first
    | with_reducible rfl
    | split
    | with_reducible refine (Chip.foldl_mem _ (fun c x => ?_) _ _).trans ?_
    | with_reducible refine (Chip.foldl_fst_mem _ (fun a x => ?_) _ _).trans ?_
    | simp only [↓Chip.announce_mem, ↓Chip.mem_mk, Stores.eta, Chip.mem_parts]

theorem Chip.sweep_mem (n : Nat) : ∀ c : Chip, (c.sweep n).mem = c.mem := by
  induction n with
  | zero => exact fun c => rfl
  | succ n ih =>
    intro c
    unfold Chip.sweep
    split
    · rfl
    · split
      · rw [ih, Chip.queueMig_mem]
      · rw [Chip.raise_mem, Chip.cnt_mem]

theorem Chip.tryStart_mem (c : Chip) (m : Mig) : (Chip.tryStart c m).mem = c.mem := by
  unfold Chip.tryStart
  first
  | (simp only [↓Chip.queueMig_mem, ↓Chip.announce_mem, ↓Chip.deferEviction_mem, ↓Chip.mem_mk, Stores.eta, Chip.mem_parts, Chip.ite_mem, ite_self]; done)
  | try dsimp only
    repeat' first
    | with_reducible rfl
    | split
    | simp only [↓Chip.queueMig_mem, ↓Chip.announce_mem, ↓Chip.deferEviction_mem, ↓Chip.mem_mk, Stores.eta, Chip.mem_parts]

theorem Chip.fillSlots_mem (c : Chip) : (Chip.fillSlots c).mem = c.mem := by
  unfold Chip.fillSlots
  first
  | (simp only [↓Chip.tryStart_mem, ↓Chip.mem_mk, Stores.eta, Chip.mem_parts, Chip.ite_mem, ite_self]; done)
  | try dsimp only
    repeat' first
    | with_reducible rfl
    | split
    | with_reducible refine (Chip.foldl_mem _ (fun c x => ?_) _ _).trans ?_
    | with_reducible refine (Chip.foldl_fst_mem _ (fun a x => ?_) _ _).trans ?_
    | simp only [↓Chip.tryStart_mem, ↓Chip.mem_mk, Stores.eta, Chip.mem_parts]

theorem Chip.noteBlocked_mem (c : Chip) : (Chip.noteBlocked c).mem = c.mem := by
  unfold Chip.noteBlocked
  first
  | (simp only [↓Chip.cnt_mem, ↓Chip.raise_mem, ↓Chip.mem_mk, Stores.eta, Chip.mem_parts, Chip.ite_mem, ite_self]; done)
  | try dsimp only
    repeat' first
    | with_reducible rfl
    | split
    | simp only [↓Chip.cnt_mem, ↓Chip.raise_mem, ↓Chip.mem_mk, Stores.eta, Chip.mem_parts]

theorem Chip.commitDone_mem (c : Chip) : (Chip.commitDone c).mem = c.mem := by
  unfold Chip.commitDone
  first
  | (simp only [↓Chip.announce_mem, ↓Chip.mem_mk, Stores.eta, Chip.mem_parts, Chip.ite_mem, ite_self]; done)
  | try dsimp only
    repeat' first
    | with_reducible rfl
    | split
    | with_reducible refine (Chip.foldl_mem _ (fun c x => ?_) _ _).trans ?_
    | with_reducible refine (Chip.foldl_fst_mem _ (fun a x => ?_) _ _).trans ?_
    | simp only [↓Chip.announce_mem, ↓Chip.mem_mk, Stores.eta, Chip.mem_parts]

theorem Chip.earnRate_mem (c : Chip) : (Chip.earnRate c).mem = c.mem := by
  unfold Chip.earnRate
  simp only [↓Chip.mem_mk, Stores.eta, Chip.mem_parts]

theorem Chip.stepOwes_mem (c : Chip) (p : Nat) : (Chip.stepOwes c p).mem = c.mem := by
  unfold Chip.stepOwes
  first
  | (simp only [↓Chip.oweBlock_mem, ↓Chip.mem_mk, Stores.eta, Chip.mem_parts]; done)
  | try dsimp only
    repeat' first
    | with_reducible rfl
    | split
    | simp only [↓Chip.oweBlock_mem, ↓Chip.mem_mk, Stores.eta, Chip.mem_parts]

theorem Chip.issueStep_mem (a : Chip × Nat) (p : Nat) : (Chip.issueStep a p).1.mem = a.1.mem := by
  unfold Chip.issueStep
  first
  | (simp only [↓Chip.stepOwes_mem, ↓Chip.mem_mk, Stores.eta, Chip.mem_parts, Chip.ite_mem, ite_self]; done)
  | try dsimp only
    repeat' first
    | with_reducible rfl
    | split
    | simp only [↓Chip.stepOwes_mem, ↓Chip.mem_mk, Stores.eta, Chip.mem_parts]

theorem Chip.issueSteps_mem (c : Chip) : (Chip.issueSteps c).mem = c.mem := by
  unfold Chip.issueSteps
  first
  | (simp only [↓Chip.cnt_mem, ↓Chip.earnRate_mem, ↓Chip.issueStep_mem, ↓Chip.mem_mk, Stores.eta, Chip.mem_parts, Chip.ite_mem, ite_self]; done)
  | try dsimp only
    repeat' first
    | with_reducible rfl
    | split
    | with_reducible refine (Chip.foldl_mem _ (fun c x => ?_) _ _).trans ?_
    | with_reducible refine (Chip.foldl_fst_mem _ (fun a x => ?_) _ _).trans ?_
    | simp only [↓Chip.cnt_mem, ↓Chip.earnRate_mem, ↓Chip.issueStep_mem, ↓Chip.mem_mk, Stores.eta, Chip.mem_parts]

theorem Chip.keeperDecides_mem (c : Chip) : (Chip.keeperDecides c).mem = c.mem := by
  unfold Chip.keeperDecides
  first
  | (simp only [↓Chip.decideFirst_mem, ↓Chip.commitDone_mem, ↓Chip.mem_mk, Stores.eta, Chip.mem_parts, Chip.ite_mem, ite_self]; done)
  | try dsimp only
    repeat' first
    | with_reducible rfl
    | split
    | simp only [↓Chip.decideFirst_mem, ↓Chip.commitDone_mem, ↓Chip.mem_mk, Stores.eta, Chip.mem_parts]

theorem Chip.keeperFills_mem (c : Chip) : (Chip.keeperFills c).mem = c.mem := by
  unfold Chip.keeperFills
  first
  | (simp only [↓Chip.fillSlots_mem, ↓Chip.noteBlocked_mem, ↓Chip.mem_mk, Stores.eta, Chip.mem_parts, Chip.ite_mem, ite_self]; done)
  | try dsimp only
    repeat' first
    | with_reducible rfl
    | split
    | simp only [↓Chip.fillSlots_mem, ↓Chip.noteBlocked_mem, ↓Chip.mem_mk, Stores.eta, Chip.mem_parts]

theorem Chip.notePoolLow_mem (c : Chip) : (Chip.notePoolLow c).mem = c.mem := by
  unfold Chip.notePoolLow
  first
  | (simp only [↓Chip.raise_mem, ↓Chip.mem_mk, Stores.eta, Chip.mem_parts, Chip.ite_mem, ite_self]; done)
  | try dsimp only
    repeat' first
    | with_reducible rfl
    | split
    | simp only [↓Chip.raise_mem, ↓Chip.mem_mk, Stores.eta, Chip.mem_parts]

theorem Chip.sweepIfLow_mem (c : Chip) : (Chip.sweepIfLow c).mem = c.mem := by
  unfold Chip.sweepIfLow
  first
  | (simp only [↓Chip.sweep_mem, ↓Chip.mem_mk, Stores.eta, Chip.mem_parts, Chip.ite_mem, ite_self]; done)
  | try dsimp only
    repeat' first
    | with_reducible rfl
    | split
    | simp only [↓Chip.sweep_mem, ↓Chip.mem_mk, Stores.eta, Chip.mem_parts]

theorem Chip.noteOverCap_mem (c : Chip) : (Chip.noteOverCap c).mem = c.mem := by
  unfold Chip.noteOverCap
  first
  | (simp only [↓Chip.raise_mem, ↓Chip.mem_mk, Stores.eta, Chip.mem_parts, Chip.ite_mem, ite_self]; done)
  | try dsimp only
    repeat' first
    | with_reducible rfl
    | split
    | with_reducible refine (Chip.foldl_mem _ (fun c x => ?_) _ _).trans ?_
    | with_reducible refine (Chip.foldl_fst_mem _ (fun a x => ?_) _ _).trans ?_
    | simp only [↓Chip.raise_mem, ↓Chip.mem_mk, Stores.eta, Chip.mem_parts]

theorem Chip.cdatFollow_mem (c old : Chip) : (Chip.cdatFollow c old).mem = c.mem := by
  unfold Chip.cdatFollow
  first
  | (simp only [↓Chip.mapHead_mem, ↓Chip.headRecord_mem, ↓Chip.mem_mk, Stores.eta, Chip.mem_parts]; done)
  | try dsimp only
    repeat' first
    | with_reducible rfl
    | split
    | with_reducible refine (Chip.foldl_mem _ (fun c x => ?_) _ _).trans ?_
    | with_reducible refine (Chip.foldl_fst_mem _ (fun a x => ?_) _ _).trans ?_
    | simp only [↓Chip.mapHead_mem, ↓Chip.headRecord_mem, ↓Chip.mem_mk, Stores.eta, Chip.mem_parts]

theorem Chip.dropKey_mem (c : Chip) (d : Nat) : (Chip.dropKey c d).mem = c.mem := by
  unfold Chip.dropKey
  simp only [↓Chip.mem_mk, Stores.eta, Chip.mem_parts]

theorem Chip.mdcWriteBack_mem (c : Chip) (set way : Nat) : (Chip.mdcWriteBack c set way).mem = c.mem := by
  unfold Chip.mdcWriteBack
  first
  | (simp only [↓Chip.setMdcWay_mem, ↓Chip.mdcToDram_mem, ↓Chip.mem_mk, Stores.eta, Chip.mem_parts, Chip.ite_mem, ite_self]; done)
  | try dsimp only
    repeat' first
    | with_reducible rfl
    | split
    | simp only [↓Chip.setMdcWay_mem, ↓Chip.mdcToDram_mem, ↓Chip.mem_mk, Stores.eta, Chip.mem_parts]

theorem Chip.mdcCleanWay_mem (c : Chip) (set way : Nat) : (Chip.mdcCleanWay c set way).mem = c.mem := by
  unfold Chip.mdcCleanWay
  first
  | (simp only [↓Chip.cnt_mem, ↓Chip.mdcWriteBack_mem, ↓Chip.mem_mk, Stores.eta, Chip.mem_parts, Chip.ite_mem, ite_self]; done)
  | try dsimp only
    repeat' first
    | with_reducible rfl
    | split
    | simp only [↓Chip.cnt_mem, ↓Chip.mdcWriteBack_mem, ↓Chip.mem_mk, Stores.eta, Chip.mem_parts]

theorem Chip.dropLocked_mem (c : Chip) (line : Nat) : (Chip.dropLocked c line).mem = c.mem := by
  unfold Chip.dropLocked
  simp only [↓Chip.put_mem, ↓Chip.cnt_mem, ↓Chip.raise_mem, ↓Chip.mem_mk, Stores.eta, Chip.mem_parts]

theorem Chip.mdcDropWay_mem (c : Chip) (set way : Nat) : (Chip.mdcDropWay c set way).mem = c.mem := by
  unfold Chip.mdcDropWay
  first
  | (simp only [↓Chip.cnt_mem, ↓Chip.setMdcWay_mem, ↓Chip.mdcFromDram_mem, ↓Chip.dropLocked_mem, ↓Chip.mem_mk, Stores.eta, Chip.mem_parts, Chip.ite_mem, ite_self]; done)
  | try dsimp only
    repeat' first
    | with_reducible rfl
    | split
    | simp only [↓Chip.cnt_mem, ↓Chip.setMdcWay_mem, ↓Chip.mdcFromDram_mem, ↓Chip.dropLocked_mem, ↓Chip.mem_mk, Stores.eta, Chip.mem_parts]

theorem Chip.mdcLockLine_mem (c : Chip) (line : Nat) {c' : Chip} (h : c.mdcLockLine line = some c') : c'.mem = c.mem := by
  unfold Chip.mdcLockLine at h
  dsimp only at h
  repeat' split at h
  all_goals first
    | (cases h; done)
    | (cases h; rfl)
    | (cases h; simp only [↓Chip.cnt_mem, ↓Chip.setMdcWay_mem, ↓Chip.mdcInstall_mem]; done)
    | (cases h
       repeat' first
       | with_reducible rfl
       | split
       | simp only [↓Chip.cnt_mem, ↓Chip.setMdcWay_mem, ↓Chip.mdcInstall_mem, ↓Chip.mem_mk, Stores.eta, Chip.mem_parts])

theorem Chip.mdcLockRange_mem (n : Nat) : ∀ (c : Chip) (line done' : Nat), (c.mdcLockRange line done' n).1.mem = c.mem := by
  induction n with
  | zero => exact fun c line done' => rfl
  | succ n ih =>
    intro c line done'
    unfold Chip.mdcLockRange
    split
    · rfl
    · rename_i h
      exact (ih _ _ _).trans (Chip.mdcLockLine_mem c line h)

theorem Chip.mdcUnlockRange_mem (c : Chip) (first n : Nat) : (Chip.mdcUnlockRange c first n).mem = c.mem := by
  unfold Chip.mdcUnlockRange
  first
  | (simp only [↓Chip.cnt_mem, ↓Chip.setMdcWay_mem, ↓Chip.mem_mk, Stores.eta, Chip.mem_parts, Chip.ite_mem, ite_self]; done)
  | try dsimp only
    repeat' first
    | with_reducible rfl
    | split
    | with_reducible refine (Chip.foldl_mem _ (fun c x => ?_) _ _).trans ?_
    | with_reducible refine (Chip.foldl_fst_mem _ (fun a x => ?_) _ _).trans ?_
    | simp only [↓Chip.cnt_mem, ↓Chip.setMdcWay_mem, ↓Chip.mem_mk, Stores.eta, Chip.mem_parts]

theorem Chip.mdcGo_mem (c : Chip) (kind : Nat) : (Chip.mdcGo c kind).mem = c.mem := by
  unfold Chip.mdcGo
  first
  | (simp only [↓Chip.put_mem, ↓Chip.reject_mem, ↓Chip.mem_mk, Stores.eta, Chip.mem_parts, Chip.ite_mem, ite_self]; done)
  | try dsimp only
    repeat' first
    | with_reducible rfl
    | split
    | simp only [↓Chip.put_mem, ↓Chip.reject_mem, ↓Chip.mem_mk, Stores.eta, Chip.mem_parts]

theorem Chip.mdcEnd_mem (c : Chip) (err progress : Nat) : (Chip.mdcEnd c err progress).mem = c.mem := by
  unfold Chip.mdcEnd
  first
  | (simp only [↓Chip.put_mem, ↓Chip.cnt_mem, ↓Chip.raise_mem, ↓Chip.mem_mk, Stores.eta, Chip.mem_parts, Chip.ite_mem, ite_self]; done)
  | try dsimp only
    repeat' first
    | with_reducible rfl
    | split
    | simp only [↓Chip.put_mem, ↓Chip.cnt_mem, ↓Chip.raise_mem, ↓Chip.mem_mk, Stores.eta, Chip.mem_parts]

theorem Chip.mdcAct_mem (c : Chip) (kind set way : Nat) : (Chip.mdcAct c kind set way).mem = c.mem := by
  unfold Chip.mdcAct
  first
  | (simp only [↓Chip.mdcCleanWay_mem, ↓Chip.mdcDropWay_mem, ↓Chip.mem_mk, Stores.eta, Chip.mem_parts]; done)
  | try dsimp only
    repeat' first
    | with_reducible rfl
    | split
    | simp only [↓Chip.mdcCleanWay_mem, ↓Chip.mdcDropWay_mem, ↓Chip.mem_mk, Stores.eta, Chip.mem_parts]

theorem Chip.mdcRun_mem (c : Chip) (kind line n : Nat) : (Chip.mdcRun c kind line n).mem = c.mem := by
  unfold Chip.mdcRun
  first
  | (simp only [↓Chip.mdcLockRange_mem, ↓Chip.mdcUnlockRange_mem, ↓Chip.mdcEnd_mem, ↓Chip.mdcAct_mem, ↓Chip.mem_mk, Stores.eta,
      Chip.mem_parts, Chip.ite_mem, ite_self]; done)
  | try dsimp only
    repeat' first
    | with_reducible rfl
    | split
    | with_reducible refine (Chip.foldl_mem _ (fun c x => ?_) _ _).trans ?_
    | with_reducible refine (Chip.foldl_fst_mem _ (fun a x => ?_) _ _).trans ?_
    | simp only [↓Chip.mdcLockRange_mem, ↓Chip.mdcUnlockRange_mem, ↓Chip.mdcEnd_mem, ↓Chip.mdcAct_mem, ↓Chip.mem_mk, Stores.eta,
      Chip.mem_parts]

theorem Chip.refillLocked_mem (c : Chip) (line : Nat) : (Chip.refillLocked c line).mem = c.mem := by
  unfold Chip.refillLocked
  first
  | (simp only [↓Chip.dropLocked_mem, ↓Chip.mem_mk, Stores.eta, Chip.mem_parts]; done)
  | try dsimp only
    repeat' first
    | with_reducible rfl
    | split
    | with_reducible exact Chip.mdcLockLine_mem _ _ (by assumption)
    | with_reducible refine Eq.trans ?_ (Chip.mdcLockLine_mem _ _ (by assumption))
    | simp only [↓Chip.dropLocked_mem, ↓Chip.mem_mk, Stores.eta, Chip.mem_parts]

end Sys2Proof.Machine
end

