-- ==== Sys2Proof/Laws/MemRas.lean ====
section
/-! SUPPORT. The operations of Machine/Ras.lean that leave the byte stores of a chip as they are. -/
namespace Sys2Proof.Machine

set_option simprocs false

theorem Chip.mapRing_mem (c : Chip) (q : Nat) (f : Ring → Ring) : (Chip.mapRing c q f).mem = c.mem := by
  unfold Chip.mapRing
  simp only [↓Chip.mem_mk, Stores.eta, Chip.mem_parts]

theorem Chip.ringFinish_mem (c : Chip) (x : RingEnd) (recSeq : Option Nat) : (Chip.ringFinish c x recSeq).mem = c.mem := by
  unfold Chip.ringFinish
  first
  | (simp only [↓Chip.mapRing_mem, ↓Chip.mem_mk, Stores.eta, Chip.mem_parts, Chip.ite_mem, ite_self]; done)
  | try dsimp only
    repeat' first
    | with_reducible rfl
    | split
    | simp only [↓Chip.mapRing_mem, ↓Chip.mem_mk, Stores.eta, Chip.mem_parts]

theorem Chip.ringReport_mem (c : Chip) (q : Fin 64) (idx status result : Nat) (e : Effect) (gated : Bool) : (Chip.ringReport c q idx status result e gated).mem = c.mem := by
  unfold Chip.ringReport
  first
  | (simp only [↓Chip.postEffect_mem, ↓Chip.ringFinish_mem, ↓Chip.mem_mk, Stores.eta, Chip.mem_parts, Chip.ite_mem, ite_self]; done)
  | try dsimp only
    repeat' first
    | with_reducible rfl
    | split
    | simp only [↓Chip.postEffect_mem, ↓Chip.ringFinish_mem, ↓Chip.mem_mk, Stores.eta, Chip.mem_parts]

theorem Chip.commandEnd_mem (c : Chip) (q : Fin 64) (idx status result : Nat) : (Chip.commandEnd c q idx status result).mem = c.mem := by
  unfold Chip.commandEnd
  first
  | (simp only [↓Chip.postEffect_mem, ↓Chip.ringReport_mem, ↓Chip.mem_mk, Stores.eta, Chip.mem_parts, Chip.ite_mem, ite_self]; done)
  | try dsimp only
    repeat' first
    | with_reducible rfl
    | split
    | simp only [↓Chip.postEffect_mem, ↓Chip.ringReport_mem, ↓Chip.mem_mk, Stores.eta, Chip.mem_parts]

theorem Chip.retireFrame_mem (c : Chip) (f : Nat) {c' : Chip} (h : c.retireFrame f = some c') : c'.mem = c.mem := by
  unfold Chip.retireFrame at h
  dsimp only at h
  split at h
  · cases h
    rfl
  · simp only [Option.map_eq_some_iff] at h
    obtain ⟨x, hx, rfl⟩ := h
    rw [Chip.drew_mem, Chip.dlo_mem, Chip.put_mem]
    refine (Chip.foldl_bind_mem _ (fun c e c' hc => ?_) _ _ hx).trans rfl
    simp only [Option.map_eq_some_iff] at hc
    obtain ⟨g, _, rfl⟩ := hc
    rw [Chip.tcInvalidate_mem, Chip.mapExt_mem]

theorem Chip.retireFrames_eq_mem (c : Chip) (fs : List Nat) {r : Chip × Option Nat} (h : c.retireFrames fs = r) : r.1.mem = c.mem := by
  unfold Chip.retireFrames at h
  simp only [] at h
  split at h
  · subst h
    rfl
  · split at h
    · rename_i c' hc
      subst h
      exact Chip.foldl_bind_mem _ (fun c f c' hc => Chip.retireFrame_mem c f hc) _ c hc
    · subst h
      rfl

theorem Chip.retireFrames_mem (c : Chip) (fs : List Nat) : (c.retireFrames fs).1.mem = c.mem := Chip.retireFrames_eq_mem c fs rfl

theorem Chip.framesResult_fst_mem (y : Chip × Option Nat) (res : Nat) : (framesResult y res).1 = y.1 := rfl

theorem Chip.retireFrameJob_mem (c : Chip) (address : Nat) : (c.retireFrameJob address).1.mem = c.mem := by
  rw [Chip.retireFrameJob]
  generalize c.frameAt address = o
  cases o with
  | none => rfl
  | some f => rw [Option.elim_some, Chip.framesResult_fst_mem, Chip.retireFrames_mem]

theorem Chip.retireRowFrames_mem (c : Chip) (p : DramPlace) : (c.retireRowFrames p).1.mem = c.mem := by
  rw [Chip.retireRowFrames, Chip.framesResult_fst_mem, Chip.retireFrames_mem]

theorem Chip.retireParcelJob_mem (c : Chip) (address : Nat) : (c.retireParcelJob address).1.mem = c.mem := by
  unfold Chip.retireParcelJob
  dsimp only
  split
  · rfl
  · split
    · rfl
    · split
      · rfl
      · rename_i h
        rw [Chip.queueRow_mem]
        refine (Chip.foldl_mem _ (fun c x => Chip.markBlock_mem c _ x) _ _).trans ?_
        exact Chip.relocate_mem c _ _ h

theorem Chip.retireRowJob_mem (c : Chip) (x : RetireJob) : (Chip.retireRowJob c x).1.mem = c.mem := by
  unfold Chip.retireRowJob
  first
  | (simp only [↓Chip.pprStart_mem, ↓Chip.mem_mk, Stores.eta, Chip.mem_parts, Chip.ite_mem, ite_self]; done)
  | try dsimp only
    repeat' first
    | with_reducible rfl
    | split
    | simp only [↓Chip.pprStart_mem, ↓Chip.mem_mk, Stores.eta, Chip.mem_parts]

theorem Chip.retireGo_mem (c : Chip) (x : RetireJob) : (c.retireGo x).mem = c.mem := by
  unfold Chip.retireGo
  simp only []
  split
  · split
    · rename_i hr
      rw [Chip.commandEnd_mem]
      exact (congrArg (fun r : Chip × Option (Nat × Nat) × Bool => r.1.mem) hr).symm.trans (Chip.retireRowJob_mem c x)
    · rename_i hr
      exact (congrArg (fun r : Chip × Option (Nat × Nat) × Bool => r.1.mem) hr).symm.trans (Chip.retireRowJob_mem c x)
  · have hy : ∀ r : Chip × Option (Nat × Nat), (if x.opcode = 0x300 then c.retireRowFrames (placeOf x.location)
        else if x.opcode = 0x301 then c.retireFrameJob x.address else c.retireParcelJob x.address) = r → r.1.mem = c.mem := by
      intro r hr
      split at hr
      · exact hr ▸ Chip.retireRowFrames_mem c _
      · split at hr
        · exact hr ▸ Chip.retireFrameJob_mem c _
        · exact hr ▸ Chip.retireParcelJob_mem c _
    split
    · rename_i hr
      rw [Chip.commandEnd_mem]
      exact hy _ hr
    · rename_i hr
      exact hy _ hr

theorem Chip.retireJobs_mem (c : Chip) : (Chip.retireJobs c).mem = c.mem := by
  unfold Chip.retireJobs
  first
  | (simp only [↓Chip.retireGo_mem, ↓Chip.mem_mk, Stores.eta, Chip.mem_parts]; done)
  | try dsimp only
    repeat' first
    | with_reducible rfl
    | split
    | with_reducible refine (Chip.foldl_mem _ (fun c x => ?_) _ _).trans ?_
    | with_reducible refine (Chip.foldl_fst_mem _ (fun a x => ?_) _ _).trans ?_
    | simp only [↓Chip.retireGo_mem, ↓Chip.mem_mk, Stores.eta, Chip.mem_parts]

theorem Chip.pprOutcome_mem (c : Chip) (p : DramPlace) (hard auto : Bool) (err : Nat) : (Chip.pprOutcome c p hard auto err).mem = c.mem := by
  unfold Chip.pprOutcome
  first
  | (simp only [↓Chip.commandEnd_mem, ↓Chip.retireRowFrames_mem, ↓Chip.retireGo_mem, ↓Chip.mem_mk, Stores.eta, Chip.mem_parts, Chip.ite_mem, ite_self]; done)
  | try dsimp only
    repeat' first
    | with_reducible rfl
    | split
    | simp only [↓Chip.commandEnd_mem, ↓Chip.retireRowFrames_mem, ↓Chip.retireGo_mem, ↓Chip.mem_mk, Stores.eta, Chip.mem_parts]

theorem Chip.showPprLeft_mem (c : Chip) : (Chip.showPprLeft c).mem = c.mem := by
  unfold Chip.showPprLeft
  first
  | (simp only [↓Chip.put_mem, ↓Chip.mem_mk, Stores.eta, Chip.mem_parts]; done)
  | try dsimp only
    repeat' first
    | with_reducible rfl
    | split
    | with_reducible refine (Chip.foldl_mem _ (fun c x => ?_) _ _).trans ?_
    | with_reducible refine (Chip.foldl_fst_mem _ (fun a x => ?_) _ _).trans ?_
    | simp only [↓Chip.put_mem, ↓Chip.mem_mk, Stores.eta, Chip.mem_parts]

theorem Chip.moveExtent_mem (c : Chip) (e : Nat) : (Chip.moveExtent c e).mem = c.mem := by
  unfold Chip.moveExtent
  first
  | (simp only [↓Chip.oweBlock_mem, ↓Chip.mapExt_mem, ↓Chip.tcInvalidate_mem, ↓Chip.queueMig_mem, ↓Chip.mem_mk, Stores.eta, Chip.mem_parts, Chip.ite_mem, ite_self]; done)
  | try dsimp only
    repeat' first
    | with_reducible rfl
    | split
    | simp only [↓Chip.oweBlock_mem, ↓Chip.mapExt_mem, ↓Chip.tcInvalidate_mem, ↓Chip.queueMig_mem, ↓Chip.mem_mk, Stores.eta, Chip.mem_parts]

theorem Chip.ranksLeave_mem (c : Chip) : (Chip.ranksLeave c).mem = c.mem := by
  unfold Chip.ranksLeave
  first
  | (simp only [↓Chip.mapChan_mem, ↓Chip.readBacklog_mem, ↓Chip.moveExtent_mem, ↓Chip.mem_mk, Stores.eta, Chip.mem_parts, Chip.ite_mem, ite_self]; done)
  | try dsimp only
    repeat' first
    | with_reducible rfl
    | split
    | with_reducible refine (Chip.foldl_mem _ (fun c x => ?_) _ _).trans ?_
    | with_reducible refine (Chip.foldl_fst_mem _ (fun a x => ?_) _ _).trans ?_
    | simp only [↓Chip.mapChan_mem, ↓Chip.readBacklog_mem, ↓Chip.moveExtent_mem, ↓Chip.mem_mk, Stores.eta, Chip.mem_parts]

theorem Chip.patrolPass_mem (c : Chip) : (Chip.patrolPass c).mem = c.mem := by
  unfold Chip.patrolPass
  simp only [↓Chip.put_mem, ↓Chip.raise_mem, ↓Chip.mem_mk, Stores.eta, Chip.mem_parts]

theorem Chip.patrolDue_mem (c : Chip) : (Chip.patrolDue c).mem = c.mem := by
  unfold Chip.patrolDue
  first
  | (simp only [↓Chip.mem_mk, Stores.eta, Chip.mem_parts, Chip.ite_mem, ite_self]; done)
  | try dsimp only
    repeat' first
    | with_reducible rfl
    | split
    | simp only [↓Chip.mem_mk, Stores.eta, Chip.mem_parts]

theorem Chip.patrolRead_mem (c : Chip) : (Chip.patrolRead c).mem = c.mem := by
  unfold Chip.patrolRead
  first
  | (simp only [↓Chip.cnt_mem, ↓Chip.mapChan_mem, ↓Chip.oweLines_mem, ↓Chip.patrolDue_mem, ↓Chip.mem_mk, Stores.eta, Chip.mem_parts, Chip.ite_mem, ite_self]; done)
  | try dsimp only
    repeat' first
    | with_reducible rfl
    | split
    | simp only [↓Chip.cnt_mem, ↓Chip.mapChan_mem, ↓Chip.oweLines_mem, ↓Chip.patrolDue_mem, ↓Chip.mem_mk, Stores.eta, Chip.mem_parts]

theorem Chip.setPatrol_mem (c : Chip) (n : Nat) : (Chip.setPatrol c n).mem = c.mem := by
  unfold Chip.setPatrol
  simp only [↓Chip.put_mem, ↓Chip.mem_mk, Stores.eta, Chip.mem_parts]

theorem Chip.patrolGo_mem (c : Chip) (next : Nat) (wraps : Bool) : (Chip.patrolGo c next wraps).mem = c.mem := by
  unfold Chip.patrolGo
  first
  | (simp only [↓Chip.patrolPass_mem, ↓Chip.patrolRead_mem, ↓Chip.setPatrol_mem, ↓Chip.mem_mk, Stores.eta, Chip.mem_parts, Chip.ite_mem, ite_self]; done)
  | try dsimp only
    repeat' first
    | with_reducible rfl
    | split
    | simp only [↓Chip.patrolPass_mem, ↓Chip.patrolRead_mem, ↓Chip.setPatrol_mem, ↓Chip.mem_mk, Stores.eta, Chip.mem_parts]

theorem Chip.patrolPair_mem (c : Chip) : (Chip.patrolPair c).mem = c.mem := by
  unfold Chip.patrolPair
  simp only [↓Chip.patrolGo_mem, ↓Chip.mem_mk, Stores.eta, Chip.mem_parts]

theorem Chip.scrubDue_mem (c : Chip) : (Chip.scrubDue c).mem = c.mem := by
  unfold Chip.scrubDue
  first
  | (simp only [↓Chip.mem_mk, Stores.eta, Chip.mem_parts, Chip.ite_mem, ite_self]; done)
  | try dsimp only
    repeat' first
    | with_reducible rfl
    | split
    | simp only [↓Chip.mem_mk, Stores.eta, Chip.mem_parts]

theorem Chip.scrubJob_mem (c : Chip) : (Chip.scrubJob c).mem = c.mem := by
  unfold Chip.scrubJob
  dsimp only
  repeat' first
    | with_reducible rfl
    | split
    | simp only [↓Chip.repeat_mem _ Chip.patrolPair_mem, ↓Chip.put_mem, ↓Chip.cnt_mem, ↓Chip.raise_mem, ↓Chip.mem_mk, Stores.eta,
        Chip.mem_parts]

theorem Chip.showEol_mem (c : Chip) : (Chip.showEol c).mem = c.mem := by
  unfold Chip.showEol
  first
  | (simp only [↓Chip.put_mem, ↓Chip.raise_mem, ↓Chip.mem_mk, Stores.eta, Chip.mem_parts, Chip.ite_mem, ite_self]; done)
  | try dsimp only
    repeat' first
    | with_reducible rfl
    | split
    | simp only [↓Chip.put_mem, ↓Chip.raise_mem, ↓Chip.mem_mk, Stores.eta, Chip.mem_parts]

theorem Chip.ledgerRound_mem (c : Chip) : (Chip.ledgerRound c).mem = c.mem := by
  unfold Chip.ledgerRound
  first
  | (simp only [↓Chip.showEol_mem, ↓Chip.mem_mk, Stores.eta, Chip.mem_parts, Chip.ite_mem, ite_self]; done)
  | try dsimp only
    repeat' first
    | with_reducible rfl
    | split
    | simp only [↓Chip.showEol_mem, ↓Chip.mem_mk, Stores.eta, Chip.mem_parts]

end Sys2Proof.Machine
end

