-- ==== Sys2Proof/Laws/MemAlias.lean ====
section
/-! SUPPORT. The operations of Machine/Alias.lean that leave the byte stores of a chip as they are. -/
namespace Sys2Proof.Machine

set_option simprocs false

theorem Chip.acceptAlias_mem (c : Chip) (rq : Requester) (x : PageWrite) : (Chip.acceptAlias c rq x).mem = c.mem := by
  unfold Chip.acceptAlias
  first
  | (simp only [↓Chip.post_mem, ↓Chip.mem_mk, Stores.eta, Chip.mem_parts]; done)
  | try dsimp only
    repeat' first
    | with_reducible rfl
    | split
    | with_reducible refine (Chip.foldl_mem _ (fun c x => ?_) _ _).trans ?_
    | with_reducible refine (Chip.foldl_fst_mem _ (fun a x => ?_) _ _).trans ?_
    | simp only [↓Chip.post_mem, ↓Chip.mem_mk, Stores.eta, Chip.mem_parts]

end Sys2Proof.Machine
end

