-- ==== Sys2Proof/Laws/MemPostBox.lean ====
section
/-! SUPPORT. The operations of Machine/PostBox.lean that leave the byte stores of a chip as they are. -/
namespace Sys2Proof.Machine

set_option simprocs false

theorem Chip.ringEnable_mem (c : Chip) (q : Nat) : (Chip.ringEnable c q).mem = c.mem := by
  unfold Chip.ringEnable
  first
  | (simp only [↓Chip.put_mem, ↓Chip.cnt_mem, ↓Chip.raise_mem, ↓Chip.mem_mk, Stores.eta, Chip.mem_parts, Chip.ite_mem, ite_self]; done)
  | try dsimp only
    repeat' first
    | with_reducible rfl
    | split
    | simp only [↓Chip.put_mem, ↓Chip.cnt_mem, ↓Chip.raise_mem, ↓Chip.mem_mk, Stores.eta, Chip.mem_parts]

theorem Chip.ringOff_mem (c : Chip) (q : Nat) : (Chip.ringOff c q).mem = c.mem := by
  unfold Chip.ringOff
  simp only [↓Chip.put_mem, ↓Chip.putCfg_mem, ↓Chip.mem_mk, Stores.eta, Chip.mem_parts]

theorem Chip.ringSettle_mem (c : Chip) (q : Nat) : (Chip.ringSettle c q).mem = c.mem := by
  unfold Chip.ringSettle
  first
  | (simp only [↓Chip.ringOff_mem, ↓Chip.mem_mk, Stores.eta, Chip.mem_parts, Chip.ite_mem, ite_self]; done)
  | try dsimp only
    repeat' first
    | with_reducible rfl
    | split
    | simp only [↓Chip.ringOff_mem, ↓Chip.mem_mk, Stores.eta, Chip.mem_parts]

theorem Chip.ringDisable_mem (c : Chip) (q : Fin 64) : (Chip.ringDisable c q).mem = c.mem := by
  unfold Chip.ringDisable
  first
  | (simp only [↓Chip.put_mem, ↓Chip.ringReport_mem, ↓Chip.ringOff_mem, ↓Chip.ringSettle_mem, ↓Chip.mem_mk, Stores.eta, Chip.mem_parts, Chip.ite_mem, ite_self]; done)
  | try dsimp only
    repeat' first
    | with_reducible rfl
    | split
    | with_reducible refine (Chip.foldl_mem _ (fun c x => ?_) _ _).trans ?_
    | with_reducible refine (Chip.foldl_fst_mem _ (fun a x => ?_) _ _).trans ?_
    | simp only [↓Chip.put_mem, ↓Chip.ringReport_mem, ↓Chip.ringOff_mem, ↓Chip.ringSettle_mem, ↓Chip.mem_mk, Stores.eta, Chip.mem_parts]

theorem Chip.ringStart_mem (c : Chip) (q : Nat) (x : RingCmd) : (Chip.ringStart c q x).mem = c.mem := by
  unfold Chip.ringStart
  first
  | (simp only [↓Chip.put_mem, ↓Chip.mapRing_mem, ↓Chip.mem_mk, Stores.eta, Chip.mem_parts, Chip.ite_mem, ite_self]; done)
  | try dsimp only
    repeat' first
    | with_reducible rfl
    | split
    | simp only [↓Chip.put_mem, ↓Chip.mapRing_mem, ↓Chip.mem_mk, Stores.eta, Chip.mem_parts]

theorem Chip.ringBegin_mem (c : Chip) (q : Fin 64) (x : RingCmd) : (Chip.ringBegin c q x).mem = c.mem := by
  unfold Chip.ringBegin
  first
  | (simp only [↓Chip.postEffect_mem, ↓Chip.oweLines_mem, ↓Chip.ringReport_mem, ↓Chip.ringStart_mem, ↓Chip.mem_mk, Stores.eta,
      Chip.mem_parts, Chip.ite_mem, ite_self]; done)
  | try dsimp only
    repeat' first
    | with_reducible rfl
    | split
    | simp only [↓Chip.postEffect_mem, ↓Chip.oweLines_mem, ↓Chip.ringReport_mem, ↓Chip.ringStart_mem, ↓Chip.mem_mk, Stores.eta,
      Chip.mem_parts]

theorem Chip.ringFetch_mem (c : Chip) (q : Fin 64) : (Chip.ringFetch c q).mem = c.mem := by
  unfold Chip.ringFetch
  first
  | (simp only [↓Chip.postEffect_mem, ↓Chip.raise_mem, ↓Chip.ringStart_mem, ↓Chip.ringBegin_mem, ↓Chip.mem_mk, Stores.eta, Chip.mem_parts, Chip.ite_mem, ite_self]; done)
  | try dsimp only
    repeat' first
    | with_reducible rfl
    | split
    | simp only [↓Chip.postEffect_mem, ↓Chip.raise_mem, ↓Chip.ringStart_mem, ↓Chip.ringBegin_mem, ↓Chip.mem_mk, Stores.eta, Chip.mem_parts]

theorem Chip.ringWritten_mem (c : Chip) (x : RingEnd) : (Chip.ringWritten c x).mem = c.mem := by
  unfold Chip.ringWritten
  first
  | (simp only [↓Chip.put_mem, ↓Chip.cnt_mem, ↓Chip.cause_mem, ↓Chip.wmbMerge_mem, ↓Chip.mapRing_mem, ↓Chip.ringSettle_mem, ↓Chip.mem_mk,
      Stores.eta, Chip.mem_parts, Chip.ite_mem, ite_self]; done)
  | try dsimp only
    repeat' first
    | with_reducible rfl
    | split
    | simp only [↓Chip.put_mem, ↓Chip.cnt_mem, ↓Chip.cause_mem, ↓Chip.wmbMerge_mem, ↓Chip.mapRing_mem, ↓Chip.ringSettle_mem, ↓Chip.mem_mk,
      Stores.eta, Chip.mem_parts]

theorem Chip.ringComplete_mem (c : Chip) (q : Fin 64) : (Chip.ringComplete c q).mem = c.mem := by
  unfold Chip.ringComplete
  first
  | (simp only [↓Chip.postEffect_mem, ↓Chip.ringWritten_mem, ↓Chip.mem_mk, Stores.eta, Chip.mem_parts, Chip.ite_mem, ite_self]; done)
  | try dsimp only
    repeat' first
    | with_reducible rfl
    | split
    | simp only [↓Chip.postEffect_mem, ↓Chip.ringWritten_mem, ↓Chip.mem_mk, Stores.eta, Chip.mem_parts]

theorem Chip.ringRound_mem (c : Chip) : (Chip.ringRound c).mem = c.mem := by
  unfold Chip.ringRound
  first
  | (simp only [↓Chip.cnt_mem, ↓Chip.raise_mem, ↓Chip.mem_mk, Stores.eta, Chip.mem_parts, Chip.ite_mem, ite_self]; done)
  | try dsimp only
    repeat' first
    | with_reducible rfl
    | split
    | with_reducible refine (Chip.foldl_mem _ (fun c x => ?_) _ _).trans ?_
    | with_reducible refine (Chip.foldl_fst_mem _ (fun a x => ?_) _ _).trans ?_
    | simp only [↓Chip.cnt_mem, ↓Chip.raise_mem, ↓Chip.mem_mk, Stores.eta, Chip.mem_parts]

theorem Chip.ringTakeover_mem (c : Chip) (q : Fin 64) : (Chip.ringTakeover c q).mem = c.mem := by
  unfold Chip.ringTakeover
  first
  | (simp only [↓Chip.cnt_mem, ↓Chip.mapRing_mem, ↓Chip.ringReport_mem, ↓Chip.mem_mk, Stores.eta, Chip.mem_parts, Chip.ite_mem, ite_self]; done)
  | try dsimp only
    repeat' first
    | with_reducible rfl
    | split
    | with_reducible refine (Chip.foldl_mem _ (fun c x => ?_) _ _).trans ?_
    | with_reducible refine (Chip.foldl_fst_mem _ (fun a x => ?_) _ _).trans ?_
    | simp only [↓Chip.cnt_mem, ↓Chip.mapRing_mem, ↓Chip.ringReport_mem, ↓Chip.mem_mk, Stores.eta, Chip.mem_parts]

theorem Chip.withObject_mem (c : Chip) (n : Nat) (o : Obj) : (Chip.withObject c n o).mem = c.mem := by
  unfold Chip.withObject
  simp only [↓Chip.mem_mk, Stores.eta, Chip.mem_parts]

theorem Chip.objRegister_mem (c : Chip) (q : Fin 64) (h : Nat) (x : RingCmd) : (Chip.objRegister c q h x).mem = c.mem := by
  unfold Chip.objRegister
  first
  | (simp only [↓Chip.ringReport_mem, ↓Chip.withObject_mem, ↓Chip.mem_mk, Stores.eta, Chip.mem_parts, Chip.ite_mem, ite_self]; done)
  | try dsimp only
    repeat' first
    | with_reducible rfl
    | split
    | simp only [↓Chip.ringReport_mem, ↓Chip.withObject_mem, ↓Chip.mem_mk, Stores.eta, Chip.mem_parts]

theorem Chip.objRemove_mem (c : Chip) (q : Fin 64) (h : Nat) (x : RingCmd) : (Chip.objRemove c q h x).mem = c.mem := by
  unfold Chip.objRemove
  first
  | (simp only [↓Chip.ringReport_mem, ↓Chip.mem_mk, Stores.eta, Chip.mem_parts, Chip.ite_mem, ite_self]; done)
  | try dsimp only
    repeat' first
    | with_reducible rfl
    | split
    | simp only [↓Chip.ringReport_mem, ↓Chip.mem_mk, Stores.eta, Chip.mem_parts]

theorem Chip.objSetPolicy_mem (c : Chip) (q : Fin 64) (h : Nat) (x : RingCmd) : (Chip.objSetPolicy c q h x).mem = c.mem := by
  unfold Chip.objSetPolicy
  first
  | (simp only [↓Chip.ringReport_mem, ↓Chip.withObject_mem, ↓Chip.mem_mk, Stores.eta, Chip.mem_parts, Chip.ite_mem, ite_self]; done)
  | try dsimp only
    repeat' first
    | with_reducible rfl
    | split
    | simp only [↓Chip.ringReport_mem, ↓Chip.withObject_mem, ↓Chip.mem_mk, Stores.eta, Chip.mem_parts]

theorem Chip.objQuery_mem (c : Chip) (q : Fin 64) (h : Nat) (x : RingCmd) : (Chip.objQuery c q h x).mem = c.mem := by
  unfold Chip.objQuery
  first
  | (simp only [↓Chip.ringReport_mem, ↓Chip.mem_mk, Stores.eta, Chip.mem_parts, Chip.ite_mem, ite_self]; done)
  | try dsimp only
    repeat' first
    | with_reducible rfl
    | split
    | simp only [↓Chip.ringReport_mem, ↓Chip.mem_mk, Stores.eta, Chip.mem_parts]

theorem Chip.poolQuery_mem (c : Chip) (q : Fin 64) (h : Nat) (x : RingCmd) : (Chip.poolQuery c q h x).mem = c.mem := by
  unfold Chip.poolQuery
  first
  | (simp only [↓Chip.ringReport_mem, ↓Chip.mem_mk, Stores.eta, Chip.mem_parts, Chip.ite_mem, ite_self]; done)
  | try dsimp only
    repeat' first
    | with_reducible rfl
    | split
    | simp only [↓Chip.ringReport_mem, ↓Chip.mem_mk, Stores.eta, Chip.mem_parts]

theorem Chip.rangeChecks_mem (c : Chip) : (Chip.rangeChecks c).mem = c.mem := by
  unfold Chip.rangeChecks
  first
  | (simp only [↓Chip.commandEnd_mem, ↓Chip.mem_mk, Stores.eta, Chip.mem_parts]; done)
  | try dsimp only
    repeat' first
    | with_reducible rfl
    | split
    | with_reducible refine (Chip.foldl_mem _ (fun c x => ?_) _ _).trans ?_
    | with_reducible refine (Chip.foldl_fst_mem _ (fun a x => ?_) _ _).trans ?_
    | simp only [↓Chip.commandEnd_mem, ↓Chip.mem_mk, Stores.eta, Chip.mem_parts]

theorem Chip.rangeBegin_mem (c : Chip) (q : Fin 64) (idx kind : Nat) (es : List Nat) : (Chip.rangeBegin c q idx kind es).mem = c.mem := by
  unfold Chip.rangeBegin
  first
  | (simp only [↓Chip.announce_mem, ↓Chip.wantMove_mem, ↓Chip.rangeChecks_mem, ↓Chip.mem_mk, Stores.eta, Chip.mem_parts, Chip.ite_mem, ite_self]; done)
  | try dsimp only
    repeat' first
    | with_reducible rfl
    | split
    | with_reducible refine (Chip.foldl_mem _ (fun c x => ?_) _ _).trans ?_
    | with_reducible refine (Chip.foldl_fst_mem _ (fun a x => ?_) _ _).trans ?_
    | simp only [↓Chip.announce_mem, ↓Chip.wantMove_mem, ↓Chip.rangeChecks_mem, ↓Chip.mem_mk, Stores.eta, Chip.mem_parts]

theorem Chip.rangeCommand_mem (c : Chip) (q : Fin 64) (h : Nat) (kind : Nat) (x : RingCmd) : (Chip.rangeCommand c q h kind x).mem = c.mem := by
  unfold Chip.rangeCommand
  first
  | (simp only [↓Chip.postEffect_mem, ↓Chip.ringReport_mem, ↓Chip.rangeBegin_mem, ↓Chip.mem_mk, Stores.eta, Chip.mem_parts, Chip.ite_mem, ite_self]; done)
  | try dsimp only
    repeat' first
    | with_reducible rfl
    | split
    | simp only [↓Chip.postEffect_mem, ↓Chip.ringReport_mem, ↓Chip.rangeBegin_mem, ↓Chip.mem_mk, Stores.eta, Chip.mem_parts]

theorem Chip.routeLoad_mem (c : Chip) (q : Fin 64) (h : Nat) (x : RingCmd) : (Chip.routeLoad c q h x).mem = c.mem := by
  unfold Chip.routeLoad
  first
  | (simp only [↓Chip.ringReport_mem, ↓Chip.mem_mk, Stores.eta, Chip.mem_parts, Chip.ite_mem, ite_self]; done)
  | try dsimp only
    repeat' first
    | with_reducible rfl
    | split
    | simp only [↓Chip.ringReport_mem, ↓Chip.mem_mk, Stores.eta, Chip.mem_parts]

theorem Chip.routeMove_mem (c : Chip) (q : Fin 64) (h : Nat) (seek : Bool) (x : RingCmd) : (Chip.routeMove c q h seek x).mem = c.mem := by
  unfold Chip.routeMove
  first
  | (simp only [↓Chip.ringReport_mem, ↓Chip.mem_mk, Stores.eta, Chip.mem_parts, Chip.ite_mem, ite_self]; done)
  | try dsimp only
    repeat' first
    | with_reducible rfl
    | split
    | simp only [↓Chip.ringReport_mem, ↓Chip.mem_mk, Stores.eta, Chip.mem_parts]

theorem Chip.routeEnd_mem (c : Chip) (q : Fin 64) (h : Nat) (unload : Bool) (x : RingCmd) : (Chip.routeEnd c q h unload x).mem = c.mem := by
  unfold Chip.routeEnd
  first
  | (simp only [↓Chip.ringReport_mem, ↓Chip.mem_mk, Stores.eta, Chip.mem_parts, Chip.ite_mem, ite_self]; done)
  | try dsimp only
    repeat' first
    | with_reducible rfl
    | split
    | simp only [↓Chip.ringReport_mem, ↓Chip.mem_mk, Stores.eta, Chip.mem_parts]

theorem Chip.routeQuery_mem (c : Chip) (q : Fin 64) (h : Nat) (x : RingCmd) : (Chip.routeQuery c q h x).mem = c.mem := by
  unfold Chip.routeQuery
  first
  | (simp only [↓Chip.ringReport_mem, ↓Chip.mem_mk, Stores.eta, Chip.mem_parts, Chip.ite_mem, ite_self]; done)
  | try dsimp only
    repeat' first
    | with_reducible rfl
    | split
    | simp only [↓Chip.ringReport_mem, ↓Chip.mem_mk, Stores.eta, Chip.mem_parts]

theorem Chip.retireHere_mem (c : Chip) (q : Fin 64) (idx op address location : Nat) : (Chip.retireHere c q idx op address location).mem = c.mem := by
  unfold Chip.retireHere
  first
  | (simp only [↓Chip.commandEnd_mem, ↓Chip.retireGo_mem, ↓Chip.mem_mk, Stores.eta, Chip.mem_parts, Chip.ite_mem, ite_self]; done)
  | try dsimp only
    repeat' first
    | with_reducible rfl
    | split
    | simp only [↓Chip.commandEnd_mem, ↓Chip.retireGo_mem, ↓Chip.mem_mk, Stores.eta, Chip.mem_parts]

theorem Chip.retireCommand_mem (c : Chip) (q : Fin 64) (x : RingCmd) : (Chip.retireCommand c q x).mem = c.mem := by
  unfold Chip.retireCommand
  first
  | (simp only [↓Chip.postEffect_mem, ↓Chip.ringReport_mem, ↓Chip.retireHere_mem, ↓Chip.mem_mk, Stores.eta, Chip.mem_parts, Chip.ite_mem, ite_self]; done)
  | try dsimp only
    repeat' first
    | with_reducible rfl
    | split
    | simp only [↓Chip.postEffect_mem, ↓Chip.ringReport_mem, ↓Chip.retireHere_mem, ↓Chip.mem_mk, Stores.eta, Chip.mem_parts]

theorem Chip.doorbell_mem (c : Chip) (rq : Requester) (throughAlias : Bool) (q off : Nat) (v : BitVec 16) : (Chip.doorbell c rq throughAlias q off v).mem = c.mem := by
  unfold Chip.doorbell
  first
  | (simp only [↓Chip.cnt_mem, ↓Chip.raise_mem, ↓Chip.acceptAlias_mem, ↓Chip.mem_mk, Stores.eta, Chip.mem_parts, Chip.ite_mem, ite_self]; done)
  | try dsimp only
    repeat' first
    | with_reducible rfl
    | split
    | simp only [↓Chip.cnt_mem, ↓Chip.raise_mem, ↓Chip.acceptAlias_mem, ↓Chip.mem_mk, Stores.eta, Chip.mem_parts]

end Sys2Proof.Machine
end

