-- ==== Sys2Proof/Laws/MemHeads.lean ====
section
/-! SUPPORT. The operations of Machine/Heads.lean that leave the byte stores of a chip as they are. -/
namespace Sys2Proof.Machine

set_option simprocs false

theorem Chip.setLtssm_mem (c : Chip) (h : Fin 24) (st : Nat) : (Chip.setLtssm c h st).mem = c.mem := by
  unfold Chip.setLtssm
  first
  | (simp only [↓Chip.put_mem, ↓Chip.raise_mem, ↓Chip.mem_mk, Stores.eta, Chip.mem_parts, Chip.ite_mem, ite_self]; done)
  | try dsimp only
    repeat' first
    | with_reducible rfl
    | split
    | simp only [↓Chip.put_mem, ↓Chip.raise_mem, ↓Chip.mem_mk, Stores.eta, Chip.mem_parts]

theorem Chip.freeLanes_mem (c : Chip) (h : Fin 24) : (Chip.freeLanes c h).mem = c.mem := by
  unfold Chip.freeLanes
  simp only [↓Chip.put_mem, ↓Chip.mem_mk, Stores.eta, Chip.mem_parts]

theorem Chip.toDetect_mem (c : Chip) (h : Fin 24) : (Chip.toDetect c h).mem = c.mem := by
  unfold Chip.toDetect
  first
  | (simp only [↓Chip.setLtssm_mem, ↓Chip.freeLanes_mem, ↓Chip.mem_mk, Stores.eta, Chip.mem_parts, Chip.ite_mem, ite_self]; done)
  | try dsimp only
    repeat' first
    | with_reducible rfl
    | split
    | simp only [↓Chip.setLtssm_mem, ↓Chip.freeLanes_mem, ↓Chip.mem_mk, Stores.eta, Chip.mem_parts]

theorem Chip.freshStream_mem (c : Chip) (h : Fin 24) : (Chip.freshStream c h).mem = c.mem := by
  unfold Chip.freshStream
  simp only [↓Chip.mapHead_mem, ↓Chip.mem_mk, Stores.eta, Chip.mem_parts]

theorem Chip.trainLanes_mem (c : Chip) (h : Fin 24) (t : LinkTraining) : (Chip.trainLanes c h t).mem = c.mem := by
  unfold Chip.trainLanes
  first
  | (simp only [↓Chip.put_mem, ↓Chip.mem_mk, Stores.eta, Chip.mem_parts, Chip.ite_mem, ite_self]; done)
  | try dsimp only
    repeat' first
    | with_reducible rfl
    | split
    | with_reducible refine (Chip.foldl_mem _ (fun c x => ?_) _ _).trans ?_
    | with_reducible refine (Chip.foldl_fst_mem _ (fun a x => ?_) _ _).trans ?_
    | simp only [↓Chip.put_mem, ↓Chip.mem_mk, Stores.eta, Chip.mem_parts]

theorem Chip.enterL0_mem (c : Chip) (h : Fin 24) (t : LinkTraining) (rate width flit : Nat) : (Chip.enterL0 c h t rate width flit).mem = c.mem := by
  unfold Chip.enterL0
  first
  | (simp only [↓Chip.put_mem, ↓Chip.cnt_mem, ↓Chip.mapHead_mem, ↓Chip.linkAwake_mem, ↓Chip.acquire_mem, ↓Chip.loadCoefs_mem,
      ↓Chip.setLtssm_mem, ↓Chip.freshStream_mem, ↓Chip.mem_mk, Stores.eta, Chip.mem_parts, Chip.ite_mem, ite_self]; done)
  | try dsimp only
    repeat' first
    | with_reducible rfl
    | split
    | simp only [↓Chip.put_mem, ↓Chip.cnt_mem, ↓Chip.mapHead_mem, ↓Chip.linkAwake_mem, ↓Chip.acquire_mem, ↓Chip.loadCoefs_mem,
      ↓Chip.setLtssm_mem, ↓Chip.freshStream_mem, ↓Chip.mem_mk, Stores.eta, Chip.mem_parts]

theorem Chip.trainLink_mem (c : Chip) (h : Fin 24) (t : LinkTraining) : (Chip.trainLink c h t).mem = c.mem := by
  unfold Chip.trainLink
  first
  | (simp only [↓Chip.cnt_mem, ↓Chip.mapHead_mem, ↓Chip.raise_mem, ↓Chip.cdatFollow_mem, ↓Chip.toDetect_mem, ↓Chip.trainLanes_mem,
      ↓Chip.enterL0_mem, ↓Chip.mem_mk, Stores.eta, Chip.mem_parts, Chip.ite_mem, ite_self]; done)
  | try dsimp only
    repeat' first
    | with_reducible rfl
    | split
    | simp only [↓Chip.cnt_mem, ↓Chip.mapHead_mem, ↓Chip.raise_mem, ↓Chip.cdatFollow_mem, ↓Chip.toDetect_mem, ↓Chip.trainLanes_mem,
      ↓Chip.enterL0_mem, ↓Chip.mem_mk, Stores.eta, Chip.mem_parts]

theorem Chip.enterRecovery_mem (c : Chip) (h : Fin 24) : (Chip.enterRecovery c h).mem = c.mem := by
  unfold Chip.enterRecovery
  simp only [↓Chip.cnt_mem, ↓Chip.setLtssm_mem, ↓Chip.mem_mk, Stores.eta, Chip.mem_parts]

theorem Chip.leaveL0_mem (c : Chip) (h : Fin 24) (dest ns : Nat) : (Chip.leaveL0 c h dest ns).mem = c.mem := by
  unfold Chip.leaveL0
  first
  | (simp only [↓Chip.put_mem, ↓Chip.peak_mem, ↓Chip.setLtssm_mem, ↓Chip.freeLanes_mem, ↓Chip.enterRecovery_mem, ↓Chip.mem_mk, Stores.eta,
      Chip.mem_parts, Chip.ite_mem, ite_self]; done)
  | try dsimp only
    repeat' first
    | with_reducible rfl
    | split
    | simp only [↓Chip.put_mem, ↓Chip.peak_mem, ↓Chip.setLtssm_mem, ↓Chip.freeLanes_mem, ↓Chip.enterRecovery_mem, ↓Chip.mem_mk, Stores.eta,
      Chip.mem_parts]

theorem Chip.setDecoder_mem (c : Chip) (h : Fin 24) (n : Nat) (d : Decoder) : (Chip.setDecoder c h n d).mem = c.mem := by
  unfold Chip.setDecoder
  simp only [↓Chip.mapHead_mem, ↓Chip.mem_mk, Stores.eta, Chip.mem_parts]

theorem Chip.showDecoders_mem (c : Chip) (h : Fin 24) : (Chip.showDecoders c h).mem = c.mem := by
  unfold Chip.showDecoders
  first
  | (simp only [↓Chip.put_mem, ↓Chip.mem_mk, Stores.eta, Chip.mem_parts, Chip.ite_mem, ite_self]; done)
  | try dsimp only
    repeat' first
    | with_reducible rfl
    | split
    | with_reducible refine (Chip.foldl_mem _ (fun c x => ?_) _ _).trans ?_
    | with_reducible refine (Chip.foldl_fst_mem _ (fun a x => ?_) _ _).trans ?_
    | simp only [↓Chip.put_mem, ↓Chip.mem_mk, Stores.eta, Chip.mem_parts]

theorem Chip.checkDecoder_mem (c : Chip) (h : Fin 24) (n : Nat) : (Chip.checkDecoder c h n).mem = c.mem := by
  unfold Chip.checkDecoder
  first
  | (simp only [↓Chip.put_mem, ↓Chip.raise_mem, ↓Chip.setDecoder_mem, ↓Chip.showDecoders_mem, ↓Chip.mem_mk, Stores.eta, Chip.mem_parts, Chip.ite_mem, ite_self]; done)
  | try dsimp only
    repeat' first
    | with_reducible rfl
    | split
    | simp only [↓Chip.put_mem, ↓Chip.raise_mem, ↓Chip.setDecoder_mem, ↓Chip.showDecoders_mem, ↓Chip.mem_mk, Stores.eta, Chip.mem_parts]

theorem Chip.commitDecoder_mem (c : Chip) (h : Fin 24) (n : Nat) : (Chip.commitDecoder c h n).mem = c.mem := by
  unfold Chip.commitDecoder
  first
  | (simp only [↓Chip.setDecoder_mem, ↓Chip.showDecoders_mem, ↓Chip.checkDecoder_mem, ↓Chip.mem_mk, Stores.eta, Chip.mem_parts, Chip.ite_mem, ite_self]; done)
  | try dsimp only
    repeat' first
    | with_reducible rfl
    | split
    | simp only [↓Chip.setDecoder_mem, ↓Chip.showDecoders_mem, ↓Chip.checkDecoder_mem, ↓Chip.mem_mk, Stores.eta, Chip.mem_parts]

theorem Chip.waitingCommits_mem (c : Chip) : (Chip.waitingCommits c).mem = c.mem := by
  unfold Chip.waitingCommits
  first
  | (simp only [↓Chip.checkDecoder_mem, ↓Chip.mem_mk, Stores.eta, Chip.mem_parts, Chip.ite_mem, ite_self]; done)
  | try dsimp only
    repeat' first
    | with_reducible rfl
    | split
    | with_reducible refine (Chip.foldl_mem _ (fun c x => ?_) _ _).trans ?_
    | with_reducible refine (Chip.foldl_fst_mem _ (fun a x => ?_) _ _).trans ?_
    | simp only [↓Chip.checkDecoder_mem, ↓Chip.mem_mk, Stores.eta, Chip.mem_parts]

theorem Chip.enterD0_mem (c : Chip) (h : Fin 24) : (Chip.enterD0 c h).mem = c.mem := by
  unfold Chip.enterD0
  simp only [↓Chip.put_mem, ↓Chip.mapHead_mem, ↓Chip.releaseMsix_mem, ↓Chip.mem_mk, Stores.eta, Chip.mem_parts]

theorem Chip.writeVec_mem (c : Chip) (h : Fin 24) (v : Nat) (addr : BitVec 64) (data : BitVec 32) (masked : Bool) : (Chip.writeVec c h v addr data masked).mem = c.mem := by
  unfold Chip.writeVec
  first
  | (simp only [↓Chip.mapVec_mem, ↓Chip.sendMsix_mem, ↓Chip.mem_mk, Stores.eta, Chip.mem_parts, Chip.ite_mem, ite_self]; done)
  | try dsimp only
    repeat' first
    | with_reducible rfl
    | split
    | simp only [↓Chip.mapVec_mem, ↓Chip.sendMsix_mem, ↓Chip.mem_mk, Stores.eta, Chip.mem_parts]

theorem Chip.fireModerator_mem (c : Chip) (h : Fin 24) (v : Nat) (timer : Bool) : (Chip.fireModerator c h v timer).mem = c.mem := by
  unfold Chip.fireModerator
  first
  | (simp only [↓Chip.sendMsix_mem, ↓Chip.mem_mk, Stores.eta, Chip.mem_parts, Chip.ite_mem, ite_self]; done)
  | try dsimp only
    repeat' first
    | with_reducible rfl
    | split
    | simp only [↓Chip.sendMsix_mem, ↓Chip.mem_mk, Stores.eta, Chip.mem_parts]

theorem Chip.ioWrite_mem (c : Chip) (h : Fin 24) (x : IoWrite) : (Chip.ioWrite c h x).mem = c.mem := by
  unfold Chip.ioWrite
  first
  | (simp only [↓Chip.put_mem, ↓Chip.cnt_mem, ↓Chip.mapHead_mem, ↓Chip.setDecoder_mem, ↓Chip.showDecoders_mem, ↓Chip.enterD0_mem,
      ↓Chip.writeVec_mem, ↓Chip.mem_mk, Stores.eta, Chip.mem_parts, Chip.ite_mem, ite_self]; done)
  | try dsimp only
    repeat' first
    | with_reducible rfl
    | split
    | simp only [↓Chip.put_mem, ↓Chip.cnt_mem, ↓Chip.mapHead_mem, ↓Chip.setDecoder_mem, ↓Chip.showDecoders_mem, ↓Chip.enterD0_mem,
      ↓Chip.writeVec_mem, ↓Chip.mem_mk, Stores.eta, Chip.mem_parts]

theorem Chip.setReply_mem (c : Chip) (h : Fin 24) (r : MailReply) : (Chip.setReply c h r).mem = c.mem := by
  unfold Chip.setReply
  simp only [↓Chip.mapHead_mem, ↓Chip.mem_mk, Stores.eta, Chip.mem_parts]

theorem Chip.setDoe_mem (c : Chip) (h : Fin 24) (r : MailReply) : (Chip.setDoe c h r).mem = c.mem := by
  unfold Chip.setDoe
  simp only [↓Chip.mapHead_mem, ↓Chip.mem_mk, Stores.eta, Chip.mem_parts]

theorem Chip.doeFails_mem (c : Chip) (h : Fin 24) : (Chip.doeFails c h).mem = c.mem := by
  unfold Chip.doeFails
  simp only [↓Chip.mapHead_mem, ↓Chip.mem_mk, Stores.eta, Chip.mem_parts]

theorem Chip.resetMailbox_mem (c : Chip) (h : Fin 24) : (Chip.resetMailbox c h).mem = c.mem := by
  unfold Chip.resetMailbox
  first
  | (simp only [↓Chip.cnt_mem, ↓Chip.mapHead_mem, ↓Chip.setReply_mem, ↓Chip.mem_mk, Stores.eta, Chip.mem_parts, Chip.ite_mem, ite_self]; done)
  | try dsimp only
    repeat' first
    | with_reducible rfl
    | split
    | simp only [↓Chip.cnt_mem, ↓Chip.mapHead_mem, ↓Chip.setReply_mem, ↓Chip.mem_mk, Stores.eta, Chip.mem_parts]

theorem Chip.resetHead_mem (c : Chip) (h : Fin 24) (link : Bool) : (Chip.resetHead c h link).mem = c.mem := by
  unfold Chip.resetHead
  first
  | (simp only [↓Chip.put_mem, ↓Chip.cnt_mem, ↓Chip.mapHead_mem, ↓Chip.raise_mem, ↓Chip.loseHead_mem, ↓Chip.toDetect_mem,
      ↓Chip.showDecoders_mem, ↓Chip.resetMailbox_mem, ↓Chip.mem_mk, Stores.eta, Chip.mem_parts, Chip.ite_mem, ite_self]; done)
  | try dsimp only
    repeat' first
    | with_reducible rfl
    | split
    | simp only [↓Chip.put_mem, ↓Chip.cnt_mem, ↓Chip.mapHead_mem, ↓Chip.raise_mem, ↓Chip.loseHead_mem, ↓Chip.toDetect_mem,
      ↓Chip.showDecoders_mem, ↓Chip.resetMailbox_mem, ↓Chip.mem_mk, Stores.eta, Chip.mem_parts]

theorem Chip.enterTracking_mem (c : Chip) (h : Fin 24) (ns : Nat) : (Chip.enterTracking c h ns).mem = c.mem := by
  unfold Chip.enterTracking
  first
  | (simp only [↓Chip.put_mem, ↓Chip.cnt_mem, ↓Chip.peak_mem, ↓Chip.mapHead_mem, ↓Chip.post_mem, ↓Chip.raise_mem, ↓Chip.setTrack_mem,
      ↓Chip.showFetches_mem, ↓Chip.setLocks_mem, ↓Chip.mem_mk, Stores.eta, Chip.mem_parts, Chip.ite_mem, ite_self]; done)
  | try dsimp only
    repeat' first
    | with_reducible rfl
    | split
    | simp only [↓Chip.put_mem, ↓Chip.cnt_mem, ↓Chip.peak_mem, ↓Chip.mapHead_mem, ↓Chip.post_mem, ↓Chip.raise_mem, ↓Chip.setTrack_mem,
      ↓Chip.showFetches_mem, ↓Chip.setLocks_mem, ↓Chip.mem_mk, Stores.eta, Chip.mem_parts]

theorem Chip.lockAcquiring_mem (c : Chip) : (Chip.lockAcquiring c).mem = c.mem := by
  unfold Chip.lockAcquiring
  first
  | (simp only [↓Chip.setLocks_mem, ↓Chip.mem_mk, Stores.eta, Chip.mem_parts, Chip.ite_mem, ite_self]; done)
  | try dsimp only
    repeat' first
    | with_reducible rfl
    | split
    | with_reducible refine (Chip.foldl_mem _ (fun c x => ?_) _ _).trans ?_
    | with_reducible refine (Chip.foldl_fst_mem _ (fun a x => ?_) _ _).trans ?_
    | simp only [↓Chip.setLocks_mem, ↓Chip.mem_mk, Stores.eta, Chip.mem_parts]

end Sys2Proof.Machine
end

