-- ==== Sys2Proof/Laws/MemPairs.lean ====
section
/-! SUPPORT. The operations of Machine/Pairs.lean that leave the byte stores of a chip as they are. -/
namespace Sys2Proof.Machine

set_option simprocs false

theorem Chip.setPairWord_mem (c : Chip) (page off : Nat) (v : Word) : (Chip.setPairWord c page off v).mem = c.mem := by
  unfold Chip.setPairWord
  first
  | (simp only [↓Chip.wr_mem, ↓Chip.setUsed_mem, ↓Chip.mem_mk, Stores.eta, Chip.mem_parts, Chip.ite_mem, ite_self]; done)
  | try dsimp only
    repeat' first
    | with_reducible rfl
    | split
    | simp only [↓Chip.wr_mem, ↓Chip.setUsed_mem, ↓Chip.mem_mk, Stores.eta, Chip.mem_parts]

end Sys2Proof.Machine
end

