-- ==== Sys2Proof/Laws/MemMailbox.lean ====
section
/-! SUPPORT. The operations of Machine/Mailbox.lean that leave the byte stores of a chip as they are. -/
namespace Sys2Proof.Machine

set_option simprocs false

theorem Chip.mailDone_mem (c : Chip) (h : Fin 24) (r : MailReply) : (Chip.mailDone c h r).mem = c.mem := by
  unfold Chip.mailDone
  simp only [↓Chip.cnt_mem, ↓Chip.mapHead_mem, ↓Chip.cause_mem, ↓Chip.setReply_mem, ↓Chip.mem_mk, Stores.eta, Chip.mem_parts]

theorem Chip.mailReported_mem (c : Chip) (h : Fin 24) : (Chip.mailReported c h).mem = c.mem := by
  unfold Chip.mailReported
  first
  | (simp only [↓Chip.mapHead_mem, ↓Chip.cause_mem, ↓Chip.mem_mk, Stores.eta, Chip.mem_parts, Chip.ite_mem, ite_self]; done)
  | try dsimp only
    repeat' first
    | with_reducible rfl
    | split
    | simp only [↓Chip.mapHead_mem, ↓Chip.cause_mem, ↓Chip.mem_mk, Stores.eta, Chip.mem_parts]

theorem Chip.mailFinish_mem (c : Chip) (h : Fin 24) (code : Nat) : (Chip.mailFinish c h code).mem = c.mem := by
  unfold Chip.mailFinish
  first
  | (simp only [↓Chip.mailDone_mem, ↓Chip.mem_mk, Stores.eta, Chip.mem_parts, Chip.ite_mem, ite_self]; done)
  | try dsimp only
    repeat' first
    | with_reducible rfl
    | split
    | simp only [↓Chip.mailDone_mem, ↓Chip.mem_mk, Stores.eta, Chip.mem_parts]

theorem Chip.mailRetry_mem (c : Chip) (h : Fin 24) : (Chip.mailRetry c h).mem = c.mem := by
  unfold Chip.mailRetry
  simp only [↓Chip.cnt_mem, ↓Chip.mapHead_mem, ↓Chip.setReply_mem, ↓Chip.mem_mk, Stores.eta, Chip.mem_parts]

end Sys2Proof.Machine
end

