-- ==== Sys2Proof/Laws/MemSave.lean ====
section
/-! SUPPORT. The operations of Machine/Save.lean that leave the byte stores of a chip as they are. -/
namespace Sys2Proof.Machine

set_option simprocs false

theorem Chip.showRate_mem (c : Chip) : (Chip.showRate c).mem = c.mem := by
  unfold Chip.showRate
  simp only [↓Chip.put_mem, ↓Chip.mem_mk, Stores.eta, Chip.mem_parts]

theorem Chip.setHoldup_mem (c : Chip) (lvl : Nat) : (Chip.setHoldup c lvl).mem = c.mem := by
  unfold Chip.setHoldup
  first
  | (simp only [↓Chip.put_mem, ↓Chip.cnt_mem, ↓Chip.raise_mem, ↓Chip.mem_mk, Stores.eta, Chip.mem_parts, Chip.ite_mem, ite_self]; done)
  | try dsimp only
    repeat' first
    | with_reducible rfl
    | split
    | simp only [↓Chip.put_mem, ↓Chip.cnt_mem, ↓Chip.raise_mem, ↓Chip.mem_mk, Stores.eta, Chip.mem_parts]

theorem Chip.sampleHoldup_mem (c : Chip) (lvl : Nat) : (Chip.sampleHoldup c lvl).mem = c.mem := by
  unfold Chip.sampleHoldup
  first
  | (simp only [↓Chip.put_mem, ↓Chip.mem_mk, Stores.eta, Chip.mem_parts, Chip.ite_mem, ite_self]; done)
  | try dsimp only
    repeat' first
    | with_reducible rfl
    | split
    | simp only [↓Chip.put_mem, ↓Chip.mem_mk, Stores.eta, Chip.mem_parts]

theorem Chip.setGov_mem (c : Chip) (st : Nat) : (Chip.setGov c st).mem = c.mem := by
  unfold Chip.setGov
  first
  | (simp only [↓Chip.put_mem, ↓Chip.raise_mem, ↓Chip.mem_mk, Stores.eta, Chip.mem_parts, Chip.ite_mem, ite_self]; done)
  | try dsimp only
    repeat' first
    | with_reducible rfl
    | split
    | simp only [↓Chip.put_mem, ↓Chip.raise_mem, ↓Chip.mem_mk, Stores.eta, Chip.mem_parts]

theorem Chip.computeBudget_mem (c : Chip) : (Chip.computeBudget c).mem = c.mem := by
  unfold Chip.computeBudget
  first
  | (simp only [↓Chip.put_mem, ↓Chip.peak_mem, ↓Chip.low_mem, ↓Chip.raise_mem, ↓Chip.setHoldup_mem, ↓Chip.mem_mk, Stores.eta,
      Chip.mem_parts, Chip.ite_mem, ite_self]; done)
  | try dsimp only
    repeat' first
    | with_reducible rfl
    | split
    | simp only [↓Chip.put_mem, ↓Chip.peak_mem, ↓Chip.low_mem, ↓Chip.raise_mem, ↓Chip.setHoldup_mem, ↓Chip.mem_mk, Stores.eta,
      Chip.mem_parts]

theorem Chip.showPeerHeadroom_mem (c : Chip) : (Chip.showPeerHeadroom c).mem = c.mem := by
  unfold Chip.showPeerHeadroom
  first
  | (simp only [↓Chip.put_mem, ↓Chip.mem_mk, Stores.eta, Chip.mem_parts]; done)
  | try dsimp only
    repeat' first
    | with_reducible rfl
    | split
    | simp only [↓Chip.put_mem, ↓Chip.mem_mk, Stores.eta, Chip.mem_parts]

theorem Chip.countGov_mem (c : Chip) (st : Nat) : (Chip.countGov c st).mem = c.mem := by
  unfold Chip.countGov
  first
  | (simp only [↓Chip.cnt_mem, ↓Chip.mem_mk, Stores.eta, Chip.mem_parts]; done)
  | try dsimp only
    repeat' first
    | with_reducible rfl
    | split
    | simp only [↓Chip.cnt_mem, ↓Chip.mem_mk, Stores.eta, Chip.mem_parts]

theorem Chip.governAs_mem (c : Chip) (st : Nat) (lines : Option Nat) : (Chip.governAs c st lines).mem = c.mem := by
  unfold Chip.governAs
  simp only [↓Chip.setGov_mem, ↓Chip.countGov_mem, ↓Chip.mem_mk, Stores.eta, Chip.mem_parts]

theorem Chip.governJob_mem (c : Chip) : (Chip.governJob c).mem = c.mem := by
  unfold Chip.governJob
  first
  | (simp only [↓Chip.computeBudget_mem, ↓Chip.showPeerHeadroom_mem, ↓Chip.governAs_mem, ↓Chip.mem_mk, Stores.eta, Chip.mem_parts, Chip.ite_mem, ite_self]; done)
  | try dsimp only
    repeat' first
    | with_reducible rfl
    | split
    | simp only [↓Chip.computeBudget_mem, ↓Chip.showPeerHeadroom_mem, ↓Chip.governAs_mem, ↓Chip.mem_mk, Stores.eta, Chip.mem_parts]

theorem Chip.overNow_mem (c : Chip) : (Chip.overNow c).mem = c.mem := by
  unfold Chip.overNow
  first
  | (simp only [↓Chip.peak_mem, ↓Chip.setGov_mem, ↓Chip.mem_mk, Stores.eta, Chip.mem_parts, Chip.ite_mem, ite_self]; done)
  | try dsimp only
    repeat' first
    | with_reducible rfl
    | split
    | simp only [↓Chip.peak_mem, ↓Chip.setGov_mem, ↓Chip.mem_mk, Stores.eta, Chip.mem_parts]

theorem Chip.probe_mem (c : Chip) (us : Nat) : (c.probe us).mem = c.mem := by
  unfold Chip.probe
  split
  · rfl
  · simp only []
    split
    · rfl
    · rename_i d r h
      have hd : d.mem = c.mem := by
        split at h
        · cases h
          rfl
        · simp only [Option.map_eq_some_iff, Prod.mk.injEq] at h
          obtain ⟨x, _, rfl, _⟩ := h
          exact (show _ = (c.openRow x sINSOLE).mem from rfl).trans (Chip.openRow_mem _ _ _)
      simp only [↓Chip.peak_mem, ↓Chip.cnt_mem, ↓Chip.setRow_mem, ↓Chip.mem_mk, Stores.eta, Chip.mem_parts]
      exact hd

theorem Chip.rateDelivery_mem (c : Chip) : (Chip.rateDelivery c).mem = c.mem := by
  unfold Chip.rateDelivery
  first
  | (simp only [↓Chip.raise_mem, ↓Chip.showRate_mem, ↓Chip.mem_mk, Stores.eta, Chip.mem_parts, Chip.ite_mem, ite_self]; done)
  | try dsimp only
    repeat' first
    | with_reducible rfl
    | split
    | simp only [↓Chip.raise_mem, ↓Chip.showRate_mem, ↓Chip.mem_mk, Stores.eta, Chip.mem_parts]

theorem Chip.clearRisk_mem (c : Chip) : (Chip.clearRisk c).mem = c.mem := by
  unfold Chip.clearRisk
  first
  | (simp only [↓Chip.mem_mk, Stores.eta, Chip.mem_parts, Chip.ite_mem, ite_self]; done)
  | try dsimp only
    repeat' first
    | with_reducible rfl
    | split
    | simp only [↓Chip.mem_mk, Stores.eta, Chip.mem_parts]

theorem Chip.commitSave_mem (c : Chip) : (Chip.commitSave c).mem = c.mem := by
  unfold Chip.commitSave
  simp only [↓Chip.postEffect_mem, ↓Chip.freeze_mem, ↓Chip.mem_mk, Stores.eta, Chip.mem_parts]

theorem Chip.takeInsole_mem (c : Chip) (bytes : Nat) : (Chip.takeInsole c bytes).1.mem = c.mem := by
  unfold Chip.takeInsole
  first
  | (simp only [↓Chip.setRow_mem, ↓Chip.mem_mk, Stores.eta, Chip.mem_parts, Chip.ite_mem, ite_self]; done)
  | try dsimp only
    repeat' first
    | with_reducible rfl
    | split
    | with_reducible refine (Chip.foldl_mem _ (fun c x => ?_) _ _).trans ?_
    | with_reducible refine (Chip.foldl_fst_mem _ (fun a x => ?_) _ _).trans ?_
    | simp only [↓Chip.setRow_mem, ↓Chip.mem_mk, Stores.eta, Chip.mem_parts]

theorem Chip.holdPorts_mem (c : Chip) : (Chip.holdPorts c).mem = c.mem := by
  unfold Chip.holdPorts
  first
  | (simp only [↓Chip.put_mem, ↓Chip.post_mem, ↓Chip.stopLink_mem, ↓Chip.respondCmp_mem, ↓Chip.leaveL0_mem, ↓Chip.mem_mk, Stores.eta,
      Chip.mem_parts, Chip.ite_mem, ite_self]; done)
  | try dsimp only
    repeat' first
    | with_reducible rfl
    | split
    | with_reducible refine (Chip.foldl_mem _ (fun c x => ?_) _ _).trans ?_
    | with_reducible refine (Chip.foldl_fst_mem _ (fun a x => ?_) _ _).trans ?_
    | simp only [↓Chip.put_mem, ↓Chip.post_mem, ↓Chip.stopLink_mem, ↓Chip.respondCmp_mem, ↓Chip.leaveL0_mem, ↓Chip.mem_mk, Stores.eta,
      Chip.mem_parts]

theorem Chip.showLastSave_mem (c : Chip) : (Chip.showLastSave c).mem = c.mem := by
  unfold Chip.showLastSave
  simp only [↓Chip.put_mem, ↓Chip.mem_mk, Stores.eta, Chip.mem_parts]

theorem Chip.saveReads_mem (c : Chip) (bytes : Nat) : (Chip.saveReads c bytes).mem = c.mem := by
  unfold Chip.saveReads
  first
  | (simp only [↓Chip.oweBlock_mem, ↓Chip.settleClient_mem, ↓Chip.mem_mk, Stores.eta, Chip.mem_parts]; done)
  | try dsimp only
    repeat' first
    | with_reducible rfl
    | split
    | with_reducible refine (Chip.foldl_mem _ (fun c x => ?_) _ _).trans ?_
    | with_reducible refine (Chip.foldl_fst_mem _ (fun a x => ?_) _ _).trans ?_
    | simp only [↓Chip.oweBlock_mem, ↓Chip.settleClient_mem, ↓Chip.mem_mk, Stores.eta, Chip.mem_parts]

theorem Chip.resetAfterSave_mem (c : Chip) : (Chip.resetAfterSave c).mem = c.mem := by
  unfold Chip.resetAfterSave
  simp only [↓Chip.mem_mk, Stores.eta, Chip.mem_parts]

theorem Chip.sendSummary_mem (c : Chip) : (Chip.sendSummary c).mem = c.mem := by
  unfold Chip.sendSummary
  first
  | (simp only [↓Chip.postEffect_mem, ↓Chip.mem_mk, Stores.eta, Chip.mem_parts, Chip.ite_mem, ite_self]; done)
  | try dsimp only
    repeat' first
    | with_reducible rfl
    | split
    | simp only [↓Chip.postEffect_mem, ↓Chip.mem_mk, Stores.eta, Chip.mem_parts]

theorem Chip.setSource_mem (c : Chip) (n : Nat) : (Chip.setSource c n).mem = c.mem := by
  unfold Chip.setSource
  simp only [↓Chip.put_mem, ↓Chip.mem_mk, Stores.eta, Chip.mem_parts]

theorem Chip.formPair_mem (c : Chip) (serial : Nat) (key : Option (BitVec 512)) : (Chip.formPair c serial key).mem = c.mem := by
  unfold Chip.formPair
  first
  | (simp only [↓Chip.put_mem, ↓Chip.postEffect_mem, ↓Chip.setEpoch_mem, ↓Chip.setSource_mem, ↓Chip.mem_mk, Stores.eta, Chip.mem_parts]; done)
  | try dsimp only
    repeat' first
    | with_reducible rfl
    | split
    | simp only [↓Chip.put_mem, ↓Chip.postEffect_mem, ↓Chip.setEpoch_mem, ↓Chip.setSource_mem, ↓Chip.mem_mk, Stores.eta, Chip.mem_parts]

theorem Chip.startAlone_mem (c : Chip) : (Chip.startAlone c).mem = c.mem := by
  unfold Chip.startAlone
  simp only [↓Chip.setMode_mem, ↓Chip.openChangeMap_mem, ↓Chip.takeRoles_mem, ↓Chip.mem_mk, Stores.eta, Chip.mem_parts]

theorem Chip.startSolo_mem (c : Chip) : (Chip.startSolo c).mem = c.mem := by
  unfold Chip.startSolo
  simp only [↓Chip.setMode_mem, ↓Chip.openChangeMap_mem, ↓Chip.takeRoles_mem, ↓Chip.mem_mk, Stores.eta, Chip.mem_parts]

theorem Chip.startJoin_mem (c : Chip) : (Chip.startJoin c).mem = c.mem := by
  unfold Chip.startJoin
  first
  | (simp only [↓Chip.setMode_mem, ↓Chip.takeRoles_mem, ↓Chip.mem_mk, Stores.eta, Chip.mem_parts, Chip.ite_mem, ite_self]; done)
  | try dsimp only
    repeat' first
    | with_reducible rfl
    | split
    | simp only [↓Chip.setMode_mem, ↓Chip.takeRoles_mem, ↓Chip.mem_mk, Stores.eta, Chip.mem_parts]

theorem Chip.loadPairFields_mem (c : Chip) (t : Table Word) : (Chip.loadPairFields c t).mem = c.mem := by
  unfold Chip.loadPairFields
  first
  | (simp only [↓Chip.setPairWord_mem, ↓Chip.mem_mk, Stores.eta, Chip.mem_parts]; done)
  | try dsimp only
    repeat' first
    | with_reducible rfl
    | split
    | with_reducible refine (Chip.foldl_mem _ (fun c x => ?_) _ _).trans ?_
    | with_reducible refine (Chip.foldl_fst_mem _ (fun a x => ?_) _ _).trans ?_
    | simp only [↓Chip.setPairWord_mem, ↓Chip.mem_mk, Stores.eta, Chip.mem_parts]

theorem Chip.showChangeMap_mem (c : Chip) (i : Image) : (Chip.showChangeMap c i).mem = c.mem := by
  unfold Chip.showChangeMap
  first
  | (simp only [↓Chip.put_mem, ↓Chip.mem_mk, Stores.eta, Chip.mem_parts]; done)
  | try dsimp only
    repeat' first
    | with_reducible rfl
    | split
    | simp only [↓Chip.put_mem, ↓Chip.mem_mk, Stores.eta, Chip.mem_parts]

theorem Chip.loseRecords_mem (c : Chip) (ps : List Nat) : (Chip.loseRecords c ps).mem = c.mem := by
  unfold Chip.loseRecords
  first
  | (simp only [↓Chip.mem_mk, Stores.eta, Chip.mem_parts, Chip.ite_mem, ite_self]; done)
  | try dsimp only
    repeat' first
    | with_reducible rfl
    | split
    | with_reducible refine (Chip.foldl_mem _ (fun c x => ?_) _ _).trans ?_
    | with_reducible refine (Chip.foldl_fst_mem _ (fun a x => ?_) _ _).trans ?_
    | simp only [↓Chip.mem_mk, Stores.eta, Chip.mem_parts]

theorem Chip.calibrationWrites_mem (c : Chip) : (Chip.calibrationWrites c).mem = c.mem := by
  unfold Chip.calibrationWrites
  first
  | (simp only [↓Chip.cnt_mem, ↓Chip.mem_mk, Stores.eta, Chip.mem_parts, Chip.ite_mem, ite_self]; done)
  | try dsimp only
    repeat' first
    | with_reducible rfl
    | split
    | with_reducible refine (Chip.foldl_mem _ (fun c x => ?_) _ _).trans ?_
    | with_reducible refine (Chip.foldl_fst_mem _ (fun a x => ?_) _ _).trans ?_
    | simp only [↓Chip.cnt_mem, ↓Chip.mem_mk, Stores.eta, Chip.mem_parts]

theorem Chip.sendRestoreDone_mem (c : Chip) : (Chip.sendRestoreDone c).mem = c.mem := by
  unfold Chip.sendRestoreDone
  first
  | (simp only [↓Chip.postEffect_mem, ↓Chip.mem_mk, Stores.eta, Chip.mem_parts, Chip.ite_mem, ite_self]; done)
  | try dsimp only
    repeat' first
    | with_reducible rfl
    | split
    | simp only [↓Chip.postEffect_mem, ↓Chip.mem_mk, Stores.eta, Chip.mem_parts]

theorem Chip.activate_mem (c : Chip) : (Chip.activate c).mem = c.mem := by
  unfold Chip.activate
  first
  | (simp only [↓Chip.put_mem, ↓Chip.raise_mem, ↓Chip.queueMig_mem, ↓Chip.waitingCommits_mem, ↓Chip.mem_mk, Stores.eta, Chip.mem_parts, Chip.ite_mem, ite_self]; done)
  | try dsimp only
    repeat' first
    | with_reducible rfl
    | split
    | with_reducible refine (Chip.foldl_mem _ (fun c x => ?_) _ _).trans ?_
    | with_reducible refine (Chip.foldl_fst_mem _ (fun a x => ?_) _ _).trans ?_
    | simp only [↓Chip.put_mem, ↓Chip.raise_mem, ↓Chip.queueMig_mem, ↓Chip.waitingCommits_mem, ↓Chip.mem_mk, Stores.eta, Chip.mem_parts]

theorem Chip.sealRead_mem (c : Chip) (copies : Nat) (dir : Bool) (bad : List Nat) : (Chip.sealRead c copies dir bad).mem = c.mem := by
  unfold Chip.sealRead
  first
  | (simp only [↓Chip.put_mem, ↓Chip.showLastSave_mem, ↓Chip.sendSummary_mem, ↓Chip.mem_mk, Stores.eta, Chip.mem_parts, Chip.ite_mem, ite_self]; done)
  | try dsimp only
    repeat' first
    | with_reducible rfl
    | split
    | simp only [↓Chip.put_mem, ↓Chip.showLastSave_mem, ↓Chip.sendSummary_mem, ↓Chip.mem_mk, Stores.eta, Chip.mem_parts]

theorem Chip.chooseSource_mem (c : Chip) (own peer : Summary) (key : Option (BitVec 512)) : (Chip.chooseSource c own peer key).mem = c.mem := by
  unfold Chip.chooseSource
  first
  | (simp only [↓Chip.raise_mem, ↓Chip.setMode_mem, ↓Chip.takeRoles_mem, ↓Chip.setSource_mem, ↓Chip.formPair_mem, ↓Chip.startAlone_mem,
      ↓Chip.mem_mk, Stores.eta, Chip.mem_parts, Chip.ite_mem, ite_self]; done)
  | try dsimp only
    repeat' first
    | with_reducible rfl
    | split
    | simp only [↓Chip.raise_mem, ↓Chip.setMode_mem, ↓Chip.takeRoles_mem, ↓Chip.setSource_mem, ↓Chip.formPair_mem, ↓Chip.startAlone_mem,
      ↓Chip.mem_mk, Stores.eta, Chip.mem_parts]

theorem Chip.joinServing_mem (c : Chip) : (Chip.joinServing c).mem = c.mem := by
  unfold Chip.joinServing
  simp only [↓Chip.setSource_mem, ↓Chip.startJoin_mem, ↓Chip.mem_mk, Stores.eta, Chip.mem_parts]

theorem Chip.chooseFor_mem (own peer : Summary) (forms : Bool) (serial : Nat) (key : BitVec 512) (c : Chip) : (Chip.chooseFor own peer forms serial key c).mem = c.mem := by
  unfold Chip.chooseFor
  first
  | (simp only [↓Chip.chooseSource_mem, ↓Chip.mem_mk, Stores.eta, Chip.mem_parts, Chip.ite_mem, ite_self]; done)
  | try dsimp only
    repeat' first
    | with_reducible rfl
    | split
    | simp only [↓Chip.chooseSource_mem, ↓Chip.mem_mk, Stores.eta, Chip.mem_parts]

end Sys2Proof.Machine
end

