-- ==== Sys2Proof/Laws/MemCoreMem.lean ====
section
/-! SUPPORT. The operations of Machine/CoreMem.lean that leave the byte stores of a chip as they are. -/
namespace Sys2Proof.Machine

set_option simprocs false

theorem Chip.setCoreReg_mem (c : Chip) (n r : Nat) (v : BitVec 64) : (Chip.setCoreReg c n r v).mem = c.mem := by
  unfold Chip.setCoreReg
  first
  | (simp only [↓Chip.mapCore_mem, ↓Chip.mem_mk, Stores.eta, Chip.mem_parts, Chip.ite_mem, ite_self]; done)
  | try dsimp only
    repeat' first
    | with_reducible rfl
    | split
    | simp only [↓Chip.mapCore_mem, ↓Chip.mem_mk, Stores.eta, Chip.mem_parts]

theorem Chip.coreTrap_mem (c : Chip) (n cause : Nat) : (Chip.coreTrap c n cause).mem = c.mem := by
  unfold Chip.coreTrap
  first
  | (simp only [↓Chip.mapCore_mem, ↓Chip.coreExpiry_mem, ↓Chip.mem_mk, Stores.eta, Chip.mem_parts, Chip.ite_mem, ite_self]; done)
  | try dsimp only
    repeat' first
    | with_reducible rfl
    | split
    | simp only [↓Chip.mapCore_mem, ↓Chip.coreExpiry_mem, ↓Chip.mem_mk, Stores.eta, Chip.mem_parts]

theorem Chip.coreOwes_mem (c : Chip) (p : CorePlace) (lines : Nat) : (Chip.coreOwes c p lines).mem = c.mem := by
  unfold Chip.coreOwes
  first
  | (simp only [↓Chip.oweLines_mem, ↓Chip.mem_mk, Stores.eta, Chip.mem_parts]; done)
  | try dsimp only
    repeat' first
    | with_reducible rfl
    | split
    | simp only [↓Chip.oweLines_mem, ↓Chip.mem_mk, Stores.eta, Chip.mem_parts]

end Sys2Proof.Machine
end

