-- ==== Sys2Proof/Laws/MemSecurity.lean ====
section
/-! SUPPORT. The operations of Machine/Security.lean that leave the byte stores of a chip as they are. -/
namespace Sys2Proof.Machine

set_option simprocs false

theorem Chip.showFuses_mem (c : Chip) : (Chip.showFuses c).mem = c.mem := by
  unfold Chip.showFuses
  first
  | (simp only [↓Chip.put_mem, ↓Chip.mem_mk, Stores.eta, Chip.mem_parts]; done)
  | try dsimp only
    repeat' first
    | with_reducible rfl
    | split
    | with_reducible refine (Chip.foldl_mem _ (fun c x => ?_) _ _).trans ?_
    | with_reducible refine (Chip.foldl_fst_mem _ (fun a x => ?_) _ _).trans ?_
    | simp only [↓Chip.put_mem, ↓Chip.mem_mk, Stores.eta, Chip.mem_parts]

theorem Chip.showSpares_mem (c : Chip) : (Chip.showSpares c).mem = c.mem := by
  unfold Chip.showSpares
  first
  | (simp only [↓Chip.put_mem, ↓Chip.mem_mk, Stores.eta, Chip.mem_parts, Chip.ite_mem, ite_self]; done)
  | try dsimp only
    repeat' first
    | with_reducible rfl
    | split
    | with_reducible refine (Chip.foldl_mem _ (fun c x => ?_) _ _).trans ?_
    | with_reducible refine (Chip.foldl_fst_mem _ (fun a x => ?_) _ _).trans ?_
    | simp only [↓Chip.put_mem, ↓Chip.mem_mk, Stores.eta, Chip.mem_parts]

theorem Chip.failSpare_mem (c : Chip) (n : Nat) : (Chip.failSpare c n).mem = c.mem := by
  unfold Chip.failSpare
  simp only [↓Chip.mem_mk, Stores.eta, Chip.mem_parts]

theorem Chip.drawUnit_mem (c : Chip) (u : SpareUnit) : (Chip.drawUnit c u).mem = c.mem := by
  unfold Chip.drawUnit
  first
  | (simp only [↓Chip.failStop_mem, ↓Chip.drew_mem, ↓Chip.showSpares_mem, ↓Chip.failSpare_mem, ↓Chip.mem_mk, Stores.eta, Chip.mem_parts, Chip.ite_mem, ite_self]; done)
  | try dsimp only
    repeat' first
    | with_reducible rfl
    | split
    | simp only [↓Chip.failStop_mem, ↓Chip.drew_mem, ↓Chip.showSpares_mem, ↓Chip.failSpare_mem, ↓Chip.mem_mk, Stores.eta, Chip.mem_parts]

theorem Chip.selfTest_mem (c : Chip) (x : BootReport) : (Chip.selfTest c x).mem = c.mem := by
  unfold Chip.selfTest
  first
  | (simp only [↓Chip.put_mem, ↓Chip.raise_mem, ↓Chip.dlo_mem, ↓Chip.failStop_mem, ↓Chip.drawUnit_mem, ↓Chip.mem_mk, Stores.eta,
      Chip.mem_parts, Chip.ite_mem, ite_self]; done)
  | try dsimp only
    repeat' first
    | with_reducible rfl
    | split
    | simp only [↓Chip.put_mem, ↓Chip.raise_mem, ↓Chip.dlo_mem, ↓Chip.failStop_mem, ↓Chip.drawUnit_mem, ↓Chip.mem_mk, Stores.eta,
      Chip.mem_parts]

theorem Chip.redoErases_mem (c : Chip) : (Chip.redoErases c).mem = c.mem := by
  unfold Chip.redoErases
  first
  | (simp only [↓Chip.put_mem, ↓Chip.raise_mem, ↓Chip.blankSector_mem, ↓Chip.clearFlag_mem, ↓Chip.mem_mk, Stores.eta, Chip.mem_parts, Chip.ite_mem, ite_self]; done)
  | try dsimp only
    repeat' first
    | with_reducible rfl
    | split
    | with_reducible refine (Chip.foldl_mem _ (fun c x => ?_) _ _).trans ?_
    | with_reducible refine (Chip.foldl_fst_mem _ (fun a x => ?_) _ _).trans ?_
    | simp only [↓Chip.put_mem, ↓Chip.raise_mem, ↓Chip.blankSector_mem, ↓Chip.clearFlag_mem, ↓Chip.mem_mk, Stores.eta, Chip.mem_parts]

theorem Chip.chooseSlot_mem (c : Chip) (cold : Bool) : (Chip.chooseSlot c cold).1.mem = c.mem := by
  unfold Chip.chooseSlot
  first
  | (simp only [↓Chip.put_mem, ↓Chip.raise_mem, ↓Chip.failStop_mem, ↓Chip.showPointer_mem, ↓Chip.mem_mk, Stores.eta, Chip.mem_parts, Chip.ite_mem, ite_self]; done)
  | try dsimp only
    repeat' first
    | with_reducible rfl
    | split
    | simp only [↓Chip.put_mem, ↓Chip.raise_mem, ↓Chip.failStop_mem, ↓Chip.showPointer_mem, ↓Chip.mem_mk, Stores.eta, Chip.mem_parts]

theorem Chip.startCores_mem (c : Chip) : (Chip.startCores c).mem = c.mem := by
  unfold Chip.startCores
  first
  | (simp only [↓Chip.mapCore_mem, ↓Chip.mem_mk, Stores.eta, Chip.mem_parts, Chip.ite_mem, ite_self]; done)
  | try dsimp only
    repeat' first
    | with_reducible rfl
    | split
    | with_reducible refine (Chip.foldl_mem _ (fun c x => ?_) _ _).trans ?_
    | with_reducible refine (Chip.foldl_fst_mem _ (fun a x => ?_) _ _).trans ?_
    | simp only [↓Chip.mapCore_mem, ↓Chip.mem_mk, Stores.eta, Chip.mem_parts]

theorem Chip.boot_mem (c : Chip) (cause : Nat) (x : BootReport) : (Chip.boot c cause x).mem = c.mem := by
  unfold Chip.boot
  first
  | (simp only [↓Chip.put_mem, ↓Chip.setMode_mem, ↓Chip.showMount_mem, ↓Chip.showFuses_mem, ↓Chip.showSpares_mem, ↓Chip.selfTest_mem,
      ↓Chip.redoErases_mem, ↓Chip.chooseSlot_mem, ↓Chip.startCores_mem, ↓Chip.mem_mk, Stores.eta, Chip.mem_parts, Chip.ite_mem, ite_self]; done)
  | try dsimp only
    repeat' first
    | with_reducible rfl
    | split
    | simp only [↓Chip.put_mem, ↓Chip.setMode_mem, ↓Chip.showMount_mem, ↓Chip.showFuses_mem, ↓Chip.showSpares_mem, ↓Chip.selfTest_mem,
      ↓Chip.redoErases_mem, ↓Chip.chooseSlot_mem, ↓Chip.startCores_mem, ↓Chip.mem_mk, Stores.eta, Chip.mem_parts]

theorem Chip.spdm_mem (c : Chip) (h : Fin 24) (needs : Nat) (f : Chip → Chip) (hf : ∀ c : Chip, (f c).mem = c.mem) :
    (c.spdm h needs f).mem = c.mem := by
  unfold Chip.spdm
  dsimp only
  split
  · rw [Chip.setDoe_mem, Chip.cnt_mem]
  · rw [hf, Chip.cnt_mem]

theorem Chip.spdmEffect_mem (c : Chip) (h : Fin 24) (e : Effect) : (Chip.spdmEffect c h e).mem = c.mem := by
  unfold Chip.spdmEffect
  simp only [↓Chip.mapHead_mem, ↓Chip.postEffect_mem, ↓Chip.mem_mk, Stores.eta, Chip.mem_parts]

theorem Chip.inSession_mem (c : Chip) (h : Fin 24) (id : Nat) (f : Chip → Chip) (hf : ∀ c : Chip, (f c).mem = c.mem) :
    (c.inSession h id f).mem = c.mem := by
  unfold Chip.inSession
  split
  · exact hf c
  · exact Chip.setDoe_mem c h _

theorem Chip.svnAdvance_mem (c : Chip) : (Chip.svnAdvance c).mem = c.mem := by
  unfold Chip.svnAdvance
  first
  | (simp only [↓Chip.put_mem, ↓Chip.reject_mem, ↓Chip.mem_mk, Stores.eta, Chip.mem_parts, Chip.ite_mem, ite_self]; done)
  | try dsimp only
    repeat' first
    | with_reducible rfl
    | split
    | simp only [↓Chip.put_mem, ↓Chip.reject_mem, ↓Chip.mem_mk, Stores.eta, Chip.mem_parts]

theorem Chip.ownerProg_mem (c : Chip) : (Chip.ownerProg c).mem = c.mem := by
  unfold Chip.ownerProg
  first
  | (simp only [↓Chip.reject_mem, ↓Chip.showFuses_mem, ↓Chip.mem_mk, Stores.eta, Chip.mem_parts, Chip.ite_mem, ite_self]; done)
  | try dsimp only
    repeat' first
    | with_reducible rfl
    | split
    | with_reducible refine (Chip.foldl_mem _ (fun c x => ?_) _ _).trans ?_
    | with_reducible refine (Chip.foldl_fst_mem _ (fun a x => ?_) _ _).trans ?_
    | simp only [↓Chip.reject_mem, ↓Chip.showFuses_mem, ↓Chip.mem_mk, Stores.eta, Chip.mem_parts]

theorem Chip.reportErase_mem (c : Chip) : (Chip.reportErase c).mem = c.mem := by
  unfold Chip.reportErase
  first
  | (simp only [↓Chip.cnt_mem, ↓Chip.raise_mem, ↓Chip.mem_mk, Stores.eta, Chip.mem_parts, Chip.ite_mem, ite_self]; done)
  | try dsimp only
    repeat' first
    | with_reducible rfl
    | split
    | simp only [↓Chip.cnt_mem, ↓Chip.raise_mem, ↓Chip.mem_mk, Stores.eta, Chip.mem_parts]

theorem Chip.endSecureErase_mem (h : Fin 24) (c : Chip) : (Chip.endSecureErase h c).mem = c.mem := by
  unfold Chip.endSecureErase
  first
  | (simp only [↓Chip.postEffect_mem, ↓Chip.mem_mk, Stores.eta, Chip.mem_parts, Chip.ite_mem, ite_self]; done)
  | try dsimp only
    repeat' first
    | with_reducible rfl
    | split
    | simp only [↓Chip.postEffect_mem, ↓Chip.mem_mk, Stores.eta, Chip.mem_parts]

theorem Chip.closeGo_mem (c : Chip) : (Chip.closeGo c).mem = c.mem := by
  unfold Chip.closeGo
  first
  | (simp only [↓Chip.put_mem, ↓Chip.reject_mem, ↓Chip.mem_mk, Stores.eta, Chip.mem_parts, Chip.ite_mem, ite_self]; done)
  | try dsimp only
    repeat' first
    | with_reducible rfl
    | split
    | simp only [↓Chip.put_mem, ↓Chip.reject_mem, ↓Chip.mem_mk, Stores.eta, Chip.mem_parts]

end Sys2Proof.Machine
end

