-- ==== Sys2Proof/Laws/MemEffects.lean ====
section
/-! SUPPORT. The operations of Machine/Effects.lean that leave the byte stores of a chip as they are. -/
namespace Sys2Proof.Machine

set_option simprocs false

theorem Chip.clearLog_mem (c : Chip) (h : Fin 24) (l : Nat) (all : Bool) (handles : List Nat) : (Chip.clearLog c h l all handles).mem = c.mem := by
  unfold Chip.clearLog
  first
  | (simp only [↓Chip.setLog_mem, ↓Chip.mem_mk, Stores.eta, Chip.mem_parts, Chip.ite_mem, ite_self]; done)
  | try dsimp only
    repeat' first
    | with_reducible rfl
    | split
    | simp only [↓Chip.setLog_mem, ↓Chip.mem_mk, Stores.eta, Chip.mem_parts]

theorem Chip.applyPoison_mem (c : Chip) (dpa : Nat) (set : Bool) (data : Line) : (Chip.applyPoison c dpa set data).mem = c.mem := by
  unfold Chip.applyPoison
  first
  | (simp only [↓Chip.wmbMerge_mem, ↓Chip.mem_mk, Stores.eta, Chip.mem_parts, Chip.ite_mem, ite_self]; done)
  | try dsimp only
    repeat' first
    | with_reducible rfl
    | split
    | simp only [↓Chip.wmbMerge_mem, ↓Chip.mem_mk, Stores.eta, Chip.mem_parts]

theorem Chip.endBackground_mem (c : Chip) (found : List Nat) : (Chip.endBackground c found).mem = c.mem := by
  unfold Chip.endBackground
  first
  | (simp only [↓Chip.cause_mem, ↓Chip.mem_mk, Stores.eta, Chip.mem_parts, Chip.ite_mem, ite_self]; done)
  | try dsimp only
    repeat' first
    | with_reducible rfl
    | split
    | simp only [↓Chip.cause_mem, ↓Chip.mem_mk, Stores.eta, Chip.mem_parts]

theorem Chip.setObject_mem (c : Chip) (n : Nat) (o : Option Obj) (first count : Nat) : (Chip.setObject c n o first count).mem = c.mem := by
  unfold Chip.setObject
  first
  | (simp only [↓Chip.mdcTouch_mem, ↓Chip.judgePolicy_mem, ↓Chip.mem_mk, Stores.eta, Chip.mem_parts]; done)
  | try dsimp only
    repeat' first
    | with_reducible rfl
    | split
    | with_reducible refine (Chip.foldl_mem _ (fun c x => ?_) _ _).trans ?_
    | with_reducible refine (Chip.foldl_fst_mem _ (fun a x => ?_) _ _).trans ?_
    | simp only [↓Chip.mdcTouch_mem, ↓Chip.judgePolicy_mem, ↓Chip.mem_mk, Stores.eta, Chip.mem_parts]

theorem Chip.applyObject_mem (c : Chip) (n first count policy : Nat) : (Chip.applyObject c n first count policy).mem = c.mem := by
  unfold Chip.applyObject
  first
  | (simp only [↓Chip.setObject_mem, ↓Chip.mem_mk, Stores.eta, Chip.mem_parts, Chip.ite_mem, ite_self]; done)
  | try dsimp only
    repeat' first
    | with_reducible rfl
    | split
    | simp only [↓Chip.setObject_mem, ↓Chip.mem_mk, Stores.eta, Chip.mem_parts]

theorem Chip.replyHome_mem (c : Chip) (h : Fin 24) : (Chip.replyHome c h).mem = c.mem := by
  unfold Chip.replyHome
  first
  | (simp only [↓Chip.setDoe_mem, ↓Chip.mem_mk, Stores.eta, Chip.mem_parts, Chip.ite_mem, ite_self]; done)
  | try dsimp only
    repeat' first
    | with_reducible rfl
    | split
    | simp only [↓Chip.setDoe_mem, ↓Chip.mem_mk, Stores.eta, Chip.mem_parts]

theorem Chip.setSession_mem (c : Chip) (h : Fin 24) (id : Nat) (on : Bool) : (Chip.setSession c h id on).mem = c.mem := by
  unfold Chip.setSession
  first
  | (simp only [↓Chip.put_mem, ↓Chip.mapHead_mem, ↓Chip.replyHome_mem, ↓Chip.mem_mk, Stores.eta, Chip.mem_parts, Chip.ite_mem, ite_self]; done)
  | try dsimp only
    repeat' first
    | with_reducible rfl
    | split
    | simp only [↓Chip.put_mem, ↓Chip.mapHead_mem, ↓Chip.replyHome_mem, ↓Chip.mem_mk, Stores.eta, Chip.mem_parts]

theorem Chip.setIde_mem (c : Chip) (h : Fin 24) (set : Nat) : (Chip.setIde c h set).mem = c.mem := by
  unfold Chip.setIde
  simp only [↓Chip.put_mem, ↓Chip.cnt_mem, ↓Chip.raise_mem, ↓Chip.replyHome_mem, ↓Chip.mem_mk, Stores.eta, Chip.mem_parts]

theorem Chip.peerMoved_mem (c : Chip) (e : Nat) : (Chip.peerMoved c e).mem = c.mem := by
  unfold Chip.peerMoved
  first
  | (simp only [↓Chip.mem_mk, Stores.eta, Chip.mem_parts, Chip.ite_mem, ite_self]; done)
  | try dsimp only
    repeat' first
    | with_reducible rfl
    | split
    | simp only [↓Chip.mem_mk, Stores.eta, Chip.mem_parts]

theorem Chip.applyHeads_mem (c : Chip) (e : Effect) : (c.applyHeads e).mem = c.mem := by
  unfold Chip.applyHeads
  repeat' first
    | with_reducible rfl
    | split
    | simp only [↓Chip.clearLog_mem, ↓Chip.mapHead_mem, ↓Chip.applyPoison_mem, ↓Chip.endBackground_mem, ↓Chip.setSession_mem,
        ↓Chip.setIde_mem, ↓Chip.replyHome_mem, ↓Chip.mem_mk, Stores.eta, Chip.mem_parts]

theorem Chip.applyEnds_mem (c : Chip) (ends : Option Ends) (recSeq : Option Nat) : (Chip.applyEnds c ends recSeq).mem = c.mem := by
  unfold Chip.applyEnds
  first
  | (simp only [↓Chip.ringFinish_mem, ↓Chip.mailFinish_mem, ↓Chip.mem_mk, Stores.eta, Chip.mem_parts]; done)
  | try dsimp only
    repeat' first
    | with_reducible rfl
    | split
    | simp only [↓Chip.ringFinish_mem, ↓Chip.mailFinish_mem, ↓Chip.mem_mk, Stores.eta, Chip.mem_parts]

theorem Chip.coverGated_mem (c : Chip) (w : Twin) (gate round : Nat) : (Chip.coverGated c w gate round).mem = c.mem := by
  unfold Chip.coverGated
  first
  | (simp only [↓Chip.mem_mk, Stores.eta, Chip.mem_parts, Chip.ite_mem, ite_self]; done)
  | try dsimp only
    repeat' first
    | with_reducible rfl
    | split
    | simp only [↓Chip.mem_mk, Stores.eta, Chip.mem_parts]

theorem Chip.discardGated_mem (c : Chip) (own : Bool) : (Chip.discardGated c own).mem = c.mem := by
  unfold Chip.discardGated
  first
  | (simp only [↓Chip.cnt_mem, ↓Chip.raise_mem, ↓Chip.mem_mk, Stores.eta, Chip.mem_parts, Chip.ite_mem, ite_self]; done)
  | try dsimp only
    repeat' first
    | with_reducible rfl
    | split
    | simp only [↓Chip.cnt_mem, ↓Chip.raise_mem, ↓Chip.mem_mk, Stores.eta, Chip.mem_parts]

theorem Chip.takeRec_mem (c : Chip) : (Chip.takeRec c).mem = c.mem := by
  unfold Chip.takeRec
  first
  | (simp only [↓Chip.put_mem, ↓Chip.cnt_mem, ↓Chip.mem_mk, Stores.eta, Chip.mem_parts]; done)
  | try dsimp only
    repeat' first
    | with_reducible rfl
    | split
    | simp only [↓Chip.put_mem, ↓Chip.cnt_mem, ↓Chip.mem_mk, Stores.eta, Chip.mem_parts]

theorem Chip.sendApplied_mem (c : Chip) : (Chip.sendApplied c).mem = c.mem := by
  unfold Chip.sendApplied
  simp only [↓Chip.post_mem, ↓Chip.mem_mk, Stores.eta, Chip.mem_parts]

theorem Chip.peerHasApplied_mem (c : Chip) (n : Nat) : (Chip.peerHasApplied c n).mem = c.mem := by
  unfold Chip.peerHasApplied
  first
  | (simp only [↓Chip.put_mem, ↓Chip.settle_mem, ↓Chip.afterOrder_mem, ↓Chip.runCommons_mem, ↓Chip.mem_mk, Stores.eta, Chip.mem_parts, Chip.ite_mem, ite_self]; done)
  | try dsimp only
    repeat' first
    | with_reducible rfl
    | split
    | with_reducible refine (Chip.continueTags_mem _ _ _ (fun c t => ?_)).trans ?_
    | simp only [↓Chip.put_mem, ↓Chip.settle_mem, ↓Chip.afterOrder_mem, ↓Chip.runCommons_mem, ↓Chip.mem_mk, Stores.eta, Chip.mem_parts]

end Sys2Proof.Machine
end

