-- ==== Sys2Proof/Laws/MemRepair.lean ====
section
/-! SUPPORT. The operations of Machine/Repair.lean that leave the byte stores of a chip as they are. -/
namespace Sys2Proof.Machine

set_option simprocs false

theorem Chip.showRepairs_mem (c : Chip) : (Chip.showRepairs c).mem = c.mem := by
  unfold Chip.showRepairs
  simp only [↓Chip.put_mem, ↓Chip.mem_mk, Stores.eta, Chip.mem_parts]

theorem Chip.setHold_mem (c : Chip) (line : Nat) (on : Bool) : (Chip.setHold c line on).mem = c.mem := by
  unfold Chip.setHold
  first
  | (simp only [↓Chip.mem_mk, Stores.eta, Chip.mem_parts, Chip.ite_mem, ite_self]; done)
  | try dsimp only
    repeat' first
    | with_reducible rfl
    | split
    | simp only [↓Chip.mem_mk, Stores.eta, Chip.mem_parts]

theorem Chip.afterHold_mem (c : Chip) : (Chip.afterHold c).mem = c.mem := by
  unfold Chip.afterHold
  first
  | (simp only [↓Chip.carbonPump_mem, ↓Chip.mem_mk, Stores.eta, Chip.mem_parts, Chip.ite_mem, ite_self]; done)
  | try dsimp only
    repeat' first
    | with_reducible rfl
    | split
    | with_reducible refine (Chip.foldl_mem _ (fun c x => ?_) _ _).trans ?_
    | with_reducible refine (Chip.foldl_fst_mem _ (fun a x => ?_) _ _).trans ?_
    | simp only [↓Chip.carbonPump_mem, ↓Chip.mem_mk, Stores.eta, Chip.mem_parts]

theorem Chip.releaseHold_mem (c : Chip) (line : Nat) : (Chip.releaseHold c line).mem = c.mem := by
  unfold Chip.releaseHold
  first
  | (simp only [↓Chip.post_mem, ↓Chip.showRepairs_mem, ↓Chip.setHold_mem, ↓Chip.afterHold_mem, ↓Chip.mem_mk, Stores.eta, Chip.mem_parts, Chip.ite_mem, ite_self]; done)
  | try dsimp only
    repeat' first
    | with_reducible rfl
    | split
    | simp only [↓Chip.post_mem, ↓Chip.showRepairs_mem, ↓Chip.setHold_mem, ↓Chip.afterHold_mem, ↓Chip.mem_mk, Stores.eta, Chip.mem_parts]

theorem Chip.answerRepaired_mem (c : Chip) (line : Nat) : (Chip.answerRepaired c line).mem = c.mem := by
  unfold Chip.answerRepaired
  first
  | (simp only [↓Chip.serveFull_mem, ↓Chip.runCommons_mem, ↓Chip.mem_mk, Stores.eta, Chip.mem_parts]; done)
  | try dsimp only
    repeat' first
    | with_reducible rfl
    | split
    | with_reducible refine (Chip.continueTags_mem _ _ _ (fun c t => ?_)).trans ?_
    | simp only [↓Chip.serveFull_mem, ↓Chip.runCommons_mem, ↓Chip.mem_mk, Stores.eta, Chip.mem_parts]

theorem Chip.mediaHere_mem (c : Chip) (r : EventRec) : (Chip.mediaHere c r).mem = c.mem := by
  unfold Chip.mediaHere
  first
  | (simp only [↓Chip.logRecord_mem, ↓Chip.mem_mk, Stores.eta, Chip.mem_parts, Chip.ite_mem, ite_self]; done)
  | try dsimp only
    repeat' first
    | with_reducible rfl
    | split
    | with_reducible refine (Chip.foldl_mem _ (fun c x => ?_) _ _).trans ?_
    | with_reducible refine (Chip.foldl_fst_mem _ (fun a x => ?_) _ _).trans ?_
    | simp only [↓Chip.logRecord_mem, ↓Chip.mem_mk, Stores.eta, Chip.mem_parts]

theorem Chip.mediaRecord_mem (c : Chip) (line : Nat) : (Chip.mediaRecord c line).mem = c.mem := by
  unfold Chip.mediaRecord
  first
  | (simp only [↓Chip.send_mem, ↓Chip.mediaHere_mem, ↓Chip.mem_mk, Stores.eta, Chip.mem_parts, Chip.ite_mem, ite_self]; done)
  | try dsimp only
    repeat' first
    | with_reducible rfl
    | split
    | simp only [↓Chip.send_mem, ↓Chip.mediaHere_mem, ↓Chip.mem_mk, Stores.eta, Chip.mem_parts]

theorem Chip.repairEntry_mem (c : Chip) (line source kind copy : Nat) : (Chip.repairEntry c line source kind copy).mem = c.mem := by
  unfold Chip.repairEntry
  first
  | (simp only [↓Chip.cnt_mem, ↓Chip.dlo_mem, ↓Chip.mem_mk, Stores.eta, Chip.mem_parts, Chip.ite_mem, ite_self]; done)
  | try dsimp only
    repeat' first
    | with_reducible rfl
    | split
    | simp only [↓Chip.cnt_mem, ↓Chip.dlo_mem, ↓Chip.mem_mk, Stores.eta, Chip.mem_parts]

theorem Chip.fixBytes_mem (c : Chip) (line : Nat) (data : Option (Line × Bool)) : (Chip.fixBytes c line data).mem = c.mem := by
  unfold Chip.fixBytes
  first
  | (simp only [↓Chip.cnt_mem, ↓Chip.raise_mem, ↓Chip.setWmb_mem, ↓Chip.releaseHold_mem, ↓Chip.mem_mk, Stores.eta, Chip.mem_parts, Chip.ite_mem, ite_self]; done)
  | try dsimp only
    repeat' first
    | with_reducible rfl
    | split
    | simp only [↓Chip.cnt_mem, ↓Chip.raise_mem, ↓Chip.setWmb_mem, ↓Chip.releaseHold_mem, ↓Chip.mem_mk, Stores.eta, Chip.mem_parts]

theorem Chip.wmbByte_mem (c : Chip) (line byte : Nat) (correctable : Bool) : (Chip.wmbByte c line byte correctable).mem = c.mem := by
  unfold Chip.wmbByte
  first
  | (simp only [↓Chip.cnt_mem, ↓Chip.send_mem, ↓Chip.post_mem, ↓Chip.setHold_mem, ↓Chip.fixBytes_mem, ↓Chip.mem_mk, Stores.eta,
      Chip.mem_parts, Chip.ite_mem, ite_self]; done)
  | try dsimp only
    repeat' first
    | with_reducible rfl
    | split
    | simp only [↓Chip.cnt_mem, ↓Chip.send_mem, ↓Chip.post_mem, ↓Chip.setHold_mem, ↓Chip.fixBytes_mem, ↓Chip.mem_mk, Stores.eta,
      Chip.mem_parts]

theorem Chip.entryFails_mem (c : Chip) (line : Nat) : (Chip.entryFails c line).mem = c.mem := by
  unfold Chip.entryFails
  first
  | (simp only [↓Chip.send_mem, ↓Chip.rebuildEntry_mem, ↓Chip.mem_mk, Stores.eta, Chip.mem_parts, Chip.ite_mem, ite_self]; done)
  | try dsimp only
    repeat' first
    | with_reducible rfl
    | split
    | simp only [↓Chip.send_mem, ↓Chip.rebuildEntry_mem, ↓Chip.mem_mk, Stores.eta, Chip.mem_parts]

theorem Chip.takeEntry_mem (c : Chip) (line : Nat) (e : Option DirEntry) : (Chip.takeEntry c line e).mem = c.mem := by
  unfold Chip.takeEntry
  first
  | (simp only [↓Chip.rebuildEntry_mem, ↓Chip.mem_mk, Stores.eta, Chip.mem_parts, Chip.ite_mem, ite_self]; done)
  | try dsimp only
    repeat' first
    | with_reducible rfl
    | split
    | simp only [↓Chip.rebuildEntry_mem, ↓Chip.mem_mk, Stores.eta, Chip.mem_parts]

theorem Chip.serveRepair_mem (c : Chip) (line : Nat) (outcome : ReadOutcome) : (Chip.serveRepair c line outcome).mem = c.mem := by
  unfold Chip.serveRepair
  first
  | (simp only [↓Chip.cnt_mem, ↓Chip.send_mem, ↓Chip.mem_mk, Stores.eta, Chip.mem_parts, Chip.ite_mem, ite_self]; done)
  | try dsimp only
    repeat' first
    | with_reducible rfl
    | split
    | simp only [↓Chip.cnt_mem, ↓Chip.send_mem, ↓Chip.mem_mk, Stores.eta, Chip.mem_parts]

end Sys2Proof.Machine
end

