-- ==== Sys2Proof/Laws/MemTakeover.lean ====
section
/-! SUPPORT. The operations of Machine/Takeover.lean that leave the byte stores of a chip as they are. -/
namespace Sys2Proof.Machine

set_option simprocs false

theorem Chip.fillBuckets_mem (c : Chip) (h : Fin 24) : (Chip.fillBuckets c h).mem = c.mem := by
  unfold Chip.fillBuckets
  simp only [↓Chip.mapHead_mem, ↓Chip.mem_mk, Stores.eta, Chip.mem_parts]

theorem Chip.claim_mem (c : Chip) (p : Fin 6) : (Chip.claim c p).mem = c.mem := by
  unfold Chip.claim
  first
  | (simp only [↓Chip.put_mem, ↓Chip.cnt_mem, ↓Chip.mapHead_mem, ↓Chip.raise_mem, ↓Chip.setRole_mem, ↓Chip.enterRecovery_mem,
      ↓Chip.fillBuckets_mem, ↓Chip.mem_mk, Stores.eta, Chip.mem_parts, Chip.ite_mem, ite_self]; done)
  | try dsimp only
    repeat' first
    | with_reducible rfl
    | split
    | with_reducible refine (Chip.foldl_mem _ (fun c x => ?_) _ _).trans ?_
    | with_reducible refine (Chip.foldl_fst_mem _ (fun a x => ?_) _ _).trans ?_
    | simp only [↓Chip.put_mem, ↓Chip.cnt_mem, ↓Chip.mapHead_mem, ↓Chip.raise_mem, ↓Chip.setRole_mem, ↓Chip.enterRecovery_mem,
      ↓Chip.fillBuckets_mem, ↓Chip.mem_mk, Stores.eta, Chip.mem_parts]

theorem Chip.abortResync_mem (c : Chip) : (Chip.abortResync c).mem = c.mem := by
  unfold Chip.abortResync
  first
  | (simp only [↓Chip.put_mem, ↓Chip.raise_mem, ↓Chip.mem_mk, Stores.eta, Chip.mem_parts, Chip.ite_mem, ite_self]; done)
  | try dsimp only
    repeat' first
    | with_reducible rfl
    | split
    | simp only [↓Chip.put_mem, ↓Chip.raise_mem, ↓Chip.mem_mk, Stores.eta, Chip.mem_parts]

theorem Chip.markUncovered_mem (c : Chip) : (Chip.markUncovered c).mem = c.mem := by
  unfold Chip.markUncovered
  first
  | (simp only [↓Chip.markChange_mem, ↓Chip.mem_mk, Stores.eta, Chip.mem_parts]; done)
  | try dsimp only
    repeat' first
    | with_reducible rfl
    | split
    | with_reducible refine (Chip.foldl_mem _ (fun c x => ?_) _ _).trans ?_
    | with_reducible refine (Chip.foldl_fst_mem _ (fun a x => ?_) _ _).trans ?_
    | simp only [↓Chip.markChange_mem, ↓Chip.mem_mk, Stores.eta, Chip.mem_parts]

theorem Chip.endDrill_mem (c : Chip) : (Chip.endDrill c).mem = c.mem := by
  unfold Chip.endDrill
  first
  | (simp only [↓Chip.put_mem, ↓Chip.mem_mk, Stores.eta, Chip.mem_parts, Chip.ite_mem, ite_self]; done)
  | try dsimp only
    repeat' first
    | with_reducible rfl
    | split
    | simp only [↓Chip.put_mem, ↓Chip.mem_mk, Stores.eta, Chip.mem_parts]

theorem Chip.isolate_mem (c : Chip) : (Chip.isolate c).mem = c.mem := by
  unfold Chip.isolate
  first
  | (simp only [↓Chip.raise_mem, ↓Chip.setRole_mem, ↓Chip.setMode_mem, ↓Chip.dropOwn_mem, ↓Chip.leaveL0_mem, ↓Chip.discardGated_mem,
      ↓Chip.showRepairs_mem, ↓Chip.abortResync_mem, ↓Chip.endDrill_mem, ↓Chip.mem_mk, Stores.eta, Chip.mem_parts, Chip.ite_mem, ite_self]; done)
  | try dsimp only
    repeat' first
    | with_reducible rfl
    | split
    | with_reducible refine (Chip.foldl_mem _ (fun c x => ?_) _ _).trans ?_
    | with_reducible refine (Chip.foldl_fst_mem _ (fun a x => ?_) _ _).trans ?_
    | simp only [↓Chip.raise_mem, ↓Chip.setRole_mem, ↓Chip.setMode_mem, ↓Chip.dropOwn_mem, ↓Chip.leaveL0_mem, ↓Chip.discardGated_mem,
      ↓Chip.showRepairs_mem, ↓Chip.abortResync_mem, ↓Chip.endDrill_mem, ↓Chip.mem_mk, Stores.eta, Chip.mem_parts]

theorem Chip.handoverDone_mem (c : Chip) (p : Fin 6) : (Chip.handoverDone c p).mem = c.mem := by
  unfold Chip.handoverDone
  first
  | (simp only [↓Chip.put_mem, ↓Chip.cnt_mem, ↓Chip.raise_mem, ↓Chip.mem_mk, Stores.eta, Chip.mem_parts, Chip.ite_mem, ite_self]; done)
  | try dsimp only
    repeat' first
    | with_reducible rfl
    | split
    | simp only [↓Chip.put_mem, ↓Chip.cnt_mem, ↓Chip.raise_mem, ↓Chip.mem_mk, Stores.eta, Chip.mem_parts]

theorem Chip.mailTakeover_mem (c : Chip) (h : Fin 24) : (Chip.mailTakeover c h).mem = c.mem := by
  unfold Chip.mailTakeover
  first
  | (simp only [↓Chip.mapHead_mem, ↓Chip.mailDone_mem, ↓Chip.mailRetry_mem, ↓Chip.mem_mk, Stores.eta, Chip.mem_parts, Chip.ite_mem, ite_self]; done)
  | try dsimp only
    repeat' first
    | with_reducible rfl
    | split
    | simp only [↓Chip.mapHead_mem, ↓Chip.mailDone_mem, ↓Chip.mailRetry_mem, ↓Chip.mem_mk, Stores.eta, Chip.mem_parts]

theorem Chip.doeTakeover_mem (c : Chip) (h : Fin 24) : (Chip.doeTakeover c h).mem = c.mem := by
  unfold Chip.doeTakeover
  first
  | (simp only [↓Chip.doeFails_mem, ↓Chip.mem_mk, Stores.eta, Chip.mem_parts, Chip.ite_mem, ite_self]; done)
  | try dsimp only
    repeat' first
    | with_reducible rfl
    | split
    | simp only [↓Chip.doeFails_mem, ↓Chip.mem_mk, Stores.eta, Chip.mem_parts]

theorem Chip.beHome_mem (c : Chip) (p : Fin 6) : (Chip.beHome c p).mem = c.mem := by
  unfold Chip.beHome
  first
  | (simp only [↓Chip.mapVec_mem, ↓Chip.sendMsix_mem, ↓Chip.headRecord_mem, ↓Chip.setRole_mem, ↓Chip.ringTakeover_mem,
      ↓Chip.handoverDone_mem, ↓Chip.mailTakeover_mem, ↓Chip.doeTakeover_mem, ↓Chip.mem_mk, Stores.eta, Chip.mem_parts, Chip.ite_mem, ite_self]; done)
  | try dsimp only
    repeat' first
    | with_reducible rfl
    | split
    | with_reducible refine (Chip.foldl_mem _ (fun c x => ?_) _ _).trans ?_
    | with_reducible refine (Chip.foldl_fst_mem _ (fun a x => ?_) _ _).trans ?_
    | simp only [↓Chip.mapVec_mem, ↓Chip.sendMsix_mem, ↓Chip.headRecord_mem, ↓Chip.setRole_mem, ↓Chip.ringTakeover_mem,
      ↓Chip.handoverDone_mem, ↓Chip.mailTakeover_mem, ↓Chip.doeTakeover_mem, ↓Chip.mem_mk, Stores.eta, Chip.mem_parts]

theorem Chip.answerShadow_mem (c : Chip) (t : Tag) : (Chip.answerShadow c t).mem = c.mem := by
  unfold Chip.answerShadow
  first
  | (simp only [↓Chip.setTag_mem, ↓Chip.respondCmp_mem, ↓Chip.completeWrite_mem, ↓Chip.bridgeWrite_mem, ↓Chip.serveFull_mem,
      ↓Chip.beginRead_mem, ↓Chip.unmapped_mem, ↓Chip.mem_mk, Stores.eta, Chip.mem_parts, Chip.ite_mem, ite_self]; done)
  | try dsimp only
    repeat' first
    | with_reducible rfl
    | split
    | simp only [↓Chip.setTag_mem, ↓Chip.respondCmp_mem, ↓Chip.completeWrite_mem, ↓Chip.bridgeWrite_mem, ↓Chip.serveFull_mem,
      ↓Chip.beginRead_mem, ↓Chip.unmapped_mem, ↓Chip.mem_mk, Stores.eta, Chip.mem_parts]

theorem Chip.carryOver_mem (c : Chip) (h : Fin 24) : (Chip.carryOver c h).mem = c.mem := by
  unfold Chip.carryOver
  first
  | (simp only [↓Chip.cnt_mem, ↓Chip.mapHead_mem, ↓Chip.runCommons_mem, ↓Chip.setLtssm_mem, ↓Chip.answerShadow_mem, ↓Chip.mem_mk,
      Stores.eta, Chip.mem_parts]; done)
  | try dsimp only
    repeat' first
    | with_reducible rfl
    | split
    | with_reducible refine (Chip.foldl_mem _ (fun c x => ?_) _ _).trans ?_
    | with_reducible refine (Chip.foldl_fst_mem _ (fun a x => ?_) _ _).trans ?_
    | simp only [↓Chip.cnt_mem, ↓Chip.mapHead_mem, ↓Chip.runCommons_mem, ↓Chip.setLtssm_mem, ↓Chip.answerShadow_mem, ↓Chip.mem_mk,
      Stores.eta, Chip.mem_parts]

theorem Chip.coldLink_mem (c : Chip) (h : Fin 24) : (Chip.coldLink c h).mem = c.mem := by
  unfold Chip.coldLink
  simp only [↓Chip.cnt_mem, ↓Chip.mapHead_mem, ↓Chip.raise_mem, ↓Chip.toDetect_mem, ↓Chip.mem_mk, Stores.eta, Chip.mem_parts]

theorem Chip.meetGuard_mem (c : Chip) (p : Fin 6) : (Chip.meetGuard c p).mem = c.mem := by
  unfold Chip.meetGuard
  first
  | (simp only [↓Chip.put_mem, ↓Chip.assertOwn_mem, ↓Chip.beHome_mem, ↓Chip.coldLink_mem, ↓Chip.mem_mk, Stores.eta, Chip.mem_parts, Chip.ite_mem, ite_self]; done)
  | try dsimp only
    repeat' first
    | with_reducible rfl
    | split
    | with_reducible refine (Chip.foldl_mem _ (fun c x => ?_) _ _).trans ?_
    | with_reducible refine (Chip.foldl_fst_mem _ (fun a x => ?_) _ _).trans ?_
    | simp only [↓Chip.put_mem, ↓Chip.assertOwn_mem, ↓Chip.beHome_mem, ↓Chip.coldLink_mem, ↓Chip.mem_mk, Stores.eta, Chip.mem_parts]

theorem Chip.countCheck_mem (c : Chip) (hb pulse : Bool) : (Chip.countCheck c hb pulse).mem = c.mem := by
  unfold Chip.countCheck
  first
  | (simp only [↓Chip.put_mem, ↓Chip.cnt_mem, ↓Chip.mem_mk, Stores.eta, Chip.mem_parts, Chip.ite_mem, ite_self]; done)
  | try dsimp only
    repeat' first
    | with_reducible rfl
    | split
    | simp only [↓Chip.put_mem, ↓Chip.cnt_mem, ↓Chip.mem_mk, Stores.eta, Chip.mem_parts]

theorem Chip.becomeCarbon_mem (c : Chip) (p : Fin 6) : (Chip.becomeCarbon c p).mem = c.mem := by
  unfold Chip.becomeCarbon
  first
  | (simp only [↓Chip.mapHead_mem, ↓Chip.setRole_mem, ↓Chip.mapTags_mem, ↓Chip.handoverDone_mem, ↓Chip.mem_mk, Stores.eta, Chip.mem_parts]; done)
  | try dsimp only
    repeat' first
    | with_reducible rfl
    | split
    | with_reducible refine (Chip.foldl_mem _ (fun c x => ?_) _ _).trans ?_
    | with_reducible refine (Chip.foldl_fst_mem _ (fun a x => ?_) _ _).trans ?_
    | simp only [↓Chip.mapHead_mem, ↓Chip.setRole_mem, ↓Chip.mapTags_mem, ↓Chip.handoverDone_mem, ↓Chip.mem_mk, Stores.eta, Chip.mem_parts]

theorem Chip.peerOwns_mem (c : Chip) (p : Fin 6) : (Chip.peerOwns c p).mem = c.mem := by
  unfold Chip.peerOwns
  first
  | (simp only [↓Chip.put_mem, ↓Chip.cnt_mem, ↓Chip.raise_mem, ↓Chip.setOwn_mem, ↓Chip.becomeCarbon_mem, ↓Chip.mem_mk, Stores.eta,
      Chip.mem_parts, Chip.ite_mem, ite_self]; done)
  | try dsimp only
    repeat' first
    | with_reducible rfl
    | split
    | simp only [↓Chip.put_mem, ↓Chip.cnt_mem, ↓Chip.raise_mem, ↓Chip.setOwn_mem, ↓Chip.becomeCarbon_mem, ↓Chip.mem_mk, Stores.eta,
      Chip.mem_parts]

theorem Chip.sourceAlone_mem (c : Chip) (key : BitVec 512) : (Chip.sourceAlone c key).mem = c.mem := by
  unfold Chip.sourceAlone
  first
  | (simp only [↓Chip.setSource_mem, ↓Chip.formPair_mem, ↓Chip.mem_mk, Stores.eta, Chip.mem_parts, Chip.ite_mem, ite_self]; done)
  | try dsimp only
    repeat' first
    | with_reducible rfl
    | split
    | simp only [↓Chip.setSource_mem, ↓Chip.formPair_mem, ↓Chip.mem_mk, Stores.eta, Chip.mem_parts]

theorem Chip.soloWaitOver_mem (c : Chip) (pulseEdge : Bool) (key : BitVec 512) : (Chip.soloWaitOver c pulseEdge key).mem = c.mem := by
  unfold Chip.soloWaitOver
  first
  | (simp only [↓Chip.put_mem, ↓Chip.raise_mem, ↓Chip.startSolo_mem, ↓Chip.isolate_mem, ↓Chip.sourceAlone_mem, ↓Chip.mem_mk, Stores.eta,
      Chip.mem_parts, Chip.ite_mem, ite_self]; done)
  | try dsimp only
    repeat' first
    | with_reducible rfl
    | split
    | simp only [↓Chip.put_mem, ↓Chip.raise_mem, ↓Chip.startSolo_mem, ↓Chip.isolate_mem, ↓Chip.sourceAlone_mem, ↓Chip.mem_mk, Stores.eta,
      Chip.mem_parts]

theorem Chip.forceAlone_mem (c : Chip) (rq : Requester) (key : BitVec 512) : (Chip.forceAlone c rq key).mem = c.mem := by
  unfold Chip.forceAlone
  first
  | (simp only [↓Chip.deny_mem, ↓Chip.startAlone_mem, ↓Chip.sourceAlone_mem, ↓Chip.mem_mk, Stores.eta, Chip.mem_parts, Chip.ite_mem, ite_self]; done)
  | try dsimp only
    repeat' first
    | with_reducible rfl
    | split
    | simp only [↓Chip.deny_mem, ↓Chip.startAlone_mem, ↓Chip.sourceAlone_mem, ↓Chip.mem_mk, Stores.eta, Chip.mem_parts]

end Sys2Proof.Machine
end

