-- ==== Sys2Proof/Laws/MemResync.lean ====
section
/-! SUPPORT. The operations of Machine/Resync.lean that leave the byte stores of a chip as they are. -/
namespace Sys2Proof.Machine

set_option simprocs false

theorem Chip.speakerDelivery_mem (c : Chip) : (Chip.speakerDelivery c).mem = c.mem := by
  unfold Chip.speakerDelivery
  first
  | (simp only [↓Chip.put_mem, ↓Chip.cnt_mem, ↓Chip.postEffect_mem, ↓Chip.mem_mk, Stores.eta, Chip.mem_parts, Chip.ite_mem, ite_self]; done)
  | try dsimp only
    repeat' first
    | with_reducible rfl
    | split
    | simp only [↓Chip.put_mem, ↓Chip.cnt_mem, ↓Chip.postEffect_mem, ↓Chip.mem_mk, Stores.eta, Chip.mem_parts]

theorem Chip.beginResync_mem (c : Chip) : (Chip.beginResync c).mem = c.mem := by
  unfold Chip.beginResync
  first
  | (simp only [↓Chip.put_mem, ↓Chip.send_mem, ↓Chip.raise_mem, ↓Chip.enterAlone_mem, ↓Chip.mem_mk, Stores.eta, Chip.mem_parts]; done)
  | try dsimp only
    repeat' first
    | with_reducible rfl
    | split
    | with_reducible refine (Chip.foldl_mem _ (fun c x => ?_) _ _).trans ?_
    | with_reducible refine (Chip.foldl_fst_mem _ (fun a x => ?_) _ _).trans ?_
    | simp only [↓Chip.put_mem, ↓Chip.send_mem, ↓Chip.raise_mem, ↓Chip.enterAlone_mem, ↓Chip.mem_mk, Stores.eta, Chip.mem_parts]

theorem Chip.takeHead_mem (c : Chip) (h : Fin 24) (x : HeadCopy) : (Chip.takeHead c h x).mem = c.mem := by
  unfold Chip.takeHead
  first
  | (simp only [↓Chip.wr_mem, ↓Chip.put_mem, ↓Chip.mapHead_mem, ↓Chip.acquire_mem, ↓Chip.showDecoders_mem, ↓Chip.mem_mk, Stores.eta,
      Chip.mem_parts, Chip.ite_mem, ite_self]; done)
  | try dsimp only
    repeat' first
    | with_reducible rfl
    | split
    | simp only [↓Chip.wr_mem, ↓Chip.put_mem, ↓Chip.mapHead_mem, ↓Chip.acquire_mem, ↓Chip.showDecoders_mem, ↓Chip.mem_mk, Stores.eta,
      Chip.mem_parts]

theorem Chip.takePairCopy_mem (c : Chip) (x : PairCopy) : (Chip.takePairCopy c x).mem = c.mem := by
  unfold Chip.takePairCopy
  first
  | (simp only [↓Chip.put_mem, ↓Chip.raise_mem, ↓Chip.loadPairFields_mem, ↓Chip.takeHead_mem, ↓Chip.mem_mk, Stores.eta, Chip.mem_parts, Chip.ite_mem, ite_self]; done)
  | try dsimp only
    repeat' first
    | with_reducible rfl
    | split
    | with_reducible refine (Chip.foldl_mem _ (fun c x => ?_) _ _).trans ?_
    | with_reducible refine (Chip.foldl_fst_mem _ (fun a x => ?_) _ _).trans ?_
    | simp only [↓Chip.put_mem, ↓Chip.raise_mem, ↓Chip.loadPairFields_mem, ↓Chip.takeHead_mem, ↓Chip.mem_mk, Stores.eta, Chip.mem_parts]

theorem Chip.takeDirectory_mem (c : Chip) (line : Nat) (e : DirEntry) : (Chip.takeDirectory c line e).mem = c.mem := by
  unfold Chip.takeDirectory
  simp only [↓Chip.mem_mk, Stores.eta, Chip.mem_parts]

theorem Chip.showResync_mem (c : Chip) : (Chip.showResync c).mem = c.mem := by
  unfold Chip.showResync
  simp only [↓Chip.put_mem, ↓Chip.mem_mk, Stores.eta, Chip.mem_parts]

theorem Chip.resyncRound_mem (c : Chip) : (Chip.resyncRound c).mem = c.mem := by
  unfold Chip.resyncRound
  first
  | (simp only [↓Chip.postEffect_mem, ↓Chip.showResync_mem, ↓Chip.mem_mk, Stores.eta, Chip.mem_parts, Chip.ite_mem, ite_self]; done)
  | try dsimp only
    repeat' first
    | with_reducible rfl
    | split
    | with_reducible refine (Chip.foldl_mem _ (fun c x => ?_) _ _).trans ?_
    | with_reducible refine (Chip.foldl_fst_mem _ (fun a x => ?_) _ _).trans ?_
    | simp only [↓Chip.postEffect_mem, ↓Chip.showResync_mem, ↓Chip.mem_mk, Stores.eta, Chip.mem_parts]

theorem Chip.oweExtent_mem (c : Chip) (e : Nat) : (Chip.oweExtent c e).mem = c.mem := by
  unfold Chip.oweExtent
  first
  | (simp only [↓Chip.oweBlock_mem, ↓Chip.mem_mk, Stores.eta, Chip.mem_parts]; done)
  | try dsimp only
    repeat' first
    | with_reducible rfl
    | split
    | simp only [↓Chip.oweBlock_mem, ↓Chip.mem_mk, Stores.eta, Chip.mem_parts]

theorem Chip.startCopies_mem (c : Chip) : (Chip.startCopies c).mem = c.mem := by
  unfold Chip.startCopies
  first
  | (simp only [↓Chip.cnt_mem, ↓Chip.send_mem, ↓Chip.setWmb_mem, ↓Chip.oweExtent_mem, ↓Chip.mem_mk, Stores.eta, Chip.mem_parts, Chip.ite_mem, ite_self]; done)
  | try dsimp only
    repeat' first
    | with_reducible rfl
    | split
    | with_reducible refine (Chip.foldl_mem _ (fun c x => ?_) _ _).trans ?_
    | with_reducible refine (Chip.foldl_fst_mem _ (fun a x => ?_) _ _).trans ?_
    | simp only [↓Chip.cnt_mem, ↓Chip.send_mem, ↓Chip.setWmb_mem, ↓Chip.oweExtent_mem, ↓Chip.mem_mk, Stores.eta, Chip.mem_parts]

theorem Chip.pauseCopies_mem (c : Chip) (es : List Nat) : (Chip.pauseCopies c es).mem = c.mem := by
  unfold Chip.pauseCopies
  simp only [↓Chip.mem_mk, Stores.eta, Chip.mem_parts]

theorem Chip.takeContent_mem (c : Chip) (e : Nat) (bytes : List (Nat × Byte)) (poisoned : List Nat) : (Chip.takeContent c e bytes poisoned).mem = c.mem := by
  unfold Chip.takeContent
  simp only [↓Chip.cnt_mem, ↓Chip.mem_mk, Stores.eta, Chip.mem_parts]

theorem Chip.endCopy_mem (c : Chip) (e : Nat) : (Chip.endCopy c e).mem = c.mem := by
  unfold Chip.endCopy
  simp only [↓Chip.put_mem, ↓Chip.cnt_mem, ↓Chip.mem_mk, Stores.eta, Chip.mem_parts]

theorem Chip.handOffAll_mem (c : Chip) (ds : List Nat) : (Chip.handOffAll c ds).mem = c.mem := by
  unfold Chip.handOffAll
  first
  | (simp only [↓Chip.cnt_mem, ↓Chip.post_mem, ↓Chip.handOff_mem, ↓Chip.mem_mk, Stores.eta, Chip.mem_parts]; done)
  | try dsimp only
    repeat' first
    | with_reducible rfl
    | split
    | with_reducible refine (Chip.foldl_mem _ (fun c x => ?_) _ _).trans ?_
    | with_reducible refine (Chip.foldl_fst_mem _ (fun a x => ?_) _ _).trans ?_
    | simp only [↓Chip.cnt_mem, ↓Chip.post_mem, ↓Chip.handOff_mem, ↓Chip.mem_mk, Stores.eta, Chip.mem_parts]

theorem Chip.resyncEnds_mem (c : Chip) (epoch : Nat) (home : List (Fin 6)) : (Chip.resyncEnds c epoch home).mem = c.mem := by
  unfold Chip.resyncEnds
  simp only [↓Chip.put_mem, ↓Chip.raise_mem, ↓Chip.setMode_mem, ↓Chip.setEpoch_mem, ↓Chip.mem_mk, Stores.eta, Chip.mem_parts]

end Sys2Proof.Machine
end

