-- ==== Sys2Proof/Laws/MemLink.lean ====
section
/-! SUPPORT. The operations of Machine/Link.lean that leave the byte stores of a chip as they are. -/
namespace Sys2Proof.Machine

set_option simprocs false

theorem Chip.takeAck_mem (c : Chip) (e : Envelope) : (Chip.takeAck c e).mem = c.mem := by
  unfold Chip.takeAck
  first
  | (simp only [↓Chip.put_mem, ↓Chip.cnt_mem, ↓Chip.putOnWire_mem, ↓Chip.sendWaiting_mem, ↓Chip.mem_mk, Stores.eta, Chip.mem_parts, Chip.ite_mem, ite_self]; done)
  | try dsimp only
    repeat' first
    | with_reducible rfl
    | split
    | simp only [↓Chip.put_mem, ↓Chip.cnt_mem, ↓Chip.putOnWire_mem, ↓Chip.sendWaiting_mem, ↓Chip.mem_mk, Stores.eta, Chip.mem_parts]

theorem Chip.accepts_mem (c : Chip) (e : Envelope) : (Chip.accepts c e).1.mem = c.mem := by
  unfold Chip.accepts
  first
  | (simp only [↓Chip.cnt_mem, ↓Chip.mem_mk, Stores.eta, Chip.mem_parts, Chip.ite_mem, ite_self]; done)
  | try dsimp only
    repeat' first
    | with_reducible rfl
    | split
    | simp only [↓Chip.cnt_mem, ↓Chip.mem_mk, Stores.eta, Chip.mem_parts]

theorem Chip.takeTime_mem (c : Chip) (f : Frame) : (Chip.takeTime c f).mem = c.mem := by
  unfold Chip.takeTime
  simp only [↓Chip.setRound_mem, ↓Chip.mem_mk, Stores.eta, Chip.mem_parts]

theorem Chip.beginAlign_mem (c : Chip) (k : Bool) (f : Frame) : (Chip.beginAlign c k f).mem = c.mem := by
  unfold Chip.beginAlign
  first
  | (simp only [↓Chip.put_mem, ↓Chip.takeTime_mem, ↓Chip.mem_mk, Stores.eta, Chip.mem_parts, Chip.ite_mem, ite_self]; done)
  | try dsimp only
    repeat' first
    | with_reducible rfl
    | split
    | simp only [↓Chip.put_mem, ↓Chip.takeTime_mem, ↓Chip.mem_mk, Stores.eta, Chip.mem_parts]

theorem Chip.alignTo_mem (c : Chip) (f : Frame) : (Chip.alignTo c f).mem = c.mem := by
  unfold Chip.alignTo
  first
  | (simp only [↓Chip.put_mem, ↓Chip.takeTime_mem, ↓Chip.beginAlign_mem, ↓Chip.mem_mk, Stores.eta, Chip.mem_parts, Chip.ite_mem, ite_self]; done)
  | try dsimp only
    repeat' first
    | with_reducible rfl
    | split
    | simp only [↓Chip.put_mem, ↓Chip.takeTime_mem, ↓Chip.beginAlign_mem, ↓Chip.mem_mk, Stores.eta, Chip.mem_parts]

theorem Chip.sendFrame_mem (c : Chip) : (Chip.sendFrame c).mem = c.mem := by
  unfold Chip.sendFrame
  first
  | (simp only [↓Chip.send_mem, ↓Chip.coverGated_mem, ↓Chip.mem_mk, Stores.eta, Chip.mem_parts, Chip.ite_mem, ite_self]; done)
  | try dsimp only
    repeat' first
    | with_reducible rfl
    | split
    | with_reducible refine (Chip.foldl_mem _ (fun c x => ?_) _ _).trans ?_
    | with_reducible refine (Chip.foldl_fst_mem _ (fun a x => ?_) _ _).trans ?_
    | simp only [↓Chip.send_mem, ↓Chip.coverGated_mem, ↓Chip.mem_mk, Stores.eta, Chip.mem_parts]

theorem Chip.noteDrill_mem (c : Chip) (f : Frame) : (Chip.noteDrill c f).mem = c.mem := by
  unfold Chip.noteDrill
  first
  | (simp only [↓Chip.mem_mk, Stores.eta, Chip.mem_parts, Chip.ite_mem, ite_self]; done)
  | try dsimp only
    repeat' first
    | with_reducible rfl
    | split
    | simp only [↓Chip.mem_mk, Stores.eta, Chip.mem_parts]

theorem Chip.peerMode_mem (c : Chip) (f : Frame) : (Chip.peerMode c f).mem = c.mem := by
  unfold Chip.peerMode
  first
  | (simp only [↓Chip.setRole_mem, ↓Chip.setMode_mem, ↓Chip.enterAlone_mem, ↓Chip.startJoin_mem, ↓Chip.beginResync_mem, ↓Chip.mem_mk,
      Stores.eta, Chip.mem_parts, Chip.ite_mem, ite_self]; done)
  | try dsimp only
    repeat' first
    | with_reducible rfl
    | split
    | with_reducible refine (Chip.foldl_mem _ (fun c x => ?_) _ _).trans ?_
    | with_reducible refine (Chip.foldl_fst_mem _ (fun a x => ?_) _ _).trans ?_
    | simp only [↓Chip.setRole_mem, ↓Chip.setMode_mem, ↓Chip.enterAlone_mem, ↓Chip.startJoin_mem, ↓Chip.beginResync_mem, ↓Chip.mem_mk,
      Stores.eta, Chip.mem_parts]

theorem Chip.meetDigest_mem (c : Chip) (x : Nat × Nat) : (Chip.meetDigest c x).mem = c.mem := by
  unfold Chip.meetDigest
  first
  | (simp only [↓Chip.wr_mem, ↓Chip.raiseBit_mem, ↓Chip.mem_mk, Stores.eta, Chip.mem_parts, Chip.ite_mem, ite_self]; done)
  | try dsimp only
    repeat' first
    | with_reducible rfl
    | split
    | simp only [↓Chip.wr_mem, ↓Chip.raiseBit_mem, ↓Chip.mem_mk, Stores.eta, Chip.mem_parts]

theorem Chip.takeStateFrame_mem (c : Chip) (f : Frame) : (Chip.takeStateFrame c f).mem = c.mem := by
  unfold Chip.takeStateFrame
  first
  | (simp only [↓Chip.mapHead_mem, ↓Chip.mailReported_mem, ↓Chip.showPeerHeadroom_mem, ↓Chip.coverGated_mem, ↓Chip.peerHasApplied_mem,
      ↓Chip.alignTo_mem, ↓Chip.noteDrill_mem, ↓Chip.peerMode_mem, ↓Chip.meetDigest_mem, ↓Chip.mem_mk, Stores.eta, Chip.mem_parts, Chip.ite_mem, ite_self]; done)
  | try dsimp only
    repeat' first
    | with_reducible rfl
    | split
    | with_reducible refine (Chip.foldl_mem _ (fun c x => ?_) _ _).trans ?_
    | with_reducible refine (Chip.foldl_fst_mem _ (fun a x => ?_) _ _).trans ?_
    | simp only [↓Chip.mapHead_mem, ↓Chip.mailReported_mem, ↓Chip.showPeerHeadroom_mem, ↓Chip.coverGated_mem, ↓Chip.peerHasApplied_mem,
      ↓Chip.alignTo_mem, ↓Chip.noteDrill_mem, ↓Chip.peerMode_mem, ↓Chip.meetDigest_mem, ↓Chip.mem_mk, Stores.eta, Chip.mem_parts]

theorem Chip.hearFrame_mem (c : Chip) (f : Frame) : (Chip.hearFrame c f).mem = c.mem := by
  unfold Chip.hearFrame
  first
  | (simp only [↓Chip.takeStateFrame_mem, ↓Chip.mem_mk, Stores.eta, Chip.mem_parts, Chip.ite_mem, ite_self]; done)
  | try dsimp only
    repeat' first
    | with_reducible rfl
    | split
    | simp only [↓Chip.takeStateFrame_mem, ↓Chip.mem_mk, Stores.eta, Chip.mem_parts]

theorem Chip.sampleRead_mem (c : Chip) (dpa : Nat) : (Chip.sampleRead c dpa).mem = c.mem := by
  unfold Chip.sampleRead
  first
  | (simp only [↓Chip.cnt_mem, ↓Chip.oweLines_mem, ↓Chip.mem_mk, Stores.eta, Chip.mem_parts, Chip.ite_mem, ite_self]; done)
  | try dsimp only
    repeat' first
    | with_reducible rfl
    | split
    | simp only [↓Chip.cnt_mem, ↓Chip.oweLines_mem, ↓Chip.mem_mk, Stores.eta, Chip.mem_parts]

theorem Chip.closeShadow_mem (c : Chip) (h : Fin 24) (pos : Pos) : (Chip.closeShadow c h pos).mem = c.mem := by
  unfold Chip.closeShadow
  first
  | (simp only [↓Chip.dropTag_mem, ↓Chip.runCommons_mem, ↓Chip.mem_mk, Stores.eta, Chip.mem_parts, Chip.ite_mem, ite_self]; done)
  | try dsimp only
    repeat' first
    | with_reducible rfl
    | split
    | simp only [↓Chip.dropTag_mem, ↓Chip.runCommons_mem, ↓Chip.mem_mk, Stores.eta, Chip.mem_parts]

theorem Chip.useDown_mem (c : Chip) (h : Fin 24) (t : TxFlit) : (Chip.useDown c h t).mem = c.mem := by
  unfold Chip.useDown
  first
  | (simp only [↓Chip.cnt_mem, ↓Chip.mapHead_mem, ↓Chip.mapVec_mem, ↓Chip.lose_mem, ↓Chip.sendTapWm_mem, ↓Chip.sampleRead_mem,
      ↓Chip.closeShadow_mem, ↓Chip.mem_mk, Stores.eta, Chip.mem_parts, Chip.ite_mem, ite_self]; done)
  | try dsimp only
    repeat' first
    | with_reducible rfl
    | split
    | simp only [↓Chip.cnt_mem, ↓Chip.mapHead_mem, ↓Chip.mapVec_mem, ↓Chip.lose_mem, ↓Chip.sendTapWm_mem, ↓Chip.sampleRead_mem,
      ↓Chip.closeShadow_mem, ↓Chip.mem_mk, Stores.eta, Chip.mem_parts]

theorem Chip.pumpDown_mem (h : Fin 24) (n : Nat) : ∀ c : Chip, (Chip.pumpDown c h n).mem = c.mem := by
  induction n with
  | zero => exact fun _ => rfl
  | succ n ih =>
    intro c
    unfold Chip.pumpDown
    try dsimp only
    repeat' first
      | with_reducible rfl
      | split
      | simp only [↓ih, ↓Chip.mapHead_mem, ↓Chip.useDown_mem, ↓Chip.mem_mk, Stores.eta, Chip.mem_parts]

theorem Chip.hearDown_mem (c : Chip) (h : Fin 24) (t : TxFlit) (decoded : Bool) : (Chip.hearDown c h t decoded).mem = c.mem := by
  unfold Chip.hearDown
  first
  | (simp only [↓Chip.mapHead_mem, ↓Chip.showFetches_mem, ↓Chip.pumpDown_mem, ↓Chip.mem_mk, Stores.eta, Chip.mem_parts, Chip.ite_mem, ite_self]; done)
  | try dsimp only
    repeat' first
    | with_reducible rfl
    | split
    | simp only [↓Chip.mapHead_mem, ↓Chip.showFetches_mem, ↓Chip.pumpDown_mem, ↓Chip.mem_mk, Stores.eta, Chip.mem_parts]

theorem Chip.pumpUp_mem (h : Fin 24) (n : Nat) : ∀ c : Chip, (Chip.pumpUp c h n).mem = c.mem := by
  induction n with
  | zero => exact fun _ => rfl
  | succ n ih =>
    intro c
    unfold Chip.pumpUp
    try dsimp only
    repeat' first
      | with_reducible rfl
      | split
      | simp only [↓ih, ↓Chip.mapHead_mem, ↓Chip.carbonFlit_mem, ↓Chip.mem_mk, Stores.eta, Chip.mem_parts]

theorem Chip.fetchedUp_mem (c : Chip) (h : Fin 24) (flit : Nat) (r : Option RxFlit) : (Chip.fetchedUp c h flit r).mem = c.mem := by
  unfold Chip.fetchedUp
  first
  | (simp only [↓Chip.mapHead_mem, ↓Chip.showFetches_mem, ↓Chip.lose_mem, ↓Chip.pumpUp_mem, ↓Chip.mem_mk, Stores.eta, Chip.mem_parts, Chip.ite_mem, ite_self]; done)
  | try dsimp only
    repeat' first
    | with_reducible rfl
    | split
    | simp only [↓Chip.mapHead_mem, ↓Chip.showFetches_mem, ↓Chip.lose_mem, ↓Chip.pumpUp_mem, ↓Chip.mem_mk, Stores.eta, Chip.mem_parts]

theorem Chip.fetchedDown_mem (c : Chip) (h : Fin 24) (flit : Nat) (m : Option TxFlit) : (Chip.fetchedDown c h flit m).mem = c.mem := by
  unfold Chip.fetchedDown
  first
  | (simp only [↓Chip.mapHead_mem, ↓Chip.showFetches_mem, ↓Chip.lose_mem, ↓Chip.pumpDown_mem, ↓Chip.mem_mk, Stores.eta, Chip.mem_parts, Chip.ite_mem, ite_self]; done)
  | try dsimp only
    repeat' first
    | with_reducible rfl
    | split
    | simp only [↓Chip.mapHead_mem, ↓Chip.showFetches_mem, ↓Chip.lose_mem, ↓Chip.pumpDown_mem, ↓Chip.mem_mk, Stores.eta, Chip.mem_parts]

theorem Chip.answerFetch_mem (c : Chip) (h : Fin 24) (dir : Direction) (flit : Nat) : (Chip.answerFetch c h dir flit).mem = c.mem := by
  unfold Chip.answerFetch
  first
  | (simp only [↓Chip.cnt_mem, ↓Chip.send_mem, ↓Chip.mem_mk, Stores.eta, Chip.mem_parts]; done)
  | try dsimp only
    repeat' first
    | with_reducible rfl
    | split
    | simp only [↓Chip.cnt_mem, ↓Chip.send_mem, ↓Chip.mem_mk, Stores.eta, Chip.mem_parts]

theorem Chip.takeBridged_mem (c : Chip) (x : BridgedWrite) : (Chip.takeBridged c x).mem = c.mem := by
  unfold Chip.takeBridged
  first
  | (simp only [↓Chip.cnt_mem, ↓Chip.mapHead_mem, ↓Chip.wmbWrite_mem, ↓Chip.sendWriteWm_mem, ↓Chip.enterCommons_mem, ↓Chip.mem_mk,
      Stores.eta, Chip.mem_parts, Chip.ite_mem, ite_self]; done)
  | try dsimp only
    repeat' first
    | with_reducible rfl
    | split
    | simp only [↓Chip.cnt_mem, ↓Chip.mapHead_mem, ↓Chip.wmbWrite_mem, ↓Chip.sendWriteWm_mem, ↓Chip.enterCommons_mem, ↓Chip.mem_mk,
      Stores.eta, Chip.mem_parts]

theorem Chip.takeWriteWm_mem (c : Chip) (h : Fin 24) (pos : Nat) : (Chip.takeWriteWm c h pos).mem = c.mem := by
  unfold Chip.takeWriteWm
  first
  | (simp only [↓Chip.mapHead_mem, ↓Chip.completeWrite_mem, ↓Chip.runCommons_mem, ↓Chip.mem_mk, Stores.eta, Chip.mem_parts, Chip.ite_mem, ite_self]; done)
  | try dsimp only
    repeat' first
    | with_reducible rfl
    | split
    | with_reducible refine (Chip.continueTags_mem _ _ _ (fun c t => ?_)).trans ?_
    | simp only [↓Chip.mapHead_mem, ↓Chip.completeWrite_mem, ↓Chip.runCommons_mem, ↓Chip.mem_mk, Stores.eta, Chip.mem_parts]

theorem Chip.takeTapWm_mem (c : Chip) (h : Fin 24) (dir : Direction) (flit : Nat) : (Chip.takeTapWm c h dir flit).mem = c.mem := by
  unfold Chip.takeTapWm
  first
  | (simp only [↓Chip.mapHead_mem, ↓Chip.ackTx_mem, ↓Chip.mem_mk, Stores.eta, Chip.mem_parts]; done)
  | try dsimp only
    repeat' first
    | with_reducible rfl
    | split
    | simp only [↓Chip.mapHead_mem, ↓Chip.ackTx_mem, ↓Chip.mem_mk, Stores.eta, Chip.mem_parts]

theorem Chip.takeDrainWm_mem (c : Chip) (h : Fin 24) (pos : Nat) : (Chip.takeDrainWm c h pos).mem = c.mem := by
  unfold Chip.takeDrainWm
  first
  | (simp only [↓Chip.mapHead_mem, ↓Chip.mem_mk, Stores.eta, Chip.mem_parts, Chip.ite_mem, ite_self]; done)
  | try dsimp only
    repeat' first
    | with_reducible rfl
    | split
    | simp only [↓Chip.mapHead_mem, ↓Chip.mem_mk, Stores.eta, Chip.mem_parts]

theorem Chip.failRead_mem (c : Chip) (x : Requester × Nat × Nat) : (Chip.failRead c x).mem = c.mem := by
  unfold Chip.failRead
  simp only [↓Chip.cnt_mem, ↓Chip.answer_mem, ↓Chip.mem_mk, Stores.eta, Chip.mem_parts]

theorem Chip.failReads_mem (c : Chip) (p : Requester × Nat × Nat → Bool) : (Chip.failReads c p).mem = c.mem := by
  unfold Chip.failReads
  first
  | (simp only [↓Chip.failRead_mem, ↓Chip.mem_mk, Stores.eta, Chip.mem_parts]; done)
  | try dsimp only
    repeat' first
    | with_reducible rfl
    | split
    | with_reducible refine (Chip.foldl_mem _ (fun c x => ?_) _ _).trans ?_
    | with_reducible refine (Chip.foldl_fst_mem _ (fun a x => ?_) _ _).trans ?_
    | simp only [↓Chip.failRead_mem, ↓Chip.mem_mk, Stores.eta, Chip.mem_parts]

theorem Chip.lateReads_mem (c : Chip) : (Chip.lateReads c).mem = c.mem := by
  unfold Chip.lateReads
  simp only [↓Chip.failReads_mem, ↓Chip.mem_mk, Stores.eta, Chip.mem_parts]

theorem Chip.takeAnswer_mem (c : Chip) (rq : Requester) (v : BitVec 64) : (Chip.takeAnswer c rq v).mem = c.mem := by
  unfold Chip.takeAnswer
  first
  | (simp only [↓Chip.answer_mem, ↓Chip.mem_mk, Stores.eta, Chip.mem_parts]; done)
  | try dsimp only
    repeat' first
    | with_reducible rfl
    | split
    | simp only [↓Chip.answer_mem, ↓Chip.mem_mk, Stores.eta, Chip.mem_parts]

theorem Chip.fallLink_mem (c : Chip) : (Chip.fallLink c).mem = c.mem := by
  unfold Chip.fallLink
  first
  | (simp only [↓Chip.put_mem, ↓Chip.cnt_mem, ↓Chip.raise_mem, ↓Chip.keepOwnRound_mem, ↓Chip.failReads_mem, ↓Chip.mem_mk, Stores.eta,
      Chip.mem_parts, Chip.ite_mem, ite_self]; done)
  | try dsimp only
    repeat' first
    | with_reducible rfl
    | split
    | simp only [↓Chip.put_mem, ↓Chip.cnt_mem, ↓Chip.raise_mem, ↓Chip.keepOwnRound_mem, ↓Chip.failReads_mem, ↓Chip.mem_mk, Stores.eta,
      Chip.mem_parts]

theorem Chip.showLanes_mem (c : Chip) : (Chip.showLanes c).mem = c.mem := by
  unfold Chip.showLanes
  first
  | (simp only [↓Chip.put_mem, ↓Chip.raise_mem, ↓Chip.fallLink_mem, ↓Chip.mem_mk, Stores.eta, Chip.mem_parts, Chip.ite_mem, ite_self]; done)
  | try dsimp only
    repeat' first
    | with_reducible rfl
    | split
    | with_reducible refine (Chip.foldl_mem _ (fun c x => ?_) _ _).trans ?_
    | with_reducible refine (Chip.foldl_fst_mem _ (fun a x => ?_) _ _).trans ?_
    | simp only [↓Chip.put_mem, ↓Chip.raise_mem, ↓Chip.fallLink_mem, ↓Chip.mem_mk, Stores.eta, Chip.mem_parts]

theorem Chip.replaceLane_mem (c : Chip) (l : Nat) : (Chip.replaceLane c l).mem = c.mem := by
  unfold Chip.replaceLane
  first
  | (simp only [↓Chip.put_mem, ↓Chip.send_mem, ↓Chip.drew_mem, ↓Chip.showLanes_mem, ↓Chip.mem_mk, Stores.eta, Chip.mem_parts, Chip.ite_mem, ite_self]; done)
  | try dsimp only
    repeat' first
    | with_reducible rfl
    | split
    | simp only [↓Chip.put_mem, ↓Chip.send_mem, ↓Chip.drew_mem, ↓Chip.showLanes_mem, ↓Chip.mem_mk, Stores.eta, Chip.mem_parts]

theorem Chip.lanesTrained_mem (c : Chip) (locked : BitVec 18) : (Chip.lanesTrained c locked).mem = c.mem := by
  unfold Chip.lanesTrained
  first
  | (simp only [↓Chip.put_mem, ↓Chip.mem_mk, Stores.eta, Chip.mem_parts]; done)
  | try dsimp only
    repeat' first
    | with_reducible rfl
    | split
    | with_reducible refine (Chip.foldl_mem _ (fun c x => ?_) _ _).trans ?_
    | with_reducible refine (Chip.foldl_fst_mem _ (fun a x => ?_) _ _).trans ?_
    | simp only [↓Chip.put_mem, ↓Chip.mem_mk, Stores.eta, Chip.mem_parts]

end Sys2Proof.Machine
end

