-- ==== Sys2Proof/Laws/MemPageRead.lean ====
section
/-! SUPPORT. The operations of Machine/PageRead.lean that leave the byte stores of a chip as they are. -/
namespace Sys2Proof.Machine

set_option simprocs false

theorem Chip.takeWord_mem (c : Chip) (rq : Requester) (page off : Nat) : (Chip.takeWord c rq page off).1.mem = c.mem := by
  unfold Chip.takeWord
  first
  | (simp only [↓Chip.claimWord_mem, ↓Chip.mem_mk, Stores.eta, Chip.mem_parts, Chip.ite_mem, ite_self]; done)
  | try dsimp only
    repeat' first
    | with_reducible rfl
    | split
    | simp only [↓Chip.claimWord_mem, ↓Chip.mem_mk, Stores.eta, Chip.mem_parts]

theorem Chip.takePage_mem (c : Chip) (rq : Requester) (page off size : Nat) : (Chip.takePage c rq page off size).1.mem = c.mem := by
  unfold Chip.takePage
  first
  | (simp only [↓Chip.takeWord_mem, ↓Chip.mem_mk, Stores.eta, Chip.mem_parts, Chip.ite_mem, ite_self]; done)
  | try dsimp only
    repeat' first
    | with_reducible rfl
    | split
    | simp only [↓Chip.takeWord_mem, ↓Chip.mem_mk, Stores.eta, Chip.mem_parts]

theorem Chip.badAccess_mem (c : Chip) (rq : Requester) (cause : Nat) : (Chip.badAccess c rq cause).mem = c.mem := by
  unfold Chip.badAccess
  first
  | (simp only [↓Chip.cnt_mem, ↓Chip.coreTrap_mem, ↓Chip.mem_mk, Stores.eta, Chip.mem_parts, Chip.ite_mem, ite_self]; done)
  | try dsimp only
    repeat' first
    | with_reducible rfl
    | split
    | simp only [↓Chip.cnt_mem, ↓Chip.coreTrap_mem, ↓Chip.mem_mk, Stores.eta, Chip.mem_parts]

end Sys2Proof.Machine
end

