-- ==== Sys2Proof/Laws/MemPageCheck.lean ====
section
/-! SUPPORT. The operations of Machine/PageCheck.lean that leave the byte stores of a chip as they are. -/
namespace Sys2Proof.Machine

set_option simprocs false



end Sys2Proof.Machine
end

