-- ==== Sys2Proof/Laws/MemPageStore.lean ====
section
/-! SUPPORT. The operations of Machine/PageStore.lean that leave the byte stores of a chip as they are. -/
namespace Sys2Proof.Machine

set_option simprocs false

theorem Chip.refusePage_mem (c : Chip) (page code off : Nat) (peer : Bool) : (Chip.refusePage c page code off peer).mem = c.mem := by
  unfold Chip.refusePage
  simp only [↓Chip.wr_mem, ↓Chip.raiseBit_mem, ↓Chip.mem_mk, Stores.eta, Chip.mem_parts]

theorem Chip.applyConfig_mem (c : Chip) (page : Nat) : (Chip.applyConfig c page).mem = c.mem := by
  unfold Chip.applyConfig
  first
  | (simp only [↓Chip.mem_mk, Stores.eta, Chip.mem_parts]; done)
  | try dsimp only
    repeat' first
    | with_reducible rfl
    | split
    | with_reducible refine (Chip.foldl_mem _ (fun c x => ?_) _ _).trans ?_
    | with_reducible refine (Chip.foldl_fst_mem _ (fun a x => ?_) _ _).trans ?_
    | simp only [↓Chip.mem_mk, Stores.eta, Chip.mem_parts]

theorem Chip.storedShared_mem (c : Chip) (page off : Nat) (old new : Word) (both : Bool) : (Chip.storedShared c page off old new both).mem = c.mem := by
  unfold Chip.storedShared
  first
  | (simp only [↓Chip.setUsed_mem, ↓Chip.mapHead_mem, ↓Chip.loseHead_mem, ↓Chip.cdatFollow_mem, ↓Chip.handOffAll_mem, ↓Chip.mem_mk,
      Stores.eta, Chip.mem_parts, Chip.ite_mem, ite_self]; done)
  | try dsimp only
    repeat' first
    | with_reducible rfl
    | split
    | with_reducible refine (Chip.foldl_mem _ (fun c x => ?_) _ _).trans ?_
    | with_reducible refine (Chip.foldl_fst_mem _ (fun a x => ?_) _ _).trans ?_
    | simp only [↓Chip.setUsed_mem, ↓Chip.mapHead_mem, ↓Chip.loseHead_mem, ↓Chip.cdatFollow_mem, ↓Chip.handOffAll_mem, ↓Chip.mem_mk,
      Stores.eta, Chip.mem_parts]

theorem Chip.storedDram_mem (c : Chip) (page off : Nat) (old new : Word) : (Chip.storedDram c page off old new).mem = c.mem := by
  unfold Chip.storedDram
  first
  | (simp only [↓Chip.fillTokens_mem, ↓Chip.policyChanged_mem, ↓Chip.mem_mk, Stores.eta, Chip.mem_parts, Chip.ite_mem, ite_self]; done)
  | try dsimp only
    repeat' first
    | with_reducible rfl
    | split
    | with_reducible refine (Chip.foldl_mem _ (fun c x => ?_) _ _).trans ?_
    | with_reducible refine (Chip.foldl_fst_mem _ (fun a x => ?_) _ _).trans ?_
    | simp only [↓Chip.fillTokens_mem, ↓Chip.policyChanged_mem, ↓Chip.mem_mk, Stores.eta, Chip.mem_parts]

theorem Chip.storedOwn_mem (c : Chip) (page off : Nat) (old new : Word) (late : Bool) : (Chip.storedOwn c page off old new late).mem = c.mem := by
  unfold Chip.storedOwn
  first
  | (simp only [↓Chip.cnt_mem, ↓Chip.icuUpdate_mem, ↓Chip.sourceDisable_mem, ↓Chip.sendMargin_mem, ↓Chip.planStep_mem, ↓Chip.loseColumn_mem,
      ↓Chip.storedDram_mem, ↓Chip.mem_mk, Stores.eta, Chip.mem_parts, Chip.ite_mem, ite_self]; done)
  | try dsimp only
    repeat' first
    | with_reducible rfl
    | split
    | with_reducible refine (Chip.foldl_mem _ (fun c x => ?_) _ _).trans ?_
    | with_reducible refine (Chip.foldl_fst_mem _ (fun a x => ?_) _ _).trans ?_
    | simp only [↓Chip.cnt_mem, ↓Chip.icuUpdate_mem, ↓Chip.sourceDisable_mem, ↓Chip.sendMargin_mem, ↓Chip.planStep_mem, ↓Chip.loseColumn_mem,
      ↓Chip.storedDram_mem, ↓Chip.mem_mk, Stores.eta, Chip.mem_parts]

theorem Chip.unseen_mem (c : Chip) (page off : Nat) (old new : Word) : (Chip.unseen c page off old new).mem = c.mem := by
  unfold Chip.unseen
  first
  | (simp only [↓Chip.wr_mem, ↓Chip.mem_mk, Stores.eta, Chip.mem_parts, Chip.ite_mem, ite_self]; done)
  | try dsimp only
    repeat' first
    | with_reducible rfl
    | split
    | simp only [↓Chip.wr_mem, ↓Chip.mem_mk, Stores.eta, Chip.mem_parts]

theorem Chip.usedEffects_mem (c : Chip) (page off : Nat) (old new : Word) (both late : Bool) : (Chip.usedEffects c page off old new both late).mem = c.mem := by
  unfold Chip.usedEffects
  first
  | (simp only [↓Chip.storedShared_mem, ↓Chip.storedOwn_mem, ↓Chip.mem_mk, Stores.eta, Chip.mem_parts, Chip.ite_mem, ite_self]; done)
  | try dsimp only
    repeat' first
    | with_reducible rfl
    | split
    | simp only [↓Chip.storedShared_mem, ↓Chip.storedOwn_mem, ↓Chip.mem_mk, Stores.eta, Chip.mem_parts]

theorem Chip.stopEffects_mem (c : Chip) (page : Nat) : (Chip.stopEffects c page).mem = c.mem := by
  unfold Chip.stopEffects
  first
  | (simp only [↓Chip.stopTracking_mem, ↓Chip.evbDrain_mem, ↓Chip.mdcWriteBack_mem, ↓Chip.mem_mk, Stores.eta, Chip.mem_parts, Chip.ite_mem, ite_self]; done)
  | try dsimp only
    repeat' first
    | with_reducible rfl
    | split
    | with_reducible refine (Chip.foldl_mem _ (fun c x => ?_) _ _).trans ?_
    | with_reducible refine (Chip.foldl_fst_mem _ (fun a x => ?_) _ _).trans ?_
    | simp only [↓Chip.stopTracking_mem, ↓Chip.evbDrain_mem, ↓Chip.mdcWriteBack_mem, ↓Chip.mem_mk, Stores.eta, Chip.mem_parts]

theorem Chip.startEffects_mem (c : Chip) (page : Nat) : (Chip.startEffects c page).mem = c.mem := by
  unfold Chip.startEffects
  first
  | (simp only [↓Chip.put_mem, ↓Chip.acquire_mem, ↓Chip.mapCore_mem, ↓Chip.icuUpdate_mem, ↓Chip.fillTokens_mem, ↓Chip.setModule_mem,
      ↓Chip.toDetect_mem, ↓Chip.fillBuckets_mem, ↓Chip.mem_mk, Stores.eta, Chip.mem_parts, Chip.ite_mem, ite_self]; done)
  | try dsimp only
    repeat' first
    | with_reducible rfl
    | split
    | with_reducible refine (Chip.foldl_mem _ (fun c x => ?_) _ _).trans ?_
    | with_reducible refine (Chip.foldl_fst_mem _ (fun a x => ?_) _ _).trans ?_
    | simp only [↓Chip.put_mem, ↓Chip.acquire_mem, ↓Chip.mapCore_mem, ↓Chip.icuUpdate_mem, ↓Chip.fillTokens_mem, ↓Chip.setModule_mem,
      ↓Chip.toDetect_mem, ↓Chip.fillBuckets_mem, ↓Chip.mem_mk, Stores.eta, Chip.mem_parts]

theorem Chip.bifurcate_mem (c was : Chip) (page : Nat) : (Chip.bifurcate c was page).mem = c.mem := by
  unfold Chip.bifurcate
  first
  | (simp only [↓Chip.toDetect_mem, ↓Chip.mem_mk, Stores.eta, Chip.mem_parts, Chip.ite_mem, ite_self]; done)
  | try dsimp only
    repeat' first
    | with_reducible rfl
    | split
    | with_reducible refine (Chip.foldl_mem _ (fun c x => ?_) _ _).trans ?_
    | with_reducible refine (Chip.foldl_fst_mem _ (fun a x => ?_) _ _).trans ?_
    | simp only [↓Chip.toDetect_mem, ↓Chip.mem_mk, Stores.eta, Chip.mem_parts]

theorem Chip.drained_mem (c : Chip) (page : Nat) : (Chip.drained c page).mem = c.mem := by
  unfold Chip.drained
  first
  | (simp only [↓Chip.setPageState_mem, ↓Chip.stopEffects_mem, ↓Chip.mem_mk, Stores.eta, Chip.mem_parts, Chip.ite_mem, ite_self]; done)
  | try dsimp only
    repeat' first
    | with_reducible rfl
    | split
    | simp only [↓Chip.setPageState_mem, ↓Chip.stopEffects_mem, ↓Chip.mem_mk, Stores.eta, Chip.mem_parts]

theorem Chip.faultPage_mem (c : Chip) (page : Nat) : (Chip.faultPage c page).mem = c.mem := by
  unfold Chip.faultPage
  first
  | (simp only [↓Chip.setPageState_mem, ↓Chip.raiseBit_mem, ↓Chip.stopEffects_mem, ↓Chip.mem_mk, Stores.eta, Chip.mem_parts, Chip.ite_mem, ite_self]; done)
  | try dsimp only
    repeat' first
    | with_reducible rfl
    | split
    | simp only [↓Chip.setPageState_mem, ↓Chip.raiseBit_mem, ↓Chip.stopEffects_mem, ↓Chip.mem_mk, Stores.eta, Chip.mem_parts]

theorem Chip.beginCheck_mem (c : Chip) (page : Nat) : (Chip.beginCheck c page).mem = c.mem := by
  unfold Chip.beginCheck
  simp only [↓Chip.setPageState_mem, ↓Chip.mem_mk, Stores.eta, Chip.mem_parts]

theorem Chip.clearEvents_mem (c : Chip) (page : Nat) (bits again : Word) : (Chip.clearEvents c page bits again).mem = c.mem := by
  unfold Chip.clearEvents
  first
  | (simp only [↓Chip.wr_mem, ↓Chip.raiseBit_mem, ↓Chip.mem_mk, Stores.eta, Chip.mem_parts]; done)
  | try dsimp only
    repeat' first
    | with_reducible rfl
    | split
    | with_reducible refine (Chip.foldl_mem _ (fun c x => ?_) _ _).trans ?_
    | with_reducible refine (Chip.foldl_fst_mem _ (fun a x => ?_) _ _).trans ?_
    | simp only [↓Chip.wr_mem, ↓Chip.raiseBit_mem, ↓Chip.mem_mk, Stores.eta, Chip.mem_parts]

theorem Chip.forceEvents_mem (c : Chip) (page : Nat) (bits : Word) : (Chip.forceEvents c page bits).mem = c.mem := by
  unfold Chip.forceEvents
  first
  | (simp only [↓Chip.raiseBit_mem, ↓Chip.mem_mk, Stores.eta, Chip.mem_parts]; done)
  | try dsimp only
    repeat' first
    | with_reducible rfl
    | split
    | with_reducible refine (Chip.foldl_mem _ (fun c x => ?_) _ _).trans ?_
    | with_reducible refine (Chip.foldl_fst_mem _ (fun a x => ?_) _ _).trans ?_
    | simp only [↓Chip.raiseBit_mem, ↓Chip.mem_mk, Stores.eta, Chip.mem_parts]

theorem Chip.enableEvents_mem (c : Chip) (page : Nat) (v : Word) : (Chip.enableEvents c page v).mem = c.mem := by
  unfold Chip.enableEvents
  first
  | (simp only [↓Chip.wr_mem, ↓Chip.deliverEvent_mem, ↓Chip.mem_mk, Stores.eta, Chip.mem_parts]; done)
  | try dsimp only
    repeat' first
    | with_reducible rfl
    | split
    | with_reducible refine (Chip.foldl_mem _ (fun c x => ?_) _ _).trans ?_
    | with_reducible refine (Chip.foldl_fst_mem _ (fun a x => ?_) _ _).trans ?_
    | simp only [↓Chip.wr_mem, ↓Chip.deliverEvent_mem, ↓Chip.mem_mk, Stores.eta, Chip.mem_parts]

theorem Chip.storeConfig_mem (c : Chip) (page off : Nat) (v : Word) (both late : Bool) : (Chip.storeConfig c page off v both late).1.mem = c.mem := by
  unfold Chip.storeConfig
  first
  | (simp only [↓Chip.wr_mem, ↓Chip.setUsed_mem, ↓Chip.raise_mem, ↓Chip.reject_mem, ↓Chip.unseen_mem, ↓Chip.usedEffects_mem, ↓Chip.mem_mk,
      Stores.eta, Chip.mem_parts, Chip.ite_mem, ite_self]; done)
  | try dsimp only
    repeat' first
    | with_reducible rfl
    | split
    | simp only [↓Chip.wr_mem, ↓Chip.setUsed_mem, ↓Chip.raise_mem, ↓Chip.reject_mem, ↓Chip.unseen_mem, ↓Chip.usedEffects_mem, ↓Chip.mem_mk,
      Stores.eta, Chip.mem_parts]

theorem Chip.actOwn_mem (c : Chip) (rq : Requester) (page off : Nat) (v : Word) : (Chip.actOwn c rq page off v).mem = c.mem := by
  unfold Chip.actOwn
  first
  | (simp only [↓Chip.cnt_mem, ↓Chip.complete_mem, ↓Chip.swi_mem, ↓Chip.efcGo_mem, ↓Chip.activeLock_mem, ↓Chip.wdtLock_mem,
      ↓Chip.storeCommit_mem, ↓Chip.svnAdvance_mem, ↓Chip.ownerProg_mem, ↓Chip.closeGo_mem, ↓Chip.mem_mk, Stores.eta, Chip.mem_parts, Chip.ite_mem, ite_self]; done)
  | try dsimp only
    repeat' first
    | with_reducible rfl
    | split
    | with_reducible refine (Chip.ifMachine_mem _ _ _ (fun c => ?_)).trans ?_
    | simp only [↓Chip.cnt_mem, ↓Chip.complete_mem, ↓Chip.swi_mem, ↓Chip.efcGo_mem, ↓Chip.activeLock_mem, ↓Chip.wdtLock_mem,
      ↓Chip.storeCommit_mem, ↓Chip.svnAdvance_mem, ↓Chip.ownerProg_mem, ↓Chip.closeGo_mem, ↓Chip.mem_mk, Stores.eta, Chip.mem_parts]

theorem Chip.actShared_mem (c : Chip) (rq : Requester) (page off : Nat) (v : Word) : (Chip.actShared c rq page off v).mem = c.mem := by
  unfold Chip.actShared
  first
  | (simp only [↓Chip.put_mem, ↓Chip.failStop_mem, ↓Chip.pprGo_mem, ↓Chip.offlineReq_mem, ↓Chip.onlineReq_mem, ↓Chip.mdcGo_mem,
      ↓Chip.mem_mk, Stores.eta, Chip.mem_parts, Chip.ite_mem, ite_self]; done)
  | try dsimp only
    repeat' first
    | with_reducible rfl
    | split
    | with_reducible refine (Chip.ifMachine_mem _ _ _ (fun c => ?_)).trans ?_
    | with_reducible refine (Chip.ifRunning_mem _ _ _ _ (fun c => ?_)).trans ?_
    | simp only [↓Chip.put_mem, ↓Chip.failStop_mem, ↓Chip.pprGo_mem, ↓Chip.offlineReq_mem, ↓Chip.onlineReq_mem, ↓Chip.mdcGo_mem,
      ↓Chip.mem_mk, Stores.eta, Chip.mem_parts]

end Sys2Proof.Machine
end

