-- ==== Sys2Proof/Laws/MemPages.lean ====
section
/-! SUPPORT. The operations of Machine/Pages.lean that leave the byte stores of a chip as they are. -/
namespace Sys2Proof.Machine

set_option simprocs false

theorem Chip.headerWrite_mem (c : Chip) (rq : Requester) (page : Nat) (f : Chip → Chip) (hf : ∀ c : Chip, (f c).mem = c.mem) :
    (c.headerWrite rq page f).mem = c.mem := by
  unfold Chip.headerWrite
  split
  · rfl
  · exact Chip.ifWrites_mem c rq page f hf

theorem Chip.cxlAreaWrite_mem (c : Chip) (h : Fin 24) (off size : Nat) (v : BitVec 64) : (Chip.cxlAreaWrite c h off size v).mem = c.mem := by
  unfold Chip.cxlAreaWrite
  first
  | (simp only [↓Chip.mapHead_mem, ↓Chip.writeVec_mem, ↓Chip.mailDone_mem, ↓Chip.mem_mk, Stores.eta, Chip.mem_parts, Chip.ite_mem, ite_self]; done)
  | try dsimp only
    repeat' first
    | with_reducible rfl
    | split
    | with_reducible refine (Chip.foldl_mem _ (fun c x => ?_) _ _).trans ?_
    | with_reducible refine (Chip.foldl_fst_mem _ (fun a x => ?_) _ _).trans ?_
    | simp only [↓Chip.mapHead_mem, ↓Chip.writeVec_mem, ↓Chip.mailDone_mem, ↓Chip.mem_mk, Stores.eta, Chip.mem_parts]

theorem Chip.pageAnswer_mem (c : Chip) (x : PageMessage) (cmd status : Nat) (data : Word) : (Chip.pageAnswer c x cmd status data).mem = c.mem := by
  unfold Chip.pageAnswer
  first
  | (simp only [↓Chip.cnt_mem, ↓Chip.answer_mem, ↓Chip.mctpSend_mem, ↓Chip.mem_mk, Stores.eta, Chip.mem_parts, Chip.ite_mem, ite_self]; done)
  | try dsimp only
    repeat' first
    | with_reducible rfl
    | split
    | simp only [↓Chip.cnt_mem, ↓Chip.answer_mem, ↓Chip.mctpSend_mem, ↓Chip.mem_mk, Stores.eta, Chip.mem_parts]

end Sys2Proof.Machine
end

