-- ==== Sys2Proof/Laws/MemFindings.lean ====
section
/-! SUPPORT. The operations of Machine/Findings.lean that leave the byte stores of a chip as they are. -/
namespace Sys2Proof.Machine

set_option simprocs false

theorem Chip.completionTook_mem (c : Chip) (h : Fin 24) (ns : Nat) : (Chip.completionTook c h ns).mem = c.mem := by
  unfold Chip.completionTook
  first
  | (simp only [↓Chip.cnt_mem, ↓Chip.peak_mem, ↓Chip.mem_mk, Stores.eta, Chip.mem_parts, Chip.ite_mem, ite_self]; done)
  | try dsimp only
    repeat' first
    | with_reducible rfl
    | split
    | simp only [↓Chip.cnt_mem, ↓Chip.peak_mem, ↓Chip.mem_mk, Stores.eta, Chip.mem_parts]

theorem Chip.reads_mem (c : Chip) (page off lo v : Nat) : (Chip.reads c page off lo v).mem = c.mem := by
  unfold Chip.reads
  first
  | (simp only [↓Chip.put_mem, ↓Chip.raise_mem, ↓Chip.mem_mk, Stores.eta, Chip.mem_parts, Chip.ite_mem, ite_self]; done)
  | try dsimp only
    repeat' first
    | with_reducible rfl
    | split
    | simp only [↓Chip.put_mem, ↓Chip.raise_mem, ↓Chip.mem_mk, Stores.eta, Chip.mem_parts]

theorem Chip.loseExtent_mem (c : Chip) (source e : Nat) : (Chip.loseExtent c source e).mem = c.mem := by
  unfold Chip.loseExtent
  first
  | (simp only [↓Chip.dlo_mem, ↓Chip.mapExt_mem, ↓Chip.mem_mk, Stores.eta, Chip.mem_parts, Chip.ite_mem, ite_self]; done)
  | try dsimp only
    repeat' first
    | with_reducible rfl
    | split
    | simp only [↓Chip.dlo_mem, ↓Chip.mapExt_mem, ↓Chip.mem_mk, Stores.eta, Chip.mem_parts]

theorem Chip.leakFrame_mem (c : Chip) (f : Nat) : (Chip.leakFrame c f).mem = c.mem := by
  unfold Chip.leakFrame
  simp only [↓Chip.put_mem, ↓Chip.mem_mk, Stores.eta, Chip.mem_parts]

theorem Chip.extentLost_mem (c : Chip) (source e : Nat) : (Chip.extentLost c source e).mem = c.mem := by
  unfold Chip.extentLost
  first
  | (simp only [↓Chip.mapExt_mem, ↓Chip.loseExtent_mem, ↓Chip.leakFrame_mem, ↓Chip.mem_mk, Stores.eta, Chip.mem_parts, Chip.ite_mem, ite_self]; done)
  | try dsimp only
    repeat' first
    | with_reducible rfl
    | split
    | simp only [↓Chip.mapExt_mem, ↓Chip.loseExtent_mem, ↓Chip.leakFrame_mem, ↓Chip.mem_mk, Stores.eta, Chip.mem_parts]

theorem Chip.mapLineLost_mem (c : Chip) : (Chip.mapLineLost c).mem = c.mem := by
  unfold Chip.mapLineLost
  simp only [↓Chip.cnt_mem, ↓Chip.raise_mem, ↓Chip.mem_mk, Stores.eta, Chip.mem_parts]

theorem Chip.wantParcel_mem (c : Chip) (p : Nat) : (Chip.wantParcel c p).mem = c.mem := by
  unfold Chip.wantParcel
  first
  | (simp only [↓Chip.mem_mk, Stores.eta, Chip.mem_parts, Chip.ite_mem, ite_self]; done)
  | try dsimp only
    repeat' first
    | with_reducible rfl
    | split
    | simp only [↓Chip.mem_mk, Stores.eta, Chip.mem_parts]

theorem Chip.parcelLineLost_mem (c : Chip) (source e : Nat) : (Chip.parcelLineLost c source e).mem = c.mem := by
  unfold Chip.parcelLineLost
  first
  | (simp only [↓Chip.loseExtent_mem, ↓Chip.wantParcel_mem, ↓Chip.mem_mk, Stores.eta, Chip.mem_parts, Chip.ite_mem, ite_self]; done)
  | try dsimp only
    repeat' first
    | with_reducible rfl
    | split
    | with_reducible refine (Chip.foldl_mem _ (fun c x => ?_) _ _).trans ?_
    | with_reducible refine (Chip.foldl_fst_mem _ (fun a x => ?_) _ _).trans ?_
    | simp only [↓Chip.loseExtent_mem, ↓Chip.wantParcel_mem, ↓Chip.mem_mk, Stores.eta, Chip.mem_parts]

theorem Chip.dirtyLineLost_mem (c : Chip) (line : Nat) : (Chip.dirtyLineLost c line).mem = c.mem := by
  unfold Chip.dirtyLineLost
  first
  | (simp only [↓Chip.setDirty_mem, ↓Chip.mem_mk, Stores.eta, Chip.mem_parts]; done)
  | try dsimp only
    repeat' first
    | with_reducible rfl
    | split
    | with_reducible refine (Chip.foldl_mem _ (fun c x => ?_) _ _).trans ?_
    | with_reducible refine (Chip.foldl_fst_mem _ (fun a x => ?_) _ _).trans ?_
    | simp only [↓Chip.setDirty_mem, ↓Chip.mem_mk, Stores.eta, Chip.mem_parts]

theorem Chip.indexLineLost_mem (c : Chip) (set : Nat) : (Chip.indexLineLost c set).mem = c.mem := by
  unfold Chip.indexLineLost
  first
  | (simp only [↓Chip.mem_mk, Stores.eta, Chip.mem_parts, Chip.ite_mem, ite_self]; done)
  | try dsimp only
    repeat' first
    | with_reducible rfl
    | split
    | simp only [↓Chip.mem_mk, Stores.eta, Chip.mem_parts]

theorem Chip.fillLineLost_mem (c : Chip) (line : Nat) : (Chip.fillLineLost c line).mem = c.mem := by
  unfold Chip.fillLineLost
  simp only [↓Chip.mem_mk, Stores.eta, Chip.mem_parts]

theorem Chip.thresholdsLost_mem (c : Chip) (line : Nat) : (Chip.thresholdsLost c line).mem = c.mem := by
  unfold Chip.thresholdsLost
  first
  | (simp only [↓Chip.mem_mk, Stores.eta, Chip.mem_parts, Chip.ite_mem, ite_self]; done)
  | try dsimp only
    repeat' first
    | with_reducible rfl
    | split
    | simp only [↓Chip.mem_mk, Stores.eta, Chip.mem_parts]

theorem Chip.markRisk_mem (c : Chip) (es : List Nat) : (Chip.markRisk c es).mem = c.mem := by
  unfold Chip.markRisk
  first
  | (simp only [↓Chip.mem_mk, Stores.eta, Chip.mem_parts]; done)
  | try dsimp only
    repeat' first
    | with_reducible rfl
    | split
    | with_reducible refine (Chip.foldl_mem _ (fun c x => ?_) _ _).trans ?_
    | with_reducible refine (Chip.foldl_fst_mem _ (fun a x => ?_) _ _).trans ?_
    | simp only [↓Chip.mem_mk, Stores.eta, Chip.mem_parts]

theorem Chip.slotLost_mem (c : Chip) (off : Nat) : (Chip.slotLost c off).mem = c.mem := by
  unfold Chip.slotLost
  first
  | (simp only [↓Chip.pcacheDrop_mem, ↓Chip.mem_mk, Stores.eta, Chip.mem_parts]; done)
  | try dsimp only
    repeat' first
    | with_reducible rfl
    | split
    | simp only [↓Chip.pcacheDrop_mem, ↓Chip.mem_mk, Stores.eta, Chip.mem_parts]

theorem Chip.ringEntryLost_mem (c : Chip) (off : Nat) : (Chip.ringEntryLost c off).mem = c.mem := by
  unfold Chip.ringEntryLost
  first
  | (simp only [↓Chip.cnt_mem, ↓Chip.mem_mk, Stores.eta, Chip.mem_parts, Chip.ite_mem, ite_self]; done)
  | try dsimp only
    repeat' first
    | with_reducible rfl
    | split
    | simp only [↓Chip.cnt_mem, ↓Chip.mem_mk, Stores.eta, Chip.mem_parts]

theorem Chip.mdcLineLost_mem (c : Chip) (line source : Nat) : (Chip.mdcLineLost c line source).mem = c.mem := by
  unfold Chip.mdcLineLost
  first
  | (simp only [↓Chip.cnt_mem, ↓Chip.markChange_mem, ↓Chip.pcacheDrop_mem, ↓Chip.entryFails_mem, ↓Chip.extentLost_mem,
      ↓Chip.mapLineLost_mem, ↓Chip.parcelLineLost_mem, ↓Chip.dirtyLineLost_mem, ↓Chip.indexLineLost_mem, ↓Chip.fillLineLost_mem,
      ↓Chip.mem_mk, Stores.eta, Chip.mem_parts]; done)
  | try dsimp only
    repeat' first
    | with_reducible rfl
    | split
    | with_reducible refine (Chip.foldl_mem _ (fun c x => ?_) _ _).trans ?_
    | with_reducible refine (Chip.foldl_fst_mem _ (fun a x => ?_) _ _).trans ?_
    | simp only [↓Chip.cnt_mem, ↓Chip.markChange_mem, ↓Chip.pcacheDrop_mem, ↓Chip.entryFails_mem, ↓Chip.extentLost_mem,
      ↓Chip.mapLineLost_mem, ↓Chip.parcelLineLost_mem, ↓Chip.dirtyLineLost_mem, ↓Chip.indexLineLost_mem, ↓Chip.fillLineLost_mem,
      ↓Chip.mem_mk, Stores.eta, Chip.mem_parts]

theorem Chip.lineCorrected_mem (c : Chip) (x : Nat) (bad : BitVec 20) (patrol : Bool) : (Chip.lineCorrected c x bad patrol).mem = c.mem := by
  unfold Chip.lineCorrected
  first
  | (simp only [↓Chip.cnt_mem, ↓Chip.correctedLine_mem, ↓Chip.mem_mk, Stores.eta, Chip.mem_parts]; done)
  | try dsimp only
    repeat' first
    | with_reducible rfl
    | split
    | simp only [↓Chip.cnt_mem, ↓Chip.correctedLine_mem, ↓Chip.mem_mk, Stores.eta, Chip.mem_parts]

theorem Chip.sramFails_mem (c : Chip) (source kind location : Nat) : (Chip.sramFails c source kind location).mem = c.mem := by
  unfold Chip.sramFails
  simp only [↓Chip.cnt_mem, ↓Chip.dlo_mem, ↓Chip.mem_mk, Stores.eta, Chip.mem_parts]

theorem Chip.spareFault_mem (c : Chip) (n : Nat) : (Chip.spareFault c n).mem = c.mem := by
  unfold Chip.spareFault
  simp only [↓Chip.cnt_mem, ↓Chip.failSpare_mem, ↓Chip.mem_mk, Stores.eta, Chip.mem_parts]

theorem Chip.mdcWordFails_mem (c : Chip) (set way source : Nat) : (Chip.mdcWordFails c set way source).mem = c.mem := by
  unfold Chip.mdcWordFails
  first
  | (simp only [↓Chip.oweBlock_mem, ↓Chip.setMdcWay_mem, ↓Chip.mdcLineLost_mem, ↓Chip.sramFails_mem, ↓Chip.mem_mk, Stores.eta,
      Chip.mem_parts, Chip.ite_mem, ite_self]; done)
  | try dsimp only
    repeat' first
    | with_reducible rfl
    | split
    | simp only [↓Chip.oweBlock_mem, ↓Chip.setMdcWay_mem, ↓Chip.mdcLineLost_mem, ↓Chip.sramFails_mem, ↓Chip.mem_mk, Stores.eta,
      Chip.mem_parts]

theorem Chip.wayWord_mem (c : Chip) (way set : Nat) (correctable scrub : Bool) : (Chip.wayWord c way set correctable scrub).mem = c.mem := by
  unfold Chip.wayWord
  first
  | (simp only [↓Chip.put_mem, ↓Chip.cnt_mem, ↓Chip.spareFault_mem, ↓Chip.mdcWordFails_mem, ↓Chip.mem_mk, Stores.eta, Chip.mem_parts, Chip.ite_mem, ite_self]; done)
  | try dsimp only
    repeat' first
    | with_reducible rfl
    | split
    | simp only [↓Chip.put_mem, ↓Chip.cnt_mem, ↓Chip.spareFault_mem, ↓Chip.mdcWordFails_mem, ↓Chip.mem_mk, Stores.eta, Chip.mem_parts]

theorem Chip.bankWord_mem (c : Chip) (bank line : Nat) (correctable scrub : Bool) : (Chip.bankWord c bank line correctable scrub).mem = c.mem := by
  unfold Chip.bankWord
  first
  | (simp only [↓Chip.cnt_mem, ↓Chip.replaceBank_mem, ↓Chip.entryFails_mem, ↓Chip.spareFault_mem, ↓Chip.mem_mk, Stores.eta, Chip.mem_parts, Chip.ite_mem, ite_self]; done)
  | try dsimp only
    repeat' first
    | with_reducible rfl
    | split
    | simp only [↓Chip.cnt_mem, ↓Chip.replaceBank_mem, ↓Chip.entryFails_mem, ↓Chip.spareFault_mem, ↓Chip.mem_mk, Stores.eta, Chip.mem_parts]

theorem Chip.queueWord_mem (c : Chip) (h : Fin 24) (pos : Nat) (correctable : Bool) : (Chip.queueWord c h pos correctable).mem = c.mem := by
  unfold Chip.queueWord
  first
  | (simp only [↓Chip.cnt_mem, ↓Chip.mapHead_mem, ↓Chip.raise_mem, ↓Chip.dlo_mem, ↓Chip.mem_mk, Stores.eta, Chip.mem_parts, Chip.ite_mem, ite_self]; done)
  | try dsimp only
    repeat' first
    | with_reducible rfl
    | split
    | simp only [↓Chip.cnt_mem, ↓Chip.mapHead_mem, ↓Chip.raise_mem, ↓Chip.dlo_mem, ↓Chip.mem_mk, Stores.eta, Chip.mem_parts]

theorem Chip.controlFails_mem (c : Chip) (line : Option Nat) : (Chip.controlFails c line).mem = c.mem := by
  unfold Chip.controlFails
  first
  | (simp only [↓Chip.failStop_mem, ↓Chip.sramFails_mem, ↓Chip.mem_mk, Stores.eta, Chip.mem_parts, Chip.ite_mem, ite_self]; done)
  | try dsimp only
    repeat' first
    | with_reducible rfl
    | split
    | simp only [↓Chip.failStop_mem, ↓Chip.sramFails_mem, ↓Chip.mem_mk, Stores.eta, Chip.mem_parts]

theorem Chip.coreLost_mem (c : Chip) (n : Nat) : (Chip.coreLost c n).mem = c.mem := by
  unfold Chip.coreLost
  first
  | (simp only [↓Chip.retireCore_mem, ↓Chip.mem_mk, Stores.eta, Chip.mem_parts, Chip.ite_mem, ite_self]; done)
  | try dsimp only
    repeat' first
    | with_reducible rfl
    | split
    | simp only [↓Chip.retireCore_mem, ↓Chip.mem_mk, Stores.eta, Chip.mem_parts]

theorem Chip.flashWord_mem (c : Chip) (word : Nat) (reader : Option (Fin 8 × Bool)) (correctable : Bool) : (Chip.flashWord c word reader correctable).mem = c.mem := by
  unfold Chip.flashWord
  first
  | (simp only [↓Chip.cnt_mem, ↓Chip.raise_mem, ↓Chip.dlo_mem, ↓Chip.coreTrap_mem, ↓Chip.mem_mk, Stores.eta, Chip.mem_parts, Chip.ite_mem, ite_self]; done)
  | try dsimp only
    repeat' first
    | with_reducible rfl
    | split
    | simp only [↓Chip.cnt_mem, ↓Chip.raise_mem, ↓Chip.dlo_mem, ↓Chip.coreTrap_mem, ↓Chip.mem_mk, Stores.eta, Chip.mem_parts]

theorem Chip.sramWord_mem (c : Chip) (u : SramUnit) (correctable scrub : Bool) : (Chip.sramWord c u correctable scrub).mem = c.mem := by
  unfold Chip.sramWord
  first
  | (simp only [↓Chip.cnt_mem, ↓Chip.tcInvalidate_mem, ↓Chip.sramFails_mem, ↓Chip.wayWord_mem, ↓Chip.bankWord_mem, ↓Chip.queueWord_mem,
      ↓Chip.controlFails_mem, ↓Chip.coreLost_mem, ↓Chip.flashWord_mem, ↓Chip.mem_mk, Stores.eta, Chip.mem_parts, Chip.ite_mem, ite_self]; done)
  | try dsimp only
    repeat' first
    | with_reducible rfl
    | split
    | simp only [↓Chip.cnt_mem, ↓Chip.tcInvalidate_mem, ↓Chip.sramFails_mem, ↓Chip.wayWord_mem, ↓Chip.bankWord_mem, ↓Chip.queueWord_mem,
      ↓Chip.controlFails_mem, ↓Chip.coreLost_mem, ↓Chip.flashWord_mem, ↓Chip.mem_mk, Stores.eta, Chip.mem_parts]

theorem Chip.indexRound_mem (c : Chip) : (Chip.indexRound c).mem = c.mem := by
  unfold Chip.indexRound
  first
  | (simp only [↓Chip.serveRead_mem, ↓Chip.mem_mk, Stores.eta, Chip.mem_parts, Chip.ite_mem, ite_self]; done)
  | try dsimp only
    repeat' first
    | with_reducible rfl
    | split
    | with_reducible refine (Chip.continueTags_mem _ _ _ (fun c t => ?_)).trans ?_
    | simp only [↓Chip.serveRead_mem, ↓Chip.mem_mk, Stores.eta, Chip.mem_parts]

end Sys2Proof.Machine
end

