-- ==== Sys2Proof/Laws/MemRounds.lean ====
section
/-! SUPPORT. The operations of Machine/Rounds.lean that leave the byte stores of a chip as they are. -/
namespace Sys2Proof.Machine

set_option simprocs false

theorem Chip.roundLength_mem (c : Chip) : (Chip.roundLength c).mem = c.mem := by
  unfold Chip.roundLength
  first
  | (simp only [↓Chip.cnt_mem, ↓Chip.mem_mk, Stores.eta, Chip.mem_parts, Chip.ite_mem, ite_self]; done)
  | try dsimp only
    repeat' first
    | with_reducible rfl
    | split
    | simp only [↓Chip.cnt_mem, ↓Chip.mem_mk, Stores.eta, Chip.mem_parts]

theorem Chip.alignRound_mem (c : Chip) (off : Int) : (Chip.alignRound c off).mem = c.mem := by
  unfold Chip.alignRound
  first
  | (simp only [↓Chip.put_mem, ↓Chip.putInt_mem, ↓Chip.raise_mem, ↓Chip.roundLength_mem, ↓Chip.mem_mk, Stores.eta, Chip.mem_parts, Chip.ite_mem, ite_self]; done)
  | try dsimp only
    repeat' first
    | with_reducible rfl
    | split
    | simp only [↓Chip.put_mem, ↓Chip.putInt_mem, ↓Chip.raise_mem, ↓Chip.roundLength_mem, ↓Chip.mem_mk, Stores.eta, Chip.mem_parts]

theorem Chip.refillHead_mem (c : Chip) (rounds : List (Option Nat)) (waiting : List (Fin 24)) (h : Fin 24) : (Chip.refillHead c rounds waiting h).mem = c.mem := by
  unfold Chip.refillHead
  first
  | (simp only [↓Chip.mapHead_mem, ↓Chip.mem_mk, Stores.eta, Chip.mem_parts]; done)
  | try dsimp only
    repeat' first
    | with_reducible rfl
    | split
    | with_reducible refine (Chip.foldl_mem _ (fun c x => ?_) _ _).trans ?_
    | with_reducible refine (Chip.foldl_fst_mem _ (fun a x => ?_) _ _).trans ?_
    | simp only [↓Chip.mapHead_mem, ↓Chip.mem_mk, Stores.eta, Chip.mem_parts]

theorem Chip.refillJob_mem (c : Chip) : (Chip.refillJob c).mem = c.mem := by
  unfold Chip.refillJob
  first
  | (simp only [↓Chip.refillChannels_mem, ↓Chip.refillHead_mem, ↓Chip.mem_mk, Stores.eta, Chip.mem_parts]; done)
  | try dsimp only
    repeat' first
    | with_reducible rfl
    | split
    | with_reducible refine (Chip.foldl_mem _ (fun c x => ?_) _ _).trans ?_
    | with_reducible refine (Chip.foldl_fst_mem _ (fun a x => ?_) _ _).trans ?_
    | simp only [↓Chip.refillChannels_mem, ↓Chip.refillHead_mem, ↓Chip.mem_mk, Stores.eta, Chip.mem_parts]

theorem Chip.gcJob_mem (c : Chip) : (Chip.gcJob c).mem = c.mem := by
  unfold Chip.gcJob
  first
  | (simp only [↓Chip.cnt_mem, ↓Chip.moveRow_mem, ↓Chip.mem_mk, Stores.eta, Chip.mem_parts, Chip.ite_mem, ite_self]; done)
  | try dsimp only
    repeat' first
    | with_reducible rfl
    | split
    | simp only [↓Chip.cnt_mem, ↓Chip.moveRow_mem, ↓Chip.mem_mk, Stores.eta, Chip.mem_parts]

theorem Chip.scrubWalk_mem (c : Chip) : (Chip.scrubWalk c).mem = c.mem := by
  unfold Chip.scrubWalk
  simp only [↓Chip.cnt_mem, ↓Chip.mem_mk, Stores.eta, Chip.mem_parts]

theorem Chip.resoleJob_mem (c : Chip) : (Chip.resoleJob c).mem = c.mem := by
  unfold Chip.resoleJob
  first
  | (simp only [↓Chip.moveRow_mem, ↓Chip.scrubWalk_mem, ↓Chip.mem_mk, Stores.eta, Chip.mem_parts, Chip.ite_mem, ite_self]; done)
  | try dsimp only
    repeat' first
    | with_reducible rfl
    | split
    | simp only [↓Chip.moveRow_mem, ↓Chip.scrubWalk_mem, ↓Chip.mem_mk, Stores.eta, Chip.mem_parts]

theorem Chip.setSched_mem (c : Chip) (x : Sched) : (Chip.setSched c x).mem = c.mem := by
  unfold Chip.setSched
  simp only [↓Chip.mem_mk, Stores.eta, Chip.mem_parts]

theorem Chip.rekeyRound_mem (c : Chip) : (Chip.rekeyRound c).mem = c.mem := by
  unfold Chip.rekeyRound
  first
  | (simp only [↓Chip.send_mem, ↓Chip.mem_mk, Stores.eta, Chip.mem_parts, Chip.ite_mem, ite_self]; done)
  | try dsimp only
    repeat' first
    | with_reducible rfl
    | split
    | simp only [↓Chip.send_mem, ↓Chip.mem_mk, Stores.eta, Chip.mem_parts]

theorem Chip.freeRow_mem (c : Chip) (x : Nat × MdeRow) : (Chip.freeRow c x).mem = c.mem := by
  unfold Chip.freeRow
  first
  | (simp only [↓Chip.cnt_mem, ↓Chip.setRow_mem, ↓Chip.mem_mk, Stores.eta, Chip.mem_parts]; done)
  | try dsimp only
    repeat' first
    | with_reducible rfl
    | split
    | simp only [↓Chip.cnt_mem, ↓Chip.setRow_mem, ↓Chip.mem_mk, Stores.eta, Chip.mem_parts]

theorem Chip.rowsRound_mem (c : Chip) : (Chip.rowsRound c).mem = c.mem := by
  unfold Chip.rowsRound
  first
  | (simp only [↓Chip.put_mem, ↓Chip.cnt_mem, ↓Chip.raise_mem, ↓Chip.startOps_mem, ↓Chip.freeRow_mem, ↓Chip.mem_mk, Stores.eta,
      Chip.mem_parts, Chip.ite_mem, ite_self]; done)
  | try dsimp only
    repeat' first
    | with_reducible rfl
    | split
    | with_reducible refine (Chip.foldl_mem _ (fun c x => ?_) _ _).trans ?_
    | with_reducible refine (Chip.foldl_fst_mem _ (fun a x => ?_) _ _).trans ?_
    | simp only [↓Chip.put_mem, ↓Chip.cnt_mem, ↓Chip.raise_mem, ↓Chip.startOps_mem, ↓Chip.freeRow_mem, ↓Chip.mem_mk, Stores.eta,
      Chip.mem_parts]

theorem Chip.holdupRound_mem (c : Chip) (x : RoundInputs) : (Chip.holdupRound c x).mem = c.mem := by
  unfold Chip.holdupRound
  simp only [↓Chip.sampleHoldup_mem, ↓Chip.overNow_mem, ↓Chip.mem_mk, Stores.eta, Chip.mem_parts]

theorem Chip.endsRound_mem (c : Chip) : (Chip.endsRound c).mem = c.mem := by
  unfold Chip.endsRound
  simp only [↓Chip.retireJobs_mem, ↓Chip.ranksLeave_mem, ↓Chip.ringRound_mem, ↓Chip.rangeChecks_mem, ↓Chip.mem_mk, Stores.eta,
      Chip.mem_parts]

theorem Chip.boardRound_mem (c : Chip) (x : RoundInputs) : (Chip.boardRound c x).mem = c.mem := by
  unfold Chip.boardRound
  simp only [↓Chip.thermalRound_mem, ↓Chip.evbDrain_mem, ↓Chip.settleChannels_mem, ↓Chip.ledgerRound_mem, ↓Chip.mem_mk, Stores.eta,
      Chip.mem_parts]

theorem Chip.linkRound_mem (c : Chip) : (Chip.linkRound c).mem = c.mem := by
  unfold Chip.linkRound
  first
  | (simp only [↓Chip.peak_mem, ↓Chip.raiseHist_mem, ↓Chip.returnCredits_mem, ↓Chip.lockAcquiring_mem, ↓Chip.mem_mk, Stores.eta,
      Chip.mem_parts, Chip.ite_mem, ite_self]; done)
  | try dsimp only
    repeat' first
    | with_reducible rfl
    | split
    | with_reducible refine (Chip.foldl_mem _ (fun c x => ?_) _ _).trans ?_
    | with_reducible refine (Chip.foldl_fst_mem _ (fun a x => ?_) _ _).trans ?_
    | simp only [↓Chip.peak_mem, ↓Chip.raiseHist_mem, ↓Chip.returnCredits_mem, ↓Chip.lockAcquiring_mem, ↓Chip.mem_mk, Stores.eta,
      Chip.mem_parts]

theorem Chip.newDeliveryN_mem (c : Chip) : (Chip.newDeliveryN c).mem = c.mem := by
  unfold Chip.newDeliveryN
  first
  | (simp only [↓Chip.raise_mem, ↓Chip.mem_mk, Stores.eta, Chip.mem_parts, Chip.ite_mem, ite_self]; done)
  | try dsimp only
    repeat' first
    | with_reducible rfl
    | split
    | simp only [↓Chip.raise_mem, ↓Chip.mem_mk, Stores.eta, Chip.mem_parts]

theorem Chip.laneDelivery_mem (c : Chip) : (Chip.laneDelivery c).mem = c.mem := by
  unfold Chip.laneDelivery
  first
  | (simp only [↓Chip.drew_mem, ↓Chip.acceptAlias_mem, ↓Chip.replaceLane_mem, ↓Chip.mem_mk, Stores.eta, Chip.mem_parts, Chip.ite_mem, ite_self]; done)
  | try dsimp only
    repeat' first
    | with_reducible rfl
    | split
    | with_reducible refine (Chip.foldl_mem _ (fun c x => ?_) _ _).trans ?_
    | with_reducible refine (Chip.foldl_fst_mem _ (fun a x => ?_) _ _).trans ?_
    | simp only [↓Chip.drew_mem, ↓Chip.acceptAlias_mem, ↓Chip.replaceLane_mem, ↓Chip.mem_mk, Stores.eta, Chip.mem_parts]

theorem Chip.retrainDelivery_mem (c : Chip) : (Chip.retrainDelivery c).mem = c.mem := by
  unfold Chip.retrainDelivery
  first
  | (simp only [↓Chip.meetChannel_mem, ↓Chip.mapChan_mem, ↓Chip.rankOut_mem, ↓Chip.mem_mk, Stores.eta, Chip.mem_parts, Chip.ite_mem, ite_self]; done)
  | try dsimp only
    repeat' first
    | with_reducible rfl
    | split
    | with_reducible refine (Chip.foldl_mem _ (fun c x => ?_) _ _).trans ?_
    | with_reducible refine (Chip.foldl_fst_mem _ (fun a x => ?_) _ _).trans ?_
    | simp only [↓Chip.meetChannel_mem, ↓Chip.mapChan_mem, ↓Chip.rankOut_mem, ↓Chip.mem_mk, Stores.eta, Chip.mem_parts]

theorem Chip.wayDelivery_mem (c : Chip) : (Chip.wayDelivery c).mem = c.mem := by
  unfold Chip.wayDelivery
  first
  | (simp only [↓Chip.put_mem, ↓Chip.mem_mk, Stores.eta, Chip.mem_parts]; done)
  | try dsimp only
    repeat' first
    | with_reducible rfl
    | split
    | with_reducible refine (Chip.foldl_mem _ (fun c x => ?_) _ _).trans ?_
    | with_reducible refine (Chip.foldl_fst_mem _ (fun a x => ?_) _ _).trans ?_
    | simp only [↓Chip.put_mem, ↓Chip.mem_mk, Stores.eta, Chip.mem_parts]

theorem Chip.freshDelivery_mem (c : Chip) : (Chip.freshDelivery c).mem = c.mem := by
  have h1 : ∀ (c : Chip) (d : Nat), ((List.range 32).foldl (fun c j => if c.get (F.DCH_DEV_CE d j) = 0 then c else c.put (F.DCH_DEV_CE d j) 0) c).mem
      = c.mem := by
    intro c d
    refine Chip.foldl_mem _ (fun c j => ?_) _ c
    split
    · rfl
    · exact Chip.put_mem c _ _
  unfold Chip.freshDelivery
  have h3 : ∀ c : Chip, ({ c with trm := { c.trm with hits := [] }, cbl := { c.cbl with bankCe := [] }, mde := { c.mde with ueBlocks := [] } } : Chip).mem = c.mem := fun c => rfl
  refine (h3 _).trans ?_
  rw [Chip.foldl_mem, Chip.foldl_mem]
  · intro c d
    rw [h1]
    split
    · rfl
    · exact Chip.mapChan_mem c d _
  · intro c h
    split
    · exact Chip.mapHead_mem c h _
    · rfl

theorem Chip.ratingDelivery_mem (c : Chip) : (Chip.ratingDelivery c).mem = c.mem := by
  unfold Chip.ratingDelivery
  simp only [↓Chip.put_mem, ↓Chip.mem_mk, Stores.eta, Chip.mem_parts]

theorem Chip.latch_mem (c : Chip) : (Chip.latch c).mem = c.mem := by
  unfold Chip.latch
  simp only [↓Chip.mem_mk, Stores.eta, Chip.mem_parts]

end Sys2Proof.Machine
end

