-- ==== Sys2Proof/Laws/Store.lean ====
section
/-! SUPPORT. Every memory operation keeps the canonical form of a memory, writes what it says, and leaves every other byte as it was. -/
namespace Sys2Proof.Machine

theorem Memory.wf_nil : Memory.wf [] = true := rfl

theorem Memory.wf_set (m : List Host.Cell) (a : Nat) (b : Byte) (h : Memory.wf m = true) : Memory.wf (Table.set zeroByte m a b) = true :=
  Table.wf_set zeroByte m a b h

theorem Memory.wf_filter (m : List Host.Cell) (p : Host.Cell → Bool) (h : Memory.wf m = true) : Memory.wf (m.filter p) = true :=
  Table.wf_filter zeroByte p m h

theorem writeBytes_wf (m : List Host.Cell) (a : Nat) (bs : List Byte) (h : Memory.wf m = true) : Memory.wf (writeBytes m a bs) = true :=
  Table.wf_setAll zeroByte _ m h

theorem writeLine_wf (m : List Host.Cell) (a : Nat) (l : Line) (en : BitVec 64) (h : Memory.wf m = true) :
    Memory.wf (writeLine m a l en) = true :=
  Table.wf_setAll zeroByte _ m h

theorem clearBytes_wf (m : List Host.Cell) (lo n : Nat) (h : Memory.wf m = true) : Memory.wf (clearBytes m lo n) = true :=
  Table.wf_clear zeroByte _ m h

theorem copyBytes_wf (src dst : List Host.Cell) (lo n : Nat) (h : Memory.wf dst = true) : Memory.wf (copyBytes src dst lo n) = true :=
  Table.wf_setAll zeroByte _ _ (clearBytes_wf dst lo n h)

/-- A fold of memory operations that keep the canonical form keeps it. -/
theorem Memory.foldl_wf {α : Type} (g : List Host.Cell → α → List Host.Cell) (hg : ∀ m x, Memory.wf m = true → Memory.wf (g m x) = true)
    (l : List α) : ∀ m, Memory.wf m = true → Memory.wf (l.foldl g m) = true := by
  induction l with
  | nil => exact fun m h => h
  | cons x r ih => exact fun m h => ih (g m x) (hg m x h)

/-- A byte outside the 64 B of a line reads as before a write of that line. -/
theorem writeLine_get_ne (m : List Host.Cell) (a : Nat) (l : Line) (en : BitVec 64) (x : Nat) (h : x < a ∨ a + 64 ≤ x) :
    Table.get zeroByte (writeLine m a l en) x = Table.get zeroByte m x := by
  refine Table.get_setAll_ne zeroByte _ x m (fun e he => ?_)
  simp only [List.mem_map, List.mem_filter, List.mem_range] at he
  obtain ⟨i, ⟨hi, _⟩, rfl⟩ := he
  simp only
  omega

/-- A byte outside a range reads as before the range is cleared. -/
theorem clearBytes_get_ne (m : List Host.Cell) (lo n x : Nat) (h : x < lo ∨ lo + n ≤ x) :
    Table.get zeroByte (clearBytes m lo n) x = Table.get zeroByte m x := by
  refine Table.get_clear_of_false zeroByte _ m x ?_
  simp only [Bool.and_eq_false_iff, decide_eq_false_iff_not]
  omega

/-- A byte of a cleared range reads as 0. -/
theorem clearBytes_get (m : List Host.Cell) (lo n x : Nat) (h : lo ≤ x ∧ x < lo + n) : Table.get zeroByte (clearBytes m lo n) x = 0 := by
  refine (Table.get_clear_of_true zeroByte _ m x ?_).trans rfl
  simp only [Bool.and_eq_true, decide_eq_true_eq]
  exact h

/-- A byte outside a range reads as before the range is copied. -/
theorem copyBytes_get_ne (src dst : List Host.Cell) (lo n x : Nat) (h : x < lo ∨ lo + n ≤ x) :
    Table.get zeroByte (copyBytes src dst lo n) x = Table.get zeroByte dst x := by
  refine (Table.get_setAll_ne zeroByte _ x _ (fun e he => ?_)).trans (clearBytes_get_ne dst lo n x h)
  simp only [Table.entries, List.mem_filter, Bool.and_eq_true, decide_eq_true_eq] at he
  omega

/-- A byte outside the bytes written reads as before. -/
theorem writeBytes_get_ne (m : List Host.Cell) (a : Nat) (bs : List Byte) (x : Nat) (h : x < a ∨ a + bs.length ≤ x) :
    Table.get zeroByte (writeBytes m a bs) x = Table.get zeroByte m x := by
  refine Table.get_setAll_ne zeroByte _ x m (fun e he => ?_)
  simp only [List.mem_map] at he
  obtain ⟨y, hy, rfl⟩ := he
  have := List.snd_lt_of_mem_zipIdx hy
  simp only
  omega

/-! ## The stores of one chip -/

/-- All eight stores of a chip have the canonical form. -/
theorem Stores.wf_iff (m : Stores) : m.wf = true ↔
    Memory.wf m.dram = true ∧ Memory.wf m.front = true ∧ Memory.wf m.packed = true ∧ Memory.wf m.patch = true ∧
      Memory.wf m.sealFront = true ∧ Memory.wf m.sealPatch = true ∧ Memory.wf m.metaFront = true ∧ Memory.wf m.metaPatch = true := by
  simp only [Stores.wf, Bool.and_eq_true, and_assoc]

theorem Stores.wf_mk {a b c d e f g i : List Host.Cell} (ha : Memory.wf a = true) (hb : Memory.wf b = true) (hc : Memory.wf c = true)
    (hd : Memory.wf d = true) (he : Memory.wf e = true) (hf : Memory.wf f = true) (hg : Memory.wf g = true) (hi : Memory.wf i = true) :
    Stores.wf ⟨a, b, c, d, e, f, g, i⟩ = true := (Stores.wf_iff _).mpr ⟨ha, hb, hc, hd, he, hf, hg, hi⟩

theorem Stores.wf_dram {m : Stores} (h : m.wf = true) : Memory.wf m.dram = true := ((Stores.wf_iff m).mp h).1
theorem Stores.wf_front {m : Stores} (h : m.wf = true) : Memory.wf m.front = true := ((Stores.wf_iff m).mp h).2.1
theorem Stores.wf_packed {m : Stores} (h : m.wf = true) : Memory.wf m.packed = true := ((Stores.wf_iff m).mp h).2.2.1
theorem Stores.wf_patch {m : Stores} (h : m.wf = true) : Memory.wf m.patch = true := ((Stores.wf_iff m).mp h).2.2.2.1
theorem Stores.wf_sealFront {m : Stores} (h : m.wf = true) : Memory.wf m.sealFront = true := ((Stores.wf_iff m).mp h).2.2.2.2.1
theorem Stores.wf_sealPatch {m : Stores} (h : m.wf = true) : Memory.wf m.sealPatch = true := ((Stores.wf_iff m).mp h).2.2.2.2.2.1
theorem Stores.wf_metaFront {m : Stores} (h : m.wf = true) : Memory.wf m.metaFront = true := ((Stores.wf_iff m).mp h).2.2.2.2.2.2.1
theorem Stores.wf_metaPatch {m : Stores} (h : m.wf = true) : Memory.wf m.metaPatch = true := ((Stores.wf_iff m).mp h).2.2.2.2.2.2.2

end Sys2Proof.Machine
end

