-- ==== Sys2Proof/Laws/MemWf.lean ====
section
/-! SUPPORT. The operations that write the byte stores of a chip keep their canonical form. -/
namespace Sys2Proof.Machine

set_option simprocs false

theorem Chip.foldl_wf {α : Type} (g : Chip → α → Chip) (hg : ∀ c x, c.mem.wf = true → (g c x).mem.wf = true) (l : List α) :
    ∀ c : Chip, c.mem.wf = true → (l.foldl g c).mem.wf = true := by
  induction l with
  | nil => exact fun c h => h
  | cons x r ih => exact fun c h => ih (g c x) (hg c x h)

theorem Chip.ifWrites_wf (c : Chip) (rq : Requester) (page : Nat) (f : Chip → Chip) (hf : ∀ c : Chip, c.mem.wf = true → (f c).mem.wf = true)
    (h : c.mem.wf = true) : (c.ifWrites rq page f).mem.wf = true := by
  unfold Chip.ifWrites
  split
  · exact hf c h
  · rw [Chip.deny_mem]
    exact h

theorem Chip.ifMachine_wf (c : Chip) (rq : Requester) (f : Chip → Chip) (hf : ∀ c : Chip, c.mem.wf = true → (f c).mem.wf = true)
    (h : c.mem.wf = true) : (c.ifMachine rq f).mem.wf = true := by
  unfold Chip.ifMachine
  split
  · exact hf c h
  · rw [Chip.deny_mem]
    exact h

theorem Chip.ifRunning_wf (c : Chip) (page off : Nat) (f : Chip → Chip) (hf : ∀ c : Chip, c.mem.wf = true → (f c).mem.wf = true)
    (h : c.mem.wf = true) : (c.ifRunning page off f).mem.wf = true := by
  unfold Chip.ifRunning
  split
  · exact hf c h
  · rw [Chip.reject_mem]
    exact h

theorem Chip.headerWrite_wf (c : Chip) (rq : Requester) (page : Nat) (f : Chip → Chip) (hf : ∀ c : Chip, c.mem.wf = true → (f c).mem.wf = true)
    (h : c.mem.wf = true) : (c.headerWrite rq page f).mem.wf = true := by
  unfold Chip.headerWrite
  split
  · exact h
  · exact Chip.ifWrites_wf c rq page f hf h

theorem Chip.continueTags_wf (c : Chip) (p : Tag → Bool) (f : Chip → Tag → Chip)
    (hf : ∀ (c : Chip) (t : Tag), c.mem.wf = true → (f c t).mem.wf = true) (h : c.mem.wf = true) : (c.continueTags p f).mem.wf = true := by
  unfold Chip.continueTags
  refine Chip.foldl_wf _ (fun c t hc => ?_) _ _ h
  split
  · split
    · exact hf c _ hc
    · exact hc
  · exact hc

theorem Chip.takeFrame_wf (c : Chip) (e : Nat) (hw : c.mem.wf = true) : (Chip.takeFrame c e).mem.wf = true := by
  unfold Chip.takeFrame
  try dsimp only
  repeat' first
    | with_reducible assumption
    | with_reducible exact Stores.wf_dram (by assumption)
    | with_reducible exact Stores.wf_front (by assumption)
    | with_reducible exact Stores.wf_packed (by assumption)
    | with_reducible exact Stores.wf_patch (by assumption)
    | with_reducible exact Stores.wf_sealFront (by assumption)
    | with_reducible exact Stores.wf_sealPatch (by assumption)
    | with_reducible exact Stores.wf_metaFront (by assumption)
    | with_reducible exact Stores.wf_metaPatch (by assumption)
    | with_reducible exact Memory.wf_nil
    | with_reducible refine writeLine_wf _ _ _ _ ?_
    | with_reducible refine clearBytes_wf _ _ _ ?_
    | with_reducible refine copyBytes_wf _ _ _ _ ?_
    | with_reducible refine Memory.wf_set _ _ _ ?_
    | with_reducible refine Memory.wf_filter _ _ ?_
    | with_reducible refine Memory.foldl_wf _ (fun m x hm => ?_) _ _ ?_
    | simp only [↓Chip.mapExt_mem, ↓Chip.wantRange_mem, ↓Chip.mem_mk, Stores.eta, Chip.mem_parts, Chip.ite_mem, ite_self]
    | with_reducible refine Stores.wf_mk ?_ ?_ ?_ ?_ ?_ ?_ ?_ ?_
    | split

theorem Chip.storePatch_wf (c : Chip) (dpa : Nat) (l : Line) (poison : Bool) (hw : c.mem.wf = true) : (Chip.storePatch c dpa l poison).mem.wf = true := by
  unfold Chip.storePatch
  try dsimp only
  repeat' first
    | with_reducible assumption
    | with_reducible exact Stores.wf_dram (by assumption)
    | with_reducible exact Stores.wf_front (by assumption)
    | with_reducible exact Stores.wf_packed (by assumption)
    | with_reducible exact Stores.wf_patch (by assumption)
    | with_reducible exact Stores.wf_sealFront (by assumption)
    | with_reducible exact Stores.wf_sealPatch (by assumption)
    | with_reducible exact Stores.wf_metaFront (by assumption)
    | with_reducible exact Stores.wf_metaPatch (by assumption)
    | with_reducible exact Memory.wf_nil
    | with_reducible refine writeLine_wf _ _ _ _ ?_
    | with_reducible refine clearBytes_wf _ _ _ ?_
    | with_reducible refine copyBytes_wf _ _ _ _ ?_
    | with_reducible refine Memory.wf_set _ _ _ ?_
    | with_reducible refine Memory.wf_filter _ _ ?_
    | with_reducible refine Memory.foldl_wf _ (fun m x hm => ?_) _ _ ?_
    | simp only [↓Chip.cnt_mem, ↓Chip.mapBits_mem, ↓Chip.mem_mk, Stores.eta, Chip.mem_parts, Chip.ite_mem, ite_self]
    | with_reducible refine Stores.wf_mk ?_ ?_ ?_ ?_ ?_ ?_ ?_ ?_
    | split

theorem Chip.storeFront_wf (c : Chip) (dpa : Nat) (l : Line) (poison : Bool) (hw : c.mem.wf = true) : (Chip.storeFront c dpa l poison).mem.wf = true := by
  unfold Chip.storeFront
  try dsimp only
  repeat' first
    | with_reducible assumption
    | with_reducible exact Stores.wf_dram (by assumption)
    | with_reducible exact Stores.wf_front (by assumption)
    | with_reducible exact Stores.wf_packed (by assumption)
    | with_reducible exact Stores.wf_patch (by assumption)
    | with_reducible exact Stores.wf_sealFront (by assumption)
    | with_reducible exact Stores.wf_sealPatch (by assumption)
    | with_reducible exact Stores.wf_metaFront (by assumption)
    | with_reducible exact Stores.wf_metaPatch (by assumption)
    | with_reducible exact Memory.wf_nil
    | with_reducible refine writeLine_wf _ _ _ _ ?_
    | with_reducible refine clearBytes_wf _ _ _ ?_
    | with_reducible refine copyBytes_wf _ _ _ _ ?_
    | with_reducible refine Memory.wf_set _ _ _ ?_
    | with_reducible refine Memory.wf_filter _ _ ?_
    | with_reducible refine Memory.foldl_wf _ (fun m x hm => ?_) _ _ ?_
    | simp only [↓Chip.setDirty_mem, ↓Chip.mem_mk, Stores.eta, Chip.mem_parts, Chip.ite_mem, ite_self]
    | with_reducible refine Stores.wf_mk ?_ ?_ ?_ ?_ ?_ ?_ ?_ ?_
    | split

theorem Chip.storeLine_wf (c : Chip) (dpa : Nat) (l : Line) (poison : Bool) (hw : c.mem.wf = true) : (Chip.storeLine c dpa l poison).mem.wf = true := by
  unfold Chip.storeLine
  try dsimp only
  repeat' first
    | with_reducible assumption
    | split
    | with_reducible refine Chip.storePatch_wf _ _ _ _ ?_
    | with_reducible refine Chip.storeFront_wf _ _ _ _ ?_
    | simp only [↓Chip.healLine_mem, ↓Chip.mem_mk, Stores.eta, Chip.mem_parts]

theorem Chip.dropPatch_wf (c : Chip) (p : Nat) (ls : List Nat) (hw : c.mem.wf = true) : (Chip.dropPatch c p ls).mem.wf = true := by
  unfold Chip.dropPatch
  try dsimp only
  repeat' first
    | with_reducible assumption
    | with_reducible refine Chip.foldl_wf _ (fun c x h => ?_) _ _ ?_
    | (with_reducible rw [Chip.foldl_mem _ (fun c x => by first | rfl | simp only [Chip.mapBits_mem, Chip.mem_mk, Stores.eta, Chip.mem_parts])])
    | with_reducible exact Stores.wf_dram (by assumption)
    | with_reducible exact Stores.wf_front (by assumption)
    | with_reducible exact Stores.wf_packed (by assumption)
    | with_reducible exact Stores.wf_patch (by assumption)
    | with_reducible exact Stores.wf_sealFront (by assumption)
    | with_reducible exact Stores.wf_sealPatch (by assumption)
    | with_reducible exact Stores.wf_metaFront (by assumption)
    | with_reducible exact Stores.wf_metaPatch (by assumption)
    | with_reducible exact Memory.wf_nil
    | with_reducible refine writeLine_wf _ _ _ _ ?_
    | with_reducible refine clearBytes_wf _ _ _ ?_
    | with_reducible refine copyBytes_wf _ _ _ _ ?_
    | with_reducible refine Memory.wf_set _ _ _ ?_
    | with_reducible refine Memory.wf_filter _ _ ?_
    | with_reducible refine Memory.foldl_wf _ (fun m x hm => ?_) _ _ ?_
    | simp only [↓Chip.mapBits_mem, ↓Chip.mem_mk, Stores.eta, Chip.mem_parts, Chip.ite_mem, ite_self]
    | with_reducible refine Stores.wf_mk ?_ ?_ ?_ ?_ ?_ ?_ ?_ ?_
    | split

theorem Chip.recordCopy_wf (c : Chip) (p plen loc : Nat) (bytes : List Host.Cell) (poison : List Nat) (hw : c.mem.wf = true) : (Chip.recordCopy c p plen loc bytes poison).mem.wf = true := by
  unfold Chip.recordCopy
  try dsimp only
  repeat' first
    | with_reducible assumption
    | with_reducible exact Stores.wf_dram (by assumption)
    | with_reducible exact Stores.wf_front (by assumption)
    | with_reducible exact Stores.wf_packed (by assumption)
    | with_reducible exact Stores.wf_patch (by assumption)
    | with_reducible exact Stores.wf_sealFront (by assumption)
    | with_reducible exact Stores.wf_sealPatch (by assumption)
    | with_reducible exact Stores.wf_metaFront (by assumption)
    | with_reducible exact Stores.wf_metaPatch (by assumption)
    | with_reducible exact Memory.wf_nil
    | with_reducible refine writeLine_wf _ _ _ _ ?_
    | with_reducible refine clearBytes_wf _ _ _ ?_
    | with_reducible refine copyBytes_wf _ _ _ _ ?_
    | with_reducible refine Memory.wf_set _ _ _ ?_
    | with_reducible refine Memory.wf_filter _ _ ?_
    | with_reducible refine Memory.foldl_wf _ (fun m x hm => ?_) _ _ ?_
    | simp only [↓Chip.setParcel_mem, ↓Chip.mem_mk, Stores.eta, Chip.mem_parts, Chip.ite_mem, ite_self]
    | with_reducible refine Stores.wf_mk ?_ ?_ ?_ ?_ ?_ ?_ ?_ ?_
    | split

theorem Chip.readLineErrors_wf (c : Chip) (line : Nat) (bad : BitVec 20) (patrol : Bool) (hw : c.mem.wf = true) : (Chip.readLineErrors c line bad patrol).mem.wf = true := by
  unfold Chip.readLineErrors
  try dsimp only
  repeat' first
    | with_reducible assumption
    | split
    | with_reducible refine Chip.storeLine_wf _ _ _ _ ?_
    | simp only [↓Chip.correctedLine_mem, ↓Chip.uncorrectableLine_mem, ↓Chip.mem_mk, Stores.eta, Chip.mem_parts]

theorem Chip.landLine_wf (c : Chip) (line : Nat) (e : WmbEntry) (bad : BitVec 20) (hw : c.mem.wf = true) : (Chip.landLine c line e bad).mem.wf = true := by
  unfold Chip.landLine
  try dsimp only
  repeat' first
    | with_reducible assumption
    | with_reducible refine Chip.storeLine_wf _ _ _ _ ?_
    | with_reducible refine Chip.readLineErrors_wf _ _ _ _ ?_
    | with_reducible refine Stores.wf_dram (Chip.storeLine_wf _ _ _ _ ?_)
    | with_reducible refine Stores.wf_front (Chip.storeLine_wf _ _ _ _ ?_)
    | with_reducible refine Stores.wf_packed (Chip.storeLine_wf _ _ _ _ ?_)
    | with_reducible refine Stores.wf_patch (Chip.storeLine_wf _ _ _ _ ?_)
    | with_reducible refine Stores.wf_sealFront (Chip.storeLine_wf _ _ _ _ ?_)
    | with_reducible refine Stores.wf_sealPatch (Chip.storeLine_wf _ _ _ _ ?_)
    | with_reducible refine Stores.wf_metaFront (Chip.storeLine_wf _ _ _ _ ?_)
    | with_reducible refine Stores.wf_metaPatch (Chip.storeLine_wf _ _ _ _ ?_)
    | with_reducible refine Stores.wf_dram (Chip.readLineErrors_wf _ _ _ _ ?_)
    | with_reducible refine Stores.wf_front (Chip.readLineErrors_wf _ _ _ _ ?_)
    | with_reducible refine Stores.wf_packed (Chip.readLineErrors_wf _ _ _ _ ?_)
    | with_reducible refine Stores.wf_patch (Chip.readLineErrors_wf _ _ _ _ ?_)
    | with_reducible refine Stores.wf_sealFront (Chip.readLineErrors_wf _ _ _ _ ?_)
    | with_reducible refine Stores.wf_sealPatch (Chip.readLineErrors_wf _ _ _ _ ?_)
    | with_reducible refine Stores.wf_metaFront (Chip.readLineErrors_wf _ _ _ _ ?_)
    | with_reducible refine Stores.wf_metaPatch (Chip.readLineErrors_wf _ _ _ _ ?_)
    | with_reducible exact Stores.wf_dram (by assumption)
    | with_reducible exact Stores.wf_front (by assumption)
    | with_reducible exact Stores.wf_packed (by assumption)
    | with_reducible exact Stores.wf_patch (by assumption)
    | with_reducible exact Stores.wf_sealFront (by assumption)
    | with_reducible exact Stores.wf_sealPatch (by assumption)
    | with_reducible exact Stores.wf_metaFront (by assumption)
    | with_reducible exact Stores.wf_metaPatch (by assumption)
    | with_reducible exact Memory.wf_nil
    | with_reducible refine writeLine_wf _ _ _ _ ?_
    | with_reducible refine clearBytes_wf _ _ _ ?_
    | with_reducible refine copyBytes_wf _ _ _ _ ?_
    | with_reducible refine Memory.wf_set _ _ _ ?_
    | with_reducible refine Memory.wf_filter _ _ ?_
    | with_reducible refine Memory.foldl_wf _ (fun m x hm => ?_) _ _ ?_
    | simp only [↓Chip.writePair_mem, ↓Chip.landPatched_mem, ↓Chip.mem_mk, Stores.eta, Chip.mem_parts, Chip.ite_mem, ite_self]
    | with_reducible refine Stores.wf_mk ?_ ?_ ?_ ?_ ?_ ?_ ?_ ?_
    | split

theorem Chip.drainLands_wf (c : Chip) (line : Nat) (e : WmbEntry) (bad : BitVec 20) (hw : c.mem.wf = true) : (Chip.drainLands c line e bad).mem.wf = true := by
  unfold Chip.drainLands
  try dsimp only
  repeat' first
    | with_reducible assumption
    | split
    | with_reducible refine Chip.landLine_wf _ _ _ _ ?_
    | simp only [↓Chip.cnt_mem, ↓Chip.setWmb_mem, ↓Chip.releaseHere_mem, ↓Chip.mem_mk, Stores.eta, Chip.mem_parts]

theorem Chip.writeCopy_wf (c : Chip) (p stream : Nat) (bytes : List Host.Cell) (poison : List Nat) {c' : Chip}
    (hc : c.writeCopy p stream bytes poison = some c') (h : c.mem.wf = true) : c'.mem.wf = true := by
  have hr : ∀ (x : Chip) (o : ParcelEntry) (a b : Nat), x.mem.wf = true → (((x.forget o).recordCopy p a b bytes poison).cancelMove p).mem.wf = true := by
    intro x o a b hx
    rw [Chip.cancelMove_mem]
    refine Chip.recordCopy_wf _ _ _ _ _ _ ?_
    rw [Chip.forget_mem]
    exact hx
  have hm : ∀ (x : Chip) (n : Nat), ({ x with mde := { x.mde with hostDerived := n } } : Chip).mem = x.mem := fun x n => rfl
  unfold Chip.writeCopy at hc
  simp only [] at hc
  split at hc
  · cases hc
    exact hr _ _ _ _ h
  · split at hc
    · cases hc
    · rename_i y hy
      have hd := Chip.stageCopy_mem c _ _ _ hy
      cases hc
      split
      · rw [Chip.cnt_mem, hm, Chip.cnt_mem, Chip.cnt_mem]
        exact hr _ _ _ _ (by rw [hd]; exact h)
      · rw [Chip.cnt_mem, Chip.cnt_mem]
        exact hr _ _ _ _ (by rw [hd]; exact h)

theorem Chip.mergePatch_wf (c : Chip) (p : Nat) {c' : Chip} (hc : c.mergePatch p = some c') (h : c.mem.wf = true) : c'.mem.wf = true := by
  unfold Chip.mergePatch at hc
  extract_lets ls at hc
  split at hc
  · cases hc
  · rename_i y hy
    cases hc
    rw [Chip.cnt_mem, Chip.cnt_mem]
    refine Chip.dropPatch_wf _ _ _ (Chip.writeCopy_wf _ _ _ _ _ hy ?_)
    rw [Chip.readPatch_mem]
    exact h

theorem Chip.mergeRead_wf (c : Chip) (p : Nat) (h : c.mem.wf = true) : (c.mergeRead p).mem.wf = true := by
  unfold Chip.mergeRead
  simp only []
  split
  · rename_i d hd
    exact Chip.mergePatch_wf _ p hd h
  · exact h

theorem Chip.arrayServed_wf (c : Chip) (p gen : Nat) (direct : Bool) (hw : c.mem.wf = true) : (Chip.arrayServed c p gen direct).mem.wf = true := by
  unfold Chip.arrayServed
  try dsimp only
  repeat' first
    | with_reducible assumption
    | split
    | with_reducible refine Chip.mergeRead_wf _ _ ?_
    | with_reducible refine Chip.continueTags_wf _ _ _ (fun c t h => ?_) ?_
    | simp only [↓Chip.pcacheFillWith_mem, ↓Chip.serveFull_mem, ↓Chip.runCommons_mem, ↓Chip.moveRead_mem, ↓Chip.mem_mk, Stores.eta,
        Chip.mem_parts]

theorem Chip.rebuildParcel_wf (c : Chip) (twin : Option Chip) (p : Nat) (hw : c.mem.wf = true) : (Chip.rebuildParcel c twin p).mem.wf = true := by
  unfold Chip.rebuildParcel
  try dsimp only
  repeat' first
    | with_reducible assumption
    | split
    | with_reducible refine Chip.writeCopy_wf _ _ _ _ _ (by assumption) ?_
    | simp only [↓Chip.cnt_mem, ↓Chip.dlo_mem, ↓Chip.repairParcel_mem, ↓Chip.copyLost_mem, ↓Chip.mem_mk, Stores.eta, Chip.mem_parts]

theorem Chip.rebuildRow_wf (twin : Option Chip) (m : Nat) (c : Chip) (x : Nat × MdeRow) (hw : c.mem.wf = true) : (Chip.rebuildRow twin m c x).mem.wf = true := by
  unfold Chip.rebuildRow
  try dsimp only
  repeat' first
    | with_reducible assumption
    | split
    | with_reducible refine Chip.rebuildParcel_wf _ _ _ ?_
    | with_reducible refine Chip.foldl_wf _ (fun c x h => ?_) _ _ ?_
    | (with_reducible rw [Chip.foldl_mem _ (fun c x => by first | rfl | simp only [Chip.cnt_mem, Chip.setRow_mem, Chip.moveRow_mem, Chip.mem_mk, Stores.eta, Chip.mem_parts])])
    | simp only [↓Chip.cnt_mem, ↓Chip.setRow_mem, ↓Chip.moveRow_mem, ↓Chip.mem_mk, Stores.eta, Chip.mem_parts]

theorem Chip.rebuild_wf (c : Chip) (m : Nat) (twin : Option Chip) (hw : c.mem.wf = true) : (Chip.rebuild c m twin).mem.wf = true := by
  unfold Chip.rebuild
  try dsimp only
  repeat' first
    | with_reducible assumption
    | split
    | with_reducible refine Chip.rebuildRow_wf _ _ _ _ ?_
    | with_reducible refine Chip.foldl_wf _ (fun c x h => ?_) _ _ ?_
    | (with_reducible rw [Chip.foldl_mem _ (fun c x => by first | rfl | simp only [Chip.put_mem, Chip.raise_mem, Chip.setModule_mem, Chip.mem_mk, Stores.eta, Chip.mem_parts])])
    | simp only [↓Chip.put_mem, ↓Chip.raise_mem, ↓Chip.setModule_mem, ↓Chip.mem_mk, Stores.eta, Chip.mem_parts]

theorem Chip.formatted_wf (c : Chip) (x : MediaScan) (hw : c.mem.wf = true) : (Chip.formatted c x).mem.wf = true := by
  unfold Chip.formatted
  try dsimp only
  repeat' first
    | with_reducible assumption
    | with_reducible refine Chip.foldl_wf _ (fun c x h => ?_) _ _ ?_
    | (with_reducible rw [Chip.foldl_mem _ (fun c x => by first | rfl | simp only [Chip.setModule_mem, Chip.showMount_mem, Chip.mem_mk, Stores.eta, Chip.mem_parts])])
    | with_reducible exact Stores.wf_dram (by assumption)
    | with_reducible exact Stores.wf_front (by assumption)
    | with_reducible exact Stores.wf_packed (by assumption)
    | with_reducible exact Stores.wf_patch (by assumption)
    | with_reducible exact Stores.wf_sealFront (by assumption)
    | with_reducible exact Stores.wf_sealPatch (by assumption)
    | with_reducible exact Stores.wf_metaFront (by assumption)
    | with_reducible exact Stores.wf_metaPatch (by assumption)
    | with_reducible exact Memory.wf_nil
    | with_reducible refine writeLine_wf _ _ _ _ ?_
    | with_reducible refine clearBytes_wf _ _ _ ?_
    | with_reducible refine copyBytes_wf _ _ _ _ ?_
    | with_reducible refine Memory.wf_set _ _ _ ?_
    | with_reducible refine Memory.wf_filter _ _ ?_
    | with_reducible refine Memory.foldl_wf _ (fun m x hm => ?_) _ _ ?_
    | simp only [↓Chip.setModule_mem, ↓Chip.showMount_mem, ↓Chip.mem_mk, Stores.eta, Chip.mem_parts, Chip.ite_mem, ite_self]
    | with_reducible refine Stores.wf_mk ?_ ?_ ?_ ?_ ?_ ?_ ?_ ?_
    | split

theorem Chip.discardParcel_wf (c : Chip) (p : Nat) (h : c.mem.wf = true) : (c.discardParcel p).mem.wf = true := by
  unfold Chip.discardParcel
  extract_lets old c1 s1 c2 s2 c3
  have h1 : c1.mem.wf = true := by
    show ((c.dropPatch p (c.patchOf p)).pcacheDrop p).mem.wf = true
    rw [Chip.pcacheDrop_mem]
    exact Chip.dropPatch_wf c p _ h
  clear_value c1
  have h2 : c2.mem.wf = true := h1
  clear_value c2
  split
  · exact h2
  · have h3 : c3.mem.wf = true :=
      Stores.wf_mk (Stores.wf_dram h2) (Stores.wf_front h2) (clearBytes_wf _ _ _ (Stores.wf_packed h2)) (Stores.wf_patch h2)
        (Stores.wf_sealFront h2) (Stores.wf_sealPatch h2) (Stores.wf_metaFront h2) (Stores.wf_metaPatch h2)
    rw [Chip.setParcel_mem, Chip.forget_mem]
    exact h3

theorem Chip.discardExtent_wf (c : Chip) (e : Nat) (hw : c.mem.wf = true) : (Chip.discardExtent c e).mem.wf = true := by
  unfold Chip.discardExtent
  try dsimp only
  repeat' first
    | with_reducible assumption
    | split
    | with_reducible refine Chip.discardParcel_wf _ _ ?_
    | with_reducible refine Chip.foldl_wf _ (fun c x h => ?_) _ _ ?_
    | (with_reducible rw [Chip.foldl_mem _ (fun c x => by first | rfl | simp only [Chip.mapExt_mem, Chip.tcInvalidate_mem, Chip.releaseFrame_mem, Chip.endMig_mem, Chip.mem_mk, Stores.eta, Chip.mem_parts])])
    | simp only [↓Chip.mapExt_mem, ↓Chip.tcInvalidate_mem, ↓Chip.releaseFrame_mem, ↓Chip.endMig_mem, ↓Chip.mem_mk, Stores.eta,
        Chip.mem_parts]

theorem Chip.enterState_wf (c : Chip) (e st : Nat) (hw : c.mem.wf = true) : (Chip.enterState c e st).mem.wf = true := by
  unfold Chip.enterState
  try dsimp only
  repeat' first
    | with_reducible assumption
    | split
    | with_reducible refine Chip.takeFrame_wf _ _ ?_
    | with_reducible refine Chip.discardExtent_wf _ _ ?_
    | with_reducible refine Chip.foldl_wf _ (fun c x h => ?_) _ _ ?_
    | (with_reducible rw [Chip.foldl_mem _ (fun c x => by first | rfl | simp only [Chip.cnt_mem, Chip.peak_mem, Chip.markChange_mem, Chip.mapExt_mem, Chip.tcInvalidate_mem, Chip.releaseFrame_mem, Chip.pcacheDrop_mem, Chip.endMig_mem, Chip.startMig_mem, Chip.migDone_mem, Chip.evictHeld_mem, Chip.mem_mk, Stores.eta, Chip.mem_parts])])
    | simp only [↓Chip.cnt_mem, ↓Chip.peak_mem, ↓Chip.markChange_mem, ↓Chip.mapExt_mem, ↓Chip.tcInvalidate_mem, ↓Chip.releaseFrame_mem,
        ↓Chip.pcacheDrop_mem, ↓Chip.endMig_mem, ↓Chip.startMig_mem, ↓Chip.migDone_mem, ↓Chip.evictHeld_mem, ↓Chip.mem_mk, Stores.eta,
        Chip.mem_parts]

theorem Chip.giveFrames_wf (c : Chip) (hw : c.mem.wf = true) : (Chip.giveFrames c).mem.wf = true := by
  unfold Chip.giveFrames
  try dsimp only
  repeat' first
    | with_reducible assumption
    | split
    | with_reducible refine Chip.takeFrame_wf _ _ ?_
    | with_reducible refine Chip.foldl_wf _ (fun c x h => ?_) _ _ ?_
    | (with_reducible rw [Chip.foldl_mem _ (fun c x => by first | rfl | simp only [Chip.mem_mk, Stores.eta, Chip.mem_parts])])
    | simp only [↓Chip.mem_mk, Stores.eta, Chip.mem_parts]

theorem Chip.migJob_wf (c : Chip) (hw : c.mem.wf = true) : (Chip.migJob c).mem.wf = true := by
  unfold Chip.migJob
  try dsimp only
  repeat' first
    | with_reducible assumption
    | split
    | with_reducible refine Chip.giveFrames_wf _ ?_
    | simp only [↓Chip.issueSteps_mem, ↓Chip.keeperDecides_mem, ↓Chip.keeperFills_mem, ↓Chip.notePoolLow_mem, ↓Chip.sweepIfLow_mem,
        ↓Chip.noteOverCap_mem, ↓Chip.mem_mk, Stores.eta, Chip.mem_parts]

theorem Chip.domainChanged_wf (c old : Chip) (d : Nat) (h : c.mem.wf = true) : (c.domainChanged old d).mem.wf = true := by
  unfold Chip.domainChanged
  extract_lets moved gone c1 c2 s1 c3 c4
  have h1 : c1.mem.wf = true := Chip.foldl_wf _ (fun c e h => Chip.enterState_wf c e 0 h) gone c h
  have h2 : c2.mem = c1.mem := by
    show (if moved = true then _ else c1).mem = c1.mem
    split
    · exact Chip.foldl_mem _ Chip.dropObject_mem _ c1
    · rfl
  have h3 : c3.mem = c2.mem := by
    show (if moved = true then Chip.dropKey _ d else c2).mem = c2.mem
    split
    · rw [Chip.dropKey_mem]
      rfl
    · rfl
  have h4 : c4.mem = c3.mem := by
    show (if c3.isKeeper = true then _ else c3).mem = c3.mem
    split
    · exact Chip.foldl_mem _ Chip.judgePolicy_mem _ c3
    · rfl
  rw [Chip.raise_mem, Chip.cdatFollow_mem, Chip.routesAfterDomain_mem, h4, h3, h2]
  exact h1

theorem Chip.domainWrite_wf (c : Chip) (d reg : Nat) (data : Word) (cap pool : Nat) (h : c.mem.wf = true) :
    (c.domainWrite d reg data cap pool).1.mem.wf = true := by
  unfold Chip.domainWrite
  extract_lets v y x code
  have hy : y.mem.wf = true := by
    show (c.wr 0x0A1 (domOff d reg) v).mem.wf = true
    rw [Chip.wr_mem]
    exact h
  have hx : x.mem.wf = true := by
    show (y.setUsed 0x0A1 (domOff d reg) v).mem.wf = true
    rw [Chip.setUsed_mem]
    exact hy
  split
  · exact hy
  · split
    · show (c.reject 0x0A1 code (domOff d reg)).mem.wf = true
      rw [Chip.reject_mem]
      exact h
    · exact Chip.domainChanged_wf x c d hx

theorem Chip.copyStepDone_wf (c : Chip) (p : Nat) (hw : c.mem.wf = true) : (Chip.copyStepDone c p).mem.wf = true := by
  unfold Chip.copyStepDone
  try dsimp only
  repeat' first
    | with_reducible assumption
    | with_reducible refine Chip.dropPatch_wf _ _ _ ?_
    | with_reducible refine Chip.foldl_wf _ (fun c x h => ?_) _ _ ?_
    | (with_reducible rw [Chip.foldl_mem _ (fun c x => by first | rfl | simp only [Chip.cnt_mem, Chip.setDirty_mem, Chip.migDone_mem, Chip.mem_mk, Stores.eta, Chip.mem_parts])])
    | with_reducible refine Stores.wf_dram (Chip.dropPatch_wf _ _ _ ?_)
    | with_reducible refine Stores.wf_front (Chip.dropPatch_wf _ _ _ ?_)
    | with_reducible refine Stores.wf_packed (Chip.dropPatch_wf _ _ _ ?_)
    | with_reducible refine Stores.wf_patch (Chip.dropPatch_wf _ _ _ ?_)
    | with_reducible refine Stores.wf_sealFront (Chip.dropPatch_wf _ _ _ ?_)
    | with_reducible refine Stores.wf_sealPatch (Chip.dropPatch_wf _ _ _ ?_)
    | with_reducible refine Stores.wf_metaFront (Chip.dropPatch_wf _ _ _ ?_)
    | with_reducible refine Stores.wf_metaPatch (Chip.dropPatch_wf _ _ _ ?_)
    | with_reducible exact Stores.wf_dram (by assumption)
    | with_reducible exact Stores.wf_front (by assumption)
    | with_reducible exact Stores.wf_packed (by assumption)
    | with_reducible exact Stores.wf_patch (by assumption)
    | with_reducible exact Stores.wf_sealFront (by assumption)
    | with_reducible exact Stores.wf_sealPatch (by assumption)
    | with_reducible exact Stores.wf_metaFront (by assumption)
    | with_reducible exact Stores.wf_metaPatch (by assumption)
    | with_reducible exact Memory.wf_nil
    | with_reducible refine writeLine_wf _ _ _ _ ?_
    | with_reducible refine clearBytes_wf _ _ _ ?_
    | with_reducible refine copyBytes_wf _ _ _ _ ?_
    | with_reducible refine Memory.wf_set _ _ _ ?_
    | with_reducible refine Memory.wf_filter _ _ ?_
    | with_reducible refine Memory.foldl_wf _ (fun m x hm => ?_) _ _ ?_
    | simp only [↓Chip.cnt_mem, ↓Chip.setDirty_mem, ↓Chip.migDone_mem, ↓Chip.mem_mk, Stores.eta, Chip.mem_parts, Chip.ite_mem, ite_self]
    | with_reducible refine Stores.wf_mk ?_ ?_ ?_ ?_ ?_ ?_ ?_ ?_
    | split

theorem Chip.packStepDone_wf (c : Chip) (p : Nat) (drained : Bool) (hw : c.mem.wf = true) : (Chip.packStepDone c p drained).mem.wf = true := by
  unfold Chip.packStepDone
  try dsimp only
  repeat' first
    | with_reducible assumption
    | split
    | with_reducible refine Chip.writeCopy_wf _ _ _ _ _ (by assumption) ?_
    | simp only [↓Chip.cnt_mem, ↓Chip.setDirty_mem, ↓Chip.migDone_mem, ↓Chip.mem_mk, Stores.eta, Chip.mem_parts]

theorem Chip.frameFree_wf (c : Chip) (f : Nat) (hw : c.mem.wf = true) : (Chip.frameFree c f).mem.wf = true := by
  unfold Chip.frameFree
  try dsimp only
  repeat' first
    | with_reducible assumption
    | with_reducible exact Stores.wf_dram (by assumption)
    | with_reducible exact Stores.wf_front (by assumption)
    | with_reducible exact Stores.wf_packed (by assumption)
    | with_reducible exact Stores.wf_patch (by assumption)
    | with_reducible exact Stores.wf_sealFront (by assumption)
    | with_reducible exact Stores.wf_sealPatch (by assumption)
    | with_reducible exact Stores.wf_metaFront (by assumption)
    | with_reducible exact Stores.wf_metaPatch (by assumption)
    | with_reducible exact Memory.wf_nil
    | with_reducible refine writeLine_wf _ _ _ _ ?_
    | with_reducible refine clearBytes_wf _ _ _ ?_
    | with_reducible refine copyBytes_wf _ _ _ _ ?_
    | with_reducible refine Memory.wf_set _ _ _ ?_
    | with_reducible refine Memory.wf_filter _ _ ?_
    | with_reducible refine Memory.foldl_wf _ (fun m x hm => ?_) _ _ ?_
    | simp only [↓Chip.mem_mk, Stores.eta, Chip.mem_parts, Chip.ite_mem, ite_self]
    | with_reducible refine Stores.wf_mk ?_ ?_ ?_ ?_ ?_ ?_ ?_ ?_
    | split

theorem Chip.journalRound_wf (c : Chip) (h : c.mem.wf = true) : (c.journalRound).mem.wf = true := by
  unfold Chip.journalRound
  split
  · exact h
  · extract_lets s1 c1 c2 s2
    have h1 : c1.mem.wf = true :=
      Stores.wf_mk (Stores.wf_dram h) (Stores.wf_front h) (Stores.wf_packed h) (Stores.wf_patch h) (Stores.wf_sealFront h) (Stores.wf_sealPatch h)
        rfl rfl
    have h2 : c2.mem.wf = true := by
      show (Chip.peak c1 _ _).mem.wf = true
      rw [Chip.peak_mem]
      exact h1
    split
    · rw [Chip.cnt_mem]
      exact h2
    · exact h2

theorem Chip.keepSeal_wf (c : Chip) (img : Image) (x : Seal) (us tprogUs rate : Nat) (h : c.mem.wf = true)
    (hf : Memory.wf img.front = true) (hp : Memory.wf img.patch = true) : (c.keepSeal img x us tprogUs rate).mem.wf = true :=
  Stores.wf_mk (Stores.wf_dram h) (Stores.wf_front h) (Stores.wf_packed h) (Stores.wf_patch h) hf hp (Stores.wf_metaFront h) (Stores.wf_metaPatch h)

theorem Chip.saveImage_wf (c : Chip) (h : c.mem.wf = true) : Memory.wf c.saveImage.front = true ∧ Memory.wf c.saveImage.patch = true :=
  ⟨Memory.wf_filter _ _ (Stores.wf_front h), Stores.wf_patch h⟩

theorem Chip.sealSave_wf (c : Chip) (us tprogUs : Nat) (bad : List Nat) (h : c.mem.wf = true) : (c.sealSave us tprogUs bad).mem.wf = true := by
  unfold Chip.sealSave
  extract_lets bytes c1 s1 img
  have h1 : c1.mem.wf = true := by
    show (c.saveReads _).mem.wf = true
    rw [Chip.saveReads_mem]
    exact h
  clear_value c1
  have hi := Chip.saveImage_wf c1 h1
  have hg : ∀ (i : Image) (x : List Nat), ({ i with repairDue := x } : Image).front = i.front ∧ ({ i with repairDue := x } : Image).patch = i.patch :=
    fun i x => ⟨rfl, rfl⟩
  have hx := hg c1.saveImage ((bad.map lineBase).foldl insertN c1.trm.repairDue)
  rw [← hx.1, ← hx.2] at hi
  have hf : Memory.wf img.front = true := hi.1
  have hp : Memory.wf img.patch = true := hi.2
  clear hi hx hg
  clear_value img
  have h2 : (c1.takeInsole bytes).1.mem.wf = true := by
    rw [Chip.takeInsole_mem]
    exact h1
  clear_value bytes
  split
  rename_i c2 first n ht
  rw [ht] at h2
  rw [Chip.put_mem, Chip.resetAfterSave_mem, Chip.showLastSave_mem]
  exact Chip.keepSeal_wf _ _ _ _ _ _ h2 hf hp

theorem Chip.restoreImage_wf (c : Chip) (h : c.mem.wf = true) :
    Memory.wf c.restoreImage.front = true ∧ Memory.wf c.restoreImage.patch = true := by
  unfold Chip.restoreImage
  extract_lets current
  split
  · exact ⟨Stores.wf_metaFront h, Stores.wf_metaPatch h⟩
  · split
    · exact ⟨Stores.wf_sealFront h, Stores.wf_sealPatch h⟩
    · exact ⟨Stores.wf_sealFront h, Stores.wf_sealPatch h⟩

theorem Chip.loadMeta_wf (c : Chip) (h : c.mem.wf = true) : (c.loadMeta).mem.wf = true := by
  have hi := Chip.restoreImage_wf c h
  unfold Chip.loadMeta
  generalize c.restoreImage = i at hi
  extract_lets i dirty c1 back ext s1 s2 s3 s4 s5 s6 c2 c3 s7 s8 c4 c5 lost s9 cm c6
  have h1 : c1.mem.wf = true := by
    show (c.loadPairFields i.pairFields).mem.wf = true
    rw [Chip.loadPairFields_mem]
    exact h
  clear_value c1
  have h2 : c2.mem.wf = true :=
    Stores.wf_mk (Stores.wf_dram h1) (Stores.wf_front h1) (Stores.wf_packed h1) hi.2 (Stores.wf_sealFront h1) (Stores.wf_sealPatch h1)
      (Stores.wf_metaFront h1) (Stores.wf_metaPatch h1)
  clear_value c2
  have h3 : c3.mem.wf = true := by
    show (Chip.chainAll c2).mem.wf = true
    rw [Chip.chainAll_mem]
    exact h2
  clear_value c3
  have h4 : c4.mem.wf = true := h3
  clear_value c4
  have h5 : c5.mem.wf = true := by
    show (Chip.showChangeMap c4 i).mem.wf = true
    rw [Chip.showChangeMap_mem]
    exact h4
  have h6 : c6.mem.wf = true := by
    show (if dirty = true then _ else c5).mem.wf = true
    split
    · rw [Chip.raise_mem, Chip.put_mem]
      exact h5
    · exact h5
  rw [Chip.put_mem]
  exact h6

theorem Chip.restoreFront_wf (c : Chip) (i : Image) (e : Nat) (h : c.mem.wf = true) : (c.restoreFront i e).mem.wf = true := by
  have h1 := Chip.takeFrame_wf c e h
  unfold Chip.restoreFront
  extract_lets c1 c2
  have h2 : c2.mem.wf = true := by
    show (match c1.frameOf e with | some f => c1.setReady (c1.rangeOf f) | none => c1).mem.wf = true
    split
    · rw [Chip.setReady_mem]
      exact h1
    · exact h1
  clear_value c2
  refine Chip.foldl_wf _ (fun c p h => ?_) _ _ ?_
  · extract_lets saved src poison ls front front2 poison2 s1 c3
    have hf : Memory.wf front2 = true :=
      Memory.foldl_wf _ (fun m l hm => writeLine_wf m l _ _ hm) _ _ (copyBytes_wf _ _ _ _ (Stores.wf_front h))
    have h3 : c3.mem.wf = true :=
      Stores.wf_mk (Stores.wf_dram h) hf (Stores.wf_packed h) (Stores.wf_patch h) (Stores.wf_sealFront h) (Stores.wf_sealPatch h)
        (Stores.wf_metaFront h) (Stores.wf_metaPatch h)
    rw [Chip.setDirty_mem]
    split
    · exact h3
    · exact Chip.dropPatch_wf _ _ _ h3
  · rw [Chip.mapExt_mem]
    exact h2

theorem Chip.loadData_wf (c : Chip) (h : c.mem.wf = true) : (c.loadData).mem.wf = true := by
  unfold Chip.loadData
  extract_lets i again c1 es c2 c3 refill
  have h2 : c2.mem.wf = true := Chip.foldl_wf _ (fun c e h => Chip.restoreFront_wf c i e h) es c1 h
  clear_value c2
  have h3 : c3.mem.wf = true := by
    show (if _ then _ else c2).mem.wf = true
    split
    · rw [Chip.loseRecords_mem]
      exact h2
    · exact h2
  exact h3

theorem Chip.checkpoint_wf (c : Chip) (h : c.mem.wf = true) : (c.checkpoint).mem.wf = true := by
  unfold Chip.checkpoint
  extract_lets rows s1 c1
  have h1 : c1.mem.wf = true :=
    Stores.wf_mk (Stores.wf_dram h) (Stores.wf_front h) (Stores.wf_packed h) (Stores.wf_patch h) (Stores.wf_sealFront h) (Stores.wf_sealPatch h)
      rfl rfl
  clear_value c1
  exact Chip.foldl_wf _ (fun c r h => by rw [Chip.setRow_mem]; exact h) rows c1 h1

theorem Chip.setDramByte_wf (c : Chip) (x : Nat) (b : Byte) (hw : c.mem.wf = true) : (Chip.setDramByte c x b).mem.wf = true := by
  unfold Chip.setDramByte
  try dsimp only
  repeat' first
    | with_reducible assumption
    | with_reducible exact Stores.wf_dram (by assumption)
    | with_reducible exact Stores.wf_front (by assumption)
    | with_reducible exact Stores.wf_packed (by assumption)
    | with_reducible exact Stores.wf_patch (by assumption)
    | with_reducible exact Stores.wf_sealFront (by assumption)
    | with_reducible exact Stores.wf_sealPatch (by assumption)
    | with_reducible exact Stores.wf_metaFront (by assumption)
    | with_reducible exact Stores.wf_metaPatch (by assumption)
    | with_reducible exact Memory.wf_nil
    | with_reducible refine writeLine_wf _ _ _ _ ?_
    | with_reducible refine clearBytes_wf _ _ _ ?_
    | with_reducible refine copyBytes_wf _ _ _ _ ?_
    | with_reducible refine Memory.wf_set _ _ _ ?_
    | with_reducible refine Memory.wf_filter _ _ ?_
    | with_reducible refine Memory.foldl_wf _ (fun m x hm => ?_) _ _ ?_
    | simp only [↓Chip.mem_mk, Stores.eta, Chip.mem_parts, Chip.ite_mem, ite_self]
    | with_reducible refine Stores.wf_mk ?_ ?_ ?_ ?_ ?_ ?_ ?_ ?_
    | split

theorem Chip.setCoreByte_wf (c : Chip) (n : Nat) (p : CorePlace) (i : Nat) (b : Byte) (hw : c.mem.wf = true) : (Chip.setCoreByte c n p i b).mem.wf = true := by
  unfold Chip.setCoreByte
  try dsimp only
  repeat' first
    | with_reducible assumption
    | split
    | with_reducible refine Chip.setDramByte_wf _ _ _ ?_
    | simp only [↓Chip.mapCore_mem, ↓Chip.mem_mk, Stores.eta, Chip.mem_parts]

theorem Chip.coreStore_wf (c : Chip) (n : Nat) (p : CorePlace) (bytes v : Nat) (hw : c.mem.wf = true) : (Chip.coreStore c n p bytes v).mem.wf = true := by
  unfold Chip.coreStore
  try dsimp only
  repeat' first
    | with_reducible assumption
    | split
    | with_reducible refine Chip.setCoreByte_wf _ _ _ _ _ ?_
    | with_reducible refine Chip.foldl_wf _ (fun c x h => ?_) _ _ ?_
    | (with_reducible rw [Chip.foldl_mem _ (fun c x => by first | rfl | simp only [Chip.mapCore_mem, Chip.mem_mk, Stores.eta, Chip.mem_parts])])
    | simp only [↓Chip.mapCore_mem, ↓Chip.mem_mk, Stores.eta, Chip.mem_parts]

theorem Chip.atomicAt_wf (c : Chip) (n : Nat) (op : AtomicOp) (p : CorePlace) (rd : Nat) (v bits : Nat) (hw : c.mem.wf = true) : (Chip.atomicAt c n op p rd v bits).mem.wf = true := by
  unfold Chip.atomicAt
  try dsimp only
  repeat' first
    | with_reducible assumption
    | split
    | with_reducible refine Chip.coreStore_wf _ _ _ _ _ ?_
    | simp only [↓Chip.mapCore_mem, ↓Chip.setCoreReg_mem, ↓Chip.coreOwes_mem, ↓Chip.mem_mk, Stores.eta, Chip.mem_parts]

theorem Chip.inReset_wf (c : Chip) (cause : Nat) (h : c.mem.wf = true) : (c.inReset cause).mem.wf = true := by
  unfold Chip.inReset
  extract_lets s s1 s3 n m s2
  have h1 : n.mem.wf = true :=
    Stores.wf_mk rfl rfl (Stores.wf_packed h) rfl (Stores.wf_sealFront h) (Stores.wf_sealPatch h) (Stores.wf_metaFront h) (Stores.wf_metaPatch h)
  have h2 : m.mem = n.mem := Chip.foldl_mem _ (fun n f => Chip.put_mem n f _) (keptFields cause) n
  rw [← h2] at h1
  clear_value m
  split
  · rw [Chip.put_mem]
    exact h1
  · exact h1

theorem Chip.spdm_wf (c : Chip) (h : Fin 24) (needs : Nat) (f : Chip → Chip) (hf : ∀ c : Chip, c.mem.wf = true → (f c).mem.wf = true)
    (hw : c.mem.wf = true) : (c.spdm h needs f).mem.wf = true := by
  unfold Chip.spdm
  try simp only []
  split
  · rw [Chip.setDoe_mem, Chip.cnt_mem]
    exact hw
  · exact hf _ (by rw [Chip.cnt_mem]; exact hw)

theorem Chip.inSession_wf (c : Chip) (h : Fin 24) (id : Nat) (f : Chip → Chip) (hf : ∀ c : Chip, c.mem.wf = true → (f c).mem.wf = true)
    (hw : c.mem.wf = true) : (c.inSession h id f).mem.wf = true := by
  unfold Chip.inSession
  try simp only []
  split
  · exact hf c hw
  · rw [Chip.setDoe_mem]
    exact hw

theorem Chip.tapLoad_wf (c : Chip) (code : Nat) (hw : c.mem.wf = true) : (Chip.tapLoad c code).mem.wf = true := by
  unfold Chip.tapLoad
  try dsimp only
  repeat' first
    | with_reducible assumption
    | split
    | with_reducible refine Chip.inReset_wf _ _ ?_
    | simp only [↓Chip.put_mem, ↓Chip.mem_mk, Stores.eta, Chip.mem_parts]

theorem Chip.keyGone_wf (d : Nat) (c : Chip) (hw : c.mem.wf = true) : (Chip.keyGone d c).mem.wf = true := by
  unfold Chip.keyGone
  try dsimp only
  repeat' first
    | with_reducible assumption
    | split
    | with_reducible refine Chip.checkpoint_wf _ ?_
    | simp only [↓Chip.mem_mk, Stores.eta, Chip.mem_parts]

theorem Chip.eraseDomain_wf (c : Chip) (d : Nat) (key : Option (BitVec 512)) (hw : c.mem.wf = true) : (Chip.eraseDomain c d key).mem.wf = true := by
  unfold Chip.eraseDomain
  try dsimp only
  repeat' first
    | with_reducible assumption
    | split
    | with_reducible refine Chip.discardExtent_wf _ _ ?_
    | with_reducible refine Chip.foldl_wf _ (fun c x h => ?_) _ _ ?_
    | (with_reducible rw [Chip.foldl_mem _ (fun c x => by first | rfl | simp only [Chip.markChange_mem, Chip.setWmb_mem, Chip.releaseHere_mem, Chip.mem_mk, Stores.eta, Chip.mem_parts])])
    | simp only [↓Chip.markChange_mem, ↓Chip.setWmb_mem, ↓Chip.releaseHere_mem, ↓Chip.mem_mk, Stores.eta, Chip.mem_parts]

theorem Chip.applyExtent_wf (c : Chip) (e st : Nat) (hw : c.mem.wf = true) : (Chip.applyExtent c e st).mem.wf = true := by
  unfold Chip.applyExtent
  try dsimp only
  repeat' first
    | with_reducible assumption
    | split
    | with_reducible refine Chip.enterState_wf _ _ _ ?_
    | simp only [↓Chip.slipsArrive_mem, ↓Chip.rejudge_mem, ↓Chip.rangeChecks_mem, ↓Chip.mem_mk, Stores.eta, Chip.mem_parts]

theorem Chip.applyKeys_wf (c : Chip) (e : Effect) (h : c.mem.wf = true) : (c.applyKeys e).mem.wf = true := by
  unfold Chip.applyKeys
  split
  · exact Chip.eraseDomain_wf c _ _ h
  · with_reducible refine Chip.foldl_wf _ (fun c x h => ?_) _ _ h
    exact Chip.eraseDomain_wf c x.1 (some x.2) h
  · exact h
  · exact h
  · exact h

theorem Chip.applyChip_wf (c : Chip) (mine : Bool) (w : Twin) (e : Effect) (h : c.mem.wf = true) : (c.applyChip mine w e).mem.wf = true := by
  unfold Chip.applyChip
  repeat' first
    | with_reducible assumption
    | split
    | with_reducible exact Chip.applyKeys_wf c _ h
    | simp only [↓Chip.setFlash_mem, ↓Chip.putCfg_mem, ↓Chip.efcGo_mem, ↓Chip.put_mem, ↓Chip.retireHere_mem, ↓Chip.ringReport_mem, ↓Chip.mem_mk, Stores.eta,
        Chip.mem_parts]

theorem Chip.applyPlacement_wf (c : Chip) (mine : Bool) (e : Effect) (hw : c.mem.wf = true) : (Chip.applyPlacement c mine e).mem.wf = true := by
  unfold Chip.applyPlacement
  try dsimp only
  repeat' first
    | with_reducible assumption
    | split
    | with_reducible refine Chip.applyExtent_wf _ _ _ ?_
    | simp only [↓Chip.dropObject_mem, ↓Chip.applyRoute_mem, ↓Chip.setPending_mem, ↓Chip.ringStart_mem, ↓Chip.ringWritten_mem,
        ↓Chip.rangeBegin_mem, ↓Chip.setObject_mem, ↓Chip.applyObject_mem, ↓Chip.peerMoved_mem, ↓Chip.mem_mk, Stores.eta, Chip.mem_parts]

theorem Chip.applyEffect_wf (c : Chip) (mine : Bool) (from' : Twin) (e : Effect) (hw : c.mem.wf = true) : (Chip.applyEffect c mine from' e).mem.wf = true := by
  unfold Chip.applyEffect
  try dsimp only
  repeat' first
    | with_reducible assumption
    | split
    | with_reducible refine Chip.applyChip_wf _ _ _ _ ?_
    | with_reducible refine Chip.applyPlacement_wf _ _ _ ?_
    | simp only [↓Chip.applyHeads_mem, ↓Chip.mem_mk, Stores.eta, Chip.mem_parts]

theorem Chip.applyRecord_wf (c : Chip) (g : GatedEffect) (hw : c.mem.wf = true) : (Chip.applyRecord c g).mem.wf = true := by
  unfold Chip.applyRecord
  try dsimp only
  repeat' first
    | with_reducible assumption
    | split
    | with_reducible refine Chip.applyEffect_wf _ _ _ _ ?_
    | simp only [↓Chip.cnt_mem, ↓Chip.applyEnds_mem, ↓Chip.mem_mk, Stores.eta, Chip.mem_parts]

theorem Chip.applyGated_wf (c : Chip) (hw : c.mem.wf = true) : (Chip.applyGated c).mem.wf = true := by
  unfold Chip.applyGated
  try dsimp only
  repeat' first
    | with_reducible assumption
    | split
    | with_reducible refine Chip.applyRecord_wf _ _ ?_
    | with_reducible refine Chip.foldl_wf _ (fun c x h => ?_) _ _ ?_
    | (with_reducible rw [Chip.foldl_mem _ (fun c x => by first | rfl | simp only [Chip.mem_mk, Stores.eta, Chip.mem_parts])])
    | simp only [↓Chip.mem_mk, Stores.eta, Chip.mem_parts]

theorem Chip.rewriteLine_wf (c : Chip) (line : Nat) (l : Line) (poison : Bool) (hw : c.mem.wf = true) : (Chip.rewriteLine c line l poison).mem.wf = true := by
  unfold Chip.rewriteLine
  try dsimp only
  repeat' first
    | with_reducible assumption
    | split
    | with_reducible refine Chip.storeLine_wf _ _ _ _ ?_
    | simp only [↓Chip.oweLines_mem, ↓Chip.mem_mk, Stores.eta, Chip.mem_parts]

theorem Chip.repairAlone_wf (c : Chip) (line source : Nat) (hw : c.mem.wf = true) : (Chip.repairAlone c line source).mem.wf = true := by
  unfold Chip.repairAlone
  try dsimp only
  repeat' first
    | with_reducible assumption
    | split
    | with_reducible refine Chip.rewriteLine_wf _ _ _ _ ?_
    | with_reducible refine Chip.continueTags_wf _ _ _ (fun c t h => ?_) ?_
    | simp only [↓Chip.cnt_mem, ↓Chip.raise_mem, ↓Chip.readDram_mem, ↓Chip.serveRead_mem, ↓Chip.releaseHold_mem, ↓Chip.answerRepaired_mem,
        ↓Chip.mediaRecord_mem, ↓Chip.repairEntry_mem, ↓Chip.mem_mk, Stores.eta, Chip.mem_parts]

theorem Chip.beginRepair_wf (c : Chip) (line source : Nat) (hw : c.mem.wf = true) : (Chip.beginRepair c line source).mem.wf = true := by
  unfold Chip.beginRepair
  try dsimp only
  repeat' first
    | with_reducible assumption
    | split
    | with_reducible refine Chip.repairAlone_wf _ _ _ ?_
    | simp only [↓Chip.cnt_mem, ↓Chip.send_mem, ↓Chip.post_mem, ↓Chip.showRepairs_mem, ↓Chip.setHold_mem, ↓Chip.mem_mk, Stores.eta,
        Chip.mem_parts]

theorem Chip.pumpRepairs_wf (n : Nat) : ∀ c : Chip, c.mem.wf = true → (pumpRepairs n c).mem.wf = true := by
  induction n with
  | zero => exact fun c h => h
  | succ n ih =>
    intro c h
    unfold pumpRepairs
    split
    · exact h
    · split
      · exact h
      · exact ih _ (Chip.beginRepair_wf _ _ _ h)

theorem Chip.wantRepair_wf (c : Chip) (line source : Nat) (hw : c.mem.wf = true) : (Chip.wantRepair c line source).mem.wf = true := by
  unfold Chip.wantRepair
  try dsimp only
  repeat' first
    | with_reducible assumption
    | split
    | with_reducible refine Chip.pumpRepairs_wf _ _ ?_
    | simp only [↓Chip.mem_mk, Stores.eta, Chip.mem_parts]

theorem Chip.repairsWithout_wf (c : Chip) (hw : c.mem.wf = true) : (Chip.repairsWithout c).mem.wf = true := by
  unfold Chip.repairsWithout
  try dsimp only
  repeat' first
    | with_reducible assumption
    | split
    | with_reducible refine Chip.repairAlone_wf _ _ _ ?_
    | with_reducible refine Chip.foldl_wf _ (fun c x h => ?_) _ _ ?_
    | (with_reducible rw [Chip.foldl_mem _ (fun c x => by first | rfl | simp only [Chip.afterHold_mem, Chip.fixBytes_mem, Chip.takeEntry_mem, Chip.mem_mk, Stores.eta, Chip.mem_parts])])
    | simp only [↓Chip.afterHold_mem, ↓Chip.fixBytes_mem, ↓Chip.takeEntry_mem, ↓Chip.mem_mk, Stores.eta, Chip.mem_parts]

theorem Chip.takeRepair_wf (c : Chip) (line : Nat) (data : Option (Line × Bool)) (hw : c.mem.wf = true) : (Chip.takeRepair c line data).mem.wf = true := by
  unfold Chip.takeRepair
  try dsimp only
  repeat' first
    | with_reducible assumption
    | split
    | with_reducible refine Chip.rewriteLine_wf _ _ _ _ ?_
    | with_reducible refine Chip.repairAlone_wf _ _ _ ?_
    | with_reducible refine Chip.pumpRepairs_wf _ _ ?_
    | simp only [↓Chip.cnt_mem, ↓Chip.releaseHold_mem, ↓Chip.answerRepaired_mem, ↓Chip.repairEntry_mem, ↓Chip.fixBytes_mem, ↓Chip.mem_mk,
        Stores.eta, Chip.mem_parts]

theorem Chip.withoutPeer_wf (c : Chip) (hw : c.mem.wf = true) : (Chip.withoutPeer c).mem.wf = true := by
  unfold Chip.withoutPeer
  try dsimp only
  repeat' first
    | with_reducible assumption
    | split
    | with_reducible refine Chip.repairsWithout_wf _ ?_
    | with_reducible refine Chip.continueTags_wf _ _ _ (fun c t h => ?_) ?_
    | simp only [↓Chip.completeWrite_mem, ↓Chip.settle_mem, ↓Chip.afterOrder_mem, ↓Chip.runCommons_mem, ↓Chip.mem_mk, Stores.eta,
        Chip.mem_parts]

theorem Chip.becomeAlone_wf (c : Chip) (hw : c.mem.wf = true) : (Chip.becomeAlone c).mem.wf = true := by
  unfold Chip.becomeAlone
  try dsimp only
  repeat' first
    | with_reducible assumption
    | split
    | with_reducible refine Chip.withoutPeer_wf _ ?_
    | with_reducible refine Chip.foldl_wf _ (fun c x h => ?_) _ _ ?_
    | (with_reducible rw [Chip.foldl_mem _ (fun c x => by first | rfl | simp only [Chip.enterAlone_mem, Chip.orderReceived_mem, Chip.takeArbitration_mem, Chip.discardGated_mem, Chip.claim_mem, Chip.markUncovered_mem, Chip.endDrill_mem, Chip.mem_mk, Stores.eta, Chip.mem_parts])])
    | simp only [↓Chip.enterAlone_mem, ↓Chip.orderReceived_mem, ↓Chip.takeArbitration_mem, ↓Chip.discardGated_mem, ↓Chip.claim_mem,
        ↓Chip.markUncovered_mem, ↓Chip.endDrill_mem, ↓Chip.mem_mk, Stores.eta, Chip.mem_parts]

theorem Chip.declareLoss_wf (c : Chip) (hw : c.mem.wf = true) : (Chip.declareLoss c).mem.wf = true := by
  unfold Chip.declareLoss
  try dsimp only
  repeat' first
    | with_reducible assumption
    | split
    | with_reducible refine Chip.becomeAlone_wf _ ?_
    | simp only [↓Chip.raise_mem, ↓Chip.abortResync_mem, ↓Chip.isolate_mem, ↓Chip.mem_mk, Stores.eta, Chip.mem_parts]

theorem Chip.checkPeer_wf (c : Chip) (pulse : Bool) (hw : c.mem.wf = true) : (Chip.checkPeer c pulse).mem.wf = true := by
  unfold Chip.checkPeer
  try dsimp only
  repeat' first
    | with_reducible assumption
    | split
    | with_reducible refine Chip.declareLoss_wf _ ?_
    | simp only [↓Chip.raise_mem, ↓Chip.fencePeer_mem, ↓Chip.abortResync_mem, ↓Chip.countCheck_mem, ↓Chip.mem_mk, Stores.eta,
        Chip.mem_parts]

theorem Chip.peerStopped_wf (c : Chip) (hw : c.mem.wf = true) : (Chip.peerStopped c).mem.wf = true := by
  unfold Chip.peerStopped
  try dsimp only
  repeat' first
    | with_reducible assumption
    | split
    | with_reducible refine Chip.becomeAlone_wf _ ?_
    | simp only [↓Chip.put_mem, ↓Chip.raise_mem, ↓Chip.abortResync_mem, ↓Chip.mem_mk, Stores.eta, Chip.mem_parts]

theorem Chip.peerReleases_wf (c : Chip) (p : Fin 6) (hw : c.mem.wf = true) : (Chip.peerReleases c p).mem.wf = true := by
  unfold Chip.peerReleases
  try dsimp only
  repeat' first
    | with_reducible assumption
    | split
    | with_reducible refine Chip.becomeAlone_wf _ ?_
    | simp only [↓Chip.put_mem, ↓Chip.claim_mem, ↓Chip.mem_mk, Stores.eta, Chip.mem_parts]

theorem Chip.placeFront_wf (c : Chip) (e : Nat) (cells : List Host.Cell) (poisoned : List Nat) (hw : c.mem.wf = true) : (Chip.placeFront c e cells poisoned).mem.wf = true := by
  unfold Chip.placeFront
  try dsimp only
  repeat' first
    | with_reducible assumption
    | with_reducible refine Chip.foldl_wf _ (fun c x h => ?_) _ _ ?_
    | (with_reducible rw [Chip.foldl_mem _ (fun c x => by first | rfl | simp only [Chip.setDirty_mem, Chip.mem_mk, Stores.eta, Chip.mem_parts])])
    | with_reducible exact Stores.wf_dram (by assumption)
    | with_reducible exact Stores.wf_front (by assumption)
    | with_reducible exact Stores.wf_packed (by assumption)
    | with_reducible exact Stores.wf_patch (by assumption)
    | with_reducible exact Stores.wf_sealFront (by assumption)
    | with_reducible exact Stores.wf_sealPatch (by assumption)
    | with_reducible exact Stores.wf_metaFront (by assumption)
    | with_reducible exact Stores.wf_metaPatch (by assumption)
    | with_reducible exact Memory.wf_nil
    | with_reducible refine writeLine_wf _ _ _ _ ?_
    | with_reducible refine clearBytes_wf _ _ _ ?_
    | with_reducible refine copyBytes_wf _ _ _ _ ?_
    | with_reducible refine Memory.wf_set _ _ _ ?_
    | with_reducible refine Memory.wf_filter _ _ ?_
    | with_reducible refine Memory.foldl_wf _ (fun m x hm => ?_) _ _ ?_
    | simp only [↓Chip.setDirty_mem, ↓Chip.mem_mk, Stores.eta, Chip.mem_parts, Chip.ite_mem, ite_self]
    | with_reducible refine Stores.wf_mk ?_ ?_ ?_ ?_ ?_ ?_ ?_ ?_
    | split

theorem Chip.foldl_bind_wf {α : Type} (g : Chip → α → Option Chip) (hg : ∀ c x c', g c x = some c' → c.mem.wf = true → c'.mem.wf = true)
    (l : List α) : ∀ (c : Chip) {c' : Chip}, (l.foldl (fun (a : Option Chip) x => a.bind fun c => g c x) (some c)) = some c' →
      c.mem.wf = true → c'.mem.wf = true := by
  have hn : ∀ l : List α, l.foldl (fun (a : Option Chip) x => a.bind fun c => g c x) none = none := by
    intro l
    induction l with
    | nil => rfl
    | cons x r ih => exact ih
  induction l with
  | nil => intro c c' h' h; cases h'; exact h
  | cons x r ih =>
    intro c c' h' h
    simp only [List.foldl_cons, Option.bind_some] at h'
    cases hx : g c x with
    | none => rw [hx, hn] at h'; cases h'
    | some d => rw [hx] at h'; exact ih d h' (hg c x d hx h)

theorem Chip.placeContent_wf (c : Chip) (e : Nat) (bytes : List (Nat × Byte)) (poisoned : List Nat) {c' : Chip}
    (hc : c.placeContent e bytes poisoned = some c') (h : c.mem.wf = true) : c'.mem.wf = true := by
  have h1 : ((parcelsOf e).foldl Chip.discardParcel c).mem.wf = true := Chip.foldl_wf _ (fun c p h => Chip.discardParcel_wf c p h) _ c h
  unfold Chip.placeContent at hc
  generalize (parcelsOf e).foldl Chip.discardParcel c = d at hc h1
  simp only [] at hc
  split at hc
  · obtain rfl := Option.some.inj hc
    rw [Chip.oweExtent_mem]
    with_reducible refine Chip.placeFront_wf _ _ _ _ ?_
    split
    · exact h1
    · exact Chip.takeFrame_wf d e h1
  · refine Chip.foldl_bind_wf _ (fun c p c' hg hw => ?_) _ d hc h1
    split at hg
    · cases hg
      exact hw
    · exact Chip.writeCopy_wf c _ _ _ _ hg hw

theorem Chip.wipeCopy_wf (c : Chip) (hw : c.mem.wf = true) : (Chip.wipeCopy c).mem.wf = true := by
  unfold Chip.wipeCopy
  try dsimp only
  repeat' first
    | with_reducible assumption
    | split
    | with_reducible refine Chip.discardExtent_wf _ _ ?_
    | with_reducible refine Chip.foldl_wf _ (fun c x h => ?_) _ _ ?_
    | (with_reducible rw [Chip.foldl_mem _ (fun c x => by first | rfl | simp only [Chip.mem_mk, Stores.eta, Chip.mem_parts])])
    | simp only [↓Chip.mem_mk, Stores.eta, Chip.mem_parts]

theorem Chip.takePlacement_wf (c : Chip) (es : List (Nat × ExtEntry)) (hw : c.mem.wf = true) : (Chip.takePlacement c es).mem.wf = true := by
  unfold Chip.takePlacement
  try dsimp only
  repeat' first
    | with_reducible assumption
    | split
    | with_reducible refine Chip.takeFrame_wf _ _ ?_
    | with_reducible refine Chip.discardExtent_wf _ _ ?_
    | with_reducible refine Chip.foldl_wf _ (fun c x h => ?_) _ _ ?_
    | (with_reducible rw [Chip.foldl_mem _ (fun c x => by first | rfl | simp only [Chip.mapExt_mem, Chip.mem_mk, Stores.eta, Chip.mem_parts])])
    | simp only [↓Chip.mapExt_mem, ↓Chip.mem_mk, Stores.eta, Chip.mem_parts]

theorem Chip.pageEffects_wf (c was : Chip) (page : Nat) (both : Bool) (hw : c.mem.wf = true) : (Chip.pageEffects c was page both).mem.wf = true := by
  unfold Chip.pageEffects
  try dsimp only
  repeat' first
    | with_reducible assumption
    | split
    | with_reducible refine Chip.domainChanged_wf _ _ _ ?_
    | with_reducible refine Chip.foldl_wf _ (fun c x h => ?_) _ _ ?_
    | (with_reducible rw [Chip.foldl_mem _ (fun c x => by first | rfl | simp only [Chip.usedEffects_mem, Chip.mem_mk, Stores.eta, Chip.mem_parts])])
    | simp only [↓Chip.usedEffects_mem, ↓Chip.mem_mk, Stores.eta, Chip.mem_parts]

theorem Chip.softReset_wf (c : Chip) (page : Nat) (hw : c.mem.wf = true) : (Chip.softReset c page).mem.wf = true := by
  unfold Chip.softReset
  try dsimp only
  repeat' first
    | with_reducible assumption
    | split
    | with_reducible refine Chip.pageEffects_wf _ _ _ _ ?_
    | with_reducible refine Chip.foldl_wf _ (fun c x h => ?_) _ _ ?_
    | (with_reducible rw [Chip.foldl_mem _ (fun c x => by first | rfl | simp only [Chip.applyConfig_mem, Chip.unseen_mem, Chip.mem_mk, Stores.eta, Chip.mem_parts])])
    | simp only [↓Chip.applyConfig_mem, ↓Chip.unseen_mem, ↓Chip.mem_mk, Stores.eta, Chip.mem_parts]

theorem Chip.checkDone_wf (c peer : Chip) (compare : Bool) (page : Nat) (hw : c.mem.wf = true) : (Chip.checkDone c peer compare page).mem.wf = true := by
  unfold Chip.checkDone
  try dsimp only
  repeat' first
    | with_reducible assumption
    | split
    | with_reducible refine Chip.pageEffects_wf _ _ _ _ ?_
    | simp only [↓Chip.setPageState_mem, ↓Chip.sendRestoreDone_mem, ↓Chip.refusePage_mem, ↓Chip.applyConfig_mem, ↓Chip.startEffects_mem,
        ↓Chip.bifurcate_mem, ↓Chip.mem_mk, Stores.eta, Chip.mem_parts]

theorem Chip.ctrlWrite_wf (c : Chip) (page : Nat) (v : Word) (hw : c.mem.wf = true) : (Chip.ctrlWrite c page v).mem.wf = true := by
  unfold Chip.ctrlWrite
  try dsimp only
  repeat' first
    | with_reducible assumption
    | split
    | with_reducible refine Chip.softReset_wf _ _ ?_
    | simp only [↓Chip.wr_mem, ↓Chip.setPageState_mem, ↓Chip.reject_mem, ↓Chip.beginCheck_mem, ↓Chip.mem_mk, Stores.eta, Chip.mem_parts]

theorem Chip.writeWord_wf (c : Chip) (rq : Requester) (page off : Nat) (v : Word) (both late : Bool) (hw : c.mem.wf = true) : (Chip.writeWord c rq page off v both late).mem.wf = true := by
  unfold Chip.writeWord
  try dsimp only
  repeat' first
    | with_reducible assumption
    | split
    | with_reducible refine Chip.ctrlWrite_wf _ _ _ ?_
    | simp only [↓Chip.wr_mem, ↓Chip.reject_mem, ↓Chip.deny_mem, ↓Chip.marginWrite_mem, ↓Chip.clearEvents_mem, ↓Chip.forceEvents_mem,
        ↓Chip.enableEvents_mem, ↓Chip.storeConfig_mem, ↓Chip.actOwn_mem, ↓Chip.actShared_mem, ↓Chip.mem_mk, Stores.eta, Chip.mem_parts]

theorem Chip.writeCtrl_wf (c : Chip) (rq : Requester) (page : Nat) (f : Word → Word) (hw : c.mem.wf = true) : (Chip.writeCtrl c rq page f).mem.wf = true := by
  unfold Chip.writeCtrl
  try dsimp only
  repeat' first
    | with_reducible assumption
    | split
    | with_reducible refine Chip.ctrlWrite_wf _ _ _ ?_
    | with_reducible refine Chip.ifWrites_wf _ _ _ _ (fun c h => ?_) ?_
    | simp only [↓Chip.mem_mk, Stores.eta, Chip.mem_parts]

theorem Chip.busWrite_wf (c : Chip) (addr size v : Nat) (hw : c.mem.wf = true) : (Chip.busWrite c addr size v).mem.wf = true := by
  unfold Chip.busWrite
  try dsimp only
  repeat' first
    | with_reducible assumption
    | split
    | with_reducible refine Chip.coreStore_wf _ _ _ _ _ ?_
    | simp only [↓Chip.mapCore_mem, ↓Chip.mem_mk, Stores.eta, Chip.mem_parts]

theorem Chip.storeLost_wf (c : Chip) (p : Nat) (lines : List Nat) (source : Nat) (hw : c.mem.wf = true) : (Chip.storeLost c p lines source).mem.wf = true := by
  unfold Chip.storeLost
  try dsimp only
  repeat' first
    | with_reducible assumption
    | split
    | with_reducible refine Chip.wantRepair_wf _ _ _ ?_
    | with_reducible refine Chip.foldl_wf _ (fun c x h => ?_) _ _ ?_
    | (with_reducible rw [Chip.foldl_mem _ (fun c x => by first | rfl | simp only [Chip.wantParcel_mem, Chip.mem_mk, Stores.eta, Chip.mem_parts])])
    | simp only [↓Chip.wantParcel_mem, ↓Chip.mem_mk, Stores.eta, Chip.mem_parts]

theorem Chip.stagedLost_wf (c : Chip) (off source : Nat) (hw : c.mem.wf = true) : (Chip.stagedLost c off source).mem.wf = true := by
  unfold Chip.stagedLost
  try dsimp only
  repeat' first
    | with_reducible assumption
    | split
    | with_reducible refine Chip.storeLost_wf _ _ _ _ ?_
    | simp only [↓Chip.mem_mk, Stores.eta, Chip.mem_parts]

theorem Chip.patchLost_wf (c : Chip) (off source : Nat) (hw : c.mem.wf = true) : (Chip.patchLost c off source).mem.wf = true := by
  unfold Chip.patchLost
  try dsimp only
  repeat' first
    | with_reducible assumption
    | split
    | with_reducible refine Chip.storeLost_wf _ _ _ _ ?_
    | simp only [↓Chip.mem_mk, Stores.eta, Chip.mem_parts]

theorem Chip.directLost_wf (c : Chip) (region off source : Nat) (hw : c.mem.wf = true) : (Chip.directLost c region off source).mem.wf = true := by
  unfold Chip.directLost
  try dsimp only
  repeat' first
    | with_reducible assumption
    | split
    | with_reducible refine Chip.stagedLost_wf _ _ _ ?_
    | with_reducible refine Chip.patchLost_wf _ _ _ ?_
    | simp only [↓Chip.cnt_mem, ↓Chip.thresholdsLost_mem, ↓Chip.markRisk_mem, ↓Chip.slotLost_mem, ↓Chip.ringEntryLost_mem, ↓Chip.mem_mk,
        Stores.eta, Chip.mem_parts]

theorem Chip.regionLost_wf (c : Chip) (x off source : Nat) (hw : c.mem.wf = true) : (Chip.regionLost c x off source).mem.wf = true := by
  unfold Chip.regionLost
  try dsimp only
  repeat' first
    | with_reducible assumption
    | split
    | with_reducible refine Chip.directLost_wf _ _ _ _ ?_
    | simp only [↓Chip.dlo_mem, ↓Chip.mdcLineLost_mem, ↓Chip.mem_mk, Stores.eta, Chip.mem_parts]

theorem Chip.lineFailed_wf (c : Chip) (x : Nat) (patrol : Bool) (hw : c.mem.wf = true) : (Chip.lineFailed c x patrol).mem.wf = true := by
  unfold Chip.lineFailed
  try dsimp only
  repeat' first
    | with_reducible assumption
    | split
    | with_reducible refine Chip.wantRepair_wf _ _ _ ?_
    | with_reducible refine Chip.regionLost_wf _ _ _ _ ?_
    | simp only [↓Chip.cnt_mem, ↓Chip.dlo_mem, ↓Chip.uncorrectableLine_mem, ↓Chip.mem_mk, Stores.eta, Chip.mem_parts]

theorem Chip.lineRead_wf (c : Chip) (x : Nat) (bad : BitVec 20) (patrol : Bool) (hw : c.mem.wf = true) : (Chip.lineRead c x bad patrol).mem.wf = true := by
  unfold Chip.lineRead
  try dsimp only
  repeat' first
    | with_reducible assumption
    | split
    | with_reducible refine Chip.storeFront_wf _ _ _ _ ?_
    | with_reducible refine Chip.lineFailed_wf _ _ _ ?_
    | simp only [↓Chip.lineCorrected_mem, ↓Chip.mem_mk, Stores.eta, Chip.mem_parts]

theorem Chip.find_wf (c : Chip) (x : Finding) (hw : c.mem.wf = true) : (Chip.find c x).mem.wf = true := by
  unfold Chip.find
  try dsimp only
  repeat' first
    | with_reducible assumption
    | split
    | with_reducible refine Chip.lineRead_wf _ _ _ _ ?_
    | simp only [↓Chip.cnt_mem, ↓Chip.peak_mem, ↓Chip.scrubbed_mem, ↓Chip.wmbByte_mem, ↓Chip.completionTook_mem, ↓Chip.reads_mem,
        ↓Chip.sramWord_mem, ↓Chip.mem_mk, Stores.eta, Chip.mem_parts]

theorem Chip.findAll_wf (c : Chip) (xs : List Finding) (hw : c.mem.wf = true) : (Chip.findAll c xs).mem.wf = true := by
  unfold Chip.findAll
  try dsimp only
  repeat' first
    | with_reducible assumption
    | split
    | with_reducible refine Chip.find_wf _ _ ?_
    | with_reducible refine Chip.foldl_wf _ (fun c x h => ?_) _ _ ?_
    | (with_reducible rw [Chip.foldl_mem _ (fun c x => by first | rfl | simp only [Chip.mem_mk, Stores.eta, Chip.mem_parts])])
    | simp only [↓Chip.mem_mk, Stores.eta, Chip.mem_parts]

theorem Chip.refillExtent_wf (c : Chip) (twin : Chip) (e : Nat) (hw : c.mem.wf = true) : (Chip.refillExtent c twin e).mem.wf = true := by
  unfold Chip.refillExtent
  try dsimp only
  repeat' first
    | with_reducible assumption
    | split
    | with_reducible refine Chip.takeFrame_wf _ _ ?_
    | with_reducible refine Chip.placeFront_wf _ _ _ _ ?_
    | simp only [↓Chip.oweExtent_mem, ↓Chip.mem_mk, Stores.eta, Chip.mem_parts]

theorem Chip.refillParcel_wf (c : Chip) (twin : Chip) (p : Nat) (hw : c.mem.wf = true) : (Chip.refillParcel c twin p).mem.wf = true := by
  unfold Chip.refillParcel
  try dsimp only
  repeat' first
    | with_reducible assumption
    | split
    | with_reducible refine Chip.dropPatch_wf _ _ _ ?_
    | with_reducible refine Chip.writeCopy_wf _ _ _ _ _ (by assumption) ?_
    | simp only [↓Chip.mem_mk, Stores.eta, Chip.mem_parts]

theorem Chip.fetchLost_wf (c : Chip) (twin : Chip) (hw : c.mem.wf = true) : (Chip.fetchLost c twin).mem.wf = true := by
  unfold Chip.fetchLost
  try dsimp only
  repeat' first
    | with_reducible assumption
    | split
    | with_reducible refine Chip.refillExtent_wf _ _ _ ?_
    | with_reducible refine Chip.refillParcel_wf _ _ _ ?_
    | with_reducible refine Chip.continueTags_wf _ _ _ (fun c t h => ?_) ?_
    | with_reducible refine Chip.foldl_wf _ (fun c x h => ?_) _ _ ?_
    | (with_reducible rw [Chip.foldl_mem _ (fun c x => by first | rfl | simp only [Chip.serveRead_mem, Chip.loseExtent_mem, Chip.mem_mk, Stores.eta, Chip.mem_parts])])
    | simp only [↓Chip.serveRead_mem, ↓Chip.loseExtent_mem, ↓Chip.mem_mk, Stores.eta, Chip.mem_parts]

theorem Chip.jobEffect_wf (c : Chip) (j : Nat) (hw : c.mem.wf = true) : (Chip.jobEffect c j).mem.wf = true := by
  unfold Chip.jobEffect
  try dsimp only
  repeat' first
    | with_reducible assumption
    | split
    | with_reducible refine Chip.migJob_wf _ ?_
    | simp only [↓Chip.routeJob_mem, ↓Chip.scrubJob_mem, ↓Chip.governJob_mem, ↓Chip.refillJob_mem, ↓Chip.gcJob_mem, ↓Chip.resoleJob_mem,
        ↓Chip.mem_mk, Stores.eta, Chip.mem_parts]

theorem Chip.jobEnds_wf (c : Chip) (j used : Nat) (hw : c.mem.wf = true) : (Chip.jobEnds c j used).mem.wf = true := by
  unfold Chip.jobEnds
  try dsimp only
  repeat' first
    | with_reducible assumption
    | split
    | with_reducible refine Chip.jobEffect_wf _ _ ?_
    | simp only [↓Chip.setSched_mem, ↓Chip.mem_mk, Stores.eta, Chip.mem_parts]

theorem Chip.runJobs_wf (n : Nat) : ∀ c : Chip, c.mem.wf = true → (Chip.runJobs n c).mem.wf = true := by
  induction n with
  | zero => exact fun c h => h
  | succ n ih =>
    intro c h
    unfold Chip.runJobs
    extract_lets x
    split
    · exact h
    · rename_i j rest
      extract_lets need allow c1
      have h1 : c1.mem.wf = true := by
        show (c.setSched _).mem.wf = true
        rw [Chip.setSched_mem]
        exact h
      clear_value c1
      split
      · exact h
      · split
        · exact ih _ (Chip.jobEnds_wf _ _ _ h1)
        · split
          · rw [Chip.setSched_mem]
            exact h1
          · exact ih _ (Chip.jobEnds_wf _ _ _ h1)

theorem Chip.stopAtAllowance_wf (c : Chip) (late : Nat) (hw : c.mem.wf = true) : (Chip.stopAtAllowance c late).mem.wf = true := by
  unfold Chip.stopAtAllowance
  try dsimp only
  repeat' first
    | with_reducible assumption
    | split
    | with_reducible refine Chip.jobEnds_wf _ _ _ ?_
    | with_reducible refine Chip.runJobs_wf _ _ ?_
    | simp only [↓Chip.mem_mk, Stores.eta, Chip.mem_parts]

theorem Chip.stopAtEnd_wf (c : Chip) (late : Nat) (hw : c.mem.wf = true) : (Chip.stopAtEnd c late).mem.wf = true := by
  unfold Chip.stopAtEnd
  try dsimp only
  repeat' first
    | with_reducible assumption
    | split
    | with_reducible refine Chip.jobEnds_wf _ _ _ ?_
    | simp only [↓Chip.mem_mk, Stores.eta, Chip.mem_parts]

theorem Chip.closeRound_wf (c : Chip) (hw : c.mem.wf = true) : (Chip.closeRound c).mem.wf = true := by
  unfold Chip.closeRound
  try dsimp only
  repeat' first
    | with_reducible assumption
    | split
    | with_reducible refine Chip.stopAtAllowance_wf _ _ ?_
    | with_reducible refine Chip.stopAtEnd_wf _ _ ?_
    | with_reducible refine Chip.foldl_wf _ (fun c x h => ?_) _ _ ?_
    | (with_reducible rw [Chip.foldl_mem _ (fun c x => by first | rfl | simp only [Chip.put_mem, Chip.cnt_mem, Chip.peak_mem, Chip.raise_mem, Chip.mem_mk, Stores.eta, Chip.mem_parts])])
    | simp only [↓Chip.put_mem, ↓Chip.cnt_mem, ↓Chip.peak_mem, ↓Chip.raise_mem, ↓Chip.mem_mk, Stores.eta, Chip.mem_parts]

theorem Chip.startJobs_wf (c : Chip) (quantum : List Nat) (hw : c.mem.wf = true) : (Chip.startJobs c quantum).mem.wf = true := by
  unfold Chip.startJobs
  try dsimp only
  repeat' first
    | with_reducible assumption
    | split
    | with_reducible refine Chip.runJobs_wf _ _ ?_
    | simp only [↓Chip.put_mem, ↓Chip.setSched_mem, ↓Chip.mem_mk, Stores.eta, Chip.mem_parts]

theorem Chip.mergesNow_wf (c : Chip) (hw : c.mem.wf = true) : (Chip.mergesNow c).mem.wf = true := by
  unfold Chip.mergesNow
  try dsimp only
  repeat' first
    | with_reducible assumption
    | split
    | with_reducible refine Chip.mergeRead_wf _ _ ?_
    | with_reducible refine Chip.foldl_wf _ (fun c x h => ?_) _ _ ?_
    | (with_reducible rw [Chip.foldl_mem _ (fun c x => by first | rfl | simp only [Chip.mem_mk, Stores.eta, Chip.mem_parts])])
    | simp only [↓Chip.mem_mk, Stores.eta, Chip.mem_parts]

theorem Chip.mergeRound_wf (c : Chip) (hw : c.mem.wf = true) : (Chip.mergeRound c).mem.wf = true := by
  unfold Chip.mergeRound
  try dsimp only
  repeat' first
    | with_reducible assumption
    | split
    | with_reducible refine Chip.mergesNow_wf _ ?_
    | simp only [↓Chip.queueMerge_mem, ↓Chip.mem_mk, Stores.eta, Chip.mem_parts]

theorem Chip.pairRound_wf (c : Chip) (hw : c.mem.wf = true) : (Chip.pairRound c).mem.wf = true := by
  unfold Chip.pairRound
  try dsimp only
  repeat' first
    | with_reducible assumption
    | split
    | with_reducible refine Chip.journalRound_wf _ ?_
    | simp only [↓Chip.scrubDue_mem, ↓Chip.sendSummary_mem, ↓Chip.resyncRound_mem, ↓Chip.mem_mk, Stores.eta, Chip.mem_parts]

theorem Chip.mediaRound_wf (c : Chip) (hw : c.mem.wf = true) : (Chip.mediaRound c).mem.wf = true := by
  unfold Chip.mediaRound
  try dsimp only
  repeat' first
    | with_reducible assumption
    | split
    | with_reducible refine Chip.pumpRepairs_wf _ _ ?_
    | with_reducible refine Chip.mergeRound_wf _ ?_
    | simp only [↓Chip.bridgeRound_mem, ↓Chip.lateReads_mem, ↓Chip.indexRound_mem, ↓Chip.rekeyRound_mem, ↓Chip.rowsRound_mem, ↓Chip.mem_mk,
        Stores.eta, Chip.mem_parts]

theorem Chip.blockRound_wf (c : Chip) (x : RoundInputs) (hw : c.mem.wf = true) : (Chip.blockRound c x).mem.wf = true := by
  unfold Chip.blockRound
  try dsimp only
  repeat' first
    | with_reducible assumption
    | split
    | with_reducible refine Chip.pairRound_wf _ ?_
    | with_reducible refine Chip.mediaRound_wf _ ?_
    | simp only [↓Chip.holdupRound_mem, ↓Chip.endsRound_mem, ↓Chip.boardRound_mem, ↓Chip.mem_mk, Stores.eta, Chip.mem_parts]

theorem Chip.beginRound_wf (c : Chip) (x : RoundInputs) (hw : c.mem.wf = true) : (Chip.beginRound c x).mem.wf = true := by
  unfold Chip.beginRound
  try dsimp only
  repeat' first
    | with_reducible assumption
    | split
    | with_reducible refine Chip.findAll_wf _ _ ?_
    | with_reducible refine Chip.closeRound_wf _ ?_
    | with_reducible refine Chip.startJobs_wf _ _ ?_
    | with_reducible refine Chip.blockRound_wf _ _ ?_
    | simp only [↓Chip.put_mem, ↓Chip.cnt_mem, ↓Chip.dloFlush_mem, ↓Chip.pulse_mem, ↓Chip.sendFrame_mem, ↓Chip.alignRound_mem,
        ↓Chip.linkRound_mem, ↓Chip.mem_mk, Stores.eta, Chip.mem_parts]

theorem Chip.endDelivery_wf (c : Chip) (us : Nat) (hw : c.mem.wf = true) : (Chip.endDelivery c us).mem.wf = true := by
  unfold Chip.endDelivery
  try dsimp only
  repeat' first
    | with_reducible assumption
    | split
    | with_reducible refine Chip.closeRound_wf _ ?_
    | simp only [↓Chip.pulse_mem, ↓Chip.thermalDelivery_mem, ↓Chip.updateThresholds_mem, ↓Chip.showEol_mem, ↓Chip.probe_mem,
        ↓Chip.rateDelivery_mem, ↓Chip.clearRisk_mem, ↓Chip.speakerDelivery_mem, ↓Chip.newDeliveryN_mem, ↓Chip.laneDelivery_mem,
        ↓Chip.retrainDelivery_mem, ↓Chip.wayDelivery_mem, ↓Chip.freshDelivery_mem, ↓Chip.ratingDelivery_mem, ↓Chip.latch_mem, ↓Chip.mem_mk,
        Stores.eta, Chip.mem_parts]

theorem Chip.promoteStarved_wf (c : Chip) (hw : c.mem.wf = true) : (Chip.promoteStarved c).mem.wf = true := by
  unfold Chip.promoteStarved
  try dsimp only
  repeat' first
    | with_reducible assumption
    | split
    | with_reducible refine Chip.closeRound_wf _ ?_
    | simp only [↓Chip.cnt_mem, ↓Chip.raise_mem, ↓Chip.mem_mk, Stores.eta, Chip.mem_parts]

end Sys2Proof.Machine
end

