-- ==== Sys2Proof/Laws/MemPair.lean ====
section
/-! SUPPORT. The operations on the pair keep every memory in its canonical form. -/
namespace Sys2Proof.Machine

set_option simprocs false

theorem State.foldl_wf {α : Type} (g : State → α → State) (hg : ∀ s x, s.memWf = true → (g s x).memWf = true) (l : List α) :
    ∀ s : State, s.memWf = true → (l.foldl g s).memWf = true := by
  induction l with
  | nil => exact fun s h => h
  | cons x r ih => exact fun s h => ih (g s x) (hg s x h)

theorem State.memWf_iff (s : State) : s.memWf = true ↔ s.a.mem.wf = true ∧ s.b.mem.wf = true := by
  simp only [State.memWf, Bool.and_eq_true]

theorem State.chip_wf (s : State) (w : Twin) (h : s.memWf = true) : (s.chip w).mem.wf = true := by
  have h := (State.memWf_iff s).mp h
  cases w
  · exact h.1
  · exact h.2

theorem State.setChip_wf (s : State) (w : Twin) (c : Chip) (hc : c.mem.wf = true) (h : s.memWf = true) : (s.setChip w c).memWf = true := by
  have h := (State.memWf_iff s).mp h
  cases w
  · exact (State.memWf_iff _).mpr ⟨hc, h.2⟩
  · exact (State.memWf_iff _).mpr ⟨h.1, hc⟩

theorem State.mapChip_wf (s : State) (w : Twin) (f : Chip → Chip) (hf : ∀ c : Chip, c.mem.wf = true → (f c).mem.wf = true) (h : s.memWf = true) : (s.mapChip w f).memWf = true :=
  State.setChip_wf s w _ (hf _ (State.chip_wf s w h)) h

theorem State.mapBoth_wf (s : State) (f : Chip → Chip) (hf : ∀ c : Chip, c.mem.wf = true → (f c).mem.wf = true) (h : s.memWf = true) : (s.mapBoth f).memWf = true :=
  State.mapChip_wf _ _ f hf (State.mapChip_wf s _ f hf h)

theorem State.onUp_wf (s : State) (w : Twin) (f : Chip → Chip) (hf : ∀ c : Chip, c.mem.wf = true → (f c).mem.wf = true) (h : s.memWf = true) : (s.onUp w f).memWf = true := by
  unfold State.onUp
  split
  · exact State.mapChip_wf s w f hf h
  · exact h

theorem State.onHome_wf (s : State) (hd : Fin 24) (f : Chip → Chip) (hf : ∀ c : Chip, c.mem.wf = true → (f c).mem.wf = true) (h : s.memWf = true) : (s.onHome hd f).memWf = true := by
  unfold State.onHome
  split
  · exact State.mapChip_wf s _ f hf h
  · exact h

theorem State.arrive_wf (s : State) (r : Request) (v : Arrival) (hw : s.memWf = true) : (State.arrive s r v).memWf = true := by
  unfold State.arrive
  try dsimp only
  repeat' first
    | with_reducible assumption
    | split
    | with_reducible refine State.chip_wf _ _ ?_
    | with_reducible refine State.mapChip_wf _ _ _ (fun c h => ?_) ?_
    | simp only [↓Chip.arriveHome_mem, ↓Chip.arriveCarbon_mem, ↓Chip.mem_mk, Stores.eta, Chip.mem_parts]

theorem State.birsp_wf (s : State) (h : Fin 24) (line kind : Nat) (hw : s.memWf = true) : (State.birsp s h line kind).memWf = true := by
  unfold State.birsp
  try dsimp only
  repeat' first
    | with_reducible assumption
    | split
    | with_reducible refine State.mapBoth_wf _ _ (fun c h => ?_) ?_
    | simp only [↓Chip.hearBirsp_mem, ↓Chip.hearOther_mem, ↓Chip.mem_mk, Stores.eta, Chip.mem_parts]

theorem State.nextFree_wf (s : State) (h : s.memWf = true) : s.nextFree.2.memWf = true := h

theorem State.free_wf (s : State) (n : Nat) (h : s.memWf = true) : State.memWf { s with free := n } = true := h

theorem State.drawKey_wf (s : State) (w : Twin) (d : Nat) (h : s.memWf = true) : (s.drawKey w d).memWf = true := by
  unfold State.drawKey
  refine State.mapChip_wf _ _ _ (fun c hc => ?_) h
  rw [Chip.announce_mem]
  exact hc

theorem State.ringOp_wf (s : State) (q : Fin 64) (idx op : Nat) (f : Chip → Nat → RingCmd → Chip)
    (hf : ∀ (c : Chip) (n : Nat) (r : RingCmd), c.mem.wf = true → (f c n r).mem.wf = true) (h : s.memWf = true) : (s.ringOp q idx op f).memWf = true := by
  unfold State.ringOp
  refine State.mapBoth_wf s _ (fun c hc => ?_) h
  repeat' first
    | with_reducible assumption
    | split
    | with_reducible refine hf _ _ _ ?_
    | simp only [↓Chip.mapRing_mem]

theorem State.onPort_wf (s : State) (p : Fin 6) (f : Chip → Chip) (hf : ∀ c : Chip, c.mem.wf = true → (f c).mem.wf = true) (h : s.memWf = true) : (s.onPort p f).memWf = true := by
  refine State.mapBoth_wf s _ (fun c hc => ?_) h
  split
  · exact hf c hc
  · exact hc

theorem State.onReached_wf (s : State) (hd : Fin 24) (f : Chip → Chip) (hf : ∀ c : Chip, c.mem.wf = true → (f c).mem.wf = true) (h : s.memWf = true) : (s.onReached hd f).memWf = true := by
  unfold State.onReached
  split
  · exact State.onHome_wf s hd f hf h
  · exact h

theorem State.resetHeads_wf (s : State) (hs : List (Fin 24)) (link : Bool) (hw : s.memWf = true) : (State.resetHeads s hs link).memWf = true := by
  unfold State.resetHeads
  try dsimp only
  repeat' first
    | with_reducible assumption
    | split
    | with_reducible refine State.mapBoth_wf _ _ (fun c h => ?_) ?_
    | with_reducible refine Chip.foldl_wf _ (fun c x h => ?_) _ _ ?_
    | with_reducible refine State.foldl_wf _ (fun s x h => ?_) _ _ ?_
    | simp only [↓Chip.resetHead_mem, ↓Chip.mem_mk, Stores.eta, Chip.mem_parts]

theorem State.mailGet_wf (s : State) (h : Fin 24) (f : Chip → MailReply) (hw : s.memWf = true) : (State.mailGet s h f).memWf = true := by
  unfold State.mailGet
  try dsimp only
  repeat' first
    | with_reducible assumption
    | split
    | with_reducible refine State.onPort_wf _ _ _ (fun c h => ?_) ?_
    | simp only [↓Chip.mailDone_mem, ↓Chip.mapHead_mem, ↓Chip.mailReported_mem, ↓Chip.mem_mk, Stores.eta, Chip.mem_parts]

theorem State.mailSet_wf (s : State) (h : Fin 24) (op : Nat) (manager : Bool) (f : Chip → Except Nat (Effect × Nat)) (hw : s.memWf = true) : (State.mailSet s h op manager f).memWf = true := by
  unfold State.mailSet
  try dsimp only
  repeat' first
    | with_reducible assumption
    | split
    | with_reducible refine State.chip_wf _ _ ?_
    | with_reducible refine State.mapChip_wf _ _ _ (fun c h => ?_) ?_
    | with_reducible refine State.onPort_wf _ _ _ (fun c h => ?_) ?_
    | simp only [↓Chip.mailDone_mem, ↓Chip.mapHead_mem, ↓Chip.postEffect_mem, ↓Chip.mem_mk, Stores.eta, Chip.mem_parts]

theorem State.drawKeys_wf (s : State) (w : Twin) (h : s.memWf = true) : (s.drawKeys w).2.memWf = true := by
  have hl : ∀ (l : List Nat) (a : List (Nat × BitVec 512) × State), a.2.memWf = true →
      (l.foldl (fun (a : List (Nat × BitVec 512) × State) d => (a.1 ++ [(d, Config.drbg a.2.nextFree.1)], a.2.nextFree.2)) a).2.memWf = true := by
    intro l
    induction l with
    | nil => exact fun a ha => ha
    | cons x r ih => exact fun a ha => ih _ ha
  exact hl _ ([], s) h

theorem State.eraseEvery_wf (s : State) (h : Fin 24) (op : Nat) (zero : Bool) (first : List (Effect × Nat)) (hw : s.memWf = true) : (State.eraseEvery s h op zero first).memWf = true := by
  unfold State.eraseEvery
  try dsimp only
  repeat' first
    | with_reducible assumption
    | split
    | with_reducible refine State.drawKeys_wf _ _ ?_
    | with_reducible refine State.chip_wf _ _ ?_
    | with_reducible refine State.mapChip_wf _ _ _ (fun c h => ?_) ?_
    | with_reducible refine State.onPort_wf _ _ _ (fun c h => ?_) ?_
    | with_reducible refine Chip.foldl_wf _ (fun c x h => ?_) _ _ ?_
    | with_reducible refine State.foldl_wf _ (fun s x h => ?_) _ _ ?_
    | simp only [↓Chip.mailDone_mem, ↓Chip.mapHead_mem, ↓Chip.postEffect_mem, ↓Chip.mem_mk, Stores.eta, Chip.mem_parts]

theorem State.sourceChosen_wf (s : State) (w : Twin) (own peer : Summary) (hw : s.memWf = true) : (s.sourceChosen w own peer).memWf = true := by
  unfold State.sourceChosen
  dsimp only
  refine State.mapChip_wf _ w _ (fun c h => ?_) ?_
  · rw [Chip.chooseFor_mem]
    exact h
  · split
    · exact State.nextFree_wf _ hw
    · exact hw

theorem State.sourceChoice_wf (s : State) (w : Twin) (own : Summary) (hw : s.memWf = true) : (State.sourceChoice s w own).memWf = true := by
  unfold State.sourceChoice
  try dsimp only
  repeat' first
    | with_reducible assumption
    | split
    | with_reducible refine State.chip_wf _ _ ?_
    | with_reducible refine State.mapChip_wf _ _ _ (fun c h => ?_) ?_
    | with_reducible refine State.sourceChosen_wf _ _ _ _ ?_
    | simp only [↓Chip.joinServing_mem, ↓Chip.mem_mk, Stores.eta, Chip.mem_parts]

theorem State.samplePins_wf (s : State) (w : Twin) (hw : s.memWf = true) : (State.samplePins s w).memWf = true := by
  unfold State.samplePins
  try dsimp only
  repeat' first
    | with_reducible assumption
    | split
    | with_reducible refine State.chip_wf _ _ ?_
    | with_reducible refine State.mapChip_wf _ _ _ (fun c h => ?_) ?_
    | with_reducible refine Chip.foldl_wf _ (fun c x h => ?_) _ _ ?_
    | with_reducible refine State.foldl_wf _ (fun s x h => ?_) _ _ ?_
    | simp only [↓Chip.put_mem, ↓Chip.mem_mk, Stores.eta, Chip.mem_parts]

theorem State.release_wf (s : State) (w : Twin) (cause : Nat) (x : BootReport) (hw : s.memWf = true) : (State.release s w cause x).memWf = true := by
  unfold State.release
  try dsimp only
  repeat' first
    | with_reducible assumption
    | split
    | with_reducible refine State.chip_wf _ _ ?_
    | with_reducible refine State.samplePins_wf _ _ ?_
    | with_reducible refine State.mapChip_wf _ _ _ (fun c h => ?_) ?_
    | simp only [↓Chip.boot_mem, ↓Chip.mem_mk, Stores.eta, Chip.mem_parts]

theorem State.warmGo_wf (s : State) (w : Twin) (rq : Requester) (x : BootReport) (hw : s.memWf = true) : (State.warmGo s w rq x).memWf = true := by
  unfold State.warmGo
  try dsimp only
  repeat' first
    | with_reducible assumption
    | split
    | with_reducible refine State.chip_wf _ _ ?_
    | with_reducible refine State.release_wf _ _ _ _ ?_
    | with_reducible refine State.mapChip_wf _ _ _ (fun c h => ?_) ?_
    | with_reducible refine Chip.inReset_wf _ _ ?_
    | simp only [↓Chip.reject_mem, ↓Chip.deny_mem, ↓Chip.mem_mk, Stores.eta, Chip.mem_parts]

theorem State.eraseReq_wf (s : State) (w : Twin) (d : Nat) (hw : s.memWf = true) : (State.eraseReq s w d).memWf = true := by
  unfold State.eraseReq
  try dsimp only
  repeat' first
    | with_reducible assumption
    | split
    | with_reducible refine State.nextFree_wf _ ?_
    | with_reducible refine State.chip_wf _ _ ?_
    | with_reducible refine State.mapChip_wf _ _ _ (fun c h => ?_) ?_
    | simp only [↓Chip.reject_mem, ↓Chip.postEffect_mem, ↓Chip.putCfg_mem, ↓Chip.mem_mk, Stores.eta, Chip.mem_parts]

theorem State.eraseEnded_wf (s : State) (d : Nat) (hw : s.memWf = true) : (State.eraseEnded s d).memWf = true := by
  unfold State.eraseEnded
  try dsimp only
  repeat' first
    | with_reducible assumption
    | split
    | with_reducible refine State.mapBoth_wf _ _ (fun c h => ?_) ?_
    | with_reducible refine State.onHome_wf _ _ _ (fun c h => ?_) ?_
    | with_reducible refine Chip.foldl_wf _ (fun c x h => ?_) _ _ ?_
    | with_reducible refine State.foldl_wf _ (fun s x h => ?_) _ _ ?_
    | simp only [↓Chip.reportErase_mem, ↓Chip.endSecureErase_mem, ↓Chip.mem_mk, Stores.eta, Chip.mem_parts]

theorem State.handOver_wf (s : State) (p : Fin 6) (hw : s.memWf = true) : (State.handOver s p).memWf = true := by
  unfold State.handOver
  try dsimp only
  repeat' first
    | with_reducible assumption
    | split
    | with_reducible refine State.chip_wf _ _ ?_
    | with_reducible refine State.mapBoth_wf _ _ (fun c h => ?_) ?_
    | with_reducible refine State.mapChip_wf _ _ _ (fun c h => ?_) ?_
    | simp only [↓Chip.setOwn_mem, ↓Chip.setRole_mem, ↓Chip.mem_mk, Stores.eta, Chip.mem_parts]

theorem State.wantHandover_wf (s : State) (p : Fin 6) (hw : s.memWf = true) : (State.wantHandover s p).memWf = true := by
  unfold State.wantHandover
  try dsimp only
  repeat' first
    | with_reducible assumption
    | split
    | with_reducible refine State.handOver_wf _ _ ?_
    | with_reducible refine State.mapBoth_wf _ _ (fun c h => ?_) ?_
    | simp only [↓Chip.mem_mk, Stores.eta, Chip.mem_parts]

theorem State.portHomeApplied_wf (s : State) (old new : Nat) (hw : s.memWf = true) : (State.portHomeApplied s old new).memWf = true := by
  unfold State.portHomeApplied
  try dsimp only
  repeat' first
    | with_reducible assumption
    | split
    | with_reducible refine State.wantHandover_wf _ _ ?_
    | with_reducible refine Chip.foldl_wf _ (fun c x h => ?_) _ _ ?_
    | with_reducible refine State.foldl_wf _ (fun s x h => ?_) _ _ ?_
    | simp only [↓Chip.mem_mk, Stores.eta, Chip.mem_parts]

theorem State.drill_wf (s : State) (p : Fin 6) (hw : s.memWf = true) : (State.drill s p).memWf = true := by
  unfold State.drill
  try dsimp only
  repeat' first
    | with_reducible assumption
    | split
    | with_reducible refine State.mapBoth_wf _ _ (fun c h => ?_) ?_
    | with_reducible refine State.handOver_wf _ _ ?_
    | simp only [↓Chip.reject_mem, ↓Chip.put_mem, ↓Chip.raise_mem, ↓Chip.mem_mk, Stores.eta, Chip.mem_parts]

theorem State.resyncStep_wf (s : State) (step : Nat) (hw : s.memWf = true) : (State.resyncStep s step).memWf = true := by
  unfold State.resyncStep
  try dsimp only
  repeat' first
    | with_reducible assumption
    | split
    | with_reducible refine State.mapBoth_wf _ _ (fun c h => ?_) ?_
    | simp only [↓Chip.put_mem, ↓Chip.mem_mk, Stores.eta, Chip.mem_parts]

theorem State.linkFalls_wf (s : State) (w : Twin) (hw : s.memWf = true) : (State.linkFalls s w).memWf = true := by
  unfold State.linkFalls
  try dsimp only
  repeat' first
    | with_reducible assumption
    | split
    | with_reducible refine State.mapChip_wf _ _ _ (fun c h => ?_) ?_
    | simp only [↓Chip.fallLink_mem, ↓Chip.failReads_mem, ↓Chip.mem_mk, Stores.eta, Chip.mem_parts]

theorem State.taken_wf (s : State) (w : Twin) (hw : s.memWf = true) : (State.taken s w).memWf = true := by
  unfold State.taken
  try dsimp only
  repeat' first
    | with_reducible assumption
    | split
    | with_reducible refine State.mapChip_wf _ _ _ (fun c h => ?_) ?_
    | simp only [↓Chip.mem_mk, Stores.eta, Chip.mem_parts]

theorem State.receive_wf (s : State) (w : Twin) (cls : Nat) (f : EnvBody → State → State)
    (hf : ∀ (b : EnvBody) (s : State), s.memWf = true → (f b s).memWf = true) (h : s.memWf = true) : (s.receive w cls f).memWf = true := by
  unfold State.receive
  split
  · exact h
  · rename_i e he
    split
    · exact h
    · have h1 := State.taken_wf s w h
      have h2 : ((((s.taken w).chip w).takeAck e).accepts e).1.mem.wf = true := by
        rw [Chip.accepts_mem, Chip.takeAck_mem]
        exact State.chip_wf _ w h1
      have h3 := State.setChip_wf _ w _ h2 h1
      simp only []
      split
      · exact hf _ _ h3
      · exact h3

theorem State.storeWord_wf (s : State) (w : Twin) (rq : Requester) (via : Option Twin) (page off : Nat) (v : Word) (hw : s.memWf = true) : (State.storeWord s w rq via page off v).memWf = true := by
  unfold State.storeWord
  try dsimp only
  repeat' first
    | with_reducible assumption
    | split
    | with_reducible refine State.nextFree_wf _ ?_
    | with_reducible refine State.chip_wf _ _ ?_
    | with_reducible refine State.setChip_wf _ _ _ ?_ ?_
    | with_reducible refine State.drawKey_wf _ _ _ ?_
    | with_reducible refine State.mapChip_wf _ _ _ (fun c h => ?_) ?_
    | with_reducible refine State.warmGo_wf _ _ _ _ ?_
    | with_reducible refine State.eraseReq_wf _ _ _ ?_
    | with_reducible refine Chip.domainWrite_wf _ _ _ _ _ _ ?_
    | with_reducible refine Chip.writeWord_wf _ _ _ _ _ _ _ ?_
    | simp only [↓Chip.doorbell_mem, ↓Chip.forceAlone_mem, ↓Chip.mem_mk, Stores.eta, Chip.mem_parts]

theorem State.writePage_wf (s : State) (w : Twin) (rq : Requester) (x : PageWrite) (hw : s.memWf = true) : (State.writePage s w rq x).memWf = true := by
  unfold State.writePage
  try dsimp only
  repeat' first
    | with_reducible assumption
    | split
    | with_reducible refine State.chip_wf _ _ ?_
    | with_reducible refine State.mapChip_wf _ _ _ (fun c h => ?_) ?_
    | with_reducible refine State.storeWord_wf _ _ _ _ _ _ _ ?_
    | with_reducible refine Chip.foldl_wf _ (fun c x h => ?_) _ _ ?_
    | with_reducible refine State.foldl_wf _ (fun s x h => ?_) _ _ ?_
    | simp only [↓Chip.badAccess_mem, ↓Chip.doorbell_mem, ↓Chip.deny_mem, ↓Chip.mem_mk, Stores.eta, Chip.mem_parts]

theorem State.writeAlias_wf (s : State) (w : Twin) (rq : Requester) (x : PageWrite) (hw : s.memWf = true) : (State.writeAlias s w rq x).memWf = true := by
  unfold State.writeAlias
  try dsimp only
  repeat' first
    | with_reducible assumption
    | split
    | with_reducible refine State.chip_wf _ _ ?_
    | with_reducible refine State.mapChip_wf _ _ _ (fun c h => ?_) ?_
    | with_reducible refine Chip.foldl_wf _ (fun c x h => ?_) _ _ ?_
    | with_reducible refine State.foldl_wf _ (fun s x h => ?_) _ _ ?_
    | simp only [↓Chip.badAccess_mem, ↓Chip.doorbell_mem, ↓Chip.deny_mem, ↓Chip.acceptAlias_mem, ↓Chip.mem_mk, Stores.eta, Chip.mem_parts]

theorem State.writePeer_wf (s : State) (w : Twin) (rq : Requester) (x : PageWrite) (hw : s.memWf = true) : (State.writePeer s w rq x).memWf = true := by
  unfold State.writePeer
  try dsimp only
  repeat' first
    | with_reducible assumption
    | split
    | with_reducible refine State.chip_wf _ _ ?_
    | with_reducible refine State.mapChip_wf _ _ _ (fun c h => ?_) ?_
    | with_reducible refine Chip.foldl_wf _ (fun c x h => ?_) _ _ ?_
    | with_reducible refine State.foldl_wf _ (fun s x h => ?_) _ _ ?_
    | simp only [↓Chip.badAccess_mem, ↓Chip.doorbell_mem, ↓Chip.deny_mem, ↓Chip.cnt_mem, ↓Chip.send_mem, ↓Chip.mem_mk, Stores.eta,
        Chip.mem_parts]

theorem State.readPage_wf (s : State) (w : Twin) (rq : Requester) (page off size : Nat) (hw : s.memWf = true) : (State.readPage s w rq page off size).memWf = true := by
  unfold State.readPage
  try dsimp only
  repeat' first
    | with_reducible assumption
    | split
    | with_reducible refine State.mapChip_wf _ _ _ (fun c h => ?_) ?_
    | simp only [↓Chip.answer_mem, ↓Chip.badAccess_mem, ↓Chip.takePage_mem, ↓Chip.mem_mk, Stores.eta, Chip.mem_parts]

theorem State.readPeer_wf (s : State) (w : Twin) (rq : Requester) (page off size : Nat) (hw : s.memWf = true) : (State.readPeer s w rq page off size).memWf = true := by
  unfold State.readPeer
  try dsimp only
  repeat' first
    | with_reducible assumption
    | split
    | with_reducible refine State.mapChip_wf _ _ _ (fun c h => ?_) ?_
    | simp only [↓Chip.answer_mem, ↓Chip.badAccess_mem, ↓Chip.cnt_mem, ↓Chip.send_mem, ↓Chip.mem_mk, Stores.eta, Chip.mem_parts]

theorem State.applyAlias_wf (s : State) (a : AliasWrite) (onA onB : Bool) (hw : s.memWf = true) : (State.applyAlias s a onA onB).memWf = true := by
  unfold State.applyAlias
  try dsimp only
  repeat' first
    | with_reducible assumption
    | split
    | with_reducible refine State.chip_wf _ _ ?_
    | with_reducible refine State.storeWord_wf _ _ _ _ _ _ _ ?_
    | with_reducible refine State.portHomeApplied_wf _ _ _ ?_
    | with_reducible refine State.drill_wf _ _ ?_
    | with_reducible refine State.mapBoth_wf _ _ (fun c h => ?_) ?_
    | simp only [↓Chip.reject_mem, ↓Chip.mem_mk, Stores.eta, Chip.mem_parts]

theorem State.applyAliases_wf (s : State) (hw : s.memWf = true) : (State.applyAliases s).memWf = true := by
  unfold State.applyAliases
  try dsimp only
  repeat' first
    | with_reducible assumption
    | split
    | with_reducible refine State.mapBoth_wf _ _ (fun c h => ?_) ?_
    | with_reducible refine State.applyAlias_wf _ _ _ _ ?_
    | with_reducible refine Chip.foldl_wf _ (fun c x h => ?_) _ _ ?_
    | with_reducible refine State.foldl_wf _ (fun s x h => ?_) _ _ ?_
    | simp only [↓Chip.mem_mk, Stores.eta, Chip.mem_parts]

theorem State.keysAfter_wf (s old : State) (w : Twin) (hw : s.memWf = true) : (State.keysAfter s old w).memWf = true := by
  unfold State.keysAfter
  try dsimp only
  repeat' first
    | with_reducible assumption
    | split
    | with_reducible refine State.chip_wf _ _ ?_
    | with_reducible refine State.drawKey_wf _ _ _ ?_
    | with_reducible refine Chip.foldl_wf _ (fun c x h => ?_) _ _ ?_
    | with_reducible refine State.foldl_wf _ (fun s x h => ?_) _ _ ?_
    | simp only [↓Chip.mem_mk, Stores.eta, Chip.mem_parts]

theorem State.servePeer_wf (s : State) (w : Twin) (b : EnvBody) (hw : s.memWf = true) : (State.servePeer s w b).memWf = true := by
  unfold State.servePeer
  try dsimp only
  repeat' first
    | with_reducible assumption
    | split
    | with_reducible refine State.mapChip_wf _ _ _ (fun c h => ?_) ?_
    | with_reducible refine State.storeWord_wf _ _ _ _ _ _ _ ?_
    | with_reducible refine Chip.foldl_wf _ (fun c x h => ?_) _ _ ?_
    | with_reducible refine State.foldl_wf _ (fun s x h => ?_) _ _ ?_
    | simp only [↓Chip.takeWord_mem, ↓Chip.send_mem, ↓Chip.takeAnswer_mem, ↓Chip.mem_mk, Stores.eta, Chip.mem_parts]

theorem State.ioAnswer_wf (s : State) (h : Fin 24) (f : Chip → List Byte) (hw : s.memWf = true) : (State.ioAnswer s h f).memWf = true := by
  unfold State.ioAnswer
  try dsimp only
  repeat' first
    | with_reducible assumption
    | split
    | with_reducible refine State.onHome_wf _ _ _ (fun c h => ?_) ?_
    | simp only [↓Chip.toHost_mem, ↓Chip.hearOther_mem, ↓Chip.cnt_mem, ↓Chip.mem_mk, Stores.eta, Chip.mem_parts]

theorem State.barRead_wf (s : State) (h : Fin 24) (off size : Nat) (hw : s.memWf = true) : (State.barRead s h off size).memWf = true := by
  unfold State.barRead
  try dsimp only
  repeat' first
    | with_reducible assumption
    | split
    | with_reducible refine State.ioAnswer_wf _ _ _ ?_
    | with_reducible refine State.mapChip_wf _ _ _ (fun c h => ?_) ?_
    | with_reducible refine State.readPeer_wf _ _ _ _ _ _ ?_
    | with_reducible refine State.readPage_wf _ _ _ _ _ _ ?_
    | simp only [↓Chip.hearOther_mem, ↓Chip.cnt_mem, ↓Chip.mem_mk, Stores.eta, Chip.mem_parts]

theorem State.barWrite_wf (s : State) (h : Fin 24) (off size : Nat) (v : BitVec 64) (hw : s.memWf = true) : (State.barWrite s h off size v).memWf = true := by
  unfold State.barWrite
  try dsimp only
  repeat' first
    | with_reducible assumption
    | split
    | with_reducible refine State.onPort_wf _ _ _ (fun c h => ?_) ?_
    | with_reducible refine State.mapChip_wf _ _ _ (fun c h => ?_) ?_
    | with_reducible refine State.writeAlias_wf _ _ _ _ ?_
    | with_reducible refine State.writePage_wf _ _ _ _ ?_
    | with_reducible refine State.writePeer_wf _ _ _ _ ?_
    | simp only [↓Chip.hearOther_mem, ↓Chip.cnt_mem, ↓Chip.cxlAreaWrite_mem, ↓Chip.mem_mk, Stores.eta, Chip.mem_parts]

theorem State.busAccess_wf (s : State) (w : Twin) (x : BusAccess) (hw : s.memWf = true) : (State.busAccess s w x).memWf = true := by
  unfold State.busAccess
  try dsimp only
  repeat' first
    | with_reducible assumption
    | split
    | with_reducible refine State.readPage_wf _ _ _ _ _ _ ?_
    | with_reducible refine State.writePage_wf _ _ _ _ ?_
    | with_reducible refine State.readPeer_wf _ _ _ _ _ _ ?_
    | with_reducible refine State.writePeer_wf _ _ _ _ ?_
    | with_reducible refine State.writeAlias_wf _ _ _ _ ?_
    | with_reducible refine State.mapChip_wf _ _ _ (fun c h => ?_) ?_
    | with_reducible refine Chip.busWrite_wf _ _ _ _ ?_
    | simp only [↓Chip.answer_mem, ↓Chip.mem_mk, Stores.eta, Chip.mem_parts]

end Sys2Proof.Machine
end

