-- ==== Sys2Proof/Laws/MemFrame.lean ====
section
/-! SUPPORT. Commands that store nothing: each keeps whatever can be said of the byte stores of both chips. -/
namespace Sys2Proof.Machine

set_option simprocs false

theorem Chip.foldl_keep {P : Stores → Prop} {α : Type} (g : Chip → α → Chip) (hg : ∀ c x, P c.mem → P (g c x).mem) (l : List α) :
    ∀ c : Chip, P c.mem → P (l.foldl g c).mem := by
  induction l with
  | nil => exact fun c h => h
  | cons x r ih => exact fun c h => ih (g c x) (hg c x h)

theorem Chip.ifWrites_keep {P : Stores → Prop} (c : Chip) (rq : Requester) (page : Nat) (f : Chip → Chip) (hf : ∀ c : Chip, P c.mem → P (f c).mem)
    (h : P c.mem) : P (c.ifWrites rq page f).mem := by
  unfold Chip.ifWrites
  split
  · exact hf c h
  · rw [Chip.deny_mem]
    exact h

theorem Chip.ifMachine_keep {P : Stores → Prop} (c : Chip) (rq : Requester) (f : Chip → Chip) (hf : ∀ c : Chip, P c.mem → P (f c).mem)
    (h : P c.mem) : P (c.ifMachine rq f).mem := by
  unfold Chip.ifMachine
  split
  · exact hf c h
  · rw [Chip.deny_mem]
    exact h

theorem Chip.ifRunning_keep {P : Stores → Prop} (c : Chip) (page off : Nat) (f : Chip → Chip) (hf : ∀ c : Chip, P c.mem → P (f c).mem)
    (h : P c.mem) : P (c.ifRunning page off f).mem := by
  unfold Chip.ifRunning
  split
  · exact hf c h
  · rw [Chip.reject_mem]
    exact h

theorem Chip.headerWrite_keep {P : Stores → Prop} (c : Chip) (rq : Requester) (page : Nat) (f : Chip → Chip) (hf : ∀ c : Chip, P c.mem → P (f c).mem)
    (h : P c.mem) : P (c.headerWrite rq page f).mem := by
  unfold Chip.headerWrite
  split
  · exact h
  · exact Chip.ifWrites_keep c rq page f hf h

theorem Chip.inSession_keep {P : Stores → Prop} (c : Chip) (h : Fin 24) (id : Nat) (f : Chip → Chip) (hf : ∀ c : Chip, P c.mem → P (f c).mem)
    (hw : P c.mem) : P (c.inSession h id f).mem := by
  unfold Chip.inSession
  try simp only []
  split
  · exact hf c hw
  · rw [Chip.setDoe_mem]
    exact hw

theorem Chip.continueTags_keep {P : Stores → Prop} (c : Chip) (p : Tag → Bool) (f : Chip → Tag → Chip)
    (hf : ∀ (c : Chip) (t : Tag), P c.mem → P (f c t).mem) (h : P c.mem) : P (c.continueTags p f).mem := by
  unfold Chip.continueTags
  refine Chip.foldl_keep _ (fun c t hc => ?_) _ _ h
  split
  · split
    · exact hf c _ hc
    · exact hc
  · exact hc

theorem Chip.spdm_keep {P : Stores → Prop} (c : Chip) (h : Fin 24) (needs : Nat) (f : Chip → Chip) (hf : ∀ c : Chip, P c.mem → P (f c).mem)
    (hw : P c.mem) : P (c.spdm h needs f).mem := by
  unfold Chip.spdm
  try simp only []
  split
  · rw [Chip.setDoe_mem, Chip.cnt_mem]
    exact hw
  · exact hf _ (by rw [Chip.cnt_mem]; exact hw)

/-- What a property says of the memories of both chips, each by its name. -/
def State.memP (P : Twin → Stores → Prop) (s : State) : Prop := P .A s.a.mem ∧ P .B s.b.mem

theorem State.chip_keep {P : Twin → Stores → Prop} (s : State) (w : Twin) (h : s.memP P) : P w (s.chip w).mem := by
  cases w
  · exact h.1
  · exact h.2

theorem State.setChip_keep {P : Twin → Stores → Prop} (s : State) (w : Twin) (c : Chip) (hc : P w c.mem) (h : s.memP P) : (s.setChip w c).memP P := by
  cases w
  · exact ⟨hc, h.2⟩
  · exact ⟨h.1, hc⟩

theorem State.foldl_keep {P : Twin → Stores → Prop} {α : Type} (g : State → α → State) (hg : ∀ s x, s.memP P → (g s x).memP P) (l : List α) :
    ∀ s : State, s.memP P → (l.foldl g s).memP P := by
  induction l with
  | nil => exact fun s h => h
  | cons x r ih => exact fun s h => ih (g s x) (hg s x h)

theorem State.mapChip_keep {P : Twin → Stores → Prop} (s : State) (w : Twin) (f : Chip → Chip) (hf : ∀ c : Chip, P w c.mem → P w (f c).mem) (h : s.memP P) :
    (s.mapChip w f).memP P := State.setChip_keep s w _ (hf _ (State.chip_keep s w h)) h

theorem State.mapBoth_keep {P : Twin → Stores → Prop} (s : State) (f : Chip → Chip) (hf : ∀ (v : Twin) (c : Chip), P v c.mem → P v (f c).mem) (h : s.memP P) :
    (s.mapBoth f).memP P := State.mapChip_keep _ _ f (hf _) (State.mapChip_keep s _ f (hf _) h)

theorem State.onUp_keep {P : Twin → Stores → Prop} (s : State) (w : Twin) (f : Chip → Chip) (hf : ∀ c : Chip, P w c.mem → P w (f c).mem) (h : s.memP P) :
    (s.onUp w f).memP P := by
  unfold State.onUp
  split
  · exact State.mapChip_keep s w f hf h
  · exact h

theorem State.onHome_keep {P : Twin → Stores → Prop} (s : State) (hd : Fin 24) (f : Chip → Chip) (hf : ∀ (v : Twin) (c : Chip), P v c.mem → P v (f c).mem) (h : s.memP P) :
    (s.onHome hd f).memP P := by
  unfold State.onHome
  split
  · exact State.mapChip_keep s _ f (hf _) h
  · exact h

theorem State.nextFree_keep {P : Twin → Stores → Prop} (s : State) (h : s.memP P) : s.nextFree.2.memP P := h

theorem State.free_keep {P : Twin → Stores → Prop} (s : State) (n : Nat) (h : s.memP P) : State.memP P { s with free := n } := h

theorem State.arrive_keep {P : Twin → Stores → Prop} (s : State) (r : Request) (v : Arrival) (hw : s.memP P) : (State.arrive s r v).memP P := by
  unfold State.arrive
  try dsimp only
  repeat' first
    | with_reducible assumption
    | split
    | with_reducible refine State.chip_keep _ _ ?_
    | with_reducible refine State.mapChip_keep _ _ _ (fun c h => ?_) ?_
    | simp only [↓Chip.arriveHome_mem, ↓Chip.arriveCarbon_mem, ↓Chip.mem_mk, Stores.eta, Chip.mem_parts]

theorem State.birsp_keep {P : Twin → Stores → Prop} (s : State) (h : Fin 24) (line kind : Nat) (hw : s.memP P) : (State.birsp s h line kind).memP P := by
  unfold State.birsp
  try dsimp only
  repeat' first
    | with_reducible assumption
    | split
    | with_reducible refine State.mapBoth_keep _ _ (fun _ c h => ?_) ?_
    | simp only [↓Chip.hearBirsp_mem, ↓Chip.hearOther_mem, ↓Chip.mem_mk, Stores.eta, Chip.mem_parts]

theorem State.ringOp_keep {P : Twin → Stores → Prop} (s : State) (q : Fin 64) (idx op : Nat) (f : Chip → Nat → RingCmd → Chip)
    (hf : ∀ (v : Twin) (c : Chip) (n : Nat) (r : RingCmd), P v c.mem → P v (f c n r).mem) (h : s.memP P) : (s.ringOp q idx op f).memP P := by
  unfold State.ringOp
  refine State.mapBoth_keep s _ (fun v c hc => ?_) h
  repeat' first
    | with_reducible assumption
    | split
    | with_reducible refine hf _ _ _ _ ?_
    | simp only [↓Chip.mapRing_mem]

theorem State.onPort_keep {P : Twin → Stores → Prop} (s : State) (p : Fin 6) (f : Chip → Chip) (hf : ∀ (v : Twin) (c : Chip), P v c.mem → P v (f c).mem) (h : s.memP P) :
    (s.onPort p f).memP P := by
  refine State.mapBoth_keep s _ (fun v c hc => ?_) h
  split
  · exact hf v c hc
  · exact hc

theorem State.onReached_keep {P : Twin → Stores → Prop} (s : State) (hd : Fin 24) (f : Chip → Chip) (hf : ∀ (v : Twin) (c : Chip), P v c.mem → P v (f c).mem) (h : s.memP P) :
    (s.onReached hd f).memP P := by
  unfold State.onReached
  split
  · exact State.onHome_keep s hd f hf h
  · exact h

theorem State.resetHeads_keep {P : Twin → Stores → Prop} (s : State) (hs : List (Fin 24)) (link : Bool) (hw : s.memP P) : (State.resetHeads s hs link).memP P := by
  unfold State.resetHeads
  try dsimp only
  repeat' first
    | with_reducible assumption
    | split
    | with_reducible refine State.mapBoth_keep _ _ (fun _ c h => ?_) ?_
    | with_reducible refine Chip.foldl_keep _ (fun c x h => ?_) _ _ ?_
    | with_reducible refine State.foldl_keep _ (fun s x h => ?_) _ _ ?_
    | simp only [↓Chip.resetHead_mem, ↓Chip.mem_mk, Stores.eta, Chip.mem_parts]

theorem State.mailGet_keep {P : Twin → Stores → Prop} (s : State) (h : Fin 24) (f : Chip → MailReply) (hw : s.memP P) : (State.mailGet s h f).memP P := by
  unfold State.mailGet
  try dsimp only
  repeat' first
    | with_reducible assumption
    | split
    | with_reducible refine State.onPort_keep _ _ _ (fun _ c h => ?_) ?_
    | simp only [↓Chip.mailDone_mem, ↓Chip.mapHead_mem, ↓Chip.mailReported_mem, ↓Chip.mem_mk, Stores.eta, Chip.mem_parts]

theorem State.mailSet_keep {P : Twin → Stores → Prop} (s : State) (h : Fin 24) (op : Nat) (manager : Bool) (f : Chip → Except Nat (Effect × Nat)) (hw : s.memP P) : (State.mailSet s h op manager f).memP P := by
  unfold State.mailSet
  try dsimp only
  repeat' first
    | with_reducible assumption
    | split
    | with_reducible refine State.chip_keep _ _ ?_
    | with_reducible refine State.mapChip_keep _ _ _ (fun c h => ?_) ?_
    | with_reducible refine State.onPort_keep _ _ _ (fun _ c h => ?_) ?_
    | simp only [↓Chip.mailDone_mem, ↓Chip.mapHead_mem, ↓Chip.postEffect_mem, ↓Chip.mem_mk, Stores.eta, Chip.mem_parts]

theorem State.drawKeys_keep {P : Twin → Stores → Prop} (s : State) (w : Twin) (h : s.memP P) : (s.drawKeys w).2.memP P := by
  have hl : ∀ (l : List Nat) (a : List (Nat × BitVec 512) × State), a.2.memP P →
      (l.foldl (fun (a : List (Nat × BitVec 512) × State) d => (a.1 ++ [(d, Config.drbg a.2.nextFree.1)], a.2.nextFree.2)) a).2.memP P := by
    intro l
    induction l with
    | nil => exact fun a ha => ha
    | cons x r ih => exact fun a ha => ih _ ha
  exact hl _ ([], s) h

theorem State.eraseEvery_keep {P : Twin → Stores → Prop} (s : State) (h : Fin 24) (op : Nat) (zero : Bool) (first : List (Effect × Nat)) (hw : s.memP P) : (State.eraseEvery s h op zero first).memP P := by
  unfold State.eraseEvery
  try dsimp only
  repeat' first
    | with_reducible assumption
    | split
    | with_reducible refine State.drawKeys_keep _ _ ?_
    | with_reducible refine State.chip_keep _ _ ?_
    | with_reducible refine State.mapChip_keep _ _ _ (fun c h => ?_) ?_
    | with_reducible refine State.onPort_keep _ _ _ (fun _ c h => ?_) ?_
    | with_reducible refine Chip.foldl_keep _ (fun c x h => ?_) _ _ ?_
    | with_reducible refine State.foldl_keep _ (fun s x h => ?_) _ _ ?_
    | simp only [↓Chip.mailDone_mem, ↓Chip.mapHead_mem, ↓Chip.postEffect_mem, ↓Chip.mem_mk, Stores.eta, Chip.mem_parts]

theorem State.sourceChosen_keep {P : Twin → Stores → Prop} (s : State) (w : Twin) (own peer : Summary) (hw : s.memP P) : (s.sourceChosen w own peer).memP P := by
  unfold State.sourceChosen
  dsimp only
  refine State.mapChip_keep _ w _ (fun c h => ?_) ?_
  · rw [Chip.chooseFor_mem]
    exact h
  · split
    · exact State.nextFree_keep _ hw
    · exact hw

theorem State.sourceChoice_keep {P : Twin → Stores → Prop} (s : State) (w : Twin) (own : Summary) (hw : s.memP P) : (State.sourceChoice s w own).memP P := by
  unfold State.sourceChoice
  try dsimp only
  repeat' first
    | with_reducible assumption
    | split
    | with_reducible refine State.chip_keep _ _ ?_
    | with_reducible refine State.mapChip_keep _ _ _ (fun c h => ?_) ?_
    | with_reducible refine State.sourceChosen_keep _ _ _ _ ?_
    | simp only [↓Chip.joinServing_mem, ↓Chip.mem_mk, Stores.eta, Chip.mem_parts]

theorem State.samplePins_keep {P : Twin → Stores → Prop} (s : State) (w : Twin) (hw : s.memP P) : (State.samplePins s w).memP P := by
  unfold State.samplePins
  try dsimp only
  repeat' first
    | with_reducible assumption
    | split
    | with_reducible refine State.chip_keep _ _ ?_
    | with_reducible refine State.mapChip_keep _ _ _ (fun c h => ?_) ?_
    | with_reducible refine Chip.foldl_keep _ (fun c x h => ?_) _ _ ?_
    | with_reducible refine State.foldl_keep _ (fun s x h => ?_) _ _ ?_
    | simp only [↓Chip.put_mem, ↓Chip.mem_mk, Stores.eta, Chip.mem_parts]

theorem State.release_keep {P : Twin → Stores → Prop} (s : State) (w : Twin) (cause : Nat) (x : BootReport) (hw : s.memP P) : (State.release s w cause x).memP P := by
  unfold State.release
  try dsimp only
  repeat' first
    | with_reducible assumption
    | split
    | with_reducible refine State.chip_keep _ _ ?_
    | with_reducible refine State.samplePins_keep _ _ ?_
    | with_reducible refine State.mapChip_keep _ _ _ (fun c h => ?_) ?_
    | simp only [↓Chip.boot_mem, ↓Chip.mem_mk, Stores.eta, Chip.mem_parts]

theorem State.eraseReq_keep {P : Twin → Stores → Prop} (s : State) (w : Twin) (d : Nat) (hw : s.memP P) : (State.eraseReq s w d).memP P := by
  unfold State.eraseReq
  try dsimp only
  repeat' first
    | with_reducible assumption
    | split
    | with_reducible refine State.nextFree_keep _ ?_
    | with_reducible refine State.chip_keep _ _ ?_
    | with_reducible refine State.mapChip_keep _ _ _ (fun c h => ?_) ?_
    | simp only [↓Chip.reject_mem, ↓Chip.postEffect_mem, ↓Chip.putCfg_mem, ↓Chip.mem_mk, Stores.eta, Chip.mem_parts]

theorem State.handOver_keep {P : Twin → Stores → Prop} (s : State) (p : Fin 6) (hw : s.memP P) : (State.handOver s p).memP P := by
  unfold State.handOver
  try dsimp only
  repeat' first
    | with_reducible assumption
    | split
    | with_reducible refine State.chip_keep _ _ ?_
    | with_reducible refine State.mapBoth_keep _ _ (fun _ c h => ?_) ?_
    | with_reducible refine State.mapChip_keep _ _ _ (fun c h => ?_) ?_
    | simp only [↓Chip.setOwn_mem, ↓Chip.setRole_mem, ↓Chip.mem_mk, Stores.eta, Chip.mem_parts]

theorem State.drill_keep {P : Twin → Stores → Prop} (s : State) (p : Fin 6) (hw : s.memP P) : (State.drill s p).memP P := by
  unfold State.drill
  try dsimp only
  repeat' first
    | with_reducible assumption
    | split
    | with_reducible refine State.mapBoth_keep _ _ (fun _ c h => ?_) ?_
    | with_reducible refine State.handOver_keep _ _ ?_
    | simp only [↓Chip.reject_mem, ↓Chip.put_mem, ↓Chip.raise_mem, ↓Chip.mem_mk, Stores.eta, Chip.mem_parts]

theorem State.resyncStep_keep {P : Twin → Stores → Prop} (s : State) (step : Nat) (hw : s.memP P) : (State.resyncStep s step).memP P := by
  unfold State.resyncStep
  try dsimp only
  repeat' first
    | with_reducible assumption
    | split
    | with_reducible refine State.mapBoth_keep _ _ (fun _ c h => ?_) ?_
    | simp only [↓Chip.put_mem, ↓Chip.mem_mk, Stores.eta, Chip.mem_parts]

theorem State.linkFalls_keep {P : Twin → Stores → Prop} (s : State) (w : Twin) (hw : s.memP P) : (State.linkFalls s w).memP P := by
  unfold State.linkFalls
  try dsimp only
  repeat' first
    | with_reducible assumption
    | split
    | with_reducible refine State.mapChip_keep _ _ _ (fun c h => ?_) ?_
    | simp only [↓Chip.fallLink_mem, ↓Chip.failReads_mem, ↓Chip.mem_mk, Stores.eta, Chip.mem_parts]

theorem State.taken_keep {P : Twin → Stores → Prop} (s : State) (w : Twin) (hw : s.memP P) : (State.taken s w).memP P := by
  unfold State.taken
  try dsimp only
  repeat' first
    | with_reducible assumption
    | split
    | with_reducible refine State.mapChip_keep _ _ _ (fun c h => ?_) ?_
    | simp only [↓Chip.mem_mk, Stores.eta, Chip.mem_parts]

theorem State.receive_keep {P : Twin → Stores → Prop} (s : State) (w : Twin) (cls : Nat) (f : EnvBody → State → State)
    (hf : ∀ (b : EnvBody) (s : State), s.memP P → (f b s).memP P) (h : s.memP P) : (s.receive w cls f).memP P := by
  unfold State.receive
  split
  · exact h
  · rename_i e he
    split
    · exact h
    · have h1 : (s.taken w).memP P := State.taken_keep s w h
      have h2 : P w ((((s.taken w).chip w).takeAck e).accepts e).1.mem := by
        rw [Chip.accepts_mem, Chip.takeAck_mem]
        exact State.chip_keep _ w h1
      have h3 := State.setChip_keep _ w _ h2 h1
      simp only []
      split
      · exact hf _ _ h3
      · exact h3

theorem State.writeAlias_keep {P : Twin → Stores → Prop} (s : State) (w : Twin) (rq : Requester) (x : PageWrite) (hw : s.memP P) : (State.writeAlias s w rq x).memP P := by
  unfold State.writeAlias
  try dsimp only
  repeat' first
    | with_reducible assumption
    | split
    | with_reducible refine State.chip_keep _ _ ?_
    | with_reducible refine State.mapChip_keep _ _ _ (fun c h => ?_) ?_
    | with_reducible refine Chip.foldl_keep _ (fun c x h => ?_) _ _ ?_
    | with_reducible refine State.foldl_keep _ (fun s x h => ?_) _ _ ?_
    | simp only [↓Chip.badAccess_mem, ↓Chip.doorbell_mem, ↓Chip.deny_mem, ↓Chip.acceptAlias_mem, ↓Chip.mem_mk, Stores.eta, Chip.mem_parts]

theorem State.writePeer_keep {P : Twin → Stores → Prop} (s : State) (w : Twin) (rq : Requester) (x : PageWrite) (hw : s.memP P) : (State.writePeer s w rq x).memP P := by
  unfold State.writePeer
  try dsimp only
  repeat' first
    | with_reducible assumption
    | split
    | with_reducible refine State.chip_keep _ _ ?_
    | with_reducible refine State.mapChip_keep _ _ _ (fun c h => ?_) ?_
    | with_reducible refine Chip.foldl_keep _ (fun c x h => ?_) _ _ ?_
    | with_reducible refine State.foldl_keep _ (fun s x h => ?_) _ _ ?_
    | simp only [↓Chip.badAccess_mem, ↓Chip.doorbell_mem, ↓Chip.deny_mem, ↓Chip.cnt_mem, ↓Chip.send_mem, ↓Chip.mem_mk, Stores.eta,
        Chip.mem_parts]

theorem State.readPeer_keep {P : Twin → Stores → Prop} (s : State) (w : Twin) (rq : Requester) (page off size : Nat) (hw : s.memP P) : (State.readPeer s w rq page off size).memP P := by
  unfold State.readPeer
  try dsimp only
  repeat' first
    | with_reducible assumption
    | split
    | with_reducible refine State.mapChip_keep _ _ _ (fun c h => ?_) ?_
    | simp only [↓Chip.answer_mem, ↓Chip.badAccess_mem, ↓Chip.cnt_mem, ↓Chip.send_mem, ↓Chip.mem_mk, Stores.eta, Chip.mem_parts]

theorem execInterruptArrival_keep {P : Twin → Stores → Prop} (w : Twin) (i : Fin 1024) (level : Bool) (s : State) (hw : s.memP P) {t : State} (ht : execInterruptArrival w i level s = .next t) : t.memP P := by
  injection ht with ht
  subst ht
  repeat' first
    | with_reducible assumption
    | split
    | with_reducible refine State.onUp_keep _ _ _ (fun c h => ?_) ?_
    | simp only [↓Chip.inputLevel_mem, ↓Chip.pulse_mem, ↓Chip.mem_mk, Stores.eta, Chip.mem_parts]

theorem execCoalTimer_keep {P : Twin → Stores → Prop} (w : Twin) (g : Fin 64) (s : State) (hw : s.memP P) {t : State} (ht : execCoalTimer w g s = .next t) : t.memP P := by
  injection ht with ht
  subst ht
  repeat' first
    | with_reducible assumption
    | split
    | with_reducible refine State.onUp_keep _ _ _ (fun c h => ?_) ?_
    | simp only [↓Chip.icuUpdate_mem, ↓Chip.fireGroup_mem, ↓Chip.mem_mk, Stores.eta, Chip.mem_parts]

theorem execFastEntry_keep {P : Twin → Stores → Prop} (w : Twin) (n : Fin 8) (pc : BitVec 64) (machine : Bool) (s : State) (hw : s.memP P) {t : State} (ht : execFastEntry w n pc machine s = .next t) : t.memP P := by
  injection ht with ht
  subst ht
  repeat' first
    | with_reducible assumption
    | split
    | with_reducible refine State.onUp_keep _ _ _ (fun c h => ?_) ?_
    | simp only [↓Chip.claimSource_mem, ↓Chip.noteLate_mem, ↓Chip.mapCore_mem, ↓Chip.icuUpdate_mem, ↓Chip.cnt_mem, ↓Chip.put_mem,
        ↓Chip.mem_mk, Stores.eta, Chip.mem_parts]

theorem execCoreFret_keep {P : Twin → Stores → Prop} (w : Twin) (n : Fin 8) (s : State) (hw : s.memP P) {t : State} (ht : execCoreFret w n s = .next t) : t.memP P := by
  injection ht with ht
  subst ht
  repeat' first
    | with_reducible assumption
    | split
    | with_reducible refine State.onUp_keep _ _ _ (fun c h => ?_) ?_
    | simp only [↓Chip.mapCore_mem, ↓Chip.finishSource_mem, ↓Chip.icuUpdate_mem, ↓Chip.mem_mk, Stores.eta, Chip.mem_parts]

theorem execIcuClaim_keep {P : Twin → Stores → Prop} (w : Twin) (rq : Requester) (n : Fin 8) (s : State) (hw : s.memP P) {t : State} (ht : execIcuClaim w rq n s = .next t) : t.memP P := by
  injection ht with ht
  subst ht
  repeat' first
    | with_reducible assumption
    | split
    | with_reducible refine State.onUp_keep _ _ _ (fun c h => ?_) ?_
    | simp only [↓Chip.answer_mem, ↓Chip.claimWord_mem, ↓Chip.mem_mk, Stores.eta, Chip.mem_parts]

theorem execIcuComplete_keep {P : Twin → Stores → Prop} (w : Twin) (rq : Requester) (n : Fin 8) (i : Fin 1024) (s : State) (hw : s.memP P) {t : State} (ht : execIcuComplete w rq n i s = .next t) : t.memP P := by
  injection ht with ht
  subst ht
  repeat' first
    | with_reducible assumption
    | split
    | with_reducible refine State.onUp_keep _ _ _ (fun c h => ?_) ?_
    | with_reducible refine Chip.ifWrites_keep _ _ _ _ (fun c h => ?_) ?_
    | simp only [↓Chip.complete_mem, ↓Chip.mem_mk, Stores.eta, Chip.mem_parts]

theorem execIcuSwi_keep {P : Twin → Stores → Prop} (w : Twin) (rq : Requester) (bits : Byte) (s : State) (hw : s.memP P) {t : State} (ht : execIcuSwi w rq bits s = .next t) : t.memP P := by
  injection ht with ht
  subst ht
  repeat' first
    | with_reducible assumption
    | split
    | with_reducible refine State.onUp_keep _ _ _ (fun c h => ?_) ?_
    | with_reducible refine Chip.ifWrites_keep _ _ _ _ (fun c h => ?_) ?_
    | simp only [↓Chip.swi_mem, ↓Chip.mem_mk, Stores.eta, Chip.mem_parts]

theorem execSourceDisable_keep {P : Twin → Stores → Prop} (w : Twin) (rq : Requester) (i : Fin 1024) (s : State) (hw : s.memP P) {t : State}
    (ht : execSourceDisable w rq i s = .next t) : t.memP P := by
  injection ht with ht
  subst ht
  refine State.onUp_keep _ w _ (fun c h => ?_) (State.free_keep s _ hw)
  refine Chip.ifWrites_keep _ _ _ _ (fun c h => ?_) h
  dsimp only
  split
  · rw [Chip.sourceDisable_mem, Chip.putLive_mem]
    exact h
  · rw [Chip.putLive_mem]
    exact h

theorem execTargetChange_keep {P : Twin → Stores → Prop} (w : Twin) (rq : Requester) (i : Fin 1024) (target : Fin 16) (s : State) (hw : s.memP P) {t : State} (ht : execTargetChange w rq i target s = .next t) : t.memP P := by
  injection ht with ht
  subst ht
  repeat' first
    | with_reducible assumption
    | split
    | with_reducible refine State.onUp_keep _ _ _ (fun c h => ?_) ?_
    | with_reducible refine Chip.ifWrites_keep _ _ _ _ (fun c h => ?_) ?_
    | simp only [↓Chip.targetChange_mem, ↓Chip.mem_mk, Stores.eta, Chip.mem_parts]

theorem execCoreWfi_keep {P : Twin → Stores → Prop} (w : Twin) (n : Fin 8) (s : State) (hw : s.memP P) {t : State} (ht : execCoreWfi w n s = .next t) : t.memP P := by
  injection ht with ht
  subst ht
  repeat' first
    | with_reducible assumption
    | split
    | with_reducible refine State.onUp_keep _ _ _ (fun c h => ?_) ?_
    | simp only [↓Chip.wake_mem, ↓Chip.put_mem, ↓Chip.mapCore_mem, ↓Chip.mem_mk, Stores.eta, Chip.mem_parts]

theorem execCoreMtip_keep {P : Twin → Stores → Prop} (w : Twin) (n : Fin 8) (s : State) (hw : s.memP P) {t : State} (ht : execCoreMtip w n s = .next t) : t.memP P := by
  injection ht with ht
  subst ht
  repeat' first
    | with_reducible assumption
    | split
    | with_reducible refine State.onUp_keep _ _ _ (fun c h => ?_) ?_
    | simp only [↓Chip.wake_mem, ↓Chip.mapCore_mem, ↓Chip.mem_mk, Stores.eta, Chip.mem_parts]

theorem execEfcProgram_keep {P : Twin → Stores → Prop} (w : Twin) (rq : Requester) (fetched : Option (Fin 2)) (s : State) (hw : s.memP P) {t : State} (ht : execEfcProgram w rq fetched s = .next t) : t.memP P := by
  injection ht with ht
  subst ht
  repeat' first
    | with_reducible assumption
    | split
    | with_reducible refine State.onUp_keep _ _ _ (fun c h => ?_) ?_
    | with_reducible refine Chip.ifWrites_keep _ _ _ _ (fun c h => ?_) ?_
    | simp only [↓Chip.efcGo_mem, ↓Chip.mem_mk, Stores.eta, Chip.mem_parts]

theorem execEfcErase_keep {P : Twin → Stores → Prop} (w : Twin) (rq : Requester) (fetched : Option (Fin 2)) (s : State) (hw : s.memP P) {t : State} (ht : execEfcErase w rq fetched s = .next t) : t.memP P := by
  injection ht with ht
  subst ht
  repeat' first
    | with_reducible assumption
    | split
    | with_reducible refine State.onUp_keep _ _ _ (fun c h => ?_) ?_
    | with_reducible refine Chip.ifWrites_keep _ _ _ _ (fun c h => ?_) ?_
    | simp only [↓Chip.efcGo_mem, ↓Chip.mem_mk, Stores.eta, Chip.mem_parts]

theorem execPtrSwap_keep {P : Twin → Stores → Prop} (w : Twin) (rq : Requester) (fetched : Option (Fin 2)) (s : State) (hw : s.memP P) {t : State} (ht : execPtrSwap w rq fetched s = .next t) : t.memP P := by
  injection ht with ht
  subst ht
  repeat' first
    | with_reducible assumption
    | split
    | with_reducible refine State.onUp_keep _ _ _ (fun c h => ?_) ?_
    | with_reducible refine Chip.ifWrites_keep _ _ _ _ (fun c h => ?_) ?_
    | simp only [↓Chip.efcGo_mem, ↓Chip.mem_mk, Stores.eta, Chip.mem_parts]

theorem execEfcPulseDone_keep {P : Twin → Stores → Prop} (w : Twin) (firstBad : Option (Fin 512)) (deferUs : Nat) (s : State) (hw : s.memP P) {t : State} (ht : execEfcPulseDone w firstBad deferUs s = .next t) : t.memP P := by
  injection ht with ht
  subst ht
  repeat' first
    | with_reducible assumption
    | split
    | with_reducible refine State.onUp_keep _ _ _ (fun c h => ?_) ?_
    | simp only [↓Chip.put_mem, ↓Chip.cnt_mem, ↓Chip.peak_mem, ↓Chip.efcEnd_mem, ↓Chip.efcPass_mem, ↓Chip.efcFail_mem,
        ↓Chip.releaseDeferred_mem, ↓Chip.mem_mk, Stores.eta, Chip.mem_parts]

theorem execActiveLock_keep {P : Twin → Stores → Prop} (w : Twin) (rq : Requester) (s : State) (hw : s.memP P) {t : State} (ht : execActiveLock w rq s = .next t) : t.memP P := by
  injection ht with ht
  subst ht
  repeat' first
    | with_reducible assumption
    | split
    | with_reducible refine State.onUp_keep _ _ _ (fun c h => ?_) ?_
    | with_reducible refine Chip.ifWrites_keep _ _ _ _ (fun c h => ?_) ?_
    | simp only [↓Chip.activeLock_mem, ↓Chip.mem_mk, Stores.eta, Chip.mem_parts]

theorem execKickChip_keep {P : Twin → Stores → Prop} (w : Twin) (rq : Requester) (first second : Byte) (inTime : Bool) (s : State) (hw : s.memP P) {t : State} (ht : execKickChip w rq first second inTime s = .next t) : t.memP P := by
  injection ht with ht
  subst ht
  repeat' first
    | with_reducible assumption
    | split
    | with_reducible refine State.onUp_keep _ _ _ (fun c h => ?_) ?_
    | with_reducible refine Chip.ifWrites_keep _ _ _ _ (fun c h => ?_) ?_
    | simp only [↓Chip.cnt_mem, ↓Chip.mem_mk, Stores.eta, Chip.mem_parts]

theorem execKickCore_keep {P : Twin → Stores → Prop} (w : Twin) (rq : Requester) (first second : Byte) (inTime : Bool) (s : State) (hw : s.memP P) {t : State} (ht : execKickCore w rq first second inTime s = .next t) : t.memP P := by
  injection ht with ht
  subst ht
  repeat' first
    | with_reducible assumption
    | split
    | with_reducible refine State.onUp_keep _ _ _ (fun c h => ?_) ?_
    | with_reducible refine Chip.ifWrites_keep _ _ _ _ (fun c h => ?_) ?_
    | simp only [↓Chip.mapCore_mem, ↓Chip.cnt_mem, ↓Chip.mem_mk, Stores.eta, Chip.mem_parts]

theorem execChipWatchdogExpiry_keep {P : Twin → Stores → Prop} (w : Twin) (s : State) (hw : s.memP P) {t : State} (ht : execChipWatchdogExpiry w s = .next t) : t.memP P := by
  injection ht with ht
  subst ht
  repeat' first
    | with_reducible assumption
    | split
    | with_reducible refine State.onUp_keep _ _ _ (fun c h => ?_) ?_
    | simp only [↓Chip.deferExpiry_mem, ↓Chip.chipExpiry_mem, ↓Chip.mem_mk, Stores.eta, Chip.mem_parts]

theorem execCoreWatchdogWarn_keep {P : Twin → Stores → Prop} (w : Twin) (n : Fin 8) (s : State) (hw : s.memP P) {t : State} (ht : execCoreWatchdogWarn w n s = .next t) : t.memP P := by
  injection ht with ht
  subst ht
  repeat' first
    | with_reducible assumption
    | split
    | with_reducible refine State.onUp_keep _ _ _ (fun c h => ?_) ?_
    | simp only [↓Chip.deferExpiry_mem, ↓Chip.coreWarn_mem, ↓Chip.mem_mk, Stores.eta, Chip.mem_parts]

theorem execCoreWatchdogReset_keep {P : Twin → Stores → Prop} (w : Twin) (n : Fin 8) (s : State) (hw : s.memP P) {t : State} (ht : execCoreWatchdogReset w n s = .next t) : t.memP P := by
  injection ht with ht
  subst ht
  repeat' first
    | with_reducible assumption
    | split
    | with_reducible refine State.onUp_keep _ _ _ (fun c h => ?_) ?_
    | simp only [↓Chip.deferExpiry_mem, ↓Chip.coreExpiry_mem, ↓Chip.mem_mk, Stores.eta, Chip.mem_parts]

theorem execWdtLockSet_keep {P : Twin → Stores → Prop} (w : Twin) (rq : Requester) (s : State) (hw : s.memP P) {t : State} (ht : execWdtLockSet w rq s = .next t) : t.memP P := by
  injection ht with ht
  subst ht
  repeat' first
    | with_reducible assumption
    | split
    | with_reducible refine State.onUp_keep _ _ _ (fun c h => ?_) ?_
    | with_reducible refine Chip.ifWrites_keep _ _ _ _ (fun c h => ?_) ?_
    | simp only [↓Chip.wdtLock_mem, ↓Chip.mem_mk, Stores.eta, Chip.mem_parts]

theorem execCoreSpareSwap_keep {P : Twin → Stores → Prop} (w : Twin) (n : Fin 8) (s : State) (hw : s.memP P) {t : State} (ht : execCoreSpareSwap w n s = .next t) : t.memP P := by
  injection ht with ht
  subst ht
  repeat' first
    | with_reducible assumption
    | split
    | with_reducible refine State.onUp_keep _ _ _ (fun c h => ?_) ?_
    | simp only [↓Chip.put_mem, ↓Chip.restartCore_mem, ↓Chip.drew_mem, ↓Chip.mem_mk, Stores.eta, Chip.mem_parts]

theorem execPgChange_keep {P : Twin → Stores → Prop} (w : Twin) (i : Fin 16) (high : Bool) (s : State) (hw : s.memP P) {t : State} (ht : execPgChange w i high s = .next t) : t.memP P := by
  injection ht with ht
  subst ht
  repeat' first
    | with_reducible assumption
    | split
    | with_reducible refine State.mapChip_keep _ _ _ (fun c h => ?_) ?_
    | simp only [↓Chip.put_mem, ↓Chip.setPhase_mem, ↓Chip.psqCheck_mem, ↓Chip.mem_mk, Stores.eta, Chip.mem_parts]

theorem execPsqDelayExpiry_keep {P : Twin → Stores → Prop} (w : Twin) (s : State) (hw : s.memP P) {t : State} (ht : execPsqDelayExpiry w s = .next t) : t.memP P := by
  injection ht with ht
  subst ht
  repeat' first
    | with_reducible assumption
    | split
    | with_reducible refine State.mapChip_keep _ _ _ (fun c h => ?_) ?_
    | simp only [↓Chip.setPhase_mem, ↓Chip.psqNext_mem, ↓Chip.mem_mk, Stores.eta, Chip.mem_parts]

theorem execPsqTimeout_keep {P : Twin → Stores → Prop} (w : Twin) (s : State) (hw : s.memP P) {t : State} (ht : execPsqTimeout w s = .next t) : t.memP P := by
  injection ht with ht
  subst ht
  repeat' first
    | with_reducible assumption
    | split
    | with_reducible refine State.mapChip_keep _ _ _ (fun c h => ?_) ?_
    | simp only [↓Chip.upTimeout_mem, ↓Chip.setPhase_mem, ↓Chip.raise_mem, ↓Chip.cnt_mem, ↓Chip.lastFault_mem, ↓Chip.mem_mk, Stores.eta,
        Chip.mem_parts]

theorem execSeqSyncCommit_keep {P : Twin → Stores → Prop} (w : Twin) (s : State) (hw : s.memP P) {t : State} (ht : execSeqSyncCommit w s = .next t) : t.memP P := by
  injection ht with ht
  subst ht
  repeat' first
    | with_reducible assumption
    | split
    | with_reducible refine State.mapChip_keep _ _ _ (fun c h => ?_) ?_
    | simp only [↓Chip.psqNext_mem, ↓Chip.mem_mk, Stores.eta, Chip.mem_parts]

theorem execSyncTimeout_keep {P : Twin → Stores → Prop} (w : Twin) (s : State) (hw : s.memP P) {t : State} (ht : execSyncTimeout w s = .next t) : t.memP P := by
  injection ht with ht
  subst ht
  repeat' first
    | with_reducible assumption
    | split
    | with_reducible refine State.mapChip_keep _ _ _ (fun c h => ?_) ?_
    | simp only [↓Chip.raise_mem, ↓Chip.upTimeout_mem, ↓Chip.psqNext_mem, ↓Chip.put_mem, ↓Chip.mem_mk, Stores.eta, Chip.mem_parts]

theorem execSeqInFall_keep {P : Twin → Stores → Prop} (w : Twin) (s : State) (hw : s.memP P) {t : State} (ht : execSeqInFall w s = .next t) : t.memP P := by
  injection ht with ht
  subst ht
  repeat' first
    | with_reducible assumption
    | split
    | with_reducible refine State.mapChip_keep _ _ _ (fun c h => ?_) ?_
    | simp only [↓Chip.put_mem, ↓Chip.pfailFall_mem, ↓Chip.mem_mk, Stores.eta, Chip.mem_parts]

theorem execUpSequenceStart_keep {P : Twin → Stores → Prop} (w : Twin) (s : State) (hw : s.memP P) {t : State} (ht : execUpSequenceStart w s = .next t) : t.memP P := by
  injection ht with ht
  subst ht
  repeat' first
    | with_reducible assumption
    | split
    | with_reducible refine State.mapChip_keep _ _ _ (fun c h => ?_) ?_
    | with_reducible refine Chip.foldl_keep _ (fun c x h => ?_) _ _ ?_
    | with_reducible refine State.foldl_keep _ (fun s x h => ?_) _ _ ?_
    | simp only [↓Chip.put_mem, ↓Chip.enterUp_mem, ↓Chip.mem_mk, Stores.eta, Chip.mem_parts]

theorem execOffMinExpiry_keep {P : Twin → Stores → Prop} (w : Twin) (s : State) (hw : s.memP P) {t : State} (ht : execOffMinExpiry w s = .next t) : t.memP P := by
  injection ht with ht
  subst ht
  repeat' first
    | with_reducible assumption
    | split
    | with_reducible refine State.mapChip_keep _ _ _ (fun c h => ?_) ?_
    | simp only [↓Chip.mem_mk, Stores.eta, Chip.mem_parts]

theorem execRailFault_keep {P : Twin → Stores → Prop} (w : Twin) (i : Fin 16) (s : State) (hw : s.memP P) {t : State} (ht : execRailFault w i s = .next t) : t.memP P := by
  injection ht with ht
  subst ht
  repeat' first
    | with_reducible assumption
    | split
    | with_reducible refine State.mapChip_keep _ _ _ (fun c h => ?_) ?_
    | simp only [↓Chip.raise_mem, ↓Chip.cnt_mem, ↓Chip.failStop_mem, ↓Chip.pulse_mem, ↓Chip.lastFault_mem, ↓Chip.clearMargins_mem,
        ↓Chip.mem_mk, Stores.eta, Chip.mem_parts]

theorem execFaultShutExpiry_keep {P : Twin → Stores → Prop} (w : Twin) (s : State) (hw : s.memP P) {t : State} (ht : execFaultShutExpiry w s = .next t) : t.memP P := by
  injection ht with ht
  subst ht
  repeat' first
    | with_reducible assumption
    | split
    | with_reducible refine State.mapChip_keep _ _ _ (fun c h => ?_) ?_
    | simp only [↓Chip.startDown_mem, ↓Chip.mem_mk, Stores.eta, Chip.mem_parts]

theorem execStoreCommit_keep {P : Twin → Stores → Prop} (w : Twin) (rq : Requester) (s : State) (hw : s.memP P) {t : State} (ht : execStoreCommit w rq s = .next t) : t.memP P := by
  injection ht with ht
  subst ht
  repeat' first
    | with_reducible assumption
    | split
    | with_reducible refine State.onUp_keep _ _ _ (fun c h => ?_) ?_
    | with_reducible refine Chip.ifWrites_keep _ _ _ _ (fun c h => ?_) ?_
    | simp only [↓Chip.storeCommit_mem, ↓Chip.mem_mk, Stores.eta, Chip.mem_parts]

theorem execMarginWrite_keep {P : Twin → Stores → Prop} (w : Twin) (rq : Requester) (k : Fin 4) (steps : BitVec 8) (s : State) (hw : s.memP P) {t : State} (ht : execMarginWrite w rq k steps s = .next t) : t.memP P := by
  injection ht with ht
  subst ht
  repeat' first
    | with_reducible assumption
    | split
    | with_reducible refine State.onUp_keep _ _ _ (fun c h => ?_) ?_
    | with_reducible refine Chip.ifWrites_keep _ _ _ _ (fun c h => ?_) ?_
    | simp only [↓Chip.marginWrite_mem, ↓Chip.mem_mk, Stores.eta, Chip.mem_parts]

theorem execThrottleStep_keep {P : Twin → Stores → Prop} (w : Twin) (s : State) (hw : s.memP P) {t : State} (ht : execThrottleStep w s = .next t) : t.memP P := by
  injection ht with ht
  subst ht
  repeat' first
    | with_reducible assumption
    | split
    | with_reducible refine State.onUp_keep _ _ _ (fun c h => ?_) ?_
    | simp only [↓Chip.planStep_mem, ↓Chip.raise_mem, ↓Chip.mem_mk, Stores.eta, Chip.mem_parts]

theorem execThermalTrip_keep {P : Twin → Stores → Prop} (w : Twin) (s : State) (hw : s.memP P) {t : State} (ht : execThermalTrip w s = .next t) : t.memP P := by
  injection ht with ht
  subst ht
  repeat' first
    | with_reducible assumption
    | split
    | with_reducible refine State.onUp_keep _ _ _ (fun c h => ?_) ?_
    | simp only [↓Chip.clearMargins_mem, ↓Chip.put_mem, ↓Chip.startDown_mem, ↓Chip.saveFail_mem, ↓Chip.failStop_mem, ↓Chip.mem_mk,
        Stores.eta, Chip.mem_parts]

theorem execAvsPeriod_keep {P : Twin → Stores → Prop} (w : Twin) (cpm : BitVec 8) (s : State) (hw : s.memP P) {t : State} (ht : execAvsPeriod w cpm s = .next t) : t.memP P := by
  injection ht with ht
  subst ht
  repeat' first
    | with_reducible assumption
    | split
    | with_reducible refine State.onUp_keep _ _ _ (fun c h => ?_) ?_
    | simp only [↓Chip.put_mem, ↓Chip.setVdd_mem, ↓Chip.cnt_mem, ↓Chip.mem_mk, Stores.eta, Chip.mem_parts]

theorem execCpmAlarm_keep {P : Twin → Stores → Prop} (w : Twin) (cpm : BitVec 8) (s : State) (hw : s.memP P) {t : State} (ht : execCpmAlarm w cpm s = .next t) : t.memP P := by
  injection ht with ht
  subst ht
  repeat' first
    | with_reducible assumption
    | split
    | with_reducible refine State.onUp_keep _ _ _ (fun c h => ?_) ?_
    | simp only [↓Chip.raise_mem, ↓Chip.put_mem, ↓Chip.cnt_mem, ↓Chip.setVdd_mem, ↓Chip.mem_mk, Stores.eta, Chip.mem_parts]

theorem execAvsbusFrameDone_keep {P : Twin → Stores → Prop} (w : Twin) (x : AvsReply) (s : State) (hw : s.memP P) {t : State} (ht : execAvsbusFrameDone w x s = .next t) : t.memP P := by
  injection ht with ht
  subst ht
  repeat' first
    | with_reducible assumption
    | split
    | with_reducible refine State.onUp_keep _ _ _ (fun c h => ?_) ?_
    | simp only [↓Chip.targetTaken_mem, ↓Chip.put_mem, ↓Chip.cnt_mem, ↓Chip.raise_mem, ↓Chip.targetFailed_mem, ↓Chip.mem_mk, Stores.eta,
        Chip.mem_parts]

theorem execAvsTelemetryPoll_keep {P : Twin → Stores → Prop} (w : Twin) (s : State) (hw : s.memP P) {t : State} (ht : execAvsTelemetryPoll w s = .next t) : t.memP P := by
  injection ht with ht
  subst ht
  repeat' first
    | with_reducible assumption
    | split
    | with_reducible refine State.onUp_keep _ _ _ (fun c h => ?_) ?_
    | with_reducible refine Chip.foldl_keep _ (fun c x h => ?_) _ _ ?_
    | with_reducible refine State.foldl_keep _ (fun s x h => ?_) _ _ ?_
    | simp only [↓Chip.avsSend_mem, ↓Chip.mem_mk, Stores.eta, Chip.mem_parts]

theorem execFclkStepChange_keep {P : Twin → Stores → Prop} (w : Twin) (s : State) (hw : s.memP P) {t : State} (ht : execFclkStepChange w s = .next t) : t.memP P := by
  injection ht with ht
  subst ht
  repeat' first
    | with_reducible assumption
    | split
    | with_reducible refine State.onUp_keep _ _ _ (fun c h => ?_) ?_
    | simp only [↓Chip.raise_mem, ↓Chip.cnt_mem, ↓Chip.put_mem, ↓Chip.mem_mk, Stores.eta, Chip.mem_parts]

theorem execSmbBlockWrite_keep {P : Twin → Stores → Prop} (w : Twin) (bytes : List Byte) (pec : Option Bool) (s : State) (hw : s.memP P) {t : State} (ht : execSmbBlockWrite w bytes pec s = .next t) : t.memP P := by
  injection ht with ht
  subst ht
  repeat' first
    | with_reducible assumption
    | split
    | with_reducible refine State.onUp_keep _ _ _ (fun c h => ?_) ?_
    | simp only [↓Chip.cnt_mem, ↓Chip.raise_mem, ↓Chip.mem_mk, Stores.eta, Chip.mem_parts]

theorem execSmbBlockRead_keep {P : Twin → Stores → Prop} (w : Twin) (whole : Bool) (s : State) (hw : s.memP P) {t : State} (ht : execSmbBlockRead w whole s = .next t) : t.memP P := by
  injection ht with ht
  subst ht
  repeat' first
    | with_reducible assumption
    | split
    | with_reducible refine State.onUp_keep _ _ _ (fun c h => ?_) ?_
    | simp only [↓Chip.showQueue_mem, ↓Chip.cnt_mem, ↓Chip.mem_mk, Stores.eta, Chip.mem_parts]

theorem execSmbReadByteStatus_keep {P : Twin → Stores → Prop} (w : Twin) (s : State) (hw : s.memP P) {t : State} (ht : execSmbReadByteStatus w s = .next t) : t.memP P := by
  injection ht with ht
  subst ht
  repeat' first
    | with_reducible assumption
    | split
    | with_reducible refine State.onUp_keep _ _ _ (fun c h => ?_) ?_
    | simp only [↓Chip.mem_mk, Stores.eta, Chip.mem_parts]

theorem execAlertResponseAddress_keep {P : Twin → Stores → Prop} (w : Twin) (s : State) (hw : s.memP P) {t : State} (ht : execAlertResponseAddress w s = .next t) : t.memP P := by
  injection ht with ht
  subst ht
  repeat' first
    | with_reducible assumption
    | split
    | with_reducible refine State.onUp_keep _ _ _ (fun c h => ?_) ?_
    | simp only [↓Chip.mem_mk, Stores.eta, Chip.mem_parts]

theorem execSmbStartStop_keep {P : Twin → Stores → Prop} (w : Twin) (s : State) (hw : s.memP P) {t : State} (ht : execSmbStartStop w s = .next t) : t.memP P := by
  injection ht with ht
  subst ht
  repeat' first
    | with_reducible assumption
    | split
    | with_reducible refine State.onUp_keep _ _ _ (fun c h => ?_) ?_
    | simp only [↓Chip.cnt_mem, ↓Chip.mem_mk, Stores.eta, Chip.mem_parts]

theorem execSmbClockLowTimeout_keep {P : Twin → Stores → Prop} (w : Twin) (s : State) (hw : s.memP P) {t : State} (ht : execSmbClockLowTimeout w s = .next t) : t.memP P := by
  injection ht with ht
  subst ht
  repeat' first
    | with_reducible assumption
    | split
    | with_reducible refine State.onUp_keep _ _ _ (fun c h => ?_) ?_
    | simp only [↓Chip.raise_mem, ↓Chip.cnt_mem, ↓Chip.mem_mk, Stores.eta, Chip.mem_parts]

theorem execSmbDataLowTimeout_keep {P : Twin → Stores → Prop} (w : Twin) (s : State) (hw : s.memP P) {t : State} (ht : execSmbDataLowTimeout w s = .next t) : t.memP P := by
  injection ht with ht
  subst ht
  repeat' first
    | with_reducible assumption
    | split
    | with_reducible refine State.onUp_keep _ _ _ (fun c h => ?_) ?_
    | simp only [↓Chip.raise_mem, ↓Chip.cnt_mem, ↓Chip.mem_mk, Stores.eta, Chip.mem_parts]

theorem execMctpControl_keep {P : Twin → Stores → Prop} (w : Twin) (command : Byte) (s : State) (hw : s.memP P) {t : State} (ht : execMctpControl w command s = .next t) : t.memP P := by
  injection ht with ht
  subst ht
  repeat' first
    | with_reducible assumption
    | split
    | with_reducible refine State.onUp_keep _ _ _ (fun c h => ?_) ?_
    | simp only [↓Chip.mctpSend_mem, ↓Chip.mem_mk, Stores.eta, Chip.mem_parts]

theorem execRefreshInterval_keep {P : Twin → Stores → Prop} (w : Twin) (d : Fin 16) (ranks : BitVec 16) (s : State) (hw : s.memP P) {t : State} (ht : execRefreshInterval w d ranks s = .next t) : t.memP P := by
  injection ht with ht
  subst ht
  repeat' first
    | with_reducible assumption
    | split
    | with_reducible refine State.onUp_keep _ _ _ (fun c h => ?_) ?_
    | with_reducible refine Chip.foldl_keep _ (fun c x h => ?_) _ _ ?_
    | with_reducible refine State.foldl_keep _ (fun s x h => ?_) _ _ ?_
    | simp only [↓Chip.refabFallback_mem, ↓Chip.setDebt_mem, ↓Chip.mem_mk, Stores.eta, Chip.mem_parts]

theorem execRefreshDone_keep {P : Twin → Stores → Prop} (w : Twin) (d : Fin 16) (r : Fin 16) (s : State) (hw : s.memP P) {t : State} (ht : execRefreshDone w d r s = .next t) : t.memP P := by
  injection ht with ht
  subst ht
  repeat' first
    | with_reducible assumption
    | split
    | with_reducible refine State.onUp_keep _ _ _ (fun c h => ?_) ?_
    | simp only [↓Chip.mapChan_mem, ↓Chip.enterSelfRefresh_mem, ↓Chip.mem_mk, Stores.eta, Chip.mem_parts]

theorem execMr4Poll_keep {P : Twin → Stores → Prop} (w : Twin) (d : Fin 16) (twoX : BitVec 16) (s : State) (hw : s.memP P) {t : State} (ht : execMr4Poll w d twoX s = .next t) : t.memP P := by
  injection ht with ht
  subst ht
  repeat' first
    | with_reducible assumption
    | split
    | with_reducible refine State.onUp_keep _ _ _ (fun c h => ?_) ?_
    | simp only [↓Chip.put_mem, ↓Chip.raise_mem, ↓Chip.mem_mk, Stores.eta, Chip.mem_parts]

theorem execDramTrainingDone_keep {P : Twin → Stores → Prop} (w : Twin) (x : List ChannelTraining) (s : State) (hw : s.memP P) {t : State} (ht : execDramTrainingDone w x s = .next t) : t.memP P := by
  injection ht with ht
  subst ht
  repeat' first
    | with_reducible assumption
    | split
    | with_reducible refine State.onUp_keep _ _ _ (fun c h => ?_) ?_
    | simp only [↓Chip.trainAll_mem, ↓Chip.put_mem, ↓Chip.failStop_mem, ↓Chip.mem_mk, Stores.eta, Chip.mem_parts]

theorem execDriftCheck_keep {P : Twin → Stores → Prop} (w : Twin) (d : Fin 16) (r : Fin 16) (ps : Int) (s : State) (hw : s.memP P) {t : State} (ht : execDriftCheck w d r ps s = .next t) : t.memP P := by
  injection ht with ht
  subst ht
  repeat' first
    | with_reducible assumption
    | split
    | with_reducible refine State.onUp_keep _ _ _ (fun c h => ?_) ?_
    | simp only [↓Chip.cnt_mem, ↓Chip.putInt_mem, ↓Chip.mapChan_mem, ↓Chip.peak_mem, ↓Chip.mem_mk, Stores.eta, Chip.mem_parts]

theorem execDramZqStart_keep {P : Twin → Stores → Prop} (w : Twin) (d : Fin 16) (r : Fin 16) (s : State) (hw : s.memP P) {t : State} (ht : execDramZqStart w d r s = .next t) : t.memP P := by
  injection ht with ht
  subst ht
  repeat' first
    | with_reducible assumption
    | split
    | with_reducible refine State.onUp_keep _ _ _ (fun c h => ?_) ?_
    | simp only [↓Chip.mapChan_mem, ↓Chip.mem_mk, Stores.eta, Chip.mem_parts]

theorem execDramZqLatch_keep {P : Twin → Stores → Prop} (w : Twin) (d : Fin 16) (r : Fin 16) (s : State) (hw : s.memP P) {t : State} (ht : execDramZqLatch w d r s = .next t) : t.memP P := by
  injection ht with ht
  subst ht
  repeat' first
    | with_reducible assumption
    | split
    | with_reducible refine State.onUp_keep _ _ _ (fun c h => ?_) ?_
    | simp only [↓Chip.mapChan_mem, ↓Chip.cnt_mem, ↓Chip.closeRows_mem, ↓Chip.mem_mk, Stores.eta, Chip.mem_parts]

theorem execRetrainDone_keep {P : Twin → Stores → Prop} (w : Twin) (d : Fin 16) (r : Fin 16) (ok : Bool) (rdEye wrEye : Byte) (s : State) (hw : s.memP P) {t : State} (ht : execRetrainDone w d r ok rdEye wrEye s = .next t) : t.memP P := by
  injection ht with ht
  subst ht
  repeat' first
    | with_reducible assumption
    | split
    | with_reducible refine State.onUp_keep _ _ _ (fun c h => ?_) ?_
    | simp only [↓Chip.readBacklog_mem, ↓Chip.mapChan_mem, ↓Chip.raise_mem, ↓Chip.cnt_mem, ↓Chip.put_mem, ↓Chip.retireRank_mem,
        ↓Chip.mem_mk, Stores.eta, Chip.mem_parts]

theorem execSrExitDone_keep {P : Twin → Stores → Prop} (w : Twin) (d : Fin 16) (ns : Nat) (s : State) (hw : s.memP P) {t : State} (ht : execSrExitDone w d ns s = .next t) : t.memP P := by
  injection ht with ht
  subst ht
  repeat' first
    | with_reducible assumption
    | split
    | with_reducible refine State.onUp_keep _ _ _ (fun c h => ?_) ?_
    | with_reducible refine Chip.foldl_keep _ (fun c x h => ?_) _ _ ?_
    | with_reducible refine State.foldl_keep _ (fun s x h => ?_) _ _ ?_
    | simp only [↓Chip.setDebt_mem, ↓Chip.peak_mem, ↓Chip.put_mem, ↓Chip.readBacklog_mem, ↓Chip.mem_mk, Stores.eta, Chip.mem_parts]

theorem execPprGo_keep {P : Twin → Stores → Prop} (w : Twin) (rq : Requester) (d : Fin 16) (s : State) (hw : s.memP P) {t : State} (ht : execPprGo w rq d s = .next t) : t.memP P := by
  injection ht with ht
  subst ht
  repeat' first
    | with_reducible assumption
    | split
    | with_reducible refine State.onUp_keep _ _ _ (fun c h => ?_) ?_
    | with_reducible refine Chip.ifWrites_keep _ _ _ _ (fun c h => ?_) ?_
    | with_reducible refine Chip.ifRunning_keep _ _ _ _ (fun c h => ?_) ?_
    | simp only [↓Chip.pprGo_mem, ↓Chip.mem_mk, Stores.eta, Chip.mem_parts]

theorem execPprCopyDone_keep {P : Twin → Stores → Prop} (w : Twin) (d : Fin 16) (s : State) (hw : s.memP P) {t : State} (ht : execPprCopyDone w d s = .next t) : t.memP P := by
  injection ht with ht
  subst ht
  repeat' first
    | with_reducible assumption
    | split
    | with_reducible refine State.onUp_keep _ _ _ (fun c h => ?_) ?_
    | simp only [↓Chip.put_mem, ↓Chip.rankOut_mem, ↓Chip.mem_mk, Stores.eta, Chip.mem_parts]

theorem execPprProgramDone_keep {P : Twin → Stores → Prop} (w : Twin) (d : Fin 16) (err : Fin 3) (s : State) (hw : s.memP P) {t : State} (ht : execPprProgramDone w d err s = .next t) : t.memP P := by
  injection ht with ht
  subst ht
  repeat' first
    | with_reducible assumption
    | split
    | with_reducible refine State.onUp_keep _ _ _ (fun c h => ?_) ?_
    | simp only [↓Chip.put_mem, ↓Chip.raise_mem, ↓Chip.mem_mk, Stores.eta, Chip.mem_parts]

theorem execAlertN_keep {P : Twin → Stores → Prop} (w : Twin) (d : Fin 16) (s : State) (hw : s.memP P) {t : State} (ht : execAlertN w d s = .next t) : t.memP P := by
  injection ht with ht
  subst ht
  repeat' first
    | with_reducible assumption
    | split
    | with_reducible refine State.onUp_keep _ _ _ (fun c h => ?_) ?_
    | simp only [↓Chip.cnt_mem, ↓Chip.mem_mk, Stores.eta, Chip.mem_parts]

theorem execPatrolWake_keep {P : Twin → Stores → Prop} (w : Twin) (d : Fin 16) (s : State) (hw : s.memP P) {t : State} (ht : execPatrolWake w d s = .next t) : t.memP P := by
  injection ht with ht
  subst ht
  repeat' first
    | with_reducible assumption
    | split
    | with_reducible refine State.onUp_keep _ _ _ (fun c h => ?_) ?_
    | simp only [↓Chip.meetChannel_mem, ↓Chip.cnt_mem, ↓Chip.mem_mk, Stores.eta, Chip.mem_parts]

theorem execCblWindowEnd_keep {P : Twin → Stores → Prop} (w : Twin) (s : State) (hw : s.memP P) {t : State} (ht : execCblWindowEnd w s = .next t) : t.memP P := by
  injection ht with ht
  subst ht
  repeat' first
    | with_reducible assumption
    | split
    | with_reducible refine State.onUp_keep _ _ _ (fun c h => ?_) ?_
    | with_reducible refine Chip.foldl_keep _ (fun c x h => ?_) _ _ ?_
    | with_reducible refine State.foldl_keep _ (fun s x h => ?_) _ _ ?_
    | simp only [↓Chip.windowChannel_mem, ↓Chip.wantPpr_mem, ↓Chip.retireRank_mem, ↓Chip.mem_mk, Stores.eta, Chip.mem_parts]

theorem execMdcFillArrival_keep {P : Twin → Stores → Prop} (w : Twin) (line : Nat) (s : State) (hw : s.memP P) {t : State} (ht : execMdcFillArrival w line s = .next t) : t.memP P := by
  injection ht with ht
  subst ht
  repeat' first
    | with_reducible assumption
    | split
    | with_reducible refine State.onUp_keep _ _ _ (fun c h => ?_) ?_
    | simp only [↓Chip.fillsGoOn_mem, ↓Chip.cnt_mem, ↓Chip.mdcInstall_mem, ↓Chip.mem_mk, Stores.eta, Chip.mem_parts]

theorem execListBlockReadDone_keep {P : Twin → Stores → Prop} (w : Twin) (slot : Fin 256) (block : Nat) (s : State) (hw : s.memP P) {t : State} (ht : execListBlockReadDone w slot block s = .next t) : t.memP P := by
  injection ht with ht
  subst ht
  repeat' first
    | with_reducible assumption
    | split
    | with_reducible refine State.onUp_keep _ _ _ (fun c h => ?_) ?_
    | simp only [↓Chip.resolveBlock_mem, ↓Chip.mem_mk, Stores.eta, Chip.mem_parts]

theorem execMemRd_keep {P : Twin → Stores → Prop} (r : Request) (v : Arrival) (s : State) (hw : s.memP P) {t : State} (ht : execMemRd r v s = .next t) : t.memP P := by
  injection ht with ht
  subst ht
  repeat' first
    | with_reducible assumption
    | split
    | with_reducible refine State.arrive_keep _ _ _ ?_
    | simp only [↓Chip.mem_mk, Stores.eta, Chip.mem_parts]

theorem execMemRdData_keep {P : Twin → Stores → Prop} (r : Request) (v : Arrival) (s : State) (hw : s.memP P) {t : State} (ht : execMemRdData r v s = .next t) : t.memP P := by
  injection ht with ht
  subst ht
  repeat' first
    | with_reducible assumption
    | split
    | with_reducible refine State.arrive_keep _ _ _ ?_
    | simp only [↓Chip.mem_mk, Stores.eta, Chip.mem_parts]

theorem execMemInv_keep {P : Twin → Stores → Prop} (r : Request) (v : Arrival) (s : State) (hw : s.memP P) {t : State} (ht : execMemInv r v s = .next t) : t.memP P := by
  injection ht with ht
  subst ht
  repeat' first
    | with_reducible assumption
    | split
    | with_reducible refine State.arrive_keep _ _ _ ?_
    | simp only [↓Chip.mem_mk, Stores.eta, Chip.mem_parts]

theorem execMemInvNt_keep {P : Twin → Stores → Prop} (r : Request) (v : Arrival) (s : State) (hw : s.memP P) {t : State} (ht : execMemInvNt r v s = .next t) : t.memP P := by
  injection ht with ht
  subst ht
  repeat' first
    | with_reducible assumption
    | split
    | with_reducible refine State.arrive_keep _ _ _ ?_
    | simp only [↓Chip.mem_mk, Stores.eta, Chip.mem_parts]

theorem execMemWr_keep {P : Twin → Stores → Prop} (r : Request) (v : Arrival) (s : State) (hw : s.memP P) {t : State} (ht : execMemWr r v s = .next t) : t.memP P := by
  injection ht with ht
  subst ht
  repeat' first
    | with_reducible assumption
    | split
    | with_reducible refine State.arrive_keep _ _ _ ?_
    | simp only [↓Chip.mem_mk, Stores.eta, Chip.mem_parts]

theorem execMemWrPtl_keep {P : Twin → Stores → Prop} (r : Request) (v : Arrival) (s : State) (hw : s.memP P) {t : State} (ht : execMemWrPtl r v s = .next t) : t.memP P := by
  injection ht with ht
  subst ht
  repeat' first
    | with_reducible assumption
    | split
    | with_reducible refine State.arrive_keep _ _ _ ?_
    | simp only [↓Chip.mem_mk, Stores.eta, Chip.mem_parts]

theorem execMemSpecRd_keep {P : Twin → Stores → Prop} (r : Request) (room : Bool) (s : State) (hw : s.memP P) {t : State} (ht : execMemSpecRd r room s = .next t) : t.memP P := by
  injection ht with ht
  subst ht
  repeat' first
    | with_reducible assumption
    | split
    | with_reducible refine State.arrive_keep _ _ _ ?_
    | with_reducible refine State.onHome_keep _ _ _ (fun _ c h => ?_) ?_
    | simp only [↓Chip.mapHead_mem, ↓Chip.mem_mk, Stores.eta, Chip.mem_parts]

theorem execRequestAdmit_keep {P : Twin → Stores → Prop} (h : Fin 24) (write : Bool) (s : State) (hw : s.memP P) {t : State} (ht : execRequestAdmit h write s = .next t) : t.memP P := by
  injection ht with ht
  subst ht
  repeat' first
    | with_reducible assumption
    | split
    | with_reducible refine State.onHome_keep _ _ _ (fun _ c h => ?_) ?_
    | simp only [↓Chip.admitFront_mem, ↓Chip.mem_mk, Stores.eta, Chip.mem_parts]

theorem execBirspI_keep {P : Twin → Stores → Prop} (h : Fin 24) (line : Nat) (s : State) (hw : s.memP P) {t : State} (ht : execBirspI h line s = .next t) : t.memP P := by
  injection ht with ht
  subst ht
  repeat' first
    | with_reducible assumption
    | split
    | with_reducible refine State.birsp_keep _ _ _ _ ?_
    | simp only [↓Chip.mem_mk, Stores.eta, Chip.mem_parts]

theorem execBirspS_keep {P : Twin → Stores → Prop} (h : Fin 24) (line : Nat) (s : State) (hw : s.memP P) {t : State} (ht : execBirspS h line s = .next t) : t.memP P := by
  injection ht with ht
  subst ht
  repeat' first
    | with_reducible assumption
    | split
    | with_reducible refine State.birsp_keep _ _ _ _ ?_
    | simp only [↓Chip.mem_mk, Stores.eta, Chip.mem_parts]

theorem execBirspE_keep {P : Twin → Stores → Prop} (h : Fin 24) (line : Nat) (s : State) (hw : s.memP P) {t : State} (ht : execBirspE h line s = .next t) : t.memP P := by
  injection ht with ht
  subst ht
  repeat' first
    | with_reducible assumption
    | split
    | with_reducible refine State.birsp_keep _ _ _ _ ?_
    | simp only [↓Chip.mem_mk, Stores.eta, Chip.mem_parts]

theorem execBiConflict_keep {P : Twin → Stores → Prop} (h : Fin 24) (line : Nat) (s : State) (hw : s.memP P) {t : State} (ht : execBiConflict h line s = .next t) : t.memP P := by
  injection ht with ht
  subst ht
  repeat' first
    | with_reducible assumption
    | split
    | with_reducible refine State.onHome_keep _ _ _ (fun _ c h => ?_) ?_
    | simp only [↓Chip.cnt_mem, ↓Chip.toHost_mem, ↓Chip.mem_mk, Stores.eta, Chip.mem_parts]

theorem execSnoopTimeout_keep {P : Twin → Stores → Prop} (h : Fin 24) (line : Nat) (s : State) (hw : s.memP P) {t : State} (ht : execSnoopTimeout h line s = .next t) : t.memP P := by
  injection ht with ht
  subst ht
  repeat' first
    | with_reducible assumption
    | split
    | with_reducible refine State.mapBoth_keep _ _ (fun _ c h => ?_) ?_
    | simp only [↓Chip.raise_mem, ↓Chip.cnt_mem, ↓Chip.loseHead_mem, ↓Chip.headMedia_mem, ↓Chip.mem_mk, Stores.eta, Chip.mem_parts]

theorem execShadowMigrationDone_keep {P : Twin → Stores → Prop} (w : Twin) (d : Fin 64) (s : State) (hw : s.memP P) {t : State} (ht : execShadowMigrationDone w d s = .next t) : t.memP P := by
  injection ht with ht
  subst ht
  repeat' first
    | with_reducible assumption
    | split
    | with_reducible refine State.onUp_keep _ _ _ (fun c h => ?_) ?_
    | simp only [↓Chip.migrateShadow_mem, ↓Chip.mem_mk, Stores.eta, Chip.mem_parts]

theorem execDirBankMigrateDone_keep {P : Twin → Stores → Prop} (w : Twin) (bank : Fin 17) (s : State) (hw : s.memP P) {t : State} (ht : execDirBankMigrateDone w bank s = .next t) : t.memP P := by
  injection ht with ht
  subst ht
  repeat' first
    | with_reducible assumption
    | split
    | with_reducible refine State.onUp_keep _ _ _ (fun c h => ?_) ?_
    | simp only [↓Chip.migrateBank_mem, ↓Chip.mem_mk, Stores.eta, Chip.mem_parts]

theorem execDramReadDone_keep {P : Twin → Stores → Prop} (w : Twin) (line : Nat) (bad : BitVec 20) (aged : Nat) (s : State) (hw : s.memP P) {t : State} (ht : execDramReadDone w line bad aged s = .next t) : t.memP P := by
  injection ht with ht
  subst ht
  repeat' first
    | with_reducible assumption
    | split
    | with_reducible refine State.onUp_keep _ _ _ (fun c h => ?_) ?_
    | simp only [↓Chip.lineReturns_mem, ↓Chip.issueRead_mem, ↓Chip.waitTokens_mem, ↓Chip.mem_mk, Stores.eta, Chip.mem_parts]

theorem execRefsbIssue_keep {P : Twin → Stores → Prop} (w : Twin) (d : Fin 16) (r : Fin 16) (k : Fin 4) (s : State) (hw : s.memP P) {t : State} (ht : execRefsbIssue w d r k s = .next t) : t.memP P := by
  injection ht with ht
  subst ht
  repeat' first
    | with_reducible assumption
    | split
    | with_reducible refine State.onUp_keep _ _ _ (fun c h => ?_) ?_
    | simp only [↓Chip.setDebt_mem, ↓Chip.closeRows_mem, ↓Chip.cnt_mem, ↓Chip.mapChan_mem, ↓Chip.mem_mk, Stores.eta, Chip.mem_parts]

theorem execSrIdleExpiry_keep {P : Twin → Stores → Prop} (w : Twin) (d : Fin 16) (s : State) (hw : s.memP P) {t : State} (ht : execSrIdleExpiry w d s = .next t) : t.memP P := by
  injection ht with ht
  subst ht
  repeat' first
    | with_reducible assumption
    | split
    | with_reducible refine State.onUp_keep _ _ _ (fun c h => ?_) ?_
    | with_reducible refine Chip.foldl_keep _ (fun c x h => ?_) _ _ ?_
    | with_reducible refine State.foldl_keep _ (fun s x h => ?_) _ _ ?_
    | simp only [↓Chip.payDebts_mem, ↓Chip.closeRows_mem, ↓Chip.put_mem, ↓Chip.enterSelfRefresh_mem, ↓Chip.mem_mk, Stores.eta,
        Chip.mem_parts]

theorem execTranslationFill_keep {P : Twin → Stores → Prop} (w : Twin) (h : Fin 24) (line : Nat) (s : State) (hw : s.memP P) {t : State} (ht : execTranslationFill w h line s = .next t) : t.memP P := by
  injection ht with ht
  subst ht
  repeat' first
    | with_reducible assumption
    | split
    | with_reducible refine State.onUp_keep _ _ _ (fun c h => ?_) ?_
    | with_reducible refine Chip.continueTags_keep _ _ _ (fun c t h => ?_) ?_
    | simp only [↓Chip.runCommons_mem, ↓Chip.translate_mem, ↓Chip.mem_mk, Stores.eta, Chip.mem_parts]

theorem execFillRangeDone_keep {P : Twin → Stores → Prop} (w : Twin) (range : Nat) (s : State) (hw : s.memP P) {t : State} (ht : execFillRangeDone w range s = .next t) : t.memP P := by
  injection ht with ht
  subst ht
  repeat' first
    | with_reducible assumption
    | split
    | with_reducible refine State.onUp_keep _ _ _ (fun c h => ?_) ?_
    | with_reducible refine Chip.foldl_keep _ (fun c x h => ?_) _ _ ?_
    | with_reducible refine State.foldl_keep _ (fun s x h => ?_) _ _ ?_
    | simp only [↓Chip.setReady_mem, ↓Chip.pcacheGoOn_mem, ↓Chip.readDram_mem, ↓Chip.raise_mem, ↓Chip.mem_mk, Stores.eta, Chip.mem_parts]

theorem execDrainEligible_keep {P : Twin → Stores → Prop} (w : Twin) (line : Nat) (s : State) (hw : s.memP P) {t : State} (ht : execDrainEligible w line s = .next t) : t.memP P := by
  injection ht with ht
  subst ht
  repeat' first
    | with_reducible assumption
    | split
    | with_reducible refine State.onUp_keep _ _ _ (fun c h => ?_) ?_
    | simp only [↓Chip.setWmb_mem, ↓Chip.mem_mk, Stores.eta, Chip.mem_parts]

theorem execDrainIssue_keep {P : Twin → Stores → Prop} (w : Twin) (x : DrainOffer) (s : State) (hw : s.memP P) {t : State} (ht : execDrainIssue w x s = .next t) : t.memP P := by
  injection ht with ht
  subst ht
  repeat' first
    | with_reducible assumption
    | split
    | with_reducible refine State.onUp_keep _ _ _ (fun c h => ?_) ?_
    | simp only [↓Chip.wantRange_mem, ↓Chip.raise_mem, ↓Chip.cnt_mem, ↓Chip.waitTokens_mem, ↓Chip.setWmb_mem, ↓Chip.issueDrain_mem,
        ↓Chip.mem_mk, Stores.eta, Chip.mem_parts]

theorem execLocalStall_keep {P : Twin → Stores → Prop} (w : Twin) (p : Fin 6) (s : State) (hw : s.memP P) {t : State} (ht : execLocalStall w p s = .next t) : t.memP P := by
  injection ht with ht
  subst ht
  repeat' first
    | with_reducible assumption
    | split
    | with_reducible refine State.onUp_keep _ _ _ (fun c h => ?_) ?_
    | simp only [↓Chip.raise_mem, ↓Chip.cnt_mem, ↓Chip.mem_mk, Stores.eta, Chip.mem_parts]

theorem execDirectReadTimeout_keep {P : Twin → Stores → Prop} (w : Twin) (p : Nat) (s : State) (hw : s.memP P) {t : State} (ht : execDirectReadTimeout w p s = .next t) : t.memP P := by
  injection ht with ht
  subst ht
  repeat' first
    | with_reducible assumption
    | split
    | with_reducible refine State.onUp_keep _ _ _ (fun c h => ?_) ?_
    | simp only [↓Chip.mediaFailed_mem, ↓Chip.mem_mk, Stores.eta, Chip.mem_parts]

theorem execProgramDone_keep {P : Twin → Stores → Prop} (w : Twin) (r : Nat) (k : Fin 32) (pass : Bool) (s : State) (hw : s.memP P) {t : State} (ht : execProgramDone w r k pass s = .next t) : t.memP P := by
  injection ht with ht
  subst ht
  repeat' first
    | with_reducible assumption
    | split
    | with_reducible refine State.onUp_keep _ _ _ (fun c h => ?_) ?_
    | with_reducible refine Chip.foldl_keep _ (fun c x h => ?_) _ _ ?_
    | with_reducible refine State.foldl_keep _ (fun s x h => ?_) _ _ ?_
    | simp only [↓Chip.saveProgramFails_mem, ↓Chip.startOps_mem, ↓Chip.retireBlock_mem, ↓Chip.cnt_mem, ↓Chip.endOp_mem, ↓Chip.mem_mk,
        Stores.eta, Chip.mem_parts]

theorem execEraseDone_keep {P : Twin → Stores → Prop} (w : Twin) (r : Nat) (k : Fin 32) (pass : Bool) (s : State) (hw : s.memP P) {t : State} (ht : execEraseDone w r k pass s = .next t) : t.memP P := by
  injection ht with ht
  subst ht
  repeat' first
    | with_reducible assumption
    | split
    | with_reducible refine State.onUp_keep _ _ _ (fun c h => ?_) ?_
    | simp only [↓Chip.endOp_mem, ↓Chip.retireBlock_mem, ↓Chip.cnt_mem, ↓Chip.startOps_mem, ↓Chip.setRow_mem, ↓Chip.mem_mk, Stores.eta,
        Chip.mem_parts]

theorem execLunStatusTimeout_keep {P : Twin → Stores → Prop} (w : Twin) (k pos : Fin 32) (s : State) (hw : s.memP P) {t : State} (ht : execLunStatusTimeout w k pos s = .next t) : t.memP P := by
  injection ht with ht
  subst ht
  repeat' first
    | with_reducible assumption
    | split
    | with_reducible refine State.onUp_keep _ _ _ (fun c h => ?_) ?_
    | simp only [↓Chip.retireLun_mem, ↓Chip.cnt_mem, ↓Chip.mem_mk, Stores.eta, Chip.mem_parts]

theorem execNandZqCalibration_keep {P : Twin → Stores → Prop} (_w : Twin) (s : State) (hw : s.memP P) {t : State} (ht : execNandZqCalibration _w s = .next t) : t.memP P := by
  injection ht with ht
  subst ht
  repeat' first
    | with_reducible assumption
    | split
    | simp only [↓Chip.mem_mk, Stores.eta, Chip.mem_parts]

theorem execPatchAgeExpiry_keep {P : Twin → Stores → Prop} (w : Twin) (p : Nat) (s : State) (hw : s.memP P) {t : State} (ht : execPatchAgeExpiry w p s = .next t) : t.memP P := by
  injection ht with ht
  subst ht
  repeat' first
    | with_reducible assumption
    | split
    | with_reducible refine State.onUp_keep _ _ _ (fun c h => ?_) ?_
    | simp only [↓Chip.queueMerge_mem, ↓Chip.mem_mk, Stores.eta, Chip.mem_parts]

theorem execOfflineReq_keep {P : Twin → Stores → Prop} (w : Twin) (rq : Requester) (m : Fin 8) (s : State) (hw : s.memP P) {t : State} (ht : execOfflineReq w rq m s = .next t) : t.memP P := by
  injection ht with ht
  subst ht
  repeat' first
    | with_reducible assumption
    | split
    | with_reducible refine State.onUp_keep _ _ _ (fun c h => ?_) ?_
    | with_reducible refine Chip.ifWrites_keep _ _ _ _ (fun c h => ?_) ?_
    | with_reducible refine Chip.ifRunning_keep _ _ _ _ (fun c h => ?_) ?_
    | simp only [↓Chip.offlineReq_mem, ↓Chip.mem_mk, Stores.eta, Chip.mem_parts]

theorem execOnlineReq_keep {P : Twin → Stores → Prop} (w : Twin) (rq : Requester) (m : Fin 8) (s : State) (hw : s.memP P) {t : State} (ht : execOnlineReq w rq m s = .next t) : t.memP P := by
  injection ht with ht
  subst ht
  repeat' first
    | with_reducible assumption
    | split
    | with_reducible refine State.onUp_keep _ _ _ (fun c h => ?_) ?_
    | with_reducible refine Chip.ifWrites_keep _ _ _ _ (fun c h => ?_) ?_
    | with_reducible refine Chip.ifRunning_keep _ _ _ _ (fun c h => ?_) ?_
    | simp only [↓Chip.onlineReq_mem, ↓Chip.mem_mk, Stores.eta, Chip.mem_parts]

theorem execModuleSafe_keep {P : Twin → Stores → Prop} (w : Twin) (m : Fin 8) (s : State) (hw : s.memP P) {t : State} (ht : execModuleSafe w m s = .next t) : t.memP P := by
  injection ht with ht
  subst ht
  repeat' first
    | with_reducible assumption
    | split
    | with_reducible refine State.onUp_keep _ _ _ (fun c h => ?_) ?_
    | simp only [↓Chip.setModule_mem, ↓Chip.mem_mk, Stores.eta, Chip.mem_parts]

theorem execModulePresenceChange_keep {P : Twin → Stores → Prop} (w : Twin) (m : Fin 8) (present : Bool) (s : State) (hw : s.memP P) {t : State} (ht : execModulePresenceChange w m present s = .next t) : t.memP P := by
  injection ht with ht
  subst ht
  repeat' first
    | with_reducible assumption
    | split
    | with_reducible refine State.mapChip_keep _ _ _ (fun c h => ?_) ?_
    | simp only [↓Chip.put_mem, ↓Chip.setModule_mem, ↓Chip.mem_mk, Stores.eta, Chip.mem_parts]

theorem execChannelFailed_keep {P : Twin → Stores → Prop} (w : Twin) (k : Fin 32) (s : State) (hw : s.memP P) {t : State} (ht : execChannelFailed w k s = .next t) : t.memP P := by
  injection ht with ht
  subst ht
  repeat' first
    | with_reducible assumption
    | split
    | with_reducible refine State.onUp_keep _ _ _ (fun c h => ?_) ?_
    | with_reducible refine Chip.foldl_keep _ (fun c x h => ?_) _ _ ?_
    | with_reducible refine State.foldl_keep _ (fun s x h => ?_) _ _ ?_
    | simp only [↓Chip.raise_mem, ↓Chip.put_mem, ↓Chip.retireLun_mem, ↓Chip.offlining_mem, ↓Chip.mem_mk, Stores.eta, Chip.mem_parts]

theorem execModulePrepareDone_keep {P : Twin → Stores → Prop} (w : Twin) (m : Fin 8) (ok : Bool) (s : State) (hw : s.memP P) {t : State} (ht : execModulePrepareDone w m ok s = .next t) : t.memP P := by
  injection ht with ht
  subst ht
  repeat' first
    | with_reducible assumption
    | split
    | with_reducible refine State.onUp_keep _ _ _ (fun c h => ?_) ?_
    | with_reducible refine Chip.foldl_keep _ (fun c x h => ?_) _ _ ?_
    | with_reducible refine State.foldl_keep _ (fun s x h => ?_) _ _ ?_
    | simp only [↓Chip.setModule_mem, ↓Chip.putCfg_mem, ↓Chip.put_mem, ↓Chip.mem_mk, Stores.eta, Chip.mem_parts]

theorem execMdcInvalidationDone_keep {P : Twin → Stores → Prop} (w : Twin) (s : State) (hw : s.memP P) {t : State} (ht : execMdcInvalidationDone w s = .next t) : t.memP P := by
  injection ht with ht
  subst ht
  repeat' first
    | with_reducible assumption
    | split
    | with_reducible refine State.onUp_keep _ _ _ (fun c h => ?_) ?_
    | simp only [↓Chip.mem_mk, Stores.eta, Chip.mem_parts]

theorem execMdcClean_keep {P : Twin → Stores → Prop} (w : Twin) (rq : Requester) (s : State) (hw : s.memP P) {t : State} (ht : execMdcClean w rq s = .next t) : t.memP P := by
  injection ht with ht
  subst ht
  repeat' first
    | with_reducible assumption
    | split
    | with_reducible refine State.onUp_keep _ _ _ (fun c h => ?_) ?_
    | with_reducible refine Chip.ifWrites_keep _ _ _ _ (fun c h => ?_) ?_
    | with_reducible refine Chip.ifRunning_keep _ _ _ _ (fun c h => ?_) ?_
    | simp only [↓Chip.mdcGo_mem, ↓Chip.mem_mk, Stores.eta, Chip.mem_parts]

theorem execMdcInvalidate_keep {P : Twin → Stores → Prop} (w : Twin) (rq : Requester) (s : State) (hw : s.memP P) {t : State} (ht : execMdcInvalidate w rq s = .next t) : t.memP P := by
  injection ht with ht
  subst ht
  repeat' first
    | with_reducible assumption
    | split
    | with_reducible refine State.onUp_keep _ _ _ (fun c h => ?_) ?_
    | with_reducible refine Chip.ifWrites_keep _ _ _ _ (fun c h => ?_) ?_
    | with_reducible refine Chip.ifRunning_keep _ _ _ _ (fun c h => ?_) ?_
    | simp only [↓Chip.mdcGo_mem, ↓Chip.mem_mk, Stores.eta, Chip.mem_parts]

theorem execMdcCleanInvalidate_keep {P : Twin → Stores → Prop} (w : Twin) (rq : Requester) (s : State) (hw : s.memP P) {t : State} (ht : execMdcCleanInvalidate w rq s = .next t) : t.memP P := by
  injection ht with ht
  subst ht
  repeat' first
    | with_reducible assumption
    | split
    | with_reducible refine State.onUp_keep _ _ _ (fun c h => ?_) ?_
    | with_reducible refine Chip.ifWrites_keep _ _ _ _ (fun c h => ?_) ?_
    | with_reducible refine Chip.ifRunning_keep _ _ _ _ (fun c h => ?_) ?_
    | simp only [↓Chip.mdcGo_mem, ↓Chip.mem_mk, Stores.eta, Chip.mem_parts]

theorem execMdcLock_keep {P : Twin → Stores → Prop} (w : Twin) (rq : Requester) (s : State) (hw : s.memP P) {t : State} (ht : execMdcLock w rq s = .next t) : t.memP P := by
  injection ht with ht
  subst ht
  repeat' first
    | with_reducible assumption
    | split
    | with_reducible refine State.onUp_keep _ _ _ (fun c h => ?_) ?_
    | with_reducible refine Chip.ifWrites_keep _ _ _ _ (fun c h => ?_) ?_
    | with_reducible refine Chip.ifRunning_keep _ _ _ _ (fun c h => ?_) ?_
    | simp only [↓Chip.mdcGo_mem, ↓Chip.mem_mk, Stores.eta, Chip.mem_parts]

theorem execMdcUnlock_keep {P : Twin → Stores → Prop} (w : Twin) (rq : Requester) (s : State) (hw : s.memP P) {t : State} (ht : execMdcUnlock w rq s = .next t) : t.memP P := by
  injection ht with ht
  subst ht
  repeat' first
    | with_reducible assumption
    | split
    | with_reducible refine State.onUp_keep _ _ _ (fun c h => ?_) ?_
    | with_reducible refine Chip.ifWrites_keep _ _ _ _ (fun c h => ?_) ?_
    | with_reducible refine Chip.ifRunning_keep _ _ _ _ (fun c h => ?_) ?_
    | simp only [↓Chip.mdcGo_mem, ↓Chip.mem_mk, Stores.eta, Chip.mem_parts]

theorem execMdcOpDone_keep {P : Twin → Stores → Prop} (w : Twin) (s : State) (hw : s.memP P) {t : State} (ht : execMdcOpDone w s = .next t) : t.memP P := by
  injection ht with ht
  subst ht
  repeat' first
    | with_reducible assumption
    | split
    | with_reducible refine State.onUp_keep _ _ _ (fun c h => ?_) ?_
    | simp only [↓Chip.mdcRun_mem, ↓Chip.mem_mk, Stores.eta, Chip.mem_parts]

theorem execWayDisableDone_keep {P : Twin → Stores → Prop} (w : Twin) (way : Fin 18) (s : State) (hw : s.memP P) {t : State} (ht : execWayDisableDone w way s = .next t) : t.memP P := by
  injection ht with ht
  subst ht
  repeat' first
    | with_reducible assumption
    | split
    | with_reducible refine State.onUp_keep _ _ _ (fun c h => ?_) ?_
    | with_reducible refine Chip.foldl_keep _ (fun c x h => ?_) _ _ ?_
    | with_reducible refine State.foldl_keep _ (fun s x h => ?_) _ _ ?_
    | simp only [↓Chip.mdcToDram_mem, ↓Chip.put_mem, ↓Chip.raise_mem, ↓Chip.cnt_mem, ↓Chip.drew_mem, ↓Chip.setMdcWay_mem,
        ↓Chip.refillLocked_mem, ↓Chip.mem_mk, Stores.eta, Chip.mem_parts]

theorem execPprDone_keep {P : Twin → Stores → Prop} (w : Twin) (d : Fin 16) (s : State) (hw : s.memP P) {t : State} (ht : execPprDone w d s = .next t) : t.memP P := by
  injection ht with ht
  subst ht
  repeat' first
    | with_reducible assumption
    | split
    | with_reducible refine State.onUp_keep _ _ _ (fun c h => ?_) ?_
    | simp only [↓Chip.readBacklog_mem, ↓Chip.mapChan_mem, ↓Chip.raise_mem, ↓Chip.put_mem, ↓Chip.pprOutcome_mem, ↓Chip.cnt_mem,
        ↓Chip.showPprLeft_mem, ↓Chip.drew_mem, ↓Chip.mem_mk, Stores.eta, Chip.mem_parts]

theorem execRingEnableApply_keep {P : Twin → Stores → Prop} (q : Fin 64) (s : State) (hw : s.memP P) {t : State} (ht : execRingEnableApply q s = .next t) : t.memP P := by
  injection ht with ht
  subst ht
  repeat' first
    | with_reducible assumption
    | split
    | with_reducible refine State.mapBoth_keep _ _ (fun _ c h => ?_) ?_
    | simp only [↓Chip.ringEnable_mem, ↓Chip.mem_mk, Stores.eta, Chip.mem_parts]

theorem execRingDisableApply_keep {P : Twin → Stores → Prop} (q : Fin 64) (s : State) (hw : s.memP P) {t : State} (ht : execRingDisableApply q s = .next t) : t.memP P := by
  injection ht with ht
  subst ht
  repeat' first
    | with_reducible assumption
    | split
    | with_reducible refine State.mapBoth_keep _ _ (fun _ c h => ?_) ?_
    | simp only [↓Chip.ringDisable_mem, ↓Chip.mem_mk, Stores.eta, Chip.mem_parts]

theorem execCmdTail_keep {P : Twin → Stores → Prop} (w : Twin) (rq : Requester) (throughAlias : Bool) (q : Fin 64) (v : BitVec 16) (s : State) (hw : s.memP P) {t : State} (ht : execCmdTail w rq throughAlias q v s = .next t) : t.memP P := by
  injection ht with ht
  subst ht
  repeat' first
    | with_reducible assumption
    | split
    | with_reducible refine State.onUp_keep _ _ _ (fun c h => ?_) ?_
    | simp only [↓Chip.doorbell_mem, ↓Chip.mem_mk, Stores.eta, Chip.mem_parts]

theorem execCmpHead_keep {P : Twin → Stores → Prop} (w : Twin) (rq : Requester) (throughAlias : Bool) (q : Fin 64) (v : BitVec 16) (s : State) (hw : s.memP P) {t : State} (ht : execCmpHead w rq throughAlias q v s = .next t) : t.memP P := by
  injection ht with ht
  subst ht
  repeat' first
    | with_reducible assumption
    | split
    | with_reducible refine State.onUp_keep _ _ _ (fun c h => ?_) ?_
    | simp only [↓Chip.doorbell_mem, ↓Chip.mem_mk, Stores.eta, Chip.mem_parts]

theorem execPostBoxCommandStart_keep {P : Twin → Stores → Prop} (q : Fin 64) (s : State) (hw : s.memP P) {t : State} (ht : execPostBoxCommandStart q s = .next t) : t.memP P := by
  injection ht with ht
  subst ht
  repeat' first
    | with_reducible assumption
    | split
    | with_reducible refine State.mapBoth_keep _ _ (fun _ c h => ?_) ?_
    | simp only [↓Chip.ringFetch_mem, ↓Chip.mem_mk, Stores.eta, Chip.mem_parts]

theorem execCompletionWrite_keep {P : Twin → Stores → Prop} (q : Fin 64) (s : State) (hw : s.memP P) {t : State} (ht : execCompletionWrite q s = .next t) : t.memP P := by
  injection ht with ht
  subst ht
  repeat' first
    | with_reducible assumption
    | split
    | with_reducible refine State.mapBoth_keep _ _ (fun _ c h => ?_) ?_
    | simp only [↓Chip.ringComplete_mem, ↓Chip.mem_mk, Stores.eta, Chip.mem_parts]

theorem execRingNop_keep {P : Twin → Stores → Prop} (q : Fin 64) (idx : Nat) (s : State) (hw : s.memP P) {t : State} (ht : execRingNop q idx s = .next t) : t.memP P := by
  injection ht with ht
  subst ht
  repeat' first
    | with_reducible assumption
    | split
    | with_reducible refine State.ringOp_keep _ _ _ _ _ (fun _ c n r h => ?_) ?_
    | simp only [↓Chip.ringReport_mem, ↓Chip.mem_mk, Stores.eta, Chip.mem_parts]

theorem execRingRound_keep {P : Twin → Stores → Prop} (q : Fin 64) (idx : Nat) (s : State) (hw : s.memP P) {t : State} (ht : execRingRound q idx s = .next t) : t.memP P := by
  injection ht with ht
  subst ht
  repeat' first
    | with_reducible assumption
    | split
    | with_reducible refine State.ringOp_keep _ _ _ _ _ (fun _ c n r h => ?_) ?_
    | simp only [↓Chip.ringReport_mem, ↓Chip.mem_mk, Stores.eta, Chip.mem_parts]

theorem execObjRegister_keep {P : Twin → Stores → Prop} (q : Fin 64) (idx : Nat) (s : State) (hw : s.memP P) {t : State} (ht : execObjRegister q idx s = .next t) : t.memP P := by
  injection ht with ht
  subst ht
  repeat' first
    | with_reducible assumption
    | split
    | with_reducible refine State.ringOp_keep _ _ _ _ _ (fun _ c n r h => ?_) ?_
    | simp only [↓Chip.objRegister_mem, ↓Chip.mem_mk, Stores.eta, Chip.mem_parts]

theorem execObjRemove_keep {P : Twin → Stores → Prop} (q : Fin 64) (idx : Nat) (s : State) (hw : s.memP P) {t : State} (ht : execObjRemove q idx s = .next t) : t.memP P := by
  injection ht with ht
  subst ht
  repeat' first
    | with_reducible assumption
    | split
    | with_reducible refine State.ringOp_keep _ _ _ _ _ (fun _ c n r h => ?_) ?_
    | simp only [↓Chip.objRemove_mem, ↓Chip.mem_mk, Stores.eta, Chip.mem_parts]

theorem execObjSetPolicy_keep {P : Twin → Stores → Prop} (q : Fin 64) (idx : Nat) (s : State) (hw : s.memP P) {t : State} (ht : execObjSetPolicy q idx s = .next t) : t.memP P := by
  injection ht with ht
  subst ht
  repeat' first
    | with_reducible assumption
    | split
    | with_reducible refine State.ringOp_keep _ _ _ _ _ (fun _ c n r h => ?_) ?_
    | simp only [↓Chip.objSetPolicy_mem, ↓Chip.mem_mk, Stores.eta, Chip.mem_parts]

theorem execObjQuery_keep {P : Twin → Stores → Prop} (q : Fin 64) (idx : Nat) (s : State) (hw : s.memP P) {t : State} (ht : execObjQuery q idx s = .next t) : t.memP P := by
  injection ht with ht
  subst ht
  repeat' first
    | with_reducible assumption
    | split
    | with_reducible refine State.ringOp_keep _ _ _ _ _ (fun _ c n r h => ?_) ?_
    | simp only [↓Chip.objQuery_mem, ↓Chip.mem_mk, Stores.eta, Chip.mem_parts]

theorem execExtentPromote_keep {P : Twin → Stores → Prop} (q : Fin 64) (idx : Nat) (s : State) (hw : s.memP P) {t : State} (ht : execExtentPromote q idx s = .next t) : t.memP P := by
  injection ht with ht
  subst ht
  repeat' first
    | with_reducible assumption
    | split
    | with_reducible refine State.ringOp_keep _ _ _ _ _ (fun _ c n r h => ?_) ?_
    | simp only [↓Chip.rangeCommand_mem, ↓Chip.mem_mk, Stores.eta, Chip.mem_parts]

theorem execExtentEvict_keep {P : Twin → Stores → Prop} (q : Fin 64) (idx : Nat) (s : State) (hw : s.memP P) {t : State} (ht : execExtentEvict q idx s = .next t) : t.memP P := by
  injection ht with ht
  subst ht
  repeat' first
    | with_reducible assumption
    | split
    | with_reducible refine State.ringOp_keep _ _ _ _ _ (fun _ c n r h => ?_) ?_
    | simp only [↓Chip.rangeCommand_mem, ↓Chip.mem_mk, Stores.eta, Chip.mem_parts]

theorem execExtentDiscard_keep {P : Twin → Stores → Prop} (q : Fin 64) (idx : Nat) (s : State) (hw : s.memP P) {t : State} (ht : execExtentDiscard q idx s = .next t) : t.memP P := by
  injection ht with ht
  subst ht
  repeat' first
    | with_reducible assumption
    | split
    | with_reducible refine State.ringOp_keep _ _ _ _ _ (fun _ c n r h => ?_) ?_
    | simp only [↓Chip.rangeCommand_mem, ↓Chip.mem_mk, Stores.eta, Chip.mem_parts]

theorem execPoolQuery_keep {P : Twin → Stores → Prop} (q : Fin 64) (idx : Nat) (s : State) (hw : s.memP P) {t : State} (ht : execPoolQuery q idx s = .next t) : t.memP P := by
  injection ht with ht
  subst ht
  repeat' first
    | with_reducible assumption
    | split
    | with_reducible refine State.ringOp_keep _ _ _ _ _ (fun _ c n r h => ?_) ?_
    | simp only [↓Chip.poolQuery_mem, ↓Chip.mem_mk, Stores.eta, Chip.mem_parts]

theorem execRouteLoad_keep {P : Twin → Stores → Prop} (q : Fin 64) (idx : Nat) (s : State) (hw : s.memP P) {t : State} (ht : execRouteLoad q idx s = .next t) : t.memP P := by
  injection ht with ht
  subst ht
  repeat' first
    | with_reducible assumption
    | split
    | with_reducible refine State.ringOp_keep _ _ _ _ _ (fun _ c n r h => ?_) ?_
    | simp only [↓Chip.routeLoad_mem, ↓Chip.mem_mk, Stores.eta, Chip.mem_parts]

theorem execRouteStart_keep {P : Twin → Stores → Prop} (q : Fin 64) (idx : Nat) (s : State) (hw : s.memP P) {t : State} (ht : execRouteStart q idx s = .next t) : t.memP P := by
  injection ht with ht
  subst ht
  repeat' first
    | with_reducible assumption
    | split
    | with_reducible refine State.ringOp_keep _ _ _ _ _ (fun _ c n r h => ?_) ?_
    | simp only [↓Chip.routeMove_mem, ↓Chip.mem_mk, Stores.eta, Chip.mem_parts]

theorem execRouteSeek_keep {P : Twin → Stores → Prop} (q : Fin 64) (idx : Nat) (s : State) (hw : s.memP P) {t : State} (ht : execRouteSeek q idx s = .next t) : t.memP P := by
  injection ht with ht
  subst ht
  repeat' first
    | with_reducible assumption
    | split
    | with_reducible refine State.ringOp_keep _ _ _ _ _ (fun _ c n r h => ?_) ?_
    | simp only [↓Chip.routeMove_mem, ↓Chip.mem_mk, Stores.eta, Chip.mem_parts]

theorem execRouteStop_keep {P : Twin → Stores → Prop} (q : Fin 64) (idx : Nat) (s : State) (hw : s.memP P) {t : State} (ht : execRouteStop q idx s = .next t) : t.memP P := by
  injection ht with ht
  subst ht
  repeat' first
    | with_reducible assumption
    | split
    | with_reducible refine State.ringOp_keep _ _ _ _ _ (fun _ c n r h => ?_) ?_
    | simp only [↓Chip.routeEnd_mem, ↓Chip.mem_mk, Stores.eta, Chip.mem_parts]

theorem execRouteUnload_keep {P : Twin → Stores → Prop} (q : Fin 64) (idx : Nat) (s : State) (hw : s.memP P) {t : State} (ht : execRouteUnload q idx s = .next t) : t.memP P := by
  injection ht with ht
  subst ht
  repeat' first
    | with_reducible assumption
    | split
    | with_reducible refine State.ringOp_keep _ _ _ _ _ (fun _ c n r h => ?_) ?_
    | simp only [↓Chip.routeEnd_mem, ↓Chip.mem_mk, Stores.eta, Chip.mem_parts]

theorem execRouteQuery_keep {P : Twin → Stores → Prop} (q : Fin 64) (idx : Nat) (s : State) (hw : s.memP P) {t : State} (ht : execRouteQuery q idx s = .next t) : t.memP P := by
  injection ht with ht
  subst ht
  repeat' first
    | with_reducible assumption
    | split
    | with_reducible refine State.ringOp_keep _ _ _ _ _ (fun _ c n r h => ?_) ?_
    | simp only [↓Chip.routeQuery_mem, ↓Chip.mem_mk, Stores.eta, Chip.mem_parts]

theorem execRetireDramRow_keep {P : Twin → Stores → Prop} (q : Fin 64) (idx : Nat) (s : State) (hw : s.memP P) {t : State} (ht : execRetireDramRow q idx s = .next t) : t.memP P := by
  injection ht with ht
  subst ht
  repeat' first
    | with_reducible assumption
    | split
    | with_reducible refine State.ringOp_keep _ _ _ _ _ (fun _ c n r h => ?_) ?_
    | simp only [↓Chip.retireCommand_mem, ↓Chip.mem_mk, Stores.eta, Chip.mem_parts]

theorem execRetireFrame_keep {P : Twin → Stores → Prop} (q : Fin 64) (idx : Nat) (s : State) (hw : s.memP P) {t : State} (ht : execRetireFrame q idx s = .next t) : t.memP P := by
  injection ht with ht
  subst ht
  repeat' first
    | with_reducible assumption
    | split
    | with_reducible refine State.ringOp_keep _ _ _ _ _ (fun _ c n r h => ?_) ?_
    | simp only [↓Chip.retireCommand_mem, ↓Chip.mem_mk, Stores.eta, Chip.mem_parts]

theorem execRetireParcel_keep {P : Twin → Stores → Prop} (q : Fin 64) (idx : Nat) (s : State) (hw : s.memP P) {t : State} (ht : execRetireParcel q idx s = .next t) : t.memP P := by
  injection ht with ht
  subst ht
  repeat' first
    | with_reducible assumption
    | split
    | with_reducible refine State.ringOp_keep _ _ _ _ _ (fun _ c n r h => ?_) ?_
    | simp only [↓Chip.retireCommand_mem, ↓Chip.mem_mk, Stores.eta, Chip.mem_parts]

theorem execLedgerQuery_keep {P : Twin → Stores → Prop} (q : Fin 64) (idx : Nat) (s : State) (hw : s.memP P) {t : State} (ht : execLedgerQuery q idx s = .next t) : t.memP P := by
  injection ht with ht
  subst ht
  repeat' first
    | with_reducible assumption
    | split
    | with_reducible refine State.ringOp_keep _ _ _ _ _ (fun _ c n r h => ?_) ?_
    | simp only [↓Chip.retireCommand_mem, ↓Chip.mem_mk, Stores.eta, Chip.mem_parts]

theorem execLinkTrained_keep {P : Twin → Stores → Prop} (h : Fin 24) (x : LinkTraining) (s : State) (hw : s.memP P) {t : State}
    (ht : execLinkTrained h x s = .next t) : t.memP P := by
  injection ht with ht
  subst ht
  split
  · exact hw
  · split
    · refine State.onPort_keep _ _ _ (fun _ c hc => ?_) hw
      rw [Chip.trainLink_mem]
      exact hc
    · exact hw

theorem execLinkDegradeRetry_keep {P : Twin → Stores → Prop} (h : Fin 24) (s : State) (hw : s.memP P) {t : State} (ht : execLinkDegradeRetry h s = .next t) : t.memP P := by
  injection ht with ht
  subst ht
  repeat' first
    | with_reducible assumption
    | split
    | with_reducible refine State.mapBoth_keep _ _ (fun _ c h => ?_) ?_
    | simp only [↓Chip.mapHead_mem, ↓Chip.mem_mk, Stores.eta, Chip.mem_parts]

theorem execLinkLeftL0_keep {P : Twin → Stores → Prop} (h : Fin 24) (dest : Fin 9) (ns : Nat) (s : State) (hw : s.memP P) {t : State} (ht : execLinkLeftL0 h dest ns s = .next t) : t.memP P := by
  injection ht with ht
  subst ht
  repeat' first
    | with_reducible assumption
    | split
    | with_reducible refine State.chip_keep _ _ ?_
    | with_reducible refine State.onPort_keep _ _ _ (fun _ c h => ?_) ?_
    | simp only [↓Chip.leaveL0_mem, ↓Chip.mem_mk, Stores.eta, Chip.mem_parts]

theorem execDecoderCommit_keep {P : Twin → Stores → Prop} (h : Fin 24) (n : Fin 16) (s : State) (hw : s.memP P) {t : State} (ht : execDecoderCommit h n s = .next t) : t.memP P := by
  injection ht with ht
  subst ht
  repeat' first
    | with_reducible assumption
    | split
    | with_reducible refine State.onPort_keep _ _ _ (fun _ c h => ?_) ?_
    | simp only [↓Chip.commitDecoder_mem, ↓Chip.mem_mk, Stores.eta, Chip.mem_parts]

theorem execDoeDiscovery_keep {P : Twin → Stores → Prop} (h : Fin 24) (index : Nat) (s : State) (hw : s.memP P) {t : State} (ht : execDoeDiscovery h index s = .next t) : t.memP P := by
  injection ht with ht
  subst ht
  repeat' first
    | with_reducible assumption
    | split
    | with_reducible refine State.onReached_keep _ _ _ (fun _ c h => ?_) ?_
    | simp only [↓Chip.setDoe_mem, ↓Chip.mem_mk, Stores.eta, Chip.mem_parts]

theorem execCdatTableAccess_keep {P : Twin → Stores → Prop} (h : Fin 24) (entry : Nat) (s : State) (hw : s.memP P) {t : State} (ht : execCdatTableAccess h entry s = .next t) : t.memP P := by
  injection ht with ht
  subst ht
  repeat' first
    | with_reducible assumption
    | split
    | with_reducible refine State.onReached_keep _ _ _ (fun _ c h => ?_) ?_
    | simp only [↓Chip.setDoe_mem, ↓Chip.mem_mk, Stores.eta, Chip.mem_parts]

theorem execMsixModeratorFire_keep {P : Twin → Stores → Prop} (h : Fin 24) (v : Fin 64) (timer : Bool) (s : State) (hw : s.memP P) {t : State} (ht : execMsixModeratorFire h v timer s = .next t) : t.memP P := by
  injection ht with ht
  subst ht
  repeat' first
    | with_reducible assumption
    | split
    | with_reducible refine State.onHome_keep _ _ _ (fun _ c h => ?_) ?_
    | simp only [↓Chip.fireModerator_mem, ↓Chip.mem_mk, Stores.eta, Chip.mem_parts]

theorem execD0Entry_keep {P : Twin → Stores → Prop} (h : Fin 24) (s : State) (hw : s.memP P) {t : State} (ht : execD0Entry h s = .next t) : t.memP P := by
  injection ht with ht
  subst ht
  repeat' first
    | with_reducible assumption
    | split
    | with_reducible refine State.onPort_keep _ _ _ (fun _ c h => ?_) ?_
    | simp only [↓Chip.enterD0_mem, ↓Chip.mem_mk, Stores.eta, Chip.mem_parts]

theorem execGpfPhase1_keep {P : Twin → Stores → Prop} (h : Fin 24) (s : State) (hw : s.memP P) {t : State} (ht : execGpfPhase1 h s = .next t) : t.memP P := by
  injection ht with ht
  subst ht
  repeat' first
    | with_reducible assumption
    | split
    | with_reducible refine State.onReached_keep _ _ _ (fun _ c h => ?_) ?_
    | simp only [↓Chip.toHost_mem, ↓Chip.mem_mk, Stores.eta, Chip.mem_parts]

theorem execGpfPhase2_keep {P : Twin → Stores → Prop} (h : Fin 24) (s : State) (hw : s.memP P) {t : State} (ht : execGpfPhase2 h s = .next t) : t.memP P := by
  injection ht with ht
  subst ht
  repeat' first
    | with_reducible assumption
    | split
    | with_reducible refine State.onReached_keep _ _ _ (fun _ c h => ?_) ?_
    | simp only [↓Chip.mapHead_mem, ↓Chip.mem_mk, Stores.eta, Chip.mem_parts]

theorem execGpfPhase2Done_keep {P : Twin → Stores → Prop} (h : Fin 24) (s : State) (hw : s.memP P) {t : State} (ht : execGpfPhase2Done h s = .next t) : t.memP P := by
  injection ht with ht
  subst ht
  repeat' first
    | with_reducible assumption
    | split
    | with_reducible refine State.onReached_keep _ _ _ (fun _ c h => ?_) ?_
    | simp only [↓Chip.raise_mem, ↓Chip.toHost_mem, ↓Chip.mapHead_mem, ↓Chip.mem_mk, Stores.eta, Chip.mem_parts]

theorem execHotReset_keep {P : Twin → Stores → Prop} (h : Fin 24) (s : State) (hw : s.memP P) {t : State} (ht : execHotReset h s = .next t) : t.memP P := by
  injection ht with ht
  subst ht
  repeat' first
    | with_reducible assumption
    | split
    | with_reducible refine State.resetHeads_keep _ _ _ ?_
    | simp only [↓Chip.mem_mk, Stores.eta, Chip.mem_parts]

theorem execSecondaryBusReset_keep {P : Twin → Stores → Prop} (h : Fin 24) (s : State) (hw : s.memP P) {t : State} (ht : execSecondaryBusReset h s = .next t) : t.memP P := by
  injection ht with ht
  subst ht
  repeat' first
    | with_reducible assumption
    | split
    | with_reducible refine State.resetHeads_keep _ _ _ ?_
    | simp only [↓Chip.mem_mk, Stores.eta, Chip.mem_parts]

theorem execHeadFlr_keep {P : Twin → Stores → Prop} (h : Fin 24) (s : State) (hw : s.memP P) {t : State} (ht : execHeadFlr h s = .next t) : t.memP P := by
  injection ht with ht
  subst ht
  repeat' first
    | with_reducible assumption
    | split
    | with_reducible refine State.resetHeads_keep _ _ _ ?_
    | simp only [↓Chip.mem_mk, Stores.eta, Chip.mem_parts]

theorem execCxlReset_keep {P : Twin → Stores → Prop} (h : Fin 24) (s : State) (hw : s.memP P) {t : State} (ht : execCxlReset h s = .next t) : t.memP P := by
  injection ht with ht
  subst ht
  repeat' first
    | with_reducible assumption
    | split
    | with_reducible refine State.resetHeads_keep _ _ _ ?_
    | simp only [↓Chip.mem_mk, Stores.eta, Chip.mem_parts]

theorem execPerstAssert_keep {P : Twin → Stores → Prop} (p : Fin 6) (s : State) (hw : s.memP P) {t : State} (ht : execPerstAssert p s = .next t) : t.memP P := by
  injection ht with ht
  subst ht
  repeat' first
    | with_reducible assumption
    | split
    | with_reducible refine State.mapBoth_keep _ _ (fun _ c h => ?_) ?_
    | with_reducible refine Chip.foldl_keep _ (fun c x h => ?_) _ _ ?_
    | with_reducible refine State.foldl_keep _ (fun s x h => ?_) _ _ ?_
    | simp only [↓Chip.resetHead_mem, ↓Chip.mapHead_mem, ↓Chip.mem_mk, Stores.eta, Chip.mem_parts]

theorem execPerstDeassert_keep {P : Twin → Stores → Prop} (p : Fin 6) (s : State) (hw : s.memP P) {t : State} (ht : execPerstDeassert p s = .next t) : t.memP P := by
  injection ht with ht
  subst ht
  repeat' first
    | with_reducible assumption
    | split
    | with_reducible refine State.mapBoth_keep _ _ (fun _ c h => ?_) ?_
    | with_reducible refine Chip.foldl_keep _ (fun c x h => ?_) _ _ ?_
    | with_reducible refine State.foldl_keep _ (fun s x h => ?_) _ _ ?_
    | simp only [↓Chip.mapHead_mem, ↓Chip.mem_mk, Stores.eta, Chip.mem_parts]

theorem execCarbonAcquired_keep {P : Twin → Stores → Prop} (w : Twin) (h : Fin 24) (ns : Nat) (s : State) (hw : s.memP P) {t : State} (ht : execCarbonAcquired w h ns s = .next t) : t.memP P := by
  injection ht with ht
  subst ht
  repeat' first
    | with_reducible assumption
    | split
    | with_reducible refine State.onUp_keep _ _ _ (fun c h => ?_) ?_
    | simp only [↓Chip.enterTracking_mem, ↓Chip.mem_mk, Stores.eta, Chip.mem_parts]

theorem execAcqLimitExpiry_keep {P : Twin → Stores → Prop} (w : Twin) (h : Fin 24) (s : State) (hw : s.memP P) {t : State} (ht : execAcqLimitExpiry w h s = .next t) : t.memP P := by
  injection ht with ht
  subst ht
  repeat' first
    | with_reducible assumption
    | split
    | with_reducible refine State.onUp_keep _ _ _ (fun c h => ?_) ?_
    | simp only [↓Chip.lose_mem, ↓Chip.mem_mk, Stores.eta, Chip.mem_parts]

theorem execLostRetry_keep {P : Twin → Stores → Prop} (w : Twin) (h : Fin 24) (s : State) (hw : s.memP P) {t : State} (ht : execLostRetry w h s = .next t) : t.memP P := by
  injection ht with ht
  subst ht
  repeat' first
    | with_reducible assumption
    | split
    | with_reducible refine State.onUp_keep _ _ _ (fun c h => ?_) ?_
    | simp only [↓Chip.acquire_mem, ↓Chip.mem_mk, Stores.eta, Chip.mem_parts]

theorem execTrackLost_keep {P : Twin → Stores → Prop} (w : Twin) (h : Fin 24) (s : State) (hw : s.memP P) {t : State} (ht : execTrackLost w h s = .next t) : t.memP P := by
  injection ht with ht
  subst ht
  repeat' first
    | with_reducible assumption
    | split
    | with_reducible refine State.onUp_keep _ _ _ (fun c h => ?_) ?_
    | simp only [↓Chip.lose_mem, ↓Chip.mem_mk, Stores.eta, Chip.mem_parts]

theorem execFlitFetch_keep {P : Twin → Stores → Prop} (w : Twin) (h : Fin 24) (dir : Direction) (flit : Nat) (s : State) (hw : s.memP P) {t : State} (ht : execFlitFetch w h dir flit s = .next t) : t.memP P := by
  injection ht with ht
  subst ht
  repeat' first
    | with_reducible assumption
    | split
    | with_reducible refine State.onUp_keep _ _ _ (fun c h => ?_) ?_
    | simp only [↓Chip.mapHead_mem, ↓Chip.send_mem, ↓Chip.showFetches_mem, ↓Chip.cnt_mem, ↓Chip.mem_mk, Stores.eta, Chip.mem_parts]

theorem execGetEventRecords_keep {P : Twin → Stores → Prop} (h : Fin 24) (log : Fin 4) (s : State) (hw : s.memP P) {t : State} (ht : execGetEventRecords h log s = .next t) : t.memP P := by
  injection ht with ht
  subst ht
  repeat' first
    | with_reducible assumption
    | split
    | with_reducible refine State.mailGet_keep _ _ _ ?_
    | simp only [↓Chip.mem_mk, Stores.eta, Chip.mem_parts]

theorem execClearEventRecords_keep {P : Twin → Stores → Prop} (h : Fin 24) (log : Fin 4) (all : Bool) (handles : List Nat) (s : State) (hw : s.memP P) {t : State} (ht : execClearEventRecords h log all handles s = .next t) : t.memP P := by
  injection ht with ht
  subst ht
  repeat' first
    | with_reducible assumption
    | split
    | with_reducible refine State.mailSet_keep _ _ _ _ _ ?_
    | simp only [↓Chip.mem_mk, Stores.eta, Chip.mem_parts]

theorem execGetEventInterruptPolicy_keep {P : Twin → Stores → Prop} (h : Fin 24) (s : State) (hw : s.memP P) {t : State} (ht : execGetEventInterruptPolicy h s = .next t) : t.memP P := by
  injection ht with ht
  subst ht
  repeat' first
    | with_reducible assumption
    | split
    | with_reducible refine State.mailGet_keep _ _ _ ?_
    | simp only [↓Chip.mem_mk, Stores.eta, Chip.mem_parts]

theorem execSetEventInterruptPolicy_keep {P : Twin → Stores → Prop} (h : Fin 24) (log : Fin 4) (mode : Fin 4) (s : State) (hw : s.memP P) {t : State} (ht : execSetEventInterruptPolicy h log mode s = .next t) : t.memP P := by
  injection ht with ht
  subst ht
  repeat' first
    | with_reducible assumption
    | split
    | with_reducible refine State.mailSet_keep _ _ _ _ _ ?_
    | simp only [↓Chip.mem_mk, Stores.eta, Chip.mem_parts]

theorem execGetFwInfo_keep {P : Twin → Stores → Prop} (h : Fin 24) (s : State) (hw : s.memP P) {t : State} (ht : execGetFwInfo h s = .next t) : t.memP P := by
  injection ht with ht
  subst ht
  repeat' first
    | with_reducible assumption
    | split
    | with_reducible refine State.mailGet_keep _ _ _ ?_
    | simp only [↓Chip.mem_mk, Stores.eta, Chip.mem_parts]

theorem execTransferFw_keep {P : Twin → Stores → Prop} (h : Fin 24) (off : Nat) (bytes : List Byte) (s : State) (hw : s.memP P) {t : State} (ht : execTransferFw h off bytes s = .next t) : t.memP P := by
  injection ht with ht
  subst ht
  repeat' first
    | with_reducible assumption
    | split
    | with_reducible refine State.mailSet_keep _ _ _ _ _ ?_
    | simp only [↓Chip.mem_mk, Stores.eta, Chip.mem_parts]

theorem execActivateFw_keep {P : Twin → Stores → Prop} (h : Fin 24) (slot : Fin 2) (s : State) (hw : s.memP P) {t : State} (ht : execActivateFw h slot s = .next t) : t.memP P := by
  injection ht with ht
  subst ht
  repeat' first
    | with_reducible assumption
    | split
    | with_reducible refine State.mailSet_keep _ _ _ _ _ ?_
    | simp only [↓Chip.mem_mk, Stores.eta, Chip.mem_parts]

theorem execGetTimestamp_keep {P : Twin → Stores → Prop} (h : Fin 24) (s : State) (hw : s.memP P) {t : State} (ht : execGetTimestamp h s = .next t) : t.memP P := by
  injection ht with ht
  subst ht
  repeat' first
    | with_reducible assumption
    | split
    | with_reducible refine State.mailGet_keep _ _ _ ?_
    | simp only [↓Chip.mem_mk, Stores.eta, Chip.mem_parts]

theorem execSetTimestamp_keep {P : Twin → Stores → Prop} (h : Fin 24) (ns : BitVec 64) (s : State) (hw : s.memP P) {t : State} (ht : execSetTimestamp h ns s = .next t) : t.memP P := by
  injection ht with ht
  subst ht
  repeat' first
    | with_reducible assumption
    | split
    | with_reducible refine State.mailSet_keep _ _ _ _ _ ?_
    | simp only [↓Chip.mem_mk, Stores.eta, Chip.mem_parts]

theorem execGetSupportedLogs_keep {P : Twin → Stores → Prop} (h : Fin 24) (s : State) (hw : s.memP P) {t : State} (ht : execGetSupportedLogs h s = .next t) : t.memP P := by
  injection ht with ht
  subst ht
  repeat' first
    | with_reducible assumption
    | split
    | with_reducible refine State.mailGet_keep _ _ _ ?_
    | simp only [↓Chip.mem_mk, Stores.eta, Chip.mem_parts]

theorem execGetLog_keep {P : Twin → Stores → Prop} (h : Fin 24) (log : Fin 2) (off len : Nat) (s : State) (hw : s.memP P) {t : State} (ht : execGetLog h log off len s = .next t) : t.memP P := by
  injection ht with ht
  subst ht
  repeat' first
    | with_reducible assumption
    | split
    | with_reducible refine State.mailGet_keep _ _ _ ?_
    | simp only [↓Chip.mem_mk, Stores.eta, Chip.mem_parts]

theorem execIdentifyMemoryDevice_keep {P : Twin → Stores → Prop} (h : Fin 24) (s : State) (hw : s.memP P) {t : State} (ht : execIdentifyMemoryDevice h s = .next t) : t.memP P := by
  injection ht with ht
  subst ht
  repeat' first
    | with_reducible assumption
    | split
    | with_reducible refine State.mailGet_keep _ _ _ ?_
    | simp only [↓Chip.mem_mk, Stores.eta, Chip.mem_parts]

theorem execGetPartitionInfo_keep {P : Twin → Stores → Prop} (h : Fin 24) (s : State) (hw : s.memP P) {t : State} (ht : execGetPartitionInfo h s = .next t) : t.memP P := by
  injection ht with ht
  subst ht
  repeat' first
    | with_reducible assumption
    | split
    | with_reducible refine State.mailGet_keep _ _ _ ?_
    | simp only [↓Chip.mem_mk, Stores.eta, Chip.mem_parts]

theorem execGetLsa_keep {P : Twin → Stores → Prop} (h : Fin 24) (off len : Nat) (s : State) (hw : s.memP P) {t : State} (ht : execGetLsa h off len s = .next t) : t.memP P := by
  injection ht with ht
  subst ht
  repeat' first
    | with_reducible assumption
    | split
    | with_reducible refine State.mailGet_keep _ _ _ ?_
    | simp only [↓Chip.mem_mk, Stores.eta, Chip.mem_parts]

theorem execSetLsa_keep {P : Twin → Stores → Prop} (h : Fin 24) (off : Nat) (bytes : List Byte) (s : State) (hw : s.memP P) {t : State} (ht : execSetLsa h off bytes s = .next t) : t.memP P := by
  injection ht with ht
  subst ht
  repeat' first
    | with_reducible assumption
    | split
    | with_reducible refine State.mailSet_keep _ _ _ _ _ ?_
    | simp only [↓Chip.mem_mk, Stores.eta, Chip.mem_parts]

theorem execGetHealthInfo_keep {P : Twin → Stores → Prop} (h : Fin 24) (s : State) (hw : s.memP P) {t : State} (ht : execGetHealthInfo h s = .next t) : t.memP P := by
  injection ht with ht
  subst ht
  repeat' first
    | with_reducible assumption
    | split
    | with_reducible refine State.mailGet_keep _ _ _ ?_
    | simp only [↓Chip.mem_mk, Stores.eta, Chip.mem_parts]

theorem execGetAlertConfiguration_keep {P : Twin → Stores → Prop} (h : Fin 24) (s : State) (hw : s.memP P) {t : State} (ht : execGetAlertConfiguration h s = .next t) : t.memP P := by
  injection ht with ht
  subst ht
  repeat' first
    | with_reducible assumption
    | split
    | with_reducible refine State.mailGet_keep _ _ _ ?_
    | simp only [↓Chip.mem_mk, Stores.eta, Chip.mem_parts]

theorem execSetAlertConfiguration_keep {P : Twin → Stores → Prop} (h : Fin 24) (bytes : List Byte) (s : State) (hw : s.memP P) {t : State} (ht : execSetAlertConfiguration h bytes s = .next t) : t.memP P := by
  injection ht with ht
  subst ht
  repeat' first
    | with_reducible assumption
    | split
    | with_reducible refine State.mailSet_keep _ _ _ _ _ ?_
    | simp only [↓Chip.mem_mk, Stores.eta, Chip.mem_parts]

theorem execGetShutdownState_keep {P : Twin → Stores → Prop} (h : Fin 24) (s : State) (hw : s.memP P) {t : State} (ht : execGetShutdownState h s = .next t) : t.memP P := by
  injection ht with ht
  subst ht
  repeat' first
    | with_reducible assumption
    | split
    | with_reducible refine State.mailGet_keep _ _ _ ?_
    | simp only [↓Chip.mem_mk, Stores.eta, Chip.mem_parts]

theorem execSetShutdownState_keep {P : Twin → Stores → Prop} (h : Fin 24) (dirty : Bool) (s : State) (hw : s.memP P) {t : State} (ht : execSetShutdownState h dirty s = .next t) : t.memP P := by
  injection ht with ht
  subst ht
  repeat' first
    | with_reducible assumption
    | split
    | with_reducible refine State.mailSet_keep _ _ _ _ _ ?_
    | simp only [↓Chip.mem_mk, Stores.eta, Chip.mem_parts]

theorem execGetPoisonList_keep {P : Twin → Stores → Prop} (h : Fin 24) (dpa lines : Nat) (s : State) (hw : s.memP P) {t : State} (ht : execGetPoisonList h dpa lines s = .next t) : t.memP P := by
  injection ht with ht
  subst ht
  repeat' first
    | with_reducible assumption
    | split
    | with_reducible refine State.mailGet_keep _ _ _ ?_
    | simp only [↓Chip.mem_mk, Stores.eta, Chip.mem_parts]

theorem execInjectPoison_keep {P : Twin → Stores → Prop} (h : Fin 24) (dpa : Nat) (s : State) (hw : s.memP P) {t : State} (ht : execInjectPoison h dpa s = .next t) : t.memP P := by
  injection ht with ht
  subst ht
  repeat' first
    | with_reducible assumption
    | split
    | with_reducible refine State.mailSet_keep _ _ _ _ _ ?_
    | simp only [↓Chip.mem_mk, Stores.eta, Chip.mem_parts]

theorem execClearPoison_keep {P : Twin → Stores → Prop} (h : Fin 24) (dpa : Nat) (data : Line) (s : State) (hw : s.memP P) {t : State} (ht : execClearPoison h dpa data s = .next t) : t.memP P := by
  injection ht with ht
  subst ht
  repeat' first
    | with_reducible assumption
    | split
    | with_reducible refine State.mailSet_keep _ _ _ _ _ ?_
    | simp only [↓Chip.mem_mk, Stores.eta, Chip.mem_parts]

theorem execGetScanMediaCapabilities_keep {P : Twin → Stores → Prop} (h : Fin 24) (dpa lines : Nat) (s : State) (hw : s.memP P) {t : State} (ht : execGetScanMediaCapabilities h dpa lines s = .next t) :
    t.memP P := by
  injection ht with ht
  subst ht
  exact State.mailGet_keep _ h _ (State.free_keep s _ hw)

theorem execScanMedia_keep {P : Twin → Stores → Prop} (h : Fin 24) (dpa lines : Nat) (s : State) (hw : s.memP P) {t : State} (ht : execScanMedia h dpa lines s = .next t) : t.memP P := by
  injection ht with ht
  subst ht
  repeat' first
    | with_reducible assumption
    | split
    | with_reducible refine State.mailSet_keep _ _ _ _ _ ?_
    | simp only [↓Chip.mem_mk, Stores.eta, Chip.mem_parts]

theorem execGetScanMediaResults_keep {P : Twin → Stores → Prop} (h : Fin 24) (s : State) (hw : s.memP P) {t : State} (ht : execGetScanMediaResults h s = .next t) : t.memP P := by
  injection ht with ht
  subst ht
  repeat' first
    | with_reducible assumption
    | split
    | with_reducible refine State.mailGet_keep _ _ _ ?_
    | simp only [↓Chip.mem_mk, Stores.eta, Chip.mem_parts]

theorem execSanitize_keep {P : Twin → Stores → Prop} (h : Fin 24) (s : State) (hw : s.memP P) {t : State} (ht : execSanitize h s = .next t) : t.memP P := by
  injection ht with ht
  subst ht
  repeat' first
    | with_reducible assumption
    | split
    | with_reducible refine State.eraseEvery_keep _ _ _ _ _ ?_
    | simp only [↓Chip.mem_mk, Stores.eta, Chip.mem_parts]

theorem execSecureErase_keep {P : Twin → Stores → Prop} (h : Fin 24) (s : State) (hw : s.memP P) {t : State} (ht : execSecureErase h s = .next t) : t.memP P := by
  injection ht with ht
  subst ht
  repeat' first
    | with_reducible assumption
    | split
    | with_reducible refine State.eraseEvery_keep _ _ _ _ _ ?_
    | simp only [↓Chip.mem_mk, Stores.eta, Chip.mem_parts]

theorem execGetPairInfo_keep {P : Twin → Stores → Prop} (h : Fin 24) (s : State) (hw : s.memP P) {t : State} (ht : execGetPairInfo h s = .next t) : t.memP P := by
  injection ht with ht
  subst ht
  repeat' first
    | with_reducible assumption
    | split
    | with_reducible refine State.mailGet_keep _ _ _ ?_
    | simp only [↓Chip.mem_mk, Stores.eta, Chip.mem_parts]

theorem execGetDirtyBudget_keep {P : Twin → Stores → Prop} (h : Fin 24) (s : State) (hw : s.memP P) {t : State} (ht : execGetDirtyBudget h s = .next t) : t.memP P := by
  injection ht with ht
  subst ht
  repeat' first
    | with_reducible assumption
    | split
    | with_reducible refine State.mailGet_keep _ _ _ ?_
    | simp only [↓Chip.mem_mk, Stores.eta, Chip.mem_parts]

theorem execGetDeadLetters_keep {P : Twin → Stores → Prop} (h : Fin 24) (first : Nat) (s : State) (hw : s.memP P) {t : State} (ht : execGetDeadLetters h first s = .next t) : t.memP P := by
  injection ht with ht
  subst ht
  repeat' first
    | with_reducible assumption
    | split
    | with_reducible refine State.mailGet_keep _ _ _ ?_
    | simp only [↓Chip.mem_mk, Stores.eta, Chip.mem_parts]

theorem execMailboxBackgroundDone_keep {P : Twin → Stores → Prop} (s : State) (hw : s.memP P) {t : State} (ht : execMailboxBackgroundDone s = .next t) : t.memP P := by
  injection ht with ht
  subst ht
  repeat' first
    | with_reducible assumption
    | split
    | with_reducible refine State.onHome_keep _ _ _ (fun _ c h => ?_) ?_
    | simp only [↓Chip.postEffect_mem, ↓Chip.mem_mk, Stores.eta, Chip.mem_parts]

theorem execHoldupRise_keep {P : Twin → Stores → Prop} (w : Twin) (s : State) (hw : s.memP P) {t : State} (ht : execHoldupRise w s = .next t) : t.memP P := by
  injection ht with ht
  subst ht
  repeat' first
    | with_reducible assumption
    | split
    | with_reducible refine State.onUp_keep _ _ _ (fun c h => ?_) ?_
    | simp only [↓Chip.setHoldup_mem, ↓Chip.mem_mk, Stores.eta, Chip.mem_parts]

theorem execPfailNFall_keep {P : Twin → Stores → Prop} (w : Twin) (s : State) (hw : s.memP P) {t : State} (ht : execPfailNFall w s = .next t) : t.memP P := by
  injection ht with ht
  subst ht
  repeat' first
    | with_reducible assumption
    | split
    | with_reducible refine State.mapChip_keep _ _ _ (fun c h => ?_) ?_
    | simp only [↓Chip.pfailFall_mem, ↓Chip.mem_mk, Stores.eta, Chip.mem_parts]

theorem execPfailCommit_keep {P : Twin → Stores → Prop} (w : Twin) (s : State) (hw : s.memP P) {t : State} (ht : execPfailCommit w s = .next t) : t.memP P := by
  injection ht with ht
  subst ht
  repeat' first
    | with_reducible assumption
    | split
    | with_reducible refine State.mapChip_keep _ _ _ (fun c h => ?_) ?_
    | simp only [↓Chip.startDown_mem, ↓Chip.put_mem, ↓Chip.commitSave_mem, ↓Chip.mem_mk, Stores.eta, Chip.mem_parts]

theorem execPfailNRise_keep {P : Twin → Stores → Prop} (w : Twin) (s : State) (hw : s.memP P) {t : State} (ht : execPfailNRise w s = .next t) : t.memP P := by
  injection ht with ht
  subst ht
  repeat' first
    | with_reducible assumption
    | split
    | with_reducible refine State.mapChip_keep _ _ _ (fun c h => ?_) ?_
    | simp only [↓Chip.raise_mem, ↓Chip.cnt_mem, ↓Chip.mem_mk, Stores.eta, Chip.mem_parts]

theorem execSaveDecision_keep {P : Twin → Stores → Prop} (w : Twin) (s : State) (hw : s.memP P) {t : State} (ht : execSaveDecision w s = .next t) : t.memP P := by
  injection ht with ht
  subst ht
  repeat' first
    | with_reducible assumption
    | split
    | with_reducible refine State.onUp_keep _ _ _ (fun c h => ?_) ?_
    | simp only [↓Chip.mem_mk, Stores.eta, Chip.mem_parts]

theorem execLonePfail_keep {P : Twin → Stores → Prop} (w : Twin) (s : State) (hw : s.memP P) {t : State} (ht : execLonePfail w s = .next t) : t.memP P := by
  injection ht with ht
  subst ht
  repeat' first
    | with_reducible assumption
    | split
    | with_reducible refine State.onUp_keep _ _ _ (fun c h => ?_) ?_
    | simp only [↓Chip.raise_mem, ↓Chip.failStop_mem, ↓Chip.put_mem, ↓Chip.mem_mk, Stores.eta, Chip.mem_parts]

theorem execGraceExpiry_keep {P : Twin → Stores → Prop} (w : Twin) (s : State) (hw : s.memP P) {t : State} (ht : execGraceExpiry w s = .next t) : t.memP P := by
  injection ht with ht
  subst ht
  repeat' first
    | with_reducible assumption
    | split
    | with_reducible refine State.onUp_keep _ _ _ (fun c h => ?_) ?_
    | simp only [↓Chip.holdPorts_mem, ↓Chip.mem_mk, Stores.eta, Chip.mem_parts]

theorem execSaveFailed_keep {P : Twin → Stores → Prop} (w : Twin) (s : State) (hw : s.memP P) {t : State} (ht : execSaveFailed w s = .next t) : t.memP P := by
  injection ht with ht
  subst ht
  repeat' first
    | with_reducible assumption
    | split
    | with_reducible refine State.onUp_keep _ _ _ (fun c h => ?_) ?_
    | simp only [↓Chip.startDown_mem, ↓Chip.saveFail_mem, ↓Chip.mem_mk, Stores.eta, Chip.mem_parts]

theorem execCalibrationDone_keep {P : Twin → Stores → Prop} (w : Twin) (rate tprogUs fixedUs ms : Nat) (s : State) (hw : s.memP P) {t : State} (ht : execCalibrationDone w rate tprogUs fixedUs ms s = .next t) : t.memP P := by
  injection ht with ht
  subst ht
  repeat' first
    | with_reducible assumption
    | split
    | with_reducible refine State.onUp_keep _ _ _ (fun c h => ?_) ?_
    | simp only [↓Chip.showRate_mem, ↓Chip.put_mem, ↓Chip.calibrationWrites_mem, ↓Chip.raise_mem, ↓Chip.sendRestoreDone_mem,
        ↓Chip.governJob_mem, ↓Chip.mem_mk, Stores.eta, Chip.mem_parts]

theorem execSealReadDone_keep {P : Twin → Stores → Prop} (w : Twin) (copies : SealCopies) (bad : List Nat) (s : State) (hw : s.memP P) {t : State} (ht : execSealReadDone w copies bad s = .next t) : t.memP P := by
  injection ht with ht
  subst ht
  repeat' first
    | with_reducible assumption
    | split
    | with_reducible refine State.onUp_keep _ _ _ (fun c h => ?_) ?_
    | simp only [↓Chip.sealRead_mem, ↓Chip.mem_mk, Stores.eta, Chip.mem_parts]

theorem execSourceChoice_keep {P : Twin → Stores → Prop} (w : Twin) (s : State) (hw : s.memP P) {t : State} (ht : execSourceChoice w s = .next t) : t.memP P := by
  injection ht with ht
  subst ht
  repeat' first
    | with_reducible assumption
    | split
    | with_reducible refine State.chip_keep _ _ ?_
    | with_reducible refine State.sourceChoice_keep _ _ _ ?_
    | simp only [↓Chip.mem_mk, Stores.eta, Chip.mem_parts]

theorem execMemoryActive_keep {P : Twin → Stores → Prop} (s : State) (hw : s.memP P) {t : State} (ht : execMemoryActive s = .next t) : t.memP P := by
  injection ht with ht
  subst ht
  repeat' first
    | with_reducible assumption
    | split
    | with_reducible refine State.mapChip_keep _ _ _ (fun c h => ?_) ?_
    | simp only [↓Chip.activate_mem, ↓Chip.mem_mk, Stores.eta, Chip.mem_parts]

theorem execResetNRelease_keep {P : Twin → Stores → Prop} (w : Twin) (x : BootReport) (s : State) (hw : s.memP P) {t : State} (ht : execResetNRelease w x s = .next t) : t.memP P := by
  injection ht with ht
  subst ht
  repeat' first
    | with_reducible assumption
    | split
    | with_reducible refine State.chip_keep _ _ ?_
    | with_reducible refine State.mapChip_keep _ _ _ (fun c h => ?_) ?_
    | with_reducible refine State.release_keep _ _ _ _ ?_
    | simp only [↓Chip.mem_mk, Stores.eta, Chip.mem_parts]

theorem execClockLockLoss_keep {P : Twin → Stores → Prop} (w : Twin) (s : State) (hw : s.memP P) {t : State} (ht : execClockLockLoss w s = .next t) : t.memP P := by
  injection ht with ht
  subst ht
  repeat' first
    | with_reducible assumption
    | split
    | with_reducible refine State.onUp_keep _ _ _ (fun c h => ?_) ?_
    | simp only [↓Chip.startDown_mem, ↓Chip.saveFail_mem, ↓Chip.failStop_mem, ↓Chip.mem_mk, Stores.eta, Chip.mem_parts]

theorem execSvnAdvance_keep {P : Twin → Stores → Prop} (w : Twin) (rq : Requester) (s : State) (hw : s.memP P) {t : State} (ht : execSvnAdvance w rq s = .next t) : t.memP P := by
  injection ht with ht
  subst ht
  repeat' first
    | with_reducible assumption
    | split
    | with_reducible refine State.onUp_keep _ _ _ (fun c h => ?_) ?_
    | with_reducible refine Chip.ifMachine_keep _ _ _ (fun c h => ?_) ?_
    | simp only [↓Chip.svnAdvance_mem, ↓Chip.mem_mk, Stores.eta, Chip.mem_parts]

theorem execOwnerProg_keep {P : Twin → Stores → Prop} (w : Twin) (rq : Requester) (s : State) (hw : s.memP P) {t : State} (ht : execOwnerProg w rq s = .next t) : t.memP P := by
  injection ht with ht
  subst ht
  repeat' first
    | with_reducible assumption
    | split
    | with_reducible refine State.onUp_keep _ _ _ (fun c h => ?_) ?_
    | with_reducible refine Chip.ifWrites_keep _ _ _ _ (fun c h => ?_) ?_
    | simp only [↓Chip.ownerProg_mem, ↓Chip.mem_mk, Stores.eta, Chip.mem_parts]

theorem execEraseReq_keep {P : Twin → Stores → Prop} (rq : Requester) (d : Fin 64) (s : State) (hw : s.memP P) {t : State} (ht : execEraseReq rq d s = .next t) : t.memP P := by
  unfold execEraseReq at ht
  repeat' split at ht
  all_goals (injection ht with ht; subst ht)
  repeat' first
    | with_reducible assumption
    | split
    | with_reducible refine State.chip_keep _ _ ?_
    | with_reducible refine State.mapChip_keep _ _ _ (fun c h => ?_) ?_
    | with_reducible refine State.eraseReq_keep _ _ _ ?_
    | simp only [↓Chip.deny_mem, ↓Chip.mem_mk, Stores.eta, Chip.mem_parts]

theorem execCloseGo_keep {P : Twin → Stores → Prop} (w : Twin) (rq : Requester) (s : State) (hw : s.memP P) {t : State} (ht : execCloseGo w rq s = .next t) : t.memP P := by
  injection ht with ht
  subst ht
  repeat' first
    | with_reducible assumption
    | split
    | with_reducible refine State.onUp_keep _ _ _ (fun c h => ?_) ?_
    | with_reducible refine Chip.ifMachine_keep _ _ _ (fun c h => ?_) ?_
    | simp only [↓Chip.closeGo_mem, ↓Chip.mem_mk, Stores.eta, Chip.mem_parts]

theorem execSpdmGetVersion_keep {P : Twin → Stores → Prop} (h : Fin 24) (s : State) (hw : s.memP P) {t : State} (ht : execSpdmGetVersion h s = .next t) : t.memP P := by
  injection ht with ht
  subst ht
  repeat' first
    | with_reducible assumption
    | split
    | with_reducible refine State.onReached_keep _ _ _ (fun _ c h => ?_) ?_
    | with_reducible refine Chip.spdm_keep _ _ _ _ (fun c h => ?_) ?_
    | simp only [↓Chip.setDoe_mem, ↓Chip.mapHead_mem, ↓Chip.mem_mk, Stores.eta, Chip.mem_parts]

theorem execSpdmGetCapabilities_keep {P : Twin → Stores → Prop} (h : Fin 24) (s : State) (hw : s.memP P) {t : State} (ht : execSpdmGetCapabilities h s = .next t) : t.memP P := by
  injection ht with ht
  subst ht
  repeat' first
    | with_reducible assumption
    | split
    | with_reducible refine State.onReached_keep _ _ _ (fun _ c h => ?_) ?_
    | with_reducible refine Chip.spdm_keep _ _ _ _ (fun c h => ?_) ?_
    | simp only [↓Chip.setDoe_mem, ↓Chip.mapHead_mem, ↓Chip.mem_mk, Stores.eta, Chip.mem_parts]

theorem execSpdmNegotiateAlgorithms_keep {P : Twin → Stores → Prop} (h : Fin 24) (s : State) (hw : s.memP P) {t : State} (ht : execSpdmNegotiateAlgorithms h s = .next t) : t.memP P := by
  injection ht with ht
  subst ht
  repeat' first
    | with_reducible assumption
    | split
    | with_reducible refine State.onReached_keep _ _ _ (fun _ c h => ?_) ?_
    | with_reducible refine Chip.spdm_keep _ _ _ _ (fun c h => ?_) ?_
    | simp only [↓Chip.setDoe_mem, ↓Chip.mapHead_mem, ↓Chip.mem_mk, Stores.eta, Chip.mem_parts]

theorem execSpdmGetDigests_keep {P : Twin → Stores → Prop} (h : Fin 24) (s : State) (hw : s.memP P) {t : State} (ht : execSpdmGetDigests h s = .next t) : t.memP P := by
  injection ht with ht
  subst ht
  repeat' first
    | with_reducible assumption
    | split
    | with_reducible refine State.onReached_keep _ _ _ (fun _ c h => ?_) ?_
    | with_reducible refine Chip.spdm_keep _ _ _ _ (fun c h => ?_) ?_
    | simp only [↓Chip.setDoe_mem, ↓Chip.mem_mk, Stores.eta, Chip.mem_parts]

theorem execSpdmGetCertificate_keep {P : Twin → Stores → Prop} (h : Fin 24) (slot : Fin 8) (off len : Nat) (s : State) (hw : s.memP P) {t : State} (ht : execSpdmGetCertificate h slot off len s = .next t) : t.memP P := by
  injection ht with ht
  subst ht
  repeat' first
    | with_reducible assumption
    | split
    | with_reducible refine State.onReached_keep _ _ _ (fun _ c h => ?_) ?_
    | with_reducible refine Chip.spdm_keep _ _ _ _ (fun c h => ?_) ?_
    | simp only [↓Chip.setDoe_mem, ↓Chip.mem_mk, Stores.eta, Chip.mem_parts]

theorem execSpdmChallenge_keep {P : Twin → Stores → Prop} (h : Fin 24) (slot : Fin 8) (s : State) (hw : s.memP P) {t : State} (ht : execSpdmChallenge h slot s = .next t) :
    t.memP P := by
  injection ht with ht
  subst ht
  refine State.onReached_keep _ h _ (fun _ c hc => Chip.spdm_keep _ _ _ _ (fun c hc => ?_) hc) (State.nextFree_keep s hw)
  split
  · rw [Chip.setDoe_mem]
    exact hc
  · rw [Chip.setDoe_mem]
    exact hc

theorem execSpdmGetMeasurements_keep {P : Twin → Stores → Prop} (h : Fin 24) (index : Fin 256) (s : State) (hw : s.memP P) {t : State} (ht : execSpdmGetMeasurements h index s = .next t) : t.memP P := by
  injection ht with ht
  subst ht
  repeat' first
    | with_reducible assumption
    | split
    | with_reducible refine State.chip_keep _ _ ?_
    | with_reducible refine State.onReached_keep _ _ _ (fun _ c h => ?_) ?_
    | with_reducible refine Chip.spdm_keep _ _ _ _ (fun c h => ?_) ?_
    | simp only [↓Chip.setDoe_mem, ↓Chip.mem_mk, Stores.eta, Chip.mem_parts]

theorem execSpdmKeyExchange_keep {P : Twin → Stores → Prop} (h : Fin 24) (s : State) (hw : s.memP P) {t : State} (ht : execSpdmKeyExchange h s = .next t) : t.memP P := by
  injection ht with ht
  subst ht
  repeat' first
    | with_reducible assumption
    | split
    | with_reducible refine State.onReached_keep _ _ _ (fun _ c h => ?_) ?_
    | with_reducible refine Chip.spdm_keep _ _ _ _ (fun c h => ?_) ?_
    | simp only [↓Chip.setDoe_mem, ↓Chip.mapHead_mem, ↓Chip.mem_mk, Stores.eta, Chip.mem_parts]

theorem execSpdmFinish_keep {P : Twin → Stores → Prop} (h : Fin 24) (id : Fin 4) (s : State) (hw : s.memP P) {t : State} (ht : execSpdmFinish h id s = .next t) : t.memP P := by
  injection ht with ht
  subst ht
  repeat' first
    | with_reducible assumption
    | split
    | with_reducible refine State.onReached_keep _ _ _ (fun _ c h => ?_) ?_
    | with_reducible refine Chip.spdm_keep _ _ _ _ (fun c h => ?_) ?_
    | simp only [↓Chip.spdmEffect_mem, ↓Chip.mapHead_mem, ↓Chip.setDoe_mem, ↓Chip.mem_mk, Stores.eta, Chip.mem_parts]

theorem execSpdmHeartbeat_keep {P : Twin → Stores → Prop} (h : Fin 24) (id : Fin 4) (s : State) (hw : s.memP P) {t : State} (ht : execSpdmHeartbeat h id s = .next t) : t.memP P := by
  injection ht with ht
  subst ht
  repeat' first
    | with_reducible assumption
    | split
    | with_reducible refine State.onReached_keep _ _ _ (fun _ c h => ?_) ?_
    | with_reducible refine Chip.spdm_keep _ _ _ _ (fun c h => ?_) ?_
    | with_reducible refine Chip.inSession_keep _ _ _ _ (fun c h => ?_) ?_
    | simp only [↓Chip.setDoe_mem, ↓Chip.mem_mk, Stores.eta, Chip.mem_parts]

theorem execSpdmKeyUpdate_keep {P : Twin → Stores → Prop} (h : Fin 24) (id : Fin 4) (s : State) (hw : s.memP P) {t : State} (ht : execSpdmKeyUpdate h id s = .next t) : t.memP P := by
  injection ht with ht
  subst ht
  repeat' first
    | with_reducible assumption
    | split
    | with_reducible refine State.onReached_keep _ _ _ (fun _ c h => ?_) ?_
    | with_reducible refine Chip.spdm_keep _ _ _ _ (fun c h => ?_) ?_
    | with_reducible refine Chip.inSession_keep _ _ _ _ (fun c h => ?_) ?_
    | simp only [↓Chip.spdmEffect_mem, ↓Chip.mem_mk, Stores.eta, Chip.mem_parts]

theorem execSpdmEndSession_keep {P : Twin → Stores → Prop} (h : Fin 24) (id : Fin 4) (s : State) (hw : s.memP P) {t : State} (ht : execSpdmEndSession h id s = .next t) : t.memP P := by
  injection ht with ht
  subst ht
  repeat' first
    | with_reducible assumption
    | split
    | with_reducible refine State.onReached_keep _ _ _ (fun _ c h => ?_) ?_
    | with_reducible refine Chip.spdm_keep _ _ _ _ (fun c h => ?_) ?_
    | with_reducible refine Chip.inSession_keep _ _ _ _ (fun c h => ?_) ?_
    | simp only [↓Chip.spdmEffect_mem, ↓Chip.mem_mk, Stores.eta, Chip.mem_parts]

theorem execSpdmSetCertificate_keep {P : Twin → Stores → Prop} (h : Fin 24) (slot : Fin 8) (bytes : List Byte) (s : State) (hw : s.memP P) {t : State} (ht : execSpdmSetCertificate h slot bytes s = .next t) : t.memP P := by
  injection ht with ht
  subst ht
  repeat' first
    | with_reducible assumption
    | split
    | with_reducible refine State.onReached_keep _ _ _ (fun _ c h => ?_) ?_
    | with_reducible refine Chip.spdm_keep _ _ _ _ (fun c h => ?_) ?_
    | simp only [↓Chip.doeFails_mem, ↓Chip.spdmEffect_mem, ↓Chip.setDoe_mem, ↓Chip.mem_mk, Stores.eta, Chip.mem_parts]

theorem execKSetGo_keep {P : Twin → Stores → Prop} (h : Fin 24) (set : Fin 2) (s : State) (hw : s.memP P) {t : State} (ht : execKSetGo h set s = .next t) : t.memP P := by
  injection ht with ht
  subst ht
  repeat' first
    | with_reducible assumption
    | split
    | with_reducible refine State.onReached_keep _ _ _ (fun _ c h => ?_) ?_
    | simp only [↓Chip.setDoe_mem, ↓Chip.spdmEffect_mem, ↓Chip.mem_mk, Stores.eta, Chip.mem_parts]

theorem execRecLog_keep {P : Twin → Stores → Prop} (w : Twin) (s : State) (hw : s.memP P) {t : State} (ht : execRecLog w s = .next t) : t.memP P := by
  injection ht with ht
  subst ht
  repeat' first
    | with_reducible assumption
    | split
    | with_reducible refine State.onUp_keep _ _ _ (fun c h => ?_) ?_
    | simp only [↓Chip.enterLog_mem, ↓Chip.takeRec_mem, ↓Chip.mem_mk, Stores.eta, Chip.mem_parts]

theorem execRecApplied_keep {P : Twin → Stores → Prop} (w : Twin) (s : State) (hw : s.memP P) {t : State} (ht : execRecApplied w s = .next t) : t.memP P := by
  injection ht with ht
  subst ht
  repeat' first
    | with_reducible assumption
    | split
    | with_reducible refine State.onUp_keep _ _ _ (fun c h => ?_) ?_
    | simp only [↓Chip.peerHasApplied_mem, ↓Chip.takeRec_mem, ↓Chip.mem_mk, Stores.eta, Chip.mem_parts]

theorem execIsolateLimitExpiry_keep {P : Twin → Stores → Prop} (w : Twin) (s : State) (hw : s.memP P) {t : State} (ht : execIsolateLimitExpiry w s = .next t) : t.memP P := by
  injection ht with ht
  subst ht
  repeat' first
    | with_reducible assumption
    | split
    | with_reducible refine State.onUp_keep _ _ _ (fun c h => ?_) ?_
    | simp only [↓Chip.fencePeer_mem, ↓Chip.mem_mk, Stores.eta, Chip.mem_parts]

theorem execOwnInRise_keep {P : Twin → Stores → Prop} (w : Twin) (p : Fin 6) (s : State) (hw : s.memP P) {t : State} (ht : execOwnInRise w p s = .next t) : t.memP P := by
  injection ht with ht
  subst ht
  repeat' first
    | with_reducible assumption
    | split
    | with_reducible refine State.chip_keep _ _ ?_
    | with_reducible refine State.onUp_keep _ _ _ (fun c h => ?_) ?_
    | simp only [↓Chip.peerOwns_mem, ↓Chip.mem_mk, Stores.eta, Chip.mem_parts]

theorem execTwinDeadNRise_keep {P : Twin → Stores → Prop} (w : Twin) (s : State) (hw : s.memP P) {t : State} (ht : execTwinDeadNRise w s = .next t) : t.memP P := by
  injection ht with ht
  subst ht
  repeat' first
    | with_reducible assumption
    | split
    | with_reducible refine State.chip_keep _ _ ?_
    | with_reducible refine State.onUp_keep _ _ _ (fun c h => ?_) ?_
    | simp only [↓Chip.put_mem, ↓Chip.mem_mk, Stores.eta, Chip.mem_parts]

theorem execGuardMet_keep {P : Twin → Stores → Prop} (w : Twin) (p : Fin 6) (s : State) (hw : s.memP P) {t : State} (ht : execGuardMet w p s = .next t) : t.memP P := by
  injection ht with ht
  subst ht
  repeat' first
    | with_reducible assumption
    | split
    | with_reducible refine State.onUp_keep _ _ _ (fun c h => ?_) ?_
    | simp only [↓Chip.meetGuard_mem, ↓Chip.mem_mk, Stores.eta, Chip.mem_parts]

theorem execTakeoverLinkL0_keep {P : Twin → Stores → Prop} (w : Twin) (h : Fin 24) (ns : Nat) (s : State) (hw : s.memP P) {t : State} (ht : execTakeoverLinkL0 w h ns s = .next t) : t.memP P := by
  injection ht with ht
  subst ht
  repeat' first
    | with_reducible assumption
    | split
    | with_reducible refine State.onUp_keep _ _ _ (fun c h => ?_) ?_
    | simp only [↓Chip.carryOver_mem, ↓Chip.beHome_mem, ↓Chip.peak_mem, ↓Chip.put_mem, ↓Chip.mem_mk, Stores.eta, Chip.mem_parts]

theorem execFailstopNow_keep {P : Twin → Stores → Prop} (w : Twin) (rq : Requester) (s : State) (hw : s.memP P) {t : State} (ht : execFailstopNow w rq s = .next t) : t.memP P := by
  injection ht with ht
  subst ht
  repeat' first
    | with_reducible assumption
    | split
    | with_reducible refine State.onUp_keep _ _ _ (fun c h => ?_) ?_
    | with_reducible refine Chip.ifMachine_keep _ _ _ (fun c h => ?_) ?_
    | simp only [↓Chip.failStop_mem, ↓Chip.mem_mk, Stores.eta, Chip.mem_parts]

theorem execFenceInRise_keep {P : Twin → Stores → Prop} (w : Twin) (s : State) (hw : s.memP P) {t : State} (ht : execFenceInRise w s = .next t) : t.memP P := by
  injection ht with ht
  subst ht
  repeat' first
    | with_reducible assumption
    | split
    | with_reducible refine State.chip_keep _ _ ?_
    | with_reducible refine State.mapChip_keep _ _ _ (fun c h => ?_) ?_
    | with_reducible refine State.release_keep _ _ _ _ ?_
    | simp only [↓Chip.put_mem, ↓Chip.mem_mk, Stores.eta, Chip.mem_parts]

theorem execFenceRelease_keep {P : Twin → Stores → Prop} (w : Twin) (rq : Requester) (s : State) (hw : s.memP P) {t : State} (ht : execFenceRelease w rq s = .next t) : t.memP P := by
  injection ht with ht
  subst ht
  repeat' first
    | with_reducible assumption
    | split
    | with_reducible refine State.onUp_keep _ _ _ (fun c h => ?_) ?_
    | with_reducible refine Chip.ifWrites_keep _ _ _ _ (fun c h => ?_) ?_
    | simp only [↓Chip.put_mem, ↓Chip.mem_mk, Stores.eta, Chip.mem_parts]

theorem execHandoverRetry_keep {P : Twin → Stores → Prop} (p : Fin 6) (s : State) (hw : s.memP P) {t : State} (ht : execHandoverRetry p s = .next t) : t.memP P := by
  unfold execHandoverRetry at ht
  repeat' split at ht
  all_goals (injection ht with ht; subst ht)
  repeat' first
    | with_reducible assumption
    | split
    | with_reducible refine State.handOver_keep _ _ ?_
    | with_reducible refine State.mapBoth_keep _ _ (fun _ c h => ?_) ?_
    | simp only [↓Chip.putCfg_mem, ↓Chip.reject_mem, ↓Chip.mem_mk, Stores.eta, Chip.mem_parts]

theorem execTakeoverDrill_keep {P : Twin → Stores → Prop} (rq : Requester) (s : State) (hw : s.memP P) {t : State} (ht : execTakeoverDrill rq s = .next t) : t.memP P := by
  injection ht with ht
  subst ht
  repeat' first
    | with_reducible assumption
    | split
    | with_reducible refine State.chip_keep _ _ ?_
    | with_reducible refine State.mapChip_keep _ _ _ (fun c h => ?_) ?_
    | with_reducible refine State.drill_keep _ _ ?_
    | with_reducible refine State.mapBoth_keep _ _ (fun _ c h => ?_) ?_
    | simp only [↓Chip.deny_mem, ↓Chip.reject_mem, ↓Chip.mem_mk, Stores.eta, Chip.mem_parts]

theorem execDrillReturn_keep {P : Twin → Stores → Prop} (s : State) (hw : s.memP P) {t : State} (ht : execDrillReturn s = .next t) : t.memP P := by
  injection ht with ht
  subst ht
  repeat' first
    | with_reducible assumption
    | split
    | with_reducible refine State.handOver_keep _ _ ?_
    | with_reducible refine State.mapBoth_keep _ _ (fun _ c h => ?_) ?_
    | simp only [↓Chip.mem_mk, Stores.eta, Chip.mem_parts]

theorem execStartDrill_keep {P : Twin → Stores → Prop} (h : Fin 24) (port : Nat) (s : State) (hw : s.memP P) {t : State} (ht : execStartDrill h port s = .next t) : t.memP P := by
  injection ht with ht
  subst ht
  repeat' first
    | with_reducible assumption
    | split
    | with_reducible refine State.chip_keep _ _ ?_
    | with_reducible refine State.mapChip_keep _ _ _ (fun c h => ?_) ?_
    | with_reducible refine State.drill_keep _ _ ?_
    | simp only [↓Chip.mailDone_mem, ↓Chip.mem_mk, Stores.eta, Chip.mem_parts]

theorem execSoloWaitExpiry_keep {P : Twin → Stores → Prop} (w : Twin) (pulseEdge : Bool) (s : State) (hw : s.memP P) {t : State} (ht : execSoloWaitExpiry w pulseEdge s = .next t) :
    t.memP P := by
  injection ht with ht
  subst ht
  refine State.onUp_keep _ w _ (fun c hc => ?_) (State.free_keep s _ hw)
  first
    | exact Chip.soloWaitOver_keep _ _ _ hc
    | (rw [Chip.soloWaitOver_mem]; exact hc)

theorem execForceAlone_keep {P : Twin → Stores → Prop} (w : Twin) (rq : Requester) (s : State) (hw : s.memP P) {t : State} (ht : execForceAlone w rq s = .next t) :
    t.memP P := by
  injection ht with ht
  subst ht
  refine State.onUp_keep _ w _ (fun c hc => ?_) (State.free_keep s _ hw)
  first
    | exact Chip.forceAlone_keep _ _ _ hc
    | (rw [Chip.forceAlone_mem]; exact hc)

theorem execResyncFrontDone_keep {P : Twin → Stores → Prop} (s : State) (hw : s.memP P) {t : State} (ht : execResyncFrontDone s = .next t) : t.memP P := by
  injection ht with ht
  subst ht
  repeat' first
    | with_reducible assumption
    | split
    | with_reducible refine State.chip_keep _ _ ?_
    | with_reducible refine State.resyncStep_keep _ _ ?_
    | simp only [↓Chip.mem_mk, Stores.eta, Chip.mem_parts]

theorem execResyncBackDone_keep {P : Twin → Stores → Prop} (s : State) (hw : s.memP P) {t : State} (ht : execResyncBackDone s = .next t) : t.memP P := by
  injection ht with ht
  subst ht
  repeat' first
    | with_reducible assumption
    | split
    | with_reducible refine State.chip_keep _ _ ?_
    | with_reducible refine State.resyncStep_keep _ _ ?_
    | simp only [↓Chip.mem_mk, Stores.eta, Chip.mem_parts]

theorem execResyncFinish_keep {P : Twin → Stores → Prop} (s : State) (hw : s.memP P) {t : State} (ht : execResyncFinish s = .next t) : t.memP P := by
  injection ht with ht
  subst ht
  repeat' first
    | with_reducible assumption
    | split
    | with_reducible refine State.chip_keep _ _ ?_
    | with_reducible refine State.mapChip_keep _ _ _ (fun c h => ?_) ?_
    | with_reducible refine Chip.foldl_keep _ (fun c x h => ?_) _ _ ?_
    | with_reducible refine State.foldl_keep _ (fun s x h => ?_) _ _ ?_
    | simp only [↓Chip.resyncEnds_mem, ↓Chip.handOffAll_mem, ↓Chip.mem_mk, Stores.eta, Chip.mem_parts]

theorem execResyncCapacityRefuse_keep {P : Twin → Stores → Prop} (s : State) (hw : s.memP P) {t : State} (ht : execResyncCapacityRefuse s = .next t) : t.memP P := by
  injection ht with ht
  subst ht
  repeat' first
    | with_reducible assumption
    | split
    | with_reducible refine State.chip_keep _ _ ?_
    | with_reducible refine State.mapChip_keep _ _ _ (fun c h => ?_) ?_
    | simp only [↓Chip.abortResync_mem, ↓Chip.wr_mem, ↓Chip.isolate_mem, ↓Chip.mem_mk, Stores.eta, Chip.mem_parts]

theorem execExtentCopyApply_keep {P : Twin → Stores → Prop} (s : State) (hw : s.memP P) {t : State} (ht : execExtentCopyApply s = .next t) : t.memP P := by
  injection ht with ht
  subst ht
  repeat' first
    | with_reducible assumption
    | split
    | with_reducible refine State.mapBoth_keep _ _ (fun _ c h => ?_) ?_
    | simp only [↓Chip.startCopies_mem, ↓Chip.pauseCopies_mem, ↓Chip.mem_mk, Stores.eta, Chip.mem_parts]

theorem execSpeakerEndpointStarted_keep {P : Twin → Stores → Prop} (w : Twin) (s : State) (hw : s.memP P) {t : State} (ht : execSpeakerEndpointStarted w s = .next t) : t.memP P := by
  injection ht with ht
  subst ht
  repeat' first
    | with_reducible assumption
    | split
    | with_reducible refine State.onUp_keep _ _ _ (fun c h => ?_) ?_
    | simp only [↓Chip.raise_mem, ↓Chip.mem_mk, Stores.eta, Chip.mem_parts]

theorem execEnvFill_keep {P : Twin → Stores → Prop} (w : Twin) (s : State) (hw : s.memP P) {t : State} (ht : execEnvFill w s = .next t) : t.memP P := by
  injection ht with ht
  subst ht
  repeat' first
    | with_reducible assumption
    | split
    | with_reducible refine State.receive_keep _ _ _ _ (fun b s h => ?_) ?_
    | simp only [↓Chip.mem_mk, Stores.eta, Chip.mem_parts]

theorem execEnvFrame_keep {P : Twin → Stores → Prop} (w : Twin) (s : State) (hw : s.memP P) {t : State} (ht : execEnvFrame w s = .next t) : t.memP P := by
  injection ht with ht
  subst ht
  repeat' first
    | with_reducible assumption
    | split
    | with_reducible refine State.chip_keep _ _ ?_
    | with_reducible refine State.receive_keep _ _ _ _ (fun b s h => ?_) ?_
    | with_reducible refine State.mapChip_keep _ _ _ (fun c h => ?_) ?_
    | simp only [↓Chip.hearFrame_mem, ↓Chip.mem_mk, Stores.eta, Chip.mem_parts]

theorem execEnvPostmark_keep {P : Twin → Stores → Prop} (w : Twin) (s : State) (hw : s.memP P) {t : State} (ht : execEnvPostmark w s = .next t) : t.memP P := by
  injection ht with ht
  subst ht
  repeat' first
    | with_reducible assumption
    | split
    | with_reducible refine State.chip_keep _ _ ?_
    | with_reducible refine State.receive_keep _ _ _ _ (fun b s h => ?_) ?_
    | with_reducible refine State.mapChip_keep _ _ _ (fun c h => ?_) ?_
    | simp only [↓Chip.mem_mk, Stores.eta, Chip.mem_parts]

theorem execEnvFetch_keep {P : Twin → Stores → Prop} (w : Twin) (s : State) (hw : s.memP P) {t : State} (ht : execEnvFetch w s = .next t) : t.memP P := by
  injection ht with ht
  subst ht
  repeat' first
    | with_reducible assumption
    | split
    | with_reducible refine State.receive_keep _ _ _ _ (fun b s h => ?_) ?_
    | with_reducible refine State.mapChip_keep _ _ _ (fun c h => ?_) ?_
    | simp only [↓Chip.answerFetch_mem, ↓Chip.fetchedUp_mem, ↓Chip.fetchedDown_mem, ↓Chip.mem_mk, Stores.eta, Chip.mem_parts]

theorem execEnvBridge_keep {P : Twin → Stores → Prop} (w : Twin) (s : State) (hw : s.memP P) {t : State} (ht : execEnvBridge w s = .next t) : t.memP P := by
  injection ht with ht
  subst ht
  repeat' first
    | with_reducible assumption
    | split
    | with_reducible refine State.receive_keep _ _ _ _ (fun b s h => ?_) ?_
    | with_reducible refine State.mapChip_keep _ _ _ (fun c h => ?_) ?_
    | with_reducible refine Chip.foldl_keep _ (fun c x h => ?_) _ _ ?_
    | with_reducible refine State.foldl_keep _ (fun s x h => ?_) _ _ ?_
    | simp only [↓Chip.takeBridged_mem, ↓Chip.mem_mk, Stores.eta, Chip.mem_parts]

theorem execEnvEvent_keep {P : Twin → Stores → Prop} (w : Twin) (s : State) (hw : s.memP P) {t : State} (ht : execEnvEvent w s = .next t) : t.memP P := by
  injection ht with ht
  subst ht
  repeat' first
    | with_reducible assumption
    | split
    | with_reducible refine State.receive_keep _ _ _ _ (fun b s h => ?_) ?_
    | with_reducible refine State.mapChip_keep _ _ _ (fun c h => ?_) ?_
    | simp only [↓Chip.logRecord_mem, ↓Chip.logHere_mem, ↓Chip.mediaHere_mem, ↓Chip.mem_mk, Stores.eta, Chip.mem_parts]

theorem execEnvControl_keep {P : Twin → Stores → Prop} (w : Twin) (s : State) (hw : s.memP P) {t : State} (ht : execEnvControl w s = .next t) : t.memP P := by
  injection ht with ht
  subst ht
  repeat' first
    | with_reducible assumption
    | split
    | with_reducible refine State.receive_keep _ _ _ _ (fun b s h => ?_) ?_
    | with_reducible refine State.mapChip_keep _ _ _ (fun c h => ?_) ?_
    | simp only [↓Chip.put_mem, ↓Chip.mem_mk, Stores.eta, Chip.mem_parts]

theorem execEnvResync_keep {P : Twin → Stores → Prop} (w : Twin) (s : State) (hw : s.memP P) {t : State} (ht : execEnvResync w s = .next t) : t.memP P := by
  injection ht with ht
  subst ht
  repeat' first
    | with_reducible assumption
    | split
    | with_reducible refine State.receive_keep _ _ _ _ (fun b s h => ?_) ?_
    | with_reducible refine State.mapChip_keep _ _ _ (fun c h => ?_) ?_
    | simp only [↓Chip.takePairCopy_mem, ↓Chip.takeDirectory_mem, ↓Chip.takeContent_mem, ↓Chip.mem_mk, Stores.eta, Chip.mem_parts]

theorem execEnvelopeReject_keep {P : Twin → Stores → Prop} (w : Twin) (badTag : Bool) (s : State) (hw : s.memP P) {t : State} (ht : execEnvelopeReject w badTag s = .next t) : t.memP P := by
  injection ht with ht
  subst ht
  repeat' first
    | with_reducible assumption
    | split
    | with_reducible refine State.mapChip_keep _ _ _ (fun c h => ?_) ?_
    | with_reducible refine State.taken_keep _ _ ?_
    | simp only [↓Chip.cnt_mem, ↓Chip.mem_mk, Stores.eta, Chip.mem_parts]

theorem execAuthFail_keep {P : Twin → Stores → Prop} (w : Twin) (s : State) (hw : s.memP P) {t : State} (ht : execAuthFail w s = .next t) : t.memP P := by
  injection ht with ht
  subst ht
  repeat' first
    | with_reducible assumption
    | split
    | with_reducible refine State.chip_keep _ _ ?_
    | with_reducible refine State.mapChip_keep _ _ _ (fun c h => ?_) ?_
    | with_reducible refine State.linkFalls_keep _ _ ?_
    | simp only [↓Chip.raise_mem, ↓Chip.mem_mk, Stores.eta, Chip.mem_parts]

theorem execDoubleLoss_keep {P : Twin → Stores → Prop} (w : Twin) (lane : Fin 18) (s : State) (hw : s.memP P) {t : State} (ht : execDoubleLoss w lane s = .next t) : t.memP P := by
  injection ht with ht
  subst ht
  repeat' first
    | with_reducible assumption
    | split
    | with_reducible refine State.mapChip_keep _ _ _ (fun c h => ?_) ?_
    | simp only [↓Chip.put_mem, ↓Chip.raise_mem, ↓Chip.cnt_mem, ↓Chip.mem_mk, Stores.eta, Chip.mem_parts]

theorem execCxkTrainingDone_keep {P : Twin → Stores → Prop} (w : Twin) (locked : BitVec 18) (delayNs : Nat) (authentic : Bool) (s : State) (hw : s.memP P) {t : State} (ht : execCxkTrainingDone w locked delayNs authentic s = .next t) : t.memP P := by
  unfold execCxkTrainingDone at ht
  repeat' split at ht
  all_goals (injection ht with ht; subst ht)
  repeat' first
    | with_reducible assumption
    | split
    | with_reducible refine State.chip_keep _ _ ?_
    | with_reducible refine State.mapChip_keep _ _ _ (fun c h => ?_) ?_
    | with_reducible refine State.setChip_keep _ _ _ ?_ ?_
    | with_reducible refine State.mapBoth_keep _ _ (fun _ c h => ?_) ?_
    | simp only [↓Chip.raise_mem, ↓Chip.put_mem, ↓Chip.lanesTrained_mem, ↓Chip.showLanes_mem, ↓Chip.mem_mk, Stores.eta, Chip.mem_parts]

theorem execCxkTrainingRetry_keep {P : Twin → Stores → Prop} (w : Twin) (s : State) (hw : s.memP P) {t : State} (ht : execCxkTrainingRetry w s = .next t) : t.memP P := by
  injection ht with ht
  subst ht
  repeat' first
    | with_reducible assumption
    | split
    | with_reducible refine State.onUp_keep _ _ _ (fun c h => ?_) ?_
    | simp only [↓Chip.send_mem, ↓Chip.put_mem, ↓Chip.mem_mk, Stores.eta, Chip.mem_parts]

theorem execLaneLockLoss_keep {P : Twin → Stores → Prop} (w : Twin) (lane : Fin 18) (s : State) (hw : s.memP P) {t : State} (ht : execLaneLockLoss w lane s = .next t) : t.memP P := by
  unfold execLaneLockLoss at ht
  repeat' split at ht
  all_goals (injection ht with ht; subst ht)
  repeat' first
    | with_reducible assumption
    | split
    | with_reducible refine State.chip_keep _ _ ?_
    | with_reducible refine State.setChip_keep _ _ _ ?_ ?_
    | with_reducible refine State.linkFalls_keep _ _ ?_
    | simp only [↓Chip.cnt_mem, ↓Chip.put_mem, ↓Chip.showLanes_mem, ↓Chip.replaceLane_mem, ↓Chip.mem_mk, Stores.eta, Chip.mem_parts]

theorem execLaneSwap_keep {P : Twin → Stores → Prop} (w : Twin) (lane spare : Fin 18) (s : State) (hw : s.memP P) {t : State} (ht : execLaneSwap w lane spare s = .next t) : t.memP P := by
  injection ht with ht
  subst ht
  repeat' first
    | with_reducible assumption
    | split
    | with_reducible refine State.onUp_keep _ _ _ (fun c h => ?_) ?_
    | simp only [↓Chip.put_mem, ↓Chip.showLanes_mem, ↓Chip.raise_mem, ↓Chip.cnt_mem, ↓Chip.mem_mk, Stores.eta, Chip.mem_parts]

theorem execRekey_keep {P : Twin → Stores → Prop} (w : Twin) (s : State) (hw : s.memP P) {t : State} (ht : execRekey w s = .next t) : t.memP P := by
  injection ht with ht
  subst ht
  repeat' first
    | with_reducible assumption
    | split
    | with_reducible refine State.onUp_keep _ _ _ (fun c h => ?_) ?_
    | simp only [↓Chip.cnt_mem, ↓Chip.put_mem, ↓Chip.mem_mk, Stores.eta, Chip.mem_parts]

theorem execWriteWm_keep {P : Twin → Stores → Prop} (w : Twin) (s : State) (hw : s.memP P) {t : State} (ht : execWriteWm w s = .next t) : t.memP P := by
  injection ht with ht
  subst ht
  repeat' first
    | with_reducible assumption
    | split
    | with_reducible refine State.onUp_keep _ _ _ (fun c h => ?_) ?_
    | simp only [↓Chip.takeWriteWm_mem, ↓Chip.takeRec_mem, ↓Chip.mem_mk, Stores.eta, Chip.mem_parts]

theorem execTapWm_keep {P : Twin → Stores → Prop} (w : Twin) (s : State) (hw : s.memP P) {t : State} (ht : execTapWm w s = .next t) : t.memP P := by
  injection ht with ht
  subst ht
  repeat' first
    | with_reducible assumption
    | split
    | with_reducible refine State.onUp_keep _ _ _ (fun c h => ?_) ?_
    | simp only [↓Chip.takeTapWm_mem, ↓Chip.takeRec_mem, ↓Chip.mem_mk, Stores.eta, Chip.mem_parts]

theorem execDrainWm_keep {P : Twin → Stores → Prop} (w : Twin) (s : State) (hw : s.memP P) {t : State} (ht : execDrainWm w s = .next t) : t.memP P := by
  injection ht with ht
  subst ht
  repeat' first
    | with_reducible assumption
    | split
    | with_reducible refine State.onUp_keep _ _ _ (fun c h => ?_) ?_
    | simp only [↓Chip.takeDrainWm_mem, ↓Chip.takeRec_mem, ↓Chip.mem_mk, Stores.eta, Chip.mem_parts]

theorem execOrderAccess_keep {P : Twin → Stores → Prop} (w : Twin) (s : State) (hw : s.memP P) {t : State} (ht : execOrderAccess w s = .next t) : t.memP P := by
  injection ht with ht
  subst ht
  repeat' first
    | with_reducible assumption
    | split
    | with_reducible refine State.onUp_keep _ _ _ (fun c h => ?_) ?_
    | with_reducible refine Chip.foldl_keep _ (fun c x h => ?_) _ _ ?_
    | with_reducible refine State.foldl_keep _ (fun s x h => ?_) _ _ ?_
    | simp only [↓Chip.cnt_mem, ↓Chip.takeRec_mem, ↓Chip.orderHere_mem, ↓Chip.sendApplied_mem, ↓Chip.runFollower_mem, ↓Chip.mem_mk,
        Stores.eta, Chip.mem_parts]

theorem execOrderSweep_keep {P : Twin → Stores → Prop} (w : Twin) (s : State) (hw : s.memP P) {t : State} (ht : execOrderSweep w s = .next t) : t.memP P := by
  injection ht with ht
  subst ht
  repeat' first
    | with_reducible assumption
    | split
    | with_reducible refine State.onUp_keep _ _ _ (fun c h => ?_) ?_
    | simp only [↓Chip.applySweep_mem, ↓Chip.takeRec_mem, ↓Chip.mem_mk, Stores.eta, Chip.mem_parts]

theorem execOrderVictim_keep {P : Twin → Stores → Prop} (w : Twin) (s : State) (hw : s.memP P) {t : State} (ht : execOrderVictim w s = .next t) : t.memP P := by
  injection ht with ht
  subst ht
  repeat' first
    | with_reducible assumption
    | split
    | with_reducible refine State.onUp_keep _ _ _ (fun c h => ?_) ?_
    | simp only [↓Chip.runFollower_mem, ↓Chip.evictEntry_mem, ↓Chip.takeRec_mem, ↓Chip.mem_mk, Stores.eta, Chip.mem_parts]

theorem execOrderHandoff_keep {P : Twin → Stores → Prop} (w : Twin) (s : State) (hw : s.memP P) {t : State} (ht : execOrderHandoff w s = .next t) : t.memP P := by
  injection ht with ht
  subst ht
  repeat' first
    | with_reducible assumption
    | split
    | with_reducible refine State.onUp_keep _ _ _ (fun c h => ?_) ?_
    | simp only [↓Chip.beginArbiter_mem, ↓Chip.takeRec_mem, ↓Chip.mem_mk, Stores.eta, Chip.mem_parts]

theorem execRecAlias_keep {P : Twin → Stores → Prop} (w : Twin) (s : State) (hw : s.memP P) {t : State} (ht : execRecAlias w s = .next t) : t.memP P := by
  injection ht with ht
  subst ht
  repeat' first
    | with_reducible assumption
    | split
    | with_reducible refine State.onUp_keep _ _ _ (fun c h => ?_) ?_
    | simp only [↓Chip.cnt_mem, ↓Chip.takeRec_mem, ↓Chip.mem_mk, Stores.eta, Chip.mem_parts]

theorem execRecHold_keep {P : Twin → Stores → Prop} (w : Twin) (s : State) (hw : s.memP P) {t : State} (ht : execRecHold w s = .next t) : t.memP P := by
  injection ht with ht
  subst ht
  repeat' first
    | with_reducible assumption
    | split
    | with_reducible refine State.onUp_keep _ _ _ (fun c h => ?_) ?_
    | simp only [↓Chip.setHold_mem, ↓Chip.takeRec_mem, ↓Chip.mem_mk, Stores.eta, Chip.mem_parts]

theorem execHoldRelease_keep {P : Twin → Stores → Prop} (w : Twin) (s : State) (hw : s.memP P) {t : State} (ht : execHoldRelease w s = .next t) : t.memP P := by
  injection ht with ht
  subst ht
  repeat' first
    | with_reducible assumption
    | split
    | with_reducible refine State.onUp_keep _ _ _ (fun c h => ?_) ?_
    | simp only [↓Chip.afterHold_mem, ↓Chip.setHold_mem, ↓Chip.takeRec_mem, ↓Chip.mem_mk, Stores.eta, Chip.mem_parts]

theorem execCarbonLaneFlit_keep {P : Twin → Stores → Prop} (w : Twin) (h : Fin 24) (hostAck : Nat) (decoded : Bool) (s : State) (hw : s.memP P) {t : State} (ht : execCarbonLaneFlit w h hostAck decoded s = .next t) : t.memP P := by
  injection ht with ht
  subst ht
  repeat' first
    | with_reducible assumption
    | split
    | with_reducible refine State.chip_keep _ _ ?_
    | with_reducible refine State.onUp_keep _ _ _ (fun c h => ?_) ?_
    | simp only [↓Chip.mapHead_mem, ↓Chip.hearDown_mem, ↓Chip.mem_mk, Stores.eta, Chip.mem_parts]

theorem execPageDrained_keep {P : Twin → Stores → Prop} (w : Twin) (page : Nat) (s : State) (hw : s.memP P) {t : State} (ht : execPageDrained w page s = .next t) : t.memP P := by
  injection ht with ht
  subst ht
  repeat' first
    | with_reducible assumption
    | split
    | with_reducible refine State.onUp_keep _ _ _ (fun c h => ?_) ?_
    | simp only [↓Chip.drained_mem, ↓Chip.mem_mk, Stores.eta, Chip.mem_parts]

theorem execPageFault_keep {P : Twin → Stores → Prop} (w : Twin) (page : Nat) (s : State) (hw : s.memP P) {t : State} (ht : execPageFault w page s = .next t) : t.memP P := by
  injection ht with ht
  subst ht
  repeat' first
    | with_reducible assumption
    | split
    | with_reducible refine State.onUp_keep _ _ _ (fun c h => ?_) ?_
    | simp only [↓Chip.faultPage_mem, ↓Chip.mem_mk, Stores.eta, Chip.mem_parts]

theorem execEvtStatusClear_keep {P : Twin → Stores → Prop} (w : Twin) (rq : Requester) (page : Nat) (bits again : Word) (s : State) (hw : s.memP P) {t : State} (ht : execEvtStatusClear w rq page bits again s = .next t) : t.memP P := by
  injection ht with ht
  subst ht
  repeat' first
    | with_reducible assumption
    | split
    | with_reducible refine State.onUp_keep _ _ _ (fun c h => ?_) ?_
    | with_reducible refine Chip.headerWrite_keep _ _ _ _ (fun c h => ?_) ?_
    | simp only [↓Chip.clearEvents_mem, ↓Chip.mem_mk, Stores.eta, Chip.mem_parts]

theorem execEvtForce_keep {P : Twin → Stores → Prop} (w : Twin) (rq : Requester) (page : Nat) (bits : Word) (s : State) (hw : s.memP P) {t : State} (ht : execEvtForce w rq page bits s = .next t) : t.memP P := by
  injection ht with ht
  subst ht
  repeat' first
    | with_reducible assumption
    | split
    | with_reducible refine State.onUp_keep _ _ _ (fun c h => ?_) ?_
    | with_reducible refine Chip.headerWrite_keep _ _ _ _ (fun c h => ?_) ?_
    | simp only [↓Chip.forceEvents_mem, ↓Chip.mem_mk, Stores.eta, Chip.mem_parts]

theorem execEvtEnableWrite_keep {P : Twin → Stores → Prop} (w : Twin) (rq : Requester) (page : Nat) (bits : Word) (s : State) (hw : s.memP P) {t : State} (ht : execEvtEnableWrite w rq page bits s = .next t) : t.memP P := by
  injection ht with ht
  subst ht
  repeat' first
    | with_reducible assumption
    | split
    | with_reducible refine State.onUp_keep _ _ _ (fun c h => ?_) ?_
    | with_reducible refine Chip.headerWrite_keep _ _ _ _ (fun c h => ?_) ?_
    | simp only [↓Chip.enableEvents_mem, ↓Chip.mem_mk, Stores.eta, Chip.mem_parts]

theorem execPeerPageRead_keep {P : Twin → Stores → Prop} (w : Twin) (rq : Requester) (page off size : Nat) (s : State) (hw : s.memP P) {t : State} (ht : execPeerPageRead w rq page off size s = .next t) : t.memP P := by
  injection ht with ht
  subst ht
  repeat' first
    | with_reducible assumption
    | split
    | with_reducible refine State.readPeer_keep _ _ _ _ _ _ ?_
    | simp only [↓Chip.mem_mk, Stores.eta, Chip.mem_parts]

theorem execPeerPageWrite_keep {P : Twin → Stores → Prop} (w : Twin) (rq : Requester) (x : PageWrite) (s : State) (hw : s.memP P) {t : State} (ht : execPeerPageWrite w rq x s = .next t) : t.memP P := by
  injection ht with ht
  subst ht
  repeat' first
    | with_reducible assumption
    | split
    | with_reducible refine State.writePeer_keep _ _ _ _ ?_
    | simp only [↓Chip.mem_mk, Stores.eta, Chip.mem_parts]

theorem execPairAliasWrite_keep {P : Twin → Stores → Prop} (w : Twin) (rq : Requester) (x : PageWrite) (s : State) (hw : s.memP P) {t : State} (ht : execPairAliasWrite w rq x s = .next t) : t.memP P := by
  injection ht with ht
  subst ht
  repeat' first
    | with_reducible assumption
    | split
    | with_reducible refine State.writeAlias_keep _ _ _ _ ?_
    | simp only [↓Chip.mem_mk, Stores.eta, Chip.mem_parts]

theorem execPageRead_keep {P : Twin → Stores → Prop} (w : Twin) (x : PageMessage) (s : State) (hw : s.memP P) {t : State} (ht : execPageRead w x s = .next t) : t.memP P := by
  unfold execPageRead at ht
  repeat' split at ht
  all_goals (injection ht with ht; subst ht)
  repeat' first
    | with_reducible assumption
    | split
    | with_reducible refine State.chip_keep _ _ ?_
    | with_reducible refine State.mapChip_keep _ _ _ (fun c h => ?_) ?_
    | with_reducible refine State.setChip_keep _ _ _ ?_ ?_
    | simp only [↓Chip.pageAnswer_mem, ↓Chip.badAccess_mem, ↓Chip.cnt_mem, ↓Chip.takePage_mem, ↓Chip.mem_mk, Stores.eta, Chip.mem_parts]

theorem execFmApiCommand_keep {P : Twin → Stores → Prop} (w : Twin) (opcode : BitVec 16) (s : State) (hw : s.memP P) {t : State} (ht : execFmApiCommand w opcode s = .next t) : t.memP P := by
  unfold execFmApiCommand at ht
  repeat' split at ht
  all_goals (injection ht with ht; subst ht)
  repeat' first
    | with_reducible assumption
    | split
    | with_reducible refine State.chip_keep _ _ ?_
    | with_reducible refine State.mapChip_keep _ _ _ (fun c h => ?_) ?_
    | simp only [↓Chip.mctpSend_mem, ↓Chip.mem_mk, Stores.eta, Chip.mem_parts]

end Sys2Proof.Machine
end

