-- ==== Sys2Proof/Laws/MemCommands.lean ====
section
/-! SUPPORT. Every command keeps every memory in its canonical form. -/
namespace Sys2Proof.Machine

set_option simprocs false

theorem State.memP_of_memWf {s : State} (h : s.memWf = true) : s.memP fun _ m => m.wf = true := (State.memWf_iff s).mp h

theorem State.memWf_of_memP {s : State} (h : s.memP fun _ m => m.wf = true) : s.memWf = true := (State.memWf_iff s).mpr h

theorem execInterruptArrival_wf (w : Twin) (i : Fin 1024) (level : Bool) (s : State) (hw : s.memWf = true) {t : State} (ht : execInterruptArrival w i level s = .next t) : t.memWf = true :=
  State.memWf_of_memP (execInterruptArrival_keep w i level s (State.memP_of_memWf hw) ht)

theorem execCoalTimer_wf (w : Twin) (g : Fin 64) (s : State) (hw : s.memWf = true) {t : State} (ht : execCoalTimer w g s = .next t) : t.memWf = true :=
  State.memWf_of_memP (execCoalTimer_keep w g s (State.memP_of_memWf hw) ht)

theorem execFastEntry_wf (w : Twin) (n : Fin 8) (pc : BitVec 64) (machine : Bool) (s : State) (hw : s.memWf = true) {t : State} (ht : execFastEntry w n pc machine s = .next t) : t.memWf = true :=
  State.memWf_of_memP (execFastEntry_keep w n pc machine s (State.memP_of_memWf hw) ht)

theorem execCoreFret_wf (w : Twin) (n : Fin 8) (s : State) (hw : s.memWf = true) {t : State} (ht : execCoreFret w n s = .next t) : t.memWf = true :=
  State.memWf_of_memP (execCoreFret_keep w n s (State.memP_of_memWf hw) ht)

theorem execIcuClaim_wf (w : Twin) (rq : Requester) (n : Fin 8) (s : State) (hw : s.memWf = true) {t : State} (ht : execIcuClaim w rq n s = .next t) : t.memWf = true :=
  State.memWf_of_memP (execIcuClaim_keep w rq n s (State.memP_of_memWf hw) ht)

theorem execIcuComplete_wf (w : Twin) (rq : Requester) (n : Fin 8) (i : Fin 1024) (s : State) (hw : s.memWf = true) {t : State} (ht : execIcuComplete w rq n i s = .next t) : t.memWf = true :=
  State.memWf_of_memP (execIcuComplete_keep w rq n i s (State.memP_of_memWf hw) ht)

theorem execIcuSwi_wf (w : Twin) (rq : Requester) (bits : Byte) (s : State) (hw : s.memWf = true) {t : State} (ht : execIcuSwi w rq bits s = .next t) : t.memWf = true :=
  State.memWf_of_memP (execIcuSwi_keep w rq bits s (State.memP_of_memWf hw) ht)

theorem execSourceDisable_wf (w : Twin) (rq : Requester) (i : Fin 1024) (s : State) (hw : s.memWf = true) {t : State}
    (ht : execSourceDisable w rq i s = .next t) : t.memWf = true :=
  State.memWf_of_memP (execSourceDisable_keep w rq i s (State.memP_of_memWf hw) ht)

theorem execTargetChange_wf (w : Twin) (rq : Requester) (i : Fin 1024) (target : Fin 16) (s : State) (hw : s.memWf = true) {t : State} (ht : execTargetChange w rq i target s = .next t) : t.memWf = true :=
  State.memWf_of_memP (execTargetChange_keep w rq i target s (State.memP_of_memWf hw) ht)

theorem execCoreWfi_wf (w : Twin) (n : Fin 8) (s : State) (hw : s.memWf = true) {t : State} (ht : execCoreWfi w n s = .next t) : t.memWf = true :=
  State.memWf_of_memP (execCoreWfi_keep w n s (State.memP_of_memWf hw) ht)

theorem execCoreMtip_wf (w : Twin) (n : Fin 8) (s : State) (hw : s.memWf = true) {t : State} (ht : execCoreMtip w n s = .next t) : t.memWf = true :=
  State.memWf_of_memP (execCoreMtip_keep w n s (State.memP_of_memWf hw) ht)

theorem execEfcProgram_wf (w : Twin) (rq : Requester) (fetched : Option (Fin 2)) (s : State) (hw : s.memWf = true) {t : State} (ht : execEfcProgram w rq fetched s = .next t) : t.memWf = true :=
  State.memWf_of_memP (execEfcProgram_keep w rq fetched s (State.memP_of_memWf hw) ht)

theorem execEfcErase_wf (w : Twin) (rq : Requester) (fetched : Option (Fin 2)) (s : State) (hw : s.memWf = true) {t : State} (ht : execEfcErase w rq fetched s = .next t) : t.memWf = true :=
  State.memWf_of_memP (execEfcErase_keep w rq fetched s (State.memP_of_memWf hw) ht)

theorem execPtrSwap_wf (w : Twin) (rq : Requester) (fetched : Option (Fin 2)) (s : State) (hw : s.memWf = true) {t : State} (ht : execPtrSwap w rq fetched s = .next t) : t.memWf = true :=
  State.memWf_of_memP (execPtrSwap_keep w rq fetched s (State.memP_of_memWf hw) ht)

theorem execEfcPulseDone_wf (w : Twin) (firstBad : Option (Fin 512)) (deferUs : Nat) (s : State) (hw : s.memWf = true) {t : State} (ht : execEfcPulseDone w firstBad deferUs s = .next t) : t.memWf = true :=
  State.memWf_of_memP (execEfcPulseDone_keep w firstBad deferUs s (State.memP_of_memWf hw) ht)

theorem execActiveLock_wf (w : Twin) (rq : Requester) (s : State) (hw : s.memWf = true) {t : State} (ht : execActiveLock w rq s = .next t) : t.memWf = true :=
  State.memWf_of_memP (execActiveLock_keep w rq s (State.memP_of_memWf hw) ht)

theorem execKickChip_wf (w : Twin) (rq : Requester) (first second : Byte) (inTime : Bool) (s : State) (hw : s.memWf = true) {t : State} (ht : execKickChip w rq first second inTime s = .next t) : t.memWf = true :=
  State.memWf_of_memP (execKickChip_keep w rq first second inTime s (State.memP_of_memWf hw) ht)

theorem execKickCore_wf (w : Twin) (rq : Requester) (first second : Byte) (inTime : Bool) (s : State) (hw : s.memWf = true) {t : State} (ht : execKickCore w rq first second inTime s = .next t) : t.memWf = true :=
  State.memWf_of_memP (execKickCore_keep w rq first second inTime s (State.memP_of_memWf hw) ht)

theorem execChipWatchdogExpiry_wf (w : Twin) (s : State) (hw : s.memWf = true) {t : State} (ht : execChipWatchdogExpiry w s = .next t) : t.memWf = true :=
  State.memWf_of_memP (execChipWatchdogExpiry_keep w s (State.memP_of_memWf hw) ht)

theorem execCoreWatchdogWarn_wf (w : Twin) (n : Fin 8) (s : State) (hw : s.memWf = true) {t : State} (ht : execCoreWatchdogWarn w n s = .next t) : t.memWf = true :=
  State.memWf_of_memP (execCoreWatchdogWarn_keep w n s (State.memP_of_memWf hw) ht)

theorem execCoreWatchdogReset_wf (w : Twin) (n : Fin 8) (s : State) (hw : s.memWf = true) {t : State} (ht : execCoreWatchdogReset w n s = .next t) : t.memWf = true :=
  State.memWf_of_memP (execCoreWatchdogReset_keep w n s (State.memP_of_memWf hw) ht)

theorem execWdtLockSet_wf (w : Twin) (rq : Requester) (s : State) (hw : s.memWf = true) {t : State} (ht : execWdtLockSet w rq s = .next t) : t.memWf = true :=
  State.memWf_of_memP (execWdtLockSet_keep w rq s (State.memP_of_memWf hw) ht)

theorem execCoreSpareSwap_wf (w : Twin) (n : Fin 8) (s : State) (hw : s.memWf = true) {t : State} (ht : execCoreSpareSwap w n s = .next t) : t.memWf = true :=
  State.memWf_of_memP (execCoreSpareSwap_keep w n s (State.memP_of_memWf hw) ht)

theorem execPgChange_wf (w : Twin) (i : Fin 16) (high : Bool) (s : State) (hw : s.memWf = true) {t : State} (ht : execPgChange w i high s = .next t) : t.memWf = true :=
  State.memWf_of_memP (execPgChange_keep w i high s (State.memP_of_memWf hw) ht)

theorem execPsqDelayExpiry_wf (w : Twin) (s : State) (hw : s.memWf = true) {t : State} (ht : execPsqDelayExpiry w s = .next t) : t.memWf = true :=
  State.memWf_of_memP (execPsqDelayExpiry_keep w s (State.memP_of_memWf hw) ht)

theorem execPsqTimeout_wf (w : Twin) (s : State) (hw : s.memWf = true) {t : State} (ht : execPsqTimeout w s = .next t) : t.memWf = true :=
  State.memWf_of_memP (execPsqTimeout_keep w s (State.memP_of_memWf hw) ht)

theorem execSeqSyncCommit_wf (w : Twin) (s : State) (hw : s.memWf = true) {t : State} (ht : execSeqSyncCommit w s = .next t) : t.memWf = true :=
  State.memWf_of_memP (execSeqSyncCommit_keep w s (State.memP_of_memWf hw) ht)

theorem execSyncTimeout_wf (w : Twin) (s : State) (hw : s.memWf = true) {t : State} (ht : execSyncTimeout w s = .next t) : t.memWf = true :=
  State.memWf_of_memP (execSyncTimeout_keep w s (State.memP_of_memWf hw) ht)

theorem execSeqInFall_wf (w : Twin) (s : State) (hw : s.memWf = true) {t : State} (ht : execSeqInFall w s = .next t) : t.memWf = true :=
  State.memWf_of_memP (execSeqInFall_keep w s (State.memP_of_memWf hw) ht)

theorem execUpSequenceStart_wf (w : Twin) (s : State) (hw : s.memWf = true) {t : State} (ht : execUpSequenceStart w s = .next t) : t.memWf = true :=
  State.memWf_of_memP (execUpSequenceStart_keep w s (State.memP_of_memWf hw) ht)

theorem execOffMinExpiry_wf (w : Twin) (s : State) (hw : s.memWf = true) {t : State} (ht : execOffMinExpiry w s = .next t) : t.memWf = true :=
  State.memWf_of_memP (execOffMinExpiry_keep w s (State.memP_of_memWf hw) ht)

theorem execRailFault_wf (w : Twin) (i : Fin 16) (s : State) (hw : s.memWf = true) {t : State} (ht : execRailFault w i s = .next t) : t.memWf = true :=
  State.memWf_of_memP (execRailFault_keep w i s (State.memP_of_memWf hw) ht)

theorem execFaultShutExpiry_wf (w : Twin) (s : State) (hw : s.memWf = true) {t : State} (ht : execFaultShutExpiry w s = .next t) : t.memWf = true :=
  State.memWf_of_memP (execFaultShutExpiry_keep w s (State.memP_of_memWf hw) ht)

theorem execStoreCommit_wf (w : Twin) (rq : Requester) (s : State) (hw : s.memWf = true) {t : State} (ht : execStoreCommit w rq s = .next t) : t.memWf = true :=
  State.memWf_of_memP (execStoreCommit_keep w rq s (State.memP_of_memWf hw) ht)

theorem execMarginWrite_wf (w : Twin) (rq : Requester) (k : Fin 4) (steps : BitVec 8) (s : State) (hw : s.memWf = true) {t : State} (ht : execMarginWrite w rq k steps s = .next t) : t.memWf = true :=
  State.memWf_of_memP (execMarginWrite_keep w rq k steps s (State.memP_of_memWf hw) ht)

theorem execThrottleStep_wf (w : Twin) (s : State) (hw : s.memWf = true) {t : State} (ht : execThrottleStep w s = .next t) : t.memWf = true :=
  State.memWf_of_memP (execThrottleStep_keep w s (State.memP_of_memWf hw) ht)

theorem execThermalTrip_wf (w : Twin) (s : State) (hw : s.memWf = true) {t : State} (ht : execThermalTrip w s = .next t) : t.memWf = true :=
  State.memWf_of_memP (execThermalTrip_keep w s (State.memP_of_memWf hw) ht)

theorem execAvsPeriod_wf (w : Twin) (cpm : BitVec 8) (s : State) (hw : s.memWf = true) {t : State} (ht : execAvsPeriod w cpm s = .next t) : t.memWf = true :=
  State.memWf_of_memP (execAvsPeriod_keep w cpm s (State.memP_of_memWf hw) ht)

theorem execCpmAlarm_wf (w : Twin) (cpm : BitVec 8) (s : State) (hw : s.memWf = true) {t : State} (ht : execCpmAlarm w cpm s = .next t) : t.memWf = true :=
  State.memWf_of_memP (execCpmAlarm_keep w cpm s (State.memP_of_memWf hw) ht)

theorem execAvsbusFrameDone_wf (w : Twin) (x : AvsReply) (s : State) (hw : s.memWf = true) {t : State} (ht : execAvsbusFrameDone w x s = .next t) : t.memWf = true :=
  State.memWf_of_memP (execAvsbusFrameDone_keep w x s (State.memP_of_memWf hw) ht)

theorem execAvsTelemetryPoll_wf (w : Twin) (s : State) (hw : s.memWf = true) {t : State} (ht : execAvsTelemetryPoll w s = .next t) : t.memWf = true :=
  State.memWf_of_memP (execAvsTelemetryPoll_keep w s (State.memP_of_memWf hw) ht)

theorem execFclkStepChange_wf (w : Twin) (s : State) (hw : s.memWf = true) {t : State} (ht : execFclkStepChange w s = .next t) : t.memWf = true :=
  State.memWf_of_memP (execFclkStepChange_keep w s (State.memP_of_memWf hw) ht)

theorem execSmbBlockWrite_wf (w : Twin) (bytes : List Byte) (pec : Option Bool) (s : State) (hw : s.memWf = true) {t : State} (ht : execSmbBlockWrite w bytes pec s = .next t) : t.memWf = true :=
  State.memWf_of_memP (execSmbBlockWrite_keep w bytes pec s (State.memP_of_memWf hw) ht)

theorem execSmbBlockRead_wf (w : Twin) (whole : Bool) (s : State) (hw : s.memWf = true) {t : State} (ht : execSmbBlockRead w whole s = .next t) : t.memWf = true :=
  State.memWf_of_memP (execSmbBlockRead_keep w whole s (State.memP_of_memWf hw) ht)

theorem execSmbReadByteStatus_wf (w : Twin) (s : State) (hw : s.memWf = true) {t : State} (ht : execSmbReadByteStatus w s = .next t) : t.memWf = true :=
  State.memWf_of_memP (execSmbReadByteStatus_keep w s (State.memP_of_memWf hw) ht)

theorem execAlertResponseAddress_wf (w : Twin) (s : State) (hw : s.memWf = true) {t : State} (ht : execAlertResponseAddress w s = .next t) : t.memWf = true :=
  State.memWf_of_memP (execAlertResponseAddress_keep w s (State.memP_of_memWf hw) ht)

theorem execSmbStartStop_wf (w : Twin) (s : State) (hw : s.memWf = true) {t : State} (ht : execSmbStartStop w s = .next t) : t.memWf = true :=
  State.memWf_of_memP (execSmbStartStop_keep w s (State.memP_of_memWf hw) ht)

theorem execSmbClockLowTimeout_wf (w : Twin) (s : State) (hw : s.memWf = true) {t : State} (ht : execSmbClockLowTimeout w s = .next t) : t.memWf = true :=
  State.memWf_of_memP (execSmbClockLowTimeout_keep w s (State.memP_of_memWf hw) ht)

theorem execSmbDataLowTimeout_wf (w : Twin) (s : State) (hw : s.memWf = true) {t : State} (ht : execSmbDataLowTimeout w s = .next t) : t.memWf = true :=
  State.memWf_of_memP (execSmbDataLowTimeout_keep w s (State.memP_of_memWf hw) ht)

theorem execMctpControl_wf (w : Twin) (command : Byte) (s : State) (hw : s.memWf = true) {t : State} (ht : execMctpControl w command s = .next t) : t.memWf = true :=
  State.memWf_of_memP (execMctpControl_keep w command s (State.memP_of_memWf hw) ht)

theorem execRefreshInterval_wf (w : Twin) (d : Fin 16) (ranks : BitVec 16) (s : State) (hw : s.memWf = true) {t : State} (ht : execRefreshInterval w d ranks s = .next t) : t.memWf = true :=
  State.memWf_of_memP (execRefreshInterval_keep w d ranks s (State.memP_of_memWf hw) ht)

theorem execRefreshDone_wf (w : Twin) (d : Fin 16) (r : Fin 16) (s : State) (hw : s.memWf = true) {t : State} (ht : execRefreshDone w d r s = .next t) : t.memWf = true :=
  State.memWf_of_memP (execRefreshDone_keep w d r s (State.memP_of_memWf hw) ht)

theorem execMr4Poll_wf (w : Twin) (d : Fin 16) (twoX : BitVec 16) (s : State) (hw : s.memWf = true) {t : State} (ht : execMr4Poll w d twoX s = .next t) : t.memWf = true :=
  State.memWf_of_memP (execMr4Poll_keep w d twoX s (State.memP_of_memWf hw) ht)

theorem execDramTrainingDone_wf (w : Twin) (x : List ChannelTraining) (s : State) (hw : s.memWf = true) {t : State} (ht : execDramTrainingDone w x s = .next t) : t.memWf = true :=
  State.memWf_of_memP (execDramTrainingDone_keep w x s (State.memP_of_memWf hw) ht)

theorem execDriftCheck_wf (w : Twin) (d : Fin 16) (r : Fin 16) (ps : Int) (s : State) (hw : s.memWf = true) {t : State} (ht : execDriftCheck w d r ps s = .next t) : t.memWf = true :=
  State.memWf_of_memP (execDriftCheck_keep w d r ps s (State.memP_of_memWf hw) ht)

theorem execDramZqStart_wf (w : Twin) (d : Fin 16) (r : Fin 16) (s : State) (hw : s.memWf = true) {t : State} (ht : execDramZqStart w d r s = .next t) : t.memWf = true :=
  State.memWf_of_memP (execDramZqStart_keep w d r s (State.memP_of_memWf hw) ht)

theorem execDramZqLatch_wf (w : Twin) (d : Fin 16) (r : Fin 16) (s : State) (hw : s.memWf = true) {t : State} (ht : execDramZqLatch w d r s = .next t) : t.memWf = true :=
  State.memWf_of_memP (execDramZqLatch_keep w d r s (State.memP_of_memWf hw) ht)

theorem execRetrainDone_wf (w : Twin) (d : Fin 16) (r : Fin 16) (ok : Bool) (rdEye wrEye : Byte) (s : State) (hw : s.memWf = true) {t : State} (ht : execRetrainDone w d r ok rdEye wrEye s = .next t) : t.memWf = true :=
  State.memWf_of_memP (execRetrainDone_keep w d r ok rdEye wrEye s (State.memP_of_memWf hw) ht)

theorem execSrExitDone_wf (w : Twin) (d : Fin 16) (ns : Nat) (s : State) (hw : s.memWf = true) {t : State} (ht : execSrExitDone w d ns s = .next t) : t.memWf = true :=
  State.memWf_of_memP (execSrExitDone_keep w d ns s (State.memP_of_memWf hw) ht)

theorem execPprGo_wf (w : Twin) (rq : Requester) (d : Fin 16) (s : State) (hw : s.memWf = true) {t : State} (ht : execPprGo w rq d s = .next t) : t.memWf = true :=
  State.memWf_of_memP (execPprGo_keep w rq d s (State.memP_of_memWf hw) ht)

theorem execPprCopyDone_wf (w : Twin) (d : Fin 16) (s : State) (hw : s.memWf = true) {t : State} (ht : execPprCopyDone w d s = .next t) : t.memWf = true :=
  State.memWf_of_memP (execPprCopyDone_keep w d s (State.memP_of_memWf hw) ht)

theorem execPprProgramDone_wf (w : Twin) (d : Fin 16) (err : Fin 3) (s : State) (hw : s.memWf = true) {t : State} (ht : execPprProgramDone w d err s = .next t) : t.memWf = true :=
  State.memWf_of_memP (execPprProgramDone_keep w d err s (State.memP_of_memWf hw) ht)

theorem execAlertN_wf (w : Twin) (d : Fin 16) (s : State) (hw : s.memWf = true) {t : State} (ht : execAlertN w d s = .next t) : t.memWf = true :=
  State.memWf_of_memP (execAlertN_keep w d s (State.memP_of_memWf hw) ht)

theorem execPatrolWake_wf (w : Twin) (d : Fin 16) (s : State) (hw : s.memWf = true) {t : State} (ht : execPatrolWake w d s = .next t) : t.memWf = true :=
  State.memWf_of_memP (execPatrolWake_keep w d s (State.memP_of_memWf hw) ht)

theorem execCblWindowEnd_wf (w : Twin) (s : State) (hw : s.memWf = true) {t : State} (ht : execCblWindowEnd w s = .next t) : t.memWf = true :=
  State.memWf_of_memP (execCblWindowEnd_keep w s (State.memP_of_memWf hw) ht)

theorem execMdcFillArrival_wf (w : Twin) (line : Nat) (s : State) (hw : s.memWf = true) {t : State} (ht : execMdcFillArrival w line s = .next t) : t.memWf = true :=
  State.memWf_of_memP (execMdcFillArrival_keep w line s (State.memP_of_memWf hw) ht)

theorem execListBlockReadDone_wf (w : Twin) (slot : Fin 256) (block : Nat) (s : State) (hw : s.memWf = true) {t : State} (ht : execListBlockReadDone w slot block s = .next t) : t.memWf = true :=
  State.memWf_of_memP (execListBlockReadDone_keep w slot block s (State.memP_of_memWf hw) ht)

theorem execMemRd_wf (r : Request) (v : Arrival) (s : State) (hw : s.memWf = true) {t : State} (ht : execMemRd r v s = .next t) : t.memWf = true :=
  State.memWf_of_memP (execMemRd_keep r v s (State.memP_of_memWf hw) ht)

theorem execMemRdData_wf (r : Request) (v : Arrival) (s : State) (hw : s.memWf = true) {t : State} (ht : execMemRdData r v s = .next t) : t.memWf = true :=
  State.memWf_of_memP (execMemRdData_keep r v s (State.memP_of_memWf hw) ht)

theorem execMemInv_wf (r : Request) (v : Arrival) (s : State) (hw : s.memWf = true) {t : State} (ht : execMemInv r v s = .next t) : t.memWf = true :=
  State.memWf_of_memP (execMemInv_keep r v s (State.memP_of_memWf hw) ht)

theorem execMemInvNt_wf (r : Request) (v : Arrival) (s : State) (hw : s.memWf = true) {t : State} (ht : execMemInvNt r v s = .next t) : t.memWf = true :=
  State.memWf_of_memP (execMemInvNt_keep r v s (State.memP_of_memWf hw) ht)

theorem execMemWr_wf (r : Request) (v : Arrival) (s : State) (hw : s.memWf = true) {t : State} (ht : execMemWr r v s = .next t) : t.memWf = true :=
  State.memWf_of_memP (execMemWr_keep r v s (State.memP_of_memWf hw) ht)

theorem execMemWrPtl_wf (r : Request) (v : Arrival) (s : State) (hw : s.memWf = true) {t : State} (ht : execMemWrPtl r v s = .next t) : t.memWf = true :=
  State.memWf_of_memP (execMemWrPtl_keep r v s (State.memP_of_memWf hw) ht)

theorem execMemSpecRd_wf (r : Request) (room : Bool) (s : State) (hw : s.memWf = true) {t : State} (ht : execMemSpecRd r room s = .next t) : t.memWf = true :=
  State.memWf_of_memP (execMemSpecRd_keep r room s (State.memP_of_memWf hw) ht)

theorem execRequestAdmit_wf (h : Fin 24) (write : Bool) (s : State) (hw : s.memWf = true) {t : State} (ht : execRequestAdmit h write s = .next t) : t.memWf = true :=
  State.memWf_of_memP (execRequestAdmit_keep h write s (State.memP_of_memWf hw) ht)

theorem execBirspI_wf (h : Fin 24) (line : Nat) (s : State) (hw : s.memWf = true) {t : State} (ht : execBirspI h line s = .next t) : t.memWf = true :=
  State.memWf_of_memP (execBirspI_keep h line s (State.memP_of_memWf hw) ht)

theorem execBirspS_wf (h : Fin 24) (line : Nat) (s : State) (hw : s.memWf = true) {t : State} (ht : execBirspS h line s = .next t) : t.memWf = true :=
  State.memWf_of_memP (execBirspS_keep h line s (State.memP_of_memWf hw) ht)

theorem execBirspE_wf (h : Fin 24) (line : Nat) (s : State) (hw : s.memWf = true) {t : State} (ht : execBirspE h line s = .next t) : t.memWf = true :=
  State.memWf_of_memP (execBirspE_keep h line s (State.memP_of_memWf hw) ht)

theorem execBiConflict_wf (h : Fin 24) (line : Nat) (s : State) (hw : s.memWf = true) {t : State} (ht : execBiConflict h line s = .next t) : t.memWf = true :=
  State.memWf_of_memP (execBiConflict_keep h line s (State.memP_of_memWf hw) ht)

theorem execSnoopTimeout_wf (h : Fin 24) (line : Nat) (s : State) (hw : s.memWf = true) {t : State} (ht : execSnoopTimeout h line s = .next t) : t.memWf = true :=
  State.memWf_of_memP (execSnoopTimeout_keep h line s (State.memP_of_memWf hw) ht)

theorem execShadowMigrationDone_wf (w : Twin) (d : Fin 64) (s : State) (hw : s.memWf = true) {t : State} (ht : execShadowMigrationDone w d s = .next t) : t.memWf = true :=
  State.memWf_of_memP (execShadowMigrationDone_keep w d s (State.memP_of_memWf hw) ht)

theorem execDirBankMigrateDone_wf (w : Twin) (bank : Fin 17) (s : State) (hw : s.memWf = true) {t : State} (ht : execDirBankMigrateDone w bank s = .next t) : t.memWf = true :=
  State.memWf_of_memP (execDirBankMigrateDone_keep w bank s (State.memP_of_memWf hw) ht)

theorem execDramReadDone_wf (w : Twin) (line : Nat) (bad : BitVec 20) (aged : Nat) (s : State) (hw : s.memWf = true) {t : State} (ht : execDramReadDone w line bad aged s = .next t) : t.memWf = true :=
  State.memWf_of_memP (execDramReadDone_keep w line bad aged s (State.memP_of_memWf hw) ht)

theorem execRefsbIssue_wf (w : Twin) (d : Fin 16) (r : Fin 16) (k : Fin 4) (s : State) (hw : s.memWf = true) {t : State} (ht : execRefsbIssue w d r k s = .next t) : t.memWf = true :=
  State.memWf_of_memP (execRefsbIssue_keep w d r k s (State.memP_of_memWf hw) ht)

theorem execSrIdleExpiry_wf (w : Twin) (d : Fin 16) (s : State) (hw : s.memWf = true) {t : State} (ht : execSrIdleExpiry w d s = .next t) : t.memWf = true :=
  State.memWf_of_memP (execSrIdleExpiry_keep w d s (State.memP_of_memWf hw) ht)

theorem execTranslationFill_wf (w : Twin) (h : Fin 24) (line : Nat) (s : State) (hw : s.memWf = true) {t : State} (ht : execTranslationFill w h line s = .next t) : t.memWf = true :=
  State.memWf_of_memP (execTranslationFill_keep w h line s (State.memP_of_memWf hw) ht)

theorem execFillRangeDone_wf (w : Twin) (range : Nat) (s : State) (hw : s.memWf = true) {t : State} (ht : execFillRangeDone w range s = .next t) : t.memWf = true :=
  State.memWf_of_memP (execFillRangeDone_keep w range s (State.memP_of_memWf hw) ht)

theorem execDrainEligible_wf (w : Twin) (line : Nat) (s : State) (hw : s.memWf = true) {t : State} (ht : execDrainEligible w line s = .next t) : t.memWf = true :=
  State.memWf_of_memP (execDrainEligible_keep w line s (State.memP_of_memWf hw) ht)

theorem execDrainIssue_wf (w : Twin) (x : DrainOffer) (s : State) (hw : s.memWf = true) {t : State} (ht : execDrainIssue w x s = .next t) : t.memWf = true :=
  State.memWf_of_memP (execDrainIssue_keep w x s (State.memP_of_memWf hw) ht)

theorem execLocalStall_wf (w : Twin) (p : Fin 6) (s : State) (hw : s.memWf = true) {t : State} (ht : execLocalStall w p s = .next t) : t.memWf = true :=
  State.memWf_of_memP (execLocalStall_keep w p s (State.memP_of_memWf hw) ht)

theorem execArrayReadDone_wf (w : Twin) (p : Nat) (x : MediaRead) (s : State) (hw : s.memWf = true) {t : State} (ht : execArrayReadDone w p x s = .next t) : t.memWf = true := by
  injection ht with ht
  subst ht
  repeat' first
    | with_reducible assumption
    | split
    | with_reducible refine State.onUp_wf _ _ _ (fun c h => ?_) ?_
    | with_reducible refine Chip.arrayServed_wf _ _ _ _ ?_
    | simp only [↓Chip.countArray_mem, ↓Chip.endDirect_mem, ↓Chip.arrayFailed_mem, ↓Chip.mem_mk, Stores.eta, Chip.mem_parts]

theorem execDirectReadTimeout_wf (w : Twin) (p : Nat) (s : State) (hw : s.memWf = true) {t : State} (ht : execDirectReadTimeout w p s = .next t) : t.memWf = true :=
  State.memWf_of_memP (execDirectReadTimeout_keep w p s (State.memP_of_memWf hw) ht)

theorem execProgramDone_wf (w : Twin) (r : Nat) (k : Fin 32) (pass : Bool) (s : State) (hw : s.memWf = true) {t : State} (ht : execProgramDone w r k pass s = .next t) : t.memWf = true :=
  State.memWf_of_memP (execProgramDone_keep w r k pass s (State.memP_of_memWf hw) ht)

theorem execEraseDone_wf (w : Twin) (r : Nat) (k : Fin 32) (pass : Bool) (s : State) (hw : s.memWf = true) {t : State} (ht : execEraseDone w r k pass s = .next t) : t.memWf = true :=
  State.memWf_of_memP (execEraseDone_keep w r k pass s (State.memP_of_memWf hw) ht)

theorem execLunStatusTimeout_wf (w : Twin) (k pos : Fin 32) (s : State) (hw : s.memWf = true) {t : State} (ht : execLunStatusTimeout w k pos s = .next t) : t.memWf = true :=
  State.memWf_of_memP (execLunStatusTimeout_keep w k pos s (State.memP_of_memWf hw) ht)

theorem execNandZqCalibration_wf (_w : Twin) (s : State) (hw : s.memWf = true) {t : State} (ht : execNandZqCalibration _w s = .next t) : t.memWf = true :=
  State.memWf_of_memP (execNandZqCalibration_keep _w s (State.memP_of_memWf hw) ht)

theorem execPatchAgeExpiry_wf (w : Twin) (p : Nat) (s : State) (hw : s.memWf = true) {t : State} (ht : execPatchAgeExpiry w p s = .next t) : t.memWf = true :=
  State.memWf_of_memP (execPatchAgeExpiry_keep w p s (State.memP_of_memWf hw) ht)

theorem execOfflineReq_wf (w : Twin) (rq : Requester) (m : Fin 8) (s : State) (hw : s.memWf = true) {t : State} (ht : execOfflineReq w rq m s = .next t) : t.memWf = true :=
  State.memWf_of_memP (execOfflineReq_keep w rq m s (State.memP_of_memWf hw) ht)

theorem execOnlineReq_wf (w : Twin) (rq : Requester) (m : Fin 8) (s : State) (hw : s.memWf = true) {t : State} (ht : execOnlineReq w rq m s = .next t) : t.memWf = true :=
  State.memWf_of_memP (execOnlineReq_keep w rq m s (State.memP_of_memWf hw) ht)

theorem execModuleSafe_wf (w : Twin) (m : Fin 8) (s : State) (hw : s.memWf = true) {t : State} (ht : execModuleSafe w m s = .next t) : t.memWf = true :=
  State.memWf_of_memP (execModuleSafe_keep w m s (State.memP_of_memWf hw) ht)

theorem execModulePresenceChange_wf (w : Twin) (m : Fin 8) (present : Bool) (s : State) (hw : s.memWf = true) {t : State} (ht : execModulePresenceChange w m present s = .next t) : t.memWf = true :=
  State.memWf_of_memP (execModulePresenceChange_keep w m present s (State.memP_of_memWf hw) ht)

theorem execChannelFailed_wf (w : Twin) (k : Fin 32) (s : State) (hw : s.memWf = true) {t : State} (ht : execChannelFailed w k s = .next t) : t.memWf = true :=
  State.memWf_of_memP (execChannelFailed_keep w k s (State.memP_of_memWf hw) ht)

theorem execModulePrepareDone_wf (w : Twin) (m : Fin 8) (ok : Bool) (s : State) (hw : s.memWf = true) {t : State} (ht : execModulePrepareDone w m ok s = .next t) : t.memWf = true :=
  State.memWf_of_memP (execModulePrepareDone_keep w m ok s (State.memP_of_memWf hw) ht)

theorem execRebuildDone_wf (w : Twin) (m : Fin 8) (s : State) (hw : s.memWf = true) {t : State} (ht : execRebuildDone w m s = .next t) : t.memWf = true := by
  injection ht with ht
  subst ht
  repeat' first
    | with_reducible assumption
    | split
    | with_reducible refine State.chip_wf _ _ ?_
    | with_reducible refine State.onUp_wf _ _ _ (fun c h => ?_) ?_
    | with_reducible refine Chip.rebuild_wf _ _ _ ?_
    | simp only [↓Chip.mem_mk, Stores.eta, Chip.mem_parts]

theorem execDomainWrite_wf (w : Twin) (rq : Requester) (d : Fin 64) (reg : Fin 4) (data : Word) (s : State) (hw : s.memWf = true) {t : State} (ht : execDomainWrite w rq d reg data s = .next t) : t.memWf = true := by
  unfold execDomainWrite at ht
  repeat' split at ht
  all_goals (injection ht with ht; subst ht)
  repeat' first
    | with_reducible assumption
    | split
    | with_reducible refine State.chip_wf _ _ ?_
    | with_reducible refine State.mapChip_wf _ _ _ (fun c h => ?_) ?_
    | with_reducible refine State.setChip_wf _ _ _ ?_ ?_
    | with_reducible refine State.drawKey_wf _ _ _ ?_
    | with_reducible refine Chip.domainWrite_wf _ _ _ _ _ _ ?_
    | simp only [↓Chip.deny_mem, ↓Chip.mem_mk, Stores.eta, Chip.mem_parts]

theorem execCopyStepDone_wf (w : Twin) (p : Nat) (s : State) (hw : s.memWf = true) {t : State} (ht : execCopyStepDone w p s = .next t) : t.memWf = true := by
  injection ht with ht
  subst ht
  repeat' first
    | with_reducible assumption
    | split
    | with_reducible refine State.onUp_wf _ _ _ (fun c h => ?_) ?_
    | with_reducible refine Chip.copyStepDone_wf _ _ ?_
    | simp only [↓Chip.mem_mk, Stores.eta, Chip.mem_parts]

theorem execPackStepDone_wf (w : Twin) (p : Nat) (drained : Bool) (s : State) (hw : s.memWf = true) {t : State} (ht : execPackStepDone w p drained s = .next t) : t.memWf = true := by
  injection ht with ht
  subst ht
  repeat' first
    | with_reducible assumption
    | split
    | with_reducible refine State.onUp_wf _ _ _ (fun c h => ?_) ?_
    | with_reducible refine Chip.packStepDone_wf _ _ _ ?_
    | simp only [↓Chip.mem_mk, Stores.eta, Chip.mem_parts]

theorem execFrameFree_wf (w : Twin) (f : Nat) (s : State) (hw : s.memWf = true) {t : State} (ht : execFrameFree w f s = .next t) : t.memWf = true := by
  injection ht with ht
  subst ht
  repeat' first
    | with_reducible assumption
    | split
    | with_reducible refine State.onUp_wf _ _ _ (fun c h => ?_) ?_
    | with_reducible refine Chip.frameFree_wf _ _ ?_
    | simp only [↓Chip.mem_mk, Stores.eta, Chip.mem_parts]

theorem execFrameZeroDone_wf (w : Twin) (f : Nat) (s : State) (hw : s.memWf = true) {t : State} (ht : execFrameZeroDone w f s = .next t) : t.memWf = true := by
  injection ht with ht
  subst ht
  repeat' first
    | with_reducible assumption
    | split
    | with_reducible refine State.onUp_wf _ _ _ (fun c h => ?_) ?_
    | with_reducible refine Chip.giveFrames_wf _ ?_
    | simp only [↓Chip.mem_mk, Stores.eta, Chip.mem_parts]

theorem execMdcInvalidationDone_wf (w : Twin) (s : State) (hw : s.memWf = true) {t : State} (ht : execMdcInvalidationDone w s = .next t) : t.memWf = true :=
  State.memWf_of_memP (execMdcInvalidationDone_keep w s (State.memP_of_memWf hw) ht)

theorem execMdcClean_wf (w : Twin) (rq : Requester) (s : State) (hw : s.memWf = true) {t : State} (ht : execMdcClean w rq s = .next t) : t.memWf = true :=
  State.memWf_of_memP (execMdcClean_keep w rq s (State.memP_of_memWf hw) ht)

theorem execMdcInvalidate_wf (w : Twin) (rq : Requester) (s : State) (hw : s.memWf = true) {t : State} (ht : execMdcInvalidate w rq s = .next t) : t.memWf = true :=
  State.memWf_of_memP (execMdcInvalidate_keep w rq s (State.memP_of_memWf hw) ht)

theorem execMdcCleanInvalidate_wf (w : Twin) (rq : Requester) (s : State) (hw : s.memWf = true) {t : State} (ht : execMdcCleanInvalidate w rq s = .next t) : t.memWf = true :=
  State.memWf_of_memP (execMdcCleanInvalidate_keep w rq s (State.memP_of_memWf hw) ht)

theorem execMdcLock_wf (w : Twin) (rq : Requester) (s : State) (hw : s.memWf = true) {t : State} (ht : execMdcLock w rq s = .next t) : t.memWf = true :=
  State.memWf_of_memP (execMdcLock_keep w rq s (State.memP_of_memWf hw) ht)

theorem execMdcUnlock_wf (w : Twin) (rq : Requester) (s : State) (hw : s.memWf = true) {t : State} (ht : execMdcUnlock w rq s = .next t) : t.memWf = true :=
  State.memWf_of_memP (execMdcUnlock_keep w rq s (State.memP_of_memWf hw) ht)

theorem execMdcOpDone_wf (w : Twin) (s : State) (hw : s.memWf = true) {t : State} (ht : execMdcOpDone w s = .next t) : t.memWf = true :=
  State.memWf_of_memP (execMdcOpDone_keep w s (State.memP_of_memWf hw) ht)

theorem execWayDisableDone_wf (w : Twin) (way : Fin 18) (s : State) (hw : s.memWf = true) {t : State} (ht : execWayDisableDone w way s = .next t) : t.memWf = true :=
  State.memWf_of_memP (execWayDisableDone_keep w way s (State.memP_of_memWf hw) ht)

theorem execPprDone_wf (w : Twin) (d : Fin 16) (s : State) (hw : s.memWf = true) {t : State} (ht : execPprDone w d s = .next t) : t.memWf = true :=
  State.memWf_of_memP (execPprDone_keep w d s (State.memP_of_memWf hw) ht)

theorem execRingEnableApply_wf (q : Fin 64) (s : State) (hw : s.memWf = true) {t : State} (ht : execRingEnableApply q s = .next t) : t.memWf = true :=
  State.memWf_of_memP (execRingEnableApply_keep q s (State.memP_of_memWf hw) ht)

theorem execRingDisableApply_wf (q : Fin 64) (s : State) (hw : s.memWf = true) {t : State} (ht : execRingDisableApply q s = .next t) : t.memWf = true :=
  State.memWf_of_memP (execRingDisableApply_keep q s (State.memP_of_memWf hw) ht)

theorem execCmdTail_wf (w : Twin) (rq : Requester) (throughAlias : Bool) (q : Fin 64) (v : BitVec 16) (s : State) (hw : s.memWf = true) {t : State} (ht : execCmdTail w rq throughAlias q v s = .next t) : t.memWf = true :=
  State.memWf_of_memP (execCmdTail_keep w rq throughAlias q v s (State.memP_of_memWf hw) ht)

theorem execCmpHead_wf (w : Twin) (rq : Requester) (throughAlias : Bool) (q : Fin 64) (v : BitVec 16) (s : State) (hw : s.memWf = true) {t : State} (ht : execCmpHead w rq throughAlias q v s = .next t) : t.memWf = true :=
  State.memWf_of_memP (execCmpHead_keep w rq throughAlias q v s (State.memP_of_memWf hw) ht)

theorem execPostBoxCommandStart_wf (q : Fin 64) (s : State) (hw : s.memWf = true) {t : State} (ht : execPostBoxCommandStart q s = .next t) : t.memWf = true :=
  State.memWf_of_memP (execPostBoxCommandStart_keep q s (State.memP_of_memWf hw) ht)

theorem execCompletionWrite_wf (q : Fin 64) (s : State) (hw : s.memWf = true) {t : State} (ht : execCompletionWrite q s = .next t) : t.memWf = true :=
  State.memWf_of_memP (execCompletionWrite_keep q s (State.memP_of_memWf hw) ht)

theorem execRingNop_wf (q : Fin 64) (idx : Nat) (s : State) (hw : s.memWf = true) {t : State} (ht : execRingNop q idx s = .next t) : t.memWf = true :=
  State.memWf_of_memP (execRingNop_keep q idx s (State.memP_of_memWf hw) ht)

theorem execRingRound_wf (q : Fin 64) (idx : Nat) (s : State) (hw : s.memWf = true) {t : State} (ht : execRingRound q idx s = .next t) : t.memWf = true :=
  State.memWf_of_memP (execRingRound_keep q idx s (State.memP_of_memWf hw) ht)

theorem execObjRegister_wf (q : Fin 64) (idx : Nat) (s : State) (hw : s.memWf = true) {t : State} (ht : execObjRegister q idx s = .next t) : t.memWf = true :=
  State.memWf_of_memP (execObjRegister_keep q idx s (State.memP_of_memWf hw) ht)

theorem execObjRemove_wf (q : Fin 64) (idx : Nat) (s : State) (hw : s.memWf = true) {t : State} (ht : execObjRemove q idx s = .next t) : t.memWf = true :=
  State.memWf_of_memP (execObjRemove_keep q idx s (State.memP_of_memWf hw) ht)

theorem execObjSetPolicy_wf (q : Fin 64) (idx : Nat) (s : State) (hw : s.memWf = true) {t : State} (ht : execObjSetPolicy q idx s = .next t) : t.memWf = true :=
  State.memWf_of_memP (execObjSetPolicy_keep q idx s (State.memP_of_memWf hw) ht)

theorem execObjQuery_wf (q : Fin 64) (idx : Nat) (s : State) (hw : s.memWf = true) {t : State} (ht : execObjQuery q idx s = .next t) : t.memWf = true :=
  State.memWf_of_memP (execObjQuery_keep q idx s (State.memP_of_memWf hw) ht)

theorem execExtentPromote_wf (q : Fin 64) (idx : Nat) (s : State) (hw : s.memWf = true) {t : State} (ht : execExtentPromote q idx s = .next t) : t.memWf = true :=
  State.memWf_of_memP (execExtentPromote_keep q idx s (State.memP_of_memWf hw) ht)

theorem execExtentEvict_wf (q : Fin 64) (idx : Nat) (s : State) (hw : s.memWf = true) {t : State} (ht : execExtentEvict q idx s = .next t) : t.memWf = true :=
  State.memWf_of_memP (execExtentEvict_keep q idx s (State.memP_of_memWf hw) ht)

theorem execExtentDiscard_wf (q : Fin 64) (idx : Nat) (s : State) (hw : s.memWf = true) {t : State} (ht : execExtentDiscard q idx s = .next t) : t.memWf = true :=
  State.memWf_of_memP (execExtentDiscard_keep q idx s (State.memP_of_memWf hw) ht)

theorem execPoolQuery_wf (q : Fin 64) (idx : Nat) (s : State) (hw : s.memWf = true) {t : State} (ht : execPoolQuery q idx s = .next t) : t.memWf = true :=
  State.memWf_of_memP (execPoolQuery_keep q idx s (State.memP_of_memWf hw) ht)

theorem execRouteLoad_wf (q : Fin 64) (idx : Nat) (s : State) (hw : s.memWf = true) {t : State} (ht : execRouteLoad q idx s = .next t) : t.memWf = true :=
  State.memWf_of_memP (execRouteLoad_keep q idx s (State.memP_of_memWf hw) ht)

theorem execRouteStart_wf (q : Fin 64) (idx : Nat) (s : State) (hw : s.memWf = true) {t : State} (ht : execRouteStart q idx s = .next t) : t.memWf = true :=
  State.memWf_of_memP (execRouteStart_keep q idx s (State.memP_of_memWf hw) ht)

theorem execRouteSeek_wf (q : Fin 64) (idx : Nat) (s : State) (hw : s.memWf = true) {t : State} (ht : execRouteSeek q idx s = .next t) : t.memWf = true :=
  State.memWf_of_memP (execRouteSeek_keep q idx s (State.memP_of_memWf hw) ht)

theorem execRouteStop_wf (q : Fin 64) (idx : Nat) (s : State) (hw : s.memWf = true) {t : State} (ht : execRouteStop q idx s = .next t) : t.memWf = true :=
  State.memWf_of_memP (execRouteStop_keep q idx s (State.memP_of_memWf hw) ht)

theorem execRouteUnload_wf (q : Fin 64) (idx : Nat) (s : State) (hw : s.memWf = true) {t : State} (ht : execRouteUnload q idx s = .next t) : t.memWf = true :=
  State.memWf_of_memP (execRouteUnload_keep q idx s (State.memP_of_memWf hw) ht)

theorem execRouteQuery_wf (q : Fin 64) (idx : Nat) (s : State) (hw : s.memWf = true) {t : State} (ht : execRouteQuery q idx s = .next t) : t.memWf = true :=
  State.memWf_of_memP (execRouteQuery_keep q idx s (State.memP_of_memWf hw) ht)

theorem execRetireDramRow_wf (q : Fin 64) (idx : Nat) (s : State) (hw : s.memWf = true) {t : State} (ht : execRetireDramRow q idx s = .next t) : t.memWf = true :=
  State.memWf_of_memP (execRetireDramRow_keep q idx s (State.memP_of_memWf hw) ht)

theorem execRetireFrame_wf (q : Fin 64) (idx : Nat) (s : State) (hw : s.memWf = true) {t : State} (ht : execRetireFrame q idx s = .next t) : t.memWf = true :=
  State.memWf_of_memP (execRetireFrame_keep q idx s (State.memP_of_memWf hw) ht)

theorem execRetireParcel_wf (q : Fin 64) (idx : Nat) (s : State) (hw : s.memWf = true) {t : State} (ht : execRetireParcel q idx s = .next t) : t.memWf = true :=
  State.memWf_of_memP (execRetireParcel_keep q idx s (State.memP_of_memWf hw) ht)

theorem execLedgerQuery_wf (q : Fin 64) (idx : Nat) (s : State) (hw : s.memWf = true) {t : State} (ht : execLedgerQuery q idx s = .next t) : t.memWf = true :=
  State.memWf_of_memP (execLedgerQuery_keep q idx s (State.memP_of_memWf hw) ht)

theorem execLinkTrained_wf (h : Fin 24) (x : LinkTraining) (s : State) (hw : s.memWf = true) {t : State}
    (ht : execLinkTrained h x s = .next t) : t.memWf = true :=
  State.memWf_of_memP (execLinkTrained_keep h x s (State.memP_of_memWf hw) ht)

theorem execLinkDegradeRetry_wf (h : Fin 24) (s : State) (hw : s.memWf = true) {t : State} (ht : execLinkDegradeRetry h s = .next t) : t.memWf = true :=
  State.memWf_of_memP (execLinkDegradeRetry_keep h s (State.memP_of_memWf hw) ht)

theorem execLinkLeftL0_wf (h : Fin 24) (dest : Fin 9) (ns : Nat) (s : State) (hw : s.memWf = true) {t : State} (ht : execLinkLeftL0 h dest ns s = .next t) : t.memWf = true :=
  State.memWf_of_memP (execLinkLeftL0_keep h dest ns s (State.memP_of_memWf hw) ht)

theorem execDecoderCommit_wf (h : Fin 24) (n : Fin 16) (s : State) (hw : s.memWf = true) {t : State} (ht : execDecoderCommit h n s = .next t) : t.memWf = true :=
  State.memWf_of_memP (execDecoderCommit_keep h n s (State.memP_of_memWf hw) ht)

theorem execDoeDiscovery_wf (h : Fin 24) (index : Nat) (s : State) (hw : s.memWf = true) {t : State} (ht : execDoeDiscovery h index s = .next t) : t.memWf = true :=
  State.memWf_of_memP (execDoeDiscovery_keep h index s (State.memP_of_memWf hw) ht)

theorem execCdatTableAccess_wf (h : Fin 24) (entry : Nat) (s : State) (hw : s.memWf = true) {t : State} (ht : execCdatTableAccess h entry s = .next t) : t.memWf = true :=
  State.memWf_of_memP (execCdatTableAccess_keep h entry s (State.memP_of_memWf hw) ht)

theorem execMsixModeratorFire_wf (h : Fin 24) (v : Fin 64) (timer : Bool) (s : State) (hw : s.memWf = true) {t : State} (ht : execMsixModeratorFire h v timer s = .next t) : t.memWf = true :=
  State.memWf_of_memP (execMsixModeratorFire_keep h v timer s (State.memP_of_memWf hw) ht)

theorem execD0Entry_wf (h : Fin 24) (s : State) (hw : s.memWf = true) {t : State} (ht : execD0Entry h s = .next t) : t.memWf = true :=
  State.memWf_of_memP (execD0Entry_keep h s (State.memP_of_memWf hw) ht)

theorem execGpfPhase1_wf (h : Fin 24) (s : State) (hw : s.memWf = true) {t : State} (ht : execGpfPhase1 h s = .next t) : t.memWf = true :=
  State.memWf_of_memP (execGpfPhase1_keep h s (State.memP_of_memWf hw) ht)

theorem execGpfPhase2_wf (h : Fin 24) (s : State) (hw : s.memWf = true) {t : State} (ht : execGpfPhase2 h s = .next t) : t.memWf = true :=
  State.memWf_of_memP (execGpfPhase2_keep h s (State.memP_of_memWf hw) ht)

theorem execGpfPhase2Done_wf (h : Fin 24) (s : State) (hw : s.memWf = true) {t : State} (ht : execGpfPhase2Done h s = .next t) : t.memWf = true :=
  State.memWf_of_memP (execGpfPhase2Done_keep h s (State.memP_of_memWf hw) ht)

theorem execHotReset_wf (h : Fin 24) (s : State) (hw : s.memWf = true) {t : State} (ht : execHotReset h s = .next t) : t.memWf = true :=
  State.memWf_of_memP (execHotReset_keep h s (State.memP_of_memWf hw) ht)

theorem execSecondaryBusReset_wf (h : Fin 24) (s : State) (hw : s.memWf = true) {t : State} (ht : execSecondaryBusReset h s = .next t) : t.memWf = true :=
  State.memWf_of_memP (execSecondaryBusReset_keep h s (State.memP_of_memWf hw) ht)

theorem execHeadFlr_wf (h : Fin 24) (s : State) (hw : s.memWf = true) {t : State} (ht : execHeadFlr h s = .next t) : t.memWf = true :=
  State.memWf_of_memP (execHeadFlr_keep h s (State.memP_of_memWf hw) ht)

theorem execCxlReset_wf (h : Fin 24) (s : State) (hw : s.memWf = true) {t : State} (ht : execCxlReset h s = .next t) : t.memWf = true :=
  State.memWf_of_memP (execCxlReset_keep h s (State.memP_of_memWf hw) ht)

theorem execPerstAssert_wf (p : Fin 6) (s : State) (hw : s.memWf = true) {t : State} (ht : execPerstAssert p s = .next t) : t.memWf = true :=
  State.memWf_of_memP (execPerstAssert_keep p s (State.memP_of_memWf hw) ht)

theorem execPerstDeassert_wf (p : Fin 6) (s : State) (hw : s.memWf = true) {t : State} (ht : execPerstDeassert p s = .next t) : t.memWf = true :=
  State.memWf_of_memP (execPerstDeassert_keep p s (State.memP_of_memWf hw) ht)

theorem execCarbonAcquired_wf (w : Twin) (h : Fin 24) (ns : Nat) (s : State) (hw : s.memWf = true) {t : State} (ht : execCarbonAcquired w h ns s = .next t) : t.memWf = true :=
  State.memWf_of_memP (execCarbonAcquired_keep w h ns s (State.memP_of_memWf hw) ht)

theorem execAcqLimitExpiry_wf (w : Twin) (h : Fin 24) (s : State) (hw : s.memWf = true) {t : State} (ht : execAcqLimitExpiry w h s = .next t) : t.memWf = true :=
  State.memWf_of_memP (execAcqLimitExpiry_keep w h s (State.memP_of_memWf hw) ht)

theorem execLostRetry_wf (w : Twin) (h : Fin 24) (s : State) (hw : s.memWf = true) {t : State} (ht : execLostRetry w h s = .next t) : t.memWf = true :=
  State.memWf_of_memP (execLostRetry_keep w h s (State.memP_of_memWf hw) ht)

theorem execTrackLost_wf (w : Twin) (h : Fin 24) (s : State) (hw : s.memWf = true) {t : State} (ht : execTrackLost w h s = .next t) : t.memWf = true :=
  State.memWf_of_memP (execTrackLost_keep w h s (State.memP_of_memWf hw) ht)

theorem execFlitFetch_wf (w : Twin) (h : Fin 24) (dir : Direction) (flit : Nat) (s : State) (hw : s.memWf = true) {t : State} (ht : execFlitFetch w h dir flit s = .next t) : t.memWf = true :=
  State.memWf_of_memP (execFlitFetch_keep w h dir flit s (State.memP_of_memWf hw) ht)

theorem execGetEventRecords_wf (h : Fin 24) (log : Fin 4) (s : State) (hw : s.memWf = true) {t : State} (ht : execGetEventRecords h log s = .next t) : t.memWf = true :=
  State.memWf_of_memP (execGetEventRecords_keep h log s (State.memP_of_memWf hw) ht)

theorem execClearEventRecords_wf (h : Fin 24) (log : Fin 4) (all : Bool) (handles : List Nat) (s : State) (hw : s.memWf = true) {t : State} (ht : execClearEventRecords h log all handles s = .next t) : t.memWf = true :=
  State.memWf_of_memP (execClearEventRecords_keep h log all handles s (State.memP_of_memWf hw) ht)

theorem execGetEventInterruptPolicy_wf (h : Fin 24) (s : State) (hw : s.memWf = true) {t : State} (ht : execGetEventInterruptPolicy h s = .next t) : t.memWf = true :=
  State.memWf_of_memP (execGetEventInterruptPolicy_keep h s (State.memP_of_memWf hw) ht)

theorem execSetEventInterruptPolicy_wf (h : Fin 24) (log : Fin 4) (mode : Fin 4) (s : State) (hw : s.memWf = true) {t : State} (ht : execSetEventInterruptPolicy h log mode s = .next t) : t.memWf = true :=
  State.memWf_of_memP (execSetEventInterruptPolicy_keep h log mode s (State.memP_of_memWf hw) ht)

theorem execGetFwInfo_wf (h : Fin 24) (s : State) (hw : s.memWf = true) {t : State} (ht : execGetFwInfo h s = .next t) : t.memWf = true :=
  State.memWf_of_memP (execGetFwInfo_keep h s (State.memP_of_memWf hw) ht)

theorem execTransferFw_wf (h : Fin 24) (off : Nat) (bytes : List Byte) (s : State) (hw : s.memWf = true) {t : State} (ht : execTransferFw h off bytes s = .next t) : t.memWf = true :=
  State.memWf_of_memP (execTransferFw_keep h off bytes s (State.memP_of_memWf hw) ht)

theorem execActivateFw_wf (h : Fin 24) (slot : Fin 2) (s : State) (hw : s.memWf = true) {t : State} (ht : execActivateFw h slot s = .next t) : t.memWf = true :=
  State.memWf_of_memP (execActivateFw_keep h slot s (State.memP_of_memWf hw) ht)

theorem execGetTimestamp_wf (h : Fin 24) (s : State) (hw : s.memWf = true) {t : State} (ht : execGetTimestamp h s = .next t) : t.memWf = true :=
  State.memWf_of_memP (execGetTimestamp_keep h s (State.memP_of_memWf hw) ht)

theorem execSetTimestamp_wf (h : Fin 24) (ns : BitVec 64) (s : State) (hw : s.memWf = true) {t : State} (ht : execSetTimestamp h ns s = .next t) : t.memWf = true :=
  State.memWf_of_memP (execSetTimestamp_keep h ns s (State.memP_of_memWf hw) ht)

theorem execGetSupportedLogs_wf (h : Fin 24) (s : State) (hw : s.memWf = true) {t : State} (ht : execGetSupportedLogs h s = .next t) : t.memWf = true :=
  State.memWf_of_memP (execGetSupportedLogs_keep h s (State.memP_of_memWf hw) ht)

theorem execGetLog_wf (h : Fin 24) (log : Fin 2) (off len : Nat) (s : State) (hw : s.memWf = true) {t : State} (ht : execGetLog h log off len s = .next t) : t.memWf = true :=
  State.memWf_of_memP (execGetLog_keep h log off len s (State.memP_of_memWf hw) ht)

theorem execIdentifyMemoryDevice_wf (h : Fin 24) (s : State) (hw : s.memWf = true) {t : State} (ht : execIdentifyMemoryDevice h s = .next t) : t.memWf = true :=
  State.memWf_of_memP (execIdentifyMemoryDevice_keep h s (State.memP_of_memWf hw) ht)

theorem execGetPartitionInfo_wf (h : Fin 24) (s : State) (hw : s.memWf = true) {t : State} (ht : execGetPartitionInfo h s = .next t) : t.memWf = true :=
  State.memWf_of_memP (execGetPartitionInfo_keep h s (State.memP_of_memWf hw) ht)

theorem execGetLsa_wf (h : Fin 24) (off len : Nat) (s : State) (hw : s.memWf = true) {t : State} (ht : execGetLsa h off len s = .next t) : t.memWf = true :=
  State.memWf_of_memP (execGetLsa_keep h off len s (State.memP_of_memWf hw) ht)

theorem execSetLsa_wf (h : Fin 24) (off : Nat) (bytes : List Byte) (s : State) (hw : s.memWf = true) {t : State} (ht : execSetLsa h off bytes s = .next t) : t.memWf = true :=
  State.memWf_of_memP (execSetLsa_keep h off bytes s (State.memP_of_memWf hw) ht)

theorem execGetHealthInfo_wf (h : Fin 24) (s : State) (hw : s.memWf = true) {t : State} (ht : execGetHealthInfo h s = .next t) : t.memWf = true :=
  State.memWf_of_memP (execGetHealthInfo_keep h s (State.memP_of_memWf hw) ht)

theorem execGetAlertConfiguration_wf (h : Fin 24) (s : State) (hw : s.memWf = true) {t : State} (ht : execGetAlertConfiguration h s = .next t) : t.memWf = true :=
  State.memWf_of_memP (execGetAlertConfiguration_keep h s (State.memP_of_memWf hw) ht)

theorem execSetAlertConfiguration_wf (h : Fin 24) (bytes : List Byte) (s : State) (hw : s.memWf = true) {t : State} (ht : execSetAlertConfiguration h bytes s = .next t) : t.memWf = true :=
  State.memWf_of_memP (execSetAlertConfiguration_keep h bytes s (State.memP_of_memWf hw) ht)

theorem execGetShutdownState_wf (h : Fin 24) (s : State) (hw : s.memWf = true) {t : State} (ht : execGetShutdownState h s = .next t) : t.memWf = true :=
  State.memWf_of_memP (execGetShutdownState_keep h s (State.memP_of_memWf hw) ht)

theorem execSetShutdownState_wf (h : Fin 24) (dirty : Bool) (s : State) (hw : s.memWf = true) {t : State} (ht : execSetShutdownState h dirty s = .next t) : t.memWf = true :=
  State.memWf_of_memP (execSetShutdownState_keep h dirty s (State.memP_of_memWf hw) ht)

theorem execGetPoisonList_wf (h : Fin 24) (dpa lines : Nat) (s : State) (hw : s.memWf = true) {t : State} (ht : execGetPoisonList h dpa lines s = .next t) : t.memWf = true :=
  State.memWf_of_memP (execGetPoisonList_keep h dpa lines s (State.memP_of_memWf hw) ht)

theorem execInjectPoison_wf (h : Fin 24) (dpa : Nat) (s : State) (hw : s.memWf = true) {t : State} (ht : execInjectPoison h dpa s = .next t) : t.memWf = true :=
  State.memWf_of_memP (execInjectPoison_keep h dpa s (State.memP_of_memWf hw) ht)

theorem execClearPoison_wf (h : Fin 24) (dpa : Nat) (data : Line) (s : State) (hw : s.memWf = true) {t : State} (ht : execClearPoison h dpa data s = .next t) : t.memWf = true :=
  State.memWf_of_memP (execClearPoison_keep h dpa data s (State.memP_of_memWf hw) ht)

theorem execGetScanMediaCapabilities_wf (h : Fin 24) (dpa lines : Nat) (s : State) (hw : s.memWf = true) {t : State} (ht : execGetScanMediaCapabilities h dpa lines s = .next t) :
    t.memWf = true :=
  State.memWf_of_memP (execGetScanMediaCapabilities_keep h dpa lines s (State.memP_of_memWf hw) ht)

theorem execScanMedia_wf (h : Fin 24) (dpa lines : Nat) (s : State) (hw : s.memWf = true) {t : State} (ht : execScanMedia h dpa lines s = .next t) : t.memWf = true :=
  State.memWf_of_memP (execScanMedia_keep h dpa lines s (State.memP_of_memWf hw) ht)

theorem execGetScanMediaResults_wf (h : Fin 24) (s : State) (hw : s.memWf = true) {t : State} (ht : execGetScanMediaResults h s = .next t) : t.memWf = true :=
  State.memWf_of_memP (execGetScanMediaResults_keep h s (State.memP_of_memWf hw) ht)

theorem execSanitize_wf (h : Fin 24) (s : State) (hw : s.memWf = true) {t : State} (ht : execSanitize h s = .next t) : t.memWf = true :=
  State.memWf_of_memP (execSanitize_keep h s (State.memP_of_memWf hw) ht)

theorem execSecureErase_wf (h : Fin 24) (s : State) (hw : s.memWf = true) {t : State} (ht : execSecureErase h s = .next t) : t.memWf = true :=
  State.memWf_of_memP (execSecureErase_keep h s (State.memP_of_memWf hw) ht)

theorem execGetPairInfo_wf (h : Fin 24) (s : State) (hw : s.memWf = true) {t : State} (ht : execGetPairInfo h s = .next t) : t.memWf = true :=
  State.memWf_of_memP (execGetPairInfo_keep h s (State.memP_of_memWf hw) ht)

theorem execGetDirtyBudget_wf (h : Fin 24) (s : State) (hw : s.memWf = true) {t : State} (ht : execGetDirtyBudget h s = .next t) : t.memWf = true :=
  State.memWf_of_memP (execGetDirtyBudget_keep h s (State.memP_of_memWf hw) ht)

theorem execGetDeadLetters_wf (h : Fin 24) (first : Nat) (s : State) (hw : s.memWf = true) {t : State} (ht : execGetDeadLetters h first s = .next t) : t.memWf = true :=
  State.memWf_of_memP (execGetDeadLetters_keep h first s (State.memP_of_memWf hw) ht)

theorem execMailboxBackgroundDone_wf (s : State) (hw : s.memWf = true) {t : State} (ht : execMailboxBackgroundDone s = .next t) : t.memWf = true :=
  State.memWf_of_memP (execMailboxBackgroundDone_keep s (State.memP_of_memWf hw) ht)

theorem execHoldupRise_wf (w : Twin) (s : State) (hw : s.memWf = true) {t : State} (ht : execHoldupRise w s = .next t) : t.memWf = true :=
  State.memWf_of_memP (execHoldupRise_keep w s (State.memP_of_memWf hw) ht)

theorem execPfailNFall_wf (w : Twin) (s : State) (hw : s.memWf = true) {t : State} (ht : execPfailNFall w s = .next t) : t.memWf = true :=
  State.memWf_of_memP (execPfailNFall_keep w s (State.memP_of_memWf hw) ht)

theorem execPfailCommit_wf (w : Twin) (s : State) (hw : s.memWf = true) {t : State} (ht : execPfailCommit w s = .next t) : t.memWf = true :=
  State.memWf_of_memP (execPfailCommit_keep w s (State.memP_of_memWf hw) ht)

theorem execPfailNRise_wf (w : Twin) (s : State) (hw : s.memWf = true) {t : State} (ht : execPfailNRise w s = .next t) : t.memWf = true :=
  State.memWf_of_memP (execPfailNRise_keep w s (State.memP_of_memWf hw) ht)

theorem execSaveDecision_wf (w : Twin) (s : State) (hw : s.memWf = true) {t : State} (ht : execSaveDecision w s = .next t) : t.memWf = true :=
  State.memWf_of_memP (execSaveDecision_keep w s (State.memP_of_memWf hw) ht)

theorem execLonePfail_wf (w : Twin) (s : State) (hw : s.memWf = true) {t : State} (ht : execLonePfail w s = .next t) : t.memWf = true :=
  State.memWf_of_memP (execLonePfail_keep w s (State.memP_of_memWf hw) ht)

theorem execGraceExpiry_wf (w : Twin) (s : State) (hw : s.memWf = true) {t : State} (ht : execGraceExpiry w s = .next t) : t.memWf = true :=
  State.memWf_of_memP (execGraceExpiry_keep w s (State.memP_of_memWf hw) ht)

theorem execSaveSealed_wf (w : Twin) (x : SealWork) (s : State) (hw : s.memWf = true) {t : State} (ht : execSaveSealed w x s = .next t) : t.memWf = true := by
  injection ht with ht
  subst ht
  repeat' first
    | with_reducible assumption
    | split
    | with_reducible refine State.onUp_wf _ _ _ (fun c h => ?_) ?_
    | with_reducible refine Chip.sealSave_wf _ _ _ _ ?_
    | simp only [↓Chip.startDown_mem, ↓Chip.mem_mk, Stores.eta, Chip.mem_parts]

theorem execSaveFailed_wf (w : Twin) (s : State) (hw : s.memWf = true) {t : State} (ht : execSaveFailed w s = .next t) : t.memWf = true :=
  State.memWf_of_memP (execSaveFailed_keep w s (State.memP_of_memWf hw) ht)

theorem execCalibrationDone_wf (w : Twin) (rate tprogUs fixedUs ms : Nat) (s : State) (hw : s.memWf = true) {t : State} (ht : execCalibrationDone w rate tprogUs fixedUs ms s = .next t) : t.memWf = true :=
  State.memWf_of_memP (execCalibrationDone_keep w rate tprogUs fixedUs ms s (State.memP_of_memWf hw) ht)

theorem execSealReadDone_wf (w : Twin) (copies : SealCopies) (bad : List Nat) (s : State) (hw : s.memWf = true) {t : State} (ht : execSealReadDone w copies bad s = .next t) : t.memWf = true :=
  State.memWf_of_memP (execSealReadDone_keep w copies bad s (State.memP_of_memWf hw) ht)

theorem execFormatDone_wf (w : Twin) (x : MediaScan) (s : State) (hw : s.memWf = true) {t : State} (ht : execFormatDone w x s = .next t) : t.memWf = true := by
  injection ht with ht
  subst ht
  repeat' first
    | with_reducible assumption
    | split
    | with_reducible refine State.onUp_wf _ _ _ (fun c h => ?_) ?_
    | with_reducible refine Chip.formatted_wf _ _ ?_
    | simp only [↓Chip.sealRead_mem, ↓Chip.mem_mk, Stores.eta, Chip.mem_parts]

theorem execSourceChoice_wf (w : Twin) (s : State) (hw : s.memWf = true) {t : State} (ht : execSourceChoice w s = .next t) : t.memWf = true :=
  State.memWf_of_memP (execSourceChoice_keep w s (State.memP_of_memWf hw) ht)

theorem execMetadataLoadDone_wf (w : Twin) (s : State) (hw : s.memWf = true) {t : State} (ht : execMetadataLoadDone w s = .next t) : t.memWf = true := by
  injection ht with ht
  subst ht
  repeat' first
    | with_reducible assumption
    | split
    | with_reducible refine State.onUp_wf _ _ _ (fun c h => ?_) ?_
    | with_reducible refine Chip.checkpoint_wf _ ?_
    | with_reducible refine Chip.loadMeta_wf _ ?_
    | simp only [↓Chip.mem_mk, Stores.eta, Chip.mem_parts]

theorem execRestoreLoadDone_wf (w : Twin) (s : State) (hw : s.memWf = true) {t : State} (ht : execRestoreLoadDone w s = .next t) : t.memWf = true := by
  injection ht with ht
  subst ht
  repeat' first
    | with_reducible assumption
    | split
    | with_reducible refine State.onUp_wf _ _ _ (fun c h => ?_) ?_
    | with_reducible refine Chip.loadData_wf _ ?_
    | simp only [↓Chip.mem_mk, Stores.eta, Chip.mem_parts]

theorem execCheckpointCommit_wf (w : Twin) (s : State) (hw : s.memWf = true) {t : State} (ht : execCheckpointCommit w s = .next t) : t.memWf = true := by
  injection ht with ht
  subst ht
  repeat' first
    | with_reducible assumption
    | split
    | with_reducible refine State.onUp_wf _ _ _ (fun c h => ?_) ?_
    | with_reducible refine Chip.checkpoint_wf _ ?_
    | simp only [↓Chip.mem_mk, Stores.eta, Chip.mem_parts]

theorem execMemoryActive_wf (s : State) (hw : s.memWf = true) {t : State} (ht : execMemoryActive s = .next t) : t.memWf = true :=
  State.memWf_of_memP (execMemoryActive_keep s (State.memP_of_memWf hw) ht)

theorem execLrScAmo_wf (w : Twin) (n : Fin 8) (op : AtomicOp) (addr : Nat) (rd : Fin 32) (data : BitVec 64) (wide : Bool) (s : State) (hw : s.memWf = true) {t : State} (ht : execLrScAmo w n op addr rd data wide s = .next t) : t.memWf = true := by
  injection ht with ht
  subst ht
  repeat' first
    | with_reducible assumption
    | split
    | with_reducible refine State.onUp_wf _ _ _ (fun c h => ?_) ?_
    | with_reducible refine Chip.atomicAt_wf _ _ _ _ _ _ _ ?_
    | simp only [↓Chip.coreTrap_mem, ↓Chip.mapCore_mem, ↓Chip.mem_mk, Stores.eta, Chip.mem_parts]

theorem execDcflush_wf (w : Twin) (n : Fin 8) (addr : Nat) (s : State) (hw : s.memWf = true) {t : State} (ht : execDcflush w n addr s = .next t) : t.memWf = true := by
  injection ht with ht
  subst ht
  repeat' first
    | with_reducible assumption
    | split
    | with_reducible refine State.onUp_wf _ _ _ (fun c h => ?_) ?_
    | with_reducible refine Chip.setDramByte_wf _ _ _ ?_
    | with_reducible refine Chip.foldl_wf _ (fun c x h => ?_) _ _ ?_
    | with_reducible refine State.foldl_wf _ (fun s x h => ?_) _ _ ?_
    | simp only [↓Chip.coreTrap_mem, ↓Chip.oweLines_mem, ↓Chip.mapCore_mem, ↓Chip.mem_mk, Stores.eta, Chip.mem_parts]

theorem execAlwaysOnPowerUp_wf (w : Twin) (x : AlwaysOnStart) (s : State) (hw : s.memWf = true) {t : State} (ht : execAlwaysOnPowerUp w x s = .next t) : t.memWf = true := by
  injection ht with ht
  subst ht
  repeat' first
    | with_reducible assumption
    | split
    | with_reducible refine State.mapChip_wf _ _ _ (fun c h => ?_) ?_
    | with_reducible refine Chip.inReset_wf _ _ ?_
    | with_reducible refine Chip.foldl_wf _ (fun c x h => ?_) _ _ ?_
    | with_reducible refine State.foldl_wf _ (fun s x h => ?_) _ _ ?_
    | simp only [↓Chip.put_mem, ↓Chip.mem_mk, Stores.eta, Chip.mem_parts]

theorem execPowerOnReset_wf (w : Twin) (x : BootReport) (s : State) (hw : s.memWf = true) {t : State} (ht : execPowerOnReset w x s = .next t) : t.memWf = true := by
  injection ht with ht
  subst ht
  repeat' first
    | with_reducible assumption
    | split
    | with_reducible refine State.chip_wf _ _ ?_
    | with_reducible refine State.mapChip_wf _ _ _ (fun c h => ?_) ?_
    | with_reducible refine State.release_wf _ _ _ _ ?_
    | with_reducible refine Chip.inReset_wf _ _ ?_
    | simp only [↓Chip.mem_mk, Stores.eta, Chip.mem_parts]

theorem execResetNAssert_wf (w : Twin) (s : State) (hw : s.memWf = true) {t : State} (ht : execResetNAssert w s = .next t) : t.memWf = true := by
  injection ht with ht
  subst ht
  repeat' first
    | with_reducible assumption
    | split
    | with_reducible refine State.mapChip_wf _ _ _ (fun c h => ?_) ?_
    | with_reducible refine Chip.inReset_wf _ _ ?_
    | simp only [↓Chip.put_mem, ↓Chip.failStop_mem, ↓Chip.cnt_mem, ↓Chip.mem_mk, Stores.eta, Chip.mem_parts]

theorem execResetNRelease_wf (w : Twin) (x : BootReport) (s : State) (hw : s.memWf = true) {t : State} (ht : execResetNRelease w x s = .next t) : t.memWf = true :=
  State.memWf_of_memP (execResetNRelease_keep w x s (State.memP_of_memWf hw) ht)

theorem execWarmGo_wf (w : Twin) (rq : Requester) (x : BootReport) (s : State) (hw : s.memWf = true) {t : State} (ht : execWarmGo w rq x s = .next t) : t.memWf = true := by
  injection ht with ht
  subst ht
  repeat' first
    | with_reducible assumption
    | split
    | with_reducible refine State.chip_wf _ _ ?_
    | with_reducible refine State.warmGo_wf _ _ _ _ ?_
    | simp only [↓Chip.mem_mk, Stores.eta, Chip.mem_parts]

theorem execClockLockLoss_wf (w : Twin) (s : State) (hw : s.memWf = true) {t : State} (ht : execClockLockLoss w s = .next t) : t.memWf = true :=
  State.memWf_of_memP (execClockLockLoss_keep w s (State.memP_of_memWf hw) ht)

theorem execSvnAdvance_wf (w : Twin) (rq : Requester) (s : State) (hw : s.memWf = true) {t : State} (ht : execSvnAdvance w rq s = .next t) : t.memWf = true :=
  State.memWf_of_memP (execSvnAdvance_keep w rq s (State.memP_of_memWf hw) ht)

theorem execOwnerProg_wf (w : Twin) (rq : Requester) (s : State) (hw : s.memWf = true) {t : State} (ht : execOwnerProg w rq s = .next t) : t.memWf = true :=
  State.memWf_of_memP (execOwnerProg_keep w rq s (State.memP_of_memWf hw) ht)

theorem execEraseReq_wf (rq : Requester) (d : Fin 64) (s : State) (hw : s.memWf = true) {t : State} (ht : execEraseReq rq d s = .next t) : t.memWf = true :=
  State.memWf_of_memP (execEraseReq_keep rq d s (State.memP_of_memWf hw) ht)

theorem execCryptoEraseDone_wf (w : Twin) (d : Fin 64) (s : State) (hw : s.memWf = true) {t : State} (ht : execCryptoEraseDone w d s = .next t) : t.memWf = true := by
  injection ht with ht
  subst ht
  repeat' first
    | with_reducible assumption
    | split
    | with_reducible refine State.chip_wf _ _ ?_
    | with_reducible refine State.eraseEnded_wf _ _ ?_
    | with_reducible refine State.mapChip_wf _ _ _ (fun c h => ?_) ?_
    | with_reducible refine Chip.keyGone_wf _ _ ?_
    | simp only [↓Chip.mem_mk, Stores.eta, Chip.mem_parts]

theorem execCloseGo_wf (w : Twin) (rq : Requester) (s : State) (hw : s.memWf = true) {t : State} (ht : execCloseGo w rq s = .next t) : t.memWf = true :=
  State.memWf_of_memP (execCloseGo_keep w rq s (State.memP_of_memWf hw) ht)

theorem execTestLogicReset_wf (w : Twin) (s : State) (hw : s.memWf = true) {t : State} (ht : execTestLogicReset w s = .next t) : t.memWf = true := by
  injection ht with ht
  subst ht
  repeat' first
    | with_reducible assumption
    | split
    | with_reducible refine State.mapChip_wf _ _ _ (fun c h => ?_) ?_
    | with_reducible refine Chip.tapLoad_wf _ _ ?_
    | simp only [↓Chip.put_mem, ↓Chip.cnt_mem, ↓Chip.mem_mk, Stores.eta, Chip.mem_parts]

theorem execTapExtest_wf (w : Twin) (s : State) (hw : s.memWf = true) {t : State} (ht : execTapExtest w s = .next t) : t.memWf = true := by
  injection ht with ht
  subst ht
  repeat' first
    | with_reducible assumption
    | split
    | with_reducible refine State.mapChip_wf _ _ _ (fun c h => ?_) ?_
    | with_reducible refine Chip.tapLoad_wf _ _ ?_
    | simp only [↓Chip.mem_mk, Stores.eta, Chip.mem_parts]

theorem execSamplePreload_wf (w : Twin) (s : State) (hw : s.memWf = true) {t : State} (ht : execSamplePreload w s = .next t) : t.memWf = true := by
  injection ht with ht
  subst ht
  repeat' first
    | with_reducible assumption
    | split
    | with_reducible refine State.mapChip_wf _ _ _ (fun c h => ?_) ?_
    | with_reducible refine Chip.tapLoad_wf _ _ ?_
    | simp only [↓Chip.mem_mk, Stores.eta, Chip.mem_parts]

theorem execTapIdcode_wf (w : Twin) (s : State) (hw : s.memWf = true) {t : State} (ht : execTapIdcode w s = .next t) : t.memWf = true := by
  injection ht with ht
  subst ht
  repeat' first
    | with_reducible assumption
    | split
    | with_reducible refine State.mapChip_wf _ _ _ (fun c h => ?_) ?_
    | with_reducible refine Chip.tapLoad_wf _ _ ?_
    | simp only [↓Chip.mem_mk, Stores.eta, Chip.mem_parts]

theorem execTapClamp_wf (w : Twin) (s : State) (hw : s.memWf = true) {t : State} (ht : execTapClamp w s = .next t) : t.memWf = true := by
  injection ht with ht
  subst ht
  repeat' first
    | with_reducible assumption
    | split
    | with_reducible refine State.mapChip_wf _ _ _ (fun c h => ?_) ?_
    | with_reducible refine Chip.tapLoad_wf _ _ ?_
    | simp only [↓Chip.mem_mk, Stores.eta, Chip.mem_parts]

theorem execTapHighz_wf (w : Twin) (s : State) (hw : s.memWf = true) {t : State} (ht : execTapHighz w s = .next t) : t.memWf = true := by
  injection ht with ht
  subst ht
  repeat' first
    | with_reducible assumption
    | split
    | with_reducible refine State.mapChip_wf _ _ _ (fun c h => ?_) ?_
    | with_reducible refine Chip.tapLoad_wf _ _ ?_
    | simp only [↓Chip.mem_mk, Stores.eta, Chip.mem_parts]

theorem execExtestPulse_wf (w : Twin) (s : State) (hw : s.memWf = true) {t : State} (ht : execExtestPulse w s = .next t) : t.memWf = true := by
  injection ht with ht
  subst ht
  repeat' first
    | with_reducible assumption
    | split
    | with_reducible refine State.mapChip_wf _ _ _ (fun c h => ?_) ?_
    | with_reducible refine Chip.tapLoad_wf _ _ ?_
    | simp only [↓Chip.mem_mk, Stores.eta, Chip.mem_parts]

theorem execExtestTrain_wf (w : Twin) (s : State) (hw : s.memWf = true) {t : State} (ht : execExtestTrain w s = .next t) : t.memWf = true := by
  injection ht with ht
  subst ht
  repeat' first
    | with_reducible assumption
    | split
    | with_reducible refine State.mapChip_wf _ _ _ (fun c h => ?_) ?_
    | with_reducible refine Chip.tapLoad_wf _ _ ?_
    | simp only [↓Chip.mem_mk, Stores.eta, Chip.mem_parts]

theorem execTapDmi_wf (w : Twin) (s : State) (hw : s.memWf = true) {t : State} (ht : execTapDmi w s = .next t) : t.memWf = true := by
  injection ht with ht
  subst ht
  repeat' first
    | with_reducible assumption
    | split
    | with_reducible refine State.mapChip_wf _ _ _ (fun c h => ?_) ?_
    | with_reducible refine Chip.tapLoad_wf _ _ ?_
    | simp only [↓Chip.mem_mk, Stores.eta, Chip.mem_parts]

theorem execTapOverride_wf (w : Twin) (own : BitVec 6) (dead fence : Bool) (s : State) (hw : s.memWf = true) {t : State} (ht : execTapOverride w own dead fence s = .next t) : t.memWf = true := by
  injection ht with ht
  subst ht
  repeat' first
    | with_reducible assumption
    | split
    | with_reducible refine State.mapChip_wf _ _ _ (fun c h => ?_) ?_
    | with_reducible refine Chip.tapLoad_wf _ _ ?_
    | simp only [↓Chip.mem_mk, Stores.eta, Chip.mem_parts]

theorem execTapBypass_wf (w : Twin) (code : Byte) (s : State) (hw : s.memWf = true) {t : State} (ht : execTapBypass w code s = .next t) : t.memWf = true := by
  injection ht with ht
  subst ht
  repeat' first
    | with_reducible assumption
    | split
    | with_reducible refine State.mapChip_wf _ _ _ (fun c h => ?_) ?_
    | with_reducible refine Chip.tapLoad_wf _ _ ?_
    | simp only [↓Chip.mem_mk, Stores.eta, Chip.mem_parts]

theorem execSpdmGetVersion_wf (h : Fin 24) (s : State) (hw : s.memWf = true) {t : State} (ht : execSpdmGetVersion h s = .next t) : t.memWf = true :=
  State.memWf_of_memP (execSpdmGetVersion_keep h s (State.memP_of_memWf hw) ht)

theorem execSpdmGetCapabilities_wf (h : Fin 24) (s : State) (hw : s.memWf = true) {t : State} (ht : execSpdmGetCapabilities h s = .next t) : t.memWf = true :=
  State.memWf_of_memP (execSpdmGetCapabilities_keep h s (State.memP_of_memWf hw) ht)

theorem execSpdmNegotiateAlgorithms_wf (h : Fin 24) (s : State) (hw : s.memWf = true) {t : State} (ht : execSpdmNegotiateAlgorithms h s = .next t) : t.memWf = true :=
  State.memWf_of_memP (execSpdmNegotiateAlgorithms_keep h s (State.memP_of_memWf hw) ht)

theorem execSpdmGetDigests_wf (h : Fin 24) (s : State) (hw : s.memWf = true) {t : State} (ht : execSpdmGetDigests h s = .next t) : t.memWf = true :=
  State.memWf_of_memP (execSpdmGetDigests_keep h s (State.memP_of_memWf hw) ht)

theorem execSpdmGetCertificate_wf (h : Fin 24) (slot : Fin 8) (off len : Nat) (s : State) (hw : s.memWf = true) {t : State} (ht : execSpdmGetCertificate h slot off len s = .next t) : t.memWf = true :=
  State.memWf_of_memP (execSpdmGetCertificate_keep h slot off len s (State.memP_of_memWf hw) ht)

theorem execSpdmChallenge_wf (h : Fin 24) (slot : Fin 8) (s : State) (hw : s.memWf = true) {t : State} (ht : execSpdmChallenge h slot s = .next t) :
    t.memWf = true :=
  State.memWf_of_memP (execSpdmChallenge_keep h slot s (State.memP_of_memWf hw) ht)

theorem execSpdmGetMeasurements_wf (h : Fin 24) (index : Fin 256) (s : State) (hw : s.memWf = true) {t : State} (ht : execSpdmGetMeasurements h index s = .next t) : t.memWf = true :=
  State.memWf_of_memP (execSpdmGetMeasurements_keep h index s (State.memP_of_memWf hw) ht)

theorem execSpdmKeyExchange_wf (h : Fin 24) (s : State) (hw : s.memWf = true) {t : State} (ht : execSpdmKeyExchange h s = .next t) : t.memWf = true :=
  State.memWf_of_memP (execSpdmKeyExchange_keep h s (State.memP_of_memWf hw) ht)

theorem execSpdmFinish_wf (h : Fin 24) (id : Fin 4) (s : State) (hw : s.memWf = true) {t : State} (ht : execSpdmFinish h id s = .next t) : t.memWf = true :=
  State.memWf_of_memP (execSpdmFinish_keep h id s (State.memP_of_memWf hw) ht)

theorem execSpdmHeartbeat_wf (h : Fin 24) (id : Fin 4) (s : State) (hw : s.memWf = true) {t : State} (ht : execSpdmHeartbeat h id s = .next t) : t.memWf = true :=
  State.memWf_of_memP (execSpdmHeartbeat_keep h id s (State.memP_of_memWf hw) ht)

theorem execSpdmKeyUpdate_wf (h : Fin 24) (id : Fin 4) (s : State) (hw : s.memWf = true) {t : State} (ht : execSpdmKeyUpdate h id s = .next t) : t.memWf = true :=
  State.memWf_of_memP (execSpdmKeyUpdate_keep h id s (State.memP_of_memWf hw) ht)

theorem execSpdmEndSession_wf (h : Fin 24) (id : Fin 4) (s : State) (hw : s.memWf = true) {t : State} (ht : execSpdmEndSession h id s = .next t) : t.memWf = true :=
  State.memWf_of_memP (execSpdmEndSession_keep h id s (State.memP_of_memWf hw) ht)

theorem execSpdmSetCertificate_wf (h : Fin 24) (slot : Fin 8) (bytes : List Byte) (s : State) (hw : s.memWf = true) {t : State} (ht : execSpdmSetCertificate h slot bytes s = .next t) : t.memWf = true :=
  State.memWf_of_memP (execSpdmSetCertificate_keep h slot bytes s (State.memP_of_memWf hw) ht)

theorem execKSetGo_wf (h : Fin 24) (set : Fin 2) (s : State) (hw : s.memWf = true) {t : State} (ht : execKSetGo h set s = .next t) : t.memWf = true :=
  State.memWf_of_memP (execKSetGo_keep h set s (State.memP_of_memWf hw) ht)

theorem execRecEffect_wf (w : Twin) (s : State) (hw : s.memWf = true) {t : State} (ht : execRecEffect w s = .next t) : t.memWf = true := by
  injection ht with ht
  subst ht
  repeat' first
    | with_reducible assumption
    | split
    | with_reducible refine State.onUp_wf _ _ _ (fun c h => ?_) ?_
    | with_reducible refine Chip.applyRecord_wf _ _ ?_
    | simp only [↓Chip.takeRec_mem, ↓Chip.mem_mk, Stores.eta, Chip.mem_parts]

theorem execGatedEffectApply_wf (s : State) (hw : s.memWf = true) {t : State} (ht : execGatedEffectApply s = .next t) : t.memWf = true := by
  injection ht with ht
  subst ht
  repeat' first
    | with_reducible assumption
    | split
    | with_reducible refine State.mapBoth_wf _ _ (fun c h => ?_) ?_
    | with_reducible refine Chip.applyGated_wf _ ?_
    | simp only [↓Chip.mem_mk, Stores.eta, Chip.mem_parts]

theorem execRecLog_wf (w : Twin) (s : State) (hw : s.memWf = true) {t : State} (ht : execRecLog w s = .next t) : t.memWf = true :=
  State.memWf_of_memP (execRecLog_keep w s (State.memP_of_memWf hw) ht)

theorem execRecApplied_wf (w : Twin) (s : State) (hw : s.memWf = true) {t : State} (ht : execRecApplied w s = .next t) : t.memWf = true :=
  State.memWf_of_memP (execRecApplied_keep w s (State.memP_of_memWf hw) ht)

theorem execDrainAccepted_wf (w : Twin) (line : Nat) (bad : BitVec 20) (s : State) (hw : s.memWf = true) {t : State} (ht : execDrainAccepted w line bad s = .next t) : t.memWf = true := by
  injection ht with ht
  subst ht
  repeat' first
    | with_reducible assumption
    | split
    | with_reducible refine State.onUp_wf _ _ _ (fun c h => ?_) ?_
    | with_reducible refine Chip.beginRepair_wf _ _ _ ?_
    | with_reducible refine Chip.drainLands_wf _ _ _ _ ?_
    | simp only [↓Chip.uncorrectableLine_mem, ↓Chip.mem_mk, Stores.eta, Chip.mem_parts]

theorem execRepairRequest_wf (w : Twin) (dpa : Nat) (s : State) (hw : s.memWf = true) {t : State} (ht : execRepairRequest w dpa s = .next t) : t.memWf = true := by
  injection ht with ht
  subst ht
  repeat' first
    | with_reducible assumption
    | split
    | with_reducible refine State.onUp_wf _ _ _ (fun c h => ?_) ?_
    | with_reducible refine Chip.beginRepair_wf _ _ _ ?_
    | simp only [↓Chip.mapTags_mem, ↓Chip.mem_mk, Stores.eta, Chip.mem_parts]

theorem execCountersignMismatch_wf (w : Twin) (dpa : Nat) (carbonStable homeStable : Bool) (carbonData homeData : Line) (s : State) (hw : s.memWf = true) {t : State} (ht : execCountersignMismatch w dpa carbonStable homeStable carbonData homeData s = .next t) : t.memWf = true := by
  unfold execCountersignMismatch at ht
  repeat' split at ht
  all_goals (injection ht with ht; subst ht)
  repeat' first
    | with_reducible assumption
    | split
    | with_reducible refine State.chip_wf _ _ ?_
    | with_reducible refine State.mapChip_wf _ _ _ (fun c h => ?_) ?_
    | with_reducible refine Chip.storeLine_wf _ _ _ _ ?_
    | simp only [↓Chip.dlo_mem, ↓Chip.raise_mem, ↓Chip.cnt_mem, ↓Chip.put_mem, ↓Chip.mediaRecord_mem, ↓Chip.mem_mk, Stores.eta,
        Chip.mem_parts]

theorem execPeerCheck_wf (w : Twin) (pulse : Bool) (s : State) (hw : s.memWf = true) {t : State} (ht : execPeerCheck w pulse s = .next t) : t.memWf = true := by
  injection ht with ht
  subst ht
  repeat' first
    | with_reducible assumption
    | split
    | with_reducible refine State.onUp_wf _ _ _ (fun c h => ?_) ?_
    | with_reducible refine Chip.checkPeer_wf _ _ ?_
    | simp only [↓Chip.mem_mk, Stores.eta, Chip.mem_parts]

theorem execLinkDownTimeout_wf (w : Twin) (s : State) (hw : s.memWf = true) {t : State} (ht : execLinkDownTimeout w s = .next t) : t.memWf = true := by
  injection ht with ht
  subst ht
  repeat' first
    | with_reducible assumption
    | split
    | with_reducible refine State.onUp_wf _ _ _ (fun c h => ?_) ?_
    | with_reducible refine Chip.declareLoss_wf _ ?_
    | simp only [↓Chip.mem_mk, Stores.eta, Chip.mem_parts]

theorem execIsolateLimitExpiry_wf (w : Twin) (s : State) (hw : s.memWf = true) {t : State} (ht : execIsolateLimitExpiry w s = .next t) : t.memWf = true :=
  State.memWf_of_memP (execIsolateLimitExpiry_keep w s (State.memP_of_memWf hw) ht)

theorem execOwnInFall_wf (w : Twin) (p : Fin 6) (s : State) (hw : s.memWf = true) {t : State} (ht : execOwnInFall w p s = .next t) : t.memWf = true := by
  injection ht with ht
  subst ht
  repeat' first
    | with_reducible assumption
    | split
    | with_reducible refine State.chip_wf _ _ ?_
    | with_reducible refine State.onUp_wf _ _ _ (fun c h => ?_) ?_
    | with_reducible refine Chip.peerReleases_wf _ _ ?_
    | simp only [↓Chip.mem_mk, Stores.eta, Chip.mem_parts]

theorem execOwnInRise_wf (w : Twin) (p : Fin 6) (s : State) (hw : s.memWf = true) {t : State} (ht : execOwnInRise w p s = .next t) : t.memWf = true :=
  State.memWf_of_memP (execOwnInRise_keep w p s (State.memP_of_memWf hw) ht)

theorem execTwinDeadNFall_wf (w : Twin) (s : State) (hw : s.memWf = true) {t : State} (ht : execTwinDeadNFall w s = .next t) : t.memWf = true := by
  injection ht with ht
  subst ht
  repeat' first
    | with_reducible assumption
    | split
    | with_reducible refine State.chip_wf _ _ ?_
    | with_reducible refine State.onUp_wf _ _ _ (fun c h => ?_) ?_
    | with_reducible refine Chip.peerStopped_wf _ ?_
    | simp only [↓Chip.mem_mk, Stores.eta, Chip.mem_parts]

theorem execTwinDeadNRise_wf (w : Twin) (s : State) (hw : s.memWf = true) {t : State} (ht : execTwinDeadNRise w s = .next t) : t.memWf = true :=
  State.memWf_of_memP (execTwinDeadNRise_keep w s (State.memP_of_memWf hw) ht)

theorem execGuardMet_wf (w : Twin) (p : Fin 6) (s : State) (hw : s.memWf = true) {t : State} (ht : execGuardMet w p s = .next t) : t.memWf = true :=
  State.memWf_of_memP (execGuardMet_keep w p s (State.memP_of_memWf hw) ht)

theorem execTakeoverLinkL0_wf (w : Twin) (h : Fin 24) (ns : Nat) (s : State) (hw : s.memWf = true) {t : State} (ht : execTakeoverLinkL0 w h ns s = .next t) : t.memWf = true :=
  State.memWf_of_memP (execTakeoverLinkL0_keep w h ns s (State.memP_of_memWf hw) ht)

theorem execFailstopNow_wf (w : Twin) (rq : Requester) (s : State) (hw : s.memWf = true) {t : State} (ht : execFailstopNow w rq s = .next t) : t.memWf = true :=
  State.memWf_of_memP (execFailstopNow_keep w rq s (State.memP_of_memWf hw) ht)

theorem execFenceInFall_wf (w : Twin) (s : State) (hw : s.memWf = true) {t : State} (ht : execFenceInFall w s = .next t) : t.memWf = true := by
  injection ht with ht
  subst ht
  repeat' first
    | with_reducible assumption
    | split
    | with_reducible refine State.chip_wf _ _ ?_
    | with_reducible refine State.mapChip_wf _ _ _ (fun c h => ?_) ?_
    | with_reducible refine Chip.inReset_wf _ _ ?_
    | simp only [↓Chip.put_mem, ↓Chip.mem_mk, Stores.eta, Chip.mem_parts]

theorem execFenceInRise_wf (w : Twin) (s : State) (hw : s.memWf = true) {t : State} (ht : execFenceInRise w s = .next t) : t.memWf = true :=
  State.memWf_of_memP (execFenceInRise_keep w s (State.memP_of_memWf hw) ht)

theorem execFenceRelease_wf (w : Twin) (rq : Requester) (s : State) (hw : s.memWf = true) {t : State} (ht : execFenceRelease w rq s = .next t) : t.memWf = true :=
  State.memWf_of_memP (execFenceRelease_keep w rq s (State.memP_of_memWf hw) ht)

theorem execHandoverRetry_wf (p : Fin 6) (s : State) (hw : s.memWf = true) {t : State} (ht : execHandoverRetry p s = .next t) : t.memWf = true :=
  State.memWf_of_memP (execHandoverRetry_keep p s (State.memP_of_memWf hw) ht)

theorem execTakeoverDrill_wf (rq : Requester) (s : State) (hw : s.memWf = true) {t : State} (ht : execTakeoverDrill rq s = .next t) : t.memWf = true :=
  State.memWf_of_memP (execTakeoverDrill_keep rq s (State.memP_of_memWf hw) ht)

theorem execDrillReturn_wf (s : State) (hw : s.memWf = true) {t : State} (ht : execDrillReturn s = .next t) : t.memWf = true :=
  State.memWf_of_memP (execDrillReturn_keep s (State.memP_of_memWf hw) ht)

theorem execStartDrill_wf (h : Fin 24) (port : Nat) (s : State) (hw : s.memWf = true) {t : State} (ht : execStartDrill h port s = .next t) : t.memWf = true :=
  State.memWf_of_memP (execStartDrill_keep h port s (State.memP_of_memWf hw) ht)

theorem execSoloWaitExpiry_wf (w : Twin) (pulseEdge : Bool) (s : State) (hw : s.memWf = true) {t : State} (ht : execSoloWaitExpiry w pulseEdge s = .next t) :
    t.memWf = true :=
  State.memWf_of_memP (execSoloWaitExpiry_keep w pulseEdge s (State.memP_of_memWf hw) ht)

theorem execForceAlone_wf (w : Twin) (rq : Requester) (s : State) (hw : s.memWf = true) {t : State} (ht : execForceAlone w rq s = .next t) :
    t.memWf = true :=
  State.memWf_of_memP (execForceAlone_keep w rq s (State.memP_of_memWf hw) ht)

theorem execResyncConfigDone_wf (s : State) (hw : s.memWf = true) {t : State} (ht : execResyncConfigDone s = .next t) : t.memWf = true := by
  injection ht with ht
  subst ht
  repeat' first
    | with_reducible assumption
    | split
    | with_reducible refine State.chip_wf _ _ ?_
    | with_reducible refine State.mapChip_wf _ _ _ (fun c h => ?_) ?_
    | with_reducible refine Chip.discardExtent_wf _ _ ?_
    | with_reducible refine Chip.wipeCopy_wf _ ?_
    | with_reducible refine Chip.takePlacement_wf _ _ ?_
    | with_reducible refine Chip.foldl_wf _ (fun c x h => ?_) _ _ ?_
    | with_reducible refine State.foldl_wf _ (fun s x h => ?_) _ _ ?_
    | simp only [↓Chip.put_mem, ↓Chip.showResync_mem, ↓Chip.markChange_mem, ↓Chip.activate_mem, ↓Chip.mem_mk, Stores.eta, Chip.mem_parts]

theorem execResyncFrontDone_wf (s : State) (hw : s.memWf = true) {t : State} (ht : execResyncFrontDone s = .next t) : t.memWf = true :=
  State.memWf_of_memP (execResyncFrontDone_keep s (State.memP_of_memWf hw) ht)

theorem execResyncBackDone_wf (s : State) (hw : s.memWf = true) {t : State} (ht : execResyncBackDone s = .next t) : t.memWf = true :=
  State.memWf_of_memP (execResyncBackDone_keep s (State.memP_of_memWf hw) ht)

theorem execResyncFinish_wf (s : State) (hw : s.memWf = true) {t : State} (ht : execResyncFinish s = .next t) : t.memWf = true :=
  State.memWf_of_memP (execResyncFinish_keep s (State.memP_of_memWf hw) ht)

theorem execResyncCapacityRefuse_wf (s : State) (hw : s.memWf = true) {t : State} (ht : execResyncCapacityRefuse s = .next t) : t.memWf = true :=
  State.memWf_of_memP (execResyncCapacityRefuse_keep s (State.memP_of_memWf hw) ht)

theorem execExtentCopyApply_wf (s : State) (hw : s.memWf = true) {t : State} (ht : execExtentCopyApply s = .next t) : t.memWf = true :=
  State.memWf_of_memP (execExtentCopyApply_keep s (State.memP_of_memWf hw) ht)

theorem execExtentCopyDone_wf (extent : Nat) (s : State) (hw : s.memWf = true) {t : State} (ht : execExtentCopyDone extent s = .next t) :
    t.memWf = true := by
  injection ht with ht
  subst ht
  split
  · exact hw
  · simp only []
    split
    · exact hw
    · split
      · exact hw
      · split
        · exact hw
        · rename_i j _ _ _ _ _ d hd
          have hdw : d.mem.wf = true := by
            split at hd
            · cases hd
              exact State.chip_wf s _ hw
            · exact Chip.placeContent_wf _ _ _ _ hd (State.chip_wf s _ hw)
          refine State.mapBoth_wf _ _ (fun c hc => ?_) (State.setChip_wf s _ d hdw hw)
          rw [Chip.endCopy_mem]
          exact hc

theorem execSpeakerEndpointStarted_wf (w : Twin) (s : State) (hw : s.memWf = true) {t : State} (ht : execSpeakerEndpointStarted w s = .next t) : t.memWf = true :=
  State.memWf_of_memP (execSpeakerEndpointStarted_keep w s (State.memP_of_memWf hw) ht)

theorem execEnvFill_wf (w : Twin) (s : State) (hw : s.memWf = true) {t : State} (ht : execEnvFill w s = .next t) : t.memWf = true :=
  State.memWf_of_memP (execEnvFill_keep w s (State.memP_of_memWf hw) ht)

theorem execEnvFrame_wf (w : Twin) (s : State) (hw : s.memWf = true) {t : State} (ht : execEnvFrame w s = .next t) : t.memWf = true :=
  State.memWf_of_memP (execEnvFrame_keep w s (State.memP_of_memWf hw) ht)

theorem execEnvPostmark_wf (w : Twin) (s : State) (hw : s.memWf = true) {t : State} (ht : execEnvPostmark w s = .next t) : t.memWf = true :=
  State.memWf_of_memP (execEnvPostmark_keep w s (State.memP_of_memWf hw) ht)

theorem execEnvFetch_wf (w : Twin) (s : State) (hw : s.memWf = true) {t : State} (ht : execEnvFetch w s = .next t) : t.memWf = true :=
  State.memWf_of_memP (execEnvFetch_keep w s (State.memP_of_memWf hw) ht)

theorem execEnvRepair_wf (w : Twin) (outcome : ReadOutcome) (s : State) (hw : s.memWf = true) {t : State} (ht : execEnvRepair w outcome s = .next t) : t.memWf = true := by
  injection ht with ht
  subst ht
  repeat' first
    | with_reducible assumption
    | split
    | with_reducible refine State.receive_wf _ _ _ _ (fun b s h => ?_) ?_
    | with_reducible refine State.mapChip_wf _ _ _ (fun c h => ?_) ?_
    | with_reducible refine Chip.takeRepair_wf _ _ _ ?_
    | simp only [↓Chip.serveRepair_mem, ↓Chip.send_mem, ↓Chip.takeEntry_mem, ↓Chip.mem_mk, Stores.eta, Chip.mem_parts]

theorem execEnvBridge_wf (w : Twin) (s : State) (hw : s.memWf = true) {t : State} (ht : execEnvBridge w s = .next t) : t.memWf = true :=
  State.memWf_of_memP (execEnvBridge_keep w s (State.memP_of_memWf hw) ht)

theorem execEnvEvent_wf (w : Twin) (s : State) (hw : s.memWf = true) {t : State} (ht : execEnvEvent w s = .next t) : t.memWf = true :=
  State.memWf_of_memP (execEnvEvent_keep w s (State.memP_of_memWf hw) ht)

theorem execEnvControl_wf (w : Twin) (s : State) (hw : s.memWf = true) {t : State} (ht : execEnvControl w s = .next t) : t.memWf = true :=
  State.memWf_of_memP (execEnvControl_keep w s (State.memP_of_memWf hw) ht)

theorem execEnvResync_wf (w : Twin) (s : State) (hw : s.memWf = true) {t : State} (ht : execEnvResync w s = .next t) : t.memWf = true :=
  State.memWf_of_memP (execEnvResync_keep w s (State.memP_of_memWf hw) ht)

theorem execEnvelopeReject_wf (w : Twin) (badTag : Bool) (s : State) (hw : s.memWf = true) {t : State} (ht : execEnvelopeReject w badTag s = .next t) : t.memWf = true :=
  State.memWf_of_memP (execEnvelopeReject_keep w badTag s (State.memP_of_memWf hw) ht)

theorem execAuthFail_wf (w : Twin) (s : State) (hw : s.memWf = true) {t : State} (ht : execAuthFail w s = .next t) : t.memWf = true :=
  State.memWf_of_memP (execAuthFail_keep w s (State.memP_of_memWf hw) ht)

theorem execDoubleLoss_wf (w : Twin) (lane : Fin 18) (s : State) (hw : s.memWf = true) {t : State} (ht : execDoubleLoss w lane s = .next t) : t.memWf = true :=
  State.memWf_of_memP (execDoubleLoss_keep w lane s (State.memP_of_memWf hw) ht)

theorem execCxkTrainingDone_wf (w : Twin) (locked : BitVec 18) (delayNs : Nat) (authentic : Bool) (s : State) (hw : s.memWf = true) {t : State} (ht : execCxkTrainingDone w locked delayNs authentic s = .next t) : t.memWf = true :=
  State.memWf_of_memP (execCxkTrainingDone_keep w locked delayNs authentic s (State.memP_of_memWf hw) ht)

theorem execCxkTrainingRetry_wf (w : Twin) (s : State) (hw : s.memWf = true) {t : State} (ht : execCxkTrainingRetry w s = .next t) : t.memWf = true :=
  State.memWf_of_memP (execCxkTrainingRetry_keep w s (State.memP_of_memWf hw) ht)

theorem execLaneLockLoss_wf (w : Twin) (lane : Fin 18) (s : State) (hw : s.memWf = true) {t : State} (ht : execLaneLockLoss w lane s = .next t) : t.memWf = true :=
  State.memWf_of_memP (execLaneLockLoss_keep w lane s (State.memP_of_memWf hw) ht)

theorem execLaneSwap_wf (w : Twin) (lane spare : Fin 18) (s : State) (hw : s.memWf = true) {t : State} (ht : execLaneSwap w lane spare s = .next t) : t.memWf = true :=
  State.memWf_of_memP (execLaneSwap_keep w lane spare s (State.memP_of_memWf hw) ht)

theorem execRekey_wf (w : Twin) (s : State) (hw : s.memWf = true) {t : State} (ht : execRekey w s = .next t) : t.memWf = true :=
  State.memWf_of_memP (execRekey_keep w s (State.memP_of_memWf hw) ht)

theorem execWriteWm_wf (w : Twin) (s : State) (hw : s.memWf = true) {t : State} (ht : execWriteWm w s = .next t) : t.memWf = true :=
  State.memWf_of_memP (execWriteWm_keep w s (State.memP_of_memWf hw) ht)

theorem execTapWm_wf (w : Twin) (s : State) (hw : s.memWf = true) {t : State} (ht : execTapWm w s = .next t) : t.memWf = true :=
  State.memWf_of_memP (execTapWm_keep w s (State.memP_of_memWf hw) ht)

theorem execDrainWm_wf (w : Twin) (s : State) (hw : s.memWf = true) {t : State} (ht : execDrainWm w s = .next t) : t.memWf = true :=
  State.memWf_of_memP (execDrainWm_keep w s (State.memP_of_memWf hw) ht)

theorem execOrderAccess_wf (w : Twin) (s : State) (hw : s.memWf = true) {t : State} (ht : execOrderAccess w s = .next t) : t.memWf = true :=
  State.memWf_of_memP (execOrderAccess_keep w s (State.memP_of_memWf hw) ht)

theorem execOrderSweep_wf (w : Twin) (s : State) (hw : s.memWf = true) {t : State} (ht : execOrderSweep w s = .next t) : t.memWf = true :=
  State.memWf_of_memP (execOrderSweep_keep w s (State.memP_of_memWf hw) ht)

theorem execOrderVictim_wf (w : Twin) (s : State) (hw : s.memWf = true) {t : State} (ht : execOrderVictim w s = .next t) : t.memWf = true :=
  State.memWf_of_memP (execOrderVictim_keep w s (State.memP_of_memWf hw) ht)

theorem execOrderHandoff_wf (w : Twin) (s : State) (hw : s.memWf = true) {t : State} (ht : execOrderHandoff w s = .next t) : t.memWf = true :=
  State.memWf_of_memP (execOrderHandoff_keep w s (State.memP_of_memWf hw) ht)

theorem execRecAlias_wf (w : Twin) (s : State) (hw : s.memWf = true) {t : State} (ht : execRecAlias w s = .next t) : t.memWf = true :=
  State.memWf_of_memP (execRecAlias_keep w s (State.memP_of_memWf hw) ht)

theorem execRecHold_wf (w : Twin) (s : State) (hw : s.memWf = true) {t : State} (ht : execRecHold w s = .next t) : t.memWf = true :=
  State.memWf_of_memP (execRecHold_keep w s (State.memP_of_memWf hw) ht)

theorem execHoldRelease_wf (w : Twin) (s : State) (hw : s.memWf = true) {t : State} (ht : execHoldRelease w s = .next t) : t.memWf = true :=
  State.memWf_of_memP (execHoldRelease_keep w s (State.memP_of_memWf hw) ht)

theorem execCarbonLaneFlit_wf (w : Twin) (h : Fin 24) (hostAck : Nat) (decoded : Bool) (s : State) (hw : s.memWf = true) {t : State} (ht : execCarbonLaneFlit w h hostAck decoded s = .next t) : t.memWf = true :=
  State.memWf_of_memP (execCarbonLaneFlit_keep w h hostAck decoded s (State.memP_of_memWf hw) ht)

theorem execRegisterWrite_wf (w : Twin) (rq : Requester) (x : PageWrite) (s : State) (hw : s.memWf = true) {t : State} (ht : execRegisterWrite w rq x s = .next t) : t.memWf = true := by
  injection ht with ht
  subst ht
  repeat' first
    | with_reducible assumption
    | split
    | with_reducible refine State.writePage_wf _ _ _ _ ?_
    | simp only [↓Chip.mem_mk, Stores.eta, Chip.mem_parts]

theorem execPageEnable_wf (w : Twin) (rq : Requester) (page : Nat) (s : State) (hw : s.memWf = true) {t : State} (ht : execPageEnable w rq page s = .next t) : t.memWf = true := by
  injection ht with ht
  subst ht
  repeat' first
    | with_reducible assumption
    | split
    | with_reducible refine State.onUp_wf _ _ _ (fun c h => ?_) ?_
    | with_reducible refine Chip.writeCtrl_wf _ _ _ _ ?_
    | simp only [↓Chip.mem_mk, Stores.eta, Chip.mem_parts]

theorem execPageDisable_wf (w : Twin) (rq : Requester) (page : Nat) (s : State) (hw : s.memWf = true) {t : State} (ht : execPageDisable w rq page s = .next t) : t.memWf = true := by
  injection ht with ht
  subst ht
  repeat' first
    | with_reducible assumption
    | split
    | with_reducible refine State.onUp_wf _ _ _ (fun c h => ?_) ?_
    | with_reducible refine Chip.writeCtrl_wf _ _ _ _ ?_
    | simp only [↓Chip.mem_mk, Stores.eta, Chip.mem_parts]

theorem execPageQuiesce_wf (w : Twin) (rq : Requester) (page : Nat) (s : State) (hw : s.memWf = true) {t : State} (ht : execPageQuiesce w rq page s = .next t) : t.memWf = true := by
  injection ht with ht
  subst ht
  repeat' first
    | with_reducible assumption
    | split
    | with_reducible refine State.onUp_wf _ _ _ (fun c h => ?_) ?_
    | with_reducible refine Chip.writeCtrl_wf _ _ _ _ ?_
    | simp only [↓Chip.mem_mk, Stores.eta, Chip.mem_parts]

theorem execPageUnquiesce_wf (w : Twin) (rq : Requester) (page : Nat) (s : State) (hw : s.memWf = true) {t : State} (ht : execPageUnquiesce w rq page s = .next t) : t.memWf = true := by
  injection ht with ht
  subst ht
  repeat' first
    | with_reducible assumption
    | split
    | with_reducible refine State.onUp_wf _ _ _ (fun c h => ?_) ?_
    | with_reducible refine Chip.writeCtrl_wf _ _ _ _ ?_
    | simp only [↓Chip.mem_mk, Stores.eta, Chip.mem_parts]

theorem execSoftReset_wf (w : Twin) (rq : Requester) (page : Nat) (s : State) (hw : s.memWf = true) {t : State} (ht : execSoftReset w rq page s = .next t) : t.memWf = true := by
  injection ht with ht
  subst ht
  repeat' first
    | with_reducible assumption
    | split
    | with_reducible refine State.onUp_wf _ _ _ (fun c h => ?_) ?_
    | with_reducible refine Chip.writeCtrl_wf _ _ _ _ ?_
    | simp only [↓Chip.mem_mk, Stores.eta, Chip.mem_parts]

theorem execFreezeCfg_wf (w : Twin) (rq : Requester) (page : Nat) (s : State) (hw : s.memWf = true) {t : State} (ht : execFreezeCfg w rq page s = .next t) : t.memWf = true := by
  injection ht with ht
  subst ht
  repeat' first
    | with_reducible assumption
    | split
    | with_reducible refine State.onUp_wf _ _ _ (fun c h => ?_) ?_
    | with_reducible refine Chip.writeCtrl_wf _ _ _ _ ?_
    | simp only [↓Chip.mem_mk, Stores.eta, Chip.mem_parts]

theorem execPageCheckDone_wf (w : Twin) (page : Nat) (s : State) (hw : s.memWf = true) {t : State} (ht : execPageCheckDone w page s = .next t) : t.memWf = true := by
  injection ht with ht
  subst ht
  repeat' first
    | with_reducible assumption
    | split
    | with_reducible refine State.chip_wf _ _ ?_
    | with_reducible refine State.keysAfter_wf _ _ _ ?_
    | with_reducible refine State.onUp_wf _ _ _ (fun c h => ?_) ?_
    | with_reducible refine Chip.checkDone_wf _ _ _ _ ?_
    | simp only [↓Chip.mem_mk, Stores.eta, Chip.mem_parts]

theorem execPageDrained_wf (w : Twin) (page : Nat) (s : State) (hw : s.memWf = true) {t : State} (ht : execPageDrained w page s = .next t) : t.memWf = true :=
  State.memWf_of_memP (execPageDrained_keep w page s (State.memP_of_memWf hw) ht)

theorem execPageFault_wf (w : Twin) (page : Nat) (s : State) (hw : s.memWf = true) {t : State} (ht : execPageFault w page s = .next t) : t.memWf = true :=
  State.memWf_of_memP (execPageFault_keep w page s (State.memP_of_memWf hw) ht)

theorem execEvtStatusClear_wf (w : Twin) (rq : Requester) (page : Nat) (bits again : Word) (s : State) (hw : s.memWf = true) {t : State} (ht : execEvtStatusClear w rq page bits again s = .next t) : t.memWf = true :=
  State.memWf_of_memP (execEvtStatusClear_keep w rq page bits again s (State.memP_of_memWf hw) ht)

theorem execEvtForce_wf (w : Twin) (rq : Requester) (page : Nat) (bits : Word) (s : State) (hw : s.memWf = true) {t : State} (ht : execEvtForce w rq page bits s = .next t) : t.memWf = true :=
  State.memWf_of_memP (execEvtForce_keep w rq page bits s (State.memP_of_memWf hw) ht)

theorem execEvtEnableWrite_wf (w : Twin) (rq : Requester) (page : Nat) (bits : Word) (s : State) (hw : s.memWf = true) {t : State} (ht : execEvtEnableWrite w rq page bits s = .next t) : t.memWf = true :=
  State.memWf_of_memP (execEvtEnableWrite_keep w rq page bits s (State.memP_of_memWf hw) ht)

theorem execPeerPageRead_wf (w : Twin) (rq : Requester) (page off size : Nat) (s : State) (hw : s.memWf = true) {t : State} (ht : execPeerPageRead w rq page off size s = .next t) : t.memWf = true :=
  State.memWf_of_memP (execPeerPageRead_keep w rq page off size s (State.memP_of_memWf hw) ht)

theorem execPeerPageWrite_wf (w : Twin) (rq : Requester) (x : PageWrite) (s : State) (hw : s.memWf = true) {t : State} (ht : execPeerPageWrite w rq x s = .next t) : t.memWf = true :=
  State.memWf_of_memP (execPeerPageWrite_keep w rq x s (State.memP_of_memWf hw) ht)

theorem execPairAliasWrite_wf (w : Twin) (rq : Requester) (x : PageWrite) (s : State) (hw : s.memWf = true) {t : State} (ht : execPairAliasWrite w rq x s = .next t) : t.memWf = true :=
  State.memWf_of_memP (execPairAliasWrite_keep w rq x s (State.memP_of_memWf hw) ht)

theorem execAliasWriteApply_wf (s : State) (hw : s.memWf = true) {t : State} (ht : execAliasWriteApply s = .next t) : t.memWf = true := by
  injection ht with ht
  subst ht
  repeat' first
    | with_reducible assumption
    | split
    | with_reducible refine State.applyAliases_wf _ ?_
    | simp only [↓Chip.mem_mk, Stores.eta, Chip.mem_parts]

theorem execEnvAccess_wf (w : Twin) (s : State) (hw : s.memWf = true) {t : State} (ht : execEnvAccess w s = .next t) : t.memWf = true := by
  injection ht with ht
  subst ht
  repeat' first
    | with_reducible assumption
    | split
    | with_reducible refine State.chip_wf _ _ ?_
    | with_reducible refine State.receive_wf _ _ _ _ (fun b s h => ?_) ?_
    | with_reducible refine State.servePeer_wf _ _ _ ?_
    | simp only [↓Chip.mem_mk, Stores.eta, Chip.mem_parts]

theorem execCxlIoConfigWrite_wf (h : Fin 24) (x : IoWrite) (s : State) (hw : s.memWf = true) {t : State} (ht : execCxlIoConfigWrite h x s = .next t) : t.memWf = true := by
  injection ht with ht
  subst ht
  repeat' first
    | with_reducible assumption
    | split
    | with_reducible refine State.barWrite_wf _ _ _ _ _ ?_
    | with_reducible refine State.barRead_wf _ _ _ _ ?_
    | with_reducible refine State.ioAnswer_wf _ _ _ ?_
    | with_reducible refine State.onPort_wf _ _ _ (fun c h => ?_) ?_
    | with_reducible refine State.onHome_wf _ _ _ (fun c h => ?_) ?_
    | simp only [↓Chip.hearOther_mem, ↓Chip.ioWrite_mem, ↓Chip.mem_mk, Stores.eta, Chip.mem_parts]

theorem execTapSysbus_wf (w : Twin) (x : BusAccess) (s : State) (hw : s.memWf = true) {t : State} (ht : execTapSysbus w x s = .next t) : t.memWf = true := by
  injection ht with ht
  subst ht
  repeat' first
    | with_reducible assumption
    | split
    | with_reducible refine State.chip_wf _ _ ?_
    | with_reducible refine State.mapChip_wf _ _ _ (fun c h => ?_) ?_
    | with_reducible refine State.busAccess_wf _ _ _ ?_
    | with_reducible refine Chip.tapLoad_wf _ _ ?_
    | simp only [↓Chip.mem_mk, Stores.eta, Chip.mem_parts]

theorem execPageRead_wf (w : Twin) (x : PageMessage) (s : State) (hw : s.memWf = true) {t : State} (ht : execPageRead w x s = .next t) : t.memWf = true :=
  State.memWf_of_memP (execPageRead_keep w x s (State.memP_of_memWf hw) ht)

theorem execPageWrite_wf (w : Twin) (x : PageMessage) (s : State) (hw : s.memWf = true) {t : State} (ht : execPageWrite w x s = .next t) : t.memWf = true := by
  unfold execPageWrite at ht
  repeat' split at ht
  all_goals (injection ht with ht; subst ht)
  repeat' first
    | with_reducible assumption
    | split
    | with_reducible refine State.chip_wf _ _ ?_
    | with_reducible refine State.mapChip_wf _ _ _ (fun c h => ?_) ?_
    | with_reducible refine State.writeAlias_wf _ _ _ _ ?_
    | with_reducible refine State.writePage_wf _ _ _ _ ?_
    | with_reducible refine State.storeWord_wf _ _ _ _ _ _ _ ?_
    | simp only [↓Chip.pageAnswer_mem, ↓Chip.badAccess_mem, ↓Chip.cnt_mem, ↓Chip.mem_mk, Stores.eta, Chip.mem_parts]

theorem execFmApiCommand_wf (w : Twin) (opcode : BitVec 16) (s : State) (hw : s.memWf = true) {t : State} (ht : execFmApiCommand w opcode s = .next t) : t.memWf = true :=
  State.memWf_of_memP (execFmApiCommand_keep w opcode s (State.memP_of_memWf hw) ht)

theorem execRoundBoundary_wf (w : Twin) (x : RoundInputs) (s : State) (hw : s.memWf = true) {t : State} (ht : execRoundBoundary w x s = .next t) : t.memWf = true := by
  injection ht with ht
  subst ht
  repeat' first
    | with_reducible assumption
    | split
    | with_reducible refine State.chip_wf _ _ ?_
    | with_reducible refine State.onUp_wf _ _ _ (fun c h => ?_) ?_
    | with_reducible refine Chip.fetchLost_wf _ _ ?_
    | with_reducible refine Chip.beginRound_wf _ _ ?_
    | simp only [↓Chip.mem_mk, Stores.eta, Chip.mem_parts]

theorem execDeliveryBoundary_wf (w : Twin) (s : State) (hw : s.memWf = true) {t : State} (ht : execDeliveryBoundary w s = .next t) :
    t.memWf = true := by
  unfold execDeliveryBoundary at ht
  split at ht
  · injection ht with ht
    exact ht ▸ hw
  · injection ht with ht
    rw [← ht]
    exact State.onUp_wf _ w _ (fun c hc => Chip.endDelivery_wf c _ hc) (State.free_wf s _ hw)

theorem execJobAllowanceReached_wf (w : Twin) (late : Fin 41) (s : State) (hw : s.memWf = true) {t : State} (ht : execJobAllowanceReached w late s = .next t) : t.memWf = true := by
  injection ht with ht
  subst ht
  repeat' first
    | with_reducible assumption
    | split
    | with_reducible refine State.onUp_wf _ _ _ (fun c h => ?_) ?_
    | with_reducible refine Chip.stopAtAllowance_wf _ _ ?_
    | simp only [↓Chip.mem_mk, Stores.eta, Chip.mem_parts]

theorem execEndMark_wf (w : Twin) (late : Fin 41) (s : State) (hw : s.memWf = true) {t : State} (ht : execEndMark w late s = .next t) : t.memWf = true := by
  injection ht with ht
  subst ht
  repeat' first
    | with_reducible assumption
    | split
    | with_reducible refine State.onUp_wf _ _ _ (fun c h => ?_) ?_
    | with_reducible refine Chip.closeRound_wf _ ?_
    | with_reducible refine Chip.stopAtEnd_wf _ _ ?_
    | simp only [↓Chip.mem_mk, Stores.eta, Chip.mem_parts]

theorem execStarvePromote_wf (w : Twin) (s : State) (hw : s.memWf = true) {t : State} (ht : execStarvePromote w s = .next t) : t.memWf = true := by
  injection ht with ht
  subst ht
  repeat' first
    | with_reducible assumption
    | split
    | with_reducible refine State.onUp_wf _ _ _ (fun c h => ?_) ?_
    | with_reducible refine Chip.promoteStarved_wf _ ?_
    | simp only [↓Chip.mem_mk, Stores.eta, Chip.mem_parts]

end Sys2Proof.Machine
end

