-- ==== Sys2Proof/Laws/State.lean ====
section
/-! SUPPORT. What each update of the pair leaves: one lemma for each projection of each update. -/
namespace Sys2Proof.Machine

namespace State

@[simp] theorem chip_A (s : State) : s.chip .A = s.a := rfl
@[simp] theorem chip_B (s : State) : s.chip .B = s.b := rfl

@[simp] theorem chip_setChip_same (s : State) (w : Twin) (c : Chip) : (s.setChip w c).chip w = c := by cases w <;> rfl
@[simp] theorem chip_setChip_other (s : State) (w : Twin) (c : Chip) : (s.setChip w c).chip w.other = s.chip w.other := by cases w <;> rfl
@[simp] theorem chip_setChip_of_other (s : State) (w : Twin) (c : Chip) : (s.setChip w.other c).chip w = s.chip w := by cases w <;> rfl
theorem chip_setChip_ne (s : State) (w v : Twin) (c : Chip) (h : v ≠ w) : (s.setChip w c).chip v = s.chip v := by
  cases w <;> cases v <;> first | rfl | exact absurd rfl h
@[simp] theorem pending_setChip (s : State) (w : Twin) (c : Chip) : (s.setChip w c).pending = s.pending := by cases w <;> rfl
@[simp] theorem free_setChip (s : State) (w : Twin) (c : Chip) : (s.setChip w c).free = s.free := by cases w <;> rfl
@[simp] theorem a_setChip_B (s : State) (c : Chip) : (s.setChip .B c).a = s.a := rfl
@[simp] theorem b_setChip_A (s : State) (c : Chip) : (s.setChip .A c).b = s.b := rfl
@[simp] theorem a_setChip_A (s : State) (c : Chip) : (s.setChip .A c).a = c := rfl
@[simp] theorem b_setChip_B (s : State) (c : Chip) : (s.setChip .B c).b = c := rfl

@[simp] theorem chip_mapChip_same (s : State) (w : Twin) (f : Chip → Chip) : (s.mapChip w f).chip w = f (s.chip w) := by cases w <;> rfl
@[simp] theorem chip_mapChip_other (s : State) (w : Twin) (f : Chip → Chip) : (s.mapChip w f).chip w.other = s.chip w.other := by
  cases w <;> rfl
@[simp] theorem chip_mapChip_of_other (s : State) (w : Twin) (f : Chip → Chip) : (s.mapChip w.other f).chip w = s.chip w := by
  cases w <;> rfl
theorem chip_mapChip_ne (s : State) (w v : Twin) (f : Chip → Chip) (h : v ≠ w) : (s.mapChip w f).chip v = s.chip v :=
  chip_setChip_ne s w v _ h
@[simp] theorem pending_mapChip (s : State) (w : Twin) (f : Chip → Chip) : (s.mapChip w f).pending = s.pending := by cases w <;> rfl
@[simp] theorem free_mapChip (s : State) (w : Twin) (f : Chip → Chip) : (s.mapChip w f).free = s.free := by cases w <;> rfl

@[simp] theorem chip_mapBoth (s : State) (w : Twin) (f : Chip → Chip) : (s.mapBoth f).chip w = f (s.chip w) := by cases w <;> rfl
@[simp] theorem a_mapBoth (s : State) (f : Chip → Chip) : (s.mapBoth f).a = f s.a := rfl
@[simp] theorem b_mapBoth (s : State) (f : Chip → Chip) : (s.mapBoth f).b = f s.b := rfl
@[simp] theorem pending_mapBoth (s : State) (f : Chip → Chip) : (s.mapBoth f).pending = s.pending := rfl
@[simp] theorem free_mapBoth (s : State) (f : Chip → Chip) : (s.mapBoth f).free = s.free := rfl

/-- On a chip that runs, `onUp` applies its function. -/
theorem onUp_of_up (s : State) (w : Twin) (f : Chip → Chip) (h : (s.chip w).up = true) : s.onUp w f = s.mapChip w f := if_pos h

/-- On a chip that does not run, `onUp` leaves the pair as it is. -/
theorem onUp_of_down (s : State) (w : Twin) (f : Chip → Chip) (h : (s.chip w).up = false) : s.onUp w f = s :=
  if_neg (by rw [h]; exact Bool.false_ne_true)

@[simp] theorem chip_onUp_other (s : State) (w : Twin) (f : Chip → Chip) : (s.onUp w f).chip w.other = s.chip w.other := by
  unfold onUp
  split
  · exact chip_mapChip_other s w f
  · rfl

theorem chip_onUp_ne (s : State) (w v : Twin) (f : Chip → Chip) (h : v ≠ w) : (s.onUp w f).chip v = s.chip v := by
  unfold onUp
  split
  · exact chip_mapChip_ne s w v f h
  · rfl

@[simp] theorem pending_onUp (s : State) (w : Twin) (f : Chip → Chip) : (s.onUp w f).pending = s.pending := by
  unfold onUp
  split
  · exact pending_mapChip s w f
  · rfl

@[simp] theorem free_onUp (s : State) (w : Twin) (f : Chip → Chip) : (s.onUp w f).free = s.free := by
  unfold onUp
  split
  · exact free_mapChip s w f
  · rfl

@[simp] theorem pending_onHome (s : State) (h : Fin 24) (f : Chip → Chip) : (s.onHome h f).pending = s.pending := by
  unfold onHome
  split
  · exact pending_mapChip s _ f
  · rfl

@[simp] theorem free_onHome (s : State) (h : Fin 24) (f : Chip → Chip) : (s.onHome h f).free = s.free := by
  unfold onHome
  split
  · exact free_mapChip s _ f
  · rfl

/-- `onHome` applies its function to the chip that is home of the head's port. -/
theorem onHome_of_home (s : State) (h : Fin 24) (f : Chip → Chip) {w : Twin} (hw : s.homeOf (portOf h) = some w) :
    s.onHome h f = s.mapChip w f := by
  unfold onHome
  rw [hw]

@[simp] theorem nextFree_fst (s : State) : s.nextFree.1 = s.free := rfl
@[simp] theorem nextFree_free (s : State) : s.nextFree.2.free = s.free + 1 := rfl
@[simp] theorem nextFree_chip (s : State) (w : Twin) : s.nextFree.2.chip w = s.chip w := by cases w <;> rfl
@[simp] theorem nextFree_a (s : State) : s.nextFree.2.a = s.a := rfl
@[simp] theorem nextFree_b (s : State) : s.nextFree.2.b = s.b := rfl
@[simp] theorem nextFree_pending (s : State) : s.nextFree.2.pending = s.pending := rfl
@[simp] theorem setFree_chip (s : State) (n : Nat) (w : Twin) : State.chip { s with free := n } w = s.chip w := by cases w <;> rfl
@[simp] theorem setPending_chip (s : State) (l : List Instr) (w : Twin) : State.chip { s with pending := l } w = s.chip w := by
  cases w <;> rfl

end State

end Sys2Proof.Machine
end

