-- ==== Sys2Proof/Machine/Pins.lean ====
section
/-! DEFINITION. The levels that a chip drives on its low-speed output pins (R581, R586), each a view of the state. The serial lines (AVS, SMB,
SPD, TDO) carry the frames that commands name, and have no level here. -/
namespace Sys2Proof.Machine

/-- What a pin does to its line. -/
inductive Drive where
  | low | high | released
  deriving DecidableEq, Repr

/-- The low-speed output pins with a level of their own (R581). -/
inductive OutPin where
  | en (i : Fin 16) | ownOut (p : Fin 6) | deadN | fenceOut | pulseOut | thermtripN | seqOut | seqSync | smbAlertN
  deriving DecidableEq, Repr

/-- A push-pull output. -/
def Drive.push (b : Bool) : Drive := if b then .high else .low

/-- An open-drain output. -/
def Drive.pull (b : Bool) : Drive := if b then .low else .released

namespace Chip

/-- Whether the chip toggles TWIN_PULSE_OUT (R187): not in STARTING before alignment, nor in HELD. -/
def toggles (c : Chip) : Bool := c.up && c.mode != mHELD && (c.mode != mSTARTING || c.aligned)

/-- The level on an output pin (R182, R184 to R187, R515, R519, R520, R529, R540, R586). A pin outside the always-on domain is released while every
rail other than VDD_AON is off, in state 0 of the sequencer. A pulse output that does not toggle is low (PRESUMED, log 117). -/
def drives (c : Chip) : OutPin → Drive
  | .en i => .push ((c.get F.PSQ_EN_OUT).testBit i.val)
  | .ownOut p => .push (c.ownOut p)
  | .deadN => .pull c.pullsDead
  | .fenceOut => .push c.fenceOut
  | .pulseOut => if c.psqState = 0 then .released else .push (c.toggles && c.round % 2 == 0)
  | .thermtripN => .pull c.thm.trip
  | .seqOut => .push (c.is F.PSQ_PSQ_SEQ_OUT)
  | .seqSync => .pull (c.is F.PSQ_PSQ_SYNC_HELD)
  | .smbAlertN => .pull (decide (c.psqState ≠ 0) && c.up && c.is F.MTI_ALERT)

end Chip

end Sys2Proof.Machine
end

