-- ==== Sys2Proof/WellFormed.lean ====
section
/-! DEFINITION. Which commands are well formed: page indices, offsets and addresses lie within their windows and boundaries,
and lists have the lengths their rules give. -/
namespace Sys2Proof

/-- Whether the operands of a command lie in the ranges its rule gives them. -/
def Instr.wellFormed (i : Instr) : Bool :=
  match i with
  | .roundBoundary _ x => decide (x.quantum.length = 7)
  | .deliveryBoundary _ => true
  | .jobAllowanceReached _ _ => true
  | .endMark _ _ => true
  | .starvePromote _ => true
  | .holdupRise _ => true
  | .registerWrite _ _ x => decide (x.page < 0x1000 ∧ x.off < 0x1000)
  | .pageEnable _ _ page => decide (page < 0x1000)
  | .pageDisable _ _ page => decide (page < 0x1000)
  | .pageQuiesce _ _ page => decide (page < 0x1000)
  | .pageUnquiesce _ _ page => decide (page < 0x1000)
  | .softReset _ _ page => decide (page < 0x1000)
  | .freezeCfg _ _ page => decide (page < 0x1000)
  | .pageCheckDone _ page => decide (page < 0x1000)
  | .pageDrained _ page => decide (page < 0x1000)
  | .pageFault _ page => decide (page < 0x1000)
  | .evtStatusClear _ _ page _ _ => decide (page < 0x1000)
  | .evtForce _ _ page _ => decide (page < 0x1000)
  | .evtEnableWrite _ _ page _ => decide (page < 0x1000)
  | .peerPageRead _ _ page off _ => decide (page < 0x1000 ∧ off < 0x1000)
  | .peerPageWrite _ _ x => decide (x.page < 0x1000 ∧ x.off < 0x1000)
  | .pairAliasWrite _ _ x => decide (x.page < 0x1000 ∧ x.off < 0x1000)
  | .aliasWriteApply => true
  | .linkTrained _ _ => true
  | .linkDegradeRetry _ => true
  | .decoderCommit _ _ => true
  | .cxlIoConfigWrite _ _ => true
  | .memRd r _ => decide (r.kind = .memRd ∧ r.hpa % 64 = 0)
  | .memRdData r _ => decide (r.kind = .memRdData ∧ r.hpa % 64 = 0)
  | .memInv r _ => decide (r.kind = .memInv ∧ r.hpa % 64 = 0)
  | .memInvNt r _ => decide (r.kind = .memInvNT ∧ r.hpa % 64 = 0)
  | .memSpecRd r _ => decide (r.kind = .memSpecRd ∧ r.hpa % 64 = 0)
  | .memWr r _ => decide (r.kind = .memWr ∧ r.hpa % 64 = 0)
  | .memWrPtl r _ => decide (r.kind = .memWrPtl ∧ r.hpa % 64 = 0)
  | .birspI _ line => decide (line % 64 = 0)
  | .birspS _ line => decide (line % 64 = 0)
  | .birspE _ line => decide (line % 64 = 0)
  | .biConflict _ line => decide (line % 64 = 0)
  | .requestAdmit _ _ => true
  | .dramReadDone _ line _ _ => decide (line % 64 = 0)
  | .doeDiscovery _ index => decide (index < 256)
  | .cdatTableAccess _ entry => decide (entry < 0x10000)
  | .spdmGetVersion _ => true
  | .spdmGetCapabilities _ => true
  | .spdmNegotiateAlgorithms _ => true
  | .spdmGetDigests _ => true
  | .spdmGetCertificate _ _ _ _ => true
  | .spdmChallenge _ _ => true
  | .spdmGetMeasurements _ _ => true
  | .spdmKeyExchange _ => true
  | .spdmFinish _ _ => true
  | .spdmHeartbeat _ _ => true
  | .spdmKeyUpdate _ _ => true
  | .spdmEndSession _ _ => true
  | .spdmSetCertificate _ _ _ => true
  | .kSetGo _ _ => true
  | .getEventRecords _ _ => true
  | .clearEventRecords _ _ _ _ => true
  | .getEventInterruptPolicy _ => true
  | .setEventInterruptPolicy _ _ _ => true
  | .getFwInfo _ => true
  | .transferFw _ _ bytes => decide (bytes.length ≤ 16384)
  | .activateFw _ _ => true
  | .getTimestamp _ => true
  | .setTimestamp _ _ => true
  | .getSupportedLogs _ => true
  | .getLog _ _ _ _ => true
  | .identifyMemoryDevice _ => true
  | .getPartitionInfo _ => true
  | .getLsa _ _ _ => true
  | .setLsa _ _ _ => true
  | .getHealthInfo _ => true
  | .getAlertConfiguration _ => true
  | .setAlertConfiguration _ _ => true
  | .getShutdownState _ => true
  | .setShutdownState _ _ => true
  | .getPoisonList _ _ _ => true
  | .injectPoison _ dpa => decide (dpa % 64 = 0)
  | .clearPoison _ dpa _ => decide (dpa % 64 = 0)
  | .getScanMediaCapabilities _ _ _ => true
  | .scanMedia _ _ _ => true
  | .getScanMediaResults _ => true
  | .sanitize _ => true
  | .secureErase _ => true
  | .getPairInfo _ => true
  | .getDirtyBudget _ => true
  | .getDeadLetters _ _ => true
  | .startDrill _ port => decide (port < 256)
  | .mailboxBackgroundDone => true
  | .msixModeratorFire _ _ _ => true
  | .d0Entry _ => true
  | .gpfPhase1 _ => true
  | .gpfPhase2 _ => true
  | .gpfPhase2Done _ => true
  | .hotReset _ => true
  | .secondaryBusReset _ => true
  | .headFlr _ => true
  | .cxlReset _ => true
  | .perstAssert _ => true
  | .perstDeassert _ => true
  | .carbonAcquired _ _ _ => true
  | .acqLimitExpiry _ _ => true
  | .lostRetry _ _ => true
  | .trackLost _ _ => true
  | .flitFetch _ _ _ _ => true
  | .drainEligible _ line => decide (line % 64 = 0)
  | .drainIssue _ x => decide (x.line % 64 = 0)
  | .drainAccepted _ line _ => decide (line % 64 = 0)
  | .localStall _ _ => true
  | .ringEnableApply _ => true
  | .ringDisableApply _ => true
  | .cmdTail _ _ _ _ _ => true
  | .cmpHead _ _ _ _ _ => true
  | .postBoxCommandStart _ => true
  | .completionWrite _ => true
  | .ringNop _ _ => true
  | .ringRound _ _ => true
  | .objRegister _ _ => true
  | .objRemove _ _ => true
  | .objSetPolicy _ _ => true
  | .objQuery _ _ => true
  | .extentPromote _ _ => true
  | .extentEvict _ _ => true
  | .extentDiscard _ _ => true
  | .poolQuery _ _ => true
  | .routeLoad _ _ => true
  | .routeStart _ _ => true
  | .routeSeek _ _ => true
  | .routeStop _ _ => true
  | .routeUnload _ _ => true
  | .routeQuery _ _ => true
  | .listBlockReadDone _ _ _ => true
  | .retireDramRow _ _ => true
  | .retireFrame _ _ => true
  | .retireParcel _ _ => true
  | .ledgerQuery _ _ => true
  | .envFill _ => true
  | .envFrame _ => true
  | .envPostmark _ => true
  | .envFetch _ => true
  | .envRepair _ _ => true
  | .envBridge _ => true
  | .envAccess _ => true
  | .envEvent _ => true
  | .envControl _ => true
  | .envResync _ => true
  | .envelopeReject _ _ => true
  | .authFail _ => true
  | .doubleLoss _ _ => true
  | .writeWm _ => true
  | .tapWm _ => true
  | .drainWm _ => true
  | .orderAccess _ => true
  | .orderSweep _ => true
  | .orderVictim _ => true
  | .orderHandoff _ => true
  | .recAlias _ => true
  | .recLog _ => true
  | .recEffect _ => true
  | .recApplied _ => true
  | .recHold _ => true
  | .holdRelease _ => true
  | .gatedEffectApply => true
  | .extentCopyApply => true
  | .extentCopyDone extent => decide (extent < 0x8000000)
  | .cxkTrainingDone _ _ _ _ => true
  | .cxkTrainingRetry _ => true
  | .laneLockLoss _ _ => true
  | .laneSwap _ _ _ => true
  | .rekey _ => true
  | .peerCheck _ _ => true
  | .linkDownTimeout _ => true
  | .isolateLimitExpiry _ => true
  | .ownInFall _ _ => true
  | .ownInRise _ _ => true
  | .twinDeadNFall _ => true
  | .guardMet _ _ => true
  | .takeoverLinkL0 _ _ _ => true
  | .failstopNow _ _ => true
  | .fenceInFall _ => true
  | .fenceInRise _ => true
  | .fenceRelease _ _ => true
  | .handoverRetry _ => true
  | .takeoverDrill _ => true
  | .drillReturn => true
  | .countersignMismatch _ dpa _ _ _ _ => decide (dpa % 64 = 0)
  | .repairRequest _ dpa => decide (dpa % 64 = 0)
  | .resyncConfigDone => true
  | .resyncFrontDone => true
  | .resyncBackDone => true
  | .resyncFinish => true
  | .resyncCapacityRefuse => true
  | .speakerEndpointStarted _ => true
  | .soloWaitExpiry _ _ => true
  | .forceAlone _ _ => true
  | .snoopTimeout _ line => decide (line % 64 = 0)
  | .shadowMigrationDone _ _ => true
  | .domainWrite _ _ _ _ _ => true
  | .copyStepDone _ parcel => decide (parcel < 2 ^ 32)
  | .packStepDone _ parcel _ => decide (parcel < 2 ^ 32)
  | .frameFree _ _ => true
  | .frameZeroDone _ _ => true
  | .fillRangeDone _ _ => true
  | .translationFill _ _ _ => true
  | .mdcFillArrival _ _ => true
  | .mdcInvalidationDone _ => true
  | .mdcClean _ _ => true
  | .mdcInvalidate _ _ => true
  | .mdcCleanInvalidate _ _ => true
  | .mdcLock _ _ => true
  | .mdcUnlock _ _ => true
  | .mdcOpDone _ => true
  | .wayDisableDone _ _ => true
  | .arrayReadDone _ parcel x => decide (parcel < 2 ^ 32 ∧ x.good ≤ 32)
  | .directReadTimeout _ parcel => decide (parcel < 2 ^ 32)
  | .programDone _ _ _ _ => true
  | .eraseDone _ _ _ _ => true
  | .lunStatusTimeout _ _ _ => true
  | .nandZqCalibration _ => true
  | .patchAgeExpiry _ parcel => decide (parcel < 2 ^ 32)
  | .offlineReq _ _ _ => true
  | .onlineReq _ _ _ => true
  | .moduleSafe _ _ => true
  | .modulePresenceChange _ _ _ => true
  | .channelFailed _ _ => true
  | .modulePrepareDone _ _ _ => true
  | .rebuildDone _ _ => true
  | .formatDone _ x => decide (x.good.length = x.positions ∧ x.positions ≤ 32)
  | .pfailNFall _ => true
  | .pfailCommit _ => true
  | .pfailNRise _ => true
  | .saveDecision _ => true
  | .lonePfail _ => true
  | .graceExpiry _ => true
  | .saveSealed _ _ => true
  | .saveFailed _ => true
  | .calibrationDone _ _ _ _ _ => true
  | .sealReadDone _ _ _ => true
  | .sourceChoice _ => true
  | .metadataLoadDone _ => true
  | .restoreLoadDone _ => true
  | .checkpointCommit _ => true
  | .memoryActive => true
  | .refreshInterval _ _ _ => true
  | .refsbIssue _ _ _ _ => true
  | .refreshDone _ _ _ => true
  | .mr4Poll _ _ _ => true
  | .dramTrainingDone _ x => decide (x.length = 16)
  | .driftCheck _ _ _ _ => true
  | .dramZqStart _ _ _ => true
  | .dramZqLatch _ _ _ => true
  | .retrainDone _ _ _ _ _ _ => true
  | .srIdleExpiry _ _ => true
  | .srExitDone _ _ _ => true
  | .pprGo _ _ _ => true
  | .pprCopyDone _ _ => true
  | .pprProgramDone _ _ _ => true
  | .pprDone _ _ => true
  | .alertN _ _ => true
  | .patrolWake _ _ => true
  | .cblWindowEnd _ => true
  | .dirBankMigrateDone _ _ => true
  | .coreSpareSwap _ _ => true
  | .interruptArrival _ _ _ => true
  | .coalTimer _ _ => true
  | .fastEntry _ _ _ _ => true
  | .coreFret _ _ => true
  | .icuClaim _ _ _ => true
  | .icuComplete _ _ _ _ => true
  | .icuSwi _ _ _ => true
  | .sourceDisable _ _ _ => true
  | .targetChange _ _ _ _ => true
  | .coreWfi _ _ => true
  | .coreMtip _ _ => true
  | .lrScAmo _ _ _ _ _ _ _ => true
  | .dcflush _ _ _ => true
  | .efcProgram _ _ _ => true
  | .efcErase _ _ _ => true
  | .ptrSwap _ _ _ => true
  | .efcPulseDone _ _ _ => true
  | .activeLock _ _ => true
  | .kickChip _ _ _ _ _ => true
  | .kickCore _ _ _ _ _ => true
  | .chipWatchdogExpiry _ => true
  | .coreWatchdogWarn _ _ => true
  | .coreWatchdogReset _ _ => true
  | .wdtLockSet _ _ => true
  | .pgChange _ _ _ => true
  | .psqDelayExpiry _ => true
  | .psqTimeout _ => true
  | .seqSyncCommit _ => true
  | .syncTimeout _ => true
  | .seqInFall _ => true
  | .upSequenceStart _ => true
  | .offMinExpiry _ => true
  | .railFault _ _ => true
  | .faultShutExpiry _ => true
  | .storeCommit _ _ => true
  | .marginWrite _ _ _ _ => true
  | .throttleStep _ => true
  | .thermalTrip _ => true
  | .avsPeriod _ _ => true
  | .cpmAlarm _ _ => true
  | .avsbusFrameDone _ _ => true
  | .avsTelemetryPoll _ => true
  | .fclkStepChange _ => true
  | .smbBlockWrite _ bytes _ => decide (bytes.length ≤ 255)
  | .smbBlockRead _ _ => true
  | .smbReadByteStatus _ => true
  | .alertResponseAddress _ => true
  | .smbStartStop _ => true
  | .smbClockLowTimeout _ => true
  | .smbDataLowTimeout _ => true
  | .mctpControl _ _ => true
  | .fmApiCommand _ _ => true
  | .pageRead _ _ => true
  | .pageWrite _ _ => true
  | .alwaysOnPowerUp _ _ => true
  | .powerOnReset _ _ => true
  | .resetNAssert _ => true
  | .resetNRelease _ _ => true
  | .warmGo _ _ _ => true
  | .svnAdvance _ _ => true
  | .ownerProg _ _ => true
  | .eraseReq _ _ => true
  | .cryptoEraseDone _ _ => true
  | .closeGo _ _ => true
  | .testLogicReset _ => true
  | .tapExtest _ => true
  | .samplePreload _ => true
  | .tapIdcode _ => true
  | .tapClamp _ => true
  | .tapHighz _ => true
  | .extestPulse _ => true
  | .extestTrain _ => true
  | .tapDmi _ => true
  | .tapSysbus _ _ => true
  | .tapOverride _ _ _ _ => true
  | .tapBypass _ _ => true
  | .clockLockLoss _ => true
  | .linkLeftL0 _ _ _ => true
  | .twinDeadNRise _ => true
  | .carbonLaneFlit _ _ _ _ => true

end Sys2Proof
end

