-- ==== Sys2Proof/Tests/Slice0.lean ====
section
/-! SUPPORT. Tests: the terms that are not well formed, figures of the spec, and for every statement a case that meets the hypotheses of
each of its clauses. -/

open Sys2Proof Sys2Proof.Machine

set_option Elab.async false

/-! ## The states of the cases -/

/-- The next state that an outcome holds. -/
def nx : Host.Outcome State Fault Refusal → State
  | .next t => t
  | _ => State.reset

/-- A chip that is out of reset, every register at its reset value. -/
def upChip (w : Twin) : Chip := { Chip.fresh w with rst := { powered := true, twinId := w.id, chipSerial := w.id + 1 } }

/-- Both chips out of reset. -/
def both : State := { State.reset with a := upChip .A, b := upChip .B }

/-- A chip with fields set and applied. -/
def Sys2Proof.Machine.Chip.with' (c : Chip) (l : List (Fld × Nat)) : Chip :=
  let c := l.foldl (fun c x => c.put x.1 x.2) c
  { c with applied := c.regs }

/-- The pair with fields of chip A set. -/
def Sys2Proof.Machine.State.onA (s : State) (l : List (Fld × Nat)) : State := { s with a := s.a.with' l }

/-- The pair with fields of chip B set. -/
def Sys2Proof.Machine.State.onB (s : State) (l : List (Fld × Nat)) : State := { s with b := s.b.with' l }

/-- The Round inputs of a quiet Round. -/
def roundIn : RoundInputs := ⟨[], 0, 0, [], []⟩

/-- The pair with page `p` of chip A RUNNING. -/
def runs (p : Nat) : State := both.onA [(⟨p, 0x00C, 0, 3, false⟩, 2), (⟨p, 0x008, 0, 1, false⟩, 1)]

/-- Chip A in a Round whose job 3 has used its allowance. -/
def runningA : State :=
  { both with a := { both.a with clk := { both.a.clk with sched := { both.a.clk.sched with now := 0, running := some 3, need := [0, 0, 9999, 0, 0, 0, 0] } } } }

/-- Chip A with job 3 deferred for a full limit. -/
def starvedA : State :=
  { both with a := { both.a with clk := { both.a.clk with streak := [0, 0, 1000, 0, 0, 0, 0], sched := { both.a.clk.sched with deferred := [3] } } } }

/-- Both chips out of reset, the Coxia Link up and keyed. -/
def linked : State := (both.onA [(F.CXK_LINK_STATE, 2), (F.CXK_KEY_EPOCH, 1)]).onB [(F.CXK_LINK_STATE, 2), (F.CXK_KEY_EPOCH, 1)]

/-- A chip with envelopes on their way to its peer. -/
def Sys2Proof.Machine.Chip.sends (c : Chip) (l : List EnvBody) : Chip := l.foldl (fun c b => c.transmit b) c

/-- The pair with chip A replaced by its image under `f`. -/
def Sys2Proof.Machine.State.mapA (s : State) (f : Chip → Chip) : State := { s with a := f s.a }

/-- The pair with chip B replaced by its image under `f`. -/
def Sys2Proof.Machine.State.mapB (s : State) (f : Chip → Chip) : State := { s with b := f s.b }

/-- The pair with ports 0, 2 and 4 homed on A, 1, 3 and 5 on B, the other chip carbon of each, and the pair MIRRORED. -/
def paired : State :=
  (linked.onA ([(F.ROLE_PAIR_STATE_MODE, 1), (F.CLK_ALIGN_STATE_STATE, 2)] ++
    [0, 2, 4].flatMap fun p => [(roleFld (Fin.ofNat 6 p), 1), (roleFld (Fin.ofNat 6 (p + 1)), 2), (F.HP_PORT_STATUS_OWN_OUT p, 1),
      (F.HP_PORT_STATUS_GUARD_MET p, 1)])).onB
    ([(F.ROLE_PAIR_STATE_MODE, 1), (F.CLK_ALIGN_STATE_STATE, 2)] ++
      [0, 2, 4].flatMap fun p => [(roleFld (Fin.ofNat 6 p), 2), (roleFld (Fin.ofNat 6 (p + 1)), 1),
        (F.HP_PORT_STATUS_OWN_OUT (p + 1), 1), (F.HP_PORT_STATUS_GUARD_MET (p + 1), 1)])

/-- Fields that make a page of a chip RUNNING. -/
def starts (p : Nat) : List (Fld × Nat) := [(⟨p, 0x00C, 0, 3, false⟩, 2), (⟨p, 0x008, 0, 1, false⟩, 1)]

/-- Chip A serves alone: head 0 in L0, its decoder on a domain at DPA 0 of 256 MiB, the Sorter, the WMB and the tiers RUNNING. -/
def hosted : State :=
  (both.onA ([(F.ROLE_PAIR_STATE_MODE, 4), (roleFld 0, 1), (F.HP_PORT_STATUS_OWN_OUT 0, 1), (F.HP_PORT_STATUS_GUARD_MET 0, 1),
    (F.HLNK_LINK_LTSSM 0, 3), (F.DOM_DOMAIN_VALID 0, 1), (F.DOM_DOMAIN_SIZE_256M 0, 1), (F.RST_START_MEM_ACTIVE, 1)] ++
    starts 0x050 ++ starts 0x051 ++ starts 0x060 ++ starts 0x200)).mapA fun c =>
      c.mapHead 0 fun x => { x with decoders := [(0, { cfg := ⟨0, 2 ^ 28, 1, 256, false, 0, false⟩, committed := true })] }

/-- A request of head 0 to host address 0. -/
def ask : Request := ⟨0, .memRd, ⟨1, 0⟩, 0, BitVec.allOnes 64, 7, false, 0⟩

/-- A training that reaches 64 GT/s on eight lanes. -/
def trains : LinkTraining := ⟨5, 3, true, false, false, 0xFF, 0xFF, 0, 0, 0, 0⟩

/-- `hosted` with the line at DPA 0 in the WMB. -/
def hostedW : State := hosted.mapA fun c => { c with wmb := [(0, { state := .valid, data := 9, mask := allBytes, age := 1 })], wmbAge := 1 }

/-- `paired` with the carbon lanes of head 4 on A in tracking state `k`. -/
def tracks (k : Nat) : State := paired.mapA fun c => (c.setTrack 4 k)

/-- The pair with one DIMM of 64 GiB and four trained ranks on every channel of chip A, whose other registers lie on pages below. -/
def Sys2Proof.Machine.State.fitted (s : State) : State := s.mapA fun c =>
  let r := c.regs ++ (List.range 16).flatMap fun d => ((0x300 + 4 * d) * 4096 + 0x800, (0x00400041 : Word)) ::
    (List.range 4).map fun k => ((0x302 + 4 * d) * 4096 + 0x800 + 4 * k, 1)
  { c with regs := r, applied := r }

/-- `hosted` with its extent 0 in frame 0 of a channel of 64 GiB. -/
def framed : State := hosted.fitted.mapA fun c => { c with trm := { c.trm with ext := [(0, { state := 2, frame := some 0 })] } }

/-- A directory entry of line 0 held by head 0, which is snooped. -/
def snooped : State := hosted.mapA fun c => { c with che := { c.che with sram := [(0, { state := 2, presence := 1, owner := 0 })], snoops := [⟨0, 0, 2, true⟩] } }

/-- A read of line 0 that waits at a stage. -/
def waiting (x : Stage) : Tag := { req := ask, dpa := 0, isTag := true, stage := x }

/-- `hosted` with head 0 past the SPDM negotiation, in session 0, and a manager. -/
def spdmed : State := (hosted.onA [(F.SEC_HOST_MGR_HEADS, 1)]).mapA fun c => c.mapHead 0 fun x => { x with spdm := 3, sessions := [0], handshakes := [0] }

/-- `hosted` with ring 0 of head 0 ACTIVE, its entries at DPA 0 and 4 KiB, and command `x` in progress. -/
def ringed (x : List RingCmd) : State :=
  (hosted.onA [(F.PBX_RING_ENABLE 0, 1), (F.PBX_RING_STATUS_STATE 0, 1), (F.PBX_RING_OWNER 0, 0), (F.PBX_RING_CMD_LOG2 0, 4), (F.PBX_RING_CMP_LOG2 0, 4),
    (F.PBX_RING_CMP_BASE_LO 0, 1), (F.PBX_RING_VECTOR 0, 8), (⟨0x0B0, 0x00C, 0, 3, false⟩, 2)]).mapA fun c =>
      { c with rings := [(0, { fetched := x })], trm := { c.trm with ext := [(0, { state := 1 })], objects := [(5, { first := 16, count := 1, policy := 1 })] } }

/-- A command with operand bytes. -/
def cmd (op : Nat) (l : List (Nat × Nat)) : RingCmd :=
  ⟨0, op, 0, 9, (List.range 56).map fun i => match l.find? fun x => x.1 == i + 8 with | some x => BitVec.ofNat 8 x.2 | none => 0, true, false⟩

/-- `paired` with one envelope of chip B on its way to A. -/
def mailed (b : EnvBody) : State := paired.mapB fun c => c.transmit b

/-- The envelope that `mailed` sends. -/
def letter (b : EnvBody) : Envelope := paired.b.nextEnvelope b

/-- `paired` with one record of chip B waiting on A. -/
def record (r : PmRecord) : State := paired.mapA fun c => { c with twe := { c.twe with rxRecs := [(7, r)] } }

/-- A state frame of chip B. -/
def frameB : Frame := ⟨0, 0, 1, .B, false, false, 1, 0, 0, 0, 250, 0, 0, 0, 0, 0, 0, 0, 0, 0, 0, [], 0, 0⟩

/-- `record` on a chip that follows domain 0, a commons, with a shadow read of head 1 at DPA 0. -/
def follows (k : OrderKind) : State :=
  ((record (.order 0 1 k 16 0 0)).onA [(F.DOM_DOMAIN_VALID 0, 1), (F.DOM_DOMAIN_SIZE_256M 0, 1), (F.DOM_DOMAIN_KIND 0, 1), (F.COM_COMMONS_ARBITER 0, 1)]).mapA fun c =>
    { c.mapHead 1 fun x => { x with seenPos := some 16 } with tags := [{ req := { ask with head := 1, kind := .memRdData }, dpa := 0, isTag := false, stage := .order }] }

/-- Chip A serves alone and chip B joins it; the resync is in step `k` on both. -/
def resyncs (k : Nat) : State :=
  (linked.onA ([(F.ROLE_PAIR_STATE_MODE, 2), (F.RSY_RESYNC_STATE, k), (F.CLK_ALIGN_STATE_STATE, 2)])).onB
    [(F.ROLE_PAIR_STATE_MODE, 5), (F.RSY_RESYNC_STATE, k), (F.RSY_RESYNC_JOINER, 1), (F.CLK_ALIGN_STATE_STATE, 2)]

/-- `framed`, a promotion or eviction of its extent 0 in state `k` with parcel 0 in its step. -/
def stepping (k : Nat) : State := framed.mapA fun c =>
  { c with trm := { c.trm with ext := [(0, { state := k, frame := some 0 })], stepRunning := [0], front := [(0, 7)], packed := [(0, 9)] } }

/-- Chip A with source `i` enabled on core 0, `n` arrivals counted, and core 0 running. -/
def pends (i n : Nat) (l : List (Fld × Nat)) (f : IntSource → IntSource) : State :=
  (both.onA ([(srcFld i 0 1, 1), (srcFld i 16 8, 5)] ++ l)).mapA fun c =>
    (c.mapSrc i fun x => f { x with count := n }).mapCore 0 fun x => { x with running := true }

/-- `hosted` with chip B as the carbon of every port, MIRRORED, tracking head 0, over a working Coxia Link. -/
def mirrored : State :=
  let s := hosted.onA ([(F.ROLE_PAIR_STATE_MODE, 1), (F.CLK_ALIGN_STATE_STATE, 2), (F.CXK_LINK_STATE, 2), (F.CXK_KEY_EPOCH, 1)])
  let b : Chip := { s.a with rst := { s.a.rst with twinId := 1, chipSerial := 2 } }
  ({ s with b } : State).onB ([(roleFld 0, 2), (F.HP_PORT_STATUS_OWN_OUT 0, 0), (F.HP_PORT_STATUS_GUARD_MET 0, 0)] ++ starts 0x202) |>.mapB fun c => c.setTrack 0 2

/-- The header of an image with no body, its SHA-384 written out. -/
def emptyImage : List Byte :=
  [0x31, 0x4B, 0x48, 0x53, 1, 0, 0, 0, 2, 0, 0, 0, 0, 0, 0, 0] ++
  [0x38, 0xB0, 0x60, 0xA7, 0x51, 0xAC, 0x96, 0x38, 0x4C, 0xD9, 0x32, 0x7E, 0xB1, 0xB1, 0xE3, 0x6A, 0x21, 0xFD, 0xB7, 0x11, 0x14, 0xBE, 0x07, 0x43] ++
  [0x4C, 0x0C, 0xC7, 0xBF, 0x63, 0xF6, 0xE1, 0xDA, 0x27, 0x4E, 0xDE, 0xBF, 0xE7, 0x6F, 0x65, 0xFB, 0xD5, 0x1A, 0xD2, 0xF1, 0x48, 0x98, 0xB9, 0x5B]

/-- A chip whose two slots hold that image. -/
def Sys2Proof.Machine.Chip.imaged (c : Chip) : Chip :=
  [0, bankSize].foldl (fun c base => (emptyImage.zipIdx).foldl
    (fun c x => { c with efc := { c.efc with bytes := Table.set (fun _ => 0xFF) c.efc.bytes (base + x.2) x.1 } }) c) c

/-! ## Commands that are not well formed -/

/-- Every check of `Instr.wellFormed` refuses a term that breaks it. -/
theorem wellFormed_refuses : (([.roundBoundary .A ⟨[0], 0, 0, [], []⟩, .registerWrite .A (.coreM 0) ⟨0x1000, 0, 4, 0⟩,
    .registerWrite .A (.coreM 0) ⟨0, 0x1000, 4, 0⟩, .pageEnable .A (.coreM 0) 0x1000, .pageDisable .A (.coreM 0) 0x1000,
    .pageQuiesce .A (.coreM 0) 0x1000, .pageUnquiesce .A (.coreM 0) 0x1000, .softReset .A (.coreM 0) 0x1000, .freezeCfg .A (.coreM 0) 0x1000,
    .pageCheckDone .A 0x1000, .pageDrained .A 0x1000, .pageFault .A 0x1000, .evtStatusClear .A (.coreM 0) 0x1000 0 0,
    .evtForce .A (.coreM 0) 0x1000 0, .evtEnableWrite .A (.coreM 0) 0x1000 0, .peerPageRead .A (.coreM 0) 0x1000 0 4,
    .peerPageRead .A (.coreM 0) 0 0x1000 4, .peerPageWrite .A (.coreM 0) ⟨0x1000, 0, 4, 0⟩, .peerPageWrite .A (.coreM 0) ⟨0, 0x1000, 4, 0⟩,
    .pairAliasWrite .A (.coreM 0) ⟨0x1000, 0, 4, 0⟩, .pairAliasWrite .A (.coreM 0) ⟨0, 0x1000, 4, 0⟩] : List Instr).all
      fun c => !c.wellFormed) = true := by decide +kernel

/-- The same for the requests of the heads, their lines and their messages. -/
theorem wellFormed_refuses_requests : (([.memRd { ask with kind := .memWr } ⟨true, 0⟩, .memRd { ask with hpa := 1 } ⟨true, 0⟩,
    .memRdData ask ⟨true, 0⟩, .memRdData { ask with kind := .memRdData, hpa := 1 } ⟨true, 0⟩, .memInv ask ⟨true, 0⟩,
    .memInv { ask with kind := .memInv, hpa := 1 } ⟨true, 0⟩, .memInvNt ask ⟨true, 0⟩, .memInvNt { ask with kind := .memInvNT, hpa := 1 } ⟨true, 0⟩,
    .memSpecRd ask true, .memSpecRd { ask with kind := .memSpecRd, hpa := 1 } true, .memWr ask ⟨true, 0⟩,
    .memWr { ask with kind := .memWr, hpa := 1 } ⟨true, 0⟩, .memWrPtl ask ⟨true, 0⟩, .memWrPtl { ask with kind := .memWrPtl, hpa := 1 } ⟨true, 0⟩,
    .birspI 0 1, .birspS 0 1, .birspE 0 1, .biConflict 0 1, .dramReadDone .A 1 0 0, .doeDiscovery 0 256, .cdatTableAccess 0 0x10000,
    .transferFw 0 0 (List.replicate 16385 0), .injectPoison 0 1, .clearPoison 0 1 0, .startDrill 0 256] : List Instr).all
      fun c => !c.wellFormed) = true := by decide +kernel

/-- The same for the commands of the buffer, the twin, the tiers, the media and the board. -/
theorem wellFormed_refuses_others : (([.drainEligible .A 1, .drainIssue .A ⟨1, true⟩, .drainAccepted .A 1 0, .extentCopyDone 0x8000000,
    .countersignMismatch .A 1 true true 0 0, .repairRequest .A 1, .snoopTimeout 0 1, .copyStepDone .A (2 ^ 32), .packStepDone .A (2 ^ 32) true,
    .arrayReadDone .A (2 ^ 32) ⟨28, 0, 0, 0, [], 0, true, 0, 0⟩, .arrayReadDone .A 0 ⟨33, 0, 0, 0, [], 0, true, 0, 0⟩,
    .directReadTimeout .A (2 ^ 32), .patchAgeExpiry .A (2 ^ 32), .formatDone .A ⟨16, 2, [5], 1, 3000, 60000, 500, 8, 1000, 4, 60, 600, 0, 0, 0, 1872, true, true⟩,
    .formatDone .A ⟨16, 33, List.replicate 33 5, 1, 3000, 60000, 500, 8, 1000, 4, 60, 600, 0, 0, 0, 1872, true, true⟩, .dramTrainingDone .A [],
    .smbBlockWrite .A (List.replicate 256 0) none] : List Instr).all fun c => !c.wellFormed) = true := by decide +kernel

/-! ## Figures of the spec -/

/-- The check value of R61. -/
theorem test_crc16_check_value : crc16 [0x31, 0x32, 0x33, 0x34, 0x35, 0x36, 0x37, 0x38, 0x39] = 0x29B1 := by decide +kernel

/-- The worked address of MAP_A after R416. -/
theorem test_map_a_example : dramPlace 0 1 0x1234567880 = ⟨11, 0, 7, 0, 0x1234, 0x5B⟩ := by decide +kernel

/-- R63's worked example: the budgets pass 3,560 ns with the last of them, and the page is REFUSED with BUDGET at +0x128. -/
theorem test_budget_refused : let c := (nx (execPageCheckDone .A 0x000
      ((both.onA [(F.CLK_BUDGET_ROUTE_NS, 1200), (⟨0x000, 0x00C, 0, 3, false⟩, 1), (⟨0x000, 0x008, 0, 1, false⟩, 1)]).mapA fun c =>
        { c with clk := { c.clk with round := 2 } }))).a
    c.pageState 0x000 = 3 ∧ bitsOf (c.rd 0x000 0x00C) 8 8 = 0x0B ∧ bitsOf (c.rd 0x000 0x00C) 16 12 = 0x128 := by decide +kernel

/-- Chip A with the two domains of the example after R78, and decoder 0 of head 8 committed on the first. -/
def twoDomains : Chip :=
  let c := (hosted.onA [(F.DOM_DOMAIN_VALID 3, 1), (F.DOM_DOMAIN_BASE_256M 3, 256), (F.DOM_DOMAIN_SIZE_256M 3, 2048), (F.DOM_DOMAIN_OWNER 3, 8),
    (F.DOM_DOMAIN_VALID 7, 1), (F.DOM_DOMAIN_BASE_256M 7, 4096), (F.DOM_DOMAIN_SIZE_256M 7, 1024), (F.DOM_DOMAIN_KIND 7, 1),
    (F.COM_COMMONS_HEADS 7, 0x4500), (F.HLNK_LINK_FLIT 8, 1)]).a
  c.mapHead 8 fun x => { x with decoders := [(0, { cfg := ⟨2 ^ 38, 2 ^ 39, 1, 256, false, 2 ^ 36, false⟩, committed := true })] }

/-- The chip of the example with decoder 1 programmed and its commit asked. -/
def commits (bi : Bool) (skip : Nat) : Chip :=
  (twoDomains.mapHead 8 fun x => { x with decoders := x.decoders ++ [(1, { cfg := ⟨2 ^ 40, 2 ^ 38, 1, 256, bi, skip, false⟩ })] }).commitDecoder 8 1

/-- The example after R78: the first commit of decoder 1 fails with reason 1, the corrected one with 3, and with BI set it commits. -/
theorem test_decoder_example : (commits false 0x6000000000).get (F.HCFG_LAST_DEC_ERR_REASON 8) = 1 ∧
    (commits false 0x6000000000).get (F.HCFG_LAST_DEC_ERR_DECODER 8) = 1 ∧
    (commits false 0x7000000000).get (F.HCFG_LAST_DEC_ERR_REASON 8) = 3 ∧
    ((commits true 0x7000000000).decoder 8 1).committed = true := by decide +kernel

/-- R51: a bit of EVT_STATUS that is written 1 is cleared, and no other. -/
theorem test_evt_status_clear : (nx (execEvtStatusClear .A (.coreM 0) 0x060 1 0 (both.onA [(⟨0x060, 0x010, 0, 32, false⟩, 3)]))).a.rd 0x060 0x010 = 2 := by
  decide +kernel

/-- R46: the page index 0x170 has no page behind it. -/
theorem test_unbacked_page : blockOf 0x170 = 0 ∧ (both.a.takePage (.coreM 0) 0x170 0x000 4).2 = 0 := by decide +kernel

/-- R481: an AMO adds in local memory with wrap at its width, and the old value goes to rd. -/
theorem test_amo_add_wraps : let c := (nx (execLrScAmo .A 0 .add 0x08000008 3 1 true
      ((pends 0x3D1 0 [] id).mapA fun c => c.mapCore 0 fun x => { x with scratch := (List.range 8).map fun i => (8 + i, 0xFF) }))).a
    (c.core 0).scratch = [] ∧ c.coreReg 0 3 = BitVec.allOnes 64 := by decide +kernel

/-- R481: an unaligned AMO raises a store address misaligned exception. -/
theorem test_amo_misaligned : ((nx (execLrScAmo .A 0 .add 0x08000009 3 1 true (pends 0x3D1 0 [] id))).a.core 0).mcause = 6 := by decide +kernel

/-- R561: fuses are blown up to the image's SVN. -/
theorem test_svn_advances : (nx (execSvnAdvance .A (.coreM 0) (both.mapA fun c => { c with rst := { c.rst with imageSvn := 5 } }))).a.sec.svn = 5 := by
  decide +kernel

/-- The queue of commands is empty after power-up. -/
theorem test_reset_queue : State.reset.pending = [] := rfl

/-! ## The pair of a resync has equal digests -/

/-- The stored words of both chips as the resync begins. -/
theorem resyncs_regs : (resyncs 1).a.regs = [(2052, 2), (460804, 2), (473088, 1), (526336, 2), (526352, 1)] ∧
    (resyncs 1).b.regs = [(2052, 2), (460804, 5), (473088, 0x101), (526336, 2), (526352, 1)] := by decide +kernel

/-- The digests of both chips agree as the resync begins. -/
theorem resyncs_digests : (pairPages.all fun p => ((resyncs 1).chip .A).pageDigest p == ((resyncs 1).chip .B).pageDigest p) = true := by
  refine digests_agree _ _ [0x70, 0x73] (fun k hk => ?_) (by decide +kernel)
  have h1 : k ≠ 460804 := fun h => hk (by simp [h])
  have h2 : k ≠ 473088 := fun h => hk (by simp [h])
  show (resyncs 1).a.regs.get resetKey k = (resyncs 1).b.regs.get resetKey k
  rw [resyncs_regs.1, resyncs_regs.2]
  simp only [Table.get, if_neg h1, if_neg h2]

/-! ## Cases of the statements -/

/-- The queue is empty after power-up, and a step answers. -/
theorem witness_QueueRule : (∃ s : State, s.pending = []) ∧ ∃ s t : State, step s = .next t :=
  ⟨⟨State.reset, rfl⟩, State.reset, State.reset, rfl⟩

/-- A state with canonical memories that steps. -/
theorem witness_StepKeepsMemoryCanonical : ∃ s t : State, s.memWf = true ∧ step s = .next t :=
  ⟨State.reset, State.reset, by decide +kernel, rfl⟩

/-- A command that stores nothing. -/
theorem witness_StoringNothingKeepsMemory : ∃ (c : Instr) (s t : State), c.mayStore = false ∧ exec c s = .next t :=
  ⟨.holdupRise .A, State.reset, _, rfl, rfl⟩

theorem witness_RoundCommandsComplete :
    (∃ (w : Twin) (x : RoundInputs) (s : State), (s.chip w).up = true) ∧
    (∃ (w : Twin) (late : Fin 41) (j : Nat) (s : State), (s.chip w).up = true ∧ (s.chip w).clk.sched.running = some j ∧ (s.chip w).meetsAllowance j = true ∧ (s.chip w).clk.sched.left = [] ∧ ((s.chip w).allowance j).toNat + late.val < (s.chip w).needOf j) ∧
    (∃ (w : Twin) (late : Fin 41) (s : State), (s.chip w).up = true) ∧
    (∃ (w : Twin) (j : Nat) (s : State), (s.chip w).up = true ∧ (s.chip w).jobsGoOn = false ∧ (s.chip w).clk.promote = none ∧ (s.chip w).closeRound.starved = some j) ∧
    (∃ (w : Twin) (s : State), (s.chip w).up = true ∧ (s.chip w).clk.deliveryN ≤ (s.chip w).clk.deliveryRound) :=
  ⟨⟨.A, roundIn, both, by decide +kernel⟩,
    ⟨.A, 0, 3, runningA, by decide +kernel⟩,
    ⟨.A, 0, both, by decide +kernel⟩,
    ⟨.A, 3, starvedA, by decide +kernel⟩,
    ⟨.A, { both with a := { both.a with clk := { both.a.clk with deliveryRound := 250 } } }, by decide +kernel⟩⟩

theorem witness_PageStatesComplete :
    (∃ (w : Twin) (rq : Requester) (page : Nat) (s : State), (s.chip w).up = true ∧ blockOf page ≠ 0 ∧ (s.chip w).mayWrite rq page = true ∧ (s.chip w).pageState page = 0) ∧
    (∃ (w : Twin) (rq : Requester) (page : Nat) (s : State), (s.chip w).up = true ∧ blockOf page ≠ 0 ∧ (s.chip w).mayWrite rq page = true ∧ (s.chip w).pageState page = 2 ∧ (s.chip w).stopCode page = 0 ∧ ((s.chip w).rd page 0x008).getLsbD 1 = false) ∧
    (∃ (w : Twin) (rq : Requester) (page : Nat) (s : State), (s.chip w).up = true ∧ blockOf page ≠ 0 ∧ (s.chip w).mayWrite rq page = true ∧ (s.chip w).pageState page = 2 ∧ ((s.chip w).rd page 0x008).getLsbD 0 = true ∧ (page = 0x0D0 → (s.chip w).memActive = false)) ∧
    (∃ (w : Twin) (rq : Requester) (page : Nat) (s : State), (s.chip w).up = true ∧ blockOf page ≠ 0 ∧ (s.chip w).mayWrite rq page = true ∧ (s.chip w).pageState page = 4 ∧ ((s.chip w).rd page 0x008).getLsbD 0 = true) ∧
    (∃ (w : Twin) (rq : Requester) (page : Nat) (s : State), (s.chip w).up = true ∧ blockOf page ≠ 0 ∧ (s.chip w).mayWrite rq page = true ∧ (s.chip w).pageState page = 0 ∧ ((s.chip w).rd page 0x008).getLsbD 0 = false) ∧
    (∃ (w : Twin) (page : Nat) (s : State), (s.chip w).up = true ∧ (s.chip w).pageState page = 1 ∧ ((s.chip w).rd page 0x008).getLsbD 0 = true ∧ (s.chip w).checkStages page = none ∧ (pairScope page = true → s.compares w = true → (s.chip w).stageTwin (s.chip w.other) page = none) ∧ (s.chip w).checks.get (fun _ => 0) page + 2 ≤ (s.chip w).round ∧ (page = 0x0A1 → (s.chip w).domainsCheck (s.chip w.other) = none)) ∧
    (∃ (w : Twin) (page : Nat) (s : State), (s.chip w).up = true ∧ (s.chip w).pageState page = 2 ∧ ((s.chip w).rd page 0x008).getLsbD 0 = false) ∧
    (∃ (w : Twin) (page : Nat) (s : State), (s.chip w).up = true ∧ (s.chip w).pageState page = 2) :=
  ⟨⟨.A, .coreM 0, 0x060, both, by decide +kernel⟩,
    ⟨.A, .coreM 0, 0x060, runs 0x060, by decide +kernel⟩,
    ⟨.A, .coreM 0, 0x060, runs 0x060, by decide +kernel⟩,
    ⟨.A, .coreM 0, 0x060, both.onA [(⟨0x060, 0x00C, 0, 3, false⟩, 4), (⟨0x060, 0x008, 0, 2, false⟩, 3)], by decide +kernel⟩,
    ⟨.B, .coreM 0, 0x060, both, by decide +kernel⟩,
    ⟨.A, 0x060, (both.onA [(⟨0x060, 0x00C, 0, 3, false⟩, 1), (⟨0x060, 0x008, 0, 1, false⟩, 1)]).mapA fun c => { c with clk := { c.clk with round := 2 } }, by decide +kernel⟩,
    ⟨.A, 0x060, both.onA [(⟨0x060, 0x00C, 0, 3, false⟩, 2)], by decide +kernel⟩,
    ⟨.A, 0x060, runs 0x060, by decide +kernel⟩⟩

theorem witness_EventRegistersComplete :
    (∃ (w : Twin) (rq : Requester) (page : Nat) (bits : Word) (s : State), (s.chip w).up = true ∧ blockOf page ≠ 0 ∧ (s.chip w).mayWrite rq page = true) ∧
    (∃ (w : Twin) (rq : Requester) (page : Nat) (bits : Word) (b : Nat) (s : State), (s.chip w).up = true ∧ blockOf page ≠ 0 ∧ (s.chip w).mayWrite rq page = true ∧ (eventBits page).contains b = true ∧ bits.getLsbD b = true) ∧
    (∃ (w : Twin) (rq : Requester) (page : Nat) (bits : Word) (s : State), (s.chip w).up = true ∧ blockOf page ≠ 0 ∧ (s.chip w).mayWrite rq page = true) :=
  ⟨⟨.A, .coreM 0, 0x060, 5, both, by decide +kernel⟩,
    ⟨.A, .coreM 0, 0x010, 0x40000001, 30, both, by decide +kernel⟩,
    ⟨.A, .coreM 0, 0x060, 5, both, by decide +kernel⟩⟩

theorem witness_ConfigurationWordsComplete :
    (∃ (w : Twin) (rq : Requester) (page : Nat) (off : Nat) (v : BitVec 64) (s : State), (s.chip w).up = true ∧ plainPage page = true ∧ (s.chip w).mayWrite rq page = true ∧ (s.chip w).running page = false ∧ (s.chip w).frozen page = false ∧ 0x100 ≤ off ∧ off < 0x800 ∧ off % 4 = 0 ∧ clearMask page off = 0) ∧
    (∃ (w : Twin) (rq : Requester) (page : Nat) (off : Nat) (s : State), (s.chip w).up = true ∧ plainPage page = true ∧ (s.chip w).mayWrite rq page = true ∧ (s.chip w).pageState page ≠ 1 ∧ (s.chip w).pageState page ≠ 2 ∧ (s.chip w).frozen page = false ∧ 0x100 ≤ off ∧ off < 0x800) :=
  ⟨⟨.A, .coreM 0, 0x080, 0x100, 0xFFFFFFFFF, both, by decide +kernel⟩,
    ⟨.A, .coreM 0, 0x080, 0x100, both.onA [(⟨0x080, 0x100, 0, 32, false⟩, 5)], by decide +kernel⟩⟩

theorem witness_PageAccessesComplete :
    (∃ (w : Twin) (rq : Requester) (page : Nat) (off : Nat) (size : Nat) (s : State), (s.chip w).up = true ∧ goodAccess off size = true ∧ blockOf page ≠ 0 ∧ (s.chip w).mayRead rq page = true) ∧
    (∃ (w : Twin) (rq : Requester) (x : PageWrite) (s : State), (s.chip w).up = true ∧ goodAccess x.off x.size = true ∧ blockOf x.page ≠ 0 ∧ (s.chip w).mayWrite rq x.page = true ∧ s.reaches w = true ∧ (s.chip w).linkSends = true ∧ (s.chip w).link.replay.length < 512) ∧
    (∃ (w : Twin) (rq : Requester) (page : Nat) (off : Nat) (v : BitVec 64) (s : State), (s.chip w).up = true ∧ goodAccess off 4 = true ∧ blockOf page ≠ 0 ∧ isDoorbell page off = false ∧ (s.chip w).mayWrite rq page = true) ∧
    (∃ (page : Nat) (off : Nat) (v : BitVec 64) (a : AliasWrite) (s : State), a.x = ⟨page, off, 4, v⟩ ∧ s.a.up = true ∧ s.b.up = true ∧ s.a.twe.aliasQ = [a] ∧ s.b.twe.aliasQ = [a] ∧ a.round + 2 ≤ s.a.round ∧ a.round + 2 ≤ s.b.round ∧ plainPage page = true ∧ s.a.running page = false ∧ s.b.running page = false ∧ s.a.frozen page = false ∧ s.b.frozen page = false ∧ 0x100 ≤ off ∧ off < 0x800 ∧ clearMask page off = 0) ∧
    (∃ (w : Twin) (rq : Requester) (v : BitVec 64) (e : Envelope) (s : State), s.arriving w = some e ∧ e.body = .accessAnswer rq v ∧ Chip.seqAfter e.seq (s.chip w).link.rxSeq = 1 ∧ (s.chip w).mode ≠ mISOLATED ∧ ((s.chip w).link.asked.any fun x => x.1 == rq) = true) :=
  ⟨⟨.A, .coreM 0, 0x080, 0x100, 4, linked, by decide +kernel⟩,
    ⟨.A, .coreM 0, ⟨0x080, 0x100, 4, 5⟩, linked, by decide +kernel⟩,
    ⟨.A, .coreM 0, 0x080, 0x100, 5, linked, by decide +kernel⟩,
    ⟨0x080, 0x100, 5, ⟨.A, 0, .coreM 0, ⟨0x080, 0x100, 4, 5⟩⟩, (both.mapA fun c => { c with clk := { c.clk with round := 2 }, twe := { c.twe with aliasQ := [⟨.A, 0, .coreM 0, ⟨0x080, 0x100, 4, 5⟩⟩] } }).mapB fun c => { c with clk := { c.clk with round := 2 }, twe := { c.twe with aliasQ := [⟨.A, 0, .coreM 0, ⟨0x080, 0x100, 4, 5⟩⟩] } }, by decide +kernel⟩,
    ⟨.A, .coreM 0, 7, ((linked.mapA fun c => { c with link := { c.link with asked := [(.coreM 0, 4, 0)] } }).mapB fun c => c.sends [.accessAnswer (.coreM 0) 7]).b.link.tx.headD ⟨0, 0, 0, 0, false, 0, .fill⟩, (linked.mapA fun c => { c with link := { c.link with asked := [(.coreM 0, 4, 0)] } }).mapB fun c => c.sends [.accessAnswer (.coreM 0) 7], by decide +kernel⟩⟩

theorem witness_ManagementAccessesComplete :
    (∃ (w : Twin) (x : PageMessage) (s : State), (s.chip w).up = true ∧ (s.chip w).acking = true ∧ PageMessage.ok x = true ∧ x.off.toNat % 4 = 0 ∧ x.off.toNat < 4096 ∧ PageMessage.target x w = w ∧ x.page.toNat ≠ 0x115) ∧
    (∃ (w : Twin) (x : PageMessage) (s : State), (s.chip w).up = true ∧ (s.chip w).acking = true ∧ PageMessage.ok x = true ∧ x.off.toNat % 4 = 0 ∧ 0x100 ≤ x.off.toNat ∧ x.off.toNat < 0x800 ∧ x.chip ≠ 2 ∧ PageMessage.target x w = w ∧ plainPage x.page.toNat = true ∧ (s.chip w).mayWrite .mctp x.page.toNat = true ∧ (s.chip w).running x.page.toNat = false ∧ (s.chip w).frozen x.page.toNat = false ∧ clearMask x.page.toNat x.off.toNat = 0) ∧
    (∃ (w : Twin) (opcode : BitVec 16) (s : State), (s.chip w).up = true ∧ (s.chip w).acking = true ∧ (mailOpcodes.find? fun x => x.1 == opcode.toNat) = none ∧ (s.chip w).mti.tx.length < 8) ∧
    (∃ (w : Twin) (out : List Byte) (x : Nat × Bool × Nat) (opcode : BitVec 16) (s : State), (s.chip w).up = true ∧ (s.chip w).acking = true ∧ (mailOpcodes.find? fun x => x.1 == opcode.toNat) = some x ∧ x.2.1 = false ∧ s.fabricReply w opcode.toNat = some out ∧ (s.chip w).mti.tx.length < 8) ∧
    (∃ (w : Twin) (page : Nat) (off : Nat) (s : State), (s.chip w).up = true ∧ (s.chip w).tapCode 0x21 = 0x21 ∧ page < 4096 ∧ off < 4096 ∧ off % 4 = 0 ∧ blockOf page ≠ 0 ∧ page ≠ 0x115) :=
  ⟨⟨.A, ⟨0, 0x080, 0x100, 0, 0, 0⟩, both.onA [(F.MTI_ACKING, 1)], by decide +kernel⟩,
    ⟨.A, ⟨0, 0x080, 0x100, 0, 0, 5⟩, both.onA [(F.MTI_ACKING, 1), (F.SEC_MCTP_WRITE_BLOCKS, 2 ^ 26 - 1)], by decide +kernel⟩,
    ⟨.A, 0x7777, both.onA [(F.MTI_ACKING, 1)], by decide +kernel⟩,
    ⟨.A, bytesLE 8 0, (0x0300, false, 0), 0x0300, both.onA [(F.MTI_ACKING, 1)], by decide +kernel⟩,
    ⟨.A, 0x080, 0x100, both, by decide +kernel⟩⟩

theorem witness_HostLinksComplete :
    (∃ (w : Twin) (h : Fin 24) (x : LinkTraining) (rate : Nat) (width : Nat) (flit : Nat) (s : State), s.homeOf (portOf h) = some w ∧ (s.chip w).transmits (portOf h) = true ∧ (s.chip w).mayTrain h = true ∧ rate = min x.rate.val ((s.chip w).cfg (F.HP_PORT_CFG_MAX_RATE (portOf h).val)) ∧ width = min x.width.val (min ((s.chip w).groupWidth h) (Nat.log2 (Chip.laneCount ((s.chip w).lanesFor h)))) ∧ (s.chip w).flitMode (portOf h).val rate x = some flit ∧ flit < 4 ∧ (s.chip w).cfg (F.HP_DEGRADE_CFG_MIN_WIDTH (portOf h).val) ≤ width ∧ (s.chip w).cfg (F.HP_DEGRADE_CFG_MIN_RATE (portOf h).val) ≤ rate) ∧
    (∃ (w : Twin) (h : Fin 24) (s : State), (s.chip w).up = true) ∧
    (∃ (w : Twin) (h : Fin 24) (dest : Fin 9) (ns : Nat) (s : State), s.homeOf (portOf h) = some w ∧ (s.chip w).ltssm h = 3 ∧ dest.val ≠ 3 ∧ dest.val ≠ 5) ∧
    (∃ (w : Twin) (h : Fin 24) (ns : Nat) (x : ContSlot) (s : State), (s.chip w).up = true ∧ (s.chip w).isCarbon (portOf h) = true ∧ (s.chip w).trackState h = 1 ∧ (s.chip w).contSlot h = some x ∧ (s.chip w).frameSince h = true) ∧
    (∃ (w : Twin) (h : Fin 24) (s : State), (s.chip w).up = true ∧ (s.chip w).trackState h = 1 ∧ ((s.chip w).head h).track.enteredRound + (s.chip w).cfg (F.CARB_CARBON_CFG_ACQ_LIMIT (portOf h).val) ≤ (s.chip w).round) ∧
    (∃ (w : Twin) (h : Fin 24) (s : State), (s.chip w).isCarbon (portOf h) = true ∧ (s.chip w).trackState h = 3 ∧ ((s.chip w).head h).track.enteredRound < (s.chip w).round) ∧
    (∃ (w : Twin) (h : Fin 24) (s : State), (s.chip w).up = true ∧ (s.chip w).trackState h = 2) ∧
    (∃ (w : Twin) (h : Fin 24) (dir : Direction) (flit : Nat) (s : State), (s.chip w).up = true ∧ (s.chip w).trackState h = 2 ∧ (s.chip w).linkSends = true ∧ (s.chip w).link.replay.length < 512) :=
  ⟨⟨.A, 0, trains, 5, min trains.width.val (min ((hosted.onA [(F.HLNK_LINK_LTSSM 0, 0)]).a.groupWidth 0) (Nat.log2 (Chip.laneCount ((hosted.onA [(F.HLNK_LINK_LTSSM 0, 0)]).a.lanesFor 0)))), 1, hosted.onA [(F.HLNK_LINK_LTSSM 0, 0)], by decide +kernel⟩,
    ⟨.A, 0, hosted, by decide +kernel⟩,
    ⟨.A, 0, 0, 0, hosted, by decide +kernel⟩,
    ⟨.A, 4, 5, ⟨4, 0, 0, 0, 0⟩, (tracks 1).mapA fun c => { c with clk := { c.clk with round := 3 }, twe := { c.twe with peerFrame := some { frameB with round := 3 }, peerSlots := [⟨4, 0, 0, 0, 0⟩] } }, by decide +kernel⟩,
    ⟨.A, 4, (tracks 1).mapA fun c => { c with clk := { c.clk with round := 5000 } }, by decide +kernel⟩,
    ⟨.A, 4, (tracks 3).mapA fun c => { c with clk := { c.clk with round := 3 } }, by decide +kernel⟩,
    ⟨.A, 4, tracks 2, by decide +kernel⟩,
    ⟨.A, 4, .deviceToHost, 9, tracks 2, by decide +kernel⟩⟩

theorem witness_HeadConfigurationComplete :
    (∃ (w : Twin) (h : Fin 24) (n : Fin 16) (s : State), s.linkIn h = true ∧ s.homeOf (portOf h) = some w ∧ ((s.chip w).decoder h n.val).committed = false ∧ (s.chip w).memActive = true ∧ (s.chip w).decoderReason h n.val = 0) ∧
    (∃ (w : Twin) (h : Fin 24) (n : Fin 16) (d : DecoderCfg) (s : State), s.linkIn h = true ∧ s.homeOf (portOf h) = some w ∧ (((s.chip w).decoder h n.val).committed && ((s.chip w).decoder h n.val).cfg.lock) = false) ∧
    (∃ (w : Twin) (h : Fin 24) (off : Nat) (d : Word) (s : State), s.linkIn h = true ∧ s.homeOf (portOf h) = some w) ∧
    (∃ (w : Twin) (h : Fin 24) (index : Nat) (s : State), s.linkIn h = true ∧ s.homeOf (portOf h) = some w) ∧
    (∃ (w : Twin) (h : Fin 24) (entry : Nat) (e : List Nat) (s : State), s.linkIn h = true ∧ s.homeOf (portOf h) = some w ∧ ((s.chip w).cdat h)[entry]? = some e) ∧
    (∃ (w : Twin) (h : Fin 24) (s : State), s.linkIn h = true ∧ s.homeOf (portOf h) = some w) :=
  ⟨⟨.A, 0, 1, (hosted.onA [(F.DOM_DOMAIN_SIZE_256M 0, 2)]).mapA fun c => c.mapHead 0 fun x => { x with decoders := x.decoders ++ [(1, { cfg := ⟨2 ^ 28, 2 ^ 28, 1, 256, false, 0, false⟩ })] }, by decide +kernel⟩,
    ⟨.A, 0, 1, ⟨2 ^ 28, 2 ^ 28, 1, 256, false, 0, false⟩, hosted, by decide +kernel⟩,
    ⟨.A, 0, 64, 5, hosted, by decide +kernel⟩,
    ⟨.A, 0, 1, hosted, by decide +kernel⟩,
    ⟨.A, 0, 0, [0, 0], hosted.onA [(F.DOM_DOMAIN_VALID 0, 0)], by decide +kernel⟩,
    ⟨.A, 0, hosted.onA [(F.HLNK_LINK_D_STATE 0, 3)], by decide +kernel⟩⟩

theorem witness_HeadMessagesComplete :
    (∃ (w : Twin) (h : Fin 24) (v : Fin 64) (s : State), s.homeOf (portOf h) = some w ∧ (s.chip w).ltssm h = 3 ∧ (s.chip w).cfg (F.HCFG_MSIX_MOD_COUNT h.val v.val) ≤ ((s.chip w).vec h v.val).causes ∧ 1 ≤ ((s.chip w).vec h v.val).causes ∧ ((s.chip w).vec h v.val).masked = false ∧ (s.chip w).get (F.HLNK_LINK_D_STATE h.val) = 0) ∧
    (∃ (w : Twin) (h : Fin 24) (s : State), s.linkIn h = true ∧ s.homeOf (portOf h) = some w) ∧
    (∃ (w : Twin) (h : Fin 24) (s : State), s.linkIn h = true ∧ s.homeOf (portOf h) = some w) ∧
    (∃ (w : Twin) (h : Fin 24) (l : List (Fin 24 × Nat)) (s : State), s.linkIn h = true ∧ s.homeOf (portOf h) = some w ∧ ((s.chip w).head h).gpf2 = some l ∧ s.heldByBoth l = true) :=
  ⟨⟨.A, 0, 5, hosted.mapA fun c => c.mapVec 0 5 fun x => { x with masked := false, causes := 1 }, by decide +kernel⟩,
    ⟨.A, 0, hosted, by decide +kernel⟩,
    ⟨.A, 0, hosted, by decide +kernel⟩,
    ⟨.A, 0, [], hosted.mapA fun c => c.mapHead 0 fun x => { x with gpf2 := some [] }, by decide +kernel⟩⟩

theorem witness_HeadResetsComplete :
    (∃ (i : Instr) (w : Twin) (h : Fin 24) (s : State), (i = .hotReset h ∨ i = .secondaryBusReset h ∨ i = .headFlr h ∨ i = .cxlReset h) ∧ (s.chip w).up = true ∧ (s.chip w).headExists h = true) ∧
    (∃ (i : Instr) (w : Twin) (h : Fin 24) (s : State), (i = .hotReset h ∨ i = .secondaryBusReset h) ∧ (s.chip w).up = true ∧ (s.chip w).headExists h = true) ∧
    (∃ (w : Twin) (p : Fin 6) (h : Fin 24) (s : State), portOf h = p ∧ (s.chip w).up = true ∧ (s.chip w).headExists h = true) ∧
    (∃ (w : Twin) (p : Fin 6) (h : Fin 24) (s : State), portOf h = p) :=
  ⟨⟨.hotReset 0, .A, 0, hosted, by decide +kernel⟩,
    ⟨.hotReset 0, .A, 0, hosted, by decide +kernel⟩,
    ⟨.A, 0, 0, hosted, by decide +kernel⟩,
    ⟨.A, 0, 0, hosted.mapA fun c => c.mapHead 0 fun x => { x with inReset := true }, by decide +kernel⟩⟩

theorem witness_ReadsForwardFromTheWmb : ∃ (w : Twin) (r : Request) (v : Arrival) (i : Instr) (k : ReqKind) (m : Fin 4) (dpa : Nat) (s : State), (i = .memRd r v ∧ k = .memRd ∧ m = r.metaValue) ∨ (i = .memRdData r v ∧ k = .memRdData ∧ m = 3) ∧ s.homeOf (portOf r.head) = some w ∧ (s.chip w).inL0 r.head = true ∧ (s.chip w).hasCredit r.head false = true ∧ ((s.chip w).head r.head).reqQ = [] ∧ ((s.chip w).head r.head).rwdQ = [] ∧ (s.chip w).decodeHpa r.head r.hpa = some dpa ∧ (s.chip w).inCommons dpa = false ∧ (s.chip w).failing { r with kind := k, metaValue := m } = none ∧ ((s.chip w).wmbEntry (lineBase dpa)).state = .valid ∧ ((s.chip w).wmbEntry (lineBase dpa)).mask = allBytes ∧ ((s.chip w).wmbEntry (lineBase dpa)).poison = false :=
  ⟨.A, ask, ⟨true, 0⟩, .memRd ask ⟨true, 0⟩, .memRd, 0, 0, hostedW, by decide +kernel⟩

theorem witness_InvalidatesAnswerCmp : ∃ (w : Twin) (r : Request) (v : Arrival) (i : Instr) (k : ReqKind) (dpa : Nat) (s : State), (i = .memInv r v ∧ k = .memInv) ∨ (i = .memInvNt r v ∧ k = .memInvNT) ∧ s.homeOf (portOf r.head) = some w ∧ (s.chip w).inL0 r.head = true ∧ (s.chip w).hasCredit r.head false = true ∧ ((s.chip w).head r.head).reqQ = [] ∧ ((s.chip w).head r.head).rwdQ = [] ∧ (s.chip w).decodeHpa r.head r.hpa = some dpa ∧ (s.chip w).inCommons dpa = false ∧ (s.chip w).failing { r with kind := k } = none :=
  ⟨.A, ask, ⟨true, 0⟩, .memInv ask ⟨true, 0⟩, .memInv, 0, hosted, by decide +kernel⟩

theorem witness_WritesEnterTheWmb :
    (∃ (w : Twin) (r : Request) (v : Arrival) (dpa : Nat) (s : State), s.homeOf (portOf r.head) = some w ∧ (s.chip w).inL0 r.head = true ∧ (s.chip w).hasCredit r.head true = true ∧ ((s.chip w).head r.head).reqQ = [] ∧ ((s.chip w).head r.head).rwdQ = [] ∧ (s.chip w).decodeHpa r.head r.hpa = some dpa ∧ (s.chip w).inCommons dpa = false ∧ (s.chip w).failing { r with kind := .memWr, enables := allBytes } = none) ∧
    (∃ (w : Twin) (r : Request) (v : Arrival) (dpa : Nat) (e : WmbEntry) (s : State), s.homeOf (portOf r.head) = some w ∧ r.enables ≠ 0 ∧ (s.chip w).inL0 r.head = true ∧ (s.chip w).hasCredit r.head true = true ∧ ((s.chip w).head r.head).reqQ = [] ∧ ((s.chip w).head r.head).rwdQ = [] ∧ (s.chip w).decodeHpa r.head r.hpa = some dpa ∧ (s.chip w).inCommons dpa = false ∧ (s.chip w).failing { r with kind := .memWrPtl } = none ∧ (s.chip w).wmbEntry (lineBase dpa) = e ∧ (e.state = .free → e = {})) ∧
    (∃ (w : Twin) (r : Request) (v : Arrival) (dpa : Nat) (s : State), s.homeOf (portOf r.head) = some w ∧ r.enables = 0 ∧ (s.chip w).inL0 r.head = true ∧ (s.chip w).hasCredit r.head true = true ∧ ((s.chip w).head r.head).reqQ = [] ∧ ((s.chip w).head r.head).rwdQ = [] ∧ (s.chip w).decodeHpa r.head r.hpa = some dpa ∧ (s.chip w).inCommons dpa = false ∧ (s.chip w).failing { r with kind := .memWrPtl } = none) :=
  ⟨⟨.A, ask, ⟨true, 0⟩, 0, hosted, by decide +kernel⟩,
    ⟨.A, { ask with enables := 5, poison := true }, ⟨true, 0⟩, 0, (hostedW).a.wmbEntry 0, hostedW, by decide +kernel⟩,
    ⟨.A, { ask with enables := 0 }, ⟨true, 0⟩, 0, hostedW, by decide +kernel⟩⟩

theorem witness_QueuedAndSpeculativeComplete :
    (∃ (w : Twin) (h : Fin 24) (write : Bool) (r : Request) (q : List Request) (s : State), s.homeOf (portOf h) = some w ∧ Chip.queueOf ((s.chip w).head h) write = r :: q ∧ r.head = h ∧ isWrite r.kind = write ∧ (s.chip w).failing r = none ∧ (s.chip w).otherFirst h write = false) ∧
    (∃ (w : Twin) (h : Fin 24) (r : Request) (q : List Request) (dpa : Nat) (s : State), s.homeOf (portOf h) = some w ∧ ((s.chip w).head h).reqQ = r :: q ∧ r.head = h ∧ r.kind = .memRd ∧ (s.chip w).failing r = none ∧ (s.chip w).otherFirst h false = false ∧ (s.chip w).decodeHpa h r.hpa = some dpa ∧ (s.chip w).inCommons dpa = false ∧ ((s.chip w).wmbEntry (lineBase dpa)).state = .valid ∧ ((s.chip w).wmbEntry (lineBase dpa)).mask = allBytes ∧ ((s.chip w).wmbEntry (lineBase dpa)).poison = false) ∧
    (∃ (w : Twin) (r : Request) (s : State), s.homeOf (portOf r.head) = some w ∧ (s.chip w).inL0 r.head = true ∧ (s.chip w).hasCredit r.head false = true ∧ ((s.chip w).head r.head).reqQ = [] ∧ ((s.chip w).head r.head).rwdQ = [] ∧ (s.chip w).failing { r with kind := .memSpecRd } = none) ∧
    (∃ (w : Twin) (r : Request) (dpa : Nat) (x : DramPlace) (s : State), s.homeOf (portOf r.head) = some w ∧ (s.chip w).inL0 r.head = true ∧ (s.chip w).hasCredit r.head false = true ∧ ((s.chip w).head r.head).reqQ = [] ∧ ((s.chip w).head r.head).rwdQ = [] ∧ ((s.chip w).head r.head).noRoom = [] ∧ (s.chip w).failing { r with kind := .memSpecRd } = none ∧ (s.chip w).decodeHpa r.head r.hpa = some dpa ∧ (s.chip w).inDram dpa = true ∧ (s.chip w).cfgOn F.SRT_SRT_CFG_SPEC_EN = true ∧ (s.chip w).place ((s.chip w).dramAddr dpa) = x ∧ x.ch < 16 ∧ (s.chip w).cfg (F.DCH_CH_CFG_PAGE_POLICY x.ch) = 0 ∧ ((s.chip w).chan x.ch).pprFrom = none) ∧
    (∃ (w : Twin) (h : Fin 24) (line : Nat) (s : State), s.homeOf (portOf h) = some w) :=
  ⟨⟨.A, 0, false, ask, [ask], hostedW.mapA fun c => c.mapHead 0 fun x => { x with reqQ := [ask, ask] }, by decide +kernel⟩,
    ⟨.A, 0, ask, [], 0, hostedW.mapA fun c => c.mapHead 0 fun x => { x with reqQ := [ask] }, by decide +kernel⟩,
    ⟨.A, ask, hosted, by decide +kernel⟩,
    ⟨.A, ask, 0, (framed.onA ((F.SRT_SRT_CFG_SPEC_EN, 1) :: (List.range 16).map fun d => (F.DCH_CH_CFG_PAGE_POLICY d, 0))).a.place ((framed.onA ((F.SRT_SRT_CFG_SPEC_EN, 1) :: (List.range 16).map fun d => (F.DCH_CH_CFG_PAGE_POLICY d, 0))).a.dramAddr 0), framed.onA ((F.SRT_SRT_CFG_SPEC_EN, 1) :: (List.range 16).map fun d => (F.DCH_CH_CFG_PAGE_POLICY d, 0)), by decide +kernel⟩,
    ⟨.A, 0, 64, hosted, by decide +kernel⟩⟩

theorem witness_SnoopsComplete :
    (∃ (w : Twin) (h : Fin 24) (line : Nat) (s : State), s.homeOf (portOf h) = some w ∧ (s.chip w).tags = [] ∧ (s.chip w).che.ordered = [] ∧ (s.chip w).che.early = [] ∧ (s.chip w).che.snoops.any (fun x => x.line == line && x.head == h) = true ∧ (s.chip w).che.shadow.get (fun _ => {}) (line / 64) = {} ∧ (s.chip w).che.sram.get (fun _ => {}) (line / 64) ≠ {}) ∧
    (∃ (w : Twin) (h : Fin 24) (line : Nat) (s : State), s.homeOf (portOf h) = some w ∧ (s.chip w).tags = [] ∧ (s.chip w).che.ordered = [] ∧ (s.chip w).che.early = [] ∧ (s.chip w).che.snoops.any (fun x => x.line == line && x.head == h) = true ∧ Chip.present ((s.chip w).dirEntry line) h = true) ∧
    (∃ (w : Twin) (h : Fin 24) (line : Nat) (s : State), s.homeOf (portOf h) = some w ∧ (s.chip w).tags = [] ∧ (s.chip w).che.ordered = [] ∧ (s.chip w).che.early = [] ∧ (s.chip w).che.snoops.any (fun x => x.line == line && x.head == h) = true ∧ Chip.present ((s.chip w).dirEntry line) h = true) ∧
    (∃ (w : Twin) (h : Fin 24) (line : Nat) (s : State), (s.chip w).che.snoops.any (fun x => x.line == line && x.head == h) = true) ∧
    (∃ (w : Twin) (d : Fin 64) (k : Nat) (v : Nat) (e : DirEntry) (s : State), (s.chip w).up = true ∧ (s.chip w).tags = [] ∧ (s.chip w).che.ordered = [] ∧ (s.chip w).che.migrating.contains d.val = true ∧ (s.chip w).che.shadow = [(k, e)] ∧ (s.chip w).inDomain d.val (k * 64) = true ∧ (s.chip w).freeWay ((s.chip w).dirSet (k * 64)) = some v) :=
  ⟨⟨.A, 0, 0, snooped, by decide +kernel⟩,
    ⟨.A, 0, 0, snooped, by decide +kernel⟩,
    ⟨.A, 0, 0, snooped, by decide +kernel⟩,
    ⟨.A, 0, 0, snooped, by decide +kernel⟩,
    ⟨.A, 0, 1, 0, { state := 1, presence := 1 }, hosted.mapA fun c => { c with che := { c.che with migrating := [0], shadow := [(1, { state := 1, presence := 1 })] } }, by decide +kernel⟩⟩

theorem witness_ReadsComplete :
    (∃ (w : Twin) (line : Nat) (aged : Nat) (x : Tag) (s : State), (s.chip w).up = true ∧ (s.chip w).tags = [x] ∧ x.stage = .dram ∧ x.isTag = true ∧ x.dpa = line ∧ x.fixed = false ∧ (s.chip w).che.ordered = [] ∧ ((s.chip w).fullLine line).2 = false ∧ (x.issued = true ∨ ((s.chip w).nextRead ((s.chip w).place ((s.chip w).dramAddr line)).ch aged = some x ∧ (s.chip w).readMay ((s.chip w).place ((s.chip w).dramAddr line)).ch = true)) ∧ ((s.chip w).decode ((s.chip w).dramAddr line) 0).1 = .good) ∧
    (∃ (w : Twin) (h : Fin 24) (line : Nat) (s : State), (s.chip w).up = true ∧ (s.chip w).mdc.invalidated = true ∧ (s.chip w).trm.tcFill.get (fun _ => none) h.val = some line ∧ (s.chip w).mdc.fills.any (fun x => x.1 == line) = false ∧ (s.chip w).mdc.fillQueue.contains line = false ∧ (s.chip w).tags = [] ∧ (s.chip w).che.ordered = []) ∧
    (∃ (w : Twin) (range : Nat) (s : State), (s.chip w).up = true ∧ (s.chip w).rangeReady range = false ∧ range < (s.chip w).rangeCount) ∧
    (∃ (w : Twin) (line : Nat) (s : State), (s.chip w).up = true ∧ (s.chip w).mdc.fills = [(line, true)] ∧ (s.chip w).mdc.fillQueue = []) ∧
    (∃ (w : Twin) (line : Nat) (v : Nat) (s : State), (s.chip w).up = true ∧ (s.chip w).mdc.fills = [(line, false)] ∧ (s.chip w).mdc.fillQueue = [] ∧ (s.chip w).mdcVictim ((s.chip w).mdcSet line) = some v) :=
  ⟨⟨.A, 0, 0, waiting .dram, framed.mapA fun c => { c with tags := [waiting .dram] }, by decide +kernel⟩,
    ⟨.A, 0, 0, hosted.mapA fun c => { c with mdc := { c.mdc with invalidated := true }, trm := { c.trm with tcFill := [(0, some 0)] } }, by decide +kernel⟩,
    ⟨.A, 7, framed, by decide +kernel⟩,
    ⟨.A, 7, both.mapA fun c => { c with mdc := { c.mdc with fills := [(7, true)] } }, by decide +kernel⟩,
    ⟨.A, 7, 0, both.mapA fun c => { c with mdc := { c.mdc with fills := [(7, false)] } }, by decide +kernel⟩⟩

theorem witness_DrainsComplete :
    (∃ (w : Twin) (line : Nat) (s : State), (s.chip w).up = true ∧ ((s.chip w).wmbEntry line).state = .valid) ∧
    (∃ (w : Twin) (line : Nat) (s : State), (s.chip w).up = true ∧ ((s.chip w).wmbEntry line).state = .valid ∧ ((s.chip w).wmbEntry line).eligible = true ∧ (s.chip w).svc.held = false ∧ (s.chip w).tierTakes line = true ∧ (s.chip w).rangeReady ((s.chip w).lineRange line) = true ∧ (s.chip w).patchWaits line = false ∧ (s.chip w).drainHeld line = false ∧ (s.chip w).oldestDrain line = true ∧ (s.chip w).dramTakes line = true ∧ ((s.chip w).joinsPartner line || (s.chip w).drainMay line) = true) ∧
    (∃ (w : Twin) (line : Nat) (s : State), (s.chip w).up = true ∧ line % 64 = 0 ∧ ((s.chip w).wmbEntry line).state = .draining ∧ ((s.chip w).wmbEntry line).redrain = false ∧ (s.chip w).landsAsPatch line = false ∧ ((s.chip w).twe.repairs.any fun x => x.1 == line) = false ∧ ((s.chip w).mergesDram line ((s.chip w).wmbEntry line) = true → (s.chip w).trm.repairDue.contains line = false ∧ ((s.chip w).decode ((s.chip w).dramAddr line) 0).1 = .good)) ∧
    (∃ (w : Twin) (p : Fin 6) (s : State), (s.chip w).up = true ∧ (s.chip w).mirrored = true ∧ (s.chip w).isHome p = true ∧ ((portHeads p).any fun h => match ((s.chip w).head h).localPos with | some q => !covers ((s.chip w).head h).covered q | none => false) = true ∧ (s.chip w).localStall.contains p.val = false) :=
  ⟨⟨.A, 0, hostedW, by decide +kernel⟩,
    ⟨.A, 0, framed.mapA fun c => { c with wmb := [(0, { state := .valid, data := 9, mask := allBytes, age := 1, eligible := true })], trm := { c.trm with ready := [(c.lineRange 0, true)] } }, by decide +kernel⟩,
    ⟨.A, 0, framed.mapA fun c => { c with wmb := [(0, { state := .draining, issued := 9, issuedMask := 5, age := 1 })] }, by decide +kernel⟩,
    ⟨.A, 0, paired.mapA fun c => c.mapHead 0 fun x => { x with localPos := some 5 }, by decide +kernel⟩⟩

theorem witness_SpdmComplete :
    (∃ (w : Twin) (h : Fin 24) (s : State), s.linkIn h = true ∧ s.homeOf (portOf h) = some w) ∧
    (∃ (w : Twin) (h : Fin 24) (s : State), s.linkIn h = true ∧ s.homeOf (portOf h) = some w ∧ 1 ≤ ((s.chip w).head h).spdm) ∧
    (∃ (w : Twin) (h : Fin 24) (s : State), s.linkIn h = true ∧ s.homeOf (portOf h) = some w ∧ 2 ≤ ((s.chip w).head h).spdm) ∧
    (∃ (w : Twin) (h : Fin 24) (off : Nat) (len : Nat) (slot : Fin 8) (s : State), s.linkIn h = true ∧ s.homeOf (portOf h) = some w ∧ 3 ≤ ((s.chip w).head h).spdm ∧ (s.chip w).hasSlot slot.val = true) ∧
    (∃ (w : Twin) (h : Fin 24) (s : State), s.linkIn h = true ∧ s.homeOf (portOf h) = some w ∧ 3 ≤ ((s.chip w).head h).spdm ∧ ((s.chip w).head h).sessions = [] ∧ ((s.chip w).head h).handshakes = []) ∧
    (∃ (w : Twin) (h : Fin 24) (id : Fin 4) (s : State), s.linkIn h = true ∧ s.homeOf (portOf h) = some w ∧ 3 ≤ ((s.chip w).head h).spdm ∧ ((s.chip w).head h).sessions.contains id.val = true) ∧
    (∃ (w : Twin) (h : Fin 24) (id : Fin 4) (bytes : List Byte) (set : Fin 2) (s : State), s.linkIn h = true ∧ s.homeOf (portOf h) = some w ∧ 3 ≤ ((s.chip w).head h).spdm ∧ ((s.chip w).head h).sessions.contains id.val = true ∧ ((s.chip w).head h).handshakes.contains id.val = true ∧ (s.chip w).isManager h = true ∧ bytes.length ≤ 16372) :=
  ⟨⟨.A, 0, hosted, by decide +kernel⟩,
    ⟨.A, 0, spdmed, by decide +kernel⟩,
    ⟨.A, 0, spdmed, by decide +kernel⟩,
    ⟨.A, 0, 0, 16, 0, spdmed, by decide +kernel⟩,
    ⟨.A, 0, spdmed.mapA fun c => c.mapHead 0 fun x => { x with sessions := [], handshakes := [] }, by decide +kernel⟩,
    ⟨.A, 0, 0, spdmed, by decide +kernel⟩,
    ⟨.A, 0, 0, [1], 1, spdmed, by decide +kernel⟩⟩

theorem witness_MailboxReadsComplete : ∃ (w : Twin) (h : Fin 24) (log : Fin 4) (off : Nat) (len : Nat) (dpa : Nat) (lines : Nat) (first : Nat) (s : State), s.linkIn h = true ∧ s.homeOf (portOf h) = some w ∧ ((s.chip w).head h).mailBusy = none ∧ off + len ≤ 64 ∧ (s.chip w).goodLine dpa = true :=
  ⟨.A, 0, 2, 4, 6, 64, 5, 0, hosted, by decide +kernel⟩

theorem witness_MailboxEffectsComplete :
    (∃ (w : Twin) (h : Fin 24) (log : Fin 4) (mode : Fin 4) (off : Nat) (dpa : Nat) (lines : Nat) (bytes : List Byte) (handles : List Nat) (slot : Fin 2) (ns : BitVec 64) (data : Line) (dirty : Bool) (s : State), s.linkIn h = true ∧ s.homeOf (portOf h) = some w ∧ ((s.chip w).head h).mailBusy = none ∧ (s.chip w).isManager h = true ∧ mode.val ≤ 1 ∧ off + bytes.length ≤ 262144 ∧ bytes.length ≤ 16384 ∧ (s.chip w).goodLine dpa = true ∧ ((s.chip w).slotBytes slot.val).isEmpty = false ∧ (s.chip w).backgroundBusy = false ∧ (s.chip w).mail.injected.length < 64) ∧
    (∃ (w : Twin) (h : Fin 24) (s : State), s.linkIn h = true ∧ s.homeOf (portOf h) = some w ∧ ((s.chip w).head h).mailBusy = none ∧ (s.chip w).isManager h = true ∧ (s.chip w).backgroundBusy = false) ∧
    (∃ (w : Twin) (h : Fin 24) (s : State), s.linkIn h = true ∧ s.homeOf (portOf h) = some w ∧ ((s.chip w).head h).mailBusy = none ∧ (s.chip w).isManager h = true) ∧
    (∃ (w : Twin) (x : Background) (s : State), s.homeOf (portOf x.head) = some w ∧ (s.a.mail.background.orElse fun _ => s.b.mail.background) = some x ∧ (s.chip w).mail.background = some x ∧ x.opcode = 0x4304) :=
  ⟨⟨.A, 0, 1, 1, 8, 64, 3, [1, 2], [], 0, 77, 5, true, spdmed.mapA fun c => { c with efc := { c.efc with bytes := [(0, 1)] } }, by decide +kernel⟩,
    ⟨.A, 0, spdmed, by decide +kernel⟩,
    ⟨.A, 0, spdmed.onA [(F.DOM_DOMAIN_VALID 0, 0)], by decide +kernel⟩,
    ⟨.A, ⟨0x4304, 0, 0, 5⟩, hosted.mapA fun c => { c with mail := { c.mail with background := some ⟨0x4304, 0, 0, 5⟩ } }, by decide +kernel⟩⟩

theorem witness_RingsComplete :
    (∃ (w : Twin) (q : Fin 64) (s : State), (s.chip w).up = true ∧ (s.chip w).running 0x051 = true ∧ (s.chip w).cfgOn (F.PBX_RING_ENABLE q.val) = true ∧ (s.chip w).ringState q.val = 0 ∧ (s.chip w).ringCode q.val = 0) ∧
    (∃ (w : Twin) (q : Fin 64) (s : State), (s.chip w).up = true ∧ (s.chip w).running 0x051 = true ∧ (s.chip w).cfgOn (F.PBX_RING_ENABLE q.val) = true ∧ (s.chip w).ringState q.val = 0 ∧ (s.chip w).ringCode q.val ≠ 0) ∧
    (∃ (w : Twin) (q : Fin 64) (s : State), (s.chip w).up = true ∧ (s.chip w).cfgOn (F.PBX_RING_ENABLE q.val) = false ∧ (s.chip w).ringState q.val = 1 ∧ (s.chip w).ring q.val = {}) ∧
    (∃ (w : Twin) (rq : Requester) (n : Fin 9) (h : Fin 24) (q : Fin 64) (v : BitVec 16) (s : State), (s.chip w).up = true ∧ (rq = .coreM n ∨ rq = .host h ∧ s.homeOf (portOf h) = some w ∧ (s.chip w).ringOwner q.val = some h ∧ (s.chip w).mayWrite rq 0x051 = true)) ∧
    (∃ (w : Twin) (rq : Requester) (q : Fin 64) (v : BitVec 16) (s : State), (s.chip w).up = true ∧ s.isLocal w rq = true) ∧
    (∃ (w : Twin) (q : Fin 64) (x : RingCmd) (s : State), (s.chip w).up = true ∧ (s.chip w).running 0x051 = true ∧ (s.chip w).keepsRing q.val = true ∧ (s.chip w.other).keepsRing q.val = false ∧ (s.chip w).ringWaits q.val = true ∧ (s.chip w).ringRoom q.val = true ∧ ((s.chip w).ring q.val).fetched = [] ∧ (s.chip w).ringEntry q.val ((s.chip w).get (F.PBX_RING_STATUS_CMD_HEAD q.val)) = (x, true) ∧ ringOpcodes.contains x.opcode = true) ∧
    (∃ (w : Twin) (q : Fin 64) (y : RingDone) (s : State), (s.chip w).up = true ∧ (s.chip w).keepsRing q.val = true ∧ (s.chip w.other).keepsRing q.val = false ∧ ((s.chip w).ring q.val).finished = [y] ∧ y.recSeq = none ∧ y.e.q = q ∧ (s.chip w).ringState q.val = 1) :=
  ⟨⟨.A, 0, (ringed []).onA [(F.PBX_RING_STATUS_STATE 0, 0)], by decide +kernel⟩,
    ⟨.A, 0, (ringed []).onA [(F.PBX_RING_STATUS_STATE 0, 0), (F.PBX_RING_VECTOR 0, 3)], by decide +kernel⟩,
    ⟨.A, 0, (((ringed []).onA [(F.PBX_RING_ENABLE 0, 0)]).mapA fun c => { c with rings := [] }), by decide +kernel⟩,
    ⟨.A, .coreM 1, 1, 0, 0, 5, hosted, by decide +kernel⟩,
    ⟨.A, .coreM 0, 0, 5, hosted, by decide +kernel⟩,
    ⟨.A, 0, (((ringed []).onA [(F.PBX_DB_CMD_TAIL 0, 1)]).a.ringEntry 0 0).1, (ringed []).onA [(F.PBX_DB_CMD_TAIL 0, 1)], by decide +kernel⟩,
    ⟨.A, 0, ⟨⟨0, 0, 9, 0, 0, false⟩, none⟩, (ringed []).mapA fun c => { c with rings := [(0, { finished := [⟨⟨0, 0, 9, 0, 0, false⟩, none⟩] })] }, by decide +kernel⟩⟩

theorem witness_RingQueriesComplete :
    (∃ (w : Twin) (q : Fin 64) (x : RingCmd) (s : State), s.carries w q x = true ∧ x.opcode = 0) ∧
    (∃ (w : Twin) (q : Fin 64) (x : RingCmd) (s : State), s.carries w q x = true ∧ x.opcode = 1) ∧
    (∃ (w : Twin) (q : Fin 64) (x : RingCmd) (h : Fin 24) (n : Nat) (d : Nat) (o : Obj) (s : State), s.carries w q x = true ∧ x.opcode = 0x103 ∧ (s.chip w).ringOwner q.val = some h ∧ x.usesOnly [(24, 4)] = true ∧ (match (s.chip w).objNamed h.val x with | .ok y => some y | .error _ => none) = some (n, o, d)) ∧
    (∃ (w : Twin) (q : Fin 64) (x : RingCmd) (h : Fin 24) (s : State), s.carries w q x = true ∧ x.opcode = 0x107 ∧ (s.chip w).ringOwner q.val = some h ∧ x.usesOnly [(21, 1)] = true ∧ x.field 21 1 ≤ 63 ∧ (s.chip w).mayMap h.val (x.field 21 1) = true) ∧
    (∃ (w : Twin) (q : Fin 64) (x : RingCmd) (h : Fin 24) (s : State), s.carries w q x = true ∧ x.opcode = 0x205 ∧ (s.chip w).ringOwner q.val = some h ∧ (s.chip w).routeBad x [(22, 2)] true = none ∧ ((s.chip w).route (x.field 22 2)).state ≠ 0 ∧ ((s.chip w).route (x.field 22 2)).owner = h.val ∧ (s.chip w).isKeeper = true) ∧
    (∃ (w : Twin) (q : Fin 64) (x : RingCmd) (h : Fin 24) (s : State), s.carries w q x = true ∧ x.opcode = 0x303 ∧ (s.chip w).ringOwner q.val = some h ∧ x.usesOnly [(16, 1)] = true ∧ x.field 16 1 = w.id ∧ (s.chip w).rst.twinId = w.id) :=
  ⟨⟨.A, 0, cmd 0 [], ringed [cmd 0 []], by decide +kernel⟩,
    ⟨.A, 0, cmd 1 [], ringed [cmd 1 []], by decide +kernel⟩,
    ⟨.A, 0, cmd 0x103 [(24, 5)], 0, 5, 0, { first := 16, count := 1, policy := 1 }, ringed [cmd 0x103 [(24, 5)]], by decide +kernel⟩,
    ⟨.A, 0, cmd 0x107 [], 0, ringed [cmd 0x107 []], by decide +kernel⟩,
    ⟨.A, 0, cmd 0x205 [(22, 3)], 0, (ringed [cmd 0x205 [(22, 3)]]).mapA fun c => { c with rte := { slots := [(3, { state := 2, length := 4, pos := 2 })] } }, by decide +kernel⟩,
    ⟨.A, 0, cmd 0x303 [], 0, ringed [cmd 0x303 []], by decide +kernel⟩⟩

theorem witness_RingEffectsComplete :
    (∃ (w : Twin) (q : Fin 64) (x : RingCmd) (h : Fin 24) (d : Nat) (s : State), s.carries w q x = true ∧ x.opcode = 0x100 ∧ (s.chip w).ringOwner q.val = some h ∧ x.usesOnly [(8, 8), (16, 4), (20, 1)] = true ∧ x.field 20 1 ≤ 3 ∧ x.field 20 1 ≠ 0 ∧ (match (s.chip w).rangeDomain h.val (x.field 8 8) (x.field 16 4) with | .ok y => some y | .error _ => none) = some d ∧ (s.chip w).cfgOn (F.DOM_DOMAIN_FRONT_PINNED d) = false ∧ (s.chip w).overlaps (x.field 8 8 / 2 ^ 21) (x.field 16 4) = false ∧ (s.chip w).trm.objects.length < 2 ^ 20) ∧
    (∃ (w : Twin) (q : Fin 64) (x : RingCmd) (h : Fin 24) (n : Nat) (d : Nat) (o : Obj) (s : State), s.carries w q x = true ∧ x.opcode = 0x101 ∧ (s.chip w).ringOwner q.val = some h ∧ x.usesOnly [(24, 4)] = true ∧ (match (s.chip w).objNamed h.val x with | .ok y => some y | .error _ => none) = some (n, o, d)) ∧
    (∃ (w : Twin) (q : Fin 64) (x : RingCmd) (h : Fin 24) (n : Nat) (d : Nat) (o : Obj) (s : State), s.carries w q x = true ∧ x.opcode = 0x102 ∧ (s.chip w).ringOwner q.val = some h ∧ x.usesOnly [(20, 1), (24, 4)] = true ∧ x.field 20 1 ≤ 3 ∧ x.field 20 1 ≠ 0 ∧ (match (s.chip w).objNamed h.val x with | .ok y => some y | .error _ => none) = some (n, o, d) ∧ (s.chip w).cfgOn (F.DOM_DOMAIN_FRONT_PINNED d) = false) ∧
    (∃ (w : Twin) (q : Fin 64) (x : RingCmd) (h : Fin 24) (s : State), s.carries w q x = true ∧ x.opcode = 0x200 ∧ (s.chip w).ringOwner q.val = some h ∧ (s.chip w).routeBad x [(8, 8), (16, 4), (20, 1), (21, 1), (22, 2), (28, 2), (30, 2), (32, 4)] true = none ∧ 1 ≤ x.field 16 4 ∧ x.field 16 4 ≤ 65536 ∧ x.field 20 1 < 4 ∧ x.field 21 1 < 8 ∧ 1 ≤ x.field 28 2 ∧ 1 ≤ x.field 30 2 ∧ x.field 30 2 ≤ x.field 32 4 ∧ x.field 32 4 ≤ 2 ^ 20 ∧ ((s.chip w).route (x.field 22 2)).state = 0 ∧ (s.chip w).listOk h.val (x.field 8 8) (x.field 16 4) = true) ∧
    (∃ (w : Twin) (q : Fin 64) (x : RingCmd) (h : Fin 24) (s : State), s.carries w q x = true ∧ x.opcode = 0x201 ∧ (s.chip w).ringOwner q.val = some h ∧ (s.chip w).routeBad x [(22, 2), (24, 4)] true = none ∧ ((s.chip w).route (x.field 22 2)).state ≠ 0 ∧ ((s.chip w).route (x.field 22 2)).owner = h.val ∧ x.field 24 4 < ((s.chip w).route (x.field 22 2)).length) ∧
    (∃ (w : Twin) (q : Fin 64) (x : RingCmd) (h : Fin 24) (s : State), s.carries w q x = true ∧ x.opcode = 0x202 ∧ (s.chip w).ringOwner q.val = some h ∧ (s.chip w).routeBad x [(22, 2), (24, 4)] true = none ∧ ((s.chip w).route (x.field 22 2)).state = 2 ∧ ((s.chip w).route (x.field 22 2)).owner = h.val ∧ x.field 24 4 < ((s.chip w).route (x.field 22 2)).length ∧ (s.chip w).isKeeper = true) ∧
    (∃ (w : Twin) (q : Fin 64) (x : RingCmd) (h : Fin 24) (s : State), s.carries w q x = true ∧ x.opcode = 0x203 ∧ (s.chip w).ringOwner q.val = some h ∧ (s.chip w).routeBad x [(22, 2)] true = none ∧ ((s.chip w).route (x.field 22 2)).state = 2 ∧ ((s.chip w).route (x.field 22 2)).owner = h.val) ∧
    (∃ (w : Twin) (q : Fin 64) (x : RingCmd) (h : Fin 24) (s : State), s.carries w q x = true ∧ x.opcode = 0x204 ∧ (s.chip w).ringOwner q.val = some h ∧ (s.chip w).routeBad x [(22, 2)] true = none ∧ ((s.chip w).route (x.field 22 2)).state = 1 ∧ ((s.chip w).route (x.field 22 2)).owner = h.val) :=
  ⟨⟨.A, 0, cmd 0x100 [(10, 0x40), (16, 2), (20, 1)], 0, 0, ringed [cmd 0x100 [(10, 0x40), (16, 2), (20, 1)]], by decide +kernel⟩,
    ⟨.A, 0, cmd 0x101 [(24, 5)], 0, 5, 0, { first := 16, count := 1, policy := 1 }, ringed [cmd 0x101 [(24, 5)]], by decide +kernel⟩,
    ⟨.A, 0, cmd 0x102 [(20, 2), (24, 5)], 0, 5, 0, { first := 16, count := 1, policy := 1 }, ringed [cmd 0x102 [(20, 2), (24, 5)]], by decide +kernel⟩,
    ⟨.A, 0, cmd 0x200 [(16, 4), (20, 1), (28, 1), (30, 1), (32, 2)], 0, ringed [cmd 0x200 [(16, 4), (20, 1), (28, 1), (30, 1), (32, 2)]], by decide +kernel⟩,
    ⟨.A, 0, cmd 0x201 [(22, 3), (24, 1)], 0, (ringed [cmd 0x201 [(22, 3), (24, 1)]]).mapA fun c => { c with rte := { slots := [(3, { state := 1, length := 4, pos := 2 })] } }, by decide +kernel⟩,
    ⟨.A, 0, cmd 0x202 [(22, 3), (24, 1)], 0, (ringed [cmd 0x202 [(22, 3), (24, 1)]]).mapA fun c => { c with rte := { slots := [(3, { state := 2, length := 4, pos := 2 })] } }, by decide +kernel⟩,
    ⟨.A, 0, cmd 0x203 [(22, 3)], 0, (ringed [cmd 0x203 [(22, 3)]]).mapA fun c => { c with rte := { slots := [(3, { state := 2, length := 4, pos := 2 })] } }, by decide +kernel⟩,
    ⟨.A, 0, cmd 0x204 [(22, 3)], 0, (ringed [cmd 0x204 [(22, 3)]]).mapA fun c => { c with rte := { slots := [(3, { state := 1, length := 4, pos := 2 })] } }, by decide +kernel⟩⟩

theorem witness_RangeCommandsComplete :
    (∃ (w : Twin) (q : Fin 64) (x : RingCmd) (h : Fin 24) (d : Nat) (e : Nat) (s : State), s.carries w q x = true ∧ x.opcode = 0x104 ∧ (s.chip w).ringOwner q.val = some h ∧ x.usesOnly [(8, 8), (16, 4)] = true ∧ (match (s.chip w).rangeDomain h.val (x.field 8 8) (x.field 16 4) with | .ok y => some y | .error _ => none) = some d ∧ (s.chip w).writtenIn (x.field 8 8 / 2 ^ 21) (x.field 16 4) = [e] ∧ ((s.chip w).ext e).state = 1 ∧ (s.chip w).policy e ≠ 3 ∧ (s.chip w).isKeeper = true ∧ (s.chip w).migrating e true = false) ∧
    (∃ (w : Twin) (q : Fin 64) (x : RingCmd) (h : Fin 24) (d : Nat) (e : Nat) (s : State), s.carries w q x = true ∧ x.opcode = 0x105 ∧ (s.chip w).ringOwner q.val = some h ∧ x.usesOnly [(8, 8), (16, 4)] = true ∧ (match (s.chip w).rangeDomain h.val (x.field 8 8) (x.field 16 4) with | .ok y => some y | .error _ => none) = some d ∧ (s.chip w).writtenIn (x.field 8 8 / 2 ^ 21) (x.field 16 4) = [e] ∧ ((s.chip w).ext e).state = 2 ∧ (s.chip w).policy e ≠ 0 ∧ (s.chip w).isKeeper = true ∧ (s.chip w).migrating e false = false) ∧
    (∃ (w : Twin) (q : Fin 64) (x : RingCmd) (h : Fin 24) (d : Nat) (e : Nat) (s : State), s.carries w q x = true ∧ x.opcode = 0x106 ∧ (s.chip w).ringOwner q.val = some h ∧ x.usesOnly [(8, 8), (16, 4)] = true ∧ (match (s.chip w).rangeDomain h.val (x.field 8 8) (x.field 16 4) with | .ok y => some y | .error _ => none) = some d ∧ (s.chip w).writtenIn (x.field 8 8 / 2 ^ 21) (x.field 16 4) = [e] ∧ ((s.chip w).ext e).state ≠ 0 ∧ (s.chip w).inCommons (e * 2 ^ 21) = false ∧ (s.chip w).isKeeper = true) ∧
    (∃ (w : Twin) (slot : Fin 256) (block : Nat) (s : State), (s.chip w).up = true ∧ ((s.chip w).route slot.val).asked.contains block = true) :=
  ⟨⟨.A, 0, cmd 0x104 [(16, 1)], 0, 0, 0, ringed [cmd 0x104 [(16, 1)]], by decide +kernel⟩,
    ⟨.A, 0, cmd 0x105 [(16, 1)], 0, 0, 0, (ringed [cmd 0x105 [(16, 1)]]).mapA fun c => { c with trm := { c.trm with ext := [(0, { state := 2, frame := some 0 })] } }, by decide +kernel⟩,
    ⟨.A, 0, cmd 0x106 [(16, 1)], 0, 0, 0, ringed [cmd 0x106 [(16, 1)]], by decide +kernel⟩,
    ⟨.A, 3, 0, hosted.mapA fun c => { c with rte := { slots := [(3, { state := 2, length := 4, asked := [0] })] } }, by decide +kernel⟩⟩

theorem witness_EnvelopesComplete :
    (∃ (w : Twin) (e : Envelope) (s : State), s.arriving w = some e ∧ e.body = .fill ∧ (s.chip w).link.waiting = []) ∧
    (∃ (w : Twin) (e : Envelope) (f : Frame) (s : State), s.arriving w = some e ∧ e.body = .frame f ∧ (f.twin == (s.chip w).twin) = false ∧ Chip.seqAfter e.seq (s.chip w).link.rxSeq = 1 ∧ (s.chip w).mode ≠ mHELD) ∧
    (∃ (w : Twin) (e : Envelope) (n : Nat) (l : List PmRecord) (s : State), s.arriving w = some e ∧ e.body = .postmark n l ∧ Chip.seqAfter e.seq (s.chip w).link.rxSeq = 1 ∧ (s.chip w).aligned = true ∧ (s.chip w).mode ≠ mISOLATED) ∧
    (∃ (w : Twin) (e : Envelope) (h : Fin 24) (flit : Nat) (s : State), s.arriving w = some e ∧ e.body = .fetchAsk h .deviceToHost flit ∧ Chip.seqAfter e.seq (s.chip w).link.rxSeq = 1 ∧ (s.chip w).linkSends = true ∧ (s.chip w).link.waiting = [] ∧ (s.chip w).link.replay.length < 512) ∧
    (∃ (w : Twin) (e : Envelope) (dpa : Nat) (s : State), s.arriving w = some e ∧ e.body = .repairAsk dpa ∧ Chip.seqAfter e.seq (s.chip w).link.rxSeq = 1 ∧ (s.chip w).linkSends = true ∧ (s.chip w).link.waiting = [] ∧ (s.chip w).link.replay.length < 512 ∧ (s.chip w).trm.repairDue.contains dpa = false ∧ (s.chip w).cannotServe dpa = false) ∧
    (∃ (w : Twin) (e : Envelope) (x : BridgedWrite) (s : State), s.arriving w = some e ∧ e.body = .bridge [x] ∧ Chip.seqAfter e.seq (s.chip w).link.rxSeq = 1 ∧ (s.chip w).mode = mMIRRORED ∧ (s.chip w).isCarbon (portOf x.head) = true ∧ ((s.chip w).head x.head).lastStored = none ∧ (s.chip w).inCommons x.dpa = false ∧ x.enables = allBytes ∧ x.dpa % 64 = 0 ∧ (s.chip w).wmbEntry x.dpa = {}) ∧
    (∃ (w : Twin) (e : Envelope) (r : EventRec) (l : Fin 4) (s : State), s.arriving w = some e ∧ e.body = .event r l ∧ r.subcode = 4 ∧ Chip.seqAfter e.seq (s.chip w).link.rxSeq = 1 ∧ (s.chip w).isHome (portOf (Fin.ofNat 24 r.addr)) = true ∧ ((s.chip w).log (Fin.ofNat 24 r.addr) l.val).recs.length < 64) ∧
    (∃ (w : Twin) (e : Envelope) (r : Nat) (s : State), s.arriving w = some e ∧ e.body = .rekeyAsk r ∧ Chip.seqAfter e.seq (s.chip w).link.rxSeq = 1) ∧
    (∃ (w : Twin) (e : Envelope) (line : Nat) (x : DirEntry) (s : State), s.arriving w = some e ∧ e.body = .resyncDirectory line x ∧ Chip.seqAfter e.seq (s.chip w).link.rxSeq = 1 ∧ (s.chip w).mode = mJOINING) :=
  ⟨⟨.A, letter .fill, mailed .fill, by decide +kernel⟩,
    ⟨.A, letter (.frame frameB), frameB, mailed (.frame frameB), by decide +kernel⟩,
    ⟨.A, letter (.postmark 4 [.hold 0 true]), 4, [.hold 0 true], mailed (.postmark 4 [.hold 0 true]), by decide +kernel⟩,
    ⟨.A, letter (.fetchAsk 0 .deviceToHost 3), 0, 3, mailed (.fetchAsk 0 .deviceToHost 3), by decide +kernel⟩,
    ⟨.A, letter (.repairAsk 0), 0, mailed (.repairAsk 0), by decide +kernel⟩,
    ⟨.A, letter (.bridge [⟨4, ⟨1, 0⟩, 0, allBytes, 9, false⟩]), ⟨4, ⟨1, 0⟩, 0, allBytes, 9, false⟩, mailed (.bridge [⟨4, ⟨1, 0⟩, 0, allBytes, 9, false⟩]), by decide +kernel⟩,
    ⟨.A, letter (.event ⟨.showick, .B, 0x240, 0, 4, 0, 0, 1, 0⟩ 1), ⟨.showick, .B, 0x240, 0, 4, 0, 0, 1, 0⟩, 1, mailed (.event ⟨.showick, .B, 0x240, 0, 4, 0, 0, 1, 0⟩ 1), by decide +kernel⟩,
    ⟨.A, letter (.rekeyAsk 9), 9, mailed (.rekeyAsk 9), by decide +kernel⟩,
    ⟨.A, letter (.resyncDirectory 64 { state := 1, presence := 2 }), 64, { state := 1, presence := 2 }, (mailed (.resyncDirectory 64 { state := 1, presence := 2 })).onA [(F.ROLE_PAIR_STATE_MODE, 5)], by decide +kernel⟩⟩

theorem witness_LinkComplete :
    (∃ (w : Twin) (badTag : Bool) (e : Envelope) (s : State), s.arriving w = some e) ∧
    (∃ (w : Twin) (s : State), (s.chip w).up = true ∧ 3 ≤ (s.chip w).link.authRun) ∧
    (∃ (w : Twin) (lane : Fin 18) (e : Envelope) (s : State), s.arriving w = some e ∧ (e.body.cls = 1 ∨ e.body.cls = 2)) ∧
    (∃ (w : Twin) (locked : BitVec 18) (delayNs : Nat) (s : State), (s.chip w).up = true ∧ (s.chip w.other).up = true ∧ (s.chip w).mode ≠ mHELD ∧ (s.chip w.other).mode ≠ mHELD ∧ (s.chip w).svc.held = false ∧ (s.chip w.other).svc.held = false ∧ (s.chip w).linkUp = false ∧ (s.chip w).cfg F.CXK_CXK_CFG_MIN_LANES ≤ ((s.chip w).lanesTrained locked).lanesInUse.length) ∧
    (∃ (w : Twin) (locked : BitVec 18) (delayNs : Nat) (s : State), (s.chip w).up = true ∧ (s.chip w.other).up = true ∧ (s.chip w).mode ≠ mHELD ∧ (s.chip w.other).mode ≠ mHELD ∧ (s.chip w).svc.held = false ∧ (s.chip w.other).svc.held = false ∧ (s.chip w).linkUp = false) ∧
    (∃ (w : Twin) (s : State), (s.chip w).up = true ∧ (s.chip w).get F.CXK_LINK_STATE = 0 ∧ (s.chip w).mode ≠ mHELD ∧ (s.chip w).svc.held = false) ∧
    (∃ (w : Twin) (lane : Fin 18) (s : State), (s.chip w).up = true ∧ (s.chip w).is (F.CXLANE_LANE_LOCK lane.val) = true) ∧
    (∃ (w : Twin) (lane : Fin 18) (spare : Fin 18) (s : State), (s.chip w).up = true ∧ (s.chip w).link.sparing.contains (lane.val, spare.val) = true ∧ lane ≠ spare) ∧
    (∃ (w : Twin) (r : Nat) (s : State), (s.chip w).up = true ∧ (s.chip w).link.rekeyAt = some r ∧ r ≤ (s.chip w).round ∧ (s.chip w).get F.CXK_KEY_EPOCH < 2 ^ 31) :=
  ⟨⟨.A, true, letter .delayProbe, mailed .delayProbe, by decide +kernel⟩,
    ⟨.A, paired.mapA fun c => { c with link := { c.link with authRun := 3 } }, by decide +kernel⟩,
    ⟨.A, 0, letter (.frame frameB), mailed (.frame frameB), by decide +kernel⟩,
    ⟨.A, 0x3FFFF, 20, both, by decide +kernel⟩,
    ⟨.A, 0, 20, both, by decide +kernel⟩,
    ⟨.A, both, by decide +kernel⟩,
    ⟨.A, 3, paired.onA [(F.CXLANE_LANE_LOCK 3, 1), (F.CXLANE_LANE_IN_USE 3, 1)], by decide +kernel⟩,
    ⟨.A, 3, 17, paired.mapA fun c => { c with link := { c.link with sparing := [(3, 17)] } }, by decide +kernel⟩,
    ⟨.A, 0, paired.mapA fun c => { c with link := { c.link with rekeyAt := some 0 } }, by decide +kernel⟩⟩

theorem witness_RecordsComplete :
    (∃ (w : Twin) (n : Nat) (h : Fin 24) (pos : Nat) (s : State), (s.chip w).up = true ∧ (s.chip w).nextRec = some (n, .writeWm h pos)) ∧
    (∃ (w : Twin) (n : Nat) (h : Fin 24) (flit : Nat) (s : State), (s.chip w).up = true ∧ (s.chip w).nextRec = some (n, .tapWm h .hostToDevice flit)) ∧
    (∃ (w : Twin) (n : Nat) (h : Fin 24) (pos : Nat) (s : State), (s.chip w).up = true ∧ (s.chip w).nextRec = some (n, .drainWm h pos)) ∧
    (∃ (w : Twin) (n : Nat) (d : Nat) (pos : Nat) (line : Nat) (num : Nat) (h : Fin 24) (x : Tag) (s : State), (s.chip w).up = true ∧ (s.chip w).nextRec = some (n, .order d h .access pos line num) ∧ (s.chip w).seenTo h pos = true ∧ (s.chip w).tags = [x] ∧ x.stage = .order ∧ x.isTag = false ∧ x.req.head = h ∧ x.req.pos.code = pos ∧ x.req.kind = .memRdData ∧ (s.chip w).che.ordered = [] ∧ (s.chip w).che.snoops = [] ∧ (s.chip w).che.victims = [] ∧ (s.chip w).che.early = [] ∧ (s.chip w).dirEntry x.dpa = {} ∧ (s.chip w).arbitrates x.dpa = false) ∧
    (∃ (w : Twin) (n : Nat) (d : Nat) (pos : Nat) (line : Nat) (num : Nat) (h : Fin 24) (x : Tag) (s : State), (s.chip w).up = true ∧ (s.chip w).nextRec = some (n, .order d h .sweep pos line num) ∧ (s.chip w).seenTo h pos = true ∧ (s.chip w).tags = [x] ∧ x.stage = .order ∧ x.isTag = false ∧ x.req.head = h ∧ x.req.pos.code = pos ∧ x.req.kind = .memRdData ∧ (s.chip w).che.ordered = [] ∧ (s.chip w).che.snoops = [] ∧ (s.chip w).che.victims = [] ∧ (s.chip w).che.early = [] ∧ (s.chip w).che.clearing = [] ∧ (s.chip w).dirEntry x.dpa = {} ∧ (s.chip w).inCommons x.dpa = true ∧ (s.chip w).arbitrates x.dpa = false) ∧
    (∃ (w : Twin) (n : Nat) (d : Nat) (pos : Nat) (line : Nat) (num : Nat) (h : Fin 24) (s : State), (s.chip w).up = true ∧ (s.chip w).nextRec = some (n, .order d h .victim pos line num) ∧ (s.chip w).tags = [] ∧ (s.chip w).che.ordered = [] ∧ (s.chip w).che.early = [] ∧ (s.chip w).che.sram = []) ∧
    (∃ (w : Twin) (n : Nat) (d : Nat) (pos : Nat) (line : Nat) (num : Nat) (h : Fin 24) (s : State), (s.chip w).up = true ∧ (s.chip w).nextRec = some (n, .order d h .handoff pos line num)) ∧
    (∃ (w : Twin) (n : Nat) (x : AliasWrite) (s : State), (s.chip w).up = true ∧ (s.chip w).nextRec = some (n, .aliasWrite x)) ∧
    (∃ (w : Twin) (n : Nat) (h : Fin 24) (l : Fin 4) (r : EventRec) (s : State), (s.chip w).up = true ∧ (s.chip w).nextRec = some (n, .log h l r) ∧ ((s.chip w).log h l.val).recs.length < 64) ∧
    (∃ (w : Twin) (n : Nat) (e : Effect) (ends : Option Ends) (s : State), (s.chip w).up = true ∧ (s.chip w).nextRec = some (n, .effect e true ends)) ∧
    (∃ (w : Twin) (n : Nat) (m : Nat) (s : State), (s.chip w).up = true ∧ (s.chip w).nextRec = some (n, .applied m) ∧ (m + 2 ^ 32 - (s.chip w).get F.PMK_PM_SEQ_PEER_APPLIED) % 2 ^ 32 < 2 ^ 31) ∧
    (∃ (w : Twin) (n : Nat) (dpa : Nat) (s : State), (s.chip w).up = true ∧ (s.chip w).nextRec = some (n, .hold dpa true)) ∧
    (∃ (w : Twin) (n : Nat) (dpa : Nat) (s : State), (s.chip w).up = true ∧ (s.chip w).nextRec = some (n, .hold dpa false)) ∧
    (∃ (w : Twin) (g : GatedEffect) (bytes : List Byte) (s : State), (s.chip w).up = true ∧ (s.chip w).twe.gated = [g] ∧ g.effect = .alerts bytes ∧ (s.chip w).gatedDue g = true) ∧
    (∃ (w : Twin) (h : Fin 24) (hostAck : Nat) (y : TxFlit) (s : State), (s.chip w).up = true ∧ (s.chip w).isCarbon (portOf h) = true ∧ (s.chip w).trackState h = 2 ∧ ((s.chip w.other).head h).txHist.find? (fun x => x.flit == (s.chip w).nextDown h) = some y) :=
  ⟨⟨.A, 7, 0, 32, record (.writeWm 0 32), by decide +kernel⟩,
    ⟨.A, 7, 0, 3, record (.tapWm 0 .hostToDevice 3), by decide +kernel⟩,
    ⟨.A, 7, 0, 32, record (.drainWm 0 32), by decide +kernel⟩,
    ⟨.A, 7, 0, 16, 0, 0, 1, { req := { ask with head := 1, kind := .memRdData }, dpa := 0, isTag := false, stage := .order }, follows .access, by decide +kernel⟩,
    ⟨.A, 7, 0, 16, 0, 0, 1, { req := { ask with head := 1, kind := .memRdData }, dpa := 0, isTag := false, stage := .order }, follows .sweep, by decide +kernel⟩,
    ⟨.A, 7, 0, 16, 0, 0, 1, (follows .victim).mapA fun c => { c with tags := [] }, by decide +kernel⟩,
    ⟨.A, 7, 0, 16, 0, 0, 1, follows .handoff, by decide +kernel⟩,
    ⟨.A, 7, ⟨.B, 0, .coreM 0, ⟨0x080, 0x100, 4, 5⟩⟩, record (.aliasWrite ⟨.B, 0, .coreM 0, ⟨0x080, 0x100, 4, 5⟩⟩), by decide +kernel⟩,
    ⟨.A, 7, 0, 1, ⟨.showick, .B, 0x240, 0, 4, 0, 0, 1, 0⟩, record (.log 0 1 ⟨.showick, .B, 0x240, 0, 4, 0, 0, 1, 0⟩), by decide +kernel⟩,
    ⟨.A, 7, .shutdown true, none, record (.effect (.shutdown true) true none), by decide +kernel⟩,
    ⟨.A, 7, 5, record (.applied 5), by decide +kernel⟩,
    ⟨.A, 7, 64, record (.hold 64 true), by decide +kernel⟩,
    ⟨.A, 7, 64, (record (.hold 64 false)).mapA fun c => { c with twe := { c.twe with holds := [64] } }, by decide +kernel⟩,
    ⟨.A, ⟨.A, 1, .alerts [3], none, some 0⟩, [3], paired.mapA fun c => { c with clk := { c.clk with round := 2 }, twe := { c.twe with gated := [⟨.A, 1, .alerts [3], none, some 0⟩] } }, by decide +kernel⟩,
    ⟨.A, 4, 0, ⟨1, .cmp ⟨0, 0⟩ 0, none, (0, 0), 0⟩, (tracks 2).mapB fun c => c.mapHead 4 fun x => { x with txHist := [⟨1, .cmp ⟨0, 0⟩ 0, none, (0, 0), 0⟩] }, by decide +kernel⟩⟩

theorem witness_PeerChecksComplete :
    (∃ (w : Twin) (s : State), (s.chip w).up = true ∧ (s.chip w).mode ≠ mHELD ∧ (s.chip w).twe.hbSeen = true) ∧
    (∃ (w : Twin) (s : State), (s.chip w).up = true ∧ (s.chip w).mirrored = true ∧ (s.chip w).twe.hbSeen = false ∧ 1 ≤ (s.chip w).twe.bothLost) ∧
    (∃ (w : Twin) (s : State), (s.chip w).up = true ∧ (s.chip w).mirrored = true ∧ (s.chip w).get F.CXK_LINK_STATE = 0 ∧ (s.chip w).is F.ROLE_PAIR_STATE_PULSE_OK = true ∧ (s.chip w).twe.lossDeclared = none ∧ (s.chip w).twin = .B) ∧
    (∃ (w : Twin) (s : State), (s.chip w).up = true ∧ (s.chip w).mirrored = true ∧ (s.chip w).get F.CXK_LINK_STATE = 0 ∧ (s.chip w).is F.ROLE_PAIR_STATE_PULSE_OK = true ∧ (s.chip w).twe.lossDeclared = none ∧ (s.chip w).twin = .A ∧ (∀ p : Fin 6, (s.chip w).is (F.HP_PORT_STATUS_OWN_IN p.val) = false)) ∧
    (∃ (w : Twin) (r : Nat) (p : Fin 6) (s : State), (s.chip w).up = true ∧ (s.chip w).twe.lossDeclared = some r ∧ (s.chip w).twin = .A ∧ (s.chip w).is (F.HP_PORT_STATUS_OWN_IN p.val) = true ∧ r + (s.chip w).cfg F.ROLE_DETECT_CFG_ISOLATE_LIMIT ≤ (s.chip w).round) :=
  ⟨⟨.A, paired.mapA fun c => { c with twe := { c.twe with hbSeen := true } }, by decide +kernel⟩,
    ⟨.A, paired.mapA fun c => { c with twe := { c.twe with bothLost := 1 } }, by decide +kernel⟩,
    ⟨.B, paired.onB [(F.CXK_LINK_STATE, 0), (F.ROLE_PAIR_STATE_PULSE_OK, 1)], by decide +kernel⟩,
    ⟨.A, paired.onA [(F.CXK_LINK_STATE, 0), (F.ROLE_PAIR_STATE_PULSE_OK, 1)], by decide +kernel⟩,
    ⟨.A, 0, 1, (paired.onA [(F.HP_PORT_STATUS_OWN_IN 1, 1)]).mapA fun c => { c with clk := { c.clk with round := 9999999 }, twe := { c.twe with lossDeclared := some 0 } }, by decide +kernel⟩⟩

theorem witness_TakeoversComplete :
    (∃ (w : Twin) (p : Fin 6) (s : State), (s.chip w).up = true ∧ (s.chip w).mirrored = true ∧ (s.chip w).role p = 2 ∧ (s.chip w).is (F.HP_PORT_STATUS_OWN_IN p.val) = true ∧ (s.chip w.other).up = false ∧ (s.chip w).twe.handing = [] ∧ (s.chip w).twe.lossDeclared = none) ∧
    (∃ (w : Twin) (p : Fin 6) (s : State), (s.chip w).up = true ∧ (s.chip w).is (F.HP_PORT_STATUS_OWN_IN p.val) = false ∧ (s.chip w.other).up = true ∧ (s.chip w.other).ownOut p = true) ∧
    (∃ (w : Twin) (s : State), (s.chip w).up = true ∧ (s.chip w).mirrored = true ∧ (s.chip w).pullsDead = false ∧ (s.chip w.other).pullsDead = true) ∧
    (∃ (w : Twin) (s : State), (s.chip w).up = true ∧ (s.chip w.other).pullsDead = false) ∧
    (∃ (w : Twin) (p : Fin 6) (s : State), (s.chip w).up = true ∧ (s.chip w).is (F.HP_PORT_STATUS_OWN_IN p.val) = false ∧ (s.chip w).role p = 1 ∧ (s.chip w).svc.held = false) ∧
    (∃ (w : Twin) (h : Fin 24) (ns : Nat) (s : State), (s.chip w).up = true ∧ (s.chip w).role (portOf h) = 4 ∧ (s.chip w).transmits (portOf h) = true ∧ (s.chip w).recovering (portOf h) = [h]) ∧
    (∃ (w : Twin) (n : Fin 9) (s : State), (s.chip w).up = true ∧ (s.chip w).mirrored = true ∧ (s.chip w).saveActive = false) ∧
    (∃ (w : Twin) (s : State), (s.chip w.other).fenceOut = true ∧ (s.chip w).rst.fenced = false) ∧
    (∃ (w : Twin) (s : State), (s.chip w.other).fenceOut = false ∧ (s.chip w).rst.fenced = true ∧ (s.chip w).rst.powered = true ∧ (s.chip w).rst.resetN = false) ∧
    (∃ (w : Twin) (rq : Requester) (s : State), (s.chip w).up = true ∧ (s.chip w).mayWrite rq 0x070 = true) :=
  ⟨⟨.A, 1, (paired.onA [(F.HP_PORT_STATUS_OWN_IN 1, 1)]).mapB fun c => { c with rst := { c.rst with powered := false } }, by decide +kernel⟩,
    ⟨.A, 1, paired, by decide +kernel⟩,
    ⟨.A, paired.onB [(F.ROLE_PAIR_STATE_MODE, 6)], by decide +kernel⟩,
    ⟨.A, paired.onA [(F.ROLE_PAIR_STATE_DEAD_SEEN, 1)], by decide +kernel⟩,
    ⟨.A, 0, paired.onA [(F.HP_PORT_STATUS_GUARD_MET 0, 0), (F.HP_PORT_STATUS_OWN_OUT 0, 0)], by decide +kernel⟩,
    ⟨.A, 0, 100, paired.onA [(roleFld 0, 4), (F.HLNK_LINK_LTSSM 0, 4)], by decide +kernel⟩,
    ⟨.A, 0, paired, by decide +kernel⟩,
    ⟨.A, paired.onB [(F.ROLE_PAIR_STATE_FENCE_OUT, 1)], by decide +kernel⟩,
    ⟨.A, paired.mapA fun c => { c with rst := { c.rst with fenced := true } }, by decide +kernel⟩,
    ⟨.A, .coreM 0, paired.onA [(F.ROLE_PAIR_STATE_FENCE_OUT, 1)], by decide +kernel⟩⟩

theorem witness_HandoversComplete :
    (∃ (w : Twin) (p : Fin 6) (s : State), s.bothMirrored = true ∧ s.alignFault = false ∧ s.a.twe.handing = [] ∧ s.a.twe.handoverWait = [(p, 0)] ∧ s.portTracked p = true ∧ s.homeOf p = some w ∧ (s.chip w).role p = 1) ∧
    (∃ (w : Twin) (v : Twin) (rq : Requester) (p : Fin 6) (s : State), s.acceptor rq = some v ∧ (s.chip v).mayWrite rq 0x070 = true ∧ (s.chip v).get F.ROLE_TAKEOVER_PORT = p.val ∧ s.drillCode p = 0 ∧ s.a.running 0x070 = true ∧ s.b.running 0x070 = true ∧ s.homeOf p = some w ∧ (s.chip w).role p = 1) ∧
    (∃ (w : Twin) (p : Fin 6) (r : Nat) (s : State), s.a.twe.drilling = some p ∧ s.a.twe.drillBack = some (p, some r) ∧ s.bothMirrored = true ∧ s.alignFault = false ∧ r + s.a.get F.ROLE_TAKEOVER_HOLD_ROUNDS ≤ s.a.round ∧ s.homeOf p = some w ∧ (s.chip w).role p = 1) ∧
    (∃ (w : Twin) (v : Twin) (h : Fin 24) (p : Fin 6) (s : State), s.homeOf (portOf h) = some v ∧ s.linkIn h = true ∧ ((s.chip v).head h).mailBusy = none ∧ (s.chip v).isManager h = true ∧ s.drillCode p = 0 ∧ s.a.running 0x070 = true ∧ s.b.running 0x070 = true ∧ s.homeOf p = some w ∧ (s.chip w).role p = 1) ∧
    (∃ (w : Twin) (s : State), (s.chip w).up = true ∧ (s.chip w).mode = mSTARTING ∧ (s.chip w).rst.step = 8 ∧ (s.chip w).twe.peerFrame = none ∧ (s.chip w).cfg F.ROLE_START_CFG_SOLO_ALLOW = 0) ∧
    (∃ (w : Twin) (s : State), (s.chip w).up = true ∧ (s.chip w).mode = mSTARTING ∧ (s.chip w).rst.step = 8 ∧ (s.chip w).twe.peerFrame = none ∧ (s.chip w).cfg F.ROLE_START_CFG_SOLO_ALLOW = 1) ∧
    (∃ (w : Twin) (n : Fin 9) (s : State), (s.chip w).up = true ∧ (s.chip w).twin = .A ∧ (s.chip w).mode = mSTARTING ∧ (s.chip w).twe.startLinkDown = true ∧ (s.chip w).linkUp = false) :=
  ⟨⟨.A, 0, paired.mapA fun c => { c with twe := { c.twe with handoverWait := [(0, 0)] } }, by decide +kernel⟩,
    ⟨.A, .A, .coreM 0, 0, (paired.onA (starts 0x070)).onB (starts 0x070), by decide +kernel⟩,
    ⟨.A, 0, 0, (paired.mapA fun c => { c with clk := { c.clk with round := 99999999 }, twe := { c.twe with drilling := some 0, drillBack := some (0, some 0) } }), by decide +kernel⟩,
    ⟨.A, .A, 0, 2, (paired.onA (starts 0x070 ++ [(F.HLNK_LINK_LTSSM 0, 3), (F.SEC_HOST_MGR_HEADS, 1)])).onB (starts 0x070), by decide +kernel⟩,
    ⟨.A, (both.onA [(F.ROLE_START_CFG_SOLO_ALLOW, 0)]).mapA fun c => { c with rst := { c.rst with step := 8 } }, by decide +kernel⟩,
    ⟨.A, (both.onA [(F.ROLE_START_CFG_SOLO_ALLOW, 1)]).mapA fun c => { c with rst := { c.rst with step := 8 } }, by decide +kernel⟩,
    ⟨.A, 0, both.mapA fun c => { c with twe := { c.twe with startLinkDown := true } }, by decide +kernel⟩⟩

theorem witness_RepairsComplete :
    (∃ (w : Twin) (line : Nat) (x : Tag) (s : State), (s.chip w).up = true ∧ line % 64 = 0 ∧ x ∈ (s.chip w).tags ∧ x.stage = .repair ∧ x.dpa = line ∧ (s.chip w).twe.repairs = [] ∧ (s.chip w).twinHasCopy = true) ∧
    (∃ (w : Twin) (line : Nat) (data : Line) (s : State), (s.chip w).up = true ∧ (s.chip w.other).up = true ∧ (s.chip w).mirrored = true ∧ (s.chip w).linkUp = true ∧ (s.chip w).cfgOn F.REP_CSIGN_CFG_ENABLE = true ∧ line % 64 = 0 ∧ (s.chip w).inCommons line = false ∧ (s.chip w).cleanBackCopy line = false ∧ (s.chip w.other).cleanBackCopy line = false) ∧
    (∃ (w : Twin) (s : State), (s.chip w).up = true ∧ (s.chip w).running 0x0D0 = true ∧ (s.chip w).cfg F.GOV_HOLDUP_CFG_RISE_ROUNDS ≤ (s.chip w).svc.risingRun ∧ 0 < (s.chip w).svc.risingRun ∧ (s.chip w).svc.risingMin ≤ 7) :=
  ⟨⟨.A, 0, waiting .repair, paired.mapA fun c => { c with tags := [waiting .repair] }, by decide +kernel⟩,
    ⟨.A, 0, 5, paired.onA [(F.REP_CSIGN_CFG_ENABLE, 1)], by decide +kernel⟩,
    ⟨.A, (both.onA (starts 0x0D0)).mapA fun c => { c with svc := { c.svc with risingRun := 99999, risingMin := 5 } }, by decide +kernel⟩⟩

theorem witness_ResyncComplete :
    (∃ (v : Twin) (j : Twin) (s : State), s.resyncing 1 = some (v, j) ∧ (pairPages.all fun p => (s.chip v).pageDigest p == (s.chip j).pageDigest p) = true) ∧
    (∃ (v : Twin) (j : Twin) (s : State), s.resyncing 2 = some (v, j) ∧ (s.chip v).toCopy true = [] ∧ (s.chip v).copiesEnded = true) ∧
    (∃ (v : Twin) (j : Twin) (s : State), s.resyncing 3 = some (v, j) ∧ (s.chip v).toCopy true = [] ∧ (s.chip v).toCopy false = [] ∧ (s.chip v).copiesEnded = true) ∧
    (∃ (v : Twin) (j : Twin) (s : State), s.resyncing 4 = some (v, j) ∧ (allHeads.all fun h => !(s.chip v).inL0 h || (s.chip j).trackState h == 2) = true ∧ (s.chip j).get F.CLK_ALIGN_STATE_STATE = 2) ∧
    (∃ (v : Twin) (j : Twin) (s : State), s.resyncing 1 = some (v, j) ∧ (s.chip j).get F.TIER_CAPACITY_HOST_256M < (s.chip v).get F.TIER_CAPACITY_HOST_256M) ∧
    (∃ (w : Twin) (e : Nat) (s : State), (s.chip w).up = true ∧ (s.chip w).copyStarts = [e] ∧ (s.chip w).twe.inCopy.contains e = false) ∧
    (∃ (v : Twin) (j : Twin) (e : Nat) (bytes : List (Nat × Byte)) (s : State), s.resyncing 2 = some (v, j) ∧ ((s.chip j).twe.arrived.find? fun x => x.1 == e) = some (e, bytes, []) ∧ (s.chip j).twe.inCopy.contains e = true ∧ ((s.chip j).ext e).state = 2 ∧ ((s.chip j).ext e).frame.isSome = true) ∧
    (∃ (w : Twin) (s : State), (s.chip w).isSpeaker = true ∧ (s.chip w).twe.endpointUp = false) :=
  ⟨⟨.A, .B, resyncs 1, by decide +kernel, resyncs_digests⟩,
    ⟨.A, .B, resyncs 2, by decide +kernel⟩,
    ⟨.A, .B, resyncs 3, by decide +kernel⟩,
    ⟨.A, .B, resyncs 4, by decide +kernel⟩,
    ⟨.A, .B, (resyncs 1).onA [(F.TIER_CAPACITY_HOST_256M, 4)], by decide +kernel⟩,
    ⟨.A, 3, (resyncs 2).mapA fun c => { c with twe := { c.twe with copyDue := [(3, 0)] } }, by decide +kernel⟩,
    ⟨.A, .B, 3, [(3 * 2 ^ 21, 5)], (resyncs 2).mapB fun c => { c with trm := { c.trm with ext := [(3, { state := 2, frame := some 0 })] }, twe := { c.twe with inCopy := [3], arrived := [(3, [(3 * 2 ^ 21, 5)], [])] } }, by decide +kernel⟩,
    ⟨.A, paired, by decide +kernel⟩⟩

theorem witness_RetirementsComplete :
    (∃ (w : Twin) (q : Fin 64) (x : RingCmd) (s : State), s.carries w q x = true ∧ x.opcode = 0x300 ∧ x.usesOnly [(16, 1), (20, 8)] = true ∧ x.field 16 1 = (s.chip w).rst.twinId ∧ (s.chip w).rst.twinId ≤ 1 ∧ (s.chip w).rowPopulated (Chip.placeOf (x.field 20 8)) = true ∧ (s.chip w).cbl.hpprRows.contains ((Chip.placeOf (x.field 20 8)).ch, (Chip.placeOf (x.field 20 8)).rowKey) = false ∧ (s.chip w).cbl.spprRows.contains ((Chip.placeOf (x.field 20 8)).ch, (Chip.placeOf (x.field 20 8)).rowKey) = false ∧ (s.chip w).cbl.framesRetired = [] ∧ (s.chip w).pprMay = true) ∧
    (∃ (w : Twin) (q : Fin 64) (x : RingCmd) (f : Nat) (s : State), s.carries w q x = true ∧ x.opcode = 0x301 ∧ x.usesOnly [(8, 8), (16, 1)] = true ∧ x.field 16 1 = (s.chip w).rst.twinId ∧ (s.chip w).rst.twinId ≤ 1 ∧ x.field 8 8 % 2 ^ 21 = 0 ∧ (s.chip w).frameAt (x.field 8 8) = some f ∧ (s.chip w).cbl.framesRetired.contains f = false ∧ (s.chip w).poolNeed + 1 ≤ (s.chip w).poolFrames ∧ ((s.chip w).trm.ext.all fun y => y.2.frame != some f) = true) ∧
    (∃ (w : Twin) (q : Fin 64) (x : RingCmd) (s : State), s.carries w q x = true ∧ x.opcode = 0x302 ∧ x.usesOnly [(8, 8), (16, 1)] = true ∧ x.field 16 1 = (s.chip w).rst.twinId ∧ (s.chip w).rst.twinId ≤ 1 ∧ x.field 8 8 % 65536 = 0 ∧ ((s.chip w).domainOf (x.field 8 8)).isSome = true ∧ ((s.chip w).parcel (parcelOf (x.field 8 8))).state ≠ 1) :=
  ⟨⟨.A, 0, cmd 0x300 [], (ringed [cmd 0x300 []]).onA ([(F.DCH_DIMM_COUNT 0, 1), (F.DCH_DIMM_GIB 0, 64), (F.DCH_DIMM_RANKS 0, 4), (F.DTR_TRAIN_RESULT 0 0, 1), (F.ROLE_PAIR_STATE_MODE, 1)]), by decide +kernel⟩,
    ⟨.A, 0, cmd 0x301 [(10, 192), (11, 130), (12, 28)], 0, (ringed [cmd 0x301 [(10, 192), (11, 130), (12, 28)]]).fitted, by decide +kernel⟩,
    ⟨.A, 0, cmd 0x302 [], ringed [cmd 0x302 []], by decide +kernel⟩⟩

theorem witness_TierStepsComplete :
    (∃ (w : Twin) (rq : Requester) (d : Fin 64) (reg : Fin 4) (data : Word) (s : State), (s.chip w).up = true ∧ (s.chip w).mayWrite rq 0x0A1 = true ∧ (s.chip w).running 0x0A1 = false) ∧
    (∃ (w : Twin) (rq : Requester) (d : Fin 64) (reg : Fin 4) (data : Word) (x : Chip) (s : State), (s.chip w).up = true ∧ (s.chip w).mayWrite rq 0x0A1 = true ∧ (s.chip w).running 0x0A1 = true ∧ x = ((s.chip w).wr 0x0A1 (Chip.domOff d.val reg.val) (data &&& BitVec.ofNat 32 (Chip.domMask reg.val))).setUsed 0x0A1 (Chip.domOff d.val reg.val) (data &&& BitVec.ofNat 32 (Chip.domMask reg.val)) ∧ (s.chip w).domainCode x d.val (s.pairCapacity w) (s.pairPool w) = 0) ∧
    (∃ (w : Twin) (p : Nat) (s : State), (s.chip w).up = true ∧ ((s.chip w).ext (p / 32)).state = 3 ∧ ((s.chip w).ext (p / 32)).frame.isSome = true ∧ (s.chip w).trm.stepRunning.contains p = true ∧ (s.chip w).patchOf p = []) ∧
    (∃ (w : Twin) (p : Nat) (s : State), (s.chip w).up = true ∧ ((s.chip w).ext (p / 32)).state = 2 ∧ ((s.chip w).ext (p / 32)).frame.isSome = true ∧ (s.chip w).trm.stepRunning.contains p = true ∧ (Chip.contentOf (s.chip w).trm.front p).isEmpty = true ∧ ((s.chip w).trm.frontPoison.filter fun l => l / 65536 == p) = []) ∧
    (∃ (w : Twin) (f : Nat) (e : Nat) (s : State), (s.chip w).up = true ∧ ((s.chip w).trm.freeing.find? fun x => x.1 == f) = some (f, e) ∧ ((s.chip w).tags.any fun t => extentOf t.dpa == e) = false ∧ ((s.chip w).wmb.any fun y => extentOf (y.1 * 64) == e && y.2.state == .draining) = false) ∧
    (∃ (w : Twin) (f : Nat) (s : State), (s.chip w).up = true ∧ (s.chip w).trm.zeroing.contains f = true) :=
  ⟨⟨.A, .coreM 0, 3, 1, 1, both, by decide +kernel⟩,
    ⟨.A, .coreM 0, 3, 1, 4, ((runs 0x0A1).a.wr 0x0A1 (Chip.domOff 3 1) 4).setUsed 0x0A1 (Chip.domOff 3 1) 4, runs 0x0A1, by decide +kernel⟩,
    ⟨.A, 0, stepping 3, by decide +kernel⟩,
    ⟨.A, 1, (stepping 2).mapA fun c => { c with trm := { c.trm with stepRunning := [1] } }, by decide +kernel⟩,
    ⟨.A, 0, 0, framed.mapA fun c => { c with trm := { c.trm with freeing := [(0, 0)] } }, by decide +kernel⟩,
    ⟨.A, 0, framed.mapA fun c => { c with trm := { c.trm with zeroing := [0] } }, by decide +kernel⟩⟩

theorem witness_MetadataCacheComplete :
    (∃ (w : Twin) (s : State), (s.chip w).up = true ∧ (s.chip w).mdc.invalidated = false) ∧
    (∃ (w : Twin) (rq : Requester) (s : State), (s.chip w).up = true ∧ (s.chip w).mayWrite rq 0x0C1 = true ∧ (s.chip w).running 0x0C1 = true ∧ (s.chip w).get F.MNT_OP_STATUS_STATE ≠ 1 ∧ (s.chip w).get F.MNT_OP_KIND = (0)) ∧
    (∃ (w : Twin) (rq : Requester) (s : State), (s.chip w).up = true ∧ (s.chip w).mayWrite rq 0x0C1 = true ∧ (s.chip w).running 0x0C1 = true ∧ (s.chip w).get F.MNT_OP_STATUS_STATE ≠ 1 ∧ (s.chip w).get F.MNT_OP_KIND = (1)) ∧
    (∃ (w : Twin) (rq : Requester) (s : State), (s.chip w).up = true ∧ (s.chip w).mayWrite rq 0x0C1 = true ∧ (s.chip w).running 0x0C1 = true ∧ (s.chip w).get F.MNT_OP_STATUS_STATE ≠ 1 ∧ (s.chip w).get F.MNT_OP_KIND = (2)) ∧
    (∃ (w : Twin) (rq : Requester) (s : State), (s.chip w).up = true ∧ (s.chip w).mayWrite rq 0x0C1 = true ∧ (s.chip w).running 0x0C1 = true ∧ (s.chip w).get F.MNT_OP_STATUS_STATE ≠ 1 ∧ (s.chip w).get F.MNT_OP_KIND = (3)) ∧
    (∃ (w : Twin) (rq : Requester) (s : State), (s.chip w).up = true ∧ (s.chip w).mayWrite rq 0x0C1 = true ∧ (s.chip w).running 0x0C1 = true ∧ (s.chip w).get F.MNT_OP_STATUS_STATE ≠ 1 ∧ (s.chip w).get F.MNT_OP_KIND = (4)) ∧
    (∃ (w : Twin) (line : Nat) (n : Nat) (s : State), (s.chip w).up = true ∧ (s.chip w).mdc.op = some (4, line, n) ∧ (s.chip w).is F.MNT_OP_MODE = false ∧ line + n ≤ 2 ^ 28 ∧ n < 2 ^ 28) ∧
    (∃ (w : Twin) (v : Fin 18) (s : State), (s.chip w).up = true ∧ (s.chip w).mdc.disabling.contains v.val = true) :=
  ⟨⟨.A, both, by decide +kernel⟩,
    ⟨.A, .coreM 0, (runs 0x0C1).onA [(F.MNT_OP_KIND, 0)], by decide +kernel⟩,
    ⟨.A, .coreM 0, (runs 0x0C1).onA [(F.MNT_OP_KIND, 1)], by decide +kernel⟩,
    ⟨.A, .coreM 0, (runs 0x0C1).onA [(F.MNT_OP_KIND, 2)], by decide +kernel⟩,
    ⟨.A, .coreM 0, (runs 0x0C1).onA [(F.MNT_OP_KIND, 3)], by decide +kernel⟩,
    ⟨.A, .coreM 0, (runs 0x0C1).onA [(F.MNT_OP_KIND, 4)], by decide +kernel⟩,
    ⟨.A, 0, 2, both.mapA fun c => { c with mdc := { c.mdc with op := some (4, 0, 2) } }, by decide +kernel⟩,
    ⟨.A, 2, both.mapA fun c => { c with mdc := { c.mdc with disabling := [2] } }, by decide +kernel⟩⟩

theorem witness_MediaComplete :
    (∃ (w : Twin) (p : Nat) (x : MediaRead) (y : Tag) (s : State), (s.chip w).up = true ∧ ((s.chip w).parcel p).state = 1 ∧ (s.chip w).tags = [y] ∧ y.stage = .direct ∧ y.isTag = true ∧ parcelOf y.dpa = p ∧ y.fixed = false ∧ (s.chip w).che.ordered = [] ∧ (s.chip w).mde.merges = [] ∧ (s.chip w).mde.moves = [] ∧ (s.chip w).mde.direct.all (fun d => d.1 != p) = true ∧ x.crcGood = true ∧ ((s.chip w).row ((s.chip w).rowOfLoc ((s.chip w).parcel p).loc)).data ≤ x.good ∧ ((s.chip w).fullLine y.dpa).2 = false) ∧
    (∃ (w : Twin) (p : Nat) (y : Tag) (s : State), (s.chip w).up = true ∧ (s.chip w).tags = [y] ∧ y.stage = .direct ∧ parcelOf y.dpa = p) ∧
    (∃ (w : Twin) (r : Nat) (k : Fin 32) (x : Staged) (s : State), (s.chip w).up = true ∧ (s.chip w).mde.staged = [x] ∧ x.row = r ∧ x.left.testBit k.val = true ∧ (s.chip w).opRuns r k.val false = true ∧ (s.chip w).svcState ≠ 4) ∧
    (∃ (w : Twin) (r : Nat) (k : Fin 32) (s : State), (s.chip w).up = true ∧ ((s.chip w).row r).state = 3 ∧ ((s.chip w).row r).todo = 2 ^ k.val ∧ ((s.chip w).mde.retireAtErase.get (fun _ => 0) r).testBit k.val = false ∧ (s.chip w).opRuns r k.val true = true) ∧
    (∃ (w : Twin) (k : Fin 32) (u : Fin 32) (s : State), (s.chip w).up = true ∧ (s.chip w).mde.retiredLuns.contains (k.val * 32 + u.val) = false) ∧
    (∃ (w : Twin) (p : Nat) (s : State), (s.chip w).up = true ∧ ((s.chip w).ext (p / 32)).state = 1 ∧ (s.chip w).mde.merges.contains p = false ∧ (s.chip w).patchOf p ≠ [] ∧ (s.chip w).mde.patchBorn.get (fun _ => 0) p ≠ 0 ∧ (s.chip w).mde.patchBorn.get (fun _ => 0) p + 2 ^ 20 ≤ (s.chip w).round + 1) ∧
    (∃ (w : Twin) (x : MediaScan) (s : State), (s.chip w).up = true ∧ (s.chip w).get F.MDE_MODE = 1 ∧ (s.chip w).rst.step ≠ 7) :=
  ⟨⟨.A, 0, ⟨28, 0, 0, 0, [], 0, true, 0, 0⟩, waiting .direct, hosted.mapA fun c => { c with tags := [waiting .direct], trm := { c.trm with ext := [(0, { state := 1 })], parcels := [(0, { state := 1, plen := 8, loc := 0 })] } }, by decide +kernel⟩,
    ⟨.A, 0, waiting .direct, hosted.mapA fun c => { c with tags := [waiting .direct] }, by decide +kernel⟩,
    ⟨.A, 5, 3, ⟨0, 5, 0, 4, 8⟩, both.mapA fun c => { c with mde := { c.mde with staged := [⟨0, 5, 0, 4, 8⟩], busy := [⟨0, 3, 5, false, 0, 0, false⟩] } }, by decide +kernel⟩,
    ⟨.A, 5, 3, both.mapA fun c => { c with mde := { c.mde with rows := [(5, { state := 3, todo := 8 })], busy := [⟨0, 3, 5, true, 0, 0, false⟩] } }, by decide +kernel⟩,
    ⟨.A, 3, 2, both, by decide +kernel⟩,
    ⟨.A, 0, hosted.mapA fun c => { c with clk := { c.clk with round := 2 ^ 21 }, mde := { c.mde with patchBorn := [(0, 5)] }, trm := { c.trm with ext := [(0, { state := 1 })], patchLines := [0] } }, by decide +kernel⟩,
    ⟨.A, { blockMib := 16, positions := 2, good := [5, 5], profileId := 1, peTlc := 3000, peSlc := 60000, tprogSlcUs := 500, blocks := 8, pages := 1000, planes := 4, trUs := 60, tprogUs := 600 }, both.onA [(F.MDE_MODE, 1)], by decide +kernel⟩⟩

theorem witness_ModulesComplete :
    (∃ (w : Twin) (rq : Requester) (m : Fin 8) (s : State), (s.chip w).up = true ∧ (s.chip w).mayWrite rq 0x386 = true ∧ (s.chip w).running 0x386 = true ∧ (∀ n : Fin 8, (s.chip w).modState n.val = 1) ∧ (s.chip w).rowsDegraded = 0) ∧
    (∃ (w : Twin) (m : Fin 8) (s : State), (s.chip w).up = true ∧ (s.chip w).modState m.val = 2) ∧
    (∃ (w : Twin) (m : Fin 8) (s : State), (s.chip w).up = true ∧ (s.chip w).modState m.val = 3) ∧
    (∃ (w : Twin) (rq : Requester) (m : Fin 8) (s : State), (s.chip w).up = true ∧ (s.chip w).mayWrite rq 0x386 = true ∧ (s.chip w).running 0x386 = true ∧ (s.chip w).modState m.val ∈ [0, 3, 6] ∧ (s.chip w).is (F.MOD_MODULE_PRESENT m.val) = true) ∧
    (∃ (w : Twin) (m : Fin 8) (s : State), (s.chip w).up = true ∧ (s.chip w).modState m.val = 4) ∧
    (∃ (w : Twin) (m : Fin 8) (s : State), (s.chip w).up = true ∧ (s.chip w).modState m.val = 5) ∧
    (∃ (w : Twin) (k : Fin 32) (s : State), (s.chip w).up = true ∧ (s.chip w).modState (k.val / 4) = 1) :=
  ⟨⟨.A, .coreM 0, 2, (runs 0x386).onA ((List.range 8).map fun m => (F.MOD_MODULE_STATE m, 1)), by decide +kernel⟩,
    ⟨.A, 2, both.onA [(F.MOD_MODULE_STATE 2, 2)], by decide +kernel⟩,
    ⟨.A, 2, both.onA [(F.MOD_MODULE_STATE 2, 3)], by decide +kernel⟩,
    ⟨.A, .coreM 0, 2, (runs 0x386).onA [(F.MOD_MODULE_STATE 2, 3), (F.MOD_MODULE_PRESENT 2, 1)], by decide +kernel⟩,
    ⟨.A, 2, both.onA [(F.MOD_MODULE_STATE 2, 4)], by decide +kernel⟩,
    ⟨.A, 2, both.onA [(F.MOD_MODULE_STATE 2, 5)], by decide +kernel⟩,
    ⟨.A, 9, both.onA [(F.MOD_MODULE_STATE 2, 1)], by decide +kernel⟩⟩

theorem witness_SavesComplete :
    (∃ (w : Twin) (s : State), (s.chip w).svc.pfailLow = false) ∧
    (∃ (w : Twin) (s : State), (s.chip w).up = true ∧ (s.chip w).svc.pfailLow = true ∧ (s.chip w).svcState = 2 ∧ (s.chip w).mirrored = true ∧ (s.chip w).memActive = true) ∧
    (∃ (w : Twin) (s : State), (s.chip w).up = true ∧ (s.chip w).svc.pfailLow = true ∧ (s.chip w).svcState = 2) ∧
    (∃ (w : Twin) (r : Nat) (s : State), (s.chip w).up = true ∧ (s.chip w).svcState = 3 ∧ (s.chip w).svc.committed = some r) ∧
    (∃ (w : Twin) (s : State), (s.chip w).up = true ∧ (s.chip w).svcState = 3 ∧ (s.chip w).svc.decided = true ∧ (s.chip w).svc.lone = true ∧ (s.chip w).mirrored = true) ∧
    (∃ (w : Twin) (s : State), (s.chip w).up = true ∧ (s.chip w).svcState = 3 ∧ (s.chip w).svc.decided = true ∧ (s.chip w).svc.lone = false) ∧
    (∃ (w : Twin) (us : Nat) (tprogUs : Nat) (bad : List Nat) (s : State), (s.chip w).up = true ∧ (s.chip w).svcState = 4 ∧ (s.chip w).psqDir = 2 ∧ (s.chip w).psqState ≠ 0 ∧ us < 2 ^ 32 ∧ (∀ d : Fin 16, (s.chip w).get (F.DRF_PPR_STATUS_STATE d.val) = 0)) ∧
    (∃ (w : Twin) (s : State), (s.chip w).up = true ∧ (s.chip w).saveActive = true) :=
  ⟨⟨.A, both, by decide +kernel⟩,
    ⟨.A, (paired.onA [(F.SAV_SVC_STATE, 2), (F.RST_START_MEM_ACTIVE, 1)]).mapA fun c => { c with svc := { c.svc with pfailLow := true } }, by decide +kernel⟩,
    ⟨.A, (paired.onA [(F.SAV_SVC_STATE, 2)]).mapA fun c => { c with svc := { c.svc with pfailLow := true } }, by decide +kernel⟩,
    ⟨.A, 5, (paired.onA [(F.SAV_SVC_STATE, 3)]).mapA fun c => { c with svc := { c.svc with committed := some 5 } }, by decide +kernel⟩,
    ⟨.A, (paired.onA [(F.SAV_SVC_STATE, 3)]).mapA fun c => { c with svc := { c.svc with committed := some 5, decided := true, lone := true } }, by decide +kernel⟩,
    ⟨.A, (paired.onA [(F.SAV_SVC_STATE, 3)]).mapA fun c => { c with svc := { c.svc with committed := some 5, decided := true } }, by decide +kernel⟩,
    ⟨.A, 900, 600, [], paired.onA [(F.SAV_SVC_STATE, 4), (F.PSQ_PSQ_DIR, 2), (F.PSQ_PSQ_STATE, 9)], by decide +kernel⟩,
    ⟨.A, paired.onA [(F.SAV_SVC_STATE, 4)], by decide +kernel⟩⟩

theorem witness_RestoresComplete :
    (∃ (w : Twin) (copies : Nat) (damaged : Bool) (bad : List Nat) (s : State), (s.chip w).up = true ∧ (s.chip w).rst.step = 7 ∧ (s.chip w).mde.formatted = true) ∧
    (∃ (w : Twin) (own : Summary) (peer : Summary) (s : State), (s.chip w).up = true ∧ (s.chip w).mode = mSTARTING ∧ (s.chip w).aligned = true ∧ (s.chip w).svc.own = some own ∧ (s.chip w).svc.peer = some peer ∧ (s.chip w).peerAlone = false ∧ (s.chip w).choosesNow own peer = true ∧ own.serial = peer.serial ∧ own.serial ≠ 0 ∧ own.usable = true ∧ peer.usable = true ∧ own.epoch = peer.epoch) ∧
    (∃ (w : Twin) (s : State), (s.chip w).up = true ∧ (s.chip w).svc.mapsLoaded = false ∧ 9 ≤ (s.chip w).rst.step ∧ (s.chip w).saveActive = false ∧ (s.chip w).svc.formedNow = false ∧ (s.chip w).svc.source = 1) ∧
    (∃ (w : Twin) (s : State), (s.chip w).up = true ∧ (s.chip w).svc.mapsLoaded = true ∧ (s.chip w).svc.dataLoaded = false ∧ (s.chip w).saveActive = false ∧ (s.chip w).svc.formedNow = false) ∧
    (∃ (w : Twin) (rate : Nat) (tprog : Nat) (fixed : Nat) (ms : Nat) (s : State), (s.chip w).up = true ∧ (s.chip w).svc.calibrated = false ∧ (s.chip w).svc.dataLoaded = true ∧ (s.chip w).svc.source = 1 ∧ (s.chip w).saveActive = false ∧ rate < 2 ^ 32 ∧ ms < 2 ^ 32) ∧
    (∃ (w : Twin) (s : State), (s.chip w).up = true ∧ (s.chip w).svc.mapsLoaded = true ∧ (s.chip w).memActive = true ∧ (s.chip w).saveActive = false) ∧
    (∃ (w : Twin) (s : State), s.restored = true ∧ (s.chip w).up = true ∧ (s.chip w).mirrored = true ∧ (s.chip w).memActive = false) :=
  ⟨⟨.A, 3, false, [], both.mapA fun c => { c with rst := { c.rst with step := 7 }, mde := { c.mde with formatted := true } }, by decide +kernel⟩,
    ⟨.A, ⟨1, false, 4, 0, 9, 0⟩, ⟨1, false, 4, 0, 9, 0⟩, (linked.onA [(F.CLK_ALIGN_STATE_STATE, 2)]).mapA fun c => { c with rst := { c.rst with step := 8 }, clk := { c.clk with round := 9 }, svc := { c.svc with own := some ⟨1, false, 4, 0, 9, 0⟩, peer := some ⟨1, false, 4, 0, 9, 0⟩, summarySent := true } }, by decide +kernel⟩,
    ⟨.A, both.mapA fun c => { c with rst := { c.rst with step := 9 }, svc := { c.svc with source := 1 } }, by decide +kernel⟩,
    ⟨.A, both.mapA fun c => { c with svc := { c.svc with source := 1, mapsLoaded := true } }, by decide +kernel⟩,
    ⟨.A, 60000, 500, 900, 70, both.mapA fun c => { c with svc := { c.svc with source := 1, dataLoaded := true } }, by decide +kernel⟩,
    ⟨.A, both.mapA fun c => { c.with' [(F.RST_START_MEM_ACTIVE, 1)] with svc := { c.svc with mapsLoaded := true } }, by decide +kernel⟩,
    ⟨.A, (paired.mapA fun c => { c with clk := { c.clk with round := 9 }, svc := { c.svc with activeDue := some 5, restoreApplied := [.A, .B] } }).mapB fun c => { c with clk := { c.clk with round := 9 }, svc := { c.svc with activeDue := some 5, restoreApplied := [.A, .B] } }, by decide +kernel⟩⟩

theorem witness_DramUpkeepComplete :
    (∃ (w : Twin) (d : Fin 16) (r : Fin 16) (ranks : BitVec 16) (s : State), (s.chip w).up = true ∧ (s.chip w).pwr d.val < 2 ∧ ranks.getLsbD r.val = true ∧ (s.chip w).rankServes d.val r.val = true ∧ (∀ (r' : Fin 16) (k : Fin 4), (s.chip w).debt d.val r'.val k.val + 1 < (s.chip w).cfg (F.DRF_REF_CFG_POSTPONE d.val)) ∧ (∀ (r' : Fin 16) (k : Fin 4), (s.chip w).debt d.val r'.val k.val < 7)) ∧
    (∃ (w : Twin) (d : Fin 16) (r : Fin 16) (k : Fin 4) (s : State), (s.chip w).up = true ∧ (s.chip w).pwr d.val = 0 ∧ (s.chip w).rankServes d.val r.val = true ∧ (s.chip w).bankQueued d.val r.val k.val = false ∧ -((s.chip w).cfg (F.DRF_REF_CFG_PULLIN d.val) : Int) < (s.chip w).debt d.val r.val k.val) ∧
    (∃ (w : Twin) (d : Fin 16) (r : Fin 16) (s : State), (s.chip w).up = true ∧ (s.chip w).pwr d.val = 0) ∧
    (∃ (w : Twin) (d : Fin 16) (twoX : BitVec 16) (s : State), (s.chip w).up = true) ∧
    (∃ (w : Twin) (d : Fin 16) (s : State), (s.chip w).up = true ∧ (s.chip w).cfg (F.DRF_SR_CFG_IDLE_US d.val) ≠ 0 ∧ (s.chip w).pwr d.val = 0 ∧ ((s.chip w).chan d.val).out = none ∧ (s.chip w).queuedReads d.val = [] ∧ (s.chip w).svcState = 2 ∧ (∀ (r : Fin 16) (k : Fin 4), (s.chip w).debt d.val r.val k.val ≤ 0) ∧ ((s.chip w).chan d.val).refreshing = []) ∧
    (∃ (w : Twin) (d : Fin 16) (ns : Nat) (s : State), (s.chip w).up = true ∧ (s.chip w).pwr d.val = 3) ∧
    (∃ (w : Twin) (d : Fin 16) (r : Fin 16) (s : State), (s.chip w).up = true) ∧
    (∃ (w : Twin) (d : Fin 16) (r : Fin 16) (s : State), (s.chip w).up = true ∧ ((s.chip w).chan d.val).zqWait.contains r.val = true) ∧
    (∃ (w : Twin) (d : Fin 16) (r : Fin 16) (ps : Int) (s : State), (s.chip w).up = true ∧ (s.chip w).cfg (F.DTR_DRIFT_CFG_THRESH_PS d.val) < ps.natAbs) ∧
    (∃ (w : Twin) (d : Fin 16) (s : State), (s.chip w).up = true ∧ (s.chip w).pwr d.val = 2 ∧ 2 ^ 24 ≤ ((s.chip w).chan d.val).backlog) ∧
    (∃ (w : Twin) (d : Fin 16) (s : State), (s.chip w).up = true ∧ (s.chip w).rankCount d.val ≠ 0) :=
  ⟨⟨.A, 0, 0, 1, framed, by decide +kernel⟩,
    ⟨.A, 0, 0, 1, framed, by decide +kernel⟩,
    ⟨.A, 0, 0, framed.mapA fun c => c.mapChan 0 fun x => { x with refreshing := [(0, 1), (2, 0)] }, by decide +kernel⟩,
    ⟨.A, 0, 5, framed, by decide +kernel⟩,
    ⟨.A, 0, framed.onA [(F.SAV_SVC_STATE, 2), (F.DRF_SR_CFG_IDLE_US 0, 50)], by decide +kernel⟩,
    ⟨.A, 0, 120, framed.onA [(F.DCH_CH_PWR 0, 3)], by decide +kernel⟩,
    ⟨.A, 0, 1, framed, by decide +kernel⟩,
    ⟨.A, 0, 1, framed.mapA fun c => c.mapChan 0 fun x => { x with zqWait := [1] }, by decide +kernel⟩,
    ⟨.A, 0, 1, -200, framed, by decide +kernel⟩,
    ⟨.A, 0, (framed.onA [(F.DCH_CH_PWR 0, 2)]).mapA fun c => c.mapChan 0 fun x => { x with backlog := 2 ^ 24 }, by decide +kernel⟩,
    ⟨.A, 0, framed, by decide +kernel⟩⟩

theorem witness_DramRepairComplete :
    (∃ (w : Twin) (x : List ChannelTraining) (d : Fin 16) (y : ChannelTraining) (s : State), (s.chip w).up = true ∧ (∀ z ∈ x, z.failed = 0) ∧ x.length = 16 ∧ x[d.val]? = some y) ∧
    (∃ (w : Twin) (d : Fin 16) (r : Fin 16) (rdEye : Byte) (wrEye : Byte) (s : State), (s.chip w).up = true ∧ ((s.chip w).chan d.val).out = some r.val ∧ (s.chip w).cbl.retiredRanks.contains (d.val, r.val) = false ∧ (s.chip w).get (F.DRF_PPR_STATUS_STATE d.val) = 0) ∧
    (∃ (w : Twin) (rq : Requester) (d : Fin 16) (s : State), (s.chip w).up = true ∧ (s.chip w).mayWrite rq (Chip.dmcPage d.val 1) = true ∧ (s.chip w).running (Chip.dmcPage d.val 1) = true ∧ (s.chip w).pprMay = true) ∧
    (∃ (w : Twin) (d : Fin 16) (r : Nat) (bg : Nat) (ba : Nat) (row : Nat) (s : State), (s.chip w).up = true ∧ (s.chip w).get (F.DRF_PPR_STATUS_STATE d.val) = 1 ∧ ((s.chip w).chan d.val).pprFrom = some (r, bg, ba, row) ∧ (s.chip w).pwr d.val = 0 ∧ (s.chip w).ranksOut = []) ∧
    (∃ (w : Twin) (d : Fin 16) (err : Fin 3) (s : State), (s.chip w).up = true ∧ (s.chip w).get (F.DRF_PPR_STATUS_STATE d.val) = 2) ∧
    (∃ (w : Twin) (d : Fin 16) (r : Nat) (bg : Nat) (ba : Nat) (row : Nat) (s : State), (s.chip w).up = true ∧ (s.chip w).get (F.DRF_PPR_STATUS_STATE d.val) = 3 ∧ (s.chip w).get (F.DRF_PPR_STATUS_ERR d.val) = 0 ∧ ((s.chip w).chan d.val).pprFrom = some (r, bg, ba, row) ∧ ((s.chip w).chan d.val).pprHard = false ∧ ((s.chip w).chan d.val).pprAuto = false ∧ (s.chip w).cbl.retireJobs = []) ∧
    (∃ (w : Twin) (s : State), (s.chip w).up = true ∧ (s.chip w).cbl.windowLeft = 0 ∧ (s.chip w).cbl.pprWait = [] ∧ (s.chip w).cbl.rankPending = [] ∧ (∀ d : Fin 16, ((s.chip w).chan d.val).devRows = [] ∧ ((s.chip w).chan d.val).rowCe = [])) ∧
    (∃ (w : Twin) (bank : Fin 17) (d : Fin 64) (k : Nat) (v : Nat) (e : DirEntry) (s : State), (s.chip w).up = true ∧ (s.chip w).tags = [] ∧ (s.chip w).che.ordered = [] ∧ (s.chip w).cbl.bankMigrating.contains bank.val = true ∧ (s.chip w).che.shadow = [(k, e)] ∧ (s.chip w).dirSet (k * 64) % 16 = bank.val ∧ (s.chip w).domainOf (k * 64) = some d.val ∧ (s.chip w).arbiter d.val = true ∧ ({ (s.chip w) with cbl := { (s.chip w).cbl with bankMigrating := dropN (s.chip w).cbl.bankMigrating bank.val } } : Chip).freeWay ((s.chip w).dirSet (k * 64)) = some v) ∧
    (∃ (w : Twin) (n : Fin 8) (s : State), (s.chip w).up = true ∧ (s.chip w).cbl.coreRetired = [n.val] ∧ (s.chip w).get F.CBO_CORES_LEFT ≠ 0) :=
  ⟨⟨.A, List.replicate 16 ⟨1, 4, 1, 64, 0, 0, 40, 40, 3, true, 0, 5, 6⟩, 3, ⟨1, 4, 1, 64, 0, 0, 40, 40, 3, true, 0, 5, 6⟩, both, by decide +kernel⟩,
    ⟨.A, 0, 1, 40, 41, framed.mapA fun c => c.mapChan 0 fun x => { x with out := some 1 }, by decide +kernel⟩,
    ⟨.A, .coreM 0, 0, ((framed.onA (starts (Chip.dmcPage 0 1))).onA [(F.ROLE_PAIR_STATE_MODE, 1), (F.DRF_PPR_REQ_RANK 0, 1), (F.DRF_PPR_ROW 0, 77)]), by decide +kernel⟩,
    ⟨.A, 0, 1, 2, 3, 77, (framed.onA [(F.DRF_PPR_STATUS_STATE 0, 1)]).mapA fun c => c.mapChan 0 fun x => { x with pprFrom := some (1, 2, 3, 77) }, by decide +kernel⟩,
    ⟨.A, 0, 1, framed.onA [(F.DRF_PPR_STATUS_STATE 0, 2)], by decide +kernel⟩,
    ⟨.A, 0, 1, 2, 3, 77, (framed.onA [(F.DRF_PPR_STATUS_STATE 0, 3)]).mapA fun c => c.mapChan 0 fun x => { x with pprFrom := some (1, 2, 3, 77), out := some 1 }, by decide +kernel⟩,
    ⟨.A, both.mapA fun c => { c with cbl := { c.cbl with windowLeft := 0 } }, by decide +kernel⟩,
    ⟨.A, 2, 0, 2, 0, { state := 1, presence := 1 }, (hosted.onA [(F.DOM_DOMAIN_KIND 0, 1)]).mapA fun c => { c with cbl := { c.cbl with bankMigrating := [2] }, che := { c.che with shadow := [(2, { state := 1, presence := 1 })] } }, by decide +kernel⟩,
    ⟨.A, 3, (both.onA [(F.CBO_CORES_LEFT, 1)]).mapA fun c => { c with cbl := { c.cbl with coreRetired := [3] } }, by decide +kernel⟩⟩

theorem witness_InterruptsComplete :
    (∃ (w : Twin) (i : Fin 1024) (s : State), (s.chip w).up = true ∧ 0x3C0 ≤ i.val ∧ (s.chip w).srcPulse i.val = true ∧ (s.chip w).srcEnable i.val = true ∧ (s.chip w).srcGroup i.val = 0 ∧ ((s.chip w).src i.val).count < 255) ∧
    (∃ (w : Twin) (i : Fin 1024) (s : State), (s.chip w).up = true ∧ i.val < 0x3C0 ∧ blockOf i.val ≠ 0 ∧ (s.chip w).eventOutput i.val = true ∧ ((s.chip w).src i.val).input = false ∧ (s.chip w).srcEnable i.val = true ∧ (s.chip w).srcGroup i.val = 0 ∧ ((s.chip w).src i.val).count < 255) ∧
    (∃ (w : Twin) (g : Fin 64) (i : Nat) (s : State), (s.chip w).up = true ∧ ((s.chip w).group g.val).timing = true ∧ ((s.chip w).cfg (F.ICL_COAL_TIME_US g.val) : Int) ≤ ((s.chip w).aonNow - ((s.chip w).group g.val).since + 1) * 4 ∧ (s.chip w).pendingSrc i = true ∧ i ∈ (s.chip w).heldSources ∧ (s.chip w).srcGroup i = g.val ∧ (s.chip w).srcFast i = false) ∧
    (∃ (w : Twin) (n : Fin 8) (i : Nat) (pc : BitVec 64) (mach : Bool) (s : State), (s.chip w).up = true ∧ (s.chip w).best ((s.chip w).fastQualifies n.val) = some i ∧ ((s.chip w).core n.val).running = true) ∧
    (∃ (w : Twin) (n : Fin 8) (i : Nat) (s : State), (s.chip w).up = true ∧ ((s.chip w).core n.val).inFast = true ∧ ((s.chip w).core n.val).fastSource = some i) ∧
    (∃ (w : Twin) (rq : Requester) (n : Fin 8) (i : Nat) (s : State), (s.chip w).up = true ∧ (s.chip w).mayRead rq 0x115 = true ∧ (s.chip w).presentedTo n.val = some i ∧ ((s.chip w).src i).late = false) ∧
    (∃ (w : Twin) (rq : Requester) (n : Fin 8) (i : Fin 1024) (s : State), (s.chip w).up = true ∧ (s.chip w).mayWrite rq 0x115 = true ∧ ((s.chip w).src i.val).serving = some n.val) ∧
    (∃ (w : Twin) (rq : Requester) (bits : Byte) (n : Fin 8) (s : State), (s.chip w).up = true ∧ (s.chip w).mayWrite rq 0x110 = true ∧ bits.getLsbD n.val = true ∧ (s.chip w).srcEnable (0x3D0 + n.val) = true ∧ (s.chip w).srcGroup (0x3D0 + n.val) = 0 ∧ ((s.chip w).src (0x3D0 + n.val)).count < 255) ∧
    (∃ (w : Twin) (rq : Requester) (i : Fin 1024) (s : State), (s.chip w).up = true ∧ (s.chip w).mayWrite rq (srcPage i.val) = true ∧ (s.chip w).running (srcPage i.val) = true ∧ ((s.chip w).src i.val).presented = none) ∧
    (∃ (w : Twin) (rq : Requester) (i : Fin 1024) (x : Fin 16) (s : State), (s.chip w).up = true ∧ (s.chip w).mayWrite rq (srcPage i.val) = true ∧ (s.chip w).running (srcPage i.val) = true ∧ x.val ≤ 7) :=
  ⟨⟨.A, 0x3D1, pends 0x3D1 3 [(srcFld 0x3D1 24 1, 1)] id, by decide +kernel⟩,
    ⟨.A, 0x050, pends 0x050 0 [(⟨0x050, 0x01C, 16, 1, false⟩, 1), (⟨0x050, 0x010, 0, 1, false⟩, 1), (⟨0x050, 0x014, 0, 1, false⟩, 1)] id, by decide +kernel⟩,
    ⟨.A, 5, 0x3D1, (pends 0x3D1 3 [(srcFld 0x3D1 8 6, 5)] id).mapA fun c => c.setGroup 5 { collected := 3, timing := true }, by decide +kernel⟩,
    ⟨.A, 0, 0x3D1, 0x100, false, pends 0x3D1 3 [(srcFld 0x3D1 1 1, 1)] id, by decide +kernel⟩,
    ⟨.A, 0, 0x3D1, (pends 0x3D1 0 [(srcFld 0x3D1 1 1, 1)] fun x => { x with serving := some 0 }).mapA fun c => c.mapCore 0 fun x => { x with inFast := true, fastSource := some 0x3D1, fepc := 64 }, by decide +kernel⟩,
    ⟨.A, .coreM 0, 0, 0x3D1, pends 0x3D1 3 [] fun x => { x with presented := some 0 }, by decide +kernel⟩,
    ⟨.A, .coreM 0, 0, 0x3D1, pends 0x3D1 0 [(srcFld 0x3D1 24 1, 1)] fun x => { x with serving := some 0 }, by decide +kernel⟩,
    ⟨.A, .coreM 0, 2, 1, pends 0x3D1 3 [] id, by decide +kernel⟩,
    ⟨.A, .coreM 0, 0x3D1, pends 0x3D1 3 (starts (srcPage 0x3D1)) id, by decide +kernel⟩,
    ⟨.A, .coreM 0, 0x3D1, 7, pends 0x3D1 3 (starts (srcPage 0x3D1)) id, by decide +kernel⟩⟩

theorem witness_CoresComplete :
    (∃ (w : Twin) (n : Fin 8) (s : State), (s.chip w).up = true ∧ ((s.chip w).core n.val).running = true ∧ (s.chip w).heldSources.any ((s.chip w).wakes n.val) = false ∧ ((s.chip w).core n.val).mtip = false) ∧
    (∃ (w : Twin) (n : Fin 8) (s : State), (s.chip w).up = true ∧ ((s.chip w).core n.val).mtimecmp ≤ (s.chip w).round * 400 + 399) ∧
    (∃ (w : Twin) (n : Fin 8) (p : CorePlace) (addr : Nat) (rd : Fin 32) (data : BitVec 64) (wide : Bool) (s : State), (s.chip w).up = true ∧ ((s.chip w).core n.val).running = true ∧ ((s.chip w).core n.val).asleep = false ∧ addr % (Chip.atomicBits wide / 8) = 0 ∧ (s.chip w).corePlace n.val ((s.chip w).core n.val).machine addr (Chip.atomicBits wide / 8) = some p) ∧
    (∃ (w : Twin) (n : Fin 8) (p : CorePlace) (addr : Nat) (rd : Fin 32) (data : BitVec 64) (wide : Bool) (s : State), (s.chip w).up = true ∧ ((s.chip w).core n.val).running = true ∧ ((s.chip w).core n.val).asleep = false ∧ addr % (Chip.atomicBits wide / 8) = 0 ∧ (s.chip w).corePlace n.val ((s.chip w).core n.val).machine addr (Chip.atomicBits wide / 8) = some p ∧ ((s.chip w).core n.val).reservation = some (Chip.reserveLine p)) ∧
    (∃ (w : Twin) (n : Fin 8) (p : CorePlace) (addr : Nat) (rd : Fin 32) (data : BitVec 64) (wide : Bool) (s : State), (s.chip w).up = true ∧ ((s.chip w).core n.val).running = true ∧ ((s.chip w).core n.val).asleep = false ∧ addr % (Chip.atomicBits wide / 8) = 0 ∧ (s.chip w).corePlace n.val ((s.chip w).core n.val).machine addr (Chip.atomicBits wide / 8) = some p ∧ ((s.chip w).core n.val).reservation ≠ some (Chip.reserveLine p)) ∧
    (∃ (w : Twin) (n : Fin 8) (p : CorePlace) (op : AtomicOp) (addr : Nat) (rd : Fin 32) (data : BitVec 64) (wide : Bool) (s : State), (s.chip w).up = true ∧ ((s.chip w).core n.val).running = true ∧ ((s.chip w).core n.val).asleep = false ∧ addr % (Chip.atomicBits wide / 8) = 0 ∧ (s.chip w).corePlace n.val ((s.chip w).core n.val).machine addr (Chip.atomicBits wide / 8) = some p ∧ op ≠ .lr ∧ op ≠ .sc) ∧
    (∃ (w : Twin) (n : Fin 8) (op : AtomicOp) (addr : Nat) (rd : Fin 32) (data : BitVec 64) (wide : Bool) (s : State), (s.chip w).up = true ∧ ((s.chip w).core n.val).running = true ∧ ((s.chip w).core n.val).asleep = false ∧ ((s.chip w).core n.val).inFast = false ∧ (addr % (Chip.atomicBits wide / 8) ≠ 0 ∨ (s.chip w).corePlace n.val ((s.chip w).core n.val).machine addr (Chip.atomicBits wide / 8) = none)) ∧
    (∃ (w : Twin) (n : Fin 8) (addr : Nat) (a : Nat) (s : State), (s.chip w).up = true ∧ ((s.chip w).core n.val).running = true ∧ ((s.chip w).core n.val).asleep = false ∧ ((s.chip w).core n.val).machine = true ∧ (s.chip w).corePlace n.val true addr 1 = some (.dram a true)) :=
  ⟨⟨.A, 0, pends 0x3D1 0 [] id, by decide +kernel⟩,
    ⟨.A, 0, pends 0x3D1 0 [] id, by decide +kernel⟩,
    ⟨.A, 0, .localMem 0 8, 0x08000008, 3, 5, true, pends 0x3D1 0 [] id, by decide +kernel⟩,
    ⟨.A, 0, .localMem 0 8, 0x08000008, 3, 5, true, (pends 0x3D1 0 [] id).mapA fun c => c.mapCore 0 fun x => { x with reservation := some (2 ^ 48) }, by decide +kernel⟩,
    ⟨.A, 0, .localMem 0 8, 0x08000008, 3, 5, true, pends 0x3D1 0 [] id, by decide +kernel⟩,
    ⟨.A, 0, .localMem 0 8, .add, 0x08000008, 3, 5, true, pends 0x3D1 0 [] id, by decide +kernel⟩,
    ⟨.A, 0, .add, 0x08000009, 3, 5, true, pends 0x3D1 0 [] id, by decide +kernel⟩,
    ⟨.A, 0, 0x081C82C00000, 0x1C82C00000, framed.mapA fun c => c.mapCore 0 fun x => { x with running := true, cache := [(0x1C82C00000, some 5)] }, by decide +kernel⟩⟩

theorem witness_FlashAndWatchdogsComplete :
    (∃ (w : Twin) (rq : Requester) (fetched : Option (Fin 2)) (s : State), (s.chip w).up = true ∧ (s.chip w).mayWrite rq 0x130 = true ∧ (s.chip w).running 0x130 = true ∧ ((s.chip w).put F.EFC_EFC_CMD_OP (1)).efcCheck (1) fetched = none) ∧
    (∃ (w : Twin) (rq : Requester) (fetched : Option (Fin 2)) (s : State), (s.chip w).up = true ∧ (s.chip w).mayWrite rq 0x130 = true ∧ (s.chip w).running 0x130 = true ∧ ((s.chip w).put F.EFC_EFC_CMD_OP (2)).efcCheck (2) fetched = none) ∧
    (∃ (w : Twin) (rq : Requester) (fetched : Option (Fin 2)) (s : State), (s.chip w).up = true ∧ (s.chip w).mayWrite rq 0x130 = true ∧ (s.chip w).running 0x130 = true ∧ ((s.chip w).put F.EFC_EFC_CMD_OP (3)).efcCheck (3) fetched = none) ∧
    (∃ (w : Twin) (us : Nat) (x : EfcOp) (s : State), (s.chip w).up = true ∧ (s.chip w).efc.op = some x ∧ x.op = 1 ∧ (s.chip w).wdt.deferChip = false ∧ (s.chip w).wdt.deferWarn = [] ∧ (s.chip w).wdt.deferReset = []) ∧
    (∃ (w : Twin) (rq : Requester) (s : State), (s.chip w).up = true ∧ (s.chip w).mayWrite rq 0x130 = true) ∧
    (∃ (w : Twin) (n : Fin 9) (s : State), (s.chip w).up = true) ∧
    (∃ (w : Twin) (n : Fin 9) (s : State), (s.chip w).up = true ∧ n.val < 8) ∧
    (∃ (w : Twin) (s : State), (s.chip w).up = true ∧ (s.chip w).efc.op = none ∧ (s.chip w).saveActive = false ∧ (s.chip w).mirrored = true ∧ (s.chip w).expired (s.chip w).wdt.chipKick (1000 * (s.chip w).chipLimitMs) = true) ∧
    (∃ (w : Twin) (n : Fin 8) (s : State), (s.chip w).up = true ∧ (s.chip w).coreWdOn n.val = true ∧ ((s.chip w).core n.val).warned = false ∧ (s.chip w).efc.op = none ∧ (s.chip w).expired ((s.chip w).core n.val).kickRound ((s.chip w).cfg F.WDT_CORE_WD_WARN_US) = true) ∧
    (∃ (w : Twin) (n : Fin 8) (s : State), (s.chip w).up = true ∧ (s.chip w).coreWdOn n.val = true ∧ ((s.chip w).core n.val).warned = true ∧ (s.chip w).efc.op = none ∧ (s.chip w).saveActive = false ∧ (s.chip w).recentResets n.val = [] ∧ (s.chip w).expired ((s.chip w).core n.val).kickRound ((s.chip w).cfg F.WDT_CORE_WD_WARN_US + (s.chip w).cfg F.WDT_CORE_WD_RESET_US) = true) ∧
    (∃ (w : Twin) (rq : Requester) (s : State), (s.chip w).up = true ∧ (s.chip w).mayWrite rq 0x120 = true) :=
  ⟨⟨.A, .coreM 0, none, (runs 0x130).onA [(F.EFC_EFC_CMD2_WORDS, 4), (F.EFC_EFC_ADDR, 0x20000)], by decide +kernel⟩,
    ⟨.A, .coreM 0, none, (runs 0x130).onA [(F.EFC_EFC_ADDR, 0x20000)], by decide +kernel⟩,
    ⟨.A, .coreM 0, none, (runs 0x130).onA [(F.EFC_EFC_CMD2_SLOT, 1)], by decide +kernel⟩,
    ⟨.A, 20, ⟨1, 64, [3, 4], 0, 2⟩, both.mapA fun c => { c with efc := { c.efc with op := some ⟨1, 64, [3, 4], 0, 2⟩ } }, by decide +kernel⟩,
    ⟨.A, .coreM 0, both, by decide +kernel⟩,
    ⟨.A, 1, both, by decide +kernel⟩,
    ⟨.A, 1, both, by decide +kernel⟩,
    ⟨.A, paired.mapA fun c => { c with clk := { c.clk with round := 99999999 } }, by decide +kernel⟩,
    ⟨.A, 1, ((runs 0x120).onA [(F.WDT_CORE_WD_EN, 255)]).mapA fun c => { c with clk := { c.clk with round := 99999999 } }, by decide +kernel⟩,
    ⟨.A, 1, ((runs 0x120).onA [(F.WDT_CORE_WD_EN, 255)]).mapA fun c => { (c.mapCore 1 fun x => { x with warned := true }) with clk := { c.clk with round := 99999999 } }, by decide +kernel⟩,
    ⟨.A, .coreM 0, both, by decide +kernel⟩⟩

theorem witness_SequencerComplete :
    (∃ (w : Twin) (s : State), (s.chip w).psqDir = 0 ∧ (s.chip w).psq.offServed = true ∧ (s.chip w).is F.PSQ_PSQ_UP_HELD = false ∧ (s.chip w).psq.afterFailstop = false) ∧
    (∃ (w : Twin) (s : State), (s.chip w).psq.phase = 1 ∧ (s.chip w).syncEn = false ∧ (s.chip w).psqDir = 1 ∧ (s.chip w).psqState < (s.chip w).seqTop) ∧
    (∃ (w : Twin) (s : State), (s.chip w).psq.phase = 2 ∧ (s.chip w).syncEn = true ∧ (s.chip w).psqDir = 3 ∧ (s.chip w).psqState ≠ 0) ∧
    (∃ (w : Twin) (s : State), (s.chip w).psq.phase = 2 ∧ (s.chip w).syncEn = true ∧ (s.chip w).psqDir = 3 ∧ (s.chip w).psqState ≠ 0) ∧
    (∃ (w : Twin) (s : State), (s.chip w).psq.phase = 0 ∧ (s.chip w).psqDir = 1 ∧ (s.chip w).psqState ≠ 0) ∧
    (∃ (w : Twin) (s : State), (s.chip w).psqDir = 2 ∧ (s.chip w).up = true) ∧
    (∃ (w : Twin) (s : State), (s.chip w).psqDir = 0) ∧
    (∃ (w : Twin) (i : Fin 16) (s : State), ((s.chip w).get F.PSQ_PG_IN >>> i.val) % 2 = 0 ∧ (s.chip w).railRuns i.val = true ∧ (s.chip w).up = true ∧ (s.chip w).saveActive = false ∧ (s.chip w).mirrored = true) ∧
    (∃ (w : Twin) (s : State), (s.chip w).psq.faultWait = true ∧ (s.chip w).psqDir = 2 ∧ (s.chip w).psqState ≠ 0) ∧
    (∃ (w : Twin) (rq : Requester) (s : State), (s.chip w).up = true ∧ (s.chip w).mayWrite rq 0x140 = true ∧ (s.chip w).psq.versionsUsed < 4) :=
  ⟨⟨.A, State.reset, by decide +kernel⟩,
    ⟨.A, (both.onA [(F.PSQ_PSQ_DIR, 1), (F.PSQ_PSQ_STATE, 1)]).mapA fun c => { c with psq := { c.psq with phase := 1, table := [(0x100, 5)] } }, by decide +kernel⟩,
    ⟨.A, (both.onA [(F.PSQ_PSQ_DIR, 3), (F.PSQ_PSQ_STATE, 4)]).mapA fun c => { c with psq := { c.psq with phase := 2, table := [(0x100, 21)] } }, by decide +kernel⟩,
    ⟨.A, (both.onA [(F.PSQ_PSQ_DIR, 3), (F.PSQ_PSQ_STATE, 4)]).mapA fun c => { c with psq := { c.psq with phase := 2, table := [(0x100, 21)] } }, by decide +kernel⟩,
    ⟨.A, (both.onA [(F.PSQ_PSQ_DIR, 1), (F.PSQ_PSQ_STATE, 4)]).mapA fun c => { c with psq := { c.psq with phase := 0, table := [(0x100, 21)] } }, by decide +kernel⟩,
    ⟨.A, paired.onA [(F.PSQ_PSQ_DIR, 2)], by decide +kernel⟩,
    ⟨.A, State.reset, by decide +kernel⟩,
    ⟨.A, 0, (paired.onA [(F.PSQ_PSQ_DIR, 2), (F.PSQ_PSQ_STATE, 5)]).mapA fun c => { c with psq := { c.psq with table := [(0x100, 5), (0x110, 0xFFFFFFFF)] } }, by decide +kernel⟩,
    ⟨.A, (paired.onA [(F.PSQ_PSQ_DIR, 2), (F.PSQ_PSQ_STATE, 5)]).mapA fun c => { c with psq := { c.psq with faultWait := true } }, by decide +kernel⟩,
    ⟨.A, .coreM 0, both, by decide +kernel⟩⟩

theorem witness_VoltageComplete :
    (∃ (w : Twin) (rq : Requester) (k : Fin 4) (steps : BitVec 8) (s : State), (s.chip w).up = true ∧ (s.chip w).mayWrite rq 0x141 = true ∧ (s.chip w).running 0x141 = true ∧ steps.toInt.natAbs * 100 ≤ (s.chip w).cfg (F.MAR_RAIL_NOM_MV k.val) ∧ (s.chip w).svcState = 2) ∧
    (∃ (w : Twin) (s : State), (s.chip w).up = true ∧ 250 ≤ (s.chip w).thm.hotRun ∧ (s.chip w).thm.throttleStep < 4) ∧
    (∃ (w : Twin) (s : State), (s.chip w).up = true ∧ 2 ≤ (s.chip w).thm.tripRun ∧ (s.chip w).saveActive = false ∧ (s.chip w).mode ≠ mHELD) ∧
    (∃ (w : Twin) (cpm : BitVec 8) (s : State), (s.chip w).up = true ∧ (s.chip w).avsOn = true ∧ (s.chip w).thm.lowerDue = false ∧ cpm.toInt < (s.chip w).cfg F.AVS_AVS_CFG_CPM_LO) ∧
    (∃ (w : Twin) (cpm : BitVec 8) (s : State), (s.chip w).up = true ∧ cpm.toInt ≤ 0 ∧ (s.chip w).cfg F.AVS_AVS_CFG_EN = 1) ∧
    (∃ (w : Twin) (data : BitVec 16) (reached : Bool) (f : AvsFrame) (r : List AvsFrame) (s : State), (s.chip w).up = true ∧ (s.chip w).thm.frames = f :: r ∧ f.kind = 3 ∧ f.rail < 4) ∧
    (∃ (w : Twin) (s : State), (s.chip w).up = true ∧ (s.chip w).cfg (F.MAR_RAIL_PRESENT 0) = 1 ∧ (∀ k : Fin 4, 0 < k.val → (s.chip w).cfg (F.MAR_RAIL_PRESENT k.val) = 0)) ∧
    (∃ (w : Twin) (s : State), (s.chip w).up = true ∧ (s.chip w).get F.AVS_FCLK_STEP < (s.chip w).wantStep ∧ (s.chip w).wantStep < 8) :=
  ⟨⟨.A, .coreM 0, 0, 2, ((runs 0x141).onA [(F.SAV_SVC_STATE, 2), (F.MAR_RAIL_NOM_MV 0, 800)]), by decide +kernel⟩,
    ⟨.A, both.mapA fun c => { c with thm := { c.thm with hotRun := 250 } }, by decide +kernel⟩,
    ⟨.A, both.mapA fun c => { c with thm := { c.thm with tripRun := 2 } }, by decide +kernel⟩,
    ⟨.A, 1, both.onA [(F.AVS_AVS_CFG_EN, 1), (F.AVS_AVS_CFG_CPM_LO, 4)], by decide +kernel⟩,
    ⟨.A, 0, both.onA [(F.AVS_AVS_CFG_EN, 1)], by decide +kernel⟩,
    ⟨.A, 801, false, ⟨1, 3, 0, 0⟩, [], both.mapA fun c => { c with thm := { c.thm with frames := [⟨1, 3, 0, 0⟩] } }, by decide +kernel⟩,
    ⟨.A, both.onA [(F.MAR_RAIL_PRESENT 0, 1), (F.MAR_RAIL_PRESENT 1, 0), (F.MAR_RAIL_PRESENT 2, 0), (F.MAR_RAIL_PRESENT 3, 0)], by decide +kernel⟩,
    ⟨.A, both.mapA fun c => { c with thm := { c.thm with throttleStep := 3 } }, by decide +kernel⟩⟩

theorem witness_ManagementBusComplete :
    (∃ (w : Twin) (bytes : List Byte) (s : State), (s.chip w).up = true ∧ (s.chip w).acking = true) ∧
    (∃ (w : Twin) (p : List Byte) (r : List (List Byte)) (s : State), (s.chip w).up = true ∧ (s.chip w).acking = true ∧ (s.chip w).mti.tx = p :: r) ∧
    (∃ (w : Twin) (s : State), (s.chip w).up = true ∧ (s.chip w).acking = true) ∧
    (∃ (w : Twin) (s : State), (s.chip w).up = true ∧ (s.chip w).acking = true ∧ (s.chip w).is F.MTI_ALERT = true) ∧
    (∃ (w : Twin) (s : State), (s.chip w).up = true ∧ (s.chip w).mti.holdSda = true) ∧
    (∃ (w : Twin) (s : State), (s.chip w).up = true) ∧
    (∃ (w : Twin) (s : State), (s.chip w).up = true ∧ (s.chip w).mti.holdSda = true) ∧
    (∃ (w : Twin) (command : Byte) (s : State), (s.chip w).up = true ∧ (s.chip w).acking = true ∧ (s.chip w).mti.tx.length < 8) :=
  ⟨⟨.A, [1, 2], both.onA [(F.MTI_ACKING, 1)], by decide +kernel⟩,
    ⟨.A, [1, 2], [], (both.onA [(F.MTI_ACKING, 1)]).mapA fun c => { c with mti := { c.mti with tx := [[1, 2]] } }, by decide +kernel⟩,
    ⟨.A, both.onA [(F.MTI_ACKING, 1)], by decide +kernel⟩,
    ⟨.A, both.onA [(F.MTI_ACKING, 1), (F.MTI_ALERT, 1)], by decide +kernel⟩,
    ⟨.A, both.mapA fun c => { c with mti := { c.mti with holdSda := true } }, by decide +kernel⟩,
    ⟨.A, both, by decide +kernel⟩,
    ⟨.A, both.mapA fun c => { c with mti := { c.mti with holdSda := true } }, by decide +kernel⟩,
    ⟨.A, 2, both.onA [(F.MTI_ACKING, 1)], by decide +kernel⟩⟩

theorem witness_ResetsComplete :
    (∃ (w : Twin) (x : BootReport) (s : State), (s.chip w).psqDir = 2 ∧ (s.chip w).rst.powered = false ∧ (s.chip w).rst.resetN = false ∧ (s.chip w).rst.fenced = false ∧ x.failed = 0 ∧ (s.chip w).efc.op = none ∧ (s.chip w).efc.flags = [] ∧ (∀ k : Fin 2, (s.chip w).slotPasses k.val = true)) ∧
    (∃ (w : Twin) (s : State), (s.chip w).up = true ∧ (s.chip w).saveActive = false ∧ (s.chip w).mirrored = true) ∧
    (∃ (w : Twin) (x : BootReport) (s : State), (s.chip w).rst.powered = true ∧ (s.chip w).rst.resetN = true ∧ (s.chip w).rst.fenced = false ∧ (s.chip w).rst.resetPending = false ∧ (s.chip w).mode = mSTARTING ∧ x.failed = 0 ∧ (s.chip w).efc.flags = [] ∧ (∀ k : Fin 2, (s.chip w).slotPasses k.val = true)) ∧
    (∃ (w : Twin) (n : Fin 9) (x : BootReport) (s : State), (s.chip w).up = true ∧ (s.chip w).mode = mSTARTING ∧ (s.chip w).efc.op = none ∧ (s.chip w).efc.flags = [] ∧ (∀ k : Fin 2, (s.chip w).slotPasses k.val = true) ∧ (s.chip w).rst.activeSlot < 2 ∧ (s.chip w).failHeld = false) ∧
    (∃ (w : Twin) (s : State), (s.chip w).up = true ∧ (s.chip w).saveActive = false ∧ (s.chip w).mode ≠ mHELD) :=
  ⟨⟨.A, ⟨0, none, 0, 3, false, 100, 200⟩, (State.reset.onA [(F.PSQ_PSQ_DIR, 2)]).mapA Chip.imaged, by decide +kernel⟩,
    ⟨.A, paired, by decide +kernel⟩,
    ⟨.A, ⟨0, none, 0, 3, false, 100, 200⟩, (both.mapA Chip.imaged).mapA fun c => { c with rst := { c.rst with resetN := true } }, by decide +kernel⟩,
    ⟨.A, 0, ⟨0, none, 0, 3, false, 100, 200⟩, both.mapA Chip.imaged, by decide +kernel⟩,
    ⟨.A, paired, by decide +kernel⟩⟩

theorem witness_SecurityComplete :
    (∃ (w : Twin) (n : Fin 9) (s : State), (s.chip w).up = true ∧ (s.chip w).sec.svn < 64 ∧ (s.chip w).rst.imageSvn ≤ 64) ∧
    (∃ (w : Twin) (rq : Requester) (s : State), (s.chip w).up = true ∧ (s.chip w).mayWrite rq 0x031 = true ∧ (s.chip w).sec.keyOSet = false) ∧
    (∃ (w : Twin) (n : Fin 9) (s : State), (s.chip w).up = true ∧ (s.chip w).sec.sbEn = true ∧ (s.chip w).get F.DBG_CLOSE_KEY = 0xC105ED00) ∧
    (∃ (w : Twin) (rq : Requester) (d : Fin 64) (s : State), s.acceptor rq = some w ∧ (s.chip w).mayWrite rq 0x032 = true ∧ (s.chip w).running 0x032 = true ∧ (s.chip w).domValid d.val = false) ∧
    (∃ (w : Twin) (d : Fin 64) (s : State), (s.chip w).up = true ∧ (s.chip w).sec.erasing.contains d.val = true) :=
  ⟨⟨.A, 0, both.mapA fun c => { c with rst := { c.rst with imageSvn := 3 } }, by decide +kernel⟩,
    ⟨.A, .coreM 0, both.onA [(F.BOOT_OWNER_HASH 2, 77)], by decide +kernel⟩,
    ⟨.A, 0, (both.onA [(F.DBG_CLOSE_KEY, 0xC105ED00)]).mapA fun c => { c with sec := { c.sec with sbEn := true } }, by decide +kernel⟩,
    ⟨.A, .coreM 0, 3, runs 0x032, by decide +kernel⟩,
    ⟨.A, 3, both.mapA fun c => { c with sec := { c.sec with erasing := [3] } }, by decide +kernel⟩⟩

theorem witness_TapComplete :
    (∃ (w : Twin) (s : State), (s.chip w).tap.closed = false) ∧
    (∃ (w : Twin) (s : State), (s.chip w).tap.closed = false ∧ (∀ p : Fin 6, (s.chip w).ownOut p = false) ∧ (s.chip w).svcState ∈ [0, 2] ∧ (s.chip w).rst.extested = false) ∧
    (∃ (w : Twin) (own : BitVec 6) (dead : Bool) (fence : Bool) (s : State), (s.chip w).tap.closed = false) ∧
    (∃ (w : Twin) (code : Byte) (s : State), code.toNat ∉ [0, 1, 2, 3, 4, 8, 9, 0x20, 0x21, 0x22]) :=
  ⟨⟨.A, both, by decide +kernel⟩,
    ⟨.A, both, by decide +kernel⟩,
    ⟨.A, 5, true, false, both, by decide +kernel⟩,
    ⟨.A, 0x55, both, by decide +kernel⟩⟩

theorem witness_UnbackedPagesReadZero :
    (∃ (c : Chip) (rq : Requester) (page : Nat) (off : Nat) (size : Nat), blockOf page = 0) ∧
    (∃ (w : Twin) (rq : Requester) (x : PageWrite) (s : State), blockOf x.page = 0 ∧ goodAccess x.off x.size = true) ∧
    (∃ (w : Twin) (m : PageMessage) (s : State), (s.chip w).up = true ∧ (s.chip w).acking = true ∧ PageMessage.ok m = true ∧ m.off.toNat % 4 = 0 ∧ m.off.toNat < 4096 ∧ blockOf m.page.toNat = 0 ∧ PageMessage.target m w = w) :=
  ⟨⟨Chip.fresh .A, .coreM 0, 0x170, 0, 4, by decide +kernel⟩,
    ⟨.A, .coreM 0, ⟨0x170, 0x100, 4, 5⟩, both, by decide +kernel⟩,
    ⟨.A, ⟨0, 0x170, 0x100, 0, 0, 7⟩, both.onA [(F.MTI_ACKING, 1)], by decide +kernel⟩⟩

theorem witness_SecurityVersionAdvances :
    (∃ (w : Twin) (n : Fin 9) (s : State), (s.chip w).up = true ∧ (s.chip w).sec.svn < 64) ∧
    (∃ (w : Twin) (n : Fin 9) (s : State), (s.chip w).up = true ∧ 64 ≤ (s.chip w).sec.svn) ∧
    (∃ (w : Twin) (rq : Requester) (s : State), (∀ n : Fin 9, rq ≠ .coreM n)) :=
  ⟨⟨.A, 0, both.mapA fun c => { c with rst := { c.rst with imageSvn := 3 } }, by decide +kernel⟩,
    ⟨.A, 0, both.mapA fun c => { c with sec := { c.sec with svn := 64 } }, by decide +kernel⟩,
    ⟨.A, .mctp, both, by decide +kernel⟩⟩

theorem witness_DownSequenceGoesOn :
    (∃ (w : Twin) (i : Fin 16) (s : State), (s.chip w).psq.phase = 0 ∧ (s.chip w).psqDir = 3 ∧ (s.chip w).pgMissing.testBit i.val = true ∧ (∀ k : Fin 16, k < i → (s.chip w).pgMissing.testBit k.val = false)) ∧
    (∃ (w : Twin) (i : Fin 16) (s : State), (s.chip w).psqDir = 3) :=
  ⟨⟨.A, 2, (both.onA [(F.PSQ_PSQ_DIR, 3), (F.PSQ_PSQ_STATE, 4), (F.PSQ_PG_IN, 12)]).mapA fun c => { c with psq := { c.psq with phase := 0, table := [(0x138, 0xC0000)] } }, by decide +kernel⟩,
    ⟨.A, 3, both.onA [(F.PSQ_PSQ_DIR, 3)], by decide +kernel⟩⟩
end

section
/-! PROOF. An access to a page index with no page behind it (R46): what a read of it gives, that a write of it changes nothing, and what the
answer of the management endpoint to such an access leaves (R541). -/
namespace Sys2Proof.Machine

/-! ## The pair at an index with no page -/

/-- A read of an index with no page gives 0 and does nothing, whoever makes it. -/
theorem Chip.takePage_of_unbacked (c : Chip) (rq : Requester) (off size : Nat) {page : Nat} (h : blockOf page = 0) :
    c.takePage rq page off size = (c, 0) :=
  if_pos (Or.inl h)

namespace State

/-! The form of the access is good and its page is not there, so each write ends before a doorbell or the requester's rights are looked at (log 93). -/

variable (s : State) (w : Twin) (rq : Requester) {x : PageWrite} (hp : blockOf x.page = 0) (hg : goodAccess x.off x.size = true)
include hp hg

theorem writePage_of_unbacked : s.writePage w rq x = s := by
  simp only [writePage, hg, hp, Bool.not_true, Bool.false_eq_true, if_false, if_true, ite_self]

theorem writePeer_of_unbacked : s.writePeer w rq x = s := by
  simp only [writePeer, hg, hp, Bool.not_true, Bool.false_eq_true, if_false, if_true, ite_self]

theorem writeAlias_of_unbacked : s.writeAlias w rq x = s := by
  simp only [writeAlias, hg, hp, Bool.not_true, Bool.false_eq_true, if_false, if_true, ite_self]

end State

/-! ## What an answer of the management endpoint leaves -/

namespace Chip

@[simp] theorem showQueue_answers (c : Chip) : c.showQueue.answers = c.answers := by
  simp only [showQueue, put_parts]

@[simp] theorem showQueue_count (c : Chip) (k : Ctr) : c.showQueue.count k = c.count k := rfl

/-- A packet placed in the queue is no answer to a register access. -/
@[simp] theorem mctpSend_answers (c : Chip) (p : List Byte) : (c.mctpSend p).answers = c.answers := by
  unfold mctpSend
  split
  · simp only [showQueue_answers, raise_parts, cnt_parts]
  · simp only [showQueue_answers]

/-- A packet placed in the queue may push the oldest out: that is counted on the endpoint's page, 0x160, and raises an event, which leaves every
quiet counter as it was. -/
theorem mctpSend_count (c : Chip) (p : List Byte) (k : Ctr) (hq : quietCtr k = true) (hk : k.page ≠ 0x160) :
    (c.mctpSend p).count k = c.count k := by
  have hslot : k.slot < 128 := by
    simp only [quietCtr, Bool.and_eq_true, decide_eq_true_eq] at hq
    exact hq.1.1.1
  unfold mctpSend
  split
  · rw [showQueue_count, count_of_quiet (raise_quiet _ _) k hq, count_cnt_ne]
    · rfl
    · intro e
      exact hk (congrArg Ctr.page (ctrKey_inj hslot (by decide) e))
  · rfl

/-- A page message answered with status 0 hands out its data as the answer. -/
theorem pageAnswer_answers_of_success (c : Chip) (x : PageMessage) (cmd : Nat) (data : Word) :
    (c.pageAnswer x cmd 0 data).answers = c.answers ++ [⟨.mctp, data.setWidth 64, 0⟩] :=
  (mctpSend_answers _ _).trans rfl

/-- A page message answered with status 0 leaves every counter that the packet leaves. -/
theorem pageAnswer_count_of_success (c : Chip) (x : PageMessage) (cmd : Nat) (data : Word) (k : Ctr) (hq : quietCtr k = true)
    (hk : k.page ≠ 0x160) : (c.pageAnswer x cmd 0 data).count k = c.count k :=
  mctpSend_count _ _ k hq hk

end Chip

/-! ## Page messages to an index with no page -/

section
variable (w : Twin) (m : PageMessage) (s : State) (hup : (s.chip w).up = true) (hack : (s.chip w).acking = true)
  (hok : PageMessage.ok m = true) (ha : m.off.toNat % 4 = 0) (ho : m.off.toNat < 4096) (hp : blockOf m.page.toNat = 0)
include hup hack hok ha ho hp

/-- PAGE_READ of an index with no page is answered with status 0 and data 0. -/
theorem execPageRead_of_unbacked (ht : PageMessage.target m w = w) :
    execPageRead w m s = .next (s.mapChip w fun c => c.pageAnswer m 1 0 0) := by
  have hserves : ¬(!((s.chip w).up && (s.chip w).acking)) = true := by rw [hup, hack]; decide
  have hformed : ¬(!PageMessage.ok m) = true := by rw [hok]; decide
  have hword : ¬(m.off.toNat % 4 ≠ 0 ∨ m.off.toNat ≥ 4096) := by omega
  have hhere : ¬(w ≠ w ∧ (!s.reaches w) = true) := fun h => h.1 rfl
  have hsame : s.setChip w (s.chip w) = s := by cases w <;> rfl
  unfold execPageRead
  dsimp only
  rw [if_neg hserves, if_neg hformed, if_neg hword, ht, if_neg hhere, Chip.takePage_of_unbacked _ _ _ _ hp, hsame]
  rfl

/-- PAGE_WRITE of an index with no page is answered with status 0, and nothing is stored. -/
theorem execPageWrite_of_unbacked : execPageWrite w m s = .next (s.mapChip w fun c => c.pageAnswer m 2 0 0) := by
  have hserves : ¬(!((s.chip w).up && (s.chip w).acking)) = true := by rw [hup, hack]; decide
  have hformed : ¬(!PageMessage.ok m) = true := by rw [hok]; decide
  have hword : ¬(m.off.toNat % 4 ≠ 0 ∨ m.off.toNat ≥ 4096) := by omega
  unfold execPageWrite
  dsimp only
  rw [if_neg hserves, if_neg hformed, if_neg hword, if_pos hp]

end

/-- Answering a page message with status 0 and data 0 adds that answer on its chip, counts no bad access and leaves the twin as it was. -/
theorem State.mapChip_pageAnswer_zero (s : State) (w : Twin) (m : PageMessage) (cmd : Nat) :
    let t := s.mapChip w fun c => c.pageAnswer m cmd 0 0
    (t.chip w).answers = (s.chip w).answers ++ [⟨.mctp, 0, 0⟩] ∧
      (t.chip w).count K.RAS_BAD_ACCESS = (s.chip w).count K.RAS_BAD_ACCESS ∧ t.chip w.other = s.chip w.other := by
  refine ⟨?_, ?_, chip_mapChip_other s w _⟩
  · rw [chip_mapChip_same, Chip.pageAnswer_answers_of_success]
    rfl
  · rw [chip_mapChip_same, Chip.pageAnswer_count_of_success _ _ _ _ _ rfl (by decide)]

/-- Settles O8: an access of good form is decided by the absence of a page before anything else of its page is looked at, and what the endpoint's
answer to a page message counts is no bad access. -/
theorem unbackedPagesReadZero : Obligations.UnbackedPagesReadZero := by
  refine ⟨fun c rq page off size h => c.takePage_of_unbacked rq off size h, fun w rq x s hp hg => ⟨?_, ?_, ?_⟩,
    fun w m s hup hack hok ha ho hp ht x hx => ?_⟩
  · exact congrArg Host.Outcome.next (s.writePage_of_unbacked w rq hp hg)
  · exact congrArg Host.Outcome.next (s.writePeer_of_unbacked w rq hp hg)
  · exact congrArg Host.Outcome.next (s.writeAlias_of_unbacked w rq hp hg)
  · cases hx with
    | head => exact ⟨_, execPageRead_of_unbacked w m s hup hack hok ha ho hp ht, s.mapChip_pageAnswer_zero w m 1⟩
    | tail _ hx =>
      obtain rfl := List.mem_singleton.mp hx
      exact ⟨_, execPageWrite_of_unbacked w m s hup hack hok ha ho hp, s.mapChip_pageAnswer_zero w m 2⟩

end Sys2Proof.Machine
end

section
/-! PROOF. The power sequencer on the way down (R524): what the timeout of a step records, counts and raises, that the sequence then goes on with the
step's delay, and that no PG bit belongs to a running rail. -/
namespace Sys2Proof.Machine

namespace Chip

/-! ## The registers of the sequencer -/

/-- Counting leaves every register as it was. -/
@[simp] theorem get_cnt (c : Chip) (k : Ctr) (n : Nat) (f : Fld) : (c.cnt k n).get f = c.get f := rfl

/-- The lowest bit of a mask is the one that is set with none set below it. -/
theorem lowestBit_eq (m : Nat) (i : Fin 16) (hi : m.testBit i.val = true) (hl : ∀ k : Fin 16, k < i → m.testBit k.val = false) :
    lowestBit m = i.val := by
  have hbit : (fun k => (m >>> k) % 2 == 1) = m.testBit := funext fun k => by
    rw [Nat.testBit_eq_decide_div_mod_eq, Nat.shiftRight_eq_div_pow]
    rfl
  have hfind : (List.range 16).find? m.testBit = some i.val := by
    refine List.find?_range_eq_some.mpr ⟨hi, List.mem_range.mpr i.isLt, fun k hk => ?_⟩
    rw [hl ⟨k, Nat.lt_trans hk i.isLt⟩ hk]
    rfl
  rw [lowestBit, hbit, hfind]
  rfl

section
variable (c : Chip) (rail kind n : Nat)

theorem lastFault_rail : (c.lastFault rail kind).get F.PSQ_LAST_FAULT_RAIL = rail % 2 ^ 4 := by
  unfold lastFault
  rw [get_put_apart _ F.PSQ_LAST_FAULT_KIND F.PSQ_LAST_FAULT_RAIL _ (by decide) rfl rfl (by decide),
    get_put_apart _ F.PSQ_LAST_FAULT_STATE F.PSQ_LAST_FAULT_RAIL _ (by decide) rfl rfl (by decide), get_put_same _ _ _ (by decide)]

theorem lastFault_kind : (c.lastFault rail kind).get F.PSQ_LAST_FAULT_KIND = kind % 2 ^ 2 :=
  get_put_same _ _ _ (by decide)

/-- LAST_FAULT is one word: what it records leaves the fields of every other. -/
theorem get_lastFault_ne (f : Fld) (h : regKey f.page f.off ≠ regKey 0x140 0x808) : (c.lastFault rail kind).get f = c.get f := by
  unfold lastFault
  rw [get_put_ne _ F.PSQ_LAST_FAULT_KIND f _ h, get_put_ne _ F.PSQ_LAST_FAULT_STATE f _ h, get_put_ne _ F.PSQ_LAST_FAULT_RAIL f _ h]

@[simp] theorem lastFault_count (k : Ctr) : (c.lastFault rail kind).count k = c.count k := rfl

@[simp] theorem setPhase_phase : (c.setPhase n).psq.phase = n := by
  simp only [setPhase, put_parts]

/-- A phase shows in the sequencer's state word alone. -/
theorem get_setPhase_ne (f : Fld) (h : regKey f.page f.off ≠ regKey 0x140 0x800) : (c.setPhase n).get f = c.get f :=
  get_put_ne _ F.PSQ_PSQ_SYNC_HELD f _ h

@[simp] theorem setPhase_psqDir : (c.setPhase n).psqDir = c.psqDir :=
  get_put_apart _ _ _ _ (by decide) rfl rfl (by decide)

@[simp] theorem setPhase_count (k : Ctr) : (c.setPhase n).count k = c.count k := rfl

end

/-! ## The timeout of a step down -/

/-- The rails that the current phase still waits for. -/
def railsMissing (c : Chip) : Nat := ((List.range 16).filter fun k => c.pgMissing.testBit k).length

/-- The log of the rails that stay high at the timeout of a step down: the lowest is recorded with KIND DOWN and each is counted (log 83, 115). -/
def logStuckRails (c : Chip) : Chip :=
  ((c.lastFault (lowestBit c.pgMissing) 3).cnt K.PSQ_DOWN_RAIL_FAILS c.railsMissing).raise F.PSQ_EV_DOWN_RAIL_FAIL

section
variable (c : Chip)

/-- The event and the count leave every word that is quiet as the record of LAST_FAULT has it. -/
theorem get_logStuckRails (f : Fld) (hq : quietReg f.page f.off = true) :
    c.logStuckRails.get f = (c.lastFault (lowestBit c.pgMissing) 3).get f := by
  unfold logStuckRails
  rw [get_of_quiet (raise_quiet _ _) f hq, get_cnt]

theorem logStuckRails_rail : c.logStuckRails.get F.PSQ_LAST_FAULT_RAIL = lowestBit c.pgMissing % 2 ^ 4 := by
  rw [get_logStuckRails _ _ rfl, lastFault_rail]

theorem logStuckRails_kind : c.logStuckRails.get F.PSQ_LAST_FAULT_KIND = 3 := by
  rw [get_logStuckRails _ _ rfl]
  exact lastFault_kind _ _ 3

theorem logStuckRails_count :
    c.logStuckRails.count K.PSQ_DOWN_RAIL_FAILS = (c.count K.PSQ_DOWN_RAIL_FAILS + c.railsMissing) % 2 ^ 48 := by
  unfold logStuckRails
  rw [count_of_quiet (raise_quiet _ _) _ rfl, count_cnt_same, lastFault_count]

theorem logStuckRails_event : c.logStuckRails.is F.PSQ_EV_DOWN_RAIL_FAIL = true :=
  raise_is _ _ rfl rfl (by decide)

@[simp] theorem logStuckRails_psqDir : c.logStuckRails.psqDir = c.psqDir :=
  (get_logStuckRails c F.PSQ_PSQ_DIR rfl).trans (get_lastFault_ne _ _ _ _ (by decide))

end

/-- On the way down no PG bit belongs to a running rail. -/
theorem railRuns_of_down {c : Chip} (h : c.psqDir = 3) (i : Nat) : c.railRuns i = false := by
  unfold railRuns
  rw [h]
  rfl

end Chip

/-! ## The two commands on the way down -/

section
variable (w : Twin) (s : State) (hd : (s.chip w).psqDir = 3)
include hd

/-- At the timeout of a step down the rails that stay high are logged, and the step's delay runs. -/
theorem execPsqTimeout_of_down (hp : (s.chip w).psq.phase = 0) :
    execPsqTimeout w s = .next (s.setChip w ((s.chip w).logStuckRails.setPhase 1)) := by
  have hwaits : ¬(s.chip w).psq.phase ≠ 0 := fun h => h hp
  have hdown : ¬(s.chip w).psqDir = 1 := by rw [hd]; decide
  unfold execPsqTimeout State.mapChip
  dsimp only
  rw [if_neg hwaits, if_neg hdown, if_pos hd]
  rfl

/-- A PG bit that stays low on the way down changes nothing. -/
theorem execRailFault_of_down (i : Fin 16) : execRailFault w i s = .next s := by
  have hidle : (s.chip w).get F.PSQ_PG_IN >>> i.val % 2 = 1 ∨ (!(s.chip w).railRuns i.val) = true :=
    Or.inr (by rw [Chip.railRuns_of_down hd]; rfl)
  have hsame : s.setChip w (s.chip w) = s := by cases w <;> rfl
  unfold execRailFault State.mapChip
  dsimp only
  rw [if_pos hidle, hsame]

end

/-- Settles O10: the log of the rails that stay high names the lowest, counts each and raises DOWN_RAIL_FAIL, and the phase that follows it leaves all of
that; a rail fault needs a running rail, and on the way down none runs. That LAST_FAULT names the lowest and that each is counted is the
model's choice (log 83, 115). -/
theorem downSequenceGoesOn : Obligations.DownSequenceGoesOn := by
  refine ⟨fun w i s hp hd hi hl => ⟨_, execPsqTimeout_of_down w s hd hp, ?_⟩, fun w i s hd => execRailFault_of_down w s hd i⟩
  have hrail : Chip.lowestBit (s.chip w).pgMissing % 2 ^ 4 = i.val := by
    rw [Chip.lowestBit_eq _ i hi hl]
    exact Nat.mod_eq_of_lt i.isLt
  rw [State.chip_setChip_same]
  refine ⟨?_, ?_, ?_, ?_, Chip.setPhase_phase _ 1, ?_⟩
  · rw [Chip.get_setPhase_ne _ _ _ (by decide), Chip.logStuckRails_rail, hrail]
  · rw [Chip.get_setPhase_ne _ _ _ (by decide), Chip.logStuckRails_kind]
  · exact (s.chip w).logStuckRails_count
  · rw [Chip.is, Chip.get_setPhase_ne _ _ _ (by decide)]
    exact (s.chip w).logStuckRails_event
  · rw [Chip.setPhase_psqDir, Chip.logStuckRails_psqDir, hd]

end Sys2Proof.Machine
end

section
/-! PROOF. BOOT.SVN_ADVANCE (R561): that only a machine mode core's write counts, that the fuse count follows the running image and never falls, and
what a rejected write leaves in its page's STATE and EVT_STATUS (R56). -/
namespace Sys2Proof.Machine

namespace Chip

/-! ## A rejected write (R56) -/

section
variable (c : Chip) (page code off : Nat)

/-- STATE is no word that an event may change. -/
theorem quietReg_state : quietReg page 0x00C = true := by
  simp [quietReg]

/-- A rejected write leaves its code and its offset in STATE: the event that it raises comes after, and keeps the word. -/
theorem rd_reject_state : (c.reject page code off).rd page 0x00C =
    withBits (withBits (withBits (c.rd page 0x00C) 8 8 code) 16 12 off) 31 1 0 := by
  unfold reject
  rw [rd_of_quiet (raiseBit_quiet _ _ _) _ _ (quietReg_state page), rd_wr_same]

theorem reject_code : bitsOf ((c.reject page code off).rd page 0x00C) 8 8 = code % 2 ^ 8 := by
  rw [rd_reject_state, bitsOf_withBits_apart _ _ _ _ _ _ (by decide) (by decide),
    bitsOf_withBits_apart _ _ _ _ _ _ (by decide) (by decide), bitsOf_withBits_same _ _ _ _ (by decide)]

theorem reject_offset : bitsOf ((c.reject page code off).rd page 0x00C) 16 12 = off % 2 ^ 12 := by
  rw [rd_reject_state, bitsOf_withBits_apart _ _ _ _ _ _ (by decide) (by decide), bitsOf_withBits_same _ _ _ _ (by decide)]

theorem reject_event : ((c.reject page code off).rd page 0x010).getLsbD 28 = true :=
  raiseBit_sets _ _ _ (by decide)

/-- A rejected write leaves the state of its page as it was. -/
@[simp] theorem reject_pageState : (c.reject page code off).pageState page = c.pageState page := by
  unfold pageState
  rw [rd_reject_state]
  iterate 3 rw [bitsOf_withBits_apart _ _ _ _ _ _ (by decide) (by decide)]

end

/-! ## SVN_ADVANCE on one chip -/

/-- A write that only a machine mode core may make is refused to every other requester. -/
theorem ifMachine_of_not_coreM (c : Chip) {rq : Requester} (f : Chip → Chip) (h : ∀ n : Fin 9, rq ≠ .coreM n) : c.ifMachine rq f = c.deny := by
  cases rq with
  | coreM n => exact absurd rfl (h n)
  | coreS _ | host _ | mctp | debugPort => rfl

/-- While fuses are left, the count becomes the greater of itself and the image's SVN, so it never falls. -/
theorem svnAdvance_svn {c : Chip} (h : c.sec.svn < 64) : c.svnAdvance.sec.svn = max c.sec.svn c.rst.imageSvn := by
  unfold svnAdvance
  rw [if_neg (Nat.not_le_of_lt h)]
  simp only [put_parts]

/-- With every fuse blown the write is rejected with RANGE. -/
theorem svnAdvance_of_all_blown {c : Chip} (h : 64 ≤ c.sec.svn) : c.svnAdvance = c.reject 0x031 0x01 0x100 :=
  if_pos h

end Chip

/-! ## SVN_ADVANCE on the pair -/

section
variable (w : Twin) (s : State)

theorem execSvnAdvance_of_coreM (n : Fin 9) (hup : (s.chip w).up = true) :
    execSvnAdvance w (.coreM n) s = .next (s.mapChip w Chip.svnAdvance) :=
  congrArg Host.Outcome.next (s.onUp_of_up w _ hup)

/-- Where the requester is no machine mode core, nothing is blown: a chip that runs counts the denied access, and one that does not ignores it. -/
theorem onUp_svnAdvance_sec_of_not_coreM {rq : Requester} (h : ∀ n : Fin 9, rq ≠ .coreM n) :
    ((s.onUp w fun c => c.ifMachine rq Chip.svnAdvance).chip w).sec = (s.chip w).sec := by
  cases hup : (s.chip w).up with
  | false => rw [State.onUp_of_down _ _ _ hup]
  | true =>
    rw [State.onUp_of_up _ _ _ hup, State.chip_mapChip_same, Chip.ifMachine_of_not_coreM _ _ h]
    simp only [Chip.deny_parts]

end

/-- Settles O9: a machine mode core's write reaches the fuses, whose count becomes a maximum while one is left and is not touched by the rejection
once all are blown; any other requester's write is refused. -/
theorem securityVersionAdvances : Obligations.SecurityVersionAdvances := by
  refine ⟨fun w n s hup hroom => ⟨_, execSvnAdvance_of_coreM w s n hup, ?_⟩, fun w n s hup hfull => ⟨_, execSvnAdvance_of_coreM w s n hup, ?_⟩,
    fun w rq s hrq => ⟨_, rfl, onUp_svnAdvance_sec_of_not_coreM w s hrq⟩⟩
  · rw [State.chip_mapChip_same, Chip.svnAdvance_svn hroom]
  · rw [State.chip_mapChip_same, Chip.svnAdvance_of_all_blown hfull]
    refine ⟨?_, Chip.reject_code _ _ _ _, Chip.reject_offset _ _ _ _, Chip.reject_event _ _ _ _, Chip.reject_pageState _ _ _ _⟩
    simp only [Chip.reject_parts]

end Sys2Proof.Machine
end

section
/-! PROOF. Whole-table statements: what a step does with the queue, that every command answers a next state, and that every command keeps every
memory canonical, and leaves every byte where it stores nothing. -/
namespace Sys2Proof.Machine

/-! ## The queue under the operations on the pair -/

namespace State

/-- A fold of operations that leave the queue leaves the queue. -/
theorem pending_foldl {α : Type} (g : State → α → State) (hg : ∀ s x, (g s x).pending = s.pending) (l : List α) :
    ∀ s : State, (l.foldl g s).pending = s.pending := by
  induction l with
  | nil => exact fun s => rfl
  | cons x r ih => exact fun s => (ih (g s x)).trans (hg s x)

@[simp] theorem pending_onPort (s : State) (p : Fin 6) (f : Chip → Chip) : (s.onPort p f).pending = s.pending := rfl

@[simp] theorem pending_arrive (s : State) (r : Request) (v : Arrival) : (s.arrive r v).pending = s.pending := by
  unfold arrive
  split
  · rfl
  · split
    · rfl
    · simp only [pending_mapChip]

@[simp] theorem pending_birsp (s : State) (h : Fin 24) (line kind : Nat) : (s.birsp h line kind).pending = s.pending := rfl

@[simp] theorem pending_ringOp (s : State) (q : Fin 64) (idx op : Nat) (f : Chip → Nat → RingCmd → Chip) :
    (s.ringOp q idx op f).pending = s.pending := rfl

@[simp] theorem pending_drawKey (s : State) (w : Twin) (d : Nat) : (s.drawKey w d).pending = s.pending := pending_mapChip _ _ _

@[simp] theorem pending_onReached (s : State) (h : Fin 24) (f : Chip → Chip) : (s.onReached h f).pending = s.pending := by
  unfold onReached
  split
  · exact pending_onHome s h f
  · rfl

@[simp] theorem pending_resetHeads (s : State) (hs : List (Fin 24)) (link : Bool) : (s.resetHeads hs link).pending = s.pending :=
  by
  unfold resetHeads
  exact pending_foldl _ (fun _ _ => pending_mapBoth _ _) hs s

@[simp] theorem pending_mailGet (s : State) (h : Fin 24) (f : Chip → MailReply) : (s.mailGet h f).pending = s.pending := by
  unfold mailGet
  split <;> rfl

@[simp] theorem pending_mailSet (s : State) (h : Fin 24) (op : Nat) (manager : Bool) (f : Chip → Except Nat (Effect × Nat)) :
    (s.mailSet h op manager f).pending = s.pending := by
  unfold mailSet
  dsimp only
  repeat' split
  all_goals simp only [pending_mapChip, pending_onPort]

/-- Drawing keys uses open values alone: whatever they leave of a state, the draw leaves. -/
theorem drawKeys_keeps {α : Type} (g : State → α) (hg : ∀ s : State, g s.nextFree.2 = g s) (s : State) (w : Twin) : g (s.drawKeys w).2 = g s := by
  have h : ∀ (l : List Nat) (a : List (Nat × BitVec 512) × State),
      g (l.foldl (fun a d => (a.1 ++ [(d, Config.drbg a.2.nextFree.1)], a.2.nextFree.2)) a).2 = g a.2 := by
    intro l
    induction l with
    | nil => exact fun a => rfl
    | cons d r ih => exact fun a => (ih _).trans (hg a.2)
  exact h _ ([], s)

@[simp] theorem pending_drawKeys (s : State) (w : Twin) : (s.drawKeys w).2.pending = s.pending :=
  drawKeys_keeps State.pending nextFree_pending s w

@[simp] theorem chip_drawKeys (s : State) (w v : Twin) : (s.drawKeys w).2.chip v = s.chip v :=
  drawKeys_keeps (fun s => s.chip v) (fun s => nextFree_chip s v) s w

@[simp] theorem pending_eraseEvery (s : State) (h : Fin 24) (op : Nat) (zero : Bool) (first : List (Effect × Nat)) :
    (s.eraseEvery h op zero first).pending = s.pending := by
  unfold eraseEvery
  dsimp only
  repeat' split
  all_goals simp only [pending_mapChip, pending_onPort, pending_drawKeys]

@[simp] theorem pending_sourceChosen (s : State) (w : Twin) (own peer : Summary) : (s.sourceChosen w own peer).pending = s.pending := by
  unfold sourceChosen
  dsimp only
  rw [pending_mapChip]
  split <;> rfl

@[simp] theorem pending_sourceChoice (s : State) (w : Twin) (own : Summary) : (s.sourceChoice w own).pending = s.pending := by
  unfold sourceChoice
  repeat' split
  all_goals simp only [pending_mapChip, pending_sourceChosen]

@[simp] theorem pending_samplePins (s : State) (w : Twin) : (s.samplePins w).pending = s.pending := pending_mapChip _ _ _

@[simp] theorem pending_release (s : State) (w : Twin) (cause : Nat) (x : BootReport) : (s.release w cause x).pending = s.pending := by
  unfold release
  dsimp only
  split
  · rfl
  · simp only [pending_samplePins, pending_mapChip]

@[simp] theorem pending_warmGo (s : State) (w : Twin) (rq : Requester) (x : BootReport) : (s.warmGo w rq x).pending = s.pending := by
  unfold warmGo
  dsimp only
  repeat' split
  all_goals simp only [pending_release, pending_mapChip]

@[simp] theorem pending_eraseReq (s : State) (w : Twin) (d : Nat) : (s.eraseReq w d).pending = s.pending := by
  unfold eraseReq
  dsimp only
  repeat' split
  all_goals simp only [pending_mapChip, nextFree_pending]

@[simp] theorem pending_eraseEnded (s : State) (d : Nat) : (s.eraseEnded d).pending = s.pending := by
  unfold eraseEnded
  dsimp only
  repeat' split
  · rfl
  · exact pending_foldl _ (fun s h => pending_onHome s h _) _ _
  · rfl

@[simp] theorem pending_handOver (s : State) (p : Fin 6) : (s.handOver p).pending = s.pending := by
  unfold handOver
  repeat' split
  all_goals simp only [pending_mapChip, pending_mapBoth]

@[simp] theorem pending_wantHandover (s : State) (p : Fin 6) : (s.wantHandover p).pending = s.pending := by
  unfold wantHandover
  repeat' split
  all_goals simp only [pending_handOver, pending_mapBoth]

@[simp] theorem pending_portHomeApplied (s : State) (old new : Nat) : (s.portHomeApplied old new).pending = s.pending :=
  pending_foldl _ (fun s p => by split <;> simp only [pending_wantHandover]) _ s

@[simp] theorem pending_drill (s : State) (p : Fin 6) : (s.drill p).pending = s.pending := by
  unfold drill
  dsimp only
  repeat' split
  all_goals simp only [pending_handOver, pending_mapBoth]

@[simp] theorem pending_linkFalls (s : State) (w : Twin) : (s.linkFalls w).pending = s.pending := by
  simp only [linkFalls, pending_mapChip]

@[simp] theorem pending_taken (s : State) (w : Twin) : (s.taken w).pending = s.pending := pending_mapChip _ _ _

theorem pending_receive (s : State) (w : Twin) (cls : Nat) (f : EnvBody → State → State) (hf : ∀ b s, (f b s).pending = s.pending) :
    (s.receive w cls f).pending = s.pending := by
  unfold receive
  dsimp only
  repeat' split
  all_goals simp only [hf, pending_setChip, pending_taken]

@[simp] theorem pending_storeWord (s : State) (w : Twin) (rq : Requester) (via : Option Twin) (page off : Nat) (v : Word) :
    (s.storeWord w rq via page off v).pending = s.pending := by
  have hx : (if (sourceNumber page off).isSome then s.nextFree else (0, s)).2.pending = s.pending := by
    split <;> rfl
  unfold storeWord
  dsimp only
  repeat' split
  all_goals simp only [pending_drawKey, pending_setChip, pending_mapChip, pending_warmGo, pending_eraseReq, nextFree_pending]

theorem pending_storeWords (w : Twin) (rq : Requester) (l : List PageWrite) (s : State) :
    (l.foldl (fun s y => s.storeWord w rq none y.page y.off (y.data.setWidth 32)) s).pending = s.pending :=
  pending_foldl _ (fun _ _ => pending_storeWord ..) l s

@[simp] theorem pending_writePage (s : State) (w : Twin) (rq : Requester) (x : PageWrite) : (s.writePage w rq x).pending = s.pending := by
  unfold writePage
  dsimp only
  repeat' split
  all_goals simp only [pending_mapChip, pending_storeWords]

@[simp] theorem pending_writeAlias (s : State) (w : Twin) (rq : Requester) (x : PageWrite) : (s.writeAlias w rq x).pending = s.pending := by
  unfold writeAlias
  dsimp only
  repeat' split
  all_goals simp only [pending_mapChip]

@[simp] theorem pending_writePeer (s : State) (w : Twin) (rq : Requester) (x : PageWrite) : (s.writePeer w rq x).pending = s.pending := by
  unfold writePeer
  dsimp only
  repeat' split
  all_goals simp only [pending_mapChip]

@[simp] theorem pending_readPage (s : State) (w : Twin) (rq : Requester) (page off size : Nat) :
    (s.readPage w rq page off size).pending = s.pending := pending_mapChip _ _ _

@[simp] theorem pending_readPeer (s : State) (w : Twin) (rq : Requester) (page off size : Nat) :
    (s.readPeer w rq page off size).pending = s.pending := pending_mapChip _ _ _

@[simp] theorem pending_applyAlias (s : State) (a : AliasWrite) (onA onB : Bool) : (s.applyAlias a onA onB).pending = s.pending := by
  unfold applyAlias
  dsimp only
  repeat' split
  all_goals simp only [pending_portHomeApplied, pending_drill, pending_mapBoth, pending_storeWord]

@[simp] theorem pending_applyAliases (s : State) : s.applyAliases.pending = s.pending := by
  unfold applyAliases
  exact pending_foldl _ (fun _ _ => pending_applyAlias ..) _ _

@[simp] theorem pending_keysAfter (s old : State) (w : Twin) : (s.keysAfter old w).pending = s.pending := by
  unfold keysAfter
  dsimp only
  split
  · rfl
  · exact pending_foldl _ (fun _ _ => pending_drawKey ..) _ s

@[simp] theorem pending_servePeer (s : State) (w : Twin) (b : EnvBody) : (s.servePeer w b).pending = s.pending := by
  unfold servePeer
  repeat' split
  all_goals simp only [pending_mapChip, pending_storeWords]

@[simp] theorem pending_ioAnswer (s : State) (h : Fin 24) (f : Chip → List Byte) : (s.ioAnswer h f).pending = s.pending := pending_onHome _ _ _

@[simp] theorem pending_barRead (s : State) (h : Fin 24) (off size : Nat) : (s.barRead h off size).pending = s.pending := by
  unfold barRead
  dsimp only
  repeat' split
  all_goals simp only [pending_ioAnswer, pending_readPeer, pending_readPage, pending_mapChip]

@[simp] theorem pending_barWrite (s : State) (h : Fin 24) (off size : Nat) (v : BitVec 64) : (s.barWrite h off size v).pending = s.pending := by
  unfold barWrite
  dsimp only
  repeat' split
  all_goals simp only [pending_writeAlias, pending_writePage, pending_writePeer, pending_onPort, pending_mapChip]

@[simp] theorem pending_busAccess (s : State) (w : Twin) (x : BusAccess) : (s.busAccess w x).pending = s.pending := by
  unfold busAccess
  dsimp only
  repeat' split
  all_goals simp only [pending_readPage, pending_writePage, pending_readPeer, pending_writePeer, pending_writeAlias, pending_mapChip]

end State

/-! ## Every command -/

/-- Whether a command answers a next state, with the queue as it was. -/
def NextKeepsQueue (o : Host.Outcome State Fault Refusal) (s : State) : Prop := ∃ t : State, o = .next t ∧ t.pending = s.pending

theorem execDeliveryBoundary_next (w : Twin) (s : State) : NextKeepsQueue (execDeliveryBoundary w s) s := by
  unfold execDeliveryBoundary
  dsimp only
  repeat' split
  all_goals exact ⟨_, rfl, by simp only [State.pending_onUp, State.nextFree_pending]⟩

theorem execPageCheckDone_next (w : Twin) (page : Nat) (s : State) : NextKeepsQueue (execPageCheckDone w page s) s := by
  refine ⟨_, rfl, ?_⟩
  simp only [State.pending_onUp, State.pending_keysAfter]

theorem execAliasWriteApply_next (s : State) : NextKeepsQueue (execAliasWriteApply s) s := by
  refine ⟨_, rfl, ?_⟩
  simp only [State.pending_applyAliases]

theorem execLinkTrained_next (h : Fin 24) (t : LinkTraining) (s : State) : NextKeepsQueue (execLinkTrained h t s) s := by
  refine ⟨_, rfl, ?_⟩
  repeat' split
  all_goals simp only [State.pending_onPort]

theorem execDecoderCommit_next (h : Fin 24) (n : Fin 16) (s : State) : NextKeepsQueue (execDecoderCommit h n s) s := by
  refine ⟨_, rfl, ?_⟩
  repeat' split
  all_goals simp only [State.pending_onPort]

theorem execCxlIoConfigWrite_next (h : Fin 24) (x : IoWrite) (s : State) : NextKeepsQueue (execCxlIoConfigWrite h x s) s := by
  refine ⟨_, rfl, ?_⟩
  repeat' split
  all_goals simp only [State.pending_onHome, State.pending_onPort, State.pending_barRead, State.pending_barWrite, State.pending_ioAnswer]

theorem execMemSpecRd_next (r : Request) (room : Bool) (s : State) : NextKeepsQueue (execMemSpecRd r room s) s := by
  refine ⟨_, rfl, ?_⟩
  repeat' split
  all_goals simp only [State.pending_arrive, State.pending_onHome]

theorem execSpdmChallenge_next (h : Fin 24) (slot : Fin 8) (s : State) : NextKeepsQueue (execSpdmChallenge h slot s) s :=
  ⟨_, rfl, by simp only [State.pending_onReached]⟩

theorem execGetScanMediaCapabilities_next (h : Fin 24) (dpa lines : Nat) (s : State) :
    NextKeepsQueue (execGetScanMediaCapabilities h dpa lines s) s :=
  ⟨_, rfl, by simp only [State.nextFree_pending, State.pending_mailGet]⟩

theorem execStartDrill_next (h : Fin 24) (port : Nat) (s : State) : NextKeepsQueue (execStartDrill h port s) s := by
  refine ⟨_, rfl, ?_⟩
  dsimp only
  repeat' split
  all_goals simp only [State.pending_mapChip, State.pending_drill]

theorem execMailboxBackgroundDone_next (s : State) : NextKeepsQueue (execMailboxBackgroundDone s) s := by
  refine ⟨_, rfl, ?_⟩
  dsimp only
  repeat' split
  all_goals simp only [State.pending_onHome]

theorem execD0Entry_next (h : Fin 24) (s : State) : NextKeepsQueue (execD0Entry h s) s := by
  refine ⟨_, rfl, ?_⟩
  repeat' split
  all_goals simp only [State.pending_onPort]

theorem execPerstAssert_next (p : Fin 6) (s : State) : NextKeepsQueue (execPerstAssert p s) s :=
  ⟨_, rfl, State.pending_foldl _ (fun _ _ => State.pending_mapBoth _ _) _ s⟩

theorem execPerstDeassert_next (p : Fin 6) (s : State) : NextKeepsQueue (execPerstDeassert p s) s :=
  ⟨_, rfl, State.pending_foldl _ (fun _ _ => State.pending_mapBoth _ _) _ s⟩

theorem execCmdTail_next (w : Twin) (rq : Requester) (throughAlias : Bool) (q : Fin 64) (v : BitVec 16) (s : State) :
    NextKeepsQueue (execCmdTail w rq throughAlias q v s) s := by
  refine ⟨_, rfl, ?_⟩
  repeat' split
  all_goals simp only [State.pending_onUp]

theorem execCmpHead_next (w : Twin) (rq : Requester) (throughAlias : Bool) (q : Fin 64) (v : BitVec 16) (s : State) :
    NextKeepsQueue (execCmpHead w rq throughAlias q v s) s := by
  refine ⟨_, rfl, ?_⟩
  repeat' split
  all_goals simp only [State.pending_onUp]

theorem execEnvFill_next (w : Twin) (s : State) : NextKeepsQueue (execEnvFill w s) s :=
  ⟨_, rfl, State.pending_receive _ _ _ _ fun _ _ => rfl⟩

theorem execEnvFrame_next (w : Twin) (s : State) : NextKeepsQueue (execEnvFrame w s) s :=
  ⟨_, rfl, State.pending_receive _ _ _ _ fun b s => by simp only [State.pending_mapChip]⟩

theorem execEnvPostmark_next (w : Twin) (s : State) : NextKeepsQueue (execEnvPostmark w s) s := by
  refine ⟨_, rfl, ?_⟩
  split
  · rfl
  · refine State.pending_receive _ _ _ _ fun b s => ?_
    split
    · simp only [State.pending_mapChip]
    · rfl

theorem execEnvFetch_next (w : Twin) (s : State) : NextKeepsQueue (execEnvFetch w s) s :=
  ⟨_, rfl, State.pending_receive _ _ _ _ fun b s => by simp only [State.pending_mapChip]⟩

theorem execEnvRepair_next (w : Twin) (outcome : ReadOutcome) (s : State) : NextKeepsQueue (execEnvRepair w outcome s) s :=
  ⟨_, rfl, State.pending_receive _ _ _ _ fun b s => by simp only [State.pending_mapChip]⟩

theorem execEnvBridge_next (w : Twin) (s : State) : NextKeepsQueue (execEnvBridge w s) s :=
  ⟨_, rfl, State.pending_receive _ _ _ _ fun b s => by simp only [State.pending_mapChip]⟩

theorem execEnvAccess_next (w : Twin) (s : State) : NextKeepsQueue (execEnvAccess w s) s := by
  refine ⟨_, rfl, State.pending_receive _ _ _ _ fun b t => ?_⟩
  split
  · rfl
  · exact State.pending_servePeer t w b

theorem execEnvEvent_next (w : Twin) (s : State) : NextKeepsQueue (execEnvEvent w s) s :=
  ⟨_, rfl, State.pending_receive _ _ _ _ fun b s => by simp only [State.pending_mapChip]⟩

theorem execEnvControl_next (w : Twin) (s : State) : NextKeepsQueue (execEnvControl w s) s :=
  ⟨_, rfl, State.pending_receive _ _ _ _ fun b s => by simp only [State.pending_mapChip]⟩

theorem execEnvResync_next (w : Twin) (s : State) : NextKeepsQueue (execEnvResync w s) s :=
  ⟨_, rfl, State.pending_receive _ _ _ _ fun b s => by simp only [State.pending_mapChip]⟩

theorem execEnvelopeReject_next (w : Twin) (badTag : Bool) (s : State) : NextKeepsQueue (execEnvelopeReject w badTag s) s := by
  refine ⟨_, rfl, ?_⟩
  dsimp only
  repeat' split
  all_goals simp only [State.pending_mapChip, State.pending_taken]

theorem execAuthFail_next (w : Twin) (s : State) : NextKeepsQueue (execAuthFail w s) s := by
  refine ⟨_, rfl, ?_⟩
  repeat' split
  all_goals simp only [State.pending_mapChip, State.pending_linkFalls]

theorem execDoubleLoss_next (w : Twin) (lane : Fin 18) (s : State) : NextKeepsQueue (execDoubleLoss w lane s) s := by
  refine ⟨_, rfl, ?_⟩
  dsimp only
  repeat' split
  all_goals simp only [State.pending_mapChip]

theorem execExtentCopyApply_next (s : State) : NextKeepsQueue (execExtentCopyApply s) s :=
  ⟨_, rfl, by simp only [State.pending_mapBoth]⟩

theorem execExtentCopyDone_next (extent : Nat) (s : State) : NextKeepsQueue (execExtentCopyDone extent s) s := by
  refine ⟨_, rfl, ?_⟩
  dsimp only
  repeat' split
  all_goals simp only [State.pending_mapBoth, State.pending_setChip]

theorem execCxkTrainingDone_next (w : Twin) (locked : BitVec 18) (delayNs : Nat) (authentic : Bool) (s : State) :
    NextKeepsQueue (execCxkTrainingDone w locked delayNs authentic s) s := by
  refine ⟨_, rfl, ?_⟩
  dsimp only
  repeat' split
  all_goals simp only [State.pending_mapChip, State.pending_mapBoth, State.pending_setChip]

theorem execLaneLockLoss_next (w : Twin) (lane : Fin 18) (s : State) : NextKeepsQueue (execLaneLockLoss w lane s) s := by
  refine ⟨_, rfl, ?_⟩
  dsimp only
  repeat' split
  all_goals simp only [State.pending_setChip, State.pending_linkFalls]

theorem execOwnInFall_next (w : Twin) (p : Fin 6) (s : State) : NextKeepsQueue (execOwnInFall w p s) s :=
  ⟨_, rfl, by simp only [State.pending_onUp]⟩

theorem execOwnInRise_next (w : Twin) (p : Fin 6) (s : State) : NextKeepsQueue (execOwnInRise w p s) s :=
  ⟨_, rfl, by simp only [State.pending_onUp]⟩

theorem execTwinDeadNFall_next (w : Twin) (s : State) : NextKeepsQueue (execTwinDeadNFall w s) s :=
  ⟨_, rfl, by simp only [State.pending_onUp]⟩

theorem execFenceInFall_next (w : Twin) (s : State) : NextKeepsQueue (execFenceInFall w s) s := by
  refine ⟨_, rfl, ?_⟩
  dsimp only
  simp only [State.pending_mapChip]

theorem execFenceInRise_next (w : Twin) (s : State) : NextKeepsQueue (execFenceInRise w s) s := by
  refine ⟨_, rfl, ?_⟩
  dsimp only
  repeat' split
  all_goals simp only [State.pending_mapChip, State.pending_release]

theorem execHandoverRetry_next (p : Fin 6) (s : State) : NextKeepsQueue (execHandoverRetry p s) s := by
  refine ⟨_, rfl, ?_⟩
  dsimp only
  repeat' split
  all_goals simp only [State.pending_mapBoth, State.pending_handOver]

theorem execTakeoverDrill_next (rq : Requester) (s : State) : NextKeepsQueue (execTakeoverDrill rq s) s := by
  refine ⟨_, rfl, ?_⟩
  dsimp only
  repeat' split
  all_goals simp only [State.pending_mapChip, State.pending_mapBoth, State.pending_drill]

theorem execDrillReturn_next (s : State) : NextKeepsQueue (execDrillReturn s) s := by
  refine ⟨_, rfl, ?_⟩
  repeat' split
  all_goals simp only [State.pending_mapBoth, State.pending_handOver]

theorem execCountersignMismatch_next (w : Twin) (dpa : Nat) (carbonStable homeStable : Bool) (carbonData homeData : Line) (s : State) :
    NextKeepsQueue (execCountersignMismatch w dpa carbonStable homeStable carbonData homeData s) s := by
  refine ⟨_, rfl, ?_⟩
  dsimp only
  repeat' split
  all_goals simp only [State.pending_mapChip]

theorem execResyncConfigDone_next (s : State) : NextKeepsQueue (execResyncConfigDone s) s := by
  refine ⟨_, rfl, ?_⟩
  dsimp only
  repeat' split
  all_goals simp only [State.pending_mapChip]

theorem execResyncFrontDone_next (s : State) : NextKeepsQueue (execResyncFrontDone s) s := by
  refine ⟨_, rfl, ?_⟩
  repeat' split
  all_goals rfl

theorem execResyncBackDone_next (s : State) : NextKeepsQueue (execResyncBackDone s) s := by
  refine ⟨_, rfl, ?_⟩
  dsimp only
  repeat' split
  all_goals rfl

theorem execResyncFinish_next (s : State) : NextKeepsQueue (execResyncFinish s) s := by
  refine ⟨_, rfl, ?_⟩
  dsimp only
  repeat' split
  all_goals simp only [State.pending_mapChip]

theorem execResyncCapacityRefuse_next (s : State) : NextKeepsQueue (execResyncCapacityRefuse s) s := by
  refine ⟨_, rfl, ?_⟩
  dsimp only
  repeat' split
  all_goals simp only [State.pending_mapChip]

theorem execSoloWaitExpiry_next (w : Twin) (pulseEdge : Bool) (s : State) : NextKeepsQueue (execSoloWaitExpiry w pulseEdge s) s :=
  ⟨_, rfl, by simp only [State.pending_onUp]⟩

theorem execForceAlone_next (w : Twin) (rq : Requester) (s : State) : NextKeepsQueue (execForceAlone w rq s) s :=
  ⟨_, rfl, by simp only [State.pending_onUp]⟩

theorem execDomainWrite_next (w : Twin) (rq : Requester) (d : Fin 64) (reg : Fin 4) (data : Word) (s : State) :
    NextKeepsQueue (execDomainWrite w rq d reg data s) s := by
  unfold execDomainWrite
  dsimp only
  repeat' split
  all_goals exact ⟨_, rfl, by simp only [State.pending_mapChip, State.pending_setChip, State.pending_drawKey]⟩

theorem execRebuildDone_next (w : Twin) (m : Fin 8) (s : State) : NextKeepsQueue (execRebuildDone w m s) s :=
  ⟨_, rfl, by simp only [State.pending_onUp]⟩

theorem execSourceChoice_next (w : Twin) (s : State) : NextKeepsQueue (execSourceChoice w s) s := by
  refine ⟨_, rfl, ?_⟩
  repeat' split
  all_goals simp only [State.pending_sourceChoice]

theorem execMemoryActive_next (s : State) : NextKeepsQueue (execMemoryActive s) s := by
  refine ⟨_, rfl, ?_⟩
  dsimp only
  repeat' split
  all_goals simp only [State.pending_mapChip]

theorem execSourceDisable_next (w : Twin) (rq : Requester) (i : Fin 1024) (s : State) : NextKeepsQueue (execSourceDisable w rq i s) s := by
  refine ⟨_, rfl, ?_⟩
  dsimp only
  simp only [State.pending_onUp]

theorem execFmApiCommand_next (w : Twin) (opcode : BitVec 16) (s : State) : NextKeepsQueue (execFmApiCommand w opcode s) s := by
  refine ⟨_, rfl, ?_⟩
  dsimp only
  repeat' split
  all_goals simp only [State.pending_mapChip]

theorem execPageRead_next (w : Twin) (x : PageMessage) (s : State) : NextKeepsQueue (execPageRead w x s) s := by
  refine ⟨_, rfl, ?_⟩
  dsimp only
  repeat' split
  all_goals simp only [State.pending_mapChip, State.pending_setChip]

theorem execPageWrite_next (w : Twin) (x : PageMessage) (s : State) : NextKeepsQueue (execPageWrite w x s) s := by
  refine ⟨_, rfl, ?_⟩
  dsimp only
  repeat' split
  all_goals simp only [State.pending_mapChip, State.pending_writePage, State.pending_writeAlias, State.pending_storeWord]

theorem execPowerOnReset_next (w : Twin) (x : BootReport) (s : State) : NextKeepsQueue (execPowerOnReset w x s) s := by
  refine ⟨_, rfl, ?_⟩
  dsimp only
  repeat' split
  all_goals simp only [State.pending_mapChip, State.pending_release]

theorem execResetNRelease_next (w : Twin) (x : BootReport) (s : State) : NextKeepsQueue (execResetNRelease w x s) s := by
  refine ⟨_, rfl, ?_⟩
  dsimp only
  repeat' split
  all_goals simp only [State.pending_mapChip, State.pending_release]

theorem execWarmGo_next (w : Twin) (rq : Requester) (x : BootReport) (s : State) : NextKeepsQueue (execWarmGo w rq x s) s := by
  refine ⟨_, rfl, ?_⟩
  repeat' split
  all_goals simp only [State.pending_warmGo]

theorem execEraseReq_next (rq : Requester) (d : Fin 64) (s : State) : NextKeepsQueue (execEraseReq rq d s) s := by
  unfold execEraseReq
  repeat' split
  all_goals exact ⟨_, rfl, by simp only [State.pending_mapChip, State.pending_eraseReq]⟩

theorem execCryptoEraseDone_next (w : Twin) (d : Fin 64) (s : State) : NextKeepsQueue (execCryptoEraseDone w d s) s := by
  refine ⟨_, rfl, ?_⟩
  repeat' split
  all_goals simp only [State.pending_mapChip, State.pending_eraseEnded]

theorem execTapSysbus_next (w : Twin) (x : BusAccess) (s : State) : NextKeepsQueue (execTapSysbus w x s) s := by
  refine ⟨_, rfl, ?_⟩
  repeat' split
  all_goals simp only [State.pending_mapChip, State.pending_busAccess]

theorem execLinkLeftL0_next (h : Fin 24) (dest : Fin 9) (ns : Nat) (s : State) : NextKeepsQueue (execLinkLeftL0 h dest ns s) s := by
  refine ⟨_, rfl, ?_⟩
  repeat' split
  all_goals simp only [State.pending_onPort]

theorem execTwinDeadNRise_next (w : Twin) (s : State) : NextKeepsQueue (execTwinDeadNRise w s) s :=
  ⟨_, rfl, by simp only [State.pending_onUp]⟩

/-- Every command answers a next state, and none touches the queue. -/
theorem exec_next (i : Instr) (s : State) : NextKeepsQueue (exec i s) s := by
  cases i with
  | roundBoundary w x => exact ⟨_, rfl, State.pending_onUp ..⟩
  | deliveryBoundary w => exact execDeliveryBoundary_next w s
  | jobAllowanceReached w late => exact ⟨_, rfl, State.pending_onUp ..⟩
  | endMark w late => exact ⟨_, rfl, State.pending_onUp ..⟩
  | starvePromote w => exact ⟨_, rfl, State.pending_onUp ..⟩
  | holdupRise w => exact ⟨_, rfl, State.pending_onUp ..⟩
  | registerWrite w rq x => exact ⟨_, rfl, State.pending_writePage ..⟩
  | pageEnable w rq page => exact ⟨_, rfl, State.pending_onUp ..⟩
  | pageDisable w rq page => exact ⟨_, rfl, State.pending_onUp ..⟩
  | pageQuiesce w rq page => exact ⟨_, rfl, State.pending_onUp ..⟩
  | pageUnquiesce w rq page => exact ⟨_, rfl, State.pending_onUp ..⟩
  | softReset w rq page => exact ⟨_, rfl, State.pending_onUp ..⟩
  | freezeCfg w rq page => exact ⟨_, rfl, State.pending_onUp ..⟩
  | pageCheckDone w page => exact execPageCheckDone_next w page s
  | pageDrained w page => exact ⟨_, rfl, State.pending_onUp ..⟩
  | pageFault w page => exact ⟨_, rfl, State.pending_onUp ..⟩
  | evtStatusClear w rq page bits again => exact ⟨_, rfl, State.pending_onUp ..⟩
  | evtForce w rq page bits => exact ⟨_, rfl, State.pending_onUp ..⟩
  | evtEnableWrite w rq page bits => exact ⟨_, rfl, State.pending_onUp ..⟩
  | peerPageRead w rq page off size => exact ⟨_, rfl, State.pending_readPeer ..⟩
  | peerPageWrite w rq x => exact ⟨_, rfl, State.pending_writePeer ..⟩
  | pairAliasWrite w rq x => exact ⟨_, rfl, State.pending_writeAlias ..⟩
  | aliasWriteApply => exact execAliasWriteApply_next s
  | linkTrained h t => exact execLinkTrained_next h t s
  | linkDegradeRetry h => exact ⟨_, rfl, State.pending_mapBoth ..⟩
  | decoderCommit h n => exact execDecoderCommit_next h n s
  | cxlIoConfigWrite h x => exact execCxlIoConfigWrite_next h x s
  | memRd r v => exact ⟨_, rfl, State.pending_arrive ..⟩
  | memRdData r v => exact ⟨_, rfl, State.pending_arrive ..⟩
  | memInv r v => exact ⟨_, rfl, State.pending_arrive ..⟩
  | memInvNt r v => exact ⟨_, rfl, State.pending_arrive ..⟩
  | memSpecRd r room => exact execMemSpecRd_next r room s
  | memWr r v => exact ⟨_, rfl, State.pending_arrive ..⟩
  | memWrPtl r v => exact ⟨_, rfl, State.pending_arrive ..⟩
  | birspI h line => exact ⟨_, rfl, State.pending_birsp ..⟩
  | birspS h line => exact ⟨_, rfl, State.pending_birsp ..⟩
  | birspE h line => exact ⟨_, rfl, State.pending_birsp ..⟩
  | biConflict h line => exact ⟨_, rfl, State.pending_onHome ..⟩
  | requestAdmit h write => exact ⟨_, rfl, State.pending_onHome ..⟩
  | dramReadDone w line outcome device => exact ⟨_, rfl, State.pending_onUp ..⟩
  | doeDiscovery h index => exact ⟨_, rfl, State.pending_onReached ..⟩
  | cdatTableAccess h entry => exact ⟨_, rfl, State.pending_onReached ..⟩
  | spdmGetVersion h => exact ⟨_, rfl, State.pending_onReached ..⟩
  | spdmGetCapabilities h => exact ⟨_, rfl, State.pending_onReached ..⟩
  | spdmNegotiateAlgorithms h => exact ⟨_, rfl, State.pending_onReached ..⟩
  | spdmGetDigests h => exact ⟨_, rfl, State.pending_onReached ..⟩
  | spdmGetCertificate h slot off len => exact ⟨_, rfl, State.pending_onReached ..⟩
  | spdmChallenge h slot => exact execSpdmChallenge_next h slot s
  | spdmGetMeasurements h index => exact ⟨_, rfl, State.pending_onReached ..⟩
  | spdmKeyExchange h => exact ⟨_, rfl, State.pending_onReached ..⟩
  | spdmFinish h id => exact ⟨_, rfl, State.pending_onReached ..⟩
  | spdmHeartbeat h id => exact ⟨_, rfl, State.pending_onReached ..⟩
  | spdmKeyUpdate h id => exact ⟨_, rfl, State.pending_onReached ..⟩
  | spdmEndSession h id => exact ⟨_, rfl, State.pending_onReached ..⟩
  | spdmSetCertificate h slot bytes => exact ⟨_, rfl, State.pending_onReached ..⟩
  | kSetGo h set => exact ⟨_, rfl, State.pending_onReached ..⟩
  | getEventRecords h log => exact ⟨_, rfl, State.pending_mailGet ..⟩
  | clearEventRecords h log all handles => exact ⟨_, rfl, State.pending_mailSet ..⟩
  | getEventInterruptPolicy h => exact ⟨_, rfl, State.pending_mailGet ..⟩
  | setEventInterruptPolicy h log mode => exact ⟨_, rfl, State.pending_mailSet ..⟩
  | getFwInfo h => exact ⟨_, rfl, State.pending_mailGet ..⟩
  | transferFw h off bytes => exact ⟨_, rfl, State.pending_mailSet ..⟩
  | activateFw h slot => exact ⟨_, rfl, State.pending_mailSet ..⟩
  | getTimestamp h => exact ⟨_, rfl, State.pending_mailGet ..⟩
  | setTimestamp h ns => exact ⟨_, rfl, State.pending_mailSet ..⟩
  | getSupportedLogs h => exact ⟨_, rfl, State.pending_mailGet ..⟩
  | getLog h log off len => exact ⟨_, rfl, State.pending_mailGet ..⟩
  | identifyMemoryDevice h => exact ⟨_, rfl, State.pending_mailGet ..⟩
  | getPartitionInfo h => exact ⟨_, rfl, State.pending_mailGet ..⟩
  | getLsa h off len => exact ⟨_, rfl, State.pending_mailGet ..⟩
  | setLsa h off bytes => exact ⟨_, rfl, State.pending_mailSet ..⟩
  | getHealthInfo h => exact ⟨_, rfl, State.pending_mailGet ..⟩
  | getAlertConfiguration h => exact ⟨_, rfl, State.pending_mailGet ..⟩
  | setAlertConfiguration h bytes => exact ⟨_, rfl, State.pending_mailSet ..⟩
  | getShutdownState h => exact ⟨_, rfl, State.pending_mailGet ..⟩
  | setShutdownState h dirty => exact ⟨_, rfl, State.pending_mailSet ..⟩
  | getPoisonList h dpa lines => exact ⟨_, rfl, State.pending_mailGet ..⟩
  | injectPoison h dpa => exact ⟨_, rfl, State.pending_mailSet ..⟩
  | clearPoison h dpa data => exact ⟨_, rfl, State.pending_mailSet ..⟩
  | getScanMediaCapabilities h dpa lines => exact execGetScanMediaCapabilities_next h dpa lines s
  | scanMedia h dpa lines => exact ⟨_, rfl, State.pending_mailSet ..⟩
  | getScanMediaResults h => exact ⟨_, rfl, State.pending_mailGet ..⟩
  | sanitize h => exact ⟨_, rfl, State.pending_eraseEvery ..⟩
  | secureErase h => exact ⟨_, rfl, State.pending_eraseEvery ..⟩
  | getPairInfo h => exact ⟨_, rfl, State.pending_mailGet ..⟩
  | getDirtyBudget h => exact ⟨_, rfl, State.pending_mailGet ..⟩
  | getDeadLetters h first => exact ⟨_, rfl, State.pending_mailGet ..⟩
  | startDrill h port => exact execStartDrill_next h port s
  | mailboxBackgroundDone => exact execMailboxBackgroundDone_next s
  | msixModeratorFire h v timer => exact ⟨_, rfl, State.pending_onHome ..⟩
  | d0Entry h => exact execD0Entry_next h s
  | gpfPhase1 h => exact ⟨_, rfl, State.pending_onReached ..⟩
  | gpfPhase2 h => exact ⟨_, rfl, State.pending_onReached ..⟩
  | gpfPhase2Done h => exact ⟨_, rfl, State.pending_onReached ..⟩
  | hotReset h => exact ⟨_, rfl, State.pending_resetHeads ..⟩
  | secondaryBusReset h => exact ⟨_, rfl, State.pending_resetHeads ..⟩
  | headFlr h => exact ⟨_, rfl, State.pending_resetHeads ..⟩
  | cxlReset h => exact ⟨_, rfl, State.pending_resetHeads ..⟩
  | perstAssert p => exact execPerstAssert_next p s
  | perstDeassert p => exact execPerstDeassert_next p s
  | carbonAcquired w h ns => exact ⟨_, rfl, State.pending_onUp ..⟩
  | acqLimitExpiry w h => exact ⟨_, rfl, State.pending_onUp ..⟩
  | lostRetry w h => exact ⟨_, rfl, State.pending_onUp ..⟩
  | trackLost w h => exact ⟨_, rfl, State.pending_onUp ..⟩
  | flitFetch w h dir flit => exact ⟨_, rfl, State.pending_onUp ..⟩
  | drainEligible w line => exact ⟨_, rfl, State.pending_onUp ..⟩
  | drainIssue w x => exact ⟨_, rfl, State.pending_onUp ..⟩
  | drainAccepted w line merge => exact ⟨_, rfl, State.pending_onUp ..⟩
  | localStall w p => exact ⟨_, rfl, State.pending_onUp ..⟩
  | ringEnableApply q => exact ⟨_, rfl, State.pending_mapBoth ..⟩
  | ringDisableApply q => exact ⟨_, rfl, State.pending_mapBoth ..⟩
  | cmdTail w rq throughAlias q v => exact execCmdTail_next w rq throughAlias q v s
  | cmpHead w rq throughAlias q v => exact execCmpHead_next w rq throughAlias q v s
  | postBoxCommandStart q => exact ⟨_, rfl, State.pending_mapBoth ..⟩
  | completionWrite q => exact ⟨_, rfl, State.pending_mapBoth ..⟩
  | ringNop q idx => exact ⟨_, rfl, State.pending_ringOp ..⟩
  | ringRound q idx => exact ⟨_, rfl, State.pending_ringOp ..⟩
  | objRegister q idx => exact ⟨_, rfl, State.pending_ringOp ..⟩
  | objRemove q idx => exact ⟨_, rfl, State.pending_ringOp ..⟩
  | objSetPolicy q idx => exact ⟨_, rfl, State.pending_ringOp ..⟩
  | objQuery q idx => exact ⟨_, rfl, State.pending_ringOp ..⟩
  | extentPromote q idx => exact ⟨_, rfl, State.pending_ringOp ..⟩
  | extentEvict q idx => exact ⟨_, rfl, State.pending_ringOp ..⟩
  | extentDiscard q idx => exact ⟨_, rfl, State.pending_ringOp ..⟩
  | poolQuery q idx => exact ⟨_, rfl, State.pending_ringOp ..⟩
  | routeLoad q idx => exact ⟨_, rfl, State.pending_ringOp ..⟩
  | routeStart q idx => exact ⟨_, rfl, State.pending_ringOp ..⟩
  | routeSeek q idx => exact ⟨_, rfl, State.pending_ringOp ..⟩
  | routeStop q idx => exact ⟨_, rfl, State.pending_ringOp ..⟩
  | routeUnload q idx => exact ⟨_, rfl, State.pending_ringOp ..⟩
  | routeQuery q idx => exact ⟨_, rfl, State.pending_ringOp ..⟩
  | listBlockReadDone w slot block => exact ⟨_, rfl, State.pending_onUp ..⟩
  | retireDramRow q idx => exact ⟨_, rfl, State.pending_ringOp ..⟩
  | retireFrame q idx => exact ⟨_, rfl, State.pending_ringOp ..⟩
  | retireParcel q idx => exact ⟨_, rfl, State.pending_ringOp ..⟩
  | ledgerQuery q idx => exact ⟨_, rfl, State.pending_ringOp ..⟩
  | envFill w => exact execEnvFill_next w s
  | envFrame w => exact execEnvFrame_next w s
  | envPostmark w => exact execEnvPostmark_next w s
  | envFetch w => exact execEnvFetch_next w s
  | envRepair w outcome => exact execEnvRepair_next w outcome s
  | envBridge w => exact execEnvBridge_next w s
  | envAccess w => exact execEnvAccess_next w s
  | envEvent w => exact execEnvEvent_next w s
  | envControl w => exact execEnvControl_next w s
  | envResync w => exact execEnvResync_next w s
  | envelopeReject w badTag => exact execEnvelopeReject_next w badTag s
  | authFail w => exact execAuthFail_next w s
  | doubleLoss w lane => exact execDoubleLoss_next w lane s
  | writeWm w => exact ⟨_, rfl, State.pending_onUp ..⟩
  | tapWm w => exact ⟨_, rfl, State.pending_onUp ..⟩
  | drainWm w => exact ⟨_, rfl, State.pending_onUp ..⟩
  | orderAccess w => exact ⟨_, rfl, State.pending_onUp ..⟩
  | orderSweep w => exact ⟨_, rfl, State.pending_onUp ..⟩
  | orderVictim w => exact ⟨_, rfl, State.pending_onUp ..⟩
  | orderHandoff w => exact ⟨_, rfl, State.pending_onUp ..⟩
  | recAlias w => exact ⟨_, rfl, State.pending_onUp ..⟩
  | recLog w => exact ⟨_, rfl, State.pending_onUp ..⟩
  | recEffect w => exact ⟨_, rfl, State.pending_onUp ..⟩
  | recApplied w => exact ⟨_, rfl, State.pending_onUp ..⟩
  | recHold w => exact ⟨_, rfl, State.pending_onUp ..⟩
  | holdRelease w => exact ⟨_, rfl, State.pending_onUp ..⟩
  | gatedEffectApply => exact ⟨_, rfl, State.pending_mapBoth ..⟩
  | extentCopyApply => exact execExtentCopyApply_next s
  | extentCopyDone extent => exact execExtentCopyDone_next extent s
  | cxkTrainingDone w locked delayNs authentic => exact execCxkTrainingDone_next w locked delayNs authentic s
  | cxkTrainingRetry w => exact ⟨_, rfl, State.pending_onUp ..⟩
  | laneLockLoss w lane => exact execLaneLockLoss_next w lane s
  | laneSwap w lane spare => exact ⟨_, rfl, State.pending_onUp ..⟩
  | rekey w => exact ⟨_, rfl, State.pending_onUp ..⟩
  | peerCheck w pulse => exact ⟨_, rfl, State.pending_onUp ..⟩
  | linkDownTimeout w => exact ⟨_, rfl, State.pending_onUp ..⟩
  | isolateLimitExpiry w => exact ⟨_, rfl, State.pending_onUp ..⟩
  | ownInFall w p => exact execOwnInFall_next w p s
  | ownInRise w p => exact execOwnInRise_next w p s
  | twinDeadNFall w => exact execTwinDeadNFall_next w s
  | guardMet w p => exact ⟨_, rfl, State.pending_onUp ..⟩
  | takeoverLinkL0 w h ns => exact ⟨_, rfl, State.pending_onUp ..⟩
  | failstopNow w rq => exact ⟨_, rfl, State.pending_onUp ..⟩
  | fenceInFall w => exact execFenceInFall_next w s
  | fenceInRise w => exact execFenceInRise_next w s
  | fenceRelease w rq => exact ⟨_, rfl, State.pending_onUp ..⟩
  | handoverRetry p => exact execHandoverRetry_next p s
  | takeoverDrill rq => exact execTakeoverDrill_next rq s
  | drillReturn => exact execDrillReturn_next s
  | countersignMismatch w dpa carbonStable homeStable carbonData homeData => exact execCountersignMismatch_next w dpa carbonStable homeStable carbonData homeData s
  | repairRequest w dpa => exact ⟨_, rfl, State.pending_onUp ..⟩
  | resyncConfigDone => exact execResyncConfigDone_next s
  | resyncFrontDone => exact execResyncFrontDone_next s
  | resyncBackDone => exact execResyncBackDone_next s
  | resyncFinish => exact execResyncFinish_next s
  | resyncCapacityRefuse => exact execResyncCapacityRefuse_next s
  | speakerEndpointStarted w => exact ⟨_, rfl, State.pending_onUp ..⟩
  | soloWaitExpiry w pulseEdge => exact execSoloWaitExpiry_next w pulseEdge s
  | forceAlone w rq => exact execForceAlone_next w rq s
  | snoopTimeout h line => exact ⟨_, rfl, State.pending_mapBoth ..⟩
  | shadowMigrationDone w d => exact ⟨_, rfl, State.pending_onUp ..⟩
  | domainWrite w rq d reg data => exact execDomainWrite_next w rq d reg data s
  | copyStepDone w parcel => exact ⟨_, rfl, State.pending_onUp ..⟩
  | packStepDone w parcel drained => exact ⟨_, rfl, State.pending_onUp ..⟩
  | frameFree w frame => exact ⟨_, rfl, State.pending_onUp ..⟩
  | frameZeroDone w frame => exact ⟨_, rfl, State.pending_onUp ..⟩
  | fillRangeDone w range => exact ⟨_, rfl, State.pending_onUp ..⟩
  | translationFill w h line => exact ⟨_, rfl, State.pending_onUp ..⟩
  | mdcFillArrival w line => exact ⟨_, rfl, State.pending_onUp ..⟩
  | mdcInvalidationDone w => exact ⟨_, rfl, State.pending_onUp ..⟩
  | mdcClean w rq => exact ⟨_, rfl, State.pending_onUp ..⟩
  | mdcInvalidate w rq => exact ⟨_, rfl, State.pending_onUp ..⟩
  | mdcCleanInvalidate w rq => exact ⟨_, rfl, State.pending_onUp ..⟩
  | mdcLock w rq => exact ⟨_, rfl, State.pending_onUp ..⟩
  | mdcUnlock w rq => exact ⟨_, rfl, State.pending_onUp ..⟩
  | mdcOpDone w => exact ⟨_, rfl, State.pending_onUp ..⟩
  | wayDisableDone w way => exact ⟨_, rfl, State.pending_onUp ..⟩
  | arrayReadDone w parcel x => exact ⟨_, rfl, State.pending_onUp ..⟩
  | directReadTimeout w parcel => exact ⟨_, rfl, State.pending_onUp ..⟩
  | programDone w row col pass => exact ⟨_, rfl, State.pending_onUp ..⟩
  | eraseDone w row col pass => exact ⟨_, rfl, State.pending_onUp ..⟩
  | lunStatusTimeout w col pos => exact ⟨_, rfl, State.pending_onUp ..⟩
  | nandZqCalibration w => exact ⟨s, rfl, rfl⟩
  | patchAgeExpiry w parcel => exact ⟨_, rfl, State.pending_onUp ..⟩
  | offlineReq w rq m => exact ⟨_, rfl, State.pending_onUp ..⟩
  | onlineReq w rq m => exact ⟨_, rfl, State.pending_onUp ..⟩
  | moduleSafe w m => exact ⟨_, rfl, State.pending_onUp ..⟩
  | modulePresenceChange w m present => exact ⟨_, rfl, State.pending_mapChip ..⟩
  | channelFailed w c => exact ⟨_, rfl, State.pending_onUp ..⟩
  | modulePrepareDone w m ok => exact ⟨_, rfl, State.pending_onUp ..⟩
  | rebuildDone w m => exact execRebuildDone_next w m s
  | formatDone w x => exact ⟨_, rfl, State.pending_onUp ..⟩
  | pfailNFall w => exact ⟨_, rfl, State.pending_mapChip ..⟩
  | pfailCommit w => exact ⟨_, rfl, State.pending_mapChip ..⟩
  | pfailNRise w => exact ⟨_, rfl, State.pending_mapChip ..⟩
  | saveDecision w => exact ⟨_, rfl, State.pending_onUp ..⟩
  | lonePfail w => exact ⟨_, rfl, State.pending_onUp ..⟩
  | graceExpiry w => exact ⟨_, rfl, State.pending_onUp ..⟩
  | saveSealed w x => exact ⟨_, rfl, State.pending_onUp ..⟩
  | saveFailed w => exact ⟨_, rfl, State.pending_onUp ..⟩
  | calibrationDone w rate tprogUs fixedUs ms => exact ⟨_, rfl, State.pending_onUp ..⟩
  | sealReadDone w copies bad => exact ⟨_, rfl, State.pending_onUp ..⟩
  | sourceChoice w => exact execSourceChoice_next w s
  | metadataLoadDone w => exact ⟨_, rfl, State.pending_onUp ..⟩
  | restoreLoadDone w => exact ⟨_, rfl, State.pending_onUp ..⟩
  | checkpointCommit w => exact ⟨_, rfl, State.pending_onUp ..⟩
  | memoryActive => exact execMemoryActive_next s
  | refreshInterval w c ranks => exact ⟨_, rfl, State.pending_onUp ..⟩
  | refsbIssue w c r k => exact ⟨_, rfl, State.pending_onUp ..⟩
  | refreshDone w c r => exact ⟨_, rfl, State.pending_onUp ..⟩
  | mr4Poll w c twoX => exact ⟨_, rfl, State.pending_onUp ..⟩
  | dramTrainingDone w x => exact ⟨_, rfl, State.pending_onUp ..⟩
  | driftCheck w c r ps => exact ⟨_, rfl, State.pending_onUp ..⟩
  | dramZqStart w c r => exact ⟨_, rfl, State.pending_onUp ..⟩
  | dramZqLatch w c r => exact ⟨_, rfl, State.pending_onUp ..⟩
  | retrainDone w c r ok rdEye wrEye => exact ⟨_, rfl, State.pending_onUp ..⟩
  | srIdleExpiry w c => exact ⟨_, rfl, State.pending_onUp ..⟩
  | srExitDone w c ns => exact ⟨_, rfl, State.pending_onUp ..⟩
  | pprGo w rq c => exact ⟨_, rfl, State.pending_onUp ..⟩
  | pprCopyDone w c => exact ⟨_, rfl, State.pending_onUp ..⟩
  | pprProgramDone w c err => exact ⟨_, rfl, State.pending_onUp ..⟩
  | pprDone w c => exact ⟨_, rfl, State.pending_onUp ..⟩
  | alertN w c => exact ⟨_, rfl, State.pending_onUp ..⟩
  | patrolWake w c => exact ⟨_, rfl, State.pending_onUp ..⟩
  | cblWindowEnd w => exact ⟨_, rfl, State.pending_onUp ..⟩
  | dirBankMigrateDone w bank => exact ⟨_, rfl, State.pending_onUp ..⟩
  | coreSpareSwap w n => exact ⟨_, rfl, State.pending_onUp ..⟩
  | interruptArrival w src level => exact ⟨_, rfl, State.pending_onUp ..⟩
  | coalTimer w g => exact ⟨_, rfl, State.pending_onUp ..⟩
  | fastEntry w n pc machine => exact ⟨_, rfl, State.pending_onUp ..⟩
  | coreFret w n => exact ⟨_, rfl, State.pending_onUp ..⟩
  | icuClaim w rq n => exact ⟨_, rfl, State.pending_onUp ..⟩
  | icuComplete w rq n src => exact ⟨_, rfl, State.pending_onUp ..⟩
  | icuSwi w rq bits => exact ⟨_, rfl, State.pending_onUp ..⟩
  | sourceDisable w rq src => exact execSourceDisable_next w rq src s
  | targetChange w rq src target => exact ⟨_, rfl, State.pending_onUp ..⟩
  | coreWfi w n => exact ⟨_, rfl, State.pending_onUp ..⟩
  | coreMtip w n => exact ⟨_, rfl, State.pending_onUp ..⟩
  | lrScAmo w n op addr rd data wide => exact ⟨_, rfl, State.pending_onUp ..⟩
  | dcflush w n addr => exact ⟨_, rfl, State.pending_onUp ..⟩
  | efcProgram w rq fetched => exact ⟨_, rfl, State.pending_onUp ..⟩
  | efcErase w rq fetched => exact ⟨_, rfl, State.pending_onUp ..⟩
  | ptrSwap w rq fetched => exact ⟨_, rfl, State.pending_onUp ..⟩
  | efcPulseDone w firstBad deferUs => exact ⟨_, rfl, State.pending_onUp ..⟩
  | activeLock w rq => exact ⟨_, rfl, State.pending_onUp ..⟩
  | kickChip w rq first second inTime => exact ⟨_, rfl, State.pending_onUp ..⟩
  | kickCore w rq first second inTime => exact ⟨_, rfl, State.pending_onUp ..⟩
  | chipWatchdogExpiry w => exact ⟨_, rfl, State.pending_onUp ..⟩
  | coreWatchdogWarn w n => exact ⟨_, rfl, State.pending_onUp ..⟩
  | coreWatchdogReset w n => exact ⟨_, rfl, State.pending_onUp ..⟩
  | wdtLockSet w rq => exact ⟨_, rfl, State.pending_onUp ..⟩
  | pgChange w idx high => exact ⟨_, rfl, State.pending_mapChip ..⟩
  | psqDelayExpiry w => exact ⟨_, rfl, State.pending_mapChip ..⟩
  | psqTimeout w => exact ⟨_, rfl, State.pending_mapChip ..⟩
  | seqSyncCommit w => exact ⟨_, rfl, State.pending_mapChip ..⟩
  | syncTimeout w => exact ⟨_, rfl, State.pending_mapChip ..⟩
  | seqInFall w => exact ⟨_, rfl, State.pending_mapChip ..⟩
  | upSequenceStart w => exact ⟨_, rfl, State.pending_mapChip ..⟩
  | offMinExpiry w => exact ⟨_, rfl, State.pending_mapChip ..⟩
  | railFault w idx => exact ⟨_, rfl, State.pending_mapChip ..⟩
  | faultShutExpiry w => exact ⟨_, rfl, State.pending_mapChip ..⟩
  | storeCommit w rq => exact ⟨_, rfl, State.pending_onUp ..⟩
  | marginWrite w rq k steps => exact ⟨_, rfl, State.pending_onUp ..⟩
  | throttleStep w => exact ⟨_, rfl, State.pending_onUp ..⟩
  | thermalTrip w => exact ⟨_, rfl, State.pending_onUp ..⟩
  | avsPeriod w cpm => exact ⟨_, rfl, State.pending_onUp ..⟩
  | cpmAlarm w cpm => exact ⟨_, rfl, State.pending_onUp ..⟩
  | avsbusFrameDone w x => exact ⟨_, rfl, State.pending_onUp ..⟩
  | avsTelemetryPoll w => exact ⟨_, rfl, State.pending_onUp ..⟩
  | fclkStepChange w => exact ⟨_, rfl, State.pending_onUp ..⟩
  | smbBlockWrite w bytes pec => exact ⟨_, rfl, State.pending_onUp ..⟩
  | smbBlockRead w whole => exact ⟨_, rfl, State.pending_onUp ..⟩
  | smbReadByteStatus w => exact ⟨_, rfl, State.pending_onUp ..⟩
  | alertResponseAddress w => exact ⟨_, rfl, State.pending_onUp ..⟩
  | smbStartStop w => exact ⟨_, rfl, State.pending_onUp ..⟩
  | smbClockLowTimeout w => exact ⟨_, rfl, State.pending_onUp ..⟩
  | smbDataLowTimeout w => exact ⟨_, rfl, State.pending_onUp ..⟩
  | mctpControl w command => exact ⟨_, rfl, State.pending_onUp ..⟩
  | fmApiCommand w opcode => exact execFmApiCommand_next w opcode s
  | pageRead w x => exact execPageRead_next w x s
  | pageWrite w x => exact execPageWrite_next w x s
  | alwaysOnPowerUp w x => exact ⟨_, rfl, State.pending_mapChip ..⟩
  | powerOnReset w x => exact execPowerOnReset_next w x s
  | resetNAssert w => exact ⟨_, rfl, State.pending_mapChip ..⟩
  | resetNRelease w x => exact execResetNRelease_next w x s
  | warmGo w rq x => exact execWarmGo_next w rq x s
  | svnAdvance w rq => exact ⟨_, rfl, State.pending_onUp ..⟩
  | ownerProg w rq => exact ⟨_, rfl, State.pending_onUp ..⟩
  | eraseReq rq d => exact execEraseReq_next rq d s
  | cryptoEraseDone w d => exact execCryptoEraseDone_next w d s
  | closeGo w rq => exact ⟨_, rfl, State.pending_onUp ..⟩
  | testLogicReset w => exact ⟨_, rfl, State.pending_mapChip ..⟩
  | tapExtest w => exact ⟨_, rfl, State.pending_mapChip ..⟩
  | samplePreload w => exact ⟨_, rfl, State.pending_mapChip ..⟩
  | tapIdcode w => exact ⟨_, rfl, State.pending_mapChip ..⟩
  | tapClamp w => exact ⟨_, rfl, State.pending_mapChip ..⟩
  | tapHighz w => exact ⟨_, rfl, State.pending_mapChip ..⟩
  | extestPulse w => exact ⟨_, rfl, State.pending_mapChip ..⟩
  | extestTrain w => exact ⟨_, rfl, State.pending_mapChip ..⟩
  | tapDmi w => exact ⟨_, rfl, State.pending_mapChip ..⟩
  | tapSysbus w x => exact execTapSysbus_next w x s
  | tapOverride w own dead fence => exact ⟨_, rfl, State.pending_mapChip ..⟩
  | tapBypass w code => exact ⟨_, rfl, State.pending_mapChip ..⟩
  | clockLockLoss w => exact ⟨_, rfl, State.pending_onUp ..⟩
  | linkLeftL0 h dest ns => exact execLinkLeftL0_next h dest ns s
  | twinDeadNRise w => exact execTwinDeadNRise_next w s
  | carbonLaneFlit w h hostAck decoded => exact ⟨_, rfl, State.pending_onUp ..⟩
/-- Every command keeps every memory of the pair canonical. -/
theorem exec_keeps_memWf (i : Instr) {s out : State} (hw : s.memWf = true) (hx : exec i s = .next out) : out.memWf = true := by
  cases i with
  | roundBoundary w x => exact execRoundBoundary_wf w x s hw hx
  | deliveryBoundary w => exact execDeliveryBoundary_wf w s hw hx
  | jobAllowanceReached w late => exact execJobAllowanceReached_wf w late s hw hx
  | endMark w late => exact execEndMark_wf w late s hw hx
  | starvePromote w => exact execStarvePromote_wf w s hw hx
  | holdupRise w => exact execHoldupRise_wf w s hw hx
  | registerWrite w rq x => exact execRegisterWrite_wf w rq x s hw hx
  | pageEnable w rq page => exact execPageEnable_wf w rq page s hw hx
  | pageDisable w rq page => exact execPageDisable_wf w rq page s hw hx
  | pageQuiesce w rq page => exact execPageQuiesce_wf w rq page s hw hx
  | pageUnquiesce w rq page => exact execPageUnquiesce_wf w rq page s hw hx
  | softReset w rq page => exact execSoftReset_wf w rq page s hw hx
  | freezeCfg w rq page => exact execFreezeCfg_wf w rq page s hw hx
  | pageCheckDone w page => exact execPageCheckDone_wf w page s hw hx
  | pageDrained w page => exact execPageDrained_wf w page s hw hx
  | pageFault w page => exact execPageFault_wf w page s hw hx
  | evtStatusClear w rq page bits again => exact execEvtStatusClear_wf w rq page bits again s hw hx
  | evtForce w rq page bits => exact execEvtForce_wf w rq page bits s hw hx
  | evtEnableWrite w rq page bits => exact execEvtEnableWrite_wf w rq page bits s hw hx
  | peerPageRead w rq page off size => exact execPeerPageRead_wf w rq page off size s hw hx
  | peerPageWrite w rq x => exact execPeerPageWrite_wf w rq x s hw hx
  | pairAliasWrite w rq x => exact execPairAliasWrite_wf w rq x s hw hx
  | aliasWriteApply => exact execAliasWriteApply_wf s hw hx
  | linkTrained h t => exact execLinkTrained_wf h t s hw hx
  | linkDegradeRetry h => exact execLinkDegradeRetry_wf h s hw hx
  | decoderCommit h n => exact execDecoderCommit_wf h n s hw hx
  | cxlIoConfigWrite h x => exact execCxlIoConfigWrite_wf h x s hw hx
  | memRd r v => exact execMemRd_wf r v s hw hx
  | memRdData r v => exact execMemRdData_wf r v s hw hx
  | memInv r v => exact execMemInv_wf r v s hw hx
  | memInvNt r v => exact execMemInvNt_wf r v s hw hx
  | memSpecRd r room => exact execMemSpecRd_wf r room s hw hx
  | memWr r v => exact execMemWr_wf r v s hw hx
  | memWrPtl r v => exact execMemWrPtl_wf r v s hw hx
  | birspI h line => exact execBirspI_wf h line s hw hx
  | birspS h line => exact execBirspS_wf h line s hw hx
  | birspE h line => exact execBirspE_wf h line s hw hx
  | biConflict h line => exact execBiConflict_wf h line s hw hx
  | requestAdmit h write => exact execRequestAdmit_wf h write s hw hx
  | dramReadDone w line outcome device => exact execDramReadDone_wf w line outcome device s hw hx
  | doeDiscovery h index => exact execDoeDiscovery_wf h index s hw hx
  | cdatTableAccess h entry => exact execCdatTableAccess_wf h entry s hw hx
  | spdmGetVersion h => exact execSpdmGetVersion_wf h s hw hx
  | spdmGetCapabilities h => exact execSpdmGetCapabilities_wf h s hw hx
  | spdmNegotiateAlgorithms h => exact execSpdmNegotiateAlgorithms_wf h s hw hx
  | spdmGetDigests h => exact execSpdmGetDigests_wf h s hw hx
  | spdmGetCertificate h slot off len => exact execSpdmGetCertificate_wf h slot off len s hw hx
  | spdmChallenge h slot => exact execSpdmChallenge_wf h slot s hw hx
  | spdmGetMeasurements h index => exact execSpdmGetMeasurements_wf h index s hw hx
  | spdmKeyExchange h => exact execSpdmKeyExchange_wf h s hw hx
  | spdmFinish h id => exact execSpdmFinish_wf h id s hw hx
  | spdmHeartbeat h id => exact execSpdmHeartbeat_wf h id s hw hx
  | spdmKeyUpdate h id => exact execSpdmKeyUpdate_wf h id s hw hx
  | spdmEndSession h id => exact execSpdmEndSession_wf h id s hw hx
  | spdmSetCertificate h slot bytes => exact execSpdmSetCertificate_wf h slot bytes s hw hx
  | kSetGo h set => exact execKSetGo_wf h set s hw hx
  | getEventRecords h log => exact execGetEventRecords_wf h log s hw hx
  | clearEventRecords h log all handles => exact execClearEventRecords_wf h log all handles s hw hx
  | getEventInterruptPolicy h => exact execGetEventInterruptPolicy_wf h s hw hx
  | setEventInterruptPolicy h log mode => exact execSetEventInterruptPolicy_wf h log mode s hw hx
  | getFwInfo h => exact execGetFwInfo_wf h s hw hx
  | transferFw h off bytes => exact execTransferFw_wf h off bytes s hw hx
  | activateFw h slot => exact execActivateFw_wf h slot s hw hx
  | getTimestamp h => exact execGetTimestamp_wf h s hw hx
  | setTimestamp h ns => exact execSetTimestamp_wf h ns s hw hx
  | getSupportedLogs h => exact execGetSupportedLogs_wf h s hw hx
  | getLog h log off len => exact execGetLog_wf h log off len s hw hx
  | identifyMemoryDevice h => exact execIdentifyMemoryDevice_wf h s hw hx
  | getPartitionInfo h => exact execGetPartitionInfo_wf h s hw hx
  | getLsa h off len => exact execGetLsa_wf h off len s hw hx
  | setLsa h off bytes => exact execSetLsa_wf h off bytes s hw hx
  | getHealthInfo h => exact execGetHealthInfo_wf h s hw hx
  | getAlertConfiguration h => exact execGetAlertConfiguration_wf h s hw hx
  | setAlertConfiguration h bytes => exact execSetAlertConfiguration_wf h bytes s hw hx
  | getShutdownState h => exact execGetShutdownState_wf h s hw hx
  | setShutdownState h dirty => exact execSetShutdownState_wf h dirty s hw hx
  | getPoisonList h dpa lines => exact execGetPoisonList_wf h dpa lines s hw hx
  | injectPoison h dpa => exact execInjectPoison_wf h dpa s hw hx
  | clearPoison h dpa data => exact execClearPoison_wf h dpa data s hw hx
  | getScanMediaCapabilities h dpa lines => exact execGetScanMediaCapabilities_wf h dpa lines s hw hx
  | scanMedia h dpa lines => exact execScanMedia_wf h dpa lines s hw hx
  | getScanMediaResults h => exact execGetScanMediaResults_wf h s hw hx
  | sanitize h => exact execSanitize_wf h s hw hx
  | secureErase h => exact execSecureErase_wf h s hw hx
  | getPairInfo h => exact execGetPairInfo_wf h s hw hx
  | getDirtyBudget h => exact execGetDirtyBudget_wf h s hw hx
  | getDeadLetters h first => exact execGetDeadLetters_wf h first s hw hx
  | startDrill h port => exact execStartDrill_wf h port s hw hx
  | mailboxBackgroundDone => exact execMailboxBackgroundDone_wf s hw hx
  | msixModeratorFire h v timer => exact execMsixModeratorFire_wf h v timer s hw hx
  | d0Entry h => exact execD0Entry_wf h s hw hx
  | gpfPhase1 h => exact execGpfPhase1_wf h s hw hx
  | gpfPhase2 h => exact execGpfPhase2_wf h s hw hx
  | gpfPhase2Done h => exact execGpfPhase2Done_wf h s hw hx
  | hotReset h => exact execHotReset_wf h s hw hx
  | secondaryBusReset h => exact execSecondaryBusReset_wf h s hw hx
  | headFlr h => exact execHeadFlr_wf h s hw hx
  | cxlReset h => exact execCxlReset_wf h s hw hx
  | perstAssert p => exact execPerstAssert_wf p s hw hx
  | perstDeassert p => exact execPerstDeassert_wf p s hw hx
  | carbonAcquired w h ns => exact execCarbonAcquired_wf w h ns s hw hx
  | acqLimitExpiry w h => exact execAcqLimitExpiry_wf w h s hw hx
  | lostRetry w h => exact execLostRetry_wf w h s hw hx
  | trackLost w h => exact execTrackLost_wf w h s hw hx
  | flitFetch w h dir flit => exact execFlitFetch_wf w h dir flit s hw hx
  | drainEligible w line => exact execDrainEligible_wf w line s hw hx
  | drainIssue w x => exact execDrainIssue_wf w x s hw hx
  | drainAccepted w line merge => exact execDrainAccepted_wf w line merge s hw hx
  | localStall w p => exact execLocalStall_wf w p s hw hx
  | ringEnableApply q => exact execRingEnableApply_wf q s hw hx
  | ringDisableApply q => exact execRingDisableApply_wf q s hw hx
  | cmdTail w rq throughAlias q v => exact execCmdTail_wf w rq throughAlias q v s hw hx
  | cmpHead w rq throughAlias q v => exact execCmpHead_wf w rq throughAlias q v s hw hx
  | postBoxCommandStart q => exact execPostBoxCommandStart_wf q s hw hx
  | completionWrite q => exact execCompletionWrite_wf q s hw hx
  | ringNop q idx => exact execRingNop_wf q idx s hw hx
  | ringRound q idx => exact execRingRound_wf q idx s hw hx
  | objRegister q idx => exact execObjRegister_wf q idx s hw hx
  | objRemove q idx => exact execObjRemove_wf q idx s hw hx
  | objSetPolicy q idx => exact execObjSetPolicy_wf q idx s hw hx
  | objQuery q idx => exact execObjQuery_wf q idx s hw hx
  | extentPromote q idx => exact execExtentPromote_wf q idx s hw hx
  | extentEvict q idx => exact execExtentEvict_wf q idx s hw hx
  | extentDiscard q idx => exact execExtentDiscard_wf q idx s hw hx
  | poolQuery q idx => exact execPoolQuery_wf q idx s hw hx
  | routeLoad q idx => exact execRouteLoad_wf q idx s hw hx
  | routeStart q idx => exact execRouteStart_wf q idx s hw hx
  | routeSeek q idx => exact execRouteSeek_wf q idx s hw hx
  | routeStop q idx => exact execRouteStop_wf q idx s hw hx
  | routeUnload q idx => exact execRouteUnload_wf q idx s hw hx
  | routeQuery q idx => exact execRouteQuery_wf q idx s hw hx
  | listBlockReadDone w slot block => exact execListBlockReadDone_wf w slot block s hw hx
  | retireDramRow q idx => exact execRetireDramRow_wf q idx s hw hx
  | retireFrame q idx => exact execRetireFrame_wf q idx s hw hx
  | retireParcel q idx => exact execRetireParcel_wf q idx s hw hx
  | ledgerQuery q idx => exact execLedgerQuery_wf q idx s hw hx
  | envFill w => exact execEnvFill_wf w s hw hx
  | envFrame w => exact execEnvFrame_wf w s hw hx
  | envPostmark w => exact execEnvPostmark_wf w s hw hx
  | envFetch w => exact execEnvFetch_wf w s hw hx
  | envRepair w outcome => exact execEnvRepair_wf w outcome s hw hx
  | envBridge w => exact execEnvBridge_wf w s hw hx
  | envAccess w => exact execEnvAccess_wf w s hw hx
  | envEvent w => exact execEnvEvent_wf w s hw hx
  | envControl w => exact execEnvControl_wf w s hw hx
  | envResync w => exact execEnvResync_wf w s hw hx
  | envelopeReject w badTag => exact execEnvelopeReject_wf w badTag s hw hx
  | authFail w => exact execAuthFail_wf w s hw hx
  | doubleLoss w lane => exact execDoubleLoss_wf w lane s hw hx
  | writeWm w => exact execWriteWm_wf w s hw hx
  | tapWm w => exact execTapWm_wf w s hw hx
  | drainWm w => exact execDrainWm_wf w s hw hx
  | orderAccess w => exact execOrderAccess_wf w s hw hx
  | orderSweep w => exact execOrderSweep_wf w s hw hx
  | orderVictim w => exact execOrderVictim_wf w s hw hx
  | orderHandoff w => exact execOrderHandoff_wf w s hw hx
  | recAlias w => exact execRecAlias_wf w s hw hx
  | recLog w => exact execRecLog_wf w s hw hx
  | recEffect w => exact execRecEffect_wf w s hw hx
  | recApplied w => exact execRecApplied_wf w s hw hx
  | recHold w => exact execRecHold_wf w s hw hx
  | holdRelease w => exact execHoldRelease_wf w s hw hx
  | gatedEffectApply => exact execGatedEffectApply_wf s hw hx
  | extentCopyApply => exact execExtentCopyApply_wf s hw hx
  | extentCopyDone extent => exact execExtentCopyDone_wf extent s hw hx
  | cxkTrainingDone w locked delayNs authentic => exact execCxkTrainingDone_wf w locked delayNs authentic s hw hx
  | cxkTrainingRetry w => exact execCxkTrainingRetry_wf w s hw hx
  | laneLockLoss w lane => exact execLaneLockLoss_wf w lane s hw hx
  | laneSwap w lane spare => exact execLaneSwap_wf w lane spare s hw hx
  | rekey w => exact execRekey_wf w s hw hx
  | peerCheck w pulse => exact execPeerCheck_wf w pulse s hw hx
  | linkDownTimeout w => exact execLinkDownTimeout_wf w s hw hx
  | isolateLimitExpiry w => exact execIsolateLimitExpiry_wf w s hw hx
  | ownInFall w p => exact execOwnInFall_wf w p s hw hx
  | ownInRise w p => exact execOwnInRise_wf w p s hw hx
  | twinDeadNFall w => exact execTwinDeadNFall_wf w s hw hx
  | guardMet w p => exact execGuardMet_wf w p s hw hx
  | takeoverLinkL0 w h ns => exact execTakeoverLinkL0_wf w h ns s hw hx
  | failstopNow w rq => exact execFailstopNow_wf w rq s hw hx
  | fenceInFall w => exact execFenceInFall_wf w s hw hx
  | fenceInRise w => exact execFenceInRise_wf w s hw hx
  | fenceRelease w rq => exact execFenceRelease_wf w rq s hw hx
  | handoverRetry p => exact execHandoverRetry_wf p s hw hx
  | takeoverDrill rq => exact execTakeoverDrill_wf rq s hw hx
  | drillReturn => exact execDrillReturn_wf s hw hx
  | countersignMismatch w dpa carbonStable homeStable carbonData homeData => exact execCountersignMismatch_wf w dpa carbonStable homeStable carbonData homeData s hw hx
  | repairRequest w dpa => exact execRepairRequest_wf w dpa s hw hx
  | resyncConfigDone => exact execResyncConfigDone_wf s hw hx
  | resyncFrontDone => exact execResyncFrontDone_wf s hw hx
  | resyncBackDone => exact execResyncBackDone_wf s hw hx
  | resyncFinish => exact execResyncFinish_wf s hw hx
  | resyncCapacityRefuse => exact execResyncCapacityRefuse_wf s hw hx
  | speakerEndpointStarted w => exact execSpeakerEndpointStarted_wf w s hw hx
  | soloWaitExpiry w pulseEdge => exact execSoloWaitExpiry_wf w pulseEdge s hw hx
  | forceAlone w rq => exact execForceAlone_wf w rq s hw hx
  | snoopTimeout h line => exact execSnoopTimeout_wf h line s hw hx
  | shadowMigrationDone w d => exact execShadowMigrationDone_wf w d s hw hx
  | domainWrite w rq d reg data => exact execDomainWrite_wf w rq d reg data s hw hx
  | copyStepDone w parcel => exact execCopyStepDone_wf w parcel s hw hx
  | packStepDone w parcel drained => exact execPackStepDone_wf w parcel drained s hw hx
  | frameFree w frame => exact execFrameFree_wf w frame s hw hx
  | frameZeroDone w frame => exact execFrameZeroDone_wf w frame s hw hx
  | fillRangeDone w range => exact execFillRangeDone_wf w range s hw hx
  | translationFill w h line => exact execTranslationFill_wf w h line s hw hx
  | mdcFillArrival w line => exact execMdcFillArrival_wf w line s hw hx
  | mdcInvalidationDone w => exact execMdcInvalidationDone_wf w s hw hx
  | mdcClean w rq => exact execMdcClean_wf w rq s hw hx
  | mdcInvalidate w rq => exact execMdcInvalidate_wf w rq s hw hx
  | mdcCleanInvalidate w rq => exact execMdcCleanInvalidate_wf w rq s hw hx
  | mdcLock w rq => exact execMdcLock_wf w rq s hw hx
  | mdcUnlock w rq => exact execMdcUnlock_wf w rq s hw hx
  | mdcOpDone w => exact execMdcOpDone_wf w s hw hx
  | wayDisableDone w way => exact execWayDisableDone_wf w way s hw hx
  | arrayReadDone w parcel x => exact execArrayReadDone_wf w parcel x s hw hx
  | directReadTimeout w parcel => exact execDirectReadTimeout_wf w parcel s hw hx
  | programDone w row col pass => exact execProgramDone_wf w row col pass s hw hx
  | eraseDone w row col pass => exact execEraseDone_wf w row col pass s hw hx
  | lunStatusTimeout w col pos => exact execLunStatusTimeout_wf w col pos s hw hx
  | nandZqCalibration w => exact execNandZqCalibration_wf w s hw hx
  | patchAgeExpiry w parcel => exact execPatchAgeExpiry_wf w parcel s hw hx
  | offlineReq w rq m => exact execOfflineReq_wf w rq m s hw hx
  | onlineReq w rq m => exact execOnlineReq_wf w rq m s hw hx
  | moduleSafe w m => exact execModuleSafe_wf w m s hw hx
  | modulePresenceChange w m present => exact execModulePresenceChange_wf w m present s hw hx
  | channelFailed w c => exact execChannelFailed_wf w c s hw hx
  | modulePrepareDone w m ok => exact execModulePrepareDone_wf w m ok s hw hx
  | rebuildDone w m => exact execRebuildDone_wf w m s hw hx
  | formatDone w x => exact execFormatDone_wf w x s hw hx
  | pfailNFall w => exact execPfailNFall_wf w s hw hx
  | pfailCommit w => exact execPfailCommit_wf w s hw hx
  | pfailNRise w => exact execPfailNRise_wf w s hw hx
  | saveDecision w => exact execSaveDecision_wf w s hw hx
  | lonePfail w => exact execLonePfail_wf w s hw hx
  | graceExpiry w => exact execGraceExpiry_wf w s hw hx
  | saveSealed w x => exact execSaveSealed_wf w x s hw hx
  | saveFailed w => exact execSaveFailed_wf w s hw hx
  | calibrationDone w rate tprogUs fixedUs ms => exact execCalibrationDone_wf w rate tprogUs fixedUs ms s hw hx
  | sealReadDone w copies bad => exact execSealReadDone_wf w copies bad s hw hx
  | sourceChoice w => exact execSourceChoice_wf w s hw hx
  | metadataLoadDone w => exact execMetadataLoadDone_wf w s hw hx
  | restoreLoadDone w => exact execRestoreLoadDone_wf w s hw hx
  | checkpointCommit w => exact execCheckpointCommit_wf w s hw hx
  | memoryActive => exact execMemoryActive_wf s hw hx
  | refreshInterval w c ranks => exact execRefreshInterval_wf w c ranks s hw hx
  | refsbIssue w c r k => exact execRefsbIssue_wf w c r k s hw hx
  | refreshDone w c r => exact execRefreshDone_wf w c r s hw hx
  | mr4Poll w c twoX => exact execMr4Poll_wf w c twoX s hw hx
  | dramTrainingDone w x => exact execDramTrainingDone_wf w x s hw hx
  | driftCheck w c r ps => exact execDriftCheck_wf w c r ps s hw hx
  | dramZqStart w c r => exact execDramZqStart_wf w c r s hw hx
  | dramZqLatch w c r => exact execDramZqLatch_wf w c r s hw hx
  | retrainDone w c r ok rdEye wrEye => exact execRetrainDone_wf w c r ok rdEye wrEye s hw hx
  | srIdleExpiry w c => exact execSrIdleExpiry_wf w c s hw hx
  | srExitDone w c ns => exact execSrExitDone_wf w c ns s hw hx
  | pprGo w rq c => exact execPprGo_wf w rq c s hw hx
  | pprCopyDone w c => exact execPprCopyDone_wf w c s hw hx
  | pprProgramDone w c err => exact execPprProgramDone_wf w c err s hw hx
  | pprDone w c => exact execPprDone_wf w c s hw hx
  | alertN w c => exact execAlertN_wf w c s hw hx
  | patrolWake w c => exact execPatrolWake_wf w c s hw hx
  | cblWindowEnd w => exact execCblWindowEnd_wf w s hw hx
  | dirBankMigrateDone w bank => exact execDirBankMigrateDone_wf w bank s hw hx
  | coreSpareSwap w n => exact execCoreSpareSwap_wf w n s hw hx
  | interruptArrival w src level => exact execInterruptArrival_wf w src level s hw hx
  | coalTimer w g => exact execCoalTimer_wf w g s hw hx
  | fastEntry w n pc machine => exact execFastEntry_wf w n pc machine s hw hx
  | coreFret w n => exact execCoreFret_wf w n s hw hx
  | icuClaim w rq n => exact execIcuClaim_wf w rq n s hw hx
  | icuComplete w rq n src => exact execIcuComplete_wf w rq n src s hw hx
  | icuSwi w rq bits => exact execIcuSwi_wf w rq bits s hw hx
  | sourceDisable w rq src => exact execSourceDisable_wf w rq src s hw hx
  | targetChange w rq src target => exact execTargetChange_wf w rq src target s hw hx
  | coreWfi w n => exact execCoreWfi_wf w n s hw hx
  | coreMtip w n => exact execCoreMtip_wf w n s hw hx
  | lrScAmo w n op addr rd data wide => exact execLrScAmo_wf w n op addr rd data wide s hw hx
  | dcflush w n addr => exact execDcflush_wf w n addr s hw hx
  | efcProgram w rq fetched => exact execEfcProgram_wf w rq fetched s hw hx
  | efcErase w rq fetched => exact execEfcErase_wf w rq fetched s hw hx
  | ptrSwap w rq fetched => exact execPtrSwap_wf w rq fetched s hw hx
  | efcPulseDone w firstBad deferUs => exact execEfcPulseDone_wf w firstBad deferUs s hw hx
  | activeLock w rq => exact execActiveLock_wf w rq s hw hx
  | kickChip w rq first second inTime => exact execKickChip_wf w rq first second inTime s hw hx
  | kickCore w rq first second inTime => exact execKickCore_wf w rq first second inTime s hw hx
  | chipWatchdogExpiry w => exact execChipWatchdogExpiry_wf w s hw hx
  | coreWatchdogWarn w n => exact execCoreWatchdogWarn_wf w n s hw hx
  | coreWatchdogReset w n => exact execCoreWatchdogReset_wf w n s hw hx
  | wdtLockSet w rq => exact execWdtLockSet_wf w rq s hw hx
  | pgChange w idx high => exact execPgChange_wf w idx high s hw hx
  | psqDelayExpiry w => exact execPsqDelayExpiry_wf w s hw hx
  | psqTimeout w => exact execPsqTimeout_wf w s hw hx
  | seqSyncCommit w => exact execSeqSyncCommit_wf w s hw hx
  | syncTimeout w => exact execSyncTimeout_wf w s hw hx
  | seqInFall w => exact execSeqInFall_wf w s hw hx
  | upSequenceStart w => exact execUpSequenceStart_wf w s hw hx
  | offMinExpiry w => exact execOffMinExpiry_wf w s hw hx
  | railFault w idx => exact execRailFault_wf w idx s hw hx
  | faultShutExpiry w => exact execFaultShutExpiry_wf w s hw hx
  | storeCommit w rq => exact execStoreCommit_wf w rq s hw hx
  | marginWrite w rq k steps => exact execMarginWrite_wf w rq k steps s hw hx
  | throttleStep w => exact execThrottleStep_wf w s hw hx
  | thermalTrip w => exact execThermalTrip_wf w s hw hx
  | avsPeriod w cpm => exact execAvsPeriod_wf w cpm s hw hx
  | cpmAlarm w cpm => exact execCpmAlarm_wf w cpm s hw hx
  | avsbusFrameDone w x => exact execAvsbusFrameDone_wf w x s hw hx
  | avsTelemetryPoll w => exact execAvsTelemetryPoll_wf w s hw hx
  | fclkStepChange w => exact execFclkStepChange_wf w s hw hx
  | smbBlockWrite w bytes pec => exact execSmbBlockWrite_wf w bytes pec s hw hx
  | smbBlockRead w whole => exact execSmbBlockRead_wf w whole s hw hx
  | smbReadByteStatus w => exact execSmbReadByteStatus_wf w s hw hx
  | alertResponseAddress w => exact execAlertResponseAddress_wf w s hw hx
  | smbStartStop w => exact execSmbStartStop_wf w s hw hx
  | smbClockLowTimeout w => exact execSmbClockLowTimeout_wf w s hw hx
  | smbDataLowTimeout w => exact execSmbDataLowTimeout_wf w s hw hx
  | mctpControl w command => exact execMctpControl_wf w command s hw hx
  | fmApiCommand w opcode => exact execFmApiCommand_wf w opcode s hw hx
  | pageRead w x => exact execPageRead_wf w x s hw hx
  | pageWrite w x => exact execPageWrite_wf w x s hw hx
  | alwaysOnPowerUp w x => exact execAlwaysOnPowerUp_wf w x s hw hx
  | powerOnReset w x => exact execPowerOnReset_wf w x s hw hx
  | resetNAssert w => exact execResetNAssert_wf w s hw hx
  | resetNRelease w x => exact execResetNRelease_wf w x s hw hx
  | warmGo w rq x => exact execWarmGo_wf w rq x s hw hx
  | svnAdvance w rq => exact execSvnAdvance_wf w rq s hw hx
  | ownerProg w rq => exact execOwnerProg_wf w rq s hw hx
  | eraseReq rq d => exact execEraseReq_wf rq d s hw hx
  | cryptoEraseDone w d => exact execCryptoEraseDone_wf w d s hw hx
  | closeGo w rq => exact execCloseGo_wf w rq s hw hx
  | testLogicReset w => exact execTestLogicReset_wf w s hw hx
  | tapExtest w => exact execTapExtest_wf w s hw hx
  | samplePreload w => exact execSamplePreload_wf w s hw hx
  | tapIdcode w => exact execTapIdcode_wf w s hw hx
  | tapClamp w => exact execTapClamp_wf w s hw hx
  | tapHighz w => exact execTapHighz_wf w s hw hx
  | extestPulse w => exact execExtestPulse_wf w s hw hx
  | extestTrain w => exact execExtestTrain_wf w s hw hx
  | tapDmi w => exact execTapDmi_wf w s hw hx
  | tapSysbus w x => exact execTapSysbus_wf w x s hw hx
  | tapOverride w own dead fence => exact execTapOverride_wf w own dead fence s hw hx
  | tapBypass w code => exact execTapBypass_wf w code s hw hx
  | clockLockLoss w => exact execClockLockLoss_wf w s hw hx
  | linkLeftL0 h dest ns => exact execLinkLeftL0_wf h dest ns s hw hx
  | twinDeadNRise w => exact execTwinDeadNRise_wf w s hw hx
  | carbonLaneFlit w h hostAck decoded => exact execCarbonLaneFlit_wf w h hostAck decoded s hw hx

/-- A command that stores nothing keeps whatever holds of the stores of both chips. -/
theorem exec_keeps_stores {P : Twin → Stores → Prop} (i : Instr) {s out : State} (hi : i.mayStore = false) (hw : s.memP P)
    (hx : exec i s = .next out) : out.memP P := by
  cases i with
  | holdupRise w => exact execHoldupRise_keep w s hw hx
  | pageDrained w page => exact execPageDrained_keep w page s hw hx
  | pageFault w page => exact execPageFault_keep w page s hw hx
  | evtStatusClear w rq page bits again => exact execEvtStatusClear_keep w rq page bits again s hw hx
  | evtForce w rq page bits => exact execEvtForce_keep w rq page bits s hw hx
  | evtEnableWrite w rq page bits => exact execEvtEnableWrite_keep w rq page bits s hw hx
  | peerPageRead w rq page off size => exact execPeerPageRead_keep w rq page off size s hw hx
  | peerPageWrite w rq x => exact execPeerPageWrite_keep w rq x s hw hx
  | pairAliasWrite w rq x => exact execPairAliasWrite_keep w rq x s hw hx
  | linkTrained h t => exact execLinkTrained_keep h t s hw hx
  | linkDegradeRetry h => exact execLinkDegradeRetry_keep h s hw hx
  | decoderCommit h n => exact execDecoderCommit_keep h n s hw hx
  | memRd r v => exact execMemRd_keep r v s hw hx
  | memRdData r v => exact execMemRdData_keep r v s hw hx
  | memInv r v => exact execMemInv_keep r v s hw hx
  | memInvNt r v => exact execMemInvNt_keep r v s hw hx
  | memSpecRd r room => exact execMemSpecRd_keep r room s hw hx
  | memWr r v => exact execMemWr_keep r v s hw hx
  | memWrPtl r v => exact execMemWrPtl_keep r v s hw hx
  | birspI h line => exact execBirspI_keep h line s hw hx
  | birspS h line => exact execBirspS_keep h line s hw hx
  | birspE h line => exact execBirspE_keep h line s hw hx
  | biConflict h line => exact execBiConflict_keep h line s hw hx
  | requestAdmit h write => exact execRequestAdmit_keep h write s hw hx
  | dramReadDone w line outcome device => exact execDramReadDone_keep w line outcome device s hw hx
  | doeDiscovery h index => exact execDoeDiscovery_keep h index s hw hx
  | cdatTableAccess h entry => exact execCdatTableAccess_keep h entry s hw hx
  | spdmGetVersion h => exact execSpdmGetVersion_keep h s hw hx
  | spdmGetCapabilities h => exact execSpdmGetCapabilities_keep h s hw hx
  | spdmNegotiateAlgorithms h => exact execSpdmNegotiateAlgorithms_keep h s hw hx
  | spdmGetDigests h => exact execSpdmGetDigests_keep h s hw hx
  | spdmGetCertificate h slot off len => exact execSpdmGetCertificate_keep h slot off len s hw hx
  | spdmChallenge h slot => exact execSpdmChallenge_keep h slot s hw hx
  | spdmGetMeasurements h index => exact execSpdmGetMeasurements_keep h index s hw hx
  | spdmKeyExchange h => exact execSpdmKeyExchange_keep h s hw hx
  | spdmFinish h id => exact execSpdmFinish_keep h id s hw hx
  | spdmHeartbeat h id => exact execSpdmHeartbeat_keep h id s hw hx
  | spdmKeyUpdate h id => exact execSpdmKeyUpdate_keep h id s hw hx
  | spdmEndSession h id => exact execSpdmEndSession_keep h id s hw hx
  | spdmSetCertificate h slot bytes => exact execSpdmSetCertificate_keep h slot bytes s hw hx
  | kSetGo h set => exact execKSetGo_keep h set s hw hx
  | getEventRecords h log => exact execGetEventRecords_keep h log s hw hx
  | clearEventRecords h log all handles => exact execClearEventRecords_keep h log all handles s hw hx
  | getEventInterruptPolicy h => exact execGetEventInterruptPolicy_keep h s hw hx
  | setEventInterruptPolicy h log mode => exact execSetEventInterruptPolicy_keep h log mode s hw hx
  | getFwInfo h => exact execGetFwInfo_keep h s hw hx
  | transferFw h off bytes => exact execTransferFw_keep h off bytes s hw hx
  | activateFw h slot => exact execActivateFw_keep h slot s hw hx
  | getTimestamp h => exact execGetTimestamp_keep h s hw hx
  | setTimestamp h ns => exact execSetTimestamp_keep h ns s hw hx
  | getSupportedLogs h => exact execGetSupportedLogs_keep h s hw hx
  | getLog h log off len => exact execGetLog_keep h log off len s hw hx
  | identifyMemoryDevice h => exact execIdentifyMemoryDevice_keep h s hw hx
  | getPartitionInfo h => exact execGetPartitionInfo_keep h s hw hx
  | getLsa h off len => exact execGetLsa_keep h off len s hw hx
  | setLsa h off bytes => exact execSetLsa_keep h off bytes s hw hx
  | getHealthInfo h => exact execGetHealthInfo_keep h s hw hx
  | getAlertConfiguration h => exact execGetAlertConfiguration_keep h s hw hx
  | setAlertConfiguration h bytes => exact execSetAlertConfiguration_keep h bytes s hw hx
  | getShutdownState h => exact execGetShutdownState_keep h s hw hx
  | setShutdownState h dirty => exact execSetShutdownState_keep h dirty s hw hx
  | getPoisonList h dpa lines => exact execGetPoisonList_keep h dpa lines s hw hx
  | injectPoison h dpa => exact execInjectPoison_keep h dpa s hw hx
  | clearPoison h dpa data => exact execClearPoison_keep h dpa data s hw hx
  | getScanMediaCapabilities h dpa lines => exact execGetScanMediaCapabilities_keep h dpa lines s hw hx
  | scanMedia h dpa lines => exact execScanMedia_keep h dpa lines s hw hx
  | getScanMediaResults h => exact execGetScanMediaResults_keep h s hw hx
  | sanitize h => exact execSanitize_keep h s hw hx
  | secureErase h => exact execSecureErase_keep h s hw hx
  | getPairInfo h => exact execGetPairInfo_keep h s hw hx
  | getDirtyBudget h => exact execGetDirtyBudget_keep h s hw hx
  | getDeadLetters h first => exact execGetDeadLetters_keep h first s hw hx
  | startDrill h port => exact execStartDrill_keep h port s hw hx
  | mailboxBackgroundDone => exact execMailboxBackgroundDone_keep s hw hx
  | msixModeratorFire h v timer => exact execMsixModeratorFire_keep h v timer s hw hx
  | d0Entry h => exact execD0Entry_keep h s hw hx
  | gpfPhase1 h => exact execGpfPhase1_keep h s hw hx
  | gpfPhase2 h => exact execGpfPhase2_keep h s hw hx
  | gpfPhase2Done h => exact execGpfPhase2Done_keep h s hw hx
  | hotReset h => exact execHotReset_keep h s hw hx
  | secondaryBusReset h => exact execSecondaryBusReset_keep h s hw hx
  | headFlr h => exact execHeadFlr_keep h s hw hx
  | cxlReset h => exact execCxlReset_keep h s hw hx
  | perstAssert p => exact execPerstAssert_keep p s hw hx
  | perstDeassert p => exact execPerstDeassert_keep p s hw hx
  | carbonAcquired w h ns => exact execCarbonAcquired_keep w h ns s hw hx
  | acqLimitExpiry w h => exact execAcqLimitExpiry_keep w h s hw hx
  | lostRetry w h => exact execLostRetry_keep w h s hw hx
  | trackLost w h => exact execTrackLost_keep w h s hw hx
  | flitFetch w h dir flit => exact execFlitFetch_keep w h dir flit s hw hx
  | drainEligible w line => exact execDrainEligible_keep w line s hw hx
  | drainIssue w x => exact execDrainIssue_keep w x s hw hx
  | localStall w p => exact execLocalStall_keep w p s hw hx
  | ringEnableApply q => exact execRingEnableApply_keep q s hw hx
  | ringDisableApply q => exact execRingDisableApply_keep q s hw hx
  | cmdTail w rq throughAlias q v => exact execCmdTail_keep w rq throughAlias q v s hw hx
  | cmpHead w rq throughAlias q v => exact execCmpHead_keep w rq throughAlias q v s hw hx
  | postBoxCommandStart q => exact execPostBoxCommandStart_keep q s hw hx
  | completionWrite q => exact execCompletionWrite_keep q s hw hx
  | ringNop q idx => exact execRingNop_keep q idx s hw hx
  | ringRound q idx => exact execRingRound_keep q idx s hw hx
  | objRegister q idx => exact execObjRegister_keep q idx s hw hx
  | objRemove q idx => exact execObjRemove_keep q idx s hw hx
  | objSetPolicy q idx => exact execObjSetPolicy_keep q idx s hw hx
  | objQuery q idx => exact execObjQuery_keep q idx s hw hx
  | extentPromote q idx => exact execExtentPromote_keep q idx s hw hx
  | extentEvict q idx => exact execExtentEvict_keep q idx s hw hx
  | extentDiscard q idx => exact execExtentDiscard_keep q idx s hw hx
  | poolQuery q idx => exact execPoolQuery_keep q idx s hw hx
  | routeLoad q idx => exact execRouteLoad_keep q idx s hw hx
  | routeStart q idx => exact execRouteStart_keep q idx s hw hx
  | routeSeek q idx => exact execRouteSeek_keep q idx s hw hx
  | routeStop q idx => exact execRouteStop_keep q idx s hw hx
  | routeUnload q idx => exact execRouteUnload_keep q idx s hw hx
  | routeQuery q idx => exact execRouteQuery_keep q idx s hw hx
  | listBlockReadDone w slot block => exact execListBlockReadDone_keep w slot block s hw hx
  | retireDramRow q idx => exact execRetireDramRow_keep q idx s hw hx
  | retireFrame q idx => exact execRetireFrame_keep q idx s hw hx
  | retireParcel q idx => exact execRetireParcel_keep q idx s hw hx
  | ledgerQuery q idx => exact execLedgerQuery_keep q idx s hw hx
  | envFill w => exact execEnvFill_keep w s hw hx
  | envFrame w => exact execEnvFrame_keep w s hw hx
  | envPostmark w => exact execEnvPostmark_keep w s hw hx
  | envFetch w => exact execEnvFetch_keep w s hw hx
  | envBridge w => exact execEnvBridge_keep w s hw hx
  | envEvent w => exact execEnvEvent_keep w s hw hx
  | envControl w => exact execEnvControl_keep w s hw hx
  | envResync w => exact execEnvResync_keep w s hw hx
  | envelopeReject w badTag => exact execEnvelopeReject_keep w badTag s hw hx
  | authFail w => exact execAuthFail_keep w s hw hx
  | doubleLoss w lane => exact execDoubleLoss_keep w lane s hw hx
  | writeWm w => exact execWriteWm_keep w s hw hx
  | tapWm w => exact execTapWm_keep w s hw hx
  | drainWm w => exact execDrainWm_keep w s hw hx
  | orderAccess w => exact execOrderAccess_keep w s hw hx
  | orderSweep w => exact execOrderSweep_keep w s hw hx
  | orderVictim w => exact execOrderVictim_keep w s hw hx
  | orderHandoff w => exact execOrderHandoff_keep w s hw hx
  | recAlias w => exact execRecAlias_keep w s hw hx
  | recLog w => exact execRecLog_keep w s hw hx
  | recApplied w => exact execRecApplied_keep w s hw hx
  | recHold w => exact execRecHold_keep w s hw hx
  | holdRelease w => exact execHoldRelease_keep w s hw hx
  | extentCopyApply => exact execExtentCopyApply_keep s hw hx
  | cxkTrainingDone w locked delayNs authentic => exact execCxkTrainingDone_keep w locked delayNs authentic s hw hx
  | cxkTrainingRetry w => exact execCxkTrainingRetry_keep w s hw hx
  | laneLockLoss w lane => exact execLaneLockLoss_keep w lane s hw hx
  | laneSwap w lane spare => exact execLaneSwap_keep w lane spare s hw hx
  | rekey w => exact execRekey_keep w s hw hx
  | isolateLimitExpiry w => exact execIsolateLimitExpiry_keep w s hw hx
  | ownInRise w p => exact execOwnInRise_keep w p s hw hx
  | guardMet w p => exact execGuardMet_keep w p s hw hx
  | takeoverLinkL0 w h ns => exact execTakeoverLinkL0_keep w h ns s hw hx
  | failstopNow w rq => exact execFailstopNow_keep w rq s hw hx
  | fenceInRise w => exact execFenceInRise_keep w s hw hx
  | fenceRelease w rq => exact execFenceRelease_keep w rq s hw hx
  | handoverRetry p => exact execHandoverRetry_keep p s hw hx
  | takeoverDrill rq => exact execTakeoverDrill_keep rq s hw hx
  | drillReturn => exact execDrillReturn_keep s hw hx
  | resyncFrontDone => exact execResyncFrontDone_keep s hw hx
  | resyncBackDone => exact execResyncBackDone_keep s hw hx
  | resyncFinish => exact execResyncFinish_keep s hw hx
  | resyncCapacityRefuse => exact execResyncCapacityRefuse_keep s hw hx
  | speakerEndpointStarted w => exact execSpeakerEndpointStarted_keep w s hw hx
  | soloWaitExpiry w pulseEdge => exact execSoloWaitExpiry_keep w pulseEdge s hw hx
  | forceAlone w rq => exact execForceAlone_keep w rq s hw hx
  | snoopTimeout h line => exact execSnoopTimeout_keep h line s hw hx
  | shadowMigrationDone w d => exact execShadowMigrationDone_keep w d s hw hx
  | fillRangeDone w range => exact execFillRangeDone_keep w range s hw hx
  | translationFill w h line => exact execTranslationFill_keep w h line s hw hx
  | mdcFillArrival w line => exact execMdcFillArrival_keep w line s hw hx
  | mdcInvalidationDone w => exact execMdcInvalidationDone_keep w s hw hx
  | mdcClean w rq => exact execMdcClean_keep w rq s hw hx
  | mdcInvalidate w rq => exact execMdcInvalidate_keep w rq s hw hx
  | mdcCleanInvalidate w rq => exact execMdcCleanInvalidate_keep w rq s hw hx
  | mdcLock w rq => exact execMdcLock_keep w rq s hw hx
  | mdcUnlock w rq => exact execMdcUnlock_keep w rq s hw hx
  | mdcOpDone w => exact execMdcOpDone_keep w s hw hx
  | wayDisableDone w way => exact execWayDisableDone_keep w way s hw hx
  | directReadTimeout w parcel => exact execDirectReadTimeout_keep w parcel s hw hx
  | programDone w row col pass => exact execProgramDone_keep w row col pass s hw hx
  | eraseDone w row col pass => exact execEraseDone_keep w row col pass s hw hx
  | lunStatusTimeout w col pos => exact execLunStatusTimeout_keep w col pos s hw hx
  | nandZqCalibration w => exact execNandZqCalibration_keep w s hw hx
  | patchAgeExpiry w parcel => exact execPatchAgeExpiry_keep w parcel s hw hx
  | offlineReq w rq m => exact execOfflineReq_keep w rq m s hw hx
  | onlineReq w rq m => exact execOnlineReq_keep w rq m s hw hx
  | moduleSafe w m => exact execModuleSafe_keep w m s hw hx
  | modulePresenceChange w m present => exact execModulePresenceChange_keep w m present s hw hx
  | channelFailed w c => exact execChannelFailed_keep w c s hw hx
  | modulePrepareDone w m ok => exact execModulePrepareDone_keep w m ok s hw hx
  | pfailNFall w => exact execPfailNFall_keep w s hw hx
  | pfailCommit w => exact execPfailCommit_keep w s hw hx
  | pfailNRise w => exact execPfailNRise_keep w s hw hx
  | saveDecision w => exact execSaveDecision_keep w s hw hx
  | lonePfail w => exact execLonePfail_keep w s hw hx
  | graceExpiry w => exact execGraceExpiry_keep w s hw hx
  | saveFailed w => exact execSaveFailed_keep w s hw hx
  | calibrationDone w rate tprogUs fixedUs ms => exact execCalibrationDone_keep w rate tprogUs fixedUs ms s hw hx
  | sealReadDone w copies bad => exact execSealReadDone_keep w copies bad s hw hx
  | sourceChoice w => exact execSourceChoice_keep w s hw hx
  | memoryActive => exact execMemoryActive_keep s hw hx
  | refreshInterval w c ranks => exact execRefreshInterval_keep w c ranks s hw hx
  | refsbIssue w c r k => exact execRefsbIssue_keep w c r k s hw hx
  | refreshDone w c r => exact execRefreshDone_keep w c r s hw hx
  | mr4Poll w c twoX => exact execMr4Poll_keep w c twoX s hw hx
  | dramTrainingDone w x => exact execDramTrainingDone_keep w x s hw hx
  | driftCheck w c r ps => exact execDriftCheck_keep w c r ps s hw hx
  | dramZqStart w c r => exact execDramZqStart_keep w c r s hw hx
  | dramZqLatch w c r => exact execDramZqLatch_keep w c r s hw hx
  | retrainDone w c r ok rdEye wrEye => exact execRetrainDone_keep w c r ok rdEye wrEye s hw hx
  | srIdleExpiry w c => exact execSrIdleExpiry_keep w c s hw hx
  | srExitDone w c ns => exact execSrExitDone_keep w c ns s hw hx
  | pprGo w rq c => exact execPprGo_keep w rq c s hw hx
  | pprCopyDone w c => exact execPprCopyDone_keep w c s hw hx
  | pprProgramDone w c err => exact execPprProgramDone_keep w c err s hw hx
  | pprDone w c => exact execPprDone_keep w c s hw hx
  | alertN w c => exact execAlertN_keep w c s hw hx
  | patrolWake w c => exact execPatrolWake_keep w c s hw hx
  | cblWindowEnd w => exact execCblWindowEnd_keep w s hw hx
  | dirBankMigrateDone w bank => exact execDirBankMigrateDone_keep w bank s hw hx
  | coreSpareSwap w n => exact execCoreSpareSwap_keep w n s hw hx
  | interruptArrival w src level => exact execInterruptArrival_keep w src level s hw hx
  | coalTimer w g => exact execCoalTimer_keep w g s hw hx
  | fastEntry w n pc machine => exact execFastEntry_keep w n pc machine s hw hx
  | coreFret w n => exact execCoreFret_keep w n s hw hx
  | icuClaim w rq n => exact execIcuClaim_keep w rq n s hw hx
  | icuComplete w rq n src => exact execIcuComplete_keep w rq n src s hw hx
  | icuSwi w rq bits => exact execIcuSwi_keep w rq bits s hw hx
  | sourceDisable w rq src => exact execSourceDisable_keep w rq src s hw hx
  | targetChange w rq src target => exact execTargetChange_keep w rq src target s hw hx
  | coreWfi w n => exact execCoreWfi_keep w n s hw hx
  | coreMtip w n => exact execCoreMtip_keep w n s hw hx
  | efcProgram w rq fetched => exact execEfcProgram_keep w rq fetched s hw hx
  | efcErase w rq fetched => exact execEfcErase_keep w rq fetched s hw hx
  | ptrSwap w rq fetched => exact execPtrSwap_keep w rq fetched s hw hx
  | efcPulseDone w firstBad deferUs => exact execEfcPulseDone_keep w firstBad deferUs s hw hx
  | activeLock w rq => exact execActiveLock_keep w rq s hw hx
  | kickChip w rq first second inTime => exact execKickChip_keep w rq first second inTime s hw hx
  | kickCore w rq first second inTime => exact execKickCore_keep w rq first second inTime s hw hx
  | chipWatchdogExpiry w => exact execChipWatchdogExpiry_keep w s hw hx
  | coreWatchdogWarn w n => exact execCoreWatchdogWarn_keep w n s hw hx
  | coreWatchdogReset w n => exact execCoreWatchdogReset_keep w n s hw hx
  | wdtLockSet w rq => exact execWdtLockSet_keep w rq s hw hx
  | pgChange w idx high => exact execPgChange_keep w idx high s hw hx
  | psqDelayExpiry w => exact execPsqDelayExpiry_keep w s hw hx
  | psqTimeout w => exact execPsqTimeout_keep w s hw hx
  | seqSyncCommit w => exact execSeqSyncCommit_keep w s hw hx
  | syncTimeout w => exact execSyncTimeout_keep w s hw hx
  | seqInFall w => exact execSeqInFall_keep w s hw hx
  | upSequenceStart w => exact execUpSequenceStart_keep w s hw hx
  | offMinExpiry w => exact execOffMinExpiry_keep w s hw hx
  | railFault w idx => exact execRailFault_keep w idx s hw hx
  | faultShutExpiry w => exact execFaultShutExpiry_keep w s hw hx
  | storeCommit w rq => exact execStoreCommit_keep w rq s hw hx
  | marginWrite w rq k steps => exact execMarginWrite_keep w rq k steps s hw hx
  | throttleStep w => exact execThrottleStep_keep w s hw hx
  | thermalTrip w => exact execThermalTrip_keep w s hw hx
  | avsPeriod w cpm => exact execAvsPeriod_keep w cpm s hw hx
  | cpmAlarm w cpm => exact execCpmAlarm_keep w cpm s hw hx
  | avsbusFrameDone w x => exact execAvsbusFrameDone_keep w x s hw hx
  | avsTelemetryPoll w => exact execAvsTelemetryPoll_keep w s hw hx
  | fclkStepChange w => exact execFclkStepChange_keep w s hw hx
  | smbBlockWrite w bytes pec => exact execSmbBlockWrite_keep w bytes pec s hw hx
  | smbBlockRead w whole => exact execSmbBlockRead_keep w whole s hw hx
  | smbReadByteStatus w => exact execSmbReadByteStatus_keep w s hw hx
  | alertResponseAddress w => exact execAlertResponseAddress_keep w s hw hx
  | smbStartStop w => exact execSmbStartStop_keep w s hw hx
  | smbClockLowTimeout w => exact execSmbClockLowTimeout_keep w s hw hx
  | smbDataLowTimeout w => exact execSmbDataLowTimeout_keep w s hw hx
  | mctpControl w command => exact execMctpControl_keep w command s hw hx
  | fmApiCommand w opcode => exact execFmApiCommand_keep w opcode s hw hx
  | pageRead w x => exact execPageRead_keep w x s hw hx
  | resetNRelease w x => exact execResetNRelease_keep w x s hw hx
  | svnAdvance w rq => exact execSvnAdvance_keep w rq s hw hx
  | ownerProg w rq => exact execOwnerProg_keep w rq s hw hx
  | eraseReq rq d => exact execEraseReq_keep rq d s hw hx
  | closeGo w rq => exact execCloseGo_keep w rq s hw hx
  | clockLockLoss w => exact execClockLockLoss_keep w s hw hx
  | linkLeftL0 h dest ns => exact execLinkLeftL0_keep h dest ns s hw hx
  | twinDeadNRise w => exact execTwinDeadNRise_keep w s hw hx
  | carbonLaneFlit w h hostAck decoded => exact execCarbonLaneFlit_keep w h hostAck decoded s hw hx
  | _ => exact Bool.noConfusion hi

/-- A command that stores nothing leaves the stores of both chips as they were. -/
theorem exec_mem_of_not_mayStore (i : Instr) {s t : State} (hi : i.mayStore = false) (h : exec i s = .next t) (w : Twin) :
    (t.chip w).mem = (s.chip w).mem :=
  State.chip_keep t w (exec_keeps_stores (P := fun w m => m = (s.chip w).mem) i hi ⟨rfl, rfl⟩ h)

/-! ## The step -/

theorem step_nil {s : State} (h : s.pending = []) : step s = .next s := by
  unfold step
  rw [h]

theorem step_cons {s : State} {i : Instr} {l : List Instr} (h : s.pending = i :: l) : step s = exec i { s with pending := l } := by
  unfold step
  rw [h]

/-- Settles O1: the step of a queue with a front command is that command's meaning. -/
theorem stepRunsTheFrontCommand : Obligations.StepRunsTheFrontCommand :=
  fun _ _ _ => step_cons rfl

/-- Settles O2: an empty queue idles, by the definition of the step (log 2), and no command touches the queue that it is carried out with. -/
theorem queueRule : Obligations.QueueRule := by
  refine ⟨fun s h => step_nil h, fun s t h => ?_⟩
  cases hp : s.pending with
  | nil =>
    rw [step_nil hp] at h
    obtain rfl := Host.Outcome.next.inj h
    exact hp
  | cons i l =>
    obtain ⟨u, hu, hq⟩ := exec_next i { s with pending := l }
    rw [step_cons hp, hu] at h
    obtain rfl := Host.Outcome.next.inj h
    exact hq

/-- Settles O3: the model's choices, log 1 and 7, hold of every command of the table. -/
theorem everyStepAnswersNext : Obligations.EveryStepAnswersNext := by
  intro s
  cases hp : s.pending with
  | nil => exact ⟨s, step_nil hp⟩
  | cons i l =>
    obtain ⟨t, ht, -⟩ := exec_next i { s with pending := l }
    exact ⟨t, (step_cons hp).trans ht⟩

/-- Settles O4: after power-up every store is empty. -/
theorem resetMemoryCanonical : Obligations.ResetMemoryCanonical := rfl

/-- Settles O5: a step idles or carries out one command, and every command keeps every memory canonical. -/
theorem stepKeepsMemoryCanonical : Obligations.StepKeepsMemoryCanonical := by
  intro s t hw h
  cases hp : s.pending with
  | nil =>
    rw [step_nil hp] at h
    exact Host.Outcome.next.inj h ▸ hw
  | cons i l => exact exec_keeps_memWf (s := { s with pending := l }) i hw ((step_cons hp).symm.trans h)

/-- Settles O6: each command that stores nothing leaves the stores of both chips, and every byte named is read from one of them. -/
theorem storingNothingKeepsMemory : Obligations.StoringNothingKeepsMemory := by
  intro i s t hi h w a
  have hm := exec_mem_of_not_mayStore i hi h w
  simp only [Chip.dram_mem, Chip.front_mem, Chip.packed_mem, Chip.patch_mem, Chip.sealFront_mem, Chip.sealPatch_mem, Chip.metaFront_mem,
    Chip.metaPatch_mem, hm, and_self]

end Sys2Proof.Machine
end

section
/-! PROOF. States that the counterexamples start from, built up from power-up: both chips out of reset, chip A that serves head 0 alone, and the same with
a full transmit history that the carbon follows, so that the next flit to the host raises HISTORY_FULL (R109), whose record sends an interrupt message
of its own to that host (R92). A counterexample is refuted by evaluating the model on such a state. -/

namespace Sys2Proof.Machine

/-- The state after a command; every command has one (`exec_next`). -/
def State.after (s : State) (i : Instr) : State :=
  match exec i s with
  | .next t => t
  | _ => s

theorem State.after_eq {i : Instr} {s t : State} (h : exec i s = .next t) : s.after i = t := by simp [State.after, h]

/-- What is claimed of some next state is claimed of the state after the command. -/
theorem State.of_next {i : Instr} {s : State} {P : State → Prop} (h : ∃ t, exec i s = .next t ∧ P t) : P (s.after i) := by
  obtain ⟨t, ht, hp⟩ := h
  exact State.after_eq ht ▸ hp

/-- A chip out of reset with every register at its reset value. -/
def Chip.awake (w : Twin) : Chip := { Chip.fresh w with rst := { powered := true, twinId := w.id, chipSerial := w.id + 1 } }

/-- A chip with fields set and applied. -/
def Chip.having (c : Chip) (l : List (Fld × Nat)) : Chip :=
  let c := l.foldl (fun c x => c.put x.1 x.2) c
  { c with applied := c.regs }

/-- Both chips out of reset. -/
def State.awake : State := { State.reset with a := Chip.awake .A, b := Chip.awake .B }

/-- The pair with chip A replaced by its image. -/
def State.setA (s : State) (f : Chip → Chip) : State := { s with a := f s.a }

/-- The pair with chip B replaced by its image. -/
def State.setB (s : State) (f : Chip → Chip) : State := { s with b := f s.b }

/-- Fields that make a page RUNNING. -/
def runningFields (p : Nat) : List (Fld × Nat) := [(⟨p, 0x00C, 0, 3, false⟩, 2), (⟨p, 0x008, 0, 1, false⟩, 1)]

/-- Fields with which a chip is home of port 0 with head 0 in L0, and serves alone. -/
def servingFields : List (Fld × Nat) :=
  [(F.ROLE_PAIR_STATE_MODE, 4), (roleFld 0, 1), (F.HP_PORT_STATUS_OWN_OUT 0, 1), (F.HP_PORT_STATUS_GUARD_MET 0, 1), (F.HLNK_LINK_LTSSM 0, 3),
    (F.DOM_DOMAIN_VALID 0, 1), (F.DOM_DOMAIN_SIZE_256M 0, 1), (F.RST_START_MEM_ACTIVE, 1)] ++
    runningFields 0x050 ++ runningFields 0x051 ++ runningFields 0x060 ++ runningFields 0x200

/-- Fields with which a flit that leaves the history of head 0 early becomes an interrupt message: the event enabled and routed to the heads, page events on. -/
def noisyFields : List (Fld × Nat) :=
  [(⟨0x203, 0x014, 0, 1, false⟩, 1), (⟨0x203, 0x01C, 17, 1, false⟩, 1), (F.HCFG_EVENT_CFG_PAGE_EVENTS 0, 1)]

/-- Chip A serves head 0, whose decoder is on a domain of 256 MiB at DPA 0. -/
def Chip.soloHome : Chip :=
  ((Chip.awake .A).having servingFields).mapHead 0 fun x =>
    { x with decoders := [(0, { cfg := ⟨0, 2 ^ 28, 1, 256, false, 0, false⟩, committed := true })] }

/-- The pair in which chip A serves head 0. -/
def State.soloHome : State := State.awake.setA fun _ => Chip.soloHome

/-- Chip A serves head 0, whose transmit history is full and followed by the carbon. -/
def Chip.noisyHome : Chip :=
  ((Chip.awake .A).having (servingFields ++ noisyFields)).mapHead 0 fun x =>
    { x with
      decoders := [(0, { cfg := ⟨0, 2 ^ 28, 1, 256, false, 0, false⟩, committed := true })]
      txHist := List.replicate 512 ⟨1, .credits, none, (0, 0), 0⟩, txCount := 512, peerTracks := true, policy := [(0, 1)], vecs := [(1, { masked := false })] }

/-- The pair in which chip A serves head 0, whose transmit history is full and followed by the carbon. -/
def State.noisyHome : State := State.awake.setA fun _ => Chip.noisyHome

/-- The last message sent to a head of a chip. -/
def Chip.lastMsg (c : Chip) (h : Fin 24) : Option HostMsg := (c.head h).txHist.getLast?.map fun x => x.msg

end Sys2Proof.Machine
end

section
/-! PROOF. Answers to a host that are not the last flit to it: the transmit history of the head is full, the answer's own flit raises HISTORY_FULL, and
the interrupt message of that event's record follows the answer. -/
namespace Sys2Proof.Machine

/-- A read of head 0 at host address 0. -/
def firstRead : Request := ⟨0, .memRd, ⟨1, 0⟩, 0, BitVec.allOnes 64, 7, false, 0⟩

/-- The noisy home with the line at DPA 0 in its WMB. -/
def State.noisyWmb : State := State.noisyHome.setA fun c =>
  { c with wmb := [(0, { state := .valid, data := 9, mask := allBytes, age := 1 })], wmbAge := 1 }

/-- Refutes O19: the flit that answers GPF phase 1 finds the history full, and the event's interrupt message is then the last flit. -/
theorem not_headMessagesComplete : ¬ Obligations.HeadMessagesComplete := by
  unfold Obligations.HeadMessagesComplete
  rintro ⟨-, hphase1, -, -⟩
  obtain ⟨hlast, -⟩ := State.of_next (hphase1 .A 0 State.noisyHome (by decide +kernel) (by decide +kernel))
  exact absurd hlast (by decide +kernel)

/-- Refutes O21: the flit that answers the read finds the history full, and the event's interrupt message is then the last flit. -/
theorem not_readsForwardFromTheWmb : ¬ Obligations.ReadsForwardFromTheWmb := by
  unfold Obligations.ReadsForwardFromTheWmb
  intro h
  obtain ⟨-, hlast⟩ := State.of_next (h .A firstRead ⟨false, 0⟩ (.memRd firstRead ⟨false, 0⟩) .memRd firstRead.metaValue 0 State.noisyWmb (.inl ⟨rfl, rfl, rfl⟩)
    (by decide +kernel) (by decide +kernel) (by decide +kernel) (by decide +kernel) (by decide +kernel) (by decide +kernel) (by decide +kernel)
    (by decide +kernel) (by decide +kernel) (by decide +kernel) (by decide +kernel))
  exact absurd hlast (by decide +kernel)

/-- Refutes O22: the Cmp's flit finds the history full, and the event's interrupt message is then the last flit. -/
theorem not_invalidatesAnswerCmp : ¬ Obligations.InvalidatesAnswerCmp := by
  unfold Obligations.InvalidatesAnswerCmp
  intro h
  have hlast := State.of_next (h .A firstRead ⟨false, 0⟩ (.memInv firstRead ⟨false, 0⟩) .memInv 0 State.noisyHome (.inl ⟨rfl, rfl⟩)
    (by decide +kernel) (by decide +kernel) (by decide +kernel) (by decide +kernel) (by decide +kernel) (by decide +kernel) (by decide +kernel)
    (by decide +kernel))
  exact absurd hlast (by decide +kernel)

/-- Refutes O24: the acknowledgement of a conflict finds the history full, and the event's interrupt message is then the last flit. -/
theorem not_queuedAndSpeculativeComplete : ¬ Obligations.QueuedAndSpeculativeComplete := by
  unfold Obligations.QueuedAndSpeculativeComplete
  rintro ⟨-, -, -, -, hconflict⟩
  obtain ⟨hlast, -⟩ := State.of_next (hconflict .A 0 0 State.noisyHome (by decide +kernel))
  exact absurd hlast (by decide +kernel)

/-- The tag of the first read, which waits at a stage. -/
def firstTag (x : Stage) : Tag := { req := firstRead, dpa := 0, isTag := true, stage := x, issued := true }

/-- Refutes O26: the flit that answers the read from DRAM finds the history full, and the event's interrupt message is then the last flit. -/
theorem not_readsComplete : ¬ Obligations.ReadsComplete := by
  unfold Obligations.ReadsComplete
  rintro ⟨hdram, -, -, -, -⟩
  obtain ⟨-, hlast, -⟩ := State.of_next (hdram .A 0 0 (firstTag .dram) (State.noisyHome.setA fun c => { c with tags := [firstTag .dram] })
    rfl rfl rfl rfl rfl rfl rfl (by decide +kernel) (.inl rfl) (by decide +kernel))
  exact absurd hlast (by decide +kernel)

/-- A read of the media that finds every page good. -/
def goodRead : MediaRead := ⟨512, 0, 0, 0, [], 0, true, 0, 0⟩

/-- Refutes O46: the flit that answers the direct read finds the history full, and the event's interrupt message is then the last flit. -/
theorem not_mediaComplete : ¬ Obligations.MediaComplete := by
  unfold Obligations.MediaComplete
  rintro ⟨hread, -, -, -, -, -, -, -⟩
  obtain ⟨-, hlast, -⟩ := State.of_next (hread .A 0 goodRead (firstTag .direct)
    (State.noisyHome.setA fun c => { c with tags := [firstTag .direct], trm := { c.trm with parcels := [(0, { state := 1 })] } })
    rfl (by decide +kernel) rfl rfl rfl rfl rfl rfl rfl rfl (by decide +kernel) rfl (by decide +kernel) (by decide +kernel))
  exact absurd hlast (by decide +kernel)
end Sys2Proof.Machine
end

section
/-! PROOF. A manager host reaches the pages of the chip that is home of its port, and of no other: an access of such a host at a chip where its port
has no home does nothing, whatever its rights. -/
namespace Sys2Proof.Machine

/-- Both chips out of reset, head 0 a manager that may write the pages of block 1, its port without a home. -/
def State.homeless : State := State.awake.setA fun c => c.having [(F.SEC_HOST_MGR_HEADS, 1), (F.SEC_HOST_WRITE_BLOCKS, 1)]

/-- Refutes O14: head 0 has the right to write page 0, but its port's home is not this chip, and the word stays as it was. -/
theorem not_configurationWordsComplete : ¬ Obligations.ConfigurationWordsComplete := by
  unfold Obligations.ConfigurationWordsComplete
  rintro ⟨hwrite, -⟩
  obtain ⟨hword, -, -⟩ := State.of_next (hwrite .A (.host 0) 0 0x100 1 State.homeless rfl (by decide +kernel) (by decide +kernel) (by decide +kernel)
    (by decide +kernel) (by decide) (by decide) rfl (by decide +kernel))
  exact absurd hword (by decide +kernel)

/-- Refutes O15: head 0 has the right to read page 0, but its port's home is not this chip, and its read gets no answer. -/
theorem not_pageAccessesComplete : ¬ Obligations.PageAccessesComplete := by
  unfold Obligations.PageAccessesComplete
  rintro ⟨hread, -, -, -, -⟩
  obtain ⟨-, hones, -⟩ := State.of_next (hread .A (.host 0) 0 0x100 4 State.homeless rfl rfl (by decide +kernel) (by decide +kernel))
  exact absurd (hones (by decide +kernel)) (by decide +kernel)
end Sys2Proof.Machine
end

section
/-! PROOF. END_MARK of a Round that has used its 4 us already, with a job still to run. -/
namespace Sys2Proof.Machine

/-- Chip A at the end of its Round, with job 5 still to run. -/
def State.roundSpent : State := State.awake.setA fun c => { c with clk := { c.clk with sched := { c.clk.sched with now := 4000, left := [5], running := none } } }

/-- Refutes O11: at the end of the Round the job that is left stays so at END_MARK. -/
theorem not_roundCommandsComplete : ¬ Obligations.RoundCommandsComplete := by
  unfold Obligations.RoundCommandsComplete
  rintro ⟨-, -, hmark, -, -⟩
  obtain ⟨-, -, hleft, -, -⟩ := State.of_next (hmark .A 0 State.roundSpent rfl)
  exact absurd hleft (by decide +kernel)
end Sys2Proof.Machine
end

section
/-! PROOF. TAP_WM across the wrap of the flit count: a flit sent after the count came back to 0 is later than flit 2^36 - 1 though its number is lower. -/
namespace Sys2Proof.Machine

/-- Chip A with flit 0 of head 0 in its receive history, and the peer's TAP_WM of the flit before it the oldest record. -/
def State.tapAtWrap : State := State.awake.setA fun c =>
  { c.mapHead 0 fun x => { x with rxHist := [⟨0, [], 0⟩] } with twe := { c.twe with rxRecs := [(1, .tapWm 0 .hostToDevice (2 ^ 36 - 1))] } }

/-- Refutes O37: flit 0, which follows flit 2^36 - 1, stays in the history that TAP_WM frees to the latter. -/
theorem not_recordsComplete : ¬ Obligations.RecordsComplete := by
  unfold Obligations.RecordsComplete
  rintro ⟨-, htap, -⟩
  obtain ⟨-, -, -, hkept, -⟩ := State.of_next (htap .A 1 0 (2 ^ 36 - 1) State.tapAtWrap rfl rfl)
  exact absurd hkept (by decide +kernel)
end Sys2Proof.Machine
end

section
/-! PROOF. Counterexamples of the pair's own machinery: a drill that is handed back by the applied configuration and not by a word stored after it,
a copy announced while another is under way, and a frame that is zeroed while a front extent waits for one. -/
namespace Sys2Proof.Machine

/-- Both chips MIRRORED, port 0 drilled with chip A its home again, and the word of HOLD_ROUNDS 0 but not yet applied. -/
def State.drilled : State :=
  (State.awake.setA fun c =>
    let c := (c.having (servingFields ++ [(F.ROLE_PAIR_STATE_MODE, mMIRRORED)])).put F.ROLE_TAKEOVER_HOLD_ROUNDS 0
    { c with twe := { c.twe with drilling := some 0, drillBack := some (0, some 0) } }).setB fun c =>
  c.having [(F.ROLE_PAIR_STATE_MODE, mMIRRORED)]

/-- Refutes O40: the hold that counts is the applied one, so the port is not handed back yet. -/
theorem not_handoversComplete : ¬ Obligations.HandoversComplete := by
  unfold Obligations.HandoversComplete
  rintro ⟨-, -, hreturn, -, -, -, -⟩
  obtain ⟨hback, -⟩ := State.of_next (hreturn .A 0 0 State.drilled (by decide +kernel) (by decide +kernel) (by decide +kernel) (by decide +kernel)
    (by decide +kernel) (by decide +kernel) (by decide +kernel))
  exact absurd hback (by decide +kernel)

/-- Chip A with extent 1 in copy and the copy of extent 2 due. -/
def State.copying : State := State.awake.setA fun c => { c with twe := { c.twe with inCopy := [1], copyDue := [(2, 0)] } }

/-- Refutes O42: the extent whose copy starts stands before the one already in copy, not behind it. -/
theorem not_resyncComplete : ¬ Obligations.ResyncComplete := by
  unfold Obligations.ResyncComplete
  rintro ⟨-, -, -, -, -, hstart, -, -⟩
  obtain ⟨hcopy, -, -⟩ := State.of_next (hstart .A 2 State.copying (by decide +kernel) (by decide +kernel) (by decide +kernel))
  exact absurd hcopy (by decide +kernel)

/-- Chip A, all its memory fitted, with front extent 0 without a frame, a byte of that extent, and frame 5 to be zeroed. -/
def State.zeroingFrame : State := State.awake.fitted.setA fun c =>
  { c with trm := { c.trm with ext := [(0, { state := 2 })], front := [(0, 1)], zeroing := [5] } }

/-- Refutes O44: the zeroed frame goes to the extent that waits for one, whose bytes then read as zero. -/
theorem not_tierStepsComplete : ¬ Obligations.TierStepsComplete := by
  unfold Obligations.TierStepsComplete
  rintro ⟨-, -, -, -, -, hzero⟩
  obtain ⟨-, hfront, -⟩ := State.of_next (hzero .A 5 State.zeroingFrame (by decide +kernel) (by decide +kernel))
  exact absurd hfront (by decide +kernel)
end Sys2Proof.Machine
end

section
/-! PROOF. A core's watchdog reset, which starts the core afresh, and a sequence store that holds a word outside the sequence table. -/
namespace Sys2Proof.Machine

/-- Chip A with the watchdog of core 0 on, its limits 0, its warning given, and 7 in the core's register x1. -/
def State.watched : State := State.awake.setA fun c =>
  (c.having (runningFields 0x120 ++ [(F.WDT_CORE_WD_EN, 1), (F.WDT_CORE_WD_WARN_US, 0), (F.WDT_CORE_WD_RESET_US, 0)])).mapCore 0 fun x =>
    { x with running := true, warned := true, x := [(1, 7)] }

/-- Refutes O54: a core that its watchdog resets starts with all its registers cleared. -/
theorem not_flashAndWatchdogsComplete : ¬ Obligations.FlashAndWatchdogsComplete := by
  unfold Obligations.FlashAndWatchdogsComplete
  rintro ⟨-, -, -, -, -, -, -, hreset, -⟩
  obtain ⟨-, -, hregs, -⟩ := State.of_next (hreset .A 0 State.watched (by decide +kernel) (by decide +kernel) (by decide +kernel) (by decide +kernel)
    (by decide +kernel) (by decide +kernel) (by decide +kernel))
  exact absurd hregs (by decide +kernel)

/-- Chip A with one stored table, which holds a value for the sequencer's own state word. -/
def State.oddStore : State := State.awake.setA fun c => { c with psq := { c.psq with store := [[(0x800, 0x10)]] } }

/-- Refutes O58: the word that the store holds for PSQ_STATE is loaded with the rest of its table, and reads as a direction other than OFF. -/
theorem not_resetsComplete : ¬ Obligations.ResetsComplete := by
  unfold Obligations.ResetsComplete
  rintro ⟨hpower, -, -, -, -, -⟩
  obtain ⟨-, -, hdir, -⟩ := State.of_next (hpower .A .A State.oddStore)
  exact absurd hdir (by decide +kernel)
end Sys2Proof.Machine
end

section
/-! PROOF. A read of a chip depends on one part of it: a read of a chip that is written out, field by field, is a read of a chip that has only that
part, and so of the chip that the part was taken from. With these rules `simp` reads through every change of other parts. -/
namespace Sys2Proof.Machine

/-- A chip with nothing but its `regs`. -/
def Chip.ofRegs (x : Table Word) : Chip := { regs := x }

/-- A chip with nothing but its `applied`. -/
def Chip.ofApplied (x : Table Word) : Chip := { applied := x }

/-- A chip with nothing but its `live`. -/
def Chip.ofLive (x : Table Nat) : Chip := { live := x }

/-- A chip with nothing but its `heads`. -/
def Chip.ofHeads (x : Table Head) : Chip := { heads := x }

/-- A chip with nothing but its `chans`. -/
def Chip.ofChans (x : Table Chan) : Chip := { chans := x }

/-- A chip with nothing but its `cores`. -/
def Chip.ofCores (x : Table Core) : Chip := { cores := x }

/-- A chip with nothing but its `icu`. -/
def Chip.ofIcu (x : Icu) : Chip := { icu := x }

section
variable (x0 : Table Word) (x1 : Table Word) (x2 : Table Nat) (x3 : Table Nat) (x4 : Table Nat) (x5 : Nat) (x6 : List Answer) (x7 : List EventRec)
    (x8 : Clk) (x9 : Table Head) (x10 : Mail) (x11 : List Tag) (x12 : Nat) (x13 : Table WmbEntry) (x14 : Nat) (x15 : List Nat) (x16 : Bool)
    (x17 : Table Charge) (x18 : Table Ring) (x19 : Link) (x20 : Twe) (x21 : Che) (x22 : Trm) (x23 : Mdc) (x24 : Rte) (x25 : Mde) (x26 : Svc)
    (x27 : Table Chan) (x28 : Ras) (x29 : Cbl) (x30 : Table Core) (x31 : List Host.Cell) (x32 : Icu) (x33 : Efc) (x34 : Wdt) (x35 : Psq)
    (x36 : Thm) (x37 : Mti) (x38 : Rst) (x39 : Sec) (x40 : Tap)

@[simp] theorem Chip.rd_mk (p o : Nat) : (Chip.mk x0 x1 x2 x3 x4 x5 x6 x7 x8 x9 x10 x11 x12 x13 x14 x15 x16 x17 x18 x19 x20 x21 x22 x23 x24
    x25 x26 x27 x28 x29 x30 x31 x32 x33 x34 x35 x36 x37 x38 x39 x40).rd p o = (Chip.ofRegs x0).rd p o := rfl
@[simp] theorem Chip.get_mk (f : Fld) : (Chip.mk x0 x1 x2 x3 x4 x5 x6 x7 x8 x9 x10 x11 x12 x13 x14 x15 x16 x17 x18 x19 x20 x21 x22 x23 x24
    x25 x26 x27 x28 x29 x30 x31 x32 x33 x34 x35 x36 x37 x38 x39 x40).get f = (Chip.ofRegs x0).get f := rfl
@[simp] theorem Chip.is_mk (f : Fld) : (Chip.mk x0 x1 x2 x3 x4 x5 x6 x7 x8 x9 x10 x11 x12 x13 x14 x15 x16 x17 x18 x19 x20 x21 x22 x23 x24
    x25 x26 x27 x28 x29 x30 x31 x32 x33 x34 x35 x36 x37 x38 x39 x40).is f = (Chip.ofRegs x0).is f := rfl
@[simp] theorem Chip.running_mk (p : Nat) : (Chip.mk x0 x1 x2 x3 x4 x5 x6 x7 x8 x9 x10 x11 x12 x13 x14 x15 x16 x17 x18 x19 x20 x21 x22 x23
    x24 x25 x26 x27 x28 x29 x30 x31 x32 x33 x34 x35 x36 x37 x38 x39 x40).running p = (Chip.ofRegs x0).running p := rfl
@[simp] theorem Chip.pageState_mk (p : Nat) : (Chip.mk x0 x1 x2 x3 x4 x5 x6 x7 x8 x9 x10 x11 x12 x13 x14 x15 x16 x17 x18 x19 x20 x21 x22 x23
    x24 x25 x26 x27 x28 x29 x30 x31 x32 x33 x34 x35 x36 x37 x38 x39 x40).pageState p = (Chip.ofRegs x0).pageState p := rfl
@[simp] theorem Chip.used_mk (p o : Nat) : (Chip.mk x0 x1 x2 x3 x4 x5 x6 x7 x8 x9 x10 x11 x12 x13 x14 x15 x16 x17 x18 x19 x20 x21 x22 x23
    x24 x25 x26 x27 x28 x29 x30 x31 x32 x33 x34 x35 x36 x37 x38 x39 x40).used p o = (Chip.ofApplied x1).used p o := rfl
@[simp] theorem Chip.cfg_mk (f : Fld) : (Chip.mk x0 x1 x2 x3 x4 x5 x6 x7 x8 x9 x10 x11 x12 x13 x14 x15 x16 x17 x18 x19 x20 x21 x22 x23 x24
    x25 x26 x27 x28 x29 x30 x31 x32 x33 x34 x35 x36 x37 x38 x39 x40).cfg f = (Chip.ofApplied x1).cfg f := rfl
@[simp] theorem Chip.cfgOn_mk (f : Fld) : (Chip.mk x0 x1 x2 x3 x4 x5 x6 x7 x8 x9 x10 x11 x12 x13 x14 x15 x16 x17 x18 x19 x20 x21 x22 x23 x24
    x25 x26 x27 x28 x29 x30 x31 x32 x33 x34 x35 x36 x37 x38 x39 x40).cfgOn f = (Chip.ofApplied x1).cfgOn f := rfl
@[simp] theorem Chip.count_mk (k : Ctr) : (Chip.mk x0 x1 x2 x3 x4 x5 x6 x7 x8 x9 x10 x11 x12 x13 x14 x15 x16 x17 x18 x19 x20 x21 x22 x23 x24
    x25 x26 x27 x28 x29 x30 x31 x32 x33 x34 x35 x36 x37 x38 x39 x40).count k = (Chip.ofLive x3).count k := rfl
@[simp] theorem Chip.head_mk (h : Fin 24) : (Chip.mk x0 x1 x2 x3 x4 x5 x6 x7 x8 x9 x10 x11 x12 x13 x14 x15 x16 x17 x18 x19 x20 x21 x22 x23
    x24 x25 x26 x27 x28 x29 x30 x31 x32 x33 x34 x35 x36 x37 x38 x39 x40).head h = (Chip.ofHeads x9).head h := rfl
@[simp] theorem Chip.chan_mk (d : Nat) : (Chip.mk x0 x1 x2 x3 x4 x5 x6 x7 x8 x9 x10 x11 x12 x13 x14 x15 x16 x17 x18 x19 x20 x21 x22 x23 x24
    x25 x26 x27 x28 x29 x30 x31 x32 x33 x34 x35 x36 x37 x38 x39 x40).chan d = (Chip.ofChans x27).chan d := rfl
@[simp] theorem Chip.core_mk (n : Nat) : (Chip.mk x0 x1 x2 x3 x4 x5 x6 x7 x8 x9 x10 x11 x12 x13 x14 x15 x16 x17 x18 x19 x20 x21 x22 x23 x24
    x25 x26 x27 x28 x29 x30 x31 x32 x33 x34 x35 x36 x37 x38 x39 x40).core n = (Chip.ofCores x30).core n := rfl
@[simp] theorem Chip.src_mk (i : Nat) : (Chip.mk x0 x1 x2 x3 x4 x5 x6 x7 x8 x9 x10 x11 x12 x13 x14 x15 x16 x17 x18 x19 x20 x21 x22 x23 x24
    x25 x26 x27 x28 x29 x30 x31 x32 x33 x34 x35 x36 x37 x38 x39 x40).src i = (Chip.ofIcu x32).src i := rfl
@[simp] theorem Chip.group_mk (g : Nat) : (Chip.mk x0 x1 x2 x3 x4 x5 x6 x7 x8 x9 x10 x11 x12 x13 x14 x15 x16 x17 x18 x19 x20 x21 x22 x23 x24
    x25 x26 x27 x28 x29 x30 x31 x32 x33 x34 x35 x36 x37 x38 x39 x40).group g = (Chip.ofIcu x32).group g := rfl
@[simp] theorem Chip.heldSources_mk : (Chip.mk x0 x1 x2 x3 x4 x5 x6 x7 x8 x9 x10 x11 x12 x13 x14 x15 x16 x17 x18 x19 x20 x21 x22 x23 x24 x25
    x26 x27 x28 x29 x30 x31 x32 x33 x34 x35 x36 x37 x38 x39 x40).heldSources = (Chip.ofIcu x32).heldSources := rfl

end

@[simp] theorem Chip.rd_ofRegs (c : Chip) (p o : Nat) : (Chip.ofRegs c.regs).rd p o = c.rd p o := rfl
@[simp] theorem Chip.get_ofRegs (c : Chip) (f : Fld) : (Chip.ofRegs c.regs).get f = c.get f := rfl
@[simp] theorem Chip.is_ofRegs (c : Chip) (f : Fld) : (Chip.ofRegs c.regs).is f = c.is f := rfl
@[simp] theorem Chip.running_ofRegs (c : Chip) (p : Nat) : (Chip.ofRegs c.regs).running p = c.running p := rfl
@[simp] theorem Chip.pageState_ofRegs (c : Chip) (p : Nat) : (Chip.ofRegs c.regs).pageState p = c.pageState p := rfl
@[simp] theorem Chip.ofRegs_part (x : Table Word) : (Chip.ofRegs x).regs = x := rfl
@[simp] theorem Chip.used_ofApplied (c : Chip) (p o : Nat) : (Chip.ofApplied c.applied).used p o = c.used p o := rfl
@[simp] theorem Chip.cfg_ofApplied (c : Chip) (f : Fld) : (Chip.ofApplied c.applied).cfg f = c.cfg f := rfl
@[simp] theorem Chip.cfgOn_ofApplied (c : Chip) (f : Fld) : (Chip.ofApplied c.applied).cfgOn f = c.cfgOn f := rfl
@[simp] theorem Chip.ofApplied_part (x : Table Word) : (Chip.ofApplied x).applied = x := rfl
@[simp] theorem Chip.count_ofLive (c : Chip) (k : Ctr) : (Chip.ofLive c.live).count k = c.count k := rfl
@[simp] theorem Chip.ofLive_part (x : Table Nat) : (Chip.ofLive x).live = x := rfl
@[simp] theorem Chip.head_ofHeads (c : Chip) (h : Fin 24) : (Chip.ofHeads c.heads).head h = c.head h := rfl
@[simp] theorem Chip.ofHeads_part (x : Table Head) : (Chip.ofHeads x).heads = x := rfl
@[simp] theorem Chip.chan_ofChans (c : Chip) (d : Nat) : (Chip.ofChans c.chans).chan d = c.chan d := rfl
@[simp] theorem Chip.ofChans_part (x : Table Chan) : (Chip.ofChans x).chans = x := rfl
@[simp] theorem Chip.core_ofCores (c : Chip) (n : Nat) : (Chip.ofCores c.cores).core n = c.core n := rfl
@[simp] theorem Chip.ofCores_part (x : Table Core) : (Chip.ofCores x).cores = x := rfl
@[simp] theorem Chip.src_ofIcu (c : Chip) (i : Nat) : (Chip.ofIcu c.icu).src i = c.src i := rfl
@[simp] theorem Chip.group_ofIcu (c : Chip) (g : Nat) : (Chip.ofIcu c.icu).group g = c.group g := rfl
@[simp] theorem Chip.heldSources_ofIcu (c : Chip) : (Chip.ofIcu c.icu).heldSources = c.heldSources := rfl
@[simp] theorem Chip.ofIcu_part (x : Icu) : (Chip.ofIcu x).icu = x := rfl

end Sys2Proof.Machine
end
section
/-! PROOF. What reads see of the shared operations, and of a command on one chip. -/
namespace Sys2Proof.Machine

namespace State

/-- What `onUp` makes of a chip that runs. -/
theorem chip_onUp {s : State} {w : Twin} (h : (s.chip w).up = true) (f : Chip → Chip) : (s.onUp w f).chip w = f (s.chip w) := by
  rw [onUp_of_up s w f h, chip_mapChip_same]

/-- What `onHome` makes of the home of a head's port. -/
theorem chip_onHome {s : State} {w : Twin} {h : Fin 24} (hw : s.homeOf (portOf h) = some w) (f : Chip → Chip) :
    (s.onHome h f).chip w = f (s.chip w) := by
  rw [onHome_of_home s h f hw, chip_mapChip_same]

/-- `onHome` leaves the twin of the home as it was. -/
theorem chip_onHome_other {s : State} {w : Twin} {h : Fin 24} (hw : s.homeOf (portOf h) = some w) (f : Chip → Chip) :
    (s.onHome h f).chip w.other = s.chip w.other := by
  rw [onHome_of_home s h f hw, chip_mapChip_other]

end State

namespace Chip

variable (c : Chip)

/-! ## Fields -/

theorem is_put_same (f : Fld) (v : Nat) (h : f.lo + f.width ≤ 32) : (c.put f v).is f = (v % 2 ^ f.width == 1) := by
  unfold is
  rw [get_put_same c f v h]

theorem is_put_ne (f g : Fld) (v : Nat) (h : regKey g.page g.off ≠ regKey f.page f.off) : (c.put f v).is g = c.is g := by
  unfold is
  rw [get_put_ne c f g v h]

theorem is_put_apart (f g : Fld) (v : Nat) (h : f.lo + f.width ≤ 32) (hp : g.page = f.page) (ho : g.off = f.off)
    (hl : g.lo + g.width ≤ f.lo ∨ f.lo + f.width ≤ g.lo) : (c.put f v).is g = c.is g := by
  unfold is
  rw [get_put_apart c f g v h hp ho hl]

theorem rd_put_ne (f : Fld) (v p o : Nat) (h : regKey p o ≠ regKey f.page f.off) : (c.put f v).rd p o = c.rd p o := rd_wr_ne c _ _ _ _ _ h

/-- A bit read back from the field it was put in. -/
theorem is_put_bit (f : Fld) (b : Bool) (h : f.lo + f.width ≤ 32) (hw : f.width = 1) : (c.put f (bit b)).is f = b := by
  rw [is_put_same c f _ h, hw]
  cases b <;> rfl

/-! ## Events -/

theorem rd_raise (f : Fld) (p o : Nat) (h : quietReg p o = true) : (c.raise f).rd p o = c.rd p o := rd_of_quiet (raise_quiet c f) p o h
theorem get_raise (f g : Fld) (h : quietReg g.page g.off = true) : (c.raise f).get g = c.get g := get_of_quiet (raise_quiet c f) g h
theorem count_raise (f : Fld) (k : Ctr) (h : quietCtr k = true) : (c.raise f).count k = c.count k := count_of_quiet (raise_quiet c f) k h
theorem is_raise (f g : Fld) (h : quietReg g.page g.off = true) : (c.raise f).is g = c.is g := by
  unfold is
  rw [get_raise c f g h]

/-! ## Counters, and parts that no word lies in -/

@[simp] theorem rd_cnt (k : Ctr) (n p o : Nat) : (c.cnt k n).rd p o = c.rd p o := rfl
@[simp] theorem is_cnt (k : Ctr) (n : Nat) (f : Fld) : (c.cnt k n).is f = c.is f := rfl
@[simp] theorem regs_cnt (k : Ctr) (n : Nat) : (c.cnt k n).regs = c.regs := rfl
@[simp] theorem count_wr (p o : Nat) (v : Word) (k : Ctr) : (c.wr p o v).count k = c.count k := rfl
@[simp] theorem count_put (f : Fld) (v : Nat) (k : Ctr) : (c.put f v).count k = c.count k := rfl

end Chip

end Sys2Proof.Machine
end

section
/-! PROOF. The management bus (R535 to R540). -/
namespace Sys2Proof.Machine

/-- Settles O57: each clause is the branch of its command that the hypotheses name. -/
theorem managementBusComplete : Obligations.ManagementBusComplete := by
  unfold Obligations.ManagementBusComplete
  refine ⟨?_, ?_, ?_, ?_, ?_, ?_, ?_, ?_⟩
  · intro w bytes s hup hack
    refine ⟨_, rfl, ?_⟩
    simp only [State.chip_onUp hup, State.chip_onUp_other, hack]
    simp [Chip.count_cnt_same]
  · intro w p r s hup hack htx
    refine ⟨_, rfl, ?_⟩
    simp only [State.chip_onUp hup, State.chip_onUp_other, hack, htx]
    simp [Chip.count_cnt_same, Chip.showQueue]
  · intro w s hup hack
    refine ⟨_, rfl, ?_⟩
    simp [State.chip_onUp hup, hack]
  · intro w s hup hack halert
    refine ⟨_, rfl, ?_⟩
    simp [State.chip_onUp hup, hack, halert]
  · intro w s hup hsda
    refine ⟨_, rfl, ?_⟩
    simp [State.chip_onUp hup, hsda, Chip.count_cnt_same]
  · intro w s hup
    refine ⟨_, rfl, ?_⟩
    simp [State.chip_onUp hup, Chip.raise_is]
  · intro w s hup hsda
    refine ⟨_, rfl, ?_⟩
    simp [State.chip_onUp hup, hsda, Chip.raise_is]
  · intro w command s hup hack hlen
    refine ⟨_, rfl, ?_⟩
    simp [State.chip_onUp hup, hack, Chip.mctpSend, Nat.not_le.2 hlen, Chip.showQueue, Chip.is_put_bit]
end Sys2Proof.Machine
end

section
/-! PROOF. The TAP (R569 to R571). -/
namespace Sys2Proof.Machine

namespace Chip

variable (c : Chip)

/-- The code of a load that takes the boundary over, while nothing is driven and no save is under way. -/
theorem tapCode_boundary (n : Nat) (hc : c.tap.closed = false) (ho : ∀ p : Fin 6, c.ownOut p = false) (hs : c.svcState ∈ [0, 2])
    (hn : n ∈ boundaryCodes) : c.tapCode n = n := by
  have hown : (allPorts.any fun p => c.ownOut p) = false := by simp [ho]
  have hsvc : (c.svcState == 0 || c.svcState == 2) = true := by simpa using hs
  simp only [boundaryCodes, List.mem_cons, List.not_mem_nil, or_false] at hn
  rcases hn with rfl | rfl | rfl | rfl | rfl <;> simp [tapCode, hc, hown, hsvc, boundaryCodes]

/-- A load that takes no boundary over changes the instruction, the override and what is shown of them. -/
theorem tapLoad_of_not_boundary (code n : Nat) (hn : c.tapCode code = n) (hb : n ∉ boundaryCodes) :
    (c.tapLoad code).tap = { c.tap with instr := n, own := if n = 0x22 then c.tap.own else none } ∧
      (c.tapLoad code).is F.DBG_DBG_STATE_TAP_ACTIVE = (n != 2 && n != 0xFF) ∧
      (c.tapLoad code).is F.DBG_DBG_STATE_OVERRIDE = (if n = 0x22 then c.tap.own else none).isSome ∧
      (c.tapLoad code).rst = c.rst ∧ (c.tapLoad code).trm = c.trm := by
  unfold tapLoad
  simp (disch := decide) [hn, hb, is_put_apart, is_put_bit]

/-- What a reset keeps of the resets' record, of the tiers and of the TAP. -/
theorem inReset_keeps (cause : Nat) : (c.inReset cause).rst = { c.rst with step := 0, releaseRound := 0 } ∧
    (c.inReset cause).trm = { packed := c.trm.packed, packedPoison := c.trm.packedPoison } ∧ (c.inReset cause).tap = c.tap := by
  have hfold : ∀ (l : List Fld) (n : Chip), (l.foldl (fun n f => n.put f (c.get f)) n).rest = n.rest := fun l n =>
    foldl_rest _ (fun n f => put_rest n f _) l n
  unfold inReset
  dsimp only
  split <;> simp [of_rest (hfold (keptFields cause) _)]

/-- A load that takes the boundary over for the first time takes the chip into reset. -/
theorem tapLoad_of_boundary (code : Nat) (h : c.tapCode code ∈ boundaryCodes) (he : c.rst.extested = false) :
    (c.tapLoad code).tap.instr = c.tapCode code ∧ (c.tapLoad code).rst.extested = true ∧ (c.tapLoad code).up = false ∧
      (c.tapLoad code).trm.front = [] ∧ (c.tapLoad code).trm.packed = c.trm.packed := by
  unfold tapLoad
  simp [h, he, inReset_keeps, up]

end Chip

/-- Settles O60: each code loads as the instruction it names, or as BYPASS. -/
theorem tapComplete : Obligations.TapComplete := by
  unfold Obligations.TapComplete
  refine ⟨?_, ?_, ?_, ?_, ?_⟩
  · intro w s hc x hx
    have hcode : ∀ n ∈ [1, 2, 0x20], (s.chip w).tapCode n = n ∧ n ∉ Chip.boundaryCodes ∧ n ≠ 0x22 ∧ n ≠ 0xFF := by
      simp [Chip.tapCode, hc, Chip.boundaryCodes]
    have hload : ∀ n ∈ [1, 2, 0x20], ∃ t, Host.Outcome.next (s.mapChip w fun c => c.tapLoad n) = (.next t : Host.Outcome State Fault Refusal) ∧
        (t.chip w).tap.instr = n ∧ (t.chip w).tap.own = none ∧ (t.chip w).is F.DBG_DBG_STATE_TAP_ACTIVE = decide (n ≠ 2) ∧
        (t.chip w).rst = (s.chip w).rst ∧ (t.chip w).trm = (s.chip w).trm ∧ t.chip w.other = s.chip w.other := by
      intro n hn
      obtain ⟨hsame, hb, ho, hf⟩ := hcode n hn
      obtain ⟨htap, hact, -, hrst, htrm⟩ := (s.chip w).tapLoad_of_not_boundary n n hsame hb
      refine ⟨_, rfl, ?_⟩
      simp [htap, hact, hrst, htrm, ho, bne, beq_eq_false_iff_ne.2 hf, Bool.beq_eq_decide_eq]
    simp only [List.mem_cons, List.not_mem_nil, or_false] at hx
    rcases hx with rfl | rfl | rfl
    · exact hload 1 (by decide)
    · exact hload 2 (by decide)
    · exact hload 0x20 (by decide)
  · intro w s hc ho hs he x hx
    have hload : ∀ n ∈ Chip.boundaryCodes, ∃ t, Host.Outcome.next (s.mapChip w fun c => c.tapLoad n) = (.next t : Host.Outcome State Fault Refusal) ∧
        (t.chip w).tap.instr = n ∧ (t.chip w).rst.extested = true ∧ (t.chip w).up = false ∧ (t.chip w).trm.front = [] ∧
        (t.chip w).trm.packed = (s.chip w).trm.packed ∧ t.chip w.other = s.chip w.other := by
      intro n hn
      have hsame := (s.chip w).tapCode_boundary n hc ho hs hn
      obtain ⟨hinstr, hext, hup, hfront, hpacked⟩ := (s.chip w).tapLoad_of_boundary n (hsame.symm ▸ hn) he
      refine ⟨_, rfl, ?_⟩
      simp [hinstr, hext, hup, hfront, hpacked, hsame]
    simp only [List.mem_cons, List.not_mem_nil, or_false] at hx
    rcases hx with rfl | rfl | rfl | rfl | rfl
    · exact hload 0 (by decide)
    · exact hload 3 (by decide)
    · exact hload 4 (by decide)
    · exact hload 8 (by decide)
    · exact hload 9 (by decide)
  · intro w own dead fence s hc
    have hcode : (s.chip w).tapCode 0x22 = 0x22 := by simp [Chip.tapCode, hc, Chip.boundaryCodes]
    obtain ⟨htap, -, hover, hrst, -⟩ := Chip.tapLoad_of_not_boundary { s.chip w with tap := { (s.chip w).tap with own := some (own, dead, fence) } }
      0x22 0x22 hcode (by decide)
    refine ⟨_, rfl, ?_⟩
    simp only [State.chip_mapChip_same, State.chip_mapChip_other, hcode, if_true, htap, hover, hrst]
    simp
  · intro w code s hcode
    have hbypass : (s.chip w).tapCode code.toNat = 0xFF := by
      simp only [List.mem_cons, List.not_mem_nil, or_false, not_or] at hcode
      simp [Chip.tapCode, Chip.closedCodes, Chip.boundaryCodes, hcode]
    obtain ⟨htap, -, -, hrst, htrm⟩ := (s.chip w).tapLoad_of_not_boundary code.toNat 0xFF hbypass (by decide)
    refine ⟨_, rfl, ?_⟩
    simp [htap, hrst, htrm]
  · intro w s
    have hcode : ∀ c : Chip, c.tapCode 2 = 2 := by
      intro c
      simp [Chip.tapCode, Chip.closedCodes, Chip.boundaryCodes]
    obtain ⟨htap, -, -, hrst, -⟩ := Chip.tapLoad_of_not_boundary
      { s.chip w with tap := { (s.chip w).tap with closed := (s.chip w).tap.closed || (s.chip w).sec.fieldClosed } } 2 2 (hcode _) (by decide)
    refine ⟨_, rfl, ?_⟩
    simp only [State.chip_mapChip_same, State.chip_mapChip_other]
    simp [htap, hrst, Chip.is_put_bit]
end Sys2Proof.Machine
end

section
/-! PROOF. Fuses, the owner's key hash, closing debug, and a domain's crypto-erase (R559 to R576). -/
namespace Sys2Proof.Machine

/-- A table filled at the numbers below `n` holds what each of them was given. -/
theorem Table.get_foldl_set {V : Type} [DecidableEq V] (d f : Nat → V) (n k : Nat) (hk : k < n) (t : Table V) :
    Table.get d ((List.range n).foldl (fun t i => Table.set d t i (f i)) t) k = f k := by
  induction n with
  | zero => omega
  | succ n ih =>
    rw [List.range_succ, List.foldl_append]
    simp only [List.foldl_cons, List.foldl_nil]
    by_cases h : k = n
    · subst h
      exact Table.get_set_same ..
    · rw [Table.get_set_ne _ _ _ _ _ h]
      exact ih (by omega)

namespace Chip

variable (c : Chip)

/-- Showing the fuses changes no key. -/
theorem showFuses_sec : c.showFuses.sec = c.sec := by
  have hfold : ∀ (f g : Nat → Nat) (l : List Nat) (d : Chip),
      (l.foldl (fun c w => (c.put (F.BOOT_KEY_HASH_S w) (f w)).put (F.BOOT_KEY_HASH_O w) (g w)) d).sec = d.sec := by
    intro f g l
    induction l with
    | nil => exact fun d => rfl
    | cons w l ih => exact fun d => ih _
  unfold showFuses
  simp [hfold]

/-- A checkpoint counts one more, and changes no key. -/
theorem checkpoint_keeps : c.checkpoint.svc.checkpoint = c.svc.checkpoint + 1 ∧ c.checkpoint.sec = c.sec := by
  have hrow : ∀ (l : List Nat) (d : Chip),
      (l.foldl (fun c r => let y := c.row r; c.setRow r { y with state := 3, todo := y.live }) d).svc = d.svc ∧
        (l.foldl (fun c r => let y := c.row r; c.setRow r { y with state := 3, todo := y.live }) d).sec = d.sec := by
    intro l
    induction l with
    | nil => exact fun d => ⟨rfl, rfl⟩
    | cons r l ih => exact fun d => ih _
  unfold checkpoint
  simp only [(hrow _ _).1, (hrow _ _).2, and_self]

end Chip

namespace State

/-- What holds of a chip that stays as it is, and of every chip and its image, holds of each chip before and after `onHome`. -/
theorem chip_onHome_of (s : State) {P : Chip → Chip → Prop} (h : Fin 24) (f : Chip → Chip) (v : Twin) (hsame : ∀ c, P c c) (hf : ∀ c, P c (f c)) :
    P (s.chip v) ((s.onHome h f).chip v) := by
  unfold onHome
  split
  next w _ =>
    by_cases hv : v = w
    · subst hv
      rw [chip_mapChip_same]
      exact hf _
    · rw [chip_mapChip_ne _ _ _ _ hv]
      exact hsame _
  next => exact hsame _

end State

/-- What follows the end of an erase changes no key and commits no checkpoint. -/
theorem State.eraseEnded_keeps (s : State) (d : Nat) (v : Twin) :
    ((s.eraseEnded d).chip v).sec = (s.chip v).sec ∧ ((s.eraseEnded d).chip v).svc = (s.chip v).svc := by
  have hreport : ∀ c : Chip, c.reportErase.sec = c.sec ∧ c.reportErase.svc = c.svc := by
    intro c
    unfold Chip.reportErase
    split <;> simp
  have hend : ∀ (h : Fin 24) (c : Chip), (c.endSecureErase h).sec = c.sec ∧ (c.endSecureErase h).svc = c.svc := by
    intro h c
    unfold Chip.endSecureErase
    split <;> simp
  have hheads : ∀ (l : List (Fin 24)) (s : State), ((l.foldl (fun s h => s.onHome h (Chip.endSecureErase h)) s).chip v).sec = (s.chip v).sec ∧
      ((l.foldl (fun s h => s.onHome h (Chip.endSecureErase h)) s).chip v).svc = (s.chip v).svc := by
    intro l
    induction l with
    | nil => exact fun s => ⟨rfl, rfl⟩
    | cons h l ih =>
      intro s
      obtain ⟨hsec, hsvc⟩ := ih (s.onHome h (Chip.endSecureErase h))
      have hone := s.chip_onHome_of (P := fun c d => d.sec = c.sec ∧ d.svc = c.svc) h (Chip.endSecureErase h) v (fun c => ⟨rfl, rfl⟩) (hend h)
      exact ⟨hsec.trans hone.1, hsvc.trans hone.2⟩
  unfold State.eraseEnded
  dsimp only
  split
  · exact ⟨rfl, rfl⟩
  · split
    · rw [(hheads _ _).1, (hheads _ _).2]
      simp [hreport]
    · simp [hreport]

/-- Settles O59: each clause is the branch of its command that the hypotheses name. -/
theorem securityComplete : Obligations.SecurityComplete := by
  unfold Obligations.SecurityComplete
  refine ⟨?_, ?_, ?_, ?_, ?_⟩
  · intro w n s hup hsvn himage
    refine ⟨_, rfl, ?_⟩
    simp only [State.chip_onUp hup, State.chip_onUp_other, Chip.ifMachine, Chip.svnAdvance, if_neg (Nat.not_le.2 hsvn)]
    refine ⟨rfl, ?_, rfl, trivial⟩
    rw [Chip.get_put_same _ _ _ (by decide)]
    exact Nat.mod_eq_of_lt (show max _ _ < 128 by omega)
  · intro w rq s hup hrq hset
    refine ⟨_, rfl, ?_⟩
    simp only [State.chip_onUp hup, State.chip_onUp_other, Chip.ifWrites, hrq, if_true, Chip.ownerProg, hset, if_false, Bool.false_eq_true, Chip.showFuses_sec]
    exact ⟨trivial, fun k => Table.get_foldl_set _ _ 12 k.val k.isLt [], trivial, trivial⟩
  · intro w n s hup hsb hkey
    refine ⟨_, rfl, ?_⟩
    simp [State.chip_onUp hup, Chip.ifMachine, Chip.closeGo, Chip.closeCode, hsb, hkey, Chip.is_put_same]
  · intro w rq d s hacc hrq hrun hvalid
    have hexec : exec (.eraseReq rq d) s =
        .next (s.mapChip w fun c => (c.putCfg F.KEY_ERASE_REQ_DOMAIN d.val).postEffect (.eraseKey d.val none) true) := by
      show execEraseReq rq d s = _
      simp [execEraseReq, hacc, hrq, State.eraseReq, hrun, hvalid]
    refine ⟨_, hexec, ?_⟩
    simp only [State.chip_mapChip_same, State.chip_mapChip_other]
    refine ⟨?_, ?_, by simp [Chip.putCfg, Chip.setUsed], trivial⟩
    · rw [Chip.get_of_quiet (Chip.postEffect_quiet ..) _ rfl]
      exact (Chip.get_put_same _ _ _ (by decide)).trans (Nat.mod_eq_of_lt d.isLt)
    · simp [Chip.postEffect]
  · intro w d s hup herase
    refine ⟨_, rfl, ?_⟩
    rw [if_pos (by rw [hup, herase]; rfl)]
    rw [(State.eraseEnded_keeps _ _ _).1, (State.eraseEnded_keeps _ _ _).2, State.chip_mapChip_same]
    unfold Chip.keyGone
    rw [(Chip.checkpoint_keeps _).1, (Chip.checkpoint_keeps _).2]
    simp [dropN]
end Sys2Proof.Machine
end

section
/-! PROOF. What the interrupt controller does when it decides presentations anew (R498, R501, R504): it presents and wakes, and changes nothing else. -/
namespace Sys2Proof.Machine

/-- A chip without what presentations and wake-ups change. -/
def Chip.awayFromIcu (c : Chip) : Chip := { c with regs := [], live := [], icu := {}, cores := [] }

/-- `d` differs from `c` in what is presented, in what sleeps, and in what is shown and counted of that. -/
structure IcuKept (c d : Chip) : Prop where
  rest : d.awayFromIcu = c.awayFromIcu
  words : ∀ p o, o < 4096 → (p = 0x115 → o < 0x800) → d.rd p o = c.rd p o
  counts : ∀ k : Ctr, k.slot < 128 → k.page ≠ 0x117 → d.count k = c.count k
  src : ∀ i, { d.src i with presented := none } = { c.src i with presented := none }
  groups : d.icu.groups = c.icu.groups
  core : ∀ n, { d.core n with asleep := false } = { c.core n with asleep := false }
  asleep : ∀ n, (c.core n).asleep = false → (d.core n).asleep = false

namespace IcuKept

theorem refl (c : Chip) : IcuKept c c := ⟨rfl, fun _ _ _ _ => rfl, fun _ _ _ => rfl, fun _ => rfl, rfl, fun _ => rfl, fun _ h => h⟩

theorem trans {c d e : Chip} (h : IcuKept c d) (k : IcuKept d e) : IcuKept c e where
  rest := k.rest.trans h.rest
  words p o ho hp := (k.words p o ho hp).trans (h.words p o ho hp)
  counts j hs hp := (k.counts j hs hp).trans (h.counts j hs hp)
  src i := (k.src i).trans (h.src i)
  groups := k.groups.trans h.groups
  core n := (k.core n).trans (h.core n)
  asleep n hn := k.asleep n (h.asleep n hn)

theorem foldl {α : Type} (g : Chip → α → Chip) (l : List α) : ∀ c, (∀ c, ∀ x ∈ l, IcuKept c (g c x)) → IcuKept c (l.foldl g c) := by
  induction l with
  | nil => exact fun c _ => refl c
  | cons x l ih =>
    exact fun c h => (h c x (List.mem_cons_self ..)).trans (ih (g c x) fun c y hy => h c y (List.mem_cons_of_mem _ hy))

/-- A change of what a source is presented to. -/
theorem mapSrc (c : Chip) (i : Nat) (f : IntSource → IntSource) (hf : ∀ x, { f x with presented := none } = { x with presented := none }) :
    IcuKept c (c.mapSrc i f) := by
  refine ⟨rfl, fun _ _ _ _ => rfl, fun _ _ _ => rfl, fun j => ?_, rfl, fun _ => rfl, fun _ h => h⟩
  show ({ Table.get (fun _ => {}) (c.icu.sources.set (fun _ => {}) i (f (c.src i))) j with presented := none } : IntSource) = _
  rw [Table.get_set]
  split
  · next h => rw [h, hf]
  · rfl

theorem presentTo (c : Chip) (n : Nat) : IcuKept c (c.presentTo n) := by
  unfold Chip.presentTo
  refine foldl _ _ _ fun d i _ => ?_
  split
  · exact mapSrc d i _ fun _ => rfl
  · split
    · exact mapSrc d i _ fun _ => rfl
    · exact refl d

/-- A word that shows what sleeps. -/
theorem put (c : Chip) (f : Fld) (v : Nat) (hp : f.page = 0x115) (hl : 0x800 ≤ f.off) (ho : f.off < 4096) : IcuKept c (c.put f v) := by
  refine ⟨rfl, fun p o hlt hne => Chip.rd_put_ne _ _ _ _ _ fun h => ?_, fun _ _ _ => rfl, fun _ => rfl, rfl, fun _ => rfl, fun _ h => h⟩
  obtain ⟨rfl, rfl⟩ := regKey_inj hlt ho h
  have := hne hp
  omega

/-- A count of the interrupt controller's own. -/
theorem cnt (c : Chip) (k : Ctr) (n : Nat) (hp : k.page = 0x117) (hs : k.slot < 128) : IcuKept c (c.cnt k n) := by
  refine ⟨rfl, fun _ _ _ _ => rfl, fun j hj hne => ?_, fun _ => rfl, rfl, fun _ => rfl, fun _ h => h⟩
  exact Chip.count_cnt_ne _ _ _ _ fun h => hne ((congrArg Ctr.page (ctrKey_inj hj hs h)).trans hp)

/-- A core that wakes. -/
theorem mapCore (c : Chip) (n : Nat) : IcuKept c (c.mapCore n fun x => { x with asleep := false }) := by
  have hcore : ∀ m, Chip.core (c.mapCore n fun x => { x with asleep := false }) m = if m = n then { c.core n with asleep := false } else c.core m :=
    fun m => Table.get_set ..
  refine ⟨rfl, fun _ _ _ _ => rfl, fun _ _ _ => rfl, fun _ => rfl, rfl, fun m => ?_, fun m hm => ?_⟩
  · rw [hcore]
    split
    · next h => rw [h]
    · rfl
  · rw [hcore]
    split
    · rfl
    · exact hm

theorem wake (c : Chip) (n : Nat) (hn : n < 8) : IcuKept c (c.wake n) := by
  unfold Chip.wake
  dsimp only
  split
  · exact (mapCore c n).trans ((put _ _ _ rfl (by dsimp only; omega) (by dsimp only; omega)).trans (cnt _ _ _ rfl (by dsimp only; omega)))
  · exact refl c

theorem icuUpdate (c : Chip) : IcuKept c c.icuUpdate := by
  unfold Chip.icuUpdate
  exact foldl _ _ _ fun d n hn => (presentTo d n).trans (wake _ n (List.mem_range.1 hn))

/-! ## What follows of it -/

variable {c d : Chip} (h : IcuKept c d)
include h

theorem get (f : Fld) (ho : f.off < 4096) (hp : f.page = 0x115 → f.off < 0x800) : d.get f = c.get f := by
  unfold Chip.get
  rw [h.words _ _ ho hp]

theorem is (f : Fld) (ho : f.off < 4096) (hp : f.page = 0x115 → f.off < 0x800) : d.is f = c.is f := by
  unfold Chip.is
  rw [h.get f ho hp]

theorem events : EventsKept c d := by
  intro p b hb
  rwa [h.words p 0x010 (by decide) fun _ => by decide]

theorem count_src (i : Nat) : (d.src i).count = (c.src i).count := by
  show ({ d.src i with presented := none } : IntSource).count = _
  rw [h.src]
theorem serving (i : Nat) : (d.src i).serving = (c.src i).serving := by
  show ({ d.src i with presented := none } : IntSource).serving = _
  rw [h.src]
theorem fired (i : Nat) : (d.src i).fired = (c.src i).fired := by
  show ({ d.src i with presented := none } : IntSource).fired = _
  rw [h.src]
theorem input (i : Nat) : (d.src i).input = (c.src i).input := by
  show ({ d.src i with presented := none } : IntSource).input = _
  rw [h.src]

/-- A core that does not sleep stays as it was. -/
theorem core_awake (n : Nat) (hn : (c.core n).asleep = false) : d.core n = c.core n := by
  have hcore := h.core n
  have hd := h.asleep n hn
  generalize d.core n = x at *
  generalize c.core n = y at *
  cases x
  cases y
  simp_all

end IcuKept
end Sys2Proof.Machine
end

section
/-! PROOF. What arrivals of interrupt sources change (R497, R500): the sources, their groups and their counts, what sleeps, and what an event changes. -/
namespace Sys2Proof.Machine

/-- `d` differs from `c` in what the interrupt controller holds, shows and counts, in what sleeps, and in what an event changes. -/
structure BesideIcu (c d : Chip) : Prop where
  rest : d.rest.awayFromIcu = c.rest.awayFromIcu
  words : ∀ p o, quietReg p o = true → (p = 0x115 → o < 0x800) → d.rd p o = c.rd p o
  counts : ∀ k : Ctr, quietCtr k = true → k.page ≠ 0x117 → k.page ≠ 0x116 → d.count k = c.count k
  events : EventsKept c d
  serving : ∀ i, (d.src i).serving = (c.src i).serving
  core : ∀ n, { d.core n with asleep := false } = { c.core n with asleep := false }
  asleep : ∀ n, (c.core n).asleep = false → (d.core n).asleep = false

namespace BesideIcu

theorem refl (c : Chip) : BesideIcu c c :=
  ⟨rfl, fun _ _ _ _ => rfl, fun _ _ _ _ => rfl, .refl c, fun _ => rfl, fun _ => rfl, fun _ h => h⟩

theorem trans {c d e : Chip} (h : BesideIcu c d) (k : BesideIcu d e) : BesideIcu c e where
  rest := k.rest.trans h.rest
  words p o ho hp := (k.words p o ho hp).trans (h.words p o ho hp)
  counts j hq h1 h2 := (k.counts j hq h1 h2).trans (h.counts j hq h1 h2)
  events := h.events.trans k.events
  serving i := (k.serving i).trans (h.serving i)
  core n := (k.core n).trans (h.core n)
  asleep n hn := k.asleep n (h.asleep n hn)

theorem foldl {α : Type} (g : Chip → α → Chip) (l : List α) (h : ∀ c x, BesideIcu c (g c x)) : ∀ c, BesideIcu c (l.foldl g c) := by
  induction l with
  | nil => exact refl
  | cons x l ih => exact fun c => (h c x).trans (ih (g c x))

theorem of_icuKept {c d : Chip} (h : IcuKept c d) : BesideIcu c d where
  rest := congrArg (fun x : Chip => { x with heads := [], link := {}, twe := {}, mctpOut := [] }) h.rest
  words p o hq hp := h.words p o (by simp only [quietReg, Bool.and_eq_true, decide_eq_true_eq] at hq; exact hq.1.1.1.1) hp
  counts k hq h7 _ := h.counts k (by simp only [quietCtr, Bool.and_eq_true, decide_eq_true_eq] at hq; exact hq.1.1.1) h7
  events := h.events
  serving := h.serving
  core := h.core
  asleep := h.asleep

theorem raise (c : Chip) (f : Fld) : BesideIcu c (c.raise f) where
  rest := congrArg Chip.awayFromIcu (Chip.raise_rest c f)
  words p o hq _ := Chip.rd_raise c f p o hq
  counts k hq _ _ := Chip.count_raise c f k hq
  events := .raise c f
  serving i := by simp [Chip.src]
  core n := by simp [Chip.core]
  asleep n hn := by simpa [Chip.core] using hn

theorem cnt (c : Chip) (k : Ctr) (n : Nat) (hp : k.page = 0x117 ∨ k.page = 0x116) (hs : k.slot < 128) : BesideIcu c (c.cnt k n) := by
  refine ⟨rfl, fun _ _ _ _ => rfl, fun j hq h7 h6 => ?_, .cnt c k n, fun _ => rfl, fun _ => rfl, fun _ h => h⟩
  have hj : j.slot < 128 := by
    simp only [quietCtr, Bool.and_eq_true, decide_eq_true_eq] at hq
    exact hq.1.1.1
  refine Chip.count_cnt_ne _ _ _ _ fun h => ?_
  have := congrArg Ctr.page (ctrKey_inj hj hs h)
  omega

theorem setGroup (c : Chip) (g : Nat) (x : Group) : BesideIcu c (c.setGroup g x) :=
  ⟨rfl, fun _ _ _ _ => rfl, fun _ _ _ _ => rfl, .of_regs rfl, fun _ => rfl, fun _ => rfl, fun _ h => h⟩

/-- A change of a source that leaves what it is in service on. -/
theorem mapSrc (c : Chip) (i : Nat) (f : IntSource → IntSource) (hf : ∀ x, (f x).serving = x.serving) : BesideIcu c (c.mapSrc i f) := by
  refine ⟨rfl, fun _ _ _ _ => rfl, fun _ _ _ _ => rfl, .of_regs rfl, fun j => ?_, fun _ => rfl, fun _ h => h⟩
  show (Table.get (fun _ => {}) (c.icu.sources.set (fun _ => {}) i (f (c.src i))) j).serving = _
  rw [Table.get_set]
  split
  · next h => rw [h, hf]
  · rfl

theorem fireGroup (c : Chip) (g : Nat) (hg : g < 64) : BesideIcu c (c.fireGroup g) := by
  unfold Chip.fireGroup
  refine trans (foldl _ _ (fun d i => ?_) c) ((setGroup _ _ _).trans (cnt _ _ _ (.inr rfl) (by dsimp only; omega)))
  split
  · exact mapSrc d i _ fun _ => rfl
  · exact refl d

/-- The group of a source has six bits. -/
theorem srcGroup_lt (c : Chip) (i : Nat) : c.srcGroup i < 64 := bitsOf_lt _ _ _

/-- The group that an arrival is collected in, which fires once it holds enough. -/
theorem collect (c : Chip) (i : Nat) (x : Group) (b : Prop) [Decidable b] :
    BesideIcu c (if b then (c.setGroup (c.srcGroup i) x).fireGroup (c.srcGroup i) else c.setGroup (c.srcGroup i) x) := by
  split
  · exact (setGroup _ _ _).trans (fireGroup _ _ (srcGroup_lt c i))
  · exact setGroup _ _ _

theorem arrival (c : Chip) (i : Nat) : BesideIcu c (c.arrival i) := by
  unfold Chip.arrival
  split
  · exact refl c
  · extract_lets n sat d e g k since x f
    have hd : BesideIcu c d := mapSrc c i _ fun _ => rfl
    have he : BesideIcu d e := by
      unfold e
      split
      · exact (cnt _ _ _ (.inl rfl) (by decide)).trans (raise _ _)
      · exact refl d
    have hf : BesideIcu e f := by
      unfold f
      split
      · exact refl e
      · exact collect e i _ _
    exact hd.trans (he.trans (hf.trans (of_icuKept (.icuUpdate f))))

theorem pulse (c : Chip) (i : Nat) : BesideIcu c (c.pulse i) := arrival c i

/-! ## What follows of it -/

variable {c d : Chip} (h : BesideIcu c d)
include h

theorem get (f : Fld) (hq : quietReg f.page f.off = true) (hp : f.page = 0x115 → f.off < 0x800) : d.get f = c.get f := by
  unfold Chip.get
  rw [h.words _ _ hq hp]

theorem is (f : Fld) (hq : quietReg f.page f.off = true) (hp : f.page = 0x115 → f.off < 0x800) : d.is f = c.is f := by
  unfold Chip.is
  rw [h.get f hq hp]

/-- The parts of a chip that lie apart from the interrupt controller and from what an event changes. -/
theorem parts : d.applied = c.applied ∧ d.clk = c.clk ∧ d.mail = c.mail ∧ d.tags = c.tags ∧ d.trm = c.trm ∧ d.dram = c.dram ∧
    d.svc = c.svc ∧ d.efc = c.efc ∧ d.wdt = c.wdt ∧ d.psq = c.psq ∧ d.thm = c.thm ∧ d.mti = c.mti ∧ d.rst = c.rst ∧ d.cbl = c.cbl := by
  have hr {α : Type} (f : Chip → α) : f d.rest.awayFromIcu = f c.rest.awayFromIcu := congrArg f h.rest
  exact ⟨hr Chip.applied, hr Chip.clk, hr Chip.mail, hr Chip.tags, hr Chip.trm, hr Chip.dram,
    hr Chip.svc, hr Chip.efc, hr Chip.wdt, hr Chip.psq, hr Chip.thm, hr Chip.mti, hr Chip.rst, hr Chip.cbl⟩

/-- A core that does not sleep stays as it was. -/
theorem core_awake (n : Nat) (hn : (c.core n).asleep = false) : d.core n = c.core n := by
  have hcore := h.core n
  have hd := h.asleep n hn
  generalize d.core n = x at *
  generalize c.core n = y at *
  cases x
  cases y
  simp_all

end BesideIcu
end Sys2Proof.Machine
end

section
/-! PROOF. Roles and OWN lines of the host ports (R182, R183): what a change of them leaves as it was. -/
namespace Sys2Proof.Machine

/-- `d` differs from `c` in the words of the host ports and of the pair's roles, in the heads, and in what an event changes. -/
structure BesidePorts (c d : Chip) : Prop where
  rest : d.rest = c.rest
  words : ∀ p o, quietReg p o = true → p ≠ 0x070 → ¬(0x200 ≤ p ∧ p < 0x300) → d.rd p o = c.rd p o
  events : EventsKept c d

namespace BesidePorts

theorem refl (c : Chip) : BesidePorts c c := ⟨rfl, fun _ _ _ _ _ => rfl, .refl c⟩

theorem trans {c d e : Chip} (h : BesidePorts c d) (k : BesidePorts d e) : BesidePorts c e where
  rest := k.rest.trans h.rest
  words p o hq h7 h2 := (k.words p o hq h7 h2).trans (h.words p o hq h7 h2)
  events := h.events.trans k.events

theorem foldl {α : Type} (g : Chip → α → Chip) (l : List α) (h : ∀ c x, BesidePorts c (g c x)) : ∀ c, BesidePorts c (l.foldl g c) := by
  induction l with
  | nil => exact refl
  | cons x l ih => exact fun c => (h c x).trans (ih (g c x))

theorem foldl_mem {α : Type} (g : Chip → α → Chip) (l : List α) (h : ∀ c, ∀ x ∈ l, BesidePorts c (g c x)) : ∀ c, BesidePorts c (l.foldl g c) := by
  induction l with
  | nil => exact refl
  | cons x l ih =>
    exact fun c => (h c x (List.mem_cons_self ..)).trans (ih (fun c y hy => h c y (List.mem_cons_of_mem _ hy)) (g c x))

/-- A word of a host port's pages. -/
theorem put (c : Chip) (f : Fld) (v : Nat) (hp : 0x200 ≤ f.page ∧ f.page < 0x300 ∨ f.page = 0x070) (ho : f.off < 4096) (he : f.off ≠ 0x010) :
    BesidePorts c (c.put f v) := by
  refine ⟨Chip.put_rest c f v, fun p o hq h7 h2 => Chip.rd_put_ne _ _ _ _ _ fun h => ?_, .put c f v ho he⟩
  have hlt : o < 4096 := by
    simp only [quietReg, Bool.and_eq_true, decide_eq_true_eq] at hq
    exact hq.1.1.1.1
  obtain ⟨rfl, -⟩ := regKey_inj hlt ho h
  rcases hp with hp | hp
  · exact h2 hp
  · exact h7 hp

theorem raise (c : Chip) (f : Fld) : BesidePorts c (c.raise f) :=
  ⟨Chip.raise_rest c f, fun p o hq _ _ => Chip.rd_raise c f p o hq, .raise c f⟩

theorem cnt (c : Chip) (k : Ctr) (n : Nat) : BesidePorts c (c.cnt k n) := ⟨rfl, fun _ _ _ _ _ => rfl, .cnt c k n⟩
theorem mapHead (c : Chip) (h : Fin 24) (f : Head → Head) : BesidePorts c (c.mapHead h f) := ⟨rfl, fun _ _ _ _ _ => rfl, .mapHead c h f⟩

/-- A word of the carbon or the lanes of a host port. -/
theorem putPort (c : Chip) (p : Fin 6) (k : Nat) (f : Fld) (v : Nat) (hp : f.page = 0x200 + k + 4 * p.val) (hk : k < 4) (ho : f.off < 4096)
    (he : 0x010 < f.off) : BesidePorts c (c.put f v) := put c f v (.inl (by omega)) ho (by omega)

theorem linkPos_lt (h : Fin 24) : linkPos h < 4 := Nat.mod_lt _ (by decide)

theorem loadCoefs (c : Chip) (h : Fin 24) : BesidePorts c (c.loadCoefs h) := by
  have hk := linkPos_lt h
  unfold Chip.loadCoefs
  refine trans ?_ (putPort _ (portOf h) 1 _ _ rfl (by decide) (by dsimp only; omega) (by dsimp only; omega))
  refine trans ?_ (putPort _ (portOf h) 1 _ _ rfl (by decide) (by dsimp only; omega) (by dsimp only; omega))
  refine trans ?_ (putPort _ (portOf h) 1 _ _ rfl (by decide) (by dsimp only; omega) (by dsimp only; omega))
  exact putPort _ (portOf h) 1 _ _ rfl (by decide) (by dsimp only; omega) (by dsimp only; omega)

theorem setTrack (c : Chip) (h : Fin 24) (st : Nat) : BesidePorts c (c.setTrack h st) := by
  have hk := linkPos_lt h
  exact putPort _ (portOf h) 1 _ _ rfl (by decide) (by dsimp only; omega) (by dsimp only; omega)

theorem acquire (c : Chip) (h : Fin 24) : BesidePorts c (c.acquire h) := (setTrack c h 1).trans (mapHead _ _ _)

theorem setLocks (c : Chip) (h : Fin 24) (on : Bool) : BesidePorts c (c.setLocks h on) := by
  have hk := linkPos_lt h
  unfold Chip.setLocks
  extract_lets p d
  have hd : BesidePorts c d := by
    refine trans ?_ (putPort _ (portOf h) 1 _ _ rfl (by decide) (by dsimp only; omega) (by dsimp only; omega))
    exact putPort _ (portOf h) 1 _ _ rfl (by decide) (by dsimp only; omega) (by dsimp only; omega)
  refine hd.trans ?_
  refine foldl_mem _ _ (fun d l hl => ?_) _
  have := List.mem_range.1 hl
  split
  · exact putPort _ (portOf h) 2 _ _ rfl (by decide) (by dsimp only; omega) (by dsimp only; omega)
  · exact refl d

theorem stopTracking (c : Chip) (h : Fin 24) : BesidePorts c (c.stopTracking h) := by
  have hk := linkPos_lt h
  unfold Chip.stopTracking
  refine trans ?_ (setLocks _ h false)
  refine trans ?_ (putPort _ (portOf h) 1 _ _ rfl (by decide) (by dsimp only; omega) (by dsimp only; omega))
  exact (setTrack c h 0).trans (mapHead _ _ _)

theorem setRole (c : Chip) (p : Fin 6) (r : Nat) : BesidePorts c (c.setRole p r) := by
  unfold Chip.setRole
  extract_lets old d e
  have hd : BesidePorts c d := put _ _ _ (.inr rfl) (show 0x800 < 4096 by decide) (show 0x800 ≠ 0x010 by decide)
  have he : BesidePorts d e := by
    unfold e
    split
    · exact refl d
    · exact (putPort _ p 0 _ _ rfl (by decide) (by dsimp only; omega) (by dsimp only; omega)).trans ((cnt _ _ _).trans (raise _ _))
  refine (hd.trans he).trans ?_
  split
  · refine foldl _ _ (fun f h => ?_) e
    dsimp only
    split
    · exact (loadCoefs f h).trans (acquire _ h)
    · exact loadCoefs f h
  · split
    · exact foldl _ _ stopTracking e
    · exact refl e

theorem setOwn (c : Chip) (p : Fin 6) (high : Bool) : BesidePorts c (c.setOwn p high) :=
  putPort _ p 0 _ _ rfl (by decide) (by dsimp only; omega) (by dsimp only; omega)

theorem dropOwn (c : Chip) : BesidePorts c c.dropOwn := foldl _ _ (fun d p => setOwn d p false) c

/-- Every role laid down. -/
theorem dropRoles (c : Chip) : BesidePorts c (allPorts.foldl (fun c p => c.setRole p 0) c.dropOwn) :=
  (dropOwn c).trans (foldl _ _ (fun d p => setRole d p 0) _)

/-! ## What follows of it -/

variable {c d : Chip} (h : BesidePorts c d)
include h

theorem get (f : Fld) (hq : quietReg f.page f.off = true) (h7 : f.page ≠ 0x070) (h2 : ¬(0x200 ≤ f.page ∧ f.page < 0x300)) : d.get f = c.get f := by
  unfold Chip.get
  rw [h.words _ _ hq h7 h2]

end BesidePorts
end Sys2Proof.Machine
end

section
/-! PROOF. The power sequencer (R515 to R525): its steps up and down, the fail-stop that a rail's fault brings, and the store. -/
namespace Sys2Proof.Machine

namespace Chip

/-- `d` differs from `c` in the phase of the sequencer's step. -/
structure Phased (c d : Chip) : Prop where
  state : d.psqState = c.psqState
  dir : d.psqDir = c.psqDir
  words : ∀ p o, regKey p o ≠ regKey 0x140 0x800 → d.rd p o = c.rd p o
  psq : { d.psq with phase := 0 } = { c.psq with phase := 0 }
  rst : d.rst = c.rst
  svc : d.svc = c.svc

theorem Phased.refl (c : Chip) : Phased c c := ⟨rfl, rfl, fun _ _ _ => rfl, rfl, rfl, rfl⟩

theorem Phased.trans {c d e : Chip} (h : Phased c d) (k : Phased d e) : Phased c e where
  state := k.state.trans h.state
  dir := k.dir.trans h.dir
  words p o hp := (k.words p o hp).trans (h.words p o hp)
  psq := k.psq.trans h.psq
  rst := k.rst.trans h.rst
  svc := k.svc.trans h.svc

theorem Phased.setPhase (c : Chip) (n : Nat) : Phased c (c.setPhase n) where
  state := get_put_apart _ _ _ _ (by decide) rfl rfl (by decide)
  dir := setPhase_psqDir c n
  words p o hp := rd_put_ne _ _ _ p o hp
  psq := by simp [Chip.setPhase]
  rst := by simp [Chip.setPhase]
  svc := by simp [Chip.setPhase]

@[simp] theorem setPhase_psqState (c : Chip) (n : Nat) : (c.setPhase n).psqState = c.psqState := (Phased.setPhase c n).state

/-- The start of a step's phases: the wait for PG, which ends at once where no bit is missing. -/
theorem Phased.begin (c : Chip) : Phased c (c.setPhase 0).psqCheck := by
  unfold psqCheck
  split
  · exact (Phased.setPhase c 0).trans (Phased.setPhase _ 1)
  · exact Phased.setPhase c 0

theorem Phased.get {c d : Chip} (h : Phased c d) (f : Fld) (hf : regKey f.page f.off ≠ regKey 0x140 0x800) : d.get f = c.get f := by
  unfold Chip.get
  rw [h.words _ _ hf]

theorem Phased.alone {c d : Chip} (h : Phased c d) : d.psq.alone = c.psq.alone := by
  show ({ d.psq with phase := 0 } : Psq).alone = _
  rw [h.psq]

theorem Phased.faultWait {c d : Chip} (h : Phased c d) : d.psq.faultWait = c.psq.faultWait := by
  show ({ d.psq with phase := 0 } : Psq).faultWait = _
  rw [h.psq]

variable (c : Chip)

/-- A step up. -/
theorem enterUp_spec (n : Nat) (hn : n < 16) :
    (c.enterUp n).psqState = n ∧ (c.enterUp n).psqDir = c.psqDir ∧ (c.enterUp n).svc = c.svc := by
  have h := Phased.begin ((c.put F.PSQ_PSQ_STATE n).put F.PSQ_EN_OUT (c.get F.PSQ_EN_OUT ||| c.enSet n))
  refine ⟨h.state.trans ?_, h.dir.trans ?_, h.svc.trans (by simp)⟩
  · simp (disch := decide) only [psqState, get_put_ne, get_put_same]
    exact Nat.mod_eq_of_lt hn
  · simp (disch := decide) only [psqDir, get_put_ne, get_put_apart]

/-- A step down leaves everything but the sequencer's own state. -/
structure WentDown (c d : Chip) : Prop where
  state : d.psqState = c.psqState - 1
  dir : d.psqDir = c.psqDir
  get : ∀ f : Fld, f.off < 4096 → f.off ≠ 0x800 → f.off ≠ 0x804 → d.get f = c.get f
  events : EventsKept c d
  psq : d.psq.alone = c.psq.alone ∧ d.psq.faultWait = c.psq.faultWait
  rst : d.rst = c.rst

theorem stepDown_spec (hs : c.psqState ≠ 0) : WentDown c c.stepDown := by
  have hlt : c.psqState < 16 := bitsOf_lt _ _ _
  unfold stepDown
  simp only [if_neg hs]
  have h := Phased.begin ((c.put F.PSQ_EN_OUT (c.get F.PSQ_EN_OUT - (c.get F.PSQ_EN_OUT &&& c.enSet c.psqState))).put F.PSQ_PSQ_STATE (c.psqState - 1))
  have hne : ∀ p o, o < 4096 → o ≠ 0x800 → regKey p o ≠ regKey 0x140 0x800 := fun p o ho hn e => hn (regKey_inj ho (by decide) e).2
  refine ⟨h.state.trans ?_, h.dir.trans ?_, fun f ho h0 h4 => (h.get f (hne _ _ ho h0)).trans ?_, fun p b hb => ?_,
    ⟨h.alone.trans (by simp), h.faultWait.trans (by simp)⟩, h.rst.trans (by simp)⟩
  · rw [psqState, get_put_same _ _ _ (by decide)]
    exact Nat.mod_eq_of_lt (Nat.lt_of_le_of_lt (Nat.sub_le ..) hlt)
  · simp (disch := decide) only [psqDir, get_put_ne, get_put_apart]
  · rw [get_put_ne _ F.PSQ_PSQ_STATE f _ (hne _ _ ho h0), get_put_ne _ F.PSQ_EN_OUT f _ fun e => h4 (regKey_inj ho (by decide) e).2]
  · rw [h.words _ _ (hne p 0x010 (by decide) (by decide)), rd_put_ne _ F.PSQ_PSQ_STATE _ _ _ (hne p 0x010 (by decide) (by decide)),
      rd_put_ne _ F.PSQ_EN_OUT _ _ _ fun e => absurd (regKey_inj (by decide) (by decide) e).2 (by decide)]
    exact hb

/-- The chip whose rails begin to go: SEQ_OUT low, the direction DOWN, no power. -/
def railsGo : Chip :=
  let d := (c.put F.PSQ_PSQ_SEQ_OUT 0).put F.PSQ_PSQ_DIR 3
  { d with psq := { d.psq with faultWait := false }, rst := { d.rst with powered := false } }

theorem startDown_eq (hd : c.psqDir = 1 ∨ c.psqDir = 2) : c.startDown = (allPorts.foldl (fun c p => c.setRole p 0) c.railsGo.dropOwn).stepDown :=
  if_neg (by omega)

/-- The start of a down sequence above step 0 (R520, R522). -/
structure StartedDown (c d : Chip) : Prop where
  dir : d.psqDir = 3
  state : d.psqState = c.psqState - 1
  rst : d.rst.powered = false
  faultWait : d.psq.faultWait = false
  events : EventsKept c d
  kind : d.get F.PSQ_LAST_FAULT_KIND = c.get F.PSQ_LAST_FAULT_KIND

theorem startDown_spec (hd : c.psqDir = 1 ∨ c.psqDir = 2) (hs : c.psqState ≠ 0) : StartedDown c c.startDown := by
  rw [startDown_eq c hd]
  have hports := BesidePorts.dropRoles c.railsGo
  generalize allPorts.foldl (fun c p => c.setRole p 0) c.railsGo.dropOwn = d at hports
  have hparts := of_rest hports.rest
  have hstate : d.psqState = c.psqState := by
    refine (hports.get _ rfl (by decide) (by decide)).trans ?_
    simp (disch := decide) [railsGo, psqState, get_put_apart]
  have hdown := stepDown_spec d (hstate ▸ hs)
  refine ⟨hdown.dir.trans ?_, hdown.state.trans (by rw [hstate]), ?_, ?_, EventsKept.trans ?_ hdown.events,
    (hdown.get _ (by decide) (by decide) (by decide)).trans ?_⟩
  · refine (hports.get _ rfl (by decide) (by decide)).trans ?_
    simp (disch := decide) [railsGo, get_put_same]
  · rw [hdown.rst]
    simp [hparts, railsGo]
  · rw [hdown.psq.2]
    simp [hparts, railsGo]
  · refine EventsKept.trans ?_ hports.events
    exact (EventsKept.put c F.PSQ_PSQ_SEQ_OUT 0 (by decide) (by decide)).trans ((EventsKept.put _ F.PSQ_PSQ_DIR 3 (by decide) (by decide)).trans (.of_regs rfl))
  · refine (hports.get _ rfl (by decide) (by decide)).trans ?_
    simp (disch := decide) [railsGo, get_put_ne]

/-! ## The fail-stop -/

theorem setMode_mode (m : Nat) (hm : m < 8) : (c.setMode m).mode = m := by
  unfold setMode
  split
  · assumption
  · rw [mode, get_raise _ _ _ rfl, get_put_same _ _ _ (by decide)]
    exact Nat.mod_eq_of_lt hm

/-- Stopping the link leaves the words of the pair's roles. -/
theorem stopLink_get (f : Fld) (hq : quietReg f.page f.off = true) (h0 : f.page ≠ 0x000) (h8 : f.page ≠ 0x080) : c.stopLink.get f = c.get f := by
  have hlt : f.off < 4096 := by
    simp only [quietReg, Bool.and_eq_true, decide_eq_true_eq] at hq
    exact hq.1.1.1.1
  have hkeep : c.keepOwnRound.get f = c.get f := by
    unfold keepOwnRound
    rw [get_put_ne _ F.CLK_ALIGN_STATE_KEEPER f _ fun e => h0 (regKey_inj hlt (by decide) e).1,
      get_put_ne _ F.CLK_ALIGN_STATE_STATE f _ fun e => h0 (regKey_inj hlt (by decide) e).1]
  unfold stopLink
  dsimp only
  split
  · exact hkeep
  · rw [get_raise _ _ _ hq, get_cnt, get_put_ne _ F.CXK_LINK_STATE f _ fun e => h8 (regKey_inj hlt (by decide) e).1]
    exact hkeep

/-- A fail-stop of a chip that does not serve alone, with no save, puts it to HELD. -/
theorem failStop_mode (b : Bool) (hm : c.mode ≠ mHELD) (hs : c.saveActive = false) (ha : c.serving = false) : (c.failStop b).mode = mHELD := by
  unfold failStop
  simp only [hm, hs, ha, Bool.false_and, Bool.false_eq_true, or_false, if_false]
  exact (stopLink_get _ _ rfl (by decide) (by decide)).trans (setMode_mode _ _ (by decide))

/-- Margins that are cleared lie in the margins' own words. -/
theorem clearMargins_get (f : Fld) (hq : quietReg f.page f.off = true) (h1 : f.page ≠ 0x141) : c.clearMargins.get f = c.get f := by
  have hlt : f.off < 4096 := by
    simp only [quietReg, Bool.and_eq_true, decide_eq_true_eq] at hq
    exact hq.1.1.1.1
  have hfold : ∀ (l : List Nat) (d : Chip), (∀ k ∈ l, k < 4) →
      (l.foldl (fun c k => (c.putCfg (F.MAR_MARGIN_OFFSET_MV k) 0).avsSend k 0 (c.railBase k)) d).get f = d.get f := by
    intro l
    induction l with
    | nil => exact fun d _ => rfl
    | cons k l ih =>
      intro d hl
      have hk := hl k (List.mem_cons_self ..)
      refine (ih _ fun j hj => hl j (List.mem_cons_of_mem _ hj)).trans ?_
      exact get_put_ne d (F.MAR_MARGIN_OFFSET_MV k) f 0 fun e => h1 (regKey_inj hlt (by dsimp only; omega) e).1
  unfold clearMargins
  dsimp only
  split
  · rfl
  · rw [get_raise _ _ _ hq]
    exact hfold _ _ fun k hk => List.mem_range.1 (List.mem_filter.1 hk).1

/-- Clearing margins sends frames, and leaves the sequencer. -/
theorem clearMargins_psq : c.clearMargins.psq = c.psq := by
  have hfold : ∀ (l : List Nat) (d : Chip),
      (l.foldl (fun c k => (c.putCfg (F.MAR_MARGIN_OFFSET_MV k) 0).avsSend k 0 (c.railBase k)) d).psq = d.psq := by
    intro l
    induction l with
    | nil => exact fun d => rfl
    | cons k l ih => exact fun d => ih _
  unfold clearMargins
  dsimp only
  split
  · rfl
  · simp [hfold]

/-- A step that goes on, up or down. -/
theorem psqNext_up (hd : c.psqDir = 1) (hs : c.psqState < c.seqTop) : c.psqNext = c.enterUp (c.psqState + 1) := by
  simp [psqNext, hd, Nat.not_le.2 hs]

theorem psqNext_down (hd : c.psqDir = 3) : c.psqNext = c.stepDown := by
  simp [psqNext, hd]

end Chip
namespace Chip

variable (c : Chip)

/-- An up timeout above step 0 (R518): the log, the event, and the way down. -/
theorem upTimeout_spec (hd : c.psqDir = 1) (hs : c.psqState ≠ 0) : c.upTimeout.get F.PSQ_LAST_FAULT_KIND = 2 ∧ c.upTimeout.psqDir = 3 ∧
    c.upTimeout.is F.PSQ_EV_UP_TIMEOUT = true ∧ c.upTimeout.rst.powered = false := by
  unfold upTimeout
  extract_lets d n psq e f
  have hf : f.psqDir = 1 ∧ f.psqState = c.psqState ∧ f.get F.PSQ_LAST_FAULT_KIND = 2 ∧ f.is F.PSQ_EV_UP_TIMEOUT = true := by
    have hget : ∀ g : Fld, quietReg g.page g.off = true → e.get g = (c.lastFault (lowestBit c.pgMissing) 2).get g := by
      intro g hq
      show d.get g = _
      unfold d
      rw [get_raise _ _ _ hq, get_cnt]
    have hevent : e.is F.PSQ_EV_UP_TIMEOUT = true := raise_is _ F.PSQ_EV_UP_TIMEOUT rfl rfl (by decide)
    have he : e.psqDir = 1 ∧ e.psqState = c.psqState ∧ e.get F.PSQ_LAST_FAULT_KIND = 2 := by
      refine ⟨(hget _ rfl).trans ?_, (hget _ rfl).trans ?_, (hget _ rfl).trans (lastFault_kind _ _ _)⟩
      · exact (get_lastFault_ne _ _ _ _ (by decide)).trans hd
      · exact get_lastFault_ne _ _ _ _ (by decide)
    obtain ⟨hdir, hstate, hkind⟩ := he
    unfold f
    split
    · refine ⟨(get_put_apart e F.PSQ_PSQ_UP_HELD F.PSQ_PSQ_DIR 1 (by decide) rfl rfl (by decide)).trans hdir,
        (get_put_apart e F.PSQ_PSQ_UP_HELD F.PSQ_PSQ_STATE 1 (by decide) rfl rfl (by decide)).trans hstate,
        (get_put_ne e F.PSQ_PSQ_UP_HELD F.PSQ_LAST_FAULT_KIND 1 (by decide)).trans hkind, ?_⟩
      exact is_kept (EventsKept.put e F.PSQ_PSQ_UP_HELD 1 (by decide) (by decide)) F.PSQ_EV_UP_TIMEOUT rfl rfl hevent
    · exact ⟨hdir, hstate, hkind, hevent⟩
  obtain ⟨hdir, hstate, hkind, hevent⟩ := hf
  have hdown := startDown_spec f (.inl hdir) (hstate ▸ hs)
  exact ⟨hdown.kind.trans hkind, hdown.dir, is_kept hdown.events F.PSQ_EV_UP_TIMEOUT rfl rfl hevent, hdown.rst⟩

/-- A bit of PG_IN, read as a field of its own. -/
theorem testBit_pgIn (i : Fin 16) : (c.get F.PSQ_PG_IN).testBit i.val = c.is ⟨0x140, 0x804, 16 + i.val, 1, false⟩ := by
  have hlt := i.isLt
  unfold is get bitsOf
  rw [Nat.testBit_mod_two_pow, Nat.testBit_shiftRight, Nat.testBit_eq_decide_div_mod_eq, Nat.shiftRight_eq_div_pow]
  simp only [decide_eq_true hlt, Bool.true_and]
  rfl

/-- A PG bit that takes a level, and the phase that follows. -/
theorem pgChange_spec (i : Fin 16) (high : Bool) {d : Chip} (h : Phased (c.put ⟨0x140, 0x804, 16 + i.val, 1, false⟩ (bit high)) d) :
    (d.get F.PSQ_PG_IN).testBit i.val = high ∧
      (∀ k : Fin 16, k ≠ i → (d.get F.PSQ_PG_IN).testBit k.val = (c.get F.PSQ_PG_IN).testBit k.val) ∧ d.psqState = c.psqState := by
  have hi := i.isLt
  rw [h.get _ (by decide), testBit_pgIn]
  refine ⟨is_put_bit _ _ _ (by dsimp only; omega) rfl, fun k hk => ?_, h.state.trans (get_put_ne _ _ _ _ (show regKey 0x140 0x800 ≠ regKey 0x140 0x804 by decide))⟩
  have hk' : k.val ≠ i.val := fun e => hk (Fin.ext e)
  rw [testBit_pgIn, testBit_pgIn]
  exact is_put_apart _ _ _ _ (by dsimp only; omega) rfl rfl (by dsimp only; omega)

/-- A chip that goes on alone in its sequence (R519). -/
def goesAlone : Chip := ({ c with psq := { c.psq with alone := true } } : Chip).put F.PSQ_PSQ_SYNC_HELD 0

/-- The sync that is stuck on the way down. -/
theorem syncStuck_spec (hd : c.psqDir = 3) (hs : c.psqState ≠ 0) : (c.raise F.PSQ_EV_SYNC_STUCK).goesAlone.psqNext.is F.PSQ_EV_SYNC_STUCK = true ∧
    (c.raise F.PSQ_EV_SYNC_STUCK).goesAlone.psqNext.psq.alone = true ∧
    (c.raise F.PSQ_EV_SYNC_STUCK).goesAlone.psqNext.psqState = c.psqState - 1 := by
  have hdir : (c.raise F.PSQ_EV_SYNC_STUCK).goesAlone.psqDir = 3 := by
    refine (get_put_apart _ F.PSQ_PSQ_SYNC_HELD F.PSQ_PSQ_DIR 0 (by decide) rfl rfl (by decide)).trans ?_
    exact (get_raise c F.PSQ_EV_SYNC_STUCK F.PSQ_PSQ_DIR rfl).trans hd
  have hstate : (c.raise F.PSQ_EV_SYNC_STUCK).goesAlone.psqState = c.psqState := by
    refine (get_put_apart _ F.PSQ_PSQ_SYNC_HELD F.PSQ_PSQ_STATE 0 (by decide) rfl rfl (by decide)).trans ?_
    exact get_raise c F.PSQ_EV_SYNC_STUCK F.PSQ_PSQ_STATE rfl
  have hevents : EventsKept (c.raise F.PSQ_EV_SYNC_STUCK) (c.raise F.PSQ_EV_SYNC_STUCK).goesAlone :=
    EventsKept.trans (.of_regs rfl) (.put _ F.PSQ_PSQ_SYNC_HELD 0 (by decide) (by decide))
  rw [psqNext_down _ hdir]
  have hdown := stepDown_spec _ (hstate ▸ hs)
  refine ⟨?_, hdown.psq.1.trans (by simp [goesAlone]), hdown.state.trans (by rw [hstate])⟩
  exact is_kept (hevents.trans hdown.events) F.PSQ_EV_SYNC_STUCK rfl rfl (raise_is c F.PSQ_EV_SYNC_STUCK rfl rfl (by decide))

/-- The fall of the power-fail input: the input, and an arrival at the interrupt controller. -/
theorem pfailFall_spec : c.pfailFall.svc.pfailLow = true ∧
    ∀ f : Fld, quietReg f.page f.off = true → (f.page = 0x115 → f.off < 0x800) → c.pfailFall.get f = c.get f := by
  unfold pfailFall
  have h := BesideIcu.pulse { c with svc := { c.svc with pfailLow := true } } 0x3C0
  exact ⟨congrArg Svc.pfailLow h.parts.2.2.2.2.2.2.1, fun f hq hp => h.get f hq hp⟩

/-- The fail-stop of a rail's fault, with its early warning. -/
theorem railFault_mode (hmir : c.mirrored = true) (hsave : c.saveActive = false) : ((c.pulse 0x3C1).failStop false).mode = mHELD := by
  have hicu := BesideIcu.pulse c 0x3C1
  have hm : (c.pulse 0x3C1).mode = mMIRRORED := (hicu.get F.ROLE_PAIR_STATE_MODE rfl (by decide)).trans (beq_iff_eq.1 hmir)
  have hserving : (c.pulse 0x3C1).serving = false := by
    unfold serving
    rw [hm]
    decide
  refine failStop_mode _ _ (by rw [hm]; decide) ?_ hserving
  unfold saveActive svcState at *
  rwa [hicu.get _ rfl (by decide)]

/-- The record of a rail's fault leaves the mode. -/
theorem lastFault_spec (y : Chip) (i : Fin 16) (k : Ctr) (p : Psq) : ({ ((y.lastFault i.val 1).cnt k).raise F.PSQ_EV_RAIL_FAULT with psq := p } : Chip).clearMargins.mode = y.mode ∧
    ({ ((y.lastFault i.val 1).cnt k).raise F.PSQ_EV_RAIL_FAULT with psq := p } : Chip).clearMargins.get F.PSQ_LAST_FAULT_RAIL = i.val ∧
    ({ ((y.lastFault i.val 1).cnt k).raise F.PSQ_EV_RAIL_FAULT with psq := p } : Chip).clearMargins.get F.PSQ_LAST_FAULT_KIND = 1 ∧
    ({ ((y.lastFault i.val 1).cnt k).raise F.PSQ_EV_RAIL_FAULT with psq := p } : Chip).clearMargins.psq = p := by
  have hget : ∀ f : Fld, quietReg f.page f.off = true → f.page ≠ 0x141 →
      ({ ((y.lastFault i.val 1).cnt k).raise F.PSQ_EV_RAIL_FAULT with psq := p } : Chip).clearMargins.get f = (y.lastFault i.val 1).get f := by
    intro f hq h1
    rw [clearMargins_get _ _ hq h1]
    show (((y.lastFault i.val 1).cnt k).raise F.PSQ_EV_RAIL_FAULT).get f = _
    rw [get_raise _ _ _ hq, get_cnt]
  refine ⟨(hget _ rfl (by decide)).trans (get_lastFault_ne _ _ _ _ (by decide)), (hget _ rfl (by decide)).trans ?_,
    (hget _ rfl (by decide)).trans (lastFault_kind _ _ _), clearMargins_psq _⟩
  exact (lastFault_rail _ _ _).trans (Nat.mod_eq_of_lt i.isLt)

end Chip

/-- Settles O55: each clause is the branch of its command that the hypotheses name, and the step it takes. -/
theorem sequencerComplete : Obligations.SequencerComplete := by
  unfold Obligations.SequencerComplete
  refine ⟨?_, ?_, ?_, ?_, ?_, ?_, ?_, ?_, ?_, ?_, ?_⟩
  · intro w s hdir hserved hheld hfail
    refine ⟨_, rfl, ?_⟩
    simp (disch := decide) only [State.chip_mapChip_same, State.chip_mapChip_other, hdir, Chip.put_parts, Chip.is_put_apart, hserved, hfail,
      Chip.is_mk, Chip.is_ofRegs, hheld, bne_self_eq_false, Bool.false_eq_true, if_false, Bool.not_true, Bool.or_self, Bool.false_and]
    refine ⟨(Chip.enterUp_spec _ 1 (by decide)).2.1.trans ?_, (Chip.enterUp_spec _ 1 (by decide)).1, (congrArg Svc.pfailLow (Chip.enterUp_spec _ 1 (by decide)).2.2).trans ?_, trivial⟩
    · exact Chip.get_put_same _ _ _ (by decide)
    · simp
  · intro w i high s
    refine ⟨_, rfl, ?_⟩
    have hlt := i.isLt
    simp only [State.chip_mapChip_same, State.chip_mapChip_other, and_true]
    refine (s.chip w).pgChange_spec i high ?_
    split
    · exact .setPhase _ 0
    · unfold Chip.psqCheck
      split
      · exact .setPhase _ 1
      · exact .refl _
  · intro w s hphase hsync hdir hstate
    refine ⟨_, rfl, ?_⟩
    have hpsq : ((s.chip w).setPhase 2).seqTop = (s.chip w).seqTop ∧ ((s.chip w).setPhase 2).syncEn = (s.chip w).syncEn := by
      simp [Chip.seqTop, Chip.syncEn, Chip.seqWord, Chip.setPhase]
    have htop : (s.chip w).seqTop < 16 := bitsOf_lt _ _ _
    have hnext := ((s.chip w).setPhase 2).psqNext_up (by simpa using hdir) (by rwa [hpsq.1, Chip.setPhase_psqState])
    obtain ⟨hs, hd, -⟩ := ((s.chip w).setPhase 2).enterUp_spec (((s.chip w).setPhase 2).psqState + 1) (by rw [Chip.setPhase_psqState]; omega)
    simp only [Chip.setPhase_psqState, Chip.setPhase_psqDir] at hs hd hnext
    simp [hphase, hpsq, hsync, hnext, hs, hd, hdir]
  · intro w s hphase hsync hdir hstate
    refine ⟨_, rfl, ?_⟩
    have hdown := (s.chip w).stepDown_spec hstate
    simp [hphase, hsync, hdir, Chip.psqNext_down, hdown.state, hdown.dir]
  · intro w s hphase hsync hdir hstate
    refine ⟨_, rfl, ?_⟩
    have hstuck := (s.chip w).syncStuck_spec hdir hstate
    have hdir' : ((s.chip w).raise F.PSQ_EV_SYNC_STUCK).psqDir = 3 := (Chip.get_raise _ _ _ rfl).trans hdir
    have hno : ¬((s.chip w).raise F.PSQ_EV_SYNC_STUCK).psqDir = 1 := by omega
    simp only [State.chip_mapChip_same, State.chip_mapChip_other, hphase, hsync, hdir, hno, if_false]
    exact ⟨hstuck.1, hstuck.2.1, hstuck.2.2, trivial⟩
  · intro w s hphase hdir hstate
    refine ⟨_, rfl, ?_⟩
    simpa [hphase, hdir] using (s.chip w).upTimeout_spec hdir hstate
  · intro w s hdir hup
    refine ⟨_, rfl, ?_⟩
    have hup' : ((s.chip w).put F.PSQ_PSQ_SEQ_IN 0).up = true := by simpa [Chip.up] using hup
    have hdir' : ((s.chip w).put F.PSQ_PSQ_SEQ_IN 0).psqDir = 2 :=
      (Chip.get_put_apart _ F.PSQ_PSQ_SEQ_IN F.PSQ_PSQ_DIR 0 (by decide) rfl rfl (by decide)).trans hdir
    simp only [State.chip_mapChip_same, State.chip_mapChip_other, hup', hdir', decide_true, Bool.and_self, if_true, and_true]
    obtain ⟨hlow, hget⟩ := ((s.chip w).put F.PSQ_PSQ_SEQ_IN 0).pfailFall_spec
    have hin := Chip.is_put_bit (s.chip w) F.PSQ_PSQ_SEQ_IN false (by decide) rfl
    refine ⟨?_, hlow, (hget F.PSQ_PSQ_DIR rfl (by decide)).trans hdir'⟩
    unfold Chip.is at *
    rw [hget F.PSQ_PSQ_SEQ_IN rfl (by decide)]
    exact hin
  · intro w s hdir
    refine ⟨_, rfl, ?_⟩
    simp [hdir]
  · intro w i s hlow hrun hup hsave hmir
    refine ⟨_, rfl, ?_⟩
    have hlow' : ¬((s.chip w).get F.PSQ_PG_IN >>> i.val % 2 = 1) := by omega
    simp only [State.chip_mapChip_same, State.chip_mapChip_other, hlow', hrun, hup, hsave, Bool.not_true, Bool.false_eq_true, or_self, Bool.and_false,
      if_false, if_true, and_true]
    have hmode := (s.chip w).railFault_mode hmir hsave
    generalize ((s.chip w).pulse 0x3C1).failStop false = y at hmode ⊢
    exact ⟨(Chip.lastFault_spec y i _ _).1.trans hmode, (Chip.lastFault_spec y i _ _).2.1, (Chip.lastFault_spec y i _ _).2.2.1,
      congrArg Psq.faultWait (Chip.lastFault_spec y i _ _).2.2.2⟩
  · intro w s hwait hdir hstate
    refine ⟨_, rfl, ?_⟩
    have hdown := (s.chip w).startDown_spec (.inr hdir) hstate
    simp [hwait, hdown.dir, hdown.state, hdown.rst, hdown.faultWait]
  · intro w rq s hup hrq hused
    refine ⟨_, rfl, ?_⟩
    simp only [State.chip_onUp hup, State.chip_onUp_other, Chip.ifWrites, hrq, if_true, Chip.storeCommit, if_neg (Nat.not_le.2 hused)]
    refine ⟨by simp, ?_, by simp, trivial⟩
    refine (Chip.get_put_same _ _ _ (by decide)).trans ?_
    simp only [Chip.put_parts]
    exact Nat.mod_eq_of_lt (show _ < 8 by omega)
end Sys2Proof.Machine
end

section
/-! PROOF. Arrivals, groups, claims and fast entries of the interrupt controller (R496 to R505). -/
namespace Sys2Proof.Machine

/-- What an arrival leaves of a source. -/
def IntSource.held (x : IntSource) : IntSource := { x with count := 0, presented := none, fired := false }

theorem IntSource.held_withdrawn (x : IntSource) : ({ x with presented := none } : IntSource).held = x.held := rfl

theorem IcuKept.applied {c d : Chip} (h : IcuKept c d) : d.applied = c.applied := (congrArg Chip.applied h.rest :)

theorem IcuKept.answers {c d : Chip} (h : IcuKept c d) : d.answers = c.answers := (congrArg Chip.answers h.rest :)

namespace Chip

variable (c : Chip)

theorem src_mapSrc (i j : Nat) (f : IntSource → IntSource) : (c.mapSrc i f).src j = if j = i then f (c.src i) else c.src j := Table.get_set ..

@[simp] theorem src_mapSrc_same (i : Nat) (f : IntSource → IntSource) : (c.mapSrc i f).src i = f (c.src i) := by simp [src_mapSrc]

theorem group_setGroup_same (g : Nat) (x : Group) : (c.setGroup g x).group g = x := Table.get_set_same ..

theorem core_mapCore (n m : Nat) (f : Core → Core) : (c.mapCore n f).core m = if m = n then f (c.core n) else c.core m := Table.get_set ..

@[simp] theorem core_mapCore_same (n : Nat) (f : Core → Core) : (c.mapCore n f).core n = f (c.core n) := by simp [core_mapCore]

@[simp] theorem get_mapSrc (i : Nat) (f : IntSource → IntSource) (g : Fld) : (c.mapSrc i f).get g = c.get g := rfl
@[simp] theorem src_raise (f : Fld) (i : Nat) : (c.raise f).src i = c.src i := by simp [src]
@[simp] theorem core_mapSrc (i n : Nat) (f : IntSource → IntSource) : (c.mapSrc i f).core n = c.core n := rfl
@[simp] theorem src_cnt (k : Ctr) (n i : Nat) : (c.cnt k n).src i = c.src i := rfl
@[simp] theorem src_put (f : Fld) (v i : Nat) : (c.put f v).src i = c.src i := rfl
@[simp] theorem src_setGroup (g : Nat) (x : Group) (i : Nat) : (c.setGroup g x).src i = c.src i := rfl
@[simp] theorem core_raise (f : Fld) (n : Nat) : (c.raise f).core n = c.core n := by simp [core]
@[simp] theorem core_cnt (k : Ctr) (n m : Nat) : (c.cnt k n).core m = c.core m := rfl
@[simp] theorem core_put (f : Fld) (v m : Nat) : (c.put f v).core m = c.core m := rfl

/-! ## A group that fires -/

/-- The sources of a list that a group lets go. -/
def markFired (g : Nat) (l : List Nat) (d : Chip) : Chip :=
  l.foldl (fun d i => if c.pendingSrc i && c.srcGroup i == g && !c.srcFast i then d.mapSrc i fun x => { x with fired := true } else d) d

theorem fireGroup_eq (g : Nat) : c.fireGroup g = ((c.markFired g c.heldSources c).setGroup g {}).cnt (K.ICL_FIRES g) := rfl

theorem markFired_src (g : Nat) (l : List Nat) (i : Nat) : ∀ d : Chip, (c.markFired g l d).src i =
    if i ∈ l ∧ (c.pendingSrc i && c.srcGroup i == g && !c.srcFast i) = true then { d.src i with fired := true } else d.src i := by
  induction l with
  | nil => exact fun d => by simp [markFired]
  | cons j l ih =>
    intro d
    refine (ih _).trans ?_
    dsimp only
    by_cases hj : (c.pendingSrc j && c.srcGroup j == g && !c.srcFast j) = true
    · rw [if_pos hj, src_mapSrc]
      by_cases hi : i = j
      · subst hi
        simp [hj]
      · simp [hi]
    · rw [if_neg hj]
      by_cases hi : i = j
      · subst hi
        simp [hj]
      · simp [hi]

theorem markFired_live (g : Nat) (l : List Nat) : ∀ d : Chip, (c.markFired g l d).live = d.live := by
  induction l with
  | nil => exact fun d => rfl
  | cons j l ih =>
    intro d
    refine (ih _).trans ?_
    dsimp only
    split <;> rfl

/-- A group that fires marks its sources, and changes nothing else of one. -/
theorem fireGroup_src (g i : Nat) : (c.fireGroup g).src i =
    if i ∈ c.heldSources ∧ (c.pendingSrc i && c.srcGroup i == g && !c.srcFast i) = true then { c.src i with fired := true } else c.src i :=
  markFired_src c g c.heldSources i c

/-- A group that fires starts anew. -/
theorem fireGroup_group (g : Nat) : (c.fireGroup g).group g = {} := by
  rw [fireGroup_eq]
  exact group_setGroup_same ..

theorem fireGroup_count (g i : Nat) : ((c.fireGroup g).src i).count = (c.src i).count := by
  rw [fireGroup_src]
  split <;> rfl

theorem fireGroup_held (g i : Nat) : ((c.fireGroup g).src i).held = (c.src i).held := by
  rw [fireGroup_src]
  split <;> rfl

/-! ## Arrivals -/

theorem icuUpdate_src (i : Nat) : (c.icuUpdate.src i).count = (c.src i).count ∧ (c.icuUpdate.src i).held = (c.src i).held := by
  have h := IcuKept.icuUpdate c
  refine ⟨h.count_src i, ?_⟩
  rw [← IntSource.held_withdrawn, h.src, IntSource.held_withdrawn]

/-- An arrival counts at its source where it is enabled, up to 255, and at no other; what it leaves of a source. -/
theorem arrival_src (i j : Nat) :
    ((c.arrival i).src j).count = (if j = i ∧ c.srcEnable i = true then min 255 ((c.src i).count + 1) else (c.src j).count) ∧
      ((c.arrival i).src j).held = (c.src j).held := by
  unfold arrival
  split
  · next hoff =>
    have hoff' : c.srcEnable i = false := by simpa using hoff
    simp [hoff']
  · next hon =>
    have hon' : c.srcEnable i = true := by simpa using hon
    extract_lets n sat d e g k since x f
    have hd : (d.src j).count = (if j = i ∧ c.srcEnable i = true then min 255 ((c.src i).count + 1) else (c.src j).count) ∧
        (d.src j).held = (c.src j).held := by
      unfold d
      rw [src_mapSrc]
      by_cases hj : j = i
      · subst hj
        simp [hon', n, IntSource.held]
      · simp [hj]
    have he : e.src j = d.src j := by
      unfold e
      split <;> simp
    have hf : (f.src j).count = (e.src j).count ∧ (f.src j).held = (e.src j).held := by
      unfold f
      split
      · exact ⟨rfl, rfl⟩
      · split
        · exact ⟨fireGroup_count _ _ _, fireGroup_held _ _ _⟩
        · exact ⟨rfl, rfl⟩
    rw [(icuUpdate_src f j).1, (icuUpdate_src f j).2, hf.1, hf.2, he]
    exact hd

/-- An arrival changes no setting of a source. -/
theorem arrival_enable (i j : Nat) : (c.arrival i).srcEnable j = c.srcEnable j := by
  unfold srcEnable cfgOn cfg used
  rw [(BesideIcu.arrival c i).parts.1]

theorem swi_keeps (bits : Nat) : BesideIcu c (c.swi bits) := by
  unfold swi
  refine BesideIcu.foldl _ _ (fun d m => ?_) c
  split
  · exact .pulse d _
  · exact .refl d

/-- Pulses of other software interrupts leave the count of one. -/
theorem swi_kept (bits n : Nat) (l : List Nat) (hn : n ∉ l) : ∀ d : Chip,
    ((l.foldl (fun c m => if bits.testBit m then c.pulse (0x3D0 + m) else c) d).src (0x3D0 + n)).count = (d.src (0x3D0 + n)).count := by
  induction l with
  | nil => exact fun d => rfl
  | cons m l ih =>
    intro d
    obtain ⟨hm, hl⟩ := not_or.1 (mt List.mem_cons.2 hn)
    refine (ih hl _).trans ?_
    dsimp only
    split
    · exact (arrival_src d (0x3D0 + m) (0x3D0 + n)).1.trans (if_neg (by omega))
    · rfl

/-- The software interrupts that a word of SWI pulses each count once. -/
theorem swi_count (bits : Nat) (n : Fin 8) (hb : bits.testBit n.val = true) (he : c.srcEnable (0x3D0 + n.val) = true)
    (hc : (c.src (0x3D0 + n.val)).count < 255) : ((c.swi bits).src (0x3D0 + n.val)).count = (c.src (0x3D0 + n.val)).count + 1 := by
  have hfold : ∀ (l : List Nat) (d : Chip), l.Nodup → d.srcEnable (0x3D0 + n.val) = true → (d.src (0x3D0 + n.val)).count < 255 →
      ((l.foldl (fun c m => if bits.testBit m then c.pulse (0x3D0 + m) else c) d).src (0x3D0 + n.val)).count =
        if n.val ∈ l then (d.src (0x3D0 + n.val)).count + 1 else (d.src (0x3D0 + n.val)).count := by
    intro l
    induction l with
    | nil => exact fun d _ _ _ => rfl
    | cons m l ih =>
      intro d hnd hen hlt
      obtain ⟨hm, hl⟩ := List.nodup_cons.1 hnd
      have hpulse : (d.pulse (0x3D0 + m)).srcEnable (0x3D0 + n.val) = true := (arrival_enable d _ _).trans hen
      have hcount : ((d.pulse (0x3D0 + m)).src (0x3D0 + n.val)).count = _ := (arrival_src d (0x3D0 + m) (0x3D0 + n.val)).1
      rw [List.foldl_cons]
      by_cases hmn : n.val = m
      · subst hmn
        rw [if_pos ⟨rfl, hen⟩] at hcount
        have hkeep := swi_kept bits n.val l hm (d.pulse (0x3D0 + n.val))
        rw [if_pos hb, hkeep, hcount, if_pos (List.mem_cons_self ..)]
        omega
      · have hmem : (n.val ∈ m :: l) = (n.val ∈ l) := by simp [hmn]
        rw [if_neg (by omega)] at hcount
        simp only [hmem]
        split
        · rw [ih _ hl hpulse (by omega), hcount]
        · exact ih _ hl hen hlt
  exact (hfold (List.range 8) c List.nodup_range he hc).trans (by simp)

end Chip

namespace Chip

variable (c : Chip)

/-! ## Sources that go into service, and out of it -/

@[simp] theorem core_noteLate (n i m : Nat) : (c.noteLate n i).core m = c.core m := by
  unfold noteLate
  split <;> simp

theorem claimSource_serving (n i : Nat) : ((c.claimSource n i).src i).serving = some n := by
  unfold claimSource
  rw [src_mapSrc_same]

theorem claimSource_count (n i : Nat) : ((c.claimSource n i).src i).count = 0 := by
  unfold claimSource
  rw [src_mapSrc_same]

@[simp] theorem core_claimSource (n i m : Nat) : (c.claimSource n i).core m = c.core m := rfl

@[simp] theorem src_answer (rq : Requester) (v : BitVec 64) (st i : Nat) : (c.answer rq v st).src i = c.src i := rfl

/-- The claim of a source that is presented in time. -/
theorem claimWord_spec (n i : Nat) (hp : c.presentedTo n = some i) (hl : (c.src i).late = false) :
    (c.claimWord n).2 = BitVec.ofNat 32 (i + 2 ^ 10 * (c.src i).count + 2 ^ 31) ∧ ((c.claimWord n).1.src i).serving = some n ∧
      ((c.claimWord n).1.src i).count = 0 ∧ (c.claimWord n).1.answers = c.answers := by
  simp only [claimWord, hp, hl, noteLate, Bool.false_eq_true, if_false]
  have hserving := c.claimSource_serving n i
  have hcount := c.claimSource_count n i
  have hans : ((c.claimSource n i).cnt (K.ICT_CLAIMS n)).answers = c.answers := rfl
  rw [← src_cnt _ (K.ICT_CLAIMS n) 1] at hserving hcount
  generalize (c.claimSource n i).cnt (K.ICT_CLAIMS n) = d at hserving hcount hans ⊢
  have hu := IcuKept.icuUpdate d
  exact ⟨rfl, (hu.serving i).trans hserving, (hu.count_src i).trans hcount, hu.answers.trans hans⟩

/-! ## Settings in effect -/

@[simp] theorem src_putCfg (f : Fld) (v i : Nat) : (c.putCfg f v).src i = c.src i := rfl

theorem used_setUsed_same (p o : Nat) (v : Word) : (c.setUsed p o v).used p o = v := Table.get_set_same ..

/-- A setting written while its page runs is in effect. -/
theorem cfg_putCfg_same (f : Fld) (v : Nat) (h : f.lo + f.width ≤ 32) : (c.putCfg f v).cfg f = v % 2 ^ f.width := by
  unfold cfg putCfg
  rw [used_setUsed_same]
  exact bitsOf_withBits_same _ _ _ _ h

/-- What the settings of a source in effect rest on. -/
theorem cfg_of_applied {c d : Chip} (h : d.applied = c.applied) (f : Fld) : d.cfg f = c.cfg f := by
  unfold cfg used
  rw [h]

theorem srcEnable_of_applied {c d : Chip} (h : d.applied = c.applied) (i : Nat) : d.srcEnable i = c.srcEnable i :=
  congrArg (· == 1) (cfg_of_applied h _)
theorem srcTarget_of_applied {c d : Chip} (h : d.applied = c.applied) (i : Nat) : d.srcTarget i = c.srcTarget i := cfg_of_applied h _
theorem srcPrio_of_applied {c d : Chip} (h : d.applied = c.applied) (i : Nat) : d.srcPrio i = c.srcPrio i := cfg_of_applied h _

/-- The other settings of its word are in effect as they were. -/
theorem cfg_putCfg_apart (f g : Fld) (v : Nat) (hp : g.page = f.page) (ho : g.off = f.off) (h : f.lo + f.width ≤ 32)
    (hd : g.lo + g.width ≤ f.lo ∨ f.lo + f.width ≤ g.lo) : (c.putCfg f v).cfg g = c.cfg g := by
  unfold cfg putCfg
  rw [hp, ho, used_setUsed_same]
  exact bitsOf_withBits_apart _ _ _ _ _ _ h hd

/-- The end of a service: the source is in service on no core; what else changes is what an arrival changes. -/
theorem finishSource_spec (i : Nat) : ((c.finishSource i).src i).serving = none ∧
    BesideIcu (c.mapSrc i fun x => { x with serving := none, claimCount := 0 }) (c.finishSource i) := by
  unfold finishSource
  dsimp only
  have hd : ((c.mapSrc i fun x => { x with serving := none, claimCount := 0 }).src i).serving = none := by rw [src_mapSrc_same]
  generalize (c.mapSrc i fun x => { x with serving := none, claimCount := 0 }) = d at hd ⊢
  have hk : ∀ e, BesideIcu d e → (e.src i).serving = none ∧ BesideIcu d e := fun e h => ⟨(h.serving i).trans hd, h⟩
  split
  · exact hk _ (.arrival d i)
  · exact hk _ (.of_icuKept (.icuUpdate d))

/-- A source that is not presented loses what it has counted where it is disabled. -/
theorem sourceDisable_spec (i : Nat) (late : Bool) (hp : (c.src i).presented = none) (he : c.cfg (srcFld i 0 1) = 0) :
    (c.sourceDisable i late).srcEnable i = false ∧ ((c.sourceDisable i late).src i).count = 0 ∧ ((c.sourceDisable i late).src i).fired = false := by
  simp only [sourceDisable, hp, Option.isSome_none, Bool.false_and, Bool.false_eq_true, if_false]
  have ha : (c.mapSrc i fun x => { x with count := 0, presented := none, fired := false }).applied = c.applied := rfl
  have hs := c.src_mapSrc_same i fun x => { x with count := 0, presented := none, fired := false }
  generalize (c.mapSrc i fun x => { x with count := 0, presented := none, fired := false }) = d at ha hs ⊢
  have hu := IcuKept.icuUpdate d
  refine ⟨?_, (hu.count_src i).trans (congrArg IntSource.count hs), (hu.fired i).trans (congrArg IntSource.fired hs)⟩
  rw [srcEnable_of_applied (hu.applied.trans ha), srcEnable, cfgOn, he]
  rfl

end Chip

theorem State.chip_nextFree (s : State) (w : Twin) : s.nextFree.2.chip w = s.chip w := by cases w <;> rfl

/-- Settles O52: each clause is the branch of its command that the hypotheses name; deciding the presentations anew changes nothing that it speaks of. -/
theorem interruptsComplete : Obligations.InterruptsComplete := by
  unfold Obligations.InterruptsComplete
  refine ⟨?_, ?_, ?_, ?_, ?_, ?_, ?_, ?_, ?_, ?_⟩
  · intro w i s hup hi hpulse hen hgroup hc
    refine ⟨_, rfl, ?_⟩
    have hno : ¬i.val < 0x3C0 := by omega
    simp only [State.chip_onUp hup, State.chip_onUp_other, if_neg hno, hpulse, Bool.and_self, if_true, and_true]
    refine ⟨?_, (BesideIcu.pulse _ _).parts.2.2.2.2.1⟩
    rw [Chip.pulse, (Chip.arrival_src _ _ _).1, if_pos ⟨rfl, hen⟩]
    omega
  · intro w i s hup hi hblock hout hin hen hgroup hc
    refine ⟨_, rfl, ?_⟩
    simp only [State.chip_onUp hup, State.chip_onUp_other, if_pos hi, hblock, hout, ne_eq, not_true, or_self, if_false, Chip.inputLevel, hin, Bool.not_false,
      Bool.and_self, if_true, and_true]
    obtain ⟨hcount, hheld⟩ := Chip.arrival_src ((s.chip w).mapSrc i.val fun x => { x with input := true }) i.val i.val
    rw [if_pos ⟨rfl, hen⟩, Chip.src_mapSrc_same] at hcount
    rw [Chip.src_mapSrc_same] at hheld
    exact ⟨congrArg IntSource.input hheld, hcount.trans (by dsimp only; omega)⟩
  · intro w g i s hup ht hsince hp hi hg hf
    refine ⟨_, rfl, ?_⟩
    simp only [State.chip_onUp hup, State.chip_onUp_other, ht, ge_iff_le, hsince, decide_true, Bool.and_self, if_true, and_true]
    have hu := IcuKept.icuUpdate ((s.chip w).fireGroup g.val)
    refine ⟨?_, ?_, ?_⟩
    · rw [hu.fired, Chip.fireGroup_src, if_pos ⟨hi, by simp [hp, hg, hf]⟩]
    · rw [Chip.group, hu.groups]
      exact congrArg Group.timing (Chip.fireGroup_group ..)
    · rw [hu.counts _ (by dsimp only; omega) (by show (0x116 : Nat) ≠ 0x117; decide), Chip.fireGroup_eq, Chip.count_cnt_same]
      exact congrArg (fun x => (x + 1) % 2 ^ 48) (congrArg (fun l => Table.get (fun _ => 0) l _) (Chip.markFired_live ..))
  · intro w n i pc mach s hup hbest hrun
    refine ⟨_, rfl, ?_⟩
    simp only [State.chip_onUp hup, State.chip_onUp_other, hbest, hrun, Bool.not_true, if_false, and_true, Bool.false_eq_true]
    generalize hd : (((s.chip w).noteLate n.val i).claimSource n.val i).mapCore n.val _ = d
    have hu := IcuKept.icuUpdate ((d.put (F.ICO_ASLEEP n.val) 0).cnt (K.ICT_FAST n.val))
    have hcore := congrArg (Chip.core · n.val) hd.symm
    simp only [Chip.core_mapCore_same, Chip.core_claimSource, Chip.core_noteLate] at hcore
    have hserving : (d.src i).serving = some n.val := by
      rw [← hd]
      exact Chip.claimSource_serving _ _ _
    rw [hu.core_awake n.val (by rw [Chip.core_cnt, Chip.core_put, hcore]), hu.serving, Chip.core_cnt, Chip.core_put, Chip.src_cnt, Chip.src_put, hcore]
    exact ⟨rfl, rfl, rfl, rfl, rfl, rfl, rfl, hserving⟩
  · intro w n i s hup hin hfs
    refine ⟨_, rfl, ?_⟩
    simp only [State.chip_onUp hup, State.chip_onUp_other, hin, hfs, Bool.not_true, if_false, and_true, Bool.false_eq_true]
    obtain ⟨hserving, hk⟩ := Chip.finishSource_spec ((s.chip w).mapCore n.val fun x =>
      { x with inFast := false, fastSource := none, pc := x.fepc, machine := x.fstatusMode }) i
    have hcore := hk.core n.val
    rw [Chip.core_mapSrc, Chip.core_mapCore_same] at hcore
    exact ⟨(congrArg Core.pc hcore :), (congrArg Core.machine hcore :), (congrArg Core.inFast hcore :), (congrArg Core.x hcore :), hserving⟩
  · intro w rq n i s hup hrq hp hl
    refine ⟨_, rfl, ?_⟩
    simp only [State.chip_onUp hup, State.chip_onUp_other, hrq, Bool.not_true, if_false, and_true, Bool.false_eq_true]
    obtain ⟨hword, hserving, hcount, hans⟩ := Chip.claimWord_spec (s.chip w) n.val i hp hl
    rw [Chip.src_answer, hword]
    exact ⟨congrArg (· ++ _) hans, hserving, hcount⟩
  · intro w rq n i s hup hrq hs
    refine ⟨_, rfl, ?_⟩
    simp only [State.chip_onUp hup, State.chip_onUp_other, Chip.ifWrites, hrq, if_true, and_true, Chip.complete, Chip.src_put, hs, beq_self_eq_true]
    obtain ⟨hserving, hk⟩ := Chip.finishSource_spec ((s.chip w).put (F.ICO_COMPLETE n.val) i.val) i.val
    have hoff : quietReg 0x115 (0x104 + 0x20 * n.val) = true := by
      have : 0x104 + 0x20 * n.val < 4096 ∧ 0x104 + 0x20 * n.val ≠ 0x010 := by omega
      simp [quietReg, this]
    refine ⟨hserving, (hk.get _ hoff fun _ => by dsimp only; omega).trans ?_⟩
    rw [Chip.get_mapSrc, Chip.get_put_same _ _ _ (by show 0 + 10 ≤ 32; decide)]
    exact Nat.mod_eq_of_lt i.isLt
  · intro w rq bits n s hup hrq hb hen hgroup hc
    refine ⟨_, rfl, ?_⟩
    simp only [State.chip_onUp hup, State.chip_onUp_other, Chip.ifWrites, hrq, if_true, and_true]
    exact ⟨Chip.swi_count _ bits.toNat n hb hen hc, (Chip.swi_keeps ..).parts.2.2.2.2.1⟩
  · intro w rq i s hup hrq hrun hp
    refine ⟨s.nextFree.2.onUp w _, rfl, ?_⟩
    have hup' : (s.nextFree.2.chip w).up = true := hup
    simp only [State.chip_onUp hup', State.chip_onUp_other, State.chip_nextFree, Chip.ifWrites, hrq, hrun, if_true, Chip.putLive, srcFld]
    have hcfg := Chip.cfg_putCfg_same (s.chip w) (srcFld i.val 0 1) 0 (by show 0 + 1 ≤ 32; decide)
    rw [← Chip.src_putCfg _ (srcFld i.val 0 1) 0] at hp
    obtain ⟨he, hc, hf⟩ := Chip.sourceDisable_spec _ i.val (Config.lateDelivery s.nextFree.1) hp hcfg
    exact ⟨he, hc, hf, trivial⟩
  · intro w rq i x s hup hrq hrun hx
    refine ⟨_, rfl, ?_⟩
    simp only [State.chip_onUp hup, State.chip_onUp_other, Chip.ifWrites, hrq, if_true, and_true, Chip.targetChange, hrun, Bool.not_true, if_false,
      Nat.not_lt.2 hx, Bool.false_eq_true]
    have ha : (if (s.chip w).srcTarget i.val = x.val then s.chip w else (s.chip w).cnt K.ICT_RETARGETS).applied = (s.chip w).applied := by
      split <;> rfl
    have he := Chip.srcEnable_of_applied ha
    have hr := Chip.srcPrio_of_applied ha
    generalize (if (s.chip w).srcTarget i.val = x.val then s.chip w else (s.chip w).cnt K.ICT_RETARGETS) = d at he hr ⊢
    have hu := (IcuKept.icuUpdate (d.putCfg (srcFld i.val 3 4) x.val)).applied
    refine ⟨(Chip.srcTarget_of_applied hu _).trans ?_, (Chip.srcEnable_of_applied hu _).trans (Eq.trans ?_ (he _)), (Chip.srcPrio_of_applied hu _).trans (Eq.trans ?_ (hr _))⟩
    · exact (Chip.cfg_putCfg_same _ _ _ (by show 3 + 4 ≤ 32; decide)).trans (Nat.mod_eq_of_lt x.isLt)
    · exact congrArg (· == 1) (Chip.cfg_putCfg_apart d (srcFld i.val 3 4) (srcFld i.val 0 1) x.val rfl rfl (by show 3 + 4 ≤ 32; decide) (by simp [srcFld]))
    · exact Chip.cfg_putCfg_apart d (srcFld i.val 3 4) (srcFld i.val 16 8) x.val rfl rfl (by show 3 + 4 ≤ 32; decide) (by simp [srcFld])
end Sys2Proof.Machine
end

section
/-! PROOF. The event registers of a page (R54 to R57) and the SPDM responder (R562). -/
namespace Sys2Proof.Machine

namespace Chip

variable (c : Chip)

/-! ## Event registers -/

theorem eventBits_lt {page b : Nat} (h : (eventBits page).contains b = true) : b < 32 := by
  rw [List.contains_iff_mem, eventBits, List.mem_append, List.mem_filter, List.mem_range] at h
  obtain ⟨hb, -⟩ | hb := h
  · omega
  · have hall : ∀ x ∈ [28, 29, 30, 31], x < 32 := by decide
    exact hall b hb

theorem clearEvents_none (page : Nat) (bits : Word) : (c.clearEvents page bits 0).rd page 0x010 = c.rd page 0x010 &&& ~~~bits := by
  have hno : ((eventBits page).filter fun b => bits.getLsbD b && (0 : Word).getLsbD b) = [] := by simp
  unfold clearEvents
  rw [hno]
  exact rd_wr_same ..

/-- An event forced among others of its page is set. -/
theorem forceEvents_sets (page : Nat) (bits : Word) (b : Nat) (hb : (eventBits page).contains b = true) (hs : bits.getLsbD b = true) :
    ((c.forceEvents page bits).rd page 0x010).getLsbD b = true := by
  have hmem : b ∈ (eventBits page).filter fun b => bits.getLsbD b := by simpa [hs] using hb
  obtain ⟨l, r, hl⟩ := List.append_of_mem hmem
  unfold forceEvents
  rw [hl, List.foldl_append, List.foldl_cons]
  exact EventsKept.foldl _ (fun d x => .raiseBit d page x) _ _ _ _ (raiseBit_sets _ _ _ (eventBits_lt hb))

theorem enableEvents_word (page : Nat) (v : Word) : (c.enableEvents page v).rd page 0x014 = v := by
  unfold enableEvents
  extract_lets rose d
  have hq : quietReg page 0x014 = true := by simp [quietReg]
  rw [rd_of_quiet (foldl_quiet _ (fun d b => deliverEvent_quiet d page b) _ d) page 0x014 hq]
  exact rd_wr_same ..

/-! ## Effects announced -/

/-- The effect announced last. -/
theorem postEffect_last (e : Effect) (ends : Option Ends) :
    (c.postEffect e true ends).twe.gated.getLast?.map (fun g => (g.from', g.effect, g.ends)) = some (c.twin, e, ends) := by
  simp [postEffect]

theorem spdmEffect_spec (h : Fin 24) (e : Effect) :
    (c.spdmEffect h e).twe.gated.getLast?.map (fun g => (g.from', g.effect, g.ends)) = some (c.twin, e, none) ∧
      ((c.spdmEffect h e).head h).doeWait = true := by
  refine ⟨postEffect_last _ e none, ?_⟩
  have hq := head_of_quiet (postEffect_quiet (c.mapHead h fun x => { x with doeReply := {}, doeWait := true, doeError := false }) e true none) h
  rw [head_mapHead_same] at hq
  exact (congrArg Head.doeWait hq :)

end Chip

/-- Settles O13: the three writes of the header, as the model has them. -/
theorem eventRegistersComplete : Obligations.EventRegistersComplete := by
  unfold Obligations.EventRegistersComplete
  refine ⟨?_, ?_, ?_⟩
  · intro w rq page bits s hup hblock hrq
    refine ⟨_, rfl, ?_⟩
    simp only [State.chip_onUp hup, State.chip_onUp_other, Chip.headerWrite, Chip.ifWrites, hblock, hrq, if_false, if_true, and_true]
    exact Chip.clearEvents_none _ _ _
  · intro w rq page bits b s hup hblock hrq hb hs
    refine ⟨_, rfl, ?_⟩
    simp only [State.chip_onUp hup, State.chip_onUp_other, Chip.headerWrite, Chip.ifWrites, hblock, hrq, if_false, if_true, and_true]
    exact Chip.forceEvents_sets _ _ _ _ hb hs
  · intro w rq page bits s hup hblock hrq
    refine ⟨_, rfl, ?_⟩
    simp only [State.chip_onUp hup, State.chip_onUp_other, Chip.headerWrite, Chip.ifWrites, hblock, hrq, if_false, if_true, and_true]
    exact Chip.enableEvents_word _ _ _

namespace State

/-- What a request of a host that reaches its head makes of the home. -/
theorem chip_onReached {s : State} {w : Twin} {h : Fin 24} (hl : s.linkIn h = true) (hw : s.homeOf (portOf h) = some w) (f : Chip → Chip) :
    (s.onReached h f).chip w = f (s.chip w) := by
  rw [onReached, if_pos hl, chip_onHome hw]

theorem chip_onReached_other {s : State} {w : Twin} {h : Fin 24} (hl : s.linkIn h = true) (hw : s.homeOf (portOf h) = some w) (f : Chip → Chip) :
    (s.onReached h f).chip w.other = s.chip w.other := by
  rw [onReached, if_pos hl, chip_onHome_other hw]

end State

namespace Chip

variable (c : Chip) (h : Fin 24)

@[simp] theorem head_cnt (k : Ctr) (n : Nat) : (c.cnt k n).head h = c.head h := rfl

/-- An SPDM request asked in its order. -/
theorem spdm_of_le {needs : Nat} (hn : needs ≤ (c.head h).spdm) (f : Chip → Chip) : c.spdm h needs f = f (c.cnt K.SES_SPDM_REQUESTS) :=
  if_neg (Nat.not_lt.2 hn)

@[simp] theorem setDoe_reply (r : MailReply) : ((c.setDoe h r).head h).doeReply = r := by
  unfold setDoe
  rw [head_mapHead_same]

end Chip

/-- Settles O28: each request is the branch that its hypotheses name. -/
theorem spdmComplete : Obligations.SpdmComplete := by
  unfold Obligations.SpdmComplete
  refine ⟨?_, ?_, ?_, ?_, ?_, ?_, ?_⟩
  · intro w h s hl hw
    refine ⟨_, rfl, ?_⟩
    simp only [State.chip_onReached hl hw, State.chip_onReached_other hl hw, Chip.spdm_of_le _ _ (Nat.zero_le _), Chip.setDoe_reply, and_true, true_and]
    simp only [Chip.setDoe, Chip.head_mapHead_same, true_and]
    exact Chip.count_cnt_same ..
  · intro w h s hl hw hn
    refine ⟨_, rfl, ?_⟩
    simp only [State.chip_onReached hl hw, State.chip_onReached_other hl hw, Chip.spdm_of_le _ _ hn, Chip.setDoe_reply, and_true]
    simp only [Chip.setDoe, Chip.head_mapHead_same]
    rfl
  · intro w h s hl hw hn
    refine ⟨_, rfl, ?_⟩
    simp only [State.chip_onReached hl hw, State.chip_onReached_other hl hw, Chip.spdm_of_le _ _ hn, Chip.setDoe_reply, and_true]
    simp only [Chip.setDoe, Chip.head_mapHead_same]
  · intro w h off len slot s hl hw hn hslot x hx
    have hslot' : ((s.chip w).cnt K.SES_SPDM_REQUESTS).hasSlot slot.val = true := hslot
    simp only [List.mem_cons, List.not_mem_nil, or_false] at hx
    obtain rfl | rfl | rfl | rfl | rfl := hx
    · refine ⟨_, rfl, ?_⟩
      simp only [State.chip_onReached hl hw, State.chip_onReached_other hl hw, Chip.spdm_of_le _ _ hn, Chip.setDoe_reply, and_true]
      rfl
    · refine ⟨_, rfl, ?_⟩
      simp only [State.chip_onReached hl hw, State.chip_onReached_other hl hw, Chip.spdm_of_le _ _ hn, hslot', Bool.not_true, Bool.false_eq_true, if_false,
        Chip.setDoe_reply, and_true]
      rfl
    · refine ⟨s.nextFree.2.onReached h _, rfl, ?_⟩
      have hl' : s.nextFree.2.linkIn h = true := hl
      have hw' : s.nextFree.2.homeOf (portOf h) = some w := hw
      simp only [State.chip_onReached hl' hw', State.chip_onReached_other hl' hw', State.chip_nextFree, Chip.spdm_of_le _ _ hn, hslot', Bool.not_true,
        Bool.false_eq_true, if_false, Chip.setDoe_reply, and_true]
      rfl
    · refine ⟨_, rfl, ?_⟩
      simp only [State.chip_onReached hl hw, State.chip_onReached_other hl hw, Chip.spdm_of_le _ _ hn, and_true]
      exact Chip.setDoe_reply _ _ _
    · refine ⟨_, rfl, ?_⟩
      simp only [State.chip_onReached hl hw, State.chip_onReached_other hl hw, Chip.spdm_of_le _ _ hn, and_true]
      exact Chip.setDoe_reply _ _ _
  · intro w h s hl hw hn hs hh
    refine ⟨_, rfl, ?_⟩
    have hfree : ((List.range 4).find? fun i => !((s.chip w).head h).sessions.contains i && !((s.chip w).head h).handshakes.contains i) = some 0 := by
      simp [hs, hh, List.find?]
    simp only [State.chip_onReached hl hw, State.chip_onReached_other hl hw, Chip.spdm_of_le _ _ hn, Chip.head_cnt, hfree, Chip.setDoe_reply, and_true]
    simp only [Chip.setDoe, Chip.head_mapHead_same, Chip.head_cnt, hh, List.nil_append]
  · intro w h id s hl hw hn hs
    refine ⟨_, rfl, ?_⟩
    simp only [State.chip_onReached hl hw, State.chip_onReached_other hl hw, Chip.spdm_of_le _ _ hn, Chip.inSession, Chip.head_cnt, hs, if_true,
      Chip.setDoe_reply, and_true]
  · intro w h id bytes set s hl hw hn hs hh hm hlen x hx
    have hm' : ((s.chip w).cnt K.SES_SPDM_REQUESTS).isManager h = true := hm
    have hne : ((s.chip w).head h).sessions.isEmpty = false := by
      cases hx : ((s.chip w).head h).sessions with
      | nil => simp [hx] at hs
      | cons _ _ => rfl
    simp only [List.mem_cons, List.not_mem_nil, or_false] at hx
    obtain rfl | rfl | rfl | rfl | rfl := hx
    all_goals
      refine ⟨_, rfl, ?_⟩
      simp only [State.chip_onReached hl hw, State.chip_onReached_other hl hw, Chip.spdm_of_le _ _ hn, Chip.inSession, Chip.head_cnt, hs, hh, hm', hne,
        Nat.not_lt.2 hlen, if_true, if_false, Bool.false_eq_true, Bool.and_true, and_true]
      exact Chip.spdmEffect_spec _ h _
end Sys2Proof.Machine
end

section
/-! PROOF. Refresh debts, Self-refresh and the other upkeep of the DRAM channels (R419 to R437, R460). -/
namespace Sys2Proof.Machine

namespace Chip

variable (c : Chip)

/-! ## Channels -/

theorem chan_mapChan (d e : Nat) (f : Chan → Chan) : (c.mapChan d f).chan e = if e = d then f (c.chan d) else c.chan e := Table.get_set ..

@[simp] theorem chan_mapChan_same (d : Nat) (f : Chan → Chan) : (c.mapChan d f).chan d = f (c.chan d) := by simp [chan_mapChan]

@[simp] theorem chan_put (f : Fld) (v d : Nat) : (c.put f v).chan d = c.chan d := rfl
@[simp] theorem chan_cnt (k : Ctr) (n d : Nat) : (c.cnt k n).chan d = c.chan d := rfl
@[simp] theorem chan_raise (f : Fld) (d : Nat) : (c.raise f).chan d = c.chan d := by simp [chan]

/-! ## Debts -/

/-- The debt that a word holds for a bank index. -/
def debtOf (w : Word) (k : Nat) : Int := if bitsOf w (4 * k) 4 < 8 then (bitsOf w (4 * k) 4 : Int) else (bitsOf w (4 * k) 4 : Int) - 16

theorem cut_bitsOf (w : Word) {k : Nat} (hk : k < 4) : cut (bitsOf w 0 16) (4 * k) 4 = bitsOf w (4 * k) 4 := by
  unfold cut bitsOf
  generalize w.toNat = x
  simp only [Nat.shiftRight_eq_div_pow]
  obtain rfl | rfl | rfl | rfl : k = 0 ∨ k = 1 ∨ k = 2 ∨ k = 3 := by omega
  all_goals omega

theorem debt_eq (d r : Nat) {k : Nat} (hk : k < 4) : c.debt d r k = debtOf (c.rd (dmcPage d 1) (0x800 + 4 * r)) k := by
  have hpage : (F.DRF_REF_DEBT d r).page = dmcPage d 1 := by
    unfold dmcPage
    dsimp only
    omega
  unfold debt get
  rw [hpage]
  dsimp only
  rw [cut_bitsOf _ hk]
  rfl

/-- A debt set is held between -8 and 7; the others are as they were. -/
theorem debt_setDebt (d r k : Nat) (v : Int) (r' : Nat) {k' : Nat} (hk : k < 4) (hk' : k' < 4) :
    (c.setDebt d r k v).debt d r' k' = if r' = r ∧ k' = k then max (-8) (min 7 v) else c.debt d r' k' := by
  rw [debt_eq _ _ _ hk', debt_eq _ _ _ hk']
  unfold setDebt
  dsimp only
  by_cases hr : r' = r
  · subst hr
    rw [rd_wr_same]
    unfold debtOf
    by_cases hkk : k' = k
    · subst hkk
      have hlo : -8 ≤ max (-8) (min 7 v) := by omega
      have hhi : max (-8) (min 7 v) ≤ 7 := by omega
      rw [bitsOf_withBits_same _ _ _ _ (by omega), if_pos (show r' = r' ∧ k' = k' from ⟨rfl, rfl⟩)]
      generalize max (-8) (min 7 v) = m at *
      split <;> omega
    · rw [bitsOf_withBits_apart _ _ _ _ _ _ (by omega) (by omega), if_neg (show ¬(r' = r' ∧ k' = k) from fun h => hkk h.2)]
  · rw [rd_wr_ne _ _ _ _ _ _ (by unfold regKey; omega), if_neg (fun h => hr h.1)]

theorem rd_of_regs {c e : Chip} (h : e.regs = c.regs) (p o : Nat) : e.rd p o = c.rd p o := by
  unfold rd
  rw [h]

theorem debt_of_rd {c e : Chip} {d r k : Nat} (hk : k < 4) (h : e.rd (dmcPage d 1) (0x800 + 4 * r) = c.rd (dmcPage d 1) (0x800 + 4 * r)) :
    e.debt d r k = c.debt d r k := by
  rw [debt_eq _ _ _ hk, debt_eq _ _ _ hk, h]

end Chip

/-- `e` differs from `c` in words of the refresh page of channel `d` alone. -/
structure DebtsMoved (d : Nat) (c e : Chip) : Prop where
  rest : { e with regs := [] } = { c with regs := [] }
  words : ∀ p o, o < 4096 → p ≠ Chip.dmcPage d 1 → e.rd p o = c.rd p o

namespace DebtsMoved

variable {d : Nat}

theorem refl (c : Chip) : DebtsMoved d c c := ⟨rfl, fun _ _ _ _ => rfl⟩

theorem trans {c e g : Chip} (h : DebtsMoved d c e) (k : DebtsMoved d e g) : DebtsMoved d c g :=
  ⟨k.rest.trans h.rest, fun p o ho hp => (k.words p o ho hp).trans (h.words p o ho hp)⟩

theorem foldl {α : Type} (g : Chip → α → Chip) (l : List α) : (∀ c, ∀ x ∈ l, DebtsMoved d c (g c x)) → ∀ c, DebtsMoved d c (l.foldl g c) := by
  induction l with
  | nil => exact fun _ c => refl c
  | cons x l ih => exact fun h c => (h c x (List.mem_cons_self ..)).trans (ih (fun c y hy => h c y (List.mem_cons_of_mem _ hy)) _)

theorem setDebt (c : Chip) {r : Nat} (k : Nat) (v : Int) (hr : r < 16) : DebtsMoved d c (c.setDebt d r k v) := by
  refine ⟨rfl, fun p o ho hp => Chip.rd_wr_ne _ _ _ _ _ _ fun h => hp (regKey_inj ho (by omega) h).1⟩

variable {c e : Chip} (h : DebtsMoved d c e)
include h

theorem parts : e.applied = c.applied ∧ e.tags = c.tags ∧ e.chans = c.chans ∧ e.cbl = c.cbl ∧ e.trm = c.trm ∧ e.live = c.live :=
  have hr {α : Type} (f : Chip → α) : f { e with regs := [] } = f { c with regs := [] } := congrArg f h.rest
  ⟨hr Chip.applied, hr Chip.tags, hr Chip.chans, hr Chip.cbl, hr Chip.trm, hr Chip.live⟩

theorem get (f : Fld) (ho : f.off < 4096) (hp : f.page ≠ Chip.dmcPage d 1) : e.get f = c.get f := by
  unfold Chip.get
  rw [h.words _ _ ho hp]

theorem chan (n : Nat) : e.chan n = c.chan n := by
  unfold Chip.chan
  rw [h.parts.2.2.1]

theorem cfg (f : Fld) : e.cfg f = c.cfg f := Chip.cfg_of_applied h.parts.1 f

theorem pwr : e.pwr d = c.pwr d := h.get _ (by dsimp only; omega) (by unfold Chip.dmcPage; dsimp only; omega)

theorem rankServes {r : Nat} (hr : r < 16) : e.rankServes d r = c.rankServes d r := by
  unfold Chip.rankServes Chip.rankCount
  rw [h.get (F.DCH_DIMM_COUNT d) (by dsimp only; omega) (by unfold Chip.dmcPage; dsimp only; omega),
    h.get (F.DCH_DIMM_RANKS d) (by dsimp only; omega) (by unfold Chip.dmcPage; dsimp only; omega),
    h.get (F.DTR_TRAIN_RESULT d r) (by dsimp only; omega) (by unfold Chip.dmcPage; dsimp only; omega), h.parts.2.2.2.1]

end DebtsMoved

namespace Chip

variable (c : Chip)

/-- The four debts of a rank, each one more. -/
def bumpDebts (d r : Nat) : Chip := (List.range 4).foldl (fun c k => c.setDebt d r k (c.debt d r k + 1)) c

theorem bumpDebts_moved (d : Nat) {r : Nat} (hr : r < 16) : DebtsMoved d c (c.bumpDebts d r) :=
  DebtsMoved.foldl _ _ (fun e k _ => .setDebt e k _ hr) c

theorem bumpDebts_debt (d r r' : Nat) {k : Nat} (hk : k < 4) :
    (c.bumpDebts d r).debt d r' k = if r' = r then max (-8) (min 7 (c.debt d r k + 1)) else c.debt d r' k := by
  unfold bumpDebts
  rw [show List.range 4 = [0, 1, 2, 3] from rfl]
  simp only [List.foldl_cons, List.foldl_nil]
  obtain rfl | rfl | rfl | rfl : k = 0 ∨ k = 1 ∨ k = 2 ∨ k = 3 := by omega
  all_goals
    simp only [debt_setDebt _ _ _ _ _ _ (show 0 < 4 by decide), debt_setDebt _ _ _ _ _ _ (show 1 < 4 by decide),
      debt_setDebt _ _ _ _ _ _ (show 2 < 4 by decide), debt_setDebt _ _ _ _ _ _ (show 3 < 4 by decide), hk]
    split <;> simp_all

/-- What an interval makes of one rank. -/
def passRank (d : Nat) (ranks : BitVec 16) (c : Chip) (r : Nat) : Chip :=
  if ranks.getLsbD r && c.rankServes d r then (c.bumpDebts d r).refabFallback d r 16 else c

/-- Whether an interval leaves each debt of a rank below POSTPONE. -/
def Postponed (d r : Nat) : Prop := ∀ k, k < 4 → c.debt d r k + 1 < c.cfg (F.DRF_REF_CFG_POSTPONE d) ∧ -8 ≤ c.debt d r k ∧ c.debt d r k < 7

theorem debt_ge (d r : Nat) {k : Nat} (hk : k < 4) : -8 ≤ c.debt d r k := by
  rw [debt_eq _ _ _ hk, debtOf]
  split <;> omega

theorem debt_le (d r : Nat) {k : Nat} (hk : k < 4) : c.debt d r k ≤ 7 := by
  have hlt := bitsOf_lt (c.rd (dmcPage d 1) (0x800 + 4 * r)) (4 * k) 4
  rw [debt_eq _ _ _ hk, debtOf]
  split <;> omega

theorem passRank_eq (d r : Nat) (ranks : BitVec 16) (hr : r < 16) (hp : c.Postponed d r) :
    passRank d ranks c r = if ranks.getLsbD r && c.rankServes d r then c.bumpDebts d r else c := by
  unfold passRank
  split
  · have hno : ((List.range 4).any fun k => decide ((c.bumpDebts d r).debt d r k ≥ ((c.bumpDebts d r).cfg (F.DRF_REF_CFG_POSTPONE d) : Int))) = false := by
      rw [List.any_eq_false]
      intro k hk
      have hk4 := List.mem_range.1 hk
      obtain ⟨h1, h2, h3⟩ := hp k hk4
      rw [bumpDebts_debt _ _ _ _ hk4, if_pos rfl, (c.bumpDebts_moved d hr).cfg, decide_eq_true_eq]
      omega
    unfold refabFallback
    rw [hno]
    rfl
  · rfl

/-- An interval over ranks whose debts stay below POSTPONE adds one to the debts of those that serve. -/
theorem passRanks_spec (d : Nat) (ranks : BitVec 16) : ∀ (l : List Nat) (c : Chip), l.Nodup → (∀ r ∈ l, r < 16) → (∀ r ∈ l, c.Postponed d r) →
    DebtsMoved d c (l.foldl (passRank d ranks) c) ∧
      ∀ r k, k < 4 → r < 16 → (l.foldl (passRank d ranks) c).debt d r k =
        if r ∈ l ∧ (ranks.getLsbD r && c.rankServes d r) = true then c.debt d r k + 1 else c.debt d r k := by
  intro l
  induction l with
  | nil => exact fun c _ _ _ => ⟨.refl c, fun r k _ _ => by simp⟩
  | cons q l ih =>
    intro c hnd hlt hpost
    obtain ⟨hq, hl⟩ := List.nodup_cons.1 hnd
    have hq16 := hlt q (List.mem_cons_self ..)
    have hqp := hpost q (List.mem_cons_self ..)
    have hmove : DebtsMoved d c (passRank d ranks c q) := by
      rw [passRank_eq c d q ranks hq16 hqp]
      split
      · exact c.bumpDebts_moved d hq16
      · exact .refl c
    have hdebt : ∀ r k, k < 4 → (passRank d ranks c q).debt d r k =
        if r = q ∧ (ranks.getLsbD q && c.rankServes d q) = true then c.debt d r k + 1 else c.debt d r k := by
      intro r k hk
      obtain ⟨-, h2, h3⟩ := hqp k hk
      rw [passRank_eq c d q ranks hq16 hqp]
      by_cases hs : (ranks.getLsbD q && c.rankServes d q) = true
      · rw [if_pos hs, bumpDebts_debt _ _ _ _ hk]
        by_cases hrq : r = q
        · subst hrq
          rw [if_pos rfl, if_pos ⟨rfl, hs⟩]
          omega
        · rw [if_neg hrq, if_neg fun h => hrq h.1]
      · rw [if_neg hs, if_neg fun h => hs h.2]
    have hpost' : ∀ r ∈ l, (passRank d ranks c q).Postponed d r := by
      intro r hr k hk
      have hne : r ≠ q := fun h => hq (h ▸ hr)
      rw [hdebt r k hk, if_neg (fun h => hne h.1), hmove.cfg]
      exact hpost r (List.mem_cons_of_mem _ hr) k hk
    obtain ⟨hm, hd⟩ := ih (passRank d ranks c q) hl (fun r hr => hlt r (List.mem_cons_of_mem _ hr)) hpost'
    refine ⟨hmove.trans hm, fun r k hk hr => ?_⟩
    rw [List.foldl_cons, hd r k hk hr, hdebt r k hk, hmove.rankServes hr]
    by_cases hrq : r = q
    · subst hrq
      simp [hq]
    · simp [hrq]

/-! ## Self-refresh -/

/-- The debts of a channel, all paid. -/
def clearDebts (d : Nat) : Chip := (List.range 16).foldl (fun c r => (List.range 4).foldl (fun c k => c.setDebt d r k 0) c) c

theorem clearDebts_moved (d : Nat) : DebtsMoved d c (c.clearDebts d) :=
  DebtsMoved.foldl _ _ (fun e _ hr => DebtsMoved.foldl _ _ (fun g k _ => .setDebt g k 0 (List.mem_range.1 hr)) e) c

theorem clearDebts_debt (d r : Nat) {k : Nat} (hr : r < 16) (hk : k < 4) : (c.clearDebts d).debt d r k = 0 := by
  have hrank : ∀ (l : List Nat) (q : Nat) (e : Chip), (∀ j ∈ l, j < 4) →
      (l.foldl (fun c j => c.setDebt d q j 0) e).debt d r k = if r = q ∧ k ∈ l then 0 else e.debt d r k := by
    intro l q
    induction l with
    | nil => exact fun e _ => by simp
    | cons j l ih =>
      intro e hlt
      rw [List.foldl_cons, ih _ fun i hi => hlt i (List.mem_cons_of_mem _ hi), debt_setDebt _ _ _ _ _ _ (hlt j (List.mem_cons_self ..)) hk]
      have hzero : max (-8) (min 7 (0 : Int)) = 0 := by decide
      by_cases hrq : r = q <;> by_cases hkj : k = j <;> simp [hrq, hkj, hzero]
  have hall : ∀ (l : List Nat) (e : Chip),
      (l.foldl (fun c q => (List.range 4).foldl (fun c j => c.setDebt d q j 0) c) e).debt d r k = if r ∈ l then 0 else e.debt d r k := by
    intro l
    induction l with
    | nil => exact fun e => by simp
    | cons q l ih =>
      intro e
      rw [List.foldl_cons, ih, hrank _ q e fun j hj => List.mem_range.1 hj]
      by_cases hrq : r = q <;> simp [hrq, hk]
  exact (hall (List.range 16) c).trans (if_pos (List.mem_range.2 hr))

theorem pwr_put_same (d v : Nat) : (c.put (F.DCH_CH_PWR d) v).pwr d = v % 4 := get_put_same _ _ _ (by show 0 + 2 ≤ 32; decide)

theorem pwr_raise (d d' b : Nat) : (c.raise ⟨0x301 + 4 * d', 0x010, b, 1, false⟩).pwr d = c.pwr d := by
  refine get_raise c _ (F.DCH_CH_PWR d) ?_
  simp [quietReg]

/-- A word of the channel's own page leaves its debts. -/
theorem debt_put (d r : Nat) {k : Nat} (f : Fld) (v : Nat) (hk : k < 4) (hr : r < 16) (ho : f.off < 4096) (hp : f.page ≠ dmcPage d 1) :
    (c.put f v).debt d r k = c.debt d r k :=
  debt_of_rd hk (rd_put_ne _ _ _ _ _ fun h => hp (regKey_inj (by omega) ho h).1.symm)

theorem debt_cnt (d r k j : Nat) (i : Ctr) : (c.cnt i j).debt d r k = c.debt d r k := rfl
theorem debt_mapChan (d r k d' : Nat) (f : Chan → Chan) : (c.mapChan d' f).debt d r k = c.debt d r k := rfl

/-- The entry of Self-refresh: no debt, the state shown and the event raised. -/
theorem enterSelfRefresh_spec (d : Nat) : (c.enterSelfRefresh d).pwr d = 2 ∧ (c.enterSelfRefresh d).is (F.DRF_EV_SR_ENTERED d) = true ∧
    (c.enterSelfRefresh d).chan d = c.chan d := by
  have hc := (c.clearDebts_moved d).chan d
  have he : c.enterSelfRefresh d = (((c.clearDebts d).put (F.DCH_CH_PWR d) 2).cnt (K.DRF_SR_ENTRIES d)).raise (F.DRF_EV_SR_ENTERED d) := by
    unfold enterSelfRefresh clearDebts
    rfl
  rw [he]
  generalize c.clearDebts d = e at hc ⊢
  refine ⟨?_, raise_is _ _ rfl rfl (by show 1 < 32; decide), ?_⟩
  · rw [pwr_raise]
    exact pwr_put_same _ d 2
  · exact (chan_raise ((e.put (F.DCH_CH_PWR d) 2).cnt (K.DRF_SR_ENTRIES d)) (F.DRF_EV_SR_ENTERED d) d).trans hc

/-- Ranks that owe nothing pay nothing. -/
theorem payDebts_none (d : Nat) (l : List Nat) (h : ∀ r ∈ l, ∀ k < 4, c.debt d r k ≤ 0) : l.foldl (payDebts d) c = c := by
  induction l with
  | nil => rfl
  | cons r l ih =>
    have hdue : ((List.range 4).filter fun k => decide (c.debt d r k > 0)) = [] := by
      rw [List.filter_eq_nil_iff]
      intro k hk
      have := h r (List.mem_cons_self ..) k (List.mem_range.1 hk)
      simpa using this
    have hr : payDebts d c r = c := by
      unfold payDebts
      simp only [hdue]
      rfl
    rw [List.foldl_cons, hr]
    exact ih fun q hq => h q (List.mem_cons_of_mem _ hq)

@[simp] theorem chan_peak (k : Ctr) (n d : Nat) : (c.peak k n).chan d = c.chan d := rfl

theorem count_peak_ne (k j : Ctr) (n : Nat) (h : j.page * 128 + j.slot ≠ k.page * 128 + k.slot) : (c.peak k n).count j = c.count j :=
  Table.get_set_ne _ _ _ _ _ h

/-- The backlog of a channel, taken up. -/
theorem readBacklog_spec (d : Nat) : (c.readBacklog d).regs = c.regs ∧ ((c.readBacklog d).chan d).backlog = 0 := by
  unfold readBacklog
  dsimp only
  split
  · next h => exact ⟨rfl, h⟩
  · refine ⟨rfl, ?_⟩
    rw [oweLines, leaveOwed, chan_mapChan_same, chan_cnt, chan_mapChan_same]

/-- The end of the exit from Self-refresh. -/
theorem wakeDone_spec (d ns : Nat) :
    ((((c.clearDebts d).readBacklog d).put (F.DCH_CH_PWR d) 0).peak (K.DRF_SR_WAKE_NS_MAX d) ns).pwr d = 0 ∧
      (((((c.clearDebts d).readBacklog d).put (F.DCH_CH_PWR d) 0).peak (K.DRF_SR_WAKE_NS_MAX d) ns).chan d).backlog = 0 ∧
      ∀ (r : Fin 16) (k : Fin 4), ((((c.clearDebts d).readBacklog d).put (F.DCH_CH_PWR d) 0).peak (K.DRF_SR_WAKE_NS_MAX d) ns).debt d r.val k.val = 0 := by
  obtain ⟨hregs, hback⟩ := (c.clearDebts d).readBacklog_spec d
  have hdebt : ∀ (r : Fin 16) (k : Fin 4), ((c.clearDebts d).readBacklog d).debt d r.val k.val = 0 := fun r k =>
    (debt_of_rd k.isLt (rd_of_regs hregs _ _)).trans (c.clearDebts_debt d r.val r.isLt k.isLt)
  generalize (c.clearDebts d).readBacklog d = e at hback hdebt ⊢
  refine ⟨pwr_put_same _ d 0, hback, fun r k => ?_⟩
  exact (debt_put e d r.val (F.DCH_CH_PWR d) 0 k.isLt r.isLt (by dsimp only; omega) (by unfold dmcPage; dsimp only; omega)).trans (hdebt r k)

theorem clear_all {V : Type} (t : Table V) : t.clear (fun _ => true) = [] := by
  unfold Table.clear
  simp

end Chip

open Chip in
/-- Settles O50: each clause is the branch of its command that the hypotheses name; the debts of other ranks and the other words are apart. -/
theorem dramUpkeepComplete : Obligations.DramUpkeepComplete := by
  unfold Obligations.DramUpkeepComplete
  refine ⟨?_, ?_, ?_, ?_, ?_, ?_, ?_, ?_, ?_, ?_, ?_⟩
  · intro w d r ranks s hup hpwr hsel hserve hpost hmax
    refine ⟨_, rfl, ?_⟩
    simp only [State.chip_onUp hup, State.chip_onUp_other, ge_iff_le, Nat.not_le.2 hpwr, if_false, and_true]
    obtain ⟨hm, hd⟩ := passRanks_spec d.val ranks (List.range 16) (s.chip w) List.nodup_range (fun q hq => List.mem_range.1 hq) (fun q hq k hk =>
      have hq16 := List.mem_range.1 hq
      ⟨hpost ⟨q, hq16⟩ ⟨k, hk⟩, debt_ge _ _ _ hk, hmax ⟨q, hq16⟩ ⟨k, hk⟩⟩)
    refine ⟨fun k => ?_, hm.parts.2.2.1, hm.parts.2.1⟩
    refine (hd r.val k.val k.isLt r.isLt).trans (if_pos ⟨List.mem_range.2 r.isLt, ?_⟩)
    rw [hsel, hserve]
    rfl
  · intro w d r k s hup hpwr hserve hq hdebt
    refine ⟨_, rfl, ?_⟩
    have hpull : (s.chip w).cfg (F.DRF_REF_CFG_PULLIN d.val) < 8 := bitsOf_lt _ _ _
    have hge := debt_ge (s.chip w) d.val r.val k.isLt
    have hle := debt_le (s.chip w) d.val r.val k.isLt
    have hm := DebtsMoved.setDebt (d := d.val) (s.chip w) k.val ((s.chip w).debt d.val r.val k.val - 1) r.isLt
    simp only [State.chip_onUp hup, State.chip_onUp_other, hpwr, hserve, hq, Int.not_le.2 hdebt, bne_self_eq_false, Bool.not_true, Bool.or_self, decide_false,
      Bool.false_eq_true, if_false, and_true, chan_cnt, debt_cnt, debt_mapChan, closeRows, chan_mapChan_same, debt_setDebt _ _ _ _ _ _ k.isLt k.isLt, and_self,
      if_true]
    refine ⟨?_, ?_, ?_, ?_⟩
    · rw [hm.chan]
    · omega
    · exact count_cnt_same ..
    · rfl
  · intro w d r s hup hpwr
    refine ⟨_, rfl, ?_⟩
    have h1 : ((s.chip w).mapChan d.val fun x => { x with refreshing := x.refreshing.filter fun y => y.1 != r.val }).pwr d.val = 0 := hpwr
    simp only [State.chip_onUp hup, State.chip_onUp_other, h1, and_true]
    rw [if_neg (by simp)]
    exact ⟨by rw [chan_mapChan_same], rfl⟩
  · intro w d twoX s hup
    refine ⟨_, rfl, ?_⟩
    simp only [State.chip_onUp hup, State.chip_onUp_other, and_true]
    have hput : ((s.chip w).put (F.DCH_CH_REF_2X d.val) twoX.toNat).get (F.DCH_CH_REF_2X d.val) = twoX.toNat :=
      (get_put_same _ _ _ (by show 16 + 16 ≤ 32; decide)).trans (Nat.mod_eq_of_lt twoX.isLt)
    split
    · refine ⟨(get_raise _ _ _ (by simp [quietReg])).trans hput, fun _ => raise_is _ _ rfl rfl (by show 2 < 32; decide)⟩
    · next hno => exact ⟨hput, fun h => absurd (by simpa using h) hno⟩
  · intro w d s hup hcfg hpwr hout hq hsvc hdebt hre
    refine ⟨_, rfl, ?_⟩
    have hrest : (s.chip w).mayRest d.val = true := by simp [mayRest, hcfg, hpwr, hout, hq, hsvc]
    have hnone := payDebts_none (((s.chip w).put (F.DCH_CH_PWR d.val) 1).closeRows d.val fun _ => true) d.val (List.range 16) fun r hr k hk => by
      have hr16 := List.mem_range.1 hr
      rw [closeRows, debt_mapChan, debt_put _ _ _ _ _ hk hr16 (by dsimp only; omega) (by unfold dmcPage; dsimp only; omega)]
      exact hdebt ⟨r, hr16⟩ ⟨k, hk⟩
    simp only [State.chip_onUp hup, State.chip_onUp_other, hrest, Bool.not_true, Bool.false_eq_true, if_false, hnone, and_true]
    have hch : (((s.chip w).put (F.DCH_CH_PWR d.val) 1).closeRows d.val fun _ => true).chan d.val = { (s.chip w).chan d.val with rows := [] } := by
      rw [closeRows, chan_mapChan_same, chan_put, clear_all]
    rw [hch, if_pos (by simp [hre])]
    obtain ⟨hp, he, hc⟩ := enterSelfRefresh_spec (((s.chip w).put (F.DCH_CH_PWR d.val) 1).closeRows d.val fun _ => true) d.val
    exact ⟨hp, he, (congrArg Chan.rows (hc.trans hch) :)⟩
  · intro w d ns s hup hpwr
    refine ⟨_, rfl, ?_⟩
    simp only [State.chip_onUp hup, State.chip_onUp_other, hpwr, ne_eq, not_true, if_false, and_true]
    exact wakeDone_spec (s.chip w) d.val ns
  · intro w d r s hup
    refine ⟨_, rfl, ?_⟩
    simp only [State.chip_onUp hup, State.chip_onUp_other, chan_mapChan_same, and_true]
    exact ⟨by simp, rfl⟩
  · intro w d r s hup hz
    refine ⟨_, rfl, ?_⟩
    simp only [State.chip_onUp hup, State.chip_onUp_other, hz, Bool.not_true, Bool.false_eq_true, if_false, closeRows, chan_cnt, chan_mapChan_same, and_true]
    exact ⟨by simp, count_cnt_same ..⟩
  · intro w d r ps s hup hps
    refine ⟨_, rfl, ?_⟩
    have hcfg : ((s.chip w).cnt (K.DTR_OSC_RUNS d.val)).cfg (F.DTR_DRIFT_CFG_THRESH_PS d.val) = (s.chip w).cfg (F.DTR_DRIFT_CFG_THRESH_PS d.val) := rfl
    simp only [State.chip_onUp hup, State.chip_onUp_other, hcfg, Nat.not_le.2 hps, if_false, and_true, chan_peak, chan_cnt, chan_mapChan_same]
    refine ⟨?_, ?_⟩
    · rw [Table.get_set_same]
      rfl
    · rw [count_peak_ne _ _ _ _ (by dsimp only; omega), count_cnt_same]
      refine congrArg (fun x => (x + 1) % 2 ^ 48) (Eq.trans (b := ((s.chip w).cnt (K.DTR_OSC_RUNS d.val)).count (K.DTR_DRIFT_STEPS d.val)) rfl ?_)
      exact count_cnt_ne _ _ _ _ (by dsimp only; omega)
  · intro w d s hup hpwr hb
    refine ⟨_, rfl, ?_⟩
    have h1 : ((s.chip w).cnt K.PAT_SR_WAKES).pwr d.val = 2 := hpwr
    simp only [State.chip_onUp hup, State.chip_onUp_other, hpwr, hb, ge_iff_le, decide_true, BEq.rfl, Bool.and_self, if_true, meetChannel, h1, and_true]
    exact ⟨pwr_put_same _ _ _, count_cnt_same ..⟩
  · intro w d s hup hr
    refine ⟨_, rfl, ?_⟩
    simp only [State.chip_onUp hup, State.chip_onUp_other, hr, if_false, and_true]
    exact ⟨count_cnt_same .., rfl⟩
end Sys2Proof.Machine
end

section
/-! PROOF. What owed lines, the Metadata Cache and the DRAM log's own entries change (R404, R408, R441): nothing that a command's effect is told by. -/
namespace Sys2Proof.Machine

/-- A chip without what owed lines, held metadata lines, log entries and events change. -/
def Chip.upkeep (c : Chip) : Chip :=
  { c.rest with
    mdc := {}, chans := [], ras := {}
    trm := { c.trm with extDram := [], parcelsDram := [], dirtyDram := [], objectsDram := [], patchDram := [], pcacheDram := [], readyDram := [] }
    che := { c.che with shadowDram := [] } }

/-- `d` differs from `c` in owed lines, in what the Metadata Cache and the DRAM log hold, in counters, and in what an event changes. -/
structure Upkept (c d : Chip) : Prop where
  rest : d.upkeep = c.upkeep
  words : ∀ p o, quietReg p o = true → p ≠ 0x0F0 → d.rd p o = c.rd p o
  heads : ∀ h, (d.head h).quiet = (c.head h).quiet
  chans : ∀ n, { d.chan n with owed := [] } = { c.chan n with owed := [] }
  twe : { d.twe with pmSeq := 0, gated := [], changeDram := [] } = { c.twe with pmSeq := 0, gated := [], changeDram := [] }
  events : EventsKept c d

namespace Upkept

theorem refl (c : Chip) : Upkept c c := ⟨rfl, fun _ _ _ _ => rfl, fun _ => rfl, fun _ => rfl, rfl, .refl c⟩

theorem trans {c d e : Chip} (h : Upkept c d) (k : Upkept d e) : Upkept c e where
  rest := k.rest.trans h.rest
  words p o hq hp := (k.words p o hq hp).trans (h.words p o hq hp)
  heads i := (k.heads i).trans (h.heads i)
  chans n := (k.chans n).trans (h.chans n)
  twe := k.twe.trans h.twe
  events := h.events.trans k.events

theorem foldl {α : Type} (g : Chip → α → Chip) (l : List α) (h : ∀ c x, Upkept c (g c x)) : ∀ c, Upkept c (l.foldl g c) := by
  induction l with
  | nil => exact refl
  | cons x l ih => exact fun c => (h c x).trans (ih (g c x))

/-- What the shared operations change is upkeep. -/
theorem of_rest_quiet {c d : Chip} (hr : d.rest = c.rest) (hq : d.quiet = c.quiet) (he : EventsKept c d) : Upkept c d where
  rest := congrArg (fun x : Chip => { x with
    mdc := {}, chans := [], ras := {}
    trm := { x.trm with extDram := [], parcelsDram := [], dirtyDram := [], objectsDram := [], patchDram := [], pcacheDram := [], readyDram := [] }
    che := { x.che with shadowDram := [] } }) hr
  words p o h _ := Chip.rd_of_quiet hq p o h
  heads i := Chip.head_of_quiet hq i
  chans n := congrArg (fun x : Chip => { x.chan n with owed := [] }) hr
  twe := congrArg (fun x : Quiet => { x.twe with changeDram := [] }) hq
  events := he

theorem raise (c : Chip) (f : Fld) : Upkept c (c.raise f) := of_rest_quiet (Chip.raise_rest c f) (Chip.raise_quiet c f) (.raise c f)

theorem cnt (c : Chip) (k : Ctr) (n : Nat) : Upkept c (c.cnt k n) :=
  ⟨rfl, fun _ _ _ _ => rfl, fun _ => rfl, fun _ => rfl, rfl, .cnt c k n⟩

/-- A word of the DRAM log's page. -/
theorem put (c : Chip) (f : Fld) (v : Nat) (hp : f.page = 0x0F0) (ho : f.off < 4096) (he : f.off ≠ 0x010) : Upkept c (c.put f v) := by
  refine ⟨rfl, fun p o hq hne => Chip.rd_put_ne _ _ _ _ _ fun h => hne ?_, fun _ => rfl, fun _ => rfl, rfl, .put c f v ho he⟩
  have hlt : o < 4096 := by
    simp only [quietReg, Bool.and_eq_true, decide_eq_true_eq] at hq
    exact hq.1.1.1.1
  exact ((regKey_inj hlt ho h).1).trans hp

/-- What the Metadata Cache holds. -/
theorem mdc (c : Chip) (x : Mdc) : Upkept c { c with mdc := x } := ⟨rfl, fun _ _ _ _ => rfl, fun _ => rfl, fun _ => rfl, rfl, .of_regs rfl⟩

/-- What the DRAM log holds. -/
theorem ras (c : Chip) (x : Ras) : Upkept c { c with ras := x } := ⟨rfl, fun _ _ _ _ => rfl, fun _ => rfl, fun _ => rfl, rfl, .of_regs rfl⟩

theorem oweLines (c : Chip) (k : Client) (d n : Nat) : Upkept c (c.oweLines k d n) := by
  unfold Chip.oweLines Chip.leaveOwed
  refine ⟨rfl, fun _ _ _ _ => rfl, fun _ => rfl, fun m => ?_, rfl, .of_regs rfl⟩
  rw [Chip.chan_mapChan]
  split
  · next h => rw [h]
  · rfl

theorem oweBlock (c : Chip) (k : Client) (x n : Nat) : Upkept c (c.oweBlock k x n) := by
  unfold Chip.oweBlock
  exact foldl _ _ (fun d y => oweLines d _ _ _) c

/-! ## The Metadata Cache -/

theorem setMdcWay (c : Chip) (s w : Nat) (x : MdcLine) : Upkept c (c.setMdcWay s w x) := mdc c _

theorem mdcRefer (c : Chip) (s w : Nat) : Upkept c (c.mdcRefer s w) := by
  unfold Chip.mdcRefer
  dsimp only
  split
  · refine (setMdcWay c s w _).trans (foldl _ _ (fun d v => ?_) _)
    split
    · exact refl d
    · exact setMdcWay d s v _
  · exact setMdcWay c s w _

theorem mdcToDram (c : Chip) (line : Nat) : Upkept c (c.mdcToDram line) := by
  unfold Chip.mdcToDram
  dsimp only
  refine trans ?_ ((cnt _ _ _).trans (oweBlock _ _ _ _))
  split <;> exact ⟨rfl, fun _ _ _ _ => rfl, fun _ => rfl, fun _ => rfl, rfl, .of_regs rfl⟩

theorem evbDrain (n : Nat) : ∀ c : Chip, Upkept c (c.evbDrain n) := by
  induction n with
  | zero => exact refl
  | succ n ih =>
    intro c
    unfold Chip.evbDrain
    split
    · exact refl c
    · exact (mdc c _).trans ((mdcToDram _ _).trans (ih _))

theorem evbPush (c : Chip) (line : Nat) : Upkept c (c.evbPush line) := by
  unfold Chip.evbPush
  dsimp only
  split
  · exact (raise c _).trans ((evbDrain 1 _).trans (mdc _ _))
  · exact mdc c _

theorem mdcInstall (c : Chip) (line : Nat) (dirty : Bool) : Upkept c (c.mdcInstall line dirty) := by
  unfold Chip.mdcInstall
  dsimp only
  split
  · split
    · exact mdcToDram c line
    · exact refl c
  · split
    · exact (evbPush c _).trans ((setMdcWay _ _ _ _).trans (mdcRefer _ _ _))
    · exact (setMdcWay c _ _ _).trans (mdcRefer _ _ _)

theorem mdcTouch (c : Chip) (line : Nat) (write : Bool) : Upkept c (c.mdcTouch line write) := by
  unfold Chip.mdcTouch
  dsimp only
  split
  · exact (setMdcWay c _ _ _).trans ((mdcRefer _ _ _).trans (cnt _ _ _))
  · split
    · exact (mdc c _).trans ((cnt _ _ _).trans (mdcInstall _ _ _))
    · exact (cnt c _ _).trans ((oweBlock _ _ _ _).trans (mdcInstall _ _ _))

/-! ## The DRAM log -/

theorem dloFlush (c : Chip) : Upkept c c.dloFlush := by
  unfold Chip.dloFlush
  split
  · exact refl c
  · extract_lets all cap lost ring x d e f
    have hd : Upkept c d := ras c _
    have he : Upkept d e := put d _ _ rfl (by decide) (by decide)
    have hf : Upkept e f := by
      unfold f
      clear_value e d ring
      split
      · exact refl e
      · exact put e _ _ rfl (by decide) (by decide)
    refine hd.trans (he.trans (hf.trans ?_))
    split
    · exact refl f
    · exact (cnt f _ _).trans (raise _ _)

theorem dloMany (c : Chip) : Upkept c c.dloMany := by
  unfold Chip.dloMany
  split
  · exact dloFlush c
  · exact refl c

theorem dloEnter (c : Chip) (source level kind copy address location : Nat) (syndrome : Option (BitVec 128)) :
    Upkept c (c.dloEnter source level kind copy address location syndrome) := by
  unfold Chip.dloEnter
  split
  · exact cnt c _ _
  · extract_lets n found e x d f g
    have hd : Upkept c d := ras c _
    have hf : Upkept d f := (put d _ _ rfl (by decide) (by decide)).trans (put _ _ _ rfl (by decide) (by decide))
    have hg : Upkept f g := (cnt f _ _).trans (cnt _ _ _)
    refine hd.trans (hf.trans (hg.trans ?_))
    split
    · exact raise g _
    · exact refl g

theorem dlo (c : Chip) (source level kind copy address location : Nat) (syndrome : Option (BitVec 128)) :
    Upkept c (c.dlo source level kind copy address location syndrome) :=
  (dloMany c).trans ((dloEnter _ _ _ _ _ _ _ _).trans (dloMany _))

/-! ## What follows of it -/

variable {c d : Chip} (h : Upkept c d)
include h

theorem get (f : Fld) (hq : quietReg f.page f.off = true) (hp : f.page ≠ 0x0F0) : d.get f = c.get f := by
  unfold Chip.get
  rw [h.words _ _ hq hp]

theorem is (f : Fld) (hq : quietReg f.page f.off = true) (hp : f.page ≠ 0x0F0) : d.is f = c.is f := by
  unfold Chip.is
  rw [h.get f hq hp]

/-- The parts of a chip that upkeep leaves as they are. -/
theorem parts : d.applied = c.applied ∧ d.answers = c.answers ∧ d.clk = c.clk ∧ d.mail = c.mail ∧ d.tags = c.tags ∧ d.wmb = c.wmb ∧ d.rings = c.rings ∧
    d.rte = c.rte ∧ d.mde = c.mde ∧ d.svc = c.svc ∧ d.cbl = c.cbl ∧ d.cores = c.cores ∧ d.dram = c.dram ∧ d.icu = c.icu ∧ d.rst = c.rst ∧ d.sec = c.sec :=
  have hr {α : Type} (f : Chip → α) : f d.upkeep = f c.upkeep := congrArg f h.rest
  ⟨hr Chip.applied, hr Chip.answers, hr Chip.clk, hr Chip.mail, hr Chip.tags, hr Chip.wmb, hr Chip.rings, hr Chip.rte, hr Chip.mde, hr Chip.svc, hr Chip.cbl,
    hr Chip.cores, hr Chip.dram, hr Chip.icu, hr Chip.rst, hr Chip.sec⟩

theorem cbl : d.cbl = c.cbl := by
  obtain ⟨-, -, -, -, -, -, -, -, -, -, hcbl, -⟩ := h.parts
  exact hcbl

theorem tags : d.tags = c.tags := by
  obtain ⟨-, -, -, -, htags, -⟩ := h.parts
  exact htags

theorem core (n : Nat) : d.core n = c.core n := (congrArg (Chip.core · n) h.rest :)

/-- What the coherence engine holds, but for its copy in DRAM. -/
theorem che : { d.che with shadowDram := [] } = { c.che with shadowDram := [] } := (congrArg Chip.che h.rest :)

end Upkept

/-- `d` differs from `c` in words of pages that `P` names alone. -/
structure WordsIn (P : Nat → Prop) (c d : Chip) : Prop where
  rest : { d with regs := [] } = { c with regs := [] }
  words : ∀ p o, o < 4096 → ¬P p → d.rd p o = c.rd p o

namespace WordsIn

variable {P : Nat → Prop}

theorem refl (c : Chip) : WordsIn P c c := ⟨rfl, fun _ _ _ _ => rfl⟩

theorem trans {c d e : Chip} (h : WordsIn P c d) (k : WordsIn P d e) : WordsIn P c e :=
  ⟨k.rest.trans h.rest, fun p o ho hp => (k.words p o ho hp).trans (h.words p o ho hp)⟩

theorem foldl {α : Type} (g : Chip → α → Chip) (l : List α) : (∀ c, ∀ x ∈ l, WordsIn P c (g c x)) → ∀ c, WordsIn P c (l.foldl g c) := by
  induction l with
  | nil => exact fun _ c => refl c
  | cons x l ih => exact fun h c => (h c x (List.mem_cons_self ..)).trans (ih (fun c y hy => h c y (List.mem_cons_of_mem _ hy)) _)

theorem put (c : Chip) (f : Fld) (v : Nat) (hp : P f.page) (ho : f.off < 4096) : WordsIn P c (c.put f v) := by
  refine ⟨rfl, fun p o hlt hne => Chip.rd_put_ne _ _ _ _ _ fun h => ?_⟩
  obtain ⟨rfl, -⟩ := regKey_inj hlt ho h
  exact hne hp

/-- Four words of such pages. -/
theorem puts4 (c : Chip) (f g i j : Fld) (u v x y : Nat) (hf : P f.page ∧ f.off < 4096) (hg : P g.page ∧ g.off < 4096) (hi : P i.page ∧ i.off < 4096)
    (hj : P j.page ∧ j.off < 4096) : WordsIn P c ((((c.put f u).put g v).put i x).put j y) :=
  (put c f u hf.1 hf.2).trans ((put _ g v hg.1 hg.2).trans ((put _ i x hi.1 hi.2).trans (put _ j y hj.1 hj.2)))

variable {c d : Chip} (h : WordsIn P c d)
include h

theorem get (f : Fld) (ho : f.off < 4096) (hp : ¬P f.page) : d.get f = c.get f := by
  unfold Chip.get
  rw [h.words _ _ ho hp]

theorem chan (n : Nat) : d.chan n = c.chan n := (congrArg (Chip.chan · n) h.rest :)
theorem rst : d.rst = c.rst := (congrArg Chip.rst h.rest :)

end WordsIn

namespace Chip

variable (c : Chip)

/-! ## Training -/

/-- What training of a channel shows of each of its ranks. -/
def showRanksTrained (d n : Nat) (t : ChannelTraining) (retired : Nat → Bool) : Chip :=
  (List.range 16).foldl (fun c r =>
    let res := if r ≥ n then 3 else if retired r then 4 else if t.failed.getLsbD r then 2 else 1
    ((((c.put (F.DTR_TRAIN_RESULT d r) res).put (F.DTR_TRAIN_STEP d r) (if res = 2 then t.step.val else 0)).put
      (F.DTR_TRAIN_RD_EYE d r) t.rdEye.toNat).put (F.DTR_TRAIN_WR_EYE d r) t.wrEye.toNat)) c

theorem showRanksTrained_words (d n : Nat) (t : ChannelTraining) (retired : Nat → Bool) :
    WordsIn (· = 0x302 + 4 * d) c (c.showRanksTrained d n t retired) := by
  refine WordsIn.foldl _ _ (fun e r hr => ?_) c
  have hr16 := List.mem_range.1 hr
  have hoff : 0x800 + 4 * r < 4096 := by omega
  exact WordsIn.puts4 e _ _ _ _ _ _ _ _ ⟨rfl, hoff⟩ ⟨rfl, hoff⟩ ⟨rfl, hoff⟩ ⟨rfl, hoff⟩

theorem regs_mapChan (d : Nat) (f : Chan → Chan) : (c.mapChan d f).regs = c.regs := rfl
theorem rst_mapChan (d : Nat) (f : Chan → Chan) : (c.mapChan d f).rst = c.rst := rfl

theorem newDimm_parts (d : Nat) (t : ChannelTraining) :
    (c.newDimm d t).regs = c.regs ∧ (c.newDimm d t).chans = c.chans ∧ (c.newDimm d t).rst = c.rst := by
  unfold newDimm
  dsimp only
  split <;> exact ⟨rfl, rfl, rfl⟩

end Chip

/-- What training of channel `d` leaves: the words of other channels and of every other block, the other channels, the start. -/
structure ApartFrom (d : Nat) (c e : Chip) : Prop where
  words : ∀ p o, o < 4096 → ¬(0x300 + 4 * d ≤ p ∧ p < 0x304 + 4 * d) → e.rd p o = c.rd p o
  chans : ∀ n, n ≠ d → e.chan n = c.chan n
  rst : e.rst = c.rst

namespace Chip

variable (c : Chip)

/-- The DIMMs of a channel as training shows them. -/
structure ShowsTraining (d : Nat) (t : ChannelTraining) : Prop where
  trained : (c.chan d).trained = true
  dimms : c.get (F.DCH_DIMM_COUNT d) = t.dimms.val
  ranks : c.get (F.DCH_DIMM_RANKS d) = t.ranks.val

/-- A channel trained without a failing rank. -/
theorem trainChannel_spec (d : Nat) (t : ChannelTraining) (hf : t.failed = 0) :
    (c.trainChannel d t).2 = false ∧ ApartFrom d c (c.trainChannel d t).1 ∧ (c.trainChannel d t).1.ShowsTraining d t := by
  unfold trainChannel
  extract_lets n d1 d2 retired fails good refuse d3 d4 d5
  have hfails : fails = [] := by
    simp [fails, hf]
  have hrefuse : refuse = false := by
    simp [refuse, hfails]
  obtain ⟨hregs, hchans, hrst⟩ := c.newDimm_parts d t
  have hpage : ∀ p, ¬(0x300 + 4 * d ≤ p ∧ p < 0x304 + 4 * d) → p ≠ 0x300 + 4 * d ∧ p ≠ 0x302 + 4 * d := fun p hp => by omega
  have hoff : 0x800 < 4096 := by decide
  have h2 : WordsIn (· = 0x300 + 4 * d) d1 d2 := WordsIn.puts4 _ _ _ _ _ _ _ _ _ ⟨rfl, hoff⟩ ⟨rfl, hoff⟩ ⟨rfl, hoff⟩ ⟨rfl, hoff⟩
  have h3 : WordsIn (· = 0x302 + 4 * d) d2 d3 := showRanksTrained_words d2 d n t retired
  have h4 : WordsIn (· = 0x300 + 4 * d) d3 d4 := WordsIn.put _ _ _ rfl (by show 0x808 < 4096; decide)
  have hshown : d2.get (F.DCH_DIMM_COUNT d) = t.dimms.val ∧ d2.get (F.DCH_DIMM_RANKS d) = t.ranks.val := by
    unfold d2
    refine ⟨?_, ?_⟩
    · rw [get_put_apart _ (F.DCH_DIMM_GIB d) (F.DCH_DIMM_COUNT d) _ (by show 16 + 9 ≤ 32; decide) rfl rfl (.inl (by show 0 + 2 ≤ 16; decide)),
        get_put_apart _ (F.DCH_DIMM_DENSITY d) (F.DCH_DIMM_COUNT d) _ (by show 8 + 2 ≤ 32; decide) rfl rfl (.inl (by show 0 + 2 ≤ 8; decide)),
        get_put_apart _ (F.DCH_DIMM_RANKS d) (F.DCH_DIMM_COUNT d) _ (by show 4 + 4 ≤ 32; decide) rfl rfl (.inl (by show 0 + 2 ≤ 4; decide)),
        get_put_same _ _ _ (by show 0 + 2 ≤ 32; decide)]
      exact Nat.mod_eq_of_lt (by show t.dimms.val < 4; omega)
    · rw [get_put_apart _ (F.DCH_DIMM_GIB d) (F.DCH_DIMM_RANKS d) _ (by show 16 + 9 ≤ 32; decide) rfl rfl (.inl (by show 4 + 4 ≤ 16; decide)),
        get_put_apart _ (F.DCH_DIMM_DENSITY d) (F.DCH_DIMM_RANKS d) _ (by show 8 + 2 ≤ 32; decide) rfl rfl (.inl (by show 4 + 4 ≤ 8; decide)),
        get_put_same _ _ _ (by show 4 + 4 ≤ 32; decide)]
      exact Nat.mod_eq_of_lt (by show t.ranks.val < 16; omega)
  have hfail : ∀ f : Fld, f.page = 0x300 + 4 * d → f.off = 0x800 → d4.get f = d3.get f := fun f hp ho =>
    get_put_ne _ _ _ _ (by rw [hp, ho]; unfold regKey; dsimp only; omega)
  have hregs1 : d1.regs = c.regs := hregs
  have hchans1 : d1.chans = c.chans := hchans
  have hrst1 : d1.rst = c.rst := hrst
  have hchan5 : ∀ m, d5.chan m = if m = d then { d4.chan d with trained := true, training := t, pprUsed := [] } else d4.chan m := fun m => chan_mapChan ..
  have hregs5 : d5.regs = d4.regs := regs_mapChan ..
  have hrst5 : d5.rst = d4.rst := rst_mapChan ..
  rw [hfails, hrefuse, if_neg (by decide), List.foldl_nil]
  clear_value d5 d4 d3 refuse fails good retired d2 d1
  have hchan4 : ∀ m, d4.chan m = c.chan m := fun m => by rw [h4.chan, h3.chan, h2.chan, chan, chan, hchans1]
  have hshow : ∀ f : Fld, f.page = 0x300 + 4 * d → f.off = 0x800 → d5.get f = d2.get f := fun f hp ho => by
    rw [get, rd_of_regs hregs5]
    exact (hfail f hp ho).trans (h3.get f (by omega) (by omega))
  refine ⟨rfl, ⟨fun p o ho hp => ?_, fun m hm => ?_, ?_⟩, ?_, (hshow _ rfl rfl).trans hshown.1, (hshow _ rfl rfl).trans hshown.2⟩
  · obtain ⟨hp0, hp2⟩ := hpage p hp
    rw [rd_of_regs hregs5, h4.words p o ho hp0, h3.words p o ho hp2, h2.words p o ho hp0, rd_of_regs hregs1]
  · exact (hchan5 m).trans ((if_neg hm).trans (hchan4 m))
  · rw [hrst5, h4.rst, h3.rst, h2.rst, hrst1]
  · exact (congrArg Chan.trained ((hchan5 d).trans (if_pos rfl)) :)

/-- What training of one channel shows is as it was after training of another. -/
theorem ShowsTraining.apart {c e : Chip} {d d' : Nat} {t : ChannelTraining} (h : c.ShowsTraining d t) (k : ApartFrom d' c e) (hd : d ≠ d') :
    e.ShowsTraining d t where
  trained := by rw [k.chans d hd, h.trained]
  dimms := by
    unfold get
    rw [k.words _ _ (by show 0x800 < 4096; decide) (by dsimp only; omega)]
    exact h.dimms
  ranks := by
    unfold get
    rw [k.words _ _ (by show 0x800 < 4096; decide) (by dsimp only; omega)]
    exact h.ranks

/-- Sixteen channels trained without a failing rank. -/
theorem trainAll_spec (x : List ChannelTraining) (hf : ∀ z ∈ x, z.failed = 0) :
    (c.trainAll x).2 = false ∧ (c.trainAll x).1.mode = c.mode ∧ (c.trainAll x).1.rst = c.rst ∧
      ∀ d < 16, (c.trainAll x).1.ShowsTraining d (x.getD d ⟨0, 0, 0, 0, 0, 0, 0, 0, 0, false, 0, 0, 0⟩) := by
  have hget : ∀ d, (x.getD d ⟨0, 0, 0, 0, 0, 0, 0, 0, 0, false, 0, 0, 0⟩).failed = 0 := by
    intro d
    rw [List.getD_eq_getElem?_getD]
    cases h : x[d]? with
    | none => rfl
    | some z => exact hf z (List.mem_of_getElem? h)
  have hall : ∀ (l : List Nat) (e : Chip), l.Nodup →
      let r := l.foldl (fun (a : Chip × Bool) d =>
        let y := a.1.trainChannel d (x.getD d ⟨0, 0, 0, 0, 0, 0, 0, 0, 0, false, 0, 0, 0⟩)
        (y.1, a.2 || y.2)) (e, false)
      r.2 = false ∧ r.1.mode = e.mode ∧ r.1.rst = e.rst ∧
        (∀ d t, d ∉ l → e.ShowsTraining d t → r.1.ShowsTraining d t) ∧
        ∀ d ∈ l, r.1.ShowsTraining d (x.getD d ⟨0, 0, 0, 0, 0, 0, 0, 0, 0, false, 0, 0, 0⟩) := by
    intro l
    induction l with
    | nil => exact fun e _ => ⟨rfl, rfl, rfl, fun _ _ _ h => h, fun d h => absurd h (List.not_mem_nil)⟩
    | cons q l ih =>
      intro e hnd
      obtain ⟨hq, hl⟩ := List.nodup_cons.1 hnd
      obtain ⟨hno, happart, hshows⟩ := e.trainChannel_spec q _ (hget q)
      have hmode : (e.trainChannel q (x.getD q ⟨0, 0, 0, 0, 0, 0, 0, 0, 0, false, 0, 0, 0⟩)).1.mode = e.mode := by
        unfold mode get
        rw [happart.words 0x070 _ (by decide) (by omega)]
      rw [List.foldl_cons]
      dsimp only
      rw [hno, Bool.or_self]
      generalize (e.trainChannel q (x.getD q ⟨0, 0, 0, 0, 0, 0, 0, 0, 0, false, 0, 0, 0⟩)).1 = g at happart hshows hmode ⊢
      obtain ⟨h2, hm, hr, hkeep, hin⟩ := ih g hl
      refine ⟨h2, hm.trans hmode, hr.trans happart.rst, fun d t hd hs => ?_, fun d hd => ?_⟩
      · obtain ⟨hdq, hdl⟩ := not_or.1 (mt List.mem_cons.2 hd)
        exact hkeep d t hdl (hs.apart happart hdq)
      · obtain rfl | hdl := List.mem_cons.1 hd
        · exact hkeep d _ hq hshows
        · exact hin d hdl
  obtain ⟨h2, hm, hr, -, hin⟩ := hall (List.range 16) c List.nodup_range
  unfold trainAll
  exact ⟨h2, hm, hr, fun d hd => ⟨(hin d (List.mem_range.2 hd)).trained, (hin d (List.mem_range.2 hd)).dimms, (hin d (List.mem_range.2 hd)).ranks⟩⟩

/-! ## Repairs and spares -/

/-- What is left of the spares, once one is drawn. -/
theorem drew_upkept (kind location : Nat) (last : Bool) :
    Upkept { c with cbl := { c.cbl with today := c.cbl.today.set (fun _ => 0) kind (c.cbl.today.get (fun _ => 0) kind + 1) } } (c.drew kind location last) := by
  unfold drew
  dsimp only
  split
  · exact (Upkept.dlo _ _ _ _ _ _ _ _).trans ((Upkept.cnt _ _ _).trans ((Upkept.raise _ _).trans (Upkept.raise _ _)))
  · exact (Upkept.dlo _ _ _ _ _ _ _ _).trans ((Upkept.cnt _ _ _).trans (Upkept.raise _ _))

theorem cbl_put (f : Fld) (v : Nat) : (c.put f v).cbl = c.cbl := rfl
theorem cbl_mapCore (n : Nat) (f : Core → Core) : (c.mapCore n f).cbl = c.cbl := rfl
theorem cbl_of_icuKept {c d : Chip} (h : IcuKept c d) : d.cbl = c.cbl := (congrArg Chip.cbl h.rest :)

theorem foldl_sources {α : Type} (g : Chip → α → Chip) (h : ∀ d x, ({ g d x with icu := {} } : Chip) = { d with icu := {} }) (l : List α) :
    ∀ d : Chip, ({ l.foldl g d with icu := {} } : Chip) = { d with icu := {} } := by
  induction l with
  | nil => exact fun d => rfl
  | cons x l ih => exact fun d => (ih _).trans (h d x)

/-- What a core that restarts leaves: it runs from its reset entry. -/
theorem restartCore_spec (n phys : Nat) (z : Bool) :
    ((c.restartCore n phys z).core n).phys = phys ∧ ((c.restartCore n phys z).core n).pc = 0 ∧ (c.restartCore n phys z).cbl = c.cbl := by
  unfold restartCore returnSources
  extract_lets fresh
  generalize hd : (c.mapCore n fresh).put (F.ICO_ASLEEP n) 0 = d
  have hcore : d.core n = fresh (c.core n) := by rw [← hd, core_put, core_mapCore_same]
  have hcbl : d.cbl = c.cbl := by rw [← hd, cbl_put, cbl_mapCore]
  have hfold := foldl_sources (fun e i =>
      let x := d.src i
      if x.serving == some n then e.mapSrc i fun x => { x with serving := none, count := min 255 (max 1 (x.count + x.claimCount)), claimCount := 0 }
      else if x.presented == some n then e.mapSrc i fun x => { x with presented := none } else e)
    (fun e i => by
      dsimp only
      split
      · rfl
      · split <;> rfl) d.heldSources d
  generalize d.heldSources.foldl _ d = e at hfold ⊢
  have hecore : e.core n = fresh (c.core n) := (congrArg (core · n) hfold :).trans hcore
  have hecbl : e.cbl = c.cbl := (congrArg Chip.cbl hfold :).trans hcbl
  have hu := IcuKept.icuUpdate e
  rw [hu.core_awake n (by rw [hecore]), hecore]
  exact ⟨rfl, rfl, (cbl_of_icuKept hu).trans hecbl⟩

/-- The backlog taken up leaves all but the channels' backlogs and owed lines as it was. -/
theorem readBacklog_keeps (d : Nat) : (c.readBacklog d).cbl = c.cbl ∧
    ∀ n, { (c.readBacklog d).chan n with owed := [], backlog := 0 } = { c.chan n with owed := [], backlog := 0 } := by
  unfold readBacklog
  dsimp only
  split
  · exact ⟨rfl, fun n => rfl⟩
  · refine ⟨rfl, fun n => ?_⟩
    rw [oweLines, leaveOwed, chan_mapChan, chan_cnt]
    split
    · next hn => rw [hn, chan_mapChan_same]
    · next hn => rw [chan_cnt, chan_mapChan, if_neg hn]

/-- A window of a channel without findings. -/
theorem windowChannel_none (d : Nat) (h : (c.chan d).devRows = [] ∧ (c.chan d).rowCe = []) :
    c.windowChannel d = c.mapChan d fun y => { y with devRows := [], rowCe := [] } := by
  unfold windowChannel
  simp only [h.1, h.2, List.filter_nil, List.foldl_nil]

/-- Windows of channels without findings leave words, tiers and repairs as they were. -/
theorem windows_none (l : List Nat) : ∀ c : Chip, (∀ d ∈ l, (c.chan d).devRows = [] ∧ (c.chan d).rowCe = []) →
    (l.foldl windowChannel c).regs = c.regs ∧ (l.foldl windowChannel c).trm = c.trm ∧ (l.foldl windowChannel c).cbl = c.cbl := by
  induction l with
  | nil => exact fun c _ => ⟨rfl, rfl, rfl⟩
  | cons d l ih =>
    intro c h
    rw [List.foldl_cons, windowChannel_none c d (h d (List.mem_cons_self ..))]
    refine ih _ fun n hn => ?_
    rw [chan_mapChan]
    split
    · exact ⟨rfl, rfl⟩
    · exact h n (List.mem_cons_of_mem _ hn)

/-- A soft repair that ended well, listed and shown. -/
def listSoftRepair (d key r bg : Nat) : Chip :=
  let c := { c with cbl := { c.cbl with spprRows := (d, key) :: c.cbl.spprRows } }.cnt (K.DRF_PPR_SOFT d)
  let c := (c.put F.CBD_SPPR_ROWS c.cbl.spprRows.length).put F.CBD_HPPR_ROWS c.cbl.hpprRows.length
  (c.mapChan d fun y => { y with pprUsed := y.pprUsed.set (fun _ => 0) (r * 8 + bg) (y.pprUsed.get (fun _ => 0) (r * 8 + bg) + 1) }).showPprLeft

theorem listSoftRepair_spec (d key r bg : Nat) : (c.listSoftRepair d key r bg).get (F.DRF_PPR_STATUS_STATE d) = c.get (F.DRF_PPR_STATUS_STATE d) ∧
    ((c.listSoftRepair d key r bg).chan d).out = (c.chan d).out ∧
    (c.listSoftRepair d key r bg).cbl = { c.cbl with spprRows := (d, key) :: c.cbl.spprRows } := by
  have hne : ∀ (e : Chip) (f : Fld) (v : Nat), f.page = 0x102 → f.off < 4096 → (e.put f v).get (F.DRF_PPR_STATUS_STATE d) = e.get (F.DRF_PPR_STATUS_STATE d) :=
    fun e f v hp ho => get_put_ne _ _ _ _ fun h => by
      have hpage : 0x301 + 4 * d = f.page := (regKey_inj (by show 0x840 < 4096; decide) ho h).1
      omega
  unfold listSoftRepair
  extract_lets x e g
  have hge : g.get (F.DRF_PPR_STATUS_STATE d) = e.get (F.DRF_PPR_STATUS_STATE d) := (hne _ _ _ rfl (by decide)).trans (hne _ _ _ rfl (by decide))
  have hee : e.get (F.DRF_PPR_STATUS_STATE d) = c.get (F.DRF_PPR_STATUS_STATE d) := rfl
  have hg : (g.chan d).out = (c.chan d).out := rfl
  have hgc : g.cbl = { c.cbl with spprRows := (d, key) :: c.cbl.spprRows } := rfl
  clear_value g
  refine ⟨(hne _ _ _ rfl (by decide)).trans (hge.trans hee), ?_, hgc⟩
  rw [showPprLeft, chan_put, chan_mapChan_same]
  exact hg

/-- The outcome of a repair that no command asked for and that ended well. -/
theorem pprOutcome_none (p : DramPlace) (hard : Bool) (h : c.cbl.retireJobs = []) : c.pprOutcome p hard false 0 = c := by
  simp [pprOutcome, h]

/-- With no access waiting the commons have nothing to run. -/
theorem runCommons_idle (ht : c.tags = []) (ho : c.che.ordered = []) :
    c.runCommons = { c with che := { c.che with victims := c.che.victims.filter fun l => c.che.snoops.any fun x => x.line == l } } := by
  unfold runCommons
  dsimp only
  have hw : ∀ e : Chip, e.tags = [] → e.che.ordered = [] → e.orderWaiting.pumpOrdered 1 = e := fun e he ho => by
    have hone : e.orderWaiting = e := by simp [orderWaiting, he]
    rw [hone]
    simp [pumpOrdered, ho]
  have hn : c.che.ordered.length + c.tags.length + 1 = 1 := by simp [ht, ho]
  rw [hn]
  exact hw _ ht ho

/-- The one entry of a bank that moves to the spare, with a free way for it. -/
theorem migrateBank_spec (b : Nat) (d : Fin 64) (k v : Nat) (e : DirEntry) (htags : c.tags = []) (hord : c.che.ordered = [])
    (hmig : c.cbl.bankMigrating.contains b = true) (hsh : c.che.shadow = [(k, e)]) (hset : c.dirSet (k * 64) % 16 = b)
    (hdom : c.domainOf (k * 64) = some d.val) (harb : c.arbiter d.val = true)
    (hfree : ({ c with cbl := { c.cbl with bankMigrating := dropN c.cbl.bankMigrating b } } : Chip).freeWay (c.dirSet (k * 64)) = some v) :
    (c.migrateBank b).cbl.bankMigrating.contains b = false ∧ (c.migrateBank b).che.shadow.get (fun _ => {}) k = {} ∧
      (c.migrateBank b).che.sram.get (fun _ => {}) k = { e with way := v } := by
  unfold migrateBank
  simp only [hmig, Bool.not_true, Bool.false_eq_true, if_false]
  have hin : ({ c with cbl := { c.cbl with bankMigrating := dropN c.cbl.bankMigrating b } } : Chip).che = c.che := rfl
  have hset' : ({ c with cbl := { c.cbl with bankMigrating := dropN c.cbl.bankMigrating b } } : Chip).dirSet (k * 64) = c.dirSet (k * 64) := rfl
  have hdom' : ({ c with cbl := { c.cbl with bankMigrating := dropN c.cbl.bankMigrating b } } : Chip).domainOf (k * 64) = some d.val := hdom
  have harb' : ({ c with cbl := { c.cbl with bankMigrating := dropN c.cbl.bankMigrating b } } : Chip).arbiter d.val = true := harb
  have htags' : ({ c with cbl := { c.cbl with bankMigrating := dropN c.cbl.bankMigrating b } } : Chip).tags = [] := htags
  have hgone : ({ c with cbl := { c.cbl with bankMigrating := dropN c.cbl.bankMigrating b } } : Chip).cbl.bankMigrating.contains b = false := by
    simp [dropN]
  rw [← hin] at hord
  rw [← hset'] at hset hfree
  generalize ({ c with cbl := { c.cbl with bankMigrating := dropN c.cbl.bankMigrating b } } : Chip) = g at hord hset hfree hdom' harb' htags' hgone ⊢
  rw [hsh, List.filter_cons, List.filter_nil]
  simp only [hset, hdom', harb', beq_self_eq_true, Bool.and_self, if_true, List.foldl_cons, List.foldl_nil]
  rw [intoSram]
  simp only [hfree]
  have hk : Upkept { g with che := { g.che with shadow := g.che.shadow.set (fun _ => {}) k {} } } (g.setShadow k {}) := Upkept.mdcTouch _ _ _
  generalize g.setShadow k {} = u at hk ⊢
  have htags2 : u.tags = [] := hk.tags.trans htags'
  have hord2 : u.che.ordered = [] := (congrArg Che.ordered hk.che :).trans hord
  have hshadow : u.che.shadow = g.che.shadow.set (fun _ => {}) k {} := (congrArg Che.shadow hk.che :)
  rw [runCommons_idle { u with che := { u.che with sram := u.che.sram.set (fun _ => {}) k { e with way := v } } } htags2 hord2]
  dsimp only
  rw [hk.cbl, hshadow, Table.get_set_same, Table.get_set_same]
  exact ⟨hgone, rfl, rfl⟩

/-- The end of a repair shown, before it is listed. -/
def endRepair (d : Nat) : Chip :=
  (((c.mapChan d fun x => { x with out := none, pprFrom := none }).readBacklog d).put (F.DRF_PPR_STATUS_STATE d) 0).raise (F.DRF_EV_PPR_DONE d)

theorem endRepair_spec (d : Nat) : (c.endRepair d).get (F.DRF_PPR_STATUS_STATE d) = 0 ∧ ((c.endRepair d).chan d).out = none ∧
    (c.endRepair d).cbl = c.cbl ∧ (c.endRepair d).get (F.DRF_PPR_STATUS_ERR d) = c.get (F.DRF_PPR_STATUS_ERR d) := by
  unfold endRepair
  obtain ⟨hcbl, hch⟩ := readBacklog_keeps (c.mapChan d fun x => { x with out := none, pprFrom := none }) d
  obtain ⟨hregs, -⟩ := readBacklog_spec (c.mapChan d fun x => { x with out := none, pprFrom := none }) d
  have hd := hch d
  rw [chan_mapChan_same] at hd
  rw [regs_mapChan] at hregs
  have hmap : (c.mapChan d fun x => { x with out := none, pprFrom := none }).cbl = c.cbl := rfl
  rw [hmap] at hcbl
  generalize Chip.readBacklog _ d = e at hcbl hregs hd ⊢
  have hout : (e.chan d).out = none := (congrArg Chan.out hd :)
  have hq : quietReg (0x301 + 4 * d) 0x840 = true := by simp [quietReg]
  refine ⟨?_, ?_, ?_, ?_⟩
  · rw [get_raise _ _ (F.DRF_PPR_STATUS_STATE d) hq]
    exact get_put_same _ _ _ (by show 0 + 2 ≤ 32; decide)
  · rw [chan_raise]
    exact hout
  · exact (of_rest (raise_rest _ _)).2.2.2.2.2.2.2.2.2.2.2.2.2.2.2.2.2.2.2.2.2.2.2.1.trans hcbl
  · rw [get_raise _ _ (F.DRF_PPR_STATUS_ERR d) hq]
    refine (get_put_apart _ (F.DRF_PPR_STATUS_STATE d) (F.DRF_PPR_STATUS_ERR d) _ (by show 0 + 2 ≤ 32; decide) rfl rfl (.inr (by show 0 + 2 ≤ 8; decide))).trans ?_
    exact congrArg (bitsOf · 8 8) (rd_of_regs hregs _ _)

/-- A soft repair that software asked for and that ends well is shown and listed. -/
theorem execPprDone_soft (w : Twin) (d : Fin 16) (r bg ba row : Nat) (s : State) (hup : (s.chip w).up = true)
    (hst : (s.chip w).get (F.DRF_PPR_STATUS_STATE d.val) = 3) (herr : (s.chip w).get (F.DRF_PPR_STATUS_ERR d.val) = 0)
    (hfrom : ((s.chip w).chan d.val).pprFrom = some (r, bg, ba, row)) (hhard : ((s.chip w).chan d.val).pprHard = false)
    (hauto : ((s.chip w).chan d.val).pprAuto = false) (hjobs : (s.chip w).cbl.retireJobs = []) :
    ∃ t, execPprDone w d s = .next t ∧ t.chip w = ((s.chip w).endRepair d.val).listSoftRepair d.val (DramPlace.mk d.val r bg ba row 0).rowKey r bg ∧
      t.chip w.other = s.chip w.other := by
  refine ⟨_, rfl, (State.chip_onUp hup _).trans ?_, State.chip_onUp_other ..⟩
  obtain ⟨-, -, hcbl, he⟩ := (s.chip w).endRepair_spec d.val
  split
  · next r' bg' ba' row' hst' hfrom' =>
    rw [hfrom, Option.some.injEq, Prod.mk.injEq, Prod.mk.injEq, Prod.mk.injEq] at hfrom'
    obtain ⟨rfl, rfl, rfl, rfl⟩ := hfrom'
    extract_lets x key e g p err y g1 g2 g3 g4
    have hg : g = (s.chip w).endRepair d.val := rfl
    have herr' : err = 0 := (congrArg (Chip.get · (F.DRF_PPR_STATUS_ERR d.val)) hg).trans (he.trans herr)
    have hjobs' : g.cbl.retireJobs = [] := (congrArg (fun e : Chip => e.cbl.retireJobs) hg).trans ((congrArg Cbl.retireJobs hcbl).trans hjobs)
    have hlisted : (g.listSoftRepair d.val key r bg).cbl.retireJobs = [] := by
      rw [(listSoftRepair_spec g d.val key r bg).2.2]
      exact hjobs'
    have hx1 : x.pprHard = false := hhard
    have hx2 : x.pprAuto = false := hauto
    have h1 : g1 = ({ g with cbl := { g.cbl with spprRows := (d.val, key) :: g.cbl.spprRows } } : Chip).cnt (K.DRF_PPR_SOFT d.val) := if_neg (by simp [hx1])
    have h3 : g3 = g.listSoftRepair d.val key r bg := by
      unfold g3 g2 listSoftRepair
      rw [h1]
    have h4 : g4 = g3 := if_neg (by simp [hx2])
    rw [if_neg (not_not_intro herr'), h4, h3, hx2]
    exact pprOutcome_none _ p _ hlisted
  · next hno => exact absurd hfrom (hno r bg ba row hst)

theorem windowEnd_none (x : Cbl) (h : ∀ d : Fin 16, (c.chan d.val).devRows = [] ∧ (c.chan d.val).rowCe = []) :
    ((List.range 16).foldl windowChannel { c with cbl := x }).regs = c.regs ∧
      ((List.range 16).foldl windowChannel { c with cbl := x }).trm = c.trm ∧ ((List.range 16).foldl windowChannel { c with cbl := x }).cbl = x :=
  windows_none (List.range 16) { c with cbl := x } fun d hd => h ⟨d, List.mem_range.1 hd⟩

end Chip

open Chip in
/-- Settles O51: each clause is the branch of its command that the hypotheses name. -/
theorem dramRepairComplete : Obligations.DramRepairComplete := by
  unfold Obligations.DramRepairComplete
  refine ⟨?_, ?_, ?_, ?_, ?_, ?_, ?_, ?_, ?_⟩
  · intro w x d y s hup hf hlen hy
    refine ⟨_, rfl, ?_⟩
    obtain ⟨hno, hmode, hrst, hshows⟩ := (s.chip w).trainAll_spec x hf
    have hd := hshows d.val d.isLt
    rw [List.getD_eq_getElem?_getD, hy, Option.getD_some] at hd
    simp only [State.chip_onUp hup, State.chip_onUp_other, hno, Bool.false_eq_true, if_false, and_true]
    generalize ((s.chip w).trainAll x).1 = e at hmode hrst hd ⊢
    have hput : ∀ (v : Nat) (f : Fld), f.page ≠ 0x020 → f.off < 4096 → (e.put F.RST_TRAIN_DONE_MS v).get f = e.get f := fun v f hp ho =>
      get_put_ne _ _ _ _ fun h => hp (regKey_inj ho (by decide) h).1
    exact ⟨hd.trained, (hput _ _ (by dsimp only; omega) (by show 0x800 < 4096; decide)).trans hd.dimms,
      (hput _ _ (by dsimp only; omega) (by show 0x800 < 4096; decide)).trans hd.ranks, congrArg (fun x : Rst => max x.step 7) hrst,
      (hput _ _ (by decide) (by decide)).trans hmode⟩
  · intro w d r rdEye wrEye s hup hout hret hst
    refine ⟨_, rfl, ?_⟩
    simp only [State.chip_onUp hup, State.chip_onUp_other, hout, hret, hst, bne_self_eq_false, Bool.or_self, Bool.false_eq_true, if_false, if_true, and_true]
    obtain ⟨-, hch⟩ := readBacklog_keeps ((s.chip w).mapChan d.val fun y => { y with out := none, retrainDue := y.retrainDue.filter (· != r.val) }) d.val
    have hnone := congrArg Chan.out ((hch d.val).trans (congrArg (fun y : Chan => { y with owed := [], backlog := 0 }) (chan_mapChan_same ..)))
    generalize Chip.readBacklog _ d.val = e at hch hnone ⊢
    have hev := raise_is (e.cnt (K.DTR_RETRAINS d.val)) (F.DTR_EV_RETRAIN d.val) rfl rfl (by show 1 < 32; decide)
    have hgone : (((e.cnt (K.DTR_RETRAINS d.val)).raise (F.DTR_EV_RETRAIN d.val)).chan d.val).out = none := by
      rw [chan_raise, chan_cnt]
      exact hnone
    generalize (e.cnt (K.DTR_RETRAINS d.val)).raise (F.DTR_EV_RETRAIN d.val) = g at hev hgone ⊢
    refine ⟨hgone, ?_, ?_, ?_⟩
    · rw [get_put_apart _ (F.DTR_TRAIN_WR_EYE d.val r.val) (F.DTR_TRAIN_RD_EYE d.val r.val) _ (by show 16 + 8 ≤ 32; decide) rfl rfl
        (.inl (by show 8 + 8 ≤ 16; decide)), get_put_same _ _ _ (by show 8 + 8 ≤ 32; decide)]
      exact Nat.mod_eq_of_lt rdEye.isLt
    · exact (get_put_same _ _ _ (by show 16 + 8 ≤ 32; decide)).trans (Nat.mod_eq_of_lt wrEye.isLt)
    · rw [is_put_ne _ (F.DTR_TRAIN_WR_EYE d.val r.val) _ _ (by unfold regKey; dsimp only; omega),
        is_put_ne _ (F.DTR_TRAIN_RD_EYE d.val r.val) _ _ (by unfold regKey; dsimp only; omega), hev]
  · intro w rq d s hup hrq hrun hmay
    refine ⟨_, rfl, ?_⟩
    simp only [State.chip_onUp hup, State.chip_onUp_other, ifWrites, hrq, ifRunning, hrun, pprGo, hmay, pprStart, Bool.not_true, Bool.false_eq_true,
      if_true, if_false, and_true, chan_put, chan_mapChan_same]
    rw [get_put_apart _ (F.DRF_PPR_STATUS_ERR d.val) (F.DRF_PPR_STATUS_STATE d.val) _ (by show 8 + 8 ≤ 32; decide) rfl rfl (.inl (by show 0 + 2 ≤ 8; decide)),
      get_put_same _ _ _ (by show 0 + 2 ≤ 32; decide)]
    rfl
  · intro w d r bg ba row s hup hst hfrom hpwr hout
    refine ⟨_, rfl, ?_⟩
    simp only [State.chip_onUp hup, State.chip_onUp_other, hst, hfrom, hpwr, hout, List.isEmpty_nil, and_self, if_true, and_true, chan_put, rankOut, closeRows,
      chan_mapChan_same, true_and]
    exact ⟨get_put_same _ _ _ (by show 0 + 2 ≤ 32; decide), rfl⟩
  · intro w d err s hup hst
    refine ⟨_, rfl, ?_⟩
    simp only [State.chip_onUp hup, State.chip_onUp_other, hst, ne_eq, not_true, if_false, and_true]
    have hstate : (((s.chip w).put (F.DRF_PPR_STATUS_STATE d.val) 3).put (F.DRF_PPR_STATUS_ERR d.val) err.val).get (F.DRF_PPR_STATUS_STATE d.val) = 3 := by
      rw [get_put_apart _ (F.DRF_PPR_STATUS_ERR d.val) (F.DRF_PPR_STATUS_STATE d.val) _ (by show 8 + 8 ≤ 32; decide) rfl rfl
        (.inl (by show 0 + 2 ≤ 8; decide)), get_put_same _ _ _ (by show 0 + 2 ≤ 32; decide)]
      rfl
    have herr : (((s.chip w).put (F.DRF_PPR_STATUS_STATE d.val) 3).put (F.DRF_PPR_STATUS_ERR d.val) err.val).get (F.DRF_PPR_STATUS_ERR d.val) = err.val :=
      (get_put_same _ _ _ (by show 8 + 8 ≤ 32; decide)).trans (Nat.mod_eq_of_lt (by show err.val < 256; omega))
    split
    · exact ⟨hstate, herr, rfl⟩
    · refine ⟨(get_raise _ _ _ (by simp [quietReg])).trans hstate, (get_raise _ _ _ (by simp [quietReg])).trans herr, ?_⟩
      rw [(raise_parts _ _).2.2.2.2.2.2.2.2.2.2.2.2.2.2.2.2.2.2.2.2.2.2.2.2.2.1]
      rfl
  · intro w d r bg ba row s hup hst herr hfrom hhard hauto hjobs
    obtain ⟨t, ht, hchip, hother⟩ := execPprDone_soft w d r bg ba row s hup hst herr hfrom hhard hauto hjobs
    obtain ⟨hstate, hout, hcbl, -⟩ := (s.chip w).endRepair_spec d.val
    obtain ⟨hs, ho, hc⟩ := ((s.chip w).endRepair d.val).listSoftRepair_spec d.val (DramPlace.mk d.val r bg ba row 0).rowKey r bg
    rw [hcbl] at hc
    refine ⟨t, ht, ?_, ?_, ?_, ?_, hother⟩
    · rw [hchip, hs, hstate]
    · rw [hchip, ho, hout]
    · rw [hchip, hc]
    · rw [hchip, hc]
  · intro w s hup hleft hwait hpend hch
    refine ⟨_, rfl, ?_⟩
    simp only [State.chip_onUp hup, State.chip_onUp_other, hleft, hwait, hpend, ne_eq, not_true, if_false, and_true, List.foldl_nil]
    have hwin := fun x => windowEnd_none (s.chip w) x hch
    rw [(hwin _).1, (hwin _).2.1, (hwin _).2.2]
    exact ⟨rfl, rfl, rfl⟩
  · intro w bank d k v e s hup htags hord hmig hsh hset hdom harb hfree
    refine ⟨_, rfl, ?_⟩
    simp only [State.chip_onUp hup, State.chip_onUp_other, and_true]
    exact migrateBank_spec (s.chip w) bank.val d k v e htags hord hmig hsh hset hdom harb hfree
  · intro w n s hup hret hleft
    refine ⟨_, rfl, ?_⟩
    simp only [State.chip_onUp hup, State.chip_onUp_other, hret, List.contains_cons, beq_self_eq_true, Bool.true_or, Bool.not_true, hleft, Bool.false_eq_true,
      decide_false, Bool.or_self, if_false, and_true]
    obtain ⟨hphys, hpc, hcbl⟩ := restartCore_spec { (s.chip w) with cbl := { (s.chip w).cbl with
      coreRetired := [n.val].filter (· != n.val), coreSwap := some n.val } } n.val 8 true
    generalize Chip.restartCore _ n.val 8 true = e at hphys hpc hcbl ⊢
    have hk := drew_upkept (e.put F.CBO_CORES_LEFT 0) 12 (sramLocation 9 n.val 0) true
    rw [hk.core, hk.get _ (by decide) (by decide), hk.cbl]
    refine ⟨?_, ?_, get_put_same _ _ _ (by decide), hphys, hpc⟩
    · exact (congrArg Cbl.coreRetired hcbl).trans (by simp)
    · exact congrArg Cbl.coreSwap hcbl
end Sys2Proof.Machine
end

section
/-! PROOF. Accesses of the control cores to local memory and to the DRAM windows (R480 to R482), and their sleep (R484). -/
namespace Sys2Proof.Machine

/-- What a core keeps of a store: all but local memory, cached bytes and reservation. -/
def Core.kept (x : Core) : Core := { x with scratch := [], cache := [], reservation := none }

/-- A core without what the end of an access changes of it. -/
def Core.stepped (x : Core) : Core := { x with pc := 0, x := [], shadow := [] }

namespace Chip

variable (c : Chip)

/-! ## What a store of a core leaves -/

/-- A chip without what the accesses of a core change: owed lines, the cores, DRAM, and the bytes of the frames. -/
def apartFromStores : Chip := { c with chans := [], cores := [], dram := [], trm := { c.trm with front := [] } }

theorem dpaAt_apart (x : Nat) : c.apartFromStores.dpaAt x = c.dpaAt x := rfl

theorem dpaAt_of_apart {c d : Chip} (h : d.apartFromStores = c.apartFromStores) (x : Nat) : d.dpaAt x = c.dpaAt x := by
  rw [← dpaAt_apart d, h, dpaAt_apart]

/-- Whether no byte of an uncached place lies in a frame. -/
def Unframed (p : CorePlace) : Prop := ∀ x k : Nat, p = .dram x false → c.dpaAt (x + k) = none

theorem setDramByte_apart (x : Nat) (b : Byte) : (c.setDramByte x b).apartFromStores = c.apartFromStores := by
  unfold setDramByte
  split <;> rfl

theorem cores_setDramByte (x : Nat) (b : Byte) : (c.setDramByte x b).cores = c.cores := by
  unfold setDramByte
  split <;> rfl

theorem core_setDramByte (x n : Nat) (b : Byte) : (c.setDramByte x b).core n = c.core n := by
  unfold core
  rw [cores_setDramByte]

theorem setCoreByte_apart (n : Nat) (p : CorePlace) (i : Nat) (b : Byte) : (c.setCoreByte n p i b).apartFromStores = c.apartFromStores := by
  unfold setCoreByte
  split
  · rfl
  · rfl
  · exact setDramByte_apart ..

/-- A byte stored changes local memory and cached bytes of the cores alone. -/
theorem setCoreByte_core (n : Nat) (p : CorePlace) (i : Nat) (b : Byte) (m : Nat) :
    ((c.setCoreByte n p i b).core m).kept = (c.core m).kept ∧ ((c.setCoreByte n p i b).core m).reservation = (c.core m).reservation := by
  unfold setCoreByte
  split
  · rw [core_mapCore]
    split
    · next h =>
      rw [h]
      exact ⟨rfl, rfl⟩
    · exact ⟨rfl, rfl⟩
  · rw [core_mapCore]
    split
    · next h =>
      rw [h]
      exact ⟨rfl, rfl⟩
    · exact ⟨rfl, rfl⟩
  · rw [core_setDramByte]
    exact ⟨rfl, rfl⟩

theorem setCoreByte_scratch (n : Nat) (p : CorePlace) (i : Nat) (b : Byte) (m a : Nat) (h : ∀ off, p = .localMem m off → a ≠ off + i) :
    Table.get zeroByte ((c.setCoreByte n p i b).core m).scratch a = Table.get zeroByte (c.core m).scratch a := by
  unfold setCoreByte
  split
  · next q off =>
    rw [core_mapCore]
    split
    · next hm =>
      subst hm
      exact Table.get_set_ne _ _ _ _ _ (h off rfl)
    · rfl
  · rw [core_mapCore]
    split
    · next hm => rw [hm]
    · rfl
  · rw [core_setDramByte]

theorem setCoreByte_dram (n : Nat) (p : CorePlace) (i : Nat) (b : Byte) (a : Nat) (h : ∀ x, p = .dram x false → a ≠ x + i) :
    Table.get zeroByte (c.setCoreByte n p i b).dram a = Table.get zeroByte c.dram a := by
  unfold setCoreByte
  split
  · rfl
  · rfl
  · next x =>
    unfold setDramByte
    split
    · rfl
    · exact Table.get_set_ne _ _ _ _ _ (h x rfl)

theorem setCoreByte_front (n : Nat) (p : CorePlace) (i : Nat) (b : Byte) (a : Nat) (h : ∀ x, p = .dram x false → c.dpaAt (x + i) ≠ some a) :
    Table.get zeroByte (c.setCoreByte n p i b).trm.front a = Table.get zeroByte c.trm.front a := by
  unfold setCoreByte
  split
  · rfl
  · rfl
  · next x =>
    unfold setDramByte
    split
    · next y hy => exact Table.get_set_ne _ _ _ _ _ fun e => h x rfl (by rw [hy, e])
    · rfl

/-- A byte stored reads back, and no other byte of the place changes. -/
theorem setCoreByte_coreByte (n : Nat) (p : CorePlace) (i : Nat) (b : Byte) (j : Nat) (hu : c.Unframed p) :
    (c.setCoreByte n p i b).coreByte n p j = if j = i then b else c.coreByte n p j := by
  cases p with
  | localMem m off =>
    simp only [setCoreByte, coreByte, core_mapCore_same, Table.get_set, Nat.add_left_cancel_iff]
  | dram x cached =>
    cases cached with
    | true =>
      simp only [setCoreByte, coreByte, core_mapCore_same, Table.get_set, Nat.add_left_cancel_iff]
      split
      · rfl
      · rfl
    | false =>
      have hi := hu x i rfl
      have hj := hu x j rfl
      have hj' : (c.setDramByte (x + i) b).dpaAt (x + j) = none := (dpaAt_of_apart (setDramByte_apart c (x + i) b) (x + j)).trans hj
      simp only [setCoreByte, coreByte, dramByte, hj, hj']
      simp only [setDramByte, hi, Table.get_set, Nat.add_left_cancel_iff]

/-! ## The bytes of a store, one after another -/

/-- The bytes of a value stored at a place. -/
def storeBytes (n : Nat) (p : CorePlace) (v : Nat) (l : List Nat) : Chip :=
  l.foldl (fun c i => c.setCoreByte n p i (BitVec.ofNat 8 (v / 2 ^ (8 * i)))) c

theorem storeBytes_apart (n : Nat) (p : CorePlace) (v : Nat) (l : List Nat) : ∀ c : Chip, (c.storeBytes n p v l).apartFromStores = c.apartFromStores := by
  induction l with
  | nil => exact fun c => rfl
  | cons i l ih => exact fun c => (ih _).trans (setCoreByte_apart ..)

theorem storeBytes_core (n : Nat) (p : CorePlace) (v : Nat) (l : List Nat) (m : Nat) : ∀ c : Chip,
    ((c.storeBytes n p v l).core m).kept = (c.core m).kept ∧ ((c.storeBytes n p v l).core m).reservation = (c.core m).reservation := by
  induction l with
  | nil => exact fun c => ⟨rfl, rfl⟩
  | cons i l ih =>
    intro c
    obtain ⟨h1, h2⟩ := ih (c.setCoreByte n p i (BitVec.ofNat 8 (v / 2 ^ (8 * i))))
    obtain ⟨h3, h4⟩ := c.setCoreByte_core n p i (BitVec.ofNat 8 (v / 2 ^ (8 * i))) m
    exact ⟨h1.trans h3, h2.trans h4⟩

theorem storeBytes_scratch (n : Nat) (p : CorePlace) (v : Nat) (l : List Nat) (m a : Nat) (h : ∀ i ∈ l, ∀ off, p = .localMem m off → a ≠ off + i) :
    ∀ c : Chip, Table.get zeroByte ((c.storeBytes n p v l).core m).scratch a = Table.get zeroByte (c.core m).scratch a := by
  induction l with
  | nil => exact fun c => rfl
  | cons i l ih =>
    exact fun c => (ih (fun j hj => h j (List.mem_cons_of_mem _ hj)) _).trans (setCoreByte_scratch _ _ _ _ _ _ _ (h i (List.mem_cons_self ..)))

theorem storeBytes_dram (n : Nat) (p : CorePlace) (v : Nat) (l : List Nat) (a : Nat) (h : ∀ i ∈ l, ∀ x, p = .dram x false → a ≠ x + i) :
    ∀ c : Chip, Table.get zeroByte (c.storeBytes n p v l).dram a = Table.get zeroByte c.dram a := by
  induction l with
  | nil => exact fun c => rfl
  | cons i l ih =>
    exact fun c => (ih (fun j hj => h j (List.mem_cons_of_mem _ hj)) _).trans (setCoreByte_dram _ _ _ _ _ _ (h i (List.mem_cons_self ..)))

theorem storeBytes_front (n : Nat) (p : CorePlace) (v : Nat) (l : List Nat) (a : Nat) : ∀ c : Chip,
    (∀ i ∈ l, ∀ x, p = .dram x false → c.dpaAt (x + i) ≠ some a) →
      Table.get zeroByte (c.storeBytes n p v l).trm.front a = Table.get zeroByte c.trm.front a := by
  induction l with
  | nil => exact fun c _ => rfl
  | cons i l ih =>
    intro c h
    refine (ih _ fun j hj x hx => ?_).trans (setCoreByte_front _ _ _ _ _ _ (h i (List.mem_cons_self ..)))
    rw [dpaAt_of_apart (setCoreByte_apart ..)]
    exact h j (List.mem_cons_of_mem _ hj) x hx

theorem storeBytes_coreByte (n : Nat) (p : CorePlace) (v : Nat) (l : List Nat) (j : Nat) : ∀ c : Chip, c.Unframed p → l.Nodup →
    (c.storeBytes n p v l).coreByte n p j = if j ∈ l then BitVec.ofNat 8 (v / 2 ^ (8 * j)) else c.coreByte n p j := by
  induction l with
  | nil => exact fun c _ _ => by simp [storeBytes]
  | cons i l ih =>
    intro c hu hnd
    obtain ⟨hi, hl⟩ := List.nodup_cons.1 hnd
    have hu' : (c.setCoreByte n p i (BitVec.ofNat 8 (v / 2 ^ (8 * i)))).Unframed p := fun x k hx => by
      rw [dpaAt_of_apart (setCoreByte_apart ..)]
      exact hu x k hx
    refine (ih _ hu' hl).trans ?_
    rw [setCoreByte_coreByte _ _ _ _ _ _ hu]
    by_cases hj : j = i
    · subst hj
      simp [hi]
    · simp [hj]

/-! ## A whole store -/

/-- The reservations of other cores of a line, cleared. -/
def clearReserved (n line : Nat) (l : List Nat) : Chip :=
  l.foldl (fun c m => if m ≠ n ∧ (c.core m).reservation = some line then c.mapCore m fun x => { x with reservation := none } else c) c

theorem coreStore_eq (n : Nat) (p : CorePlace) (bytes v : Nat) :
    c.coreStore n p bytes v = (c.storeBytes n p v (List.range bytes)).clearReserved n (reserveLine p) (List.range 8) := rfl

/-- Reservations cleared are all that changes, and none of the core's own. -/
theorem clearReserved_spec (n line : Nat) (l : List Nat) : ∀ c : Chip, ({ c.clearReserved n line l with cores := [] } : Chip) = { c with cores := [] } ∧
    (∀ m, { (c.clearReserved n line l).core m with reservation := none } = { c.core m with reservation := none }) ∧
    (c.clearReserved n line l).core n = c.core n := by
  induction l with
  | nil => exact fun c => ⟨rfl, fun _ => rfl, rfl⟩
  | cons i l ih =>
    intro c
    obtain ⟨h1, h2, h3⟩ := ih (if i ≠ n ∧ (c.core i).reservation = some line then c.mapCore i fun x => { x with reservation := none } else c)
    have hone : ∀ d : Chip, d = (if i ≠ n ∧ (c.core i).reservation = some line then c.mapCore i fun x => { x with reservation := none } else c) →
        ({ d with cores := [] } : Chip) = { c with cores := [] } ∧ (∀ m, { d.core m with reservation := none } = { c.core m with reservation := none }) ∧
          d.core n = c.core n := by
      intro d hd
      split at hd
      · next hcond =>
        subst hd
        refine ⟨rfl, fun m => ?_, ?_⟩
        · rw [core_mapCore]
          split
          · next hm => rw [hm]
          · rfl
        · rw [core_mapCore, if_neg (Ne.symm hcond.1)]
      · subst hd
        exact ⟨rfl, fun _ => rfl, rfl⟩
    obtain ⟨k1, k2, k3⟩ := hone _ rfl
    exact ⟨h1.trans k1, fun m => (h2 m).trans (k2 m), h3.trans k3⟩

/-- What a byte seen by a core rests on. -/
theorem coreByte_congr {c d : Chip} (ha : d.apartFromStores = c.apartFromStores) (hd : d.dram = c.dram) (hf : d.trm.front = c.trm.front)
    (hs : ∀ m, (d.core m).scratch = (c.core m).scratch) (hc : ∀ m, (d.core m).cache = (c.core m).cache) (n : Nat) (p : CorePlace) (i : Nat) :
    d.coreByte n p i = c.coreByte n p i := by
  have hbyte : ∀ x, d.dramByte x = c.dramByte x := fun x => by
    unfold dramByte
    rw [dpaAt_of_apart ha, hd, hf]
  unfold coreByte
  split
  · rw [hs]
  · rw [hc, hbyte]
  · rw [hbyte]

theorem coreLoad_congr {c d : Chip} (ha : d.apartFromStores = c.apartFromStores) (hd : d.dram = c.dram) (hf : d.trm.front = c.trm.front)
    (hs : ∀ m, (d.core m).scratch = (c.core m).scratch) (hc : ∀ m, (d.core m).cache = (c.core m).cache) (n : Nat) (p : CorePlace) (bytes : Nat) :
    d.coreLoad n p bytes = c.coreLoad n p bytes := by
  unfold coreLoad
  simp only [coreByte_congr ha hd hf hs hc]

/-- A value is told by its bytes. -/
theorem coreLoad_eq (n : Nat) (p : CorePlace) (v : Nat) : ∀ bytes, (∀ i < bytes, c.coreByte n p i = BitVec.ofNat 8 (v / 2 ^ (8 * i))) →
    c.coreLoad n p bytes = v % 2 ^ (8 * bytes) := by
  intro bytes
  induction bytes with
  | zero => exact fun _ => by simp [coreLoad, Nat.mod_one]
  | succ b ih =>
    intro h
    have hb : c.coreLoad n p (b + 1) = c.coreLoad n p b + (c.coreByte n p b).toNat * 2 ^ (8 * b) := by
      unfold coreLoad
      rw [List.range_succ, List.foldl_append]
      rfl
    rw [hb, ih fun i hi => h i (Nat.lt_succ_of_lt hi), h b (Nat.lt_succ_self b), BitVec.toNat_ofNat, Nat.mul_add, Nat.pow_add, Nat.mod_mul]
    exact congrArg (v % 2 ^ (8 * b) + ·) (Nat.mul_comm _ _)

theorem coreLoad_lt (n : Nat) (p : CorePlace) : ∀ bytes, c.coreLoad n p bytes < 2 ^ (8 * bytes) := by
  intro bytes
  induction bytes with
  | zero => simp [coreLoad]
  | succ b ih =>
    have hb : c.coreLoad n p (b + 1) = c.coreLoad n p b + (c.coreByte n p b).toNat * 2 ^ (8 * b) := by
      unfold coreLoad
      rw [List.range_succ, List.foldl_append]
      rfl
    have hlt := (c.coreByte n p b).isLt
    have hle : (c.coreByte n p b).toNat * 2 ^ (8 * b) ≤ 255 * 2 ^ (8 * b) := Nat.mul_le_mul_right _ (by omega)
    rw [hb, Nat.mul_add, Nat.pow_add]
    omega

/-- What a store of a core does, and what it leaves. -/
structure CoreStored (n : Nat) (p : CorePlace) (bytes v : Nat) (c d : Chip) : Prop where
  apart : d.apartFromStores = c.apartFromStores
  kept : ∀ m, (d.core m).kept = (c.core m).kept
  reservation : (d.core n).reservation = (c.core n).reservation
  scratch : ∀ m a, (∀ off, p = .localMem m off → a < off ∨ off + bytes ≤ a) → Table.get zeroByte (d.core m).scratch a = Table.get zeroByte (c.core m).scratch a
  dram : ∀ a, (∀ x, p = .dram x false → a < x ∨ x + bytes ≤ a) → Table.get zeroByte d.dram a = Table.get zeroByte c.dram a
  front : ∀ a, (∀ x k, p = .dram x false → k < bytes → c.dpaAt (x + k) ≠ some a) → Table.get zeroByte d.trm.front a = Table.get zeroByte c.trm.front a
  load : c.Unframed p → d.coreLoad n p bytes = v % 2 ^ (8 * bytes)

theorem coreStore_spec (n : Nat) (p : CorePlace) (bytes v : Nat) : CoreStored n p bytes v c (c.coreStore n p bytes v) := by
  rw [coreStore_eq]
  have hapart := storeBytes_apart n p v (List.range bytes) c
  have hcore := fun m => storeBytes_core n p v (List.range bytes) m c
  have hscratch := fun m a h => storeBytes_scratch n p v (List.range bytes) m a h c
  have hdram := fun a h => storeBytes_dram n p v (List.range bytes) a h c
  have hfront := fun a h => storeBytes_front n p v (List.range bytes) a c h
  have hbyte := fun j hu => storeBytes_coreByte n p v (List.range bytes) j c hu List.nodup_range
  generalize c.storeBytes n p v (List.range bytes) = d at hapart hcore hscratch hdram hfront hbyte ⊢
  obtain ⟨hrest, hcores, hown⟩ := clearReserved_spec n (reserveLine p) (List.range 8) d
  generalize d.clearReserved n (reserveLine p) (List.range 8) = e at hrest hcores hown ⊢
  have hea : e.apartFromStores = d.apartFromStores := (congrArg apartFromStores hrest :)
  have hed : e.dram = d.dram := (congrArg Chip.dram hrest :)
  have hef : e.trm.front = d.trm.front := (congrArg (fun x : Chip => x.trm.front) hrest :)
  have hes : ∀ m, (e.core m).scratch = (d.core m).scratch := fun m => (congrArg Core.scratch (hcores m) :)
  have hec : ∀ m, (e.core m).cache = (d.core m).cache := fun m => (congrArg Core.cache (hcores m) :)
  have hek : ∀ m, (e.core m).kept = (d.core m).kept := fun m => (congrArg Core.kept (hcores m) :)
  exact {
    apart := hea.trans hapart
    kept := fun m => (hek m).trans (hcore m).1
    reservation := (congrArg Core.reservation hown).trans (hcore n).2
    scratch := fun m a h => by
      rw [hes]
      refine hscratch m a fun i hi off hp => ?_
      have := List.mem_range.1 hi
      have := h off hp
      omega
    dram := fun a h => by
      rw [hed]
      refine hdram a fun i hi x hp => ?_
      have := List.mem_range.1 hi
      have := h x hp
      omega
    front := fun a h => by
      rw [hef]
      exact hfront a fun i hi x hp => h x i hp (List.mem_range.1 hi)
    load := fun hu => by
      rw [coreLoad_congr hea hed hef hes hec]
      exact coreLoad_eq d n p v bytes fun i hi => (hbyte i hu).trans (if_pos (List.mem_range.2 hi)) }

/-! ## The end of an access -/

/-- The destination register written and the pc moved on. -/
def endAccess (n rd : Nat) (v : BitVec 64) : Chip := (c.setCoreReg n rd v).mapCore n fun x => { x with pc := x.pc + 4 }

theorem setCoreReg_core (n rd : Nat) (v : BitVec 64) (m : Nat) : ((c.setCoreReg n rd v).core m).stepped = (c.core m).stepped ∧
    ((c.setCoreReg n rd v).core m).pc = (c.core m).pc := by
  unfold setCoreReg
  split
  · exact ⟨rfl, rfl⟩
  · rw [core_mapCore]
    split
    · next h =>
      rw [h]
      split <;> exact ⟨rfl, rfl⟩
    · exact ⟨rfl, rfl⟩

theorem setCoreReg_rest (n rd : Nat) (v : BitVec 64) : ({ c.setCoreReg n rd v with cores := [] } : Chip) = { c with cores := [] } := by
  unfold setCoreReg
  split <;> rfl

theorem setCoreReg_same (n rd : Nat) (v : BitVec 64) (h : rd ≠ 0) : (c.setCoreReg n rd v).coreReg n rd = v := by
  unfold setCoreReg coreReg
  rw [if_neg h, if_neg h, core_mapCore_same]
  by_cases hf : (c.core n).inFast = true
  · simp only [hf, if_true]
    exact Table.get_set_same ..
  · simp only [hf, if_false, Bool.false_eq_true]
    exact Table.get_set_same ..

theorem coreReg_zero (n : Nat) : c.coreReg n 0 = 0 := by
  unfold coreReg
  rfl

/-- A register reads as before where its core's banks are as before. -/
theorem coreReg_congr {c d : Chip} {n : Nat} (hf : (d.core n).inFast = (c.core n).inFast) (hs : (d.core n).shadow = (c.core n).shadow)
    (hx : (d.core n).x = (c.core n).x) (r : Nat) : d.coreReg n r = c.coreReg n r := by
  unfold coreReg
  dsimp only
  rw [hf, hs, hx]

/-- The end of an access writes its register and moves the pc on; it changes no other part of any core, and no other part of the chip. -/
theorem endAccess_spec (n rd : Nat) (v : BitVec 64) : ({ c.endAccess n rd v with cores := [] } : Chip) = { c with cores := [] } ∧
    (∀ m, ((c.endAccess n rd v).core m).stepped = (c.core m).stepped) ∧ ((c.endAccess n rd v).core n).pc = (c.core n).pc + 4 ∧
      (rd ≠ 0 → (c.endAccess n rd v).coreReg n rd = v) := by
  unfold endAccess
  have hrest := c.setCoreReg_rest n rd v
  have hcore := c.setCoreReg_core n rd v
  have hreg := c.setCoreReg_same n rd v
  generalize c.setCoreReg n rd v = d at hrest hcore hreg ⊢
  refine ⟨hrest, fun m => ?_, ?_, fun h => ?_⟩
  · rw [core_mapCore]
    split
    · next hm =>
      rw [hm]
      exact (hcore n).1
    · exact (hcore m).1
  · rw [core_mapCore_same]
    exact congrArg (· + 4) (hcore n).2
  · refine (coreReg_congr ?_ ?_ ?_ rd).trans (hreg h)
    all_goals rw [core_mapCore_same]

theorem coreOwes_rest (p : CorePlace) (k : Nat) : ({ c.coreOwes p k with chans := [] } : Chip) = { c with chans := [] } := by
  unfold coreOwes
  split <;> rfl

theorem core_coreOwes (p : CorePlace) (k m : Nat) : (c.coreOwes p k).core m = c.core m := by
  unfold coreOwes
  split <;> rfl

/-- An access that stores: what the place then holds, and what is as it was. -/
theorem access_stores {c e : Chip} (n : Nat) (p : CorePlace) (bytes v rd : Nat) (r : BitVec 64)
    (hrest : ({ e with chans := [], cores := [] } : Chip) = { c with chans := [], cores := [] })
    (hcores : ∀ m, { e.core m with reservation := none } = { c.core m with reservation := none })
    (t : Chip) (ht : t = (e.coreStore n p bytes v).endAccess n rd r) :
    (t.core n).reservation = (e.core n).reservation ∧ (rd ≠ 0 → t.coreReg n rd = r) ∧ t.coreReg n 0 = 0 ∧
      (c.Unframed p → t.coreLoad n p bytes = v % 2 ^ (8 * bytes)) ∧
      (∀ (m : Fin 8) (a : Nat), (∀ off, p = .localMem m.val off → a < off ∨ off + bytes ≤ a) →
        Table.get zeroByte (t.core m.val).scratch a = Table.get zeroByte (c.core m.val).scratch a) ∧
      (∀ a, (∀ x, p = .dram x false → a < x ∨ x + bytes ≤ a) → Table.get zeroByte t.dram a = Table.get zeroByte c.dram a) ∧
      (∀ a, (∀ x k, p = .dram x false → k < bytes → c.dpaAt (x + k) ≠ some a) → Table.get zeroByte t.trm.front a = Table.get zeroByte c.trm.front a) ∧
      t.trm.packed = c.trm.packed ∧ t.trm.patch = c.trm.patch ∧ (t.core n).pc = (c.core n).pc + 4 ∧ t.regs = c.regs := by
  have hs := e.coreStore_spec n p bytes v
  generalize e.coreStore n p bytes v = d at hs ht
  obtain ⟨htr, htc, htp, htg⟩ := d.endAccess_spec n rd r
  rw [← ht] at htr htc htp htg
  have hea : e.apartFromStores = c.apartFromStores := (congrArg apartFromStores hrest :)
  have hta : t.apartFromStores = d.apartFromStores := (congrArg apartFromStores htr :)
  have hedpa : ∀ x, e.dpaAt x = c.dpaAt x := dpaAt_of_apart hea
  have htd : t.dram = d.dram := (congrArg Chip.dram htr :)
  have htf : t.trm.front = d.trm.front := (congrArg (fun x : Chip => x.trm.front) htr :)
  have hed : e.dram = c.dram := (congrArg Chip.dram hrest :)
  have hef : e.trm.front = c.trm.front := (congrArg (fun x : Chip => x.trm.front) hrest :)
  have hts : ∀ m, (t.core m).scratch = (d.core m).scratch := fun m => (congrArg Core.scratch (htc m) :)
  have htcache : ∀ m, (t.core m).cache = (d.core m).cache := fun m => (congrArg Core.cache (htc m) :)
  have hes : ∀ m, (e.core m).scratch = (c.core m).scratch := fun m => (congrArg Core.scratch (hcores m) :)
  have hall : t.apartFromStores = c.apartFromStores := hta.trans (hs.apart.trans hea)
  have hpc : (d.core n).pc = (c.core n).pc := (congrArg Core.pc (hs.kept n) :).trans (congrArg Core.pc (hcores n) :)
  refine ⟨(congrArg Core.reservation (htc n) :).trans hs.reservation, htg, t.coreReg_zero n, fun hu => ?_, fun m a h => ?_, fun a h => ?_, fun a h => ?_,
    (congrArg (fun x : Chip => x.trm.packed) hall :), (congrArg (fun x : Chip => x.trm.patch) hall :), htp.trans (congrArg (· + 4) hpc),
    (congrArg Chip.regs hall :)⟩
  · rw [coreLoad_congr hta htd htf hts htcache]
    exact hs.load fun x k hx => (hedpa _).trans (hu x k hx)
  · rw [hts, hs.scratch m.val a h, hes]
  · rw [htd, hs.dram a h, hed]
  · rw [htf, hs.front a (fun x k hx hk => by rw [hedpa]; exact h x k hx hk), hef]

theorem atomicBits_bytes (wide : Bool) : 8 * (atomicBits wide / 8) = atomicBits wide := by cases wide <;> rfl

theorem atomicResult_lt (op : AtomicOp) (bits : Nat) {old v : Nat} (ho : old < 2 ^ bits) (hv : v < 2 ^ bits) : atomicResult op bits old v < 2 ^ bits := by
  cases op with
  | lr => exact hv
  | sc => exact hv
  | swap => exact hv
  | add => exact Nat.mod_lt _ (Nat.two_pow_pos _)
  | xor => exact Nat.xor_lt_two_pow ho hv
  | and' => exact Nat.and_lt_two_pow _ hv
  | or' => exact Nat.or_lt_two_pow ho hv
  | min =>
    show (if signedOf bits old ≤ signedOf bits v then old else v) < 2 ^ bits
    split <;> assumption
  | max =>
    show (if signedOf bits old ≥ signedOf bits v then old else v) < 2 ^ bits
    split <;> assumption
  | minu => exact Nat.lt_of_le_of_lt (Nat.min_le_right ..) hv
  | maxu => exact Nat.max_lt.2 ⟨ho, hv⟩

theorem atomicAt_amo (n : Nat) (p : CorePlace) (rd v bits : Nat) {op : AtomicOp} (hl : op ≠ .lr) (hs : op ≠ .sc) :
    c.atomicAt n op p rd v bits =
      ((c.coreOwes p 6).coreStore n p (bits / 8) (atomicResult op bits (c.coreLoad n p (bits / 8)) v)).setCoreReg n rd
        (widen bits (c.coreLoad n p (bits / 8))) := by
  cases op
  case lr => exact absurd rfl hl
  case sc => exact absurd rfl hs
  all_goals rfl

/-- A reservation given up. -/
theorem freed_rest (n : Nat) (p : CorePlace) (k : Nat) :
    ({ (c.mapCore n fun x => { x with reservation := none }).coreOwes p k with chans := [], cores := [] } : Chip) = { c with chans := [], cores := [] } :=
  (congrArg (fun x : Chip => ({ x with cores := [] } : Chip)) (coreOwes_rest (c.mapCore n fun x => { x with reservation := none }) p k) :)

theorem freed_core (n : Nat) (p : CorePlace) (k m : Nat) :
    { ((c.mapCore n fun x => { x with reservation := none }).coreOwes p k).core m with reservation := none } = { c.core m with reservation := none } := by
  rw [core_coreOwes, core_mapCore]
  split
  · next h => rw [h]
  · rfl

/-- A load that reserves its line. -/
theorem loads_spec (n : Nat) (p : CorePlace) (rd : Nat) (v : BitVec 64) (t : Chip)
    (ht : t = (((c.coreOwes p 2).setCoreReg n rd v).mapCore n fun x => { x with reservation := some (reserveLine p) }).mapCore n
      fun x => { x with pc := x.pc + 4 }) :
    (t.core n).reservation = some (reserveLine p) ∧ (rd ≠ 0 → t.coreReg n rd = v) ∧ t.coreReg n 0 = 0 ∧ t.dram = c.dram ∧ t.trm = c.trm ∧
      (∀ m : Fin 8, (t.core m.val).scratch = (c.core m.val).scratch) ∧ (t.core n).pc = (c.core n).pc + 4 ∧ t.regs = c.regs := by
  have hr := (c.coreOwes p 2).setCoreReg_rest n rd v
  have hc := (c.coreOwes p 2).setCoreReg_core n rd v
  have hg := (c.coreOwes p 2).setCoreReg_same n rd v
  have ho := c.coreOwes_rest p 2
  have hco := c.core_coreOwes p 2
  generalize (c.coreOwes p 2).setCoreReg n rd v = d at hr hc hg ht
  generalize c.coreOwes p 2 = e at hr hc hg ho hco
  have hcore : ∀ m, t.core m = if m = n then { d.core n with reservation := some (reserveLine p), pc := (d.core n).pc + 4 } else d.core m := fun m => by
    rw [ht, core_mapCore, core_mapCore_same, core_mapCore]
    split <;> rfl
  have hrest : ({ t with cores := [] } : Chip) = { e with cores := [] } := by
    rw [ht]
    exact hr
  have hscratch : ∀ m, (t.core m).scratch = (c.core m).scratch := fun m => by
    have hd : (d.core m).scratch = (e.core m).scratch := (congrArg Core.scratch (hc m).1 :)
    rw [hcore]
    split
    · next hm =>
      subst hm
      exact hd.trans (congrArg Core.scratch (hco m))
    · exact hd.trans (congrArg Core.scratch (hco m))
  have hn := hcore n
  rw [if_pos rfl] at hn
  refine ⟨by rw [hn], fun h => ?_, t.coreReg_zero n, ?_, ?_, fun m => hscratch m.val, ?_, ?_⟩
  · refine (coreReg_congr ?_ ?_ ?_ rd).trans (hg h)
    all_goals rw [hn]
  · exact (congrArg Chip.dram hrest :).trans (congrArg Chip.dram ho :)
  · exact (congrArg Chip.trm hrest :).trans (congrArg Chip.trm ho :)
  · rw [hn]
    exact congrArg (· + 4) ((hc n).2.trans (congrArg Core.pc (hco n)))
  · exact (congrArg Chip.regs hrest :).trans (congrArg Chip.regs ho :)

/-- A conditional store that fails. -/
theorem misses_spec (n rd : Nat) (t : Chip) (ht : t = (c.mapCore n fun x => { x with reservation := none }).endAccess n rd 1) :
    (t.core n).reservation = none ∧ (rd ≠ 0 → t.coreReg n rd = 1) ∧ t.coreReg n 0 = 0 ∧ t.dram = c.dram ∧ t.trm = c.trm ∧
      (∀ m : Fin 8, (t.core m.val).scratch = (c.core m.val).scratch) ∧ (t.core n).pc = (c.core n).pc + 4 ∧ t.regs = c.regs := by
  have hcore := fun m => c.core_mapCore n m fun x => { x with reservation := none }
  have hrest : ({ c.mapCore n fun x => { x with reservation := none } with cores := [] } : Chip) = { c with cores := [] } := rfl
  generalize (c.mapCore n fun x => { x with reservation := none }) = d at hcore hrest ht
  obtain ⟨htr, htc, htp, htg⟩ := d.endAccess_spec n rd 1
  rw [← ht] at htr htc htp htg
  have hn := hcore n
  rw [if_pos rfl] at hn
  have hs : ∀ m, (d.core m).scratch = (c.core m).scratch := fun m => by
    rw [hcore]
    split
    · next hm => rw [hm]
    · rfl
  have hres : (d.core n).reservation = none := by rw [hn]
  refine ⟨(congrArg Core.reservation (htc n) :).trans hres, htg, t.coreReg_zero n, ?_, ?_, fun m => ?_, by rw [htp, hn], ?_⟩
  · exact (congrArg Chip.dram htr :).trans (congrArg Chip.dram hrest :)
  · exact (congrArg Chip.trm htr :).trans (congrArg Chip.trm hrest :)
  · exact (congrArg Core.scratch (htc m.val) :).trans (hs m.val)
  · exact (congrArg Chip.regs htr :).trans (congrArg Chip.regs hrest :)

/-! ## Cached bytes flushed -/

/-- Bytes of a line written back. -/
def writeBack (l : List (Nat × Option Byte)) : Chip := l.foldl (fun (c : Chip) (e : Nat × Option Byte) => match e.2 with | some b => c.setDramByte e.1 b | none => c) c

theorem writeBack_spec (line : Nat) (l : List (Nat × Option Byte)) (hl : ∀ e ∈ l, e.1 / 64 = line) : ∀ c : Chip,
    (c.writeBack l).regs = c.regs ∧ (c.writeBack l).cores = c.cores ∧
      ∀ b, b / 64 ≠ line → Table.get zeroByte (c.writeBack l).dram b = Table.get zeroByte c.dram b := by
  induction l with
  | nil => exact fun c => ⟨rfl, rfl, fun _ _ => rfl⟩
  | cons e l ih =>
    intro c
    have he := hl e (List.mem_cons_self ..)
    obtain ⟨h1, h2, h3⟩ := ih (fun y hy => hl y (List.mem_cons_of_mem _ hy)) (match e.2 with | some b => c.setDramByte e.1 b | none => c)
    have hone : ∀ d : Chip, d = (match e.2 with | some b => c.setDramByte e.1 b | none => c) →
        d.regs = c.regs ∧ d.cores = c.cores ∧ ∀ b, b / 64 ≠ line → Table.get zeroByte d.dram b = Table.get zeroByte c.dram b := by
      intro d hd
      split at hd
      · next v _ =>
        subst hd
        refine ⟨(congrArg Chip.regs (setDramByte_apart c e.1 v) :), cores_setDramByte .., fun b hb => ?_⟩
        unfold setDramByte
        split
        · rfl
        · exact Table.get_set_ne _ _ _ _ _ fun h => hb (by rw [h, he])
      · subst hd
        exact ⟨rfl, rfl, fun _ _ => rfl⟩
    obtain ⟨k1, k2, k3⟩ := hone _ rfl
    exact ⟨h1.trans k1, h2.trans k2, fun b hb => (h3 b hb).trans (k3 b hb)⟩

/-- A line flushed from a core's cache. -/
theorem flushLine_spec (n addr a : Nat) (t : Chip)
    (ht : t = (((if ((c.core n).cache.entries fun k => decide (a / 64 * 64 ≤ k) && decide (k < a / 64 * 64 + 64)).isEmpty = true then c
        else c.oweLines .core (c.place (a / 64 * 64)).ch 4).writeBack
          ((c.core n).cache.entries fun k => decide (a / 64 * 64 ≤ k) && decide (k < a / 64 * 64 + 64))).mapCore n
        fun y => { y with cache := y.cache.clear fun k => decide (a / 64 * 64 ≤ k) && decide (k < a / 64 * 64 + 64) }).mapCore n
      fun x => { x with dcflush := BitVec.ofNat 64 addr, pc := x.pc + 4 }) :
    (t.core n).dcflush = BitVec.ofNat 64 addr ∧ (t.core n).pc = (c.core n).pc + 4 ∧ ((t.core n).cache.all fun y => y.1 / 64 != a / 64) = true ∧
      (∀ b, b / 64 ≠ a / 64 → Table.get zeroByte t.dram b = Table.get zeroByte c.dram b) ∧ t.regs = c.regs := by
  have hline : ∀ k, (decide (a / 64 * 64 ≤ k) && decide (k < a / 64 * 64 + 64)) = true ↔ k / 64 = a / 64 := fun k => by
    rw [Bool.and_eq_true, decide_eq_true_eq, decide_eq_true_eq]
    omega
  have howed : ∀ d, d = (if ((c.core n).cache.entries fun k => decide (a / 64 * 64 ≤ k) && decide (k < a / 64 * 64 + 64)).isEmpty = true then c
      else c.oweLines .core (c.place (a / 64 * 64)).ch 4) → d.regs = c.regs ∧ d.cores = c.cores ∧ d.dram = c.dram := by
    intro d hd
    split at hd <;> (subst hd; exact ⟨rfl, rfl, rfl⟩)
  generalize hd : (if ((c.core n).cache.entries fun k => decide (a / 64 * 64 ≤ k) && decide (k < a / 64 * 64 + 64)).isEmpty = true then c
      else c.oweLines .core (c.place (a / 64 * 64)).ch 4) = d at ht
  obtain ⟨hr, hc, hm⟩ := howed d hd.symm
  obtain ⟨h1, h2, h3⟩ := writeBack_spec (a / 64) ((c.core n).cache.entries fun k => decide (a / 64 * 64 ≤ k) && decide (k < a / 64 * 64 + 64))
    (fun e he => (hline e.1).1 (List.mem_filter.1 he).2) d
  generalize d.writeBack _ = g at h1 h2 h3 ht
  have hcore : g.core n = c.core n := by
    unfold core
    rw [h2, hc]
  have htn : t.core n = { c.core n with
      cache := (c.core n).cache.clear fun k => decide (a / 64 * 64 ≤ k) && decide (k < a / 64 * 64 + 64)
      dcflush := BitVec.ofNat 64 addr, pc := (c.core n).pc + 4 } := by
    rw [ht, core_mapCore_same, core_mapCore_same, hcore]
  refine ⟨by rw [htn], by rw [htn], ?_, fun b hb => ?_, ?_⟩
  · rw [htn, List.all_eq_true]
    intro e he
    have hno := (List.mem_filter.1 he).2
    rw [bne_iff_ne, ne_eq, ← hline, Bool.not_eq_true]
    exact Bool.not_eq_true' _ ▸ hno
  · rw [ht]
    exact (h3 b hb).trans (by rw [hm])
  · rw [ht]
    exact h1.trans hr

/-! ## Sleep and traps -/

/-- Whether a source wakes a core rests on the settings, the sources and the core's own bank. -/
theorem wakes_congr {c d : Chip} (ha : d.applied = c.applied) (hi : d.icu = c.icu) {n : Nat} (hf : (d.core n).inFast = (c.core n).inFast) (i : Nat) :
    d.wakes n i = c.wakes n i := by
  have hcfg : ∀ f, d.cfg f = c.cfg f := cfg_of_applied ha
  have hsrc : ∀ j, d.src j = c.src j := fun j => by
    unfold src
    rw [hi]
  have hlevel : ∀ j, d.level j = c.level j := fun j => by
    unfold level srcPrio subbits
    rw [hcfg, hcfg]
  have hheld : d.heldSources = c.heldSources := by
    unfold heldSources
    rw [hi]
  have hrun : d.runLevel n = c.runLevel n := by
    unfold runLevel
    simp only [hheld, hsrc, hlevel]
  unfold wakes pendingSrc released goesTo srcEnable srcFast srcGroup srcTarget cfgOn
  rw [hf, hlevel, hrun]
  simp only [hcfg, hsrc]

/-- A core that nothing wakes goes on sleeping. -/
theorem wake_none (n : Nat) (hs : c.heldSources.any (c.wakes n) = false) (hm : (c.core n).mtip = false) : c.wake n = c := by
  unfold wake
  simp only [hs, hm, Bool.or_self, Bool.and_false, Bool.false_eq_true, if_false]

theorem trm_cnt (k : Ctr) (m : Nat) : (c.cnt k m).trm = c.trm := rfl
theorem trm_put (f : Fld) (v : Nat) : (c.put f v).trm = c.trm := rfl

/-- A core whose timer shows wakes. -/
theorem wake_timer (n : Nat) (hm : (c.core n).mtip = true) : (c.wake n).core n = { c.core n with asleep := false } ∧ (c.wake n).trm = c.trm := by
  by_cases ha : (c.core n).asleep = true
  · have hw : c.wake n = ((c.mapCore n fun x => { x with asleep := false }).put (F.ICO_ASLEEP n) 0).cnt (K.ICT_WAKES n) (bit (c.heldSources.any (c.wakes n))) :=
      if_pos (by simp [ha, hm])
    rw [hw, core_cnt, core_put, core_mapCore_same, trm_cnt, trm_put]
    exact ⟨rfl, rfl⟩
  · have hw : c.wake n = c := if_neg (by simp [ha])
    rw [hw]
    refine ⟨?_, rfl⟩
    generalize c.core n = x at ha ⊢
    cases x
    simp_all

/-- A trap of a core in no fast interrupt. -/
theorem coreTrap_spec (n cause : Nat) (hf : (c.core n).inFast = false) :
    ((c.coreTrap n cause).core n).mepc = (c.core n).pc ∧ ((c.coreTrap n cause).core n).mcause = BitVec.ofNat 64 cause ∧
      ((c.coreTrap n cause).core n).machine = true ∧ ((c.coreTrap n cause).core n).pc = (c.core n).mtvec &&& ~~~(3 : BitVec 64) ∧
      ((c.coreTrap n cause).core n).x = (c.core n).x ∧ (c.coreTrap n cause).dram = c.dram ∧ (c.coreTrap n cause).trm = c.trm ∧
      (c.coreTrap n cause).regs = c.regs := by
  unfold coreTrap
  simp only [hf, Bool.false_eq_true, if_false]
  rw [core_mapCore_same]
  exact ⟨rfl, rfl, rfl, rfl, rfl, rfl, rfl, rfl⟩

end Chip

open Chip in
/-- Settles O53: each clause is the branch of its instruction that the hypotheses name; a store changes the bytes of its place and no other. -/
theorem coresComplete : Obligations.CoresComplete := by
  unfold Obligations.CoresComplete
  refine ⟨?_, ?_, ?_, ?_, ?_, ?_, ?_, ?_⟩
  · intro w n s hup hrun hs hm
    refine ⟨_, rfl, ?_⟩
    have hawake : (!((s.chip w).core n.val).running) = false := by rw [hrun]; rfl
    simp only [State.chip_onUp hup, State.chip_onUp_other, hawake, Bool.false_eq_true, if_false, and_true]
    generalize hd : (((s.chip w).mapCore n.val fun x => { x with asleep := true }).put (F.ICO_ASLEEP n.val) 1) = d
    have hcore : d.core n.val = { (s.chip w).core n.val with asleep := true } := by rw [← hd, core_put, core_mapCore_same]
    have happ : d.applied = (s.chip w).applied := by rw [← hd]; rfl
    have hicu : d.icu = (s.chip w).icu := by rw [← hd]; rfl
    have hget : d.get (F.ICO_ASLEEP n.val) = 1 := by
      rw [← hd]
      exact get_put_same _ _ _ (by show 8 + 1 ≤ 32; decide)
    have hheld : d.heldSources = (s.chip w).heldSources := by
      unfold heldSources
      rw [hicu]
    have hwake : d.heldSources.any (d.wakes n.val) = false := by
      rw [hheld, funext (wakes_congr happ hicu (by rw [hcore]))]
      exact hs
    rw [wake_none d n.val hwake (by rw [hcore]; exact hm)]
    exact ⟨hcore, hget⟩
  · intro w n s hup hdue
    refine ⟨_, rfl, ?_⟩
    simp only [State.chip_onUp hup, State.chip_onUp_other, Nat.not_lt.2 hdue, if_false, and_true]
    have hcore := (s.chip w).core_mapCore_same n.val fun x => { x with mtip := true }
    have htrm : ((s.chip w).mapCore n.val fun x => { x with mtip := true }).trm = (s.chip w).trm := rfl
    generalize (s.chip w).mapCore n.val (fun x => { x with mtip := true }) = d at hcore htrm ⊢
    obtain ⟨h1, h2⟩ := wake_timer d n.val (by rw [hcore])
    exact ⟨h1.trans (by rw [hcore]), h2.trans htrm⟩
  · intro w n p addr rd data wide s hup hrun hsl hal hp
    refine ⟨_, rfl, ?_⟩
    simp only [State.chip_onUp hup, State.chip_onUp_other, hrun, hsl, hal, hp, Bool.not_true, Bool.or_self, Bool.false_eq_true, if_false, ne_eq, not_true,
      and_true, atomicAt]
    exact loads_spec (s.chip w) n.val p rd.val _ _ rfl
  · intro w n p addr rd data wide s hup hrun hsl hal hp hres
    refine ⟨_, rfl, ?_⟩
    simp only [State.chip_onUp hup, State.chip_onUp_other, hrun, hsl, hal, hp, Bool.not_true, Bool.or_self, Bool.false_eq_true, if_false, ne_eq, not_true,
      and_true, atomicAt, hres, beq_self_eq_true, if_true]
    have hv : data.toNat % 2 ^ atomicBits wide % 2 ^ (8 * (atomicBits wide / 8)) = data.toNat % 2 ^ atomicBits wide := by
      rw [atomicBits_bytes, Nat.mod_mod]
    obtain ⟨hr, hreg, hzero, hload, hrest⟩ := access_stores (c := s.chip w)
      (e := ((s.chip w).mapCore n.val fun x => { x with reservation := none }).coreOwes p 4) n.val p (atomicBits wide / 8)
      (data.toNat % 2 ^ atomicBits wide) rd.val 0 (freed_rest ..) (fun m => freed_core _ _ _ _ m) _ rfl
    rw [hv] at hload
    refine ⟨hr.trans ?_, hreg, hzero, hload, hrest⟩
    rw [core_coreOwes, core_mapCore_same]
  · intro w n p addr rd data wide s hup hrun hsl hal hp hres
    refine ⟨_, rfl, ?_⟩
    have hne : (((s.chip w).core n.val).reservation == some (reserveLine p)) = false := by simpa using hres
    simp only [State.chip_onUp hup, State.chip_onUp_other, hrun, hsl, hal, hp, Bool.not_true, Bool.or_self, Bool.false_eq_true, if_false, ne_eq, not_true,
      and_true, atomicAt, hne]
    exact misses_spec (s.chip w) n.val rd.val _ rfl
  · intro w n p op addr rd data wide s hup hrun hsl hal hp hlr hsc
    refine ⟨_, rfl, ?_⟩
    have hv : data.toNat % 2 ^ atomicBits wide < 2 ^ atomicBits wide := Nat.mod_lt _ (Nat.two_pow_pos _)
    have hold := (s.chip w).coreLoad_lt n.val p (atomicBits wide / 8)
    rw [atomicBits_bytes] at hold
    have hres := atomicResult_lt op _ hold hv
    simp only [State.chip_onUp hup, State.chip_onUp_other, hrun, hsl, hal, hp, Bool.not_true, Bool.or_self, Bool.false_eq_true, if_false, ne_eq, not_true,
      and_true, atomicAt_amo _ _ _ _ _ _ hlr hsc]
    obtain ⟨-, hreg, hzero, hload, hrest⟩ := access_stores (c := s.chip w) (e := (s.chip w).coreOwes p 6) n.val p (atomicBits wide / 8)
      (atomicResult op (atomicBits wide) ((s.chip w).coreLoad n.val p (atomicBits wide / 8)) (data.toNat % 2 ^ atomicBits wide)) rd.val
      (widen (atomicBits wide) ((s.chip w).coreLoad n.val p (atomicBits wide / 8)))
      (congrArg (fun x : Chip => ({ x with cores := [] } : Chip)) (coreOwes_rest (s.chip w) p 6)) (fun m => by rw [core_coreOwes]) _ rfl
    rw [atomicBits_bytes, Nat.mod_eq_of_lt hres] at hload
    exact ⟨hload, hreg, hzero, hrest⟩
  · intro w n op addr rd data wide s hup hrun hsl hf hor
    refine ⟨_, rfl, ?_⟩
    simp only [State.chip_onUp hup, State.chip_onUp_other, hrun, hsl, Bool.not_true, Bool.or_self, Bool.false_eq_true, if_false, and_true]
    by_cases hal : addr % (atomicBits wide / 8) = 0
    · have hp := hor.resolve_left (not_not_intro hal)
      simp only [hal, hp, ne_eq, not_true, if_false]
      have htrap := (s.chip w).coreTrap_spec n.val (if op = .lr then 5 else 7) hf
      rwa [apply_ite (BitVec.ofNat 64)] at htrap
    · simp only [hal, ne_eq, not_false_iff, if_true]
      have htrap := (s.chip w).coreTrap_spec n.val (if op = .lr then 4 else 6) hf
      rwa [apply_ite (BitVec.ofNat 64)] at htrap
  · intro w n addr a s hup hrun hsl hm hp
    refine ⟨_, rfl, ?_⟩
    simp only [State.chip_onUp hup, State.chip_onUp_other, hrun, hsl, hm, hp, Bool.not_true, Bool.or_self, Bool.false_eq_true, if_false, and_true]
    exact flushLine_spec (s.chip w) n.val addr a _ rfl
end Sys2Proof.Machine
end

section
/-! PROOF. The mailbox of a head (R85 to R92): commands that only read complete at once, commands that change state are announced. -/
namespace Sys2Proof.Machine

/-- The home of a port is home to it. -/
theorem State.isHome_of_homeOf {s : State} {p : Fin 6} {w : Twin} (h : s.homeOf p = some w) : (s.chip w).isHome p = true := by
  unfold State.homeOf at h
  split at h
  · next ha =>
    obtain rfl := Option.some.inj h
    exact ha
  · split at h
    · next hb =>
      obtain rfl := Option.some.inj h
      exact hb
    · exact absurd h nofun

namespace Chip

variable (c : Chip) (h : Fin 24)

theorem onPort_of_home {p : Fin 6} (hh : c.isHome p = true) : c.onPort p = true := by
  have hup : c.up = true := by
    unfold isHome at hh
    exact (Bool.and_eq_true _ _ ▸ hh).1
  unfold onPort
  rw [hup, hh]
  rfl

/-- A command that completes leaves its reply, and the mailbox free. -/
theorem mailDone_spec (r : MailReply) : ((c.mailDone h r).head h).reply = r ∧ ((c.mailDone h r).head h).mailBusy = none ∧ (c.mailDone h r).mail = c.mail := by
  have hq := head_of_quiet (cause_quiet (((c.setReply h r).mapHead h fun x => { x with mailBusy := none }).cnt (K.HCFG_MAILBOX_CMDS h.val)) h 0) h
  rw [head_cnt, head_mapHead_same, setReply, head_mapHead_same] at hq
  exact ⟨(congrArg Head.reply hq :), (congrArg Head.mailBusy hq :), (congrArg Chip.mail (cause_rest _ h 0) :)⟩

theorem mailReported_mail : (c.mailReported h).mail = c.mail := by
  unfold mailReported
  split
  · exact (congrArg Chip.mail (cause_rest _ h 0) :)
  · rfl

end Chip

namespace State

/-- A command that changes no state is answered by the home, whose mailbox is free again. -/
theorem mailGet_spec {s : State} {w : Twin} {h : Fin 24} (hl : s.linkIn h = true) (hw : s.homeOf (portOf h) = some w)
    (hb : ((s.chip w).head h).mailBusy = none) (f : Chip → MailReply) {r : MailReply} (hr : f (s.chip w) = r) :
    (((s.mailGet h f).chip w).head h).reply = r ∧ (((s.mailGet h f).chip w).head h).mailBusy = none ∧
      ((s.mailGet h f).chip w).mail = (s.chip w).mail ∧ ((s.mailGet h f).chip w.other).mail = (s.chip w.other).mail := by
  have hhome := isHome_of_homeOf hw
  have hport := (s.chip w).onPort_of_home hhome
  rw [mailGet, hl, onPort]
  simp only [Bool.not_true, Bool.false_eq_true, if_false, chip_mapBoth, hport, if_true, hb, Option.isSome_none, hhome]
  obtain ⟨h1, h2, h3⟩ := (s.chip w).mailDone_spec h (f (s.chip w))
  refine ⟨h1.trans hr, h2, h3, ?_⟩
  split
  · split
    · rfl
    · split
      · exact (Chip.mailDone_spec _ h _).2.2
      · exact Chip.mailReported_mail _ h
  · rfl

end State

/-- Settles O29: every such command is answered with what its function gives. -/
theorem mailboxReadsComplete : Obligations.MailboxReadsComplete := by
  unfold Obligations.MailboxReadsComplete
  intro w h log off len dpa lines first s hl hw hb hlen hgood x hx
  simp only [List.mem_cons, List.not_mem_nil, or_false] at hx
  rcases hx with rfl | rfl | rfl | rfl | rfl | rfl | rfl | rfl | rfl | rfl | rfl | rfl | rfl | rfl | rfl | rfl | rfl | rfl | rfl
  · exact ⟨_, rfl, State.mailGet_spec hl hw hb _ rfl⟩
  · exact ⟨_, rfl, State.mailGet_spec hl hw hb _ rfl⟩
  · exact ⟨_, rfl, State.mailGet_spec hl hw hb _ rfl⟩
  · exact ⟨_, rfl, State.mailGet_spec hl hw hb _ rfl⟩
  · exact ⟨_, rfl, State.mailGet_spec hl hw hb _ rfl⟩
  · refine ⟨_, rfl, State.mailGet_spec hl hw hb _ ?_⟩
    have hbs : (mailOpcodes.flatMap fun y => bytesLE 2 y.1).length = 64 := rfl
    exact if_neg (by rw [if_pos (by decide), hbs]; omega)
  · refine ⟨_, rfl, State.mailGet_spec hl hw hb _ ?_⟩
    have hbs : effectsLog.length = 128 := rfl
    exact if_neg (by rw [if_neg (by decide), hbs]; omega)
  · exact ⟨_, rfl, State.mailGet_spec hl hw hb _ rfl⟩
  · exact ⟨_, rfl, State.mailGet_spec hl hw hb _ rfl⟩
  · refine ⟨_, rfl, State.mailGet_spec hl hw hb _ ?_⟩
    exact if_neg (by omega)
  · exact ⟨_, rfl, State.mailGet_spec hl hw hb _ rfl⟩
  · exact ⟨_, rfl, State.mailGet_spec hl hw hb _ rfl⟩
  · exact ⟨_, rfl, State.mailGet_spec hl hw hb _ rfl⟩
  · exact ⟨_, rfl, State.mailGet_spec hl hw hb _ rfl⟩
  · refine ⟨s.nextFree.2.mailGet h _, rfl, ?_⟩
    have hspec := State.mailGet_spec (s := s.nextFree.2) (w := w) hl hw (by rwa [State.chip_nextFree])
      (fun c => if c.goodLine dpa then { words := [Config.scanMs s.nextFree.1 lines] } else { code := 0x0F })
      (if_pos (by rwa [State.chip_nextFree]))
    rwa [State.chip_nextFree, State.chip_nextFree] at hspec
  · exact ⟨_, rfl, State.mailGet_spec hl hw hb _ rfl⟩
  · refine ⟨_, rfl, State.mailGet_spec hl hw hb _ ?_⟩
    rw [hw]
    cases w <;> rfl
  · exact ⟨_, rfl, State.mailGet_spec hl hw hb _ rfl⟩
  · exact ⟨_, rfl, State.mailGet_spec hl hw hb _ rfl⟩

namespace Chip

variable (c : Chip)

/-! ## Effects announced -/

theorem send_twe (b : EnvBody) : (c.send b).twe = c.twe := by
  have hcnt : ∀ (l : List Envelope) (d : Chip), (l.foldl (fun c e => c.cnt (K.CXK_BYTES_CLASS e.body.cls) (8 * EnvBody.len e.body)) d).twe = d.twe := by
    intro l
    induction l with
    | nil => exact fun d => rfl
    | cons e l ih => exact fun d => ih _
  unfold send
  split
  · rfl
  · split
    · rfl
    · exact hcnt _ _

theorem post_gated (r : PmRecord) : (c.post r).twe.gated = c.twe.gated := by
  unfold post
  split
  · rfl
  · dsimp only
    rw [send_twe]
    rfl

/-- An effect announced stands last among those that wait. -/
theorem postEffect_gated (e : Effect) (ends : Option Ends) : ∃ g : GatedEffect, g.effect = e ∧ g.ends = ends ∧
    (c.postEffect e true ends).twe.gated = c.twe.gated ++ [g] := by
  refine ⟨⟨c.twin, (c.post (.effect e true ends)).twe.pmSeq, e, ends, none⟩, rfl, rfl, ?_⟩
  rw [← post_gated c (.effect e true ends)]
  rfl

/-- What an announcement for a mailbox leaves. -/
theorem postEffect_keeps (e : Effect) (ends : Option Ends) (h : Fin 24) : ((c.postEffect e true ends).head h).mailBusy = (c.head h).mailBusy ∧
    (c.postEffect e true ends).mail = c.mail ∧ (c.postEffect e true ends).mem = c.mem :=
  ⟨(congrArg Head.mailBusy (head_of_quiet (postEffect_quiet c e true ends) h) :), (congrArg Chip.mail (postEffect_rest c e true ends) :), postEffect_mem c e true ends⟩

end Chip

namespace State

/-- The mailbox of a head, taken up by a command. -/
def takeMailbox (s : State) (h : Fin 24) (op : Nat) : State := s.onPort (portOf h) fun c => c.mapHead h fun x => { x with mailBusy := some op }

theorem takeMailbox_spec {s : State} {w : Twin} {h : Fin 24} (hw : s.homeOf (portOf h) = some w) (op : Nat) :
    (((s.takeMailbox h op).chip w).head h).mailBusy = some op ∧ ((s.takeMailbox h op).chip w).mail = (s.chip w).mail ∧
      ((s.takeMailbox h op).chip w).mem = (s.chip w).mem ∧ ((s.takeMailbox h op).chip w).twe = (s.chip w).twe := by
  have hport := (s.chip w).onPort_of_home (isHome_of_homeOf hw)
  unfold takeMailbox onPort
  simp only [chip_mapBoth, hport, if_true]
  rw [Chip.head_mapHead_same]
  exact ⟨rfl, rfl, rfl, rfl⟩

/-- A command that changes state takes up the mailbox and is announced. -/
theorem mailSet_spec {s : State} {w : Twin} {h : Fin 24} (hl : s.linkIn h = true) (hw : s.homeOf (portOf h) = some w)
    (hb : ((s.chip w).head h).mailBusy = none) (hm : (s.chip w).isManager h = true) (op : Nat) (manager : Bool) (f : Chip → Except Nat (Effect × Nat))
    {e : Effect} {code : Nat} (hf : f (s.chip w) = .ok (e, code)) :
    (((s.mailSet h op manager f).chip w).head h).mailBusy = some op ∧
      ((s.mailSet h op manager f).chip w).twe.gated.getLast?.map (fun g => (g.effect, g.ends)) = some (e, some (.mail h code)) ∧
      ((s.mailSet h op manager f).chip w).mail = (s.chip w).mail ∧ ((s.mailSet h op manager f).chip w).mem = (s.chip w).mem := by
  have hset : s.mailSet h op manager f = (s.takeMailbox h op).mapChip w fun c => c.postEffect e true (some (.mail h code)) := by
    unfold mailSet
    rw [hw]
    simp [hl, hb, hm, hf, takeMailbox]
  obtain ⟨h1, h2, h3, -⟩ := takeMailbox_spec hw op
  rw [hset, chip_mapChip_same]
  generalize (s.takeMailbox h op).chip w = c at h1 h2 h3 ⊢
  obtain ⟨g, he, hends, hg⟩ := c.postEffect_gated e (some (.mail h code))
  obtain ⟨k1, k2, k3⟩ := c.postEffect_keeps e (some (.mail h code)) h
  refine ⟨k1.trans h1, ?_, k2.trans h2, k3.trans h3⟩
  rw [hg, List.getLast?_append, List.getLast?_singleton]
  simp [he, hends]

/-- Two effects announced stand in their order behind those that waited. -/
theorem eraseEvery_spec {s : State} {w : Twin} {h : Fin 24} (hl : s.linkIn h = true) (hw : s.homeOf (portOf h) = some w)
    (hb : ((s.chip w).head h).mailBusy = none) (hm : (s.chip w).isManager h = true) (op : Nat) {zero : Bool}
    (hz : (zero && (s.chip w).backgroundBusy) = false) (first : List (Effect × Nat)) :
    (s.eraseEvery h op zero first).chip w =
      ((first.foldl (fun c e => c.postEffect e.1 true (some (.mail h e.2))) (((s.drawKeys w).2.takeMailbox h op).chip w)).postEffect
        (.eraseAll (s.drawKeys w).1 zero) true (if first.isEmpty && (s.drawKeys w).1.isEmpty then some (.mail h 0) else none)) := by
  unfold eraseEvery
  rw [hw]
  simp only [hl, hb, hm, hz, Bool.not_true, Option.isSome_none, Bool.or_false, Bool.false_eq_true, if_false]
  rw [chip_mapChip_same]
  rfl

theorem homeOf_drawKeys (s : State) (w : Twin) (p : Fin 6) : (s.drawKeys w).2.homeOf p = s.homeOf p := by
  have hA := chip_drawKeys s w .A
  have hB := chip_drawKeys s w .B
  unfold homeOf
  rw [show (s.drawKeys w).2.a = s.a from hA, show (s.drawKeys w).2.b = s.b from hB]

end State

/-- Settles O30: each command meets its conditions and is announced; the two effects of Sanitize stand in their order. -/
theorem mailboxEffectsComplete : Obligations.MailboxEffectsComplete := by
  refine ⟨?_, ?_, ?_, ?_⟩
  · intro w h log mode off dpa lines bytes handles slot ns data dirty s hl hw hb hm hmode hlsa hlen hgood hslot hbusy hinj x hx
    simp only [List.mem_cons, List.not_mem_nil, or_false] at hx
    have hfw : ¬ (off + bytes.length > 3670016 ∨ bytes.length > 16384) := by omega
    have hls : ¬ (off + bytes.length > 262144 ∨ bytes.length > 16384) := by omega
    obtain rfl | rfl | rfl | rfl | rfl | rfl | rfl | rfl | rfl | rfl | rfl := hx <;>
      refine ⟨_, rfl, State.mailSet_spec hl hw hb hm _ _ _ ?_⟩
    · rfl
    · exact if_neg (Nat.not_lt.mpr hmode)
    · exact if_neg hfw
    · exact if_neg (by simp [hslot])
    · rfl
    · exact if_neg hls
    · exact if_neg (Nat.not_lt.mpr hlen)
    · rfl
    · rw [if_neg (by simp [hgood]), if_neg (Nat.not_le.mpr hinj)]
    · exact if_pos hgood
    · rw [if_neg (by simp [hgood]), if_neg (by simp [hbusy])]
  · intro w h s hl hw hb hm hbusy
    have hw' : (s.drawKeys w).2.homeOf (portOf h) = some w := (State.homeOf_drawKeys s w _).trans hw
    obtain ⟨h1, h2, h3, h4⟩ := State.takeMailbox_spec hw' 0x4400
    rw [State.chip_drawKeys] at h2 h3 h4
    refine ⟨_, rfl, ?_⟩
    rw [State.eraseEvery_spec hl hw hb hm 0x4400 (by simp [hbusy]) [(.background ⟨0x4400, h, 0, 0⟩, 1)]]
    generalize ((s.drawKeys w).2.takeMailbox h 0x4400).chip w = c at h1 h2 h3 h4 ⊢
    simp only [List.foldl_cons, List.foldl_nil]
    obtain ⟨g, hge, hgn, hg⟩ := c.postEffect_gated (.background ⟨0x4400, h, 0, 0⟩) (some (.mail h 1))
    obtain ⟨k1, k2, k3⟩ := c.postEffect_keeps (.background ⟨0x4400, h, 0, 0⟩) (some (.mail h 1)) h
    generalize c.postEffect (.background ⟨0x4400, h, 0, 0⟩) true (some (.mail h 1)) = d at hg k1 k2 k3 ⊢
    obtain ⟨g', hge', hgn', hg'⟩ := d.postEffect_gated (.eraseAll (s.drawKeys w).1 true) none
    obtain ⟨j1, j2, j3⟩ := d.postEffect_keeps (.eraseAll (s.drawKeys w).1 true) none h
    refine ⟨j1.trans (k1.trans h1), ?_, ?_, ?_, j2.trans (k2.trans h2), j3.trans (k3.trans h3)⟩ <;>
      simp only [List.isEmpty_cons, Bool.false_and, Bool.false_eq_true, if_false]
    · rw [hg', hg, h4]
      simp
    · rw [hg', hg, h4]
      simp [hge, hgn]
    · rw [hg']
      simp [hge', hgn']
  · intro w h s hl hw hb hm
    have hw' : (s.drawKeys w).2.homeOf (portOf h) = some w := (State.homeOf_drawKeys s w _).trans hw
    obtain ⟨h1, h2, h3, -⟩ := State.takeMailbox_spec hw' 0x4401
    rw [State.chip_drawKeys] at h2 h3
    refine ⟨_, rfl, ?_⟩
    rw [State.eraseEvery_spec hl hw hb hm 0x4401 rfl []]
    generalize ((s.drawKeys w).2.takeMailbox h 0x4401).chip w = c at h1 h2 h3 ⊢
    simp only [List.foldl_nil, List.isEmpty_nil, Bool.true_and]
    generalize (if (s.drawKeys w).1.isEmpty = true then some (Ends.mail h 0) else none) = ends
    obtain ⟨g, hge, hgn, hg⟩ := c.postEffect_gated (.eraseAll (s.drawKeys w).1 false) ends
    obtain ⟨k1, k2, k3⟩ := c.postEffect_keeps (.eraseAll (s.drawKeys w).1 false) ends h
    refine ⟨k1.trans h1, ?_, k2.trans h2, k3.trans h3⟩
    rw [hg]
    simp [hge, hgn]
  · intro w x s hw hx hbg hop
    have hrun : execMailboxBackgroundDone s = .next (s.onHome x.head fun c =>
        match c.mail.background with
        | none => c
        | some x =>
          let erasing := !s.a.sec.erasing.isEmpty || !s.b.sec.erasing.isEmpty ||
            c.twe.gated.any fun g => match g.effect with | .eraseAll _ _ => true | _ => false
          if x.opcode = 0x4400 ∧ erasing then c
          else c.postEffect (.backgroundDone (if x.opcode = 0x4304 then c.poisoned x.first x.lines else [])) true) := by
      unfold execMailboxBackgroundDone
      rw [hx] <;> rfl
    refine ⟨_, hrun, State.chip_onHome_other hw _, ?_⟩
    rw [State.chip_onHome hw, hbg]
    simp only [hop, if_true]
    rw [if_neg (by rintro ⟨h0, -⟩; exact absurd h0 (by decide))]
    obtain ⟨g, hge, hgn, hg⟩ := (s.chip w).postEffect_gated (.backgroundDone ((s.chip w).poisoned x.first x.lines)) none
    rw [hg]
    simp [hge, hgn]

end Sys2Proof.Machine
end

section
/-! PROOF. Commands of a ring (R142 to R153): the one keeper carries a started command out once; its end, or the effect that ends it, is announced. -/
namespace Sys2Proof.Machine

namespace Chip

variable (c : Chip)

/-! ## A ring's commands -/

theorem ring_mapRing_same (q : Nat) (f : Ring → Ring) : (c.mapRing q f).ring q = f (c.ring q) := Table.get_set_same _ _ _ _

/-- A command of a ring is marked as carried out. -/
def ringActed (q : Fin 64) (idx : Nat) : Chip :=
  c.mapRing q.val fun r => { r with fetched := r.fetched.map fun y => if y.idx = idx then { y with acted := true } else y }

theorem find_idx_map_acted (l : List RingCmd) (idx : Nat) :
    (l.map fun y => if y.idx = idx then { y with acted := true } else y).find? (fun y => y.idx == idx) =
      (l.find? fun y => y.idx == idx).map fun y => { y with acted := true } := by
  induction l with
  | nil => rfl
  | cons y l ih => by_cases hy : y.idx = idx <;> simp [hy, ih]

theorem ringCmd_ringActed (q : Fin 64) (idx : Nat) : (c.ringActed q idx).ringCmd q.val idx = (c.ringCmd q.val idx).map fun y => { y with acted := true } := by
  unfold ringCmd ringActed
  rw [ring_mapRing_same]
  exact find_idx_map_acted _ _

variable {c}

theorem idx_of_ringCmd {q idx : Nat} {x : RingCmd} (h : c.ringCmd q idx = some x) : x.idx = idx := by
  simpa using List.find?_some h

/-- What ends a command that is marked. -/
theorem ringEnd_ringActed {q : Fin 64} {x : RingCmd} (h : c.ringCmd q.val x.idx = some x) (st res : Nat) :
    (c.ringActed q x.idx).ringEnd q x.idx st res = some (x.ends q st res) := by
  unfold ringEnd
  rw [ringCmd_ringActed, h]
  rfl

theorem ring_postEffect (e : Effect) (g : Bool) (ends : Option Ends) (q : Nat) : (c.postEffect e g ends).ring q = c.ring q :=
  (congrArg (fun d => Chip.ring d q) (postEffect_rest c e g ends) :)

/-- A command's end reported without an effect stands last among the ends to be written, and the command is no longer in progress. -/
theorem ringReport_plain {q : Fin 64} {idx st res : Nat} {x : RingEnd} (h : c.ringEnd q idx st res = some x) (e : Effect) :
    ((c.ringReport q idx st res e).ring q.val).finished.getLast?.map (fun y => y.e) = some x ∧
      (c.ringReport q idx st res e).ringCmd q.val idx = none := by
  have hx : x.q = q ∧ x.idx = idx ∧ (c.ringCmd q.val idx).isSome = true := by
    unfold ringEnd at h
    obtain ⟨y, hy, rfl⟩ := Option.map_eq_some_iff.mp h
    exact ⟨rfl, rfl, by rw [hy]; rfl⟩
  obtain ⟨hq, hi, hs⟩ := hx
  have hrun : (c.postEffect e false (some (.ring x))).ringCmd x.q.val x.idx = c.ringCmd q.val idx := by
    rw [hq, hi]
    unfold ringCmd
    rw [ring_postEffect]
  have hring : ∃ recSeq, (c.ringReport q idx st res e).ring q.val =
      { fetched := (c.ring q.val).fetched.filter fun y => y.idx != idx, finished := (c.ring q.val).finished ++ [⟨x, recSeq⟩] } := by
    refine ⟨if c.posts then some (c.postEffect e false (some (.ring x))).twe.pmSeq else none, ?_⟩
    unfold ringReport
    rw [h]
    dsimp only
    rw [if_neg Bool.false_ne_true]
    unfold ringFinish
    rw [hrun, if_neg (by simpa using Option.isSome_iff_ne_none.mp hs), hq, ring_mapRing_same, ring_postEffect, hi]
  obtain ⟨recSeq, hring⟩ := hring
  constructor
  · rw [hring]
    simp
  · unfold ringCmd
    rw [hring]
    simp

/-- A command's end that follows an effect is announced with it. -/
theorem ringReport_gated {q : Fin 64} {idx st res : Nat} {x : RingEnd} (h : c.ringEnd q idx st res = some x) (e : Effect) :
    (c.ringReport q idx st res e true).twe.gated.getLast?.map (fun g => (g.effect, g.ends)) = some (e, some (.ring x)) ∧
      (c.ringReport q idx st res e true).trm = c.trm ∧ (c.ringReport q idx st res e true).rte = c.rte := by
  have hrep : c.ringReport q idx st res e true = c.postEffect e true (some (.ring x)) := by
    unfold ringReport
    rw [h]
    rfl
  obtain ⟨g, hge, hgn, hg⟩ := c.postEffect_gated e (some (.ring x))
  rw [hrep]
  refine ⟨?_, (congrArg Chip.trm (postEffect_rest c e true _) :), (congrArg Chip.rte (postEffect_rest c e true _) :)⟩
  rw [hg]
  simp [hge, hgn]

end Chip

namespace State

/-- What carrying a command asks of the keeper and of its twin. -/
theorem carries_iff {s : State} {w : Twin} {q : Fin 64} {x : RingCmd} : s.carries w q x = true ↔
    (s.chip w).up = true ∧ (s.chip w).keepsRing q.val = true ∧ (s.chip w).ringCmd q.val x.idx = some x ∧ x.started = true ∧ x.acted = false ∧
      ((s.chip w.other).up && (s.chip w.other).keepsRing q.val) = false := by
  unfold carries
  simp only [Bool.and_eq_true, Bool.not_eq_true', beq_iff_eq, and_assoc]

/-- The one keeper of a ring carries out a command, marked as such. -/
theorem ringOp_spec {s : State} {w : Twin} {q : Fin 64} {x : RingCmd} {h : Fin 24} (hc : s.carries w q x = true)
    (ho : (s.chip w).ringOwner q.val = some h) {op : Nat} (hop : x.opcode = op) (f : Chip → Nat → RingCmd → Chip) :
    (s.ringOp q x.idx op f).chip w = f ((s.chip w).ringActed q x.idx) h.val x ∧ (s.ringOp q x.idx op f).chip w.other = s.chip w.other := by
  obtain ⟨hup, hk, hx, hs, ha, hoth⟩ := carries_iff.mp hc
  unfold ringOp
  rw [chip_mapBoth, chip_mapBoth]
  constructor
  · simp only [hup, hk, Bool.and_self, Bool.not_true, Bool.false_eq_true, if_false, hx, ho]
    rw [if_pos (by simp [hop, hs, ha])]
    rfl
  · rw [if_pos (by simp [hoth])]

/-- A ring that a chip keeps has an owner. -/
theorem owner_of_carries {s : State} {w : Twin} {q : Fin 64} {x : RingCmd} (hc : s.carries w q x = true) : ∃ h, (s.chip w).ringOwner q.val = some h := by
  obtain ⟨-, hk, -⟩ := carries_iff.mp hc
  unfold Chip.keepsRing at hk
  split at hk
  · next h ho => exact ⟨h, ho⟩
  · exact absurd hk Bool.false_ne_true

/-- A command that ends with a result: what its keeper and the twin hold. -/
theorem ringOp_plain {s : State} {w : Twin} {q : Fin 64} {x : RingCmd} {h : Fin 24} (hc : s.carries w q x = true)
    (ho : (s.chip w).ringOwner q.val = some h) {op : Nat} (hop : x.opcode = op) {f : Chip → Nat → RingCmd → Chip} {res : Nat}
    (hf : f ((s.chip w).ringActed q x.idx) h.val x = ((s.chip w).ringActed q x.idx).ringReport q x.idx 0 res) :
    (((s.ringOp q x.idx op f).chip w).ring q.val).finished.getLast?.map (fun y => y.e) = some (x.ends q 0 res) ∧
      ((s.ringOp q x.idx op f).chip w).ringCmd q.val x.idx = none ∧ (s.ringOp q x.idx op f).chip w.other = s.chip w.other := by
  obtain ⟨hown, hoth⟩ := ringOp_spec hc ho hop f
  obtain ⟨-, -, hx, -⟩ := carries_iff.mp hc
  rw [hown, hf]
  obtain ⟨h1, h2⟩ := Chip.ringReport_plain (Chip.ringEnd_ringActed hx 0 res) .nothing
  exact ⟨h1, h2, hoth⟩

/-- A command that ends with an effect: it is announced, and the tiers and Routes are as they were. -/
theorem ringOp_gated {s : State} {w : Twin} {q : Fin 64} {x : RingCmd} {h : Fin 24} (hc : s.carries w q x = true)
    (ho : (s.chip w).ringOwner q.val = some h) {op : Nat} (hop : x.opcode = op) {f : Chip → Nat → RingCmd → Chip} {res : Nat} {e : Effect}
    (hf : f ((s.chip w).ringActed q x.idx) h.val x = ((s.chip w).ringActed q x.idx).ringReport q x.idx 0 res e true) :
    ((s.ringOp q x.idx op f).chip w).trm = (s.chip w).trm ∧ ((s.ringOp q x.idx op f).chip w).rte = (s.chip w).rte ∧
      ((s.ringOp q x.idx op f).chip w).twe.gated.getLast?.map (fun g => (g.effect, g.ends)) = some (e, some (.ring (x.ends q 0 res))) := by
  obtain ⟨hown, -⟩ := ringOp_spec hc ho hop f
  obtain ⟨-, -, hx, -⟩ := carries_iff.mp hc
  rw [hown, hf]
  obtain ⟨h1, h2, h3⟩ := Chip.ringReport_gated (Chip.ringEnd_ringActed hx 0 res) e
  exact ⟨h2, h3, h1⟩

end State

namespace Chip

variable {c : Chip} {q : Fin 64} {h : Nat} {x : RingCmd}

/-! ## What each command answers -/

theorem objQuery_eq {n d : Nat} {o : Obj} (hu : x.usesOnly [(24, 4)] = true) (ho : c.objNamed h x = .ok (n, o, d)) :
    c.objQuery q h x = c.ringReport q x.idx 0 (((c.writtenIn o.first o.count).filter fun e => (c.ext e).state == 2).length + o.count * 2 ^ 32) := by
  unfold objQuery
  rw [hu, ho]
  rfl

theorem poolQuery_eq (hu : x.usesOnly [(21, 1)] = true) (hd : x.field 21 1 ≤ 63) (hm : c.mayMap h (x.field 21 1) = true) :
    c.poolQuery q h x = c.ringReport q x.idx 0 (c.domUse (x.field 21 1) + c.domPinned (x.field 21 1) * 2 ^ 32) := by
  unfold poolQuery
  dsimp only
  rw [hu, hm, decide_eq_false (Nat.not_lt.mpr hd)]
  rfl

theorem routeNamed_eq (hs : (c.route (x.field 22 2)).state ≠ 0) (ho : (c.route (x.field 22 2)).owner = h) :
    c.routeNamed h x = .ok (x.field 22 2, c.route (x.field 22 2)) := by
  unfold routeNamed
  rw [if_neg hs, if_neg (not_not_intro ho)]

theorem routeQuery_eq (hb : c.routeBad x [(22, 2)] true = none) (hs : (c.route (x.field 22 2)).state ≠ 0)
    (ho : (c.route (x.field 22 2)).owner = h) (hk : c.isKeeper = true) :
    c.routeQuery q h x = c.ringReport q x.idx 0 ((c.route (x.field 22 2)).pos % 65536 + (c.route (x.field 22 2)).state * 2 ^ 16 +
      min (c.route (x.field 22 2)).slips (2 ^ 30 - 1) * 2 ^ 18 + min (c.route (x.field 22 2)).rate 65535 * 2 ^ 48) := by
  unfold routeQuery
  rw [hb, routeNamed_eq hs ho, hk]
  rfl

theorem ledgerQuery_eq (hop : x.opcode = 0x303) (hu : x.usesOnly [(16, 1)] = true) (hw : x.field 16 1 = c.rst.twinId) (h1 : c.rst.twinId ≤ 1)
    (hk : c.keepsRing q.val = true) : c.retireCommand q x = c.ringReport q x.idx 0 (c.eol.1 + c.eol.2 * 2 ^ 32) := by
  have hbad : (!x.usesOnly (retireUses x.opcode) || decide (x.field 16 1 > 1) || !retireAligned x.opcode (x.field 8 8)) = false := by
    rw [hop, hw, decide_eq_false (Nat.not_lt.mpr h1)]
    simp [retireUses, retireAligned, hu]
  unfold retireCommand
  dsimp only
  rw [hbad, if_neg Bool.false_ne_true, if_pos hw]
  unfold retireHere
  rw [if_pos hop]
  unfold commandEnd
  rw [hk]
  rfl

end Chip

/-- Settles O32: each query's answer is read off its definition at the keeper; the twin does not keep the ring. -/
theorem ringQueriesComplete : Obligations.RingQueriesComplete := by
  refine ⟨?_, ?_, ?_, ?_, ?_, ?_⟩
  · intro w q x s hc hop
    obtain ⟨h, ho⟩ := State.owner_of_carries hc
    obtain ⟨h1, h2, h3⟩ := State.ringOp_plain hc ho hop (f := fun c _ x => c.ringReport q x.idx 0 0) rfl
    exact ⟨_, rfl, h1, h2, h3⟩
  · intro w q x s hc hop
    obtain ⟨h, ho⟩ := State.owner_of_carries hc
    obtain ⟨h1, -, h3⟩ := State.ringOp_plain hc ho hop (f := fun c _ x => c.ringReport q x.idx 0 c.round) rfl
    exact ⟨_, rfl, h1, h3⟩
  · intro w q x h n d o s hc hop ho hu hn
    have hn' : (s.chip w).objNamed h.val x = .ok (n, o, d) := by
      split at hn
      · next y hy => exact hy.trans (congrArg _ (Option.some.inj hn))
      · cases hn
    obtain ⟨h1, -, h3⟩ := State.ringOp_plain hc ho hop (f := fun c h x => c.objQuery q h x) (Chip.objQuery_eq hu hn')
    exact ⟨_, rfl, h1, h3⟩
  · intro w q x h s hc hop ho hu hd hm
    obtain ⟨h1, -, h3⟩ := State.ringOp_plain hc ho hop (f := fun c h x => c.poolQuery q h x) (Chip.poolQuery_eq hu hd hm)
    exact ⟨_, rfl, h1, h3⟩
  · intro w q x h s hc hop ho hb hs hown hk
    obtain ⟨h1, -, h3⟩ := State.ringOp_plain hc ho hop (f := fun c h x => c.routeQuery q h x) (Chip.routeQuery_eq hb hs hown hk)
    exact ⟨_, rfl, h1, h3⟩
  · intro w q x h s hc hop ho hu hw ht
    obtain ⟨-, hk, -⟩ := State.carries_iff.mp hc
    have hid : (s.chip w).rst.twinId ≤ 1 := by rw [ht]; cases w <;> decide
    obtain ⟨h1, -, h3⟩ := State.ringOp_plain hc ho hop (f := fun c _ x => c.retireCommand q x)
      (Chip.ledgerQuery_eq hop hu (hw.trans ht.symm) hid hk)
    exact ⟨_, rfl, h1, h3⟩

namespace Chip

variable {c : Chip} {q : Fin 64} {h : Nat} {x : RingCmd}

/-! ## What each effectful command announces -/

theorem objRegister_eq {d : Nat} (hu : x.usesOnly [(8, 8), (16, 4), (20, 1)] = true) (h3 : x.field 20 1 ≤ 3) (h0 : x.field 20 1 ≠ 0)
    (hd : c.rangeDomain h (x.field 8 8) (x.field 16 4) = .ok d) (hp : c.cfgOn (F.DOM_DOMAIN_FRONT_PINNED d) = false)
    (ho : c.overlaps (x.field 8 8 / 2 ^ 21) (x.field 16 4) = false) (hl : c.trm.objects.length < 2 ^ 20) :
    c.objRegister q h x = c.ringReport q x.idx 0 c.freeObject (.object c.freeObject (x.field 8 8 / 2 ^ 21) (x.field 16 4) (x.field 20 1)) true := by
  unfold objRegister
  dsimp only
  rw [hu, decide_eq_false (Nat.not_lt.mpr h3), hd]
  simp only [hp, ho, h0, Nat.not_le.mpr hl, ge_iff_le, Bool.not_true, Bool.or_self, Bool.false_and, Bool.false_eq_true, if_false, ne_eq, not_true]

theorem objRemove_eq {n d : Nat} {o : Obj} (hu : x.usesOnly [(24, 4)] = true) (ho : c.objNamed h x = .ok (n, o, d)) :
    c.objRemove q h x = c.ringReport q x.idx 0 0 (.objectGone n) true := by
  unfold objRemove
  rw [hu, ho]
  rfl

theorem objSetPolicy_eq {n d : Nat} {o : Obj} (hu : x.usesOnly [(20, 1), (24, 4)] = true) (h3 : x.field 20 1 ≤ 3) (h0 : x.field 20 1 ≠ 0)
    (ho : c.objNamed h x = .ok (n, o, d)) (hp : c.cfgOn (F.DOM_DOMAIN_FRONT_PINNED d) = false) :
    c.objSetPolicy q h x = c.ringReport q x.idx 0 o.policy (.object n o.first o.count (x.field 20 1)) true := by
  unfold objSetPolicy
  dsimp only
  rw [hu, decide_eq_false (Nat.not_lt.mpr h3), ho]
  simp only [hp, h0, Bool.not_true, Bool.or_self, Bool.false_and, Bool.false_eq_true, if_false, ne_eq, not_true]

/-- The Route that a ROUTE_LOAD describes. -/
def loadedRoute (x : RingCmd) (h : Nat) : RouteSlot :=
  { owner := h, listDpa := x.field 8 8, length := x.field 16 4, cyclic := (x.field 20 1).testBit 0, drop := (x.field 20 1).testBit 1
    prio := x.field 21 1, lead := x.field 28 2, minExt := x.field 30 2, maxExt := x.field 32 4 }

theorem routeLoad_eq (hb : c.routeBad x [(8, 8), (16, 4), (20, 1), (21, 1), (22, 2), (28, 2), (30, 2), (32, 4)] true = none)
    (h1 : 1 ≤ x.field 16 4) (h2 : x.field 16 4 ≤ 65536) (h3 : x.field 20 1 < 4) (h4 : x.field 21 1 < 8) (h5 : 1 ≤ x.field 28 2)
    (h6 : 1 ≤ x.field 30 2) (h7 : x.field 30 2 ≤ x.field 32 4) (h8 : x.field 32 4 ≤ 2 ^ 20) (hs : (c.route (x.field 22 2)).state = 0)
    (hl : c.listOk h (x.field 8 8) (x.field 16 4) = true) :
    c.routeLoad q h x = c.ringReport q x.idx 0 0 (.routeLoad (x.field 22 2) (loadedRoute x h)) true := by
  unfold routeLoad
  simp only [h1, h2, h3, h4, h5, h6, h7, h8, decide_true, Bool.and_self, hb, hs, hl, ne_eq, not_true, if_false, Bool.not_true, Bool.false_eq_true]
  rfl

theorem routeMove_eq (seek : Bool) (hb : c.routeBad x [(22, 2), (24, 4)] true = none) (hs : (c.route (x.field 22 2)).state ≠ 0)
    (ho : (c.route (x.field 22 2)).owner = h) (hj : x.field 24 4 < (c.route (x.field 22 2)).length) :
    c.routeMove q h seek x = c.ringReport q x.idx 0
      (if seek then (if c.isKeeper then (c.route (x.field 22 2)).pos else (c.route (x.field 22 2)).shown) else 0)
      (.routeState (x.field 22 2) (if seek && (c.route (x.field 22 2)).state == 1 then 3 else 2) (x.field 24 4)
        (if seek then (c.route (x.field 22 2)).rate else (c.route (x.field 22 2)).startRate)) true := by
  unfold routeMove
  dsimp only
  rw [hb, routeNamed_eq hs ho]
  dsimp only
  rw [if_neg (Nat.not_le.mpr hj)]

theorem routeStop_eq (hb : c.routeBad x [(22, 2)] true = none) (hs : (c.route (x.field 22 2)).state = 2)
    (ho : (c.route (x.field 22 2)).owner = h) :
    c.routeEnd q h false x = c.ringReport q x.idx 0 0 (.routeState (x.field 22 2) 1 (c.route (x.field 22 2)).pos (c.route (x.field 22 2)).rate) true := by
  unfold routeEnd
  rw [hb, routeNamed_eq (by omega) ho]
  dsimp only
  rw [if_neg Bool.false_ne_true, if_neg (by omega)]

theorem routeUnload_eq (hb : c.routeBad x [(22, 2)] true = none) (hs : (c.route (x.field 22 2)).state = 1)
    (ho : (c.route (x.field 22 2)).owner = h) :
    c.routeEnd q h true x = c.ringReport q x.idx 0 0 (.routeState (x.field 22 2) 0 0 0) true := by
  unfold routeEnd
  rw [hb, routeNamed_eq (by omega) ho]
  dsimp only
  rw [if_pos rfl, if_neg (by omega)]

end Chip

/-- Settles O33: each command passes its checks at the keeper, and its effect is announced with its end. -/
theorem ringEffectsComplete : Obligations.RingEffectsComplete := by
  refine ⟨?_, ?_, ?_, ?_, ?_, ?_, ?_, ?_⟩
  · intro w q x h d s hc hop ho hu h3 h0 hd hp hov hl
    have hd' : (s.chip w).rangeDomain h.val (x.field 8 8) (x.field 16 4) = .ok d := by
      split at hd
      · next y hy => exact hy.trans (congrArg _ (Option.some.inj hd))
      · cases hd
    obtain ⟨h1, -, h2⟩ := State.ringOp_gated hc ho hop (f := fun c h x => c.objRegister q h x) (Chip.objRegister_eq hu h3 h0 hd' hp hov hl)
    exact ⟨_, rfl, h1, h2⟩
  · intro w q x h n d o s hc hop ho hu hn
    have hn' : (s.chip w).objNamed h.val x = .ok (n, o, d) := by
      split at hn
      · next y hy => exact hy.trans (congrArg _ (Option.some.inj hn))
      · cases hn
    obtain ⟨h1, -, h2⟩ := State.ringOp_gated hc ho hop (f := fun c h x => c.objRemove q h x) (Chip.objRemove_eq hu hn')
    exact ⟨_, rfl, h1, h2⟩
  · intro w q x h n d o s hc hop ho hu h3 h0 hn hp
    have hn' : (s.chip w).objNamed h.val x = .ok (n, o, d) := by
      split at hn
      · next y hy => exact hy.trans (congrArg _ (Option.some.inj hn))
      · cases hn
    obtain ⟨h1, -, h2⟩ := State.ringOp_gated hc ho hop (f := fun c h x => c.objSetPolicy q h x) (Chip.objSetPolicy_eq hu h3 h0 hn' hp)
    exact ⟨_, rfl, h1, h2⟩
  · intro w q x h s hc hop ho hb h1 h2 h3 h4 h5 h6 h7 h8 hs hl
    obtain ⟨k1, k2, k3⟩ := State.ringOp_gated hc ho hop (f := fun c h x => c.routeLoad q h x)
      (Chip.routeLoad_eq hb h1 h2 h3 h4 h5 h6 h7 h8 hs hl)
    exact ⟨_, rfl, k2, k3⟩
  · intro w q x h s hc hop ho hb hs hown hj
    obtain ⟨-, k2, k3⟩ := State.ringOp_gated hc ho hop (f := fun c h x => c.routeMove q h false x) (Chip.routeMove_eq false hb hs hown hj)
    exact ⟨_, rfl, k2, k3⟩
  · intro w q x h s hc hop ho hb hs hown hj hk
    obtain ⟨-, k2, k3⟩ := State.ringOp_gated hc ho hop (f := fun c h x => c.routeMove q h true x)
      (Chip.routeMove_eq true hb (show ((s.chip w).route (x.field 22 2)).state ≠ 0 by omega) hown hj)
    refine ⟨_, rfl, k2, k3.trans ?_⟩
    have hk' : ((s.chip w).ringActed q x.idx).isKeeper = true := hk
    have hs' : (((s.chip w).ringActed q x.idx).route (x.field 22 2)).state = 2 := hs
    rw [hk', hs']
    rfl
  · intro w q x h s hc hop ho hb hs hown
    obtain ⟨-, k2, k3⟩ := State.ringOp_gated hc ho hop (f := fun c h x => c.routeEnd q h false x) (Chip.routeStop_eq hb hs hown)
    exact ⟨_, rfl, k2, k3⟩
  · intro w q x h s hc hop ho hb hs hown
    obtain ⟨-, k2, k3⟩ := State.ringOp_gated hc ho hop (f := fun c h x => c.routeEnd q h true x) (Chip.routeUnload_eq hb hs hown)
    exact ⟨_, rfl, k2, k3⟩

end Sys2Proof.Machine
end

section
/-! PROOF. The command rings (R143 to R152): rings start and stop, are rung, and their one keeper fetches commands and writes completions. -/
namespace Sys2Proof.Machine

namespace Chip

variable (c : Chip)

/-! ## A ring's words -/

theorem quiet_ringStatus (q : Fin 64) : quietReg 0x051 (0x800 + 0x8 * q.val) = true := by
  have hq := q.isLt
  simp [quietReg]
  omega

theorem quiet_ringTail (q : Fin 64) : quietReg 0x051 (0x804 + 0x8 * q.val) = true := by
  have hq := q.isLt
  simp [quietReg]
  omega

theorem quietReg_lt {p o : Nat} (h : quietReg p o = true) : o < 4096 := by
  simp [quietReg] at h
  omega

theorem ringState_raise (f : Fld) (q : Fin 64) : (c.raise f).ringState q.val = c.ringState q.val := get_raise c f _ (quiet_ringStatus q)

theorem ringState_put (q : Nat) (v : Nat) : (c.put (F.PBX_RING_STATUS_STATE q) v).ringState q = v % 2 ^ 2 :=
  get_put_same _ _ _ (by show 16 + 2 ≤ 32; decide)

/-- A write to another word leaves a ring's state as it was. -/
theorem ringState_put_ne (f : Fld) (v q : Nat) (h : regKey 0x051 (0x800 + 0x8 * q) ≠ regKey f.page f.off) : (c.put f v).ringState q = c.ringState q :=
  get_put_ne _ _ _ _ h

theorem ring_put (f : Fld) (v q : Nat) : (c.put f v).ring q = c.ring q := rfl

theorem get_mapRing (q : Nat) (f : Ring → Ring) (g : Fld) : (c.mapRing q f).get g = c.get g := rfl

theorem get_putCfg (f g : Fld) (v : Nat) : (c.putCfg f v).get g = (c.put f v).get g := rfl

/-! ## Enabling and disabling -/

theorem ringEnable_spec {q : Fin 64} (hr : c.running 0x051 = true) (he : c.cfgOn (F.PBX_RING_ENABLE q.val) = true) (hs : c.ringState q.val = 0) :
    (c.ringCode q.val = 0 → (c.ringEnable q.val).ringState q.val = 1) ∧
      (c.ringCode q.val ≠ 0 → (c.ringEnable q.val).ringState q.val = 2 ∧ (c.ringEnable q.val).is F.PBX_EV_RING_ERROR = true) := by
  unfold ringEnable
  simp only [hr, he, hs, beq_self_eq_true, Bool.and_self, Bool.not_true, Bool.false_eq_true, if_false]
  constructor
  · intro hc
    rw [if_pos hc]
    exact ringState_put _ _ _
  · intro hc
    rw [if_neg hc]
    exact ⟨(ringState_raise _ _ q).trans ((get_cnt _ _ _ _).trans (ringState_put _ _ _)), raise_is _ _ rfl rfl (by decide)⟩

theorem ringOff_spec (q : Fin 64) : (c.ringOff q.val).ringState q.val = 0 ∧ (c.ringOff q.val).get (F.PBX_DB_CMD_TAIL q.val) = 0 := by
  have hstate : ∀ d : Chip, ((d.put (F.PBX_RING_STATUS_STATE q.val) 0).put (F.PBX_RING_STATUS_CMD_HEAD q.val) 0).ringState q.val = 0 := fun d =>
    (get_put_apart _ (F.PBX_RING_STATUS_CMD_HEAD q.val) (F.PBX_RING_STATUS_STATE q.val) 0 (by show 0 + 16 ≤ 32; decide) rfl rfl
      (.inr (by show 0 + 16 ≤ 16; decide))).trans (ringState_put _ _ _)
  unfold ringOff
  dsimp only
  constructor
  · unfold ringState
    rw [get_putCfg, get_put_ne _ (F.PBX_DB_CMP_HEAD q.val) _ 0 (by simp only [regKey]; omega), get_putCfg,
      get_put_ne _ (F.PBX_DB_CMD_TAIL q.val) _ 0 (by simp only [regKey]; omega),
      get_put_ne _ (F.PBX_RING_STATUS_PHASE q.val) _ 1 (by simp only [regKey]; omega),
      get_put_ne _ (F.PBX_RING_STATUS_CMP_TAIL q.val) _ 0 (by simp only [regKey]; omega)]
    exact hstate c
  · rw [get_putCfg, get_put_ne _ (F.PBX_DB_CMP_HEAD q.val) (F.PBX_DB_CMD_TAIL q.val) 0 (by simp only [regKey]; omega), get_putCfg]
    exact (get_put_same _ (F.PBX_DB_CMD_TAIL q.val) 0 (by show 0 + 16 ≤ 32; decide)).trans (Nat.zero_mod _)

theorem ringDisable_spec {q : Fin 64} (he : c.cfgOn (F.PBX_RING_ENABLE q.val) = false) (hs : c.ringState q.val = 1) (hr : c.ring q.val = {}) :
    c.ringDisable q = (c.put (F.PBX_RING_STATUS_STATE q.val) 3).ringOff q.val := by
  have hring : (c.put (F.PBX_RING_STATUS_STATE q.val) 3).ring q.val = {} := (ring_put c _ _ _).trans hr
  have hst : (c.put (F.PBX_RING_STATUS_STATE q.val) 3).ringState q.val = 3 := ringState_put _ _ _
  unfold ringDisable
  rw [he, if_neg Bool.false_ne_true, hs, if_neg (by decide), if_neg (by decide)]
  dsimp only
  rw [hring]
  have hkeep : (if (c.put (F.PBX_RING_STATUS_STATE q.val) 3).keepsRing q.val = true then
      List.foldl (fun c (x : RingCmd) => c.ringReport q x.idx 5 0) (c.put (F.PBX_RING_STATUS_STATE q.val) 3)
        (({} : Ring).fetched.filter fun x => !x.started)
      else c.put (F.PBX_RING_STATUS_STATE q.val) 3) = c.put (F.PBX_RING_STATUS_STATE q.val) 3 := ite_self _
  rw [hkeep]
  unfold ringSettle
  rw [hring, hst]
  rfl

/-! ## Doorbells -/

theorem post_aliasQ (r : PmRecord) : (c.post r).twe.aliasQ = c.twe.aliasQ := (congrArg (fun k => k.twe.aliasQ) (post_quiet c r) :)

theorem acceptAlias_word (rq : Requester) (page off : Nat) (v : BitVec 64) :
    (c.acceptAlias rq ⟨page, off, 4, v⟩).twe.aliasQ = c.twe.aliasQ ++ [⟨c.twin, c.round, rq, ⟨page, off, 4, v⟩⟩] :=
  post_aliasQ _ _

/-- A doorbell of a head that owns the ring, or of a core in machine mode, is queued. -/
theorem doorbell_spec {rq : Requester} {n : Fin 9} {h : Fin 24} {q : Nat}
    (hrq : rq = .coreM n ∨ rq = .host h ∧ c.ringOwner q = some h ∧ c.mayWrite rq 0x051 = true) (off : Nat) (v : BitVec 16) :
    (c.doorbell rq true q off v).twe.aliasQ = c.twe.aliasQ ++ [⟨c.twin, c.round, rq, ⟨0x051, off, 4, v.setWidth 64⟩⟩] := by
  have hgo : c.doorbell rq true q off v = c.acceptAlias rq ⟨0x051, off, 4, v.setWidth 64⟩ := by
    unfold doorbell
    obtain rfl | ⟨rfl, ho, hm⟩ := hrq
    · rfl
    · simp [ho, hm]
  rw [hgo]
  exact acceptAlias_word c rq _ _ _

/-- A doorbell through another window is dropped, counted and raised. -/
theorem doorbell_denied (rq : Requester) (q off : Nat) (v : BitVec 16) :
    (c.doorbell rq false q off v).is F.PBX_EV_DOORBELL_DENIED = true ∧
      (c.doorbell rq false q off v).count K.PBX_DOORBELL_DENIED = (c.count K.PBX_DOORBELL_DENIED + 1) % 2 ^ 48 ∧
      (c.doorbell rq false q off v).twe.aliasQ = c.twe.aliasQ := by
  have hgo : c.doorbell rq false q off v = (c.cnt K.PBX_DOORBELL_DENIED).raise F.PBX_EV_DOORBELL_DENIED := rfl
  rw [hgo]
  refine ⟨raise_is _ _ rfl rfl (by decide), (count_raise _ _ _ (by decide)).trans (count_cnt_same _ _ _), ?_⟩
  exact (congrArg (fun k => k.twe.aliasQ) (raise_quiet (c.cnt K.PBX_DOORBELL_DENIED) _) :)

/-! ## Fetching -/

/-- A line as the memory of the chip gives it follows the tiers and the write buffer. -/
theorem fullLine_congr {c d : Chip} (ht : d.trm = c.trm) (hw : d.wmb = c.wmb) (a : Nat) : d.fullLine a = c.fullLine a := by
  have hd : d = { d with trm := c.trm, wmb := c.wmb } := by rw [← ht, ← hw]
  have hc : { d with trm := c.trm, wmb := c.wmb }.fullLine a = c.fullLine a := rfl
  rw [hd, hc]

theorem ringEntry_congr {c d : Chip} (ht : d.trm = c.trm) (hw : d.wmb = c.wmb) (ha : d.applied = c.applied) (q i : Nat) : d.ringEntry q i = c.ringEntry q i := by
  have hb : d.cmdBase q = c.cmdBase q := by
    have hd : d = { d with applied := c.applied } := by rw [← ha]
    have hc : { d with applied := c.applied }.cmdBase q = c.cmdBase q := rfl
    rw [hd, hc]
  unfold ringEntry
  rw [hb, fullLine_congr ht hw]

theorem cmdEntries_congr {c d : Chip} (ha : d.applied = c.applied) (q : Nat) : d.cmdEntries q = c.cmdEntries q ∧ d.cmpEntries q = c.cmpEntries q := by
  have hd : d = { d with applied := c.applied } := by rw [← ha]
  have hc : { d with applied := c.applied }.cmdEntries q = c.cmdEntries q ∧ { d with applied := c.applied }.cmpEntries q = c.cmpEntries q := ⟨rfl, rfl⟩
  rw [hd]
  exact hc

/-- A ring has at most 32,768 entries. -/
theorem cmpEntries_le (q : Nat) : 0 < c.cmpEntries q ∧ c.cmpEntries q ≤ 2 ^ 15 :=
  ⟨Nat.two_pow_pos _, Nat.pow_le_pow_right (by decide) (Nat.le_of_lt_succ (bitsOf_lt _ _ 4))⟩

theorem cmdEntries_le (q : Nat) : 0 < c.cmdEntries q ∧ c.cmdEntries q ≤ 2 ^ 15 :=
  ⟨Nat.two_pow_pos _, Nat.pow_le_pow_right (by decide) (Nat.le_of_lt_succ (bitsOf_lt _ _ 4))⟩

/-- The lines that a fetch owes its channel. -/
theorem fetchOwes (p : Prop) [Decidable p] (k : Client) (d n : Nat) (e : Chip) (he : e = if p then c.oweLines k d n else c) :
    e.trm = c.trm ∧ e.wmb = c.wmb ∧ e.applied = c.applied ∧ e.rings = c.rings := by
  subst he
  split <;> exact ⟨rfl, rfl, rfl, rfl⟩

/-- A good command starts: it is the one in progress, and the ring's head goes on. -/
theorem ringBegin_spec {q : Fin 64} {x : RingCmd} (hf : (c.ring q.val).fetched = []) (ho : ringOpcodes.contains x.opcode = true)
    (he : (c.ringEntry q.val x.idx).2 = true) :
    ((c.ringBegin q x).ring q.val).fetched = [{ x with started := true }] ∧
      (c.ringBegin q x).get (F.PBX_RING_STATUS_CMD_HEAD q.val) = (x.idx + 1) % c.cmdEntries q.val := by
  unfold ringBegin
  extract_lets y a d e
  obtain ⟨h1, h2, h3, h4⟩ := fetchOwes c _ _ _ _ d rfl
  clear_value d
  have hring : d.ring q.val = c.ring q.val := congrArg (fun t => Table.get (fun _ => ({} : Ring)) t q.val) h4
  have hstart : d.ringStart q.val y = (d.mapRing q.val fun r => { r with fetched := r.fetched ++ [y] }).put (F.PBX_RING_STATUS_CMD_HEAD q.val)
      ((y.idx + 1) % d.cmdEntries q.val) := by
    unfold ringStart
    rw [hring, hf]
    rfl
  have hs : (d.ringStart q.val y).ring q.val = { (c.ring q.val) with fetched := [y] } := by
    rw [hstart, ring_put, ring_mapRing_same, hring, hf]
    rfl
  have hst : (d.ringStart q.val y).trm = d.trm ∧ (d.ringStart q.val y).wmb = d.wmb ∧ (d.ringStart q.val y).applied = d.applied := by
    rw [hstart]
    exact ⟨rfl, rfl, rfl⟩
  obtain ⟨ht, hw, ha⟩ := hst
  have hhead : (d.ringStart q.val y).get (F.PBX_RING_STATUS_CMD_HEAD q.val) = (x.idx + 1) % c.cmdEntries q.val := by
    obtain ⟨hpos, hle⟩ := c.cmdEntries_le q.val
    have hlt : (x.idx + 1) % c.cmdEntries q.val < 2 ^ 16 := by
      have := Nat.mod_lt (x.idx + 1) hpos
      omega
    rw [hstart, (cmdEntries_congr h3 q.val).1]
    exact (get_put_same _ (F.PBX_RING_STATUS_CMD_HEAD q.val) _ (by show 0 + 16 ≤ 32; decide)).trans (Nat.mod_eq_of_lt hlt)
  have hent : (e.ringEntry q.val y.idx).2 = true := by
    have hrest := (d.ringStart q.val y).postEffect_rest (.ringStart q y) false none
    have hetrm : e.trm = c.trm := (congrArg Chip.trm hrest :).trans (ht.trans h1)
    have hewmb : e.wmb = c.wmb := (congrArg Chip.wmb hrest :).trans (hw.trans h2)
    have heapp : e.applied = c.applied := (congrArg Chip.applied hrest :).trans (ha.trans h3)
    rw [ringEntry_congr hetrm hewmb heapp]
    exact he
  rw [show ringOpcodes.contains y.opcode = true from ho, hent]
  rw [if_neg (by decide), if_neg (by decide)]
  exact ⟨congrArg Ring.fetched ((ring_postEffect _ _ none _).trans hs),
    (get_of_quiet (postEffect_quiet _ _ _ none) (F.PBX_RING_STATUS_CMD_HEAD q.val) (quiet_ringStatus q)).trans hhead⟩

theorem ringFetch_spec {q : Fin 64} {x : RingCmd} (hr : c.running 0x051 = true) (hk : c.keepsRing q.val = true) (hw : c.ringWaits q.val = true)
    (hroom : c.ringRoom q.val = true) (hf : (c.ring q.val).fetched = [])
    (he : c.ringEntry q.val (c.get (F.PBX_RING_STATUS_CMD_HEAD q.val)) = (x, true)) : c.ringFetch q = c.ringBegin q x := by
  have hs : (c.ringState q.val == 1) = true := by
    unfold ringWaits at hw
    exact (Bool.and_eq_true _ _ ▸ hw).1
  unfold ringFetch
  dsimp only
  rw [hr, hk, hs, hf, if_neg (by decide)]
  dsimp only [List.find?]
  rw [hw, hroom, he, if_neg (by decide), if_neg (by decide), if_neg (by decide), if_neg (by simp)]

/-! ## Completions -/

/-- `d` is `c` but for what a write into the buffer changes: of the rings' part nothing. -/
structure RingsKept (c d : Chip) : Prop where
  applied : d.applied = c.applied
  rings : d.rings = c.rings
  words : ∀ o, quietReg 0x051 o = true → d.rd 0x051 o = c.rd 0x051 o

theorem RingsKept.trans {c d e : Chip} (h : RingsKept c d) (k : RingsKept d e) : RingsKept c e :=
  ⟨k.applied.trans h.applied, k.rings.trans h.rings, fun o ho => (k.words o ho).trans (h.words o ho)⟩

theorem RingsKept.refl (c : Chip) : RingsKept c c := ⟨rfl, rfl, fun _ _ => rfl⟩

theorem RingsKept.of_upkept {c d : Chip} (h : Upkept c d) : RingsKept c d := by
  obtain ⟨ha, -, -, -, -, -, hr, -⟩ := h.parts
  exact ⟨ha, hr, fun o ho => h.words _ _ ho (by decide)⟩

theorem markChange_ringsKept (e : Nat) : RingsKept c (c.markChange e) := by
  unfold markChange
  split
  · exact .refl c
  · split
    · exact .refl c
    · next m _ _ =>
      refine RingsKept.trans (d := { c with twe := { c.twe with changeMap := some (e :: m) } }) ⟨rfl, rfl, fun _ _ => rfl⟩ ?_
      refine RingsKept.trans (.of_upkept (Upkept.mdcTouch _ _ _)) ⟨rfl, rfl, fun o ho => ?_⟩
      exact (rd_put_ne _ F.RSY_CHANGEMAP_MARKED _ _ _ fun h => absurd (regKey_inj (quietReg_lt ho) (by decide) h).1 (by decide)).trans (rd_cnt _ _ _ _ _)

theorem touchExtent_ringsKept (e : Nat) : RingsKept c (c.touchExtent e) := by
  unfold touchExtent
  dsimp only
  split
  · exact .refl c
  · split
    · exact .refl c
    · exact RingsKept.trans (d := { c with trm := { c.trm with ext := (c.trm.ext.set extDefault e
        { (c.ext e) with age := c.ageNow, touched := (c.ext e).touched || (c.ext e).pending }) } }) ⟨rfl, rfl, fun _ _ => rfl⟩
        (.of_upkept (Upkept.mdcTouch _ _ _))

theorem wmbMerge_ringsKept (line : Nat) (data : Line) (en : BitVec 64) (poison full : Bool) : RingsKept c (c.wmbMerge line data en poison full) := by
  unfold wmbMerge
  extract_lets a e x c1 bad cw c2 svc c3 trm c4
  have h1 : RingsKept c c1 := by
    unfold c1
    split <;> exact ⟨rfl, rfl, fun _ _ => rfl⟩
  have h2 : RingsKept c1 c2 := by
    unfold c2
    split <;> exact ⟨rfl, rfl, fun _ _ => rfl⟩
  have h3 : RingsKept c2 c3 := by
    unfold c3
    split <;> exact ⟨rfl, rfl, fun _ _ => rfl⟩
  have h4 : RingsKept c3 c4 := by
    unfold c4
    split <;> exact ⟨rfl, rfl, fun _ _ => rfl⟩
  exact h1.trans (h2.trans (h3.trans (h4.trans ((markChange_ringsKept c4 x).trans (touchExtent_ringsKept _ x)))))

/-- The ring after a completion is written: the command is gone, and the tail goes on. -/
theorem ringWritten_spec {q : Fin 64} {y : RingDone} (hq : y.e.q = q) (hf : (c.ring q.val).finished = [y]) (hs : c.ringState q.val = 1) :
    ((c.ringWritten y.e).ring q.val).finished = [] ∧
      (c.ringWritten y.e).get (F.PBX_RING_STATUS_CMP_TAIL q.val) = (c.get (F.PBX_RING_STATUS_CMP_TAIL q.val) + 1) % c.cmpEntries q.val := by
  unfold ringWritten
  rw [hq]
  extract_lets n t a sh c1 t' c2 c3 c4 c5
  have h1 : RingsKept c c1 := wmbMerge_ringsKept ..
  have ht' : t' = (c.get (F.PBX_RING_STATUS_CMP_TAIL q.val) + 1) % c.cmpEntries q.val :=
    congrArg (fun m => (c.get (F.PBX_RING_STATUS_CMP_TAIL q.val) + 1) % m) (cmdEntries_congr h1.applied q.val).2
  have hlt : t' < 2 ^ 16 := by
    obtain ⟨hpos, hle⟩ := c.cmpEntries_le q.val
    have := Nat.mod_lt (c.get (F.PBX_RING_STATUS_CMP_TAIL q.val) + 1) hpos
    omega
  have hs1 : c1.ringState q.val = 1 := by
    unfold ringState get
    rw [h1.words _ (quiet_ringStatus q)]
    exact hs
  have hr1 : c1.ring q.val = c.ring q.val := congrArg (fun t => Table.get (fun _ => ({} : Ring)) t q.val) h1.rings
  clear_value c1 t'
  have h2 : c2.ringState q.val = 1 ∧ c2.ring q.val = c.ring q.val ∧ c2.get (F.PBX_RING_STATUS_CMP_TAIL q.val) = t' := by
    refine ⟨(ringState_put_ne c1 (F.PBX_RING_STATUS_CMP_TAIL q.val) t' q.val (by simp only [regKey]; omega)).trans hs1, (ring_put _ _ _ _).trans hr1, ?_⟩
    exact (get_put_same c1 (F.PBX_RING_STATUS_CMP_TAIL q.val) t' (by show 0 + 16 ≤ 32; decide)).trans (Nat.mod_eq_of_lt hlt)
  clear_value c2
  have h3 : c3.ringState q.val = 1 ∧ c3.ring q.val = c.ring q.val ∧ c3.get (F.PBX_RING_STATUS_CMP_TAIL q.val) = t' := by
    obtain ⟨ha, hb, hc⟩ := h2
    unfold c3
    split
    · refine ⟨(ringState_put_ne c2 (F.PBX_RING_STATUS_PHASE q.val) _ q.val (by simp only [regKey]; omega)).trans ha, (ring_put _ _ _ _).trans hb, ?_⟩
      exact (get_put_apart c2 (F.PBX_RING_STATUS_PHASE q.val) (F.PBX_RING_STATUS_CMP_TAIL q.val) _ (by show 24 + 1 ≤ 32; decide) rfl rfl
        (.inl (by show 0 + 16 ≤ 24; decide))).trans hc
    · exact ⟨ha, hb, hc⟩
  clear_value c3
  have h4 : c4.ringState q.val = 1 ∧ (c4.ring q.val).finished = [] ∧ c4.get (F.PBX_RING_STATUS_CMP_TAIL q.val) = t' := by
    obtain ⟨ha, hb, hc⟩ := h3
    have hword : ∀ f : Fld, c4.get f = c3.get f := fun f => (get_mapRing _ _ _ f).trans (get_cnt _ _ _ f)
    refine ⟨(hword _).trans ha, ?_, (hword _).trans hc⟩
    have hring : c4.ring q.val = { fetched := (c3.ring q.val).fetched.filter fun z => z.idx != y.e.idx
                                   finished := (c3.ring q.val).finished.filter fun z => z.e.idx != y.e.idx } :=
      (ring_mapRing_same _ _ _).trans rfl
    rw [hring, hb, hf]
    simp
  clear_value c4
  have h5 : c5.ringState q.val = 1 ∧ (c5.ring q.val).finished = [] ∧ c5.get (F.PBX_RING_STATUS_CMP_TAIL q.val) = t' := by
    unfold c5
    split
    · next h _ =>
      split
      · exact h4
      · obtain ⟨ha, hb, hc⟩ := h4
        refine ⟨(get_of_quiet (cause_quiet c4 h _) _ (quiet_ringStatus q)).trans ha, ?_, (get_of_quiet (cause_quiet c4 h _) _ (quiet_ringTail q)).trans hc⟩
        exact (congrArg (fun d => (Chip.ring d q.val).finished) (cause_rest c4 h _) :).trans hb
    · exact h4
  obtain ⟨ha, hb, hc⟩ := h5
  have hsettle : c5.ringSettle q.val = c5 := by
    unfold ringSettle
    rw [ha]
    rfl
  rw [hsettle]
  exact ⟨hb, hc.trans ht'⟩

theorem ringComplete_spec {q : Fin 64} {y : RingDone} (hk : c.keepsRing q.val = true) (hq : y.e.q = q) (hf : (c.ring q.val).finished = [y])
    (hn : y.recSeq = none) (hs : c.ringState q.val = 1) :
    ((c.ringComplete q).ring q.val).finished = [] ∧
      (c.ringComplete q).get (F.PBX_RING_STATUS_CMP_TAIL q.val) = (c.get (F.PBX_RING_STATUS_CMP_TAIL q.val) + 1) % c.cmpEntries q.val := by
  have hgo : c.ringComplete q = (c.ringWritten y.e).postEffect (.ringWritten y.e) false := by
    unfold ringComplete
    rw [hf]
    dsimp only
    rw [hn, hk]
    rfl
  obtain ⟨h1, h2⟩ := c.ringWritten_spec hq hf hs
  rw [hgo]
  refine ⟨(congrArg Ring.finished (ring_postEffect _ _ none _)).trans h1, ?_⟩
  exact (get_of_quiet (postEffect_quiet _ _ _ none) (F.PBX_RING_STATUS_CMP_TAIL q.val) (quiet_ringTail q)).trans h2

end Chip

/-- Settles O31: each step of a ring is read off the chip that keeps it; the other chip does not keep it. -/
theorem ringsComplete : Obligations.RingsComplete := by
  refine ⟨?_, ?_, ?_, ?_, ?_, ?_, ?_⟩
  · intro w q s hup hr he hs hc
    refine ⟨_, rfl, ?_⟩
    rw [State.chip_mapBoth, if_pos hup]
    exact ((s.chip w).ringEnable_spec hr he hs).1 hc
  · intro w q s hup hr he hs hc
    refine ⟨_, rfl, ?_⟩
    rw [State.chip_mapBoth, if_pos hup]
    exact ((s.chip w).ringEnable_spec hr he hs).2 hc
  · intro w q s hup he hs hr
    refine ⟨_, rfl, ?_⟩
    rw [State.chip_mapBoth, if_pos hup, Chip.ringDisable_spec _ he hs hr]
    exact Chip.ringOff_spec _ q
  · intro w rq n h q v s hup hrq x hx
    have hloc : s.isLocal w rq = true := by
      obtain rfl | ⟨rfl, hw, -⟩ := hrq
      · rfl
      · exact beq_iff_eq.mpr hw
    have hown : rq = .coreM n ∨ rq = .host h ∧ (s.chip w).ringOwner q.val = some h ∧ (s.chip w).mayWrite rq 0x051 = true := by
      obtain h1 | ⟨h1, -, h2⟩ := hrq
      · exact .inl h1
      · exact .inr ⟨h1, h2⟩
    simp only [List.mem_cons, List.not_mem_nil, or_false] at hx
    obtain rfl | rfl := hx <;> refine ⟨_, rfl, ?_⟩ <;>
      simp only [hloc, if_true, State.chip_onUp_other, State.chip_onUp hup, true_and]
    · exact (s.chip w).doorbell_spec hown _ v
    · exact (s.chip w).doorbell_spec hown _ v
  · intro w rq q v s hup hloc x hx
    simp only [List.mem_cons, List.not_mem_nil, or_false] at hx
    obtain rfl | rfl := hx <;> refine ⟨_, rfl, ?_⟩ <;>
      simp only [hloc, if_true, State.chip_onUp_other, State.chip_onUp hup, and_true]
    · exact (s.chip w).doorbell_denied rq q.val _ v
    · exact (s.chip w).doorbell_denied rq q.val _ v
  · intro w q x s hup hr hk hk' hw hroom hf he hop
    have hidx : x.idx = (s.chip w).get (F.PBX_RING_STATUS_CMD_HEAD q.val) := (congrArg (fun y => y.1.idx) he :).symm
    have hgood : ((s.chip w).ringEntry q.val x.idx).2 = true := by rw [hidx, he]
    have hoth : (s.chip w.other).ringFetch q = s.chip w.other := by
      unfold Chip.ringFetch
      rw [hk', Bool.and_false, Bool.false_and]
      rfl
    obtain ⟨h1, h2⟩ := (s.chip w).ringBegin_spec hf hop hgood
    refine ⟨_, rfl, ?_⟩
    rw [State.chip_mapBoth, State.chip_mapBoth, if_pos hup, Chip.ringFetch_spec _ hr hk hw hroom hf he, hoth, ite_self]
    exact ⟨h1, h2, rfl⟩
  · intro w q y s hup hk hk' hf hn hq hs
    have hoth : (s.chip w.other).ringComplete q = s.chip w.other := by
      unfold Chip.ringComplete
      split
      · rfl
      · rw [hk']
        rfl
    obtain ⟨h1, h2⟩ := (s.chip w).ringComplete_spec hk hq hf hn hs
    refine ⟨_, rfl, ?_⟩
    rw [State.chip_mapBoth, State.chip_mapBoth, if_pos hup, hoth, ite_self]
    exact ⟨h1, h2, rfl⟩

end Sys2Proof.Machine
end

section
/-! PROOF. Range commands (R278 to R280) and retirements (R457, R458) of a ring at its one keeper. -/
namespace Sys2Proof.Machine

namespace Chip

variable (c : Chip)

/-! ## Ends of commands -/

theorem twe_ringFinish (x : RingEnd) (n : Option Nat) : (c.ringFinish x n).twe = c.twe := by
  unfold ringFinish
  split <;> rfl

/-- `d` is `c` but for what ends of commands change: neither the tiers nor the effects that wait. -/
structure Ended (c d : Chip) : Prop where
  trm : d.trm = c.trm
  cbl : d.cbl = c.cbl
  gated : d.twe.gated = c.twe.gated

theorem Ended.refl (c : Chip) : Ended c c := ⟨rfl, rfl, rfl⟩

theorem Ended.trans {c d e : Chip} (h : Ended c d) (k : Ended d e) : Ended c e :=
  ⟨k.trm.trans h.trm, k.cbl.trans h.cbl, k.gated.trans h.gated⟩

theorem postEffect_ended (e : Effect) (ends : Option Ends) : Ended c (c.postEffect e false ends) :=
  ⟨(congrArg Chip.trm (postEffect_rest c e false ends) :), (congrArg Chip.cbl (postEffect_rest c e false ends) :), post_gated c _⟩

theorem ringFinish_ended (x : RingEnd) (n : Option Nat) : Ended c (c.ringFinish x n) := by
  unfold ringFinish
  split <;> exact ⟨rfl, rfl, rfl⟩

theorem ringReport_ended (q : Fin 64) (idx st res : Nat) (e : Effect) : Ended c (c.ringReport q idx st res e) := by
  unfold ringReport
  split
  · exact .refl c
  · exact (postEffect_ended c _ _).trans (ringFinish_ended _ _ _)

theorem commandEnd_ended (q : Fin 64) (idx st res : Nat) : Ended c (c.commandEnd q idx st res) := by
  unfold commandEnd
  split
  · exact ringReport_ended ..
  · exact postEffect_ended ..

/-- The checks of the range commands that wait change those commands alone. -/
theorem rangeChecks_keeps : c.rangeChecks.trm.queue = c.trm.queue ∧ c.rangeChecks.twe.gated = c.twe.gated := by
  have hall : ∀ (g : Chip → RangeWait → Chip), (∀ d w, Ended d (g d w)) → ∀ (l : List RangeWait) (d : Chip), Ended d (l.foldl g d) := by
    intro g hg l
    induction l with
    | nil => exact fun d => .refl d
    | cons w l ih => exact fun d => (hg d w).trans (ih _)
  have h : Ended { c with trm := { c.trm with waits := (c.trm.waits.map c.rangePass).filter fun w => !w.left.isEmpty } } c.rangeChecks := by
    unfold rangeChecks
    exact hall _ (fun d w => commandEnd_ended d _ _ _ _) _ _
  exact ⟨(congrArg Trm.queue h.trm :), h.gated⟩

/-! ## Range commands -/

variable {c} {q : Fin 64} {h : Nat} {x : RingCmd}

/-- A range command with one extent that is written: what it does before its checks. -/
theorem rangeCommand_eq {d e : Nat} (kind : Nat) (hu : x.usesOnly [(8, 8), (16, 4)] = true) (hd : c.rangeDomain h (x.field 8 8) (x.field 16 4) = .ok d)
    (he : c.writtenIn (x.field 8 8 / 2 ^ 21) (x.field 16 4) = [e]) (hk : c.isKeeper = true) :
    c.rangeCommand q h kind x = c.rangeBegin q x.idx kind [e] := by
  unfold rangeCommand
  dsimp only
  rw [hu, hd, he, hk]
  rfl

theorem queueMig_eq {cls e : Nat} {promote : Bool} (hm : c.migrating e promote = false) :
    c.queueMig cls e promote = { c with trm := { c.trm with queue := c.trm.queue ++ [{ cls, extent := e, promote }] } } := by
  unfold queueMig
  rw [hm]
  rfl

theorem rangeBegin_promote {e : Nat} (hs : (c.ext e).state = 1) (hp : c.policy e ≠ 3) (hk : c.isKeeper = true) (hm : c.migrating e true = false) (idx : Nat) :
    (c.rangeBegin q idx 0 [e]).trm.queue = c.trm.queue ++ [{ cls := 3, extent := e, promote := true }] := by
  have hw : c.wantMove 3 e true = { c with trm := { c.trm with queue := c.trm.queue ++ [{ cls := 3, extent := e, promote := true }] } } := by
    unfold wantMove
    rw [hk, hs, queueMig_eq hm]
    rfl
  have hes : [e].filter (fun e => (c.ext e).state != 0) = [e] := by simp [hs]
  unfold rangeBegin
  dsimp only
  rw [hes, List.foldl_cons, List.foldl_nil, if_neg hp, hw]
  exact (rangeChecks_keeps _).1

theorem rangeBegin_evict {e : Nat} (hs : (c.ext e).state = 2) (hp : c.policy e ≠ 0) (hk : c.isKeeper = true) (hm : c.migrating e false = false) (idx : Nat) :
    (c.rangeBegin q idx 1 [e]).trm.queue = c.trm.queue ++ [{ cls := 5, extent := e, promote := false }] := by
  have hw : c.wantMove 5 e false = { c with trm := { c.trm with queue := c.trm.queue ++ [{ cls := 5, extent := e, promote := false }] } } := by
    unfold wantMove
    rw [hk, hs, queueMig_eq hm]
    rfl
  have hes : [e].filter (fun e => (c.ext e).state != 0) = [e] := by simp [hs]
  unfold rangeBegin
  dsimp only
  rw [hes, List.foldl_cons, List.foldl_nil, if_neg hp, hw]
  exact (rangeChecks_keeps _).1

theorem rangeBegin_discard {e : Nat} (hs : (c.ext e).state ≠ 0) (hc : c.inCommons (e * 2 ^ 21) = false) (idx : Nat) :
    (c.rangeBegin q idx 2 [e]).twe.gated.getLast?.map (fun g => g.effect) = some (.extentState e 0) := by
  have hes : [e].filter (fun e => (c.ext e).state != 0) = [e] := by simp [hs]
  obtain ⟨g, hge, -, hg⟩ := c.postEffect_gated (.extentState e 0) none
  unfold rangeBegin
  dsimp only
  rw [hes, List.foldl_cons, List.foldl_nil, hc, if_neg Bool.false_ne_true, (rangeChecks_keeps _).2]
  have hlast : (c.announce (.extentState e 0)).twe.gated.getLast?.map (fun g => g.effect) = some (.extentState e 0) := by
    unfold announce
    rw [hg]
    simp [hge]
  exact hlast

/-! ## A block of a Route's list -/

theorem route_mapRoute_same (r : Nat) (f : RouteSlot → RouteSlot) : (c.mapRoute r f).route r = f (c.route r) := Table.get_set_same _ _ _ _

theorem route_cnt (d : Chip) (k : Ctr) (n r : Nat) : (d.cnt k n).route r = d.route r := rfl

/-- A Route without its list's entries. -/
def withoutEntries (y : RouteSlot) : RouteSlot := { y with entries := [] }

theorem rte_raise (f : Fld) : (c.raise f).rte = c.rte := (congrArg Chip.rte (raise_rest c f) :)

/-- An entry of a list read is noted; one that names no object is counted and raised. -/
theorem noteEntry_route (r i v : Nat) (ok : Bool) (z w : Chip) (hw : w = z.mapRoute r fun y => { y with entries := y.entries.set (fun _ => 0) i v }) :
    withoutEntries ((if ok then w else (w.cnt K.RTE_BAD_ENTRIES).raise F.RTE_EV_BAD_ENTRY).route r) = withoutEntries (z.route r) := by
  have hwr : withoutEntries (w.route r) = withoutEntries (z.route r) := by
    rw [hw, route_mapRoute_same]
    rfl
  cases ok
  · exact (congrArg (fun t : Rte => withoutEntries (t.slots.get (fun _ => {}) r)) (rte_raise _) :).trans hwr
  · exact hwr

theorem foldl_route (r : Nat) (g : Chip → Nat → Chip) (hg : ∀ z i, withoutEntries ((g z i).route r) = withoutEntries (z.route r)) (l : List Nat) :
    ∀ z : Chip, withoutEntries ((l.foldl g z).route r) = withoutEntries (z.route r) := by
  induction l with
  | nil => exact fun z => rfl
  | cons i l ih => exact fun z => (ih _).trans (hg z i)

theorem resolveBlock_route {r b : Nat} (ha : (c.route r).asked.contains b = true) (line : Nat → Line) :
    withoutEntries ((c.resolveBlock r b line).route r) =
      withoutEntries { c.route r with asked := dropN (c.route r).asked b, blocks := insertN (c.route r).blocks b } := by
  unfold resolveBlock
  dsimp only
  rw [if_neg (by rw [ha]; decide)]
  refine (foldl_route r _ (fun z i => ?_) _ _).trans (congrArg withoutEntries ((route_cnt _ _ _ r).trans (route_mapRoute_same r _)))
  exact noteEntry_route r _ _ _ z _ rfl

theorem resolveBlock_spec {r b : Nat} (ha : (c.route r).asked.contains b = true) (line : Nat → Line) :
    ((c.resolveBlock r b line).route r).asked.contains b = false ∧ ((c.resolveBlock r b line).route r).blocks.contains b = true ∧
      ((c.resolveBlock r b line).route r).pos = (c.route r).pos := by
  have hfin := resolveBlock_route ha line
  refine ⟨?_, ?_, (congrArg RouteSlot.pos hfin :)⟩
  · have hasked : ((c.resolveBlock r b line).route r).asked = dropN (c.route r).asked b := (congrArg RouteSlot.asked hfin :)
    rw [hasked]
    simp [dropN]
  · have hblocks : ((c.resolveBlock r b line).route r).blocks = insertN (c.route r).blocks b := (congrArg RouteSlot.blocks hfin :)
    rw [hblocks]
    unfold insertN
    split
    · assumption
    · simp

end Chip

/-- Settles O34: the one written extent is queued or announced, and the checks of the waiting commands change neither queue nor announcements. -/
theorem rangeCommandsComplete : Obligations.RangeCommandsComplete := by
  refine ⟨?_, ?_, ?_, ?_⟩
  · intro w q x h d e s hc hop ho hu hd he hs hp hk hm
    have hd' : (s.chip w).rangeDomain h.val (x.field 8 8) (x.field 16 4) = .ok d := by
      split at hd
      · next y hy => exact hy.trans (congrArg _ (Option.some.inj hd))
      · cases hd
    obtain ⟨h1, h2⟩ := State.ringOp_spec hc ho hop (fun c h x => c.rangeCommand q h 0 x)
    refine ⟨_, rfl, ?_, h2⟩
    rw [h1, Chip.rangeCommand_eq (c := (s.chip w).ringActed q x.idx) 0 hu hd' he hk]
    exact Chip.rangeBegin_promote (c := (s.chip w).ringActed q x.idx) hs hp hk hm _
  · intro w q x h d e s hc hop ho hu hd he hs hp hk hm
    have hd' : (s.chip w).rangeDomain h.val (x.field 8 8) (x.field 16 4) = .ok d := by
      split at hd
      · next y hy => exact hy.trans (congrArg _ (Option.some.inj hd))
      · cases hd
    obtain ⟨h1, h2⟩ := State.ringOp_spec hc ho hop (fun c h x => c.rangeCommand q h 1 x)
    refine ⟨_, rfl, ?_, h2⟩
    rw [h1, Chip.rangeCommand_eq (c := (s.chip w).ringActed q x.idx) 1 hu hd' he hk]
    exact Chip.rangeBegin_evict (c := (s.chip w).ringActed q x.idx) hs hp hk hm _
  · intro w q x h d e s hc hop ho hu hd he hs hcm hk
    have hd' : (s.chip w).rangeDomain h.val (x.field 8 8) (x.field 16 4) = .ok d := by
      split at hd
      · next y hy => exact hy.trans (congrArg _ (Option.some.inj hd))
      · cases hd
    obtain ⟨h1, h2⟩ := State.ringOp_spec hc ho hop (fun c h x => c.rangeCommand q h 2 x)
    refine ⟨_, rfl, ?_, h2⟩
    rw [h1, Chip.rangeCommand_eq (c := (s.chip w).ringActed q x.idx) 2 hu hd' he hk]
    exact Chip.rangeBegin_discard (c := (s.chip w).ringActed q x.idx) hs hcm _
  · intro w slot block s hup ha
    refine ⟨_, rfl, ?_⟩
    simp only [State.chip_onUp hup, State.chip_onUp_other, and_true]
    exact Chip.resolveBlock_spec ha _

namespace Chip

variable {c : Chip} {q : Fin 64} {x : RingCmd}

/-! ## Retirements -/

theorem ofLeBytes_zeros (l : List Byte) (h : ∀ b ∈ l, b = 0) : ofLeBytes (l.map BitVec.toNat) = 0 := by
  induction l with
  | nil => rfl
  | cons b l ih =>
    rw [List.map_cons, h b (List.mem_cons_self ..)]
    unfold ofLeBytes
    rw [ih fun b hb => h b (List.mem_cons_of_mem _ hb)]
    rfl

/-- Operands outside the ranges used are 0: so is the address of a retirement that names its row by its location. -/
theorem address_of_rowUses (hu : x.usesOnly [(16, 1), (20, 8)] = true) : x.field 8 8 = 0 := by
  have hz : ∀ i < 8, x.operands.getD i 0 = 0 := by
    intro i hi
    unfold RingCmd.usesOnly at hu
    have hi' := List.all_eq_true.mp hu i (List.mem_range.mpr (by omega))
    simp only [Bool.or_eq_true, beq_iff_eq, List.any_cons, List.any_nil, Bool.and_eq_true, decide_eq_true_eq, Bool.or_false] at hi'
    obtain h | ⟨h, -⟩ | ⟨h, -⟩ := hi'
    · exact h
    · omega
    · omega
  have hall : ∀ b ∈ (x.operands.drop (8 - 8)).take 8, b = 0 := by
    intro b hb
    obtain ⟨i, hi, rfl⟩ := List.mem_iff_getElem.mp hb
    have hlen : i < 8 ∧ i < x.operands.length := by
      simp only [List.length_take, List.length_drop] at hi
      omega
    have := hz i hlen.1
    rw [List.getD_eq_getElem?_getD, List.getElem?_eq_getElem hlen.2] at this
    simpa using this
  unfold RingCmd.field entryWord
  exact ofLeBytes_zeros _ hall

/-- A retirement asked of this chip goes as far as it can. -/
theorem retireCommand_here {op : Nat} (hop : x.opcode = op) (h3 : op ≠ 0x303) (hu : x.usesOnly (retireUses op) = true) (ha : retireAligned op (x.field 8 8) = true)
    (hw : x.field 16 1 = c.rst.twinId) (h1 : c.rst.twinId ≤ 1) :
    c.retireCommand q x = c.retireGo { q, idx := x.idx, opcode := op, address := x.field 8 8, location := x.field 20 8 } := by
  unfold retireCommand retireHere
  dsimp only
  rw [hop, hu, ha, decide_eq_false (by omega), if_neg (by decide), if_pos hw, if_neg h3]

theorem get_setCbl (b : Cbl) (f : Fld) : { c with cbl := b }.get f = c.get f := rfl

theorem pprState_started (z : Chip) (d : Nat) : ((z.put (F.DRF_PPR_STATUS_STATE d) 1).put (F.DRF_PPR_STATUS_ERR d) 0).get (F.DRF_PPR_STATUS_STATE d) = 1 :=
  (get_put_apart _ (F.DRF_PPR_STATUS_ERR d) (F.DRF_PPR_STATUS_STATE d) 0 (by show 8 + 8 ≤ 32; decide) rfl rfl (.inl (by show 0 + 2 ≤ 8; decide))).trans
    (get_put_same _ (F.DRF_PPR_STATUS_STATE d) 1 (by show 0 + 2 ≤ 32; decide))

theorem cbl_meetChannel (d : Nat) : (c.meetChannel d).cbl = c.cbl := by
  unfold meetChannel
  split
  · exact (congrArg Chip.cbl (raise_rest _ _) :)
  · split <;> rfl

theorem pprStart_spec (d rank bg ba row : Nat) (hard auto : Bool) :
    (c.pprStart d rank bg ba row hard auto).get (F.DRF_PPR_STATUS_STATE d) = 1 ∧ (c.pprStart d rank bg ba row hard auto).cbl = c.cbl := by
  refine ⟨pprState_started _ d, ?_⟩
  unfold pprStart
  dsimp only
  rw [cbl_put, cbl_put]
  exact cbl_meetChannel d

theorem retireRowJob_ppr {q : Fin 64} {idx loc : Nat} (hp : c.rowPopulated (placeOf loc) = true)
    (hh : c.cbl.hpprRows.contains ((placeOf loc).ch, (placeOf loc).rowKey) = false)
    (hs : c.cbl.spprRows.contains ((placeOf loc).ch, (placeOf loc).rowKey) = false) (hf : c.cbl.framesRetired = []) (hm : c.pprMay = true) :
    c.retireRowJob { q, idx, opcode := 0x300, address := 0, location := loc } =
      (c.pprStart (placeOf loc).ch (placeOf loc).rank (placeOf loc).bg (placeOf loc).ba (placeOf loc).row false true, none, true) := by
  have hfs : (!(c.rowFrames (placeOf loc)).isEmpty && (c.rowFrames (placeOf loc)).all fun f => c.cbl.framesRetired.contains f) = false := by
    rw [hf]
    generalize c.rowFrames (placeOf loc) = l
    cases l with
    | nil => rfl
    | cons f l => rfl
  unfold retireRowJob
  dsimp only
  rw [hp, hh, hs, hfs, hm]
  simp only [Bool.not_true, Bool.false_eq_true, if_false]

/-- A row that may be repaired: PPR starts for it, and the command waits among the jobs. -/
theorem retireGo_row {d : Chip} (j : RetireJob) (h3 : j.opcode = 0x300 ∧ j.address = 0) (hj : c.retireRowJob j = (d, none, true)) :
    c.retireGo j = { d with cbl := { d.cbl with retireJobs := d.cbl.retireJobs ++ [{ j with started := true }] } } := by
  unfold retireGo
  rw [if_pos h3, hj]

/-- A retirement done: its command ends, and the ends of commands change neither tiers nor spares. -/
theorem commandEnd_spec {q : Fin 64} {idx : Nat} {y : RingCmd} (hk : c.keepsRing q.val = true) (hy : c.ringCmd q.val idx = some y) (st res : Nat) :
    (c.commandEnd q idx st res).ringCmd q.val idx = none ∧ Ended c (c.commandEnd q idx st res) := by
  have hend : c.ringEnd q idx st res = some ⟨q, idx, y.tag, st, res % 2 ^ 64, y.flags.testBit 1⟩ := by
    unfold ringEnd
    rw [hy]
    rfl
  refine ⟨?_, commandEnd_ended ..⟩
  unfold commandEnd
  rw [if_pos hk]
  exact (ringReport_plain hend .nothing).2

/-- `d` keeps what decides which chip keeps a ring, and the rings. -/
structure KeepersKept (c d : Chip) : Prop where
  applied : d.applied = c.applied
  rings : d.rings = c.rings
  rst : d.rst = c.rst
  roles : d.rd 0x070 0x800 = c.rd 0x070 0x800

theorem KeepersKept.trans {c d e : Chip} (h : KeepersKept c d) (k : KeepersKept d e) : KeepersKept c e :=
  ⟨k.applied.trans h.applied, k.rings.trans h.rings, k.rst.trans h.rst, k.roles.trans h.roles⟩

theorem KeepersKept.of_upkept {c d : Chip} (h : Upkept c d) : KeepersKept c d := by
  obtain ⟨ha, -, -, -, -, -, hr, -, -, -, -, -, -, -, hrst, -⟩ := h.parts
  exact ⟨ha, hr, hrst, h.words _ _ (by decide) (by decide)⟩

theorem KeepersKept.keepsRing {c d : Chip} (h : KeepersKept c d) (q : Nat) : d.keepsRing q = c.keepsRing q := by
  have hown : d.ringOwner q = c.ringOwner q := by
    have hd : d = { d with applied := c.applied } := by rw [← h.applied]
    have hc : { d with applied := c.applied }.ringOwner q = c.ringOwner q := rfl
    rw [hd, hc]
  have hhome : ∀ p, d.isHome p = c.isHome p := fun p => by
    unfold isHome up role get roleFld
    rw [h.rst, h.roles]
  unfold Chip.keepsRing
  rw [hown]
  split
  · exact hhome _
  · rfl

theorem KeepersKept.ringCmd {c d : Chip} (h : KeepersKept c d) (q i : Nat) : d.ringCmd q i = c.ringCmd q i := by
  unfold Chip.ringCmd ring
  rw [h.rings]

/-- The pool without a frame that no extent uses, before it is counted and logged. -/
def withoutFrame (c : Chip) (f : Nat) : Chip :=
  { c with
    cbl := { c.cbl with framesRetired := f :: c.cbl.framesRetired }
    trm := { c.trm with freeing := c.trm.freeing.filter fun x => x.1 != f, zeroing := c.trm.zeroing.filter fun x => x != f } }

/-- The log's entry and the draw of a spare leave keepers, retired frames and extents as they are. -/
theorem logged_keeps (p : Chip) (a : Nat) (b : Bool) : KeepersKept p ((p.dlo 0x13 4 5 0 0 a).drew 6 a b) ∧
    ((p.dlo 0x13 4 5 0 0 a).drew 6 a b).cbl.framesRetired = p.cbl.framesRetired ∧ ((p.dlo 0x13 4 5 0 0 a).drew 6 a b).trm.ext = p.trm.ext := by
  have h1 : Upkept p (p.dlo 0x13 4 5 0 0 a) := .dlo _ _ _ _ _ _ _ _
  have ht1 : (p.dlo 0x13 4 5 0 0 a).trm.ext = p.trm.ext := (congrArg (fun d : Chip => d.trm.ext) h1.rest :)
  have hb1 := congrArg Cbl.framesRetired h1.cbl
  have hk1 := KeepersKept.of_upkept h1
  generalize p.dlo 0x13 4 5 0 0 a = d at hk1 ht1 hb1 ⊢
  have h2 := drew_upkept d 6 a b
  have hk2 : KeepersKept d (d.drew 6 a b) := KeepersKept.trans (d := { d with cbl := { d.cbl with
      today := d.cbl.today.set (fun _ => 0) 6 (d.cbl.today.get (fun _ => 0) 6 + 1) } }) ⟨rfl, rfl, rfl, rfl⟩ (.of_upkept h2)
  have ht2 : (d.drew 6 a b).trm.ext = d.trm.ext := (congrArg (fun d : Chip => d.trm.ext) h2.rest :)
  have hb2 : (d.drew 6 a b).cbl.framesRetired = d.cbl.framesRetired := (congrArg Cbl.framesRetired h2.cbl :)
  exact ⟨hk1.trans hk2, hb2.trans hb1, ht2.trans ht1⟩

theorem retireFrame_eq {f : Nat} (hr : c.cbl.framesRetired.contains f = false) (hu : (c.trm.ext.filter fun x => x.2.frame == some f) = []) :
    c.retireFrame f = some ((((c.withoutFrame f).put F.CBD_FRAMES_RETIRED (c.withoutFrame f).cbl.framesRetired.length).dlo 0x13 4 5 0 0
      ((c.withoutFrame f).frameAddr f 0)).drew 6 ((c.withoutFrame f).frameAddr f 0) ((c.withoutFrame f).poolFree == 0)) := by
  unfold retireFrame
  rw [hr, if_neg Bool.false_ne_true, hu]
  rfl

theorem withoutFrame_keeps (f n : Nat) : KeepersKept c ((c.withoutFrame f).put F.CBD_FRAMES_RETIRED n) :=
  ⟨rfl, rfl, rfl, rd_put_ne (c.withoutFrame f) F.CBD_FRAMES_RETIRED _ _ _ (by decide)⟩

theorem retireFrame_unused {f : Nat} (hr : c.cbl.framesRetired.contains f = false) (hu : (c.trm.ext.filter fun x => x.2.frame == some f) = []) :
    ∃ d, c.retireFrame f = some d ∧ KeepersKept c d ∧ d.cbl.framesRetired = f :: c.cbl.framesRetired ∧ d.trm.ext = c.trm.ext := by
  refine ⟨_, retireFrame_eq hr hu, ?_⟩
  obtain ⟨h1, h2, h3⟩ := logged_keeps ((c.withoutFrame f).put F.CBD_FRAMES_RETIRED (c.withoutFrame f).cbl.framesRetired.length)
    ((c.withoutFrame f).frameAddr f 0) ((c.withoutFrame f).poolFree == 0)
  exact ⟨(withoutFrame_keeps f _).trans h1, h2, h3⟩

/-- A frame that no extent uses leaves the pool. -/
theorem retireFrameJob_spec {a f : Nat} (hf : c.frameAt a = some f) (hr : c.cbl.framesRetired.contains f = false) (hn : c.poolNeed + 1 ≤ c.poolFrames)
    (hu : (c.trm.ext.all fun y => y.2.frame != some f) = true) :
    ∃ d, c.retireFrameJob a = (d, some (0, 1)) ∧ KeepersKept c d ∧ d.cbl.framesRetired = f :: c.cbl.framesRetired ∧ d.trm.ext = c.trm.ext := by
  have husers : (c.trm.ext.filter fun x => x.2.frame == some f) = [] := by
    rw [List.filter_eq_nil_iff]
    intro x hx
    have := List.all_eq_true.mp hu x hx
    simpa using this
  obtain ⟨d, hd, hrest⟩ := retireFrame_unused hr husers
  refine ⟨d, ?_, hrest⟩
  have hnew : [f].filter (fun f => !c.cbl.framesRetired.contains f) = [f] := List.filter_cons_of_pos (by rw [hr]; rfl)
  have hgo : c.retireFrames [f] = (d, some 0) := by
    unfold retireFrames
    dsimp only
    rw [hnew, List.foldl_cons, List.foldl_nil, Option.bind_some, hd, if_neg (show ¬(c.poolNeed + [f].length > c.poolFrames) from Nat.not_lt.mpr hn)]
  unfold retireFrameJob
  rw [hf, Option.elim_some, hgo]
  rfl

end Chip

/-- Settles O43: the row, the frame or the parcel is looked up, and the command waits for PPR or ends. -/
theorem retirementsComplete : Obligations.RetirementsComplete := by
  refine ⟨?_, ?_, ?_⟩
  · intro w q x s hc hop hu hw h1 hp hh hs hf hm
    obtain ⟨h, ho⟩ := State.owner_of_carries hc
    obtain ⟨k1, k2⟩ := State.ringOp_spec hc ho hop (fun c _ x => c.retireCommand q x)
    have hgo := Chip.retireCommand_here (c := (s.chip w).ringActed q x.idx) (q := q) hop (by decide) hu rfl hw h1
    have ha := Chip.address_of_rowUses hu
    refine ⟨_, rfl, ?_⟩
    obtain ⟨g1, g2⟩ := Chip.pprStart_spec (c := (s.chip w).ringActed q x.idx) (Chip.placeOf (x.field 20 8)).ch (Chip.placeOf (x.field 20 8)).rank
      (Chip.placeOf (x.field 20 8)).bg (Chip.placeOf (x.field 20 8)).ba (Chip.placeOf (x.field 20 8)).row false true
    rw [k1, hgo, ha, Chip.retireGo_row _ ⟨rfl, rfl⟩ (Chip.retireRowJob_ppr (c := (s.chip w).ringActed q x.idx) hp hh hs hf hm), Chip.get_setCbl]
    exact ⟨g1, congrArg (fun b : Cbl => b.retireJobs ++ [_]) g2, k2⟩
  · intro w q x f s hc hop hu hw h1 hal hf hr hn hue
    obtain ⟨h, ho⟩ := State.owner_of_carries hc
    obtain ⟨-, hk, hx, -⟩ := State.carries_iff.mp hc
    obtain ⟨k1, k2⟩ := State.ringOp_spec hc ho hop (fun c _ x => c.retireCommand q x)
    have hgo := Chip.retireCommand_here (c := (s.chip w).ringActed q x.idx) (q := q) hop (by decide) hu (beq_iff_eq.mpr hal) hw h1
    obtain ⟨d, hd, hkept, hfr, hext⟩ := Chip.retireFrameJob_spec (c := (s.chip w).ringActed q x.idx) hf hr hn hue
    have hy : d.ringCmd q.val x.idx = some { x with acted := true } := by
      rw [hkept.ringCmd, Chip.ringCmd_ringActed, hx]
      rfl
    have hend : ((s.chip w).ringActed q x.idx).retireGo { q, idx := x.idx, opcode := 0x301, address := x.field 8 8, location := x.field 20 8 } =
        d.commandEnd q x.idx 0 1 := by
      unfold Chip.retireGo
      dsimp only
      rw [if_neg (by rintro ⟨h0, -⟩; exact absurd h0 (by decide)), if_neg (by decide), if_pos rfl, hd]
    obtain ⟨e1, e2⟩ := Chip.commandEnd_spec ((hkept.keepsRing q.val).trans hk) hy 0 1
    refine ⟨_, rfl, ?_⟩
    rw [k1, hgo, hend, e2.cbl, e2.trm]
    exact ⟨hfr, hext, e1, k2⟩
  · intro w q x s hc hop hu hw h1 hal hd hp
    obtain ⟨h, ho⟩ := State.owner_of_carries hc
    obtain ⟨-, hk, hx, -⟩ := State.carries_iff.mp hc
    obtain ⟨k1, k2⟩ := State.ringOp_spec hc ho hop (fun c _ x => c.retireCommand q x)
    have hgo := Chip.retireCommand_here (c := (s.chip w).ringActed q x.idx) (q := q) hop (by decide) hu (beq_iff_eq.mpr hal) hw h1
    have hy : ((s.chip w).ringActed q x.idx).ringCmd q.val x.idx = some { x with acted := true } := by
      rw [Chip.ringCmd_ringActed, hx]
      rfl
    have hjob : ((s.chip w).ringActed q x.idx).retireParcelJob (x.field 8 8) = ((s.chip w).ringActed q x.idx, some (0, 0)) := by
      unfold Chip.retireParcelJob
      have hd' : (((s.chip w).ringActed q x.idx).domainOf (x.field 8 8)).isNone = false := by
        rw [Option.isNone_eq_false_iff]
        exact hd
      have hp' : (((s.chip w).ringActed q x.idx).parcel (parcelOf (x.field 8 8))).state ≠ 1 := hp
      dsimp only
      rw [hd', if_neg Bool.false_ne_true, if_pos hp']
    have hend : ((s.chip w).ringActed q x.idx).retireGo { q, idx := x.idx, opcode := 0x302, address := x.field 8 8, location := x.field 20 8 } =
        ((s.chip w).ringActed q x.idx).commandEnd q x.idx 0 0 := by
      unfold Chip.retireGo
      dsimp only
      rw [if_neg (by rintro ⟨h0, -⟩; exact absurd h0 (by decide)), if_neg (by decide), if_neg (by decide), hjob]
    obtain ⟨e1, e2⟩ := Chip.commandEnd_spec (c := (s.chip w).ringActed q x.idx) hk hy 0 0
    refine ⟨_, rfl, ?_⟩
    rw [k1, hgo, hend, e2.trm]
    exact ⟨rfl, e1, k2⟩

end Sys2Proof.Machine
end

section
/-! PROOF. A head that its host reaches (R75 to R84, R155): decoders, configuration writes, DOE Discovery, CDAT and D0. -/
namespace Sys2Proof.Machine

namespace Chip

variable (c : Chip)

/-! ## What the next flit of a host leaves -/

/-- A head without what its host's flits change. -/
def unheard (x : Head) : Head := { x.quiet with rxHist := [], rxCount := 0 }

/-- `d` is `c` but for the flits heard of a head, counters and what events change. -/
structure Heard (c d : Chip) : Prop where
  rest : d.rest = c.rest
  words : ∀ p o, quietReg p o = true → d.rd p o = c.rd p o
  heads : ∀ i, unheard (d.head i) = unheard (c.head i)

theorem Heard.refl (c : Chip) : Heard c c := ⟨rfl, fun _ _ _ => rfl, fun _ => rfl⟩

theorem Heard.trans {c d e : Chip} (h : Heard c d) (k : Heard d e) : Heard c e :=
  ⟨k.rest.trans h.rest, fun p o ho => (k.words p o ho).trans (h.words p o ho), fun i => (k.heads i).trans (h.heads i)⟩

theorem Heard.of_quiet {c d : Chip} (hr : d.rest = c.rest) (hq : d.quiet = c.quiet) : Heard c d :=
  ⟨hr, fun p o ho => rd_of_quiet hq p o ho, fun i => (congrArg (fun x : Head => { x with rxHist := [], rxCount := 0 }) (head_of_quiet hq i) :)⟩

theorem Heard.of_cnt (c : Chip) (k : Ctr) (n : Nat) : Heard c (c.cnt k n) := ⟨cnt_rest _ _ _, fun _ _ _ => rfl, fun _ => rfl⟩

theorem Heard.of_mapHead (c : Chip) (h : Fin 24) (f : Head → Head) (hf : ∀ x, unheard (f x) = unheard x) : Heard c (c.mapHead h f) := by
  refine ⟨mapHead_rest _ _ _, fun _ _ _ => rfl, fun i => ?_⟩
  by_cases hi : i = h
  · subst hi
    rw [head_mapHead_same, hf]
  · rw [head_mapHead_ne _ _ _ _ hi]

theorem hearFlit_heard (h : Fin 24) (flit : Nat) (r : Option Request) : Heard c (c.hearFlit h flit r) := by
  unfold hearFlit
  extract_lets c1 all lost c2
  have h1 : Heard c c1 := by
    unfold c1
    split
    · exact .refl c
    · exact .of_cnt _ _ _
  have h2 : Heard c1 c2 := .of_mapHead _ _ _ fun _ => rfl
  exact h1.trans (h2.trans ((Heard.of_quiet (histFull_rest _ _ _) (histFull_quiet _ _ _)).trans (.of_quiet (raiseHist_rest _ _) (raiseHist_quiet _ _))))

theorem Heard.isHome {c d : Chip} (h : Heard c d) (p : Fin 6) : d.isHome p = c.isHome p := by
  have hrst : d.rst = c.rst := (congrArg Chip.rst h.rest :)
  unfold Chip.isHome up role get roleFld
  rw [hrst, h.words 0x070 0x800 (by decide)]

theorem Heard.head {c d : Chip} (h : Heard c d) (i : Fin 24) : (d.head i).decoders = (c.head i).decoders ∧ (d.head i).cfgSpace = (c.head i).cfgSpace :=
  ⟨(congrArg Head.decoders (h.heads i) :), (congrArg Head.cfgSpace (h.heads i) :)⟩

/-! ## Decoders -/

theorem decoder_setDecoder (h : Fin 24) (n : Nat) (d : Decoder) : (c.setDecoder h n d).decoder h n = d := by
  unfold setDecoder decoder
  rw [head_mapHead_same]
  exact Table.get_set_same _ _ _ _

theorem head_showDecoders (h i : Fin 24) : (c.showDecoders h).head i = c.head i := rfl

theorem decoder_showDecoders (h i : Fin 24) (n : Nat) : (c.showDecoders h).decoder i n = c.decoder i n := by
  unfold decoder
  rw [head_showDecoders]

theorem commitDecoder_spec {h : Fin 24} {n : Nat} (hc : (c.decoder h n).committed = false) (hm : c.memActive = true) (hr : c.decoderReason h n = 0) :
    ((c.commitDecoder h n).decoder h n).committed = true ∧ ((c.commitDecoder h n).decoder h n).cfg = (c.decoder h n).cfg := by
  have hgo : c.commitDecoder h n =
      (c.setDecoder h n { c.decoder h n with committed := true, failed := false, waiting := false }).showDecoders h := by
    unfold commitDecoder checkDecoder
    dsimp only
    rw [hc, if_neg Bool.false_ne_true, hm, if_pos rfl, hr, if_pos rfl]
  rw [hgo, decoder_showDecoders, decoder_setDecoder]
  exact ⟨rfl, rfl⟩

theorem ioWrite_decoder {h : Fin 24} {n : Fin 16} (d : DecoderCfg) (hc : ((c.decoder h n.val).committed && (c.decoder h n.val).cfg.lock) = false) :
    (c.ioWrite h (.decoder n d)).decoder h n.val = { cfg := d } := by
  have hdec : (c.cnt (K.HLNK_IO_REQUESTS h.val)).decoder h n.val = c.decoder h n.val := rfl
  unfold ioWrite
  dsimp only
  rw [hdec, hc, if_neg Bool.false_ne_true, decoder_showDecoders, decoder_setDecoder]

theorem ioWrite_other (h : Fin 24) (off : Nat) (d : Word) : ((c.ioWrite h (.other off d)).head h).cfgSpace.get (fun _ => 0) off = d := by
  unfold ioWrite
  dsimp only
  rw [head_mapHead_same]
  exact Table.get_set_same _ _ _ _

/-! ## D0 -/

theorem releaseMsix_quiet (h : Fin 24) : (c.releaseMsix h).quiet = c.quiet := by
  refine foldl_quiet _ (fun c v => ?_) _ _
  dsimp only
  split
  · exact (mapVec_quiet _ _ _ _).trans (mapVec_quiet _ _ _ _)
  · split
    · exact (sendMsix_quiet _ _ _).trans (mapVec_quiet _ _ _ _)
    · exact mapVec_quiet _ _ _ _

theorem get_mapHead (h : Fin 24) (f : Head → Head) (g : Fld) : (c.mapHead h f).get g = c.get g := rfl

theorem enterD0_spec (h : Fin 24) : (c.enterD0 h).get (F.HLNK_LINK_D_STATE h.val) = 0 := by
  have hq : quietReg (F.HLNK_LINK_D_STATE h.val).page (F.HLNK_LINK_D_STATE h.val).off = true := by
    have := h.isLt
    simp [quietReg]
    omega
  unfold enterD0
  rw [get_of_quiet (releaseMsix_quiet _ _) _ hq]
  exact (get_mapHead _ h _ _).trans ((get_put_same c (F.HLNK_LINK_D_STATE h.val) 0 (by show 16 + 2 ≤ 32; decide)).trans (Nat.zero_mod _))

end Chip

namespace State

/-- What `onPort` makes of the home of the port. -/
theorem chip_onPort {s : State} {w : Twin} {p : Fin 6} (hw : s.homeOf p = some w) (f : Chip → Chip) : (s.onPort p f).chip w = f (s.chip w) := by
  unfold onPort
  rw [chip_mapBoth, if_pos ((s.chip w).onPort_of_home (isHome_of_homeOf hw))]

/-- A configuration write on the home: the flit that brings it is heard, and the write is carried out. -/
theorem configWrite_spec {s : State} {w : Twin} {h : Fin 24} (hw : s.homeOf (portOf h) = some w) (f : Chip → Chip) :
    ((s.onHome h fun c => c.hearOther h).onPort (portOf h) f).chip w = f ((s.chip w).hearOther h) := by
  have hh : ((s.onHome h fun c => c.hearOther h).chip w).isHome (portOf h) = true := by
    rw [chip_onHome hw]
    exact (((s.chip w).hearFlit_heard h _ none).isHome _).trans (isHome_of_homeOf hw)
  unfold onPort
  rw [chip_mapBoth, if_pos (Chip.onPort_of_home _ hh), chip_onHome hw]

end State

/-- Settles O18: each access is read off the home of the head's port. -/
theorem headConfigurationComplete : Obligations.HeadConfigurationComplete := by
  refine ⟨?_, ?_, ?_, ?_, ?_, ?_⟩
  · intro w h n s hl hw hc hm hr
    refine ⟨_, rfl, ?_⟩
    rw [if_pos hl, State.chip_onPort hw]
    exact (s.chip w).commitDecoder_spec hc hm hr
  · intro w h n d s hl hw hc
    refine ⟨_, rfl, ?_⟩
    rw [if_neg (by rw [hl]; decide)]
    dsimp only
    rw [State.configWrite_spec hw]
    refine Chip.ioWrite_decoder _ d ?_
    have hdec : ((s.chip w).hearOther h).decoder h n.val = (s.chip w).decoder h n.val := by
      unfold Chip.decoder
      exact congrArg (fun t : Table Decoder => t.get (fun _ => {}) n.val) (((s.chip w).hearFlit_heard h _ none).head h).1
    rw [hdec]
    exact hc
  · intro w h off d s hl hw
    refine ⟨_, rfl, ?_⟩
    rw [if_neg (by rw [hl]; decide)]
    dsimp only
    rw [State.configWrite_spec hw]
    exact Chip.ioWrite_other _ h off d
  · intro w h index s hl hw
    refine ⟨_, rfl, ?_, State.chip_onReached_other hl hw _⟩
    rw [State.chip_onReached hl hw]
    exact Chip.setDoe_reply ..
  · intro w h entry e s hl hw he
    refine ⟨_, rfl, ?_, State.chip_onReached_other hl hw _⟩
    rw [State.chip_onReached hl hw]
    dsimp only
    rw [he]
    exact Chip.setDoe_reply ..
  · intro w h s hl hw
    refine ⟨_, rfl, ?_⟩
    rw [if_pos hl, State.chip_onPort hw]
    exact (s.chip w).enterD0_spec h

end Sys2Proof.Machine
end

section
/-! PROOF. Host links and their carbons (R65 to R68, R101 to R106): training, leaving L0, and what the carbon tracks. -/
namespace Sys2Proof.Machine

namespace Chip

variable (c : Chip)

/-! ## The word that shows a link -/

/-- The word of a link's state, rate, width and flit form. -/
def linkWord (h : Fin 24) : Word := c.rd (0x241 + 2 * h.val) 0x800

theorem quiet_linkWord (h : Fin 24) : quietReg (0x241 + 2 * h.val) 0x800 = true := by
  have := h.isLt
  simp [quietReg]
  omega

theorem linkWord_of_quiet {c d : Chip} (hq : d.quiet = c.quiet) (h : Fin 24) : d.linkWord h = c.linkWord h := rd_of_quiet hq _ _ (quiet_linkWord h)

theorem linkWord_raise (f : Fld) (h : Fin 24) : (c.raise f).linkWord h = c.linkWord h := linkWord_of_quiet (raise_quiet c f) h

theorem linkWord_mapHead (i h : Fin 24) (f : Head → Head) : (c.mapHead i f).linkWord h = c.linkWord h := rfl

theorem linkWord_cnt (k : Ctr) (n : Nat) (h : Fin 24) : (c.cnt k n).linkWord h = c.linkWord h := rfl

/-- A field of another page. -/
theorem linkWord_put (f : Fld) (v : Nat) (h : Fin 24) (hp : f.page < 0x241) (ho : f.off < 4096) : (c.put f v).linkWord h = c.linkWord h :=
  rd_put_ne _ _ _ _ _ fun hk => by
    obtain ⟨h1, -⟩ := regKey_inj (by decide) ho hk
    omega

/-- A fold of steps that leave a link's word as it is. -/
theorem linkWord_foldl {α : Type} (g : Chip → α → Chip) (h : Fin 24) (l : List α) (hg : ∀ d, ∀ x ∈ l, (g d x).linkWord h = d.linkWord h) :
    ∀ d : Chip, (l.foldl g d).linkWord h = d.linkWord h := by
  induction l with
  | nil => exact fun d => rfl
  | cons x l ih => exact fun d => (ih (fun d y hy => hg d y (List.mem_cons_of_mem _ hy)) _).trans (hg d x (List.mem_cons_self ..))

/-- What a link's word shows. -/
structure LinkShows (h : Fin 24) (st rate width flit : Nat) : Prop where
  ltssm : c.ltssm h = st
  rate : c.get (F.HLNK_LINK_RATE h.val) = rate
  width : c.get (F.HLNK_LINK_WIDTH h.val) = width
  flit : c.get (F.HLNK_LINK_FLIT h.val) = flit

variable {c}

theorem LinkShows.of_word {d : Chip} {h : Fin 24} {st rate width flit : Nat} (hs : c.LinkShows h st rate width flit) (hw : d.linkWord h = c.linkWord h) :
    d.LinkShows h st rate width flit := by
  have hget : ∀ f : Fld, f.page = 0x241 + 2 * h.val → f.off = 0x800 → d.get f = c.get f := fun f hp ho => by
    unfold get
    rw [hp, ho]
    exact congrArg (fun v => bitsOf v f.lo f.width) hw
  exact ⟨(hget (F.HLNK_LINK_LTSSM h.val) rfl rfl).trans hs.ltssm, (hget (F.HLNK_LINK_RATE h.val) rfl rfl).trans hs.rate,
    (hget (F.HLNK_LINK_WIDTH h.val) rfl rfl).trans hs.width, (hget (F.HLNK_LINK_FLIT h.val) rfl rfl).trans hs.flit⟩

/-- A field of the word above those shown. -/
theorem LinkShows.put_above {h : Fin 24} {st rate width flit : Nat} (hs : c.LinkShows h st rate width flit) (f : Fld) (v : Nat)
    (hp : f.page = 0x241 + 2 * h.val) (ho : f.off = 0x800) (hl : 13 ≤ f.lo) (hn : f.lo + f.width ≤ 32) : (c.put f v).LinkShows h st rate width flit :=
  ⟨(get_put_apart _ f (F.HLNK_LINK_LTSSM h.val) _ hn hp.symm ho.symm (.inl (by show 0 + 4 ≤ f.lo; omega))).trans hs.ltssm,
    (get_put_apart _ f (F.HLNK_LINK_RATE h.val) _ hn hp.symm ho.symm (.inl (by show 4 + 3 ≤ f.lo; omega))).trans hs.rate,
    (get_put_apart _ f (F.HLNK_LINK_WIDTH h.val) _ hn hp.symm ho.symm (.inl (by show 8 + 3 ≤ f.lo; omega))).trans hs.width,
    (get_put_apart _ f (F.HLNK_LINK_FLIT h.val) _ hn hp.symm ho.symm (.inl (by show 11 + 2 ≤ f.lo; omega))).trans hs.flit⟩

theorem LinkShows.put_ltssm {h : Fin 24} {st rate width flit : Nat} (hs : c.LinkShows h st rate width flit) (v : Nat) (hv : v < 2 ^ 4) :
    (c.put (F.HLNK_LINK_LTSSM h.val) v).LinkShows h v rate width flit :=
  ⟨(get_put_same _ (F.HLNK_LINK_LTSSM h.val) _ (by show 0 + 4 ≤ 32; decide)).trans (Nat.mod_eq_of_lt hv),
    (get_put_apart _ (F.HLNK_LINK_LTSSM h.val) (F.HLNK_LINK_RATE h.val) _ (by show 0 + 4 ≤ 32; decide) rfl rfl (.inr (by show 0 + 4 ≤ 4; decide))).trans hs.rate,
    (get_put_apart _ (F.HLNK_LINK_LTSSM h.val) (F.HLNK_LINK_WIDTH h.val) _ (by show 0 + 4 ≤ 32; decide) rfl rfl (.inr (by show 0 + 4 ≤ 8; decide))).trans hs.width,
    (get_put_apart _ (F.HLNK_LINK_LTSSM h.val) (F.HLNK_LINK_FLIT h.val) _ (by show 0 + 4 ≤ 32; decide) rfl rfl (.inr (by show 0 + 4 ≤ 11; decide))).trans hs.flit⟩

theorem LinkShows.put_flit {h : Fin 24} {st rate width flit : Nat} (hs : c.LinkShows h st rate width flit) (v : Nat) (hv : v < 2 ^ 2) :
    (c.put (F.HLNK_LINK_FLIT h.val) v).LinkShows h st rate width v :=
  ⟨(get_put_apart _ (F.HLNK_LINK_FLIT h.val) (F.HLNK_LINK_LTSSM h.val) _ (by show 11 + 2 ≤ 32; decide) rfl rfl (.inl (by show 0 + 4 ≤ 11; decide))).trans hs.ltssm,
    (get_put_apart _ (F.HLNK_LINK_FLIT h.val) (F.HLNK_LINK_RATE h.val) _ (by show 11 + 2 ≤ 32; decide) rfl rfl (.inl (by show 4 + 3 ≤ 11; decide))).trans hs.rate,
    (get_put_apart _ (F.HLNK_LINK_FLIT h.val) (F.HLNK_LINK_WIDTH h.val) _ (by show 11 + 2 ≤ 32; decide) rfl rfl (.inl (by show 8 + 3 ≤ 11; decide))).trans hs.width,
    (get_put_same _ (F.HLNK_LINK_FLIT h.val) _ (by show 11 + 2 ≤ 32; decide)).trans (Nat.mod_eq_of_lt hv)⟩

theorem LinkShows.put_width {h : Fin 24} {st rate width flit : Nat} (hs : c.LinkShows h st rate width flit) (v : Nat) (hv : v < 2 ^ 3) :
    (c.put (F.HLNK_LINK_WIDTH h.val) v).LinkShows h st rate v flit :=
  ⟨(get_put_apart _ (F.HLNK_LINK_WIDTH h.val) (F.HLNK_LINK_LTSSM h.val) _ (by show 8 + 3 ≤ 32; decide) rfl rfl (.inl (by show 0 + 4 ≤ 8; decide))).trans hs.ltssm,
    (get_put_apart _ (F.HLNK_LINK_WIDTH h.val) (F.HLNK_LINK_RATE h.val) _ (by show 8 + 3 ≤ 32; decide) rfl rfl (.inl (by show 4 + 3 ≤ 8; decide))).trans hs.rate,
    (get_put_same _ (F.HLNK_LINK_WIDTH h.val) _ (by show 8 + 3 ≤ 32; decide)).trans (Nat.mod_eq_of_lt hv),
    (get_put_apart _ (F.HLNK_LINK_WIDTH h.val) (F.HLNK_LINK_FLIT h.val) _ (by show 8 + 3 ≤ 32; decide) rfl rfl (.inr (by show 8 + 3 ≤ 11; decide))).trans hs.flit⟩

theorem LinkShows.put_rate {h : Fin 24} {st rate width flit : Nat} (hs : c.LinkShows h st rate width flit) (v : Nat) (hv : v < 2 ^ 3) :
    (c.put (F.HLNK_LINK_RATE h.val) v).LinkShows h st v width flit :=
  ⟨(get_put_apart _ (F.HLNK_LINK_RATE h.val) (F.HLNK_LINK_LTSSM h.val) _ (by show 4 + 3 ≤ 32; decide) rfl rfl (.inl (by show 0 + 4 ≤ 4; decide))).trans hs.ltssm,
    (get_put_same _ (F.HLNK_LINK_RATE h.val) _ (by show 4 + 3 ≤ 32; decide)).trans (Nat.mod_eq_of_lt hv),
    (get_put_apart _ (F.HLNK_LINK_RATE h.val) (F.HLNK_LINK_WIDTH h.val) _ (by show 4 + 3 ≤ 32; decide) rfl rfl (.inr (by show 4 + 3 ≤ 8; decide))).trans hs.width,
    (get_put_apart _ (F.HLNK_LINK_RATE h.val) (F.HLNK_LINK_FLIT h.val) _ (by show 4 + 3 ≤ 32; decide) rfl rfl (.inr (by show 4 + 3 ≤ 11; decide))).trans hs.flit⟩

/-- Every link's word shows something. -/
theorem linkShows_self (c : Chip) (h : Fin 24) :
    c.LinkShows h (c.ltssm h) (c.get (F.HLNK_LINK_RATE h.val)) (c.get (F.HLNK_LINK_WIDTH h.val)) (c.get (F.HLNK_LINK_FLIT h.val)) := ⟨rfl, rfl, rfl, rfl⟩

/-- The move of a link's LTSSM. -/
theorem LinkShows.setLtssm {h : Fin 24} {st rate width flit : Nat} (hs : c.LinkShows h st rate width flit) (v : Nat) (hv : v < 2 ^ 4) :
    (c.setLtssm h v).LinkShows h v rate width flit := by
  unfold Chip.setLtssm
  extract_lets p old c1 c2
  have h1 : c1.LinkShows h v rate width flit := hs.put_ltssm v hv
  have h2 : c2.LinkShows h v rate width flit := by
    unfold c2
    split
    · exact h1.of_word (linkWord_put _ _ _ _ (by have := (portOf h).isLt; show 0x201 + 4 * (portOf h).val < 0x241; omega)
        (by have : linkPos h < 4 := Nat.mod_lt _ (by decide); show 0x800 + 0x10 * linkPos h < 4096; omega))
    · exact h1
  split
  · exact h2.of_word (linkWord_raise _ _ _)
  · exact h2

/-! ## Training -/

variable (c)

theorem port_page (p : Fin 6) (k : Nat) (hk : k < 4) : 0x200 + 4 * p.val + k < 0x241 := by
  have := p.isLt
  omega

theorem linkWord_trainLanes (h : Fin 24) (t : LinkTraining) : (c.trainLanes h t).linkWord h = c.linkWord h := by
  unfold trainLanes
  dsimp only
  have hp := (portOf h).isLt
  refine (linkWord_foldl _ h _ (fun d l hl => ?_) _).trans (linkWord_put _ _ _ _ (by show 0x200 + 4 * (portOf h).val < 0x241; omega) (by show 0x808 < 4096; decide))
  have hl' := List.mem_range.mp hl
  split
  · refine (linkWord_put _ (F.LANE_HOST_LANE_LOCK (portOf h).val l) _ _ (by show 0x202 + 4 * (portOf h).val < 0x241; omega) (by show 0x800 + 0x4 * l < 4096; omega)).trans ?_
    exact linkWord_put _ (F.LANE_HOST_LANE_DETECTED (portOf h).val l) _ _ (by show 0x202 + 4 * (portOf h).val < 0x241; omega) (by show 0x800 + 0x4 * l < 4096; omega)
  · rfl

theorem linkWord_loadCoefs (h : Fin 24) : (c.loadCoefs h).linkWord h = c.linkWord h := by
  have hp := (portOf h).isLt
  have hk : linkPos h < 4 := Nat.mod_lt _ (by decide)
  unfold loadCoefs
  dsimp only
  rw [linkWord_put _ (F.CARB_TXCOEF_POST (portOf h).val (linkPos h)) _ _ (by show 0x201 + 4 * (portOf h).val < 0x241; omega) (by show 0x804 + 0x10 * linkPos h < 4096; omega),
    linkWord_put _ (F.CARB_TXCOEF_MAIN (portOf h).val (linkPos h)) _ _ (by show 0x201 + 4 * (portOf h).val < 0x241; omega) (by show 0x804 + 0x10 * linkPos h < 4096; omega),
    linkWord_put _ (F.CARB_TXCOEF_PRE (portOf h).val (linkPos h)) _ _ (by show 0x201 + 4 * (portOf h).val < 0x241; omega) (by show 0x804 + 0x10 * linkPos h < 4096; omega),
    linkWord_put _ (F.CARB_CARBON_RATE (portOf h).val (linkPos h)) _ _ (by show 0x201 + 4 * (portOf h).val < 0x241; omega) (by show 0x800 + 0x10 * linkPos h < 4096; omega)]

theorem linkWord_acquire (h : Fin 24) : (c.acquire h).linkWord h = c.linkWord h := by
  have hp := (portOf h).isLt
  have hk : linkPos h < 4 := Nat.mod_lt _ (by decide)
  unfold acquire setTrack
  rw [linkWord_mapHead]
  exact linkWord_put _ (F.CARB_CARBON_STATE (portOf h).val (linkPos h)) _ _ (by show 0x201 + 4 * (portOf h).val < 0x241; omega)
    (by show 0x800 + 0x10 * linkPos h < 4096; omega)

theorem linkAwake_quiet (h : Fin 24) : (c.linkAwake h).quiet = c.quiet := by
  unfold linkAwake
  split
  · rfl
  · split
    · exact releaseMsix_quiet _ _
    · split
      · exact pushFlit_quiet _ _ _
      · rfl

theorem linkWord_cdatFollow (old : Chip) (h : Fin 24) : (c.cdatFollow old).linkWord h = c.linkWord h := by
  unfold cdatFollow
  refine linkWord_foldl _ h _ (fun d i _ => ?_) _
  exact (linkWord_of_quiet (headRecord_quiet _ _ _ _ _ _) h).trans (linkWord_mapHead _ _ _ _)

variable {c}

theorem enterL0_spec {h : Fin 24} (t : LinkTraining) {rate width flit : Nat} (hr : rate < 2 ^ 3) (hw : width < 2 ^ 3) (hf : flit < 2 ^ 2) :
    (c.enterL0 h t rate width flit).LinkShows h 3 rate width flit := by
  have hp := (portOf h).isLt
  unfold enterL0
  extract_lets p from' c1 c2 c3 c4 c5 cl c6
  have h2 : c2.LinkShows h (c1.ltssm h) rate width flit :=
    (((((linkShows_self c1 h).put_rate rate hr).put_width width hw).put_flit flit hf)).put_above (F.HLNK_LINK_REVERSED h.val) _ rfl rfl (by show 13 ≤ 13; decide)
      (by show 13 + 1 ≤ 32; decide)
  have h3 : c3.LinkShows h (c1.ltssm h) rate width flit :=
    h2.of_word (linkWord_put _ (F.HP_LANE_ACTIVE (portOf h).val) _ _ (by show 0x200 + 4 * (portOf h).val < 0x241; omega) (by show 0x804 < 4096; decide))
  have h4 : c4.LinkShows h (c1.ltssm h) rate width flit := h3.of_word (linkWord_mapHead _ _ _ _)
  have h5 : c5.LinkShows h 3 rate width flit :=
    (h4.setLtssm 3 (by decide)).put_above (F.HLNK_LINK_MEM_ACTIVE h.val) _ rfl rfl (by show 13 ≤ 18; decide) (by show 18 + 1 ≤ 32; decide)
  have h6 : c6.LinkShows h 3 rate width flit := by
    unfold c6
    split
    · have hl := h5.of_word (linkWord_loadCoefs c5 h)
      split
      · exact hl.of_word (linkWord_acquire _ h)
      · exact hl
    · exact h5
  split
  · exact h6.of_word (linkWord_of_quiet (linkAwake_quiet _ _) h)
  · exact h6

theorem trainLink_spec {h : Fin 24} {t : LinkTraining} {rate width flit : Nat} (hr : rate = min t.rate.val (c.cfg (F.HP_PORT_CFG_MAX_RATE (portOf h).val)))
    (hw : width = min t.width.val (min (c.groupWidth h) (Nat.log2 (laneCount (c.lanesFor h))))) (hf : c.flitMode (portOf h).val rate t = some flit)
    (hlt : flit < 4) (hmw : c.cfg (F.HP_DEGRADE_CFG_MIN_WIDTH (portOf h).val) ≤ width) (hmr : c.cfg (F.HP_DEGRADE_CFG_MIN_RATE (portOf h).val) ≤ rate) :
    (c.trainLink h t).LinkShows h 3 rate width flit := by
  have hgo : c.trainLink h t = ((c.trainLanes h t).enterL0 h t rate width flit).cdatFollow c := by
    unfold trainLink
    dsimp only
    rw [← hr, ← hw, hf]
    dsimp only
    rw [decide_eq_false (Nat.not_lt.mpr hmw), decide_eq_false (Nat.not_lt.mpr hmr)]
    rfl
  have hr8 : rate < 2 ^ 3 := by
    have := t.rate.isLt
    omega
  have hw8 : width < 2 ^ 3 := by
    have := t.width.isLt
    omega
  rw [hgo]
  exact (enterL0_spec t hr8 hw8 hlt).of_word (linkWord_cdatFollow _ _ _)

/-! ## Leaving L0 -/

theorem ltssm_of_word {d : Chip} {h : Fin 24} (hw : d.linkWord h = c.linkWord h) : d.ltssm h = c.ltssm h := ((linkShows_self c h).of_word hw).ltssm

theorem ltssm_setLtssm (h : Fin 24) (v : Nat) (hv : v < 2 ^ 4) : (c.setLtssm h v).ltssm h = v := ((linkShows_self c h).setLtssm v hv).ltssm

theorem ltssm_freeLanes (h : Fin 24) : (c.freeLanes h).ltssm h = c.ltssm h :=
  ltssm_of_word (linkWord_put _ (F.HP_LANE_ACTIVE (portOf h).val) _ _ (by have := (portOf h).isLt; show 0x200 + 4 * (portOf h).val < 0x241; omega)
    (by show 0x804 < 4096; decide))

theorem linkWord_peak (k : Ctr) (n : Nat) (h : Fin 24) : (c.peak k n).linkWord h = c.linkWord h := rfl

theorem leaveL0_spec {h : Fin 24} {dest : Nat} (hl : c.ltssm h = 3) (h3 : dest ≠ 3) (h5 : dest ≠ 5) (hd : dest < 9) (ns : Nat) :
    (c.leaveL0 h dest ns).ltssm h = dest := by
  unfold leaveL0
  rw [if_neg (by simp [hl, h3])]
  split
  · next h4 =>
    subst h4
    refine (ltssm_of_word (linkWord_peak _ _ h)).trans ?_
    have hapart : ∀ d : Chip, (d.put (F.HLNK_LAST_RECOVERY_NS h.val) ns).ltssm h = d.ltssm h := fun d =>
      get_put_ne d (F.HLNK_LAST_RECOVERY_NS h.val) (F.HLNK_LINK_LTSSM h.val) ns (by simp only [regKey]; omega)
    rw [hapart]
    unfold enterRecovery
    refine (ltssm_of_word ((linkWord_cnt _ _ _ h).trans (linkWord_cnt _ _ _ h))).trans ?_
    exact ltssm_setLtssm h 4 (by decide)
  · rw [ltssm_freeLanes]
    exact ltssm_setLtssm h dest (by omega)

/-! ## The carbon -/

/-- The word of what a port's carbon shows of a link. -/
def carbonWord (c : Chip) (h : Fin 24) : Word := c.rd (0x201 + 4 * (portOf h).val) (0x800 + 0x10 * linkPos h)

theorem linkPos_lt (h : Fin 24) : linkPos h < 4 := Nat.mod_lt _ (by decide)

theorem trackState_of_word {d : Chip} {h : Fin 24} (hw : d.carbonWord h = c.carbonWord h) : d.trackState h = c.trackState h :=
  congrArg (fun v => bitsOf v 0 2) hw

theorem carbonWord_of_quiet {d : Chip} (hq : d.quiet = c.quiet) (h : Fin 24) : d.carbonWord h = c.carbonWord h := by
  have hp := (portOf h).isLt
  have hk := linkPos_lt h
  exact rd_of_quiet hq _ _ (by simp [quietReg]; omega)

/-- A field of another word of the page, or of another page. -/
theorem carbonWord_put (f : Fld) (v : Nat) (h : Fin 24) (ho : f.off < 4096) (hne : f.page ≠ 0x201 + 4 * (portOf h).val ∨ f.off ≠ 0x800 + 0x10 * linkPos h) :
    (c.put f v).carbonWord h = c.carbonWord h :=
  rd_put_ne _ _ _ _ _ fun hk => by
    have hl := linkPos_lt h
    obtain ⟨h1, h2⟩ := regKey_inj (by omega) ho hk
    exact hne.elim (fun h => h h1.symm) fun h => h h2.symm

theorem carbonWord_showFetches (h : Fin 24) : (c.showFetches h).carbonWord h = c.carbonWord h :=
  carbonWord_put (F.CARB_FETCH_PENDING (portOf h).val (linkPos h)) _ _ (by have := linkPos_lt h; show 0x808 + 0x10 * linkPos h < 4096; omega)
    (.inr (by show 0x808 + 0x10 * linkPos h ≠ 0x800 + 0x10 * linkPos h; omega))

theorem trackState_setTrack (h : Fin 24) (v : Nat) (hv : v < 4) : (c.setTrack h v).trackState h = v :=
  (get_put_same c (F.CARB_CARBON_STATE (portOf h).val (linkPos h)) v (by show 0 + 2 ≤ 32; decide)).trans (Nat.mod_eq_of_lt hv)

theorem trackState_above (f : Fld) (v : Nat) (h : Fin 24) (hp : f.page = 0x201 + 4 * (portOf h).val) (ho : f.off = 0x800 + 0x10 * linkPos h) (hl : 2 ≤ f.lo)
    (hn : f.lo + f.width ≤ 32) : (c.put f v).trackState h = c.trackState h :=
  get_put_apart c f (F.CARB_CARBON_STATE (portOf h).val (linkPos h)) v hn hp.symm ho.symm (.inl (by show 0 + 2 ≤ f.lo; omega))

theorem foldl_carbonWord (h : Fin 24) (g : Chip → Nat → Chip) (l : List Nat) (hg : ∀ d, ∀ i ∈ l, (g d i).carbonWord h = d.carbonWord h) :
    ∀ d : Chip, (l.foldl g d).carbonWord h = d.carbonWord h := by
  induction l with
  | nil => exact fun d => rfl
  | cons i l ih => exact fun d => (ih (fun d j hj => hg d j (List.mem_cons_of_mem _ hj)) _).trans (hg d i (List.mem_cons_self ..))

theorem trackState_setLocks (h : Fin 24) (on : Bool) : (c.setLocks h on).trackState h = c.trackState h := by
  have hp := (portOf h).isLt
  have h2 : ((c.put (F.CARB_CARBON_LOCK_HOST (portOf h).val (linkPos h)) (bit on)).put (F.CARB_CARBON_LOCK_TAP (portOf h).val (linkPos h)) (bit on)).trackState h =
      c.trackState h :=
    (trackState_above (F.CARB_CARBON_LOCK_TAP (portOf h).val (linkPos h)) _ h rfl rfl (by show 2 ≤ 17; decide) (by show 17 + 1 ≤ 32; decide)).trans
      (trackState_above (F.CARB_CARBON_LOCK_HOST (portOf h).val (linkPos h)) _ h rfl rfl (by show 2 ≤ 16; decide) (by show 16 + 1 ≤ 32; decide))
  unfold setLocks
  dsimp only
  refine (trackState_of_word ?_).trans h2
  generalize ((c.put (F.CARB_CARBON_LOCK_HOST (portOf h).val (linkPos h)) (bit on)).put (F.CARB_CARBON_LOCK_TAP (portOf h).val (linkPos h)) (bit on)) = d
  refine foldl_carbonWord h _ _ (fun d i hi => ?_) d
  have hi' := List.mem_range.mp hi
  split
  · exact carbonWord_put (F.LANE_TAP_LANE_LOCK (portOf h).val i) _ _ (by show 0x840 + 0x4 * i < 4096; omega)
      (.inl (by show 0x202 + 4 * (portOf h).val ≠ 0x201 + 4 * (portOf h).val; omega))
  · rfl

theorem trackState_mapHead (h i : Fin 24) (f : Head → Head) : (c.mapHead i f).trackState h = c.trackState h := rfl
theorem trackState_cnt (h : Fin 24) (k : Ctr) (n : Nat) : (c.cnt k n).trackState h = c.trackState h := rfl
theorem trackState_peak (h : Fin 24) (k : Ctr) (n : Nat) : (c.peak k n).trackState h = c.trackState h := rfl

theorem enterTracking_spec {h : Fin 24} {x : ContSlot} (hx : c.contSlot h = some x) (hf : c.frameSince h = true) (ns : Nat) :
    (c.enterTracking h ns).trackState h = 2 ∧ (c.enterTracking h ns).is (F.CARB_EV_TRACK_ACQUIRED (portOf h).val) = true := by
  unfold enterTracking
  dsimp only
  rw [hx]
  dsimp only
  rw [if_neg (by rw [hf]; decide)]
  constructor
  · rw [trackState_of_word (carbonWord_of_quiet (post_quiet _ _) h), trackState_of_word (carbonWord_of_quiet (post_quiet _ _) h),
      trackState_of_word (carbonWord_of_quiet (raise_quiet _ _) h), trackState_peak, trackState_cnt, trackState_of_word (carbonWord_showFetches h), trackState_mapHead,
      trackState_above (F.CARB_CARBON_SHADOW_LTSSM (portOf h).val (linkPos h)) _ h rfl rfl (by show 2 ≤ 4; decide) (by show 4 + 4 ≤ 32; decide),
      trackState_setLocks, trackState_setTrack _ _ (by decide)]
  · exact is_kept ((EventsKept.post _ _).trans (EventsKept.post _ _)) _ rfl rfl (raise_is _ _ rfl rfl (by show 1 < 32; decide))

theorem lose_spec (h : Fin 24) : (c.lose h).trackState h = 3 ∧ (c.lose h).is (F.CARB_EV_TRACK_LOST (portOf h).val) = true := by
  unfold lose
  dsimp only
  constructor
  · rw [trackState_of_word (carbonWord_of_quiet (send_quiet _ _) h), trackState_of_word (carbonWord_of_quiet (raise_quiet _ _) h), trackState_cnt,
      trackState_of_word (carbonWord_showFetches h), trackState_mapHead, trackState_setTrack _ _ (by decide)]
  · exact is_kept (EventsKept.send _ _) _ rfl rfl (raise_is _ _ rfl rfl (by show 0 < 32; decide))

theorem acquire_spec (h : Fin 24) : (c.acquire h).trackState h = 1 ∧ ((c.acquire h).head h).track.enteredRound = c.round := by
  unfold acquire
  rw [trackState_mapHead, head_mapHead_same]
  exact ⟨trackState_setTrack _ _ (by decide), rfl⟩

/-! ## Flits fetched -/

/-- An envelope of a class that goes once, sent at once. -/
theorem send_tx {b : EnvBody} (hs : c.linkSends = true) (hb : b.cls ≠ 0 ∧ b.cls ≠ 1 ∧ b.cls ≠ 2) (hr : c.link.replay.length < 512) :
    (c.send b).link.tx = c.link.tx ++ [c.nextEnvelope b] := by
  obtain ⟨h0, h1, h2⟩ := hb
  have hcopies : copiesOf (c.nextEnvelope b) = [c.nextEnvelope b] := if_neg (by rintro (h | h); exact h1 h; exact h2 h)
  have hwire : ∀ (d : Chip) (e : Envelope), (d.putOnWire [e]).link.tx = d.link.tx ++ copiesOf e := by
    intro d e
    unfold putOnWire
    have hfold : ∀ (l : List Envelope) (d : Chip), (l.foldl (fun c e => c.cnt (K.CXK_BYTES_CLASS e.body.cls) (8 * EnvBody.len e.body)) d).link = d.link := by
      intro l
      induction l with
      | nil => exact fun d => rfl
      | cons e l ih => exact fun d => ih _
    rw [hfold]
    simp
    rfl
  unfold send
  rw [if_neg (by rw [hs]; decide), if_neg (by omega)]
  unfold transmit
  dsimp only
  refine (show ((_ : Chip).put F.CXK_REPLAY_USE _).link.tx = (_ : Chip).link.tx from rfl).trans ((hwire _ _).trans ?_)
  rw [hcopies]

/-- A flit to be fetched is noted as missed. -/
def noteMissed (c : Chip) (h : Fin 24) (dir : Direction) (flit : Nat) : Chip :=
  match dir with
  | .hostToDevice => if (c.head h).track.missed.contains flit then c else
      c.mapHead h fun x => { x with track := { (c.head h).track with missed := (c.head h).track.missed ++ [flit] } }
  | .deviceToHost => if (c.head h).track.missedDown.contains flit then c else
      c.mapHead h fun x => { x with track := { (c.head h).track with missedDown := (c.head h).track.missedDown ++ [flit] } }

/-- The flits noted as missed in a direction. -/
def missedIn (k : Tracking) (dir : Direction) : List Nat := match dir with | .hostToDevice => k.missed | .deviceToHost => k.missedDown

theorem noteMissed_spec (h : Fin 24) (dir : Direction) (flit : Nat) :
    (missedIn ((c.noteMissed h dir flit).head h).track dir).contains flit = true ∧ (c.noteMissed h dir flit).regs = c.regs ∧
      (c.noteMissed h dir flit).rst = c.rst ∧ (c.noteMissed h dir flit).svc = c.svc ∧ (c.noteMissed h dir flit).link = c.link ∧
      (c.noteMissed h dir flit).clk = c.clk := by
  unfold noteMissed missedIn
  cases dir <;> dsimp only <;> split
  · next hm => exact ⟨hm, rfl, rfl, rfl, rfl, rfl⟩
  · rw [head_mapHead_same]
    exact ⟨by simp, rfl, rfl, rfl, rfl, rfl⟩
  · next hm => exact ⟨hm, rfl, rfl, rfl, rfl, rfl⟩
  · rw [head_mapHead_same]
    exact ⟨by simp, rfl, rfl, rfl, rfl, rfl⟩

/-- What decides whether, and how, an envelope is sent. -/
theorem sends_congr {d : Chip} (hr : d.rst = c.rst) (hv : d.svc = c.svc) (hl : d.link = c.link) (hk : d.clk = c.clk)
    (hm : d.get F.ROLE_PAIR_STATE_MODE = c.get F.ROLE_PAIR_STATE_MODE) (he : d.get F.CXK_KEY_EPOCH = c.get F.CXK_KEY_EPOCH) :
    d.linkSends = c.linkSends ∧ ∀ b, d.nextEnvelope b = c.nextEnvelope b := by
  unfold linkSends up mode nextEnvelope round
  rw [hr, hv, hl, hk, hm, he]
  exact ⟨rfl, fun b => rfl⟩

/-- A flit fetched is noted as missed, and its ask is sent. -/
theorem fetch_spec (h : Fin 24) (dir : Direction) (flit : Nat) (hs : c.linkSends = true) (hr : c.link.replay.length < 512) :
    (missedIn (((((c.noteMissed h dir flit).cnt (K.CARB_FETCHES (portOf h).val (linkPos h))).showFetches h).send (.fetchAsk h dir flit)).head h).track dir).contains flit = true ∧
      ((((c.noteMissed h dir flit).cnt (K.CARB_FETCHES (portOf h).val (linkPos h))).showFetches h).send (.fetchAsk h dir flit)).link.tx =
        c.link.tx ++ [c.nextEnvelope (.fetchAsk h dir flit)] := by
  obtain ⟨h1, h2, h3, h4, h5, h6⟩ := c.noteMissed_spec h dir flit
  generalize c.noteMissed h dir flit = d at h1 h2 h3 h4 h5 h6 ⊢
  have hw : ∀ f : Fld, f.page < 0x100 → f.off < 4096 →
      ((d.cnt (K.CARB_FETCHES (portOf h).val (linkPos h))).showFetches h).get f = c.get f := fun f hp ho => by
    have hput : ((d.cnt (K.CARB_FETCHES (portOf h).val (linkPos h))).showFetches h).get f = d.get f :=
      get_put_ne _ (F.CARB_FETCH_PENDING (portOf h).val (linkPos h)) f _ fun hk => by
        have hl := linkPos_lt h
        obtain ⟨hpp, -⟩ := regKey_inj ho (by show 0x808 + 0x10 * linkPos h < 4096; omega) hk
        have : f.page = 0x201 + 4 * (portOf h).val := hpp
        omega
    rw [hput]
    unfold get rd
    rw [h2]
  obtain ⟨k1, k2⟩ := sends_congr (c := c) (d := (d.cnt (K.CARB_FETCHES (portOf h).val (linkPos h))).showFetches h) h3 h4 h5 h6
    (hw _ (by decide) (by decide)) (hw _ (by decide) (by decide))
  have hlink : ((d.cnt (K.CARB_FETCHES (portOf h).val (linkPos h))).showFetches h).link = c.link := h5
  have hhead : ((d.cnt (K.CARB_FETCHES (portOf h).val (linkPos h))).showFetches h).head h = d.head h := rfl
  generalize (d.cnt (K.CARB_FETCHES (portOf h).val (linkPos h))).showFetches h = e at k1 k2 hlink hhead ⊢
  constructor
  · have ht : ((e.send (.fetchAsk h dir flit)).head h).track = (e.head h).track := (congrArg Head.track (head_of_quiet (send_quiet e (.fetchAsk h dir flit)) h) :)
    rw [ht, hhead]
    exact h1
  · rw [send_tx (b := .fetchAsk h dir flit) (k1.trans hs) (show 3 ≠ 0 ∧ 3 ≠ 1 ∧ 3 ≠ 2 by decide) (by rw [hlink]; exact hr), hlink, k2]

end Chip

/-- Settles O17: training, leaving L0 and the carbon's steps are read off the words that show them. -/
theorem hostLinksComplete : Obligations.HostLinksComplete := by
  refine ⟨?_, ?_, ?_, ?_, ?_, ?_, ?_, ?_⟩
  · intro w h x rate width flit s hw ht hm hr hwd hf hlt hmw hmr
    obtain ⟨h1, h2, h3, h4⟩ := Chip.trainLink_spec hr hwd hf hlt hmw hmr
    have hgo : exec (.linkTrained h x) s = .next (s.onPort (portOf h) fun c => c.trainLink h x) := by
      show execLinkTrained h x s = _
      unfold execLinkTrained
      rw [hw]
      dsimp only
      rw [ht, hm]
      rfl
    refine ⟨_, hgo, ?_⟩
    rw [State.chip_onPort hw]
    exact ⟨h1, h2, h3, h4⟩
  · intro w h s hup
    refine ⟨_, rfl, ?_⟩
    rw [State.chip_mapBoth, if_pos hup, Chip.head_mapHead_same]
    exact ⟨rfl, fun i hi => Chip.head_mapHead_ne _ _ _ _ hi⟩
  · intro w h dest ns s hw hl h3 h5
    have hgo : exec (.linkLeftL0 h dest ns) s = .next (s.onPort (portOf h) fun c => c.leaveL0 h dest.val ns) := by
      show execLinkLeftL0 h dest ns s = _
      unfold execLinkLeftL0
      rw [hw]
      dsimp only
      rw [if_neg (by simp [h5])]
    refine ⟨_, hgo, ?_⟩
    rw [State.chip_onPort hw]
    exact Chip.leaveL0_spec hl h3 h5 dest.isLt ns
  · intro w h ns x s hup hc ht hx hf
    refine ⟨_, rfl, ?_⟩
    simp only [State.chip_onUp hup, State.chip_onUp_other, hc, ht, beq_self_eq_true, Bool.and_self, if_true, and_true]
    exact Chip.enterTracking_spec hx hf ns
  · intro w h s hup ht hr
    refine ⟨_, rfl, ?_⟩
    simp only [State.chip_onUp hup, State.chip_onUp_other, ht, beq_self_eq_true, Bool.true_and, and_true]
    rw [if_pos (decide_eq_true hr)]
    exact (Chip.lose_spec h).1
  · intro w h s hc ht hr
    have hup : (s.chip w).up = true := by
      unfold Chip.isCarbon at hc
      exact (Bool.and_eq_true _ _ ▸ hc).1
    refine ⟨_, rfl, ?_⟩
    simp only [State.chip_onUp hup, State.chip_onUp_other, ht, hc, beq_self_eq_true, Bool.true_and, and_true]
    rw [if_pos (decide_eq_true hr)]
    exact Chip.acquire_spec h
  · intro w h s hup ht
    refine ⟨_, rfl, ?_⟩
    simp only [State.chip_onUp hup, State.chip_onUp_other, ht, beq_self_eq_true, if_true, and_true]
    exact Chip.lose_spec h
  · intro w h dir flit s hup ht hs hr
    obtain ⟨h1, h2⟩ := (s.chip w).fetch_spec h dir flit hs hr
    refine ⟨_, rfl, ?_⟩
    simp only [State.chip_onUp hup, State.chip_onUp_other, ht, ne_eq, not_true, if_false, and_true]
    cases dir
    · exact ⟨h1, h2⟩
    · exact ⟨h1, h2⟩

end Sys2Proof.Machine
end

section
/-! PROOF. The Metadata Cache's invalidation, operations and disabled ways (R297 to R302, R474). -/
namespace Sys2Proof.Machine

namespace Chip

variable (c : Chip)

/-! ## Requests of a page -/

theorem ifWrites_pos {rq : Requester} {page : Nat} (h : c.mayWrite rq page = true) (f : Chip → Chip) : c.ifWrites rq page f = f c := if_pos h

theorem ifRunning_pos {page : Nat} (h : c.running page = true) (off : Nat) (f : Chip → Chip) : c.ifRunning page off f = f c := if_pos h

/-! ## Ways that are being disabled -/

/-- The ways that are being disabled. -/
def waysLeaving : List Nat := c.mdc.disabling

theorem waysLeaving_setMdcWay (s w : Nat) (x : MdcLine) : (c.setMdcWay s w x).waysLeaving = c.waysLeaving := rfl

theorem waysLeaving_foldl {α : Type} (g : Chip → α → Chip) (hg : ∀ d x, (g d x).waysLeaving = d.waysLeaving) (l : List α) :
    ∀ d : Chip, (l.foldl g d).waysLeaving = d.waysLeaving := by
  induction l with
  | nil => exact fun d => rfl
  | cons x l ih => exact fun d => (ih _).trans (hg d x)

theorem waysLeaving_mdcRefer (s w : Nat) : (c.mdcRefer s w).waysLeaving = c.waysLeaving := by
  unfold mdcRefer
  dsimp only
  split
  · refine waysLeaving_foldl _ (fun d v => ?_) _ _
    split <;> rfl
  · rfl

theorem waysLeaving_oweLines (k : Client) (d n : Nat) : (c.oweLines k d n).waysLeaving = c.waysLeaving := rfl

theorem waysLeaving_mdcToDram (line : Nat) : (c.mdcToDram line).waysLeaving = c.waysLeaving := by
  unfold mdcToDram oweBlock
  dsimp only
  refine (waysLeaving_foldl _ (fun d y => waysLeaving_oweLines d _ _ _) _ _).trans ?_
  split <;> rfl

theorem waysLeaving_evbDrain (n : Nat) : ∀ c : Chip, (c.evbDrain n).waysLeaving = c.waysLeaving := by
  induction n with
  | zero => exact fun c => rfl
  | succ n ih =>
    intro c
    unfold evbDrain
    split
    · rfl
    · exact (ih _).trans (waysLeaving_mdcToDram _ _)

theorem waysLeaving_raise (f : Fld) : (c.raise f).waysLeaving = c.waysLeaving := (congrArg Chip.waysLeaving (raise_rest c f) :)

theorem waysLeaving_evbPush (line : Nat) : (c.evbPush line).waysLeaving = c.waysLeaving := by
  unfold evbPush
  dsimp only
  split
  · exact (waysLeaving_evbDrain 1 _).trans (waysLeaving_raise _ _)
  · rfl

theorem waysLeaving_mdcInstall (line : Nat) (dirty : Bool) : (c.mdcInstall line dirty).waysLeaving = c.waysLeaving := by
  unfold mdcInstall
  dsimp only
  split
  · split
    · exact waysLeaving_mdcToDram _ _
    · rfl
  · split
    · exact (waysLeaving_mdcRefer _ _ _).trans ((waysLeaving_setMdcWay _ _ _ _).trans (waysLeaving_evbPush _ _))
    · exact (waysLeaving_mdcRefer _ _ _).trans (waysLeaving_setMdcWay _ _ _ _)

theorem waysLeaving_dloFlush : c.dloFlush.waysLeaving = c.waysLeaving := by
  unfold dloFlush
  split
  · rfl
  · dsimp only
    split <;> split
    · rfl
    · rfl
    · exact (waysLeaving_raise _ _).trans rfl
    · exact (waysLeaving_raise _ _).trans rfl

theorem waysLeaving_dloMany : c.dloMany.waysLeaving = c.waysLeaving := by
  unfold dloMany
  split
  · exact waysLeaving_dloFlush c
  · rfl

theorem waysLeaving_dlo (source level kind copy address location : Nat) (syndrome : Option (BitVec 128)) :
    (c.dlo source level kind copy address location syndrome).waysLeaving = c.waysLeaving := by
  have henter : ∀ d : Chip, (d.dloEnter source level kind copy address location syndrome).waysLeaving = d.waysLeaving := fun d => by
    unfold dloEnter
    split
    · rfl
    · dsimp only
      split
      · exact waysLeaving_raise _ _
      · rfl
  unfold dlo
  rw [waysLeaving_dloMany, henter, waysLeaving_dloMany]

theorem waysLeaving_drew (kind location : Nat) (last : Bool) : (c.drew kind location last).waysLeaving = c.waysLeaving := by
  have hone : ∀ d : Chip, (((d.dlo 0x12 4 6 0 0 location).cnt K.CBL_DRAWS).raise F.CBL_EV_SPARE_DRAWN).waysLeaving = d.waysLeaving := fun d =>
    (waysLeaving_raise _ _).trans (waysLeaving_dlo d _ _ _ _ _ _ _)
  unfold drew
  dsimp only
  split
  · exact (waysLeaving_raise _ _).trans (hone _)
  · exact hone _

/-- `d` is as `c` of ways that leave, retired ways and the word of disabled ways; its events stand. -/
structure WayKept (c d : Chip) : Prop where
  leaving : d.waysLeaving = c.waysLeaving
  retired : d.cbl.retiredWays = c.cbl.retiredWays
  off : d.rd 0x0C0 0x804 = c.rd 0x0C0 0x804
  events : EventsKept c d

namespace WayKept

theorem refl (c : Chip) : WayKept c c := ⟨rfl, rfl, rfl, .refl c⟩

theorem trans {c d e : Chip} (h : WayKept c d) (k : WayKept d e) : WayKept c e :=
  ⟨k.leaving.trans h.leaving, k.retired.trans h.retired, k.off.trans h.off, h.events.trans k.events⟩

theorem of_upkept {c d : Chip} (h : Upkept c d) (hl : d.waysLeaving = c.waysLeaving) : WayKept c d :=
  ⟨hl, congrArg Cbl.retiredWays h.cbl, h.words _ _ (by decide) (by decide), h.events⟩

theorem foldl {α : Type} (g : Chip → α → Chip) (hg : ∀ d x, WayKept d (g d x)) (l : List α) : ∀ d, WayKept d (l.foldl g d) := by
  induction l with
  | nil => exact refl
  | cons x l ih => exact fun d => (hg d x).trans (ih _)

theorem put (c : Chip) (f : Fld) (v : Nat) (hk : regKey 0x0C0 0x804 ≠ regKey f.page f.off) (ho : f.off < 4096) (h : f.off ≠ 0x010) : WayKept c (c.put f v) :=
  ⟨rfl, rfl, rd_put_ne c f v _ _ hk, .put c f v ho h⟩

theorem cnt (c : Chip) (k : Ctr) (n : Nat) : WayKept c (c.cnt k n) := ⟨rfl, rfl, rfl, .cnt c k n⟩

theorem raise (c : Chip) (f : Fld) : WayKept c (c.raise f) := of_upkept (.raise c f) (waysLeaving_raise c f)

theorem setMdcWay (c : Chip) (s w : Nat) (x : MdcLine) : WayKept c (c.setMdcWay s w x) := of_upkept (.setMdcWay c s w x) rfl

theorem mdcInstall (c : Chip) (line : Nat) (dirty : Bool) : WayKept c (c.mdcInstall line dirty) :=
  of_upkept (.mdcInstall c line dirty) (waysLeaving_mdcInstall c line dirty)

theorem drew (c : Chip) (kind location : Nat) (last : Bool) : WayKept c (c.drew kind location last) := by
  have hu := drew_upkept c kind location last
  exact ⟨waysLeaving_drew c kind location last, (congrArg Cbl.retiredWays hu.cbl :), hu.words _ _ (by decide) (by decide), hu.events⟩

theorem dropLocked (c : Chip) (line : Nat) : WayKept c (c.dropLocked line) := by
  unfold Chip.dropLocked
  exact (put c F.MDC_LAST_DROPPED_LO _ (by decide) (by decide) (by decide)).trans ((put _ F.MDC_LAST_DROPPED_HI _ (by decide) (by decide) (by decide)).trans
    ((cnt _ _ _).trans (raise _ _)))

theorem mdcLockLine {c d : Chip} {line : Nat} (h : c.mdcLockLine line = some d) : WayKept c d := by
  have hmdc : ∀ (e : Chip) (l : List Nat), WayKept e { e with mdc := { e.mdc with evb := l } } := fun e l => ⟨rfl, rfl, rfl, .of_regs rfl⟩
  have hfetched : ∀ (b : Bool), WayKept c (if b then { c with mdc := { c.mdc with evb := dropN c.mdc.evb line } }.cnt K.MDC_EVB_HITS else c.cnt K.MDC_MISSES) := by
    intro b
    cases b
    · exact cnt c _ _
    · exact (hmdc c _).trans (cnt _ _ _)
  unfold Chip.mdcLockLine at h
  dsimp only at h
  split at h
  · split at h
    · cases h
      exact refl c
    · split at h
      · cases h
      · cases h
        exact (setMdcWay c _ _ _).trans (cnt _ _ _)
  · split at h
    · cases h
      exact (hfetched _).trans ((setMdcWay _ _ _ _).trans (cnt _ _ _))
    · split at h
      · cases h
      · split at h
        · cases h
          exact (hfetched _).trans ((mdcInstall _ _ _).trans ((setMdcWay _ _ _ _).trans (cnt _ _ _)))
        · cases h

theorem refillLocked (c : Chip) (line : Nat) : WayKept c (c.refillLocked line) := by
  unfold Chip.refillLocked
  split
  · next h => exact mdcLockLine h
  · exact dropLocked c line

end WayKept

variable {c}

/-! ## Operations -/

theorem mdcGo_spec {kind : Nat} (hk : c.get F.MNT_OP_KIND = kind) (hs : c.get F.MNT_OP_STATUS_STATE ≠ 1) :
    (c.mdcGo kind).get F.MNT_OP_STATUS_STATE = 1 ∧ (c.mdcGo kind).get F.MNT_OP_STATUS_ERR = 0 ∧ (c.mdcGo kind).get F.MNT_OP_PROGRESS = 0 ∧
      (c.mdcGo kind).mdc = { c.mdc with op := some (kind, c.get F.MNT_OP_ADDR_LO + 2 ^ 24 * c.get F.MNT_OP_ADDR_HI, c.get F.MNT_OP_COUNT) } ∧
      (c.mdcGo kind).trm = c.trm := by
  have hput : ∀ d : Chip, (((d.put F.MNT_OP_STATUS_STATE 1).put F.MNT_OP_STATUS_ERR 0).put F.MNT_OP_PROGRESS 0).get F.MNT_OP_STATUS_STATE = 1 ∧
      (((d.put F.MNT_OP_STATUS_STATE 1).put F.MNT_OP_STATUS_ERR 0).put F.MNT_OP_PROGRESS 0).get F.MNT_OP_STATUS_ERR = 0 ∧
      (((d.put F.MNT_OP_STATUS_STATE 1).put F.MNT_OP_STATUS_ERR 0).put F.MNT_OP_PROGRESS 0).get F.MNT_OP_PROGRESS = 0 := fun d => by
    rw [get_put_ne _ F.MNT_OP_PROGRESS F.MNT_OP_STATUS_STATE 0 (by decide), get_put_ne _ F.MNT_OP_PROGRESS F.MNT_OP_STATUS_ERR 0 (by decide),
      get_put_apart _ F.MNT_OP_STATUS_ERR F.MNT_OP_STATUS_STATE 0 (by decide) rfl rfl (by decide), get_put_same _ F.MNT_OP_STATUS_STATE 1 (by decide),
      get_put_same _ F.MNT_OP_STATUS_ERR 0 (by decide), get_put_same _ F.MNT_OP_PROGRESS 0 (by decide)]
    exact ⟨by decide, Nat.zero_mod _, Nat.zero_mod _⟩
  unfold mdcGo
  rw [if_neg (not_not_intro hk), if_neg hs]
  dsimp only
  obtain ⟨h1, h2, h3⟩ := hput { c with mdc := { c.mdc with op := some (kind, c.get F.MNT_OP_ADDR_LO + 2 ^ 24 * c.get F.MNT_OP_ADDR_HI, c.get F.MNT_OP_COUNT) } }
  exact ⟨h1, h2, h3, rfl, rfl⟩

theorem mdcEnd_spec (n : Nat) : (c.mdcEnd 0 n).get F.MNT_OP_STATUS_STATE = 2 ∧ (c.mdcEnd 0 n).get F.MNT_OP_PROGRESS = n % 2 ^ 28 ∧
    (c.mdcEnd 0 n).mdc.op = none ∧ (c.mdcEnd 0 n).is F.MNT_EV_OP_DONE = true := by
  have hput : ∀ d : Chip, (((d.put F.MNT_OP_STATUS_STATE 2).put F.MNT_OP_STATUS_ERR 0).put F.MNT_OP_PROGRESS n).get F.MNT_OP_STATUS_STATE = 2 ∧
      (((d.put F.MNT_OP_STATUS_STATE 2).put F.MNT_OP_STATUS_ERR 0).put F.MNT_OP_PROGRESS n).get F.MNT_OP_PROGRESS = n % 2 ^ 28 := fun d => by
    rw [get_put_ne _ F.MNT_OP_PROGRESS F.MNT_OP_STATUS_STATE n (by decide),
      get_put_apart _ F.MNT_OP_STATUS_ERR F.MNT_OP_STATUS_STATE 0 (by decide) rfl rfl (by decide), get_put_same _ F.MNT_OP_STATUS_STATE 2 (by decide),
      get_put_same _ F.MNT_OP_PROGRESS n (by decide)]
    exact ⟨by decide, rfl⟩
  unfold mdcEnd
  simp only [if_true]
  obtain ⟨h1, h2⟩ := hput { c with mdc := { c.mdc with op := none } }
  refine ⟨?_, ?_, ?_, raise_is _ _ rfl rfl (by decide)⟩
  · rw [get_raise _ _ _ (by decide), get_cnt]
    exact h1
  · rw [get_raise _ _ _ (by decide), get_cnt]
    exact h2
  · exact (congrArg (fun d : Chip => d.mdc.op) (raise_rest _ F.MNT_EV_OP_DONE) :)

theorem mdcRun_unlock {line n : Nat} (hm : c.is F.MNT_OP_MODE = false) (hl : line + n ≤ 2 ^ 28) : c.mdcRun 4 line n = (c.mdcUnlockRange line n).mdcEnd 0 n := by
  unfold mdcRun
  rw [hm, if_neg Bool.false_ne_true, if_neg (Nat.not_lt.mpr hl), if_neg (by decide), if_pos rfl]

/-! ## Ways out of use -/

theorem contains_dropN (l : List Nat) (v : Nat) : (dropN l v).contains v = false := by
  simp [dropN]

theorem contains_insertN (l : List Nat) (v : Nat) : (insertN l v).contains v = true := by
  unfold insertN
  split
  · assumption
  · simp

/-- The chip with the lines of a way given up and the way shown as disabled. -/
def withoutWay (c : Chip) (v : Nat) : Chip :=
  { c with
    mdc := { c.mdc with lines := c.mdc.lines.clear (fun k => k % 32 == v), disabling := dropN c.mdc.disabling v }
    cbl := { c.cbl with retiredWays := insertN c.cbl.retiredWays v } }

theorem waysOff_testBit (d : Chip) (x v : Nat) (hv : v < 18) : ((d.put F.MDC_WAYS_DISABLED (x ||| 2 ^ v)).get F.MDC_WAYS_DISABLED).testBit v = true := by
  rw [get_put_same _ F.MDC_WAYS_DISABLED _ (by decide), Nat.testBit_mod_two_pow, Nat.testBit_or, Nat.testBit_two_pow_self]
  simp [hv]

/-- A way shown as disabled, whatever is done for its lines afterwards. -/
theorem wayOff_spec {d e : Chip} {v : Nat} (hv : v < 18) (x : Nat)
    (hk : WayKept ((((d.withoutWay v).put F.MDC_WAYS_DISABLED (x ||| 2 ^ v)).cnt K.MDC_WAY_DISABLES).raise F.MDC_EV_WAY_DISABLED) e) :
    e.mdc.disabling.contains v = false ∧ (e.get F.MDC_WAYS_DISABLED).testBit v = true ∧ e.cbl.retiredWays.contains v = true ∧
      e.is F.MDC_EV_WAY_DISABLED = true := by
  have hr := raise_rest (((d.withoutWay v).put F.MDC_WAYS_DISABLED (x ||| 2 ^ v)).cnt K.MDC_WAY_DISABLES) F.MDC_EV_WAY_DISABLED
  have hleave : e.waysLeaving = dropN d.mdc.disabling v := hk.leaving.trans ((waysLeaving_raise _ _).trans rfl)
  have hret : e.cbl.retiredWays = insertN d.cbl.retiredWays v := hk.retired.trans (congrArg (fun d : Chip => d.cbl.retiredWays) hr :)
  have hoff : e.get F.MDC_WAYS_DISABLED = ((d.withoutWay v).put F.MDC_WAYS_DISABLED (x ||| 2 ^ v)).get F.MDC_WAYS_DISABLED := by
    have hw : e.get F.MDC_WAYS_DISABLED = ((((d.withoutWay v).put F.MDC_WAYS_DISABLED (x ||| 2 ^ v)).cnt K.MDC_WAY_DISABLES).raise
        F.MDC_EV_WAY_DISABLED).get F.MDC_WAYS_DISABLED := congrArg (fun w => bitsOf w 0 18) hk.off
    rw [hw, get_raise _ _ _ (by decide), get_cnt]
  refine ⟨?_, ?_, ?_, is_kept hk.events _ rfl rfl (raise_is _ _ rfl rfl (by decide))⟩
  · exact (congrArg (fun l => List.contains l v) hleave).trans (contains_dropN _ _)
  · rw [hoff]
    exact waysOff_testBit _ _ _ hv
  · rw [hret]
    exact contains_insertN _ _

/-- The lines of a way, with their sets. -/
def wayLines (c : Chip) (v : Nat) : List (Nat × MdcLine) := (c.mdc.lines.filter fun x => x.1 % 32 == v).map fun x => (x.1 / 32, x.2)

/-- The chip once the dirty lines of a way are written back. -/
def writeBackWay (c : Chip) (v : Nat) : Chip :=
  (c.wayLines v).foldl (fun c x => if x.2.held && x.2.dirty then (c.mdcToDram (c.mdcLineAt x.1 x.2.tag)) else c) c

/-- A way is left: it is shown as disabled, and its locked lines go to a spare or are locked again. -/
def leaveWay (c : Chip) (v : Nat) (mine : List (Nat × MdcLine)) : Chip :=
  let c := c.withoutWay v
  let on := c.get F.MDC_WAYS_ENABLED
  let off := c.get F.MDC_WAYS_DISABLED ||| 2 ^ v
  let c := c.put F.MDC_WAYS_DISABLED off
  let spares := (List.range 18).filter fun k => !on.testBit k && !off.testBit k && !c.cbl.failedSpares.testBit (k - 16)
  let c := (c.cnt K.MDC_WAY_DISABLES).raise F.MDC_EV_WAY_DISABLED
  let on := if on.testBit v then on - 2 ^ v else on
  match spares with
  | k :: rest =>
    let c := ((c.put F.MDC_WAYS_ENABLED (on ||| 2 ^ k)).put F.CBO_MDC_WAYS_LEFT rest.length).drew 8 (sramLocation 3 v 0) rest.isEmpty
    mine.foldl (fun c x => if x.2.held && x.2.locked then c.setMdcWay x.1 k { x.2 with dirty := false } else c) c
  | [] =>
    let c := (c.put F.MDC_WAYS_ENABLED on).raise F.MDC_EV_NO_SPARE_WAY
    mine.foldl (fun c x => if x.2.held && x.2.locked then c.refillLocked (c.mdcLineAt x.1 x.2.tag) else c) c

theorem leaveWay_spec (d : Chip) {v : Nat} (hv : v < 18) (mine : List (Nat × MdcLine)) :
    (d.leaveWay v mine).mdc.disabling.contains v = false ∧ ((d.leaveWay v mine).get F.MDC_WAYS_DISABLED).testBit v = true ∧
      (d.leaveWay v mine).cbl.retiredWays.contains v = true ∧ (d.leaveWay v mine).is F.MDC_EV_WAY_DISABLED = true := by
  refine wayOff_spec (d := d) hv ((d.withoutWay v).get F.MDC_WAYS_DISABLED) ?_
  unfold leaveWay
  dsimp only
  split
  · refine WayKept.trans ?_ (.foldl _ (fun d x => ?_) _ _)
    · exact (WayKept.put _ F.MDC_WAYS_ENABLED _ (by decide) (by decide) (by decide)).trans
        ((WayKept.put _ F.CBO_MDC_WAYS_LEFT _ (by decide) (by decide) (by decide)).trans (.drew _ _ _ _))
    · split
      · exact .setMdcWay _ _ _ _
      · exact .refl d
  · refine WayKept.trans ?_ (.foldl _ (fun d x => ?_) _ _)
    · exact (WayKept.put _ F.MDC_WAYS_ENABLED _ (by decide) (by decide) (by decide)).trans (.raise _ _)
    · split
      · exact .refillLocked _ _
      · exact .refl d

end Chip

/-- Settles O45: the cache's state machine step by step; what a disabled way's lines need does not bring the way back. -/
theorem metadataCacheComplete : Obligations.MetadataCacheComplete := by
  refine ⟨?_, ?_, ?_, ?_⟩
  · intro w s hup hi
    refine ⟨_, rfl, ?_⟩
    simp only [State.chip_onUp hup, State.chip_onUp_other, hi, Bool.false_eq_true, if_false, and_true, true_and]
  · intro w rq s hup hm hr hs x hx hk
    have hgo : ∃ t, exec x.1 s = .next t ∧ t.chip w = (s.chip w).mdcGo x.2 ∧ t.chip w.other = s.chip w.other := by
      simp only [List.mem_cons, List.not_mem_nil, or_false] at hx
      obtain rfl | rfl | rfl | rfl | rfl := hx <;> refine ⟨_, rfl, ?_⟩ <;>
        simp only [State.chip_onUp hup, State.chip_onUp_other, Chip.ifWrites_pos _ hm, Chip.ifRunning_pos _ hr, and_self]
    obtain ⟨t, ht, hown, hoth⟩ := hgo
    obtain ⟨h1, h2, h3, h4, h5⟩ := Chip.mdcGo_spec hk hs
    refine ⟨t, ht, ?_⟩
    rw [hown]
    exact ⟨h1, h2, h3, h4, h5, hoth⟩
  · intro w line n s hup hop hm hl hn
    refine ⟨_, rfl, ?_⟩
    simp only [State.chip_onUp hup, State.chip_onUp_other, hop, and_true]
    rw [if_neg (by rintro h; simp at h), Chip.mdcRun_unlock hm hl]
    obtain ⟨h1, h2, h3, h4⟩ := Chip.mdcEnd_spec (c := (s.chip w).mdcUnlockRange line n) n
    exact ⟨h1, h2.trans (by omega), h3, h4⟩
  · intro w v s hup hv
    have hgo : exec (.wayDisableDone w v) s = .next (s.onUp w fun c =>
        if !c.mdc.disabling.contains v.val then c else (c.writeBackWay v.val).leaveWay v.val (c.wayLines v.val)) := rfl
    refine ⟨_, hgo, ?_⟩
    rw [State.chip_onUp hup, State.chip_onUp_other, hv, if_neg (by decide)]
    obtain ⟨h1, h2, h3, h4⟩ := Chip.leaveWay_spec ((s.chip w).writeBackWay v.val) v.isLt ((s.chip w).wayLines v.val)
    exact ⟨h1, h2, h3, h4, rfl⟩

end Sys2Proof.Machine
end

section
/-! PROOF. Modules of the back tier (R364 to R370): out of service and back. -/
namespace Sys2Proof.Machine

namespace Chip

variable (c : Chip)

/-! ## The log and its draws -/

/-- A chip without what the shared operations, the log and the draws of spares change. -/
def unlogged : Chip := { c.rest with ras := {}, cbl := { c.cbl with today := [] } }

theorem unlogged_of_rest {c d : Chip} (h : d.rest = c.rest) : d.unlogged = c.unlogged :=
  (congrArg (fun e : Chip => { e with ras := {}, cbl := { e.cbl with today := [] } }) h :)

theorem unlogged_dloFlush : c.dloFlush.unlogged = c.unlogged := by
  unfold dloFlush
  split
  · rfl
  · dsimp only
    split <;> split
    · rfl
    · rfl
    · exact (unlogged_of_rest (raise_rest _ _)).trans rfl
    · exact (unlogged_of_rest (raise_rest _ _)).trans rfl

theorem unlogged_dloMany : c.dloMany.unlogged = c.unlogged := by
  unfold dloMany
  split
  · exact unlogged_dloFlush c
  · rfl

theorem unlogged_dlo (source level kind copy address location : Nat) (syndrome : Option (BitVec 128)) :
    (c.dlo source level kind copy address location syndrome).unlogged = c.unlogged := by
  have henter : ∀ d : Chip, (d.dloEnter source level kind copy address location syndrome).unlogged = d.unlogged := fun d => by
    unfold dloEnter
    split
    · rfl
    · dsimp only
      split
      · exact (unlogged_of_rest (raise_rest _ _)).trans rfl
      · rfl
  unfold dlo
  rw [unlogged_dloMany, henter, unlogged_dloMany]

theorem unlogged_drew (kind location : Nat) (last : Bool) : (c.drew kind location last).unlogged = c.unlogged := by
  have hone : ∀ d : Chip, (((d.dlo 0x12 4 6 0 0 location).cnt K.CBL_DRAWS).raise F.CBL_EV_SPARE_DRAWN).unlogged = d.unlogged := fun d =>
    (unlogged_of_rest (raise_rest _ _)).trans ((unlogged_of_rest (cnt_rest _ _ _)).trans (unlogged_dlo d _ _ _ _ _ _ _))
  unfold drew
  dsimp only
  split
  · exact (unlogged_of_rest (raise_rest _ _)).trans ((hone _).trans rfl)
  · exact (hone _).trans rfl

/-! ## A module's word -/

theorem quiet_moduleWord (m : Nat) (hm : m < 8) : quietReg 0x386 (0x800 + 0x4 * m) = true := by
  simp [quietReg]
  omega

theorem modState_raise (f : Fld) {m : Nat} (hm : m < 8) : (c.raise f).modState m = c.modState m := get_raise c f _ (quiet_moduleWord m hm)

theorem modState_setModule (m st : Nat) (hm : m < 8) (hst : st < 8) : (c.setModule m st).modState m = st := by
  unfold setModule
  rw [modState_raise _ _ hm]
  exact (get_put_same c (F.MOD_MODULE_STATE m) st (by show 0 + 3 ≤ 32; decide)).trans (Nat.mod_eq_of_lt hst)

theorem modState_setModule_ne (m n st : Nat) (hn : n < 8) (hne : n ≠ m) : (c.setModule m st).modState n = c.modState n := by
  unfold setModule
  rw [modState_raise _ _ hn]
  exact get_put_ne c (F.MOD_MODULE_STATE m) (F.MOD_MODULE_STATE n) st (by simp only [regKey]; omega)

theorem setModule_event (m st : Nat) : (c.setModule m st).is F.MOD_EV_MODULE_STATE = true := raise_is _ _ rfl rfl (by decide)

theorem setModule_rest (m st : Nat) : (c.setModule m st).rest = c.rest := (raise_rest _ _).trans (put_rest _ _ _)

/-! ## LUNs retired -/

/-- `d` keeps of `c` the tiers, the modules' words, the states of channels and the events. -/
structure ModulesKept (c d : Chip) : Prop where
  trm : d.trm = c.trm
  words : ∀ o, quietReg 0x386 o = true → d.rd 0x386 o = c.rd 0x386 o
  chans : ∀ k, k < 32 → d.rd (0x3A0 + k) 0x800 = c.rd (0x3A0 + k) 0x800
  events : EventsKept c d

namespace ModulesKept

theorem refl (c : Chip) : ModulesKept c c := ⟨rfl, fun _ _ => rfl, fun _ _ => rfl, .refl c⟩

theorem trans {c d e : Chip} (h : ModulesKept c d) (k : ModulesKept d e) : ModulesKept c e :=
  ⟨k.trm.trans h.trm, fun o ho => (k.words o ho).trans (h.words o ho), fun n hn => (k.chans n hn).trans (h.chans n hn), h.events.trans k.events⟩

theorem foldl {α : Type} (g : Chip → α → Chip) (l : List α) (hg : ∀ d, ∀ x ∈ l, ModulesKept d (g d x)) : ∀ d, ModulesKept d (l.foldl g d) := by
  induction l with
  | nil => exact refl
  | cons x l ih => exact fun d => (hg d x (List.mem_cons_self ..)).trans (ih (fun d y hy => hg d y (List.mem_cons_of_mem _ hy)) _)

theorem quiet_chan (k : Nat) (hk : k < 32) : quietReg (0x3A0 + k) 0x800 = true := by
  simp [quietReg]
  omega

theorem raise (c : Chip) (f : Fld) : ModulesKept c (c.raise f) :=
  ⟨(congrArg Chip.trm (raise_rest c f) :), fun _ ho => rd_raise c f _ _ ho, fun k hk => rd_raise c f _ _ (quiet_chan k hk), .raise c f⟩

theorem drew (c : Chip) (kind location : Nat) (last : Bool) : ModulesKept c (c.drew kind location last) := by
  have hu := drew_upkept c kind location last
  refine ⟨(congrArg Chip.trm (unlogged_drew c kind location last) :), fun o ho => hu.words _ _ ho (by decide), fun k hk => hu.words _ _ (quiet_chan k hk) ?_, hu.events⟩
  omega

/-- The cells of the media. -/
theorem mde (c : Chip) (x : Mde) : ModulesKept c { c with mde := x } := ⟨rfl, fun _ _ => rfl, fun _ _ => rfl, .of_regs rfl⟩

theorem setRow (c : Chip) (r : Nat) (x : MdeRow) : ModulesKept c (c.setRow r x) := mde c _

theorem queueRow (c : Chip) (r cls : Nat) : ModulesKept c (c.queueRow r cls) := by
  unfold Chip.queueRow
  dsimp only
  split
  · exact setRow c _ _
  · exact refl c

theorem loseColumn (c : Chip) (u k : Nat) : ModulesKept c (c.loseColumn u k) := by
  unfold Chip.loseColumn
  refine foldl _ _ (fun d x _ => ?_) c
  dsimp only
  split
  · exact (setRow d _ _).trans ((mde _ _).trans ((raise _ _).trans (queueRow _ _ _)))
  · exact (setRow d _ _).trans (mde _ _)

theorem putCfg (c : Chip) (k v : Nat) (hk : k < 32) : ModulesKept c (c.putCfg (F.CHN_CHAN_CFG_LUN_OFF k) v) := by
  have hput : ∀ p o, o < 4096 → o ≠ 0x100 → (c.putCfg (F.CHN_CHAN_CFG_LUN_OFF k) v).rd p o = c.rd p o := fun p o ho h =>
    rd_put_ne c (F.CHN_CHAN_CFG_LUN_OFF k) v _ _ fun hr => h (regKey_inj ho (by show 0x100 < 4096; decide) hr).2
  refine ⟨rfl, fun o ho => ?_, fun n _ => hput _ _ (by decide) (by decide), .trans (.put c (F.CHN_CHAN_CFG_LUN_OFF k) v (by show 0x100 < 4096; decide)
    (by show 0x100 ≠ 0x010; decide)) (.of_regs rfl)⟩
  exact rd_put_ne c (F.CHN_CHAN_CFG_LUN_OFF k) v _ _ fun hr => by
    obtain ⟨h1, -⟩ := regKey_inj (quietReg_lt ho) (by show 0x100 < 4096; decide) hr
    have : 0x386 = 0x3A0 + k := h1
    omega

theorem retireLun (c : Chip) (u k : Nat) (hk : k < 32) : ModulesKept c (c.retireLun u k) := by
  unfold Chip.retireLun
  split
  · exact refl c
  · dsimp only
    exact (mde c _).trans ((putCfg _ k _ hk).trans ((raise _ _).trans ((loseColumn _ _ _).trans (drew _ _ _ _))))

variable {c d : Chip} (h : ModulesKept c d)
include h

theorem modState (m : Nat) (hm : m < 8) : d.modState m = c.modState m := congrArg (fun w => bitsOf w 0 3) (h.words _ (quiet_moduleWord m hm))

theorem chanState (k : Nat) (hk : k < 32) : d.get (F.CHN_CHAN_STATE k) = c.get (F.CHN_CHAN_STATE k) := congrArg (fun w => bitsOf w 0 2) (h.chans k hk)

end ModulesKept

/-- A module put out of service: its state alone changes, and the tiers stay. -/
theorem offlining_spec {m : Nat} (hm : m < 8) : ModulesKept (c.setModule m 2) (c.offlining m) := by
  unfold offlining
  dsimp only
  refine (ModulesKept.mde _ _).trans (ModulesKept.foldl _ _ (fun d i hi => ModulesKept.foldl _ _ (fun e u _ => ModulesKept.retireLun e u _ ?_) d) _)
  have := List.mem_range.mp hi
  omega

/-! ## What a rebuild leaves of the frames -/

/-- `d` keeps the frames and the extents of `c`. -/
structure FramesKept (c d : Chip) : Prop where
  front : d.trm.front = c.trm.front
  ext : d.trm.ext = c.trm.ext

namespace FramesKept

theorem refl (c : Chip) : FramesKept c c := ⟨rfl, rfl⟩

theorem trans {c d e : Chip} (h : FramesKept c d) (k : FramesKept d e) : FramesKept c e := ⟨k.front.trans h.front, k.ext.trans h.ext⟩

theorem foldl {α : Type} (g : Chip → α → Chip) (hg : ∀ d x, FramesKept d (g d x)) (l : List α) : ∀ d, FramesKept d (l.foldl g d) := by
  induction l with
  | nil => exact refl
  | cons x l ih => exact fun d => (hg d x).trans (ih _)

theorem of_trm {c d : Chip} (h : d.trm = c.trm) : FramesKept c d := ⟨congrArg Trm.front h, congrArg Trm.ext h⟩

theorem of_rest {c d : Chip} (h : d.rest = c.rest) : FramesKept c d := of_trm (congrArg Chip.trm h :)

theorem of_upkept {c d : Chip} (h : Upkept c d) : FramesKept c d :=
  ⟨(congrArg (fun e : Chip => e.trm.front) h.rest :), (congrArg (fun e : Chip => e.trm.ext) h.rest :)⟩

/-- Steps put together from the last. -/
theorem after {c d e : Chip} (k : FramesKept d e) (h : FramesKept c d) : FramesKept c e := h.trans k

theorem cnt (c : Chip) (k : Ctr) (n : Nat) : FramesKept c (c.cnt k n) := ⟨rfl, rfl⟩

theorem mde (c : Chip) (x : Mde) : FramesKept c { c with mde := x } := ⟨rfl, rfl⟩

theorem mdcTouch (c : Chip) (line : Nat) (write : Bool) : FramesKept c (c.mdcTouch line write) := of_upkept (.mdcTouch _ _ _)

theorem mapBits (c old : Chip) (p : Nat) : FramesKept c (c.mapBits old p) := by
  unfold Chip.mapBits
  dsimp only
  split <;> split
  · exact refl c
  · exact mdcTouch c _ _
  · exact (mdcTouch c _ _).trans (mdcTouch _ _ _)
  · exact (mdcTouch c _ _).trans ((mdcTouch _ _ _).trans (mdcTouch _ _ _))

theorem setDirty (c : Chip) (p : Nat) (on : Bool) : FramesKept c (c.setDirty p on) := by
  unfold Chip.setDirty
  split
  · exact refl c
  · dsimp only
    split
    · exact after (mapBits _ _ _) (after (mdcTouch _ _ _) ⟨rfl, rfl⟩)
    · exact ⟨rfl, rfl⟩

theorem repairParcel (c : Chip) (p : Nat) : FramesKept c (c.repairParcel p) := of_trm rfl

theorem copyLost (c : Chip) (p : Nat) : FramesKept c (c.copyLost p) := by
  unfold Chip.copyLost
  dsimp only
  split
  · exact FramesKept.trans (d := { c with trm := { c.trm with stepDone := dropN c.trm.stepDone p } }) ⟨rfl, rfl⟩ (setDirty _ _ _)
  · exact repairParcel c p

theorem setRow (c : Chip) (r : Nat) (x : MdeRow) : FramesKept c (c.setRow r x) := ⟨rfl, rfl⟩

theorem forget (c : Chip) (x : ParcelEntry) : FramesKept c (c.forget x) := by
  unfold Chip.forget
  split
  · exact refl c
  · exact setRow c _ _

theorem openGroup (c : Chip) (u : Nat) : FramesKept c (c.openGroup u) := by
  have hmerge : ∀ (d : Chip) (u a b : Nat), FramesKept d (d.mergeGroup u a b) := fun d u a b => by
    refine foldl _ (fun e i => ?_) _ d
    dsimp only
    split <;> exact ⟨rfl, rfl⟩
  unfold Chip.openGroup
  dsimp only
  split
  · exact refl c
  · split
    · split
      · exact after (hmerge _ _ _ _) (mde c _)
      · exact ⟨rfl, rfl⟩
    · exact ⟨rfl, rfl⟩

theorem closeRow (c : Chip) (r : Nat) : FramesKept c (c.closeRow r) := by
  unfold Chip.closeRow
  dsimp only
  split
  · exact (setRow c _ _).trans (openGroup _ _)
  · exact (setRow c _ _).trans ((openGroup _ _).trans ⟨rfl, rfl⟩)

theorem openRow (c : Chip) (r stream : Nat) : FramesKept c (c.openRow r stream) := ⟨rfl, rfl⟩

theorem roomFor {c d : Chip} {stream cells r : Nat} (h : c.roomFor stream cells = some (d, r)) : FramesKept c d := by
  unfold Chip.roomFor at h
  dsimp only at h
  split at h
  · cases h
    exact refl c
  · obtain ⟨r', -, hr⟩ := Option.map_eq_some_iff.mp h
    cases hr
    refine FramesKept.trans ?_ (openRow _ _ _)
    split
    · exact refl c
    · split
      · exact closeRow c _
      · exact refl c

theorem stageCopy {c d : Chip} {p plen stream loc : Nat} (h : c.stageCopy p plen stream = some (d, loc)) : FramesKept c d := by
  unfold Chip.stageCopy at h
  dsimp only at h
  split at h
  · cases h
  · split at h
    · cases h
    · next e r he =>
      cases h
      exact (roomFor he).trans ((of_upkept (.oweBlock _ _ _ _)).trans ⟨rfl, rfl⟩)

theorem recordCopy (c : Chip) (p plen loc : Nat) (bytes : List Host.Cell) (poison : List Nat) : FramesKept c (c.recordCopy p plen loc bytes poison) := by
  unfold Chip.recordCopy Chip.setParcel
  dsimp only
  exact after (mdcTouch _ _ _) ⟨rfl, rfl⟩

theorem cancelMove (c : Chip) (p : Nat) : FramesKept c (c.cancelMove p) := by
  unfold Chip.cancelMove
  split
  · exact ⟨rfl, rfl⟩
  · exact refl c

theorem writeCopy {c d : Chip} {p stream : Nat} {bytes : List Host.Cell} {poison : List Nat} (h : c.writeCopy p stream bytes poison = some d) : FramesKept c d := by
  unfold Chip.writeCopy at h
  extract_lets content old dom plen at h
  split at h
  · cases h
    exact (forget c _).trans ((recordCopy _ _ _ _ _ _).trans (cancelMove _ _))
  · split at h
    · cases h
    · next e loc he =>
      obtain rfl := Option.some.inj h
      have hlast : FramesKept c (((e.forget old).recordCopy p plen loc bytes poison).cancelMove p) :=
        (stageCopy he).trans ((forget e _).trans ((recordCopy _ _ _ _ _ _).trans (cancelMove _ _)))
      generalize (((e.forget old).recordCopy p plen loc bytes poison).cancelMove p) = z at hlast
      clear he h
      split
      · exact after (cnt _ _ _) (after (mde _ _) (after (cnt _ _ _) (after (cnt _ _ _) hlast)))
      · exact after (cnt _ _ _) (after (cnt _ _ _) hlast)

theorem rebuildParcel (c : Chip) (twin : Option Chip) (p : Nat) : FramesKept c (c.rebuildParcel twin p) := by
  unfold Chip.rebuildParcel
  dsimp only
  split
  · exact copyLost c p
  · split
    · split
      · next h => exact (writeCopy h).trans (cnt _ _ _)
      · exact repairParcel c p
    · exact after (of_upkept (.dlo _ _ _ _ _ _ _ _)) ⟨rfl, rfl⟩

theorem rebuildRow (twin : Option Chip) (m : Nat) (c : Chip) (x : Nat × MdeRow) : FramesKept c (Chip.rebuildRow twin m c x) := by
  unfold Chip.rebuildRow
  dsimp only
  split
  · exact (foldl _ (fun d p => rebuildParcel d twin p) _ c).trans (cnt _ _ _)
  · split
    · exact after (cnt _ _ _) ⟨rfl, rfl⟩
    · exact after (cnt _ _ _) (setRow c _ _)

end FramesKept

/-! ## The steps of a module -/

theorem offlineReq_eq {m : Nat} (hall : ∀ n : Fin 8, c.modState n.val = 1) (hr : c.rowsDegraded = 0) (hm : m < 8) : c.offlineReq m = c.offlining m := by
  have hcode : c.offlineCode m = 0 := by
    have hany : ((List.range 8).any fun n => n != m && c.modState n != 1) = false := by
      rw [List.any_eq_false]
      intro n hn
      have := hall ⟨n, List.mem_range.mp hn⟩
      simp_all
    unfold offlineCode
    rw [hany, hr]
    rfl
  unfold offlineReq
  rw [hcode, if_neg (by decide), if_pos (hall ⟨m, hm⟩)]

theorem onlineReq_eq {m : Nat} (hs : c.modState m ∈ [0, 3, 6]) (hp : c.is (F.MOD_MODULE_PRESENT m) = true) : c.onlineReq m = c.setModule m 4 := by
  have hst : (c.modState m == 0 || c.modState m == 3 || c.modState m == 6) = true := by simpa [or_assoc] using hs
  unfold onlineReq
  dsimp only
  rw [hst, hp]
  rfl

/-- A channel set up, whatever is set up after it. -/
theorem chansUp_spec (m : Nat) (l : List Nat) (i : Nat) (hi : i ∈ l) : ∀ c : Chip, (∀ j ∈ l, 4 * m + j < 32) →
    (l.foldl (fun c i => (c.put (F.CHN_CHAN_STATE (4 * m + i)) 2).putCfg (F.CHN_CHAN_CFG_LUN_OFF (4 * m + i)) 0) c).get (F.CHN_CHAN_STATE (4 * m + i)) = 2 := by
  have hone : ∀ (c : Chip) (j : Nat), 4 * m + j < 32 → c.get (F.CHN_CHAN_STATE (4 * m + i)) = 2 ∨ j = i →
      ((c.put (F.CHN_CHAN_STATE (4 * m + j)) 2).putCfg (F.CHN_CHAN_CFG_LUN_OFF (4 * m + j)) 0).get (F.CHN_CHAN_STATE (4 * m + i)) = 2 := by
    intro c j hj h
    rw [get_putCfg, get_put_ne _ (F.CHN_CHAN_CFG_LUN_OFF (4 * m + j)) (F.CHN_CHAN_STATE (4 * m + i)) 0 (by simp only [regKey]; omega)]
    by_cases hij : j = i
    · subst hij
      exact (get_put_same _ (F.CHN_CHAN_STATE (4 * m + j)) 2 (by show 0 + 2 ≤ 32; decide)).trans (show 2 % 2 ^ 2 = 2 by decide)
    · rw [get_put_ne _ (F.CHN_CHAN_STATE (4 * m + j)) (F.CHN_CHAN_STATE (4 * m + i)) 2 (by simp only [regKey]; omega)]
      exact h.resolve_right hij
  have hkeep : ∀ (l : List Nat) (c : Chip), (∀ j ∈ l, 4 * m + j < 32) → c.get (F.CHN_CHAN_STATE (4 * m + i)) = 2 →
      (l.foldl (fun c i => (c.put (F.CHN_CHAN_STATE (4 * m + i)) 2).putCfg (F.CHN_CHAN_CFG_LUN_OFF (4 * m + i)) 0) c).get (F.CHN_CHAN_STATE (4 * m + i)) = 2 := by
    intro l
    induction l with
    | nil => exact fun c _ h => h
    | cons j l ih =>
      exact fun c hl h => ih _ (fun k hk => hl k (List.mem_cons_of_mem _ hk)) (hone c j (hl j (List.mem_cons_self ..)) (.inl h))
  induction l with
  | nil => cases hi
  | cons j l ih =>
    intro c hl
    have hl' : ∀ k ∈ l, 4 * m + k < 32 := fun k hk => hl k (List.mem_cons_of_mem _ hk)
    rw [List.foldl_cons]
    obtain rfl | hi := List.mem_cons.mp hi
    · exact hkeep l _ hl' (hone c i (hl i (List.mem_cons_self ..)) (.inr rfl))
    · exact ih hi _ hl'

theorem chansUp_rest (m : Nat) (l : List Nat) : ∀ c : Chip,
    (l.foldl (fun c i => (c.put (F.CHN_CHAN_STATE (4 * m + i)) 2).putCfg (F.CHN_CHAN_CFG_LUN_OFF (4 * m + i)) 0) c).mde = c.mde := by
  induction l with
  | nil => exact fun c => rfl
  | cons i l ih => exact fun c => ih _
theorem chanState_setModule (m st k : Nat) (hm : m < 8) (hk : k < 32) : (c.setModule m st).get (F.CHN_CHAN_STATE k) = c.get (F.CHN_CHAN_STATE k) := by
  unfold setModule
  rw [get_raise _ _ (F.CHN_CHAN_STATE k) (ModulesKept.quiet_chan k hk)]
  exact get_put_ne c (F.MOD_MODULE_STATE m) (F.CHN_CHAN_STATE k) st (by simp only [regKey]; omega)

/-- The chip with a module's presence noted. -/
def presenceNoted (m : Nat) (on : Bool) : Chip := c.put (F.MOD_MODULE_PRESENT m) (bit on)

theorem up_presenceNoted (m : Nat) (on : Bool) : (c.presenceNoted m on).up = c.up := rfl

theorem modState_presenceNoted (m : Nat) (on : Bool) : (c.presenceNoted m on).modState m = c.modState m :=
  get_put_apart c (F.MOD_MODULE_PRESENT m) (F.MOD_MODULE_STATE m) _ (by show 8 + 1 ≤ 32; decide) rfl rfl (.inl (by show 0 + 3 ≤ 8; decide))

theorem is_presenceNoted_setModule (m st : Nat) (on : Bool) (hm : m < 8) : ((c.presenceNoted m on).setModule m st).is (F.MOD_MODULE_PRESENT m) = on := by
  unfold setModule
  rw [is_raise _ _ (F.MOD_MODULE_PRESENT m) (quiet_moduleWord _ hm)]
  have hap := get_put_apart (c.presenceNoted m on) (F.MOD_MODULE_STATE m) (F.MOD_MODULE_PRESENT m) st
    (by show 0 + 3 ≤ 32; decide) rfl rfl (.inr (by show 0 + 3 ≤ 8; decide))
  unfold is
  rw [hap]
  exact is_put_bit c (F.MOD_MODULE_PRESENT m) on (by show 8 + 1 ≤ 32; decide) rfl

/-- A module's channels set up, its LUNs taken back into use, and its rebuild begun. -/
def prepared (m : Nat) : Chip :=
  let c := (List.range 4).foldl (fun c i => (c.put (F.CHN_CHAN_STATE (4 * m + i)) 2).putCfg (F.CHN_CHAN_CFG_LUN_OFF (4 * m + i)) 0) c
  let c := { c with mde := { c.mde with retiredLuns := c.mde.retiredLuns.filter fun x => x / 32 / 4 != m } }
  (c.put F.MOD_REBUILD_ROWS_LEFT (c.rebuildRows m).length).setModule m 5

theorem prepared_chan (m i : Nat) (hm : m < 8) (hi : i < 4) : (c.prepared m).get (F.CHN_CHAN_STATE (4 * m + i)) = 2 := by
  have hup := chansUp_spec m (List.range 4) i (List.mem_range.mpr hi) c fun j hj => by
    have := List.mem_range.mp hj
    omega
  unfold prepared
  dsimp only
  rw [chanState_setModule _ m 5 _ hm (by omega)]
  generalize List.foldl _ c _ = d at hup ⊢
  refine (get_put_ne _ F.MOD_REBUILD_ROWS_LEFT (F.CHN_CHAN_STATE (4 * m + i)) _ (by simp only [regKey]; omega)).trans ?_
  rw [get_mk]
  exact hup

theorem prepared_rows (m : Nat) : (c.prepared m).mde.rows = c.mde.rows := by
  have hmde := chansUp_rest m (List.range 4) c
  unfold prepared
  dsimp only
  generalize List.foldl _ c _ = d at hmde ⊢
  generalize (rebuildRows _ m).length = n
  have hr := congrArg (fun e : Chip => e.mde.rows) (setModule_rest (put { d with mde := { d.mde with retiredLuns := d.mde.retiredLuns.filter fun x => x / 32 / 4 != m } } F.MOD_REBUILD_ROWS_LEFT n) m 5)
  exact (hr :).trans (congrArg Mde.rows hmde :)

theorem prepared_state (m : Nat) (hm : m < 8) : (c.prepared m).modState m = 5 := modState_setModule _ m 5 hm (by decide)

/-- A rebuild brought to its end. -/
def rebuilt (m : Nat) : Chip := ((c.put F.MOD_REBUILD_ROWS_LEFT 0).setModule m 1).raise F.MOD_EV_REBUILD_DONE

theorem rebuilt_spec (m : Nat) (hm : m < 8) :
    (c.rebuilt m).modState m = 1 ∧ (c.rebuilt m).is F.MOD_EV_REBUILD_DONE = true ∧ (c.rebuilt m).get F.MOD_REBUILD_ROWS_LEFT = 0 ∧ FramesKept c (c.rebuilt m) := by
  refine ⟨?_, raise_is _ _ rfl rfl (by decide), ?_, ?_⟩
  · exact (modState_raise _ _ hm).trans (modState_setModule _ m 1 hm (by decide))
  · unfold rebuilt setModule
    rw [get_raise _ _ F.MOD_REBUILD_ROWS_LEFT (by decide), get_raise _ _ F.MOD_REBUILD_ROWS_LEFT (by decide)]
    refine (get_put_ne _ (F.MOD_MODULE_STATE m) F.MOD_REBUILD_ROWS_LEFT 1 (by simp only [regKey]; omega)).trans ?_
    exact (get_put_same c F.MOD_REBUILD_ROWS_LEFT 0 (by decide)).trans (Nat.zero_mod _)
  · exact .of_rest ((raise_rest _ _).trans ((setModule_rest _ _ _).trans (put_rest _ _ _)))

theorem rebuild_spec (m : Nat) (twin : Option Chip) (hm : m < 8) (hs : c.modState m = 5) :
    (c.rebuild m twin).modState m = 1 ∧ (c.rebuild m twin).is F.MOD_EV_REBUILD_DONE = true ∧
      (c.rebuild m twin).get F.MOD_REBUILD_ROWS_LEFT = 0 ∧ FramesKept c (c.rebuild m twin) := by
  have hfold := FramesKept.foldl (rebuildRow twin m) (FramesKept.rebuildRow twin m) (c.rebuildRows m) c
  generalize hz : (c.rebuildRows m).foldl (rebuildRow twin m) c = d at hfold
  have hr : c.rebuild m twin = Chip.rebuilt { d with mde := { d.mde with spares := d.mde.spares.clear fun x => x / 32 / 4 == m, members := insertN d.mde.members m } } m := by
    unfold rebuild
    rw [if_neg (not_not_intro hs), hz]
    rfl
  rw [hr]
  obtain ⟨h1, h2, h3, h4⟩ := rebuilt_spec { d with mde := { d.mde with spares := d.mde.spares.clear fun x => x / 32 / 4 == m, members := insertN d.mde.members m } } m hm
  exact ⟨h1, h2, h3, hfold.trans ((FramesKept.mde d _).trans h4)⟩

/-- A failed channel noted. -/
def channelLost (k : Nat) : Chip := (c.put (F.CHN_CHAN_STATE k) 3).raise (F.CHN_EV_CHANNEL_FAILED k)

theorem channelLost_spec (k : Nat) (hk : k < 32) :
    (c.channelLost k).get (F.CHN_CHAN_STATE k) = 3 ∧ (c.channelLost k).is (F.CHN_EV_CHANNEL_FAILED k) = true ∧
      (∀ m, m < 8 → (c.channelLost k).modState m = c.modState m) ∧ (c.channelLost k).trm = c.trm := by
  refine ⟨?_, raise_is _ _ rfl rfl (by show 1 < 32; decide), fun m hm => ?_, ?_⟩
  · unfold channelLost
    rw [get_raise _ _ (F.CHN_CHAN_STATE k) (ModulesKept.quiet_chan k hk)]
    exact (get_put_same c (F.CHN_CHAN_STATE k) 3 (by show 0 + 2 ≤ 32; decide)).trans (show 3 % 2 ^ 2 = 3 by decide)
  · unfold channelLost
    rw [modState_raise _ _ hm]
    exact get_put_ne c (F.CHN_CHAN_STATE k) (F.MOD_MODULE_STATE m) 3 (by simp only [regKey]; omega)
  · exact (congrArg Chip.trm ((raise_rest _ _).trans (put_rest c _ _)) :)

/-- A module put out of service for one of its channels. -/
theorem moduleLost_spec (k : Nat) (hk : k < 32) :
    ((c.offlining (k / 4)).raise F.MOD_EV_MODULE_LOST).modState (k / 4) = 2 ∧
      ((c.offlining (k / 4)).raise F.MOD_EV_MODULE_LOST).get (F.CHN_CHAN_STATE k) = c.get (F.CHN_CHAN_STATE k) ∧
      ((c.offlining (k / 4)).raise F.MOD_EV_MODULE_LOST).is F.MOD_EV_MODULE_LOST = true ∧
      EventsKept c ((c.offlining (k / 4)).raise F.MOD_EV_MODULE_LOST) ∧ ((c.offlining (k / 4)).raise F.MOD_EV_MODULE_LOST).trm = c.trm := by
  have hm : k / 4 < 8 := by omega
  have hoff := (c.offlining_spec hm).trans (ModulesKept.raise _ F.MOD_EV_MODULE_LOST)
  refine ⟨(hoff.modState _ hm).trans (modState_setModule _ _ _ hm (by decide)),
    (hoff.chanState k hk).trans (chanState_setModule _ _ _ _ hm hk), raise_is _ _ rfl rfl (by decide), ?_, ?_⟩
  · refine .trans (.trans (.put c (F.MOD_MODULE_STATE (k / 4)) 2 ?_ ?_) (.raise _ _)) hoff.events
    · show 0x800 + 4 * (k / 4) < 4096
      omega
    · show 0x800 + 4 * (k / 4) ≠ 0x010
      omega
  · exact hoff.trm.trans (congrArg Chip.trm (setModule_rest _ _ _) :)

end Chip

/-- Settles O47: each step sets its module's state; what is lost or rebuilt with it keeps the frames. -/
theorem modulesComplete : Obligations.ModulesComplete := by
  refine ⟨?_, ?_, ?_, ?_, ?_, ?_, ?_⟩
  · intro w rq m s hup hm hr hall hd
    refine ⟨_, rfl, ?_⟩
    simp only [State.chip_onUp hup, State.chip_onUp_other, Chip.ifWrites_pos _ hm, Chip.ifRunning_pos _ hr, Chip.offlineReq_eq _ hall hd m.isLt, and_true]
    have hk := (s.chip w).offlining_spec m.isLt
    refine ⟨(hk.modState _ m.isLt).trans (Chip.modState_setModule _ _ _ m.isLt (by decide)), fun n hn => ?_,
      Chip.is_kept hk.events _ rfl rfl (Chip.setModule_event _ _ _), hk.trm.trans (congrArg Chip.trm (Chip.setModule_rest _ _ _) :)⟩
    rw [hk.modState _ n.isLt, Chip.modState_setModule_ne _ _ _ _ n.isLt fun h => hn (Fin.ext h)]
    exact hall n
  · intro w m s hup hs
    refine ⟨_, rfl, ?_⟩
    simp only [State.chip_onUp hup, State.chip_onUp_other, hs, if_true, and_true]
    exact ⟨Chip.modState_setModule _ _ _ m.isLt (by decide), Chip.setModule_event _ _ _, (congrArg Chip.mde (Chip.setModule_rest _ _ _) :)⟩
  · intro w m s hup hs
    have hgo : exec (.modulePresenceChange w m false) s = .next (s.mapChip w fun c =>
        if (c.presenceNoted m.val false).up && !false && (c.presenceNoted m.val false).modState m.val == 3 then
          (c.presenceNoted m.val false).setModule m.val 0 else c.presenceNoted m.val false) := rfl
    refine ⟨_, hgo, ?_⟩
    rw [State.chip_mapChip_same, State.chip_mapChip_other, Chip.modState_presenceNoted, Chip.up_presenceNoted, hup, hs]
    rw [if_pos (by decide)]
    refine ⟨Chip.modState_setModule _ _ _ m.isLt (by decide), Chip.is_presenceNoted_setModule _ _ _ _ m.isLt,
      (congrArg Chip.mde ((Chip.setModule_rest ((s.chip w).presenceNoted m.val false) m.val 0).trans (Chip.put_rest _ _ _)) :), rfl⟩
  · intro w rq m s hup hm hr hs hp
    refine ⟨_, rfl, ?_⟩
    simp only [State.chip_onUp hup, State.chip_onUp_other, Chip.ifWrites_pos _ hm, Chip.ifRunning_pos _ hr, Chip.onlineReq_eq _ hs hp, and_true]
    exact ⟨Chip.modState_setModule _ _ _ m.isLt (by decide), Chip.setModule_event _ _ _, (congrArg Chip.mde (Chip.setModule_rest _ _ _) :)⟩
  · intro w m s hup hs
    have hgo : exec (.modulePrepareDone w m true) s = .next (s.onUp w fun c =>
        if c.modState m.val ≠ 4 then c else if !true then c.setModule m.val 6 else c.prepared m.val) := rfl
    refine ⟨_, hgo, ?_⟩
    rw [State.chip_onUp hup, State.chip_onUp_other, if_neg (not_not_intro hs), if_neg (by decide)]
    exact ⟨Chip.prepared_state _ _ m.isLt, fun i => Chip.prepared_chan _ _ _ m.isLt i.isLt, Chip.prepared_rows _ _, rfl⟩
  · intro w m s hup hs
    refine ⟨_, rfl, ?_⟩
    rw [State.chip_onUp hup, State.chip_onUp_other]
    obtain ⟨hst, hev, hleft, hkept⟩ := (s.chip w).rebuild_spec m.val (if (s.chip w).mirrored && (s.chip w).linkUp then some (s.chip w.other) else none) m.isLt hs
    exact ⟨hst, hev, hleft, hkept.front, hkept.ext, rfl⟩
  · intro w k s hup hs
    have hgo : exec (.channelFailed w k) s = .next (s.onUp w fun c =>
        let c := (List.range (c.channelLost k.val).mde.scan.positions).foldl (fun c u => c.retireLun u k.val) (c.channelLost k.val)
        if c.modState (k.val / 4) = 1 then (c.offlining (k.val / 4)).raise F.MOD_EV_MODULE_LOST else c) := rfl
    refine ⟨_, hgo, ?_⟩
    have hk := k.isLt
    rw [State.chip_onUp hup, State.chip_onUp_other]
    obtain ⟨hst, hev, hmod, htrm⟩ := (s.chip w).channelLost_spec k.val hk
    have hfold := Chip.ModulesKept.foldl (fun c u => c.retireLun u k.val) (List.range ((s.chip w).channelLost k.val).mde.scan.positions)
      (fun d u _ => Chip.ModulesKept.retireLun d u k.val hk) ((s.chip w).channelLost k.val)
    dsimp only
    generalize List.foldl _ _ _ = d at hfold ⊢
    rw [if_pos ((hfold.modState _ (by omega)).trans ((hmod _ (by omega)).trans hs))]
    obtain ⟨h2, hchan, hlost, hkept, ht⟩ := d.moduleLost_spec k.val hk
    exact ⟨hchan.trans ((hfold.chanState _ hk).trans hst), h2, Chip.is_kept (hfold.events.trans hkept) _ rfl rfl hev, hlost,
      ht.trans (hfold.trm.trans htrm), rfl⟩

end Sys2Proof.Machine
end

section
/-! PROOF. Repair from the twin, the settling of a mismatch and the rise of the holdup level (R186 to R196, R383). -/
namespace Sys2Proof.Machine

namespace Chip

/-! ## The counters of repair -/

/-- `d` keeps the counters of page 0x072 and the events of `c`. -/
structure RepairsCounted (c d : Chip) : Prop where
  counts : ∀ k : Ctr, k.page = 0x072 → k.slot < 128 → d.count k = c.count k
  events : EventsKept c d

namespace RepairsCounted

theorem refl (c : Chip) : RepairsCounted c c := ⟨fun _ _ _ => rfl, .refl c⟩

theorem trans {c d e : Chip} (h : RepairsCounted c d) (k : RepairsCounted d e) : RepairsCounted c e :=
  ⟨fun j hp hs => (k.counts j hp hs).trans (h.counts j hp hs), h.events.trans k.events⟩

/-- Steps put together from the last. -/
theorem after {c d e : Chip} (k : RepairsCounted d e) (h : RepairsCounted c d) : RepairsCounted c e := h.trans k

theorem foldl {α : Type} (g : Chip → α → Chip) (hg : ∀ d x, RepairsCounted d (g d x)) (l : List α) : ∀ d, RepairsCounted d (l.foldl g d) := by
  induction l with
  | nil => exact refl
  | cons x l ih => exact fun d => (hg d x).trans (ih _)

/-- A step that changes neither a counter nor an event. -/
theorem of_same {c d : Chip} (hl : d.live = c.live) (he : EventsKept c d) : RepairsCounted c d :=
  ⟨fun k _ _ => congrArg (fun t => Table.get (fun _ => 0) t (k.page * 128 + k.slot)) hl, he⟩

theorem cnt (c : Chip) (k : Ctr) (n : Nat) (hk : 0x072 < k.page) : RepairsCounted c (c.cnt k n) :=
  ⟨fun j hp hs => count_cnt_ne c k j n (by omega), .cnt c k n⟩

theorem raise (c : Chip) (f : Fld) : RepairsCounted c (c.raise f) := by
  refine ⟨fun k hp hs => count_raise c f k ?_, .raise c f⟩
  simp [quietCtr, hp, hs]

theorem put (c : Chip) (f : Fld) (v : Nat) (ho : f.off < 4096) (he : f.off ≠ 0x010) : RepairsCounted c (c.put f v) := of_same rfl (.put c f v ho he)

theorem oweBlock (c : Chip) (k : Client) (x n : Nat) : RepairsCounted c (c.oweBlock k x n) := by
  unfold Chip.oweBlock
  exact foldl (fun d (y : Nat × Nat) => d.oweLines k y.1 y.2) (fun d y => of_same rfl (.of_regs rfl)) _ c

/-! ### The Metadata Cache -/

theorem setMdcWay (c : Chip) (s w : Nat) (x : MdcLine) : RepairsCounted c (c.setMdcWay s w x) := of_same rfl (.of_regs rfl)

theorem mdcRefer (c : Chip) (s w : Nat) : RepairsCounted c (c.mdcRefer s w) := by
  unfold Chip.mdcRefer
  dsimp only
  split
  · refine (setMdcWay c s w _).trans (foldl _ (fun d v => ?_) _ _)
    split
    · exact refl d
    · exact setMdcWay d s v _
  · exact setMdcWay c s w _

theorem mdcToDram (c : Chip) (line : Nat) : RepairsCounted c (c.mdcToDram line) := by
  unfold Chip.mdcToDram
  dsimp only
  refine after (oweBlock _ _ _ _) (after (cnt _ _ _ (by decide)) ?_)
  split <;> exact of_same rfl (.of_regs rfl)

theorem evbDrain (n : Nat) : ∀ c : Chip, RepairsCounted c (c.evbDrain n) := by
  induction n with
  | zero => exact refl
  | succ n ih =>
    intro c
    unfold Chip.evbDrain
    split
    · exact refl c
    · exact after (ih _) (after (mdcToDram _ _) (of_same rfl (.of_regs rfl)))

theorem evbPush (c : Chip) (line : Nat) : RepairsCounted c (c.evbPush line) := by
  unfold Chip.evbPush
  dsimp only
  split
  · exact (raise c _).trans ((evbDrain 1 _).trans (of_same rfl (.of_regs rfl)))
  · exact of_same rfl (.of_regs rfl)

theorem mdcInstall (c : Chip) (line : Nat) (dirty : Bool) : RepairsCounted c (c.mdcInstall line dirty) := by
  unfold Chip.mdcInstall
  dsimp only
  split
  · split
    · exact mdcToDram c line
    · exact refl c
  · split
    · exact (evbPush c _).trans ((setMdcWay _ _ _ _).trans (mdcRefer _ _ _))
    · exact (setMdcWay c _ _ _).trans (mdcRefer _ _ _)

theorem mdcTouch (c : Chip) (line : Nat) (write : Bool) : RepairsCounted c (c.mdcTouch line write) := by
  unfold Chip.mdcTouch
  dsimp only
  split
  · exact (setMdcWay c _ _ _).trans ((mdcRefer _ _ _).trans (cnt _ _ _ (by decide)))
  · split
    · exact after (mdcInstall _ _ _) (after (cnt _ _ _ (by decide)) (of_same rfl (.of_regs rfl)))
    · exact (cnt c _ _ (by decide)).trans ((oweBlock _ _ _ _).trans (mdcInstall _ _ _))

theorem mapBits (c old : Chip) (p : Nat) : RepairsCounted c (c.mapBits old p) := by
  unfold Chip.mapBits
  dsimp only
  split <;> split
  · exact refl c
  · exact mdcTouch c _ _
  · exact (mdcTouch c _ _).trans (mdcTouch _ _ _)
  · exact (mdcTouch c _ _).trans ((mdcTouch _ _ _).trans (mdcTouch _ _ _))

theorem setDirty (c : Chip) (p : Nat) (on : Bool) : RepairsCounted c (c.setDirty p on) := by
  unfold Chip.setDirty
  split
  · exact refl c
  · dsimp only
    split
    · exact after (mapBits _ _ _) (after (mdcTouch _ _ _) (of_same rfl (.of_regs rfl)))
    · exact of_same rfl (.of_regs rfl)

/-! ### A line stored -/

theorem healLine (c : Chip) (dpa : Nat) (poison : Bool) : RepairsCounted c (c.healLine dpa poison) := by
  unfold Chip.healLine
  split
  · exact of_same rfl (.of_regs rfl)
  · exact refl c

theorem storePatch (c : Chip) (dpa : Nat) (l : Line) (poison : Bool) : RepairsCounted c (c.storePatch dpa l poison) := by
  unfold Chip.storePatch
  extract_lets a p fresh born chain t m d
  have hd : RepairsCounted c d := of_same rfl (.of_regs rfl)
  split
  · exact hd.trans ((mapBits _ _ _).trans (cnt _ _ _ (by decide)))
  · exact hd

theorem storeFront (c : Chip) (dpa : Nat) (l : Line) (poison : Bool) : RepairsCounted c (c.storeFront dpa l poison) := by
  unfold Chip.storeFront
  dsimp only
  exact after (setDirty _ _ _) (of_same rfl (.of_regs rfl))

theorem storeLine (c : Chip) (dpa : Nat) (l : Line) (poison : Bool) : RepairsCounted c (c.storeLine dpa l poison) := by
  unfold Chip.storeLine
  dsimp only
  split
  · exact (healLine c _ _).trans (storePatch _ _ _ _)
  · exact (healLine c _ _).trans (storeFront _ _ _ _)

/-! ### The log -/

theorem dloFlush (c : Chip) : RepairsCounted c c.dloFlush := by
  unfold Chip.dloFlush
  split
  · exact refl c
  · extract_lets all cap lost ring x d e f
    have hd : RepairsCounted c d := of_same rfl (.of_regs rfl)
    have he : RepairsCounted d e := put d _ _ (by decide) (by decide)
    have hf : RepairsCounted e f := by
      unfold f
      clear_value e d ring
      split
      · exact refl e
      · exact put e _ _ (by decide) (by decide)
    refine hd.trans (he.trans (hf.trans ?_))
    split
    · exact refl f
    · exact (cnt f _ _ (by decide)).trans (raise _ _)

theorem dloMany (c : Chip) : RepairsCounted c c.dloMany := by
  unfold Chip.dloMany
  split
  · exact dloFlush c
  · exact refl c

theorem dloEnter (c : Chip) (source level kind copy address location : Nat) (syndrome : Option (BitVec 128)) :
    RepairsCounted c (c.dloEnter source level kind copy address location syndrome) := by
  unfold Chip.dloEnter
  split
  · exact cnt c _ _ (by decide)
  · extract_lets n found e x d f g
    have hd : RepairsCounted c d := of_same rfl (.of_regs rfl)
    have hf : RepairsCounted d f := (put d _ _ (by decide) (by decide)).trans (put _ _ _ (by decide) (by decide))
    have hg : RepairsCounted f g := (cnt f _ _ (by decide)).trans (cnt _ _ _ (by show 0x072 < 0x0F0; decide))
    refine hd.trans (hf.trans (hg.trans ?_))
    split
    · exact raise g _
    · exact refl g

theorem dlo (c : Chip) (source level kind copy address location : Nat) (syndrome : Option (BitVec 128)) :
    RepairsCounted c (c.dlo source level kind copy address location syndrome) :=
  (dloMany c).trans ((dloEnter _ _ _ _ _ _ _ _).trans (dloMany _))

end RepairsCounted

variable (c : Chip)

/-! ## A mismatch -/

/-- A mismatch noted: counted, raised, entered in the log, its line shown. -/
def mismatchNoted (line kind : Nat) (syndrome : BitVec 128) : Chip :=
  ((((c.cnt K.REP_CSIGN_MISMATCHES).raise F.REP_EV_CSIGN_MISMATCH).dlo 0x09 0 3 kind line 0 (some syndrome)).put F.REP_LAST_MISMATCH_LO line).put
    F.REP_LAST_MISMATCH_HI (line / 2 ^ 32)

theorem mismatchNoted_spec (line kind : Nat) (syndrome : BitVec 128) :
    (c.mismatchNoted line kind syndrome).is F.REP_EV_CSIGN_MISMATCH = true ∧
      (c.mismatchNoted line kind syndrome).count K.REP_CSIGN_CARBON_FIXED = c.count K.REP_CSIGN_CARBON_FIXED := by
  have hlog : RepairsCounted ((c.cnt K.REP_CSIGN_MISMATCHES).raise F.REP_EV_CSIGN_MISMATCH) (c.mismatchNoted line kind syndrome) :=
    (RepairsCounted.dlo _ _ _ _ _ _ _ _).trans ((RepairsCounted.put _ _ _ (by decide) (by decide)).trans (RepairsCounted.put _ _ _ (by decide) (by decide)))
  refine ⟨is_kept hlog.events _ rfl rfl (raise_is _ _ rfl rfl (by decide)), (hlog.counts _ rfl (by decide)).trans ?_⟩
  rw [count_raise _ _ _ (by decide)]
  exact count_cnt_ne c _ _ _ (by decide)

/-- The carbon's copy rewritten. -/
theorem carbonFixed_spec (line : Nat) (data : Line) (hev : c.is F.REP_EV_CSIGN_MISMATCH = true) :
    ((c.storeLine line data false).cnt K.REP_CSIGN_CARBON_FIXED).is F.REP_EV_CSIGN_MISMATCH = true ∧
      ((c.storeLine line data false).cnt K.REP_CSIGN_CARBON_FIXED).count K.REP_CSIGN_CARBON_FIXED = (c.count K.REP_CSIGN_CARBON_FIXED + 1) % 2 ^ 48 := by
  have hs := RepairsCounted.storeLine c line data false
  generalize c.storeLine line data false = d at hs
  refine ⟨is_kept (hs.events.trans (.cnt d _ _)) _ rfl rfl hev, (count_cnt_same d _ _).trans ?_⟩
  rw [hs.counts _ rfl (by decide)]

theorem carbonAtFault_of_unstable {carbon home : Chip} {line : Nat} {carbonData homeData : Line} (hc : carbon.cleanBackCopy line = false)
    (hh : home.cleanBackCopy line = false) : carbonAtFault carbon home line false true carbonData homeData = true := by
  unfold carbonAtFault
  rw [hc, hh]
  rfl

/-! ## The holdup level -/

theorem setHoldup_spec (lvl : Nat) (hl : lvl ≤ 7) :
    (c.setHoldup lvl).get F.GOV_GOV_HOLDUP_APPLIED = lvl ∧ (c.setHoldup lvl).svc = c.svc := by
  have hput : (((c.put F.GOV_GOV_HOLDUP_APPLIED lvl).cnt K.GOV_HOLDUP_CHANGES).raise F.GOV_EV_HOLDUP_CHANGE).get F.GOV_GOV_HOLDUP_APPLIED = lvl := by
    rw [get_raise _ _ F.GOV_GOV_HOLDUP_APPLIED (by decide), get_cnt]
    exact (get_put_same c F.GOV_GOV_HOLDUP_APPLIED lvl (by decide)).trans (Nat.mod_eq_of_lt (show lvl < 8 by omega))
  unfold setHoldup
  dsimp only
  split
  · next h => exact ⟨h.symm, rfl⟩
  · have hrest : (((c.put F.GOV_GOV_HOLDUP_APPLIED lvl).cnt K.GOV_HOLDUP_CHANGES).raise F.GOV_EV_HOLDUP_CHANGE).svc = c.svc :=
      (congrArg Chip.svc (raise_rest ((c.put F.GOV_GOV_HOLDUP_APPLIED lvl).cnt K.GOV_HOLDUP_CHANGES) F.GOV_EV_HOLDUP_CHANGE) :).trans rfl
    generalize ((c.put F.GOV_GOV_HOLDUP_APPLIED lvl).cnt K.GOV_HOLDUP_CHANGES).raise F.GOV_EV_HOLDUP_CHANGE = d at hput hrest
    split
    · exact ⟨(get_raise d _ F.GOV_GOV_HOLDUP_APPLIED (by decide)).trans hput, (congrArg Chip.svc (raise_rest d _) :).trans hrest⟩
    · exact ⟨hput, hrest⟩

/-! ## A repair begun -/

theorem post_repairs (r : PmRecord) : (c.post r).twe.repairs = c.twe.repairs := (congrArg (fun k => k.twe.repairs) (post_quiet c r) :)

/-- A read that waits for repair goes on waiting where the reads of a rank that is away are sent to repair. -/
theorem waits_repair {x : Tag} {line : Nat} (away : Bool) (hx : x ∈ c.tags) (hst : x.stage = .repair) (hdpa : x.dpa = line) :
    ((if away = true then c.mapTags (fun t => readsOf line t && !t.issued) fun t => { t with stage := .repair } else c).tags.any
      fun t => at' t .repair && t.dpa == line) = true := by
  rw [List.any_eq_true]
  have hat : (at' x .repair && x.dpa == line) = true := by simp [at', hst, hdpa]
  cases away with
  | false => exact ⟨x, hx, hat⟩
  | true =>
    refine ⟨_, List.mem_map.mpr ⟨x, hx, rfl⟩, ?_⟩
    split
    · simp [at', hdpa]
    · exact hat

theorem beginRepair_spec (line source : Nat) (hr : c.twe.repairs = []) (hc : c.twinHasCopy = true) :
    (c.beginRepair line source).twe.repairs = [(line, source)] ∧ (c.beginRepair line source).twe.holds.contains line = true ∧
      (c.beginRepair line source).get F.REP_REPAIRS_PENDING = 1 := by
  have hgo : c.beginRepair line source = ((({ c.cnt K.REP_REPAIR_REQUESTS with
      twe := { c.twe with repairs := c.twe.repairs ++ [(line, source)] } }.showRepairs.post (.hold line true)).setHold line true).send (.repairAsk line)) := by
    unfold beginRepair
    rw [if_neg (by simp [hr])]
    exact if_pos hc
  generalize hd : ({ c.cnt K.REP_REPAIR_REQUESTS with twe := { c.twe with repairs := c.twe.repairs ++ [(line, source)] } } : Chip) = d at hgo
  have hdr : d.twe.repairs = [(line, source)] := by
    rw [← hd]
    show c.twe.repairs ++ [(line, source)] = _
    rw [hr]
    rfl
  rw [hgo]
  refine ⟨?_, ?_, ?_⟩
  · rw [send_twe]
    exact (post_repairs _ _).trans hdr
  · rw [send_twe]
    exact contains_insertN _ _
  · rw [get_of_quiet (send_quiet _ _) F.REP_REPAIRS_PENDING (by decide)]
    refine (get_of_quiet (post_quiet d.showRepairs (.hold line true)) F.REP_REPAIRS_PENDING (by decide)).trans ?_
    unfold showRepairs
    rw [hdr]
    exact (get_put_same d F.REP_REPAIRS_PENDING _ (by decide)).trans (show 1 % 2 ^ 7 = 1 by decide)

end Chip

/-- Settles O41: each command's one case that the hypotheses name. -/
theorem repairsComplete : Obligations.RepairsComplete := by
  refine ⟨?_, ?_, ?_⟩
  · intro w line x s hup hline hx hst hdpa hr hc
    have hline' : lineBase line = line := by
      unfold lineBase
      omega
    refine ⟨_, rfl, ?_⟩
    rw [State.chip_onUp hup, State.chip_onUp_other, hline']
    dsimp only
    generalize hd : (if (s.chip w).rankAway line = true then
      (s.chip w).mapTags (fun t => Chip.readsOf line t && !t.issued) fun t => { t with stage := .repair } else s.chip w) = d
    have hwait : (d.tags.any fun t => Chip.at' t .repair && t.dpa == line) = true := by
      rw [← hd]
      exact Chip.waits_repair _ _ hx hst hdpa
    have hkeep : d.twe = (s.chip w).twe ∧ d.twinHasCopy = (s.chip w).twinHasCopy ∧ d.repairSource line = (s.chip w).repairSource line := by
      rw [← hd]
      split <;> exact ⟨rfl, rfl, rfl⟩
    obtain ⟨htwe, hcopy, hsrc⟩ := hkeep
    rw [if_pos hwait, ← hsrc]
    obtain ⟨h1, h2, h3⟩ := d.beginRepair_spec line (d.repairSource line) (htwe.symm ▸ hr) (hcopy.trans hc)
    exact ⟨h1, h2, h3, rfl⟩
  · intro w line data s hup hup' hm hl hcfg hline hcom hcl hcl'
    have hline' : lineBase line = line := by
      unfold lineBase
      omega
    have hgo : exec (.countersignMismatch w line false true 0 data) s = .next ((s.mapChip w fun c =>
        (((c.mismatchNoted line (1 + 0x12 * bit true) ((0 ^^^ data : Line).setWidth 128)).storeLine line data false).cnt K.REP_CSIGN_CARBON_FIXED)).mapChip
          w.other fun c => c) := by
      show execCountersignMismatch w line false true 0 data s = _
      unfold execCountersignMismatch
      rw [hline']
      dsimp only
      rw [hup, hup', hm, hl, hcfg, hcom, Chip.carbonAtFault_of_unstable hcl hcl']
      rfl
    refine ⟨_, hgo, ?_⟩
    obtain ⟨hev, hcount⟩ := (s.chip w).mismatchNoted_spec line (1 + 0x12 * bit true) ((0 ^^^ data : Line).setWidth 128)
    simp only [State.chip_mapChip_same, State.chip_mapChip_other, State.chip_mapChip_of_other]
    generalize (s.chip w).mismatchNoted _ _ _ = d at hev hcount ⊢
    obtain ⟨h1, h2⟩ := d.carbonFixed_spec line data hev
    exact ⟨h1, h2.trans (by rw [hcount]), trivial⟩
  · intro w s hup hrun hrise hpos hmin
    refine ⟨_, rfl, ?_⟩
    rw [State.chip_onUp hup, State.chip_onUp_other, if_pos (by simp [hrun, hrise, hpos])]
    obtain ⟨hget, hsvc⟩ := Chip.setHoldup_spec { s.chip w with svc := { (s.chip w).svc with risingRun := 0 } } _ hmin
    exact ⟨congrArg Svc.risingRun hsvc, hget, rfl⟩

end Sys2Proof.Machine
end

section
/-! PROOF. Snoops: answers, timeouts and the shadow entries that move (R238 to R253). -/
namespace Sys2Proof.Machine

/-- A number without one of its bits. -/
theorem testBit_sub_two_pow {p i : Nat} (h : p.testBit i = true) : (p - 2 ^ i).testBit i = false := by
  rw [Nat.testBit_eq_decide_div_mod_eq] at h ⊢
  have hsub := Nat.sub_mul_div p (2 ^ i) 1
  rw [Nat.mul_one] at hsub
  rw [hsub]
  simp only [decide_eq_true_eq, decide_eq_false_iff_not] at h ⊢
  omega

theorem ne_zero_of_testBit {p i : Nat} (h : p.testBit i = true) : p ≠ 0 := by
  rintro rfl
  simp at h

namespace Chip

variable (c : Chip)

/-! ## A chip with no access waiting -/

/-- No access waits for its turn, its snoops or its order. -/
structure Calm (c : Chip) : Prop where
  tags : c.tags = []
  ordered : c.che.ordered = []

/-- The victims whose snoops are answered leave. -/
def forgetVictims : Chip := { c with che := { c.che with victims := c.che.victims.filter fun l => c.che.snoops.any fun x => x.line == l } }

variable {c}

theorem runCommons_calm (h : Calm c) : c.runCommons = c.forgetVictims := by
  have hcalm : Calm c.forgetVictims := ⟨h.tags, h.ordered⟩
  have horder : c.forgetVictims.orderWaiting = c.forgetVictims := by
    unfold orderWaiting
    rw [hcalm.tags]
    rfl
  have hpump : ∀ d : Chip, Calm d → d.pumpOrdered 1 = d := fun d hd => by
    unfold pumpOrdered
    rw [hd.ordered]
    simp only [List.filter_nil, List.foldl_nil]
    exact if_pos (congrArg List.length hd.ordered)
  show c.forgetVictims.orderWaiting.pumpOrdered (c.forgetVictims.che.ordered.length + c.forgetVictims.tags.length + 1) = _
  rw [horder, hcalm.ordered, hcalm.tags]
  exact hpump _ hcalm

theorem forgetVictims_calm (h : Calm c) : Calm c.forgetVictims := ⟨h.tags, h.ordered⟩

theorem mapTags_calm (h : Calm c) (p : Tag → Bool) (f : Tag → Tag) : c.mapTags p f = c := by
  have ht := h.tags
  unfold mapTags
  rw [ht]
  cases c
  simp only at ht
  rw [ht]
  rfl

theorem continueTags_calm (h : Calm c) (p : Tag → Bool) (f : Chip → Tag → Chip) : c.continueTags p f = c := by
  unfold continueTags
  rw [h.tags]
  rfl

theorem runFollower_calm (h : Calm c) (he : c.che.early = []) : c.runFollower = c.forgetVictims := by
  unfold runFollower
  rw [runCommons_calm h, he]
  unfold takeEarly
  rw [show c.forgetVictims.che.early = [] from he]
  rfl

variable (c)

/-! ## The directory -/

/-- `d` keeps the accesses and the snoops of `c`. -/
structure SnoopsKept (c d : Chip) : Prop where
  tags : d.tags = c.tags
  snoops : d.che.snoops = c.che.snoops
  ordered : d.che.ordered = c.che.ordered
  early : d.che.early = c.che.early
  migrating : d.che.migrating = c.che.migrating

namespace SnoopsKept

theorem of_same {c d : Chip} (hche : d.che = c.che) (ht : d.tags = c.tags) : SnoopsKept c d :=
  ⟨ht, congrArg _ hche, congrArg _ hche, congrArg _ hche, congrArg _ hche⟩

theorem trans {c d e : Chip} (h : SnoopsKept c d) (k : SnoopsKept d e) : SnoopsKept c e :=
  ⟨k.tags.trans h.tags, k.snoops.trans h.snoops, k.ordered.trans h.ordered, k.early.trans h.early, k.migrating.trans h.migrating⟩

/-- An entry of the SRAM written. -/
theorem setSram (c : Chip) (k : Nat) (x : DirEntry) : SnoopsKept c { c with che := { c.che with sram := c.che.sram.set (fun _ => {}) k x } } :=
  ⟨rfl, rfl, rfl, rfl, rfl⟩

end SnoopsKept

theorem setShadow_spec (k : Nat) (e : DirEntry) :
    SnoopsKept c (c.setShadow k e) ∧ (c.setShadow k e).che.sram = c.che.sram ∧
      (c.setShadow k e).che.shadow = c.che.shadow.set (fun _ => {}) k (if e.state = 0 then {} else { e with way := 0 }) := by
  unfold setShadow
  generalize hd : ({ c with che := { c.che with shadow := c.che.shadow.set (fun _ => {}) k (if e.state = 0 then {} else { e with way := 0 }) } } : Chip) = d
  have hu := Upkept.mdcTouch d (c.shadowLine k) true
  generalize d.mdcTouch (c.shadowLine k) true = m at hu ⊢
  have hche := hu.che
  have hp {α : Type} (f : Che → α) : f { m.che with shadowDram := [] } = f { d.che with shadowDram := [] } := congrArg f hche
  have hs : m.che.snoops = d.che.snoops := hp Che.snoops
  have ho : m.che.ordered = d.che.ordered := hp Che.ordered
  have he : m.che.early = d.che.early := hp Che.early
  have hm : m.che.migrating = d.che.migrating := hp Che.migrating
  have hr : m.che.sram = d.che.sram := hp Che.sram
  have hw : m.che.shadow = d.che.shadow := hp Che.shadow
  subst hd
  exact ⟨⟨hu.tags, hs, ho, he, hm⟩, hr, hw⟩

/-- An entry that stands, written: it reads as written, but for its age and way. -/
theorem setDir_entry (line : Nat) (e : DirEntry) (hp : e.presence ≠ 0) (hs : e.state ≠ 0) :
    SnoopsKept c (c.setDir line e) ∧ ((c.setDir line e).dirEntry line).state = e.state ∧
      ((c.setDir line e).dirEntry line).presence = e.presence ∧ ((c.setDir line e).dirEntry line).owner = e.owner := by
  have hsram : ∀ (d : Chip) (x : DirEntry), x.state = e.state → x.presence = e.presence → x.owner = e.owner →
      d.che.sram.get (fun _ => {}) (line / 64) = x → (d.dirEntry line).state = e.state ∧ (d.dirEntry line).presence = e.presence ∧
        (d.dirEntry line).owner = e.owner := by
    intro d x h1 h2 h3 hx
    unfold dirEntry
    rw [hx]
    dsimp only
    rw [if_pos (h1.symm ▸ hs)]
    exact ⟨h1, h2, h3⟩
  have hshadow : ∀ d : Chip, d.che = c.che → d.tags = c.tags → (c.che.sram.get (fun _ => {}) (line / 64)).state = 0 →
      SnoopsKept c (d.setShadow (line / 64) { e with age := c.dirAge }) ∧
        ((d.setShadow (line / 64) { e with age := c.dirAge }).dirEntry line).state = e.state ∧
        ((d.setShadow (line / 64) { e with age := c.dirAge }).dirEntry line).presence = e.presence ∧
        ((d.setShadow (line / 64) { e with age := c.dirAge }).dirEntry line).owner = e.owner := by
    intro d hche ht h0
    obtain ⟨hk, hr, hw⟩ := d.setShadow_spec (line / 64) { e with age := c.dirAge }
    refine ⟨(SnoopsKept.of_same hche ht).trans hk, ?_⟩
    unfold dirEntry
    rw [hr, hw, hche]
    dsimp only
    rw [if_neg (not_not_intro h0), Table.get_set_same, if_neg hs]
    exact ⟨rfl, rfl, rfl⟩
  unfold setDir
  rw [if_neg hp]
  dsimp only
  generalize hd : (if ((c.dirEntry line).state = 0 && e.state != 0) = true then c.cnt K.DIR_ALLOCS
    else if ((c.dirEntry line).state != 0 && e.state == 0) = true then c.cnt K.DIR_FREES else c) = d
  have hkeep : d.che = c.che ∧ d.tags = c.tags := by
    rw [← hd]
    split
    · exact ⟨rfl, rfl⟩
    · split <;> exact ⟨rfl, rfl⟩
  obtain ⟨hche, ht⟩ := hkeep
  clear hd
  have hset : ∀ x : DirEntry, x.state = e.state → x.presence = e.presence → x.owner = e.owner →
      SnoopsKept c { d with che := { d.che with sram := d.che.sram.set (fun _ => {}) (line / 64) x } } ∧
        (dirEntry { d with che := { d.che with sram := d.che.sram.set (fun _ => {}) (line / 64) x } } line).state = e.state ∧
        (dirEntry { d with che := { d.che with sram := d.che.sram.set (fun _ => {}) (line / 64) x } } line).presence = e.presence ∧
        (dirEntry { d with che := { d.che with sram := d.che.sram.set (fun _ => {}) (line / 64) x } } line).owner = e.owner := fun x h1 h2 h3 =>
    ⟨(SnoopsKept.of_same hche ht).trans (.setSram d _ x), hsram _ x h1 h2 h3 (Table.get_set_same _ _ _ _)⟩
  by_cases h0 : (c.che.sram.get (fun _ => {}) (line / 64)).state = 0
  · rw [hche, if_neg (not_not_intro h0)]
    split
    · split
      · rw [← hche]
        exact hset _ rfl rfl rfl
      · exact hshadow d hche ht h0
    · exact hshadow d hche ht h0
  · rw [hche, if_pos h0, if_neg hs, ← hche]
    exact hset _ rfl rfl rfl

/-- An entry of the SRAM alone, written without a head: the head is not present in it. -/
theorem setDir_sram (line : Nat) (h : Fin 24) (e : DirEntry) (hsh : c.che.shadow.get (fun _ => {}) (line / 64) = {})
    (hst : (c.che.sram.get (fun _ => {}) (line / 64)).state ≠ 0) (hp : present e h = false) :
    SnoopsKept c (c.setDir line e) ∧ present ((c.setDir line e).dirEntry line) h = false := by
  unfold setDir
  dsimp only
  generalize hx : (if e.presence = 0 then ({} : DirEntry) else { e with age := c.dirAge }) = x
  have hxp : present x h = false := by
    rw [← hx]
    split
    · exact Nat.zero_testBit _
    · exact hp
  generalize hd : (if ((c.dirEntry line).state = 0 && x.state != 0) = true then c.cnt K.DIR_ALLOCS
    else if ((c.dirEntry line).state != 0 && x.state == 0) = true then c.cnt K.DIR_FREES else c) = d
  have hkeep : d.che = c.che ∧ d.tags = c.tags := by
    rw [← hd]
    split
    · exact ⟨rfl, rfl⟩
    · split <;> exact ⟨rfl, rfl⟩
  obtain ⟨hche, ht⟩ := hkeep
  clear hd
  rw [if_pos (hche.symm ▸ hst)]
  refine ⟨(SnoopsKept.of_same hche ht).trans (.setSram d _ _), ?_⟩
  generalize hy : (if x.state = 0 then ({} : DirEntry) else { x with way := (c.dirEntry line).way }) = y
  have hyp : present y h = false := by
    rw [← hy]
    split
    · exact Nat.zero_testBit _
    · exact hxp
  unfold dirEntry
  dsimp only
  rw [Table.get_set_same, hche, hsh]
  split
  · exact hyp
  · exact Nat.zero_testBit _

/-- A head taken from an entry that the SRAM alone holds. -/
theorem dirRemove_sram (line : Nat) (h : Fin 24) (hsh : c.che.shadow.get (fun _ => {}) (line / 64) = {}) :
    SnoopsKept c (c.dirRemove line h) ∧ present ((c.dirRemove line h).dirEntry line) h = false := by
  unfold dirRemove
  dsimp only
  split
  · next hp => exact ⟨⟨rfl, rfl, rfl, rfl, rfl⟩, by simpa using hp⟩
  · next hp =>
    have hpres : present (c.dirEntry line) h = true := by simpa using hp
    refine c.setDir_sram line h _ hsh (fun h0 => ?_) (testBit_sub_two_pow hpres)
    unfold dirEntry at hpres
    dsimp only at hpres
    rw [if_neg (not_not_intro h0), hsh] at hpres
    simp [present] at hpres

/-! ## A snoop answered -/

/-- The answer received: the snoop is no longer outstanding. -/
def snoopHeard (h : Fin 24) (line : Nat) : Chip :=
  { c with che := { c.che with snoops := c.che.snoops.filter fun x => !(x.line == line && x.head == h) } }.cnt K.SNP_BIRSP_RX

/-- What the entry of an answered line becomes. -/
def entryAnswered (h : Fin 24) (line kind : Nat) : Chip :=
  match kind with
  | 0 => c.dirRemove line h
  | 1 => if present (c.dirEntry line) h then c.setDir line { c.dirEntry line with state := 1, owner := 0 } else c
  | _ => if present (c.dirEntry line) h then c.setDir line { c.dirEntry line with state := 2, presence := 2 ^ h.val, owner := h.val } else c

variable {c}

theorem hearBirsp_calm {h : Fin 24} {line kind : Nat} {real : Bool} (ha : (c.che.snoops.any fun x => x.line == line && x.head == h) = true)
    (hcalm : Calm c) (he : c.che.early = []) (hk : SnoopsKept (c.snoopHeard h line) ((c.snoopHeard h line).entryAnswered h line kind)) :
    c.hearBirsp h line kind real = ((c.snoopHeard h line).entryAnswered h line kind).forgetVictims.forgetVictims := by
  have hanswer : c.answerSnoop h line kind = ((c.snoopHeard h line).entryAnswered h line kind).forgetVictims := by
    have hgo : c.answerSnoop h line kind = ((((c.snoopHeard h line).entryAnswered h line kind).mapTags (fun t => at' t .snoop && t.dpa == line) fun t =>
        { t with snoopsLeft := t.snoopsLeft.filter fun g => g != h }).continueTags
          (fun t => at' t .snoop && t.dpa == line && t.snoopsLeft.isEmpty) finishAccess).runCommons := by
      unfold answerSnoop
      rw [ha]
      rfl
    have hd : Calm ((c.snoopHeard h line).entryAnswered h line kind) := ⟨hk.tags.trans hcalm.tags, hk.ordered.trans hcalm.ordered⟩
    rw [hgo, mapTags_calm hd, continueTags_calm hd, runCommons_calm hd]
  unfold hearBirsp
  rw [if_pos ha, hanswer]
  exact runFollower_calm ⟨hk.tags.trans hcalm.tags, hk.ordered.trans hcalm.ordered⟩ (hk.early.trans he)

variable (c)

theorem hearOther_che (h : Fin 24) : (c.hearOther h).che = c.che ∧ (c.hearOther h).tags = c.tags := by
  have hrest := (c.hearFlit_heard h (((c.head h).rxCount + 1) % 2 ^ 36) none).rest
  exact ⟨(congrArg Chip.che hrest :), (congrArg Chip.tags hrest :)⟩

theorem hearOther_dirEntry (h : Fin 24) (line : Nat) : (c.hearOther h).dirEntry line = c.dirEntry line := by
  unfold dirEntry
  rw [(c.hearOther_che h).1]

theorem entryAnswered_I {h : Fin 24} {line : Nat} (hsh : c.che.shadow.get (fun _ => {}) (line / 64) = {}) :
    SnoopsKept (c.snoopHeard h line) ((c.snoopHeard h line).entryAnswered h line 0) ∧
      present (((c.snoopHeard h line).entryAnswered h line 0).dirEntry line) h = false :=
  (c.snoopHeard h line).dirRemove_sram line h hsh

theorem entryAnswered_S {h : Fin 24} {line : Nat} (hp : present (c.dirEntry line) h = true) :
    SnoopsKept (c.snoopHeard h line) ((c.snoopHeard h line).entryAnswered h line 1) ∧
      (((c.snoopHeard h line).entryAnswered h line 1).dirEntry line).state = 1 ∧
      (((c.snoopHeard h line).entryAnswered h line 1).dirEntry line).presence = (c.dirEntry line).presence := by
  have hgo : (c.snoopHeard h line).entryAnswered h line 1 = (c.snoopHeard h line).setDir line { c.dirEntry line with state := 1, owner := 0 } := if_pos hp
  rw [hgo]
  obtain ⟨hk, h1, h2, -⟩ := (c.snoopHeard h line).setDir_entry line { c.dirEntry line with state := 1, owner := 0 } (ne_zero_of_testBit hp) (by show 1 ≠ 0; decide)
  exact ⟨hk, h1, h2⟩

theorem entryAnswered_E {h : Fin 24} {line : Nat} (hp : present (c.dirEntry line) h = true) :
    SnoopsKept (c.snoopHeard h line) ((c.snoopHeard h line).entryAnswered h line 2) ∧
      (((c.snoopHeard h line).entryAnswered h line 2).dirEntry line).state = 2 ∧
      (((c.snoopHeard h line).entryAnswered h line 2).dirEntry line).owner = h.val ∧
      (((c.snoopHeard h line).entryAnswered h line 2).dirEntry line).presence = 2 ^ h.val := by
  have hgo : (c.snoopHeard h line).entryAnswered h line 2 =
      (c.snoopHeard h line).setDir line { c.dirEntry line with state := 2, presence := 2 ^ h.val, owner := h.val } := if_pos hp
  rw [hgo]
  obtain ⟨hk, h1, h2, h3⟩ := (c.snoopHeard h line).setDir_entry line { c.dirEntry line with state := 2, presence := 2 ^ h.val, owner := h.val }
    (show 2 ^ h.val ≠ 0 from Nat.ne_of_gt (Nat.two_pow_pos h.val)) (by show 2 ≠ 0; decide)
  exact ⟨hk, h1, h3, h2⟩

/-! ## A snoop that times out -/

theorem logRecord_events (h : Fin 24) (l : Nat) (r : EventRec) : EventsKept c (c.logRecord h l r) := by
  refine .trans (d := c.enterLogWith raiseBit h l r) ?_ (.post _ _)
  unfold enterLogWith
  dsimp only
  split
  · exact .trans (.setLog c h l _) (.trans (.cnt _ _ _) (.raiseBit _ _ _))
  · split
    · exact .trans (.setLog c h l _) (.cause _ _ _)
    · exact .setLog c h l _

theorem headMedia_events (h : Fin 24) (l : Nat) (form : RecForm) (page dpa : Nat) : EventsKept c (c.headMedia h l form page dpa) := by
  unfold headMedia
  split
  · exact logRecord_events c h l _
  · exact .refl c

/-! ## A shadow entry that moves -/

/-- An entry written into the SRAM. -/
def inSram (k : Nat) (x : DirEntry) : Chip := { c with che := { c.che with sram := c.che.sram.set (fun _ => {}) k x } }

theorem inSram_spec (k : Nat) (x : DirEntry) : (c.inSram k x).che.sram.get (fun _ => {}) k = x ∧ (c.inSram k x).che.shadow = c.che.shadow ∧
    (c.inSram k x).tags = c.tags ∧ (c.inSram k x).che.ordered = c.che.ordered := ⟨Table.get_set_same _ _ _ _, rfl, rfl, rfl⟩

theorem intoSram_eq {k v : Nat} {e : DirEntry} (hfree : c.freeWay (c.dirSet (k * 64)) = some v) :
    c.intoSram (k, e) = (c.setShadow k {}).inSram k { e with way := v } := by
  unfold intoSram
  extract_lets line
  split
  · next w hw =>
    obtain rfl := Option.some.inj (hw.symm.trans hfree)
    rfl
  · next hw => cases hw.symm.trans hfree

/-- The entries of a domain moved, one already in the SRAM. -/
theorem migrated_calm (z : Chip) (d : Nat) (hcalm : Calm z) :
    runCommons { z with che := { z.che with migrating := dropN z.che.migrating d } } =
      forgetVictims { z with che := { z.che with migrating := dropN z.che.migrating d } } := runCommons_calm ⟨hcalm.tags, hcalm.ordered⟩

theorem migrateShadow_spec {d k v : Nat} {e : DirEntry} (hcalm : Calm c) (hsh : c.che.shadow = [(k, e)]) (hin : c.inDomain d (k * 64) = true)
    (hfree : c.freeWay (c.dirSet (k * 64)) = some v) :
    (c.migrateShadow d).che.migrating.contains d = false ∧ (c.migrateShadow d).che.shadow.get (fun _ => {}) k = {} ∧
      (c.migrateShadow d).che.sram.get (fun _ => {}) k = { e with way := v } := by
  obtain ⟨hk, hr, hw⟩ := c.setShadow_spec k {}
  have hone : (c.che.shadow.filter fun x => c.inDomain d (x.1 * 64)) = [(k, e)] := by
    rw [hsh]
    exact List.filter_cons_of_pos (p := fun x : Nat × DirEntry => c.inDomain d (x.1 * 64)) hin
  have hmoved : (c.che.shadow.filter fun x => c.inDomain d (x.1 * 64)).foldl intoSram c = (c.setShadow k {}).inSram k { e with way := v } :=
    (congrArg (List.foldl intoSram c) hone).trans (c.intoSram_eq hfree)
  obtain ⟨hsr, hshd, hts, hord⟩ := (c.setShadow k {}).inSram_spec k { e with way := v }
  generalize (c.setShadow k {}).inSram k { e with way := v } = z at hmoved hsr hshd hts hord
  have hcalm' : Calm z := ⟨hts.trans (hk.tags.trans hcalm.tags), hord.trans (hk.ordered.trans hcalm.ordered)⟩
  have hzsh : z.che.shadow.get (fun _ => {}) k = {} := by
    rw [hshd, hw]
    exact Table.get_set_same _ _ _ _
  unfold migrateShadow
  rw [hmoved]
  extract_lets y
  rw [migrated_calm z d hcalm']
  exact ⟨contains_dropN _ _, hzsh, hsr⟩

end Chip

/-- What a BIRsp does to the home of its head. -/
theorem State.chip_birsp {s : State} {w : Twin} {h : Fin 24} (hw : s.homeOf (portOf h) = some w) (line kind : Nat) :
    (s.birsp h line kind).chip w =
      ((s.chip w).hearOther h).hearBirsp h line kind ((s.a.che.snoops ++ s.b.che.snoops).any fun x => x.line == line && x.head == h) := by
  unfold birsp
  dsimp only
  rw [State.chip_mapBoth, if_pos (State.isHome_of_homeOf hw)]

/-- An answer of a snoop on a home with no access waiting. -/
theorem State.birsp_calm {s : State} {w : Twin} {h : Fin 24} {line kind : Nat} (hw : s.homeOf (portOf h) = some w) (ht : (s.chip w).tags = [])
    (ho : (s.chip w).che.ordered = []) (he : (s.chip w).che.early = []) (ha : ((s.chip w).che.snoops.any fun x => x.line == line && x.head == h) = true)
    (hk : Chip.SnoopsKept (((s.chip w).hearOther h).snoopHeard h line) ((((s.chip w).hearOther h).snoopHeard h line).entryAnswered h line kind)) :
    ((s.birsp h line kind).chip w).che.snoops = (s.chip w).che.snoops.filter (fun x => !(x.line == line && x.head == h)) ∧
      ((s.birsp h line kind).chip w).dirEntry line = ((((s.chip w).hearOther h).snoopHeard h line).entryAnswered h line kind).dirEntry line := by
  obtain ⟨hche, htags⟩ := (s.chip w).hearOther_che h
  rw [State.chip_birsp hw, Chip.hearBirsp_calm (by rw [hche]; exact ha) ⟨htags.trans ht, (congrArg Che.ordered hche).trans ho⟩ ((congrArg Che.early hche).trans he) hk]
  refine ⟨hk.snoops.trans ?_, rfl⟩
  show ((s.chip w).hearOther h).che.snoops.filter _ = _
  rw [hche]

/-- Settles O25: with no access waiting, an answer is its line's entry and the snoop's end. -/
theorem snoopsComplete : Obligations.SnoopsComplete := by
  refine ⟨?_, ?_, ?_, ?_, ?_⟩
  · intro w h line s hw ht ho he ha hsh _
    obtain ⟨hk, hp⟩ := ((s.chip w).hearOther h).entryAnswered_I (h := h) (line := line) (by rw [((s.chip w).hearOther_che h).1]; exact hsh)
    obtain ⟨hs, hd⟩ := State.birsp_calm hw ht ho he ha hk
    exact ⟨_, rfl, hs, hd.symm ▸ hp⟩
  · intro w h line s hw ht ho he ha hp
    obtain ⟨hk, hst, hpr⟩ := ((s.chip w).hearOther h).entryAnswered_S (h := h) (line := line) (by rw [(s.chip w).hearOther_dirEntry]; exact hp)
    obtain ⟨hs, hd⟩ := State.birsp_calm hw ht ho he ha hk
    rw [(s.chip w).hearOther_dirEntry] at hpr
    exact ⟨_, rfl, hs, hd.symm ▸ hst, hd.symm ▸ hpr⟩
  · intro w h line s hw ht ho he ha hp
    obtain ⟨hk, hst, hown, hpr⟩ := ((s.chip w).hearOther h).entryAnswered_E (h := h) (line := line) (by rw [(s.chip w).hearOther_dirEntry]; exact hp)
    obtain ⟨hs, hd⟩ := State.birsp_calm hw ht ho he ha hk
    exact ⟨_, rfl, hs, hd.symm ▸ hst, hd.symm ▸ hown, hd.symm ▸ hpr⟩
  · intro w h line s ha
    refine ⟨_, rfl, ?_⟩
    rw [State.chip_mapBoth, ha, if_neg (by decide)]
    exact Chip.is_kept (Chip.headMedia_events _ _ _ _ _ _) _ rfl rfl (Chip.raise_is _ _ rfl rfl (by decide))
  · intro w d k v e s hup ht ho hmig hsh hin hfree
    refine ⟨_, rfl, ?_⟩
    rw [State.chip_onUp hup, State.chip_onUp_other, if_pos hmig]
    obtain ⟨h1, h2, h3⟩ := (s.chip w).migrateShadow_spec ⟨ht, ho⟩ hsh hin hfree
    exact ⟨h1, h2, h3, rfl⟩

end Sys2Proof.Machine
end

section
/-! PROOF. Drains of the WMB: eligible, issued, landed; and the local stall (R127 to R134). -/
namespace Sys2Proof.Machine

/-! ## The bytes of a line written whole -/

theorem setAll_concat {V : Type} [DecidableEq V] (d : Nat → V) (xs : List (Nat × V)) (x : Nat × V) : ∀ t : Table V,
    Table.setAll d t (xs ++ [x]) = Table.set d (Table.setAll d t xs) x.1 x.2 := by
  induction xs with
  | nil => exact fun t => rfl
  | cons y ys ih => exact fun t => ih _

/-- Of a run of bytes written at `a`, each reads as it was written. -/
theorem get_setAll_run {V : Type} [DecidableEq V] (d : Nat → V) (a : Nat) (g : Nat → V) (t : Table V) (n i : Nat) (hi : i < n) :
    Table.get d (Table.setAll d t ((List.range n).map fun j => (a + j, g j))) (a + i) = g i := by
  induction n with
  | zero => omega
  | succ n ih =>
    rw [List.range_succ, List.map_append]
    show Table.get d (Table.setAll d t (_ ++ [(a + n, g n)])) (a + i) = g i
    rw [setAll_concat]
    by_cases h : i = n
    · subst h
      exact Table.get_set_same _ _ _ _
    · exact (Table.get_set_ne _ _ _ _ _ (show a + i ≠ a + n by omega)).trans (ih (by omega))

theorem get_writeLine_whole (t : List Host.Cell) (a : Nat) (l : Line) (i : Fin 64) :
    Table.get zeroByte (writeLine t a l allBytes) (a + i.val) = byteOf l i.val := by
  have hall : ((List.range 64).filter fun j => allBytes.getLsbD j) = List.range 64 :=
    List.filter_eq_self.mpr fun j hj => by
      have := List.mem_range.mp hj
      exact (BitVec.getLsbD_allOnes).trans (decide_eq_true this)
  unfold writeLine
  rw [hall]
  exact get_setAll_run zeroByte a (byteOf l) t 64 i.val i.isLt

namespace Chip

/-! ## What a drain leaves as it was -/

/-- `d` keeps the tiers and the WMB of `c`. -/
structure WmbKept (c d : Chip) : Prop where
  trm : d.trm = c.trm
  wmb : d.wmb = c.wmb

namespace WmbKept

theorem refl (c : Chip) : WmbKept c c := ⟨rfl, rfl⟩

theorem trans {c d e : Chip} (h : WmbKept c d) (k : WmbKept d e) : WmbKept c e := ⟨k.trm.trans h.trm, k.wmb.trans h.wmb⟩

/-- Steps put together from the last. -/
theorem after {c d e : Chip} (k : WmbKept d e) (h : WmbKept c d) : WmbKept c e := h.trans k

theorem of_rest {c d : Chip} (h : d.rest = c.rest) : WmbKept c d := ⟨(congrArg Chip.trm h :), (congrArg Chip.wmb h :)⟩

theorem cnt (c : Chip) (k : Ctr) (n : Nat) : WmbKept c (c.cnt k n) := ⟨rfl, rfl⟩

theorem mapChan (c : Chip) (d : Nat) (f : Chan → Chan) : WmbKept c (c.mapChan d f) := ⟨rfl, rfl⟩

theorem activated (c : Chip) (p : DramPlace) : WmbKept c (c.activated p) := by
  unfold Chip.activated
  dsimp only
  split
  · exact refl c
  · split
    · exact mapChan c _ _
    · exact after (cnt _ _ _) (after (mapChan _ _ _) (mapChan c _ _))

theorem accessRow (c : Chip) (x : Nat) (write : Bool) : WmbKept c (c.accessRow x write) := by
  unfold Chip.accessRow
  extract_lets p b hit closes predict n auto c1 c2 c3 c4
  have h2 : WmbKept c1 c2 := by
    unfold c2
    split
    · exact cnt _ _ _
    · split
      · exact cnt _ _ _
      · exact refl _
  have h3 : WmbKept c2 c3 := by
    unfold c3
    split
    · exact cnt _ _ _
    · exact refl _
  have h4 : WmbKept c c4 := (cnt c _ _).trans (h2.trans (h3.trans (mapChan _ _ _)))
  split
  · exact h4
  · exact h4.trans (activated _ _)

theorem writePair (c : Chip) (line : Nat) : WmbKept c (c.writePair line) := by
  unfold Chip.writePair
  dsimp only
  split
  · exact mapChan c _ _
  · split
    · exact after (mapChan _ _ _) (after (cnt _ _ _) (accessRow c _ _))
    · exact after (cnt _ _ _) (after (cnt _ _ _) (after (accessRow _ _ _) (accessRow c _ _)))

theorem setTokens (c : Chip) (d : Nat) (k : Client) (n : Nat) : WmbKept c (c.setTokens d k n) := mapChan c d _

theorem meetChannel (c : Chip) (d : Nat) : WmbKept c (c.meetChannel d) := by
  unfold Chip.meetChannel
  split
  · exact .of_rest ((raise_rest _ _).trans ((cnt_rest _ _ _).trans (put_rest _ _ _)))
  · split
    · exact .of_rest (put_rest _ _ _)
    · exact refl c

theorem issueDrain (c : Chip) (line : Nat) : WmbKept c (c.issueDrain line) := by
  unfold Chip.issueDrain
  dsimp only
  refine after ?_ (meetChannel c (c.place (c.dramAddr line)).ch)
  split
  · exact refl _
  · split
    · exact setTokens _ _ _ _
    · split
      · exact setTokens _ _ _ _
      · exact cnt _ _ _

end WmbKept

variable (c : Chip)

theorem sendDrainWm_rest (h : Fin 24) : (c.sendDrainWm h).rest = c.rest := by
  unfold sendDrainWm
  split
  · rfl
  · split
    · rfl
    · exact (mapHead_rest _ _ _).trans (post_rest _ _)

theorem releaseHere_wmb (line : Nat) : (c.releaseHere line).wmb = c.wmb := by
  unfold releaseHere
  dsimp only
  split
  · rfl
  · split
    · split <;> rfl
    · exact (congrArg Chip.wmb (sendDrainWm_rest _ _) :).trans rfl

theorem wmbEntry_setWmb_same (line : Nat) (e : WmbEntry) : (c.setWmb line e).wmbEntry line = e := Table.get_set_same _ _ _ _

theorem wmbEntry_setWmb_ne (line l : Nat) (e : WmbEntry) (h : l / 64 ≠ line / 64) : (c.setWmb line e).wmbEntry l = c.wmbEntry l :=
  Table.get_set_ne _ _ _ _ _ h

variable {c} in
theorem wmbEntry_congr {d : Chip} (h : d.wmb = c.wmb) (l : Nat) : d.wmbEntry l = c.wmbEntry l := congrArg (fun t : Table WmbEntry => t.get (fun _ => {}) (l / 64)) h

/-! ## A line lands in its frame -/

theorem healLine_keeps (dpa : Nat) (poison : Bool) :
    (c.healLine dpa poison).landsAsPatch dpa = c.landsAsPatch dpa ∧ (c.healLine dpa poison).wmb = c.wmb ∧
      (c.healLine dpa poison).trm.front = c.trm.front := by
  unfold healLine
  split <;> exact ⟨rfl, rfl, rfl⟩

theorem setDirty_wmb (p : Nat) (on : Bool) : (c.setDirty p on).wmb = c.wmb := by
  have ht : ∀ (e : Chip) (line : Nat), (e.mdcTouch line true).wmb = e.wmb := fun e line => by
    obtain ⟨-, -, -, -, -, hw, -⟩ := (Upkept.mdcTouch e line true).parts
    exact hw
  have hbits : ∀ d old : Chip, (d.mapBits old p).wmb = d.wmb := fun d old => by
    unfold mapBits
    dsimp only
    split <;> split
    · rfl
    · exact ht _ _
    · exact (ht _ _).trans (ht _ _)
    · exact (ht _ _).trans ((ht _ _).trans (ht _ _))
  unfold setDirty
  split
  · rfl
  · dsimp only
    split
    · exact (hbits _ _).trans (ht _ _)
    · rfl

theorem storeFront_spec (dpa : Nat) (l : Line) (poison : Bool) :
    (c.storeFront dpa l poison).mem = { c.mem with front := writeLine c.trm.front (lineBase dpa) l allBytes } ∧ (c.storeFront dpa l poison).wmb = c.wmb := by
  unfold storeFront
  exact ⟨setDirty_mem _ _ _, setDirty_wmb _ _ _⟩

theorem landPatched_rest (line : Nat) (low : Bool) : (c.landPatched line false low).rest = c.rest := by
  show (if !low && c.patchLow then c.raise F.PCH_EV_PATCH_LOW else c).rest = c.rest
  split
  · exact raise_rest _ _
  · rfl

variable {c} in
/-- A line that lands in its frame: the frame holds it, merged, and nothing else of the memories or the WMB changes. -/
theorem landLine_front {line : Nat} {e : WmbEntry} {bad : BitVec 20} (hp : c.landsAsPatch line = false)
    (hm : c.mergesDram line e = true → (c.decode (c.dramAddr line) bad).1 = .good) :
    (c.landLine line e bad).mem = { c.mem with front := writeLine c.trm.front (lineBase line) (mergeLine (c.tierLine line).1 e.issued e.issuedMask) allBytes } ∧
      (c.landLine line e bad).wmb = c.wmb := by
  have hread : (if c.mergesDram line e then c.readLineErrors line bad false else c) = c := by
    split
    · next h =>
      have hgood := hm h
      unfold readLineErrors
      dsimp only
      split
      · rfl
      all_goals next hd => rw [hd] at hgood; cases hgood
    · rfl
  have hk := WmbKept.writePair c line
  have hmem := writePair_mem c line
  unfold landLine
  rw [hread]
  dsimp only
  rw [hp]
  generalize c.writePair line = d at hk hmem ⊢
  have hland : ∀ poison : Bool, (d.healLine line poison).landsAsPatch line = false := fun poison => by
    rw [(d.healLine_keeps line poison).1]
    unfold landsAsPatch ext stepDone at hp ⊢
    rw [hk.trm]
    exact hp
  have hstore : ∀ (l : Line) (poison : Bool), (d.storeLine line l poison).mem = { c.mem with front := writeLine c.trm.front (lineBase line) l allBytes } ∧
      (d.storeLine line l poison).wmb = c.wmb := fun l poison => by
    obtain ⟨h1, h2⟩ := (d.healLine line poison).storeFront_spec line l poison
    unfold storeLine
    dsimp only
    rw [hland poison, if_neg (by decide), h1, h2, healLine_mem, (d.healLine_keeps line poison).2.1, hmem, hk.wmb]
    refine ⟨?_, rfl⟩
    rw [(d.healLine_keeps line poison).2.2, hk.trm]
  have hrest := landPatched_rest (d.storeLine line (mergeLine (c.tierLine line).1 e.issued e.issuedMask)
    (e.issuedPoison || ((c.tierLine line).2 && !e.issuedWhole))) line d.patchLow
  exact ⟨(landPatched_mem _ _ _ _).trans (hstore _ _).1, (congrArg Chip.wmb hrest :).trans (hstore _ _).2⟩

variable {c} in
/-- A drain that lands in a frame, not written again: its entry is free. -/
theorem drainLands_front {line : Nat} {e : WmbEntry} {bad : BitVec 20} (hre : e.redrain = false) (hline : lineBase line = line) (hp : c.landsAsPatch line = false)
    (hm : c.mergesDram line e = true → (c.decode (c.dramAddr line) bad).1 = .good) :
    (c.drainLands line e bad).mem = { c.mem with front := writeLine c.trm.front line (mergeLine (c.tierLine line).1 e.issued e.issuedMask) allBytes } ∧
      (c.drainLands line e bad).wmbEntry line = {} := by
  obtain ⟨hmem, hwmb⟩ := landLine_front hp hm
  unfold drainLands
  rw [hre, hline]
  rw [hline] at hmem
  dsimp only
  rw [if_neg (by decide)]
  generalize c.landLine line e bad = d at hmem hwmb ⊢
  refine ⟨(releaseHere_mem _ _).trans ((setWmb_mem _ _ _).trans ((cnt_mem _ _ _).trans hmem)), ?_⟩
  exact (wmbEntry_congr (releaseHere_wmb _ _) line).trans (wmbEntry_setWmb_same _ _ _)

end Chip

/-- None of the bars of a stall stands. -/
theorem not_any_barred {m h o k : Bool} (hm : m = true) (hh : h = true) (ho : o = true) (hk : k = false) : ¬(!m || !h || !o || k) = true := by
  rw [hm, hh, ho, hk]
  decide

/-- Settles O27: each step by the branch that the hypotheses name. -/
theorem drainsComplete : Obligations.DrainsComplete := by
  refine ⟨?_, ?_, ?_, ?_⟩
  · intro w line s hup hv
    refine ⟨_, rfl, ?_⟩
    simp only [State.chip_onUp hup, State.chip_onUp_other, if_pos hv, and_true]
    exact ⟨Chip.wmbEntry_setWmb_same _ _ _, fun l hl => Chip.wmbEntry_setWmb_ne _ _ _ _ hl⟩
  · intro w line s hup hv hel hheld htakes hready hpatch hgov hold hdram hmay
    refine ⟨_, rfl, ?_⟩
    have hk := Chip.WmbKept.issueDrain (s.chip w) line
    rw [State.chip_onUp hup, State.chip_onUp_other]
    dsimp only
    rw [if_neg (by simp [hv, hel, hheld, htakes]), if_neg (by simp [hready]), if_neg (by simp [hpatch]), if_neg (by simp [hgov]),
      if_neg (by simp [hold, hdram]), if_neg (by rw [← Bool.not_or, hmay]; decide), Chip.wmbEntry_setWmb_same]
    exact ⟨rfl, rfl, rfl, fun l hl => (Chip.wmbEntry_setWmb_ne _ _ _ _ hl).trans (Chip.wmbEntry_congr hk.wmb l), rfl⟩
  · intro w line s hup hline hst hre hp hrep hm
    have hline' : lineBase line = line := by
      unfold lineBase
      omega
    have hno : ((((s.chip w).decode ((s.chip w).dramAddr line) 0).1 == .uncorrectable || (s.chip w).trm.repairDue.contains line) &&
        (s.chip w).mergesDram line ((s.chip w).wmbEntry line)) = false := by
      cases hmd : (s.chip w).mergesDram line ((s.chip w).wmbEntry line) with
      | false => exact Bool.and_false _
      | true =>
        obtain ⟨hdue, hgood⟩ := hm hmd
        rw [hdue, hgood]
        rfl
    refine ⟨_, rfl, ?_⟩
    rw [State.chip_onUp hup, State.chip_onUp_other, hline']
    dsimp only
    rw [if_neg (by simp [hst, hrep]), if_neg (by rw [hno]; decide)]
    obtain ⟨hmem, hentry⟩ := Chip.drainLands_front (c := { s.chip w with trm := { (s.chip w).trm with repairDue := dropN (s.chip w).trm.repairDue line } })
      (line := line) (e := (s.chip w).wmbEntry line) (bad := 0) hre hline' hp fun h => (hm h).2
    generalize Chip.drainLands _ _ _ _ = z at hmem hentry ⊢
    have hfront : z.trm.front = writeLine (s.chip w).trm.front line
        (mergeLine ((s.chip w).tierLine line).1 ((s.chip w).wmbEntry line).issued ((s.chip w).wmbEntry line).issuedMask) allBytes := congrArg Stores.front hmem
    refine ⟨hentry, fun i => ?_, fun a ha => ?_, congrArg Stores.packed hmem, congrArg Stores.patch hmem, congrArg Stores.dram hmem, rfl⟩
    · rw [hfront]
      exact get_writeLine_whole _ _ _ _
    · rw [hfront]
      exact writeLine_get_ne _ _ _ _ _ ha
  · intro w p s hup hmir hhome hopen hstall
    obtain ⟨t, ht, hown, hoth⟩ : ∃ t, exec (.localStall w p) s = .next t ∧
        t.chip w = ({ s.chip w with localStall := p.val :: (s.chip w).localStall }.cnt K.WMB_LOCAL_STALLS).raise F.WMB_EV_LOCAL_STALL ∧
        t.chip w.other = s.chip w.other :=
      ⟨_, rfl, (State.chip_onUp hup _).trans (if_neg (not_any_barred hmir hhome hopen hstall)), State.chip_onUp_other _ _ _⟩
    refine ⟨t, ht, ?_⟩
    rw [hown, hoth]
    exact ⟨(congrArg Chip.localStall (Chip.raise_rest _ _) :), Chip.raise_is _ _ rfl rfl (by decide), rfl⟩

end Sys2Proof.Machine
end

section
/-! PROOF. The Coxia Link: losses, lanes, training and keys (R163 to R173). -/
namespace Sys2Proof.Machine

namespace Chip

variable (c : Chip)

/-! ## The link falls -/

/-- Reads of the peer that fail are answered: no word and nothing of the link but what it asked for changes. -/
theorem failReads_keeps (p : Requester × Nat × Nat → Bool) : (c.failReads p).regs = c.regs ∧
    (c.failReads p).link = { c.link with asked := c.link.asked.filter fun x => !p x } := by
  have hfold : ∀ (l : List (Requester × Nat × Nat)) (d : Chip), (l.foldl failRead d).regs = d.regs ∧ (l.foldl failRead d).link = d.link := by
    intro l
    induction l with
    | nil => exact fun d => ⟨rfl, rfl⟩
    | cons x l ih => exact fun d => ih _
  exact hfold _ _

theorem get_of_regs {c d : Chip} (h : d.regs = c.regs) (f : Fld) : d.get f = c.get f := by
  unfold get rd
  rw [h]

theorem get_failReads (p : Requester × Nat × Nat → Bool) (f : Fld) : (c.failReads p).get f = c.get f := get_of_regs (c.failReads_keeps p).1 f

/-- The link's state noted DOWN, with its event where it was up. -/
def linkLost : Chip := if c.linkUp then ((c.put F.CXK_LINK_STATE 0).cnt K.CXK_LINK_DOWNS).raise F.CXK_EV_LINK_DOWN else c.put F.CXK_LINK_STATE 0

theorem linkLost_state : c.linkLost.get F.CXK_LINK_STATE = 0 := by
  have hput : (c.put F.CXK_LINK_STATE 0).get F.CXK_LINK_STATE = 0 := (get_put_same c F.CXK_LINK_STATE 0 (by decide)).trans (Nat.zero_mod _)
  unfold linkLost
  split
  · rw [get_raise _ _ F.CXK_LINK_STATE (by decide)]
    exact hput
  · exact hput

/-- `d` keeps the words of the lanes, and the retired lanes with them. -/
def LanesKept (c d : Chip) : Prop := ∀ j, j < 18 → d.rd 0x081 (0x800 + 0x4 * j) = c.rd 0x081 (0x800 + 0x4 * j)

namespace LanesKept

theorem refl (c : Chip) : LanesKept c c := fun _ _ => rfl

theorem trans {c d e : Chip} (h : LanesKept c d) (k : LanesKept d e) : LanesKept c e := fun j hj => (k j hj).trans (h j hj)

/-- Steps put together from the last. -/
theorem after {c d e : Chip} (k : LanesKept d e) (h : LanesKept c d) : LanesKept c e := h.trans k

theorem of_regs {c d : Chip} (h : d.regs = c.regs) : LanesKept c d := fun j _ => by
  unfold rd
  rw [h]

theorem quiet_lane (j : Nat) (hj : j < 18) : quietReg 0x081 (0x800 + 0x4 * j) = true := by
  simp [quietReg]
  omega

theorem of_quiet {c d : Chip} (h : d.quiet = c.quiet) : LanesKept c d := fun j hj => rd_of_quiet h _ _ (quiet_lane j hj)

theorem put (c : Chip) (f : Fld) (v : Nat) (hp : f.page ≠ 0x081) (ho : f.off < 4096) : LanesKept c (c.put f v) := fun j hj =>
  rd_put_ne c f v _ _ fun h => hp (regKey_inj (show 0x800 + 0x4 * j < 4096 by omega) ho h).1.symm

theorem raise (c : Chip) (f : Fld) : LanesKept c (c.raise f) := of_quiet (raise_quiet c f)

theorem cnt (c : Chip) (k : Ctr) (n : Nat) : LanesKept c (c.cnt k n) := of_regs rfl

theorem keepOwnRound (c : Chip) : LanesKept c c.keepOwnRound := (put c _ _ (by decide) (by decide)).trans (put _ _ _ (by decide) (by decide))

theorem fallLink (c : Chip) : LanesKept c c.fallLink := by
  have hlost : LanesKept c c.linkLost := by
    unfold linkLost
    split
    · exact after (raise _ _) (after (cnt _ _ _) (put c _ _ (by decide) (by decide)))
    · exact put c _ _ (by decide) (by decide)
  exact after (of_regs (failReads_keeps _ _).1) (after (keepOwnRound _) hlost)

theorem showLanes (c : Chip) : LanesKept c c.showLanes := by
  unfold Chip.showLanes
  extract_lets ls bits d
  have hd : LanesKept c d := (put c _ _ (by decide) (by decide)).trans ((put _ _ _ (by decide) (by decide)).trans (put _ _ _ (by decide) (by decide)))
  refine hd.trans ?_
  split
  · exact refl d
  · split
    · exact fallLink d
    · split
      · exact put d _ _ (by decide) (by decide)
      · exact (put d _ _ (by decide) (by decide)).trans (raise _ _)

theorem drew (c : Chip) (kind location : Nat) (last : Bool) : LanesKept c (c.drew kind location last) := fun j hj =>
  (drew_upkept c kind location last).words _ _ (quiet_lane j hj) (by decide)

theorem lanesInUse {c d : Chip} (h : LanesKept c d) : d.lanesInUse = c.lanesInUse := by
  unfold Chip.lanesInUse
  refine List.filter_congr fun j hj => ?_
  unfold is get
  rw [h j (List.mem_range.mp hj)]

end LanesKept

/-- A link that falls is DOWN, with nothing known of its peer's tags. -/
theorem fallLink_spec : c.fallLink.get F.CXK_LINK_STATE = 0 ∧ c.fallLink.link.authRun = 0 := by
  have hgo : c.fallLink = failReads { c.linkLost.keepOwnRound with
      link := { c.linkLost.keepOwnRound.link with authRun := 0, nakNext := false, sparing := [] }
      twe := { c.linkLost.keepOwnRound.twe with lastHb := none, hbSeen := false } } fun _ => true := rfl
  have hst := c.linkLost_state
  generalize c.linkLost = d at hgo hst
  rw [hgo, (failReads_keeps _ _).2, get_failReads]
  refine ⟨?_, rfl⟩
  have hkeep : d.keepOwnRound.get F.CXK_LINK_STATE = 0 := by
    unfold keepOwnRound
    rw [get_put_ne _ F.CLK_ALIGN_STATE_KEEPER F.CXK_LINK_STATE 0 (by decide), get_put_ne d F.CLK_ALIGN_STATE_STATE F.CXK_LINK_STATE 0 (by decide)]
    exact hst
  exact (get_of_regs rfl _).trans hkeep

/-! ## The link comes up -/

theorem linkUp_of_state {n : Nat} (h : c.get F.CXK_LINK_STATE = n) (hn : n = 2 ∨ n = 3) : c.linkUp = true := by
  unfold linkUp
  rw [h]
  rcases hn with rfl | rfl <;> rfl

/-- Lanes shown of a link that is up with enough of them: it stays up, its sequences as they were. -/
theorem showLanes_up (hup : c.get F.CXK_LINK_STATE = 2) (hmin : c.cfg F.CXK_CXK_CFG_MIN_LANES ≤ c.lanesInUse.length) :
    c.showLanes.linkUp = true ∧ c.showLanes.link.rxSeq = c.link.rxSeq := by
  unfold showLanes
  extract_lets ls bits d
  have hd : d.get F.CXK_LINK_STATE = 2 := by
    unfold d
    rw [get_put_ne _ F.CXK_LANES_FAILED F.CXK_LINK_STATE _ (by decide), get_put_ne _ F.CXK_LANES_ACTIVE F.CXK_LINK_STATE _ (by decide)]
    exact (get_put_apart c F.CXK_LINK_LANES F.CXK_LINK_STATE _ (by decide) rfl rfl (by decide)).trans hup
  have hcfg : ¬ ls.length < d.cfg F.CXK_CXK_CFG_MIN_LANES := Nat.not_lt.mpr hmin
  have hlink : d.link = c.link := rfl
  clear_value d
  rw [linkUp_of_state d hd (.inl rfl), if_neg (by decide), if_neg hcfg]
  split
  · exact ⟨linkUp_of_state _ (get_put_same d F.CXK_LINK_STATE 2 (by decide)) (.inl rfl), congrArg Link.rxSeq hlink⟩
  · refine ⟨linkUp_of_state _ ((get_raise _ _ F.CXK_LINK_STATE (by decide)).trans (get_put_same d F.CXK_LINK_STATE 3 (by decide))) (.inr rfl), ?_⟩
    exact (congrArg (fun k : Quiet => k.link.rxSeq) (raise_quiet (d.put F.CXK_LINK_STATE 3) F.CXK_EV_DEGRADED) :).trans
      (show d.link.rxSeq = c.link.rxSeq from congrArg Link.rxSeq hlink)

/-- A link as trained: UP, its lanes shown. -/
def linkTrained (delayNs : Nat) : Chip :=
  (({ c with
      link := { c.link with rxSeq := 0, nakNext := false, authRun := 0, sparing := [] }
      twe := { c.twe with peerFrame := none, peerSlots := [], lastHb := none } }.put F.CXK_LINK_STATE 2).put F.CXK_DELAY_NS delayNs).showLanes.raise F.CXK_EV_LINK_UP

theorem linkTrained_spec (delayNs : Nat) (hmin : c.cfg F.CXK_CXK_CFG_MIN_LANES ≤ c.lanesInUse.length) :
    (c.linkTrained delayNs).linkUp = true ∧ (c.linkTrained delayNs).is F.CXK_EV_LINK_UP = true ∧ (c.linkTrained delayNs).link.rxSeq = 0 := by
  unfold linkTrained
  generalize hd : ({ c with
      link := { c.link with rxSeq := 0, nakNext := false, authRun := 0, sparing := [] }
      twe := { c.twe with peerFrame := none, peerSlots := [], lastHb := none } } : Chip) = d
  have hdl : d.cfg F.CXK_CXK_CFG_MIN_LANES ≤ d.lanesInUse.length := by
    rw [← hd]
    exact hmin
  have hrx : d.link.rxSeq = 0 := by rw [← hd]
  clear hd
  have hst : ((d.put F.CXK_LINK_STATE 2).put F.CXK_DELAY_NS delayNs).get F.CXK_LINK_STATE = 2 := by
    rw [get_put_ne _ F.CXK_DELAY_NS F.CXK_LINK_STATE _ (by decide)]
    exact get_put_same d F.CXK_LINK_STATE 2 (by decide)
  have hlanes : LanesKept d ((d.put F.CXK_LINK_STATE 2).put F.CXK_DELAY_NS delayNs) :=
    (LanesKept.put d _ _ (by decide) (by decide)).trans (LanesKept.put _ _ _ (by decide) (by decide))
  obtain ⟨hup, hseq⟩ := showLanes_up ((d.put F.CXK_LINK_STATE 2).put F.CXK_DELAY_NS delayNs) hst (by
    rw [hlanes.lanesInUse]
    exact hdl)
  have hseq' := hseq.trans hrx
  generalize ((d.put F.CXK_LINK_STATE 2).put F.CXK_DELAY_NS delayNs).showLanes = e at hup hseq'
  refine ⟨?_, raise_is _ _ rfl rfl (by decide), (congrArg (fun k : Quiet => k.link.rxSeq) (raise_quiet e F.CXK_EV_LINK_UP) :).trans hseq'⟩
  unfold linkUp at hup ⊢
  rw [get_raise e _ F.CXK_LINK_STATE (by decide)]
  exact hup

/-- The keys of a link that has been trained: their first epoch. -/
def keysFresh : Chip := { c with link := { c.link with count := c.link.seq, rekeyAt := none } }.put F.CXK_KEY_EPOCH 1

theorem keysFresh_epoch : c.keysFresh.get F.CXK_KEY_EPOCH = 1 :=
  (get_put_same _ F.CXK_KEY_EPOCH 1 (by decide)).trans (show 1 % 2 ^ 32 = 1 by decide)

theorem keysFresh_keeps : c.keysFresh.linkUp = c.linkUp ∧ EventsKept c c.keysFresh ∧ c.keysFresh.link.rxSeq = c.link.rxSeq ∧
    c.keysFresh.link.seq = c.link.seq ∧ c.keysFresh.link.replay = c.link.replay := by
  refine ⟨?_, .trans (.of_regs rfl) (.put _ _ _ (by decide) (by decide)), rfl, rfl, rfl⟩
  unfold linkUp
  rw [show c.keysFresh.get F.CXK_LINK_STATE = c.get F.CXK_LINK_STATE from get_put_ne _ F.CXK_KEY_EPOCH F.CXK_LINK_STATE 1 (by decide)]

/-! ## Lanes -/

theorem lanesTrained_applied (locked : BitVec 18) : (c.lanesTrained locked).applied = c.applied := by
  have hfold : ∀ (use l : List Nat) (d : Chip), (l.foldl (fun c l => (c.put (F.CXLANE_LANE_LOCK l) (bit (locked.getLsbD l))).put (F.CXLANE_LANE_IN_USE l)
      (bit (use.contains l))) d).applied = d.applied := by
    intro use l
    induction l with
    | nil => exact fun d => rfl
    | cons x l ih => exact fun d => ih _
  exact hfold _ _ c

theorem is_lane {c d : Chip} (h : LanesKept c d) (l : Fin 18) : d.is (F.CXLANE_LANE_LOCK l.val) = c.is (F.CXLANE_LANE_LOCK l.val) ∧
    d.is (F.CXLANE_LANE_IN_USE l.val) = c.is (F.CXLANE_LANE_IN_USE l.val) ∧ d.is (F.CXLANE_LANE_RETIRED l.val) = c.is (F.CXLANE_LANE_RETIRED l.val) := by
  unfold is get
  rw [h l.val l.isLt]
  exact ⟨rfl, rfl, rfl⟩

/-- A lane retired keeps its lock bit and is out of use. -/
theorem laneRetired_spec (l : Nat) : ((c.put (F.CXLANE_LANE_RETIRED l) 1).put (F.CXLANE_LANE_IN_USE l) 0).is (F.CXLANE_LANE_LOCK l) = c.is (F.CXLANE_LANE_LOCK l) ∧
    ((c.put (F.CXLANE_LANE_RETIRED l) 1).put (F.CXLANE_LANE_IN_USE l) 0).is (F.CXLANE_LANE_IN_USE l) = false := by
  have hput : ∀ (d : Chip) (f : Fld) (v : Nat), f.page = 0x081 → f.off = 0x800 + 0x4 * l → 1 ≤ f.lo → f.lo + f.width ≤ 32 →
      (d.put f v).is (F.CXLANE_LANE_LOCK l) = d.is (F.CXLANE_LANE_LOCK l) := fun d f v hp ho hlo hw => by
    unfold is
    rw [get_put_apart d f (F.CXLANE_LANE_LOCK l) v hw hp.symm ho.symm (.inl hlo)]
  refine ⟨?_, ?_⟩
  · rw [hput _ (F.CXLANE_LANE_IN_USE l) 0 rfl rfl (by show 1 ≤ 1; decide) (by show 1 + 1 ≤ 32; decide),
      hput _ (F.CXLANE_LANE_RETIRED l) 1 rfl rfl (by show 1 ≤ 2; decide) (by show 2 + 1 ≤ 32; decide)]
  · exact is_put_bit _ (F.CXLANE_LANE_IN_USE l) false (by show 1 + 1 ≤ 32; decide) rfl

/-- A lane that is out of use and has lost its lock stays so as it is replaced. -/
theorem replaceLane_spec (l : Fin 18) (hlock : c.is (F.CXLANE_LANE_LOCK l.val) = false) (huse : c.is (F.CXLANE_LANE_IN_USE l.val) = false) :
    (c.replaceLane l.val).is (F.CXLANE_LANE_LOCK l.val) = false ∧ (c.replaceLane l.val).is (F.CXLANE_LANE_IN_USE l.val) = false := by
  have hkept : ∀ {d : Chip}, LanesKept c d → d.is (F.CXLANE_LANE_LOCK l.val) = false ∧ d.is (F.CXLANE_LANE_IN_USE l.val) = false := fun h =>
    ⟨(is_lane h l).1.trans hlock, (is_lane h l).2.1.trans huse⟩
  unfold replaceLane
  split
  · exact ⟨hlock, huse⟩
  · split
    · obtain ⟨h1, h2⟩ := c.laneRetired_spec l.val
      have hs := LanesKept.showLanes ((c.put (F.CXLANE_LANE_RETIRED l.val) 1).put (F.CXLANE_LANE_IN_USE l.val) 0)
      exact ⟨(is_lane hs l).1.trans (h1.trans hlock), (is_lane hs l).2.1.trans h2⟩
    · exact hkept (.after (.of_quiet (send_quiet _ _)) (.after (.drew _ _ _ _) (.after (.put _ _ _ (by decide) (by decide)) (.of_regs (c := c) rfl))))

/-- A lane without lock. -/
theorem lockLost_spec (l : Fin 18) : ((c.put (F.CXLANE_LANE_LOCK l.val) 0).cnt (K.CXLANE_LOCK_LOSS l.val)).is (F.CXLANE_LANE_LOCK l.val) = false ∧
    ((((c.put (F.CXLANE_LANE_LOCK l.val) 0).cnt (K.CXLANE_LOCK_LOSS l.val)).put (F.CXLANE_LANE_IN_USE l.val) 0).is (F.CXLANE_LANE_LOCK l.val) = false ∧
      (((c.put (F.CXLANE_LANE_LOCK l.val) 0).cnt (K.CXLANE_LOCK_LOSS l.val)).put (F.CXLANE_LANE_IN_USE l.val) 0).is (F.CXLANE_LANE_IN_USE l.val) = false) := by
  have hlock : ((c.put (F.CXLANE_LANE_LOCK l.val) 0).cnt (K.CXLANE_LOCK_LOSS l.val)).is (F.CXLANE_LANE_LOCK l.val) = false :=
    is_put_bit c (F.CXLANE_LANE_LOCK l.val) false (by show 0 + 1 ≤ 32; decide) rfl
  generalize (c.put (F.CXLANE_LANE_LOCK l.val) 0).cnt (K.CXLANE_LOCK_LOSS l.val) = d at hlock
  refine ⟨hlock, ?_, is_put_bit d (F.CXLANE_LANE_IN_USE l.val) false (by show 1 + 1 ≤ 32; decide) rfl⟩
  unfold is at hlock ⊢
  rw [get_put_apart d (F.CXLANE_LANE_IN_USE l.val) (F.CXLANE_LANE_LOCK l.val) 0 (by show 1 + 1 ≤ 32; decide) rfl rfl (.inl (by show 0 + 1 ≤ 1; decide))]
  exact hlock

/-- A spare in a lane's place. -/
def laneSwapped (l n : Nat) : Chip :=
  ((((((c.put (F.CXLANE_LANE_IN_USE l) 0).put (F.CXLANE_LANE_RETIRED l) 1).put (F.CXLANE_LANE_IN_USE n) 1).showLanes).cnt K.CXK_LANE_SPARES).raise
    F.CXK_EV_LANE_SPARED)

theorem laneSwapped_spec (l n : Fin 18) (hne : l ≠ n) :
    (c.laneSwapped l.val n.val).is (F.CXLANE_LANE_RETIRED l.val) = true ∧ (c.laneSwapped l.val n.val).is (F.CXLANE_LANE_IN_USE l.val) = false ∧
      (c.laneSwapped l.val n.val).is (F.CXLANE_LANE_IN_USE n.val) = true := by
  have hput : LanesKept (((c.put (F.CXLANE_LANE_IN_USE l.val) 0).put (F.CXLANE_LANE_RETIRED l.val) 1).put (F.CXLANE_LANE_IN_USE n.val) 1) (c.laneSwapped l.val n.val) :=
    .after (.raise _ _) (.after (.cnt _ _ _) (.showLanes _))
  generalize c.laneSwapped l.val n.val = z at hput
  have hkey : regKey 0x081 (0x800 + 0x4 * l.val) ≠ regKey 0x081 (0x800 + 0x4 * n.val) := by
    simp only [regKey]
    omega
  have huse : ((c.put (F.CXLANE_LANE_IN_USE l.val) 0).put (F.CXLANE_LANE_RETIRED l.val) 1).is (F.CXLANE_LANE_IN_USE l.val) = false := by
    unfold is
    rw [get_put_apart (c.put (F.CXLANE_LANE_IN_USE l.val) 0) (F.CXLANE_LANE_RETIRED l.val) (F.CXLANE_LANE_IN_USE l.val) 1
      (by show 2 + 1 ≤ 32; decide) rfl rfl (.inl (by show 1 + 1 ≤ 2; decide))]
    exact is_put_bit c (F.CXLANE_LANE_IN_USE l.val) false (by show 1 + 1 ≤ 32; decide) rfl
  have hret : ((c.put (F.CXLANE_LANE_IN_USE l.val) 0).put (F.CXLANE_LANE_RETIRED l.val) 1).is (F.CXLANE_LANE_RETIRED l.val) = true :=
    is_put_bit _ (F.CXLANE_LANE_RETIRED l.val) true (by show 2 + 1 ≤ 32; decide) rfl
  generalize (c.put (F.CXLANE_LANE_IN_USE l.val) 0).put (F.CXLANE_LANE_RETIRED l.val) 1 = d at hput huse hret
  rw [(is_lane hput l).2.2, (is_lane hput l).2.1, (is_lane hput n).2.1]
  refine ⟨?_, ?_, is_put_bit d (F.CXLANE_LANE_IN_USE n.val) true (by show 1 + 1 ≤ 32; decide) rfl⟩
  · unfold is at hret ⊢
    rw [get_put_ne d (F.CXLANE_LANE_IN_USE n.val) (F.CXLANE_LANE_RETIRED l.val) 1 hkey]
    exact hret
  · unfold is at huse ⊢
    rw [get_put_ne d (F.CXLANE_LANE_IN_USE n.val) (F.CXLANE_LANE_IN_USE l.val) 1 hkey]
    exact huse

end Chip

namespace State

theorem chip_linkFalls (s : State) (w : Twin) : (s.linkFalls w).chip w = (s.chip w).fallLink ∧ ((s.linkFalls w).chip w.other).link.tx = [] := by
  unfold linkFalls
  dsimp only
  refine ⟨?_, ?_⟩
  · rw [chip_mapChip_of_other, chip_mapChip_same]
  · rw [chip_mapChip_same, (Chip.failReads_keeps _ _).2]

/-- Two chips whose link may train. -/
theorem trains_of {s : State} {w : Twin} (hup : (s.chip w).up = true) (hup' : (s.chip w.other).up = true) (hm : (s.chip w).mode ≠ mHELD)
    (hm' : (s.chip w.other).mode ≠ mHELD) (hh : (s.chip w).svc.held = false) (hh' : (s.chip w.other).svc.held = false) (hl : (s.chip w).linkUp = false) :
    ¬ (!((s.chip w).up && (s.chip w.other).up) || (s.chip w).mode == mHELD || (s.chip w.other).mode == mHELD || (s.chip w).svc.held ||
      (s.chip w.other).svc.held || (s.chip w).linkUp) = true := by
  simp [hup, hup', hm, hm', hh, hh', hl]

end State

/-- Settles O36: each clause is a short run of the link's own operations. -/
theorem linkComplete : Obligations.LinkComplete := by
  refine ⟨?_, ?_, ?_, ?_, ?_, ?_, ?_, ?_, ?_⟩
  · intro w badTag e s harr
    have hgo : exec (.envelopeReject w badTag) s = .next ((s.taken w).mapChip w fun c =>
        { c with link := { c.link with nakNext := true, authRun := if badTag then c.link.authRun + 1 else c.link.authRun } }.cnt
          (if badTag then K.CXK_AUTH_FAILS else K.CXK_FEC_UNCORRECTED)) := by
      show execEnvelopeReject w badTag s = _
      unfold execEnvelopeReject
      rw [harr] <;> rfl
    refine ⟨_, hgo, ?_⟩
    unfold State.taken
    rw [State.chip_mapChip_same, State.chip_mapChip_other, State.chip_mapChip_of_other, State.chip_mapChip_same]
    cases badTag <;> exact ⟨rfl, rfl, rfl, rfl⟩
  · intro w s hup hrun
    refine ⟨_, rfl, ?_⟩
    rw [if_pos (by rw [hup, decide_eq_true hrun]; rfl), State.chip_mapChip_same, State.chip_mapChip_other, (s.chip_linkFalls w).1, (s.chip_linkFalls w).2]
    obtain ⟨hst, hauth⟩ := (s.chip w).fallLink_spec
    generalize (s.chip w).fallLink = d at hst hauth ⊢
    refine ⟨(Chip.get_raise d _ F.CXK_LINK_STATE (by decide)).trans hst, Chip.raise_is _ _ rfl rfl (by decide), ?_, rfl⟩
    exact (congrArg (fun k : Quiet => k.link.authRun) (Chip.raise_quiet d F.CXK_EV_AUTH_FAIL) :).trans hauth
  · intro w lane e s harr hcls
    have hgo : exec (.doubleLoss w lane) s = .next ((s.mapChip w.other fun d =>
        { d with link := { d.link with tx := d.link.tx.dropWhile fun x => x.seq == e.seq } }).mapChip w fun c =>
          let c := { c with link := { c.link with nakNext := true } }
          let c := if c.is (F.CXLANE_LANE_IN_USE lane.val) then c.put (F.CXLANE_LANE_LOCK lane.val) 1 else c
          (c.cnt K.CXK_DOUBLE_LOSSES).raise F.CXK_EV_DOUBLE_LOSS) := by
      show execDoubleLoss w lane s = _
      unfold execDoubleLoss
      rw [harr]
      refine congrArg Host.Outcome.next (if_neg ?_)
      rcases hcls with h | h <;> rw [h] <;> decide
    refine ⟨_, hgo, ?_⟩
    rw [State.chip_mapChip_same, State.chip_mapChip_other, State.chip_mapChip_of_other, State.chip_mapChip_same]
    refine ⟨?_, Chip.raise_is _ _ rfl rfl (by decide), rfl⟩
    refine (congrArg (fun k : Quiet => k.link.rxSeq) (Chip.raise_quiet _ F.CXK_EV_DOUBLE_LOSS) :).trans ?_
    show ((if _ then _ else _ : Chip).cnt K.CXK_DOUBLE_LOSSES).link.rxSeq = _
    split <;> rfl
  · intro w locked delayNs s hup hup' hm hm' hh hh' hl hmin
    have hgo : exec (.cxkTrainingDone w locked delayNs true) s = .next (((s.setChip w (((s.chip w).lanesTrained locked).linkTrained delayNs)).mapChip w.other
        fun d => { d with link := { d.link with tx := [], waiting := [], replay := [], seq := 0 } }.put F.CXK_REPLAY_USE 0).mapBoth Chip.keysFresh) := by
      show execCxkTrainingDone w locked delayNs true s = _
      unfold execCxkTrainingDone
      dsimp only
      rw [if_neg (State.trains_of hup hup' hm hm' hh hh' hl), if_neg (by decide), if_neg (Nat.not_lt.mpr hmin)]
      cases w <;> rfl
    refine ⟨_, hgo, ?_⟩
    rw [State.chip_mapBoth, State.chip_mapBoth, State.chip_mapChip_of_other, State.chip_mapChip_same, State.chip_setChip_same, State.chip_setChip_other]
    obtain ⟨h1, h2, h3⟩ := ((s.chip w).lanesTrained locked).linkTrained_spec delayNs (by
      rw [Chip.cfg_of_applied ((s.chip w).lanesTrained_applied locked)]
      exact hmin)
    generalize ((s.chip w).lanesTrained locked).linkTrained delayNs = d at h1 h2 h3
    obtain ⟨k1, k2, k3, -, -⟩ := d.keysFresh_keeps
    exact ⟨k1.trans h1, Chip.is_kept k2 _ rfl rfl h2, Chip.keysFresh_epoch _, Chip.keysFresh_epoch _, k3.trans h3, rfl, rfl⟩
  · intro w locked delayNs s hup hup' hm hm' hh hh' hl
    refine ⟨_, rfl, ?_⟩
    rw [if_neg (State.trains_of hup hup' hm hm' hh hh' hl), if_pos (show (!false) = true from rfl), State.chip_mapChip_same, State.chip_mapChip_other]
    refine ⟨(Chip.get_raise _ _ F.CXK_LINK_STATE (by decide)).trans ?_, Chip.raise_is _ _ rfl rfl (by decide), rfl⟩
    exact (Chip.get_put_same _ F.CXK_LINK_STATE 0 (by decide)).trans (Nat.zero_mod _)
  · intro w s hup hst hm hh
    refine ⟨_, rfl, ?_⟩
    rw [State.chip_onUp hup, State.chip_onUp_other, if_pos (by simp [hst, hm, hh])]
    refine ⟨(Chip.get_of_quiet (Chip.send_quiet _ _) F.CXK_LINK_STATE (by decide)).trans ?_, rfl⟩
    exact (Chip.get_put_same _ F.CXK_LINK_STATE 1 (by decide)).trans (show 1 % 2 ^ 2 = 1 by decide)
  · intro w lane s hup hlock
    obtain ⟨h1, h2, h3⟩ := (s.chip w).lockLost_spec lane
    refine ⟨_, rfl, ?_⟩
    rw [if_neg (by rw [hup, hlock]; decide)]
    generalize ((s.chip w).put (F.CXLANE_LANE_LOCK lane.val) 0).cnt (K.CXLANE_LOCK_LOSS lane.val) = c at h1 h2 h3 ⊢
    dsimp only
    split
    · next huse =>
      rw [State.chip_setChip_same]
      exact ⟨h1, by simpa using huse⟩
    · obtain ⟨k1, k2⟩ := (c.put (F.CXLANE_LANE_IN_USE lane.val) 0).replaceLane_spec lane h2 h3
      have hs := Chip.LanesKept.showLanes ((c.put (F.CXLANE_LANE_IN_USE lane.val) 0).replaceLane lane.val)
      have g1 := (Chip.is_lane hs lane).1.trans k1
      have g2 := (Chip.is_lane hs lane).2.1.trans k2
      generalize ((c.put (F.CXLANE_LANE_IN_USE lane.val) 0).replaceLane lane.val).showLanes = d at g1 g2 ⊢
      split
      · rw [(State.chip_linkFalls _ _).1, State.chip_setChip_same]
        have hf := Chip.LanesKept.fallLink d
        exact ⟨(Chip.is_lane hf lane).1.trans g1, (Chip.is_lane hf lane).2.1.trans g2⟩
      · rw [State.chip_setChip_same]
        exact ⟨g1, g2⟩
  · intro w lane spare s hup hsp hne
    have hgo : exec (.laneSwap w lane spare) s = .next (s.onUp w fun c =>
        if !c.link.sparing.contains (lane.val, spare.val) then c
        else Chip.laneSwapped { c with link := { c.link with sparing := c.link.sparing.filter fun x => x.1 != lane.val } } lane.val spare.val) := rfl
    refine ⟨_, hgo, ?_⟩
    rw [State.chip_onUp hup, State.chip_onUp_other, hsp, if_neg (by decide)]
    obtain ⟨h1, h2, h3⟩ := Chip.laneSwapped_spec
      { s.chip w with link := { (s.chip w).link with sparing := (s.chip w).link.sparing.filter fun x => x.1 != lane.val } } lane spare hne
    exact ⟨h1, h2, h3, Chip.raise_is _ _ rfl rfl (by decide), rfl⟩
  · intro w r s hup hr hle hep
    have hgo : exec (.rekey w) s = .next (s.onUp w fun c => match c.link.rekeyAt with
      | some r => if c.round < r then c else
        ({ c with link := { c.link with rekeyAt := none, count := c.link.seq } }.put F.CXK_KEY_EPOCH (c.get F.CXK_KEY_EPOCH + 1)).cnt K.CXK_REKEYS
      | none => c) := rfl
    refine ⟨_, hgo, ?_⟩
    rw [State.chip_onUp hup, State.chip_onUp_other, hr]
    dsimp only
    rw [if_neg (Nat.not_lt.mpr hle), Chip.get_cnt]
    refine ⟨(Chip.get_put_same _ F.CXK_KEY_EPOCH _ (by decide)).trans (Nat.mod_eq_of_lt ?_), rfl, rfl⟩
    show _ < 4294967296
    omega

end Sys2Proof.Machine
end

section
/-! PROOF. The management endpoint's page messages and commands, and the debug port's reads (R540, R541, R570). -/
namespace Sys2Proof.Machine

namespace Chip

variable (c : Chip)

/-! ## The endpoint's packets -/

theorem mctpSend_tx (p : List Byte) (h : c.mti.tx.length < 8) : (c.mctpSend p).mti.tx = c.mti.tx ++ [p] := by
  unfold mctpSend
  rw [if_neg (Nat.not_le.mpr h)]
  rfl

/-- A packet changes no configuration word. -/
theorem rd_mctpSend (m : List Byte) (p o : Nat) (h1 : 0x100 ≤ o) (h2 : o < 0x800) : (c.mctpSend m).rd p o = c.rd p o := by
  have hq : quietReg p o = true := by
    simp [quietReg]
    omega
  have hshow : ∀ d : Chip, d.showQueue.rd p o = d.rd p o := fun d => by
    have hput : ∀ (e : Chip) (f : Fld) (v : Nat), f.off = 0x800 → (e.put f v).rd p o = e.rd p o := fun e f v ho =>
      rd_put_ne e f v _ _ fun h => by
        have := (regKey_inj (quietReg_lt hq) (ho.symm ▸ (by decide : 0x800 < 4096)) h).2
        omega
    exact (hput _ F.MTI_ALERT _ rfl).trans (hput d F.MTI_TX_QUEUE _ rfl)
  unfold mctpSend
  split
  · exact (hshow _).trans ((rd_raise _ _ _ _ hq).trans rfl)
  · exact (hshow _).trans rfl

theorem rd_pageAnswer (x : PageMessage) (cmd : Nat) (data : Word) (p o : Nat) (h1 : 0x100 ≤ o) (h2 : o < 0x800) :
    (c.pageAnswer x cmd 0 data).rd p o = c.rd p o := (rd_mctpSend _ _ p o h1 h2).trans rfl

/-! ## A configuration word stored -/

/-- A plain page has no word that acts, of a core alone or while it runs. -/
structure PlainPage (page : Nat) : Prop where
  ne : page ∉ ([0x020, 0x031, 0x032, 0x040, 0x050, 0x051, 0x060, 0x070, 0x091, 0x0A1, 0x0C1, 0x120, 0x130, 0x140, 0x141, 0x151, 0x386] : List Nat)
  icu : ¬ (0x110 ≤ page ∧ page ≤ 0x116)
  dram : ¬ (0x300 ≤ page ∧ page < 0x340)
  block : blockOf page ≠ 0

theorem plainPage_iff {page : Nat} (h : plainPage page = true) : PlainPage page := by
  unfold plainPage at h
  simp only [Bool.and_eq_true, Bool.not_eq_true', bne_iff_ne, ne_eq] at h
  obtain ⟨⟨⟨⟨h1, h2⟩, h3⟩, h4⟩, -⟩ := h
  refine ⟨fun hm => ?_, fun hm => ?_, fun hm => ?_, h1⟩
  · rw [List.contains_iff_mem.mpr hm] at h2
    cases h2
  · rw [decide_eq_true hm.1, decide_eq_true hm.2] at h3
    cases h3
  · rw [decide_eq_true hm.1, decide_eq_true hm.2] at h4
    cases h4

namespace PlainPage

variable {page off : Nat} {v : Word} (hp : PlainPage page)
include hp

theorem actsMachine_eq : actsMachine page off v = false := by
  have hne := hp.ne
  simp only [List.mem_cons, List.not_mem_nil, or_false, not_or] at hne
  simp [actsMachine, hne]

theorem actionCode_eq : c.actionCode page off v = 0 := by
  have hne := hp.ne
  have hdram := hp.dram
  simp only [List.mem_cons, List.not_mem_nil, or_false, not_or] at hne
  have hacts : actsRunning page off v = false := by
    simp only [not_and, Nat.not_lt] at hdram
    simp only [actsRunning, beq_eq_false_iff_ne.mpr hne.2.2.2.2.2.2.2.1, hne, beq_iff_eq, Bool.false_and, Bool.or_false, Bool.false_or]
    simp [hne]
    omega
  unfold actionCode
  rw [hacts]
  simp only [hne, false_and, if_false, Bool.false_and, Bool.false_eq_true]
  rw [if_neg (fun h => hdram ⟨h.1, h.2.1⟩)]

theorem actOwn_eq (rq : Requester) : c.actOwn rq page off v = c := by
  have hne := hp.ne
  have hicu := hp.icu
  simp only [List.mem_cons, List.not_mem_nil, or_false, not_or] at hne
  have h115 : page ≠ 0x115 := by omega
  have h110 : page ≠ 0x110 := by omega
  simp only [actOwn, hne, h115, h110, false_and, if_false]

theorem actShared_eq (rq : Requester) : c.actShared rq page off v = c := by
  have hne := hp.ne
  simp only [List.mem_cons, List.not_mem_nil, or_false, not_or] at hne
  simp only [actShared, hne, false_and, if_false]
  rw [if_neg (fun h => hp.dram ⟨h.1, h.2.1⟩)]

end PlainPage

theorem unseen_spec (page off : Nat) (old new : Word) (p o : Nat) (h1 : 0x100 ≤ o) (h2 : o < 0x800) :
    (c.unseen page off old new).rd p o = c.rd p o ∧ (c.unseen page off old new).answers = c.answers := by
  unfold unseen
  dsimp only
  split
  · exact ⟨rfl, rfl⟩
  · refine ⟨rd_wr_ne _ _ _ _ _ _ fun h => ?_, rfl⟩
    have := (regKey_inj (show o < 4096 by omega) (by decide) h).2
    omega

/-- A word of a stopped, unfrozen page takes the bits that the page stores. -/
theorem storeConfig_stopped {page off : Nat} (v : Word) (both late : Bool) (h1 : 0x100 ≤ off) (h2 : off < 0x800) (hrun : c.running page = false)
    (hfr : c.frozen page = false) : (c.storeConfig page off v both late).2 = true ∧
      (c.storeConfig page off v both late).1.rd page off = underBits (c.rd page off) v (storedMask page off) ∧
      (c.storeConfig page off v both late).1.answers = c.answers := by
  obtain ⟨hrd, hans⟩ := (c.wr page off (underBits (c.rd page off) v (storedMask page off))).unseen_spec page off (c.rd page off)
    (underBits (c.rd page off) v (storedMask page off)) page off h1 h2
  have hgo : c.storeConfig page off v both late = ((c.wr page off (underBits (c.rd page off) v (storedMask page off))).unseen page off (c.rd page off)
      (underBits (c.rd page off) v (storedMask page off)), true) := by
    unfold storeConfig
    rw [hrun, hfr]
    simp only [Bool.false_eq_true, if_false, if_true, ne_eq, not_true_eq_false]
    exact Prod.ext (if_pos rfl) rfl
  rw [hgo]
  refine ⟨rfl, ?_, ?_⟩
  · exact hrd.trans (rd_wr_same _ _ _ _)
  · exact hans.trans rfl

/-- A word of a plain, stopped, unfrozen page that no write clears. -/
theorem writeWord_plain {page off : Nat} (rq : Requester) (v : Word) (both late : Bool) (hp : PlainPage page) (h1 : 0x100 ≤ off) (h2 : off < 0x800)
    (hrun : c.running page = false) (hfr : c.frozen page = false) (hclear : clearMask page off = 0) :
    (c.writeWord rq page off v both late).rd page off = underBits (c.rd page off) v (storedMask page off) ∧
      (c.writeWord rq page off v both late).answers = c.answers := by
  have hne := hp.ne
  simp only [List.mem_cons, List.not_mem_nil, or_false, not_or] at hne
  have hsame : (c.wr page off (c.rd page off &&& ~~~(v &&& BitVec.ofNat 32 (clearMask page off)))).rd page off = c.rd page off := by
    rw [rd_wr_same, hclear, show BitVec.ofNat 32 0 = 0#32 from rfl, BitVec.and_zero, BitVec.not_zero]
    exact BitVec.and_allOnes
  have hhead : ∀ (w : Word) (o : Nat), o < 0x100 → (c.wr page off w).rd page o = c.rd page o := fun w o ho =>
    rd_wr_ne _ _ _ _ _ _ fun h => by
      have := (regKey_inj (show o < 4096 by omega) (by omega) h).2
      omega
  unfold writeWord
  rw [if_neg (by omega), if_neg (by omega), if_neg (by omega), if_neg (by omega), if_neg (by omega), if_neg (by omega), if_neg (fun h => hne.2.2.2.2.2.2.2.2.2.2.2.2.2.2.1 h.1),
    hp.actsMachine_eq]
  generalize hd : c.wr page off (c.rd page off &&& ~~~(v &&& BitVec.ofNat 32 (clearMask page off))) = d at hsame
  have hdrun : d.running page = false := by
    rw [← hd]
    unfold running pageState at hrun ⊢
    rw [hhead _ _ (by decide)]
    exact hrun
  have hdfr : d.frozen page = false := by
    rw [← hd]
    unfold frozen at hfr ⊢
    rw [hhead _ _ (by decide)]
    exact hfr
  obtain ⟨hok, hrd, hans⟩ := d.storeConfig_stopped v both late h1 h2 hdrun hdfr
  dsimp only
  rw [Bool.false_and, hok, if_neg (by decide), if_neg (by decide), if_neg (fun h => h (hp.actionCode_eq _)), hp.actOwn_eq, hp.actShared_eq, hrd, hans, hsame]
  exact ⟨rfl, by rw [← hd]; rfl⟩

/-! ## A word read -/

theorem takePage_word {rq : Requester} {page off : Nat} (hp : blockOf page ≠ 0) (hr : c.mayRead rq page = true) (hne : page ≠ 0x115) :
    c.takePage rq page off 4 = (c, (c.pageWord rq page off).setWidth 64) := by
  have hword : c.takeWord rq page off = (c, c.pageWord rq page off) := if_neg fun h => hne h.1
  unfold takePage
  rw [if_neg (by simp [hp, hr]), hword]
  rfl

theorem takePage_same {rq : Requester} {page off : Nat} (hne : page ≠ 0x115) : (c.takePage rq page off 4).1 = c := by
  have hword : c.takeWord rq page off = (c, c.pageWord rq page off) := if_neg fun h => hne h.1
  unfold takePage
  split
  · rfl
  · rw [hword]
    rfl

theorem tapLoad_answers {code n : Nat} (hn : c.tapCode code = n) (hb : n ∉ boundaryCodes) : (c.tapLoad code).answers = c.answers := by
  unfold tapLoad
  simp [hn, hb]

end Chip

namespace State

variable (s : State)

theorem storeWord_plain {w : Twin} {page off : Nat} (rq : Requester) (v : Word) (hp : Chip.PlainPage page) :
    s.storeWord w rq none page off v = s.mapChip w fun c => c.writeWord rq page off v false (Config.lateDelivery 0) := by
  have hne := hp.ne
  have hicu := hp.icu
  simp only [List.mem_cons, List.not_mem_nil, or_false, not_or] at hne
  have hdoor : isDoorbell page off = false := by simp [isDoorbell, hne]
  have hsrc : sourceNumber page off = none := if_neg (by omega)
  unfold storeWord
  dsimp only
  rw [hdoor, hsrc]
  simp only [hne, false_and, if_false, Bool.false_and, Bool.false_eq_true, Option.isSome_none, Option.isSome_none]

/-- The debug port's read of a chip page of its own. -/
theorem busAccess_read {w : Twin} {page off : Nat} (hpage : page < 4096) (hoff : off < 4096) :
    s.busAccess w ⟨0x40000000 + page * 4096 + off, 4, none⟩ = s.readPage w .debugPort page off 4 := by
  have h1 : (0x40000000 + page * 4096 + off - 0x40000000) / 4096 = page := by omega
  have h2 : (0x40000000 + page * 4096 + off) % 4096 = off := by omega
  unfold busAccess
  dsimp only
  rw [if_pos (by omega), h1, h2]
  rfl

end State

/-- Settles O16: each access by the branch that the hypotheses name. -/
theorem managementAccessesComplete : Obligations.ManagementAccessesComplete := by
  refine ⟨?_, ?_, ?_, ?_, ?_⟩
  · intro w x s hup hack hok hal hlt htgt hne
    have hgo : exec (.pageRead w x) s = .next ((s.setChip w ((s.chip w).takePage .mctp x.page.toNat x.off.toNat 4).1).mapChip w fun c =>
        c.pageAnswer x 1 0 (((s.chip w).takePage .mctp x.page.toNat x.off.toNat 4).2.setWidth 32)) := by
      show execPageRead w x s = _
      unfold execPageRead
      dsimp only
      rw [htgt, hup, hack, hok, if_neg (by decide), if_neg (by decide), if_neg (by omega), if_neg (fun h => h.1 rfl)]
    refine ⟨_, hgo, ?_⟩
    rw [State.chip_mapChip_same, State.chip_mapChip_other, State.chip_setChip_same, State.chip_setChip_other, (s.chip w).takePage_same hne,
      Chip.pageAnswer_answers_of_success]
    exact ⟨rfl, rfl⟩
  · intro w x s hup hack hok hal h1 h2 hx htgt hplain hmay hrun hfr hclear
    have hp := Chip.plainPage_iff hplain
    have hne := hp.ne
    simp only [List.mem_cons, List.not_mem_nil, or_false, not_or] at hne
    have hdoor : isDoorbell x.page.toNat x.off.toNat = false := by simp [isDoorbell, hne]
    have hgo : exec (.pageWrite w x) s = .next ((s.storeWord w .mctp none x.page.toNat x.off.toNat x.data).mapChip w fun c => c.pageAnswer x 2 0 0) := by
      show execPageWrite w x s = _
      unfold execPageWrite
      dsimp only
      rw [htgt, hup, hack, hok, hdoor, hmay, if_neg (by decide), if_neg (by decide), if_neg (by omega), if_neg hp.block, if_neg (by decide), if_neg hx,
        if_neg (fun h => h.1 rfl)]
    refine ⟨_, hgo, ?_⟩
    rw [s.storeWord_plain _ _ hp, State.chip_mapChip_same, State.chip_mapChip_same, State.chip_mapChip_other, State.chip_mapChip_other,
      Chip.pageAnswer_answers_of_success, Chip.rd_pageAnswer _ _ _ _ _ _ h1 h2]
    obtain ⟨hrd, hans⟩ := (s.chip w).writeWord_plain .mctp x.data false (Config.lateDelivery 0) hp h1 h2 hrun hfr hclear
    rw [hrd, hans]
    exact ⟨rfl, rfl, rfl⟩
  · intro w opcode s hup hack hnone hlen
    have hgo : exec (.fmApiCommand w opcode) s = .next (s.mapChip w fun c => c.mctpSend ([0x07] ++ bytesLE 2 opcode.toNat ++ bytesLE 2 3 ++ [])) := by
      show execFmApiCommand w opcode s = _
      unfold execFmApiCommand
      dsimp only
      rw [hup, hack, if_neg (by decide), hnone] <;> rfl
    refine ⟨_, hgo, ?_⟩
    rw [State.chip_mapChip_same, State.chip_mapChip_other, Chip.mctpSend_tx _ _ hlen, List.append_nil]
    exact ⟨rfl, rfl⟩
  · intro w out x opcode s hup hack hsome hmgr hreply hlen
    have hgo : exec (.fmApiCommand w opcode) s = .next (s.mapChip w fun c => c.mctpSend ([0x07] ++ bytesLE 2 opcode.toNat ++ bytesLE 2 0 ++ out)) := by
      show execFmApiCommand w opcode s = _
      unfold execFmApiCommand
      dsimp only
      rw [hup, hack, if_neg (by decide), hsome]
      dsimp only
      rw [hmgr, if_neg (by decide), hreply] <;> rfl
    refine ⟨_, hgo, ?_⟩
    rw [State.chip_mapChip_same, State.chip_mapChip_other, Chip.mctpSend_tx _ _ hlen]
    exact ⟨rfl, rfl⟩
  · intro w page off s hup hcode hpage hoff hal hblock hne
    obtain ⟨htap, -, -, hrst, -⟩ := (s.chip w).tapLoad_of_not_boundary 0x21 0x21 hcode (by decide)
    have hans := (s.chip w).tapLoad_answers hcode (by decide)
    have hup' : ((s.chip w).tapLoad 0x21).up = true := by
      unfold Chip.up at hup ⊢
      rw [hrst]
      exact hup
    have hgo : exec (.tapSysbus w ⟨0x40000000 + page * 4096 + off, 4, none⟩) s =
        .next ((s.mapChip w fun c => c.tapLoad 0x21).readPage w .debugPort page off 4) := by
      show execTapSysbus w _ s = _
      unfold execTapSysbus
      dsimp only
      rw [if_pos (by rw [State.chip_mapChip_same]; exact ⟨congrArg Tap.instr htap, hup'⟩), State.busAccess_read _ hpage hoff]
    refine ⟨_, hgo, ?_⟩
    unfold State.readPage
    rw [State.chip_mapChip_same, State.chip_mapChip_same, State.chip_mapChip_other, State.chip_mapChip_other]
    rw [if_neg (by rw [hup']; simp [State.isLocal]), if_neg (by simp [goodAccess]; omega), Chip.takePage_word _ hblock rfl hne]
    exact ⟨rfl, congrArg Tap.instr htap, congrArg (· ++ _) hans⟩

end Sys2Proof.Machine
end

section
/-! PROOF. Writes that enter the WMB of their home (R113, R125 to R138). -/
namespace Sys2Proof.Machine

theorem posLater_self (a : Nat) : posLater a a = false := by
  unfold posLater
  simp

namespace Chip

variable (c : Chip)

/-! ## What admission reads -/

variable {c} in
theorem decodeHpa_congr {d : Chip} {i : Fin 24} (h : (d.head i).decoders = (c.head i).decoders) (hpa : Nat) : d.decodeHpa i hpa = c.decodeHpa i hpa := by
  have hdec : ∀ n, d.decoder i n = c.decoder i n := fun n => by
    unfold decoder
    rw [h]
  have hend : ∀ n, d.decoderEnd i n = c.decoderEnd i n := fun n => by
    induction n with
    | zero => simp only [decoderEnd, hdec]
    | succ n ih => simp only [decoderEnd, hdec, ih]
  have hbase : ∀ n, d.decoderBase i n = c.decoderBase i n := fun n => by
    cases n with
    | zero => simp only [decoderBase, hdec]
    | succ n => simp only [decoderBase, hdec, hend]
  simp only [decodeHpa, decoderFor, hdec, hbase]

variable {c} in
theorem inCommons_congr {d : Chip} (h : d.applied = c.applied) (dpa : Nat) : d.inCommons dpa = c.inCommons dpa := by
  have hdom : d.domainOf dpa = c.domainOf dpa := by
    unfold domainOf
    congr 1
    funext n
    have hv : d.domValid n = c.domValid n := congrArg (fun v : Nat => v == 1) (cfg_of_applied h _)
    have hb : d.domBase n = c.domBase n := congrArg (fun v : Nat => v * 2 ^ 28) (cfg_of_applied h _)
    have hs : d.domSize n = c.domSize n := congrArg (fun v : Nat => v * 2 ^ 28) (cfg_of_applied h _)
    unfold inDomain
    rw [hv, hb, hs]
  unfold inCommons
  rw [hdom]
  cases c.domainOf dpa with
  | none => rfl
  | some n => exact congrArg (fun v : Nat => v == 1) (cfg_of_applied h _)

/-- `d` judges the requests of the heads as `c` does: its parts outside words, counters and links, its quiet words, its holds, and each
head's decoders and tokens. -/
structure Judges (c d : Chip) : Prop where
  rest : d.rest = c.rest
  words : ∀ p o, quietReg p o = true → d.rd p o = c.rd p o
  holds : d.twe.holds = c.twe.holds
  decoders : ∀ i, (d.head i).decoders = (c.head i).decoders
  tokens : ∀ i, (d.head i).rdTokens = (c.head i).rdTokens ∧ (d.head i).wrTokens = (c.head i).wrTokens

namespace Judges

theorem refl (c : Chip) : Judges c c := ⟨rfl, fun _ _ _ => rfl, rfl, fun _ => rfl, fun _ => ⟨rfl, rfl⟩⟩

theorem trans {c d e : Chip} (h : Judges c d) (k : Judges d e) : Judges c e where
  rest := k.rest.trans h.rest
  words p o hq := (k.words p o hq).trans (h.words p o hq)
  holds := k.holds.trans h.holds
  decoders i := (k.decoders i).trans (h.decoders i)
  tokens i := ⟨(k.tokens i).1.trans (h.tokens i).1, (k.tokens i).2.trans (h.tokens i).2⟩

theorem of_quiet {c d : Chip} (hr : d.rest = c.rest) (hq : d.quiet = c.quiet) : Judges c d where
  rest := hr
  words := rd_of_quiet hq
  holds := (congrArg (fun k : Quiet => k.twe.holds) hq :)
  decoders i := (congrArg Head.decoders (head_of_quiet hq i) :)
  tokens i := ⟨(congrArg Head.rdTokens (head_of_quiet hq i) :), (congrArg Head.wrTokens (head_of_quiet hq i) :)⟩

theorem cnt (c : Chip) (k : Ctr) (n : Nat) : Judges c (c.cnt k n) := ⟨cnt_rest _ _ _, fun _ _ _ => rfl, rfl, fun _ => rfl, fun _ => ⟨rfl, rfl⟩⟩

/-- A head's queues, histories and notes. -/
theorem mapHead (c : Chip) (h : Fin 24) (f : Head → Head)
    (hf : ∀ x, (f x).decoders = x.decoders ∧ (f x).rdTokens = x.rdTokens ∧ (f x).wrTokens = x.wrTokens) : Judges c (c.mapHead h f) := by
  have hhead : ∀ i, ((c.mapHead h f).head i).decoders = (c.head i).decoders ∧ ((c.mapHead h f).head i).rdTokens = (c.head i).rdTokens ∧
      ((c.mapHead h f).head i).wrTokens = (c.head i).wrTokens := fun i => by
    by_cases hi : i = h
    · subst hi
      rw [head_mapHead_same]
      exact hf _
    · rw [head_mapHead_ne _ _ _ _ hi]
      exact ⟨rfl, rfl, rfl⟩
  exact ⟨mapHead_rest _ _ _, fun _ _ _ => rfl, rfl, fun i => (hhead i).1, fun i => (hhead i).2⟩

theorem hearFlit (c : Chip) (h : Fin 24) (flit : Nat) (r : Option Request) : Judges c (c.hearFlit h flit r) := by
  unfold Chip.hearFlit
  extract_lets c1 all lost c2
  have h1 : Judges c c1 := by
    unfold c1
    split
    · exact refl c
    · exact cnt _ _ _
  have h2 : Judges c1 c2 := mapHead _ _ _ fun _ => ⟨rfl, rfl, rfl⟩
  exact h1.trans (h2.trans ((of_quiet (histFull_rest _ _ _) (histFull_quiet _ _ _)).trans (of_quiet (raiseHist_rest _ _) (raiseHist_quiet _ _))))

theorem ackTx (c : Chip) (h : Fin 24) (flit : Nat) : Judges c (c.ackTx h flit) := mapHead c h _ fun _ => ⟨rfl, rfl, rfl⟩

theorem useCredit (c : Chip) (h : Fin 24) (write : Bool) : Judges c (c.useCredit h write) := by
  refine mapHead c h _ fun x => ?_
  split <;> exact ⟨rfl, rfl, rfl⟩

variable {c d : Chip} (h : Judges c d)
include h

theorem part {α : Type} (f : Chip → α) (hf : ∀ e : Chip, f e.rest = f e) : f d = f c := by rw [← hf d, ← hf c, h.rest]

theorem decodeHpa (i : Fin 24) (hpa : Nat) : d.decodeHpa i hpa = c.decodeHpa i hpa := decodeHpa_congr (h.decoders i) hpa

theorem get (f : Fld) (hq : quietReg f.page f.off = true) : d.get f = c.get f := by
  unfold Chip.get
  rw [h.words _ _ hq]

theorem applied : d.applied = c.applied := (congrArg Chip.applied h.rest :)
theorem tags : d.tags = c.tags := (congrArg Chip.tags h.rest :)
theorem wmb : d.wmb = c.wmb := (congrArg Chip.wmb h.rest :)

theorem cfg (f : Fld) : d.cfg f = c.cfg f := cfg_of_applied h.applied f

theorem isHome (p : Fin 6) : d.isHome p = c.isHome p := by
  have hrst : d.rst = c.rst := (congrArg Chip.rst h.rest :)
  unfold Chip.isHome up role
  rw [hrst, h.get (roleFld p) (by decide +revert)]

theorem running (page : Nat) : d.running page = c.running page := by
  unfold Chip.running pageState
  rw [h.words page 0x00C (by simp [quietReg])]

/-- A chip that judges as `c` does, with no earlier request waiting, finds of a request whose head has none waiting what `c` finds. -/
theorem failing (r : Request) (hc : (c.head r.head).reqQ ++ (c.head r.head).rwdQ = [])
    (hd : ∀ q ∈ (d.head r.head).reqQ ++ (d.head r.head).rwdQ, posLater r.pos.code q.pos.code = false) : d.failing r = c.failing r := by
  have htok : d.hasToken r.head (tokenOf r.kind) = c.hasToken r.head (tokenOf r.kind) := by
    have hthr : d.throttles = c.throttles := by
      unfold throttles
      rw [h.running, h.get F.GOV_GOV_STATE (by decide)]
    unfold hasToken bucket
    rw [hthr, h.cfg, h.cfg, (h.tokens _).1, (h.tokens _).2]
  have htags : d.tagsOf r.head = c.tagsOf r.head := by
    unfold tagsOf
    rw [h.tags]
  have hsame : d.sameLineWaits r = c.sameLineWaits r := by
    funext a
    unfold sameLineWaits
    dsimp only
    rw [hc, h.tags]
    have hnone : ((d.head r.head).reqQ ++ (d.head r.head).rwdQ).any (fun q =>
        posLater r.pos.code q.pos.code && (d.decodeHpa r.head q.hpa).map lineBase == some (lineBase a)) = false := by
      rw [List.any_eq_false]
      intro q hq
      rw [hd q hq]
      simp
    rw [hnone]
    rfl
  have hfull : d.wmbFull = c.wmbFull := by
    have hch : d.charges = c.charges := (congrArg Chip.charges h.rest :)
    funext a
    unfold wmbFull charged share wmbHolds wmbEntry Chip.serving mode
    simp only [h.wmb, hch, h.isHome, h.get F.ROLE_PAIR_STATE_MODE (by decide)]
  have hheld : d.heldLine = c.heldLine := by
    funext a
    unfold heldLine
    rw [h.holds]
  have hsvc : d.svc = c.svc := (congrArg Chip.svc h.rest :)
  unfold Chip.failing
  dsimp only
  rw [htok, htags, hsame, hfull, hheld, hsvc, h.decodeHpa, h.running, h.cfg]

end Judges

/-! ## The way of a write -/

/-- `d` keeps the settings and the WMB of `c`, and each head's decoders. -/
structure Pathed (c d : Chip) : Prop where
  applied : d.applied = c.applied
  wmb : d.wmb = c.wmb
  decoders : ∀ i, (d.head i).decoders = (c.head i).decoders

namespace Pathed

theorem refl (c : Chip) : Pathed c c := ⟨rfl, rfl, fun _ => rfl⟩

theorem trans {c d e : Chip} (h : Pathed c d) (k : Pathed d e) : Pathed c e :=
  ⟨k.applied.trans h.applied, k.wmb.trans h.wmb, fun i => (k.decoders i).trans (h.decoders i)⟩

/-- Steps put together from the last. -/
theorem after {c d e : Chip} (k : Pathed d e) (h : Pathed c d) : Pathed c e := h.trans k

theorem foldl {α : Type} (g : Chip → α → Chip) (hg : ∀ d x, Pathed d (g d x)) (l : List α) : ∀ d, Pathed d (l.foldl g d) := by
  induction l with
  | nil => exact refl
  | cons x l ih => exact fun d => (hg d x).trans (ih _)

theorem of_judges {c d : Chip} (h : Judges c d) : Pathed c d := ⟨h.applied, h.wmb, h.decoders⟩

theorem of_quiet {c d : Chip} (hr : d.rest = c.rest) (hq : d.quiet = c.quiet) : Pathed c d := of_judges (.of_quiet hr hq)

theorem raise (c : Chip) (f : Fld) : Pathed c (c.raise f) := of_quiet (raise_rest c f) (raise_quiet c f)

theorem send (c : Chip) (b : EnvBody) : Pathed c (c.send b) := of_quiet (send_rest c b) (send_quiet c b)

theorem postEffect (c : Chip) (e : Effect) (gated : Bool) (ends : Option Ends) : Pathed c (c.postEffect e gated ends) :=
  of_quiet (postEffect_rest c e gated ends) (postEffect_quiet c e gated ends)

theorem toHost (c : Chip) (h : Fin 24) (m : HostMsg) : Pathed c (c.toHost h m) := of_quiet (toHost_rest c h m) (toHost_quiet c h m)

theorem cnt (c : Chip) (k : Ctr) (n : Nat) : Pathed c (c.cnt k n) := ⟨rfl, rfl, fun _ => rfl⟩

theorem put (c : Chip) (f : Fld) (v : Nat) : Pathed c (c.put f v) := ⟨rfl, rfl, fun _ => rfl⟩

theorem peak (c : Chip) (k : Ctr) (n : Nat) : Pathed c (c.peak k n) := ⟨rfl, rfl, fun _ => rfl⟩

theorem mapRoute (c : Chip) (r : Nat) (f : RouteSlot → RouteSlot) : Pathed c (c.mapRoute r f) := ⟨rfl, rfl, fun _ => rfl⟩

/-- A head's notes of the writes it has seen admitted. -/
theorem mapHead (c : Chip) (h : Fin 24) (f : Head → Head) (hf : ∀ x, (f x).decoders = x.decoders) : Pathed c (c.mapHead h f) := by
  refine ⟨rfl, rfl, fun i => ?_⟩
  by_cases hi : i = h
  · subst hi
    rw [head_mapHead_same, hf]
  · rw [head_mapHead_ne _ _ _ _ hi]

/-! ### The Routes -/

theorem closeSlip (c : Chip) (r : Nat) (unarrived : Bool) : Pathed c (c.closeSlip r unarrived) := by
  have hcount : ∀ (d : Chip) (e m late : Nat), Pathed d (d.countSlip r e m late unarrived) := fun d e m late => by
    unfold Chip.countSlip
    dsimp only
    refine after (put _ _ _) (after (put _ _ _) (after (put _ _ _) (after (put _ _ _) ?_)))
    split
    · exact after (cnt _ _ _) ⟨rfl, rfl, fun _ => rfl⟩
    · exact ⟨rfl, rfl, fun _ => rfl⟩
  unfold Chip.closeSlip
  split
  · exact refl c
  · exact after (postEffect _ _ _ _) (after (hcount _ _ _ _) (mapRoute c _ _))

theorem checkEnd (c : Chip) (r : Nat) : Pathed c (c.checkEnd r) := by
  unfold Chip.checkEnd
  dsimp only
  split
  · exact (mapRoute c _ _).trans (raise _ _)
  · exact refl c

theorem routeMeet (e n : Nat) (c : Chip) (r : Nat) : Pathed c (Chip.routeMeet e n c r) := by
  unfold Chip.routeMeet
  extract_lets x
  split
  · exact refl c
  · extract_lets move passed k c1 c2 c3
    have h1 : Pathed c c1 := by
      unfold c1
      split
      · exact (closeSlip c _ _).trans (cnt _ _ _)
      · exact refl c
    have h2 : Pathed c1 c2 := by
      unfold c2
      split
      · exact mapRoute _ _ _
      · exact refl _
    have h3 : Pathed c2 c3 := by
      unfold c3
      split
      · exact checkEnd _ _
      · exact refl _
    refine h1.trans (h2.trans (h3.trans ?_))
    split
    · exact refl _
    · split
      · split
        · exact cnt _ _ _
        · exact refl _
      · exact mapRoute _ _ _

theorem routeSee (c : Chip) (dpa : Nat) : Pathed c (c.routeSee dpa) := by
  unfold Chip.routeSee
  split
  · exact refl c
  · split
    · exact refl c
    · exact foldl _ (fun d r => routeMeet _ _ d r) _ c

theorem showRoutes (c : Chip) (r : Request) (dpa : Nat) : Pathed c (c.showRoutes r dpa) := by
  unfold Chip.showRoutes
  split
  · exact routeSee c dpa
  · exact routeSee c dpa
  · exact routeSee c dpa
  · exact routeSee c dpa
  · exact refl c

/-! ### The Sorter -/

theorem takeToken (c : Chip) (h : Fin 24) (k : TokenKind) : Pathed c (c.takeToken h k) := by
  unfold Chip.takeToken
  split
  · split
    · exact refl c
    · exact mapHead c _ _ fun _ => rfl
  · split
    · exact refl c
    · exact mapHead c _ _ fun _ => rfl
  · exact refl c

theorem openTag (c : Chip) (h : Fin 24) : Pathed c (c.openTag h) := by
  unfold Chip.openTag
  dsimp only
  split
  · exact (peak c _ _).trans (raise _ _)
  · exact peak c _ _

theorem pumpBridge (all : Bool) (n : Nat) : ∀ c : Chip, Pathed c (c.pumpBridge all n) := by
  induction n with
  | zero => exact refl
  | succ n ih =>
    intro c
    unfold Chip.pumpBridge
    extract_lets k xs t
    split
    · exact refl c
    · exact after (ih _) (after (send _ _) ⟨rfl, rfl, fun _ => rfl⟩)

theorem bridgeWrite (c : Chip) (r : Request) (dpa : Nat) : Pathed c (c.bridgeWrite r dpa) := by
  unfold Chip.bridgeWrite
  extract_lets x t
  split
  · exact refl c
  · exact after (pumpBridge _ _ _) (after (raise _ _) (after (cnt _ _ _) ⟨rfl, rfl, fun _ => rfl⟩))

theorem respondCmp (c : Chip) (t : Tag) : Pathed c (c.respondCmp t) := by
  unfold Chip.respondCmp
  split
  · exact ⟨rfl, rfl, fun _ => rfl⟩
  · dsimp only
    split
    · exact after (cnt _ _ _) (after (toHost _ _ _) ⟨rfl, rfl, fun _ => rfl⟩)
    · exact after (toHost _ _ _) ⟨rfl, rfl, fun _ => rfl⟩

theorem unmirrored (c : Chip) : Pathed c { c with unmirrored := true } := ⟨rfl, rfl, fun _ => rfl⟩

theorem completeWrite (c : Chip) (t : Tag) : Pathed c (c.completeWrite t) := by
  unfold Chip.completeWrite
  extract_lets pos twinAck d
  split
  · exact ⟨rfl, rfl, fun _ => rfl⟩
  · split
    · exact after (respondCmp _ _) (mapHead c _ _ fun _ => rfl)
    · split
      · exact respondCmp c t
      · have hd : Pathed c d := by
          unfold d
          split
          · exact refl c
          · exact (unmirrored c).trans (raise _ _)
        exact hd.trans ((cnt _ _ _).trans (respondCmp _ _))

end Pathed

/-! ## The entry of a written line -/

theorem markChange_wmb (e : Nat) : (c.markChange e).wmb = c.wmb := by
  unfold markChange
  split
  · rfl
  · split
    · rfl
    · next m _ _ =>
      obtain ⟨-, -, -, -, -, hw, -⟩ := (Upkept.mdcTouch { c with twe := { c.twe with changeMap := some (e :: m) } } (c.changeLine e) true).parts
      exact hw

theorem touchExtent_wmb (e : Nat) : (c.touchExtent e).wmb = c.wmb := by
  have hmap : ∀ f, (c.mapExt e f).wmb = c.wmb := fun f => by
    obtain ⟨-, -, -, -, -, hw, -⟩ := (Upkept.mdcTouch { c with trm := { c.trm with ext := c.trm.ext.set extDefault e (f (c.ext e)) } } (extLine e) true).parts
    exact hw
  unfold touchExtent
  dsimp only
  split
  · rfl
  · split
    · rfl
    · exact hmap _

/-- What a write makes of the entry of its line, but for its age and what its drain notes. -/
def WmbEntry.Takes (e f : WmbEntry) (data : Line) (en : BitVec 64) (poison full : Bool) : Prop :=
  f.data = mergeLine (if e.state = .free then 0 else e.data) data en ∧ f.mask = (if e.state = .free then en else e.mask ||| en) ∧
    f.poison = (poison || (e.poison && !full)) ∧ f.state = if e.state = .free then .valid else e.state

theorem wmbEntry_cnt (k : Ctr) (n l : Nat) : (c.cnt k n).wmbEntry l = c.wmbEntry l := rfl

theorem wmbMerge_entry (line : Nat) (data : Line) (en : BitVec 64) (poison full : Bool) :
    WmbEntry.Takes (c.wmbEntry (lineBase line)) ((c.wmbMerge line data en poison full).wmbEntry (lineBase line)) data en poison full ∧
      ∀ l : Nat, l / 64 ≠ lineBase line / 64 → (c.wmbMerge line data en poison full).wmbEntry l = c.wmbEntry l := by
  unfold wmbMerge
  extract_lets a e x c1 bad cw c2 svc c3 trm c4
  have h1 : c1.wmb = c.wmb := by
    unfold c1
    split <;> rfl
  have h4 : c4.wmb = c2.wmb := by
    unfold c4 c3
    split <;> split <;> rfl
  have hlast : ((c4.markChange x).touchExtent x).wmb = c2.wmb := (touchExtent_wmb _ _).trans ((markChange_wmb _ _).trans h4)
  have he : c1.wmbEntry a = e := wmbEntry_congr h1 a
  have h2 : WmbEntry.Takes e (c2.wmbEntry a) data en poison full ∧ ∀ l : Nat, l / 64 ≠ a / 64 → c2.wmbEntry l = c.wmbEntry l := by
    unfold c2
    split
    · next hs =>
      refine ⟨?_, fun l hl => (wmbEntry_setWmb_ne _ _ _ _ hl).trans (wmbEntry_congr h1 l)⟩
      rw [wmbEntry_setWmb_same]
      unfold WmbEntry.Takes
      rw [if_pos hs, if_pos hs, if_pos hs]
      exact ⟨rfl, rfl, rfl, rfl⟩
    · next hs =>
      refine ⟨?_, fun l hl => (wmbEntry_cnt _ _ _ l).trans ((wmbEntry_setWmb_ne _ _ _ _ hl).trans (wmbEntry_congr h1 l))⟩
      rw [wmbEntry_cnt, wmbEntry_setWmb_same]
      unfold WmbEntry.Takes
      rw [if_neg hs, if_neg hs, if_neg hs]
      exact ⟨rfl, rfl, rfl, rfl⟩
  rw [wmbEntry_congr hlast]
  exact ⟨h2.1, fun l hl => (wmbEntry_congr hlast l).trans (h2.2 l hl)⟩

theorem wmbWrite_none (h : Fin 24) (pos line : Nat) (data : Line) (poison full : Bool) : (c.wmbWrite h pos line data 0 poison full).wmb = c.wmb := by
  unfold wmbWrite
  dsimp only
  rw [if_pos rfl]
  split <;> rfl

theorem wmbWrite_entry (h : Fin 24) (pos line : Nat) (data : Line) (en : BitVec 64) (poison full : Bool) (hen : en ≠ 0) :
    WmbEntry.Takes (c.wmbEntry (lineBase line)) ((c.wmbWrite h pos line data en poison full).wmbEntry (lineBase line)) data en poison full ∧
      ∀ l : Nat, l / 64 ≠ lineBase line / 64 → (c.wmbWrite h pos line data en poison full).wmbEntry l = c.wmbEntry l := by
  unfold wmbWrite
  extract_lets d d'
  rw [if_neg hen]
  have hd : d'.wmb = c.wmb := by
    unfold d' d
    split <;> split <;> rfl
  obtain ⟨h1, h2⟩ := d'.wmbMerge_entry line data en poison full
  rw [wmbEntry_congr hd] at h1
  exact ⟨h1, fun l hl => (h2 l hl).trans (wmbEntry_congr hd l)⟩

/-! ## Admission -/

/-- A write of a line outside the commons that is admitted is written into the WMB. -/
theorem admitTagged_write {r : Request} {dpa : Nat} (hk : r.kind = .memWr ∨ r.kind = .memWrPtl) (hdec : c.decodeHpa r.head r.hpa = some dpa)
    (hcom : c.inCommons dpa = false) : ∃ d : Chip, d.wmb = c.wmb ∧
      (c.admitTagged r).wmb = (d.wmbWrite r.head r.pos.code (lineBase dpa) r.data (reqMask r) r.poison (r.kind == ReqKind.memWr)).wmb := by
  have hw : isWrite r.kind = true := by rcases hk with h | h <;> rw [h] <;> rfl
  unfold admitTagged
  extract_lets c1 t
  have h1 : Pathed c c1 := .after (Pathed.openTag _ _) (Pathed.takeToken c _ _)
  have hd1 : c1.decodeHpa r.head r.hpa = some dpa := (decodeHpa_congr (h1.decoders _) _).trans hdec
  have ht : t.dpa = lineBase dpa := by
    show lineBase ((c1.decodeHpa r.head r.hpa).getD 0) = lineBase dpa
    rw [hd1]
    rfl
  clear_value c1 t
  split
  · next hn =>
    rw [hd1] at hn
    cases hn
  · next n hn =>
    obtain rfl := Option.some.inj (hn.symm.trans hd1)
    extract_lets c2 c3 c4
    have h3 : Pathed c c3 := by
      have hshow : Pathed c c2 := h1.trans (Pathed.showRoutes _ _ _)
      unfold c3
      rw [if_pos hw]
      exact .after (Pathed.bridgeWrite _ _ _) (.after (Pathed.mapHead _ _ _ fun _ => rfl) hshow)
    clear_value c3
    rw [if_neg (by rw [inCommons_congr h3.applied, hcom]; decide)]
    refine ⟨c4, h3.wmb, ?_⟩
    rcases hk with hk | hk
    · rw [hk, ← ht]
      exact (Pathed.completeWrite _ _).wmb
    · rw [hk, ← ht]
      exact (Pathed.completeWrite _ _).wmb

/-- A write of a line outside the commons that is admitted is written into the WMB. -/
theorem admitOne_write {r : Request} {dpa : Nat} (hk : r.kind = .memWr ∨ r.kind = .memWrPtl) (hdec : c.decodeHpa r.head r.hpa = some dpa)
    (hcom : c.inCommons dpa = false) : ∃ d : Chip, d.wmb = c.wmb ∧
      (c.admitOne r).wmb = (d.wmbWrite r.head r.pos.code (lineBase dpa) r.data (reqMask r) r.poison (r.kind == ReqKind.memWr)).wmb := by
  have hs : r.kind ≠ .memSpecRd := by rcases hk with h | h <;> rw [h] <;> decide
  unfold admitOne
  dsimp only
  rw [if_neg hs]
  have hp : Pathed c (c.mapHead r.head fun x => if isWrite r.kind then { x with rwdOwed := x.rwdOwed + 1 } else { x with reqOwed := x.reqOwed + 1 }) := by
    refine .mapHead c _ _ fun x => ?_
    split <;> rfl
  obtain ⟨d, hd, hr⟩ := admitTagged_write _ hk ((decodeHpa_congr (hp.decoders _) _).trans hdec) ((inCommons_congr hp.applied _).trans hcom)
  exact ⟨d, hd.trans hp.wmb, hr⟩

/-- A write that arrives, its head's queues empty, is admitted at once where it meets every condition. -/
theorem arriveHome_write {r : Request} {dpa hostAck : Nat} (hk : r.kind = .memWr ∨ r.kind = .memWrPtl) (hq : (c.head r.head).reqQ = [])
    (hq' : (c.head r.head).rwdQ = []) (hdec : c.decodeHpa r.head r.hpa = some dpa) (hcom : c.inCommons dpa = false) (hf : c.failing r = none) :
    ∃ d : Chip, d.wmb = c.wmb ∧
      (c.arriveHome r hostAck).wmb = (d.wmbWrite r.head r.pos.code (lineBase dpa) r.data (reqMask r) r.poison (r.kind == ReqKind.memWr)).wmb := by
  have hw : isWrite r.kind = true := by rcases hk with h | h <;> rw [h] <;> rfl
  unfold arriveHome
  dsimp only
  rw [hw]
  have hj : Judges c (((c.ackTx r.head hostAck).hearFlit r.head r.pos.flit (some r)).useCredit r.head true) :=
    (Judges.ackTx c _ _).trans ((Judges.hearFlit _ _ _ _).trans (Judges.useCredit _ _ _))
  have hqueue : ((((c.ackTx r.head hostAck).hearFlit r.head r.pos.flit (some r)).useCredit r.head true).head r.head).reqQ = [] ∧
      ((((c.ackTx r.head hostAck).hearFlit r.head r.pos.flit (some r)).useCredit r.head true).head r.head).rwdQ = [] := by
    have hcredit : ∀ d : Chip, ((d.useCredit r.head true).head r.head).reqQ = (d.head r.head).reqQ ∧
        ((d.useCredit r.head true).head r.head).rwdQ = (d.head r.head).rwdQ := fun d => by
      unfold useCredit
      rw [head_mapHead_same]
      exact ⟨rfl, rfl⟩
    have hheard := ((c.ackTx r.head hostAck).hearFlit_heard r.head r.pos.flit (some r)).heads r.head
    have hack : (c.ackTx r.head hostAck).head r.head = _ := head_mapHead_same c r.head _
    have h1 := (congrArg Head.reqQ hheard :)
    have h2 := (congrArg Head.rwdQ hheard :)
    rw [(hcredit _).1, (hcredit _).2]
    refine ⟨h1.trans ?_, h2.trans ?_⟩
    · show ((c.ackTx r.head hostAck).head r.head).reqQ = []
      rw [hack]
      exact hq
    · show ((c.ackTx r.head hostAck).head r.head).rwdQ = []
      rw [hack]
      exact hq'
  generalize ((c.ackTx r.head hostAck).hearFlit r.head r.pos.flit (some r)).useCredit r.head true = d at hj hqueue ⊢
  obtain ⟨hreq, hrwd⟩ := hqueue
  generalize hz : (d.mapHead r.head fun x => { withQueue x true (queueOf x true ++ [r]) with seenPos := some r.pos.code }) = z
  have hzj : Judges c z := by
    rw [← hz]
    exact hj.trans (Judges.mapHead _ _ _ fun _ => ⟨rfl, rfl, rfl⟩)
  have hzq : (z.head r.head).rwdQ = [r] ∧ (z.head r.head).reqQ = [] := by
    rw [← hz, head_mapHead_same]
    refine ⟨?_, hreq⟩
    show (d.head r.head).rwdQ ++ [r] = [r]
    rw [hrwd]
    rfl
  clear hz
  obtain ⟨hzw, hzr⟩ := hzq
  have hother : z.otherFirst r.head true = false := by
    have hfront : z.frontReady r.head false = false := by
      unfold frontReady
      rw [show queueOf (z.head r.head) false = [] from hzr]
    unfold otherFirst
    rw [hfront, Bool.and_false, Bool.false_and]
  have hzf : z.failing r = none := by
    refine (hzj.failing r (by rw [hq, hq']; rfl) fun q hqm => ?_).trans hf
    rw [hzr, hzw] at hqm
    obtain rfl := List.mem_singleton.mp hqm
    exact posLater_self _
  rw [hother, if_neg (by decide)]
  unfold admitFront
  rw [show queueOf (z.head r.head) true = [r] from hzw]
  dsimp only
  rw [hzf]
  dsimp only
  have hfront : Pathed z { z.mapHead r.head (fun x => { withQueue x true [] with rwdNoted := [], lastWasReq := false }) with admitPtr := (r.head.val + 1) % 24 } :=
    .after (d := z.mapHead r.head fun x => { withQueue x true [] with rwdNoted := [], lastWasReq := false }) ⟨rfl, rfl, fun _ => rfl⟩
      (Pathed.mapHead z _ _ fun _ => rfl)
  obtain ⟨e, he, hr⟩ := admitOne_write _ hk ((decodeHpa_congr (hfront.decoders r.head) r.hpa).trans ((hzj.decodeHpa _ _).trans hdec))
    ((inCommons_congr hfront.applied dpa).trans ((inCommons_congr hzj.applied dpa).trans hcom))
  exact ⟨e, he.trans (hfront.wmb.trans hzj.wmb), hr⟩

end Chip

/-- What a write of a link in L0 leaves at the home of its head. -/
theorem State.arrive_write {s : State} {w : Twin} {r : Request} {dpa : Nat} (v : Arrival) (hk : r.kind = .memWr ∨ r.kind = .memWrPtl)
    (hw : s.homeOf (portOf r.head) = some w) (hl : (s.chip w).inL0 r.head = true) (hcr : (s.chip w).hasCredit r.head true = true)
    (hq : ((s.chip w).head r.head).reqQ = []) (hq' : ((s.chip w).head r.head).rwdQ = []) (hdec : (s.chip w).decodeHpa r.head r.hpa = some dpa)
    (hcom : (s.chip w).inCommons dpa = false) (hf : (s.chip w).failing r = none) :
    ∃ d : Chip, d.wmb = (s.chip w).wmb ∧
      ((s.arrive r v).chip w).wmb = (d.wmbWrite r.head r.pos.code (lineBase dpa) r.data (reqMask r) r.poison (r.kind == ReqKind.memWr)).wmb := by
  have hwr : isWrite r.kind = true := by rcases hk with h | h <;> rw [h] <;> rfl
  have hgo : (s.arrive r v).chip w = (s.chip w).arriveHome r v.hostAck := by
    unfold State.arrive
    rw [hw]
    dsimp only
    rw [hwr, hl, hcr, if_neg (by decide), State.chip_mapChip_of_other, State.chip_mapChip_same]
  rw [hgo]
  exact (s.chip w).arriveHome_write hk hq hq' hdec hcom hf

theorem lineBase_div_ne {l dpa : Nat} (h : lineBase l ≠ lineBase dpa) : l / 64 ≠ lineBase (lineBase dpa) / 64 := by
  unfold lineBase at *
  omega

theorem lineBase_lineBase (a : Nat) : lineBase (lineBase a) = lineBase a := by
  unfold lineBase
  omega

theorem mergeLine_whole (old new : Line) : mergeLine old new allBytes = new := by
  have hmask : lineMask allBytes = BitVec.allOnes 512 := by decide +kernel
  unfold mergeLine
  rw [hmask, BitVec.not_allOnes, BitVec.and_zero, BitVec.and_allOnes, BitVec.zero_or]

/-- Settles O23: the write reaches the WMB of its home, and nothing else of what it does touches an entry. -/
theorem writesEnterTheWmb : Obligations.WritesEnterTheWmb := by
  refine ⟨?_, ?_, ?_⟩
  · intro w r v dpa s hw hl hcr hq hq' hdec hcom hf
    obtain ⟨d, hd, hr⟩ := State.arrive_write (r := { r with kind := .memWr, enables := allBytes }) v (.inl rfl) hw hl hcr hq hq' hdec hcom hf
    obtain ⟨⟨h1, h2, h3, h4⟩, hrest⟩ := d.wmbWrite_entry r.head r.pos.code (lineBase dpa) r.data allBytes r.poison true (by decide)
    rw [lineBase_lineBase] at h1 h2 h3 h4
    refine ⟨_, rfl, ?_⟩
    rw [Chip.wmbEntry_congr hr]
    rw [Chip.wmbEntry_congr hd] at h1 h2 h3 h4
    refine ⟨h1.trans (mergeLine_whole _ _), h2.trans ?_, h3.trans (by simp), h4, fun l hl => ?_⟩
    · split
      · rfl
      · exact BitVec.or_allOnes
    · exact (Chip.wmbEntry_congr hr l).trans ((hrest l (lineBase_div_ne hl)).trans (Chip.wmbEntry_congr hd l))
  · intro w r v dpa e s hw hen hl hcr hq hq' hdec hcom hf he hfree
    obtain ⟨d, hd, hr⟩ := State.arrive_write (r := { r with kind := .memWrPtl }) v (.inr rfl) hw hl hcr hq hq' hdec hcom hf
    obtain ⟨⟨h1, h2, h3, h4⟩, hrest⟩ := d.wmbWrite_entry r.head r.pos.code (lineBase dpa) r.data r.enables r.poison false hen
    rw [lineBase_lineBase] at h1 h2 h3 h4
    refine ⟨_, rfl, ?_⟩
    rw [Chip.wmbEntry_congr hr]
    rw [Chip.wmbEntry_congr hd, he] at h1 h2 h3 h4
    refine ⟨h1.trans ?_, h2.trans ?_, h3.trans (by simp), h4, fun l hl => ?_⟩
    · split
      · next h => rw [hfree h]
      · rfl
    · split
      · next h => rw [hfree h]; exact (BitVec.zero_or).symm
      · rfl
    · exact (Chip.wmbEntry_congr hr l).trans ((hrest l (lineBase_div_ne hl)).trans (Chip.wmbEntry_congr hd l))
  · intro w r v dpa s hw hen hl hcr hq hq' hdec hcom hf
    obtain ⟨d, hd, hr⟩ := State.arrive_write (r := { r with kind := .memWrPtl }) v (.inr rfl) hw hl hcr hq hq' hdec hcom hf
    refine ⟨_, rfl, hr.trans ?_⟩
    show (d.wmbWrite _ _ _ _ r.enables _ _).wmb = _
    rw [hen, Chip.wmbWrite_none, hd]

end Sys2Proof.Machine
end

section
/-! PROOF. The logs and vectors of the heads: what messages and events leave of them (R51, R89 to R93). -/
namespace Sys2Proof.Machine

/-- `y` is `x` with records added to its logs; with no interrupt policy its vectors stay empty. -/
structure Head.Grows (x y : Head) : Prop where
  logs : ∀ l, (x.logs.get (fun _ => {}) l).recs <+: (y.logs.get (fun _ => {}) l).recs
  policy : y.policy = x.policy
  vecs : x.policy = [] → x.vecs = [] → y.vecs = []

namespace Head.Grows

theorem refl (x : Head) : Grows x x := ⟨fun _ => List.prefix_refl _, rfl, fun _ h => h⟩

theorem trans {x y z : Head} (h : Grows x y) (k : Grows y z) : Grows x z :=
  ⟨fun l => (h.logs l).trans (k.logs l), k.policy.trans h.policy, fun hp hv => k.vecs (h.policy.trans hp) (h.vecs hp hv)⟩

/-- A head whose logs, policy and vectors are as they were. -/
theorem of_same {x y : Head} (hl : y.logs = x.logs) (hp : y.policy = x.policy) (hv : y.vecs = x.vecs) : Grows x y :=
  ⟨fun l => by rewrite [hl]; exact List.prefix_refl _, hp, fun _ h => hv.trans h⟩

/-- A head that has an interrupt policy may change its vectors. -/
theorem of_policy {x y : Head} (hl : y.logs = x.logs) (hp : y.policy = x.policy) (hne : x.policy ≠ []) : Grows x y :=
  ⟨fun l => by rewrite [hl]; exact List.prefix_refl _, hp, fun h => absurd h hne⟩

end Head.Grows

/-- Every head of `d` is that of `c` with records added to its logs. -/
def HeadsGrow (c d : Chip) : Prop := ∀ i, Head.Grows (c.head i) (d.head i)

namespace HeadsGrow

theorem refl (c : Chip) : HeadsGrow c c := fun _ => .refl _

theorem trans {c d e : Chip} (h : HeadsGrow c d) (k : HeadsGrow d e) : HeadsGrow c e := fun i => (h i).trans (k i)

/-- Steps put together from the last. -/
theorem after {c d e : Chip} (k : HeadsGrow d e) (h : HeadsGrow c d) : HeadsGrow c e := h.trans k

theorem of_heads {c d : Chip} (h : d.heads = c.heads) : HeadsGrow c d := fun i => by
  unfold Chip.head
  rw [h]
  exact .refl _

theorem foldl {α : Type} (g : Chip → α → Chip) (hg : ∀ d x, HeadsGrow d (g d x)) (l : List α) : ∀ d, HeadsGrow d (l.foldl g d) := by
  induction l with
  | nil => exact refl
  | cons x l ih => exact fun d => (hg d x).trans (ih _)

theorem mapHead (c : Chip) (h : Fin 24) (f : Head → Head) (hf : Head.Grows (c.head h) (f (c.head h))) : HeadsGrow c (c.mapHead h f) := fun i => by
  by_cases hi : i = h
  · subst hi
    rw [Chip.head_mapHead_same]
    exact hf
  · rw [Chip.head_mapHead_ne _ _ _ _ hi]
    exact .refl _

theorem wr (c : Chip) (p o : Nat) (v : Word) : HeadsGrow c (c.wr p o v) := of_heads rfl
theorem put (c : Chip) (f : Fld) (v : Nat) : HeadsGrow c (c.put f v) := of_heads rfl
theorem cnt (c : Chip) (k : Ctr) (n : Nat) : HeadsGrow c (c.cnt k n) := of_heads rfl

/-! ## Messages to the peer and to the host -/

theorem putOnWire (c : Chip) (es : List Envelope) : HeadsGrow c (c.putOnWire es) := by
  unfold Chip.putOnWire
  extract_lets all s d
  have hd : HeadsGrow c d := of_heads rfl
  exact hd.trans (foldl _ (fun _ _ => cnt _ _ _) all d)

theorem transmit (c : Chip) (b : EnvBody) : HeadsGrow c (c.transmit b) := by
  unfold Chip.transmit
  exact after (put _ _ _) (after (putOnWire _ _) (of_heads rfl))

theorem send (c : Chip) (b : EnvBody) : HeadsGrow c (c.send b) := by
  unfold Chip.send
  split
  · exact refl c
  · split
    · exact of_heads rfl
    · exact transmit c b

theorem post (c : Chip) (r : PmRecord) : HeadsGrow c (c.post r) := by
  unfold Chip.post
  split
  · exact refl c
  · exact after (send _ _) (of_heads rfl)

theorem histFull (c : Chip) (h : Fin 24) (full : Bool) : HeadsGrow c (c.histFull h full) := by
  unfold Chip.histFull
  split
  · exact after (cnt _ _ _) (mapHead c _ _ (.of_same rfl rfl rfl))
  · exact refl c

theorem pushFlit (c : Chip) (h : Fin 24) (m : HostMsg) : HeadsGrow c (c.pushFlit h m) := by
  unfold Chip.pushFlit
  extract_lets x all lost d
  have hd : HeadsGrow c d := after (cnt _ _ _) (mapHead c _ _ (.of_same rfl rfl rfl))
  exact hd.trans (histFull _ _ _)

/-! ## Vectors and logs -/

/-- `d` is `c` but for the vectors of a head and what goes to its host. -/
structure Vectored (h : Fin 24) (c d : Chip) : Prop where
  logs : ∀ i, (d.head i).logs = (c.head i).logs
  policy : ∀ i, (d.head i).policy = (c.head i).policy
  vecs : ∀ i, i ≠ h → (d.head i).vecs = (c.head i).vecs

namespace Vectored

variable {h : Fin 24}

theorem refl (c : Chip) : Vectored h c c := ⟨fun _ => rfl, fun _ => rfl, fun _ _ => rfl⟩

theorem trans {c d e : Chip} (j : Vectored h c d) (k : Vectored h d e) : Vectored h c e :=
  ⟨fun i => (k.logs i).trans (j.logs i), fun i => (k.policy i).trans (j.policy i), fun i hi => (k.vecs i hi).trans (j.vecs i hi)⟩

/-- Steps put together from the last. -/
theorem after {c d e : Chip} (k : Vectored h d e) (j : Vectored h c d) : Vectored h c e := j.trans k

theorem of_heads {c d : Chip} (hh : d.heads = c.heads) : Vectored h c d := by
  have hi : ∀ i, d.head i = c.head i := fun i => by
    unfold Chip.head
    rw [hh]
  exact ⟨fun i => by rw [hi], fun i => by rw [hi], fun i _ => by rw [hi]⟩

theorem cnt (c : Chip) (k : Ctr) (n : Nat) : Vectored h c (c.cnt k n) := of_heads rfl

theorem mapHead (c : Chip) (f : Head → Head) (hf : ∀ x, (f x).logs = x.logs ∧ (f x).policy = x.policy) : Vectored h c (c.mapHead h f) := by
  have hi : ∀ i, ((c.mapHead h f).head i).logs = (c.head i).logs ∧ ((c.mapHead h f).head i).policy = (c.head i).policy := fun i => by
    by_cases hi : i = h
    · subst hi
      rw [Chip.head_mapHead_same]
      exact hf _
    · rw [Chip.head_mapHead_ne _ _ _ _ hi]
      exact ⟨rfl, rfl⟩
  exact ⟨fun i => (hi i).1, fun i => (hi i).2, fun i hn => by rw [Chip.head_mapHead_ne _ _ _ _ hn]⟩

theorem mapVec (c : Chip) (v : Nat) (f : Vec → Vec) : Vectored h c (c.mapVec h v f) := mapHead c _ fun _ => ⟨rfl, rfl⟩

theorem pushFlit (c : Chip) (m : HostMsg) : Vectored h c (c.pushFlit h m) := by
  have hf : ∀ (d : Chip) (full : Bool), Vectored h d (d.histFull h full) := fun d full => by
    unfold Chip.histFull
    split
    · exact after (cnt _ _ _) (mapHead d _ fun _ => ⟨rfl, rfl⟩)
    · exact refl d
  unfold Chip.pushFlit
  extract_lets x all lost d
  have hd : Vectored h c d := after (cnt _ _ _) (mapHead c _ fun _ => ⟨rfl, rfl⟩)
  exact hd.trans (hf _ _)

theorem holdMsix (c : Chip) (v : Nat) : Vectored h c (c.holdMsix h v) := by
  unfold Chip.holdMsix
  split
  · exact refl c
  · exact after (cnt _ _ _) (mapVec c _ _)

theorem sendMsix (c : Chip) (v : Nat) : Vectored h c (c.sendMsix h v) := by
  unfold Chip.sendMsix
  extract_lets x d first e
  have hd : Vectored h c d := mapVec c _ _
  have he : Vectored h d e := (holdMsix d v).trans (mapHead _ _ fun _ => ⟨rfl, rfl⟩)
  clear_value e first
  split
  · split
    · exact (hd.trans he).trans (pushFlit _ _)
    · exact hd.trans he
  · split
    · exact hd.trans (mapVec _ _ _)
    · split
      · exact hd.trans (holdMsix _ _)
      · exact hd.trans ((pushFlit _ _).trans (of_heads rfl))

theorem cause (c : Chip) (v : Nat) : Vectored h c (c.cause h v) := by
  unfold Chip.cause
  dsimp only
  split
  · exact (mapVec c _ _).trans (sendMsix _ _)
  · exact mapVec c _ _

/-- The vectors of a head that has an interrupt policy may change. -/
theorem grows {c d : Chip} (k : Vectored h c d) (hp : (c.head h).policy ≠ []) : HeadsGrow c d := fun i => by
  by_cases hi : i = h
  · subst hi
    exact .of_policy (k.logs i) (k.policy i) hp
  · exact .of_same (k.logs i) (k.policy i) (k.vecs i hi)

end Vectored

theorem setLog (c : Chip) (h : Fin 24) (l : Nat) (x : EventLog) (hx : (c.log h l).recs <+: x.recs) : HeadsGrow c (c.setLog h l x) := by
  unfold Chip.setLog
  refine after (put _ _ _) (mapHead c h _ ⟨fun k => ?_, rfl, fun _ hv => hv⟩)
  by_cases hk : k = l
  · subst hk
    rw [Table.get_set_same]
    exact hx
  · rewrite [Table.get_set_ne _ _ _ _ _ hk]
    exact List.prefix_refl _

theorem enterLogWith (ev : Chip → Nat → Nat → Chip) (hev : ∀ c p b, HeadsGrow c (ev c p b)) (c : Chip) (h : Fin 24) (l : Nat) (r : EventRec) :
    HeadsGrow c (c.enterLogWith ev h l r) := by
  have hrecs : ∀ stamp, (c.log h l).recs <+: (Chip.EventLog.enter (c.log h l) r stamp).recs := fun stamp => by
    unfold Chip.EventLog.enter
    split
    · exact List.prefix_refl _
    · exact List.prefix_append _ _
  unfold Chip.enterLogWith
  dsimp only
  have hset := setLog c h l _ (hrecs (c.stampAt r.round))
  generalize c.setLog h l _ = d at hset
  split
  · exact after (hev _ _ _) (after (cnt _ _ _) hset)
  · split
    · next hpol =>
      refine hset.trans ((Vectored.cause d _).grows fun hp => ?_)
      rw [hp] at hpol
      cases hpol
    · exact hset

theorem logRecordWith (ev : Chip → Nat → Nat → Chip) (hev : ∀ c p b, HeadsGrow c (ev c p b)) (c : Chip) (h : Fin 24) (l : Nat) (r : EventRec) :
    HeadsGrow c (c.logRecordWith ev h l r) := after (post _ _) (enterLogWith ev hev c h l r)

theorem deliverWith (ev : Chip → Nat → Nat → Chip) (hev : ∀ c p b, HeadsGrow c (ev c p b)) (c : Chip) (page b : Nat) :
    HeadsGrow c (c.deliverWith ev page b) := by
  unfold Chip.deliverWith
  extract_lets route r d e
  have hd : HeadsGrow c d := by
    unfold d
    split <;> exact of_heads rfl
  have he : HeadsGrow d e := by
    unfold e Chip.logHereWith
    refine foldl _ (fun y h => ?_) _ d
    split
    · exact logRecordWith ev hev y h _ _
    · exact refl y
  split
  · split
    · exact hd.trans he
    · exact hd.trans (he.trans (send _ _))
  · exact hd

theorem raiseN (n : Nat) : ∀ (c : Chip) (page b : Nat), HeadsGrow c (Chip.raiseN n c page b) := by
  induction n with
  | zero => exact fun c page b => wr c _ _ _
  | succ n ih =>
    intro c page b
    unfold Chip.raiseN
    dsimp only
    split
    · exact refl c
    · split
      · exact after (deliverWith _ ih _ _ _) (wr c _ _ _)
      · exact wr c _ _ _

theorem raise (c : Chip) (f : Fld) : HeadsGrow c (c.raise f) := raiseN 25 c _ _

theorem toHost (c : Chip) (h : Fin 24) (m : HostMsg) : HeadsGrow c (c.toHost h m) := by
  unfold Chip.toHost Chip.raiseHist
  split
  · exact after (raise _ _) (after (mapHead _ _ _ (.of_same rfl rfl rfl)) (pushFlit c h m))
  · exact pushFlit c h m

end HeadsGrow
end Sys2Proof.Machine
end

section
/-! PROOF. What an access and its snoops change (R116 to R135, R219 to R233): no setting, no state of the pair or of a link, and of a head the
position served and what messages and events change. -/
namespace Sys2Proof.Machine

/-- A chip without what accesses change beside words, counters and heads. -/
def Chip.unaccessed (c : Chip) : Chip :=
  { c with
    tags := [], wmb := [], wmbAge := 0, unmirrored := false, charges := [], chans := [], trm := {}, mdc := {}, che := {}, mde := {}
    svc := { c.svc with risk := [], riskChanged := false }
    twe := { c.twe with changeMap := none, changeDram := [] } }

/-- Whether no access changes a word: none of the change map's page and none of a DRAM channel's from offset 0x800. -/
def lasting (p o : Nat) : Bool := quietReg p o && (decide (o < 0x800) || decide (p < 0x300) && p != 0x073)

/-- A head without the position served and what messages and events change. -/
def Head.still (x : Head) : Head := { x.quiet with localPos := none }

/-- `d` is `c` but for what accesses and their snoops change. -/
structure Accessed (c d : Chip) : Prop where
  rest : d.unaccessed.rest = c.unaccessed.rest
  link : d.quiet.link = c.quiet.link
  twe : d.unaccessed.quiet.twe = c.unaccessed.quiet.twe
  words : ∀ p o, lasting p o = true → d.rd p o = c.rd p o
  heads : ∀ i, (d.head i).still = (c.head i).still
  grows : HeadsGrow c d
  events : EventsKept c d

namespace Accessed

theorem refl (c : Chip) : Accessed c c := ⟨rfl, rfl, rfl, fun _ _ _ => rfl, fun _ => rfl, .refl c, .refl c⟩

theorem trans {c d e : Chip} (h : Accessed c d) (k : Accessed d e) : Accessed c e where
  rest := k.rest.trans h.rest
  link := k.link.trans h.link
  twe := k.twe.trans h.twe
  words p o hw := (k.words p o hw).trans (h.words p o hw)
  heads i := (k.heads i).trans (h.heads i)
  grows := h.grows.trans k.grows
  events := h.events.trans k.events

/-- Steps put together from the last. -/
theorem after {c d e : Chip} (k : Accessed d e) (h : Accessed c d) : Accessed c e := h.trans k

theorem foldl {α : Type} (g : Chip → α → Chip) (hg : ∀ d x, Accessed d (g d x)) (l : List α) : ∀ d, Accessed d (l.foldl g d) := by
  induction l with
  | nil => exact refl
  | cons x l ih => exact fun d => (hg d x).trans (ih _)

/-- What the shared operations change, accesses change. -/
theorem of_quiet {c d : Chip} (hr : d.rest = c.rest) (hq : d.quiet = c.quiet) (hg : HeadsGrow c d) (he : EventsKept c d) : Accessed c d where
  rest := (congrArg (fun x : Chip => x.unaccessed.rest) hr :)
  link := congrArg Quiet.link hq
  twe := congrArg (fun x : Quiet => { x.twe with changeMap := none, changeDram := [] }) hq
  words p o hw := by
    simp only [lasting, Bool.and_eq_true] at hw
    exact Chip.rd_of_quiet hq p o hw.1
  heads i := congrArg (fun x : Head => { x with localPos := none }) (Chip.head_of_quiet hq i)
  grows := hg
  events := he

/-- What of a chip no words, heads or messages are. -/
theorem of_parts {c d : Chip} (hu : d.unaccessed = c.unaccessed) : Accessed c d where
  rest := congrArg Chip.rest hu
  link := (congrArg (fun x : Chip => x.quiet.link) hu :)
  twe := (congrArg (fun x : Chip => x.quiet.twe) hu :)
  words p o _ := (congrArg (fun x : Chip => x.rd p o) hu :)
  heads i := (congrArg (fun x : Chip => (x.head i).still) hu :)
  grows := .of_heads (congrArg Chip.heads hu :)
  events := .of_regs (congrArg Chip.regs hu :)

theorem che (c : Chip) (x : Che) : Accessed c { c with che := x } := of_parts rfl
theorem trm (c : Chip) (x : Trm) : Accessed c { c with trm := x } := of_parts rfl
theorem mdc (c : Chip) (x : Mdc) : Accessed c { c with mdc := x } := of_parts rfl
theorem mde (c : Chip) (x : Mde) : Accessed c { c with mde := x } := of_parts rfl
theorem tags (c : Chip) (x : List Tag) : Accessed c { c with tags := x } := of_parts rfl

/-- A word that accesses change. -/
theorem put (c : Chip) (f : Fld) (v : Nat) (hp : f.page = 0x073 ∨ 0x300 ≤ f.page) (ho : 0x800 ≤ f.off) (hl : f.off < 4096) : Accessed c (c.put f v) where
  rest := rfl
  link := rfl
  twe := rfl
  words p o hw := Chip.rd_put_ne _ _ _ _ _ fun h => by
    simp only [lasting, quietReg, Bool.and_eq_true, Bool.or_eq_true, decide_eq_true_eq, bne_iff_ne] at hw
    obtain ⟨⟨⟨⟨⟨hlt, -⟩, -⟩, -⟩, -⟩, hw⟩ := hw
    obtain ⟨rfl, rfl⟩ := regKey_inj hlt hl h
    omega
  heads _ := rfl
  grows := .put c f v
  events := .put c f v hl (by omega)

theorem cnt (c : Chip) (k : Ctr) (n : Nat) : Accessed c (c.cnt k n) := ⟨rfl, rfl, rfl, fun _ _ _ => rfl, fun _ => rfl, .cnt c k n, .cnt c k n⟩

theorem raise (c : Chip) (f : Fld) : Accessed c (c.raise f) := of_quiet (Chip.raise_rest c f) (Chip.raise_quiet c f) (.raise c f) (.raise c f)

theorem post (c : Chip) (r : PmRecord) : Accessed c (c.post r) := of_quiet (Chip.post_rest c r) (Chip.post_quiet c r) (.post c r) (.post c r)

theorem toHost (c : Chip) (h : Fin 24) (m : HostMsg) : Accessed c (c.toHost h m) :=
  of_quiet (Chip.toHost_rest c h m) (Chip.toHost_quiet c h m) (.toHost c h m) (.toHost c h m)

/-- The position served. -/
theorem servedTo (c : Chip) (h : Fin 24) (n : Option Nat) : Accessed c (c.mapHead h fun x => { x with localPos := n }) where
  rest := rfl
  link := rfl
  twe := rfl
  words _ _ _ := rfl
  heads i := by
    by_cases hi : i = h
    · subst hi
      rw [Chip.head_mapHead_same]
      rfl
    · rw [Chip.head_mapHead_ne _ _ _ _ hi]
  grows := .mapHead c h _ (.of_same rfl rfl rfl)
  events := .mapHead c h _

end Accessed
end Sys2Proof.Machine
end

section
/-! PROOF. Every operation of an access, of its snoops and of the loss of a head changes what accesses change, and no more. -/
namespace Sys2Proof.Machine
namespace Accessed

/-! ## Channels, the Metadata Cache and extents -/

theorem meetChannel (c : Chip) (d : Nat) : Accessed c (c.meetChannel d) := by
  have hput : ∀ v, Accessed c (c.put (F.DCH_CH_PWR d) v) := fun v =>
    put c _ v (.inr (Nat.le_add_right 0x300 (4 * d))) (by show 0x800 ≤ 0x804; decide) (by show 0x804 < 4096; decide)
  unfold Chip.meetChannel
  split
  · exact after (raise _ _) (after (cnt _ _ _) (hput 0))
  · split
    · exact hput 3
    · exact refl c

theorem oweBlock (c : Chip) (k : Client) (x n : Nat) : Accessed c (c.oweBlock k x n) := by
  unfold Chip.oweBlock
  exact foldl (fun d (y : Nat × Nat) => d.oweLines k y.1 y.2) (fun d y => of_parts rfl) _ c

theorem setMdcWay (c : Chip) (s w : Nat) (x : MdcLine) : Accessed c (c.setMdcWay s w x) := of_parts rfl

theorem mdcRefer (c : Chip) (s w : Nat) : Accessed c (c.mdcRefer s w) := by
  unfold Chip.mdcRefer
  dsimp only
  split
  · refine (setMdcWay c s w _).trans (foldl _ (fun d v => ?_) _ _)
    split
    · exact refl d
    · exact setMdcWay d s v _
  · exact setMdcWay c s w _

theorem mdcToDram (c : Chip) (line : Nat) : Accessed c (c.mdcToDram line) := by
  unfold Chip.mdcToDram
  dsimp only
  refine after (oweBlock _ _ _ _) (after (cnt _ _ _) ?_)
  split <;> exact of_parts rfl

theorem evbDrain (n : Nat) : ∀ c : Chip, Accessed c (c.evbDrain n) := by
  induction n with
  | zero => exact refl
  | succ n ih =>
    intro c
    unfold Chip.evbDrain
    split
    · exact refl c
    · exact after (ih _) (after (mdcToDram _ _) (mdc _ _))

theorem evbPush (c : Chip) (line : Nat) : Accessed c (c.evbPush line) := by
  unfold Chip.evbPush
  dsimp only
  split
  · exact (raise c _).trans ((evbDrain 1 _).trans (mdc _ _))
  · exact mdc c _

theorem mdcInstall (c : Chip) (line : Nat) (dirty : Bool) : Accessed c (c.mdcInstall line dirty) := by
  unfold Chip.mdcInstall
  dsimp only
  split
  · split
    · exact mdcToDram c line
    · exact refl c
  · refine after (mdcRefer _ _ _) (after (setMdcWay _ _ _ _) ?_)
    split
    · exact evbPush c _
    · exact refl c

theorem mdcTouch (c : Chip) (line : Nat) (write : Bool) : Accessed c (c.mdcTouch line write) := by
  unfold Chip.mdcTouch
  dsimp only
  split
  · exact after (cnt _ _ _) (after (mdcRefer _ _ _) (setMdcWay c _ _ _))
  · split
    · exact after (mdcInstall _ _ _) (after (cnt _ _ _) (mdc _ _))
    · exact after (mdcInstall _ _ _) (after (oweBlock _ _ _ _) (cnt c _ _))

theorem mdcFetch (c : Chip) (line : Nat) : Accessed c (c.mdcFetch line) := by
  unfold Chip.mdcFetch
  split
  · exact after (cnt _ _ _) (mdcRefer c _ _)
  · split
    · exact after (mdcInstall _ _ _) (after (cnt _ _ _) (mdc _ _))
    · split
      · exact refl c
      · split
        · exact after (oweBlock _ _ _ _) (after (cnt _ _ _) (mdc _ _))
        · exact after (cnt _ _ _) (mdc _ _)

theorem markChange (c : Chip) (e : Nat) : Accessed c (c.markChange e) := by
  unfold Chip.markChange
  split
  · exact refl c
  · split
    · exact refl c
    · exact after (put _ _ _ (.inl rfl) (by decide) (by decide)) (after (cnt _ _ _) (after (mdcTouch _ _ _) (of_parts rfl)))

theorem mapExt (c : Chip) (e : Nat) (f : ExtEntry → ExtEntry) : Accessed c (c.mapExt e f) := by
  unfold Chip.mapExt
  exact after (mdcTouch _ _ _) (of_parts rfl)

theorem touchExtent (c : Chip) (e : Nat) : Accessed c (c.touchExtent e) := by
  unfold Chip.touchExtent
  dsimp only
  split
  · exact refl c
  · split
    · exact refl c
    · exact mapExt c e _

theorem wantRange (c : Chip) (r : Nat) : Accessed c (c.wantRange r) := by
  unfold Chip.wantRange
  exact after (cnt _ _ _) (trm _ _)

/-! ## The WMB, tags and answers -/

theorem setWmb (c : Chip) (line : Nat) (e : WmbEntry) : Accessed c (c.setWmb line e) := of_parts rfl

theorem wmbMerge (c : Chip) (line : Nat) (data : Line) (en : BitVec 64) (poison full : Bool) : Accessed c (c.wmbMerge line data en poison full) := by
  unfold Chip.wmbMerge
  extract_lets a e x c1 bad cf c2 svc c3 trm c4
  have h1 : Accessed c c1 := by
    unfold c1
    split
    · exact cnt c _ _
    · exact refl c
  have h2 : Accessed c1 c2 := by
    unfold c2
    split
    · exact of_parts rfl
    · exact after (cnt _ _ _) (setWmb _ _ _)
  have h3 : Accessed c2 c3 := by
    unfold c3
    split
    · exact refl _
    · exact of_parts rfl
  have h4 : Accessed c3 c4 := by
    unfold c4
    split
    · exact of_parts rfl
    · exact refl _
  exact after (touchExtent _ _) (after (markChange _ _) (h1.trans (h2.trans (h3.trans h4))))

theorem wmbWrite (c : Chip) (h : Fin 24) (pos line : Nat) (data : Line) (en : BitVec 64) (poison full : Bool) :
    Accessed c (c.wmbWrite h pos line data en poison full) := by
  unfold Chip.wmbWrite
  dsimp only
  generalize (if full = true then K.WMB_WRITES_FULL else K.WMB_WRITES_PARTIAL) = k
  split
  · exact cnt c _ _
  · refine after (wmbMerge _ _ _ _ _ _) ?_
    split
    · exact cnt c _ _
    · exact (cnt c k 1).trans (of_parts rfl)

theorem mapTags (c : Chip) (p : Tag → Bool) (f : Tag → Tag) : Accessed c (c.mapTags p f) := of_parts rfl
theorem setTag (c : Chip) (t : Tag) : Accessed c (c.setTag t) := of_parts rfl
theorem dropTag (c : Chip) (t : Tag) : Accessed c (c.dropTag t) := of_parts rfl

theorem respondData (c : Chip) (t : Tag) (data : Line) (poison : Bool) : Accessed c (c.respondData t data poison) := by
  unfold Chip.respondData
  dsimp only
  split
  · exact setTag c _
  · refine after (cnt _ _ _) (after (toHost _ _ _) (after (dropTag _ _) ?_))
    split
    · exact after (raise _ _) (cnt c _ _)
    · exact refl c

theorem respondCmp (c : Chip) (t : Tag) : Accessed c (c.respondCmp t) := by
  unfold Chip.respondCmp
  dsimp only
  split
  · exact setTag c _
  · split
    · exact after (cnt _ _ _) (after (toHost _ _ _) (dropTag c t))
    · exact after (toHost _ _ _) (dropTag c t)

theorem completeWrite (c : Chip) (t : Tag) : Accessed c (c.completeWrite t) := by
  unfold Chip.completeWrite
  extract_lets pos acked d
  clear_value acked
  split
  · exact setTag c _
  · split
    · exact after (respondCmp _ _) (servedTo c _ _)
    · split
      · exact respondCmp c t
      · refine after (respondCmp _ _) (after (cnt _ _ _) ?_)
        unfold d
        split
        · exact refl c
        · exact after (raise _ _) (of_parts rfl)

/-! ## Reads -/

theorem suspendOne (u : Nat) (cols : List Nat) (c : Chip) : Accessed c (Chip.suspendOne u cols c) := by
  unfold Chip.suspendOne
  split
  · exact refl c
  · dsimp only
    split
    · exact after (cnt _ _ _) (after (cnt _ _ _) (mde _ _))
    · exact after (cnt _ _ _) (mde _ _)

theorem suspendFor (c : Chip) (r : Nat) : Accessed c (c.suspendFor r) := by
  have hrep : ∀ (u : Nat) (cols : List Nat) (n : Nat) (d : Chip), Accessed d (Nat.repeat (Chip.suspendOne u cols) n d) := fun u cols n => by
    induction n with
    | zero => exact refl
    | succ n ih => exact fun d => after (suspendOne u cols _) (ih d)
  unfold Chip.suspendFor
  exact hrep _ _ _ c

theorem queueMig (c : Chip) (k e : Nat) (promote : Bool) : Accessed c (c.queueMig k e promote) := by
  unfold Chip.queueMig
  split
  · exact refl c
  · exact trm c _

theorem earnHit (c : Chip) (e : Nat) : Accessed c (c.earnHit e) := by
  unfold Chip.earnHit
  dsimp only
  split
  · exact refl c
  · split
    · exact after (queueMig _ _ _ _) (trm _ _)
    · exact trm c _

theorem waitFill (c : Chip) (t : Tag) : Accessed c (c.waitFill t) := by
  unfold Chip.waitFill
  exact after (setTag _ _) (wantRange c _)

theorem lookUp (c : Chip) (dpa : Nat) : Accessed c (c.lookUp dpa) := by
  unfold Chip.lookUp
  dsimp only
  split
  · split
    · exact mdcTouch c _ _
    · exact after (mdcTouch _ _ _) (mdcTouch c _ _)
  · exact refl c

theorem readDram (c : Chip) (t : Tag) : Accessed c (c.readDram t) := by
  unfold Chip.readDram
  split
  · exact waitFill c t
  · split
    · exact setTag c _
    · exact after (setTag _ _) (meetChannel c _)

theorem serveFull (c : Chip) (t : Tag) : Accessed c (c.serveFull t) := by
  unfold Chip.serveFull
  split
  · exact respondData c t _ _
  · exact respondData c t _ _

theorem readMedia (c : Chip) (t : Tag) : Accessed c (c.readMedia t) := by
  unfold Chip.readMedia
  dsimp only
  split
  · exact setTag c _
  · exact after (suspendFor _ _) (after (mde _ _) (setTag c _))

theorem serveRead (c : Chip) (t : Tag) : Accessed c (c.serveRead t) := by
  have hfirst : Accessed c ((c.touchExtent (extentOf t.dpa)).lookUp t.dpa) := after (lookUp _ _) (touchExtent c _)
  have hback : ∀ d : Chip, Accessed d (if d.pcacheSets = 0 then d else d.mdcTouch (d.pcacheLine (parcelOf t.dpa)) false) := fun d => by
    split
    · exact refl d
    · exact mdcTouch d _ _
  unfold Chip.serveRead
  dsimp only
  refine hfirst.trans ?_
  generalize (c.touchExtent (extentOf t.dpa)).lookUp t.dpa = d
  split
  · exact setTag d _
  · split
    · exact setTag d _
    · split
      · exact after (serveFull _ _) (cnt d _ _)
      · exact readDram d t
      · exact readDram d t
      · split
        · exact readDram d t
        · refine ((earnHit d (extentOf t.dpa)).trans (hback _)).trans ?_
          generalize (if (d.earnHit (extentOf t.dpa)).pcacheSets = 0 then d.earnHit (extentOf t.dpa) else _) = e
          split
          · exact after (serveFull _ _) (after (oweBlock _ _ _ _) (after (cnt _ _ _) (of_parts rfl)))
          · split
            · exact after (readDram _ _) (cnt e _ _)
            · exact after (readMedia _ _) (cnt e _ _)

theorem translate (c : Chip) (t : Tag) : Accessed c (c.translate t) := by
  unfold Chip.translate
  dsimp only
  split
  · exact setTag c _
  · split
    · exact after (serveRead _ _) (trm _ _)
    · exact after (setTag _ _) (after (mdcFetch _ _) (after (trm _ _) (after (cnt _ _ _) (trm _ _))))

theorem beginRead (c : Chip) (t : Tag) : Accessed c (c.beginRead t) := by
  unfold Chip.beginRead
  dsimp only
  split
  · exact after (serveFull _ _) (after (touchExtent _ _) (cnt c _ _))
  · exact translate c t

theorem continueTags (c : Chip) (p : Tag → Bool) (f : Chip → Tag → Chip) (hf : ∀ d t, Accessed d (f d t)) : Accessed c (c.continueTags p f) := by
  unfold Chip.continueTags
  refine foldl _ (fun d t => ?_) _ c
  split
  · split
    · exact hf d _
    · exact refl d
  · exact refl d

/-! ## The directory and the snoops -/

theorem setShadow (c : Chip) (k : Nat) (e : DirEntry) : Accessed c (c.setShadow k e) := by
  unfold Chip.setShadow
  exact after (mdcTouch _ _ _) (che _ _)

theorem setDir (c : Chip) (line : Nat) (e : DirEntry) : Accessed c (c.setDir line e) := by
  unfold Chip.setDir
  extract_lets k old e' d
  have hd : Accessed c d := by
    unfold d
    split
    · exact cnt c _ _
    · split
      · exact cnt c _ _
      · exact refl c
  refine hd.trans ?_
  split
  · exact che d _
  · split
    · split
      · exact che d _
      · exact setShadow d k e'
    · exact setShadow d k e'

theorem dirRemove (c : Chip) (line : Nat) (h : Fin 24) : Accessed c (c.dirRemove line h) := by
  unfold Chip.dirRemove
  dsimp only
  split
  · exact refl c
  · exact setDir c line _

theorem settle (c : Chip) : Accessed c c.settle := che c _

theorem sendSnoops (c : Chip) (line : Nat) (hs : List (Fin 24)) (kind : Nat) : Accessed c (c.sendSnoops line hs kind) := by
  unfold Chip.sendSnoops
  refine foldl _ (fun d h => ?_) _ c
  dsimp only
  split
  · exact after (cnt _ _ _) (after (toHost _ _ _) (che _ _))
  · exact che d _

theorem afterOrder (c : Chip) (t : Tag) : Accessed c (c.afterOrder t) := by
  unfold Chip.afterOrder
  split
  · exact after (che _ _) (dropTag c t)
  · split
    · refine after (setTag _ _) ?_
      split
      · exact refl c
      · exact cnt c _ _
    · split
      · exact completeWrite c t
      · exact completeWrite c t
      · exact respondCmp c t
      · exact respondCmp c t
      · split
        · exact beginRead c t
        · exact setTag c _

theorem finishAccess (c : Chip) (t : Tag) : Accessed c (c.finishAccess t) := by
  unfold Chip.finishAccess
  extract_lets d r c1 x1 c2 c3 t' x
  have h1 : Accessed c c1 := after (cnt _ _ _) (setDir c _ _)
  have h3 : Accessed c c3 := h1.trans (after (settle c2) (che c1 _))
  refine h3.trans ?_
  split
  · exact after (afterOrder _ _) (wmbWrite _ _ _ _ _ _ _ _)
  · exact afterOrder _ _

theorem actAccess (c : Chip) (t : Tag) : Accessed c (c.actAccess t) := by
  unfold Chip.actAccess
  dsimp only
  split
  · exact refl c
  · split
    · exact after (finishAccess _ _) (che _ _)
    · exact after (setTag _ _) (after (sendSnoops _ _ _ _) (che _ _))

theorem pumpOrdered (n : Nat) : ∀ c : Chip, Accessed c (c.pumpOrdered n) := by
  induction n with
  | zero => exact refl
  | succ n ih =>
    intro c
    unfold Chip.pumpOrdered
    extract_lets firsts d
    have hd : Accessed c d := foldl _ (fun e x => by
      split
      · exact actAccess e _
      · exact che e _) _ c
    split
    · exact hd
    · exact hd.trans (ih d)

theorem orderHere (c : Chip) (t : Tag) : Accessed c (c.orderHere t) := by
  unfold Chip.orderHere
  dsimp only
  split
  · exact refl c
  · exact che c _

theorem evictEntry (c : Chip) (line : Nat) : Accessed c (c.evictEntry line) := by
  unfold Chip.evictEntry
  dsimp only
  exact after (sendSnoops _ _ _ _) (after (che _ _) (after (raise _ _) (after (cnt _ _ _) (after (cnt _ _ _) (setDir c _ _)))))

theorem makeRoom {c d : Chip} {t : Tag} (h : c.makeRoom t = some d) : Accessed c d := by
  unfold Chip.makeRoom at h
  dsimp only at h
  split at h
  · cases h
    exact refl c
  · split at h
    · cases h
    · split at h
      · cases h
        exact refl c
      · split at h
        · cases h
        · split at h
          · cases h
          · cases h
            exact after (evictEntry _ _) (post c _)

theorem orderAccess (c : Chip) (t : Tag) : Accessed c (c.orderAccess t) := by
  unfold Chip.orderAccess
  dsimp only
  split
  · split
    · exact refl c
    · exact after (setTag _ _) (cnt c _ _)
  · next d hd =>
    refine (makeRoom hd).trans ?_
    split
    · exact after (orderHere _ _) (after (che _ _) (after (setTag _ _) (after (cnt _ _ _) (after (cnt _ _ _) (after (post _ _) (che _ _))))))
    · exact after (orderHere _ _) (after (che _ _) (after (setTag _ _) (after (cnt _ _ _) (post d _))))

theorem orderWaiting (c : Chip) : Accessed c c.orderWaiting := by
  unfold Chip.orderWaiting
  refine foldl _ (fun d t => ?_) _ c
  split
  · split
    · exact orderAccess d t
    · exact refl d
  · exact refl d

theorem runCommons (c : Chip) : Accessed c c.runCommons := by
  unfold Chip.runCommons
  dsimp only
  exact after (pumpOrdered _ _) (after (orderWaiting _) (che _ _))

theorem answerSnoop (c : Chip) (h : Fin 24) (line kind : Nat) : Accessed c (c.answerSnoop h line kind) := by
  unfold Chip.answerSnoop
  extract_lets x1 c1 c2 e c3 c4
  split
  · exact refl c
  · have h2 : Accessed c c2 := after (cnt c1 _ _) (che c _)
    have h3 : Accessed c2 c3 := by
      unfold c3
      split
      · exact dirRemove c2 line h
      · split
        · exact setDir c2 line _
        · exact refl c2
      · split
        · exact setDir c2 line _
        · exact refl c2
    exact after (runCommons _) (after (continueTags _ _ _ finishAccess) (after (mapTags _ _ _) (h2.trans h3)))

/-! ## The loss of a head -/

theorem clearHead (c : Chip) (p : Nat → Bool) (h : Fin 24) (only : Option Nat) : Accessed c (c.clearHead p h only) := by
  unfold Chip.clearHead
  extract_lets e c1 c2
  have h1 : Accessed c c1 := che c _
  split
  · split
    · exact h1.trans (answerSnoop _ _ _ _)
    · exact h1
  · have h2 : Accessed c1 c2 := foldl _ (fun d x => answerSnoop d _ _ _) _ _
    exact (h1.trans h2).trans (foldl _ (fun d x => dirRemove d _ _) _ _)

theorem loseHead (c : Chip) (h : Fin 24) (only dom : Option Nat) : Accessed c (c.loseHead h only dom) := by
  unfold Chip.loseHead
  extract_lets x1 c1 c2
  have h2 : Accessed c c2 := after (clearHead c1 _ _ _) (che c _)
  split
  · exact after (cnt _ _ _) (after (post _ _) h2)
  · exact h2

end Accessed
end Sys2Proof.Machine
end

section
/-! PROOF. Resets of a head (R95, R96): what they take of the head and leave of the others. -/
namespace Sys2Proof.Machine

theorem Table.get_map_val {V : Type} (d : Nat → V) (f : V → V) (hd : ∀ k, f (d k) = d k) (t : Table V) (k : Nat) :
    Table.get d (t.map fun e => (e.1, f e.2)) k = f (Table.get d t k) := by
  induction t with
  | nil => exact (hd k).symm
  | cons e r ih =>
    show (if k = e.1 then f e.2 else Table.get d (r.map _) k) = f (if k = e.1 then e.2 else Table.get d r k)
    split
    · rfl
    · exact ih

/-- `y` is `x` after a reset. -/
structure Head.Restarted (x y : Head) : Prop where
  reqQ : y.reqQ = []
  rwdQ : y.rwdQ = []
  sessions : y.sessions = []
  vecs : y.vecs = []
  cfgSpace : y.cfgSpace = []
  policy : y.policy = []
  logs : ∀ l, (x.logs.get (fun _ => {}) l).recs <+: (y.logs.get (fun _ => {}) l).recs
  mail : x.mailBusy.any Chip.backgroundOp = false → y.mailBusy = none
  decoders : ∀ n, if (x.decoders.get (fun _ => {}) n).committed && (x.decoders.get (fun _ => {}) n).cfg.lock
    then y.decoders.get (fun _ => {}) n = x.decoders.get (fun _ => {}) n else (y.decoders.get (fun _ => {}) n).committed = false

namespace Head

/-- What is still, and grows, stays reset. -/
theorem Restarted.grown {x y z : Head} (h : Restarted x y) (hs : z.still = y.still) (hg : Grows y z) : Restarted x z where
  reqQ := (congrArg Head.reqQ hs :).trans h.reqQ
  rwdQ := (congrArg Head.rwdQ hs :).trans h.rwdQ
  sessions := (congrArg Head.sessions hs :).trans h.sessions
  vecs := hg.vecs h.policy h.vecs
  cfgSpace := (congrArg Head.cfgSpace hs :).trans h.cfgSpace
  policy := hg.policy.trans h.policy
  logs l := (h.logs l).trans (hg.logs l)
  mail hm := (congrArg Head.mailBusy hs :).trans (h.mail hm)
  decoders n := by
    have hd : z.decoders = y.decoders := (congrArg Head.decoders hs :)
    rw [hd]
    exact h.decoders n

/-- A head is reset from any it has grown from. -/
theorem Restarted.of_grown {x y z : Head} (hs : y.still = x.still) (hg : Grows x y) (h : Restarted y z) : Restarted x z where
  reqQ := h.reqQ
  rwdQ := h.rwdQ
  sessions := h.sessions
  vecs := h.vecs
  cfgSpace := h.cfgSpace
  policy := h.policy
  logs l := (hg.logs l).trans (h.logs l)
  mail hm := h.mail ((congrArg (fun z : Head => z.mailBusy.any Chip.backgroundOp) hs :).trans hm)
  decoders n := by
    have hd : y.decoders = x.decoders := (congrArg Head.decoders hs :)
    rw [← hd]
    exact h.decoders n

end Head

/-- `d` is `c` but for head `h` and what its reset changes beside the other heads. -/
structure Reset (h : Fin 24) (c d : Chip) : Prop where
  applied : d.applied = c.applied
  rst : d.rst = c.rst
  still : ∀ i, i ≠ h → (d.head i).still = (c.head i).still
  words : ∀ i, i ≠ h → d.linkWord i = c.linkWord i

namespace Reset

variable {h : Fin 24}

theorem refl (c : Chip) : Reset h c c := ⟨rfl, rfl, fun _ _ => rfl, fun _ _ => rfl⟩

theorem trans {c d e : Chip} (j : Reset h c d) (k : Reset h d e) : Reset h c e :=
  ⟨k.applied.trans j.applied, k.rst.trans j.rst, fun i hi => (k.still i hi).trans (j.still i hi), fun i hi => (k.words i hi).trans (j.words i hi)⟩

/-- Steps put together from the last. -/
theorem after {c d e : Chip} (k : Reset h d e) (j : Reset h c d) : Reset h c e := j.trans k

theorem of_accessed {c d : Chip} (a : Accessed c d) : Reset h c d where
  applied := (congrArg Chip.applied a.rest :)
  rst := (congrArg Chip.rst a.rest :)
  still i _ := a.heads i
  words i _ := a.words _ _ (by
    have := i.isLt
    have hq := Chip.quiet_linkWord i
    simp only [lasting, hq, Bool.true_and, Bool.or_eq_true, Bool.and_eq_true, decide_eq_true_eq, bne_iff_ne]
    omega)

theorem mapHead (c : Chip) (f : Head → Head) : Reset h c (c.mapHead h f) :=
  ⟨rfl, rfl, fun i hi => by rw [Chip.head_mapHead_ne _ _ _ _ hi], fun _ _ => rfl⟩

theorem put (c : Chip) (f : Fld) (v : Nat) (hf : f.off < 4096) (hne : ∀ i : Fin 24, i ≠ h → f.page ≠ 0x241 + 2 * i.val) : Reset h c (c.put f v) :=
  ⟨rfl, rfl, fun _ _ => rfl, fun i hi => Chip.rd_put_ne _ _ _ _ _ fun hk => hne i hi (regKey_inj (by decide) hf hk).1.symm⟩

theorem cnt (c : Chip) (k : Ctr) (n : Nat) : Reset h c (c.cnt k n) := of_accessed (.cnt c k n)
theorem raise (c : Chip) (f : Fld) : Reset h c (c.raise f) := of_accessed (.raise c f)

theorem resetMailbox (c : Chip) : Reset h c (c.resetMailbox h) := by
  unfold Chip.resetMailbox
  split
  · exact mapHead c _
  · split
    · exact refl c
    · exact after (cnt _ _ _) (after (mapHead _ _) (mapHead c _))

theorem showDecoders (c : Chip) : Reset h c (c.showDecoders h) := by
  unfold Chip.showDecoders
  have hne : ∀ i : Fin 24, i ≠ h → 0x240 + 2 * h.val ≠ 0x241 + 2 * i.val := fun i _ => by omega
  have hoff : 0x800 < 4096 := by decide
  exact after (put _ (F.HCFG_DECODERS_ERROR h.val) _ hoff hne) (put c (F.HCFG_DECODERS_COMMITTED h.val) _ hoff hne)

theorem setLtssm (c : Chip) (st : Nat) : Reset h c (c.setLtssm h st) := by
  have hp := (portOf h).isLt
  have hl : linkPos h < 4 := Nat.mod_lt _ (by decide)
  unfold Chip.setLtssm
  extract_lets p old c1 c2
  have h1 : Reset h c c1 := put c (F.HLNK_LINK_LTSSM h.val) _ (by show 0x800 < 4096; decide) fun i hi hpage => hi (Fin.ext (by
    have : 0x241 + 2 * h.val = 0x241 + 2 * i.val := hpage
    omega))
  have h2 : Reset h c1 c2 := by
    unfold c2
    split
    · exact put c1 (F.CARB_CARBON_SHADOW_LTSSM p (linkPos h)) _ (by show 0x800 + 0x10 * linkPos h < 4096; omega) fun i _ => by
        show 0x201 + 4 * (portOf h).val ≠ 0x241 + 2 * i.val
        omega
    · exact refl c1
  split
  · exact after (raise _ _) (h1.trans h2)
  · exact h1.trans h2

theorem toDetect (c : Chip) : Reset h c (c.toDetect h) := by
  unfold Chip.toDetect Chip.freeLanes
  split
  · exact refl c
  · exact after (put _ (F.HP_LANE_ACTIVE (portOf h).val) _ (by show 0x804 < 4096; decide) fun i _ => by
      show 0x200 + 4 * (portOf h).val ≠ 0x241 + 2 * i.val
      omega) (setLtssm c 0)

/-- The settings after a reset: the head's own, cleared, without its reset of the link. -/
theorem resetHead (c : Chip) (link : Bool) : Reset h c (c.resetHead h link) := by
  unfold Chip.resetHead
  extract_lets c1 keep c2 c3 c4 c5
  split
  · exact refl c
  · have h1 : Reset h c c1 := after (raise _ _) (cnt c _ _)
    have h2 : Reset h c1 c2 := after (mapHead _ _) (resetMailbox c1)
    have h3 : Reset h c2 c3 := after (showDecoders _) (after (put _ (F.SES_HEAD_SESSIONS h.val) _ (by have := h.isLt; show 0x800 + 0x4 * h.val < 4096; omega)
      fun i _ => by
        show 0x033 ≠ 0x241 + 2 * i.val
        omega) (put c2 (F.HLNK_LINK_D_STATE h.val) _ (by show 0x800 < 4096; decide) fun i hi hp => hi (Fin.ext (by
        have : 0x241 + 2 * h.val = 0x241 + 2 * i.val := hp
        omega))))
    have h5 : Reset h c3 c5 := of_accessed (.after (.loseHead c4 h none none) (.tags c3 _))
    have hall : Reset h c c5 := ((h1.trans h2).trans h3).trans h5
    split
    · exact hall.trans (toDetect c5)
    · exact hall

end Reset

/-! ## The head itself -/

variable {h : Fin 24}

theorem Chip.still_resetMailbox (c : Chip) (h : Fin 24) : ((c.resetMailbox h).head h).logs = (c.head h).logs ∧
    ((c.resetMailbox h).head h).decoders = (c.head h).decoders ∧
    ((c.head h).mailBusy.any Chip.backgroundOp = false → ((c.resetMailbox h).head h).mailBusy = none) := by
  unfold Chip.resetMailbox Chip.setReply
  split
  · next hb =>
    rw [Chip.head_mapHead_same]
    exact ⟨rfl, rfl, fun _ => hb⟩
  · next op hb =>
    split
    · next hop =>
      refine ⟨rfl, rfl, fun hm => ?_⟩
      rw [hb, Option.any_some, hop] at hm
      cases hm
    · rw [Chip.head_cnt, Chip.head_mapHead_same, Chip.head_mapHead_same]
      exact ⟨rfl, rfl, fun _ => rfl⟩

/-- A decoder but for a commitment that is not locked. -/
def Decoder.kept (d : Decoder) : Decoder :=
  if d.committed && d.cfg.lock then d else { d with committed := false, failed := false, waiting := false }

theorem Decoder.kept_spec {d e : Decoder} (he : e = d.kept) : if d.committed && d.cfg.lock then e = d else e.committed = false := by
  subst he
  unfold Decoder.kept
  split
  · rfl
  · rfl

/-- The move of a link to Detect changes words, and what its event changes. -/
theorem toDetect_heads (c : Chip) (h i : Fin 24) : ((c.toDetect h).head i).still = (c.head i).still ∧ Head.Grows (c.head i) ((c.toDetect h).head i) := by
  have hraise : ∀ (d : Chip) (f : Fld), d.heads = c.heads → ((d.raise f).head i).still = (c.head i).still ∧ Head.Grows (c.head i) ((d.raise f).head i) :=
    fun d f hd => by
      have a := Accessed.raise d f
      exact ⟨(a.heads i).trans (by rw [Chip.head, hd]; rfl), (HeadsGrow.of_heads hd).trans a.grows i⟩
  unfold Chip.toDetect
  split
  · exact ⟨rfl, .refl _⟩
  · show (((c.setLtssm h 0).head i).still = _ ∧ Head.Grows _ ((c.setLtssm h 0).head i))
    unfold Chip.setLtssm
    extract_lets p old c1 c2
    have h2 : c2.heads = c.heads := by
      unfold c2
      split <;> rfl
    split
    · exact hraise c2 _ h2
    · rw [Chip.head, h2]
      exact ⟨rfl, .refl _⟩

theorem Accessed.restarted {c d : Chip} {x : Head} (a : Accessed c d) (hr : Head.Restarted x (c.head h)) : Head.Restarted x (d.head h) :=
  hr.grown (a.heads h) (a.grows h)

theorem resetHead_restarted (c : Chip) (link : Bool) (he : c.headExists h = true) : Head.Restarted (c.head h) ((c.resetHead h link).head h) := by
  unfold Chip.resetHead
  extract_lets c1 keep c2 c3 c4 c5
  rw [if_neg (by simp [he])]
  have h1 : Accessed c c1 := .after (.raise _ _) (.cnt c _ _)
  have h2 : Head.Restarted (c1.head h) (c2.head h) := by
    obtain ⟨hl, hd, hm⟩ := c1.still_resetMailbox h
    unfold c2
    rw [Chip.head_mapHead_same]
    refine ⟨rfl, rfl, rfl, rfl, rfl, rfl, fun l => ?_, hm, fun n => ?_⟩
    · rewrite [← hl]
      exact List.prefix_refl _
    · have hn := Table.get_map_val (fun _ => ({} : Decoder)) Decoder.kept (fun _ => rfl) ((c1.resetMailbox h).head h).decoders n
      exact Decoder.kept_spec (hn.trans (by rw [hd]))
  have h5 : Accessed c3 c5 := .after (.loseHead c4 h none none) (.tags c3 _)
  have hall : Head.Restarted (c.head h) (c5.head h) :=
    h5.restarted (.of_grown (h1.heads h) (h1.grows h) h2)
  split
  · obtain ⟨hs, hg⟩ := toDetect_heads c5 h h
    exact hall.grown hs hg
  · exact hall

theorem resetHead_ltssm (c : Chip) (he : c.headExists h = true) : (c.resetHead h true).ltssm h = 0 := by
  unfold Chip.resetHead
  extract_lets c1 keep c2 c3 c4 c5
  rw [if_neg (by simp [he]), if_pos rfl]
  unfold Chip.toDetect
  split
  · next h0 => exact h0
  · rw [Chip.ltssm_freeLanes, Chip.ltssm_setLtssm _ _ (by decide)]

/-! ## The commands -/

/-- The chip that a fold over heads of both chips leaves. -/
theorem State.chip_foldl_mapBoth {α : Type} (f : α → Chip → Chip) (w : Twin) (l : List α) :
    ∀ s : State, (l.foldl (fun s x => s.mapBoth (f x)) s).chip w = l.foldl (fun c x => f x c) (s.chip w) := by
  induction l with
  | nil => exact fun s => rfl
  | cons x l ih => exact fun s => (ih _).trans (by rw [State.chip_mapBoth]; rfl)

theorem State.chip_resetHeads (s : State) (w : Twin) (h : Fin 24) (link : Bool) (hup : (s.chip w).up = true) :
    (s.resetHeads [h] link).chip w = (s.chip w).resetHead h link :=
  (State.chip_foldl_mapBoth (fun h c => if c.up then c.resetHead h link else c) w [h] s).trans (if_pos hup)

/-- A fold that meets `h` reaches what its step at `h` brings about, where every step keeps both that and what the step needs. -/
theorem foldl_reaches {α β : Type} {P Q : β → Prop} (g : β → α → β) (a : α) (hP : ∀ d x, P d → P (g d x)) (ha : ∀ d, P d → Q (g d a))
    (hQ : ∀ d x, x ≠ a → P d → Q d → Q (g d x)) (l : List α) (hl : a ∈ l) : ∀ d, P d → Q (l.foldl g d) := by
  have hkeep : ∀ (l : List α) (d : β), P d → Q d → Q (l.foldl g d) := fun l => by
    induction l with
    | nil => exact fun d _ hq => hq
    | cons x l ih =>
      intro d hp hq
      by_cases hx : x = a
      · subst hx
        exact ih _ (hP d x hp) (ha d hp)
      · exact ih _ (hP d x hp) (hQ d x hx hp hq)
  induction l with
  | nil => cases hl
  | cons x l ih =>
    intro d hp
    by_cases hx : x = a
    · subst hx
      exact hkeep l _ (hP d x hp) (ha d hp)
    · exact ih (List.mem_of_ne_of_mem (Ne.symm hx) hl) _ (hP d x hp)

theorem mem_portHeads {h : Fin 24} {p : Fin 6} (hp : portOf h = p) : h ∈ portHeads p := by
  simp [portHeads, allHeads, hp]

/-- One head of a port whose PERST_N goes low. -/
def Chip.perstHead (c : Chip) (h : Fin 24) : Chip :=
  (if c.up then c.resetHead h true else c).mapHead h fun x => { x with inReset := true }

theorem Chip.perstHead_reset (c : Chip) (h : Fin 24) : Reset h c (c.perstHead h) := by
  unfold Chip.perstHead
  refine .after (.mapHead _ _) ?_
  split
  · exact .resetHead c true
  · exact .refl c

theorem Reset.up {c d : Chip} (r : Reset h c d) : d.up = c.up := (congrArg (fun x : Rst => x.powered && !x.resetN && !x.fenced && !x.extested) r.rst :)

theorem Reset.headExists {c d : Chip} (r : Reset h c d) (i : Fin 24) : d.headExists i = c.headExists i := by
  unfold Chip.headExists
  rw [Chip.cfg_of_applied r.applied]

/-- What PERST_N leaves of a head that exists. -/
def Chip.HeldReset (c : Chip) (h : Fin 24) : Prop := (c.head h).inReset = true ∧ (c.head h).rwdQ = [] ∧ c.ltssm h = 0

theorem Chip.perstHead_held (c : Chip) (hup : c.up = true) (he : c.headExists h = true) : (c.perstHead h).HeldReset h := by
  unfold Chip.perstHead
  rw [if_pos hup]
  refine ⟨?_, ?_, resetHead_ltssm c he⟩
  · rw [Chip.head_mapHead_same]
  · rw [Chip.head_mapHead_same]
    exact (resetHead_restarted c true he).rwdQ

theorem Reset.held {c d : Chip} {i : Fin 24} (r : Reset i c d) (hi : h ≠ i) (hc : c.HeldReset h) : d.HeldReset h := by
  obtain ⟨hin, hq, hl⟩ := hc
  have hs := r.still h hi
  exact ⟨(congrArg Head.inReset hs :).trans hin, (congrArg Head.rwdQ hs :).trans hq, (Chip.ltssm_of_word (r.words h hi)).trans hl⟩

theorem State.perstAssert_held (s : State) (w : Twin) {p : Fin 6} (hp : portOf h = p) (hup : (s.chip w).up = true) (he : (s.chip w).headExists h = true) :
    (((portHeads p).foldl (fun s h => s.mapBoth fun c => c.perstHead h) s).chip w).HeldReset h := by
  rw [State.chip_foldl_mapBoth fun h c => c.perstHead h]
  exact foldl_reaches (P := fun d : Chip => d.up = true ∧ d.headExists h = true) (Q := fun d => d.HeldReset h) (fun c h => c.perstHead h) h
    (fun d i hd => ⟨(d.perstHead_reset i).up.trans hd.1, ((d.perstHead_reset i).headExists h).trans hd.2⟩)
    (fun d hd => d.perstHead_held hd.1 hd.2) (fun d i hi _ hq => (d.perstHead_reset i).held (Ne.symm hi) hq) _ (mem_portHeads hp) _ ⟨hup, he⟩

/-- One head of a port whose PERST_N goes high. -/
def Chip.letHead (c : Chip) (h : Fin 24) : Chip := c.mapHead h fun x => { x with inReset := false }

theorem State.perstDeassert_free (s : State) (w : Twin) {p : Fin 6} (hp : portOf h = p) :
    ((((portHeads p).foldl (fun s h => s.mapBoth fun c => c.letHead h) s).chip w).head h).inReset = false := by
  rw [State.chip_foldl_mapBoth fun h c => c.letHead h]
  refine foldl_reaches (P := fun _ : Chip => True) (Q := fun d => (d.head h).inReset = false) (fun c h => c.letHead h) h
    (fun _ _ _ => trivial) (fun d _ => ?_) (fun d i hi _ hq => ?_) _ (mem_portHeads hp) _ trivial
  · show ((d.mapHead h _).head h).inReset = false
    rw [Chip.head_mapHead_same]
  · show ((d.mapHead i _).head h).inReset = false
    rw [Chip.head_mapHead_ne _ _ _ _ (Ne.symm hi)]
    exact hq

/-- Settles O20, by what a reset changes of its head and of the others. -/
theorem headResetsComplete : Obligations.HeadResetsComplete := by
  unfold Obligations.HeadResetsComplete
  refine ⟨fun i w h s hi hup he => ?_, fun i w h s hi hup he => ?_, fun w p h s hp hup he => ?_, fun w p h s hp => ?_⟩
  · have hgo : ∃ link, exec i s = .next (s.resetHeads [h] link) := by
      obtain rfl | rfl | rfl | rfl := hi
      · exact ⟨true, rfl⟩
      · exact ⟨true, rfl⟩
      · exact ⟨false, rfl⟩
      · exact ⟨false, rfl⟩
    obtain ⟨link, hgo⟩ := hgo
    have r := resetHead_restarted (s.chip w) link he
    rw [← s.chip_resetHeads w h link hup] at r
    exact ⟨_, hgo, r.reqQ, r.rwdQ, r.sessions, r.vecs, r.cfgSpace, r.policy, fun l => r.logs l.val, r.mail, fun n => r.decoders n.val⟩
  · have hgo : exec i s = .next (s.resetHeads [h] true) := by
      obtain rfl | rfl := hi
      · rfl
      · rfl
    refine ⟨_, hgo, ?_⟩
    rw [s.chip_resetHeads w h true hup]
    exact resetHead_ltssm _ he
  · exact ⟨_, rfl, s.perstAssert_held w hp hup he⟩
  · exact ⟨_, rfl, s.perstDeassert_free w hp⟩

end Sys2Proof.Machine
end

section
/-! PROOF. What a command leaves of the roles, the mode and the pins of the interlock (R182, R183), and of the links of the heads. -/
namespace Sys2Proof.Machine

/-- A word of the roles, of the state of the pair or of a port's pins. -/
def standing (p o : Nat) : Prop := p = 0x070 ∧ (o = 0x800 ∨ o = 0x804) ∨ o = 0x800 ∧ 0x200 ≤ p ∧ p < 0x218 ∧ p % 4 = 0

/-- `d` has the pins of `c`, and its events. -/
structure Pinned (c d : Chip) : Prop where
  events : EventsKept c d
  ownIn : ∀ q : Fin 6, d.is (F.HP_PORT_STATUS_OWN_IN q.val) = c.is (F.HP_PORT_STATUS_OWN_IN q.val)
  ownOut : ∀ q : Fin 6, d.is (F.HP_PORT_STATUS_OWN_OUT q.val) = c.is (F.HP_PORT_STATUS_OWN_OUT q.val)
  guard : ∀ q : Fin 6, d.is (F.HP_PORT_STATUS_GUARD_MET q.val) = c.is (F.HP_PORT_STATUS_GUARD_MET q.val)
  dead : d.is F.ROLE_PAIR_STATE_DEAD_SEEN = c.is F.ROLE_PAIR_STATE_DEAD_SEEN

/-- `d` has the mode, the roles and the pins of `c`, and its events. -/
structure Manned (c d : Chip) : Prop extends Pinned c d where
  mode : d.mode = c.mode
  roles : ∀ q, d.role q = c.role q

/-- `d` has the mode, the roles, the pins, the takeovers under way and the words of the links `L` of `c`, and its events. -/
structure Stands (L : Fin 24 → Prop) (c d : Chip) : Prop extends Manned c d where
  links : ∀ i, L i → d.linkWord i = c.linkWord i
  claimCold : d.twe.claimCold = c.twe.claimCold
  handing : d.twe.handing = c.twe.handing

namespace Pinned

theorem refl (c : Chip) : Pinned c c := ⟨.refl c, fun _ => rfl, fun _ => rfl, fun _ => rfl, rfl⟩

theorem trans {c d e : Chip} (h : Pinned c d) (k : Pinned d e) : Pinned c e where
  events := h.events.trans k.events
  ownIn q := (k.ownIn q).trans (h.ownIn q)
  ownOut q := (k.ownOut q).trans (h.ownOut q)
  guard q := (k.guard q).trans (h.guard q)
  dead := k.dead.trans h.dead

theorem foldl {α : Type} (g : Chip → α → Chip) (hg : ∀ d x, Pinned d (g d x)) (l : List α) : ∀ d, Pinned d (l.foldl g d) := by
  induction l with
  | nil => exact refl
  | cons x l ih => exact fun d => (hg d x).trans (ih _)

end Pinned

namespace Manned

theorem refl (c : Chip) : Manned c c := ⟨.refl c, rfl, fun _ => rfl⟩

theorem trans {c d e : Chip} (h : Manned c d) (k : Manned d e) : Manned c e where
  toPinned := h.toPinned.trans k.toPinned
  mode := k.mode.trans h.mode
  roles q := (k.roles q).trans (h.roles q)

theorem foldl {α : Type} (g : Chip → α → Chip) (hg : ∀ d x, Manned d (g d x)) (l : List α) : ∀ d, Manned d (l.foldl g d) := by
  induction l with
  | nil => exact refl
  | cons x l ih => exact fun d => (hg d x).trans (ih _)

theorem of_words {c d : Chip} (he : EventsKept c d) (hw : ∀ p o, standing p o → d.rd p o = c.rd p o) : Manned c d := by
  have hget : ∀ f : Fld, standing f.page f.off → d.get f = c.get f := fun f hf => by
    unfold Chip.get
    rw [hw _ _ hf]
  have hport : ∀ q : Fin 6, standing (0x200 + 4 * q.val) 0x800 := fun q => by
    have := q.isLt
    unfold standing
    omega
  have hpair : standing 0x070 0x804 := .inl ⟨rfl, .inr rfl⟩
  exact ⟨⟨he, fun q => congrArg (· == 1) (hget _ (hport q)), fun q => congrArg (· == 1) (hget _ (hport q)),
    fun q => congrArg (· == 1) (hget _ (hport q)), congrArg (· == 1) (hget _ hpair)⟩, hget _ hpair, fun q => hget _ (.inl ⟨rfl, .inl rfl⟩)⟩

theorem of_regs {c d : Chip} (h : d.regs = c.regs) : Manned c d := of_words (.of_regs h) fun p o _ => congrArg (fun t : Table Word => t.get _ _) h

end Manned

namespace Stands

variable {L : Fin 24 → Prop}

theorem refl (c : Chip) : Stands L c c := ⟨.refl c, fun _ _ => rfl, rfl, rfl⟩

theorem trans {c d e : Chip} (h : Stands L c d) (k : Stands L d e) : Stands L c e where
  toManned := h.toManned.trans k.toManned
  links i hi := (k.links i hi).trans (h.links i hi)
  claimCold := k.claimCold.trans h.claimCold
  handing := k.handing.trans h.handing

/-- Steps put together from the last. -/
theorem after {c d e : Chip} (k : Stands L d e) (h : Stands L c d) : Stands L c e := h.trans k

theorem foldl {α : Type} (g : Chip → α → Chip) (hg : ∀ d x, Stands L d (g d x)) (l : List α) : ∀ d, Stands L d (l.foldl g d) := by
  induction l with
  | nil => exact refl
  | cons x l ih => exact fun d => (hg d x).trans (ih _)

theorem foldl_mem {α : Type} (g : Chip → α → Chip) (l : List α) (hg : ∀ d, ∀ x ∈ l, Stands L d (g d x)) : ∀ d, Stands L d (l.foldl g d) := by
  induction l with
  | nil => exact refl
  | cons x l ih => exact fun d => (hg d x (List.mem_cons_self ..)).trans (ih (fun e y hy => hg e y (List.mem_cons_of_mem _ hy)) _)

theorem ite {p : Prop} [Decidable p] {c d e : Chip} (hd : Stands L c d) (he : Stands L c e) : Stands L c (if p then d else e) := by
  split
  · exact hd
  · exact he

/-- What changes neither words nor takeovers. -/
theorem of_regs {c d : Chip} (h : d.regs = c.regs) (hc : d.twe.claimCold = c.twe.claimCold) (hh : d.twe.handing = c.twe.handing) : Stands L c d :=
  ⟨.of_regs h, fun i _ => congrArg (fun t : Table Word => t.get _ _) h, hc, hh⟩

theorem quiet_standing {p o : Nat} (h : standing p o) : quietReg p o = true := by
  unfold standing at h
  simp only [quietReg, Bool.and_eq_true, decide_eq_true_eq, bne_iff_ne, Bool.not_eq_true', Bool.and_eq_false_iff, beq_eq_false_iff_ne,
    decide_eq_false_iff_not]
  omega

theorem of_quiet {c d : Chip} (hq : d.quiet = c.quiet) (he : EventsKept c d) : Stands L c d where
  toManned := .of_words he fun p o h => Chip.rd_of_quiet hq p o (quiet_standing h)
  links i _ := Chip.linkWord_of_quiet hq i
  claimCold := (congrArg (fun x : Quiet => x.twe.claimCold) hq :)
  handing := (congrArg (fun x : Quiet => x.twe.handing) hq :)

theorem of_accessed {c d : Chip} (a : Accessed c d) : Stands L c d where
  toManned := .of_words a.events fun p o h => a.words p o (by
    have hq := quiet_standing h
    unfold standing at h
    simp only [lasting, hq, Bool.true_and, Bool.or_eq_true, Bool.and_eq_true, decide_eq_true_eq, bne_iff_ne]
    omega)
  links i _ := a.words _ _ (by
    have := i.isLt
    have hq := Chip.quiet_linkWord i
    simp only [lasting, hq, Bool.true_and, Bool.or_eq_true, Bool.and_eq_true, decide_eq_true_eq, bne_iff_ne]
    omega)
  claimCold := (congrArg Twe.claimCold a.twe :)
  handing := (congrArg Twe.handing a.twe :)

theorem of_upkept {c d : Chip} (k : Upkept c d) : Stands L c d where
  toManned := .of_words k.events fun p o h => k.words p o (quiet_standing h) (by
    unfold standing at h
    omega)
  links i _ := k.words _ _ (Chip.quiet_linkWord i) (by omega)
  claimCold := (congrArg Twe.claimCold k.twe :)
  handing := (congrArg Twe.handing k.twe :)

/-- A word neither of the roles, the pair's state and the pins nor of a link. -/
theorem put (c : Chip) (f : Fld) (v : Nat) (ho : 0x010 < f.off ∧ f.off < 4096) (hs : ¬standing f.page f.off) (hp : f.page < 0x218) : Stands L c (c.put f v) where
  toManned := .of_words (.put c f v ho.2 (by omega)) fun p o h => Chip.rd_put_ne _ _ _ _ _ fun hk => by
    have hlt : o < 4096 := by
      unfold standing at h
      omega
    obtain ⟨rfl, rfl⟩ := regKey_inj hlt ho.2 hk
    exact hs h
  links i _ := Chip.linkWord_put c f v i (by omega) ho.2
  claimCold := rfl
  handing := rfl

theorem raise (c : Chip) (f : Fld) : Stands L c (c.raise f) := of_quiet (Chip.raise_quiet c f) (.raise c f)
theorem send (c : Chip) (b : EnvBody) : Stands L c (c.send b) := of_quiet (Chip.send_quiet c b) (.send c b)
theorem post (c : Chip) (r : PmRecord) : Stands L c (c.post r) := of_quiet (Chip.post_quiet c r) (.post c r)
theorem postEffect (c : Chip) (e : Effect) (gated : Bool) (ends : Option Ends) : Stands L c (c.postEffect e gated ends) :=
  of_quiet (Chip.postEffect_quiet c e gated ends) (.postEffect c e gated ends)
theorem cnt (c : Chip) (k : Ctr) (n : Nat) : Stands L c (c.cnt k n) := of_regs rfl rfl rfl
theorem peak (c : Chip) (k : Ctr) (n : Nat) : Stands L c (c.peak k n) := of_regs rfl rfl rfl
theorem mapHead (c : Chip) (h : Fin 24) (f : Head → Head) : Stands L c (c.mapHead h f) := of_regs rfl rfl rfl
theorem che (c : Chip) (x : Che) : Stands L c { c with che := x } := of_regs rfl rfl rfl
theorem trm (c : Chip) (x : Trm) : Stands L c { c with trm := x } := of_regs rfl rfl rfl
theorem mde (c : Chip) (x : Mde) : Stands L c { c with mde := x } := of_regs rfl rfl rfl
theorem rte (c : Chip) (x : Rte) : Stands L c { c with rte := x } := of_regs rfl rfl rfl
theorem svc (c : Chip) (x : Svc) : Stands L c { c with svc := x } := of_regs rfl rfl rfl
theorem tags (c : Chip) (x : List Tag) : Stands L c { c with tags := x } := of_regs rfl rfl rfl
theorem twe (c : Chip) (x : Twe) (hc : x.claimCold = c.twe.claimCold) (hh : x.handing = c.twe.handing) : Stands L c { c with twe := x } := of_regs rfl hc hh

end Stands
end Sys2Proof.Machine
end

section
/-! PROOF. The operations beside an access that leave the roles, the mode and the pins as they are: stores, watermarks, Routes, repairs and takeovers
of arbitration. -/
namespace Sys2Proof.Machine
namespace Stands

variable {L : Fin 24 → Prop}

/-! ## Stores, watermarks and the Dead-Letter log -/

theorem setTag (c : Chip) (t : Tag) : Stands L c (c.setTag t) := tags c _
theorem mapTags (c : Chip) (p : Tag → Bool) (f : Tag → Tag) : Stands L c (c.mapTags p f) := tags c _
theorem mdcTouch (c : Chip) (line : Nat) (w : Bool) : Stands L c (c.mdcTouch line w) := of_accessed (.mdcTouch c line w)
theorem runCommons (c : Chip) : Stands L c c.runCommons := of_accessed (.runCommons c)
theorem setDir (c : Chip) (line : Nat) (e : DirEntry) : Stands L c (c.setDir line e) := of_accessed (.setDir c line e)
theorem setWmb (c : Chip) (line : Nat) (e : WmbEntry) : Stands L c (c.setWmb line e) := of_accessed (.setWmb c line e)
theorem touchExtent (c : Chip) (e : Nat) : Stands L c (c.touchExtent e) := of_accessed (.touchExtent c e)
theorem earnHit (c : Chip) (e : Nat) : Stands L c (c.earnHit e) := of_accessed (.earnHit c e)
theorem wmbWrite (c : Chip) (h : Fin 24) (pos line : Nat) (data : Line) (en : BitVec 64) (poison full : Bool) :
    Stands L c (c.wmbWrite h pos line data en poison full) := of_accessed (.wmbWrite c h pos line data en poison full)
theorem completeWrite (c : Chip) (t : Tag) : Stands L c (c.completeWrite t) := of_accessed (.completeWrite c t)
theorem setCharge (c : Chip) (line : Nat) (x : Charge) : Stands L c (c.setCharge line x) := of_regs rfl rfl rfl
theorem dlo (c : Chip) (source level kind copy address location : Nat) (syndrome : Option (BitVec 128)) :
    Stands L c (c.dlo source level kind copy address location syndrome) := of_upkept (.dlo c source level kind copy address location syndrome)
theorem oweLines (c : Chip) (k : Client) (d n : Nat) : Stands L c (c.oweLines k d n) := of_upkept (.oweLines c k d n)

theorem mapBits (c old : Chip) (p : Nat) : Stands L c (c.mapBits old p) := by
  unfold Chip.mapBits
  extract_lets d
  have hd : Stands L c d := by
    unfold d
    split
    · exact refl c
    · exact after (mdcTouch _ _ _) (mdcTouch c _ _)
  split
  · exact hd
  · exact hd.trans (mdcTouch _ _ _)

theorem setDirty (c : Chip) (p : Nat) (on : Bool) : Stands L c (c.setDirty p on) := by
  unfold Chip.setDirty
  extract_lets x d
  split
  · exact refl c
  · have hd : Stands L c d := trm c _
    split
    · exact after (mapBits _ _ _) (after (mdcTouch _ _ _) hd)
    · exact hd

theorem storeLine (c : Chip) (dpa : Nat) (l : Line) (poison : Bool) : Stands L c (c.storeLine dpa l poison) := by
  have hpatch : ∀ d : Chip, Stands L d (d.storePatch dpa l poison) := fun d => by
    unfold Chip.storePatch
    extract_lets a p fresh born chain x y d'
    have hd : Stands L d d' := of_regs rfl rfl rfl
    split
    · exact after (cnt _ _ _) (after (mapBits _ _ _) hd)
    · exact hd
  unfold Chip.storeLine Chip.healLine
  extract_lets x d
  have hd : Stands L c d := by
    unfold d
    split
    · exact trm c _
    · exact refl c
  split
  · exact hd.trans (hpatch d)
  · exact hd.trans (after (setDirty _ _ _) (trm d _))

theorem sendWriteWm (c : Chip) (h : Fin 24) (pos : Nat) : Stands L c (c.sendWriteWm h pos) := by
  unfold Chip.sendWriteWm
  dsimp only
  split
  · exact mapHead c h _
  · exact after (mapHead _ _ _) (after (post _ _) (mapHead c h _))

theorem sendDrainWm (c : Chip) (h : Fin 24) : Stands L c (c.sendDrainWm h) := by
  unfold Chip.sendDrainWm
  split
  · exact refl c
  · split
    · exact refl c
    · exact after (mapHead _ _ _) (post c _)

theorem releaseHere (c : Chip) (line : Nat) : Stands L c (c.releaseHere line) := by
  unfold Chip.releaseHere
  dsimp only
  split
  · exact refl c
  · split
    · split
      · exact setCharge c _ _
      · exact setCharge c _ _
    · exact after (sendDrainWm _ _) (setCharge c _ _)

theorem logRecord (c : Chip) (h : Fin 24) (l : Nat) (r : EventRec) : Stands L c (c.logRecord h l r) :=
  of_quiet (Chip.logRecord_quiet c h l r) (Chip.logRecord_events c h l r)

theorem headRecord (c : Chip) (h : Fin 24) (l page sub addr : Nat) : Stands L c (c.headRecord h l page sub addr) := by
  unfold Chip.headRecord
  split
  · exact logRecord c _ _ _
  · exact refl c

/-! ## The followers and the arbitration -/

theorem takeEarly (n : Nat) : ∀ c : Chip, Stands L c (c.takeEarly n) := by
  induction n with
  | zero => exact refl
  | succ n ih =>
    intro c
    unfold Chip.takeEarly
    split
    · exact refl c
    · exact after (ih _) (after (of_accessed (.answerSnoop _ _ _ _)) (che c _))

theorem runFollower (c : Chip) : Stands L c c.runFollower := by
  unfold Chip.runFollower
  exact after (takeEarly _ _) (runCommons c)

theorem orderHere (c : Chip) (t : Tag) : Stands L c (c.orderHere t) := of_accessed (.orderHere c t)

theorem applySweep (c : Chip) (h : Fin 24) (pos : Nat) : Stands L c (c.applySweep h pos) := by
  unfold Chip.applySweep
  extract_lets c1 mine x c2 c3
  have h1 : Stands L c c1 := foldl _ (fun d t => by
    split
    · split
      · exact refl d
      · exact orderHere d t
    · exact refl d) _ c
  have h3 : Stands L c2 c3 := foldl _ (fun d x => of_accessed (.clearHead d _ _ _)) _ c2
  exact after (runFollower _) (after (cnt _ _ _) (after h3 (after (che c1 _) h1)))

theorem orderReceived (c : Chip) : Stands L c c.orderReceived := by
  unfold Chip.orderReceived
  extract_lets isOrder recs x d
  have hd : Stands L c d := after (cnt _ _ _) (twe c _ rfl rfl)
  refine hd.trans (foldl _ (fun e x => ?_) _ d)
  split
  · exact after (runFollower _) (after (foldl _ orderHere _ _) (cnt e _ _))
  · exact applySweep e _ _
  · exact after (runFollower _) (of_accessed (.evictEntry e _))
  · exact refl e

theorem rebuildEntry (c : Chip) (line copy : Nat) (given : Option DirEntry) : Stands L c (c.rebuildEntry line copy given) := by
  have hput : ∀ (d : Chip) (e : DirEntry), Stands L d (d.putEntry line e) := fun d e => by
    unfold Chip.putEntry
    dsimp only
    split
    · exact che d _
    · exact of_accessed (.setShadow d _ _)
  unfold Chip.rebuildEntry
  extract_lets d e x x1 c1 set
  have h1 : Stands L c c1 := (che c _).trans (hput _ _)
  exact after (runFollower _) (after (dlo _ _ _ _ _ _ _ _) (after (raise _ _) (after (cnt _ _ _) h1)))

theorem takeArbitration (c : Chip) (old : List Nat) : Stands L c (c.takeArbitration old) := by
  unfold Chip.takeArbitration
  extract_lets lost x1 c1 c2 again x2 c3 wait first rest c4 x3 c5 c6
  split
  · exact refl c
  · have h3 : Stands L c c3 := after (che _ _) (after (mapTags _ _ _) (che c _))
    have h6 : Stands L c c6 := after (raise _ _) (after (cnt _ _ _) (after (che c4 _) (after (foldl _ orderHere _ _) h3)))
    refine h6.trans (after (runFollower _) ?_)
    split
    · exact refl _
    · exact raise _ _

/-! ## Routes and the carbon's pump -/

theorem mapRoute (c : Chip) (r : Nat) (f : RouteSlot → RouteSlot) : Stands L c (c.mapRoute r f) := rte c _

theorem routePut (c : Chip) (f : Fld) (v : Nat) (hp : f.page = 0x0B0) (ho : 0x010 < f.off ∧ f.off < 4096) : Stands L c (c.put f v) :=
  put c f v ho (by unfold standing; omega) (by omega)

theorem closeSlip (c : Chip) (r : Nat) (unarrived : Bool) : Stands L c (c.closeSlip r unarrived) := by
  have hcount : ∀ (d : Chip) (entry round late : Nat), Stands L d (d.countSlip r entry round late unarrived) := fun d entry round late => by
    unfold Chip.countSlip
    extract_lets p c1 c2 c3
    have h2 : Stands L d c2 := after (peak _ _ _) (after (peak _ _ _) (cnt d _ _))
    have h3 : Stands L c2 c3 := by
      unfold c3
      split
      · exact cnt _ _ _
      · exact refl _
    exact after (routePut _ _ _ rfl (by decide)) (after (routePut _ _ _ rfl (by decide)) (after (routePut _ _ _ rfl (by decide))
      (after (routePut _ _ _ rfl (by decide)) (h2.trans h3))))
  unfold Chip.closeSlip
  split
  · exact refl c
  · exact after (postEffect _ _ _ _) (after (hcount _ _ _ _) (mapRoute c _ _))

theorem checkEnd (c : Chip) (r : Nat) : Stands L c (c.checkEnd r) := by
  unfold Chip.checkEnd
  dsimp only
  split
  · exact after (raise _ _) (mapRoute c _ _)
  · exact refl c

theorem routeMeet (e n : Nat) (c : Chip) (r : Nat) : Stands L c (Chip.routeMeet e n c r) := by
  unfold Chip.routeMeet
  extract_lets x lag
  split
  · exact refl c
  · extract_lets move passed k c1 c2 c3
    have h1 : Stands L c c1 := by
      unfold c1
      split
      · exact after (cnt _ _ _) (closeSlip c r true)
      · exact refl c
    have h2 : Stands L c1 c2 := by
      unfold c2
      split
      · exact mapRoute _ _ _
      · exact refl _
    have h3 : Stands L c2 c3 := by
      unfold c3
      split
      · exact checkEnd _ _
      · exact refl _
    have hall : Stands L c c3 := (h1.trans h2).trans h3
    split
    · exact hall
    · split
      · split
        · exact hall.trans (cnt _ _ _)
        · exact hall
      · exact hall.trans (mapRoute _ _ _)

theorem showRoutes (c : Chip) (r : Request) (dpa : Nat) : Stands L c (c.showRoutes r dpa) := by
  have hsee : Stands L c (c.routeSee dpa) := by
    unfold Chip.routeSee
    split
    · exact refl c
    · split
      · exact refl c
      · exact foldl _ (fun d r => routeMeet _ _ d r) _ c
  unfold Chip.showRoutes
  split
  · exact hsee
  · exact hsee
  · exact hsee
  · exact hsee
  · exact refl c

theorem enterCommons (c : Chip) (t : Tag) : Stands L c (c.enterCommons t) := by
  unfold Chip.enterCommons
  extract_lets r c1 c2 e c3
  have h1 : Stands L c c1 := tags c _
  split
  · have h3 : Stands L c2 c3 := by
      unfold c3
      split
      · exact setDir _ _ _
      · exact refl _
    exact after (runCommons _) (after (completeWrite _ _) (after (wmbWrite _ _ _ _ _ _ _ _) (after h3 (after (cnt c1 _ _) h1))))
  · exact h1.trans (runCommons _)

theorem pauseCopy (c : Chip) (dpa : Nat) : Stands L c (c.pauseCopy dpa) := by
  unfold Chip.pauseCopy
  extract_lets e ls d
  split
  · exact refl c
  · have hd : Stands L c d := foldl _ (fun d l => after (releaseHere _ _) (setWmb d _ _)) _ c
    exact hd.trans (twe d _ rfl rfl)

theorem carbonUse (c : Chip) (r : Request) : Stands L c (c.carbonUse r) := by
  unfold Chip.carbonUse
  extract_lets h
  split
  · exact tags c _
  · extract_lets dpa t c1 c2 c3 c4 e c5
    have h1 : Stands L c c1 := showRoutes c r dpa
    have h2 : Stands L c1 c2 := by
      unfold c2
      split
      · exact pauseCopy _ _
      · exact refl _
    have h12 : Stands L c c2 := h1.trans h2
    split
    · exact h12.trans (after (sendWriteWm _ _ _) (tags c2 _))
    · split
      · have h3 : Stands L c2 c3 := by
          unfold c3
          split
          · exact sendWriteWm _ _ _
          · exact refl _
        exact h12.trans (after (enterCommons _ _) h3)
      · have h4 : Stands L c c4 := h12.trans (tags c2 _)
        split
        · exact h4.trans (after (sendWriteWm _ _ _) (wmbWrite c4 _ _ _ _ _ _ _))
        · have h5 : Stands L c c5 := h4.trans (touchExtent c4 _)
          split
          · exact h5
          · split
            · exact h5.trans (earnHit _ _)
            · exact h5

theorem carbonPump (h : Fin 24) (n : Nat) : ∀ c : Chip, Stands L c (c.carbonPump h n) := by
  induction n with
  | zero => exact refl
  | succ n ih =>
    intro c
    unfold Chip.carbonPump
    split
    · exact refl c
    · exact ite (refl c) (after (ih _) (after (carbonUse _ _) (mapHead c h _)))

/-! ## Repairs -/

theorem showRepairs (c : Chip) : Stands L c c.showRepairs :=
  put c F.REP_REPAIRS_PENDING _ (by decide) (by unfold standing; decide) (by decide)

theorem afterHold (c : Chip) : Stands L c c.afterHold := by
  unfold Chip.afterHold
  refine foldl _ (fun d h => ?_) _ c
  split
  · exact carbonPump h _ d
  · exact refl d

theorem releaseHold (c : Chip) (line : Nat) : Stands L c (c.releaseHold line) := by
  unfold Chip.releaseHold
  extract_lets x d
  have hd : Stands L c d := after (showRepairs _) (twe c _ rfl rfl)
  split
  · exact hd.trans (after (afterHold _) (after (twe _ _ rfl rfl) (post d _)))
  · exact hd

theorem continueTags (c : Chip) (p : Tag → Bool) (f : Chip → Tag → Chip) (hf : ∀ d t, Accessed d (f d t)) : Stands L c (c.continueTags p f) :=
  of_accessed (.continueTags c p f hf)

theorem answerRepaired (c : Chip) (line : Nat) : Stands L c (c.answerRepaired line) := by
  unfold Chip.answerRepaired
  exact after (runCommons _) (continueTags c _ _ .serveFull)

theorem mediaRecord (c : Chip) (line : Nat) : Stands L c (c.mediaRecord line) := by
  unfold Chip.mediaRecord Chip.mediaHere
  extract_lets form r0 r d
  have hd : Stands L c d := foldl _ (fun e h => by
    split
    · exact logRecord e _ _ _
    · exact refl e) _ c
  split
  · exact hd.trans (send _ _)
  · exact hd

theorem repairEntry (c : Chip) (line source kind copy : Nat) : Stands L c (c.repairEntry line source kind copy) := by
  unfold Chip.repairEntry
  extract_lets d
  have hd : Stands L c d := by
    unfold d
    split
    · exact refl c
    · exact dlo c _ _ _ _ _ _ _
  split
  · exact hd.trans (cnt _ _ _)
  · exact hd

theorem rewriteLine (c : Chip) (line : Nat) (l : Line) (poison : Bool) : Stands L c (c.rewriteLine line l poison) := by
  unfold Chip.rewriteLine
  exact after (oweLines _ _ _ _) (after (storeLine _ _ _ _) (trm c _))

theorem repairAlone (c : Chip) (line source : Nat) : Stands L c (c.repairAlone line source) := by
  unfold Chip.repairAlone
  extract_lets asked c1 x c2 c3
  split
  · have h1 : Stands L c c1 := releaseHold c line
    refine h1.trans (continueTags _ _ _ ?_)
    split
    · exact .serveRead
    · exact .readDram
  · have h3 : Stands L c c3 := by
      unfold c3
      split
      · exact after (repairEntry _ _ _ _ _) (after (cnt _ _ _) (rewriteLine c _ _ _))
      · exact after (mediaRecord _ _) (after (repairEntry _ _ _ _ _) (after (raise _ _) (after (cnt _ _ _) (rewriteLine c _ _ _))))
    exact h3.trans (after (answerRepaired _ _) (releaseHold _ _))

theorem fixBytes (c : Chip) (line : Nat) (data : Option (Line × Bool)) : Stands L c (c.fixBytes line data) := by
  unfold Chip.fixBytes
  extract_lets bytes e x c1 en c2
  split
  · exact refl c
  · have h1 : Stands L c c1 := twe c _ rfl rfl
    have h2 : Stands L c1 c2 := by
      unfold c2
      split
      · exact after (cnt _ _ _) (setWmb _ _ _)
      · exact after (raise _ _) (after (cnt _ _ _) (setWmb _ _ _))
    split
    · exact h1.trans h2
    · exact (h1.trans h2).trans (releaseHold _ _)

theorem takeEntry (c : Chip) (line : Nat) (e : Option DirEntry) : Stands L c (c.takeEntry line e) := by
  unfold Chip.takeEntry
  split
  · exact rebuildEntry c _ _ _
  · exact refl c

theorem repairsWithout (c : Chip) : Stands L c c.repairsWithout := by
  unfold Chip.repairsWithout
  extract_lets c1 c2 c3 x
  have h1 : Stands L c c1 := foldl _ (fun d l => takeEntry d l none) _ c
  have h2 : Stands L c1 c2 := foldl _ (fun d x => fixBytes d _ none) _ c1
  have h3 : Stands L c2 c3 := foldl _ (fun d x => repairAlone d _ _) _ c2
  exact after (afterHold _) (after (twe c3 _ rfl rfl) ((h1.trans h2).trans h3))

end Stands
end Sys2Proof.Machine
end

section
/-! PROOF. Changes of roles and of the mode (R182 to R190): the claim of a port, the chip alone, the isolated chip. -/
namespace Sys2Proof.Machine

variable {L : Fin 24 → Prop}

/-! ## Roles -/

namespace Stands

/-- A word of the carbon or of the lanes of a port. -/
theorem putCarbon (c : Chip) (p : Fin 6) (k : Nat) (f : Fld) (v : Nat) (hp : f.page = 0x200 + k + 4 * p.val) (hk : 1 ≤ k ∧ k < 4)
    (ho : 0x010 < f.off ∧ f.off < 4096) : Stands L c (c.put f v) := put c f v ho (by
  unfold standing
  omega) (by omega)

theorem carbonOff (h : Fin 24) (o : Nat) (ho : 0x800 ≤ o ∧ o < 0x810) : 0x010 < o + 0x10 * linkPos h ∧ o + 0x10 * linkPos h < 4096 := by
  have hk : linkPos h < 4 := Nat.mod_lt _ (by decide)
  omega

theorem loadCoefs (c : Chip) (h : Fin 24) : Stands L c (c.loadCoefs h) := by
  unfold Chip.loadCoefs
  exact after (putCarbon _ (portOf h) 1 _ _ rfl (by decide) (carbonOff h 0x804 (by decide)))
    (after (putCarbon _ (portOf h) 1 _ _ rfl (by decide) (carbonOff h 0x804 (by decide)))
      (after (putCarbon _ (portOf h) 1 _ _ rfl (by decide) (carbonOff h 0x804 (by decide)))
        (putCarbon c (portOf h) 1 _ _ rfl (by decide) (carbonOff h 0x800 (by decide)))))

theorem setTrack (c : Chip) (h : Fin 24) (st : Nat) : Stands L c (c.setTrack h st) :=
  putCarbon c (portOf h) 1 _ _ rfl (by decide) (carbonOff h 0x800 (by decide))

theorem acquire (c : Chip) (h : Fin 24) : Stands L c (c.acquire h) := after (mapHead _ _ _) (setTrack c h 1)

theorem setLocks (c : Chip) (h : Fin 24) (on : Bool) : Stands L c (c.setLocks h on) := by
  unfold Chip.setLocks
  extract_lets p d
  have hd : Stands L c d := after (putCarbon _ (portOf h) 1 _ _ rfl (by decide) (carbonOff h 0x800 (by decide)))
    (putCarbon c (portOf h) 1 _ _ rfl (by decide) (carbonOff h 0x800 (by decide)))
  refine hd.trans (foldl_mem _ _ (fun e l hl => ?_) _)
  have := List.mem_range.1 hl
  split
  · exact putCarbon e (portOf h) 2 _ _ rfl (by decide) (by dsimp only; omega)
  · exact refl e

theorem stopTracking (c : Chip) (h : Fin 24) : Stands L c (c.stopTracking h) := by
  unfold Chip.stopTracking Chip.showFetches
  exact after (setLocks _ _ _) (after (putCarbon _ (portOf h) 1 _ _ rfl (by decide) (carbonOff h 0x808 (by decide)))
    (after (mapHead _ _ _) (setTrack c h 0)))

end Stands

/-- `d` is `c` with the role of port `p` set to `r`. -/
structure RoleTo (L : Fin 24 → Prop) (p : Fin 6) (r : Nat) (c d : Chip) : Prop extends Pinned c d where
  mode : d.mode = c.mode
  role : d.role p = r
  others : ∀ q, q ≠ p → d.role q = c.role q
  links : ∀ i, L i → d.linkWord i = c.linkWord i
  claimCold : d.twe.claimCold = c.twe.claimCold
  handing : d.twe.handing = c.twe.handing

namespace RoleTo

variable {p : Fin 6} {r : Nat}

theorem before {c d e : Chip} (h : RoleTo L p r c d) (k : Stands L d e) : RoleTo L p r c e where
  toPinned := h.toPinned.trans k.toPinned
  mode := k.mode.trans h.mode
  role := (k.roles p).trans h.role
  others q hq := (k.roles q).trans (h.others q hq)
  links i hi := (k.links i hi).trans (h.links i hi)
  claimCold := k.claimCold.trans h.claimCold
  handing := k.handing.trans h.handing

theorem get_roles (c : Chip) (f : Fld) (p : Fin 6) (v : Nat) (ho : f.off < 4096) (h : f.page ≠ 0x070 ∨ f.off ≠ 0x800) : (c.put (roleFld p) v).get f = c.get f :=
  Chip.get_put_ne c (roleFld p) f v fun hk => by
    obtain ⟨h1, h2⟩ := regKey_inj ho (show 0x800 < 4096 by decide) hk
    exact h.elim (· h1) (· h2)

theorem put (c : Chip) (p : Fin 6) {r : Nat} (hr : r < 8) : RoleTo L p r c (c.put (roleFld p) r) := by
  have hp := p.isLt
  have hport : ∀ (q : Fin 6), 0x200 + 4 * q.val ≠ 0x070 := fun q => by omega
  refine ⟨⟨.put _ _ _ (show 0x800 < 4096 by decide) (show 0x800 ≠ 0x010 by decide), fun q => ?_, fun q => ?_, fun q => ?_, ?_⟩, ?_, ?_, fun q hq => ?_,
    fun i _ => Chip.linkWord_put c (roleFld p) r i (show 0x070 < 0x241 by decide) (show 0x800 < 4096 by decide), rfl, rfl⟩
  · exact congrArg (· == 1) (get_roles c (F.HP_PORT_STATUS_OWN_IN q.val) p r (show 0x800 < 4096 by decide) (.inl (hport q)))
  · exact congrArg (· == 1) (get_roles c (F.HP_PORT_STATUS_OWN_OUT q.val) p r (show 0x800 < 4096 by decide) (.inl (hport q)))
  · exact congrArg (· == 1) (get_roles c (F.HP_PORT_STATUS_GUARD_MET q.val) p r (show 0x800 < 4096 by decide) (.inl (hport q)))
  · exact congrArg (· == 1) (get_roles c F.ROLE_PAIR_STATE_DEAD_SEEN p r (by decide) (.inr (by decide)))
  · exact get_roles c F.ROLE_PAIR_STATE_MODE p r (by decide) (.inr (by decide))
  · exact (Chip.get_put_same c (roleFld p) r (show 3 * p.val + 3 ≤ 32 by omega)).trans (Nat.mod_eq_of_lt hr)
  · have hne : q.val ≠ p.val := fun e => hq (Fin.ext e)
    exact Chip.get_put_apart c (roleFld p) (roleFld q) r (show 3 * p.val + 3 ≤ 32 by omega) rfl rfl (by
      show 3 * q.val + 3 ≤ 3 * p.val ∨ 3 * p.val + 3 ≤ 3 * q.val
      omega)

end RoleTo

/-- The role a port shows. -/
theorem Stands.putPortRole (c : Chip) (p : Fin 6) (v : Nat) : Stands L c (c.put (F.HP_PORT_STATUS_ROLE p.val) v) := by
  have hp := p.isLt
  have hne : ∀ g : Fld, g.off < 4096 → g.page ≠ 0x200 + 4 * p.val ∨ g.off ≠ 0x800 → (c.put (F.HP_PORT_STATUS_ROLE p.val) v).get g = c.get g :=
    fun g ho h => Chip.get_put_ne c _ g v fun hk => by
      obtain ⟨h1, h2⟩ := regKey_inj ho (show 0x800 < 4096 by decide) hk
      exact h.elim (· h1) (· h2)
  have hpin : ∀ (q : Fin 6) (lo : Nat), 2 ≤ lo → (c.put (F.HP_PORT_STATUS_ROLE p.val) v).get ⟨0x200 + 4 * q.val, 0x800, lo, 1, false⟩ =
      c.get ⟨0x200 + 4 * q.val, 0x800, lo, 1, false⟩ := fun q lo hlo => by
    by_cases hq : q = p
    · subst hq
      exact Chip.get_put_apart c _ _ v (show 0 + 2 ≤ 32 by decide) rfl rfl (.inr (by show 0 + 2 ≤ lo; omega))
    · have : q.val ≠ p.val := fun e => hq (Fin.ext e)
      exact hne _ (show 0x800 < 4096 by decide) (.inl (by show 0x200 + 4 * q.val ≠ 0x200 + 4 * p.val; omega))
  exact ⟨⟨⟨.put _ _ _ (show 0x800 < 4096 by decide) (show 0x800 ≠ 0x010 by decide), fun q => congrArg (· == 1) (hpin q 3 (by decide)),
    fun q => congrArg (· == 1) (hpin q 2 (by decide)), fun q => congrArg (· == 1) (hpin q 4 (by decide)),
    congrArg (· == 1) (hne F.ROLE_PAIR_STATE_DEAD_SEEN (by decide) (.inr (by decide)))⟩,
    hne F.ROLE_PAIR_STATE_MODE (by decide) (.inr (by decide)), fun q => hne (roleFld q) (show 0x800 < 4096 by decide) (.inl (by show 0x070 ≠ _; omega))⟩,
    fun i _ => Chip.linkWord_put c (F.HP_PORT_STATUS_ROLE p.val) v i (by show 0x200 + 4 * p.val < 0x241; omega) (show 0x800 < 4096 by decide), rfl, rfl⟩

theorem setRole_to (c : Chip) (p : Fin 6) {r : Nat} (hr : r < 8) : RoleTo L p r c (c.setRole p r) := by
  unfold Chip.setRole
  extract_lets old d e
  have hd : RoleTo L p r c d := .put c p hr
  have he : RoleTo L p r c e := hd.before (by
    unfold e
    split
    · exact .refl d
    · exact .after (.raise _ _) (.after (.cnt _ _ _) (.putPortRole d p _)))
  split
  · refine he.before (.foldl _ (fun f h => ?_) _ e)
    dsimp only
    split
    · exact .after (.acquire _ _) (.loadCoefs f h)
    · exact .loadCoefs f h
  · split
    · exact he.before (.foldl _ .stopTracking _ e)
    · exact he

end Sys2Proof.Machine
end

section
/-! PROOF. The chip alone and the isolated chip (R182 to R190). -/
namespace Sys2Proof.Machine

variable {L : Fin 24 → Prop}

/-! ## Claims -/

/-- The word of a link that is not watched. -/
theorem Stands.putLink (c : Chip) (h : Fin 24) (f : Fld) (v : Nat) (hp : f.page = 0x241 + 2 * h.val) (ho : f.off = 0x800) (hL : ¬L h) : Stands L c (c.put f v) where
  toManned := .of_words (.put c f v (by omega) (by omega)) fun p o hs => Chip.rd_put_ne _ _ _ _ _ fun hk => by
    unfold standing at hs
    obtain ⟨h1, -⟩ := regKey_inj (by omega) (by omega) hk
    omega
  links i hi := Chip.rd_put_ne _ _ _ _ _ fun hk => by
    obtain ⟨h1, -⟩ := regKey_inj (by decide) (by omega) hk
    have hih : i = h := Fin.ext (by omega)
    exact hL (hih ▸ hi)
  claimCold := rfl
  handing := rfl

theorem Stands.setLtssm (c : Chip) (h : Fin 24) (st : Nat) (hL : ¬L h) : Stands L c (c.setLtssm h st) := by
  unfold Chip.setLtssm
  extract_lets p old c1 c2
  have h1 : Stands L c c1 := putLink c h _ _ rfl rfl hL
  have h2 : Stands L c1 c2 := by
    unfold c2
    split
    · exact putCarbon c1 (portOf h) 1 _ _ rfl (by decide) (carbonOff h 0x800 (by decide))
    · exact refl c1
  split
  · exact after (raise _ _) (h1.trans h2)
  · exact h1.trans h2

/-- The role of a port that its carbon claims. -/
def claimed (r : Nat) : Nat := if r = 2 ∨ r = 5 then 4 else r

/-- `d` is `c` with the roles of the ports in `l` changed by `φ`. -/
structure Claims (φ : Nat → Nat) (l : List (Fin 6)) (c d : Chip) : Prop extends Pinned c d where
  mode : d.mode = c.mode
  roles : ∀ q, d.role q = if q ∈ l then φ (c.role q) else c.role q

namespace Claims

variable {φ : Nat → Nat}

theorem of_roleTo {p : Fin 6} {c d : Chip} (h : RoleTo L p (φ (c.role p)) c d) : Claims φ [p] c d where
  toPinned := h.toPinned
  mode := h.mode
  roles q := by
    by_cases hq : q = p
    · subst hq
      simpa using h.role
    · simpa [hq] using h.others q hq

theorem of_manned {p : Fin 6} {c d : Chip} (h : Manned c d) (hφ : φ (c.role p) = c.role p) : Claims φ [p] c d where
  toPinned := h.toPinned
  mode := h.mode
  roles q := by
    by_cases hq : q = p
    · subst hq
      simpa [hφ] using h.roles q
    · simpa [hq] using h.roles q

/-- A fold over ports. -/
theorem foldl (hφ : ∀ r, φ (φ r) = φ r) (g : Chip → Fin 6 → Chip) (hg : ∀ d p, Claims φ [p] d (g d p)) (l : List (Fin 6)) :
    ∀ c, Claims φ l c (l.foldl g c) := by
  induction l with
  | nil => exact fun c => ⟨.refl c, rfl, fun q => rfl⟩
  | cons p l ih =>
    intro c
    have h1 := hg c p
    have h2 := ih (g c p)
    refine ⟨h1.toPinned.trans h2.toPinned, h2.mode.trans h1.mode, fun q => (h2.roles q).trans ?_⟩
    rw [h1.roles q]
    by_cases hp : q = p
    · subst hp
      simp [hφ]
    · simp [hp]

theorem before {l : List (Fin 6)} {c d e : Chip} (h : Claims φ l c d) (k : Manned d e) : Claims φ l c e where
  toPinned := h.toPinned.trans k.toPinned
  mode := k.mode.trans h.mode
  roles q := (k.roles q).trans (h.roles q)

theorem later {l : List (Fin 6)} {c d e : Chip} (k : Manned c d) (h : Claims φ l d e) : Claims φ l c e where
  toPinned := k.toPinned.trans h.toPinned
  mode := h.mode.trans k.mode
  roles q := (h.roles q).trans (by rw [k.roles q])

end Claims

/-- What a claim of a carbon's port leaves of the chip. -/
theorem claim_to (c : Chip) (p : Fin 6) (hr : c.role p = 2 ∨ c.role p = 5) :
    Claims claimed [p] c (c.claim p) ∧ (c.claim p).twe.handing = c.twe.handing ∧ (c.claim p).is F.ROLE_EV_TAKEOVER = true := by
  have hfill : ∀ (d : Chip) (h : Fin 24), Stands (fun _ => False) d (d.fillBuckets h) := fun d h => .mapHead d h _
  unfold Chip.claim
  extract_lets was links keep cold c1 c2 c3 x c4
  rw [if_neg (by
    have hw : was = 2 ∨ was = 5 := hr
    omega)]
  have h1 : RoleTo (fun _ => False) p (claimed (c.role p)) c c1 := by
    rw [claimed, if_pos hr]
    exact setRole_to c p (by decide)
  have h2 : Stands (fun _ => False) c1 c2 := .foldl _ (fun d h => .after (.cnt _ _ _) (.after (.cnt _ _ _) (.setLtssm d h 4 not_false))) _ c1
  have h3 : Stands (fun _ => False) c2 c3 := .foldl _ (fun d h => .after (hfill _ h) (.mapHead d h _)) _ c2
  have h4 : Claims claimed [p] c c4 := (Claims.of_roleTo (h1.before (h2.trans h3))).before (.of_regs rfl)
  have hround : ∀ d : Chip, Stands (fun _ => False) d (d.put F.ROLE_LAST_TAKEOVER_ROUND_LO c4.round) := fun d =>
    .put d _ _ (by decide) (by unfold standing; decide) (by decide)
  have hraise : Stands (fun _ => False) c4 ((c4.cnt K.ROLE_TAKEOVERS).raise F.ROLE_EV_TAKEOVER) := .after (.raise _ _) (.cnt _ _ _)
  refine ⟨h4.before (hraise.trans (hround _)).toManned, ?_, ?_⟩
  · exact ((hraise.trans (hround _)).handing).trans ((h2.trans h3).handing.trans h1.handing)
  · exact Chip.is_kept (hround _).events _ rfl rfl (Chip.raise_is _ _ rfl rfl (by decide))

theorem claim_claims (c : Chip) (p : Fin 6) : Claims claimed [p] c (c.claim p) := by
  by_cases hr : c.role p = 2 ∨ c.role p = 5
  · exact (claim_to c p hr).1
  · have hgo : c.claim p = c := by
      unfold Chip.claim
      rw [if_pos (by
        constructor
        · exact fun e => hr (.inl e)
        · exact fun e => hr (.inr e))]
    rw [hgo]
    exact .of_manned (.refl c) (if_neg hr)

theorem claimed_claimed (r : Nat) : claimed (claimed r) = claimed r := by
  unfold claimed
  split
  · rfl
  · rfl

/-! ## The mode -/

/-- `d` is `c` in mode `m`. -/
structure Moded (m : Nat) (c d : Chip) : Prop extends Pinned c d where
  mode : d.mode = m
  roles : ∀ q, d.role q = c.role q

theorem Moded.before {m : Nat} {c d e : Chip} (h : Moded m c d) (k : Manned d e) : Moded m c e where
  toPinned := h.toPinned.trans k.toPinned
  mode := k.mode.trans h.mode
  roles q := (k.roles q).trans (h.roles q)

/-- A word of the state of the pair but for the mode and `DEAD_SEEN`. -/
theorem setMode_moded (c : Chip) {m : Nat} (hm : m < 8) : Moded m c (c.setMode m) := by
  have hput : Moded m c (c.put F.ROLE_PAIR_STATE_MODE m) := by
    have hne : ∀ g : Fld, g.off < 4096 → g.page ≠ 0x070 ∨ g.off ≠ 0x804 → (c.put F.ROLE_PAIR_STATE_MODE m).get g = c.get g :=
      fun g ho h => Chip.get_put_ne c _ g m fun hk => by
        obtain ⟨h1, h2⟩ := regKey_inj ho (show 0x804 < 4096 by decide) hk
        exact h.elim (· h1) (· h2)
    have hport : ∀ (q : Fin 6) (lo : Nat), (c.put F.ROLE_PAIR_STATE_MODE m).get ⟨0x200 + 4 * q.val, 0x800, lo, 1, false⟩ =
        c.get ⟨0x200 + 4 * q.val, 0x800, lo, 1, false⟩ := fun q lo =>
      hne _ (show 0x800 < 4096 by decide) (.inl (by show 0x200 + 4 * q.val ≠ 0x070; omega))
    exact ⟨⟨.put _ _ _ (by decide) (by decide), fun q => congrArg (· == 1) (hport q 3), fun q => congrArg (· == 1) (hport q 2),
      fun q => congrArg (· == 1) (hport q 4), congrArg (· == 1) (Chip.get_put_apart c _ F.ROLE_PAIR_STATE_DEAD_SEEN m (by decide) rfl rfl (.inr (by decide)))⟩,
      (Chip.get_put_same c _ m (by decide)).trans (Nat.mod_eq_of_lt hm), fun q => hne (roleFld q) (show 0x800 < 4096 by decide) (.inr (show 0x800 ≠ 0x804 by decide))⟩
  unfold Chip.setMode
  split
  · next he => exact ⟨.refl c, he, fun _ => rfl⟩
  · exact hput.before (Stands.raise (L := fun _ => False) _ _).toManned

theorem Stands.putPair (c : Chip) (f : Fld) (v : Nat) (hp : f.page = 0x070 ∨ f.page = 0x073) (ho : 0x804 < f.off ∨ f.off < 0x800 ∨ f.page = 0x073)
    (hl : 0x010 < f.off ∧ f.off < 4096) : Stands L c (c.put f v) := put c f v hl (by
  unfold standing
  omega) (by omega)

theorem enterAlone_moded (c : Chip) : Moded mALONE c c.enterAlone := by
  have hopen : ∀ d : Chip, Stands (fun _ => False) d d.openChangeMap := fun d => by
    unfold Chip.openChangeMap Chip.setEpoch
    extract_lets e y d1 x d2
    have h1 : Stands (fun _ => False) d d1 := by
      unfold d1
      split
      · exact .refl d
      · exact .after (.putPair _ _ _ (.inr rfl) (.inr (.inr rfl)) (by decide)) (.after (.putPair _ _ _ (.inr rfl) (.inr (.inr rfl)) (by decide))
          (.after (.putPair _ _ _ (.inr rfl) (.inr (.inr rfl)) (by decide)) (.twe d _ rfl rfl)))
    exact .after (.putPair _ _ _ (.inl rfl) (.inl (by decide)) (by decide)) (.after (.putPair _ _ _ (.inl rfl) (.inl (by decide)) (by decide))
      (.after (.svc d1 _) h1))
  unfold Chip.enterAlone
  split
  · next he => exact ⟨.refl c, he, fun _ => rfl⟩
  · exact (setMode_moded c (by decide)).before (hopen _).toManned

/-! ## The chip alone -/

namespace Stands

theorem markUncovered (c : Chip) : Stands L c c.markUncovered := by
  unfold Chip.markUncovered
  extract_lets d
  have hd : Stands L c d := foldl _ (fun e h => foldl _ (fun e x => by
    split
    · exact of_accessed (.markChange e _)
    · exact refl e) _ e) _ c
  exact hd.trans (foldl _ (fun e x => of_accessed (.markChange e _)) _ d)

theorem discardGated (c : Chip) (own : Bool) : Stands L c (c.discardGated own) := by
  unfold Chip.discardGated
  extract_lets gone n x d
  have hd : Stands L c d := twe c _ rfl rfl
  split
  · exact hd
  · exact after (raise _ _) (after (cnt _ _ _) hd)

theorem endDrill (c : Chip) : Stands L c c.endDrill := by
  unfold Chip.endDrill
  split
  · exact refl c
  · exact after (putPair _ _ _ (.inl rfl) (.inr (.inl (by decide))) (by decide)) (after (putPair _ _ _ (.inl rfl) (.inl (by decide)) (by decide))
      (after (putPair _ _ _ (.inl rfl) (.inl (by decide)) (by decide)) (twe c _ rfl rfl)))

theorem withoutPeer (c : Chip) : Stands L c c.withoutPeer := by
  unfold Chip.withoutPeer
  extract_lets x c1 c2 c3
  have h1 : Stands L c c1 := of_regs rfl rfl rfl
  have h2 : Stands L c1 c2 := continueTags c1 _ _ .completeWrite
  have h3 : Stands L c2 c3 := continueTags c2 _ _ .afterOrder
  exact after (runCommons _) (after (of_accessed (.settle _)) (after (repairsWithout _) ((h1.trans h2).trans h3)))

end Stands

theorem mem_allPorts (p : Fin 6) : p ∈ allPorts := by
  revert p
  decide

theorem Manned.handedOver (c : Chip) : Manned c { c with twe := { c.twe with handing := [] } } := .of_regs rfl

/-- A mirrored chip left without its twin: ALONE, with every port it was carbon of claimed. -/
theorem becomeAlone_spec (c : Chip) (hm : c.mirrored = true) :
    Pinned c c.becomeAlone ∧ c.becomeAlone.mode = mALONE ∧ ∀ q, c.becomeAlone.role q = claimed (c.role q) := by
  unfold Chip.becomeAlone
  extract_lets old c1 c2 c3 x
  rw [if_neg (by simp [hm])]
  have h1 : Claims claimed allPorts c c1 :=
    .later (Stands.orderReceived (L := fun _ => False) c).toManned (.foldl claimed_claimed _ claim_claims _ _)
  have h2 : Moded mALONE c1 c2 := (enterAlone_moded c1).before
    (Stands.after (L := fun _ => False) (.takeArbitration _ _) (.after (.discardGated _ _) (.markUncovered _))).toManned
  have h3 : Stands (fun _ => False) c2 c3 := .after (.endDrill _) (.withoutPeer c2)
  have h4 := (h2.before h3.toManned).before (.handedOver c3)
  refine ⟨h1.toPinned.trans h4.toPinned, h4.mode, fun q => (h4.roles q).trans ?_⟩
  rw [h1.roles q, if_pos (mem_allPorts q)]

end Sys2Proof.Machine
end

section
/-! PROOF. The check of the peer and the loss of the link (R181, R186 to R188). -/
namespace Sys2Proof.Machine

variable {L : Fin 24 → Prop}

/-! ## The isolated chip -/

theorem Stands.freeLanes (c : Chip) (h : Fin 24) : Stands L c (c.freeLanes h) :=
  put c (F.HP_LANE_ACTIVE (portOf h).val) _ (by show 0x010 < 0x804 ∧ 0x804 < 4096; decide) (by
    unfold standing
    show ¬(0x200 + 4 * (portOf h).val = 0x070 ∧ (0x804 = 0x800 ∨ 0x804 = 0x804) ∨ 0x804 = 0x800 ∧ _)
    omega) (by show 0x200 + 4 * (portOf h).val < 0x218; omega)

theorem leaveL0_detect (c : Chip) (h : Fin 24) (ns : Nat) : Stands (fun _ => False) c (c.leaveL0 h 0 ns) := by
  unfold Chip.leaveL0
  split
  · exact .refl c
  · exact .after (.freeLanes _ _) (.setLtssm c h 0 not_false)

theorem leaveL0_tags (c : Chip) (h : Fin 24) (ns : Nat) : (c.leaveL0 h 0 ns).tags = c.tags := by
  have hraise : ∀ (d : Chip) (f : Fld), (d.raise f).tags = d.tags := fun d f => (congrArg Chip.tags (Chip.raise_rest d f) :)
  unfold Chip.leaveL0
  split
  · rfl
  · show (c.setLtssm h 0).tags = c.tags
    unfold Chip.setLtssm
    extract_lets p old c1 c2
    have h2 : c2.tags = c.tags := by
      unfold c2
      split <;> rfl
    split
    · exact (hraise c2 _).trans h2
    · exact h2

theorem Manned.forgot (c : Chip) (x : Che) (y : Twe) : Manned c { c with tags := [], che := x, twe := y } := .of_regs rfl

theorem isolate_spec (c : Chip) :
    c.isolate.mode = mISOLATED ∧ (∀ p, c.isolate.role p = 3) ∧ c.isolate.tags = [] ∧ c.isolate.is F.ROLE_EV_ISOLATED = true := by
  have hleave : ∀ (l : List (Fin 24)) (d : Chip), Stands (fun _ => False) d (l.foldl (fun c h => c.leaveL0 h 0 0) d) ∧
      (l.foldl (fun c h => c.leaveL0 h 0 0) d).tags = d.tags := fun l d =>
    ⟨.foldl _ (fun e h => leaveL0_detect e h 0) l d, by
      induction l generalizing d with
      | nil => rfl
      | cons h l ih => exact (ih _).trans (leaveL0_tags d h 0)⟩
  unfold Chip.isolate
  extract_lets clean c1 c2 x y c3 c4
  have h1 : c1.mode = mISOLATED := ((Stands.discardGated (L := fun _ => False) _ true).mode).trans (setMode_moded _ (by decide)).mode
  have h2 : Claims (fun _ => 3) allPorts c1 c2 := .later (Stands.endDrill (L := fun _ => False) c1).toManned
    (Claims.foldl (φ := fun _ => 3) (fun _ => rfl) _ (fun d p => .of_roleTo (setRole_to (L := fun _ => False) d p (by decide))) _ _)
  have h3 : Claims (fun _ => 3) allPorts c1 c3 := h2.before (.forgot c2 _ _)
  have h4 : Stands (fun _ => False) c3 c4 := (hleave allHeads c3).1
  have ht : c4.tags = [] := (hleave allHeads c3).2
  clear_value c4 c3 c2 c1
  have h5 : Stands (fun _ => False) c4 (c4.showRepairs.raise F.ROLE_EV_ISOLATED) := .after (.raise _ _) (.showRepairs _)
  refine ⟨(h5.mode.trans h4.mode).trans (h3.mode.trans h1), fun p => ?_, ?_, Chip.raise_is _ _ rfl rfl (by decide)⟩
  · rw [h5.roles, h4.roles, h3.roles, if_pos (mem_allPorts p)]
  · exact ((congrArg Chip.tags (Chip.raise_rest _ _) :)).trans ht

/-! ## The check of the peer -/

/-- The pair's state after a check that hears the peer in both ways. -/
def Chip.heardPuts (c : Chip) : Chip :=
  (((c.put F.ROLE_PAIR_STATE_PEER_ALIVE 1).put F.ROLE_PAIR_STATE_PULSE_OK 1).put F.ROLE_PAIR_STATE_HB_LOST 0).put F.ROLE_PAIR_STATE_PULSE_LOST 0

theorem countCheck_heard (c : Chip) : (c.countCheck true true).regs = c.heardPuts.regs ∧ (c.countCheck true true).twe.bothLost = 0 ∧
    (c.countCheck true true).twe.hbOnlyLost = 0 ∧ (c.countCheck true true).twe.pulseOnlyLost = 0 := by
  unfold Chip.countCheck Chip.lossRun bit
  simp only [if_true]
  exact ⟨rfl, rfl, rfl, rfl⟩

/-- A check that hears the peer in both ways. -/
theorem checkPeer_heard (c : Chip) (hs : c.twe.hbSeen = true) : (c.checkPeer true).is F.ROLE_PAIR_STATE_PEER_ALIVE = true ∧
    (c.checkPeer true).is F.ROLE_PAIR_STATE_PULSE_OK = true ∧ (c.checkPeer true).get F.ROLE_PAIR_STATE_HB_LOST = 0 ∧
    (c.checkPeer true).mode = c.mode := by
  obtain ⟨hr, hb, hh, hp⟩ := countCheck_heard c
  have hgo : c.checkPeer true = c.countCheck true true := by
    unfold Chip.checkPeer
    simp [hs, hb, hh, hp]
  have hget : ∀ f : Fld, (c.checkPeer true).get f = c.heardPuts.get f := fun f => by
    unfold Chip.get Chip.rd
    rw [hgo, hr]
  have his : ∀ f : Fld, (c.checkPeer true).is f = (c.heardPuts.get f == 1) := fun f => congrArg (· == 1) (hget f)
  rw [his, his, hget, Chip.mode, hget]
  unfold Chip.heardPuts
  refine ⟨?_, ?_, ?_, ?_⟩
  · simp (disch := decide) [Chip.get_put_apart, Chip.get_put_same]
  · simp (disch := decide) [Chip.get_put_apart, Chip.get_put_same]
  · simp (disch := decide) [Chip.get_put_apart, Chip.get_put_same]
  · simp (disch := decide) [Chip.get_put_apart, Chip.mode]

/-- What a check counts in words leaves the mode. -/
theorem countCheck_mode (c : Chip) (hb pulse : Bool) : (c.countCheck hb pulse).mode = c.mode := by
  have hput : ∀ (d : Chip) (f : Fld) (v : Nat), f.page = 0x070 → f.off = 0x804 → 3 ≤ f.lo → f.lo + f.width ≤ 32 → (d.put f v).mode = d.mode :=
    fun d f v hp ho hl hw => Chip.get_put_apart d f F.ROLE_PAIR_STATE_MODE v hw hp.symm ho.symm (.inl (by show 0 + 3 ≤ f.lo; omega))
  have hcnt : ∀ (d : Chip) (k : Ctr) (n : Nat), (d.cnt k n).mode = d.mode := fun _ _ _ => rfl
  unfold Chip.countCheck
  extract_lets c1 c2 c3 c4 x
  have h1 : c1.mode = c.mode := (hput _ _ _ rfl rfl (by decide) (by decide)).trans (hput _ _ _ rfl rfl (by decide) (by decide))
  have h2 : c2.mode = c1.mode := (hput _ _ _ rfl rfl (by decide) (by decide)).trans (hput _ _ _ rfl rfl (by decide) (by decide))
  have h3 : c3.mode = c2.mode := by
    unfold c3
    split
    · rfl
    · exact (hcnt _ _ _).trans (hcnt c2 _ _)
  have h4 : c4.mode = c3.mode := by
    unfold c4
    split
    · rfl
    · exact hcnt c3 _ _
  exact h4.trans (h3.trans (h2.trans h1))

theorem countCheck_silent (c : Chip) : (c.countCheck false false).twe.bothLost = c.twe.bothLost + 1 ∧ (c.countCheck false false).twe.pulseOnlyLost = 0 := by
  unfold Chip.countCheck
  extract_lets c1 c2 c3 c4 x
  have hput : ∀ (d : Chip) (f : Fld) (v : Nat), (d.put f v).twe = d.twe := fun _ _ _ => rfl
  have hcnt : ∀ (d : Chip) (k : Ctr) (n : Nat), (d.cnt k n).twe = d.twe := fun _ _ _ => rfl
  have h2 : c2.twe = c.twe := ((hput _ _ _).trans (hput _ _ _)).trans ((hput _ _ _).trans (hput _ _ _))
  have h4 : c4.twe = c.twe := ((hcnt c3 _ _).trans ((hcnt _ _ _).trans (hcnt c2 _ _))).trans h2
  clear_value c4
  exact ⟨congrArg (fun x : Twe => x.bothLost + 1) h4, rfl⟩

/-- The second check in a row that hears the peer in neither way. -/
theorem checkPeer_silent (c : Chip) (hm : c.mirrored = true) (hs : c.twe.hbSeen = false) (hl : 1 ≤ c.twe.bothLost) :
    (c.checkPeer false).is F.ROLE_PAIR_STATE_FENCE_OUT = true ∧ (c.checkPeer false).is F.ROLE_EV_PEER_SILENT = true := by
  obtain ⟨h2, h3⟩ := countCheck_silent c
  have h1 : (c.countCheck false false).mirrored = true := (congrArg (· == mMIRRORED) (countCheck_mode c false false)).trans hm
  have hgo : c.checkPeer false = (c.countCheck false false).fencePeer.raise F.ROLE_EV_PEER_SILENT := by
    unfold Chip.checkPeer
    rw [hs]
    simp [h1, h2, h3, hl]
  rw [hgo]
  refine ⟨?_, Chip.raise_is _ _ rfl rfl (by decide)⟩
  rw [Chip.is_raise _ _ _ rfl, Chip.fencePeer, Chip.is_put_same _ _ _ (by decide)]
  rfl

/-! ## The loss of the link -/

/-- A mirrored chip that has not declared the loss of its link: it says so, and is isolated, waits or goes on alone. -/
theorem declareLoss_mirrored (c : Chip) (hm : c.mirrored = true) (hd : c.twe.lossDeclared = none) :
    c.declareLoss = if (c.raise F.ROLE_EV_LINK_LOST).twin = .B then (c.raise F.ROLE_EV_LINK_LOST).isolate
      else if allPorts.any (c.raise F.ROLE_EV_LINK_LOST).ownIn then
        { c.raise F.ROLE_EV_LINK_LOST with twe := { (c.raise F.ROLE_EV_LINK_LOST).twe with lossDeclared := some (c.raise F.ROLE_EV_LINK_LOST).round } }
      else (c.raise F.ROLE_EV_LINK_LOST).becomeAlone := by
  have hj : c.mode ≠ mJOINING := fun e => by
    have : (c.mode == mMIRRORED) = true := hm
    rw [e] at this
    cases this
  unfold Chip.declareLoss
  rw [if_neg hj, if_pos hm, if_neg (by simp [hd])]

theorem raise_twin (c : Chip) (f : Fld) : (c.raise f).twin = c.twin := (congrArg Chip.twin (Chip.raise_rest c f) :)

/-- Settles O38, by what a check counts, and what the isolated chip and the chip alone are. -/
theorem peerChecksComplete : Obligations.PeerChecksComplete := by
  unfold Obligations.PeerChecksComplete
  have hdown : ∀ (w : Twin) (s : State), (s.chip w).up = true → (s.chip w).get F.CXK_LINK_STATE = 0 →
      (s.chip w).is F.ROLE_PAIR_STATE_PULSE_OK = true → ∃ t, exec (.linkDownTimeout w) s = .next t ∧ t.chip w = (s.chip w).declareLoss ∧
        t.chip w.other = s.chip w.other := fun w s hup hl hp => by
    refine ⟨_, rfl, ?_, State.chip_onUp_other _ _ _⟩
    rw [State.chip_onUp hup, hl, hp]
    rfl
  refine ⟨fun w s hup hm hs => ?_, fun w s hup hm hs hl => ?_, fun w s hup hm hl hp hd ht => ?_, fun w s hup hm hl hp hd ht ho => ?_,
    fun w r p s hup hd ht hi hr => ?_⟩
  · refine ⟨_, rfl, ?_⟩
    rw [State.chip_onUp hup, State.chip_onUp_other, if_neg hm]
    obtain ⟨h1, h2, h3, h4⟩ := checkPeer_heard (s.chip w) hs
    exact ⟨h1, h2, h3, h4, rfl⟩
  · refine ⟨_, rfl, ?_⟩
    have hmode : (s.chip w).mode ≠ mHELD := fun e => by
      have : ((s.chip w).mode == mMIRRORED) = true := hm
      rw [e] at this
      cases this
    rw [State.chip_onUp hup, State.chip_onUp_other, if_neg hmode]
    obtain ⟨h1, h2⟩ := checkPeer_silent (s.chip w) hm hs hl
    exact ⟨h1, h2, rfl⟩
  · obtain ⟨t, hgo, hw, ho⟩ := hdown w s hup hl hp
    refine ⟨t, hgo, ?_⟩
    rw [hw, declareLoss_mirrored _ hm hd, if_pos ((raise_twin _ _).trans ht)]
    obtain ⟨h1, h2, h3, h4⟩ := isolate_spec ((s.chip w).raise F.ROLE_EV_LINK_LOST)
    exact ⟨h1, h2, h3, h4, ho⟩
  · obtain ⟨t, hgo, hw, hoth⟩ := hdown w s hup hl hp
    refine ⟨t, hgo, ?_, hoth⟩
    have hk := Stands.raise (L := fun _ => False) (s.chip w) F.ROLE_EV_LINK_LOST
    have hown : allPorts.any ((s.chip w).raise F.ROLE_EV_LINK_LOST).ownIn = false := List.any_eq_false.mpr fun p _ => by
      have := (hk.ownIn p).trans (ho p)
      simpa [Chip.ownIn] using this
    rw [hw, declareLoss_mirrored _ hm hd, if_neg (by rw [raise_twin, ht]; decide), hown, if_neg (by decide)]
    exact (becomeAlone_spec _ ((congrArg (· == mMIRRORED) hk.mode).trans hm)).2.1
  · refine ⟨_, rfl, ?_⟩
    rw [State.chip_onUp hup, State.chip_onUp_other, hd]
    have hany : allPorts.any (s.chip w).ownIn = true := List.any_eq_true.mpr ⟨p, mem_allPorts p, hi⟩
    simp only [ht, hany, hr, decide_true, Bool.and_self, if_true]
    refine ⟨?_, ?_, trivial⟩
    · rw [Chip.fencePeer, Chip.is_put_same _ _ _ (by decide)]
      rfl
    · exact Chip.get_put_apart _ _ _ _ (by decide) rfl rfl (by decide)

end Sys2Proof.Machine
end

section
/-! PROOF. The chip that carries its port's links over, and becomes home (R189, R190). -/
namespace Sys2Proof.Machine

variable {L : Fin 24 → Prop}

namespace Stands

/-! ## Requests carried over -/

theorem pumpBridge (all : Bool) (n : Nat) : ∀ c : Chip, Stands L c (c.pumpBridge all n) := by
  induction n with
  | zero => exact refl
  | succ n ih =>
    intro c
    unfold Chip.pumpBridge
    extract_lets k xs x
    generalize k = m
    split
    · exact refl c
    · exact after (ih _) (after (send _ _) (twe c _ rfl rfl))

theorem bridgeWrite (c : Chip) (r : Request) (dpa : Nat) : Stands L c (c.bridgeWrite r dpa) := by
  unfold Chip.bridgeWrite
  extract_lets x y d
  split
  · exact refl c
  · exact after (pumpBridge _ _ _) (after (raise _ _) (after (cnt _ _ _) (twe c _ rfl rfl)))

theorem unmapped (c : Chip) (t : Tag) : Stands L c (c.unmapped t) := by
  unfold Chip.unmapped
  extract_lets h c1 c2
  have h1 : Stands L c c1 := after (raise _ _) (cnt c _ _)
  have h2 : Stands L c1 c2 := by
    unfold c2
    split
    · exact refl _
    · exact after (headRecord _ _ _ _ _ _) (mapHead _ _ _)
  refine (h1.trans h2).trans ?_
  split
  · exact of_accessed (.respondData _ _ _ _)
  · exact of_accessed (.respondData _ _ _ _)
  · exact of_accessed (.respondCmp _ _)

theorem answerShadow (c : Chip) (t : Tag) : Stands L c (c.answerShadow t) := by
  unfold Chip.answerShadow
  extract_lets t' d
  have hd : Stands L c d := setTag c t'
  split
  · exact hd
  · refine hd.trans ?_
    split
    · exact unmapped d t'
    · exact after (completeWrite _ _) (bridgeWrite d _ _)
    · exact after (completeWrite _ _) (bridgeWrite d _ _)
    · exact of_accessed (.respondCmp _ _)
    · exact of_accessed (.respondCmp _ _)
    · split
      · exact of_accessed (.serveFull _ _)
      · exact of_accessed (.beginRead _ _)

/-- A link carried over is in L0; the words of the others stay. -/
theorem carryOver (c : Chip) (h : Fin 24) (hL : ¬L h) : Stands L c (c.carryOver h) := by
  unfold Chip.carryOver
  extract_lets x k d ts e
  have hd : Stands L c d := after (mapHead _ _ _) (setLtssm c h 3 hL)
  have he : Stands L d e := after (cnt _ _ _) (cnt d _ _)
  exact after (runCommons _) (after (foldl _ answerShadow _ _) (hd.trans he))

theorem carryOver_ltssm (c : Chip) (h : Fin 24) : (c.carryOver h).ltssm h = 3 := by
  unfold Chip.carryOver
  extract_lets x k d ts e
  have he : Stands (fun _ => True) (c.setLtssm h 3) e := after (cnt _ _ _) (after (cnt _ _ _) (mapHead _ _ _))
  have hall : Stands (fun _ => True) (c.setLtssm h 3) (ts.foldl Chip.answerShadow e).runCommons := after (runCommons _) (after (foldl _ answerShadow _ _) he)
  exact (Chip.ltssm_of_word (hall.links h trivial)).trans (Chip.ltssm_setLtssm h 3 (by decide))

/-! ## The new home -/

theorem mapVec (c : Chip) (h : Fin 24) (v : Nat) (f : Vec → Vec) : Stands L c (c.mapVec h v f) := of_regs rfl rfl rfl

theorem sendMsix (c : Chip) (h : Fin 24) (v : Nat) : Stands L c (c.sendMsix h v) := of_quiet (Chip.sendMsix_quiet c h v) (.sendMsix c h v)

theorem mailTakeover (c : Chip) (h : Fin 24) : Stands L c (c.mailTakeover h) := by
  have hdone : ∀ (d : Chip) (r : MailReply), Stands L d (d.mailDone h r) := fun d r =>
    after (of_quiet (Chip.cause_quiet _ h 0) (.cause _ h 0)) (after (cnt _ _ _) (after (mapHead _ _ _) (mapHead d _ _)))
  have hretry : Stands L c (c.mailRetry h) := after (cnt _ _ _) (after (mapHead _ _ _) (mapHead c _ _))
  unfold Chip.mailTakeover
  generalize (c.twe.gated.any fun g => _) = announced
  dsimp only
  split
  · split
    · exact refl c
    · exact hretry
  · split
    · exact after (hdone _ _) (mapHead c _ _)
    · exact refl c

theorem doeTakeover (c : Chip) (h : Fin 24) : Stands L c (c.doeTakeover h) := by
  unfold Chip.doeTakeover
  split
  · exact mapHead c _ _
  · exact refl c

theorem mapRing (c : Chip) (q : Nat) (f : Ring → Ring) : Stands L c (c.mapRing q f) := of_regs rfl rfl rfl

theorem ringReport (c : Chip) (q : Fin 64) (idx status result : Nat) (e : Effect) (gated : Bool) :
    Stands L c (c.ringReport q idx status result e gated) := by
  have hfin : ∀ (d : Chip) (x : RingEnd) (n : Option Nat), Stands L d (d.ringFinish x n) := fun d x n => by
    unfold Chip.ringFinish
    split
    · exact refl d
    · exact mapRing d _ _
  unfold Chip.ringReport
  split
  · exact refl c
  · next x _ =>
    dsimp only
    split
    · exact postEffect c e gated _
    · exact after (hfin _ _ _) (postEffect c e gated _)

theorem ringTakeover (c : Chip) (q : Fin 64) : Stands L c (c.ringTakeover q) := by
  unfold Chip.ringTakeover
  refine foldl _ (fun d x => ?_) _ c
  split
  · exact mapRing d _ _
  · exact after (cnt _ _ _) (ringReport d _ _ _ _ _ _)

end Stands

/-- The end of a handover leaves roles, mode, pins and links. -/
theorem handoverDone_keeps (c : Chip) (p : Fin 6) : Manned c (c.handoverDone p) ∧ ∀ i, (c.handoverDone p).linkWord i = c.linkWord i := by
  unfold Chip.handoverDone
  extract_lets x c1 c2 y c3
  have h2 : Stands (fun _ => True) c1 c2 := .after (.raise _ _) (.cnt c1 _ _)
  have h3 : Stands (fun _ => True) c2 c3 := .twe c2 _ rfl rfl
  have h4 : Stands (fun _ => True) c3 (((c3.put F.ROLE_DRILL_STATUS_STATE 2).put F.ROLE_TAKEOVER_DRILL 0).cnt K.ROLE_DRILLS) :=
    .after (.cnt _ _ _) (.after (.putPair _ _ _ (.inl rfl) (.inr (.inl (by decide))) (by decide)) (.putPair _ _ _ (.inl rfl) (.inl (by decide)) (by decide)))
  have h1 : Manned c c1 := .of_regs rfl
  split
  · exact ⟨.refl c, fun _ => rfl⟩
  · split
    · exact ⟨h1.trans h2.toManned, fun i => h2.links i trivial⟩
    · exact ⟨h1.trans ((h2.trans h3).trans h4).toManned, fun i => ((h2.trans h3).trans h4).links i trivial⟩

/-- The new home of a port. -/
theorem beHome_spec (c : Chip) (p : Fin 6) : (c.beHome p).role p = 1 ∧ ∀ i, (c.beHome p).ltssm i = c.ltssm i := by
  unfold Chip.beHome
  extract_lets c1 c2 c3
  have h1 : RoleTo (fun _ => True) p 1 c c1 := setRole_to c p (by decide)
  have h2 : Stands (fun _ => True) c1 c2 := .foldl _ (fun d h => .after (.headRecord _ _ _ _ _ _) (.after (.doeTakeover _ _) (.after (.mailTakeover _ _)
    (.foldl _ (fun e v => .ite (.mapVec e h v _) (.sendMsix e h v)) _ d)))) _ c1
  have h3 : Stands (fun _ => True) c2 c3 := .foldl _ (fun d q => by
    split
    · split
      · exact .ringTakeover d q
      · exact .refl d
    · exact .refl d) _ c2
  obtain ⟨hm, hl⟩ := handoverDone_keeps c3 p
  have h4 := h1.before (h2.trans h3)
  exact ⟨(hm.roles p).trans h4.role, fun i => Chip.ltssm_of_word ((hl i).trans (h4.links i trivial))⟩

end Sys2Proof.Machine
end

section
/-! PROOF. Claims, fences and fail-stops of one chip (R182 to R190). -/
namespace Sys2Proof.Machine

variable {L : Fin 24 → Prop}

theorem mirrored_mode {c : Chip} (h : c.mirrored = true) : c.mode = mMIRRORED := beq_iff_eq.mp h

/-! ## The lines of the interlock -/

/-- A pin of a port that is not its role. -/
theorem putPin_get (c : Chip) (p : Fin 6) (lo v : Nat) (hlo : lo < 32) (g : Fld) (ho : g.off < 4096)
    (hg : g.page ≠ 0x200 + 4 * p.val ∨ g.off ≠ 0x800 ∨ g.lo + g.width ≤ lo ∨ lo + 1 ≤ g.lo) :
    (c.put ⟨0x200 + 4 * p.val, 0x800, lo, 1, false⟩ v).get g = c.get g := by
  by_cases hk : g.page = 0x200 + 4 * p.val ∧ g.off = 0x800
  · refine Chip.get_put_apart c _ g v (show lo + 1 ≤ 32 by omega) hk.1 hk.2 ?_
    show g.lo + g.width ≤ lo ∨ lo + 1 ≤ g.lo
    omega
  · exact Chip.get_put_ne c _ g v fun e => hk (regKey_inj ho (show 0x800 < 4096 by decide) e)

/-- A pin of a port. -/
def pin (p : Fin 6) (lo : Nat) : Fld := ⟨0x200 + 4 * p.val, 0x800, lo, 1, false⟩

theorem putPin_same (c : Chip) (p : Fin 6) (lo v : Nat) (hlo : lo < 32) : (c.put (pin p lo) v).is (pin p lo) = (v % 2 == 1) :=
  Chip.is_put_same c (pin p lo) v hlo

theorem putPin_other (c : Chip) (p : Fin 6) (lo k v : Nat) (hlo : lo < 32) (h : k ≠ lo) : (c.put (pin p lo) v).is (pin p k) = c.is (pin p k) :=
  congrArg (· == 1) (putPin_get c p lo v hlo (pin p k) (show 0x800 < 4096 by decide) (.inr (.inr (by
    show k + 1 ≤ lo ∨ lo + 1 ≤ k
    omega))))

theorem putPin_role (c : Chip) (p q : Fin 6) (lo v : Nat) (hlo : lo < 32) : (c.put (pin p lo) v).role q = c.role q :=
  putPin_get c p lo v hlo (roleFld q) (show 0x800 < 4096 by decide) (.inl (by show 0x070 ≠ 0x200 + 4 * p.val; omega))

theorem setOwn_pin (c : Chip) (p : Fin 6) (high : Bool) (k : Nat) (h : k ≠ 2) : (c.setOwn p high).is (pin p k) = c.is (pin p k) :=
  putPin_other c p 2 k (bit high) (by decide) h

/-- The fall of the twin's OWN line at its carbon, with no handover and no loss declared. -/
theorem peerReleases_claims (c : Chip) (p : Fin 6) (hm : c.mirrored = true) (hr : c.role p = 2) (hh : c.twe.handing = []) (hl : c.twe.lossDeclared = none) :
    (c.peerReleases p).role p = 4 ∧ (c.peerReleases p).mode = mALONE ∧ (c.peerReleases p).is (F.HP_PORT_STATUS_OWN_IN p.val) = false ∧
      (c.peerReleases p).is F.ROLE_EV_TAKEOVER = true := by
  unfold Chip.peerReleases
  extract_lets d waits e
  have hput : ∀ g : Fld, g.off < 4096 → g.page = 0x070 → d.get g = c.get g := fun g ho hp =>
    putPin_get c p 3 0 (by decide) g ho (.inl (by omega))
  have hmode : d.mode = c.mode := hput F.ROLE_PAIR_STATE_MODE (by decide) rfl
  have hrole : d.role p = 2 := (hput (roleFld p) (show 0x800 < 4096 by decide) rfl).trans hr
  have hpin : d.is (F.HP_PORT_STATUS_OWN_IN p.val) = false := by
    unfold d
    rw [Chip.is_put_same _ _ _ (show 3 + 1 ≤ 32 by decide)]
    rfl
  have hwaits : waits = false := by
    show (c.twe.lossDeclared.isSome && _) = false
    rw [hl]
    rfl
  obtain ⟨hclaim, hhand, htake⟩ := claim_to d p (.inl hrole)
  have hcontains : (d.claim p).twe.handing.contains p = false := by
    rw [hhand]
    show c.twe.handing.contains p = false
    rw [hh]
    rfl
  have hem : (d.claim p).mirrored = true := (congrArg (· == mMIRRORED) (hclaim.mode.trans hmode)).trans hm
  rw [if_neg (by rw [hmode, mirrored_mode hm]; decide), if_pos hrole, if_neg (by
    show ¬((d.claim p).twe.handing.contains p || waits) = true
    rw [hcontains, hwaits]
    decide)]
  obtain ⟨hpins, ha, hroles⟩ := becomeAlone_spec (d.claim p) hem
  refine ⟨?_, ha, ?_, Chip.is_kept hpins.events _ rfl rfl htake⟩
  · rw [hroles, hclaim.roles, if_pos (List.mem_singleton_self p), hrole]
    rfl
  · rw [hpins.ownIn, hclaim.ownIn, hpin]

/-- The port's roles behind its new carbon. -/
theorem becomeCarbon_pins (c : Chip) (p : Fin 6) : Pinned c (c.becomeCarbon p) := by
  unfold Chip.becomeCarbon
  extract_lets c1 c2 c3
  have h1 : Stands (fun _ => True) c c1 := .mapTags c _ _
  have h2 : Stands (fun _ => True) c1 c2 := .foldl _ (fun d h => .mapHead d h _) _ c1
  have h3 : Stands (fun _ => True) c2 c3 := .of_regs rfl rfl rfl
  exact ((h1.trans h2).trans h3).toPinned.trans ((setRole_to (L := fun _ => True) c3 p (r := 2) (by decide)).toPinned.trans (handoverDone_keeps _ p).1.toPinned)

/-- The rise of the twin's OWN line. -/
theorem peerOwns_pins (c : Chip) (p : Fin 6) :
    (c.peerOwns p).is (F.HP_PORT_STATUS_OWN_IN p.val) = true ∧ (c.peerOwns p).is (F.HP_PORT_STATUS_GUARD_MET p.val) = false := by
  unfold Chip.peerOwns
  extract_lets d e
  have hin : d.is (pin p 3) = true := (putPin_other _ p 4 3 0 (by decide) (by decide)).trans (putPin_same c p 3 1 (by decide))
  have hguard : d.is (pin p 4) = false := putPin_same _ p 4 0 (by decide)
  clear_value d
  split
  · have h := becomeCarbon_pins d p
    exact ⟨(h.ownIn p).trans hin, (h.guard p).trans hguard⟩
  · split
    · have he : Stands (fun _ => True) d e := .after (.raise _ _) (.cnt d _ _)
      have hein : e.is (pin p 3) = true := (he.ownIn p).trans hin
      have heguard : e.is (pin p 4) = false := (he.guard p).trans hguard
      clear_value e
      split
      · exact ⟨(setOwn_pin e p false 3 (by decide)).trans hein, (setOwn_pin e p false 4 (by decide)).trans heguard⟩
      · exact ⟨hein, heguard⟩
    · exact ⟨hin, hguard⟩

/-- TWIN_DEAD_N low by the twin of a mirrored chip. -/
theorem peerStopped_spec (c : Chip) (hm : c.mirrored = true) :
    c.peerStopped.is F.ROLE_PAIR_STATE_DEAD_SEEN = true ∧ c.peerStopped.mode = mALONE ∧ (∀ p : Fin 6, c.role p = 2 → c.peerStopped.role p = 4) ∧
      c.peerStopped.is F.ROLE_EV_PEER_FAILSTOP = true := by
  unfold Chip.peerStopped
  extract_lets d
  have hk : Stands (fun _ => True) (c.put F.ROLE_PAIR_STATE_DEAD_SEEN 1) d := .raise _ _
  have hmode : d.mode = c.mode := hk.mode.trans (Chip.get_put_apart c _ F.ROLE_PAIR_STATE_MODE 1 (by decide) rfl rfl (by decide))
  have hrole : ∀ q, d.role q = c.role q := fun q => (hk.roles q).trans (Chip.get_put_ne c F.ROLE_PAIR_STATE_DEAD_SEEN (roleFld q) 1
    (show regKey 0x070 0x800 ≠ regKey 0x070 0x804 by decide))
  have hdead : d.is F.ROLE_PAIR_STATE_DEAD_SEEN = true := by
    rw [hk.dead, Chip.is_put_same _ _ _ (by decide)]
    rfl
  have hdm : d.mirrored = true := (congrArg (· == mMIRRORED) hmode).trans hm
  rw [if_pos hdm]
  obtain ⟨hpins, ha, hroles⟩ := becomeAlone_spec d hdm
  refine ⟨hpins.dead.trans hdead, ha, fun p hp => ?_, Chip.is_kept hpins.events _ rfl rfl (Chip.raise_is _ _ rfl rfl (by decide))⟩
  rw [hroles, hrole, hp]
  rfl

theorem assertOwn_home (c : Chip) (p : Fin 6) (hr : c.role p = 1) (hg : c.is (F.HP_PORT_STATUS_GUARD_MET p.val) = true) (hh : c.svc.held = false) :
    c.assertOwn p = c.setOwn p true := by
  unfold Chip.assertOwn
  rw [hr, hg, hh]
  rfl

/-- The guard of a home that is not held. -/
theorem meetGuard_home (c : Chip) (p : Fin 6) (hi : c.is (F.HP_PORT_STATUS_OWN_IN p.val) = false) (hr : c.role p = 1) (hh : c.svc.held = false) :
    (c.meetGuard p).is (F.HP_PORT_STATUS_GUARD_MET p.val) = true ∧ (c.meetGuard p).is (F.HP_PORT_STATUS_OWN_OUT p.val) = true := by
  have hgo : c.meetGuard p = (c.put (pin p 4) 1).setOwn p true := by
    show (if c.ownIn p then c else
      if ((c.put (pin p 4) 1).assertOwn p).role p ≠ 4 || !((c.put (pin p 4) 1).assertOwn p).ownOut p then (c.put (pin p 4) 1).assertOwn p else _) = _
    have hg := putPin_same c p 4 1 (by decide)
    have hd : (c.put (pin p 4) 1).role p = 1 := (putPin_role c p p 4 1 (by decide)).trans hr
    have hheld : (c.put (pin p 4) 1).svc.held = false := hh
    generalize c.put (pin p 4) 1 = d at hg hd hheld
    rw [if_neg (by simp [Chip.ownIn, hi]), assertOwn_home d p hd hg hheld]
    have h1 : (d.setOwn p true).role p = 1 := (putPin_role d p p 2 (bit true) (by decide)).trans hd
    generalize d.setOwn p true = e at h1
    exact if_pos (by simp [h1])
  rw [hgo]
  exact ⟨(setOwn_pin _ p true 4 (by decide)).trans (putPin_same c p 4 1 (by decide)), putPin_same _ p 2 1 (by decide)⟩

/-- The last link of a claimed port in L0. -/
theorem lastLink_spec (c : Chip) (h : Fin 24) (hrec : c.recovering (portOf h) = [h]) :
    (c.carryOver h).recovering (portOf h) = [] ∧ ∀ ns, ((((c.carryOver h).put F.ROLE_LAST_TAKEOVER_NS ns).peak K.ROLE_TAKEOVER_NS_MAX ns).beHome (portOf h)).role
      (portOf h) = 1 ∧ ((((c.carryOver h).put F.ROLE_LAST_TAKEOVER_NS ns).peak K.ROLE_TAKEOVER_NS_MAX ns).beHome (portOf h)).ltssm h = 3 := by
  have hk : Stands (· ≠ h) c (c.carryOver h) := .carryOver c h (fun hn => hn rfl)
  have hl0 := Stands.carryOver_ltssm c h
  refine ⟨List.filter_eq_nil_iff.mpr fun i hi => ?_, fun ns => ?_⟩
  · by_cases hih : i = h
    · subst hih
      simp [hl0]
    · have hsame : ((c.carryOver h).ltssm i == 4 && !(c.carryOver h).twe.claimCold.contains i) = (c.ltssm i == 4 && !c.twe.claimCold.contains i) := by
        rw [Chip.ltssm_of_word (hk.links i hih), hk.claimCold]
      rw [hsame]
      intro hc
      have hmem : i ∈ c.recovering (portOf h) := List.mem_filter.mpr ⟨hi, hc⟩
      rw [hrec] at hmem
      exact hih (List.mem_singleton.mp hmem)
  · have hput : Stands (fun _ => True) (c.carryOver h) (((c.carryOver h).put F.ROLE_LAST_TAKEOVER_NS ns).peak K.ROLE_TAKEOVER_NS_MAX ns) :=
      .after (.peak _ _ _) (.putPair _ _ _ (.inl rfl) (.inl (by decide)) (by decide))
    obtain ⟨hr, hl⟩ := beHome_spec (((c.carryOver h).put F.ROLE_LAST_TAKEOVER_NS ns).peak K.ROLE_TAKEOVER_NS_MAX ns) (portOf h)
    exact ⟨hr, ((hl h).trans (Chip.ltssm_of_word (hput.links h trivial))).trans hl0⟩

end Sys2Proof.Machine
end

section
/-! PROOF. Fail-stops, the fence and its release (R183, R191, R192). -/
namespace Sys2Proof.Machine

/-! ## The fail-stop -/

/-- An OWN line let go. -/
theorem dropOwn_low (c : Chip) (q : Fin 6) : c.dropOwn.is (pin q 2) = false := by
  have hone : ∀ (d : Chip) (p : Fin 6), (d.setOwn p false).is (pin q 2) = if q = p then false else d.is (pin q 2) := fun d p => by
    split
    · next h =>
      subst h
      exact putPin_same d q 2 0 (by decide)
    · next h =>
      have hne : q.val ≠ p.val := fun e => h (Fin.ext e)
      exact congrArg (· == 1) (putPin_get d p 2 (bit false) (by decide) (pin q 2) (show 0x800 < 4096 by decide) (.inl (by
        show 0x200 + 4 * q.val ≠ 0x200 + 4 * p.val
        omega)))
  have hfold : ∀ (l : List (Fin 6)) (d : Chip), q ∈ l ∨ d.is (pin q 2) = false → (l.foldl (fun c p => c.setOwn p false) d).is (pin q 2) = false := fun l => by
    induction l with
    | nil => exact fun d h => h.resolve_left (List.not_mem_nil)
    | cons p l ih =>
      intro d h
      refine ih _ ?_
      rw [hone d p]
      rcases h with h | h
      · rcases List.mem_cons.mp h with h | h
        · exact .inr (if_pos h)
        · exact .inl h
      · right
        split
        · rfl
        · exact h
  exact hfold allPorts c (.inl (mem_allPorts q))

theorem stopLink_manned (c : Chip) : Manned c c.stopLink := by
  have hput : ∀ (d : Chip) (f : Fld) (v : Nat), 0x010 < f.off ∧ f.off < 4096 → f.page = 0x000 ∨ f.page = 0x080 → Stands (fun _ => True) d (d.put f v) :=
    fun d f v ho hp => .put d f v ho (by
      unfold standing
      omega) (by omega)
  have hkeep : Stands (fun _ => True) c c.keepOwnRound :=
    .after (hput _ F.CLK_ALIGN_STATE_KEEPER 0 (by decide) (.inl rfl)) (hput c F.CLK_ALIGN_STATE_STATE 0 (by decide) (.inl rfl))
  unfold Chip.stopLink
  extract_lets x y d
  have hd : Stands (fun _ => True) c d := hkeep.trans (.of_regs rfl rfl rfl)
  split
  · exact hd.toManned
  · exact (Stands.after (.raise _ _) (.after (.cnt _ _ _) (.after (hput _ F.CXK_LINK_STATE 0 (by decide) (.inr rfl)) hd))).toManned

/-- A chip in HELD has no role and drives no OWN line. -/
theorem failStop_spec (c : Chip) (b : Bool) (hm : c.mirrored = true) (hs : c.saveActive = false) :
    (c.failStop b).mode = mHELD ∧ (∀ p, (c.failStop b).role p = 0) ∧ ∀ p : Fin 6, (c.failStop b).is (pin p 2) = false := by
  have hmode : c.mode ≠ mHELD := by
    rw [mirrored_mode hm]
    decide
  have hserv : c.serving = false := by
    unfold Chip.serving
    rw [mirrored_mode hm]
    rfl
  have hgo : c.failStop b = ((allPorts.foldl (fun c p => c.setRole p 0) c.dropOwn).countFailstop.setMode mHELD).stopLink := by
    unfold Chip.failStop
    dsimp only
    rw [if_neg (by simp [hmode, hs]), hserv]
    rfl
  have h1 : Claims (fun _ => 0) allPorts c.dropOwn (allPorts.foldl (fun c p => c.setRole p 0) c.dropOwn) :=
    Claims.foldl (φ := fun _ => 0) (fun _ => rfl) _ (fun d p => .of_roleTo (setRole_to (L := fun _ => True) d p (by decide))) _ _
  rw [hgo]
  generalize allPorts.foldl (fun c p => c.setRole p 0) c.dropOwn = d at h1
  have h2 : Stands (fun _ => True) d d.countFailstop := by
    unfold Chip.countFailstop
    exact .after (.putPair _ _ _ (.inl rfl) (.inl (by decide)) (by decide)) (.of_regs rfl rfl rfl)
  have h3 := (setMode_moded d.countFailstop (m := mHELD) (by decide)).before (stopLink_manned _)
  refine ⟨h3.mode, fun p => ?_, fun p => ?_⟩
  · rw [h3.roles, h2.roles, h1.roles, if_pos (mem_allPorts p)]
  · exact ((h3.ownOut p).trans ((h2.ownOut p).trans (h1.ownOut p))).trans (dropOwn_low c p)

/-! ## The release from the fence -/

theorem up_of_rest {c d : Chip} (h : d.rest = c.rest) : d.up = c.up := (congrArg Chip.up h :)

theorem up_put (c : Chip) (f : Fld) (v : Nat) : (c.put f v).up = c.up := rfl

theorem up_foldl {α : Type} (g : Chip → α → Chip) (hg : ∀ d x, (g d x).up = d.up) (l : List α) : ∀ d : Chip, (l.foldl g d).up = d.up := by
  induction l with
  | nil => exact fun _ => rfl
  | cons x l ih => exact fun d => (ih _).trans (hg d x)

theorem up_raise (c : Chip) (f : Fld) : (c.raise f).up = c.up := up_of_rest (Chip.raise_rest c f)

theorem up_setMode (c : Chip) (m : Nat) : (c.setMode m).up = c.up := by
  unfold Chip.setMode
  split
  · rfl
  · exact (up_raise _ _).trans (up_put _ _ _)

theorem up_stopLink (c : Chip) : c.stopLink.up = c.up := by
  unfold Chip.stopLink
  extract_lets x y d
  have hd : d.up = c.up := (rfl : _ = c.keepOwnRound.up)
  split
  · exact hd
  · exact (up_raise _ _).trans hd

/-- A fail-stop that no save follows. -/
theorem up_failStop (c : Chip) : (c.failStop false).up = c.up := by
  unfold Chip.failStop
  extract_lets alone d e
  split
  · rfl
  · have hd : d.up = c.up := up_of_rest (BesidePorts.dropRoles c).rest
    have he : e.up = c.up := (up_stopLink _).trans ((up_setMode _ _).trans hd)
    split
    · next h => simp at h
    · exact he

theorem up_showFuses (c : Chip) : c.showFuses.up = c.up := by
  unfold Chip.showFuses
  extract_lets x c1 c2 word c3 y c4
  have h1 : c1.up = c.up := (up_put _ _ _).trans ((up_put _ _ _).trans ((up_put _ _ _).trans (up_put _ _ _)))
  have h2 : c2.up = c1.up := up_put _ _ _
  have h3 : c3.up = c2.up := up_foldl _ (fun d w => (up_put _ _ _).trans (up_put _ _ _)) _ _
  clear_value c3 c2 c1
  have h4 : c4.up = c3.up := rfl
  clear_value c4
  exact (up_put _ _ _).trans (h4.trans (h3.trans (h2.trans h1)))

theorem up_redoErases (c : Chip) : c.redoErases.up = c.up := by
  unfold Chip.redoErases
  dsimp only
  split
  · rfl
  · refine (up_raise _ _).trans ((up_put _ _ _).trans ?_)
    exact up_foldl (fun (d : Chip) k => (d.blankSector k).clearFlag k) (fun d k => rfl) _ c

theorem up_chooseSlot (c : Chip) (cold : Bool) : (c.chooseSlot cold).1.up = c.up := by
  have hp : c.showPointer.up = c.up := by
    unfold Chip.showPointer
    split <;> rfl
  unfold Chip.chooseSlot
  generalize c.showPointer = d at hp
  dsimp only
  generalize (if cold = true then _ else _ : Nat) = want
  split
  · exact hp
  · split
    · exact (up_raise _ _).trans hp
    · exact (up_failStop _).trans hp

theorem up_showSpares (c : Chip) : c.showSpares.up = c.up := by
  unfold Chip.showSpares
  extract_lets on extra used c1 c2
  have h1 : c1.up = c.up := (up_put _ _ _).trans (up_put _ _ _)
  have h2 : c2.up = c1.up := (up_put _ _ _).trans (up_put _ _ _)
  exact (up_put _ _ _).trans (h2.trans h1)

theorem up_startCores (c : Chip) : c.startCores.up = c.up := by
  unfold Chip.startCores
  exact up_foldl (fun (d : Chip) n => d.mapCore n _) (fun _ _ => rfl) _ c

theorem up_showMount (c : Chip) : c.showMount.up = c.up := by
  unfold Chip.showMount
  extract_lets x c1 c2 c3 c4
  have h1 : c1.up = c.up := up_put _ _ _
  have h2 : c2.up = c1.up := (up_put _ _ _).trans ((up_put _ _ _).trans ((up_put _ _ _).trans (up_put _ _ _)))
  have h3 : c3.up = c2.up := (up_put _ _ _).trans ((up_put _ _ _).trans (up_put _ _ _))
  have h4 : c4.up = c3.up := (up_put _ _ _).trans (up_put _ _ _)
  exact (up_put _ _ _).trans ((up_put _ _ _).trans (h4.trans (h3.trans (h2.trans h1))))

/-- A powered chip that neither its pin nor a fence holds, and that no boundary scan has taken over, runs once it has left the fence. -/
theorem up_boot (c : Chip) (x : BootReport) (hr : c.rst.resetN = false) (hf : c.rst.fenced = false) (he : c.rst.extested = false) :
    (c.boot causeFence x).up = true := by
  unfold Chip.boot
  extract_lets r c1 c2 c3 y z c4 cold c5 c6 s c7 c8 w c9 c10
  have h1 : c1.up = true := by
    refine (up_put _ _ _).trans ?_
    show (true && !c.rst.resetN && !c.rst.fenced && !c.rst.extested) = true
    rw [hr, hf, he]
    rfl
  have h2 : c2.up = c1.up := (up_showSpares _).trans ((up_showFuses _).trans (up_put _ _ _))
  have h3 : c3.up = c2.up := (up_put _ _ _).trans (up_put _ _ _)
  clear_value c3
  have h4 : c4.up = c3.up := rfl
  have h5 : c5 = c4 := if_neg (by decide)
  have h7 : c7.up = c5.up := (up_chooseSlot _ _).trans (up_redoErases _)
  have hrun : c7.up = true := by rw [h7, h5, h4, h3, h2, h1]
  have h8 : c8.up = c7.up := (up_startCores _).trans (up_put _ _ _)
  clear_value c8
  have h9 : c9.up = c8.up := up_put _ _ _
  have h10 : c10.up = c9.up := by
    unfold c10
    split
    · exact up_put _ _ _
    · exact up_showMount _
  clear_value c10
  split
  · exact hrun
  · split
    · rw [up_setMode, h10, h9, h8, hrun]
    · rw [h10, h9, h8, hrun]

/-- The release of a powered chip from the fence. -/
theorem State.release_fence (s : State) (w : Twin) (x : BootReport) (hp : (s.chip w).rst.powered = true) (hr : (s.chip w).rst.resetN = false)
    (hf : (s.chip w).rst.fenced = false) : ((s.release w causeFence x).chip w).up = true ∧ ((s.release w causeFence x).chip w).rst.fenced = false ∧
      (s.release w causeFence x).chip w.other = s.chip w.other := by
  have hup : ∀ d : Chip, d.up = true → d.rst.fenced = false := fun d h => by
    unfold Chip.up at h
    simp only [Bool.and_eq_true, Bool.not_eq_true'] at h
    exact h.1.2
  have hpins : ∀ (t : State), ((t.samplePins w).chip w).up = (t.chip w).up := fun t => by
    unfold State.samplePins
    rw [State.chip_mapChip_same]
    exact (up_put _ _ _).trans (up_foldl (fun (d : Chip) (p : Fin 6) => d.put _ _) (fun _ _ => up_put _ _ _) _ _)
  have hother : ∀ (t : State), (t.samplePins w).chip w.other = t.chip w.other := fun t => by
    unfold State.samplePins
    exact State.chip_mapChip_other _ _ _
  have hgo : ((s.release w causeFence x).chip w).up = true ∧ (s.release w causeFence x).chip w.other = s.chip w.other := by
    unfold State.release
    dsimp only
    rw [if_neg (by simp [hp, hr, hf]), hpins, hother, State.chip_mapChip_same, State.chip_mapChip_other]
    exact ⟨up_boot _ x hr hf rfl, rfl⟩
  exact ⟨hgo.1, hup _ hgo.1, hgo.2⟩

/-- Settles O39, by what each move leaves of the roles, the mode and the pins. -/
theorem takeoversComplete : Obligations.TakeoversComplete := by
  unfold Obligations.TakeoversComplete
  refine ⟨fun w p s hup hm hr hi ho hh hl => ?_, fun w p s hup hi ho hown => ?_, fun w s hup hm hd ho => ?_, fun w s hup ho => ?_,
    fun w p s hup hi hr hh => ?_, fun w h ns s hup hr ht hrec => ?_, fun w n s hup hm hs => ?_, fun w s ho hf => ?_,
    fun w s ho hf hp hr => ?_, fun w rq s hup hw => ?_⟩
  · refine ⟨_, rfl, ?_⟩
    rw [State.chip_onUp hup, State.chip_onUp_other, if_pos (by simp [Chip.ownIn, hi, ho])]
    obtain ⟨h1, h2, h3, h4⟩ := peerReleases_claims (s.chip w) p hm hr hh hl
    exact ⟨h1, h2, h3, h4, rfl⟩
  · refine ⟨_, rfl, ?_⟩
    rw [State.chip_onUp hup, State.chip_onUp_other, if_pos (by simp [Chip.ownIn, hi, ho, hown])]
    obtain ⟨h1, h2⟩ := peerOwns_pins (s.chip w) p
    exact ⟨h1, h2, rfl⟩
  · refine ⟨_, rfl, ?_⟩
    rw [State.chip_onUp hup, State.chip_onUp_other, if_pos (by simp [hd, ho])]
    obtain ⟨h1, h2, h3, h4⟩ := peerStopped_spec (s.chip w) hm
    exact ⟨h1, h2, h3, h4, rfl⟩
  · refine ⟨_, rfl, ?_⟩
    rw [State.chip_onUp hup, State.chip_onUp_other, if_neg (by simp [ho])]
    refine ⟨?_, Chip.get_put_apart _ _ _ _ (by decide) rfl rfl (by decide), rfl⟩
    rw [Chip.is_put_same _ _ _ (by decide)]
    rfl
  · refine ⟨_, rfl, ?_⟩
    rw [State.chip_onUp hup, State.chip_onUp_other]
    obtain ⟨h1, h2⟩ := meetGuard_home (s.chip w) p hi hr hh
    exact ⟨h1, h2, rfl⟩
  · refine ⟨_, rfl, ?_⟩
    rw [State.chip_onUp hup, State.chip_onUp_other]
    obtain ⟨hnil, hhome⟩ := lastLink_spec (s.chip w) h hrec
    obtain ⟨h1, h2⟩ := hhome ns
    dsimp only
    rw [if_neg (by simp [hr, ht, hrec]), if_neg (by simp [hnil])]
    exact ⟨h1, h2, rfl⟩
  · refine ⟨_, rfl, ?_⟩
    rw [State.chip_onUp hup, State.chip_onUp_other]
    obtain ⟨h1, h2, h3⟩ := failStop_spec (s.chip w) true hm hs
    exact ⟨h1, h2, h3, rfl⟩
  · refine ⟨_, rfl, ?_⟩
    rw [State.chip_mapChip_same, State.chip_mapChip_other, if_neg (by simp [ho, hf])]
    refine ⟨?_, ?_, rfl⟩
    · simp [Chip.up]
    · unfold Chip.pullsDead
      split
      · rfl
      · rfl
  · refine ⟨_, rfl, ?_⟩
    rw [if_neg (by simp [ho, hf])]
    generalize hs' : s.mapChip w (fun c => { c with rst := { c.rst with fenced := false } }.put F.ROLE_PAIR_STATE_MODE mSTARTING) = s'
    have hw : (s'.chip w).rst = { (s.chip w).rst with fenced := false } := by
      rw [← hs', State.chip_mapChip_same]
      rfl
    have hother : s'.chip w.other = s.chip w.other := by
      rw [← hs']
      exact State.chip_mapChip_other _ _ _
    obtain ⟨h1, h2, h3⟩ := State.release_fence s' w (s'.chip w).plainReport (by rw [hw]; exact hp) (by rw [hw]; exact hr) (by rw [hw])
    exact ⟨h1, h2, h3.trans hother⟩
  · refine ⟨_, rfl, ?_⟩
    rw [State.chip_onUp hup, State.chip_onUp_other, Chip.ifWrites_pos _ hw]
    refine ⟨?_, rfl⟩
    rw [Chip.is_put_same _ _ _ (by decide)]
    rfl

end Sys2Proof.Machine
end

section
/-! PROOF. The reception of an envelope (R166 to R170): what it acknowledges leaves the replay buffer, and its own number is taken. -/
namespace Sys2Proof.Machine

/-- The chip after the reception of `e`, and whether it is accepted. -/
def Chip.heard (c : Chip) (e : Envelope) : Chip × Bool := (c.takeAck e).accepts e

/-- What the reception of an envelope leaves of the chip: all but the link's own state. -/
structure Received (c d : Chip) : Prop where
  rest : d.rest = c.rest
  words : ∀ p o, quietReg p o = true → d.rd p o = c.rd p o
  twe : d.quiet.twe = c.quiet.twe
  heads : d.heads = c.heads
  rekeyAt : d.link.rekeyAt = c.link.rekeyAt

namespace Received

theorem refl (c : Chip) : Received c c := ⟨rfl, fun _ _ _ => rfl, rfl, rfl, rfl⟩

theorem trans {c d e : Chip} (h : Received c d) (k : Received d e) : Received c e :=
  ⟨k.rest.trans h.rest, fun p o hq => (k.words p o hq).trans (h.words p o hq), k.twe.trans h.twe, k.heads.trans h.heads, k.rekeyAt.trans h.rekeyAt⟩

/-- Steps put together from the last. -/
theorem after {c d e : Chip} (k : Received d e) (h : Received c d) : Received c e := h.trans k

theorem of_quiet {c d : Chip} (hr : d.rest = c.rest) (hq : d.quiet = c.quiet) (hh : d.heads = c.heads) : Received c d :=
  ⟨hr, fun p o h => Chip.rd_of_quiet hq p o h, (congrArg Quiet.twe hq :), hh, (congrArg (fun x : Quiet => x.link.rekeyAt) hq :)⟩

/-- The link's own state. -/
theorem link (c : Chip) (x : Link) (h : x.rekeyAt = c.link.rekeyAt) : Received c { c with link := x } := ⟨rfl, fun _ _ _ => rfl, rfl, rfl, h⟩

theorem cnt (c : Chip) (k : Ctr) (n : Nat) : Received c (c.cnt k n) := ⟨rfl, fun _ _ _ => rfl, rfl, rfl, rfl⟩

theorem replayUse (c : Chip) (v : Nat) : Received c (c.put F.CXK_REPLAY_USE v) := of_quiet (Chip.put_rest _ _ _) (Chip.put_quiet _ _ _ rfl (by decide)) rfl

theorem foldl_heads {α : Type} (g : Chip → α → Chip) (hg : ∀ d x, (g d x).heads = d.heads) (l : List α) : ∀ d : Chip, (l.foldl g d).heads = d.heads := by
  induction l with
  | nil => exact fun _ => rfl
  | cons x l ih => exact fun d => (ih _).trans (hg d x)

theorem putOnWire_heads (c : Chip) (es : List Envelope) : (c.putOnWire es).heads = c.heads := by
  unfold Chip.putOnWire
  exact foldl_heads (fun (d : Chip) (e : Envelope) => d.cnt (K.CXK_BYTES_CLASS e.body.cls) (8 * EnvBody.len e.body)) (fun _ _ => rfl) _ _

theorem putOnWire (c : Chip) (es : List Envelope) : Received c (c.putOnWire es) :=
  of_quiet (Chip.putOnWire_rest c es) (Chip.putOnWire_quiet c es) (putOnWire_heads c es)

theorem transmit_heads (c : Chip) (b : EnvBody) : (c.transmit b).heads = c.heads := by
  unfold Chip.transmit
  exact putOnWire_heads _ _

theorem sendWaiting_heads (n : Nat) : ∀ c : Chip, (c.sendWaiting n).heads = c.heads := by
  induction n with
  | zero => exact fun _ => rfl
  | succ n ih =>
    intro c
    unfold Chip.sendWaiting
    split
    · rfl
    · split
      · rfl
      · exact (ih _).trans (transmit_heads _ _)

theorem sendWaiting (n : Nat) (c : Chip) : Received c (c.sendWaiting n) :=
  of_quiet (Chip.sendWaiting_rest n c) (Chip.sendWaiting_quiet n c) (sendWaiting_heads n c)

theorem takeAck (c : Chip) (e : Envelope) : Received c (c.takeAck e) := by
  unfold Chip.takeAck
  extract_lets left x d1 d2
  have h1 : Received c d1 := link c _ rfl
  have h2 : Received c d2 := h1.trans ((replayUse d1 _).trans (sendWaiting _ _))
  split
  · exact h2.trans ((putOnWire _ _).trans (cnt _ _ _))
  · exact h2

theorem accepts (c : Chip) (e : Envelope) : Received c (c.accepts e).1 := by
  unfold Chip.accepts
  extract_lets n ahead x d
  have hd : Received c d := link c _ rfl
  split
  · exact after (cnt _ _ _) (after (link d _ rfl) hd)
  · split
    · exact after (cnt _ _ _) (after (link d _ rfl) hd)
    · exact after (link d _ rfl) hd

theorem heard (c : Chip) (e : Envelope) : Received c (c.heard e).1 := (takeAck c e).trans (accepts _ e)

variable {c d : Chip} (h : Received c d)
include h

theorem get (f : Fld) (hq : quietReg f.page f.off = true) : d.get f = c.get f := by
  unfold Chip.get
  rw [h.words _ _ hq]

theorem mode : d.mode = c.mode := h.get F.ROLE_PAIR_STATE_MODE rfl
theorem up : d.up = c.up := (congrArg Chip.up h.rest :)
theorem head (i : Fin 24) : d.head i = c.head i := by
  unfold Chip.head
  rw [h.heads]

theorem role (p : Fin 6) : d.role p = c.role p := h.get (roleFld p) (quiet_role p)
where quiet_role (p : Fin 6) : quietReg (roleFld p).page (roleFld p).off = true := rfl

end Received

/-! ## Numbers -/

theorem sendWaiting_rxSeq (n : Nat) (c : Chip) : (c.sendWaiting n).link.rxSeq = c.link.rxSeq :=
  (congrArg (fun x : Quiet => x.link.rxSeq) (Chip.sendWaiting_quiet n c) :)

theorem takeAck_rxSeq (c : Chip) (e : Envelope) : (c.takeAck e).link.rxSeq = c.link.rxSeq := by
  unfold Chip.takeAck
  extract_lets left x d1 d2
  have h2 : d2.link.rxSeq = c.link.rxSeq := sendWaiting_rxSeq _ _
  split
  · exact ((congrArg (fun x : Quiet => x.link.rxSeq) (Chip.putOnWire_quiet d2 left) :)).trans h2
  · exact h2

/-- An envelope that comes in its order is accepted with its number. -/
theorem heard_next (c : Chip) (e : Envelope) (h0 : e.body.cls ≠ 0) (hs : Chip.seqAfter e.seq c.link.rxSeq = 1) :
    (c.heard e).2 = true ∧ (c.heard e).1.link.rxSeq = e.seq := by
  have hn : Chip.seqAfter e.seq (c.takeAck e).link.rxSeq = 1 := by rw [takeAck_rxSeq, hs]
  unfold Chip.heard Chip.accepts
  dsimp only
  rw [if_neg h0, if_pos hn]
  exact ⟨rfl, rfl⟩

/-- FILL is accepted out of any order, and leaves the number. -/
theorem heard_fill (c : Chip) (e : Envelope) (h0 : e.body.cls = 0) :
    (c.heard e).2 = true ∧ (c.heard e).1.link.rxSeq = c.link.rxSeq ∧ (c.heard e).1.link.replay = (c.takeAck e).link.replay := by
  unfold Chip.heard Chip.accepts
  dsimp only
  rw [if_pos h0]
  exact ⟨rfl, takeAck_rxSeq c e, rfl⟩

/-- What an acknowledgment leaves of the replay buffer, with nothing that waits to be sent. -/
theorem takeAck_replay (c : Chip) (e : Envelope) (hw : c.link.waiting = []) : (c.takeAck e).link.replay = c.link.replay.filter (fun x =>
    decide (0 < Chip.seqAfter x.seq e.ack) && decide (Chip.seqAfter x.seq e.ack < 2 ^ 15)) ∧ (c.takeAck e).link.waiting = [] := by
  have hwire : ∀ (d : Chip) (es : List Envelope), (d.putOnWire es).link.replay = d.link.replay ∧ (d.putOnWire es).link.waiting = d.link.waiting := fun d es => by
    have hfold : ∀ (l : List Envelope) (d : Chip), (l.foldl (fun d e => d.cnt (K.CXK_BYTES_CLASS e.body.cls) (8 * EnvBody.len e.body)) d).link = d.link :=
      fun l => by
        induction l with
        | nil => exact fun _ => rfl
        | cons x l ih => exact fun d => ih _
    unfold Chip.putOnWire
    dsimp only
    rw [hfold]
    exact ⟨rfl, rfl⟩
  unfold Chip.takeAck
  extract_lets left x d1 d2
  have h2 : d2 = d1.put F.CXK_REPLAY_USE left.length := by
    show ((d1.put F.CXK_REPLAY_USE left.length).sendWaiting d1.link.waiting.length) = _
    have hz : d1.link.waiting.length = 0 := congrArg List.length hw
    rw [hz]
    rfl
  have hr : d2.link.replay = left ∧ d2.link.waiting = [] := by
    rw [h2]
    exact ⟨rfl, hw⟩
  split
  · exact ⟨(hwire d2 left).1.trans hr.1, (hwire d2 left).2.trans hr.2⟩
  · exact hr

/-! ## The state -/

/-- An envelope that is accepted acts on the chip that heard it; at the sender it leaves the link. -/
theorem State.receive_eq (s : State) (w : Twin) (cls : Nat) (f : EnvBody → State → State) {e : Envelope} (ha : s.arriving w = some e)
    (hc : e.body.cls = cls) (hx : ((s.chip w).heard e).2 = true) :
    ∃ s', s.receive w cls f = f e.body s' ∧ s'.chip w = ((s.chip w).heard e).1 ∧ (s'.chip w.other).link.tx = (s.chip w.other).link.tx.tail := by
  have htaken : (s.taken w).chip w = s.chip w := by
    unfold State.taken
    exact State.chip_mapChip_of_other _ _ _
  refine ⟨(s.taken w).setChip w ((s.chip w).heard e).1, ?_, State.chip_setChip_same _ _ _, ?_⟩
  · unfold State.receive
    rw [ha]
    dsimp only
    rw [if_neg (not_not_intro hc), htaken]
    exact if_pos hx
  · rw [State.chip_setChip_other]
    unfold State.taken
    rw [State.chip_mapChip_same]

/-- An accepted envelope whose body acts on the chip alone. -/
theorem State.receive_chip (s : State) (w : Twin) (cls : Nat) (f : EnvBody → State → State) (g : State → Chip → Chip) {e : Envelope}
    (ha : s.arriving w = some e) (hc : e.body.cls = cls) (hx : ((s.chip w).heard e).2 = true) (hf : ∀ s', f e.body s' = s'.mapChip w (g s')) :
    ∃ s', (s.receive w cls f).chip w = g s' ((s.chip w).heard e).1 ∧ ((s.receive w cls f).chip w.other).link.tx = (s.chip w.other).link.tx.tail := by
  obtain ⟨s', hgo, hw, ho⟩ := s.receive_eq w cls f ha hc hx
  refine ⟨s', ?_, ?_⟩
  · rw [hgo, hf, State.chip_mapChip_same, hw]
  · rw [hgo, hf, State.chip_mapChip_other, ho]

end Sys2Proof.Machine
end

section
/-! PROOF. A state frame of the peer (R179): what stands of it once the chip has taken it. -/
namespace Sys2Proof.Machine

/-- What the last state frame of the peer left, and the number of the last envelope accepted. -/
def Chip.framed (c : Chip) : Option Frame × Option Nat × Option Nat × Nat := (c.twe.peerFrame, c.twe.lastHb, c.clk.peerDeliveryN, c.link.rxSeq)

/-- `d` holds the same frame and the same number as `c`. -/
def Framed (c d : Chip) : Prop := d.framed = c.framed

namespace Framed

theorem refl (c : Chip) : Framed c c := rfl

theorem trans {c d e : Chip} (h : Framed c d) (k : Framed d e) : Framed c e := Eq.trans k h

/-- Steps put together from the last. -/
theorem after {c d e : Chip} (k : Framed d e) (h : Framed c d) : Framed c e := h.trans k

theorem foldl {α : Type} (g : Chip → α → Chip) (hg : ∀ d x, Framed d (g d x)) (l : List α) : ∀ d, Framed d (l.foldl g d) := by
  induction l with
  | nil => exact refl
  | cons x l ih => exact fun d => (hg d x).trans (ih _)

theorem of_quiet {c d : Chip} (hr : d.rest = c.rest) (hq : d.quiet = c.quiet) : Framed c d := by
  have hf : d.twe.peerFrame = c.twe.peerFrame := (congrArg (fun x : Quiet => x.twe.peerFrame) hq :)
  have hb : d.twe.lastHb = c.twe.lastHb := (congrArg (fun x : Quiet => x.twe.lastHb) hq :)
  have hn : d.clk.peerDeliveryN = c.clk.peerDeliveryN := (congrArg (fun x : Chip => x.clk.peerDeliveryN) hr :)
  have hs : d.link.rxSeq = c.link.rxSeq := (congrArg (fun x : Quiet => x.link.rxSeq) hq :)
  unfold Framed Chip.framed
  rw [hf, hb, hn, hs]

/-- No access touches the frame of the peer. -/
theorem of_accessed {c d : Chip} (h : Accessed c d) : Framed c d := by
  have hf : d.twe.peerFrame = c.twe.peerFrame := (congrArg Twe.peerFrame h.twe :)
  have hb : d.twe.lastHb = c.twe.lastHb := (congrArg Twe.lastHb h.twe :)
  have hn : d.clk.peerDeliveryN = c.clk.peerDeliveryN := (congrArg (fun x : Chip => x.clk.peerDeliveryN) h.rest :)
  have hs : d.link.rxSeq = c.link.rxSeq := (congrArg Link.rxSeq h.link :)
  unfold Framed Chip.framed
  rw [hf, hb, hn, hs]

theorem wr (c : Chip) (p o : Nat) (v : Word) : Framed c (c.wr p o v) := rfl
theorem put (c : Chip) (f : Fld) (v : Nat) : Framed c (c.put f v) := rfl
theorem cnt (c : Chip) (k : Ctr) (n : Nat) : Framed c (c.cnt k n) := rfl
theorem mapHead (c : Chip) (h : Fin 24) (f : Head → Head) : Framed c (c.mapHead h f) := rfl
theorem raise (c : Chip) (f : Fld) : Framed c (c.raise f) := of_quiet (Chip.raise_rest c f) (Chip.raise_quiet c f)
theorem send (c : Chip) (b : EnvBody) : Framed c (c.send b) := of_quiet (Chip.send_rest c b) (Chip.send_quiet c b)
theorem cause (c : Chip) (h : Fin 24) (v : Nat) : Framed c (c.cause h v) := of_quiet (Chip.cause_rest c h v) (Chip.cause_quiet c h v)

/-! ## Modes and roles -/

theorem setMode (c : Chip) (m : Nat) : Framed c (c.setMode m) := by
  unfold Chip.setMode
  split
  · exact refl c
  · exact after (raise _ _) (put c _ _)

theorem setEpoch (c : Chip) (n : Nat) : Framed c (c.setEpoch n) := rfl

theorem openChangeMap (c : Chip) : Framed c c.openChangeMap := by
  unfold Chip.openChangeMap
  cases c.twe.changeMap with
  | none => rfl
  | some x => rfl

theorem enterAlone (c : Chip) : Framed c c.enterAlone := by
  unfold Chip.enterAlone
  split
  · exact refl c
  · exact after (openChangeMap _) (setMode c _)

theorem setOwn (c : Chip) (p : Fin 6) (high : Bool) : Framed c (c.setOwn p high) := rfl

theorem assertOwn (c : Chip) (p : Fin 6) : Framed c (c.assertOwn p) := by
  unfold Chip.assertOwn
  split
  · rfl
  · rfl

theorem loadCoefs (c : Chip) (h : Fin 24) : Framed c (c.loadCoefs h) := rfl
theorem acquire (c : Chip) (h : Fin 24) : Framed c (c.acquire h) := rfl

theorem setLocks (c : Chip) (h : Fin 24) (on : Bool) : Framed c (c.setLocks h on) := by
  unfold Chip.setLocks
  refine after (foldl _ (fun d l => ?_) _ _) rfl
  split
  · rfl
  · rfl

theorem stopTracking (c : Chip) (h : Fin 24) : Framed c (c.stopTracking h) := by
  unfold Chip.stopTracking
  exact after (setLocks _ _ _) rfl

theorem setRole (c : Chip) (p : Fin 6) (r : Nat) : Framed c (c.setRole p r) := by
  unfold Chip.setRole
  extract_lets old d e
  have he : Framed c e := by
    show (if Chip.portRole old = Chip.portRole r then d else _).framed = c.framed
    split
    · rfl
    · exact raise _ _
  split
  · refine after (foldl _ (fun x h => ?_) _ _) he
    extract_lets y
    split
    · exact after (acquire y h) (loadCoefs x h)
    · exact loadCoefs x h
  · split
    · exact after (foldl _ stopTracking _ _) he
    · exact he

theorem takeRoles (c : Chip) : Framed c c.takeRoles := by
  unfold Chip.takeRoles
  refine foldl _ (fun d p => ?_) _ _
  extract_lets r x
  split
  · exact after (assertOwn x p) (setRole d p r)
  · exact after (setOwn x p false) (setRole d p r)

theorem startJoin (c : Chip) : Framed c c.startJoin := by
  unfold Chip.startJoin
  exact after (takeRoles _) (after (setMode _ _) rfl)

theorem beginResync (c : Chip) : Framed c c.beginResync := by
  unfold Chip.beginResync
  extract_lets a b _ d e
  have ha : Framed c a := after (raise _ _) rfl
  have hb : Framed c b := after (enterAlone a) ha
  have hd : Framed c d := after rfl hb
  exact after (foldl _ (fun x _ => send x _) _ _) (after (send d _) hd)

/-! ## The fields of a frame -/

theorem meetDigest (c : Chip) (x : Nat × Nat) : Framed c (c.meetDigest x) := by
  unfold Chip.meetDigest
  extract_lets same fell d
  split
  · exact after (of_quiet (Chip.raiseBit_rest _ _ _) (Chip.raiseBit_quiet _ _ _)) (wr c _ _ _)
  · exact wr c _ _ _

theorem mailReported (c : Chip) (h : Fin 24) : Framed c (c.mailReported h) := by
  unfold Chip.mailReported
  split
  · exact after (cause _ _ _) (mapHead c _ _)
  · exact refl c

theorem peerHasApplied (c : Chip) (n : Nat) : Framed c (c.peerHasApplied n) := by
  unfold Chip.peerHasApplied
  split
  · exact refl c
  · exact after (of_accessed (.runCommons _)) (after (of_accessed (.continueTags _ _ _ fun d t => .afterOrder d t))
      (after (of_accessed (.settle _)) (put c _ _)))

theorem coverGated (c : Chip) (w : Twin) (gate round : Nat) : Framed c (c.coverGated w gate round) := rfl

theorem showPeerHeadroom (c : Chip) : Framed c c.showPeerHeadroom := by
  unfold Chip.showPeerHeadroom
  split
  · exact put c _ _
  · exact refl c

theorem noteDrill (c : Chip) (f : Frame) : Framed c (c.noteDrill f) := by
  unfold Chip.noteDrill
  split
  · extract_lets links tracked
    split
    · rfl
    · rfl
  · rfl

theorem peerMode (c : Chip) (f : Frame) : Framed c (c.peerMode f) := by
  unfold Chip.peerMode
  split
  · exact refl c
  · split
    · split
      · exact startJoin c
      · split
        · exact after (setMode _ _) (after (foldl _ (fun d p => setRole d p 0) _ _) rfl)
        · exact refl c
    · split
      · extract_lets d
        split
        · exact after (beginResync d) (enterAlone c)
        · exact enterAlone c
      · exact refl c

end Framed

/-- The time of a frame leaves the number of the last envelope. -/
theorem alignTo_rxSeq (c : Chip) (f : Frame) : (c.alignTo f).link.rxSeq = c.link.rxSeq := by
  have htime : ∀ d : Chip, (d.takeTime f).link = d.link := fun _ => rfl
  have hbegin : ∀ k, (c.beginAlign k f).link = c.link := fun k => by
    unfold Chip.beginAlign
    cases k with
    | true => rfl
    | false => exact htime _
  unfold Chip.alignTo
  extract_lets keeper
  split
  · rw [hbegin]
  · split
    · rw [hbegin]
    · split
      · split
        · rfl
        · rfl
      · split
        · rfl
        · rw [htime]
  · rfl

/-- The state frame is the last of the peer, with its heartbeat and DELIVERY_N. -/
theorem takeStateFrame_framed (c : Chip) (f : Frame) :
    (c.takeStateFrame f).framed = (some f, some f.heartbeat, some f.deliveryN, c.link.rxSeq) := by
  unfold Chip.takeStateFrame
  extract_lets a beat _ _ b d e g k
  have hb : b.framed = (some f, some f.heartbeat, some f.deliveryN, c.link.rxSeq) := by
    rw [← alignTo_rxSeq c f]
    rfl
  have hd : Framed b d := Framed.foldl _ Framed.meetDigest _ _
  have he : Framed b e := Framed.after (Framed.foldl _ Framed.mailReported _ _) hd
  have hg : Framed b g := Framed.after (Framed.foldl _ (fun x h => by
    split
    · exact Framed.mapHead x _ _
    · exact Framed.refl x) _ _) he
  have hk : Framed b k := Framed.after (Framed.coverGated _ _ _ _) (Framed.after (Framed.peerHasApplied g _) hg)
  have hl := Framed.after (Framed.peerMode _ f) (Framed.after (Framed.noteDrill _ f) (Framed.after (Framed.showPeerHeadroom k) hk))
  exact Eq.trans hl hb

end Sys2Proof.Machine
end

section
/-! PROOF. What the body of an accepted envelope does on the chip that heard it (R172 to R180, R209 to R211, R216). -/
namespace Sys2Proof.Machine

namespace Received

theorem send_heads (c : Chip) (b : EnvBody) : (c.send b).heads = c.heads := by
  unfold Chip.send
  split
  · rfl
  · split
    · rfl
    · exact transmit_heads c b

theorem post_heads (c : Chip) (r : PmRecord) : (c.post r).heads = c.heads := by
  unfold Chip.post
  split
  · rfl
  · exact send_heads _ _

section
variable {c d : Chip} (h : Received c d)
include h

theorem aligned : d.aligned = c.aligned := by
  unfold Chip.aligned
  rw [h.get F.CLK_ALIGN_STATE_STATE rfl]

theorem twin : d.twin = c.twin := (congrArg Chip.twin h.rest :)

theorem linkSends : d.linkSends = c.linkSends := by
  have hh : d.svc.held = c.svc.held := (congrArg (fun x : Chip => x.svc.held) h.rest :)
  unfold Chip.linkSends
  rw [h.up, h.mode, hh, h.get F.CXK_KEY_EPOCH rfl]

theorem isCarbon (p : Fin 6) : d.isCarbon p = c.isCarbon p := by
  unfold Chip.isCarbon
  rw [h.up, h.role]

theorem isHome (p : Fin 6) : d.isHome p = c.isHome p := by
  unfold Chip.isHome
  rw [h.up, h.role]

theorem log (i : Fin 24) (l : Nat) : d.log i l = c.log i l := by
  unfold Chip.log
  rw [h.head]

theorem wmbEntry (l : Nat) : d.wmbEntry l = c.wmbEntry l := Chip.wmbEntry_congr (congrArg Chip.wmb h.rest :) l

end
end Received

/-! ## Answers that go out at once -/

/-- With nothing that waits and room in the replay buffer, the reception of an envelope leaves both so. -/
theorem heard_room (c : Chip) (e : Envelope) (hw : c.link.waiting = []) (hn : c.link.replay.length < 512) : (c.heard e).1.link.replay.length < 512 := by
  have hr : (c.heard e).1.link.replay = (c.takeAck e).link.replay := by
    unfold Chip.heard Chip.accepts
    dsimp only
    split
    · rfl
    · split
      · rfl
      · rfl
  rw [hr, (takeAck_replay c e hw).1]
  exact Nat.lt_of_le_of_lt (List.length_filter_le _ _) hn

theorem putOnWire_tx (c : Chip) (e : Envelope) (h1 : e.body.cls ≠ 1) (h2 : e.body.cls ≠ 2) : (c.putOnWire [e]).link.tx = c.link.tx ++ [e] := by
  have hcopies : Chip.copiesOf e = [e] := if_neg (by omega)
  unfold Chip.putOnWire
  rw [List.flatMap_cons, List.flatMap_nil, List.append_nil, hcopies]
  rfl

/-- An answer that the link takes at once is the last on its way. -/
theorem send_last (c : Chip) (b : EnvBody) (hs : c.linkSends = true) (hn : c.link.replay.length < 512) (h1 : b.cls ≠ 1) (h2 : b.cls ≠ 2) :
    (c.send b).link.tx.getLast?.map (fun x => x.body) = some b := by
  have hsent : c.send b = c.transmit b := by
    unfold Chip.send
    rw [if_neg (by rw [hs]; decide), if_neg (by omega)]
  have htx : (c.transmit b).link.tx = c.link.tx ++ [c.nextEnvelope b] := putOnWire_tx _ (c.nextEnvelope b) h1 h2
  rw [hsent, htx, List.getLast?_concat]
  rfl

theorem send_rxSeq (c : Chip) (b : EnvBody) : (c.send b).link.rxSeq = c.link.rxSeq := (congrArg (fun x : Quiet => x.link.rxSeq) (Chip.send_quiet c b) :)

/-- A flit of the history that the peer's fetch asks for (R175). -/
theorem answerFetch_spec (c : Chip) (h : Fin 24) (flit : Nat) (hs : c.linkSends = true) (hn : c.link.replay.length < 512) :
    (c.answerFetch h .deviceToHost flit).link.tx.getLast?.map (fun x => x.body) = some (.fetchDown h flit ((c.head h).txHist.find? fun x => x.flit == flit)) ∧
      (c.answerFetch h .deviceToHost flit).link.rxSeq = c.link.rxSeq :=
  ⟨send_last _ _ hs hn (show (3 : Nat) ≠ 1 by decide) (show (3 : Nat) ≠ 2 by decide), send_rxSeq _ _⟩

/-- A line that the peer asks for its repair (R209). -/
theorem serveRepair_spec (c : Chip) (line : Nat) (hs : c.linkSends = true) (hn : c.link.replay.length < 512)
    (hdue : c.trm.repairDue.contains line = false) (hcan : c.cannotServe line = false) :
    (c.serveRepair line .good).link.tx.getLast?.map (fun x => x.body) = some (.repairData line (some (c.fullLine line))) ∧
      (c.serveRepair line .good).link.rxSeq = c.link.rxSeq := by
  have hcnt : ∀ n : Nat, (c.cnt K.REP_REPAIR_SERVED n).cannotServe line = c.cannotServe line ∧ (c.cnt K.REP_REPAIR_SERVED n).fullLine line = c.fullLine line :=
    fun _ => ⟨rfl, rfl⟩
  unfold Chip.serveRepair
  extract_lets d bad
  have hbad : bad = false := by
    show (ReadOutcome.good == .uncorrectable || c.trm.repairDue.contains line || d.cannotServe line) = false
    rw [hdue, (hcnt 1).1, hcan]
    rfl
  rw [hbad, if_neg (by decide), (hcnt 1).2]
  exact ⟨send_last d _ hs hn (show (4 : Nat) ≠ 1 by decide) (show (4 : Nat) ≠ 2 by decide), send_rxSeq _ _⟩

/-! ## A bridged write -/

/-- Telling the home what the carbon stores changes no buffered write, and of the heads only what was told. -/
theorem sendWriteWm_spec (c : Chip) (h : Fin 24) (pos : Nat) :
    (c.sendWriteWm h pos).wmb = c.wmb ∧ ((c.sendWriteWm h pos).head h).seenPos = (c.head h).seenPos ∧ (c.sendWriteWm h pos).link.rxSeq = c.link.rxSeq := by
  unfold Chip.sendWriteWm
  extract_lets d
  have hd : (d.head h).seenPos = (c.head h).seenPos := by
    unfold d
    rw [Chip.head_mapHead_same]
  have hp : ((d.post (.writeWm h pos)).head h).seenPos = (d.head h).seenPos := by
    unfold Chip.head
    rw [Received.post_heads]
  split
  · exact ⟨rfl, hd, rfl⟩
  · exact ⟨(congrArg Chip.wmb (Chip.post_rest d _) :), (by rw [Chip.head_mapHead_same]; exact hp.trans hd),
      (congrArg (fun x : Quiet => x.link.rxSeq) (Chip.post_quiet d _) :)⟩

/-- A chip that does not join stores every write. -/
theorem storesWrite_of_mode {c : Chip} (hm : c.mode ≠ mJOINING) (dpa : Nat) : c.storesWrite dpa = true := by
  have hne : (c.mode != mJOINING) = true := bne_iff_ne.mpr hm
  unfold Chip.storesWrite
  rw [hne]
  rfl

/-- A chip that has counted a bridged write, and noted its position. -/
def Chip.noteBridged (c : Chip) (x : BridgedWrite) : Chip :=
  (c.cnt K.PMK_BRIDGED_WRITES).mapHead x.head fun y => { y with seenPos := some x.pos.code }

theorem noteBridged_seen (c : Chip) (x : BridgedWrite) : ((c.noteBridged x).head x.head).seenPos = some x.pos.code := by
  unfold Chip.noteBridged
  rw [Chip.head_mapHead_same]

/-- A bridged write outside the commons that the carbon has not stored is written into its WMB, and the home told so (R174). -/
theorem takeBridged_eq (c : Chip) (x : BridgedWrite) (hm : c.mode ≠ mJOINING) (hcb : c.isCarbon (portOf x.head) = true)
    (hs : (c.head x.head).lastStored = none) (hcom : c.inCommons x.dpa = false) :
    c.takeBridged x = ((c.noteBridged x).wmbWrite x.head x.pos.code x.dpa x.data x.enables x.poison (x.enables == allBytes)).sendWriteWm x.head x.pos.code := by
  have hst : (c.noteBridged x).storesWrite x.dpa = true := storesWrite_of_mode (c := c.noteBridged x) hm x.dpa
  have hcd : (c.noteBridged x).inCommons x.dpa = false := (Chip.inCommons_congr rfl x.dpa).trans hcom
  have hnew : (covers (c.head x.head).lastStored x.pos.code || !c.isCarbon (portOf x.head)) = false := by
    rw [hs, hcb]
    rfl
  unfold Chip.takeBridged
  refine (if_neg (Bool.eq_false_iff.mp hnew)).trans ?_
  refine (if_neg (c := (!(c.noteBridged x).storesWrite x.dpa) = true) (by rw [hst]; decide)).trans ?_
  exact if_neg (c := (c.noteBridged x).inCommons x.dpa = true) (Bool.eq_false_iff.mp hcd)

/-- A full write of the peer's port outside the commons enters the carbon's WMB (R174). -/
theorem takeBridged_spec (c : Chip) (x : BridgedWrite) (hm : c.mode ≠ mJOINING) (hcb : c.isCarbon (portOf x.head) = true)
    (hs : (c.head x.head).lastStored = none) (hcom : c.inCommons x.dpa = false) (hall : x.enables = allBytes) (hl : lineBase x.dpa = x.dpa) :
    Chip.WmbEntry.Takes (c.wmbEntry x.dpa) ((c.takeBridged x).wmbEntry x.dpa) x.data allBytes x.poison (x.enables == allBytes) ∧
      ((c.takeBridged x).head x.head).seenPos = some x.pos.code ∧ (c.takeBridged x).link.rxSeq = c.link.rxSeq := by
  rw [takeBridged_eq c x hm hcb hs hcom]
  generalize (x.enables == allBytes) = full
  rw [hall]
  have hne : allBytes ≠ 0 := by decide
  have hw := (Chip.wmbWrite_entry (c.noteBridged x) x.head x.pos.code x.dpa x.data allBytes x.poison full hne).1
  rw [hl] at hw
  have hacc : Accessed (c.noteBridged x) ((c.noteBridged x).wmbWrite x.head x.pos.code x.dpa x.data allBytes x.poison full) := .wmbWrite _ _ _ _ _ _ _ _
  generalize (c.noteBridged x).wmbWrite x.head x.pos.code x.dpa x.data allBytes x.poison full = d at hw hacc
  have hold : (c.noteBridged x).wmbEntry x.dpa = c.wmbEntry x.dpa := Chip.wmbEntry_congr rfl _
  rw [hold] at hw
  obtain ⟨hwmb, hsp, hrx⟩ := sendWriteWm_spec d x.head x.pos.code
  have hseen : (d.head x.head).seenPos = ((c.noteBridged x).head x.head).seenPos := (congrArg Head.seenPos (hacc.heads x.head) :)
  have hnum : d.link.rxSeq = c.link.rxSeq := (congrArg Link.rxSeq hacc.link :)
  rw [Chip.wmbEntry_congr hwmb]
  exact ⟨hw, hsp.trans (hseen.trans (noteBridged_seen c x)), hrx.trans hnum⟩

/-! ## An event for a head -/

/-- A record that a log has room for stands at its end (R111). -/
theorem logRecord_room (c : Chip) (h : Fin 24) (l : Nat) (r : EventRec) (hn : (c.log h l).recs.length < 64) :
    ((c.logRecord h l r).log h l).recs = (c.log h l).recs ++ [((c.log h l).nextHandle, r)] := by
  have hpost : ∀ (d : Chip) (k : PmRecord), (d.post k).log h l = d.log h l := fun d k => by
    unfold Chip.log Chip.head
    rw [Received.post_heads]
  have hroom : (Chip.EventLog.enter (c.log h l) r (c.stampAt r.round)).recs = (c.log h l).recs ++ [((c.log h l).nextHandle, r)] := by
    unfold Chip.EventLog.enter
    rw [if_neg (by omega)]
  unfold Chip.logRecord Chip.logRecordWith
  rw [hpost]
  unfold Chip.enterLogWith
  extract_lets x d
  have hd : d.log h l = Chip.EventLog.enter (c.log h l) r (c.stampAt r.round) := by
    have hset : ∀ y : EventLog, (c.setLog h l y).log h l = y := fun y => by
      have hput : ∀ (k : Chip) (f : Fld) (v : Nat), (k.put f v).log h l = k.log h l := fun _ _ _ => rfl
      unfold Chip.setLog
      rw [hput]
      unfold Chip.log
      rw [Chip.head_mapHead_same]
      exact Table.get_set_same _ _ _ _
    exact hset _
  have hcause : (d.cause h (1 + l)).log h l = d.log h l := by
    unfold Chip.log
    rw [(HeadsGrow.Vectored.cause (h := h) d (1 + l)).logs h]
  rw [if_neg (Nat.not_le.mpr hn)]
  split
  · rw [hcause, hd, hroom]
  · rw [hd, hroom]

theorem logRecord_rxSeq (c : Chip) (h : Fin 24) (l : Nat) (r : EventRec) : (c.logRecord h l r).link.rxSeq = c.link.rxSeq :=
  (congrArg (fun x : Quiet => x.link.rxSeq) (Chip.logRecord_quiet c h l r) :)

end Sys2Proof.Machine
end

section
/-! PROOF. What the envelopes of each class do (R168 to R180, R209 to R211, R216). -/
namespace Sys2Proof.Machine

/-- An envelope of another class than FILL that comes in its order is heard, and its body acts. -/
theorem State.receive_next (s : State) (w : Twin) (cls : Nat) (f : EnvBody → State → State) (g : State → Chip → Chip) {e : Envelope}
    (ha : s.arriving w = some e) (hc : e.body.cls = cls) (h0 : cls ≠ 0) (hs : Chip.seqAfter e.seq (s.chip w).link.rxSeq = 1)
    (hf : ∀ s', f e.body s' = s'.mapChip w (g s')) :
    ∃ (s' : State) (d : Chip), Received (s.chip w) d ∧ d.link.rxSeq = e.seq ∧ d = ((s.chip w).heard e).1 ∧ (s.receive w cls f).chip w = g s' d ∧
      ((s.receive w cls f).chip w.other).link.tx = (s.chip w.other).link.tx.tail := by
  obtain ⟨hx, hn⟩ := heard_next (s.chip w) e (by rw [hc]; exact h0) hs
  obtain ⟨s', hgo, ho⟩ := s.receive_chip w cls f g ha hc hx hf
  exact ⟨s', _, Received.heard (s.chip w) e, hn, rfl, hgo, ho⟩

/-- What the chip shows once the body has acted, and that the envelope has left the link. -/
theorem State.receive_acts (s : State) (w : Twin) (cls : Nat) (f : EnvBody → State → State) (g : State → Chip → Chip) (P : Chip → Prop) {e : Envelope}
    (ha : s.arriving w = some e) (hc : e.body.cls = cls) (h0 : cls ≠ 0) (hs : Chip.seqAfter e.seq (s.chip w).link.rxSeq = 1)
    (hf : ∀ s', f e.body s' = s'.mapChip w (g s'))
    (hP : ∀ s' d, Received (s.chip w) d → d.link.rxSeq = e.seq → d = ((s.chip w).heard e).1 → P (g s' d)) :
    ∃ t : State, (Host.Outcome.next (s.receive w cls f) : Host.Outcome State Fault Refusal) = .next t ∧ P (t.chip w) ∧
      (t.chip w.other).link.tx = (s.chip w.other).link.tx.tail := by
  obtain ⟨s', d, hrec, hn, hd, hgo, ho⟩ := s.receive_next w cls f g ha hc h0 hs hf
  refine ⟨_, rfl, ?_, ho⟩
  rw [hgo]
  exact hP s' d hrec hn hd

theorem execEnvFill_spec (w : Twin) (e : Envelope) (s : State) (ha : s.arriving w = some e) (hb : e.body = .fill) (hw : (s.chip w).link.waiting = []) :
    ∃ t, exec (.envFill w) s = .next t ∧ (t.chip w).link.replay = (s.chip w).link.replay.filter (fun x =>
        decide (0 < Chip.seqAfter x.seq e.ack) && decide (Chip.seqAfter x.seq e.ack < 2 ^ 15)) ∧
      (t.chip w).link.rxSeq = (s.chip w).link.rxSeq ∧
      (t.chip w.other).link.tx = (s.chip w.other).link.tx.tail := by
  have hc : e.body.cls = 0 := by rw [hb]; rfl
  obtain ⟨hx, hn, hr⟩ := heard_fill (s.chip w) e hc
  obtain ⟨s', hgo, hd, ho⟩ := s.receive_eq w 0 (fun _ s => s) ha hc hx
  refine ⟨_, rfl, ?_, ?_, ?_⟩
  · rw [hgo, hd, hr, (takeAck_replay _ e hw).1]
  · rw [hgo, hd, hn]
  · rw [hgo, ho]

/-- A frame of the peer's is taken; the pool that it tells of changes nothing of the frame. -/
theorem hearFrame_framed (c : Chip) (f : Frame) (x : Option Nat) (ht : (f.twin == c.twin) = false) :
    ({ c.hearFrame f with twe := { (c.hearFrame f).twe with peerPool := x } } : Chip).framed = (some f, some f.heartbeat, some f.deliveryN, c.link.rxSeq) := by
  have hpool : ∀ k : Chip, ({ k with twe := { k.twe with peerPool := x } } : Chip).framed = k.framed := fun _ => rfl
  have hhear : c.hearFrame f = c.takeStateFrame f := by
    unfold Chip.hearFrame
    rw [ht]
    exact if_neg Bool.false_ne_true
  rw [hpool, hhear]
  exact takeStateFrame_framed c f

theorem execEnvFrame_spec (w : Twin) (e : Envelope) (f : Frame) (s : State) (ha : s.arriving w = some e) (hb : e.body = .frame f)
    (ht : (f.twin == (s.chip w).twin) = false) (hs : Chip.seqAfter e.seq (s.chip w).link.rxSeq = 1) (hm : (s.chip w).mode ≠ mHELD) :
    ∃ t, exec (.envFrame w) s = .next t ∧ (t.chip w).twe.peerFrame = some f ∧ (t.chip w).twe.lastHb = some f.heartbeat ∧
      (t.chip w).clk.peerDeliveryN = some f.deliveryN ∧
      (t.chip w).link.rxSeq = e.seq ∧ (t.chip w.other).link.tx = (s.chip w.other).link.tx.tail := by
  obtain ⟨t, hgo, h, ho⟩ : ∃ t, exec (.envFrame w) s = .next t ∧ (t.chip w).framed = (some f, some f.heartbeat, some f.deliveryN, e.seq) ∧
      (t.chip w.other).link.tx = (s.chip w.other).link.tx.tail :=
    s.receive_acts w 1 _ (fun s c => if c.mode = mHELD then c else
      { c.hearFrame f with twe := { (c.hearFrame f).twe with peerPool := some (s.chip w.other).poolFrames } })
      (fun c => c.framed = (some f, some f.heartbeat, some f.deliveryN, e.seq)) ha (by rw [hb]; rfl) (by decide) hs (fun _ => by rw [hb])
      fun s' d hrec hn _ => by
        rw [if_neg (hrec.mode ▸ hm), hearFrame_framed d f _ (by rw [hrec.twin, ht]), hn]
  simp only [Chip.framed, Prod.mk.injEq] at h
  obtain ⟨h1, h2, h3, h4⟩ := h
  exact ⟨t, hgo, h1, h2, h3, h4, ho⟩

theorem execEnvPostmark_spec (w : Twin) (e : Envelope) (n : Nat) (l : List PmRecord) (s : State) (ha : s.arriving w = some e) (hb : e.body = .postmark n l)
    (hs : Chip.seqAfter e.seq (s.chip w).link.rxSeq = 1) (hal : (s.chip w).aligned = true) (hm : (s.chip w).mode ≠ mISOLATED) :
    ∃ t, exec (.envPostmark w) s = .next t ∧ (t.chip w).twe.rxRecs = (s.chip w).twe.rxRecs ++ (l.zipIdx.map fun x => ((n + x.2) % 2 ^ 32, x.1)) ∧
      (t.chip w).link.rxSeq = e.seq ∧ (t.chip w.other).link.tx = (s.chip w.other).link.tx.tail := by
  have hal' : (!(s.chip w).aligned) = false := by rw [hal]; rfl
  obtain ⟨t, hgo, ⟨h1, h2⟩, ho⟩ := s.receive_acts w 2 (fun b s => match b with
    | .postmark first recs => s.mapChip w fun c =>
        if c.mode = mISOLATED then c
        else { c with twe := { c.twe with rxRecs := c.twe.rxRecs ++ recs.zipIdx.map fun x => ((first + x.2) % 2 ^ 32, x.1) } }
    | _ => s)
    (fun _ c => if c.mode = mISOLATED then c else { c with twe := { c.twe with rxRecs := c.twe.rxRecs ++ l.zipIdx.map fun x => ((n + x.2) % 2 ^ 32, x.1) } })
    (fun c => c.twe.rxRecs = (s.chip w).twe.rxRecs ++ (l.zipIdx.map fun x => ((n + x.2) % 2 ^ 32, x.1)) ∧ c.link.rxSeq = e.seq)
    ha (by rw [hb]; rfl) (by decide) hs (fun _ => by rw [hb])
    fun _ d hrec hn _ => by
      have hold : d.twe.rxRecs = (s.chip w).twe.rxRecs := (congrArg Twe.rxRecs hrec.twe :)
      rw [if_neg (hrec.mode ▸ hm), ← hold]
      exact ⟨rfl, hn⟩
  exact ⟨t, (congrArg Host.Outcome.next (if_neg (Bool.eq_false_iff.mp hal'))).trans hgo, h1, h2, ho⟩

theorem execEnvFetch_spec (w : Twin) (e : Envelope) (h : Fin 24) (flit : Nat) (s : State) (ha : s.arriving w = some e)
    (hb : e.body = .fetchAsk h .deviceToHost flit) (hs : Chip.seqAfter e.seq (s.chip w).link.rxSeq = 1) (hl : (s.chip w).linkSends = true)
    (hw : (s.chip w).link.waiting = []) (hr : (s.chip w).link.replay.length < 512) :
    ∃ t, exec (.envFetch w) s = .next t ∧
      ((t.chip w).link.tx.getLast?.map (fun x => x.body) =
        some (.fetchDown h flit (((s.chip w).head h).txHist.find? fun x => x.flit == flit)) ∧
      (t.chip w).link.rxSeq = e.seq) ∧ (t.chip w.other).link.tx = (s.chip w.other).link.tx.tail :=
  s.receive_acts w 3 _ (fun _ c => c.answerFetch h .deviceToHost flit)
    (fun c => c.link.tx.getLast?.map (fun x => x.body) = some (.fetchDown h flit (((s.chip w).head h).txHist.find? fun x => x.flit == flit)) ∧
      c.link.rxSeq = e.seq) ha (by rw [hb]; rfl) (by decide) hs (fun _ => by rw [hb])
    fun _ d hrec hn hd => by
      obtain ⟨hlast, hseq⟩ := answerFetch_spec d h flit (hrec.linkSends.trans hl) (hd ▸ heard_room _ e hw hr)
      rw [hrec.head] at hlast
      exact ⟨hlast, hseq.trans hn⟩

theorem execEnvRepair_spec (w : Twin) (e : Envelope) (dpa : Nat) (s : State) (ha : s.arriving w = some e)
    (hb : e.body = .repairAsk dpa) (hs : Chip.seqAfter e.seq (s.chip w).link.rxSeq = 1) (hl : (s.chip w).linkSends = true)
    (hw : (s.chip w).link.waiting = []) (hr : (s.chip w).link.replay.length < 512) (hdue : (s.chip w).trm.repairDue.contains dpa = false)
    (hcan : (s.chip w).cannotServe dpa = false) :
    ∃ t, exec (.envRepair w .good) s = .next t ∧
      ((t.chip w).link.tx.getLast?.map (fun x => x.body) = some (.repairData dpa (some ((s.chip w).fullLine dpa))) ∧
      (t.chip w).link.rxSeq = e.seq) ∧ (t.chip w.other).link.tx = (s.chip w.other).link.tx.tail :=
  s.receive_acts w 4 _ (fun _ c => c.serveRepair dpa .good)
    (fun c => c.link.tx.getLast?.map (fun x => x.body) = some (.repairData dpa (some ((s.chip w).fullLine dpa))) ∧ c.link.rxSeq = e.seq)
    ha (by rw [hb]; rfl) (by decide) hs (fun _ => by rw [hb])
    fun _ d hrec hn hd => by
      have htrm : d.trm = (s.chip w).trm := (congrArg Chip.trm hrec.rest :)
      have hc : d.cannotServe dpa = (s.chip w).cannotServe dpa := (congrArg (fun x : Chip => x.cannotServe dpa) hrec.rest :)
      obtain ⟨hlast, hseq⟩ := serveRepair_spec d dpa (hrec.linkSends.trans hl) (hd ▸ heard_room _ e hw hr) (by rw [htrm, hdue]) (hc.trans hcan)
      rw [Chip.fullLine_congr htrm (congrArg Chip.wmb hrec.rest :)] at hlast
      exact ⟨hlast, hseq.trans hn⟩

theorem execEnvBridge_spec (w : Twin) (e : Envelope) (x : BridgedWrite) (s : State) (ha : s.arriving w = some e) (hb : e.body = .bridge [x])
    (hs : Chip.seqAfter e.seq (s.chip w).link.rxSeq = 1) (hm : (s.chip w).mode = mMIRRORED) (hcb : (s.chip w).isCarbon (portOf x.head) = true)
    (hst : ((s.chip w).head x.head).lastStored = none) (hcom : (s.chip w).inCommons x.dpa = false) (hall : x.enables = allBytes) (hl : x.dpa % 64 = 0)
    (hfree : (s.chip w).wmbEntry x.dpa = {}) :
    ∃ t, exec (.envBridge w) s = .next t ∧ (((t.chip w).wmbEntry x.dpa).state = .valid ∧ ((t.chip w).wmbEntry x.dpa).data = x.data ∧
      ((t.chip w).wmbEntry x.dpa).mask = allBytes ∧ ((t.chip w).head x.head).seenPos = some x.pos.code ∧
      (t.chip w).link.rxSeq = e.seq) ∧ (t.chip w.other).link.tx = (s.chip w.other).link.tx.tail :=
  s.receive_acts w 5 _ (fun _ c => if c.mode = mISOLATED then c else c.takeBridged x)
    (fun c => (c.wmbEntry x.dpa).state = .valid ∧ (c.wmbEntry x.dpa).data = x.data ∧
      (c.wmbEntry x.dpa).mask = allBytes ∧ (c.head x.head).seenPos = some x.pos.code ∧ c.link.rxSeq = e.seq)
    ha (by rw [hb]; rfl) (by decide) hs (fun _ => by rw [hb]; rfl)
    fun _ d hrec hn _ => by
      have hmode : d.mode = mMIRRORED := hrec.mode.trans hm
      have hbase : lineBase x.dpa = x.dpa := by
        unfold lineBase
        omega
      obtain ⟨⟨h1, h2, -, h4⟩, hseen, hseq⟩ := takeBridged_spec d x (by rw [hmode]; decide) ((hrec.isCarbon _).trans hcb) (by rw [hrec.head, hst])
        ((Chip.inCommons_congr (congrArg Chip.applied hrec.rest :) _).trans hcom) hall hbase
      rw [hrec.wmbEntry, hfree] at h1 h2 h4
      rw [if_neg (by rw [hmode]; decide)]
      exact ⟨h4, h1.trans (mergeLine_whole _ _), h2, hseen, hseq.trans hn⟩

theorem execEnvEvent_spec (w : Twin) (e : Envelope) (r : EventRec) (l : Fin 4) (s : State) (ha : s.arriving w = some e) (hb : e.body = .event r l)
    (hsub : r.subcode = 4) (hs : Chip.seqAfter e.seq (s.chip w).link.rxSeq = 1) (hh : (s.chip w).isHome (portOf (Fin.ofNat 24 r.addr)) = true)
    (hroom : ((s.chip w).log (Fin.ofNat 24 r.addr) l.val).recs.length < 64) :
    ∃ t, exec (.envEvent w) s = .next t ∧ (((t.chip w).log (Fin.ofNat 24 r.addr) l.val).recs =
      ((s.chip w).log (Fin.ofNat 24 r.addr) l.val).recs ++ [(((s.chip w).log (Fin.ofNat 24 r.addr) l.val).nextHandle, { r with addr := 0 })] ∧
      (t.chip w).link.rxSeq = e.seq) ∧ (t.chip w.other).link.tx = (s.chip w.other).link.tx.tail :=
  s.receive_acts w 7 _ (fun _ c => if r.subcode = 4 then
      if c.isHome (portOf (Fin.ofNat 24 r.addr)) then c.logRecord (Fin.ofNat 24 r.addr) l.val { r with addr := 0 } else c
      else if r.form = .showick then c.logHere l.val r else c.mediaHere r)
    (fun c => (c.log (Fin.ofNat 24 r.addr) l.val).recs =
      ((s.chip w).log (Fin.ofNat 24 r.addr) l.val).recs ++ [(((s.chip w).log (Fin.ofNat 24 r.addr) l.val).nextHandle, ({ r with addr := 0 } : EventRec))] ∧
      c.link.rxSeq = e.seq) ha (by rw [hb]; rfl) (by decide) hs (fun _ => by rw [hb])
    fun _ d hrec hn _ => by
      have hlog := hrec.log (Fin.ofNat 24 r.addr) l.val
      rw [if_pos hsub, if_pos ((hrec.isHome _).trans hh), logRecord_room d _ _ _ (by rw [hlog]; exact hroom), hlog]
      exact ⟨rfl, (logRecord_rxSeq _ _ _ _).trans hn⟩

theorem execEnvControl_spec (w : Twin) (e : Envelope) (r : Nat) (s : State) (ha : s.arriving w = some e) (hb : e.body = .rekeyAsk r)
    (hs : Chip.seqAfter e.seq (s.chip w).link.rxSeq = 1) :
    ∃ t, exec (.envControl w) s = .next t ∧ ((t.chip w).link.rekeyAt = some r ∧ (t.chip w).link.rxSeq = e.seq) ∧
      (t.chip w.other).link.tx = (s.chip w.other).link.tx.tail :=
  s.receive_acts w 8 _ (fun _ c => { c with link := { c.link with rekeyAt := some r } }) (fun c => c.link.rekeyAt = some r ∧ c.link.rxSeq = e.seq)
    ha (by rw [hb]; rfl) (by decide) hs (fun _ => by rw [hb]) fun _ _ _ hn _ => ⟨rfl, hn⟩

theorem execEnvResync_spec (w : Twin) (e : Envelope) (line : Nat) (x : DirEntry) (s : State) (ha : s.arriving w = some e)
    (hb : e.body = .resyncDirectory line x) (hs : Chip.seqAfter e.seq (s.chip w).link.rxSeq = 1) (hm : (s.chip w).mode = mJOINING) :
    ∃ t, exec (.envResync w) s = .next t ∧ ((t.chip w).che.shadow.get (fun _ => {}) (line / 64) = { x with way := 0 } ∧
      (t.chip w).link.rxSeq = e.seq) ∧ (t.chip w.other).link.tx = (s.chip w.other).link.tx.tail :=
  s.receive_acts w 9 _ (fun _ c => if c.mode ≠ mJOINING then c else c.takeDirectory line x)
    (fun c => c.che.shadow.get (fun _ => {}) (line / 64) = { x with way := 0 } ∧ c.link.rxSeq = e.seq)
    ha (by rw [hb]; rfl) (by decide) hs (fun _ => by rw [hb])
    fun _ d hrec hn _ => by
      rw [if_neg (not_not_intro (hrec.mode.trans hm))]
      exact ⟨Table.get_set_same _ _ _ _, hn⟩

/-- Settles O35, class by class: the reception leaves the chip but for the link's own state, so the body acts on what stood before. -/
theorem envelopesComplete : Obligations.EnvelopesComplete := by
  refine ⟨execEnvFill_spec, execEnvFrame_spec, execEnvPostmark_spec, ?_, ?_, ?_, ?_, ?_, ?_⟩
  · intro w e h flit s ha hb hs hl hw hr
    obtain ⟨t, ht, ⟨h1, h2⟩, ho⟩ := execEnvFetch_spec w e h flit s ha hb hs hl hw hr
    exact ⟨t, ht, h1, h2, ho⟩
  · intro w e dpa s ha hb hs hl hw hr hdue hcan
    obtain ⟨t, ht, ⟨h1, h2⟩, ho⟩ := execEnvRepair_spec w e dpa s ha hb hs hl hw hr hdue hcan
    exact ⟨t, ht, h1, h2, ho⟩
  · intro w e x s ha hb hs hm hcb hst hcom hall hl hfree
    obtain ⟨t, ht, ⟨h1, h2, h3, h4, h5⟩, ho⟩ := execEnvBridge_spec w e x s ha hb hs hm hcb hst hcom hall hl hfree
    exact ⟨t, ht, h1, h2, h3, h4, h5, ho⟩
  · intro w e r l s ha hb hsub hs hh hroom
    obtain ⟨t, ht, ⟨h1, h2⟩, ho⟩ := execEnvEvent_spec w e r l s ha hb hsub hs hh hroom
    exact ⟨t, ht, h1, h2, ho⟩
  · intro w e r s ha hb hs
    obtain ⟨t, ht, ⟨h1, h2⟩, ho⟩ := execEnvControl_spec w e r s ha hb hs
    exact ⟨t, ht, h1, h2, ho⟩
  · intro w e line x s ha hb hs hm
    obtain ⟨t, ht, ⟨h1, h2⟩, ho⟩ := execEnvResync_spec w e line x s ha hb hs hm
    exact ⟨t, ht, h1, h2, ho⟩

end Sys2Proof.Machine
end

section
/-! PROOF. The STATE words of the pages (R52): what a block does as its page begins to run, and what new values bring about in it, changes none. -/
namespace Sys2Proof.Machine

/-- `d` has the STATE word of every page of `c`. -/
def StatesKept (c d : Chip) : Prop := ∀ p, d.rd p 0x00C = c.rd p 0x00C

namespace StatesKept

theorem refl (c : Chip) : StatesKept c c := fun _ => rfl

theorem trans {c d e : Chip} (h : StatesKept c d) (k : StatesKept d e) : StatesKept c e := fun p => (k p).trans (h p)

/-- Steps put together from the last. -/
theorem after {c d e : Chip} (k : StatesKept d e) (h : StatesKept c d) : StatesKept c e := h.trans k

theorem foldl_mem {α : Type} (g : Chip → α → Chip) : ∀ (l : List α), (∀ d, ∀ x ∈ l, StatesKept d (g d x)) → ∀ d, StatesKept d (l.foldl g d)
  | [], _ => refl
  | x :: l, hg => fun d => (hg d x List.mem_cons_self).trans (foldl_mem g l (fun d y hy => hg d y (List.mem_cons_of_mem _ hy)) _)

theorem foldl {α : Type} (g : Chip → α → Chip) (hg : ∀ d x, StatesKept d (g d x)) (l : List α) (d : Chip) : StatesKept d (l.foldl g d) :=
  foldl_mem g l (fun d x _ => hg d x) d

theorem ite {c d e : Chip} {p : Prop} [Decidable p] (h : StatesKept c d) (k : StatesKept c e) : StatesKept c (if p then d else e) := by
  split
  · exact h
  · exact k

theorem of_regs {c d : Chip} (h : d.regs = c.regs) : StatesKept c d := fun p => by
  unfold Chip.rd
  rw [h]

theorem of_quiet {c d : Chip} (h : d.quiet = c.quiet) : StatesKept c d := fun p => Chip.rd_of_quiet h p _ (Chip.quietReg_state p)

theorem of_accessed {c d : Chip} (h : Accessed c d) : StatesKept c d := fun p => h.words p 0x00C (by
  unfold lasting
  rw [Chip.quietReg_state p]
  rfl)

/-- A field of another word of its page. -/
theorem put (c : Chip) (f : Fld) (v : Nat) (ho : f.off < 4096) (hne : f.off ≠ 0x00C) : StatesKept c (c.put f v) := fun p =>
  Chip.rd_put_ne _ _ _ _ _ fun h => hne (regKey_inj (by decide) ho h).2.symm

theorem cnt (c : Chip) (k : Ctr) (n : Nat) : StatesKept c (c.cnt k n) := of_regs rfl
theorem trm (c : Chip) (x : Trm) : StatesKept c { c with trm := x } := of_regs rfl
theorem mde (c : Chip) (x : Mde) : StatesKept c { c with mde := x } := of_regs rfl
theorem che (c : Chip) (x : Che) : StatesKept c { c with che := x } := of_regs rfl
theorem peak (c : Chip) (k : Ctr) (n : Nat) : StatesKept c (c.peak k n) := of_regs rfl
theorem mapHead (c : Chip) (h : Fin 24) (f : Head → Head) : StatesKept c (c.mapHead h f) := of_regs rfl
theorem raise (c : Chip) (f : Fld) : StatesKept c (c.raise f) := of_quiet (Chip.raise_quiet c f)
theorem post (c : Chip) (r : PmRecord) : StatesKept c (c.post r) := of_quiet (Chip.post_quiet c r)
theorem postEffect (c : Chip) (e : Effect) (gated : Bool) (ends : Option Ends) : StatesKept c (c.postEffect e gated ends) :=
  of_quiet (Chip.postEffect_quiet c e gated ends)
theorem headRecord (c : Chip) (h : Fin 24) (l page sub addr : Nat) : StatesKept c (c.headRecord h l page sub addr) :=
  of_quiet (Chip.headRecord_quiet c h l page sub addr)

/-! ## Links -/

theorem shadow_off : ∀ h : Fin 24, 0x800 + 0x10 * linkPos h < 4096 ∧ 0x800 + 0x10 * linkPos h ≠ 0x00C := by decide

theorem acquire (c : Chip) (h : Fin 24) : StatesKept c (c.acquire h) := after (mapHead _ _ _) (put c _ _ (shadow_off h).1 (shadow_off h).2)

theorem setLtssm (c : Chip) (h : Fin 24) (st : Nat) : StatesKept c (c.setLtssm h st) := by
  unfold Chip.setLtssm
  extract_lets p old d e
  have hd : StatesKept c d := put c _ _ (show 0x800 < 4096 by decide) (show 0x800 ≠ 0x00C by decide)
  have he : StatesKept c e := ite (after (put d _ _ (shadow_off h).1 (shadow_off h).2) hd) hd
  exact ite (after (raise e _) he) he

theorem toDetect (c : Chip) (h : Fin 24) : StatesKept c (c.toDetect h) := by
  unfold Chip.toDetect Chip.freeLanes
  exact ite (refl c) (after (put _ _ _ (show 0x804 < 4096 by decide) (show 0x804 ≠ 0x00C by decide)) (setLtssm c h 0))

theorem bifurcate (c was : Chip) (page : Nat) : StatesKept c (c.bifurcate was page) := by
  unfold Chip.bifurcate
  exact ite (foldl _ (fun d h => ite (refl d) (toDetect d h)) _ c) (refl c)

/-! ## Interrupts, rails and channels -/

theorem mapSrc (c : Chip) (i : Nat) (f : IntSource → IntSource) : StatesKept c (c.mapSrc i f) := of_regs rfl
theorem mapCore (c : Chip) (n : Nat) (f : Core → Core) : StatesKept c (c.mapCore n f) := of_regs rfl
theorem mapRoute (c : Chip) (r : Nat) (f : RouteSlot → RouteSlot) : StatesKept c (c.mapRoute r f) := of_regs rfl

theorem presentTo (c : Chip) (n : Nat) : StatesKept c (c.presentTo n) := by
  unfold Chip.presentTo
  extract_lets b f
  refine foldl _ (fun d i => ?_) _ c
  split
  · exact mapSrc d i _
  · exact ite (mapSrc d i _) (refl d)

theorem wake (c : Chip) (n : Nat) (hn : n < 8) : StatesKept c (c.wake n) := by
  unfold Chip.wake
  extract_lets bySource
  exact ite (after (cnt _ _ _) (after (put _ _ _ (show 0x804 + 0x20 * n < 4096 by omega) (show 0x804 + 0x20 * n ≠ 0x00C by omega)) (mapCore c n _))) (refl c)

theorem icuUpdate (c : Chip) : StatesKept c c.icuUpdate := by
  unfold Chip.icuUpdate
  exact foldl_mem _ _ (fun d n hn => after (wake _ n (List.mem_range.mp hn)) (presentTo d n)) c

theorem sourceDisable (c : Chip) (i : Nat) (late : Bool) : StatesKept c (c.sourceDisable i late) := by
  unfold Chip.sourceDisable
  exact ite (of_regs rfl) (after (icuUpdate _) (of_regs rfl))

theorem planStep (c : Chip) : StatesKept c c.planStep := by
  unfold Chip.planStep Chip.setVdd
  refine ite (after (cnt _ _ _) (after (of_regs rfl) (after (put _ _ _ ?_ ?_) (of_regs rfl)))) (refl c)
  · decide
  · decide

theorem fillTokens (c : Chip) (d : Nat) (k : Client) : StatesKept c (c.fillTokens d k) := of_regs rfl

/-! ## The media's rows -/

theorem queueRow (c : Chip) (r cls : Nat) : StatesKept c (c.queueRow r cls) := by
  unfold Chip.queueRow
  exact ite (of_regs rfl) (refl c)

theorem loseColumn (c : Chip) (u k : Nat) : StatesKept c (c.loseColumn u k) := by
  unfold Chip.loseColumn
  refine foldl _ (fun d x => ?_) _ c
  extract_lets d1 drop _ _ d2
  have h2 : StatesKept d d2 := of_regs rfl
  exact ite (after (queueRow _ _ _) (after (raise d2 _) h2)) h2

theorem forget (c : Chip) (x : ParcelEntry) : StatesKept c (c.forget x) := by
  unfold Chip.forget
  exact ite (refl c) (of_regs rfl)

theorem setModule (c : Chip) (m st : Nat) (hm : m < 8) : StatesKept c (c.setModule m st) :=
  after (raise _ _) (put c _ _ (show 0x800 + 0x4 * m < 4096 by omega) (show 0x800 + 0x4 * m ≠ 0x00C by omega))

/-! ## Extents -/

theorem mdcTouch (c : Chip) (line : Nat) (write : Bool) : StatesKept c (c.mdcTouch line write) := of_accessed (.mdcTouch c line write)
theorem mapExt (c : Chip) (e : Nat) (f : ExtEntry → ExtEntry) : StatesKept c (c.mapExt e f) := of_accessed (.mapExt c e f)

theorem mapBits (c old : Chip) (p : Nat) : StatesKept c (c.mapBits old p) := by
  unfold Chip.mapBits
  extract_lets d
  have hd : StatesKept c d := ite (refl c) (after (mdcTouch _ _ _) (mdcTouch c _ _))
  exact ite hd (after (mdcTouch d _ _) hd)

theorem setDirty (c : Chip) (p : Nat) (on : Bool) : StatesKept c (c.setDirty p on) := by
  unfold Chip.setDirty
  refine ite (refl c) ?_
  extract_lets _ d
  have hd : StatesKept c d := trm c _
  split
  · exact after (mapBits _ _ _) (after (mdcTouch d _ _) hd)
  · exact hd

theorem releaseFrame (c : Chip) (e : Nat) : StatesKept c (c.releaseFrame e) := by
  unfold Chip.releaseFrame
  split
  · exact refl c
  · extract_lets a b
    have ha : StatesKept c a := foldl _ (fun d p => setDirty d p false) _ c
    exact after (trm b _) (after (mapExt a _ _) ha)

theorem takeFrame (c : Chip) (e : Nat) : StatesKept c (c.takeFrame e) := by
  unfold Chip.takeFrame
  split
  · exact refl c
  · next f _ =>
    extract_lets _ d0 d
    have hd : StatesKept c d := after (mapExt d0 _ _) (of_regs rfl)
    exact ite hd (after (of_accessed (.wantRange d _)) hd)

theorem tcInvalidate (c : Chip) (e : Nat) : StatesKept c (c.tcInvalidate e) := of_regs rfl
theorem endMig (c : Chip) (e : Nat) : StatesKept c (c.endMig e) := of_regs rfl
theorem startMig (c : Chip) (e : Nat) (promote : Bool) : StatesKept c (c.startMig e promote) := of_regs rfl
theorem queueMig (c : Chip) (cls e : Nat) (promote : Bool) : StatesKept c (c.queueMig cls e promote) := of_accessed (.queueMig c cls e promote)

theorem setParcel (c : Chip) (p : Nat) (x : ParcelEntry) : StatesKept c (c.setParcel p x) := after (mdcTouch _ _ _) (of_regs rfl)

theorem pcacheDrop (c : Chip) (p : Nat) : StatesKept c (c.pcacheDrop p) := by
  unfold Chip.pcacheDrop
  exact ite (refl c) (after (cnt _ _ _) (after (mdcTouch _ _ _) (of_regs rfl)))

theorem dropPatch (c : Chip) (p : Nat) (ls : List Nat) : StatesKept c (c.dropPatch p ls) := by
  unfold Chip.dropPatch
  extract_lets left _ d1 _ d
  have hd : StatesKept c d := ite (of_regs rfl) (of_regs rfl)
  exact after (mapBits d c p) hd

theorem discardParcel (c : Chip) (p : Nat) : StatesKept c (c.discardParcel p) := by
  unfold Chip.discardParcel
  extract_lets old a _ b _ d
  have ha : StatesKept c a := after (pcacheDrop _ p) (dropPatch c p _)
  have hb : StatesKept c b := after (mde a _) ha
  have hd : StatesKept c d := after (trm b _) hb
  exact ite hb (after (setParcel _ p _) (after (forget d old) hd))

theorem discardExtent (c : Chip) (e : Nat) : StatesKept c (c.discardExtent e) := by
  unfold Chip.discardExtent
  extract_lets a b _ d
  have ha : StatesKept c a := after (endMig _ e) (releaseFrame c e)
  have hb : StatesKept c b := after (foldl _ discardParcel _ _) ha
  have hd : StatesKept c d := after (trm b _) hb
  exact after (tcInvalidate _ e) (after (mapExt d e _) hd)

theorem migDone (c : Chip) (e : Nat) : StatesKept c (c.migDone e) := by
  unfold Chip.migDone
  split
  · exact refl c
  · extract_lets mark
    exact ite (after (postEffect _ _ _ _) (of_regs rfl)) (refl c)

theorem evictHeld (c : Chip) (e : Nat) : StatesKept c (c.evictHeld e) := by
  unfold Chip.evictHeld
  refine ite (after (foldl _ (fun d r => ?_) _ _) (cnt c _ _)) (refl c)
  split
  · exact mapRoute d r _
  · exact refl d

/-- An extent that becomes empty. -/
theorem enterState_empty (c : Chip) (e : Nat) : StatesKept c (c.enterState e 0) := by
  unfold Chip.enterState
  extract_lets old d x
  have hx : StatesKept c x := of_accessed (.markChange c e)
  exact ite (after (of_regs rfl) hx) (after (discardExtent x e) hx)

theorem deferEviction (c : Chip) (e : Nat) : StatesKept c (c.deferEviction e) := by
  unfold Chip.deferEviction
  exact ite (refl c) (after (raise _ _) (after (cnt _ _ _) (postEffect c _ _ _)))

theorem wantMove (c : Chip) (cls e : Nat) (promote : Bool) : StatesKept c (c.wantMove cls e promote) := by
  unfold Chip.wantMove
  extract_lets st
  exact ite (refl c) (ite (ite (queueMig c _ _ _) (refl c)) (ite (queueMig c _ _ _) (ite (deferEviction c e) (refl c))))

theorem judgePolicy (c : Chip) (e : Nat) : StatesKept c (c.judgePolicy e) := by
  unfold Chip.judgePolicy
  split
  · exact wantMove c _ _ _
  · exact wantMove c _ _ _
  · exact wantMove c _ _ _
  · exact refl c

/-! ## Routes -/

theorem showWindow (c : Chip) (e : Nat) : StatesKept c (c.showWindow e) := by
  unfold Chip.showWindow
  exact ite (refl c) (mapExt c e _)

theorem unhold (c : Chip) (r : Nat) (es : List Nat) : StatesKept c (c.unhold r es) := by
  unfold Chip.unhold
  exact after (foldl _ showWindow _ _) (of_regs rfl)

theorem countSlip (c : Chip) (r entry round late : Nat) (unarrived : Bool) : StatesKept c (c.countSlip r entry round late unarrived) := by
  unfold Chip.countSlip
  extract_lets p a b d
  have ha : StatesKept c a := after (peak _ _ _) (cnt c _ _)
  have hb : StatesKept c b := after (peak a _ _) ha
  have hd : StatesKept c d := ite (after (cnt b _ _) hb) hb
  refine after (put _ _ _ ?_ ?_) (after (put _ _ _ ?_ ?_) (after (put _ _ _ ?_ ?_) (after (put d _ _ ?_ ?_) hd))) <;> decide

theorem routeChange (c : Chip) (r st : Nat) : StatesKept c (c.routeChange r st) := by
  unfold Chip.routeChange
  exact ite (refl c) (after (raise _ _) (of_regs rfl))

theorem endSlip (c : Chip) (r : Nat) : StatesKept c (c.endSlip r) := by
  unfold Chip.endSlip
  split
  · exact refl c
  · extract_lets d
    exact ite (after (countSlip d _ _ _ _ _) (of_regs rfl)) (of_regs rfl)

theorem withdraw (c : Chip) (es : List Nat) : StatesKept c (c.withdraw es) := of_regs rfl

theorem routeStop (c : Chip) (r : Nat) : StatesKept c (c.routeStop r) := by
  unfold Chip.routeStop
  extract_lets es a b
  have ha : StatesKept c a := after (unhold _ r es) (endSlip c r)
  have hb : StatesKept c b := ite (after (withdraw _ es) (after (cnt _ _ _) ha)) ha
  exact after (routeChange _ r 1) (after (of_regs rfl) hb)

theorem dropObject (c : Chip) (n : Nat) : StatesKept c (c.dropObject n) := by
  unfold Chip.dropObject
  extract_lets es
  refine foldl _ (fun d r => ?_) _ c
  extract_lets x mine y
  have hx : StatesKept d x := of_regs rfl
  have hy : StatesKept d y := after (withdraw _ mine) (after (unhold x r mine) hx)
  exact ite hx (ite (after (cnt y _ _) hy) hy)

theorem routesAfterDomain (c : Chip) : StatesKept c c.routesAfterDomain := by
  unfold Chip.routesAfterDomain
  refine foldl _ (fun d r => ?_) _ c
  extract_lets x
  exact ite (routeStop d r) (refl d)

/-! ## Domains and the commons -/

theorem cdatFollow (c old : Chip) : StatesKept c (c.cdatFollow old) := by
  unfold Chip.cdatFollow
  exact foldl _ (fun d h => after (headRecord _ _ _ _ _ _) (mapHead d h _)) _ c

theorem domainChanged (c old : Chip) (d : Nat) : StatesKept c (c.domainChanged old d) := by
  unfold Chip.domainChanged
  extract_lets moved gone x1 x2 _ x3 x4
  have h1 : StatesKept c x1 := foldl _ enterState_empty _ c
  have h2 : StatesKept c x2 := ite (after (foldl _ dropObject _ _) h1) h1
  have h3 : StatesKept c x3 := ite (after (of_regs rfl) h2) h2
  have h4 : StatesKept c x4 := ite (after (foldl _ judgePolicy _ _) h3) h3
  exact after (raise _ _) (after (cdatFollow _ old) (after (routesAfterDomain x4) h4))

theorem handOff (c : Chip) (d : Nat) : StatesKept c (c.handOff d) := by
  unfold Chip.handOff
  exact after (raise _ _) (after (foldl _ (fun x y => of_accessed (.setShadow x _ _)) _ _) (after (of_regs rfl) (post c _)))

theorem handOffAll (c : Chip) (ds : List Nat) : StatesKept c (c.handOffAll ds) := by
  unfold Chip.handOffAll
  refine foldl _ (fun x d => ?_) _ c
  exact after (handOff _ d) (foldl _ (fun y h => after (cnt _ _ _) (post y _)) _ x)

/-! ## New values -/

theorem storedShared (c : Chip) (page off : Nat) (old new : Word) (both : Bool) : StatesKept c (c.storedShared page off old new both) := by
  unfold Chip.storedShared
  refine ite (ite (mapHead c _ _) (ite (mapHead c _ _) (refl c))) (ite (cdatFollow c _) (ite (ite ?_ (ite (ite (handOffAll c _) (of_regs rfl)) (refl c))) (refl c)))
  exact after (cdatFollow _ _) (foldl _ (fun d h => of_accessed (.loseHead d h _ _)) _ c)

theorem storedDram (c : Chip) (page off : Nat) (old new : Word) : StatesKept c (c.storedDram page off old new) := by
  unfold Chip.storedDram
  extract_lets d
  exact ite (ite (refl c) (of_regs rfl)) (ite (foldl _ (fun x k => fillTokens x d k) _ c) (refl c))

theorem storedOwn (c : Chip) (page off : Nat) (old new : Word) (late : Bool) : StatesKept c (c.storedOwn page off old new late) := by
  unfold Chip.storedOwn
  split
  · next i _ =>
    extract_lets x y
    have hx : StatesKept c x := ite (refl c) (cnt c _ _)
    have hy : StatesKept c y := ite (after (sourceDisable x i late) hx) hx
    exact after (icuUpdate y) hy
  · exact ite (icuUpdate c) (ite (storedDram c page off old new) (ite (planStep c) (ite (of_regs rfl) (ite (foldl _ (fun d u => loseColumn d u _) _ c) (refl c)))))

theorem usedEffects (c : Chip) (page off : Nat) (old new : Word) (both late : Bool) : StatesKept c (c.usedEffects page off old new both late) := by
  unfold Chip.usedEffects
  exact ite (refl c) (after (storedOwn _ _ _ _ _ _) (storedShared c _ _ _ _ _))

theorem pageEffects (c was : Chip) (page : Nat) (both : Bool) : StatesKept c (c.pageEffects was page both) := by
  unfold Chip.pageEffects
  extract_lets keys d
  have hd : StatesKept c d := foldl _ (fun x k => usedEffects x _ _ _ _ _ _) _ c
  exact ite (after (foldl _ (fun x i => domainChanged x was i) _ d) hd) hd

theorem sendRestoreDone (c : Chip) : StatesKept c c.sendRestoreDone := by
  unfold Chip.sendRestoreDone
  exact ite (after (postEffect _ _ _ _) (of_regs rfl)) (refl c)

end StatesKept

end Sys2Proof.Machine
end

section
/-! PROOF. The states of a page (R52, R54): what CTRL brings about, and how a check, a stop and a fault end. -/
namespace Sys2Proof.Machine

namespace Chip
variable (c : Chip) (page : Nat)

theorem pageState_setPageState (st : Nat) (hst : st < 8) : (c.setPageState page st).pageState page = st := by
  unfold pageState setPageState
  rw [rd_wr_same]
  exact (bitsOf_withBits_same _ _ _ _ (by decide)).trans (Nat.mod_eq_of_lt hst)

theorem pageState_beginCheck : (c.beginCheck page).pageState page = 1 := pageState_setPageState _ page 1 (by decide)

theorem rd_setPageState_ne (st off : Nat) (ho : off < 4096) (hne : off ≠ 0x00C) : (c.setPageState page st).rd page off = c.rd page off :=
  rd_wr_ne _ _ _ _ _ _ fun h => hne (regKey_inj ho (by decide) h).2

theorem rd_beginCheck_ctrl : (c.beginCheck page).rd page 0x008 = c.rd page 0x008 := rd_setPageState_ne _ page 1 0x008 (by decide) (by decide)

/-- What a page's CTRL holds after a write of `v` to it. -/
def ctrlWord (old v : Word) : Word := (v &&& 3) ||| ((old ||| v) &&& 8)

/-- A chip whose page has taken a new CTRL word. -/
def withCtrl (v : Word) : Chip := c.wr page 0x008 (ctrlWord (c.rd page 0x008) v)

theorem withCtrl_ctrl (v : Word) : (c.withCtrl page v).rd page 0x008 = ctrlWord (c.rd page 0x008) v := rd_wr_same _ _ _ _

theorem withCtrl_pageState (v : Word) : (c.withCtrl page v).pageState page = c.pageState page := by
  unfold pageState withCtrl
  rw [rd_wr_ne _ _ _ _ _ _ fun h => absurd (regKey_inj (by decide) (by decide) h).2 (by decide)]

variable {c page}

/-! ## Writes of CTRL -/

/-- ENABLE in a page that is off begins a check. -/
theorem ctrlWrite_enable {v : Word} (h2 : v.getLsbD 2 = false) (h0 : v.getLsbD 0 = true) (hs : c.pageState page = 0) :
    c.ctrlWrite page v = (c.withCtrl page v).beginCheck page := by
  unfold ctrlWrite
  simp only [hs, h2, h0]
  rfl

/-- Without ENABLE, a page that is off stays off. -/
theorem ctrlWrite_off {v : Word} (h2 : v.getLsbD 2 = false) (h0 : v.getLsbD 0 = false) (hs : c.pageState page = 0) :
    c.ctrlWrite page v = c.withCtrl page v := by
  unfold ctrlWrite
  simp only [hs, h2, h0]
  rfl

/-- A page that runs and may stop takes the word. -/
theorem ctrlWrite_running {v : Word} (h2 : v.getLsbD 2 = false) (hs : c.pageState page = 2) (hstop : v.getLsbD 0 = false → c.stopCode page = 0)
    (hq : v.getLsbD 1 = true → page = 0x0D0 → c.memActive = false) : c.ctrlWrite page v = c.withCtrl page v := by
  have h1 : ¬(c.pageState page = 2 ∧ (!v.getLsbD 0) = true ∧ c.stopCode page ≠ 0) := fun ⟨_, he, hc⟩ => hc (hstop (by simpa using he))
  have h3 : ¬(c.pageState page = 2 ∧ v.getLsbD 1 = true ∧ page = 0x0D0 ∧ c.memActive = true) := fun ⟨_, he, hp, hm⟩ => by
    rw [hq he hp] at hm
    exact Bool.false_ne_true hm
  unfold ctrlWrite
  dsimp only
  rw [if_neg (Bool.eq_false_iff.mp h2), if_neg h1, if_neg h3, hs]
  rfl

/-- With QUIESCE taken back, a quiesced page begins a check. -/
theorem ctrlWrite_unquiesce {v : Word} (h2 : v.getLsbD 2 = false) (h0 : v.getLsbD 0 = true) (h1 : v.getLsbD 1 = false) (hs : c.pageState page = 4) :
    c.ctrlWrite page v = (c.withCtrl page v).beginCheck page := by
  unfold ctrlWrite
  simp only [hs, h2, h0, h1]
  rfl

theorem writeCtrl_pos {rq : Requester} (hb : blockOf page ≠ 0) (hm : c.mayWrite rq page = true) (f : Word → Word) :
    c.writeCtrl rq page f = c.ctrlWrite page (f (c.rd page 0x008 &&& 3)) := by
  unfold writeCtrl
  rw [if_neg hb, ifWrites_pos _ hm]

/-! ## The end of a check -/

/-- A check that every stage passes takes the page to RUNNING. -/
theorem checkDone_passes {peer : Chip} {compare : Bool} (hs : c.pageState page = 1) (he : (c.rd page 0x008).getLsbD 0 = true)
    (hst : c.checkStages page = none) (ht : pairScope page = true → compare = true → c.stageTwin peer page = none)
    (hr : c.checks.get (fun _ => 0) page + 2 ≤ c.round) (hd : page = 0x0A1 → c.domainsCheck peer = none) :
    (c.checkDone peer compare page).pageState page = 2 := by
  have hdom : (if page = 0x0A1 then c.domainsCheck peer else none) = none := by
    split
    · next h => exact hd h
    · rfl
  have htwin : (if pairScope page && compare then c.stageTwin peer page else none) = none := by
    split
    · next h =>
      rw [Bool.and_eq_true] at h
      exact ht h.1 h.2
    · rfl
  unfold checkDone
  rw [if_neg (by omega), if_neg (by rw [he]; decide), hst, hdom, htwin]
  dsimp only [Option.orElse]
  have hkeep : ∀ d : Chip, d.pageState page = 2 → (d.pageEffects c page true).pageState page = 2 ∧
      (d.pageEffects c page true).sendRestoreDone.pageState page = 2 := fun d h => by
    unfold pageState at h ⊢
    have hp := StatesKept.pageEffects d c page true
    rw [StatesKept.sendRestoreDone (d.pageEffects c page true) page, hp page]
    exact ⟨h, h⟩
  obtain ⟨h1, h2⟩ := hkeep _ (pageState_setPageState ((((c.applyConfig page).bifurcate c page).startEffects page)) page 2 (by decide))
  split
  · exact h2
  · exact h1

end Chip

/-! ## Keys drawn after a check -/

theorem State.drawKey_spec (s : State) (w : Twin) (d : Nat) : StatesKept (s.chip w) ((s.drawKey w d).chip w) ∧
    (s.drawKey w d).chip w.other = s.chip w.other := by
  have hfree : ∀ v, s.nextFree.2.chip v = s.chip v := fun v => by cases v <;> rfl
  unfold State.drawKey
  dsimp only
  rw [State.chip_mapChip_same, State.chip_mapChip_other, hfree, hfree]
  exact ⟨StatesKept.postEffect _ _ _ _, rfl⟩

/-- Keys that are drawn change no page's state, and leave the twin. -/
theorem State.keysAfter_spec (s old : State) (w : Twin) : StatesKept (s.chip w) ((s.keysAfter old w).chip w) ∧
    (s.keysAfter old w).chip w.other = s.chip w.other := by
  have hfold : ∀ (l : List Nat) (s : State), StatesKept (s.chip w) ((l.foldl (fun s d => s.drawKey w d) s).chip w) ∧
      (l.foldl (fun s d => s.drawKey w d) s).chip w.other = s.chip w.other := fun l => by
    induction l with
    | nil => exact fun s => ⟨.refl _, rfl⟩
    | cons d l ih =>
      intro s
      obtain ⟨h1, h2⟩ := s.drawKey_spec w d
      obtain ⟨k1, k2⟩ := ih (s.drawKey w d)
      exact ⟨h1.trans k1, k2.trans h2⟩
  unfold State.keysAfter
  dsimp only
  split
  · exact ⟨.refl _, rfl⟩
  · exact hfold _ s

/-! ## The statement -/

/-- A write of CTRL by a requester that may make it. -/
theorem writeCtrl_onUp {w : Twin} {rq : Requester} {page : Nat} {s : State} (hup : (s.chip w).up = true) (hb : blockOf page ≠ 0)
    (hm : (s.chip w).mayWrite rq page = true) (f : Word → Word) :
    (s.onUp w fun c => c.writeCtrl rq page f).chip w = (s.chip w).ctrlWrite page (f ((s.chip w).rd page 0x008 &&& 3)) ∧
      (s.onUp w fun c => c.writeCtrl rq page f).chip w.other = s.chip w.other := by
  rw [State.chip_onUp hup, State.chip_onUp_other, Chip.writeCtrl_pos hb hm]
  exact ⟨rfl, rfl⟩

/-- Settles O12: a write of CTRL stores its bits and begins a check where R52 says so; what a page that begins to run brings about changes no
page's state. -/
theorem pageStatesComplete : Obligations.PageStatesComplete := by
  refine ⟨?_, ?_, ?_, ?_, ?_, ?_, ?_, ?_⟩
  · intro w rq page s hup hb hm hs
    obtain ⟨hgo, ho⟩ := writeCtrl_onUp hup hb hm fun v => v ||| 1
    rw [Chip.ctrlWrite_enable (by simp) (by simp) hs] at hgo
    refine ⟨_, rfl, ?_, ?_, ho⟩
    · rw [hgo, Chip.pageState_beginCheck]
    · rw [hgo, Chip.rd_beginCheck_ctrl, Chip.withCtrl_ctrl]
      simp [Chip.ctrlWord]
  · intro w rq page s hup hb hm hs hstop hq
    obtain ⟨hgo, ho⟩ := writeCtrl_onUp hup hb hm fun v => v &&& ~~~1
    rw [Chip.ctrlWrite_running (by simp) hs (fun _ => hstop) (fun h => by simp at h; simp [h] at hq)] at hgo
    refine ⟨_, rfl, ?_, ?_, ho⟩
    · rw [hgo, Chip.withCtrl_pageState, hs]
    · rw [hgo, Chip.withCtrl_ctrl]
      simp [Chip.ctrlWord]
  · intro w rq page s hup hb hm hs he hact
    obtain ⟨hgo, ho⟩ := writeCtrl_onUp hup hb hm fun v => v ||| 2
    rw [Chip.ctrlWrite_running (by simp) hs (fun h => by simp at h; simp [h] at he) (fun _ => hact)] at hgo
    refine ⟨_, rfl, ?_, ?_, ho⟩
    · rw [hgo, Chip.withCtrl_pageState, hs]
    · rw [hgo, Chip.withCtrl_ctrl]
      simp [Chip.ctrlWord]
  · intro w rq page s hup hb hm hs he
    obtain ⟨hgo, ho⟩ := writeCtrl_onUp hup hb hm fun v => v &&& ~~~2
    rw [Chip.ctrlWrite_unquiesce (by simp) (by simpa using he) (by simp) hs] at hgo
    refine ⟨_, rfl, ?_, ?_, ho⟩
    · rw [hgo, Chip.pageState_beginCheck]
    · rw [hgo, Chip.rd_beginCheck_ctrl, Chip.withCtrl_ctrl]
      simp [Chip.ctrlWord]
  · intro w rq page s hup hb hm hs he
    obtain ⟨hgo, ho⟩ := writeCtrl_onUp hup hb hm fun v => v ||| 8
    rw [Chip.ctrlWrite_off (by simp) (by simpa using he) hs] at hgo
    refine ⟨_, rfl, ?_, ?_, ho⟩
    · rw [hgo, Chip.withCtrl_pageState, hs]
    · unfold Chip.frozen
      rw [hgo, Chip.withCtrl_ctrl]
      simp [Chip.ctrlWord]
  · intro w page s hup hs he hst ht hr hd
    obtain ⟨hk, ho⟩ := (s.onUp w fun c => c.checkDone (s.chip w.other) (s.compares w) page).keysAfter_spec s w
    rw [State.chip_onUp hup] at hk
    refine ⟨_, rfl, ?_, ho.trans (State.chip_onUp_other _ _ _)⟩
    have hrun := Chip.checkDone_passes hs he hst ht hr hd
    unfold Chip.pageState at hrun ⊢
    rw [hk page]
    exact hrun
  · intro w page s hup hs he
    refine ⟨_, rfl, ?_, State.chip_onUp_other _ _ _⟩
    rw [State.chip_onUp hup]
    unfold Chip.drained
    dsimp only
    rw [if_neg (not_not_intro hs), if_pos (by rw [he]; rfl)]
    exact Chip.pageState_setPageState _ page 0 (by decide)
  · intro w page s hup hs
    refine ⟨_, rfl, ?_, ?_, State.chip_onUp_other _ _ _⟩
    · rw [State.chip_onUp hup]
      unfold Chip.faultPage
      rw [if_neg (not_not_intro hs)]
      have hkeep : ∀ d : Chip, (d.raiseBit page 30).pageState page = d.pageState page := fun d => by
        unfold Chip.pageState
        rw [StatesKept.of_quiet (Chip.raiseBit_quiet d page 30) page]
      rw [hkeep]
      exact Chip.pageState_setPageState _ page 5 (by decide)
    · rw [State.chip_onUp hup]
      unfold Chip.faultPage
      rw [if_neg (not_not_intro hs)]
      exact Chip.raiseBit_sets _ page 30 (by decide)

end Sys2Proof.Machine
end
